-- ==== Sys2Proof/Word.lean ====
section
/-! DEFINITION. The words of the Calod Q7 and their plainest arithmetic (spec 00, 05, 06). -/

namespace Sys2Proof

/-- A 64-bit scalar value (R85). -/
abbrev W64 := BitVec 64
/-- A 32-bit word: an FP32 pattern, a cell of an accumulator. -/
abbrev W32 := BitVec 32
/-- A 16-bit instruction word (R68). -/
abbrev H16 := BitVec 16
/-- A byte of memory. -/
abbrev Byte := BitVec 8
/-- The number of a scalar register, s0 to s31 (R85). -/
abbrev Reg := BitVec 5
/-- The number of a predicate, a tile or an accumulator (R85). -/
abbrev Num3 := BitVec 3
/-- The number of a plane, a channel or an engine (R85). -/
abbrev Num2 := BitVec 2
/-- One 64-byte row of a tile register (R164), one line of memory. -/
abbrev Row64 := BitVec 512

end Sys2Proof
end

