-- ==== Sys2Proof/Config.lean ====
section
/-! DEFINITION. What the spec leaves open or leaves to standards it names: free values, opaque, with no body. No proof can
see their values, so a statement holds whatever they are. Each is named in a log entry. -/

namespace Sys2Proof.Config

/-- Where the search for a free Linind entry begins (the n-th interning). R217 says other free values serve as well. -/
opaque freeCix : Nat → Nat
/-- Where the search for a free capability number begins (the n-th creation), R17. -/
opaque freeCapid : Nat → Nat
/-- Segments of 16 packets that the queue SRAM of a cluster holds beyond the first; R60 gives no size. -/
opaque moreQueueSegments : Nat
/-- The queue SRAM of a cluster holds at least one segment (log 9). -/
def queueSramSegments : Nat := moreQueueSegments + 1
/-- The set of a rule cache in which a line of a world, rule set and chain lies; R210 gives no index (log 11). -/
opaque ruleSet : Nat → Nat → Nat → Nat
/-- Records of an append log that a segment of 1 KiB of the queue SRAM holds beyond the first; R238 gives no size. -/
opaque moreLogRecords : Nat
/-- A segment of an append log holds at least one record (log 9). -/
def segmentRecords : Nat := moreLogRecords + 1
/-- What the n-th segment of an append log to be swapped out puts into the swap area, by byte; R238 gives a record no layout. -/
opaque logByte : Nat → Nat → Byte
/-- Whether the read of an HBM line under a key that did not write it passes ECC and MAC by chance (R323), by line and read. -/
opaque macCollides : Nat → Nat → Bool
/-- What such a read returns (R323: bytes that no world wrote under the reader's key). -/
opaque collidedByte : Nat → Nat → Byte
/-- The bytes that the rows of a CPYL count for which it could not find, and which were dropped (R284; log 96). -/
opaque droppedBytes : Nat → Nat
/-- What the context spill area of a core's scratchpad reads as, by byte, after the n-th event that moved a context's data into it (R66
gives no layout). -/
opaque spillByte : Nat → Nat → Byte
/-- Bytes of a port's ingress buffer beyond the first; R296 gives no size (log 98). -/
opaque moreIngressBytes : Nat
/-- A port's ingress buffer holds at least one byte. -/
def ingressBytes : Nat := moreIngressBytes + 1
/-- The AES-GCM-256 key stream under a key and an IV (R282, R39), by byte position. -/
opaque gcmStream : Nat → Nat → Nat → Byte
/-- The 16 bytes of the AES-GCM-256 tag under a key and an IV, of the associated data and the ciphertext. -/
opaque gcmTag : Nat → Nat → List Byte → List Byte → Nat → Byte
/-- KMAC256 of a context-save key over a context id (R40): the name of the per-context key. -/
opaque contextKey : Nat → Nat → Nat
/-- AES-256-XTS of a 64-byte line under a key and its device-physical address (R53). -/
opaque xtsEncrypt : Nat → Nat → BitVec 512 → BitVec 512
/-- The inverse direction of AES-256-XTS (R53). -/
opaque xtsDecrypt : Nat → Nat → BitVec 512 → BitVec 512
/-- The 28-bit MAC of a line: KMAC256 over ciphertext and address (R53). -/
opaque lineMac : Nat → Nat → BitVec 512 → BitVec 28
/-- SHAKE256 with a 48-byte output (R50). -/
opaque shake256 : List Byte → BitVec 384
/-- The measurement of the boot ROM (R50 index 0x01). -/
opaque romDigest : BitVec 384
/-- The measurement of the firmware image (R50 index 0x02). -/
opaque firmwareDigest : BitVec 384
/-- The fuse-held entropy of a logic die: 0 the IO die, 1 and 2 compute dies 0 and 1 (R48). -/
opaque fuseEntropy : Nat → BitVec 256
/-- The SLH-DSA-SHAKE-256s key pair that SHAKE256 of an entropy gives, by name (R48, log 5). -/
opaque identityKey : BitVec 256 → Nat
/-- The SLH-DSA-SHAKE-256f key pair of an identity key and a firmware measurement, by name (R48). -/
opaque attestationKey : Nat → BitVec 384 → Nat
/-- The public key of a key pair. -/
opaque publicKey : Nat → List Byte
/-- SLH-DSA-SHAKE-256s and 256f signatures of a message under a key pair (R48, R51). -/
opaque sign256s : Nat → List Byte → List Byte
opaque sign256f : Nat → List Byte → List Byte
/-- The key pair of Muiskarn's manufacturing CA, and the root certificate (R48, R51). -/
opaque caKey : Nat
opaque rootCertificate : List Byte
/-- What the package certificate lists: the serial number, and the digest of each die's identity public key (R48). -/
opaque packageSerial : List Byte
opaque listedDigest : Nat → BitVec 384
/-- The ROM firmware version that GET_INFO reports (R33 word 1). -/
opaque firmwareVersion : BitVec 64
/-- The responder nonce of the n-th signed report (R43). -/
opaque responderNonce : Nat → Nat

/-- What the n-th reading of an uncore counter finds: bits [47:0] the count, bit [48] the overflow. R312 gives no source codes. -/
opaque uncoreReading : Nat → Nat

end Sys2Proof.Config
end

