-- ==== Sys2Proof/Machine/Sparse.lean ====
section
/-! DEFINITION. Sparse maps over plain lists: what the model keeps of memories, tables and register files that are large and
mostly at one value. A map in canonical form has strictly rising keys and no entry equal to the default. -/

namespace Sys2Proof

/-- A map from numbers to values as a list of pairs. -/
abbrev Sparse (α : Type) := List (Nat × α)

namespace Sparse

variable {α : Type}

/-- The value at a key, or the default where the key is not listed. -/
def get (dflt : α) (m : Sparse α) (k : Nat) : α :=
  match m with
  | [] => dflt
  | (j, v) :: rest => if j = k then v else get dflt rest k

/-- The map with a value put at a key, in the place that keeps the keys rising. -/
def put (m : Sparse α) (k : Nat) (v : α) : Sparse α :=
  match m with
  | [] => [(k, v)]
  | (j, w) :: rest => if k < j then (k, v) :: (j, w) :: rest else if k = j then (k, v) :: rest else (j, w) :: put rest k v

/-- The map without a key. -/
def drop (m : Sparse α) (k : Nat) : Sparse α :=
  match m with
  | [] => []
  | (j, w) :: rest => if j = k then drop rest k else (j, w) :: drop rest k

/-- The map with a value at a key, in canonical form: the default value removes the entry. -/
def set [DecidableEq α] (dflt : α) (m : Sparse α) (k : Nat) (v : α) : Sparse α :=
  if v = dflt then drop m k else put m k v

/-- Whether every key of the map is above `lo` and the keys rise strictly. -/
def risingFrom (lo : Nat) (m : Sparse α) : Bool :=
  match m with
  | [] => true
  | (j, _) :: rest => decide (lo ≤ j) && risingFrom (j + 1) rest

/-- Whether no entry of the map equals the default. -/
def noDefault [DecidableEq α] (dflt : α) (m : Sparse α) : Bool :=
  match m with
  | [] => true
  | (_, v) :: rest => decide (v ≠ dflt) && noDefault dflt rest

/-- The canonical form. -/
def wf [DecidableEq α] (dflt : α) (m : Sparse α) : Bool := risingFrom 0 m && noDefault dflt m

end Sparse

end Sys2Proof
end

