-- ==== Sys2Proof/Syntax.lean ====
section
/-! DEFINITION. The instruction set of the Calod Q7 as data: one constructor per row of the opcode table (spec 05 and the
chapters it names), first the 225 instructions in the table's order of pages, then the operations and events of the device
(spec 95), which have no encoding. -/

namespace Sys2Proof

/-- A MOD prefix (R74): ordering, scope and the instruction's own field. All fields 0 is the same as no MOD. -/
structure Mod where
  order : BitVec 2
  scope : BitVec 3
  spec : BitVec 5
  deriving DecidableEq, Repr

/-- No MOD (R74). -/
def Mod.none : Mod := ⟨0, 0, 0⟩

/-- A host write that covers c0 of a function's command block (R28, R29): the function, the value of c0, and which of the
command's host reads (counted from 0 in 64-byte lines) completes with an error, if one does (R327); `key`: the IDE key set that the
write's K bit names, none for a write outside the function's stream (R25, R55). -/
structure Cmd where
  fn : Nat
  c0 : W64
  hostErr : Option Nat
  key : Option Nat
  deriving DecidableEq, Repr

/-- A signed report that LEASE_RENEW carries (R43): its responder nonce, the measurements it lists, and its signature. -/
structure Report where
  nonce : Nat
  meas : List (Nat × Nat)
  signature : List Byte
  deriving DecidableEq, Repr

/-- One posted write to BAR0 (R27, R36, R37): its offset in the window, or in BAR0, its bytes, and the IDE key set that its K bit names,
none for a write outside the function's stream (R25, R55). -/
structure Tlp where
  off : Nat
  bytes : List Byte
  key : Option Nat
  deriving DecidableEq, Repr

/-- The kinds of algorithm that SPDM negotiates; the responder has one of each (R51). -/
inductive Algorithm where
  /-- SLH-DSA-SHAKE-256f, for signing. -/
  | slhDsaShake256f
  /-- SHAKE256 with a 48-byte output, as the hash. -/
  | shake256
  /-- SHAKE256 with a 48-byte output, as the measurement hash. -/
  | measurementShake256
  /-- ML-KEM-1024, for the key exchange. -/
  | mlKem1024
  /-- AES-256-GCM, as the AEAD. -/
  | aes256Gcm
  deriving DecidableEq, Repr

/-- What the checks of boot steps 1 to 3 find (R49). -/
structure BootVerdict where
  firmwareOk : Bool
  ioDieOk : Bool
  die0Ok : Bool
  die1Ok : Bool
  deriving DecidableEq, Repr

/-- A flit on the link (R297, R298): its header in the clear, and its 120 bytes of payload as they travel, enciphered; those of the last
flit of a group end with the tag. Flits of kinds 3 to 5 carry none. -/
structure Flit where
  header : W64
  payload : List Byte
  deriving DecidableEq, Repr

/-- What the peer's security processor reports when a link comes up (R299): whether its SPDM CHALLENGE verifies, whether it
reports boot state GOOD and an equal firmware measurement, the worlds that exist there with their TDI in RUN, which of them have stood
since the link was last up, the number of the port there, and whether this device's direction is number 1 of the link (log 98). -/
structure PeerReport where
  authentic : Bool
  bootGood : Bool
  firmwareEqual : Bool
  worlds : BitVec 16
  kept : BitVec 16
  port : Nat
  side : Bool
  deriving DecidableEq, Repr

/-- A CXL.mem request (R25): a read or a write of one 64-byte line at a device-physical address of the HDM range. -/
structure MemRequest where
  write : Bool
  addr : Nat
  data : List Byte
  deriving DecidableEq, Repr

/-- The instructions and the operations of the device, one constructor per row of the opcode table. -/
inductive Instr where
  /-- R93. Adds two scalar registers modulo 2^64. -/
  | add (d : Reg) (a : Reg) (x : Option Reg)
  /-- R93. Subtracts one scalar register from another modulo 2^64. -/
  | sub (d : Reg) (a : Reg) (x : Option Reg)
  /-- R93. Bitwise and of two scalar registers. -/
  | and (d : Reg) (a : Reg) (x : Option Reg)
  /-- R93. Bitwise or of two scalar registers. -/
  | or (d : Reg) (a : Reg) (x : Option Reg)
  /-- R93. Bitwise exclusive or of two scalar registers. -/
  | xor (d : Reg) (a : Reg) (x : Option Reg)
  /-- R93. Shifts left by the low six bits of the second operand. -/
  | sll (d : Reg) (a : Reg) (x : Option Reg)
  /-- R93. Shifts right logically by the low six bits of the second operand. -/
  | srl (d : Reg) (a : Reg) (x : Option Reg)
  /-- R93. Shifts right arithmetically by the low six bits of the second operand. -/
  | sra (d : Reg) (a : Reg) (x : Option Reg)
  /-- R93. Low 64 bits of the product. -/
  | mul (d : Reg) (a : Reg) (x : Option Reg)
  /-- R93. High 64 bits of the signed product. -/
  | mulh (d : Reg) (a : Reg) (x : Option Reg)
  /-- R93. High 64 bits of the unsigned product. -/
  | mulhu (d : Reg) (a : Reg) (x : Option Reg)
  /-- R93. Signed quotient truncated toward zero, never trapping. -/
  | div (d : Reg) (a : Reg) (x : Option Reg)
  /-- R93. Unsigned quotient, never trapping. -/
  | divu (d : Reg) (a : Reg) (x : Option Reg)
  /-- R93. Signed remainder with the sign of the dividend. -/
  | rem (d : Reg) (a : Reg) (x : Option Reg)
  /-- R93. Signed minimum of two scalar registers. -/
  | min (d : Reg) (a : Reg) (x : Option Reg)
  /-- R93. Signed maximum of two scalar registers. -/
  | max (d : Reg) (a : Reg) (x : Option Reg)
  /-- R94. Copies a scalar register. -/
  | mov (d : Reg) (a : Reg)
  /-- R94. Negates a scalar register. -/
  | neg (d : Reg) (a : Reg)
  /-- R94. Bitwise complement of a scalar register. -/
  | not (d : Reg) (a : Reg)
  /-- R94. Counts leading zero bits. -/
  | clz (d : Reg) (a : Reg)
  /-- R94. Counts trailing zero bits. -/
  | ctz (d : Reg) (a : Reg)
  /-- R94. Counts one bits. -/
  | popc (d : Reg) (a : Reg)
  /-- R94. Sign-extends the low byte. -/
  | sextb (d : Reg) (a : Reg)
  /-- R94. Sign-extends the low halfword. -/
  | sexth (d : Reg) (a : Reg)
  /-- R94. Sign-extends the low word. -/
  | sextw (d : Reg) (a : Reg)
  /-- R94. Zero-extends the low word. -/
  | zextw (d : Reg) (a : Reg)
  /-- R94. Unsigned minimum of d and a. -/
  | minu (d : Reg) (a : Reg)
  /-- R94. Unsigned maximum of d and a. -/
  | maxu (d : Reg) (a : Reg)
  /-- R94. Sets a predicate to the equality of a register and a third register or zero. -/
  | cmpeq (p : Num3) (a : Reg) (x : Option Reg)
  /-- R94. Sets a predicate to a signed less-than compare. -/
  | cmplt (p : Num3) (a : Reg) (x : Option Reg)
  /-- R94. Sets a predicate to an unsigned less-than compare. -/
  | cmpltu (p : Num3) (a : Reg) (x : Option Reg)
  /-- R94. Copies a into d when p0 is true. -/
  | selp (d : Reg) (a : Reg)
  /-- R95. Adds a signed immediate to a register. -/
  | addi (d : Reg) (imm : W64)
  /-- R95. Loads a signed immediate into a register. -/
  | li (d : Reg) (imm : W64)
  /-- R95. Writes an unsigned immediate into the high word of a register. -/
  | lih (d : Reg) (imm : W32)
  /-- R95. Shifts a register left by an immediate amount. -/
  | slli (d : Reg) (n : BitVec 6)
  /-- R95. Shifts a register right logically by an immediate amount. -/
  | srli (d : Reg) (n : BitVec 6)
  /-- R95. Shifts a register right arithmetically by an immediate amount. -/
  | srai (d : Reg) (n : BitVec 6)
  /-- R95. Rotates a register right by an immediate amount. -/
  | rori (d : Reg) (n : BitVec 6)
  /-- R95. Sets a predicate by comparing a register with an immediate under a condition. -/
  | cmpi (p : Num3) (a : Reg) (c : BitVec 2) (imm : W64)
  /-- R98. Branches by a signed halfword offset. -/
  | b (off : W64)
  /-- R98. Branches when a predicate equals the sense bit. -/
  | bp (p : Num3) (sense : Bool) (off : W64)
  /-- R96. Jumps to a checked register target. -/
  | jr (a : Reg)
  /-- R96. Jumps to a checked register target and writes the return address. -/
  | jalr (d : Reg) (a : Reg)
  /-- R96. Jumps to the checked address in s28. -/
  | ret
  /-- R96. Does nothing. -/
  | nop
  /-- R97. Sleeps a copy or supervisor slot until its wake event. -/
  | stop
  /-- R96. And of two predicates. -/
  | pand (d : Num3) (a : Num3)
  /-- R96. Or of two predicates. -/
  | por (d : Num3) (a : Num3)
  /-- R96. Exclusive or of two predicates. -/
  | pxor (d : Num3) (a : Num3)
  /-- R96. Complement of a predicate. -/
  | pnot (d : Num3) (a : Num3)
  /-- R96. Packs the eight predicates into a scalar register. -/
  | ptos (d : Reg)
  /-- R98. Writes the return address to s28 and branches. -/
  | call (off : W64)
  /-- R99. Loads a checked 64-bit word. -/
  | ldd (d : Reg) (a : Reg) (off : W64) (m : Mod)
  /-- R99. Loads a sign-extended 32-bit word. -/
  | ldw (d : Reg) (a : Reg) (off : W64) (m : Mod)
  /-- R99. Stores a checked 64-bit word. -/
  | std (d : Reg) (a : Reg) (off : W64) (m : Mod)
  /-- R99. Stores the low 32 bits of a register. -/
  | stw (d : Reg) (a : Reg) (off : W64) (m : Mod)
  /-- R125. Loads a sign-extended byte. -/
  | ldb (d : Reg) (a : Reg) (off : W64) (m : Mod)
  /-- R125. Loads a zero-extended byte. -/
  | ldbu (d : Reg) (a : Reg) (off : W64) (m : Mod)
  /-- R125. Loads a sign-extended halfword. -/
  | ldh (d : Reg) (a : Reg) (off : W64) (m : Mod)
  /-- R125. Loads a zero-extended halfword. -/
  | ldhu (d : Reg) (a : Reg) (off : W64) (m : Mod)
  /-- R125. Loads a zero-extended word. -/
  | ldwu (d : Reg) (a : Reg) (off : W64) (m : Mod)
  /-- R125. Stores the low byte of a register. -/
  | stb (d : Reg) (a : Reg) (off : W64) (m : Mod)
  /-- R125. Stores the low halfword of a register. -/
  | sth (d : Reg) (a : Reg) (off : W64) (m : Mod)
  /-- R126. Waits for a full word, takes its value and leaves it empty. -/
  | ldf (d : Reg) (a : Reg) (m : Mod)
  /-- R126. Waits for a full word, takes its value and leaves it full. -/
  | ldfk (d : Reg) (a : Reg) (m : Mod)
  /-- R126. Waits for an empty word, writes it and marks it full. -/
  | ste (d : Reg) (a : Reg) (m : Mod)
  /-- R126. Writes a word and marks it full without waiting. -/
  | stf (d : Reg) (a : Reg) (m : Mod)
  /-- R126. Marks a word empty without changing its value. -/
  | feclr (a : Reg)
  /-- R126. Sets a predicate to a word's full/empty bit. -/
  | feq (p : Num3) (a : Reg)
  /-- R128. Invalidates every line of the core's L1. -/
  | invl1
  /-- R128. Prefetches a line into the L2 and L1 without trapping. -/
  | pref (a : Reg)
  /-- R128. Prefetches a line into the L2 only without trapping. -/
  | prefl (a : Reg)
  /-- R131. Loads a tile through a layout record row by row. -/
  | tld (t : Num3) (a : Reg) (b : Reg) (m : Mod)
  /-- R131. Stores a tile's valid window through a layout record. -/
  | tst (t : Num3) (a : Reg) (b : Reg) (m : Mod)
  /-- R134. Loads a whole tile from a local window at a given pitch. -/
  | tlds (t : Num3) (a : Reg) (b : Reg) (m : Mod)
  /-- R134. Stores a tile's valid region to a local window at a given pitch. -/
  | tsts (t : Num3) (a : Reg) (b : Reg) (m : Mod)
  /-- R135. Loads tile rows from tensor rows listed in an index tile. -/
  | tldx (t : Num3) (x : Num3) (a : Reg) (m : Mod)
  /-- R135. Stores tile rows to tensor rows listed in an index tile. -/
  | tstx (t : Num3) (x : Num3) (a : Reg) (m : Mod)
  /-- R138. Copy slot takes a full mailbox descriptor and hands a linear copy to the engine. -/
  | cpy (d : Reg) (a : Reg)
  /-- R138. Copy slot hands a two-dimensional copy to the engine. -/
  | cpy2d (d : Reg) (a : Reg)
  /-- R138. Copy slot hands a copy of tensor rows through a layout to the engine. -/
  | cpyl (d : Reg) (a : Reg)
  /-- R142. Waits until the slot's copies and stores on a path are performed. -/
  | drain (path : BitVec 2)
  /-- R146. Waits until the slot's message queue holds a message, or a limit. -/
  | waitmsg (d : Reg) (a : Reg)
  /-- R146. Pops the oldest message and writes its payload, or reports an empty queue. -/
  | recvmsg (d : Reg) (a : Reg) (m : Mod)
  /-- R144. Sends a 16-byte message to a target slot. -/
  | sendmsg (d : Reg) (a : Reg) (m : Mod)
  /-- R172. Element-wise floating-point add of two tiles. -/
  | tadd (d : Num3) (a : Num3) (b : Num3)
  /-- R172. Element-wise floating-point subtract. -/
  | tsub (d : Num3) (a : Num3) (b : Num3)
  /-- R172. Element-wise floating-point multiply. -/
  | tmul (d : Num3) (a : Num3) (b : Num3)
  /-- R172. Element-wise maximum. -/
  | tmax (d : Num3) (a : Num3) (b : Num3)
  /-- R172. Element-wise minimum. -/
  | tmin (d : Num3) (a : Num3) (b : Num3)
  /-- R172. Element-wise fused multiply-add into the destination. -/
  | tfma (d : Num3) (a : Num3) (b : Num3)
  /-- R173. Selects elements of two tiles by the destination's mask. -/
  | tsel (d : Num3) (a : Num3) (b : Num3)
  /-- R173. Copies elements where a mask tile is true. -/
  | tcpym (d : Num3) (a : Num3) (b : Num3)
  /-- R174. Element-wise saturating integer add. -/
  | tiadd (d : Num3) (a : Num3) (b : Num3)
  /-- R174. Element-wise saturating integer subtract. -/
  | tisub (d : Num3) (a : Num3) (b : Num3)
  /-- R174. Element-wise saturating integer multiply. -/
  | timul (d : Num3) (a : Num3) (b : Num3)
  /-- R174. Element-wise bitwise and. -/
  | tand (d : Num3) (a : Num3) (b : Num3)
  /-- R174. Element-wise bitwise or. -/
  | tor (d : Num3) (a : Num3) (b : Num3)
  /-- R174. Element-wise bitwise exclusive or. -/
  | txor (d : Num3) (a : Num3) (b : Num3)
  /-- R174. Element-wise shift left. -/
  | tshl (d : Num3) (a : Num3) (b : Num3)
  /-- R174. Element-wise shift right. -/
  | tshr (d : Num3) (a : Num3) (b : Num3)
  /-- R175. Element-wise natural exponential via a rounded base-2 argument. -/
  | texp (d : Num3) (a : Num3)
  /-- R175. Element-wise base-2 exponential. -/
  | texp2 (d : Num3) (a : Num3)
  /-- R175. Element-wise base-2 logarithm. -/
  | tlog2 (d : Num3) (a : Num3)
  /-- R175. Element-wise reciprocal. -/
  | trcp (d : Num3) (a : Num3)
  /-- R175. Element-wise reciprocal square root. -/
  | trsq (d : Num3) (a : Num3)
  /-- R175. Element-wise absolute value. -/
  | tabs (d : Num3) (a : Num3)
  /-- R175. Element-wise negation. -/
  | tneg (d : Num3) (a : Num3)
  /-- R176. Converts a tile to the target type named in MOD spec. -/
  | tcvt (d : Num3) (a : Num3) (ty : BitVec 4)
  /-- R177. Sums each row in index order into a column tile. -/
  | trsum (d : Num3) (a : Num3)
  /-- R177. Takes the maximum of each row. -/
  | trmax (d : Num3) (a : Num3)
  /-- R177. Sums each column into a row tile as a whole-tile instruction. -/
  | tcsum (d : Num3) (a : Num3)
  /-- R177. Takes the maximum of each column as a whole-tile instruction. -/
  | tcmax (d : Num3) (a : Num3)
  /-- R178. Broadcasts row 0 of a tile over another tile's shape. -/
  | tbrow (d : Num3) (a : Num3) (b : Num3)
  /-- R178. Broadcasts column 0 of a tile over another tile's shape. -/
  | tbcol (d : Num3) (a : Num3) (b : Num3)
  /-- R178. Transposes a tile as a whole-tile instruction. -/
  | ttrans (d : Num3) (a : Num3)
  /-- R178. Copies a tile with its shape and row scales. -/
  | tmov (d : Num3) (a : Num3)
  /-- R179. Element-wise equality into a mask tile. -/
  | tceq (d : Num3) (a : Num3) (b : Num3)
  /-- R179. Element-wise less-than into a mask tile. -/
  | tclt (d : Num3) (a : Num3) (b : Num3)
  /-- R179. Element-wise less-or-equal into a mask tile. -/
  | tcle (d : Num3) (a : Num3) (b : Num3)
  /-- R179. Element-wise inequality into a mask tile. -/
  | tcne (d : Num3) (a : Num3) (b : Num3)
  /-- R179. Marks NaN elements in a mask tile. -/
  | tisnan (d : Num3) (a : Num3)
  /-- R179. Unsigned bit-pattern less-than into a mask tile. -/
  | tcltu (d : Num3) (a : Num3) (b : Num3)
  /-- R179. Unsigned bit-pattern less-or-equal into a mask tile. -/
  | tcleu (d : Num3) (a : Num3) (b : Num3)
  /-- R180. Writes a tile's shape word and clears bytes outside the valid region. -/
  | tshape (t : Num3) (a : Reg)
  /-- R180. Reads a tile's shape word. -/
  | tshget (t : Num3) (a : Reg)
  /-- R180. Writes a shape word and zeroes the tile. -/
  | tzero (t : Num3) (a : Reg)
  /-- R180. Fills every valid element with a scalar value. -/
  | tfill (t : Num3) (a : Reg)
  /-- R180. Reads one element's bits into a scalar register. -/
  | tgete (t : Num3) (a : Reg)
  /-- R180. Writes one element from a scalar register. -/
  | tsete (t : Num3) (a : Reg)
  /-- R180. Sets a tile's valid rows. -/
  | tmaskr (t : Num3) (a : Reg)
  /-- R180. Sets a tile's valid columns. -/
  | tmaskc (t : Num3) (a : Reg)
  /-- R181. Adds a scalar to every valid element. -/
  | tadds (d : Num3) (a : Num3) (b : Reg)
  /-- R181. Multiplies every valid element by a scalar. -/
  | tmuls (d : Num3) (a : Num3) (b : Reg)
  /-- R181. Takes the maximum of each element and a scalar. -/
  | tmaxs (d : Num3) (a : Num3) (b : Reg)
  /-- R181. Subtracts a scalar from every valid element. -/
  | tsubs (d : Num3) (a : Num3) (b : Reg)
  /-- R183. Folds channel items into tile rows by addition until END. -/
  | tsadd (d : Num3) (c : Num2)
  /-- R183. Folds channel items into tile rows by maximum until END. -/
  | tsmax (d : Num3) (c : Num2)
  /-- R183. Copies channel items into tile rows until END. -/
  | tscpy (d : Num3) (c : Num2)
  /-- R183. Folds channel items into tile rows by fused multiply-add until END. -/
  | tsfma (d : Num3) (c : Num2) (b : Num3)
  /-- R184. Places a tile's valid rows and an END into the downstream core's channel. -/
  | tsend (d : Num3) (c : Num2)
  /-- R197. Multiplies tile rows by the active plane half into an accumulator. -/
  | mma (a : Num3) (t : Num3) (w : Num2)
  /-- R197. Matrix multiply replacing the old accumulator rows. -/
  | mmaz (a : Num3) (t : Num3) (w : Num2)
  /-- R197. Matrix multiply with row and column scales. -/
  | mmas (a : Num3) (t : Num3) (w : Num2)
  /-- R200. Matrix multiply of Eyepiece-absorbed tile rows. -/
  | mmaa (a : Num3) (t : Num3) (w : Num2) (sel : BitVec 4)
  /-- R200. Matrix multiply of Eyepiece-expanded tile rows. -/
  | mmax (a : Num3) (t : Num3) (w : Num2) (sel : BitVec 4)
  /-- R193. Loads the shadow half of a plane from a layout. -/
  | ldstat (w : Num2) (a : Reg) (b : Reg) (m : Mod)
  /-- R194. Loads a chunk of the projection buffer. -/
  | ldproj (a : Reg) (b : Reg) (m : Mod)
  /-- R194. Loads the shadow half's column scales. -/
  | ldscl (w : Num2) (a : Reg) (b : Reg) (m : Mod)
  /-- R189. Reads a 16-column block of an accumulator into a tile. -/
  | accrd (a : Num3) (t : Num3) (rb : Num3)
  /-- R189. Writes a tile into a 16-column block of an accumulator. -/
  | accwr (a : Num3) (t : Num3) (rb : Num3)
  /-- R189. Zeroes a claimed accumulator. -/
  | accz (a : Num3)
  /-- R189. Claims an accumulator with a type and zeroes it, waiting for a foreign claim. -/
  | accclm (a : Num3) (ty : BitVec 2)
  /-- R189. Zeroes and releases an accumulator. -/
  | accrel (a : Num3)
  /-- R187. Exchanges the active and shadow halves of a plane. -/
  | swap (w : Num2)
  /-- R187. Claims and clears a plane, waiting for a foreign claim. -/
  | plclm (w : Num2)
  /-- R187. Clears and releases a plane. -/
  | plrel (w : Num2)
  /-- R187. Clears a plane and keeps the claim. -/
  | plz (w : Num2)
  /-- R201. Writes Eyepiece-expanded rows into a BF16 tile. -/
  | epexp (d : Num3) (a : Num3) (sel : BitVec 4)
  /-- R201. Writes Eyepiece-absorbed rows into a BF16 tile. -/
  | epabs (d : Num3) (a : Num3) (sel : BitVec 4)
  /-- R224. Fused atomic add at the word's bank. -/
  | aadd (d : Reg) (a : Reg) (m : Mod)
  /-- R224. Fused atomic and. -/
  | aand (d : Reg) (a : Reg) (m : Mod)
  /-- R224. Fused atomic or. -/
  | aor (d : Reg) (a : Reg) (m : Mod)
  /-- R224. Fused atomic exclusive or. -/
  | axor (d : Reg) (a : Reg) (m : Mod)
  /-- R224. Fused atomic signed minimum. -/
  | amin (d : Reg) (a : Reg) (m : Mod)
  /-- R224. Fused atomic signed maximum. -/
  | amax (d : Reg) (a : Reg) (m : Mod)
  /-- R224. Fused atomic unsigned minimum. -/
  | aminu (d : Reg) (a : Reg) (m : Mod)
  /-- R224. Fused atomic unsigned maximum. -/
  | amaxu (d : Reg) (a : Reg) (m : Mod)
  /-- R224. Fused atomic swap. -/
  | aswap (d : Reg) (a : Reg) (m : Mod)
  /-- R224. Fused atomic compare-and-swap with a required third register. -/
  | acas (d : Reg) (a : Reg) (b : Reg) (m : Mod)
  /-- R224. Fused atomic FP32 add on the low word. -/
  | afadd (d : Reg) (a : Reg) (m : Mod)
  /-- R220. Queues a reservation on a word and waits for the grant. -/
  | rsv (d : Reg) (a : Reg) (m : Mod)
  /-- R221. Stores and ends a reservation, reporting success in p7. -/
  | rls (d : Reg) (a : Reg) (m : Mod)
  /-- R221. Ends a reservation without storing. -/
  | rlsn (a : Reg) (m : Mod)
  /-- R227. Waits on the watch set, parking the context. -/
  | waitrs (d : Reg) (a : Reg)
  /-- R226. Adds a word to the watch set and reads it. -/
  | rsvw (d : Reg) (a : Reg) (m : Mod)
  /-- R228. Orders the thread's accesses at a scope, with a required MOD. -/
  | fence (m : Mod)
  /-- R231. Arrives at a barrier with release. -/
  | bararr (d : Reg) (a : Reg)
  /-- R231. Waits out a barrier phase and acquires. -/
  | barwait (d : Reg) (a : Reg)
  /-- R231. Arrives at a barrier and waits for that phase. -/
  | barsync (d : Reg) (a : Reg)
  /-- R232. Adds expected bytes to a barrier's pending count. -/
  | barexp (d : Reg) (a : Reg)
  /-- R233. Initialises a barrier and releases its waiters. -/
  | barinit (d : Reg) (a : Reg)
  /-- R230. Reads word 0 of a barrier. -/
  | barqry (d : Reg) (a : Reg)
  /-- R236. Parks while a word equals a value. -/
  | waitva (d : Reg) (a : Reg)
  /-- R237. Releases and wakes the oldest waiter on an address. -/
  | wake (d : Reg) (a : Reg) (m : Mod)
  /-- R237. Releases and wakes every waiter on an address. -/
  | wakeall (d : Reg) (a : Reg) (m : Mod)
  /-- R103. Runs a child packet in the slot and pushes the parent's continuation. -/
  | spawn (a : Reg)
  /-- R104. Parks on a join word until it reads zero. -/
  | sync (a : Reg)
  /-- R105. Parks the context as ready and frees the slot. -/
  | yield
  /-- R106. Retires the task, splits its segment and decrements its join word. -/
  | texit
  /-- R107. Writes the running context's packet image to memory. -/
  | pktget (a : Reg)
  /-- R238. Appends one record to the stack domain's append log. -/
  | append (d : Reg) (a : Reg) (op : BitVec 4)
  /-- R238. Appends up to 64 records from descriptors. -/
  | appendf (d : Reg) (a : Reg) (op : BitVec 4)
  /-- R239. Starts the log-merge engine on a domain's log and returns a ticket. -/
  | merge (d : Reg) (a : Reg)
  /-- R239. Waits for a merge ticket and acquires its applications. -/
  | mergew (d : Reg) (a : Reg)
  /-- R242. Releases and stages a word of an engine command, handing it over when complete. -/
  | epush (d : Reg) (e : Num2)
  /-- R242. Waits for and pops an engine result with acquire. -/
  | epop (d : Reg) (e : Num2)
  /-- R242. Reads an engine's FIFO counts. -/
  | eqry (d : Reg) (e : Num2)
  /-- R100. Reads a control register. -/
  | krd (d : Reg) (a : Reg)
  /-- R100. Writes a control register. -/
  | kwr (d : Reg) (a : Reg)
  /-- R276. Traps SWTRAP with an operand. -/
  | trap (a : Reg)
  /-- R277. Returns a trapped slot or the nested supervisor to its k.epc. -/
  | rte
  /-- R286. Halts the slot in an attached world, else traps BKPT. -/
  | bkpt
  /-- R286. Halts a slot or a core and writes a snapshot. -/
  | haltt (d : Reg) (a : Reg)
  /-- R279. Moves a stopped slot's context into the thread-context cache. -/
  | ctxsave (d : Reg) (a : Reg)
  /-- R279. Makes a held context-cache entry ready. -/
  | ctxload (a : Reg)
  /-- R280. Writes a cache entry to memory as a sealed image. -/
  | ctxout (d : Reg) (a : Reg)
  /-- R281. Verifies and reads a sealed image into a held cache entry. -/
  | ctxin (d : Reg) (a : Reg)
  /-- R278. Stops a work slot at its stop point. -/
  | preempt (d : Reg) (a : Reg)
  /-- R286. Returns a halted or stopped slot to RUN. -/
  | resume (a : Reg)
  /-- R284. Retries the failed chunk of a held copy. -/
  | cpyretry (a : Reg)
  /-- R284. Drops the failed chunk or row of a held copy and continues. -/
  | cpyskip (a : Reg)
  /-- R284. Ends a held copy. -/
  | cpyabort (a : Reg)
  /-- R204. Reads the slot's chain or one of its links. -/
  | chrd (d : Reg) (a : Reg)
  /-- R205. Appends a link to the chain after any revocation sweep. -/
  | adopt (d : Reg) (a : Reg)
  /-- R206. Removes the innermost link of the chain. -/
  | unadopt (d : Reg)
  /-- R207. Reads the current segment's meter or a link's would-be split. -/
  | metrd (d : Reg) (a : Reg)
  /-- R208. Checks an access without performing it and sets a predicate. -/
  | capchk (p : Num3) (a : Reg) (kind : BitVec 2)
  /-- R256. Loads a slice of latent rows into a plane's shadow half. -/
  | kvld (w : Num2) (a : Reg) (b : Reg) (m : Mod)
  /-- R257. Stores a chunk of latent rows, optionally appending. -/
  | kvst (t : Num3) (a : Reg) (b : Reg) (m : Mod)
  /-- R258. Reads token multiplicities into a UINT8 tile. -/
  | kvmult (t : Num3) (a : Reg) (b : Reg) (m : Mod)
  /-- R259. Adds the multiplicity bias to scores. -/
  | scoreb (d : Num3) (a : Num3) (b : Num3)
  /-- R262. Combines two attention triples. -/
  | tripc (d : Num3) (a : Num3) (b : Num3)
  /-- R268. Pushes MERGE_PAGES to the Domino engine and waits for its result. -/
  | dmerge (d : Reg) (a : Reg)
  /-- R80. An undefined or malformed instruction word traps ILLEGAL. -/
  | illegalEncoding (tval : W64)
  /-- R90. A waiting instruction completes and its thread becomes ready at its next own turn. -/
  | instructionCompletion (core : Nat) (slot : Nat)
  /-- R62. A core searches for work for a free slot, repeating every 256 cycles. -/
  | slotSearch (core : Nat)
  /-- R63. The result of a steal probe arrives and the packet starts or the next victim is probed. -/
  | stealProbeResult (core : Nat)
  /-- R59. The distributor moves a launch-queue packet to a core's deque. -/
  | distributorDelivery (world : Nat)
  /-- R64. A packet waiting over 65,536 cycles moves one band higher. -/
  | packetAging (core : Nat) (band : Nat)
  /-- R64. A ready parked context waiting over 65,536 cycles counts one band higher. -/
  | contextAging (core : Nat) (entry : Nat)
  /-- R60. A swapped segment of a deque, or (band 4 of a world's lowest-numbered core) of a launch queue, returns to the queue SRAM when
  room appears. -/
  | queueSegmentSwapIn (core : Nat) (band : Nat)
  /-- R66. A held leaving thread completes its move into the context cache when room appears. -/
  | contextMove (core : Nat)
  /-- R101. k.quantum steps from 1 to 0 and queues a QUANTUM record. -/
  | quantumExpiry (core : Nat) (slot : Nat)
  /-- R274. Work of a higher band waiting 4,096 cycles queues a PREEMPT_REQ record. -/
  | preemptReq (core : Nat) (band : Nat)
  /-- R222. A reservation held 4,096 cycles is revoked. -/
  | reservationTimeout (loc : Nat)
  /-- R219. A bank grants a queued reservation or atomic its word. -/
  | reservationGrant (loc : Nat)
  /-- R127. A change of a full/empty bit serves the oldest admitted waiter. -/
  | feWaiterServed (loc : Nat)
  /-- R146. WAITMSG reaches its cycle limit and completes with zero. -/
  | waitmsgTimeout (core : Nat) (slot : Nat)
  /-- R227. WAITRS reaches its cycle limit and resumes with an empty mask. -/
  | waitrsTimeout (core : Nat) (entry : Nat)
  /-- R244. A buffered store is written at its target. -/
  | storePerform (core : Nat) (k : Nat)
  /-- R250. An L1 fill arrives and is installed or only delivered. -/
  | l1Fill (core : Nat) (k : Nat)
  /-- R145. An arriving message is placed in a slot queue or the overflow buffer. -/
  | messagePlacement (core : Nat)
  /-- R139. The copy engine moves one 64-byte chunk and applies its barrier landing. -/
  | copyChunk (core : Nat) (k : Nat)
  /-- R140. A finished copy sends its completion message. -/
  | copyCompletionMessage (core : Nat) (k : Nat)
  /-- R141. A waiting copy fault traps the requester at its next instruction boundary. -/
  | copyfaultDelivery (core : Nat) (slot : Nat)
  /-- R239. The log-merge engine sorts and applies a log's records in turn. -/
  | logMergeRun (world : Nat) (domain : Nat)
  /-- R241. Engine e0 command that merges a domain's log. -/
  | e0Merge (k : Nat)
  /-- R241. Engine e3 command that gathers indexed tensor rows. -/
  | gather (k : Nat)
  /-- R266. Domino engine command that merges neighbouring entries of pages. -/
  | mergePages (k : Nat)
  /-- R265. Domino engine command that sets the world's merge threshold. -/
  | setTau (k : Nat)
  /-- R304. Collective engine reduction over a group's tree. -/
  | allreduce (k : Nat)
  /-- R302. Collective engine gather of every member's elements. -/
  | allgather (k : Nat)
  /-- R302. Collective engine reduction with each member receiving its share. -/
  | reducescatter (k : Nat)
  /-- R302. Collective engine send of bytes to a peer on a port. -/
  | send (k : Nat)
  /-- R302. Collective engine receive matched to a peer's SEND. -/
  | recv (k : Nat)
  /-- R302. Collective engine sends a work packet to a peer. -/
  | pktsend (k : Nat)
  /-- R56. Zeroing of an SRAM target finishes and it is released to its new world. -/
  | zeroingComplete (core : Nat)
  /-- R211. A waiting revocation is applied and its Linind passes begin. -/
  | revocationSweep
  /-- R211. The sweep flushes every rule cache and the command completes. -/
  | revocationComplete
  /-- R33. Command that writes the function's information record. -/
  | getInfo (c : Cmd)
  /-- R32. Command that creates a world with cores, extents and keys. -/
  | worldCreate (c : Cmd)
  /-- R32. Command that binds a world to a TDI. -/
  | worldAssign (c : Cmd)
  /-- R293. Command that stops, scrubs and tears down a world. -/
  | worldDestroy (c : Cmd)
  /-- R327. Command that copies and measures an image into a world. -/
  | loadImage (c : Cmd)
  /-- R35. Command that accepts packets from host memory. -/
  | launch (c : Cmd)
  /-- R217. Command that makes a principal live and interns its root chain. -/
  | principalAdd (c : Cmd)
  /-- R211. Command that revokes a principal and sweeps its chains. -/
  | principalRevoke (c : Cmd)
  /-- R32. Command that replaces a rule set and flushes rule caches. -/
  | ruleSet (c : Cmd)
  /-- R17. Command that creates a capability. -/
  | capCreate (c : Cmd)
  /-- R32. Command that destroys a capability once caches drop it. -/
  | capDestroy (c : Cmd)
  /-- R43. LEASE_RENEW with c3 = 0 renewing the world memory key lease. -/
  | leaseRenewWorldMemory (c : Cmd) (r : Report)
  /-- R42. LEASE_RENEW with c3 = 1 renewing the live IDE key sets. -/
  | leaseRenewIdeStream (c : Cmd) (r : Report)
  /-- R42. LEASE_RENEW with c3 = 2 renewing the context-save key. -/
  | leaseRenewContextSave (c : Cmd) (r : Report)
  /-- R292. Command that writes principals' meters to host memory. -/
  | meterRead (c : Cmd)
  /-- R39. CHECKPOINT with c3[0] = 0 writing the sealed image of all extents. -/
  | checkpointSave (c : Cmd)
  /-- R39. CHECKPOINT with c3[0] = 1 verifying and restoring an image. -/
  | checkpointRestore (c : Cmd)
  /-- R286. DEBUG_ATTACH with c1[0] = 1 attaching the debugger. -/
  | debugAttach (c : Cmd)
  /-- R286. DEBUG_ATTACH with c1[0] = 0 detaching and resuming halted slots. -/
  | debugDetach (c : Cmd)
  /-- R32. A command with an undefined opcode completes with BAD_OPCODE. -/
  | badOpcode (c : Cmd)
  /-- R29. A write covering c0 while BUSY issues nothing and sets LOST. -/
  | lostCommandWrite (fn : Nat) (t : Tlp)
  /-- R31. A command writes its final status word and its done line. -/
  | commandCompletion (fn : Nat)
  /-- R27. A write to a register or window word with no behaviour of its own. -/
  | registerWrite (fn : Nat) (t : Tlp)
  /-- R36. A host write to the packet window accepts a packet into the launch queue. -/
  | packetWindowWrite (fn : Nat) (t : Tlp)
  /-- R37. A host write to the wake window wakes parked waiters. -/
  | wakeWindowWrite (fn : Nat) (t : Tlp)
  /-- R118. A write of a (world, cluster) way mask takes effect at all slices. -/
  | wayMaskWrite (off : Nat) (size : Nat) (v : W64)
  /-- R274. A KRD of k.trapq pops the oldest supervisor record. -/
  | trapqPop (d : Reg)
  /-- R274. A KWR of zero to k.trapq empties the record queue. -/
  | trapqClear
  /-- R123. A supervisor write to TLBINV invalidates translations device-wide. -/
  | tlbinvWrite (v : W64)
  /-- R111. A write to SEQBASE or SEQSIZE completes when every core resolves with it. -/
  | seqRegisterWrite (off : Nat) (v : W64)
  /-- R25. DOE discovery request on a function's mailbox. -/
  | doeDiscovery (fn : Nat) (bytes : Nat)
  /-- R51. SPDM request answered with version 1.3. -/
  | getVersion (fn : Nat)
  /-- R51. SPDM capabilities request. -/
  | getCapabilities (fn : Nat)
  /-- R51. SPDM algorithm negotiation. -/
  | negotiateAlgorithms (fn : Nat) (offered : List Algorithm)
  /-- R51. SPDM request for certificate digests. -/
  | getDigests (fn : Nat)
  /-- R51. SPDM request for a certificate chain. -/
  | getCertificate (fn : Nat) (slot : Nat)
  /-- R51. SPDM challenge answered with a signed response. -/
  | challenge (fn : Nat) (slot : Nat)
  /-- R50. SPDM request for signed measurements with a responder nonce. -/
  | getMeasurements (fn : Nat) (session : Nat) (index : Nat)
  /-- R51. SPDM session key exchange by ML-KEM-1024. -/
  | keyExchange (fn : Nat)
  /-- R51. SPDM session finish. -/
  | finish (fn : Nat) (session : Nat)
  /-- R52. SPDM heartbeat on a session. -/
  | heartbeat (fn : Nat) (session : Nat)
  /-- R51. SPDM session key update. -/
  | keyUpdate (fn : Nat) (session : Nat)
  /-- R52. SPDM end of session, sending a bound TDI to ERROR. -/
  | endSession (fn : Nat) (session : Nat)
  /-- R52. A session with no message for 60 s ends. -/
  | sessionTimeout (fn : Nat) (session : Nat)
  /-- R34. TDISP request locking a TDI's configuration. -/
  | lockInterfaceRequest (fn : Nat) (session : Nat)
  /-- R34. TDISP request moving a TDI to RUN. -/
  | startInterfaceRequest (fn : Nat) (session : Nat)
  /-- R34. TDISP request returning a TDI to CONFIG_UNLOCKED. -/
  | stopInterfaceRequest (fn : Nat) (session : Nat)
  /-- R34. A write to locked configuration sends the TDI to ERROR. -/
  | lockedConfigWrite (fn : Nat)
  /-- R55. IDE_KM installs an IDE key. -/
  | keyProg (fn : Nat) (session : Nat) (set : Nat) (out : Bool)
  /-- R55. IDE_KM enables a key set and starts its lease. -/
  | keySetGo (fn : Nat) (session : Nat) (set : Nat) (out : Bool)
  /-- R55. The host switches a stream to its other key set. -/
  | ideKeySetSwitch (fn : Nat) (set : Nat)
  /-- R55. A retiring key set retires once its requests are answered and 10 ms have passed. -/
  | ideKeySetRetire (fn : Nat) (set : Nat)
  /-- R34. A TLP failing IDE integrity sends the TDI to ERROR. -/
  | ideIntegrityFailure (fn : Nat)
  /-- R44. A world memory key lease expires and the world freezes. -/
  | worldKeyLeaseExpiry (world : Nat)
  /-- R44. An IDE key set's lease expires and it stops. -/
  | ideKeySetExpiry (fn : Nat) (set : Nat) (out : Bool)
  /-- R44. The context-save key's lease expires. -/
  | contextSaveKeyExpiry (world : Nat)
  /-- R301. An Ecmar key generation's lease ends and it retires. -/
  | linkKeyGenerationExpiry (port : Nat) (rx : Bool) (gen : Bool)
  /-- R40. The checkpoint image key's lease ends. -/
  | checkpointKeyExpiry
  /-- R49. Power is applied and the boot sequence runs. -/
  | powerOn (v : BootVerdict)
  /-- R41. Power is lost and every key and lease with it. -/
  | powerLoss
  /-- R308. The Heliostat enables the next cluster. -/
  | clusterEnable
  /-- R309. An idle array is gated after 2^20 cycles. -/
  | arrayGating (core : Nat)
  /-- R310. A die's throttle level changes with temperature or power. -/
  | throttleLevelChange (die : Nat) (tj : Nat) (power : Nat)
  /-- R310. At 115 °C the security processor removes power. -/
  | overTemperature (die : Nat) (tj : Nat)
  /-- R313. MCTP request for temperatures, power, levels, boot state and clock. -/
  | getTelemetry
  /-- R313. MCTP request reading or selecting an uncore counter. -/
  | uncore (die : Nat) (counter : Nat) (source : Option Nat)
  /-- R313. MCTP request setting the module power cap. -/
  | setPowerCap (watts : Nat)
  /-- R298. An Ecmar flit or group is received and verified. -/
  | flitReceive (port : Nat) (f : List Flit)
  /-- R296. A PAUSE flit halts sending on a link. -/
  | pauseFlit (port : Nat)
  /-- R296. A RESUME flit restarts sending on a link. -/
  | resumeFlit (port : Nat)
  /-- R300. A RETIRE flit retires the old key generation. -/
  | retireFlit (port : Nat) (gen : Bool)
  /-- R299. A link comes up after mutual SPDM authentication. -/
  | linkUp (port : Nat) (p : PeerReport)
  /-- R305. A link goes down and fails its collectives. -/
  | linkDown (port : Nat)
  /-- R300. 600 s after installation a new link key generation is installed. -/
  | linkKeyRotation (port : Nat)
  /-- R305. A failure notice ends a collective with GEN_RETIRED or LINK_DOWN. -/
  | collectiveFailureNotice (port : Nat) (world : Nat) (group : Nat) (seq : Nat) (code : Nat)
  /-- R184. A TSEND item or END is placed in the downstream core's channel, 40 cycles after the first and then one per cycle, and serves a waiting receiving instruction. -/
  | channelItemPlacement (core : Nat)
  /-- R25. A host CXL.mem read or write to a world 1 extent arrives at the host port and is checked by the firewall. -/
  | cxlMemRequest (q : MemRequest)
  /-- R52. A secured SPDM message fails AEAD verification, so the session ends and a bound TDI enters ERROR. -/
  | sessionAeadFailure (fn : Nat) (session : Nat)
  deriving DecidableEq, Repr

end Sys2Proof
end

