-- ==== Sys2Proof/Machine/State.lean ====
section
/-! DEFINITION. The state of the machine, as plain data: every piece of state that the spec gives the Calod Q7 (INVENTORY.md
lists each with its rule), the reasons a step can stop, and the state after reset. -/

namespace Sys2Proof.Machine

/-- Why the machine stops. -/
inductive Fault where
  /-- Raised by `step` when the module has no power and the next act is not POWER_ON: the spec gives an unpowered module no
  behaviour (R41, R310). Safe: nothing is claimed of what follows. -/
  | noPower
  deriving DecidableEq, Repr

/-- Why the model does not say what happens. -/
inductive Refusal where
  /-- Raised by `exec` for an instruction that has no meaning yet, by its mnemonic. Safe: nothing is claimed of it. -/
  | notModelled (mnemonic : String)
  deriving DecidableEq, Repr

/-! ## Slots and contexts -/

/-- The state field of k.status (R272). -/
inductive SlotSt where
  | free | run | wait | trapped | stopped | halted | frozen
  deriving DecidableEq, Repr

/-- How a context that leaves its slot by parking waits: ready since a cycle (R105), for a wake (R104, R236), or for a trigger of
its watch set, with the cycle of its limit (R227). -/
inductive Park where
  | ready (since : Nat)
  | waiter
  | watching (limit : Option Nat)
  deriving DecidableEq, Repr

/-- What a slot in state WAIT waits for. -/
inductive Wait where
  /-- Nothing: the slot is not waiting. -/
  | none
  /-- The instruction has had its effect and its completion time has not come (R90, R91). -/
  | complete
  /-- A row-granular instruction stands before a row (R167, R199). -/
  | rows
  /-- The request stands in the queue of a full/empty word (R127). -/
  | fe (loc : Nat)
  /-- The request stands in the reservation queue of a word (R219). -/
  | turn (loc : Nat)
  /-- A barrier phase (R231). -/
  | barrier (loc phase : Nat)
  /-- A TSEND that waits for room: channel, tile and instruction length (R184). -/
  | send (chan tile len : Nat)
  /-- The placement of the message that it has sent (R145). -/
  | net
  /-- Room for its context in the thread-context cache and the spill area (R66); `told`: its CTX_FULL record has been made (R274). -/
  | leaving (p : Park) (told : Bool)
  /-- A wake event (R97), by a STOP of a length in bytes. -/
  | stop (len : Nat)
  /-- A TEXIT before it reaches its join word's bank: its earlier stores are being performed (R106). -/
  | retiring
  /-- Another condition. `withdrawn`: whether a pre-emption withdraws the instruction at once (R278). -/
  | blocked (withdrawn : Bool)
  deriving DecidableEq, Repr

/-- A stop that has been asked of a slot and takes effect at its stop point (R278, R285, R286). -/
inductive StopReq where
  | none
  | preempt
  | halt
  | freeze (cause : Byte)
  deriving DecidableEq, Repr

/-- A tile register: shape word, 32 rows of 64 bytes, row-scale vector (R164, R132, R326). -/
structure Tile where
  shape : W64
  rows : Vector Row64 32
  scales : Vector W32 32
  deriving DecidableEq, Repr

/-- One half of a weight plane: shape word, 64 rows of 128 weights in 16-bit containers, column scales (R185). -/
structure Half where
  shape : W64
  rows : Vector (BitVec 2048) 64
  scales : Vector W32 128
  deriving DecidableEq, Repr

/-- A weight plane with its claim (R185, R186). -/
structure Plane where
  claimed : Bool
  owner : Nat
  active : Half
  shadow : Half
  deriving DecidableEq, Repr

/-- An accumulator: the state word's fields and 32 rows of 128 cells (R188); `lock`: the slot whose instruction holds it, and the
slots that wait for the lock in order of issue (R191). -/
structure Acc where
  type : BitVec 2
  claimed : Bool
  owner : Nat
  lock : Option Nat
  queue : List Nat
  rows : Vector (BitVec 4096) 32
  deriving DecidableEq, Repr

/-- An entry of the watch set (R226): the address as written, the location and size of its granule, and whether a write by
another agent has triggered it. -/
structure Watch where
  addr : W64
  loc : Nat
  size : Nat
  triggered : Bool
  deriving DecidableEq, Repr

/-- A slot's part of one engine (R240, R242): the staging area, the result FIFO, and the commands accepted and unfinished. -/
structure EngPart where
  staged : List W64
  results : List W64
  head : Nat
  unfinished : Nat
  deriving DecidableEq, Repr

/-- A message with its header (R143): 16 bytes of payload. -/
structure Msg where
  header : W64
  w0 : W64
  w1 : W64
  /-- The scope of the acquire that a kind 1 message carries (R140). -/
  acqScope : BitVec 3
  deriving DecidableEq, Repr

/-- A trap's registers (R273). -/
structure TrapInfo where
  cause : Byte
  tval : W64
  tcoord : W64
  tfmt : W64
  deriving DecidableEq, Repr

/-- A slot with its context (R66, R85, R86, R272). The same record stands in the thread-context cache. -/
structure Slot where
  st : SlotSt
  nest : Bool
  waiting : Wait
  /-- The instruction at pc has issued and waited, and what it waits for may have come about: it goes on at a turn of the slot, which is
  no new issue. -/
  reissue : Bool
  /-- The instruction at pc as it was decoded when it issued, and its length in bytes: one that waits is not fetched again. -/
  issued : Option (Instr × Nat)
  stopReq : StopReq
  pc : W64
  s : Vector W64 32
  p : Vector Bool 8
  cause : W64
  epc : W64
  tval : W64
  tcoord : W64
  tfmt : W64
  restart : W64
  fpc : W64
  flags : W64
  fmt : W64
  scl : W64
  chain : W64
  /-- The core clock at which k.quantum reaches 0; none: no limit (R101). -/
  quantum : Option Nat
  accown : BitVec 8
  plown : BitVec 4
  meter : W64
  task : W64
  tiles : Vector Tile 8
  join : W64
  band : Nat
  aged : Bool
  scope : Nat
  /-- The packet image that PKTGET returns (R107). -/
  pkt : Vector W64 8
  watch : List Watch
  /-- The words reserved, oldest first (R220). -/
  held : List Nat
  eng : Vector EngPart 4
  /-- The copy fault that waits with the slot (R141), and the instruction boundary it waits for. -/
  copyFault : Option TrapInfo
  /-- The core clock at which WAITMSG gives up, where it has a limit (R146). -/
  limit : Option Nat
  /-- The address of the instruction in which the context is parked (R280). -/
  waitpc : W64
  /-- k.wmsel (R118). -/
  wmsel : W64
  /-- The child packet of a SPAWN whose checks have passed (R103): the SPAWN waits for its join word's bank or for room. -/
  spawning : Option (Vector W64 8)
  /-- The word that the instruction at pc has popped at qi, until it completes (R102). -/
  popped : Option W64
  /-- The device cycle in which the instruction at pc issued (R100), and k.fpc as it stood there (R154). -/
  issuedAt : Nat
  fpcAt : W64
  /-- The model's name of the context, by which a parked or saved one is found again. -/
  uid : Nat
  /-- Capabilities already charged for the instruction at pc (R20). -/
  charged : List Nat
  /-- When the context was dispatched (R274). -/
  dispatchedAt : Nat
  deriving DecidableEq, Repr

/-- What a context in the cache waits for (R66, R279): it is held for CTXLOAD, or parked as its instruction says. -/
inductive CtxSt where
  | held
  | parked (p : Park)
  deriving DecidableEq, Repr

/-- An entry of the thread-context cache with its data in the spill area (R66). -/
structure CtxEntry where
  ctx : Slot
  st : CtxSt
  accs : List (Nat × Acc)
  planes : List (Nat × Plane)
  /-- Counted one band higher by CONTEXT_AGING (R64). -/
  bumped : Bool
  deriving DecidableEq, Repr

/-! ## Packets and deques -/

/-- A packet that waits: its eight words, since when it waits in its queue, whether it has aged (R9, R64). -/
structure Packet where
  w : Vector W64 8
  since : Nat
  aged : Bool
  deriving DecidableEq, Repr

/-- A segment of a spill list or of a launch queue (R36, R60): its packets from the local end (in a launch queue, from the oldest), and
its place in the swap area if it is swapped out. -/
structure Segment where
  pkts : List Packet
  swapped : Option Nat
  deriving DecidableEq, Repr

/-- A deque of one band (R60): the hardware part and the spill list, each from the local end; `taken`: the cycle of the last take, and
who made it, as the arbiter ranks them (0 the owner's local pop, thief c as c + 1; R61). -/
structure Deque where
  hw : List Packet
  spill : List Segment
  taken : Option (Nat × Nat)
  deriving DecidableEq, Repr

/-! ## Memory -/

/-- A line of the L1 (R113): the line number (location div 64) and its data. -/
structure L1Line where
  line : Nat
  data : Row64
  deriving DecidableEq, Repr

/-- An L1 fill on its way (R113, R250): the data it brings, and whether an invalidation or a later read has cancelled it. -/
structure Fill where
  line : Nat
  data : Row64
  cancelled : Bool
  deriving DecidableEq, Repr

/-- An entry of the store buffer (R244): the slot and context that made it, the targets by which its order is kept, its bytes by
location, the slices that pages pin its lines to (R114), and whether it stands at the bank of a word that is held or queued, to be
performed at a release (R223). -/
structure SbEntry where
  slot : Nat
  uid : Nat
  targets : List Nat
  world : Nat
  pins : Sparse Nat
  bytes : List Host.Cell
  atBank : Bool
  deriving DecidableEq, Repr

/-- A line of the L2 (R114): way, line number, owning world, dirty. -/
structure L2Line where
  way : Nat
  line : Nat
  owner : Nat
  dirty : Bool
  deriving DecidableEq, Repr

/-- A complete translation (R122): a virtual page of a world, its world-physical page, and the leaf's attributes. The world's extents,
which never change while it lives, give the device-physical address of each 64 KiB of the page (R121). -/
structure Trans where
  world : Nat
  va : Nat
  size : Nat
  wpa : Nat
  rd : Bool
  wr : Bool
  ex : Bool
  nol1 : Bool
  pin : Option Nat
  deriving DecidableEq, Repr

/-- An extent of a world (R121). -/
structure Extent where
  wpa : Nat
  dpa : Nat
  len : Nat
  kind : Nat
  deriving DecidableEq, Repr

/-- The holder of a word at its bank: core, slot, context (R219, R220). -/
structure Holder where
  core : Nat
  slot : Nat
  uid : Nat
  deriving DecidableEq, Repr

/-- What a request at a reservation bank does when it is granted (R219): a fused atomic by its function (R224), RSV, the
increment of SPAWN (R103), the decrement of TEXIT (R106), and the decrement for a dead packet (R65), which no thread waits for. -/
inductive TurnKind where
  | atomic (fn : Nat)
  | rsv
  | spawn
  | texit
  | dead
  deriving DecidableEq, Repr

/-- A request in a bank's queue: who made it; the register it writes, its operand (for `texit` and `dead` the address whose waiters
a last decrement wakes) and ACAS's comparand; its order and scope; its length, its capability's charge, and its page's slice. -/
structure TurnReq where
  core : Nat
  slot : Nat
  uid : Nat
  world : Nat
  kind : TurnKind
  reg : Reg
  value : W64
  swap : W64
  order : BitVec 2
  scope : BitVec 3
  len : Nat
  pips : Nat
  pin : Option Nat
  deriving DecidableEq, Repr

/-- One plain store deferred at a bank (R223), in the bank's order of arrival; the entry itself stays in its core's buffer. -/
structure Deferred where
  core : Nat
  entry : SbEntry
  deriving DecidableEq, Repr

/-- A bank's record of one word (R219 to R223): the holder, when it was granted, the requests queued, and the plain stores deferred
to the release. -/
structure Bank where
  holder : Option Holder
  grantedAt : Nat
  queue : List TurnReq
  deferred : List Deferred
  deriving DecidableEq, Repr

/-- A request in the queue of a full/empty word (R127): LDF, LDFK or STE, its register or value. -/
inductive FeKind where
  | ldf | ldfk | ste
  deriving DecidableEq, Repr

structure FeReq where
  core : Nat
  slot : Nat
  kind : FeKind
  reg : Reg
  value : W64
  order : BitVec 2
  scope : BitVec 3
  /-- The instruction's length in bytes, and the capability's charge when it is served (R20). -/
  len : Nat
  pips : Nat
  deriving DecidableEq, Repr

/-- A thread that waits on a barrier phase (R231). -/
structure BarWaiter where
  loc : Nat
  phase : Nat
  core : Nat
  slot : Nat
  len : Nat
  deriving DecidableEq, Repr

/-- An entry of the wait-and-wake table (R235), oldest first. -/
structure Waiter where
  world : Nat
  va : Nat
  core : Nat
  uid : Nat
  deriving DecidableEq, Repr

/-! ## Copies, channels, engines -/

/-- Where a copy stands. -/
inductive CopySt where
  | running
  | held
  | done
  deriving DecidableEq, Repr

/-- A copy in the engine (R136 to R141, R284): the captured authority, where its bytes lie, and how far it has come. -/
structure Copy where
  slot : Nat
  uid : Nat
  chain : W64
  world : Nat
  op : Nat
  msg : Bool
  bar : Option W64
  tag : Nat
  /-- Source, or layout handle, and destination. -/
  src : W64
  dst : W64
  /-- Whether the source is laid out: for CPYL, the layout record has been read. The first tensor row, the rows of a CPYL that were dropped
  before that, with what each counts for, and the address of the first byte. -/
  laid : Bool
  first : Nat
  lost : List (Nat × Nat)
  base : W64
  /-- Rows of equal length and their pitches in bytes. -/
  rows : Nat
  rowBytes : Nat
  srcPitch : Nat
  dstPitch : Nat
  /-- Runs of CX8 blocks as (row, source, offset at the destination, bytes); empty for every other copy. -/
  runs : List (Nat × W64 × Nat × Nat)
  /-- The pips charged at acceptance for the bytes, and whether the copy has been accepted. -/
  pips : Nat
  accepted : Bool
  /-- The row (or run) that comes next, the byte of it, and the bytes neither written nor dropped. -/
  row : Nat
  byte : Nat
  left : Nat
  /-- What CPYSKIP has dropped ahead of it, as (row or run, first byte, byte after the last), and the row, or the chunk of a CPY, in which
  the last check failed (R284). -/
  holes : List (Nat × Nat × Nat)
  fail : Nat
  written : Nat
  status : Nat
  st : CopySt
  deriving DecidableEq, Repr

/-- An item of a streaming channel (R182): a data item with its row, or END with the count of the data items before it. -/
inductive ChanItem where
  | data (shape : W64) (row : Row64)
  | fin (count : Nat)
  deriving DecidableEq, Repr

/-- A message on its way, or held in the network (R145), and the SENDMSG that completes with it: core, slot, length. -/
structure NetMsg where
  core : Nat
  slot : Nat
  msg : Msg
  sender : Option (Nat × Nat × Nat)
  deriving DecidableEq, Repr

/-- An engine command accepted and unfinished (R240, R241, R265, R302). -/
structure EngCmd where
  engine : Nat
  core : Nat
  slot : Nat
  uid : Nat
  world : Nat
  chain : W64
  words : List W64
  /-- Pages, rows, records or elements done. -/
  done : Nat
  /-- Merge sequence number of an e0 command; stage of a collective. -/
  aux : Nat
  count : Nat
  /-- Capabilities charged for the rows that a GATHER has read (R20). -/
  caps : List Nat
  /-- The number of a collective among those of its group, for each port of its tree (log 25). -/
  seqs : List (Nat × Nat)
  deriving DecidableEq, Repr

/-- A result for a context that is away (R242). -/
structure EngResult where
  uid : Nat
  engine : Nat
  word : W64
  deriving DecidableEq, Repr

/-- A record of an append log (R238). -/
structure LogRec where
  addr : Nat
  pin : Option Nat
  value : W64
  op : Nat
  core : Nat
  slot : Nat
  seq : Nat
  deriving DecidableEq, Repr

/-- A merge of a log that is accepted and not complete (R239). -/
structure MergeRun where
  seq : Nat
  total : Nat
  recs : List LogRec
  deriving DecidableEq, Repr

/-- A segment of an append log (R238): the cluster whose queue SRAM holds it, or its place in the swap area if it is swapped out. -/
structure LogSeg where
  cluster : Nat
  swapped : Option Nat
  deriving DecidableEq, Repr

/-- One log of a world: its segments, the oldest first, records unmerged, merges accepted so far, merges waiting, and the last completed with
their counts. -/
structure AppendLog where
  segs : List LogSeg
  recs : List LogRec
  accepted : Nat
  runs : List MergeRun
  finished : List (Nat × Nat)
  deriving DecidableEq, Repr

/-! ## Authority -/

/-- A principal's state (R12). -/
inductive PrinSt where
  | free | live | revoked | retired
  deriving DecidableEq, Repr

/-- An entry of the principal table (R12). -/
structure Principal where
  st : PrinSt
  world : Nat
  gen : Nat
  deriving DecidableEq, Repr

/-- A Linind entry (R15). -/
structure Chain where
  valid : Bool
  refs : Nat
  parent : Nat
  principal : Nat
  gen : Nat
  share : Nat
  depth : Nat
  revoked : Bool
  world : Nat
  deriving DecidableEq, Repr

/-- A capability (R17). -/
structure Cap where
  id : Nat
  base : Nat
  len : Nat
  ruleset : Nat
  perms : BitVec 4
  charge : Nat
  deriving DecidableEq, Repr

/-- A rule (R18): the pattern of principal ids from the root, and the permissions. -/
structure Rule where
  pat : List Nat
  perms : BitVec 4
  deriving DecidableEq, Repr

/-- A line of a rule cache (R209). -/
structure RuleLine where
  world : Nat
  ruleset : Nat
  cix : Nat
  perms : BitVec 4
  deriving DecidableEq, Repr

/-- A revocation in progress or waiting (R211): the principal, the passes made, the cycle of the next pass that comes next, and the
function whose command waits for it. -/
structure Sweep where
  principal : Nat
  pass : Nat
  cycle : Nat
  fn : Nat
  deriving DecidableEq, Repr

/-! ## Worlds, functions, ports -/

structure World where
  live : Bool
  stopped : Bool
  debugOk : Bool
  attached : Bool
  tdi : Nat
  extents : List Extent
  weight : Nat
  ring : Nat
  memKey : Nat
  memExpiry : Nat
  memDead : Bool
  ctxKey : Nat
  ctxExpiry : Nat
  /-- The image counters (R280), and which context each index last took out, so that its engine results find it (R242). -/
  counters : Sparse Nat
  saved : Sparse Nat
  /-- The Linind entry that the context saved under each index names, while its image can still be restored (R16). -/
  savedChain : Sparse Nat
  caps : List Cap
  ruleSets : Sparse (List Rule)
  meters : Sparse Nat
  /-- The launch queue's segments, oldest first; the spill ring's head and length (R36). -/
  launch : List Segment
  ringHead : Nat
  ringLen : Nat
  lastCore : Option Nat
  images : List Nat
  tau : W32
  logs : Sparse AppendLog
  /-- Segments of the queue swap area in use (R60). -/
  swapUsed : List Nat
  deriving DecidableEq, Repr

/-- TDISP states (R34). -/
inductive Tdisp where
  | unlocked | locked | run | error
  deriving DecidableEq, Repr

/-- What a BUSY command still waits for, or its final code and result (R31). -/
inductive CmdEnd where
  | done (code : Byte) (result : W32)
  | revocation (principal : Nat)
  | principalAdd (id : Nat)
  | zeroing (cores : List Nat)
  deriving DecidableEq, Repr

/-- A BUSY command (R29 to R31): its tag, its done line, what ends it, the world it acts on, its opcode, and the IDE key set under which its
requests go out (R55). -/
structure Pending where
  tag : BitVec 16
  doneLine : W64
  fin : CmdEnd
  world : Nat
  op : Nat
  keySet : Nat
  deriving DecidableEq, Repr

/-- An SPDM session (R51, R52): established by FINISH, and when its last message came. -/
structure Session where
  id : Nat
  established : Bool
  lastAt : Nat
  deriving DecidableEq, Repr

/-- An IDE key set in one direction (R40, R55). -/
structure KeySet where
  key : Nat
  live : Bool
  expiry : Nat
  /-- The Meridian time at which the stream switched away from it. -/
  retiringAt : Option Nat
  deriving DecidableEq, Repr

/-- What a DOE mailbox answers (R25, R51). -/
inductive DoeResp where
  | none
  | ok (code : Nat) (data : List Nat)
  | algorithms (chosen : List Algorithm)
  | unsupported
  | sessionLimit
  | invalidInterface
  | error
  deriving DecidableEq, Repr

/-- A nonce that the responder issued (R43): its time, whether a renewal has used it, the session whose GET_MEASUREMENTS it answered, and the
measurements of that report. -/
structure Nonce where
  value : Nat
  at_ : Nat
  used : Bool
  session : Option Nat
  meas : List (Nat × Nat)
  deriving DecidableEq, Repr

/-- A host function (R26 to R34, R51 to R55). -/
structure Func where
  block : Vector W64 8
  code : Byte
  tag : BitVec 16
  lost : Bool
  result : W32
  pending : Option Pending
  rejected : Nat
  dropped : Nat
  tdisp : Tdisp
  world : Nat
  sessions : List Session
  bound : Option Nat
  nonces : List Nonce
  nonceCtr : Nat
  doe : DoeResp
  /-- The mailbox's error bit (R25). -/
  doeError : Bool
  /-- Whether the host's last access to the resource-control window received an Unsupported Request (R46, R118). -/
  lastUR : Bool
  /-- The key sets of the stream towards this device, and of the other direction. -/
  set0 : KeySet
  set1 : KeySet
  out0 : KeySet
  out1 : KeySet
  selected : Nat
  deriving DecidableEq, Repr

/-- One direction's key generations (R300, R301). -/
structure Gen where
  key : Nat
  live : Bool
  expiry : Nat
  counter : Nat
  deriving DecidableEq, Repr

/-- A transfer of a collective received on a port (R302 to R305): its world and group, its bytes so far, and the code of what failed it
(0: nothing). One whose first flit was discarded has no bytes. -/
structure RxData where
  world : Nat
  group : Nat
  bytes : List Byte
  fail : Nat
  deriving DecidableEq, Repr

/-- An Ecmar port (R296 to R301). -/
structure Port where
  up : Bool
  paused : Bool
  binding : BitVec 16
  peer : BitVec 16
  /-- The worlds that this device last told its peer of. -/
  told : BitVec 16
  /-- The number of the port at the peer, and whether this device's direction is number 1 of the link. -/
  peerPort : Nat
  side : Bool
  cur : Nat
  rx0 : Gen
  rx1 : Gen
  tx0 : Gen
  tx1 : Gen
  installedAt : Nat
  discarded : Nat
  rx : List RxData
  /-- Bytes of a work packet whose flits are still arriving. -/
  pktBytes : List Byte
  /-- How many collectives of each world's group (65536 × world + group) this device has accepted here, and the failed ones of which a
  contribution may still come, as (world, group, number) (R305). -/
  groups : Sparse Nat
  owed : List (Nat × Nat × Nat)
  /-- Management transfers that wait for a RESUME, and whether a PAUSE of this device stands (R296). -/
  queued : List (List Byte)
  held : Bool
  /-- Flits sent, oldest first. -/
  sent : List Flit
  deriving DecidableEq, Repr

/-- A compute die's power state (R310). -/
structure Die where
  level : Nat
  tj : Nat
  deriving DecidableEq, Repr

/-- An uncore counter (R312). -/
structure Uncore where
  source : Nat
  count : Nat
  overflow : Bool
  deriving DecidableEq, Repr

/-! ## Cores -/

/-- A steal in progress (R63): the free slot, the band searched, and the cores of the world in the thief's order from the one whose probe
is on its way. -/
structure Steal where
  slot : Nat
  band : Nat
  victims : List Nat
  deriving DecidableEq, Repr

structure Core where
  world : Nat
  enabled : Bool
  enabledAt : Nat
  zeroing : Bool
  slots : Sparse Slot
  seqBase : W64
  seqSize : W64
  qdef : W32
  pipecfg : BitVec 8
  trapq : List W64
  slotsel : BitVec 4
  vbase : W64
  evsel : Vector W64 8
  evcnt : Vector W64 8
  /-- Most recently used first; true LRU per set (R113). -/
  l1 : List L1Line
  fills : List Fill
  /-- Words of code that fetches of the core have read since its last INVL1, by location (R84). -/
  code : Sparse (BitVec 16)
  sb : List SbEntry
  tlb : List Trans
  capCache : List Nat
  deques : Vector Deque 4
  cache : Sparse CtxEntry
  /-- The model's number of the last move of a context's data into the spill area (R66); none: no move yet. -/
  spillSeq : Option Nat
  /-- Slots whose contexts wait for room to leave, oldest first (R66). -/
  leaving : List Nat
  msgs : Sparse (List Msg)
  overflow : List Msg
  copies : List Copy
  /-- APPENDs issued by each slot: the sequence numbers of its records (R238). -/
  appends : Sparse Nat
  inq : List W64
  chans : Vector (List ChanItem) 4
  /-- The instruction that a channel serves until it completes: channel and context, receiving here, and sending from here (R182). -/
  chanRx : List (Nat × Nat)
  chanTx : List (Nat × Nat)
  accs : Vector Acc 8
  planes : Vector Plane 4
  proj : Sparse (BitVec 1024)
  /-- Instructions in progress on rows of the projection buffer (R195): slot, whether it writes, first row, row after the last. -/
  projUse : List (Nat × Bool × Nat × Nat)
  /-- Waiting claims in order of issue: slot, plane?, number (R187). -/
  claims : List (Nat × Bool × Nat)
  steal : Option Steal
  /-- Array gating (R309): gated, the cycle of the last row start or release of an accumulator, the cycle of the last wake. -/
  gated : Bool
  lastRow : Nat
  arrayWake : Option Nat
  /-- A mailbox word has turned full in or after the cycle in which the copy slot's last STOP completed (R97). -/
  copyWake : Bool
  deriving DecidableEq, Repr

/-! ## The device -/

/-- One act of the schedule, the MODEL'S OWN (log 2): which agent moves next. -/
inductive Act where
  /-- The thread in a slot issues its next instruction; the budget is how many rows of a row-granular one it makes. -/
  | issue (core slot : Nat) (rows : Option Nat)
  /-- An operation or event of the device. -/
  | event (e : Instr)
  /-- An operation or event in the same cycle as the act before it (R61). -/
  | same (e : Instr)
  /-- Core clock cycles pass. -/
  | pass (cycles : Nat)
  /-- The Meridian clock advances. -/
  | tick (us : Nat)
  /-- The stored bits of an HBM line change by an error that ECC cannot correct (R53). -/
  | upset (line : Nat)
  /-- A word of code that a core has read ahead is dropped, so that the next fetch reads it again (R84). -/
  | forget (core loc : Nat)
  deriving DecidableEq, Repr

/-- The thread that acts in this step, the MODEL'S OWN: its core and slot, the length of its instruction in bytes, whether this
is a new issue, and the row budget. -/
structure Cur where
  core : Nat
  slot : Nat
  len : Nat
  rows : Option Nat
  deriving DecidableEq, Repr

structure State where
  power : Bool
  booted : Bool
  bootState : Byte
  meridian : Nat
  cycle : Nat
  firewallR : BitVec 256
  firewallW : BitVec 256
  firewallLock : Bool
  mem : List Host.Cell
  lineKeys : Sparse Nat
  /-- Lines of HBM in which ECC finds an error that it cannot correct (R53). -/
  eccBad : List Nat
  keySerial : Nat
  /-- The attestation key of this power cycle, by name; 0 before boot (R48). -/
  attKey : Nat
  full : Sparse Bool
  feWaiters : Sparse (List FeReq)
  banks : Sparse Bank
  barWaiters : List BarWaiter
  waitTable : List Waiter
  l2 : Sparse (List L2Line)
  msc : Sparse (List Nat)
  wayMasks : Sparse (BitVec 16)
  dieTlb : Sparse (List Trans)
  clusterTlb : Sparse (List Trans)
  ruleCaches : Sparse (List RuleLine)
  principals : Sparse Principal
  chains : Sparse Chain
  sweep : Option Sweep
  revocations : List Sweep
  worlds : Sparse World
  fns : Sparse Func
  cores : Sparse Core
  net : List NetMsg
  engCmds : List EngCmd
  engResults : List EngResult
  ports : Sparse Port
  dies : Sparse Die
  uncore : Sparse Uncore
  powerCap : Nat
  powerNow : Nat
  mctp : List Nat
  /-- What the last CXL.mem request was answered with (R25); none: an Unsupported Request, or no data (R46, R53). -/
  cxlReply : Option (List Byte)
  ckptKey : Nat
  ckptExpiry : Nat
  ckptSerial : Nat
  schedule : List Act
  freeCtr : Nat
  uidCtr : Nat
  turnPtr : Nat
  cur : Cur
  deriving DecidableEq, Repr

/-! ## Values at reset

A value for which the spec gives no reset is a DESIGN CHOICE (log 7), unsafe. -/

def Tile.empty : Tile := ⟨0, Vector.replicate 32 0, Vector.replicate 32 0x3F800000⟩
def Half.empty : Half := ⟨0, Vector.replicate 64 0, Vector.replicate 128 0x3F800000⟩
/-- SRAM that holds zeros only (R56): what PLCLM's clearing has not yet written scales into. -/
def Plane.init : Plane := ⟨false, 0, Half.empty, Half.empty⟩
def Acc.init : Acc := ⟨0, false, 0, none, [], Vector.replicate 32 0⟩
def EngPart.init : EngPart := ⟨[], [], 0, 0⟩
def Deque.init : Deque := ⟨[], [], none⟩

/-- A slot that holds no task (R272), and what R11 loads that does not come from the packet. -/
def Slot.init : Slot :=
  { st := .free, nest := false, waiting := .none, reissue := false, issued := none, stopReq := .none, pc := 0
    s := Vector.replicate 32 0, p := Vector.replicate 8 false
    cause := 0, epc := 0, tval := 0, tcoord := 0, tfmt := 0xFFFF, restart := 0, fpc := 0, flags := 0, fmt := 0, scl := 0
    chain := 0, quantum := none, accown := 0, plown := 0, meter := 0, task := 0
    tiles := Vector.replicate 8 Tile.empty, join := 0, band := 0, aged := false, scope := 0, pkt := Vector.replicate 8 0
    watch := [], held := [], eng := Vector.replicate 4 EngPart.init, copyFault := none, limit := none, spawning := none
    popped := none, issuedAt := 0, fpcAt := 0, waitpc := 0, wmsel := 0, uid := 0, charged := [], dispatchedAt := 0 }

def Core.init : Core :=
  { world := 0, enabled := false, enabledAt := 0, zeroing := false, slots := [], seqBase := 0, seqSize := 0, qdef := 0
    pipecfg := 0, trapq := [], slotsel := 0xF, vbase := 0, evsel := Vector.replicate 8 0, evcnt := Vector.replicate 8 0
    l1 := [], fills := [], code := [], sb := [], tlb := [], capCache := [], deques := Vector.replicate 4 Deque.init, cache := [], spillSeq := none
    leaving := [], msgs := [], overflow := [], copies := [], appends := [], inq := [], chans := Vector.replicate 4 [], chanRx := [], chanTx := []
    accs := Vector.replicate 8 Acc.init, planes := Vector.replicate 4 Plane.init, proj := [], projUse := [], claims := [], steal := none
    gated := false, lastRow := 0, arrayWake := none, copyWake := false }

def AppendLog.init : AppendLog := ⟨[], [], 0, [], []⟩

def World.init : World :=
  { live := false, stopped := false, debugOk := false, attached := false, tdi := 0, extents := [], weight := 0, ring := 0
    memKey := 0, memExpiry := 0, memDead := false, ctxKey := 0, ctxExpiry := 0, counters := [], saved := [], savedChain := [], caps := [], ruleSets := []
    meters := [], launch := [], ringHead := 0, ringLen := 0, lastCore := none, images := [], tau := 0x7F800000, logs := []
    swapUsed := [] }

def KeySet.init : KeySet := ⟨0, false, 0, none⟩
def Gen.init : Gen := ⟨0, false, 0, 0⟩

def Func.init : Func :=
  { block := Vector.replicate 8 0, code := 0, tag := 0, lost := false, result := 0, pending := none, rejected := 0
    dropped := 0, tdisp := .unlocked, world := 0, sessions := [], bound := none, nonces := [], nonceCtr := 0, doe := .none, doeError := false
    lastUR := false, set0 := KeySet.init, set1 := KeySet.init, out0 := KeySet.init, out1 := KeySet.init, selected := 0 }

def Port.init : Port :=
  { up := false, paused := false, binding := 0, peer := 0, told := 0, peerPort := 0, side := false, cur := 0, rx0 := Gen.init, rx1 := Gen.init, tx0 := Gen.init
    tx1 := Gen.init, installedAt := 0, discarded := 0, rx := [], pktBytes := [], groups := [], owed := [], queued := []
    held := false, sent := [] }

def Principal.init : Principal := ⟨.free, 0, 0⟩
def Chain.init : Chain := ⟨false, 0, 0, 0, 0, 0, 0, false, 0⟩
def Bank.init : Bank := ⟨none, 0, [], []⟩
def Die.init : Die := ⟨0, 0⟩
def Uncore.init : Uncore := ⟨0, 0, false⟩
def Cur.init : Cur := ⟨0, 0, 2, none⟩

/-- What a byte that nothing has written reads as. DESIGN CHOICE (log 4): the spec gives HBM no contents at power-on. -/
def unlistedByte : Byte := 0

/-- The machine right after reset: power has been applied (R41), boot has not run (R49, event POWER_ON), no cluster is enabled
(R308), on-die SRAM is zero with its full/empty bits empty (R56, R112), and no world but firmware's exists. -/
def State.reset : State :=
  { power := true, booted := false, bootState := 0, meridian := 0, cycle := 0
    firewallR := 0, firewallW := 0, firewallLock := false
    mem := [], lineKeys := [], eccBad := [], keySerial := 1, attKey := 0, full := [], feWaiters := [], banks := [], barWaiters := [], waitTable := []
    l2 := [], msc := [], wayMasks := [], dieTlb := [], clusterTlb := [], ruleCaches := [], principals := [], chains := []
    sweep := none, revocations := [], worlds := [], fns := [], cores := [], net := [], engCmds := [], engResults := []
    ports := [], dies := [], uncore := [], powerCap := 2200, powerNow := 0, mctp := [], cxlReply := none
    ckptKey := 0, ckptExpiry := 0, ckptSerial := 0
    schedule := [], freeCtr := 0, uidCtr := 1, turnPtr := 0, cur := Cur.init }

end Sys2Proof.Machine
end

