-- ==== Sys2Proof/Machine/Ops.lean ====
section
/-! DEFINITION. The named operations over the state: its accessors, memory by bytes, the effect monad of the meanings, event
counters, records, stopping a world, taking a trap and returning from one. -/

namespace Sys2Proof.Machine

/-! ## Accessors -/

/-- The core of a number. -/
def State.core (s : State) (c : Nat) : Core := Sparse.get Core.init s.cores c
def State.setCore (s : State) (c : Nat) (v : Core) : State := { s with cores := Sparse.put s.cores c v }
def State.modCore (s : State) (c : Nat) (f : Core → Core) : State := s.setCore c (f (s.core c))
/-- The slot of a core. -/
def Core.slot (c : Core) (n : Nat) : Slot := Sparse.get Slot.init c.slots n
def Core.setSlot (c : Core) (n : Nat) (v : Slot) : Core := { c with slots := Sparse.put c.slots n v }
def Core.modSlot (c : Core) (n : Nat) (f : Slot → Slot) : Core := c.setSlot n (f (c.slot n))
def State.slot (s : State) (c n : Nat) : Slot := (s.core c).slot n
def State.setSlot (s : State) (c n : Nat) (v : Slot) : State := s.setCore c ((s.core c).setSlot n v)
def State.modSlot (s : State) (c n : Nat) (f : Slot → Slot) : State := s.setSlot c n (f (s.slot c n))
def State.world (s : State) (w : Nat) : World := Sparse.get World.init s.worlds w
def State.setWorld (s : State) (w : Nat) (v : World) : State := { s with worlds := Sparse.put s.worlds w v }
def State.modWorld (s : State) (w : Nat) (f : World → World) : State := s.setWorld w (f (s.world w))
def State.fn (s : State) (f : Nat) : Func := Sparse.get Func.init s.fns f
def State.setFn (s : State) (f : Nat) (v : Func) : State := { s with fns := Sparse.put s.fns f v }
def State.modFn (s : State) (f : Nat) (g : Func → Func) : State := s.setFn f (g (s.fn f))
def State.port (s : State) (p : Nat) : Port := Sparse.get Port.init s.ports p
def State.setPort (s : State) (p : Nat) (v : Port) : State := { s with ports := Sparse.put s.ports p v }
def State.modPort (s : State) (p : Nat) (g : Port → Port) : State := s.setPort p (g (s.port p))
def State.principal (s : State) (p : Nat) : Principal := Sparse.get Principal.init s.principals p
def State.setPrincipal (s : State) (p : Nat) (v : Principal) : State := { s with principals := Sparse.put s.principals p v }
def State.chain (s : State) (c : Nat) : Chain := Sparse.get Chain.init s.chains c
def State.setChain (s : State) (c : Nat) (v : Chain) : State := { s with chains := Sparse.put s.chains c v }
def State.bank (s : State) (loc : Nat) : Bank := Sparse.get Bank.init s.banks loc
/-- A bank's record is kept only while something is held, queued or deferred. -/
def State.setBank (s : State) (loc : Nat) (v : Bank) : State := { s with banks := Sparse.set Bank.init s.banks loc v }
def State.die (s : State) (d : Nat) : Die := Sparse.get Die.init s.dies d
/-- Whether a world's memory key lease has run out (R42, R44); worlds 0 and 1 have no lease, and expiry 0. -/
def State.keyDead (s : State) (w : Nat) : Bool :=
  (s.world w).memDead || (decide ((s.world w).memExpiry ≠ 0) && decide ((s.world w).memExpiry ≤ s.meridian))
/-- The full/empty bit of a word (R112). -/
def State.isFull (s : State) (loc : Nat) : Bool := Sparse.get false s.full loc
def State.setFull (s : State) (loc : Nat) (b : Bool) : State := { s with full := Sparse.set false s.full loc b }

/-- The acting thread's core and slot. -/
def State.me (s : State) : Slot := s.slot s.cur.core s.cur.slot
def State.setMe (s : State) (v : Slot) : State := s.setSlot s.cur.core s.cur.slot v
def State.modMe (s : State) (f : Slot → Slot) : State := s.setMe (f s.me)
def State.myCore (s : State) : Core := s.core s.cur.core
def State.modMyCore (s : State) (f : Core → Core) : State := s.modCore s.cur.core f
/-- The world of the acting thread: the world of its core (R45). -/
def State.myWorld (s : State) : Nat := s.myCore.world

/-- The cluster, stack domain and die of a core (R4). -/
def clusterOf (core : Nat) : Nat := core / 8
def domainOf (core : Nat) : Nat := core / 64
def dieOf (core : Nat) : Nat := core / 256
/-- The next core of the cluster (R182). -/
def downstream (core : Nat) : Nat := core - core % 8 + (core + 1) % 8

/-- Core clock of a core: 0 when its cluster is enabled (R101, R308). -/
def State.coreCycle (s : State) (c : Nat) : Nat := s.cycle - (s.core c).enabledAt

/-! ## Bytes (little-endian, R9, R164) -/

def leToNat (bs : List Byte) : Nat :=
  match bs with
  | [] => 0
  | b :: rest => b.toNat + 256 * leToNat rest

def natToLe (n v : Nat) : List Byte :=
  match n with
  | 0 => []
  | n + 1 => BitVec.ofNat 8 v :: natToLe n (v / 256)

/-- The byte at a location (log 4: what an unlisted one reads as). -/
def State.byte (s : State) (loc : Nat) : Byte := Sparse.get unlistedByte s.mem loc
def State.setByte (s : State) (loc : Nat) (b : Byte) : State := { s with mem := Sparse.set unlistedByte s.mem loc b }

def State.bytes (s : State) (loc n : Nat) : List Byte :=
  match n with
  | 0 => []
  | n + 1 => s.byte loc :: s.bytes (loc + 1) n

def State.setBytes (s : State) (loc : Nat) (bs : List Byte) : State :=
  match bs with
  | [] => s
  | b :: rest => (s.setByte loc b).setBytes (loc + 1) rest

def State.setCells (s : State) (cells : List Host.Cell) : State :=
  match cells with
  | [] => s
  | (loc, b) :: rest => (s.setByte loc b).setCells rest

/-- Bytes at rising locations as cells. -/
def cellsAt (loc : Nat) (bs : List Byte) : List Host.Cell :=
  match bs with
  | [] => []
  | b :: rest => (loc, b) :: cellsAt (loc + 1) rest

def State.word64 (s : State) (loc : Nat) : W64 := BitVec.ofNat 64 (leToNat (s.bytes loc 8))
def State.setWord64 (s : State) (loc : Nat) (v : W64) : State := s.setBytes loc (natToLe 8 v.toNat)

/-! ## Locations

The model's own numbering of every byte of the device, in one map. -/

/-- HBM by device-physical address, host memory at 2^55 + address (R121), then the on-die SRAMs. -/
def hostBase : Nat := 2 ^ 55
def spadBase : Nat := 2 ^ 64
def clusterBase : Nat := 2 ^ 65
def chipBase : Nat := 2 ^ 66
def ctrlBase : Nat := 2 ^ 67
def spadLoc (core off : Nat) : Nat := spadBase + core * 2 ^ 18 + off
/-- The 128 KiB that a core contributes to cluster memory (R109). -/
def clusterLoc (core off : Nat) : Nat := clusterBase + core * 2 ^ 17 + off
def chipLoc (off : Nat) : Nat := chipBase + off
def ctrlLoc (core off : Nat) : Nat := ctrlBase + core * 2 ^ 12 + off
/-- Whether a location lies in HBM. -/
def isHbm (loc : Nat) : Bool := decide (loc < hostBase)
def isHost (loc : Nat) : Bool := decide (hostBase ≤ loc) && decide (loc < spadBase)

/-! ## Bit fields of 64-bit words -/

/-- The field [lo + n - 1 : lo] of a word, as a number. -/
def fld (v : W64) (lo n : Nat) : Nat := v.toNat / 2 ^ lo % 2 ^ n
def flag (v : W64) (n : Nat) : Bool := decide (v.toNat / 2 ^ n % 2 = 1)
def w64 (n : Nat) : W64 := BitVec.ofNat 64 n
def boolNat (b : Bool) : Nat := if b then 1 else 0

/-- A vector's element at a number, or the default beyond its end. -/
def vat {α : Type} {n : Nat} (d : α) (v : Vector α n) (i : Nat) : α := v[i]?.getD d

/-! ## The effect monad -/

/-- Why an instruction does not complete in this step: it traps, or it waits (R90, R273). -/
inductive Stop where
  | trap (t : TrapInfo)
  | wait (w : Wait)
  deriving DecidableEq, Repr

/-- A computation over the state. A trap or a wait ends it where it stands, and what was done before stands too ("A trap() ends
the instruction's effect at the point where it stands", 00 Conventions). -/
abbrev M (α : Type) := EStateM Stop State α

/-- How an instruction's effect leaves its thread. -/
inductive Ctl where
  /-- On to the next instruction, ready at once (a scalar instruction, R90). -/
  | next
  /-- On to an address, ready at once. -/
  | jump (pc : W64)
  /-- On to the next instruction, out of the rotation until INSTRUCTION_COMPLETION (a waiting instruction, R90). -/
  | done
  /-- To an address, out of the rotation until INSTRUCTION_COMPLETION. -/
  | doneAt (pc : W64)
  /-- The effect itself has placed the slot. -/
  | gone
  deriving DecidableEq, Repr

namespace Cause
def illegal : Byte := 0x01
def priv : Byte := 0x02
def shape : Byte := 0x03
def align : Byte := 0x04
def xlate : Byte := 0x05
def firewall : Byte := 0x06
def capfault : Byte := 0x07
def chainDenied : Byte := 0x08
def chainRevoked : Byte := 0x09
def adoptFault : Byte := 0x0A
def nan : Byte := 0x0B
def barOver : Byte := 0x0C
def barBytes : Byte := 0x0D
def accOwn : Byte := 0x0E
def copyfault : Byte := 0x0F
def memerr : Byte := 0x10
def keylease : Byte := 0x11
def bkpt : Byte := 0x12
def swtrap : Byte := 0x13
def quantum : Byte := 0x14
def inboxFull : Byte := 0x15
def preemptReq : Byte := 0x16
def waittableFull : Byte := 0x17
def ctxStale : Byte := 0x18
def ctxTag : Byte := 0x19
def tdiStop : Byte := 0x1A
def ctxFull : Byte := 0x1B
end Cause

/-- k.tfmt of a trap that is no tile trap (R169). -/
def tfmtNone : W64 := 0xFFFF

def trapAt {α : Type} (cause : Byte) (tval : W64) (tcoord : W64 := 0) (tfmt : W64 := tfmtNone) : M α :=
  throw (.trap ⟨cause, tval, tcoord, tfmt⟩)
/-- XLATE with its reason in k.tfmt[63:60] (R108). -/
def trapXlate {α : Type} (reason : Nat) (ea : W64) (tcoord : W64 := 0) : M α :=
  trapAt Cause.xlate ea tcoord (w64 (reason * 2 ^ 60 + 0xFFFF))
/-- PRIV: k.tval is the address of the instruction's first word (R273). -/
def trapPriv {α : Type} : M α := do trapAt Cause.priv (← get).me.pc
/-- Out of the rotation until a condition holds; `withdrawn`: whether a pre-emption withdraws the instruction (R278). -/
def block {α : Type} (withdrawn : Bool) : M α := throw (.wait (.blocked withdrawn))

def getMe : M Slot := do return (← get).me
def modMe (f : Slot → Slot) : M Unit := modify (·.modMe f)
def getCore : M Core := do return (← get).myCore
def modCore (f : Core → Core) : M Unit := modify (·.modMyCore f)

/-! ## Event counters (R311) -/

/-- Whether a counter pair counts a source for a slot. Sources 0x01, 0x03, 0x18 to 0x1B, 0x20, 0x21, 0x30 and 0x31 are of the core. -/
def evMatches (sel : W64) (source slot : Nat) : Bool :=
  flag sel 24 && decide (fld sel 0 8 = source) &&
  (source ∈ [0x01, 0x03, 0x18, 0x19, 0x1A, 0x1B, 0x20, 0x21, 0x30, 0x31] || flag sel (8 + slot))

/-- A count of 48 bits with its sticky overflow bit, `n` added. -/
def evAdd (cnt : W64) (n : Nat) : W64 :=
  let sum := fld cnt 0 48 + n
  w64 ((if flag cnt 63 || decide (2 ^ 48 ≤ sum) then 2 ^ 63 else 0) + sum % 2 ^ 48)

/-- `n` events of a source, of a slot, counted by the core's counters. -/
def Core.tally (c : Core) (source slot n : Nat) : Core :=
  { c with evcnt := Vector.ofFn fun i => if evMatches c.evsel[i] source slot then evAdd c.evcnt[i] n else c.evcnt[i] }

def tally (source n : Nat) : M Unit := modify fun s => s.modMyCore (·.tally source s.cur.slot n)

/-! ## Pips (R213) -/

/-- The meter of a segment saturates (R203). -/
def satAdd64 (v : W64) (n : Nat) : W64 := if v.toNat + n < 2 ^ 64 then w64 (v.toNat + n) else w64 (2 ^ 64 - 1)

/-- Pips charged to a slot's current segment. -/
def State.chargeSlot (s : State) (c n pips : Nat) : State :=
  s.modCore c fun k => (k.modSlot n fun sl => { sl with meter := satAdd64 sl.meter pips }).tally 0x32 n pips

def charge (pips : Nat) : M Unit := modify fun s => s.chargeSlot s.cur.core s.cur.slot pips

/-! ## Records (R274) -/

def recordWord (cause : Byte) (slot aux : Nat) : W64 := w64 (2 ^ 63 + cause.toNat * 2 ^ 48 + slot * 2 ^ 44 + aux)

/-- A slot whose STOP waits, when its wake event arrives: the STOP has its effect, and completes (R97). -/
def Slot.wake (sl : Slot) : Slot :=
  match sl.waiting with
  | .stop len => { sl with pc := sl.pc + w64 len, waiting := .complete, reissue := false, charged := [] }
  | _ => sl

/-- A record queued to the core's supervisor, whose STOP it ends (R97); a record of a cause and slot still queued is not made again. -/
def Core.queueRecord (c : Core) (cause : Byte) (slot aux : Nat) : Core :=
  if c.trapq.any (fun r => decide (fld r 44 12 = fld (recordWord cause slot 0) 44 12)) then c
  else ({ c with trapq := c.trapq ++ [recordWord cause slot aux] } : Core).modSlot 15 Slot.wake

/-- A mailbox word of the core has turned full: it ends the copy slot's STOP, and counts for the next one (R97). -/
def Core.mailboxFilled (c : Core) : Core := ({ c with copyWake := true } : Core).modSlot 14 Slot.wake

/-- The QUANTUM record of a slot whose task retires or whose context leaves is removed (R274). -/
def Core.dropQuantumRecord (c : Core) (slot : Nat) : Core :=
  { c with trapq := c.trapq.filter fun r => decide (r ≠ recordWord Cause.quantum slot 0) }

/-- A copy fault that waits with a slot goes to the supervisor alone when the context leaves (R141). -/
def Core.dropCopyFault (c : Core) (slot : Nat) : Core :=
  match (c.slot slot).copyFault with
  | some _ => (c.modSlot slot fun sl => { sl with copyFault := none }).queueRecord Cause.copyfault slot 0
  | none => c

/-! ## Withdrawing what a slot waits in -/

/-- A slot's request taken out of every queue it stands in: full/empty words, reservation banks, barriers, claims, moves. -/
def State.withdraw (s : State) (core slot : Nat) : State :=
  let t : State := { s with
    feWaiters := (s.feWaiters.map fun e => (e.1, e.2.filter fun r => !(r.core == core && r.slot == slot))).filter fun e => !e.2.isEmpty
    banks := (s.banks.map fun e => (e.1, { e.2 with queue := e.2.queue.filter fun h => !(h.core == core && h.slot == slot) })).filter
      fun e => decide (e.2 ≠ Bank.init)
    barWaiters := s.barWaiters.filter fun b => !(b.core == core && b.slot == slot) }
  t.modCore core fun k =>
    { k with
      accs := k.accs.map fun a => { a with queue := a.queue.filter (· ≠ slot) }
      projUse := k.projUse.filter (fun q => q.1 ≠ slot)
      claims := k.claims.filter (fun q => q.1 ≠ slot), leaving := k.leaving.filter (· ≠ slot) }

/-! ## AES-GCM-256 (R39) -/

def wordsLe (ws : List W64) : List Byte := ws.flatMap fun v => natToLe 8 v.toNat
def zeros (n : Nat) : List Byte := List.replicate n 0

/-- Bytes under the key stream, from one of its positions on. -/
def gcmXorFrom (key iv i : Nat) (bs : List Byte) : List Byte :=
  match bs with
  | [] => []
  | b :: rest => (b ^^^ Config.gcmStream key iv i) :: gcmXorFrom key iv (i + 1) rest

/-- AES-GCM-256 in counter mode, and its tag, as free functions of key and IV (log 5). -/
def gcmXor (key iv : Nat) (bs : List Byte) : List Byte := gcmXorFrom key iv 0 bs
def gcmTagOf (key iv : Nat) (aad ct : List Byte) : List Byte := (List.range 16).map (Config.gcmTag key iv aad ct)

/-! ## Sending on an Ecmar link (R296 to R298) -/

def flitHeader (gen : Nat) (last : Bool) (world kind group offset : Nat) : W64 :=
  w64 (gen * 2 ^ 63 + boolNat last * 2 ^ 62 + world * 2 ^ 58 + kind * 2 ^ 54 + group * 2 ^ 38 + offset)

def Port.tx (p : Port) (g : Nat) : Gen := if g = 0 then p.tx0 else p.tx1
def Port.rxGen (p : Port) (g : Nat) : Gen := if g = 0 then p.rx0 else p.rx1
def Port.setTx (p : Port) (g : Nat) (v : Gen) : Port := if g = 0 then { p with tx0 := v } else { p with tx1 := v }
def Port.setRx (p : Port) (g : Nat) (v : Gen) : Port := if g = 0 then { p with rx0 := v } else { p with rx1 := v }

/-- Whether a generation may be used: it has not retired, and its lease has not ended (R44, R301). -/
def Gen.good (g : Gen) (now : Nat) : Bool := g.live && decide (now < g.expiry)

/-- Whether a port sends: up, not paused, its current generation not retired (R296, R301). -/
def Port.sends (p : Port) (now : Nat) : Bool := p.up && !p.paused && (p.tx p.cur).good now

/-- The IV of a group: the sender's port, the direction, the generation, the group counter (R298). -/
def groupIv (port : Nat) (side : Bool) (gen counter : Nat) : Nat :=
  port * 2 ^ 88 + boolNat side * 2 ^ 80 + gen * 2 ^ 64 + counter % 2 ^ 64

/-- The payloads of the next group of a transfer, in at most `n` flits: 120 bytes each, and 104 in the group's last, which holds the tag as
well; zeros fill it (log 98). -/
def groupParts (n : Nat) (bs : List Byte) : List (List Byte) :=
  match n with
  | 0 => []
  | m + 1 =>
    if m = 0 || decide (bs.length ≤ 104) then [bs.take 104 ++ zeros (104 - bs.length)]
    else bs.take 120 :: groupParts m (bs.drop 120)

def groupHeaders (gen world kind group off : Nat) (ps : List (List Byte)) : List W64 :=
  match ps with
  | [] => []
  | [_] => [flitHeader gen true world kind group off]
  | x :: rest => flitHeader gen false world kind group off :: groupHeaders gen world kind group (off + x.length) rest

/-- A group sealed: the payloads as one message, the headers as the associated data, the tag after the last payload (R298). -/
def sealGroup (key iv : Nat) (hs : List W64) (ps : List (List Byte)) : List Flit :=
  let ct := gcmXor key iv ps.flatten
  let wire := ct ++ gcmTagOf key iv (wordsLe hs) ct
  hs.mapIdx fun i h => ⟨h, (wire.drop (120 * i)).take 120⟩

/-- The next group of a transfer sent under the current generation; a full group carries 1,904 bytes. -/
def Port.sendGroup (port world kind group off : Nat) (bs : List Byte) (p : Port) : Port :=
  let g := p.tx p.cur
  let ps := groupParts 16 bs
  { p.setTx p.cur { g with counter := g.counter + 1 } with
    sent := p.sent ++ sealGroup g.key (groupIv port p.side p.cur g.counter) (groupHeaders p.cur world kind group off ps) ps }

def Port.sendFrom (n port world kind group off : Nat) (bs : List Byte) (p : Port) : Port :=
  match n with
  | 0 => p
  | m + 1 =>
    let q := p.sendGroup port world kind group off bs
    if bs.length ≤ 1904 then q else q.sendFrom m port world kind group (off + 1904) (bs.drop 1904)

/-- A transfer sent on a port. -/
def Port.send (port world kind group : Nat) (bs : List Byte) (p : Port) : Port := p.sendFrom (bs.length / 1904 + 1) port world kind group 0 bs

/-- A flit of kind 3, 4 or 5, which has no payload and stands in no group. -/
def bareFlit (gen kind : Nat) : Flit := ⟨flitHeader gen false 0 kind 0 0, []⟩

/-- A management transfer: sent, or kept until the port sends again; a port that is down sends none. -/
def Port.post (port now : Nat) (bs : List Byte) (p : Port) : Port :=
  if !p.up then p
  else if p.sends now then p.send port 0 2 0 bs
  else { p with queued := p.queued ++ [bs] }

/-- What waits is sent. -/
def Port.flush (port now : Nat) (p : Port) : Port :=
  if p.sends now then p.queued.foldl (fun q bs => q.send port 0 2 0 bs) { p with queued := [] } else p

/-- A port's collectives of worlds outside a mask forgotten: such a world does not stand at both ends. -/
def Port.forget (mask : BitVec 16) (p : Port) : Port :=
  { p with
    groups := p.groups.filter fun e => mask.getLsbD (e.1 / 65536)
    owed := p.owed.filter fun e => mask.getLsbD e.1
    rx := p.rx.filter fun r => mask.getLsbD r.world }

/-- A port's binding refreshed from both ends' worlds, and the peer told of this end's (R299, log 98). -/
def Port.refresh (port now : Nat) (own : BitVec 16) (p : Port) : Port :=
  let q := { p.forget own with binding := if p.up then own &&& p.peer else 0 }
  if p.up && decide (p.told ≠ own) then { q.post port now (2 :: natToLe 2 own.toNat) with told := own } else q

/-! ## Stopping a world (R285) -/

/-- The worlds that exist and whose TDI is in RUN, as this device's part of a link binding (R299). -/
def State.runMask (s : State) : BitVec 16 :=
  (List.range 16).foldl (fun m w =>
    if w ≥ 2 && (s.world w).live && decide ((s.fn (s.world w).tdi).tdisp = .run) && decide ((s.world w).tdi ≠ 0)
    then m ||| BitVec.twoPow 16 w else m) 0

/-- The bindings refreshed (R299). -/
def State.refreshBindings (s : State) : State :=
  { s with ports := s.ports.map fun e => (e.1, e.2.refresh e.1 s.meridian s.runMask) }

/-- The pc of a slot at its stop point: of a TRAPPED slot, its k.epc (R278). -/
def Slot.stopPc (sl : Slot) : W64 := if sl.st = .trapped then sl.epc else sl.pc

/-- One slot frozen: what waits and is not served is withdrawn, pc at the instruction (R285 step 3). -/
def Slot.freeze (sl : Slot) (cause : Byte) : Slot :=
  if sl.st = .free then sl
  else { sl with
    st := .frozen, waiting := .none, reissue := false, stopReq := .none, pc := sl.stopPc
    cause := cause.setWidth 64, epc := sl.stopPc, tval := 0, tcoord := 0, tfmt := tfmtNone }

/-- A WORLD_DESTROY. -/
def Pending.destroys (p : Pending) : Bool := decide (p.op = 4)

/-- A BUSY command of a stopped world ends with ABORTED; a LAUNCH keeps its count (R34). WORLD_DESTROY goes on. -/
def Func.abort (f : Func) (w : Nat) : Func :=
  match f.pending with
  | some p =>
    if p.world = w && !p.destroys then
      { f with pending := some { p with fin := .done 0x18 (match p.fin with
        | .done _ r => if p.op = 6 then r else 0
        | _ => 0) } }
    else f
  | none => f

/-- The stop sequence of a world (R285). A PRINCIPAL_REVOKE of it that waits has made none of its steps (R211); aborted, it makes none (log 40).
It comes with the cause that its slots record: TDI_STOP, or KEYLEASE. A slot whose registers
already hold the trap that ended the world keeps it (`keep`, R275). -/
def State.stopWorld (s : State) (w : Nat) (cause : Byte) (keep : Option (Nat × Nat)) : State :=
  let mine := fun (c : Nat) => decide ((s.core c).world = w)
  let cores := s.cores.map fun e =>
    if e.2.world = w then
      (e.1, { e.2 with
        slots := e.2.slots.map fun q =>
          (q.1, if keep = some (e.1, q.1) then { q.2 with st := .frozen } else q.2.freeze cause)
        sb := e.2.sb.filter fun b => !(b.bytes.any fun x => isHost x.1)
        claims := [], leaving := [] })
    else e
  let s1 : State := { s with
    cores := cores
    feWaiters := (s.feWaiters.map fun e => (e.1, e.2.filter fun r => !mine r.core)).filter fun e => !e.2.isEmpty
    banks := (s.banks.map fun e => (e.1, { e.2 with
        queue := e.2.queue.filter fun h => !mine h.core
        deferred := e.2.deferred.filter fun d => !(mine d.core && d.entry.bytes.any fun x => isHost x.1) })).filter
      fun e => decide (e.2 ≠ Bank.init)
    barWaiters := s.barWaiters.filter fun b => !mine b.core
    revocations := s.revocations.filter fun r => decide ((s.principal r.principal).world ≠ w)
    net := s.net.filter fun n => !(match n.sender with
      | some x => mine x.1
      | none => false)
    engCmds := s.engCmds.filter fun e => decide (e.world ≠ w)
    fns := s.fns.map fun e => (e.1, e.2.abort w) }
  let s2 := s1.modWorld w fun x => { x with stopped := true }
  let t := (s.world w).tdi
  (if t = 0 then s2
    else s2.modFn t fun f => if f.tdisp = .unlocked then f else { f with tdisp := .error }).refreshBindings

/-- A TDI that leaves RUN or CONFIG_LOCKED because its world ends is in ERROR (R285 step 5). -/
def State.tdiFails (s : State) (f : Nat) : State :=
  if f = 0 then s
  else s.modFn f fun x => if x.tdisp = .run || x.tdisp = .locked then { x with tdisp := .error } else x

/-- The world that a function carries stops, unless it has stopped already (R34, R285). -/
def State.stopCarried (s : State) (fn : Nat) (cause : Byte) : State :=
  let w := (s.fn fn).world
  if fn = 0 || w = 0 || (s.world w).stopped then s.refreshBindings else s.stopWorld w cause none

/-- A TDI in CONFIG_LOCKED or RUN enters ERROR, and its world stops. Physical function 0 has no TDISP state (R325). -/
def State.tdiError (s : State) (fn : Nat) (cause : Byte) : State :=
  let f := s.fn fn
  if fn ≠ 0 && (f.tdisp = .run || f.tdisp = .locked) then (s.tdiFails fn).stopCarried fn cause else s

/-- An instruction of a slot has completed or trapped: the accumulator locks that it held, and its use of the projection buffer,
end (R191, R195). -/
def State.endInstr (s : State) (core slot : Nat) : State :=
  s.modCore core fun k =>
    { k with
      accs := k.accs.map fun a => if a.lock = some slot then { a with lock := none } else a
      projUse := k.projUse.filter (fun q => q.1 ≠ slot) }

/-! ## Taking a trap, and returning from one -/

/-- Taking a trap (R273), the one shared operation: k.cause, k.epc, k.tval, k.tcoord and k.tfmt are set, the slot is TRAPPED and a
record is queued. In the supervisor slot (R275) the handler at k.vbase goes on with nest set, or, nested, the world stops. -/
def takeTrap (t : TrapInfo) (s0 : State) : State :=
  let s := s0.endInstr s0.cur.core s0.cur.slot
  let sl := { s.me with
    cause := t.cause.setWidth 64, epc := s.me.pc, tval := t.tval, tcoord := t.tcoord, tfmt := t.tfmt
    waiting := .none, reissue := false, limit := none, popped := none, spawning := none }
  if s.cur.slot = 15 then
    if s.me.nest then
      (s.setMe { sl with st := .frozen }).stopWorld s.myWorld Cause.tdiStop (some (s.cur.core, 15))
    else s.setMe { sl with st := .run, nest := true, pc := s.myCore.vbase }
  else
    (s.setMe { sl with st := .trapped }).modMyCore (·.queueRecord t.cause s.cur.slot 0)

/-- Returning from a trap (R277), for the slot that k.slotsel selects. -/
def returnFromTrap (n : Nat) : M Ctl := do
  let s ← get
  if n = 15 then
    if s.me.nest then
      modMe fun sl => { sl with nest := false }
      return .doneAt s.me.epc
    else trapAt Cause.illegal 15
  else
    let sl := s.slot s.cur.core n
    if sl.st = .trapped then
      set (s.setSlot s.cur.core n { sl with st := .run, pc := sl.epc })
      return .done
    else trapAt Cause.illegal (w64 n)

/-! ## Running a meaning -/

/-- The slot after its instruction: pc moved, nothing left of the issue. -/
def Slot.after (sl : Slot) (pc : W64) (st : SlotSt) (w : Wait) : Slot :=
  { sl with pc := pc, st := st, waiting := w, reissue := false, charged := [], limit := none, popped := none, spawning := none }

/-- Where an instruction's effect leaves the machine. -/
def settle (r : EStateM.Result Stop State Ctl) : State :=
  match r with
  | .ok .next s => s.modMe fun sl => sl.after (sl.pc + w64 s.cur.len) .run .none
  | .ok (.jump pc) s => s.modMe fun sl => sl.after pc .run .none
  | .ok .done s => s.modMe fun sl => sl.after (sl.pc + w64 s.cur.len) .wait .complete
  | .ok (.doneAt pc) s => s.modMe fun sl => sl.after pc .wait .complete
  | .ok .gone s => s
  | .error (.trap t) s => takeTrap t s
  | .error (.wait w) s => s.modMe fun sl => { sl with st := .wait, waiting := w, reissue := false }

/-- The issue of an instruction: one pip, and one event (R213, R311), unless it has issued before and waited. The cycle and k.fpc are
noted (R100, R154). The capabilities charged are forgotten, but for a row-granular instruction that resumes (R20, R168). -/
def State.issue (s : State) : State :=
  if s.me.reissue then s
  else
    let t := s.modMe fun sl =>
      { sl with issuedAt := s.cycle, fpcAt := sl.fpc, charged := if flag sl.restart 63 then sl.charged else [] }
    (t.modMyCore (·.tally 0x02 t.cur.slot 1)).chargeSlot t.cur.core t.cur.slot 1

/-- An instruction of the acting thread: its issue, then its effect. -/
def run (m : M Ctl) (s : State) : Host.Outcome State Fault Refusal := .next (settle (m s.issue))

/-- METRD does not see its own pip (R207): the effect, then the issue. -/
def runChargedAfter (m : M Ctl) (s : State) : Host.Outcome State Fault Refusal :=
  .next (settle (match m s with
    | .ok c t => .ok c t.issue
    | .error e t => .error e t.issue))

/-- An operation or event of the device. One that does not apply leaves the state as it is. -/
def event (m : M Unit) (s : State) : Host.Outcome State Fault Refusal :=
  match m s with
  | .ok _ t => .next t
  | .error _ _ => .next s

/-- An event's condition: without it the event does not apply. -/
def require (b : Bool) : M Unit := if b then pure () else throw (.wait .none)

end Sys2Proof.Machine
end

