-- ==== Sys2Proof/Machine/Cx8.lean ====
section
/-! DEFINITION. CX8 blocks: 32 E5M3 weights at about six bits each (R157 to R159). -/

namespace Sys2Proof.Machine

/-- A value's bits, most significant first. -/
def bitsMsb (n v : Nat) : List Bool :=
  match n with
  | 0 => []
  | k + 1 => decide (v / 2 ^ k % 2 = 1) :: bitsMsb k v

/-- Bytes as the bit stream of a block (R157). -/
def bitStream (bs : List Byte) : List Bool := bs.flatMap fun b => bitsMsb 8 b.toNat

/-- Bits, most significant first, as a value. -/
def msbValue (bs : List Bool) : Nat := bs.foldl (fun acc b => 2 * acc + boolNat b) 0

/-- What decoding says of the bytes read so far. -/
inductive CxResult (α : Type) where
  | more
  | malformed
  | done (v : α)
  deriving DecidableEq, Repr

/-- One exponent code (R157): the exponent field and the rest. -/
def cxCode (m : Nat) (bs : List Bool) : CxResult (Nat × List Bool) :=
  match bs with
  | false :: r => .done (m, r)
  | true :: false :: r => if m < 1 then .malformed else .done (m - 1, r)
  | true :: true :: false :: r => .done (m + 1, r)
  | true :: true :: true :: false :: r => if m < 2 then .malformed else .done (m - 2, r)
  | true :: true :: true :: true :: false :: r => if m < 3 then .malformed else .done (m - 3, r)
  | true :: true :: true :: true :: true :: r => if r.length < 5 then .more else .done (msbValue (r.take 5), r.drop 5)
  | _ => .more

/-- `n` exponent codes. -/
def cxCodes (m n : Nat) (bs : List Bool) : CxResult (List Nat × List Bool) :=
  match n with
  | 0 => .done ([], bs)
  | k + 1 =>
    match cxCode m bs with
    | .more => .more
    | .malformed => .malformed
    | .done (e, r) =>
      match cxCodes m k r with
      | .more => .more
      | .malformed => .malformed
      | .done (es, r') => .done (e :: es, r')

/-- Sign [8], exponent [7:3], mantissa [2:0] from a nibble and an exponent. -/
def cxElem (nib e : Nat) : Nat := nib / 8 * 256 + e * 8 + nib % 8

/-- A block decoded from its first bytes (R158): the 32 elements and the block's length in bytes. -/
def cxDecode (bs : List Byte) : CxResult (List Nat × Nat) :=
  match bs with
  | b0 :: b1 :: _ =>
    let h := b0.toNat
    if h / 64 ≠ 0 then .malformed
    else if h / 32 % 2 = 1 then
      if h % 32 ≠ 0 || b1.toNat ≠ 0 then .malformed else .done (List.replicate 32 0, 2)
    else if h % 32 = 31 then .malformed
    else if bs.length < 17 then .more
    else
      let nibs := (bs.drop 1).take 16 |>.flatMap fun b => [b.toNat / 16, b.toNat % 16]
      let tail := bitStream (bs.drop 17)
      match cxCodes (h % 32) 32 tail with
      | .more => .more
      | .malformed => .malformed
      | .done (es, rest) =>
        let bits := 136 + (tail.length - rest.length)
        let len := (bits + 15) / 16 * 2
        if bs.length < len then .more
        else if (rest.take (len * 8 - bits)).any id then .malformed
        else .done (List.zipWith cxElem nibs es, len)
  | _ => .more

/-- How often an exponent field occurs among elements. -/
def expCount (els : List Nat) (e : Nat) : Nat := (els.filter fun x => decide (x / 8 % 32 = e)).length

/-- The mode exponent (R159): the most frequent field but 31, ties to the smaller; 30 when every field is 31. -/
def modeExp (els : List Nat) : Nat :=
  let best := (List.range 31).foldl (fun b e => if expCount els b < expCount els e then e else b) 0
  if expCount els best = 0 then 30 else best

/-- The code of an exponent field: the short code of d in −3 .. +1, else the literal. -/
def expCode (m e : Nat) : List Bool :=
  if e = m then [false]
  else if e + 1 = m then [true, false]
  else if e = m + 1 then [true, true, false]
  else if e + 2 = m then [true, true, true, false]
  else if e + 3 = m then [true, true, true, true, false]
  else [true, true, true, true, true] ++ bitsMsb 5 e

/-- A bit stream cut into bytes; a last part is filled with zero bits. -/
def packBits (fuel : Nat) (bs : List Bool) : List Byte :=
  match fuel with
  | 0 => []
  | f + 1 => if bs.isEmpty then [] else
      BitVec.ofNat 8 (msbValue (bs.take 8) * 2 ^ (8 - min 8 bs.length)) :: packBits f (bs.drop 8)

/-- 32 containers encoded as a block (R159). -/
def cxEncode (els : List Nat) : List Byte :=
  if els.all (fun x => x % 512 = 0) then [0x20, 0x00]
  else
    let m := modeExp els
    let stream := bitsMsb 8 m ++ els.flatMap (fun x => bitsMsb 4 (x / 256 % 2 * 8 + x % 8)) ++ els.flatMap fun x => expCode m (x / 8 % 32)
    let len := (stream.length + 15) / 16 * 2
    let bytes := packBits 64 stream
    bytes ++ List.replicate (len - bytes.length) 0

end Sys2Proof.Machine
end

