-- ==== Sys2Proof/Machine/Flags.lean ====
section
/-! DEFINITION. The sticky flags of k.flags (R155) and the fields of k.fpc (R153). A set of flags is a number of nine bits. -/

namespace Sys2Proof.Machine

namespace Flag
def inx : Nat := 1
def uf : Nat := 2
def dz : Nat := 4
def inv : Nat := 8
def nan : Nat := 16
def szi : Nat := 32
def isat : Nat := 64
def nsat : Nat := 128
def ovf32 : Nat := 256
end Flag

/-- Flags to be set where a condition holds. -/
def flagIf (b : Bool) (f : Nat) : Nat := if b then f else 0

/-- Flags ORed into k.flags (R155): operations only set, never clear. -/
def Slot.orFlags (sl : Slot) (f : Nat) : Slot := { sl with flags := sl.flags ||| w64 f }
def orFlags (f : Nat) : M Unit := modMe (·.orFlags f)

/-- Rounding modes (R153). -/
inductive Rm where
  | nearest | zero | up | down
  deriving DecidableEq, Repr

def rmOf (fpc : W64) : Rm :=
  match fld fpc 0 2 with
  | 0 => .nearest
  | 1 => .zero
  | 2 => .up
  | _ => .down

/-- k.fpc.NT: the first NaN produced traps (R163). -/
def ntOf (fpc : W64) : Bool := flag fpc 2

end Sys2Proof.Machine
end

