-- ==== Sys2Proof/Machine/Numeric.lean ====
section
/-! DEFINITION. Number formats, exact values, rounding and conversions (spec 10). Values are exact dyadic numbers; each result
is rounded once, with its flags. Element types are numbered as in the shape word (R164). -/

namespace Sys2Proof.Machine

/-- A floating-point layout (R150): exponent and mantissa widths, bias; E4M3 alone has no infinity. -/
structure Fmt where
  ew : Nat
  mw : Nat
  bias : Nat
  noInf : Bool
  deriving DecidableEq, Repr

namespace Fmt
def e4m3 : Fmt := ⟨4, 3, 7, true⟩
def e5m2 : Fmt := ⟨5, 2, 15, false⟩
def e5m3 : Fmt := ⟨5, 3, 15, false⟩
def bf16 : Fmt := ⟨8, 7, 127, false⟩
def fp16 : Fmt := ⟨5, 10, 15, false⟩
def fp32 : Fmt := ⟨8, 23, 127, false⟩
end Fmt

/-- The layout of a floating element type (R164). -/
def fmtOf (ty : Nat) : Option Fmt :=
  match ty with
  | 2 => some .e4m3
  | 3 => some .e5m2
  | 4 => some .e5m3
  | 5 => some .bf16
  | 6 => some .fp16
  | 7 => some .fp32
  | _ => none

/-- Element sizes in bytes (R129, R151, R164). -/
def tySize (ty : Nat) : Nat :=
  match ty with
  | 4 => 2
  | 5 => 2
  | 6 => 2
  | 7 => 4
  | 8 => 4
  | _ => 1

/-- A number: NaN, an infinity, a zero with its sign, or (-1)^neg m 2^e with m > 0. -/
inductive Fp where
  | nan
  | inf (neg : Bool)
  | zero (neg : Bool)
  | fin (neg : Bool) (m : Nat) (e : Int)
  deriving DecidableEq, Repr

/-- The value of a bit pattern (R150). -/
def Fmt.decode (f : Fmt) (bits : Nat) : Fp :=
  let man := bits % 2 ^ f.mw
  let ex := bits / 2 ^ f.mw % 2 ^ f.ew
  let neg := decide (bits / 2 ^ (f.mw + f.ew) % 2 = 1)
  if ex = 2 ^ f.ew - 1 && (!f.noInf || man = 2 ^ f.mw - 1) then
    if man = 0 then .inf neg else .nan
  else if ex = 0 then
    if man = 0 then .zero neg else .fin neg man (1 - f.bias - f.mw)
  else .fin neg (2 ^ f.mw + man) ((ex : Int) - f.bias - f.mw)

/-- The sign bit of a layout. -/
def Fmt.sign (f : Fmt) (neg : Bool) : Nat := boolNat neg * 2 ^ (f.mw + f.ew)
/-- The canonical NaN (R150, R152). -/
def Fmt.canonNan (f : Fmt) : Nat :=
  if f.noInf then 2 ^ (f.mw + f.ew) - 1 else (2 ^ f.ew - 1) * 2 ^ f.mw + 2 ^ (f.mw - 1)
/-- The largest finite magnitude as (mantissa, exponent). -/
def Fmt.maxFinite (f : Fmt) : Nat × Int :=
  if f.noInf then (2 ^ (f.mw + 1) - 2, (2 ^ f.ew : Int) - 1 - f.bias - f.mw)
  else (2 ^ (f.mw + 1) - 1, (2 ^ f.ew : Int) - 2 - f.bias - f.mw)
def Fmt.maxBits (f : Fmt) : Nat :=
  if f.noInf then 2 ^ (f.mw + f.ew) - 2 else (2 ^ f.ew - 1) * 2 ^ f.mw - 1
def Fmt.infBits (f : Fmt) : Nat := (2 ^ f.ew - 1) * 2 ^ f.mw

/-- A result: its bit pattern and the flags it sets. -/
structure FR where
  bits : Nat
  flags : Nat
  deriving DecidableEq, Repr

/-- The number of bits of a natural number. -/
def bitLen (n : Nat) : Nat := if n = 0 then 0 else Nat.log2 n + 1

/-- Whether rounding goes away from zero: the quotient's parity, the remainder against the half, and the sign (R153). -/
def roundsUp (rm : Rm) (neg : Bool) (q rem whole : Nat) : Bool :=
  match rm with
  | .nearest => decide (2 * rem > whole) || (decide (2 * rem = whole) && decide (q % 2 = 1))
  | .zero => false
  | .up => !neg && decide (rem ≠ 0)
  | .down => neg && decide (rem ≠ 0)

/-- m 2^e rounded to a multiple of 2^ex: (quotient, inexact). -/
def roundAt (rm : Rm) (neg : Bool) (m : Nat) (e ex : Int) : Nat × Bool :=
  if ex ≤ e then (m * 2 ^ (e - ex).toNat, false)
  else
    let whole := 2 ^ (ex - e).toNat
    let q := m / whole
    let rem := m % whole
    (if roundsUp rm neg q rem whole then q + 1 else q, decide (rem ≠ 0))

/-- The exact value (-1)^neg m 2^e, and a little more in magnitude where sticky, rounded to a layout (R153, R322). sat: a
result that overflows becomes the largest finite value with NSAT (R156); otherwise it is IEEE 754's for the mode, with OVF32 when
infinite. UF and INX are given as IEEE 754 defines them; the caller drops them where its rule does. -/
def Fmt.round (f : Fmt) (rm : Rm) (sat : Bool) (neg : Bool) (m0 : Nat) (e0 : Int) (sticky : Bool) : FR :=
  let m := m0 * 4 + boolNat sticky
  let e := e0 - 2
  let p := f.mw + 1
  let emin : Int := 1 - f.bias - f.mw
  let free : Int := e + bitLen m - p
  let ex := max free emin
  let (q, inexact) := roundAt rm neg m e ex
  let q0 := (roundAt rm neg m e free).1
  let tiny := decide (free < emin) && decide (q0 < 2 ^ (f.mw + (emin - free).toNat))
  let (mm, me) := f.maxFinite
  if ex ≥ me && decide (q * 2 ^ (ex - me).toNat > mm) then
    if sat then ⟨f.sign neg + f.maxBits, Flag.nsat + Flag.inx⟩
    else
      let toInf := match rm with
        | .nearest => true
        | .zero => false
        | .up => !neg
        | .down => neg
      if toInf then ⟨f.sign neg + f.infBits, Flag.ovf32 + Flag.inx⟩ else ⟨f.sign neg + f.maxBits, Flag.inx⟩
  else
    let fl := flagIf inexact Flag.inx + flagIf (tiny && inexact) Flag.uf
    if q < 2 ^ f.mw then ⟨f.sign neg + q, fl⟩
    else
      let (q', ex') := if q = 2 ^ p then (2 ^ f.mw, ex + 1) else (q, ex)
      ⟨f.sign neg + (ex' + f.bias + f.mw).toNat * 2 ^ f.mw + (q' - 2 ^ f.mw), fl⟩

/-- A number delivered in a layout. An infinity without a pattern for it saturates (R156). -/
def Fmt.deliver (f : Fmt) (rm : Rm) (sat : Bool) (x : Fp) (flags : Nat) : FR :=
  match x with
  | .nan => ⟨f.canonNan, flags⟩
  | .inf neg => if f.noInf then ⟨f.sign neg + f.maxBits, flags ||| Flag.nsat⟩ else ⟨f.sign neg + f.infBits, flags⟩
  | .zero neg => ⟨f.sign neg, flags⟩
  | .fin neg m e => let r := f.round rm sat neg m e false; ⟨r.bits, r.flags ||| flags⟩

/-! ## Exact arithmetic -/

def Fp.isNan (x : Fp) : Bool :=
  match x with
  | .nan => true
  | _ => false

def Fp.neg (x : Fp) : Fp :=
  match x with
  | .nan => .nan
  | .inf n => .inf !n
  | .zero n => .zero !n
  | .fin n m e => .fin (!n) m e

/-- A signed integer times 2^e as a number; zero takes the sign of the rounding mode (R172). -/
def Fp.ofScaled (rm : Rm) (v : Int) (e : Int) : Fp :=
  if v = 0 then .zero (decide (rm = .down)) else .fin (decide (v < 0)) v.natAbs e

def signedMan (neg : Bool) (m : Nat) : Int := if neg then -(m : Int) else m

/-- The exact sum and its flags (R172): NAN for a NaN input, INV for opposite infinities, IEEE 754 zero signs. -/
def Fp.add (rm : Rm) (a b : Fp) : Fp × Nat :=
  match a, b with
  | .nan, _ => (.nan, Flag.nan)
  | _, .nan => (.nan, Flag.nan)
  | .inf x, .inf y => if x = y then (.inf x, 0) else (.nan, Flag.inv)
  | .inf x, _ => (.inf x, 0)
  | _, .inf y => (.inf y, 0)
  | .zero x, .zero y => (.zero (if x = y then x else decide (rm = .down)), 0)
  | .zero _, .fin n m e => (.fin n m e, 0)
  | .fin n m e, .zero _ => (.fin n m e, 0)
  | .fin n m e, .fin n' m' e' =>
    let lo := min e e'
    (.ofScaled rm (signedMan n m * 2 ^ (e - lo).toNat + signedMan n' m' * 2 ^ (e' - lo).toNat) lo, 0)

/-- The exact product and its flags (R172). -/
def Fp.mul (a b : Fp) : Fp × Nat :=
  match a, b with
  | .nan, _ => (.nan, Flag.nan)
  | _, .nan => (.nan, Flag.nan)
  | .inf _, .zero _ => (.nan, Flag.inv)
  | .zero _, .inf _ => (.nan, Flag.inv)
  | .inf x, .inf y => (.inf (x != y), 0)
  | .inf x, .fin y _ _ => (.inf (x != y), 0)
  | .fin x _ _, .inf y => (.inf (x != y), 0)
  | .zero x, .zero y => (.zero (x != y), 0)
  | .zero x, .fin y _ _ => (.zero (x != y), 0)
  | .fin x _ _, .zero y => (.zero (x != y), 0)
  | .fin x m e, .fin y m' e' => (.fin (x != y) (m * m') (e + e'), 0)

/-- a times b plus c, exact (R172): a NaN input is judged before an invalid product. -/
def Fp.fma (rm : Rm) (a b c : Fp) : Fp × Nat :=
  if a.isNan || b.isNan || c.isNan then (.nan, Flag.nan)
  else
    let (p, f) := a.mul b
    if p.isNan then (.nan, f) else p.add rm c

/-- The comparison of magnitudes m 2^e and m' 2^e'. -/
def magLt (m : Nat) (e : Int) (m' : Nat) (e' : Int) : Bool :=
  let lo := min e e'
  decide (m * 2 ^ (e - lo).toNat < m' * 2 ^ (e' - lo).toNat)

/-- a < b by value; the two zeros are equal. Neither is a NaN. -/
def Fp.lt (a b : Fp) : Bool :=
  match a, b with
  | .nan, _ => false
  | _, .nan => false
  | .inf x, .inf y => x && !y
  | .inf x, _ => x
  | _, .inf y => !y
  | .zero _, .zero _ => false
  | .zero _, .fin n _ _ => !n
  | .fin n _ _, .zero _ => n
  | .fin n m e, .fin n' m' e' =>
    if n && !n' then true else if !n && n' then false
    else if n then magLt m' e' m e else magLt m e m' e'

def Fp.isNegZero (a : Fp) : Bool := decide (a = .zero true)

/-- The larger, +0 above −0, a NaN operand giving NaN (R172). -/
def Fp.max (a b : Fp) : Fp × Nat :=
  if a.isNan || b.isNan then (.nan, Flag.nan)
  else if a.lt b || (a.isNegZero && decide (b = .zero false)) then (b, 0) else (a, 0)

def Fp.min (a b : Fp) : Fp × Nat :=
  if a.isNan || b.isNan then (.nan, Flag.nan)
  else if b.lt a || (b.isNegZero && decide (a = .zero false)) then (b, 0) else (a, 0)

/-! ## Correctly rounded functions (R175) -/

/-- 1 / (m 2^e) with 40 bits and more: (mantissa, exponent, sticky). -/
def recipParts (m : Nat) (e : Int) : Nat × Int × Bool :=
  let k := bitLen m + 40
  (2 ^ k / m, -(k : Int) - e, decide (2 ^ k % m ≠ 0))

/-- The integer square root by bits from the highest down. -/
def isqrtBits (n : Nat) (bits acc : Nat) : Nat :=
  match bits with
  | 0 => acc
  | b + 1 =>
    let t := acc + 2 ^ b
    isqrtBits n b (if t * t ≤ n then t else acc)

def isqrt (n : Nat) : Nat := isqrtBits n (bitLen n / 2 + 1) 0

/-- 1 / √(m 2^e): (mantissa, exponent, sticky). -/
def rsqrtParts (m0 : Nat) (e0 : Int) : Nat × Int × Bool :=
  let (m, e) := if e0 % 2 = 0 then (m0, e0) else (2 * m0, e0 - 1)
  let k := bitLen m + 40
  let q := isqrt (2 ^ (2 * k) / m)
  (q, -(k : Int) - e / 2, decide (q * q * m ≠ 2 ^ (2 * k)))

/-- The fraction bits of the fixed-point numbers that logarithms and powers are formed in. -/
def fixBits : Nat := 320
/-- The integer part of 2^320 ln 2. -/
def ln2Fix : Nat := 0xb17217f7d1cf79abc9e3b39803f2f6af40f343267298b62d8a0d175b8baafa2be7b876206debac98

/-- The power series of e^y for y in fixed point below 1: the terms from the n-th on. -/
def expSeries (fuel n term y : Nat) : Nat :=
  match fuel with
  | 0 => 0
  | k + 1 => term + expSeries k (n + 1) (term * y / 2 ^ fixBits / n) y

/-- 2^f for a fraction f in fixed point, from 1 to 2 in fixed point. -/
def exp2Fix (f : Nat) : Nat := expSeries 100 1 (2 ^ fixBits) (f * ln2Fix / 2 ^ fixBits)

/-- The sum of z^(2k+1) / (2k+1), z in fixed point, from the term z^(2k+1). -/
def atanhSeries (fuel k term z2 : Nat) : Nat :=
  match fuel with
  | 0 => 0
  | n + 1 => term / (2 * k + 1) + atanhSeries n (k + 1) (term * z2 / 2 ^ fixBits) z2

/-- log2 of m / 2^(bits - 1), from 0 to 1 in fixed point. -/
def log2Fix (m : Nat) : Nat :=
  let one := 2 ^ (bitLen m - 1)
  let z := (m - one) * 2 ^ fixBits / (m + one)
  2 * atanhSeries 110 0 z (z * z / 2 ^ fixBits) * 2 ^ fixBits / ln2Fix

/-- 2^x for a finite x, rounded to a layout. A power whose exponent is no integer is never exact. -/
def Fmt.exp2 (f : Fmt) (rm : Rm) (sat : Bool) (x : Fp) : FR :=
  match x with
  | .nan => ⟨f.canonNan, Flag.nan⟩
  | .inf neg => if neg then ⟨0, 0⟩ else ⟨f.infBits, 0⟩
  | .zero _ => f.round rm sat false 1 0 false
  | .fin neg m e =>
    if (bitLen m : Int) + e > 12 then
      if neg then f.round rm sat false 1 (-4096) true else f.round rm sat false 1 4096 true
    else if e ≥ 0 then
      f.round rm sat false 1 (signedMan neg (m * 2 ^ e.toNat)) false
    else
      let d : Nat := 2 ^ (-e).toNat
      let v := signedMan neg m
      let i := v / (d : Int)
      let r := (v % (d : Int)).toNat
      if r = 0 then f.round rm sat false 1 i false
      else f.round rm sat false (exp2Fix (r * 2 ^ fixBits / d)) (i - fixBits) true

/-- log2 of a positive finite number, rounded to a layout; exact for powers of two. -/
def Fmt.log2 (f : Fmt) (rm : Rm) (sat : Bool) (m : Nat) (e : Int) : FR :=
  let k : Int := e + bitLen m - 1
  if m = 2 ^ (bitLen m - 1) then
    if k = 0 then ⟨0, 0⟩ else f.round rm sat (decide (k < 0)) k.natAbs 0 false
  else
    let v : Int := k * 2 ^ fixBits + log2Fix m
    if v < 0 then f.round rm sat true (v.natAbs - 1) (-(fixBits : Int)) true
    else f.round rm sat false v.natAbs (-(fixBits : Int)) true

/-! ## Integers and conversions -/

/-- The two's-complement or unsigned value of an integer element: INT8, UINT8, INT32 (R149), MASK as UINT8. -/
def intOf (ty bits : Nat) : Int :=
  match ty with
  | 0 => if bits % 256 < 128 then (bits % 256 : Nat) else (bits % 256 : Nat) - 256
  | 8 => if bits % 2 ^ 32 < 2 ^ 31 then (bits % 2 ^ 32 : Nat) else (bits % 2 ^ 32 : Nat) - 2 ^ 32
  | _ => (bits % 256 : Nat)

def intMin (ty : Nat) : Int :=
  match ty with
  | 0 => -128
  | 8 => -(2 ^ 31)
  | _ => 0

def intMax (ty : Nat) : Int :=
  match ty with
  | 0 => 127
  | 8 => 2 ^ 31 - 1
  | _ => 255

def intBits (ty : Nat) (v : Int) : Nat := (v % (if ty = 8 then 2 ^ 32 else 256)).toNat

/-- An exact integer saturated to a type, with ISAT (R174). -/
def satInt (ty : Nat) (v : Int) : FR :=
  if v < intMin ty then ⟨intBits ty (intMin ty), Flag.isat⟩
  else if v > intMax ty then ⟨intBits ty (intMax ty), Flag.isat⟩
  else ⟨intBits ty v, 0⟩

/-- A bit pattern as a number: a floating type's value, or an integer. -/
def valueOf (ty bits : Nat) : Fp :=
  match fmtOf ty with
  | some f => f.decode bits
  | none => .ofScaled .nearest (intOf ty bits) 0

/-- The conversion of one element (R156). -/
def convert (src dst bits : Nat) : FR :=
  match fmtOf dst with
  | some f =>
    let x := valueOf src bits
    f.deliver .nearest true x (flagIf x.isNan Flag.nan)
  | none =>
    match fmtOf src with
    | none => satInt dst (intOf src bits)
    | some f =>
      match f.decode bits with
      | .nan => ⟨0, Flag.inv⟩
      | .inf neg => satInt dst (if neg then -(2 ^ 40) else 2 ^ 40)
      | .zero _ => ⟨0, 0⟩
      | .fin neg m e =>
        let (q, inexact) := roundAt .nearest neg m e 0
        let r := satInt dst (signedMan neg q)
        ⟨r.bits, r.flags + flagIf inexact Flag.inx⟩

/-- Whether an element is a NaN of a floating type. -/
def isNanBits (ty bits : Nat) : Bool :=
  match fmtOf ty with
  | some f => (f.decode bits).isNan
  | none => false

/-- round_fp32 of an exact number, to nearest even, overflowing to infinity with OVF32 (R160). UF and INX are dropped. -/
def roundFp32 (x : Fp) (flags : Nat) : FR :=
  let r := Fmt.fp32.deliver .nearest false x flags
  ⟨r.bits, r.flags &&& (Flag.ovf32 + Flag.nan + Flag.inv)⟩

/-- One FP32 addition to nearest even: AFADD, append logs, collectives, reductions (R224, R238, R304). -/
def addFp32 (a b : Nat) : FR :=
  let (x, f) := (Fmt.fp32.decode a).add .nearest (Fmt.fp32.decode b)
  roundFp32 x f

end Sys2Proof.Machine
end

