-- ==== Sys2Proof/Machine/Access.lean ====
section
/-! DEFINITION. Memory as programs see it (spec 07, 08, 13, 16): caches, translation, the checks of an access, loads, the store
buffer, watches, releases and acquires. -/

namespace Sys2Proof.Machine

/-- Who makes an access: the issuing core and slot, the world and the chain it acts under (R45, R138, R241). -/
structure Who where
  core : Nat
  slot : Nat
  world : Nat
  cix : Nat
  deriving DecidableEq, Repr

/-- The acting thread. -/
def whoMe : M Who := do
  let s ← get
  return ⟨s.cur.core, s.cur.slot, s.myWorld, fld s.me.chain 0 16⟩

/-- The kinds of access (R19). -/
inductive Kind where
  | read | write | exec | atomic
  deriving DecidableEq, Repr

/-- The permission bit of a kind (R17, R202). -/
def Kind.bit (k : Kind) : Nat :=
  match k with
  | .read => 0
  | .write => 1
  | .exec => 2
  | .atomic => 3

inductive Space where
  | hbm | host | spad | cluster | chip | ctrl
  deriving DecidableEq, Repr

/-- What an address resolves to: its location, the world that owns the target, and the page's attributes. -/
structure Place where
  space : Space
  loc : Nat
  owner : Nat
  nol1 : Bool
  pin : Option Nat
  deriving DecidableEq, Repr

/-! ## The L2 and the memory-side cache -/

/-- The slice of a line (R114). -/
def sliceOf (line : Nat) (pin : Option Nat) : Nat :=
  match pin with
  | some n => n
  | none => (List.range 10).foldl (fun acc i => acc ^^^ (line / 2 ^ (7 + 4 * i) % 16)) 0

/-- The key of a set in the state's map of L2 sets: cluster, slice, set (R114). -/
def l2Key (cluster line slice : Nat) : Nat := cluster * 2048 + slice * 128 + line % 128

/-- The key of a set of the memory-side cache: stack and set (R119). -/
def mscKey (line : Nat) : Nat := line / 2 ^ 30 * 131072 + (line % 2 ^ 17 ^^^ line / 2 ^ 17 % 2 ^ 13)

/-- A line allocated or used in the memory-side cache, true LRU over 16 ways (R119). -/
def State.mscTouch (s : State) (line : Nat) : State :=
  let set := Sparse.get [] s.msc (mscKey line)
  { s with msc := Sparse.put s.msc (mscKey line) ((line :: set.filter (· ≠ line)).take 16) }

def State.mscHolds (s : State) (line : Nat) : Bool := (Sparse.get [] s.msc (mscKey line)).contains line

/-- The L2 set that a line falls in. -/
def State.l2Set (s : State) (cluster line slice : Nat) : List L2Line := Sparse.get [] s.l2 (l2Key cluster line slice)

def State.l2Holds (s : State) (cluster line slice : Nat) : Bool := (s.l2Set cluster line slice).any (·.line = line)

/-- A hit moves the line to the front of the LRU order (R116). -/
def State.l2Hit (s : State) (cluster line slice : Nat) : State :=
  let set := s.l2Set cluster line slice
  { s with l2 := Sparse.put s.l2 (l2Key cluster line slice) (set.filter (·.line = line) ++ set.filter (·.line ≠ line)) }

/-- The way that a fill takes: the lowest invalid way of the mask, else the least recently used of the mask (R116). -/
def victimWay (set : List L2Line) (mask : BitVec 16) : Option Nat :=
  match (List.range 16).find? (fun w => mask.getLsbD w && !set.any (·.way = w)) with
  | some w => some w
  | none => (set.reverse.find? (fun l => mask.getLsbD l.way)).map (·.way)

/-- A cluster's copy of a line in another slice than the one given, retired, by a write-back if it is dirty (R114, R119). -/
def State.l2Retire (s : State) (cluster line slice : Nat) : State :=
  let other := fun (k : Nat) => decide (k / 2048 = cluster) && decide (k ≠ l2Key cluster line slice)
  let s1 : State := { s with l2 := s.l2.map fun e => if other e.1 then (e.1, e.2.filter (·.line ≠ line)) else e }
  if s.l2.any fun e => other e.1 && e.2.any fun l => decide (l.line = line) && l.dirty then s1.mscTouch line else s1

/-- A fill of a line into a cluster's slice for a world (R114, R116). Any copy in another slice of the cluster is retired first. -/
def State.l2Fill (s : State) (cluster world line slice : Nat) (dirty : Bool) : State :=
  let s1 := s.l2Retire cluster line slice
  let set := (s1.l2Set cluster line slice).filter (·.line ≠ line)
  match victimWay set (Sparse.get 0xFFFF s.wayMasks (world * 64 + cluster)) with
  | none => if dirty then s1.mscTouch line else s1
  | some w =>
    let s2 := match set.find? (·.way = w) with
      | some v => if v.dirty then s1.mscTouch v.line else s1
      | none => s1
    { s2 with l2 := Sparse.put s2.l2 (l2Key cluster line slice) (⟨w, line, world, dirty⟩ :: set.filter (·.way ≠ w)) }

/-- Whether a line's MAC verifies under a world's key (R53, R323). Where another key, or none, formed it, it does so by chance
alone, which the model leaves free (log 6). An error that ECC cannot correct comes first. -/
def State.lineVerifies (s : State) (world line : Nat) : Bool :=
  let k := (s.world world).memKey
  !s.eccBad.contains line && decide (k ≠ 0) && (decide (Sparse.get 0 s.lineKeys line = k) || Config.macCollides line s.freeCtr)

/-- A line whose MAC and ECC are formed afresh, under a key (R53, R324). -/
def State.sealLine (s : State) (line key : Nat) : State :=
  { s with lineKeys := Sparse.set 0 s.lineKeys line key, eccBad := s.eccBad.filter (· ≠ line) }

/-- An error that ECC cannot correct in a line's stored bits (R53). A line that some L2 holds dirty is stored afresh in time. -/
def State.upset (s : State) (line : Nat) : State :=
  if s.l2.any fun e => e.2.any fun l => decide (l.line = line) && l.dirty then s
  else { s with eccBad := line :: s.eccBad.filter (· ≠ line) }

/-- Where a line passes by chance, what stands in it is free bytes under the reader's key (R323, log 6). -/
def State.lineCollide (s : State) (world line : Nat) : State :=
  let k := (s.world world).memKey
  if Sparse.get 0 s.lineKeys line = k then s
  else { s.setBytes (line * 64) ((List.range 64).map fun i => Config.collidedByte s.freeCtr (line * 64 + i)) with
    lineKeys := Sparse.set 0 s.lineKeys line k, freeCtr := s.freeCtr + 1 }

/-- A line brought into the cluster's L2 for a world, with the checks of a read from HBM (R53, R114, R116): the cause where it
fails, MEMERR, or KEYLEASE once the key's lease has expired (R44). -/
def State.lineAccess (s : State) (w : Who) (line : Nat) (pin : Option Nat) : State × Option Byte :=
  let cl := clusterOf w.core
  let slice := sliceOf line pin
  if s.l2Holds cl line slice then
    ((s.l2Hit cl line slice).modCore w.core (·.tally 0x07 w.slot 1), none)
  else if s.keyDead w.world then (s, some Cause.keylease)
  else
    let hit := s.mscHolds line
    let s1 := (s.mscTouch line).modCore w.core fun c =>
      (c.tally 0x08 w.slot 1).tally 0x09 w.slot (boolNat hit)
    if s1.lineVerifies w.world line then ((s1.lineCollide w.world line).l2Fill cl w.world line slice false, none)
    else (s1, some Cause.memerr)

/-- A line brought in; a check that fails traps at an address that may depend on its cause. -/
def lineInAt (w : Who) (line : Nat) (pin : Option Nat) (at_ : Byte → W64) : M Unit := do
  match (← get).lineAccess w line pin with
  | (s, none) => set s
  | (s, some cause) => do set s; trapAt cause (at_ cause)

def lineIn (w : Who) (line : Nat) (pin : Option Nat) (ea : W64) : M Unit := lineInAt w line pin fun _ => ea

/-! ## Translation -/

/-- The device-physical address of a world-physical one (R121); kind 2 extents are not reached by translation. -/
def State.wpaToDpa (s : State) (world wpa : Nat) : Option Nat :=
  match (s.world world).extents.find? (fun e => decide (e.kind ≤ 1) && decide (e.wpa ≤ wpa) && decide (wpa < e.wpa + e.len)) with
  | some e => some ((if e.kind = 1 then hostBase else 0) + e.dpa + (wpa - e.wpa))
  | none => none

/-- Whether the firewall lets a world make a kind of access to a target of another (R46). -/
def State.fwAllows (s : State) (req owner : Nat) (k : Kind) : Bool :=
  let i := req * 16 + owner
  match k with
  | .read => s.firewallR.getLsbD i
  | .exec => s.firewallR.getLsbD i
  | .write => s.firewallW.getLsbD i
  | .atomic => s.firewallR.getLsbD i && s.firewallW.getLsbD i

/-- A page-table entry read from world-physical memory through the cluster's L2, as an access of the world, for the translation of a
virtual address (R120, R122). -/
def readPte (w : Who) (wpa va : Nat) (ea : W64) : M W64 := do
  match (← get).wpaToDpa w.world wpa with
  | none => trapXlate 4 ea
  | some dpa => do
    if !(← get).fwAllows w.world w.world .read then trapAt Cause.firewall ea
    if isHbm dpa then lineInAt w (dpa / 64) none fun cause => if cause = Cause.memerr then w64 va else ea
    return (← get).word64 dpa

/-- The levels of the walk: the shift of the index, its bits, and whether a leaf may or must stand there (R120). -/
structure Level where
  shift : Nat
  bits : Nat
  leafAllowed : Bool
  leafRequired : Bool
  nextAlign : Nat
  deriving DecidableEq, Repr

def levels : List Level :=
  [⟨39, 17, false, false, 2 ^ 12⟩, ⟨30, 9, true, false, 2 ^ 12⟩, ⟨21, 9, true, false, 2 ^ 8⟩, ⟨16, 5, true, true, 2 ^ 8⟩]

/-- Whether a valid entry keeps the rules of R120 at a level. -/
def pteWellFormed (l : Level) (e : W64) : Bool :=
  let leaf := flag e 1
  let addr := fld e 8 48 * 256
  decide (fld e 56 3 = 0) && decide (fld e 6 2 = 0) &&
  (if leaf then l.leafAllowed && decide (addr % 2 ^ l.shift = 0)
    else !l.leafRequired && decide (fld e 59 5 = 0) && decide (fld e 2 4 = 0) && decide (addr % l.nextAlign = 0))

/-- The walk from a level down: the leaf entry and the page's shift (R120). -/
def walk (w : Who) (va : Nat) (ea : W64) (ls : List Level) (table : Nat) : M (W64 × Nat) := do
  match ls with
  | [] => trapXlate 3 ea
  | l :: rest =>
    let e ← readPte w (table + va / 2 ^ l.shift % 2 ^ l.bits * 8) va ea
    if !flag e 0 then trapXlate 1 ea
    else if !pteWellFormed l e then trapXlate 3 ea
    else if flag e 1 then return (e, l.shift)
    else walk w va ea rest (fld e 8 48 * 256)

def Trans.covers (t : Trans) (world va : Nat) : Bool :=
  decide (t.world = world) && decide (t.va ≤ va) && decide (va < t.va + t.size)

/-- Whether the leaf allows a kind (R120). -/
def Trans.allows (t : Trans) (k : Kind) : Bool :=
  match k with
  | .read => t.rd
  | .write => t.wr
  | .exec => t.ex
  | .atomic => t.rd && t.wr

/-- A complete translation put into a TLB of `n` entries; the oldest goes (log 10). -/
def tlbPut (n : Nat) (t : Trans) (l : List Trans) : List Trans := (t :: l).take n

/-- The set of the cluster TLB that a translation falls in, of 256: R122 gives no index, and the model takes the address in units of
64 KiB (DESIGN CHOICE, log 10). -/
def Trans.tlbSet (t : Trans) : Nat := t.va / 2 ^ 16 % 256

/-- A complete translation put into a cluster TLB, 8 ways to a set; the oldest of a full set goes (R122). -/
def tlbPutSet (t : Trans) (l : List Trans) : List Trans :=
  let kept := (l.filter fun x => decide (x.tlbSet = t.tlbSet)).take 7
  t :: l.filter fun x => decide (x.tlbSet ≠ t.tlbSet) || kept.contains x

/-- The world-physical address that a translation gives a virtual one (R120). -/
def Trans.wpaOf (t : Trans) (va : Nat) : Nat := t.wpa + (va - t.va)

/-- A complete translation of a virtual address: from the TLBs, nearest first, or by a walk (R120 to R122). Each TLB that misses takes
the translation, unless the address lies in no extent, so that nothing complete has been found. -/
def translate (w : Who) (va : Nat) (ea : W64) : M Trans := do
  let s ← get
  let cl := clusterOf w.core
  let d := dieOf w.core
  match (s.core w.core).tlb.find? (·.covers w.world va) with
  | some t => return t
  | none =>
    modify (·.modCore w.core (·.tally 0x0A w.slot 1))
    let coreTlb := fun (t : Trans) (s : State) => s.modCore w.core fun c => { c with tlb := tlbPut 64 t c.tlb }
    let clusterTlb := fun (t : Trans) (s : State) =>
      { s with clusterTlb := Sparse.put s.clusterTlb cl (tlbPutSet t (Sparse.get [] s.clusterTlb cl)) }
    match (Sparse.get [] s.clusterTlb cl).find? (·.covers w.world va) with
    | some t => do
      modify (coreTlb t)
      return t
    | none =>
      match (Sparse.get [] s.dieTlb d).find? (·.covers w.world va) with
      | some t => do
        modify fun s => coreTlb t (clusterTlb t s)
        return t
      | none => do
        let (e, sh) ← walk w va ea levels 0
        let t : Trans :=
          ⟨w.world, va / 2 ^ sh * 2 ^ sh, 2 ^ sh, fld e 8 48 * 256, flag e 2, flag e 3, flag e 4, flag e 5,
            if flag e 59 then some (fld e 60 4) else none⟩
        if ((← get).wpaToDpa w.world (t.wpaOf va)).isSome then
          modify fun s => coreTlb t (clusterTlb t
            { s with dieTlb := Sparse.put s.dieTlb d (tlbPut 512 t (Sparse.get [] s.dieTlb d)) })
        return t

/-- The place of a region 0b000 address, for a kind of access (R120, R121). Stage 1 is judged before stage 2: a page that denies the
access traps reason 2 whether or not its address lies in an extent (DESIGN CHOICE, log 94). -/
def placeOfVa (w : Who) (va : Nat) (k : Kind) (ea : W64) : M Place := do
  let t ← translate w va ea
  if t.allows k then
    match (← get).wpaToDpa w.world (t.wpaOf va) with
    | none => trapXlate 4 ea
    | some loc => return ⟨if isHbm loc then .hbm else .host, loc, w.world, t.nol1, t.pin⟩
  else trapXlate 2 ea

/-- The virtual address that a sequence-space address resolves to (R111). -/
def resolveSeq (w : Who) (ea : W64) : M Nat := do
  let s ← get
  let cw := fld ea 57 4
  let c := fld ea 48 9
  if cw ≠ w.world && w.world ≠ 0 then trapAt Cause.firewall ea
  if (s.core c).world ≠ cw then trapAt Cause.firewall ea
  let size := (s.core c).seqSize.toNat
  let base := (s.core c).seqBase.toNat
  let valid := (List.range 21).any fun i => decide (size = 2 ^ (16 + i))
  if size = 0 || fld ea 0 36 ≥ size || !valid || base % 2 ^ 16 ≠ 0 then trapXlate 6 ea
  let va := (base + fld ea 36 12 * size + fld ea 0 36) % 2 ^ 64
  if va / 2 ^ 56 ≠ 0 then trapXlate 6 ea
  return va

/-- The world that owns a byte of the chip scratchpad, by its 64 KiB granule; 0 where none does (R109). -/
def State.chipOwner (s : State) (off : Nat) : Nat :=
  match s.worlds.find? (fun e => e.2.extents.any fun x => decide (x.kind = 2) && decide (x.dpa ≤ off) && decide (off < x.dpa + x.len)) with
  | some e => e.1
  | none => 0

/-- The owner of a core's SRAM: world 0 while it is being zeroed (R46, R56). -/
def State.sramOwner (s : State) (c : Nat) : Nat := if (s.core c).zeroing then 0 else (s.core c).world

/-- Steps 2 and 3 of R99: region, window, must-be-zero bits, translation. -/
def locate (w : Who) (ea : W64) (k : Kind) : M Place := do
  let s ← get
  match fld ea 61 3 with
  | 0 =>
    if fld ea 56 5 ≠ 0 then trapXlate 5 ea
    placeOfVa w (fld ea 0 56) k ea
  | 5 => do
    let va ← resolveSeq w ea
    placeOfVa w va k ea
  | 6 =>
    match fld ea 58 3 with
    | 0 =>
      if fld ea 18 40 ≠ 0 then trapXlate 5 ea
      if w.slot < 14 && fld ea 0 18 ≥ 0x30000 then trapPriv
      return ⟨.spad, spadLoc w.core (fld ea 0 18), s.sramOwner w.core, false, none⟩
    | 1 =>
      if fld ea 20 38 ≠ 0 then trapXlate 5 ea
      let c := clusterOf w.core * 8 + fld ea 17 3
      return ⟨.cluster, clusterLoc c (fld ea 0 17), s.sramOwner c, false, none⟩
    | 2 =>
      if fld ea 26 32 ≠ 0 then trapXlate 5 ea
      return ⟨.chip, chipLoc (fld ea 0 26), s.chipOwner (fld ea 0 26), false, none⟩
    | 3 =>
      if fld ea 12 46 ≠ 0 then trapXlate 5 ea
      return ⟨.ctrl, ctrlLoc w.core (fld ea 0 12), s.sramOwner w.core, false, none⟩
    | _ => trapXlate 5 ea
  | _ => trapXlate 5 ea

/-! ## Authority -/

/-- The principals of a chain from the root, at most eight links (R14, R15). -/
def State.chainIds (s : State) (fuel cix : Nat) : List Nat :=
  match fuel with
  | 0 => []
  | n + 1 =>
    let e := s.chain cix
    (if e.depth = 0 then [] else s.chainIds n e.parent) ++ [e.principal]

/-- What the matching rules of a set grant a chain (R19). -/
def State.rulesGrant (s : State) (world ruleset cix : Nat) : BitVec 4 :=
  (Sparse.get [] (s.world world).ruleSets ruleset).foldl
    (fun g r => if r.pat = s.chainIds 8 cix then g ||| r.perms else g) 0

/-- A kind's bit in a permission field. -/
def permits (p : BitVec 4) (k : Kind) : Bool := p.getLsbD k.bit

/-- The capability of a world that holds an address (R17). -/
def State.capOf (s : State) (world : Nat) (ea : W64) : Option Cap :=
  (s.world world).caps.find? (fun c => decide (c.base ≤ ea.toNat) && decide (ea.toNat < c.base + c.len))

/-- The set of a rule cache in which a line lies: 4,096 lines in 8 ways (R210). -/
def RuleLine.set (l : RuleLine) : Nat := Config.ruleSet l.world l.ruleset l.cix % 512

/-- A line that fills a rule cache: the least recently used of a full set goes. -/
def fillRule (l : RuleLine) (lines : List RuleLine) : List RuleLine :=
  let mates := lines.filter fun x => decide (x.set = l.set)
  if mates.length < 8 then l :: lines else l :: lines.filter fun x => decide (mates.getLast? ≠ some x)

/-- The grant of a rule set to a chain through the cluster's rule cache; a miss walks the chain, whose revoked mark traps
(R209, R212). -/
def ruleGrant (w : Who) (ruleset : Nat) (ea : W64) : M (BitVec 4) := do
  let s ← get
  let cl := clusterOf w.core
  let lines := Sparse.get [] s.ruleCaches cl
  match lines.find? (fun l => l.world = w.world && l.ruleset = ruleset && l.cix = w.cix) with
  | some l =>
    set { s with ruleCaches := Sparse.put s.ruleCaches cl (l :: lines.filter (· ≠ l)) }
    return l.perms
  | none =>
    modify (·.modCore w.core (·.tally 0x0C w.slot 1))
    if (s.chain w.cix).revoked then trapAt Cause.chainRevoked ea
    else
      let g := s.rulesGrant w.world ruleset w.cix
      modify fun t => { t with ruleCaches := Sparse.put t.ruleCaches cl (fillRule ⟨w.world, ruleset, w.cix, g⟩ lines) }
      return g

/-- Steps 4 and 5 of R99 in full (R209): the capability and the rule, for every kind that the access needs. -/
def authorize (w : Who) (ea : W64) (kinds : List Kind) : M Cap := do
  let s ← get
  match s.capOf w.world ea with
  | none => trapAt Cause.capfault ea
  | some cap =>
    let cache := (s.core w.core).capCache
    modify (·.modCore w.core fun c =>
      { (if cache.contains cap.id then c else c.tally 0x0B w.slot 1) with
        capCache := (cap.id :: cache.filter (· ≠ cap.id)).take 32 })
    if !kinds.all (permits cap.perms) then trapAt Cause.chainDenied ea
    else
      let g ← ruleGrant w cap.ruleset ea
      if !kinds.all (permits g) then trapAt Cause.chainDenied ea
      else return cap

/-- Step 6 of R99 (R46). -/
def firewall (w : Who) (pl : Place) (ea : W64) (kinds : List Kind) : M Unit := do
  let s ← get
  if !kinds.all (s.fwAllows w.world pl.owner) then trapAt Cause.firewall ea

/-- Whether an address names the core control window (R109, R110). -/
def inCtrlWindow (ea : W64) : Bool := decide (fld ea 58 6 = 0x33)

/-- A word of the control window that only the supervisor writes (R110). -/
def ctrlPriv (off : Nat) : Bool := off ∈ [0x200, 0x208, 0x210, 0x218, 0x220]

/-- Steps 1 to 6 of R99 for one access of `size` bytes. `trans`: the kind that stage 1 must allow. -/
def checkAccess (w : Who) (ea : W64) (size : Nat) (trans : Kind) (kinds : List Kind) : M (Place × Cap) := do
  if ea.toNat % size ≠ 0 then trapAt Cause.align ea
  if inCtrlWindow ea && size ≠ 8 then trapAt Cause.align ea
  let pl ← locate w ea trans
  if pl.space = .ctrl && kinds.contains .write && ctrlPriv (fld ea 0 12) && w.slot ≠ 15 then trapPriv
  let cap ← authorize w ea kinds
  firewall w pl ea kinds
  return (pl, cap)

/-- A capability's charge, once an instruction (R20). -/
def chargeCap (cap : Cap) : M Unit := do
  if !(← getMe).charged.contains cap.id then
    charge cap.charge
    modMe fun sl => { sl with charged := cap.id :: sl.charged }

/-! ## Watches (R226) -/

def Watch.hit (x : Watch) (locs : List Nat) : Bool :=
  locs.any fun l => decide (x.loc ≤ l) && decide (l < x.loc + x.size)

def Slot.trigger (sl : Slot) (uid : Nat) (locs : List Nat) : Slot :=
  if sl.uid = uid then sl else { sl with watch := sl.watch.map fun x => if x.hit locs then { x with triggered := true } else x }

/-- A context parked in WAITRS becomes ready at the first trigger (R227). -/
def CtxEntry.trigger (e : CtxEntry) (uid : Nat) (locs : List Nat) (now : Nat) : CtxEntry :=
  let ctx := e.ctx.trigger uid locs
  match e.st with
  | .parked (.watching _) => { e with ctx := ctx, st := if ctx.watch.any (·.triggered) then .parked (.ready now) else e.st }
  | _ => { e with ctx := ctx }

/-- A write by an agent (0: no context) triggers the watch entries of others on what it wrote. -/
def State.triggerWatches (s : State) (uid : Nat) (locs : List Nat) : State :=
  { s with cores := s.cores.map fun e =>
    (e.1, { e.2 with
      slots := e.2.slots.map fun q => (q.1, q.2.trigger uid locs)
      cache := e.2.cache.map fun q => (q.1, q.2.trigger uid locs s.cycle) }) }

/-! ## Performing writes (R244) -/

/-- One byte of a 64-byte line replaced. -/
def Row64.setByteAt (d : Row64) (i : Nat) (b : Byte) : Row64 :=
  (d &&& ~~~((0xFF#512) <<< (8 * i))) ||| (b.setWidth 512 <<< (8 * i))

def Row64.byteAt (d : Row64) (i : Nat) : Byte := (d >>> (8 * i)).setWidth 8

/-- The cells that fall in a line, written into its data. -/
def patchLine (line : Nat) (d : Row64) (cells : List Host.Cell) : Row64 :=
  cells.foldl (fun acc x => if x.1 / 64 = line then Row64.setByteAt acc (x.1 % 64) x.2 else acc) d

/-- A core's own performed writes update its valid L1 copies in place (R113), and the data of fills on their way (log 12). Whether such an
update counts as a use in the set's LRU order the spec does not say: it does not (DESIGN CHOICE, log 93). -/
def Core.patchL1 (c : Core) (cells : List Host.Cell) : Core :=
  { c with
    l1 := c.l1.map fun l => { l with data := patchLine l.line l.data cells }
    fills := c.fills.map fun f => { f with data := patchLine f.line f.data cells } }

/-- A line written by a cluster: every other cluster's copy is invalidated first (R115). A line that the cluster holds is dirty where it
stands, whatever the mask, and is the youngest of its set; another is filled (R116). -/
def State.l2Own (s : State) (cluster world line slice : Nat) : State :=
  let s1 : State := { s with l2 := s.l2.map fun e =>
    if e.1 / 2048 = cluster then e else (e.1, e.2.filter (·.line ≠ line)) }
  if s1.l2Holds cluster line slice then
    let set := s1.l2Set cluster line slice
    let hit := (set.filter (·.line = line)).map fun (l : L2Line) => { l with dirty := true }
    { s1 with l2 := Sparse.put s1.l2 (l2Key cluster line slice) (hit ++ set.filter (·.line ≠ line)) }
  else s1.l2Fill cluster world line slice true

/-- The distinct HBM lines of a list of cells. -/
def hbmLines (cells : List Host.Cell) : List Nat :=
  ((cells.filter fun x => isHbm x.1).map fun x => x.1 / 64).eraseDups

/-- A write performed at its target (R244): the L2 and directory, the line's MAC under the owner's key, the core's L1 copies,
the bytes, and the watches of others. `pin`: the slice to which a line is pinned. Writes to HBM after the key's lease has expired are
dropped (R44). -/
def State.performWrite (s : State) (core uid world : Nat) (pin : Nat → Option Nat) (cells : List Host.Cell) : State :=
  if s.keyDead world && cells.any (fun x => isHbm x.1) then s
  else
    let s1 := (hbmLines cells).foldl (fun t line =>
      (t.l2Own (clusterOf core) world line (sliceOf line (pin line))).sealLine line (t.world world).memKey) s
    let s2 := (s1.setCells cells).modCore core (·.patchL1 cells)
    s2.triggerWatches uid (cells.map Prod.fst)

/-- The 8-byte words of a list of cells. -/
def wordsOf (cells : List Host.Cell) : List Nat := (cells.map fun x => x.1 / 8 * 8).eraseDups

/-- The bank of a word that is held or queued, among those a store covers (R223). -/
def State.busyWord (s : State) (cells : List Host.Cell) : Option Nat :=
  (wordsOf cells).find? fun l => (s.bank l).holder.isSome || !(s.bank l).queue.isEmpty

/-- The slice to which an entry's page pins a line (R114). -/
def SbEntry.pin (e : SbEntry) (line : Nat) : Option Nat := (e.pins.find? (·.1 = line)).map Prod.snd

/-- A buffer entry written at its target: it leaves the buffer (R244). -/
def State.landEntry (s : State) (core : Nat) (e : SbEntry) : State :=
  (s.modCore core fun c => { c with sb := c.sb.erase e }).performWrite core e.uid e.world e.pin e.bytes

/-- A buffered store performed; on a word that is held or queued it stands at the bank, in the buffer still, until a release (R223). -/
def State.performEntry (s : State) (core : Nat) (e : SbEntry) : State :=
  match s.busyWord e.bytes with
  | some l =>
    let e' := { e with atBank := true }
    (s.modCore core fun c => { c with sb := c.sb.replace e e' }).setBank l
      { s.bank l with deferred := (s.bank l).deferred ++ [⟨core, e'⟩] }
  | none => s.landEntry core e

/-- Whether two entries of one slot must leave in program order: a target in common, or a line (R244). -/
def SbEntry.ordered (a b : SbEntry) : Bool :=
  decide (a.slot = b.slot) &&
  (a.targets.any b.targets.contains || a.bytes.any fun x => b.bytes.any fun y => decide (x.1 / 64 = y.1 / 64))

/-- An entry performed, unless one stands before it in the buffer that must leave first (R244). -/
def State.performNext (core : Nat) (s : State) (e : SbEntry) : State :=
  if ((s.core core).sb.takeWhile fun x => decide (x ≠ e)).any (·.ordered e) then s else s.performEntry core e

/-- The entries of a slot that an operation at a word's bank comes after (R244): those on the word, and what must leave before
them. -/
def beforeWord (slot loc : Nat) (sb : List SbEntry) : List SbEntry :=
  sb.foldr (fun e acc =>
    if e.slot = slot && (acc.any (e.ordered ·) || e.bytes.any fun x => decide (x.1 / 8 * 8 = loc)) then e :: acc else acc) []

/-- The slot's own entries to a word performed (R244). -/
def State.performWord (s : State) (core slot loc : Nat) : State :=
  ((beforeWord slot loc (s.core core).sb).filter (!·.atBank)).foldl (State.performNext core) s

/-- The buffered stores of one slot performed in program order (R244, R245). -/
def State.performSlot (s : State) (core slot : Nat) : State :=
  ((s.core core).sb.filter fun e => decide (e.slot = slot) && !e.atBank).foldl (State.performNext core) s

/-- Whether a store of a context of the core still stands in the buffer. -/
def State.hasDeferred (s : State) (core uid : Nat) : Bool := (s.core core).sb.any fun e => decide (e.uid = uid)

/-- A release (R245): every earlier write of the thread is performed first. -/
def releaseAll : M Unit := do
  modify fun s => s.performSlot s.cur.core s.cur.slot
  let s ← get
  if s.hasDeferred s.cur.core s.me.uid then block true

def releaseAt (order : BitVec 2) (scope : BitVec 3) : M Unit := do
  if order.getLsbD 1 && decide (scope.toNat ≥ 1) then releaseAll

/-- The L1 emptied; fills on their way are delivered and not installed (R113, R128). -/
def Core.invalidateL1 (c : Core) : Core := { c with l1 := [], fills := c.fills.map fun f => { f with cancelled := true } }

/-- Fills of a line that are on their way when a read of it is served past the L1 are delivered and not installed (R250). -/
def Core.cancelFills (c : Core) (line : Nat) : Core :=
  { c with fills := c.fills.map fun f => if f.line = line then { f with cancelled := true } else f }

/-- A word read at its bank by a core: a valid L1 copy takes the value, so that no later load of the core finds an older one (F1 of R248;
DEDUCED, log 90), and older fills of the line are not installed (R250). -/
def State.bankRead (s : State) (core loc : Nat) : State :=
  if isHbm loc then s.modCore core fun c => (c.patchL1 (cellsAt loc (s.bytes loc 8))).cancelFills (loc / 64) else s

/-- An acquire (R245): at cluster scope or wider it invalidates the core's L1 (R113). -/
def acquireAt (scope : Nat) : M Unit := do
  if scope ≥ 2 then modCore (·.invalidateL1)

def acquireOf (order : BitVec 2) (scope : BitVec 3) : M Unit := do
  if order.getLsbD 0 && decide (scope.toNat ≥ 1) then acquireAt scope.toNat

/-! ## Loads -/

/-- The youngest buffer entry of the core that holds a byte (R244). -/
def Core.forwarded (c : Core) (loc : Nat) : Option Byte :=
  c.sb.reverse.findSome? fun e => (e.bytes.find? (·.1 = loc)).map Prod.snd

def State.lineData (s : State) (line : Nat) : Row64 := BitVec.ofNat 512 (leToNat (s.bytes (line * 64) 64))

/-- The L1's copy of a line. -/
def Core.l1Line (c : Core) (line : Nat) : Option L1Line := c.l1.find? (·.line = line)

/-- A line used: it is the youngest of its set (R113). -/
def Core.l1Touch (c : Core) (l : L1Line) : Core := { c with l1 := l :: c.l1.filter (· ≠ l) }

/-- A line installed in the L1: the oldest of a full set of four goes (R113). R113 gives no index of its 256 sets: the model takes bits
[13:6] of the device-physical address (DESIGN CHOICE, log 93). -/
def Core.l1Install (c : Core) (l : L1Line) : Core :=
  let rest := c.l1.filter (·.line ≠ l.line)
  let set := rest.filter fun x => x.line % 256 = l.line % 256
  { c with l1 := l :: (if set.length ≥ 4 then rest.filter fun x => decide (x.line % 256 ≠ l.line % 256) || (set.take 3).contains x else rest) }

/-- An HBM line made readable for the core: an L1 hit, or the L2 (R113, R114). A read served from the L2 cancels earlier fills of
the line (R250), and allocates unless the load or its page says not to. -/
def fetchLine (w : Who) (line : Nat) (pl : Place) (na : Bool) (ea : W64) : M Unit := do
  let c := (← get).core w.core
  match c.l1Line line with
  | some l =>
    modify (·.modCore w.core fun c => (if na then c else c.l1Touch l).tally 0x05 w.slot 1)
  | none =>
    modify (·.modCore w.core (·.tally 0x06 w.slot 1))
    lineIn w line pl.pin ea
    modify fun s => s.modCore w.core fun c =>
      let c1 := c.cancelFills line
      if na || pl.nol1 then c1 else { c1 with fills := c1.fills ++ [⟨line, s.lineData line, false⟩] }

/-- A word of the core control window above the mailboxes, as a load reads it (R110). -/
def State.ctrlWord (s : State) (core off : Nat) : W64 :=
  let k := s.core core
  if off = 0x200 then k.seqBase
  else if off = 0x208 then k.seqSize
  else if off = 0x210 then k.qdef.setWidth 64
  else if off = 0x218 then k.pipecfg.setWidth 64
  else if 0x300 ≤ off && off < 0x380 then w64 (Sparse.get [] k.msgs ((off - 0x300) / 8)).length
  else 0

/-- A byte of a control window. -/
def State.ctrlByte (s : State) (loc : Nat) : Byte :=
  let off := (loc - ctrlBase) % 4096
  if off < 0x200 then s.byte loc
  else (s.ctrlWord ((loc - ctrlBase) / 4096) (off / 8 * 8) >>> (8 * (off % 8))).setWidth 8

/-- Whether a location lies in the context spill area of a core (R66). -/
def inSpill (core loc : Nat) : Bool := decide (spadLoc core 0x30000 ≤ loc) && decide (loc < spadLoc core 0x40000)

/-- A byte of a core's own scratchpad: what a move of a context's data has put into the spill area and no store has changed since is a
free value (log 22). -/
def State.spadByte (s : State) (core loc : Nat) : Byte :=
  match (s.core core).spillSeq with
  | some n => if inSpill core loc && !s.mem.any (·.1 = loc) then Config.spillByte n (loc - spadLoc core 0x30000) else s.byte loc
  | none => s.byte loc

/-- The byte that a load of the core takes at a location (R244): the store buffer, the L1, the target. -/
def State.loadByte (s : State) (core loc : Nat) : Byte :=
  match (s.core core).forwarded loc with
  | some b => b
  | none =>
    if isHbm loc then
      match (s.core core).l1Line (loc / 64) with
      | some l => Row64.byteAt l.data (loc % 64)
      | none => s.byte loc
    else if ctrlBase ≤ loc then s.ctrlByte loc
    else s.spadByte core loc

/-- An acquire load at core scope or wider waits until the entries of other slots on its bytes are performed (R244). -/
def waitSiblings (w : Who) (loc n : Nat) : M Unit := do
  let c := (← get).core w.core
  if c.sb.any fun e => decide (e.slot ≠ w.slot) && e.bytes.any fun x => decide (loc ≤ x.1) && decide (x.1 < loc + n) then block false

/-- `n` bytes read at a place, not across a line (R99 step 7, R244). -/
def loadPlace (w : Who) (pl : Place) (n : Nat) (m : Mod) (ea : W64) : M (List Byte) := do
  if m.order.getLsbD 0 && decide (m.scope.toNat ≥ 1) then waitSiblings w pl.loc n
  if pl.space = .hbm then fetchLine w (pl.loc / 64) pl (m.spec.getLsbD 0) ea
  let s ← get
  return (List.range n).map fun i => s.loadByte w.core (pl.loc + i)

/-! ## Stores -/

/-- The target by which a slot's stores keep their order (R244). -/
def targetOf (pl : Place) : Nat :=
  match pl.space with
  | .spad => 0
  | .cluster => 1 + pl.loc / 2 ^ 17 % 512
  | .chip => 600
  | .ctrl => 601
  | .host => 602
  | .hbm => 700 + sliceOf (pl.loc / 64) pl.pin

/-- A store waits while the core's buffer is full (R244). It does so before its checks, which are made once (R212). -/
def storeRoom (w : Who) : M Unit := do
  if ((← get).core w.core).sb.length ≥ 32 then block true

/-- A store enters the core's buffer as one entry (R244): its pieces by place, with what each holds. -/
def storeEntry (w : Who) (ps : List (Place × List Byte)) : M Unit := modify fun s => s.modCore w.core fun c =>
  { c with sb := c.sb ++ [{
      slot := w.slot, uid := (s.slot w.core w.slot).uid, world := w.world, atBank := false
      targets := (ps.map fun p => targetOf p.1).eraseDups
      pins := ps.filterMap fun p => p.1.pin.map fun n => (p.1.loc / 64, n)
      bytes := ps.flatMap fun p => cellsAt p.1.loc p.2 }] }

/-! ## Spans of bytes across lines -/

/-- A span of `n` bytes cut at the 64-byte lines: (address, bytes). -/
def cutLines (fuel : Nat) (ea : W64) (n : Nat) : List (W64 × Nat) :=
  match fuel with
  | 0 => []
  | f + 1 =>
    if n = 0 then []
    else
      let k := min n (64 - ea.toNat % 64)
      (ea, k) :: cutLines f (ea + w64 k) (n - k)

def spanPieces (ea : W64) (n : Nat) : List (W64 × Nat) := cutLines (n / 64 + 2) ea n

/-- The checks of R99 on one piece of a span of elements of `esize` bytes. -/
def checkPiece (w : Who) (a : W64) (esize : Nat) (k : Kind) : M (Place × Cap) := do
  if a.toNat % esize ≠ 0 then trapAt Cause.align a
  if inCtrlWindow a then trapAt Cause.align a
  let pl ← locate w a k
  let cap ← authorize w a [k]
  firewall w pl a [k]
  return (pl, cap)

/-- A checked read of a span, piece by piece in address order (R99, R133): its bytes, and the capabilities it uses. -/
def readSpan (w : Who) (ea : W64) (n esize : Nat) (m : Mod) : M (List Byte × List Cap) :=
  (spanPieces ea n).foldlM (fun (bs, cs) (a, k) => do
    let (pl, cap) ← checkPiece w a esize .read
    let more ← loadPlace w pl k m a
    return (bs ++ more, cs ++ [cap])) ([], [])

/-- The capabilities that an instruction has used, each charged once (R20). -/
def chargeCaps (cs : List Cap) : M Unit := cs.forM chargeCap

/-- A span by a thread. -/
def readMine (ea : W64) (n esize : Nat) (m : Mod) : M (List Byte × List Cap) := do readSpan (← whoMe) ea n esize m

/-- The pieces of spans that are to be written, all checked before anything is stored (R99, R133). -/
def writePieces (w : Who) (spans : List (W64 × List Byte)) (esize : Nat) : M (List (W64 × Place × Cap × List Byte)) :=
  spans.foldlM (fun acc (ea, bs) => do
    let (out, _) ← (spanPieces ea bs.length).foldlM (fun (out, (rest : List Byte)) (a, k) => do
      let (pl, cap) ← checkPiece w a esize .write
      return (out ++ [(a, pl, cap, rest.take k)], rest.drop k)) (([] : List (W64 × Place × Cap × List Byte)), bs)
    return acc ++ out) []

/-- A checked write of one row, as one entry of the store buffer (R244): every piece passes its checks, and the read that a
partial write of an HBM line needs (R324), before anything is stored. Answers the capabilities it uses. -/
def writeRow (w : Who) (spans : List (W64 × List Byte)) (esize : Nat) : M (List Cap) := do
  storeRoom w
  let ps ← writePieces w spans esize
  ps.forM fun (a, pl, _, bs) => do
    if pl.space = .hbm && bs.length ≠ 64 then lineIn w (pl.loc / 64) pl.pin a
  if !ps.isEmpty then storeEntry w (ps.map fun (_, pl, _, bs) => (pl, bs))
  return ps.map fun (_, _, cap, _) => cap

/-- A 64-bit word read by the hardware at a location of HBM or SRAM, from the target (no store buffer, no L1). -/
def hwRead64 (loc : Nat) : M W64 := do return (← get).word64 loc

end Sys2Proof.Machine
end

