-- ==== Sys2Proof/Machine/Operands.lean ====
section
/-! DEFINITION. Operand forms: scalar registers with s0 and the queue ports (R85, R102), predicates, effective addresses
(R99), slot numbers (R276), and the resumption of row-granular instructions (R168). -/

namespace Sys2Proof.Machine

/-! ## Scalar registers and predicates -/

/-- A scalar register read; s0 reads zero (R85). -/
def Slot.reg (sl : Slot) (r : Reg) : W64 := if r = 0 then 0 else sl.s[r.toNat]'(r.isLt)

/-- A scalar register written; a write to s0 is discarded (R85). -/
def Slot.setReg (sl : Slot) (r : Reg) (v : W64) : Slot := if r = 0 then sl else { sl with s := sl.s.set r.toNat v r.isLt }

def Slot.pred (sl : Slot) (p : Num3) : Bool := sl.p[p.toNat]'(p.isLt)
def Slot.setPred (sl : Slot) (p : Num3) (b : Bool) : Slot := { sl with p := sl.p.set p.toNat b p.isLt }

def qi : Reg := 30
def qo : Reg := 31

/-- Whether qi pops the inbound queue, and qo pushes, in a slot of a core (R102). A PIPECFG slot field of 14 or 15, which R102 does not give,
names the copy slot or the supervisor slot like any other (DESIGN CHOICE, log 102). -/
def Core.portIn (c : Core) (n : Nat) : Bool := c.pipecfg.getLsbD 0 && decide (c.pipecfg.toNat / 16 = n)
def Core.portOut (c : Core) (n : Nat) : Bool := c.pipecfg.getLsbD 1 && decide (c.pipecfg.toNat / 16 = n)

/-- The queue ports of an instruction, before its effect (R102): it waits for a word where it names qi as a source, and for room
where its destination is qo; then one word is popped, whatever the number of fields that name it. The word popped is kept in
s30, which is no register of the slot while it is a port, and noted until the instruction completes. Answers whether a port was used. -/
def ports (srcs : List Reg) (dst : Option Reg) : M Bool := do
  let s ← get
  let c := s.myCore
  let pop := c.portIn s.cur.slot && srcs.contains qi
  let push := c.portOut s.cur.slot && decide (dst = some qo)
  let down := downstream s.cur.core
  if push && decide ((s.core down).world ≠ c.world) then trapAt Cause.firewall (w64 down)
  if pop && c.inq.isEmpty then block true
  if push && decide (16 ≤ (s.core down).inq.length) then block true
  if pop then
    modCore fun k => { k with inq := k.inq.drop 1 }
    modMe fun sl => { sl with s := sl.s.set 30 (c.inq.headD 0), popped := some (c.inq.headD 0) }
  return pop || push

/-- A source register; qo as a source reads 0 where it is a port (R102). -/
def rd (r : Reg) : M W64 := do
  let s ← get
  if r = qo && s.myCore.portOut s.cur.slot then return 0 else return s.me.reg r

/-- A destination register of a slot: a write to qi as a port is discarded, one to qo pushes to the downstream core (R102). -/
def State.writeReg (s : State) (core slot : Nat) (r : Reg) (v : W64) : State :=
  if r = qi && (s.core core).portIn slot then s
  else if r = qo && (s.core core).portOut slot then s.modCore (downstream core) fun k => { k with inq := k.inq ++ [v] }
  else s.modSlot core slot (·.setReg r v)

def wr (r : Reg) (v : W64) : M Unit := modify fun s => s.writeReg s.cur.core s.cur.slot r v

/-- Whether an instruction that waits so runs again from its beginning when the wait ends. -/
def Wait.reruns (w : Wait) : Bool :=
  match w with
  | .blocked _ => true
  | .rows => true
  | _ => false

/-- An instruction's effect over its ports. Where it waits to run again, the word that it popped is back in the queue: the
instruction takes it then (R102). -/
def withPorts {α : Type} (srcs : List Reg) (dst : Option Reg) (m : Bool → M α) : M α := fun s =>
  match (do m (← ports srcs dst)) s with
  | .error (.wait w) t => .error (.wait w)
      (if w.reruns then (t.modMyCore fun k => { k with inq := s.myCore.inq }).modMe fun sl => { sl with popped := none } else t)
  | r => r

/-- A scalar instruction over its ports: ready at once, or waiting where it used a port (R90, R102). -/
def scalar (srcs : List Reg) (dst : Option Reg) (m : M Unit) : M Ctl :=
  withPorts srcs dst fun q => do
    m
    return if q then .done else .next

/-- A waiting instruction over its ports (R90). -/
def waiting (srcs : List Reg) (dst : Option Reg) (m : M Unit) : M Ctl :=
  withPorts srcs dst fun _ => do
    m
    return .done

/-- The effective address of an FMEM instruction (R99): off in units of the access size. -/
def effAddr (base off : W64) (size : Nat) : W64 := base + off * w64 size

/-! ## Row-granular instructions (R167, R168) -/

/-- The operation field of k.restart: page, MAJ and function code (R168). -/
def restartKey (page maj fn : Nat) : Nat := page * 2 ^ 32 + maj * 2 ^ 28 + fn * 2 ^ 23

def restartWord (key row : Nat) : W64 := w64 (2 ^ 63 + key + row % 2 ^ 16)

/-- The row at which a row-granular instruction resumes, if k.restart names it (R168). -/
def resumeRow (key : Nat) : M (Option Nat) := do
  let r := (← getMe).restart
  if flag r 63 && decide (fld r 23 17 * 2 ^ 23 = key) then return some (fld r 0 16) else return none

/-- pend cleared, as an instruction begins its rows (R168). What traps or waits before leaves k.restart as it stands. -/
def clearPend : M Unit := modMe fun sl => { sl with restart := w64 (sl.restart.toNat % 2 ^ 63) }

def setRestart (key row : Nat) : M Unit := modMe fun sl => { sl with restart := restartWord key row }

/-- A row whose trap or wait leaves k.restart at it (R133, R168). -/
def guardRow {α : Type} (key row : Nat) (m : M α) : M α := fun s =>
  match m s with
  | .error e t => .error e (t.modMe fun sl => { sl with restart := restartWord key row })
  | r => r

/-- Rows in ascending order (R167). Each row commits whole; a row may answer the NaN trap that follows its commit (R163), which
records the next row. The budget of the schedule, or a stop asked of the slot, ends the step between two rows, with k.restart at the
next (R199, R278). -/
def rowLoop (key : Nat) (rows : List Nat) (budget : Option Nat) (body : Nat → M (Option TrapInfo)) : M Unit := do
  match rows with
  | [] => pure ()
  | r :: rest =>
    if budget = some 0 || decide ((← getMe).stopReq ≠ .none) then
      setRestart key r
      throw (.wait .rows)
    match ← guardRow key r (body r) with
    | some t => do
      setRestart key (r + 1)
      throw (.trap t)
    | none => rowLoop key rest (budget.map (· - 1)) body

/-- Rows from a start to below a stop. -/
def rowRange (start stop : Nat) : List Nat := (List.range stop).filter (fun i => decide (start ≤ i))

/-- The rows of an instruction under the step's budget. -/
def forRows (key start stop : Nat) (body : Nat → M (Option TrapInfo)) : M Unit := do
  clearPend
  rowLoop key (rowRange start stop) (← get).cur.rows body

/-- A computation whose trap reports operand types in k.tfmt[15:0], and a row in k.tcoord (R133, R169). -/
def atRow {α : Type} (fmt : W64) (row : Nat) (m : M α) : M α := fun s =>
  match m s with
  | .error (.trap t) s' =>
    .error (.trap { t with tcoord := if t.tcoord = 0 then w64 row else t.tcoord, tfmt := (t.tfmt >>> 16 <<< 16) ||| fmt }) s'
  | r => r

/-! ## Copy and supervisor slots -/

def isSup (s : State) : Bool := decide (s.cur.slot = 15)

/-- Instructions of work slots alone (page 4 MAJ 0x4): PRIV elsewhere. -/
def workOnly : M Unit := do
  if (← get).cur.slot ≥ 14 then trapPriv

def supOnly : M Unit := do
  if !isSup (← get) then trapPriv

end Sys2Proof.Machine
end

