-- ==== Sys2Proof/Machine/TileBase.lean ====
section
/-! DEFINITION. Tiles (spec 11): shape words, elements, the checks of R170, the commit of rows, and the skeleton that every tile
instruction of page 2 follows (R167, R168). -/

namespace Sys2Proof.Machine

/-! ## Shape words (R164, R165) -/

def shType (v : W64) : Nat := fld v 0 4
def shRows (v : W64) : Nat := fld v 4 6
def shCols (v : W64) : Nat := fld v 10 7
def shVrows (v : W64) : Nat := fld v 17 6
def shVcols (v : W64) : Nat := fld v 23 7

def mkShape (ty r c vr vc : Nat) : W64 := w64 (ty + r * 2 ^ 4 + c * 2 ^ 10 + vr * 2 ^ 17 + vc * 2 ^ 23)

def shapeOk (v : W64) : Bool :=
  decide (v = 0) ||
  (decide (fld v 30 34 = 0) && decide (shType v ≤ 9) && decide (1 ≤ shRows v) && decide (shRows v ≤ 32) &&
    decide (1 ≤ shCols v) && decide (shCols v * tySize (shType v) ≤ 64) && decide (shVrows v ≤ shRows v) &&
    decide (shVcols v ≤ shCols v))

/-- A shape word with another valid region. -/
def withValid (v : W64) (vr vc : Nat) : W64 := mkShape (shType v) (shRows v) (shCols v) vr vc

/-! ## Tiles -/

def Slot.tile (sl : Slot) (t : Num3) : Tile := sl.tiles[t.toNat]'(t.isLt)
def Slot.setTile (sl : Slot) (t : Num3) (v : Tile) : Slot := { sl with tiles := sl.tiles.set t.toNat v t.isLt }
def getTile (t : Num3) : M Tile := do return (← getMe).tile t
def setTile (t : Num3) (v : Tile) : M Unit := modMe (·.setTile t v)

/-- Element j of a row of elements of z bytes (R164). -/
def elemAt (row : Row64) (z j : Nat) : Nat := row.toNat / 2 ^ (8 * z * j) % 2 ^ (8 * z)

/-- Elements of z bytes packed from the lowest address on. -/
def packElems (z : Nat) (els : List Nat) : Nat :=
  match els with
  | [] => 0
  | e :: rest => e % 2 ^ (8 * z) + 2 ^ (8 * z) * packElems z rest

def rowOf (z : Nat) (els : List Nat) : Row64 := BitVec.ofNat 512 (packElems z els)

def Tile.row (t : Tile) (i : Nat) : Row64 := vat 0 t.rows i
def Tile.setRow (t : Tile) (i : Nat) (r : Row64) : Tile := { t with rows := t.rows.setIfInBounds i r }

/-- The bits of an element: E5M3 has nine, in a container (R151). -/
def tyBits (ty v : Nat) : Nat := if ty = 4 then v % 512 else v

/-- Element (i, j) by the tile's type; an absent element is held at zero and reads so (R166). -/
def Tile.elem (t : Tile) (i j : Nat) : Nat := tyBits (shType t.shape) (elemAt (t.row i) (tySize (shType t.shape)) j)

/-- A row cut to its first bytes. -/
def cutRow (r : Row64) (bytes : Nat) : Row64 := BitVec.ofNat 512 (r.toNat % 2 ^ (8 * bytes))

/-- A tile under a new shape word: the bytes outside the valid region are cleared (R166). -/
def Tile.reshape (t : Tile) (v : W64) : Tile :=
  { t with
    shape := v
    rows := t.rows.mapIdx fun i r => if i < shVrows v then cutRow r (shVcols v * tySize (shType v)) else 0 }

/-- The row-scale side vector at 1.0 (R326). -/
def unitScales : Vector W32 32 := Vector.replicate 32 0x3F800000
def Tile.unscaled (t : Tile) : Tile := { t with scales := unitScales }

/-- An exact number rounded to an element type: FP32 overflows as IEEE 754 does, BF16 and FP16 saturate (R172). -/
def deliverTy (ty : Nat) (rm : Rm) (x : Fp × Nat) : FR :=
  match fmtOf ty with
  | some f => f.deliver rm (decide (ty ≠ 7)) x.1 x.2
  | none => ⟨0, 0⟩

/-- The first `n` elements of a tile row. -/
def Tile.rowElems (t : Tile) (r n : Nat) : List Nat := (List.range n).map fun j => t.elem r j

/-- Both halves cleared: weights 0, shape words 0, scales 1.0 (R187). -/
def Plane.clear (p : Plane) : Plane := { p with active := Half.empty, shadow := Half.empty }
/-- Every cell +0, or 0 (R189). -/
def Acc.zero (a : Acc) : Acc := { a with rows := Vector.replicate 32 0 }

/-! ## Trap registers of tile instructions (R169, R170) -/

/-- The type of a tile operand in k.tfmt; a tile that is not live is no operand of a type: 15 (R169; DEDUCED, log 29). -/
def tyCode (v : W64) : Nat := if v = 0 then 15 else shType v
/-- The type of a result that ta's shape word decides. -/
def resCode (sa : W64) (t : Nat) : Nat := if sa = 0 then 15 else t

/-- k.tfmt: the types of destination and sources; 15 for no operand. -/
def tfmtWord (d a b c : Nat) : W64 := w64 (d * 4096 + a * 256 + b * 16 + c)

def shapeTrap {α : Type} (v : W64) (fmt : W64) : M α := trapAt Cause.shape v 0 fmt

/-- A source that is live and of an accepted type (R170). -/
def checkSrc (v : W64) (types : List Nat) (fmt : W64) : M Unit := do
  if v = 0 || !types.contains (shType v) then shapeTrap v fmt

/-- The same type, R and C as another operand. -/
def sameTRC (v u : W64) : Bool := decide (shType v = shType u) && decide (shRows v = shRows u) && decide (shCols v = shCols u)
def sameRC (v u : W64) : Bool := decide (shRows v = shRows u) && decide (shCols v = shCols u)

def agree (ok : Bool) (v : W64) (fmt : W64) : M Unit := do
  if !ok then shapeTrap v fmt

/-- The destination: the result shape well formed, and no source of another shape in the same register; either way the trap names
the result's shape word (R170, and its example in the ragged softmax). -/
def checkDst (d : Num3) (res : W64) (srcs : List (Num3 × W64)) (fmt : W64) : M Unit := do
  if !shapeOk res then shapeTrap res fmt
  if srcs.any fun q => decide (q.1 = d) && decide (q.2 ≠ res) then shapeTrap res fmt

/-- The result shape written before the first row (R170), the side vector at 1.0 (R326). -/
def beginResult (d : Num3) (res : W64) : M Unit := modMe fun sl => sl.setTile d ((sl.tile d).reshape res).unscaled

/-- The same, the side vector kept (TCPYM). -/
def beginResultKeep (d : Num3) (res : W64) : M Unit := modMe fun sl => sl.setTile d ((sl.tile d).reshape res)

/-! ## Committing rows -/

/-- k.tcoord of a NaN trap (R163). -/
def nanCoord (r c cols : Nat) : W64 := w64 ((r * cols + c) % 65536 * 2 ^ 32 + c * 2 ^ 16 + r)

/-- The NaN trap of a row just written, where k.fpc.NT asks for it (R163). -/
def nanTrap (fpc : W64) (ty r cols : Nat) (els : List FR) (fmt : W64) : Option TrapInfo :=
  if ntOf fpc then
    match els.findIdx? (fun e => isNanBits ty e.bits) with
    | some c => some ⟨Cause.nan, w64 ((els.getD c ⟨0, 0⟩).bits), nanCoord r c cols, fmt⟩
    | none => none
  else none

/-- A row of results committed whole with its flags (R167, R155). `computes`: not a move, so that NT applies. -/
def commitRow (d : Num3) (r : Nat) (els : List FR) (computes : Bool) (fmt : W64) : M (Option TrapInfo) := do
  let sl ← getMe
  let t := sl.tile d
  let ty := shType t.shape
  setTile d (t.setRow r (rowOf (tySize ty) (els.map (·.bits))))
  orFlags (els.foldl (fun f e => f ||| e.flags) 0)
  tally 0x10 1
  return if computes then nanTrap sl.fpcAt ty r (shCols t.shape) els fmt else none

/-- The skeleton of a row-granular tile instruction: resume at k.restart, or check, write the result shape and begin (R168).
`check` answers the result shape. The body sees k.fpc as it stood at the issue or the resumption (R154). -/
def tileRows (key : Nat) (d : Num3) (check : M W64) (begin_ : W64 → M Unit) (body : Nat → M (Option TrapInfo)) : M Ctl := do
  match ← resumeRow key with
  | some r => do
    forRows key r (shVrows ((← getMe).tile d).shape) body
    return .done
  | none => do
    let res ← check
    begin_ res
    forRows key 0 (shVrows res) body
    return .done

/-- The columns of a destination's valid region. -/
def validCols (d : Num3) : M (List Nat) := do return List.range (shVcols ((← getMe).tile d).shape)

end Sys2Proof.Machine
end

