-- ==== Sys2Proof/Machine/Layout.lean ====
section
/-! DEFINITION. Layout records (R21 to R24) and the reads of tensor elements, row scales and CX8 blocks through them. -/

namespace Sys2Proof.Machine

/-- A layout record (R22). -/
structure Layout where
  handle : W64
  base : W64
  rows : Nat
  cols : Nat
  pitch : Nat
  rsoff : Nat
  rscl : Bool
  trans : Bool
  type : Nat
  index : W64
  deriving DecidableEq, Repr

/-- The element type that a layout's data has in a tile: CX8 expands to E5M3 (R130). -/
def Layout.elemTy (l : Layout) : Nat := if l.type = 10 then 4 else l.type
def Layout.cx8 (l : Layout) : Bool := decide (l.type = 10)

/-- The eight words of a record. -/
def wordAt (bs : List Byte) (i : Nat) : W64 := w64 (leToNat ((bs.drop (8 * i)).take 8))

def layoutOf (handle : W64) (bs : List Byte) : Layout :=
  { handle := handle
    base := w64 (fld (wordAt bs 0) 0 56)
    rows := fld (wordAt bs 1) 0 32
    cols := fld (wordAt bs 1) 32 32
    pitch := (wordAt bs 2).toNat
    rsoff := fld (wordAt bs 3) 32 32
    rscl := flag (wordAt bs 3) 8
    trans := flag (wordAt bs 3) 7
    type := fld (wordAt bs 3) 0 4
    index := w64 (fld (wordAt bs 4) 0 56) }

/-- Whether a record's contents are legal (R22). A nonzero index in a record of type 0 to 8, which R22 lists under no trap, is not (DESIGN CHOICE,
log 100). -/
def layoutOk (bs : List Byte) (l : Layout) : Bool :=
  decide (fld (wordAt bs 0) 56 8 = 0) && decide (fld (wordAt bs 3) 9 23 = 0) && decide (fld (wordAt bs 3) 4 3 = 0) &&
  decide (fld (wordAt bs 4) 56 8 = 0) && decide (wordAt bs 5 = 0) && decide (wordAt bs 6 = 0) && decide (wordAt bs 7 = 0) &&
  (decide (l.type ≤ 8) || l.cx8) && decide (l.rows ≠ 0) && decide (l.cols ≠ 0) &&
  (if l.cx8 then decide (l.cols % 32 = 0) && !l.trans && decide (l.index ≠ 0)
    else decide (l.pitch % tySize l.type = 0) && decide (l.index = 0))

/-- A layout record read and checked under a chain (R22): ALIGN, then the read's own checks, then SHAPE. -/
def readLayoutAs (w : Who) (handle : W64) (m : Mod) : M (Layout × List Cap) := do
  if handle.toNat % 64 ≠ 0 then trapAt Cause.align handle
  let (bs, cs) ← readSpan w handle 64 8 m
  let l := layoutOf handle bs
  if !layoutOk bs l then trapAt Cause.shape handle
  return (l, cs)

def readLayout (handle : W64) (m : Mod) : M (Layout × List Cap) := do readLayoutAs (← whoMe) handle m

/-- The address of tensor element (i, j) (R23). -/
def Layout.addr (l : Layout) (i j : Nat) : W64 := l.base + w64 (i * l.pitch) + w64 (j * tySize l.type)

/-- The FP32 scale of a tensor row, from the task's scale array (R23). -/
def readScale (w : Who) (l : Layout) (scl : W64) (row : Nat) (m : Mod) : M (W32 × List Cap) := do
  let (bs, cs) ← readSpan w (scl + w64 (4 * (l.rsoff + row))) 4 4 m
  return (BitVec.ofNat 32 (leToNat bs), cs)

/-- Whether an address lies in the capability that holds a layout's base. -/
def State.inTensor (s : State) (world : Nat) (base ea : W64) : Bool :=
  match s.capOf world base with
  | some c => decide (c.base ≤ ea.toNat) && decide (ea.toNat < c.base + c.len)
  | none => false

/-- Bytes of a block lie in the tensor's capability: R24 names no cause for one that does not, and the model traps CAPFAULT with its
address (log 21). -/
def checkTensor (w : Who) (l : Layout) (a : W64) (n : Nat) : M Unit := do
  let s ← get
  match (List.range n).find? fun i => !s.inTensor w.world l.base (a + w64 i) with
  | some i => trapAt Cause.capfault (a + w64 i)
  | none => pure ()

/-- The CX8 block that starts at an address: its elements and length (R158). The decoder reads as far as it must, two bytes at
least, 58 at most, and not beyond the tensor's capability; a malformed block traps SHAPE with its start address. -/
def readBlock (w : Who) (l : Layout) (start : W64) (m : Mod) (fuel : Nat) (acc : List Byte) (cs : List Cap) :
    M ((List Nat × Nat) × List Cap) := do
  match cxDecode acc with
  | .done v => return (v, cs)
  | .malformed => trapAt Cause.shape start
  | .more =>
    match fuel with
    | 0 => trapAt Cause.shape start
    | f + 1 =>
      let n := if acc.length = 2 then 20 else 2
      checkTensor w l (start + w64 acc.length) n
      let (bs, c) ← readSpan w (start + w64 acc.length) n 1 m
      readBlock w l start m f (acc ++ bs) (cs ++ c)

def blockAt (w : Who) (l : Layout) (start : W64) (m : Mod) : M ((List Nat × Nat) × List Cap) := do
  let r ← readBlock w l start m 20 [] []
  modify (·.modCore w.core (·.tally 0x13 w.slot 1))
  return r

/-- The start of a group of 16 blocks from its index entry (R24). An offset that is not a multiple of 2, or that leaves the tensor's
capability, faults; the spec names no cause, and the model traps ALIGN or CAPFAULT with the start address (log 21). -/
def groupStart (w : Who) (l : Layout) (e : Nat) (m : Mod) : M (W64 × List Cap) := do
  let (bs, cs) ← readSpan w (l.index + w64 (4 * e)) 4 4 m
  let off := leToNat bs
  let start := l.base + w64 off
  if off % 2 ≠ 0 then trapAt Cause.align start
  checkTensor w l start 1
  return (start, cs)

/-- The start of the block `n` blocks after one that starts at an address. -/
def walkBlocks (w : Who) (l : Layout) (start : W64) (m : Mod) (n : Nat) (cs : List Cap) : M (W64 × List Cap) := do
  match n with
  | 0 => return (start, cs)
  | k + 1 =>
    let ((_, len), c) ← blockAt w l start m
    walkBlocks w l (start + w64 len) m k (cs ++ c)

/-- The start of block q. -/
def blockStart (w : Who) (l : Layout) (q : Nat) (m : Mod) : M (W64 × List Cap) := do
  let (g, cs) ← groupStart w l (q / 16) m
  walkBlocks w l g m (q % 16) cs

/-- Block q decoded: its elements, its length, and the capabilities used. -/
def readCx8 (w : Who) (l : Layout) (q : Nat) (m : Mod) : M ((List Nat × Nat) × List Cap) := do
  let (a, cs) ← blockStart w l q m
  let (r, c) ← blockAt w l a m
  return (r, cs ++ c)

/-- Elements of `z` bytes from bytes. -/
def elemsOf (z : Nat) (n : Nat) (bs : List Byte) : List Nat :=
  match n with
  | 0 => []
  | k + 1 => leToNat (bs.take z) :: elemsOf z k (bs.drop z)

/-- The bytes of elements of `z` bytes. -/
def bytesOf (z : Nat) (els : List Nat) : List Byte := els.flatMap (natToLe z)

/-- `n` neighbouring elements of tensor row i from column j on, types 0 to 8 (R23). -/
def readElems (w : Who) (l : Layout) (i j n : Nat) (m : Mod) : M (List Nat × List Cap) := do
  let z := tySize l.type
  let (bs, cs) ← readSpan w (l.addr i j) (n * z) z m
  return ((elemsOf z n bs).map (tyBits l.type), cs)

/-- `n` elements down tensor column j from row i on (R23, trans). -/
def readColumn (w : Who) (l : Layout) (i j n : Nat) (m : Mod) : M (List Nat × List Cap) :=
  (List.range n).foldlM (fun (els, cs) k => do
    let (e, c) ← readElems w l (i + k) j 1 m
    return (els ++ e, cs ++ c)) ([], [])

/-- Pips of moved bytes: 1 per 64 bytes or part (R213). -/
def pipsOf (bytes : Nat) : Nat := (bytes + 63) / 64

end Sys2Proof.Machine
end

