-- ==== Sys2Proof/Machine/Banks.lean ====
section
/-! DEFINITION. The reservation banks (R218 to R225) and the wait-and-wake table (R235): their operations, over which the
synchronising instructions and the queue hardware are written. -/

namespace Sys2Proof.Machine

/-! ## The wait-and-wake table (R235) -/

/-- A waiter's context made ready. It acquires what the waker released (R237): the core's L1 is emptied. A context that has not
yet left its slot finds its waiter gone when it does. -/
def State.wakeCtx (s : State) (x : Waiter) : State :=
  s.modCore x.core fun k =>
    { k.invalidateL1 with cache := k.cache.map fun e =>
        (e.1, if e.2.ctx.uid = x.uid && decide (e.2.st = .parked .waiter) then { e.2 with st := .parked (.ready s.cycle) } else e.2) }

/-- The oldest `n` waiters on a key. -/
def State.waitersOn (s : State) (world va n : Nat) : List Waiter :=
  (s.waitTable.filter fun x => decide (x.world = world) && decide (x.va = va)).take n

/-- The oldest `n` waiters on a key woken, and their entries removed. -/
def State.wakeOn (s : State) (world va n : Nat) : State :=
  let xs := s.waitersOn world va n
  xs.foldl State.wakeCtx { s with waitTable := s.waitTable.filter (!xs.contains ·) }

/-- The context of a core taken out of the table. -/
def State.unwait (s : State) (uid : Nat) : State := { s with waitTable := s.waitTable.filter fun x => decide (x.uid ≠ uid) }

/-! ## Releases of a word (R221 to R223) -/

/-- Another busy word that a store covers. -/
def State.otherBusy (s : State) (loc : Nat) (cells : List Host.Cell) : Option Nat :=
  (wordsOf cells).find? fun l => decide (l ≠ loc) && ((s.bank l).holder.isSome || !(s.bank l).queue.isEmpty)

/-- A deferred store performed as its word passes on, unless another word that it covers is busy. -/
def State.performDeferred (loc : Nat) (s : State) (d : Deferred) : State :=
  match s.otherBusy loc d.entry.bytes with
  | some l => s.setBank l { s.bank l with deferred := (s.bank l).deferred ++ [d] }
  | none => s.landEntry d.core d.entry

/-- A word given back by its holder, who learns nothing of it; the stores deferred at its bank are performed before it passes on
(R223). -/
def State.releaseWord (s : State) (loc : Nat) : State :=
  let b := s.bank loc
  let s1 := s.setBank loc { b with holder := none, deferred := [] }
  let s2 := match b.holder with
    | some h => s1.modSlot h.core h.slot fun sl =>
        if sl.uid = h.uid then { sl with held := sl.held.filter (· ≠ loc) } else sl
    | none => s1
  b.deferred.foldl (State.performDeferred loc) s2

/-- A reservation revoked (R222), and counted (R311). -/
def State.revokeWord (s : State) (loc : Nat) : State :=
  match (s.bank loc).holder with
  | some h => (s.releaseWord loc).modCore h.core (·.tally 0x22 h.slot 1)
  | none => s

/-- A reservation that has been held for 4,096 cycles is revoked (R222). -/
def State.lapse (s : State) (loc : Nat) : State :=
  if (s.bank loc).holder.isSome && decide ((s.bank loc).grantedAt + 4096 ≤ s.cycle) then s.revokeWord loc else s

/-- Every reservation of a context revoked (R222). -/
def State.revokeAll (s : State) (uid : Nat) : State :=
  ((s.banks.filter fun e => decide (e.2.holder.map (·.uid) = some uid)).map Prod.fst).foldl State.revokeWord s

/-! ## Grants (R219, R220, R224) -/

/-- The new value of a fused atomic, by its function (R224). -/
def atomicOp (fn : Nat) (old d b : W64) : W64 :=
  match fn with
  | 0 => old + d
  | 1 => old &&& d
  | 2 => old ||| d
  | 3 => old ^^^ d
  | 4 => if d.toInt < old.toInt then d else old
  | 5 => if old.toInt < d.toInt then d else old
  | 6 => if d.toNat < old.toNat then d else old
  | 7 => if old.toNat < d.toNat then d else old
  | 8 => d
  | 9 => if old = d then b else old
  | _ => w64 (fld old 32 32 * 2 ^ 32 + (addFp32 (fld old 0 32) (fld d 0 32)).bits)

/-- A word written by a request of a bank. -/
def State.turnWrite (s : State) (loc : Nat) (r : TurnReq) (v : W64) : State :=
  s.performWrite r.core r.uid r.world (fun _ => r.pin) (cellsAt loc (natToLe 8 v.toNat))

/-- A join word decremented, and its waiters woken when it reaches 0 (R106). -/
def State.joinDown (s : State) (loc : Nat) (r : TurnReq) : State :=
  let old := s.word64 loc
  let s1 := s.turnWrite loc r (old - 1)
  if old = 1 then s1.wakeOn r.world r.value.toNat s1.waitTable.length else s1

/-- The acquire of a grant (R225). -/
def State.grantAcquire (s : State) (r : TurnReq) : State :=
  if r.order.getLsbD 0 && decide (r.scope.toNat ≥ 2) then s.modCore r.core (·.invalidateL1) else s

/-- A request granted: its effect at the bank, its charge; a fused operation gives the word on at once. What SPAWN and TEXIT do when
their operation completes comes behind it. -/
def State.turnServe (s0 : State) (loc : Nat) (r : TurnReq) : State :=
  let s := if r.kind = .dead then s0 else s0.bankRead r.core loc
  match r.kind with
  | .rsv =>
    let s1 := (s.grantAcquire r).writeReg r.core r.slot r.reg (s.word64 loc)
    let s2 := s1.setBank loc { s1.bank loc with holder := some ⟨r.core, r.slot, r.uid⟩, grantedAt := s.cycle }
    (s2.modSlot r.core r.slot fun sl => { sl with held := sl.held ++ [loc] }).chargeSlot r.core r.slot r.pips
  | .atomic fn =>
    let s1 := s.grantAcquire r
    let old := s1.word64 loc
    let s2 := (s1.turnWrite loc r (atomicOp fn old r.value r.swap)).writeReg r.core r.slot r.reg old
    (s2.chargeSlot r.core r.slot r.pips).releaseWord loc
  | .spawn =>
    ((s.turnWrite loc r (s.word64 loc + 1)).chargeSlot r.core r.slot r.pips).releaseWord loc
  | .texit => (s.joinDown loc r).releaseWord loc
  | .dead => (s.joinDown loc r).releaseWord loc

/-- Whether a word is neither held nor queued. -/
def State.wordFree (s : State) (loc : Nat) : Bool := (s.bank loc).holder.isNone && (s.bank loc).queue.isEmpty

/-- Whether a context holds a word. -/
def State.holdsWord (s : State) (uid loc : Nat) : Bool := decide ((s.bank loc).holder.map (·.uid) = some uid)

def State.enqueueTurn (s : State) (loc : Nat) (r : TurnReq) : State :=
  s.setBank loc { s.bank loc with queue := (s.bank loc).queue ++ [r] }

/-- A thread's request at a bank: granted at once where the word is free or its own, else it waits its turn (R219). -/
def askTurn (loc : Nat) (r : TurnReq) : M Unit := do
  modify (·.lapse loc)
  let s ← get
  if s.wordFree loc || s.holdsWord r.uid loc then set (s.turnServe loc r)
  else
    set (s.enqueueTurn loc r)
    throw (.wait (.turn loc))

/-- RESERVATION_TIMEOUT: a reservation held for 4,096 cycles is revoked (R222). -/
def reservationTimeout (loc : Nat) : M Unit := do
  let s ← get
  require ((s.bank loc).holder.isSome && decide ((s.bank loc).grantedAt + 4096 ≤ s.cycle))
  set (s.lapse loc)

def execReservationTimeout (loc : Nat) : State → Host.Outcome State Fault Refusal := event (reservationTimeout loc)

/-! ## The checks of synchronising words (R218) -/

/-- ALIGN, the places allowed, then steps 3 to 7 of R99; stage 1 requires rd and w. -/
def syncPlace (w : Who) (ea : W64) (kind : Kind) : M (Place × Cap) := do
  if ea.toNat % 8 ≠ 0 then trapAt Cause.align ea
  let r := fld ea 61 3
  if r ≠ 0 && r ≠ 5 && (r ≠ 6 || fld ea 58 3 ≥ 3) then trapXlate 5 ea
  let pl ← locate w ea .atomic
  let cap ← authorize w ea [kind]
  firewall w pl ea [.atomic]
  if pl.space = .hbm then lineIn w (pl.loc / 64) pl.pin ea
  return (pl, cap)

/-- The acting thread's request. -/
def turnReq (kind : TurnKind) (d : Reg) (value swap : W64) (m : Mod) (pl : Place) (pips : Nat) : M TurnReq := do
  let s ← get
  return ⟨s.cur.core, s.cur.slot, s.me.uid, s.myWorld, kind, d, value, swap, m.order, m.scope, s.cur.len, pips, pl.pin⟩

end Sys2Proof.Machine
end

