-- ==== Sys2Proof/Machine/Principals.lean ====
section
/-! DEFINITION. Principals at work (spec 01 R12 to R16, spec 13): Linind entries and their references, the split of a segment, the
chain instructions, and the sweep of a revocation. -/

namespace Sys2Proof.Machine

/-! ## References on Linind entries (R16) -/

def Chain.pinned (e : Chain) : Bool := decide (e.refs = 65535)

/-- A revoked entry with no reference is freed, and with it the reference that it holds on its parent; at most eight links. -/
def State.freeChain (fuel cix : Nat) (s : State) : State :=
  match fuel with
  | 0 => s
  | n + 1 =>
    let e := s.chain cix
    if e.valid && e.revoked && decide (e.refs = 0) then
      let s1 := s.setChain cix { e with valid := false }
      if e.depth = 0 then s1
      else
        let p := s1.chain e.parent
        if p.pinned then s1 else (s1.setChain e.parent { p with refs := p.refs - 1 }).freeChain n e.parent
    else s

def State.takeRef (s : State) (cix : Nat) : State :=
  let e := s.chain cix
  if e.pinned then s else s.setChain cix { e with refs := e.refs + 1 }

def State.dropRef (s : State) (cix : Nat) : State :=
  let e := s.chain cix
  if e.pinned || decide (e.refs = 0) then s else (s.setChain cix { e with refs := e.refs - 1 }).freeChain 8 cix

/-! ## Links and shares (R14) -/

/-- The entries of a chain from the root. -/
def State.links (s : State) (fuel cix : Nat) : List Chain :=
  match fuel with
  | 0 => []
  | n + 1 =>
    let e := s.chain cix
    (if e.depth = 0 then [] else s.links n e.parent) ++ [e]

def State.linksOf (s : State) (cix : Nat) : List Chain := s.links 8 cix

/-- The effective shares: each declared share less the next one's. -/
def effShares (l : List Chain) : List Nat :=
  match l with
  | [] => []
  | [e] => [e.share]
  | e :: f :: rest => (e.share - f.share) :: effShares (f :: rest)

/-- The parts of c pips, the remainder to the root (R215). -/
def splitParts (c : Nat) (eff : List Nat) : List Nat :=
  let amt := eff.map fun e => c * e / 100
  match amt with
  | [] => []
  | a :: rest => (a + (c - amt.sum)) :: rest

/-- A principal's meter in its world, saturating (R216). -/
def World.addMeter (w : World) (id n : Nat) : World :=
  { w with meters := Sparse.set 0 w.meters id (min (2 ^ 64 - 1) (Sparse.get 0 w.meters id + n)) }

/-- Pips divided over the links of a chain (R215). -/
def State.splitPips (s : State) (cix pips : Nat) : State :=
  let ls := s.linksOf cix
  (ls.zip (splitParts pips (effShares ls))).foldl (fun t (e, n) => t.modWorld e.world (·.addMeter e.principal n)) s

/-- split_segment(): a slot's segment total divided over its chain's links, k.meter back to 0 (R215). -/
def State.splitSegment (s : State) (core slot : Nat) : State :=
  let sl := s.slot core slot
  (s.splitPips (fld sl.chain 0 16) sl.meter.toNat).modSlot core slot fun sl => { sl with meter := 0 }

/-- Pips of an engine's work or of a copy charged to the context that asked for it, wherever on its core it now is (R213). Where it has
retired, or its image has left the core, the charge stands all the same: it goes to the principals of the chain that was captured (R290;
DEDUCED, log 95). -/
def State.chargeCtx (s : State) (core uid cix pips : Nat) : State :=
  match (s.core core).slots.find? (·.2.uid = uid) with
  | some (n, _) => s.chargeSlot core n pips
  | none =>
    if (s.core core).cache.any (·.2.ctx.uid = uid) then
      s.modCore core fun k => { k with cache := k.cache.map fun e =>
        (e.1, if e.2.ctx.uid = uid then { e.2 with ctx := { e.2.ctx with meter := satAdd64 e.2.ctx.meter pips } } else e.2) }
    else s.splitPips cix pips

/-- Capabilities charged so, each once (R20). -/
def State.chargeCtxCaps (s : State) (core uid cix : Nat) (caps : List Cap) : State :=
  ((caps.map fun x => (x.id, x.charge)).eraseDups).foldl (fun t x => t.chargeCtx core uid cix x.2) s

/-- k.chain of an entry (R203). -/
def chainWord (cix depth : Nat) : W64 := w64 (cix + depth * 2 ^ 16)

/-! ## Interning (R15) -/

/-- The entry of a link under a parent, if it is interned. `parent` none: a root. -/
def State.findChain (s : State) (parent : Option Nat) (principal gen share : Nat) : Option Nat :=
  (s.chains.find? fun (c, e) =>
    e.valid && decide (e.principal = principal) && decide (e.gen = gen) && decide (e.share = share) &&
    (match parent with
      | some p => decide (e.parent = p) && decide (e.depth ≠ 0)
      | none => decide (e.depth = 0) && decide (e.parent = c))).map Prod.fst

/-- A free entry: the first from a place that R217 leaves open (log 8). -/
def State.freeCix (s : State) : Option Nat :=
  let start := Config.freeCix s.freeCtr
  let used := (s.chains.filter (·.2.valid)).map Prod.fst
  ((List.range (used.length + 1)).map fun i => (start + i) % 65536).find? fun c => !used.contains c

/-- A chain interned: the entry that has it, or a free one made so, which takes a reference on its parent (R15, R16). -/
def State.intern (s : State) (parent : Option Nat) (principal gen share world depth : Nat) : Option (Nat × State) :=
  match s.findChain parent principal gen share with
  | some c => some (c, s)
  | none =>
    match s.freeCix with
    | none => none
    | some c =>
      let e : Chain := ⟨true, (s.chain c).refs, parent.getD c, principal, gen, share, depth, false, world⟩
      let s1 : State := { s.setChain c e with freeCtr := s.freeCtr + 1 }
      some (c, match parent with
        | some p => s1.takeRef p
        | none => s1)

/-! ## The chain instructions (R202 to R208) -/

/-- The slot whose chain CHRD, METRD and CAPCHK read: in the supervisor slot the one that k.slotsel selects; PRIV in the copy
slot. -/
def chainSlot : M Nat := do
  let s ← get
  if s.cur.slot = 14 then trapPriv
  if s.cur.slot = 15 then return s.myCore.slotsel.toNat else return s.cur.slot

/-- A revocation is in progress or waits (R205). -/
def State.revoking (s : State) : Bool := s.sweep.isSome || !s.revocations.isEmpty

def linkWord (e : Chain) (eff : Nat) : W64 := w64 (eff * 2 ^ 48 + e.share * 2 ^ 40 + e.gen * 2 ^ 32 + e.principal)

def chrd (d a : Reg) : M Ctl := waiting [a] (some d) do
  let n ← chainSlot
  let v ← rd a
  if v.toNat > 8 then trapAt Cause.illegal v
  let s ← get
  let k := (s.slot s.cur.core n).chain
  let cix := fld k 0 16
  if v.toNat = 0 then wr d (w64 (boolNat (s.chain cix).revoked * 2 ^ 19 + fld k 0 19))
  else
    let ls := s.linksOf cix
    wr d (match (ls.zip (effShares ls))[v.toNat - 1]? with
      | some (e, eff) => linkWord e eff
      | none => 0)

def execChrd (d a : Reg) : State → Host.Outcome State Fault Refusal := run (chrd d a)

/-- The acting slot's chain changed to an entry (R205, R206): the segment is split and closed, the references move. -/
def changeChain (old new depth : Nat) (d : Reg) : M Unit := do
  modify fun s =>
    let s1 := s.splitSegment s.cur.core s.cur.slot
    (((s1.takeRef new).dropRef old).modMe fun sl => { sl with chain := chainWord new depth })
  wr d (chainWord new depth)

def adopt (d a : Reg) : M Ctl := waiting [a] (some d) do
  workOnly
  let v ← rd a
  if fld v 39 25 ≠ 0 || fld v 24 8 ≠ 0 then trapAt Cause.illegal v
  let p := fld v 0 24
  let f := fld v 32 7
  let s ← get
  if s.revoking then block false
  let cix := fld s.me.chain 0 16
  let cur := s.chain cix
  if cur.revoked then trapAt Cause.chainRevoked v
  if fld s.me.chain 16 3 = 7 then trapAt Cause.adoptFault v 1
  if f > cur.share then trapAt Cause.adoptFault v 2
  let e := s.principal p
  if p = 0 || e.st ≠ .live then trapAt Cause.adoptFault v 3
  if e.world ≠ s.myWorld then trapAt Cause.adoptFault v 4
  match s.intern (some cix) p e.gen f s.myWorld (fld s.me.chain 16 3 + 1) with
  | none => trapAt Cause.adoptFault v 5
  | some (n, t) => do
    set t
    changeChain cix n (fld s.me.chain 16 3 + 1) d

def execAdopt (d a : Reg) : State → Host.Outcome State Fault Refusal := run (adopt d a)

def unadopt (d : Reg) : M Ctl := waiting [] (some d) do
  workOnly
  let s ← get
  if s.revoking then block false
  let k := s.me.chain
  if fld k 16 3 = 0 then trapAt Cause.adoptFault k 6
  let cix := fld k 0 16
  changeChain cix (s.chain cix).parent (fld k 16 3 - 1) d

def execUnadopt (d : Reg) : State → Host.Outcome State Fault Refusal := run (unadopt d)

/-- A meter without the pip of an instruction that has issued and waited (R207); a meter that has saturated stays so (R203). -/
def Slot.unpip (sl : Slot) : W64 := if sl.meter = BitVec.allOnes 64 then sl.meter else sl.meter - 1

def metrd (d a : Reg) : M Ctl := waiting [a] (some d) do
  let n ← chainSlot
  let v ← rd a
  if v.toNat > 8 then trapAt Cause.illegal v
  let s ← get
  let sl := s.slot s.cur.core n
  let meter := if s.me.reissue && decide (n = s.cur.slot) then sl.unpip else sl.meter
  if v.toNat = 0 then wr d meter
  else wr d (w64 ((splitParts meter.toNat (effShares (s.linksOf (fld sl.chain 0 16))))[v.toNat - 1]?.getD 0))

def execMetrd (d a : Reg) : State → Host.Outcome State Fault Refusal := runChargedAfter (metrd d a)

/-- The kind that a trailing number names (R202). -/
def kindOf (k : BitVec 2) : Kind :=
  match k.toNat with
  | 0 => .read
  | 1 => .write
  | 2 => .exec
  | _ => .atomic

/-- CAPCHK: the check of R209 alone; only the mark of a revoked chain traps. -/
def capchk (p : Num3) (a : Reg) (kind : BitVec 2) : M Ctl := waiting [a] none do
  let n ← chainSlot
  let ea ← rd a
  let s ← get
  let w : Who := ⟨s.cur.core, s.cur.slot, s.myWorld, fld (s.slot s.cur.core n).chain 0 16⟩
  match authorize w ea [kindOf kind] s with
  | .ok _ t => do
    set t
    modMe (·.setPred p true)
  | .error (.trap ti) t => do
    set t
    if ti.cause = Cause.chainRevoked then throw (.trap ti) else modMe (·.setPred p false)
  | .error e t => do
    set t
    throw e

def execCapchk (p : Num3) (a : Reg) (kind : BitVec 2) : State → Host.Outcome State Fault Refusal := run (capchk p a kind)

/-! ## Revocation (R211) -/

/-- Whether an entry qualifies in a cycle that begins at `s`: pass 1 marks the principal's entries, a later one what stands under an entry
marked in an earlier cycle. -/
def State.sweepHit (s : State) (w : Sweep) (c : Nat) : Bool :=
  let e := s.chain c
  decide (c / 64 = w.cycle) && e.valid && !e.revoked &&
  (if w.pass = 0 then decide (e.principal = w.principal) else decide (e.depth ≠ 0) && (s.chain e.parent).revoked)

/-- One cycle of a pass: 64 entries. Those marked with no reference are freed at its end (R16). -/
def State.sweepCycle (s : State) (w : Sweep) : State :=
  let hits := (s.chains.map Prod.fst).filter (s.sweepHit w)
  hits.foldl (fun t c => t.freeChain 8 c) (hits.foldl (fun t c => t.setChain c { t.chain c with revoked := true }) s)

/-- The sweep after a cycle: a pass has 1,024. -/
def Sweep.next (w : Sweep) : Sweep :=
  if w.cycle = 1023 then { w with pass := w.pass + 1, cycle := 0 } else { w with cycle := w.cycle + 1 }

/-- Step 1: the principal's generation and state (R13). -/
def Principal.revoke (p : Principal) : Principal :=
  { p with gen := p.gen + 1, st := if p.gen + 1 = 0xFF then .retired else .revoked }

/-- REVOCATION_SWEEP: the oldest waiting revocation is applied, or the sweep in progress makes the next cycle of its passes (R211). -/
def revocationSweep : M Unit := do
  let s ← get
  match s.sweep, s.revocations with
  | some w, _ => do
    require (decide (w.pass < 8))
    set { s.sweepCycle w with sweep := some w.next }
  | none, w :: rest =>
    set { s.setPrincipal w.principal (s.principal w.principal).revoke with sweep := some { w with pass := 0, cycle := 0 }, revocations := rest }
  | none, [] => require false

def execRevocationSweep : State → Host.Outcome State Fault Refusal := event revocationSweep

/-- A command's final status set, to be written by COMMAND_COMPLETION (R31). -/
def State.finishCmd (s : State) (fn : Nat) (code : Byte) (result : W32) : State :=
  s.modFn fn fun f => { f with pending := f.pending.map fun p => { p with fin := .done code result } }

/-- REVOCATION_COMPLETE: after the eighth pass every rule cache is flushed and the command's status is OK with the new generation
(R211). -/
def revocationComplete : M Unit := do
  let s ← get
  match s.sweep with
  | some w => do
    require (decide (w.pass = 8))
    let t : State := { s with ruleCaches := [], sweep := none }
    set (match (t.fn w.fn).pending with
      | some p => if decide (p.fin = CmdEnd.revocation w.principal) then t.finishCmd w.fn 0x02 (BitVec.ofNat 32 (t.principal w.principal).gen) else t
      | none => t)
  | none => require false

def execRevocationComplete : State → Host.Outcome State Fault Refusal := event revocationComplete

end Sys2Proof.Machine
end

