-- ==== Sys2Proof/Machine/Place.lean ====
section
/-! DEFINITION. Placement (spec 04): accepted packets, deques with their spill lists and swapped segments, contexts that leave and
return, the search of a free slot, steals, aging, the distributor, and the dispatch of a packet (R11, R65). -/

namespace Sys2Proof.Machine

/-! ## Packets (R9, R10) -/

/-- The words of a packet from its 64 bytes. -/
def packetWords (bs : List Byte) : Vector W64 8 := Vector.ofFn fun i => w64 (leToNat ((bs.drop (8 * i.val)).take 8))

def packetBytes (w : Vector W64 8) : List Byte := w.toList.flatMap fun v => natToLe 8 v.toNat

/-- w1 with world and depth filled by the Q7 (R10). -/
def fillW1 (w1 : W64) (world depth : Nat) : W64 :=
  w64 (fld w1 28 36 * 2 ^ 28 + world * 2 ^ 24 + fld w1 19 5 * 2 ^ 19 + depth * 2 ^ 16 + fld w1 0 16)

/-- The first rule of R10 that a packet breaks, as its cause. -/
def malformed (w : Vector W64 8) : Option Byte :=
  if fld w[1] 28 4 ≠ 0 then some Cause.illegal
  else if fld w[1] 21 3 ≥ 4 then some Cause.illegal
  else if fld w[0] 56 8 ≠ 0 then some Cause.illegal
  else if fld w[0] 0 1 ≠ 0 then some Cause.align
  else if fld w[3] 0 3 ≠ 0 then some Cause.align
  else if fld w[4] 0 6 ≠ 0 then some Cause.align
  else if fld w[5] 0 2 ≠ 0 then some Cause.align
  else none

/-- A packet as accepted from a creator's world: world and depth overwritten (R10). -/
def State.acceptWords (s : State) (world : Nat) (w : Vector W64 8) : Vector W64 8 :=
  w.set 1 (fillW1 w[1] world (s.chain (fld w[1] 0 16)).depth)

def Packet.band (p : Packet) : Nat := fld p.w[1] 19 2
def Packet.scope (p : Packet) : Nat := fld p.w[1] 21 3
def Packet.cix (p : Packet) : Nat := fld p.w[1] 0 16
def Packet.world (p : Packet) : Nat := fld p.w[1] 24 4

/-! ## The queue swap area and the spill lists (R60) -/

/-- The cores of a world. -/
def State.coresOf (s : State) (w : Nat) : List Nat := (s.cores.filter fun e => decide (e.2.world = w)).map Prod.fst

/-- How many of a list's segments lie in the queue SRAM. -/
def sramCount (l : List Segment) : Nat := (l.filter fun g => g.swapped.isNone).length

/-- The segments of a world's launch queue in a cluster's queue SRAM: that of the world's lowest-numbered core (R36). -/
def State.launchSegments (s : State) (cluster w : Nat) : Nat :=
  if (s.coresOf w).head?.map clusterOf = some cluster then sramCount (s.world w).launch else 0

/-- The segments of a world's append logs in a cluster's queue SRAM (R238). -/
def World.logSegments (w : World) (cluster : Nat) : Nat :=
  (w.logs.map fun e => (e.2.segs.filter fun g => g.swapped.isNone && decide (g.cluster = cluster)).length).sum

/-- The segments of a world in a cluster's queue SRAM. -/
def State.worldSegments (s : State) (cluster w : Nat) : Nat :=
  ((s.cores.filter fun e => decide (clusterOf e.1 = cluster) && decide (e.2.world = w)).flatMap fun e =>
    e.2.deques.toList.map fun d => sramCount d.spill).sum + s.launchSegments cluster w + (s.world w).logSegments cluster

/-- Segments that the queue SRAM of a cluster holds. -/
def State.sramSegments (s : State) (cluster : Nat) : Nat :=
  ((s.cores.filter fun e => decide (clusterOf e.1 = cluster)).flatMap fun e => e.2.deques.toList.map fun d => sramCount d.spill).sum +
    (s.worlds.map fun e => s.launchSegments cluster e.1 + e.2.logSegments cluster).sum

/-- Writes of the queue hardware at a world-physical address, through stage 2 alone, under the world's memory key (R60). -/
def State.queueWrite (s : State) (world wpa : Nat) (bs : List Byte) : State :=
  match s.wpaToDpa world wpa with
  | some loc =>
    let cells := cellsAt loc bs
    let s1 := (hbmLines cells).foldl (fun t line =>
      let t1 : State := { t with l2 := t.l2.map fun e => (e.1, e.2.filter (·.line ≠ line)) }
      (t1.sealLine line (t1.world world).memKey).mscTouch line) s
    if s.keyDead world && isHbm loc then s else (s1.setCells cells).triggerWatches 0 (cells.map Prod.fst)
  | none => s

/-- A read of the queue hardware. It allocates in the memory-side cache, as every read of HBM does (R119). -/
def State.queueRead (s : State) (world wpa n : Nat) : List Byte × State :=
  match s.wpaToDpa world wpa with
  | some loc => (s.bytes loc n, if isHbm loc then s.mscTouch (loc / 64) else s)
  | none => (List.replicate n 0, s)

/-- The world-physical address of a segment of the queue swap area (R60). -/
def State.swapAddr (s : State) (world n : Nat) : Nat := (s.world world).ring + 0x20000 + 1024 * n

/-- The lowest free segment of a world's swap area: 1 MiB in segments of 1 KiB. -/
def State.freeSwap (s : State) (world : Nat) : Option Nat :=
  (List.range 1024).find? fun n => !(s.world world).swapUsed.contains n

/-- The far-end segment of a spill list that lies in the SRAM. -/
def farSegment (l : List Segment) : Option Nat := (List.range l.length).reverse.find? fun i =>
  match l[i]? with
  | some g => g.swapped.isNone
  | none => false

/-- A cluster's queues of a world with a segment in the SRAM, as (core, band), the lowest first; band 4 of the world's lowest-numbered
core is its launch queue, which comes last. -/
def State.swapChoices (s : State) (cluster w : Nat) : List (Nat × Nat) :=
  ((s.cores.filter fun e => decide (clusterOf e.1 = cluster) && decide (e.2.world = w)).flatMap fun e =>
    ((List.range 4).filter fun b => (farSegment (vat Deque.init e.2.deques b).spill).isSome).map fun b => (e.1, b)) ++
  if s.launchSegments cluster w = 0 then [] else ((s.coresOf w).head?.map fun c => (c, 4)).toList

/-- The world that loses a segment first: the highest ratio of occupancy to weight (R60). Of worlds with the same ratio it is the
lowest-numbered, and a world whose swap area is full is passed over for the next (DESIGN CHOICE, log 91). -/
def State.swapWorld (s : State) (cluster : Nat) : Option Nat :=
  ((List.range 16).filter fun w => decide (s.worldSegments cluster w ≠ 0) && (s.freeSwap w).isSome).foldl (fun best w =>
    match best with
    | none => some w
    | some b =>
      if s.worldSegments cluster b * max 1 (s.world w).weight < s.worldSegments cluster w * max 1 (s.world b).weight then some w
      else best) none

def Core.modDeque (c : Core) (b : Nat) (f : Deque → Deque) : Core :=
  { c with deques := c.deques.setIfInBounds b (f (vat Deque.init c.deques b)) }

/-- The segments of a queue: the spill list of a deque, or, as band 4, the launch queue of the core's world. -/
def State.segmentsAt (s : State) (core b : Nat) : List Segment :=
  if b = 4 then (s.world (s.core core).world).launch else (vat Deque.init (s.core core).deques b).spill

def State.setSegments (s : State) (core b : Nat) (l : List Segment) : State :=
  if b = 4 then s.modWorld (s.core core).world fun x => { x with launch := l }
  else s.modCore core fun k => k.modDeque b fun e => { e with spill := l }

/-- A segment of the append logs of a world swapped out of a cluster's queue SRAM into a segment of its swap area, the log of the lowest
domain first. The model keeps the records themselves in the log (log 9). -/
def State.swapLog (s : State) (cluster w n : Nat) : Option State :=
  let here := fun (g : LogSeg) => g.swapped.isNone && decide (g.cluster = cluster)
  match s.worlds.find? (·.1 = w) >>= fun e => e.2.logs.find? fun q => q.2.segs.any here with
  | none => none
  | some (d, l) =>
    let segs := l.segs.takeWhile (!here ·) ++ [⟨cluster, some n⟩] ++ (l.segs.dropWhile (!here ·)).drop 1
    let t : State := { s.queueWrite w (s.swapAddr w n) ((List.range 1024).map (Config.logByte s.freeCtr)) with freeCtr := s.freeCtr + 1 }
    some (t.modWorld w fun x => { x with swapUsed := n :: x.swapUsed, logs := Sparse.put x.logs d { l with segs := segs } })

/-- One segment swapped out to make room, if any can be: of the world's queues, the append logs come last. -/
def State.swapOut (s : State) (cluster : Nat) : Option State :=
  match s.swapWorld cluster with
  | none => none
  | some w =>
    match s.swapChoices cluster w, s.freeSwap w with
    | (c, b) :: _, some n =>
      let l := s.segmentsAt c b
      match farSegment l with
      | some i =>
        match l[i]? with
        | some g =>
          let s1 := s.queueWrite w (s.swapAddr w n) (g.pkts.flatMap fun p => packetBytes p.w)
          let s2 := s1.modWorld w fun x => { x with swapUsed := n :: x.swapUsed }
          some (s2.setSegments c b (l.set i { g with swapped := some n }))
        | none => none
      | none => none
    | [], some n => s.swapLog cluster w n
    | _, none => none

/-! ## Pushes and takes (R60, R61) -/

/-- Whether a spill list takes one more packet at its local end without a new segment. -/
def spillHasRoom (l : List Segment) : Bool :=
  match l with
  | g :: _ => g.swapped.isNone && decide (g.pkts.length < 16)
  | [] => false

/-- A push at the local end; the far-end entry of a full hardware part moves to the spill list. None where there is room at no
level. -/
def State.pushLocal (s : State) (core b : Nat) (p : Packet) : Option State :=
  let d := vat Deque.init (s.core core).deques b
  if d.hw.length < 64 then some (s.modCore core fun k => k.modDeque b fun e => { e with hw := p :: e.hw })
  else
    let moved := (d.hw[63]?).toList
    let put := fun (t : State) => t.modCore core fun k => k.modDeque b fun e =>
      { e with
        hw := p :: e.hw.take 63
        spill := if spillHasRoom e.spill then
            match e.spill with
            | g :: rest => { g with pkts := moved ++ g.pkts } :: rest
            | [] => [⟨moved, none⟩]
          else ⟨moved, none⟩ :: e.spill }
    if spillHasRoom d.spill then some (put s)
    else if s.sramSegments (clusterOf core) < Config.queueSramSegments then some (put s)
    else (s.swapOut (clusterOf core)).map put

/-- A refill: the local-end segment of the spill list to the far side of the hardware part (R60). -/
def Deque.refill (d : Deque) : Deque :=
  if d.hw.length ≤ 32 then
    match d.spill with
    | g :: rest => if g.swapped.isNone then { d with hw := d.hw ++ g.pkts, spill := rest } else d
    | [] => d
  else d

/-- A local pop. -/
def Deque.popLocal (d : Deque) : Option (Packet × Deque) :=
  let d1 := d.refill
  match d1.hw with
  | p :: rest => some (p, { d1 with hw := rest })
  | [] => none

/-- The far-end entry, where a take at the far end finds one (R63): not in a segment that is swapped out. -/
def Deque.farEnd (d : Deque) : Option Packet :=
  match d.spill.getLast? with
  | some g => if g.swapped.isNone then g.pkts.getLast? else none
  | none => d.hw.getLast?

/-- The far-end entry taken. -/
def Deque.dropFar (d : Deque) : Deque :=
  match d.spill.getLast? with
  | some g =>
    let g' : Segment := { g with pkts := g.pkts.dropLast }
    { d with spill := if g'.pkts.isEmpty then d.spill.dropLast else d.spill.dropLast ++ [g'] }
  | none => { d with hw := d.hw.dropLast }

def Deque.isEmpty (d : Deque) : Bool := d.hw.isEmpty && d.spill.isEmpty

/-- A take of a cycle, by its rank, noted at the deque's arbiter (R61). -/
def Deque.take (d : Deque) (now rank : Nat) : Deque := { d with taken := some (now, rank) }

/-- The rank of the take that has been performed in a cycle, if one has. -/
def Deque.takenIn (d : Deque) (now : Nat) : Option Nat := (d.taken.filter fun x => decide (x.1 = now)).map Prod.snd

/-! ## Contexts (R66) -/

def Slot.liveTiles (sl : Slot) : List Nat := (List.range 8).filter fun t => decide ((vat Tile.empty sl.tiles t).shape ≠ 0)

/-- Bytes of the spill area that a context's data takes: the rows and row scales of its live tiles, its accumulators, and both
halves of its planes with their column scales (R66; log 22). -/
def spillOf (sl : Slot) (accs planes : Nat) : Nat :=
  ((sl.liveTiles.map fun t => shRows (vat Tile.empty sl.tiles t).shape * 64 + 128).sum) + accs * 16384 + planes * 17408

def CtxEntry.spill (e : CtxEntry) : Nat := spillOf e.ctx e.accs.length e.planes.length

def Core.spillUsed (c : Core) : Nat := (c.cache.map fun e => e.2.spill).sum

def bitsOf (n : Nat) (v : Nat) : List Nat := (List.range n).filter fun i => decide (v / 2 ^ i % 2 = 1)

def Slot.myAccs (sl : Slot) : List Nat := bitsOf 8 sl.accown.toNat
def Slot.myPlanes (sl : Slot) : List Nat := bitsOf 4 sl.plown.toNat

/-- The lowest free entry of the cache, if it has one and the spill area has room for a context of a size. -/
def Core.roomFor (c : Core) (bytes : Nat) : Option Nat :=
  if c.spillUsed + bytes ≤ 65536 then (List.range 48).find? fun i => !(c.cache.any fun e => decide (e.1 = i)) else none

def Slot.spill (sl : Slot) : Nat := spillOf sl sl.myAccs.length sl.myPlanes.length

/-- k.quantum's cycles left (R101); none: no limit. -/
def State.quantumLeft (s : State) (core : Nat) (q : Option Nat) : Option Nat :=
  match q with
  | some t => if t - s.coreCycle core = 0 then none else some (t - s.coreCycle core)
  | none => none

def State.quantumFrom (s : State) (core : Nat) (q : Option Nat) : Option Nat := q.map (· + s.coreCycle core)

/-- Whether an accumulator of a list is locked by another slot (R191). -/
def Core.locked (c : Core) (slot : Nat) (accs : List Nat) : Bool :=
  accs.any fun i => match (vat Acc.init c.accs i).lock with
    | some n => decide (n ≠ slot)
    | none => false

/-- Whether another slot's instruction holds the lock of an accumulator that a slot claims (R191): its context does not move, and its
task does not retire, until it is free. -/
def State.unitsLocked (s : State) (core slot : Nat) : Bool := (s.core core).locked slot (s.slot core slot).myAccs

/-- Whether the units that a context claimed are free for it to return (R66). -/
def Core.unitsFree (c : Core) (e : CtxEntry) : Bool :=
  (e.accs.all fun a => !(vat Acc.init c.accs a.1).claimed) && (e.planes.all fun p => !(vat Plane.init c.planes p.1).claimed)

/-- Contexts in the cache whose units were claimed and are so no longer: they become ready now (R66). -/
def Core.unblock (c old : Core) (now : Nat) : Core :=
  { c with cache := c.cache.map fun e => (e.1, match e.2.st with
    | .parked (.ready _) => if !old.unitsFree e.2 && c.unitsFree e.2 then { e.2 with st := .parked (.ready now) } else e.2
    | _ => e.2) }

/-- At a cycle, claims, locks and projection rows of a slot given up as its context leaves; the units' contents leave with it. -/
def Core.dropUnits (c : Core) (now slot : Nat) (accs planes : List Nat) : Core :=
  let c' : Core := { c with
    lastRow := if accs.isEmpty then c.lastRow else now
    accs := c.accs.mapIdx fun i a =>
      if accs.contains i then { a.zero with claimed := false, owner := 0, lock := none }
      else if a.lock = some slot then { a with lock := none } else a
    planes := c.planes.mapIdx fun i p => if planes.contains i then { p.clear with claimed := false, owner := 0 } else p
    projUse := c.projUse.filter (fun q => q.1 ≠ slot) }
  c'.unblock c now

/-- s30 and s31 of the pipeline slot, where they are queue ports, leave as 0 (R102). -/
def Core.withoutPorts (c : Core) (n : Nat) (sl : Slot) : Slot :=
  let a := if c.portIn n then sl.s.set 30 0 else sl.s
  { sl with s := if c.portOut n then a.set 31 0 else a }

/-- Data moved into the spill area of a core: its bytes are no longer what they were (R66, log 22). -/
def State.spillMoved (s : State) (core : Nat) : State :=
  { s.modCore core fun k => { k with spillSeq := some s.freeCtr } with
    freeCtr := s.freeCtr + 1, mem := s.mem.filter fun x => !inSpill core x.1 }

/-- A context moved into an entry of the cache, and its slot free (R66). What it wrote has been performed (R249). -/
def State.moveOut (s0 : State) (core slot entry : Nat) (st : CtxSt) : State :=
  let s := if (s0.slot core slot).spill = 0 then s0 else s0.spillMoved core
  let sl := s.slot core slot
  let c := s.core core
  let ctx := { c.withoutPorts slot sl with copyFault := none, st := .wait, waiting := .none, stopReq := .none, quantum := s.quantumLeft core sl.quantum }
  let e : CtxEntry :=
    { ctx := ctx, st := st
      accs := sl.myAccs.map fun i => (i, vat Acc.init c.accs i)
      planes := sl.myPlanes.map fun i => (i, vat Plane.init c.planes i), bumped := false }
  s.modCore core fun k =>
    let k1 := ((k.dropCopyFault slot).dropUnits s.cycle slot sl.myAccs sl.myPlanes).dropQuantumRecord slot
    { k1.setSlot slot Slot.init with cache := Sparse.put k1.cache entry e }

/-- How a context stands once it has moved: a waiter woken in the meantime is ready, and so is a triggered watch. -/
def State.parkedAs (s : State) (sl : Slot) (p : Park) : CtxSt :=
  match p with
  | .ready n => .parked (.ready n)
  | .waiter => if s.waitTable.any fun x => decide (x.uid = sl.uid) then .parked .waiter else .parked (.ready s.cycle)
  | .watching lim => if sl.watch.any (·.triggered) then .parked (.ready s.cycle) else .parked (.watching lim)

/-- A thread parks (R62, R66): its reservations are revoked, its writes performed, and its context moves to the cache. It stays in its
slot, and moves in its turn, while there is no room, for which a CTX_FULL record is queued (R274), while its writes are not performed, or
while a sibling's instruction holds an accumulator of it (R191). -/
def State.park (s0 : State) (core slot : Nat) (p : Park) : State :=
  let s := (s0.revokeAll (s0.slot core slot).uid).performSlot core slot
  let sl := s.slot core slot
  let wait := fun (told : Bool) (t : State) => (t.modCore core fun k => { k with leaving := k.leaving ++ [slot] }).modSlot core slot
    fun x => { x with st := .wait, waiting := .leaving p told }
  match (s.core core).roomFor sl.spill with
  | none => wait true (s.modCore core (·.queueRecord Cause.ctxFull slot 0))
  | some e =>
    if (s.core core).leaving.isEmpty && !s.hasDeferred core sl.uid && !s.unitsLocked core slot then s.moveOut core slot e (s.parkedAs sl p)
    else wait false s

/-- CONTEXT_MOVE: the context that has waited longest moves (R66); finding no room, it makes its CTX_FULL record, if it has not (R274). -/
def contextMove (core : Nat) : M Unit := do
  let s ← get
  match (s.core core).leaving with
  | [] => require false
  | n :: rest =>
    let sl := s.slot core n
    match (s.core core).roomFor sl.spill, sl.waiting with
    | some e, .leaving p _ => do
      require (!s.hasDeferred core sl.uid && !s.unitsLocked core n)
      set ((s.modCore core fun k => { k with leaving := rest }).moveOut core n e (s.parkedAs sl p))
    | none, .leaving p false =>
      set ((s.modSlot core n fun x => { x with waiting := .leaving p true }).modCore core (·.queueRecord Cause.ctxFull n 0))
    | _, _ => require false

def execContextMove (core : Nat) : State → Host.Outcome State Fault Refusal := event (contextMove core)

/-- The first `n` entries that satisfy a test removed. -/
def dropFirstN {α : Type} (f : α → Bool) (n : Nat) (l : List α) : List α :=
  match l with
  | [] => []
  | x :: rest => if f x && decide (n ≠ 0) then dropFirstN f (n - 1) rest else x :: dropFirstN f n rest

/-- A slot's part of an engine. -/
def Slot.engine (sl : Slot) (e : Nat) : EngPart := vat EngPart.init sl.eng e
def Slot.modEngine (sl : Slot) (e : Nat) (f : EngPart → EngPart) : Slot :=
  { sl with eng := sl.eng.setIfInBounds e (f (sl.engine e)) }

/-- Results that wait in an engine for a slot's context, delivered while its result FIFO has room (R242). -/
def State.deliverEngine (core slot : Nat) (s : State) (e : Nat) : State :=
  let sl := s.slot core slot
  let mineFor := fun (r : EngResult) => decide (r.uid = sl.uid) && decide (r.engine = e)
  let mine := (s.engResults.filter mineFor).take (8 - (sl.engine e).results.length)
  { s.modSlot core slot (·.modEngine e fun p =>
      { p with results := p.results ++ mine.map (·.word), unfinished := p.unfinished - mine.length }) with
    engResults := dropFirstN mineFor mine.length s.engResults }

def State.deliverResults (s : State) (core slot : Nat) : State := (List.range 4).foldl (State.deliverEngine core slot) s

/-- A context returned to a slot of its core: its units are claimed again, and it is in the rotation (R66). -/
def State.moveIn (s : State) (core slot entry : Nat) (e : CtxEntry) : State :=
  let sl := { e.ctx with
    st := .run, waiting := .none, quantum := s.quantumFrom core e.ctx.quantum, dispatchedAt := s.cycle }
  let s1 := s.modCore core fun k =>
    let k1 := { k with
      accs := e.accs.foldl (fun (v : Vector Acc 8) (a : Nat × Acc) => v.setIfInBounds a.1 ({ a.2 with claimed := true, owner := slot, lock := none, queue := (vat Acc.init k.accs a.1).queue } : Acc)) k.accs
      planes := e.planes.foldl (fun (v : Vector Plane 4) (p : Nat × Plane) => v.setIfInBounds p.1 ({ p.2 with claimed := true, owner := slot } : Plane)) k.planes
      cache := Sparse.drop k.cache entry }
    (k1.setSlot slot sl).tally 0x1B slot 1
  s1.deliverResults core slot

/-! ## Dispatch (R11, R65) -/

/-- The slot that takes a packet's task (R11). -/
def State.slotOf (s : State) (core : Nat) (p : Packet) : Slot :=
  { Slot.init with
    st := .run, pc := p.w[0]
    s := ((Slot.init.s.set 1 p.w[2]).set 2 p.w[6]).set 3 p.w[7]
    chain := w64 (fld p.w[1] 0 19), task := w64 (fld p.w[1] 32 32), fmt := p.w[4], scl := p.w[5]
    quantum := if (s.core core).qdef = 0 then none else some (s.coreCycle core + (s.core core).qdef.toNat)
    join := p.w[3], band := p.band, aged := p.aged, scope := p.scope, pkt := p.w, uid := s.uidCtr, dispatchedAt := s.cycle }

def State.loadSlot (s : State) (core slot : Nat) (p : Packet) : State :=
  { s.modCore core fun k => ((k.dropCopyFault slot).setSlot slot (s.slotOf core p)).tally 0x1B slot 1 with uidCtr := s.uidCtr + 1 }

/-- Whether a packet's chain no longer holds (R65). -/
def State.deadPacket (s : State) (p : Packet) : Bool :=
  let e := s.chain p.cix
  !e.valid || decide (e.world ≠ p.world) || e.revoked

/-- The place of a dead packet's join word: translated, and checked by the firewall alone (R65). -/
def deadJoin (core world : Nat) (join : W64) : M Place := do
  let w : Who := ⟨core, 0, world, 0⟩
  if join.toNat % 8 ≠ 0 then trapAt Cause.align join
  let pl ← locate w join .atomic
  firewall w pl join [.atomic]
  if pl.space = .ctrl then trapXlate 5 join
  if pl.space = .hbm then lineIn w (pl.loc / 64) pl.pin join
  return pl

/-- A dead packet dropped (R65): its join word is decremented, its reference dropped, the event counted. -/
def State.dropDead (s : State) (core : Nat) (p : Packet) : State :=
  let s1 :=
    if p.w[3] = 0 then s
    else
      match deadJoin core p.world p.w[3] s with
      | .ok pl t =>
        let r : TurnReq := ⟨core, 16, 0, p.world, .dead, 0, p.w[3], 0, 2, 4, 0, 0, pl.pin⟩
        if t.wordFree pl.loc then t.turnServe pl.loc r else t.enqueueTurn pl.loc r
      | .error _ t => t
  (s1.dropRef p.cix).modCore core (·.tally 0x1A 0 1)

/-- Local pops until a packet's chain holds. -/
def popLive (core b fuel : Nat) (s : State) : Option Packet × State :=
  match fuel with
  | 0 => (none, s)
  | n + 1 =>
    match (vat Deque.init (s.core core).deques b).popLocal with
    | none => (none, s)
    | some (p, d) =>
      let s1 := s.modCore core fun k => k.modDeque b fun _ => d.take s.cycle 0
      if s1.deadPacket p then popLive core b n (s1.dropDead core p) else (some p, s1)

def Deque.count (d : Deque) : Nat := d.hw.length + (d.spill.map fun g => g.pkts.length).sum

/-! ## Steals (R63) -/

/-- The cores in a thief's order: the rest of its cluster, of its domain, of its die, and the other die; within a domain the clusters run
from the thief's cluster number + 1, wrapping (R63). -/
def stealOrder (core : Nat) : List Nat :=
  let cl := clusterOf core
  let dom := domainOf core
  let clusterCores := fun (c : Nat) => (List.range 8).map fun i => c * 8 + i
  let domainCores := fun (d : Nat) => (List.range 8).flatMap fun i => clusterCores (d * 8 + (cl + 1 + i) % 8)
  ((List.range 7).map fun i => cl * 8 + (core + 1 + i) % 8) ++
  ((List.range 7).flatMap fun i => clusterCores (dom * 8 + (cl + 1 + i) % 8)) ++
  ((List.range 3).flatMap fun i => domainCores (dom / 4 * 4 + (dom + 1 + i) % 4)) ++
  ((List.range 4).flatMap fun i => domainCores ((1 - dom / 4) * 4 + i))

/-- Whether a packet's scope lets a thief take it from a victim's deque. -/
def scopeAdmits (scope victim thief : Nat) : Bool :=
  match scope with
  | 0 => false
  | 1 => decide (clusterOf victim = clusterOf thief)
  | 2 => decide (domainOf victim = domainOf thief)
  | _ => true

/-- The cores of the thief's world in its order from the next victim on: the first whose deque at a band holds an entry in reach, as the
summaries show it when the probe leaves (R63). -/
def State.victimsFrom (s : State) (core b : Nat) (order : List Nat) : List Nat :=
  (order.filter fun v => decide ((s.core v).world = (s.core core).world)).dropWhile fun v =>
    (vat Deque.init (s.core v).deques b).farEnd.isNone

def State.victims (s : State) (core b : Nat) : List Nat := s.victimsFrom core b (stealOrder core)

/-! ## The search (R62) -/

/-- The band at which a ready context is looked for: one higher once it has aged (R64). -/
def CtxEntry.band (e : CtxEntry) : Nat := min 3 (e.ctx.band + boolNat e.bumped)

def CtxEntry.readySince (e : CtxEntry) : Option Nat :=
  match e.st with
  | .parked (.ready n) => some n
  | _ => none

/-- The ready context of a band that became ready earliest; of those that became ready in one cycle, the one of the lowest cache entry
(DESIGN CHOICE, log 91). -/
def Core.readyAt (c : Core) (b : Nat) : Option (Nat × CtxEntry) :=
  (c.cache.filter fun e => e.2.readySince.isSome && decide (e.2.band = b) && c.unitsFree e.2).foldl (fun best e =>
    match best with
    | none => some e
    | some x => if e.2.readySince.getD 0 < x.2.readySince.getD 0 then some e else best) none

/-- The search of a slot at one band: a ready context, a local pop, or the beginning of a steal. Answers whether it has ended. -/
def State.searchBand (s : State) (core slot b : Nat) : Bool × State :=
  match (s.core core).readyAt b with
  | some (i, e) => (true, s.moveIn core slot i e)
  | none =>
    match popLive core b ((vat Deque.init (s.core core).deques b).count + 1) s with
    | (some p, t) => (true, t.loadSlot core slot p)
    | (none, t) =>
      match t.victims core b with
      | [] => (false, t)
      | vs => (true, t.modCore core fun k => { k with steal := some ⟨slot, b, vs⟩ })

/-- The search over the bands below a bound, from the highest. -/
def State.searchBelow (s : State) (core slot : Nat) (bands : Nat) : State :=
  match bands with
  | 0 => s
  | b + 1 =>
    match s.searchBand core slot b with
    | (true, t) => t
    | (false, t) => t.searchBelow core slot b

/-- The lowest-numbered free work slot. -/
def State.freeSlot (s : State) (core : Nat) : Option Nat :=
  (List.range 14).find? fun n => decide ((s.slot core n).st = .free)

/-- Whether a core takes work: enabled, not being zeroed, of a world that stands. -/
def State.takesWork (s : State) (core : Nat) : Bool :=
  let c := s.core core
  c.enabled && !c.zeroing && decide (c.world ≠ 0) && (s.world c.world).live && !(s.world c.world).stopped

/-- SLOT_SEARCH: the core searches for work for its lowest free slot, one search at a time (R62). Its local pops go before the thieves of
their cycle (R61). -/
def slotSearch (core : Nat) : M Unit := do
  let s ← get
  require (s.takesWork core && (s.core core).steal.isNone && (s.core core).deques.toList.all fun d => (d.takenIn s.cycle).isNone)
  match s.freeSlot core with
  | none => require false
  | some n => set (s.searchBelow core n 4)

def execSlotSearch (core : Nat) : State → Host.Outcome State Fault Refusal := event (slotSearch core)

/-- STEAL_PROBE_RESULT: the probe takes the victim's far-end entry where that admits the thief; else the next victim is probed, and after
the last the search goes on at the band below (R63, R65). A probe that comes behind another take of its cycle fails (R61). -/
def stealProbeResult (core : Nat) : M Unit := do
  let s ← get
  match (s.core core).steal with
  | none => require false
  | some st => do
    require (s.takesWork core)
    let go := fun (t : State) (rest : List Nat) =>
      let t := t.modCore core (·.tally 0x19 st.slot 1)
      match t.victimsFrom core st.band rest with
      | [] => (t.modCore core fun k => { k with steal := none }).searchBelow core st.slot st.band
      | vs => t.modCore core fun k => { k with steal := some { st with victims := vs } }
    match st.victims with
    | [] => set (go s [])
    | v :: rest =>
      let d := vat Deque.init (s.core v).deques st.band
      let earlier := d.takenIn s.cycle
      require (earlier.all fun r => decide (r ≤ core))
      match d.farEnd with
      | some p =>
        if earlier.isNone && decide ((s.core v).world = (s.core core).world) && scopeAdmits p.scope v core then
          let s1 := s.modCore v fun k => k.modDeque st.band fun e => (e.dropFar).take s.cycle (core + 1)
          if s1.deadPacket p then set (go (s1.dropDead core p) rest)
          else set ((s1.modCore core fun k => { k with steal := none }.tally 0x18 st.slot 1).loadSlot core st.slot p)
        else set (go s rest)
      | none => set (go s rest)

def execStealProbeResult (core : Nat) : State → Host.Outcome State Fault Refusal := event (stealProbeResult core)

/-! ## Aging (R64) -/

/-- Whether a packet ages now. -/
def State.ages (s : State) (p : Packet) : Bool := !p.aged && decide (p.since + 65536 < s.cycle)

/-- The words of a packet of the queue swap area or the spill ring as they stand in memory, its w1 filled as at acceptance: the queue that
holds it gives its world, whatever the bytes say (R10, R67; DESIGN CHOICE, log 91). -/
def State.queuedWords (s : State) (w wpa : Nat) : Vector W64 8 × State :=
  let (bs, t) := s.queueRead w wpa 64
  (s.acceptWords w (packetWords bs), t)

/-- The oldest entry of a deque's spill list, read from the swap area where its segment lies there, and the state without it (R64). -/
def State.takeOldest (s : State) (core b : Nat) : Option (Packet × State) :=
  let d := vat Deque.init (s.core core).deques b
  let w := (s.core core).world
  match d.spill.getLast? with
  | none => none
  | some g =>
    match g.pkts.getLast? with
    | none => none
    | some p =>
      let t := s.modCore core fun k => k.modDeque b Deque.dropFar
      match g.swapped with
      | none => some (p, t)
      | some n =>
        let (ws, u) := t.queuedWords w (s.swapAddr w n + 64 * (g.pkts.length - 1))
        some ({ p with w := ws }, if g.pkts.length = 1 then u.modWorld w fun x => { x with swapUsed := x.swapUsed.filter (· ≠ n) } else u)

/-- PACKET_AGING: the oldest entry of the spill list, or the far-end entry of the hardware part, moves one band higher, unless another take
of the cycle came first. Where the higher deque has room at no level, it stays, whichever of the two it is (DESIGN CHOICE, log 91). How
long it has waited on the core goes on being counted (R274). -/
def packetAging (core b : Nat) : M Unit := do
  require (decide (b < 3))
  let s ← get
  let d := vat Deque.init (s.core core).deques b
  require (d.takenIn s.cycle).isNone
  let move := fun (p : Packet) (t : State) => t.pushLocal core (b + 1) { p with aged := true }
  let old := (d.spill.getLast?.bind fun g => g.pkts.getLast?).any s.ages
  match if old then s.takeOldest core b else none, d.hw.getLast?.filter s.ages with
  | some (p, t), _ =>
    match move p t with
    | some u => set u
    | none => require false
  | none, some p =>
    match move p (s.modCore core fun k => k.modDeque b fun e => { e with hw := e.hw.dropLast }) with
    | some u => set u
    | none => require false
  | none, none => require false

def execPacketAging (core band : Nat) : State → Host.Outcome State Fault Refusal := event (packetAging core band)

/-- CONTEXT_AGING: a ready context counts one band higher, once. -/
def contextAging (core entry : Nat) : M Unit := do
  let s ← get
  match (s.core core).cache.find? (fun e => decide (e.1 = entry)) with
  | none => require false
  | some (_, e) => do
    require (!e.bumped && (s.core core).unitsFree e && match e.readySince with
      | some n => decide (n + 65536 < s.cycle)
      | none => false)
    set (s.modCore core fun k => { k with cache := Sparse.put k.cache entry { e with bumped := true } })

def execContextAging (core entry : Nat) : State → Host.Outcome State Fault Refusal := event (contextAging core entry)

/-! ## Swap-in, and the distributor (R59, R60) -/

/-- A swapped segment of a world's append log returns to the queue SRAM of the first cluster of the domain that has room (R60, R238). -/
def State.logSwapIn (s : State) (w domain : Nat) : Option State :=
  let l := Sparse.get AppendLog.init (s.world w).logs domain
  match l.segs.find? (·.swapped.isSome),
    ((List.range 8).map (domain * 8 + ·)).find? fun c => decide (s.sramSegments c < Config.queueSramSegments) with
  | some ⟨k, some n⟩, some c =>
    let segs := l.segs.replace ⟨k, some n⟩ ⟨c, none⟩
    some (s.modWorld w fun x =>
      { x with swapUsed := x.swapUsed.filter (· ≠ n), logs := Sparse.put x.logs domain { l with segs := segs } })
  | _, _ => none

/-- QUEUE_SEGMENT_SWAP_IN: the swapped segment that a queue takes from first (nearest the local end of a deque, the oldest of a launch
queue, band 4 of the world's lowest-numbered core) returns to the queue SRAM when it has room; its packets are what memory now holds. Bands
5 to 12 are the append logs of the core's world, by domain. -/
def queueSegmentSwapIn (core b : Nat) : M Unit := do
  let s ← get
  if 5 ≤ b && b ≤ 12 then
    match s.logSwapIn (s.core core).world (b - 5) with
    | some t => return ← set t
    | none => require false
  let w := (s.core core).world
  let l := s.segmentsAt core b
  require (decide (s.sramSegments (clusterOf core) < Config.queueSramSegments) && (decide (b < 4) || (s.coresOf w).head? == some core))
  match (List.range l.length).find? (fun i => match l[i]? with
    | some g => g.swapped.isSome
    | none => false) with
  | none => require false
  | some i =>
    match l[i]? with
    | some g =>
      let n := g.swapped.getD 0
      let at_ := fun (j : Nat) => s.swapAddr w n + 64 * j
      let pkts := g.pkts.mapIdx fun j p => { p with w := (s.queuedWords w (at_ j)).1 }
      let s0 := (List.range g.pkts.length).foldl (fun t j => (t.queuedWords w (at_ j)).2) s
      let s1 := s0.modWorld w fun x => { x with swapUsed := x.swapUsed.filter (· ≠ n) }
      set (s1.setSegments core b (l.set i ⟨pkts, none⟩))
    | none => require false

def execQueueSegmentSwapIn (core band : Nat) : State → Host.Outcome State Fault Refusal := event (queueSegmentSwapIn core band)

/-- The cores of a world in order from the one after `last`, wrapping (R59); before there is one, the lowest-numbered alone (R270). -/
def coresFrom (last : Option Nat) (cs : List Nat) : List Nat :=
  match last with
  | none => cs.take 1
  | some n => cs.filter (fun c => decide (n < c)) ++ cs.filter (fun c => decide (c ≤ n))

/-! ## The launch queue (R36) -/

/-- How many packets a launch queue's segments hold. -/
def packetCount (l : List Segment) : Nat := (l.map fun g => g.pkts.length).sum

/-- Whether the last segment of a launch queue takes one more packet. -/
def lastHasRoom (l : List Segment) : Bool :=
  match l.getLast? with
  | some g => g.swapped.isNone && decide (g.pkts.length < 16)
  | none => false

/-- A packet put behind the last one of a launch queue's segments. -/
def putLast (l : List Segment) (p : Packet) : List Segment :=
  match l.getLast? with
  | some g => if lastHasRoom l then l.dropLast ++ [{ g with pkts := g.pkts ++ [p] }] else l ++ [⟨[p], none⟩]
  | none => [⟨[p], none⟩]

/-- A packet put at the tail of a world's launch queue: 64 entries in the queue SRAM, which swaps out as for every other queue (R36,
R60). None where there is no room, or the world has no core and so no queue. -/
def State.launchPut (s : State) (w : Nat) (p : Packet) : Option State :=
  let l := (s.world w).launch
  let put := fun (t : State) => t.modWorld w fun x => { x with launch := putLast x.launch p }
  match s.coresOf w with
  | [] => none
  | c :: _ =>
    if 64 ≤ packetCount l then none
    else if lastHasRoom l || decide (s.sramSegments (clusterOf c) < Config.queueSramSegments) then some (put s)
    else (s.swapOut (clusterOf c)).map put

/-- The oldest packet of a world's launch spill ring, and the state after its read. -/
def State.ringPacket (s : State) (w : Nat) : Packet × State :=
  let (ws, t) := s.queuedWords w ((s.world w).ring + 64 * (s.world w).ringHead)
  (⟨ws, s.cycle, false⟩, t)

def State.ringAdvance (s : State) (w : Nat) : State :=
  s.modWorld w fun x => { x with ringHead := (x.ringHead + 1) % 1024, ringLen := x.ringLen - 1 }

/-- The ring's oldest packet takes a place that has come free in the launch queue (R36). -/
def State.launchFill (s : State) (w : Nat) : State :=
  if (s.world w).ringLen = 0 then s
  else match (s.ringPacket w).2.launchPut w (s.ringPacket w).1 with
    | some t => t.ringAdvance w
    | none => s

/-- The head of a world's launch queue: the queue SRAM's entries first. A head that is swapped out waits for its return. -/
def State.launchPop (s : State) (w : Nat) : Option (Packet × State) :=
  match (s.world w).launch with
  | [] => if (s.world w).ringLen = 0 then none else some ((s.ringPacket w).1, (s.ringPacket w).2.ringAdvance w)
  | g :: rest =>
    if g.swapped.isSome then none
    else
      match g.pkts with
      | [] => none
      | p :: ps => some (p, (s.modWorld w fun x => { x with launch := if ps.isEmpty then rest else ⟨ps, none⟩ :: rest }).launchFill w)

/-- DISTRIBUTOR_DELIVERY: the oldest packet of a world's launch queue goes to the far end of the hardware part of a deque (R59). -/
def distributorDelivery (w : Nat) : M Unit := do
  let s ← get
  match s.launchPop w with
  | none => require false
  | some (p, t) =>
    let open_ := fun (c : Nat) =>
      let d := vat Deque.init (s.core c).deques p.band
      decide (d.hw.length < 64) && d.spill.isEmpty && !(s.core c).zeroing
    match (coresFrom (s.world w).lastCore (s.coresOf w)).find? open_ with
    | none => require false
    | some c =>
      let t1 := t.modWorld w fun x => { x with lastCore := some c }
      set (t1.modCore c fun k => k.modDeque p.band fun d => { d with hw := d.hw ++ [{ p with since := s.cycle }] })

def execDistributorDelivery (world : Nat) : State → Host.Outcome State Fault Refusal := event (distributorDelivery world)

end Sys2Proof.Machine
end

