-- ==== Sys2Proof/Machine/Matrix.lean ====
section
/-! DEFINITION. Page 3: planes, accumulators, the matrix array and the Eyepiece (spec 12, with R160 to R162). -/

namespace Sys2Proof.Machine

/-! ## Planes and accumulators as data -/

def hType (v : W64) : Nat := fld v 0 4
def hRows (v : W64) : Nat := fld v 4 7
def hCols (v : W64) : Nat := fld v 11 8
def mkHalfShape (ty k n : Nat) : W64 := w64 (ty + k * 2 ^ 4 + n * 2 ^ 11)

/-- Weight n of a plane row. -/
def weightAt (row : BitVec 2048) (n : Nat) : Nat := row.toNat / 2 ^ (16 * n) % 2 ^ 16
/-- Cell n of an accumulator row. -/
def cellAt (row : BitVec 4096) (n : Nat) : Nat := row.toNat / 2 ^ (32 * n) % 2 ^ 32
def Half.weight (h : Half) (k n : Nat) : Nat := tyBits (hType h.shape) (weightAt (vat 0 h.rows k) n)
def Half.scale (h : Half) (n : Nat) : Nat := (vat 0 h.scales n).toNat

/-- An accumulator's element type as types are coded (R169): FP32, BF16 or INT32. -/
def accTy (a : Acc) : Nat :=
  match a.type.toNat with
  | 0 => 7
  | 1 => 5
  | _ => 8

def getAcc (a : Num3) : M Acc := do return (← getCore).accs[a.toNat]'(a.isLt)
def modAcc (a : Num3) (f : Acc → Acc) : M Unit :=
  modCore fun k => { k with accs := k.accs.set a.toNat (f (k.accs[a.toNat]'(a.isLt))) a.isLt }
def getPlane (w : Num2) : M Plane := do return (← getCore).planes[w.toNat]'(w.isLt)
def modPlane (w : Num2) (f : Plane → Plane) : M Unit :=
  modCore fun k => { k with planes := k.planes.set w.toNat (f (k.planes[w.toNat]'(w.isLt))) w.isLt }

/-! ## Claims (R186, R187) -/

def needAcc (a : Num3) : M Unit := do
  if !(← getMe).accown.getLsbD a.toNat then trapAt Cause.accOwn (w64 a.toNat)

def needPlane (w : Num2) : M Unit := do
  if !(← getMe).plown.getLsbD w.toNat then trapAt Cause.accOwn (w64 (0x10 + w.toNat))

/-- A claim: at once where nobody holds the unit or the slot itself does, else in order of issue; a waiting claim is withdrawn by
a pre-emption (R187). -/
def awaitClaim (plane : Bool) (n : Nat) (mine free : Bool) : M Unit := do
  let slot := (← get).cur.slot
  if mine then pure ()
  else
    let c ← getCore
    let first := c.claims.find? fun q => decide (q.2 = (plane, n))
    if free && (first.isNone || first = some (slot, plane, n)) then
      modCore fun k => { k with claims := k.claims.filter fun q => !decide (q = (slot, plane, n)) }
    else
      modCore fun k => { k with claims := if k.claims.contains (slot, plane, n) then k.claims else k.claims ++ [(slot, plane, n)] }
      block true

/-- An array that is gated wakes (R309). -/
def wakeArray : M Unit := modify fun s => s.modMyCore fun k =>
  { k with gated := false, arrayWake := if k.gated then some s.cycle else k.arrayWake }

/-- Contexts in the cache that wait for a unit which the acting core has just given up become ready (R66). -/
def unitsGiven (old : Core) : M Unit := modify fun s => s.modMyCore (·.unblock old s.cycle)

/-- A row started in the array. -/
def rowStarted : M Unit := modify fun s => s.modMyCore fun k => { k with lastRow := s.cycle }.tally 0x11 s.cur.slot 1

def execSwap (w : Num2) : State → Host.Outcome State Fault Refusal :=
  run do
    needPlane w
    modPlane w fun p => { p with active := p.shadow, shadow := p.active }
    return .done

def plclm (w : Num2) : M Ctl := do
  let n := (← get).cur.slot
  let p ← getPlane w
  wakeArray
  awaitClaim true w.toNat (p.claimed && decide (p.owner = n)) !p.claimed
  modPlane w fun p => { p.clear with claimed := true, owner := n }
  modMe fun sl => { sl with plown := sl.plown ||| BitVec.twoPow 4 w.toNat }
  return .done

def execPlclm (w : Num2) : State → Host.Outcome State Fault Refusal := run (plclm w)

def execPlrel (w : Num2) : State → Host.Outcome State Fault Refusal :=
  run do
    needPlane w
    let old ← getCore
    modPlane w fun p => { p.clear with claimed := false, owner := 0 }
    unitsGiven old
    modMe fun sl => { sl with plown := sl.plown &&& ~~~(BitVec.twoPow 4 w.toNat) }
    return .done

def execPlz (w : Num2) : State → Host.Outcome State Fault Refusal :=
  run do
    needPlane w
    modPlane w Plane.clear
    return .done

/-! ## Accumulators (R189 to R191) -/

/-- The accumulator's lock, held until the instruction completes; waiters begin in order of issue (R191). -/
def lockAcc (a : Num3) : M Unit := do
  let n := (← get).cur.slot
  let x ← getAcc a
  if x.lock = some n then pure ()
  else if x.lock.isNone && (x.queue.head? = none || x.queue.head? = some n) then
    modAcc a fun y => { y with lock := some n, queue := y.queue.filter (· ≠ n) }
  else
    modAcc a fun y => { y with queue := if y.queue.contains n then y.queue else y.queue ++ [n] }
    block true

/-- Whether the supervisor of an attached world reads past the lock of a HALTED slot (R286). -/
def readsPast (a : Num3) : M Bool := do
  let s ← get
  let x ← getAcc a
  return isSup s && (s.world s.myWorld).attached && match x.lock with
    | some n => decide ((s.slot s.cur.core n).st = .halted)
    | none => false

def accrd (a t rb : Num3) : M Ctl := do
  if !(← readsPast a) then lockAcc a
  let x ← getAcc a
  let ty := accTy x
  let z := tySize ty
  let key := restartKey 3 2 0
  let start ← resumeRow key
  if !x.claimed then atRow (tfmtWord ty ty 15 15) 0 (trapAt Cause.accOwn (w64 a.toNat))
  if start.isNone then beginResult t (mkShape ty 32 16 32 16)
  forRows key (start.getD 0) 32 fun r => do
    let row := vat 0 (← getAcc a).rows r
    let tl := (← getMe).tile t
    setTile t (tl.setRow r (rowOf z ((List.range 16).map fun j => cellAt row (16 * rb.toNat + j))))
    return none
  return .done

def execAccrd (a t rb : Num3) : State → Host.Outcome State Fault Refusal := run (accrd a t rb)

/-- Cells of an accumulator row replaced where `f` names a value. -/
def patchCells (row : BitVec 4096) (f : Nat → Option Nat) : BitVec 4096 :=
  BitVec.ofNat 4096 (packElems 4 ((List.range 128).map fun n => (f n).getD (cellAt row n)))

def accwr (a t rb : Num3) : M Ctl := do
  let sh := ((← getMe).tile t).shape
  let ty := accTy (← getAcc a)
  let fmt := tfmtWord ty (tyCode sh) 15 15
  atRow fmt 0 (needAcc a)
  lockAcc a
  let key := restartKey 3 2 1
  let start ← resumeRow key
  if start.isNone && (sh = 0 || shType sh ≠ ty || shCols sh ≠ 16) then shapeTrap sh fmt
  forRows key (start.getD 0) (shVrows sh) fun r => do
    let tl := (← getMe).tile t
    modAcc a fun x => { x with rows := x.rows.setIfInBounds r (patchCells (vat 0 x.rows r) fun n =>
      if 16 * rb.toNat ≤ n && n < 16 * rb.toNat + shVcols sh then some (tl.elem r (n - 16 * rb.toNat)) else none) }
    return none
  return .done

def execAccwr (a t rb : Num3) : State → Host.Outcome State Fault Refusal := run (accwr a t rb)

def execAccz (a : Num3) : State → Host.Outcome State Fault Refusal :=
  run do
    needAcc a
    lockAcc a
    modAcc a Acc.zero
    return .done

def accclm (a : Num3) (ty : BitVec 2) : M Ctl := do
  let n := (← get).cur.slot
  let x ← getAcc a
  wakeArray
  awaitClaim false a.toNat (x.claimed && decide (x.owner = n)) !x.claimed
  lockAcc a
  modAcc a fun y => { y.zero with type := ty, claimed := true, owner := n }
  modMe fun sl => { sl with accown := sl.accown ||| BitVec.twoPow 8 a.toNat }
  return .done

def execAccclm (a : Num3) (ty : BitVec 2) : State → Host.Outcome State Fault Refusal := run (accclm a ty)

def execAccrel (a : Num3) : State → Host.Outcome State Fault Refusal :=
  run do
    needAcc a
    lockAcc a
    let old ← getCore
    modAcc a fun y => { y.zero with claimed := false, owner := 0 }
    unitsGiven old
    modMe fun sl => { sl with accown := sl.accown &&& ~~~(BitVec.twoPow 8 a.toNat) }
    modify fun s => s.modMyCore fun k => { k with lastRow := s.cycle }
    return .done

/-! ## The projection buffer (R195) -/

/-- An instruction on rows of the buffer waits while one of the other kind is in progress on any of them. -/
def takeProj (writes : Bool) (lo hi : Nat) : M Unit := do
  let n := (← get).cur.slot
  if (← getCore).projUse.any fun q => decide (q.1 ≠ n) && decide (q.2.1 ≠ writes) && decide (q.2.2.1 < hi) && decide (lo < q.2.2.2) then
    block true
  modCore fun k => { k with projUse := if k.projUse.contains (n, writes, lo, hi) then k.projUse else k.projUse ++ [(n, writes, lo, hi)] }

def Core.projElem (k : Core) (i j : Nat) : Nat := (Sparse.get 0 k.proj i).toNat / 2 ^ (16 * j) % 2 ^ 16

/-! ## Loading planes, projections and scales (R192 to R194) -/

/-- The common beginning of the loads: the layout record, the types, the acquire. -/
def beginLoad (h : W64) (m : Mod) (ok : Layout → Bool) (start : Option Nat) : M (Layout × List Cap) := do
  let (l, lcs) ← readLayout h m
  if start.isNone && !ok l then trapAt Cause.shape h 0 (tfmtWord l.type l.type 15 15)
  acquireOf m.order m.scope
  return (l, lcs)

/-- Plane row k of a window: its weights, the bytes read, the capabilities used (R193). -/
def planeRow (w : Who) (l : Layout) (row0 col0 k ncols : Nat) (m : Mod) : M (List Nat × Nat × List Cap) := do
  if l.cx8 then
    (List.range (ncols / 32)).foldlM (fun (els, n, cs) b => do
      let ((e, len), c) ← readCx8 w l ((row0 + k) * (l.cols / 32) + col0 / 32 + b) m
      return (els ++ e, n + len, cs ++ c)) ([], 0, [])
  else
    let (els, cs) ← if l.trans then readColumn w l row0 (col0 + k) ncols m else readElems w l (row0 + k) col0 ncols m
    return (els, ncols * tySize l.type, cs)

/-- The rows and columns that a plane half takes from a window (R193). -/
def planeWindow (l : Layout) (row0 col0 : Nat) : Nat × Nat :=
  let kmax := if l.elemTy = 5 || l.elemTy = 6 then 32 else 64
  if l.trans then (min kmax (l.cols - col0), min 128 (l.rows - row0)) else (min kmax (l.rows - row0), min 128 (l.cols - col0))

/-- A half under a new shape: weights outside the window become 0. -/
def Half.reshape (h : Half) (ty k n : Nat) : Half :=
  { h with
    shape := mkHalfShape ty k n
    rows := h.rows.mapIdx fun i r => if i < k then BitVec.ofNat 2048 (r.toNat % 2 ^ (16 * n)) else 0 }

/-- Row r of LDSTAT. -/
def ldstatRow (p : Num2) (w : Who) (l : Layout) (row0 col0 ncols : Nat) (m : Mod) (lcs : List Cap) (r : Nat) : M (Option TrapInfo) :=
  atRow (tfmtWord l.elemTy l.type 15 15) r do
    let (els, bytes, cs) ← planeRow w l row0 col0 r ncols m
    modPlane p fun q => { q with shadow := { q.shadow with rows := q.shadow.rows.setIfInBounds r (BitVec.ofNat 2048 (packElems 2 els)) } }
    charge (pipsOf bytes)
    chargeCaps (lcs ++ cs)
    return none

def ldstat (p : Num2) (a b : Reg) (m : Mod) : M Ctl := withPorts [a, b] none fun _ => do
  needPlane p
  let h ← rd a
  let c ← rd b
  let w ← whoMe
  let row0 := fld c 0 32
  let col0 := fld c 32 32
  let key := restartKey 3 1 0
  let start ← resumeRow key
  let (l, lcs) ← beginLoad h m (fun l => (decide (l.type ≤ 6) || l.cx8) && (!l.cx8 || decide (col0 % 32 = 0))) start
  let (krows, ncols) := planeWindow l row0 col0
  if start.isNone then modPlane p fun q => { q with shadow := q.shadow.reshape l.elemTy krows ncols }
  forRows key (start.getD 0) (if ncols = 0 then 0 else krows) (ldstatRow p w l row0 col0 ncols m lcs)
  chargeCaps lcs
  return .done

def execLdstat (w : Num2) (a b : Reg) (m : Mod) : State → Host.Outcome State Fault Refusal := run (ldstat w a b m)

/-- The one row of LDSCL; columns beyond the window have scale 1.0. -/
def ldsclRow (p : Num2) (w : Who) (l : Layout) (row0 col0 n : Nat) (m : Mod) (lcs : List Cap) (r : Nat) : M (Option TrapInfo) :=
  atRow (tfmtWord 7 7 15 15) r do
    let (els, cs) ← readElems w l row0 col0 n m
    let row := (Vector.replicate 128 (0x3F800000 : W32)).mapIdx fun i s => if i < n then BitVec.ofNat 32 (els.getD i 0) else s
    modPlane p fun q => { q with shadow := { q.shadow with scales := row } }
    charge (pipsOf (4 * n))
    chargeCaps (lcs ++ cs)
    return none

/-- LDSCL: one row, which commits whole (R194); a window of no column leaves 1.0 in every entry. -/
def ldscl (p : Num2) (a b : Reg) (m : Mod) : M Ctl := withPorts [a, b] none fun _ => do
  needPlane p
  let h ← rd a
  let c ← rd b
  let w ← whoMe
  let row0 := fld c 0 32
  let col0 := fld c 32 32
  let key := restartKey 3 1 2
  let start ← resumeRow key
  let (l, lcs) ← beginLoad h m (fun l => decide (l.type = 7) && !l.trans) start
  let n := if row0 < l.rows then min 128 (l.cols - col0) else 0
  if start.isNone && n = 0 then modPlane p fun q => { q with shadow := { q.shadow with scales := Vector.replicate 128 0x3F800000 } }
  forRows key (start.getD 0) (if n = 0 then 0 else 1) (ldsclRow p w l row0 col0 n m lcs)
  chargeCaps lcs
  return .done

def execLdscl (w : Num2) (a b : Reg) (m : Mod) : State → Host.Outcome State Fault Refusal := run (ldscl w a b m)

/-- Row i of a projection chunk; elements beyond the tensor are +0 (R194). -/
def projRow (w : Who) (l : Layout) (row0 col0 i : Nat) (m : Mod) : M (List Nat × List Cap) := do
  if l.trans then
    if col0 + i < l.cols then readColumn w l row0 (col0 + i) (min 64 (l.rows - row0)) m else return ([], [])
  else if row0 + i < l.rows then readElems w l (row0 + i) col0 (min 64 (l.cols - col0)) m
  else return ([], [])

/-- Row r of LDPROJ. -/
def ldprojRow (w : Who) (l : Layout) (row0 col0 chunk : Nat) (m : Mod) (lcs : List Cap) (r : Nat) : M (Option TrapInfo) :=
  atRow (tfmtWord 5 5 15 15) r do
    let (els, cs) ← projRow w l row0 col0 r m
    modCore fun k => { k with proj := Sparse.set 0 k.proj (64 * chunk + r) (BitVec.ofNat 1024 (packElems 2 els)) }
    charge (pipsOf (2 * els.length))
    chargeCaps (lcs ++ cs)
    return none

/-- LDPROJ: the chunk is MOD spec [2:0]; the L1 is allocated as for any load. -/
def ldproj (a b : Reg) (m : Mod) : M Ctl := withPorts [a, b] none fun _ => do
  let h ← rd a
  let c ← rd b
  let w ← whoMe
  let chunk := m.spec.toNat % 8
  let m' : Mod := { m with spec := 0 }
  let key := restartKey 3 1 1
  let start ← resumeRow key
  takeProj true (64 * chunk) (64 * chunk + 64)
  let (l, lcs) ← beginLoad h m' (fun l => decide (l.type = 5)) start
  forRows key (start.getD 0) 64 (ldprojRow w l (fld c 0 32) (fld c 32 32) chunk m' lcs)
  return .done

def execLdproj (a b : Reg) (m : Mod) : State → Host.Outcome State Fault Refusal := run (ldproj a b m)

/-! ## The arithmetic of a row (R160 to R162, R200) -/

/-- An exact number rounded to FP32 in the array: nearest even, overflow to infinity with OVF32; no other flag (R155, R160). -/
def arrayRound (x : Fp) : Fp × Nat :=
  let r := roundFp32 x 0
  (Fmt.fp32.decode r.bits, r.flags &&& Flag.ovf32)

/-- One level of the tree: neighbouring pairs, each sum rounded. -/
def treeLevel (l : List Fp) : List Fp × Nat :=
  match l with
  | a :: b :: rest =>
    let (s, f1) := a.add .nearest b
    let (v, f2) := arrayRound s
    let (vs, f3) := treeLevel rest
    (v :: vs, (f1 &&& Flag.inv) ||| f2 ||| f3)
  | _ => (l, 0)

/-- The levels of the tree (R160). -/
def treeSum (levels : Nat) (l : List Fp) (flags : Nat) : Fp × Nat :=
  match levels with
  | 0 => (l.headD (.zero false), flags)
  | n + 1 => let (vs, f) := treeLevel l; treeSum n vs (flags ||| f)

/-- A zero sum is +0 (R160). -/
def plusZero (x : Fp) : Fp :=
  match x with
  | .zero _ => .zero false
  | _ => x

/-- The K-step sum (R160): exact for the 8-bit formats, by the tree of five levels for the 16-bit ones. Each cause of a NaN sets its flag,
whatever the others, and the nodes of the tree that a NaN does not reach set theirs. -/
def ksum (wide : Bool) (xs ys : List Fp) : Fp × Nat :=
  let ps := List.zipWith Fp.mul xs ys
  let f := ps.foldl (fun f q => f ||| q.2) 0
  if wide then
    let (p, g) := treeSum 5 (ps.map (·.1) ++ List.replicate (32 - ps.length) (.zero false)) f
    (plusZero p, g)
  else
    let opposite := ps.any (fun q => decide (q.1 = .inf true)) && ps.any (fun q => decide (q.1 = .inf false))
    let p := ps.foldl (fun acc q => (acc.add .nearest q.1).1) (.zero false)
    (plusZero p, f ||| flagIf opposite Flag.inv)

def Fp.isZero (x : Fp) : Bool :=
  match x with
  | .zero _ => true
  | _ => false

def Fp.isInf (x : Fp) : Bool :=
  match x with
  | .inf _ => true
  | _ => false

/-- Whether a magnitude is at least 2^n. -/
def Fp.atLeast (x : Fp) (n : Int) : Bool :=
  match x with
  | .fin _ m e => decide (n < (bitLen m : Int) + e)
  | _ => x.isInf

/-- The scaled value x of R161. -/
def scaledSum (p sr sc : Fp) : Fp × Nat :=
  if p.isNan || sr.isNan || sc.isNan then (.nan, Flag.nan)
  else if p.isZero then
    (.zero false, flagIf (sr.isInf || sc.isInf || (sr.mul sc).1.atLeast 128) Flag.szi)
  else if (sr.isZero || sc.isZero) && (sr.isInf || sc.isInf || p.isInf) then (.nan, Flag.inv)
  else arrayRound ((sr.mul sc).1.mul p).1

/-- An accumulator cell updated (R162), or none where it is left as it is. -/
def accUpdate (ty old : Nat) (x : Fp) : Option FR :=
  if x.isZero then none
  else if ty = 8 then
    some (match x with
      | .fin n m e => satInt 8 (intOf 8 old + signedMan n (m * 2 ^ e.toNat))
      | _ => ⟨old, 0⟩)
  else
    let (s, f) := (valueOf ty old).add .nearest x
    let r := deliverTy ty .nearest (s, f)
    some ⟨r.bits, r.flags &&& (Flag.nan + Flag.inv + Flag.nsat + Flag.ovf32)⟩

/-- The projection element that the Eyepiece uses for u[j] with column k (R200). -/
def Core.eyeElem (c : Core) (expand : Bool) (sel j k : Nat) : Nat :=
  if expand then c.projElem (64 * (sel % 8) + k) (32 * (sel / 8) + j) else c.projElem (32 * sel + j) k

/-- The running value of an Eyepiece product (R200). `first`: no product has been taken yet. -/
def eyeFrom (ps : List (Fp × Fp)) (v : Fp) (first : Bool) (flags : Nat) : Fp × Nat :=
  match ps with
  | [] => (v, flags)
  | (t, p) :: rest =>
    if t.isNan || p.isNan then eyeFrom rest .nan false (flags ||| Flag.nan)
    else
      let q := t.mul p
      if q.1.isNan then eyeFrom rest .nan false (flags ||| Flag.inv)
      else if v.isNan then eyeFrom rest v false flags
      else if first then eyeFrom rest q.1 false flags
      else
        let (s, f) := v.add .nearest q.1
        let (r, g) := arrayRound s
        eyeFrom rest r false (flags ||| (f &&& Flag.inv) ||| g)

/-- The 32 BF16 values of the Eyepiece for a tile row (R200): their bits, and the flags. -/
def Core.eyeRow (c : Core) (expand : Bool) (sel : Nat) (xs : List Fp) : List Nat × Nat :=
  let us := (List.range 32).map fun j =>
    let (v, f) := eyeFrom (xs.mapIdx fun k x => (x, Fmt.bf16.decode (c.eyeElem expand sel j k))) (.zero false) true 0
    let r := Fmt.bf16.deliver .nearest true v 0
    FR.mk r.bits (f ||| (r.flags &&& Flag.nsat))
  (us.map (·.bits), us.foldl (fun f u => f ||| u.flags) 0)

/-! ## The MMA family (R196, R197) -/

/-- The instructions of the family: what feeds the array, and whether scales apply and old values are kept. -/
inductive MmaKind where
  | plain | zero | scaled
  | absorb (sel : Nat)
  | expand (sel : Nat)
  deriving DecidableEq, Repr

def MmaKind.fn (k : MmaKind) : Nat :=
  match k with
  | .plain => 0
  | .zero => 1
  | .scaled => 2
  | .absorb _ => 3
  | .expand _ => 4

/-- The Eyepiece's direction and selector, for the forms that use it. -/
def MmaKind.eye (k : MmaKind) : Option (Bool × Nat) :=
  match k with
  | .absorb s => some (false, s)
  | .expand s => some (true, s)
  | _ => none

/-- The pairing of operand types (R196). -/
def pairs (k : MmaKind) (t p a : Nat) : Bool :=
  if k.eye.isSome then t ∈ [2, 5] && decide (p = 5) && a ∈ [7, 5]
  else if t ≤ 1 then decide (p ≤ 1) && decide (a = 8) && decide (k ≠ .scaled)
  else if t ∈ [2, 3, 4] then p ∈ [2, 3, 4] && a ∈ [7, 5]
  else t ∈ [5, 6] && decide (p = t) && a ∈ [7, 5]

/-- The rows of the projection buffer that a form reads (R200). -/
def eyeRows (expand : Bool) (sel : Nat) : Nat × Nat :=
  if expand then (64 * (sel % 8), 64 * (sel % 8) + 64) else (32 * sel, 32 * sel + 32)

/-- The values that feed the array for tile row r, and the flags of forming them. -/
def Core.feed (c : Core) (k : MmaKind) (t : Tile) (r krows : Nat) : List Fp × Nat :=
  let xs := (t.rowElems r (shVcols t.shape)).map (valueOf (shType t.shape))
  match k.eye with
  | none => (xs, 0)
  | some (ex, sel) => let (us, f) := c.eyeRow ex sel xs; ((us.take krows).map Fmt.bf16.decode, f)

/-- One row of the array: column n's new cell, if it is written, with the flags of its sum. -/
def mmaCell (k : MmaKind) (wide : Bool) (xs : List Fp) (p : Half) (sr : Fp) (accTy old n : Nat) : Option FR × Nat :=
  let ys := (List.range xs.length).map fun i => valueOf (hType p.shape) (p.weight i n)
  let (s, f) := ksum wide xs ys
  let (x, g) := if k = .scaled then scaledSum s sr (Fmt.fp32.decode (p.scale n)) else (s, 0)
  let base := if k = .zero then 0 else old
  match accUpdate accTy base x with
  | some u => (some u, f ||| g ||| u.flags)
  | none => (if k = .zero then some ⟨0, 0⟩ else none, f ||| g)

def mmaRow (k : MmaKind) (a t : Num3) (w : Num2) (fmt : W64) (r : Nat) : M (Option TrapInfo) := do
  let c ← getCore
  let sl ← getMe
  let tl := sl.tile t
  let p := (← getPlane w).active
  let x ← getAcc a
  let ty := accTy x
  let old := vat 0 x.rows r
  let wide := k.eye.isSome || hType p.shape ≥ 5
  let (xs, f) := c.feed k tl r (hRows p.shape)
  let cells := (List.range (hCols p.shape)).map fun n =>
    mmaCell k wide xs p (Fmt.fp32.decode (vat 0 tl.scales r).toNat) ty (cellAt old n) n
  modAcc a fun y => { y with rows := y.rows.setIfInBounds r (patchCells old fun n => ((cells.getD n (none, 0)).1).map (·.bits)) }
  orFlags (cells.foldl (fun g q => g ||| q.2) f)
  charge 8
  rowStarted
  return match ntOf sl.fpcAt, cells.findIdx? (fun q => (q.1.map fun u => isNanBits ty u.bits).getD false) with
    | true, some n => some ⟨Cause.nan, w64 (((cells.getD n (none, 0)).1.getD ⟨0, 0⟩).bits), nanCoord r n 128, fmt⟩
    | _, _ => none

def mma (k : MmaKind) (a t : Num3) (w : Num2) : M Ctl := do
  let tl := (← getMe).tile t
  let sh := tl.shape
  let p := (← getPlane w).active
  let ty := accTy (← getAcc a)
  let fmt := tfmtWord ty (tyCode sh) (if p.shape = 0 then 15 else hType p.shape) 15
  wakeArray
  atRow fmt 0 do
    needAcc a
    needPlane w
  lockAcc a
  let key := restartKey 3 0 k.fn
  let start ← resumeRow key
  if start.isNone then
    if sh = 0 then shapeTrap sh fmt
    if p.shape = 0 then shapeTrap p.shape fmt
    if !pairs k (shType sh) (hType p.shape) ty then shapeTrap sh fmt
    if k.eye.isNone && shVcols sh ≠ hRows p.shape then shapeTrap sh fmt
  match k.eye with
  | some (ex, sel) => takeProj false (eyeRows ex sel).1 (eyeRows ex sel).2
  | none => pure ()
  forRows key (start.getD 0) (shVrows sh) (mmaRow k a t w fmt)
  return .done

def execMma (a t : Num3) (w : Num2) : State → Host.Outcome State Fault Refusal := run (mma .plain a t w)
def execMmaz (a t : Num3) (w : Num2) : State → Host.Outcome State Fault Refusal := run (mma .zero a t w)
def execMmas (a t : Num3) (w : Num2) : State → Host.Outcome State Fault Refusal := run (mma .scaled a t w)
def execMmaa (a t : Num3) (w : Num2) (sel : BitVec 4) : State → Host.Outcome State Fault Refusal :=
  run (mma (.absorb sel.toNat) a t w)
def execMmax (a t : Num3) (w : Num2) (sel : BitVec 4) : State → Host.Outcome State Fault Refusal :=
  run (mma (.expand sel.toNat) a t w)

/-! ## EPEXP and EPABS (R201) -/

def eyeTile (expand : Bool) (fn : Nat) (d a : Num3) (sel : Nat) : M Ctl := do
  let sl ← getMe
  let sa := (sl.tile a).shape
  let res := mkShape 5 (shRows sa) 32 (shVrows sa) 32
  let fmt := tfmtWord 5 (tyCode sa) 15 15
  let check : M W64 := do
    checkSrc sa [2, 5] fmt
    checkDst d res [(a, sa)] fmt
    return res
  let take := takeProj false (eyeRows expand sel).1 (eyeRows expand sel).2
  tileRows (restartKey 3 4 fn) d check (fun v => do take; beginResult d v) fun r => do
    take
    let c ← getCore
    let src := (← getMe).tile a
    let (us, f) := c.eyeRow expand sel ((src.rowElems r (shVcols src.shape)).map (valueOf (shType src.shape)))
    charge 8
    rowStarted
    commitRow d r (us.mapIdx fun j u => ⟨u, if j = 0 then f else 0⟩) true fmt

def execEpexp (d a : Num3) (sel : BitVec 4) : State → Host.Outcome State Fault Refusal := run (eyeTile true 0 d a sel.toNat)
def execEpabs (d a : Num3) (sel : BitVec 4) : State → Host.Outcome State Fault Refusal := run (eyeTile false 1 d a sel.toNat)

end Sys2Proof.Machine
end

