-- ==== Sys2Proof/Machine/Attention.lean ====
section
/-! DEFINITION. Page 6 but for DMERGE: sequences and their pages (R252, R253), KVLD, KVST, KVMULT (R254 to R258), SCOREB (R259),
TRIPC (R262). -/

namespace Sys2Proof.Machine

/-- Every page 6 instruction traps PRIV in the copy slot. -/
def notCopySlot : M Unit := do
  if (← get).cur.slot = 14 then trapPriv

/-! ## Sequences (R252, R253) -/

/-- A sequence header. -/
structure SeqHeader where
  addr : W64
  ntok : Nat
  npages : Nat
  type : Nat
  width : Nat
  deriving DecidableEq, Repr

def SeqHeader.esize (h : SeqHeader) : Nat := if h.type = 2 then 1 else 2
/-- Bytes of a latent row, and of a page (its stride). -/
def SeqHeader.rowBytes (h : SeqHeader) : Nat := h.width * h.esize
def SeqHeader.pageBytes (h : SeqHeader) : Nat := 16 * h.rowBytes + 64
def SeqHeader.page (h : SeqHeader) (p : Nat) : W64 := h.addr + w64 (64 + p * h.pageBytes)
/-- The latent row of a token slot, and its page's trailer. -/
def SeqHeader.row (h : SeqHeader) (t : Nat) : W64 := h.page (t / 16) + w64 (t % 16 * h.rowBytes)
def SeqHeader.trailer (h : SeqHeader) (t : Nat) : W64 := h.page (t / 16) + w64 (16 * h.rowBytes)

def seqHeaderOf (addr : W64) (bs : List Byte) : SeqHeader :=
  { addr := addr, ntok := fld (wordAt bs 0) 0 32, npages := fld (wordAt bs 0) 32 16, type := fld (wordAt bs 1) 12 4
    width := fld (wordAt bs 1) 0 10 }

def seqHeaderOk (bs : List Byte) (h : SeqHeader) : Bool :=
  decide (fld (wordAt bs 0) 48 16 = 0) && decide (fld (wordAt bs 1) 16 48 = 0) && decide (fld (wordAt bs 1) 10 2 = 0) &&
  ((List.range 5).all fun i => decide (wordAt bs (3 + i) = 0)) && (decide (h.type = 2) || decide (h.type = 5)) &&
  decide (h.width % 64 = 0) && decide (64 ≤ h.width) && decide (h.width ≤ 512)

/-- The header's address checks, its read, and its contents (R254). -/
def readHeader (w : Who) (ea : W64) (m : Mod) : M (SeqHeader × List Cap) := do
  if ea.toNat % 64 ≠ 0 then trapAt Cause.align ea
  if fld ea 61 3 ≠ 0 && fld ea 61 3 ≠ 5 then trapXlate 5 ea
  let (bs, caps) ← readSpan w ea 64 8 m
  let h := seqHeaderOf ea bs
  if !seqHeaderOk bs h then trapAt Cause.shape ea
  return (h, caps)

/-- The token range (R254). -/
def checkTokens (h : SeqHeader) (first n : Nat) (b : W64) : M Unit := do
  if n ≠ 0 && first + n > 16 * h.npages then trapAt Cause.shape b

/-- A trap that names no operand types reports those of an instruction's tile operands (R169). -/
def orFmt {α : Type} (fmt : W64) (m : M α) : M α := fun s =>
  match m s with
  | .error (.trap t) s' => .error (.trap { t with tfmt := if fld t.tfmt 0 16 = 0xFFFF then (t.tfmt >>> 16 <<< 16) ||| fmt else t.tfmt }) s'
  | r => r

/-! ## KVLD, KVST, KVMULT -/

/-- One column of a plane half's first 32 rows. -/
def Half.setColumn (h : Half) (c : Nat) (els : List Nat) : Half :=
  { h with rows := h.rows.mapIdx fun i r =>
      if i < 32 then (r &&& ~~~((0xFFFF#2048) <<< (16 * c))) ||| (BitVec.ofNat 2048 (els.getD i 0) <<< (16 * c)) else r }

/-- An element of a latent row as BF16: exact (R156). -/
def toBf16 (ty bits : Nat) : Nat := if ty = 5 then bits else (convert ty 5 bits).bits

/-- Row c of KVLD: token first + c, into column c. -/
def kvldRow (p : Num2) (w : Who) (h : SeqHeader) (first slice : Nat) (m : Mod) (hcs : List Cap) (c : Nat) : M (Option TrapInfo) :=
  atRow (tfmtWord 5 h.type 15 15) c do
    let z := h.esize
    let (bs, cs) ← readSpan w (h.row (first + c) + w64 (32 * slice * z)) (32 * z) z m
    modPlane p fun q => { q with shadow := q.shadow.setColumn c ((elemsOf z 32 bs).map (toBf16 h.type)) }
    charge (pipsOf (32 * z))
    chargeCaps (hcs ++ cs)
    return none

def kvld (p : Num2) (a b : Reg) (m : Mod) : M Ctl := withPorts [a, b] none fun _ => do
  notCopySlot
  needPlane p
  let d ← rd b
  let n := fld d 16 8
  if fld d 28 36 ≠ 0 || n = 0 || n > 128 then trapAt Cause.illegal d
  let ea ← rd a
  let w ← whoMe
  let key := restartKey 6 0 0
  let start ← resumeRow key
  let slice := fld d 24 4
  let (h, hcs) ← readHeader w ea m
  if 32 * slice + 31 ≥ h.width then trapAt Cause.shape d
  checkTokens h (fld d 0 16) n d
  acquireOf m.order m.scope
  if start.isNone then
    modPlane p fun q => { q with shadow := { q.shadow.reshape 5 32 n with scales := Vector.replicate 128 0x3F800000 } }
  forRows key (start.getD 0) n (kvldRow p w h (fld d 0 16) slice m hcs)
  return .done

def execKvld (w : Num2) (a b : Reg) (m : Mod) : State → Host.Outcome State Fault Refusal := run (kvld w a b m)

/-- The trailer bytes that an appending KVST writes with a token: its multiplicity, and the page's count (R257). -/
def appendSpans (w : Who) (h : SeqHeader) (t : Nat) : M (List (W64 × List Byte) × List Cap) := do
  let (old, cs) ← readSpan w (h.trailer t + 16) 1 1 Mod.none
  return ([(h.trailer t + w64 (t % 16), [1]), (h.trailer t + 16, natToLe 1 (max (leToNat old) (t % 16 + 1)))], cs)

/-- ntok, written with the last token (R257). -/
def ntokSpan (w : Who) (h : SeqHeader) (n : Nat) : M (List (W64 × List Byte) × List Cap) := do
  let (old, cs) ← readSpan w h.addr 4 4 Mod.none
  return ([(h.addr, natToLe 4 (max (leToNat old) n))], cs)

/-- Row i of KVST: token first + i; d is the descriptor. -/
def kvstRow (tl : Tile) (w : Who) (h : SeqHeader) (d : W64) (hcs : List Cap) (i : Nat) : M (Option TrapInfo) :=
  atRow (tfmtWord h.type (tyCode tl.shape) 15 15) i do
    let sh := tl.shape
    let first := fld d 0 16
    let els := tl.rowElems i (shVcols sh)
    let row := (h.row (first + i) + w64 (64 * fld d 16 4), bytesOf h.esize els)
    let (app, c1) ← if flag d 20 then appendSpans w h (first + i) else pure ([], [])
    let (tok, c2) ← if flag d 20 && i + 1 = shVrows sh then ntokSpan w h (first + shVrows sh) else pure ([], [])
    let cs ← writeRow w ((if els.isEmpty then [] else [row]) ++ app ++ tok) 1
    charge (pipsOf (shVcols sh * h.esize))
    chargeCaps (hcs ++ c1 ++ c2 ++ cs)
    return none

/-- KVST; its release comes before its checks, which are made once (R212). -/
def kvst (t : Num3) (a b : Reg) (m : Mod) : M Ctl := withPorts [a, b] none fun _ => do
  orFmt (tfmtWord 15 (tyCode (← getTile t).shape) 15 15) do
  notCopySlot
  let d ← rd b
  if fld d 21 43 ≠ 0 then trapAt Cause.illegal d
  let ea ← rd a
  let w ← whoMe
  releaseAt m.order m.scope
  let key := restartKey 6 1 0
  let start ← resumeRow key
  let tl ← getTile t
  let sh := tl.shape
  let first := fld d 0 16
  let chunk := fld d 16 4
  let (h, hcs) ← readHeader w ea Mod.none
  let fmt := tfmtWord h.type (tyCode sh) 15 15
  if start.isNone && (sh = 0 || shType sh ≠ h.type || shCols sh * h.esize ≠ 64) then shapeTrap sh fmt
  if 64 * chunk ≥ h.rowBytes then trapAt Cause.shape d 0 fmt
  orFmt fmt (checkTokens h first (shVrows sh) d)
  forRows key (start.getD 0) (shVrows sh) (kvstRow tl w h d hcs)
  return .done

def execKvst (t : Num3) (a b : Reg) (m : Mod) : State → Host.Outcome State Fault Refusal := run (kvst t a b m)

/-- The multiplicities of token slots, in ascending order. -/
def readMults (w : Who) (h : SeqHeader) (first n : Nat) (m : Mod) : M (List Nat × List Cap) :=
  (List.range n).foldlM (fun (els, cs) j => do
    let (bs, c) ← readSpan w (h.trailer (first + j) + w64 ((first + j) % 16)) 1 1 m
    return (els ++ [leToNat bs], cs ++ c)) ([], [])

/-- The one row of KVMULT. -/
def kvmultRow (t : Num3) (w : Who) (h : SeqHeader) (first n : Nat) (m : Mod) (hcs : List Cap) (r : Nat) : M (Option TrapInfo) :=
  atRow (tfmtWord 1 15 15 15) r do
    let (els, cs) ← readMults w h first n m
    setTile t (((← getTile t)).setRow r (rowOf 1 els))
    charge (pipsOf n)
    chargeCaps (hcs ++ cs)
    return none

def kvmult (t : Num3) (a b : Reg) (m : Mod) : M Ctl := withPorts [a, b] none fun _ => do
  orFmt (tfmtWord 1 15 15 15) do
  notCopySlot
  let d ← rd b
  let n := fld d 16 7
  if fld d 23 41 ≠ 0 || n = 0 || n > 64 then trapAt Cause.illegal d
  let ea ← rd a
  let w ← whoMe
  let key := restartKey 6 2 0
  let start ← resumeRow key
  let (h, hcs) ← readHeader w ea m
  checkTokens h (fld d 0 16) n d
  acquireOf m.order m.scope
  if start.isNone then beginResult t (mkShape 1 1 64 1 n)
  forRows key (start.getD 0) 1 (kvmultRow t w h (fld d 0 16) n m hcs)
  return .done

def execKvmult (t : Num3) (a b : Reg) (m : Mod) : State → Host.Outcome State Fault Refusal := run (kvmult t a b m)

/-! ## SCOREB (R259) -/

/-- bias[m]: −∞ for an empty entry, else log2 m correctly rounded to FP32. -/
def bias (m : Nat) : Fp :=
  if m = 0 then .inf true
  else if m = 1 then .zero false
  else Fmt.fp32.decode (Fmt.fp32.log2 .nearest false m 0).bits

def scoreEl (x m : Nat) : FR :=
  let (v, f) := (Fmt.fp32.decode x).add .nearest (bias m)
  Fmt.fp32.deliver .nearest false v f

def scoreb (d a b : Num3) : M Ctl := do
  let sl ← getMe
  let va := (sl.tile a).shape
  let vb := (sl.tile b).shape
  let fmt := tfmtWord 7 (tyCode va) (tyCode vb) 15
  orFmt fmt notCopySlot
  let check : M W64 := do
    checkSrc va [7] fmt
    checkSrc vb [1] fmt
    agree (decide (shVcols va ≤ shVcols vb) && decide (1 ≤ shVrows vb)) vb fmt
    checkDst d va [(a, va), (b, vb)] fmt
    return va
  tileRows (restartKey 6 3 0) d check (beginResult d) fun i => do
    let sl ← getMe
    let els := (List.range (shVcols va)).map fun j => scoreEl ((sl.tile a).elem i j) ((sl.tile b).elem 0 j)
    commitRow d i els true fmt

def execScoreb (d a b : Num3) : State → Host.Outcome State Fault Refusal := run (scoreb d a b)

/-! ## TRIPC (R262) -/

/-- dk and fk of one triple: 2^(mk − M), and the flags. Equal values give 1 exactly. -/
def tripFactor (mk big : Fp) : Fp × Nat :=
  if !mk.lt big && !big.lt mk then (.fin false 1 0, 0)
  else
    let (x, f) := mk.add .nearest big.neg
    let dk := Fmt.fp32.deliver .nearest false x f
    let e := Fmt.fp32.exp2 .nearest false (Fmt.fp32.decode dk.bits)
    (Fmt.fp32.decode e.bits, dk.flags ||| e.flags)

/-- One column of the combination: products exact, one rounding. -/
def tripEl (x f1 y f2 : Fp) : FR :=
  let (p, a) := x.mul f1
  let (q, b) := y.mul f2
  let (v, c) := p.add .nearest q
  Fmt.fp32.deliver .nearest false v (a ||| b ||| (if p.isNan || q.isNan then 0 else c))

def tripRow (xs ys : List Nat) : List FR :=
  match xs.map Fmt.fp32.decode, ys.map Fmt.fp32.decode with
  | m1 :: r1, m2 :: r2 =>
    if m1.isNan || m2.isNan then xs.map fun _ => ⟨Fmt.fp32.canonNan, Flag.nan⟩
    else
      let big := (m1.max m2).1
      let (f1, g1) := tripFactor m1 big
      let (f2, g2) := tripFactor m2 big
      let head := Fmt.fp32.deliver .nearest false big 0
      ⟨head.bits, head.flags ||| g1 ||| g2⟩ :: (r1.zip r2).map fun (x, y) => tripEl x f1 y f2
  | _, _ => []

def tripc (d a b : Num3) : M Ctl := do
  let sl ← getMe
  let va := (sl.tile a).shape
  let vb := (sl.tile b).shape
  let fmt := tfmtWord 7 (tyCode va) (tyCode vb) 15
  orFmt fmt notCopySlot
  let check : M W64 := do
    checkSrc va [7] fmt
    checkSrc vb [7] fmt
    agree (decide (va = vb)) vb fmt
    agree (decide (2 ≤ shCols va)) va fmt
    checkDst d va [(a, va), (b, vb)] fmt
    return va
  tileRows (restartKey 6 4 0) d check (beginResult d) fun i => do
    let sl ← getMe
    let n := shVcols va
    commitRow d i (tripRow ((sl.tile a).rowElems i n) ((sl.tile b).rowElems i n)) true fmt

def execTripc (d a b : Num3) : State → Host.Outcome State Fault Refusal := run (tripc d a b)

end Sys2Proof.Machine
end

