-- ==== Sys2Proof/Machine/Barrier.lean ====
section
/-! DEFINITION. Barriers (R229 to R234): the object, its bank's operations, the six instructions, and the landings of bytes. -/

namespace Sys2Proof.Machine

/-! ## The object (R229) -/

structure Barrier where
  expected : Nat
  arrivals : Nat
  pending : Nat
  phase : Nat
  overflow : Bool
  scope : Nat
  deriving DecidableEq, Repr

def State.barrier (s : State) (loc : Nat) : Barrier :=
  let w0 := s.word64 loc
  let w1 := s.word64 (loc + 8)
  ⟨fld w0 48 16, fld w0 32 16, fld w0 8 24, fld w0 0 8, flag w1 7, fld w1 4 3⟩

def Barrier.word0 (b : Barrier) : W64 :=
  w64 (b.expected % 2 ^ 16 * 2 ^ 48 + b.arrivals % 2 ^ 16 * 2 ^ 32 + b.pending % 2 ^ 24 * 2 ^ 8 + b.phase % 256)
def Barrier.word1 (b : Barrier) : W64 := w64 (boolNat b.overflow * 2 ^ 7 + b.scope * 2 ^ 4)

/-- The object written by the bank, reserved bits as 0; `uid`: the context that writes it. -/
def State.putBarrier (s : State) (core uid world loc : Nat) (b : Barrier) : State :=
  s.performWrite core uid world (fun _ => none)
    (cellsAt loc (natToLe 8 b.word0.toNat ++ natToLe 8 b.word1.toNat ++ List.replicate 16 0))

/-- The widest scope that a barrier's window allows (R229). -/
def windowScope (loc : Nat) : Nat := if loc < clusterBase then 1 else if loc < chipBase then 2 else 4

/-- The scope at which a barrier acts. -/
def Barrier.actScope (b : Barrier) (loc : Nat) : Nat :=
  if 1 ≤ b.scope && b.scope ≤ windowScope loc then b.scope else windowScope loc

/-! ## Phases (R231) -/

/-- A waiter let go: its acquire, and its instruction completes; a BARSYNC's record of its arrival ends. -/
def State.letGo (scope : Nat) (s : State) (x : BarWaiter) : State :=
  let s1 := if scope ≥ 2 then s.modCore x.core (·.invalidateL1) else s
  s1.modSlot x.core x.slot fun sl =>
    { sl.after (sl.pc + w64 x.len) .wait .complete with restart := w64 (sl.restart.toNat % 2 ^ 63) }

/-- The waiters on a phase of a barrier let go. `scope`: that of their acquire; 0 for none. -/
def State.releasePhase (s : State) (loc phase scope : Nat) : State :=
  let mine := s.barWaiters.filter fun x => decide (x.loc = loc) && decide (x.phase = phase)
  mine.foldl (State.letGo scope) { s with barWaiters := s.barWaiters.filter (!mine.contains ·) }

/-- An object written, and its phase completed where all have arrived and all bytes have landed. -/
def State.settleBarrier (s : State) (core uid world loc : Nat) (b : Barrier) : State :=
  if b.arrivals = b.expected && b.pending = 0 then
    (s.putBarrier core uid world loc { b with phase := (b.phase + 1) % 256, arrivals := 0 }).releasePhase loc b.phase (b.actScope loc)
  else s.putBarrier core uid world loc b

/-- A landing of bytes against a barrier (R232): none where it would take pending below zero. -/
def State.barLand (s : State) (core world loc n : Nat) : Option State :=
  let b := s.barrier loc
  if b.pending < n then none
  else if n = 0 then some s
  else
    let b1 := { b with pending := b.pending - n }
    some (if b1.pending = 0 then s.settleBarrier core 0 world loc b1 else s.putBarrier core 0 world loc b1)

/-! ## The instructions (R230) -/

/-- The address checks of a barrier, by a chain: alignment, window, steps 4 to 6 of R99 as an atomic. -/
def barPlace (w : Who) (ea : W64) : M (Place × Cap) := do
  if ea.toNat % 32 ≠ 0 then trapAt Cause.align ea
  if fld ea 61 3 ≠ 6 || fld ea 58 3 ≥ 3 then trapXlate 5 ea
  let pl ← locate w ea .atomic
  let cap ← authorize w ea [.atomic]
  firewall w pl ea [.atomic]
  return (pl, cap)

/-- A barrier instruction's own stores to the object come first (R244). -/
def ownFirst (w : Who) (loc : Nat) : M Unit := modify fun s =>
  (((s.performWord w.core w.slot loc).performWord w.core w.slot (loc + 8)).performWord w.core w.slot (loc + 16)).performWord
    w.core w.slot (loc + 24)

/-- An arrival counted, or BAR_OVER (R230). Its release has come before the checks of its address, which are made once (R212). -/
def arrive (w : Who) (pl : Place) (ea : W64) : M Nat := do
  ownFirst w pl.loc
  let s ← get
  let b := s.barrier pl.loc
  if b.arrivals = b.expected then
    set (s.putBarrier w.core s.me.uid w.world pl.loc { b with overflow := true })
    trapAt Cause.barOver ea
  set (s.settleBarrier w.core s.me.uid w.world pl.loc { b with arrivals := b.arrivals + 1 })
  return b.phase

/-- Waiting for the end of a phase, out of the rotation; the acquire where it has ended (R231). -/
def awaitPhase (w : Who) (loc phase : Nat) : M Unit := do
  let s ← get
  let b := s.barrier loc
  if b.phase = phase then
    set { s with barWaiters := s.barWaiters ++ [BarWaiter.mk loc phase w.core w.slot s.cur.len] }
    throw (.wait (.barrier loc phase))
  acquireAt (b.actScope loc)

def bararr (d a : Reg) : M Ctl := waiting [d] (some a) do
  let ea ← rd d
  let w ← whoMe
  releaseAll
  let (pl, cap) ← barPlace w ea
  let p ← arrive w pl ea
  chargeCap cap
  wr a (w64 p)

def execBararr (d a : Reg) : State → Host.Outcome State Fault Refusal := run (bararr d a)

def barwait (d a : Reg) : M Ctl := waiting [d, a] none do
  let ea ← rd d
  let q ← rd a
  let w ← whoMe
  let (pl, cap) ← barPlace w ea
  ownFirst w pl.loc
  chargeCap cap
  awaitPhase w pl.loc (fld q 0 8)

def execBarwait (d a : Reg) : State → Host.Outcome State Fault Refusal := run (barwait d a)

/-- BARSYNC; once its arrival is counted, k.restart says so, and a resumption waits without arriving again (R231). -/
def barsync (d a : Reg) : M Ctl := waiting [d] (some a) do
  let ea ← rd d
  let w ← whoMe
  let key := restartKey 4 2 2
  match ← resumeRow key with
  | some r => do
    let (pl, cap) ← barPlace w ea
    chargeCap cap
    awaitPhase w pl.loc (r % 256)
  | none => do
    releaseAll
    let (pl, cap) ← barPlace w ea
    let p ← arrive w pl ea
    chargeCap cap
    wr a (w64 p)
    guardRow key (0x100 + p) (awaitPhase w pl.loc p)
  clearPend

def execBarsync (d a : Reg) : State → Host.Outcome State Fault Refusal := run (barsync d a)

def barexp (d a : Reg) : M Ctl := waiting [d, a] none do
  let ea ← rd d
  let n ← rd a
  let w ← whoMe
  let (pl, cap) ← barPlace w ea
  ownFirst w pl.loc
  let s ← get
  let b := s.barrier pl.loc
  if n.toNat ≥ 2 ^ 24 || b.pending + n.toNat ≥ 2 ^ 24 then trapAt Cause.barBytes ea
  if n ≠ 0 then set (s.putBarrier w.core s.me.uid w.world pl.loc { b with pending := b.pending + n.toNat })
  chargeCap cap

def execBarexp (d a : Reg) : State → Host.Outcome State Fault Refusal := run (barexp d a)

def barinit (d a : Reg) : M Ctl := waiting [d, a] none do
  let ea ← rd d
  let v ← rd a
  let w ← whoMe
  let (pl, cap) ← barPlace w ea
  if fld v 0 16 = 0 || fld v 16 3 = 0 || fld v 16 3 ≥ 5 then trapAt Cause.illegal v
  ownFirst w pl.loc
  modify fun s =>
    let old := (s.barrier pl.loc).phase
    (s.putBarrier w.core s.me.uid w.world pl.loc ⟨fld v 0 16, 0, 0, 0, false, fld v 16 3⟩).releasePhase pl.loc old 0
  chargeCap cap

def execBarinit (d a : Reg) : State → Host.Outcome State Fault Refusal := run (barinit d a)

def barqry (d a : Reg) : M Ctl := waiting [d] (some a) do
  let ea ← rd d
  let w ← whoMe
  let (pl, cap) ← barPlace w ea
  ownFirst w pl.loc
  wr a ((← get).word64 pl.loc)
  chargeCap cap

def execBarqry (d a : Reg) : State → Host.Outcome State Fault Refusal := run (barqry d a)

end Sys2Proof.Machine
end

