-- ==== Sys2Proof/Machine/Memory.lean ====
section
/-! DEFINITION. Scalar loads and stores (R99, R125), the core control window (R110, R123), full/empty words (R126, R127), the
cache instructions (R128), and the performing of stores and L1 fills (R244, R250). -/

namespace Sys2Proof.Machine

/-! ## Loads -/

/-- A scalar load of `size` bytes (R99): checked, charged, extended. -/
def load (size : Nat) (ext : Nat → W64) (d a : Reg) (off : W64) (m : Mod) : M Ctl := waiting [a] (some d) do
  let ea := effAddr (← rd a) off size
  let w ← whoMe
  let (pl, cap) ← checkAccess w ea size .read [.read]
  let bs ← loadPlace w pl size m ea
  chargeCap cap
  acquireOf m.order m.scope
  wr d (ext (leToNat bs))

def signExt (n v : Nat) : W64 := (BitVec.ofNat n v).signExtend 64

def execLdd (d a : Reg) (off : W64) (m : Mod) : State → Host.Outcome State Fault Refusal := run (load 8 w64 d a off m)
def execLdw (d a : Reg) (off : W64) (m : Mod) : State → Host.Outcome State Fault Refusal :=
  run (load 4 (signExt 32) d a off m)
def execLdb (d a : Reg) (off : W64) (m : Mod) : State → Host.Outcome State Fault Refusal := run (load 1 (signExt 8) d a off m)
def execLdbu (d a : Reg) (off : W64) (m : Mod) : State → Host.Outcome State Fault Refusal := run (load 1 w64 d a off m)
def execLdh (d a : Reg) (off : W64) (m : Mod) : State → Host.Outcome State Fault Refusal :=
  run (load 2 (signExt 16) d a off m)
def execLdhu (d a : Reg) (off : W64) (m : Mod) : State → Host.Outcome State Fault Refusal := run (load 2 w64 d a off m)
def execLdwu (d a : Reg) (off : W64) (m : Mod) : State → Host.Outcome State Fault Refusal := run (load 4 w64 d a off m)

/-! ## The control window -/

/-- Translations dropped device-wide (R123): of one world, all or those that cover an address at any page size. -/
def State.dropTrans (s : State) (world : Nat) (va : Option Nat) : State :=
  let keep := fun (t : Trans) => !(decide (t.world = world) && match va with
    | none => true
    | some a => decide (t.va ≤ a) && decide (a < t.va + t.size))
  { s with
    cores := s.cores.map fun e => (e.1, { e.2 with tlb := e.2.tlb.filter keep })
    clusterTlb := s.clusterTlb.map fun e => (e.1, e.2.filter keep)
    dieTlb := s.dieTlb.map fun e => (e.1, e.2.filter keep) }

/-- TLBINV (R123): bits [15:1] must be 0. -/
def tlbinv (core : Nat) (v ea : W64) : M Unit := do
  if fld v 1 15 ≠ 0 then trapAt Cause.align ea
  modify fun s => s.dropTrans (s.core core).world (if flag v 0 then none else some (fld v 16 40 * 2 ^ 16))

/-- A word of the control window above the mailboxes written (R110); offsets with no word ignore it. -/
def ctrlStore (core off : Nat) (v ea : W64) : M Unit := do
  match off with
  | 0x200 => modify (·.modCore core fun k => { k with seqBase := v })
  | 0x208 => modify (·.modCore core fun k => { k with seqSize := v })
  | 0x210 => modify (·.modCore core fun k => { k with qdef := v.setWidth 32 })
  | 0x218 => modify (·.modCore core fun k => { k with pipecfg := v.setWidth 8 &&& 0xF3 })
  | 0x220 => tlbinv core v ea
  | _ => pure ()

/-- TLBINV_WRITE: the supervisor of the acting core writes v (R123). -/
def execTlbinvWrite (v : W64) : State → Host.Outcome State Fault Refusal :=
  event do tlbinv (← get).cur.core v (w64 (6 * 2 ^ 61 + 3 * 2 ^ 58 + 0x220))

/-- SEQ_REGISTER_WRITE: the supervisor of the acting core writes SEQBASE or SEQSIZE (R111). -/
def execSeqRegisterWrite (off : Nat) (v : W64) : State → Host.Outcome State Fault Refusal :=
  event do
    require (off = 0x200 || off = 0x208)
    ctrlStore (← get).cur.core off v 0

/-! ## Stores -/

/-- A scalar store of the low `size` bytes of d (R99, R244). The read that a partial write of an HBM line needs comes first
(R324). -/
def store (size : Nat) (d a : Reg) (off : W64) (m : Mod) : M Ctl := waiting [d, a] none do
  let v ← rd d
  let ea := effAddr (← rd a) off size
  let w ← whoMe
  releaseAt m.order m.scope
  storeRoom w
  let (pl, cap) ← checkAccess w ea size .write [.write]
  if pl.space = .ctrl && fld ea 0 12 ≥ 0x200 then ctrlStore w.core (fld ea 0 12) v ea
  else
    if pl.space = .hbm then lineIn w (pl.loc / 64) pl.pin ea
    storeEntry w [(pl, natToLe size v.toNat)]
  chargeCap cap

def execStd (d a : Reg) (off : W64) (m : Mod) : State → Host.Outcome State Fault Refusal := run (store 8 d a off m)
def execStw (d a : Reg) (off : W64) (m : Mod) : State → Host.Outcome State Fault Refusal := run (store 4 d a off m)
def execStb (d a : Reg) (off : W64) (m : Mod) : State → Host.Outcome State Fault Refusal := run (store 1 d a off m)
def execSth (d a : Reg) (off : W64) (m : Mod) : State → Host.Outcome State Fault Refusal := run (store 2 d a off m)

/-! ## Full/empty words (R126, R127) -/

/-- The checks of a full/empty instruction: alignment, windows, then R99; the own control window's mailboxes pass the firewall
alone, and are not charged. -/
def fePlace (w : Who) (ea : W64) (kinds : List Kind) : M (Place × Option Cap) := do
  if ea.toNat % 8 ≠ 0 then trapAt Cause.align ea
  if fld ea 61 3 ≠ 6 || fld ea 58 3 > 3 then trapXlate 5 ea
  if fld ea 58 3 = 3 && fld ea 0 12 ≥ 0x200 then trapXlate 5 ea
  let pl ← locate w ea .read
  if pl.space = .ctrl then
    firewall w pl ea kinds
    return (pl, none)
  else
    let cap ← authorize w ea kinds
    firewall w pl ea kinds
    return (pl, some cap)

/-- A full/empty bit set; a mailbox word that turns full ends the copy slot's STOP (R97). -/
def State.fill (s : State) (loc : Nat) : State :=
  let s1 := if ctrlBase ≤ loc && !s.isFull loc then s.modCore ((loc - ctrlBase) / 4096) Core.mailboxFilled else s
  s1.setFull loc true

/-- Whether a bit admits a request. -/
def FeKind.admits (k : FeKind) (full : Bool) : Bool :=
  match k with
  | .ldf => full
  | .ldfk => full
  | .ste => !full

/-- A word written at its bank by a slot. -/
def State.bankWrite (s : State) (core slot loc : Nat) (v : W64) : State :=
  s.performWrite core (s.slot core slot).uid (s.core core).world (fun _ => none) (cellsAt loc (natToLe 8 v.toNat))

/-- A request served at the word's bank: its effect, its acquire and its charge. -/
def State.feServe (s : State) (loc : Nat) (r : FeReq) : State :=
  let s1 := match r.kind with
    | .ldf => (s.setFull loc false).writeReg r.core r.slot r.reg (s.word64 loc)
    | .ldfk => s.writeReg r.core r.slot r.reg (s.word64 loc)
    | .ste => (s.bankWrite r.core r.slot loc r.value).fill loc
  let s2 := if r.kind ≠ .ste && r.order.getLsbD 0 && decide (r.scope.toNat ≥ 2) then s1.modCore r.core (·.invalidateL1) else s1
  if r.pips = 0 then s2 else s2.chargeSlot r.core r.slot r.pips

def State.feQueue (s : State) (loc : Nat) : List FeReq := Sparse.get [] s.feWaiters loc

/-- LDF, LDFK and STE: served at once where the bit admits the request and no older waiter that it admits still stands, else
queued. -/
def feRequest (kind : FeKind) (kinds : List Kind) (d a : Reg) (m : Mod) : M Ctl :=
  waiting (if kind = .ste then [d, a] else [a]) (if kind = .ste then none else some d) do
    let ea ← rd a
    let v ← rd d
    let w ← whoMe
    let (pl, cap) ← fePlace w ea kinds
    if kind = .ste then releaseAt m.order m.scope
    modify (·.performWord w.core w.slot pl.loc)
    let s ← get
    let r : FeReq := ⟨w.core, w.slot, kind, d, v, m.order, m.scope, s.cur.len, (cap.map (·.charge)).getD 0⟩
    let full := s.isFull pl.loc
    let q := s.feQueue pl.loc
    if kind.admits full && !q.any (·.kind.admits full) then set (s.feServe pl.loc r)
    else
      set { s with feWaiters := Sparse.put s.feWaiters pl.loc (q ++ [r]) }
      throw (.wait (.fe pl.loc))

def execLdf (d a : Reg) (m : Mod) : State → Host.Outcome State Fault Refusal := run (feRequest .ldf [.read, .write] d a m)
def execLdfk (d a : Reg) (m : Mod) : State → Host.Outcome State Fault Refusal := run (feRequest .ldfk [.read] d a m)
def execSte (d a : Reg) (m : Mod) : State → Host.Outcome State Fault Refusal := run (feRequest .ste [.write] d a m)

/-- The oldest request of a word's queue that its bit admits, served: its instruction completes. -/
def State.feServeNext (s : State) (loc : Nat) : Option State :=
  let q := s.feQueue loc
  (q.find? (·.kind.admits (s.isFull loc))).map fun r =>
    let rest := q.erase r
    let s1 : State := { s with feWaiters := if rest.isEmpty then Sparse.drop s.feWaiters loc else Sparse.put s.feWaiters loc rest }
    (s1.feServe loc r).modSlot r.core r.slot fun sl => sl.after (sl.pc + w64 r.len) .wait .complete

/-- The requests that stand before a new one and that the bit admits, served in the bank's order (R127). -/
def State.feServeAll (s : State) (loc fuel : Nat) : State :=
  match fuel with
  | 0 => s
  | n + 1 =>
    match s.feServeNext loc with
    | some t => t.feServeAll loc n
    | none => s

/-- A full/empty instruction that never waits. -/
def feNow (kinds : List Kind) (srcs : List Reg) (a : Reg) (m : Mod) (act : Nat → M Unit) : M Ctl := waiting srcs none do
  let ea ← rd a
  let w ← whoMe
  let (pl, cap) ← fePlace w ea kinds
  releaseAt m.order m.scope
  modify (·.performWord w.core w.slot pl.loc)
  modify fun s => s.feServeAll pl.loc (s.feQueue pl.loc).length
  act pl.loc
  cap.forM chargeCap

def execStf (d a : Reg) (m : Mod) : State → Host.Outcome State Fault Refusal :=
  run (feNow [.write] [d, a] a m fun loc => do
    let v ← rd d
    modify fun s => (s.bankWrite s.cur.core s.cur.slot loc v).fill loc)

def execFeclr (a : Reg) : State → Host.Outcome State Fault Refusal :=
  run (feNow [.write] [a] a Mod.none fun loc => modify (·.setFull loc false))

def execFeq (p : Num3) (a : Reg) : State → Host.Outcome State Fault Refusal :=
  run (feNow [.read] [a] a Mod.none fun loc => modify fun s => s.modMe (·.setPred p (s.isFull loc)))

/-- FE_WAITER_SERVED: the oldest waiter that the bit admits is served and its instruction completes (R127). -/
def feWaiterServed (loc : Nat) : M Unit := do
  match (← get).feServeNext loc with
  | none => require false
  | some t => set t

def execFeWaiterServed (loc : Nat) : State → Host.Outcome State Fault Refusal := event (feWaiterServed loc)

/-! ## Cache instructions (R128) -/

def execInvl1 : State → Host.Outcome State Fault Refusal :=
  run do
    modCore fun c => { c.invalidateL1 with code := [] }
    return .done

/-- The line of an HBM address brought in, with the checks of R99 but for alignment; not charged. -/
def prefetchLine (l1 : Bool) (ea : W64) : M Unit := do
  let w ← whoMe
  if fld ea 61 3 = 6 then trapXlate 5 ea
  let pl ← locate w ea .read
  let _ ← authorize w ea [.read]
  firewall w pl ea [.read]
  if pl.space ≠ .hbm then trapXlate 5 ea
  lineIn w (pl.loc / 64) pl.pin ea
  modify fun s => s.modCore w.core fun c =>
    let c1 := c.cancelFills (pl.loc / 64)
    if !l1 || pl.nol1 || (c1.l1Line (pl.loc / 64)).isSome then c1
    else { c1 with fills := c1.fills ++ [⟨pl.loc / 64, s.lineData (pl.loc / 64), false⟩] }

/-- A prefetch never traps: what fails leaves it without effect. -/
def prefetch (l1 : Bool) (a : Reg) : M Ctl := waiting [a] none do
  let ea ← rd a
  let s ← get
  match prefetchLine l1 ea s with
  | .ok _ t => set t
  | .error _ _ => pure ()

def execPref (a : Reg) : State → Host.Outcome State Fault Refusal := run (prefetch true a)
def execPrefl (a : Reg) : State → Host.Outcome State Fault Refusal := run (prefetch false a)

/-! ## Events of the memory system -/

/-- An entry that stands at a bank whose word has become free, the first there, performed (R223). -/
def State.performWaiting (s : State) (core : Nat) (e : SbEntry) : Option State :=
  match s.banks.find? fun b => b.2.deferred.contains ⟨core, e⟩ with
  | none => none
  | some (l, b) =>
    if (s.busyWord e.bytes).isSome || b.deferred.head? ≠ some ⟨core, e⟩ then none
    else some ((s.setBank l { b with deferred := b.deferred.drop 1 }).landEntry core e)

/-- STORE_PERFORM: the k-th entry of a core's buffer is written, where no entry that must leave before it stands (R244). -/
def storePerform (core k : Nat) : M Unit := do
  let s ← get
  let sb := (s.core core).sb
  match sb[k]? with
  | none => require false
  | some e =>
    require (!(sb.take k).any (·.ordered e))
    if e.atBank then
      match s.performWaiting core e with
      | some t => set t
      | none => require false
    else set (s.performEntry core e)

def execStorePerform (core k : Nat) : State → Host.Outcome State Fault Refusal := event (storePerform core k)

/-- L1_FILL: the k-th fill on its way arrives; it is installed unless it has been cancelled (R113, R250). -/
def l1Fill (core k : Nat) : M Unit := do
  let s ← get
  match (s.core core).fills[k]? with
  | none => require false
  | some f => set (s.modCore core fun c =>
      let c1 := { c with fills := c.fills.eraseIdx k }
      if f.cancelled then c1 else c1.l1Install ⟨f.line, f.data⟩)

def execL1Fill (core k : Nat) : State → Host.Outcome State Fault Refusal := event (l1Fill core k)

end Sys2Proof.Machine
end

