-- ==== Sys2Proof/Machine/Copies.lean ====
section
/-! DEFINITION. The copy engine (R136 to R142): acceptance, chunks, faults, completion, DRAIN, and what the supervisor does with a
held copy (R284). -/

namespace Sys2Proof.Machine

/-! ## Ranges under a chain (R138) -/

/-- The capabilities that a range touches, in address order, each checked for a kind (R138): CAPFAULT at the lowest byte that none
holds, CHAIN_DENIED at the lowest address within the one that denies. -/
def rangeCaps (w : Who) (kind : Kind) (fuel : Nat) (ea : W64) (n : Nat) : M (List Cap) := do
  match fuel with
  | 0 => trapAt Cause.capfault ea
  | f + 1 =>
    if n = 0 then return []
    else
      let cap ← authorize w ea [kind]
      let k := min n (cap.base + cap.len - ea.toNat)
      let rest ← rangeCaps w kind f (ea + w64 k) (n - k)
      return cap :: rest

def rangeOf (w : Who) (kind : Kind) (ea : W64) (n : Nat) : M (List Cap) := do
  rangeCaps w kind (((← get).world w.world).caps.length + 2) ea n

/-! ## Descriptors (R136) -/

/-- A copy descriptor's words. -/
structure CopyDesc where
  mb0 : W64
  src : W64
  dst : W64
  size : W64
  deriving DecidableEq, Repr

def CopyDesc.op (x : CopyDesc) : Nat := fld x.mb0 62 2
def CopyDesc.tag (x : CopyDesc) : Nat := fld x.mb0 16 16
def CopyDesc.bar (x : CopyDesc) : Option W64 :=
  if flag x.mb0 60 then some (w64 (6 * 2 ^ 61 + fld x.mb0 54 2 * 2 ^ 58 + fld x.mb0 32 22 * 32)) else none

/-- Whether a descriptor keeps the rules of its reserved fields (R138). -/
def CopyDesc.fieldsOk (x : CopyDesc) : Bool :=
  decide (x.op ≤ 2) && decide (fld x.mb0 56 4 = 0) && decide (fld x.mb0 0 16 = 0) &&
  (if flag x.mb0 60 then decide (fld x.mb0 54 2 ≠ 3) else decide (fld x.mb0 32 22 = 0))

/-- Whether its size fields are in range. -/
def CopyDesc.sizeOk (x : CopyDesc) : Bool :=
  match x.op with
  | 0 => decide (1 ≤ x.size.toNat) && decide (x.size.toNat ≤ 2 ^ 40)
  | 1 => decide (fld x.size 32 20 ≠ 0)
  | _ => decide (fld x.size 0 32 ≠ 0)

/-! ## The parts of a copy -/

/-- Row or run i of a copy: the row that it reports, its source, its destination, its bytes. -/
def Copy.part (c : Copy) (i : Nat) : Option (Nat × W64 × W64 × Nat) :=
  match c.runs with
  | [] =>
    if i < c.rows then some (i, c.base + w64 (i * c.srcPitch), c.dst + w64 (i * c.dstPitch), c.rowBytes) else none
  | runs => runs[i]?.map fun (r, a, off, n) => (r, a, c.dst + w64 off, n)

def Copy.parts (c : Copy) : Nat := if c.runs.isEmpty then c.rows else c.runs.length

/-- The destination's path (R142): core scratchpad, cluster memory, chip scratchpad, global memory. -/
def pathOf (ea : W64) : Nat := if fld ea 61 3 = 6 then min 3 (fld ea 58 3) else 3

/-- The copies' authority: the world and chain captured from the requester (R138). -/
def Copy.who (c : Copy) (core : Nat) : Who := ⟨core, c.slot, c.world, fld c.chain 0 16⟩

/-! ## CPYL over CX8 (R138) -/

/-- Runs of CX8 blocks as (row, source, offset at the destination, bytes), the offset after the last, and the capabilities used. -/
abbrev Runs := List (Nat × W64 × Nat × Nat) × Nat × List Cap

/-- The runs of blocks of one tensor row, group by group, packed from an offset on. -/
def rowRuns (w : Who) (l : Layout) (row q n off fuel : Nat) : M Runs := do
  match fuel with
  | 0 => return ([], off, [])
  | f + 1 =>
    if n = 0 then return ([], off, [])
    else
      let k := min n (16 - q % 16)
      let (a, cs) ← blockStart w l q Mod.none
      let (stop, ds) ← walkBlocks w l a Mod.none k []
      let len := (stop - a).toNat
      let (rest, last, es) ← rowRuns w l row (q + k) (n - k) (off + len) f
      return ((row, a, off, len) :: rest, last, cs ++ ds ++ es)

/-- The runs of the rows of a copy. What cannot be found faults with its row (R24, R158); the rows in `lost` have been dropped, and
count for the bytes given. -/
def cx8Runs (w : Who) (l : Layout) (first count : Nat) (lost : List (Nat × Nat)) : M Runs :=
  (List.range count).foldlM (fun (acc, off, cs) i => do
    match lost.find? (·.1 = i) with
    | some (_, n) => return (acc, off + n, cs)
    | none => do
      let per := l.cols / 32
      let (more, last, ds) ← atRow 0 i (rowRuns w l i ((first + i) * per) per off (per + 1))
      return (acc ++ more, last, cs ++ ds)) (([] : List (Nat × W64 × Nat × Nat)), 0, [])

/-! ## What CPYSKIP has dropped (R284) -/

/-- A range of bytes without those of a hole. -/
def cutHole (l : List (Nat × Nat)) (h : Nat × Nat) : List (Nat × Nat) :=
  l.flatMap fun r => if h.1 < r.2 && r.1 < h.2 then [(r.1, h.1), (h.2, r.2)].filter (fun x => x.1 < x.2) else [r]

/-- The ranges of bytes of a part of a copy that have not been dropped. -/
def Copy.kept (c : Copy) (i len : Nat) : List (Nat × Nat) :=
  (c.holes.filter (·.1 = i)).foldl (fun l h => cutHole l h.2) [(0, len)]

/-- A copy's place moved past what has been dropped. -/
def Copy.hop (fuel : Nat) (c : Copy) : Copy :=
  match fuel with
  | 0 => c
  | f + 1 =>
    match c.part c.row, c.holes.find? fun h => decide (h.1 = c.row) && decide (h.2.1 ≤ c.byte) && decide (c.byte < h.2.2) with
    | some (_, _, _, len), some h =>
      (if len ≤ h.2.2 then { c with row := c.row + 1, byte := 0 } else { c with byte := h.2.2 }).hop f
    | _, _ => c

/-! ## Faults (R141) -/

/-- A copy fault told to its requester: it waits with the slot; with one waiting there, or with the context gone, a record goes to
the supervisor alone. -/
def State.tellCopyFault (s : State) (core : Nat) (c : Copy) (t : TrapInfo) : State :=
  let sl := s.slot core c.slot
  if sl.st ≠ .free && sl.uid = c.uid && sl.copyFault.isNone then s.modSlot core c.slot fun x => { x with copyFault := some t }
  else s.modCore core (·.queueRecord Cause.copyfault c.slot 0)

/-- What a failed check of a copy reports; the reason of R108 stands in k.tfmt for XLATE alone (R169). -/
def copyFaultInfo (c : Copy) (row : Nat) (t : TrapInfo) : TrapInfo :=
  ⟨Cause.copyfault, if c.op = 2 then c.src else t.tval,
    w64 (t.cause.toNat * 2 ^ 56 + c.tag * 2 ^ 32 + (if c.op = 0 then 0 else row)), 0xFFFF⟩

/-- COPYFAULT_DELIVERY: a waiting fault traps the slot at its instruction boundary (R141). -/
def copyfaultDelivery (core slot : Nat) : M Unit := do
  let s ← get
  let sl := s.slot core slot
  match sl.copyFault with
  | none => require false
  | some t => do
    require (decide (sl.st = .run) && !sl.reissue)
    set (takeTrap t { s.setSlot core slot { sl with copyFault := none } with cur := ⟨core, slot, 0, none⟩ })

def execCopyfaultDelivery (core slot : Nat) : State → Host.Outcome State Fault Refusal := event (copyfaultDelivery core slot)

/-! ## Acceptance (R138) -/

/-- A failed check of a range names the row, or the chunk of a CPY, in which it failed. -/
def atPart {α : Type} (c : Copy) (row : Nat) (start : W64) (m : M α) : M α := fun s =>
  match m s with
  | .error (.trap t) s' => .error (.trap { t with tcoord := w64 (if c.op = 0 then (t.tval - start).toNat / 64 else row) }) s'
  | r => r

/-- The ranges of a copy checked, source or destination, part by part. -/
def checkParts (w : Who) (c : Copy) (kind : Kind) : M (List Cap) :=
  (List.range c.parts).foldlM (fun acc i => do
    match c.part i with
    | some (r, a, b, len) =>
      let start := if kind = .read then a else b
      (c.kept i len).foldlM (fun acc (lo, hi) => do
        return acc ++ (← atPart c r start (rangeOf w kind (start + w64 lo) (hi - lo)))) acc
    | none => return acc) []

/-- The requester's charges: each capability once, and the pips of the bytes. -/
def State.chargeCopy (s : State) (core : Nat) (c : Copy) (caps : List Cap) : State :=
  (s.chargeCtx core c.uid (fld c.chain 0 16) c.pips).chargeCtxCaps core c.uid (fld c.chain 0 16) caps

def Core.putCopy (k : Core) (c : Copy) : Core := { k with copies := k.copies ++ [c] }

/-- A copy's ranges checked under its chain; accepted and charged, or held with its fault told. `more`: capabilities used so far. -/
def acceptCopy (core : Nat) (c : Copy) (more : List Cap) (s : State) : Copy × State :=
  let w := c.who core
  match (do
    let rs ← checkParts w c .read
    let ws ← checkParts w c .write
    return rs ++ ws : M (List Cap)) s with
  | .ok caps t => ({ c with accepted := true, st := .running }, t.chargeCopy core c (more ++ caps))
  | .error (.trap ti) t =>
    let c1 := { c with st := .held, fail := ti.tcoord.toNat }
    (c1, t.tellCopyFault core c1 (copyFaultInfo c1 ti.tcoord.toNat ti))
  | .error _ t => ({ c with st := .held }, t)

/-- The copy of a descriptor; that of a CPYL is not laid out yet. -/
def plainCopy (sl : Slot) (slot world : Nat) (x : CopyDesc) : Copy :=
  let rows := match x.op with
    | 0 => 1
    | 1 => fld x.size 52 12 + 1
    | _ => fld x.size 0 32
  let n := match x.op with
    | 0 => x.size.toNat
    | 1 => fld x.size 32 20
    | _ => 0
  { slot := slot, uid := sl.uid, chain := sl.chain, world := world, op := x.op, msg := flag x.mb0 61, bar := x.bar, tag := x.tag
    src := x.src, dst := x.dst, laid := decide (x.op ≤ 1), first := if x.op ≤ 1 then 0 else fld x.size 32 32, lost := [], base := x.src
    rows := rows, rowBytes := n, srcPitch := 64 * fld x.size 16 16, dstPitch := 64 * fld x.size 0 16
    runs := [], pips := pipsOf (rows * n), accepted := false, row := 0, byte := 0, left := rows * n, holes := [], fail := 0
    written := 0, status := 0, st := .running }

/-- A CPYL's layout record read under the requester's chain (R22). Trans, and rows past the tensor's end, trap SHAPE with `tval`. -/
def Copy.record (c : Copy) (core : Nat) (tval : W64) : M (Layout × List Cap) := do
  let (l, cs) ← readLayoutAs (c.who core) c.src Mod.none
  if l.trans || decide (l.rows < c.first + c.rows) then trapAt Cause.shape tval
  return (l, cs)

/-- A CPYL laid out by its record: rows of elements, packed at the destination, or runs of CX8 blocks. -/
def Copy.lay (c : Copy) (core : Nat) (l : Layout) : M (Copy × List Cap) := do
  let n := l.cols * tySize l.type
  if l.cx8 then
    let (runs, bytes, cs) ← cx8Runs (c.who core) l c.first c.rows c.lost
    let left := bytes - (c.lost.map Prod.snd).sum
    return ({ c with laid := true, runs := runs, pips := pipsOf left, left := left }, cs)
  else
    let left := (c.rows - c.lost.length) * n
    return (({ c with
      laid := true, base := l.addr c.first 0, rowBytes := n, srcPitch := l.pitch, dstPitch := n
      holes := c.lost.map fun x => (x.1, 0, n), pips := pipsOf left, left := left } : Copy).hop (c.lost.length + 1), [])

/-- The copy of a descriptor of CPYL, laid out under the requester's chain: a wrong record, trans, or rows past the tensor's end trap in the
copy slot; any other failure is the requester's, with the row reached. -/
def layoutCopy (core slot world : Nat) (desc : W64) (x : CopyDesc) : M (Option TrapInfo × Copy × List Cap) := do
  let c := plainCopy ((← get).slot core slot) slot world x
  match c.record core desc (← get) with
  | .error (.trap t) s => do
    set s
    if t.cause = Cause.shape || t.cause = Cause.align then throw (.trap t)
    return (some t, c, [])
  | .error e s => do
    set s
    throw e
  | .ok (l, cs) s =>
    match c.lay core l s with
    | .ok (d, ds) t => do
      set t
      return (none, d, cs ++ ds)
    | .error (.trap t) u => do
      set u
      return (some t, c, [])
    | .error e u => do
      set u
      throw e

/-! ## CPY, CPY2D, CPYL -/

/-- Whether a descriptor stands in the mailboxes, by its address. -/
def inMailboxes (ea : W64) : Bool := decide (fld ea 58 3 = 3)

/-- The descriptor read: from a mailbox block once its four words are full, which stay so until the copy slot's checks have
passed; from the scratchpad as a read. -/
def readDesc (core : Nat) (ea : W64) : M (CopyDesc × List Cap) := do
  let (bs, caps) ← if inMailboxes ea then do
      let w ← whoMe
      let pl ← locate w ea .read
      firewall w pl ea [.read, .write]
      let s ← get
      if !((List.range 4).all fun i => s.isFull (ctrlLoc core (fld ea 0 12) + 8 * i)) then block false
      pure (s.bytes pl.loc 32, [])
    else readMine ea 32 8 Mod.none
  return (⟨wordAt bs 0, wordAt bs 1, wordAt bs 2, wordAt bs 3⟩, caps)

/-- The four words of a mailbox block emptied in one cycle. -/
def emptyBlock (core : Nat) (ea : W64) : M Unit := do
  if inMailboxes ea then
    modify fun s => (List.range 4).foldl (fun t i => t.setFull (ctrlLoc core (fld ea 0 12) + 8 * i) false) s

def copyInstr (op : Nat) (d a : Reg) : M Ctl := waiting [d, a] none do
  let s ← get
  if s.cur.slot ≠ 14 then trapPriv
  let core := s.cur.core
  let n ← rd d
  let ea ← rd a
  if ea.toNat % 32 ≠ 0 then trapAt Cause.align ea
  if fld ea 61 3 ≠ 6 || (fld ea 58 3 ≠ 0 && fld ea 58 3 ≠ 3) || (inMailboxes ea && fld ea 0 58 ≥ 0x200) then trapXlate 5 ea
  if inMailboxes ea && n.toNat ≠ fld ea 5 4 then trapAt Cause.illegal ea
  if n.toNat > 14 then trapAt Cause.illegal ea
  let (x, caps) ← readDesc core ea
  if x.op ≤ 2 && x.op ≠ op then trapAt Cause.illegal ea
  let slot := n.toNat
  let sl := (← get).slot core slot
  let world := s.myWorld
  if !x.fieldsOk || !x.sizeOk then
    if !inMailboxes ea then trapAt Cause.illegal ea
    emptyBlock core ea
    modify fun s => s.tellCopyFault core (plainCopy sl slot world x)
      ⟨Cause.copyfault, ea, w64 (Cause.illegal.toNat * 2 ^ 56 + x.tag * 2 ^ 32), tfmtNone⟩
  else
    if ((← get).core core).copies.length ≥ 16 then block false
    if op = 2 then
      let (bad, c, lcs) ← layoutCopy core slot world ea x
      emptyBlock core ea
      chargeCaps caps
      match bad with
      | some t => modify fun s =>
          let c1 := { c with st := .held, fail := t.tcoord.toNat }
          (s.tellCopyFault core c1 (copyFaultInfo c1 t.tcoord.toNat t)).modCore core (·.putCopy c1)
      | none => modify fun s =>
          let (c1, t) := acceptCopy core c lcs s
          t.modCore core (·.putCopy c1)
    else
      emptyBlock core ea
      chargeCaps caps
      modify fun s =>
        let (c1, t) := acceptCopy core (plainCopy sl slot world x) [] s
        t.modCore core (·.putCopy c1)

def execCpy (d a : Reg) : State → Host.Outcome State Fault Refusal := run (copyInstr 0 d a)
def execCpy2d (d a : Reg) : State → Host.Outcome State Fault Refusal := run (copyInstr 1 d a)
def execCpyl (d a : Reg) : State → Host.Outcome State Fault Refusal := run (copyInstr 2 d a)

/-! ## Chunks (R139) -/

/-- Bytes that an engine reads at their targets, checked piece by piece, with the capabilities used. -/
def engineSpan (w : Who) (ea : W64) (n : Nat) : M (List Byte × List Cap) :=
  (spanPieces ea n).foldlM (fun (bs, cs) (a, k) => do
    let (pl, cap) ← checkPiece w a 1 .read
    if pl.space = .hbm then lineIn w (pl.loc / 64) pl.pin a
    return (bs ++ (← get).bytes pl.loc k, cs ++ [cap])) ([], [])

def engineRead (w : Who) (ea : W64) (n : Nat) : M (List Byte) := do return (← engineSpan w ea n).1

/-- A write of an engine at its target, checked first (R99); it is not made while a word of it is held at its bank. -/
def engineWrite (w : Who) (ea : W64) (bs : List Byte) (land : State → M State) : M Unit := do
  let ps ← writePieces w [(ea, bs)] 1
  ps.forM fun (a, pl, _, b) => do
    if pl.space = .hbm && b.length ≠ 64 then lineIn w (pl.loc / 64) pl.pin a
  let cells := ps.flatMap fun (_, pl, _, b) => cellsAt pl.loc b
  let s ← get
  if (s.busyWord cells).isSome then block false
  let s1 ← land s
  set (ps.foldl (fun t (_, pl, _, b) => t.performWrite w.core 0 w.world (fun _ => pl.pin) (cellsAt pl.loc b)) s1)

/-- The barrier that a copy or a record names, checked as R230 checks one, and the landing of bytes on it: an underflow is refused
with BAR_BYTES (R232). The checks of the address are the model's reading (log 24). -/
def landOn (w : Who) (bar : Option W64) (n : Nat) (s : State) : M State := do
  match bar with
  | none => return s
  | some ea => do
    let (pl, _) ← barPlace w ea
    match (← get).barLand w.core w.world pl.loc n with
    | some t => return t
    | none => trapAt Cause.barBytes ea

/-- A copy's place after `n` bytes of its part have been written. -/
def Copy.advance (c : Copy) (n len : Nat) : Copy :=
  let c1 := { c with written := c.written + n, left := c.left - n }
  (if c.byte + n < len then { c1 with byte := c.byte + n } else { c1 with row := c.row + 1, byte := 0 }).hop (c.holes.length + 1)

/-- A copy with nothing left ends: it waits to send its message, or it is gone. -/
def Copy.finish (c : Copy) : List Copy :=
  if c.row < c.parts then [c] else if c.msg then [{ c with st := .done }] else []

def Core.setCopy (k : Core) (i : Nat) (cs : List Copy) : Core := { k with copies := k.copies.take i ++ cs ++ k.copies.drop (i + 1) }

/-- The span of destination addresses of a copy. -/
def Copy.span (c : Copy) : Nat × Nat :=
  let ends := if c.runs.isEmpty then c.dst.toNat + (c.rows - 1) * c.dstPitch + c.rowBytes
    else c.dst.toNat + (c.runs.map fun r => r.2.2.2).sum
  (c.dst.toNat, ends)

/-- Whether an earlier copy of the same requester must land first (R139). A held one does not hold up the others (R141). -/
def Copy.blocks (c d : Copy) : Bool :=
  decide (c.slot = d.slot) && decide (c.st = .running) && decide (c.span.1 < d.span.2) && decide (d.span.1 < c.span.2)

/-- The next chunk of a copy. -/
def chunk (core : Nat) (c : Copy) : M (Option Nat) := do
  match c.part c.row with
  | none => return none
  | some (_, a, b, len) => do
    let w := c.who core
    let n := min 64 (len - c.byte)
    let bs ← engineRead w (a + w64 c.byte) n
    engineWrite w (b + w64 c.byte) bs (landOn w c.bar n)
    return some n

/-- COPY_CHUNK: the k-th copy of the engine moves one chunk; where a check fails it is held and its requester is told (R141). -/
def copyChunk (core k : Nat) : M Unit := do
  let s ← get
  match (s.core core).copies[k]? with
  | none => require false
  | some c => do
    require (decide (c.st = .running) && !(s.world c.world).stopped && !((s.core core).copies.take k).any (·.blocks c))
    match chunk core c s with
    | .ok (some n) t =>
      let len := match c.part c.row with
        | some (_, _, _, z) => z
        | none => 0
      set (t.modCore core fun q => (q.setCopy k (c.advance n len).finish).tally 0x21 0 1)
    | .ok none t => set (t.modCore core (·.setCopy k c.finish))
    | .error (.trap ti) t =>
      let row := match c.part c.row with
        | some (r, _) => r
        | none => 0
      let c1 := { c with st := .held, fail := if c.op = 0 then c.byte / 64 else row }
      set ((t.modCore core (·.setCopy k [c1])).tellCopyFault core c1 (copyFaultInfo c1 row ti))
    | .error _ _ => require false

def execCopyChunk (core k : Nat) : State → Host.Outcome State Fault Refusal := event (copyChunk core k)

/-! ## Completion (R140) -/

/-- A header word (R143), without its valid bit. -/
def msgHeader (core slot kind : Nat) : W64 := w64 (core * 2 ^ 21 + slot * 2 ^ 17 + kind * 2 ^ 13)

/-- The scope of the acquire that the message of a copy carries, by its destination's level. -/
def pathScope (path : Nat) : BitVec 3 :=
  match path with
  | 0 => 1
  | 1 => 2
  | _ => 4

/-- COPY_COMPLETION_MESSAGE: a finished copy sends its message to its requester's slot. -/
def copyCompletionMessage (core k : Nat) : M Unit := do
  let s ← get
  match (s.core core).copies[k]? with
  | none => require false
  | some c => do
    require (decide (c.st = .done) && !(s.world c.world).stopped)
    let msg : Msg := ⟨msgHeader core 14 1, w64 (c.status * 2 ^ 56 + c.tag * 2 ^ 16), w64 c.written, pathScope (pathOf c.dst)⟩
    set { s.modCore core (·.setCopy k []) with net := s.net ++ [NetMsg.mk core c.slot msg none] }

def execCopyCompletionMessage (core k : Nat) : State → Host.Outcome State Fault Refusal := event (copyCompletionMessage core k)

/-! ## DRAIN (R142) -/

/-- A target's path, as stores keep it (R244). -/
def targetPath (t : Nat) : Nat := if t = 0 then 0 else if t ≤ 512 then 1 else if t = 600 then 2 else 3

def drain (path : Num2) : M Ctl := do
  let s ← get
  let core := s.cur.core
  let slot := s.cur.slot
  if s.isFull (ctrlLoc core (32 * slot)) then block false
  if s.myCore.copies.any fun c => decide (c.slot = slot) && c.accepted && decide (pathOf c.dst = path.toNat) && decide (c.st ≠ .done) then block false
  modify (·.performSlot core slot)
  let s ← get
  if s.myCore.sb.any fun e => decide (e.uid = s.me.uid) && e.targets.any fun t => decide (targetPath t = path.toNat) then block false
  if path = 3 then acquireAt 4
  return .done

def execDrain (path : Num2) : State → Host.Outcome State Fault Refusal := run (drain path)

/-! ## Held copies (R284) -/

/-- The oldest held copy that a CPYRETRY, CPYSKIP or CPYABORT names. -/
def heldCopy (v : W64) : M (Nat × Copy) := do
  if fld v 4 12 ≠ 0 || fld v 32 32 ≠ 0 || fld v 0 4 > 13 then trapAt Cause.illegal v
  let c ← getCore
  match (List.range c.copies.length).find? (fun i => match c.copies[i]? with
    | some x => decide (x.st = .held) && decide (x.slot = fld v 0 4) && decide (x.tag = fld v 16 16)
    | none => false) with
  | some i =>
    match c.copies[i]? with
    | some x => return (i, x)
    | none => trapAt Cause.illegal v
  | none => trapAt Cause.illegal v

/-- Bytes dropped or not written are subtracted from the copy's barrier; an underflow is refused. -/
def dropBytes (w : Who) (bar : Option W64) (n : Nat) : M Unit := do
  let s ← get
  match landOn w bar n s s with
  | .ok t _ => set t
  | .error _ _ => pure ()

/-- The acceptance of a held copy made again, laid out first where it has not been (R284). Once accepted it is the latest of its
requester's copies (R139). -/
def State.acceptAgain (s : State) (core i : Nat) (c : Copy) : State :=
  let held := fun (t : TrapInfo) (u : State) =>
    let c1 := { c with st := .held, fail := t.tcoord.toNat }
    (u.tellCopyFault core c1 (copyFaultInfo c1 t.tcoord.toNat t)).modCore core (·.setCopy i [c1])
  let lay : M (Copy × List Cap) := do
    if c.laid then return (c, [])
    let (l, cs) ← c.record core c.src
    let (d, ds) ← c.lay core l
    return (d, cs ++ ds)
  match lay s with
  | .error (.trap t) u => held t u
  | .error _ u => u
  | .ok (d, cs) u =>
    let (c1, t) := acceptCopy core d cs u
    if c1.accepted then t.modCore core fun k => (k.setCopy i []).putCopy c1 else t.modCore core (·.setCopy i [c1])

def cpyretry (a : Reg) : M Ctl := waiting [a] none do
  supOnly
  let (i, c) ← heldCopy (← rd a)
  if c.accepted then modCore (·.setCopy i [{ c with st := .running }])
  else modify fun s => s.acceptAgain s.cur.core i c

def execCpyretry (a : Reg) : State → Host.Outcome State Fault Refusal := run (cpyretry a)

/-- The holes that CPYSKIP makes: the failed chunk of a CPY; what is left of the failed row, in all its runs, of the others (R284). -/
def Copy.failed (c : Copy) : List (Nat × Nat × Nat) :=
  let from_ := fun (i : Nat) => if i = c.row then c.byte else 0
  if c.op = 0 then [(0, 64 * c.fail, min (64 * c.fail + 64) c.rowBytes)]
  else if c.runs.isEmpty then [(c.fail, from_ c.fail, c.rowBytes)]
  else (List.range c.runs.length).filterMap fun i =>
    match c.runs[i]? with
    | some (r, _, _, n) => if r = c.fail && c.row ≤ i then some (i, from_ i, n) else none
    | none => none

/-- The bytes of holes. -/
def holeBytes (l : List (Nat × Nat × Nat)) : Nat := (l.map fun h => h.2.2 - h.2.1).sum

/-- A laid-out copy without what failed. -/
def Copy.skip (c : Copy) : Copy :=
  let left := c.left - holeBytes c.failed
  let c1 := { c with
    holes := c.holes ++ c.failed, left := left, pips := if c.accepted then c.pips else pipsOf left, status := 1 }
  c1.hop (c1.holes.length + 1)

/-- CPYSKIP. A copy refused at acceptance is then accepted or refused anew, without what was dropped; where its layout could not be read,
what the failed row counts for is a free value (log 96). -/
def cpyskip (a : Reg) : M Ctl := waiting [a] none do
  supOnly
  let (i, c) ← heldCopy (← rd a)
  let s ← get
  if c.laid then
    dropBytes (c.who s.cur.core) c.bar (holeBytes c.failed)
    if c.accepted then modCore (·.setCopy i ({ c.skip with st := .running } : Copy).finish)
    else if c.skip.row < c.parts then modify fun s => s.acceptAgain s.cur.core i c.skip
    else modCore (·.setCopy i c.skip.finish)
  else
    let n := Config.droppedBytes s.freeCtr
    set { s with freeCtr := s.freeCtr + 1 }
    dropBytes (c.who s.cur.core) c.bar n
    match ((List.range (c.lost.length + 1)).map (c.fail + ·)).find? fun r => decide (r < c.rows) && !c.lost.any (·.1 = r) with
    | some r => modify fun s => s.acceptAgain s.cur.core i { c with lost := c.lost ++ [(r, n)], status := 1 }
    | none => modCore (·.setCopy i ({ c with status := 1, row := c.parts, left := 0 } : Copy).finish)

def execCpyskip (a : Reg) : State → Host.Outcome State Fault Refusal := run (cpyskip a)

/-- CPYABORT. The bytes of a CPYL whose layout could not be read are a free value (log 96). -/
def cpyabort (a : Reg) : M Ctl := waiting [a] none do
  supOnly
  let (i, c) ← heldCopy (← rd a)
  let s ← get
  let left := if c.laid then c.left else Config.droppedBytes s.freeCtr
  if !c.laid then set { s with freeCtr := s.freeCtr + 1 }
  dropBytes (c.who s.cur.core) c.bar left
  modCore (·.setCopy i ({ c with status := 2, row := c.parts, left := 0 } : Copy).finish)

def execCpyabort (a : Reg) : State → Host.Outcome State Fault Refusal := run (cpyabort a)

end Sys2Proof.Machine
end

