-- ==== Sys2Proof/Machine/Tasks.lean ====
section
/-! DEFINITION. The fork-join family (R103 to R107): SPAWN, SYNC, YIELD, TEXIT, PKTGET. -/

namespace Sys2Proof.Machine

/-- The acting thread's context leaves by parking, with its pc where it resumes; its next run is a new issue unless it waits on
its watch set (R62, R104, R105, R227). -/
def parkMe (pc : W64) (p : Park) (again : Bool) : M Ctl := do
  modMe fun sl => { sl with pc := pc, waitpc := sl.pc, reissue := again, charged := [] }
  modify fun s => s.park s.cur.core s.cur.slot p
  return .gone

def nextAddr : M W64 := do
  let s ← get
  return s.me.pc + w64 s.cur.len

/-- The lowest unit that a slot claims, as k.tval names it (R103, R186). -/
def claimedUnit (sl : Slot) : Option Nat :=
  match sl.myAccs, sl.myPlanes with
  | n :: _, _ => some n
  | [], n :: _ => some (0x10 + n)
  | [], [] => none

/-- The continuation of a task that spawns (R103). -/
def continuation (sl : Slot) (world : Nat) (pc : W64) : Vector W64 8 :=
  #v[pc, w64 (sl.task.toNat % 2 ^ 32 * 2 ^ 32 + world * 2 ^ 24 + sl.scope * 2 ^ 21 + sl.band * 2 ^ 19 + fld sl.chain 0 19),
    sl.reg 1, sl.join, sl.fmt, sl.scl, sl.reg 2, sl.reg 3]

/-- The increment of the child's join word, in its bank's order (R103). -/
def spawnJoin (pl : Place) (pips : Nat) : M Unit := do
  let w ← whoMe
  modify (·.performWord w.core w.slot pl.loc)
  askTurn pl.loc (← turnReq .spawn 0 0 0 ⟨0, 4, 0⟩ pl pips)

/-- The checks of SPAWN, each made once; then its capabilities are charged, the child is kept in the slot, and its join word is
incremented. -/
def spawnBegin (a : Reg) : M Unit := do
  let me ← getMe
  match claimedUnit me with
  | some n => trapAt Cause.accOwn (w64 n)
  | none => pure ()
  let ea ← rd a
  if ea.toNat % 64 ≠ 0 then trapAt Cause.align ea
  let (bs, caps) ← readMine ea 64 8 Mod.none
  let s ← get
  let w := s.acceptWords s.myWorld (packetWords bs)
  match malformed w with
  | some c => trapAt c ea
  | none => pure ()
  if fld w[1] 0 16 ≠ fld me.chain 0 16 then trapAt Cause.chainDenied ea
  if w[3] = 0 then
    chargeCaps caps
    modMe fun sl => { sl with spawning := some w }
  else
    let (pl, cap) ← syncPlace (← whoMe) w[3] .atomic
    chargeCaps caps
    modMe fun sl => { sl with spawning := some w }
    spawnJoin pl (if caps.any fun c => decide (c.id = cap.id) then 0 else cap.charge)

/-- The end of a SPAWN whose increment is complete (R103): the continuation is pushed, the segment is split, and the child's task takes
the slot. None where the push finds room at no level. -/
def State.spawnEnd (s : State) (core slot len : Nat) (child : Vector W64 8) : Option State :=
  let me := s.slot core slot
  let kept : Packet := ⟨continuation me (s.core core).world (me.pc + w64 len), s.cycle, false⟩
  let p : Packet := ⟨child, s.cycle, false⟩
  (s.pushLocal core me.band kept).map fun u =>
    ((((u.splitSegment core slot).revokeAll me.uid).takeRef p.cix).loadSlot core slot p).modSlot core slot fun sl =>
      sl.after sl.pc .wait .complete

/-- SPAWN: its checks and its increment once, then its end, for which it may wait for room (R60). -/
def spawn (a : Reg) : M Ctl := do
  workOnly
  if (← getMe).spawning.isNone then withPorts [a] none fun _ => spawnBegin a
  let s ← get
  match s.me.spawning.bind (s.spawnEnd s.cur.core s.cur.slot s.cur.len) with
  | none => block false
  | some t => do
    set t
    return .gone

def execSpawn (a : Reg) : State → Host.Outcome State Fault Refusal := run (spawn a)

/-- The waiter of the acting context put in the table (R235). -/
def installWaiter (va : Nat) : M Unit := modify fun s =>
  { s with waitTable := s.waitTable ++ [⟨s.myWorld, va, s.cur.core, s.me.uid⟩] }

def tableFull : M Bool := do return decide (65536 ≤ (← get).waitTable.length)

/-- SYNC (R104). Its read is made behind the installation of the waiter, so it is not served from an older L1 copy: the L1 is invalidated
before the read too (DEDUCED, log 90). -/
def sync (a : Reg) : M Ctl := withPorts [a] none fun _ => do
  workOnly
  let ea ← rd a
  if ea.toNat % 8 ≠ 0 then trapAt Cause.align ea
  if ← tableFull then trapAt Cause.waittableFull ea
  let w ← whoMe
  let (pl, cap) ← checkAccess w ea 8 .read [.read]
  acquireAt 4
  let bs ← loadPlace w pl 8 ⟨1, 4, 0⟩ ea
  chargeCap cap
  acquireAt 4
  if leToNat bs = 0 then return .done
  else
    installWaiter ea.toNat
    parkMe (← getMe).pc .waiter false

def execSync (a : Reg) : State → Host.Outcome State Fault Refusal := run (sync a)

def yieldTask : M Ctl := do
  workOnly
  let pc ← nextAddr
  parkMe pc (.ready (← get).cycle) false

def execYield : State → Host.Outcome State Fault Refusal := run yieldTask

/-- Channels that served an instruction of a context that ends (R182). -/
def Core.dropChannels (c : Core) (uid : Nat) : Core :=
  { c with chanRx := c.chanRx.filter (fun q => q.2 ≠ uid), chanTx := c.chanTx.filter (fun q => q.2 ≠ uid) }

/-- A task retires (R106, R290, R291): its segment is split, its units and reservations are given up, its reference is dropped, and its
slot is free. -/
def State.retire (s : State) (core slot : Nat) : State :=
  let sl := s.slot core slot
  let s1 := ((s.splitSegment core slot).revokeAll sl.uid).dropRef (fld sl.chain 0 16)
  s1.modCore core fun k =>
    (((k.dropUnits s.cycle slot sl.myAccs sl.myPlanes).dropCopyFault slot).dropQuantumRecord slot |>.dropChannels sl.uid).setSlot slot
      Slot.init

/-- TEXIT waits until its task may retire: its earlier stores are performed, and no sibling holds its accumulators. -/
def retireReady : M Unit := do
  modify fun s => s.performSlot s.cur.core s.cur.slot
  let s ← get
  if s.hasDeferred s.cur.core s.me.uid || s.unitsLocked s.cur.core s.cur.slot then throw (.wait .retiring)

/-- TEXIT (R106): the task retires in the step in which its join word is decremented (R291). The wait for earlier stores comes before
the check, which is made once. -/
def texit : M Ctl := do
  workOnly
  let me ← getMe
  if me.join = 0 then
    if (← get).unitsLocked (← get).cur.core (← get).cur.slot then throw (.wait .retiring)
  else
    retireReady
    let (pl, cap) ← syncPlace (← whoMe) me.join .atomic
    chargeCap cap
    askTurn pl.loc (← turnReq .texit 0 me.join 0 ⟨2, 4, 0⟩ pl 0)
  modify fun s => s.retire s.cur.core s.cur.slot
  return .gone

def execTexit : State → Host.Outcome State Fault Refusal := run texit

/-- The packet image, with the chain that the context has now (R107). -/
def Slot.packetImage (sl : Slot) : Vector W64 8 :=
  let w1 := sl.pkt[1]
  sl.pkt.set 1 (w64 (fld w1 16 48 * 2 ^ 16 + fld sl.chain 0 16))

def pktget (a : Reg) : M Ctl := waiting [a] none do
  workOnly
  let ea ← rd a
  if ea.toNat % 64 ≠ 0 then trapAt Cause.align ea
  let w ← whoMe
  let caps ← writeRow w [(ea, packetBytes (← getMe).packetImage)] 8
  chargeCaps caps

def execPktget (a : Reg) : State → Host.Outcome State Fault Refusal := run (pktget a)

/-! ## Grants of the banks (R219) -/

/-- How a granted request leaves its thread: a SPAWN pushes its continuation and runs its child, or waits for room; a TEXIT retires; the
others complete. -/
def State.afterGrant (s : State) (r : TurnReq) : State :=
  match r.kind with
  | .dead => s
  | .spawn =>
    match (s.slot r.core r.slot).spawning.bind (s.spawnEnd r.core r.slot r.len) with
    | some t => t
    | none => s.modSlot r.core r.slot fun sl => { sl with waiting := .blocked false }
  | .texit => s.retire r.core r.slot
  | _ => s.modSlot r.core r.slot fun sl => sl.after (sl.pc + w64 r.len) .wait .complete

/-- RESERVATION_GRANT: a word given back goes to the next request of its queue (R219). A TEXIT is not granted while a sibling holds an
accumulator of its task (R191). -/
def reservationGrant (loc : Nat) : M Unit := do
  let s ← get
  match (s.bank loc).queue with
  | [] => require false
  | r :: rest => do
    require ((s.bank loc).holder.isNone && !(decide (r.kind = .texit) && s.unitsLocked r.core r.slot))
    set (((s.setBank loc { s.bank loc with queue := rest }).turnServe loc r).afterGrant r)

def execReservationGrant (loc : Nat) : State → Host.Outcome State Fault Refusal := event (reservationGrant loc)

end Sys2Proof.Machine
end

