-- ==== Sys2Proof/Machine/Image.lean ====
section
/-! DEFINITION. Context images (R280 to R283): their bytes, their seal, and CTXOUT and CTXIN. -/

namespace Sys2Proof.Machine

/-! ## Writing an image (R282) -/


/-- Watch set entries 0 to 3, 16 bytes each. -/
def watchBytes (l : List Watch) : List Byte :=
  (List.range 4).flatMap fun i =>
    match l[i]? with
    | some x => wordsLe [x.addr, w64 (1 + 2 * boolNat x.triggered)]
    | none => zeros 16

/-- One engine's part, 128 bytes: staged words, counts, unfinished commands, the result ring from head to tail. -/
def engineBytes (p : EngPart) : List Byte :=
  let n := p.results.length
  let staged := (List.range 4).map fun i => p.staged[i]?.getD 0
  let ring := (List.range 8).map fun i =>
    let k := (i + 8 - p.head) % 8
    if k < n then p.results[k]?.getD 0 else 0
  wordsLe (staged ++ [w64 (p.staged.length + n * 2 ^ 8 + p.head * 2 ^ 16 + (p.head + n) % 8 * 2 ^ 20), w64 p.unfinished, 0, 0] ++ ring)

/-- Image offsets 0x040 to 0x47F: registers, k-registers, packet image, watch set, engines. `left`: k.quantum. -/
def contextBytes (sl : Slot) (left : Nat) : List Byte :=
  wordsLe ((List.range 32).map fun i => if i = 0 then 0 else vat 0 sl.s i) ++
  wordsLe [sl.pc, w64 ((List.range 8).foldl (fun acc i => acc + boolNat (vat false sl.p i) * 2 ^ i) 0), sl.chain, sl.task, sl.fmt, sl.scl,
    sl.fpc, sl.flags, sl.restart, sl.meter, w64 left, sl.join, w64 (sl.band + 4 * boolNat sl.aged), sl.cause, sl.epc, sl.tval, sl.tcoord,
    sl.tfmt] ++
  wordsLe sl.packetImage.toList ++ watchBytes sl.watch ++
  (List.range 4).flatMap (fun e => engineBytes (sl.engine e)) ++ zeros 48

def tileBytes (t : Tile) : List Byte :=
  wordsLe [t.shape] ++ zeros 56 ++ t.scales.toList.flatMap (fun v => natToLe 4 v.toNat) ++
  (List.range (shRows t.shape)).flatMap fun i => natToLe 64 (vat 0 t.rows i).toNat

/-- An accumulator's state word (R188). -/
def accState (a : Acc) : W64 :=
  w64 (boolNat a.lock.isSome * 2 ^ 9 + boolNat a.claimed * 2 ^ 8 + a.owner % 16 * 2 ^ 4 + a.type.toNat)

def accBytes (a : Acc) : List Byte :=
  wordsLe [accState { a with lock := none }] ++ zeros 56 ++ a.rows.toList.flatMap fun r => natToLe 512 r.toNat

def halfBytes (h : Half) : List Byte :=
  wordsLe [h.shape] ++ zeros 56 ++ h.scales.toList.flatMap (fun v => natToLe 4 v.toNat) ++
  (List.range 64).flatMap fun k => (List.range 128).flatMap fun n => natToLe 2 (h.weight k n)

def planeBytes (p : Plane) : List Byte := halfBytes p.active ++ halfBytes p.shadow

/-- The scratchpad window, then its full/empty bits. -/
def State.windowBytes (s : State) (core woff wlen : Nat) : List Byte :=
  s.bytes (spadLoc core woff) wlen ++
  (List.range (wlen / 64)).map fun j => BitVec.ofNat 8 ((List.range 8).foldl (fun acc i =>
    acc + boolNat (s.isFull (spadLoc core (woff + 8 * (8 * j + i)))) * 2 ^ i) 0)

/-- A length rounded up to a multiple of 16. -/
def up16 (n : Nat) : Nat := (n + 15) / 16 * 16

/-- The length of an image (R283), from the rows of its live tiles in all. -/
def imageLen (tiles rows accs planes wlen : Nat) : Nat :=
  up16 (0x480 + 192 * tiles + 64 * rows + 16448 * accs + 33920 * planes + wlen + wlen / 64) + 16

def maskOf (l : List Nat) : Nat := l.foldl (fun acc i => acc + 2 ^ i) 0

def CtxEntry.rowsInAll (e : CtxEntry) : Nat := (e.ctx.liveTiles.map fun t => shRows (vat Tile.empty e.ctx.tiles t).shape).sum

/-- The header in the clear. -/
def imageHeader (e : CtxEntry) (counter world index n woff wlen : Nat) : List Byte :=
  wordsLe [w64 (0x51374358 * 2 ^ 32 + 2 ^ 16), w64 (counter * 2 ^ 32 + world * 2 ^ 12 + index), w64 n,
    w64 (maskOf e.ctx.liveTiles + maskOf (e.accs.map Prod.fst) * 2 ^ 8 + maskOf (e.planes.map Prod.fst) * 2 ^ 16), w64 woff, w64 wlen, 0, 0]

/-- The body, from 0x040 up to the tag. -/
def State.imageBody (s : State) (core : Nat) (e : CtxEntry) (n woff wlen : Nat) : List Byte :=
  let bs := contextBytes e.ctx (e.ctx.quantum.getD 0) ++ e.ctx.liveTiles.flatMap (fun t => tileBytes (vat Tile.empty e.ctx.tiles t)) ++
    e.accs.flatMap (fun a => accBytes a.2) ++ e.planes.flatMap (fun p => planeBytes p.2) ++ s.windowBytes core woff wlen
  bs ++ zeros (n - 16 - 64 - bs.length)

/-- The name of the per-context key: of a world's context-save key, over the context id (R40). -/
def State.imageKey (s : State) (world index : Nat) : Nat := Config.contextKey (s.world world).ctxKey (world * 2 ^ 12 + index)

/-- The IV of an image: bytes 8 to 15 of its header. -/
def headerIv (h : List Byte) : Nat := leToNat ((h.drop 8).take 8)

/-- Header, enciphered body, tag. -/
def sealed (key : Nat) (header body : List Byte) : List Byte :=
  let ct := gcmXor key (headerIv header) body
  header ++ ct ++ gcmTagOf key (headerIv header) header ct

/-! ## Reading one -/

/-- Bytes taken from the front. -/
def wordIn (bs : List Byte) (off : Nat) : W64 := w64 (leToNat ((bs.drop off).take 8))

def engineOf (bs : List Byte) : EngPart :=
  let c := wordIn bs 32
  let head := fld c 16 3
  { staged := (List.range (min 4 (fld c 0 3))).map fun i => wordIn bs (8 * i)
    results := (List.range (min 8 (fld c 8 4))).map fun i => wordIn bs (64 + 8 * ((head + i) % 8))
    head := head, unfinished := (wordIn bs 40).toNat }

/-- A watch entry restored: triggered, whatever it was (R280). -/
def watchesOf (bs : List Byte) : List Watch :=
  (List.range 4).filterMap fun i =>
    if flag (wordIn bs (16 * i + 8)) 0 then some ⟨wordIn bs (16 * i), 0, 0, true⟩ else none

/-- A context from image offsets 0x040 on. -/
def contextOf (bs : List Byte) (uid : Nat) : Slot :=
  let k := fun (i : Nat) => wordIn bs (256 + 8 * i)
  let pkt := packetWords (bs.drop 0x190)
  { Slot.init with
    st := .wait
    s := Vector.ofFn fun i => wordIn bs (8 * i.val), pc := k 0, p := Vector.ofFn fun i => flag (k 1) i.val
    chain := k 2, task := k 3, fmt := k 4, scl := k 5, fpc := k 6, flags := k 7, restart := k 8, meter := k 9
    quantum := if k 10 = 0 then none else some (k 10).toNat, join := k 11, band := fld (k 12) 0 2, aged := flag (k 12) 2
    cause := k 13, epc := k 14, tval := k 15, tcoord := k 16, tfmt := k 17
    pkt := pkt, scope := fld pkt[1] 21 3, watch := watchesOf (bs.drop 0x1D0)
    eng := Vector.ofFn fun e => engineOf (bs.drop (0x210 + 128 * e.val)), uid := uid }

def tileOf (bs : List Byte) : Tile :=
  let shape := wordIn bs 0
  let r := shRows shape
  ⟨shape, Vector.ofFn fun i => if i.val < r then BitVec.ofNat 512 (leToNat ((bs.drop (192 + 64 * i.val)).take 64)) else 0,
    Vector.ofFn fun i => BitVec.ofNat 32 (leToNat ((bs.drop (64 + 4 * i.val)).take 4))⟩

/-- Live tiles read in ascending order; what is left after them. -/
def tilesOf (live : List Nat) (bs : List Byte) (acc : Vector Tile 8) : Vector Tile 8 × List Byte :=
  match live with
  | [] => (acc, bs)
  | t :: rest =>
    let x := tileOf bs
    tilesOf rest (bs.drop (192 + 64 * shRows x.shape)) (acc.setIfInBounds t x)

def accOf (bs : List Byte) : Acc :=
  let w := wordIn bs 0
  ⟨w.setWidth 2, true, 0, none, [], Vector.ofFn fun i => BitVec.ofNat 4096 (leToNat ((bs.drop (64 + 512 * i.val)).take 512))⟩

def halfOf (bs : List Byte) : Half :=
  ⟨wordIn bs 0, Vector.ofFn fun k => BitVec.ofNat 2048 (leToNat ((bs.drop (576 + 256 * k.val)).take 256)),
    Vector.ofFn fun i => BitVec.ofNat 32 (leToNat ((bs.drop (64 + 4 * i.val)).take 4))⟩

def planeOf (bs : List Byte) : Plane := ⟨true, 0, halfOf bs, halfOf (bs.drop 16960)⟩

/-- A held entry from a body and the masks of its header; the window's bytes after it. -/
def entryOf (body : List Byte) (masks uid : Nat) : CtxEntry × List Byte :=
  let (tiles, b1) := tilesOf (bitsOf 8 masks) (body.drop 0x440) Slot.init.tiles
  let accs := bitsOf 8 (masks / 2 ^ 8)
  let planes := bitsOf 4 (masks / 2 ^ 16)
  let b2 := b1.drop (16448 * accs.length)
  let ctx := { contextOf body uid with
    tiles := tiles, accown := BitVec.ofNat 8 (masks / 2 ^ 8), plown := BitVec.ofNat 4 (masks / 2 ^ 16) }
  ({ ctx := ctx, st := .held, accs := accs.mapIdx fun i a => (a, accOf (b1.drop (16448 * i)))
     planes := planes.mapIdx fun i p => (p, planeOf (b2.drop (33920 * i))), bumped := false },
    b2.drop (33920 * planes.length))

/-- The window's bytes and full/empty bits placed in the core's scratchpad. -/
def State.placeWindow (s : State) (core uid world woff wlen : Nat) (bs : List Byte) : State :=
  let s1 := if wlen = 0 then s else s.performWrite core uid world (fun _ => none) (cellsAt (spadLoc core woff) (bs.take wlen))
  let bits := bs.drop wlen
  (List.range (wlen / 8)).foldl (fun t q =>
    t.setFull (spadLoc core (woff + 8 * q)) (((bits[q / 8]?.getD 0)).getLsbD (q % 8))) s1

/-! ## CTXOUT and CTXIN -/

/-- A descriptor of CTXOUT or CTXIN, and the capabilities used. -/
def readCtxDesc (a : W64) : M (CopyDesc × List Cap) := do
  if a.toNat % 32 ≠ 0 then trapAt Cause.align a
  if fld a 58 6 ≠ 0x30 then trapXlate 5 a
  let (bs, caps) ← readMine a 32 8 Mod.none
  return (⟨wordAt bs 0, wordAt bs 1, wordAt bs 2, wordAt bs 3⟩, caps)

/-- The image last saved under an index can no longer be restored: the reference of the context in it is dropped (R16). -/
def State.dropSaved (s : State) (world index : Nat) : State :=
  match (s.world world).savedChain.find? fun e => decide (e.1 = index) with
  | some (_, cix) => (s.modWorld world fun y => { y with savedChain := Sparse.drop y.savedChain index }).dropRef cix
  | none => s

/-- The checks of an image address (R280). -/
def imageAddr (ea : W64) : M Unit := do
  if ea.toNat % 16 ≠ 0 then trapAt Cause.align ea
  if fld ea 61 3 ≠ 0 then trapXlate 5 ea

/-- Whether a world's context-save key has expired; a world without one has none to use. -/
def State.ctxKeyDead (s : State) (w : Nat) : Bool := decide ((s.world w).ctxKey = 0) || decide ((s.world w).ctxExpiry ≤ s.meridian)

/-- The pieces of 64 bytes of an image, each checked as a write and then performed (R280). -/
def writeImage (w : Who) (ea : W64) (bs : List Byte) (fuel : Nat) : M Unit := do
  match fuel with
  | 0 => pure ()
  | f + 1 =>
    if bs.isEmpty then pure ()
    else
      let k := 64 - ea.toNat % 64
      let ps ← writePieces w [(ea, bs.take k)] 1
      ps.forM fun (a, pl, _, b) => do
        if pl.space = .hbm && b.length ≠ 64 then lineIn w (pl.loc / 64) pl.pin a
      modify fun s => ps.foldl (fun t (_, pl, _, b) => t.performWrite w.core 0 w.world (fun _ => pl.pin) (cellsAt pl.loc b)) s
      writeImage w (ea + w64 k) (bs.drop k) f

/-- Before anything of an image is written, every word of it that can be reached is free of reservations. -/
def imageWordsFree (w : Who) (ea : W64) (n : Nat) : M Unit := do
  let s ← get
  match writePieces w [(ea, zeros n)] 1 s with
  | .ok ps _ => if (s.busyWord (ps.flatMap fun (_, pl, _, b) => cellsAt pl.loc b)).isSome then block false
  | .error _ _ => pure ()

/-- A context in the cache taken for an image: its waiter removed, its pc at the instruction in which it waits (R280). -/
def CtxEntry.takeOut (e : CtxEntry) : CtxEntry :=
  match e.st with
  | .parked .waiter => { e with st := .held, ctx := { e.ctx with pc := e.ctx.waitpc, limit := none } }
  | .parked (.watching _) => { e with st := .held, ctx := { e.ctx with pc := e.ctx.waitpc, limit := none } }
  | _ => { e with st := .held }

def ctxout (d a : Reg) : M Ctl := waiting [a] (some d) do
  supOnly
  let v ← rd a
  let (x, caps) ← readCtxDesc v
  let core := (← get).cur.core
  let index := fld x.mb0 32 12
  let wlen := fld x.size 32 18
  let woff := fld x.size 0 18
  let i := fld x.mb0 0 6
  match ((← get).core core).cache.find? fun q => decide (q.1 = i) with
  | none => trapAt Cause.illegal v
  | some (_, e0) => do
    if fld x.mb0 44 20 ≠ 0 || fld x.mb0 6 26 ≠ 0 || fld x.size 50 14 ≠ 0 || fld x.size 18 14 ≠ 0 then trapAt Cause.illegal v
    if wlen % 64 ≠ 0 || woff % 64 ≠ 0 || woff + wlen > 0x30000 then trapAt Cause.illegal v
    let ea := x.src
    imageAddr ea
    releaseAll
    let w ← whoMe
    let s ← get
    let n := imageLen e0.ctx.liveTiles.length e0.rowsInAll e0.accs.length e0.planes.length wlen
    let counter := Sparse.get 0 (s.world w.world).counters index
    if n > x.dst.toNat || counter = 2 ^ 32 - 1 then
      chargeCaps caps
      wr d 0
    else
      if s.ctxKeyDead w.world then trapAt Cause.keylease ea
      imageWordsFree w ea n
      let e := e0.takeOut
      modify fun s =>
        let s1 := s.unwait e.ctx.uid
        let s2 := s1.modWorld w.world fun y =>
          { y with counters := Sparse.put y.counters index (counter + 1), saved := Sparse.put y.saved index e.ctx.uid }
        (s2.dropSaved w.world index).modCore core fun k => { k with cache := Sparse.put k.cache i e }
      let s ← get
      let img := sealed (s.imageKey w.world index) (imageHeader e (counter + 1) w.world index n woff wlen)
        (s.imageBody core e n woff wlen)
      let first := 64 - ea.toNat % 64
      writeImage w ea (img.take first) 1
      chargeCaps caps
      writeImage w (ea + w64 first) (img.drop first) (n / 64 + 1)
      modify fun s => (s.modWorld w.world fun y => { y with savedChain := Sparse.put y.savedChain index (fld e.ctx.chain 0 16) }).modCore core
        fun k => { k with cache := Sparse.drop k.cache i }
      wr d (w64 n)

def execCtxout (d a : Reg) : State → Host.Outcome State Fault Refusal := run (ctxout d a)

/-- A header's consistency (R281, R283): the rows of its live tiles in all, where its length fits its masks. -/
def headerRows (h : List Byte) : Option Nat :=
  let n := fld (wordIn h 16) 0 32
  let m := (wordIn h 24).toNat
  let woff := (wordIn h 32).toNat
  let wlen := (wordIn h 40).toNat
  let tiles := (bitsOf 8 m).length
  let accs := (bitsOf 8 (m / 2 ^ 8)).length
  let planes := (bitsOf 4 (m / 2 ^ 16)).length
  if m ≥ 2 ^ 20 || wlen % 64 ≠ 0 || woff % 64 ≠ 0 || woff + wlen > 0x30000 then none
  else
    let fixed := 0x480 + 192 * tiles + 16448 * accs + 33920 * planes + wlen + wlen / 64
    let rows := (n - 16 - fixed) / 64
    if imageLen tiles rows accs planes wlen = n && tiles ≤ rows && rows ≤ 32 * tiles then some rows else none

/-- The bytes of spill area that a header's masks name (R66). -/
def headerSpill (h : List Byte) (rows : Nat) : Nat :=
  let m := (wordIn h 24).toNat
  64 * rows + 128 * (bitsOf 8 m).length + 16384 * (bitsOf 8 (m / 2 ^ 8)).length + 17408 * (bitsOf 4 (m / 2 ^ 16)).length

def allOnes : W64 := w64 (2 ^ 64 - 1)

def ctxin (d a : Reg) : M Ctl := waiting [a] (some d) do
  supOnly
  let v ← rd a
  let (x, caps) ← readCtxDesc v
  let core := (← get).cur.core
  let index := fld x.mb0 32 12
  if fld x.mb0 44 20 ≠ 0 || fld x.mb0 0 32 ≠ 0 || x.size ≠ 0 then trapAt Cause.illegal v
  let ea := x.src
  imageAddr ea
  let w ← whoMe
  match ((← get).core core).roomFor 0 with
  | none => do
    chargeCaps caps
    wr d allOnes
  | some _ => do
    if (← get).ctxKeyDead w.world then trapAt Cause.keylease ea
    let h ← engineRead w ea 64
    let n := fld (wordIn h 16) 0 32
    match headerRows h with
    | none => trapAt Cause.ctxTag ea
    | some rows => do
      if fld (wordIn h 0) 16 48 ≠ 0x513743580001 || fld (wordIn h 8) 12 4 ≠ w.world || n > x.dst.toNat then trapAt Cause.ctxTag ea
      match ((← get).core core).roomFor (headerSpill h rows) with
      | none => do
        chargeCaps caps
        wr d allOnes
      | some i => do
        let counter := Sparse.get 0 ((← get).world w.world).counters index
        let mine := fld (wordIn h 8) 32 32
        if mine ≠ counter then trapAt Cause.ctxStale ea (w64 mine)
        let bs ← engineRead w ea n
        let key := (← get).imageKey w.world index
        let ct := (bs.drop 64).take (n - 80)
        if bs.drop (n - 16) ≠ gcmTagOf key (headerIv h) h ct then trapAt Cause.ctxTag ea
        let s ← get
        let uid := Sparse.get s.uidCtr (s.world w.world).saved index
        let (e, window) := entryOf (gcmXor key (headerIv h) ct) (wordIn h 24).toNat uid
        modify fun s =>
          let s1 : State := { s with uidCtr := s.uidCtr + 1 }
          let s2 := s1.modWorld w.world fun y => { y with counters := Sparse.put y.counters index (counter + 1) }
          let s3 := s2.placeWindow core s.me.uid w.world (wordIn h 32).toNat (wordIn h 40).toNat window
          ((s3.modCore core fun k => { k with cache := Sparse.put k.cache i e }).takeRef (fld e.ctx.chain 0 16)).dropSaved w.world index
        chargeCaps caps
        wr d (w64 i)

def execCtxin (d a : Reg) : State → Host.Outcome State Fault Refusal := run (ctxin d a)

end Sys2Proof.Machine
end

