-- ==== Sys2Proof/Machine/Launch.lean ====
section
/-! DEFINITION. The launch queue (R36, R58): accepted packets enter the queue SRAM, and beyond 64 the world's spill ring. -/

namespace Sys2Proof.Machine

/-- A packet at the tail of a world's launch queue: the queue SRAM, then the ring of 1,024 in memory; none where the ring is full, or the
world has no core and so no queue. -/
def State.launchPush (s : State) (w : Nat) (words : Vector W64 8) : Option State :=
  let x := s.world w
  let ring := fun (_ : Unit) =>
    if x.ringLen < 1024 then
      let t := s.queueWrite w (x.ring + 64 * ((x.ringHead + x.ringLen) % 1024)) (packetBytes words)
      some (t.modWorld w fun y => { y with ringLen := y.ringLen + 1 })
    else none
  if (s.coresOf w).isEmpty then none
  else if x.ringLen = 0 then
    match s.launchPut w ⟨words, s.cycle, false⟩ with
    | some t => some t
    | none => ring ()
  else ring ()

/-- What became of a packet offered to a world's launch queue. -/
inductive Offer where
  | accepted (s : State)
  | malformed
  | full

/-- The words of a packet, its w1 filled, queued by R36 with its chain's reference (R16). -/
def State.offerWords (s : State) (w : Nat) (words : Vector W64 8) : Offer :=
  match malformed words with
  | some _ => .malformed
  | none =>
    match s.launchPush w words with
    | some t => .accepted (t.takeRef (fld words[1] 0 16))
    | none => .full

/-- A packet accepted by R10 and queued. -/
def State.offer (s : State) (w : Nat) (bs : List Byte) : Offer := s.offerWords w (s.acceptWords w (packetWords bs))

end Sys2Proof.Machine
end

