-- ==== Sys2Proof/Machine/Commands.lean ====
section
/-! DEFINITION. The host's commands (R28 to R35): issue and judgement, completion, and the commands on principals, rules,
capabilities, meters, images and work. -/

namespace Sys2Proof.Machine

/-! ## Codes (R30) -/

namespace Code
def busy : Byte := 0x01
def ok : Byte := 0x02
def badOpcode : Byte := 0x10
def badField : Byte := 0x11
def notPermitted : Byte := 0x12
def noResource : Byte := 0x13
def badState : Byte := 0x14
def authFail : Byte := 0x15
def refusedPacket : Byte := 0x16
def overlap : Byte := 0x17
end Code

/-! ## Host memory -/

/-- Whether the host port reaches a range; a read beyond completes with an error (log 26). -/
def hostRange (addr n : Nat) : Bool := decide (addr + n ≤ 2 ^ 63)

def State.hostRead (s : State) (addr n : Nat) : List Byte := s.bytes (hostBase + addr) n

/-- A posted write of the device to host memory: it triggers the watches of device threads on it. -/
def State.hostWrite (s : State) (addr : Nat) (bs : List Byte) : State :=
  if hostRange addr bs.length then
    let cells := cellsAt (hostBase + addr) bs
    (s.setCells cells).triggerWatches 0 (cells.map Prod.fst)
  else s

/-- Whether one of a command's reads of the host completes with an error: its lines are numbered from 0 (R327). -/
def cmdReadFails (c : Cmd) (addr n : Nat) : Bool :=
  !hostRange addr n || match c.hostErr with
    | some j => decide (j < (n + 63) / 64)
    | none => false

/-! ## IDE (R25, R44, R55) -/

def KeySet.alive (k : KeySet) (now : Nat) : Bool := k.live && decide (now < k.expiry)

/-- The key set of a number, towards this device or out of it. -/
def Func.keySet (f : Func) (set : Nat) (out : Bool) : KeySet :=
  if out then (if set = 0 then f.out0 else f.out1) else if set = 0 then f.set0 else f.set1
def Func.setKeySet (f : Func) (set : Nat) (out : Bool) (k : KeySet) : Func :=
  if out then (if set = 0 then { f with out0 := k } else { f with out1 := k })
  else if set = 0 then { f with set0 := k } else { f with set1 := k }

/-- Whether a host write is deciphered: under the key set that its K bit names, which is live and not expired. -/
def State.deciphers (s : State) (fn : Nat) (key : Option Nat) : Bool :=
  match key with
  | some k => ((s.fn fn).keySet k false).alive s.meridian
  | none => true

/-- A host write taken; under a key set that is not accepted it is discarded as an IDE integrity failure, which sends the TDI to ERROR
(R34, R44). -/
def hostTlp (fn : Nat) (key : Option Nat) (m : M Unit) : M Unit := do
  let s ← get
  if s.deciphers fn key then m else set (s.tdiError fn Cause.tdiStop)

/-! ## Issue and judgement (R29, R32, R34) -/

/-- Whom R32 and R325 let issue a command. -/
def issuerOk (op fn : Nat) : Bool :=
  if fn = 0 then op ≠ 0x0C && op ≠ 0x0F else op ∉ [0x02, 0x03, 0x0E]

/-- Whether a WORLD_DESTROY names a world that is not the TDI's own, which R32 does not let it (R34). -/
def State.foreignDestroy (s : State) (op fn : Nat) : Bool :=
  decide (op = 4) && decide (fn ≠ 0) && (decide ((s.fn fn).world = 0) || decide (fld (vat 0 (s.fn fn).block 1) 0 4 ≠ (s.fn fn).world))

/-- Whether a function's state accepts a command (R34); physical function 0 has no TDISP state. -/
def State.stateOk (s : State) (op fn : Nat) : Bool :=
  let f := s.fn fn
  if fn = 0 then true
  else
    match f.tdisp with
    | .run => true
    | .locked => op = 0x01 || op = 0x0C
    | .error => op = 0x01 || op = 0x04
    | .unlocked => op = 0x01 || (op = 0x04 && decide (f.world ≠ 0) && (s.world f.world).stopped)

/-- The world that a function acts for: 1 for physical function 0 (R26, R325). -/
def State.fnWorld (s : State) (fn : Nat) : Nat := if fn = 0 then 1 else (s.fn fn).world

/-- Word i of a function's command block. -/
def State.cmdWord (s : State) (fn i : Nat) : W64 := vat 0 (s.fn fn).block i

/-- How a command's effect ends: what its completion waits for or reports, and the state. -/
abbrev Effect := CmdEnd × State

def State.fails (s : State) (code : Byte) : Effect := (.done code 0, s)
def State.succeeds (s : State) (result : Nat) : Effect := (.done Code.ok (BitVec.ofNat 32 result), s)

/-- A command issued (R29, R31): BUSY with the new tag, LOST cleared; judged by opcode, function, state and operands (R34); its
effect, to be reported by COMMAND_COMPLETION. `world`: whose stop aborts it (R34). -/
def issueCmd (c : Cmd) (op : Nat) (world : Nat) (effect : State → Effect) : M Unit := hostTlp c.fn c.key do
  let s ← get
  let n := fld c.c0 0 8
  let defined := decide (1 ≤ n) && decide (n ≤ 0x0F)
  require (s.booted && decide (c.fn ≤ 14) && (s.fn c.fn).pending.isNone && if op = 0 then !defined else decide (n = op))
  let tag := (c.c0 >>> 16).setWidth 16
  let s1 := s.modFn c.fn fun f => { f with block := f.block.set 0 c.c0, code := Code.busy, tag := tag, lost := false, result := 0 }
  let done := s1.cmdWord c.fn 7
  let (fin, t) :=
    if s.bootState ≠ 0 && n ≠ 1 then s1.fails Code.badState
    else if !defined then s1.fails Code.badOpcode
    else if !issuerOk n c.fn || s1.foreignDestroy n c.fn then s1.fails Code.notPermitted
    else if !s1.stateOk n c.fn then s1.fails Code.badState
    else if fld c.c0 32 32 ≠ 0 || fld c.c0 8 8 ≠ 0 || fld done 0 6 ≠ 0 then s1.fails Code.badField
    else effect s1
  set (t.modFn c.fn fun f =>
    { f with pending := some ⟨tag, if fld done 0 6 = 0 then done else 0, fin, world, n, (s.fn c.fn).selected⟩ })

def execBadOpcode (c : Cmd) : State → Host.Outcome State Fault Refusal := event (issueCmd c 0 0 (·.fails Code.badOpcode))

/-- The status word (R30). -/
def Func.status (f : Func) : W64 :=
  w64 (f.result.toNat * 2 ^ 32 + f.tag.toNat * 2 ^ 16 + boolNat f.lost * 2 ^ 8 + f.code.toNat)

/-- The final status word, then the done line (R31). -/
def State.complete (s : State) (fn : Nat) (p : Pending) (code : Byte) (result : W32) : State :=
  let t := s.modFn fn fun f => { f with code := code, result := result, tag := p.tag, pending := none }
  if p.doneLine = 0 then t else t.hostWrite p.doneLine.toNat (natToLe 64 (t.fn fn).status.toNat)

/-- PRINCIPAL_ADD judged and applied (R13, R217). -/
def State.addPrincipal (s : State) (world id : Nat) : Effect :=
  let p := s.principal id
  if id = 0 then s.fails Code.badState
  else if p.st ≠ .free && p.world ≠ world then s.fails Code.notPermitted
  else if p.st = .live || p.st = .retired then s.fails Code.badState
  else
    match s.intern none id p.gen 100 world 0 with
    | none => s.fails Code.noResource
    | some (c, t) => (t.setPrincipal id { p with st := .live, world := world }).succeeds c

/-- COMMAND_COMPLETION (R31). A PRINCIPAL_ADD that waited for a revocation is judged now (R217). -/
def commandCompletion (fn : Nat) : M Unit := do
  let s ← get
  match (s.fn fn).pending with
  | none => require false
  | some p =>
    match p.fin with
    | .done code result => set (s.complete fn p code result)
    | .principalAdd id => do
      require (!s.revoking)
      match s.addPrincipal p.world id with
      | (.done code result, t) => set (t.complete fn p code result)
      | _ => require false
    | _ => require false

def execCommandCompletion (fn : Nat) : State → Host.Outcome State Fault Refusal := event (commandCompletion fn)

/-- Bytes written into a command block. -/
def blockWrite (b : Vector W64 8) (off : Nat) (bs : List Byte) : Vector W64 8 :=
  let old := wordsLe b.toList
  let new := old.take off ++ bs.take (64 - off) ++ old.drop (off + bs.length)
  Vector.ofFn fun i => w64 (leToNat ((new.drop (8 * i.val)).take 8))

/-- LOST_COMMAND_WRITE: a write covers c0 while BUSY. It issues nothing; the block reads as last written (R27, R29). -/
def execLostCommandWrite (fn : Nat) (t : Tlp) : State → Host.Outcome State Fault Refusal :=
  event (hostTlp fn t.key do
    require (((← get).fn fn).pending.isSome && decide (t.off = 0) && decide (8 ≤ t.bytes.length))
    modify (·.modFn fn fun f => { f with lost := true, block := blockWrite f.block 0 t.bytes }))

/-! ## GET_INFO (R33) -/

def Tdisp.code (t : Tdisp) : Nat :=
  match t with
  | .unlocked => 0
  | .locked => 1
  | .run => 2
  | .error => 3

def State.infoWords (s : State) (fn : Nat) : List W64 :=
  let f := s.fn fn
  let w := s.fnWorld fn
  let stopped := decide (w ≠ 0) && (s.world w).stopped
  [0x0007CA10D0000001, Config.firmwareVersion,
    w64 (boolNat stopped * 2 ^ 8 + w * 2 ^ 4 + (if fn = 0 then 0 else f.tdisp.code)), w64 f.rejected, w64 f.dropped, w64 s.meridian,
    if fn = 0 then w64 (2 ^ 64 - 1) else w64 (s.world w).memExpiry, 0]

def execGetInfo (c : Cmd) : State → Host.Outcome State Fault Refusal :=
  event do
    let w := (← get).fnWorld c.fn
    issueCmd c 0x01 w fun s =>
      let a := (s.cmdWord c.fn 1).toNat
      if a % 64 ≠ 0 then s.fails Code.badField
      else (s.hostWrite a ((s.infoWords c.fn).flatMap fun v => natToLe 8 v.toNat)).succeeds 0

/-! ## Principals (R13, R211, R217) -/

def execPrincipalAdd (c : Cmd) : State → Host.Outcome State Fault Refusal :=
  event do
    let w := (← get).fnWorld c.fn
    issueCmd c 0x07 w fun s =>
      let id := (s.cmdWord c.fn 1).toNat
      if id ≥ 2 ^ 24 then s.fails Code.badField
      else if s.revoking then (.principalAdd id, s)
      else s.addPrincipal w id

def execPrincipalRevoke (c : Cmd) : State → Host.Outcome State Fault Refusal :=
  event do
    let w := (← get).fnWorld c.fn
    issueCmd c 0x08 w fun s =>
      let id := (s.cmdWord c.fn 1).toNat
      let p := s.principal id
      if id ≥ 2 ^ 24 then s.fails Code.badField
      else if id = 0 || p.st = .free then s.fails Code.badState
      else if p.world ≠ w then s.fails Code.notPermitted
      else if p.st ≠ .live then s.fails Code.badState
      else (.revocation id, { s with revocations := s.revocations ++ [⟨id, 0, 0, c.fn⟩] })

/-! ## Rule sets and capabilities (R17, R18) -/

/-- A rule from its four words; none where it breaks R18. -/
def ruleOf (bs : List Byte) : Option Rule :=
  let w := fun (i : Nat) => w64 (leToNat ((bs.drop (8 * i)).take 8))
  let len := fld (w 0) 60 4
  let ids := [fld (w 0) 24 24, fld (w 1) 32 24, fld (w 1) 0 24, fld (w 2) 32 24, fld (w 2) 0 24, fld (w 3) 32 24, fld (w 3) 0 24,
    fld (w 0) 0 24]
  let zero := fun (v : W64) => decide (fld v 56 8 = 0) && decide (fld v 24 8 = 0)
  if 1 ≤ len && len ≤ 8 && fld (w 0) 48 8 = 0 && zero (w 1) && zero (w 2) && zero (w 3) && (ids.drop len).all (· = 0) then
    some ⟨ids.take len, BitVec.ofNat 4 (fld (w 0) 56 4)⟩
  else none

/-- The rules of a host list; none where one breaks R18. -/
def rulesOf (bs : List Byte) (n : Nat) : Option (List Rule) :=
  (List.range n).mapM fun i => ruleOf ((bs.drop (32 * i)).take 32)

def execRuleSet (c : Cmd) : State → Host.Outcome State Fault Refusal :=
  event do
    let w := (← get).fnWorld c.fn
    issueCmd c 0x09 w fun s =>
      let set := (s.cmdWord c.fn 1).toNat
      let a := (s.cmdWord c.fn 2).toNat
      let n := (s.cmdWord c.fn 3).toNat
      if set ≥ 4096 || n = 0 || n > 16 || cmdReadFails c a (32 * n) then s.fails Code.badField
      else
        match rulesOf (s.hostRead a (32 * n)) n with
        | none => s.fails Code.badField
        | some rules => { s.modWorld w fun x => { x with ruleSets := Sparse.put x.ruleSets set rules } with ruleCaches := [] }.succeeds 0

/-- Whether a capability's range keeps the rules of R17. -/
def capRangeOk (world : Nat) (base : W64) (len : Nat) : Bool :=
  let last := w64 (base.toNat + len - 1)
  decide (base.toNat % 64 = 0) && decide (len ≠ 0) && decide (len % 64 = 0) && decide (len < 2 ^ 56) &&
  decide (base.toNat + len ≤ 2 ^ 64) && decide (fld base 61 3 = fld last 61 3) &&
  match fld base 61 3 with
  | 0 => decide (last.toNat < 2 ^ 56)
  | 5 => decide (fld base 57 4 = world) && decide (fld last 57 4 = world)
  | 6 =>
    let bits := match fld base 58 3 with
      | 0 => 18
      | 1 => 20
      | 2 => 26
      | 3 => 12
      | _ => 0
    decide (fld base 58 3 ≤ 3) && decide (fld base 58 3 = fld last 58 3) && decide (fld base 0 58 < 2 ^ bits) && decide (fld last 0 58 < 2 ^ bits)
  | _ => false

/-- A capability number that a world does not use: the first from a place that R17 leaves open (log 8). -/
def freeCapid (n : Nat) (used : List Nat) : Nat :=
  (((List.range (used.length + 1)).map fun i => (Config.freeCapid n + i) % 65536).find? fun x => !used.contains x).getD 0

def execCapCreate (c : Cmd) : State → Host.Outcome State Fault Refusal :=
  event do
    let w := (← get).fnWorld c.fn
    issueCmd c 0x0A w fun s =>
      let base := s.cmdWord c.fn 1
      let len := (s.cmdWord c.fn 2).toNat
      let c3 := s.cmdWord c.fn 3
      let c4 := s.cmdWord c.fn 4
      let x := s.world w
      if fld c3 20 44 ≠ 0 || fld c3 12 4 ≠ 0 || fld c4 32 32 ≠ 0 || !capRangeOk w base len then s.fails Code.badField
      else if x.caps.any fun y => decide (y.base < base.toNat + len) && decide (base.toNat < y.base + y.len) then s.fails Code.overlap
      else if x.caps.length ≥ 4096 then s.fails Code.noResource
      else
        let id := freeCapid s.freeCtr (x.caps.map (·.id))
        let cap : Cap := ⟨id, base.toNat, len, fld c3 0 12, BitVec.ofNat 4 (fld c3 16 4), c4.toNat⟩
        { s.setWorld w { x with caps := x.caps ++ [cap] } with freeCtr := s.freeCtr + 1 }.succeeds id

def execCapDestroy (c : Cmd) : State → Host.Outcome State Fault Refusal :=
  event do
    let w := (← get).fnWorld c.fn
    issueCmd c 0x0B w fun s =>
      let id := (s.cmdWord c.fn 1).toNat
      let x := s.world w
      if id ≥ 2 ^ 16 || !(x.caps.any fun y => decide (y.id = id)) then s.fails Code.badField
      else
        let t := s.setWorld w { x with caps := x.caps.filter fun y => decide (y.id ≠ id) }
        let u : State := { t with cores := t.cores.map fun e =>
          (e.1, if e.2.world = w then { e.2 with capCache := e.2.capCache.filter (· ≠ id) } else e.2) }
        u.succeeds 0

/-! ## METER_READ (R292), DEBUG_ATTACH (R286) -/

def execMeterRead (c : Cmd) : State → Host.Outcome State Fault Refusal :=
  event do
    let w := (← get).fnWorld c.fn
    issueCmd c 0x0D w fun s =>
      let first := (s.cmdWord c.fn 1).toNat
      let n := (s.cmdWord c.fn 2).toNat
      let a := (s.cmdWord c.fn 3).toNat
      if first ≥ 2 ^ 24 || n = 0 || n ≥ 4096 || a % 8 ≠ 0 then s.fails Code.badField
      else
        let bs := (List.range n).flatMap fun i =>
          let p := s.principal (first + i)
          natToLe 8 (if p.st ≠ .free && p.world = w then Sparse.get 0 (s.world w).meters (first + i) else 0)
        (s.hostWrite a bs).succeeds 0

/-- DEBUG_ATTACH: c1[0] = 1 attaches; 0 detaches and resumes every HALTED slot of the world. -/
def State.debugAttach (s : State) (w : Nat) (on : Bool) : State :=
  let t := s.modWorld w fun x => { x with attached := on }
  if on then t
  else { t with cores := t.cores.map fun e =>
    (e.1, if e.2.world = w then { e.2 with slots := e.2.slots.map fun q =>
        (q.1, if q.2.st = .halted then { q.2 with st := .run, waiting := .none } else q.2) }
      else e.2) }

/-- `other`: an operand that is neither 0 nor 1 is judged here too. -/
def debugCmd (c : Cmd) (v : W64) (other : Bool) : M Unit := do
  let s ← get
  let w := s.fnWorld c.fn
  let c1 := s.cmdWord c.fn 1
  require (decide (c1 = v) || (other && decide (c1.toNat > 1)))
  issueCmd c 0x0F w fun s =>
    if c1.toNat > 1 then s.fails Code.badField
    else if !(s.world w).debugOk then s.fails Code.notPermitted
    else (s.debugAttach w (decide (c1 = 1))).succeeds 0

def execDebugAttach (c : Cmd) : State → Host.Outcome State Fault Refusal := event (debugCmd c 1 true)
def execDebugDetach (c : Cmd) : State → Host.Outcome State Fault Refusal := event (debugCmd c 0 false)

/-! ## LAUNCH (R35) -/

/-- What follows an offer of a packet, by what became of it. -/
def Offer.choose (o : Offer) (accepted : State → Effect) (malformed full : Effect) : Effect :=
  match o with
  | .accepted t => accepted t
  | .malformed => malformed
  | .full => full

/-- Packets accepted one at a time in address order from the i-th on. -/
def launchFrom (c : Cmd) (w a n i fuel : Nat) (s : State) : Effect :=
  match fuel with
  | 0 => s.succeeds i
  | f + 1 =>
    if i = n then s.succeeds i
    else if c.hostErr = some i || !hostRange (a + 64 * i) 64 then (.done Code.badField (BitVec.ofNat 32 i), s)
    else
      (s.offer w (s.hostRead (a + 64 * i) 64)).choose (launchFrom c w a n (i + 1) f)
        (.done Code.refusedPacket (BitVec.ofNat 32 i), s.modFn c.fn fun x => { x with rejected := x.rejected + 1 })
        (.done Code.noResource (BitVec.ofNat 32 i), s)

def execLaunch (c : Cmd) : State → Host.Outcome State Fault Refusal :=
  event do
    let w := (← get).fnWorld c.fn
    issueCmd c 0x06 w fun s =>
      let a := (s.cmdWord c.fn 1).toNat
      let n := (s.cmdWord c.fn 2).toNat
      if a % 64 ≠ 0 || n = 0 || n ≥ 4096 then s.fails Code.badField else launchFrom c w a n 0 (n + 1) s

/-! ## LOAD_IMAGE (R327, R50) -/

/-- Where a page of a world lies, by its tables alone, if in a kind 0 extent: the walk makes no permission check and leaves no
trace. -/
def State.imagePage (s : State) (w va : Nat) : Option Nat :=
  match walk ⟨(s.coresOf w).headD 0, 16, w, 0⟩ va 0 levels 0 s with
  | .ok (e, sh) _ =>
    match s.wpaToDpa w (fld e 8 48 * 256 + va % 2 ^ sh) with
    | some loc => if isHbm loc then some loc else none
    | none => none
  | .error _ _ => none

/-- Whole lines written by the device through the directory, their MAC and ECC formed under a key: no L2 keeps a copy, and the
memory-side cache takes them in (R147, R324). -/
def State.lineWrite (s : State) (key loc : Nat) (bs : List Byte) : State :=
  let cells := cellsAt loc bs
  let s1 := (hbmLines cells).foldl (fun t line =>
    let t1 : State := { t with l2 := t.l2.map fun e => (e.1, e.2.filter (·.line ≠ line)) }
    (t1.sealLine line key).mscTouch line) s
  (s1.setCells cells).triggerWatches 0 (cells.map Prod.fst)

/-- Such a write for a world; after its key's lease has ended it is dropped (R44). -/
def State.deviceWrite (s : State) (world loc : Nat) (bs : List Byte) : State :=
  if s.keyDead world then s else s.lineWrite (s.world world).memKey loc bs

/-- Lines copied from the host, i lines from the j-th on. -/
def copyLines (w src dst : Nat) (j i : Nat) (s : State) : State :=
  match i with
  | 0 => s
  | k + 1 =>
    let t := match s.imagePage w (dst + 64 * j) with
      | some loc => s.deviceWrite w loc (s.hostRead (src + 64 * j) 64)
      | none => s
    copyLines w src dst (j + 1) k t

def execLoadImage (c : Cmd) : State → Host.Outcome State Fault Refusal :=
  event do
    let w := (← get).fnWorld c.fn
    issueCmd c 0x05 w fun s =>
      let src := (s.cmdWord c.fn 1).toNat
      let n := (s.cmdWord c.fn 2).toNat
      let dst := (s.cmdWord c.fn 3).toNat
      let pages := (List.range ((dst % 65536 + n + 65535) / 65536)).map fun i => dst / 65536 * 65536 + 65536 * i
      if n = 0 || n % 64 ≠ 0 || n > 2 ^ 28 || dst % 64 ≠ 0 || dst + n > 2 ^ 56 then s.fails Code.badField
      else if !((s.world w).caps.any fun x => decide (x.base ≤ dst) && decide (dst + n ≤ x.base + x.len)) then s.fails Code.badField
      else if !(pages.all fun p => (s.imagePage w p).isSome) then s.fails Code.badField
      else if (s.world w).images.length ≥ 224 then s.fails Code.noResource
      else
        let lines := n / 64
        let good := if hostRange src n then match c.hostErr with
            | some j => min j lines
            | none => lines
          else 0
        let t := copyLines w src dst 0 good s
        if good < lines then t.fails Code.badField
        else
          let digest := (Config.shake256 (s.hostRead src n)).toNat
          (t.modWorld w fun x => { x with images := x.images ++ [digest] }).succeeds (0x10 + (s.world w).images.length)

end Sys2Proof.Machine
end

