-- ==== Sys2Proof/Machine/Logs.lean ====
section
/-! DEFINITION. Append logs and their merges (R238, R239). -/

namespace Sys2Proof.Machine

/-! ## Records (R238) -/

/-- The stack domain of an HBM location: 64 GiB of device-physical addresses each (R121). -/
def domainOfLoc (loc : Nat) : Nat := loc / 2 ^ 36

def World.log (w : World) (domain : Nat) : AppendLog := Sparse.get AppendLog.init w.logs domain
def World.setLog (w : World) (domain : Nat) (l : AppendLog) : World :=
  { w with logs := Sparse.set AppendLog.init w.logs domain l }

/-- The checks of a record's target: as a write (R99), in HBM, through region 0b000 or sequence space. -/
def logTarget (w : Who) (ea : W64) : M (Place × Cap) := do
  if ea.toNat % 8 ≠ 0 then trapAt Cause.align ea
  if fld ea 61 3 ≠ 0 && fld ea 61 3 ≠ 5 then trapXlate 5 ea
  let pl ← locate w ea .write
  if pl.space ≠ .hbm then trapXlate 5 ea
  let cap ← authorize w ea [.write]
  firewall w pl ea [.write]
  lineIn w (pl.loc / 64) pl.pin ea
  return (pl, cap)

/-- Records that a log holds: those not merged, and those that a merge has not applied yet. -/
def AppendLog.held (l : AppendLog) : Nat := l.recs.length + (l.runs.map fun r => r.recs.length).sum

/-- Segments that a number of records take. -/
def segmentsFor (n : Nat) : Nat := if n = 0 then 0 else (n - 1) / Config.segmentRecords + 1

/-- Room for one more record in a log (R238): in its last segment; in a new one of the queue SRAM of the domain's clusters; else in the
world's swap area. None where that is full too. -/
def State.growLog (s : State) (w domain : Nat) : Option State :=
  let l := (s.world w).log domain
  let add := fun (g : LogSeg) (t : State) => t.modWorld w fun x => x.setLog domain { x.log domain with segs := (x.log domain).segs ++ [g] }
  if l.held < Config.segmentRecords * l.segs.length then some s
  else
    match ((List.range 8).map (domain * 8 + ·)).find? fun c => decide (s.sramSegments c < Config.queueSramSegments) with
    | some c => some (add ⟨c, none⟩ s)
    | none =>
      let c := domain * 8
      match s.freeSwap w with
      | some n => (add ⟨c, none⟩ s).swapLog c w n
      | none => none

/-- The segments that a log's records no longer take given up, the oldest first. -/
def State.trimLog (s : State) (w domain : Nat) : State :=
  let l := (s.world w).log domain
  let n := l.segs.length - segmentsFor l.held
  let gone := (l.segs.take n).filterMap (·.swapped)
  s.modWorld w fun x => ({ x with swapUsed := x.swapUsed.filter (!gone.contains ·) } : World).setLog domain { l with segs := l.segs.drop n }

/-- An APPEND waits for room in its log before the checks of its target, which are made once (R212): the log is found by a look-up that has
no effect; what fails in it is left to the checks. -/
def logRoom (w : Who) (ea : W64) : M Unit := fun s =>
  match locate w ea .write s with
  | .ok pl _ => if (s.growLog w.world (domainOfLoc pl.loc)).isSome then .ok () s else .error (.wait (.blocked false)) s
  | .error _ _ => .ok () s

/-- A record placed whole in the log of its domain. Its bytes land on the barrier that it names (R232). -/
def placeRecord (w : Who) (pl : Place) (v : W64) (op : Nat) (bar : Option W64) : M Unit := do
  let domain := domainOfLoc pl.loc
  match (← landOn w bar 8 (← get)).growLog w.world domain with
  | none => block false
  | some t =>
    let seq := Sparse.get 0 (t.core w.core).appends w.slot
    let r : LogRec := ⟨pl.loc, pl.pin, v, op, w.core, w.slot, seq⟩
    let t1 := t.modWorld w.world fun x => x.setLog domain { x.log domain with recs := (x.log domain).recs ++ [r] }
    set (t1.modCore w.core fun c => { c with appends := Sparse.put c.appends w.slot (seq + 1) })

def append (d a : Reg) (op : BitVec 4) : M Ctl := waiting [d, a] none do
  let ea ← rd d
  let v ← rd a
  let w ← whoMe
  logRoom w ea
  let (pl, cap) ← logTarget w ea
  placeRecord w pl v op.toNat none
  chargeCap cap

def execAppend (d a : Reg) (op : BitVec 4) : State → Host.Outcome State Fault Refusal := run (append d a op)

/-- The barrier of a descriptor (R238). -/
def recordBar (w2 : W64) : Option W64 :=
  if flag w2 60 then some (w64 (6 * 2 ^ 61 + fld w2 58 2 * 2 ^ 58 + fld w2 36 22 * 32)) else none

/-- One descriptor of APPENDF. -/
def appendOne (w : Who) (ea : W64) : M Unit := do
  let (bs, caps) ← readSpan w ea 32 8 Mod.none
  let w2 := wordAt bs 2
  if fld w2 61 3 ≠ 0 || fld w2 58 2 = 3 || fld w2 4 32 ≠ 0 || fld w2 0 4 ≥ 12 then trapAt Cause.illegal w2
  if wordAt bs 3 ≠ 0 then trapAt Cause.illegal (wordAt bs 3)
  logRoom w (wordAt bs 0)
  let (pl, cap) ← logTarget w (wordAt bs 0)
  placeRecord w pl (wordAt bs 1) (fld w2 0 4) (recordBar w2)
  chargeCaps (caps ++ [cap])

def appendf (d a : Reg) : M Ctl := waiting [d, a] none do
  let n ← rd d
  let ea ← rd a
  let w ← whoMe
  if n = 0 || n.toNat > 64 then trapAt Cause.illegal n
  if ea.toNat % 32 ≠ 0 then trapAt Cause.align ea
  if fld ea 61 3 ≠ 6 || fld ea 58 3 ≥ 3 then trapXlate 5 ea
  let key := restartKey 4 5 1
  let start ← resumeRow key
  clearPend
  (rowRange (start.getD 0) n.toNat).forM fun i => guardRow key i (atRow tfmtNone i (appendOne w (ea + w64 (32 * i))))

def execAppendf (d a : Reg) (_op : BitVec 4) : State → Host.Outcome State Fault Refusal := run (appendf d a)

/-! ## Merges (R239) -/

/-- The order of application: target, source core, source slot, sequence number. -/
def LogRec.before (a b : LogRec) : Bool :=
  if a.addr ≠ b.addr then decide (a.addr < b.addr)
  else if a.core ≠ b.core then decide (a.core < b.core)
  else if a.slot ≠ b.slot then decide (a.slot < b.slot)
  else decide (a.seq ≤ b.seq)

def insertRec (r : LogRec) (l : List LogRec) : List LogRec :=
  match l with
  | [] => [r]
  | x :: rest => if r.before x then r :: x :: rest else x :: insertRec r rest

def sortRecs (l : List LogRec) : List LogRec := l.foldr insertRec []

/-- A merge accepted: it takes every record now in the log. -/
def AppendLog.accept (l : AppendLog) : AppendLog :=
  { l with recs := [], accepted := l.accepted + 1, runs := l.runs ++ [⟨l.accepted + 1, l.recs.length, sortRecs l.recs⟩] }

/-- A ticket: the domain and the merge's sequence number. -/
def ticketOf (domain seq : Nat) : W64 := w64 (domain * 2 ^ 56 + seq % 2 ^ 56)

/-- A merge of a world's log accepted for a thread, which is charged 1 pip for every four records; its sequence number. -/
def State.startMerge (s : State) (world domain core slot : Nat) : State :=
  let l := (s.world world).log domain
  (s.modWorld world fun x => x.setLog domain (x.log domain).accept).chargeSlot core slot (l.recs.length / 4)

def merge (d a : Reg) : M Ctl := waiting [a] (some d) do
  let v ← rd a
  if fld v 3 61 ≠ 0 then trapAt Cause.illegal v
  let domain := fld v 0 3
  modify fun s => s.startMerge s.myWorld domain s.cur.core s.cur.slot
  let s ← get
  wr d (ticketOf domain ((s.world s.myWorld).log domain).accepted)

def execMerge (d a : Reg) : State → Host.Outcome State Fault Refusal := run (merge d a)

/-- A write of the hardware at a location's home: every L2 copy of an HBM line goes, the memory-side cache takes the line, and the
world's key forms its MAC. -/
def State.homeWrite (s : State) (world : Nat) (cells : List Host.Cell) : State :=
  if s.keyDead world && cells.any (fun x => isHbm x.1) then s
  else
    let s1 := (hbmLines cells).foldl (fun t line =>
      let t1 : State := { t with l2 := t.l2.map fun e => (e.1, e.2.filter (·.line ≠ line)) }
      (t1.sealLine line (t1.world world).memKey).mscTouch line) s
    (s1.setCells cells).triggerWatches 0 (cells.map Prod.fst)

/-- What a record makes of its word (R238). -/
def recordValue (op : Nat) (old v : W64) : W64 :=
  match op with
  | 8 => v
  | 9 => atomicOp 10 old v 0
  | 10 => w64 (fld old 32 32 * 2 ^ 32 +
      (roundFp32 ((Fmt.fp32.decode (fld old 0 32)).min (Fmt.fp32.decode (fld v 0 32))).1 0).bits)
  | 11 => w64 (fld old 32 32 * 2 ^ 32 +
      (roundFp32 ((Fmt.fp32.decode (fld old 0 32)).max (Fmt.fp32.decode (fld v 0 32))).1 0).bits)
  | n => atomicOp n old v 0

/-- Records applied in order, up to the first whose word is held or queued at its bank. -/
def applyRecs (world : Nat) (l : List LogRec) (s : State) : List LogRec × State :=
  match l with
  | [] => ([], s)
  | r :: rest =>
    if s.wordFree r.addr then
      applyRecs world rest
        (s.homeWrite world (cellsAt r.addr (natToLe 8 (recordValue r.op (s.word64 r.addr) r.value).toNat)))
    else (r :: rest, s)

/-- LOG_MERGE_RUN: the oldest merge of a log applies its records in order; complete, it counts among the last 16 (R239). -/
def logMergeRun (world domain : Nat) : M Unit := do
  let s ← get
  let l := (s.world world).log domain
  match l.runs with
  | [] => require false
  | r :: rest => do
    require (!(s.world world).stopped)
    let (left, t) := applyRecs world r.recs s
    set ((t.modWorld world fun x => x.setLog domain
      (if left.isEmpty then { l with runs := rest, finished := ((r.seq, r.total) :: l.finished).take 16 }
        else { l with runs := { r with recs := left } :: rest })).trimLog world domain)

def execLogMergeRun (world domain : Nat) : State → Host.Outcome State Fault Refusal := event (logMergeRun world domain)

def mergew (d a : Reg) : M Ctl := waiting [a] (some d) do
  let v ← rd a
  let s ← get
  let seq := fld v 0 56
  let l := (s.world s.myWorld).log (fld v 56 3)
  if fld v 59 5 ≠ 0 || seq = 0 || seq > l.accepted then trapAt Cause.illegal v
  if l.runs.any fun r => decide (r.seq = seq) then block false
  acquireAt 4
  match l.finished.find? (fun f => decide (f.1 = seq)) with
  | some f => wr d (w64 f.2)
  | none => wr d (BitVec.allOnes 64)

def execMergew (d a : Reg) : State → Host.Outcome State Fault Refusal := run (mergew d a)

end Sys2Proof.Machine
end

