-- ==== Sys2Proof/Machine/Engines.lean ====
section
/-! DEFINITION. The engine FIFOs (R240 to R242), the log-merge engine's command and the gather engine. -/

namespace Sys2Proof.Machine

/-! ## Commands and results (R240) -/

/-- A result element: status, engine, tag, and the opcode's own word. -/
def resultWord (status engine tag v : Nat) : W64 :=
  w64 (status * 2 ^ 56 + engine * 2 ^ 48 + tag * 2 ^ 32 + v % 2 ^ 32)

def EngCmd.header (c : EngCmd) : W64 := c.words.headD 0
def EngCmd.word (c : EngCmd) (i : Nat) : W64 := c.words[i]?.getD 0
def cmdOpcode (h : W64) : Nat := fld h 56 8
def cmdExtra (h : W64) : Nat := fld h 52 4
def cmdTag (h : W64) : Nat := fld h 32 16
def EngCmd.who (c : EngCmd) : Who := ⟨c.core, c.slot, c.world, fld c.chain 0 16⟩

/-- A result for a context: into its slot's FIFO where it stands there and the FIFO has room, else it waits in the engine (R242). -/
def State.postResult (s : State) (c : EngCmd) (status v : Nat) : State :=
  let r : EngResult := ⟨c.uid, c.engine, resultWord status c.engine (cmdTag c.header) v⟩
  let t : State := { s with engResults := s.engResults ++ [r] }
  if (t.slot c.core c.slot).uid = c.uid then t.deliverEngine c.core c.slot c.engine else t

/-- A command ends with a status: it leaves the engine, and its result is posted. -/
def State.endCmd (s : State) (k : Nat) (c : EngCmd) (status v : Nat) : State :=
  { s with engCmds := s.engCmds.eraseIdx k }.postResult c status v

/-- Pips of a command's work, and the capabilities that it uses, each once, charged to the context that pushed it (R20, R213). -/
def State.chargeCmd (s : State) (c : EngCmd) (pips : Nat) : State := s.chargeCtx c.core c.uid (fld c.chain 0 16) pips
def State.chargeCmdCaps (s : State) (c : EngCmd) (caps : List Cap) : State := s.chargeCtxCaps c.core c.uid (fld c.chain 0 16) caps

/-- A computation whose trap is caught: what it did before stands. -/
def attempt {α : Type} (m : M α) : M (Except TrapInfo α) := fun s =>
  match m s with
  | .ok a t => .ok (.ok a) t
  | .error (.trap ti) t => .ok (.error ti) t
  | .error e t => .error e t

/-- The k-th unfinished command of the device, of an engine and opcode, of a world that stands. -/
def cmdAt (k engine opcode : Nat) : M EngCmd := do
  let s ← get
  match s.engCmds[k]? with
  | none => throw (.wait .none)
  | some c => do
    require (decide (c.engine = engine) && decide (cmdOpcode c.header = opcode) && !(s.world c.world).stopped)
    return c

def setCmd (k : Nat) (c : EngCmd) : M Unit := modify fun s => { s with engCmds := s.engCmds.set k c }

def queueCmd (c : EngCmd) : M Unit := modify fun s => { s with engCmds := s.engCmds ++ [c] }

/-! ## e0 (R241) -/

/-- Whether an e0 command is well formed. -/
def e0Ok (h : W64) : Bool :=
  decide (cmdOpcode h = 1) && decide (cmdExtra h = 0) && decide (fld h 48 4 = 0) && decide (fld h 3 29 = 0)

def acceptE0 (c : EngCmd) : M Unit := do
  let domain := fld c.header 0 3
  modify fun s => s.startMerge c.world domain c.core c.slot
  let l := ((← get).world c.world).log domain
  queueCmd { c with aux := l.accepted, count := match l.runs.getLast? with
    | some r => r.total
    | none => 0 }

/-- E0_MERGE: the command's merge has completed, and its result is posted. -/
def e0Merge (k : Nat) : M Unit := do
  let c ← cmdAt k 0 1
  let s ← get
  require (!(((s.world c.world).log (fld c.header 0 3)).runs.any fun r => decide (r.seq = c.aux)))
  set (s.endCmd k c 0 (min c.count (2 ^ 32 - 1)))

def execE0Merge (k : Nat) : State → Host.Outcome State Fault Refusal := event (e0Merge k)

/-! ## e3: GATHER (R241) -/

def e3Ok (h : W64) : Bool :=
  decide (cmdOpcode h = 1) && decide (cmdExtra h = 3) && decide (fld h 48 4 = 0) && decide (1 ≤ fld h 0 32) &&
  decide (fld h 0 32 ≤ 65535)

/-- Whether an address lies in windows 0b000 to 0b010. -/
def engineWindow (ea : W64) : M Unit := do
  if fld ea 61 3 ≠ 6 || fld ea 58 3 ≥ 3 then trapXlate 5 ea

/-- GATHER's checks at acceptance: the layout, the bytes in all, the capabilities used. -/
def gatherChecks (c : EngCmd) : M (Layout × Nat × List Cap) := do
  let w := c.who
  let n := fld c.header 0 32
  let (l, lcs) ← readLayoutAs w (c.word 1) Mod.none
  if l.cx8 || l.trans then trapAt Cause.shape (c.word 1)
  engineWindow (c.word 2)
  if fld (c.word 3) 0 2 ≠ 0 then trapAt Cause.align (c.word 3)
  engineWindow (c.word 3)
  let rs ← rangeOf w .read (c.word 3) (4 * n)
  let len := l.cols * tySize l.type
  let ws ← rangeOf w .write (c.word 2) (n * len)
  return (l, n * len, lcs ++ rs ++ ws)

/-- A GATHER accepted with what its layout record holds: base, rows, bytes of a row, pitch. -/
def acceptE3 (c : EngCmd) : M Unit := do
  match ← attempt (gatherChecks c) with
  | .error t => modify (·.postResult c t.cause.toNat 0)
  | .ok (l, n, caps) => do
    modify fun s => (s.chargeCmdCaps c caps).chargeCmd c (pipsOf n)
    queueCmd { c with words := c.words ++ [l.base, w64 l.rows, w64 (l.cols * tySize l.type), w64 l.pitch], caps := caps.map (·.id) }

/-- One row of a GATHER: an index outside the tensor is refused with SHAPE. Answers the capabilities of the row. -/
def gatherRow (c : EngCmd) (i : Nat) : M (List Cap) := do
  let w := c.who
  let ib ← engineRead w (c.word 3 + w64 (4 * i)) 4
  let idx := leToNat ib
  if idx ≥ 2 ^ 31 || idx ≥ (c.word 5).toNat then trapAt Cause.shape (c.word 3)
  let len := (c.word 6).toNat
  let (bs, caps) ← engineSpan w (c.word 4 + w64 (idx * (c.word 7).toNat)) len
  engineWrite w (c.word 2 + w64 (i * len)) bs fun s => return s
  return caps

/-- GATHER: the next row of the k-th command. A capability of the tensor is charged with the first row that uses it, unless it was charged
at acceptance (R20). -/
def gather (k : Nat) : M Unit := do
  let c ← cmdAt k 3 1
  match ← attempt (gatherRow c c.done) with
  | .error t => modify fun s => s.endCmd k c t.cause.toNat c.done
  | .ok caps => do
    modify (·.chargeCmdCaps c (caps.filter fun x => !c.caps.contains x.id))
    if c.done + 1 = fld c.header 0 32 then modify fun s => s.endCmd k c 0 (c.done + 1)
    else setCmd k { c with done := c.done + 1, caps := (c.caps ++ caps.map (·.id)).eraseDups }

def execGather (k : Nat) : State → Host.Outcome State Fault Refusal := event (gather k)

/-! ## EPOP and EQRY (R242) -/

/-- The scope of an engine (R240). -/
def engineScope (e : Nat) : Nat := if e = 2 then 5 else if e = 3 then 2 else 4

def epop (d : Reg) (e : Num2) : M Ctl := waiting [] (some d) do
  let p := (← getMe).engine e.toNat
  match p.results with
  | [] => block true
  | r :: rest => do
    modMe (·.modEngine e.toNat fun q => { q with results := rest, head := (q.head + 1) % 8 })
    modify fun s => s.deliverEngine s.cur.core s.cur.slot e.toNat
    acquireAt (engineScope e.toNat)
    wr d r

def execEpop (d : Reg) (e : Num2) : State → Host.Outcome State Fault Refusal := run (epop d e)

def eqry (d : Reg) (e : Num2) : M Ctl := waiting [] (some d) do
  let p := (← getMe).engine e.toNat
  wr d (w64 (p.results.length + p.staged.length * 2 ^ 8 + p.unfinished * 2 ^ 16))

def execEqry (d : Reg) (e : Num2) : State → Host.Outcome State Fault Refusal := run (eqry d e)

end Sys2Proof.Machine
end

