-- ==== Sys2Proof/Machine/Ecmar.lean ====
section
/-! DEFINITION. Ecmar links and the collective engine (R296 to R306). How a transfer is framed on the wire is the model's own: 24
bytes stand before the data (log 25). -/

namespace Sys2Proof.Machine

/-! ## Statuses (R302, R305) -/

def genRetired : Nat := 0x40
def linkIsDown : Nat := 0x41
def mismatch : Nat := 0x42

/-! ## Flits received (R297, R298) -/

def flitGen (h : W64) : Nat := fld h 63 1
def flitEnd (h : W64) : Bool := flag h 62
def flitWorld (h : W64) : Nat := fld h 58 4
def flitKind (h : W64) : Nat := fld h 54 4
def flitGroup (h : W64) : Nat := fld h 38 16
def flitOffset (h : W64) : Nat := fld h 0 38

/-- Whether flits form one group: 1 to 16 of one generation with whole payloads, the last alone marked. -/
def isGroup (fs : List Flit) : Bool :=
  decide (fs.length ≤ 16) &&
  (match fs.getLast? with
    | some l => flitEnd l.header && fs.all fun f => decide (flitGen f.header = flitGen l.header) && decide (f.payload.length = 120)
    | none => false) &&
  !(fs.dropLast.any fun f => flitEnd f.header)

/-- A group deciphered: headers and payloads, none where the tag does not verify. -/
def openGroup (key iv : Nat) (fs : List Flit) : Option (List (W64 × List Byte)) :=
  let hs := fs.map Flit.header
  let wire := fs.flatMap Flit.payload
  let ct := wire.take (wire.length - 16)
  if wire.drop (wire.length - 16) = gcmTagOf key iv (wordsLe hs) ct then
    let bs := gcmXor key iv ct
    some (hs.mapIdx fun i h => (h, (bs.drop (120 * i)).take 120))
  else none

/-- A group opened as the next of a generation: under the peer's port, the other direction and the counter expected (R298). -/
def Port.open_ (p : Port) (g : Nat) (fs : List Flit) : Option (List (W64 × List Byte)) :=
  if isGroup fs && fs.all (fun f => decide (flitKind f.header ≤ 2)) then
    openGroup (p.rxGen g).key (groupIv p.peerPort (!p.side) g (p.rxGen g).counter) fs
  else none

def State.sendOn (s : State) (p world kind group : Nat) (bs : List Byte) : State := s.modPort p (·.send p world kind group bs)

def Port.discard (p : Port) : Port := { p with discarded := p.discarded + 1 }

/-! ## Transfers received

A transfer begins with three words: the command's header with its tag 0, the number of bytes of data, and a collective's number among
those of its group on that link, 0 for a SEND (log 25). -/

/-- The opcode of a received transfer's command. -/
def RxData.opcode (r : RxData) : Nat := cmdOpcode (wordAt r.bytes 0)
def RxData.seq (r : RxData) : Nat := (wordAt r.bytes 2).toNat
def RxData.complete (r : RxData) : Bool :=
  decide (24 ≤ r.bytes.length) && decide ((wordAt r.bytes 1).toNat + 24 ≤ r.bytes.length)
def RxData.data (r : RxData) : List Byte := (r.bytes.drop 24).take (wordAt r.bytes 1).toNat
/-- Of a world's group; a SEND; a collective's, by its number; one whose first flit was discarded. -/
def RxData.ofGroup (r : RxData) (world group : Nat) : Bool := decide (r.world = world) && decide (r.group = group)
def RxData.isSend (r : RxData) : Bool := decide (24 ≤ r.bytes.length) && decide (r.opcode = 4)
def RxData.isSeq (r : RxData) (n : Nat) : Bool := decide (24 ≤ r.bytes.length) && decide (r.opcode ≠ 4) && decide (r.seq = n)
def RxData.unknown (r : RxData) : Bool := decide (r.bytes.length < 24)
/-- A transfer that has begun and has not come whole. -/
def RxData.open_ (r : RxData) : Bool := decide (r.fail = 0) && !r.complete

def Port.take (p : Port) (i : Nat) : Port := { p with rx := p.rx.eraseIdx i }

/-- The first SEND of a world's group on a port, or a lost transfer that stands before it, with its place. -/
def Port.firstSend (p : Port) (world group : Nat) : Option (Nat × RxData) :=
  (List.range p.rx.length).findSome? fun i =>
    match p.rx[i]? with
    | some r => if r.ofGroup world group && (r.isSend || r.unknown) then some (i, r) else none
    | none => none

/-- The n-th collective's transfer of a world's group on a port: what it holds, or the code of what failed it. One that was lost with its
first flit is the next that is looked for; one that a later transfer has overtaken ended with its link (log 25). -/
def Port.contribution (p : Port) (world group n : Nat) : Option (Except Nat RxData) :=
  match p.rx.find? fun r => r.ofGroup world group && r.isSeq n with
  | some r => if r.fail ≠ 0 then some (.error r.fail) else if r.complete then some (.ok r) else none
  | none =>
    match p.rx.find? fun r => r.ofGroup world group && r.unknown with
    | some r => some (.error r.fail)
    | none =>
      if p.rx.any fun r => r.ofGroup world group && decide (r.fail = 0) && !r.isSend && decide (n < r.seq) then some (.error linkIsDown) else none

/-- The n-th collective of a group ends on a port: what was received of it goes, or else the lost transfer that stood for it (`lost`), and
what may still come of it is noted (`owes`). -/
def Port.endSeq (world group n : Nat) (lost owes : Bool) (p : Port) : Port :=
  let mine := fun (r : RxData) => r.ofGroup world group && r.isSeq n
  let held := p.rx.any mine
  { p with
    rx := if held then p.rx.filter fun r => !mine r
      else if lost then p.rx.eraseP fun r => r.ofGroup world group && r.unknown else p.rx
    owed := if owes && !held then p.owed ++ [(world, group, n)] else p.owed }

/-! ## A group's tree (R303) -/

/-- A collective command's descriptor, kept behind its words: word 0 and word 1. -/
def EngCmd.group (c : EngCmd) : Nat := if cmdOpcode c.header ≤ 3 then fld (c.word 4) 48 16 else fld (c.word 1) 48 16
def EngCmd.rank (c : EngCmd) : Nat := fld (c.word 4) 40 8
def EngCmd.members (c : EngCmd) : Nat := fld (c.word 4) 32 8
def EngCmd.parent (c : EngCmd) : Nat := fld (c.word 5) 18 5
def EngCmd.isRoot (c : EngCmd) : Bool := decide (c.parent = 31)
def EngCmd.children (c : EngCmd) : List Nat := (List.range 18).filter fun p => flag (c.word 5) p
/-- The ports that a command uses. -/
def EngCmd.tree (c : EngCmd) : List Nat :=
  if cmdOpcode c.header ≤ 3 then c.children ++ (if c.isRoot then [] else [c.parent]) else [fld (c.word 1) 0 5]
/-- A command of the tree: ALLREDUCE, ALLGATHER, REDUCESCATTER. -/
def EngCmd.isTree (c : EngCmd) : Bool := decide (c.engine = 2) && decide (cmdOpcode c.header ≤ 3)
/-- Its number on a port. -/
def EngCmd.seqOn (c : EngCmd) (p : Nat) : Nat := ((c.seqs.find? fun e => decide (e.1 = p)).map Prod.snd).getD 0
/-- Whether it still waits for a transfer on a port of its tree. -/
def EngCmd.expects (c : EngCmd) (p : Nat) : Bool := decide (p = c.parent) || decide (c.aux = 0)

/-- Whether a descriptor is well formed. -/
def descOk (bs : List Byte) : Bool :=
  let w0 := wordAt bs 0
  let w1 := wordAt bs 1
  decide (fld w0 0 32 = 0) && decide (fld w1 23 41 = 0) && (bs.drop 16).all (· = 0) &&
  decide (2 ≤ fld w0 32 8) && decide (fld w0 40 8 < fld w0 32 8) &&
  decide (fld w1 18 5 < 18 ∨ fld w1 18 5 = 31) && !flag w1 (fld w1 18 5)

/-- The unfinished command of the tree that a port knows by a group and a number. -/
def State.treeCmd (s : State) (port world group n : Nat) : Option (Nat × EngCmd) :=
  (List.range s.engCmds.length).findSome? fun i =>
    match s.engCmds[i]? with
    | some c =>
      if c.isTree && decide (c.world = world) && decide (c.group = group) && c.tree.contains port && decide (c.seqOn port = n)
      then some (i, c) else none
    | none => none

/-- How many collectives of a group a port has accepted, and whether the n-th has ended here. -/
def Port.count (p : Port) (world group : Nat) : Nat := Sparse.get 0 p.groups (world * 65536 + group)
def State.hasEnded (s : State) (port world group n : Nat) : Bool :=
  decide (n ≤ (s.port port).count world group) && (s.treeCmd port world group n).isNone

/-- The oldest unfinished command of a group that waits for a transfer on a port of which nothing has come. -/
def State.awaiting (s : State) (port world group : Nat) : Option (Nat × EngCmd) :=
  (List.range s.engCmds.length).findSome? fun i =>
    match s.engCmds[i]? with
    | some c =>
      if c.isTree && decide (c.world = world) && decide (c.group = group) && c.tree.contains port && c.expects port &&
        !((s.port port).rx.any fun r => r.ofGroup world group && r.isSeq (c.seqOn port)) then some (i, c) else none
    | none => none

/-! ## The ingress buffer (R296) -/

/-- Whether an accepted command takes a transfer in as it comes. -/
def State.takesIn (s : State) (port : Nat) (r : RxData) : Bool :=
  s.engCmds.any fun c => decide (c.engine = 2) && r.ofGroup c.world c.group && c.tree.contains port &&
    (if r.isSend then decide (cmdOpcode c.header = 5) else c.isTree && r.isSeq (c.seqOn port))

/-- The bytes in a port's ingress buffer: the transfers received that no accepted command takes in. -/
def State.ingress (s : State) (port : Nat) : Nat :=
  (((s.port port).rx.filter fun r => !s.takesIn port r).map fun r => r.bytes.length).sum + (s.port port).pktBytes.length

/-- Flow control: PAUSE above three quarters, RESUME below one quarter (R296). -/
def State.flow (s : State) (port : Nat) : State :=
  let q := s.port port
  let n := s.ingress port
  let full := q.up && !q.held && decide (3 * Config.ingressBytes < 4 * n)
  let under := q.up && q.held && decide (4 * n < Config.ingressBytes)
  s.setPort port { q with
    held := full || (q.held && !under)
    sent := q.sent ++ (if full then [bareFlit q.cur 4] else []) ++ (if under then [bareFlit q.cur 5] else []) }

def State.flowOn (s : State) (ports : List Nat) : State := ports.foldl State.flow s

/-! ## Failure (R305) -/

/-- The payload of a failure notice, a management transfer. -/
def noticeBytes (world group n code : Nat) : List Byte :=
  [1, BitVec.ofNat 8 code, BitVec.ofNat 8 world] ++ natToLe 2 group ++ natToLe 8 n

/-- A command fails with a code: its result is posted; of a command of the tree, the notice goes over every port of the tree, and what its
number had received there is dropped. `silent`: a port on which nothing more of it comes. -/
def State.failCmd (s : State) (k : Nat) (c : EngCmd) (code : Nat) (silent : Option Nat) : State :=
  let s1 := s.endCmd k c code 0
  if c.isTree then
    c.tree.foldl (fun t p => (t.modPort p fun q =>
      (q.endSeq c.world c.group (c.seqOn p) (decide (silent = some p)) (c.expects p && decide (silent ≠ some p))).post p s.meridian
        (noticeBytes c.world c.group (c.seqOn p) code)).flow p) s1
  else s1

/-- A failure notice from a port: the command of that number fails; one not yet accepted will, when it is; an ended one is not touched. -/
def State.notice (s : State) (port world group n code : Nat) : State :=
  let s1 := s.modPort port fun q => { q with owed := q.owed.filter fun e => decide (e ≠ (world, group, n)) }
  match s1.treeCmd port world group n with
  | some (k, c) => s1.failCmd k c code (some port)
  | none =>
    if n ≤ (s1.port port).count world group then s1
    else s1.modPort port fun q =>
      { q with rx := (q.rx.eraseP fun r => r.ofGroup world group && r.unknown) ++ [⟨world, group, natToLe 8 0 ++ natToLe 8 0 ++ natToLe 8 n, code⟩] }

/-- COLLECTIVE_FAILURE_NOTICE. -/
def collectiveFailureNotice (port world group n code : Nat) : M Unit := do
  require ((← get).port port).up
  modify (·.notice port world group n code)

def execCollectiveFailureNotice (port world group n code : Nat) : State → Host.Outcome State Fault Refusal :=
  event (collectiveFailureNotice port world group n code)

/-- A port whose link is down: no generation, no binding, nothing that waits to be sent; a transfer that waits for its command has failed,
but for a SEND that has come whole. -/
def Port.downed (p : Port) : Port :=
  { p with
    up := false, paused := false, held := false, binding := 0, pktBytes := [], queued := [], owed := []
    rx0 := { p.rx0 with live := false }, rx1 := { p.rx1 with live := false }
    tx0 := { p.tx0 with live := false }, tx1 := { p.tx1 with live := false }
    rx := p.rx.map fun r => if r.fail ≠ 0 || (r.isSend && r.complete) then r else { r with fail := linkIsDown } }

/-- A command that used a port whose link went down fails (R305); a RECV with the SEND that it would have taken. -/
def State.failOn (port : Nat) (s : State) (uid : EngCmd) : State :=
  match s.engCmds.findIdx? fun c => decide (c = uid) with
  | none => s
  | some k =>
    let t := s.failCmd k uid linkIsDown (some port)
    if uid.isTree then t
    else t.modPort port fun q => match q.firstSend uid.world uid.group with
      | some (i, _) => q.take i
      | none => q

/-- A link goes down: its generations end with it, and every command that waits on it fails. -/
def State.downLink (s : State) (port : Nat) : State :=
  (s.engCmds.filter fun c => (c.isTree || (decide (c.engine = 2) && decide (cmdOpcode c.header = 5))) && c.tree.contains port).foldl
    (State.failOn port) (s.modPort port Port.downed)

def linkDown (port : Nat) : M Unit := do
  require ((← get).port port).up
  modify (·.downLink port)

def execLinkDown (port : Nat) : State → Host.Outcome State Fault Refusal := event (linkDown port)

/-! ## Receiving (R297 to R301) -/

/-- The payload of a kind 0 flit joined to its transfer: offset 0 begins one, and another offset continues the one that has come so far.
The transfer of a collective that has ended here goes (R305). -/
def State.join (s : State) (port world group off : Nat) (bs : List Byte) : State :=
  if off = 0 then
    let r : RxData := ⟨world, group, bs, 0⟩
    if !r.isSend && s.hasEnded port world group r.seq then
      s.modPort port fun q => { q with owed := q.owed.filter fun e => decide (e ≠ (world, group, r.seq)) }
    else s.modPort port fun q => { q with rx := q.rx ++ [r] }
  else
    let more := fun (r : RxData) =>
      if r.ofGroup world group && r.open_ && decide (r.bytes.length = off) then { r with bytes := r.bytes ++ bs } else r
    s.modPort port fun q => { q with rx := q.rx.map more }

/-- A work packet's bytes as they arrive; at 64 the packet is accepted by R10 and placed by R58, or counted. -/
def State.pktArrives (s : State) (port world off : Nat) (bs : List Byte) : State :=
  let got := (if off = 0 then [] else (s.port port).pktBytes) ++ bs
  if got.length < 64 then s.modPort port fun q => { q with pktBytes := got }
  else
    let t := s.modPort port fun q => { q with pktBytes := [] }
    match t.offer world (got.take 64) with
    | .accepted u => u
    | _ => t.modPort port Port.discard

/-- A management transfer: a failure notice, or the peer's worlds (R299). -/
def State.manage (s : State) (port : Nat) (bs : List Byte) : State :=
  let n := fun (i k : Nat) => leToNat ((bs.drop i).take k)
  match n 0 1 with
  | 1 => s.notice port (n 2 1) (n 3 2) (n 5 8) (n 1 1)
  | 2 => (s.modPort port fun q => ({ q with peer := BitVec.ofNat 16 (n 1 2) } : Port).forget (BitVec.ofNat 16 (n 1 2))).refreshBindings
  | _ => s

/-- A flit released after its group's verification. -/
def State.release (s : State) (port : Nat) (f : W64 × List Byte) : State :=
  let h := f.1
  let bound := (s.port port).binding.getLsbD (flitWorld h)
  match flitKind h with
  | 0 => if bound then (s.join port (flitWorld h) (flitGroup h) (flitOffset h) f.2).flow port else s.modPort port Port.discard
  | 1 => if bound then (s.pktArrives port (flitWorld h) (flitOffset h) f.2).flow port else s.modPort port Port.discard
  | _ => s.manage port f.2

/-- A kind 0 flit lost: with its first flit, a transfer that a failed collective still owed, or that of the next command which waits there,
or of one to come; with a later one, the transfer that has begun. -/
def State.loseFlit (s : State) (port world group off : Nat) : State :=
  let q := s.port port
  if off = 0 then
    if q.owed.any fun e => decide (e.1 = world) && decide (e.2.1 = group) then
      s.modPort port fun q => { q with owed := q.owed.eraseP fun e => decide (e.1 = world) && decide (e.2.1 = group) }
    else
      match s.awaiting port world group with
      | some (k, c) => s.failCmd k c genRetired (some port)
      | none => s.modPort port fun q => { q with rx := q.rx ++ [⟨world, group, [], genRetired⟩] }
  else
    match q.rx.find? fun r => r.ofGroup world group && r.open_ && decide (r.bytes.length = off) with
    | none => s
    | some r =>
      match if r.isSend then none else s.treeCmd port world group r.seq with
      | some (k, c) => s.failCmd k c genRetired (some port)
      | none => s.modPort port fun q => { q with rx := q.rx.map fun x => if x = r then { r with fail := genRetired } else x }

/-- A flit of a retired generation is discarded (R301). -/
def State.dropRetired (s : State) (port : Nat) (f : Flit) : State :=
  let h := f.header
  match flitKind h with
  | 0 => s.loseFlit port (flitWorld h) (flitGroup h) (flitOffset h)
  | 1 => s.modPort port fun q => { q.discard with pktBytes := [] }
  | _ => s

/-- A direction left with no live generation takes its link down (R301). -/
def State.checkGens (s : State) (port : Nat) : State :=
  let q := s.port port
  if q.up && ((!q.rx0.live && !q.rx1.live) || (!q.tx0.live && !q.tx1.live)) then s.downLink port else s

/-- The receiver retires a generation. -/
def State.retireRx (s : State) (port g : Nat) : State :=
  (s.modPort port fun q => q.setRx g { q.rxGen g with live := false }).checkGens port

/-- A PAUSE or a RESUME received; after a RESUME, what waited is sent. -/
def State.setPaused (s : State) (port : Nat) (paused : Bool) : State :=
  s.modPort port fun p => ({ p with paused := paused } : Port).flush port s.meridian

/-- FLIT_RECEIVE: a flit of no payload, of a reserved kind, or a group of kinds 0 to 2. -/
def flitReceive (port : Nat) (fs : List Flit) : M Unit := do
  let s ← get
  let q := s.port port
  require q.up
  match fs with
  | [] => require false
  | f :: rest =>
    let g := flitGen f.header
    let kind := flitKind f.header
    if kind ≥ 3 then
      require rest.isEmpty
      set (match kind with
        | 3 => s.retireRx port g
        | 4 => s.setPaused port true
        | 5 => s.setPaused port false
        | _ => s.modPort port Port.discard)
    else if !(q.rxGen g).good s.meridian then set (fs.foldl (fun t x => t.dropRetired port x) s)
    else
      match q.open_ g fs with
      | some parts =>
        let t := s.modPort port fun p => p.setRx g { p.rxGen g with counter := (p.rxGen g).counter + 1 }
        set (parts.foldl (fun u x => u.release port x) t)
      | none => set ((s.modPort port Port.discard).downLink port)

def execFlitReceive (port : Nat) (f : List Flit) : State → Host.Outcome State Fault Refusal := event (flitReceive port f)

def pauseLink (port : Nat) (paused : Bool) : M Unit := do
  require ((← get).port port).up
  modify (·.setPaused port paused)

def execPauseFlit (port : Nat) : State → Host.Outcome State Fault Refusal := event (pauseLink port true)
def execResumeFlit (port : Nat) : State → Host.Outcome State Fault Refusal := event (pauseLink port false)

def retireFlit (port : Nat) (gen : Bool) : M Unit := do
  require ((← get).port port).up
  modify (·.retireRx port (boolNat gen))

def execRetireFlit (port : Nat) (gen : Bool) : State → Host.Outcome State Fault Refusal := event (retireFlit port gen)

/-! ## Links and their keys (R299 to R301) -/

/-- A lease in microseconds, and the age at which firmware starts a rotation (R300, R40). -/
def leaseUs : Nat := 900000000
def rotationUs : Nat := 600000000

/-- A fresh key generation, and the serial number of the key after it. -/
def State.freshGen (s : State) : Gen := ⟨s.keySerial, true, s.meridian + leaseUs, 0⟩

/-- LINK_UP: only when both ends have proved themselves (R299). Generation 0 is installed in both directions. -/
def linkUp (port : Nat) (r : PeerReport) : M Unit := do
  let s ← get
  require (!(s.port port).up && s.booted && decide (s.bootState = 0) && r.authentic && r.bootGood && r.firmwareEqual)
  let rx := s.freshGen
  let tx : Gen := { rx with key := rx.key + 1 }
  let t := s.modPort port fun q =>
    { q.forget r.kept with
      up := true, paused := false, held := false, peer := r.worlds, told := s.runMask, peerPort := r.port, side := r.side, cur := 0
      rx0 := rx, rx1 := Gen.init, tx0 := tx, tx1 := Gen.init, installedAt := s.meridian }
  set ({ t with keySerial := s.keySerial + 2 }.refreshBindings)

def execLinkUp (port : Nat) (p : PeerReport) : State → Host.Outcome State Fault Refusal := event (linkUp port p)

/-- LINK_KEY_ROTATION: a new key in the idle generation of each direction; the sender switches, and names the old one in a RETIRE
(R300). The key exchange travels in management flits, which a paused port does not send. -/
def linkKeyRotation (port : Nat) : M Unit := do
  let s ← get
  let q := s.port port
  let new := 1 - q.cur
  require (q.up && !q.paused && decide (q.installedAt + rotationUs ≤ s.meridian) && !(q.rxGen new).live && !(q.tx new).live)
  let g := s.freshGen
  let t := s.modPort port fun p =>
    let p1 := ((p.setRx new g).setTx new { g with key := g.key + 1 }).setTx p.cur { p.tx p.cur with live := false }
    ({ p1 with sent := p1.sent ++ [bareFlit p.cur 3], cur := new, installedAt := s.meridian } : Port).flush port s.meridian
  set { t with keySerial := s.keySerial + 2 }

def execLinkKeyRotation (port : Nat) : State → Host.Outcome State Fault Refusal := event (linkKeyRotation port)

/-- LINK_KEY_GENERATION_EXPIRY (R44, R301). -/
def linkKeyGenerationExpiry (port : Nat) (rx gen : Bool) : M Unit := do
  let s ← get
  let q := s.port port
  let g := boolNat gen
  let v := if rx then q.rxGen g else q.tx g
  require (v.live && decide (v.expiry ≤ s.meridian))
  let dead := { v with live := false }
  set ((s.modPort port fun p => if rx then p.setRx g dead else p.setTx g dead).checkGens port)

def execLinkKeyGenerationExpiry (port : Nat) (rx gen : Bool) : State → Host.Outcome State Fault Refusal :=
  event (linkKeyGenerationExpiry port rx gen)

/-! ## Acceptance of e2's commands (R302, R306) -/

/-- The element size at the source and in the destination type. -/
def redBytes (h : W64) : Nat := if fld h 30 2 = 1 then 2 else 4
def gatherBytes (h : W64) : Nat := 2 ^ fld h 30 2

/-- Whether a command is well formed but for what its descriptor says. -/
def e2Ok (ws : List W64) : Bool :=
  let h := ws.headD 0
  let w := fun (i : Nat) => ws[i]?.getD 0
  let port := fun (v : W64) => decide (fld v 0 5 ≤ 17)
  decide (fld h 48 4 = 0) &&
  (match cmdOpcode h with
    | 1 => decide (cmdExtra h = 3) && decide (fld h 30 2 ≠ 3) && decide (fld h 28 2 ≠ 3) && decide (fld h 0 28 ≠ 0)
    | 2 => decide (cmdExtra h = 3) && decide (fld h 30 2 ≠ 3) && decide (fld h 28 2 = 0) && decide (fld h 0 28 ≠ 0)
    | 3 => decide (cmdExtra h = 3) && decide (fld h 30 2 ≠ 3) && decide (fld h 28 2 ≠ 3) && decide (fld h 0 28 ≠ 0)
    | 4 => decide (cmdExtra h = 3) && decide (fld h 0 32 = 0) && decide (fld (w 1) 5 43 = 0) && port (w 1) &&
        decide (w 3 ≠ 0) && decide (fld (w 3) 32 32 = 0)
    | 5 => decide (cmdExtra h = 3) && decide (fld h 0 32 = 0) && decide (fld (w 1) 5 43 = 0) && port (w 1) &&
        decide (w 3 ≠ 0) && decide (fld (w 3) 32 32 = 0)
    | 6 => decide (cmdExtra h = 2) && decide (fld h 0 32 = 0) && decide (fld (w 1) 5 59 = 0) && port (w 1)
    | _ => false)

/-- A range checked against one capability (R306): CAPFAULT at the first byte that it does not hold. -/
def oneCap (w : Who) (kind : Kind) (ea : W64) (n : Nat) : M Cap := do
  let cap ← authorize w ea [kind]
  if ea.toNat + n > cap.base + cap.len then trapAt Cause.capfault (w64 (cap.base + cap.len))
  return cap

/-- The bytes that a command reads at its source and writes at its destination on this device. -/
def EngCmd.srcBytes (c : EngCmd) : Nat :=
  match cmdOpcode c.header with
  | 2 => fld c.header 0 28 * gatherBytes c.header
  | 4 => (c.word 3).toNat
  | 6 => 64
  | _ => fld c.header 0 28 * redBytes c.header

def EngCmd.dstBytes (c : EngCmd) : Nat :=
  match cmdOpcode c.header with
  | 1 => fld c.header 0 28 * redBytes c.header
  | 2 => c.members * fld c.header 0 28 * gatherBytes c.header
  | 3 => fld c.header 0 28 / c.members * redBytes c.header
  | _ => (c.word 3).toNat

/-- The checks at acceptance: the descriptor, the source as a read, the destination as a write. A count that is not a multiple of
members is refused with 0x01. The command with its descriptor, and the capabilities used. -/
def e2Checks (c : EngCmd) : M (EngCmd × List Cap) := do
  let w := c.who
  match cmdOpcode c.header with
  | 4 => return (c, [← oneCap w .read (c.word 2) c.srcBytes])
  | 5 => return (c, [← oneCap w .write (c.word 2) c.dstBytes])
  | 6 => do
    if (c.word 2).toNat % 64 ≠ 0 then trapAt Cause.align (c.word 2)
    return (c, [← oneCap w .read (c.word 2) 64])
  | op => do
    if (c.word 1).toNat % 64 ≠ 0 then trapAt Cause.align (c.word 1)
    let dcap ← oneCap w .read (c.word 1) 64
    let bs ← engineRead w (c.word 1) 64
    if !descOk bs then trapAt Cause.shape (c.word 1)
    let c1 := { c with words := c.words ++ [wordAt bs 0, wordAt bs 1] }
    if op = 3 && fld c.header 0 28 % c1.members ≠ 0 then trapAt Cause.illegal (c.word 1)
    let r ← oneCap w .read (c.word 2) c1.srcBytes
    let d ← oneCap w .write (c.word 3) c1.dstBytes
    return (c1, [dcap, r, d])

/-- An e2 command queued; one of the tree takes the next number of its group on each port. -/
def State.queueTree (s : State) (c : EngCmd) : State :=
  if c.isTree then
    let n := fun (p : Nat) => (s.port p).count c.world c.group + 1
    (c.tree.foldl (fun t p => t.modPort p fun q => { q with groups := Sparse.set 0 q.groups (c.world * 65536 + c.group) (n p) })
      ({ s with engCmds := s.engCmds ++ [{ c with seqs := c.tree.map fun p => (p, n p) }] } : State)).flowOn c.tree
  else ({ s with engCmds := s.engCmds ++ [c] } : State).flowOn (if cmdOpcode c.header = 5 then c.tree else [])

/-- An e2 command accepted: its capabilities are charged, and the bytes of its descriptor. -/
def acceptE2 (c : EngCmd) : M Unit := do
  match ← attempt (e2Checks c) with
  | .error t => modify (·.postResult c t.cause.toNat 0)
  | .ok (c1, caps) => do
    modify fun s =>
      let t := s.chargeCmdCaps c caps
      if cmdOpcode c.header ≤ 3 then t.chargeCmd c 1 else t
    modify (·.queueTree c1)

/-! ## Frames and elements (R304) -/

/-- The header that a transfer carries: the command's with its tag zero. -/
def EngCmd.wireHeader (c : EngCmd) : W64 := w64 (fld c.header 48 16 * 2 ^ 48 + fld c.header 0 32)

/-- A transfer of a command on a port. -/
def EngCmd.frame (c : EngCmd) (p : Nat) (bs : List Byte) : List Byte :=
  natToLe 8 c.wireHeader.toNat ++ natToLe 8 bs.length ++ natToLe 8 (c.seqOn p) ++ bs

/-- A transfer sent on each of some ports. -/
def State.sendAll (s : State) (c : EngCmd) (ports : List Nat) (bs : List Byte) : State :=
  ports.foldl (fun t p => t.sendOn p c.world 0 c.group (c.frame p bs)) s

/-- A signed number from n bytes, and to n bytes. -/
def signedOf (n v : Nat) : Int := if 2 ^ (8 * n - 1) ≤ v then (v : Int) - 2 ^ (8 * n) else v
def unsignedOf (n : Nat) (v : Int) : Nat := (v % 2 ^ (8 * n)).toNat

/-- Size of an element in the wire type: FP32, or a 64-bit integer. -/
def wireBytes (h : W64) : Nat := if fld h 30 2 = 2 then 8 else 4

/-- An own source element widened to the wire type. -/
def widen (h : W64) (v : Nat) : Nat :=
  match fld h 30 2 with
  | 1 => v * 65536
  | 2 => unsignedOf 8 (signedOf 4 v)
  | _ => v

def fpPick (f : Fp → Fp → Fp × Nat) (a b : Nat) : Nat := (roundFp32 (f (Fmt.fp32.decode a) (Fmt.fp32.decode b)).1 0).bits

/-- One combining step in the wire type. -/
def redOp (h : W64) (a b : Nat) : Nat :=
  if fld h 30 2 = 2 then
    let x := signedOf 8 a
    let y := signedOf 8 b
    match fld h 28 2 with
    | 0 => unsignedOf 8 (x + y)
    | 1 => unsignedOf 8 (max x y)
    | _ => unsignedOf 8 (min x y)
  else
    match fld h 28 2 with
    | 0 => (addFp32 a b).bits
    | 1 => fpPick Fp.max a b
    | _ => fpPick Fp.min a b

/-- The root narrows once to the destination type: BF16 by R156, INT32 with saturation. -/
def narrow (h : W64) (v : Nat) : Nat :=
  match fld h 30 2 with
  | 1 => (convert 7 5 v).bits
  | 2 => (satInt 8 (signedOf 8 v)).bits
  | _ => v

/-- The contribution of a device: its own source widened, then each child's in port order. -/
def reduceAll (h : W64) (own : List Nat) (others : List (List Nat)) : List Nat :=
  others.foldl (fun acc xs => acc.zipWith (redOp h) xs) (own.map (widen h))

/-! ## The tree's collectives (R302 to R305) -/

/-- The command's transfers on the given ports, all of them whole; a failure on any port of its tree comes first, with the port. -/
def arrivals (c : EngCmd) (ports : List Nat) : M (Except (Nat × Nat) (List RxData)) := do
  let s ← get
  let at_ := fun (p : Nat) => (s.port p).contribution c.world c.group (c.seqOn p)
  match (c.tree.filter c.expects).findSome? (fun p => match at_ p with
    | some (.error code) => some (p, code)
    | _ => none) with
  | some x => return .error x
  | none => do
    require (ports.all fun p => (at_ p).isSome)
    return .ok (ports.filterMap fun p => match at_ p with
      | some (.ok r) => some r
      | _ => none)

/-- The transfers that a command has used leave their ports. -/
def State.consume (s : State) (c : EngCmd) (ports : List Nat) : State :=
  ports.foldl (fun t p => (t.modPort p (·.endSeq c.world c.group (c.seqOn p) false false)).flow p) s

/-- The frames match the command's: count, type, opcode and length. -/
def framesMatch (c : EngCmd) (rs : List RxData) (len : Nat → Bool) : Bool :=
  rs.all fun r => decide (wordAt r.bytes 0 = c.wireHeader) && len r.data.length

/-- A destination written from the whole result, and the command ended. -/
def deliver (k : Nat) (c : EngCmd) (result : List Byte) : M Unit := do
  let n := c.dstBytes
  let part := if cmdOpcode c.header = 3 then (result.drop (c.rank * n)).take n else result
  match ← attempt (engineWrite c.who (c.word 3) part fun s => return s) with
  | .error t => modify (·.endCmd k c t.cause.toNat 0)
  | .ok () => modify fun s =>
      let v := match cmdOpcode c.header with
        | 1 => fld c.header 0 28
        | 2 => c.members * fld c.header 0 28
        | _ => fld c.header 0 28 / c.members
      (s.chargeCmd c (pipsOf n)).endCmd k c 0 v

/-- What goes up from a device, from its own source and the children's data. -/
def EngCmd.up (c : EngCmd) (own : List Byte) (kids : List (List Byte)) : List Byte :=
  if cmdOpcode c.header = 2 then natToLe 8 c.rank ++ own ++ kids.flatten
  else
    let z := wireBytes c.header
    let n := fld c.header 0 28
    bytesOf z (reduceAll c.header (elemsOf (redBytes c.header) n own) (kids.map fun b => elemsOf z n b))

/-- The blocks of an ALLGATHER in rank order, rank 0's first. -/
def rankBlocks (members len : Nat) (bs : List Byte) : List Byte :=
  (List.range members).flatMap fun r =>
    match (List.range (bs.length / (len + 8))).find? (fun i => decide (leToNat ((bs.drop (i * (len + 8))).take 8) = r)) with
    | some i => (bs.drop (i * (len + 8) + 8)).take len
    | none => List.replicate len 0

/-- What the root sends down. -/
def EngCmd.down (c : EngCmd) (up : List Byte) : List Byte :=
  if cmdOpcode c.header = 2 then rankBlocks c.members c.srcBytes up
  else bytesOf (redBytes c.header) ((elemsOf (wireBytes c.header) (fld c.header 0 28) up).map (narrow c.header))

/-- Up the tree: with every child's contribution received, the own source is read and the sum formed; a device sends it to its
parent, and the root narrows it, sends it down, and writes its destination. -/
def collectUp (k : Nat) (c : EngCmd) (kids : List RxData) : M Unit := do
  let len := fun (n : Nat) =>
    if cmdOpcode c.header = 2 then decide (n % (c.srcBytes + 8) = 0) else decide (n = fld c.header 0 28 * wireBytes c.header)
  if !framesMatch c kids len then modify (·.failCmd k c mismatch none)
  else
    match ← attempt (engineRead c.who (c.word 2) c.srcBytes) with
    | .error t => modify (·.failCmd k c t.cause.toNat none)
    | .ok own => do
      let up := c.up own (kids.map RxData.data)
      let out := if c.isRoot then c.down up else up
      let dests := if c.isRoot then c.children else [c.parent]
      let s0 ← get
      require (dests.all fun p => (s0.port p).sends s0.meridian)
      modify fun s => ((s.consume c c.children).chargeCmd c (pipsOf c.srcBytes)).sendAll c dests out
      if c.isRoot then deliver k c out else setCmd k { c with aux := 1 }

/-- Down the tree: the result goes on to every child and into the destination. -/
def collectDown (k : Nat) (c : EngCmd) (rs : List RxData) : M Unit := do
  let full := match cmdOpcode c.header with
    | 2 => c.members * c.srcBytes
    | _ => fld c.header 0 28 * redBytes c.header
  if !framesMatch c rs (fun n => decide (n = full)) then modify (·.failCmd k c mismatch none)
  else
    let s0 ← get
    require (c.children.all fun p => (s0.port p).sends s0.meridian)
    let out := rs.flatMap RxData.data
    modify fun s => (s.consume c [c.parent]).sendAll c c.children out
    deliver k c out

/-- The next step of the k-th command, an ALLREDUCE, ALLGATHER or REDUCESCATTER: those of one group go in order. -/
def collective (k op : Nat) : M Unit := do
  let c ← cmdAt k 2 op
  require (!((← get).engCmds.take k).any fun d =>
    decide (d.engine = 2) && decide (cmdOpcode d.header ≤ 3) && decide (d.world = c.world) && decide (d.group = c.group))
  let failed := fun (x : Nat × Nat) => modify (·.failCmd k c x.2 (some x.1))
  if c.aux = 0 then
    match ← arrivals c c.children with
    | .error x => failed x
    | .ok kids => collectUp k c kids
  else
    match ← arrivals c [c.parent] with
    | .error x => failed x
    | .ok rs => collectDown k c rs

def execAllreduce (k : Nat) : State → Host.Outcome State Fault Refusal := event (collective k 1)
def execAllgather (k : Nat) : State → Host.Outcome State Fault Refusal := event (collective k 2)
def execReducescatter (k : Nat) : State → Host.Outcome State Fault Refusal := event (collective k 3)

/-! ## SEND, RECV, PKTSEND (R302) -/

/-- No older command of the opcode waits on the same port for the same group. -/
def firstOnPort (k : Nat) (c : EngCmd) : M Unit := do
  require (!((← get).engCmds.take k).any fun d =>
    decide (d.engine = 2) && decide (cmdOpcode d.header = cmdOpcode c.header) && decide (d.world = c.world) && decide (d.word 1 = c.word 1))

def sendData (k : Nat) : M Unit := do
  let c ← cmdAt k 2 4
  firstOnPort k c
  let p := fld (c.word 1) 0 5
  require (((← get).port p).sends (← get).meridian)
  match ← attempt (engineRead c.who (c.word 2) c.srcBytes) with
  | .error t => modify (·.endCmd k c t.cause.toNat 0)
  | .ok bs => modify fun s =>
      ((s.sendOn p c.world 0 c.group (c.frame p bs)).chargeCmd c (pipsOf bs.length)).endCmd k c 0 bs.length

def execSend (k : Nat) : State → Host.Outcome State Fault Refusal := event (sendData k)

/-- RECV: the first SEND of the group on the port; a different length is MISMATCH and writes nothing. -/
def recvData (k : Nat) : M Unit := do
  let c ← cmdAt k 2 5
  firstOnPort k c
  let p := fld (c.word 1) 0 5
  match ((← get).port p).firstSend c.world c.group with
  | none => require false
  | some (i, r) => do
    require (r.complete || decide (r.fail ≠ 0))
    modify (·.modPort p (·.take i))
    if r.fail ≠ 0 then modify (·.endCmd k c r.fail 0)
    else if r.data.length ≠ c.dstBytes then modify (·.endCmd k c mismatch 0)
    else
      match ← attempt (engineWrite c.who (c.word 2) r.data fun s => return s) with
      | .error t => modify (·.endCmd k c t.cause.toNat 0)
      | .ok () => modify fun s => (s.chargeCmd c (pipsOf r.data.length)).endCmd k c 0 r.data.length
    modify (·.flow p)

def execRecv (k : Nat) : State → Host.Outcome State Fault Refusal := event (recvData k)

def pktSend (k : Nat) : M Unit := do
  let c ← cmdAt k 2 6
  let p := fld (c.word 1) 0 5
  require (((← get).port p).sends (← get).meridian)
  match ← attempt (engineRead c.who (c.word 2) 64) with
  | .error t => modify (·.endCmd k c t.cause.toNat 0)
  | .ok bs => modify fun s => ((s.sendOn p c.world 1 0 bs).chargeCmd c 1).endCmd k c 0 1

def execPktsend (k : Nat) : State → Host.Outcome State Fault Refusal := event (pktSend k)

end Sys2Proof.Machine
end

