-- ==== Sys2Proof/Machine/Identity.lean ====
section
/-! DEFINITION. Die identity (R48, R51): the key pairs of the three logic dies, their certificates, the package certificate, the attestation
key of a boot, and the two chains of certificates. Logic die 0 is the IO die; 1 and 2 are compute dies 0 and 1. -/

namespace Sys2Proof.Machine

/-- The identity key pair of a logic die, by name: SLH-DSA-SHAKE-256s from its fuses by way of SHAKE256. -/
def dieIdentity (d : Nat) : Nat := Config.identityKey (Config.fuseEntropy d)

/-- The digest of a die's identity public key: 48 bytes of SHAKE256. -/
def dieDigest (d : Nat) : BitVec 384 := Config.shake256 (Config.publicKey (dieIdentity d))

/-- A certificate: its contents, then their signature by the issuer's SLH-DSA-SHAKE-256s key. -/
def certify (issuer : Nat) (contents : List Byte) : List Byte := contents ++ Config.sign256s issuer contents

/-- A die's DeviceID certificate, signed by the manufacturing CA. -/
def deviceIdCert (d : Nat) : List Byte := certify Config.caKey (Config.publicKey (dieIdentity d))

/-- The package certificate: the serial number, and the three digests in the order IO die, compute die 0, compute die 1. -/
def packageCert : List Byte :=
  certify Config.caKey (Config.packageSerial ++ [0, 1, 2].flatMap fun d => natToLe 48 (Config.listedDigest d).toNat)

/-- The attestation key pair that a boot derives from the IO die's identity key and the firmware measurement: SLH-DSA-SHAKE-256f. -/
def bootAttestation : Nat := Config.attestationKey (dieIdentity 0) Config.firmwareDigest

/-- The attestation key's certificate, by the IO die's identity key. -/
def State.attestationCert (s : State) : List Byte := certify (dieIdentity 0) (Config.publicKey s.attKey)

/-- The chain of certificates in a slot (R51). -/
def State.certChain (s : State) (slot : Nat) : List (List Byte) :=
  if slot = 0 then [Config.rootCertificate, deviceIdCert 0, s.attestationCert] else [packageCert, deviceIdCert 1, deviceIdCert 2]

/-- The signature of an SPDM response by the attestation key, over its code and contents (R51, log 27). -/
def State.signature (s : State) (code : Nat) (contents : List Byte) : List Byte := Config.sign256f s.attKey (natToLe 1 code ++ contents)

/-- Bytes as numbers of a response. -/
def numbers (bs : List Byte) : List Nat := bs.map (·.toNat)

end Sys2Proof.Machine
end

