-- ==== Sys2Proof/Machine/Worlds.lean ====
section
/-! DEFINITION. Worlds come and go: WORLD_CREATE, WORLD_ASSIGN, WORLD_DESTROY (R32, R56, R67, R121, R293 to R295, R325), and the
renewal of leases (R42, R43). -/

namespace Sys2Proof.Machine

/-! ## Zeroing (R56) -/

def inRange (lo n loc : Nat) : Bool := decide (lo ≤ loc) && decide (loc < lo + n)

/-- A range of SRAM zeroed, its full/empty bits cleared. -/
def State.zeroRange (s : State) (lo n : Nat) : State :=
  { s with mem := s.mem.filter fun e => !inRange lo n e.1, full := s.full.filter fun e => !inRange lo n e.1 }

/-- What a core is when it has changed world: everything but what R56 and R293 do not name. -/
def Core.fresh (c : Core) (w now : Nat) : Core :=
  { Core.init with
    world := w, zeroing := true, enabled := c.enabled, enabledAt := c.enabledAt, qdef := c.qdef, pipecfg := c.pipecfg, slotsel := c.slotsel
    vbase := c.vbase, gated := c.gated, lastRow := now, arrayWake := c.arrayWake }

/-- A core's zeroing begins, for a world: its scratchpad, its share of cluster memory and its mailboxes, its units and queues, its L1,
and the old world's lines in its cluster's L2. -/
def State.zeroCore (w : Nat) (s : State) (c : Nat) : State :=
  let old := (s.core c).world
  let t := ((s.zeroRange (spadLoc c 0) (2 ^ 18)).zeroRange (clusterLoc c 0) (2 ^ 17)).zeroRange (ctrlLoc c 0) 0x200
  { t.setCore c ((t.core c).fresh w t.cycle) with
    l2 := t.l2.map fun e => if e.1 / 2048 = clusterOf c then (e.1, e.2.filter fun l => decide (l.owner ≠ old)) else e }

/-- The chip-scratchpad extents of a list zeroed. -/
def State.zeroChip (s : State) (l : List Extent) : State :=
  (l.filter fun e => decide (e.kind = 2)).foldl (fun t e => t.zeroRange (chipLoc e.dpa) e.len) s

/-! ## WORLD_CREATE (R32, R60, R121, R325) -/

/-- An extent from its 32 bytes; none where a reserved bit is set, the kind is reserved, or an address is misaligned. -/
def extentOf (bs : List Byte) : Option Extent :=
  let w := fun (i : Nat) => leToNat ((bs.drop (8 * i)).take 8)
  let e : Extent := ⟨w 0, w 1, w 2, w 3⟩
  if e.wpa < 2 ^ 56 && e.dpa < 2 ^ 56 && e.kind ≤ 2 && e.wpa % 65536 = 0 && e.dpa % 65536 = 0 && e.len % 65536 = 0 && e.len ≠ 0 &&
    (e.kind ≠ 2 || e.wpa = 0) then some e
  else none

def extentsOf (bs : List Byte) (n : Nat) : Option (List Extent) :=
  (List.range n).mapM fun i => extentOf ((bs.drop (32 * i)).take 32)

/-- Whether an extent lies in the device: stack n at n times 64 GiB + [0, 48 GiB), 64 MiB of chip scratchpad. -/
def Extent.inDevice (e : Extent) : Bool :=
  match e.kind with
  | 0 => decide (e.dpa / 2 ^ 36 < 8) && decide (e.dpa % 2 ^ 36 + e.len ≤ 48 * 2 ^ 30)
  | 2 => decide (e.dpa + e.len ≤ 2 ^ 26)
  | _ => true

def crosses (a n b m : Nat) : Bool := decide (a < b + m) && decide (b < a + n)

/-- Whether two extents share HBM or chip scratchpad. -/
def Extent.shares (e f : Extent) : Bool := decide (e.kind = f.kind) && decide (e.kind ≠ 1) && crosses e.dpa e.len f.dpa f.len

/-- Whether no two extents that translation reaches overlap in world-physical addresses. -/
def wpaDisjoint (l : List Extent) : Bool :=
  match l with
  | [] => true
  | e :: rest => rest.all (fun f => decide (e.kind = 2) || decide (f.kind = 2) || !crosses e.wpa e.len f.wpa f.len) && wpaDisjoint rest

/-- Whether a list of extents is one that a world may have (R121). -/
def State.extentsOk (s : State) (w : Nat) (l : List Extent) : Bool :=
  l.all Extent.inDevice && wpaDisjoint l &&
  s.worlds.all fun e => decide (e.1 = w) || e.2.extents.all fun f => l.all fun x => !x.shares f

/-- Whether the launch spill ring and the swap area lie in kind 0 extents: c6 to c6 + 0x11_FFFF (R60). -/
def ringOk (l : List Extent) (ring : Nat) : Bool :=
  decide (ring % 65536 = 0) &&
  (List.range 18).all fun i => l.any fun e => decide (e.kind = 0) && inRange e.wpa e.len (ring + 65536 * i)

/-- The cores of a 64-byte mask. -/
def maskCores (bs : List Byte) : List Nat := (List.range 512).filter fun n => (bs[n / 8]?.getD 0).getLsbD (n % 8)

/-- A world's record as WORLD_CREATE makes it; world 1's keeps its key, and gets no other (R325). -/
def State.newWorld (s : State) (w : Nat) (l : List Extent) (weight ring : Nat) (debug : Bool) : State :=
  if w = 1 then
    s.modWorld 1 fun x =>
      { x with extents := l, weight := weight, ring := ring, tau := World.init.tau, counters := [], lastCore := none }
  else
    let e := s.meridian + leaseUs
    { s.setWorld w
        { World.init with
          live := true, debugOk := debug, extents := l, weight := weight, ring := ring, memKey := s.keySerial, memExpiry := e
          ctxKey := s.keySerial + 1, ctxExpiry := e } with
      keySerial := s.keySerial + 2 }

/-- The way masks of a world as after reset (R116, R293). -/
def State.openWays (s : State) (w : Nat) : State := { s with wayMasks := s.wayMasks.filter fun e => decide (e.1 / 64 ≠ w) }

/-- The command waits for the zeroing of cores, if there are any. -/
def zeroingEnd (cs : List Nat) : CmdEnd := if cs.isEmpty then .done Code.ok 0 else .zeroing cs

def worldCreate (c : Cmd) (s : State) : Effect :=
  let op := fun (i : Nat) => (s.cmdWord c.fn i).toNat
  let w := op 1
  let n := op 4
  let x := s.world w
  let lines := 1 + (32 * n + 63) / 64
  let unread := !hostRange (op 2) 64 || !hostRange (op 3) (32 * n) || match c.hostErr with
    | some j => decide (j < lines)
    | none => false
  if w = 0 || w > 15 then s.fails Code.badField
  else if (w = 1 && !(x.extents.isEmpty && (s.coresOf 1).isEmpty)) || (w ≠ 1 && x.live) then s.fails Code.badState
  else if n = 0 || n > 64 || op 5 = 0 || op 5 > 255 || op 6 % 65536 > 1 || unread then s.fails Code.badField
  else
    let cs := maskCores (s.hostRead (op 2) 64)
    let ring := op 6 / 65536 * 65536
    match extentsOf (s.hostRead (op 3) (32 * n)) n with
    | none => s.fails Code.badField
    | some l =>
      if !s.extentsOk w l || !ringOk l ring || cs.any (fun k => decide ((s.core k).world ≠ 0)) then s.fails Code.badField
      else
        let t := (s.newWorld w l (op 5) ring (decide (op 6 % 2 = 1))).openWays w
        (zeroingEnd cs, ((cs.foldl (State.zeroCore w) t).zeroChip l).refreshBindings)

def execWorldCreate (c : Cmd) : State → Host.Outcome State Fault Refusal := event (issueCmd c 0x02 0 (worldCreate c))

/-! ## WORLD_ASSIGN (R26, R32) -/

/-- Whether a WORLD_DESTROY of a world is BUSY. -/
def State.dying (s : State) (w : Nat) : Bool := s.fns.any fun e => match e.2.pending with
  | some p => p.destroys && decide (p.world = w) && (match p.fin with
      | .zeroing _ => true
      | _ => false)
  | none => false

def execWorldAssign (c : Cmd) : State → Host.Outcome State Fault Refusal :=
  event (issueCmd c 0x03 0 fun s =>
    let w := (s.cmdWord c.fn 1).toNat
    let f := (s.cmdWord c.fn 2).toNat
    if w < 2 || w > 15 || f = 0 || f > 14 then s.fails Code.badField
    else if !(s.world w).live || (s.world w).tdi ≠ 0 || s.dying w || (s.fn f).tdisp ≠ .unlocked || (s.fn f).world ≠ 0 then
      s.fails Code.badState
    else ((s.modWorld w fun x => { x with tdi := f }).modFn f fun x => { x with world := w }).refreshBindings.succeeds 0)

/-! ## WORLD_DESTROY (R293 to R295) -/

/-- The contexts of a world: in slots and in thread-context caches. -/
def State.contextsOf (s : State) (w : Nat) : List Slot :=
  (s.cores.filter fun e => decide (e.2.world = w)).flatMap fun e =>
    ((e.2.slots.map Prod.snd).filter fun q => decide (q.st ≠ .free)) ++ e.2.cache.map fun q => q.2.ctx

/-- The packets of a world in its launch queue and ring. -/
def State.launched (s : State) (w : Nat) : List (Vector W64 8) :=
  let x := s.world w
  (x.launch.flatMap (·.pkts)).map (·.w) ++ (List.range x.ringLen).map fun i =>
    packetWords (s.queueRead w (x.ring + 64 * ((x.ringHead + i) % 1024)) 64).1

/-- The packets of a world in deques and their spill lists. -/
def State.dequed (s : State) (w : Nat) : List Packet :=
  (s.cores.filter fun e => decide (e.2.world = w)).flatMap fun e =>
    e.2.deques.toList.flatMap fun d => d.hw ++ d.spill.flatMap fun g => g.pkts

/-- The launch queue emptied, its references dropped (R16, R67). -/
def State.dropLaunched (s : State) (w : Nat) : State :=
  let t := s.modWorld w fun x => { x with launch := [], ringHead := 0, ringLen := 0 }
  (s.launched w).foldl (fun u p => u.dropRef (fld p[1] 0 16)) t

/-- Step 2: packets, contexts and queues of a world discarded; no join word is decremented (R67). -/
def State.discardWork (s : State) (w : Nat) : State :=
  let cs := s.coresOf w
  let mine := fun (c : Nat) => cs.contains c
  let ctxs := s.contextsOf w
  let uids := ctxs.map (·.uid) ++ (s.world w).saved.map Prod.snd
  let refs := ctxs.map (fun q => fld q.chain 0 16) ++ (s.dequed w).map Packet.cix
  let s1 := uids.foldl State.revokeAll s
  let s2 := (refs.foldl State.dropRef s1).dropLaunched w
  { s2 with
    waitTable := s2.waitTable.filter fun x => decide (x.world ≠ w)
    feWaiters := (s2.feWaiters.map fun e => (e.1, e.2.filter fun r => !mine r.core)).filter fun e => !e.2.isEmpty
    banks := (s2.banks.map fun e => (e.1, { e.2 with
        queue := e.2.queue.filter fun r => decide (r.world ≠ w), deferred := e.2.deferred.filter fun d => decide (d.entry.world ≠ w) })).filter
      fun e => decide (e.2 ≠ Bank.init)
    barWaiters := s2.barWaiters.filter fun b => !mine b.core
    net := s2.net.filter fun n => !mine n.core
    engCmds := s2.engCmds.filter fun e => decide (e.world ≠ w)
    engResults := s2.engResults.filter fun r => !uids.contains r.uid }

/-- Step 3: every SRAM target of the world zeroed, its L2 lines dropped. -/
def State.zeroWorld (s : State) (w : Nat) : State :=
  let t := ((s.coresOf w).foldl (State.zeroCore w) s).zeroChip (s.world w).extents
  { t with l2 := t.l2.map fun e => (e.1, e.2.filter fun l => decide (l.owner ≠ w)) }

/-- A function returned to CONFIG_UNLOCKED, unbound, its stream's keys destroyed, GET_INFO's counters zeroed. -/
def Func.unbind (f : Func) : Func :=
  { f with
    tdisp := .unlocked, world := 0, rejected := 0, dropped := 0, bound := none, set0 := KeySet.init, set1 := KeySet.init
    out0 := KeySet.init, out1 := KeySet.init, selected := 0 }

/-- Steps 4 to 7. World 1 draws a fresh memory key and exists again (R325). -/
def State.tearDown (s0 : State) (w : Nat) : State :=
  let s := s0.dropLaunched w
  let tdi := (s.world w).tdi
  let notMine := fun (t : Trans) => decide (t.world ≠ w)
  let s1 : State := { s.openWays w with
    ruleCaches := s.ruleCaches.map fun e => (e.1, e.2.filter fun l => decide (l.world ≠ w))
    dieTlb := s.dieTlb.map fun e => (e.1, e.2.filter notMine)
    clusterTlb := s.clusterTlb.map fun e => (e.1, e.2.filter notMine)
    chains := s.chains.filter fun e => decide (e.2.world ≠ w)
    principals := s.principals.filter fun e => decide (e.2.world ≠ w)
    revocations := s.revocations.filter fun r => decide ((s.principal r.principal).world ≠ w)
    cores := s.cores.map fun e => if e.2.world = w then (e.1, { e.2 with world := 0, zeroing := false }) else e
    ports := s.ports.map fun e => (e.1, { e.2 with rx := e.2.rx.filter fun r => decide (r.world ≠ w) }) }
  let s2 : State := if w = 1 then
      { s1.setWorld 1 { World.init with live := true, memKey := s1.keySerial } with keySerial := s1.keySerial + 1 }
    else { s1 with worlds := Sparse.drop s1.worlds w }
  let s3 := if w = 1 then s2.modFn 0 fun f => { f with rejected := 0, dropped := 0 }
    else if tdi = 0 then s2 else s2.modFn tdi Func.unbind
  s3.refreshBindings

def worldDestroy (c : Cmd) (s : State) : Effect :=
  let w := (s.cmdWord c.fn 1).toNat
  if w = 0 || w > 15 then s.fails Code.badField
  else if c.fn ≠ 0 && (s.fn c.fn).world ≠ w then s.fails Code.notPermitted
  else if !(s.world w).live || s.dying w then s.fails Code.badState
  else
    let s1 := if (s.world w).stopped then s else (s.stopWorld w Cause.tdiStop none).tdiFails (s.world w).tdi
    let cs := s1.coresOf w
    let s2 := (s1.discardWork w).zeroWorld w
    if cs.isEmpty then (.done Code.ok 0, s2.tearDown w) else (.zeroing cs, s2)

def execWorldDestroy (c : Cmd) : State → Host.Outcome State Fault Refusal :=
  event do
    let s ← get
    issueCmd c 0x04 (s.cmdWord c.fn 1).toNat (worldDestroy c)

/-! ## ZEROING_COMPLETE (R56) -/

/-- The command of a function goes on without a core that has been zeroed; with none left it has done its work. -/
def zeroed (core : Nat) (s : State) (fn : Nat) : State :=
  match (s.fn fn).pending with
  | some p =>
    match p.fin with
    | .zeroing cs =>
      if !cs.contains core then s
      else
        let rest := cs.filter (· ≠ core)
        if rest.isEmpty then (if p.destroys then s.tearDown p.world else s).finishCmd fn Code.ok 0
        else s.modFn fn fun f => { f with pending := some { p with fin := .zeroing rest } }
    | _ => s
  | none => s

def zeroingComplete (core : Nat) : M Unit := do
  let s ← get
  require (s.core core).zeroing
  set ((s.fns.map Prod.fst).foldl (zeroed core) (s.modCore core fun k => { k with zeroing := false }))

def execZeroingComplete (core : Nat) : State → Host.Outcome State Fault Refusal := event (zeroingComplete core)

/-! ## LEASE_RENEW (R42, R43) -/

/-- The 512 bits of the firewall matrix, row 0 first: for each cell its read bit, then its write bit. -/
def State.firewallBytes (s : State) : List Byte :=
  (List.range 64).map fun b => BitVec.ofNat 8 ((List.range 4).foldl (fun acc j =>
    let cell := 4 * b + j
    acc + (boolNat (s.firewallR.getLsbD cell) + 2 * boolNat (s.firewallW.getLsbD cell)) * 4 ^ j) 0)

/-- The measurements that a function sees, by index (R50). -/
def State.measurements (s : State) (fn : Nat) : List (Nat × Nat) :=
  [(0x01, Config.romDigest.toNat), (0x02, Config.firmwareDigest.toNat), (0x03, (Config.shake256 s.firewallBytes).toNat),
    (0x04, s.bootState.toNat), (0x05, (Config.shake256 packageCert).toNat)] ++
  (if fn = 0 then [] else (s.world (s.fn fn).world).images.mapIdx fun i d => (0x10 + i, d))

/-- The DMTF value type of a measurement: immutable ROM, mutable firmware, hardware configuration (R50). -/
def measurementType (index : Nat) : Nat := if index = 0x01 then 0x00 else if index = 0x02 || index ≥ 0x10 then 0x01 else 0x02

/-- What a GET_MEASUREMENTS response says, as the bytes that are signed: the nonce, and index, type and value of each block (log 27). -/
def reportBytes (nonce : Nat) (blocks : List (Nat × Nat)) : List Byte :=
  natToLe 32 nonce ++ blocks.flatMap fun b => natToLe 1 b.1 ++ natToLe 1 (measurementType b.1) ++ natToLe 48 b.2

/-- A nonce of the record that a report may carry: issued at most 60 s ago, not used. -/
def Nonce.good (n : Nonce) (value now : Nat) : Bool := decide (n.value = value) && !n.used && decide (now ≤ n.at_ + 60000000)

/-- The checks of R43: the report is what this Q7 answered with that nonce on the session bound to the TDI; its signature verifies; the
nonce is good; and what it measured still stands. -/
def State.reportOk (s : State) (fn : Nat) (r : Report) : Bool :=
  let f := s.fn fn
  f.bound.isSome && f.nonces.any (fun n => decide (n.session = f.bound) && decide (n.meas = r.meas) && n.good r.nonce s.meridian) &&
  decide (r.signature = s.signature 0x60 (reportBytes r.nonce r.meas)) && r.meas.all (s.measurements fn).contains

/-- The nonce of a successful renewal is consumed. -/
def Func.consume (f : Func) (value : Nat) : Func :=
  { f with nonces := f.nonces.map fun n => if n.value = value then { n with used := true } else n }

def State.renewed (s : State) (old : Nat) : Nat := max old (s.meridian + leaseUs)

/-- The result of a renewal: bits [41:10] of the new expiry (R32). -/
def leaseResult (e : Nat) : Nat := e / 1024 % 2 ^ 32

/-- A renewal of key `k`; `alive`: whether there is a lease left to renew; `go`: the new expiry, applied. -/
def renew (c : Cmd) (r : Report) (k : Nat) (alive : State → Bool) (go : State → Nat × State) : M Unit := do
  let s ← get
  let c3 := (s.cmdWord c.fn 3).toNat
  require (decide (c3 = k) || (decide (k = 0) && decide (c3 > 2)))
  issueCmd c 0x0C (s.fnWorld c.fn) fun s =>
    let n := (s.cmdWord c.fn 2).toNat
    if c3 > 2 || cmdReadFails c (s.cmdWord c.fn 1).toNat n then s.fails Code.badField
    else if !alive s then s.fails Code.badState
    else if !s.reportOk c.fn r then s.fails Code.authFail
    else
      let (e, t) := go (s.modFn c.fn (·.consume r.nonce))
      t.succeeds (leaseResult e)

def execLeaseRenewWorldMemory (c : Cmd) (r : Report) : State → Host.Outcome State Fault Refusal :=
  event (renew c r 0 (fun s => !s.keyDead (s.fn c.fn).world) fun s =>
    let w := (s.fn c.fn).world
    let e := s.renewed (s.world w).memExpiry
    (e, s.modWorld w fun x => { x with memExpiry := e }))

/-- The key sets of a function's stream. -/
def Func.keySets (f : Func) : List KeySet := [f.set0, f.set1, f.out0, f.out1]

def KeySet.renew (k : KeySet) (s : State) : KeySet := if k.alive s.meridian then { k with expiry := s.renewed k.expiry } else k

def execLeaseRenewIdeStream (c : Cmd) (r : Report) : State → Host.Outcome State Fault Refusal :=
  event (renew c r 1 (fun s => (s.fn c.fn).keySets.any (·.alive s.meridian)) fun s =>
    let f := s.fn c.fn
    let g := { f with set0 := f.set0.renew s, set1 := f.set1.renew s, out0 := f.out0.renew s, out1 := f.out1.renew s }
    (((g.keySets.filter (·.alive s.meridian)).map (·.expiry)).foldl max 0, s.setFn c.fn g))

def execLeaseRenewContextSave (c : Cmd) (r : Report) : State → Host.Outcome State Fault Refusal :=
  event (renew c r 2 (fun _ => true) fun s =>
    let w := (s.fn c.fn).world
    let e := s.renewed (s.world w).ctxExpiry
    (e, s.modWorld w fun x => { x with ctxExpiry := e }))

end Sys2Proof.Machine
end

