-- ==== Sys2Proof/Machine/Checkpoint.lean ====
section
/-! DEFINITION. CHECKPOINT (R39): the sealed image of every HBM extent, written to host memory and restored from it. -/

namespace Sys2Proof.Machine

/-- The HBM extents of every world in header order: (world, extent). -/
def State.hbmExtents (s : State) : List (Nat × Extent) :=
  s.worlds.flatMap fun e => (e.2.extents.filter fun x => decide (x.kind = 0)).map fun x => (e.1, x)

/-- E: their total length. -/
def extentBytes (l : List (Nat × Extent)) : Nat := (l.map fun e => e.2.len).sum

/-- N: the length of the image of E bytes. -/
def ckptLen (total : Nat) : Nat := 12304 + 4624 * (total / 4096)

/-- The 4 KiB blocks of the extents in image order: (world, device-physical address). -/
def ckptBlocks (l : List (Nat × Extent)) : List (Nat × Nat) :=
  l.flatMap fun e => (List.range (e.2.len / 4096)).map fun i => (e.1, e.2.dpa + 4096 * i)

/-- Whether no tenant world has a running, parked or queued task. -/
def State.tenantsIdle (s : State) : Bool :=
  (s.cores.all fun e => decide (e.2.world < 2) ||
    ((e.2.slots.all fun q => decide (14 ≤ q.1) || decide (q.2.st = .free)) && e.2.cache.isEmpty && e.2.deques.toList.all Deque.isEmpty)) &&
  s.worlds.all fun e => decide (e.1 < 2) || e.2.launch.isEmpty && decide (e.2.ringLen = 0)

/-- The header block's 12,288 bytes in the clear. -/
def ckptHeader (l : List (Nat × Extent)) (serial : Nat) : List Byte :=
  let bs := wordsLe [w64 (0x51374348 * 2 ^ 32 + 2 ^ 16), w64 l.length, w64 (extentBytes l / 4096), w64 serial, 0, 0, 0, 0] ++
    wordsLe (l.map fun e => w64 (e.1 * 2 ^ 60 + e.2.dpa / 65536 * 2 ^ 37 + e.2.len / 65536 * 2 ^ 14))
  bs ++ zeros (12288 - bs.length)

/-- The 96-bit IV: the image serial and the record number. -/
def ckptIv (serial record : Nat) : Nat := serial * 2 ^ 32 + record

/-- One AES-GCM message of the image: ciphertext and tag. -/
def ckptSeal (key serial record : Nat) (bs : List Byte) : List Byte :=
  let ct := gcmXor key (ckptIv serial record) bs
  ct ++ gcmTagOf key (ckptIv serial record) [] ct

/-- One message verified and deciphered. -/
def ckptOpen (key serial record : Nat) (bs : List Byte) : Option (List Byte) :=
  let ct := bs.take (bs.length - 16)
  if bs.drop (bs.length - 16) = gcmTagOf key (ckptIv serial record) [] ct then some (gcmXor key (ckptIv serial record) ct) else none

/-- A line as stored: its ciphertext and MAC under the key that wrote it (R53). -/
def State.storedLine (s : State) (line : Nat) : BitVec 512 × BitVec 28 :=
  let key := Sparse.get 0 s.lineKeys line
  let ct := Config.xtsEncrypt key (line * 64) (s.lineData line)
  (ct, Config.lineMac key (line * 64) ct)

/-- A record's 4,608 bytes: 64 lines as stored, then their MACs. -/
def State.ckptRecord (s : State) (dpa : Nat) : List Byte :=
  let lines := (List.range 64).map fun i => s.storedLine (dpa / 64 + i)
  lines.flatMap (fun x => natToLe 64 x.1.toNat) ++ lines.flatMap fun x => natToLe 8 x.2.toNat

/-- The whole image under a key and a serial. -/
def State.ckptImage (s : State) (key serial : Nat) : List Byte :=
  let l := s.hbmExtents
  ckptSeal key serial 0xFFFFFFFF (ckptHeader l serial) ++
    ((ckptBlocks l).mapIdx fun i b => ckptSeal key serial i (s.ckptRecord b.2)).flatten

def State.ckptAlive (s : State) : Bool := decide (s.ckptKey ≠ 0) && decide (s.meridian < s.ckptExpiry)

/-- The image key: drawn by a save that finds none on a lease (R40). -/
def State.withCkptKey (s : State) : State :=
  if s.ckptAlive then s
  else { s with ckptKey := s.keySerial, ckptExpiry := s.meridian + 86400000000, keySerial := s.keySerial + 1 }

/-- The operands that both directions judge. -/
def ckptOperandsOk (s : State) (fn : Nat) : Bool :=
  let c1 := (s.cmdWord fn 1).toNat
  decide (c1 % 4096 = 0) && decide ((s.cmdWord fn 3).toNat ≤ 1) && hostRange c1 (s.cmdWord fn 2).toNat

def checkpointSave (c : Cmd) (s : State) : Effect :=
  let total := extentBytes s.hbmExtents
  if !ckptOperandsOk s c.fn then s.fails Code.badField
  else if !s.tenantsIdle then s.fails Code.badState
  else if (s.cmdWord c.fn 2).toNat < ckptLen total then s.fails Code.noResource
  else
    let t := s.withCkptKey
    let u : State := { t with ckptSerial := t.ckptSerial + 1 }
    (u.hostWrite (s.cmdWord c.fn 1).toNat (u.ckptImage u.ckptKey u.ckptSerial)).succeeds (total / 2 ^ 20)

/-- The extents that a header names. -/
def ckptEntries (h : List Byte) : List (Nat × Extent) :=
  (List.range (wordIn h 8).toNat).map fun i =>
    let v := wordIn h (64 + 8 * i)
    (fld v 60 4, ⟨0, fld v 37 23 * 65536, fld v 14 23 * 65536, 0⟩)

/-- The header block of the image present, and its serial: one of those that this device has used. -/
def State.ckptHead (s : State) (bs : List Byte) : Option (Nat × List Byte) :=
  ((List.range s.ckptSerial).map (· + 1)).findSome? fun n => (ckptOpen s.ckptKey n 0xFFFFFFFF bs).map fun h => (n, h)

/-- A line written back with its MAC: it reads under the world's key where that key formed the MAC, else under none (R295). -/
def State.restoreLine (s : State) (world line : Nat) (ct : BitVec 512) (mac : BitVec 28) : State :=
  let key := (s.world world).memKey
  let good := decide (key ≠ 0) && decide (Config.lineMac key (line * 64) ct = mac)
  let k := if good then key else 0
  s.lineWrite k (line * 64) (natToLe 64 (Config.xtsDecrypt k (line * 64) ct).toNat)

def State.restoreRecord (s : State) (world dpa : Nat) (rec : List Byte) : State :=
  (List.range 64).foldl (fun t i =>
    t.restoreLine world (dpa / 64 + i) (BitVec.ofNat 512 (leToNat ((rec.drop (64 * i)).take 64)))
      (BitVec.ofNat 28 (leToNat ((rec.drop (4096 + 8 * i)).take 8)))) s

def checkpointRestore (c : Cmd) (s : State) : Effect :=
  let c1 := (s.cmdWord c.fn 1).toNat
  let n := (s.cmdWord c.fn 2).toNat
  if !ckptOperandsOk s c.fn then s.fails Code.badField
  else if !s.tenantsIdle then s.fails Code.badState
  else if c.hostErr.isSome then s.fails Code.badField
  else if !s.ckptAlive then s.fails Code.authFail
  else
    let image := s.hostRead c1 n
    match s.ckptHead (image.take 12304) with
    | none => s.fails Code.authFail
    | some (serial, h) =>
      let l := ckptEntries h
      let blocks := ckptBlocks l
      if n ≠ ckptLen (extentBytes l) then s.fails Code.badField
      else
        match (List.range blocks.length).mapM fun i => ckptOpen s.ckptKey serial i ((image.drop (12304 + 4624 * i)).take 4624) with
        | none => s.fails Code.authFail
        | some recs =>
          ((blocks.zip recs).foldl (fun t (b, rec) => t.restoreRecord b.1 b.2 rec) s).succeeds (extentBytes l / 2 ^ 20)

/-- The direction that a command names. -/
def checkpoint (c : Cmd) (dir : W64) (effect : State → Effect) : M Unit := do
  require (decide ((← get).cmdWord c.fn 3 &&& 1 = dir))
  issueCmd c 0x0E 0 effect

def execCheckpointSave (c : Cmd) : State → Host.Outcome State Fault Refusal := event (checkpoint c 0 (checkpointSave c))
def execCheckpointRestore (c : Cmd) : State → Host.Outcome State Fault Refusal := event (checkpoint c 1 (checkpointRestore c))

end Sys2Proof.Machine
end

