-- ==== Sys2Proof/Machine/Domino.lean ====
section
/-! DEFINITION. The Domino engine (R265 to R267): its commands, and the pass over one page. -/

namespace Sys2Proof.Machine

/-! ## FP32 steps, nearest even -/

/-- An exact number rounded to FP32. -/
def roundNearest (x : Fp) : Fp := Fmt.fp32.decode (Fmt.fp32.deliver .nearest false x 0).bits

/-- Mantissa, exponent and sticky rounded to FP32. -/
def roundSticky (neg : Bool) (m : Nat) (e : Int) (sticky : Bool) : Fp :=
  Fmt.fp32.decode (Fmt.fp32.round .nearest false neg m e sticky).bits

/-- The quotient, correctly rounded. -/
def divFp (a b : Fp) : Fp :=
  match a, b with
  | .nan, _ => .nan
  | _, .nan => .nan
  | .inf _, .inf _ => .nan
  | .inf x, .zero y => .inf (x != y)
  | .inf x, .fin y _ _ => .inf (x != y)
  | .zero _, .zero _ => .nan
  | .zero x, .inf y => .zero (x != y)
  | .zero x, .fin y _ _ => .zero (x != y)
  | .fin x _ _, .inf y => .zero (x != y)
  | .fin x _ _, .zero y => .inf (x != y)
  | .fin x m e, .fin y m' e' =>
    let k := bitLen m' + 40
    roundSticky (x != y) (m * 2 ^ k / m') (e - e' - k) (decide (m * 2 ^ k % m' ≠ 0))

/-- The square root, correctly rounded. -/
def sqrtFp (a : Fp) : Fp :=
  match a with
  | .nan => .nan
  | .zero n => .zero n
  | .inf n => if n then .nan else .inf false
  | .fin n m e =>
    if n then .nan
    else
      let (m1, e1) := if e % 2 = 0 then (m, e) else (2 * m, e - 1)
      let q := isqrt (m1 * 2 ^ 80)
      roundSticky false q (e1 / 2 - 40) (decide (q * q ≠ m1 * 2 ^ 80))

/-- A sum of exact products in order, starting from the first, one rounding per addition. -/
def dotFp (xs ys : List Fp) : Fp :=
  match (xs.zip ys).map fun (x, y) => (x.mul y).1 with
  | [] => .zero false
  | p :: rest => rest.foldl (fun acc q => roundNearest (acc.add .nearest q).1) p

/-- Whether cos(x, y) > τ (R266): never for a zero denominator or a NaN. -/
def mergeable (xs ys : List Fp) (tau : Fp) : Bool :=
  let den := roundNearest ((sqrtFp (dotFp xs xs)).mul (sqrtFp (dotFp ys ys))).1
  match den with
  | .zero _ => false
  | .nan => false
  | _ => tau.lt (divFp (dotFp xs ys) den)

/-- One element of a merged row: the average weighted by multiplicities, in the header's type. -/
def mergeEl (ty mi mj : Nat) (x y : Fp) : Nat :=
  let px := (Fp.mul (.ofScaled .nearest mi 0) x).1
  let py := (Fp.mul (.ofScaled .nearest mj 0) y).1
  let num := roundNearest (px.add .nearest py).1
  let avg := divFp num (.ofScaled .nearest (mi + mj) 0)
  (convert 7 ty (Fmt.fp32.deliver .nearest false avg 0).bits).bits

/-! ## One page (R266) -/

/-- The entries of a page merged: each a row of elements with its multiplicity. -/
def mergeEntries (ty : Nat) (tau : Fp) (fuel : Nat) (l : List (List Nat × Nat)) : List (List Nat × Nat) :=
  match fuel, l with
  | 0, _ => []
  | _, [] => []
  | _ + 1, [(r, m)] => if m > 0 then [(r, m)] else []
  | f + 1, (r, m) :: (r', m') :: rest =>
    let wide := fun (row : List Nat) => row.map fun b => valueOf ty b
    if decide (m > 0) && decide (m' > 0) && decide (m + m' ≤ 255) && mergeable (wide r) (wide r') tau then
      (((wide r).zip (wide r')).map fun (x, y) => mergeEl ty m m' x y, m + m') :: mergeEntries ty tau f rest
    else
      (if m > 0 then [(r, m)] else []) ++ mergeEntries ty tau f ((r', m') :: rest)

/-- A page after the pass, and the entries removed. -/
def mergePage (ty width : Nat) (tau : Fp) (bs : List Byte) : List Byte × Nat :=
  let z := if ty = 2 then 1 else 2
  let row := width * z
  let tr := bs.drop (16 * row)
  let count := (leToNat ((tr.drop 16).take 1))
  let mult := fun (i : Nat) => leToNat ((tr.drop i).take 1)
  let ins := (List.range (min 16 count)).map fun i => (elemsOf z width (bs.drop (i * row)), mult i)
  let out := mergeEntries ty tau 17 ins
  let rows := (out.flatMap fun e => bytesOf z e.1) ++ List.replicate ((16 - out.length) * row) 0
  let mults := (out.map fun e => BitVec.ofNat 8 e.2) ++ List.replicate (16 - out.length) 0
  (rows ++ mults ++ [BitVec.ofNat 8 out.length] ++ tr.drop 17, (ins.filter fun e => decide (e.2 > 0)).length - out.length)

/-! ## Commands (R265) -/

def e1Ok (h : W64) (w1 : W64) : Bool :=
  decide (fld h 48 4 = 0) && decide (cmdExtra h = 1) &&
  (if cmdOpcode h = 1 then decide (1 ≤ fld h 16 16) && decide (fld h 16 16 ≤ 4096)
    else decide (cmdOpcode h = 2) && decide (fld h 0 32 = 0) && decide (fld w1 32 32 = 0))

/-- The header of a MERGE_PAGES checked as a read and a write, and read. -/
def dominoHeader (c : EngCmd) : M (SeqHeader × List Cap) := do
  let w := c.who
  let ea := c.word 1
  if ea.toNat % 64 ≠ 0 then trapAt Cause.align ea
  if fld ea 61 3 ≠ 0 && fld ea 61 3 ≠ 5 then trapXlate 5 ea
  let rs ← rangeOf w .read ea 64
  let ws ← rangeOf w .write ea 64
  let bs ← engineRead w ea 64
  let h := seqHeaderOf ea bs
  if !seqHeaderOk bs h then trapAt Cause.shape ea
  return (h, rs ++ ws)

/-- How many of the pages pass their checks before the first that fails, its cause, and the capabilities used. -/
def dominoPages (c : EngCmd) (h : SeqHeader) (ps : List Nat) : M (Nat × Nat × List Cap) := do
  match ps with
  | [] => return (0, 0, [])
  | p :: rest =>
    match ← attempt (do
        let rs ← rangeOf c.who .read (h.page p) h.pageBytes
        let ws ← rangeOf c.who .write (h.page p) h.pageBytes
        return rs ++ ws) with
    | .error t => return (0, t.cause.toNat, [])
    | .ok caps => do
      let (n, status, more) ← dominoPages c h rest
      return (n + 1, status, caps ++ more)

/-- MERGE_PAGES and SET_TAU accepted: what the pass needs is kept with the command (type, width; pages that passed, and the
status that answers them). -/
def acceptE1 (c : EngCmd) : M Unit := do
  if cmdOpcode c.header = 2 then
    if c.slot = 15 then queueCmd c else modify (·.postResult c Cause.priv.toNat 0)
  else
    match ← attempt (dominoHeader c) with
    | .error t => modify (·.postResult c t.cause.toNat 0)
    | .ok (h, caps) => do
      let first := fld c.header 0 16
      let (n, status, more) ← dominoPages c h ((List.range (fld c.header 16 16)).map (first + ·))
      if n = 0 then modify (·.postResult c status 0)
      else
        modify (·.chargeCmdCaps c (caps ++ more))
        queueCmd { c with words := c.words ++ [w64 h.type, w64 h.width], count := n, aux := status }

/-- Whether an older command of the device's engine stands before the k-th. -/
def firstOfEngine (k engine : Nat) : M Unit := do
  require (!((← get).engCmds.take k).any fun c => decide (c.engine = engine))

/-- The result of a MERGE_PAGES: pages processed, entries removed. -/
def pagesResult (done removed : Nat) : Nat := done * 2 ^ 16 + min removed 65535

/-- The header and descriptor of a KVLD or KVST that has issued. -/
def Slot.tokensOf (sl : Slot) : Option (W64 × W64) :=
  match sl.issued with
  | some (.kvld _ a b _, _) => some (sl.reg a, sl.reg b)
  | some (.kvst _ a b _, _) => some (sl.reg a, sl.reg b)
  | _ => none

/-- Whether a KVLD or KVST in progress stands between two tokens of page `p` of the sequence whose header lies at a location (R267). One
that a trap or a pre-emption has stopped is no longer in progress: each of its runs sees a page whole. -/
def State.insidePage (s : State) (loc p : Nat) : Bool :=
  s.cores.any fun e => e.2.slots.any fun q =>
    let r := fld q.2.restart 0 16
    decide (q.2.st = .wait) && flag q.2.restart 63 &&
      match q.2.tokensOf with
      | some (ea, d) =>
        decide (r ≠ 0) && decide ((fld d 0 16 + r) / 16 = p) && decide ((fld d 0 16 + r - 1) / 16 = p) &&
          match locate ⟨e.1, q.1, e.2.world, fld q.2.chain 0 16⟩ ea .read s with
          | .ok pl _ => decide (pl.loc = loc)
          | .error _ _ => false
      | none => false

/-- MERGE_PAGES: the next page of the k-th command, read, merged and written back whole (R266, R267). -/
def mergePages (k : Nat) : M Unit := do
  let c ← cmdAt k 1 1
  firstOfEngine k 1
  let status := c.aux % 256
  let removed := c.aux / 256
  let h : SeqHeader := ⟨c.word 1, 0, 0, (c.word 2).toNat, (c.word 3).toNat⟩
  let ea := h.page (fld c.header 0 16 + c.done)
  match locate c.who h.addr .read (← get) with
  | .ok pl s => require !s.insidePage pl.loc (fld c.header 0 16 + c.done)
  | .error _ _ => pure ()
  let tau := Fmt.fp32.decode ((← get).world c.world).tau.toNat
  match ← attempt (do
      let bs ← engineRead c.who ea h.pageBytes
      let (out, n) := mergePage h.type h.width tau bs
      engineWrite c.who ea out fun s => return s
      return n) with
  | .error t => modify fun s => s.endCmd k c t.cause.toNat (pagesResult c.done removed)
  | .ok n => do
    modify (·.chargeCmd c (2 * pipsOf h.pageBytes))
    if c.done + 1 = c.count then modify fun s => s.endCmd k c status (pagesResult (c.done + 1) (removed + n))
    else setCmd k { c with done := c.done + 1, aux := status + 256 * (removed + n) }

def execMergePages (k : Nat) : State → Host.Outcome State Fault Refusal := event (mergePages k)

/-- SET_TAU: the world's threshold. -/
def setTau (k : Nat) : M Unit := do
  let c ← cmdAt k 1 2
  firstOfEngine k 1
  modify fun s => (s.modWorld c.world fun w => { w with tau := (c.word 1).setWidth 32 }).endCmd k c 0 0

def execSetTau (k : Nat) : State → Host.Outcome State Fault Refusal := event (setTau k)

end Sys2Proof.Machine
end

