-- ==== Sys2Proof/Machine/Messages.lean ====
section
/-! DEFINITION. Messages (R143 to R146): SENDMSG, their placement, WAITMSG and RECVMSG. -/

namespace Sys2Proof.Machine

/-! ## Queues (R145) -/

def Core.inbox (c : Core) (slot : Nat) : List Msg := Sparse.get [] c.msgs slot
def Core.setInbox (c : Core) (slot : Nat) (l : List Msg) : Core := { c with msgs := Sparse.set [] c.msgs slot l }

/-- The target slot of a message in the overflow buffer. -/
def Msg.tslot (m : Msg) : Nat := fld m.header 0 4

/-- Whether an arriving message goes into its slot's queue. -/
def Core.inboxTakes (c : Core) (slot : Nat) : Bool :=
  decide ((c.inbox slot).length < 8) && !(c.overflow.any fun m => decide (m.tslot = slot))

/-- A message placed, where there is room for it. -/
def Core.placeMsg (c : Core) (slot : Nat) (m : Msg) : Option Core :=
  if c.inboxTakes slot then some (c.setInbox slot (c.inbox slot ++ [m]))
  else if c.overflow.length < 32 then
    let c1 := { c with overflow := c.overflow ++ [{ m with header := m.header ||| w64 slot }] }.tally 0x20 slot 1
    some (if c.overflow.isEmpty then c1.queueRecord Cause.inboxFull slot 0 else c1)
  else none

/-- The oldest message of the network for a core that can be placed. -/
def placeable (c : Core) (core : Nat) (net : List NetMsg) : Option NetMsg :=
  net.find? fun n => decide (n.core = core) && (c.placeMsg n.slot n.msg).isSome

/-- The first of equal entries removed. -/
def dropFirst {α : Type} [DecidableEq α] (x : α) (l : List α) : List α :=
  match l with
  | [] => []
  | y :: rest => if x = y then rest else y :: dropFirst x rest

/-- MESSAGE_PLACEMENT: a message for the core is placed, and the SENDMSG that sent it completes (R144, R145). -/
def messagePlacement (core : Nat) : M Unit := do
  let s ← get
  match placeable (s.core core) core s.net with
  | none => require false
  | some n =>
    match (s.core core).placeMsg n.slot n.msg with
    | none => require false
    | some c =>
      let s1 : State := { s.setCore core c with net := dropFirst n s.net }
      set (match n.sender with
        | some (a, b, len) => s1.modSlot a b fun sl => sl.after (sl.pc + w64 len) .wait .complete
        | none => s1)

def execMessagePlacement (core : Nat) : State → Host.Outcome State Fault Refusal := event (messagePlacement core)

/-! ## SENDMSG (R144) -/

/-- Whether an address lies in windows 0b000 to 0b010 of region 0b110. -/
def inWindows (ea : W64) : Bool := decide (fld ea 61 3 = 6) && decide (fld ea 58 3 ≤ 2)

def sendmsg (d a : Reg) (m : Mod) : M Ctl := waiting [d, a] none do
  let v ← rd d
  let ea ← rd a
  let s ← get
  if fld v 32 32 ≠ 0 || flag v 30 then trapAt Cause.illegal v
  if !flag v 31 && fld v 13 17 ≠ 0 then trapAt Cause.illegal v
  if flag v 31 && !isSup s then trapPriv
  if ea.toNat % 16 ≠ 0 then trapAt Cause.align ea
  if !inWindows ea then trapXlate 5 ea
  let target := fld v 4 9
  if (s.core target).world ≠ s.myWorld then trapAt Cause.firewall (w64 target)
  releaseAt m.order m.scope
  let (bs, caps) ← readMine ea 16 8 Mod.none
  chargeCaps caps
  let header := if flag v 31 then w64 (fld v 13 17 * 2 ^ 13) else msgHeader s.cur.core s.cur.slot 0
  modify fun t =>
    { t with net := t.net ++ [NetMsg.mk target (fld v 0 4) (Msg.mk header (wordAt bs 0) (wordAt bs 1) 4)
                                (some (t.cur.core, t.cur.slot, t.cur.len))] }
  throw (.wait .net)

def execSendmsg (d a : Reg) (m : Mod) : State → Host.Outcome State Fault Refusal := run (sendmsg d a m)

/-! ## WAITMSG and RECVMSG (R146) -/

def waitmsg (d a : Reg) : M Ctl := waiting [a] (some d) do
  let n ← rd a
  let s ← get
  let q := s.myCore.inbox s.cur.slot
  let late := match s.me.limit with
    | some t => decide (t ≤ s.cycle)
    | none => false
  if q.isEmpty && !late then
    modMe fun sl => { sl with limit := if sl.limit.isNone && n ≠ 0 then some (s.cycle + n.toNat) else sl.limit }
    block false
  wr d (w64 q.length)

def execWaitmsg (d a : Reg) : State → Host.Outcome State Fault Refusal := run (waitmsg d a)

/-- WAITMSG_TIMEOUT: the limit of a WAITMSG is reached, and it goes on to complete with 0 (R146). -/
def waitmsgTimeout (core slot : Nat) : M Unit := do
  let s ← get
  let sl := s.slot core slot
  match sl.limit, sl.waiting with
  | some t, .blocked _ => do
    require (decide (sl.st = .wait) && decide (t ≤ s.cycle))
    set (s.setSlot core slot { sl with reissue := true })
  | _, _ => require false

def execWaitmsgTimeout (core slot : Nat) : State → Host.Outcome State Fault Refusal := event (waitmsgTimeout core slot)

/-- A pop of a slot's queue frees room: the oldest message for it in the overflow buffer moves in (R146). -/
def Core.popInbox (c : Core) (slot : Nat) : Core :=
  let c1 := c.setInbox slot ((c.inbox slot).drop 1)
  match c1.overflow.find? (fun m => decide (m.tslot = slot)) with
  | some m => ({ c1 with overflow := dropFirst m c1.overflow }).setInbox slot (c1.inbox slot ++ [{ m with header := m.header >>> 4 <<< 4 }])
  | none => c1

/-- The header as RECVMSG gives it: with its valid bit (R143). -/
def Msg.taken (m : Msg) : W64 := m.header ||| w64 (2 ^ 63)

def recvmsg (d a : Reg) (m : Mod) : M Ctl := waiting [a] (some d) do
  let s ← get
  let ovf := m.spec.getLsbD 0
  if ovf && !isSup s then trapPriv
  let ea ← rd a
  match if ovf then s.myCore.overflow.head? else (s.myCore.inbox s.cur.slot).head? with
  | none => wr d 0
  | some x => do
    if ea.toNat % 16 ≠ 0 then trapAt Cause.align ea
    if !inWindows ea then trapXlate 5 ea
    let caps ← writeRow (← whoMe) [(ea, natToLe 8 x.w0.toNat ++ natToLe 8 x.w1.toNat)] 8
    chargeCaps caps
    modCore fun c => if ovf then { c with overflow := c.overflow.drop 1 } else c.popInbox s.cur.slot
    acquireOf m.order m.scope
    if fld x.header 13 4 = 1 then acquireAt x.acqScope.toNat
    wr d x.taken

def execRecvmsg (d a : Reg) (m : Mod) : State → Host.Outcome State Fault Refusal := run (recvmsg d a m)

end Sys2Proof.Machine
end

