-- ==== Sys2Proof/Machine/Security.lean ====
section
/-! DEFINITION. The security processor towards the host (spec 02 R25, R34, spec 03): DOE and SPDM, TDISP, IDE key sets, and the
expiry of leases. -/

namespace Sys2Proof.Machine

/-! ## Answers of a mailbox -/

def State.reply (s : State) (fn : Nat) (r : DoeResp) : State := s.modFn fn fun f => { f with doe := r }

/-- The mailboxes answer once boot has run, whatever its outcome (R49). -/
def doeReady (fn : Nat) : M Unit := do require ((← get).booted && decide (fn ≤ 14))

/-- DOE discovery: the three protocols that the mailbox carries (R25): discovery 0, CMA/SPDM 1, secured CMA/SPDM 2. An object of more than
128 KiB, whatever it holds, is discarded, and the mailbox's error bit is set. -/
def execDoeDiscovery (fn bytes : Nat) : State → Host.Outcome State Fault Refusal :=
  event do
    doeReady fn
    modify fun s => if bytes > 131072 then s.modFn fn fun f => { f with doeError := true } else s.reply fn (.ok 0 [0, 1, 2])

/-! ## SPDM without a session (R49 to R52)

The code of each answer is the request-response code of SPDM 1.3 (log 27). -/

/-- A plain request answered. -/
def spdmAnswer (fn code : Nat) (data : List Nat) : M Unit := do
  doeReady fn
  modify (·.reply fn (.ok code data))

/-- Version 1.3 only (R51). -/
def execGetVersion (fn : Nat) : State → Host.Outcome State Fault Refusal := event (spdmAnswer fn 0x04 [0x13])
/-- The HeartbeatPeriod of 30 s is advertised (R52). -/
def execGetCapabilities (fn : Nat) : State → Host.Outcome State Fault Refusal := event (spdmAnswer fn 0x61 [30])

/-- The responder's algorithms, one of each kind (R51). -/
def algorithms : List Algorithm := [.slhDsaShake256f, .shake256, .measurementShake256, .mlKem1024, .aes256Gcm]

/-- Of the algorithms offered, those that the responder has; a requester that offers none of them receives UnsupportedRequest (R51). -/
def execNegotiateAlgorithms (fn : Nat) (offered : List Algorithm) : State → Host.Outcome State Fault Refusal :=
  event do
    doeReady fn
    let chosen := algorithms.filter offered.contains
    modify (·.reply fn (if chosen.isEmpty then .unsupported else .algorithms chosen))

/-- The digests of the two chains. -/
def execGetDigests (fn : Nat) : State → Host.Outcome State Fault Refusal :=
  event do
    let s ← get
    spdmAnswer fn 0x01 ([0, 1].flatMap fun i => [i, (Config.shake256 (s.certChain i).flatten).toNat])

/-- Slots 0 and 1 hold a chain (R51). -/
def execGetCertificate (fn slot : Nat) : State → Host.Outcome State Fault Refusal :=
  event do
    doeReady fn
    modify fun s => s.reply fn (if slot ≤ 1 then .ok 0x02 (slot :: numbers (s.certChain slot).flatten) else .error)

/-- A responder nonce issued: recorded with its time, the session and what was measured, the last 64 kept (R43). -/
def State.issueNonce (s : State) (fn : Nat) (session : Option Nat) (meas : List (Nat × Nat)) : Nat × State :=
  let f := s.fn fn
  let v := Config.responderNonce (f.nonceCtr * 16 + fn)
  let n : Nonce := ⟨v, s.meridian, false, session, meas⟩
  (v, s.setFn fn { f with nonces := (f.nonces ++ [n]).drop (f.nonces.length - 63), nonceCtr := f.nonceCtr + 1 })

/-- CHALLENGE is answered in boot state GOOD alone (R49), under the attestation key's signature (R51). -/
def execChallenge (fn slot : Nat) : State → Host.Outcome State Fault Refusal :=
  event do
    doeReady fn
    let s ← get
    if s.bootState ≠ 0 then set (s.reply fn .unsupported)
    else if slot > 1 then set (s.reply fn .error)
    else
      let (v, t) := s.issueNonce fn none []
      set (t.reply fn (.ok 0x03 (slot :: v :: numbers (s.signature 0x03 (natToLe 1 slot ++ natToLe 32 v)))))

def Func.session (f : Func) (id : Nat) : Option Session := f.sessions.find? fun x => decide (x.id = id)
def Func.established (f : Func) (id : Nat) : Bool := match f.session id with
  | some x => x.established
  | none => false

/-- A message came on a session (R52). -/
def Func.heard (f : Func) (id now : Nat) : Func :=
  { f with sessions := f.sessions.map fun x => if x.id = id then { x with lastAt := now } else x }

/-- The blocks that a request names: 0xFF all, else the one of the index, if the function sees it (R50). -/
def State.blocks (s : State) (fn index : Nat) : List (Nat × Nat) :=
  (s.measurements fn).filter fun b => decide (index = 0xFF) || decide (b.1 = index)

/-- GET_MEASUREMENTS: the report with its responder nonce, each block with its index, DMTF value type and value, signed by the attestation
key; on a session that is established, or on none (R43, R49 to R51). -/
def execGetMeasurements (fn session index : Nat) : State → Host.Outcome State Fault Refusal :=
  event do
    doeReady fn
    let s ← get
    let bs := s.blocks fn index
    let (v, t) := s.issueNonce fn (if (s.fn fn).established session then some session else none) bs
    set ((t.modFn fn (·.heard session s.meridian)).reply fn (.ok 0x60 (v :: bs.length :: bs.flatMap (fun b => [b.1, measurementType b.1, b.2]) ++
      numbers (s.signature 0x60 (reportBytes v bs)))))

/-! ## Sessions (R51, R52) -/

/-- Four sessions at most; the lowest free id. -/
def execKeyExchange (fn : Nat) : State → Host.Outcome State Fault Refusal :=
  event do
    doeReady fn
    let s ← get
    if s.bootState ≠ 0 then set (s.reply fn .unsupported)
    else
      match (List.range 4).find? fun i => !(s.fn fn).sessions.any fun x => decide (x.id = i) with
      | none => set (s.reply fn .sessionLimit)
      | some i => set ((s.modFn fn fun f => { f with sessions := f.sessions ++ [⟨i, false, s.meridian⟩] }).reply fn (.ok 0x64 [i]))

/-- FINISH establishes a session that KEY_EXCHANGE opened. -/
def execFinish (fn session : Nat) : State → Host.Outcome State Fault Refusal :=
  event do
    doeReady fn
    let s ← get
    match (s.fn fn).session session with
    | some ⟨_, false, _⟩ =>
      set ((s.modFn fn fun f => { f with sessions := f.sessions.map fun x =>
        if x.id = session then { x with established := true, lastAt := s.meridian } else x }).reply fn (.ok 0x65 [session]))
    | _ => set (s.reply fn .error)

/-- A message on an established session, answered with a code. -/
def onSession (fn session code : Nat) : M Unit := do
  doeReady fn
  let s ← get
  if (s.fn fn).established session then set ((s.modFn fn (·.heard session s.meridian)).reply fn (.ok code [session]))
  else set (s.reply fn .error)

def execHeartbeat (fn session : Nat) : State → Host.Outcome State Fault Refusal := event (onSession fn session 0x68)
def execKeyUpdate (fn session : Nat) : State → Host.Outcome State Fault Refusal := event (onSession fn session 0x69)

/-! ## TDISP (R34) -/

/-- A session ends: the end of the one bound to the TDI sends it to ERROR (R52). Its reports are of no session that stands. -/
def State.dropSession (s : State) (fn id : Nat) : State :=
  let f := s.fn fn
  let t := s.setFn fn { f with
    nonces := f.nonces.map fun n => if n.session = some id then { n with session := none } else n
    sessions := f.sessions.filter fun x => decide (x.id ≠ id), bound := if f.bound = some id then none else f.bound }
  if f.bound = some id then t.tdiError fn Cause.tdiStop else t

def execEndSession (fn session : Nat) : State → Host.Outcome State Fault Refusal :=
  event do
    doeReady fn
    let s ← get
    if (s.fn fn).established session then set ((s.dropSession fn session).reply fn (.ok 0x6C [session])) else set (s.reply fn .error)

/-- 60 s with no message on the session. -/
def execSessionTimeout (fn session : Nat) : State → Host.Outcome State Fault Refusal :=
  event do
    let s ← get
    match (s.fn fn).session session with
    | some x => do
      require (decide (x.lastAt + 60000000 ≤ s.meridian))
      set (s.dropSession fn session)
    | none => require false

def execSessionAeadFailure (fn session : Nat) : State → Host.Outcome State Fault Refusal :=
  event do
    let s ← get
    require ((s.fn fn).established session)
    set (s.dropSession fn session)

/-- A TDISP message on an established session, which it keeps alive (R25, R52); on none it is answered with an error. -/
def onTdisp (fn session : Nat) (m : M Unit) : M Unit := do
  doeReady fn
  require (decide (fn ≠ 0))
  let s ← get
  if (s.fn fn).established session then
    set (s.modFn fn (·.heard session s.meridian))
    m
  else set (s.reply fn .error)

/-- LOCK_INTERFACE_REQUEST: with a world bound that has not stopped, and IDE keys programmed, the TDI is CONFIG_LOCKED and the session
is bound to it. -/
def execLockInterfaceRequest (fn session : Nat) : State → Host.Outcome State Fault Refusal :=
  event (onTdisp fn session do
    let s ← get
    let f := s.fn fn
    let programmed := f.keySets.any fun k => decide (k.key ≠ 0)
    if f.tdisp = .unlocked && f.world ≠ 0 && !(s.world f.world).stopped && programmed then
      set ((s.modFn fn fun x => { x with tdisp := .locked, bound := some session }).reply fn (.ok 0x83 []))
    else set (s.reply fn .invalidInterface))

def execStartInterfaceRequest (fn session : Nat) : State → Host.Outcome State Fault Refusal :=
  event (onTdisp fn session do
    let s ← get
    if (s.fn fn).tdisp = .locked then
      set ((s.modFn fn fun x => { x with tdisp := .run }).refreshBindings.reply fn (.ok 0x85 []))
    else set (s.reply fn .invalidInterface))

/-- STOP_INTERFACE_REQUEST: RUN and ERROR give CONFIG_UNLOCKED; the world stays bound and stopped. -/
def execStopInterfaceRequest (fn session : Nat) : State → Host.Outcome State Fault Refusal :=
  event (onTdisp fn session do
    let s ← get
    if (s.fn fn).tdisp = .run || (s.fn fn).tdisp = .error then
      set (((s.stopCarried fn Cause.tdiStop).modFn fn fun x => { x with tdisp := .unlocked }).refreshBindings.reply fn (.ok 0x86 []))
    else set (s.reply fn .invalidInterface))

/-- Configuration is locked in CONFIG_LOCKED and RUN. -/
def execLockedConfigWrite (fn : Nat) : State → Host.Outcome State Fault Refusal := event (modify (·.tdiError fn Cause.tdiStop))

/-! ## IDE key sets (R55) -/

/-- IDE_KM travels over a secured session, which it keeps alive; once one is bound to the TDI, over that one (R25, R52, R55). -/
def secured (fn session set_ : Nat) (m : M Unit) : M Unit := do
  doeReady fn
  require (decide (set_ ≤ 1))
  let s ← get
  let f := s.fn fn
  if f.established session && (f.bound.isNone || decide (f.bound = some session)) then
    set (s.modFn fn (·.heard session s.meridian))
    m
  else set (s.reply fn .error)

/-- KEY_PROG installs a key, drawn by the host, in a set of one direction that is not live. -/
def execKeyProg (fn session set_ : Nat) (out : Bool) : State → Host.Outcome State Fault Refusal :=
  event (secured fn session set_ do
    let s ← get
    if (s.fn fn).keySet set_ out |>.alive s.meridian then set (s.reply fn .error)
    else
      let t := s.modFn fn (·.setKeySet set_ out ⟨s.keySerial, false, 0, none⟩)
      let u : State := { t with keySerial := s.keySerial + 1 }
      set (u.reply fn (.ok 0x03 [set_, boolNat out])))

/-- KEY_SET_GO: the set is live and its lease starts. The stream uses it unless the other set is live. -/
def execKeySetGo (fn session set_ : Nat) (out : Bool) : State → Host.Outcome State Fault Refusal :=
  event (secured fn session set_ do
    let s ← get
    let f := s.fn fn
    let k := f.keySet set_ out
    if k.key = 0 || k.live then set (s.reply fn .error)
    else
      let g := f.setKeySet set_ out { k with live := true, expiry := s.meridian + leaseUs, retiringAt := none }
      let sel := if (f.keySet (1 - set_) out).alive s.meridian then f.selected else set_
      set ((s.setFn fn { g with selected := sel }).reply fn (.ok 0x06 [set_, boolNat out])))

/-- A key set changed in both directions. -/
def Func.modKeySet (f : Func) (set_ : Nat) (g : KeySet → KeySet) : Func :=
  (f.setKeySet set_ false (g (f.keySet set_ false))).setKeySet set_ true (g (f.keySet set_ true))

/-- The host switches its stream to the other set; the one it leaves is to retire, in both directions. -/
def execIdeKeySetSwitch (fn set_ : Nat) : State → Host.Outcome State Fault Refusal :=
  event do
    let s ← get
    let f := s.fn fn
    require (decide (fn ≤ 14) && decide (set_ ≤ 1) && decide (f.selected ≠ set_) && (f.keySet set_ false).alive s.meridian)
    let g := (f.modKeySet set_ fun k => { k with retiringAt := none }).modKeySet (1 - set_) fun k => { k with retiringAt := some s.meridian }
    set (s.setFn fn { g with selected := set_ })

/-- A set retires when 10 ms have passed since the switch away from it and every non-posted request that went out under it is answered:
those of a command, which the model's host answers as they are made, are taken to be outstanding until the command's final status (log 99). -/
def execIdeKeySetRetire (fn set_ : Nat) : State → Host.Outcome State Fault Refusal :=
  event do
    let s ← get
    let f := s.fn fn
    match (f.keySet set_ false).retiringAt with
    | some t => do
      require (decide (t + 10000 ≤ s.meridian) && !(f.pending.any fun p => decide (p.keySet = set_)))
      set (s.setFn fn (f.modKeySet set_ fun _ => KeySet.init))
    | none => require false

/-- A TLP that fails IDE integrity is discarded, and sends the TDI to ERROR (R34, R44). -/
def execIdeIntegrityFailure (fn : Nat) : State → Host.Outcome State Fault Refusal := event (modify (·.tdiError fn Cause.tdiStop))

/-! ## Expiries (R40, R42, R44) -/

/-- The world's TDI enters ERROR, and its threads freeze with cause KEYLEASE. -/
def execWorldKeyLeaseExpiry (world : Nat) : State → Host.Outcome State Fault Refusal :=
  event do
    let s ← get
    let w := s.world world
    require (w.live && !w.memDead && s.keyDead world)
    let t := (s.modWorld world fun x => { x with memDead := true }).tdiFails w.tdi
    set (if w.stopped then t.refreshBindings else t.stopWorld world Cause.keylease none)

/-- One key set is no longer accepted or used; a write of the host under it is an IDE integrity failure from its tick on (R44). -/
def execIdeKeySetExpiry (fn set_ : Nat) (out : Bool) : State → Host.Outcome State Fault Refusal :=
  event do
    let s ← get
    let f := s.fn fn
    let k := f.keySet set_ out
    require (k.live && decide (k.expiry ≤ s.meridian))
    set (s.setFn fn (f.setKeySet set_ out { k with live := false }))

/-- From its expiry on, CTXOUT and CTXIN of the world trap KEYLEASE until a renewal; the key stays (R42). That state is the expiry
itself against the clock, so that nothing more is stored. -/
def execContextSaveKeyExpiry (world : Nat) : State → Host.Outcome State Fault Refusal :=
  event do
    let s ← get
    require ((s.world world).live && decide ((s.world world).ctxExpiry ≤ s.meridian))

/-- The image key is destroyed: a restore of its images gives AUTH_FAIL. -/
def execCheckpointKeyExpiry : State → Host.Outcome State Fault Refusal :=
  event do
    let s ← get
    require (decide (s.ckptKey ≠ 0) && decide (s.ckptExpiry ≤ s.meridian))
    set { s with ckptKey := 0, ckptExpiry := 0 }

end Sys2Proof.Machine
end

