-- ==== Sys2Proof/Machine/Power.lean ====
section
/-! DEFINITION. Power, boot and start-up order, throttling, telemetry (spec 24, R41, R49), the passing of time, and CXL.mem (R25). -/

namespace Sys2Proof.Machine

/-! ## Boot (R47, R49, R325) -/

/-- The shipped matrix: world 0 reaches every world, each other world itself. -/
def shippedMatrix : BitVec 256 :=
  (List.range 16).foldl (fun m i => m ||| BitVec.twoPow 256 i ||| BitVec.twoPow 256 (17 * i)) 0

/-- The boot state that the checks of steps 1 to 3 give. -/
def bootStateOf (v : BootVerdict) : Byte :=
  if !v.firmwareOk then 2 else if !v.ioDieOk || !v.die0Ok || !v.die1Ok then 1 else 0

/-- A machine under power whose boot sequence runs: with every check passed, step 4 writes and locks the matrix and draws the memory
keys of worlds 0 and 1, which have no lease. -/
def State.boot (s : State) (v : BootVerdict) : State :=
  let t : State := { s with power := true, booted := true, bootState := bootStateOf v, attKey := bootAttestation }
  if bootStateOf v ≠ 0 then t
  else
    { t with
      firewallR := shippedMatrix, firewallW := shippedMatrix, firewallLock := true
      worlds := [(0, { World.init with live := true, memKey := s.keySerial }), (1, { World.init with live := true, memKey := s.keySerial + 1 })]
      keySerial := s.keySerial + 2 }

/-- POWER_ON: power is applied, if it is not, and the boot sequence runs. -/
def execPowerOn (v : BootVerdict) : State → Host.Outcome State Fault Refusal :=
  event do
    let s ← get
    require (!s.power || !s.booted)
    set (s.boot v)

/-- What a loss of power leaves: host memory, which is not the module's, and the model's own fields. Every key and lease, all state
of the device and the Meridian clock are lost (R41). -/
def State.unpowered (s : State) : State :=
  { State.reset with
    power := false, mem := s.mem.filter fun e => isHost e.1, cycle := s.cycle, keySerial := s.keySerial, schedule := s.schedule
    freeCtr := s.freeCtr, uidCtr := s.uidCtr, turnPtr := s.turnPtr, cur := s.cur }

def execPowerLoss : State → Host.Outcome State Fault Refusal :=
  event do
    require (← get).power
    modify State.unpowered

/-! ## The Heliostat (R308, R309, R310) -/

/-- The first cluster that is not enabled. -/
def State.nextCluster (s : State) : Option Nat := (List.range 64).find? fun c => !(s.core (8 * c)).enabled

/-- CLUSTER_ENABLE: the next cluster, 2,850 cycles after the one before it; its cores' clocks start at 0 then (R101, R308). -/
def execClusterEnable : State → Host.Outcome State Fault Refusal :=
  event do
    let s ← get
    require (s.booted && decide (s.bootState = 0))
    match s.nextCluster with
    | none => require false
    | some c => do
      let at_ := if c = 0 then s.cycle else (s.core (8 * c - 8)).enabledAt + 2850
      require (decide (at_ ≤ s.cycle))
      set ((List.range 8).foldl (fun t i => t.modCore (8 * c + i) fun k => { k with enabled := true, enabledAt := at_ }) s)

/-- ARRAY_GATING: no row started and no accumulator claimed for 2^20 cycles. -/
def execArrayGating (core : Nat) : State → Host.Outcome State Fault Refusal :=
  event do
    let s ← get
    let k := s.core core
    require (k.enabled && !k.gated && k.accs.all (fun a => !a.claimed) && decide (k.lastRow + 2 ^ 20 ≤ s.cycle) &&
      decide (k.enabledAt + 2 ^ 20 ≤ s.cycle))
    set (s.setCore core { k with gated := true })

/-- Tj at which a level is entered, in units of 0.125 °C. -/
def levelTj (level : Nat) : Nat :=
  match level with
  | 1 => 760
  | 2 => 800
  | _ => 840

/-- The level that temperature and power enter (R310); power within 2 % of the cap is 98 % of it or more. -/
def enteredLevel (tj power cap : Nat) : Nat :=
  if tj ≥ 840 then 3
  else if tj ≥ 800 || power ≥ cap then 2
  else if tj ≥ 760 || power * 100 ≥ cap * 98 then 1
  else 0

/-- Levels left one by one, while Tj is 5 °C below the level's threshold and power is below the cap. -/
def leftLevel (tj power cap target level : Nat) : Nat :=
  match level with
  | 0 => 0
  | n + 1 => if target < n + 1 && tj + 40 ≤ levelTj (n + 1) && power < cap then leftLevel tj power cap target n else n + 1

/-- A die's level after its temperature and the module's power have changed. -/
def Die.throttle (d : Die) (tj power cap : Nat) : Die :=
  let e := enteredLevel tj power cap
  ⟨if e ≥ d.level then e else leftLevel tj power cap e d.level, tj⟩

/-- Both dies' levels judged anew, by the module's power and its cap (R310). -/
def State.rejudge (s : State) : State :=
  { s with dies := [0, 1].foldl (fun l d => Sparse.put l d ((s.die d).throttle (s.die d).tj s.powerNow s.powerCap)) s.dies }

/-- THROTTLE_LEVEL_CHANGE: `tj` in units of 0.125 °C, `power` in W. -/
def execThrottleLevelChange (die tj power : Nat) : State → Host.Outcome State Fault Refusal :=
  event do
    let s ← get
    require (decide (die ≤ 1) && decide (tj < 920))
    set { s with powerNow := power, dies := Sparse.put s.dies die ((s.die die).throttle tj power s.powerCap) }.rejudge

/-- OVER_TEMPERATURE: at 115 °C the security processor removes power. -/
def execOverTemperature (die tj : Nat) : State → Host.Outcome State Fault Refusal :=
  event do
    require ((← get).power && decide (die ≤ 1) && decide (tj ≥ 920))
    modify State.unpowered

/-! ## Time: the counters of cycles (R311) -/

/-- Cycles of the next `n` from `now` in which an array that woke at `w` is in a ramp step 1 to 3. -/
def rampCycles (w : Option Nat) (now n : Nat) : Nat :=
  match w with
  | some x => min (now + n) (x + 384) - max now x
  | none => 0

/-- `n` cycles counted by a core from a cycle on. -/
def Core.elapse (c : Core) (level now n : Nat) : Core :=
  let c1 := c.tally 0x01 0 n
  let c2 := if level ≥ 1 then c1.tally 0x31 0 n else c1
  c2.tally 0x30 0 (rampCycles c.arrayWake now n)

/-- `n` cycles pass. -/
def State.elapse (s : State) (n : Nat) : State :=
  { s with
    cycle := s.cycle + n
    cores := s.cores.map fun e =>
      if e.2.enabled && e.2.evsel.toList.any (flag · 24) then (e.1, e.2.elapse (s.die (dieOf e.1)).level s.cycle n) else e }

/-! ## MCTP (R312, R313) -/

def execGetTelemetry : State → Host.Outcome State Fault Refusal :=
  event do
    let s ← get
    require s.booted
    set { s with mctp :=
      [(s.die 0).tj, (s.die 1).tj, s.powerNow, (s.die 0).level, (s.die 1).level, s.bootState.toNat, s.meridian] }

/-- UNCORE: a counter read, and a new source selected if the request names one. R312 lists no source codes, so that what a counter
finds is a free value (log 28). -/
def execUncore (die counter : Nat) (source : Option Nat) : State → Host.Outcome State Fault Refusal :=
  event do
    let s ← get
    require (s.booted && decide (die ≤ 1) && decide (counter ≤ 15))
    let key := die * 16 + counter
    let u := Sparse.get Uncore.init s.uncore key
    let v := Config.uncoreReading s.freeCtr
    let r : Uncore := ⟨source.getD u.source, v % 2 ^ 48, decide (v / 2 ^ 48 % 2 = 1)⟩
    set { s with uncore := Sparse.put s.uncore key r, mctp := [r.count, boolNat r.overflow], freeCtr := s.freeCtr + 1 }

/-- SET_POWER_CAP: 1,200 to 2,200 W; the cap in force is answered. -/
def execSetPowerCap (watts : Nat) : State → Host.Outcome State Fault Refusal :=
  event do
    let s ← get
    require s.booted
    let cap := if 1200 ≤ watts && watts ≤ 2200 then watts else s.powerCap
    set { s with powerCap := cap, mctp := [cap] }.rejudge

/-! ## CXL.mem (R25, R46) -/

/-- CXL_MEM_REQUEST: one line of a world 1 HBM extent. The decoders map nothing else, and the firewall judges world 1 against it: any
other request receives an Unsupported Request, and a read that fails its check delivers no data. -/
def execCxlMemRequest (q : MemRequest) : State → Host.Outcome State Fault Refusal :=
  event do
    let s ← get
    require s.booted
    let mine := (s.world 1).extents.any fun e => decide (e.kind = 0) && inRange e.dpa e.len q.addr
    let refused : State := { s.modFn 0 fun f => { f with lastUR := true } with cxlReply := none }
    if !mine || q.addr % 64 ≠ 0 || !s.fwAllows 1 1 (if q.write then .write else .read) then set refused
    else if q.write then
      if q.data.length ≠ 64 then set refused else set { s.deviceWrite 1 q.addr q.data with cxlReply := some [] }
    else
      let t := s.mscTouch (q.addr / 64)
      if t.lineVerifies 1 (q.addr / 64) then
        let u := t.lineCollide 1 (q.addr / 64)
        set { u with cxlReply := some (u.bytes q.addr 64) }
      else set { t with cxlReply := none }

end Sys2Proof.Machine
end

