-- ==== Sys2Proof/Machine/Scalar.lean ====
section
/-! DEFINITION. Page 0 but for its loads and stores (spec 06, R93 to R98): scalar arithmetic, immediates, predicates, branches. -/

namespace Sys2Proof.Machine

/-! ## Two operands (R93) -/

/-- OP sd, sa: d := d op a; OP sd, sa, sb: d := a op b. Both sources are read before d is written. -/
def aluTwo (op : W64 → W64 → W64) (d a : Reg) (x : Option Reg) : M Ctl :=
  match x with
  | none => scalar [d, a] (some d) do wr d (op (← rd d) (← rd a))
  | some b => scalar [a, b] (some d) do wr d (op (← rd a) (← rd b))

/-- The shift count y[5:0]. -/
def shiftCount (y : W64) : Nat := y.toNat % 64

def mulHigh (x y : W64) : W64 := BitVec.ofInt 64 (x.toInt * y.toInt / 2 ^ 64)
def mulHighU (x y : W64) : W64 := w64 (x.toNat * y.toNat / 2 ^ 64)
/-- Division never traps: by 0 the quotient is all ones, and −2^63 / −1 is −2^63 (R93). -/
def divS (x y : W64) : W64 := if y = 0 then BitVec.allOnes 64 else BitVec.ofInt 64 (x.toInt.tdiv y.toInt)
def divU (x y : W64) : W64 := if y = 0 then BitVec.allOnes 64 else w64 (x.toNat / y.toNat)
/-- The remainder with the sign of x; by 0 it is x (R93). -/
def remS (x y : W64) : W64 := if y = 0 then x else BitVec.ofInt 64 (x.toInt.tmod y.toInt)

def execAdd (d a : Reg) (x : Option Reg) : State → Host.Outcome State Fault Refusal := run (aluTwo (· + ·) d a x)
def execSub (d a : Reg) (x : Option Reg) : State → Host.Outcome State Fault Refusal := run (aluTwo (· - ·) d a x)
def execAnd (d a : Reg) (x : Option Reg) : State → Host.Outcome State Fault Refusal := run (aluTwo (· &&& ·) d a x)
def execOr (d a : Reg) (x : Option Reg) : State → Host.Outcome State Fault Refusal := run (aluTwo (· ||| ·) d a x)
def execXor (d a : Reg) (x : Option Reg) : State → Host.Outcome State Fault Refusal := run (aluTwo (· ^^^ ·) d a x)
def execSll (d a : Reg) (x : Option Reg) : State → Host.Outcome State Fault Refusal :=
  run (aluTwo (fun u v => u <<< shiftCount v) d a x)
def execSrl (d a : Reg) (x : Option Reg) : State → Host.Outcome State Fault Refusal :=
  run (aluTwo (fun u v => u >>> shiftCount v) d a x)
def execSra (d a : Reg) (x : Option Reg) : State → Host.Outcome State Fault Refusal :=
  run (aluTwo (fun u v => u.sshiftRight (shiftCount v)) d a x)
def execMul (d a : Reg) (x : Option Reg) : State → Host.Outcome State Fault Refusal := run (aluTwo (· * ·) d a x)
def execMulh (d a : Reg) (x : Option Reg) : State → Host.Outcome State Fault Refusal := run (aluTwo mulHigh d a x)
def execMulhu (d a : Reg) (x : Option Reg) : State → Host.Outcome State Fault Refusal := run (aluTwo mulHighU d a x)
def execDiv (d a : Reg) (x : Option Reg) : State → Host.Outcome State Fault Refusal := run (aluTwo divS d a x)
def execDivu (d a : Reg) (x : Option Reg) : State → Host.Outcome State Fault Refusal := run (aluTwo divU d a x)
def execRem (d a : Reg) (x : Option Reg) : State → Host.Outcome State Fault Refusal := run (aluTwo remS d a x)
def execMin (d a : Reg) (x : Option Reg) : State → Host.Outcome State Fault Refusal :=
  run (aluTwo (fun u v => if v.toInt < u.toInt then v else u) d a x)
def execMax (d a : Reg) (x : Option Reg) : State → Host.Outcome State Fault Refusal :=
  run (aluTwo (fun u v => if u.toInt < v.toInt then v else u) d a x)

/-! ## One operand, and compares (R94) -/

def aluOne (op : W64 → W64) (d a : Reg) : M Ctl := scalar [a] (some d) do wr d (op (← rd a))

/-- Zero bits above the highest one bit; 64 for 0. -/
def leadingZeros (v : W64) : W64 := w64 (if v = 0 then 64 else 63 - Nat.log2 v.toNat)

/-- Zero bits below the lowest one bit, looked for from bit n on. -/
def trailingFrom (v : W64) (fuel n : Nat) : Nat :=
  match fuel with
  | 0 => n
  | f + 1 => if v.getLsbD n then n else trailingFrom v f (n + 1)

def trailingZeros (v : W64) : W64 := w64 (trailingFrom v 64 0)
def oneBits (v : W64) : W64 := w64 ((List.range 64).filter v.getLsbD).length

def execMov (d a : Reg) : State → Host.Outcome State Fault Refusal := run (aluOne id d a)
def execNeg (d a : Reg) : State → Host.Outcome State Fault Refusal := run (aluOne (fun v => 0 - v) d a)
def execNot (d a : Reg) : State → Host.Outcome State Fault Refusal := run (aluOne (fun v => ~~~v) d a)
def execClz (d a : Reg) : State → Host.Outcome State Fault Refusal := run (aluOne leadingZeros d a)
def execCtz (d a : Reg) : State → Host.Outcome State Fault Refusal := run (aluOne trailingZeros d a)
def execPopc (d a : Reg) : State → Host.Outcome State Fault Refusal := run (aluOne oneBits d a)
def execSextb (d a : Reg) : State → Host.Outcome State Fault Refusal :=
  run (aluOne (fun v => (v.setWidth 8).signExtend 64) d a)
def execSexth (d a : Reg) : State → Host.Outcome State Fault Refusal :=
  run (aluOne (fun v => (v.setWidth 16).signExtend 64) d a)
def execSextw (d a : Reg) : State → Host.Outcome State Fault Refusal :=
  run (aluOne (fun v => (v.setWidth 32).signExtend 64) d a)
def execZextw (d a : Reg) : State → Host.Outcome State Fault Refusal :=
  run (aluOne (fun v => (v.setWidth 32).setWidth 64) d a)
def execMinu (d a : Reg) : State → Host.Outcome State Fault Refusal :=
  run (aluTwo (fun u v => if v.toNat < u.toNat then v else u) d a none)
def execMaxu (d a : Reg) : State → Host.Outcome State Fault Refusal :=
  run (aluTwo (fun u v => if u.toNat < v.toNat then v else u) d a none)

/-- The compares: y is REX xreg, or zero. -/
def compare (f : W64 → W64 → Bool) (p : Num3) (a : Reg) (x : Option Reg) : M Ctl :=
  scalar (a :: x.toList) none do
    let u ← rd a
    let v ← rd (x.getD 0)
    modMe (·.setPred p (f u v))

def eqW (u v : W64) : Bool := decide (u = v)
def ltS (u v : W64) : Bool := decide (u.toInt < v.toInt)
def ltU (u v : W64) : Bool := decide (u.toNat < v.toNat)

def execCmpeq (p : Num3) (a : Reg) (x : Option Reg) : State → Host.Outcome State Fault Refusal := run (compare eqW p a x)
def execCmplt (p : Num3) (a : Reg) (x : Option Reg) : State → Host.Outcome State Fault Refusal := run (compare ltS p a x)
def execCmpltu (p : Num3) (a : Reg) (x : Option Reg) : State → Host.Outcome State Fault Refusal := run (compare ltU p a x)

/-- SELP: with p0 false nothing is written. Where d is qo as a port it waits for room, and passes the firewall, whatever p0 is (DESIGN CHOICE,
log 103). -/
def selp (d a : Reg) : M Ctl := scalar [a] (some d) do
  let v ← rd a
  if (← getMe).pred 0 then wr d v

def execSelp (d a : Reg) : State → Host.Outcome State Fault Refusal := run (selp d a)

/-! ## Immediates (R95) -/

def aluImm (op : W64 → W64) (d : Reg) : M Ctl := scalar [d] (some d) do wr d (op (← rd d))

def execAddi (d : Reg) (imm : W64) : State → Host.Outcome State Fault Refusal := run (aluImm (· + imm) d)
def execLi (d : Reg) (imm : W64) : State → Host.Outcome State Fault Refusal := run (scalar [] (some d) (wr d imm))
def execLih (d : Reg) (imm : W32) : State → Host.Outcome State Fault Refusal :=
  run (aluImm (fun v => imm ++ v.setWidth 32) d)
def execSlli (d : Reg) (n : BitVec 6) : State → Host.Outcome State Fault Refusal := run (aluImm (· <<< n.toNat) d)
def execSrli (d : Reg) (n : BitVec 6) : State → Host.Outcome State Fault Refusal := run (aluImm (· >>> n.toNat) d)
def execSrai (d : Reg) (n : BitVec 6) : State → Host.Outcome State Fault Refusal := run (aluImm (·.sshiftRight n.toNat) d)
def execRori (d : Reg) (n : BitVec 6) : State → Host.Outcome State Fault Refusal := run (aluImm (·.rotateRight n.toNat) d)

/-- The conditions of CMPI: 0 EQ, 1 LT, 2 LTU, 3 NE. -/
def condition (c : BitVec 2) (u v : W64) : Bool :=
  match c.toNat with
  | 0 => eqW u v
  | 1 => ltS u v
  | 2 => ltU u v
  | _ => !eqW u v

def execCmpi (p : Num3) (a : Reg) (c : BitVec 2) (imm : W64) : State → Host.Outcome State Fault Refusal :=
  run (scalar [a] none do
    let u ← rd a
    modMe (·.setPred p (condition c u imm)))

/-! ## Jumps and branches (R83, R96, R98) -/

/-- The address of the next instruction. -/
def nextPc : M W64 := do
  let s ← get
  return s.me.pc + w64 s.cur.len

/-- The target check of JR, JALR and RET (R83). -/
def checkTarget (t : W64) : M Unit := do
  if flag t 0 then trapAt Cause.align t
  if fld t 56 8 ≠ 0 then trapXlate 5 t

/-- A jump, waiting where it used a port. -/
def jumpOver (srcs : List Reg) (dst : Option Reg) (m : M W64) : M Ctl :=
  withPorts srcs dst fun q => do
    let t ← m
    return if q then .doneAt t else .jump t

def jumpReg (a : Reg) : M Ctl := jumpOver [a] none do
  let t ← rd a
  checkTarget t
  return t

def execJr (a : Reg) : State → Host.Outcome State Fault Refusal := run (jumpReg a)

def jumpLink (d a : Reg) : M Ctl := jumpOver [a] (some d) do
  let t ← rd a
  checkTarget t
  wr d (← nextPc)
  return t

def execJalr (d a : Reg) : State → Host.Outcome State Fault Refusal := run (jumpLink d a)
def execRet : State → Host.Outcome State Fault Refusal := run (jumpReg 28)

/-- pc + 2 × offset, from the branch's first word (R75). -/
def branchTarget (pc off : W64) : W64 := pc + 2 * off

def execB (off : W64) : State → Host.Outcome State Fault Refusal :=
  run do return .jump (branchTarget (← getMe).pc off)

def execBp (p : Num3) (sense : Bool) (off : W64) : State → Host.Outcome State Fault Refusal :=
  run do
    let sl ← getMe
    return if sl.pred p = sense then .jump (branchTarget sl.pc off) else .next

def execCall (off : W64) : State → Host.Outcome State Fault Refusal :=
  run do
    let t := branchTarget (← getMe).pc off
    let link ← nextPc
    modMe (·.setReg 28 link)
    return .jump t

def execNop : State → Host.Outcome State Fault Refusal := run (pure .next)

/-! ## Predicates (R96) -/

def predTwo (f : Bool → Bool → Bool) (d a : Num3) : M Ctl := do
  modMe fun sl => sl.setPred d (f (sl.pred d) (sl.pred a))
  return .next

def execPand (d a : Num3) : State → Host.Outcome State Fault Refusal := run (predTwo (· && ·) d a)
def execPor (d a : Num3) : State → Host.Outcome State Fault Refusal := run (predTwo (· || ·) d a)
def execPxor (d a : Num3) : State → Host.Outcome State Fault Refusal := run (predTwo (· ^^ ·) d a)
def execPnot (d a : Num3) : State → Host.Outcome State Fault Refusal := run (predTwo (fun _ y => !y) d a)

/-- p7 … p0 with p0 in bit 0. -/
def packPreds (p : Vector Bool 8) : W64 :=
  w64 ((List.range 8).foldl (fun acc i => acc + boolNat (vat false p i) * 2 ^ i) 0)

def execPtos (d : Reg) : State → Host.Outcome State Fault Refusal :=
  run (scalar [] (some d) do wr d (packPreds (← getMe).p))

/-! ## STOP (R97) -/

/-- STOP: in a work slot PRIV. The supervisor's ends at once while k.trapq holds a record, the copy slot's where a mailbox word has
turned full since its previous STOP completed; else it waits for its event, which completes it (`Slot.wake`). -/
def stop : M Ctl := do
  let s ← get
  if s.cur.slot < 14 then trapPriv
  let ready := if s.cur.slot = 15 then !s.myCore.trapq.isEmpty else s.myCore.copyWake
  if !ready then throw (.wait (.stop s.cur.len))
  if s.cur.slot = 14 then modCore fun k => { k with copyWake := false }
  return .done

def execStop : State → Host.Outcome State Fault Refusal := run stop

/-! ## ILLEGAL_ENCODING (R80) -/

/-- Words that decode to nothing trap ILLEGAL with k.tval at the word that decided; they count as one instruction issued. -/
def execIllegalEncoding (tval : W64) : State → Host.Outcome State Fault Refusal := run (trapAt Cause.illegal tval)

end Sys2Proof.Machine
end

