-- ==== Sys2Proof/Machine/Submit.lean ====
section
/-! DEFINITION. Handing commands to the engines: EPUSH (R242) and DMERGE (R268). -/

namespace Sys2Proof.Machine

/-- A command of the acting thread handed to an engine: refused with status 0x01 where it is not well formed (R240). -/
def handOver (engine : Nat) (words : List W64) : M Unit := do
  let s ← get
  let sl := s.me
  modMe (·.modEngine engine fun p => { p with staged := [], unfinished := p.unfinished + 1 })
  let h := words.headD 0
  let c : EngCmd := {
    engine := engine, core := s.cur.core, slot := s.cur.slot, uid := sl.uid, world := s.myWorld, chain := sl.chain, words := words
    done := 0, aux := 0, count := 0, caps := [], seqs := [] }
  let refuse : M Unit := modify (·.postResult c Cause.illegal.toNat 0)
  match engine with
  | 0 => if e0Ok h then acceptE0 c else refuse
  | 1 => if e1Ok h (words[1]?.getD 0) then acceptE1 c else refuse
  | 2 => if e2Ok words then acceptE2 c else refuse
  | _ => if e3Ok h then acceptE3 c else refuse

/-- The look-up in front of an engine (R46). The spec names no world that owns one: the part that serves a slot is owned by the world of the
slot's core, and k.tval holds the engine's number (DESIGN CHOICE, log 97). -/
def engineFirewall (engine : Nat) : M Unit := do
  let s ← get
  if !s.fwAllows s.myWorld (s.sramOwner s.cur.core) .write then trapAt Cause.firewall (w64 engine)

/-- EPUSH waits while the engine holds eight unfinished commands of the slot, releases the thread's stores at the engine's scope,
takes the word, and hands a whole command over: header n + 1 words, and at most four. -/
def epush (d : Reg) (e : Num2) : M Ctl := waiting [d] none do
  let n := e.toNat
  let v ← rd d
  if 8 ≤ ((← getMe).engine n).unfinished then block true
  releaseAll
  engineFirewall n
  let staged := ((← getMe).engine n).staged ++ [v]
  if staged.length = min (cmdExtra (staged.headD 0)) 3 + 1 then handOver n staged
  else modMe (·.modEngine n fun p => { p with staged := staged })

def execEpush (d : Reg) (e : Num2) : State → Host.Outcome State Fault Refusal := run (epush d e)

/-- The k.restart key of DMERGE: page 6, MAJ 0x5, fn 0. -/
def dmergeKey : Nat := restartKey 6 5 0

/-- The end of a DMERGE: the oldest result of e1 is popped, with the acquire of an EPOP; until it is there the instruction waits,
recorded as accepted (row 1). -/
def dmergePop (d : Reg) : M Unit := do
  match ((← getMe).engine 1).results with
  | [] => do
    setRestart dmergeKey 1
    block true
  | r :: rest => do
    modMe (·.modEngine 1 fun q => { q with results := rest, head := (q.head + 1) % 8 })
    modify fun s => s.deliverEngine s.cur.core s.cur.slot 1
    acquireAt (engineScope 1)
    clearPend
    wr d r

/-- DMERGE pushes MERGE_PAGES with tag 0 as EPUSH does, then waits for its result. -/
def dmerge (d a : Reg) : M Ctl := waiting [d, a] (some d) do
  notCopySlot
  let v ← rd d
  let ea ← rd a
  match ← resumeRow dmergeKey with
  | some _ => dmergePop d
  | none => do
    if fld v 32 32 ≠ 0 then trapAt Cause.illegal v
    if 8 ≤ ((← getMe).engine 1).unfinished then block true
    releaseAll
    engineFirewall 1
    let staged := ((← getMe).engine 1).staged
    handOver 1 [w64 (0x0110 * 2 ^ 48 + fld v 16 16 * 2 ^ 16 + fld v 0 16), ea]
    modMe (·.modEngine 1 fun p => { p with staged := staged })
    dmergePop d

def execDmerge (d a : Reg) : State → Host.Outcome State Fault Refusal := run (dmerge d a)

end Sys2Proof.Machine
end

