-- ==== Sys2Proof/Machine/Sync.lean ====
section
/-! DEFINITION. Reservations, fused atomics, watched words, fences, waits and wakes by address (R218 to R228, R235 to R237). -/

namespace Sys2Proof.Machine

/-! ## Fused atomics (R224) -/

/-- Reserve, operate, release: `fn` is the function code; ACAS names a third register. -/
def fused (fn : Nat) (d a : Reg) (b : Option Reg) (m : Mod) : M Ctl := waiting ([d, a] ++ b.toList) (some d) do
  let v ← rd d
  let ea ← rd a
  let x ← match b with
    | some r => rd r
    | none => pure 0
  let w ← whoMe
  releaseAt m.order m.scope
  let (pl, cap) ← syncPlace w ea .atomic
  modify (·.performWord w.core w.slot pl.loc)
  askTurn pl.loc (← turnReq (.atomic fn) d v x m pl cap.charge)

def execAadd (d a : Reg) (m : Mod) : State → Host.Outcome State Fault Refusal := run (fused 0 d a none m)
def execAand (d a : Reg) (m : Mod) : State → Host.Outcome State Fault Refusal := run (fused 1 d a none m)
def execAor (d a : Reg) (m : Mod) : State → Host.Outcome State Fault Refusal := run (fused 2 d a none m)
def execAxor (d a : Reg) (m : Mod) : State → Host.Outcome State Fault Refusal := run (fused 3 d a none m)
def execAmin (d a : Reg) (m : Mod) : State → Host.Outcome State Fault Refusal := run (fused 4 d a none m)
def execAmax (d a : Reg) (m : Mod) : State → Host.Outcome State Fault Refusal := run (fused 5 d a none m)
def execAminu (d a : Reg) (m : Mod) : State → Host.Outcome State Fault Refusal := run (fused 6 d a none m)
def execAmaxu (d a : Reg) (m : Mod) : State → Host.Outcome State Fault Refusal := run (fused 7 d a none m)
def execAswap (d a : Reg) (m : Mod) : State → Host.Outcome State Fault Refusal := run (fused 8 d a none m)
def execAcas (d a b : Reg) (m : Mod) : State → Host.Outcome State Fault Refusal := run (fused 9 d a (some b) m)
def execAfadd (d a : Reg) (m : Mod) : State → Host.Outcome State Fault Refusal := run (fused 10 d a none m)

/-! ## Reservations (R220, R221) -/

/-- RSV of a word that the slot already holds: its current value, nothing else changed. -/
def rsvAgain (d : Reg) (m : Mod) (loc : Nat) (cap : Cap) : M Unit := do
  modify fun s => s.bankRead s.cur.core loc
  acquireOf m.order m.scope
  wr d ((← get).word64 loc)
  chargeCap cap

def rsv (d a : Reg) (m : Mod) : M Ctl := waiting [a] (some d) do
  let ea ← rd a
  let w ← whoMe
  releaseAt m.order m.scope
  let (pl, cap) ← syncPlace w ea .atomic
  modify fun s => (s.performWord w.core w.slot pl.loc).lapse pl.loc
  let s ← get
  if s.holdsWord s.me.uid pl.loc then rsvAgain d m pl.loc cap
  else
    match s.me.held with
    | oldest :: rest => if rest.length ≥ 3 then set (s.revokeWord oldest)
    | [] => pure ()
    askTurn pl.loc (← turnReq .rsv d 0 0 m pl cap.charge)

def execRsv (d a : Reg) (m : Mod) : State → Host.Outcome State Fault Refusal := run (rsv d a m)

/-- The holder's own plain stores that stand at a word's bank, performed before what it stores as it releases the word (R223, R244). -/
def State.landOwn (s : State) (uid loc : Nat) : State :=
  if s.holdsWord uid loc then
    let b := s.bank loc
    (b.deferred.filter fun d => decide (d.entry.uid = uid)).foldl (State.performDeferred loc)
      (s.setBank loc { b with deferred := b.deferred.filter fun d => decide (d.entry.uid ≠ uid) })
  else s

/-- Whether a buffer entry stands at the bank of a word that its own context holds. -/
def State.waitsOwn (s : State) (e : SbEntry) : Bool :=
  s.banks.any fun b => decide (b.2.holder.map (·.uid) = some e.uid) && b.2.deferred.any fun d => decide (d.entry = e)

/-- The end of a reservation that the slot holds: its store, if there is one, then the word is given on. -/
def endReservation (w : Who) (pl : Place) (v : Option W64) : M Unit := do
  modify fun s =>
    let s1 := match v with
      | some x => s.performWrite w.core s.me.uid w.world (fun _ => pl.pin) (cellsAt pl.loc (natToLe 8 x.toNat))
      | none => s
    (s1.releaseWord pl.loc).modMe (·.setPred 7 true)

/-- The release of RLS and RLSN, before their checks: every earlier write of the thread is performed, but for its own plain stores to the
word that it gives back, which are performed as it does so (R223). -/
def releaseOthers (m : Mod) : M Unit := do
  if m.order.getLsbD 1 && decide (m.scope.toNat ≥ 1) then
    modify fun s => s.performSlot s.cur.core s.cur.slot
    let s ← get
    if (s.core s.cur.core).sb.any fun e => decide (e.uid = s.me.uid) && !s.waitsOwn e then block true

/-- RLS and RLSN: `v` is the register that RLS stores. Acquire order has its effect as the instruction completes (R225, R245). -/
def rls (v : Option Reg) (a : Reg) (m : Mod) : M Ctl := waiting (v.toList ++ [a]) none do
  let x ← match v with
    | some r => do pure (some (← rd r))
    | none => pure none
  let ea ← rd a
  let w ← whoMe
  releaseOthers m
  let (pl, cap) ← syncPlace w ea .atomic
  modify fun s => ((s.performWord w.core w.slot pl.loc).lapse pl.loc).landOwn s.me.uid pl.loc
  let s ← get
  if s.holdsWord s.me.uid pl.loc then endReservation w pl x else modMe (·.setPred 7 false)
  acquireOf m.order m.scope
  chargeCap cap

def execRls (d a : Reg) (m : Mod) : State → Host.Outcome State Fault Refusal := run (rls (some d) a m)
def execRlsn (a : Reg) (m : Mod) : State → Host.Outcome State Fault Refusal := run (rls none a m)

/-! ## Watched words (R226, R227) -/

/-- The watch entry of an address: the word in a local window, the line in translated memory. -/
def watchOf (ea : W64) (pl : Place) : Watch :=
  if fld ea 61 3 = 6 then ⟨ea, pl.loc, 8, false⟩ else ⟨ea, pl.loc / 64 * 64, 64, false⟩

def rsvw (d a : Reg) (m : Mod) : M Ctl := waiting [a] (some d) do
  let ea ← rd a
  let w ← whoMe
  releaseAt m.order m.scope
  let (pl, cap) ← syncPlace w ea .read
  modify fun s => (s.performWord w.core w.slot pl.loc).bankRead w.core pl.loc
  modMe fun sl => { sl with watch := (if sl.watch.length ≥ 4 then sl.watch.drop 1 else sl.watch) ++ [watchOf ea pl] }
  acquireOf m.order m.scope
  wr d ((← get).word64 pl.loc)
  chargeCap cap

def execRsvw (d a : Reg) (m : Mod) : State → Host.Outcome State Fault Refusal := run (rsvw d a m)

/-- Bit n: entry n has been triggered. -/
def watchMask (l : List Watch) : Nat :=
  match l with
  | [] => 0
  | x :: rest => boolNat x.triggered + 2 * watchMask rest

/-- WAITRS. The copy and supervisor slots have no place in the thread-context cache: they wait in their slots (log 23). -/
def waitrs (d a : Reg) : M Ctl := withPorts [a] (some d) fun _ => do
  let n ← rd a
  let s ← get
  let me := s.me
  let lim := match me.limit with
    | some t => some t
    | none => if n = 0 then none else some (s.cycle + n.toNat)
  let late := match me.limit with
    | some t => decide (t ≤ s.cycle)
    | none => false
  if me.watch.isEmpty || watchMask me.watch ≠ 0 || late then
    modMe fun sl => { sl with watch := [] }
    wr d (w64 (watchMask me.watch))
    return .done
  else
    modMe fun sl => { sl with limit := lim }
    if s.cur.slot < 14 then parkMe me.pc (.watching lim) true else block false

def execWaitrs (d a : Reg) : State → Host.Outcome State Fault Refusal := run (waitrs d a)

/-- WAITRS_TIMEOUT: a context parked in WAITRS reaches its limit and is ready (R227). -/
def waitrsTimeout (core entry : Nat) : M Unit := do
  let s ← get
  match (s.core core).cache.find? (fun e => decide (e.1 = entry)) with
  | some (_, e) =>
    match e.st with
    | .parked (.watching (some t)) => do
      require (decide (t ≤ s.cycle))
      set (s.modCore core fun k => { k with cache := Sparse.put k.cache entry { e with st := .parked (.ready s.cycle) } })
    | _ => require false
  | none => require false

def execWaitrsTimeout (core entry : Nat) : State → Host.Outcome State Fault Refusal := event (waitrsTimeout core entry)

/-! ## Fences (R228) -/

def fence (m : Mod) : M Ctl := do
  releaseAt m.order m.scope
  acquireOf m.order m.scope
  return .done

def execFence (m : Mod) : State → Host.Outcome State Fault Refusal := run (fence m)

/-! ## Waiting and waking by address (R236, R237) -/

/-- The key of an address in the wait-and-wake table, after the first checks of WAITVA. -/
def waitKey (w : Who) (ea : W64) : M Nat := do
  if ea.toNat % 8 ≠ 0 then trapAt Cause.align ea
  match fld ea 61 3 with
  | 0 => return ea.toNat
  | 5 => resolveSeq w ea
  | _ => trapXlate 5 ea

def waitva (d a : Reg) : M Ctl := withPorts [d, a] none fun _ => do
  let ea ← rd d
  let v ← rd a
  let w ← whoMe
  let key ← waitKey w ea
  let (pl, cap) ← checkAccess w ea 8 .read [.read]
  if ← tableFull then trapAt Cause.waittableFull ea
  acquireAt 4
  let bs ← loadPlace w pl 8 ⟨1, 4, 0⟩ ea
  chargeCap cap
  acquireAt 4
  if w64 (leToNat bs) ≠ v then return .done
  else if w.slot ≥ 14 then block false
  else
    installWaiter key
    let pc ← nextAddr
    parkMe pc .waiter false

def execWaitva (d a : Reg) : State → Host.Outcome State Fault Refusal := run (waitva d a)

/-- WAKE and WAKEALL: the oldest `n` waiters on the address. -/
def wake (n : Option Nat) (d a : Reg) : M Ctl := waiting [d] (some a) do
  let ea ← rd d
  let w ← whoMe
  let key ← waitKey w ea
  releaseAll
  let (_, cap) ← checkAccess w ea 8 .write [.write]
  let s ← get
  let k := n.getD s.waitTable.length
  wr a (w64 (s.waitersOn w.world key k).length)
  modify (·.wakeOn w.world key k)
  chargeCap cap

def execWake (d a : Reg) (_m : Mod) : State → Host.Outcome State Fault Refusal := run (wake (some 1) d a)
def execWakeall (d a : Reg) (_m : Mod) : State → Host.Outcome State Fault Refusal := run (wake none d a)

end Sys2Proof.Machine
end

