-- ==== Sys2Proof/Machine/System.lean ====
section
/-! DEFINITION. Page 5: control registers (R86, R100), traps and returns, contexts saved and loaded, pre-emption, the debugger's
halts (spec 20), the completion of waiting instructions, and the records of the rotation (R90, R101, R274). -/

namespace Sys2Proof.Machine

/-! ## Control registers (R86) -/

/-- Who may read or write a control register. -/
inductive Right where
  | any | sup | world1 | nobody
  deriving DecidableEq, Repr

/-- The rights to read and to write the register of an index; none where the table has no register. -/
def kRights (i : Nat) : Option (Right × Right) :=
  if i ≤ 0x06 then some (.any, .sup)
  else if i ≤ 0x08 then some (.any, .any)
  else if i ≤ 0x0D then some (.any, .nobody)
  else if i = 0x0E then some (.any, .sup)
  else if i ≤ 0x14 then some (.any, .nobody)
  else if 0x18 ≤ i && i ≤ 0x1A then some (.sup, .sup)
  else if i = 0x20 || i = 0x21 then some (.world1, .world1)
  else if i = 0x22 then some (.world1, .nobody)
  else if 0x30 ≤ i && i ≤ 0x3F then some (.any, .sup)
  else none

def Right.holds (r : Right) (s : State) : Bool :=
  match r with
  | .any => true
  | .sup => isSup s
  | .world1 => decide (s.myWorld = 1)
  | .nobody => false

/-- Whether an index acts, in the supervisor slot, on the slot that k.slotsel selects (R100). -/
def ofSelected (i : Nat) : Bool := decide (i ≤ 0x11) || decide (i = 0x14)

/-- The slot whose register an index names. -/
def kSlot (i : Nat) (s : State) : Nat := if isSup s && ofSelected i then s.myCore.slotsel.toNat else s.cur.slot

/-- The state field of k.status (R272). -/
def SlotSt.code (st : SlotSt) : Nat :=
  match st with
  | .free => 0
  | .run => 1
  | .wait => 2
  | .trapped => 3
  | .stopped => 4
  | .halted => 5
  | .frozen => 6

def State.kStatus (s : State) (sl : Slot) (n : Nat) : W64 :=
  w64 (sl.st.code + boolNat (decide (n = 15) && sl.nest) * 2 ^ 8 + boolNat (s.world s.myWorld).attached * 2 ^ 9)

/-- The lines of a world that a slice of a cluster holds (R117). -/
def State.occupancy (s : State) (world cluster slice : Nat) : Nat :=
  ((s.l2.filter fun e => decide (e.1 / 128 = cluster * 16 + slice)).flatMap fun e => e.2.filter fun l => decide (l.owner = world)).length

def State.wayMask (s : State) (world cluster : Nat) : BitVec 16 := Sparse.get 0xFFFF s.wayMasks (world * 64 + cluster)
def State.setWayMask (s : State) (world cluster : Nat) (v : BitVec 16) : State :=
  { s with wayMasks := Sparse.set 0xFFFF s.wayMasks (world * 64 + cluster) v }

/-- The value of a slot's register (indices 0x00 to 0x11 and 0x14). -/
def State.kOfSlot (s : State) (i n : Nat) : W64 :=
  let sl := s.slot s.cur.core n
  match i with
  | 0x00 => s.kStatus sl n
  | 0x01 => sl.cause
  | 0x02 => sl.epc
  | 0x03 => sl.tval
  | 0x04 => sl.tcoord
  | 0x05 => sl.tfmt
  | 0x06 => sl.restart
  | 0x07 => sl.fpc
  | 0x08 => sl.flags
  | 0x09 => sl.fmt
  | 0x0A => sl.scl
  | 0x0B => sl.chain
  | 0x0C => w64 s.myWorld
  | 0x0D => w64 (s.cur.core * 16 + n)
  | 0x0E => w64 ((s.quantumLeft s.cur.core sl.quantum).getD 0)
  | 0x0F => sl.accown.setWidth 64
  | 0x10 => sl.plown.setWidth 64
  | 0x11 => sl.meter
  | _ => sl.task

/-- The oldest record taken from the core's queue; 0 where it is empty (R274). -/
def popRecord : M W64 := do
  let c ← getCore
  modCore fun k => { k with trapq := k.trapq.drop 1 }
  return c.trapq.headD 0

/-- k[i] (R100): of a FREE selected slot, k.status alone is not 0. k.cycle is that of the cycle in which the KRD issued. -/
def kRead (i : Nat) : M W64 := do
  let s ← get
  let n := kSlot i s
  if ofSelected i then
    return if isSup s && decide ((s.slot s.cur.core n).st = .free) && i ≠ 0 then 0 else s.kOfSlot i n
  match i with
  | 0x12 => return w64 (s.me.issuedAt - s.myCore.enabledAt)
  | 0x13 => return w64 s.meridian
  | 0x18 => return s.myCore.vbase
  | 0x19 => popRecord
  | 0x1A => return s.myCore.slotsel.setWidth 64
  | 0x20 => return (s.wayMask (fld s.me.wmsel 0 4) (fld s.me.wmsel 4 6)).setWidth 64
  | 0x21 => return s.me.wmsel
  | 0x22 => return w64 (s.occupancy (fld s.me.wmsel 0 4) (fld s.me.wmsel 4 6) (fld s.me.wmsel 10 4))
  | _ => return if i < 0x38 then vat 0 s.myCore.evsel (i - 0x30) else vat 0 s.myCore.evcnt (i - 0x38)

/-- A field [lo + n − 1 : lo] kept in its place. -/
def keep (v : W64) (lo n : Nat) : Nat := fld v lo n * 2 ^ lo

/-- A slot with one of its registers written, as far as the register's map allows. -/
def Slot.kSet (sl : Slot) (i : Nat) (v : W64) (core : State) (c : Nat) : Slot :=
  match i with
  | 0x01 => { sl with cause := w64 (keep v 0 8) }
  | 0x02 => { sl with epc := v }
  | 0x03 => { sl with tval := v }
  | 0x04 => { sl with tcoord := v }
  | 0x05 => { sl with tfmt := w64 (keep v 60 4 + keep v 0 16) }
  | 0x06 => { sl with restart := w64 (keep v 63 1 + keep v 23 17 + keep v 0 16) }
  | 0x07 => { sl with fpc := w64 (keep v 0 3) }
  | 0x08 => { sl with flags := w64 (keep v 0 9) }
  | 0x0E => { sl with quantum := core.quantumFrom c (if fld v 0 32 = 0 then none else some (fld v 0 32)) }
  | _ => sl

/-- k[i] := v. -/
def kWrite (i : Nat) (v : W64) : M Unit := do
  let s ← get
  let n := kSlot i s
  let c := s.cur.core
  if ofSelected i then
    if isSup s && decide ((s.slot c n).st = .free) then pure ()
    else if i = 0 then
      if n = 15 then modMe fun sl => { sl with nest := flag v 8 }
    else set (s.modSlot c n fun sl => sl.kSet i v s c)
  else
    match i with
    | 0x18 => do
      if flag v 0 then trapAt Cause.align v
      modCore fun k => { k with vbase := v }
    | 0x19 => if v = 0 then modCore fun k => { k with trapq := [] }
    | 0x1A => modCore fun k => { k with slotsel := v.setWidth 4 }
    | 0x20 => set (s.setWayMask (fld s.me.wmsel 0 4) (fld s.me.wmsel 4 6) (v.setWidth 16))
    | 0x21 => modMe fun sl => { sl with wmsel := w64 (keep v 0 14) }
    | _ => modCore fun k =>
        if i < 0x38 then { k with evsel := k.evsel.setIfInBounds (i - 0x30) (w64 (keep v 0 25)) }
        else { k with evcnt := k.evcnt.setIfInBounds (i - 0x38) (w64 (keep v 63 1 + keep v 0 48)) }

/-- The index of a KRD or KWR, with the right that it needs. -/
def kIndex (v : W64) (write : Bool) : M Nat := do
  match kRights v.toNat with
  | none => trapAt Cause.illegal v
  | some (r, w) => do
    if !(if write then w else r).holds (← get) then trapPriv
    return v.toNat

/-- KRD and KWR are scalar, but for k.waymask, k.wmsel and k.occ, which wait (R100). -/
def kDone (i : Nat) (used : Bool) : Ctl := if used || (0x20 ≤ i && i ≤ 0x22) then .done else .next

def krd (d a : Reg) : M Ctl := withPorts [a] (some d) fun q => do
  let i ← kIndex (← rd a) false
  wr d (← kRead i)
  return kDone i q

def execKrd (d a : Reg) : State → Host.Outcome State Fault Refusal := run (krd d a)

def kwr (d a : Reg) : M Ctl := withPorts [d, a] none fun q => do
  let v ← rd a
  let i ← kIndex (← rd d) true
  kWrite i v
  return kDone i q

def execKwr (d a : Reg) : State → Host.Outcome State Fault Refusal := run (kwr d a)

/-- TRAPQ_POP: the supervisor of the acting core reads k.trapq. -/
def execTrapqPop (d : Reg) : State → Host.Outcome State Fault Refusal :=
  event do
    let v ← popRecord
    modify fun s => s.writeReg s.cur.core 15 d v

/-- TRAPQ_CLEAR: the supervisor of the acting core writes 0 to k.trapq. -/
def execTrapqClear : State → Host.Outcome State Fault Refusal := event (modCore fun k => { k with trapq := [] })

/-! ## TRAP, BKPT, RTE (R276, R277, R286) -/

def trapInstr (a : Reg) : M Ctl := withPorts [a] none fun _ => do trapAt Cause.swtrap (← rd a)

def execTrap (a : Reg) : State → Host.Outcome State Fault Refusal := run (trapInstr a)

def rteInstr : M Ctl := do
  supOnly
  returnFromTrap (← get).myCore.slotsel.toNat

def execRte : State → Host.Outcome State Fault Refusal := run rteInstr

/-- BKPT: in an attached world the slot is HALTED at the boundary behind it, with a record; else it traps. -/
def bkpt : M Ctl := do
  let s ← get
  if !(s.world s.myWorld).attached then trapAt Cause.bkpt s.me.pc
  let pc ← nextAddr
  modMe fun sl => sl.after pc .halted .none
  modCore (·.queueRecord Cause.bkpt s.cur.slot 0)
  return .gone

def execBkpt : State → Host.Outcome State Fault Refusal := run bkpt

/-! ## Stop points (R278) -/

/-- What a slot's condition is to a stop that is asked of it: none; now; or at the end of what it does. -/
inductive StopPoint where
  | none | now | later
  deriving DecidableEq, Repr

/-- A request that waits at a bank: an RSV and a fused atomic are withdrawn by a pre-emption, a SPAWN completes, and a TEXIT has no stop
point, because retirement wins (R106, R289). -/
def State.turnStop (s : State) (core slot loc : Nat) : StopPoint :=
  match (s.bank loc).queue.find? fun r => decide (r.core = core) && decide (r.slot = slot) with
  | some r => match r.kind with
    | .atomic _ => .now
    | .rsv => .now
    | .texit => .none
    | _ => .later
  | none => .later

def State.stopPoint (s : State) (core slot : Nat) : StopPoint :=
  let sl := s.slot core slot
  match sl.st with
  | .free => .none
  | .halted => .none
  | .frozen => .none
  | .stopped => .now
  | .trapped => .now
  | .run => if sl.reissue then .later else .now
  | .wait =>
    match sl.waiting with
    | .none => .now
    | .rows => .now
    | .fe _ => .now
    | .turn loc => s.turnStop core slot loc
    | .barrier _ _ => .now
    | .send _ _ _ => .now
    | .leaving _ _ => .none
    | .stop _ => .later
    | .retiring => .none
    | .blocked w => if w then .now else .later
    | .complete => .later
    | .net => .later

/-- A slot at its stop point in a state: what waits is withdrawn, pc at the instruction; of a TRAPPED slot, at k.epc. A word that the
instruction had popped at qi is the next one to be popped again (R102). -/
def State.stopSlot (s : State) (core slot : Nat) (st : SlotSt) : State :=
  ((s.withdraw core slot).modCore core fun k => { k with inq := (k.slot slot).popped.toList ++ k.inq }).modSlot core slot fun sl =>
    { sl with
      st := st, waiting := .none, reissue := false, stopReq := .none, charged := if flag sl.restart 63 then sl.charged else []
      popped := none, pc := sl.stopPc }

/-- A slot operand: [3:0] names a work slot, `bit` may be set, and no other bit. -/
def slotOperand (v : W64) (bit : Option Nat) : M Nat := do
  let extra := match bit with
    | some b => keep v b 1
    | none => 0
  if v.toNat ≠ fld v 0 4 + extra || fld v 0 4 ≥ 14 then trapAt Cause.illegal v
  return fld v 0 4

/-- PREEMPT: the slot stops at its stop point. It waits, without being withdrawn, while the instruction in flight goes on; a
context that has left in the meantime has no stop point. -/
def preempt (d a : Reg) : M Ctl := waiting [a] (some d) do
  supOnly
  let v ← rd a
  let n ← slotOperand v none
  let s ← get
  let c := s.cur.core
  if s.me.reissue && decide ((s.slot c n).stopReq ≠ .preempt) then wr d 0
  else
    match s.stopPoint c n with
    | .none => do
      modify (·.modSlot c n fun sl => { sl with stopReq := .none })
      wr d 0
    | .now => do
      modify (·.stopSlot c n .stopped)
      wr d 1
    | .later => do
      modify (·.modSlot c n fun sl => { sl with stopReq := .preempt })
      block false

def execPreempt (d a : Reg) : State → Host.Outcome State Fault Refusal := run (preempt d a)

/-- Slots asked to halt: those at their stop point halt; whether another is still on its way. `again`: the slots were asked
before. -/
def haltSlots (c : Nat) (again : Bool) (slots : List Nat) : M Bool := do
  match slots with
  | [] => return false
  | n :: rest => do
    let s ← get
    let here ← match s.stopPoint c n with
      | .none => do
        modify (·.modSlot c n fun sl => { sl with stopReq := .none })
        pure false
      | .now => do
        if !again || decide ((s.slot c n).stopReq = .halt) then modify (·.stopSlot c n .halted)
        pure false
      | .later =>
        if again && decide ((s.slot c n).stopReq ≠ .halt) then pure false
        else do
          modify (·.modSlot c n fun sl => { sl with stopReq := .halt })
          pure true
    return (← haltSlots c again rest) || here

/-- The snapshot of a halted slot (R286): image offsets 0x040 to 0x47F and the core's accumulator state words. -/
def State.snapshot (s : State) (c n : Nat) : List Byte :=
  let k := s.core c
  let sl := k.withoutPorts n (s.slot c n)
  contextBytes sl ((s.quantumLeft c sl.quantum).getD 0) ++ wordsLe (k.accs.toList.map accState)

/-- HALTT: the named slots halt, and the lowest of them that is HALTED is written out. One that waits goes on though its world is
detached meanwhile. -/
def haltt (d a : Reg) : M Ctl := waiting [d, a] none do
  supOnly
  let s ← get
  if !(s.world s.myWorld).attached && !s.me.reissue then trapPriv
  let v ← rd a
  let ea ← rd d
  let n ← slotOperand v (some 8)
  if ea.toNat % 64 ≠ 0 then trapAt Cause.align ea
  if fld ea 58 6 ≠ 0x30 then trapXlate 5 ea
  let c := s.cur.core
  let slots := if flag v 8 then List.range 15 else [n]
  if ← haltSlots c s.me.reissue slots then block false
  let s ← get
  match slots.find? fun i => decide ((s.slot c i).st = .halted) with
  | none => pure ()
  | some i => do
    let caps ← writeRow (← whoMe) [(ea, s.snapshot c i)] 8
    chargeCaps caps

def execHaltt (d a : Reg) : State → Host.Outcome State Fault Refusal := run (haltt d a)

/-- RESUME: a HALTED or STOPPED slot, or every HALTED one of the core, goes on. -/
def resume (a : Reg) : M Ctl := waiting [a] none do
  supOnly
  let v ← rd a
  let n ← slotOperand v (some 8)
  let c := (← get).cur.core
  let go := fun (sl : Slot) => { sl with st := .run, waiting := .none }
  if flag v 8 then
    modify fun s => (List.range 15).foldl (fun t i => t.modSlot c i fun sl => if sl.st = .halted then go sl else sl) s
  else
    let st := ((← get).slot c n).st
    if st ≠ .halted && st ≠ .stopped then trapAt Cause.illegal v
    modify (·.modSlot c n go)

def execResume (a : Reg) : State → Host.Outcome State Fault Refusal := run (resume a)

/-! ## CTXSAVE, CTXLOAD (R279) -/

def ctxsave (d a : Reg) : M Ctl := waiting [a] (some d) do
  supOnly
  let v ← rd a
  let n ← slotOperand v (some 4)
  let s ← get
  let c := s.cur.core
  let sl := s.slot c n
  if sl.st ≠ .stopped then trapAt Cause.illegal v
  match (s.core c).roomFor sl.spill with
  | none => do
    modify fun s => (s.performSlot c n).modCore c (·.queueRecord Cause.ctxFull n 0)
    wr d allOnes
  | some e => do
    let t := (s.revokeAll sl.uid).performSlot c n
    set t
    if t.hasDeferred c sl.uid || t.unitsLocked c n then block false
    set (t.moveOut c n e (if flag v 4 then .held else .parked (.ready t.cycle)))
    wr d (w64 e)

def execCtxsave (d a : Reg) : State → Host.Outcome State Fault Refusal := run (ctxsave d a)

def ctxload (a : Reg) : M Ctl := waiting [a] none do
  supOnly
  let v ← rd a
  let s ← get
  match (s.myCore).cache.find? fun e => decide (e.1 = v.toNat) with
  | some (i, e) => do
    if e.st ≠ .held then trapAt Cause.illegal v
    modCore fun k => { k with cache := Sparse.put k.cache i { e with st := .parked (.ready s.cycle) } }
  | none => trapAt Cause.illegal v

def execCtxload (a : Reg) : State → Host.Outcome State Fault Refusal := run (ctxload a)

/-! ## Completions, and the records of the rotation -/

/-- INSTRUCTION_COMPLETION: a waiting instruction's time has come (R90), or what it waits for may have come about, and it tries
again at a turn of the slot; until it completes, the slot stays in WAIT (R272). -/
def instructionCompletion (core slot : Nat) : M Unit := do
  let s ← get
  let sl := s.slot core slot
  require (decide (sl.st = .wait) && (s.core core).enabled && !(s.world (s.core core).world).stopped)
  match sl.waiting with
  | .complete => set ((s.endInstr core slot).modSlot core slot fun x => { x with st := .run, waiting := .none })
  | .rows => set (s.modSlot core slot fun x => { x with reissue := true })
  | .blocked _ => set (s.modSlot core slot fun x => { x with reissue := true })
  | .retiring => set (s.modSlot core slot fun x => { x with reissue := true })
  | .barrier loc q => do
    let b := s.barrier loc
    require (decide (b.phase ≠ q))
    set (s.releasePhase loc q (b.actScope loc))
  | _ => require false

def execInstructionCompletion (core slot : Nat) : State → Host.Outcome State Fault Refusal := event (instructionCompletion core slot)

/-- Whether a TEXIT of the slot has issued and waits (R106). -/
def State.retires (s : State) (core slot : Nat) : Bool :=
  let sl := s.slot core slot
  decide (sl.st = .wait) && decide (s.stopPoint core slot = .none) && match sl.waiting with
    | .leaving _ _ => false
    | _ => true

/-- QUANTUM_EXPIRY: k.quantum has stepped from 1 to 0 (R101). Once a TEXIT has issued it makes no record (R106). -/
def quantumExpiry (core slot : Nat) : M Unit := do
  let s ← get
  let sl := s.slot core slot
  match sl.quantum with
  | none => require false
  | some t => do
    require (decide (sl.st ≠ .free) && decide (t ≤ s.coreCycle core))
    let t := s.modSlot core slot fun x => { x with quantum := none }
    set (if s.retires core slot then t else t.modCore core (·.queueRecord Cause.quantum slot 0))

def execQuantumExpiry (core slot : Nat) : State → Host.Outcome State Fault Refusal := event (quantumExpiry core slot)

/-- Whether work of a band has waited 4,096 cycles on a core (R274). -/
def State.workWaits (s : State) (core band : Nat) : Bool :=
  let c := s.core core
  let d := vat Deque.init c.deques band
  (d.hw ++ d.spill.flatMap (·.pkts)).any (fun p => decide (p.since + 4096 ≤ s.cycle)) ||
  c.cache.any fun e => decide (e.2.band = band) && match e.2.readySince with
    | some n => decide (n + 4096 ≤ s.cycle)
    | none => false

/-- The work slot of the lowest band, oldest dispatch first (R274). -/
def State.lowestSlot (s : State) (core : Nat) : Nat :=
  (List.range 14).foldl (fun best n =>
    let x := s.slot core n
    let y := s.slot core best
    if x.band < y.band || (x.band = y.band && x.dispatchedAt < y.dispatchedAt) then n else best) 0

/-- PREEMPT_REQ: work of a band waits while every work slot holds a task of a lower one. -/
def preemptReqRecord (core band : Nat) : M Unit := do
  let s ← get
  require (s.workWaits core band && (List.range 14).all fun n =>
    decide ((s.slot core n).st ≠ .free) && decide ((s.slot core n).band < band))
  set (s.modCore core (·.queueRecord Cause.preemptReq (s.lowestSlot core) band))

def execPreemptReq (core band : Nat) : State → Host.Outcome State Fault Refusal := event (preemptReqRecord core band)

end Sys2Proof.Machine
end

