-- ==== Sys2Proof/Machine/Tile.lean ====
section
/-! DEFINITION. Page 2, the tile instructions (spec 11, R172 to R181). -/

namespace Sys2Proof.Machine

def floatTypes : List Nat := [5, 6, 7]
def arithTypes : List Nat := [0, 1, 5, 6, 7, 8]
def intTypes : List Nat := [0, 1, 8]
def allTypes : List Nat := [0, 1, 2, 3, 4, 5, 6, 7, 8, 9]

/-! ## Elements -/

/-- TADD, TSUB, TMUL (R172). -/
def addE (ty : Nat) (rm : Rm) (a b : Nat) : FR := deliverTy ty rm ((valueOf ty a).add rm (valueOf ty b))
def subE (ty : Nat) (rm : Rm) (a b : Nat) : FR := deliverTy ty rm ((valueOf ty a).add rm (valueOf ty b).neg)
def mulE (ty : Nat) (rm : Rm) (a b : Nat) : FR := deliverTy ty rm ((valueOf ty a).mul (valueOf ty b))
def fmaE (ty : Nat) (rm : Rm) (a b c : Nat) : FR := deliverTy ty rm (Fp.fma rm (valueOf ty a) (valueOf ty b) (valueOf ty c))

/-- TMAX and TMIN: by value; exact (R172). -/
def maxE (ty a b : Nat) : FR :=
  match fmtOf ty with
  | some f => let (x, fl) := (f.decode a).max (f.decode b); f.deliver .nearest true x fl
  | none => ⟨if intOf ty a < intOf ty b then b else a, 0⟩

def minE (ty a b : Nat) : FR :=
  match fmtOf ty with
  | some f => let (x, fl) := (f.decode a).min (f.decode b); f.deliver .nearest true x fl
  | none => ⟨if intOf ty b < intOf ty a then b else a, 0⟩

def satOp (op : Int → Int → Int) (ty a b : Nat) : FR := satInt ty (op (intOf ty a) (intOf ty b))

/-- TSHL and TSHR (R174): the count is the element of tb, unsigned. -/
def shlE (ty a n : Nat) : FR :=
  let w := 8 * tySize ty
  ⟨if n ≥ w then 0 else a * 2 ^ n % 2 ^ w, 0⟩

def shrE (ty a n : Nat) : FR :=
  let w := 8 * tySize ty
  ⟨intBits ty (intOf ty a / 2 ^ min n w), 0⟩

/-- exp2 with its special operands (R175). -/
def exp2E (ty : Nat) (rm : Rm) (x : Fp) : FR :=
  match fmtOf ty with
  | some f => f.exp2 rm (decide (ty ≠ 7)) x
  | none => ⟨0, 0⟩

/-- TEXP (R175): x log2 e rounded to FP32, then exp2; INX when either rounding is inexact. Where a finite x gives −∞ there, the result is +0
with UF and INX in every rounding mode. -/
def texpE (ty : Nat) (rm : Rm) (a : Nat) : FR :=
  match valueOf ty a with
  | .fin n m e =>
    let y := Fmt.fp32.deliver .nearest false ((Fp.fin n m e).mul (Fmt.fp32.decode 0x3FB8AA3B)).1 0
    let r : FR := match Fmt.fp32.decode y.bits with
      | .inf true => ⟨0, Flag.uf ||| Flag.inx⟩
      | .inf false => exp2E ty rm (.fin false 1 40)
      | x => exp2E ty rm x
    ⟨r.bits, r.flags ||| (y.flags &&& Flag.inx)⟩
  | x => exp2E ty rm x

def log2E (ty : Nat) (rm : Rm) (a : Nat) : FR :=
  match fmtOf ty with
  | none => ⟨0, 0⟩
  | some f =>
    match f.decode a with
    | .nan => ⟨f.canonNan, Flag.nan⟩
    | .zero _ => ⟨f.sign true + f.infBits, Flag.dz⟩
    | .inf neg => if neg then ⟨f.canonNan, Flag.inv⟩ else ⟨f.infBits, 0⟩
    | .fin neg m e => if neg then ⟨f.canonNan, Flag.inv⟩ else f.log2 rm (decide (ty ≠ 7)) m e

def rcpE (ty : Nat) (rm : Rm) (a : Nat) : FR :=
  match fmtOf ty with
  | none => ⟨0, 0⟩
  | some f =>
    match f.decode a with
    | .nan => ⟨f.canonNan, Flag.nan⟩
    | .zero neg => ⟨f.sign neg + f.infBits, Flag.dz⟩
    | .inf neg => ⟨f.sign neg, 0⟩
    | .fin neg m e => let (q, k, s) := recipParts m e; f.round rm (decide (ty ≠ 7)) neg q k s

def rsqE (ty : Nat) (rm : Rm) (a : Nat) : FR :=
  match fmtOf ty with
  | none => ⟨0, 0⟩
  | some f =>
    match f.decode a with
    | .nan => ⟨f.canonNan, Flag.nan⟩
    | .zero neg => ⟨f.sign neg + f.infBits, Flag.dz⟩
    | .inf neg => if neg then ⟨f.canonNan, Flag.inv⟩ else ⟨0, 0⟩
    | .fin neg m e =>
      if neg then ⟨f.canonNan, Flag.inv⟩
      else let (q, k, s) := rsqrtParts m e; f.round rm (decide (ty ≠ 7)) false q k s

/-- |x| and −x: exact; the least integer saturates (R175). -/
def absE (ty a : Nat) : FR :=
  match fmtOf ty with
  | some f =>
    match f.decode a with
    | .nan => ⟨f.canonNan, Flag.nan⟩
    | _ => ⟨a % 2 ^ (f.mw + f.ew), 0⟩
  | none => satInt ty (intOf ty a).natAbs

def negE (ty a : Nat) : FR :=
  match fmtOf ty with
  | some f =>
    match f.decode a with
    | .nan => ⟨f.canonNan, Flag.nan⟩
    | x => f.deliver .nearest true x.neg 0
  | none => satInt ty (-intOf ty a)

/-! ## Element operations of two sources (R172, R174) -/

/-- A two-source instruction whose sources agree in type, R and C, the result in ta's shape. -/
def tileTwo (maj fn : Nat) (types : List Nat) (computes : Bool) (f : Nat → Rm → Nat → Nat → FR) (d a b : Num3) : M Ctl := do
  let sl ← getMe
  let sa := (sl.tile a).shape
  let sb := (sl.tile b).shape
  let ty := shType sa
  let fmt := tfmtWord (tyCode sa) (tyCode sa) (tyCode sb) 15
  tileRows (restartKey 2 maj fn) d
    (do
      checkSrc sa types fmt
      checkSrc sb types fmt
      agree (sameTRC sb sa) sb fmt
      checkDst d sa [(a, sa), (b, sb)] fmt
      return sa)
    (beginResult d)
    (fun r => do
      let t ← getMe
      let els := (List.range (shVcols (t.tile d).shape)).map fun j => f ty (rmOf t.fpcAt) ((t.tile a).elem r j) ((t.tile b).elem r j)
      commitRow d r els computes fmt)

def execTadd (d a b : Num3) : State → Host.Outcome State Fault Refusal := run (tileTwo 0 0 floatTypes true addE d a b)
def execTsub (d a b : Num3) : State → Host.Outcome State Fault Refusal := run (tileTwo 0 1 floatTypes true subE d a b)
def execTmul (d a b : Num3) : State → Host.Outcome State Fault Refusal := run (tileTwo 0 2 floatTypes true mulE d a b)
def execTmax (d a b : Num3) : State → Host.Outcome State Fault Refusal :=
  run (tileTwo 0 3 arithTypes true (fun ty _ => maxE ty) d a b)
def execTmin (d a b : Num3) : State → Host.Outcome State Fault Refusal :=
  run (tileTwo 0 4 arithTypes true (fun ty _ => minE ty) d a b)

/-- TFMA (R172): the old td is the third source; its valid region may differ, and it reads zero outside. -/
def tileFma (d a b : Num3) : M Ctl := do
  let sl ← getMe
  let sa := (sl.tile a).shape
  let sb := (sl.tile b).shape
  let sd := (sl.tile d).shape
  let ty := shType sa
  let fmt := tfmtWord (tyCode sa) (tyCode sa) (tyCode sb) (tyCode sd)
  tileRows (restartKey 2 0 5) d
    (do
      checkSrc sa floatTypes fmt
      checkSrc sb floatTypes fmt
      agree (sameTRC sb sa) sb fmt
      checkSrc sd floatTypes fmt
      agree (sameTRC sd sa) sd fmt
      checkDst d sa [(a, sa), (b, sb)] fmt
      return sa)
    (beginResult d)
    (fun r => do
      let t ← getMe
      let els := (List.range (shVcols (t.tile d).shape)).map fun j =>
        fmaE ty (rmOf t.fpcAt) ((t.tile a).elem r j) ((t.tile b).elem r j) ((t.tile d).elem r j)
      commitRow d r els true fmt)

def execTfma (d a b : Num3) : State → Host.Outcome State Fault Refusal := run (tileFma d a b)

/-- TSEL (R173): byte j of td's row is the mask, in place until the row commits. -/
def tileSel (d a b : Num3) : M Ctl := do
  let sl ← getMe
  let sa := (sl.tile a).shape
  let sb := (sl.tile b).shape
  let sd := (sl.tile d).shape
  let fmt := tfmtWord (tyCode sa) (tyCode sa) (tyCode sb) (tyCode sd)
  tileRows (restartKey 2 0 6) d
    (do
      checkSrc sa allTypes fmt
      checkSrc sb allTypes fmt
      agree (sameTRC sb sa) sb fmt
      checkSrc sd [9] fmt
      agree (sameRC sd sa) sd fmt
      if a = d || b = d then checkDst d sa [(a, sa), (b, sb)] fmt
      return sa)
    (beginResult d)
    (fun r => do
      let t ← getMe
      let mask := (t.tile d).row r
      let els := (List.range (shVcols (t.tile d).shape)).map fun j =>
        FR.mk (if elemAt mask 1 j ≠ 0 then (t.tile a).elem r j else (t.tile b).elem r j) 0
      commitRow d r els false fmt)

def execTsel (d a b : Num3) : State → Host.Outcome State Fault Refusal := run (tileSel d a b)

/-- TCPYM (R173): the old td where the mask tb is false; the side vector is unchanged (R326). -/
def tileCpym (d a b : Num3) : M Ctl := do
  let sl ← getMe
  let sa := (sl.tile a).shape
  let sb := (sl.tile b).shape
  let sd := (sl.tile d).shape
  let fmt := tfmtWord (tyCode sa) (tyCode sa) (tyCode sb) (tyCode sd)
  tileRows (restartKey 2 0 7) d
    (do
      checkSrc sa allTypes fmt
      checkSrc sb [9] fmt
      agree (sameRC sb sa) sb fmt
      checkSrc sd allTypes fmt
      agree (sameTRC sd sa) sd fmt
      checkDst d sa [(a, sa), (b, sb)] fmt
      return sa)
    (beginResultKeep d)
    (fun r => do
      let t ← getMe
      let els := (List.range (shVcols (t.tile d).shape)).map fun j =>
        FR.mk (if (t.tile b).elem r j ≠ 0 then (t.tile a).elem r j else (t.tile d).elem r j) 0
      commitRow d r els false fmt)

def execTcpym (d a b : Num3) : State → Host.Outcome State Fault Refusal := run (tileCpym d a b)

def execTiadd (d a b : Num3) : State → Host.Outcome State Fault Refusal :=
  run (tileTwo 1 0 intTypes true (fun ty _ => satOp (· + ·) ty) d a b)
def execTisub (d a b : Num3) : State → Host.Outcome State Fault Refusal :=
  run (tileTwo 1 1 intTypes true (fun ty _ => satOp (· - ·) ty) d a b)
def execTimul (d a b : Num3) : State → Host.Outcome State Fault Refusal :=
  run (tileTwo 1 2 intTypes true (fun ty _ => satOp (· * ·) ty) d a b)
def execTand (d a b : Num3) : State → Host.Outcome State Fault Refusal :=
  run (tileTwo 1 3 allTypes false (fun _ _ x y => ⟨x &&& y, 0⟩) d a b)
def execTor (d a b : Num3) : State → Host.Outcome State Fault Refusal :=
  run (tileTwo 1 4 allTypes false (fun _ _ x y => ⟨x ||| y, 0⟩) d a b)
def execTxor (d a b : Num3) : State → Host.Outcome State Fault Refusal :=
  run (tileTwo 1 5 allTypes false (fun _ _ x y => ⟨x ^^^ y, 0⟩) d a b)
def execTshl (d a b : Num3) : State → Host.Outcome State Fault Refusal :=
  run (tileTwo 1 6 intTypes true (fun ty _ => shlE ty) d a b)
def execTshr (d a b : Num3) : State → Host.Outcome State Fault Refusal :=
  run (tileTwo 1 7 intTypes true (fun ty _ => shrE ty) d a b)

/-! ## Unary operations (R175, R176) -/

/-- A one-source instruction with a result shape made from ta's. -/
def tileOne (maj fn : Nat) (types : List Nat) (computes : Bool) (res : W64 → W64) (f : Nat → Rm → Nat → FR) (d a : Num3) : M Ctl := do
  let sl ← getMe
  let sa := (sl.tile a).shape
  let ty := shType sa
  let fmt := tfmtWord (resCode sa (shType (res sa))) (tyCode sa) 15 15
  tileRows (restartKey 2 maj fn) d
    (do
      checkSrc sa types fmt
      checkDst d (res sa) [(a, sa)] fmt
      return res sa)
    (beginResult d)
    (fun r => do
      let t ← getMe
      let els := (List.range (shVcols (t.tile d).shape)).map fun j => f ty (rmOf t.fpcAt) ((t.tile a).elem r j)
      commitRow d r els computes fmt)

def execTexp (d a : Num3) : State → Host.Outcome State Fault Refusal := run (tileOne 2 0 floatTypes true id texpE d a)
def execTexp2 (d a : Num3) : State → Host.Outcome State Fault Refusal :=
  run (tileOne 2 1 floatTypes true id (fun ty rm x => exp2E ty rm (valueOf ty x)) d a)
def execTlog2 (d a : Num3) : State → Host.Outcome State Fault Refusal := run (tileOne 2 2 floatTypes true id log2E d a)
def execTrcp (d a : Num3) : State → Host.Outcome State Fault Refusal := run (tileOne 2 3 floatTypes true id rcpE d a)
def execTrsq (d a : Num3) : State → Host.Outcome State Fault Refusal := run (tileOne 2 4 floatTypes true id rsqE d a)
def execTabs (d a : Num3) : State → Host.Outcome State Fault Refusal :=
  run (tileOne 2 5 [0, 5, 6, 7, 8] true id (fun ty _ => absE ty) d a)
def execTneg (d a : Num3) : State → Host.Outcome State Fault Refusal :=
  run (tileOne 2 6 [0, 5, 6, 7, 8] true id (fun ty _ => negE ty) d a)

/-- ta's shape with another element type. -/
def withType (ty : Nat) (v : W64) : W64 := mkShape ty (shRows v) (shCols v) (shVrows v) (shVcols v)

def execTcvt (d a : Num3) (ty : BitVec 4) : State → Host.Outcome State Fault Refusal :=
  run (tileOne 2 7 [0, 1, 2, 3, 4, 5, 6, 7, 8] true (withType ty.toNat) (fun src _ x => convert src ty.toNat x) d a)

/-! ## Reductions (R177) -/

/-- One addition of a float sum, rounded to FP32 to nearest even, with the flags of an element's result (R155). NAN is set for a NaN element
alone, not for a NaN that an earlier addition of the sum has made. -/
def sumStep (a b : Nat) : FR :=
  let (x, f) := (Fmt.fp32.decode a).add .nearest (Fmt.fp32.decode b)
  let r := Fmt.fp32.deliver .nearest false x f
  ⟨r.bits, r.flags &&& (Flag.ovf32 + Flag.inv + Flag.uf + Flag.inx)⟩

/-- A float sum in ascending index order. -/
def sumFrom (acc : FR) (xs : List Nat) : FR :=
  match xs with
  | [] => acc
  | x :: rest => let r := sumStep acc.bits x; sumFrom ⟨r.bits, acc.flags ||| r.flags⟩ rest

/-- The sum of elements widened to FP32. A lone NaN is delivered as the canonical NaN. -/
def sumFp32 (ty : Nat) (els : List Nat) : FR :=
  match els.map (convert ty 7) with
  | [] => ⟨0, 0⟩
  | x :: rest => sumFrom ⟨x.bits, x.flags ||| rest.foldl (fun f e => f ||| e.flags) 0⟩ (rest.map (·.bits))

def intSum (ty : Nat) (els : List Nat) : Int := els.foldl (fun s e => s + intOf ty e) 0

/-- TRSUM's element: FP32, or INT32 saturated once. -/
def rowSum (ty : Nat) (els : List Nat) : FR :=
  match fmtOf ty with
  | some _ => sumFp32 ty els
  | none => satInt 8 (intSum ty els)

/-- TCSUM's element: narrowed once to ta's type. -/
def colSum (ty : Nat) (els : List Nat) : FR :=
  match fmtOf ty with
  | some _ =>
    let s := sumFp32 ty els
    if ty = 7 then s else let r := convert 7 ty s.bits; ⟨r.bits, s.flags ||| (r.flags &&& (Flag.nsat + Flag.inx + Flag.uf))⟩
  | none => satInt ty (intSum ty els)

/-- The maximum of elements; −∞ or the least value over none. -/
def maxOver (ty : Nat) (els : List Nat) : FR :=
  match els with
  | [] => ⟨match fmtOf ty with
    | some f => f.sign true + f.infBits
    | none => intBits ty (intMin ty), 0⟩
  | x :: rest => rest.foldl (fun acc e => let r := maxE ty acc.bits e; ⟨r.bits, acc.flags ||| r.flags⟩) (maxE ty x x)

/-- TRSUM and TRMAX: one column, row by row. -/
def tileRowReduce (fn : Nat) (resTy : Nat → Nat) (f : Nat → List Nat → FR) (d a : Num3) : M Ctl := do
  let sl ← getMe
  let sa := (sl.tile a).shape
  let ty := shType sa
  let res := mkShape (resTy ty) (shRows sa) 1 (shVrows sa) 1
  let fmt := tfmtWord (resCode sa (resTy ty)) (tyCode sa) 15 15
  tileRows (restartKey 2 3 fn) d
    (do
      checkSrc sa arithTypes fmt
      checkDst d res [(a, sa)] fmt
      return res)
    (beginResult d)
    (fun r => do
      let t ← getMe
      let src := t.tile a
      commitRow d r [f ty ((List.range (shVcols src.shape)).map fun j => src.elem r j)] true fmt)

def execTrsum (d a : Num3) : State → Host.Outcome State Fault Refusal :=
  run (tileRowReduce 0 (fun ty => if (fmtOf ty).isSome then 7 else 8) rowSum d a)
def execTrmax (d a : Num3) : State → Host.Outcome State Fault Refusal := run (tileRowReduce 1 id maxOver d a)

/-- A whole-tile instruction (R167): all rows commit at once; a resumption at row 1 moves nothing. -/
def wholeTile (key : Nat) (check : M W64) (act : M (Option TrapInfo)) : M Ctl := do
  let start ← resumeRow key
  if start.isNone then
    let _ ← check
  clearPend
  if start.getD 0 ≠ 0 then return .done
  match ← act with
  | some t => do
    setRestart key 1
    throw (.trap t)
  | none => return .done

/-- TCSUM and TCMAX: one row over ta's columns; whole-tile, so that td may name ta. -/
def tileColReduce (fn : Nat) (f : Nat → List Nat → FR) (d a : Num3) : M Ctl := do
  let sl ← getMe
  let src := sl.tile a
  let sa := src.shape
  let ty := shType sa
  let res := mkShape ty 1 (shCols sa) 1 (shVcols sa)
  let fmt := tfmtWord (tyCode sa) (tyCode sa) 15 15
  wholeTile (restartKey 2 3 fn)
    (do
      checkSrc sa arithTypes fmt
      checkDst d res [] fmt
      return res)
    (do
      let els := (List.range (shVcols sa)).map fun j => f ty ((List.range (shVrows sa)).map fun i => src.elem i j)
      beginResult d res
      commitRow d 0 els true fmt)

def execTcsum (d a : Num3) : State → Host.Outcome State Fault Refusal := run (tileColReduce 2 colSum d a)
def execTcmax (d a : Num3) : State → Host.Outcome State Fault Refusal := run (tileColReduce 3 maxOver d a)

/-! ## Broadcasts and moves (R178) -/

/-- TBROW: row 0 of ta spread over tb's shape. Over ta itself row 0 of the result equals row 0 of ta, which the later rows read (R178). -/
def tileBrow (d a b : Num3) : M Ctl := do
  let sl ← getMe
  let sa := (sl.tile a).shape
  let sb := (sl.tile b).shape
  let fmt := tfmtWord (tyCode sb) (tyCode sa) (tyCode sb) 15
  tileRows (restartKey 2 3 4) d
    (do
      checkSrc sa allTypes fmt
      checkSrc sb allTypes fmt
      agree (decide (shType sb = shType sa) && decide (shCols sb = shCols sa)) sb fmt
      checkDst d sb [(b, sb)] fmt
      return sb)
    (beginResult d)
    (fun r => do
      let t ← getMe
      commitRow d r ((List.range (shVcols (t.tile d).shape)).map fun j => ⟨(t.tile a).elem 0 j, 0⟩) false fmt)

def execTbrow (d a b : Num3) : State → Host.Outcome State Fault Refusal := run (tileBrow d a b)

/-- TBCOL: element 0 of each row spread over tb's shape. Over ta itself each row's element 0 stays in place until it commits. -/
def tileBcol (d a b : Num3) : M Ctl := do
  let sl ← getMe
  let sa := (sl.tile a).shape
  let sb := (sl.tile b).shape
  let ty := shType sa
  let res := withType ty sb
  let fmt := tfmtWord (tyCode sa) (tyCode sa) (tyCode sb) 15
  tileRows (restartKey 2 3 5) d
    (do
      checkSrc sa allTypes fmt
      checkSrc sb allTypes fmt
      agree (decide (shRows sb = shRows sa)) sb fmt
      checkDst d res [(b, sb)] fmt
      return res)
    (beginResult d)
    (fun r => do
      let t ← getMe
      let e := elemAt ((t.tile a).row r) (tySize ty) 0
      commitRow d r ((List.range (shVcols (t.tile d).shape)).map fun _ => ⟨tyBits ty e, 0⟩) false fmt)

def execTbcol (d a b : Num3) : State → Host.Outcome State Fault Refusal := run (tileBcol d a b)

def tileTrans (d a : Num3) : M Ctl := do
  let sl ← getMe
  let src := sl.tile a
  let sa := src.shape
  let ty := shType sa
  let res := mkShape ty (shCols sa) (shRows sa) (shVcols sa) (shVrows sa)
  let fmt := tfmtWord (tyCode sa) (tyCode sa) 15 15
  wholeTile (restartKey 2 3 6)
    (do
      checkSrc sa allTypes fmt
      agree (decide (shCols sa ≤ 32) && decide (shRows sa * tySize ty ≤ 64)) sa fmt
      checkDst d res [] fmt
      return res)
    (do
      beginResult d res
      let _ ← (List.range (shVcols sa)).mapM fun j =>
        commitRow d j ((List.range (shVrows sa)).map fun i => ⟨src.elem i j, 0⟩) false fmt
      return none)

def execTtrans (d a : Num3) : State → Host.Outcome State Fault Refusal := run (tileTrans d a)

/-- A row as an instruction writes it: bits [15:9] of the container of an E5M3 element are 0 (R151). -/
def containers (ty : Nat) (r : Row64) : Row64 :=
  if ty = 4 then rowOf 2 ((List.range 32).map fun j => tyBits 4 (elemAt r 2 j)) else r

/-- TMOV: shape word, bytes and side vector (R178, R326). What TSHAPE left in an E5M3 container beyond bit 8 is not copied: R151 has every
writer of an E5M3 element write zeros there (DESIGN CHOICE, log 92: R178 says 'bytes'). -/
def tileMov (d a : Num3) : M Ctl := do
  let sl ← getMe
  let sa := (sl.tile a).shape
  let fmt := tfmtWord (tyCode sa) (tyCode sa) 15 15
  tileRows (restartKey 2 3 7) d
    (do
      checkSrc sa allTypes fmt
      checkDst d sa [(a, sa)] fmt
      return sa)
    (fun res => modMe fun sl => sl.setTile d { (sl.tile d).reshape res with scales := (sl.tile a).scales })
    (fun r => do
      let t ← getMe
      setTile d ((t.tile d).setRow r (containers (shType (t.tile a).shape) ((t.tile a).row r)))
      return none)

def execTmov (d a : Num3) : State → Host.Outcome State Fault Refusal := run (tileMov d a)

/-! ## Comparisons (R179) -/

def eqE (ty a b : Nat) : Bool :=
  match fmtOf ty with
  | some f =>
    let x := f.decode a
    let y := f.decode b
    !x.isNan && !y.isNan && !x.lt y && !y.lt x
  | none => decide (intOf ty a = intOf ty b)

def ltE (ty a b : Nat) : Bool :=
  match fmtOf ty with
  | some f => (f.decode a).lt (f.decode b)
  | none => decide (intOf ty a < intOf ty b)

def maskElem (b : Bool) : FR := ⟨boolNat b, 0⟩

def tileCmp (fn : Nat) (f : Nat → Nat → Nat → Bool) (d a b : Num3) : M Ctl := do
  let sl ← getMe
  let sa := (sl.tile a).shape
  let sb := (sl.tile b).shape
  let ty := shType sa
  let res := withType 9 sa
  let fmt := tfmtWord 9 (tyCode sa) (tyCode sb) 15
  tileRows (restartKey 2 4 fn) d
    (do
      checkSrc sa allTypes fmt
      checkSrc sb allTypes fmt
      agree (sameTRC sb sa) sb fmt
      checkDst d res [(a, sa), (b, sb)] fmt
      return res)
    (beginResult d)
    (fun r => do
      let t ← getMe
      commitRow d r ((List.range (shVcols (t.tile d).shape)).map fun j => maskElem (f ty ((t.tile a).elem r j) ((t.tile b).elem r j))) false fmt)

def execTceq (d a b : Num3) : State → Host.Outcome State Fault Refusal := run (tileCmp 0 eqE d a b)
def execTclt (d a b : Num3) : State → Host.Outcome State Fault Refusal := run (tileCmp 1 ltE d a b)
def execTcle (d a b : Num3) : State → Host.Outcome State Fault Refusal :=
  run (tileCmp 2 (fun ty x y => ltE ty x y || eqE ty x y) d a b)
def execTcne (d a b : Num3) : State → Host.Outcome State Fault Refusal := run (tileCmp 3 (fun ty x y => !eqE ty x y) d a b)
def execTcltu (d a b : Num3) : State → Host.Outcome State Fault Refusal := run (tileCmp 5 (fun _ x y => decide (x < y)) d a b)
def execTcleu (d a b : Num3) : State → Host.Outcome State Fault Refusal := run (tileCmp 6 (fun _ x y => decide (x ≤ y)) d a b)

def execTisnan (d a : Num3) : State → Host.Outcome State Fault Refusal :=
  run (tileOne 4 4 [2, 3, 4, 5, 6, 7] false (withType 9) (fun ty _ x => maskElem (isNanBits ty x)) d a)

/-! ## Shape and element access (R180) -/

def fmtD (sl : Slot) (t : Num3) : W64 := tfmtWord (tyCode (sl.tile t).shape) 15 15 15
/-- The same for a tile that is a source (R169). -/
def fmtA (sl : Slot) (t : Num3) : W64 := tfmtWord 15 (tyCode (sl.tile t).shape) 15 15

/-- Every trap of a computation reports the types of tile operands in k.tfmt[15:0] (R169). -/
def atFmt {α : Type} (fmt : W64) (m : M α) : M α := fun s =>
  match m s with
  | .error (.trap t) s' => .error (.trap { t with tfmt := (t.tfmt >>> 16 <<< 16) ||| fmt }) s'
  | r => r

def tileShape (t : Num3) (a : Reg) : M Ctl := waiting [a] none do
  let v ← rd a
  if !shapeOk v then shapeTrap v (fmtD (← getMe) t)
  modMe fun sl => sl.setTile t ((sl.tile t).reshape v).unscaled

def execTshape (t : Num3) (a : Reg) : State → Host.Outcome State Fault Refusal := run (tileShape t a)

def execTshget (t : Num3) (a : Reg) : State → Host.Outcome State Fault Refusal :=
  run do
    let sl ← getMe
    atFmt (fmtA sl t) (waiting [] (some a) do wr a ((← getMe).tile t).shape)

/-- TZERO works through the valid rows of its argument (R167). -/
def tileZero (t : Num3) (a : Reg) : M Ctl := withPorts [a] none fun _ => do
  let v ← rd a
  tileRows (restartKey 2 5 2) t
    (do
      if !shapeOk v then shapeTrap v (fmtD (← getMe) t)
      return v)
    (beginResult t)
    (fun r => do commitRow t r [] false (fmtD (← getMe) t))

def execTzero (t : Num3) (a : Reg) : State → Host.Outcome State Fault Refusal := run (tileZero t a)

/-- A tile that is not live traps SHAPE with k.tval holding a (R180). -/
def needLive (t : Num3) (v : W64) : M Tile := do
  let sl ← getMe
  if (sl.tile t).shape = 0 then shapeTrap v (fmtD sl t)
  return sl.tile t

/-- The low bits of a value as an element of a type (R180). -/
def elemOf (ty v : Nat) : Nat := if ty = 4 then v % 512 else v % 2 ^ (8 * tySize ty)

/-- TFILL works through the valid rows (R167). -/
def tileFill (t : Num3) (a : Reg) : M Ctl := withPorts [a] none fun _ => do
  let v ← rd a
  let body : Nat → M (Option TrapInfo) := fun r => do
    let sl ← getMe
    let sh := (sl.tile t).shape
    commitRow t r ((List.range (shVcols sh)).map fun _ => ⟨elemOf (shType sh) v.toNat, 0⟩) false (fmtD sl t)
  tileRows (restartKey 2 5 3) t (do return (← needLive t v).shape) (fun _ => pure ()) body

def execTfill (t : Num3) (a : Reg) : State → Host.Outcome State Fault Refusal := run (tileFill t a)

def tileGete (t : Num3) (a : Reg) : M Ctl := do
  let sl ← getMe
  atFmt (fmtA sl t) (waiting [a] (some a) do
    let v ← rd a
    let tl ← needLive t v
    if fld v 0 16 ≥ shRows tl.shape || fld v 16 16 ≥ shCols tl.shape then shapeTrap v (fmtA sl t)
    wr a (w64 (tl.elem (fld v 0 16) (fld v 16 16))))

def execTgete (t : Num3) (a : Reg) : State → Host.Outcome State Fault Refusal := run (tileGete t a)

def tileSete (t : Num3) (a : Reg) : M Ctl := waiting [a] none do
  let v ← rd a
  let tl ← needLive t v
  let i := fld v 0 16
  let j := fld v 16 16
  if i ≥ shVrows tl.shape || j ≥ shVcols tl.shape then shapeTrap v (fmtD (← getMe) t)
  let z := tySize (shType tl.shape)
  let els := (List.range (64 / z)).map fun k => if k = j then elemOf (shType tl.shape) (fld v 32 32) else elemAt (tl.row i) z k
  setTile t (tl.setRow i (rowOf z els))

def execTsete (t : Num3) (a : Reg) : State → Host.Outcome State Fault Refusal := run (tileSete t a)

def tileMask (t : Num3) (a : Reg) (f : W64 → Nat → W64) : M Ctl := waiting [a] none do
  let v ← rd a
  let tl ← needLive t v
  setTile t (tl.reshape (f tl.shape v.toNat))

def execTmaskr (t : Num3) (a : Reg) : State → Host.Outcome State Fault Refusal :=
  run (tileMask t a fun sh n => withValid sh (min n (shRows sh)) (shVcols sh))
def execTmaskc (t : Num3) (a : Reg) : State → Host.Outcome State Fault Refusal :=
  run (tileMask t a fun sh n => withValid sh (shVrows sh) (min n (shCols sh)))

/-! ## Scalar-broadcast operations (R181) -/

/-- The operation on an element and the scalar: FP32 exact and rounded once, or a signed 64-bit integer, saturated. -/
def scalarE (ty : Nat) (rm : Rm) (v : W64) (fop : Rm → Fp → Fp → Fp × Nat) (iop : Int → Int → Int) (x : Nat) : FR :=
  match fmtOf ty with
  | some _ => deliverTy ty rm (fop rm (valueOf ty x) (Fmt.fp32.decode (fld v 0 32)))
  | none => satInt ty (iop (intOf ty x) v.toInt)

def tileScalar (fn : Nat) (fop : Rm → Fp → Fp → Fp × Nat) (iop : Int → Int → Int) (d a : Num3) (b : Reg) : M Ctl := withPorts [b] none fun _ => do
  let v ← rd b
  tileOne 6 fn arithTypes true id (fun ty rm x => scalarE ty rm v fop iop x) d a

def execTadds (d a : Num3) (b : Reg) : State → Host.Outcome State Fault Refusal :=
  run (tileScalar 0 Fp.add (· + ·) d a b)
def execTmuls (d a : Num3) (b : Reg) : State → Host.Outcome State Fault Refusal :=
  run (tileScalar 1 (fun _ => Fp.mul) (· * ·) d a b)
def execTmaxs (d a : Num3) (b : Reg) : State → Host.Outcome State Fault Refusal :=
  run (tileScalar 2 (fun _ => Fp.max) (fun x y => if x < y then y else x) d a b)
def execTsubs (d a : Num3) (b : Reg) : State → Host.Outcome State Fault Refusal :=
  run (tileScalar 3 (fun rm x y => x.add rm y.neg) (· - ·) d a b)

/-! ## Streaming through channels (R182 to R184) -/

/-- A channel serves one receiving instruction at a time (R182): another context's waits until it completes, which a trap makes it do (R91)
and a pre-emption does not. -/
def takeChannel (c : Num2) : M Unit := do
  let k ← getCore
  let n := (← getMe).uid
  if k.chanRx.any fun q => decide (q.1 = c.toNat) && decide (q.2 ≠ n) then block true
  modCore fun k => { k with chanRx := if k.chanRx.contains (c.toNat, n) then k.chanRx else k.chanRx ++ [(c.toNat, n)] }

def freeChannel (c : Num2) : M Unit := modify fun s => s.modMyCore fun k =>
  { k with chanRx := k.chanRx.filter fun q => !(q.1 == c.toNat && q.2 == s.me.uid) }

/-- The receiving loop: one item a turn; `fuel` bounds the items that one step takes. -/
def recvLoop (key : Nat) (d : Num3) (c : Num2) (fuel n : Nat) (budget : Option Nat) (copy : Bool)
    (upd : Tile → Row64 → Nat → List FR) (fmt : W64) : M Ctl := do
  match (← getCore).chans[c.toNat]'(c.isLt) with
  | [] => do
    setRestart key n
    block true
  | .fin _ :: rest => do
    modCore fun k => { k with chans := k.chans.set c.toNat rest c.isLt }
    if copy && n = 0 then setTile d (((← getMe).tile d).reshape (withValid ((← getMe).tile d).shape 0 (shVcols ((← getMe).tile d).shape)))
    freeChannel c
    return .done
  | .data _ row :: rest =>
    match fuel with
    | 0 => do
      setRestart key n
      throw (.wait .rows)
    | f + 1 => do
      if budget = some 0 || decide ((← getMe).stopReq ≠ .none) then
        setRestart key n
        throw (.wait .rows)
      modCore fun k => { k with chans := k.chans.set c.toNat rest c.isLt }
      let t := (← getMe).tile d
      let r := shRows t.shape
      let k := n % r
      let vr := if copy then min (n + 1) r else max (shVrows t.shape) (min (n + 1) r)
      let els := upd t row k
      setTile d (t.reshape (withValid t.shape vr (shVcols t.shape)))
      let trap ← commitRow d k els (!copy) fmt
      charge 1
      match trap with
      | some ti => do
        setRestart key (n + 1)
        freeChannel c
        throw (.trap ti)
      | none => recvLoop key d c f (n + 1) (budget.map (· - 1)) copy upd fmt

/-- A receiving form (R183): `more` is the check of a further source. -/
def streamRecv (fn : Nat) (types : List Nat) (more : W64 → W64 → M Unit) (fmt : W64) (copy : Bool)
    (upd : Tile → Row64 → Nat → List FR) (d : Num3) (c : Num2) : M Ctl := do
  let sd := ((← getMe).tile d).shape
  let key := restartKey 2 7 fn
  let start ← resumeRow key
  if start.isNone then
    checkSrc sd types fmt
    more sd fmt
  takeChannel c
  clearPend
  recvLoop key d c 4096 (start.getD 0) (← get).cur.rows copy upd fmt

/-- An item's row as elements by td's type, up to its valid columns; absent old elements read as zero. -/
def itemRow (f : Nat → Nat → Nat → FR) (t : Tile) (row : Row64) (k : Nat) : List FR :=
  let ty := shType t.shape
  (List.range (shVcols t.shape)).map fun j => f ty (t.elem k j) (tyBits ty (elemAt row (tySize ty) j))

def addAny (rm : Rm) (ty a b : Nat) : FR := if (fmtOf ty).isSome then addE ty rm a b else satOp (· + ·) ty a b

def tileSadd (d : Num3) (c : Num2) : M Ctl := do
  let sl ← getMe
  streamRecv 0 arithTypes (fun _ _ => pure ()) (fmtD sl d) false (itemRow (addAny (rmOf sl.fpcAt))) d c
def tileSmax (d : Num3) (c : Num2) : M Ctl := do
  let sl ← getMe
  streamRecv 1 arithTypes (fun _ _ => pure ()) (fmtD sl d) false (itemRow maxE) d c
def tileScpy (d : Num3) (c : Num2) : M Ctl := do
  let sl ← getMe
  streamRecv 2 allTypes (fun _ _ => pure ()) (fmtD sl d) true (itemRow fun _ _ x => ⟨x, 0⟩) d c
def tileSfma (d : Num3) (c : Num2) (b : Num3) : M Ctl := do
  let sl ← getMe
  let sb := (sl.tile b).shape
  let fmt := tfmtWord (tyCode (sl.tile d).shape) 15 15 (tyCode sb)
  streamRecv 3 floatTypes (fun sd f => do checkSrc sb floatTypes f; agree (sameTRC sb sd) sb f) fmt false
    (fun t row k =>
      let ty := shType t.shape
      (List.range (shVcols t.shape)).map fun j =>
        fmaE ty (rmOf sl.fpcAt) (tyBits ty (elemAt row (tySize ty) j)) ((if b = d then t else sl.tile b).elem k j) (t.elem k j)) d c

def execTsadd (d : Num3) (c : Num2) : State → Host.Outcome State Fault Refusal := run (tileSadd d c)
def execTsmax (d : Num3) (c : Num2) : State → Host.Outcome State Fault Refusal := run (tileSmax d c)
def execTscpy (d : Num3) (c : Num2) : State → Host.Outcome State Fault Refusal := run (tileScpy d c)
def execTsfma (d : Num3) (c : Num2) (b : Num3) : State → Host.Outcome State Fault Refusal := run (tileSfma d c b)

/-- Items of a TSEND placed into the downstream channel from the n-th on, while it has room, the budget lasts and no stop is asked of the
slot: (rows placed, done). The END holds the count of the data items (R182, R184). -/
def placeItems (core slot chan tile fuel n : Nat) (budget : Option Nat) (s : State) : State × Nat × Bool :=
  match fuel with
  | 0 => (s, n, false)
  | f + 1 =>
    let down := downstream core
    let q := vat [] (s.core down).chans chan
    let t := vat Tile.empty (s.slot core slot).tiles tile
    let put := fun (i : ChanItem) => s.modCore down fun k => { k with chans := k.chans.setIfInBounds chan (q ++ [i]) }
    if q.length ≥ 32 || budget = some 0 || decide ((s.slot core slot).stopReq ≠ .none) then (s, n, false)
    else if n ≥ shVrows t.shape then (put (.fin (shVrows t.shape)), n, true)
    else placeItems core slot chan tile f (n + 1) (budget.map (· - 1)) ((put (.data t.shape (t.row n))).chargeSlot core slot 1)

def sendKey : Nat := restartKey 2 7 4

/-- A channel no longer serves a context's TSEND. -/
def State.sent (s : State) (core chan uid : Nat) : State :=
  s.modCore core fun k => { k with chanTx := k.chanTx.filter fun q => !(q.1 == chan && q.2 == uid) }

def tileSend (d : Num3) (c : Num2) : M Ctl := do
  let sl ← getMe
  let s ← get
  let start ← resumeRow sendKey
  if start.isNone then checkSrc (sl.tile d).shape allTypes (fmtD sl d)
  let down := downstream s.cur.core
  if (s.core down).world ≠ s.myWorld then trapAt Cause.firewall (w64 down) 0 (fmtD sl d)
  if s.myCore.chanTx.any fun q => decide (q.1 = c.toNat) && decide (q.2 ≠ sl.uid) then block true
  clearPend
  let (t, r, fin) := placeItems s.cur.core s.cur.slot c.toNat d.toNat 34 (start.getD 0) s.cur.rows (← get)
  set (t.sent s.cur.core c.toNat sl.uid)
  if fin then return .done
  else
    setRestart sendKey r
    modCore fun k => { k with chanTx := k.chanTx ++ [(c.toNat, sl.uid)] }
    throw (.wait (.send c.toNat d.toNat s.cur.len))

def execTsend (d : Num3) (c : Num2) : State → Host.Outcome State Fault Refusal := run (tileSend d c)

/-- Whether a TSEND of a slot waits to place more and its channel has room: the channel, the tile and the instruction's length. -/
def State.canSend (s : State) (core : Nat) (sl : Slot) : Option (Nat × Nat × Nat) :=
  match sl.waiting with
  | .send chan tile len =>
    if sl.st = .wait && decide ((vat [] (s.core (downstream core)).chans chan).length < 32) then some (chan, tile, len) else none
  | _ => none

/-- CHANNEL_ITEM_PLACEMENT: a TSEND of the core that waits, the first whose channel has room, places what fits; with its END it completes
(R184). -/
def channelItemPlacement (core : Nat) : M Unit := do
  let s ← get
  match (s.core core).slots.findSome? fun q => (s.canSend core q.2).map fun x => (q.1, q.2, x) with
  | none => require false
  | some (n, sl, chan, tile, len) =>
    let (t, r, fin) := placeItems core n chan tile 34 (fld sl.restart 0 16) none s
    set (if fin then
        (t.modSlot core n fun x => { x.after (x.pc + w64 len) .wait .complete with restart := w64 (x.restart.toNat % 2 ^ 63) }).sent
          core chan sl.uid
      else t.modSlot core n fun x => { x with restart := restartWord sendKey r })

def execChannelItemPlacement (core : Nat) : State → Host.Outcome State Fault Refusal := event (channelItemPlacement core)

end Sys2Proof.Machine
end

