-- ==== Sys2Proof/Machine/Transfer.lean ====
section
/-! DEFINITION. Tile transfers: TLD, TST, TLDS, TSTS, TLDX, TSTX (R129 to R135). -/

namespace Sys2Proof.Machine

/-- The tile checks of R129: a shape word of 0, with no rows or columns, or of type MASK. -/
def checkTransferTile (sh : W64) : M Unit := do
  if sh = 0 || shRows sh = 0 || shCols sh = 0 || shType sh = 9 then trapAt Cause.shape sh

/-- The pairing of a tile's type with a layout's (R130). -/
def checkPairing (sh : W64) (l : Layout) : M Unit := do
  if shType sh ≠ l.elemTy then trapAt Cause.shape l.handle

/-- The window of a tile at an origin (R131): valid rows and columns. -/
def window (l : Layout) (sh : W64) (row0 col0 : Nat) : Nat × Nat :=
  if l.trans then (min (shRows sh) (l.cols - col0), min (shCols sh) (l.rows - row0))
  else (min (shRows sh) (l.rows - row0), min (shCols sh) (l.cols - col0))

/-- The operand types that a transfer's trap reports: destination and source (R169). -/
def loadFmt (sh : W64) (l : Layout) : W64 := tfmtWord (tyCode sh) l.type 15 15
def storeFmt (sh : W64) (l : Layout) : W64 := tfmtWord l.type (tyCode sh) 15 15

/-- The checks of CX8 alignment (R132). -/
def checkCx8 (l : Layout) (sh : W64) (col0 : Nat) : M Unit := do
  if l.cx8 && (shCols sh ≠ 32 || col0 % 32 ≠ 0) then trapAt Cause.shape l.handle

/-- One row loaded into a tile and committed (R133): its elements, its scale, its charge. -/
def commitLoad (t : Num3) (r : Nat) (els : List Nat) (scale : Option W32) (cs : List Cap) : M (Option TrapInfo) := do
  let tl := (← getMe).tile t
  let z := tySize (shType tl.shape)
  let t1 := tl.setRow r (rowOf z els)
  setTile t { t1 with scales := match scale with
    | some s => t1.scales.setIfInBounds r s
    | none => t1.scales }
  charge (pipsOf (els.length * z))
  chargeCaps cs
  return none

/-- The scale of a tensor row, where the layout has scales (R132). -/
def scaleOf (w : Who) (l : Layout) (row : Nat) (m : Mod) : M (Option W32 × List Cap) := do
  if l.rscl then
    let (s, cs) ← readScale w l (← getMe).scl row m
    return (some s, cs)
  else return (none, [])

/-! ## TLD and TST (R130 to R132)

A stop before the rows leaves k.restart as it stands, so that a resumption does not begin again (R133). The release of a store comes before
its checks, which are made once (R212). -/

/-- The elements of tile row r of a window (R131, R132). -/
def windowRow (w : Who) (l : Layout) (row0 col0 r vc : Nat) (m : Mod) : M (List Nat × List Cap) := do
  if l.cx8 then
    let ((els, _), cs) ← readCx8 w l ((row0 + r) * (l.cols / 32) + col0 / 32) m
    return (els, cs)
  else if l.trans then readColumn w l row0 (col0 + r) vc m
  else readElems w l (row0 + r) col0 vc m

/-- Row r of TLD. -/
def tldRow (t : Num3) (w : Who) (l : Layout) (row0 col0 vc : Nat) (m : Mod) (lcs : List Cap) (fmt : W64) (r : Nat) :
    M (Option TrapInfo) := atRow fmt r do
  let (els, cs) ← windowRow w l row0 col0 r vc m
  let (s, ss) ← scaleOf w l (row0 + r) m
  commitLoad t r els s (lcs ++ cs ++ ss)

def tileLoad (t : Num3) (a b : Reg) (m : Mod) : M Ctl := withPorts [a, b] none fun _ => do
  let h ← rd a
  let c ← rd b
  let w ← whoMe
  let sh := ((← getMe).tile t).shape
  let key := restartKey 1 8 0
  let start ← resumeRow key
  let (l, lcs) ← atRow (tfmtWord (tyCode sh) 15 15 15) 0 (readLayout h m)
  acquireOf m.order m.scope
  let row0 := fld c 0 32
  let col0 := fld c 32 32
  let fmt := loadFmt sh l
  let (vr, vc) := window l sh row0 col0
  if start.isNone then
    atRow fmt 0 do
      checkTransferTile sh
      checkPairing sh l
      if l.rscl && (l.trans || (← getMe).scl = 0) then trapAt Cause.shape h
      checkCx8 l sh col0
    modMe fun sl => sl.setTile t ((sl.tile t).reshape (withValid sh vr vc)).unscaled
  forRows key (start.getD 0) (if vc = 0 then 0 else vr) (tldRow t w l row0 col0 vc m lcs fmt)
  chargeCaps lcs
  return .done

def execTld (t : Num3) (a b : Reg) (m : Mod) : State → Host.Outcome State Fault Refusal := run (tileLoad t a b m)

/-- The spans of memory that row r of a window covers, with their bytes. -/
def storeSpans (l : Layout) (row0 col0 r : Nat) (els : List Nat) : List (W64 × List Byte) :=
  let z := tySize l.type
  if l.trans then els.mapIdx fun k e => (l.addr (row0 + k) (col0 + r), natToLe z e)
  else [(l.addr (row0 + r) col0, bytesOf z els)]

/-- The CX8 block of tile row r, and where it goes: after the blocks of the rows before it in its group (R132). -/
def cx8Span (w : Who) (l : Layout) (tl : Tile) (row0 r : Nat) (m : Mod) : M (List (W64 × List Byte) × List Cap) := do
  let (g, cs) ← groupStart w l ((row0 + r) / 16) m
  let before := ((List.range r).filter fun i => decide ((row0 + i) / 16 = (row0 + r) / 16)).map fun i => (cxEncode (tl.rowElems i 32)).length
  return ([(g + w64 before.sum, cxEncode (tl.rowElems r 32))], cs)

/-- Row r of TST. -/
def tstRow (tl : Tile) (w : Who) (l : Layout) (row0 col0 cols : Nat) (m : Mod) (lcs : List Cap) (fmt : W64) (r : Nat) :
    M (Option TrapInfo) := atRow fmt r do
  let (spans, cs) ← if l.cx8 then cx8Span w l tl row0 r m else pure (storeSpans l row0 col0 r (tl.rowElems r cols), [])
  let ws ← writeRow w spans (if l.cx8 then 1 else tySize l.type)
  charge (pipsOf ((spans.map fun q => q.2.length).sum))
  chargeCaps (lcs ++ cs ++ ws)
  return none

def tileStore (t : Num3) (a b : Reg) (m : Mod) : M Ctl := withPorts [a, b] none fun _ => do
  let h ← rd a
  let c ← rd b
  let w ← whoMe
  releaseAt m.order m.scope
  let tl := (← getMe).tile t
  let sh := tl.shape
  let key := restartKey 1 8 1
  let start ← resumeRow key
  let (l, lcs) ← atRow (tfmtWord 15 (tyCode sh) 15 15) 0 (readLayout h m)
  let row0 := fld c 0 32
  let col0 := fld c 32 32
  let fmt := storeFmt sh l
  if start.isNone then
    atRow fmt 0 do
      checkTransferTile sh
      checkPairing sh l
      checkCx8 l sh col0
      if l.cx8 && (l.cols ≠ 32 || row0 % 16 ≠ 0) then trapAt Cause.shape h
  let (vr, vc) := window l sh row0 col0
  let rows := min vr (shVrows sh)
  let cols := min vc (shVcols sh)
  forRows key (start.getD 0) (if vc = 0 || (cols = 0 && !l.cx8) then 0 else rows)
    (tstRow tl w l row0 col0 cols m lcs fmt)
  chargeCaps lcs
  return .done

def execTst (t : Num3) (a b : Reg) (m : Mod) : State → Host.Outcome State Fault Refusal := run (tileStore t a b m)

/-! ## TLDS and TSTS (R134) -/

/-- The checks of the address and pitch: a window 0b000 to 0b010, then alignment to the element size. -/
def checkLocal (ea pitch : W64) (z : Nat) : M Unit := do
  if fld ea 61 3 ≠ 6 || fld ea 58 3 > 2 then trapXlate 5 ea
  if ea.toNat % z ≠ 0 || pitch.toNat % z ≠ 0 then trapAt Cause.align ea

/-- The size of a local window (R109). -/
def windowSize (n : Nat) : Nat :=
  match n with
  | 0 => 2 ^ 18
  | 1 => 2 ^ 20
  | _ => 2 ^ 26

/-- A row that would run past the end of its window (R134). -/
def checkWindowEnd (win : Nat) (ea : W64) (bytes : Nat) : M Unit := do
  if fld ea 58 6 ≠ 48 + win || fld ea 0 58 + bytes > windowSize win then trapXlate 5 ea

/-- Row r of TLDS; the first row that it reads acquires. -/
def tldsRow (t : Num3) (w : Who) (sh ea pitch : W64) (m : Mod) (first r : Nat) : M (Option TrapInfo) :=
  atRow (tfmtWord (tyCode sh) 15 15 15) r do
    let z := tySize (shType sh)
    let ra := ea + w64 r * pitch
    checkWindowEnd (fld ea 58 3) ra (shCols sh * z)
    let (bs, cs) ← readSpan w ra (shCols sh * z) z m
    if r = first then acquireOf m.order m.scope
    commitLoad t r ((elemsOf z (shCols sh) bs).map (tyBits (shType sh))) none cs

def tileLoadLocal (t : Num3) (a b : Reg) (m : Mod) : M Ctl := withPorts [a, b] none fun _ => do
  let ea ← rd a
  let pitch ← rd b
  let w ← whoMe
  let sh := ((← getMe).tile t).shape
  let z := tySize (shType sh)
  let fmt := tfmtWord (tyCode sh) 15 15 15
  let key := restartKey 1 9 0
  let start ← resumeRow key
  if start.isNone then
    atRow fmt 0 do
      checkTransferTile sh
      checkLocal ea pitch z
    modMe fun sl => sl.setTile t ((sl.tile t).reshape (withValid sh (shRows sh) (shCols sh))).unscaled
  forRows key (start.getD 0) (shRows sh) (tldsRow t w sh ea pitch m (start.getD 0))
  return .done

def execTlds (t : Num3) (a b : Reg) (m : Mod) : State → Host.Outcome State Fault Refusal := run (tileLoadLocal t a b m)

/-- Row r of TSTS. -/
def tstsRow (tl : Tile) (w : Who) (ea pitch : W64) (r : Nat) : M (Option TrapInfo) :=
  atRow (tfmtWord 15 (tyCode tl.shape) 15 15) r do
    let z := tySize (shType tl.shape)
    let n := shVcols tl.shape * z
    let ra := ea + w64 r * pitch
    checkWindowEnd (fld ea 58 3) ra n
    let cs ← writeRow w [(ra, bytesOf z (tl.rowElems r (shVcols tl.shape)))] z
    charge (pipsOf n)
    chargeCaps cs
    return none

def tileStoreLocal (t : Num3) (a b : Reg) (m : Mod) : M Ctl := withPorts [a, b] none fun _ => do
  let ea ← rd a
  let pitch ← rd b
  let w ← whoMe
  releaseAt m.order m.scope
  let tl := (← getMe).tile t
  let sh := tl.shape
  let z := tySize (shType sh)
  let fmt := tfmtWord 15 (tyCode sh) 15 15
  let key := restartKey 1 9 1
  let start ← resumeRow key
  if start.isNone then
    atRow fmt 0 do
      checkTransferTile sh
      checkLocal ea pitch z
  forRows key (start.getD 0) (if shVcols sh = 0 then 0 else shVrows sh) (tstsRow tl w ea pitch)
  return .done

def execTsts (t : Num3) (a b : Reg) (m : Mod) : State → Host.Outcome State Fault Refusal := run (tileStoreLocal t a b m)

/-! ## TLDX and TSTX (R135) -/

/-- The valid elements of an index tile, row by row. -/
def indexList (x : Tile) : List Int :=
  (List.range (shVrows x.shape)).flatMap fun i => (List.range (shVcols x.shape)).map fun j => intOf 8 (x.elem i j)

/-- The checks of the index tile and of the layout (R135). -/
def checkIndexed (sh xsh : W64) (n : Nat) (l : Layout) (load : Bool) (scl : W64) : M Unit := do
  checkTransferTile sh
  checkPairing sh l
  if xsh = 0 || shType xsh ≠ 8 then trapAt Cause.shape xsh
  if l.trans || (l.cx8 && (!load || shCols sh ≠ 32)) || (load && l.rscl && scl = 0) then trapAt Cause.shape l.handle
  if n > shRows sh then trapAt Cause.shape xsh

/-- The i-th index of the list as a tensor row; out of range it traps SHAPE at row i, with the index tile's shape word in
k.tval (log 21). -/
def indexRow (l : Layout) (xsh : W64) (ks : List Int) (i : Nat) : M Nat := do
  let k := ks.getD i 0
  if k < 0 || k ≥ l.rows then trapAt Cause.shape xsh
  return k.toNat

/-- Row r of TLDX. -/
def tldxRow (t : Num3) (w : Who) (l : Layout) (xsh : W64) (ks : List Int) (vc : Nat) (m : Mod) (lcs : List Cap) (fmt : W64) (r : Nat) :
    M (Option TrapInfo) := atRow fmt r do
  let k ← indexRow l xsh ks r
  let (els, cs) ← if l.cx8 then do
      let ((els, _), cs) ← readCx8 w l (k * (l.cols / 32)) m
      pure (els, cs)
    else readElems w l k 0 vc m
  let (s, ss) ← scaleOf w l k m
  commitLoad t r els s (lcs ++ cs ++ ss)

def tileLoadIndexed (t x : Num3) (a : Reg) (m : Mod) : M Ctl := withPorts [a] none fun _ => do
  let h ← rd a
  let w ← whoMe
  let sl ← getMe
  let sh := (sl.tile t).shape
  let xt := sl.tile x
  let ks := indexList xt
  let key := restartKey 1 0xA 0
  let start ← resumeRow key
  let (l, lcs) ← atRow (tfmtWord (tyCode sh) 15 (tyCode xt.shape) 15) 0 (readLayout h m)
  acquireOf m.order m.scope
  let fmt := tfmtWord (tyCode sh) l.type (tyCode xt.shape) 15
  let vc := min (shCols sh) l.cols
  if start.isNone then
    atRow fmt 0 (checkIndexed sh xt.shape ks.length l true sl.scl)
    modMe fun sl => sl.setTile t ((sl.tile t).reshape (withValid sh ks.length vc)).unscaled
  let rows := if start.isNone then ks.length else shVrows sh
  forRows key (start.getD 0) rows (tldxRow t w l xt.shape ks vc m lcs fmt)
  chargeCaps lcs
  return .done

def execTldx (t x : Num3) (a : Reg) (m : Mod) : State → Host.Outcome State Fault Refusal := run (tileLoadIndexed t x a m)

/-- Row r of TSTX. -/
def tstxRow (tl : Tile) (w : Who) (l : Layout) (xsh : W64) (ks : List Int) (cols : Nat) (lcs : List Cap) (fmt : W64) (r : Nat) :
    M (Option TrapInfo) := atRow fmt r do
  let k ← indexRow l xsh ks r
  let cs ← writeRow w [(l.addr k 0, bytesOf (tySize l.type) (tl.rowElems r cols))] (tySize l.type)
  charge (pipsOf (cols * tySize l.type))
  chargeCaps (lcs ++ cs)
  return none

def tileStoreIndexed (t x : Num3) (a : Reg) (m : Mod) : M Ctl := withPorts [a] none fun _ => do
  let h ← rd a
  let w ← whoMe
  releaseAt m.order m.scope
  let sl ← getMe
  let tl := sl.tile t
  let sh := tl.shape
  let xt := sl.tile x
  let ks := indexList xt
  let key := restartKey 1 0xA 1
  let start ← resumeRow key
  let (l, lcs) ← atRow (tfmtWord 15 (tyCode sh) (tyCode xt.shape) 15) 0 (readLayout h m)
  let fmt := tfmtWord l.type (tyCode sh) (tyCode xt.shape) 15
  if start.isNone then atRow fmt 0 (checkIndexed sh xt.shape ks.length l false sl.scl)
  let cols := min (min (shCols sh) l.cols) (shVcols sh)
  forRows key (start.getD 0) (min ks.length (shVrows sh)) (tstxRow tl w l xt.shape ks cols lcs fmt)
  chargeCaps lcs
  return .done

def execTstx (t x : Num3) (a : Reg) (m : Mod) : State → Host.Outcome State Fault Refusal := run (tileStoreIndexed t x a m)

end Sys2Proof.Machine
end

