-- ==== Sys2Proof/Machine/Windows.lean ====
section
/-! DEFINITION. The host's windows (R27, R36, R37, R118): command-block registers, the packet and wake windows, and the
resource-control window. -/

namespace Sys2Proof.Machine

/-- A malformed or misshapen write to a window: discarded and counted in rejected (R36, R37). -/
def State.rejectTlp (s : State) (fn : Nat) : State := s.modFn fn fun f => { f with rejected := f.rejected + 1 }

/-- A byte of BAR0 of a function as the host reads it: the command block as last written, the status word, and 0 elsewhere (R27). -/
def Func.bar0 (f : Func) (off : Nat) : Byte :=
  if off < 64 then (wordsLe f.block.toList)[off]?.getD 0
  else if off < 72 then (natToLe 8 f.status.toNat)[off - 64]?.getD 0
  else 0

/-- REGISTER_WRITE: a write to BAR0 that covers neither c0 nor a window. The command block keeps it; the status word and every other
offset ignore it (R27). -/
def registerWrite (fn : Nat) (t : Tlp) : M Unit := hostTlp fn t.key do
  let s ← get
  let stop := t.off + t.bytes.length
  require (s.booted && decide (fn ≤ 14) && decide (stop ≤ 65536) && !(decide (t.off = 0) && decide (8 ≤ stop)) &&
    (decide (stop ≤ 0x1000) || decide (0x3000 ≤ t.off)))
  if t.off < 64 then modify (·.modFn fn fun f => { f with block := blockWrite f.block t.off t.bytes })

def execRegisterWrite (fn : Nat) (t : Tlp) : State → Host.Outcome State Fault Refusal := event (registerWrite fn t)

/-- PACKET_WINDOW_WRITE (R36). -/
def packetWindowWrite (fn : Nat) (t : Tlp) : M Unit := hostTlp fn t.key do
  let s ← get
  require (s.booted && decide (fn ≤ 14) && decide (t.off < 4096))
  let w := s.fnWorld fn
  if t.bytes.length ≠ 64 || t.off % 64 ≠ 0 || w = 0 then set (s.rejectTlp fn)
  else
    match s.offer w t.bytes with
    | .accepted u => set u
    | .malformed => set (s.rejectTlp fn)
    | .full => set (s.modFn fn fun f => { f with dropped := f.dropped + 1 })

def execPacketWindowWrite (fn : Nat) (t : Tlp) : State → Host.Outcome State Fault Refusal := event (packetWindowWrite fn t)

/-- WAKE_WINDOW_WRITE (R37): up to count waiters on a key are woken, oldest first; 0xFFFF_FFFF wakes all. -/
def wakeWindowWrite (fn : Nat) (t : Tlp) : M Unit := hostTlp fn t.key do
  let s ← get
  require (s.booted && decide (fn ≤ 14) && decide (t.off < 4096))
  let w := s.fnWorld fn
  let va := leToNat (t.bytes.take 8)
  let count := leToNat ((t.bytes.drop 8).take 4)
  if t.bytes.length ≠ 16 || t.off % 16 ≠ 0 || va % 8 ≠ 0 || leToNat (t.bytes.drop 12) ≠ 0 || w = 0 then set (s.rejectTlp fn)
  else set (s.wakeOn w va (if count = 0xFFFFFFFF then s.waitTable.length else count))

def execWakeWindowWrite (fn : Nat) (t : Tlp) : State → Host.Outcome State Fault Refusal := event (wakeWindowWrite fn t)

/-- What a host read of the resource-control window returns: way masks, occupancies, 0 at other offsets; none is an Unsupported Request
(R46, R118). -/
def State.resourceRead (s : State) (off size : Nat) : Option W64 :=
  if size ≠ 8 || off % 8 ≠ 0 || off ≥ 2 ^ 18 || !s.fwAllows 1 1 .read then none
  else if off < 0x2000 then some ((Sparse.get 0xFFFF s.wayMasks (off / 8)).setWidth 64)
  else if 0x10000 ≤ off && off < 0x30000 then
    let i := (off - 0x10000) / 8
    some (w64 (s.occupancy (i / 1024) (i / 16 % 64) (i % 16)))
  else some 0

/-- WAY_MASK_WRITE: a write to the resource-control window, BAR2 of physical function 0. Any access but an 8-byte word receives an
Unsupported Request; the occupancy words and all other offsets ignore writes (R118). -/
def wayMaskWrite (off size : Nat) (v : W64) : M Unit := do
  let s ← get
  require (s.booted && decide (off < 2 ^ 18))
  let bad := decide (size ≠ 8) || decide (off % 8 ≠ 0) || !s.fwAllows 1 1 .write
  let s1 := s.modFn 0 fun f => { f with lastUR := bad }
  if bad || off ≥ 0x2000 then set s1
  else
    let mask := v.setWidth 16
    set { s1 with wayMasks := Sparse.set 0xFFFF s1.wayMasks (off / 8) mask }

def execWayMaskWrite (off size : Nat) (v : W64) : State → Host.Outcome State Fault Refusal := event (wayMaskWrite off size v)

end Sys2Proof.Machine
end

