-- ==== Sys2Proof/Machine/Dispatch.lean ====
section
/-! DEFINITION. The dispatch: one arm per constructor of `Instr`, each one call of its meaning. -/

namespace Sys2Proof.Machine

def exec (i : Instr) (s : State) : Host.Outcome State Fault Refusal :=
  match i with
  | .add d a x => Sys2Proof.Machine.execAdd d a x s
  | .sub d a x => Sys2Proof.Machine.execSub d a x s
  | .and d a x => Sys2Proof.Machine.execAnd d a x s
  | .or d a x => Sys2Proof.Machine.execOr d a x s
  | .xor d a x => Sys2Proof.Machine.execXor d a x s
  | .sll d a x => Sys2Proof.Machine.execSll d a x s
  | .srl d a x => Sys2Proof.Machine.execSrl d a x s
  | .sra d a x => Sys2Proof.Machine.execSra d a x s
  | .mul d a x => Sys2Proof.Machine.execMul d a x s
  | .mulh d a x => Sys2Proof.Machine.execMulh d a x s
  | .mulhu d a x => Sys2Proof.Machine.execMulhu d a x s
  | .div d a x => Sys2Proof.Machine.execDiv d a x s
  | .divu d a x => Sys2Proof.Machine.execDivu d a x s
  | .rem d a x => Sys2Proof.Machine.execRem d a x s
  | .min d a x => Sys2Proof.Machine.execMin d a x s
  | .max d a x => Sys2Proof.Machine.execMax d a x s
  | .mov d a => Sys2Proof.Machine.execMov d a s
  | .neg d a => Sys2Proof.Machine.execNeg d a s
  | .not d a => Sys2Proof.Machine.execNot d a s
  | .clz d a => Sys2Proof.Machine.execClz d a s
  | .ctz d a => Sys2Proof.Machine.execCtz d a s
  | .popc d a => Sys2Proof.Machine.execPopc d a s
  | .sextb d a => Sys2Proof.Machine.execSextb d a s
  | .sexth d a => Sys2Proof.Machine.execSexth d a s
  | .sextw d a => Sys2Proof.Machine.execSextw d a s
  | .zextw d a => Sys2Proof.Machine.execZextw d a s
  | .minu d a => Sys2Proof.Machine.execMinu d a s
  | .maxu d a => Sys2Proof.Machine.execMaxu d a s
  | .cmpeq p a x => Sys2Proof.Machine.execCmpeq p a x s
  | .cmplt p a x => Sys2Proof.Machine.execCmplt p a x s
  | .cmpltu p a x => Sys2Proof.Machine.execCmpltu p a x s
  | .selp d a => Sys2Proof.Machine.execSelp d a s
  | .addi d imm => Sys2Proof.Machine.execAddi d imm s
  | .li d imm => Sys2Proof.Machine.execLi d imm s
  | .lih d imm => Sys2Proof.Machine.execLih d imm s
  | .slli d n => Sys2Proof.Machine.execSlli d n s
  | .srli d n => Sys2Proof.Machine.execSrli d n s
  | .srai d n => Sys2Proof.Machine.execSrai d n s
  | .rori d n => Sys2Proof.Machine.execRori d n s
  | .cmpi p a c imm => Sys2Proof.Machine.execCmpi p a c imm s
  | .b off => Sys2Proof.Machine.execB off s
  | .bp p sense off => Sys2Proof.Machine.execBp p sense off s
  | .jr a => Sys2Proof.Machine.execJr a s
  | .jalr d a => Sys2Proof.Machine.execJalr d a s
  | .ret => Sys2Proof.Machine.execRet s
  | .nop => Sys2Proof.Machine.execNop s
  | .stop => Sys2Proof.Machine.execStop s
  | .pand d a => Sys2Proof.Machine.execPand d a s
  | .por d a => Sys2Proof.Machine.execPor d a s
  | .pxor d a => Sys2Proof.Machine.execPxor d a s
  | .pnot d a => Sys2Proof.Machine.execPnot d a s
  | .ptos d => Sys2Proof.Machine.execPtos d s
  | .call off => Sys2Proof.Machine.execCall off s
  | .ldd d a off m => Sys2Proof.Machine.execLdd d a off m s
  | .ldw d a off m => Sys2Proof.Machine.execLdw d a off m s
  | .std d a off m => Sys2Proof.Machine.execStd d a off m s
  | .stw d a off m => Sys2Proof.Machine.execStw d a off m s
  | .ldb d a off m => Sys2Proof.Machine.execLdb d a off m s
  | .ldbu d a off m => Sys2Proof.Machine.execLdbu d a off m s
  | .ldh d a off m => Sys2Proof.Machine.execLdh d a off m s
  | .ldhu d a off m => Sys2Proof.Machine.execLdhu d a off m s
  | .ldwu d a off m => Sys2Proof.Machine.execLdwu d a off m s
  | .stb d a off m => Sys2Proof.Machine.execStb d a off m s
  | .sth d a off m => Sys2Proof.Machine.execSth d a off m s
  | .ldf d a m => Sys2Proof.Machine.execLdf d a m s
  | .ldfk d a m => Sys2Proof.Machine.execLdfk d a m s
  | .ste d a m => Sys2Proof.Machine.execSte d a m s
  | .stf d a m => Sys2Proof.Machine.execStf d a m s
  | .feclr a => Sys2Proof.Machine.execFeclr a s
  | .feq p a => Sys2Proof.Machine.execFeq p a s
  | .invl1 => Sys2Proof.Machine.execInvl1 s
  | .pref a => Sys2Proof.Machine.execPref a s
  | .prefl a => Sys2Proof.Machine.execPrefl a s
  | .tld t a b m => Sys2Proof.Machine.execTld t a b m s
  | .tst t a b m => Sys2Proof.Machine.execTst t a b m s
  | .tlds t a b m => Sys2Proof.Machine.execTlds t a b m s
  | .tsts t a b m => Sys2Proof.Machine.execTsts t a b m s
  | .tldx t x a m => Sys2Proof.Machine.execTldx t x a m s
  | .tstx t x a m => Sys2Proof.Machine.execTstx t x a m s
  | .cpy d a => Sys2Proof.Machine.execCpy d a s
  | .cpy2d d a => Sys2Proof.Machine.execCpy2d d a s
  | .cpyl d a => Sys2Proof.Machine.execCpyl d a s
  | .drain path => Sys2Proof.Machine.execDrain path s
  | .waitmsg d a => Sys2Proof.Machine.execWaitmsg d a s
  | .recvmsg d a m => Sys2Proof.Machine.execRecvmsg d a m s
  | .sendmsg d a m => Sys2Proof.Machine.execSendmsg d a m s
  | .tadd d a b => Sys2Proof.Machine.execTadd d a b s
  | .tsub d a b => Sys2Proof.Machine.execTsub d a b s
  | .tmul d a b => Sys2Proof.Machine.execTmul d a b s
  | .tmax d a b => Sys2Proof.Machine.execTmax d a b s
  | .tmin d a b => Sys2Proof.Machine.execTmin d a b s
  | .tfma d a b => Sys2Proof.Machine.execTfma d a b s
  | .tsel d a b => Sys2Proof.Machine.execTsel d a b s
  | .tcpym d a b => Sys2Proof.Machine.execTcpym d a b s
  | .tiadd d a b => Sys2Proof.Machine.execTiadd d a b s
  | .tisub d a b => Sys2Proof.Machine.execTisub d a b s
  | .timul d a b => Sys2Proof.Machine.execTimul d a b s
  | .tand d a b => Sys2Proof.Machine.execTand d a b s
  | .tor d a b => Sys2Proof.Machine.execTor d a b s
  | .txor d a b => Sys2Proof.Machine.execTxor d a b s
  | .tshl d a b => Sys2Proof.Machine.execTshl d a b s
  | .tshr d a b => Sys2Proof.Machine.execTshr d a b s
  | .texp d a => Sys2Proof.Machine.execTexp d a s
  | .texp2 d a => Sys2Proof.Machine.execTexp2 d a s
  | .tlog2 d a => Sys2Proof.Machine.execTlog2 d a s
  | .trcp d a => Sys2Proof.Machine.execTrcp d a s
  | .trsq d a => Sys2Proof.Machine.execTrsq d a s
  | .tabs d a => Sys2Proof.Machine.execTabs d a s
  | .tneg d a => Sys2Proof.Machine.execTneg d a s
  | .tcvt d a ty => Sys2Proof.Machine.execTcvt d a ty s
  | .trsum d a => Sys2Proof.Machine.execTrsum d a s
  | .trmax d a => Sys2Proof.Machine.execTrmax d a s
  | .tcsum d a => Sys2Proof.Machine.execTcsum d a s
  | .tcmax d a => Sys2Proof.Machine.execTcmax d a s
  | .tbrow d a b => Sys2Proof.Machine.execTbrow d a b s
  | .tbcol d a b => Sys2Proof.Machine.execTbcol d a b s
  | .ttrans d a => Sys2Proof.Machine.execTtrans d a s
  | .tmov d a => Sys2Proof.Machine.execTmov d a s
  | .tceq d a b => Sys2Proof.Machine.execTceq d a b s
  | .tclt d a b => Sys2Proof.Machine.execTclt d a b s
  | .tcle d a b => Sys2Proof.Machine.execTcle d a b s
  | .tcne d a b => Sys2Proof.Machine.execTcne d a b s
  | .tisnan d a => Sys2Proof.Machine.execTisnan d a s
  | .tcltu d a b => Sys2Proof.Machine.execTcltu d a b s
  | .tcleu d a b => Sys2Proof.Machine.execTcleu d a b s
  | .tshape t a => Sys2Proof.Machine.execTshape t a s
  | .tshget t a => Sys2Proof.Machine.execTshget t a s
  | .tzero t a => Sys2Proof.Machine.execTzero t a s
  | .tfill t a => Sys2Proof.Machine.execTfill t a s
  | .tgete t a => Sys2Proof.Machine.execTgete t a s
  | .tsete t a => Sys2Proof.Machine.execTsete t a s
  | .tmaskr t a => Sys2Proof.Machine.execTmaskr t a s
  | .tmaskc t a => Sys2Proof.Machine.execTmaskc t a s
  | .tadds d a b => Sys2Proof.Machine.execTadds d a b s
  | .tmuls d a b => Sys2Proof.Machine.execTmuls d a b s
  | .tmaxs d a b => Sys2Proof.Machine.execTmaxs d a b s
  | .tsubs d a b => Sys2Proof.Machine.execTsubs d a b s
  | .tsadd d c => Sys2Proof.Machine.execTsadd d c s
  | .tsmax d c => Sys2Proof.Machine.execTsmax d c s
  | .tscpy d c => Sys2Proof.Machine.execTscpy d c s
  | .tsfma d c b => Sys2Proof.Machine.execTsfma d c b s
  | .tsend d c => Sys2Proof.Machine.execTsend d c s
  | .mma a t w => Sys2Proof.Machine.execMma a t w s
  | .mmaz a t w => Sys2Proof.Machine.execMmaz a t w s
  | .mmas a t w => Sys2Proof.Machine.execMmas a t w s
  | .mmaa a t w sel => Sys2Proof.Machine.execMmaa a t w sel s
  | .mmax a t w sel => Sys2Proof.Machine.execMmax a t w sel s
  | .ldstat w a b m => Sys2Proof.Machine.execLdstat w a b m s
  | .ldproj a b m => Sys2Proof.Machine.execLdproj a b m s
  | .ldscl w a b m => Sys2Proof.Machine.execLdscl w a b m s
  | .accrd a t rb => Sys2Proof.Machine.execAccrd a t rb s
  | .accwr a t rb => Sys2Proof.Machine.execAccwr a t rb s
  | .accz a => Sys2Proof.Machine.execAccz a s
  | .accclm a ty => Sys2Proof.Machine.execAccclm a ty s
  | .accrel a => Sys2Proof.Machine.execAccrel a s
  | .swap w => Sys2Proof.Machine.execSwap w s
  | .plclm w => Sys2Proof.Machine.execPlclm w s
  | .plrel w => Sys2Proof.Machine.execPlrel w s
  | .plz w => Sys2Proof.Machine.execPlz w s
  | .epexp d a sel => Sys2Proof.Machine.execEpexp d a sel s
  | .epabs d a sel => Sys2Proof.Machine.execEpabs d a sel s
  | .aadd d a m => Sys2Proof.Machine.execAadd d a m s
  | .aand d a m => Sys2Proof.Machine.execAand d a m s
  | .aor d a m => Sys2Proof.Machine.execAor d a m s
  | .axor d a m => Sys2Proof.Machine.execAxor d a m s
  | .amin d a m => Sys2Proof.Machine.execAmin d a m s
  | .amax d a m => Sys2Proof.Machine.execAmax d a m s
  | .aminu d a m => Sys2Proof.Machine.execAminu d a m s
  | .amaxu d a m => Sys2Proof.Machine.execAmaxu d a m s
  | .aswap d a m => Sys2Proof.Machine.execAswap d a m s
  | .acas d a b m => Sys2Proof.Machine.execAcas d a b m s
  | .afadd d a m => Sys2Proof.Machine.execAfadd d a m s
  | .rsv d a m => Sys2Proof.Machine.execRsv d a m s
  | .rls d a m => Sys2Proof.Machine.execRls d a m s
  | .rlsn a m => Sys2Proof.Machine.execRlsn a m s
  | .waitrs d a => Sys2Proof.Machine.execWaitrs d a s
  | .rsvw d a m => Sys2Proof.Machine.execRsvw d a m s
  | .fence m => Sys2Proof.Machine.execFence m s
  | .bararr d a => Sys2Proof.Machine.execBararr d a s
  | .barwait d a => Sys2Proof.Machine.execBarwait d a s
  | .barsync d a => Sys2Proof.Machine.execBarsync d a s
  | .barexp d a => Sys2Proof.Machine.execBarexp d a s
  | .barinit d a => Sys2Proof.Machine.execBarinit d a s
  | .barqry d a => Sys2Proof.Machine.execBarqry d a s
  | .waitva d a => Sys2Proof.Machine.execWaitva d a s
  | .wake d a m => Sys2Proof.Machine.execWake d a m s
  | .wakeall d a m => Sys2Proof.Machine.execWakeall d a m s
  | .spawn a => Sys2Proof.Machine.execSpawn a s
  | .sync a => Sys2Proof.Machine.execSync a s
  | .yield => Sys2Proof.Machine.execYield s
  | .texit => Sys2Proof.Machine.execTexit s
  | .pktget a => Sys2Proof.Machine.execPktget a s
  | .append d a op => Sys2Proof.Machine.execAppend d a op s
  | .appendf d a op => Sys2Proof.Machine.execAppendf d a op s
  | .merge d a => Sys2Proof.Machine.execMerge d a s
  | .mergew d a => Sys2Proof.Machine.execMergew d a s
  | .epush d e => Sys2Proof.Machine.execEpush d e s
  | .epop d e => Sys2Proof.Machine.execEpop d e s
  | .eqry d e => Sys2Proof.Machine.execEqry d e s
  | .krd d a => Sys2Proof.Machine.execKrd d a s
  | .kwr d a => Sys2Proof.Machine.execKwr d a s
  | .trap a => Sys2Proof.Machine.execTrap a s
  | .rte => Sys2Proof.Machine.execRte s
  | .bkpt => Sys2Proof.Machine.execBkpt s
  | .haltt d a => Sys2Proof.Machine.execHaltt d a s
  | .ctxsave d a => Sys2Proof.Machine.execCtxsave d a s
  | .ctxload a => Sys2Proof.Machine.execCtxload a s
  | .ctxout d a => Sys2Proof.Machine.execCtxout d a s
  | .ctxin d a => Sys2Proof.Machine.execCtxin d a s
  | .preempt d a => Sys2Proof.Machine.execPreempt d a s
  | .resume a => Sys2Proof.Machine.execResume a s
  | .cpyretry a => Sys2Proof.Machine.execCpyretry a s
  | .cpyskip a => Sys2Proof.Machine.execCpyskip a s
  | .cpyabort a => Sys2Proof.Machine.execCpyabort a s
  | .chrd d a => Sys2Proof.Machine.execChrd d a s
  | .adopt d a => Sys2Proof.Machine.execAdopt d a s
  | .unadopt d => Sys2Proof.Machine.execUnadopt d s
  | .metrd d a => Sys2Proof.Machine.execMetrd d a s
  | .capchk p a kind => Sys2Proof.Machine.execCapchk p a kind s
  | .kvld w a b m => Sys2Proof.Machine.execKvld w a b m s
  | .kvst t a b m => Sys2Proof.Machine.execKvst t a b m s
  | .kvmult t a b m => Sys2Proof.Machine.execKvmult t a b m s
  | .scoreb d a b => Sys2Proof.Machine.execScoreb d a b s
  | .tripc d a b => Sys2Proof.Machine.execTripc d a b s
  | .dmerge d a => Sys2Proof.Machine.execDmerge d a s
  | .illegalEncoding tval => Sys2Proof.Machine.execIllegalEncoding tval s
  | .instructionCompletion core slot => Sys2Proof.Machine.execInstructionCompletion core slot s
  | .slotSearch core => Sys2Proof.Machine.execSlotSearch core s
  | .stealProbeResult core => Sys2Proof.Machine.execStealProbeResult core s
  | .distributorDelivery world => Sys2Proof.Machine.execDistributorDelivery world s
  | .packetAging core band => Sys2Proof.Machine.execPacketAging core band s
  | .contextAging core entry => Sys2Proof.Machine.execContextAging core entry s
  | .queueSegmentSwapIn core band => Sys2Proof.Machine.execQueueSegmentSwapIn core band s
  | .contextMove core => Sys2Proof.Machine.execContextMove core s
  | .quantumExpiry core slot => Sys2Proof.Machine.execQuantumExpiry core slot s
  | .preemptReq core band => Sys2Proof.Machine.execPreemptReq core band s
  | .reservationTimeout loc => Sys2Proof.Machine.execReservationTimeout loc s
  | .reservationGrant loc => Sys2Proof.Machine.execReservationGrant loc s
  | .feWaiterServed loc => Sys2Proof.Machine.execFeWaiterServed loc s
  | .waitmsgTimeout core slot => Sys2Proof.Machine.execWaitmsgTimeout core slot s
  | .waitrsTimeout core entry => Sys2Proof.Machine.execWaitrsTimeout core entry s
  | .storePerform core k => Sys2Proof.Machine.execStorePerform core k s
  | .l1Fill core k => Sys2Proof.Machine.execL1Fill core k s
  | .messagePlacement core => Sys2Proof.Machine.execMessagePlacement core s
  | .copyChunk core k => Sys2Proof.Machine.execCopyChunk core k s
  | .copyCompletionMessage core k => Sys2Proof.Machine.execCopyCompletionMessage core k s
  | .copyfaultDelivery core slot => Sys2Proof.Machine.execCopyfaultDelivery core slot s
  | .logMergeRun world domain => Sys2Proof.Machine.execLogMergeRun world domain s
  | .e0Merge k => Sys2Proof.Machine.execE0Merge k s
  | .gather k => Sys2Proof.Machine.execGather k s
  | .mergePages k => Sys2Proof.Machine.execMergePages k s
  | .setTau k => Sys2Proof.Machine.execSetTau k s
  | .allreduce k => Sys2Proof.Machine.execAllreduce k s
  | .allgather k => Sys2Proof.Machine.execAllgather k s
  | .reducescatter k => Sys2Proof.Machine.execReducescatter k s
  | .send k => Sys2Proof.Machine.execSend k s
  | .recv k => Sys2Proof.Machine.execRecv k s
  | .pktsend k => Sys2Proof.Machine.execPktsend k s
  | .zeroingComplete core => Sys2Proof.Machine.execZeroingComplete core s
  | .revocationSweep => Sys2Proof.Machine.execRevocationSweep s
  | .revocationComplete => Sys2Proof.Machine.execRevocationComplete s
  | .getInfo c => Sys2Proof.Machine.execGetInfo c s
  | .worldCreate c => Sys2Proof.Machine.execWorldCreate c s
  | .worldAssign c => Sys2Proof.Machine.execWorldAssign c s
  | .worldDestroy c => Sys2Proof.Machine.execWorldDestroy c s
  | .loadImage c => Sys2Proof.Machine.execLoadImage c s
  | .launch c => Sys2Proof.Machine.execLaunch c s
  | .principalAdd c => Sys2Proof.Machine.execPrincipalAdd c s
  | .principalRevoke c => Sys2Proof.Machine.execPrincipalRevoke c s
  | .ruleSet c => Sys2Proof.Machine.execRuleSet c s
  | .capCreate c => Sys2Proof.Machine.execCapCreate c s
  | .capDestroy c => Sys2Proof.Machine.execCapDestroy c s
  | .leaseRenewWorldMemory c r => Sys2Proof.Machine.execLeaseRenewWorldMemory c r s
  | .leaseRenewIdeStream c r => Sys2Proof.Machine.execLeaseRenewIdeStream c r s
  | .leaseRenewContextSave c r => Sys2Proof.Machine.execLeaseRenewContextSave c r s
  | .meterRead c => Sys2Proof.Machine.execMeterRead c s
  | .checkpointSave c => Sys2Proof.Machine.execCheckpointSave c s
  | .checkpointRestore c => Sys2Proof.Machine.execCheckpointRestore c s
  | .debugAttach c => Sys2Proof.Machine.execDebugAttach c s
  | .debugDetach c => Sys2Proof.Machine.execDebugDetach c s
  | .badOpcode c => Sys2Proof.Machine.execBadOpcode c s
  | .lostCommandWrite fn t => Sys2Proof.Machine.execLostCommandWrite fn t s
  | .commandCompletion fn => Sys2Proof.Machine.execCommandCompletion fn s
  | .registerWrite fn t => Sys2Proof.Machine.execRegisterWrite fn t s
  | .packetWindowWrite fn t => Sys2Proof.Machine.execPacketWindowWrite fn t s
  | .wakeWindowWrite fn t => Sys2Proof.Machine.execWakeWindowWrite fn t s
  | .wayMaskWrite off size v => Sys2Proof.Machine.execWayMaskWrite off size v s
  | .trapqPop d => Sys2Proof.Machine.execTrapqPop d s
  | .trapqClear => Sys2Proof.Machine.execTrapqClear s
  | .tlbinvWrite v => Sys2Proof.Machine.execTlbinvWrite v s
  | .seqRegisterWrite off v => Sys2Proof.Machine.execSeqRegisterWrite off v s
  | .doeDiscovery fn bytes => Sys2Proof.Machine.execDoeDiscovery fn bytes s
  | .getVersion fn => Sys2Proof.Machine.execGetVersion fn s
  | .getCapabilities fn => Sys2Proof.Machine.execGetCapabilities fn s
  | .negotiateAlgorithms fn offered => Sys2Proof.Machine.execNegotiateAlgorithms fn offered s
  | .getDigests fn => Sys2Proof.Machine.execGetDigests fn s
  | .getCertificate fn slot => Sys2Proof.Machine.execGetCertificate fn slot s
  | .challenge fn slot => Sys2Proof.Machine.execChallenge fn slot s
  | .getMeasurements fn session index => Sys2Proof.Machine.execGetMeasurements fn session index s
  | .keyExchange fn => Sys2Proof.Machine.execKeyExchange fn s
  | .finish fn session => Sys2Proof.Machine.execFinish fn session s
  | .heartbeat fn session => Sys2Proof.Machine.execHeartbeat fn session s
  | .keyUpdate fn session => Sys2Proof.Machine.execKeyUpdate fn session s
  | .endSession fn session => Sys2Proof.Machine.execEndSession fn session s
  | .sessionTimeout fn session => Sys2Proof.Machine.execSessionTimeout fn session s
  | .lockInterfaceRequest fn session => Sys2Proof.Machine.execLockInterfaceRequest fn session s
  | .startInterfaceRequest fn session => Sys2Proof.Machine.execStartInterfaceRequest fn session s
  | .stopInterfaceRequest fn session => Sys2Proof.Machine.execStopInterfaceRequest fn session s
  | .lockedConfigWrite fn => Sys2Proof.Machine.execLockedConfigWrite fn s
  | .keyProg fn session set out => Sys2Proof.Machine.execKeyProg fn session set out s
  | .keySetGo fn session set out => Sys2Proof.Machine.execKeySetGo fn session set out s
  | .ideKeySetSwitch fn set => Sys2Proof.Machine.execIdeKeySetSwitch fn set s
  | .ideKeySetRetire fn set => Sys2Proof.Machine.execIdeKeySetRetire fn set s
  | .ideIntegrityFailure fn => Sys2Proof.Machine.execIdeIntegrityFailure fn s
  | .worldKeyLeaseExpiry world => Sys2Proof.Machine.execWorldKeyLeaseExpiry world s
  | .ideKeySetExpiry fn set out => Sys2Proof.Machine.execIdeKeySetExpiry fn set out s
  | .contextSaveKeyExpiry world => Sys2Proof.Machine.execContextSaveKeyExpiry world s
  | .linkKeyGenerationExpiry port rx gen => Sys2Proof.Machine.execLinkKeyGenerationExpiry port rx gen s
  | .checkpointKeyExpiry => Sys2Proof.Machine.execCheckpointKeyExpiry s
  | .powerOn v => Sys2Proof.Machine.execPowerOn v s
  | .powerLoss => Sys2Proof.Machine.execPowerLoss s
  | .clusterEnable => Sys2Proof.Machine.execClusterEnable s
  | .arrayGating core => Sys2Proof.Machine.execArrayGating core s
  | .throttleLevelChange die tj power => Sys2Proof.Machine.execThrottleLevelChange die tj power s
  | .overTemperature die tj => Sys2Proof.Machine.execOverTemperature die tj s
  | .getTelemetry => Sys2Proof.Machine.execGetTelemetry s
  | .uncore die counter source => Sys2Proof.Machine.execUncore die counter source s
  | .setPowerCap watts => Sys2Proof.Machine.execSetPowerCap watts s
  | .flitReceive port f => Sys2Proof.Machine.execFlitReceive port f s
  | .pauseFlit port => Sys2Proof.Machine.execPauseFlit port s
  | .resumeFlit port => Sys2Proof.Machine.execResumeFlit port s
  | .retireFlit port gen => Sys2Proof.Machine.execRetireFlit port gen s
  | .linkUp port p => Sys2Proof.Machine.execLinkUp port p s
  | .linkDown port => Sys2Proof.Machine.execLinkDown port s
  | .linkKeyRotation port => Sys2Proof.Machine.execLinkKeyRotation port s
  | .collectiveFailureNotice port world group seq code => Sys2Proof.Machine.execCollectiveFailureNotice port world group seq code s
  | .channelItemPlacement core => Sys2Proof.Machine.execChannelItemPlacement core s
  | .cxlMemRequest q => Sys2Proof.Machine.execCxlMemRequest q s
  | .sessionAeadFailure fn session => Sys2Proof.Machine.execSessionAeadFailure fn session s

end Sys2Proof.Machine
end

