-- ==== Sys2Proof/WellFormed.lean ====
section
/-! DEFINITION. Which terms of Instr are instructions that the spec admits: immediates within the widths of R78, MOD values of
R74, reserved type and op codes; and, for the operations of the device, the ranges of the numbers they name. -/

namespace Sys2Proof

/-- Whether a 64-bit value is the sign extension of its low `n` bits (R78). -/
def fitsSigned (n : Nat) (v : W64) : Bool :=
  decide (v.toNat < 2 ^ (n - 1)) || decide (2 ^ 64 - 2 ^ (n - 1) ≤ v.toNat)

namespace Mod

/-- The MOD whose fields are all 0, which means the same as no MOD (R74). -/
def isNone (m : Mod) : Bool := decide (m.order.toNat = 0) && decide (m.scope.toNat = 0) && decide (m.spec.toNat = 0)
/-- Scope 0 to 5, and 0 under plain order (R74). -/
def okScope (m : Mod) : Bool := decide (m.scope.toNat ≤ 5) && (decide (m.order.toNat ≠ 0) || decide (m.scope.toNat = 0))
/-- Loads (R74); also RECVMSG (R146), LDSTAT and LDSCL (R192), KVLD and KVMULT (R254), whose spec bit 0 alone may be 1. -/
def okLoad (m : Mod) : Bool := m.okScope && decide (m.order.toNat ≤ 1) && decide (m.spec.toNat ≤ 1)
/-- Stores (R74); also SENDMSG (R144) and KVST (R254). -/
def okStore (m : Mod) : Bool :=
  m.okScope && (decide (m.order.toNat = 0) || decide (m.order.toNat = 2)) && decide (m.spec.toNat = 0)
/-- Atomics and reservations (R74, R225). -/
def okAtomic (m : Mod) : Bool := m.okScope && decide (m.spec.toNat = 0)
/-- FENCE (R74, R228): some ordering is required. -/
def okFence (m : Mod) : Bool := m.okScope && decide (m.order.toNat ≠ 0) && decide (m.spec.toNat = 0)
/-- WAKE and WAKEALL accept .rel.sy alone (R237). -/
def okWake (m : Mod) : Bool := m.isNone || (decide (m.order.toNat = 2) && decide (m.scope.toNat = 5) && decide (m.spec.toNat = 0))
/-- LDPROJ: plain or acquire, chunk 0 to 7 in spec (R192). -/
def okChunk (m : Mod) : Bool := m.okScope && decide (m.order.toNat ≤ 1) && decide (m.spec.toNat ≤ 7)
/-- A MOD that carries only a field of `n` values in spec (R74 TCVT, R208, R238, R196). -/
def okSpec (n : Nat) (m : Mod) : Bool := decide (m.order.toNat = 0) && decide (m.scope.toNat = 0) && decide (m.spec.toNat < n)

end Mod

/-- The opcode byte of a command's c0 (R32). -/
def Cmd.opcode (c : Cmd) : Nat := c.c0.toNat % 256

/-- Whether an instruction is one that the spec admits. -/
def Instr.wellFormed (i : Instr) : Bool :=
  match i with
  | .add _ _ _ => true
  | .sub _ _ _ => true
  | .and _ _ _ => true
  | .or _ _ _ => true
  | .xor _ _ _ => true
  | .sll _ _ _ => true
  | .srl _ _ _ => true
  | .sra _ _ _ => true
  | .mul _ _ _ => true
  | .mulh _ _ _ => true
  | .mulhu _ _ _ => true
  | .div _ _ _ => true
  | .divu _ _ _ => true
  | .rem _ _ _ => true
  | .min _ _ _ => true
  | .max _ _ _ => true
  | .mov _ _ => true
  | .neg _ _ => true
  | .not _ _ => true
  | .clz _ _ => true
  | .ctz _ _ => true
  | .popc _ _ => true
  | .sextb _ _ => true
  | .sexth _ _ => true
  | .sextw _ _ => true
  | .zextw _ _ => true
  | .minu _ _ => true
  | .maxu _ _ => true
  | .cmpeq _ _ _ => true
  | .cmplt _ _ _ => true
  | .cmpltu _ _ _ => true
  | .selp _ _ => true
  | .addi _ imm => fitsSigned 38 imm
  | .li _ imm => fitsSigned 38 imm
  | .lih _ _ => true
  | .slli _ _ => true
  | .srli _ _ => true
  | .srai _ _ => true
  | .rori _ _ => true
  | .cmpi _ _ _ imm => fitsSigned 33 imm
  | .b off => fitsSigned 42 off
  | .bp _ _ off => fitsSigned 38 off
  | .jr _ => true
  | .jalr _ _ => true
  | .ret => true
  | .nop => true
  | .stop => true
  | .pand _ _ => true
  | .por _ _ => true
  | .pxor _ _ => true
  | .pnot _ _ => true
  | .ptos _ => true
  | .call off => fitsSigned 42 off
  | .ldd _ _ off m => fitsSigned 34 off && m.okLoad
  | .ldw _ _ off m => fitsSigned 34 off && m.okLoad
  | .std _ _ off m => fitsSigned 34 off && m.okStore
  | .stw _ _ off m => fitsSigned 34 off && m.okStore
  | .ldb _ _ off m => fitsSigned 34 off && m.okLoad
  | .ldbu _ _ off m => fitsSigned 34 off && m.okLoad
  | .ldh _ _ off m => fitsSigned 34 off && m.okLoad
  | .ldhu _ _ off m => fitsSigned 34 off && m.okLoad
  | .ldwu _ _ off m => fitsSigned 34 off && m.okLoad
  | .stb _ _ off m => fitsSigned 34 off && m.okStore
  | .sth _ _ off m => fitsSigned 34 off && m.okStore
  | .ldf _ _ m => m.okLoad
  | .ldfk _ _ m => m.okLoad
  | .ste _ _ m => m.okStore
  | .stf _ _ m => m.okStore
  | .feclr _ => true
  | .feq _ _ => true
  | .invl1 => true
  | .pref _ => true
  | .prefl _ => true
  | .tld _ _ _ m => m.okLoad
  | .tst _ _ _ m => m.okStore
  | .tlds _ _ _ m => m.okLoad
  | .tsts _ _ _ m => m.okStore
  | .tldx _ _ _ m => m.okLoad
  | .tstx _ _ _ m => m.okStore
  | .cpy _ _ => true
  | .cpy2d _ _ => true
  | .cpyl _ _ => true
  | .drain _ => true
  | .waitmsg _ _ => true
  | .recvmsg _ _ m => m.okLoad
  | .sendmsg _ _ m => m.okStore
  | .tadd _ _ _ => true
  | .tsub _ _ _ => true
  | .tmul _ _ _ => true
  | .tmax _ _ _ => true
  | .tmin _ _ _ => true
  | .tfma _ _ _ => true
  | .tsel _ _ _ => true
  | .tcpym _ _ _ => true
  | .tiadd _ _ _ => true
  | .tisub _ _ _ => true
  | .timul _ _ _ => true
  | .tand _ _ _ => true
  | .tor _ _ _ => true
  | .txor _ _ _ => true
  | .tshl _ _ _ => true
  | .tshr _ _ _ => true
  | .texp _ _ => true
  | .texp2 _ _ => true
  | .tlog2 _ _ => true
  | .trcp _ _ => true
  | .trsq _ _ => true
  | .tabs _ _ => true
  | .tneg _ _ => true
  | .tcvt _ _ ty => decide (ty.toNat ≤ 8)
  | .trsum _ _ => true
  | .trmax _ _ => true
  | .tcsum _ _ => true
  | .tcmax _ _ => true
  | .tbrow _ _ _ => true
  | .tbcol _ _ _ => true
  | .ttrans _ _ => true
  | .tmov _ _ => true
  | .tceq _ _ _ => true
  | .tclt _ _ _ => true
  | .tcle _ _ _ => true
  | .tcne _ _ _ => true
  | .tisnan _ _ => true
  | .tcltu _ _ _ => true
  | .tcleu _ _ _ => true
  | .tshape _ _ => true
  | .tshget _ _ => true
  | .tzero _ _ => true
  | .tfill _ _ => true
  | .tgete _ _ => true
  | .tsete _ _ => true
  | .tmaskr _ _ => true
  | .tmaskc _ _ => true
  | .tadds _ _ _ => true
  | .tmuls _ _ _ => true
  | .tmaxs _ _ _ => true
  | .tsubs _ _ _ => true
  | .tsadd _ _ => true
  | .tsmax _ _ => true
  | .tscpy _ _ => true
  | .tsfma _ _ _ => true
  | .tsend _ _ => true
  | .mma _ _ _ => true
  | .mmaz _ _ _ => true
  | .mmas _ _ _ => true
  | .mmaa _ _ _ _ => true
  | .mmax _ _ _ _ => true
  | .ldstat _ _ _ m => m.okLoad
  | .ldproj _ _ m => m.okChunk
  | .ldscl _ _ _ m => m.okLoad
  | .accrd _ _ _ => true
  | .accwr _ _ _ => true
  | .accz _ => true
  | .accclm _ ty => decide (ty.toNat ≤ 2)
  | .accrel _ => true
  | .swap _ => true
  | .plclm _ => true
  | .plrel _ => true
  | .plz _ => true
  | .epexp _ _ _ => true
  | .epabs _ _ _ => true
  | .aadd _ _ m => m.okAtomic
  | .aand _ _ m => m.okAtomic
  | .aor _ _ m => m.okAtomic
  | .axor _ _ m => m.okAtomic
  | .amin _ _ m => m.okAtomic
  | .amax _ _ m => m.okAtomic
  | .aminu _ _ m => m.okAtomic
  | .amaxu _ _ m => m.okAtomic
  | .aswap _ _ m => m.okAtomic
  | .acas _ _ _ m => m.okAtomic
  | .afadd _ _ m => m.okAtomic
  | .rsv _ _ m => m.okAtomic
  | .rls _ _ m => m.okAtomic
  | .rlsn _ m => m.okAtomic
  | .waitrs _ _ => true
  | .rsvw _ _ m => m.okAtomic
  | .fence m => m.okFence
  | .bararr _ _ => true
  | .barwait _ _ => true
  | .barsync _ _ => true
  | .barexp _ _ => true
  | .barinit _ _ => true
  | .barqry _ _ => true
  | .waitva _ _ => true
  | .wake _ _ m => m.okWake
  | .wakeall _ _ m => m.okWake
  | .spawn _ => true
  | .sync _ => true
  | .yield => true
  | .texit => true
  | .pktget _ => true
  | .append _ _ op => decide (op.toNat ≤ 11)
  | .appendf _ _ op => decide (op.toNat ≤ 11)
  | .merge _ _ => true
  | .mergew _ _ => true
  | .epush _ _ => true
  | .epop _ _ => true
  | .eqry _ _ => true
  | .krd _ _ => true
  | .kwr _ _ => true
  | .trap _ => true
  | .rte => true
  | .bkpt => true
  | .haltt _ _ => true
  | .ctxsave _ _ => true
  | .ctxload _ => true
  | .ctxout _ _ => true
  | .ctxin _ _ => true
  | .preempt _ _ => true
  | .resume _ => true
  | .cpyretry _ => true
  | .cpyskip _ => true
  | .cpyabort _ => true
  | .chrd _ _ => true
  | .adopt _ _ => true
  | .unadopt _ => true
  | .metrd _ _ => true
  | .capchk _ _ _ => true
  | .kvld _ _ _ m => m.okLoad
  | .kvst _ _ _ m => m.okStore
  | .kvmult _ _ _ m => m.okLoad
  | .scoreb _ _ _ => true
  | .tripc _ _ _ => true
  | .dmerge _ _ => true
  | .illegalEncoding _ => true
  | .instructionCompletion core slot => decide (core < 512) && decide (slot < 16)
  | .slotSearch core => decide (core < 512)
  | .stealProbeResult core => decide (core < 512)
  | .distributorDelivery world => decide (world < 16)
  | .packetAging core band => decide (core < 512) && decide (band < 4)
  | .contextAging core entry => decide (core < 512) && decide (entry < 48)
  | .queueSegmentSwapIn core band => decide (core < 512) && decide (band < 5)
  | .contextMove core => decide (core < 512)
  | .quantumExpiry core slot => decide (core < 512) && decide (slot < 16)
  | .preemptReq core band => decide (core < 512) && decide (band < 4)
  | .reservationTimeout _ => true
  | .reservationGrant _ => true
  | .feWaiterServed _ => true
  | .waitmsgTimeout core slot => decide (core < 512) && decide (slot < 16)
  | .waitrsTimeout core entry => decide (core < 512) && decide (entry < 48)
  | .storePerform core _ => decide (core < 512)
  | .l1Fill core _ => decide (core < 512)
  | .messagePlacement core => decide (core < 512)
  | .copyChunk core _ => decide (core < 512)
  | .copyCompletionMessage core _ => decide (core < 512)
  | .copyfaultDelivery core slot => decide (core < 512) && decide (slot < 16)
  | .logMergeRun world domain => decide (world < 16) && decide (domain < 8)
  | .e0Merge _ => true
  | .gather _ => true
  | .mergePages _ => true
  | .setTau _ => true
  | .allreduce _ => true
  | .allgather _ => true
  | .reducescatter _ => true
  | .send _ => true
  | .recv _ => true
  | .pktsend _ => true
  | .zeroingComplete core => decide (core < 512)
  | .revocationSweep => true
  | .revocationComplete => true
  | .getInfo c => decide (c.fn < 15) && decide (c.opcode = 1)
  | .worldCreate c => decide (c.fn < 15) && decide (c.opcode = 2)
  | .worldAssign c => decide (c.fn < 15) && decide (c.opcode = 3)
  | .worldDestroy c => decide (c.fn < 15) && decide (c.opcode = 4)
  | .loadImage c => decide (c.fn < 15) && decide (c.opcode = 5)
  | .launch c => decide (c.fn < 15) && decide (c.opcode = 6)
  | .principalAdd c => decide (c.fn < 15) && decide (c.opcode = 7)
  | .principalRevoke c => decide (c.fn < 15) && decide (c.opcode = 8)
  | .ruleSet c => decide (c.fn < 15) && decide (c.opcode = 9)
  | .capCreate c => decide (c.fn < 15) && decide (c.opcode = 10)
  | .capDestroy c => decide (c.fn < 15) && decide (c.opcode = 11)
  | .leaseRenewWorldMemory c _ => decide (c.fn < 15) && decide (c.opcode = 12)
  | .leaseRenewIdeStream c _ => decide (c.fn < 15) && decide (c.opcode = 12)
  | .leaseRenewContextSave c _ => decide (c.fn < 15) && decide (c.opcode = 12)
  | .meterRead c => decide (c.fn < 15) && decide (c.opcode = 13)
  | .checkpointSave c => decide (c.fn < 15) && decide (c.opcode = 14)
  | .checkpointRestore c => decide (c.fn < 15) && decide (c.opcode = 14)
  | .debugAttach c => decide (c.fn < 15) && decide (c.opcode = 15)
  | .debugDetach c => decide (c.fn < 15) && decide (c.opcode = 15)
  | .badOpcode c => decide (c.fn < 15) && (decide (c.opcode = 0) || decide (16 ≤ c.opcode))
  | .lostCommandWrite fn _ => decide (fn < 15)
  | .commandCompletion fn => decide (fn < 15)
  | .registerWrite fn _ => decide (fn < 15)
  | .packetWindowWrite fn _ => decide (fn < 15)
  | .wakeWindowWrite fn _ => decide (fn < 15)
  | .wayMaskWrite _ _ _ => true
  | .trapqPop _ => true
  | .trapqClear => true
  | .tlbinvWrite _ => true
  | .seqRegisterWrite _ _ => true
  | .doeDiscovery fn _ => decide (fn < 15)
  | .getVersion fn => decide (fn < 15)
  | .getCapabilities fn => decide (fn < 15)
  | .negotiateAlgorithms fn _ => decide (fn < 15)
  | .getDigests fn => decide (fn < 15)
  | .getCertificate fn slot => decide (fn < 15) && decide (slot < 16)
  | .challenge fn slot => decide (fn < 15) && decide (slot < 16)
  | .getMeasurements fn session _ => decide (fn < 15) && decide (session < 4)
  | .keyExchange fn => decide (fn < 15)
  | .finish fn session => decide (fn < 15) && decide (session < 4)
  | .heartbeat fn session => decide (fn < 15) && decide (session < 4)
  | .keyUpdate fn session => decide (fn < 15) && decide (session < 4)
  | .endSession fn session => decide (fn < 15) && decide (session < 4)
  | .sessionTimeout fn session => decide (fn < 15) && decide (session < 4)
  | .lockInterfaceRequest fn session => decide (fn < 15) && decide (session < 4)
  | .startInterfaceRequest fn session => decide (fn < 15) && decide (session < 4)
  | .stopInterfaceRequest fn session => decide (fn < 15) && decide (session < 4)
  | .lockedConfigWrite fn => decide (fn < 15)
  | .keyProg fn session set _ => decide (fn < 15) && decide (session < 4) && decide (set < 2)
  | .keySetGo fn session set _ => decide (fn < 15) && decide (session < 4) && decide (set < 2)
  | .ideKeySetSwitch fn set => decide (fn < 15) && decide (set < 2)
  | .ideKeySetRetire fn set => decide (fn < 15) && decide (set < 2)
  | .ideIntegrityFailure fn => decide (fn < 15)
  | .worldKeyLeaseExpiry world => decide (world < 16)
  | .ideKeySetExpiry fn set _ => decide (fn < 15) && decide (set < 2)
  | .contextSaveKeyExpiry world => decide (world < 16)
  | .linkKeyGenerationExpiry port _ _ => decide (port < 18)
  | .checkpointKeyExpiry => true
  | .powerOn _ => true
  | .powerLoss => true
  | .clusterEnable => true
  | .arrayGating core => decide (core < 512)
  | .throttleLevelChange die _ _ => decide (die < 2)
  | .overTemperature die _ => decide (die < 2)
  | .getTelemetry => true
  | .uncore die counter _ => decide (die < 2) && decide (counter < 16)
  | .setPowerCap _ => true
  | .flitReceive port _ => decide (port < 18)
  | .pauseFlit port => decide (port < 18)
  | .resumeFlit port => decide (port < 18)
  | .retireFlit port _ => decide (port < 18)
  | .linkUp port _ => decide (port < 18)
  | .linkDown port => decide (port < 18)
  | .linkKeyRotation port => decide (port < 18)
  | .collectiveFailureNotice port _ _ _ _ => decide (port < 18)
  | .channelItemPlacement core => decide (core < 512)
  | .cxlMemRequest _ => true
  | .sessionAeadFailure fn session => decide (fn < 15) && decide (session < 4)

/-- Whether a constructor is an instruction with an encoding, and not an operation or event of the device. -/
def Instr.encodable (i : Instr) : Bool :=
  match i with
  | .add _ _ _ => true
  | .sub _ _ _ => true
  | .and _ _ _ => true
  | .or _ _ _ => true
  | .xor _ _ _ => true
  | .sll _ _ _ => true
  | .srl _ _ _ => true
  | .sra _ _ _ => true
  | .mul _ _ _ => true
  | .mulh _ _ _ => true
  | .mulhu _ _ _ => true
  | .div _ _ _ => true
  | .divu _ _ _ => true
  | .rem _ _ _ => true
  | .min _ _ _ => true
  | .max _ _ _ => true
  | .mov _ _ => true
  | .neg _ _ => true
  | .not _ _ => true
  | .clz _ _ => true
  | .ctz _ _ => true
  | .popc _ _ => true
  | .sextb _ _ => true
  | .sexth _ _ => true
  | .sextw _ _ => true
  | .zextw _ _ => true
  | .minu _ _ => true
  | .maxu _ _ => true
  | .cmpeq _ _ _ => true
  | .cmplt _ _ _ => true
  | .cmpltu _ _ _ => true
  | .selp _ _ => true
  | .addi _ _ => true
  | .li _ _ => true
  | .lih _ _ => true
  | .slli _ _ => true
  | .srli _ _ => true
  | .srai _ _ => true
  | .rori _ _ => true
  | .cmpi _ _ _ _ => true
  | .b _ => true
  | .bp _ _ _ => true
  | .jr _ => true
  | .jalr _ _ => true
  | .ret => true
  | .nop => true
  | .stop => true
  | .pand _ _ => true
  | .por _ _ => true
  | .pxor _ _ => true
  | .pnot _ _ => true
  | .ptos _ => true
  | .call _ => true
  | .ldd _ _ _ _ => true
  | .ldw _ _ _ _ => true
  | .std _ _ _ _ => true
  | .stw _ _ _ _ => true
  | .ldb _ _ _ _ => true
  | .ldbu _ _ _ _ => true
  | .ldh _ _ _ _ => true
  | .ldhu _ _ _ _ => true
  | .ldwu _ _ _ _ => true
  | .stb _ _ _ _ => true
  | .sth _ _ _ _ => true
  | .ldf _ _ _ => true
  | .ldfk _ _ _ => true
  | .ste _ _ _ => true
  | .stf _ _ _ => true
  | .feclr _ => true
  | .feq _ _ => true
  | .invl1 => true
  | .pref _ => true
  | .prefl _ => true
  | .tld _ _ _ _ => true
  | .tst _ _ _ _ => true
  | .tlds _ _ _ _ => true
  | .tsts _ _ _ _ => true
  | .tldx _ _ _ _ => true
  | .tstx _ _ _ _ => true
  | .cpy _ _ => true
  | .cpy2d _ _ => true
  | .cpyl _ _ => true
  | .drain _ => true
  | .waitmsg _ _ => true
  | .recvmsg _ _ _ => true
  | .sendmsg _ _ _ => true
  | .tadd _ _ _ => true
  | .tsub _ _ _ => true
  | .tmul _ _ _ => true
  | .tmax _ _ _ => true
  | .tmin _ _ _ => true
  | .tfma _ _ _ => true
  | .tsel _ _ _ => true
  | .tcpym _ _ _ => true
  | .tiadd _ _ _ => true
  | .tisub _ _ _ => true
  | .timul _ _ _ => true
  | .tand _ _ _ => true
  | .tor _ _ _ => true
  | .txor _ _ _ => true
  | .tshl _ _ _ => true
  | .tshr _ _ _ => true
  | .texp _ _ => true
  | .texp2 _ _ => true
  | .tlog2 _ _ => true
  | .trcp _ _ => true
  | .trsq _ _ => true
  | .tabs _ _ => true
  | .tneg _ _ => true
  | .tcvt _ _ _ => true
  | .trsum _ _ => true
  | .trmax _ _ => true
  | .tcsum _ _ => true
  | .tcmax _ _ => true
  | .tbrow _ _ _ => true
  | .tbcol _ _ _ => true
  | .ttrans _ _ => true
  | .tmov _ _ => true
  | .tceq _ _ _ => true
  | .tclt _ _ _ => true
  | .tcle _ _ _ => true
  | .tcne _ _ _ => true
  | .tisnan _ _ => true
  | .tcltu _ _ _ => true
  | .tcleu _ _ _ => true
  | .tshape _ _ => true
  | .tshget _ _ => true
  | .tzero _ _ => true
  | .tfill _ _ => true
  | .tgete _ _ => true
  | .tsete _ _ => true
  | .tmaskr _ _ => true
  | .tmaskc _ _ => true
  | .tadds _ _ _ => true
  | .tmuls _ _ _ => true
  | .tmaxs _ _ _ => true
  | .tsubs _ _ _ => true
  | .tsadd _ _ => true
  | .tsmax _ _ => true
  | .tscpy _ _ => true
  | .tsfma _ _ _ => true
  | .tsend _ _ => true
  | .mma _ _ _ => true
  | .mmaz _ _ _ => true
  | .mmas _ _ _ => true
  | .mmaa _ _ _ _ => true
  | .mmax _ _ _ _ => true
  | .ldstat _ _ _ _ => true
  | .ldproj _ _ _ => true
  | .ldscl _ _ _ _ => true
  | .accrd _ _ _ => true
  | .accwr _ _ _ => true
  | .accz _ => true
  | .accclm _ _ => true
  | .accrel _ => true
  | .swap _ => true
  | .plclm _ => true
  | .plrel _ => true
  | .plz _ => true
  | .epexp _ _ _ => true
  | .epabs _ _ _ => true
  | .aadd _ _ _ => true
  | .aand _ _ _ => true
  | .aor _ _ _ => true
  | .axor _ _ _ => true
  | .amin _ _ _ => true
  | .amax _ _ _ => true
  | .aminu _ _ _ => true
  | .amaxu _ _ _ => true
  | .aswap _ _ _ => true
  | .acas _ _ _ _ => true
  | .afadd _ _ _ => true
  | .rsv _ _ _ => true
  | .rls _ _ _ => true
  | .rlsn _ _ => true
  | .waitrs _ _ => true
  | .rsvw _ _ _ => true
  | .fence _ => true
  | .bararr _ _ => true
  | .barwait _ _ => true
  | .barsync _ _ => true
  | .barexp _ _ => true
  | .barinit _ _ => true
  | .barqry _ _ => true
  | .waitva _ _ => true
  | .wake _ _ _ => true
  | .wakeall _ _ _ => true
  | .spawn _ => true
  | .sync _ => true
  | .yield => true
  | .texit => true
  | .pktget _ => true
  | .append _ _ _ => true
  | .appendf _ _ _ => true
  | .merge _ _ => true
  | .mergew _ _ => true
  | .epush _ _ => true
  | .epop _ _ => true
  | .eqry _ _ => true
  | .krd _ _ => true
  | .kwr _ _ => true
  | .trap _ => true
  | .rte => true
  | .bkpt => true
  | .haltt _ _ => true
  | .ctxsave _ _ => true
  | .ctxload _ => true
  | .ctxout _ _ => true
  | .ctxin _ _ => true
  | .preempt _ _ => true
  | .resume _ => true
  | .cpyretry _ => true
  | .cpyskip _ => true
  | .cpyabort _ => true
  | .chrd _ _ => true
  | .adopt _ _ => true
  | .unadopt _ => true
  | .metrd _ _ => true
  | .capchk _ _ _ => true
  | .kvld _ _ _ _ => true
  | .kvst _ _ _ _ => true
  | .kvmult _ _ _ _ => true
  | .scoreb _ _ _ => true
  | .tripc _ _ _ => true
  | .dmerge _ _ => true
  | .illegalEncoding _ => false
  | .instructionCompletion _ _ => false
  | .slotSearch _ => false
  | .stealProbeResult _ => false
  | .distributorDelivery _ => false
  | .packetAging _ _ => false
  | .contextAging _ _ => false
  | .queueSegmentSwapIn _ _ => false
  | .contextMove _ => false
  | .quantumExpiry _ _ => false
  | .preemptReq _ _ => false
  | .reservationTimeout _ => false
  | .reservationGrant _ => false
  | .feWaiterServed _ => false
  | .waitmsgTimeout _ _ => false
  | .waitrsTimeout _ _ => false
  | .storePerform _ _ => false
  | .l1Fill _ _ => false
  | .messagePlacement _ => false
  | .copyChunk _ _ => false
  | .copyCompletionMessage _ _ => false
  | .copyfaultDelivery _ _ => false
  | .logMergeRun _ _ => false
  | .e0Merge _ => false
  | .gather _ => false
  | .mergePages _ => false
  | .setTau _ => false
  | .allreduce _ => false
  | .allgather _ => false
  | .reducescatter _ => false
  | .send _ => false
  | .recv _ => false
  | .pktsend _ => false
  | .zeroingComplete _ => false
  | .revocationSweep => false
  | .revocationComplete => false
  | .getInfo _ => false
  | .worldCreate _ => false
  | .worldAssign _ => false
  | .worldDestroy _ => false
  | .loadImage _ => false
  | .launch _ => false
  | .principalAdd _ => false
  | .principalRevoke _ => false
  | .ruleSet _ => false
  | .capCreate _ => false
  | .capDestroy _ => false
  | .leaseRenewWorldMemory _ _ => false
  | .leaseRenewIdeStream _ _ => false
  | .leaseRenewContextSave _ _ => false
  | .meterRead _ => false
  | .checkpointSave _ => false
  | .checkpointRestore _ => false
  | .debugAttach _ => false
  | .debugDetach _ => false
  | .badOpcode _ => false
  | .lostCommandWrite _ _ => false
  | .commandCompletion _ => false
  | .registerWrite _ _ => false
  | .packetWindowWrite _ _ => false
  | .wakeWindowWrite _ _ => false
  | .wayMaskWrite _ _ _ => false
  | .trapqPop _ => false
  | .trapqClear => false
  | .tlbinvWrite _ => false
  | .seqRegisterWrite _ _ => false
  | .doeDiscovery _ _ => false
  | .getVersion _ => false
  | .getCapabilities _ => false
  | .negotiateAlgorithms _ _ => false
  | .getDigests _ => false
  | .getCertificate _ _ => false
  | .challenge _ _ => false
  | .getMeasurements _ _ _ => false
  | .keyExchange _ => false
  | .finish _ _ => false
  | .heartbeat _ _ => false
  | .keyUpdate _ _ => false
  | .endSession _ _ => false
  | .sessionTimeout _ _ => false
  | .lockInterfaceRequest _ _ => false
  | .startInterfaceRequest _ _ => false
  | .stopInterfaceRequest _ _ => false
  | .lockedConfigWrite _ => false
  | .keyProg _ _ _ _ => false
  | .keySetGo _ _ _ _ => false
  | .ideKeySetSwitch _ _ => false
  | .ideKeySetRetire _ _ => false
  | .ideIntegrityFailure _ => false
  | .worldKeyLeaseExpiry _ => false
  | .ideKeySetExpiry _ _ _ => false
  | .contextSaveKeyExpiry _ => false
  | .linkKeyGenerationExpiry _ _ _ => false
  | .checkpointKeyExpiry => false
  | .powerOn _ => false
  | .powerLoss => false
  | .clusterEnable => false
  | .arrayGating _ => false
  | .throttleLevelChange _ _ _ => false
  | .overTemperature _ _ => false
  | .getTelemetry => false
  | .uncore _ _ _ => false
  | .setPowerCap _ => false
  | .flitReceive _ _ => false
  | .pauseFlit _ => false
  | .resumeFlit _ => false
  | .retireFlit _ _ => false
  | .linkUp _ _ => false
  | .linkDown _ => false
  | .linkKeyRotation _ => false
  | .collectiveFailureNotice _ _ _ _ _ => false
  | .channelItemPlacement _ => false
  | .cxlMemRequest _ => false
  | .sessionAeadFailure _ _ => false

end Sys2Proof
end

