-- ==== Sys2Proof/Decode.lean ====
section
/-! DEFINITION. Decoding (spec 05, R68 to R80), total on any words, and the encoder written from the same tables. Words are
judged as numbers below 2^16; a field [hi:lo] is taken by division and remainder. -/

namespace Sys2Proof

/-- What the prefix words read so far say (R70 to R74). -/
structure Pfx where
  page : Nat
  pageSeen : Bool
  rexSeen : Bool
  x : Option Reg
  dh : Bool
  ah : Bool
  bh : Bool
  modSeen : Bool
  mod : Mod
  imx : List Nat
  deriving DecidableEq, Repr

/-- No prefix read yet (R80). -/
def Pfx.init : Pfx := ⟨0, false, false, none, false, false, false, false, Mod.none, []⟩

/-- Bit `n` of a word. -/
def bitAt (h n : Nat) : Bool := decide (h / 2 ^ n % 2 = 1)

/-- One prefix word (R80): what is known after it, or none where it is ILLEGAL. -/
def Pfx.push (p : Pfx) (h : Nat) : Option Pfx :=
  match h / 1024 % 4 with
  | 0 => if p.imx.length ≥ 3 then none else some { p with imx := p.imx ++ [h % 1024] }
  | 1 =>
    if p.rexSeen || bitAt h 0 || (!bitAt h 9 && decide (h / 16 % 32 ≠ 0)) then none
    else some { p with
      rexSeen := true
      x := if bitAt h 9 then some (BitVec.ofNat 5 (h / 16 % 32)) else none
      dh := bitAt h 3, ah := bitAt h 2, bh := bitAt h 1 }
  | 2 =>
    if p.pageSeen || decide (h % 4 ≠ 0) || decide (h / 4 % 256 > 6) then none
    else some { p with page := h / 4 % 256, pageSeen := true }
  | _ =>
    if p.modSeen || decide (h / 128 % 8 > 5) then none
    else some { p with
      modSeen := true
      mod := ⟨BitVec.ofNat 2 (h / 32 % 4), BitVec.ofNat 3 (h / 128 % 8), BitVec.ofNat 5 (h % 32)⟩ }

/-- Where REX bit x stands with an instruction (R72, R77). -/
inductive XRule where
  | refused
  | optional
  | required
  deriving DecidableEq, Repr

/-- Whether the REX, MOD and IMX words read are accepted by an instruction that takes the high bits `dh ah bh`, the third
register as `x` says, a MOD iff `mod`, and IMX words iff `imx` (R72, R74, R78). -/
def Pfx.allows (p : Pfx) (dh ah bh : Bool) (x : XRule) (mod imx : Bool) : Bool :=
  (dh || !p.dh) && (ah || !p.ah) && (bh || !p.bh) &&
  (match x with
    | .refused => p.x.isNone
    | .optional => true
    | .required => p.x.isSome) &&
  (mod || !p.modSeen) && (imx || p.imx.isEmpty)

/-- A scalar register field of four bits with its high bit (R72). -/
def hiReg (hi : Bool) (v : Nat) : Reg := BitVec.ofNat 5 ((if hi then 16 else 0) + v % 16)

/-- The field d at [11:8]. -/
def Pfx.rD (p : Pfx) (h : Nat) : Reg := hiReg p.dh (h / 256)
/-- The field a with its lowest bit at `lo`. -/
def Pfx.rA (p : Pfx) (h lo : Nat) : Reg := hiReg p.ah (h / 2 ^ lo)
/-- The field b with its lowest bit at `lo`. -/
def Pfx.rB (p : Pfx) (h lo : Nat) : Reg := hiReg p.bh (h / 2 ^ lo)
/-- A 3-bit field. -/
def f3 (h lo : Nat) : BitVec 3 := BitVec.ofNat 3 (h / 2 ^ lo)
/-- A 2-bit field. -/
def f2 (h lo : Nat) : BitVec 2 := BitVec.ofNat 2 (h / 2 ^ lo)

/-- The combined field of IMX words and the own field of `w` bits (R71). -/
def combined (imx : List Nat) (w own : Nat) : Nat := imx.foldl (fun acc b => acc * 1024 + b) 0 * 2 ^ w + own

/-- A number of `n` bits, sign-extended to 64 bits. -/
def signedField (n v : Nat) : W64 := if v < 2 ^ (n - 1) then BitVec.ofNat 64 v else BitVec.ofNat 64 (2 ^ 64 - 2 ^ n + v)

/-- The immediate of an instruction whose own field has `w` bits and reads, with no IMX word, signed or not (R71, R78). -/
def immediate (bareSigned : Bool) (imx : List Nat) (w own : Nat) : W64 :=
  match imx with
  | [] => if bareSigned then signedField w own else BitVec.ofNat 64 own
  | _ => signedField (w + 10 * imx.length) (combined imx w own)

/-- A constructor's instruction where the prefixes and the fields are accepted. -/
def accept (ok : Bool) (i : Instr) : Option Instr := if ok then some i else none

/-! The operand forms of the map (R75, R77, and the layouts of the chapters), each with what R72, R74, R76 and R78 accept. -/

def formRRX (c : Reg → Reg → Option Reg → Instr) (p : Pfx) (h : Nat) : Option Instr :=
  accept (p.allows true true false .optional false false) (c (p.rD h) (p.rA h 4) p.x)
def formRR (c : Reg → Reg → Instr) (p : Pfx) (h : Nat) : Option Instr :=
  accept (p.allows true true false .refused false false) (c (p.rD h) (p.rA h 4))
def formCMP (c : Num3 → Reg → Option Reg → Instr) (p : Pfx) (h : Nat) : Option Instr :=
  accept (p.allows false true false .optional false false && !bitAt h 11) (c (f3 h 8) (p.rA h 4) p.x)
def formDI (c : Reg → W64 → Instr) (p : Pfx) (h : Nat) : Option Instr :=
  accept (p.allows true false false .refused false true) (c (p.rD h) (immediate true p.imx 8 (h % 256)))
/-- LIH takes its combined field unsigned; a 1 above bit 31 is ILLEGAL (R71, R79). -/
def formLIH (c : Reg → W32 → Instr) (p : Pfx) (h : Nat) : Option Instr :=
  accept (p.allows true false false .refused false true && decide (combined p.imx 8 (h % 256) < 2 ^ 32))
    (c (p.rD h) (BitVec.ofNat 32 (combined p.imx 8 (h % 256))))
def formSH (c : Reg → BitVec 6 → Instr) (p : Pfx) (h : Nat) : Option Instr :=
  accept (p.allows true false false .refused false false) (c (p.rD h) (BitVec.ofNat 6 h))
def formCMPI (c : Num3 → Reg → BitVec 2 → W64 → Instr) (p : Pfx) (h : Nat) : Option Instr :=
  accept (p.allows false true false .refused false true) (c (f3 h 9) (p.rA h 5) (f2 h 3) (immediate true p.imx 3 (h % 8)))
def formBR (c : W64 → Instr) (p : Pfx) (h : Nat) : Option Instr :=
  accept (p.allows false false false .refused false true) (c (immediate true p.imx 12 (h % 4096)))
def formBP (c : Num3 → Bool → W64 → Instr) (p : Pfx) (h : Nat) : Option Instr :=
  accept (p.allows false false false .refused false true) (c (f3 h 9) (bitAt h 8) (immediate true p.imx 8 (h % 256)))
def formA (c : Reg → Instr) (p : Pfx) (h : Nat) : Option Instr :=
  accept (p.allows false true false .refused false false && decide (h / 256 % 16 = 0)) (c (p.rA h 4))
def formD (c : Reg → Instr) (p : Pfx) (h : Nat) : Option Instr :=
  accept (p.allows true false false .refused false false && decide (h / 16 % 16 = 0)) (c (p.rD h))
def formNONE (c : Instr) (p : Pfx) (h : Nat) : Option Instr :=
  accept (p.allows false false false .refused false false && decide (h / 16 % 256 = 0)) c
def formPP (c : Num3 → Num3 → Instr) (p : Pfx) (h : Nat) : Option Instr :=
  accept (p.allows false false false .refused false false && !bitAt h 11 && !bitAt h 7) (c (f3 h 8) (f3 h 4))
def formLD (c : Reg → Reg → W64 → Mod → Instr) (p : Pfx) (h : Nat) : Option Instr :=
  accept (p.allows true true false .refused true true && p.mod.okLoad)
    (c (p.rD h) (p.rA h 4) (immediate false p.imx 4 (h % 16)) p.mod)
def formST (c : Reg → Reg → W64 → Mod → Instr) (p : Pfx) (h : Nat) : Option Instr :=
  accept (p.allows true true false .refused true true && p.mod.okStore)
    (c (p.rD h) (p.rA h 4) (immediate false p.imx 4 (h % 16)) p.mod)
/-- LDF and LDFK take a MOD as loads (R126). -/
def formFEL (c : Reg → Reg → Mod → Instr) (p : Pfx) (h : Nat) : Option Instr :=
  accept (p.allows true true false .refused true false && p.mod.okLoad) (c (p.rD h) (p.rA h 4) p.mod)
/-- STE, STF and SENDMSG take a MOD as stores (R126, R144). -/
def formFES (c : Reg → Reg → Mod → Instr) (p : Pfx) (h : Nat) : Option Instr :=
  accept (p.allows true true false .refused true false && p.mod.okStore) (c (p.rD h) (p.rA h 4) p.mod)
def formPA (c : Num3 → Reg → Instr) (p : Pfx) (h : Nat) : Option Instr :=
  accept (p.allows false true false .refused false false && !bitAt h 11) (c (f3 h 8) (p.rA h 4))
def formTABL (c : Num3 → Reg → Reg → Mod → Instr) (p : Pfx) (h : Nat) : Option Instr :=
  accept (p.allows false true true .refused true false && p.mod.okLoad) (c (f3 h 9) (p.rA h 5) (p.rB h 1) p.mod)
def formTABS (c : Num3 → Reg → Reg → Mod → Instr) (p : Pfx) (h : Nat) : Option Instr :=
  accept (p.allows false true true .refused true false && p.mod.okStore) (c (f3 h 9) (p.rA h 5) (p.rB h 1) p.mod)
def formTXL (c : Num3 → Num3 → Reg → Mod → Instr) (p : Pfx) (h : Nat) : Option Instr :=
  accept (p.allows false true false .refused true false && p.mod.okLoad) (c (f3 h 9) (f3 h 6) (p.rA h 2) p.mod)
def formTXS (c : Num3 → Num3 → Reg → Mod → Instr) (p : Pfx) (h : Nat) : Option Instr :=
  accept (p.allows false true false .refused true false && p.mod.okStore) (c (f3 h 9) (f3 h 6) (p.rA h 2) p.mod)
/-- DRAIN: the path stands in field d, 0 to 3 (R142). -/
def formDRAIN (c : BitVec 2 → Instr) (p : Pfx) (h : Nat) : Option Instr :=
  accept (p.allows false false false .refused false false && decide (h / 256 % 16 ≤ 3) && decide (h / 16 % 16 = 0)) (c (f2 h 8))
def formRECV (c : Reg → Reg → Mod → Instr) (p : Pfx) (h : Nat) : Option Instr :=
  accept (p.allows true true false .refused true false && p.mod.okLoad) (c (p.rD h) (p.rA h 4) p.mod)
def formTTT (c : Num3 → Num3 → Num3 → Instr) (p : Pfx) (h : Nat) : Option Instr :=
  accept (p.allows false false false .refused false false) (c (f3 h 9) (f3 h 6) (f3 h 3))
def formTT (c : Num3 → Num3 → Instr) (p : Pfx) (h : Nat) : Option Instr :=
  accept (p.allows false false false .refused false false && decide (h / 8 % 8 = 0)) (c (f3 h 9) (f3 h 6))
/-- TCVT: the target type stands in MOD spec, 0 to 8 (R74, R176). -/
def formTCVT (c : Num3 → Num3 → BitVec 4 → Instr) (p : Pfx) (h : Nat) : Option Instr :=
  accept (p.allows false false false .refused true false && p.mod.okSpec 9 && decide (h / 8 % 8 = 0))
    (c (f3 h 9) (f3 h 6) (BitVec.ofNat 4 p.mod.spec.toNat))
def formTS (c : Num3 → Reg → Instr) (p : Pfx) (h : Nat) : Option Instr :=
  accept (p.allows false true false .refused false false) (c (f3 h 9) (p.rA h 5))
def formTTS (c : Num3 → Num3 → Reg → Instr) (p : Pfx) (h : Nat) : Option Instr :=
  accept (p.allows false true false .refused false false) (c (f3 h 9) (f3 h 6) (p.rA h 2))
def formTC (c : Num3 → Num2 → Instr) (p : Pfx) (h : Nat) : Option Instr :=
  accept (p.allows false false false .refused false false && decide (h / 16 % 8 = 0)) (c (f3 h 9) (f2 h 7))
def formTCT (c : Num3 → Num2 → Num3 → Instr) (p : Pfx) (h : Nat) : Option Instr :=
  accept (p.allows false false false .refused false false) (c (f3 h 9) (f2 h 7) (f3 h 4))
def formMMA (c : Num3 → Num3 → Num2 → Instr) (p : Pfx) (h : Nat) : Option Instr :=
  accept (p.allows false false false .refused false false) (c (f3 h 9) (f3 h 6) (f2 h 4))
/-- MMAA and MMAX: a selector of four bits in MOD spec (R196). -/
def formMMX (c : Num3 → Num3 → Num2 → BitVec 4 → Instr) (p : Pfx) (h : Nat) : Option Instr :=
  accept (p.allows false false false .refused true false && p.mod.okSpec 16)
    (c (f3 h 9) (f3 h 6) (f2 h 4) (BitVec.ofNat 4 p.mod.spec.toNat))
def formWABL (c : Num2 → Reg → Reg → Mod → Instr) (p : Pfx) (h : Nat) : Option Instr :=
  accept (p.allows false true true .refused true false && p.mod.okLoad) (c (f2 h 10) (p.rA h 6) (p.rB h 2) p.mod)
/-- LDPROJ: field w is reserved, the chunk stands in MOD spec (R192). -/
def formCHUNK (c : Reg → Reg → Mod → Instr) (p : Pfx) (h : Nat) : Option Instr :=
  accept (p.allows false true true .refused true false && p.mod.okChunk && decide (h / 1024 % 4 = 0))
    (c (p.rA h 6) (p.rB h 2) p.mod)
def formATR (c : Num3 → Num3 → Num3 → Instr) (p : Pfx) (h : Nat) : Option Instr :=
  accept (p.allows false false false .refused false false) (c (f3 h 9) (f3 h 6) (f3 h 3))
def formACC (c : Num3 → Instr) (p : Pfx) (h : Nat) : Option Instr :=
  accept (p.allows false false false .refused false false && decide (h / 8 % 64 = 0)) (c (f3 h 9))
/-- ACCCLM: the type stands in the row-block field, 0 to 2 (R189). -/
def formCLM (c : Num3 → BitVec 2 → Instr) (p : Pfx) (h : Nat) : Option Instr :=
  accept (p.allows false false false .refused false false && decide (h / 64 % 8 = 0) && decide (h / 8 % 8 ≤ 2)) (c (f3 h 9) (f2 h 3))
def formW (c : Num2 → Instr) (p : Pfx) (h : Nat) : Option Instr :=
  accept (p.allows false false false .refused false false && decide (h / 16 % 64 = 0)) (c (f2 h 10))
/-- EPEXP and EPABS: a selector in MOD spec, tb reserved (R201). -/
def formTTSEL (c : Num3 → Num3 → BitVec 4 → Instr) (p : Pfx) (h : Nat) : Option Instr :=
  accept (p.allows false false false .refused true false && p.mod.okSpec 16 && decide (h / 8 % 8 = 0))
    (c (f3 h 9) (f3 h 6) (BitVec.ofNat 4 p.mod.spec.toNat))
def formATM (c : Reg → Reg → Mod → Instr) (p : Pfx) (h : Nat) : Option Instr :=
  accept (p.allows true true false .refused true false && p.mod.okAtomic) (c (p.rD h) (p.rA h 4) p.mod)
/-- ACAS requires REX bit x (R77, R224). -/
def formACAS (c : Reg → Reg → Reg → Mod → Instr) (p : Pfx) (h : Nat) : Option Instr :=
  accept (p.allows true true false .required true false && p.mod.okAtomic) (c (p.rD h) (p.rA h 4) (p.x.getD 0) p.mod)
def formRLSN (c : Reg → Mod → Instr) (p : Pfx) (h : Nat) : Option Instr :=
  accept (p.allows false true false .refused true false && p.mod.okAtomic && decide (h / 256 % 16 = 0)) (c (p.rA h 4) p.mod)
def formFENCE (c : Mod → Instr) (p : Pfx) (h : Nat) : Option Instr :=
  accept (p.allows false false false .refused true false && p.mod.okFence && decide (h / 16 % 256 = 0)) (c p.mod)
def formWAKE (c : Reg → Reg → Mod → Instr) (p : Pfx) (h : Nat) : Option Instr :=
  accept (p.allows true true false .refused true false && p.mod.okWake) (c (p.rD h) (p.rA h 4) p.mod)
/-- APPEND and APPENDF: the op stands in MOD spec, 0 to 0xB (R238). -/
def formOP (c : Reg → Reg → BitVec 4 → Instr) (p : Pfx) (h : Nat) : Option Instr :=
  accept (p.allows true true false .refused true false && p.mod.okSpec 12) (c (p.rD h) (p.rA h 4) (BitVec.ofNat 4 p.mod.spec.toNat))
def formDE (c : Reg → Num2 → Instr) (p : Pfx) (h : Nat) : Option Instr :=
  accept (p.allows true false false .refused false false) (c (p.rD h) (f2 h 6))
/-- CAPCHK: the access kind stands in MOD spec (R202). -/
def formKIND (c : Num3 → Reg → BitVec 2 → Instr) (p : Pfx) (h : Nat) : Option Instr :=
  accept (p.allows false true false .refused true false && p.mod.okSpec 4 && !bitAt h 11)
    (c (f3 h 8) (p.rA h 4) (BitVec.ofNat 2 p.mod.spec.toNat))
/-- KVLD: [1:0] is reserved (R255). -/
def formKVW (c : Num2 → Reg → Reg → Mod → Instr) (p : Pfx) (h : Nat) : Option Instr :=
  accept (p.allows false true true .refused true false && p.mod.okLoad && decide (h % 4 = 0)) (c (f2 h 10) (p.rA h 6) (p.rB h 2) p.mod)
/-- KVST: [0] is reserved (R255). -/
def formKVTS (c : Num3 → Reg → Reg → Mod → Instr) (p : Pfx) (h : Nat) : Option Instr :=
  accept (p.allows false true true .refused true false && p.mod.okStore && decide (h % 2 = 0)) (c (f3 h 9) (p.rA h 5) (p.rB h 1) p.mod)
/-- KVMULT: [0] is reserved (R255). -/
def formKVTL (c : Num3 → Reg → Reg → Mod → Instr) (p : Pfx) (h : Nat) : Option Instr :=
  accept (p.allows false true true .refused true false && p.mod.okLoad && decide (h % 2 = 0)) (c (f3 h 9) (p.rA h 5) (p.rB h 1) p.mod)

/-- Page 0 of the opcode map (R77). -/
def decodePage0 (p : Pfx) (h : Nat) : Option Instr :=
  match h / 4096 with
  | 0 =>
    match h % 16 with
    | 0 => formRRX .add p h
    | 1 => formRRX .sub p h
    | 2 => formRRX .and p h
    | 3 => formRRX .or p h
    | 4 => formRRX .xor p h
    | 5 => formRRX .sll p h
    | 6 => formRRX .srl p h
    | 7 => formRRX .sra p h
    | 8 => formRRX .mul p h
    | 9 => formRRX .mulh p h
    | 10 => formRRX .mulhu p h
    | 11 => formRRX .div p h
    | 12 => formRRX .divu p h
    | 13 => formRRX .rem p h
    | 14 => formRRX .min p h
    | 15 => formRRX .max p h
    | _ => none
  | 1 =>
    match h % 16 with
    | 0 => formRR .mov p h
    | 1 => formRR .neg p h
    | 2 => formRR .not p h
    | 3 => formRR .clz p h
    | 4 => formRR .ctz p h
    | 5 => formRR .popc p h
    | 6 => formRR .sextb p h
    | 7 => formRR .sexth p h
    | 8 => formRR .sextw p h
    | 9 => formRR .zextw p h
    | 10 => formRR .minu p h
    | 11 => formRR .maxu p h
    | 12 => formCMP .cmpeq p h
    | 13 => formCMP .cmplt p h
    | 14 => formCMP .cmpltu p h
    | 15 => formRR .selp p h
    | _ => none
  | 2 => formDI .addi p h
  | 3 => formDI .li p h
  | 4 => formLIH .lih p h
  | 5 =>
    match h / 64 % 4 with
    | 0 => formSH .slli p h
    | 1 => formSH .srli p h
    | 2 => formSH .srai p h
    | 3 => formSH .rori p h
    | _ => none
  | 6 => formCMPI .cmpi p h
  | 7 => formBR .b p h
  | 8 => formBP .bp p h
  | 9 =>
    match h % 16 with
    | 0 => formA .jr p h
    | 1 => formRR .jalr p h
    | 2 => formNONE .ret p h
    | 3 => formNONE .nop p h
    | 9 => formNONE .stop p h
    | 4 => formPP .pand p h
    | 5 => formPP .por p h
    | 6 => formPP .pxor p h
    | 7 => formPP .pnot p h
    | 8 => formD .ptos p h
    | _ => none
  | 10 => formBR .call p h
  | 11 => formLD .ldd p h
  | 12 => formST .std p h
  | 13 => formLD .ldw p h
  | 14 => formST .stw p h
  | _ => none

/-- Page 1 of the opcode map (R77). -/
def decodePage1 (p : Pfx) (h : Nat) : Option Instr :=
  match h / 4096 with
  | 0 => formLD .ldb p h
  | 1 => formLD .ldbu p h
  | 2 => formLD .ldh p h
  | 3 => formLD .ldhu p h
  | 4 => formLD .ldwu p h
  | 5 => formST .stb p h
  | 6 => formST .sth p h
  | 7 =>
    match h % 16 with
    | 0 => formFEL .ldf p h
    | 1 => formFEL .ldfk p h
    | 2 => formFES .ste p h
    | 3 => formFES .stf p h
    | 4 => formA .feclr p h
    | 5 => formPA .feq p h
    | 6 => formNONE .invl1 p h
    | 7 => formA .pref p h
    | 8 => formA .prefl p h
    | _ => none
  | 8 =>
    match h % 2 with
    | 0 => formTABL .tld p h
    | 1 => formTABS .tst p h
    | _ => none
  | 9 =>
    match h % 2 with
    | 0 => formTABL .tlds p h
    | 1 => formTABS .tsts p h
    | _ => none
  | 10 =>
    match h % 4 with
    | 0 => formTXL .tldx p h
    | 1 => formTXS .tstx p h
    | _ => none
  | 11 =>
    match h % 16 with
    | 0 => formRR .cpy p h
    | 1 => formRR .cpy2d p h
    | 2 => formRR .cpyl p h
    | 3 => formDRAIN .drain p h
    | 4 => formRR .waitmsg p h
    | 5 => formRECV .recvmsg p h
    | 6 => formFES .sendmsg p h
    | _ => none
  | _ => none

/-- Page 2 of the opcode map (R77). -/
def decodePage2 (p : Pfx) (h : Nat) : Option Instr :=
  match h / 4096 with
  | 0 =>
    match h % 8 with
    | 0 => formTTT .tadd p h
    | 1 => formTTT .tsub p h
    | 2 => formTTT .tmul p h
    | 3 => formTTT .tmax p h
    | 4 => formTTT .tmin p h
    | 5 => formTTT .tfma p h
    | 6 => formTTT .tsel p h
    | 7 => formTTT .tcpym p h
    | _ => none
  | 1 =>
    match h % 8 with
    | 0 => formTTT .tiadd p h
    | 1 => formTTT .tisub p h
    | 2 => formTTT .timul p h
    | 3 => formTTT .tand p h
    | 4 => formTTT .tor p h
    | 5 => formTTT .txor p h
    | 6 => formTTT .tshl p h
    | 7 => formTTT .tshr p h
    | _ => none
  | 2 =>
    match h % 8 with
    | 0 => formTT .texp p h
    | 1 => formTT .texp2 p h
    | 2 => formTT .tlog2 p h
    | 3 => formTT .trcp p h
    | 4 => formTT .trsq p h
    | 5 => formTT .tabs p h
    | 6 => formTT .tneg p h
    | 7 => formTCVT .tcvt p h
    | _ => none
  | 3 =>
    match h % 8 with
    | 0 => formTT .trsum p h
    | 1 => formTT .trmax p h
    | 2 => formTT .tcsum p h
    | 3 => formTT .tcmax p h
    | 4 => formTTT .tbrow p h
    | 5 => formTTT .tbcol p h
    | 6 => formTT .ttrans p h
    | 7 => formTT .tmov p h
    | _ => none
  | 4 =>
    match h % 8 with
    | 0 => formTTT .tceq p h
    | 1 => formTTT .tclt p h
    | 2 => formTTT .tcle p h
    | 3 => formTTT .tcne p h
    | 4 => formTT .tisnan p h
    | 5 => formTTT .tcltu p h
    | 6 => formTTT .tcleu p h
    | _ => none
  | 5 =>
    match h % 32 with
    | 0 => formTS .tshape p h
    | 1 => formTS .tshget p h
    | 2 => formTS .tzero p h
    | 3 => formTS .tfill p h
    | 4 => formTS .tgete p h
    | 5 => formTS .tsete p h
    | 6 => formTS .tmaskr p h
    | 7 => formTS .tmaskc p h
    | _ => none
  | 6 =>
    match h % 4 with
    | 0 => formTTS .tadds p h
    | 1 => formTTS .tmuls p h
    | 2 => formTTS .tmaxs p h
    | 3 => formTTS .tsubs p h
    | _ => none
  | 7 =>
    match h % 16 with
    | 0 => formTC .tsadd p h
    | 1 => formTC .tsmax p h
    | 2 => formTC .tscpy p h
    | 3 => formTCT .tsfma p h
    | 4 => formTC .tsend p h
    | _ => none
  | _ => none

/-- Page 3 of the opcode map (R77). -/
def decodePage3 (p : Pfx) (h : Nat) : Option Instr :=
  match h / 4096 with
  | 0 =>
    match h % 16 with
    | 0 => formMMA .mma p h
    | 1 => formMMA .mmaz p h
    | 2 => formMMA .mmas p h
    | 3 => formMMX .mmaa p h
    | 4 => formMMX .mmax p h
    | _ => none
  | 1 =>
    match h % 4 with
    | 0 => formWABL .ldstat p h
    | 1 => formCHUNK .ldproj p h
    | 2 => formWABL .ldscl p h
    | _ => none
  | 2 =>
    match h % 8 with
    | 0 => formATR .accrd p h
    | 1 => formATR .accwr p h
    | 2 => formACC .accz p h
    | 3 => formCLM .accclm p h
    | 4 => formACC .accrel p h
    | _ => none
  | 3 =>
    match h % 16 with
    | 0 => formW .swap p h
    | 1 => formW .plclm p h
    | 2 => formW .plrel p h
    | 3 => formW .plz p h
    | _ => none
  | 4 =>
    match h % 8 with
    | 0 => formTTSEL .epexp p h
    | 1 => formTTSEL .epabs p h
    | _ => none
  | _ => none

/-- Page 4 of the opcode map (R77). -/
def decodePage4 (p : Pfx) (h : Nat) : Option Instr :=
  match h / 4096 with
  | 0 =>
    match h % 16 with
    | 0 => formATM .aadd p h
    | 1 => formATM .aand p h
    | 2 => formATM .aor p h
    | 3 => formATM .axor p h
    | 4 => formATM .amin p h
    | 5 => formATM .amax p h
    | 6 => formATM .aminu p h
    | 7 => formATM .amaxu p h
    | 8 => formATM .aswap p h
    | 9 => formACAS .acas p h
    | 10 => formATM .afadd p h
    | _ => none
  | 1 =>
    match h % 16 with
    | 0 => formATM .rsv p h
    | 1 => formATM .rls p h
    | 2 => formRLSN .rlsn p h
    | 3 => formRR .waitrs p h
    | 4 => formATM .rsvw p h
    | 5 => formFENCE .fence p h
    | _ => none
  | 2 =>
    match h % 16 with
    | 0 => formRR .bararr p h
    | 1 => formRR .barwait p h
    | 2 => formRR .barsync p h
    | 3 => formRR .barexp p h
    | 4 => formRR .barinit p h
    | 5 => formRR .barqry p h
    | _ => none
  | 3 =>
    match h % 16 with
    | 0 => formRR .waitva p h
    | 1 => formWAKE .wake p h
    | 2 => formWAKE .wakeall p h
    | _ => none
  | 4 =>
    match h % 16 with
    | 0 => formA .spawn p h
    | 1 => formA .sync p h
    | 2 => formNONE .yield p h
    | 3 => formNONE .texit p h
    | 4 => formA .pktget p h
    | _ => none
  | 5 =>
    match h % 16 with
    | 0 => formOP .append p h
    | 1 => formOP .appendf p h
    | 2 => formRR .merge p h
    | 3 => formRR .mergew p h
    | _ => none
  | 6 =>
    match h % 64 with
    | 0 => formDE .epush p h
    | 1 => formDE .epop p h
    | 2 => formDE .eqry p h
    | _ => none
  | _ => none

/-- Page 5 of the opcode map (R77). -/
def decodePage5 (p : Pfx) (h : Nat) : Option Instr :=
  match h / 4096 with
  | 0 =>
    match h % 16 with
    | 0 => formRR .krd p h
    | 1 => formRR .kwr p h
    | 2 => formA .trap p h
    | 3 => formNONE .rte p h
    | 4 => formNONE .bkpt p h
    | 5 => formRR .haltt p h
    | 6 => formRR .ctxsave p h
    | 7 => formA .ctxload p h
    | 8 => formRR .ctxout p h
    | 9 => formRR .ctxin p h
    | 10 => formRR .preempt p h
    | 11 => formA .resume p h
    | _ => none
  | 1 =>
    match h % 16 with
    | 0 => formA .cpyretry p h
    | 1 => formA .cpyskip p h
    | 2 => formA .cpyabort p h
    | _ => none
  | 2 =>
    match h % 16 with
    | 0 => formRR .chrd p h
    | 1 => formRR .adopt p h
    | 2 => formD .unadopt p h
    | 3 => formRR .metrd p h
    | 4 => formKIND .capchk p h
    | _ => none
  | _ => none

/-- Page 6 of the opcode map (R77). -/
def decodePage6 (p : Pfx) (h : Nat) : Option Instr :=
  match h / 4096 with
  | 0 => formKVW .kvld p h
  | 1 =>
    match h % 2 with
    | 0 => formKVTS .kvst p h
    | _ => none
  | 2 =>
    match h % 2 with
    | 0 => formKVTL .kvmult p h
    | _ => none
  | 3 =>
    match h % 8 with
    | 0 => formTTT .scoreb p h
    | _ => none
  | 4 =>
    match h % 8 with
    | 0 => formTTT .tripc p h
    | _ => none
  | 5 =>
    match h % 16 with
    | 0 => formRR .dmerge p h
    | _ => none
  | _ => none

/-- The judgement of a base word after its prefixes (R80): the instruction, or none where R72, R74, R76, R77, R78 or R79
makes it ILLEGAL. -/
def decodeBase (p : Pfx) (h : Nat) : Option Instr :=
  match p.page with
  | 0 => decodePage0 p h
  | 1 => decodePage1 p h
  | 2 => decodePage2 p h
  | 3 => decodePage3 p h
  | 4 => decodePage4 p h
  | 5 => decodePage5 p h
  | 6 => decodePage6 p h
  | _ => none

/-- Where decoding stands after one more word (R80). -/
inductive Decoded where
  | more (p : Pfx)
  | done (i : Instr)
  | illegal
  deriving DecidableEq, Repr

/-- One word in fetch order, `n` words having been read (R80). -/
def Pfx.feed (p : Pfx) (n h : Nat) : Decoded :=
  if h / 4096 = 15 then
    if n = 4 then .illegal
    else match p.push h with
      | some q => .more q
      | none => .illegal
  else match decodeBase p h with
    | some i => .done i
    | none => .illegal

/-- Decoding a list of words from the `n`-th on: the instruction and how many words it takes. -/
def decodeFrom (p : Pfx) (n : Nat) (ws : List H16) : Option (Instr × Nat) :=
  match ws with
  | [] => none
  | w :: rest =>
    match p.feed n w.toNat with
    | .done i => some (i, n + 1)
    | .illegal => none
    | .more q => decodeFrom q (n + 1) rest

/-- The instruction that a list of words begins with, and its length in words (R80). -/
def decode (ws : List H16) : Option (Instr × Nat) := decodeFrom Pfx.init 0 ws

/-! ## The encoder -/

/-- The fields of an encoding (R68 to R75). -/
structure Fields where
  page : Nat
  base : Nat
  x : Option Reg
  dh : Bool
  ah : Bool
  bh : Bool
  mod : Mod
  imx : List Nat
  deriving DecidableEq, Repr

/-- An encoding that needs no prefix but PAGE. -/
def Fields.bare (page base : Nat) : Fields := ⟨page, base, none, false, false, false, Mod.none, []⟩

/-- Whether a register needs its REX high bit (R72). -/
def hiOf (r : Reg) : Bool := decide (16 ≤ r.toNat)
/-- The four bits of a register field in the base word. -/
def loOf (r : Reg) : Nat := r.toNat % 16
/-- One bit as a number. -/
def bit (b : Bool) : Nat := if b then 1 else 0

/-- The fewest IMX words, 0 to 3, with which a field of `w` bits holds `v` (R88). -/
def imxCount (bareSigned : Bool) (w : Nat) (v : W64) : Nat :=
  if (if bareSigned then fitsSigned w v else decide (v.toNat < 2 ^ w)) then 0
  else if fitsSigned (w + 10) v then 1
  else if fitsSigned (w + 20) v then 2
  else 3

/-- The bodies of `n` IMX words above an own field of `w` bits, the most significant first (R71). -/
def imxBodies (n w v : Nat) : List Nat :=
  match n with
  | 0 => []
  | 1 => [v / 2 ^ w % 1024]
  | 2 => [v / 2 ^ (w + 10) % 1024, v / 2 ^ w % 1024]
  | _ => [v / 2 ^ (w + 20) % 1024, v / 2 ^ (w + 10) % 1024, v / 2 ^ w % 1024]

/-- The fewest IMX words for LIH's unsigned field (R71, R88). -/
def lihCount (v : Nat) : Nat := if v < 256 then 0 else if v < 2 ^ 18 then 1 else if v < 2 ^ 28 then 2 else 3

def encRRX (page maj fn : Nat) (d a : Reg) (x : Option Reg) : Fields :=
  { Fields.bare page (maj * 4096 + loOf d * 256 + loOf a * 16 + fn) with x := x, dh := hiOf d, ah := hiOf a }
def encRR (page maj fn : Nat) (d a : Reg) : Fields := encRRX page maj fn d a none
def encCMP (page maj fn : Nat) (p : Num3) (a : Reg) (x : Option Reg) : Fields :=
  { Fields.bare page (maj * 4096 + p.toNat * 256 + loOf a * 16 + fn) with x := x, ah := hiOf a }
def encDI (page maj _fn : Nat) (d : Reg) (imm : W64) : Fields :=
  { Fields.bare page (maj * 4096 + loOf d * 256 + imm.toNat % 256) with
    dh := hiOf d, imx := imxBodies (imxCount true 8 imm) 8 imm.toNat }
def encLIH (page maj _fn : Nat) (d : Reg) (imm : W32) : Fields :=
  { Fields.bare page (maj * 4096 + loOf d * 256 + imm.toNat % 256) with
    dh := hiOf d, imx := imxBodies (lihCount imm.toNat) 8 imm.toNat }
def encSH (page maj fn : Nat) (d : Reg) (n : BitVec 6) : Fields :=
  { Fields.bare page (maj * 4096 + loOf d * 256 + fn * 64 + n.toNat) with dh := hiOf d }
def encCMPI (page maj _fn : Nat) (p : Num3) (a : Reg) (c : BitVec 2) (imm : W64) : Fields :=
  { Fields.bare page (maj * 4096 + p.toNat * 512 + loOf a * 32 + c.toNat * 8 + imm.toNat % 8) with
    ah := hiOf a, imx := imxBodies (imxCount true 3 imm) 3 imm.toNat }
def encBR (page maj _fn : Nat) (off : W64) : Fields :=
  { Fields.bare page (maj * 4096 + off.toNat % 4096) with imx := imxBodies (imxCount true 12 off) 12 off.toNat }
def encBP (page maj _fn : Nat) (p : Num3) (sense : Bool) (off : W64) : Fields :=
  { Fields.bare page (maj * 4096 + p.toNat * 512 + bit sense * 256 + off.toNat % 256) with
    imx := imxBodies (imxCount true 8 off) 8 off.toNat }
def encA (page maj fn : Nat) (a : Reg) : Fields :=
  { Fields.bare page (maj * 4096 + loOf a * 16 + fn) with ah := hiOf a }
def encD (page maj fn : Nat) (d : Reg) : Fields :=
  { Fields.bare page (maj * 4096 + loOf d * 256 + fn) with dh := hiOf d }
def encNONE (page maj fn : Nat) : Fields := Fields.bare page (maj * 4096 + fn)
def encPP (page maj fn : Nat) (d a : Num3) : Fields := Fields.bare page (maj * 4096 + d.toNat * 256 + a.toNat * 16 + fn)
def encLD (page maj _fn : Nat) (d a : Reg) (off : W64) (m : Mod) : Fields :=
  { Fields.bare page (maj * 4096 + loOf d * 256 + loOf a * 16 + off.toNat % 16) with
    dh := hiOf d, ah := hiOf a, mod := m, imx := imxBodies (imxCount false 4 off) 4 off.toNat }
def encST (page maj fn : Nat) (d a : Reg) (off : W64) (m : Mod) : Fields := encLD page maj fn d a off m
def encFEL (page maj fn : Nat) (d a : Reg) (m : Mod) : Fields := { encRRX page maj fn d a none with mod := m }
def encFES (page maj fn : Nat) (d a : Reg) (m : Mod) : Fields := encFEL page maj fn d a m
def encPA (page maj fn : Nat) (p : Num3) (a : Reg) : Fields := encCMP page maj fn p a none
def encTABL (page maj fn : Nat) (t : Num3) (a b : Reg) (m : Mod) : Fields :=
  { Fields.bare page (maj * 4096 + t.toNat * 512 + loOf a * 32 + loOf b * 2 + fn) with ah := hiOf a, bh := hiOf b, mod := m }
def encTABS (page maj fn : Nat) (t : Num3) (a b : Reg) (m : Mod) : Fields := encTABL page maj fn t a b m
def encTXL (page maj fn : Nat) (t x : Num3) (a : Reg) (m : Mod) : Fields :=
  { Fields.bare page (maj * 4096 + t.toNat * 512 + x.toNat * 64 + loOf a * 4 + fn) with ah := hiOf a, mod := m }
def encTXS (page maj fn : Nat) (t x : Num3) (a : Reg) (m : Mod) : Fields := encTXL page maj fn t x a m
def encDRAIN (page maj fn : Nat) (path : BitVec 2) : Fields := Fields.bare page (maj * 4096 + path.toNat * 256 + fn)
def encRECV (page maj fn : Nat) (d a : Reg) (m : Mod) : Fields := encFEL page maj fn d a m
def encTTT (page maj fn : Nat) (d a b : Num3) : Fields :=
  Fields.bare page (maj * 4096 + d.toNat * 512 + a.toNat * 64 + b.toNat * 8 + fn)
def encTT (page maj fn : Nat) (d a : Num3) : Fields := Fields.bare page (maj * 4096 + d.toNat * 512 + a.toNat * 64 + fn)
def encTCVT (page maj fn : Nat) (d a : Num3) (ty : BitVec 4) : Fields :=
  { encTT page maj fn d a with mod := ⟨0, 0, BitVec.ofNat 5 ty.toNat⟩ }
def encTS (page maj fn : Nat) (t : Num3) (a : Reg) : Fields :=
  { Fields.bare page (maj * 4096 + t.toNat * 512 + loOf a * 32 + fn) with ah := hiOf a }
def encTTS (page maj fn : Nat) (d a : Num3) (b : Reg) : Fields :=
  { Fields.bare page (maj * 4096 + d.toNat * 512 + a.toNat * 64 + loOf b * 4 + fn) with ah := hiOf b }
def encTC (page maj fn : Nat) (d : Num3) (c : Num2) : Fields := Fields.bare page (maj * 4096 + d.toNat * 512 + c.toNat * 128 + fn)
def encTCT (page maj fn : Nat) (d : Num3) (c : Num2) (b : Num3) : Fields :=
  Fields.bare page (maj * 4096 + d.toNat * 512 + c.toNat * 128 + b.toNat * 16 + fn)
def encMMA (page maj fn : Nat) (a t : Num3) (w : Num2) : Fields :=
  Fields.bare page (maj * 4096 + a.toNat * 512 + t.toNat * 64 + w.toNat * 16 + fn)
def encMMX (page maj fn : Nat) (a t : Num3) (w : Num2) (sel : BitVec 4) : Fields :=
  { encMMA page maj fn a t w with mod := ⟨0, 0, BitVec.ofNat 5 sel.toNat⟩ }
def encWABL (page maj fn : Nat) (w : Num2) (a b : Reg) (m : Mod) : Fields :=
  { Fields.bare page (maj * 4096 + w.toNat * 1024 + loOf a * 64 + loOf b * 4 + fn) with ah := hiOf a, bh := hiOf b, mod := m }
def encCHUNK (page maj fn : Nat) (a b : Reg) (m : Mod) : Fields := encWABL page maj fn 0 a b m
def encATR (page maj fn : Nat) (a t rb : Num3) : Fields := encTTT page maj fn a t rb
def encACC (page maj fn : Nat) (a : Num3) : Fields := Fields.bare page (maj * 4096 + a.toNat * 512 + fn)
def encCLM (page maj fn : Nat) (a : Num3) (ty : BitVec 2) : Fields := Fields.bare page (maj * 4096 + a.toNat * 512 + ty.toNat * 8 + fn)
def encW (page maj fn : Nat) (w : Num2) : Fields := Fields.bare page (maj * 4096 + w.toNat * 1024 + fn)
def encTTSEL (page maj fn : Nat) (d a : Num3) (sel : BitVec 4) : Fields :=
  { encTT page maj fn d a with mod := ⟨0, 0, BitVec.ofNat 5 sel.toNat⟩ }
def encATM (page maj fn : Nat) (d a : Reg) (m : Mod) : Fields := encFEL page maj fn d a m
def encACAS (page maj fn : Nat) (d a b : Reg) (m : Mod) : Fields := { encRRX page maj fn d a (some b) with mod := m }
def encRLSN (page maj fn : Nat) (a : Reg) (m : Mod) : Fields := { encA page maj fn a with mod := m }
def encFENCE (page maj fn : Nat) (m : Mod) : Fields := { encNONE page maj fn with mod := m }
def encWAKE (page maj fn : Nat) (d a : Reg) (m : Mod) : Fields := encFEL page maj fn d a m
def encOP (page maj fn : Nat) (d a : Reg) (op : BitVec 4) : Fields :=
  { encRRX page maj fn d a none with mod := ⟨0, 0, BitVec.ofNat 5 op.toNat⟩ }
def encDE (page maj fn : Nat) (d : Reg) (e : Num2) : Fields :=
  { Fields.bare page (maj * 4096 + loOf d * 256 + e.toNat * 64 + fn) with dh := hiOf d }
def encKIND (page maj fn : Nat) (p : Num3) (a : Reg) (kind : BitVec 2) : Fields :=
  { encCMP page maj fn p a none with mod := ⟨0, 0, BitVec.ofNat 5 kind.toNat⟩ }
def encKVW (page maj fn : Nat) (w : Num2) (a b : Reg) (m : Mod) : Fields := encWABL page maj fn w a b m
def encKVTS (page maj _fn : Nat) (t : Num3) (a b : Reg) (m : Mod) : Fields := encTABL page maj 0 t a b m
def encKVTL (page maj _fn : Nat) (t : Num3) (a b : Reg) (m : Mod) : Fields := encTABL page maj 0 t a b m

/-- The fields of an instruction's encoding, before they are laid out in words. Operations and events have none; they are
given the encoding of no page. -/
def fieldsOf (i : Instr) : Fields :=
  match i with
  | .add d a x => encRRX 0 0 0 d a x
  | .sub d a x => encRRX 0 0 1 d a x
  | .and d a x => encRRX 0 0 2 d a x
  | .or d a x => encRRX 0 0 3 d a x
  | .xor d a x => encRRX 0 0 4 d a x
  | .sll d a x => encRRX 0 0 5 d a x
  | .srl d a x => encRRX 0 0 6 d a x
  | .sra d a x => encRRX 0 0 7 d a x
  | .mul d a x => encRRX 0 0 8 d a x
  | .mulh d a x => encRRX 0 0 9 d a x
  | .mulhu d a x => encRRX 0 0 10 d a x
  | .div d a x => encRRX 0 0 11 d a x
  | .divu d a x => encRRX 0 0 12 d a x
  | .rem d a x => encRRX 0 0 13 d a x
  | .min d a x => encRRX 0 0 14 d a x
  | .max d a x => encRRX 0 0 15 d a x
  | .mov d a => encRR 0 1 0 d a
  | .neg d a => encRR 0 1 1 d a
  | .not d a => encRR 0 1 2 d a
  | .clz d a => encRR 0 1 3 d a
  | .ctz d a => encRR 0 1 4 d a
  | .popc d a => encRR 0 1 5 d a
  | .sextb d a => encRR 0 1 6 d a
  | .sexth d a => encRR 0 1 7 d a
  | .sextw d a => encRR 0 1 8 d a
  | .zextw d a => encRR 0 1 9 d a
  | .minu d a => encRR 0 1 10 d a
  | .maxu d a => encRR 0 1 11 d a
  | .cmpeq p a x => encCMP 0 1 12 p a x
  | .cmplt p a x => encCMP 0 1 13 p a x
  | .cmpltu p a x => encCMP 0 1 14 p a x
  | .selp d a => encRR 0 1 15 d a
  | .addi d imm => encDI 0 2 0 d imm
  | .li d imm => encDI 0 3 0 d imm
  | .lih d imm => encLIH 0 4 0 d imm
  | .slli d n => encSH 0 5 0 d n
  | .srli d n => encSH 0 5 1 d n
  | .srai d n => encSH 0 5 2 d n
  | .rori d n => encSH 0 5 3 d n
  | .cmpi p a c imm => encCMPI 0 6 0 p a c imm
  | .b off => encBR 0 7 0 off
  | .bp p sense off => encBP 0 8 0 p sense off
  | .jr a => encA 0 9 0 a
  | .jalr d a => encRR 0 9 1 d a
  | .ret => encNONE 0 9 2
  | .nop => encNONE 0 9 3
  | .stop => encNONE 0 9 9
  | .pand d a => encPP 0 9 4 d a
  | .por d a => encPP 0 9 5 d a
  | .pxor d a => encPP 0 9 6 d a
  | .pnot d a => encPP 0 9 7 d a
  | .ptos d => encD 0 9 8 d
  | .call off => encBR 0 10 0 off
  | .ldd d a off m => encLD 0 11 0 d a off m
  | .ldw d a off m => encLD 0 13 0 d a off m
  | .std d a off m => encST 0 12 0 d a off m
  | .stw d a off m => encST 0 14 0 d a off m
  | .ldb d a off m => encLD 1 0 0 d a off m
  | .ldbu d a off m => encLD 1 1 0 d a off m
  | .ldh d a off m => encLD 1 2 0 d a off m
  | .ldhu d a off m => encLD 1 3 0 d a off m
  | .ldwu d a off m => encLD 1 4 0 d a off m
  | .stb d a off m => encST 1 5 0 d a off m
  | .sth d a off m => encST 1 6 0 d a off m
  | .ldf d a m => encFEL 1 7 0 d a m
  | .ldfk d a m => encFEL 1 7 1 d a m
  | .ste d a m => encFES 1 7 2 d a m
  | .stf d a m => encFES 1 7 3 d a m
  | .feclr a => encA 1 7 4 a
  | .feq p a => encPA 1 7 5 p a
  | .invl1 => encNONE 1 7 6
  | .pref a => encA 1 7 7 a
  | .prefl a => encA 1 7 8 a
  | .tld t a b m => encTABL 1 8 0 t a b m
  | .tst t a b m => encTABS 1 8 1 t a b m
  | .tlds t a b m => encTABL 1 9 0 t a b m
  | .tsts t a b m => encTABS 1 9 1 t a b m
  | .tldx t x a m => encTXL 1 10 0 t x a m
  | .tstx t x a m => encTXS 1 10 1 t x a m
  | .cpy d a => encRR 1 11 0 d a
  | .cpy2d d a => encRR 1 11 1 d a
  | .cpyl d a => encRR 1 11 2 d a
  | .drain path => encDRAIN 1 11 3 path
  | .waitmsg d a => encRR 1 11 4 d a
  | .recvmsg d a m => encRECV 1 11 5 d a m
  | .sendmsg d a m => encFES 1 11 6 d a m
  | .tadd d a b => encTTT 2 0 0 d a b
  | .tsub d a b => encTTT 2 0 1 d a b
  | .tmul d a b => encTTT 2 0 2 d a b
  | .tmax d a b => encTTT 2 0 3 d a b
  | .tmin d a b => encTTT 2 0 4 d a b
  | .tfma d a b => encTTT 2 0 5 d a b
  | .tsel d a b => encTTT 2 0 6 d a b
  | .tcpym d a b => encTTT 2 0 7 d a b
  | .tiadd d a b => encTTT 2 1 0 d a b
  | .tisub d a b => encTTT 2 1 1 d a b
  | .timul d a b => encTTT 2 1 2 d a b
  | .tand d a b => encTTT 2 1 3 d a b
  | .tor d a b => encTTT 2 1 4 d a b
  | .txor d a b => encTTT 2 1 5 d a b
  | .tshl d a b => encTTT 2 1 6 d a b
  | .tshr d a b => encTTT 2 1 7 d a b
  | .texp d a => encTT 2 2 0 d a
  | .texp2 d a => encTT 2 2 1 d a
  | .tlog2 d a => encTT 2 2 2 d a
  | .trcp d a => encTT 2 2 3 d a
  | .trsq d a => encTT 2 2 4 d a
  | .tabs d a => encTT 2 2 5 d a
  | .tneg d a => encTT 2 2 6 d a
  | .tcvt d a ty => encTCVT 2 2 7 d a ty
  | .trsum d a => encTT 2 3 0 d a
  | .trmax d a => encTT 2 3 1 d a
  | .tcsum d a => encTT 2 3 2 d a
  | .tcmax d a => encTT 2 3 3 d a
  | .tbrow d a b => encTTT 2 3 4 d a b
  | .tbcol d a b => encTTT 2 3 5 d a b
  | .ttrans d a => encTT 2 3 6 d a
  | .tmov d a => encTT 2 3 7 d a
  | .tceq d a b => encTTT 2 4 0 d a b
  | .tclt d a b => encTTT 2 4 1 d a b
  | .tcle d a b => encTTT 2 4 2 d a b
  | .tcne d a b => encTTT 2 4 3 d a b
  | .tisnan d a => encTT 2 4 4 d a
  | .tcltu d a b => encTTT 2 4 5 d a b
  | .tcleu d a b => encTTT 2 4 6 d a b
  | .tshape t a => encTS 2 5 0 t a
  | .tshget t a => encTS 2 5 1 t a
  | .tzero t a => encTS 2 5 2 t a
  | .tfill t a => encTS 2 5 3 t a
  | .tgete t a => encTS 2 5 4 t a
  | .tsete t a => encTS 2 5 5 t a
  | .tmaskr t a => encTS 2 5 6 t a
  | .tmaskc t a => encTS 2 5 7 t a
  | .tadds d a b => encTTS 2 6 0 d a b
  | .tmuls d a b => encTTS 2 6 1 d a b
  | .tmaxs d a b => encTTS 2 6 2 d a b
  | .tsubs d a b => encTTS 2 6 3 d a b
  | .tsadd d c => encTC 2 7 0 d c
  | .tsmax d c => encTC 2 7 1 d c
  | .tscpy d c => encTC 2 7 2 d c
  | .tsfma d c b => encTCT 2 7 3 d c b
  | .tsend d c => encTC 2 7 4 d c
  | .mma a t w => encMMA 3 0 0 a t w
  | .mmaz a t w => encMMA 3 0 1 a t w
  | .mmas a t w => encMMA 3 0 2 a t w
  | .mmaa a t w sel => encMMX 3 0 3 a t w sel
  | .mmax a t w sel => encMMX 3 0 4 a t w sel
  | .ldstat w a b m => encWABL 3 1 0 w a b m
  | .ldproj a b m => encCHUNK 3 1 1 a b m
  | .ldscl w a b m => encWABL 3 1 2 w a b m
  | .accrd a t rb => encATR 3 2 0 a t rb
  | .accwr a t rb => encATR 3 2 1 a t rb
  | .accz a => encACC 3 2 2 a
  | .accclm a ty => encCLM 3 2 3 a ty
  | .accrel a => encACC 3 2 4 a
  | .swap w => encW 3 3 0 w
  | .plclm w => encW 3 3 1 w
  | .plrel w => encW 3 3 2 w
  | .plz w => encW 3 3 3 w
  | .epexp d a sel => encTTSEL 3 4 0 d a sel
  | .epabs d a sel => encTTSEL 3 4 1 d a sel
  | .aadd d a m => encATM 4 0 0 d a m
  | .aand d a m => encATM 4 0 1 d a m
  | .aor d a m => encATM 4 0 2 d a m
  | .axor d a m => encATM 4 0 3 d a m
  | .amin d a m => encATM 4 0 4 d a m
  | .amax d a m => encATM 4 0 5 d a m
  | .aminu d a m => encATM 4 0 6 d a m
  | .amaxu d a m => encATM 4 0 7 d a m
  | .aswap d a m => encATM 4 0 8 d a m
  | .acas d a b m => encACAS 4 0 9 d a b m
  | .afadd d a m => encATM 4 0 10 d a m
  | .rsv d a m => encATM 4 1 0 d a m
  | .rls d a m => encATM 4 1 1 d a m
  | .rlsn a m => encRLSN 4 1 2 a m
  | .waitrs d a => encRR 4 1 3 d a
  | .rsvw d a m => encATM 4 1 4 d a m
  | .fence m => encFENCE 4 1 5 m
  | .bararr d a => encRR 4 2 0 d a
  | .barwait d a => encRR 4 2 1 d a
  | .barsync d a => encRR 4 2 2 d a
  | .barexp d a => encRR 4 2 3 d a
  | .barinit d a => encRR 4 2 4 d a
  | .barqry d a => encRR 4 2 5 d a
  | .waitva d a => encRR 4 3 0 d a
  | .wake d a m => encWAKE 4 3 1 d a m
  | .wakeall d a m => encWAKE 4 3 2 d a m
  | .spawn a => encA 4 4 0 a
  | .sync a => encA 4 4 1 a
  | .yield => encNONE 4 4 2
  | .texit => encNONE 4 4 3
  | .pktget a => encA 4 4 4 a
  | .append d a op => encOP 4 5 0 d a op
  | .appendf d a op => encOP 4 5 1 d a op
  | .merge d a => encRR 4 5 2 d a
  | .mergew d a => encRR 4 5 3 d a
  | .epush d e => encDE 4 6 0 d e
  | .epop d e => encDE 4 6 1 d e
  | .eqry d e => encDE 4 6 2 d e
  | .krd d a => encRR 5 0 0 d a
  | .kwr d a => encRR 5 0 1 d a
  | .trap a => encA 5 0 2 a
  | .rte => encNONE 5 0 3
  | .bkpt => encNONE 5 0 4
  | .haltt d a => encRR 5 0 5 d a
  | .ctxsave d a => encRR 5 0 6 d a
  | .ctxload a => encA 5 0 7 a
  | .ctxout d a => encRR 5 0 8 d a
  | .ctxin d a => encRR 5 0 9 d a
  | .preempt d a => encRR 5 0 10 d a
  | .resume a => encA 5 0 11 a
  | .cpyretry a => encA 5 1 0 a
  | .cpyskip a => encA 5 1 1 a
  | .cpyabort a => encA 5 1 2 a
  | .chrd d a => encRR 5 2 0 d a
  | .adopt d a => encRR 5 2 1 d a
  | .unadopt d => encD 5 2 2 d
  | .metrd d a => encRR 5 2 3 d a
  | .capchk p a kind => encKIND 5 2 4 p a kind
  | .kvld w a b m => encKVW 6 0 0 w a b m
  | .kvst t a b m => encKVTS 6 1 0 t a b m
  | .kvmult t a b m => encKVTL 6 2 0 t a b m
  | .scoreb d a b => encTTT 6 3 0 d a b
  | .tripc d a b => encTTT 6 4 0 d a b
  | .dmerge d a => encRR 6 5 0 d a
  | .illegalEncoding _ => Fields.bare 7 0
  | .instructionCompletion _ _ => Fields.bare 7 0
  | .slotSearch _ => Fields.bare 7 0
  | .stealProbeResult _ => Fields.bare 7 0
  | .distributorDelivery _ => Fields.bare 7 0
  | .packetAging _ _ => Fields.bare 7 0
  | .contextAging _ _ => Fields.bare 7 0
  | .queueSegmentSwapIn _ _ => Fields.bare 7 0
  | .contextMove _ => Fields.bare 7 0
  | .quantumExpiry _ _ => Fields.bare 7 0
  | .preemptReq _ _ => Fields.bare 7 0
  | .reservationTimeout _ => Fields.bare 7 0
  | .reservationGrant _ => Fields.bare 7 0
  | .feWaiterServed _ => Fields.bare 7 0
  | .waitmsgTimeout _ _ => Fields.bare 7 0
  | .waitrsTimeout _ _ => Fields.bare 7 0
  | .storePerform _ _ => Fields.bare 7 0
  | .l1Fill _ _ => Fields.bare 7 0
  | .messagePlacement _ => Fields.bare 7 0
  | .copyChunk _ _ => Fields.bare 7 0
  | .copyCompletionMessage _ _ => Fields.bare 7 0
  | .copyfaultDelivery _ _ => Fields.bare 7 0
  | .logMergeRun _ _ => Fields.bare 7 0
  | .e0Merge _ => Fields.bare 7 0
  | .gather _ => Fields.bare 7 0
  | .mergePages _ => Fields.bare 7 0
  | .setTau _ => Fields.bare 7 0
  | .allreduce _ => Fields.bare 7 0
  | .allgather _ => Fields.bare 7 0
  | .reducescatter _ => Fields.bare 7 0
  | .send _ => Fields.bare 7 0
  | .recv _ => Fields.bare 7 0
  | .pktsend _ => Fields.bare 7 0
  | .zeroingComplete _ => Fields.bare 7 0
  | .revocationSweep => Fields.bare 7 0
  | .revocationComplete => Fields.bare 7 0
  | .getInfo _ => Fields.bare 7 0
  | .worldCreate _ => Fields.bare 7 0
  | .worldAssign _ => Fields.bare 7 0
  | .worldDestroy _ => Fields.bare 7 0
  | .loadImage _ => Fields.bare 7 0
  | .launch _ => Fields.bare 7 0
  | .principalAdd _ => Fields.bare 7 0
  | .principalRevoke _ => Fields.bare 7 0
  | .ruleSet _ => Fields.bare 7 0
  | .capCreate _ => Fields.bare 7 0
  | .capDestroy _ => Fields.bare 7 0
  | .leaseRenewWorldMemory _ _ => Fields.bare 7 0
  | .leaseRenewIdeStream _ _ => Fields.bare 7 0
  | .leaseRenewContextSave _ _ => Fields.bare 7 0
  | .meterRead _ => Fields.bare 7 0
  | .checkpointSave _ => Fields.bare 7 0
  | .checkpointRestore _ => Fields.bare 7 0
  | .debugAttach _ => Fields.bare 7 0
  | .debugDetach _ => Fields.bare 7 0
  | .badOpcode _ => Fields.bare 7 0
  | .lostCommandWrite _ _ => Fields.bare 7 0
  | .commandCompletion _ => Fields.bare 7 0
  | .registerWrite _ _ => Fields.bare 7 0
  | .packetWindowWrite _ _ => Fields.bare 7 0
  | .wakeWindowWrite _ _ => Fields.bare 7 0
  | .wayMaskWrite _ _ _ => Fields.bare 7 0
  | .trapqPop _ => Fields.bare 7 0
  | .trapqClear => Fields.bare 7 0
  | .tlbinvWrite _ => Fields.bare 7 0
  | .seqRegisterWrite _ _ => Fields.bare 7 0
  | .doeDiscovery _ _ => Fields.bare 7 0
  | .getVersion _ => Fields.bare 7 0
  | .getCapabilities _ => Fields.bare 7 0
  | .negotiateAlgorithms _ _ => Fields.bare 7 0
  | .getDigests _ => Fields.bare 7 0
  | .getCertificate _ _ => Fields.bare 7 0
  | .challenge _ _ => Fields.bare 7 0
  | .getMeasurements _ _ _ => Fields.bare 7 0
  | .keyExchange _ => Fields.bare 7 0
  | .finish _ _ => Fields.bare 7 0
  | .heartbeat _ _ => Fields.bare 7 0
  | .keyUpdate _ _ => Fields.bare 7 0
  | .endSession _ _ => Fields.bare 7 0
  | .sessionTimeout _ _ => Fields.bare 7 0
  | .lockInterfaceRequest _ _ => Fields.bare 7 0
  | .startInterfaceRequest _ _ => Fields.bare 7 0
  | .stopInterfaceRequest _ _ => Fields.bare 7 0
  | .lockedConfigWrite _ => Fields.bare 7 0
  | .keyProg _ _ _ _ => Fields.bare 7 0
  | .keySetGo _ _ _ _ => Fields.bare 7 0
  | .ideKeySetSwitch _ _ => Fields.bare 7 0
  | .ideKeySetRetire _ _ => Fields.bare 7 0
  | .ideIntegrityFailure _ => Fields.bare 7 0
  | .worldKeyLeaseExpiry _ => Fields.bare 7 0
  | .ideKeySetExpiry _ _ _ => Fields.bare 7 0
  | .contextSaveKeyExpiry _ => Fields.bare 7 0
  | .linkKeyGenerationExpiry _ _ _ => Fields.bare 7 0
  | .checkpointKeyExpiry => Fields.bare 7 0
  | .powerOn _ => Fields.bare 7 0
  | .powerLoss => Fields.bare 7 0
  | .clusterEnable => Fields.bare 7 0
  | .arrayGating _ => Fields.bare 7 0
  | .throttleLevelChange _ _ _ => Fields.bare 7 0
  | .overTemperature _ _ => Fields.bare 7 0
  | .getTelemetry => Fields.bare 7 0
  | .uncore _ _ _ => Fields.bare 7 0
  | .setPowerCap _ => Fields.bare 7 0
  | .flitReceive _ _ => Fields.bare 7 0
  | .pauseFlit _ => Fields.bare 7 0
  | .resumeFlit _ => Fields.bare 7 0
  | .retireFlit _ _ => Fields.bare 7 0
  | .linkUp _ _ => Fields.bare 7 0
  | .linkDown _ => Fields.bare 7 0
  | .linkKeyRotation _ => Fields.bare 7 0
  | .collectiveFailureNotice _ _ _ _ _ => Fields.bare 7 0
  | .channelItemPlacement _ => Fields.bare 7 0
  | .cxlMemRequest _ => Fields.bare 7 0
  | .sessionAeadFailure _ _ => Fields.bare 7 0

/-- The PAGE word, where the page is not 0 (R73, R88). -/
def Fields.pageWords (f : Fields) : List Nat := if f.page = 0 then [] else [0xF800 + f.page * 4]
/-- The REX word, where a field of it is not 0 (R72, R88). -/
def Fields.rexWords (f : Fields) : List Nat :=
  match f.x with
  | some r => [0xF400 + 512 + r.toNat * 16 + bit f.dh * 8 + bit f.ah * 4 + bit f.bh * 2]
  | none => if f.dh || f.ah || f.bh then [0xF400 + bit f.dh * 8 + bit f.ah * 4 + bit f.bh * 2] else []
/-- The MOD word, where a field of it is not 0 (R74, R88). -/
def Fields.modWords (f : Fields) : List Nat :=
  if f.mod.isNone then [] else [0xFC00 + f.mod.scope.toNat * 128 + f.mod.order.toNat * 32 + f.mod.spec.toNat]

/-- The words of an encoding: PAGE, REX, MOD, IMX, and the base word (R88). -/
def Fields.words (f : Fields) : List Nat :=
  f.pageWords ++ f.rexWords ++ f.modWords ++ f.imx.map (fun b => 0xF000 + b) ++ [f.base]

/-- The words of an instruction, as the assembler emits them (R88); none for an operation or an event. -/
def encode (i : Instr) : List H16 := if i.encodable then (fieldsOf i).words.map (BitVec.ofNat 16) else []

/-! ## The opcode table's numbering -/

/-- The instruction's words in fetch order, from the number of its bits. The table prints the words of a two-word row with the
first-fetched word, a prefix, in the high half; so where the high half is a prefix word and the low half is not, the high half
comes first. DESIGN CHOICE (log 18): the spec numbers no bits across words. -/
def tableWords (nbits w : Nat) : List H16 :=
  let lo := w % 65536
  let hi := w / 65536 % 65536
  (if nbits ≤ 16 then [lo]
    else if hi / 4096 = 15 && lo / 4096 ≠ 15 then [hi, lo]
    else [lo, hi]).map (BitVec.ofNat 16)

/-- The instruction that the decoder reads from a word of the opcode table, every later bit being 0. -/
def decodeTableWord (nbits w : Nat) : Option Instr :=
  (decode (tableWords nbits w ++ [0, 0, 0])).map Prod.fst

end Sys2Proof
end

