-- ==== Sys2Proof/Machine/Fetch.lean ====
section
/-! DEFINITION. Fetching an instruction (spec 05, R80 to R84), and a machine made ready to fetch given words. -/

namespace Sys2Proof.Machine

/-- The byte that a fetch takes: the L1's copy of an HBM line where there is one, else memory; no store buffer (R84, log 13). -/
def State.fetchByte (s : State) (core loc : Nat) : Byte :=
  if isHbm loc then
    match (s.core core).l1Line (loc / 64) with
    | some l => Row64.byteAt l.data (loc % 64)
    | none => s.byte loc
  else s.byte loc

/-- One word fetched, with the checks of R81. A core keeps the words that it has fetched until INVL1, and takes them again: a store to code
is not visible to fetch without INVL1 (R84; how long a word is kept else, the schedule says, log 13). The checks are made each time; a word outside region 0b000 is not fetched (R83). An odd address is not reached by
any jump (R83); a supervisor can still write one, and it traps ALIGN (log 19). -/
def fetch16 (pc : W64) : M Nat := do
  let w ← whoMe
  if fld pc 61 3 ≠ 0 then trapXlate 5 pc
  if fld pc 0 1 ≠ 0 then trapAt Cause.align pc
  let pl ← locate w pc .exec
  let _ ← authorize w pc [.exec]
  firewall w pl pc [.exec]
  match ((← get).core w.core).code.find? (·.1 = pl.loc) with
  | some (_, h) => return h.toNat
  | none => do
    if pl.space = .hbm && (((← get).core w.core).l1Line (pl.loc / 64)).isNone then lineIn w (pl.loc / 64) pl.pin pc
    let s ← get
    let h := (s.fetchByte w.core pl.loc).toNat + 256 * (s.fetchByte w.core (pl.loc + 1)).toNat
    set (s.modCore w.core fun c => { c with code := Sparse.put c.code pl.loc (BitVec.ofNat 16 h) })
    return h

/-- The instruction from a word on, `n` words having been read (R80): what it is, and its length in bytes. Words that decode to
nothing are the operation ILLEGAL_ENCODING at the word that decided it. -/
def fetchFrom (fuel : Nat) (p : Pfx) (n : Nat) (pc : W64) : M (Instr × Nat) := do
  let here := pc + w64 (2 * n)
  match fuel with
  | 0 => return (.illegalEncoding here, 2 * n + 2)
  | f + 1 =>
    let h ← fetch16 here
    match p.feed n h with
    | .done i => return (i, 2 * n + 2)
    | .illegal => return (.illegalEncoding here, 2 * n + 2)
    | .more q => fetchFrom f q (n + 1) pc

/-- The acting thread's next instruction. -/
def fetchInstr : M (Instr × Nat) := do fetchFrom 5 Pfx.init 0 (← getMe).pc

/-- Whether a slot's thread issues: its core is enabled, it is RUN (R89) or its wait may have ended (R90), its world stands, and neither a
copy fault nor a stop waits for this instruction boundary (R141, R278). -/
def State.mayIssue (s : State) (c n : Nat) : Bool :=
  (s.core c).enabled && !(s.world (s.core c).world).stopped &&
  (decide ((s.slot c n).st = .run) || (decide ((s.slot c n).st = .wait) && (s.slot c n).reissue)) &&
  ((s.slot c n).reissue || ((s.slot c n).copyFault.isNone && decide ((s.slot c n).stopReq = .none)))

/-! ## A machine ready to fetch (log 3) -/

/-- Where `State.withWords` puts an instruction: a virtual address of world 2, mapped to the same device-physical address. -/
def wordsAt : Nat := 0x200000

/-- The words as bytes in fetch order, each little-endian (R68). -/
def wordBytes (ws : List H16) : List Byte :=
  match ws with
  | [] => []
  | w :: rest => w.setWidth 8 :: (w >>> 8).setWidth 8 :: wordBytes rest

/-- A world that lets one principal do everything: one gigabyte at device-physical 0, one capability, one rule. -/
def fetchWorld : World :=
  { World.init with
    live := true, memKey := 1, extents := [⟨0, 0, 2 ^ 30, 0⟩], caps := [⟨0, 0, 2 ^ 56, 0, 0xF, 0⟩]
    ruleSets := [(0, [⟨[1], 0xF⟩])] }

/-- Core 0 of world 2 with a task in slot 0 whose next instruction stands at `wordsAt`. -/
def fetchCore (cycle uid : Nat) : Core :=
  { Core.init with
    world := 2, enabled := true, enabledAt := cycle
    slots := [(0, { Slot.init with st := .run, pc := w64 wordsAt, chain := 1, uid := uid })] }

/-- Words stored where slot 0 of core 0 fetches next, with all that its fetch needs: world 2, its page tables (an identity map
of one gigabyte), its capability, rule, principal and chain, the firewall, and the slot's turn. -/
def State.withWords (s : State) (ws : List H16) : State :=
  let t := ((s.setWord64 0 0x100001).setWord64 0x100000 0x1F).setBytes wordsAt (wordBytes ws)
  { t with
    power := true, booted := true
    firewallR := t.firewallR ||| BitVec.twoPow 256 34
    firewallW := t.firewallW ||| BitVec.twoPow 256 34
    lineKeys := Sparse.put (Sparse.put (Sparse.put t.lineKeys 0 1) 0x4000 1) (wordsAt / 64) 1
    eccBad := [], dieTlb := [], clusterTlb := [], ruleCaches := []
    principals := Sparse.put t.principals 1 ⟨.live, 2, 0⟩
    chains := Sparse.put t.chains 1 ⟨true, 1, 0, 1, 0, 100, 0, false, 2⟩
    worlds := Sparse.put t.worlds 2 fetchWorld
    cores := Sparse.put t.cores 0 (fetchCore t.cycle t.uidCtr)
    uidCtr := t.uidCtr + 1
    schedule := [.issue 0 0 none] }

end Sys2Proof.Machine
end

