-- ==== Sys2Proof/Machine/Turn.lean ====
section
/-! DEFINITION. The turn of a thread (R80, R89, R141), and which agent moves next where the schedule does not say (log 2). -/

namespace Sys2Proof.Machine

/-- What the instruction at pc decodes to, kept while it waits: its fetch is not checked again (R80, R212). -/
def Slot.underway (sl : Slot) : Option (Instr × Nat) := if sl.reissue then sl.issued else none

/-- An instruction that issues, kept in its slot. -/
def State.issuing (s : State) (core slot : Nat) (i : Instr) (len : Nat) : State :=
  s.modSlot core slot fun sl => { sl with issued := some (i, len) }

/-- The thread in a slot issues (R80, R89): the instruction is fetched and runs; one that waited goes on as it was fetched. A slot that
may not issue leaves the state as it is. An instruction whose fetch fails a check is not counted as issued and charges no issue pip (R80 says so
of ILLEGAL words alone; DESIGN CHOICE, log 101). -/
def issueStep (core slot : Nat) (rows : Option Nat) (s : State) : Host.Outcome State Fault Refusal :=
  if !s.mayIssue core slot then .next s
  else
    match (s.slot core slot).underway with
    | some (i, len) => exec i { s with cur := ⟨core, slot, len, rows⟩ }
    | none =>
      match fetchInstr { s with cur := ⟨core, slot, 2, rows⟩ } with
      | .ok (i, len) t => exec i { t.issuing core slot i len with cur := ⟨core, slot, len, rows⟩ }
      | .error (.trap ti) t => .next (takeTrap ti t)
      | .error (.wait _) t => .next t

/-- A move: an act of one agent of the device. -/
abbrev Move := State → Host.Outcome State Fault Refusal

/-- The moves of a core's threads: each that may issue, and each whose instruction waits, with its timers. -/
def threadMoves (s : State) (c : Nat) (k : Core) : List Move :=
  k.slots.flatMap fun q =>
    (if s.mayIssue c q.1 then [issueStep c q.1 none] else []) ++
    (if q.2.st = .wait then [execInstructionCompletion c q.1] else []) ++
    (if q.2.limit.isSome then [execWaitmsgTimeout c q.1] else []) ++
    (if q.2.copyFault.isSome then [execCopyfaultDelivery c q.1] else []) ++
    (if q.2.quantum.isSome then [execQuantumExpiry c q.1] else [])

/-- The moves of a core's buffers, copies, channels and caches. -/
def coreMoves (s : State) (c : Nat) (k : Core) : List Move :=
  threadMoves s c k ++
  (List.range k.sb.length).map (execStorePerform c) ++
  (if k.fills.isEmpty then [] else [execL1Fill c 0]) ++
  (if s.net.any (fun m => decide (m.core = c)) then [execMessagePlacement c] else []) ++
  (List.range k.copies.length).flatMap (fun i => [execCopyChunk c i, execCopyCompletionMessage c i]) ++
  (if k.chanTx.isEmpty then [] else [execChannelItemPlacement c]) ++
  (if k.leaving.isEmpty then [] else [execContextMove c]) ++
  (if k.steal.isSome then [execStealProbeResult c] else if s.takesWork c then [execSlotSearch c] else []) ++
  k.cache.flatMap (fun e => [execContextAging c e.1, execWaitrsTimeout c e.1]) ++
  (List.range 4).flatMap (fun b =>
    if (vat Deque.init k.deques b).isEmpty then [] else [execPacketAging c b, execQueueSegmentSwapIn c b, execPreemptReq c b]) ++
  (if (s.segmentsAt c 4).isEmpty then [] else [execQueueSegmentSwapIn c 4]) ++
  (if k.zeroing then [execZeroingComplete c] else []) ++ [execArrayGating c]

/-- The move of the k-th engine command, by its engine and opcode (R241, R265, R302). -/
def engineMove (k : Nat) (c : EngCmd) : Move :=
  match c.engine, cmdOpcode c.header with
  | 0, _ => execE0Merge k
  | 1, 1 => execMergePages k
  | 1, _ => execSetTau k
  | 2, 1 => execAllreduce k
  | 2, 2 => execAllgather k
  | 2, 3 => execReducescatter k
  | 2, 4 => execSend k
  | 2, 5 => execRecv k
  | 2, _ => execPktsend k
  | _, _ => execGather k

/-- The moves of the units that all cores share: banks, logs, engines, the Linind unit, the distributor, the command processor and the
security processor's timers. -/
def deviceMoves (s : State) : List Move :=
  s.banks.flatMap (fun e => [execReservationGrant e.1, execReservationTimeout e.1]) ++
  s.feWaiters.map (fun e => execFeWaiterServed e.1) ++
  s.worlds.flatMap (fun e =>
    (if e.2.launch.isEmpty && decide (e.2.ringLen = 0) then [] else [execDistributorDelivery e.1]) ++ e.2.logs.map (fun l => execLogMergeRun e.1 l.1) ++
    [execWorldKeyLeaseExpiry e.1]) ++
  s.engCmds.mapIdx engineMove ++
  (if s.sweep.isSome then [execRevocationSweep, execRevocationComplete]
    else if s.revocations.isEmpty then [] else [execRevocationSweep]) ++
  s.fns.flatMap (fun e =>
    (if e.2.pending.isSome then [execCommandCompletion e.1] else []) ++ e.2.sessions.map (fun x => execSessionTimeout e.1 x.id) ++
    [0, 1].flatMap fun i => [execIdeKeySetExpiry e.1 i false, execIdeKeySetExpiry e.1 i true, execIdeKeySetRetire e.1 i]) ++
  s.ports.flatMap (fun e => [execLinkKeyRotation e.1] ++
    [true, false].flatMap fun rx => [true, false].map fun g => execLinkKeyGenerationExpiry e.1 rx g) ++
  [execClusterEnable, execCheckpointKeyExpiry]

/-- What can happen now without the host, a peer or the environment: each entry moves one agent. One whose condition does not hold
leaves the state as it is. -/
def State.moves (s : State) : List Move := s.cores.flatMap (fun e => coreMoves s e.1 e.2) ++ deviceMoves s

/-- The default rotation: the moves in turn. -/
def State.autoStep (s : State) : Host.Outcome State Fault Refusal :=
  match s.moves[s.turnPtr % s.moves.length]? with
  | some a => a { s with turnPtr := s.turnPtr + 1 }
  | none => .next s

end Sys2Proof.Machine
end

