-- ==== Sys2Proof/Machine/Step.lean ====
section
/-! DEFINITION. One step of the machine: the next act of the schedule, or of the default rotation (log 2). -/

namespace Sys2Proof.Machine

/-- One act. -/
def actStep (a : Act) (s : State) : Host.Outcome State Fault Refusal :=
  match a with
  | .issue c n rows => issueStep c n rows s
  | .event e => exec e s
  | .same e => exec e s
  | .pass k => .next (s.elapse k)
  | .tick us => .next { s with meridian := s.meridian + us }
  | .upset line => .next (s.upset line)
  | .forget c loc => .next (s.modCore c fun k => { k with code := Sparse.drop k.code loc })

/-- Whether an act needs no power. -/
def Act.needsNoPower (a : Act) : Bool :=
  match a with
  | .event (.powerOn _) => true
  | _ => false

/-- The cycles that pass with an act. -/
def Act.cycles (a : Act) : Nat :=
  match a with
  | .same _ => 0
  | _ => 1

/-- One step: the first act of the schedule, or, with none left, the default rotation's; one cycle passes with it, but for an act that
the schedule puts into the cycle of the one before. Without power
nothing moves but POWER_ON (R41, R310). -/
def step (s : State) : Host.Outcome State Fault Refusal :=
  match s.schedule with
  | a :: rest =>
    if s.power || a.needsNoPower then actStep a { s.elapse a.cycles with schedule := rest } else .fault .noPower
  | [] => if s.power then (s.elapse 1).autoStep else .fault .noPower

/-- The machine that fetches a word of the opcode table next (log 3, log 18). -/
def State.withFetchWord (s : State) (nbits w : Nat) : State := s.withWords (tableWords nbits w)

end Sys2Proof.Machine
end

