-- ==== Sys2Proof/Safety.lean ====
section
/-! DEFINITION. What counts as a safe run, and the words in which claims speak of one step: operands, ports, where a slot goes,
and what an instruction leaves alone. -/

namespace Sys2Proof

open Machine

/-- A step that neither faults nor is refused. -/
def Safe (s : State) : Prop := ∃ t, step s = .next t

namespace Machine

/-- Memory in its canonical form: locations strictly rising, none listed at the value an unlisted one reads as (log 4). -/
abbrev State.MemoryWf (s : State) : Prop := Sparse.wf unlistedByte s.mem = true

/-! ## Operands -/

/-- The value that a source register gives the acting thread: s0 reads 0, and so does qo where it is a port (R85, R102). -/
def State.src (s : State) (r : Reg) : W64 := if r = qo && s.myCore.portOut s.cur.slot then 0 else s.me.reg r

/-- A register of the acting thread written (R85, R102). -/
def State.writeMine (s : State) (r : Reg) (v : W64) : State := s.writeReg s.cur.core s.cur.slot r v

/-- An instruction that pops no queue port and pushes to none (R102). -/
abbrev NoPort (s : State) (srcs : List Reg) (dst : Option Reg) : Prop :=
  ¬(s.myCore.portIn s.cur.slot = true ∧ qi ∈ srcs) ∧ ¬(s.myCore.portOut s.cur.slot = true ∧ dst = some qo)

/-- The acting thread, as the maker of an access. -/
def State.who (s : State) : Who := ⟨s.cur.core, s.cur.slot, s.myWorld, fld s.me.chain 0 16⟩

/-! ## Where the slot goes (R90) -/

/-- To an address, ready to issue at its next turn. -/
def State.goTo (s : State) (pc : W64) : State := s.modMe fun sl => sl.after pc .run .none
/-- To an address, out of the rotation until the completion time. -/
def State.goToLater (s : State) (pc : W64) : State := s.modMe fun sl => sl.after pc .wait .complete
/-- The address behind the acting thread's instruction. -/
def State.behind (s : State) : W64 := s.me.pc + w64 s.cur.len
/-- A scalar instruction has completed. -/
def State.advance (s : State) : State := s.goTo s.behind
/-- A waiting instruction has had its effect. -/
def State.finish (s : State) : State := s.goToLater s.behind
/-- The instruction at pc waits. -/
def State.waitIn (s : State) (w : Wait) : State := s.modMe fun sl => { sl with st := .wait, waiting := w, reissue := false }

/-- A capability's charge, once an instruction (R20). -/
def State.chargeOnce (s : State) (cap : Cap) : State :=
  if s.me.charged.contains cap.id then s
  else (s.chargeSlot s.cur.core s.cur.slot cap.charge).modMe fun sl => { sl with charged := cap.id :: sl.charged }
def State.chargeAll (s : State) (caps : List Cap) : State := caps.foldl State.chargeOnce s

/-- What an acquire does here: at cluster scope or wider the core's L1 is emptied (R113, R245). -/
def State.acquired (s : State) (order : BitVec 2) (scope : Nat) : State :=
  if order.getLsbD 0 && decide (2 ≤ scope) then s.modMyCore (·.invalidateL1) else s

/-! ## What an instruction leaves alone -/

/-- Every field of the machine but the cores', and every core but the acting one, is as before. -/
def OtherCoresSame (s t : State) : Prop :=
  t = { s with cores := t.cores } ∧ ∀ c, c ≠ s.cur.core → t.core c = s.core c

/-- In the acting core nothing has changed but its event counters and the slots, and of these only the acting one. -/
def OtherSlotsSame (s t : State) : Prop :=
  t.myCore = { s.myCore with slots := t.myCore.slots, evcnt := t.myCore.evcnt } ∧
  ∀ n, n ≠ s.cur.slot → t.myCore.slot n = s.myCore.slot n

/-- In the acting slot nothing has changed but the scalar registers, the predicates, the pc, the slot's place in the rotation, and the
account of the instruction. -/
def ScalarStateOnly (s t : State) : Prop :=
  t.me = { s.me with
    s := t.me.s, p := t.me.p, pc := t.me.pc, st := t.me.st, waiting := t.me.waiting, reissue := t.me.reissue
    charged := t.me.charged, limit := t.me.limit, popped := t.me.popped, spawning := t.me.spawning, meter := t.me.meter
    issuedAt := t.me.issuedAt, fpcAt := t.me.fpcAt }

/-- Every byte of memory reads as before. -/
def SameMemory (s t : State) : Prop := ∀ loc, t.byte loc = s.byte loc

/-- Every scalar register but those of a list reads as before. -/
def SameRegs (s t : State) (but : List Reg) : Prop := ∀ r, r ∉ but → t.me.reg r = s.me.reg r
def SamePreds (s t : State) : Prop := t.me.p = s.me.p

/-! ## What the checks and reads of an access do -/

/-- The state a computation leaves, whether it succeeds, traps or waits. -/
def left {α : Type} (r : EStateM.Result Stop State α) : State :=
  match r with
  | .ok _ t => t
  | .error _ t => t

/-- What the checks and reads of an access by a world may change: the caches of lines, translations, capabilities and rules, the
counters of events, and the bytes of an HBM line that passes by chance under a key that did not write it (R323, log 6). -/
structure Touched (w : Nat) (s t : State) : Prop where
  device : t = { s with
    mem := t.mem, lineKeys := t.lineKeys, freeCtr := t.freeCtr, l2 := t.l2, msc := t.msc, dieTlb := t.dieTlb
    clusterTlb := t.clusterTlb, ruleCaches := t.ruleCaches, cores := t.cores }
  core : ∀ c, t.core c = { s.core c with
    tlb := (t.core c).tlb, capCache := (t.core c).capCache, l1 := (t.core c).l1, fills := (t.core c).fills
    evcnt := (t.core c).evcnt }
  key : ∀ line, Sparse.get 0 t.lineKeys line = Sparse.get 0 s.lineKeys line ∨
    Sparse.get 0 t.lineKeys line = (s.world w).memKey
  byte : ∀ loc, t.byte loc = s.byte loc ∨
    (isHbm loc = true ∧ Sparse.get 0 s.lineKeys (loc / 64) ≠ (s.world w).memKey)
  memory : s.MemoryWf → t.MemoryWf

/-! ## Where an access passes its checks (R99) -/

/-- Where an address lies for an access that needs no walk: in a window of the core's own, its cluster's or the chip's, or at an address whose
translation stands in the core's TLB and allows the access (R99, R120, R122). -/
def Stands (s : State) (w : Who) (a : W64) (k : Kind) (pl : Place) : Prop :=
  (fld a 61 3 = 6 ∧ fld a 58 3 ≤ 2 ∧ locate w a k s = .ok pl s) ∨
  ∃ va t loc, ((fld a 56 8 = 0 ∧ va = fld a 0 56) ∨ (fld a 61 3 = 5 ∧ resolveSeq w a s = .ok va s)) ∧
    (s.core w.core).tlb.find? (·.covers w.world va) = some t ∧ t.allows k = true ∧ s.wpaToDpa w.world (t.wpaOf va) = some loc ∧
    pl = ⟨if isHbm loc then .hbm else .host, loc, w.world, t.nol1, t.pin⟩

/-- The chain of an access has the authority for it (R17, R19, R209): from the capability, from the rules, and from every line of them that
its cluster's rule cache holds. -/
def Granted (s : State) (w : Who) (a : W64) (k : Kind) (cap : Cap) : Prop :=
  s.capOf w.world a = some cap ∧ permits cap.perms k = true ∧ (s.chain w.cix).revoked = false ∧
  permits (s.rulesGrant w.world cap.ruleset w.cix) k = true ∧
  ∀ x ∈ Sparse.get [] s.ruleCaches (clusterOf w.core), x.world = w.world → x.ruleset = cap.ruleset → x.cix = w.cix →
    permits x.perms k = true

/-- A line of HBM that reads back under a world's key: the lease runs, the line was written under that key, and ECC finds it good (R44, R53). -/
def Sound (s : State) (world line : Nat) : Prop :=
  s.keyDead world = false ∧ (s.world world).memKey ≠ 0 ∧ Sparse.get 0 s.lineKeys line = (s.world world).memKey ∧ line ∉ s.eccBad

/-- An access at an address passes R99. -/
def Passes (s : State) (w : Who) (a : W64) (k : Kind) (pl : Place) : Prop :=
  Stands s w a k pl ∧ (∃ cap, Granted s w a k cap) ∧ s.fwAllows w.world pl.owner k = true ∧ (pl.space = .hbm → Sound s w.world (pl.loc / 64))

/-- Every piece of spans of elements of z bytes passes. -/
def AllPass (s : State) (w : Who) (z : Nat) (k : Kind) (spans : List (W64 × Nat)) : Prop :=
  ∀ q ∈ spans, ∀ p ∈ spanPieces q.1 q.2, p.1.toNat % z = 0 ∧ ∃ pl, Passes s w p.1 k pl

/-- The bytes of pieces, as `get` reads them at their locations. -/
def seenIn (s : State) (w : Who) (get : Nat → Byte) (pieces : List (W64 × Nat)) : List Byte :=
  pieces.flatMap fun p => match locate w p.1 .read s with
    | .ok pl _ => (List.range p.2).map fun i => get (pl.loc + i)
    | .error _ _ => []

/-- The bytes of a span. -/
def seen (s : State) (w : Who) (get : Nat → Byte) (ea : W64) (n : Nat) : List Byte := seenIn s w get (spanPieces ea n)

/-- What leaves every access of a maker that passes as one that passes. -/
def Steady (w : Who) (s t : State) : Prop := ∀ a k pl, Passes s w a k pl → Passes t w a k pl

end Machine

end Sys2Proof
end

