-- ==== Sys2Proof/Certificates/Slice0/Obligations.lean ====
section
/-! DEFINITION. The statements for the provers. Each says which rules of the spec it formalises. A statement of several parts is the conjunction
of parts that stand under Sys2Proof.Claims. -/

open Sys2Proof Sys2Proof.Machine

/-! ## Scalar instructions (spec 06) -/

namespace Sys2Proof.Claims

/-- The instructions of two operands with what they write (R93): the low 64 bits, the upper half of a product of 128, the quotients and
remainders of two's-complement and unsigned division with their values at a divisor of 0. -/
def twoSource : List ((Reg → Reg → Option Reg → Instr) × (W64 → W64 → W64)) :=
  [(.add, fun x y => x + y), (.sub, fun x y => x - y), (.and, fun x y => x &&& y), (.or, fun x y => x ||| y),
    (.xor, fun x y => x ^^^ y), (.sll, fun x y => x <<< (y.toNat % 64)), (.srl, fun x y => x >>> (y.toNat % 64)),
    (.sra, fun x y => x.sshiftRight (y.toNat % 64)), (.mul, fun x y => x * y),
    (.mulh, fun x y => (x.signExtend 128 * y.signExtend 128).extractLsb' 64 64),
    (.mulhu, fun x y => (x.setWidth 128 * y.setWidth 128).extractLsb' 64 64),
    (.div, fun x y => if y = 0 then BitVec.allOnes 64 else x.sdiv y), (.divu, fun x y => if y = 0 then BitVec.allOnes 64 else x / y),
    (.rem, fun x y => if y = 0 then x else x.srem y), (.min, fun x y => if y.slt x then y else x),
    (.max, fun x y => if x.slt y then y else x)]

/-- The two values that an instruction of two operands works on: d and a, or, with REX xreg, a and that register (R93). -/
def operands (s : State) (d a : Reg) (x : Option Reg) : W64 × W64 :=
  match x with
  | none => (s.src d, s.src a)
  | some b => (s.src a, s.src b)

/-- The sources it names. -/
def sources (d a : Reg) (x : Option Reg) : List Reg :=
  match x with
  | none => [d, a]
  | some b => [a, b]

/-- The instruction at pc waits to run again; a word that its port has popped is back in the queue (R102). -/
def again (s t : State) (w : Wait) : State :=
  ((t.modMyCore fun k => { k with inq := s.myCore.inq }).modMe fun sl => { sl with popped := none }).waitIn w

/-- A number of leading zero bits, 64 for 0. -/
def LeadingZeros (x v : W64) : Prop :=
  v.toNat ≤ 64 ∧ (∀ i, 64 - v.toNat ≤ i → i < 64 → x.getLsbD i = false) ∧ (v.toNat < 64 → x.getLsbD (63 - v.toNat) = true)

/-- A number of trailing zero bits, 64 for 0. -/
def TrailingZeros (x v : W64) : Prop :=
  v.toNat ≤ 64 ∧ (∀ i, i < v.toNat → x.getLsbD i = false) ∧ (v.toNat < 64 → x.getLsbD v.toNat = true)

/-- The instructions of one operand with the relation of operand and result (R94). -/
def oneSource : List ((Reg → Reg → Instr) × (W64 → W64 → Prop)) :=
  [(.mov, fun x v => v = x), (.neg, fun x v => v = -x), (.not, fun x v => v = ~~~x), (.clz, LeadingZeros), (.ctz, TrailingZeros),
    (.popc, fun x v => v.toNat = (Finset.univ.filter fun i : Fin 64 => x.getLsbD i = true).card),
    (.sextb, fun x v => v.toInt = (x.setWidth 8).toInt), (.sexth, fun x v => v.toInt = (x.setWidth 16).toInt),
    (.sextw, fun x v => v.toInt = (x.setWidth 32).toInt), (.zextw, fun x v => v.toNat = x.toNat % 2 ^ 32)]

/-- MINU and MAXU take d as their second operand. -/
def unsignedPick : List ((Reg → Reg → Instr) × (W64 → W64 → W64)) :=
  [(.minu, fun x y => if y < x then y else x), (.maxu, fun x y => if x < y then y else x)]

/-- The compares (R94). -/
def compares : List ((Num3 → Reg → Option Reg → Instr) × (W64 → W64 → Bool)) :=
  [(.cmpeq, fun x y => x == y), (.cmplt, fun x y => x.slt y), (.cmpltu, fun x y => x.ult y)]

/-- The predicate instructions (R96). -/
def predOps : List ((Num3 → Num3 → Instr) × (Bool → Bool → Bool)) :=
  [(.pand, fun x y => x && y), (.por, fun x y => x || y), (.pxor, fun x y => x != y), (.pnot, fun _ y => !y)]

/-- The shifts by an immediate count (R95). -/
def immShifts : List ((Reg → BitVec 6 → Instr) × (W64 → Nat → W64)) :=
  [(.slli, fun x n => x <<< n), (.srli, fun x n => x >>> n), (.srai, fun x n => x.sshiftRight n), (.rori, fun x n => x.rotateRight n)]

end Sys2Proof.Claims

open Sys2Proof.Claims

/-- R93: an instruction of two operands reads both, then writes d, and the thread stays ready behind it (R90). Forms that use a queue
port are those of `QueuePorts`. -/
def Sys2Proof.Claims.TwoSourceArithmetic : Prop :=
  ∀ q ∈ twoSource, ∀ (s : State) (d a : Reg) (x : Option Reg), NoPort s (sources d a x) (some d) →
    exec (q.1 d a x) s = .next ((s.issue.writeMine d (q.2 (operands s d a x).1 (operands s d a x).2)).advance)

/-- R94: moves, negation, bit counts and extensions, MINU and MAXU. -/
def Sys2Proof.Claims.OneSourceArithmetic : Prop :=
  (∀ q ∈ oneSource, ∀ (s : State) (d a : Reg), NoPort s [a] (some d) →
    ∃ v, q.2 (s.src a) v ∧ exec (q.1 d a) s = .next ((s.issue.writeMine d v).advance)) ∧
  ∀ q ∈ unsignedPick, ∀ (s : State) (d a : Reg), NoPort s [d, a] (some d) →
    exec (q.1 d a) s = .next ((s.issue.writeMine d (q.2 (s.src d) (s.src a))).advance)

/-- R94, R96: the compares write a predicate, their second operand being REX xreg or zero; SELP writes d only where p0 is true; the
predicate instructions and PTOS. -/
def Sys2Proof.Claims.Predicates : Prop :=
  (∀ q ∈ compares, ∀ (s : State) (p : Num3) (a : Reg) (x : Option Reg), NoPort s (a :: x.toList) none →
    exec (q.1 p a x) s =
      .next ((s.issue.modMe (·.setPred p (q.2 (s.src a) (match x with | some b => s.src b | none => 0)))).advance)) ∧
  (∀ (s : State) (d a : Reg), NoPort s [a] (some d) →
    exec (.selp d a) s = .next ((if s.me.pred 0 then s.issue.writeMine d (s.src a) else s.issue).advance)) ∧
  (∀ q ∈ predOps, ∀ (s : State) (d a : Num3),
    exec (q.1 d a) s = .next ((s.issue.modMe (·.setPred d (q.2 (s.me.pred d) (s.me.pred a)))).advance)) ∧
  ∀ (s : State) (d : Reg), NoPort s [] (some d) →
    ∃ v : W64, (∀ i : Fin 64, v.getLsbD i = if h : i.val < 8 then s.me.p[i.val] else false) ∧
      exec (.ptos d) s = .next ((s.issue.writeMine d v).advance)

/-- R95: the immediate forms. LIH replaces bits [63:32]; CMPI tests by its condition. -/
def Sys2Proof.Claims.Immediates : Prop :=
  (∀ (s : State) (d : Reg) (imm : W64), NoPort s [d] (some d) →
    exec (.addi d imm) s = .next ((s.issue.writeMine d (s.src d + imm)).advance)) ∧
  (∀ (s : State) (d : Reg) (imm : W64), NoPort s [] (some d) → exec (.li d imm) s = .next ((s.issue.writeMine d imm).advance)) ∧
  (∀ (s : State) (d : Reg) (imm : W32), NoPort s [d] (some d) →
    ∃ v : W64, v.toNat = imm.toNat * 2 ^ 32 + (s.src d).toNat % 2 ^ 32 ∧
      exec (.lih d imm) s = .next ((s.issue.writeMine d v).advance)) ∧
  (∀ q ∈ immShifts, ∀ (s : State) (d : Reg) (n : BitVec 6), NoPort s [d] (some d) →
    exec (q.1 d n) s = .next ((s.issue.writeMine d (q.2 (s.src d) n.toNat)).advance)) ∧
  ∀ (s : State) (p : Num3) (a : Reg) (c : BitVec 2) (imm : W64), NoPort s [a] none →
    exec (.cmpi p a c imm) s = .next ((s.issue.modMe (·.setPred p
      (match c.toNat with
        | 0 => s.src a == imm
        | 1 => (s.src a).slt imm
        | 2 => (s.src a).ult imm
        | _ => s.src a != imm))).advance)

/-- R83, R96, R98: the jumps, branches and CALL, and NOP. A target is an address of region 0b000 without bit [0]; the link is the address
behind the instruction. -/
def Sys2Proof.Claims.JumpsAndBranches : Prop :=
  (∀ (s : State) (a : Reg), NoPort s [a] none → flag (s.src a) 0 = false → fld (s.src a) 56 8 = 0 →
    exec (.jr a) s = .next (s.issue.goTo (s.src a))) ∧
  (∀ (s : State) (d a : Reg), NoPort s [a] (some d) → flag (s.src a) 0 = false → fld (s.src a) 56 8 = 0 →
    exec (.jalr d a) s = .next ((s.issue.writeMine d s.behind).goTo (s.src a))) ∧
  (∀ s : State, flag (s.src 28) 0 = false → fld (s.src 28) 56 8 = 0 → exec .ret s = .next (s.issue.goTo (s.src 28))) ∧
  (∀ (s : State) (off : W64), exec (.b off) s = .next (s.issue.goTo (s.me.pc + 2 * off))) ∧
  (∀ (s : State) (p : Num3) (sense : Bool) (off : W64),
    exec (.bp p sense off) s = .next (if s.me.pred p = sense then s.issue.goTo (s.me.pc + 2 * off) else s.issue.advance)) ∧
  (∀ (s : State) (off : W64),
    exec (.call off) s = .next ((s.issue.modMe (·.setReg 28 s.behind)).goTo (s.me.pc + 2 * off))) ∧
  ∀ s : State, exec .nop s = .next s.issue.advance

/-- R83: a jump whose target has bit [0] traps ALIGN, and one whose bits [63:56] are not zero XLATE; k.tval holds the target, and the link
register is not written. -/
def Sys2Proof.Claims.JumpTargetTraps : Prop :=
  ∀ (s : State) (a d : Reg), NoPort s [a] (some d) →
    (flag (s.src a) 0 = true →
      exec (.jr a) s = .next (takeTrap ⟨Cause.align, s.src a, 0, 0xFFFF⟩ s.issue) ∧
      exec (.jalr d a) s = .next (takeTrap ⟨Cause.align, s.src a, 0, 0xFFFF⟩ s.issue)) ∧
    (flag (s.src a) 0 = false → fld (s.src a) 56 8 ≠ 0 →
      exec (.jr a) s = .next (takeTrap ⟨Cause.xlate, s.src a, 0, w64 (5 * 2 ^ 60 + 0xFFFF)⟩ s.issue) ∧
      exec (.jalr d a) s = .next (takeTrap ⟨Cause.xlate, s.src a, 0, w64 (5 * 2 ^ 60 + 0xFFFF)⟩ s.issue)) ∧
    (flag (s.src 28) 0 = true → exec .ret s = .next (takeTrap ⟨Cause.align, s.src 28, 0, 0xFFFF⟩ s.issue)) ∧
    (flag (s.src 28) 0 = false → fld (s.src 28) 56 8 ≠ 0 →
      exec .ret s = .next (takeTrap ⟨Cause.xlate, s.src 28, 0, w64 (5 * 2 ^ 60 + 0xFFFF)⟩ s.issue))

/-- R102: a source qi at the port takes the oldest inbound word, which every field that names it reads; a destination qo at the port pushes
to the downstream core; either makes the instruction a waiting one. Without a word, or without room, it waits; a downstream core of another
world traps FIREWALL. -/
def Sys2Proof.Claims.QueuePorts : Prop :=
  (∀ q ∈ twoSource, ∀ (s : State) (d a : Reg) (x : Option Reg) (v : W64) (rest : List W64),
    s.myCore.portIn s.cur.slot = true → qi ∈ sources d a x → ¬(s.myCore.portOut s.cur.slot = true ∧ d = qo) →
    s.myCore.inq = v :: rest →
    ∃ t : State, t = ((s.issue.modMyCore fun k => { k with inq := rest }).modMe fun sl => { sl with s := sl.s.set 30 v }) ∧
      t.src qi = v ∧
      exec (q.1 d a x) s = .next ((t.writeMine d (q.2 (operands t d a x).1 (operands t d a x).2)).finish)) ∧
  (∀ q ∈ twoSource, ∀ (s : State) (d a : Reg) (x : Option Reg), s.myCore.portIn s.cur.slot = true → qi ∈ sources d a x →
    ¬(s.myCore.portOut s.cur.slot = true ∧ d = qo) → s.myCore.inq = [] →
    exec (q.1 d a x) s = .next (again s s.issue (.blocked true))) ∧
  (∀ (s : State) (a : Reg), s.myCore.portOut s.cur.slot = true → ¬(s.myCore.portIn s.cur.slot = true ∧ a = qi) →
    (s.core (downstream s.cur.core)).world = s.myWorld →
    ((s.core (downstream s.cur.core)).inq.length < 16 →
      exec (.mov qo a) s =
        .next ((s.issue.modCore (downstream s.cur.core) fun k => { k with inq := k.inq ++ [s.src a] }).finish)) ∧
    (16 ≤ (s.core (downstream s.cur.core)).inq.length → exec (.mov qo a) s =
      .next (again s s.issue (.blocked true)))) ∧
  ∀ (s : State) (a : Reg), s.myCore.portOut s.cur.slot = true → (s.core (downstream s.cur.core)).world ≠ s.myWorld →
    exec (.mov qo a) s = .next (takeTrap ⟨Cause.firewall, w64 (downstream s.cur.core), 0, 0xFFFF⟩ s.issue)

/-- R85, R102: a register written: s0 discards, qi as a port discards, qo as a port pushes, any other register holds the value and no other
register of any slot changes. -/
def Sys2Proof.Claims.RegisterWrite : Prop :=
  ∀ (s : State) (c n : Nat) (r : Reg) (v : W64),
    (r = 0 → s.writeReg c n r v = s ∨ (s.writeReg c n r v).slot c n = s.slot c n) ∧
    (r = qi → (s.core c).portIn n = true → s.writeReg c n r v = s) ∧
    (r = qo → (s.core c).portOut n = true →
      ((s.writeReg c n r v).core (downstream c)).inq = (s.core (downstream c)).inq ++ [v] ∧
      (∀ m, ((s.writeReg c n r v).slot c m) = s.slot c m)) ∧
    (r ≠ 0 → ¬(r = qi ∧ (s.core c).portIn n = true) → ¬(r = qo ∧ (s.core c).portOut n = true) →
      ((s.writeReg c n r v).slot c n).reg r = v ∧
      (∀ q, q ≠ r → ((s.writeReg c n r v).slot c n).reg q = (s.slot c n).reg q) ∧
      (∀ m, m ≠ n → (s.writeReg c n r v).slot c m = s.slot c m) ∧ (s.writeReg c n r v).mem = s.mem)

/-! ## Memory (spec 07, 08, 16) -/

namespace Sys2Proof.Claims

/-- The scalar loads with their sizes in bytes and extensions (R125). -/
def loads : List ((Reg → Reg → W64 → Mod → Instr) × Nat × (Nat → W64)) :=
  [(.ldd, 8, fun v => BitVec.ofNat 64 v), (.ldw, 4, fun v => (BitVec.ofNat 32 v).signExtend 64),
    (.ldwu, 4, fun v => (BitVec.ofNat 32 v).setWidth 64), (.ldh, 2, fun v => (BitVec.ofNat 16 v).signExtend 64),
    (.ldhu, 2, fun v => (BitVec.ofNat 16 v).setWidth 64), (.ldb, 1, fun v => (BitVec.ofNat 8 v).signExtend 64),
    (.ldbu, 1, fun v => (BitVec.ofNat 8 v).setWidth 64)]

/-- The scalar stores with their sizes (R125). -/
def stores : List ((Reg → Reg → W64 → Mod → Instr) × Nat) := [(.std, 8), (.stw, 4), (.sth, 2), (.stb, 1)]

/-- The read that a store to an HBM line needs before it (R324). -/
def readForStore (w : Who) (pl : Place) (ea : W64) (s t : State) : Prop :=
  if pl.space = .hbm then lineIn w (pl.loc / 64) pl.pin ea s = .ok () t else t = s

/-- The entry that a store of the acting thread makes in the store buffer (R244). -/
def entryOf (s t : State) (pl : Place) (bs : List Byte) : SbEntry :=
  { slot := s.cur.slot, uid := t.me.uid, world := s.myWorld, targets := [targetOf pl]
    pins := (pl.pin.map fun n => (pl.loc / 64, n)).toList, bytes := cellsAt pl.loc bs, atBank := false }

/-- The state in which an instruction that never waits acts on a full/empty word: the thread's own stores to the word have been performed,
and the waiting requests that the word's bit admits have been served (R127). -/
def atWord (s v : State) (loc : Nat) : State :=
  (v.performWord s.cur.core s.cur.slot loc).feServeAll loc ((v.performWord s.cur.core s.cur.slot loc).feQueue loc).length

/-- A request of the acting thread at a full/empty word. -/
def feReq (s : State) (kind : FeKind) (d : Reg) (v : W64) (m : Mod) (cap : Option Cap) : FeReq :=
  ⟨s.cur.core, s.cur.slot, kind, d, v, m.order, m.scope, s.cur.len, match cap with | some c => c.charge | none => 0⟩

/-- The full/empty instructions that can wait: kind, kinds of access, sources, destination. -/
def feWaiting : List ((Reg → Reg → Mod → Instr) × FeKind × List Kind) :=
  [(.ldf, .ldf, [.read, .write]), (.ldfk, .ldfk, [.read]), (.ste, .ste, [.write])]

def feSources (k : FeKind) (d a : Reg) : List Reg := if k = .ste then [d, a] else [a]
def feDest (k : FeKind) (d : Reg) : Option Reg := if k = .ste then none else some d

/-- Charged for a capability, where the access had one. -/
def chargeOpt (s : State) (cap : Option Cap) : State :=
  match cap with
  | some c => s.chargeOnce c
  | none => s

end Sys2Proof.Claims

/-- R99, R125, R20, R245: a load whose checks pass writes d with the bytes at its effective address, little-endian, extended as its
mnemonic says; it has been charged once and has acquired what its modifier names. The offset counts in units of the access size. -/
def Obligations.Loads : Prop :=
  ∀ q ∈ loads, ∀ (s u t : State) (d a : Reg) (off : W64) (m : Mod) (pl : Place) (cap : Cap) (bs : List Byte),
    NoPort s [a] (some d) →
    checkAccess s.who (s.src a + off * w64 q.2.1) q.2.1 .read [.read] s.issue = .ok (pl, cap) u →
    loadPlace s.who pl q.2.1 m (s.src a + off * w64 q.2.1) u = .ok bs t →
    bs = (List.range q.2.1).map (fun i => t.loadByte s.cur.core (pl.loc + i)) ∧
    exec (q.1 d a off m) s =
      .next ((((t.chargeOnce cap).acquired m.order m.scope.toNat).writeMine d (q.2.2 (leToNat bs))).finish)

/-- R99, R244, R324: a store whose checks pass enters the core's store buffer, with the low bytes of d, behind what stands there; memory is
written when the entry is performed (`StorePerformed`). It waits for its release, and where the buffer is full for room, before it makes its
checks. -/
def Obligations.Stores : Prop :=
  ∀ q ∈ stores, ∀ (s v : State) (d a : Reg) (off : W64) (m : Mod), NoPort s [d, a] none →
    (releaseAt m.order m.scope s.issue = .error (.wait (.blocked true)) v →
      exec (q.1 d a off m) s = .next (again s v (.blocked true))) ∧
    (releaseAt m.order m.scope s.issue = .ok () v → 32 ≤ (v.core s.cur.core).sb.length →
      exec (q.1 d a off m) s = .next (again s v (.blocked true))) ∧
    ∀ (u t : State) (pl : Place) (cap : Cap), releaseAt m.order m.scope s.issue = .ok () v → (v.core s.cur.core).sb.length < 32 →
      checkAccess s.who (s.src a + off * w64 q.2) q.2 .write [.write] v = .ok (pl, cap) u →
      ¬(pl.space = .ctrl ∧ 0x200 ≤ fld (s.src a + off * w64 q.2) 0 12) → readForStore s.who pl (s.src a + off * w64 q.2) u t →
      exec (q.1 d a off m) s = .next (((t.modCore s.cur.core fun k => { k with
        sb := k.sb ++ [entryOf s t pl (natToLe q.2 (s.src d).toNat)] }).chargeOnce cap).finish)

/-- R110, R111, R123: the words of the core control window above the mailboxes, written by STD. An offset with no word ignores the
write, and TLBINV whose bits [15:1] are not 0 traps ALIGN. -/
def Sys2Proof.Claims.ControlWindow : Prop :=
  ∀ (s u v : State) (d a : Reg) (off : W64) (m : Mod) (pl : Place) (cap : Cap), NoPort s [d, a] none →
    releaseAt m.order m.scope s.issue = .ok () u → (u.core s.cur.core).sb.length < 32 →
    checkAccess s.who (s.src a + off * 8) 8 .write [.write] u = .ok (pl, cap) v → pl.space = .ctrl →
    (fld (s.src a + off * 8) 0 12 = 0x200 →
      exec (.std d a off m) s = .next (((v.modMyCore fun k => { k with seqBase := s.src d }).chargeOnce cap).finish)) ∧
    (fld (s.src a + off * 8) 0 12 = 0x208 →
      exec (.std d a off m) s = .next (((v.modMyCore fun k => { k with seqSize := s.src d }).chargeOnce cap).finish)) ∧
    (fld (s.src a + off * 8) 0 12 = 0x210 →
      exec (.std d a off m) s = .next (((v.modMyCore fun k => { k with qdef := (s.src d).setWidth 32 }).chargeOnce cap).finish)) ∧
    (fld (s.src a + off * 8) 0 12 = 0x218 →
      exec (.std d a off m) s = .next
        (((v.modMyCore fun k => { k with pipecfg := (s.src d).setWidth 8 &&& 0xF3 }).chargeOnce cap).finish)) ∧
    (fld (s.src a + off * 8) 0 12 = 0x220 → fld (s.src d) 1 15 = 0 →
      exec (.std d a off m) s = .next (((v.dropTrans v.myWorld
        (if flag (s.src d) 0 then none else some (fld (s.src d) 16 40 * 2 ^ 16))).chargeOnce cap).finish)) ∧
    (fld (s.src a + off * 8) 0 12 = 0x220 → fld (s.src d) 1 15 ≠ 0 →
      exec (.std d a off m) s = .next (takeTrap ⟨Cause.align, s.src a + off * 8, 0, 0xFFFF⟩ v)) ∧
    (fld (s.src a + off * 8) 0 12 ∉ [0x200, 0x208, 0x210, 0x218, 0x220] → 0x200 ≤ fld (s.src a + off * 8) 0 12 →
      exec (.std d a off m) s = .next ((v.chargeOnce cap).finish))

/-- R123, R111: the same words by the supervisor's own event; no translation that covers the address is left anywhere, and none of another
world is touched. -/
def Sys2Proof.Claims.SupervisorRegisters : Prop :=
  (∀ (s : State) (v : W64), fld v 1 15 = 0 →
    ∃ t, exec (.tlbinvWrite v) s = .next t ∧ t.mem = s.mem ∧
      ∀ x : Trans, (x ∈ Sparse.get [] t.dieTlb (dieOf s.cur.core) ↔ x ∈ Sparse.get [] s.dieTlb (dieOf s.cur.core) ∧
        ¬(x.world = s.myWorld ∧ (flag v 0 = true ∨ (x.va ≤ fld v 16 40 * 2 ^ 16 ∧ fld v 16 40 * 2 ^ 16 < x.va + x.size)))) ∧
      ∀ c, (s.core c).tlb ≠ [] → (x ∈ (t.core c).tlb ↔ x ∈ (s.core c).tlb ∧
        ¬(x.world = s.myWorld ∧ (flag v 0 = true ∨ (x.va ≤ fld v 16 40 * 2 ^ 16 ∧ fld v 16 40 * 2 ^ 16 < x.va + x.size))))) ∧
  ∀ (s : State) (v : W64),
    exec (.seqRegisterWrite 0x200 v) s = .next (s.modMyCore fun k => { k with seqBase := v }) ∧
    exec (.seqRegisterWrite 0x208 v) s = .next (s.modMyCore fun k => { k with seqSize := v })

/-- R126, R127: LDF, LDFK and STE. The thread's own earlier stores to the word are performed first. A request that the word's bit admits,
and before which no waiting request stands that the bit admits, is served; any other is queued behind those that wait. -/
def Sys2Proof.Claims.FullEmptyRequests : Prop :=
  ∀ q ∈ feWaiting, ∀ (s u v t : State) (d a : Reg) (m : Mod) (pl : Place) (cap : Option Cap),
    NoPort s (feSources q.2.1 d a) (feDest q.2.1 d) → fePlace s.who (s.src a) q.2.2 s.issue = .ok (pl, cap) u →
    (if q.2.1 = .ste then releaseAt m.order m.scope u = .ok () v else v = u) → t = v.performWord s.cur.core s.cur.slot pl.loc →
    (q.2.1.admits (t.isFull pl.loc) = true → (∀ r ∈ t.feQueue pl.loc, r.kind.admits (t.isFull pl.loc) = false) →
      exec (q.1 d a m) s = .next ((t.feServe pl.loc (feReq s q.2.1 d (s.src d) m cap)).finish)) ∧
    (q.2.1.admits (t.isFull pl.loc) = false ∨ (∃ r ∈ t.feQueue pl.loc, r.kind.admits (t.isFull pl.loc) = true) →
      exec (q.1 d a m) s = .next (({ t with
        feWaiters := Sparse.put t.feWaiters pl.loc (t.feQueue pl.loc ++ [feReq s q.2.1 d (s.src d) m cap]) } : State).waitIn (.fe pl.loc)))

/-- R112, R126: what a request served does. LDF leaves the word empty and LDFK full; both write the word's value to their register.
STE writes its value and leaves the word full. No other word's bit changes. -/
def Obligations.FullEmptyEffects : Prop :=
  ∀ (s : State) (loc : Nat) (r : FeReq),
    (r.kind ≠ .ste → (s.feServe loc r).mem = s.mem) ∧
    (r.kind = .ldf → (s.feServe loc r).isFull loc = false) ∧
    (r.kind = .ldfk → (s.feServe loc r).isFull loc = s.isFull loc) ∧
    (r.kind = .ste → (s.feServe loc r).isFull loc = true) ∧
    (∀ l, l ≠ loc → (s.feServe loc r).isFull l = s.isFull l) ∧
    (r.kind ≠ .ste → r.reg ≠ 0 → ¬((s.core r.core).portIn r.slot = true ∧ r.reg = qi) →
      ¬((s.core r.core).portOut r.slot = true ∧ r.reg = qo) → ((s.feServe loc r).slot r.core r.slot).reg r.reg = s.word64 loc) ∧
    (r.kind = .ste → s.keyDead (s.core r.core).world = false → (s.feServe loc r).word64 loc = r.value ∧
      ∀ l, (l < loc ∨ loc + 8 ≤ l) → (s.feServe loc r).byte l = s.byte l)

/-- R127: STF writes whatever the bit; FECLR empties the word; FEQ reads the bit. None of them waits for the bit, and each comes after the
thread's own stores to the word, and after the waiting requests that the bit admits have been served. FE_WAITER_SERVED serves the oldest request that the bit admits, and its instruction completes. -/
def Sys2Proof.Claims.FullEmptyOther : Prop :=
  (∀ (s u v t : State) (d a : Reg) (m : Mod) (pl : Place) (cap : Option Cap), NoPort s [d, a] none →
    fePlace s.who (s.src a) [.write] s.issue = .ok (pl, cap) u → releaseAt m.order m.scope u = .ok () v →
    t = atWord s v pl.loc →
    exec (.stf d a m) s = .next ((chargeOpt ((t.bankWrite s.cur.core s.cur.slot pl.loc (t.src d)).fill pl.loc) cap).finish)) ∧
  (∀ (s u t : State) (a : Reg) (pl : Place) (cap : Option Cap), NoPort s [a] none →
    fePlace s.who (s.src a) [.write] s.issue = .ok (pl, cap) u → t = atWord s u pl.loc →
    exec (.feclr a) s = .next ((chargeOpt (t.setFull pl.loc false) cap).finish)) ∧
  (∀ (s u t : State) (a : Reg) (p : Num3) (pl : Place) (cap : Option Cap), NoPort s [a] none →
    fePlace s.who (s.src a) [.read] s.issue = .ok (pl, cap) u → t = atWord s u pl.loc →
    exec (.feq p a) s = .next ((chargeOpt (t.modMe (·.setPred p (t.isFull pl.loc))) cap).finish)) ∧
  (∀ (s : State) (loc : Nat) (before after : List FeReq) (r : FeReq), s.feQueue loc = before ++ r :: after →
    (∀ x ∈ before, x.kind.admits (s.isFull loc) = false) → r.kind.admits (s.isFull loc) = true → r ∉ before →
    exec (.feWaiterServed loc) s = .next ((({ s with feWaiters := (if (before ++ after).isEmpty
      then Sparse.drop s.feWaiters loc else Sparse.put s.feWaiters loc (before ++ after)) } : State).feServe loc
      r).modSlot r.core r.slot fun sl => sl.after (sl.pc + w64 r.len) .wait .complete)) ∧
  ∀ (s : State) (loc : Nat), ∀ r ∈ (s.feServeAll loc (s.feQueue loc).length).feQueue loc,
    r.kind.admits ((s.feServeAll loc (s.feQueue loc).length).isFull loc) = false

/-- R84, R113, R128: INVL1 empties the core's L1, lets no fill on its way install and makes the core's next fetches read memory; PREF and PREFL bring the line in, and never trap: an
address that fails its checks has no effect beyond its pip. An L1 fill that arrives installs its line unless it has been cancelled. -/
def Obligations.CacheInstructions : Prop :=
  (∀ s : State, ∃ t, exec .invl1 s = .next t ∧ t.myCore.l1 = [] ∧ (∀ f ∈ t.myCore.fills, f.cancelled = true) ∧ t.myCore.code = [] ∧ t.mem = s.mem ∧
    t.me.pc = s.behind ∧ t.me.st = .wait ∧ t.me.waiting = .complete ∧ t.me.s = s.me.s) ∧
  (∀ (l1 : Bool) (s t : State) (a : Reg), NoPort s [a] none → prefetchLine l1 (s.src a) s.issue = .ok () t →
    exec (if l1 then .pref a else .prefl a) s = .next t.finish) ∧
  (∀ (l1 : Bool) (s t : State) (e : Stop) (a : Reg), NoPort s [a] none → prefetchLine l1 (s.src a) s.issue = .error e t →
    exec (if l1 then .pref a else .prefl a) s = .next s.issue.finish) ∧
  ∀ (s : State) (c k : Nat) (f : Fill), (s.core c).fills[k]? = some f →
    ∃ t, exec (.l1Fill c k) s = .next t ∧ t.mem = s.mem ∧ (t.core c).fills = (s.core c).fills.eraseIdx k ∧
      (f.cancelled = true → (t.core c).l1 = (s.core c).l1) ∧
      (f.cancelled = false → (t.core c).l1Line f.line = some ⟨f.line, f.data⟩ ∧
        ∀ n, n % 256 ≠ f.line % 256 → (t.core c).l1Line n = (s.core c).l1Line n)

/-- R244: an entry of the store buffer that nothing must leave before, and none of whose words is held or queued at its bank, is performed:
exactly its bytes change, each to the entry's last value for it. R44: after the memory key's lease has run out, a write to HBM is dropped.
R223: on a word that is held or queued the entry stands at the bank, in the buffer still, behind what came there before; it is performed
when it is the first there and none of its words is held or queued. -/
def Obligations.StorePerformed : Prop :=
  ∀ (s : State) (c k : Nat) (e : SbEntry), (s.core c).sb[k]? = some e → (∀ x ∈ (s.core c).sb.take k, x.ordered e = false) →
    (s.busyWord e.bytes = none →
      (e.atBank = false ∨ (∃ q ∈ s.banks, ⟨c, e⟩ ∈ q.2.deferred) ∧ ∀ q ∈ s.banks, ⟨c, e⟩ ∈ q.2.deferred →
        q.2.deferred.head? = some ⟨c, e⟩) →
      (s.keyDead e.world = false ∨ (∀ x ∈ e.bytes, isHbm x.1 = false) →
        ∃ t, exec (.storePerform c k) s = .next t ∧ (t.core c).sb = (s.core c).sb.erase e ∧
          (∀ loc, (∀ b, (loc, b) ∉ e.bytes) → t.byte loc = s.byte loc) ∧
          (e.bytes.Pairwise (fun x y => x.1 ≠ y.1) → ∀ x ∈ e.bytes, t.byte x.1 = x.2)) ∧
      (s.keyDead e.world = true → (∃ x ∈ e.bytes, isHbm x.1 = true) →
        ∃ t, exec (.storePerform c k) s = .next t ∧ (t.core c).sb = (s.core c).sb.erase e ∧ t.mem = s.mem)) ∧
    (∀ l, s.busyWord e.bytes = some l →
      (e.atBank = false → ∃ t, exec (.storePerform c k) s = .next t ∧ t.mem = s.mem ∧
        (t.core c).sb = (s.core c).sb.replace e { e with atBank := true } ∧
        (t.bank l).deferred = (s.bank l).deferred ++ [⟨c, { e with atBank := true }⟩]) ∧
      (e.atBank = true → exec (.storePerform c k) s = .next s))

/-! ## Row-granular transfers (spec 11, 12, 17) -/

namespace Sys2Proof.Claims

/-- The row at which a row-granular instruction resumes: the one in k.restart, where it is pending for this instruction (R168). -/
def resumesAt (s : State) (key : Nat) : Option Nat :=
  if flag s.me.restart 63 = true ∧ fld s.me.restart 23 17 * 2 ^ 23 = key then some (fld s.me.restart 0 16) else none

/-- The state in which a row-granular instruction begins its rows: pend cleared (R168). -/
def cleared (s : State) : State := s.modMe fun sl => { sl with restart := w64 (sl.restart.toNat % 2 ^ 63) }

/-- k.fpc as it stood when the instruction issued (R154). -/
def fpcOf (s : State) : W64 := if s.me.reissue then s.me.fpcAt else s.me.fpc

/-- A row-granular instruction goes on to its last row in this step: no row budget, and no stop asked of its slot (R167, R278). -/
abbrev ToTheEnd (s : State) : Prop := s.cur.rows = none ∧ s.me.stopReq = .none

/-- Rows made one after another, each to its end. -/
inductive RowsRun (body : Nat → M (Option TrapInfo)) : List Nat → State → State → Prop
  | nil (s : State) : RowsRun body [] s s
  | cons {r : Nat} {rows : List Nat} {s u t : State} : body r s = .ok none u → RowsRun body rows u t → RowsRun body (r :: rows) s t

/-- A tile that a transfer may move (R129). -/
abbrev movable (sh : W64) : Prop := sh ≠ 0 ∧ shRows sh ≠ 0 ∧ shCols sh ≠ 0 ∧ shType sh ≠ 9

/-- The shape and scales of a loaded tile, written before its first row (R133, R326). -/
def shaped (s : State) (t : Num3) (sh : W64) : State := s.modMe fun sl => sl.setTile t ((sl.tile t).reshape sh).unscaled

/-- The rows of an instruction from where it starts. -/
def rowsFrom (start : Option Nat) (stop : Nat) : List Nat := rowRange (start.getD 0) stop

/-- The slot's field of a plane written. -/
def onPlane (s : State) (w : Num2) (f : Plane → Plane) : State :=
  s.modMyCore fun k => { k with planes := k.planes.set w.toNat (f (k.planes[w.toNat]'(w.isLt))) w.isLt }

end Sys2Proof.Claims

/-- R129 to R133, R168: TLD. The layout record is read and checked, the tile takes the window's valid region, and its rows are loaded in
ascending order, from the row of k.restart where the instruction resumes. -/
def Sys2Proof.Claims.TileLoad : Prop :=
  ∀ (s u v t : State) (td : Num3) (a b : Reg) (m : Mod) (l : Layout) (lcs : List Cap) (sh : W64) (start : Option Nat) (row0 col0 vr vc : Nat),
    NoPort s [a, b] none → ToTheEnd s → sh = (s.me.tile td).shape → start = resumesAt s (restartKey 1 8 0) →
    row0 = fld (s.src b) 0 32 → col0 = fld (s.src b) 32 32 →
    readLayoutAs s.who (s.src a) m s.issue = .ok (l, lcs) u → (vr, vc) = window l sh row0 col0 →
    (start = none → movable sh ∧ shType sh = l.elemTy ∧ (l.rscl = true → l.trans = false ∧ s.me.scl ≠ 0) ∧
      (l.cx8 = true → shCols sh = 32 ∧ col0 % 32 = 0)) →
    v = (if start = none then shaped (u.acquired m.order m.scope.toNat) td (withValid sh vr vc) else u.acquired m.order m.scope.toNat) →
    RowsRun (tldRow td s.who l row0 col0 vc m lcs (tfmtWord (tyCode sh) l.type 15 15))
      (if vr ≠ 0 ∧ vc ≠ 0 then rowsFrom start vr else []) (cleared v) t →
    exec (.tld td a b m) s = .next ((t.chargeAll lcs).finish)

/-- R129 to R133, R168: TST. The rows that both the window and the tile's valid region hold are stored in ascending order; each enters the
store buffer whole. Its release comes first. -/
def Sys2Proof.Claims.TileStore : Prop :=
  ∀ (s u v t : State) (td : Num3) (a b : Reg) (m : Mod) (l : Layout) (lcs : List Cap) (sh : W64) (start : Option Nat)
    (row0 col0 rows cols : Nat),
    NoPort s [a, b] none → ToTheEnd s → sh = (s.me.tile td).shape → start = resumesAt s (restartKey 1 8 1) →
    row0 = fld (s.src b) 0 32 → col0 = fld (s.src b) 32 32 →
    releaseAt m.order m.scope s.issue = .ok () u → readLayoutAs s.who (s.src a) m u = .ok (l, lcs) v →
    rows = min (window l sh row0 col0).1 (shVrows sh) → cols = min (window l sh row0 col0).2 (shVcols sh) →
    (start = none → movable sh ∧ shType sh = l.elemTy ∧
      (l.cx8 = true → shCols sh = 32 ∧ col0 % 32 = 0 ∧ l.cols = 32 ∧ row0 % 16 = 0)) →
    RowsRun (tstRow (s.me.tile td) s.who l row0 col0 cols m lcs (tfmtWord l.type (tyCode sh) 15 15))
      (if (window l sh row0 col0).2 ≠ 0 ∧ (cols ≠ 0 ∨ l.cx8 = true) then rowsFrom start rows else []) (cleared v) t →
    exec (.tst td a b m) s = .next ((t.chargeAll lcs).finish)

/-- R134, R168: TLDS and TSTS move rows between a tile and a local window, `pitch` bytes apart. -/
def Sys2Proof.Claims.TileLocal : Prop :=
  (∀ (s t : State) (td : Num3) (a b : Reg) (m : Mod) (sh : W64) (start : Option Nat),
    NoPort s [a, b] none → ToTheEnd s → sh = (s.me.tile td).shape → start = resumesAt s (restartKey 1 9 0) →
    (start = none → movable sh ∧ fld (s.src a) 61 3 = 6 ∧ fld (s.src a) 58 3 ≤ 2 ∧ (s.src a).toNat % tySize (shType sh) = 0 ∧
      (s.src b).toNat % tySize (shType sh) = 0) →
    RowsRun (tldsRow td s.who sh (s.src a) (s.src b) m (start.getD 0)) (rowsFrom start (shRows sh))
      (cleared (if start = none then shaped s.issue td (withValid sh (shRows sh) (shCols sh)) else s.issue)) t →
    exec (.tlds td a b m) s = .next t.finish) ∧
  ∀ (s v t : State) (td : Num3) (a b : Reg) (m : Mod) (sh : W64) (start : Option Nat),
    NoPort s [a, b] none → ToTheEnd s → sh = (s.me.tile td).shape → start = resumesAt s (restartKey 1 9 1) →
    (start = none → movable sh ∧ fld (s.src a) 61 3 = 6 ∧ fld (s.src a) 58 3 ≤ 2 ∧ (s.src a).toNat % tySize (shType sh) = 0 ∧
      (s.src b).toNat % tySize (shType sh) = 0) →
    releaseAt m.order m.scope s.issue = .ok () v →
    RowsRun (tstsRow (s.me.tile td) s.who (s.src a) (s.src b))
      (if shVcols sh ≠ 0 then rowsFrom start (shVrows sh) else []) (cleared v) t →
    exec (.tsts td a b m) s = .next t.finish

/-- R135, R168: TLDX gathers, and TSTX scatters, the tensor rows that an index tile of INT32 names. -/
def Sys2Proof.Claims.TileIndexed : Prop :=
  (∀ (s u v t : State) (td tx : Num3) (a : Reg) (m : Mod) (l : Layout) (lcs : List Cap) (sh xsh : W64) (ks : List Int)
      (start : Option Nat),
    NoPort s [a] none → ToTheEnd s → sh = (s.me.tile td).shape → xsh = (s.me.tile tx).shape → ks = indexList (s.me.tile tx) →
    start = resumesAt s (restartKey 1 0xA 0) → readLayoutAs s.who (s.src a) m s.issue = .ok (l, lcs) u →
    (start = none → movable sh ∧ shType sh = l.elemTy ∧ xsh ≠ 0 ∧ shType xsh = 8 ∧ l.trans = false ∧ (l.cx8 = true → shCols sh = 32) ∧
      (l.rscl = true → s.me.scl ≠ 0) ∧ ks.length ≤ shRows sh) →
    v = (if start = none then shaped (u.acquired m.order m.scope.toNat) td (withValid sh ks.length (min (shCols sh) l.cols))
      else u.acquired m.order m.scope.toNat) →
    RowsRun (tldxRow td s.who l xsh ks (min (shCols sh) l.cols) m lcs (tfmtWord (tyCode sh) l.type (tyCode xsh) 15))
      (rowsFrom start (if start = none then ks.length else shVrows sh)) (cleared v) t →
    exec (.tldx td tx a m) s = .next ((t.chargeAll lcs).finish)) ∧
  ∀ (s u v t : State) (td tx : Num3) (a : Reg) (m : Mod) (l : Layout) (lcs : List Cap) (sh xsh : W64) (ks : List Int)
      (start : Option Nat),
    NoPort s [a] none → ToTheEnd s → sh = (s.me.tile td).shape → xsh = (s.me.tile tx).shape → ks = indexList (s.me.tile tx) →
    start = resumesAt s (restartKey 1 0xA 1) → releaseAt m.order m.scope s.issue = .ok () u →
    readLayoutAs s.who (s.src a) m u = .ok (l, lcs) v →
    (start = none → movable sh ∧ shType sh = l.elemTy ∧ xsh ≠ 0 ∧ shType xsh = 8 ∧ l.trans = false ∧ l.cx8 = false ∧
      ks.length ≤ shRows sh) →
    RowsRun (tstxRow (s.me.tile td) s.who l xsh ks (min (min (shCols sh) l.cols) (shVcols sh)) lcs
        (tfmtWord l.type (tyCode sh) (tyCode xsh) 15))
      (rowsFrom start (min ks.length (shVrows sh))) (cleared v) t →
    exec (.tstx td tx a m) s = .next ((t.chargeAll lcs).finish)

/-- R131 to R133, R326: a row loaded is written whole into its tile row, with its scale where the layout has scales; nothing else of the slot's
tiles changes, and no byte of memory. -/
def Sys2Proof.Claims.LoadedRow : Prop :=
  ∀ (s : State) (td : Num3) (r : Nat) (els : List Nat) (scale : Option W32) (cs : List Cap), r < 32 →
    ∃ t, commitLoad td r els scale cs s = .ok none t ∧ t.mem = s.mem ∧ t.me.s = s.me.s ∧ t.me.p = s.me.p ∧
      (t.me.tile td).shape = (s.me.tile td).shape ∧
      (els.length * tySize (shType (s.me.tile td).shape) ≤ 64 → ∀ j, j < els.length →
        elemAt ((t.me.tile td).row r) (tySize (shType (s.me.tile td).shape)) j =
          els.getD j 0 % 2 ^ (8 * tySize (shType (s.me.tile td).shape))) ∧
      (∀ i, i ≠ r → (t.me.tile td).row i = (s.me.tile td).row i) ∧
      (∀ x, scale = some x → vat 0 (t.me.tile td).scales r = x) ∧ (scale = none → (t.me.tile td).scales = (s.me.tile td).scales) ∧
      ∀ i, i ≠ td → t.me.tile i = s.me.tile i

/-- R192 to R195, R168: LDSTAT and LDSCL write the shadow half of a plane that the slot owns, LDPROJ a chunk of the projection buffer, row by
row. LDSCL writes all 128 scales with its one row, 1.0 beyond the window; a window of no column leaves 1.0 in every entry. -/
def Sys2Proof.Claims.PlaneLoads : Prop :=
  (∀ (s u t : State) (p : Num2) (a b : Reg) (m : Mod) (l : Layout) (lcs : List Cap) (start : Option Nat) (row0 col0 krows ncols : Nat),
    NoPort s [a, b] none → ToTheEnd s → s.me.plown.getLsbD p.toNat = true → start = resumesAt s (restartKey 3 1 0) →
    row0 = fld (s.src b) 0 32 → col0 = fld (s.src b) 32 32 → readLayoutAs s.who (s.src a) m s.issue = .ok (l, lcs) u →
    (krows, ncols) = planeWindow l row0 col0 → (start = none → (l.type ≤ 6 ∨ l.cx8 = true) ∧ (l.cx8 = true → col0 % 32 = 0)) →
    RowsRun (ldstatRow p s.who l row0 col0 ncols m lcs) (if ncols ≠ 0 then rowsFrom start krows else [])
      (cleared (if start = none then onPlane (u.acquired m.order m.scope.toNat) p fun q => { q with
        shadow := q.shadow.reshape l.elemTy krows ncols } else u.acquired m.order m.scope.toNat)) t →
    exec (.ldstat p a b m) s = .next ((t.chargeAll lcs).finish)) ∧
  (∀ (s u t : State) (p : Num2) (a b : Reg) (m : Mod) (l : Layout) (lcs : List Cap) (start : Option Nat) (row0 col0 n : Nat),
    NoPort s [a, b] none → ToTheEnd s → s.me.plown.getLsbD p.toNat = true → start = resumesAt s (restartKey 3 1 2) →
    row0 = fld (s.src b) 0 32 → col0 = fld (s.src b) 32 32 → readLayoutAs s.who (s.src a) m s.issue = .ok (l, lcs) u →
    n = (if row0 < l.rows then min 128 (l.cols - col0) else 0) → (start = none → l.type = 7 ∧ l.trans = false) →
    RowsRun (ldsclRow p s.who l row0 col0 n m lcs) (if n ≠ 0 then rowsFrom start 1 else [])
      (cleared (if start = none ∧ n = 0 then onPlane (u.acquired m.order m.scope.toNat) p fun q => { q with
        shadow := { q.shadow with scales := Vector.replicate 128 0x3F800000 } } else u.acquired m.order m.scope.toNat)) t →
    exec (.ldscl p a b m) s = .next ((t.chargeAll lcs).finish)) ∧
  ∀ (s v u t : State) (a b : Reg) (m : Mod) (l : Layout) (lcs : List Cap) (start : Option Nat) (chunk : Nat),
    NoPort s [a, b] none → ToTheEnd s → start = resumesAt s (restartKey 3 1 1) → chunk = m.spec.toNat % 8 →
    takeProj true (64 * chunk) (64 * chunk + 64) s.issue = .ok () v →
    readLayoutAs s.who (s.src a) { m with spec := 0 } v = .ok (l, lcs) u → (start = none → l.type = 5) →
    RowsRun (ldprojRow s.who l (fld (s.src b) 0 32) (fld (s.src b) 32 32) chunk { m with spec := 0 } lcs) (rowsFrom start 64)
      (cleared (u.acquired m.order m.scope.toNat)) t →
    exec (.ldproj a b m) s = .next ((t.chargeAll lcs).finish)

/-- R254 to R258, R168: KVLD, KVST and KVMULT, outside the copy slot. The descriptor and the sequence's header are checked; tokens go to
plane columns, from tile rows, and their multiplicities to a tile of one row. -/
def Sys2Proof.Claims.SequenceTransfers : Prop :=
  (∀ (s u t : State) (p : Num2) (a b : Reg) (m : Mod) (h : SeqHeader) (hcs : List Cap) (start : Option Nat) (first n slice : Nat),
    NoPort s [a, b] none → ToTheEnd s → s.cur.slot ≠ 14 → s.me.plown.getLsbD p.toNat = true →
    first = fld (s.src b) 0 16 → n = fld (s.src b) 16 8 → slice = fld (s.src b) 24 4 → fld (s.src b) 28 36 = 0 → 1 ≤ n → n ≤ 128 →
    start = resumesAt s (restartKey 6 0 0) → readHeader s.who (s.src a) m s.issue = .ok (h, hcs) u →
    32 * slice + 32 ≤ h.width → first + n ≤ 16 * h.npages →
    RowsRun (kvldRow p s.who h first slice m hcs) (rowsFrom start n)
      (cleared (if start = none then onPlane (u.acquired m.order m.scope.toNat) p fun q => { q with
        shadow := { q.shadow.reshape 5 32 n with scales := Vector.replicate 128 0x3F800000 } } else u.acquired m.order m.scope.toNat)) t →
    exec (.kvld p a b m) s = .next t.finish) ∧
  (∀ (s u v t : State) (td : Num3) (a b : Reg) (m : Mod) (h : SeqHeader) (hcs : List Cap) (start : Option Nat) (sh : W64),
    NoPort s [a, b] none → ToTheEnd s → s.cur.slot ≠ 14 → sh = (s.me.tile td).shape → fld (s.src b) 21 43 = 0 →
    start = resumesAt s (restartKey 6 1 0) → releaseAt m.order m.scope s.issue = .ok () u →
    readHeader s.who (s.src a) Mod.none u = .ok (h, hcs) v →
    (start = none → sh ≠ 0 ∧ shType sh = h.type ∧ shCols sh * h.esize = 64) → 64 * fld (s.src b) 16 4 < h.rowBytes →
    (shVrows sh = 0 ∨ fld (s.src b) 0 16 + shVrows sh ≤ 16 * h.npages) →
    RowsRun (kvstRow (s.me.tile td) s.who h (s.src b) hcs) (rowsFrom start (shVrows sh)) (cleared v) t →
    exec (.kvst td a b m) s = .next t.finish) ∧
  ∀ (s u t : State) (td : Num3) (a b : Reg) (m : Mod) (h : SeqHeader) (hcs : List Cap) (start : Option Nat) (n : Nat),
    NoPort s [a, b] none → ToTheEnd s → s.cur.slot ≠ 14 → n = fld (s.src b) 16 7 → fld (s.src b) 23 41 = 0 → 1 ≤ n → n ≤ 64 →
    start = resumesAt s (restartKey 6 2 0) → readHeader s.who (s.src a) m s.issue = .ok (h, hcs) u →
    fld (s.src b) 0 16 + n ≤ 16 * h.npages →
    RowsRun (kvmultRow td s.who h (fld (s.src b) 0 16) n m hcs) (rowsFrom start 1)
      (cleared (if start = none then shaped (u.acquired m.order m.scope.toNat) td (mkShape 1 1 64 1 n)
        else u.acquired m.order m.scope.toNat)) t →
    exec (.kvmult td a b m) s = .next t.finish

/-! ## Tile instructions (spec 11) -/

namespace Sys2Proof.Claims

/-- The elements of a result in the order in which rows commit. -/
def elemsIn (first vr vc : Nat) (f : Nat → Nat → FR) : List FR := (rowRange first vr).flatMap fun r => (List.range vc).map (f r)
def orOf (l : List FR) : Nat := l.foldl (fun g e => g ||| e.flags) 0

/-- No element of a result is a NaN, or k.fpc.NT, as it stood at the issue, asks for no trap (R154, R163). -/
abbrev noNanTrap (s : State) (first : Nat) (res : W64) (f : Nat → Nat → FR) : Prop :=
  ntOf (fpcOf s) = false ∨ ∀ e ∈ elemsIn first (shVrows res) (shVcols res) f, isNanBits (shType res) e.bits = false

/-- What a tile instruction leaves alone: every tile but td, the scalar registers and predicates, every other slot and core, memory and every
unit; and where it leaves the slot: behind the instruction, out of the rotation until its completion (R90). -/
def OnlyTile (s t : State) (d : Num3) : Prop :=
  (∀ i, i ≠ d → t.me.tile i = s.me.tile i) ∧ t.me.s = s.me.s ∧ t.me.p = s.me.p ∧ t.me.fpc = s.me.fpc ∧ t.me.pc = s.behind ∧
  t.me.st = .wait ∧ t.me.waiting = .complete ∧ OtherCoresSame s t ∧ OtherSlotsSame s t

/-- The result of a tile instruction that works on the rows from `first` on (R164, R166, R167, R155): its shape word, its elements by
row and column, zeros outside the valid region, its row scales, and the flags gathered. -/
def TileResult (s t : State) (d : Num3) (first : Nat) (res : W64) (scales : Vector W32 32) (f : Nat → Nat → FR) : Prop :=
  (t.me.tile d).shape = res ∧
  (∀ r j, first ≤ r → r < shVrows res → j < shVcols res →
    (t.me.tile d).elem r j = tyBits (shType res) ((f r j).bits % 2 ^ (8 * tySize (shType res)))) ∧
  (∀ r j, first ≤ r → r < 32 → (j + 1) * tySize (shType res) ≤ 64 → ¬(r < shVrows res ∧ j < shVcols res) →
    (t.me.tile d).elem r j = 0) ∧
  (t.me.tile d).scales = scales ∧ t.me.flags = s.me.flags ||| w64 (orOf (elemsIn first (shVrows res) (shVcols res) f)) ∧ OnlyTile s t d

/-- A tile instruction of two tiles of one type, R and C. -/
structure TwoTiles where
  instr : Num3 → Num3 → Num3 → Instr
  key : Nat
  types : List Nat
  f : Nat → Rm → Nat → Nat → FR

/-- R172, R174, with the types they accept. -/
def twoTiles : List TwoTiles :=
  [⟨.tadd, restartKey 2 0 0, [5, 6, 7], addE⟩, ⟨.tsub, restartKey 2 0 1, [5, 6, 7], subE⟩, ⟨.tmul, restartKey 2 0 2, [5, 6, 7], mulE⟩,
    ⟨.tmax, restartKey 2 0 3, [0, 1, 5, 6, 7, 8], fun ty _ => maxE ty⟩, ⟨.tmin, restartKey 2 0 4, [0, 1, 5, 6, 7, 8], fun ty _ => minE ty⟩,
    ⟨.tiadd, restartKey 2 1 0, [0, 1, 8], fun ty _ a b => satInt ty (intOf ty a + intOf ty b)⟩,
    ⟨.tisub, restartKey 2 1 1, [0, 1, 8], fun ty _ a b => satInt ty (intOf ty a - intOf ty b)⟩,
    ⟨.timul, restartKey 2 1 2, [0, 1, 8], fun ty _ a b => satInt ty (intOf ty a * intOf ty b)⟩,
    ⟨.tshl, restartKey 2 1 6, [0, 1, 8], fun ty _ => shlE ty⟩, ⟨.tshr, restartKey 2 1 7, [0, 1, 8], fun ty _ => shrE ty⟩]

/-- The bitwise instructions, of any type; no NaN trap (R174, R163). -/
def twoTilesMoved : List TwoTiles :=
  [⟨.tand, restartKey 2 1 3, List.range 10, fun _ _ a b => ⟨a &&& b, 0⟩⟩, ⟨.tor, restartKey 2 1 4, List.range 10, fun _ _ a b => ⟨a ||| b, 0⟩⟩,
    ⟨.txor, restartKey 2 1 5, List.range 10, fun _ _ a b => ⟨a ^^^ b, 0⟩⟩]

/-- Two sources of one type, rows and columns, of an accepted type, and a destination that may take their shape (R170). -/
abbrev agreeing (s : State) (d a b : Num3) (types : List Nat) : Prop :=
  (s.me.tile a).shape ≠ 0 ∧ (s.me.tile b).shape ≠ 0 ∧ shType (s.me.tile a).shape ∈ types ∧
  sameTRC (s.me.tile b).shape (s.me.tile a).shape = true ∧ shapeOk (s.me.tile a).shape = true ∧
  (b = d → (s.me.tile b).shape = (s.me.tile a).shape)

/-- The elements of a two-source instruction. -/
def pairElem (s : State) (a b : Num3) (f : Nat → Rm → Nat → Nat → FR) (r j : Nat) : FR :=
  f (shType (s.me.tile a).shape) (rmOf (fpcOf s)) ((s.me.tile a).elem r j) ((s.me.tile b).elem r j)

/-- The comparisons (R179), with their functions and the conditions on elements; −0 equals +0, and a NaN is unordered. -/
def compareTiles : List ((Num3 → Num3 → Num3 → Instr) × Nat × (Nat → Nat → Nat → Bool)) :=
  [(.tceq, restartKey 2 4 0, eqE), (.tclt, restartKey 2 4 1, ltE), (.tcle, restartKey 2 4 2, fun ty x y => ltE ty x y || eqE ty x y),
    (.tcne, restartKey 2 4 3, fun ty x y => !eqE ty x y), (.tcltu, restartKey 2 4 5, fun _ x y => decide (x < y)),
    (.tcleu, restartKey 2 4 6, fun _ x y => decide (x ≤ y))]

/-- A tile instruction of one tile. -/
structure OneTile where
  instr : Num3 → Num3 → Instr
  key : Nat
  types : List Nat
  res : W64 → W64
  f : Nat → Rm → Nat → FR

/-- R175. -/
def oneTile : List OneTile :=
  [⟨.texp, restartKey 2 2 0, [5, 6, 7], id, texpE⟩, ⟨.texp2, restartKey 2 2 1, [5, 6, 7], id, fun ty rm x => exp2E ty rm (valueOf ty x)⟩,
    ⟨.tlog2, restartKey 2 2 2, [5, 6, 7], id, log2E⟩, ⟨.trcp, restartKey 2 2 3, [5, 6, 7], id, rcpE⟩,
    ⟨.trsq, restartKey 2 2 4, [5, 6, 7], id, rsqE⟩, ⟨.tabs, restartKey 2 2 5, [0, 5, 6, 7, 8], id, fun ty _ => absE ty⟩,
    ⟨.tneg, restartKey 2 2 6, [0, 5, 6, 7, 8], id, fun ty _ => negE ty⟩]

/-- TCVT to a type (R176). -/
def converting (ty : BitVec 4) : OneTile :=
  ⟨fun d a => .tcvt d a ty, restartKey 2 2 7, [0, 1, 2, 3, 4, 5, 6, 7, 8], withType ty.toNat, fun src _ x => convert src ty.toNat x⟩

/-- The scalar-broadcast instructions, with their functions on floating values and on integers (R181). -/
def scalarTiles : List ((Num3 → Num3 → Reg → Instr) × Nat × (Rm → Fp → Fp → Fp × Nat) × (Int → Int → Int)) :=
  [(.tadds, restartKey 2 6 0, Fp.add, fun x y => x + y), (.tmuls, restartKey 2 6 1, fun _ => Fp.mul, fun x y => x * y),
    (.tmaxs, restartKey 2 6 2, fun _ => Fp.max, fun x y => max x y), (.tsubs, restartKey 2 6 3, fun rm x y => x.add rm y.neg, fun x y => x - y)]

/-- A live source of an accepted type, and a destination that may take the result's shape (R170). -/
abbrev acceptable (s : State) (d a : Num3) (types : List Nat) (res : W64) : Prop :=
  (s.me.tile a).shape ≠ 0 ∧ shType (s.me.tile a).shape ∈ types ∧ shapeOk res = true ∧ (a = d → (s.me.tile a).shape = res)

end Sys2Proof.Claims

/-- R172, R174: a two-source tile instruction that begins and is not stopped by a NaN trap (R163). -/
def Sys2Proof.Claims.TileTwoSources : Prop :=
  (∀ q ∈ twoTiles, ∀ (s : State) (d a b : Num3), ToTheEnd s → resumesAt s q.key = none → agreeing s d a b q.types →
    noNanTrap s 0 (s.me.tile a).shape (pairElem s a b q.f) →
    ∃ t, exec (q.instr d a b) s = .next t ∧ TileResult s t d 0 (s.me.tile a).shape unitScales (pairElem s a b q.f)) ∧
  ∀ q ∈ twoTilesMoved, ∀ (s : State) (d a b : Num3), ToTheEnd s → resumesAt s q.key = none → agreeing s d a b q.types →
    ∃ t, exec (q.instr d a b) s = .next t ∧ TileResult s t d 0 (s.me.tile a).shape unitScales (pairElem s a b q.f)

/-- R168, R199: the same instruction resumed at a row of k.restart: the rows before it are as they were, and the rows from it on are
computed. -/
def Sys2Proof.Claims.TileResumes : Prop :=
  ∀ q ∈ twoTiles ++ twoTilesMoved, ∀ (s : State) (d a b : Num3) (first : Nat), ToTheEnd s → resumesAt s q.key = some first →
    ntOf (fpcOf s) = false → shapeOk (s.me.tile d).shape = true →
    ∃ t, exec (q.instr d a b) s = .next t ∧ OnlyTile s t d ∧ (t.me.tile d).shape = (s.me.tile d).shape ∧
      (∀ r, r < first → (t.me.tile d).row r = (s.me.tile d).row r) ∧
      (∀ r j, first ≤ r → r < shVrows (s.me.tile d).shape → j < shVcols (s.me.tile d).shape →
        (t.me.tile d).elem r j = tyBits (shType (s.me.tile d).shape)
          ((pairElem s a b q.f r j).bits % 2 ^ (8 * tySize (shType (s.me.tile d).shape)))) ∧
      flag t.me.restart 63 = false

/-- R163: with k.fpc.NT set, the first row that holds a NaN is committed, and the instruction traps NAN there: k.tval holds the NaN's
bits, k.tcoord its row and column, and k.restart names the next row. -/
def Obligations.TileNanTrap : Prop :=
  ∀ q ∈ twoTiles, ∀ (s : State) (d a b : Num3) (r c : Nat), ToTheEnd s → s.cur.slot ≠ 15 → resumesAt s q.key = none →
    agreeing s d a b q.types → ntOf (fpcOf s) = true → r < shVrows (s.me.tile a).shape → c < shVcols (s.me.tile a).shape →
    (∀ i, i ≤ r → ∀ j, j < shVcols (s.me.tile a).shape → i < r ∨ j < c →
      isNanBits (shType (s.me.tile a).shape) (pairElem s a b q.f i j).bits = false) →
    isNanBits (shType (s.me.tile a).shape) (pairElem s a b q.f r c).bits = true →
    ∃ t, exec (q.instr d a b) s = .next t ∧ t.me.st = .trapped ∧ t.me.cause = 0x0B ∧ t.me.epc = s.me.pc ∧
      t.me.tval = w64 (pairElem s a b q.f r c).bits ∧
      t.me.tcoord = w64 ((r * shCols (s.me.tile a).shape + c) % 65536 * 2 ^ 32 + c * 2 ^ 16 + r) ∧
      flag t.me.restart 63 = true ∧ fld t.me.restart 0 16 = r + 1 ∧
      ∀ i j, i ≤ r → j < shVcols (s.me.tile a).shape → (t.me.tile d).elem i j = tyBits (shType (s.me.tile a).shape)
        ((pairElem s a b q.f i j).bits % 2 ^ (8 * tySize (shType (s.me.tile a).shape)))

/-- R179: a comparison delivers a MASK tile of 1s and 0s, raises no flag and does not trap on a NaN; TISNAN too. -/
def Sys2Proof.Claims.TileCompares : Prop :=
  (∀ q ∈ compareTiles, ∀ (s : State) (d a b : Num3), ToTheEnd s → resumesAt s q.2.1 = none →
    (s.me.tile a).shape ≠ 0 → (s.me.tile b).shape ≠ 0 → shType (s.me.tile a).shape ≤ 9 →
    sameTRC (s.me.tile b).shape (s.me.tile a).shape = true → shapeOk (withType 9 (s.me.tile a).shape) = true →
    (a = d → (s.me.tile a).shape = withType 9 (s.me.tile a).shape) → (b = d → (s.me.tile b).shape = withType 9 (s.me.tile a).shape) →
    ∃ t, exec (q.1 d a b) s = .next t ∧ TileResult s t d 0 (withType 9 (s.me.tile a).shape) unitScales
      (pairElem s a b fun ty _ x y => ⟨if q.2.2 ty x y then 1 else 0, 0⟩)) ∧
  ∀ (s : State) (d a : Num3), ToTheEnd s → resumesAt s (restartKey 2 4 4) = none →
    acceptable s d a [2, 3, 4, 5, 6, 7] (withType 9 (s.me.tile a).shape) →
    ∃ t, exec (.tisnan d a) s = .next t ∧ TileResult s t d 0 (withType 9 (s.me.tile a).shape) unitScales
      fun r j => ⟨if isNanBits (shType (s.me.tile a).shape) ((s.me.tile a).elem r j) then 1 else 0, 0⟩

/-- R175, R176, R181: the one-source and scalar-broadcast instructions. The scalar is the FP32 in its low bits for floating elements, and a
signed 64-bit integer for integer ones. -/
def Sys2Proof.Claims.TileOneSource : Prop :=
  (∀ q : OneTile, (q ∈ oneTile ∨ ∃ ty : BitVec 4, ty.toNat ≤ 8 ∧ q = converting ty) → ∀ (s : State) (d a : Num3),
    ToTheEnd s → resumesAt s q.key = none → acceptable s d a q.types (q.res (s.me.tile a).shape) →
    noNanTrap s 0 (q.res (s.me.tile a).shape)
      (fun r j => q.f (shType (s.me.tile a).shape) (rmOf (fpcOf s)) ((s.me.tile a).elem r j)) →
    ∃ t, exec (q.instr d a) s = .next t ∧ TileResult s t d 0 (q.res (s.me.tile a).shape) unitScales
      fun r j => q.f (shType (s.me.tile a).shape) (rmOf (fpcOf s)) ((s.me.tile a).elem r j)) ∧
  ∀ q ∈ scalarTiles, ∀ (s : State) (d a : Num3) (b : Reg) (f : Nat → Nat → FR), NoPort s [b] none → ToTheEnd s →
    resumesAt s q.2.1 = none → acceptable s d a [0, 1, 5, 6, 7, 8] (s.me.tile a).shape →
    (f = fun r j => if (fmtOf (shType (s.me.tile a).shape)).isSome
      then deliverTy (shType (s.me.tile a).shape) (rmOf (fpcOf s)) (q.2.2.1 (rmOf (fpcOf s))
        (valueOf (shType (s.me.tile a).shape) ((s.me.tile a).elem r j)) (Fmt.fp32.decode ((s.src b).toNat % 2 ^ 32)))
      else satInt (shType (s.me.tile a).shape) (q.2.2.2 (intOf (shType (s.me.tile a).shape) ((s.me.tile a).elem r j)) (s.src b).toInt)) →
    noNanTrap s 0 (s.me.tile a).shape f →
    ∃ t, exec (q.1 d a b) s = .next t ∧ TileResult s t d 0 (s.me.tile a).shape unitScales f

/-- R172, R173: TFMA adds td to the product, TSEL chooses by the mask in td, and TCPYM replaces td's elements where tb's mask is true and
keeps td's row scales (R326). -/
def Obligations.TileThreeSources : Prop :=
  (∀ (s : State) (d a b : Num3) (f : Nat → Nat → FR), ToTheEnd s → resumesAt s (restartKey 2 0 5) = none →
    agreeing s d a b [5, 6, 7] → (s.me.tile d).shape ≠ 0 → sameTRC (s.me.tile d).shape (s.me.tile a).shape = true →
    (f = fun r j => fmaE (shType (s.me.tile a).shape) (rmOf (fpcOf s)) ((s.me.tile a).elem r j) ((s.me.tile b).elem r j)
      ((s.me.tile d).elem r j)) →
    noNanTrap s 0 (s.me.tile a).shape f →
    ∃ t, exec (.tfma d a b) s = .next t ∧ TileResult s t d 0 (s.me.tile a).shape unitScales f) ∧
  (∀ (s : State) (d a b : Num3), ToTheEnd s → resumesAt s (restartKey 2 0 6) = none →
    agreeing s d a b (List.range 10) → (s.me.tile d).shape ≠ 0 → shType (s.me.tile d).shape = 9 →
    sameRC (s.me.tile d).shape (s.me.tile a).shape = true →
    ∃ t, exec (.tsel d a b) s = .next t ∧ TileResult s t d 0 (s.me.tile a).shape unitScales
      fun r j => ⟨if (s.me.tile d).elem r j ≠ 0 then (s.me.tile a).elem r j else (s.me.tile b).elem r j, 0⟩) ∧
  ∀ (s : State) (d a b : Num3), ToTheEnd s → resumesAt s (restartKey 2 0 7) = none →
    (s.me.tile a).shape ≠ 0 → (s.me.tile b).shape ≠ 0 → (s.me.tile d).shape ≠ 0 → shType (s.me.tile b).shape = 9 →
    sameRC (s.me.tile b).shape (s.me.tile a).shape = true → sameTRC (s.me.tile d).shape (s.me.tile a).shape = true →
    shapeOk (s.me.tile a).shape = true → (b = d → (s.me.tile b).shape = (s.me.tile a).shape) →
    ∃ t, exec (.tcpym d a b) s = .next t ∧ TileResult s t d 0 (s.me.tile a).shape (s.me.tile d).scales
      fun r j => ⟨if (s.me.tile b).elem r j ≠ 0 then (s.me.tile a).elem r j else (s.me.tile d).elem r j, 0⟩

/-- R177: the reductions, over rows (one column) and over columns (one row). -/
def Sys2Proof.Claims.TileReductions : Prop :=
  (∀ (s : State) (d a : Num3) (src : Tile) (res : W64) (f : Nat → Nat → FR), src = s.me.tile a → ToTheEnd s →
    acceptable s d a [0, 1, 5, 6, 7, 8] res →
    (resumesAt s (restartKey 2 3 0) = none → res = mkShape (if (fmtOf (shType src.shape)).isSome then 7 else 8) (shRows src.shape) 1
        (shVrows src.shape) 1 → (f = fun r _ => rowSum (shType src.shape) (src.rowElems r (shVcols src.shape))) → noNanTrap s 0 res f →
      ∃ t, exec (.trsum d a) s = .next t ∧ TileResult s t d 0 res unitScales f) ∧
    (resumesAt s (restartKey 2 3 1) = none → res = mkShape (shType src.shape) (shRows src.shape) 1 (shVrows src.shape) 1 →
        (f = fun r _ => maxOver (shType src.shape) (src.rowElems r (shVcols src.shape))) → noNanTrap s 0 res f →
      ∃ t, exec (.trmax d a) s = .next t ∧ TileResult s t d 0 res unitScales f)) ∧
  ∀ (s : State) (d a : Num3) (src : Tile) (res : W64) (f : Nat → Nat → FR), src = s.me.tile a → src.shape ≠ 0 →
    shType src.shape ∈ [0, 1, 5, 6, 7, 8] → res = mkShape (shType src.shape) 1 (shCols src.shape) 1 (shVcols src.shape) →
    shapeOk res = true → noNanTrap s 0 res f →
    (resumesAt s (restartKey 2 3 2) = none →
        (f = fun _ j => colSum (shType src.shape) ((List.range (shVrows src.shape)).map fun i => src.elem i j)) →
      ∃ t, exec (.tcsum d a) s = .next t ∧ TileResult s t d 0 res unitScales f) ∧
    (resumesAt s (restartKey 2 3 3) = none →
        (f = fun _ j => maxOver (shType src.shape) ((List.range (shVrows src.shape)).map fun i => src.elem i j)) →
      ∃ t, exec (.tcmax d a) s = .next t ∧ TileResult s t d 0 res unitScales f)

/-- R178: TBROW spreads row 0, TBCOL column 0, TTRANS transposes, TMOV copies shape, elements and row scales; none computes, so that no NaN
traps (R163). -/
def Sys2Proof.Claims.TileMoves : Prop :=
  (∀ (s : State) (d a b : Num3), ToTheEnd s → resumesAt s (restartKey 2 3 4) = none → (s.me.tile a).shape ≠ 0 →
    (s.me.tile b).shape ≠ 0 → shType (s.me.tile a).shape ≤ 9 → shType (s.me.tile b).shape = shType (s.me.tile a).shape →
    shCols (s.me.tile b).shape = shCols (s.me.tile a).shape → shapeOk (s.me.tile b).shape = true →
    ∃ t, exec (.tbrow d a b) s = .next t ∧
      TileResult s t d 0 (s.me.tile b).shape unitScales fun _ j => ⟨(s.me.tile a).elem 0 j, 0⟩) ∧
  (∀ (s : State) (d a b : Num3) (res : W64), ToTheEnd s → resumesAt s (restartKey 2 3 5) = none → (s.me.tile a).shape ≠ 0 →
    (s.me.tile b).shape ≠ 0 → shType (s.me.tile a).shape ≤ 9 → shType (s.me.tile b).shape ≤ 9 →
    shRows (s.me.tile b).shape = shRows (s.me.tile a).shape → res = withType (shType (s.me.tile a).shape) (s.me.tile b).shape →
    shapeOk res = true → (b = d → (s.me.tile b).shape = res) →
    ∃ t, exec (.tbcol d a b) s = .next t ∧ TileResult s t d 0 res unitScales fun r _ => ⟨(s.me.tile a).elem r 0, 0⟩) ∧
  (∀ (s : State) (d a : Num3) (sa res : W64), sa = (s.me.tile a).shape → resumesAt s (restartKey 2 3 6) = none → sa ≠ 0 → shType sa ≤ 9 →
    shCols sa ≤ 32 → shRows sa * tySize (shType sa) ≤ 64 → res = mkShape (shType sa) (shCols sa) (shRows sa) (shVcols sa) (shVrows sa) →
    shapeOk res = true →
    ∃ t, exec (.ttrans d a) s = .next t ∧ TileResult s t d 0 res unitScales fun r j => ⟨(s.me.tile a).elem j r, 0⟩) ∧
  ∀ (s : State) (d a : Num3), ToTheEnd s → resumesAt s (restartKey 2 3 7) = none →
    acceptable s d a (List.range 10) (s.me.tile a).shape →
    ∃ t, exec (.tmov d a) s = .next t ∧ OnlyTile s t d ∧ (t.me.tile d).shape = (s.me.tile a).shape ∧
      (t.me.tile d).scales = (s.me.tile a).scales ∧ t.me.flags = s.me.flags ∧
      (∀ r j, r < shVrows (s.me.tile a).shape → j < shVcols (s.me.tile a).shape → (t.me.tile d).elem r j = (s.me.tile a).elem r j) ∧
      ∀ r, shVrows (s.me.tile a).shape ≤ r → (t.me.tile d).row r = 0

/-- R180, R166: shape and element access. TSHAPE keeps what stays valid and clears the rest, TZERO clears all, TFILL fills the valid region,
TGETE reads an element of any row and column of the tile and TSETE writes one of the valid region, TMASKR and TMASKC cut the valid region. -/
def Obligations.TileShapes : Prop :=
  (∀ (s : State) (td : Num3) (a : Reg), NoPort s [a] none → shapeOk (s.src a) = true →
    (∃ t, exec (.tshape td a) s = .next t ∧ OnlyTile s t td ∧ (t.me.tile td).shape = s.src a ∧ (t.me.tile td).scales = unitScales ∧
      (∀ r i, r < shVrows (s.src a) → i < shVcols (s.src a) * tySize (shType (s.src a)) → i < 64 →
        Row64.byteAt ((t.me.tile td).row r) i = Row64.byteAt ((s.me.tile td).row r) i) ∧
      ∀ r i, ¬(r < shVrows (s.src a) ∧ i < shVcols (s.src a) * tySize (shType (s.src a))) → Row64.byteAt ((t.me.tile td).row r) i = 0) ∧
    (ToTheEnd s → resumesAt s (restartKey 2 5 2) = none →
      ∃ t, exec (.tzero td a) s = .next t ∧ OnlyTile s t td ∧ t.me.tile td = ⟨s.src a, Vector.replicate 32 0, unitScales⟩)) ∧
  (∀ (s : State) (td : Num3) (a : Reg), NoPort s [] (some a) →
    exec (.tshget td a) s = .next ((s.issue.writeMine a (s.me.tile td).shape).finish)) ∧
  (∀ (s : State) (td : Num3) (a : Reg) (sh : W64), NoPort s [a] none → ToTheEnd s → resumesAt s (restartKey 2 5 3) = none →
    sh = (s.me.tile td).shape → sh ≠ 0 → shapeOk sh = true →
    ∃ t, exec (.tfill td a) s = .next t ∧ OnlyTile s t td ∧ (t.me.tile td).shape = sh ∧ (t.me.tile td).scales = (s.me.tile td).scales ∧
      ∀ r j, r < shVrows sh → j < shVcols sh →
        (t.me.tile td).elem r j = tyBits (shType sh) ((s.src a).toNat % 2 ^ (8 * tySize (shType sh)))) ∧
  (∀ (s : State) (td : Num3) (a : Reg) (sh : W64), NoPort s [a] (some a) → sh = (s.me.tile td).shape → sh ≠ 0 →
    fld (s.src a) 0 16 < shRows sh → fld (s.src a) 16 16 < shCols sh →
    exec (.tgete td a) s = .next ((s.issue.writeMine a (w64 ((s.me.tile td).elem (fld (s.src a) 0 16) (fld (s.src a) 16 16)))).finish)) ∧
  (∀ (s : State) (td : Num3) (a : Reg) (sh : W64), NoPort s [a] none → sh = (s.me.tile td).shape → sh ≠ 0 → shapeOk sh = true →
    fld (s.src a) 0 16 < shVrows sh → fld (s.src a) 16 16 < shVcols sh →
    ∃ t, exec (.tsete td a) s = .next t ∧ OnlyTile s t td ∧ (t.me.tile td).shape = sh ∧ (t.me.tile td).scales = (s.me.tile td).scales ∧
      (t.me.tile td).elem (fld (s.src a) 0 16) (fld (s.src a) 16 16) =
        tyBits (shType sh) (fld (s.src a) 32 32 % 2 ^ (8 * tySize (shType sh))) ∧
      ∀ r j, r < 32 → (j + 1) * tySize (shType sh) ≤ 64 → (r ≠ fld (s.src a) 0 16 ∨ j ≠ fld (s.src a) 16 16) →
        (t.me.tile td).elem r j = (s.me.tile td).elem r j) ∧
  ∀ (s : State) (td : Num3) (a : Reg) (sh : W64), NoPort s [a] none → sh = (s.me.tile td).shape → sh ≠ 0 →
    exec (.tmaskr td a) s = .next ((s.issue.modMe fun sl => sl.setTile td
      ((sl.tile td).reshape (withValid sh (min (s.src a).toNat (shRows sh)) (shVcols sh)))).finish) ∧
    exec (.tmaskc td a) s = .next ((s.issue.modMe fun sl => sl.setTile td
      ((sl.tile td).reshape (withValid sh (shVrows sh) (min (s.src a).toNat (shCols sh))))).finish)

/-- R174, R180: integer results saturate to their type and raise ISAT exactly then. -/
def Sys2Proof.Claims.IntegerSaturation : Prop :=
  ∀ (ty : Nat) (v : Int), ty ∈ [0, 1, 8] →
    (intMin ty ≤ v → v ≤ intMax ty → intOf ty (satInt ty v).bits = v ∧ (satInt ty v).flags = 0) ∧
    (v < intMin ty → intOf ty (satInt ty v).bits = intMin ty ∧ (satInt ty v).flags = Flag.isat) ∧
    (intMax ty < v → intOf ty (satInt ty v).bits = intMax ty ∧ (satInt ty v).flags = Flag.isat) ∧
    (satInt ty v).bits < 2 ^ (8 * tySize ty)

/-! ## Numbers, streams, the matrix array (spec 10, 11, 12, 17) -/

namespace Sys2Proof.Claims

/-- The rational value of a finite number. -/
def ratOf (x : Fp) : Option ℚ :=
  match x with
  | .zero _ => some 0
  | .fin neg m e => some ((if neg then -1 else 1) * (m : ℚ) * 2 ^ e)
  | _ => none

/-- The floating formats (R150 to R152). -/
def formats : List Fmt := [.e4m3, .e5m2, .e5m3, .bf16, .fp16, .fp32]

/-- What an instruction of the core's own units leaves alone, and where it leaves the slot. -/
def OnlyCore (s t : State) : Prop :=
  OtherCoresSame s t ∧ (∀ n, n ≠ s.cur.slot → t.myCore.slot n = s.myCore.slot n) ∧ t.me.s = s.me.s ∧ t.me.p = s.me.p ∧
  t.me.pc = s.behind ∧ t.me.st = .wait ∧ t.me.waiting = .complete

/-- A tile after a receiving instruction has taken rows from its channel (R183): each goes to the next row, round the tile's rows. -/
def received (copy : Bool) (upd : Tile → Row64 → Nat → List FR) (t : Tile) (n : Nat) (rows : List Row64) : Tile :=
  match rows with
  | [] => if copy ∧ n = 0 then t.reshape (withValid t.shape 0 (shVcols t.shape)) else t
  | row :: rest =>
    let k := n % shRows t.shape
    let vr := if copy then min (n + 1) (shRows t.shape) else max (shVrows t.shape) (min (n + 1) (shRows t.shape))
    let els : List FR := upd t row k
    received copy upd ((t.reshape (withValid t.shape vr (shVcols t.shape))).setRow k (rowOf (tySize (shType t.shape)) (els.map fun e => e.bits))) (n + 1) rest

/-- The receiving forms of one channel and one tile (R183), with the types they accept. -/
def receiving : List ((Num3 → Num2 → Instr) × Nat × List Nat × Bool × (W64 → Tile → Row64 → Nat → List FR)) :=
  [(.tsadd, restartKey 2 7 0, [0, 1, 5, 6, 7, 8], false, fun fpc => itemRow (addAny (rmOf fpc))),
    (.tsmax, restartKey 2 7 1, [0, 1, 5, 6, 7, 8], false, fun _ => itemRow maxE),
    (.tscpy, restartKey 2 7 2, List.range 10, true, fun _ => itemRow fun _ _ x => ⟨x, 0⟩)]

/-- What TSFMA adds for one row: the item's elements times tb's, on td's. -/
def fmaRow (s : State) (d b : Num3) (t : Tile) (row : Row64) (k : Nat) : List FR :=
  (List.range (shVcols t.shape)).map fun j => fmaE (shType t.shape) (rmOf (fpcOf s))
    (tyBits (shType t.shape) (elemAt row (tySize (shType t.shape)) j)) ((if b = d then t else s.me.tile b).elem k j) (t.elem k j)

/-- A channel of the acting core. -/
def channelOf (s : State) (c : Num2) : List ChanItem := s.myCore.chans[c.toNat]'(c.isLt)

/-- A stream taken from a channel to its END. -/
def Streamed (s t : State) (d : Num3) (c : Num2) (res : Tile) (rest : List ChanItem) : Prop :=
  t.me.tile d = res ∧ channelOf t c = rest ∧ (∀ x, x ≠ c → channelOf t x = channelOf s x) ∧
  (∀ i, i ≠ d → t.me.tile i = s.me.tile i) ∧ OnlyCore s t

/-- The instructions of the MMA family (R196). -/
def mmaForms : List ((Num3 → Num3 → Num2 → BitVec 4 → Instr) × (Nat → MmaKind)) :=
  [(fun a t w _ => .mma a t w, fun _ => .plain), (fun a t w _ => .mmaz a t w, fun _ => .zero), (fun a t w _ => .mmas a t w, fun _ => .scaled),
    (.mmaa, .absorb), (.mmax, .expand)]

/-- An accumulator of the acting core, and a plane. -/
def accOf (s : State) (a : Num3) : Acc := s.myCore.accs[a.toNat]'(a.isLt)
def planeOf (s : State) (w : Num2) : Plane := s.myCore.planes[w.toNat]'(w.isLt)

/-- The slot may begin on an accumulator at once (R191). -/
abbrev lockFree (s : State) (a : Num3) : Prop :=
  (accOf s a).lock = some s.cur.slot ∨ ((accOf s a).lock = none ∧ ((accOf s a).queue = [] ∨ (accOf s a).queue.head? = some s.cur.slot))

/-- No instruction of another slot writes the projection rows from lo to hi - 1 (R195). -/
abbrev projReadable (s : State) (lo hi : Nat) : Prop :=
  ∀ q ∈ s.myCore.projUse, q.1 ≠ s.cur.slot → q.2.1 = true → ¬(q.2.2.1 < hi ∧ lo < q.2.2.2)

/-- The other accumulators, and the planes. -/
def OtherAccs (s t : State) (a : Num3) : Prop := ∀ x, x ≠ a → accOf t x = accOf s x

/-- What the Eyepiece delivers for row r of a tile (R200). -/
def eyeOf (s : State) (expand : Bool) (sel : Nat) (a : Num3) (r : Nat) : List Nat × Nat :=
  s.myCore.eyeRow expand sel (((s.me.tile a).rowElems r (shVcols (s.me.tile a).shape)).map (valueOf (shType (s.me.tile a).shape)))

end Sys2Proof.Claims

/-- R160, R172: sums and products of finite numbers are formed exactly, before the one rounding. -/
def Sys2Proof.Claims.ExactArithmetic : Prop :=
  ∀ (rm : Rm) (a b : Fp) (x y : ℚ), ratOf a = some x → ratOf b = some y →
    ratOf (a.add rm b).1 = some (x + y) ∧ ratOf (a.mul b).1 = some (x * y) ∧ (a.add rm b).2 = 0 ∧ (a.mul b).2 = 0 ∧
    ∀ (c : Fp) (z : ℚ), ratOf c = some z → ratOf (Fp.fma rm a b c).1 = some (x * y + z)

/-- R150 to R153: a number that a format holds is delivered in it unchanged, in every rounding mode, without a flag. -/
def Sys2Proof.Claims.RepresentableUnchanged : Prop :=
  ∀ f ∈ formats, ∀ (rm : Rm) (sat : Bool) (b : Nat) (x : ℚ), b < 2 ^ (1 + f.ew + f.mw) → ratOf (f.decode b) = some x →
    f.deliver rm sat (f.decode b) 0 = ⟨b, 0⟩

/-- R160: the K-step sum of the 8-bit formats is exact: the sum of the products of the finite elements. -/
def Sys2Proof.Claims.ExactKStep : Prop :=
  ∀ (xs ys : List Fp) (us vs : List ℚ), xs.map ratOf = us.map some → ys.map ratOf = vs.map some → xs.length = ys.length →
    ratOf (ksum false xs ys).1 = some (List.zipWith (fun x y => x * y) us vs).sum ∧ (ksum false xs ys).2 = 0

/-- R182, R183: a receiving instruction takes the items of its channel up to END, in order, and completes; where the channel is empty it
waits, with k.restart at the number of rows taken. -/
def Sys2Proof.Claims.StreamReceive : Prop :=
  (∀ q ∈ receiving, ∀ (s : State) (d : Num3) (c : Num2) (items : List (W64 × Row64)) (count : Nat) (rest : List ChanItem), ToTheEnd s →
    resumesAt s q.2.1 = none → (s.me.tile d).shape ≠ 0 → shType (s.me.tile d).shape ∈ q.2.2.1 → ntOf (fpcOf s) = false →
    items.length ≤ 4096 → channelOf s c = items.map (fun x => .data x.1 x.2) ++ .fin count :: rest →
    (∀ x ∈ s.myCore.chanRx, x.1 = c.toNat → x.2 = s.me.uid) →
    ∃ t, exec (q.1 d c) s = .next t ∧
      Streamed s t d c (received q.2.2.2.1 (q.2.2.2.2 (fpcOf s)) (s.me.tile d) 0 (items.map (·.2))) rest) ∧
  (∀ (s : State) (d b : Num3) (c : Num2) (items : List (W64 × Row64)) (count : Nat) (rest : List ChanItem), ToTheEnd s →
    resumesAt s (restartKey 2 7 3) = none → (s.me.tile d).shape ≠ 0 → shType (s.me.tile d).shape ∈ [5, 6, 7] →
    (s.me.tile b).shape ≠ 0 → sameTRC (s.me.tile b).shape (s.me.tile d).shape = true → ntOf (fpcOf s) = false → items.length ≤ 4096 →
    channelOf s c = items.map (fun x => .data x.1 x.2) ++ .fin count :: rest →
    (∀ x ∈ s.myCore.chanRx, x.1 = c.toNat → x.2 = s.me.uid) →
    ∃ t, exec (.tsfma d c b) s = .next t ∧ Streamed s t d c (received false (fmaRow s d b) (s.me.tile d) 0 (items.map (·.2))) rest) ∧
  ∀ q ∈ receiving, ∀ (s : State) (d : Num3) (c : Num2), resumesAt s q.2.1 = none → (s.me.tile d).shape ≠ 0 →
    shType (s.me.tile d).shape ∈ q.2.2.1 → channelOf s c = [] → (∀ x ∈ s.myCore.chanRx, x.1 = c.toNat → x.2 = s.me.uid) →
    ∃ t, exec (q.1 d c) s = .next t ∧ t.me.st = .wait ∧ t.me.waiting = .blocked true ∧ t.me.pc = s.me.pc ∧
      resumesAt t q.2.1 = some 0 ∧ t.me.tiles = s.me.tiles

/-- R184: TSEND places its tile's valid rows, then END, into the channel of the downstream core, of the same world; what does not fit is
placed by CHANNEL_ITEM_PLACEMENT as room appears, which completes the instruction with its END. -/
def Sys2Proof.Claims.StreamSend : Prop :=
  (∀ (s : State) (d : Num3) (c : Num2) (sh : W64) (old : List ChanItem), ToTheEnd s → resumesAt s sendKey = none → sh = (s.me.tile d).shape → sh ≠ 0 →
    shType sh ≤ 9 → (s.core (downstream s.cur.core)).world = s.myWorld →
    (∀ x ∈ s.myCore.chanTx, x.1 = c.toNat → x.2 = s.me.uid) → old = vat [] (s.core (downstream s.cur.core)).chans c.toNat →
    old.length + shVrows sh < 32 →
    ∃ t, exec (.tsend d c) s = .next t ∧ t.me.pc = s.behind ∧ t.me.st = .wait ∧ t.me.waiting = .complete ∧ t.me.tiles = s.me.tiles ∧
      t.me.s = s.me.s ∧ t.mem = s.mem ∧
      vat [] (t.core (downstream s.cur.core)).chans c.toNat =
        old ++ (List.range (shVrows sh)).map (fun r => .data sh ((s.me.tile d).row r)) ++ [.fin (shVrows sh)]) ∧
  (∀ (s : State) (d : Num3) (c : Num2), resumesAt s sendKey = none → (s.me.tile d).shape ≠ 0 → shType (s.me.tile d).shape ≤ 9 →
    s.cur.slot ≠ 15 → (s.core (downstream s.cur.core)).world ≠ s.myWorld →
    ∃ t, exec (.tsend d c) s = .next t ∧ t.me.st = .trapped ∧ t.me.cause = 0x06 ∧ t.me.tval = w64 (downstream s.cur.core)) ∧
  ∀ (s : State) (core n chan tile len : Nat) (before after : Sparse Slot) (sl : Slot) (old : List ChanItem),
    (s.core core).slots = before ++ (n, sl) :: after → (∀ q ∈ before, s.canSend core q.2 = none) → s.slot core n = sl →
    sl.st = .wait → sl.waiting = .send chan tile len → sl.stopReq = .none → chan < 4 → tile < 8 →
    old = vat [] (s.core (downstream core)).chans chan →
    old.length + (shVrows (vat Tile.empty sl.tiles tile).shape - fld sl.restart 0 16) < 32 →
    fld sl.restart 0 16 ≤ shVrows (vat Tile.empty sl.tiles tile).shape → shVrows (vat Tile.empty sl.tiles tile).shape ≤ 32 →
    ∃ t, exec (.channelItemPlacement core) s = .next t ∧ (t.slot core n).pc = sl.pc + w64 len ∧ (t.slot core n).st = .wait ∧
      (t.slot core n).waiting = .complete ∧ t.mem = s.mem ∧
      vat [] (t.core (downstream core)).chans chan = old ++
        (rowRange (fld sl.restart 0 16) (shVrows (vat Tile.empty sl.tiles tile).shape)).map
          (fun r => .data (vat Tile.empty sl.tiles tile).shape ((vat Tile.empty sl.tiles tile).row r)) ++
        [.fin (shVrows (vat Tile.empty sl.tiles tile).shape)]

/-- R160 to R162, R196, R197, R200: an instruction of the MMA family. Each valid row of the tile, as it is or through the Eyepiece, is
multiplied with the active half of a plane that the slot owns and adds to its accumulator's row; columns that the plane does not have
keep their cells. -/
def Obligations.MatrixMultiply : Prop :=
  ∀ q ∈ mmaForms, ∀ (s : State) (a td : Num3) (w : Num2) (sel : BitVec 4) (k : MmaKind) (tl : Tile) (h : Half) (ty : Nat),
    k = q.2 sel.toNat → tl = s.me.tile td → h = (planeOf s w).active → ty = accTy (accOf s a) → ToTheEnd s →
    resumesAt s (restartKey 3 0 k.fn) = none → s.me.accown.getLsbD a.toNat = true → s.me.plown.getLsbD w.toNat = true → lockFree s a →
    tl.shape ≠ 0 → h.shape ≠ 0 → pairs k (shType tl.shape) (hType h.shape) ty = true → (k.eye = none → shVcols tl.shape = hRows h.shape) →
    (∀ e, k.eye = some e → projReadable s (eyeRows e.1 e.2).1 (eyeRows e.1 e.2).2) → ntOf (fpcOf s) = false → shVrows tl.shape ≤ 32 →
    ∃ t, exec (q.1 a td w sel) s = .next t ∧ OnlyCore s t ∧ t.me.tiles = s.me.tiles ∧ t.myCore.planes = s.myCore.planes ∧ OtherAccs s t a ∧
      (∀ r n, r < shVrows tl.shape → n < 128 → cellAt (vat 0 (accOf t a).rows r) n =
        match (if n < hCols h.shape then (mmaCell k (k.eye.isSome || decide (5 ≤ hType h.shape)) (s.myCore.feed k tl r (hRows h.shape)).1 h
          (Fmt.fp32.decode (vat 0 tl.scales r).toNat) ty (cellAt (vat 0 (accOf s a).rows r) n) n).1 else none) with
        | some u => u.bits % 2 ^ 32
        | none => cellAt (vat 0 (accOf s a).rows r) n) ∧
      ∀ r, shVrows tl.shape ≤ r → vat 0 (accOf t a).rows r = vat 0 (accOf s a).rows r

/-- R201: EPEXP and EPABS deliver what the Eyepiece forms, as BF16, into a tile of 32 columns. -/
def Sys2Proof.Claims.EyepieceTiles : Prop :=
  ∀ (expand : Bool) (s : State) (d a : Num3) (sel : BitVec 4) (res : W64), ToTheEnd s →
    resumesAt s (restartKey 3 4 (if expand then 0 else 1)) = none → res = mkShape 5 (shRows (s.me.tile a).shape) 32 (shVrows (s.me.tile a).shape) 32 →
    acceptable s d a [2, 5] res → projReadable s (eyeRows expand sel.toNat).1 (eyeRows expand sel.toNat).2 → ntOf (fpcOf s) = false →
    ∃ t, exec (if expand then .epexp d a sel else .epabs d a sel) s = .next t ∧ OnlyCore s t ∧ (∀ i, i ≠ d → t.me.tile i = s.me.tile i) ∧
      (t.me.tile d).shape = res ∧ (t.me.tile d).scales = unitScales ∧
      ∀ r j, r < shVrows (s.me.tile a).shape → j < 32 → (t.me.tile d).elem r j = (eyeOf s expand sel.toNat a r).1.getD j 0 % 2 ^ 16

/-- R186 to R191: accumulators. A claim of a free accumulator takes it, zeroed and of the type named; ACCZ zeroes it, ACCREL zeroes and frees
it; ACCRD reads 16 columns of all 32 rows into a tile of its type, ACCWR writes a tile's valid rows and columns into them. -/
def Obligations.Accumulators : Prop :=
  (∀ (s : State) (a : Num3) (ty : BitVec 2), (accOf s a).claimed = false → (∀ q ∈ s.myCore.claims, q.2 ≠ (false, a.toNat)) → lockFree s a →
    ∃ t, exec (.accclm a ty) s = .next t ∧ OnlyCore s t ∧ OtherAccs s t a ∧ (accOf t a).claimed = true ∧
      (accOf t a).owner = s.cur.slot ∧ (accOf t a).type = ty ∧ (accOf t a).rows = Vector.replicate 32 0 ∧
      t.me.accown = s.me.accown ||| BitVec.twoPow 8 a.toNat) ∧
  (∀ (s : State) (a : Num3), s.me.accown.getLsbD a.toNat = true → lockFree s a →
    (∃ t, exec (.accz a) s = .next t ∧ OnlyCore s t ∧ OtherAccs s t a ∧ (accOf t a).rows = Vector.replicate 32 0 ∧
      (accOf t a).claimed = (accOf s a).claimed ∧ t.me.accown = s.me.accown) ∧
    ∃ t, exec (.accrel a) s = .next t ∧ OnlyCore s t ∧ OtherAccs s t a ∧ (accOf t a).claimed = false ∧
      (accOf t a).rows = Vector.replicate 32 0 ∧ t.me.accown.getLsbD a.toNat = false) ∧
  (∀ (s : State) (a td rb : Num3) (ty : Nat), ToTheEnd s → resumesAt s (restartKey 3 2 0) = none → (accOf s a).claimed = true →
    lockFree s a → ty = accTy (accOf s a) →
    ∃ t, exec (.accrd a td rb) s = .next t ∧ OnlyCore s t ∧ (accOf t a).rows = (accOf s a).rows ∧ (t.me.tile td).shape = mkShape ty 32 16 32 16 ∧
      (∀ i, i ≠ td → t.me.tile i = s.me.tile i) ∧
      ∀ r j, r < 32 → j < 16 → (t.me.tile td).elem r j = cellAt (vat 0 (accOf s a).rows r) (16 * rb.toNat + j) % 2 ^ (8 * tySize ty)) ∧
  ∀ (s : State) (a td rb : Num3) (sh : W64), ToTheEnd s → resumesAt s (restartKey 3 2 1) = none → s.me.accown.getLsbD a.toNat = true →
    lockFree s a → sh = (s.me.tile td).shape → sh ≠ 0 → shType sh = accTy (accOf s a) → shCols sh = 16 → shVrows sh ≤ 32 → shVcols sh ≤ 16 →
    ∃ t, exec (.accwr a td rb) s = .next t ∧ OnlyCore s t ∧ OtherAccs s t a ∧ t.me.tiles = s.me.tiles ∧
      ∀ r n, r < 32 → n < 128 → cellAt (vat 0 (accOf t a).rows r) n =
        if r < shVrows sh ∧ 16 * rb.toNat ≤ n ∧ n < 16 * rb.toNat + shVcols sh then (s.me.tile td).elem r (n - 16 * rb.toNat)
        else cellAt (vat 0 (accOf s a).rows r) n

/-- R185 to R187: planes. SWAP exchanges the halves; a claim of a free plane takes it, both halves cleared; PLZ clears, PLREL clears and
frees. Without the claim each but PLCLM traps ACC_OWN with 0x10 and the plane's number in k.tval, and the accumulator instructions with the
accumulator's number. -/
def Obligations.Planes : Prop :=
  (∀ (s : State) (w : Num2), s.me.plown.getLsbD w.toNat = true →
    (∃ t, exec (.swap w) s = .next t ∧ OnlyCore s t ∧ (planeOf t w).active = (planeOf s w).shadow ∧
      (planeOf t w).shadow = (planeOf s w).active ∧ ∀ x, x ≠ w → planeOf t x = planeOf s x) ∧
    (∃ t, exec (.plz w) s = .next t ∧ OnlyCore s t ∧ (planeOf t w).active = Half.empty ∧ (planeOf t w).shadow = Half.empty ∧
      (planeOf t w).claimed = (planeOf s w).claimed ∧ ∀ x, x ≠ w → planeOf t x = planeOf s x) ∧
    ∃ t, exec (.plrel w) s = .next t ∧ OnlyCore s t ∧ planeOf t w = Plane.init ∧ t.me.plown.getLsbD w.toNat = false ∧
      ∀ x, x ≠ w → planeOf t x = planeOf s x) ∧
  (∀ (s : State) (w : Num2), (planeOf s w).claimed = false → (∀ q ∈ s.myCore.claims, q.2 ≠ (true, w.toNat)) →
    ∃ t, exec (.plclm w) s = .next t ∧ OnlyCore s t ∧ planeOf t w = ⟨true, s.cur.slot, Half.empty, Half.empty⟩ ∧
      t.me.plown = s.me.plown ||| BitVec.twoPow 4 w.toNat ∧ ∀ x, x ≠ w → planeOf t x = planeOf s x) ∧
  (∀ (s : State) (w : Num2), s.me.plown.getLsbD w.toNat = false → ∀ i ∈ [Instr.swap w, .plz w, .plrel w],
    exec i s = .next (takeTrap ⟨Cause.accOwn, w64 (0x10 + w.toNat), 0, 0xFFFF⟩ s.issue)) ∧
  ∀ (s : State) (a : Num3), s.me.accown.getLsbD a.toNat = false → ∀ i ∈ [Instr.accz a, .accrel a],
    exec i s = .next (takeTrap ⟨Cause.accOwn, w64 a.toNat, 0, 0xFFFF⟩ s.issue)

/-- R259, R262: SCOREB adds the logarithm of each multiplicity to a score; TRIPC joins two rows of partial results by their running maxima. -/
def Sys2Proof.Claims.AttentionTiles : Prop :=
  (∀ (s : State) (d a b : Num3) (va vb : W64) (f : Nat → Nat → FR), ToTheEnd s → s.cur.slot ≠ 14 → resumesAt s (restartKey 6 3 0) = none →
    va = (s.me.tile a).shape → vb = (s.me.tile b).shape → va ≠ 0 → vb ≠ 0 → shType va = 7 → shType vb = 1 → shVcols va ≤ shVcols vb → 1 ≤ shVrows vb →
    shapeOk va = true → (b = d → vb = va) → (f = fun r j => scoreEl ((s.me.tile a).elem r j) ((s.me.tile b).elem 0 j)) → noNanTrap s 0 va f →
    ∃ t, exec (.scoreb d a b) s = .next t ∧ TileResult s t d 0 va unitScales f) ∧
  ∀ (s : State) (d a b : Num3) (va : W64) (f : Nat → Nat → FR), ToTheEnd s → s.cur.slot ≠ 14 → resumesAt s (restartKey 6 4 0) = none →
    va = (s.me.tile a).shape → va = (s.me.tile b).shape → va ≠ 0 → shType va = 7 → 2 ≤ shCols va → shapeOk va = true →
    (f = fun r j => (tripRow ((s.me.tile a).rowElems r (shVcols va)) ((s.me.tile b).rowElems r (shVcols va))).getD j ⟨0, 0⟩) → noNanTrap s 0 va f →
    ∃ t, exec (.tripc d a b) s = .next t ∧ TileResult s t d 0 va unitScales f

/-! ## Copies and messages (spec 08, R136 to R146, R284) -/

namespace Sys2Proof.Claims

/-- Where a copy descriptor may stand (R136): in the scratchpad, or in the mailbox block of the slot that the copy is for. -/
abbrev descAt (s : State) (d a : Reg) : Prop :=
  (s.src a).toNat % 32 = 0 ∧ fld (s.src a) 61 3 = 6 ∧ (s.src d).toNat ≤ 14 ∧
  (fld (s.src a) 58 3 = 0 ∨ (fld (s.src a) 58 3 = 3 ∧ fld (s.src a) 0 58 < 0x200 ∧ (s.src d).toNat = fld (s.src a) 5 4))

/-- A copy's ranges pass the checks under its captured chain, with the capabilities they use (R138). -/
def RangesPass (core : Nat) (c : Copy) (s : State) (caps : List Cap) (t : State) : Prop :=
  ∃ u rs ws, checkParts (c.who core) c .read s = .ok rs u ∧ checkParts (c.who core) c .write u = .ok ws t ∧ caps = rs ++ ws

/-- A copy accepted into the engine, its requester charged (R138). -/
def accepted (s : State) (core : Nat) (c : Copy) (caps : List Cap) : State :=
  (s.chargeCopy core c caps).modCore core (·.putCopy { c with accepted := true, st := .running })

/-- A copy that a failed check holds, with the row or chunk that failed (R141, R284). -/
def heldAt (c : Copy) (row : Nat) : Copy := { c with st := .held, fail := row }

/-- A copy that a failed check of acceptance holds: its requester is told, and it stands in the engine behind the others (R141). -/
def refused (s : State) (core : Nat) (c : Copy) (ti : TrapInfo) : State :=
  (s.tellCopyFault core (heldAt c ti.tcoord.toNat) (copyFaultInfo c ti.tcoord.toNat ti)).modCore core (·.putCopy (heldAt c ti.tcoord.toNat))

/-- A copy's ranges fail a check. -/
def RangesFail (core : Nat) (c : Copy) (s : State) (ti : TrapInfo) (t : State) : Prop :=
  checkParts (c.who core) c .read s = .error (.trap ti) t ∨
    ∃ rs v, checkParts (c.who core) c .read s = .ok rs v ∧ checkParts (c.who core) c .write v = .error (.trap ti) t

/-- Bytes of a copy that will not be written, subtracted from its barrier; an underflow is refused, and changes nothing (R284). -/
def dropped (s : State) (c : Copy) (n : Nat) : State :=
  match landOn (c.who s.cur.core) c.bar n s s with
  | .ok t _ => t
  | .error _ _ => s

/-- A copy accepted again is the latest of its engine (R139). -/
def acceptedAgain (s : State) (i : Nat) (c : Copy) (caps : List Cap) : State :=
  (s.chargeCopy s.cur.core c caps).modMyCore fun k => (k.setCopy i []).putCopy { c with accepted := true, st := .running }

/-- What is left of a copy that CPYABORT ends (R284). -/
def aborted (c : Copy) : List Copy := if c.msg then [{ c with status := 2, row := c.parts, left := 0, st := .done }] else []

/-- The i-th copy of the acting core is the oldest held one that a word names (R284). -/
abbrev OldestHeld (s : State) (v : W64) (i : Nat) (c : Copy) : Prop :=
  fld v 4 12 = 0 ∧ fld v 32 32 = 0 ∧ fld v 0 4 ≤ 13 ∧ s.myCore.copies[i]? = some c ∧ c.st = .held ∧ c.slot = fld v 0 4 ∧
  c.tag = fld v 16 16 ∧ ∀ x ∈ s.myCore.copies.take i, ¬(x.st = .held ∧ x.slot = fld v 0 4 ∧ x.tag = fld v 16 16)

/-- The two plain copies. -/
def plainCopies : List ((Reg → Reg → Instr) × Nat) := [(.cpy, 0), (.cpy2d, 1)]

end Sys2Proof.Claims

/-- R136, R138: in the copy slot, a descriptor that keeps the rules is accepted: its mailbox block is emptied, its ranges are checked under
the requester's chain, the requester is charged, and the copy stands in the engine behind the others. A range that fails leaves the copy
held, and the requester is told (R141). In any other slot the three instructions trap PRIV. -/
def Sys2Proof.Claims.CopyAcceptance : Prop :=
  (∀ q ∈ plainCopies, ∀ (s u e : State) (d a : Reg) (x : CopyDesc) (dcs : List Cap) (c : Copy), NoPort s [d, a] none →
    s.cur.slot = 14 → descAt s d a → readDesc s.cur.core (s.src a) s.issue = .ok (x, dcs) u → x.op = q.2 → x.fieldsOk = true →
    x.sizeOk = true → u.myCore.copies.length < 16 → emptyBlock s.cur.core (s.src a) u = .ok () e →
    c = plainCopy (u.slot s.cur.core (s.src d).toNat) (s.src d).toNat s.myWorld x →
    (∀ caps t, RangesPass s.cur.core c (e.chargeAll dcs) caps t → exec (q.1 d a) s = .next ((accepted t s.cur.core c caps).finish)) ∧
    ∀ ti t, RangesFail s.cur.core c (e.chargeAll dcs) ti t → exec (q.1 d a) s = .next ((refused t s.cur.core c ti).finish)) ∧
  (∀ (s u v e : State) (d a : Reg) (x : CopyDesc) (dcs lcs : List Cap) (bad : Option TrapInfo) (c : Copy), NoPort s [d, a] none →
    s.cur.slot = 14 → descAt s d a → readDesc s.cur.core (s.src a) s.issue = .ok (x, dcs) u → x.op = 2 → x.fieldsOk = true →
    x.sizeOk = true → u.myCore.copies.length < 16 →
    layoutCopy s.cur.core (s.src d).toNat s.myWorld (s.src a) x u = .ok (bad, c, lcs) v → emptyBlock s.cur.core (s.src a) v = .ok () e →
    (∀ caps t, bad = none → RangesPass s.cur.core c (e.chargeAll dcs) caps t →
      exec (.cpyl d a) s = .next ((accepted t s.cur.core c (lcs ++ caps)).finish)) ∧
    (∀ ti t, bad = none → RangesFail s.cur.core c (e.chargeAll dcs) ti t →
      exec (.cpyl d a) s = .next ((refused t s.cur.core c ti).finish)) ∧
    ∀ ti, bad = some ti → exec (.cpyl d a) s = .next ((refused (e.chargeAll dcs) s.cur.core c ti).finish)) ∧
  ∀ q ∈ plainCopies ++ [(.cpyl, 2)], ∀ (s : State) (d a : Reg), NoPort s [d, a] none → s.cur.slot ≠ 14 →
    exec (q.1 d a) s = .next (takeTrap ⟨Cause.priv, s.me.pc, 0, 0xFFFF⟩ s.issue)

/-- R139 to R141: a running copy that no earlier one of its requester blocks moves its next chunk of at most 64 bytes, which lands on the
copy's barrier with the write; a check that fails holds it there and tells the requester; a copy that ends sends its message, where its
descriptor asks for one; a fault that waits with its requester's slot traps it at an instruction boundary. -/
def Sys2Proof.Claims.CopyProgress : Prop :=
  (∀ (s : State) (core k : Nat) (c : Copy) (r n : Nat) (a b : W64) (len : Nat), (s.core core).copies[k]? = some c → c.st = .running →
    (s.world c.world).stopped = false → (∀ x ∈ (s.core core).copies.take k, x.blocks c = false) → c.part c.row = some (r, a, b, len) →
    n = min 64 (len - c.byte) →
    (∀ bs u t, engineRead (c.who core) (a + w64 c.byte) n s = .ok bs u →
      engineWrite (c.who core) (b + w64 c.byte) bs (landOn (c.who core) c.bar n) u = .ok () t →
      exec (.copyChunk core k) s = .next (t.modCore core fun q => (q.setCopy k (c.advance n len).finish).tally 0x21 0 1)) ∧
    ∀ ti t, (engineRead (c.who core) (a + w64 c.byte) n s = .error (.trap ti) t ∨ (∃ bs u,
        engineRead (c.who core) (a + w64 c.byte) n s = .ok bs u ∧
        engineWrite (c.who core) (b + w64 c.byte) bs (landOn (c.who core) c.bar n) u = .error (.trap ti) t)) →
      exec (.copyChunk core k) s = .next ((t.modCore core (·.setCopy k [heldAt c (if c.op = 0 then c.byte / 64 else r)])).tellCopyFault core
        (heldAt c (if c.op = 0 then c.byte / 64 else r)) (copyFaultInfo c r ti))) ∧
  (∀ (s : State) (core k : Nat) (c : Copy), (s.core core).copies[k]? = some c → c.st = .done → (s.world c.world).stopped = false →
    exec (.copyCompletionMessage core k) s = .next { s.modCore core (fun q => { q with copies := q.copies.take k ++ q.copies.drop (k + 1) }) with
      net := s.net ++ [⟨core, c.slot, ⟨w64 (core * 2 ^ 21 + 14 * 2 ^ 17 + 1 * 2 ^ 13), w64 (c.status * 2 ^ 56 + c.tag * 2 ^ 16),
        w64 c.written, pathScope (pathOf c.dst)⟩, none⟩] }) ∧
  ∀ (s : State) (core n : Nat) (ti : TrapInfo), (s.slot core n).copyFault = some ti → (s.slot core n).st = .run →
    (s.slot core n).reissue = false →
    exec (.copyfaultDelivery core n) s =
      .next (takeTrap ti { s.modSlot core n (fun sl => { sl with copyFault := none }) with cur := ⟨core, n, 0, none⟩ })

/-- R284: what the supervisor does with the oldest held copy of a slot and tag: CPYRETRY makes it run again, checked as at acceptance where it
had not been accepted, and its layout read where it had not been; CPYSKIP drops the failed chunk of a CPY, or the rest of the failed row, and
makes the acceptance again where there was none; CPYABORT ends it. Where the layout could not be read, the count of the bytes dropped is free
(log 96). The bytes not written are
subtracted from its barrier. Outside the supervisor slot they trap PRIV. -/
def Sys2Proof.Claims.HeldCopies : Prop :=
  (∀ (s : State) (a : Reg) (i : Nat) (c : Copy), NoPort s [a] none → s.cur.slot = 15 → OldestHeld s.issue (s.src a) i c →
    (c.accepted = true →
      exec (.cpyretry a) s = .next ((s.issue.modMyCore fun k => k.setCopy i [{ c with st := .running }]).finish)) ∧
    (∀ caps t, c.accepted = false → c.laid = true → RangesPass s.cur.core c s.issue caps t →
      exec (.cpyretry a) s = .next ((acceptedAgain t i c caps).finish)) ∧
    (∀ l cs u d ds v caps t, c.accepted = false → c.laid = false → c.record s.cur.core c.src s.issue = .ok (l, cs) u →
      c.lay s.cur.core l u = .ok (d, ds) v → RangesPass s.cur.core d v caps t →
      exec (.cpyretry a) s = .next ((acceptedAgain t i d (cs ++ ds ++ caps)).finish)) ∧
    (c.laid = true →
      exec (.cpyabort a) s = .next (((dropped s.issue c c.left).modMyCore fun k => k.setCopy i (aborted c)).finish)) ∧
    (c.laid = false → ∃ n, exec (.cpyabort a) s = .next (((dropped { s.issue with freeCtr := s.issue.freeCtr + 1 } c n).modMyCore fun k =>
      k.setCopy i (aborted c)).finish)) ∧
    (c.laid = true → c.accepted = true → exec (.cpyskip a) s = .next (((dropped s.issue c (holeBytes c.failed)).modMyCore fun k =>
      k.setCopy i ({ c.skip with st := .running } : Copy).finish).finish)) ∧
    (c.laid = true → c.accepted = false → exec (.cpyskip a) s = .next ((if c.skip.row < c.parts
      then (dropped s.issue c (holeBytes c.failed)).acceptAgain s.cur.core i c.skip
      else (dropped s.issue c (holeBytes c.failed)).modMyCore fun k => k.setCopy i c.skip.finish).finish)) ∧
    (c.laid = false → ∃ t, exec (.cpyskip a) s = .next t ∧ t.me.pc = s.behind ∧ t.me.st = .wait ∧ t.me.waiting = .complete)) ∧
  (∀ c : Copy, c.skip.written = c.written ∧ c.skip.status = 1 ∧ c.skip.left = c.left - holeBytes c.failed ∧
    c.skip.holes = c.holes ++ c.failed ∧
    (c.op = 0 → c.failed = [(0, 64 * c.fail, min (64 * c.fail + 64) c.rowBytes)]) ∧
    (c.op ≠ 0 → c.runs = [] → c.failed = [(c.fail, if c.fail = c.row then c.byte else 0, c.rowBytes)]) ∧
    (c.op ≠ 0 → c.runs = [] → c.holes = [] → c.fail = c.row → c.row < c.rows → c.byte < c.rowBytes →
      holeBytes c.failed = c.rowBytes - c.byte ∧ c.skip.row = c.row + 1 ∧ c.skip.byte = 0)) ∧
  ∀ i ∈ [Instr.cpyretry, Instr.cpyskip, Instr.cpyabort], ∀ (s : State) (a : Reg), NoPort s [a] none → s.cur.slot ≠ 15 →
    exec (i a) s = .next (takeTrap ⟨Cause.priv, s.me.pc, 0, 0xFFFF⟩ s.issue)

/-- R142: DRAIN waits while its slot's mailbox block holds a descriptor or an accepted copy of the slot to the path has not ended; then the slot's
earlier stores to the path have been performed, and path 3 acquires at system scope. -/
def Sys2Proof.Claims.Drain : Prop :=
  ∀ (s t : State) (path : Num2), t = s.issue.performSlot s.cur.core s.cur.slot →
    (s.issue.isFull (ctrlLoc s.cur.core (32 * s.cur.slot)) = false →
      (∀ c ∈ s.issue.myCore.copies, c.slot = s.cur.slot → c.accepted = true → pathOf c.dst = path.toNat → c.st = .done) →
      (∀ e ∈ t.myCore.sb, e.uid = t.me.uid → ∀ x ∈ e.targets, targetPath x ≠ path.toNat) →
      exec (.drain path) s = .next ((if path = 3 then t.modMyCore (·.invalidateL1) else t).finish)) ∧
    (s.issue.isFull (ctrlLoc s.cur.core (32 * s.cur.slot)) = true ∨
        (∃ c ∈ s.issue.myCore.copies, c.slot = s.cur.slot ∧ c.accepted = true ∧ pathOf c.dst = path.toNat ∧ c.st ≠ .done) →
      exec (.drain path) s = .next (s.issue.waitIn (.blocked false))) ∧
    (s.issue.isFull (ctrlLoc s.cur.core (32 * s.cur.slot)) = false →
      (∀ c ∈ s.issue.myCore.copies, c.slot = s.cur.slot → c.accepted = true → pathOf c.dst = path.toNat → c.st = .done) →
      (∃ e ∈ t.myCore.sb, e.uid = t.me.uid ∧ ∃ x ∈ e.targets, targetPath x = path.toNat) →
      exec (.drain path) s = .next (t.waitIn (.blocked false)))

/-- R143 to R146: SENDMSG releases, reads its 16 bytes and waits in the network until MESSAGE_PLACEMENT places the message, in the target's
queue of 8, or in the core's overflow buffer of 32; WAITMSG answers the number of waiting messages; RECVMSG writes the oldest to memory and
its header, with the valid bit, to d, or 0 where there is none. -/
def Obligations.Messages : Prop :=
  (∀ (s u t : State) (d a : Reg) (m : Mod) (v ea : W64) (bs : List Byte) (caps : List Cap), NoPort s [d, a] none → v = s.src d →
    ea = s.src a → fld v 32 32 = 0 → flag v 30 = false → (flag v 31 = false → fld v 13 17 = 0) → (flag v 31 = true → s.cur.slot = 15) →
    ea.toNat % 16 = 0 → fld ea 61 3 = 6 → fld ea 58 3 ≤ 2 → (s.issue.core (fld v 4 9)).world = s.issue.myWorld →
    releaseAt m.order m.scope s.issue = .ok () u → readMine ea 16 8 Mod.none u = .ok (bs, caps) t →
    exec (.sendmsg d a m) s = .next (({ t.chargeAll caps with
      net := t.net ++ [⟨fld v 4 9, fld v 0 4, ⟨if flag v 31 then w64 (fld v 13 17 * 2 ^ 13)
          else w64 (s.cur.core * 2 ^ 21 + s.cur.slot * 2 ^ 17), wordAt bs 0, wordAt bs 1, 4⟩,
        some (s.cur.core, s.cur.slot, s.cur.len)⟩] } : State).waitIn .net)) ∧
  (∀ (s : State) (core : Nat) (before after : List NetMsg) (n : NetMsg) (k : Core), s.net = before ++ n :: after → n.core = core →
    (∀ x ∈ before, x.core = core → (s.core core).placeMsg x.slot x.msg = none) → (s.core core).placeMsg n.slot n.msg = some k →
    exec (.messagePlacement core) s = .next (match n.sender with
      | some (c, m, len) => ({ s.setCore core k with net := before ++ after } : State).modSlot c m fun sl =>
          sl.after (sl.pc + w64 len) .wait .complete
      | none => { s.setCore core k with net := before ++ after })) ∧
  (∀ (c : Core) (n : Nat) (m : Msg),
    ((c.inbox n).length < 8 → (∀ x ∈ c.overflow, x.tslot ≠ n) → c.placeMsg n m = some (c.setInbox n (c.inbox n ++ [m]))) ∧
    (8 ≤ (c.inbox n).length ∨ (∃ x ∈ c.overflow, x.tslot = n) →
      (c.overflow.length < 32 → ∃ k, c.placeMsg n m = some k ∧
        k.overflow = c.overflow ++ [{ m with header := m.header ||| w64 n }] ∧ k.msgs = c.msgs) ∧
      (32 ≤ c.overflow.length → c.placeMsg n m = none))) ∧
  (∀ (s : State) (d a : Reg), NoPort s [a] (some d) →
    (s.issue.myCore.inbox s.cur.slot ≠ [] →
      exec (.waitmsg d a) s = .next ((s.issue.writeMine d (w64 (s.issue.myCore.inbox s.cur.slot).length)).finish)) ∧
    (∀ n, s.issue.myCore.inbox s.cur.slot = [] → s.issue.me.limit = some n → n ≤ s.issue.cycle →
      exec (.waitmsg d a) s = .next ((s.issue.writeMine d 0).finish)) ∧
    (s.issue.myCore.inbox s.cur.slot = [] → s.issue.me.limit = none →
      exec (.waitmsg d a) s = .next (again s (s.issue.modMe fun sl => { sl with
        limit := if s.src a = 0 then none else some (s.issue.cycle + (s.src a).toNat) }) (.blocked false))) ∧
    (∀ n, s.issue.myCore.inbox s.cur.slot = [] → s.issue.me.limit = some n → s.issue.cycle < n →
      exec (.waitmsg d a) s = .next (again s (s.issue.modMe fun sl => { sl with limit := some n }) (.blocked false)))) ∧
  (∀ (s : State) (core n t : Nat) (b : Bool), (s.slot core n).st = .wait → (s.slot core n).waiting = .blocked b →
    (s.slot core n).limit = some t → t ≤ s.cycle →
    exec (.waitmsgTimeout core n) s = .next (s.modSlot core n fun sl => { sl with reissue := true })) ∧
  (∀ (s : State) (d a : Reg) (m : Mod), NoPort s [a] (some d) →
    (m.spec.getLsbD 0 = false → s.issue.myCore.inbox s.cur.slot = [] → exec (.recvmsg d a m) s = .next ((s.issue.writeMine d 0).finish)) ∧
    (m.spec.getLsbD 0 = true → s.cur.slot = 15 → s.issue.myCore.overflow = [] →
      exec (.recvmsg d a m) s = .next ((s.issue.writeMine d 0).finish)) ∧
    (m.spec.getLsbD 0 = true → s.cur.slot ≠ 15 →
      exec (.recvmsg d a m) s = .next (takeTrap ⟨Cause.priv, s.me.pc, 0, 0xFFFF⟩ s.issue))) ∧
  ∀ (s u t : State) (d a : Reg) (m : Mod) (x : Msg) (rest : List Msg) (caps : List Cap), NoPort s [a] (some d) →
    (if m.spec.getLsbD 0 then s.cur.slot = 15 ∧ s.issue.myCore.overflow = x :: rest
      else s.issue.myCore.inbox s.cur.slot = x :: rest) →
    (s.src a).toNat % 16 = 0 → fld (s.src a) 61 3 = 6 → fld (s.src a) 58 3 ≤ 2 →
    writeRow s.who [(s.src a, natToLe 8 x.w0.toNat ++ natToLe 8 x.w1.toNat)] 8 s.issue = .ok caps u →
    t = (((u.chargeAll caps).modMyCore fun c => if m.spec.getLsbD 0 then { c with overflow := c.overflow.drop 1 }
      else c.popInbox s.cur.slot).acquired m.order m.scope.toNat) →
    exec (.recvmsg d a m) s = .next (((if fld x.header 13 4 = 1 then t.acquired 1 x.acqScope.toNat else t).writeMine d
      (x.header ||| w64 (2 ^ 63))).finish)

/-! ## Synchronisation (spec 15, 16) -/

namespace Sys2Proof.Claims

/-- The fused atomics of two registers, with their function codes and what they make of the old value and the operand (R224). -/
def fusedOps : List ((Reg → Reg → Mod → Instr) × Nat × (W64 → W64 → W64)) :=
  [(.aadd, 0, fun x v => x + v), (.aand, 1, fun x v => x &&& v), (.aor, 2, fun x v => x ||| v), (.axor, 3, fun x v => x ^^^ v),
    (.amin, 4, fun x v => if v.slt x then v else x), (.amax, 5, fun x v => if x.slt v then v else x),
    (.aminu, 6, fun x v => if v < x then v else x), (.amaxu, 7, fun x v => if x < v then v else x), (.aswap, 8, fun _ v => v),
    (.afadd, 10, fun x v => x.extractLsb' 32 32 ++ BitVec.ofNat 32 (addFp32 (x.toNat % 2 ^ 32) (v.toNat % 2 ^ 32)).bits)]

/-- A request of the acting thread at a bank. -/
def turnOf (s : State) (kind : TurnKind) (d : Reg) (value swap : W64) (m : Mod) (pl : Place) (pips : Nat) : TurnReq :=
  ⟨s.cur.core, s.cur.slot, s.me.uid, s.myWorld, kind, d, value, swap, m.order, m.scope, s.cur.len, pips, pl.pin⟩

/-- A synchronising access up to its bank: its earlier stores released as its modifier says, checked, and those to the word performed. -/
def atBank (s : State) (ea : W64) (kind : Kind) (m : Mod) (pl : Place) (cap : Cap) (t : State) : Prop :=
  ∃ u v, releaseAt m.order m.scope s.issue = .ok () u ∧ syncPlace s.who ea kind u = .ok (pl, cap) v ∧
    t = v.performWord s.cur.core s.cur.slot pl.loc

/-- Whether a request is served at its bank at once: the word is free, or the context's own (R219). -/
abbrev atOnce (t : State) (loc : Nat) (r : TurnReq) : Prop := t.wordFree loc = true ∨ t.holdsWord r.uid loc = true

/-- What a request at a bank comes to: served at once, or it waits its turn (R219). A reservation held for 4,096 cycles has ended (R222). -/
def asked (t : State) (loc : Nat) (r : TurnReq) : State :=
  if atOnce (t.lapse loc) loc r then ((t.lapse loc).turnServe loc r).finish else ((t.lapse loc).enqueueTurn loc r).waitIn (.turn loc)

/-- RLS or RLSN at its word's bank: its release made, checked, its own stores performed. -/
def atRelease (s : State) (ea : W64) (m : Mod) (pl : Place) (cap : Cap) (t : State) : Prop :=
  ∃ u v, releaseOthers m s.issue = .ok () u ∧ syncPlace s.who ea .atomic u = .ok (pl, cap) v ∧
    t = ((v.performWord s.cur.core s.cur.slot pl.loc).lapse pl.loc).landOwn v.me.uid pl.loc

/-- A barrier's place, checked, with the thread's own stores to the object performed (R230, R244). -/
def atBarrier (s u : State) (ea : W64) (pl : Place) (cap : Cap) (t : State) : Prop :=
  ∃ v, barPlace s.who ea u = .ok (pl, cap) v ∧ ownFirst s.who pl.loc v = .ok () t

/-- The checks of a SPAWN pass, with the packet accepted and what it is charged for (R103). -/
def spawnable (s u : State) (a : Reg) (w : Vector W64 8) (caps : List Cap) : Prop :=
  s.me.spawning = none ∧ s.me.accown = 0 ∧ s.me.plown = 0 ∧ (s.src a).toNat % 64 = 0 ∧
  ∃ bs, readMine (s.src a) 64 8 Mod.none s.issue = .ok (bs, caps) u ∧ w = u.acceptWords s.myWorld (packetWords bs) ∧
    malformed w = none ∧ fld w[1] 0 16 = fld s.me.chain 0 16

/-- A SPAWN that has its child's packet, its capabilities charged. -/
def withChild (s : State) (w : Vector W64 8) (caps : List Cap) : State := (s.chargeAll caps).modMe fun sl => { sl with spawning := some w }

/-- The child's task in the slot, at its first instruction (R103). -/
def childIn (t : State) (core slot : Nat) (w : Vector W64 8) (now : Nat) : State :=
  (((t.splitSegment core slot).revokeAll (t.slot core slot).uid).takeRef (fld w[1] 0 16)).loadSlot core slot ⟨w, now, false⟩

/-- A context parks: where it resumes, and what it waits for. -/
def parked (s : State) (pc : W64) (p : Park) (again : Bool) : State :=
  (s.modMe fun sl => { sl with pc := pc, waitpc := sl.pc, reissue := again, charged := [] }).park s.cur.core s.cur.slot p

end Sys2Proof.Claims

/-- R218, R219, R224: a fused atomic is served at its bank where the word is free or its context's own, and else waits its turn there. Served,
it writes the function of the old value and its operand, returns the old value, and touches no other byte; ACAS writes its third register
where the old value equals d. A word whose deferred stores have run leaves the word so. -/
def Obligations.FusedAtomics : Prop :=
  (∀ q ∈ fusedOps, ∀ (s t : State) (d a : Reg) (m : Mod) (pl : Place) (cap : Cap), NoPort s [d, a] (some d) →
    atBank s (s.src a) .atomic m pl cap t →
    exec (q.1 d a m) s = .next (asked t pl.loc (turnOf s (.atomic q.2.1) d (s.src d) 0 m pl cap.charge))) ∧
  (∀ (s t : State) (d a b : Reg) (m : Mod) (pl : Place) (cap : Cap), NoPort s [d, a, b] (some d) → atBank s (s.src a) .atomic m pl cap t →
    exec (.acas d a b m) s = .next (asked t pl.loc (turnOf s (.atomic 9) d (s.src d) (s.src b) m pl cap.charge))) ∧
  (∀ q ∈ fusedOps, ∀ old v b, atomicOp q.2.1 old v b = q.2.2 old v) ∧
  (∀ old v b, atomicOp 9 old v b = if old = v then b else old) ∧
  ∀ (s : State) (loc fn : Nat) (r : TurnReq), r.kind = .atomic fn → (s.bank loc).deferred = [] → s.keyDead r.world = false →
    (s.turnServe loc r).word64 loc = atomicOp fn (s.word64 loc) r.value r.swap ∧
    (∀ l, (l < loc ∨ loc + 8 ≤ l) → (s.turnServe loc r).byte l = s.byte l) ∧ ((s.turnServe loc r).bank loc).holder = none ∧
    (r.reg ≠ 0 → ¬((s.core r.core).portIn r.slot = true ∧ r.reg = qi) → ¬((s.core r.core).portOut r.slot = true ∧ r.reg = qo) →
      ((s.turnServe loc r).slot r.core r.slot).reg r.reg = s.word64 loc)

/-- R220 to R222: RSV of a word that the slot does not hold asks its bank for it, and gives its oldest reservation up where it holds four; of
one that it holds, it reads. RLS of a word held stores and gives it on, RLSN gives it on, both with p7; of a word not held, p7 is false and
nothing is stored. A reservation held for 4,096 cycles is revoked; a word given back goes to the next in its queue, whose operation completes: a
SPAWN starts its child, or waits for room, and a TEXIT retires, which it does not while a sibling holds an accumulator of its task (R191). -/
def Obligations.Reservations : Prop :=
  (∀ (s t : State) (d a : Reg) (m : Mod) (pl : Place) (cap : Cap), NoPort s [a] (some d) → atBank s (s.src a) .atomic m pl cap t →
    ((t.lapse pl.loc).holdsWord t.me.uid pl.loc = true →
      exec (.rsv d a m) s = .next (((((((t.lapse pl.loc).bankRead s.cur.core pl.loc).acquired m.order m.scope.toNat).writeMine d
        ((t.lapse pl.loc).word64 pl.loc)).chargeOnce cap)).finish)) ∧
    ((t.lapse pl.loc).holdsWord t.me.uid pl.loc = false → (t.lapse pl.loc).me.held.length < 4 →
      exec (.rsv d a m) s = .next (asked (t.lapse pl.loc) pl.loc (turnOf s .rsv d 0 0 m pl cap.charge))) ∧
    (∀ w rest, (t.lapse pl.loc).holdsWord t.me.uid pl.loc = false → (t.lapse pl.loc).me.held = w :: rest → 3 ≤ rest.length →
      exec (.rsv d a m) s = .next (asked ((t.lapse pl.loc).revokeWord w) pl.loc (turnOf s .rsv d 0 0 m pl cap.charge)))) ∧
  (∀ (s : State) (loc : Nat) (r : TurnReq), r.kind = .rsv →
    (s.turnServe loc r).mem = s.mem ∧ ((s.turnServe loc r).bank loc).holder = some ⟨r.core, r.slot, r.uid⟩ ∧
    ((s.turnServe loc r).bank loc).grantedAt = s.cycle ∧
    ((s.turnServe loc r).slot r.core r.slot).held = (s.slot r.core r.slot).held ++ [loc] ∧
    (r.reg ≠ 0 → ¬((s.core r.core).portIn r.slot = true ∧ r.reg = qi) → ¬((s.core r.core).portOut r.slot = true ∧ r.reg = qo) →
      ((s.turnServe loc r).slot r.core r.slot).reg r.reg = s.word64 loc)) ∧
  (∀ (s t : State) (d a : Reg) (m : Mod) (pl : Place) (cap : Cap), NoPort s [d, a] none → atRelease s (s.src a) m pl cap t →
    (t.holdsWord t.me.uid pl.loc = true →
      exec (.rls d a m) s = .next ((((((t.performWrite s.cur.core t.me.uid s.myWorld (fun _ => pl.pin)
        (cellsAt pl.loc (natToLe 8 (s.src d).toNat))).releaseWord pl.loc).modMe (·.setPred 7 true)).acquired m.order
          m.scope.toNat).chargeOnce cap).finish)) ∧
    (t.holdsWord t.me.uid pl.loc = false →
      exec (.rls d a m) s = .next ((((t.modMe (·.setPred 7 false)).acquired m.order m.scope.toNat).chargeOnce cap).finish))) ∧
  (∀ (s t : State) (a : Reg) (m : Mod) (pl : Place) (cap : Cap), NoPort s [a] none → atRelease s (s.src a) m pl cap t →
    exec (.rlsn a m) s = .next ((((if t.holdsWord t.me.uid pl.loc then (t.releaseWord pl.loc).modMe (·.setPred 7 true)
      else t.modMe (·.setPred 7 false)).acquired m.order m.scope.toNat).chargeOnce cap).finish)) ∧
  (∀ (s : State) (loc : Nat) (h : Holder), (s.bank loc).holder = some h → (s.bank loc).grantedAt + 4096 ≤ s.cycle →
    exec (.reservationTimeout loc) s = .next ((s.releaseWord loc).modCore h.core (·.tally 0x22 h.slot 1))) ∧
  (∀ (s : State) (loc : Nat), (s.bank loc).deferred = [] → ((s.releaseWord loc).bank loc).holder = none ∧
    ((s.releaseWord loc).bank loc).queue = (s.bank loc).queue ∧ (s.releaseWord loc).mem = s.mem) ∧
  ∀ (s t : State) (loc : Nat) (r : TurnReq) (rest : List TurnReq), (s.bank loc).queue = r :: rest → (s.bank loc).holder = none →
    (r.kind = .texit → s.unitsLocked r.core r.slot = false) → t = (s.setBank loc { s.bank loc with queue := rest }).turnServe loc r →
    exec (.reservationGrant loc) s = .next (match r.kind with
      | .dead => t
      | .spawn => (match (t.slot r.core r.slot).spawning.bind (t.spawnEnd r.core r.slot r.len) with
        | some u => u
        | none => t.modSlot r.core r.slot fun sl => { sl with waiting := .blocked false })
      | .texit => t.retire r.core r.slot
      | _ => t.modSlot r.core r.slot fun sl => sl.after (sl.pc + w64 r.len) .wait .complete)

/-- R226 to R228, R235 to R237: RSVW watches an address in one of four entries, the oldest of which gives way; WAITRS answers which have been
triggered and empties the set, or parks; FENCE; WAITVA completes where the word differs from a, and else parks as a waiter on the address;
WAKE wakes its oldest waiter and WAKEALL all, and both answer how many. -/
def Obligations.WatchesAndWaits : Prop :=
  (∀ (s t : State) (d a : Reg) (m : Mod) (pl : Place) (cap : Cap), NoPort s [a] (some d) → atBank s (s.src a) .read m pl cap t →
    exec (.rsvw d a m) s = .next (((((((t.bankRead s.cur.core pl.loc).modMe fun sl => { sl with
      watch := (if 4 ≤ sl.watch.length then sl.watch.drop 1 else sl.watch) ++
        [if fld (s.src a) 61 3 = 6 then ⟨s.src a, pl.loc, 8, false⟩ else ⟨s.src a, pl.loc / 64 * 64, 64, false⟩] }).acquired m.order
        m.scope.toNat).writeMine d (t.word64 pl.loc)).chargeOnce cap)).finish)) ∧
  (∀ (s : State) (d a : Reg), NoPort s [a] (some d) →
    (s.issue.me.watch = [] ∨ (∃ x ∈ s.issue.me.watch, x.triggered = true) ∨ s.issue.me.limit.any (fun n => decide (n ≤ s.issue.cycle)) = true →
      ∃ v : W64, (s.issue.me.watch.length ≤ 4 → ∀ i : Fin 4, v.getLsbD i = (s.issue.me.watch[i.val]?.map (·.triggered)).getD false) ∧
        exec (.waitrs d a) s = .next (((s.issue.modMe fun sl => { sl with watch := [] }).writeMine d v).finish)) ∧
    ∀ lim, s.issue.me.watch ≠ [] → (∀ x ∈ s.issue.me.watch, x.triggered = false) → s.issue.me.limit = none →
      lim = (if s.src a = 0 then none else some (s.issue.cycle + (s.src a).toNat)) →
      exec (.waitrs d a) s = .next (if s.cur.slot < 14
        then parked (s.issue.modMe fun sl => { sl with limit := lim }) s.me.pc (.watching lim) true
        else again s (s.issue.modMe fun sl => { sl with limit := lim }) (.blocked false))) ∧
  (∀ (s : State) (core n t : Nat) (e : CtxEntry), (s.core core).cache.find? (fun e => decide (e.1 = n)) = some (n, e) →
    e.st = .parked (.watching (some t)) → t ≤ s.cycle →
    exec (.waitrsTimeout core n) s =
      .next (s.modCore core fun k => { k with cache := Sparse.put k.cache n { e with st := .parked (.ready s.cycle) } })) ∧
  (∀ (s t : State) (m : Mod), releaseAt m.order m.scope s.issue = .ok () t →
    exec (.fence m) s = .next ((t.acquired m.order m.scope.toNat).finish)) ∧
  (∀ (s u v t e : State) (d a : Reg) (key : Nat) (pl : Place) (cap : Cap) (bs : List Byte), NoPort s [d, a] none →
    waitKey s.who (s.src d) s.issue = .ok key u → checkAccess s.who (s.src d) 8 .read [.read] u = .ok (pl, cap) v →
    v.waitTable.length < 65536 → loadPlace s.who pl 8 ⟨1, 4, 0⟩ (s.src d) (v.modMyCore (·.invalidateL1)) = .ok bs t →
    e = (t.chargeOnce cap).modMyCore (·.invalidateL1) →
    (w64 (leToNat bs) ≠ s.src a → exec (.waitva d a) s = .next e.finish) ∧
    (w64 (leToNat bs) = s.src a → s.cur.slot < 14 → exec (.waitva d a) s = .next (parked { e with
      waitTable := e.waitTable ++ [⟨s.myWorld, key, s.cur.core, e.me.uid⟩] } s.behind .waiter false)) ∧
    (w64 (leToNat bs) = s.src a → 14 ≤ s.cur.slot → exec (.waitva d a) s = .next (again s e (.blocked false)))) ∧
  (∀ (s u v t : State) (d a : Reg) (m : Mod) (key : Nat) (pl : Place) (cap : Cap), NoPort s [d] (some a) →
    waitKey s.who (s.src d) s.issue = .ok key u → releaseAll u = .ok () v →
    checkAccess s.who (s.src d) 8 .write [.write] v = .ok (pl, cap) t →
    exec (.wake d a m) s = .next ((((t.writeMine a (w64 (t.waitersOn s.myWorld key 1).length)).wakeOn s.myWorld key
      1).chargeOnce cap).finish) ∧
    exec (.wakeall d a m) s = .next ((((t.writeMine a (w64 (t.waitersOn s.myWorld key t.waitTable.length).length)).wakeOn s.myWorld key
      t.waitTable.length).chargeOnce cap).finish)) ∧
  ∀ (s : State) (w va n : Nat), s.waitTable.Nodup →
    (∀ x, x ∈ (s.wakeOn w va n).waitTable ↔ x ∈ s.waitTable ∧ x ∉ s.waitersOn w va n) ∧
    (∀ x ∈ s.waitersOn w va n, x.world = w ∧ x.va = va) ∧ (s.wakeOn w va n).mem = s.mem

/-- R229 to R232: a barrier's object holds the number expected, the arrivals, the bytes pending and the phase. An arrival beyond the expected
number traps BAR_OVER; the arrival or landing that completes them starts the next phase with no arrivals and lets the phase's waiters go. -/
def Obligations.Barriers : Prop :=
  (∀ (s t u : State) (d a : Reg) (pl : Place) (cap : Cap), NoPort s [d] (some a) → releaseAll s.issue = .ok () u →
    atBarrier s u (s.src d) pl cap t →
    ((t.barrier pl.loc).arrivals ≠ (t.barrier pl.loc).expected →
      exec (.bararr d a) s = .next ((((t.settleBarrier s.cur.core t.me.uid s.myWorld pl.loc { t.barrier pl.loc with
        arrivals := (t.barrier pl.loc).arrivals + 1 }).chargeOnce cap).writeMine a (w64 (t.barrier pl.loc).phase)).finish)) ∧
    ((t.barrier pl.loc).arrivals = (t.barrier pl.loc).expected →
      exec (.bararr d a) s = .next (takeTrap ⟨Cause.barOver, s.src d, 0, 0xFFFF⟩ (t.putBarrier s.cur.core t.me.uid s.myWorld pl.loc
        { t.barrier pl.loc with overflow := true })))) ∧
  (∀ (s t : State) (d a : Reg) (pl : Place) (cap : Cap), NoPort s [d, a] none → atBarrier s s.issue (s.src d) pl cap t →
    ((t.barrier pl.loc).phase ≠ fld (s.src a) 0 8 → exec (.barwait d a) s =
      .next (((t.chargeOnce cap).acquired 1 ((t.barrier pl.loc).actScope pl.loc)).finish)) ∧
    ((t.barrier pl.loc).phase = fld (s.src a) 0 8 → exec (.barwait d a) s =
      .next (({ t.chargeOnce cap with
        barWaiters := t.barWaiters ++ [⟨pl.loc, fld (s.src a) 0 8, s.cur.core, s.cur.slot, s.cur.len⟩] } : State).waitIn
          (.barrier pl.loc (fld (s.src a) 0 8)))) ∧
    ((s.src a).toNat < 2 ^ 24 → (t.barrier pl.loc).pending + (s.src a).toNat < 2 ^ 24 → s.src a ≠ 0 → exec (.barexp d a) s =
      .next (((t.putBarrier s.cur.core t.me.uid s.myWorld pl.loc { t.barrier pl.loc with
        pending := (t.barrier pl.loc).pending + (s.src a).toNat }).chargeOnce cap).finish)) ∧
    (s.src a = 0 → exec (.barexp d a) s = .next ((t.chargeOnce cap).finish)) ∧
    (2 ^ 24 ≤ (s.src a).toNat ∨ 2 ^ 24 ≤ (t.barrier pl.loc).pending + (s.src a).toNat →
      exec (.barexp d a) s = .next (takeTrap ⟨Cause.barBytes, s.src d, 0, 0xFFFF⟩ t)) ∧
    (fld (s.src a) 0 16 ≠ 0 → 1 ≤ fld (s.src a) 16 3 → fld (s.src a) 16 3 ≤ 4 → exec (.barinit d a) s =
      .next ((((t.putBarrier s.cur.core t.me.uid s.myWorld pl.loc ⟨fld (s.src a) 0 16, 0, 0, 0, false, fld (s.src a) 16 3⟩).releasePhase
        pl.loc (t.barrier pl.loc).phase 0).chargeOnce cap).finish)) ∧
    (NoPort s [d] (some a) → exec (.barqry d a) s = .next (((t.writeMine a (t.word64 pl.loc)).chargeOnce cap).finish))) ∧
  (∀ (s t u w : State) (d a : Reg) (pl : Place) (cap : Cap) (p : Nat), NoPort s [d] (some a) →
    resumesAt s (restartKey 4 2 2) = none → releaseAll s.issue = .ok () u → atBarrier s u (s.src d) pl cap t →
    (t.barrier pl.loc).arrivals ≠ (t.barrier pl.loc).expected → p = (t.barrier pl.loc).phase →
    w = ((t.settleBarrier s.cur.core t.me.uid s.myWorld pl.loc { t.barrier pl.loc with
      arrivals := (t.barrier pl.loc).arrivals + 1 }).chargeOnce cap).writeMine a (w64 p) →
    ((w.barrier pl.loc).phase ≠ p →
      exec (.barsync d a) s = .next ((cleared (w.acquired 1 ((w.barrier pl.loc).actScope pl.loc))).finish)) ∧
    ((w.barrier pl.loc).phase = p → exec (.barsync d a) s =
      .next ((({ w with barWaiters := w.barWaiters ++ [⟨pl.loc, p, s.cur.core, s.cur.slot, s.cur.len⟩] } : State).modMe fun sl =>
        { sl with restart := restartWord (restartKey 4 2 2) (0x100 + p) }).waitIn (.barrier pl.loc p)))) ∧
  (∀ (s t : State) (d a : Reg) (pl : Place) (cap : Cap) (r : Nat), NoPort s [d] (some a) →
    resumesAt s (restartKey 4 2 2) = some r → barPlace s.who (s.src d) s.issue = .ok (pl, cap) t →
    (t.barrier pl.loc).phase ≠ r % 256 → exec (.barsync d a) s =
      .next ((cleared ((t.chargeOnce cap).acquired 1 ((t.barrier pl.loc).actScope pl.loc))).finish)) ∧
  (∀ (s : State) (core uid w loc : Nat) (b : Barrier), spadBase ≤ loc → b.expected < 2 ^ 16 → b.arrivals < 2 ^ 16 → b.pending < 2 ^ 24 →
    b.phase < 256 → b.scope < 8 →
    (s.putBarrier core uid w loc b).barrier loc = b ∧ (∀ l, (l < loc ∨ loc + 32 ≤ l) → (s.putBarrier core uid w loc b).byte l = s.byte l) ∧
    ((b.arrivals ≠ b.expected ∨ b.pending ≠ 0) → s.settleBarrier core uid w loc b = s.putBarrier core uid w loc b) ∧
    (b.arrivals = b.expected → b.pending = 0 → (s.settleBarrier core uid w loc b).barrier loc =
      { b with phase := (b.phase + 1) % 256, arrivals := 0 } ∧
      ∀ x, x ∈ (s.settleBarrier core uid w loc b).barWaiters ↔ x ∈ s.barWaiters ∧ ¬(x.loc = loc ∧ x.phase = b.phase))) ∧
  ∀ (s : State) (core w loc n : Nat), spadBase ≤ loc →
    ((s.barrier loc).pending < n → s.barLand core w loc n = none) ∧
    (n ≤ (s.barrier loc).pending → n ≠ 0 → ∃ t, s.barLand core w loc n = some t ∧
      ((s.barrier loc).pending ≠ n → (t.barrier loc) = { s.barrier loc with pending := (s.barrier loc).pending - n }) ∧
      ((s.barrier loc).pending = n → (s.barrier loc).arrivals = (s.barrier loc).expected → (t.barrier loc).phase =
        ((s.barrier loc).phase + 1) % 256))

/-- R103 to R107: SPAWN makes its checks once, and counts its child at the join word, for which it may wait its turn; then it pushes the
continuation on the local end of its band's deque, where it may wait for room, and goes on as the child. SYNC parks while its join word is
not 0; YIELD parks; TEXIT decrements the join word and retires the slot; PKTGET writes the packet's image. R97: STOP completes where the
supervisor has a record, or the copy slot's mailbox has been filled, and else waits for that; in a work slot it traps PRIV. -/
def Obligations.ForkAndJoin : Prop :=
  (∀ (s u c : State) (a : Reg) (caps : List Cap) (w : Vector W64 8), NoPort s [a] none → s.cur.slot < 14 → spawnable s u a w caps →
    (w[3] = 0 → c = withChild u w caps → ∀ t, c.pushLocal s.cur.core c.me.band ⟨continuation c.me s.myWorld s.behind, c.cycle, false⟩ = some t →
      exec (.spawn a) s = .next ((childIn t s.cur.core s.cur.slot w c.cycle).goToLater w[0])) ∧
    (∀ (v x : State) (pl : Place) (cap : Cap) (r : TurnReq), w[3] ≠ 0 → syncPlace s.who w[3] .atomic u = .ok (pl, cap) v →
      r = turnOf s .spawn 0 0 0 ⟨0, 4, 0⟩ pl (if caps.any fun y => decide (y.id = cap.id) then 0 else cap.charge) →
      x = ((withChild v w caps).performWord s.cur.core s.cur.slot pl.loc).lapse pl.loc →
      (¬atOnce x pl.loc r → exec (.spawn a) s = .next ((x.enqueueTurn pl.loc r).waitIn (.turn pl.loc))) ∧
      ∀ t, atOnce x pl.loc r → c = x.turnServe pl.loc r →
        c.pushLocal s.cur.core c.me.band ⟨continuation c.me s.myWorld s.behind, c.cycle, false⟩ = some t →
        exec (.spawn a) s = .next ((childIn t s.cur.core s.cur.slot w c.cycle).goToLater w[0]))) ∧
  (∀ (s : State) (a : Reg) (w : Vector W64 8), s.cur.slot < 14 → s.me.spawning = some w →
    (∀ t, s.issue.pushLocal s.cur.core s.me.band ⟨continuation s.issue.me s.myWorld s.behind, s.cycle, false⟩ = some t →
      exec (.spawn a) s = .next ((childIn t s.cur.core s.cur.slot w s.cycle).goToLater w[0])) ∧
    (s.issue.pushLocal s.cur.core s.me.band ⟨continuation s.issue.me s.myWorld s.behind, s.cycle, false⟩ = none →
      exec (.spawn a) s = .next (s.issue.waitIn (.blocked false)))) ∧
  (∀ (s u t : State) (a : Reg) (pl : Place) (cap : Cap) (bs : List Byte), NoPort s [a] none → s.cur.slot < 14 →
    (s.src a).toNat % 8 = 0 → s.issue.waitTable.length < 65536 → checkAccess s.who (s.src a) 8 .read [.read] s.issue = .ok (pl, cap) u →
    loadPlace s.who pl 8 ⟨1, 4, 0⟩ (s.src a) (u.modMyCore (·.invalidateL1)) = .ok bs t →
    (leToNat bs = 0 → exec (.sync a) s = .next (((t.chargeOnce cap).modMyCore (·.invalidateL1)).finish)) ∧
    (leToNat bs ≠ 0 → exec (.sync a) s = .next (parked { (t.chargeOnce cap).modMyCore (·.invalidateL1) with
      waitTable := t.waitTable ++ [⟨s.myWorld, (s.src a).toNat, s.cur.core, s.me.uid⟩] } s.me.pc .waiter false))) ∧
  (∀ s : State, s.cur.slot < 14 → exec .yield s = .next (parked s.issue s.behind (.ready s.cycle) false)) ∧
  (∀ s : State, s.cur.slot < 14 → s.me.join = 0 →
    (s.issue.unitsLocked s.cur.core s.cur.slot = false → exec .texit s = .next (s.issue.retire s.cur.core s.cur.slot)) ∧
    (s.issue.unitsLocked s.cur.core s.cur.slot = true → exec .texit s = .next (s.issue.waitIn .retiring))) ∧
  (∀ s u : State, s.cur.slot < 14 → s.me.join ≠ 0 → u = s.issue.performSlot s.cur.core s.cur.slot →
    (u.hasDeferred s.cur.core u.me.uid = true ∨ u.unitsLocked s.cur.core s.cur.slot = true →
      exec .texit s = .next (u.waitIn .retiring)) ∧
    ∀ (v c : State) (pl : Place) (cap : Cap) (r : TurnReq), u.hasDeferred s.cur.core u.me.uid = false →
      u.unitsLocked s.cur.core s.cur.slot = false → syncPlace s.who s.me.join .atomic u = .ok (pl, cap) v →
      c = (v.chargeOnce cap).lapse pl.loc → r = turnOf s .texit 0 s.me.join 0 ⟨2, 4, 0⟩ pl 0 →
      (atOnce c pl.loc r → exec .texit s = .next ((c.turnServe pl.loc r).retire s.cur.core s.cur.slot)) ∧
      (¬atOnce c pl.loc r → exec .texit s = .next ((c.enqueueTurn pl.loc r).waitIn (.turn pl.loc)))) ∧
  (∀ (s : State) (core n : Nat), (s.retire core n).slot core n = Slot.init) ∧
  (∀ (s t : State) (a : Reg) (caps : List Cap), NoPort s [a] none → s.cur.slot < 14 → (s.src a).toNat % 64 = 0 →
    writeRow s.who [(s.src a, packetBytes s.issue.me.packetImage)] 8 s.issue = .ok caps t →
    exec (.pktget a) s = .next ((t.chargeAll caps).finish)) ∧
  ∀ s : State,
    (s.cur.slot = 15 → s.issue.myCore.trapq ≠ [] → exec .stop s = .next s.issue.finish) ∧
    (s.cur.slot = 14 → s.issue.myCore.copyWake = true →
      exec .stop s = .next ((s.issue.modMyCore fun k => { k with copyWake := false }).finish)) ∧
    (s.cur.slot = 15 ∧ s.issue.myCore.trapq = [] ∨ s.cur.slot = 14 ∧ s.issue.myCore.copyWake = false →
      exec .stop s = .next (s.issue.waitIn (.stop s.cur.len))) ∧
    (s.cur.slot < 14 → exec .stop s = .next (takeTrap ⟨Cause.priv, s.me.pc, 0, 0xFFFF⟩ s.issue))

/-! ## Placement, logs, engines and links (spec 04, 15, 18, 23) -/

namespace Sys2Proof.Claims

/-- Nothing to do for a slot of a core at a band: no ready context, no packet, no victim (R62). -/
abbrev NothingAt (s : State) (core b : Nat) : Prop :=
  (s.core core).readyAt b = none ∧ (vat Deque.init (s.core core).deques b).isEmpty = true ∧ s.victims core b = []

/-- The k-th unfinished command of the device, of an engine and an opcode, of a world that stands. -/
abbrev CommandAt (s : State) (k engine opcode : Nat) (c : EngCmd) : Prop :=
  s.engCmds[k]? = some c ∧ c.engine = engine ∧ cmdOpcode c.header = opcode ∧ (s.world c.world).stopped = false

/-- The command keeps its place, with what it has come to. -/
def keptAt (s : State) (k : Nat) (c : EngCmd) : State := { s with engCmds := s.engCmds.set k c }

/-- No older command of an engine. -/
abbrev EngineFirst (s : State) (k engine : Nat) : Prop := ∀ d ∈ s.engCmds.take k, d.engine ≠ engine

/-- No older SEND or RECV on the same port for the same group (R302). -/
abbrev PortFirst (s : State) (k : Nat) (c : EngCmd) : Prop := ∀ d ∈ s.engCmds.take k,
  ¬(d.engine = 2 ∧ cmdOpcode d.header = cmdOpcode c.header ∧ d.world = c.world ∧ d.word 1 = c.word 1)

/-- No older collective of the group (R303). -/
abbrev GroupFirst (s : State) (k : Nat) (c : EngCmd) : Prop := ∀ d ∈ s.engCmds.take k,
  ¬(d.engine = 2 ∧ cmdOpcode d.header ≤ 3 ∧ d.world = c.world ∧ d.group = c.group)

/-- What has come of a command's number on a port of its tree. -/
def cameOn (s : State) (c : EngCmd) (p : Nat) : Option (Except Nat RxData) := (s.port p).contribution c.world c.group (c.seqOn p)

/-- The transfers of a command have come whole on ports, and none that it waits for has failed. -/
def HaveCome (s : State) (c : EngCmd) (ports : List Nat) (rs : List RxData) : Prop :=
  (∀ p ∈ c.tree, c.expects p = true → ∀ code, cameOn s c p ≠ some (.error code)) ∧ (∀ p ∈ ports, (cameOn s c p).isSome = true) ∧
  ports.map (cameOn s c) = rs.map fun r => some (.ok r)

/-- A transfer that a command waits for has failed, on the first such port of its tree. -/
def FailedOn (s : State) (c : EngCmd) (p code : Nat) : Prop :=
  ∃ before after, c.tree.filter c.expects = before ++ p :: after ∧ cameOn s c p = some (.error code) ∧
    ∀ x ∈ before, ∀ code, cameOn s c x ≠ some (.error code)

/-- The length of a child's data. -/
def upLength (c : EngCmd) (n : Nat) : Bool :=
  if cmdOpcode c.header = 2 then decide (n % (c.srcBytes + 8) = 0) else decide (n = fld c.header 0 28 * wireBytes c.header)

/-- The length of the result. -/
def downLength (c : EngCmd) (n : Nat) : Bool :=
  decide (n = if cmdOpcode c.header = 2 then c.members * c.srcBytes else fld c.header 0 28 * redBytes c.header)

/-- The engine of a command accepts a word of EPUSH as its last. -/
abbrev lastWord (staged : List W64) : Prop := staged.length = min (fld (staged.headD 0) 52 4) 3 + 1

/-- A command of the acting thread as it is handed over. -/
def commandOf (s : State) (engine : Nat) (words : List W64) : EngCmd :=
  { engine := engine, core := s.cur.core, slot := s.cur.slot, uid := s.me.uid, world := s.myWorld, chain := s.me.chain, words := words
    done := 0, aux := 0, count := 0, caps := [], seqs := [] }

/-- The firewall lets the acting thread's world use the engine parts of its core (log 97). -/
abbrev MayPush (s t : State) : Prop := t.fwAllows s.myWorld (t.sramOwner s.cur.core) .write = true

/-- The oldest result of an engine popped, and the next one that waits delivered. -/
def resultPopped (s : State) (e : Nat) (rest : List W64) : State :=
  (s.modMe (·.modEngine e fun q => { q with results := rest, head := (q.head + 1) % 8 })).deliverEngine s.cur.core s.cur.slot e

/-- No take has been performed at a deque in this cycle (R61). -/
abbrev Untaken (s : State) (core b : Nat) : Prop := (vat Deque.init (s.core core).deques b).takenIn s.cycle = none

/-- The log of an APPEND's target has room, as far as the look-up finds one (R238). -/
abbrev RoomInLog (s : State) (ea : W64) : Prop := ∀ pl u, locate s.who ea .write s.issue = .ok pl u →
  (s.issue.growLog s.myWorld (domainOfLoc pl.loc)).isSome = true

/-- A slot whose staged words have been handed over. -/
def handed (s : State) (engine : Nat) : State :=
  s.modMe (·.modEngine engine fun p => { p with staged := [], unfinished := p.unfinished + 1 })

end Sys2Proof.Claims

/-- R11, R62, R63, R66: a search fills the lowest free work slot from the highest band that has work: a ready context returns, else the local
end of the deque is popped, else a steal begins; a probe takes the far-end packet whose scope admits the thief. A packet's task starts with
the registers that R11 gives it. -/
def Sys2Proof.Claims.SlotSearches : Prop :=
  (∀ (s : State) (core n b : Nat), s.takesWork core = true → (s.core core).steal = none → s.freeSlot core = some n → b < 4 →
    (∀ d ∈ (s.core core).deques.toList, d.takenIn s.cycle = none) → (∀ x, x < 4 → b < x → NothingAt s core x) →
    (∀ i e, (s.core core).readyAt b = some (i, e) → exec (.slotSearch core) s = .next (s.moveIn core n i e)) ∧
    (∀ p d, (s.core core).readyAt b = none → (vat Deque.init (s.core core).deques b).popLocal = some (p, d) → s.deadPacket p = false →
      exec (.slotSearch core) s = .next ((s.modCore core fun k => k.modDeque b fun _ => d.take s.cycle 0).loadSlot core n p)) ∧
    ∀ v vs, (s.core core).readyAt b = none → (vat Deque.init (s.core core).deques b).isEmpty = true → s.victims core b = v :: vs →
      exec (.slotSearch core) s = .next (s.modCore core fun k => { k with steal := some ⟨n, b, v :: vs⟩ })) ∧
  (∀ (s t : State) (core n b v : Nat) (rest : List Nat) (p : Packet), (s.core core).steal = some ⟨n, b, v :: rest⟩ →
    s.takesWork core = true → (vat Deque.init (s.core v).deques b).farEnd = some p → (s.core v).world = (s.core core).world →
    (Untaken s v b → scopeAdmits p.scope v core = true → s.deadPacket p = false →
      t = (s.modCore v fun k => k.modDeque b fun e => e.dropFar.take s.cycle (core + 1)) →
      exec (.stealProbeResult core) s = .next ((t.modCore core fun k => { k with steal := none }.tally 0x18 n 1).loadSlot core n p)) ∧
    ((Untaken s v b ∧ scopeAdmits p.scope v core = false) ∨
        (∃ r, (vat Deque.init (s.core v).deques b).takenIn s.cycle = some r ∧ r ≤ core) →
      t = s.modCore core (·.tally 0x19 n 1) → exec (.stealProbeResult core) s =
        .next (if t.victimsFrom core b rest = [] then (t.modCore core fun k => { k with steal := none }).searchBelow core n b
          else t.modCore core fun k => { k with steal := some ⟨n, b, t.victimsFrom core b rest⟩ }))) ∧
  (∀ (scope victim thief : Nat), scopeAdmits scope victim thief = match scope with
    | 0 => false
    | 1 => decide (victim / 8 = thief / 8)
    | 2 => decide (victim / 64 = thief / 64)
    | _ => true) ∧
  (∀ (s : State) (core n : Nat) (p : Packet) (sl : Slot), sl = (s.loadSlot core n p).slot core n →
    sl.st = .run ∧ sl.pc = p.w[0] ∧ sl.reg 1 = p.w[2] ∧ sl.reg 2 = p.w[6] ∧ sl.reg 3 = p.w[7] ∧
    (∀ r : Reg, r ≠ 1 → r ≠ 2 → r ≠ 3 → sl.reg r = 0) ∧ (∀ i : Num3, sl.pred i = false) ∧ sl.join = p.w[3] ∧ sl.fmt = p.w[4] ∧
    sl.scl = p.w[5] ∧ fld sl.chain 0 16 = fld p.w[1] 0 16 ∧ sl.task.toNat = fld p.w[1] 32 32 ∧ (∀ t : Num3, (sl.tile t).shape = 0) ∧
    sl.accown = 0 ∧ sl.plown = 0 ∧ sl.meter = 0 ∧ sl.restart = 0 ∧ (s.loadSlot core n p).mem = s.mem) ∧
  ∀ (s : State) (core n i : Nat) (e : CtxEntry) (sl : Slot), sl = (s.moveIn core n i e).slot core n →
    sl.st = .run ∧ sl.pc = e.ctx.pc ∧ sl.s = e.ctx.s ∧ sl.p = e.ctx.p ∧ sl.tiles = e.ctx.tiles ∧ sl.chain = e.ctx.chain ∧
    sl.restart = e.ctx.restart ∧ (s.moveIn core n i e).mem = s.mem

/-- R59, R60, R64, R66, R101, R274: the distributor, aging, swap-in, the moving of a waiting context, and the records of the rotation. -/
def Sys2Proof.Claims.QueueEvents : Prop :=
  (∀ (s : State) (w c : Nat) (p : Packet) (ps : List Packet) (rest : List Segment), (s.world w).launch = ⟨p :: ps, none⟩ :: rest →
    (s.world w).ringLen = 0 →
    (coresFrom (s.world w).lastCore (s.coresOf w)).find? (fun c => decide ((vat Deque.init (s.core c).deques p.band).hw.length < 64) &&
      (vat Deque.init (s.core c).deques p.band).spill.isEmpty && !(s.core c).zeroing) = some c →
    ∃ t, exec (.distributorDelivery w) s = .next t ∧
      (t.world w).launch = (if ps = [] then rest else ⟨ps, none⟩ :: rest) ∧ (t.world w).lastCore = some c ∧
      (vat Deque.init (t.core c).deques p.band).hw =
        (vat Deque.init (s.core c).deques p.band).hw ++ [{ p with since := s.cycle }] ∧ t.mem = s.mem) ∧
  (∀ (s : State) (core b : Nat) (p : Packet) (d : Deque), b < 3 → d = vat Deque.init (s.core core).deques b → Untaken s core b →
    p.aged = false → p.since + 65536 < s.cycle → (vat Deque.init (s.core core).deques (b + 1)).hw.length < 64 →
    (d.farEnd = some p → ∃ t, exec (.packetAging core b) s = .next t ∧ vat Deque.init (t.core core).deques b = d.dropFar ∧
      (vat Deque.init (t.core core).deques (b + 1)).hw =
        { p with aged := true } :: (vat Deque.init (s.core core).deques (b + 1)).hw) ∧
    (∀ g n, d.spill.getLast? = some g → g.swapped = some n → g.pkts.getLast? = some p →
      ∃ t, exec (.packetAging core b) s = .next t ∧ vat Deque.init (t.core core).deques b = d.dropFar ∧ t.mem = s.mem ∧
        (vat Deque.init (t.core core).deques (b + 1)).hw = { p with
          w := (s.queuedWords (s.core core).world (s.swapAddr (s.core core).world n + 64 * (g.pkts.length - 1))).1, aged := true } ::
          (vat Deque.init (s.core core).deques (b + 1)).hw) ∧
    ((∃ g q, d.spill.getLast? = some g ∧ g.pkts.getLast? = some q ∧ s.ages q = false) → d.hw.getLast? = some p →
      ∃ t, exec (.packetAging core b) s = .next t ∧ vat Deque.init (t.core core).deques b = { d with hw := d.hw.dropLast } ∧
        (vat Deque.init (t.core core).deques (b + 1)).hw =
          { p with aged := true } :: (vat Deque.init (s.core core).deques (b + 1)).hw)) ∧
  (∀ (s : State) (core i n : Nat) (e : CtxEntry), (s.core core).cache.find? (fun e => decide (e.1 = i)) = some (i, e) → e.bumped = false →
    (s.core core).unitsFree e = true → e.st = .parked (.ready n) → n + 65536 < s.cycle → exec (.contextAging core i) s =
      .next (s.modCore core fun k => { k with cache := Sparse.put k.cache i { e with bumped := true } })) ∧
  (∀ (s : State) (core b i n : Nat) (g : Segment), s.sramSegments (clusterOf core) < Config.queueSramSegments → b < 4 →
    (vat Deque.init (s.core core).deques b).spill[i]? = some g → g.swapped = some n →
    (∀ x ∈ (vat Deque.init (s.core core).deques b).spill.take i, x.swapped = none) →
    ∃ t h, exec (.queueSegmentSwapIn core b) s = .next t ∧ t.mem = s.mem ∧
      (vat Deque.init (t.core core).deques b).spill[i]? = some h ∧ h.swapped = none ∧ h.pkts.length = g.pkts.length ∧
      ∀ j p, h.pkts[j]? = some p →
        p.w = (s.queuedWords (s.core core).world (s.swapAddr (s.core core).world n + 64 * j)).1) ∧
  (∀ (s t : State) (core b : Nat), 5 ≤ b → b ≤ 12 → s.logSwapIn (s.core core).world (b - 5) = some t →
    exec (.queueSegmentSwapIn core b) s = .next t) ∧
  (∀ (s : State) (core n e : Nat) (rest : List Nat) (p : Park) (told : Bool), (s.core core).leaving = n :: rest →
    s.hasDeferred core (s.slot core n).uid = false → s.unitsLocked core n = false →
    (s.core core).roomFor (s.slot core n).spill = some e → (s.slot core n).waiting = .leaving p told →
    ∃ t x, exec (.contextMove core) s = .next t ∧ (t.core core).leaving = rest ∧ t.slot core n = Slot.init ∧
      (∀ loc, inSpill core loc = false ∨ (s.slot core n).spill = 0 → t.byte loc = s.byte loc) ∧
      (t.core core).cache.find? (fun q => decide (q.1 = e)) = some (e, x) ∧ x.ctx.pc = (s.slot core n).pc ∧
      x.ctx.tiles = (s.slot core n).tiles ∧ x.st = s.parkedAs (s.slot core n) p) ∧
  (∀ (s : State) (core n : Nat) (rest : List Nat) (p : Park), (s.core core).leaving = n :: rest →
    (s.core core).roomFor (s.slot core n).spill = none → (s.slot core n).waiting = .leaving p false →
    exec (.contextMove core) s = .next ((s.modSlot core n fun x => { x with waiting := .leaving p true }).modCore core
      (·.queueRecord Cause.ctxFull n 0))) ∧
  (∀ (s : State) (core n t : Nat), (s.slot core n).quantum = some t → (s.slot core n).st ≠ .free → t ≤ s.coreCycle core →
    exec (.quantumExpiry core n) s = .next (if s.retires core n then s.modSlot core n fun x => { x with quantum := none }
      else (s.modSlot core n fun x => { x with quantum := none }).modCore core (·.queueRecord Cause.quantum n 0))) ∧
  ∀ (s : State) (core b : Nat), s.workWaits core b = true →
    (∀ n, n < 14 → (s.slot core n).st ≠ .free ∧ (s.slot core n).band < b) →
    exec (.preemptReq core b) s = .next (s.modCore core (·.queueRecord Cause.preemptReq (s.lowestSlot core) b))

/-- R238, R239: APPEND and APPENDF place records in the log of their target's domain, each with the source's sequence number; an APPEND that
finds no room in the log, its queue SRAM and swap area waits before its checks. MERGE takes every record of the log and answers a ticket; LOG_MERGE_RUN applies them in order of target, core, slot and sequence; MERGEW waits for its merge,
acquires at system scope and answers its count. -/
def Obligations.AppendLogs : Prop :=
  (∀ (s u v : State) (d a : Reg) (op : BitVec 4) (pl : Place) (cap : Cap), NoPort s [d, a] none → RoomInLog s (s.src d) →
    logTarget s.who (s.src d) s.issue = .ok (pl, cap) u → u.growLog s.myWorld (domainOfLoc pl.loc) = some v →
    exec (.append d a op) s = .next ((((v.modWorld s.myWorld fun x => x.setLog (domainOfLoc pl.loc) { x.log (domainOfLoc pl.loc) with
      recs := (x.log (domainOfLoc pl.loc)).recs ++ [⟨pl.loc, pl.pin, s.src a, op.toNat, s.cur.core, s.cur.slot,
        Sparse.get 0 (v.core s.cur.core).appends s.cur.slot⟩] }).modCore s.cur.core fun c => { c with
          appends := Sparse.put c.appends s.cur.slot (Sparse.get 0 (v.core s.cur.core).appends s.cur.slot + 1) }).chargeOnce cap).finish)) ∧
  (∀ (s u : State) (d a : Reg) (op : BitVec 4) (pl : Place), NoPort s [d, a] none → locate s.who (s.src d) .write s.issue = .ok pl u →
    s.issue.growLog s.myWorld (domainOfLoc pl.loc) = none → exec (.append d a op) s = .next (again s s.issue (.blocked false))) ∧
  (∀ (s t : State) (d a : Reg) (op : BitVec 4), NoPort s [d, a] none → s.src d ≠ 0 → (s.src d).toNat ≤ 64 → (s.src a).toNat % 32 = 0 →
    fld (s.src a) 61 3 = 6 → fld (s.src a) 58 3 < 3 →
    RowsRun (fun i => do
        atRow tfmtNone i (appendOne s.who (s.src a + w64 (32 * i)))
        return none) (rowsFrom (resumesAt s (restartKey 4 5 1)) (s.src d).toNat) (cleared s.issue) t →
    exec (.appendf d a op) s = .next t.finish) ∧
  (∀ (s : State) (d a : Reg) (n : Nat) (l : AppendLog) (t : State), NoPort s [a] (some d) → fld (s.src a) 3 61 = 0 → n = fld (s.src a) 0 3 →
    l = (s.issue.world s.myWorld).log n →
    t = (s.issue.modWorld s.myWorld fun x => x.setLog n { l with
      recs := [], accepted := l.accepted + 1, runs := l.runs ++ [⟨l.accepted + 1, l.recs.length, sortRecs l.recs⟩] }).chargeSlot s.cur.core s.cur.slot (l.recs.length / 4) →
    exec (.merge d a) s = .next ((t.writeMine d (w64 (n * 2 ^ 56 + (l.accepted + 1) % 2 ^ 56))).finish)) ∧
  (∀ l : List LogRec, (sortRecs l).Perm l ∧ (sortRecs l).Pairwise fun a b => a.before b = true) ∧
  (∀ (s : State) (w n : Nat) (r : MergeRun) (rest : List MergeRun) (l : AppendLog), l = (s.world w).log n → l.runs = r :: rest →
    (s.world w).stopped = false → (∀ x ∈ r.recs, s.wordFree x.addr = true) →
    ∃ t, exec (.logMergeRun w n) s = .next t ∧ ((t.world w).log n).runs = rest ∧
      ((t.world w).log n).finished = ((r.seq, r.total) :: l.finished).take 16 ∧
      (∀ loc, (∀ x ∈ r.recs, loc < x.addr ∨ x.addr + 8 ≤ loc) → t.byte loc = s.byte loc) ∧
      (∀ x, r.recs = [x] → s.keyDead w = false → t.word64 x.addr = recordValue x.op (s.word64 x.addr) x.value)) ∧
  ∀ (s : State) (d a : Reg) (l : AppendLog), NoPort s [a] (some d) → l = (s.issue.world s.myWorld).log (fld (s.src a) 56 3) →
    fld (s.src a) 59 5 = 0 → fld (s.src a) 0 56 ≠ 0 → fld (s.src a) 0 56 ≤ l.accepted →
    ((∃ r ∈ l.runs, r.seq = fld (s.src a) 0 56) → exec (.mergew d a) s = .next (again s s.issue (.blocked false))) ∧
    ((∀ r ∈ l.runs, r.seq ≠ fld (s.src a) 0 56) → (∀ f, l.finished.find? (fun f => decide (f.1 = fld (s.src a) 0 56)) = some f → exec (.mergew d a) s =
      .next (((s.issue.modMyCore (·.invalidateL1)).writeMine d (w64 f.2)).finish)) ∧
    ((∀ f ∈ l.finished, f.1 ≠ fld (s.src a) 0 56) → exec (.mergew d a) s =
      .next (((s.issue.modMyCore (·.invalidateL1)).writeMine d (BitVec.allOnes 64)).finish)))

/-- R240 to R242, R268: EPUSH stages a word after a release, and the last word of a command hands it over; a command that is not well formed is
refused with status 0x01; EPOP takes the oldest result with the engine's acquire, or waits; EQRY answers results, staged words and unfinished
commands; DMERGE, outside the copy slot, goes on to its result. An engine part that the firewall does not let the thread's world use traps FIREWALL. -/
def Sys2Proof.Claims.EngineQueues : Prop :=
  (∀ (s t : State) (d : Reg) (e : Num2) (staged : List W64), NoPort s [d] none → (s.me.engine e.toNat).unfinished < 8 →
    releaseAll s.issue = .ok () t → staged = (t.me.engine e.toNat).staged ++ [s.src d] →
    (¬MayPush s t → exec (.epush d e) s = .next (takeTrap ⟨Cause.firewall, w64 e.toNat, 0, 0xFFFF⟩ t)) ∧ (MayPush s t →
    (¬lastWord staged → exec (.epush d e) s = .next ((t.modMe (·.modEngine e.toNat fun p => { p with staged := staged })).finish)) ∧
    (lastWord staged → e.toNat = 0 → e0Ok (staged.headD 0) = true → ∃ u, acceptE0 (commandOf t 0 staged) (handed t 0) = .ok () u ∧
      exec (.epush d e) s = .next u.finish) ∧
    (∀ u, lastWord staged → e.toNat = 1 → e1Ok (staged.headD 0) (staged[1]?.getD 0) = true →
      acceptE1 (commandOf t 1 staged) (handed t 1) = .ok () u → exec (.epush d e) s = .next u.finish) ∧
    (∀ u, lastWord staged → e.toNat = 2 → e2Ok staged = true → acceptE2 (commandOf t 2 staged) (handed t 2) = .ok () u →
      exec (.epush d e) s = .next u.finish) ∧
    (∀ u, lastWord staged → e.toNat = 3 → e3Ok (staged.headD 0) = true → acceptE3 (commandOf t 3 staged) (handed t 3) = .ok () u →
      exec (.epush d e) s = .next u.finish) ∧
    (lastWord staged → e.toNat = 0 → e0Ok (staged.headD 0) = false → exec (.epush d e) s =
      .next (((handed t 0).postResult (commandOf t 0 staged) 1 0).finish)))) ∧
  (∀ (s : State) (d : Reg) (e : Num2), 8 ≤ (s.me.engine e.toNat).unfinished → NoPort s [d] none →
    exec (.epush d e) s = .next (again s s.issue (.blocked true))) ∧
  (∀ (s : State) (d : Reg) (e : Num2) (r : W64) (rest : List W64) (t : State), NoPort s [] (some d) →
    (s.me.engine e.toNat).results = r :: rest →
    t = resultPopped s.issue e.toNat rest →
    exec (.epop d e) s = .next (((t.acquired 1 (if e = 2 then 5 else if e = 3 then 2 else 4)).writeMine d r).finish)) ∧
  (∀ (s : State) (d : Reg) (e : Num2), NoPort s [] (some d) →
    ((s.me.engine e.toNat).results = [] → exec (.epop d e) s = .next (again s s.issue (.blocked true))) ∧
    exec (.eqry d e) s = .next ((s.issue.writeMine d (w64 ((s.me.engine e.toNat).results.length +
      (s.me.engine e.toNat).staged.length * 2 ^ 8 + (s.me.engine e.toNat).unfinished * 2 ^ 16))).finish)) ∧
  ∀ (s : State) (d a : Reg), NoPort s [d, a] (some d) → s.cur.slot ≠ 14 →
    (∀ r rest n t, resumesAt s dmergeKey = some n → (s.me.engine 1).results = r :: rest → t = resultPopped s.issue 1 rest →
      exec (.dmerge d a) s = .next (((cleared (t.modMyCore (·.invalidateL1))).writeMine d r).finish)) ∧
    ∀ t u v, resumesAt s dmergeKey = none → fld (s.src d) 32 32 = 0 → (s.me.engine 1).unfinished < 8 → releaseAll s.issue = .ok () t →
      MayPush s t →
      handOver 1 [w64 (0x0110 * 2 ^ 48 + fld (s.src d) 16 16 * 2 ^ 16 + fld (s.src d) 0 16), s.src a] t = .ok () u →
      v = u.modMe (·.modEngine 1 fun p => { p with staged := (t.me.engine 1).staged }) →
      ((v.me.engine 1).results = [] → exec (.dmerge d a) s =
        .next (again s (v.modMe fun sl => { sl with restart := restartWord dmergeKey 1 }) (.blocked true))) ∧
      ∀ r rest x, (v.me.engine 1).results = r :: rest → x = resultPopped v 1 rest →
        exec (.dmerge d a) s = .next (((cleared (x.modMyCore (·.invalidateL1))).writeMine d r).finish)

/-- R241, R265 to R267: what the engines do. e0's command ends with its merge; GATHER copies the row that the next index names; MERGE_PAGES
reads, merges and writes back the next page, unless a KVLD or KVST stands between two of its tokens; SET_TAU sets the world's threshold. A failed check ends the command with its status. -/
def Sys2Proof.Claims.EngineSteps : Prop :=
  (∀ (s : State) (k : Nat) (c : EngCmd), CommandAt s k 0 1 c →
    (∀ r ∈ ((s.world c.world).log (fld c.header 0 3)).runs, r.seq ≠ c.aux) →
    exec (.e0Merge k) s = .next (s.endCmd k c 0 (min c.count (2 ^ 32 - 1)))) ∧
  (∀ (s : State) (k : Nat) (c : EngCmd), CommandAt s k 3 1 c →
    (∀ caps t u, gatherRow c c.done s = .ok caps t → u = t.chargeCmdCaps c (caps.filter fun x => !c.caps.contains x.id) →
      exec (.gather k) s = .next (if c.done + 1 = fld c.header 0 32 then u.endCmd k c 0 (c.done + 1)
        else keptAt u k { c with done := c.done + 1, caps := (c.caps ++ caps.map (·.id)).eraseDups })) ∧
    (∀ ti t, gatherRow c c.done s = .error (.trap ti) t → exec (.gather k) s = .next (t.endCmd k c ti.cause.toNat c.done)) ∧
    ∀ u v t ib bs caps, engineRead c.who (c.word 3 + w64 (4 * c.done)) 4 s = .ok ib u → leToNat ib < 2 ^ 31 → leToNat ib < (c.word 5).toNat →
      engineSpan c.who (c.word 4 + w64 (leToNat ib * (c.word 7).toNat)) (c.word 6).toNat u = .ok (bs, caps) v →
      engineWrite c.who (c.word 2 + w64 (c.done * (c.word 6).toNat)) bs (fun s => return s) v = .ok () t →
      gatherRow c c.done s = .ok caps t) ∧
  (∀ (s u t : State) (k : Nat) (c : EngCmd) (h : SeqHeader) (bs : List Byte) (ea : W64) (out : List Byte × Nat), CommandAt s k 1 1 c →
    EngineFirst s k 1 → h = ⟨c.word 1, 0, 0, (c.word 2).toNat, (c.word 3).toNat⟩ → ea = h.page (fld c.header 0 16 + c.done) →
    (∀ pl v, locate c.who h.addr .read s = .ok pl v → v.insidePage pl.loc (fld c.header 0 16 + c.done) = false) →
    engineRead c.who ea h.pageBytes s = .ok bs u →
    out = mergePage h.type h.width (Fmt.fp32.decode (s.world c.world).tau.toNat) bs →
    engineWrite c.who ea out.1 (fun s => return s) u = .ok () t →
    exec (.mergePages k) s = .next (if c.done + 1 = c.count then
      (t.chargeCmd c (2 * pipsOf h.pageBytes)).endCmd k c (c.aux % 256)
        ((c.done + 1) * 2 ^ 16 + min (c.aux / 256 + out.2) 65535)
      else keptAt (t.chargeCmd c (2 * pipsOf h.pageBytes)) k
        { c with done := c.done + 1, aux := c.aux % 256 + 256 * (c.aux / 256 + out.2) })) ∧
  (∀ (s : State) (k : Nat) (c : EngCmd), CommandAt s k 1 2 c → EngineFirst s k 1 →
    exec (.setTau k) s = .next ((s.modWorld c.world fun w => { w with tau := (c.word 1).setWidth 32 }).endCmd k c 0 0)) ∧
  ∀ (s : State) (c : EngCmd) (k status v : Nat), (s.slot c.core c.slot).uid = c.uid → c.engine < 4 →
    ((s.slot c.core c.slot).engine c.engine).results.length < 8 → (∀ r ∈ s.engResults, r.uid ≠ c.uid) →
    (s.endCmd k c status v).engCmds = s.engCmds.eraseIdx k ∧
    (((s.endCmd k c status v).slot c.core c.slot).engine c.engine).results = ((s.slot c.core c.slot).engine c.engine).results ++
      [w64 (status * 2 ^ 56 + c.engine * 2 ^ 48 + fld c.header 32 16 * 2 ^ 32 + v % 2 ^ 32)]

/-- R302 to R306: the collective engine. A device whose children's contributions have come reads its source, combines it with them in port
order, and sends it to its parent; the root narrows, sends the result down and writes its destination; a device that gets the result passes
it on and writes it. SEND, RECV and PKTSEND move bytes on one port. A frame that does not match fails the group with MISMATCH, and a
transfer that failed with its code. -/
def Sys2Proof.Claims.Collectives : Prop :=
  (∀ q ∈ [((.allreduce : Nat → Instr), 1), (.allgather, 2), (.reducescatter, 3)], ∀ (s u t : State) (k : Nat) (c : EngCmd) (rs : List RxData) (own out : List Byte), CommandAt s k 2 q.2 c →
    GroupFirst s k c → c.aux = 0 → HaveCome s c c.children rs → framesMatch c rs (upLength c) = true →
    engineRead c.who (c.word 2) c.srcBytes s = .ok own u → out = c.up own (rs.map RxData.data) →
    (c.isRoot = false → (u.port c.parent).sends u.meridian = true → exec (q.1 k) s =
      .next (keptAt (((u.consume c c.children).chargeCmd c (pipsOf c.srcBytes)).sendAll c [c.parent] out) k { c with aux := 1 })) ∧
    (c.isRoot = true → (∀ p ∈ c.children, (u.port p).sends u.meridian = true) →
      deliver k c (c.down out) (((u.consume c c.children).chargeCmd c (pipsOf c.srcBytes)).sendAll c c.children (c.down out)) =
        .ok () t → exec (q.1 k) s = .next t)) ∧
  (∀ q ∈ [((.allreduce : Nat → Instr), 1), (.allgather, 2), (.reducescatter, 3)], ∀ (s u : State) (k : Nat) (c : EngCmd) (rs : List RxData), CommandAt s k 2 q.2 c → GroupFirst s k c → c.aux = 0 →
    HaveCome s c c.children rs →
    (framesMatch c rs (upLength c) = false → exec (q.1 k) s = .next (s.failCmd k c 0x42 none)) ∧
    (∀ ti, framesMatch c rs (upLength c) = true → engineRead c.who (c.word 2) c.srcBytes s = .error (.trap ti) u →
      exec (q.1 k) s = .next (u.failCmd k c ti.cause.toNat none))) ∧
  (∀ q ∈ [((.allreduce : Nat → Instr), 1), (.allgather, 2), (.reducescatter, 3)], ∀ (s t : State) (k : Nat) (c : EngCmd) (rs : List RxData), CommandAt s k 2 q.2 c → GroupFirst s k c → c.aux ≠ 0 →
    HaveCome s c [c.parent] rs →
    (framesMatch c rs (downLength c) = true → (∀ p ∈ c.children, (s.port p).sends s.meridian = true) →
      deliver k c (rs.flatMap RxData.data) ((s.consume c [c.parent]).sendAll c c.children (rs.flatMap RxData.data)) = .ok () t →
      exec (q.1 k) s = .next t) ∧
    (framesMatch c rs (downLength c) = false → exec (q.1 k) s = .next (s.failCmd k c 0x42 none))) ∧
  (∀ q ∈ [((.allreduce : Nat → Instr), 1), (.allgather, 2), (.reducescatter, 3)], ∀ (s : State) (k p code : Nat) (c : EngCmd), CommandAt s k 2 q.2 c → GroupFirst s k c → FailedOn s c p code →
    exec (q.1 k) s = .next (s.failCmd k c code (some p))) ∧
  (∀ (s t : State) (k : Nat) (c : EngCmd) (r : List Byte),
    engineWrite c.who (c.word 3) (if cmdOpcode c.header = 3 then (r.drop (c.rank * c.dstBytes)).take c.dstBytes else r) (fun s => return s) s =
      .ok () t →
    deliver k c r s = .ok () ((t.chargeCmd c (pipsOf c.dstBytes)).endCmd k c 0 (if cmdOpcode c.header = 1
      then fld c.header 0 28 else if cmdOpcode c.header = 2 then c.members * fld c.header 0 28 else fld c.header 0 28 / c.members))) ∧
  (∀ (s t : State) (k : Nat) (c : EngCmd) (bs : List Byte), CommandAt s k 2 4 c → PortFirst s k c →
    (s.port (fld (c.word 1) 0 5)).sends s.meridian = true → engineRead c.who (c.word 2) (c.word 3).toNat s = .ok bs t →
    exec (.send k) s = .next (((t.sendOn (fld (c.word 1) 0 5) c.world 0 c.group (c.frame (fld (c.word 1) 0 5) bs)).chargeCmd c
      (pipsOf bs.length)).endCmd k c 0 bs.length)) ∧
  (∀ (s t : State) (k i p : Nat) (c : EngCmd) (r : RxData), CommandAt s k 2 5 c → PortFirst s k c → p = fld (c.word 1) 0 5 →
    (s.port p).firstSend c.world c.group = some (i, r) →
    (r.fail = 0 → r.complete = true → r.data.length = (c.word 3).toNat →
      engineWrite c.who (c.word 2) r.data (fun s => return s) (s.modPort p (·.take i)) = .ok () t →
      exec (.recv k) s = .next (((t.chargeCmd c (pipsOf r.data.length)).endCmd k c 0 r.data.length).flow p)) ∧
    (r.fail = 0 → r.complete = true → r.data.length ≠ (c.word 3).toNat →
      exec (.recv k) s = .next (((s.modPort p (·.take i)).endCmd k c 0x42 0).flow p)) ∧
    (r.fail ≠ 0 → exec (.recv k) s = .next (((s.modPort p (·.take i)).endCmd k c r.fail 0).flow p))) ∧
  ∀ (s t : State) (k : Nat) (c : EngCmd) (bs : List Byte), CommandAt s k 2 6 c → (s.port (fld (c.word 1) 0 5)).sends s.meridian = true →
    engineRead c.who (c.word 2) 64 s = .ok bs t →
    exec (.pktsend k) s = .next (((t.sendOn (fld (c.word 1) 0 5) c.world 1 0 bs).chargeCmd c 1).endCmd k c 0 1)

/-- R296 to R301, R305: a verified group of flits is released flit by flit, and its counter steps; a group that does not verify takes the link
down; a group of a generation that has retired or expired is discarded. PAUSE and RESUME, received and sent; a generation that ends in a
direction with no other takes the link down; a rotation installs a new key in the idle generation and retires the old one; a link comes up
only where both ends have proved themselves; a failure notice fails its collective. -/
def Sys2Proof.Claims.Links : Prop :=
  (∀ (s : State) (p g : Nat) (fs : List Flit) (f : Flit), (s.port p).up = true → fs.head? = some f → flitKind f.header ≤ 2 →
    g = flitGen f.header →
    (((s.port p).rxGen g).good s.meridian = true →
      (∀ parts, (s.port p).open_ g fs = some parts → exec (.flitReceive p fs) s =
        .next (parts.foldl (fun u x => u.release p x) (s.modPort p fun q => q.setRx g
          { q.rxGen g with counter := (q.rxGen g).counter + 1 }))) ∧
      ((s.port p).open_ g fs = none → exec (.flitReceive p fs) s =
        .next ((s.modPort p fun q => { q with discarded := q.discarded + 1 }).downLink p))) ∧
    (((s.port p).rxGen g).good s.meridian = false → exec (.flitReceive p fs) s =
      .next (fs.foldl (fun u x => u.dropRetired p x) s))) ∧
  (∀ (s : State) (p : Nat) (h : W64) (bs : List Byte), (s.port p).binding.getLsbD (flitWorld h) = false → flitKind h < 2 →
    s.release p (h, bs) = s.modPort p fun q => { q with discarded := q.discarded + 1 }) ∧
  (∀ (s : State) (p : Nat) (h : W64) (bs : List Byte), (s.port p).binding.getLsbD (flitWorld h) = true →
    (flitKind h = 0 → s.release p (h, bs) = (s.join p (flitWorld h) (flitGroup h) (flitOffset h) bs).flow p) ∧
    (flitKind h = 1 → s.release p (h, bs) = (s.pktArrives p (flitWorld h) (flitOffset h) bs).flow p)) ∧
  (∀ (s : State) (p : Nat), (s.port p).up = true →
    ((s.port p).held = false → 3 * Config.ingressBytes < 4 * s.ingress p → s.flow p = s.modPort p fun q =>
      { q with held := true, sent := q.sent ++ [⟨w64 (q.cur * 2 ^ 63 + 4 * 2 ^ 54), []⟩] }) ∧
    ((s.port p).held = true → 4 * s.ingress p < Config.ingressBytes → s.flow p = s.modPort p fun q =>
      { q with held := false, sent := q.sent ++ [⟨w64 (q.cur * 2 ^ 63 + 5 * 2 ^ 54), []⟩] })) ∧
  (∀ (s : State) (p : Nat), (s.port p).up = true →
    exec (.pauseFlit p) s = .next (s.modPort p fun q => { q with paused := true }) ∧
    exec (.resumeFlit p) s = .next (s.modPort p fun q => ({ q with paused := false } : Port).flush p s.meridian) ∧
    exec (.linkDown p) s = .next (s.downLink p) ∧ ((s.downLink p).port p).up = false ∧ ((s.downLink p).port p).rx0.live = false ∧
    ((s.downLink p).port p).rx1.live = false ∧ ((s.downLink p).port p).tx0.live = false ∧ ((s.downLink p).port p).tx1.live = false ∧
    (∀ w g n code, exec (.collectiveFailureNotice p w g n code) s = .next (s.notice p w g n code)) ∧
    ∀ g, (((s.port p).rxGen (1 - boolNat g)).live = true → ((s.port p).tx0.live = true ∨ (s.port p).tx1.live = true) →
        exec (.retireFlit p g) s = .next (s.modPort p fun q => q.setRx (boolNat g) { q.rxGen (boolNat g) with live := false })) ∧
      (((s.port p).rxGen (1 - boolNat g)).live = false → exec (.retireFlit p g) s =
        .next ((s.modPort p fun q => q.setRx (boolNat g) { q.rxGen (boolNat g) with live := false }).downLink p))) ∧
  (∀ (s : State) (p k w g n code : Nat) (c : EngCmd),
    (s.modPort p fun q => { q with owed := q.owed.filter fun e => decide (e ≠ (w, g, n)) }).treeCmd p w g n = some (k, c) →
    s.notice p w g n code =
      (s.modPort p fun q => { q with owed := q.owed.filter fun e => decide (e ≠ (w, g, n)) }).failCmd k c code (some p)) ∧
  (∀ (s : State) (p : Nat) (r : PeerReport), (s.port p).up = false → s.booted = true → s.bootState = 0 → r.authentic = true →
    r.bootGood = true → r.firmwareEqual = true →
    ∃ t, exec (.linkUp p r) s = .next t ∧ (t.port p).up = true ∧ (t.port p).rx0.live = true ∧ (t.port p).tx0.live = true ∧
      (t.port p).rx1.live = false ∧ (t.port p).tx1.live = false ∧ (t.port p).cur = 0 ∧ (t.port p).rx0.key ≠ (t.port p).tx0.key ∧
      (t.port p).binding = s.runMask &&& r.worlds) ∧
  (∀ (s : State) (p : Nat) (r : PeerReport), ¬(r.authentic = true ∧ r.bootGood = true ∧ r.firmwareEqual = true) →
    exec (.linkUp p r) s = .next s) ∧
  (∀ (s : State) (p n : Nat), (s.port p).up = true → (s.port p).paused = false → (s.port p).installedAt + 600000000 ≤ s.meridian →
    (s.port p).cur ≤ 1 → n = 1 - (s.port p).cur → ((s.port p).rxGen n).live = false → ((s.port p).tx n).live = false →
    ∃ t more, exec (.linkKeyRotation p) s = .next t ∧ (t.port p).cur = n ∧ ((t.port p).tx n).live = true ∧
      ((t.port p).rxGen n).live = true ∧ ((t.port p).tx (1 - n)).live = false ∧ ((t.port p).tx n).expiry = s.meridian + 900000000 ∧
      (t.port p).sent = (s.port p).sent ++ ⟨w64 ((1 - n) * 2 ^ 63 + 3 * 2 ^ 54), []⟩ :: more ∧ ((s.port p).queued = [] → more = [])) ∧
  ∀ (s : State) (p : Nat) (rx g : Bool) (v : Gen), v = (if rx then (s.port p).rxGen (boolNat g) else (s.port p).tx (boolNat g)) →
    v.live = true → v.expiry ≤ s.meridian →
    exec (.linkKeyGenerationExpiry p rx g) s = .next ((s.modPort p fun q =>
      if rx then q.setRx (boolNat g) { v with live := false } else q.setTx (boolNat g) { v with live := false }).checkGens p)

/-! ## Traps, the supervisor, chains (spec 13, 20, 21) -/

namespace Sys2Proof.Claims

/-- A control register of a slot of the acting core as it reads (R86, R272). -/
def slotRegisters : List (Nat × (State → Nat → W64)) :=
  [(0x01, fun s n => (s.slot s.cur.core n).cause), (0x02, fun s n => (s.slot s.cur.core n).epc), (0x03, fun s n => (s.slot s.cur.core n).tval),
    (0x04, fun s n => (s.slot s.cur.core n).tcoord), (0x05, fun s n => (s.slot s.cur.core n).tfmt),
    (0x06, fun s n => (s.slot s.cur.core n).restart), (0x07, fun s n => (s.slot s.cur.core n).fpc),
    (0x08, fun s n => (s.slot s.cur.core n).flags), (0x09, fun s n => (s.slot s.cur.core n).fmt),
    (0x0A, fun s n => (s.slot s.cur.core n).scl), (0x0B, fun s n => (s.slot s.cur.core n).chain), (0x0C, fun s _ => w64 s.myWorld),
    (0x0D, fun s n => w64 (s.cur.core * 16 + n)),
    (0x0E, fun s n => w64 (match (s.slot s.cur.core n).quantum with | some t => t - s.coreCycle s.cur.core | none => 0)),
    (0x0F, fun s n => (s.slot s.cur.core n).accown.setWidth 64), (0x10, fun s n => (s.slot s.cur.core n).plown.setWidth 64),
    (0x11, fun s n => (s.slot s.cur.core n).meter), (0x14, fun s n => (s.slot s.cur.core n).task)]

/-- The control registers of a core that any slot reads. -/
def coreRegisters : List (Nat × (State → W64)) :=
  [(0x12, fun s => w64 (s.me.issuedAt - s.myCore.enabledAt)), (0x13, fun s => w64 s.meridian)] ++
  (List.range 8).map (fun i => (0x30 + i, fun s => vat 0 s.myCore.evsel i)) ++
  (List.range 8).map (fun i => (0x38 + i, fun s => vat 0 s.myCore.evcnt i))

/-- The registers of a slot that KWR writes, with what it keeps of a value (R86). -/
def slotWrites : List (Nat × (Slot → W64 → Slot)) :=
  [(0x01, fun sl v => { sl with cause := w64 (fld v 0 8) }), (0x02, fun sl v => { sl with epc := v }),
    (0x03, fun sl v => { sl with tval := v }), (0x04, fun sl v => { sl with tcoord := v }),
    (0x05, fun sl v => { sl with tfmt := w64 (fld v 60 4 * 2 ^ 60 + fld v 0 16) }),
    (0x06, fun sl v => { sl with restart := w64 (fld v 63 1 * 2 ^ 63 + fld v 23 17 * 2 ^ 23 + fld v 0 16) }),
    (0x07, fun sl v => { sl with fpc := w64 (fld v 0 3) }), (0x08, fun sl v => { sl with flags := w64 (fld v 0 9) })]

/-- The slot that CHRD, METRD and CAPCHK look at. -/
def chainSlotOf (s : State) : Nat := if s.cur.slot = 15 then s.myCore.slotsel.toNat else s.cur.slot

/-- A slot's meter without the pip of a METRD of its own that has issued and waited (R207). -/
def meterOf (s : State) (n : Nat) : W64 :=
  if s.me.reissue = true ∧ n = s.cur.slot then (s.slot s.cur.core n).unpip else (s.slot s.cur.core n).meter

/-- The links of a slot's chain in the acting core. -/
def linksAt (s : State) (n : Nat) : List Chain := s.linksOf (fld (s.slot s.cur.core n).chain 0 16)

end Sys2Proof.Claims

/-- R273, R275: taking a trap. The slot's registers hold cause, pc, value, coordinates and formats; a work or copy slot is TRAPPED, with a
record to the supervisor; the supervisor slot goes on at k.vbase with nest set; a second trap there freezes it and stops the world, and its
record stays. No register of a program, no byte of memory and no other slot changes, but that the record ends a STOP of the supervisor. The supervisor reads its own record with k.slotsel 15;
k.vbase is its to read and write, 0 at reset, and takes no odd address. -/
def Obligations.TakingATrap : Prop :=
  (∀ (s t : State) (x : TrapInfo), t = takeTrap x s → s.cur.slot ≠ 15 ∨ s.me.nest = false →
    t.me.cause = x.cause.setWidth 64 ∧ t.me.epc = s.me.pc ∧ t.me.tval = x.tval ∧ t.me.tcoord = x.tcoord ∧ t.me.tfmt = x.tfmt ∧
    t.me.waiting = .none ∧ t.me.s = s.me.s ∧ t.me.p = s.me.p ∧ t.me.tiles = s.me.tiles ∧ t.me.chain = s.me.chain ∧ t.mem = s.mem ∧
    (∀ c n, ¬(c = s.cur.core ∧ (n = s.cur.slot ∨ n = 15)) → t.slot c n = s.slot c n) ∧
    (s.cur.slot ≠ 15 → t.slot s.cur.core 15 = s.slot s.cur.core 15 ∨ t.slot s.cur.core 15 = (s.slot s.cur.core 15).wake) ∧ (∀ c, c ≠ s.cur.core → t.core c = s.core c) ∧
    (s.cur.slot ≠ 15 → t.me.st = .trapped ∧ t.me.pc = s.me.pc ∧
      ∃ r ∈ t.myCore.trapq, fld r 44 12 = fld (recordWord x.cause s.cur.slot 0) 44 12) ∧
    (s.cur.slot = 15 → t.me.st = .run ∧ t.me.pc = s.myCore.vbase ∧ t.me.nest = true ∧ t.myCore.trapq = s.myCore.trapq)) ∧
  (∀ q ∈ slotRegisters, ∀ (s : State) (d a : Reg), NoPort s [a] (some d) → s.cur.slot = 15 → s.myCore.slotsel = 15 → s.me.st ≠ .free →
    (s.src a).toNat = q.1 → exec (.krd d a) s = .next ((s.issue.writeMine d (q.2 s.issue 15)).advance)) ∧
  (∀ (s : State) (d a : Reg), NoPort s [d, a] none → s.cur.slot = 15 → (s.src d).toNat = 0x18 →
    (flag (s.src a) 0 = false → exec (.kwr d a) s = .next ((s.issue.modMyCore fun k => { k with vbase := s.src a }).advance)) ∧
    (flag (s.src a) 0 = true → exec (.kwr d a) s = .next (takeTrap ⟨Cause.align, s.src a, 0, 0xFFFF⟩ s.issue))) ∧
  (∀ (s : State) (d a : Reg), NoPort s [a] (some d) → s.cur.slot = 15 → (s.src a).toNat = 0x18 →
    exec (.krd d a) s = .next ((s.issue.writeMine d s.myCore.vbase).advance)) ∧
  (∀ c, (State.reset.core c).vbase = 0) ∧
  ∀ (s t : State) (x : TrapInfo), t = takeTrap x s → s.cur.slot = 15 → s.me.nest = true →
    (t.world s.myWorld).stopped = true ∧ t.me.st = .frozen ∧ t.me.cause = x.cause.setWidth 64 ∧ t.me.epc = s.me.pc ∧ t.mem = s.mem ∧
    ∀ n, (t.slot s.cur.core n).st = .free ∨ (t.slot s.cur.core n).st = .frozen

/-- R80, R276, R277, R286: words that decode to nothing trap ILLEGAL; TRAP traps SWTRAP with its operand; BKPT halts behind itself in an
attached world and traps elsewhere; RTE returns from the supervisor's own trap, or lets a TRAPPED slot go on at its k.epc. -/
def Obligations.TrapInstructions : Prop :=
  (∀ (s : State) (v : W64), exec (.illegalEncoding v) s = .next (takeTrap ⟨Cause.illegal, v, 0, 0xFFFF⟩ s.issue)) ∧
  (∀ (s : State) (a : Reg), NoPort s [a] none → exec (.trap a) s = .next (takeTrap ⟨Cause.swtrap, s.src a, 0, 0xFFFF⟩ s.issue)) ∧
  (∀ s : State, ((s.world s.myWorld).attached = true → exec .bkpt s =
      .next ((s.issue.modMe fun sl => sl.after s.behind .halted .none).modMyCore (·.queueRecord Cause.bkpt s.cur.slot 0))) ∧
    ((s.world s.myWorld).attached = false → exec .bkpt s = .next (takeTrap ⟨Cause.bkpt, s.me.pc, 0, 0xFFFF⟩ s.issue))) ∧
  ∀ (s : State) (n : Nat), n = s.myCore.slotsel.toNat →
    (s.cur.slot = 15 → n = 15 → s.me.nest = true →
      exec .rte s = .next ((s.issue.modMe fun sl => { sl with nest := false }).goToLater s.me.epc)) ∧
    (s.cur.slot = 15 → n ≠ 15 → (s.slot s.cur.core n).st = .trapped →
      exec .rte s = .next ((s.issue.modSlot s.cur.core n fun sl => { sl with st := .run, pc := sl.epc }).finish)) ∧
    (s.cur.slot = 15 → ¬(n = 15 ∧ s.me.nest = true) → ¬(n ≠ 15 ∧ (s.slot s.cur.core n).st = .trapped) →
      exec .rte s = .next (takeTrap ⟨Cause.illegal, w64 n, 0, 0xFFFF⟩ s.issue)) ∧
    (s.cur.slot ≠ 15 → exec .rte s = .next (takeTrap ⟨Cause.priv, s.me.pc, 0, 0xFFFF⟩ s.issue))

/-- R86, R100, R272: KRD and KWR. A program reads its own registers; the supervisor those of the slot in k.slotsel, 0 where that is FREE; k.trapq
gives its oldest record up; a program writes only k.fpc and k.flags, and any other write traps PRIV, an unknown index ILLEGAL. -/
def Sys2Proof.Claims.ControlRegisters : Prop :=
  (∀ q ∈ slotRegisters, ∀ (s : State) (d a : Reg), NoPort s [a] (some d) → (s.src a).toNat = q.1 →
    (s.cur.slot ≠ 15 → exec (.krd d a) s = .next ((s.issue.writeMine d (q.2 s.issue s.cur.slot)).advance)) ∧
    (∀ n, s.cur.slot = 15 → n = s.myCore.slotsel.toNat → (s.issue.slot s.cur.core n).st ≠ .free →
      exec (.krd d a) s = .next ((s.issue.writeMine d (q.2 s.issue n)).advance)) ∧
    (s.cur.slot = 15 → (s.issue.slot s.cur.core s.myCore.slotsel.toNat).st = .free →
      exec (.krd d a) s = .next ((s.issue.writeMine d 0).advance))) ∧
  (∀ (s : State) (d a : Reg) (n : Nat), NoPort s [a] (some d) → s.src a = 0 →
    n = (if s.cur.slot = 15 then s.myCore.slotsel.toNat else s.cur.slot) → exec (.krd d a) s =
      .next ((s.issue.writeMine d (w64 ((s.issue.slot s.cur.core n).st.code + boolNat (decide (n = 15) && (s.issue.slot s.cur.core n).nest) *
        2 ^ 8 + boolNat (s.world s.myWorld).attached * 2 ^ 9))).advance)) ∧
  (∀ s : State, s.me.reissue = false → s.issue.me.issuedAt - s.issue.myCore.enabledAt = s.coreCycle s.cur.core) ∧
  (∀ q ∈ coreRegisters, ∀ (s : State) (d a : Reg), NoPort s [a] (some d) → (s.src a).toNat = q.1 →
    exec (.krd d a) s = .next ((s.issue.writeMine d (q.2 s.issue)).advance)) ∧
  (∀ (s : State) (d a : Reg), NoPort s [a] (some d) →
    ((s.src a).toNat = 0x19 → s.cur.slot = 15 → exec (.krd d a) s =
      .next (((s.issue.modMyCore fun k => { k with trapq := k.trapq.drop 1 }).writeMine d (s.myCore.trapq.headD 0)).advance)) ∧
    ((s.src a).toNat = 0x18 → s.cur.slot = 15 → exec (.krd d a) s = .next ((s.issue.writeMine d s.myCore.vbase).advance)) ∧
    ((s.src a).toNat ∈ [0x18, 0x19, 0x1A] → s.cur.slot ≠ 15 →
      exec (.krd d a) s = .next (takeTrap ⟨Cause.priv, s.me.pc, 0, 0xFFFF⟩ s.issue)) ∧
    ((s.src a).toNat = 0x20 → s.myWorld = 1 → exec (.krd d a) s =
      .next ((s.issue.writeMine d ((s.wayMask (fld s.me.wmsel 0 4) (fld s.me.wmsel 4 6)).setWidth 64)).finish)) ∧
    (0x40 ≤ (s.src a).toNat → exec (.krd d a) s = .next (takeTrap ⟨Cause.illegal, s.src a, 0, 0xFFFF⟩ s.issue))) ∧
  (∀ q ∈ slotWrites, ∀ (s : State) (d a : Reg), NoPort s [d, a] none → (s.src d).toNat = q.1 →
    (∀ n, s.cur.slot = 15 → n = s.myCore.slotsel.toNat → (s.issue.slot s.cur.core n).st ≠ .free →
      exec (.kwr d a) s = .next ((s.issue.modSlot s.cur.core n fun sl => q.2 sl (s.src a)).advance)) ∧
    (s.cur.slot ≠ 15 → q.1 = 0x07 ∨ q.1 = 0x08 → exec (.kwr d a) s = .next ((s.issue.modMe fun sl => q.2 sl (s.src a)).advance)) ∧
    (s.cur.slot ≠ 15 → q.1 ≠ 0x07 → q.1 ≠ 0x08 → exec (.kwr d a) s = .next (takeTrap ⟨Cause.priv, s.me.pc, 0, 0xFFFF⟩ s.issue))) ∧
  (∀ (s : State) (d a : Reg), NoPort s [d, a] none → s.cur.slot = 15 →
    ((s.src d).toNat = 0x18 → flag (s.src a) 0 = false →
      exec (.kwr d a) s = .next ((s.issue.modMyCore fun k => { k with vbase := s.src a }).advance)) ∧
    ((s.src d).toNat = 0x1A → exec (.kwr d a) s = .next ((s.issue.modMyCore fun k => { k with slotsel := (s.src a).setWidth 4 }).advance)) ∧
    ((s.src d).toNat = 0x19 → s.src a = 0 → exec (.kwr d a) s = .next ((s.issue.modMyCore fun k => { k with trapq := [] }).advance))) ∧
  (∀ (s : State) (d : Reg), exec (.trapqPop d) s =
    .next ((s.modMyCore fun k => { k with trapq := k.trapq.drop 1 }).writeReg s.cur.core 15 d (s.myCore.trapq.headD 0))) ∧
  ∀ s : State, exec .trapqClear s = .next (s.modMyCore fun k => { k with trapq := [] })

/-- R90, R278, R279, R286: the supervisor stops a slot at its stop point, halts and resumes slots, writes a HALTED slot's snapshot out, and
moves a STOPPED slot's context to the cache and makes a held one ready; without room CTXSAVE answers all ones and queues a CTX_FULL record.
INSTRUCTION_COMPLETION puts a slot back in the rotation, or lets its instruction try again. -/
def Obligations.Supervision : Prop :=
  (∀ (s : State) (d a : Reg) (n : Nat), NoPort s [a] (some d) → s.cur.slot = 15 → (s.src a).toNat = n → n < 14 →
    (s.issue.stopPoint s.cur.core n = .now → s.me.reissue = false →
      exec (.preempt d a) s = .next (((s.issue.stopSlot s.cur.core n .stopped).writeMine d 1).finish)) ∧
    (s.issue.stopPoint s.cur.core n = .none → s.me.reissue = false →
      exec (.preempt d a) s = .next (((s.issue.modSlot s.cur.core n fun sl => { sl with stopReq := .none }).writeMine d 0).finish)) ∧
    (s.issue.stopPoint s.cur.core n = .later → s.me.reissue = false → exec (.preempt d a) s =
      .next (again s (s.issue.modSlot s.cur.core n fun sl => { sl with stopReq := .preempt }) (.blocked false))) ∧
    (s.me.reissue = true → (s.slot s.cur.core n).stopReq ≠ .preempt → exec (.preempt d a) s = .next ((s.writeMine d 0).finish))) ∧
  (∀ (s : State) (c n : Nat) (sl : Slot), sl = s.slot c n →
    (sl.st = .free ∨ sl.st = .halted ∨ sl.st = .frozen → s.stopPoint c n = .none) ∧
    (sl.st = .trapped ∨ sl.st = .stopped ∨ (sl.st = .run ∧ sl.reissue = false) ∨
      (sl.st = .wait ∧ (sl.waiting = .rows ∨ sl.waiting = .blocked true)) → s.stopPoint c n = .now) ∧
    (sl.st = .wait → sl.waiting = .complete ∨ sl.waiting = .net ∨ sl.waiting = .blocked false → s.stopPoint c n = .later) ∧
    (sl.st = .wait → sl.waiting = .retiring → s.stopPoint c n = .none) ∧
    (∀ loc r, sl.st = .wait → sl.waiting = .turn loc →
      (s.bank loc).queue.find? (fun r => decide (r.core = c) && decide (r.slot = n)) = some r →
      s.stopPoint c n = match r.kind with
        | .atomic _ => .now
        | .rsv => .now
        | .texit => .none
        | _ => .later) ∧
    ((s.stopSlot c n .stopped).slot c n).st = .stopped ∧
    ((s.stopSlot c n .stopped).slot c n).pc = (if sl.st = .trapped then sl.epc else sl.pc) ∧
    ((s.stopSlot c n .stopped).slot c n).s = sl.s ∧ (s.stopSlot c n .stopped).mem = s.mem) ∧
  (∀ (s t : State) (d a : Reg) (n : Nat) (caps : List Cap), NoPort s [d, a] none → s.cur.slot = 15 → (s.world s.myWorld).attached = true →
    (s.src a).toNat = n → n < 14 → (s.src d).toNat % 64 = 0 → fld (s.src d) 58 6 = 0x30 → s.me.reissue = false →
    s.issue.stopPoint s.cur.core n = .now →
    writeRow s.who [(s.src d, (s.issue.stopSlot s.cur.core n .halted).snapshot s.cur.core n)] 8 (s.issue.stopSlot s.cur.core n .halted) =
      .ok caps t →
    exec (.haltt d a) s = .next ((t.chargeAll caps).finish)) ∧
  (∀ (s : State) (a : Reg), NoPort s [a] none → s.cur.slot = 15 →
    (∀ n, (s.src a).toNat = n → n < 14 → (s.issue.slot s.cur.core n).st = .halted ∨ (s.issue.slot s.cur.core n).st = .stopped →
      exec (.resume a) s = .next ((s.issue.modSlot s.cur.core n fun sl => { sl with st := .run, waiting := .none }).finish)) ∧
    (s.src a = 0x100 → ∃ t : State, exec (.resume a) s = .next (t.finish) ∧ ∀ n, n < 15 →
      t.slot s.cur.core n = if (s.issue.slot s.cur.core n).st = .halted
        then { s.issue.slot s.cur.core n with st := .run, waiting := .none } else s.issue.slot s.cur.core n)) ∧
  (∀ (s t : State) (d a : Reg) (n : Nat) (sl : Slot), NoPort s [a] (some d) → s.cur.slot = 15 →
    (s.src a).toNat = fld (s.src a) 0 4 + 16 * fld (s.src a) 4 1 → n = fld (s.src a) 0 4 → n < 14 → sl = s.issue.slot s.cur.core n →
    sl.st = .stopped → t = (s.issue.revokeAll sl.uid).performSlot s.cur.core n →
    (∀ e, s.issue.myCore.roomFor sl.spill = some e → t.hasDeferred s.cur.core sl.uid = false → t.unitsLocked s.cur.core n = false →
      exec (.ctxsave d a) s = .next (((t.moveOut s.cur.core n e
        (if flag (s.src a) 4 then .held else .parked (.ready t.cycle))).writeMine d (w64 e)).finish)) ∧
    (∀ e, s.issue.myCore.roomFor sl.spill = some e → t.hasDeferred s.cur.core sl.uid = true ∨ t.unitsLocked s.cur.core n = true →
      exec (.ctxsave d a) s = .next (again s t (.blocked false))) ∧
    (s.issue.myCore.roomFor sl.spill = none → exec (.ctxsave d a) s = .next ((((s.issue.performSlot s.cur.core n).modCore s.cur.core
      (·.queueRecord Cause.ctxFull n 0)).writeMine d (BitVec.allOnes 64)).finish))) ∧
  (∀ (s : State) (a : Reg) (i : Nat) (e : CtxEntry), NoPort s [a] none → s.cur.slot = 15 → i = (s.src a).toNat →
    s.issue.myCore.cache.find? (fun e => decide (e.1 = i)) = some (i, e) → e.st = .held → exec (.ctxload a) s =
      .next ((s.issue.modMyCore fun k => { k with cache := Sparse.put k.cache i { e with st := .parked (.ready s.cycle) } }).finish)) ∧
  ∀ (s : State) (c n : Nat), (s.slot c n).st = .wait → (s.core c).enabled = true → (s.world (s.core c).world).stopped = false →
    ((s.slot c n).waiting = .complete → exec (.instructionCompletion c n) s =
      .next ((s.endInstr c n).modSlot c n fun x => { x with st := .run, waiting := .none })) ∧
    ((s.slot c n).waiting = .rows ∨ (s.slot c n).waiting = .retiring ∨ (∃ b, (s.slot c n).waiting = .blocked b) →
      exec (.instructionCompletion c n) s = .next (s.modSlot c n fun x => { x with reissue := true })) ∧
    ∀ loc q, (s.slot c n).waiting = .barrier loc q → (s.barrier loc).phase ≠ q →
      exec (.instructionCompletion c n) s = .next (s.releasePhase loc q ((s.barrier loc).actScope loc))

/-- R280 to R283: CTXOUT seals a context of the cache under the next counter of its index and writes the image, or answers 0 where it has no
room; CTXIN admits the image of the current counter alone, once, or traps CTX_STALE or CTX_TAG; after the key's lease both trap KEYLEASE. -/
def Sys2Proof.Claims.ContextImages : Prop :=
  (∀ (s u r k v t : State) (d a : Reg) (x : CopyDesc) (caps : List Cap) (img : List Byte) (e0 : CtxEntry) (i index wlen woff n counter : Nat),
    NoPort s [a] (some d) →
    s.cur.slot = 15 → readCtxDesc (s.src a) s.issue = .ok (x, caps) u → i = fld x.mb0 0 6 → index = fld x.mb0 32 12 → wlen = fld x.size 32 18 →
    woff = fld x.size 0 18 → u.myCore.cache.find? (fun q => decide (q.1 = i)) = some (i, e0) →
    fld x.mb0 44 20 = 0 → fld x.mb0 6 26 = 0 → fld x.size 50 14 = 0 → fld x.size 18 14 = 0 → wlen % 64 = 0 → woff % 64 = 0 →
    woff + wlen ≤ 0x30000 → x.src.toNat % 16 = 0 → fld x.src 61 3 = 0 → releaseAll u = .ok () r →
    n = imageLen e0.ctx.liveTiles.length e0.rowsInAll e0.accs.length e0.planes.length wlen →
    counter = Sparse.get 0 (r.world s.myWorld).counters index →
    (x.dst.toNat < n ∨ counter = 2 ^ 32 - 1 → exec (.ctxout d a) s = .next (((r.chargeAll caps).writeMine d 0).finish)) ∧
    (n ≤ x.dst.toNat → counter ≠ 2 ^ 32 - 1 → r.ctxKeyDead s.myWorld = true →
      exec (.ctxout d a) s = .next (takeTrap ⟨Cause.keylease, x.src, 0, 0xFFFF⟩ r)) ∧
    (n ≤ x.dst.toNat → counter ≠ 2 ^ 32 - 1 → r.ctxKeyDead s.myWorld = false → imageWordsFree s.who x.src n r = .ok () r →
      k = ((((r.unwait e0.takeOut.ctx.uid).modWorld s.myWorld fun y => { y with
        counters := Sparse.put y.counters index (counter + 1),
        saved := Sparse.put y.saved index e0.takeOut.ctx.uid }).dropSaved s.myWorld index).modCore s.cur.core
          fun q => { q with cache := Sparse.put q.cache i e0.takeOut }) →
      img = sealed (k.imageKey s.myWorld index) (imageHeader e0.takeOut (counter + 1) s.myWorld index n woff wlen)
        (k.imageBody s.cur.core e0.takeOut n woff wlen) →
      writeImage s.who x.src (img.take (64 - x.src.toNat % 64)) 1 k = .ok () v →
      writeImage s.who (x.src + w64 (64 - x.src.toNat % 64)) (img.drop (64 - x.src.toNat % 64)) (n / 64 + 1) (v.chargeAll caps) = .ok () t →
      exec (.ctxout d a) s = .next ((((t.modWorld s.myWorld fun y => { y with
        savedChain := Sparse.put y.savedChain index (fld e0.takeOut.ctx.chain 0 16) }).modCore s.cur.core
          fun q => { q with cache := Sparse.drop q.cache i }).writeMine d (w64 n)).finish))) ∧
  (∀ (s u : State) (d a : Reg) (x : CopyDesc) (caps : List Cap), NoPort s [a] (some d) → s.cur.slot = 15 →
    readCtxDesc (s.src a) s.issue = .ok (x, caps) u → fld x.mb0 44 20 = 0 → fld x.mb0 0 32 = 0 → x.size = 0 → x.src.toNat % 16 = 0 →
    fld x.src 61 3 = 0 →
    (u.myCore.roomFor 0 = none → exec (.ctxin d a) s = .next (((u.chargeAll caps).writeMine d (BitVec.allOnes 64)).finish)) ∧
    ((u.myCore.roomFor 0).isSome = true → u.ctxKeyDead s.myWorld = true →
      exec (.ctxin d a) s = .next (takeTrap ⟨Cause.keylease, x.src, 0, 0xFFFF⟩ u))) ∧
  ∀ (s u v t : State) (d a : Reg) (x : CopyDesc) (caps : List Cap) (index rows n i : Nat) (h bs : List Byte) (key : Nat), NoPort s [a] (some d) →
    s.cur.slot = 15 → readCtxDesc (s.src a) s.issue = .ok (x, caps) u → index = fld x.mb0 32 12 → fld x.mb0 44 20 = 0 → fld x.mb0 0 32 = 0 →
    x.size = 0 → x.src.toNat % 16 = 0 → fld x.src 61 3 = 0 → (u.myCore.roomFor 0).isSome = true → u.ctxKeyDead s.myWorld = false →
    engineRead s.who x.src 64 u = .ok h v → headerRows h = some rows → n = fld (wordIn h 16) 0 32 →
    fld (wordIn h 0) 16 48 = 0x513743580001 → fld (wordIn h 8) 12 4 = s.myWorld → n ≤ x.dst.toNat →
    v.myCore.roomFor (headerSpill h rows) = some i →
    (fld (wordIn h 8) 32 32 ≠ Sparse.get 0 (v.world s.myWorld).counters index →
      exec (.ctxin d a) s = .next (takeTrap ⟨Cause.ctxStale, x.src, w64 (fld (wordIn h 8) 32 32), 0xFFFF⟩ v)) ∧
    (fld (wordIn h 8) 32 32 = Sparse.get 0 (v.world s.myWorld).counters index → engineRead s.who x.src n v = .ok bs t →
      key = t.imageKey s.myWorld index →
      (bs.drop (n - 16) ≠ gcmTagOf key (headerIv h) h ((bs.drop 64).take (n - 80)) →
        exec (.ctxin d a) s = .next (takeTrap ⟨Cause.ctxTag, x.src, 0, 0xFFFF⟩ t)) ∧
      (bs.drop (n - 16) = gcmTagOf key (headerIv h) h ((bs.drop 64).take (n - 80)) →
        ∃ (w : State) (e : CtxEntry), exec (.ctxin d a) s = .next ((w.writeMine d (w64 i)).finish) ∧
          (w.world s.myWorld).counters = Sparse.put (t.world s.myWorld).counters index (Sparse.get 0 (t.world s.myWorld).counters index + 1) ∧
          w.myCore.cache.find? (fun q => decide (q.1 = i)) = some (i, e) ∧ e.st = .held ∧
          e = (Machine.entryOf (gcmXor key (headerIv h) ((bs.drop 64).take (n - 80))) (wordIn h 24).toNat
            (Sparse.get t.uidCtr (t.world s.myWorld).saved index)).1))

/-- R202 to R208, R215, R216: CHRD reads a chain's links with their effective shares; ADOPT interns a link under the caller's chain, splits the
segment and acts under it; UNADOPT returns to the parent; METRD answers the meter, or a link's part, as it stood before its own issue; CAPCHK
answers whether an access would be authorised. The parts of a split add up to what was split. -/
def Sys2Proof.Claims.ChainInstructions : Prop :=
  (∀ (s : State) (d a : Reg) (n : Nat), NoPort s [a] (some d) → s.cur.slot ≠ 14 → n = chainSlotOf s →
    (s.src a = 0 → exec (.chrd d a) s = .next ((s.issue.writeMine d (w64 (boolNat (s.chain (fld (s.slot s.cur.core n).chain 0 16)).revoked *
      2 ^ 19 + fld (s.slot s.cur.core n).chain 0 19))).finish)) ∧
    (∀ e eff, s.src a ≠ 0 → (s.src a).toNat ≤ 8 → ((linksAt s n).zip (effShares (linksAt s n)))[(s.src a).toNat - 1]? = some (e, eff) →
      exec (.chrd d a) s = .next ((s.issue.writeMine d (w64 (eff * 2 ^ 48 + e.share * 2 ^ 40 + e.gen * 2 ^ 32 + e.principal))).finish)) ∧
    (s.src a ≠ 0 → (s.src a).toNat ≤ 8 → (linksAt s n).length < (s.src a).toNat →
      exec (.chrd d a) s = .next ((s.issue.writeMine d 0).finish)) ∧
    (s.src a = 0 → exec (.metrd d a) s = .next (((s.writeMine d (meterOf s n)).issue).finish)) ∧
    (s.src a ≠ 0 → (s.src a).toNat ≤ 8 → exec (.metrd d a) s = .next (((s.writeMine d
      (w64 ((splitParts (meterOf s n).toNat (effShares (linksAt s n)))[(s.src a).toNat - 1]?.getD 0))).issue).finish)) ∧
    (8 < (s.src a).toNat → exec (.chrd d a) s = .next (takeTrap ⟨Cause.illegal, s.src a, 0, 0xFFFF⟩ s.issue))) ∧
  (∀ (c : Nat) (eff : List Nat), eff ≠ [] → eff.sum = 100 → (splitParts c eff).sum = c ∧ (splitParts c eff).length = eff.length) ∧
  (∀ (s t : State) (d a : Reg) (p f n : Nat), NoPort s [a] (some d) → s.cur.slot < 14 → p = fld (s.src a) 0 24 → f = fld (s.src a) 32 7 →
    fld (s.src a) 39 25 = 0 → fld (s.src a) 24 8 = 0 → s.issue.revoking = false → (s.chain (fld s.me.chain 0 16)).revoked = false →
    fld s.me.chain 16 3 ≠ 7 → f ≤ (s.chain (fld s.me.chain 0 16)).share → p ≠ 0 → (s.principal p).st = .live →
    (s.principal p).world = s.myWorld →
    s.issue.intern (some (fld s.me.chain 0 16)) p (s.principal p).gen f s.myWorld (fld s.me.chain 16 3 + 1) = some (n, t) →
    exec (.adopt d a) s = .next ((((((t.splitSegment s.cur.core s.cur.slot).takeRef n).dropRef (fld s.me.chain 0 16)).modMe fun sl =>
      { sl with chain := w64 (n + (fld s.me.chain 16 3 + 1) * 2 ^ 16) }).writeMine d (w64 (n + (fld s.me.chain 16 3 + 1) * 2 ^ 16))).finish)) ∧
  (∀ (s : State) (d : Reg) (n : Nat), NoPort s [] (some d) → s.cur.slot < 14 → s.issue.revoking = false → fld s.me.chain 16 3 ≠ 0 →
    n = (s.chain (fld s.me.chain 0 16)).parent →
    exec (.unadopt d) s = .next ((((((s.issue.splitSegment s.cur.core s.cur.slot).takeRef n).dropRef (fld s.me.chain 0 16)).modMe fun sl =>
      { sl with chain := w64 (n + (fld s.me.chain 16 3 - 1) * 2 ^ 16) }).writeMine d (w64 (n + (fld s.me.chain 16 3 - 1) * 2 ^ 16))).finish)) ∧
  (∀ (s : State) (p w gen share depth n : Nat) (parent : Option Nat) (t : State), s.intern parent p gen share w depth = some (n, t) →
    s.findChain parent p gen share = none →
    (t.chain n).valid = true ∧ (t.chain n).principal = p ∧ (t.chain n).share = share ∧ (t.chain n).gen = gen ∧
    ((s.chain n).valid = false ∨ ∀ e ∈ s.chains, e.1 ≠ n ∨ e.2.valid = false)) ∧
  ∀ (s t : State) (p : Num3) (a : Reg) (k : BitVec 2) (w : Who), NoPort s [a] none → s.cur.slot ≠ 14 →
    w = ⟨s.cur.core, s.cur.slot, s.myWorld, fld (s.slot s.cur.core (chainSlotOf s)).chain 0 16⟩ →
    (∀ cap, authorize w (s.src a) [kindOf k] s.issue = .ok cap t →
      exec (.capchk p a k) s = .next ((t.modMe (·.setPred p true)).finish)) ∧
    (∀ x, authorize w (s.src a) [kindOf k] s.issue = .error (.trap x) t → x.cause ≠ Cause.chainRevoked →
      exec (.capchk p a k) s = .next ((t.modMe (·.setPred p false)).finish)) ∧
    ∀ x, authorize w (s.src a) [kindOf k] s.issue = .error (.trap x) t → x.cause = Cause.chainRevoked →
      exec (.capchk p a k) s = .next (takeTrap x t)

/-- R13, R211, R293: a revocation raises the principal's generation, marks the entries of its passes, 64 a cycle, ends after the eighth pass
with the rule caches flushed, and answers the new generation. A revocation that waits when its world stops makes none of its steps (the
model's choice, log 40). -/
def Sys2Proof.Claims.Revocation : Prop :=
  (∀ (s : State) (w : Sweep) (rest : List Sweep), s.sweep = none → s.revocations = w :: rest →
    ∃ t, exec .revocationSweep s = .next t ∧ t.sweep = some { w with pass := 0, cycle := 0 } ∧ t.revocations = rest ∧
      (t.principal w.principal).gen = (s.principal w.principal).gen + 1 ∧
      (t.principal w.principal).st = if (s.principal w.principal).gen + 1 = 0xFF then .retired else .revoked) ∧
  (∀ (s : State) (w : Sweep), s.sweep = some w → w.pass < 8 → ∃ t, exec .revocationSweep s = .next t ∧
    t.sweep = some (if w.cycle = 1023 then { w with pass := w.pass + 1, cycle := 0 } else { w with cycle := w.cycle + 1 }) ∧
    (∀ e ∈ s.chains, e.1 / 64 = w.cycle → (s.chain e.1).valid = true → (w.pass = 0 → (s.chain e.1).principal = w.principal) →
      (w.pass ≠ 0 → (s.chain e.1).depth ≠ 0 ∧ (s.chain (s.chain e.1).parent).revoked = true) → (t.chain e.1).revoked = true) ∧
    (∀ c, c / 64 ≠ w.cycle → (t.chain c).revoked = (s.chain c).revoked) ∧
    (∀ c, (s.chain c).revoked = true → (t.chain c).revoked = true) ∧ ∀ c, (t.chain c).valid = true → (s.chain c).valid = true) ∧
  (∀ (s : State) (w : Sweep), s.sweep = some w → w.pass = 8 →
    ∃ t, exec .revocationComplete s = .next t ∧ t.sweep = none ∧ t.ruleCaches = [] ∧
      ∀ p, (s.fn w.fn).pending = some p → p.fin = .revocation w.principal →
        (t.fn w.fn).pending = some { p with fin := .done 0x02 (BitVec.ofNat 32 (s.principal w.principal).gen) }) ∧
  ∀ (s : State) (w : Nat) (cause : Byte) (keep : Option (Nat × Nat)), ∀ r ∈ (s.stopWorld w cause keep).revocations,
    (s.principal r.principal).world ≠ w

/-! ## The host: commands and windows (spec 02, 03, 22) -/

namespace Sys2Proof.Claims

/-- A host write of c0 that begins a command (R29): boot has run, the function has none BUSY, the opcode is the row's, and the key set that the
write names is accepted (R44). -/
abbrev Begins (s : State) (c : Cmd) (op : Nat) : Prop :=
  s.booted = true ∧ c.fn ≤ 14 ∧ (s.fn c.fn).pending = none ∧ fld c.c0 0 8 = op ∧ s.deciphers c.fn c.key = true

/-- The state in which a command is judged: BUSY with its tag, LOST cleared (R29, R31). -/
def judged (s : State) (c : Cmd) : State := s.modFn c.fn fun f => { f with
  block := f.block.set 0 c.c0, code := 0x01, tag := (c.c0 >>> 16).setWidth 16, lost := false, result := 0 }

/-- The command's effect applied; COMMAND_COMPLETION will report it (R31). -/
def begunCmd (s : State) (c : Cmd) (op world : Nat) (e : CmdEnd × State) : State := e.2.modFn c.fn fun f => { f with
  pending := some ⟨(c.c0 >>> 16).setWidth 16, if fld (s.cmdWord c.fn 7) 0 6 = 0 then s.cmdWord c.fn 7 else 0, e.1, world, op,
    (s.fn c.fn).selected⟩ }

/-- The command passes the judgement of opcode, issuer, function state and reserved fields (R32, R34). -/
abbrev Admitted (s : State) (c : Cmd) (op : Nat) : Prop :=
  Begins s c op ∧ (s.bootState = 0 ∨ op = 1) ∧ issuerOk op c.fn = true ∧ (judged s c).stateOk op c.fn = true ∧ fld c.c0 32 32 = 0 ∧
  fld c.c0 8 8 = 0 ∧ fld (s.cmdWord c.fn 7) 0 6 = 0

/-- Done with OK and a result. -/
def okWith (n : Nat) : CmdEnd := .done 0x02 (BitVec.ofNat 32 n)

/-- Operand i of the command. -/
def opnd (s : State) (c : Cmd) (i : Nat) : Nat := ((judged s c).cmdWord c.fn i).toNat

/-- A report that R43 lets renew a lease, and the renewal's expiry (R42). -/
abbrev RenewOk (s : State) (c : Cmd) (r : Report) (k : Nat) : Prop :=
  Admitted s c 0x0C ∧ (s.cmdWord c.fn 3).toNat = k ∧ cmdReadFails c (opnd s c 1) (opnd s c 2) = false ∧ (judged s c).reportOk c.fn r = true

end Sys2Proof.Claims

/-- R28 to R32, R34: judgement. An undefined opcode answers BAD_OPCODE, an issuer that R32 does not let, or a TDI that would destroy a world not
its own, NOT_PERMITTED, a function state that R34
does not BAD_STATE, a reserved field BAD_FIELD, in this order; a write while BUSY sets LOST; completion writes the status word and then the done
line. -/
def Obligations.CommandJudgement : Prop :=
  (∀ (s : State) (c : Cmd), Begins s c (fld c.c0 0 8) → s.bootState = 0 → (fld c.c0 0 8 = 0 ∨ 0x0F < fld c.c0 0 8) →
    exec (.badOpcode c) s = .next (begunCmd (judged s c) c (fld c.c0 0 8) 0 (.done 0x10 0, judged s c))) ∧
  (∀ (s : State) (c : Cmd), Begins s c 0x02 → s.bootState = 0 → c.fn ≠ 0 →
    exec (.worldCreate c) s = .next (begunCmd (judged s c) c 2 0 (.done 0x12 0, judged s c))) ∧
  (∀ (s : State) (c : Cmd), Begins s c 0x04 → s.bootState = 0 → c.fn ≠ 0 →
    (s.fn c.fn).world = 0 ∨ fld (s.cmdWord c.fn 1) 0 4 ≠ (s.fn c.fn).world →
    exec (.worldDestroy c) s = .next (begunCmd (judged s c) c 4 (s.cmdWord c.fn 1).toNat (.done 0x12 0, judged s c))) ∧
  (∀ (s : State) (c : Cmd), Begins s c 0x06 → s.bootState = 0 → c.fn ≠ 0 → (s.fn c.fn).tdisp ≠ .run →
    exec (.launch c) s = .next (begunCmd (judged s c) c 6 (s.fn c.fn).world (.done 0x14 0, judged s c))) ∧
  (∀ (s : State) (c : Cmd), Begins s c 0x01 → fld c.c0 32 32 ≠ 0 ∨ fld c.c0 8 8 ≠ 0 ∨ fld (s.cmdWord c.fn 7) 0 6 ≠ 0 →
    exec (.getInfo c) s = .next (begunCmd (judged s c) c 1 (s.fnWorld c.fn) (.done 0x11 0, judged s c))) ∧
  (∀ (s : State) (f : Nat) (t : Tlp) (p : Pending), (s.fn f).pending = some p → s.deciphers f t.key = true → t.off = 0 →
    8 ≤ t.bytes.length → exec (.lostCommandWrite f t) s =
      .next (s.modFn f fun x => { x with lost := true, block := blockWrite x.block 0 t.bytes })) ∧
  (∀ (s : State) (f : Nat) (p : Pending) (code : Byte) (result : W32) (u : State), (s.fn f).pending = some p → p.fin = .done code result →
    u = s.modFn f (fun x => { x with code := code, result := result, tag := p.tag, pending := none }) →
    exec (.commandCompletion f) s = .next (if p.doneLine = 0 then u else u.hostWrite p.doneLine.toNat (natToLe 64
      (result.toNat * 2 ^ 32 + p.tag.toNat * 2 ^ 16 + boolNat (s.fn f).lost * 2 ^ 8 + code.toNat)))) ∧
  ∀ (s : State) (addr : Nat) (bs : List Byte), addr + bs.length ≤ 2 ^ 63 →
    (∀ i, i < bs.length → (s.hostWrite addr bs).byte (2 ^ 55 + addr + i) = bs.getD i 0) ∧
    ∀ l, (l < 2 ^ 55 + addr ∨ 2 ^ 55 + addr + bs.length ≤ l) → (s.hostWrite addr bs).byte l = s.byte l

/-- R33, R35, R50, R286, R292, R327: GET_INFO, LOAD_IMAGE, LAUNCH, METER_READ, DEBUG_ATTACH. -/
def Sys2Proof.Claims.CommandsOfAWorld : Prop :=
  (∀ (s : State) (c : Cmd), Admitted s c 0x01 → opnd s c 1 % 64 = 0 → exec (.getInfo c) s = .next (begunCmd (judged s c) c 1 (s.fnWorld c.fn) (okWith 0, (judged s c).hostWrite (opnd s c 1) (((judged s c).infoWords c.fn).flatMap fun v => natToLe 8 v.toNat)))) ∧
  (∀ (s : State) (c : Cmd) (src n dst w : Nat), Admitted s c 0x05 → w = s.fnWorld c.fn → src = opnd s c 1 → n = opnd s c 2 → dst = opnd s c 3 →
    n ≠ 0 → n % 64 = 0 → n ≤ 2 ^ 28 → dst % 64 = 0 → dst + n ≤ 2 ^ 56 → (∃ x ∈ (s.world w).caps, x.base ≤ dst ∧ dst + n ≤ x.base + x.len) →
    (∀ i, i < (dst % 65536 + n + 65535) / 65536 → ((judged s c).imagePage w (dst / 65536 * 65536 + 65536 * i)).isSome = true) →
    (s.world w).images.length < 224 → hostRange src n = true → c.hostErr = none →
    exec (.loadImage c) s = .next (begunCmd (judged s c) c 5 w (okWith (0x10 + (s.world w).images.length), (copyLines w src dst 0 (n / 64) (judged s c)).modWorld w fun x =>
      { x with images := x.images ++ [(Config.shake256 ((judged s c).hostRead src n)).toNat] }))) ∧
  (∀ (s : State) (c : Cmd) (a n w : Nat), Admitted s c 0x06 → w = s.fnWorld c.fn → a = opnd s c 1 → n = opnd s c 2 → a % 64 = 0 → n ≠ 0 →
    n < 4096 → exec (.launch c) s = .next (begunCmd (judged s c) c 6 w (launchFrom c w a n 0 (n + 1) (judged s c)))) ∧
  (∀ (c : Cmd) (w a n i fuel : Nat) (s : State), i < n → c.hostErr ≠ some i → hostRange (a + 64 * i) 64 = true →
    (∀ t, s.offer w (s.hostRead (a + 64 * i) 64) = .accepted t → launchFrom c w a n i (fuel + 1) s = launchFrom c w a n (i + 1) fuel t) ∧
    (s.offer w (s.hostRead (a + 64 * i) 64) = .malformed → launchFrom c w a n i (fuel + 1) s =
      (.done 0x16 (BitVec.ofNat 32 i), s.modFn c.fn fun x => { x with rejected := x.rejected + 1 })) ∧
    (s.offer w (s.hostRead (a + 64 * i) 64) = .full → launchFrom c w a n i (fuel + 1) s = (.done 0x13 (BitVec.ofNat 32 i), s)) ∧
    launchFrom c w a n n (fuel + 1) s = (okWith n, s)) ∧
  (∀ (s : State) (c : Cmd) (first n a w : Nat), Admitted s c 0x0D → w = s.fnWorld c.fn → first = opnd s c 1 → n = opnd s c 2 →
    a = opnd s c 3 → first < 2 ^ 24 → n ≠ 0 → n < 4096 → a % 8 = 0 → exec (.meterRead c) s = .next (begunCmd (judged s c) c 0xD w (okWith 0, (judged s c).hostWrite a
      ((List.range n).flatMap fun i => natToLe 8 (if (s.principal (first + i)).st ≠ .free ∧ (s.principal (first + i)).world = w
        then Sparse.get 0 (s.world w).meters (first + i) else 0))))) ∧
  (∀ (s : State) (c : Cmd), Admitted s c 0x0F → (s.world (s.fnWorld c.fn)).debugOk = true →
    (s.cmdWord c.fn 1 = 1 → opnd s c 1 = 1 → exec (.debugAttach c) s = .next (begunCmd (judged s c) c 0xF (s.fnWorld c.fn) (okWith 0, (judged s c).modWorld (s.fnWorld c.fn) fun x => { x with attached := true }))) ∧
    (s.cmdWord c.fn 1 = 0 → opnd s c 1 = 0 → exec (.debugDetach c) s = .next (begunCmd (judged s c) c 0xF (s.fnWorld c.fn) (okWith 0, (judged s c).debugAttach (s.fnWorld c.fn) false)))) ∧
  ∀ (s : State) (w c n : Nat), (s.core c).world = w → ((s.debugAttach w false).slot c n).st ≠ .halted ∧
    ((s.slot c n).st ≠ .halted → (s.debugAttach w false).slot c n = s.slot c n)

/-- R13, R17, R18, R217: principals, rule sets and capabilities. -/
def Sys2Proof.Claims.CommandsOfAuthority : Prop :=
  (∀ (s t : State) (c : Cmd) (id w n : Nat), Admitted s c 0x07 → w = s.fnWorld c.fn → id = opnd s c 1 → id < 2 ^ 24 → id ≠ 0 →
    s.revoking = false → ((s.principal id).st = .free ∨ ((s.principal id).st = .revoked ∧ (s.principal id).world = w)) →
    (judged s c).intern none id (s.principal id).gen 100 w 0 = some (n, t) →
    exec (.principalAdd c) s = .next (begunCmd (judged s c) c 7 w (okWith n, t.setPrincipal id { s.principal id with st := .live, world := w }))) ∧
  (∀ (s : State) (c : Cmd) (id w : Nat), Admitted s c 0x07 → w = s.fnWorld c.fn → id = opnd s c 1 → id < 2 ^ 24 → s.revoking = true →
    exec (.principalAdd c) s = .next (begunCmd (judged s c) c 7 w (.principalAdd id, judged s c))) ∧
  (∀ (s : State) (c : Cmd) (id w : Nat), Admitted s c 0x08 → w = s.fnWorld c.fn → id = opnd s c 1 → id < 2 ^ 24 → id ≠ 0 →
    (s.principal id).st = .live → (s.principal id).world = w →
    exec (.principalRevoke c) s = .next (begunCmd (judged s c) c 8 w (.revocation id, { judged s c with revocations := s.revocations ++ [⟨id, 0, 0, c.fn⟩] }))) ∧
  (∀ (s : State) (c : Cmd) (set a n w : Nat) (rules : List Rule), Admitted s c 0x09 → w = s.fnWorld c.fn → set = opnd s c 1 → a = opnd s c 2 →
    n = opnd s c 3 → set < 4096 → n ≠ 0 → n ≤ 16 → cmdReadFails c a (32 * n) = false → rulesOf ((judged s c).hostRead a (32 * n)) n = some rules →
    exec (.ruleSet c) s = .next (begunCmd (judged s c) c 9 w (okWith 0, { (judged s c).modWorld w fun x => { x with ruleSets := Sparse.put x.ruleSets set rules } with
      ruleCaches := [] }))) ∧
  (∀ (s : State) (c : Cmd) (w id : Nat) (base c3 c4 : W64) (len : Nat), Admitted s c 0x0A → w = s.fnWorld c.fn →
    base = (judged s c).cmdWord c.fn 1 → len = opnd s c 2 → c3 = (judged s c).cmdWord c.fn 3 → c4 = (judged s c).cmdWord c.fn 4 →
    fld c3 20 44 = 0 → fld c3 12 4 = 0 → fld c4 32 32 = 0 → capRangeOk w base len = true →
    (∀ y ∈ (s.world w).caps, ¬(y.base < base.toNat + len ∧ base.toNat < y.base + y.len)) → (s.world w).caps.length < 4096 →
    id = freeCapid s.freeCtr ((s.world w).caps.map (·.id)) →
    exec (.capCreate c) s = .next (begunCmd (judged s c) c 0xA w (okWith id, { (judged s c).setWorld w { s.world w with
      caps := (s.world w).caps ++ [⟨id, base.toNat, len, fld c3 0 12, BitVec.ofNat 4 (fld c3 16 4), c4.toNat⟩] } with
      freeCtr := s.freeCtr + 1 }))) ∧
  (∀ (n : Nat) (used : List Nat), used.length < 65536 → freeCapid n used ∉ used) ∧
  ∀ (s : State) (c : Cmd) (w id : Nat) (x : Cap), Admitted s c 0x0B → w = s.fnWorld c.fn → id = opnd s c 1 → id < 2 ^ 16 →
    x ∈ (s.world w).caps → x.id = id →
    ∃ t : State, exec (.capDestroy c) s = .next (begunCmd (judged s c) c 0xB w (okWith 0, t)) ∧ (t.world w).caps = (s.world w).caps.filter (fun y => decide (y.id ≠ id)) ∧
      (∀ k, (s.core k).world = w → id ∉ (t.core k).capCache) ∧ t.mem = s.mem

/-- R32, R39, R42, R43, R56, R293, R295, R325: worlds come and go, leases are renewed, and the HBM is saved and restored. -/
def Sys2Proof.Claims.CommandsOfWorlds : Prop :=
  (∀ (s : State) (c : Cmd) (w n : Nat) (cs : List Nat) (l : List Extent), Admitted s c 0x02 → w = opnd s c 1 → n = opnd s c 4 → 2 ≤ w → w ≤ 15 →
    (s.world w).live = false → n ≠ 0 → n ≤ 64 → opnd s c 5 ≠ 0 → opnd s c 5 ≤ 255 → opnd s c 6 % 65536 ≤ 1 → c.hostErr = none →
    hostRange (opnd s c 2) 64 = true → hostRange (opnd s c 3) (32 * n) = true → cs = maskCores ((judged s c).hostRead (opnd s c 2) 64) →
    extentsOf ((judged s c).hostRead (opnd s c 3) (32 * n)) n = some l → (judged s c).extentsOk w l = true →
    ringOk l (opnd s c 6 / 65536 * 65536) = true → (∀ k ∈ cs, (s.core k).world = 0) → (∀ k ∈ cs, k < 512) →
    ∃ t : State, exec (.worldCreate c) s = .next (begunCmd (judged s c) c 2 0 (if cs = [] then okWith 0 else .zeroing cs, t)) ∧ (t.world w).live = true ∧ (t.world w).extents = l ∧
      (t.world w).weight = opnd s c 5 ∧ (t.world w).debugOk = decide (opnd s c 6 % 2 = 1) ∧
      (t.world w).memExpiry = s.meridian + 900000000 ∧ (∀ k ∈ cs, (t.core k).world = w ∧ (t.core k).zeroing = true) ∧
      (∀ k, k ∉ cs → t.core k = s.core k) ∧ ∀ k ∈ cs, ∀ off, off < 2 ^ 18 → t.byte (spadLoc k off) = 0) ∧
  (∀ (s : State) (k : Nat), (s.core k).zeroing = true → ∃ t, exec (.zeroingComplete k) s = .next t ∧ (t.core k).zeroing = false) ∧
  (∀ (s : State) (c : Cmd) (w f : Nat), Admitted s c 0x03 → w = opnd s c 1 → f = opnd s c 2 → 2 ≤ w → w ≤ 15 → f ≠ 0 → f ≤ 14 → f ≠ c.fn →
    (s.world w).live = true → (s.world w).tdi = 0 → s.dying w = false → (s.fn f).tdisp = .unlocked → (s.fn f).world = 0 →
    ∃ t : State, exec (.worldAssign c) s = .next (begunCmd (judged s c) c 3 0 (okWith 0, t)) ∧ (t.world w).tdi = f ∧ (t.fn f).world = w ∧ t.mem = s.mem ∧ t.cores = s.cores) ∧
  (∀ (s : State) (c : Cmd) (w : Nat), Admitted s c 0x04 → w = opnd s c 1 → w = (s.cmdWord c.fn 1).toNat → 2 ≤ w → w ≤ 15 →
    c.fn = 0 ∨ (s.fn c.fn).world = w → (s.world w).live = true → (judged s c).dying w = false →
    ∃ t : State, exec (.worldDestroy c) s = .next (begunCmd (judged s c) c 4 w (if s.coresOf w = [] then .done 0x02 0 else .zeroing (s.coresOf w), t)) ∧
      (s.coresOf w = [] → (t.world w).live = false) ∧ (∀ x ∈ t.waitTable, x.world ≠ w) ∧ (∀ x ∈ t.engCmds, x.world ≠ w) ∧
      ∀ k ∈ s.coresOf w, ∀ n, (t.core k).zeroing = true ∧ t.slot k n = Slot.init) ∧
  (∀ (s : State) (c : Cmd) (r : Report) (w : Nat), w = (s.fn c.fn).world →
    (RenewOk s c r 0 → (judged s c).keyDead w = false → exec (.leaseRenewWorldMemory c r) s = .next (begunCmd (judged s c) c 0xC (s.fnWorld c.fn) (okWith (max (s.world w).memExpiry (s.meridian + 900000000) / 1024 % 2 ^ 32),
        ((judged s c).modFn c.fn (·.consume r.nonce)).modWorld w fun x =>
          { x with memExpiry := max (s.world w).memExpiry (s.meridian + 900000000) }))) ∧
    (RenewOk s c r 2 → exec (.leaseRenewContextSave c r) s = .next (begunCmd (judged s c) c 0xC (s.fnWorld c.fn) (okWith (max (s.world w).ctxExpiry (s.meridian + 900000000) / 1024 % 2 ^ 32),
        ((judged s c).modFn c.fn (·.consume r.nonce)).modWorld w fun x =>
          { x with ctxExpiry := max (s.world w).ctxExpiry (s.meridian + 900000000) }))) ∧
    (RenewOk s c r 1 → (∃ k ∈ (s.fn c.fn).keySets, k.alive s.meridian = true) →
      ∃ (e : Nat) (t : State), exec (.leaseRenewIdeStream c r) s = .next (begunCmd (judged s c) c 0xC (s.fnWorld c.fn) (okWith (e / 1024 % 2 ^ 32), t)) ∧
        (∀ i out, i ≤ 1 → (t.fn c.fn).keySet i out = if ((s.fn c.fn).keySet i out).alive s.meridian
          then { (s.fn c.fn).keySet i out with expiry := max ((s.fn c.fn).keySet i out).expiry (s.meridian + 900000000) }
          else (s.fn c.fn).keySet i out) ∧
        (∃ k ∈ (t.fn c.fn).keySets, k.alive s.meridian = true ∧ k.expiry = e) ∧
        ∀ k ∈ (t.fn c.fn).keySets, k.alive s.meridian = true → k.expiry ≤ e)) ∧
  (∀ (s : State) (c : Cmd), Admitted s c 0x0E → s.cmdWord c.fn 3 = 0 → ckptOperandsOk (judged s c) c.fn = true → s.tenantsIdle = true →
    ckptLen (extentBytes s.hbmExtents) ≤ opnd s c 2 →
    ∃ t u : State, t = (judged s c).withCkptKey ∧ u = { t with ckptSerial := t.ckptSerial + 1 } ∧
      exec (.checkpointSave c) s = .next (begunCmd (judged s c) c 0xE 0 (okWith (extentBytes s.hbmExtents / 2 ^ 20),
        u.hostWrite (opnd s c 1) (u.ckptImage u.ckptKey u.ckptSerial)))) ∧
  ∀ (s : State) (c : Cmd) (serial : Nat) (h image : List Byte) (recs : List (List Byte)), Admitted s c 0x0E → s.cmdWord c.fn 3 = 1 →
    ckptOperandsOk (judged s c) c.fn = true → s.tenantsIdle = true → c.hostErr = none → (judged s c).ckptAlive = true →
    image = (judged s c).hostRead (opnd s c 1) (opnd s c 2) → (judged s c).ckptHead (image.take 12304) = some (serial, h) →
    opnd s c 2 = ckptLen (extentBytes (ckptEntries h)) →
    ((List.range (ckptBlocks (ckptEntries h)).length).mapM fun i =>
      ckptOpen s.ckptKey serial i ((image.drop (12304 + 4624 * i)).take 4624)) = some recs →
    exec (.checkpointRestore c) s = .next (begunCmd (judged s c) c 0xE 0 (okWith (extentBytes (ckptEntries h) / 2 ^ 20),
      ((ckptBlocks (ckptEntries h)).zip recs).foldl (fun t x => t.restoreRecord x.1.1 x.1.2 x.2) (judged s c)))

/-- R27, R34, R36, R37, R44, R118: the host's windows. A write to the command block is kept, byte by byte, and read back; the status word
stands behind it and every other offset reads 0. A write under a key set that is not accepted is discarded and sends the TDI to ERROR; a packet enters its world's launch queue, and a misshapen or
malformed one is counted; the wake window wakes the oldest waiters; a way mask is written by an 8-byte word alone. -/
def Obligations.HostWindows : Prop :=
  (∀ (s : State) (f : Nat) (t : Tlp), s.booted = true → f ≤ 14 → s.deciphers f t.key = true → ¬(t.off = 0 ∧ 8 ≤ t.bytes.length) →
    (t.off < 64 → t.off + t.bytes.length ≤ 0x1000 → exec (.registerWrite f t) s =
      .next (s.modFn f fun x => { x with block := blockWrite x.block t.off t.bytes })) ∧
    (64 ≤ t.off → t.off + t.bytes.length ≤ 0x1000 ∨ (0x3000 ≤ t.off ∧ t.off + t.bytes.length ≤ 65536) →
      exec (.registerWrite f t) s = .next s)) ∧
  (∀ (b : Vector W64 8) (off : Nat) (bs : List Byte) (f : Func) (i : Nat), i < 64 →
    ({ f with block := blockWrite b off bs } : Func).bar0 i =
      (if off ≤ i ∧ i < off + bs.length then bs.getD (i - off) 0 else ({ f with block := b } : Func).bar0 i)) ∧
  (∀ (f : Func) (i j : Nat), j < 8 → (i < 8 → f.bar0 (8 * i + j) = BitVec.ofNat 8 ((vat 0 f.block i).toNat / 2 ^ (8 * j))) ∧
    f.bar0 (64 + j) = BitVec.ofNat 8 ((f.result.toNat * 2 ^ 32 + f.tag.toNat * 2 ^ 16 + boolNat f.lost * 2 ^ 8 + f.code.toNat) / 2 ^ (8 * j)) ∧
    ∀ off, 72 ≤ off → f.bar0 off = 0) ∧
  (∀ (s : State) (f : Nat) (t : Tlp), s.deciphers f t.key = false →
    exec (.registerWrite f t) s = .next (s.tdiError f Cause.tdiStop) ∧ exec (.packetWindowWrite f t) s = .next (s.tdiError f Cause.tdiStop) ∧
    exec (.wakeWindowWrite f t) s = .next (s.tdiError f Cause.tdiStop) ∧
    exec (.lostCommandWrite f t) s = .next (s.tdiError f Cause.tdiStop)) ∧
  (∀ (s : State) (f : Nat) (t : Tlp), s.booted = true → f ≤ 14 → s.deciphers f t.key = true → t.off < 4096 →
    (∀ u, t.bytes.length = 64 → t.off % 64 = 0 → s.fnWorld f ≠ 0 → s.offer (s.fnWorld f) t.bytes = .accepted u →
      exec (.packetWindowWrite f t) s = .next u) ∧
    (t.bytes.length ≠ 64 ∨ t.off % 64 ≠ 0 ∨ s.fnWorld f = 0 → exec (.packetWindowWrite f t) s =
      .next (s.modFn f fun x => { x with rejected := x.rejected + 1 })) ∧
    (t.bytes.length = 64 → t.off % 64 = 0 → s.fnWorld f ≠ 0 → s.offer (s.fnWorld f) t.bytes = .full →
      exec (.packetWindowWrite f t) s = .next (s.modFn f fun x => { x with dropped := x.dropped + 1 }))) ∧
  (∀ (s : State) (w : Nat) (bs : List Byte) (words : Vector W64 8), words = s.acceptWords w (packetWords bs) →
    (malformed words ≠ none → s.offer w bs = .malformed) ∧
    ∀ (c : Nat) (cs : List Nat) (early : List Segment) (ps : List Packet), malformed words = none → s.coresOf w = c :: cs →
      (s.world w).ringLen = 0 → packetCount (s.world w).launch < 64 →
      ((s.world w).launch = early ++ [⟨ps, none⟩] → ps.length < 16 → s.offer w bs = .accepted ((s.modWorld w fun x =>
        { x with launch := early ++ [⟨ps ++ [⟨words, s.cycle, false⟩], none⟩] }).takeRef (fld words[1] 0 16))) ∧
      ((s.world w).launch = [] → s.sramSegments (clusterOf c) < Config.queueSramSegments → s.offer w bs = .accepted ((s.modWorld w fun x =>
        { x with launch := [⟨[⟨words, s.cycle, false⟩], none⟩] }).takeRef (fld words[1] 0 16)))) ∧
  (∀ (s : State) (f n : Nat) (t : Tlp), s.booted = true → f ≤ 14 → s.deciphers f t.key = true → t.off < 4096 → t.bytes.length = 16 →
    t.off % 16 = 0 → leToNat (t.bytes.take 8) % 8 = 0 → leToNat (t.bytes.drop 12) = 0 → s.fnWorld f ≠ 0 → n = leToNat ((t.bytes.drop 8).take 4) →
    exec (.wakeWindowWrite f t) s =
      .next (s.wakeOn (s.fnWorld f) (leToNat (t.bytes.take 8)) (if n = 0xFFFFFFFF then s.waitTable.length else n))) ∧
  (∀ (s : State) (off size : Nat), s.fwAllows 1 1 .read = true → off < 2 ^ 18 →
    (size = 8 → off % 8 = 0 → off < 0x2000 → s.resourceRead off size = some ((Sparse.get 0xFFFF s.wayMasks (off / 8)).setWidth 64)) ∧
    (size = 8 → off % 8 = 0 → 0x30000 ≤ off → s.resourceRead off size = some 0) ∧
    (size ≠ 8 ∨ off % 8 ≠ 0 → s.resourceRead off size = none)) ∧
  ∀ (s : State) (off size : Nat) (v : W64), s.booted = true → off < 2 ^ 18 →
    (size = 8 → off % 8 = 0 → s.fwAllows 1 1 .write = true → off < 0x2000 → exec (.wayMaskWrite off size v) s =
      .next { s.modFn 0 fun f => { f with lastUR := false } with wayMasks := Sparse.set 0xFFFF s.wayMasks (off / 8) (v.setWidth 16) }) ∧
    (size ≠ 8 ∨ off % 8 ≠ 0 → exec (.wayMaskWrite off size v) s = .next (s.modFn 0 fun f => { f with lastUR := true }))

/-- R25, R43, R48 to R52, R55: the mailboxes. Plain requests are answered once boot has run; an object over 128 KiB sets the error bit;
CHALLENGE and KEY_EXCHANGE are answered in boot state GOOD alone; certificates come from slots 0 and 1; a report carries a nonce that is
recorded with its session and measurements, and the attestation key's signature; four sessions at most; IDE keys are programmed, for each
direction, and set going over a secured session. The codes of the answers are those of the standards (log 27). -/
def Sys2Proof.Claims.Mailboxes : Prop :=
  (∀ (s : State) (f : Nat), s.booted = true → f ≤ 14 →
    (∀ n, n ≤ 131072 → exec (.doeDiscovery f n) s = .next (s.modFn f fun x => { x with doe := .ok 0 [0, 1, 2] })) ∧
    (∀ n, 131072 < n → exec (.doeDiscovery f n) s = .next (s.modFn f fun x => { x with doeError := true })) ∧
    exec (.getVersion f) s = .next (s.modFn f fun x => { x with doe := .ok 0x04 [0x13] }) ∧
    exec (.getCapabilities f) s = .next (s.modFn f fun x => { x with doe := .ok 0x61 [30] }) ∧
    (∀ offered l, offered ≠ [] → l = [.slhDsaShake256f, .shake256, .measurementShake256, .mlKem1024, .aes256Gcm].filter offered.contains →
      exec (.negotiateAlgorithms f offered) s = .next (s.modFn f fun x => { x with doe := .algorithms l })) ∧
    exec (.negotiateAlgorithms f []) s = .next (s.modFn f fun x => { x with doe := .unsupported }) ∧
    (∀ l, l = [0, (Config.shake256 (s.certChain 0).flatten).toNat, 1, (Config.shake256 (s.certChain 1).flatten).toNat] →
      exec (.getDigests f) s = .next (s.modFn f fun x => { x with doe := .ok 0x01 l })) ∧
    (∀ n, n ≤ 1 → exec (.getCertificate f n) s =
      .next (s.modFn f fun x => { x with doe := .ok 0x02 (n :: (s.certChain n).flatten.map (·.toNat)) })) ∧
    (∀ n, 1 < n → exec (.getCertificate f n) s = .next (s.modFn f fun x => { x with doe := .error })) ∧
    (∀ n, s.bootState ≠ 0 → exec (.challenge f n) s = .next (s.modFn f fun x => { x with doe := .unsupported })) ∧
    (s.bootState ≠ 0 → exec (.keyExchange f) s = .next (s.modFn f fun x => { x with doe := .unsupported })) ∧
    (∀ n, n ≤ 1 → s.bootState = 0 → ∃ v, exec (.challenge f n) s = .next ((s.issueNonce f none []).2.modFn f fun x =>
      { x with doe := .ok 0x03 (n :: v :: numbers (Config.sign256f s.attKey (3 :: natToLe 1 n ++ natToLe 32 v))) }) ∧
      ((s.issueNonce f none []).2.fn f).nonces.getLast? = some ⟨v, s.meridian, false, none, []⟩) ∧
    (∀ n i u x, x = (if (s.fn f).established n = true then some n else none) → u = (s.issueNonce f x (s.blocks f i)).2 →
      ∃ v l, l = v :: (s.blocks f i).length :: (s.blocks f i).flatMap (fun b => [b.1, measurementType b.1, b.2]) ++
        numbers (Config.sign256f s.attKey (0x60 :: reportBytes v (s.blocks f i))) ∧
      exec (.getMeasurements f n i) s = .next ((u.modFn f (·.heard n s.meridian)).modFn f fun x => { x with doe := .ok 0x60 l }) ∧
      (u.fn f).nonces.getLast? = some ⟨v, s.meridian, false, x, s.blocks f i⟩) ∧
    (∀ i, s.bootState = 0 → i < 4 → (∀ x ∈ (s.fn f).sessions, x.id ≠ i) → (∀ j, j < i → ∃ x ∈ (s.fn f).sessions, x.id = j) →
      exec (.keyExchange f) s = .next ((s.modFn f fun x => { x with sessions := x.sessions ++ [⟨i, false, s.meridian⟩] }).modFn f fun x =>
        { x with doe := .ok 0x64 [i] })) ∧
    (s.bootState = 0 → (∀ j, j < 4 → ∃ x ∈ (s.fn f).sessions, x.id = j) →
      exec (.keyExchange f) s = .next (s.modFn f fun x => { x with doe := .sessionLimit })) ∧
    (∀ n t, (s.fn f).session n = some ⟨n, false, t⟩ → exec (.finish f n) s = .next ((s.modFn f fun x => { x with
      sessions := x.sessions.map fun y => if y.id = n then { y with established := true, lastAt := s.meridian } else y }).modFn f fun x =>
        { x with doe := .ok 0x65 [n] })) ∧
    ∀ n, (s.fn f).established n = true →
      exec (.heartbeat f n) s = .next ((s.modFn f (·.heard n s.meridian)).modFn f fun x => { x with doe := .ok 0x68 [n] }) ∧
      exec (.keyUpdate f n) s = .next ((s.modFn f (·.heard n s.meridian)).modFn f fun x => { x with doe := .ok 0x69 [n] }) ∧
      exec (.endSession f n) s = .next ((s.dropSession f n).modFn f fun x => { x with doe := .ok 0x6C [n] }) ∧
      exec (.sessionAeadFailure f n) s = .next (s.dropSession f n)) ∧
  (∀ (s : State) (f n : Nat) (x : Session), (s.fn f).session n = some x → x.lastAt + 60000000 ≤ s.meridian →
    exec (.sessionTimeout f n) s = .next (s.dropSession f n)) ∧
  (∀ (s : State) (f n : Nat), ((s.dropSession f n).fn f).session n = none ∨ (s.fn f).bound = some n) ∧
  (∀ (s : State) (f n i : Nat) (out : Bool), s.booted = true → f ≤ 14 → i ≤ 1 → (s.fn f).established n = true →
    ((s.fn f).bound = none ∨ (s.fn f).bound = some n) →
    (((s.fn f).keySet i out).alive s.meridian = false → ∃ t, exec (.keyProg f n i out) s = .next t ∧
      ((t.fn f).keySet i out) = ⟨s.keySerial, false, 0, none⟩ ∧ (t.fn f).keySet (1 - i) out = (s.fn f).keySet (1 - i) out ∧
      ∀ j, j ≤ 1 → (t.fn f).keySet j (!out) = (s.fn f).keySet j (!out)) ∧
    (((s.fn f).keySet i out).key ≠ 0 → ((s.fn f).keySet i out).live = false → ∃ t, exec (.keySetGo f n i out) s = .next t ∧
      ((t.fn f).keySet i out).live = true ∧ ((t.fn f).keySet i out).expiry = s.meridian + 900000000 ∧
      (((s.fn f).keySet (1 - i) out).alive s.meridian = false → (t.fn f).selected = i) ∧
      (((s.fn f).keySet (1 - i) out).alive s.meridian = true → (t.fn f).selected = (s.fn f).selected))) ∧
  (∀ (s : State) (f n i : Nat) (out : Bool), s.booted = true → f ≤ 14 → i ≤ 1 →
    (s.fn f).established n = false ∨ ((s.fn f).bound ≠ none ∧ (s.fn f).bound ≠ some n) →
    exec (.keyProg f n i out) s = .next (s.modFn f fun x => { x with doe := .error }) ∧
    exec (.keySetGo f n i out) s = .next (s.modFn f fun x => { x with doe := .error })) ∧
  (∀ (s : State) (f i : Nat), f ≤ 14 → i ≤ 1 → (s.fn f).selected ≠ i → ((s.fn f).keySet i false).alive s.meridian = true →
    ∃ t, exec (.ideKeySetSwitch f i) s = .next t ∧ (t.fn f).selected = i ∧
      ∀ out, ((t.fn f).keySet (1 - i) out).retiringAt = some s.meridian) ∧
  ∀ (s : State) (f i t : Nat), i ≤ 1 → ((s.fn f).keySet i false).retiringAt = some t → t + 10000 ≤ s.meridian →
    (∀ p, (s.fn f).pending = some p → p.keySet ≠ i) →
    exec (.ideKeySetRetire f i) s =
      .next (s.setFn f (((s.fn f).setKeySet i false KeySet.init).setKeySet i true KeySet.init))

/-- R34, R40, R42, R44, R52, R285: TDISP, over an established session, and the expiries. LOCK needs a world that has not stopped and programmed
keys; START runs; STOP, a locked configuration's write, an integrity failure, the end of the bound session and the expiry of the memory key stop
the world. -/
def Sys2Proof.Claims.Interfaces : Prop :=
  (∀ (s : State) (f n : Nat), s.booted = true → f ≤ 14 → f ≠ 0 → (s.fn f).established n = true →
    ((s.fn f).tdisp = .unlocked → (s.fn f).world ≠ 0 → (s.world (s.fn f).world).stopped = false →
      (∃ k ∈ (s.fn f).keySets, k.key ≠ 0) → ∃ t, exec (.lockInterfaceRequest f n) s = .next t ∧ (t.fn f).tdisp = .locked ∧
        (t.fn f).bound = some n ∧ t.mem = s.mem ∧ t.worlds = s.worlds) ∧
    ((s.fn f).tdisp ≠ .unlocked → ∃ t, exec (.lockInterfaceRequest f n) s = .next t ∧ (t.fn f).tdisp = (s.fn f).tdisp ∧
      (t.fn f).doe = .invalidInterface) ∧
    ((s.fn f).tdisp = .locked → ∃ t, exec (.startInterfaceRequest f n) s = .next t ∧ (t.fn f).tdisp = .run ∧ t.worlds = s.worlds) ∧
    ((s.fn f).tdisp ≠ .locked → exec (.startInterfaceRequest f n) s =
      .next ((s.modFn f (·.heard n s.meridian)).modFn f fun x => { x with doe := .invalidInterface })) ∧
    ((s.fn f).tdisp = .run ∨ (s.fn f).tdisp = .error → ∃ t, exec (.stopInterfaceRequest f n) s = .next t ∧ (t.fn f).tdisp = .unlocked ∧
      (t.fn f).world = (s.fn f).world ∧ ((s.fn f).world ≠ 0 → (t.world (s.fn f).world).stopped = true))) ∧
  (∀ (s : State) (f n : Nat), s.booted = true → f ≤ 14 → f ≠ 0 → (s.fn f).established n = false →
    exec (.lockInterfaceRequest f n) s = .next (s.modFn f fun x => { x with doe := .error }) ∧
    exec (.startInterfaceRequest f n) s = .next (s.modFn f fun x => { x with doe := .error }) ∧
    exec (.stopInterfaceRequest f n) s = .next (s.modFn f fun x => { x with doe := .error })) ∧
  (∀ (s : State) (f : Nat), f ≠ 0 → (s.fn f).tdisp = .run ∨ (s.fn f).tdisp = .locked →
    ∃ t, exec (.lockedConfigWrite f) s = .next t ∧ exec (.ideIntegrityFailure f) s = .next t ∧ (t.fn f).tdisp = .error ∧
      ((s.fn f).world ≠ 0 → (t.world (s.fn f).world).stopped = true)) ∧
  (∀ (s : State) (w : Nat), (s.world w).live = true → (s.world w).memDead = false → (s.world w).memExpiry ≠ 0 →
    (s.world w).memExpiry ≤ s.meridian → (s.world w).stopped = false →
    ∃ t, exec (.worldKeyLeaseExpiry w) s = .next t ∧ (t.world w).memDead = true ∧ (t.world w).stopped = true ∧ t.mem = s.mem ∧
      ∀ c n, (s.core c).world = w → (t.slot c n).st = .free ∨ ((t.slot c n).st = .frozen ∧ (t.slot c n).cause = 0x11)) ∧
  (∀ (s : State) (f i : Nat) (out : Bool), i ≤ 1 → ((s.fn f).keySet i out).live = true → ((s.fn f).keySet i out).expiry ≤ s.meridian →
    exec (.ideKeySetExpiry f i out) s =
      .next (s.setFn f ((s.fn f).setKeySet i out { (s.fn f).keySet i out with live := false }))) ∧
  (∀ (s : State) (w : Nat), (s.world w).live = true → (s.world w).ctxExpiry ≤ s.meridian →
    exec (.contextSaveKeyExpiry w) s = .next s ∧ s.ctxKeyDead w = true) ∧
  ∀ s : State, s.ckptKey ≠ 0 → s.ckptExpiry ≤ s.meridian →
    exec .checkpointKeyExpiry s = .next { s with ckptKey := 0, ckptExpiry := 0 }

/-- R25, R41, R46, R47, R49, R53, R308 to R313: boot, the enabling of clusters, gating, throttling, telemetry, the power cap, CXL.mem, and the
loss of power. -/
def Obligations.PowerAndTelemetry : Prop :=
  (∀ (s : State) (v : BootVerdict), s.booted = false →
    ∃ t, exec (.powerOn v) s = .next t ∧ t.power = true ∧ t.booted = true ∧
      t.attKey = Config.attestationKey (dieIdentity 0) Config.firmwareDigest ∧
      (v.firmwareOk = false → t.bootState = 2 ∧ t.worlds = s.worlds) ∧
      (v.firmwareOk = true → v.ioDieOk = false ∨ v.die0Ok = false ∨ v.die1Ok = false → t.bootState = 1 ∧ t.worlds = s.worlds) ∧
      (v.firmwareOk = true → v.ioDieOk = true → v.die0Ok = true → v.die1Ok = true →
        t.bootState = 0 ∧ t.firewallLock = true ∧ (t.world 0).live = true ∧ (t.world 1).live = true ∧
        (t.world 0).memKey ≠ (t.world 1).memKey ∧
        ∀ r o k, r < 16 → o < 16 → t.fwAllows r o k = decide (r = 0 ∨ r = o))) ∧
  (∀ s : State, s.power = true → ∃ t, exec .powerLoss s = .next t ∧ t.power = false ∧ t.booted = false ∧ t.meridian = 0 ∧
    t.worlds = [] ∧ t.cores = [] ∧ t.lineKeys = [] ∧ (∀ l, isHost l = true → t.byte l = s.byte l) ∧
    (∀ l, isHost l = false → t.byte l = 0) ∧ ∀ d tj, d ≤ 1 → 920 ≤ tj → exec (.overTemperature d tj) s = .next t) ∧
  (∀ (s : State) (c : Nat), s.booted = true → s.bootState = 0 → s.nextCluster = some c →
    (c = 0 ∨ (s.core (8 * c - 8)).enabledAt + 2850 ≤ s.cycle) → ∃ t, exec .clusterEnable s = .next t ∧ t.mem = s.mem ∧
      (∀ i, i < 8 → (t.core (8 * c + i)).enabled = true ∧
        (t.core (8 * c + i)).enabledAt = if c = 0 then s.cycle else (s.core (8 * c - 8)).enabledAt + 2850) ∧
      ∀ k, k < 8 * c ∨ 8 * c + 8 ≤ k → t.core k = s.core k) ∧
  (∀ (s : State) (c : Nat), (s.core c).enabled = true → (s.core c).gated = false → (∀ a ∈ (s.core c).accs.toList, a.claimed = false) →
    (s.core c).lastRow + 2 ^ 20 ≤ s.cycle → (s.core c).enabledAt + 2 ^ 20 ≤ s.cycle →
    exec (.arrayGating c) s = .next (s.modCore c fun k => { k with gated := true })) ∧
  (∀ (s : State) (d tj p : Nat), d ≤ 1 → tj < 920 → ∃ t, exec (.throttleLevelChange d tj p) s = .next t ∧ t.powerNow = p ∧ (t.die d).tj = tj ∧
    (840 ≤ tj → (s.die d).level ≤ 3 → (t.die d).level = 3) ∧
    (800 ≤ tj → tj < 840 → (s.die d).level ≤ 2 → (t.die d).level = 2) ∧
    (tj ≤ 719 → p * 100 < s.powerCap * 98 → (t.die d).level = 0) ∧
    (tj < 760 → p * 100 < s.powerCap * 98 → (s.die d).level = 0 → (t.die d).level = 0)) ∧
  (∀ (s : State) (d : Nat), d ≤ 1 → s.rejudge = { s with dies := s.rejudge.dies } ∧ (s.rejudge.die d).tj = (s.die d).tj ∧
    (s.powerCap ≤ s.powerNow → 2 ≤ (s.rejudge.die d).level) ∧ (840 ≤ (s.die d).tj → 3 ≤ (s.rejudge.die d).level) ∧
    ((s.die d).tj ≤ 719 → s.powerNow * 100 < s.powerCap * 98 → (s.rejudge.die d).level = 0)) ∧
  (∀ s : State, s.booted = true →
    exec .getTelemetry s = .next { s with mctp :=
      [(s.die 0).tj, (s.die 1).tj, s.powerNow, (s.die 0).level, (s.die 1).level, s.bootState.toNat, s.meridian] } ∧
    (∀ w, 1200 ≤ w → w ≤ 2200 → exec (.setPowerCap w) s = .next ({ s with powerCap := w, mctp := [w] } : State).rejudge) ∧
    (∀ w, w < 1200 ∨ 2200 < w → exec (.setPowerCap w) s = .next ({ s with mctp := [s.powerCap] } : State).rejudge) ∧
    ∀ d n src, d ≤ 1 → n ≤ 15 → ∃ t v, exec (.uncore d n src) s = .next t ∧ t.mctp = [v % 2 ^ 48, v / 2 ^ 48 % 2] ∧
      (Sparse.get Uncore.init t.uncore (d * 16 + n)).source = src.getD (Sparse.get Uncore.init s.uncore (d * 16 + n)).source) ∧
  ∀ (s : State) (q : MemRequest), s.booted = true →
    ((∀ e ∈ (s.world 1).extents, ¬(e.kind = 0 ∧ e.dpa ≤ q.addr ∧ q.addr < e.dpa + e.len)) ∨ q.addr % 64 ≠ 0 →
      exec (.cxlMemRequest q) s = .next { s.modFn 0 fun f => { f with lastUR := true } with cxlReply := none }) ∧
    ((∃ e ∈ (s.world 1).extents, e.kind = 0 ∧ e.dpa ≤ q.addr ∧ q.addr < e.dpa + e.len) → q.addr % 64 = 0 → s.fwAllows 1 1 .write = true →
      q.write = true → q.data.length = 64 → s.keyDead 1 = false → ∃ t, exec (.cxlMemRequest q) s = .next t ∧ t.cxlReply = some [] ∧
        (∀ i, i < 64 → t.byte (q.addr + i) = q.data.getD i 0) ∧ ∀ l, (l < q.addr ∨ q.addr + 64 ≤ l) → t.byte l = s.byte l) ∧
    ((∃ e ∈ (s.world 1).extents, e.kind = 0 ∧ e.dpa ≤ q.addr ∧ q.addr < e.dpa + e.len) → q.addr % 64 = 0 → s.fwAllows 1 1 .read = true →
      q.write = false → (s.world 1).memKey ≠ 0 → Sparse.get 0 s.lineKeys (q.addr / 64) = (s.world 1).memKey →
      q.addr / 64 ∉ s.eccBad → ∃ t, exec (.cxlMemRequest q) s = .next t ∧ t.cxlReply = some (s.bytes q.addr 64) ∧ t.mem = s.mem)

/-! ## Encodings, steps, reset, invariants, frames -/

namespace Sys2Proof.Claims

/-- Words fetched one after another from the n-th on of an instruction at an address (R80, R81). -/
inductive Fetched (pc : W64) : Nat → List H16 → State → State → Prop
  | nil (n : Nat) (s : State) : Fetched pc n [] s s
  | cons {n : Nat} {w : H16} {ws : List H16} {s u t : State} : fetch16 (pc + w64 (2 * n)) s = .ok w.toNat u →
      Fetched pc (n + 1) ws u t → Fetched pc n (w :: ws) s t

/-- What the prefix words at the front of an instruction say (R70 to R74, R80). -/
def prefixes (p : Pfx) (n : Nat) : List H16 → Option Pfx
  | [] => some p
  | h :: rest =>
    match p.feed n h.toNat with
    | .more q => prefixes q (n + 1) rest
    | _ => none

/-- The instructions of R220 to R224 and RSVW, with their base words for registers 0. -/
def atomics : List ((Reg → Reg → Mod → Instr) × Nat) :=
  [(.aadd, 0x0), (.aand, 0x1), (.aor, 0x2), (.axor, 0x3), (.amin, 0x4), (.amax, 0x5), (.aminu, 0x6), (.amaxu, 0x7), (.aswap, 0x8),
    (.afadd, 0xA), (.rsv, 0x1000), (.rls, 0x1001), (.rsvw, 0x1004)]

/-- The MOD values that R225 admits. -/
def anyOrder (m : Mod) : Bool := decide (m.scope.toNat ≤ 5) && (decide (m.order ≠ 0) || decide (m.scope = 0)) && decide (m.spec = 0)

/-- A MOD word (R74). -/
def modWord (m : Mod) : H16 := BitVec.ofNat 16 (0xFC00 + m.scope.toNat * 128 + m.order.toNat * 32 + m.spec.toNat)

/-- The state in which a slot's thread fetches: one cycle has passed, its act is taken from the schedule. -/
def fetching (s : State) (rest : List Act) (c n : Nat) (rows : Option Nat) : State :=
  { s.elapse 1 with schedule := rest, cur := ⟨c, n, 2, rows⟩ }

/-- The instructions that write one scalar register and nothing else (R93 to R96), made of an immediate, d, a and REX xreg, of which each
takes what it has. -/
def registerOnly : List (W64 → Reg → Reg → Option Reg → Instr) :=
  twoSource.map (fun q _ d a x => q.1 d a x) ++ oneSource.map (fun q _ d a _ => q.1 d a) ++ unsignedPick.map (fun q _ d a _ => q.1 d a) ++
  immShifts.map (fun q v d _ _ => q.1 d (v.setWidth 6)) ++
  [fun _ d a _ => .selp d a, fun _ d _ _ => .ptos d, fun v d _ _ => .addi d v, fun v d _ _ => .li d v, fun v d _ _ => .lih d (v.setWidth 32)]

/-- Of the machine only memory with the keys of its lines, the caches of the hierarchy and the cores have changed, and of each core only
slots, translations, capability and line caches, event counters and the store buffer. -/
def CachesOnly (s t : State) : Prop :=
  t = { s with
    mem := t.mem, lineKeys := t.lineKeys, freeCtr := t.freeCtr, l2 := t.l2, msc := t.msc, dieTlb := t.dieTlb, clusterTlb := t.clusterTlb
    ruleCaches := t.ruleCaches, cores := t.cores } ∧
  ∀ c, t.core c = { s.core c with
    slots := (t.core c).slots, tlb := (t.core c).tlb, capCache := (t.core c).capCache, l1 := (t.core c).l1, fills := (t.core c).fills
    evcnt := (t.core c).evcnt, sb := (t.core c).sb }

end Sys2Proof.Claims

/-- The encodings that chapters 05, 06, 08, 11 to 13, 15, 17 and 20 work out, one or two of each page, and words that chapter 05 refuses: two
MODs, a REX on TADD, an immediate on ADD, a bit above a predicate's number, page 7. -/
def Obligations.DecodesSpecWords : Prop :=
  decode [0x2305] = some (.addi 3 5, 1) ∧ decode [0xF003, 0x35E8] = some (.li 5 1000, 2) ∧
  decode [0xF748, 0x0140] = some (.add 17 4 (some 20), 2) ∧ decode [0xFD20, 0xB622] = some (.ldd 6 2 2 ⟨1, 2, 0⟩, 2) ∧
  decode [0x1C90] = some (.mov 12 9, 1) ∧ decode [0x86FA] = some (.bp 3 false (-6), 1) ∧
  decode [0xF804, 0xFCC0, 0x7592] = some (.ste 5 9 ⟨2, 1, 0⟩, 3) ∧ decode [0xF808, 0xFC07, 0x2587] = some (.tcvt 2 6 7, 3) ∧
  decode [0xF80C, 0xFC05, 0x0063] = some (.mmaa 0 1 2 5, 3) ∧ decode [0xF810, 0xF660, 0x0599] = some (.acas 5 9 6 Mod.none, 3) ∧
  decode [0xF814, 0xF408, 0x2141] = some (.adopt 17 4, 3) ∧ decode [0xF818, 0x268C] = some (.kvmult 3 4 6 Mod.none, 2) ∧
  decode [0xFD20, 0xFD20, 0xB622] = none ∧ decode [0xF808, 0xF748, 0x0298] = none ∧ decode [0xF003, 0x0140] = none ∧
  decode [0x190C] = none ∧ decode [0xF81C, 0x0298] = none

/-- R68 to R80, R88: the encoder's words of every well-formed instruction that the limit of R70 on prefix words admits decode to it, with every
operand, whatever stands behind them; and what the decoder gives is such an instruction. -/
def Obligations.EncodeDecodeAgree : Prop :=
  (∀ (i : Instr) (rest : List H16), i.encodable = true → i.wellFormed = true → (encode i).length ≤ 5 →
    decode (encode i ++ rest) = some (i, (encode i).length)) ∧
  ∀ (ws : List H16) (i : Instr) (n : Nat), decode ws = some (i, n) →
    i.encodable = true ∧ i.wellFormed = true ∧ (encode i).length ≤ n ∧ n ≤ 5

/-- R79: where a thread fetches a LIH, with whatever prefixes, whose combined field has a 1 above bit 31, it traps ILLEGAL at the base word;
R225: the atomics and reservations take a MOD of any order, scope 0 to 5, spec 0, and no other. -/
def Obligations.RefusedEncodings : Prop :=
  (∀ (s t : State) (rest : List Act) (c n : Nat) (rows : Option Nat) (ws : List H16) (w : H16) (p : Pfx), s.power = true →
    s.schedule = .issue c n rows :: rest → (fetching s rest c n rows).mayIssue c n = true →
    (fetching s rest c n rows).me.underway = none → prefixes Pfx.init 0 ws = some p →
    Fetched (fetching s rest c n rows).me.pc 0 (ws ++ [w]) (fetching s rest c n rows) t → p.page = 0 → w.toNat / 4096 = 4 →
    2 ^ 32 ≤ p.imx.foldl (fun v b => v * 1024 + b) 0 * 256 + w.toNat % 256 →
    step s = .next (takeTrap ⟨Cause.illegal, (fetching s rest c n rows).me.pc + w64 (2 * ws.length), 0, 0xFFFF⟩
      ({ t.issuing c n (.illegalEncoding ((fetching s rest c n rows).me.pc + w64 (2 * ws.length))) (2 * ws.length + 2) with
        cur := ⟨c, n, 2 * ws.length + 2, rows⟩ } : State).issue)) ∧
  (∀ q ∈ atomics, ∀ (d a : BitVec 4) (m : Mod),
    decode [0xF810, modWord m, BitVec.ofNat 16 (q.2 + d.toNat * 256 + a.toNat * 16)] =
      if anyOrder m then some (q.1 (d.setWidth 5) (a.setWidth 5) m, 3) else none) ∧
  ∀ (d a : BitVec 4) (b : Reg) (m : Mod),
    decode [0xF810, modWord m, BitVec.ofNat 16 (0x1002 + a.toNat * 16)] = (if anyOrder m then some (.rlsn (a.setWidth 5) m, 3) else none) ∧
    decode [0xF810, modWord m, BitVec.ofNat 16 (0xF600 + b.toNat * 16), BitVec.ofNat 16 (9 + d.toNat * 256 + a.toNat * 16)] =
      if anyOrder m then some (.acas (d.setWidth 5) (a.setWidth 5) b m, 4) else none

/-- R80, R89: where the words fetched at pc decode to an instruction, a step that issues the slot runs exactly it, in the state that the fetch
leaves, with the instruction's length; one that waited runs again as it was fetched; where a word is refused it runs ILLEGAL_ENCODING with that
word's address; where a word's fetch fails a check that trap is taken; an event of the schedule is run as it stands. One cycle passes with a
step, but for an event that the schedule puts into the cycle of the one before. -/
def Obligations.StepRunsDecoded : Prop :=
  (∀ (s t : State) (rest : List Act) (c n : Nat) (rows : Option Nat) (ws : List H16) (i : Instr), s.power = true →
    s.schedule = .issue c n rows :: rest → (fetching s rest c n rows).mayIssue c n = true → (fetching s rest c n rows).me.underway = none →
    Fetched (fetching s rest c n rows).me.pc 0 ws (fetching s rest c n rows) t → decode ws = some (i, ws.length) →
    step s = exec i { t.issuing c n i (2 * ws.length) with cur := ⟨c, n, 2 * ws.length, rows⟩ }) ∧
  (∀ (s : State) (rest : List Act) (c n : Nat) (rows : Option Nat) (i : Instr) (len : Nat), s.power = true →
    s.schedule = .issue c n rows :: rest → (fetching s rest c n rows).mayIssue c n = true →
    (fetching s rest c n rows).me.underway = some (i, len) →
    step s = exec i { fetching s rest c n rows with cur := ⟨c, n, len, rows⟩ }) ∧
  (∀ (s t : State) (rest : List Act) (c n : Nat) (rows : Option Nat) (ws : List H16) (w : H16) (p : Pfx), s.power = true →
    s.schedule = .issue c n rows :: rest → (fetching s rest c n rows).mayIssue c n = true →
    (fetching s rest c n rows).me.underway = none → prefixes Pfx.init 0 ws = some p →
    p.feed ws.length w.toNat = .illegal → Fetched (fetching s rest c n rows).me.pc 0 (ws ++ [w]) (fetching s rest c n rows) t →
    step s = exec (.illegalEncoding ((fetching s rest c n rows).me.pc + w64 (2 * ws.length)))
      { t.issuing c n (.illegalEncoding ((fetching s rest c n rows).me.pc + w64 (2 * ws.length))) (2 * ws.length + 2) with
        cur := ⟨c, n, 2 * ws.length + 2, rows⟩ }) ∧
  (∀ (s u t : State) (rest : List Act) (c n : Nat) (rows : Option Nat) (ws : List H16) (p : Pfx) (x : TrapInfo), s.power = true →
    s.schedule = .issue c n rows :: rest → (fetching s rest c n rows).mayIssue c n = true → (fetching s rest c n rows).me.underway = none →
    prefixes Pfx.init 0 ws = some p → Fetched (fetching s rest c n rows).me.pc 0 ws (fetching s rest c n rows) u → ws.length < 5 →
    fetch16 ((fetching s rest c n rows).me.pc + w64 (2 * ws.length)) u = .error (.trap x) t → step s = .next (takeTrap x t)) ∧
  (∀ (s : State) (rest : List Act) (e : Instr), s.power = true →
    (s.schedule = .event e :: rest → step s = exec e { s.elapse 1 with schedule := rest }) ∧
    (s.schedule = .same e :: rest → step s = exec e { s.elapse 0 with schedule := rest })) ∧
  (∀ (s : State) (rest : List Act) (k : Nat), s.power = true → s.schedule = .tick k :: rest →
    step s = .next { s.elapse 1 with schedule := rest, meridian := s.meridian + k }) ∧
  (∀ (s : State) (rest : List Act) (c n : Nat) (rows : Option Nat), s.power = true → s.schedule = .issue c n rows :: rest →
    ({ s.elapse 1 with schedule := rest } : State).mayIssue c n = false → step s = .next { s.elapse 1 with schedule := rest }) ∧
  ∀ s : State, s.power = false → (∀ v rest, s.schedule ≠ .event (.powerOn v) :: rest) → step s = .fault .noPower

/-- R41, R49, R56, R112, R272, R308: right after reset no boot has run, no world exists, every on-die byte is 0 and every full/empty bit empty,
no cluster is enabled, every slot is FREE with its registers at 0, and memory is in canonical form. The 0 of the registers for which the spec
states no reset value is the model's choice (log 7), and so is that of HBM (log 4). -/
def Obligations.ResetFacts : Prop :=
  State.reset.power = true ∧ State.reset.booted = false ∧ State.reset.meridian = 0 ∧ State.reset.firewallLock = false ∧
  State.reset.MemoryWf ∧ State.reset.powerCap = 2200 ∧ (∀ loc, State.reset.byte loc = 0) ∧ (∀ loc, State.reset.isFull loc = false) ∧
  (∀ c, (State.reset.core c).enabled = false ∧ (State.reset.core c).sb = [] ∧ (State.reset.core c).l1 = []) ∧
  (∀ c n, (State.reset.slot c n).st = .free ∧ (State.reset.slot c n).restart = 0 ∧ (State.reset.slot c n).tfmt = 0xFFFF ∧
    ∀ r, (State.reset.slot c n).reg r = 0) ∧
  (∀ w, (State.reset.world w).live = false ∧ (State.reset.world w).tau = 0x7F800000) ∧
  ∀ r o k, State.reset.fwAllows r o k = false

/-- R288: the entry of the thread-context cache that CTXSAVE or CTXIN takes is the lowest-numbered free one. -/
def Obligations.LowestCacheEntry : Prop :=
  ∀ (s t : State) (d a : Reg) (i : Nat), exec (.ctxsave d a) s = .next t ∨ exec (.ctxin d a) s = .next t →
    i ∈ (t.core s.cur.core).cache.map Prod.fst → i ∉ (s.core s.cur.core).cache.map Prod.fst →
    i < 48 ∧ ∀ j, j < i → j ∈ (s.core s.cur.core).cache.map Prod.fst

/-- The invariant that memory stays in its canonical form, so that equal memories are equal data (the model's own, log 4): every step keeps it. -/
def Obligations.MemoryStaysCanonical : Prop := ∀ s t : State, s.MemoryWf → step s = .next t → t.MemoryWf

/-- R47: once boot has locked the firewall matrix no step changes it, while the power stays on. -/
def Obligations.FirewallStaysLocked : Prop :=
  ∀ s t : State, s.power = true → s.firewallLock = true → s.booted = true → step s = .next t → t.power = false ∨
    (t.firewallLock = true ∧ t.firewallR = s.firewallR ∧ t.firewallW = s.firewallW)

/-- R85, R93 to R96, R102: the frame of the register-only instructions. Of the machine only the acting slot changes, and its core's event
counters; in the slot the registers but d, the predicates, tiles, accumulators, and every special register stay as they were; the pc moves
behind the instruction. The compares change one predicate alone. -/
def Sys2Proof.Claims.RegisterOnlyFrame : Prop :=
  (∀ q ∈ registerOnly, ∀ (s t : State) (v : W64) (d a : Reg) (x : Option Reg), NoPort s (d :: a :: x.toList) (some d) →
    exec (q v d a x) s = .next t →
    SameMemory s t ∧ OtherCoresSame s t ∧ OtherSlotsSame s t ∧ ScalarStateOnly s t ∧ SameRegs s t [d] ∧ SamePreds s t ∧
    t.me.pc = s.behind ∧ t.me.st = .run) ∧
  ∀ q ∈ compares, ∀ (s t : State) (p : Num3) (a : Reg) (x : Option Reg), NoPort s (a :: x.toList) none → exec (q.1 p a x) s = .next t →
    SameMemory s t ∧ OtherCoresSame s t ∧ OtherSlotsSame s t ∧ ScalarStateOnly s t ∧ SameRegs s t [] ∧
    (∀ i, i ≠ p → t.me.pred i = s.me.pred i) ∧ t.me.pc = s.behind ∧ t.me.st = .run

/-- R84, R99, R125, R244: the frame of loads and stores. A load changes of the program's state its register alone; a store changes none, and the
bytes it stores go to its core's store buffer, behind what stood there, for the place that the checks of its address give. Memory reads as
before, but for an HBM line that passes by chance under a key that did not write it (R323, log 6). -/
def Sys2Proof.Claims.LoadsAndStoresFrame : Prop :=
  (∀ q ∈ loads, ∀ (s u v t : State) (d a : Reg) (off : W64) (m : Mod) (pl : Place) (cap : Cap) (bs : List Byte), NoPort s [a] (some d) →
    checkAccess s.who (s.src a + off * w64 q.2.1) q.2.1 .read [.read] s.issue = .ok (pl, cap) u →
    loadPlace s.who pl q.2.1 m (s.src a + off * w64 q.2.1) u = .ok bs v → exec (q.1 d a off m) s = .next t →
    SameRegs s t [d] ∧ SamePreds s t ∧ ScalarStateOnly s t ∧ CachesOnly s t ∧ t.me.pc = s.behind ∧ (∀ c, (t.core c).sb = (s.core c).sb) ∧
    (∀ c n, ¬(c = s.cur.core ∧ n = s.cur.slot) → t.slot c n = s.slot c n) ∧
    ∀ loc, t.byte loc = s.byte loc ∨ (isHbm loc = true ∧ Sparse.get 0 s.lineKeys (loc / 64) ≠ (s.world s.myWorld).memKey)) ∧
  ∀ q ∈ stores, ∀ (s u v w t : State) (d a : Reg) (off : W64) (m : Mod) (pl : Place) (cap : Cap), NoPort s [d, a] none →
    m.order = 0 → releaseAt m.order m.scope s.issue = .ok () v → (v.core s.cur.core).sb.length < 32 →
    checkAccess s.who (s.src a + off * w64 q.2) q.2 .write [.write] v = .ok (pl, cap) u → pl.space ≠ .ctrl →
    readForStore s.who pl (s.src a + off * w64 q.2) u w → exec (q.1 d a off m) s = .next t →
    SameRegs s t [] ∧ SamePreds s t ∧ ScalarStateOnly s t ∧ CachesOnly s t ∧ t.me.pc = s.behind ∧
    (∀ c, c ≠ s.cur.core → (t.core c).sb = (s.core c).sb) ∧ (∃ e, (t.core s.cur.core).sb = (s.core s.cur.core).sb ++ [e] ∧ e.slot = s.cur.slot ∧
      e.bytes = cellsAt pl.loc (natToLe q.2 (s.src d).toNat)) ∧
    (∀ c n, ¬(c = s.cur.core ∧ n = s.cur.slot) → t.slot c n = s.slot c n) ∧
    ∀ loc, t.byte loc = s.byte loc ∨ (isHbm loc = true ∧ Sparse.get 0 s.lineKeys (loc / 64) ≠ (s.world s.myWorld).memKey)

/-! ## Where transfers, images, copies and engine commands complete (R99: the conditions on the state and the operands alone) -/

namespace Sys2Proof.Claims

/-- The bytes that loads of the acting thread see. -/
def loaded (s : State) (ea : W64) (n : Nat) : List Byte := seen s s.who (s.loadByte s.cur.core) ea n

/-- A layout record that the acting thread may read, and that R22 lets stand. -/
def LayoutAt (s : State) (h : W64) (l : Layout) : Prop :=
  h.toNat % 64 = 0 ∧ AllPass s s.who 8 .read [(h, 64)] ∧ l = layoutOf h (loaded s h 64) ∧ layoutOk (loaded s h 64) l = true

/-- A sequence header that the acting thread may read, and that R254 lets stand. -/
def HeaderAt (s : State) (a : W64) (h : SeqHeader) : Prop :=
  a.toNat % 64 = 0 ∧ (fld a 61 3 = 0 ∨ fld a 61 3 = 5) ∧ AllPass s s.who 8 .read [(a, 64)] ∧ h = seqHeaderOf a (loaded s a 64) ∧
  seqHeaderOk (loaded s a 64) h = true

/-- No store stands between an instruction and its release or its acquire: it has no order, or the core's buffer is empty (R244, R245). -/
abbrev Unhindered (s : State) (m : Mod) : Prop := m.order = 0 ∨ s.myCore.sb = []

/-- The spans of memory of n elements of a window's row r (R23, R131). -/
def rowSpans (l : Layout) (row0 col0 r n : Nat) : List (W64 × Nat) :=
  if l.trans then (List.range n).map fun k => (l.addr (row0 + k) (col0 + r), tySize l.type)
  else [(l.addr (row0 + r) col0, n * tySize l.type)]

/-- The scales of tensor rows, where the layout has scales, can be read (R23, R132). -/
def ScalesPass (s : State) (l : Layout) (rows : List Nat) : Prop := l.rscl = true →
  l.trans = false ∧ s.me.scl ≠ 0 ∧ ∀ r ∈ rows, AllPass s s.who 4 .read [(s.me.scl + w64 (4 * (l.rsoff + r)), 4)]

/-- The instruction has completed as a waiting one (R90): the thread goes on behind it. -/
abbrev Completed (s t : State) : Prop := t.me.pc = s.behind ∧ t.me.st = .wait ∧ t.me.waiting = .complete

/-- No word of the device is reserved or waited for at its bank (R219). -/
abbrev NoneReserved (s : State) : Prop := ∀ loc, (s.bank loc).holder = none ∧ (s.bank loc).queue = []

/-- The copy descriptor that an address of the scratchpad holds, readable by the acting thread (R280). -/
def CtxDescAt (s : State) (a : W64) (x : CopyDesc) : Prop :=
  a.toNat % 32 = 0 ∧ fld a 58 6 = 0x30 ∧ AllPass s s.who 8 .read [(a, 32)] ∧
  x = ⟨wordAt (loaded s a 32) 0, wordAt (loaded s a 32) 1, wordAt (loaded s a 32) 2, wordAt (loaded s a 32) 3⟩

/-- A register that a write to it changes: neither s0 nor a queue port (R85, R102). -/
abbrev Held (s : State) (d : Reg) : Prop :=
  d ≠ 0 ∧ ¬(d = qi ∧ s.myCore.portIn s.cur.slot = true) ∧ ¬(d = qo ∧ s.myCore.portOut s.cur.slot = true)

end Sys2Proof.Claims

/-- TLD completes where its layout record, its rows and their scales can be read; the tile has the window's valid region (R130 to R133). -/
def Sys2Proof.Claims.TldCompletes : Prop :=
  ∀ (s : State) (td : Num3) (a b : Reg) (m : Mod) (l : Layout) (sh : W64) (row0 col0 vr vc : Nat),
    NoPort s [a, b] none → ToTheEnd s → resumesAt s (restartKey 1 8 0) = none → Unhindered s m → sh = (s.me.tile td).shape →
    row0 = fld (s.src b) 0 32 → col0 = fld (s.src b) 32 32 → LayoutAt s (s.src a) l → movable sh → shType sh = l.elemTy → l.cx8 = false →
    (vr, vc) = window l sh row0 col0 → (∀ r, r < vr → AllPass s s.who (tySize l.type) .read (rowSpans l row0 col0 r vc)) →
    ScalesPass s l ((List.range vr).map (row0 + ·)) →
    ∃ t, exec (.tld td a b m) s = .next t ∧ Completed s t ∧ (t.me.tile td).shape = withValid sh vr vc ∧ t.mem = s.mem

/-- TST completes where its layout record can be read, its rows can be written and the store buffer has room for them, an entry a row (R131,
R244). -/
def Sys2Proof.Claims.TstCompletes : Prop :=
  ∀ (s : State) (td : Num3) (a b : Reg) (m : Mod) (l : Layout) (sh : W64) (row0 col0 rows cols : Nat),
    NoPort s [a, b] none → ToTheEnd s → resumesAt s (restartKey 1 8 1) = none → Unhindered s m → sh = (s.me.tile td).shape →
    row0 = fld (s.src b) 0 32 → col0 = fld (s.src b) 32 32 → LayoutAt s (s.src a) l → movable sh → shType sh = l.elemTy → l.cx8 = false →
    rows = min (window l sh row0 col0).1 (shVrows sh) → cols = min (window l sh row0 col0).2 (shVcols sh) →
    (∀ r, r < rows → AllPass s s.who (tySize l.type) .write (rowSpans l row0 col0 r cols)) → s.myCore.sb.length + rows ≤ 32 →
    ∃ t, exec (.tst td a b m) s = .next t ∧ Completed s t ∧ t.mem = s.mem ∧
      t.myCore.sb.length = s.myCore.sb.length + (if cols = 0 then 0 else rows)

/-- TLDS and TSTS complete where their rows lie in one local window and can be read or written (R134). -/
def Sys2Proof.Claims.LocalTransfersComplete : Prop :=
  ∀ (s : State) (td : Num3) (a b : Reg) (m : Mod) (sh ea pitch : W64), NoPort s [a, b] none → ToTheEnd s → Unhindered s m →
    sh = (s.me.tile td).shape → ea = s.src a → pitch = s.src b → movable sh → fld ea 61 3 = 6 → fld ea 58 3 ≤ 2 →
    ea.toNat % tySize (shType sh) = 0 → pitch.toNat % tySize (shType sh) = 0 →
    (resumesAt s (restartKey 1 9 0) = none → (∀ r, r < shRows sh → fld (ea + w64 r * pitch) 58 6 = 48 + fld ea 58 3 ∧
        fld (ea + w64 r * pitch) 0 58 + shCols sh * tySize (shType sh) ≤ windowSize (fld ea 58 3) ∧
        AllPass s s.who (tySize (shType sh)) .read [(ea + w64 r * pitch, shCols sh * tySize (shType sh))]) →
      ∃ t, exec (.tlds td a b m) s = .next t ∧ Completed s t ∧ (t.me.tile td).shape = withValid sh (shRows sh) (shCols sh) ∧
        t.mem = s.mem) ∧
    (resumesAt s (restartKey 1 9 1) = none → (∀ r, r < shVrows sh → fld (ea + w64 r * pitch) 58 6 = 48 + fld ea 58 3 ∧
        fld (ea + w64 r * pitch) 0 58 + shVcols sh * tySize (shType sh) ≤ windowSize (fld ea 58 3) ∧
        AllPass s s.who (tySize (shType sh)) .write [(ea + w64 r * pitch, shVcols sh * tySize (shType sh))]) →
      s.myCore.sb.length + shVrows sh ≤ 32 →
      ∃ t, exec (.tsts td a b m) s = .next t ∧ Completed s t ∧ t.mem = s.mem ∧
        t.myCore.sb.length = s.myCore.sb.length + (if shVcols sh = 0 then 0 else shVrows sh))

/-- TLDX and TSTX complete where their layout record can be read, every index names a row of the tensor, and those rows can be read or
written (R135). -/
def Sys2Proof.Claims.IndexedTransfersComplete : Prop :=
  ∀ (s : State) (td tx : Num3) (a : Reg) (m : Mod) (l : Layout) (sh xsh : W64) (ks : List Int), NoPort s [a] none → ToTheEnd s →
    Unhindered s m → sh = (s.me.tile td).shape → xsh = (s.me.tile tx).shape → ks = indexList (s.me.tile tx) → LayoutAt s (s.src a) l →
    movable sh → shType sh = l.elemTy → xsh ≠ 0 → shType xsh = 8 → l.trans = false → l.cx8 = false → ks.length ≤ shRows sh →
    (∀ k ∈ ks, 0 ≤ k ∧ k < l.rows) →
    (resumesAt s (restartKey 1 0xA 0) = none →
      (∀ k ∈ ks, AllPass s s.who (tySize l.type) .read (rowSpans l 0 0 k.toNat (min (shCols sh) l.cols))) →
      ScalesPass s l (ks.map Int.toNat) →
      ∃ t, exec (.tldx td tx a m) s = .next t ∧ Completed s t ∧
        (t.me.tile td).shape = withValid sh ks.length (min (shCols sh) l.cols) ∧ t.mem = s.mem) ∧
    ∀ rows cols, rows = min ks.length (shVrows sh) → cols = min (min (shCols sh) l.cols) (shVcols sh) →
      resumesAt s (restartKey 1 0xA 1) = none →
      (∀ k ∈ ks, AllPass s s.who (tySize l.type) .write (rowSpans l 0 0 k.toNat cols)) → s.myCore.sb.length + rows ≤ 32 →
      ∃ t, exec (.tstx td tx a m) s = .next t ∧ Completed s t ∧ t.mem = s.mem ∧
        t.myCore.sb.length = s.myCore.sb.length + (if cols = 0 then 0 else rows)

/-- LDSTAT, LDSCL and LDPROJ complete where their layout record and the rows of their window can be read; the first two in a slot that owns
the plane, LDPROJ while no instruction of another slot reads its chunk of the projection buffer (R192 to R195). -/
def Sys2Proof.Claims.PlaneLoadsComplete : Prop :=
  ∀ (s : State) (a b : Reg) (m : Mod) (l : Layout) (row0 col0 : Nat), NoPort s [a, b] none → ToTheEnd s → Unhindered s m →
    row0 = fld (s.src b) 0 32 → col0 = fld (s.src b) 32 32 → LayoutAt s (s.src a) l → l.cx8 = false →
    (∀ (p : Num2) (krows ncols : Nat), s.me.plown.getLsbD p.toNat = true → resumesAt s (restartKey 3 1 0) = none → l.type ≤ 6 →
      (krows, ncols) = planeWindow l row0 col0 →
      (∀ r, r < krows → AllPass s s.who (tySize l.type) .read (rowSpans l row0 col0 r ncols)) →
      ∃ t, exec (.ldstat p a b m) s = .next t ∧ Completed s t ∧ (planeOf t p).shadow.shape = mkHalfShape l.elemTy krows ncols ∧
        (planeOf t p).active = (planeOf s p).active ∧ t.mem = s.mem) ∧
    (∀ (p : Num2) (n : Nat), s.me.plown.getLsbD p.toNat = true → resumesAt s (restartKey 3 1 2) = none → l.type = 7 → l.trans = false →
      n = (if row0 < l.rows then min 128 (l.cols - col0) else 0) → AllPass s s.who 4 .read [(l.addr row0 col0, 4 * n)] →
      ∃ t, exec (.ldscl p a b m) s = .next t ∧ Completed s t ∧
        (∀ i, n ≤ i → i < 128 → vat 0 (planeOf t p).shadow.scales i = 0x3F800000) ∧
        (planeOf t p).shadow.rows = (planeOf s p).shadow.rows ∧ (planeOf t p).active = (planeOf s p).active ∧ t.mem = s.mem) ∧
    ∀ chunk n : Nat, resumesAt s (restartKey 3 1 1) = none → chunk = m.spec.toNat % 8 → l.type = 5 →
      (∀ q ∈ s.myCore.projUse, q.1 = s.cur.slot ∨ q.2.1 = true ∨ 64 * chunk + 64 ≤ q.2.2.1 ∨ q.2.2.2 ≤ 64 * chunk) →
      n = min 64 (if l.trans then l.rows - row0 else l.cols - col0) →
      (∀ i, i < 64 → (if l.trans then col0 + i < l.cols else row0 + i < l.rows) → AllPass s s.who 2 .read (rowSpans l row0 col0 i n)) →
      ∃ t, exec (.ldproj a b m) s = .next t ∧ Completed s t ∧ t.mem = s.mem ∧
        ∀ i, (i < 64 * chunk ∨ 64 * chunk + 64 ≤ i) → Sparse.get 0 t.myCore.proj i = Sparse.get 0 s.myCore.proj i

/-- KVLD, KVST without its append, and KVMULT complete outside the copy slot where the descriptor keeps its rules, the header can be read, and
the tokens, or their multiplicities, can be read or written (R254 to R258). -/
def Sys2Proof.Claims.SequenceTransfersComplete : Prop :=
  ∀ (s : State) (a b : Reg) (m : Mod) (h : SeqHeader) (first : Nat), NoPort s [a, b] none → ToTheEnd s → Unhindered s m → s.cur.slot ≠ 14 →
    HeaderAt s (s.src a) h → first = fld (s.src b) 0 16 →
    (∀ (p : Num2) (n slice : Nat), s.me.plown.getLsbD p.toNat = true → n = fld (s.src b) 16 8 → slice = fld (s.src b) 24 4 →
      fld (s.src b) 28 36 = 0 → 1 ≤ n → n ≤ 128 → resumesAt s (restartKey 6 0 0) = none → 32 * slice + 32 ≤ h.width →
      first + n ≤ 16 * h.npages →
      (∀ c, c < n → AllPass s s.who h.esize .read [(h.row (first + c) + w64 (32 * slice * h.esize), 32 * h.esize)]) →
      ∃ t, exec (.kvld p a b m) s = .next t ∧ Completed s t ∧ (planeOf t p).shadow.shape = mkHalfShape 5 32 n ∧ t.mem = s.mem) ∧
    (∀ (td : Num3) (sh : W64), sh = (s.me.tile td).shape → fld (s.src b) 20 44 = 0 → resumesAt s (restartKey 6 1 0) = none → sh ≠ 0 →
      shType sh = h.type → shCols sh * h.esize = 64 → 64 * fld (s.src b) 16 4 < h.rowBytes → first + shVrows sh ≤ 16 * h.npages →
      (∀ i, i < shVrows sh → AllPass s s.who 1 .write [(h.row (first + i) + w64 (64 * fld (s.src b) 16 4), shVcols sh * h.esize)]) →
      s.myCore.sb.length + shVrows sh ≤ 32 →
      ∃ t, exec (.kvst td a b m) s = .next t ∧ Completed s t ∧ t.mem = s.mem ∧
        t.myCore.sb.length = s.myCore.sb.length + (if shVcols sh = 0 then 0 else shVrows sh)) ∧
    ∀ (td : Num3) (n : Nat), n = fld (s.src b) 16 7 → fld (s.src b) 23 41 = 0 → 1 ≤ n → n ≤ 64 → resumesAt s (restartKey 6 2 0) = none →
      first + n ≤ 16 * h.npages →
      (∀ j, j < n → AllPass s s.who 1 .read [(h.trailer (first + j) + w64 ((first + j) % 16), 1)]) →
      ∃ t, exec (.kvmult td a b m) s = .next t ∧ Completed s t ∧ (t.me.tile td).shape = mkShape 1 1 64 1 n ∧ t.mem = s.mem

/-- KRD of each register of R86 and KWR of k.fpc and k.flags complete in a slot of a program; KRD of the core's registers, of k.trapq and k.vbase,
and KWR of the registers of a slot that is not FREE, of k.vbase, k.slotsel and k.trapq complete in the supervisor's. TRAPQ_POP and TRAPQ_CLEAR
take records away. -/
def Sys2Proof.Claims.RegistersComplete : Prop :=
  (∀ q ∈ slotRegisters, ∀ (s : State) (d a : Reg), NoPort s [a] (some d) → (s.src a).toNat = q.1 → s.cur.slot ≠ 15 →
    ∃ t, exec (.krd d a) s = .next t ∧ t.me.pc = s.behind ∧ t.me.st = .run ∧ (Held s d → t.me.reg d = q.2 s.issue s.cur.slot) ∧
      t.mem = s.mem) ∧
  (∀ (s : State) (d a : Reg), NoPort s [d, a] none → s.cur.slot ≠ 15 →
    ((s.src d).toNat = 0x07 → ∃ t, exec (.kwr d a) s = .next t ∧ t.me.pc = s.behind ∧ t.me.st = .run ∧
      t.me.fpc = w64 (fld (s.src a) 0 3) ∧ t.me.s = s.me.s ∧ t.mem = s.mem) ∧
    ((s.src d).toNat = 0x08 → ∃ t, exec (.kwr d a) s = .next t ∧ t.me.pc = s.behind ∧ t.me.st = .run ∧
      t.me.flags = w64 (fld (s.src a) 0 9) ∧ t.me.s = s.me.s ∧ t.mem = s.mem)) ∧
  (∀ (s : State) (d a : Reg), NoPort s [a] (some d) → s.cur.slot = 15 →
    ((s.src a).toNat = 0x18 → ∃ t, exec (.krd d a) s = .next t ∧ t.me.pc = s.behind ∧ (Held s d → t.me.reg d = s.myCore.vbase)) ∧
    ((s.src a).toNat = 0x19 → ∃ t, exec (.krd d a) s = .next t ∧ t.me.pc = s.behind ∧ t.myCore.trapq = s.myCore.trapq.drop 1 ∧
      (Held s d → t.me.reg d = s.myCore.trapq.headD 0)) ∧
    ((s.src a).toNat = 0x1A → ∃ t, exec (.krd d a) s = .next t ∧ t.me.pc = s.behind ∧
      (Held s d → t.me.reg d = s.myCore.slotsel.setWidth 64))) ∧
  (∀ (s : State) (d a : Reg), NoPort s [d, a] none → s.cur.slot = 15 →
    ((s.src d).toNat = 0x18 → flag (s.src a) 0 = false → ∃ t, exec (.kwr d a) s = .next t ∧ t.me.pc = s.behind ∧
      t.myCore.vbase = s.src a) ∧
    ((s.src d).toNat = 0x1A → ∃ t, exec (.kwr d a) s = .next t ∧ t.me.pc = s.behind ∧ t.myCore.slotsel = (s.src a).setWidth 4)) ∧
  ∀ (s : State) (d : Reg), ∃ t u, exec (.trapqPop d) s = .next t ∧ t.myCore.trapq = s.myCore.trapq.drop 1 ∧
    exec .trapqClear s = .next u ∧ u.myCore.trapq = []

/-- CTXOUT completes where its descriptor can be read, the entry that it names stands in the cache, the key's lease runs, the destination can hold
the image and be written, and no word is reserved; it answers the image's length, and the index has its next counter (R280, R282). CTXIN
completes where the descriptor and the image can be read, the cache has room, and the image is the current one of its index under the world's
key; the entry stands held in the cache, and the counter has moved on (R281, R283). -/
def Sys2Proof.Claims.ContextImagesComplete : Prop :=
  ∀ (s : State) (d a : Reg) (x : CopyDesc) (index : Nat), NoPort s [a] (some d) → s.cur.slot = 15 → s.myCore.sb = [] →
    CtxDescAt s (s.src a) x → index = fld x.mb0 32 12 → fld x.mb0 44 20 = 0 → fld x.mb0 6 26 = 0 → x.src.toNat % 16 = 0 →
    fld x.src 61 3 = 0 → s.ctxKeyDead s.myWorld = false →
    (∀ (i wlen woff n : Nat) (e : CtxEntry), i = fld x.mb0 0 6 → wlen = fld x.size 32 18 → woff = fld x.size 0 18 →
      s.myCore.cache.find? (fun q => decide (q.1 = i)) = some (i, e) → fld x.size 50 14 = 0 → fld x.size 18 14 = 0 → wlen % 64 = 0 →
      woff % 64 = 0 → woff + wlen ≤ 0x30000 →
      n = imageLen e.ctx.liveTiles.length e.rowsInAll e.accs.length e.planes.length wlen → n ≤ x.dst.toNat →
      Sparse.get 0 (s.world s.myWorld).counters index ≠ 2 ^ 32 - 1 → (∀ y ∈ (s.world s.myWorld).savedChain, y.1 ≠ index) →
      NoneReserved s → AllPass s s.who 1 .write [(x.src, n)] →
      ∃ t, exec (.ctxout d a) s = .next t ∧ Completed s t ∧ (Held s d → t.me.reg d = w64 n) ∧
        Sparse.get 0 (t.world s.myWorld).counters index = Sparse.get 0 (s.world s.myWorld).counters index + 1 ∧
        ∀ q ∈ t.myCore.cache, q.1 ≠ i) ∧
    ∀ (rows n i : Nat) (h bs : List Byte) (key : Nat), fld x.mb0 0 32 = 0 → x.size = 0 → (s.myCore.roomFor 0).isSome = true →
      AllPass s s.who 1 .read [(x.src, 64), (x.src, n)] → h = seen s s.who s.byte x.src 64 → bs = seen s s.who s.byte x.src n →
      headerRows h = some rows → n = fld (wordIn h 16) 0 32 → fld (wordIn h 0) 16 48 = 0x513743580001 → fld (wordIn h 8) 12 4 = s.myWorld →
      n ≤ x.dst.toNat → s.myCore.roomFor (headerSpill h rows) = some i →
      fld (wordIn h 8) 32 32 = Sparse.get 0 (s.world s.myWorld).counters index → key = s.imageKey s.myWorld index →
      bs.drop (n - 16) = gcmTagOf key (headerIv h) h ((bs.drop 64).take (n - 80)) →
      ∃ t e, exec (.ctxin d a) s = .next t ∧ Completed s t ∧ (Held s d → t.me.reg d = w64 i) ∧
        Sparse.get 0 (t.world s.myWorld).counters index = Sparse.get 0 (s.world s.myWorld).counters index + 1 ∧
        t.myCore.cache.find? (fun q => decide (q.1 = i)) = some (i, e) ∧ e.st = .held

/-- CAPCHK completes, whatever it finds, without an access: its predicate says whether the chain has the authority (R208). -/
def Sys2Proof.Claims.CapchkCompletes : Prop :=
  ∀ (s : State) (p : Num3) (a : Reg) (k : BitVec 2) (w : Who), NoPort s [a] none → s.cur.slot ≠ 14 →
    w = ⟨s.cur.core, s.cur.slot, s.myWorld, fld (s.slot s.cur.core (chainSlotOf s)).chain 0 16⟩ →
    (∀ cap, Granted s w (s.src a) (kindOf k) cap →
      ∃ t, exec (.capchk p a k) s = .next t ∧ Completed s t ∧ t.me.pred p = true ∧ t.me.s = s.me.s ∧ t.mem = s.mem) ∧
    (s.capOf s.myWorld (s.src a) = none →
      ∃ t, exec (.capchk p a k) s = .next t ∧ Completed s t ∧ t.me.pred p = false ∧ t.me.s = s.me.s ∧ t.mem = s.mem)

/-- COPY_CHUNK completes where the copy's next chunk can be read and written and no word is reserved: the copy has moved on (R139). -/
def Sys2Proof.Claims.CopyChunkCompletes : Prop :=
  ∀ (s : State) (core k r n : Nat) (c : Copy) (a b : W64) (len : Nat), (s.core core).copies[k]? = some c → c.st = .running →
    (s.world c.world).stopped = false → (∀ x ∈ (s.core core).copies.take k, x.blocks c = false) → c.part c.row = some (r, a, b, len) →
    n = min 64 (len - c.byte) → c.bar = none → NoneReserved s → AllPass s (c.who core) 1 .read [(a + w64 c.byte, n)] →
    AllPass s (c.who core) 1 .write [(b + w64 c.byte, n)] →
    ∃ t, exec (.copyChunk core k) s = .next t ∧
      (t.core core).copies = (s.core core).copies.take k ++ (c.advance n len).finish ++ (s.core core).copies.drop (k + 1)

/-- The engines' commands complete, row by row, page by page or whole, where what they read and write passes R99 and no word is reserved: GATHER,
MERGE_PAGES, ALLREDUCE, ALLGATHER and REDUCESCATTER, SEND, RECV and PKTSEND (R241, R266, R302 to R304). -/
def Sys2Proof.Claims.EngineCommandsComplete : Prop :=
  (∀ (s : State) (k idx len : Nat) (c : EngCmd), CommandAt s k 3 1 c → NoneReserved s →
    AllPass s c.who 1 .read [(c.word 3 + w64 (4 * c.done), 4)] → idx = leToNat (seen s c.who s.byte (c.word 3 + w64 (4 * c.done)) 4) →
    idx < 2 ^ 31 → idx < (c.word 5).toNat → len = (c.word 6).toNat →
    AllPass s c.who 1 .read [(c.word 4 + w64 (idx * (c.word 7).toNat), len)] →
    AllPass s c.who 1 .write [(c.word 2 + w64 (c.done * len), len)] →
    ∃ t, exec (.gather k) s = .next t ∧ (c.done + 1 = fld c.header 0 32 → t.engCmds = s.engCmds.eraseIdx k) ∧
      (c.done + 1 ≠ fld c.header 0 32 → ∃ x, t.engCmds[k]? = some x ∧ x.done = c.done + 1)) ∧
  (∀ (s : State) (k : Nat) (c : EngCmd) (h : SeqHeader) (ea : W64) (out : List Byte × Nat), CommandAt s k 1 1 c → EngineFirst s k 1 →
    NoneReserved s → h = ⟨c.word 1, 0, 0, (c.word 2).toNat, (c.word 3).toNat⟩ → ea = h.page (fld c.header 0 16 + c.done) →
    (∀ pl v, locate c.who h.addr .read s = .ok pl v → v.insidePage pl.loc (fld c.header 0 16 + c.done) = false) →
    AllPass s c.who 1 .read [(ea, h.pageBytes)] →
    out = mergePage h.type h.width (Fmt.fp32.decode (s.world c.world).tau.toNat) (seen s c.who s.byte ea h.pageBytes) →
    AllPass s c.who 1 .write [(ea, out.1.length)] →
    ∃ t, exec (.mergePages k) s = .next t ∧ (c.done + 1 = c.count → t.engCmds = s.engCmds.eraseIdx k) ∧
      (c.done + 1 ≠ c.count → ∃ x, t.engCmds[k]? = some x ∧ x.done = c.done + 1)) ∧
  (∀ q ∈ [((.allreduce : Nat → Instr), 1), (.allgather, 2), (.reducescatter, 3)], ∀ (s : State) (k : Nat) (c : EngCmd) (rs : List RxData),
    CommandAt s k 2 q.2 c → GroupFirst s k c → c.aux = 0 → c.isRoot = false → HaveCome s c c.children rs →
    framesMatch c rs (upLength c) = true → AllPass s c.who 1 .read [(c.word 2, c.srcBytes)] →
    (s.port c.parent).sends s.meridian = true →
    ∃ t, exec (q.1 k) s = .next t ∧ ∃ x, t.engCmds[k]? = some x ∧ x.aux = 1 ∧ x.words = c.words) ∧
  (∀ q ∈ [((.allreduce : Nat → Instr), 1), (.allgather, 2), (.reducescatter, 3)], ∀ (s : State) (k : Nat) (c : EngCmd) (rs : List RxData)
      (out : List Byte), CommandAt s k 2 q.2 c → GroupFirst s k c → c.aux ≠ 0 → HaveCome s c [c.parent] rs →
    framesMatch c rs (downLength c) = true → (∀ p ∈ c.children, (s.port p).sends s.meridian = true) → NoneReserved s →
    out = (if q.2 = 3 then ((rs.flatMap RxData.data).drop (c.rank * c.dstBytes)).take c.dstBytes else rs.flatMap RxData.data) →
    AllPass s c.who 1 .write [(c.word 3, out.length)] →
    ∃ t, exec (q.1 k) s = .next t ∧ t.engCmds = s.engCmds.eraseIdx k) ∧
  ∀ (s : State) (k p : Nat) (c : EngCmd), p = fld (c.word 1) 0 5 →
    (CommandAt s k 2 4 c → PortFirst s k c → (s.port p).sends s.meridian = true →
      AllPass s c.who 1 .read [(c.word 2, (c.word 3).toNat)] →
      ∃ t, exec (.send k) s = .next t ∧ t.engCmds = s.engCmds.eraseIdx k) ∧
    (∀ i r, CommandAt s k 2 5 c → PortFirst s k c → (s.port p).firstSend c.world c.group = some (i, r) → r.fail = 0 → r.complete = true →
      r.data.length = (c.word 3).toNat → NoneReserved s → AllPass s c.who 1 .write [(c.word 2, r.data.length)] →
      ∃ t, exec (.recv k) s = .next t ∧ t.engCmds = s.engCmds.eraseIdx k) ∧
    (CommandAt s k 2 6 c → (s.port p).sends s.meridian = true → AllPass s c.who 1 .read [(c.word 2, 64)] →
      ∃ t, exec (.pktsend k) s = .next t ∧ t.engCmds = s.engCmds.eraseIdx k)

/-! ## The statements of several parts -/

/-- R93: an instruction of two operands reads both, then writes d, and the thread stays ready behind it (R90). Forms that use a queue port
are those of `QueuePorts`. R94: moves, negation, bit counts and extensions, MINU and MAXU. Says that these complete: add, sub, and, or, xor,
sll, srl, sra, mul, mulh, mulhu, div, divu, rem, min, max, mov, neg, not, clz, ctz, popc, sextb, sexth, sextw, zextw, minu, maxu. -/
def Obligations.ScalarArithmetic : Prop := Claims.TwoSourceArithmetic ∧ Claims.OneSourceArithmetic

/-- R94, R96: the compares write a predicate, their second operand being REX xreg or zero; SELP writes d only where p0 is true; the
predicate instructions and PTOS. R95: the immediate forms. LIH replaces bits [63:32]; CMPI tests by its condition. Says that these complete:
cmpeq, cmplt, cmpltu, selp, addi, li, lih, slli, srli, srai, rori, cmpi, pand, por, pxor, pnot, ptos. -/
def Obligations.PredicatesAndImmediates : Prop := Claims.Predicates ∧ Claims.Immediates

/-- R83, R96, R98: the jumps, branches and CALL, and NOP. A target is an address of region 0b000 without bit [0]; the link is the address
behind the instruction. R83: a jump whose target has bit [0] traps ALIGN, and one whose bits [63:56] are not zero XLATE; k.tval holds the
target, and the link register is not written. Says that these complete: b, bp, jr, jalr, ret, nop, call. -/
def Obligations.JumpsAndBranches : Prop := Claims.JumpsAndBranches ∧ Claims.JumpTargetTraps

/-- R102: a source qi at the port takes the oldest inbound word, which every field that names it reads; a destination qo at the port pushes
to the downstream core; either makes the instruction a waiting one. Without a word, or without room, it waits; a downstream core of another
world traps FIREWALL. R85, R102: a register written: s0 discards, qi as a port discards, qo as a port pushes, any other register holds the
value and no other register of any slot changes. -/
def Obligations.QueuePortsAndRegisters : Prop := Claims.QueuePorts ∧ Claims.RegisterWrite

/-- R110, R111, R123: the words of the core control window above the mailboxes, written by STD. An offset with no word ignores the write,
and TLBINV whose bits [15:1] are not 0 traps ALIGN. R123, R111: the same words by the supervisor's own event; no translation that covers the
address is left anywhere, and none of another world is touched. Says that these complete: std, tlbinvWrite, seqRegisterWrite. -/
def Obligations.ControlWindow : Prop := Claims.ControlWindow ∧ Claims.SupervisorRegisters

/-- R126, R127: LDF, LDFK and STE. The thread's own earlier stores to the word are performed first. A request that the word's bit admits,
and before which no waiting request stands that the bit admits, is served; any other is queued behind those that wait. R127: STF writes
whatever the bit; FECLR empties the word; FEQ reads the bit. None of them waits for the bit, and each comes after the thread's own stores to
the word, and after the waiting requests that the bit admits have been served. FE_WAITER_SERVED serves the oldest request that the bit
admits, and its instruction completes. Says that these complete: ldf, ldfk, ste, stf, feclr, feq, feWaiterServed. -/
def Obligations.FullEmptyRequests : Prop := Claims.FullEmptyRequests ∧ Claims.FullEmptyOther

/-- R129 to R133, R168: TLD. The layout record is read and checked, the tile takes the window's valid region, and its rows are loaded in
ascending order, from the row of k.restart where the instruction resumes. R131 to R133, R326: a row loaded is written whole into its tile
row, with its scale where the layout has scales; nothing else of the slot's tiles changes, and no byte of memory. TLD completes where its
layout record, its rows and their scales can be read; the tile has the window's valid region (R130 to R133). Says that these complete: tld.
-/
def Obligations.TileLoad : Prop := Claims.TileLoad ∧ Claims.LoadedRow ∧ Claims.TldCompletes

/-- R129 to R133, R168: TST. The rows that both the window and the tile's valid region hold are stored in ascending order; each enters the
store buffer whole. Its release comes first. TST completes where its layout record can be read, its rows can be written and the store buffer
has room for them, an entry a row (R131, R244). Says that these complete: tst. -/
def Obligations.TileStore : Prop := Claims.TileStore ∧ Claims.TstCompletes

/-- R134, R168: TLDS and TSTS move rows between a tile and a local window, `pitch` bytes apart. R135, R168: TLDX gathers, and TSTX scatters,
the tensor rows that an index tile of INT32 names. TLDS and TSTS complete where their rows lie in one local window and can be read or
written (R134). TLDX and TSTX complete where their layout record can be read, every index names a row of the tensor, and those rows can be
read or written (R135). Says that these complete: tlds, tsts, tldx, tstx. -/
def Obligations.TileLocalAndIndexed : Prop := Claims.TileLocal ∧ Claims.TileIndexed ∧ Claims.LocalTransfersComplete ∧ Claims.IndexedTransfersComplete

/-- R192 to R195, R168: LDSTAT and LDSCL write the shadow half of a plane that the slot owns, LDPROJ a chunk of the projection buffer, row
by row. LDSCL writes all 128 scales with its one row, 1.0 beyond the window; a window of no column leaves 1.0 in every entry. LDSTAT, LDSCL
and LDPROJ complete where their layout record and the rows of their window can be read; the first two in a slot that owns the plane, LDPROJ
while no instruction of another slot reads its chunk of the projection buffer (R192 to R195). Says that these complete: ldstat, ldproj,
ldscl. -/
def Obligations.PlaneLoads : Prop := Claims.PlaneLoads ∧ Claims.PlaneLoadsComplete

/-- R254 to R258, R168: KVLD, KVST and KVMULT, outside the copy slot. The descriptor and the sequence's header are checked; tokens go to
plane columns, from tile rows, and their multiplicities to a tile of one row. KVLD, KVST without its append, and KVMULT complete outside the
copy slot where the descriptor keeps its rules, the header can be read, and the tokens, or their multiplicities, can be read or written
(R254 to R258). Says that these complete: kvld, kvst, kvmult. -/
def Obligations.SequenceTransfers : Prop := Claims.SequenceTransfers ∧ Claims.SequenceTransfersComplete

/-- R172, R174: a two-source tile instruction that begins and is not stopped by a NaN trap (R163). R168, R199: the same instruction resumed
at a row of k.restart: the rows before it are as they were, and the rows from it on are computed. Says that these complete: tadd, tsub,
tmul, tmax, tmin, tiadd, tisub, timul, tand, tor, txor, tshl, tshr. -/
def Obligations.TileTwoSources : Prop := Claims.TileTwoSources ∧ Claims.TileResumes

/-- R175, R176, R181: the one-source and scalar-broadcast instructions. The scalar is the FP32 in its low bits for floating elements, and a
signed 64-bit integer for integer ones. R179: a comparison delivers a MASK tile of 1s and 0s, raises no flag and does not trap on a NaN;
TISNAN too. Says that these complete: texp, texp2, tlog2, trcp, trsq, tabs, tneg, tcvt, tceq, tclt, tcle, tcne, tisnan, tcltu, tcleu, tadds,
tmuls, tmaxs, tsubs. -/
def Obligations.TileOneSource : Prop := Claims.TileOneSource ∧ Claims.TileCompares

/-- R177: the reductions, over rows (one column) and over columns (one row). R178: TBROW spreads row 0, TBCOL column 0, TTRANS transposes,
TMOV copies shape, elements and row scales; none computes, so that no NaN traps (R163). Says that these complete: trsum, trmax, tcsum,
tcmax, tbrow, tbcol, ttrans, tmov. -/
def Obligations.TileReductionsAndMoves : Prop := Claims.TileReductions ∧ Claims.TileMoves

/-- R160, R172: sums and products of finite numbers are formed exactly, before the one rounding. R150 to R153: a number that a format holds
is delivered in it unchanged, in every rounding mode, without a flag. R160: the K-step sum of the 8-bit formats is exact: the sum of the
products of the finite elements. R174, R180: integer results saturate to their type and raise ISAT exactly then. -/
def Obligations.ExactArithmetic : Prop := Claims.ExactArithmetic ∧ Claims.RepresentableUnchanged ∧ Claims.ExactKStep ∧ Claims.IntegerSaturation

/-- R182, R183: a receiving instruction takes the items of its channel up to END, in order, and completes; where the channel is empty it
waits, with k.restart at the number of rows taken. R184: TSEND places its tile's valid rows, then END, into the channel of the downstream
core, of the same world; what does not fit is placed by CHANNEL_ITEM_PLACEMENT as room appears, which completes the instruction with its
END. Says that these complete: tsadd, tsmax, tscpy, tsfma, tsend, send, channelItemPlacement. -/
def Obligations.Streams : Prop := Claims.StreamReceive ∧ Claims.StreamSend

/-- R201: EPEXP and EPABS deliver what the Eyepiece forms, as BF16, into a tile of 32 columns. R259, R262: SCOREB adds the logarithm of each
multiplicity to a score; TRIPC joins two rows of partial results by their running maxima. Says that these complete: epexp, epabs, scoreb,
tripc. -/
def Obligations.EyepieceAndAttentionTiles : Prop := Claims.EyepieceTiles ∧ Claims.AttentionTiles

/-- R136, R138: in the copy slot, a descriptor that keeps the rules is accepted: its mailbox block is emptied, its ranges are checked under
the requester's chain, the requester is charged, and the copy stands in the engine behind the others. A range that fails leaves the copy
held, and the requester is told (R141). In any other slot the three instructions trap PRIV. R142: DRAIN waits while its slot's mailbox block
holds a descriptor or an accepted copy of the slot to the path has not ended; then the slot's earlier stores to the path have been
performed, and path 3 acquires at system scope. Says that these complete: cpy, cpy2d, cpyl, drain. -/
def Obligations.CopiesAccepted : Prop := Claims.CopyAcceptance ∧ Claims.Drain

/-- R139 to R141: a running copy that no earlier one of its requester blocks moves its next chunk of at most 64 bytes, which lands on the
copy's barrier with the write; a check that fails holds it there and tells the requester; a copy that ends sends its message, where its
descriptor asks for one; a fault that waits with its requester's slot traps it at an instruction boundary. R284: what the supervisor does
with the oldest held copy of a slot and tag: CPYRETRY makes it run again, checked as at acceptance where it had not been accepted, and its
layout read where it had not been; CPYSKIP drops the failed chunk of a CPY, or the rest of the failed row, and makes the acceptance again
where there was none; CPYABORT ends it. Where the layout could not be read, the count of the bytes dropped is free (log 96). The bytes not
written are subtracted from its barrier. Outside the supervisor slot they trap PRIV. COPY_CHUNK completes where the copy's next chunk can be
read and written and no word is reserved: the copy has moved on (R139). Says that these complete: cpyretry, cpyskip, cpyabort, copyChunk,
copyCompletionMessage, copyfaultDelivery. -/
def Obligations.CopiesRun : Prop := Claims.CopyProgress ∧ Claims.HeldCopies ∧ Claims.CopyChunkCompletes

/-- R11, R62, R63, R66: a search fills the lowest free work slot from the highest band that has work: a ready context returns, else the
local end of the deque is popped, else a steal begins; a probe takes the far-end packet whose scope admits the thief. A packet's task starts
with the registers that R11 gives it. R59, R60, R64, R66, R101, R274: the distributor, aging, swap-in, the moving of a waiting context, and
the records of the rotation. Says that these complete: slotSearch, stealProbeResult, distributorDelivery, packetAging, contextAging,
queueSegmentSwapIn, contextMove, quantumExpiry, preemptReq. -/
def Obligations.SlotSearchesAndQueues : Prop := Claims.SlotSearches ∧ Claims.QueueEvents

/-- R240 to R242, R268: EPUSH stages a word after a release, and the last word of a command hands it over; a command that is not well formed
is refused with status 0x01; EPOP takes the oldest result with the engine's acquire, or waits; EQRY answers results, staged words and
unfinished commands; DMERGE, outside the copy slot, goes on to its result. An engine part that the firewall does not let the thread's world
use traps FIREWALL. R241, R265 to R267: what the engines do. e0's command ends with its merge; GATHER copies the row that the next index
names; MERGE_PAGES reads, merges and writes back the next page, unless a KVLD or KVST stands between two of its tokens; SET_TAU sets the
world's threshold. A failed check ends the command with its status. Says that these complete: epush, epop, eqry, dmerge, e0Merge, gather,
mergePages, setTau. -/
def Obligations.Engines : Prop := Claims.EngineQueues ∧ Claims.EngineSteps

/-- R302 to R306: the collective engine. A device whose children's contributions have come reads its source, combines it with them in port
order, and sends it to its parent; the root narrows, sends the result down and writes its destination; a device that gets the result passes
it on and writes it. SEND, RECV and PKTSEND move bytes on one port. A frame that does not match fails the group with MISMATCH, and a
transfer that failed with its code. R296 to R301, R305: a verified group of flits is released flit by flit, and its counter steps; a group
that does not verify takes the link down; a group of a generation that has retired or expired is discarded. PAUSE and RESUME, received and
sent; a generation that ends in a direction with no other takes the link down; a rotation installs a new key in the idle generation and
retires the old one; a link comes up only where both ends have proved themselves; a failure notice fails its collective. The engines'
commands complete, row by row, page by page or whole, where what they read and write passes R99 and no word is reserved: GATHER,
MERGE_PAGES, ALLREDUCE, ALLGATHER and REDUCESCATTER, SEND, RECV and PKTSEND (R241, R266, R302 to R304). Says that these complete: gather,
mergePages, allreduce, allgather, reducescatter, send, recv, pktsend, linkKeyGenerationExpiry, flitReceive, pauseFlit, resumeFlit,
retireFlit, linkUp, linkDown, linkKeyRotation, collectiveFailureNotice. -/
def Obligations.CollectivesAndLinks : Prop := Claims.Collectives ∧ Claims.Links ∧ Claims.EngineCommandsComplete

/-- R86, R100, R272: KRD and KWR. A program reads its own registers; the supervisor those of the slot in k.slotsel, 0 where that is FREE;
k.trapq gives its oldest record up; a program writes only k.fpc and k.flags, and any other write traps PRIV, an unknown index ILLEGAL. KRD
of each register of R86 and KWR of k.fpc and k.flags complete in a slot of a program; KRD of the core's registers, of k.trapq and k.vbase,
and KWR of the registers of a slot that is not FREE, of k.vbase, k.slotsel and k.trapq complete in the supervisor's. TRAPQ_POP and
TRAPQ_CLEAR take records away. Says that these complete: krd, kwr, trapqPop, trapqClear. -/
def Obligations.ControlRegisters : Prop := Claims.ControlRegisters ∧ Claims.RegistersComplete

/-- R280 to R283: CTXOUT seals a context of the cache under the next counter of its index and writes the image, or answers 0 where it has no
room; CTXIN admits the image of the current counter alone, once, or traps CTX_STALE or CTX_TAG; after the key's lease both trap KEYLEASE.
CTXOUT completes where its descriptor can be read, the entry that it names stands in the cache, the key's lease runs, the destination can
hold the image and be written, and no word is reserved; it answers the image's length, and the index has its next counter (R280, R282).
CTXIN completes where the descriptor and the image can be read, the cache has room, and the image is the current one of its index under the
world's key; the entry stands held in the cache, and the counter has moved on (R281, R283). Says that these complete: ctxout, ctxin. -/
def Obligations.ContextImages : Prop := Claims.ContextImages ∧ Claims.ContextImagesComplete

/-- R202 to R208, R215, R216: CHRD reads a chain's links with their effective shares; ADOPT interns a link under the caller's chain, splits
the segment and acts under it; UNADOPT returns to the parent; METRD answers the meter, or a link's part, as it stood before its own issue;
CAPCHK answers whether an access would be authorised. The parts of a split add up to what was split. R13, R211, R293: a revocation raises
the principal's generation, marks the entries of its passes, 64 a cycle, ends after the eighth pass with the rule caches flushed, and
answers the new generation. A revocation that waits when its world stops makes none of its steps (the model's choice, log 40). CAPCHK
completes, whatever it finds, without an access: its predicate says whether the chain has the authority (R208). Says that these complete:
chrd, adopt, unadopt, metrd, capchk, revocationSweep, revocationComplete. -/
def Obligations.ChainsAndRevocation : Prop := Claims.ChainInstructions ∧ Claims.Revocation ∧ Claims.CapchkCompletes

/-- R33, R35, R50, R286, R292, R327: GET_INFO, LOAD_IMAGE, LAUNCH, METER_READ, DEBUG_ATTACH. R13, R17, R18, R217: principals, rule sets and
capabilities. R32, R39, R42, R43, R56, R293, R295, R325: worlds come and go, leases are renewed, and the HBM is saved and restored. Says
that these complete: zeroingComplete, getInfo, worldCreate, worldAssign, worldDestroy, loadImage, launch, principalAdd, principalRevoke,
ruleSet, capCreate, capDestroy, leaseRenewWorldMemory, leaseRenewIdeStream, leaseRenewContextSave, meterRead, checkpointSave,
checkpointRestore, debugAttach, debugDetach. -/
def Obligations.Commands : Prop := Claims.CommandsOfAWorld ∧ Claims.CommandsOfAuthority ∧ Claims.CommandsOfWorlds

/-- R25, R43, R48 to R52, R55: the mailboxes. Plain requests are answered once boot has run; an object over 128 KiB sets the error bit;
CHALLENGE and KEY_EXCHANGE are answered in boot state GOOD alone; certificates come from slots 0 and 1; a report carries a nonce that is
recorded with its session and measurements, and the attestation key's signature; four sessions at most; IDE keys are programmed, for each
direction, and set going over a secured session. The codes of the answers are those of the standards (log 27). R34, R40, R42, R44, R52,
R285: TDISP, over an established session, and the expiries. LOCK needs a world that has not stopped and programmed keys; START runs; STOP, a
locked configuration's write, an integrity failure, the end of the bound session and the expiry of the memory key stop the world. Says that
these complete: doeDiscovery, getVersion, getCapabilities, negotiateAlgorithms, getDigests, getCertificate, challenge, getMeasurements,
keyExchange, finish, heartbeat, keyUpdate, endSession, sessionTimeout, lockInterfaceRequest, startInterfaceRequest, stopInterfaceRequest,
lockedConfigWrite, keyProg, keySetGo, ideKeySetSwitch, ideKeySetRetire, ideIntegrityFailure, worldKeyLeaseExpiry, ideKeySetExpiry,
contextSaveKeyExpiry, checkpointKeyExpiry, sessionAeadFailure. -/
def Obligations.MailboxesAndInterfaces : Prop := Claims.Mailboxes ∧ Claims.Interfaces

/-- R85, R93 to R96, R102: the frame of the register-only instructions. Of the machine only the acting slot changes, and its core's event
counters; in the slot the registers but d, the predicates, tiles, accumulators, and every special register stay as they were; the pc moves
behind the instruction. The compares change one predicate alone. R84, R99, R125, R244: the frame of loads and stores. A load changes of the
program's state its register alone; a store changes none, and the bytes it stores go to its core's store buffer, behind what stood there,
for the place that the checks of its address give. Memory reads as before, but for an HBM line that passes by chance under a key that did
not write it (R323, log 6). -/
def Obligations.Frames : Prop := Claims.RegisterOnlyFrame ∧ Claims.LoadsAndStoresFrame
end

