-- ==== Sys2Proof/Laws/Sparse.lean ====
section
/-! SUPPORT. Sparse maps: reading after writing, and the canonical form that every operation keeps. -/

namespace Sys2Proof.Sparse

variable {α : Type}

@[simp] theorem get_nil (d : α) (k : Nat) : get d ([] : Sparse α) k = d := rfl

@[simp] theorem get_cons (d : α) (j : Nat) (v : α) (m : Sparse α) (k : Nat) :
    get d ((j, v) :: m) k = if j = k then v else get d m k := rfl

theorem get_put (d : α) (m : Sparse α) (j k : Nat) (v : α) : get d (put m j v) k = if j = k then v else get d m k := by
  induction m with
  | nil => simp [put]
  | cons e m ih =>
    obtain ⟨i, w⟩ := e
    simp only [put]
    split
    · simp
    · split
      · next h => subst h; by_cases hk : j = k <;> simp [hk]
      · next h1 h2 =>
        simp only [get_cons, ih]
        by_cases hk : i = k
        · subst hk; simp [h2]
        · simp [hk]

/-- Reading where a value has been put. -/
@[simp] theorem get_put_self (d : α) (m : Sparse α) (k : Nat) (v : α) : get d (put m k v) k = v := by simp [get_put]

/-- Reading elsewhere. -/
theorem get_put_of_ne (d : α) (m : Sparse α) {j k : Nat} (v : α) (h : j ≠ k) : get d (put m j v) k = get d m k := by
  simp [get_put, h]

@[simp] theorem put_put (m : Sparse α) (k : Nat) (v w : α) : put (put m k v) k w = put m k w := by
  induction m with
  | nil => simp [put]
  | cons e m ih =>
    obtain ⟨j, x⟩ := e
    simp only [put]
    split
    · simp [put]
    · split
      · simp [put]
      · next h1 h2 => simp [put, h1, h2, ih]

theorem get_drop (d : α) (m : Sparse α) (j k : Nat) : get d (drop m j) k = if j = k then d else get d m k := by
  induction m with
  | nil => simp [drop]
  | cons e m ih =>
    obtain ⟨i, w⟩ := e
    simp only [drop]
    split
    · next h =>
      subst h
      rw [ih]
      by_cases hk : i = k <;> simp [hk]
    · next h =>
      simp only [get_cons, ih]
      by_cases hk : i = k
      · subst hk; simp [Ne.symm h]
      · simp [hk]

theorem get_set [DecidableEq α] (d : α) (m : Sparse α) (j k : Nat) (v : α) :
    get d (set d m j v) k = if j = k then v else get d m k := by
  unfold set
  split
  · next h => subst h; exact get_drop v m j k
  · exact get_put d m j k v

@[simp] theorem get_set_self [DecidableEq α] (d : α) (m : Sparse α) (k : Nat) (v : α) : get d (set d m k v) k = v := by
  simp [get_set]

theorem get_set_of_ne [DecidableEq α] (d : α) (m : Sparse α) {j k : Nat} (v : α) (h : j ≠ k) :
    get d (set d m j v) k = get d m k := by
  simp [get_set, h]

/-! ## The canonical form -/

theorem risingFrom_mono {lo hi : Nat} {m : Sparse α} (h : risingFrom hi m = true) (hl : lo ≤ hi) : risingFrom lo m = true := by
  cases m with
  | nil => rfl
  | cons e m =>
    obtain ⟨j, v⟩ := e
    simp only [risingFrom, Bool.and_eq_true, decide_eq_true_eq] at h ⊢
    exact ⟨by omega, h.2⟩

theorem risingFrom_put {lo : Nat} {m : Sparse α} {k : Nat} (v : α) (h : risingFrom lo m = true) (hk : lo ≤ k) :
    risingFrom lo (put m k v) = true := by
  induction m generalizing lo with
  | nil => simp [put, risingFrom, hk]
  | cons e m ih =>
    obtain ⟨j, w⟩ := e
    simp only [risingFrom, Bool.and_eq_true, decide_eq_true_eq] at h
    simp only [put]
    split
    · next hlt => simp [risingFrom, hk, h.2, Nat.succ_le_of_lt hlt]
    · split
      · next heq => subst heq; simp [risingFrom, hk, h.2]
      · next h1 h2 => simp [risingFrom, h.1, ih h.2 (by omega)]

theorem risingFrom_drop {lo : Nat} {m : Sparse α} {k : Nat} (h : risingFrom lo m = true) : risingFrom lo (drop m k) = true := by
  induction m generalizing lo with
  | nil => rfl
  | cons e m ih =>
    obtain ⟨j, w⟩ := e
    simp only [risingFrom, Bool.and_eq_true, decide_eq_true_eq] at h
    simp only [drop]
    split
    · exact risingFrom_mono (ih h.2) (by omega)
    · simp [risingFrom, h.1, ih h.2]

theorem noDefault_put [DecidableEq α] {d : α} {m : Sparse α} {k : Nat} {v : α} (h : noDefault d m = true) (hv : v ≠ d) :
    noDefault d (put m k v) = true := by
  induction m with
  | nil => simp [put, noDefault, hv]
  | cons e m ih =>
    obtain ⟨j, w⟩ := e
    simp only [noDefault, Bool.and_eq_true, decide_eq_true_eq] at h
    simp only [put]
    split
    · simp [noDefault, hv, h]
    · split
      · simp [noDefault, hv, h]
      · simp [noDefault, h.1, ih h.2]

theorem noDefault_drop [DecidableEq α] {d : α} {m : Sparse α} {k : Nat} (h : noDefault d m = true) :
    noDefault d (drop m k) = true := by
  induction m with
  | nil => rfl
  | cons e m ih =>
    obtain ⟨j, w⟩ := e
    simp only [noDefault, Bool.and_eq_true, decide_eq_true_eq] at h
    simp only [drop]
    split
    · exact ih h.2
    · simp [noDefault, h.1, ih h.2]

/-- Writing a value keeps the canonical form. -/
theorem wf_set [DecidableEq α] {d : α} {m : Sparse α} {k : Nat} {v : α} (h : wf d m = true) : wf d (set d m k v) = true := by
  simp only [wf, Bool.and_eq_true] at h ⊢
  unfold set
  split
  · exact ⟨risingFrom_drop h.1, noDefault_drop h.2⟩
  · next hv => exact ⟨risingFrom_put v h.1 (Nat.zero_le _), noDefault_put h.2 hv⟩

theorem risingFrom_filter {lo : Nat} {m : Sparse α} (f : Nat × α → Bool) (h : risingFrom lo m = true) :
    risingFrom lo (m.filter f) = true := by
  induction m generalizing lo with
  | nil => rfl
  | cons e m ih =>
    obtain ⟨j, w⟩ := e
    simp only [risingFrom, Bool.and_eq_true, decide_eq_true_eq] at h
    rw [List.filter_cons]
    split
    · simp [risingFrom, h.1, ih h.2]
    · exact risingFrom_mono (ih h.2) (by omega)

theorem noDefault_filter [DecidableEq α] {d : α} {m : Sparse α} (f : Nat × α → Bool) (h : noDefault d m = true) :
    noDefault d (m.filter f) = true := by
  induction m with
  | nil => rfl
  | cons e m ih =>
    obtain ⟨j, w⟩ := e
    simp only [noDefault, Bool.and_eq_true, decide_eq_true_eq] at h
    rw [List.filter_cons]
    split
    · simp [noDefault, h.1, ih h.2]
    · exact ih h.2

/-- Dropping entries keeps the canonical form. -/
theorem wf_filter [DecidableEq α] {d : α} {m : Sparse α} (f : Nat × α → Bool) (h : wf d m = true) : wf d (m.filter f) = true := by
  simp only [wf, Bool.and_eq_true] at h ⊢
  exact ⟨risingFrom_filter f h.1, noDefault_filter f h.2⟩

/-- A key below every key of the map reads the default. -/
theorem get_of_risingFrom {d : α} {lo k : Nat} {m : Sparse α} (h : risingFrom lo m = true) (hk : k < lo) : get d m k = d := by
  induction m generalizing lo with
  | nil => rfl
  | cons e m ih =>
    obtain ⟨j, w⟩ := e
    simp only [risingFrom, Bool.and_eq_true, decide_eq_true_eq] at h
    rw [get_cons, if_neg (by omega)]
    exact ih h.2 (by omega)

end Sys2Proof.Sparse
end

