-- ==== Sys2Proof/Laws/State.lean ====
section
/-! SUPPORT. One lemma per field per update of the state, of a core and of a slot: what an update leaves alone. -/

namespace Sys2Proof.Machine

/-! ### `State.setCore` -/

@[simp] theorem State.setCore_power (s : State) (c : Nat) (v : Core) : (s.setCore c v).power = s.power := rfl
@[simp] theorem State.setCore_booted (s : State) (c : Nat) (v : Core) : (s.setCore c v).booted = s.booted := rfl
@[simp] theorem State.setCore_bootState (s : State) (c : Nat) (v : Core) : (s.setCore c v).bootState = s.bootState := rfl
@[simp] theorem State.setCore_meridian (s : State) (c : Nat) (v : Core) : (s.setCore c v).meridian = s.meridian := rfl
@[simp] theorem State.setCore_cycle (s : State) (c : Nat) (v : Core) : (s.setCore c v).cycle = s.cycle := rfl
@[simp] theorem State.setCore_firewallR (s : State) (c : Nat) (v : Core) : (s.setCore c v).firewallR = s.firewallR := rfl
@[simp] theorem State.setCore_firewallW (s : State) (c : Nat) (v : Core) : (s.setCore c v).firewallW = s.firewallW := rfl
@[simp] theorem State.setCore_firewallLock (s : State) (c : Nat) (v : Core) : (s.setCore c v).firewallLock = s.firewallLock := rfl
@[simp] theorem State.setCore_mem (s : State) (c : Nat) (v : Core) : (s.setCore c v).mem = s.mem := rfl
@[simp] theorem State.setCore_lineKeys (s : State) (c : Nat) (v : Core) : (s.setCore c v).lineKeys = s.lineKeys := rfl
@[simp] theorem State.setCore_eccBad (s : State) (c : Nat) (v : Core) : (s.setCore c v).eccBad = s.eccBad := rfl
@[simp] theorem State.setCore_keySerial (s : State) (c : Nat) (v : Core) : (s.setCore c v).keySerial = s.keySerial := rfl
@[simp] theorem State.setCore_attKey (s : State) (c : Nat) (v : Core) : (s.setCore c v).attKey = s.attKey := rfl
@[simp] theorem State.setCore_full (s : State) (c : Nat) (v : Core) : (s.setCore c v).full = s.full := rfl
@[simp] theorem State.setCore_feWaiters (s : State) (c : Nat) (v : Core) : (s.setCore c v).feWaiters = s.feWaiters := rfl
@[simp] theorem State.setCore_banks (s : State) (c : Nat) (v : Core) : (s.setCore c v).banks = s.banks := rfl
@[simp] theorem State.setCore_barWaiters (s : State) (c : Nat) (v : Core) : (s.setCore c v).barWaiters = s.barWaiters := rfl
@[simp] theorem State.setCore_waitTable (s : State) (c : Nat) (v : Core) : (s.setCore c v).waitTable = s.waitTable := rfl
@[simp] theorem State.setCore_l2 (s : State) (c : Nat) (v : Core) : (s.setCore c v).l2 = s.l2 := rfl
@[simp] theorem State.setCore_msc (s : State) (c : Nat) (v : Core) : (s.setCore c v).msc = s.msc := rfl
@[simp] theorem State.setCore_wayMasks (s : State) (c : Nat) (v : Core) : (s.setCore c v).wayMasks = s.wayMasks := rfl
@[simp] theorem State.setCore_dieTlb (s : State) (c : Nat) (v : Core) : (s.setCore c v).dieTlb = s.dieTlb := rfl
@[simp] theorem State.setCore_clusterTlb (s : State) (c : Nat) (v : Core) : (s.setCore c v).clusterTlb = s.clusterTlb := rfl
@[simp] theorem State.setCore_ruleCaches (s : State) (c : Nat) (v : Core) : (s.setCore c v).ruleCaches = s.ruleCaches := rfl
@[simp] theorem State.setCore_principals (s : State) (c : Nat) (v : Core) : (s.setCore c v).principals = s.principals := rfl
@[simp] theorem State.setCore_chains (s : State) (c : Nat) (v : Core) : (s.setCore c v).chains = s.chains := rfl
@[simp] theorem State.setCore_sweep (s : State) (c : Nat) (v : Core) : (s.setCore c v).sweep = s.sweep := rfl
@[simp] theorem State.setCore_revocations (s : State) (c : Nat) (v : Core) : (s.setCore c v).revocations = s.revocations := rfl
@[simp] theorem State.setCore_worlds (s : State) (c : Nat) (v : Core) : (s.setCore c v).worlds = s.worlds := rfl
@[simp] theorem State.setCore_fns (s : State) (c : Nat) (v : Core) : (s.setCore c v).fns = s.fns := rfl
@[simp] theorem State.setCore_net (s : State) (c : Nat) (v : Core) : (s.setCore c v).net = s.net := rfl
@[simp] theorem State.setCore_engCmds (s : State) (c : Nat) (v : Core) : (s.setCore c v).engCmds = s.engCmds := rfl
@[simp] theorem State.setCore_engResults (s : State) (c : Nat) (v : Core) : (s.setCore c v).engResults = s.engResults := rfl
@[simp] theorem State.setCore_ports (s : State) (c : Nat) (v : Core) : (s.setCore c v).ports = s.ports := rfl
@[simp] theorem State.setCore_dies (s : State) (c : Nat) (v : Core) : (s.setCore c v).dies = s.dies := rfl
@[simp] theorem State.setCore_uncore (s : State) (c : Nat) (v : Core) : (s.setCore c v).uncore = s.uncore := rfl
@[simp] theorem State.setCore_powerCap (s : State) (c : Nat) (v : Core) : (s.setCore c v).powerCap = s.powerCap := rfl
@[simp] theorem State.setCore_powerNow (s : State) (c : Nat) (v : Core) : (s.setCore c v).powerNow = s.powerNow := rfl
@[simp] theorem State.setCore_mctp (s : State) (c : Nat) (v : Core) : (s.setCore c v).mctp = s.mctp := rfl
@[simp] theorem State.setCore_cxlReply (s : State) (c : Nat) (v : Core) : (s.setCore c v).cxlReply = s.cxlReply := rfl
@[simp] theorem State.setCore_ckptKey (s : State) (c : Nat) (v : Core) : (s.setCore c v).ckptKey = s.ckptKey := rfl
@[simp] theorem State.setCore_ckptExpiry (s : State) (c : Nat) (v : Core) : (s.setCore c v).ckptExpiry = s.ckptExpiry := rfl
@[simp] theorem State.setCore_ckptSerial (s : State) (c : Nat) (v : Core) : (s.setCore c v).ckptSerial = s.ckptSerial := rfl
@[simp] theorem State.setCore_schedule (s : State) (c : Nat) (v : Core) : (s.setCore c v).schedule = s.schedule := rfl
@[simp] theorem State.setCore_freeCtr (s : State) (c : Nat) (v : Core) : (s.setCore c v).freeCtr = s.freeCtr := rfl
@[simp] theorem State.setCore_uidCtr (s : State) (c : Nat) (v : Core) : (s.setCore c v).uidCtr = s.uidCtr := rfl
@[simp] theorem State.setCore_turnPtr (s : State) (c : Nat) (v : Core) : (s.setCore c v).turnPtr = s.turnPtr := rfl
@[simp] theorem State.setCore_cur (s : State) (c : Nat) (v : Core) : (s.setCore c v).cur = s.cur := rfl

/-! ### `State.modCore` -/

@[simp] theorem State.modCore_power (s : State) (c : Nat) (f : Core → Core) : (s.modCore c f).power = s.power := rfl
@[simp] theorem State.modCore_booted (s : State) (c : Nat) (f : Core → Core) : (s.modCore c f).booted = s.booted := rfl
@[simp] theorem State.modCore_bootState (s : State) (c : Nat) (f : Core → Core) : (s.modCore c f).bootState = s.bootState := rfl
@[simp] theorem State.modCore_meridian (s : State) (c : Nat) (f : Core → Core) : (s.modCore c f).meridian = s.meridian := rfl
@[simp] theorem State.modCore_cycle (s : State) (c : Nat) (f : Core → Core) : (s.modCore c f).cycle = s.cycle := rfl
@[simp] theorem State.modCore_firewallR (s : State) (c : Nat) (f : Core → Core) : (s.modCore c f).firewallR = s.firewallR := rfl
@[simp] theorem State.modCore_firewallW (s : State) (c : Nat) (f : Core → Core) : (s.modCore c f).firewallW = s.firewallW := rfl
@[simp] theorem State.modCore_firewallLock (s : State) (c : Nat) (f : Core → Core) : (s.modCore c f).firewallLock = s.firewallLock := rfl
@[simp] theorem State.modCore_mem (s : State) (c : Nat) (f : Core → Core) : (s.modCore c f).mem = s.mem := rfl
@[simp] theorem State.modCore_lineKeys (s : State) (c : Nat) (f : Core → Core) : (s.modCore c f).lineKeys = s.lineKeys := rfl
@[simp] theorem State.modCore_eccBad (s : State) (c : Nat) (f : Core → Core) : (s.modCore c f).eccBad = s.eccBad := rfl
@[simp] theorem State.modCore_keySerial (s : State) (c : Nat) (f : Core → Core) : (s.modCore c f).keySerial = s.keySerial := rfl
@[simp] theorem State.modCore_attKey (s : State) (c : Nat) (f : Core → Core) : (s.modCore c f).attKey = s.attKey := rfl
@[simp] theorem State.modCore_full (s : State) (c : Nat) (f : Core → Core) : (s.modCore c f).full = s.full := rfl
@[simp] theorem State.modCore_feWaiters (s : State) (c : Nat) (f : Core → Core) : (s.modCore c f).feWaiters = s.feWaiters := rfl
@[simp] theorem State.modCore_banks (s : State) (c : Nat) (f : Core → Core) : (s.modCore c f).banks = s.banks := rfl
@[simp] theorem State.modCore_barWaiters (s : State) (c : Nat) (f : Core → Core) : (s.modCore c f).barWaiters = s.barWaiters := rfl
@[simp] theorem State.modCore_waitTable (s : State) (c : Nat) (f : Core → Core) : (s.modCore c f).waitTable = s.waitTable := rfl
@[simp] theorem State.modCore_l2 (s : State) (c : Nat) (f : Core → Core) : (s.modCore c f).l2 = s.l2 := rfl
@[simp] theorem State.modCore_msc (s : State) (c : Nat) (f : Core → Core) : (s.modCore c f).msc = s.msc := rfl
@[simp] theorem State.modCore_wayMasks (s : State) (c : Nat) (f : Core → Core) : (s.modCore c f).wayMasks = s.wayMasks := rfl
@[simp] theorem State.modCore_dieTlb (s : State) (c : Nat) (f : Core → Core) : (s.modCore c f).dieTlb = s.dieTlb := rfl
@[simp] theorem State.modCore_clusterTlb (s : State) (c : Nat) (f : Core → Core) : (s.modCore c f).clusterTlb = s.clusterTlb := rfl
@[simp] theorem State.modCore_ruleCaches (s : State) (c : Nat) (f : Core → Core) : (s.modCore c f).ruleCaches = s.ruleCaches := rfl
@[simp] theorem State.modCore_principals (s : State) (c : Nat) (f : Core → Core) : (s.modCore c f).principals = s.principals := rfl
@[simp] theorem State.modCore_chains (s : State) (c : Nat) (f : Core → Core) : (s.modCore c f).chains = s.chains := rfl
@[simp] theorem State.modCore_sweep (s : State) (c : Nat) (f : Core → Core) : (s.modCore c f).sweep = s.sweep := rfl
@[simp] theorem State.modCore_revocations (s : State) (c : Nat) (f : Core → Core) : (s.modCore c f).revocations = s.revocations := rfl
@[simp] theorem State.modCore_worlds (s : State) (c : Nat) (f : Core → Core) : (s.modCore c f).worlds = s.worlds := rfl
@[simp] theorem State.modCore_fns (s : State) (c : Nat) (f : Core → Core) : (s.modCore c f).fns = s.fns := rfl
@[simp] theorem State.modCore_net (s : State) (c : Nat) (f : Core → Core) : (s.modCore c f).net = s.net := rfl
@[simp] theorem State.modCore_engCmds (s : State) (c : Nat) (f : Core → Core) : (s.modCore c f).engCmds = s.engCmds := rfl
@[simp] theorem State.modCore_engResults (s : State) (c : Nat) (f : Core → Core) : (s.modCore c f).engResults = s.engResults := rfl
@[simp] theorem State.modCore_ports (s : State) (c : Nat) (f : Core → Core) : (s.modCore c f).ports = s.ports := rfl
@[simp] theorem State.modCore_dies (s : State) (c : Nat) (f : Core → Core) : (s.modCore c f).dies = s.dies := rfl
@[simp] theorem State.modCore_uncore (s : State) (c : Nat) (f : Core → Core) : (s.modCore c f).uncore = s.uncore := rfl
@[simp] theorem State.modCore_powerCap (s : State) (c : Nat) (f : Core → Core) : (s.modCore c f).powerCap = s.powerCap := rfl
@[simp] theorem State.modCore_powerNow (s : State) (c : Nat) (f : Core → Core) : (s.modCore c f).powerNow = s.powerNow := rfl
@[simp] theorem State.modCore_mctp (s : State) (c : Nat) (f : Core → Core) : (s.modCore c f).mctp = s.mctp := rfl
@[simp] theorem State.modCore_cxlReply (s : State) (c : Nat) (f : Core → Core) : (s.modCore c f).cxlReply = s.cxlReply := rfl
@[simp] theorem State.modCore_ckptKey (s : State) (c : Nat) (f : Core → Core) : (s.modCore c f).ckptKey = s.ckptKey := rfl
@[simp] theorem State.modCore_ckptExpiry (s : State) (c : Nat) (f : Core → Core) : (s.modCore c f).ckptExpiry = s.ckptExpiry := rfl
@[simp] theorem State.modCore_ckptSerial (s : State) (c : Nat) (f : Core → Core) : (s.modCore c f).ckptSerial = s.ckptSerial := rfl
@[simp] theorem State.modCore_schedule (s : State) (c : Nat) (f : Core → Core) : (s.modCore c f).schedule = s.schedule := rfl
@[simp] theorem State.modCore_freeCtr (s : State) (c : Nat) (f : Core → Core) : (s.modCore c f).freeCtr = s.freeCtr := rfl
@[simp] theorem State.modCore_uidCtr (s : State) (c : Nat) (f : Core → Core) : (s.modCore c f).uidCtr = s.uidCtr := rfl
@[simp] theorem State.modCore_turnPtr (s : State) (c : Nat) (f : Core → Core) : (s.modCore c f).turnPtr = s.turnPtr := rfl
@[simp] theorem State.modCore_cur (s : State) (c : Nat) (f : Core → Core) : (s.modCore c f).cur = s.cur := rfl

/-! ### `State.setSlot` -/

@[simp] theorem State.setSlot_power (s : State) (c n : Nat) (v : Slot) : (s.setSlot c n v).power = s.power := rfl
@[simp] theorem State.setSlot_booted (s : State) (c n : Nat) (v : Slot) : (s.setSlot c n v).booted = s.booted := rfl
@[simp] theorem State.setSlot_bootState (s : State) (c n : Nat) (v : Slot) : (s.setSlot c n v).bootState = s.bootState := rfl
@[simp] theorem State.setSlot_meridian (s : State) (c n : Nat) (v : Slot) : (s.setSlot c n v).meridian = s.meridian := rfl
@[simp] theorem State.setSlot_cycle (s : State) (c n : Nat) (v : Slot) : (s.setSlot c n v).cycle = s.cycle := rfl
@[simp] theorem State.setSlot_firewallR (s : State) (c n : Nat) (v : Slot) : (s.setSlot c n v).firewallR = s.firewallR := rfl
@[simp] theorem State.setSlot_firewallW (s : State) (c n : Nat) (v : Slot) : (s.setSlot c n v).firewallW = s.firewallW := rfl
@[simp] theorem State.setSlot_firewallLock (s : State) (c n : Nat) (v : Slot) : (s.setSlot c n v).firewallLock = s.firewallLock := rfl
@[simp] theorem State.setSlot_mem (s : State) (c n : Nat) (v : Slot) : (s.setSlot c n v).mem = s.mem := rfl
@[simp] theorem State.setSlot_lineKeys (s : State) (c n : Nat) (v : Slot) : (s.setSlot c n v).lineKeys = s.lineKeys := rfl
@[simp] theorem State.setSlot_eccBad (s : State) (c n : Nat) (v : Slot) : (s.setSlot c n v).eccBad = s.eccBad := rfl
@[simp] theorem State.setSlot_keySerial (s : State) (c n : Nat) (v : Slot) : (s.setSlot c n v).keySerial = s.keySerial := rfl
@[simp] theorem State.setSlot_attKey (s : State) (c n : Nat) (v : Slot) : (s.setSlot c n v).attKey = s.attKey := rfl
@[simp] theorem State.setSlot_full (s : State) (c n : Nat) (v : Slot) : (s.setSlot c n v).full = s.full := rfl
@[simp] theorem State.setSlot_feWaiters (s : State) (c n : Nat) (v : Slot) : (s.setSlot c n v).feWaiters = s.feWaiters := rfl
@[simp] theorem State.setSlot_banks (s : State) (c n : Nat) (v : Slot) : (s.setSlot c n v).banks = s.banks := rfl
@[simp] theorem State.setSlot_barWaiters (s : State) (c n : Nat) (v : Slot) : (s.setSlot c n v).barWaiters = s.barWaiters := rfl
@[simp] theorem State.setSlot_waitTable (s : State) (c n : Nat) (v : Slot) : (s.setSlot c n v).waitTable = s.waitTable := rfl
@[simp] theorem State.setSlot_l2 (s : State) (c n : Nat) (v : Slot) : (s.setSlot c n v).l2 = s.l2 := rfl
@[simp] theorem State.setSlot_msc (s : State) (c n : Nat) (v : Slot) : (s.setSlot c n v).msc = s.msc := rfl
@[simp] theorem State.setSlot_wayMasks (s : State) (c n : Nat) (v : Slot) : (s.setSlot c n v).wayMasks = s.wayMasks := rfl
@[simp] theorem State.setSlot_dieTlb (s : State) (c n : Nat) (v : Slot) : (s.setSlot c n v).dieTlb = s.dieTlb := rfl
@[simp] theorem State.setSlot_clusterTlb (s : State) (c n : Nat) (v : Slot) : (s.setSlot c n v).clusterTlb = s.clusterTlb := rfl
@[simp] theorem State.setSlot_ruleCaches (s : State) (c n : Nat) (v : Slot) : (s.setSlot c n v).ruleCaches = s.ruleCaches := rfl
@[simp] theorem State.setSlot_principals (s : State) (c n : Nat) (v : Slot) : (s.setSlot c n v).principals = s.principals := rfl
@[simp] theorem State.setSlot_chains (s : State) (c n : Nat) (v : Slot) : (s.setSlot c n v).chains = s.chains := rfl
@[simp] theorem State.setSlot_sweep (s : State) (c n : Nat) (v : Slot) : (s.setSlot c n v).sweep = s.sweep := rfl
@[simp] theorem State.setSlot_revocations (s : State) (c n : Nat) (v : Slot) : (s.setSlot c n v).revocations = s.revocations := rfl
@[simp] theorem State.setSlot_worlds (s : State) (c n : Nat) (v : Slot) : (s.setSlot c n v).worlds = s.worlds := rfl
@[simp] theorem State.setSlot_fns (s : State) (c n : Nat) (v : Slot) : (s.setSlot c n v).fns = s.fns := rfl
@[simp] theorem State.setSlot_net (s : State) (c n : Nat) (v : Slot) : (s.setSlot c n v).net = s.net := rfl
@[simp] theorem State.setSlot_engCmds (s : State) (c n : Nat) (v : Slot) : (s.setSlot c n v).engCmds = s.engCmds := rfl
@[simp] theorem State.setSlot_engResults (s : State) (c n : Nat) (v : Slot) : (s.setSlot c n v).engResults = s.engResults := rfl
@[simp] theorem State.setSlot_ports (s : State) (c n : Nat) (v : Slot) : (s.setSlot c n v).ports = s.ports := rfl
@[simp] theorem State.setSlot_dies (s : State) (c n : Nat) (v : Slot) : (s.setSlot c n v).dies = s.dies := rfl
@[simp] theorem State.setSlot_uncore (s : State) (c n : Nat) (v : Slot) : (s.setSlot c n v).uncore = s.uncore := rfl
@[simp] theorem State.setSlot_powerCap (s : State) (c n : Nat) (v : Slot) : (s.setSlot c n v).powerCap = s.powerCap := rfl
@[simp] theorem State.setSlot_powerNow (s : State) (c n : Nat) (v : Slot) : (s.setSlot c n v).powerNow = s.powerNow := rfl
@[simp] theorem State.setSlot_mctp (s : State) (c n : Nat) (v : Slot) : (s.setSlot c n v).mctp = s.mctp := rfl
@[simp] theorem State.setSlot_cxlReply (s : State) (c n : Nat) (v : Slot) : (s.setSlot c n v).cxlReply = s.cxlReply := rfl
@[simp] theorem State.setSlot_ckptKey (s : State) (c n : Nat) (v : Slot) : (s.setSlot c n v).ckptKey = s.ckptKey := rfl
@[simp] theorem State.setSlot_ckptExpiry (s : State) (c n : Nat) (v : Slot) : (s.setSlot c n v).ckptExpiry = s.ckptExpiry := rfl
@[simp] theorem State.setSlot_ckptSerial (s : State) (c n : Nat) (v : Slot) : (s.setSlot c n v).ckptSerial = s.ckptSerial := rfl
@[simp] theorem State.setSlot_schedule (s : State) (c n : Nat) (v : Slot) : (s.setSlot c n v).schedule = s.schedule := rfl
@[simp] theorem State.setSlot_freeCtr (s : State) (c n : Nat) (v : Slot) : (s.setSlot c n v).freeCtr = s.freeCtr := rfl
@[simp] theorem State.setSlot_uidCtr (s : State) (c n : Nat) (v : Slot) : (s.setSlot c n v).uidCtr = s.uidCtr := rfl
@[simp] theorem State.setSlot_turnPtr (s : State) (c n : Nat) (v : Slot) : (s.setSlot c n v).turnPtr = s.turnPtr := rfl
@[simp] theorem State.setSlot_cur (s : State) (c n : Nat) (v : Slot) : (s.setSlot c n v).cur = s.cur := rfl

/-! ### `State.modSlot` -/

@[simp] theorem State.modSlot_power (s : State) (c n : Nat) (f : Slot → Slot) : (s.modSlot c n f).power = s.power := rfl
@[simp] theorem State.modSlot_booted (s : State) (c n : Nat) (f : Slot → Slot) : (s.modSlot c n f).booted = s.booted := rfl
@[simp] theorem State.modSlot_bootState (s : State) (c n : Nat) (f : Slot → Slot) : (s.modSlot c n f).bootState = s.bootState := rfl
@[simp] theorem State.modSlot_meridian (s : State) (c n : Nat) (f : Slot → Slot) : (s.modSlot c n f).meridian = s.meridian := rfl
@[simp] theorem State.modSlot_cycle (s : State) (c n : Nat) (f : Slot → Slot) : (s.modSlot c n f).cycle = s.cycle := rfl
@[simp] theorem State.modSlot_firewallR (s : State) (c n : Nat) (f : Slot → Slot) : (s.modSlot c n f).firewallR = s.firewallR := rfl
@[simp] theorem State.modSlot_firewallW (s : State) (c n : Nat) (f : Slot → Slot) : (s.modSlot c n f).firewallW = s.firewallW := rfl
@[simp] theorem State.modSlot_firewallLock (s : State) (c n : Nat) (f : Slot → Slot) : (s.modSlot c n f).firewallLock = s.firewallLock := rfl
@[simp] theorem State.modSlot_mem (s : State) (c n : Nat) (f : Slot → Slot) : (s.modSlot c n f).mem = s.mem := rfl
@[simp] theorem State.modSlot_lineKeys (s : State) (c n : Nat) (f : Slot → Slot) : (s.modSlot c n f).lineKeys = s.lineKeys := rfl
@[simp] theorem State.modSlot_eccBad (s : State) (c n : Nat) (f : Slot → Slot) : (s.modSlot c n f).eccBad = s.eccBad := rfl
@[simp] theorem State.modSlot_keySerial (s : State) (c n : Nat) (f : Slot → Slot) : (s.modSlot c n f).keySerial = s.keySerial := rfl
@[simp] theorem State.modSlot_attKey (s : State) (c n : Nat) (f : Slot → Slot) : (s.modSlot c n f).attKey = s.attKey := rfl
@[simp] theorem State.modSlot_full (s : State) (c n : Nat) (f : Slot → Slot) : (s.modSlot c n f).full = s.full := rfl
@[simp] theorem State.modSlot_feWaiters (s : State) (c n : Nat) (f : Slot → Slot) : (s.modSlot c n f).feWaiters = s.feWaiters := rfl
@[simp] theorem State.modSlot_banks (s : State) (c n : Nat) (f : Slot → Slot) : (s.modSlot c n f).banks = s.banks := rfl
@[simp] theorem State.modSlot_barWaiters (s : State) (c n : Nat) (f : Slot → Slot) : (s.modSlot c n f).barWaiters = s.barWaiters := rfl
@[simp] theorem State.modSlot_waitTable (s : State) (c n : Nat) (f : Slot → Slot) : (s.modSlot c n f).waitTable = s.waitTable := rfl
@[simp] theorem State.modSlot_l2 (s : State) (c n : Nat) (f : Slot → Slot) : (s.modSlot c n f).l2 = s.l2 := rfl
@[simp] theorem State.modSlot_msc (s : State) (c n : Nat) (f : Slot → Slot) : (s.modSlot c n f).msc = s.msc := rfl
@[simp] theorem State.modSlot_wayMasks (s : State) (c n : Nat) (f : Slot → Slot) : (s.modSlot c n f).wayMasks = s.wayMasks := rfl
@[simp] theorem State.modSlot_dieTlb (s : State) (c n : Nat) (f : Slot → Slot) : (s.modSlot c n f).dieTlb = s.dieTlb := rfl
@[simp] theorem State.modSlot_clusterTlb (s : State) (c n : Nat) (f : Slot → Slot) : (s.modSlot c n f).clusterTlb = s.clusterTlb := rfl
@[simp] theorem State.modSlot_ruleCaches (s : State) (c n : Nat) (f : Slot → Slot) : (s.modSlot c n f).ruleCaches = s.ruleCaches := rfl
@[simp] theorem State.modSlot_principals (s : State) (c n : Nat) (f : Slot → Slot) : (s.modSlot c n f).principals = s.principals := rfl
@[simp] theorem State.modSlot_chains (s : State) (c n : Nat) (f : Slot → Slot) : (s.modSlot c n f).chains = s.chains := rfl
@[simp] theorem State.modSlot_sweep (s : State) (c n : Nat) (f : Slot → Slot) : (s.modSlot c n f).sweep = s.sweep := rfl
@[simp] theorem State.modSlot_revocations (s : State) (c n : Nat) (f : Slot → Slot) : (s.modSlot c n f).revocations = s.revocations := rfl
@[simp] theorem State.modSlot_worlds (s : State) (c n : Nat) (f : Slot → Slot) : (s.modSlot c n f).worlds = s.worlds := rfl
@[simp] theorem State.modSlot_fns (s : State) (c n : Nat) (f : Slot → Slot) : (s.modSlot c n f).fns = s.fns := rfl
@[simp] theorem State.modSlot_net (s : State) (c n : Nat) (f : Slot → Slot) : (s.modSlot c n f).net = s.net := rfl
@[simp] theorem State.modSlot_engCmds (s : State) (c n : Nat) (f : Slot → Slot) : (s.modSlot c n f).engCmds = s.engCmds := rfl
@[simp] theorem State.modSlot_engResults (s : State) (c n : Nat) (f : Slot → Slot) : (s.modSlot c n f).engResults = s.engResults := rfl
@[simp] theorem State.modSlot_ports (s : State) (c n : Nat) (f : Slot → Slot) : (s.modSlot c n f).ports = s.ports := rfl
@[simp] theorem State.modSlot_dies (s : State) (c n : Nat) (f : Slot → Slot) : (s.modSlot c n f).dies = s.dies := rfl
@[simp] theorem State.modSlot_uncore (s : State) (c n : Nat) (f : Slot → Slot) : (s.modSlot c n f).uncore = s.uncore := rfl
@[simp] theorem State.modSlot_powerCap (s : State) (c n : Nat) (f : Slot → Slot) : (s.modSlot c n f).powerCap = s.powerCap := rfl
@[simp] theorem State.modSlot_powerNow (s : State) (c n : Nat) (f : Slot → Slot) : (s.modSlot c n f).powerNow = s.powerNow := rfl
@[simp] theorem State.modSlot_mctp (s : State) (c n : Nat) (f : Slot → Slot) : (s.modSlot c n f).mctp = s.mctp := rfl
@[simp] theorem State.modSlot_cxlReply (s : State) (c n : Nat) (f : Slot → Slot) : (s.modSlot c n f).cxlReply = s.cxlReply := rfl
@[simp] theorem State.modSlot_ckptKey (s : State) (c n : Nat) (f : Slot → Slot) : (s.modSlot c n f).ckptKey = s.ckptKey := rfl
@[simp] theorem State.modSlot_ckptExpiry (s : State) (c n : Nat) (f : Slot → Slot) : (s.modSlot c n f).ckptExpiry = s.ckptExpiry := rfl
@[simp] theorem State.modSlot_ckptSerial (s : State) (c n : Nat) (f : Slot → Slot) : (s.modSlot c n f).ckptSerial = s.ckptSerial := rfl
@[simp] theorem State.modSlot_schedule (s : State) (c n : Nat) (f : Slot → Slot) : (s.modSlot c n f).schedule = s.schedule := rfl
@[simp] theorem State.modSlot_freeCtr (s : State) (c n : Nat) (f : Slot → Slot) : (s.modSlot c n f).freeCtr = s.freeCtr := rfl
@[simp] theorem State.modSlot_uidCtr (s : State) (c n : Nat) (f : Slot → Slot) : (s.modSlot c n f).uidCtr = s.uidCtr := rfl
@[simp] theorem State.modSlot_turnPtr (s : State) (c n : Nat) (f : Slot → Slot) : (s.modSlot c n f).turnPtr = s.turnPtr := rfl
@[simp] theorem State.modSlot_cur (s : State) (c n : Nat) (f : Slot → Slot) : (s.modSlot c n f).cur = s.cur := rfl

/-! ### `State.setMe` -/

@[simp] theorem State.setMe_power (s : State) (v : Slot) : (s.setMe v).power = s.power := rfl
@[simp] theorem State.setMe_booted (s : State) (v : Slot) : (s.setMe v).booted = s.booted := rfl
@[simp] theorem State.setMe_bootState (s : State) (v : Slot) : (s.setMe v).bootState = s.bootState := rfl
@[simp] theorem State.setMe_meridian (s : State) (v : Slot) : (s.setMe v).meridian = s.meridian := rfl
@[simp] theorem State.setMe_cycle (s : State) (v : Slot) : (s.setMe v).cycle = s.cycle := rfl
@[simp] theorem State.setMe_firewallR (s : State) (v : Slot) : (s.setMe v).firewallR = s.firewallR := rfl
@[simp] theorem State.setMe_firewallW (s : State) (v : Slot) : (s.setMe v).firewallW = s.firewallW := rfl
@[simp] theorem State.setMe_firewallLock (s : State) (v : Slot) : (s.setMe v).firewallLock = s.firewallLock := rfl
@[simp] theorem State.setMe_mem (s : State) (v : Slot) : (s.setMe v).mem = s.mem := rfl
@[simp] theorem State.setMe_lineKeys (s : State) (v : Slot) : (s.setMe v).lineKeys = s.lineKeys := rfl
@[simp] theorem State.setMe_eccBad (s : State) (v : Slot) : (s.setMe v).eccBad = s.eccBad := rfl
@[simp] theorem State.setMe_keySerial (s : State) (v : Slot) : (s.setMe v).keySerial = s.keySerial := rfl
@[simp] theorem State.setMe_attKey (s : State) (v : Slot) : (s.setMe v).attKey = s.attKey := rfl
@[simp] theorem State.setMe_full (s : State) (v : Slot) : (s.setMe v).full = s.full := rfl
@[simp] theorem State.setMe_feWaiters (s : State) (v : Slot) : (s.setMe v).feWaiters = s.feWaiters := rfl
@[simp] theorem State.setMe_banks (s : State) (v : Slot) : (s.setMe v).banks = s.banks := rfl
@[simp] theorem State.setMe_barWaiters (s : State) (v : Slot) : (s.setMe v).barWaiters = s.barWaiters := rfl
@[simp] theorem State.setMe_waitTable (s : State) (v : Slot) : (s.setMe v).waitTable = s.waitTable := rfl
@[simp] theorem State.setMe_l2 (s : State) (v : Slot) : (s.setMe v).l2 = s.l2 := rfl
@[simp] theorem State.setMe_msc (s : State) (v : Slot) : (s.setMe v).msc = s.msc := rfl
@[simp] theorem State.setMe_wayMasks (s : State) (v : Slot) : (s.setMe v).wayMasks = s.wayMasks := rfl
@[simp] theorem State.setMe_dieTlb (s : State) (v : Slot) : (s.setMe v).dieTlb = s.dieTlb := rfl
@[simp] theorem State.setMe_clusterTlb (s : State) (v : Slot) : (s.setMe v).clusterTlb = s.clusterTlb := rfl
@[simp] theorem State.setMe_ruleCaches (s : State) (v : Slot) : (s.setMe v).ruleCaches = s.ruleCaches := rfl
@[simp] theorem State.setMe_principals (s : State) (v : Slot) : (s.setMe v).principals = s.principals := rfl
@[simp] theorem State.setMe_chains (s : State) (v : Slot) : (s.setMe v).chains = s.chains := rfl
@[simp] theorem State.setMe_sweep (s : State) (v : Slot) : (s.setMe v).sweep = s.sweep := rfl
@[simp] theorem State.setMe_revocations (s : State) (v : Slot) : (s.setMe v).revocations = s.revocations := rfl
@[simp] theorem State.setMe_worlds (s : State) (v : Slot) : (s.setMe v).worlds = s.worlds := rfl
@[simp] theorem State.setMe_fns (s : State) (v : Slot) : (s.setMe v).fns = s.fns := rfl
@[simp] theorem State.setMe_net (s : State) (v : Slot) : (s.setMe v).net = s.net := rfl
@[simp] theorem State.setMe_engCmds (s : State) (v : Slot) : (s.setMe v).engCmds = s.engCmds := rfl
@[simp] theorem State.setMe_engResults (s : State) (v : Slot) : (s.setMe v).engResults = s.engResults := rfl
@[simp] theorem State.setMe_ports (s : State) (v : Slot) : (s.setMe v).ports = s.ports := rfl
@[simp] theorem State.setMe_dies (s : State) (v : Slot) : (s.setMe v).dies = s.dies := rfl
@[simp] theorem State.setMe_uncore (s : State) (v : Slot) : (s.setMe v).uncore = s.uncore := rfl
@[simp] theorem State.setMe_powerCap (s : State) (v : Slot) : (s.setMe v).powerCap = s.powerCap := rfl
@[simp] theorem State.setMe_powerNow (s : State) (v : Slot) : (s.setMe v).powerNow = s.powerNow := rfl
@[simp] theorem State.setMe_mctp (s : State) (v : Slot) : (s.setMe v).mctp = s.mctp := rfl
@[simp] theorem State.setMe_cxlReply (s : State) (v : Slot) : (s.setMe v).cxlReply = s.cxlReply := rfl
@[simp] theorem State.setMe_ckptKey (s : State) (v : Slot) : (s.setMe v).ckptKey = s.ckptKey := rfl
@[simp] theorem State.setMe_ckptExpiry (s : State) (v : Slot) : (s.setMe v).ckptExpiry = s.ckptExpiry := rfl
@[simp] theorem State.setMe_ckptSerial (s : State) (v : Slot) : (s.setMe v).ckptSerial = s.ckptSerial := rfl
@[simp] theorem State.setMe_schedule (s : State) (v : Slot) : (s.setMe v).schedule = s.schedule := rfl
@[simp] theorem State.setMe_freeCtr (s : State) (v : Slot) : (s.setMe v).freeCtr = s.freeCtr := rfl
@[simp] theorem State.setMe_uidCtr (s : State) (v : Slot) : (s.setMe v).uidCtr = s.uidCtr := rfl
@[simp] theorem State.setMe_turnPtr (s : State) (v : Slot) : (s.setMe v).turnPtr = s.turnPtr := rfl
@[simp] theorem State.setMe_cur (s : State) (v : Slot) : (s.setMe v).cur = s.cur := rfl

/-! ### `State.modMe` -/

@[simp] theorem State.modMe_power (s : State) (f : Slot → Slot) : (s.modMe f).power = s.power := rfl
@[simp] theorem State.modMe_booted (s : State) (f : Slot → Slot) : (s.modMe f).booted = s.booted := rfl
@[simp] theorem State.modMe_bootState (s : State) (f : Slot → Slot) : (s.modMe f).bootState = s.bootState := rfl
@[simp] theorem State.modMe_meridian (s : State) (f : Slot → Slot) : (s.modMe f).meridian = s.meridian := rfl
@[simp] theorem State.modMe_cycle (s : State) (f : Slot → Slot) : (s.modMe f).cycle = s.cycle := rfl
@[simp] theorem State.modMe_firewallR (s : State) (f : Slot → Slot) : (s.modMe f).firewallR = s.firewallR := rfl
@[simp] theorem State.modMe_firewallW (s : State) (f : Slot → Slot) : (s.modMe f).firewallW = s.firewallW := rfl
@[simp] theorem State.modMe_firewallLock (s : State) (f : Slot → Slot) : (s.modMe f).firewallLock = s.firewallLock := rfl
@[simp] theorem State.modMe_mem (s : State) (f : Slot → Slot) : (s.modMe f).mem = s.mem := rfl
@[simp] theorem State.modMe_lineKeys (s : State) (f : Slot → Slot) : (s.modMe f).lineKeys = s.lineKeys := rfl
@[simp] theorem State.modMe_eccBad (s : State) (f : Slot → Slot) : (s.modMe f).eccBad = s.eccBad := rfl
@[simp] theorem State.modMe_keySerial (s : State) (f : Slot → Slot) : (s.modMe f).keySerial = s.keySerial := rfl
@[simp] theorem State.modMe_attKey (s : State) (f : Slot → Slot) : (s.modMe f).attKey = s.attKey := rfl
@[simp] theorem State.modMe_full (s : State) (f : Slot → Slot) : (s.modMe f).full = s.full := rfl
@[simp] theorem State.modMe_feWaiters (s : State) (f : Slot → Slot) : (s.modMe f).feWaiters = s.feWaiters := rfl
@[simp] theorem State.modMe_banks (s : State) (f : Slot → Slot) : (s.modMe f).banks = s.banks := rfl
@[simp] theorem State.modMe_barWaiters (s : State) (f : Slot → Slot) : (s.modMe f).barWaiters = s.barWaiters := rfl
@[simp] theorem State.modMe_waitTable (s : State) (f : Slot → Slot) : (s.modMe f).waitTable = s.waitTable := rfl
@[simp] theorem State.modMe_l2 (s : State) (f : Slot → Slot) : (s.modMe f).l2 = s.l2 := rfl
@[simp] theorem State.modMe_msc (s : State) (f : Slot → Slot) : (s.modMe f).msc = s.msc := rfl
@[simp] theorem State.modMe_wayMasks (s : State) (f : Slot → Slot) : (s.modMe f).wayMasks = s.wayMasks := rfl
@[simp] theorem State.modMe_dieTlb (s : State) (f : Slot → Slot) : (s.modMe f).dieTlb = s.dieTlb := rfl
@[simp] theorem State.modMe_clusterTlb (s : State) (f : Slot → Slot) : (s.modMe f).clusterTlb = s.clusterTlb := rfl
@[simp] theorem State.modMe_ruleCaches (s : State) (f : Slot → Slot) : (s.modMe f).ruleCaches = s.ruleCaches := rfl
@[simp] theorem State.modMe_principals (s : State) (f : Slot → Slot) : (s.modMe f).principals = s.principals := rfl
@[simp] theorem State.modMe_chains (s : State) (f : Slot → Slot) : (s.modMe f).chains = s.chains := rfl
@[simp] theorem State.modMe_sweep (s : State) (f : Slot → Slot) : (s.modMe f).sweep = s.sweep := rfl
@[simp] theorem State.modMe_revocations (s : State) (f : Slot → Slot) : (s.modMe f).revocations = s.revocations := rfl
@[simp] theorem State.modMe_worlds (s : State) (f : Slot → Slot) : (s.modMe f).worlds = s.worlds := rfl
@[simp] theorem State.modMe_fns (s : State) (f : Slot → Slot) : (s.modMe f).fns = s.fns := rfl
@[simp] theorem State.modMe_net (s : State) (f : Slot → Slot) : (s.modMe f).net = s.net := rfl
@[simp] theorem State.modMe_engCmds (s : State) (f : Slot → Slot) : (s.modMe f).engCmds = s.engCmds := rfl
@[simp] theorem State.modMe_engResults (s : State) (f : Slot → Slot) : (s.modMe f).engResults = s.engResults := rfl
@[simp] theorem State.modMe_ports (s : State) (f : Slot → Slot) : (s.modMe f).ports = s.ports := rfl
@[simp] theorem State.modMe_dies (s : State) (f : Slot → Slot) : (s.modMe f).dies = s.dies := rfl
@[simp] theorem State.modMe_uncore (s : State) (f : Slot → Slot) : (s.modMe f).uncore = s.uncore := rfl
@[simp] theorem State.modMe_powerCap (s : State) (f : Slot → Slot) : (s.modMe f).powerCap = s.powerCap := rfl
@[simp] theorem State.modMe_powerNow (s : State) (f : Slot → Slot) : (s.modMe f).powerNow = s.powerNow := rfl
@[simp] theorem State.modMe_mctp (s : State) (f : Slot → Slot) : (s.modMe f).mctp = s.mctp := rfl
@[simp] theorem State.modMe_cxlReply (s : State) (f : Slot → Slot) : (s.modMe f).cxlReply = s.cxlReply := rfl
@[simp] theorem State.modMe_ckptKey (s : State) (f : Slot → Slot) : (s.modMe f).ckptKey = s.ckptKey := rfl
@[simp] theorem State.modMe_ckptExpiry (s : State) (f : Slot → Slot) : (s.modMe f).ckptExpiry = s.ckptExpiry := rfl
@[simp] theorem State.modMe_ckptSerial (s : State) (f : Slot → Slot) : (s.modMe f).ckptSerial = s.ckptSerial := rfl
@[simp] theorem State.modMe_schedule (s : State) (f : Slot → Slot) : (s.modMe f).schedule = s.schedule := rfl
@[simp] theorem State.modMe_freeCtr (s : State) (f : Slot → Slot) : (s.modMe f).freeCtr = s.freeCtr := rfl
@[simp] theorem State.modMe_uidCtr (s : State) (f : Slot → Slot) : (s.modMe f).uidCtr = s.uidCtr := rfl
@[simp] theorem State.modMe_turnPtr (s : State) (f : Slot → Slot) : (s.modMe f).turnPtr = s.turnPtr := rfl
@[simp] theorem State.modMe_cur (s : State) (f : Slot → Slot) : (s.modMe f).cur = s.cur := rfl

/-! ### `State.modMyCore` -/

@[simp] theorem State.modMyCore_power (s : State) (f : Core → Core) : (s.modMyCore f).power = s.power := rfl
@[simp] theorem State.modMyCore_booted (s : State) (f : Core → Core) : (s.modMyCore f).booted = s.booted := rfl
@[simp] theorem State.modMyCore_bootState (s : State) (f : Core → Core) : (s.modMyCore f).bootState = s.bootState := rfl
@[simp] theorem State.modMyCore_meridian (s : State) (f : Core → Core) : (s.modMyCore f).meridian = s.meridian := rfl
@[simp] theorem State.modMyCore_cycle (s : State) (f : Core → Core) : (s.modMyCore f).cycle = s.cycle := rfl
@[simp] theorem State.modMyCore_firewallR (s : State) (f : Core → Core) : (s.modMyCore f).firewallR = s.firewallR := rfl
@[simp] theorem State.modMyCore_firewallW (s : State) (f : Core → Core) : (s.modMyCore f).firewallW = s.firewallW := rfl
@[simp] theorem State.modMyCore_firewallLock (s : State) (f : Core → Core) : (s.modMyCore f).firewallLock = s.firewallLock := rfl
@[simp] theorem State.modMyCore_mem (s : State) (f : Core → Core) : (s.modMyCore f).mem = s.mem := rfl
@[simp] theorem State.modMyCore_lineKeys (s : State) (f : Core → Core) : (s.modMyCore f).lineKeys = s.lineKeys := rfl
@[simp] theorem State.modMyCore_eccBad (s : State) (f : Core → Core) : (s.modMyCore f).eccBad = s.eccBad := rfl
@[simp] theorem State.modMyCore_keySerial (s : State) (f : Core → Core) : (s.modMyCore f).keySerial = s.keySerial := rfl
@[simp] theorem State.modMyCore_attKey (s : State) (f : Core → Core) : (s.modMyCore f).attKey = s.attKey := rfl
@[simp] theorem State.modMyCore_full (s : State) (f : Core → Core) : (s.modMyCore f).full = s.full := rfl
@[simp] theorem State.modMyCore_feWaiters (s : State) (f : Core → Core) : (s.modMyCore f).feWaiters = s.feWaiters := rfl
@[simp] theorem State.modMyCore_banks (s : State) (f : Core → Core) : (s.modMyCore f).banks = s.banks := rfl
@[simp] theorem State.modMyCore_barWaiters (s : State) (f : Core → Core) : (s.modMyCore f).barWaiters = s.barWaiters := rfl
@[simp] theorem State.modMyCore_waitTable (s : State) (f : Core → Core) : (s.modMyCore f).waitTable = s.waitTable := rfl
@[simp] theorem State.modMyCore_l2 (s : State) (f : Core → Core) : (s.modMyCore f).l2 = s.l2 := rfl
@[simp] theorem State.modMyCore_msc (s : State) (f : Core → Core) : (s.modMyCore f).msc = s.msc := rfl
@[simp] theorem State.modMyCore_wayMasks (s : State) (f : Core → Core) : (s.modMyCore f).wayMasks = s.wayMasks := rfl
@[simp] theorem State.modMyCore_dieTlb (s : State) (f : Core → Core) : (s.modMyCore f).dieTlb = s.dieTlb := rfl
@[simp] theorem State.modMyCore_clusterTlb (s : State) (f : Core → Core) : (s.modMyCore f).clusterTlb = s.clusterTlb := rfl
@[simp] theorem State.modMyCore_ruleCaches (s : State) (f : Core → Core) : (s.modMyCore f).ruleCaches = s.ruleCaches := rfl
@[simp] theorem State.modMyCore_principals (s : State) (f : Core → Core) : (s.modMyCore f).principals = s.principals := rfl
@[simp] theorem State.modMyCore_chains (s : State) (f : Core → Core) : (s.modMyCore f).chains = s.chains := rfl
@[simp] theorem State.modMyCore_sweep (s : State) (f : Core → Core) : (s.modMyCore f).sweep = s.sweep := rfl
@[simp] theorem State.modMyCore_revocations (s : State) (f : Core → Core) : (s.modMyCore f).revocations = s.revocations := rfl
@[simp] theorem State.modMyCore_worlds (s : State) (f : Core → Core) : (s.modMyCore f).worlds = s.worlds := rfl
@[simp] theorem State.modMyCore_fns (s : State) (f : Core → Core) : (s.modMyCore f).fns = s.fns := rfl
@[simp] theorem State.modMyCore_net (s : State) (f : Core → Core) : (s.modMyCore f).net = s.net := rfl
@[simp] theorem State.modMyCore_engCmds (s : State) (f : Core → Core) : (s.modMyCore f).engCmds = s.engCmds := rfl
@[simp] theorem State.modMyCore_engResults (s : State) (f : Core → Core) : (s.modMyCore f).engResults = s.engResults := rfl
@[simp] theorem State.modMyCore_ports (s : State) (f : Core → Core) : (s.modMyCore f).ports = s.ports := rfl
@[simp] theorem State.modMyCore_dies (s : State) (f : Core → Core) : (s.modMyCore f).dies = s.dies := rfl
@[simp] theorem State.modMyCore_uncore (s : State) (f : Core → Core) : (s.modMyCore f).uncore = s.uncore := rfl
@[simp] theorem State.modMyCore_powerCap (s : State) (f : Core → Core) : (s.modMyCore f).powerCap = s.powerCap := rfl
@[simp] theorem State.modMyCore_powerNow (s : State) (f : Core → Core) : (s.modMyCore f).powerNow = s.powerNow := rfl
@[simp] theorem State.modMyCore_mctp (s : State) (f : Core → Core) : (s.modMyCore f).mctp = s.mctp := rfl
@[simp] theorem State.modMyCore_cxlReply (s : State) (f : Core → Core) : (s.modMyCore f).cxlReply = s.cxlReply := rfl
@[simp] theorem State.modMyCore_ckptKey (s : State) (f : Core → Core) : (s.modMyCore f).ckptKey = s.ckptKey := rfl
@[simp] theorem State.modMyCore_ckptExpiry (s : State) (f : Core → Core) : (s.modMyCore f).ckptExpiry = s.ckptExpiry := rfl
@[simp] theorem State.modMyCore_ckptSerial (s : State) (f : Core → Core) : (s.modMyCore f).ckptSerial = s.ckptSerial := rfl
@[simp] theorem State.modMyCore_schedule (s : State) (f : Core → Core) : (s.modMyCore f).schedule = s.schedule := rfl
@[simp] theorem State.modMyCore_freeCtr (s : State) (f : Core → Core) : (s.modMyCore f).freeCtr = s.freeCtr := rfl
@[simp] theorem State.modMyCore_uidCtr (s : State) (f : Core → Core) : (s.modMyCore f).uidCtr = s.uidCtr := rfl
@[simp] theorem State.modMyCore_turnPtr (s : State) (f : Core → Core) : (s.modMyCore f).turnPtr = s.turnPtr := rfl
@[simp] theorem State.modMyCore_cur (s : State) (f : Core → Core) : (s.modMyCore f).cur = s.cur := rfl

/-! ### `State.chargeSlot` -/

@[simp] theorem State.chargeSlot_power (s : State) (c n p : Nat) : (s.chargeSlot c n p).power = s.power := rfl
@[simp] theorem State.chargeSlot_booted (s : State) (c n p : Nat) : (s.chargeSlot c n p).booted = s.booted := rfl
@[simp] theorem State.chargeSlot_bootState (s : State) (c n p : Nat) : (s.chargeSlot c n p).bootState = s.bootState := rfl
@[simp] theorem State.chargeSlot_meridian (s : State) (c n p : Nat) : (s.chargeSlot c n p).meridian = s.meridian := rfl
@[simp] theorem State.chargeSlot_cycle (s : State) (c n p : Nat) : (s.chargeSlot c n p).cycle = s.cycle := rfl
@[simp] theorem State.chargeSlot_firewallR (s : State) (c n p : Nat) : (s.chargeSlot c n p).firewallR = s.firewallR := rfl
@[simp] theorem State.chargeSlot_firewallW (s : State) (c n p : Nat) : (s.chargeSlot c n p).firewallW = s.firewallW := rfl
@[simp] theorem State.chargeSlot_firewallLock (s : State) (c n p : Nat) : (s.chargeSlot c n p).firewallLock = s.firewallLock := rfl
@[simp] theorem State.chargeSlot_mem (s : State) (c n p : Nat) : (s.chargeSlot c n p).mem = s.mem := rfl
@[simp] theorem State.chargeSlot_lineKeys (s : State) (c n p : Nat) : (s.chargeSlot c n p).lineKeys = s.lineKeys := rfl
@[simp] theorem State.chargeSlot_eccBad (s : State) (c n p : Nat) : (s.chargeSlot c n p).eccBad = s.eccBad := rfl
@[simp] theorem State.chargeSlot_keySerial (s : State) (c n p : Nat) : (s.chargeSlot c n p).keySerial = s.keySerial := rfl
@[simp] theorem State.chargeSlot_attKey (s : State) (c n p : Nat) : (s.chargeSlot c n p).attKey = s.attKey := rfl
@[simp] theorem State.chargeSlot_full (s : State) (c n p : Nat) : (s.chargeSlot c n p).full = s.full := rfl
@[simp] theorem State.chargeSlot_feWaiters (s : State) (c n p : Nat) : (s.chargeSlot c n p).feWaiters = s.feWaiters := rfl
@[simp] theorem State.chargeSlot_banks (s : State) (c n p : Nat) : (s.chargeSlot c n p).banks = s.banks := rfl
@[simp] theorem State.chargeSlot_barWaiters (s : State) (c n p : Nat) : (s.chargeSlot c n p).barWaiters = s.barWaiters := rfl
@[simp] theorem State.chargeSlot_waitTable (s : State) (c n p : Nat) : (s.chargeSlot c n p).waitTable = s.waitTable := rfl
@[simp] theorem State.chargeSlot_l2 (s : State) (c n p : Nat) : (s.chargeSlot c n p).l2 = s.l2 := rfl
@[simp] theorem State.chargeSlot_msc (s : State) (c n p : Nat) : (s.chargeSlot c n p).msc = s.msc := rfl
@[simp] theorem State.chargeSlot_wayMasks (s : State) (c n p : Nat) : (s.chargeSlot c n p).wayMasks = s.wayMasks := rfl
@[simp] theorem State.chargeSlot_dieTlb (s : State) (c n p : Nat) : (s.chargeSlot c n p).dieTlb = s.dieTlb := rfl
@[simp] theorem State.chargeSlot_clusterTlb (s : State) (c n p : Nat) : (s.chargeSlot c n p).clusterTlb = s.clusterTlb := rfl
@[simp] theorem State.chargeSlot_ruleCaches (s : State) (c n p : Nat) : (s.chargeSlot c n p).ruleCaches = s.ruleCaches := rfl
@[simp] theorem State.chargeSlot_principals (s : State) (c n p : Nat) : (s.chargeSlot c n p).principals = s.principals := rfl
@[simp] theorem State.chargeSlot_chains (s : State) (c n p : Nat) : (s.chargeSlot c n p).chains = s.chains := rfl
@[simp] theorem State.chargeSlot_sweep (s : State) (c n p : Nat) : (s.chargeSlot c n p).sweep = s.sweep := rfl
@[simp] theorem State.chargeSlot_revocations (s : State) (c n p : Nat) : (s.chargeSlot c n p).revocations = s.revocations := rfl
@[simp] theorem State.chargeSlot_worlds (s : State) (c n p : Nat) : (s.chargeSlot c n p).worlds = s.worlds := rfl
@[simp] theorem State.chargeSlot_fns (s : State) (c n p : Nat) : (s.chargeSlot c n p).fns = s.fns := rfl
@[simp] theorem State.chargeSlot_net (s : State) (c n p : Nat) : (s.chargeSlot c n p).net = s.net := rfl
@[simp] theorem State.chargeSlot_engCmds (s : State) (c n p : Nat) : (s.chargeSlot c n p).engCmds = s.engCmds := rfl
@[simp] theorem State.chargeSlot_engResults (s : State) (c n p : Nat) : (s.chargeSlot c n p).engResults = s.engResults := rfl
@[simp] theorem State.chargeSlot_ports (s : State) (c n p : Nat) : (s.chargeSlot c n p).ports = s.ports := rfl
@[simp] theorem State.chargeSlot_dies (s : State) (c n p : Nat) : (s.chargeSlot c n p).dies = s.dies := rfl
@[simp] theorem State.chargeSlot_uncore (s : State) (c n p : Nat) : (s.chargeSlot c n p).uncore = s.uncore := rfl
@[simp] theorem State.chargeSlot_powerCap (s : State) (c n p : Nat) : (s.chargeSlot c n p).powerCap = s.powerCap := rfl
@[simp] theorem State.chargeSlot_powerNow (s : State) (c n p : Nat) : (s.chargeSlot c n p).powerNow = s.powerNow := rfl
@[simp] theorem State.chargeSlot_mctp (s : State) (c n p : Nat) : (s.chargeSlot c n p).mctp = s.mctp := rfl
@[simp] theorem State.chargeSlot_cxlReply (s : State) (c n p : Nat) : (s.chargeSlot c n p).cxlReply = s.cxlReply := rfl
@[simp] theorem State.chargeSlot_ckptKey (s : State) (c n p : Nat) : (s.chargeSlot c n p).ckptKey = s.ckptKey := rfl
@[simp] theorem State.chargeSlot_ckptExpiry (s : State) (c n p : Nat) : (s.chargeSlot c n p).ckptExpiry = s.ckptExpiry := rfl
@[simp] theorem State.chargeSlot_ckptSerial (s : State) (c n p : Nat) : (s.chargeSlot c n p).ckptSerial = s.ckptSerial := rfl
@[simp] theorem State.chargeSlot_schedule (s : State) (c n p : Nat) : (s.chargeSlot c n p).schedule = s.schedule := rfl
@[simp] theorem State.chargeSlot_freeCtr (s : State) (c n p : Nat) : (s.chargeSlot c n p).freeCtr = s.freeCtr := rfl
@[simp] theorem State.chargeSlot_uidCtr (s : State) (c n p : Nat) : (s.chargeSlot c n p).uidCtr = s.uidCtr := rfl
@[simp] theorem State.chargeSlot_turnPtr (s : State) (c n p : Nat) : (s.chargeSlot c n p).turnPtr = s.turnPtr := rfl
@[simp] theorem State.chargeSlot_cur (s : State) (c n p : Nat) : (s.chargeSlot c n p).cur = s.cur := rfl

/-! ### `State.setWorld` -/

@[simp] theorem State.setWorld_power (s : State) (w : Nat) (v : World) : (s.setWorld w v).power = s.power := rfl
@[simp] theorem State.setWorld_booted (s : State) (w : Nat) (v : World) : (s.setWorld w v).booted = s.booted := rfl
@[simp] theorem State.setWorld_bootState (s : State) (w : Nat) (v : World) : (s.setWorld w v).bootState = s.bootState := rfl
@[simp] theorem State.setWorld_meridian (s : State) (w : Nat) (v : World) : (s.setWorld w v).meridian = s.meridian := rfl
@[simp] theorem State.setWorld_cycle (s : State) (w : Nat) (v : World) : (s.setWorld w v).cycle = s.cycle := rfl
@[simp] theorem State.setWorld_firewallR (s : State) (w : Nat) (v : World) : (s.setWorld w v).firewallR = s.firewallR := rfl
@[simp] theorem State.setWorld_firewallW (s : State) (w : Nat) (v : World) : (s.setWorld w v).firewallW = s.firewallW := rfl
@[simp] theorem State.setWorld_firewallLock (s : State) (w : Nat) (v : World) : (s.setWorld w v).firewallLock = s.firewallLock := rfl
@[simp] theorem State.setWorld_mem (s : State) (w : Nat) (v : World) : (s.setWorld w v).mem = s.mem := rfl
@[simp] theorem State.setWorld_lineKeys (s : State) (w : Nat) (v : World) : (s.setWorld w v).lineKeys = s.lineKeys := rfl
@[simp] theorem State.setWorld_eccBad (s : State) (w : Nat) (v : World) : (s.setWorld w v).eccBad = s.eccBad := rfl
@[simp] theorem State.setWorld_keySerial (s : State) (w : Nat) (v : World) : (s.setWorld w v).keySerial = s.keySerial := rfl
@[simp] theorem State.setWorld_attKey (s : State) (w : Nat) (v : World) : (s.setWorld w v).attKey = s.attKey := rfl
@[simp] theorem State.setWorld_full (s : State) (w : Nat) (v : World) : (s.setWorld w v).full = s.full := rfl
@[simp] theorem State.setWorld_feWaiters (s : State) (w : Nat) (v : World) : (s.setWorld w v).feWaiters = s.feWaiters := rfl
@[simp] theorem State.setWorld_banks (s : State) (w : Nat) (v : World) : (s.setWorld w v).banks = s.banks := rfl
@[simp] theorem State.setWorld_barWaiters (s : State) (w : Nat) (v : World) : (s.setWorld w v).barWaiters = s.barWaiters := rfl
@[simp] theorem State.setWorld_waitTable (s : State) (w : Nat) (v : World) : (s.setWorld w v).waitTable = s.waitTable := rfl
@[simp] theorem State.setWorld_l2 (s : State) (w : Nat) (v : World) : (s.setWorld w v).l2 = s.l2 := rfl
@[simp] theorem State.setWorld_msc (s : State) (w : Nat) (v : World) : (s.setWorld w v).msc = s.msc := rfl
@[simp] theorem State.setWorld_wayMasks (s : State) (w : Nat) (v : World) : (s.setWorld w v).wayMasks = s.wayMasks := rfl
@[simp] theorem State.setWorld_dieTlb (s : State) (w : Nat) (v : World) : (s.setWorld w v).dieTlb = s.dieTlb := rfl
@[simp] theorem State.setWorld_clusterTlb (s : State) (w : Nat) (v : World) : (s.setWorld w v).clusterTlb = s.clusterTlb := rfl
@[simp] theorem State.setWorld_ruleCaches (s : State) (w : Nat) (v : World) : (s.setWorld w v).ruleCaches = s.ruleCaches := rfl
@[simp] theorem State.setWorld_principals (s : State) (w : Nat) (v : World) : (s.setWorld w v).principals = s.principals := rfl
@[simp] theorem State.setWorld_chains (s : State) (w : Nat) (v : World) : (s.setWorld w v).chains = s.chains := rfl
@[simp] theorem State.setWorld_sweep (s : State) (w : Nat) (v : World) : (s.setWorld w v).sweep = s.sweep := rfl
@[simp] theorem State.setWorld_revocations (s : State) (w : Nat) (v : World) : (s.setWorld w v).revocations = s.revocations := rfl
@[simp] theorem State.setWorld_fns (s : State) (w : Nat) (v : World) : (s.setWorld w v).fns = s.fns := rfl
@[simp] theorem State.setWorld_cores (s : State) (w : Nat) (v : World) : (s.setWorld w v).cores = s.cores := rfl
@[simp] theorem State.setWorld_net (s : State) (w : Nat) (v : World) : (s.setWorld w v).net = s.net := rfl
@[simp] theorem State.setWorld_engCmds (s : State) (w : Nat) (v : World) : (s.setWorld w v).engCmds = s.engCmds := rfl
@[simp] theorem State.setWorld_engResults (s : State) (w : Nat) (v : World) : (s.setWorld w v).engResults = s.engResults := rfl
@[simp] theorem State.setWorld_ports (s : State) (w : Nat) (v : World) : (s.setWorld w v).ports = s.ports := rfl
@[simp] theorem State.setWorld_dies (s : State) (w : Nat) (v : World) : (s.setWorld w v).dies = s.dies := rfl
@[simp] theorem State.setWorld_uncore (s : State) (w : Nat) (v : World) : (s.setWorld w v).uncore = s.uncore := rfl
@[simp] theorem State.setWorld_powerCap (s : State) (w : Nat) (v : World) : (s.setWorld w v).powerCap = s.powerCap := rfl
@[simp] theorem State.setWorld_powerNow (s : State) (w : Nat) (v : World) : (s.setWorld w v).powerNow = s.powerNow := rfl
@[simp] theorem State.setWorld_mctp (s : State) (w : Nat) (v : World) : (s.setWorld w v).mctp = s.mctp := rfl
@[simp] theorem State.setWorld_cxlReply (s : State) (w : Nat) (v : World) : (s.setWorld w v).cxlReply = s.cxlReply := rfl
@[simp] theorem State.setWorld_ckptKey (s : State) (w : Nat) (v : World) : (s.setWorld w v).ckptKey = s.ckptKey := rfl
@[simp] theorem State.setWorld_ckptExpiry (s : State) (w : Nat) (v : World) : (s.setWorld w v).ckptExpiry = s.ckptExpiry := rfl
@[simp] theorem State.setWorld_ckptSerial (s : State) (w : Nat) (v : World) : (s.setWorld w v).ckptSerial = s.ckptSerial := rfl
@[simp] theorem State.setWorld_schedule (s : State) (w : Nat) (v : World) : (s.setWorld w v).schedule = s.schedule := rfl
@[simp] theorem State.setWorld_freeCtr (s : State) (w : Nat) (v : World) : (s.setWorld w v).freeCtr = s.freeCtr := rfl
@[simp] theorem State.setWorld_uidCtr (s : State) (w : Nat) (v : World) : (s.setWorld w v).uidCtr = s.uidCtr := rfl
@[simp] theorem State.setWorld_turnPtr (s : State) (w : Nat) (v : World) : (s.setWorld w v).turnPtr = s.turnPtr := rfl
@[simp] theorem State.setWorld_cur (s : State) (w : Nat) (v : World) : (s.setWorld w v).cur = s.cur := rfl

/-! ### `State.modWorld` -/

@[simp] theorem State.modWorld_power (s : State) (w : Nat) (f : World → World) : (s.modWorld w f).power = s.power := rfl
@[simp] theorem State.modWorld_booted (s : State) (w : Nat) (f : World → World) : (s.modWorld w f).booted = s.booted := rfl
@[simp] theorem State.modWorld_bootState (s : State) (w : Nat) (f : World → World) : (s.modWorld w f).bootState = s.bootState := rfl
@[simp] theorem State.modWorld_meridian (s : State) (w : Nat) (f : World → World) : (s.modWorld w f).meridian = s.meridian := rfl
@[simp] theorem State.modWorld_cycle (s : State) (w : Nat) (f : World → World) : (s.modWorld w f).cycle = s.cycle := rfl
@[simp] theorem State.modWorld_firewallR (s : State) (w : Nat) (f : World → World) : (s.modWorld w f).firewallR = s.firewallR := rfl
@[simp] theorem State.modWorld_firewallW (s : State) (w : Nat) (f : World → World) : (s.modWorld w f).firewallW = s.firewallW := rfl
@[simp] theorem State.modWorld_firewallLock (s : State) (w : Nat) (f : World → World) : (s.modWorld w f).firewallLock = s.firewallLock := rfl
@[simp] theorem State.modWorld_mem (s : State) (w : Nat) (f : World → World) : (s.modWorld w f).mem = s.mem := rfl
@[simp] theorem State.modWorld_lineKeys (s : State) (w : Nat) (f : World → World) : (s.modWorld w f).lineKeys = s.lineKeys := rfl
@[simp] theorem State.modWorld_eccBad (s : State) (w : Nat) (f : World → World) : (s.modWorld w f).eccBad = s.eccBad := rfl
@[simp] theorem State.modWorld_keySerial (s : State) (w : Nat) (f : World → World) : (s.modWorld w f).keySerial = s.keySerial := rfl
@[simp] theorem State.modWorld_attKey (s : State) (w : Nat) (f : World → World) : (s.modWorld w f).attKey = s.attKey := rfl
@[simp] theorem State.modWorld_full (s : State) (w : Nat) (f : World → World) : (s.modWorld w f).full = s.full := rfl
@[simp] theorem State.modWorld_feWaiters (s : State) (w : Nat) (f : World → World) : (s.modWorld w f).feWaiters = s.feWaiters := rfl
@[simp] theorem State.modWorld_banks (s : State) (w : Nat) (f : World → World) : (s.modWorld w f).banks = s.banks := rfl
@[simp] theorem State.modWorld_barWaiters (s : State) (w : Nat) (f : World → World) : (s.modWorld w f).barWaiters = s.barWaiters := rfl
@[simp] theorem State.modWorld_waitTable (s : State) (w : Nat) (f : World → World) : (s.modWorld w f).waitTable = s.waitTable := rfl
@[simp] theorem State.modWorld_l2 (s : State) (w : Nat) (f : World → World) : (s.modWorld w f).l2 = s.l2 := rfl
@[simp] theorem State.modWorld_msc (s : State) (w : Nat) (f : World → World) : (s.modWorld w f).msc = s.msc := rfl
@[simp] theorem State.modWorld_wayMasks (s : State) (w : Nat) (f : World → World) : (s.modWorld w f).wayMasks = s.wayMasks := rfl
@[simp] theorem State.modWorld_dieTlb (s : State) (w : Nat) (f : World → World) : (s.modWorld w f).dieTlb = s.dieTlb := rfl
@[simp] theorem State.modWorld_clusterTlb (s : State) (w : Nat) (f : World → World) : (s.modWorld w f).clusterTlb = s.clusterTlb := rfl
@[simp] theorem State.modWorld_ruleCaches (s : State) (w : Nat) (f : World → World) : (s.modWorld w f).ruleCaches = s.ruleCaches := rfl
@[simp] theorem State.modWorld_principals (s : State) (w : Nat) (f : World → World) : (s.modWorld w f).principals = s.principals := rfl
@[simp] theorem State.modWorld_chains (s : State) (w : Nat) (f : World → World) : (s.modWorld w f).chains = s.chains := rfl
@[simp] theorem State.modWorld_sweep (s : State) (w : Nat) (f : World → World) : (s.modWorld w f).sweep = s.sweep := rfl
@[simp] theorem State.modWorld_revocations (s : State) (w : Nat) (f : World → World) : (s.modWorld w f).revocations = s.revocations := rfl
@[simp] theorem State.modWorld_fns (s : State) (w : Nat) (f : World → World) : (s.modWorld w f).fns = s.fns := rfl
@[simp] theorem State.modWorld_cores (s : State) (w : Nat) (f : World → World) : (s.modWorld w f).cores = s.cores := rfl
@[simp] theorem State.modWorld_net (s : State) (w : Nat) (f : World → World) : (s.modWorld w f).net = s.net := rfl
@[simp] theorem State.modWorld_engCmds (s : State) (w : Nat) (f : World → World) : (s.modWorld w f).engCmds = s.engCmds := rfl
@[simp] theorem State.modWorld_engResults (s : State) (w : Nat) (f : World → World) : (s.modWorld w f).engResults = s.engResults := rfl
@[simp] theorem State.modWorld_ports (s : State) (w : Nat) (f : World → World) : (s.modWorld w f).ports = s.ports := rfl
@[simp] theorem State.modWorld_dies (s : State) (w : Nat) (f : World → World) : (s.modWorld w f).dies = s.dies := rfl
@[simp] theorem State.modWorld_uncore (s : State) (w : Nat) (f : World → World) : (s.modWorld w f).uncore = s.uncore := rfl
@[simp] theorem State.modWorld_powerCap (s : State) (w : Nat) (f : World → World) : (s.modWorld w f).powerCap = s.powerCap := rfl
@[simp] theorem State.modWorld_powerNow (s : State) (w : Nat) (f : World → World) : (s.modWorld w f).powerNow = s.powerNow := rfl
@[simp] theorem State.modWorld_mctp (s : State) (w : Nat) (f : World → World) : (s.modWorld w f).mctp = s.mctp := rfl
@[simp] theorem State.modWorld_cxlReply (s : State) (w : Nat) (f : World → World) : (s.modWorld w f).cxlReply = s.cxlReply := rfl
@[simp] theorem State.modWorld_ckptKey (s : State) (w : Nat) (f : World → World) : (s.modWorld w f).ckptKey = s.ckptKey := rfl
@[simp] theorem State.modWorld_ckptExpiry (s : State) (w : Nat) (f : World → World) : (s.modWorld w f).ckptExpiry = s.ckptExpiry := rfl
@[simp] theorem State.modWorld_ckptSerial (s : State) (w : Nat) (f : World → World) : (s.modWorld w f).ckptSerial = s.ckptSerial := rfl
@[simp] theorem State.modWorld_schedule (s : State) (w : Nat) (f : World → World) : (s.modWorld w f).schedule = s.schedule := rfl
@[simp] theorem State.modWorld_freeCtr (s : State) (w : Nat) (f : World → World) : (s.modWorld w f).freeCtr = s.freeCtr := rfl
@[simp] theorem State.modWorld_uidCtr (s : State) (w : Nat) (f : World → World) : (s.modWorld w f).uidCtr = s.uidCtr := rfl
@[simp] theorem State.modWorld_turnPtr (s : State) (w : Nat) (f : World → World) : (s.modWorld w f).turnPtr = s.turnPtr := rfl
@[simp] theorem State.modWorld_cur (s : State) (w : Nat) (f : World → World) : (s.modWorld w f).cur = s.cur := rfl

/-! ### `State.setFn` -/

@[simp] theorem State.setFn_power (s : State) (n : Nat) (v : Func) : (s.setFn n v).power = s.power := rfl
@[simp] theorem State.setFn_booted (s : State) (n : Nat) (v : Func) : (s.setFn n v).booted = s.booted := rfl
@[simp] theorem State.setFn_bootState (s : State) (n : Nat) (v : Func) : (s.setFn n v).bootState = s.bootState := rfl
@[simp] theorem State.setFn_meridian (s : State) (n : Nat) (v : Func) : (s.setFn n v).meridian = s.meridian := rfl
@[simp] theorem State.setFn_cycle (s : State) (n : Nat) (v : Func) : (s.setFn n v).cycle = s.cycle := rfl
@[simp] theorem State.setFn_firewallR (s : State) (n : Nat) (v : Func) : (s.setFn n v).firewallR = s.firewallR := rfl
@[simp] theorem State.setFn_firewallW (s : State) (n : Nat) (v : Func) : (s.setFn n v).firewallW = s.firewallW := rfl
@[simp] theorem State.setFn_firewallLock (s : State) (n : Nat) (v : Func) : (s.setFn n v).firewallLock = s.firewallLock := rfl
@[simp] theorem State.setFn_mem (s : State) (n : Nat) (v : Func) : (s.setFn n v).mem = s.mem := rfl
@[simp] theorem State.setFn_lineKeys (s : State) (n : Nat) (v : Func) : (s.setFn n v).lineKeys = s.lineKeys := rfl
@[simp] theorem State.setFn_eccBad (s : State) (n : Nat) (v : Func) : (s.setFn n v).eccBad = s.eccBad := rfl
@[simp] theorem State.setFn_keySerial (s : State) (n : Nat) (v : Func) : (s.setFn n v).keySerial = s.keySerial := rfl
@[simp] theorem State.setFn_attKey (s : State) (n : Nat) (v : Func) : (s.setFn n v).attKey = s.attKey := rfl
@[simp] theorem State.setFn_full (s : State) (n : Nat) (v : Func) : (s.setFn n v).full = s.full := rfl
@[simp] theorem State.setFn_feWaiters (s : State) (n : Nat) (v : Func) : (s.setFn n v).feWaiters = s.feWaiters := rfl
@[simp] theorem State.setFn_banks (s : State) (n : Nat) (v : Func) : (s.setFn n v).banks = s.banks := rfl
@[simp] theorem State.setFn_barWaiters (s : State) (n : Nat) (v : Func) : (s.setFn n v).barWaiters = s.barWaiters := rfl
@[simp] theorem State.setFn_waitTable (s : State) (n : Nat) (v : Func) : (s.setFn n v).waitTable = s.waitTable := rfl
@[simp] theorem State.setFn_l2 (s : State) (n : Nat) (v : Func) : (s.setFn n v).l2 = s.l2 := rfl
@[simp] theorem State.setFn_msc (s : State) (n : Nat) (v : Func) : (s.setFn n v).msc = s.msc := rfl
@[simp] theorem State.setFn_wayMasks (s : State) (n : Nat) (v : Func) : (s.setFn n v).wayMasks = s.wayMasks := rfl
@[simp] theorem State.setFn_dieTlb (s : State) (n : Nat) (v : Func) : (s.setFn n v).dieTlb = s.dieTlb := rfl
@[simp] theorem State.setFn_clusterTlb (s : State) (n : Nat) (v : Func) : (s.setFn n v).clusterTlb = s.clusterTlb := rfl
@[simp] theorem State.setFn_ruleCaches (s : State) (n : Nat) (v : Func) : (s.setFn n v).ruleCaches = s.ruleCaches := rfl
@[simp] theorem State.setFn_principals (s : State) (n : Nat) (v : Func) : (s.setFn n v).principals = s.principals := rfl
@[simp] theorem State.setFn_chains (s : State) (n : Nat) (v : Func) : (s.setFn n v).chains = s.chains := rfl
@[simp] theorem State.setFn_sweep (s : State) (n : Nat) (v : Func) : (s.setFn n v).sweep = s.sweep := rfl
@[simp] theorem State.setFn_revocations (s : State) (n : Nat) (v : Func) : (s.setFn n v).revocations = s.revocations := rfl
@[simp] theorem State.setFn_worlds (s : State) (n : Nat) (v : Func) : (s.setFn n v).worlds = s.worlds := rfl
@[simp] theorem State.setFn_cores (s : State) (n : Nat) (v : Func) : (s.setFn n v).cores = s.cores := rfl
@[simp] theorem State.setFn_net (s : State) (n : Nat) (v : Func) : (s.setFn n v).net = s.net := rfl
@[simp] theorem State.setFn_engCmds (s : State) (n : Nat) (v : Func) : (s.setFn n v).engCmds = s.engCmds := rfl
@[simp] theorem State.setFn_engResults (s : State) (n : Nat) (v : Func) : (s.setFn n v).engResults = s.engResults := rfl
@[simp] theorem State.setFn_ports (s : State) (n : Nat) (v : Func) : (s.setFn n v).ports = s.ports := rfl
@[simp] theorem State.setFn_dies (s : State) (n : Nat) (v : Func) : (s.setFn n v).dies = s.dies := rfl
@[simp] theorem State.setFn_uncore (s : State) (n : Nat) (v : Func) : (s.setFn n v).uncore = s.uncore := rfl
@[simp] theorem State.setFn_powerCap (s : State) (n : Nat) (v : Func) : (s.setFn n v).powerCap = s.powerCap := rfl
@[simp] theorem State.setFn_powerNow (s : State) (n : Nat) (v : Func) : (s.setFn n v).powerNow = s.powerNow := rfl
@[simp] theorem State.setFn_mctp (s : State) (n : Nat) (v : Func) : (s.setFn n v).mctp = s.mctp := rfl
@[simp] theorem State.setFn_cxlReply (s : State) (n : Nat) (v : Func) : (s.setFn n v).cxlReply = s.cxlReply := rfl
@[simp] theorem State.setFn_ckptKey (s : State) (n : Nat) (v : Func) : (s.setFn n v).ckptKey = s.ckptKey := rfl
@[simp] theorem State.setFn_ckptExpiry (s : State) (n : Nat) (v : Func) : (s.setFn n v).ckptExpiry = s.ckptExpiry := rfl
@[simp] theorem State.setFn_ckptSerial (s : State) (n : Nat) (v : Func) : (s.setFn n v).ckptSerial = s.ckptSerial := rfl
@[simp] theorem State.setFn_schedule (s : State) (n : Nat) (v : Func) : (s.setFn n v).schedule = s.schedule := rfl
@[simp] theorem State.setFn_freeCtr (s : State) (n : Nat) (v : Func) : (s.setFn n v).freeCtr = s.freeCtr := rfl
@[simp] theorem State.setFn_uidCtr (s : State) (n : Nat) (v : Func) : (s.setFn n v).uidCtr = s.uidCtr := rfl
@[simp] theorem State.setFn_turnPtr (s : State) (n : Nat) (v : Func) : (s.setFn n v).turnPtr = s.turnPtr := rfl
@[simp] theorem State.setFn_cur (s : State) (n : Nat) (v : Func) : (s.setFn n v).cur = s.cur := rfl

/-! ### `State.modFn` -/

@[simp] theorem State.modFn_power (s : State) (n : Nat) (f : Func → Func) : (s.modFn n f).power = s.power := rfl
@[simp] theorem State.modFn_booted (s : State) (n : Nat) (f : Func → Func) : (s.modFn n f).booted = s.booted := rfl
@[simp] theorem State.modFn_bootState (s : State) (n : Nat) (f : Func → Func) : (s.modFn n f).bootState = s.bootState := rfl
@[simp] theorem State.modFn_meridian (s : State) (n : Nat) (f : Func → Func) : (s.modFn n f).meridian = s.meridian := rfl
@[simp] theorem State.modFn_cycle (s : State) (n : Nat) (f : Func → Func) : (s.modFn n f).cycle = s.cycle := rfl
@[simp] theorem State.modFn_firewallR (s : State) (n : Nat) (f : Func → Func) : (s.modFn n f).firewallR = s.firewallR := rfl
@[simp] theorem State.modFn_firewallW (s : State) (n : Nat) (f : Func → Func) : (s.modFn n f).firewallW = s.firewallW := rfl
@[simp] theorem State.modFn_firewallLock (s : State) (n : Nat) (f : Func → Func) : (s.modFn n f).firewallLock = s.firewallLock := rfl
@[simp] theorem State.modFn_mem (s : State) (n : Nat) (f : Func → Func) : (s.modFn n f).mem = s.mem := rfl
@[simp] theorem State.modFn_lineKeys (s : State) (n : Nat) (f : Func → Func) : (s.modFn n f).lineKeys = s.lineKeys := rfl
@[simp] theorem State.modFn_eccBad (s : State) (n : Nat) (f : Func → Func) : (s.modFn n f).eccBad = s.eccBad := rfl
@[simp] theorem State.modFn_keySerial (s : State) (n : Nat) (f : Func → Func) : (s.modFn n f).keySerial = s.keySerial := rfl
@[simp] theorem State.modFn_attKey (s : State) (n : Nat) (f : Func → Func) : (s.modFn n f).attKey = s.attKey := rfl
@[simp] theorem State.modFn_full (s : State) (n : Nat) (f : Func → Func) : (s.modFn n f).full = s.full := rfl
@[simp] theorem State.modFn_feWaiters (s : State) (n : Nat) (f : Func → Func) : (s.modFn n f).feWaiters = s.feWaiters := rfl
@[simp] theorem State.modFn_banks (s : State) (n : Nat) (f : Func → Func) : (s.modFn n f).banks = s.banks := rfl
@[simp] theorem State.modFn_barWaiters (s : State) (n : Nat) (f : Func → Func) : (s.modFn n f).barWaiters = s.barWaiters := rfl
@[simp] theorem State.modFn_waitTable (s : State) (n : Nat) (f : Func → Func) : (s.modFn n f).waitTable = s.waitTable := rfl
@[simp] theorem State.modFn_l2 (s : State) (n : Nat) (f : Func → Func) : (s.modFn n f).l2 = s.l2 := rfl
@[simp] theorem State.modFn_msc (s : State) (n : Nat) (f : Func → Func) : (s.modFn n f).msc = s.msc := rfl
@[simp] theorem State.modFn_wayMasks (s : State) (n : Nat) (f : Func → Func) : (s.modFn n f).wayMasks = s.wayMasks := rfl
@[simp] theorem State.modFn_dieTlb (s : State) (n : Nat) (f : Func → Func) : (s.modFn n f).dieTlb = s.dieTlb := rfl
@[simp] theorem State.modFn_clusterTlb (s : State) (n : Nat) (f : Func → Func) : (s.modFn n f).clusterTlb = s.clusterTlb := rfl
@[simp] theorem State.modFn_ruleCaches (s : State) (n : Nat) (f : Func → Func) : (s.modFn n f).ruleCaches = s.ruleCaches := rfl
@[simp] theorem State.modFn_principals (s : State) (n : Nat) (f : Func → Func) : (s.modFn n f).principals = s.principals := rfl
@[simp] theorem State.modFn_chains (s : State) (n : Nat) (f : Func → Func) : (s.modFn n f).chains = s.chains := rfl
@[simp] theorem State.modFn_sweep (s : State) (n : Nat) (f : Func → Func) : (s.modFn n f).sweep = s.sweep := rfl
@[simp] theorem State.modFn_revocations (s : State) (n : Nat) (f : Func → Func) : (s.modFn n f).revocations = s.revocations := rfl
@[simp] theorem State.modFn_worlds (s : State) (n : Nat) (f : Func → Func) : (s.modFn n f).worlds = s.worlds := rfl
@[simp] theorem State.modFn_cores (s : State) (n : Nat) (f : Func → Func) : (s.modFn n f).cores = s.cores := rfl
@[simp] theorem State.modFn_net (s : State) (n : Nat) (f : Func → Func) : (s.modFn n f).net = s.net := rfl
@[simp] theorem State.modFn_engCmds (s : State) (n : Nat) (f : Func → Func) : (s.modFn n f).engCmds = s.engCmds := rfl
@[simp] theorem State.modFn_engResults (s : State) (n : Nat) (f : Func → Func) : (s.modFn n f).engResults = s.engResults := rfl
@[simp] theorem State.modFn_ports (s : State) (n : Nat) (f : Func → Func) : (s.modFn n f).ports = s.ports := rfl
@[simp] theorem State.modFn_dies (s : State) (n : Nat) (f : Func → Func) : (s.modFn n f).dies = s.dies := rfl
@[simp] theorem State.modFn_uncore (s : State) (n : Nat) (f : Func → Func) : (s.modFn n f).uncore = s.uncore := rfl
@[simp] theorem State.modFn_powerCap (s : State) (n : Nat) (f : Func → Func) : (s.modFn n f).powerCap = s.powerCap := rfl
@[simp] theorem State.modFn_powerNow (s : State) (n : Nat) (f : Func → Func) : (s.modFn n f).powerNow = s.powerNow := rfl
@[simp] theorem State.modFn_mctp (s : State) (n : Nat) (f : Func → Func) : (s.modFn n f).mctp = s.mctp := rfl
@[simp] theorem State.modFn_cxlReply (s : State) (n : Nat) (f : Func → Func) : (s.modFn n f).cxlReply = s.cxlReply := rfl
@[simp] theorem State.modFn_ckptKey (s : State) (n : Nat) (f : Func → Func) : (s.modFn n f).ckptKey = s.ckptKey := rfl
@[simp] theorem State.modFn_ckptExpiry (s : State) (n : Nat) (f : Func → Func) : (s.modFn n f).ckptExpiry = s.ckptExpiry := rfl
@[simp] theorem State.modFn_ckptSerial (s : State) (n : Nat) (f : Func → Func) : (s.modFn n f).ckptSerial = s.ckptSerial := rfl
@[simp] theorem State.modFn_schedule (s : State) (n : Nat) (f : Func → Func) : (s.modFn n f).schedule = s.schedule := rfl
@[simp] theorem State.modFn_freeCtr (s : State) (n : Nat) (f : Func → Func) : (s.modFn n f).freeCtr = s.freeCtr := rfl
@[simp] theorem State.modFn_uidCtr (s : State) (n : Nat) (f : Func → Func) : (s.modFn n f).uidCtr = s.uidCtr := rfl
@[simp] theorem State.modFn_turnPtr (s : State) (n : Nat) (f : Func → Func) : (s.modFn n f).turnPtr = s.turnPtr := rfl
@[simp] theorem State.modFn_cur (s : State) (n : Nat) (f : Func → Func) : (s.modFn n f).cur = s.cur := rfl

/-! ### `State.setPort` -/

@[simp] theorem State.setPort_power (s : State) (n : Nat) (v : Port) : (s.setPort n v).power = s.power := rfl
@[simp] theorem State.setPort_booted (s : State) (n : Nat) (v : Port) : (s.setPort n v).booted = s.booted := rfl
@[simp] theorem State.setPort_bootState (s : State) (n : Nat) (v : Port) : (s.setPort n v).bootState = s.bootState := rfl
@[simp] theorem State.setPort_meridian (s : State) (n : Nat) (v : Port) : (s.setPort n v).meridian = s.meridian := rfl
@[simp] theorem State.setPort_cycle (s : State) (n : Nat) (v : Port) : (s.setPort n v).cycle = s.cycle := rfl
@[simp] theorem State.setPort_firewallR (s : State) (n : Nat) (v : Port) : (s.setPort n v).firewallR = s.firewallR := rfl
@[simp] theorem State.setPort_firewallW (s : State) (n : Nat) (v : Port) : (s.setPort n v).firewallW = s.firewallW := rfl
@[simp] theorem State.setPort_firewallLock (s : State) (n : Nat) (v : Port) : (s.setPort n v).firewallLock = s.firewallLock := rfl
@[simp] theorem State.setPort_mem (s : State) (n : Nat) (v : Port) : (s.setPort n v).mem = s.mem := rfl
@[simp] theorem State.setPort_lineKeys (s : State) (n : Nat) (v : Port) : (s.setPort n v).lineKeys = s.lineKeys := rfl
@[simp] theorem State.setPort_eccBad (s : State) (n : Nat) (v : Port) : (s.setPort n v).eccBad = s.eccBad := rfl
@[simp] theorem State.setPort_keySerial (s : State) (n : Nat) (v : Port) : (s.setPort n v).keySerial = s.keySerial := rfl
@[simp] theorem State.setPort_attKey (s : State) (n : Nat) (v : Port) : (s.setPort n v).attKey = s.attKey := rfl
@[simp] theorem State.setPort_full (s : State) (n : Nat) (v : Port) : (s.setPort n v).full = s.full := rfl
@[simp] theorem State.setPort_feWaiters (s : State) (n : Nat) (v : Port) : (s.setPort n v).feWaiters = s.feWaiters := rfl
@[simp] theorem State.setPort_banks (s : State) (n : Nat) (v : Port) : (s.setPort n v).banks = s.banks := rfl
@[simp] theorem State.setPort_barWaiters (s : State) (n : Nat) (v : Port) : (s.setPort n v).barWaiters = s.barWaiters := rfl
@[simp] theorem State.setPort_waitTable (s : State) (n : Nat) (v : Port) : (s.setPort n v).waitTable = s.waitTable := rfl
@[simp] theorem State.setPort_l2 (s : State) (n : Nat) (v : Port) : (s.setPort n v).l2 = s.l2 := rfl
@[simp] theorem State.setPort_msc (s : State) (n : Nat) (v : Port) : (s.setPort n v).msc = s.msc := rfl
@[simp] theorem State.setPort_wayMasks (s : State) (n : Nat) (v : Port) : (s.setPort n v).wayMasks = s.wayMasks := rfl
@[simp] theorem State.setPort_dieTlb (s : State) (n : Nat) (v : Port) : (s.setPort n v).dieTlb = s.dieTlb := rfl
@[simp] theorem State.setPort_clusterTlb (s : State) (n : Nat) (v : Port) : (s.setPort n v).clusterTlb = s.clusterTlb := rfl
@[simp] theorem State.setPort_ruleCaches (s : State) (n : Nat) (v : Port) : (s.setPort n v).ruleCaches = s.ruleCaches := rfl
@[simp] theorem State.setPort_principals (s : State) (n : Nat) (v : Port) : (s.setPort n v).principals = s.principals := rfl
@[simp] theorem State.setPort_chains (s : State) (n : Nat) (v : Port) : (s.setPort n v).chains = s.chains := rfl
@[simp] theorem State.setPort_sweep (s : State) (n : Nat) (v : Port) : (s.setPort n v).sweep = s.sweep := rfl
@[simp] theorem State.setPort_revocations (s : State) (n : Nat) (v : Port) : (s.setPort n v).revocations = s.revocations := rfl
@[simp] theorem State.setPort_worlds (s : State) (n : Nat) (v : Port) : (s.setPort n v).worlds = s.worlds := rfl
@[simp] theorem State.setPort_fns (s : State) (n : Nat) (v : Port) : (s.setPort n v).fns = s.fns := rfl
@[simp] theorem State.setPort_cores (s : State) (n : Nat) (v : Port) : (s.setPort n v).cores = s.cores := rfl
@[simp] theorem State.setPort_net (s : State) (n : Nat) (v : Port) : (s.setPort n v).net = s.net := rfl
@[simp] theorem State.setPort_engCmds (s : State) (n : Nat) (v : Port) : (s.setPort n v).engCmds = s.engCmds := rfl
@[simp] theorem State.setPort_engResults (s : State) (n : Nat) (v : Port) : (s.setPort n v).engResults = s.engResults := rfl
@[simp] theorem State.setPort_dies (s : State) (n : Nat) (v : Port) : (s.setPort n v).dies = s.dies := rfl
@[simp] theorem State.setPort_uncore (s : State) (n : Nat) (v : Port) : (s.setPort n v).uncore = s.uncore := rfl
@[simp] theorem State.setPort_powerCap (s : State) (n : Nat) (v : Port) : (s.setPort n v).powerCap = s.powerCap := rfl
@[simp] theorem State.setPort_powerNow (s : State) (n : Nat) (v : Port) : (s.setPort n v).powerNow = s.powerNow := rfl
@[simp] theorem State.setPort_mctp (s : State) (n : Nat) (v : Port) : (s.setPort n v).mctp = s.mctp := rfl
@[simp] theorem State.setPort_cxlReply (s : State) (n : Nat) (v : Port) : (s.setPort n v).cxlReply = s.cxlReply := rfl
@[simp] theorem State.setPort_ckptKey (s : State) (n : Nat) (v : Port) : (s.setPort n v).ckptKey = s.ckptKey := rfl
@[simp] theorem State.setPort_ckptExpiry (s : State) (n : Nat) (v : Port) : (s.setPort n v).ckptExpiry = s.ckptExpiry := rfl
@[simp] theorem State.setPort_ckptSerial (s : State) (n : Nat) (v : Port) : (s.setPort n v).ckptSerial = s.ckptSerial := rfl
@[simp] theorem State.setPort_schedule (s : State) (n : Nat) (v : Port) : (s.setPort n v).schedule = s.schedule := rfl
@[simp] theorem State.setPort_freeCtr (s : State) (n : Nat) (v : Port) : (s.setPort n v).freeCtr = s.freeCtr := rfl
@[simp] theorem State.setPort_uidCtr (s : State) (n : Nat) (v : Port) : (s.setPort n v).uidCtr = s.uidCtr := rfl
@[simp] theorem State.setPort_turnPtr (s : State) (n : Nat) (v : Port) : (s.setPort n v).turnPtr = s.turnPtr := rfl
@[simp] theorem State.setPort_cur (s : State) (n : Nat) (v : Port) : (s.setPort n v).cur = s.cur := rfl

/-! ### `State.modPort` -/

@[simp] theorem State.modPort_power (s : State) (n : Nat) (f : Port → Port) : (s.modPort n f).power = s.power := rfl
@[simp] theorem State.modPort_booted (s : State) (n : Nat) (f : Port → Port) : (s.modPort n f).booted = s.booted := rfl
@[simp] theorem State.modPort_bootState (s : State) (n : Nat) (f : Port → Port) : (s.modPort n f).bootState = s.bootState := rfl
@[simp] theorem State.modPort_meridian (s : State) (n : Nat) (f : Port → Port) : (s.modPort n f).meridian = s.meridian := rfl
@[simp] theorem State.modPort_cycle (s : State) (n : Nat) (f : Port → Port) : (s.modPort n f).cycle = s.cycle := rfl
@[simp] theorem State.modPort_firewallR (s : State) (n : Nat) (f : Port → Port) : (s.modPort n f).firewallR = s.firewallR := rfl
@[simp] theorem State.modPort_firewallW (s : State) (n : Nat) (f : Port → Port) : (s.modPort n f).firewallW = s.firewallW := rfl
@[simp] theorem State.modPort_firewallLock (s : State) (n : Nat) (f : Port → Port) : (s.modPort n f).firewallLock = s.firewallLock := rfl
@[simp] theorem State.modPort_mem (s : State) (n : Nat) (f : Port → Port) : (s.modPort n f).mem = s.mem := rfl
@[simp] theorem State.modPort_lineKeys (s : State) (n : Nat) (f : Port → Port) : (s.modPort n f).lineKeys = s.lineKeys := rfl
@[simp] theorem State.modPort_eccBad (s : State) (n : Nat) (f : Port → Port) : (s.modPort n f).eccBad = s.eccBad := rfl
@[simp] theorem State.modPort_keySerial (s : State) (n : Nat) (f : Port → Port) : (s.modPort n f).keySerial = s.keySerial := rfl
@[simp] theorem State.modPort_attKey (s : State) (n : Nat) (f : Port → Port) : (s.modPort n f).attKey = s.attKey := rfl
@[simp] theorem State.modPort_full (s : State) (n : Nat) (f : Port → Port) : (s.modPort n f).full = s.full := rfl
@[simp] theorem State.modPort_feWaiters (s : State) (n : Nat) (f : Port → Port) : (s.modPort n f).feWaiters = s.feWaiters := rfl
@[simp] theorem State.modPort_banks (s : State) (n : Nat) (f : Port → Port) : (s.modPort n f).banks = s.banks := rfl
@[simp] theorem State.modPort_barWaiters (s : State) (n : Nat) (f : Port → Port) : (s.modPort n f).barWaiters = s.barWaiters := rfl
@[simp] theorem State.modPort_waitTable (s : State) (n : Nat) (f : Port → Port) : (s.modPort n f).waitTable = s.waitTable := rfl
@[simp] theorem State.modPort_l2 (s : State) (n : Nat) (f : Port → Port) : (s.modPort n f).l2 = s.l2 := rfl
@[simp] theorem State.modPort_msc (s : State) (n : Nat) (f : Port → Port) : (s.modPort n f).msc = s.msc := rfl
@[simp] theorem State.modPort_wayMasks (s : State) (n : Nat) (f : Port → Port) : (s.modPort n f).wayMasks = s.wayMasks := rfl
@[simp] theorem State.modPort_dieTlb (s : State) (n : Nat) (f : Port → Port) : (s.modPort n f).dieTlb = s.dieTlb := rfl
@[simp] theorem State.modPort_clusterTlb (s : State) (n : Nat) (f : Port → Port) : (s.modPort n f).clusterTlb = s.clusterTlb := rfl
@[simp] theorem State.modPort_ruleCaches (s : State) (n : Nat) (f : Port → Port) : (s.modPort n f).ruleCaches = s.ruleCaches := rfl
@[simp] theorem State.modPort_principals (s : State) (n : Nat) (f : Port → Port) : (s.modPort n f).principals = s.principals := rfl
@[simp] theorem State.modPort_chains (s : State) (n : Nat) (f : Port → Port) : (s.modPort n f).chains = s.chains := rfl
@[simp] theorem State.modPort_sweep (s : State) (n : Nat) (f : Port → Port) : (s.modPort n f).sweep = s.sweep := rfl
@[simp] theorem State.modPort_revocations (s : State) (n : Nat) (f : Port → Port) : (s.modPort n f).revocations = s.revocations := rfl
@[simp] theorem State.modPort_worlds (s : State) (n : Nat) (f : Port → Port) : (s.modPort n f).worlds = s.worlds := rfl
@[simp] theorem State.modPort_fns (s : State) (n : Nat) (f : Port → Port) : (s.modPort n f).fns = s.fns := rfl
@[simp] theorem State.modPort_cores (s : State) (n : Nat) (f : Port → Port) : (s.modPort n f).cores = s.cores := rfl
@[simp] theorem State.modPort_net (s : State) (n : Nat) (f : Port → Port) : (s.modPort n f).net = s.net := rfl
@[simp] theorem State.modPort_engCmds (s : State) (n : Nat) (f : Port → Port) : (s.modPort n f).engCmds = s.engCmds := rfl
@[simp] theorem State.modPort_engResults (s : State) (n : Nat) (f : Port → Port) : (s.modPort n f).engResults = s.engResults := rfl
@[simp] theorem State.modPort_dies (s : State) (n : Nat) (f : Port → Port) : (s.modPort n f).dies = s.dies := rfl
@[simp] theorem State.modPort_uncore (s : State) (n : Nat) (f : Port → Port) : (s.modPort n f).uncore = s.uncore := rfl
@[simp] theorem State.modPort_powerCap (s : State) (n : Nat) (f : Port → Port) : (s.modPort n f).powerCap = s.powerCap := rfl
@[simp] theorem State.modPort_powerNow (s : State) (n : Nat) (f : Port → Port) : (s.modPort n f).powerNow = s.powerNow := rfl
@[simp] theorem State.modPort_mctp (s : State) (n : Nat) (f : Port → Port) : (s.modPort n f).mctp = s.mctp := rfl
@[simp] theorem State.modPort_cxlReply (s : State) (n : Nat) (f : Port → Port) : (s.modPort n f).cxlReply = s.cxlReply := rfl
@[simp] theorem State.modPort_ckptKey (s : State) (n : Nat) (f : Port → Port) : (s.modPort n f).ckptKey = s.ckptKey := rfl
@[simp] theorem State.modPort_ckptExpiry (s : State) (n : Nat) (f : Port → Port) : (s.modPort n f).ckptExpiry = s.ckptExpiry := rfl
@[simp] theorem State.modPort_ckptSerial (s : State) (n : Nat) (f : Port → Port) : (s.modPort n f).ckptSerial = s.ckptSerial := rfl
@[simp] theorem State.modPort_schedule (s : State) (n : Nat) (f : Port → Port) : (s.modPort n f).schedule = s.schedule := rfl
@[simp] theorem State.modPort_freeCtr (s : State) (n : Nat) (f : Port → Port) : (s.modPort n f).freeCtr = s.freeCtr := rfl
@[simp] theorem State.modPort_uidCtr (s : State) (n : Nat) (f : Port → Port) : (s.modPort n f).uidCtr = s.uidCtr := rfl
@[simp] theorem State.modPort_turnPtr (s : State) (n : Nat) (f : Port → Port) : (s.modPort n f).turnPtr = s.turnPtr := rfl
@[simp] theorem State.modPort_cur (s : State) (n : Nat) (f : Port → Port) : (s.modPort n f).cur = s.cur := rfl

/-! ### `State.setPrincipal` -/

@[simp] theorem State.setPrincipal_power (s : State) (n : Nat) (v : Principal) : (s.setPrincipal n v).power = s.power := rfl
@[simp] theorem State.setPrincipal_booted (s : State) (n : Nat) (v : Principal) : (s.setPrincipal n v).booted = s.booted := rfl
@[simp] theorem State.setPrincipal_bootState (s : State) (n : Nat) (v : Principal) : (s.setPrincipal n v).bootState = s.bootState := rfl
@[simp] theorem State.setPrincipal_meridian (s : State) (n : Nat) (v : Principal) : (s.setPrincipal n v).meridian = s.meridian := rfl
@[simp] theorem State.setPrincipal_cycle (s : State) (n : Nat) (v : Principal) : (s.setPrincipal n v).cycle = s.cycle := rfl
@[simp] theorem State.setPrincipal_firewallR (s : State) (n : Nat) (v : Principal) : (s.setPrincipal n v).firewallR = s.firewallR := rfl
@[simp] theorem State.setPrincipal_firewallW (s : State) (n : Nat) (v : Principal) : (s.setPrincipal n v).firewallW = s.firewallW := rfl
@[simp] theorem State.setPrincipal_firewallLock (s : State) (n : Nat) (v : Principal) : (s.setPrincipal n v).firewallLock = s.firewallLock := rfl
@[simp] theorem State.setPrincipal_mem (s : State) (n : Nat) (v : Principal) : (s.setPrincipal n v).mem = s.mem := rfl
@[simp] theorem State.setPrincipal_lineKeys (s : State) (n : Nat) (v : Principal) : (s.setPrincipal n v).lineKeys = s.lineKeys := rfl
@[simp] theorem State.setPrincipal_eccBad (s : State) (n : Nat) (v : Principal) : (s.setPrincipal n v).eccBad = s.eccBad := rfl
@[simp] theorem State.setPrincipal_keySerial (s : State) (n : Nat) (v : Principal) : (s.setPrincipal n v).keySerial = s.keySerial := rfl
@[simp] theorem State.setPrincipal_attKey (s : State) (n : Nat) (v : Principal) : (s.setPrincipal n v).attKey = s.attKey := rfl
@[simp] theorem State.setPrincipal_full (s : State) (n : Nat) (v : Principal) : (s.setPrincipal n v).full = s.full := rfl
@[simp] theorem State.setPrincipal_feWaiters (s : State) (n : Nat) (v : Principal) : (s.setPrincipal n v).feWaiters = s.feWaiters := rfl
@[simp] theorem State.setPrincipal_banks (s : State) (n : Nat) (v : Principal) : (s.setPrincipal n v).banks = s.banks := rfl
@[simp] theorem State.setPrincipal_barWaiters (s : State) (n : Nat) (v : Principal) : (s.setPrincipal n v).barWaiters = s.barWaiters := rfl
@[simp] theorem State.setPrincipal_waitTable (s : State) (n : Nat) (v : Principal) : (s.setPrincipal n v).waitTable = s.waitTable := rfl
@[simp] theorem State.setPrincipal_l2 (s : State) (n : Nat) (v : Principal) : (s.setPrincipal n v).l2 = s.l2 := rfl
@[simp] theorem State.setPrincipal_msc (s : State) (n : Nat) (v : Principal) : (s.setPrincipal n v).msc = s.msc := rfl
@[simp] theorem State.setPrincipal_wayMasks (s : State) (n : Nat) (v : Principal) : (s.setPrincipal n v).wayMasks = s.wayMasks := rfl
@[simp] theorem State.setPrincipal_dieTlb (s : State) (n : Nat) (v : Principal) : (s.setPrincipal n v).dieTlb = s.dieTlb := rfl
@[simp] theorem State.setPrincipal_clusterTlb (s : State) (n : Nat) (v : Principal) : (s.setPrincipal n v).clusterTlb = s.clusterTlb := rfl
@[simp] theorem State.setPrincipal_ruleCaches (s : State) (n : Nat) (v : Principal) : (s.setPrincipal n v).ruleCaches = s.ruleCaches := rfl
@[simp] theorem State.setPrincipal_chains (s : State) (n : Nat) (v : Principal) : (s.setPrincipal n v).chains = s.chains := rfl
@[simp] theorem State.setPrincipal_sweep (s : State) (n : Nat) (v : Principal) : (s.setPrincipal n v).sweep = s.sweep := rfl
@[simp] theorem State.setPrincipal_revocations (s : State) (n : Nat) (v : Principal) : (s.setPrincipal n v).revocations = s.revocations := rfl
@[simp] theorem State.setPrincipal_worlds (s : State) (n : Nat) (v : Principal) : (s.setPrincipal n v).worlds = s.worlds := rfl
@[simp] theorem State.setPrincipal_fns (s : State) (n : Nat) (v : Principal) : (s.setPrincipal n v).fns = s.fns := rfl
@[simp] theorem State.setPrincipal_cores (s : State) (n : Nat) (v : Principal) : (s.setPrincipal n v).cores = s.cores := rfl
@[simp] theorem State.setPrincipal_net (s : State) (n : Nat) (v : Principal) : (s.setPrincipal n v).net = s.net := rfl
@[simp] theorem State.setPrincipal_engCmds (s : State) (n : Nat) (v : Principal) : (s.setPrincipal n v).engCmds = s.engCmds := rfl
@[simp] theorem State.setPrincipal_engResults (s : State) (n : Nat) (v : Principal) : (s.setPrincipal n v).engResults = s.engResults := rfl
@[simp] theorem State.setPrincipal_ports (s : State) (n : Nat) (v : Principal) : (s.setPrincipal n v).ports = s.ports := rfl
@[simp] theorem State.setPrincipal_dies (s : State) (n : Nat) (v : Principal) : (s.setPrincipal n v).dies = s.dies := rfl
@[simp] theorem State.setPrincipal_uncore (s : State) (n : Nat) (v : Principal) : (s.setPrincipal n v).uncore = s.uncore := rfl
@[simp] theorem State.setPrincipal_powerCap (s : State) (n : Nat) (v : Principal) : (s.setPrincipal n v).powerCap = s.powerCap := rfl
@[simp] theorem State.setPrincipal_powerNow (s : State) (n : Nat) (v : Principal) : (s.setPrincipal n v).powerNow = s.powerNow := rfl
@[simp] theorem State.setPrincipal_mctp (s : State) (n : Nat) (v : Principal) : (s.setPrincipal n v).mctp = s.mctp := rfl
@[simp] theorem State.setPrincipal_cxlReply (s : State) (n : Nat) (v : Principal) : (s.setPrincipal n v).cxlReply = s.cxlReply := rfl
@[simp] theorem State.setPrincipal_ckptKey (s : State) (n : Nat) (v : Principal) : (s.setPrincipal n v).ckptKey = s.ckptKey := rfl
@[simp] theorem State.setPrincipal_ckptExpiry (s : State) (n : Nat) (v : Principal) : (s.setPrincipal n v).ckptExpiry = s.ckptExpiry := rfl
@[simp] theorem State.setPrincipal_ckptSerial (s : State) (n : Nat) (v : Principal) : (s.setPrincipal n v).ckptSerial = s.ckptSerial := rfl
@[simp] theorem State.setPrincipal_schedule (s : State) (n : Nat) (v : Principal) : (s.setPrincipal n v).schedule = s.schedule := rfl
@[simp] theorem State.setPrincipal_freeCtr (s : State) (n : Nat) (v : Principal) : (s.setPrincipal n v).freeCtr = s.freeCtr := rfl
@[simp] theorem State.setPrincipal_uidCtr (s : State) (n : Nat) (v : Principal) : (s.setPrincipal n v).uidCtr = s.uidCtr := rfl
@[simp] theorem State.setPrincipal_turnPtr (s : State) (n : Nat) (v : Principal) : (s.setPrincipal n v).turnPtr = s.turnPtr := rfl
@[simp] theorem State.setPrincipal_cur (s : State) (n : Nat) (v : Principal) : (s.setPrincipal n v).cur = s.cur := rfl

/-! ### `State.setChain` -/

@[simp] theorem State.setChain_power (s : State) (n : Nat) (v : Chain) : (s.setChain n v).power = s.power := rfl
@[simp] theorem State.setChain_booted (s : State) (n : Nat) (v : Chain) : (s.setChain n v).booted = s.booted := rfl
@[simp] theorem State.setChain_bootState (s : State) (n : Nat) (v : Chain) : (s.setChain n v).bootState = s.bootState := rfl
@[simp] theorem State.setChain_meridian (s : State) (n : Nat) (v : Chain) : (s.setChain n v).meridian = s.meridian := rfl
@[simp] theorem State.setChain_cycle (s : State) (n : Nat) (v : Chain) : (s.setChain n v).cycle = s.cycle := rfl
@[simp] theorem State.setChain_firewallR (s : State) (n : Nat) (v : Chain) : (s.setChain n v).firewallR = s.firewallR := rfl
@[simp] theorem State.setChain_firewallW (s : State) (n : Nat) (v : Chain) : (s.setChain n v).firewallW = s.firewallW := rfl
@[simp] theorem State.setChain_firewallLock (s : State) (n : Nat) (v : Chain) : (s.setChain n v).firewallLock = s.firewallLock := rfl
@[simp] theorem State.setChain_mem (s : State) (n : Nat) (v : Chain) : (s.setChain n v).mem = s.mem := rfl
@[simp] theorem State.setChain_lineKeys (s : State) (n : Nat) (v : Chain) : (s.setChain n v).lineKeys = s.lineKeys := rfl
@[simp] theorem State.setChain_eccBad (s : State) (n : Nat) (v : Chain) : (s.setChain n v).eccBad = s.eccBad := rfl
@[simp] theorem State.setChain_keySerial (s : State) (n : Nat) (v : Chain) : (s.setChain n v).keySerial = s.keySerial := rfl
@[simp] theorem State.setChain_attKey (s : State) (n : Nat) (v : Chain) : (s.setChain n v).attKey = s.attKey := rfl
@[simp] theorem State.setChain_full (s : State) (n : Nat) (v : Chain) : (s.setChain n v).full = s.full := rfl
@[simp] theorem State.setChain_feWaiters (s : State) (n : Nat) (v : Chain) : (s.setChain n v).feWaiters = s.feWaiters := rfl
@[simp] theorem State.setChain_banks (s : State) (n : Nat) (v : Chain) : (s.setChain n v).banks = s.banks := rfl
@[simp] theorem State.setChain_barWaiters (s : State) (n : Nat) (v : Chain) : (s.setChain n v).barWaiters = s.barWaiters := rfl
@[simp] theorem State.setChain_waitTable (s : State) (n : Nat) (v : Chain) : (s.setChain n v).waitTable = s.waitTable := rfl
@[simp] theorem State.setChain_l2 (s : State) (n : Nat) (v : Chain) : (s.setChain n v).l2 = s.l2 := rfl
@[simp] theorem State.setChain_msc (s : State) (n : Nat) (v : Chain) : (s.setChain n v).msc = s.msc := rfl
@[simp] theorem State.setChain_wayMasks (s : State) (n : Nat) (v : Chain) : (s.setChain n v).wayMasks = s.wayMasks := rfl
@[simp] theorem State.setChain_dieTlb (s : State) (n : Nat) (v : Chain) : (s.setChain n v).dieTlb = s.dieTlb := rfl
@[simp] theorem State.setChain_clusterTlb (s : State) (n : Nat) (v : Chain) : (s.setChain n v).clusterTlb = s.clusterTlb := rfl
@[simp] theorem State.setChain_ruleCaches (s : State) (n : Nat) (v : Chain) : (s.setChain n v).ruleCaches = s.ruleCaches := rfl
@[simp] theorem State.setChain_principals (s : State) (n : Nat) (v : Chain) : (s.setChain n v).principals = s.principals := rfl
@[simp] theorem State.setChain_sweep (s : State) (n : Nat) (v : Chain) : (s.setChain n v).sweep = s.sweep := rfl
@[simp] theorem State.setChain_revocations (s : State) (n : Nat) (v : Chain) : (s.setChain n v).revocations = s.revocations := rfl
@[simp] theorem State.setChain_worlds (s : State) (n : Nat) (v : Chain) : (s.setChain n v).worlds = s.worlds := rfl
@[simp] theorem State.setChain_fns (s : State) (n : Nat) (v : Chain) : (s.setChain n v).fns = s.fns := rfl
@[simp] theorem State.setChain_cores (s : State) (n : Nat) (v : Chain) : (s.setChain n v).cores = s.cores := rfl
@[simp] theorem State.setChain_net (s : State) (n : Nat) (v : Chain) : (s.setChain n v).net = s.net := rfl
@[simp] theorem State.setChain_engCmds (s : State) (n : Nat) (v : Chain) : (s.setChain n v).engCmds = s.engCmds := rfl
@[simp] theorem State.setChain_engResults (s : State) (n : Nat) (v : Chain) : (s.setChain n v).engResults = s.engResults := rfl
@[simp] theorem State.setChain_ports (s : State) (n : Nat) (v : Chain) : (s.setChain n v).ports = s.ports := rfl
@[simp] theorem State.setChain_dies (s : State) (n : Nat) (v : Chain) : (s.setChain n v).dies = s.dies := rfl
@[simp] theorem State.setChain_uncore (s : State) (n : Nat) (v : Chain) : (s.setChain n v).uncore = s.uncore := rfl
@[simp] theorem State.setChain_powerCap (s : State) (n : Nat) (v : Chain) : (s.setChain n v).powerCap = s.powerCap := rfl
@[simp] theorem State.setChain_powerNow (s : State) (n : Nat) (v : Chain) : (s.setChain n v).powerNow = s.powerNow := rfl
@[simp] theorem State.setChain_mctp (s : State) (n : Nat) (v : Chain) : (s.setChain n v).mctp = s.mctp := rfl
@[simp] theorem State.setChain_cxlReply (s : State) (n : Nat) (v : Chain) : (s.setChain n v).cxlReply = s.cxlReply := rfl
@[simp] theorem State.setChain_ckptKey (s : State) (n : Nat) (v : Chain) : (s.setChain n v).ckptKey = s.ckptKey := rfl
@[simp] theorem State.setChain_ckptExpiry (s : State) (n : Nat) (v : Chain) : (s.setChain n v).ckptExpiry = s.ckptExpiry := rfl
@[simp] theorem State.setChain_ckptSerial (s : State) (n : Nat) (v : Chain) : (s.setChain n v).ckptSerial = s.ckptSerial := rfl
@[simp] theorem State.setChain_schedule (s : State) (n : Nat) (v : Chain) : (s.setChain n v).schedule = s.schedule := rfl
@[simp] theorem State.setChain_freeCtr (s : State) (n : Nat) (v : Chain) : (s.setChain n v).freeCtr = s.freeCtr := rfl
@[simp] theorem State.setChain_uidCtr (s : State) (n : Nat) (v : Chain) : (s.setChain n v).uidCtr = s.uidCtr := rfl
@[simp] theorem State.setChain_turnPtr (s : State) (n : Nat) (v : Chain) : (s.setChain n v).turnPtr = s.turnPtr := rfl
@[simp] theorem State.setChain_cur (s : State) (n : Nat) (v : Chain) : (s.setChain n v).cur = s.cur := rfl

/-! ### `State.setBank` -/

@[simp] theorem State.setBank_power (s : State) (l : Nat) (v : Bank) : (s.setBank l v).power = s.power := rfl
@[simp] theorem State.setBank_booted (s : State) (l : Nat) (v : Bank) : (s.setBank l v).booted = s.booted := rfl
@[simp] theorem State.setBank_bootState (s : State) (l : Nat) (v : Bank) : (s.setBank l v).bootState = s.bootState := rfl
@[simp] theorem State.setBank_meridian (s : State) (l : Nat) (v : Bank) : (s.setBank l v).meridian = s.meridian := rfl
@[simp] theorem State.setBank_cycle (s : State) (l : Nat) (v : Bank) : (s.setBank l v).cycle = s.cycle := rfl
@[simp] theorem State.setBank_firewallR (s : State) (l : Nat) (v : Bank) : (s.setBank l v).firewallR = s.firewallR := rfl
@[simp] theorem State.setBank_firewallW (s : State) (l : Nat) (v : Bank) : (s.setBank l v).firewallW = s.firewallW := rfl
@[simp] theorem State.setBank_firewallLock (s : State) (l : Nat) (v : Bank) : (s.setBank l v).firewallLock = s.firewallLock := rfl
@[simp] theorem State.setBank_mem (s : State) (l : Nat) (v : Bank) : (s.setBank l v).mem = s.mem := rfl
@[simp] theorem State.setBank_lineKeys (s : State) (l : Nat) (v : Bank) : (s.setBank l v).lineKeys = s.lineKeys := rfl
@[simp] theorem State.setBank_eccBad (s : State) (l : Nat) (v : Bank) : (s.setBank l v).eccBad = s.eccBad := rfl
@[simp] theorem State.setBank_keySerial (s : State) (l : Nat) (v : Bank) : (s.setBank l v).keySerial = s.keySerial := rfl
@[simp] theorem State.setBank_attKey (s : State) (l : Nat) (v : Bank) : (s.setBank l v).attKey = s.attKey := rfl
@[simp] theorem State.setBank_full (s : State) (l : Nat) (v : Bank) : (s.setBank l v).full = s.full := rfl
@[simp] theorem State.setBank_feWaiters (s : State) (l : Nat) (v : Bank) : (s.setBank l v).feWaiters = s.feWaiters := rfl
@[simp] theorem State.setBank_barWaiters (s : State) (l : Nat) (v : Bank) : (s.setBank l v).barWaiters = s.barWaiters := rfl
@[simp] theorem State.setBank_waitTable (s : State) (l : Nat) (v : Bank) : (s.setBank l v).waitTable = s.waitTable := rfl
@[simp] theorem State.setBank_l2 (s : State) (l : Nat) (v : Bank) : (s.setBank l v).l2 = s.l2 := rfl
@[simp] theorem State.setBank_msc (s : State) (l : Nat) (v : Bank) : (s.setBank l v).msc = s.msc := rfl
@[simp] theorem State.setBank_wayMasks (s : State) (l : Nat) (v : Bank) : (s.setBank l v).wayMasks = s.wayMasks := rfl
@[simp] theorem State.setBank_dieTlb (s : State) (l : Nat) (v : Bank) : (s.setBank l v).dieTlb = s.dieTlb := rfl
@[simp] theorem State.setBank_clusterTlb (s : State) (l : Nat) (v : Bank) : (s.setBank l v).clusterTlb = s.clusterTlb := rfl
@[simp] theorem State.setBank_ruleCaches (s : State) (l : Nat) (v : Bank) : (s.setBank l v).ruleCaches = s.ruleCaches := rfl
@[simp] theorem State.setBank_principals (s : State) (l : Nat) (v : Bank) : (s.setBank l v).principals = s.principals := rfl
@[simp] theorem State.setBank_chains (s : State) (l : Nat) (v : Bank) : (s.setBank l v).chains = s.chains := rfl
@[simp] theorem State.setBank_sweep (s : State) (l : Nat) (v : Bank) : (s.setBank l v).sweep = s.sweep := rfl
@[simp] theorem State.setBank_revocations (s : State) (l : Nat) (v : Bank) : (s.setBank l v).revocations = s.revocations := rfl
@[simp] theorem State.setBank_worlds (s : State) (l : Nat) (v : Bank) : (s.setBank l v).worlds = s.worlds := rfl
@[simp] theorem State.setBank_fns (s : State) (l : Nat) (v : Bank) : (s.setBank l v).fns = s.fns := rfl
@[simp] theorem State.setBank_cores (s : State) (l : Nat) (v : Bank) : (s.setBank l v).cores = s.cores := rfl
@[simp] theorem State.setBank_net (s : State) (l : Nat) (v : Bank) : (s.setBank l v).net = s.net := rfl
@[simp] theorem State.setBank_engCmds (s : State) (l : Nat) (v : Bank) : (s.setBank l v).engCmds = s.engCmds := rfl
@[simp] theorem State.setBank_engResults (s : State) (l : Nat) (v : Bank) : (s.setBank l v).engResults = s.engResults := rfl
@[simp] theorem State.setBank_ports (s : State) (l : Nat) (v : Bank) : (s.setBank l v).ports = s.ports := rfl
@[simp] theorem State.setBank_dies (s : State) (l : Nat) (v : Bank) : (s.setBank l v).dies = s.dies := rfl
@[simp] theorem State.setBank_uncore (s : State) (l : Nat) (v : Bank) : (s.setBank l v).uncore = s.uncore := rfl
@[simp] theorem State.setBank_powerCap (s : State) (l : Nat) (v : Bank) : (s.setBank l v).powerCap = s.powerCap := rfl
@[simp] theorem State.setBank_powerNow (s : State) (l : Nat) (v : Bank) : (s.setBank l v).powerNow = s.powerNow := rfl
@[simp] theorem State.setBank_mctp (s : State) (l : Nat) (v : Bank) : (s.setBank l v).mctp = s.mctp := rfl
@[simp] theorem State.setBank_cxlReply (s : State) (l : Nat) (v : Bank) : (s.setBank l v).cxlReply = s.cxlReply := rfl
@[simp] theorem State.setBank_ckptKey (s : State) (l : Nat) (v : Bank) : (s.setBank l v).ckptKey = s.ckptKey := rfl
@[simp] theorem State.setBank_ckptExpiry (s : State) (l : Nat) (v : Bank) : (s.setBank l v).ckptExpiry = s.ckptExpiry := rfl
@[simp] theorem State.setBank_ckptSerial (s : State) (l : Nat) (v : Bank) : (s.setBank l v).ckptSerial = s.ckptSerial := rfl
@[simp] theorem State.setBank_schedule (s : State) (l : Nat) (v : Bank) : (s.setBank l v).schedule = s.schedule := rfl
@[simp] theorem State.setBank_freeCtr (s : State) (l : Nat) (v : Bank) : (s.setBank l v).freeCtr = s.freeCtr := rfl
@[simp] theorem State.setBank_uidCtr (s : State) (l : Nat) (v : Bank) : (s.setBank l v).uidCtr = s.uidCtr := rfl
@[simp] theorem State.setBank_turnPtr (s : State) (l : Nat) (v : Bank) : (s.setBank l v).turnPtr = s.turnPtr := rfl
@[simp] theorem State.setBank_cur (s : State) (l : Nat) (v : Bank) : (s.setBank l v).cur = s.cur := rfl

/-! ### `State.setFull` -/

@[simp] theorem State.setFull_power (s : State) (l : Nat) (b : Bool) : (s.setFull l b).power = s.power := rfl
@[simp] theorem State.setFull_booted (s : State) (l : Nat) (b : Bool) : (s.setFull l b).booted = s.booted := rfl
@[simp] theorem State.setFull_bootState (s : State) (l : Nat) (b : Bool) : (s.setFull l b).bootState = s.bootState := rfl
@[simp] theorem State.setFull_meridian (s : State) (l : Nat) (b : Bool) : (s.setFull l b).meridian = s.meridian := rfl
@[simp] theorem State.setFull_cycle (s : State) (l : Nat) (b : Bool) : (s.setFull l b).cycle = s.cycle := rfl
@[simp] theorem State.setFull_firewallR (s : State) (l : Nat) (b : Bool) : (s.setFull l b).firewallR = s.firewallR := rfl
@[simp] theorem State.setFull_firewallW (s : State) (l : Nat) (b : Bool) : (s.setFull l b).firewallW = s.firewallW := rfl
@[simp] theorem State.setFull_firewallLock (s : State) (l : Nat) (b : Bool) : (s.setFull l b).firewallLock = s.firewallLock := rfl
@[simp] theorem State.setFull_mem (s : State) (l : Nat) (b : Bool) : (s.setFull l b).mem = s.mem := rfl
@[simp] theorem State.setFull_lineKeys (s : State) (l : Nat) (b : Bool) : (s.setFull l b).lineKeys = s.lineKeys := rfl
@[simp] theorem State.setFull_eccBad (s : State) (l : Nat) (b : Bool) : (s.setFull l b).eccBad = s.eccBad := rfl
@[simp] theorem State.setFull_keySerial (s : State) (l : Nat) (b : Bool) : (s.setFull l b).keySerial = s.keySerial := rfl
@[simp] theorem State.setFull_attKey (s : State) (l : Nat) (b : Bool) : (s.setFull l b).attKey = s.attKey := rfl
@[simp] theorem State.setFull_feWaiters (s : State) (l : Nat) (b : Bool) : (s.setFull l b).feWaiters = s.feWaiters := rfl
@[simp] theorem State.setFull_banks (s : State) (l : Nat) (b : Bool) : (s.setFull l b).banks = s.banks := rfl
@[simp] theorem State.setFull_barWaiters (s : State) (l : Nat) (b : Bool) : (s.setFull l b).barWaiters = s.barWaiters := rfl
@[simp] theorem State.setFull_waitTable (s : State) (l : Nat) (b : Bool) : (s.setFull l b).waitTable = s.waitTable := rfl
@[simp] theorem State.setFull_l2 (s : State) (l : Nat) (b : Bool) : (s.setFull l b).l2 = s.l2 := rfl
@[simp] theorem State.setFull_msc (s : State) (l : Nat) (b : Bool) : (s.setFull l b).msc = s.msc := rfl
@[simp] theorem State.setFull_wayMasks (s : State) (l : Nat) (b : Bool) : (s.setFull l b).wayMasks = s.wayMasks := rfl
@[simp] theorem State.setFull_dieTlb (s : State) (l : Nat) (b : Bool) : (s.setFull l b).dieTlb = s.dieTlb := rfl
@[simp] theorem State.setFull_clusterTlb (s : State) (l : Nat) (b : Bool) : (s.setFull l b).clusterTlb = s.clusterTlb := rfl
@[simp] theorem State.setFull_ruleCaches (s : State) (l : Nat) (b : Bool) : (s.setFull l b).ruleCaches = s.ruleCaches := rfl
@[simp] theorem State.setFull_principals (s : State) (l : Nat) (b : Bool) : (s.setFull l b).principals = s.principals := rfl
@[simp] theorem State.setFull_chains (s : State) (l : Nat) (b : Bool) : (s.setFull l b).chains = s.chains := rfl
@[simp] theorem State.setFull_sweep (s : State) (l : Nat) (b : Bool) : (s.setFull l b).sweep = s.sweep := rfl
@[simp] theorem State.setFull_revocations (s : State) (l : Nat) (b : Bool) : (s.setFull l b).revocations = s.revocations := rfl
@[simp] theorem State.setFull_worlds (s : State) (l : Nat) (b : Bool) : (s.setFull l b).worlds = s.worlds := rfl
@[simp] theorem State.setFull_fns (s : State) (l : Nat) (b : Bool) : (s.setFull l b).fns = s.fns := rfl
@[simp] theorem State.setFull_cores (s : State) (l : Nat) (b : Bool) : (s.setFull l b).cores = s.cores := rfl
@[simp] theorem State.setFull_net (s : State) (l : Nat) (b : Bool) : (s.setFull l b).net = s.net := rfl
@[simp] theorem State.setFull_engCmds (s : State) (l : Nat) (b : Bool) : (s.setFull l b).engCmds = s.engCmds := rfl
@[simp] theorem State.setFull_engResults (s : State) (l : Nat) (b : Bool) : (s.setFull l b).engResults = s.engResults := rfl
@[simp] theorem State.setFull_ports (s : State) (l : Nat) (b : Bool) : (s.setFull l b).ports = s.ports := rfl
@[simp] theorem State.setFull_dies (s : State) (l : Nat) (b : Bool) : (s.setFull l b).dies = s.dies := rfl
@[simp] theorem State.setFull_uncore (s : State) (l : Nat) (b : Bool) : (s.setFull l b).uncore = s.uncore := rfl
@[simp] theorem State.setFull_powerCap (s : State) (l : Nat) (b : Bool) : (s.setFull l b).powerCap = s.powerCap := rfl
@[simp] theorem State.setFull_powerNow (s : State) (l : Nat) (b : Bool) : (s.setFull l b).powerNow = s.powerNow := rfl
@[simp] theorem State.setFull_mctp (s : State) (l : Nat) (b : Bool) : (s.setFull l b).mctp = s.mctp := rfl
@[simp] theorem State.setFull_cxlReply (s : State) (l : Nat) (b : Bool) : (s.setFull l b).cxlReply = s.cxlReply := rfl
@[simp] theorem State.setFull_ckptKey (s : State) (l : Nat) (b : Bool) : (s.setFull l b).ckptKey = s.ckptKey := rfl
@[simp] theorem State.setFull_ckptExpiry (s : State) (l : Nat) (b : Bool) : (s.setFull l b).ckptExpiry = s.ckptExpiry := rfl
@[simp] theorem State.setFull_ckptSerial (s : State) (l : Nat) (b : Bool) : (s.setFull l b).ckptSerial = s.ckptSerial := rfl
@[simp] theorem State.setFull_schedule (s : State) (l : Nat) (b : Bool) : (s.setFull l b).schedule = s.schedule := rfl
@[simp] theorem State.setFull_freeCtr (s : State) (l : Nat) (b : Bool) : (s.setFull l b).freeCtr = s.freeCtr := rfl
@[simp] theorem State.setFull_uidCtr (s : State) (l : Nat) (b : Bool) : (s.setFull l b).uidCtr = s.uidCtr := rfl
@[simp] theorem State.setFull_turnPtr (s : State) (l : Nat) (b : Bool) : (s.setFull l b).turnPtr = s.turnPtr := rfl
@[simp] theorem State.setFull_cur (s : State) (l : Nat) (b : Bool) : (s.setFull l b).cur = s.cur := rfl

/-! ### `State.setByte` -/

@[simp] theorem State.setByte_power (s : State) (l : Nat) (b : Byte) : (s.setByte l b).power = s.power := rfl
@[simp] theorem State.setByte_booted (s : State) (l : Nat) (b : Byte) : (s.setByte l b).booted = s.booted := rfl
@[simp] theorem State.setByte_bootState (s : State) (l : Nat) (b : Byte) : (s.setByte l b).bootState = s.bootState := rfl
@[simp] theorem State.setByte_meridian (s : State) (l : Nat) (b : Byte) : (s.setByte l b).meridian = s.meridian := rfl
@[simp] theorem State.setByte_cycle (s : State) (l : Nat) (b : Byte) : (s.setByte l b).cycle = s.cycle := rfl
@[simp] theorem State.setByte_firewallR (s : State) (l : Nat) (b : Byte) : (s.setByte l b).firewallR = s.firewallR := rfl
@[simp] theorem State.setByte_firewallW (s : State) (l : Nat) (b : Byte) : (s.setByte l b).firewallW = s.firewallW := rfl
@[simp] theorem State.setByte_firewallLock (s : State) (l : Nat) (b : Byte) : (s.setByte l b).firewallLock = s.firewallLock := rfl
@[simp] theorem State.setByte_lineKeys (s : State) (l : Nat) (b : Byte) : (s.setByte l b).lineKeys = s.lineKeys := rfl
@[simp] theorem State.setByte_eccBad (s : State) (l : Nat) (b : Byte) : (s.setByte l b).eccBad = s.eccBad := rfl
@[simp] theorem State.setByte_keySerial (s : State) (l : Nat) (b : Byte) : (s.setByte l b).keySerial = s.keySerial := rfl
@[simp] theorem State.setByte_attKey (s : State) (l : Nat) (b : Byte) : (s.setByte l b).attKey = s.attKey := rfl
@[simp] theorem State.setByte_full (s : State) (l : Nat) (b : Byte) : (s.setByte l b).full = s.full := rfl
@[simp] theorem State.setByte_feWaiters (s : State) (l : Nat) (b : Byte) : (s.setByte l b).feWaiters = s.feWaiters := rfl
@[simp] theorem State.setByte_banks (s : State) (l : Nat) (b : Byte) : (s.setByte l b).banks = s.banks := rfl
@[simp] theorem State.setByte_barWaiters (s : State) (l : Nat) (b : Byte) : (s.setByte l b).barWaiters = s.barWaiters := rfl
@[simp] theorem State.setByte_waitTable (s : State) (l : Nat) (b : Byte) : (s.setByte l b).waitTable = s.waitTable := rfl
@[simp] theorem State.setByte_l2 (s : State) (l : Nat) (b : Byte) : (s.setByte l b).l2 = s.l2 := rfl
@[simp] theorem State.setByte_msc (s : State) (l : Nat) (b : Byte) : (s.setByte l b).msc = s.msc := rfl
@[simp] theorem State.setByte_wayMasks (s : State) (l : Nat) (b : Byte) : (s.setByte l b).wayMasks = s.wayMasks := rfl
@[simp] theorem State.setByte_dieTlb (s : State) (l : Nat) (b : Byte) : (s.setByte l b).dieTlb = s.dieTlb := rfl
@[simp] theorem State.setByte_clusterTlb (s : State) (l : Nat) (b : Byte) : (s.setByte l b).clusterTlb = s.clusterTlb := rfl
@[simp] theorem State.setByte_ruleCaches (s : State) (l : Nat) (b : Byte) : (s.setByte l b).ruleCaches = s.ruleCaches := rfl
@[simp] theorem State.setByte_principals (s : State) (l : Nat) (b : Byte) : (s.setByte l b).principals = s.principals := rfl
@[simp] theorem State.setByte_chains (s : State) (l : Nat) (b : Byte) : (s.setByte l b).chains = s.chains := rfl
@[simp] theorem State.setByte_sweep (s : State) (l : Nat) (b : Byte) : (s.setByte l b).sweep = s.sweep := rfl
@[simp] theorem State.setByte_revocations (s : State) (l : Nat) (b : Byte) : (s.setByte l b).revocations = s.revocations := rfl
@[simp] theorem State.setByte_worlds (s : State) (l : Nat) (b : Byte) : (s.setByte l b).worlds = s.worlds := rfl
@[simp] theorem State.setByte_fns (s : State) (l : Nat) (b : Byte) : (s.setByte l b).fns = s.fns := rfl
@[simp] theorem State.setByte_cores (s : State) (l : Nat) (b : Byte) : (s.setByte l b).cores = s.cores := rfl
@[simp] theorem State.setByte_net (s : State) (l : Nat) (b : Byte) : (s.setByte l b).net = s.net := rfl
@[simp] theorem State.setByte_engCmds (s : State) (l : Nat) (b : Byte) : (s.setByte l b).engCmds = s.engCmds := rfl
@[simp] theorem State.setByte_engResults (s : State) (l : Nat) (b : Byte) : (s.setByte l b).engResults = s.engResults := rfl
@[simp] theorem State.setByte_ports (s : State) (l : Nat) (b : Byte) : (s.setByte l b).ports = s.ports := rfl
@[simp] theorem State.setByte_dies (s : State) (l : Nat) (b : Byte) : (s.setByte l b).dies = s.dies := rfl
@[simp] theorem State.setByte_uncore (s : State) (l : Nat) (b : Byte) : (s.setByte l b).uncore = s.uncore := rfl
@[simp] theorem State.setByte_powerCap (s : State) (l : Nat) (b : Byte) : (s.setByte l b).powerCap = s.powerCap := rfl
@[simp] theorem State.setByte_powerNow (s : State) (l : Nat) (b : Byte) : (s.setByte l b).powerNow = s.powerNow := rfl
@[simp] theorem State.setByte_mctp (s : State) (l : Nat) (b : Byte) : (s.setByte l b).mctp = s.mctp := rfl
@[simp] theorem State.setByte_cxlReply (s : State) (l : Nat) (b : Byte) : (s.setByte l b).cxlReply = s.cxlReply := rfl
@[simp] theorem State.setByte_ckptKey (s : State) (l : Nat) (b : Byte) : (s.setByte l b).ckptKey = s.ckptKey := rfl
@[simp] theorem State.setByte_ckptExpiry (s : State) (l : Nat) (b : Byte) : (s.setByte l b).ckptExpiry = s.ckptExpiry := rfl
@[simp] theorem State.setByte_ckptSerial (s : State) (l : Nat) (b : Byte) : (s.setByte l b).ckptSerial = s.ckptSerial := rfl
@[simp] theorem State.setByte_schedule (s : State) (l : Nat) (b : Byte) : (s.setByte l b).schedule = s.schedule := rfl
@[simp] theorem State.setByte_freeCtr (s : State) (l : Nat) (b : Byte) : (s.setByte l b).freeCtr = s.freeCtr := rfl
@[simp] theorem State.setByte_uidCtr (s : State) (l : Nat) (b : Byte) : (s.setByte l b).uidCtr = s.uidCtr := rfl
@[simp] theorem State.setByte_turnPtr (s : State) (l : Nat) (b : Byte) : (s.setByte l b).turnPtr = s.turnPtr := rfl
@[simp] theorem State.setByte_cur (s : State) (l : Nat) (b : Byte) : (s.setByte l b).cur = s.cur := rfl

/-! ### `Core.setSlot` -/

@[simp] theorem Core.setSlot_world (k : Core) (n : Nat) (v : Slot) : (k.setSlot n v).world = k.world := rfl
@[simp] theorem Core.setSlot_enabled (k : Core) (n : Nat) (v : Slot) : (k.setSlot n v).enabled = k.enabled := rfl
@[simp] theorem Core.setSlot_enabledAt (k : Core) (n : Nat) (v : Slot) : (k.setSlot n v).enabledAt = k.enabledAt := rfl
@[simp] theorem Core.setSlot_zeroing (k : Core) (n : Nat) (v : Slot) : (k.setSlot n v).zeroing = k.zeroing := rfl
@[simp] theorem Core.setSlot_seqBase (k : Core) (n : Nat) (v : Slot) : (k.setSlot n v).seqBase = k.seqBase := rfl
@[simp] theorem Core.setSlot_seqSize (k : Core) (n : Nat) (v : Slot) : (k.setSlot n v).seqSize = k.seqSize := rfl
@[simp] theorem Core.setSlot_qdef (k : Core) (n : Nat) (v : Slot) : (k.setSlot n v).qdef = k.qdef := rfl
@[simp] theorem Core.setSlot_pipecfg (k : Core) (n : Nat) (v : Slot) : (k.setSlot n v).pipecfg = k.pipecfg := rfl
@[simp] theorem Core.setSlot_trapq (k : Core) (n : Nat) (v : Slot) : (k.setSlot n v).trapq = k.trapq := rfl
@[simp] theorem Core.setSlot_slotsel (k : Core) (n : Nat) (v : Slot) : (k.setSlot n v).slotsel = k.slotsel := rfl
@[simp] theorem Core.setSlot_vbase (k : Core) (n : Nat) (v : Slot) : (k.setSlot n v).vbase = k.vbase := rfl
@[simp] theorem Core.setSlot_evsel (k : Core) (n : Nat) (v : Slot) : (k.setSlot n v).evsel = k.evsel := rfl
@[simp] theorem Core.setSlot_evcnt (k : Core) (n : Nat) (v : Slot) : (k.setSlot n v).evcnt = k.evcnt := rfl
@[simp] theorem Core.setSlot_l1 (k : Core) (n : Nat) (v : Slot) : (k.setSlot n v).l1 = k.l1 := rfl
@[simp] theorem Core.setSlot_fills (k : Core) (n : Nat) (v : Slot) : (k.setSlot n v).fills = k.fills := rfl
@[simp] theorem Core.setSlot_code (k : Core) (n : Nat) (v : Slot) : (k.setSlot n v).code = k.code := rfl
@[simp] theorem Core.setSlot_sb (k : Core) (n : Nat) (v : Slot) : (k.setSlot n v).sb = k.sb := rfl
@[simp] theorem Core.setSlot_tlb (k : Core) (n : Nat) (v : Slot) : (k.setSlot n v).tlb = k.tlb := rfl
@[simp] theorem Core.setSlot_capCache (k : Core) (n : Nat) (v : Slot) : (k.setSlot n v).capCache = k.capCache := rfl
@[simp] theorem Core.setSlot_deques (k : Core) (n : Nat) (v : Slot) : (k.setSlot n v).deques = k.deques := rfl
@[simp] theorem Core.setSlot_cache (k : Core) (n : Nat) (v : Slot) : (k.setSlot n v).cache = k.cache := rfl
@[simp] theorem Core.setSlot_spillSeq (k : Core) (n : Nat) (v : Slot) : (k.setSlot n v).spillSeq = k.spillSeq := rfl
@[simp] theorem Core.setSlot_leaving (k : Core) (n : Nat) (v : Slot) : (k.setSlot n v).leaving = k.leaving := rfl
@[simp] theorem Core.setSlot_msgs (k : Core) (n : Nat) (v : Slot) : (k.setSlot n v).msgs = k.msgs := rfl
@[simp] theorem Core.setSlot_overflow (k : Core) (n : Nat) (v : Slot) : (k.setSlot n v).overflow = k.overflow := rfl
@[simp] theorem Core.setSlot_copies (k : Core) (n : Nat) (v : Slot) : (k.setSlot n v).copies = k.copies := rfl
@[simp] theorem Core.setSlot_appends (k : Core) (n : Nat) (v : Slot) : (k.setSlot n v).appends = k.appends := rfl
@[simp] theorem Core.setSlot_inq (k : Core) (n : Nat) (v : Slot) : (k.setSlot n v).inq = k.inq := rfl
@[simp] theorem Core.setSlot_chans (k : Core) (n : Nat) (v : Slot) : (k.setSlot n v).chans = k.chans := rfl
@[simp] theorem Core.setSlot_chanRx (k : Core) (n : Nat) (v : Slot) : (k.setSlot n v).chanRx = k.chanRx := rfl
@[simp] theorem Core.setSlot_chanTx (k : Core) (n : Nat) (v : Slot) : (k.setSlot n v).chanTx = k.chanTx := rfl
@[simp] theorem Core.setSlot_accs (k : Core) (n : Nat) (v : Slot) : (k.setSlot n v).accs = k.accs := rfl
@[simp] theorem Core.setSlot_planes (k : Core) (n : Nat) (v : Slot) : (k.setSlot n v).planes = k.planes := rfl
@[simp] theorem Core.setSlot_proj (k : Core) (n : Nat) (v : Slot) : (k.setSlot n v).proj = k.proj := rfl
@[simp] theorem Core.setSlot_projUse (k : Core) (n : Nat) (v : Slot) : (k.setSlot n v).projUse = k.projUse := rfl
@[simp] theorem Core.setSlot_claims (k : Core) (n : Nat) (v : Slot) : (k.setSlot n v).claims = k.claims := rfl
@[simp] theorem Core.setSlot_steal (k : Core) (n : Nat) (v : Slot) : (k.setSlot n v).steal = k.steal := rfl
@[simp] theorem Core.setSlot_gated (k : Core) (n : Nat) (v : Slot) : (k.setSlot n v).gated = k.gated := rfl
@[simp] theorem Core.setSlot_lastRow (k : Core) (n : Nat) (v : Slot) : (k.setSlot n v).lastRow = k.lastRow := rfl
@[simp] theorem Core.setSlot_arrayWake (k : Core) (n : Nat) (v : Slot) : (k.setSlot n v).arrayWake = k.arrayWake := rfl
@[simp] theorem Core.setSlot_copyWake (k : Core) (n : Nat) (v : Slot) : (k.setSlot n v).copyWake = k.copyWake := rfl

/-! ### `Core.modSlot` -/

@[simp] theorem Core.modSlot_world (k : Core) (n : Nat) (f : Slot → Slot) : (k.modSlot n f).world = k.world := rfl
@[simp] theorem Core.modSlot_enabled (k : Core) (n : Nat) (f : Slot → Slot) : (k.modSlot n f).enabled = k.enabled := rfl
@[simp] theorem Core.modSlot_enabledAt (k : Core) (n : Nat) (f : Slot → Slot) : (k.modSlot n f).enabledAt = k.enabledAt := rfl
@[simp] theorem Core.modSlot_zeroing (k : Core) (n : Nat) (f : Slot → Slot) : (k.modSlot n f).zeroing = k.zeroing := rfl
@[simp] theorem Core.modSlot_seqBase (k : Core) (n : Nat) (f : Slot → Slot) : (k.modSlot n f).seqBase = k.seqBase := rfl
@[simp] theorem Core.modSlot_seqSize (k : Core) (n : Nat) (f : Slot → Slot) : (k.modSlot n f).seqSize = k.seqSize := rfl
@[simp] theorem Core.modSlot_qdef (k : Core) (n : Nat) (f : Slot → Slot) : (k.modSlot n f).qdef = k.qdef := rfl
@[simp] theorem Core.modSlot_pipecfg (k : Core) (n : Nat) (f : Slot → Slot) : (k.modSlot n f).pipecfg = k.pipecfg := rfl
@[simp] theorem Core.modSlot_trapq (k : Core) (n : Nat) (f : Slot → Slot) : (k.modSlot n f).trapq = k.trapq := rfl
@[simp] theorem Core.modSlot_slotsel (k : Core) (n : Nat) (f : Slot → Slot) : (k.modSlot n f).slotsel = k.slotsel := rfl
@[simp] theorem Core.modSlot_vbase (k : Core) (n : Nat) (f : Slot → Slot) : (k.modSlot n f).vbase = k.vbase := rfl
@[simp] theorem Core.modSlot_evsel (k : Core) (n : Nat) (f : Slot → Slot) : (k.modSlot n f).evsel = k.evsel := rfl
@[simp] theorem Core.modSlot_evcnt (k : Core) (n : Nat) (f : Slot → Slot) : (k.modSlot n f).evcnt = k.evcnt := rfl
@[simp] theorem Core.modSlot_l1 (k : Core) (n : Nat) (f : Slot → Slot) : (k.modSlot n f).l1 = k.l1 := rfl
@[simp] theorem Core.modSlot_fills (k : Core) (n : Nat) (f : Slot → Slot) : (k.modSlot n f).fills = k.fills := rfl
@[simp] theorem Core.modSlot_code (k : Core) (n : Nat) (f : Slot → Slot) : (k.modSlot n f).code = k.code := rfl
@[simp] theorem Core.modSlot_sb (k : Core) (n : Nat) (f : Slot → Slot) : (k.modSlot n f).sb = k.sb := rfl
@[simp] theorem Core.modSlot_tlb (k : Core) (n : Nat) (f : Slot → Slot) : (k.modSlot n f).tlb = k.tlb := rfl
@[simp] theorem Core.modSlot_capCache (k : Core) (n : Nat) (f : Slot → Slot) : (k.modSlot n f).capCache = k.capCache := rfl
@[simp] theorem Core.modSlot_deques (k : Core) (n : Nat) (f : Slot → Slot) : (k.modSlot n f).deques = k.deques := rfl
@[simp] theorem Core.modSlot_cache (k : Core) (n : Nat) (f : Slot → Slot) : (k.modSlot n f).cache = k.cache := rfl
@[simp] theorem Core.modSlot_spillSeq (k : Core) (n : Nat) (f : Slot → Slot) : (k.modSlot n f).spillSeq = k.spillSeq := rfl
@[simp] theorem Core.modSlot_leaving (k : Core) (n : Nat) (f : Slot → Slot) : (k.modSlot n f).leaving = k.leaving := rfl
@[simp] theorem Core.modSlot_msgs (k : Core) (n : Nat) (f : Slot → Slot) : (k.modSlot n f).msgs = k.msgs := rfl
@[simp] theorem Core.modSlot_overflow (k : Core) (n : Nat) (f : Slot → Slot) : (k.modSlot n f).overflow = k.overflow := rfl
@[simp] theorem Core.modSlot_copies (k : Core) (n : Nat) (f : Slot → Slot) : (k.modSlot n f).copies = k.copies := rfl
@[simp] theorem Core.modSlot_appends (k : Core) (n : Nat) (f : Slot → Slot) : (k.modSlot n f).appends = k.appends := rfl
@[simp] theorem Core.modSlot_inq (k : Core) (n : Nat) (f : Slot → Slot) : (k.modSlot n f).inq = k.inq := rfl
@[simp] theorem Core.modSlot_chans (k : Core) (n : Nat) (f : Slot → Slot) : (k.modSlot n f).chans = k.chans := rfl
@[simp] theorem Core.modSlot_chanRx (k : Core) (n : Nat) (f : Slot → Slot) : (k.modSlot n f).chanRx = k.chanRx := rfl
@[simp] theorem Core.modSlot_chanTx (k : Core) (n : Nat) (f : Slot → Slot) : (k.modSlot n f).chanTx = k.chanTx := rfl
@[simp] theorem Core.modSlot_accs (k : Core) (n : Nat) (f : Slot → Slot) : (k.modSlot n f).accs = k.accs := rfl
@[simp] theorem Core.modSlot_planes (k : Core) (n : Nat) (f : Slot → Slot) : (k.modSlot n f).planes = k.planes := rfl
@[simp] theorem Core.modSlot_proj (k : Core) (n : Nat) (f : Slot → Slot) : (k.modSlot n f).proj = k.proj := rfl
@[simp] theorem Core.modSlot_projUse (k : Core) (n : Nat) (f : Slot → Slot) : (k.modSlot n f).projUse = k.projUse := rfl
@[simp] theorem Core.modSlot_claims (k : Core) (n : Nat) (f : Slot → Slot) : (k.modSlot n f).claims = k.claims := rfl
@[simp] theorem Core.modSlot_steal (k : Core) (n : Nat) (f : Slot → Slot) : (k.modSlot n f).steal = k.steal := rfl
@[simp] theorem Core.modSlot_gated (k : Core) (n : Nat) (f : Slot → Slot) : (k.modSlot n f).gated = k.gated := rfl
@[simp] theorem Core.modSlot_lastRow (k : Core) (n : Nat) (f : Slot → Slot) : (k.modSlot n f).lastRow = k.lastRow := rfl
@[simp] theorem Core.modSlot_arrayWake (k : Core) (n : Nat) (f : Slot → Slot) : (k.modSlot n f).arrayWake = k.arrayWake := rfl
@[simp] theorem Core.modSlot_copyWake (k : Core) (n : Nat) (f : Slot → Slot) : (k.modSlot n f).copyWake = k.copyWake := rfl

/-! ### `Core.tally` -/

@[simp] theorem Core.tally_world (k : Core) (e n j : Nat) : (k.tally e n j).world = k.world := rfl
@[simp] theorem Core.tally_enabled (k : Core) (e n j : Nat) : (k.tally e n j).enabled = k.enabled := rfl
@[simp] theorem Core.tally_enabledAt (k : Core) (e n j : Nat) : (k.tally e n j).enabledAt = k.enabledAt := rfl
@[simp] theorem Core.tally_zeroing (k : Core) (e n j : Nat) : (k.tally e n j).zeroing = k.zeroing := rfl
@[simp] theorem Core.tally_slots (k : Core) (e n j : Nat) : (k.tally e n j).slots = k.slots := rfl
@[simp] theorem Core.tally_seqBase (k : Core) (e n j : Nat) : (k.tally e n j).seqBase = k.seqBase := rfl
@[simp] theorem Core.tally_seqSize (k : Core) (e n j : Nat) : (k.tally e n j).seqSize = k.seqSize := rfl
@[simp] theorem Core.tally_qdef (k : Core) (e n j : Nat) : (k.tally e n j).qdef = k.qdef := rfl
@[simp] theorem Core.tally_pipecfg (k : Core) (e n j : Nat) : (k.tally e n j).pipecfg = k.pipecfg := rfl
@[simp] theorem Core.tally_trapq (k : Core) (e n j : Nat) : (k.tally e n j).trapq = k.trapq := rfl
@[simp] theorem Core.tally_slotsel (k : Core) (e n j : Nat) : (k.tally e n j).slotsel = k.slotsel := rfl
@[simp] theorem Core.tally_vbase (k : Core) (e n j : Nat) : (k.tally e n j).vbase = k.vbase := rfl
@[simp] theorem Core.tally_evsel (k : Core) (e n j : Nat) : (k.tally e n j).evsel = k.evsel := rfl
@[simp] theorem Core.tally_l1 (k : Core) (e n j : Nat) : (k.tally e n j).l1 = k.l1 := rfl
@[simp] theorem Core.tally_fills (k : Core) (e n j : Nat) : (k.tally e n j).fills = k.fills := rfl
@[simp] theorem Core.tally_code (k : Core) (e n j : Nat) : (k.tally e n j).code = k.code := rfl
@[simp] theorem Core.tally_sb (k : Core) (e n j : Nat) : (k.tally e n j).sb = k.sb := rfl
@[simp] theorem Core.tally_tlb (k : Core) (e n j : Nat) : (k.tally e n j).tlb = k.tlb := rfl
@[simp] theorem Core.tally_capCache (k : Core) (e n j : Nat) : (k.tally e n j).capCache = k.capCache := rfl
@[simp] theorem Core.tally_deques (k : Core) (e n j : Nat) : (k.tally e n j).deques = k.deques := rfl
@[simp] theorem Core.tally_cache (k : Core) (e n j : Nat) : (k.tally e n j).cache = k.cache := rfl
@[simp] theorem Core.tally_spillSeq (k : Core) (e n j : Nat) : (k.tally e n j).spillSeq = k.spillSeq := rfl
@[simp] theorem Core.tally_leaving (k : Core) (e n j : Nat) : (k.tally e n j).leaving = k.leaving := rfl
@[simp] theorem Core.tally_msgs (k : Core) (e n j : Nat) : (k.tally e n j).msgs = k.msgs := rfl
@[simp] theorem Core.tally_overflow (k : Core) (e n j : Nat) : (k.tally e n j).overflow = k.overflow := rfl
@[simp] theorem Core.tally_copies (k : Core) (e n j : Nat) : (k.tally e n j).copies = k.copies := rfl
@[simp] theorem Core.tally_appends (k : Core) (e n j : Nat) : (k.tally e n j).appends = k.appends := rfl
@[simp] theorem Core.tally_inq (k : Core) (e n j : Nat) : (k.tally e n j).inq = k.inq := rfl
@[simp] theorem Core.tally_chans (k : Core) (e n j : Nat) : (k.tally e n j).chans = k.chans := rfl
@[simp] theorem Core.tally_chanRx (k : Core) (e n j : Nat) : (k.tally e n j).chanRx = k.chanRx := rfl
@[simp] theorem Core.tally_chanTx (k : Core) (e n j : Nat) : (k.tally e n j).chanTx = k.chanTx := rfl
@[simp] theorem Core.tally_accs (k : Core) (e n j : Nat) : (k.tally e n j).accs = k.accs := rfl
@[simp] theorem Core.tally_planes (k : Core) (e n j : Nat) : (k.tally e n j).planes = k.planes := rfl
@[simp] theorem Core.tally_proj (k : Core) (e n j : Nat) : (k.tally e n j).proj = k.proj := rfl
@[simp] theorem Core.tally_projUse (k : Core) (e n j : Nat) : (k.tally e n j).projUse = k.projUse := rfl
@[simp] theorem Core.tally_claims (k : Core) (e n j : Nat) : (k.tally e n j).claims = k.claims := rfl
@[simp] theorem Core.tally_steal (k : Core) (e n j : Nat) : (k.tally e n j).steal = k.steal := rfl
@[simp] theorem Core.tally_gated (k : Core) (e n j : Nat) : (k.tally e n j).gated = k.gated := rfl
@[simp] theorem Core.tally_lastRow (k : Core) (e n j : Nat) : (k.tally e n j).lastRow = k.lastRow := rfl
@[simp] theorem Core.tally_arrayWake (k : Core) (e n j : Nat) : (k.tally e n j).arrayWake = k.arrayWake := rfl
@[simp] theorem Core.tally_copyWake (k : Core) (e n j : Nat) : (k.tally e n j).copyWake = k.copyWake := rfl

/-! ### `Core.invalidateL1` -/

@[simp] theorem Core.invalidateL1_world (k : Core) : (k.invalidateL1).world = k.world := rfl
@[simp] theorem Core.invalidateL1_enabled (k : Core) : (k.invalidateL1).enabled = k.enabled := rfl
@[simp] theorem Core.invalidateL1_enabledAt (k : Core) : (k.invalidateL1).enabledAt = k.enabledAt := rfl
@[simp] theorem Core.invalidateL1_zeroing (k : Core) : (k.invalidateL1).zeroing = k.zeroing := rfl
@[simp] theorem Core.invalidateL1_slots (k : Core) : (k.invalidateL1).slots = k.slots := rfl
@[simp] theorem Core.invalidateL1_seqBase (k : Core) : (k.invalidateL1).seqBase = k.seqBase := rfl
@[simp] theorem Core.invalidateL1_seqSize (k : Core) : (k.invalidateL1).seqSize = k.seqSize := rfl
@[simp] theorem Core.invalidateL1_qdef (k : Core) : (k.invalidateL1).qdef = k.qdef := rfl
@[simp] theorem Core.invalidateL1_pipecfg (k : Core) : (k.invalidateL1).pipecfg = k.pipecfg := rfl
@[simp] theorem Core.invalidateL1_trapq (k : Core) : (k.invalidateL1).trapq = k.trapq := rfl
@[simp] theorem Core.invalidateL1_slotsel (k : Core) : (k.invalidateL1).slotsel = k.slotsel := rfl
@[simp] theorem Core.invalidateL1_vbase (k : Core) : (k.invalidateL1).vbase = k.vbase := rfl
@[simp] theorem Core.invalidateL1_evsel (k : Core) : (k.invalidateL1).evsel = k.evsel := rfl
@[simp] theorem Core.invalidateL1_evcnt (k : Core) : (k.invalidateL1).evcnt = k.evcnt := rfl
@[simp] theorem Core.invalidateL1_code (k : Core) : (k.invalidateL1).code = k.code := rfl
@[simp] theorem Core.invalidateL1_sb (k : Core) : (k.invalidateL1).sb = k.sb := rfl
@[simp] theorem Core.invalidateL1_tlb (k : Core) : (k.invalidateL1).tlb = k.tlb := rfl
@[simp] theorem Core.invalidateL1_capCache (k : Core) : (k.invalidateL1).capCache = k.capCache := rfl
@[simp] theorem Core.invalidateL1_deques (k : Core) : (k.invalidateL1).deques = k.deques := rfl
@[simp] theorem Core.invalidateL1_cache (k : Core) : (k.invalidateL1).cache = k.cache := rfl
@[simp] theorem Core.invalidateL1_spillSeq (k : Core) : (k.invalidateL1).spillSeq = k.spillSeq := rfl
@[simp] theorem Core.invalidateL1_leaving (k : Core) : (k.invalidateL1).leaving = k.leaving := rfl
@[simp] theorem Core.invalidateL1_msgs (k : Core) : (k.invalidateL1).msgs = k.msgs := rfl
@[simp] theorem Core.invalidateL1_overflow (k : Core) : (k.invalidateL1).overflow = k.overflow := rfl
@[simp] theorem Core.invalidateL1_copies (k : Core) : (k.invalidateL1).copies = k.copies := rfl
@[simp] theorem Core.invalidateL1_appends (k : Core) : (k.invalidateL1).appends = k.appends := rfl
@[simp] theorem Core.invalidateL1_inq (k : Core) : (k.invalidateL1).inq = k.inq := rfl
@[simp] theorem Core.invalidateL1_chans (k : Core) : (k.invalidateL1).chans = k.chans := rfl
@[simp] theorem Core.invalidateL1_chanRx (k : Core) : (k.invalidateL1).chanRx = k.chanRx := rfl
@[simp] theorem Core.invalidateL1_chanTx (k : Core) : (k.invalidateL1).chanTx = k.chanTx := rfl
@[simp] theorem Core.invalidateL1_accs (k : Core) : (k.invalidateL1).accs = k.accs := rfl
@[simp] theorem Core.invalidateL1_planes (k : Core) : (k.invalidateL1).planes = k.planes := rfl
@[simp] theorem Core.invalidateL1_proj (k : Core) : (k.invalidateL1).proj = k.proj := rfl
@[simp] theorem Core.invalidateL1_projUse (k : Core) : (k.invalidateL1).projUse = k.projUse := rfl
@[simp] theorem Core.invalidateL1_claims (k : Core) : (k.invalidateL1).claims = k.claims := rfl
@[simp] theorem Core.invalidateL1_steal (k : Core) : (k.invalidateL1).steal = k.steal := rfl
@[simp] theorem Core.invalidateL1_gated (k : Core) : (k.invalidateL1).gated = k.gated := rfl
@[simp] theorem Core.invalidateL1_lastRow (k : Core) : (k.invalidateL1).lastRow = k.lastRow := rfl
@[simp] theorem Core.invalidateL1_arrayWake (k : Core) : (k.invalidateL1).arrayWake = k.arrayWake := rfl
@[simp] theorem Core.invalidateL1_copyWake (k : Core) : (k.invalidateL1).copyWake = k.copyWake := rfl

/-! ### `Slot.setReg` -/

@[simp] theorem Slot.setReg_st (sl : Slot) (r : Reg) (v : W64) : (sl.setReg r v).st = sl.st := by unfold Slot.setReg; split <;> rfl
@[simp] theorem Slot.setReg_nest (sl : Slot) (r : Reg) (v : W64) : (sl.setReg r v).nest = sl.nest := by unfold Slot.setReg; split <;> rfl
@[simp] theorem Slot.setReg_waiting (sl : Slot) (r : Reg) (v : W64) : (sl.setReg r v).waiting = sl.waiting := by unfold Slot.setReg; split <;> rfl
@[simp] theorem Slot.setReg_reissue (sl : Slot) (r : Reg) (v : W64) : (sl.setReg r v).reissue = sl.reissue := by unfold Slot.setReg; split <;> rfl
@[simp] theorem Slot.setReg_issued (sl : Slot) (r : Reg) (v : W64) : (sl.setReg r v).issued = sl.issued := by unfold Slot.setReg; split <;> rfl
@[simp] theorem Slot.setReg_stopReq (sl : Slot) (r : Reg) (v : W64) : (sl.setReg r v).stopReq = sl.stopReq := by unfold Slot.setReg; split <;> rfl
@[simp] theorem Slot.setReg_pc (sl : Slot) (r : Reg) (v : W64) : (sl.setReg r v).pc = sl.pc := by unfold Slot.setReg; split <;> rfl
@[simp] theorem Slot.setReg_p (sl : Slot) (r : Reg) (v : W64) : (sl.setReg r v).p = sl.p := by unfold Slot.setReg; split <;> rfl
@[simp] theorem Slot.setReg_cause (sl : Slot) (r : Reg) (v : W64) : (sl.setReg r v).cause = sl.cause := by unfold Slot.setReg; split <;> rfl
@[simp] theorem Slot.setReg_epc (sl : Slot) (r : Reg) (v : W64) : (sl.setReg r v).epc = sl.epc := by unfold Slot.setReg; split <;> rfl
@[simp] theorem Slot.setReg_tval (sl : Slot) (r : Reg) (v : W64) : (sl.setReg r v).tval = sl.tval := by unfold Slot.setReg; split <;> rfl
@[simp] theorem Slot.setReg_tcoord (sl : Slot) (r : Reg) (v : W64) : (sl.setReg r v).tcoord = sl.tcoord := by unfold Slot.setReg; split <;> rfl
@[simp] theorem Slot.setReg_tfmt (sl : Slot) (r : Reg) (v : W64) : (sl.setReg r v).tfmt = sl.tfmt := by unfold Slot.setReg; split <;> rfl
@[simp] theorem Slot.setReg_restart (sl : Slot) (r : Reg) (v : W64) : (sl.setReg r v).restart = sl.restart := by unfold Slot.setReg; split <;> rfl
@[simp] theorem Slot.setReg_fpc (sl : Slot) (r : Reg) (v : W64) : (sl.setReg r v).fpc = sl.fpc := by unfold Slot.setReg; split <;> rfl
@[simp] theorem Slot.setReg_flags (sl : Slot) (r : Reg) (v : W64) : (sl.setReg r v).flags = sl.flags := by unfold Slot.setReg; split <;> rfl
@[simp] theorem Slot.setReg_fmt (sl : Slot) (r : Reg) (v : W64) : (sl.setReg r v).fmt = sl.fmt := by unfold Slot.setReg; split <;> rfl
@[simp] theorem Slot.setReg_scl (sl : Slot) (r : Reg) (v : W64) : (sl.setReg r v).scl = sl.scl := by unfold Slot.setReg; split <;> rfl
@[simp] theorem Slot.setReg_chain (sl : Slot) (r : Reg) (v : W64) : (sl.setReg r v).chain = sl.chain := by unfold Slot.setReg; split <;> rfl
@[simp] theorem Slot.setReg_quantum (sl : Slot) (r : Reg) (v : W64) : (sl.setReg r v).quantum = sl.quantum := by unfold Slot.setReg; split <;> rfl
@[simp] theorem Slot.setReg_accown (sl : Slot) (r : Reg) (v : W64) : (sl.setReg r v).accown = sl.accown := by unfold Slot.setReg; split <;> rfl
@[simp] theorem Slot.setReg_plown (sl : Slot) (r : Reg) (v : W64) : (sl.setReg r v).plown = sl.plown := by unfold Slot.setReg; split <;> rfl
@[simp] theorem Slot.setReg_meter (sl : Slot) (r : Reg) (v : W64) : (sl.setReg r v).meter = sl.meter := by unfold Slot.setReg; split <;> rfl
@[simp] theorem Slot.setReg_task (sl : Slot) (r : Reg) (v : W64) : (sl.setReg r v).task = sl.task := by unfold Slot.setReg; split <;> rfl
@[simp] theorem Slot.setReg_tiles (sl : Slot) (r : Reg) (v : W64) : (sl.setReg r v).tiles = sl.tiles := by unfold Slot.setReg; split <;> rfl
@[simp] theorem Slot.setReg_join (sl : Slot) (r : Reg) (v : W64) : (sl.setReg r v).join = sl.join := by unfold Slot.setReg; split <;> rfl
@[simp] theorem Slot.setReg_band (sl : Slot) (r : Reg) (v : W64) : (sl.setReg r v).band = sl.band := by unfold Slot.setReg; split <;> rfl
@[simp] theorem Slot.setReg_aged (sl : Slot) (r : Reg) (v : W64) : (sl.setReg r v).aged = sl.aged := by unfold Slot.setReg; split <;> rfl
@[simp] theorem Slot.setReg_scope (sl : Slot) (r : Reg) (v : W64) : (sl.setReg r v).scope = sl.scope := by unfold Slot.setReg; split <;> rfl
@[simp] theorem Slot.setReg_pkt (sl : Slot) (r : Reg) (v : W64) : (sl.setReg r v).pkt = sl.pkt := by unfold Slot.setReg; split <;> rfl
@[simp] theorem Slot.setReg_watch (sl : Slot) (r : Reg) (v : W64) : (sl.setReg r v).watch = sl.watch := by unfold Slot.setReg; split <;> rfl
@[simp] theorem Slot.setReg_held (sl : Slot) (r : Reg) (v : W64) : (sl.setReg r v).held = sl.held := by unfold Slot.setReg; split <;> rfl
@[simp] theorem Slot.setReg_eng (sl : Slot) (r : Reg) (v : W64) : (sl.setReg r v).eng = sl.eng := by unfold Slot.setReg; split <;> rfl
@[simp] theorem Slot.setReg_copyFault (sl : Slot) (r : Reg) (v : W64) : (sl.setReg r v).copyFault = sl.copyFault := by unfold Slot.setReg; split <;> rfl
@[simp] theorem Slot.setReg_limit (sl : Slot) (r : Reg) (v : W64) : (sl.setReg r v).limit = sl.limit := by unfold Slot.setReg; split <;> rfl
@[simp] theorem Slot.setReg_waitpc (sl : Slot) (r : Reg) (v : W64) : (sl.setReg r v).waitpc = sl.waitpc := by unfold Slot.setReg; split <;> rfl
@[simp] theorem Slot.setReg_wmsel (sl : Slot) (r : Reg) (v : W64) : (sl.setReg r v).wmsel = sl.wmsel := by unfold Slot.setReg; split <;> rfl
@[simp] theorem Slot.setReg_spawning (sl : Slot) (r : Reg) (v : W64) : (sl.setReg r v).spawning = sl.spawning := by unfold Slot.setReg; split <;> rfl
@[simp] theorem Slot.setReg_popped (sl : Slot) (r : Reg) (v : W64) : (sl.setReg r v).popped = sl.popped := by unfold Slot.setReg; split <;> rfl
@[simp] theorem Slot.setReg_issuedAt (sl : Slot) (r : Reg) (v : W64) : (sl.setReg r v).issuedAt = sl.issuedAt := by unfold Slot.setReg; split <;> rfl
@[simp] theorem Slot.setReg_fpcAt (sl : Slot) (r : Reg) (v : W64) : (sl.setReg r v).fpcAt = sl.fpcAt := by unfold Slot.setReg; split <;> rfl
@[simp] theorem Slot.setReg_uid (sl : Slot) (r : Reg) (v : W64) : (sl.setReg r v).uid = sl.uid := by unfold Slot.setReg; split <;> rfl
@[simp] theorem Slot.setReg_charged (sl : Slot) (r : Reg) (v : W64) : (sl.setReg r v).charged = sl.charged := by unfold Slot.setReg; split <;> rfl
@[simp] theorem Slot.setReg_dispatchedAt (sl : Slot) (r : Reg) (v : W64) : (sl.setReg r v).dispatchedAt = sl.dispatchedAt := by unfold Slot.setReg; split <;> rfl

/-! ### `Slot.setPred` -/

@[simp] theorem Slot.setPred_st (sl : Slot) (p : Num3) (b : Bool) : (sl.setPred p b).st = sl.st := rfl
@[simp] theorem Slot.setPred_nest (sl : Slot) (p : Num3) (b : Bool) : (sl.setPred p b).nest = sl.nest := rfl
@[simp] theorem Slot.setPred_waiting (sl : Slot) (p : Num3) (b : Bool) : (sl.setPred p b).waiting = sl.waiting := rfl
@[simp] theorem Slot.setPred_reissue (sl : Slot) (p : Num3) (b : Bool) : (sl.setPred p b).reissue = sl.reissue := rfl
@[simp] theorem Slot.setPred_issued (sl : Slot) (p : Num3) (b : Bool) : (sl.setPred p b).issued = sl.issued := rfl
@[simp] theorem Slot.setPred_stopReq (sl : Slot) (p : Num3) (b : Bool) : (sl.setPred p b).stopReq = sl.stopReq := rfl
@[simp] theorem Slot.setPred_pc (sl : Slot) (p : Num3) (b : Bool) : (sl.setPred p b).pc = sl.pc := rfl
@[simp] theorem Slot.setPred_s (sl : Slot) (p : Num3) (b : Bool) : (sl.setPred p b).s = sl.s := rfl
@[simp] theorem Slot.setPred_cause (sl : Slot) (p : Num3) (b : Bool) : (sl.setPred p b).cause = sl.cause := rfl
@[simp] theorem Slot.setPred_epc (sl : Slot) (p : Num3) (b : Bool) : (sl.setPred p b).epc = sl.epc := rfl
@[simp] theorem Slot.setPred_tval (sl : Slot) (p : Num3) (b : Bool) : (sl.setPred p b).tval = sl.tval := rfl
@[simp] theorem Slot.setPred_tcoord (sl : Slot) (p : Num3) (b : Bool) : (sl.setPred p b).tcoord = sl.tcoord := rfl
@[simp] theorem Slot.setPred_tfmt (sl : Slot) (p : Num3) (b : Bool) : (sl.setPred p b).tfmt = sl.tfmt := rfl
@[simp] theorem Slot.setPred_restart (sl : Slot) (p : Num3) (b : Bool) : (sl.setPred p b).restart = sl.restart := rfl
@[simp] theorem Slot.setPred_fpc (sl : Slot) (p : Num3) (b : Bool) : (sl.setPred p b).fpc = sl.fpc := rfl
@[simp] theorem Slot.setPred_flags (sl : Slot) (p : Num3) (b : Bool) : (sl.setPred p b).flags = sl.flags := rfl
@[simp] theorem Slot.setPred_fmt (sl : Slot) (p : Num3) (b : Bool) : (sl.setPred p b).fmt = sl.fmt := rfl
@[simp] theorem Slot.setPred_scl (sl : Slot) (p : Num3) (b : Bool) : (sl.setPred p b).scl = sl.scl := rfl
@[simp] theorem Slot.setPred_chain (sl : Slot) (p : Num3) (b : Bool) : (sl.setPred p b).chain = sl.chain := rfl
@[simp] theorem Slot.setPred_quantum (sl : Slot) (p : Num3) (b : Bool) : (sl.setPred p b).quantum = sl.quantum := rfl
@[simp] theorem Slot.setPred_accown (sl : Slot) (p : Num3) (b : Bool) : (sl.setPred p b).accown = sl.accown := rfl
@[simp] theorem Slot.setPred_plown (sl : Slot) (p : Num3) (b : Bool) : (sl.setPred p b).plown = sl.plown := rfl
@[simp] theorem Slot.setPred_meter (sl : Slot) (p : Num3) (b : Bool) : (sl.setPred p b).meter = sl.meter := rfl
@[simp] theorem Slot.setPred_task (sl : Slot) (p : Num3) (b : Bool) : (sl.setPred p b).task = sl.task := rfl
@[simp] theorem Slot.setPred_tiles (sl : Slot) (p : Num3) (b : Bool) : (sl.setPred p b).tiles = sl.tiles := rfl
@[simp] theorem Slot.setPred_join (sl : Slot) (p : Num3) (b : Bool) : (sl.setPred p b).join = sl.join := rfl
@[simp] theorem Slot.setPred_band (sl : Slot) (p : Num3) (b : Bool) : (sl.setPred p b).band = sl.band := rfl
@[simp] theorem Slot.setPred_aged (sl : Slot) (p : Num3) (b : Bool) : (sl.setPred p b).aged = sl.aged := rfl
@[simp] theorem Slot.setPred_scope (sl : Slot) (p : Num3) (b : Bool) : (sl.setPred p b).scope = sl.scope := rfl
@[simp] theorem Slot.setPred_pkt (sl : Slot) (p : Num3) (b : Bool) : (sl.setPred p b).pkt = sl.pkt := rfl
@[simp] theorem Slot.setPred_watch (sl : Slot) (p : Num3) (b : Bool) : (sl.setPred p b).watch = sl.watch := rfl
@[simp] theorem Slot.setPred_held (sl : Slot) (p : Num3) (b : Bool) : (sl.setPred p b).held = sl.held := rfl
@[simp] theorem Slot.setPred_eng (sl : Slot) (p : Num3) (b : Bool) : (sl.setPred p b).eng = sl.eng := rfl
@[simp] theorem Slot.setPred_copyFault (sl : Slot) (p : Num3) (b : Bool) : (sl.setPred p b).copyFault = sl.copyFault := rfl
@[simp] theorem Slot.setPred_limit (sl : Slot) (p : Num3) (b : Bool) : (sl.setPred p b).limit = sl.limit := rfl
@[simp] theorem Slot.setPred_waitpc (sl : Slot) (p : Num3) (b : Bool) : (sl.setPred p b).waitpc = sl.waitpc := rfl
@[simp] theorem Slot.setPred_wmsel (sl : Slot) (p : Num3) (b : Bool) : (sl.setPred p b).wmsel = sl.wmsel := rfl
@[simp] theorem Slot.setPred_spawning (sl : Slot) (p : Num3) (b : Bool) : (sl.setPred p b).spawning = sl.spawning := rfl
@[simp] theorem Slot.setPred_popped (sl : Slot) (p : Num3) (b : Bool) : (sl.setPred p b).popped = sl.popped := rfl
@[simp] theorem Slot.setPred_issuedAt (sl : Slot) (p : Num3) (b : Bool) : (sl.setPred p b).issuedAt = sl.issuedAt := rfl
@[simp] theorem Slot.setPred_fpcAt (sl : Slot) (p : Num3) (b : Bool) : (sl.setPred p b).fpcAt = sl.fpcAt := rfl
@[simp] theorem Slot.setPred_uid (sl : Slot) (p : Num3) (b : Bool) : (sl.setPred p b).uid = sl.uid := rfl
@[simp] theorem Slot.setPred_charged (sl : Slot) (p : Num3) (b : Bool) : (sl.setPred p b).charged = sl.charged := rfl
@[simp] theorem Slot.setPred_dispatchedAt (sl : Slot) (p : Num3) (b : Bool) : (sl.setPred p b).dispatchedAt = sl.dispatchedAt := rfl

/-! ### `Slot.setTile` -/

@[simp] theorem Slot.setTile_st (sl : Slot) (t : Num3) (v : Tile) : (sl.setTile t v).st = sl.st := rfl
@[simp] theorem Slot.setTile_nest (sl : Slot) (t : Num3) (v : Tile) : (sl.setTile t v).nest = sl.nest := rfl
@[simp] theorem Slot.setTile_waiting (sl : Slot) (t : Num3) (v : Tile) : (sl.setTile t v).waiting = sl.waiting := rfl
@[simp] theorem Slot.setTile_reissue (sl : Slot) (t : Num3) (v : Tile) : (sl.setTile t v).reissue = sl.reissue := rfl
@[simp] theorem Slot.setTile_issued (sl : Slot) (t : Num3) (v : Tile) : (sl.setTile t v).issued = sl.issued := rfl
@[simp] theorem Slot.setTile_stopReq (sl : Slot) (t : Num3) (v : Tile) : (sl.setTile t v).stopReq = sl.stopReq := rfl
@[simp] theorem Slot.setTile_pc (sl : Slot) (t : Num3) (v : Tile) : (sl.setTile t v).pc = sl.pc := rfl
@[simp] theorem Slot.setTile_s (sl : Slot) (t : Num3) (v : Tile) : (sl.setTile t v).s = sl.s := rfl
@[simp] theorem Slot.setTile_p (sl : Slot) (t : Num3) (v : Tile) : (sl.setTile t v).p = sl.p := rfl
@[simp] theorem Slot.setTile_cause (sl : Slot) (t : Num3) (v : Tile) : (sl.setTile t v).cause = sl.cause := rfl
@[simp] theorem Slot.setTile_epc (sl : Slot) (t : Num3) (v : Tile) : (sl.setTile t v).epc = sl.epc := rfl
@[simp] theorem Slot.setTile_tval (sl : Slot) (t : Num3) (v : Tile) : (sl.setTile t v).tval = sl.tval := rfl
@[simp] theorem Slot.setTile_tcoord (sl : Slot) (t : Num3) (v : Tile) : (sl.setTile t v).tcoord = sl.tcoord := rfl
@[simp] theorem Slot.setTile_tfmt (sl : Slot) (t : Num3) (v : Tile) : (sl.setTile t v).tfmt = sl.tfmt := rfl
@[simp] theorem Slot.setTile_restart (sl : Slot) (t : Num3) (v : Tile) : (sl.setTile t v).restart = sl.restart := rfl
@[simp] theorem Slot.setTile_fpc (sl : Slot) (t : Num3) (v : Tile) : (sl.setTile t v).fpc = sl.fpc := rfl
@[simp] theorem Slot.setTile_flags (sl : Slot) (t : Num3) (v : Tile) : (sl.setTile t v).flags = sl.flags := rfl
@[simp] theorem Slot.setTile_fmt (sl : Slot) (t : Num3) (v : Tile) : (sl.setTile t v).fmt = sl.fmt := rfl
@[simp] theorem Slot.setTile_scl (sl : Slot) (t : Num3) (v : Tile) : (sl.setTile t v).scl = sl.scl := rfl
@[simp] theorem Slot.setTile_chain (sl : Slot) (t : Num3) (v : Tile) : (sl.setTile t v).chain = sl.chain := rfl
@[simp] theorem Slot.setTile_quantum (sl : Slot) (t : Num3) (v : Tile) : (sl.setTile t v).quantum = sl.quantum := rfl
@[simp] theorem Slot.setTile_accown (sl : Slot) (t : Num3) (v : Tile) : (sl.setTile t v).accown = sl.accown := rfl
@[simp] theorem Slot.setTile_plown (sl : Slot) (t : Num3) (v : Tile) : (sl.setTile t v).plown = sl.plown := rfl
@[simp] theorem Slot.setTile_meter (sl : Slot) (t : Num3) (v : Tile) : (sl.setTile t v).meter = sl.meter := rfl
@[simp] theorem Slot.setTile_task (sl : Slot) (t : Num3) (v : Tile) : (sl.setTile t v).task = sl.task := rfl
@[simp] theorem Slot.setTile_join (sl : Slot) (t : Num3) (v : Tile) : (sl.setTile t v).join = sl.join := rfl
@[simp] theorem Slot.setTile_band (sl : Slot) (t : Num3) (v : Tile) : (sl.setTile t v).band = sl.band := rfl
@[simp] theorem Slot.setTile_aged (sl : Slot) (t : Num3) (v : Tile) : (sl.setTile t v).aged = sl.aged := rfl
@[simp] theorem Slot.setTile_scope (sl : Slot) (t : Num3) (v : Tile) : (sl.setTile t v).scope = sl.scope := rfl
@[simp] theorem Slot.setTile_pkt (sl : Slot) (t : Num3) (v : Tile) : (sl.setTile t v).pkt = sl.pkt := rfl
@[simp] theorem Slot.setTile_watch (sl : Slot) (t : Num3) (v : Tile) : (sl.setTile t v).watch = sl.watch := rfl
@[simp] theorem Slot.setTile_held (sl : Slot) (t : Num3) (v : Tile) : (sl.setTile t v).held = sl.held := rfl
@[simp] theorem Slot.setTile_eng (sl : Slot) (t : Num3) (v : Tile) : (sl.setTile t v).eng = sl.eng := rfl
@[simp] theorem Slot.setTile_copyFault (sl : Slot) (t : Num3) (v : Tile) : (sl.setTile t v).copyFault = sl.copyFault := rfl
@[simp] theorem Slot.setTile_limit (sl : Slot) (t : Num3) (v : Tile) : (sl.setTile t v).limit = sl.limit := rfl
@[simp] theorem Slot.setTile_waitpc (sl : Slot) (t : Num3) (v : Tile) : (sl.setTile t v).waitpc = sl.waitpc := rfl
@[simp] theorem Slot.setTile_wmsel (sl : Slot) (t : Num3) (v : Tile) : (sl.setTile t v).wmsel = sl.wmsel := rfl
@[simp] theorem Slot.setTile_spawning (sl : Slot) (t : Num3) (v : Tile) : (sl.setTile t v).spawning = sl.spawning := rfl
@[simp] theorem Slot.setTile_popped (sl : Slot) (t : Num3) (v : Tile) : (sl.setTile t v).popped = sl.popped := rfl
@[simp] theorem Slot.setTile_issuedAt (sl : Slot) (t : Num3) (v : Tile) : (sl.setTile t v).issuedAt = sl.issuedAt := rfl
@[simp] theorem Slot.setTile_fpcAt (sl : Slot) (t : Num3) (v : Tile) : (sl.setTile t v).fpcAt = sl.fpcAt := rfl
@[simp] theorem Slot.setTile_uid (sl : Slot) (t : Num3) (v : Tile) : (sl.setTile t v).uid = sl.uid := rfl
@[simp] theorem Slot.setTile_charged (sl : Slot) (t : Num3) (v : Tile) : (sl.setTile t v).charged = sl.charged := rfl
@[simp] theorem Slot.setTile_dispatchedAt (sl : Slot) (t : Num3) (v : Tile) : (sl.setTile t v).dispatchedAt = sl.dispatchedAt := rfl

/-! ### `Slot.orFlags` -/

@[simp] theorem Slot.orFlags_st (sl : Slot) (f : Nat) : (sl.orFlags f).st = sl.st := rfl
@[simp] theorem Slot.orFlags_nest (sl : Slot) (f : Nat) : (sl.orFlags f).nest = sl.nest := rfl
@[simp] theorem Slot.orFlags_waiting (sl : Slot) (f : Nat) : (sl.orFlags f).waiting = sl.waiting := rfl
@[simp] theorem Slot.orFlags_reissue (sl : Slot) (f : Nat) : (sl.orFlags f).reissue = sl.reissue := rfl
@[simp] theorem Slot.orFlags_issued (sl : Slot) (f : Nat) : (sl.orFlags f).issued = sl.issued := rfl
@[simp] theorem Slot.orFlags_stopReq (sl : Slot) (f : Nat) : (sl.orFlags f).stopReq = sl.stopReq := rfl
@[simp] theorem Slot.orFlags_pc (sl : Slot) (f : Nat) : (sl.orFlags f).pc = sl.pc := rfl
@[simp] theorem Slot.orFlags_s (sl : Slot) (f : Nat) : (sl.orFlags f).s = sl.s := rfl
@[simp] theorem Slot.orFlags_p (sl : Slot) (f : Nat) : (sl.orFlags f).p = sl.p := rfl
@[simp] theorem Slot.orFlags_cause (sl : Slot) (f : Nat) : (sl.orFlags f).cause = sl.cause := rfl
@[simp] theorem Slot.orFlags_epc (sl : Slot) (f : Nat) : (sl.orFlags f).epc = sl.epc := rfl
@[simp] theorem Slot.orFlags_tval (sl : Slot) (f : Nat) : (sl.orFlags f).tval = sl.tval := rfl
@[simp] theorem Slot.orFlags_tcoord (sl : Slot) (f : Nat) : (sl.orFlags f).tcoord = sl.tcoord := rfl
@[simp] theorem Slot.orFlags_tfmt (sl : Slot) (f : Nat) : (sl.orFlags f).tfmt = sl.tfmt := rfl
@[simp] theorem Slot.orFlags_restart (sl : Slot) (f : Nat) : (sl.orFlags f).restart = sl.restart := rfl
@[simp] theorem Slot.orFlags_fpc (sl : Slot) (f : Nat) : (sl.orFlags f).fpc = sl.fpc := rfl
@[simp] theorem Slot.orFlags_fmt (sl : Slot) (f : Nat) : (sl.orFlags f).fmt = sl.fmt := rfl
@[simp] theorem Slot.orFlags_scl (sl : Slot) (f : Nat) : (sl.orFlags f).scl = sl.scl := rfl
@[simp] theorem Slot.orFlags_chain (sl : Slot) (f : Nat) : (sl.orFlags f).chain = sl.chain := rfl
@[simp] theorem Slot.orFlags_quantum (sl : Slot) (f : Nat) : (sl.orFlags f).quantum = sl.quantum := rfl
@[simp] theorem Slot.orFlags_accown (sl : Slot) (f : Nat) : (sl.orFlags f).accown = sl.accown := rfl
@[simp] theorem Slot.orFlags_plown (sl : Slot) (f : Nat) : (sl.orFlags f).plown = sl.plown := rfl
@[simp] theorem Slot.orFlags_meter (sl : Slot) (f : Nat) : (sl.orFlags f).meter = sl.meter := rfl
@[simp] theorem Slot.orFlags_task (sl : Slot) (f : Nat) : (sl.orFlags f).task = sl.task := rfl
@[simp] theorem Slot.orFlags_tiles (sl : Slot) (f : Nat) : (sl.orFlags f).tiles = sl.tiles := rfl
@[simp] theorem Slot.orFlags_join (sl : Slot) (f : Nat) : (sl.orFlags f).join = sl.join := rfl
@[simp] theorem Slot.orFlags_band (sl : Slot) (f : Nat) : (sl.orFlags f).band = sl.band := rfl
@[simp] theorem Slot.orFlags_aged (sl : Slot) (f : Nat) : (sl.orFlags f).aged = sl.aged := rfl
@[simp] theorem Slot.orFlags_scope (sl : Slot) (f : Nat) : (sl.orFlags f).scope = sl.scope := rfl
@[simp] theorem Slot.orFlags_pkt (sl : Slot) (f : Nat) : (sl.orFlags f).pkt = sl.pkt := rfl
@[simp] theorem Slot.orFlags_watch (sl : Slot) (f : Nat) : (sl.orFlags f).watch = sl.watch := rfl
@[simp] theorem Slot.orFlags_held (sl : Slot) (f : Nat) : (sl.orFlags f).held = sl.held := rfl
@[simp] theorem Slot.orFlags_eng (sl : Slot) (f : Nat) : (sl.orFlags f).eng = sl.eng := rfl
@[simp] theorem Slot.orFlags_copyFault (sl : Slot) (f : Nat) : (sl.orFlags f).copyFault = sl.copyFault := rfl
@[simp] theorem Slot.orFlags_limit (sl : Slot) (f : Nat) : (sl.orFlags f).limit = sl.limit := rfl
@[simp] theorem Slot.orFlags_waitpc (sl : Slot) (f : Nat) : (sl.orFlags f).waitpc = sl.waitpc := rfl
@[simp] theorem Slot.orFlags_wmsel (sl : Slot) (f : Nat) : (sl.orFlags f).wmsel = sl.wmsel := rfl
@[simp] theorem Slot.orFlags_spawning (sl : Slot) (f : Nat) : (sl.orFlags f).spawning = sl.spawning := rfl
@[simp] theorem Slot.orFlags_popped (sl : Slot) (f : Nat) : (sl.orFlags f).popped = sl.popped := rfl
@[simp] theorem Slot.orFlags_issuedAt (sl : Slot) (f : Nat) : (sl.orFlags f).issuedAt = sl.issuedAt := rfl
@[simp] theorem Slot.orFlags_fpcAt (sl : Slot) (f : Nat) : (sl.orFlags f).fpcAt = sl.fpcAt := rfl
@[simp] theorem Slot.orFlags_uid (sl : Slot) (f : Nat) : (sl.orFlags f).uid = sl.uid := rfl
@[simp] theorem Slot.orFlags_charged (sl : Slot) (f : Nat) : (sl.orFlags f).charged = sl.charged := rfl
@[simp] theorem Slot.orFlags_dispatchedAt (sl : Slot) (f : Nat) : (sl.orFlags f).dispatchedAt = sl.dispatchedAt := rfl

/-! ### `Slot.after` -/

@[simp] theorem Slot.after_nest (sl : Slot) (a : W64) (st : SlotSt) (w : Wait) : (sl.after a st w).nest = sl.nest := rfl
@[simp] theorem Slot.after_issued (sl : Slot) (a : W64) (st : SlotSt) (w : Wait) : (sl.after a st w).issued = sl.issued := rfl
@[simp] theorem Slot.after_stopReq (sl : Slot) (a : W64) (st : SlotSt) (w : Wait) : (sl.after a st w).stopReq = sl.stopReq := rfl
@[simp] theorem Slot.after_s (sl : Slot) (a : W64) (st : SlotSt) (w : Wait) : (sl.after a st w).s = sl.s := rfl
@[simp] theorem Slot.after_p (sl : Slot) (a : W64) (st : SlotSt) (w : Wait) : (sl.after a st w).p = sl.p := rfl
@[simp] theorem Slot.after_cause (sl : Slot) (a : W64) (st : SlotSt) (w : Wait) : (sl.after a st w).cause = sl.cause := rfl
@[simp] theorem Slot.after_epc (sl : Slot) (a : W64) (st : SlotSt) (w : Wait) : (sl.after a st w).epc = sl.epc := rfl
@[simp] theorem Slot.after_tval (sl : Slot) (a : W64) (st : SlotSt) (w : Wait) : (sl.after a st w).tval = sl.tval := rfl
@[simp] theorem Slot.after_tcoord (sl : Slot) (a : W64) (st : SlotSt) (w : Wait) : (sl.after a st w).tcoord = sl.tcoord := rfl
@[simp] theorem Slot.after_tfmt (sl : Slot) (a : W64) (st : SlotSt) (w : Wait) : (sl.after a st w).tfmt = sl.tfmt := rfl
@[simp] theorem Slot.after_restart (sl : Slot) (a : W64) (st : SlotSt) (w : Wait) : (sl.after a st w).restart = sl.restart := rfl
@[simp] theorem Slot.after_fpc (sl : Slot) (a : W64) (st : SlotSt) (w : Wait) : (sl.after a st w).fpc = sl.fpc := rfl
@[simp] theorem Slot.after_flags (sl : Slot) (a : W64) (st : SlotSt) (w : Wait) : (sl.after a st w).flags = sl.flags := rfl
@[simp] theorem Slot.after_fmt (sl : Slot) (a : W64) (st : SlotSt) (w : Wait) : (sl.after a st w).fmt = sl.fmt := rfl
@[simp] theorem Slot.after_scl (sl : Slot) (a : W64) (st : SlotSt) (w : Wait) : (sl.after a st w).scl = sl.scl := rfl
@[simp] theorem Slot.after_chain (sl : Slot) (a : W64) (st : SlotSt) (w : Wait) : (sl.after a st w).chain = sl.chain := rfl
@[simp] theorem Slot.after_quantum (sl : Slot) (a : W64) (st : SlotSt) (w : Wait) : (sl.after a st w).quantum = sl.quantum := rfl
@[simp] theorem Slot.after_accown (sl : Slot) (a : W64) (st : SlotSt) (w : Wait) : (sl.after a st w).accown = sl.accown := rfl
@[simp] theorem Slot.after_plown (sl : Slot) (a : W64) (st : SlotSt) (w : Wait) : (sl.after a st w).plown = sl.plown := rfl
@[simp] theorem Slot.after_meter (sl : Slot) (a : W64) (st : SlotSt) (w : Wait) : (sl.after a st w).meter = sl.meter := rfl
@[simp] theorem Slot.after_task (sl : Slot) (a : W64) (st : SlotSt) (w : Wait) : (sl.after a st w).task = sl.task := rfl
@[simp] theorem Slot.after_tiles (sl : Slot) (a : W64) (st : SlotSt) (w : Wait) : (sl.after a st w).tiles = sl.tiles := rfl
@[simp] theorem Slot.after_join (sl : Slot) (a : W64) (st : SlotSt) (w : Wait) : (sl.after a st w).join = sl.join := rfl
@[simp] theorem Slot.after_band (sl : Slot) (a : W64) (st : SlotSt) (w : Wait) : (sl.after a st w).band = sl.band := rfl
@[simp] theorem Slot.after_aged (sl : Slot) (a : W64) (st : SlotSt) (w : Wait) : (sl.after a st w).aged = sl.aged := rfl
@[simp] theorem Slot.after_scope (sl : Slot) (a : W64) (st : SlotSt) (w : Wait) : (sl.after a st w).scope = sl.scope := rfl
@[simp] theorem Slot.after_pkt (sl : Slot) (a : W64) (st : SlotSt) (w : Wait) : (sl.after a st w).pkt = sl.pkt := rfl
@[simp] theorem Slot.after_watch (sl : Slot) (a : W64) (st : SlotSt) (w : Wait) : (sl.after a st w).watch = sl.watch := rfl
@[simp] theorem Slot.after_held (sl : Slot) (a : W64) (st : SlotSt) (w : Wait) : (sl.after a st w).held = sl.held := rfl
@[simp] theorem Slot.after_eng (sl : Slot) (a : W64) (st : SlotSt) (w : Wait) : (sl.after a st w).eng = sl.eng := rfl
@[simp] theorem Slot.after_copyFault (sl : Slot) (a : W64) (st : SlotSt) (w : Wait) : (sl.after a st w).copyFault = sl.copyFault := rfl
@[simp] theorem Slot.after_waitpc (sl : Slot) (a : W64) (st : SlotSt) (w : Wait) : (sl.after a st w).waitpc = sl.waitpc := rfl
@[simp] theorem Slot.after_wmsel (sl : Slot) (a : W64) (st : SlotSt) (w : Wait) : (sl.after a st w).wmsel = sl.wmsel := rfl
@[simp] theorem Slot.after_issuedAt (sl : Slot) (a : W64) (st : SlotSt) (w : Wait) : (sl.after a st w).issuedAt = sl.issuedAt := rfl
@[simp] theorem Slot.after_fpcAt (sl : Slot) (a : W64) (st : SlotSt) (w : Wait) : (sl.after a st w).fpcAt = sl.fpcAt := rfl
@[simp] theorem Slot.after_uid (sl : Slot) (a : W64) (st : SlotSt) (w : Wait) : (sl.after a st w).uid = sl.uid := rfl
@[simp] theorem Slot.after_dispatchedAt (sl : Slot) (a : W64) (st : SlotSt) (w : Wait) : (sl.after a st w).dispatchedAt = sl.dispatchedAt := rfl

/-! ### `State.setBytes` -/

@[simp] theorem State.setBytes_power (s : State) (l : Nat) (bs : List Byte) : (s.setBytes l bs).power = s.power := by
  induction bs generalizing s l with
  | nil => rfl
  | cons b bs ih => exact (ih _ _).trans rfl
@[simp] theorem State.setBytes_booted (s : State) (l : Nat) (bs : List Byte) : (s.setBytes l bs).booted = s.booted := by
  induction bs generalizing s l with
  | nil => rfl
  | cons b bs ih => exact (ih _ _).trans rfl
@[simp] theorem State.setBytes_bootState (s : State) (l : Nat) (bs : List Byte) : (s.setBytes l bs).bootState = s.bootState := by
  induction bs generalizing s l with
  | nil => rfl
  | cons b bs ih => exact (ih _ _).trans rfl
@[simp] theorem State.setBytes_meridian (s : State) (l : Nat) (bs : List Byte) : (s.setBytes l bs).meridian = s.meridian := by
  induction bs generalizing s l with
  | nil => rfl
  | cons b bs ih => exact (ih _ _).trans rfl
@[simp] theorem State.setBytes_cycle (s : State) (l : Nat) (bs : List Byte) : (s.setBytes l bs).cycle = s.cycle := by
  induction bs generalizing s l with
  | nil => rfl
  | cons b bs ih => exact (ih _ _).trans rfl
@[simp] theorem State.setBytes_firewallR (s : State) (l : Nat) (bs : List Byte) : (s.setBytes l bs).firewallR = s.firewallR := by
  induction bs generalizing s l with
  | nil => rfl
  | cons b bs ih => exact (ih _ _).trans rfl
@[simp] theorem State.setBytes_firewallW (s : State) (l : Nat) (bs : List Byte) : (s.setBytes l bs).firewallW = s.firewallW := by
  induction bs generalizing s l with
  | nil => rfl
  | cons b bs ih => exact (ih _ _).trans rfl
@[simp] theorem State.setBytes_firewallLock (s : State) (l : Nat) (bs : List Byte) : (s.setBytes l bs).firewallLock = s.firewallLock := by
  induction bs generalizing s l with
  | nil => rfl
  | cons b bs ih => exact (ih _ _).trans rfl
@[simp] theorem State.setBytes_lineKeys (s : State) (l : Nat) (bs : List Byte) : (s.setBytes l bs).lineKeys = s.lineKeys := by
  induction bs generalizing s l with
  | nil => rfl
  | cons b bs ih => exact (ih _ _).trans rfl
@[simp] theorem State.setBytes_eccBad (s : State) (l : Nat) (bs : List Byte) : (s.setBytes l bs).eccBad = s.eccBad := by
  induction bs generalizing s l with
  | nil => rfl
  | cons b bs ih => exact (ih _ _).trans rfl
@[simp] theorem State.setBytes_keySerial (s : State) (l : Nat) (bs : List Byte) : (s.setBytes l bs).keySerial = s.keySerial := by
  induction bs generalizing s l with
  | nil => rfl
  | cons b bs ih => exact (ih _ _).trans rfl
@[simp] theorem State.setBytes_attKey (s : State) (l : Nat) (bs : List Byte) : (s.setBytes l bs).attKey = s.attKey := by
  induction bs generalizing s l with
  | nil => rfl
  | cons b bs ih => exact (ih _ _).trans rfl
@[simp] theorem State.setBytes_full (s : State) (l : Nat) (bs : List Byte) : (s.setBytes l bs).full = s.full := by
  induction bs generalizing s l with
  | nil => rfl
  | cons b bs ih => exact (ih _ _).trans rfl
@[simp] theorem State.setBytes_feWaiters (s : State) (l : Nat) (bs : List Byte) : (s.setBytes l bs).feWaiters = s.feWaiters := by
  induction bs generalizing s l with
  | nil => rfl
  | cons b bs ih => exact (ih _ _).trans rfl
@[simp] theorem State.setBytes_banks (s : State) (l : Nat) (bs : List Byte) : (s.setBytes l bs).banks = s.banks := by
  induction bs generalizing s l with
  | nil => rfl
  | cons b bs ih => exact (ih _ _).trans rfl
@[simp] theorem State.setBytes_barWaiters (s : State) (l : Nat) (bs : List Byte) : (s.setBytes l bs).barWaiters = s.barWaiters := by
  induction bs generalizing s l with
  | nil => rfl
  | cons b bs ih => exact (ih _ _).trans rfl
@[simp] theorem State.setBytes_waitTable (s : State) (l : Nat) (bs : List Byte) : (s.setBytes l bs).waitTable = s.waitTable := by
  induction bs generalizing s l with
  | nil => rfl
  | cons b bs ih => exact (ih _ _).trans rfl
@[simp] theorem State.setBytes_l2 (s : State) (l : Nat) (bs : List Byte) : (s.setBytes l bs).l2 = s.l2 := by
  induction bs generalizing s l with
  | nil => rfl
  | cons b bs ih => exact (ih _ _).trans rfl
@[simp] theorem State.setBytes_msc (s : State) (l : Nat) (bs : List Byte) : (s.setBytes l bs).msc = s.msc := by
  induction bs generalizing s l with
  | nil => rfl
  | cons b bs ih => exact (ih _ _).trans rfl
@[simp] theorem State.setBytes_wayMasks (s : State) (l : Nat) (bs : List Byte) : (s.setBytes l bs).wayMasks = s.wayMasks := by
  induction bs generalizing s l with
  | nil => rfl
  | cons b bs ih => exact (ih _ _).trans rfl
@[simp] theorem State.setBytes_dieTlb (s : State) (l : Nat) (bs : List Byte) : (s.setBytes l bs).dieTlb = s.dieTlb := by
  induction bs generalizing s l with
  | nil => rfl
  | cons b bs ih => exact (ih _ _).trans rfl
@[simp] theorem State.setBytes_clusterTlb (s : State) (l : Nat) (bs : List Byte) : (s.setBytes l bs).clusterTlb = s.clusterTlb := by
  induction bs generalizing s l with
  | nil => rfl
  | cons b bs ih => exact (ih _ _).trans rfl
@[simp] theorem State.setBytes_ruleCaches (s : State) (l : Nat) (bs : List Byte) : (s.setBytes l bs).ruleCaches = s.ruleCaches := by
  induction bs generalizing s l with
  | nil => rfl
  | cons b bs ih => exact (ih _ _).trans rfl
@[simp] theorem State.setBytes_principals (s : State) (l : Nat) (bs : List Byte) : (s.setBytes l bs).principals = s.principals := by
  induction bs generalizing s l with
  | nil => rfl
  | cons b bs ih => exact (ih _ _).trans rfl
@[simp] theorem State.setBytes_chains (s : State) (l : Nat) (bs : List Byte) : (s.setBytes l bs).chains = s.chains := by
  induction bs generalizing s l with
  | nil => rfl
  | cons b bs ih => exact (ih _ _).trans rfl
@[simp] theorem State.setBytes_sweep (s : State) (l : Nat) (bs : List Byte) : (s.setBytes l bs).sweep = s.sweep := by
  induction bs generalizing s l with
  | nil => rfl
  | cons b bs ih => exact (ih _ _).trans rfl
@[simp] theorem State.setBytes_revocations (s : State) (l : Nat) (bs : List Byte) : (s.setBytes l bs).revocations = s.revocations := by
  induction bs generalizing s l with
  | nil => rfl
  | cons b bs ih => exact (ih _ _).trans rfl
@[simp] theorem State.setBytes_worlds (s : State) (l : Nat) (bs : List Byte) : (s.setBytes l bs).worlds = s.worlds := by
  induction bs generalizing s l with
  | nil => rfl
  | cons b bs ih => exact (ih _ _).trans rfl
@[simp] theorem State.setBytes_fns (s : State) (l : Nat) (bs : List Byte) : (s.setBytes l bs).fns = s.fns := by
  induction bs generalizing s l with
  | nil => rfl
  | cons b bs ih => exact (ih _ _).trans rfl
@[simp] theorem State.setBytes_cores (s : State) (l : Nat) (bs : List Byte) : (s.setBytes l bs).cores = s.cores := by
  induction bs generalizing s l with
  | nil => rfl
  | cons b bs ih => exact (ih _ _).trans rfl
@[simp] theorem State.setBytes_net (s : State) (l : Nat) (bs : List Byte) : (s.setBytes l bs).net = s.net := by
  induction bs generalizing s l with
  | nil => rfl
  | cons b bs ih => exact (ih _ _).trans rfl
@[simp] theorem State.setBytes_engCmds (s : State) (l : Nat) (bs : List Byte) : (s.setBytes l bs).engCmds = s.engCmds := by
  induction bs generalizing s l with
  | nil => rfl
  | cons b bs ih => exact (ih _ _).trans rfl
@[simp] theorem State.setBytes_engResults (s : State) (l : Nat) (bs : List Byte) : (s.setBytes l bs).engResults = s.engResults := by
  induction bs generalizing s l with
  | nil => rfl
  | cons b bs ih => exact (ih _ _).trans rfl
@[simp] theorem State.setBytes_ports (s : State) (l : Nat) (bs : List Byte) : (s.setBytes l bs).ports = s.ports := by
  induction bs generalizing s l with
  | nil => rfl
  | cons b bs ih => exact (ih _ _).trans rfl
@[simp] theorem State.setBytes_dies (s : State) (l : Nat) (bs : List Byte) : (s.setBytes l bs).dies = s.dies := by
  induction bs generalizing s l with
  | nil => rfl
  | cons b bs ih => exact (ih _ _).trans rfl
@[simp] theorem State.setBytes_uncore (s : State) (l : Nat) (bs : List Byte) : (s.setBytes l bs).uncore = s.uncore := by
  induction bs generalizing s l with
  | nil => rfl
  | cons b bs ih => exact (ih _ _).trans rfl
@[simp] theorem State.setBytes_powerCap (s : State) (l : Nat) (bs : List Byte) : (s.setBytes l bs).powerCap = s.powerCap := by
  induction bs generalizing s l with
  | nil => rfl
  | cons b bs ih => exact (ih _ _).trans rfl
@[simp] theorem State.setBytes_powerNow (s : State) (l : Nat) (bs : List Byte) : (s.setBytes l bs).powerNow = s.powerNow := by
  induction bs generalizing s l with
  | nil => rfl
  | cons b bs ih => exact (ih _ _).trans rfl
@[simp] theorem State.setBytes_mctp (s : State) (l : Nat) (bs : List Byte) : (s.setBytes l bs).mctp = s.mctp := by
  induction bs generalizing s l with
  | nil => rfl
  | cons b bs ih => exact (ih _ _).trans rfl
@[simp] theorem State.setBytes_cxlReply (s : State) (l : Nat) (bs : List Byte) : (s.setBytes l bs).cxlReply = s.cxlReply := by
  induction bs generalizing s l with
  | nil => rfl
  | cons b bs ih => exact (ih _ _).trans rfl
@[simp] theorem State.setBytes_ckptKey (s : State) (l : Nat) (bs : List Byte) : (s.setBytes l bs).ckptKey = s.ckptKey := by
  induction bs generalizing s l with
  | nil => rfl
  | cons b bs ih => exact (ih _ _).trans rfl
@[simp] theorem State.setBytes_ckptExpiry (s : State) (l : Nat) (bs : List Byte) : (s.setBytes l bs).ckptExpiry = s.ckptExpiry := by
  induction bs generalizing s l with
  | nil => rfl
  | cons b bs ih => exact (ih _ _).trans rfl
@[simp] theorem State.setBytes_ckptSerial (s : State) (l : Nat) (bs : List Byte) : (s.setBytes l bs).ckptSerial = s.ckptSerial := by
  induction bs generalizing s l with
  | nil => rfl
  | cons b bs ih => exact (ih _ _).trans rfl
@[simp] theorem State.setBytes_schedule (s : State) (l : Nat) (bs : List Byte) : (s.setBytes l bs).schedule = s.schedule := by
  induction bs generalizing s l with
  | nil => rfl
  | cons b bs ih => exact (ih _ _).trans rfl
@[simp] theorem State.setBytes_freeCtr (s : State) (l : Nat) (bs : List Byte) : (s.setBytes l bs).freeCtr = s.freeCtr := by
  induction bs generalizing s l with
  | nil => rfl
  | cons b bs ih => exact (ih _ _).trans rfl
@[simp] theorem State.setBytes_uidCtr (s : State) (l : Nat) (bs : List Byte) : (s.setBytes l bs).uidCtr = s.uidCtr := by
  induction bs generalizing s l with
  | nil => rfl
  | cons b bs ih => exact (ih _ _).trans rfl
@[simp] theorem State.setBytes_turnPtr (s : State) (l : Nat) (bs : List Byte) : (s.setBytes l bs).turnPtr = s.turnPtr := by
  induction bs generalizing s l with
  | nil => rfl
  | cons b bs ih => exact (ih _ _).trans rfl
@[simp] theorem State.setBytes_cur (s : State) (l : Nat) (bs : List Byte) : (s.setBytes l bs).cur = s.cur := by
  induction bs generalizing s l with
  | nil => rfl
  | cons b bs ih => exact (ih _ _).trans rfl

/-! ### `State.setCells` -/

@[simp] theorem State.setCells_power (s : State) (xs : List Host.Cell) : (s.setCells xs).power = s.power := by
  induction xs generalizing s with
  | nil => rfl
  | cons x xs ih => exact (ih _).trans rfl
@[simp] theorem State.setCells_booted (s : State) (xs : List Host.Cell) : (s.setCells xs).booted = s.booted := by
  induction xs generalizing s with
  | nil => rfl
  | cons x xs ih => exact (ih _).trans rfl
@[simp] theorem State.setCells_bootState (s : State) (xs : List Host.Cell) : (s.setCells xs).bootState = s.bootState := by
  induction xs generalizing s with
  | nil => rfl
  | cons x xs ih => exact (ih _).trans rfl
@[simp] theorem State.setCells_meridian (s : State) (xs : List Host.Cell) : (s.setCells xs).meridian = s.meridian := by
  induction xs generalizing s with
  | nil => rfl
  | cons x xs ih => exact (ih _).trans rfl
@[simp] theorem State.setCells_cycle (s : State) (xs : List Host.Cell) : (s.setCells xs).cycle = s.cycle := by
  induction xs generalizing s with
  | nil => rfl
  | cons x xs ih => exact (ih _).trans rfl
@[simp] theorem State.setCells_firewallR (s : State) (xs : List Host.Cell) : (s.setCells xs).firewallR = s.firewallR := by
  induction xs generalizing s with
  | nil => rfl
  | cons x xs ih => exact (ih _).trans rfl
@[simp] theorem State.setCells_firewallW (s : State) (xs : List Host.Cell) : (s.setCells xs).firewallW = s.firewallW := by
  induction xs generalizing s with
  | nil => rfl
  | cons x xs ih => exact (ih _).trans rfl
@[simp] theorem State.setCells_firewallLock (s : State) (xs : List Host.Cell) : (s.setCells xs).firewallLock = s.firewallLock := by
  induction xs generalizing s with
  | nil => rfl
  | cons x xs ih => exact (ih _).trans rfl
@[simp] theorem State.setCells_lineKeys (s : State) (xs : List Host.Cell) : (s.setCells xs).lineKeys = s.lineKeys := by
  induction xs generalizing s with
  | nil => rfl
  | cons x xs ih => exact (ih _).trans rfl
@[simp] theorem State.setCells_eccBad (s : State) (xs : List Host.Cell) : (s.setCells xs).eccBad = s.eccBad := by
  induction xs generalizing s with
  | nil => rfl
  | cons x xs ih => exact (ih _).trans rfl
@[simp] theorem State.setCells_keySerial (s : State) (xs : List Host.Cell) : (s.setCells xs).keySerial = s.keySerial := by
  induction xs generalizing s with
  | nil => rfl
  | cons x xs ih => exact (ih _).trans rfl
@[simp] theorem State.setCells_attKey (s : State) (xs : List Host.Cell) : (s.setCells xs).attKey = s.attKey := by
  induction xs generalizing s with
  | nil => rfl
  | cons x xs ih => exact (ih _).trans rfl
@[simp] theorem State.setCells_full (s : State) (xs : List Host.Cell) : (s.setCells xs).full = s.full := by
  induction xs generalizing s with
  | nil => rfl
  | cons x xs ih => exact (ih _).trans rfl
@[simp] theorem State.setCells_feWaiters (s : State) (xs : List Host.Cell) : (s.setCells xs).feWaiters = s.feWaiters := by
  induction xs generalizing s with
  | nil => rfl
  | cons x xs ih => exact (ih _).trans rfl
@[simp] theorem State.setCells_banks (s : State) (xs : List Host.Cell) : (s.setCells xs).banks = s.banks := by
  induction xs generalizing s with
  | nil => rfl
  | cons x xs ih => exact (ih _).trans rfl
@[simp] theorem State.setCells_barWaiters (s : State) (xs : List Host.Cell) : (s.setCells xs).barWaiters = s.barWaiters := by
  induction xs generalizing s with
  | nil => rfl
  | cons x xs ih => exact (ih _).trans rfl
@[simp] theorem State.setCells_waitTable (s : State) (xs : List Host.Cell) : (s.setCells xs).waitTable = s.waitTable := by
  induction xs generalizing s with
  | nil => rfl
  | cons x xs ih => exact (ih _).trans rfl
@[simp] theorem State.setCells_l2 (s : State) (xs : List Host.Cell) : (s.setCells xs).l2 = s.l2 := by
  induction xs generalizing s with
  | nil => rfl
  | cons x xs ih => exact (ih _).trans rfl
@[simp] theorem State.setCells_msc (s : State) (xs : List Host.Cell) : (s.setCells xs).msc = s.msc := by
  induction xs generalizing s with
  | nil => rfl
  | cons x xs ih => exact (ih _).trans rfl
@[simp] theorem State.setCells_wayMasks (s : State) (xs : List Host.Cell) : (s.setCells xs).wayMasks = s.wayMasks := by
  induction xs generalizing s with
  | nil => rfl
  | cons x xs ih => exact (ih _).trans rfl
@[simp] theorem State.setCells_dieTlb (s : State) (xs : List Host.Cell) : (s.setCells xs).dieTlb = s.dieTlb := by
  induction xs generalizing s with
  | nil => rfl
  | cons x xs ih => exact (ih _).trans rfl
@[simp] theorem State.setCells_clusterTlb (s : State) (xs : List Host.Cell) : (s.setCells xs).clusterTlb = s.clusterTlb := by
  induction xs generalizing s with
  | nil => rfl
  | cons x xs ih => exact (ih _).trans rfl
@[simp] theorem State.setCells_ruleCaches (s : State) (xs : List Host.Cell) : (s.setCells xs).ruleCaches = s.ruleCaches := by
  induction xs generalizing s with
  | nil => rfl
  | cons x xs ih => exact (ih _).trans rfl
@[simp] theorem State.setCells_principals (s : State) (xs : List Host.Cell) : (s.setCells xs).principals = s.principals := by
  induction xs generalizing s with
  | nil => rfl
  | cons x xs ih => exact (ih _).trans rfl
@[simp] theorem State.setCells_chains (s : State) (xs : List Host.Cell) : (s.setCells xs).chains = s.chains := by
  induction xs generalizing s with
  | nil => rfl
  | cons x xs ih => exact (ih _).trans rfl
@[simp] theorem State.setCells_sweep (s : State) (xs : List Host.Cell) : (s.setCells xs).sweep = s.sweep := by
  induction xs generalizing s with
  | nil => rfl
  | cons x xs ih => exact (ih _).trans rfl
@[simp] theorem State.setCells_revocations (s : State) (xs : List Host.Cell) : (s.setCells xs).revocations = s.revocations := by
  induction xs generalizing s with
  | nil => rfl
  | cons x xs ih => exact (ih _).trans rfl
@[simp] theorem State.setCells_worlds (s : State) (xs : List Host.Cell) : (s.setCells xs).worlds = s.worlds := by
  induction xs generalizing s with
  | nil => rfl
  | cons x xs ih => exact (ih _).trans rfl
@[simp] theorem State.setCells_fns (s : State) (xs : List Host.Cell) : (s.setCells xs).fns = s.fns := by
  induction xs generalizing s with
  | nil => rfl
  | cons x xs ih => exact (ih _).trans rfl
@[simp] theorem State.setCells_cores (s : State) (xs : List Host.Cell) : (s.setCells xs).cores = s.cores := by
  induction xs generalizing s with
  | nil => rfl
  | cons x xs ih => exact (ih _).trans rfl
@[simp] theorem State.setCells_net (s : State) (xs : List Host.Cell) : (s.setCells xs).net = s.net := by
  induction xs generalizing s with
  | nil => rfl
  | cons x xs ih => exact (ih _).trans rfl
@[simp] theorem State.setCells_engCmds (s : State) (xs : List Host.Cell) : (s.setCells xs).engCmds = s.engCmds := by
  induction xs generalizing s with
  | nil => rfl
  | cons x xs ih => exact (ih _).trans rfl
@[simp] theorem State.setCells_engResults (s : State) (xs : List Host.Cell) : (s.setCells xs).engResults = s.engResults := by
  induction xs generalizing s with
  | nil => rfl
  | cons x xs ih => exact (ih _).trans rfl
@[simp] theorem State.setCells_ports (s : State) (xs : List Host.Cell) : (s.setCells xs).ports = s.ports := by
  induction xs generalizing s with
  | nil => rfl
  | cons x xs ih => exact (ih _).trans rfl
@[simp] theorem State.setCells_dies (s : State) (xs : List Host.Cell) : (s.setCells xs).dies = s.dies := by
  induction xs generalizing s with
  | nil => rfl
  | cons x xs ih => exact (ih _).trans rfl
@[simp] theorem State.setCells_uncore (s : State) (xs : List Host.Cell) : (s.setCells xs).uncore = s.uncore := by
  induction xs generalizing s with
  | nil => rfl
  | cons x xs ih => exact (ih _).trans rfl
@[simp] theorem State.setCells_powerCap (s : State) (xs : List Host.Cell) : (s.setCells xs).powerCap = s.powerCap := by
  induction xs generalizing s with
  | nil => rfl
  | cons x xs ih => exact (ih _).trans rfl
@[simp] theorem State.setCells_powerNow (s : State) (xs : List Host.Cell) : (s.setCells xs).powerNow = s.powerNow := by
  induction xs generalizing s with
  | nil => rfl
  | cons x xs ih => exact (ih _).trans rfl
@[simp] theorem State.setCells_mctp (s : State) (xs : List Host.Cell) : (s.setCells xs).mctp = s.mctp := by
  induction xs generalizing s with
  | nil => rfl
  | cons x xs ih => exact (ih _).trans rfl
@[simp] theorem State.setCells_cxlReply (s : State) (xs : List Host.Cell) : (s.setCells xs).cxlReply = s.cxlReply := by
  induction xs generalizing s with
  | nil => rfl
  | cons x xs ih => exact (ih _).trans rfl
@[simp] theorem State.setCells_ckptKey (s : State) (xs : List Host.Cell) : (s.setCells xs).ckptKey = s.ckptKey := by
  induction xs generalizing s with
  | nil => rfl
  | cons x xs ih => exact (ih _).trans rfl
@[simp] theorem State.setCells_ckptExpiry (s : State) (xs : List Host.Cell) : (s.setCells xs).ckptExpiry = s.ckptExpiry := by
  induction xs generalizing s with
  | nil => rfl
  | cons x xs ih => exact (ih _).trans rfl
@[simp] theorem State.setCells_ckptSerial (s : State) (xs : List Host.Cell) : (s.setCells xs).ckptSerial = s.ckptSerial := by
  induction xs generalizing s with
  | nil => rfl
  | cons x xs ih => exact (ih _).trans rfl
@[simp] theorem State.setCells_schedule (s : State) (xs : List Host.Cell) : (s.setCells xs).schedule = s.schedule := by
  induction xs generalizing s with
  | nil => rfl
  | cons x xs ih => exact (ih _).trans rfl
@[simp] theorem State.setCells_freeCtr (s : State) (xs : List Host.Cell) : (s.setCells xs).freeCtr = s.freeCtr := by
  induction xs generalizing s with
  | nil => rfl
  | cons x xs ih => exact (ih _).trans rfl
@[simp] theorem State.setCells_uidCtr (s : State) (xs : List Host.Cell) : (s.setCells xs).uidCtr = s.uidCtr := by
  induction xs generalizing s with
  | nil => rfl
  | cons x xs ih => exact (ih _).trans rfl
@[simp] theorem State.setCells_turnPtr (s : State) (xs : List Host.Cell) : (s.setCells xs).turnPtr = s.turnPtr := by
  induction xs generalizing s with
  | nil => rfl
  | cons x xs ih => exact (ih _).trans rfl
@[simp] theorem State.setCells_cur (s : State) (xs : List Host.Cell) : (s.setCells xs).cur = s.cur := by
  induction xs generalizing s with
  | nil => rfl
  | cons x xs ih => exact (ih _).trans rfl

/-! ### What an update writes -/

@[simp] theorem State.setCore_core (s : State) (c : Nat) (v : Core) : (s.setCore c v).core c = v := Sparse.get_put_self ..
theorem State.setCore_core_of_ne (s : State) {c d : Nat} (v : Core) (h : c ≠ d) : (s.setCore c v).core d = s.core d :=
  Sparse.get_put_of_ne _ _ _ h
@[simp] theorem State.modCore_core (s : State) (c : Nat) (f : Core → Core) : (s.modCore c f).core c = f (s.core c) :=
  Sparse.get_put_self ..
theorem State.modCore_core_of_ne (s : State) {c d : Nat} (f : Core → Core) (h : c ≠ d) : (s.modCore c f).core d = s.core d :=
  Sparse.get_put_of_ne _ _ _ h
@[simp] theorem Core.setSlot_slot (k : Core) (n : Nat) (v : Slot) : (k.setSlot n v).slot n = v := Sparse.get_put_self ..
theorem Core.setSlot_slot_of_ne (k : Core) {n m : Nat} (v : Slot) (h : n ≠ m) : (k.setSlot n v).slot m = k.slot m :=
  Sparse.get_put_of_ne _ _ _ h
@[simp] theorem Core.modSlot_slot (k : Core) (n : Nat) (f : Slot → Slot) : (k.modSlot n f).slot n = f (k.slot n) :=
  Sparse.get_put_self ..
theorem Core.modSlot_slot_of_ne (k : Core) {n m : Nat} (f : Slot → Slot) (h : n ≠ m) : (k.modSlot n f).slot m = k.slot m :=
  Sparse.get_put_of_ne _ _ _ h
@[simp] theorem State.setSlot_slot (s : State) (c n : Nat) (v : Slot) : (s.setSlot c n v).slot c n = v := by
  simp [State.setSlot, State.slot]
@[simp] theorem State.modSlot_slot (s : State) (c n : Nat) (f : Slot → Slot) : (s.modSlot c n f).slot c n = f (s.slot c n) := by
  simp [State.modSlot]
@[simp] theorem State.setMe_me (s : State) (v : Slot) : (s.setMe v).me = v := by simp [State.setMe, State.me]
@[simp] theorem State.modMe_me (s : State) (f : Slot → Slot) : (s.modMe f).me = f s.me := by simp [State.modMe]
@[simp] theorem State.modMyCore_myCore (s : State) (f : Core → Core) : (s.modMyCore f).myCore = f s.myCore := by
  simp [State.modMyCore, State.myCore]
@[simp] theorem State.setWorld_world (s : State) (w : Nat) (v : World) : (s.setWorld w v).world w = v := Sparse.get_put_self ..
theorem State.setWorld_world_of_ne (s : State) {w x : Nat} (v : World) (h : w ≠ x) : (s.setWorld w v).world x = s.world x :=
  Sparse.get_put_of_ne _ _ _ h
@[simp] theorem State.modWorld_world (s : State) (w : Nat) (f : World → World) : (s.modWorld w f).world w = f (s.world w) :=
  Sparse.get_put_self ..
@[simp] theorem State.setFn_fn (s : State) (n : Nat) (v : Func) : (s.setFn n v).fn n = v := Sparse.get_put_self ..
theorem State.setFn_fn_of_ne (s : State) {n m : Nat} (v : Func) (h : n ≠ m) : (s.setFn n v).fn m = s.fn m :=
  Sparse.get_put_of_ne _ _ _ h
@[simp] theorem State.modFn_fn (s : State) (n : Nat) (f : Func → Func) : (s.modFn n f).fn n = f (s.fn n) := Sparse.get_put_self ..
@[simp] theorem State.setPort_port (s : State) (n : Nat) (v : Port) : (s.setPort n v).port n = v := Sparse.get_put_self ..
@[simp] theorem State.modPort_port (s : State) (n : Nat) (f : Port → Port) : (s.modPort n f).port n = f (s.port n) :=
  Sparse.get_put_self ..
@[simp] theorem State.setPrincipal_principal (s : State) (n : Nat) (v : Principal) : (s.setPrincipal n v).principal n = v :=
  Sparse.get_put_self ..
@[simp] theorem State.setChain_chain (s : State) (n : Nat) (v : Chain) : (s.setChain n v).chain n = v := Sparse.get_put_self ..
@[simp] theorem State.setBank_bank (s : State) (l : Nat) (v : Bank) : (s.setBank l v).bank l = v := Sparse.get_set_self ..
theorem State.setBank_bank_of_ne (s : State) {l m : Nat} (v : Bank) (h : l ≠ m) : (s.setBank l v).bank m = s.bank m :=
  Sparse.get_set_of_ne _ _ _ h
@[simp] theorem State.setFull_isFull (s : State) (l : Nat) (b : Bool) : (s.setFull l b).isFull l = b := Sparse.get_set_self ..
theorem State.setFull_isFull_of_ne (s : State) {l m : Nat} (b : Bool) (h : l ≠ m) : (s.setFull l b).isFull m = s.isFull m :=
  Sparse.get_set_of_ne _ _ _ h
@[simp] theorem State.setByte_byte (s : State) (l : Nat) (b : Byte) : (s.setByte l b).byte l = b := Sparse.get_set_self ..
theorem State.setByte_byte_of_ne (s : State) {l m : Nat} (b : Byte) (h : l ≠ m) : (s.setByte l b).byte m = s.byte m :=
  Sparse.get_set_of_ne _ _ _ h

end Sys2Proof.Machine
end

