-- ==== Sys2Proof/Laws/Ops.lean ====
section
/-! SUPPORT. The effect monad by its results, the issue of an instruction, and the operand operations: one lemma each. -/

namespace Sys2Proof.Machine

/-! ## The monad -/

@[simp] theorem M.bind_apply {α β : Type} (m : M α) (f : α → M β) (s : State) :
    (m >>= f) s = match m s with
      | .ok a t => f a t
      | .error e t => .error e t := by
  change EStateM.bind m f s = _
  unfold EStateM.bind
  cases m s <;> rfl

@[simp] theorem M.map_apply {α β : Type} (f : α → β) (m : M α) (s : State) :
    (f <$> m) s = match m s with
      | .ok a t => .ok (f a) t
      | .error e t => .error e t := by
  change EStateM.map f m s = _
  unfold EStateM.map
  cases m s <;> rfl

@[simp] theorem M.ite_apply {α : Type} (c : Prop) [Decidable c] (m n : M α) (s : State) :
    (if c then m else n) s = if c then m s else n s := by
  split <;> rfl

@[simp] theorem M.pure_apply {α : Type} (a : α) (s : State) : (pure a : M α) s = .ok a s := rfl
@[simp] theorem M.get_apply (s : State) : (get : M State) s = .ok s s := rfl
@[simp] theorem M.set_apply (t s : State) : (set t : M PUnit) s = .ok ⟨⟩ t := rfl
@[simp] theorem M.modify_apply (f : State → State) (s : State) : (modify f : M PUnit) s = .ok ⟨⟩ (f s) := rfl
@[simp] theorem M.throw_apply {α : Type} (e : Stop) (s : State) : (throw e : M α) s = .error e s := rfl
@[simp] theorem getMe_apply (s : State) : getMe s = .ok s.me s := rfl
@[simp] theorem getCore_apply (s : State) : getCore s = .ok s.myCore s := rfl
@[simp] theorem modMe_apply (f : Slot → Slot) (s : State) : modMe f s = .ok () (s.modMe f) := rfl
@[simp] theorem modCore_apply (f : Core → Core) (s : State) : modCore f s = .ok () (s.modMyCore f) := rfl
@[simp] theorem whoMe_apply (s : State) : whoMe s = .ok s.who s := rfl
@[simp] theorem block_apply {α : Type} (b : Bool) (s : State) : (block b : M α) s = .error (.wait (.blocked b)) s := rfl
@[simp] theorem trapAt_apply {α : Type} (c : Byte) (v tc tf : W64) (s : State) :
    (trapAt c v tc tf : M α) s = .error (.trap ⟨c, v, tc, tf⟩) s := rfl
@[simp] theorem trapPriv_apply {α : Type} (s : State) :
    (trapPriv : M α) s = .error (.trap ⟨Cause.priv, s.me.pc, 0, tfmtNone⟩) s := rfl
@[simp] theorem require_true (s : State) : require true s = .ok () s := rfl
@[simp] theorem require_false (s : State) : require false s = .error (.wait .none) s := rfl

/-! ## Slots of a state -/

theorem State.me_eq (s : State) : s.me = s.myCore.slot s.cur.slot := rfl

@[simp] theorem State.setMe_cur_core (s : State) (v : Slot) : (s.setMe v).cur = s.cur := rfl

theorem State.modMe_myCore (s : State) (f : Slot → Slot) : (s.modMe f).myCore = s.myCore.setSlot s.cur.slot (f s.me) := by
  simp [State.modMe, State.setMe, State.setSlot, State.myCore]

theorem State.modMyCore_me (s : State) (f : Core → Core) : (s.modMyCore f).me = (f s.myCore).slot s.cur.slot := by
  simp [State.me, State.slot, State.modMyCore, State.myCore]

@[simp] theorem State.modMe_pipecfg (s : State) (f : Slot → Slot) : (s.modMe f).myCore.pipecfg = s.myCore.pipecfg := by
  simp [State.modMe_myCore]

theorem State.modCore_eq_of {s : State} {c : Nat} {f g : Core → Core} (h : f (s.core c) = g (s.core c)) :
    s.modCore c f = s.modCore c g := by
  simp [State.modCore, h]

/-! ## The issue of an instruction (R213, R311) -/

@[simp] theorem Core.tally_slot (k : Core) (e n j m : Nat) : (k.tally e n j).slot m = k.slot m := rfl

/-- What the issue leaves alone: all but the account of the instruction and the segment's pips in the slot, and the core's counters. -/
theorem State.issue_frame (s : State) : OtherCoresSame s s.issue ∧ OtherSlotsSame s s.issue ∧
    s.issue.me = { s.me with
      charged := s.issue.me.charged, meter := s.issue.me.meter, issuedAt := s.issue.me.issuedAt, fpcAt := s.issue.me.fpcAt } := by
  unfold State.issue
  split
  · exact ⟨⟨rfl, fun _ _ => rfl⟩, ⟨rfl, fun _ _ => rfl⟩, rfl⟩
  · simp only [OtherCoresSame, OtherSlotsSame, State.chargeSlot, State.me, State.slot, State.myCore, State.modMyCore, State.modMe,
      State.setMe, State.setSlot, State.setCore_core, State.modCore_core, State.modCore_cur, State.setCore_cur, Core.tally_slot,
      Core.modSlot_slot, Core.setSlot_slot]
    refine ⟨⟨rfl, fun c hc => ?_⟩, ⟨rfl, fun n hn => ?_⟩, ?_⟩
    · rw [State.modCore_core_of_ne _ _ (Ne.symm hc), State.modCore_core_of_ne _ _ (Ne.symm hc),
        State.setCore_core_of_ne _ _ (Ne.symm hc)]
    · rw [Core.modSlot_slot_of_ne _ _ (Ne.symm hn), Core.tally_slot, Core.setSlot_slot_of_ne _ _ (Ne.symm hn)]
    · simp

@[simp] theorem State.issue_cur (s : State) : s.issue.cur = s.cur := by rw [(State.issue_frame s).1.1]
@[simp] theorem State.issue_mem (s : State) : s.issue.mem = s.mem := by rw [(State.issue_frame s).1.1]
@[simp] theorem State.issue_s (s : State) : s.issue.me.s = s.me.s := by rw [(State.issue_frame s).2.2]
@[simp] theorem State.issue_p (s : State) : s.issue.me.p = s.me.p := by rw [(State.issue_frame s).2.2]
@[simp] theorem State.issue_pc (s : State) : s.issue.me.pc = s.me.pc := by rw [(State.issue_frame s).2.2]
@[simp] theorem State.issue_tiles (s : State) : s.issue.me.tiles = s.me.tiles := by rw [(State.issue_frame s).2.2]
@[simp] theorem State.issue_fpc (s : State) : s.issue.me.fpc = s.me.fpc := by rw [(State.issue_frame s).2.2]
@[simp] theorem State.issue_flags (s : State) : s.issue.me.flags = s.me.flags := by rw [(State.issue_frame s).2.2]
@[simp] theorem State.issue_restart (s : State) : s.issue.me.restart = s.me.restart := by rw [(State.issue_frame s).2.2]
@[simp] theorem State.issue_chain (s : State) : s.issue.me.chain = s.me.chain := by rw [(State.issue_frame s).2.2]
@[simp] theorem State.issue_pipecfg (s : State) : s.issue.myCore.pipecfg = s.myCore.pipecfg := by rw [(State.issue_frame s).2.1.1]
@[simp] theorem State.issue_inq (s : State) : s.issue.myCore.inq = s.myCore.inq := by rw [(State.issue_frame s).2.1.1]
@[simp] theorem State.issue_world (s : State) : s.issue.myCore.world = s.myCore.world := by rw [(State.issue_frame s).2.1.1]
@[simp] theorem State.issue_myWorld (s : State) : s.issue.myWorld = s.myWorld := State.issue_world s

theorem State.issue_core_of_ne (s : State) {c : Nat} (h : c ≠ s.cur.core) : s.issue.core c = s.core c := (State.issue_frame s).1.2 c h

@[simp] theorem State.issue_portIn (s : State) (n : Nat) : s.issue.myCore.portIn n = s.myCore.portIn n := by simp [Core.portIn]
@[simp] theorem State.issue_portOut (s : State) (n : Nat) : s.issue.myCore.portOut n = s.myCore.portOut n := by simp [Core.portOut]

@[simp] theorem State.issue_reg (s : State) (r : Reg) : s.issue.me.reg r = s.me.reg r := by simp [Slot.reg]
@[simp] theorem State.issue_pred (s : State) (p : Num3) : s.issue.me.pred p = s.me.pred p := by simp [Slot.pred]
@[simp] theorem State.issue_src (s : State) (r : Reg) : s.issue.src r = s.src r := by simp [State.src]
@[simp] theorem State.issue_behind (s : State) : s.issue.behind = s.behind := by simp [State.behind]
@[simp] theorem State.issue_who (s : State) : s.issue.who = s.who := by simp [State.who]

/-! ## Operands (R85, R102) -/

theorem NoPort.issue {s : State} {srcs : List Reg} {dst : Option Reg} (h : NoPort s srcs dst) : NoPort s.issue srcs dst := by
  simpa [NoPort] using h

@[simp] theorem rd_apply (r : Reg) (s : State) : rd r s = .ok (s.src r) s := by
  unfold rd State.src
  simp only [M.bind_apply, M.get_apply]
  split <;> rfl

@[simp] theorem wr_apply (r : Reg) (v : W64) (s : State) : wr r v s = .ok () (s.writeMine r v) := rfl

/-- The ports of an instruction that uses none. -/
theorem ports_of_noPort {s : State} {srcs : List Reg} {dst : Option Reg} (h : NoPort s srcs dst) : ports srcs dst s = .ok false s := by
  have hpop : (s.myCore.portIn s.cur.slot && srcs.contains qi) = false := by
    have := h.1
    simp only [List.contains_eq_mem, Bool.and_eq_false_iff, decide_eq_false_iff_not]
    by_cases hp : s.myCore.portIn s.cur.slot = true
    · exact Or.inr fun hm => this ⟨hp, hm⟩
    · exact Or.inl (by simpa using hp)
  have hpush : (s.myCore.portOut s.cur.slot && decide (dst = some qo)) = false := by
    have := h.2
    simp only [Bool.and_eq_false_iff, decide_eq_false_iff_not]
    by_cases hp : s.myCore.portOut s.cur.slot = true
    · exact Or.inr fun hm => this ⟨hp, hm⟩
    · exact Or.inl (by simpa using hp)
  unfold ports
  simp only [M.bind_apply, M.get_apply, hpop, hpush]
  rfl

theorem withPorts_of_noPort {α : Type} {s : State} {srcs : List Reg} {dst : Option Reg} (m : Bool → M α) (h : NoPort s srcs dst) :
    withPorts srcs dst m s = match m false s with
      | .error (.wait w) t => .error (.wait w) (if w.reruns then (t.modMyCore fun k => { k with inq := s.myCore.inq }).modMe fun sl => { sl with popped := none } else t)
      | r => r := by
  unfold withPorts
  simp only [M.bind_apply, ports_of_noPort h] <;> cases m false s <;> rfl

/-- A scalar instruction that uses no port and has its effect: the thread goes on behind it. -/
theorem scalar_of_noPort {s t : State} {srcs : List Reg} {dst : Option Reg} {m : M Unit} (h : NoPort s srcs dst) (hm : m s = .ok () t) :
    scalar srcs dst m s = .ok .next t := by
  unfold scalar
  rw [withPorts_of_noPort _ h]
  simp [hm]

/-- A waiting instruction that uses no port and has its effect. -/
theorem waiting_of_noPort {s t : State} {srcs : List Reg} {dst : Option Reg} {m : M Unit} (h : NoPort s srcs dst) (hm : m s = .ok () t) :
    waiting srcs dst m s = .ok .done t := by
  unfold waiting
  rw [withPorts_of_noPort _ h]
  simp [hm]

/-! ## Charges and acquires (R20, R245) -/

@[simp] theorem charge_apply (n : Nat) (s : State) : charge n s = .ok () (s.chargeSlot s.cur.core s.cur.slot n) := rfl

@[simp] theorem chargeCap_apply (cap : Cap) (s : State) : chargeCap cap s = .ok () (s.chargeOnce cap) := by
  unfold chargeCap State.chargeOnce
  by_cases h : cap.id ∈ s.me.charged <;> simp [h]

@[simp] theorem chargeCaps_apply (caps : List Cap) (s : State) : chargeCaps caps s = .ok () (s.chargeAll caps) := by
  unfold chargeCaps
  induction caps generalizing s with
  | nil => rfl
  | cons c caps ih =>
    change (chargeCap c >>= fun _ => caps.forM chargeCap) s = _
    rw [M.bind_apply, chargeCap_apply]
    exact ih (s.chargeOnce c)

@[simp] theorem acquireOf_apply (o : BitVec 2) (n : BitVec 3) (s : State) : acquireOf o n s = .ok () (s.acquired o n.toNat) := by
  unfold acquireOf acquireAt State.acquired
  generalize o.getLsbD 0 = b
  cases b
  · simp
  · by_cases h2 : 2 ≤ n.toNat
    · simp [h2, show 1 ≤ n.toNat by omega]
    · by_cases h3 : 1 ≤ n.toNat <;> simp [h2, h3]

/-! ## Where the slot goes -/

@[simp] theorem settle_next (t : State) : settle (.ok .next t) = t.advance := rfl
@[simp] theorem settle_jump (a : W64) (t : State) : settle (.ok (.jump a) t) = t.goTo a := rfl
@[simp] theorem settle_done (t : State) : settle (.ok .done t) = t.finish := rfl
@[simp] theorem settle_doneAt (a : W64) (t : State) : settle (.ok (.doneAt a) t) = t.goToLater a := rfl
@[simp] theorem settle_gone (t : State) : settle (.ok .gone t) = t := rfl
@[simp] theorem settle_trap (ti : TrapInfo) (t : State) : settle (.error (.trap ti) t) = takeTrap ti t := rfl
@[simp] theorem settle_wait (w : Wait) (t : State) : settle (.error (.wait w) t) = t.waitIn w := rfl

/-- An instruction whose effect succeeds. -/
theorem run_of_ok {m : M Ctl} {s t : State} {c : Ctl} (h : m s.issue = .ok c t) : run m s = .next (settle (.ok c t)) := by
  simp [run, h]

/-- A scalar instruction that uses no port. -/
theorem run_scalar {s t : State} {srcs : List Reg} {dst : Option Reg} {m : M Unit} (h : NoPort s srcs dst)
    (hm : m s.issue = .ok () t) : run (scalar srcs dst m) s = .next t.advance := by
  simp [run, scalar_of_noPort h.issue hm]

/-- A waiting instruction that uses no port. -/
theorem run_waiting {s t : State} {srcs : List Reg} {dst : Option Reg} {m : M Unit} (h : NoPort s srcs dst)
    (hm : m s.issue = .ok () t) : run (waiting srcs dst m) s = .next t.finish := by
  simp [run, waiting_of_noPort h.issue hm]

end Sys2Proof.Machine
end

