-- ==== Sys2Proof/Laws/Access.lean ====
section
/-! SUPPORT. What the checks and the reads of an access do to the state, said once for each operation; and what they answer. -/

namespace Sys2Proof.Machine

/-! ## Computations that keep a relation -/

/-- A computation relates the state before to the state it leaves. -/
def Does {α : Type} (R : State → State → Prop) (m : M α) : Prop := ∀ s, R s (left (m s))

/-- A relation that states may be carried along. -/
structure Carries (R : State → State → Prop) : Prop where
  refl : ∀ s, R s s
  trans : ∀ {s t u}, R s t → R t u → R s u

variable {R : State → State → Prop} {α β : Type}

theorem Does.ok {m : M α} {s t : State} {a : α} (h : Does R m) (hm : m s = .ok a t) : R s t := by
  have := h s
  rwa [hm] at this

theorem Does.error {m : M α} {s t : State} {e : Stop} (h : Does R m) (hm : m s = .error e t) : R s t := by
  have := h s
  rwa [hm] at this

theorem Does.pure (hR : Carries R) (a : α) : Does R (pure a : M α) := fun s => hR.refl s
theorem Does.get (hR : Carries R) : Does R (get : M State) := fun s => hR.refl s
theorem Does.throw (hR : Carries R) (e : Stop) : Does R (throw e : M α) := fun s => hR.refl s
theorem Does.trapAt (hR : Carries R) (c : Byte) (v tc tf : W64) : Does R (trapAt c v tc tf : M α) := fun s => hR.refl s
theorem Does.trapXlate (hR : Carries R) (n : Nat) (v tc : W64) : Does R (trapXlate n v tc : M α) := fun s => hR.refl s
theorem Does.trapPriv (hR : Carries R) : Does R (trapPriv : M α) := fun s => hR.refl s
theorem Does.block (hR : Carries R) (b : Bool) : Does R (block b : M α) := fun s => hR.refl s
theorem Does.getMe (hR : Carries R) : Does R getMe := fun s => hR.refl s
theorem Does.whoMe (hR : Carries R) : Does R whoMe := fun s => hR.refl s

theorem Does.modify {f : State → State} (h : ∀ s, R s (f s)) : Does R (modify f : M PUnit) := fun s => h s

theorem Does.bind (hR : Carries R) {m : M α} {f : α → M β} (hm : Does R m) (hf : ∀ a, Does R (f a)) : Does R (m >>= f) := by
  intro s
  rw [M.bind_apply]
  cases h : m s with
  | ok a t => exact hR.trans (hm.ok h) (hf a t)
  | error e t => exact hm.error h

theorem Does.ite {c : Prop} [Decidable c] {m n : M α} (hm : c → Does R m) (hn : ¬c → Does R n) : Does R (if c then m else n) := by
  split
  · next h => exact hm h
  · next h => exact hn h

/-- A conditional act, then the rest: what `if … then …` without an else is in a do block. -/
theorem Does.when {c : Prop} [Decidable c] {x : M Unit} {k : Unit → M β} (hR : Carries R) (hx : c → Does R x)
    (hk : ∀ a, Does R (k a)) : Does R (if c then x >>= k else k ()) :=
  Does.ite (fun h => Does.bind hR (hx h) hk) fun _ => hk ()

/-- Whatever a computation answers, with the state it leaves, has a property. -/
def Gives (P : α → State → Prop) (m : M α) : Prop := ∀ s a t, m s = .ok a t → P a t

variable {P : α → State → Prop}

theorem Gives.pure {a : α} (h : ∀ t, P a t) : Gives P (pure a : M α) := by
  intro s b t hb
  cases hb
  exact h _

theorem Gives.gets {f : State → α} (h : ∀ t, P (f t) t) : Gives P (get >>= fun s => Pure.pure (f s)) := by
  intro s b t hb
  cases hb
  exact h _

theorem Gives.throw (e : Stop) : Gives P (throw e : M α) := fun _ _ _ h => nomatch h
theorem Gives.trapAt (c : Byte) (v tc tf : W64) : Gives P (trapAt c v tc tf : M α) := fun _ _ _ h => nomatch h
theorem Gives.trapXlate (n : Nat) (v tc : W64) : Gives P (trapXlate n v tc : M α) := fun _ _ _ h => nomatch h

theorem Gives.bind {m : M β} {f : β → M α} (h : ∀ b, Gives P (f b)) : Gives P (m >>= f) := by
  intro s a t hb
  rw [M.bind_apply] at hb
  split at hb
  · exact h _ _ _ _ hb
  · cases hb

/-- What the first computation answers may be used in the second. -/
theorem Gives.bindOf {Q : β → Prop} {m : M β} {f : β → M α} (hm : Gives (fun b _ => Q b) m) (h : ∀ b, Q b → Gives P (f b)) :
    Gives P (m >>= f) := by
  intro s a t hb
  rw [M.bind_apply] at hb
  split at hb
  · next hq => exact h _ (hm _ _ _ hq) _ _ _ hb
  · cases hb

theorem Gives.ite {c : Prop} [Decidable c] {m n : M α} (hm : c → Gives P m) (hn : ¬c → Gives P n) : Gives P (if c then m else n) := by
  split
  · next h => exact hm h
  · next h => exact hn h

theorem Gives.when {c : Prop} [Decidable c] {x : M Unit} {k : Unit → M α} (hk : ∀ a, Gives P (k a)) :
    Gives P (if c then x >>= k else k ()) := Gives.ite (fun _ => Gives.bind hk) fun _ => hk ()

/-! ## The relation of accesses -/

theorem Touched.refl (w : Nat) (s : State) : Touched w s s :=
  ⟨rfl, fun _ => rfl, fun _ => .inl rfl, fun _ => .inl rfl, id⟩

theorem Touched.worlds {w : Nat} {s t : State} (h : Touched w s t) : t.worlds = s.worlds := by rw [h.device]

theorem Touched.world_eq {w : Nat} {s t : State} (h : Touched w s t) (x : Nat) : t.world x = s.world x := by
  simp only [State.world, h.worlds]

theorem Touched.trans {w : Nat} {s t u : State} (h : Touched w s t) (k : Touched w t u) : Touched w s u := by
  refine ⟨?_, fun c => ?_, fun line => ?_, fun loc => ?_, fun m => k.memory (h.memory m)⟩
  · conv_lhs => rw [k.device, h.device]
  · conv_lhs => rw [k.core c, h.core c]
  · rcases k.key line with e | e
    · rw [e]; exact h.key line
    · rw [e, h.world_eq]; exact .inr rfl
  · rcases k.byte loc with e | e
    · rw [e]; exact h.byte loc
    · rw [h.world_eq] at e
      rcases h.key (loc / 64) with f | f
      · rw [f] at e; exact .inr e
      · exact absurd f e.2

theorem Touched.carries (w : Nat) : Carries (Touched w) := ⟨Touched.refl w, Touched.trans⟩

/-- The counters of a core, and whatever else of its caches. -/
theorem Touched.modCore {w c : Nat} {s : State} {f : Core → Core}
    (h : f (s.core c) = { s.core c with
      tlb := (f (s.core c)).tlb, capCache := (f (s.core c)).capCache, l1 := (f (s.core c)).l1, fills := (f (s.core c)).fills
      evcnt := (f (s.core c)).evcnt }) : Touched w s (s.modCore c f) := by
  refine ⟨rfl, fun d => ?_, fun _ => .inl rfl, fun _ => .inl rfl, id⟩
  by_cases hd : c = d
  · subst hd; simp only [State.modCore_core]; exact h
  · rw [State.modCore_core_of_ne _ _ hd]

theorem Touched.caches {w : Nat} {s t : State} (h : t = { s with
      l2 := t.l2, msc := t.msc, dieTlb := t.dieTlb, clusterTlb := t.clusterTlb, ruleCaches := t.ruleCaches }) : Touched w s t := by
  have hc : t.cores = s.cores := by rw [h]
  have hk : t.lineKeys = s.lineKeys := by rw [h]
  have hm : t.mem = s.mem := by rw [h]
  refine ⟨?_, fun c => ?_, fun line => .inl (by rw [hk]), fun loc => .inl ?_, fun m => ?_⟩
  · conv_lhs => rw [h]
    simp only [hc, hk, hm]
    congr 1
    rw [h]
  · simp only [State.core, hc]
  · simp only [State.byte, hm]
  · simpa only [State.MemoryWf, hm] using m

/-! ## Memory by bytes: the canonical form, and reading after writing -/

theorem State.setByte_memoryWf {s : State} (h : s.MemoryWf) (loc : Nat) (b : Byte) : (s.setByte loc b).MemoryWf := Sparse.wf_set h

theorem State.setBytes_memoryWf {s : State} (h : s.MemoryWf) (loc : Nat) (bs : List Byte) : (s.setBytes loc bs).MemoryWf := by
  induction bs generalizing s loc with
  | nil => exact h
  | cons b bs ih => exact ih (State.setByte_memoryWf h loc b) (loc + 1)

theorem State.setCells_memoryWf {s : State} (h : s.MemoryWf) (cells : List Host.Cell) : (s.setCells cells).MemoryWf := by
  induction cells generalizing s with
  | nil => exact h
  | cons c cells ih => exact ih (State.setByte_memoryWf h c.1 c.2)

theorem State.setWord64_memoryWf {s : State} (h : s.MemoryWf) (loc : Nat) (v : W64) : (s.setWord64 loc v).MemoryWf :=
  State.setBytes_memoryWf h loc _

theorem State.byte_setByte (s : State) (loc l : Nat) (b : Byte) : (s.setByte loc b).byte l = if loc = l then b else s.byte l :=
  Sparse.get_set _ _ _ _ _

/-- Bytes written in a row leave every other byte alone. -/
theorem State.byte_setBytes_of_not {s : State} {loc l : Nat} {bs : List Byte} (h : l < loc ∨ loc + bs.length ≤ l) :
    (s.setBytes loc bs).byte l = s.byte l := by
  induction bs generalizing s loc with
  | nil => rfl
  | cons b bs ih =>
    simp only [List.length_cons] at h
    rw [State.setBytes, ih (by omega), State.byte_setByte, if_neg (by omega)]

/-- Bytes written in a row read back. -/
theorem State.byte_setBytes {s : State} {loc i : Nat} {bs : List Byte} (h : i < bs.length) :
    (s.setBytes loc bs).byte (loc + i) = bs[i] := by
  induction bs generalizing s loc i with
  | nil => simp at h
  | cons b bs ih =>
    cases i with
    | zero => rw [State.setBytes, State.byte_setBytes_of_not (by omega), State.byte_setByte]; simp
    | succ i =>
      simp only [List.length_cons] at h
      have := ih (s := s.setByte loc b) (loc := loc + 1) (i := i) (by omega)
      rw [State.setBytes, show loc + (i + 1) = loc + 1 + i by omega, this]; rfl

/-- Cells written leave every other byte alone. -/
theorem State.byte_setCells_of_not {s : State} {l : Nat} {cells : List Host.Cell} (h : ∀ x ∈ cells, x.1 ≠ l) :
    (s.setCells cells).byte l = s.byte l := by
  induction cells generalizing s with
  | nil => rfl
  | cons c cells ih =>
    obtain ⟨a, b⟩ := c
    rw [State.setCells, ih fun x hx => h x (List.mem_cons_of_mem _ hx), State.byte_setByte,
      if_neg (h (a, b) List.mem_cons_self)]

/-- Cells at different locations read back. -/
theorem State.byte_setCells {s : State} {cells : List Host.Cell} (h : cells.Pairwise fun x y => x.1 ≠ y.1) {x : Host.Cell}
    (hx : x ∈ cells) : (s.setCells cells).byte x.1 = x.2 := by
  induction cells generalizing s with
  | nil => simp at hx
  | cons c cells ih =>
    obtain ⟨a, b⟩ := c
    rw [List.pairwise_cons] at h
    rcases List.mem_cons.mp hx with rfl | hx
    · rw [State.setCells, State.byte_setCells_of_not fun y hy => (h.1 y hy).symm, State.byte_setByte]; simp
    · exact ih h.2 hx

/-! ## Lines -/

theorem State.mscTouch_touched (w : Nat) (s : State) (line : Nat) : Touched w s (s.mscTouch line) := Touched.caches rfl
theorem State.l2Hit_touched (w : Nat) (s : State) (c line slice : Nat) : Touched w s (s.l2Hit c line slice) := Touched.caches rfl

theorem State.l2Retire_caches (s : State) (cl line slice : Nat) :
    s.l2Retire cl line slice = { s with l2 := (s.l2Retire cl line slice).l2, msc := (s.l2Retire cl line slice).msc } := by
  unfold State.l2Retire State.mscTouch
  dsimp only
  split <;> rfl

theorem State.l2Fill_caches (s : State) (cl wl line slice : Nat) (dirty : Bool) :
    s.l2Fill cl wl line slice dirty = { s with l2 := (s.l2Fill cl wl line slice dirty).l2, msc := (s.l2Fill cl wl line slice dirty).msc } := by
  unfold State.l2Fill
  rw [State.l2Retire_caches]
  unfold State.mscTouch
  dsimp only
  split
  · split <;> rfl
  · split
    · split <;> rfl
    · rfl

theorem State.l2Fill_touched (w : Nat) (s : State) (cl wl line slice : Nat) (dirty : Bool) :
    Touched w s (s.l2Fill cl wl line slice dirty) := by
  apply Touched.caches
  rw [State.l2Fill_caches]

theorem isHbm_line {line loc : Nat} (h : isHbm (line * 64) = true) (h1 : line * 64 ≤ loc) (h2 : loc < line * 64 + 64) : isHbm loc = true := by
  have h0 := of_decide_eq_true h
  refine decide_eq_true ?_
  norm_num [hostBase] at h0 ⊢
  omega

/-- Bytes of an HBM line written under the key of a world. -/
theorem Touched.collide {w line : Nat} {s : State} (h : isHbm (line * 64) = true)
    (hk : Sparse.get 0 s.lineKeys line ≠ (s.world w).memKey) (bs : List Byte) (hl : bs.length = 64) (n : Nat) :
    Touched w s { s.setBytes (line * 64) bs with lineKeys := Sparse.set 0 s.lineKeys line (s.world w).memKey, freeCtr := n } := by
  refine ⟨?_, fun c => ?_, fun l => ?_, fun loc => ?_, fun m => State.setBytes_memoryWf m _ _⟩
  · simp
  · simp [State.core]
  · simp only [Sparse.get_set]
    split
    · exact .inr rfl
    · exact .inl rfl
  · by_cases hl' : loc < line * 64 ∨ line * 64 + bs.length ≤ loc
    · exact .inl (State.byte_setBytes_of_not (s := s) hl')
    · have e : loc / 64 = line := by omega
      exact .inr ⟨isHbm_line h (by omega) (by omega), e ▸ hk⟩

theorem State.lineCollide_touched (w : Nat) (s : State) {line : Nat} (h : isHbm (line * 64) = true) :
    Touched w s (s.lineCollide w line) := by
  unfold State.lineCollide
  dsimp only
  split
  · exact Touched.refl w s
  · next hk => exact Touched.collide h hk _ (by simp) _

theorem State.lineAccess_touched (w : Who) (s : State) {line : Nat} (pin : Option Nat) (h : isHbm (line * 64) = true) :
    Touched w.world s (s.lineAccess w line pin).1 := by
  unfold State.lineAccess
  dsimp only
  split
  · exact (State.l2Hit_touched w.world s (clusterOf w.core) line (sliceOf line pin)).trans
      (Touched.modCore (f := (·.tally 0x07 w.slot 1)) rfl)
  · split
    · exact Touched.refl _ _
    · have h1 : Touched w.world s ((s.mscTouch line).modCore w.core fun c =>
          (c.tally 0x08 w.slot 1).tally 0x09 w.slot (boolNat (s.mscHolds line))) :=
        (State.mscTouch_touched _ _ _).trans (Touched.modCore rfl)
      split
      · exact h1.trans ((State.lineCollide_touched _ _ h).trans (State.l2Fill_touched _ _ _ _ _ _ _))
      · exact h1

theorem lineInAt_does (w : Who) {line : Nat} (pin : Option Nat) (at_ : Byte → W64) (h : isHbm (line * 64) = true) :
    Does (Touched w.world) (lineInAt w line pin at_) := by
  intro s
  have := State.lineAccess_touched w s pin h
  unfold lineInAt
  simp only [M.bind_apply, M.get_apply]
  generalize s.lineAccess w line pin = r at this ⊢
  obtain ⟨t, _ | c⟩ := r <;> exact this

theorem lineIn_does (w : Who) {line : Nat} (pin : Option Nat) (ea : W64) (h : isHbm (line * 64) = true) :
    Does (Touched w.world) (lineIn w line pin ea) := lineInAt_does w pin _ h

/-! ## Translation -/

theorem isHbm_base {loc : Nat} (h : isHbm loc = true) : isHbm (loc / 64 * 64) = true := by
  have h0 := of_decide_eq_true h
  refine decide_eq_true ?_
  norm_num [hostBase] at h0 ⊢
  omega

theorem readPte_does (w : Who) (wpa va : Nat) (ea : W64) : Does (Touched w.world) (readPte w wpa va ea) := by
  have hR := Touched.carries w.world
  unfold readPte
  refine Does.bind hR (Does.get hR) fun s => ?_
  split
  · exact Does.trapXlate hR _ _ _
  · refine Does.bind hR (Does.get hR) fun t => Does.when hR (fun _ => Does.trapAt hR _ _ _ _) fun _ => ?_
    refine Does.when hR (fun h => lineInAt_does w _ _ (isHbm_base h)) fun _ => ?_
    exact Does.bind hR (Does.get hR) fun _ => Does.pure hR _

theorem walk_does (w : Who) (va : Nat) (ea : W64) (ls : List Level) (table : Nat) :
    Does (Touched w.world) (walk w va ea ls table) := by
  have hR := Touched.carries w.world
  induction ls generalizing table with
  | nil => exact Does.trapXlate hR _ _ _
  | cons l ls ih =>
    unfold walk
    refine Does.bind hR (readPte_does w _ _ ea) fun e => ?_
    refine Does.ite (fun _ => Does.trapXlate hR _ _ _) fun _ => ?_
    refine Does.ite (fun _ => Does.trapXlate hR _ _ _) fun _ => ?_
    exact Does.ite (fun _ => Does.pure hR _) fun _ => ih _

theorem translate_does (w : Who) (va : Nat) (ea : W64) : Does (Touched w.world) (translate w va ea) := by
  have hR := Touched.carries w.world
  unfold translate
  refine Does.bind hR (Does.get hR) fun s => ?_
  dsimp only
  split
  · exact Does.pure hR _
  · refine Does.bind hR (Does.modify fun s => Touched.modCore rfl) fun _ => ?_
    split
    · exact Does.bind hR (Does.modify fun s => Touched.modCore rfl) fun _ => Does.pure hR _
    · split
      · exact Does.bind hR (Does.modify fun s => Touched.trans (Touched.caches rfl) (Touched.modCore rfl)) fun _ => Does.pure hR _
      · refine Does.bind hR (walk_does w _ _ _ _) fun e => Does.bind hR (Does.get hR) fun s => ?_
        exact Does.when hR (fun _ => Does.modify fun s => Touched.trans (Touched.caches rfl) (Touched.modCore rfl)) fun _ =>
          Does.pure hR _

theorem placeOfVa_does (w : Who) (va : Nat) (k : Kind) (ea : W64) : Does (Touched w.world) (placeOfVa w va k ea) := by
  have hR := Touched.carries w.world
  unfold placeOfVa
  refine Does.bind hR (translate_does w va ea) fun t => Does.ite (fun _ => Does.bind hR (Does.get hR) fun s => ?_) fun _ =>
    Does.trapXlate hR _ _ _
  split
  · exact Does.trapXlate hR _ _ _
  · exact Does.pure hR _

theorem resolveSeq_does (w : Who) (ea : W64) : Does (Touched w.world) (resolveSeq w ea) := by
  have hR := Touched.carries w.world
  unfold resolveSeq
  refine Does.bind hR (Does.get hR) fun s => ?_
  dsimp only
  refine Does.when hR (fun _ => Does.trapAt hR _ _ _ _) fun _ => ?_
  refine Does.when hR (fun _ => Does.trapAt hR _ _ _ _) fun _ => ?_
  refine Does.when hR (fun _ => Does.trapXlate hR _ _ _) fun _ => ?_
  exact Does.when hR (fun _ => Does.trapXlate hR _ _ _) fun _ => Does.pure hR _

theorem locate_does (w : Who) (ea : W64) (k : Kind) : Does (Touched w.world) (locate w ea k) := by
  have hR := Touched.carries w.world
  unfold locate
  refine Does.bind hR (Does.get hR) fun s => ?_
  split
  · exact Does.when hR (fun _ => Does.trapXlate hR _ _ _) fun _ => placeOfVa_does w _ _ _
  · exact Does.bind hR (resolveSeq_does w _) fun _ => placeOfVa_does w _ _ _
  · split
    · exact Does.when hR (fun _ => Does.trapXlate hR _ _ _) fun _ =>
        Does.when hR (fun _ => Does.trapPriv hR) fun _ => Does.pure hR _
    · exact Does.when hR (fun _ => Does.trapXlate hR _ _ _) fun _ => Does.pure hR _
    · exact Does.when hR (fun _ => Does.trapXlate hR _ _ _) fun _ => Does.pure hR _
    · exact Does.when hR (fun _ => Does.trapXlate hR _ _ _) fun _ => Does.pure hR _
    · exact Does.trapXlate hR _ _ _
  · exact Does.trapXlate hR _ _ _

/-! ## Authority -/

theorem ruleGrant_does (w : Who) (n : Nat) (ea : W64) : Does (Touched w.world) (ruleGrant w n ea) := by
  have hR := Touched.carries w.world
  unfold ruleGrant
  intro s
  simp only [M.bind_apply, M.get_apply]
  cases (Sparse.get [] s.ruleCaches (clusterOf w.core)).find? fun l => l.world = w.world && l.ruleset = n && l.cix = w.cix with
  | some l => exact Touched.caches rfl
  | none =>
    have h1 : Touched w.world s (s.modCore w.core (·.tally 0x0C w.slot 1)) := Touched.modCore rfl
    by_cases hr : (s.chain w.cix).revoked = true
    · simp only [M.bind_apply, M.modify_apply, hr, ite_true]
      exact h1
    · simp only [M.bind_apply, M.modify_apply, hr]
      exact h1.trans (Touched.caches rfl)

theorem authorize_does (w : Who) (ea : W64) (kinds : List Kind) : Does (Touched w.world) (authorize w ea kinds) := by
  have hR := Touched.carries w.world
  unfold authorize
  refine Does.bind hR (Does.get hR) fun s => ?_
  split
  · exact Does.trapAt hR _ _ _ _
  · refine Does.bind hR (Does.modify fun t => Touched.modCore ?_) fun _ => ?_
    · split <;> rfl
    · refine Does.ite (fun _ => Does.trapAt hR _ _ _ _) fun _ => Does.bind hR (ruleGrant_does w _ _) fun g => ?_
      exact Does.ite (fun _ => Does.trapAt hR _ _ _ _) fun _ => Does.pure hR _

theorem firewall_does (w : Who) (pl : Place) (ea : W64) (kinds : List Kind) : Does (Touched w.world) (firewall w pl ea kinds) := by
  have hR := Touched.carries w.world
  unfold firewall
  exact Does.bind hR (Does.get hR) fun s => Does.ite (fun _ => Does.trapAt hR _ _ _ _) fun _ => Does.pure hR _

/-- The checks of an access (R99) change nothing but what `Touched` says. -/
theorem checkAccess_does (w : Who) (ea : W64) (n : Nat) (k : Kind) (kinds : List Kind) :
    Does (Touched w.world) (checkAccess w ea n k kinds) := by
  have hR := Touched.carries w.world
  unfold checkAccess
  refine Does.when hR (fun _ => Does.trapAt hR _ _ _ _) fun _ => Does.when hR (fun _ => Does.trapAt hR _ _ _ _) fun _ => ?_
  refine Does.bind hR (locate_does w ea k) fun pl => Does.when hR (fun _ => Does.trapPriv hR) fun _ => ?_
  exact Does.bind hR (authorize_does w ea kinds) fun cap => Does.bind hR (firewall_does w pl ea kinds) fun _ => Does.pure hR _

theorem checkPiece_does (w : Who) (ea : W64) (n : Nat) (k : Kind) : Does (Touched w.world) (checkPiece w ea n k) := by
  have hR := Touched.carries w.world
  unfold checkPiece
  refine Does.when hR (fun _ => Does.trapAt hR _ _ _ _) fun _ => Does.when hR (fun _ => Does.trapAt hR _ _ _ _) fun _ => ?_
  refine Does.bind hR (locate_does w ea k) fun pl => Does.bind hR (authorize_does w ea [k]) fun cap => ?_
  exact Does.bind hR (firewall_does w pl ea [k]) fun _ => Does.pure hR _

theorem fePlace_does (w : Who) (ea : W64) (kinds : List Kind) : Does (Touched w.world) (fePlace w ea kinds) := by
  have hR := Touched.carries w.world
  unfold fePlace
  refine Does.when hR (fun _ => Does.trapAt hR _ _ _ _) fun _ => Does.when hR (fun _ => Does.trapXlate hR _ _ _) fun _ => ?_
  refine Does.when hR (fun _ => Does.trapXlate hR _ _ _) fun _ => Does.bind hR (locate_does w ea _) fun pl => ?_
  refine Does.ite (fun _ => Does.bind hR (firewall_does w pl ea kinds) fun _ => Does.pure hR _) fun _ => ?_
  exact Does.bind hR (authorize_does w ea kinds) fun cap => Does.bind hR (firewall_does w pl ea kinds) fun _ => Does.pure hR _

/-! ## Where an address lies -/

/-- A place in HBM has a location of HBM. -/
def Place.honest (pl : Place) : Prop := pl.space = .hbm → isHbm pl.loc = true

theorem placeOfVa_gives (w : Who) (va : Nat) (k : Kind) (ea : W64) : Gives (fun pl _ => pl.honest) (placeOfVa w va k ea) := by
  unfold placeOfVa
  refine Gives.bind fun t => Gives.ite (fun _ => Gives.bind fun s => ?_) fun _ => Gives.trapXlate _ _ _
  split
  · exact Gives.trapXlate _ _ _
  · refine Gives.pure fun _ h => ?_
    dsimp only at h ⊢
    split at h
    · assumption
    · cases h

theorem locate_gives (w : Who) (ea : W64) (k : Kind) : Gives (fun pl _ => pl.honest) (locate w ea k) := by
  unfold locate
  refine Gives.bind fun s => ?_
  split
  · exact Gives.when fun _ => placeOfVa_gives w _ _ _
  · exact Gives.bind fun _ => placeOfVa_gives w _ _ _
  · split
    · exact Gives.when fun _ => Gives.when fun _ => Gives.pure fun _ => nofun
    · exact Gives.when fun _ => Gives.pure fun _ => nofun
    · exact Gives.when fun _ => Gives.pure fun _ => nofun
    · exact Gives.when fun _ => Gives.pure fun _ => nofun
    · exact Gives.trapXlate _ _ _
  · exact Gives.trapXlate _ _ _

theorem checkAccess_gives (w : Who) (ea : W64) (n : Nat) (k : Kind) (kinds : List Kind) :
    Gives (fun r _ => r.1.honest) (checkAccess w ea n k kinds) := by
  unfold checkAccess
  refine Gives.when fun _ => Gives.when fun _ => Gives.bindOf (locate_gives w ea k) fun pl h => Gives.when fun _ => ?_
  exact Gives.bind fun cap => Gives.bind fun _ => Gives.pure fun _ => h

theorem checkPiece_gives (w : Who) (ea : W64) (n : Nat) (k : Kind) : Gives (fun r _ => r.1.honest) (checkPiece w ea n k) := by
  unfold checkPiece
  refine Gives.when fun _ => Gives.when fun _ => Gives.bindOf (locate_gives w ea k) fun pl h => ?_
  exact Gives.bind fun cap => Gives.bind fun _ => Gives.pure fun _ => h

/-! ## Reading -/

theorem fetchLine_does (w : Who) {line : Nat} (pl : Place) (na : Bool) (ea : W64) (h : isHbm (line * 64) = true) :
    Does (Touched w.world) (fetchLine w line pl na ea) := by
  have hR := Touched.carries w.world
  unfold fetchLine
  refine Does.bind hR (Does.get hR) fun s => ?_
  dsimp only
  split
  · refine Does.modify fun s => Touched.modCore ?_
    split <;> rfl
  · refine Does.bind hR (Does.modify fun s => Touched.modCore rfl) fun _ => Does.bind hR (lineIn_does w _ ea h) fun _ => ?_
    refine Does.modify fun s => Touched.modCore ?_
    split <;> rfl

theorem waitSiblings_does (w : Who) (loc n : Nat) : Does (Touched w.world) (waitSiblings w loc n) := by
  have hR := Touched.carries w.world
  unfold waitSiblings
  exact Does.bind hR (Does.get hR) fun s => Does.ite (fun _ => Does.block hR _) fun _ => Does.pure hR _

/-- A read at a place changes nothing but what `Touched` says. -/
theorem loadPlace_does (w : Who) {pl : Place} (n : Nat) (m : Mod) (ea : W64) (h : pl.honest) :
    Does (Touched w.world) (loadPlace w pl n m ea) := by
  have hR := Touched.carries w.world
  unfold loadPlace
  refine Does.when hR (fun _ => waitSiblings_does w _ _) fun _ => ?_
  refine Does.when hR (fun hs => fetchLine_does w pl _ ea (isHbm_base (h hs))) fun _ => ?_
  exact Does.bind hR (Does.get hR) fun _ => Does.pure hR _

/-- What a read answers: the bytes that a load of the core takes. -/
theorem loadPlace_gives (w : Who) (pl : Place) (n : Nat) (m : Mod) (ea : W64) :
    Gives (fun bs t => bs = (List.range n).map fun i => t.loadByte w.core (pl.loc + i)) (loadPlace w pl n m ea) := by
  unfold loadPlace
  exact Gives.when fun _ => Gives.when fun _ => Gives.gets fun _ => rfl

/-! ## What an access leaves alone -/

namespace Touched

variable {w : Nat} {s t : State}

@[simp] theorem cur_eq (h : Touched w s t) : t.cur = s.cur := by rw [h.device]
theorem slots_eq (h : Touched w s t) (c : Nat) : (t.core c).slots = (s.core c).slots := by rw [h.core c]
theorem sb_eq (h : Touched w s t) (c : Nat) : (t.core c).sb = (s.core c).sb := by rw [h.core c]
theorem inq_eq (h : Touched w s t) (c : Nat) : (t.core c).inq = (s.core c).inq := by rw [h.core c]
theorem coreWorld_eq (h : Touched w s t) (c : Nat) : (t.core c).world = (s.core c).world := by rw [h.core c]
theorem pipecfg_eq (h : Touched w s t) (c : Nat) : (t.core c).pipecfg = (s.core c).pipecfg := by rw [h.core c]
theorem slot_eq (h : Touched w s t) (c n : Nat) : t.slot c n = s.slot c n := by simp only [State.slot, Core.slot, h.slots_eq]
theorem me_eq (h : Touched w s t) : t.me = s.me := by simp only [State.me, h.cur_eq, h.slot_eq]
theorem myWorld_eq (h : Touched w s t) : t.myWorld = s.myWorld := by simp only [State.myWorld, State.myCore, h.cur_eq, h.coreWorld_eq]
theorem who_eq (h : Touched w s t) : t.who = s.who := by simp only [State.who, h.cur_eq, h.me_eq, h.myWorld_eq]
theorem banks_eq (h : Touched w s t) : t.banks = s.banks := by rw [h.device]
theorem full_eq (h : Touched w s t) : t.full = s.full := by rw [h.device]
theorem src_eq (h : Touched w s t) (r : Reg) : t.src r = s.src r := by
  have hp : t.myCore.portOut t.cur.slot = s.myCore.portOut s.cur.slot := by
    rw [State.myCore, State.myCore, h.cur_eq, Core.portOut, Core.portOut, h.pipecfg_eq]
  simp [State.src, hp, h.me_eq]

end Touched

end Sys2Proof.Machine
end

