-- ==== Sys2Proof/Laws/Spans.lean ====
section
/-! SUPPORT. What reads of spans do: a thread's, an engine's and an image's. What is sealed under AES-GCM opens again. -/

namespace Sys2Proof.Machine

variable {R : State → State → Prop} {α β : Type}

/-- A fold of computations relates what each of them relates. -/
theorem Does.foldlM (hR : Carries R) {f : β → α → M β} (hf : ∀ b a, Does R (f b a)) (l : List α) (b : β) : Does R (l.foldlM f b) := by
  induction l generalizing b with
  | nil => exact Does.pure hR b
  | cons a l ih =>
    rw [List.foldlM_cons]
    exact Does.bind hR (hf b a) ih

/-- What the first computation answers may be used in the second. -/
theorem Does.bindOf (hR : Carries R) {Q : α → Prop} {m : M α} {f : α → M β} (hm : Does R m) (hq : Gives (fun a _ => Q a) m)
    (hf : ∀ a, Q a → Does R (f a)) : Does R (m >>= f) := by
  intro s
  rw [M.bind_apply]
  cases h : m s with
  | ok a t => exact hR.trans (hm.ok h) (hf a (hq _ _ _ h) t)
  | error e t => exact hm.error h

/-- A checked read of a span changes nothing but what `Touched` says. -/
theorem readSpan_does (w : Who) (ea : W64) (n esize : Nat) (m : Mod) : Does (Touched w.world) (readSpan w ea n esize m) := by
  have hR := Touched.carries w.world
  unfold readSpan
  refine Does.foldlM hR (fun b a => ?_) _ _
  refine Does.bindOf hR (checkPiece_does w _ _ _) (checkPiece_gives w _ _ _) fun r hr => ?_
  exact Does.bind hR (loadPlace_does w _ m _ hr) fun _ => Does.pure hR _

/-- A checked read of an engine changes nothing but what `Touched` says. -/
theorem engineSpan_does (w : Who) (ea : W64) (n : Nat) : Does (Touched w.world) (engineSpan w ea n) := by
  have hR := Touched.carries w.world
  unfold engineSpan
  refine Does.foldlM hR (fun b a => ?_) _ _
  refine Does.bindOf hR (checkPiece_does w _ _ _) (checkPiece_gives w _ _ _) fun r hr => ?_
  refine Does.when hR (fun hs => lineIn_does w _ _ (isHbm_base (hr hs))) fun _ => ?_
  exact Does.bind hR (Does.get hR) fun _ => Does.pure hR _

theorem engineRead_does (w : Who) (ea : W64) (n : Nat) : Does (Touched w.world) (engineRead w ea n) :=
  Does.bind (Touched.carries w.world) (engineSpan_does w ea n) fun _ => Does.pure (Touched.carries w.world) _

/-! ## Bytes, and what is sealed -/

theorem State.bytes_eq {s : State} {loc : Nat} {bs : List Byte} (h : ∀ i (hi : i < bs.length), s.byte (loc + i) = bs[i]) :
    s.bytes loc bs.length = bs := by
  induction bs generalizing loc with
  | nil => rfl
  | cons b bs ih =>
    simp only [State.bytes, List.length_cons]
    have h0 := h 0 (by simp)
    rw [Nat.add_zero] at h0
    rw [h0, ih fun i hi => by
      have := h (i + 1) (by simpa using hi)
      rw [show loc + 1 + i = loc + (i + 1) by omega]
      simpa using this]
    rfl

/-- Bytes written in a row read back as they were written. -/
theorem State.bytes_setBytes (s : State) (loc : Nat) (bs : List Byte) : (s.setBytes loc bs).bytes loc bs.length = bs :=
  State.bytes_eq fun _ hi => State.byte_setBytes hi

/-- Bytes are read from memory alone. -/
theorem State.bytes_of_mem {s t : State} (h : t.mem = s.mem) (loc n : Nat) : t.bytes loc n = s.bytes loc n := by
  induction n generalizing loc with
  | zero => rfl
  | succ n ih => simp only [State.bytes, ih, State.byte, h]

theorem State.bytes_length (s : State) (loc n : Nat) : (s.bytes loc n).length = n := by
  induction n generalizing loc with
  | zero => rfl
  | succ n ih => simp [State.bytes, ih]

theorem gcmXorFrom_length (key iv i : Nat) (bs : List Byte) : (gcmXorFrom key iv i bs).length = bs.length := by
  induction bs generalizing i with
  | nil => rfl
  | cons b bs ih => simp [gcmXorFrom, ih]

theorem gcmXorFrom_twice (key iv i : Nat) (bs : List Byte) : gcmXorFrom key iv i (gcmXorFrom key iv i bs) = bs := by
  induction bs generalizing i with
  | nil => rfl
  | cons b bs ih => simp [gcmXorFrom, ih]

theorem gcmXor_length (key iv : Nat) (bs : List Byte) : (gcmXor key iv bs).length = bs.length := gcmXorFrom_length _ _ _ _

theorem gcmXor_gcmXor (key iv : Nat) (bs : List Byte) : gcmXor key iv (gcmXor key iv bs) = bs := gcmXorFrom_twice _ _ _ _

/-- What the checkpoint seals it opens. -/
theorem ckptOpen_ckptSeal (key serial record : Nat) (bs : List Byte) : ckptOpen key serial record (ckptSeal key serial record bs) = some bs := by
  have h : (ckptSeal key serial record bs).length - 16 = (gcmXor key (ckptIv serial record) bs).length := by
    simp [ckptSeal, gcmTagOf]
  unfold ckptOpen
  simp only [h]
  simp only [ckptSeal, List.drop_left, List.take_left, if_true, gcmXor_gcmXor]

end Sys2Proof.Machine
end

