-- ==== Sys2Proof/Laws/Fetch.lean ====
section
/-! SUPPORT. What fetching an instruction does to the state, and what a turn does with one that waited. -/

namespace Sys2Proof.Machine

/-- The words that a core keeps of its code. -/
def State.keepCode (s : State) (c : Nat) (words : Sparse H16) : State := s.modCore c fun k => { k with code := words }

theorem State.keepCode_keepCode (s : State) (c : Nat) (x y : Sparse H16) : (s.keepCode c x).keepCode c y = s.keepCode c y := by
  simp [State.keepCode, State.modCore, State.setCore, State.core]

theorem Touched.code_eq {w : Nat} {s t : State} (h : Touched w s t) (c : Nat) : (t.core c).code = (s.core c).code := by rw [h.core c]

theorem Touched.keepCode {w : Nat} {s t : State} (h : Touched w s t) (c : Nat) (x : Sparse H16) :
    Touched w (s.keepCode c x) (t.keepCode c x) := by
  refine ⟨?_, fun d => ?_, h.key, h.byte, h.memory⟩
  · conv_lhs => rw [h.device]
    rfl
  · by_cases hd : c = d
    · subst hd
      simp only [State.keepCode, State.modCore_core]
      conv_lhs => rw [h.core c]
    · simp only [State.keepCode, State.modCore_core_of_ne _ _ hd]
      exact h.core d

theorem Touched.keepOwn {w : Nat} {s t : State} (h : Touched w s t) (c : Nat) : Touched w s (t.keepCode c (s.core c).code) := by
  have e : t.keepCode c (s.core c).code = t.keepCode c (t.core c).code := by rw [h.code_eq]
  rw [e]
  exact h.trans (Touched.modCore rfl)

/-- What a fetch by a thread may change: what its checked reads may, and the words that its core keeps (R84, log 13). -/
def Fetched (w : Who) (s t : State) : Prop := Touched w.world s (t.keepCode w.core (s.core w.core).code)

theorem Fetched.of {w : Who} {s t : State} (h : Touched w.world s t) : Fetched w s t := h.keepOwn w.core

theorem Fetched.carries (w : Who) : Carries (Fetched w) where
  refl s := Fetched.of (Touched.refl _ s)
  trans {s t u} h k := by
    have k' := Touched.keepCode k w.core (s.core w.core).code
    rw [State.keepCode_keepCode] at k'
    exact Touched.trans h k'

theorem Does.fetched {α : Type} {w : Who} {m : M α} (h : Does (Touched w.world) m) : Does (Fetched w) m := fun s => Fetched.of (h s)

theorem Fetched.keep {w : Who} {s : State} (x : Sparse H16) : Fetched w s (s.keepCode w.core x) := by
  unfold Fetched
  rw [State.keepCode_keepCode]
  exact Touched.modCore rfl

/-- `Fetched` for the acting thread. -/
def FetchedMine (s t : State) : Prop := Fetched s.who s t

theorem FetchedMine.who_eq {s t : State} (h : FetchedMine s t) : t.who = s.who := by
  have hw := Touched.who_eq h
  rw [← hw]
  simp only [State.who, State.me, State.slot, State.myWorld, State.myCore, State.keepCode, State.modCore_cur]
  by_cases hc : s.cur.core = t.cur.core
  · simp [hc, Core.slot]
  · simp [State.modCore_core_of_ne _ _ hc]

theorem FetchedMine.carries : Carries FetchedMine where
  refl s := (Fetched.carries s.who).refl s
  trans {s t u} h k := by
    have k' : Fetched t.who t u := k
    rw [FetchedMine.who_eq h] at k'
    exact (Fetched.carries s.who).trans h k'

theorem Does.mine {α : Type} {m : Who → M α} (h : ∀ w, Does (Fetched w) (m w)) : Does FetchedMine (Machine.whoMe >>= m) := by
  intro s
  rw [M.bind_apply, whoMe_apply]
  exact h s.who s

/-- A fetched word leaves the machine as a checked read does, but for the words that the core keeps (R81, R84). -/
theorem fetch16_does (pc : W64) : Does FetchedMine (fetch16 pc) := by
  unfold fetch16
  refine Does.mine fun w => ?_
  have hR := Touched.carries w.world
  have hF := Fetched.carries w
  refine Does.when hF (fun _ => Does.trapXlate hF _ _ _) fun _ => Does.when hF (fun _ => Does.trapAt hF _ _ _ _) fun _ => ?_
  refine Does.bindOf hF (locate_does w pc _).fetched (locate_gives w pc _) fun pl hp => ?_
  refine Does.bind hF (authorize_does w pc _).fetched fun _ => Does.bind hF (firewall_does w pl pc _).fetched fun _ =>
    Does.bind hF (Does.get hF) fun s => ?_
  split
  · exact Does.pure hF _
  · refine Does.bind hF (Does.get hF) fun s => Does.when hF (fun h => (lineIn_does w _ _ (isHbm_base (hp ?_))).fetched) fun _ => ?_
    · rw [Bool.and_eq_true, decide_eq_true_eq] at h
      exact h.1
    · exact fun s => Fetched.keep _

theorem fetchFrom_does (fuel : Nat) (p : Pfx) (n : Nat) (pc : W64) : Does FetchedMine (fetchFrom fuel p n pc) := by
  have hR := FetchedMine.carries
  induction fuel generalizing p n with
  | zero => exact Does.pure hR _
  | succ f ih =>
    unfold fetchFrom
    refine Does.bind hR (fetch16_does _) fun h => ?_
    split
    · exact Does.pure hR _
    · exact Does.pure hR _
    · exact ih _ _

/-- Fetching the acting thread's next instruction leaves the machine as checked reads do, but for the words that the core keeps. -/
theorem fetchInstr_does : Does FetchedMine fetchInstr := by
  unfold fetchInstr
  exact Does.bind FetchedMine.carries (Does.getMe FetchedMine.carries) fun _ => fetchFrom_does _ _ _ _

@[simp] theorem Slot.underway_of_not_reissue {sl : Slot} (h : sl.reissue = false) : sl.underway = none := by simp [Slot.underway, h]

/-- A turn of a slot that may not issue leaves the state as it is. -/
theorem issueStep_of_not {c n : Nat} {rows : Option Nat} {s : State} (h : s.mayIssue c n = false) : issueStep c n rows s = .next s := by
  simp [issueStep, h]

/-- An instruction that waited runs as it was fetched. -/
theorem issueStep_underway {c n len : Nat} {rows : Option Nat} {s : State} {i : Instr} (h : s.mayIssue c n = true)
    (hu : (s.slot c n).underway = some (i, len)) : issueStep c n rows s = exec i { s with cur := ⟨c, n, len, rows⟩ } := by
  simp [issueStep, h, hu]

/-- A new instruction is fetched, kept in its slot, and runs. -/
theorem issueStep_fetched {c n len : Nat} {rows : Option Nat} {s t : State} {i : Instr} (h : s.mayIssue c n = true)
    (hu : (s.slot c n).underway = none) (hf : fetchInstr { s with cur := ⟨c, n, 2, rows⟩ } = .ok (i, len) t) :
    issueStep c n rows s = exec i { t.issuing c n i len with cur := ⟨c, n, len, rows⟩ } := by
  simp [issueStep, h, hu, hf]

end Sys2Proof.Machine
end

