-- ==== Sys2Proof/Laws/Launch.lean ====
section
/-! SUPPORT. What the launch queue does with a packet (R35, R36). -/

namespace Sys2Proof.Machine

theorem State.offerWords_malformed {s : State} {w : Nat} {words : Vector W64 8} {c : Byte} (h : malformed words = some c) :
    s.offerWords w words = .malformed := by simp [State.offerWords, h]

theorem State.offerWords_accepted {s t : State} {w : Nat} {words : Vector W64 8} (h : malformed words = none)
    (k : s.launchPush w words = some t) : s.offerWords w words = .accepted (t.takeRef (fld words[1] 0 16)) := by
  simp [State.offerWords, h, k]

theorem State.offerWords_full {s : State} {w : Nat} {words : Vector W64 8} (h : malformed words = none)
    (k : s.launchPush w words = none) : s.offerWords w words = .full := by simp [State.offerWords, h, k]

/-- With nothing in the ring a packet goes where `launchPut` puts it. -/
theorem State.launchPush_put {s t : State} {w c : Nat} {cs : List Nat} {words : Vector W64 8} (hc : s.coresOf w = c :: cs)
    (hr : (s.world w).ringLen = 0) (h : s.launchPut w ⟨words, s.cycle, false⟩ = some t) : s.launchPush w words = some t := by
  simp [State.launchPush, hc, hr, h]

theorem State.launchPut_last {s : State} {w c : Nat} {cs : List Nat} {p : Packet} (hc : s.coresOf w = c :: cs)
    (hn : packetCount (s.world w).launch < 64) (hl : lastHasRoom (s.world w).launch = true) :
    s.launchPut w p = some (s.modWorld w fun x => { x with launch := putLast x.launch p }) := by
  have h3 := Nat.not_le.mpr hn
  simp [State.launchPut, hc, h3, hl]

theorem State.launchPut_new {s : State} {w c : Nat} {cs : List Nat} {p : Packet} (hc : s.coresOf w = c :: cs)
    (hn : packetCount (s.world w).launch < 64) (hr : s.sramSegments (clusterOf c) < Config.queueSramSegments) :
    s.launchPut w p = some (s.modWorld w fun x => { x with launch := putLast x.launch p }) := by
  have h3 := Nat.not_le.mpr hn
  simp [State.launchPut, hc, h3, hr]

theorem putLast_room {early : List Segment} {ps : List Packet} {p : Packet} (h : ps.length < 16) :
    putLast (early ++ [⟨ps, none⟩]) p = early ++ [⟨ps ++ [p], none⟩] := by simp [putLast, lastHasRoom, h]

/-- LAUNCH at a packet that it reads: what follows its offer (R35). -/
theorem launchFrom_offer {c : Cmd} {w a n i fuel : Nat} {s : State} (h : i < n) (he : c.hostErr ≠ some i)
    (hr : hostRange (a + 64 * i) 64 = true) : launchFrom c w a n i (fuel + 1) s =
      (s.offer w (s.hostRead (a + 64 * i) 64)).choose (launchFrom c w a n (i + 1) fuel)
        (.done Code.refusedPacket (BitVec.ofNat 32 i), s.modFn c.fn fun x => { x with rejected := x.rejected + 1 })
        (.done Code.noResource (BitVec.ofNat 32 i), s) := by
  rw [launchFrom.eq_2, if_neg (Nat.ne_of_lt h), if_neg (by simp [he, hr])]

theorem launchFrom_end {c : Cmd} {w a n fuel : Nat} {s : State} : launchFrom c w a n n (fuel + 1) s = s.succeeds n := by
  rw [launchFrom.eq_2, if_pos rfl]

end Sys2Proof.Machine
end

