-- ==== Sys2Proof/Laws/Passes.lean ====
section
/-! SUPPORT. An access that passes its checks (`Passes`) is found where it stands, and leaves every access that passes as one that passes: what
checks and reads of pieces and spans then answer. -/

namespace Sys2Proof.Machine

variable {w : Who} {s t u : State}

theorem Steady.refl (w : Who) (s : State) : Steady w s s := fun _ _ _ h => h
theorem Steady.trans (h : Steady w s t) (k : Steady w t u) : Steady w s u := fun a b pl x => k a b pl (h a b pl x)

/-- What the checks of an access look at, but for the rule caches, of which new lines say what the rules say. -/
structure Alike (w : Who) (s t : State) : Prop where
  touched : Touched w.world s t
  tlb : (t.core w.core).tlb = (s.core w.core).tlb
  keys : t.lineKeys = s.lineKeys
  mem : t.mem = s.mem
  l1 : ∀ line, (t.core w.core).l1Line line = (s.core w.core).l1Line line
  rules : ∀ x ∈ Sparse.get [] t.ruleCaches (clusterOf w.core), x ∈ Sparse.get [] s.ruleCaches (clusterOf w.core) ∨
    x.perms = s.rulesGrant x.world x.ruleset x.cix

theorem Alike.refl (w : Who) (s : State) : Alike w s s := ⟨Touched.refl _ _, rfl, rfl, rfl, fun _ => rfl, fun _ h => .inl h⟩

theorem chainIds_eq (h : t.chains = s.chains) (fuel cix : Nat) : t.chainIds fuel cix = s.chainIds fuel cix := by
  have hc : t.chain = s.chain := by funext i; simp only [State.chain, h]
  induction fuel generalizing cix with
  | zero => rfl
  | succ n ih => simp only [State.chainIds, hc, ih]

theorem Touched.chains_eq {n : Nat} (h : Touched n s t) : t.chains = s.chains := by rw [h.device]
theorem Touched.chain_eq {n : Nat} (h : Touched n s t) (c : Nat) : t.chain c = s.chain c := by simp only [State.chain, h.chains_eq]

theorem Touched.rulesGrant_eq {n : Nat} (h : Touched n s t) (a b c : Nat) : t.rulesGrant a b c = s.rulesGrant a b c := by
  simp only [State.rulesGrant, h.world_eq, chainIds_eq h.chains_eq]

theorem Touched.capOf_eq {n : Nat} (h : Touched n s t) (x : Nat) (a : W64) : t.capOf x a = s.capOf x a := by simp only [State.capOf, h.world_eq]
theorem Touched.wpaToDpa_eq {n : Nat} (h : Touched n s t) (x a : Nat) : t.wpaToDpa x a = s.wpaToDpa x a := by
  simp only [State.wpaToDpa, h.world_eq]
theorem Touched.fwAllows_eq {n : Nat} (h : Touched n s t) (x y : Nat) (k : Kind) : t.fwAllows x y k = s.fwAllows x y k := by
  have hr : t.firewallR = s.firewallR := by rw [h.device]
  have hw : t.firewallW = s.firewallW := by rw [h.device]
  simp only [State.fwAllows, hr, hw]
theorem Touched.keyDead_eq {n : Nat} (h : Touched n s t) (x : Nat) : t.keyDead x = s.keyDead x := by
  have hm : t.meridian = s.meridian := by rw [h.device]
  simp only [State.keyDead, h.world_eq, hm]
theorem Touched.zeroing_eq {n : Nat} (h : Touched n s t) (c : Nat) : (t.core c).zeroing = (s.core c).zeroing := by rw [h.core c]
theorem Touched.seqBase_eq {n : Nat} (h : Touched n s t) (c : Nat) : (t.core c).seqBase = (s.core c).seqBase := by rw [h.core c]
theorem Touched.seqSize_eq {n : Nat} (h : Touched n s t) (c : Nat) : (t.core c).seqSize = (s.core c).seqSize := by rw [h.core c]
theorem Touched.sramOwner_eq {n : Nat} (h : Touched n s t) (c : Nat) : t.sramOwner c = s.sramOwner c := by
  simp only [State.sramOwner, h.zeroing_eq, h.coreWorld_eq]
theorem Touched.chipOwner_eq {n : Nat} (h : Touched n s t) (o : Nat) : t.chipOwner o = s.chipOwner o := by
  simp only [State.chipOwner, h.worlds]

/-! ## Where an address stands -/

/-- A computation that looks at the state and leaves it as it is, up to what another state agrees on. -/
def Looks {α : Type} (s t : State) (m : M α) : Prop := ∀ a, m s = .ok a s → m t = .ok a t

theorem Looks.pure {α : Type} (a : α) : Looks s t (Pure.pure a) := fun b h => by cases h; rfl
theorem Looks.throws {α : Type} {m : M α} (h : ∀ s a u, m s ≠ .ok a u) : Looks s t m := fun a k => absurd k (h s a s)
theorem Looks.trapAt {α : Type} (c : Byte) (v x y : W64) : Looks s t (trapAt c v x y : M α) := Looks.throws fun _ _ _ h => nomatch h
theorem Looks.trapXlate {α : Type} (n : Nat) (v x : W64) : Looks s t (trapXlate n v x : M α) := Looks.throws fun _ _ _ h => nomatch h
theorem Looks.trapPriv {α : Type} : Looks s t (trapPriv : M α) := Looks.throws fun _ _ _ h => nomatch h

theorem Looks.ite {α : Type} {c : Prop} [Decidable c] {m n : M α} (hm : c → Looks s t m) (hn : ¬c → Looks s t n) :
    Looks s t (if c then m else n) := by
  split
  · next h => exact hm h
  · next h => exact hn h

/-- A check that may trap, then the rest. -/
theorem Looks.when {α : Type} {c : Prop} [Decidable c] {x : M Unit} {k : Unit → M α} (hx : ∀ s a u, x s ≠ .ok a u)
    (hk : ∀ a, Looks s t (k a)) : Looks s t (if c then x >>= k else k ()) := by
  refine Looks.ite (fun _ => Looks.throws fun s a u h => ?_) fun _ => hk ()
  rw [M.bind_apply] at h
  cases hxs : x s with
  | ok b v => exact hx _ _ _ hxs
  | error e v => rw [hxs] at h; cases h

/-- Nothing is answered by a trap. -/
theorem trapAt_ne {α : Type} (c : Byte) (v : W64) {x y : W64} (s : State) (a : α) (u : State) : (trapAt c v x y : M α) s ≠ .ok a u := nofun
theorem trapXlate_ne {α : Type} (n : Nat) (v : W64) {x : W64} (s : State) (a : α) (u : State) : (trapXlate n v x : M α) s ≠ .ok a u := nofun
theorem trapPriv_ne {α : Type} (s : State) (a : α) (u : State) : (trapPriv : M α) s ≠ .ok a u := nofun

/-- The window of an address names its place, the same in states that agree on the owners of SRAM. -/
theorem locate_window (h : Touched w.world s t) (a : W64) (k : Kind) (ha : fld a 61 3 = 6) : Looks s t (locate w a k) := by
  intro pl hp
  unfold locate at hp ⊢
  simp only [M.bind_apply, M.get_apply, ha, h.sramOwner_eq, h.chipOwner_eq] at hp ⊢
  suffices hl : Looks s t _ from hl pl hp
  split
  · exact Looks.when (trapXlate_ne _ _) fun _ => Looks.when trapPriv_ne fun _ => Looks.pure _
  · exact Looks.when (trapXlate_ne _ _) fun _ => Looks.pure _
  · exact Looks.when (trapXlate_ne _ _) fun _ => Looks.pure _
  · exact Looks.when (trapXlate_ne _ _) fun _ => Looks.pure _
  · exact Looks.trapXlate _ _ _

theorem resolveSeq_looks (h : Touched w.world s t) (a : W64) : Looks s t (resolveSeq w a) := by
  intro va hp
  unfold resolveSeq at hp ⊢
  simp only [M.bind_apply, M.get_apply, h.coreWorld_eq, h.seqBase_eq, h.seqSize_eq] at hp ⊢
  suffices hl : Looks s t _ from hl va hp
  refine Looks.when (trapAt_ne _ _) fun _ => Looks.when (trapAt_ne _ _) fun _ => ?_
  exact Looks.when (trapXlate_ne _ _) fun _ => Looks.when (trapXlate_ne _ _) fun _ => Looks.pure _

theorem Stands.alike {a : W64} {k : Kind} {pl : Place} (h : Stands s w a k pl) (e : Alike w s t) : Stands t w a k pl := by
  rcases h with ⟨h1, h2, h3⟩ | ⟨va, x, loc, h1, h2, h3, h4, h5⟩
  · exact .inl ⟨h1, h2, locate_window e.touched a k h1 pl h3⟩
  · refine .inr ⟨va, x, loc, ?_, e.tlb ▸ h2, h3, by rw [e.touched.wpaToDpa_eq]; exact h4, h5⟩
    exact h1.imp id fun q => ⟨q.1, resolveSeq_looks e.touched a va q.2⟩

theorem Granted.alike {a : W64} {k : Kind} {cap : Cap} (h : Granted s w a k cap) (e : Alike w s t) : Granted t w a k cap := by
  obtain ⟨h1, h2, h3, h4, h5⟩ := h
  refine ⟨by rwa [e.touched.capOf_eq], h2, by rwa [e.touched.chain_eq], by rwa [e.touched.rulesGrant_eq], fun x hx h6 h7 h8 => ?_⟩
  rcases e.rules x hx with hx | hx
  · exact h5 x hx h6 h7 h8
  · rw [hx, h6, h7, h8]; exact h4

theorem Sound.alike {n line : Nat} (h : Sound s n line) (e : Alike w s t) : Sound t n line := by
  obtain ⟨h1, h2, h3, h4⟩ := h
  have hb : t.eccBad = s.eccBad := by rw [e.touched.device]
  exact ⟨by rwa [e.touched.keyDead_eq], by rwa [e.touched.world_eq], by rw [e.keys, e.touched.world_eq]; exact h3, hb ▸ h4⟩

theorem Alike.steady (e : Alike w s t) : Steady w s t := by
  rintro a k pl ⟨h1, ⟨cap, h2⟩, h3, h4⟩
  exact ⟨h1.alike e, ⟨cap, h2.alike e⟩, by rw [e.touched.fwAllows_eq]; exact h3, fun q => (h4 q).alike e⟩

theorem Alike.trans (h : Alike w s t) (k : Alike w t u) : Alike w s u := by
  refine ⟨h.touched.trans k.touched, k.tlb.trans h.tlb, k.keys.trans h.keys, k.mem.trans h.mem, fun line => (k.l1 line).trans (h.l1 line), fun x hx => ?_⟩
  rcases k.rules x hx with hx | hx
  · exact h.rules x hx
  · rw [h.touched.rulesGrant_eq] at hx; exact .inr hx

theorem Stands.locate {a : W64} {k : Kind} {pl : Place} (h : Stands s w a k pl) : Machine.locate w a k s = .ok pl s := by
  rcases h with ⟨-, -, h⟩ | ⟨va, x, loc, h1, h2, h3, h4, rfl⟩
  · exact h
  · have ht : translate w va a s = .ok x s := by
      unfold translate
      simp only [M.bind_apply, M.get_apply, h2]
      rfl
    have hp : placeOfVa w va k a s = .ok ⟨if isHbm loc then .hbm else .host, loc, w.world, x.nol1, x.pin⟩ s := by
      unfold placeOfVa
      simp only [M.bind_apply, ht, h3, if_true, M.get_apply, h4, M.pure_apply]
    unfold Machine.locate
    simp only [M.bind_apply, M.get_apply]
    rcases h1 with ⟨h1, rfl⟩ | ⟨h1, h5⟩
    · have h6 : fld a 61 3 = 0 := by simp only [fld] at h1 ⊢; omega
      have h7 : fld a 56 5 = 0 := by simp only [fld] at h1 ⊢; omega
      simp only [h6, h7]
      exact hp
    · simp only [h1, M.bind_apply, h5]
      exact hp

/-! ## Checks and reads -/

theorem mem_fillRule {l x : RuleLine} {lines : List RuleLine} (h : x ∈ fillRule l lines) : x = l ∨ x ∈ lines := by
  unfold fillRule at h
  dsimp only at h
  split at h
  · exact List.mem_cons.mp h
  · exact (List.mem_cons.mp h).imp id List.mem_of_mem_filter

theorem ruleGrant_passes {n : Nat} {a : W64} {k : Kind} (h1 : (s.chain w.cix).revoked = false)
    (h2 : permits (s.rulesGrant w.world n w.cix) k = true)
    (h3 : ∀ x ∈ Sparse.get [] s.ruleCaches (clusterOf w.core), x.world = w.world → x.ruleset = n → x.cix = w.cix → permits x.perms k = true) :
    ∃ g t, ruleGrant w n a s = .ok g t ∧ permits g k = true ∧ Alike w s t := by
  unfold ruleGrant
  simp only [M.bind_apply, M.get_apply]
  cases hf : (Sparse.get [] s.ruleCaches (clusterOf w.core)).find? fun l => l.world = w.world && l.ruleset = n && l.cix = w.cix with
  | some l =>
    have hl := List.find?_some hf
    simp only [Bool.and_eq_true, decide_eq_true_eq] at hl
    refine ⟨_, _, rfl, h3 l (List.mem_of_find?_eq_some hf) hl.1.1 hl.1.2 hl.2, Touched.caches rfl, rfl, rfl, rfl, fun _ => rfl, fun x hx => .inl ?_⟩
    simp only [Sparse.get_put] at hx
    rcases List.mem_cons.mp hx with rfl | hx
    · exact List.mem_of_find?_eq_some hf
    · exact List.mem_of_mem_filter hx
  | none =>
    simp only [h1, Bool.false_eq_true, ↓reduceIte]
    refine ⟨_, _, rfl, h2, ?_, ?_, rfl, rfl, fun line => ?_, fun x hx => ?_⟩
    · exact (Touched.modCore (f := (·.tally 0x0C w.slot 1)) rfl).trans (Touched.caches rfl)
    · show ((s.modCore w.core (·.tally 0x0C w.slot 1)).core w.core).tlb = _
      rw [State.modCore_core]; rfl
    · show ((s.modCore w.core (·.tally 0x0C w.slot 1)).core w.core).l1Line line = _
      rw [State.modCore_core]; rfl
    · have hx' : x ∈ fillRule ⟨w.world, n, w.cix, s.rulesGrant w.world n w.cix⟩ (Sparse.get [] s.ruleCaches (clusterOf w.core)) := by
        simpa [Sparse.get_put] using hx
      exact (mem_fillRule hx').elim (fun e => .inr (by rw [e])) .inl

theorem authorize_passes {a : W64} {k : Kind} {cap : Cap} (h : Granted s w a k cap) :
    ∃ t, authorize w a [k] s = .ok cap t ∧ Alike w s t := by
  obtain ⟨h1, h2, h3, h4, h5⟩ := h
  unfold authorize
  simp only [M.bind_apply, M.get_apply, h1, M.modify_apply, List.all_cons, List.all_nil, h2, Bool.and_true, Bool.not_true, Bool.false_eq_true,
    ↓reduceIte]
  generalize hu : s.modCore w.core _ = v
  have e : Alike w s v := by
    subst hu
    refine ⟨Touched.modCore ?_, ?_, rfl, rfl, fun line => ?_, fun _ q => .inl q⟩
    · split <;> rfl
    · rw [State.modCore_core]; split <;> rfl
    · rw [State.modCore_core]; split <;> rfl
  obtain ⟨g, t, hg, hp, ht⟩ := ruleGrant_passes (w := w) (s := v) (n := cap.ruleset) (a := a) (k := k)
    (by rwa [e.touched.chain_eq]) (by rwa [e.touched.rulesGrant_eq]) fun x hx q1 q2 q3 => by
      rcases e.rules x hx with hx | hx
      · exact h5 x hx q1 q2 q3
      · rw [hx, q1, q2, q3]; exact h4
  simp only [hg, hp, Bool.not_true, Bool.false_eq_true, ↓reduceIte]
  exact ⟨t, rfl, e.trans ht⟩

/-- A piece that passes: its checks answer where it stands, and change nothing that another access's checks would find different. -/
theorem checkPiece_passes {a : W64} {z : Nat} {k : Kind} {pl : Place} (hz : a.toNat % z = 0) (h : Passes s w a k pl) :
    ∃ cap t, checkPiece w a z k s = .ok (pl, cap) t ∧ Alike w s t := by
  obtain ⟨h1, ⟨cap, h2⟩, h3, -⟩ := h
  obtain ⟨t, ht, e⟩ := authorize_passes h2
  have hc : inCtrlWindow a = false := by
    refine decide_eq_false fun q => ?_
    rcases h1 with ⟨-, h, -⟩ | ⟨va, x, loc, ⟨h, -⟩ | ⟨h, -⟩, -⟩ <;> simp only [fld] at q h <;> omega
  refine ⟨cap, t, ?_, e⟩
  unfold checkPiece firewall
  simp only [ne_eq, hz, not_true_eq_false, if_false, hc, Bool.false_eq_true, M.bind_apply, h1.locate, ht, M.get_apply, List.all_cons,
    List.all_nil, e.touched.fwAllows_eq, h3, Bool.and_true, Bool.not_true, M.pure_apply]

/-- A line that is sound is brought in. -/
theorem lineIn_passes {line : Nat} (pin : Option Nat) (ea : W64) (hb : isHbm (line * 64) = true) (h : Sound s w.world line) :
    ∃ t, lineIn w line pin ea s = .ok () t ∧ Alike w s t := by
  have ht := State.lineAccess_touched w s pin hb
  obtain ⟨h1, h2, h3, h4⟩ := h
  unfold lineIn lineInAt
  simp only [M.bind_apply, M.get_apply]
  suffices hs : ∃ t, s.lineAccess w line pin = (t, none) ∧ (t.core w.core).tlb = (s.core w.core).tlb ∧
      (t.core w.core).l1 = (s.core w.core).l1 ∧ t.lineKeys = s.lineKeys ∧ t.mem = s.mem ∧ t.ruleCaches = s.ruleCaches by
    obtain ⟨t, e, h5, h9, h6, h7, h8⟩ := hs
    rw [e] at ht ⊢
    exact ⟨t, rfl, ht, h5, h6, h7, fun n => by rw [Core.l1Line, h9]; rfl, fun x hx => .inl (h8 ▸ hx)⟩
  unfold State.lineAccess
  simp only [h1, Bool.false_eq_true, ↓reduceIte]
  split
  · refine ⟨_, rfl, ?_, ?_, rfl, rfl, rfl⟩ <;> (rw [State.modCore_core]; rfl)
  · have hv : ∀ x : State, x.eccBad = s.eccBad → x.worlds = s.worlds → x.lineKeys = s.lineKeys → x.lineVerifies w.world line = true := by
      intro x e1 e2 e3
      simp only [State.lineVerifies, State.world, e1, e2, e3]
      simp only [State.world] at h2 h3
      simp [h2, h3, h4]
    have hc : ∀ x : State, x.worlds = s.worlds → x.lineKeys = s.lineKeys → x.lineCollide w.world line = x := by
      intro x e1 e2
      unfold State.lineCollide
      exact if_pos (by simp only [State.world, e1, e2]; simpa only [State.world] using h3)
    generalize hx : (s.mscTouch line).modCore w.core _ = x
    have e4 : (x.core w.core).tlb = (s.core w.core).tlb ∧ (x.core w.core).l1 = (s.core w.core).l1 := by
      subst hx
      rw [State.modCore_core]; exact ⟨rfl, rfl⟩
    rw [if_pos (hv x (by subst hx; rfl) (by subst hx; rfl) (by subst hx; rfl)), hc x (by subst hx; rfl) (by subst hx; rfl), State.l2Fill_caches]
    exact ⟨_, rfl, e4.1, e4.2, by subst hx; rfl, by subst hx; rfl, by subst hx; rfl⟩

/-- A line touched is found as before, and so is every other. -/
theorem Core.l1Line_touch {c : Core} {line : Nat} {l : L1Line} (h : c.l1Line line = some l) (n : Nat) : (c.l1Touch l).l1Line n = c.l1Line n := by
  have hl : l.line = line := by simpa using List.find?_some h
  unfold Core.l1Touch Core.l1Line
  dsimp only
  rw [List.find?_cons]
  by_cases hn : l.line = n
  · rw [decide_eq_true hn]
    rw [← hn, hl]
    exact h.symm
  · rw [decide_eq_false hn]
    dsimp only
    rw [List.find?_filter]
    congr 1
    funext x
    by_cases hx : x.line = n
    · have : x ≠ l := fun e => hn (e ▸ hx)
      simp [hx, this]
    · simp [hx]

theorem fetchLine_passes {line : Nat} (pl : Place) (na : Bool) (ea : W64) (hb : isHbm (line * 64) = true) (h : Sound s w.world line) :
    ∃ t, fetchLine w line pl na ea s = .ok () t ∧ Alike w s t := by
  unfold fetchLine
  simp only [M.bind_apply, M.get_apply]
  cases hl : (s.core w.core).l1Line line with
  | some l =>
    refine ⟨_, rfl, Touched.modCore ?_, ?_, rfl, rfl, fun n => ?_, fun _ q => .inl q⟩
    · split <;> rfl
    · rw [State.modCore_core]; split <;> rfl
    · rw [State.modCore_core]
      split
      · rfl
      · exact Core.l1Line_touch hl n
  | none =>
    have e : Alike w s (s.modCore w.core (·.tally 0x06 w.slot 1)) :=
      ⟨Touched.modCore rfl, by rw [State.modCore_core]; rfl, rfl, rfl, fun n => by rw [State.modCore_core]; rfl, fun _ q => .inl q⟩
    obtain ⟨t, ht, e2⟩ := lineIn_passes (w := w) pl.pin ea hb (h.alike e)
    simp only [M.bind_apply, M.modify_apply, ht]
    refine ⟨_, rfl, (e.trans e2).trans ⟨Touched.modCore ?_, ?_, rfl, rfl, fun n => ?_, fun _ q => .inl q⟩⟩
    · split <;> rfl
    · rw [State.modCore_core]; split <;> rfl
    · rw [State.modCore_core]; split <;> rfl

/-- Loads take the same bytes. -/
theorem Alike.loadByte_eq (e : Alike w s t) : t.loadByte w.core = s.loadByte w.core := by
  funext loc
  have hc := e.touched.core w.core
  have hb : ∀ x, t.byte x = s.byte x := fun x => by simp only [State.byte, e.mem]
  have hf : (t.core w.core).forwarded loc = (s.core w.core).forwarded loc := by rw [hc]; rfl
  have hs : t.spadByte w.core loc = s.spadByte w.core loc := by
    have : (t.core w.core).spillSeq = (s.core w.core).spillSeq := by rw [hc]
    simp only [State.spadByte, this, e.mem, hb]
  have hw : ∀ c off, t.ctrlWord c off = s.ctrlWord c off := fun c off => by
    have h := e.touched.core c
    unfold State.ctrlWord
    dsimp only
    have h1 : (t.core c).seqBase = (s.core c).seqBase := by rw [h]
    have h2 : (t.core c).seqSize = (s.core c).seqSize := by rw [h]
    have h3 : (t.core c).qdef = (s.core c).qdef := by rw [h]
    have h4 : (t.core c).pipecfg = (s.core c).pipecfg := by rw [h]
    have h5 : (t.core c).msgs = (s.core c).msgs := by rw [h]
    rw [h1, h2, h3, h4, h5]
  have hct : t.ctrlByte loc = s.ctrlByte loc := by
    unfold State.ctrlByte
    simp only [hb, hw]
  simp only [State.loadByte, hf, e.l1, hb, hs, hct]

theorem Passes.honest {a : W64} {k : Kind} {pl : Place} (h : Passes s w a k pl) : pl.honest :=
  locate_gives w a k s pl s h.1.locate

/-- A read at a place that passes. -/
theorem loadPlace_passes {a : W64} {k : Kind} {pl : Place} (n : Nat) (m : Mod) (ea : W64) (hm : m.order = 0 ∨ (s.core w.core).sb = [])
    (h : Passes s w a k pl) : ∃ t, loadPlace w pl n m ea s = .ok ((List.range n).map fun i => s.loadByte w.core (pl.loc + i)) t ∧ Alike w s t := by
  have hw : (if m.order.getLsbD 0 && decide (m.scope.toNat ≥ 1) then waitSiblings w pl.loc n else pure ()) s = .ok () s := by
    unfold waitSiblings
    rcases hm with hm | hm
    · simp [hm]
    · split
      · simp [M.bind_apply, hm]
      · rfl
  unfold loadPlace
  by_cases hs : pl.space = .hbm
  · obtain ⟨t, ht, e⟩ := fetchLine_passes (w := w) pl (m.spec.getLsbD 0) ea (isHbm_base (h.honest hs)) (h.2.2.2 hs)
    refine ⟨t, ?_, e⟩
    rw [← e.loadByte_eq]
    split at hw <;> simp_all [M.bind_apply]
  · refine ⟨s, ?_, Alike.refl w s⟩
    split at hw <;> simp_all [M.bind_apply]

theorem seenIn_alike {pieces : List (W64 × Nat)} (e : Alike w s t) (get : Nat → Byte)
    (h : ∀ p ∈ pieces, ∃ pl, Passes s w p.1 .read pl) : seenIn t w get pieces = seenIn s w get pieces := by
  unfold seenIn
  refine congrArg List.flatten (List.map_congr_left fun p hp => ?_)
  obtain ⟨pl, hpl⟩ := h p hp
  rw [hpl.1.locate, (hpl.1.alike e).locate]

/-- A span whose pieces pass is read whole (R99, R133): what loads see of it, and no access's checks would find anything different. -/
theorem readSpan_passes {ea : W64} {n z : Nat} {m : Mod} (hm : m.order = 0 ∨ (s.core w.core).sb = [])
    (h : AllPass s w z .read [(ea, n)]) :
    ∃ cs t, readSpan w ea n z m s = .ok (seen s w (s.loadByte w.core) ea n, cs) t ∧ Alike w s t := by
  have h' : ∀ p ∈ spanPieces ea n, p.1.toNat % z = 0 ∧ ∃ pl, Passes s w p.1 .read pl := h _ (List.mem_singleton.mpr rfl)
  unfold readSpan seen
  generalize spanPieces ea n = ps at h'
  clear h
  suffices hg : ∀ (acc : List Byte) (caps : List Cap), ∃ cs t, (ps.foldlM (fun (r : List Byte × List Cap) (p : W64 × Nat) => (do
      let (pl, cap) ← checkPiece w p.1 z .read
      let more ← loadPlace w pl p.2 m p.1
      return (r.1 ++ more, r.2 ++ [cap]) : M (List Byte × List Cap))) (acc, caps) : M _) s = .ok (acc ++ seenIn s w (s.loadByte w.core) ps, cs) t ∧ Alike w s t by
    simpa using hg [] []
  induction ps generalizing s with
  | nil => exact fun acc caps => ⟨caps, s, by simp [seenIn], Alike.refl w s⟩
  | cons p ps ih =>
    intro acc caps
    obtain ⟨hz, pl, hp⟩ := h' p List.mem_cons_self
    obtain ⟨cap, u, hu, eu⟩ := checkPiece_passes hz hp
    obtain ⟨v, hv, ev⟩ := loadPlace_passes (s := u) p.2 m p.1
      (hm.imp id fun q => by rw [eu.touched.sb_eq]; exact q) (eu.steady _ _ _ hp)
    have e := eu.trans ev
    obtain ⟨cs, t, ht, et⟩ := ih (s := v) (hm.imp id fun q => by rw [e.touched.sb_eq]; exact q)
      (fun q hq => (h' q (List.mem_cons_of_mem _ hq)).imp id fun ⟨x, hx⟩ => ⟨x, e.steady _ _ _ hx⟩)
      (acc ++ (List.range p.2).map fun i => s.loadByte w.core (pl.loc + i)) (caps ++ [cap])
    refine ⟨cs, t, ?_, e.trans et⟩
    rw [List.foldlM_cons]
    simp only [M.bind_apply, hu, hv, M.pure_apply]
    rw [eu.loadByte_eq, ht, e.loadByte_eq, seenIn_alike e _ fun q hq => (h' q (List.mem_cons_of_mem _ hq)).2]
    simp only [seenIn, List.flatMap_cons, hp.1.locate, List.append_assoc]

/-- A span that an engine reads at its targets. -/
theorem engineSpan_passes {ea : W64} {n : Nat} (h : AllPass s w 1 .read [(ea, n)]) :
    ∃ cs t, engineSpan w ea n s = .ok (seen s w s.byte ea n, cs) t ∧ Alike w s t := by
  have h' : ∀ p ∈ spanPieces ea n, p.1.toNat % 1 = 0 ∧ ∃ pl, Passes s w p.1 .read pl := h _ (List.mem_singleton.mpr rfl)
  unfold engineSpan seen
  generalize spanPieces ea n = ps at h'
  clear h
  suffices hg : ∀ (acc : List Byte) (caps : List Cap), ∃ cs t, (ps.foldlM (fun (r : List Byte × List Cap) (p : W64 × Nat) => (do
      let (pl, cap) ← checkPiece w p.1 1 .read
      if pl.space = .hbm then lineIn w (pl.loc / 64) pl.pin p.1
      return (r.1 ++ (← get).bytes pl.loc p.2, r.2 ++ [cap]) : M (List Byte × List Cap))) (acc, caps) : M _) s = .ok (acc ++ seenIn s w s.byte ps, cs) t ∧ Alike w s t by
    simpa using hg [] []
  induction ps generalizing s with
  | nil => exact fun acc caps => ⟨caps, s, by simp [seenIn], Alike.refl w s⟩
  | cons p ps ih =>
    intro acc caps
    obtain ⟨hz, pl, hp⟩ := h' p List.mem_cons_self
    obtain ⟨cap, u, hu, eu⟩ := checkPiece_passes hz hp
    have hv : ∃ v, (if pl.space = .hbm then lineIn w (pl.loc / 64) pl.pin p.1 else pure ()) u = .ok () v ∧ Alike w u v := by
      split
      · next hs => exact lineIn_passes pl.pin p.1 (isHbm_base (hp.honest hs)) ((eu.steady _ _ _ hp).2.2.2 hs)
      · exact ⟨u, rfl, Alike.refl w u⟩
    obtain ⟨v, hv, ev⟩ := hv
    have e := eu.trans ev
    have hb : v.byte = s.byte := by funext x; simp only [State.byte, e.mem]
    obtain ⟨cs, t, ht, et⟩ := ih (s := v)
      (fun q hq => (h' q (List.mem_cons_of_mem _ hq)).imp id fun ⟨x, hx⟩ => ⟨x, e.steady _ _ _ hx⟩)
      (acc ++ v.bytes pl.loc p.2) (caps ++ [cap])
    refine ⟨cs, t, ?_, e.trans et⟩
    have hbs : ∀ (loc k : Nat), v.bytes loc k = (List.range k).map fun i => s.byte (loc + i) := by
      intro loc k
      induction k generalizing loc with
      | zero => rfl
      | succ k ih =>
        rw [State.bytes, ih, List.range_succ_eq_map, List.map_cons, List.map_map, hb]
        simp only [Nat.add_zero]
        congr 2
        funext i
        simp only [Function.comp, Nat.succ_eq_add_one]
        congr 1
        omega
    rw [List.foldlM_cons]
    have : (do
      let (pl, cap) ← checkPiece w p.1 1 .read
      if pl.space = .hbm then lineIn w (pl.loc / 64) pl.pin p.1
      return (acc ++ (← get).bytes pl.loc p.2, caps ++ [cap]) : M (List Byte × List Cap)) s = .ok (acc ++ v.bytes pl.loc p.2, caps ++ [cap]) v := by
      simp only [M.bind_apply, hu]
      split at hv
      · next hs => simp only [hs, if_true, M.bind_apply, hv, M.get_apply, M.pure_apply]
      · next hs =>
        cases hv
        simp only [hs, if_false, M.bind_apply, M.get_apply, M.pure_apply]
    rw [M.bind_apply, this]
    dsimp only
    rw [ht, hb, seenIn_alike e _ fun q hq => (h' q (List.mem_cons_of_mem _ hq)).2]
    simp only [seenIn, List.flatMap_cons, hp.1.locate, List.append_assoc, hbs]

/-- The pieces of a row that pass as writes are all found, and nothing has been stored. -/
theorem writePieces_passes {spans : List (W64 × List Byte)} {z : Nat} (h : AllPass s w z .write (spans.map fun q => (q.1, q.2.length))) :
    ∃ ps t, writePieces w spans z s = .ok ps t ∧ Alike w s t ∧ ∀ p ∈ ps, Passes t w p.1 .write p.2.1 := by
  unfold writePieces
  suffices hg : ∀ acc : List (W64 × Place × Cap × List Byte), (∀ p ∈ acc, Passes s w p.1 .write p.2.1) → ∃ ps t,
      (spans.foldlM (fun (acc : List (W64 × Place × Cap × List Byte)) (q : W64 × List Byte) => (do
        let (out, _) ← (spanPieces q.1 q.2.length).foldlM (fun (r : List (W64 × Place × Cap × List Byte) × List Byte) (p : W64 × Nat) => (do
          let (pl, cap) ← checkPiece w p.1 z .write
          return (r.1 ++ [(p.1, pl, cap, r.2.take p.2)], r.2.drop p.2) : M _)) (([] : List (W64 × Place × Cap × List Byte)), q.2)
        return acc ++ out : M _)) acc : M _) s = .ok ps t ∧ Alike w s t ∧ ∀ p ∈ ps, Passes t w p.1 .write p.2.1 from hg [] nofun
  induction spans generalizing s with
  | nil => exact fun acc ha => ⟨acc, s, rfl, Alike.refl w s, ha⟩
  | cons q spans ih =>
    intro acc ha
    have h' : ∀ p ∈ spanPieces q.1 q.2.length, p.1.toNat % z = 0 ∧ ∃ pl, Passes s w p.1 .write pl :=
      h (q.1, q.2.length) List.mem_cons_self
    have hin : ∀ (pieces : List (W64 × Nat)) (s : State) (r : List (W64 × Place × Cap × List Byte) × List Byte),
        (∀ p ∈ pieces, p.1.toNat % z = 0 ∧ ∃ pl, Passes s w p.1 .write pl) → (∀ p ∈ r.1, Passes s w p.1 .write p.2.1) → ∃ r' t,
        (pieces.foldlM (fun (r : List (W64 × Place × Cap × List Byte) × List Byte) (p : W64 × Nat) => (do
          let (pl, cap) ← checkPiece w p.1 z .write
          return (r.1 ++ [(p.1, pl, cap, r.2.take p.2)], r.2.drop p.2) : M _)) r : M _) s = .ok r' t ∧ Alike w s t ∧ ∀ p ∈ r'.1, Passes t w p.1 .write p.2.1 := by
      intro pieces
      induction pieces with
      | nil => exact fun s r _ hr => ⟨r, s, rfl, Alike.refl w s, hr⟩
      | cons p pieces ihp =>
        intro s r hp hr
        obtain ⟨hz, pl, hpl⟩ := hp p List.mem_cons_self
        obtain ⟨cap, u, hu, eu⟩ := checkPiece_passes hz hpl
        obtain ⟨r', t, ht, et, hr'⟩ := ihp u (r.1 ++ [(p.1, pl, cap, r.2.take p.2)], r.2.drop p.2)
          (fun x hx => (hp x (List.mem_cons_of_mem _ hx)).imp id fun ⟨y, hy⟩ => ⟨y, eu.steady _ _ _ hy⟩) fun x hx => by
            rcases List.mem_append.mp hx with hx | hx
            · exact eu.steady _ _ _ (hr x hx)
            · rw [List.mem_singleton.mp hx]; exact eu.steady _ _ _ hpl
        refine ⟨r', t, ?_, eu.trans et, hr'⟩
        rw [List.foldlM_cons]
        simp only [M.bind_apply, hu, M.pure_apply]
        exact ht
    obtain ⟨r, u, hu, eu, hr⟩ := hin _ s ([], q.2) h' nofun
    obtain ⟨ps, t, ht, et, hps⟩ := ih (s := u)
      (fun x hx y hy => (h x (List.mem_cons_of_mem _ hx) y hy).imp id fun ⟨z, hz⟩ => ⟨z, eu.steady _ _ _ hz⟩) (acc ++ r.1) fun x hx => by
        rcases List.mem_append.mp hx with hx | hx
        · exact eu.steady _ _ _ (ha x hx)
        · exact hr x hx
    refine ⟨ps, t, ?_, eu.trans et, hps⟩
    rw [List.foldlM_cons]
    simp only [M.bind_apply, hu, M.pure_apply]
    exact ht

end Sys2Proof.Machine
end

