-- ==== Sys2Proof/Tests/Slice0.lean ====
section
/-! SUPPORT. Tests on small states: words of the spec decoded, ill-formed terms refused, worked examples of the spec, and for every statement
with hypotheses a state and operands that meet them, clause by clause. -/

namespace Sys2Proof.Tests
open Sys2Proof Sys2Proof.Machine Sys2Proof.Claims

section
set_option Elab.async false

/-! ## Small states -/

/-- Core 0 of world 2, a task in slot 0 about to run an instruction of one word; capabilities for memory and for the windows. -/
def demo : State :=
  { (State.reset.withWords []).modWorld 2 fun w => { w with caps := [⟨0, 0, 2 ^ 56, 0, 0xF, 3⟩, ⟨1, 6 * 2 ^ 61, 2 ^ 61, 0, 0xF, 5⟩] } with
    cur := ⟨0, 0, 2, none⟩, schedule := [] }
/-- A state with values in the acting thread's registers. -/
def withRegs (s : State) (rs : List (Reg × W64)) : State := s.modMe fun sl => rs.foldl (fun x q => x.setReg q.1 q.2) sl
/-- The same with values in its registers. -/
def demoRegs (rs : List (Reg × W64)) : State := withRegs demo rs
/-- The acting thread moved to another slot of its core. -/
def inSlot (s : State) (n : Nat) : State := ({ s with cur := ⟨0, n, 2, none⟩ } : State).modMe fun _ => { s.me with uid := 1000 + n }
/-- Addresses in the scratchpad, the cluster memory and the control window. -/
def spad (off : Nat) : W64 := w64 (6 * 2 ^ 61 + off)
def clusA (off : Nat) : W64 := w64 (6 * 2 ^ 61 + 1 * 2 ^ 58 + off)
def ctrlA (off : Nat) : W64 := w64 (6 * 2 ^ 61 + 3 * 2 ^ 58 + off)
/-- Words of memory. -/
def wordsIn (s : State) (loc : Nat) (ws : List W64) : State := s.setBytes loc (ws.flatMap fun v => natToLe 8 v.toNat)

/-! ## What a computation comes to -/

/-- It succeeds, and the rest holds of its value and its state. -/
def okThen {α : Type} (r : EStateM.Result Stop State α) (f : α → State → Bool) : Bool :=
  match r with
  | .ok a t => f a t
  | .error _ _ => false
/-- It traps, and the rest holds. -/
def trapThen {α : Type} (r : EStateM.Result Stop State α) (f : TrapInfo → State → Bool) : Bool :=
  match r with
  | .error (.trap x) t => f x t
  | _ => false
/-- It stops, and the rest holds. -/
def errThen {α : Type} (r : EStateM.Result Stop State α) (f : Stop → State → Bool) : Bool :=
  match r with
  | .error e t => f e t
  | .ok _ _ => false
def someThen {α : Type} (r : Option α) (f : α → Bool) : Bool :=
  match r with
  | some a => f a
  | none => false
def consThen {α : Type} (r : List α) (f : α → List α → Bool) : Bool :=
  match r with
  | a :: l => f a l
  | [] => false
def nextThen (r : Host.Outcome State Fault Refusal) (f : State → Bool) : Bool :=
  match r with
  | .next t => f t
  | _ => false
/-- Rows are made one after another, and the rest holds. -/
def rowsThen (body : Nat → M (Option TrapInfo)) (rows : List Nat) (s : State) (f : State → Bool) : Bool :=
  match rows with
  | [] => f s
  | r :: rest =>
    match body r s with
    | .ok none u => rowsThen body rest u f
    | _ => false
def rangesThen (core : Nat) (c : Copy) (s : State) (f : List Cap → State → Bool) : Bool :=
  okThen (checkParts (c.who core) c .read s) fun rs u => okThen (checkParts (c.who core) c .write u) fun ws t => f (rs ++ ws) t
def rangesFailThen (core : Nat) (c : Copy) (s : State) (f : TrapInfo → State → Bool) : Bool :=
  match checkParts (c.who core) c .read s with
  | .error (.trap ti) t => f ti t
  | .ok _ v => trapThen (checkParts (c.who core) c .write v) f
  | _ => false
def relThen (s : State) (ea : W64) (m : Mod) (f : Place → Cap → State → Bool) : Bool :=
  okThen (releaseOthers m s.issue) fun _ u => okThen (syncPlace s.who ea .atomic u) fun r v =>
    f r.1 r.2 (((v.performWord s.cur.core s.cur.slot r.1.loc).lapse r.1.loc).landOwn v.me.uid r.1.loc)
def spawnThen (s : State) (a : Reg) (f : State → Vector W64 8 → List Cap → Bool) : Bool :=
  decide (s.me.spawning = none) && decide (s.me.accown = 0) && decide (s.me.plown = 0) && decide ((s.src a).toNat % 64 = 0) &&
  okThen (readMine (s.src a) 64 8 Mod.none s.issue) fun r u => let w := u.acceptWords s.myWorld (packetWords r.1)
    decide (malformed w = none) && decide (fld w[1] 0 16 = fld s.me.chain 0 16) && f u w r.2
def bankThen (s : State) (ea : W64) (kind : Kind) (m : Mod) (f : Place → Cap → State → Bool) : Bool :=
  okThen (syncPlace s.who ea kind s.issue) fun r u => okThen (releaseAt m.order m.scope u) fun _ v =>
    f r.1 r.2 (v.performWord s.cur.core s.cur.slot r.1.loc)
def barThen (s u : State) (ea : W64) (f : Place → Cap → State → Bool) : Bool :=
  okThen (barPlace s.who ea u) fun r v => okThen (ownFirst s.who r.1.loc v) fun _ t => f r.1 r.2 t
def readThen (w : Who) (pl : Place) (ea : W64) (s : State) (f : State → Bool) : Bool :=
  if pl.space = .hbm then okThen (lineIn w (pl.loc / 64) pl.pin ea s) fun _ t => f t else f s
def fetchThen (pc : W64) (n : Nat) (ws : List H16) (s : State) (f : State → Bool) : Bool :=
  match ws with
  | [] => f s
  | w :: rest => okThen (fetch16 (pc + w64 (2 * n)) s) fun v u => decide (v = w.toNat) && fetchThen pc (n + 1) rest u f

/-! ## Accesses that pass (R99) -/

def grantedThen (s : State) (w : Who) (a : W64) (k : Kind) (f : Cap → Bool) : Bool :=
  match s.capOf w.world a with
  | some cap => permits cap.perms k && !(s.chain w.cix).revoked && permits (s.rulesGrant w.world cap.ruleset w.cix) k &&
    ((Sparse.get [] s.ruleCaches (clusterOf w.core)).all fun x =>
      !(decide (x.world = w.world) && decide (x.ruleset = cap.ruleset) && decide (x.cix = w.cix)) || permits x.perms k) && f cap
  | none => false
def placed (s : State) (w : Who) (k : Kind) (pl : Place) : Bool :=
  s.fwAllows w.world pl.owner k && (!decide (pl.space = .hbm) ||
    (!s.keyDead w.world && decide ((s.world w.world).memKey ≠ 0) &&
      decide (Sparse.get 0 s.lineKeys (pl.loc / 64) = (s.world w.world).memKey) && decide (pl.loc / 64 ∉ s.eccBad)))
def passes (s : State) (w : Who) (a : W64) (k : Kind) : Bool :=
  grantedThen s w a k (fun _ => true) &&
  if fld a 61 3 = 6 ∧ fld a 58 3 ≤ 2 then
    match locate w a k s with
    | .ok pl _ => placed s w k pl
    | .error _ _ => false
  else decide (fld a 56 8 = 0) &&
    match (s.core w.core).tlb.find? (·.covers w.world (fld a 0 56)) with
    | some t => t.allows k &&
      match s.wpaToDpa w.world (t.wpaOf (fld a 0 56)) with
      | some loc => placed s w k ⟨if isHbm loc then .hbm else .host, loc, w.world, t.nol1, t.pin⟩
      | none => false
    | none => false
def allPass (s : State) (w : Who) (z : Nat) (k : Kind) (spans : List (W64 × Nat)) : Bool :=
  spans.all fun q => (spanPieces q.1 q.2).all fun p => decide (p.1.toNat % z = 0) && passes s w p.1 k
def noneReserved (s : State) : Bool := s.banks.all fun e => decide (e.2.holder = none) && decide (e.2.queue = [])
def layoutThen (s : State) (h : W64) (f : Layout → Bool) : Bool :=
  let bs := loaded s h 64
  decide (h.toNat % 64 = 0) && allPass s s.who 8 .read [(h, 64)] && layoutOk bs (layoutOf h bs) && f (layoutOf h bs)
def headerThen (s : State) (a : W64) (f : SeqHeader → Bool) : Bool :=
  let bs := loaded s a 64
  decide (a.toNat % 64 = 0) && decide (fld a 61 3 = 0 ∨ fld a 61 3 = 5) && allPass s s.who 8 .read [(a, 64)] &&
    seqHeaderOk bs (seqHeaderOf a bs) && f (seqHeaderOf a bs)
def descThen (s : State) (a : W64) (f : CopyDesc → Bool) : Bool :=
  let bs := loaded s a 32
  decide (a.toNat % 32 = 0) && decide (fld a 58 6 = 0x30) && allPass s s.who 8 .read [(a, 32)] &&
    f ⟨wordAt bs 0, wordAt bs 1, wordAt bs 2, wordAt bs 3⟩
def scalesPass (s : State) (l : Layout) (rows : List Nat) : Bool := !l.rscl || (!l.trans && decide (s.me.scl ≠ 0) &&
  rows.all fun r => allPass s s.who 4 .read [(s.me.scl + w64 (4 * (l.rsoff + r)), 4)])

theorem granted_of {s : State} {w : Who} {a : W64} {k : Kind} {f : Cap → Bool} (h : grantedThen s w a k f = true) :
    ∃ cap, Granted s w a k cap ∧ f cap = true := by
  unfold grantedThen at h
  split at h
  · next cap e =>
    simp only [Bool.and_eq_true, Bool.not_eq_true', List.all_eq_true, Bool.or_eq_true, Bool.and_eq_false_iff, decide_eq_false_iff_not] at h
    obtain ⟨⟨⟨⟨h1, h2⟩, h3⟩, h4⟩, h5⟩ := h
    refine ⟨cap, ⟨e, h1, h2, h3, fun x hx e1 e2 e3 => ?_⟩, h5⟩
    exact (h4 x hx).resolve_left fun h => h.elim (fun h => h.elim (· e1) (· e2)) (· e3)
  · cases h
theorem placed_of {s : State} {w : Who} {k : Kind} {pl : Place} (h : placed s w k pl = true) :
    s.fwAllows w.world pl.owner k = true ∧ (pl.space = .hbm → Sound s w.world (pl.loc / 64)) := by
  simp only [placed, Bool.and_eq_true, Bool.or_eq_true, Bool.not_eq_true', decide_eq_true_eq, decide_eq_false_iff_not] at h
  exact ⟨h.1, fun e => h.2.elim (absurd e) fun ⟨⟨⟨a, b⟩, c⟩, d⟩ => ⟨a, b, c, d⟩⟩
/-- To find a place in a window changes nothing. -/
theorem locate_same {s t : State} {w : Who} {a : W64} {k : Kind} {pl : Place} (ha : fld a 61 3 = 6) (h : locate w a k s = .ok pl t) : t = s := by
  have hR : Carries fun s t : State => t = s := ⟨fun _ => rfl, fun h k => k.trans h⟩
  refine Does.ok (R := fun s t => t = s) (fun s => ?_) h
  unfold locate
  simp only [ha]
  refine Does.bind (R := fun s t => t = s) hR (Does.get hR) (fun s => ?_) s
  split
  · exact Does.when hR (fun _ => Does.trapXlate hR _ _ _) fun _ => Does.when hR (fun _ => Does.trapPriv hR) fun _ => Does.pure hR _
  · exact Does.when hR (fun _ => Does.trapXlate hR _ _ _) fun _ => Does.pure hR _
  · exact Does.when hR (fun _ => Does.trapXlate hR _ _ _) fun _ => Does.pure hR _
  · exact Does.when hR (fun _ => Does.trapXlate hR _ _ _) fun _ => Does.pure hR _
  · exact Does.trapXlate hR _ _ _
theorem passes_of {s : State} {w : Who} {a : W64} {k : Kind} (h : passes s w a k = true) : ∃ pl, Passes s w a k pl := by
  simp only [passes, Bool.and_eq_true] at h
  obtain ⟨g, h⟩ := h
  obtain ⟨cap, g, -⟩ := granted_of g
  split at h
  · next c =>
    split at h
    · next pl t e =>
      obtain rfl := locate_same c.1 e
      exact ⟨pl, .inl ⟨c.1, c.2, e⟩, ⟨cap, g⟩, placed_of h⟩
    · cases h
  · simp only [Bool.and_eq_true, decide_eq_true_eq] at h
    obtain ⟨c, h⟩ := h
    split at h
    · next t e =>
      simp only [Bool.and_eq_true] at h
      obtain ⟨h1, h⟩ := h
      split at h
      · next loc e2 => exact ⟨_, .inr ⟨_, t, loc, .inl ⟨c, rfl⟩, e, h1, e2, rfl⟩, ⟨cap, g⟩, placed_of h⟩
      · cases h
    · cases h
theorem allPass_of {s : State} {w : Who} {z : Nat} {k : Kind} {l : List (W64 × Nat)} (h : allPass s w z k l = true) : AllPass s w z k l := by
  simp only [allPass, List.all_eq_true, Bool.and_eq_true, decide_eq_true_eq] at h
  exact fun q hq p hp => ⟨(h q hq p hp).1, passes_of (h q hq p hp).2⟩

/-- The room of every log that a location is placed in. -/
def roomInLog (s : State) (ea : W64) : Bool := okThen (locate s.who ea .write s.issue) fun pl _ =>
  (s.issue.growLog s.myWorld (domainOfLoc pl.loc)).isSome
def acceptedThen (o : Offer) (f : State → Bool) : Bool :=
  match o with
  | .accepted t => f t
  | _ => false
def offerIs (o : Offer) (full : Bool) : Bool :=
  match o with
  | .accepted _ => false
  | .malformed => !full
  | .full => full

/-- The core's inbound queue and the queue ports of slot 0 (R102). -/
def ported (inn out : Bool) (inq : List W64) : State :=
  demo.modMyCore fun k => { k with pipecfg := (if inn then 1 else 0) + (if out then 2 else 0), inq := inq }
/-- The next core of the cluster in a world, with words waiting in its queue. -/
def nextCore (s : State) (w : Nat) (inq : List W64) : State := s.modCore 1 fun k => { k with world := w, inq := inq }
/-- HBM bytes, under the key of world 2. -/
def hbm (s : State) (loc : Nat) (bs : List Byte) : State :=
  { s.setBytes loc bs with lineKeys := (List.range ((bs.length + 63) / 64)).foldl (fun m i => Sparse.put m (loc / 64 + i) 1) s.lineKeys }
/-- Registers with addresses: s1 in the scratchpad, s2 in HBM, s4 the control window, s5 cluster memory. -/
def memRegs : State := hbm (demoRegs [(1, spad 0x100), (2, 0x210000), (3, 0xF123456789ABCDEF), (4, ctrlA 0x200), (5, clusA 0x20)]) 0x210000 [1, 2, 3]
/-- A store buffer that is full. -/
def fullBuffer (s : State) : State := s.modMyCore fun k => { k with sb := List.replicate 32 ⟨1, 0, [], 2, [], [], false⟩ }
/-- A request of slot 3 at a word. -/
def feOf (kind : FeKind) (reg : Reg) : FeReq := ⟨0, 3, kind, reg, 7, 0, 0, 2, 0⟩
/-- A buffered store of one word at a location. -/
def entryAt (loc : Nat) : SbEntry := ⟨0, demo.me.uid, [], 2, [], cellsAt loc (natToLe 8 77), false⟩
def buffered (s : State) (loc : Nat) : State := s.modMyCore fun k => { k with sb := [entryAt loc] }
/-- A layout record in the scratchpad, of 2 rows by 3 columns of a type at 0x210000, and coordinates. -/
def layoutRegs (ty : Nat) : State :=
  (hbm (wordsIn (demoRegs [(5, spad 0x1000), (6, 0), (7, spad 0x2000), (8, 32)]) (spadLoc 0 0x1000)
    [0x210000, w64 (2 + 3 * 2 ^ 32), 64, w64 ty, 0, 0, 0, 0]) 0x210000 (List.replicate 128 1)).modMe fun sl => { sl with
    accown := 0xFF, plown := 0xF
    tiles := #v[⟨mkShape ty 2 3 2 3, Vector.replicate 32 0, unitScales⟩, ⟨mkShape 8 1 2 1 2, Vector.replicate 32 0x100000000, unitScales⟩,
      Tile.empty, Tile.empty, Tile.empty, Tile.empty, Tile.empty, Tile.empty] }
/-- A sequence header of one page of FP8 E4M3 latents of 64 elements at 0x210000, and a descriptor. -/
def seqRegs : State :=
  (hbm (demoRegs [(5, 0x210000), (6, 0x10000)]) 0x210000 ((([w64 (1 * 2 ^ 32 + 16), w64 (2 * 2 ^ 12 + 64)] : List W64).flatMap
    (fun v => natToLe 8 v.toNat)) ++ List.replicate 1168 0)).modMe fun sl => { sl with
    plown := 0xF, tiles := sl.tiles.set 0 ⟨mkShape 2 1 64 1 64, Vector.replicate 32 0, unitScales⟩ }

/-- One, in a type of elements; a NaN in BF16. -/
def oneOf (ty : Nat) : Nat := [1, 1, 0x38, 0x3C, 0x38, 0x3F80, 0x3C00, 0x3F800000, 1, 1].getD ty 0
/-- A tile of 2 rows by 3 columns of one element. -/
def filled (ty e : Nat) : Tile :=
  ⟨mkShape ty 2 3 2 3, Vector.ofFn fun i => rowOf (tySize ty) (if i.val < 2 then List.replicate 3 (tyBits ty e) else []), unitScales⟩
/-- Tiles 0 and 1 of a type, tile 2 of another, tile 3 of one row, tile 4 of one column; the rest empty. -/
def tiled (ty tyd : Nat) : State := (demoRegs [(1, 0x3F800000)]).modMe fun sl => { sl with
  accown := 0xFF, plown := 0xF
  tiles := #v[filled ty (oneOf ty), filled ty (oneOf ty), filled tyd (oneOf tyd), ⟨mkShape ty 1 3 1 3, Vector.replicate 32 0, unitScales⟩,
    ⟨mkShape ty 2 1 2 1, Vector.replicate 32 0, unitScales⟩, Tile.empty, Tile.empty, Tile.empty] }
/-- The same with k.restart at row 1 of an instruction. -/
def restarted (s : State) (key : Nat) : State := s.modMe fun sl => { sl with restart := restartWord key 1 }
/-- The same with BF16 NaNs and k.fpc.NT. -/
def nanned : State := (tiled 5 5).modMe fun sl => { sl with fpc := 4, tiles := (sl.tiles.set 0 (filled 5 0x7FC0)).set 1 (filled 5 0x7FC0) }

/-- Items in channel 2 of the core: a row of the shape of tile 0, END, END. -/
def streaming (s : State) : State := s.modMyCore fun k => { k with
  chans := k.chans.set 2 [.data (s.me.tile 0).shape ((s.me.tile 0).row 0), .fin 1, .fin 0] }
/-- Core 1 in the world, with an item in its channel 1; a TSEND that waits at its row 1. -/
def sending : State := (tiled 7 9).modCore 1 fun k => { k with world := 2, chans := k.chans.set 1 [.fin 0] }
def sendWaiting : State := sending.modMe fun sl => { sl with st := .wait, waiting := .send 1 0 4, restart := restartWord sendKey 1 }
/-- Accumulator 2 and plane 1 of the slot: a BF16 plane of three rows and four columns. -/
def arrays (ty : Nat) : State := (tiled ty 9).modMyCore fun k => { k with
  planes := k.planes.set 1 { Plane.init with claimed := true, active := ⟨mkHalfShape (if ty ≤ 1 then ty else 5) 3 4, Vector.replicate 64 0x3F803F803F803F80, Vector.replicate 128 0x3F800000⟩ }
  accs := k.accs.set 2 { Acc.init with claimed := true, type := 0, rows := Vector.replicate 32 0 } }
/-- A tile of 2 rows by 16 columns of FP32. -/
def wide : State := (arrays 5).modMe fun sl => sl.setTile 0 ⟨mkShape 7 2 16 2 16, Vector.replicate 32 0, unitScales⟩

/-- The copy slot with a descriptor in the scratchpad, for slot 3: tag 7, from `src` to the scratchpad. -/
def descWords (op : Nat) (src size : W64) : List W64 := [w64 (op * 2 ^ 62 + 7 * 2 ^ 16), src, spad 0x800, size]
def chained (s : State) : State := s.modSlot 0 3 fun sl => { sl with chain := 1 }
def copySlot (op : Nat) (src size : W64) : State :=
  wordsIn (withRegs (inSlot (chained memRegs) 14) [(3, 3), (4, spad 0x100)]) (spadLoc 0 0x100) (descWords op src size)
def sizeOf2 (op : Nat) : W64 := if op = 0 then 100 else w64 (8 + 2 * 2 ^ 32 + 2 ^ 52)
/-- A copy of slot 3 in the engine of core 0. -/
def copyOf (op : Nat) (src : W64) (st : CopySt) : Copy :=
  { plainCopy ((chained demo).slot 0 3) 3 2 ⟨w64 (op * 2 ^ 62 + 7 * 2 ^ 16), src, spad 0x800, sizeOf2 op⟩ with accepted := true, st := st }
def copying (c : Copy) : State := (withRegs (inSlot (chained memRegs) 15) [(4, w64 (7 * 2 ^ 16 + 3))]).modMyCore fun k => { k with copies := [c] }
/-- A layout record of rows at an address, in the scratchpad; a CPYL of two of its rows. -/
def laidOut (s : State) : State := hbm (wordsIn s (spadLoc 0 0x1000) [0x210000, w64 (2 + 3 * 2 ^ 32), 64, 7, 0, 0, 0, 0]) 0x210000 (List.replicate 128 1)
def laidSlot (base handle : W64) : State :=
  wordsIn (wordsIn (withRegs (inSlot (chained (layoutRegs 7)) 14) [(3, 3), (4, spad 0x100)]) (spadLoc 0 0x100) (descWords 2 handle 2))
    (spadLoc 0 0x1000) [base]
def unlaid : Copy := plainCopy ((chained demo).slot 0 3) 3 2 ⟨w64 (2 * 2 ^ 62 + 7 * 2 ^ 16), spad 0x1000, spad 0x800, 2⟩ |> fun c => { c with st := .held }
/-- A message in slot 0's queue, a full overflow buffer. -/
def aMsg : Msg := ⟨w64 (1 * 2 ^ 13 + 2), 5, 6, 4⟩
def mailed (s : State) : State := s.modMyCore fun k => k.setInbox s.cur.slot [aMsg]
def overflowed (s : State) : State := s.modMyCore fun k => { k with overflow := List.replicate 32 aMsg }

/-- A request of slot 3 at a word, and what a bank holds. -/
def askOf (kind : TurnKind) : TurnReq := ⟨0, 3, 7, 2, kind, 5, 9, 4, 0, 4, 4, 0, none⟩
def heldBy (s : State) (slot uid loc : Nat) : State :=
  (s.setBank loc { Bank.init with holder := some ⟨0, slot, uid⟩ }).modSlot 0 slot fun sl => { sl with held := [loc] }
/-- The acting thread holds the word at s1. -/
def holding : State := heldBy memRegs 0 memRegs.me.uid (spadLoc 0 0x100)
/-- A barrier at s6, and a value in s7. -/
def barrierAt (b : Barrier) (v : W64) : State :=
  wordsIn (withRegs memRegs [(6, spad 0x200), (7, v)]) (spadLoc 0 0x200) [b.word0, b.word1, 0, 0]
/-- A packet at s1. -/
def packetAt (join : W64) : State := wordsIn memRegs (spadLoc 0 0x100) [0x200000, 1, 0, join, 0, 0, 0, 0]
def joining : State := memRegs.modMe fun sl => { sl with join := spad 0x300 }
def watched (on : Bool) : State := memRegs.modMe fun sl => { sl with watch := [⟨0x210000, 0x210000, 64, on⟩] }
def waiting1 (s : State) : State := { s with waitTable := [⟨2, 0x210000, 1, 77⟩, ⟨2, 0x210040, 1, 78⟩] }

/-- A packet of world 2 with a steal scope; one waiting in a deque of a core. -/
def packetOf (scope : Nat) : Packet := ⟨#v[0x200000, w64 (1 + scope * 2 ^ 21 + 2 * 2 ^ 24), 0, 0, 0, 0, 0, 0], 0, false⟩
def queued (s : State) (core scope : Nat) : State := s.modCore core fun k => { k with world := 2, deques := k.deques.set 0 { Deque.init with hw := [packetOf scope] } }
def stealing (rest : List Nat) (scope : Nat) : State := (queued demo 1 scope).modCore 0 fun k => { k with steal := some ⟨1, 0, 1 :: rest⟩ }
def readyEntry : CtxEntry := ⟨demo.me, .parked (.ready 0), [], [], false⟩
def late (s : State) : State := { s with cycle := 70000 }
def busyCore : State := (late (queued demo 0 0)).modMyCore fun k => { k with
  deques := k.deques.set 3 { Deque.init with hw := [packetOf 0] }, slots := (List.range 14).map fun n => (n, { Slot.init with st := .run }) }
/-- A record to append at s1, and a log with a run. -/
def recordAt : State := wordsIn (withRegs memRegs [(3, 1)]) (spadLoc 0 0x100) [0x210000, 5, 0, 0]
def aRun : MergeRun := ⟨1, 1, [⟨0x210000, none, 5, 0, 0, 0, 0⟩]⟩
def withLog (l : AppendLog) : State := memRegs.modWorld 2 fun w => w.setLog 0 l
/-- A command of slot 0, the only one of the device. -/
def cmdOf (engine : Nat) (words : List W64) : EngCmd := ⟨engine, 0, 0, demo.me.uid, 2, 1, words, 0, 0, 0, [], []⟩
def withCmd (s : State) (c : EngCmd) : State := { s with engCmds := [c] }
def staging (s : State) (e : Nat) (ws : List W64) (v : W64) : State :=
  (withRegs s [(3, v)]).modMe (·.modEngine e fun p => { p with staged := ws })
def withResult (s : State) (e : Nat) : State := s.modMe (·.modEngine e fun p => { p with results := [5] })
def gatherCmd : EngCmd := cmdOf 3 [w64 (0x0130 * 2 ^ 48 + 2), 0, spad 0x800, spad 0x2000, 0x210000, 2, 8, 16]
def pagesCmd : EngCmd := { cmdOf 1 [w64 (0x0110 * 2 ^ 48 + 2 ^ 16), 0x210000, 2, 64] with count := 1 }
/-- Commands of the collective engine: group 9 of two members, child on port 1, parent on port 0 or none. -/
def collCmd (op : Nat) (root : Bool) (aux : Nat) : EngCmd :=
  { cmdOf 2 [w64 (op * 2 ^ 56 + 3 * 2 ^ 52 + 2), 0, 0x210000, spad 0x800, w64 (9 * 2 ^ 48 + 2 * 2 ^ 32),
      w64 ((if root then 31 else 0) * 2 ^ 18 + 2)] with aux := aux }
def portCmd (op n : Nat) : EngCmd := cmdOf 2 [w64 (op * 2 ^ 56 + 3 * 2 ^ 52), w64 (9 * 2 ^ 48 + 1), 0x210000, w64 n]
def portUp : Port := { Port.init with up := true, rx0 := ⟨1, true, 100, 0⟩, tx0 := ⟨2, true, 100, 0⟩ }
def linked (s : State) (rx : Nat → List RxData) : State :=
  (s.setPort 0 { portUp with rx := rx 0 }).setPort 1 { portUp with rx := rx 1 }
def collState (c : EngCmd) : State :=
  linked (withCmd memRegs c) fun p => if p = 0 then [⟨2, 9, c.frame 0 (List.replicate (if cmdOpcode c.header = 2 then c.members * c.srcBytes
    else 2 * redBytes c.header) 0), 0⟩]
  else [⟨2, 9, c.frame 1 (List.replicate (if cmdOpcode c.header = 2 then c.srcBytes + 8 else 8) 0), 0⟩]
def haveThen (s : State) (c : EngCmd) (ports : List Nat) (f : List RxData → Bool) : Bool :=
  (c.tree.all fun p => !c.expects p || (match cameOn s c p with
    | some (.error _) => false
    | _ => true)) &&
  (ports.all fun p => match cameOn s c p with
    | some (.ok _) => true
    | _ => false) && f (ports.filterMap fun p => match cameOn s c p with
      | some (.ok r) => some r
      | _ => none)
/-- The collective engine with a source outside every window. -/
def collBad (c : EngCmd) : State := { collState c with engCmds := [{ c with words := c.words.set 2 (spad 0x40000) }] }
def failedOn (s : State) (c : EngCmd) (p code : Nat) : Bool :=
  let ps := c.tree.filter c.expects
  ps.contains p && decide (cameOn s c p = some (.error code)) && (ps.takeWhile fun x => decide (x ≠ p)).all fun x =>
    match cameOn s c x with
    | some (.error _) => false
    | _ => true
def goodPeer : PeerReport := ⟨true, true, true, 0xFF, 0, 1, true⟩
/-- A flit that does not end its group. -/
def openFlit : Flit := ⟨0, List.replicate 120 0⟩

/-- The supervisor slot, with values in its registers, and slot 2 of its core in a state. -/
def sup (rs : List (Reg × W64)) : State := withRegs (inSlot memRegs 15) rs
def target (s : State) (st : SlotSt) (wt : Wait) : State := s.modSlot 0 2 fun sl => { sl with st := st, waiting := wt, chain := 1 }
def heldEntry : CtxEntry := ⟨demo.me, .held, [], [], false⟩
/-- The supervisor with a descriptor of an image at 0x210000, for index 3 and cache entry 5. -/
def imaging (mb0 room : W64) : State :=
  let s := wordsIn (sup [(4, spad 0x100)]) (spadLoc 0 0x100) [mb0, 0x210000, room, 0]
  (({ s with lineKeys := (List.range 19).map fun i => (0x210000 / 64 + i, 1) } : State).modWorld 2 fun w =>
    { w with ctxKey := 9, ctxExpiry := s.meridian + 1 }).modMyCore fun k =>
      { k with cache := [(5, heldEntry)], tlb := [⟨2, 0, 2 ^ 30, 0, true, true, true, false, none⟩] }
/-- A chain under chain 1 for principal 5, and a slot that acts under it. -/
def adopted (deep : Bool) : State :=
  let s := (demo.setPrincipal 5 ⟨.live, 2, 0⟩).setChain 2 ⟨true, 1, 1, 5, 0, 40, 1, false, 2⟩
  if deep then s.modMe fun sl => { sl with chain := w64 (2 + 2 ^ 16) } else s
def sweeping (pass : Option Nat) : State :=
  let s := adopted false
  match pass with
  | none => { s with revocations := [⟨5, 0, 0, 1⟩] }
  | some n => { s with sweep := some ⟨5, n, 3, 1⟩ }

/-- World 2 assigned to function 3, whose TDI runs. -/
def hosted : State :=
  (demo.modFn 3 fun f => { f with world := 2, tdisp := .run }).modWorld 2 fun w => { w with tdi := 3 }
/-- Operand words c1, c2, … of a function's command block. -/
def operands (s : State) (fn : Nat) (ops : List W64) : State :=
  s.modFn fn fun f => { f with block := Vector.ofFn fun i => if i.val = 0 then 0 else ops.getD (i.val - 1) 0 }
def cmd (fn op : Nat) : Cmd := ⟨fn, w64 op, none, none⟩
def pendingOf (line : W64) : Pending := ⟨7, line, .done 2 5, 2, 0, 0⟩
/-- A core mask of core 8 at host address 0x1000, and an extent record of world 4 at 0x2000. -/
def creating : State :=
  operands ((demo.hostWrite 0x1000 [0, 1]).hostWrite 0x2000 ([0, 2 ^ 31, 2 ^ 30, 0].flatMap fun n => natToLe 8 n)) 0 [4, 0x1000, 0x2000, 1, 5, 1]
/-- Function 3 of `hosted` bound to session 2, with a nonce and a live key set. -/
def leased (kind : W64) : State :=
  operands (hosted.modFn 3 fun f => { f with bound := some 2, sessions := [⟨2, true, 0⟩], nonces := [⟨7, 0, false, some 2, []⟩], set0 := ⟨5, true, 100, none⟩ }) 3
    [0x1000, 64, kind]
def inSession (s : State) (tdisp : Tdisp) (est : Bool) : State :=
  s.modFn 3 fun f => { f with world := 2, tdisp := tdisp, sessions := [⟨2, est, 0⟩], set0 := ⟨5, true, 100, none⟩ }
def quiet : State := State.modMyCore demo fun k => { k with slots := [] }
/-- World 1 with HBM at 2 GiB, open to itself. -/
def world1 : State :=
  { demo.modWorld 1 fun w => { w with extents := [⟨0, 2 ^ 31, 2 ^ 30, 0⟩], memKey := 4 } with
    firewallR := demo.firewallR ||| BitVec.twoPow 256 17, firewallW := demo.firewallW ||| BitVec.twoPow 256 17,
    lineKeys := Sparse.put demo.lineKeys (2 ^ 25) 4 }

/-- The same with a packet in the launch queue. -/
def hosted1 : State := hosted.modWorld 2 fun w => { w with launch := [⟨[packetOf 0], none⟩] }
/-- The report that answers nonce 7 with no measurement; a renewal with it, but for the signature, which is opaque. -/
def goodReport (s : State) (c : Cmd) : Report := ⟨7, [], (judged s c).signature 0x60 (reportBytes 7 [])⟩
def renewOk (s : State) (c : Cmd) (r : Report) (k : Nat) : Bool :=
  decide (Admitted s c 0x0C) && decide ((s.cmdWord c.fn 3).toNat = k) && decide (cmdReadFails c (opnd s c 1) (opnd s c 2) = false) &&
  ((judged s c).fn c.fn).bound.isSome &&
  (((judged s c).fn c.fn).nonces.any fun n => decide (n.session = ((judged s c).fn c.fn).bound) && decide (n.meas = r.meas) &&
    n.good r.nonce (judged s c).meridian) && r.meas.all ((judged s c).measurements c.fn).contains
theorem renews {s : State} {c : Cmd} {k : Nat} (h : renewOk s c (goodReport s c) k = true) : RenewOk s c (goodReport s c) k := by
  simp only [renewOk, Bool.and_eq_true, decide_eq_true_eq] at h
  obtain ⟨⟨⟨⟨⟨h1, h2⟩, h3⟩, h4⟩, h5⟩, h6⟩ := h
  refine ⟨h1, h2, h3, ?_⟩
  simp only [State.reportOk, Bool.and_eq_true, decide_eq_true_eq]
  exact ⟨⟨⟨h4, h5⟩, rfl⟩, h6⟩

/-- Addresses below 1 GiB translated to themselves in core 0. -/
def flat (s : State) : State := s.modMyCore fun k => { k with tlb := [⟨2, 0, 2 ^ 30, 0, true, true, true, false, none⟩] }

/-- Words where slot 0 fetches next. -/
def coded (ws : List H16) : State := State.reset.withWords ws

/-! ## Decoding: words that the spec writes out -/

/-- A list of words decodes to an instruction with all of them. -/
def decodesTo (ws : List H16) (i : Instr) : Bool := decide (decode ws = some (i, ws.length))
/-- The words up to number n are taken and word n is refused (R80). -/
def refusedAt (ws : List H16) (n : Nat) : Bool :=
  match prefixes Pfx.init 0 (ws.take n) with
  | some p => decide (p.feed n (ws.getD n 0).toNat = .illegal)
  | none => false

/-- spec/05, "Encodings worked out": the base and prefixes instructions. -/
theorem test_decode_base_and_prefixes :
    ([([0x2305], .addi 3 5),
      ([0xF003, 0x35E8], .li 5 1000),
      ([0xF748, 0x0140], .add 17 4 (some 20)),
      ([0xFD20, 0xB622], .ldd 6 2 2 ⟨1, 2, 0⟩),
      ([0xF808, 0x0298], .tadd 1 2 3),
      ([0x3564], .li 5 100),
      ([0x1C90], .mov 12 9),
      ([0xF818, 0x0000], .kvld 0 0 0 Mod.none)] : List (List H16 × Instr)).all
      (fun q => decodesTo q.1 q.2) = true := by decide +kernel

/-- spec/05, "Encodings worked out": malformed words, each refused at the word that decides it. -/
theorem test_refuse_base_and_prefixes :
    ([([0xFD20, 0xFD20], 1), ([0xF808, 0xF748, 0x0298], 2), ([0xF003, 0x0140], 1), ([0x190C], 0), ([0xF81C], 0)] : List (List H16 × Nat)).all (fun q => refusedAt q.1 q.2) = true := by decide +kernel

/-- spec/06, "Encodings": the scalar instructions. -/
theorem test_decode_scalar :
    ([([0x0721], .sub 7 2 none),
      ([0xF690, 0x123D], .cmplt 2 3 (some 9)),
      ([0x86FA], .bp 3 false (w64 (2 ^ 64 - 6))),
      ([0xF408, 0x9C61], .jalr 28 6),
      ([0xF810, 0x4050], .spawn 5),
      ([0xF810, 0x4041], .sync 4),
      ([0xF810, 0x4003], .texit),
      ([0xF814, 0x0540], .krd 5 4),
      ([0x4003], .lih 0 3)] : List (List H16 × Instr)).all
      (fun q => decodesTo q.1 q.2) = true := by decide +kernel

/-- spec/06, "Encodings": malformed words, each refused at the word that decides it. -/
theorem test_refuse_scalar :
    ([([0xF810, 0x4150], 1)] : List (List H16 × Nat)).all (fun q => refusedAt q.1 q.2) = true := by decide +kernel

/-- spec/08, "Encodings": the memory instructions. -/
theorem test_decode_memory :
    ([([0xF804, 0x1423], .ldbu 4 2 3 Mod.none),
      ([0xF804, 0xFCC0, 0x7592], .ste 5 9 ⟨2, 1, 0⟩),
      ([0xF804, 0xFCA0, 0x7690], .ldf 6 9 ⟨1, 1, 0⟩),
      ([0xF804, 0x848A], .tld 2 4 5 Mod.none),
      ([0xF804, 0xA2D0], .tldx 1 3 4 Mod.none),
      ([0xF804, 0xB360], .cpy 3 6),
      ([0xF804, 0xB103], .drain 1),
      ([0xF804, 0xB786], .sendmsg 7 8 Mod.none)] : List (List H16 × Instr)).all
      (fun q => decodesTo q.1 q.2) = true := by decide +kernel

/-- spec/08, "Encodings": malformed words, each refused at the word that decides it. -/
theorem test_refuse_memory :
    ([([0xF804, 0xB403], 1), ([0xF804, 0x7016], 1)] : List (List H16 × Nat)).all (fun q => refusedAt q.1 q.2) = true := by decide +kernel

/-- spec/11, "Encodings": the tile instructions. -/
theorem test_decode_tile :
    ([([0xF808, 0x012D], .tfma 0 4 5),
      ([0xF808, 0xFC07, 0x2587], .tcvt 2 6 7),
      ([0xF808, 0x3640], .trsum 3 1),
      ([0xF808, 0x4851], .tclt 4 1 2),
      ([0xF808, 0x52A0], .tshape 1 5),
      ([0xF808, 0x50C5], .tsete 0 6),
      ([0xF808, 0x649D], .tmuls 2 2 7),
      ([0xF808, 0x7300], .tsadd 1 2),
      ([0xF808, 0x7A84], .tsend 5 1)] : List (List H16 × Instr)).all
      (fun q => decodesTo q.1 q.2) = true := by decide +kernel

/-- spec/11, "Encodings": malformed words, each refused at the word that decides it. -/
theorem test_refuse_tile :
    ([([0xF808, 0x2099], 1), ([0xF808, 0x7310], 1), ([0xF808, 0xFC07, 0x0298], 2), ([0xF808, 0xF408, 0x52A0], 2)] : List (List H16 × Nat)).all (fun q => refusedAt q.1 q.2) = true := by decide +kernel

/-- spec/12, "Encodings": the matrix instructions. -/
theorem test_decode_matrix :
    ([([0xF80C, 0x02B0], .mma 1 2 3),
      ([0xF80C, 0x0042], .mmas 0 1 0),
      ([0xF80C, 0xFC05, 0x0063], .mmaa 0 1 2 5),
      ([0xF80C, 0x1914], .ldstat 2 4 5 Mod.none),
      ([0xF80C, 0xF404, 0xFD20, 0x1914], .ldstat 2 20 5 ⟨1, 2, 0⟩),
      ([0xF80C, 0x1996], .ldscl 2 6 5 Mod.none),
      ([0xF80C, 0xFC03, 0x1115], .ldproj 4 5 ⟨0, 0, 3⟩),
      ([0xF80C, 0x22D0], .accrd 1 3 2),
      ([0xF80C, 0x240B], .accclm 2 1),
      ([0xF80C, 0x3400], .swap 1),
      ([0xF80C, 0xFC03, 0x4440], .epexp 2 1 3)] : List (List H16 × Instr)).all
      (fun q => decodesTo q.1 q.2) = true := by decide +kernel

/-- spec/12, "Encodings": malformed words, each refused at the word that decides it. -/
theorem test_refuse_matrix :
    ([([0xF80C, 0xFC05, 0x02B0], 2), ([0xF80C, 0x241B], 1), ([0xF80C, 0x3410], 1), ([0xF80C, 0xFC13, 0x1115], 2)] : List (List H16 × Nat)).all (fun q => refusedAt q.1 q.2) = true := by decide +kernel

/-- spec/13, "Encodings": the chain instructions. -/
theorem test_decode_chain :
    ([([0xF814, 0x2540], .chrd 5 4),
      ([0xF814, 0x2671], .adopt 6 7),
      ([0xF814, 0x2602], .unadopt 6),
      ([0xF814, 0x2893], .metrd 8 9),
      ([0xF814, 0x2144], .capchk 1 4 0),
      ([0xF814, 0xFC01, 0x2144], .capchk 1 4 1),
      ([0xF814, 0xF408, 0x2141], .adopt 17 4)] : List (List H16 × Instr)).all
      (fun q => decodesTo q.1 q.2) = true := by decide +kernel

/-- spec/13, "Encodings": malformed words, each refused at the word that decides it. -/
theorem test_refuse_chain :
    ([([0xF814, 0xFC05, 0x2144], 2), ([0xF814, 0x2612], 1)] : List (List H16 × Nat)).all (fun q => refusedAt q.1 q.2) = true := by decide +kernel

/-- spec/15, "Encodings": the synchronisation instructions. -/
theorem test_decode_synchronisation :
    ([([0xF810, 0xFE60, 0x0590], .aadd 5 9 ⟨3, 4, 0⟩),
      ([0xF810, 0xF660, 0x0599], .acas 5 9 6 Mod.none),
      ([0xF810, 0xFD20, 0x1420], .rsv 4 2 ⟨1, 2, 0⟩),
      ([0xF810, 0xFD40, 0x1421], .rls 4 2 ⟨2, 2, 0⟩),
      ([0xF810, 0x1022], .rlsn 2 Mod.none),
      ([0xF810, 0x1594], .rsvw 5 9 Mod.none),
      ([0xF810, 0x1673], .waitrs 6 7),
      ([0xF810, 0xFE40, 0x1005], .fence ⟨2, 4, 0⟩),
      ([0xF810, 0x2450], .bararr 4 5),
      ([0xF810, 0x2402], .barsync 4 0),
      ([0xF810, 0x2463], .barexp 4 6),
      ([0xF810, 0x2474], .barinit 4 7),
      ([0xF810, 0x2455], .barqry 4 5)] : List (List H16 × Instr)).all
      (fun q => decodesTo q.1 q.2) = true := by decide +kernel

/-- spec/15, "Encodings": malformed words, each refused at the word that decides it. -/
theorem test_refuse_synchronisation :
    ([([0xF810, 0x0599], 1), ([0xF810, 0x1005], 1), ([0xF810, 0xFC20, 0x2402], 2)] : List (List H16 × Nat)).all (fun q => refusedAt q.1 q.2) = true := by decide +kernel

/-- spec/15, "Encodings": the waiting and log instructions. -/
theorem test_decode_waiting_and_log :
    ([([0xF810, 0x3890], .waitva 8 9),
      ([0xF810, 0x38A2], .wakeall 8 10 Mod.none),
      ([0xF810, 0xFC09, 0x5450], .append 4 5 9),
      ([0xF810, 0x5672], .merge 6 7),
      ([0xF810, 0x5673], .mergew 6 7),
      ([0xF810, 0x65C0], .epush 5 3),
      ([0xF810, 0x6681], .epop 6 2),
      ([0xF810, 0x6702], .eqry 7 0)] : List (List H16 × Instr)).all
      (fun q => decodesTo q.1 q.2) = true := by decide +kernel

/-- spec/15, "Encodings": malformed words, each refused at the word that decides it. -/
theorem test_refuse_waiting_and_log :
    ([([0xF810, 0xFC0C, 0x5450], 2)] : List (List H16 × Nat)).all (fun q => refusedAt q.1 q.2) = true := by decide +kernel

/-- spec/17, "Encodings"; spec/19: the attention instructions. -/
theorem test_decode_attention :
    ([([0xF818, 0x0514], .kvld 1 4 5 Mod.none),
      ([0xF818, 0xFD20, 0x0514], .kvld 1 4 5 ⟨1, 2, 0⟩),
      ([0xF818, 0x148A], .kvst 2 4 5 Mod.none),
      ([0xF818, 0x268C], .kvmult 3 4 6 Mod.none),
      ([0xF818, 0x3458], .scoreb 2 1 3),
      ([0xF818, 0x4128], .tripc 0 4 5),
      ([0xF818, 0x5670], .dmerge 6 7),
      ([0xF804, 0x9CBC], .tlds 6 5 14 Mod.none),
      ([0xF804, 0x9CBD], .tsts 6 5 14 Mod.none)] : List (List H16 × Instr)).all
      (fun q => decodesTo q.1 q.2) = true := by decide +kernel

/-- spec/17, "Encodings"; spec/19: malformed words, each refused at the word that decides it. -/
theorem test_refuse_attention :
    ([([0xF818, 0x0515], 1), ([0xF818, 0x3459], 1)] : List (List H16 × Nat)).all (fun q => refusedAt q.1 q.2) = true := by decide +kernel

/-- spec/20, "Encodings": the supervisor instructions. -/
theorem test_decode_supervisor :
    ([([0xF814, 0x0042], .trap 4),
      ([0xF814, 0x0003], .rte),
      ([0xF814, 0x0004], .bkpt),
      ([0xF814, 0x0655], .haltt 6 5),
      ([0xF814, 0x0656], .ctxsave 6 5),
      ([0xF814, 0x0067], .ctxload 6),
      ([0xF814, 0x0788], .ctxout 7 8),
      ([0xF814, 0x0789], .ctxin 7 8),
      ([0xF814, 0x065A], .preempt 6 5),
      ([0xF814, 0x005B], .resume 5),
      ([0xF814, 0x1040], .cpyretry 4),
      ([0xF814, 0x1041], .cpyskip 4),
      ([0xF814, 0x1042], .cpyabort 4)] : List (List H16 × Instr)).all
      (fun q => decodesTo q.1 q.2) = true := by decide +kernel

/-- spec/20, "Encodings": malformed words, each refused at the word that decides it. -/
theorem test_refuse_supervisor :
    ([([0xF814, 0x0013], 1), ([0xF814, 0x0F0C], 1)] : List (List H16 × Nat)).all (fun q => refusedAt q.1 q.2) = true := by decide +kernel

/-- spec/21; spec/25, R320: the preemption program instructions. -/
theorem test_decode_preemption_program :
    ([([0xF80C, 0x2013], .accclm 0 2),
      ([0xF80C, 0x3001], .plclm 0),
      ([0xF804, 0x7541], .ldfk 5 4 Mod.none),
      ([0xF804, 0xFCC0, 0x7793], .stf 7 9 ⟨2, 1, 0⟩),
      ([0xF804, 0x70F4], .feclr 15),
      ([0xF814, 0xF404, 0x0656], .ctxsave 6 21),
      ([0xF408, 0xFD20, 0xF002, 0xB420], .ldd 20 2 32 ⟨1, 2, 0⟩),
      ([0x82FC], .bp 1 false (w64 (2 ^ 64 - 4)))] : List (List H16 × Instr)).all
      (fun q => decodesTo q.1 q.2) = true := by decide +kernel

/-! ## Well-formedness: an ill-formed term for each check -/

/-- Immediates one beyond the width of R78. -/
theorem test_ill_formed_immediates : ([.addi 0 (w64 (2 ^ 37)),
    .li 0 (w64 (2 ^ 37)),
    .cmpi 0 0 0 (w64 (2 ^ 32)),
    .b (w64 (2 ^ 41)),
    .bp 0 true (w64 (2 ^ 37)),
    .call (w64 (2 ^ 41)),
    .ldd 0 0 (w64 (2 ^ 33)) Mod.none,
    .ldw 0 0 (w64 (2 ^ 33)) Mod.none,
    .std 0 0 (w64 (2 ^ 33)) Mod.none,
    .stw 0 0 (w64 (2 ^ 33)) Mod.none,
    .ldb 0 0 (w64 (2 ^ 33)) Mod.none,
    .ldbu 0 0 (w64 (2 ^ 33)) Mod.none,
    .ldh 0 0 (w64 (2 ^ 33)) Mod.none,
    .ldhu 0 0 (w64 (2 ^ 33)) Mod.none,
    .ldwu 0 0 (w64 (2 ^ 33)) Mod.none,
    .stb 0 0 (w64 (2 ^ 33)) Mod.none,
    .sth 0 0 (w64 (2 ^ 33)) Mod.none] : List Instr).all (fun i => !i.wellFormed) = true := by decide +kernel

/-- MOD values that the class of instruction does not accept (R74). -/
theorem test_ill_formed_mods_1 : ([.ldd 0 0 0 ⟨2, 0, 0⟩,
    .ldw 0 0 0 ⟨0, 1, 0⟩,
    .std 0 0 0 ⟨1, 0, 0⟩,
    .stw 0 0 0 ⟨0, 1, 0⟩,
    .ldb 0 0 0 ⟨0, 0, 2⟩,
    .ldbu 0 0 0 ⟨1, 6, 0⟩,
    .ldh 0 0 0 ⟨2, 0, 0⟩,
    .ldhu 0 0 0 ⟨0, 1, 0⟩,
    .ldwu 0 0 0 ⟨0, 0, 2⟩,
    .stb 0 0 0 ⟨0, 0, 1⟩,
    .sth 0 0 0 ⟨2, 6, 0⟩,
    .ldf 0 0 ⟨1, 6, 0⟩,
    .ldfk 0 0 ⟨2, 0, 0⟩,
    .ste 0 0 ⟨1, 0, 0⟩,
    .stf 0 0 ⟨0, 1, 0⟩,
    .tld 0 0 0 ⟨0, 1, 0⟩,
    .tst 0 0 0 ⟨0, 0, 1⟩,
    .tlds 0 0 0 ⟨0, 0, 2⟩,
    .tsts 0 0 0 ⟨2, 6, 0⟩,
    .tldx 0 0 0 ⟨1, 6, 0⟩,
    .tstx 0 0 0 ⟨1, 0, 0⟩,
    .recvmsg 0 0 ⟨2, 0, 0⟩,
    .sendmsg 0 0 ⟨0, 1, 0⟩,
    .ldstat 0 0 0 ⟨0, 1, 0⟩,
    .ldproj 0 0 ⟨2, 0, 0⟩,
    .ldscl 0 0 0 ⟨0, 0, 2⟩,
    .aadd 0 0 ⟨0, 1, 0⟩,
    .aand 0 0 ⟨1, 6, 0⟩,
    .aor 0 0 ⟨0, 0, 1⟩,
    .axor 0 0 ⟨0, 1, 0⟩,
    .amin 0 0 ⟨1, 6, 0⟩,
    .amax 0 0 ⟨0, 0, 1⟩,
    .aminu 0 0 ⟨0, 1, 0⟩,
    .amaxu 0 0 ⟨1, 6, 0⟩,
    .aswap 0 0 ⟨0, 0, 1⟩,
    .acas 0 0 0 ⟨0, 1, 0⟩,
    .afadd 0 0 ⟨1, 6, 0⟩,
    .rsv 0 0 ⟨0, 0, 1⟩,
    .rls 0 0 ⟨0, 1, 0⟩,
    .rlsn 0 ⟨1, 6, 0⟩] : List Instr).all (fun i => !i.wellFormed) = true := by decide +kernel

/-- MOD values that the class of instruction does not accept (R74). -/
theorem test_ill_formed_mods_2 : ([.rsvw 0 0 ⟨0, 0, 1⟩,
    .fence ⟨0, 0, 0⟩,
    .wake 0 0 ⟨1, 5, 0⟩,
    .wakeall 0 0 ⟨2, 4, 0⟩,
    .kvld 0 0 0 ⟨1, 6, 0⟩,
    .kvst 0 0 0 ⟨0, 0, 1⟩,
    .kvmult 0 0 0 ⟨2, 0, 0⟩] : List Instr).all (fun i => !i.wellFormed) = true := by decide +kernel

/-- Type and op codes beyond the last (R74, R196, R238). -/
theorem test_ill_formed_codes : ([.tcvt 0 0 9,
    .accclm 0 3,
    .append 0 0 12,
    .appendf 0 0 12] : List Instr).all (fun i => !i.wellFormed) = true := by decide +kernel

/-- Numbers of cores, slots, worlds, functions, ports and dies beyond the last. -/
theorem test_ill_formed_numbers_1 : ([.instructionCompletion 512 0,
    .instructionCompletion 0 16,
    .slotSearch 512,
    .stealProbeResult 512,
    .distributorDelivery 16,
    .packetAging 512 0,
    .packetAging 0 4,
    .contextAging 512 0,
    .contextAging 0 48,
    .queueSegmentSwapIn 512 0,
    .queueSegmentSwapIn 0 5,
    .contextMove 512,
    .quantumExpiry 512 0,
    .quantumExpiry 0 16,
    .preemptReq 512 0,
    .preemptReq 0 4,
    .waitmsgTimeout 512 0,
    .waitmsgTimeout 0 16,
    .waitrsTimeout 512 0,
    .waitrsTimeout 0 48,
    .storePerform 512 0,
    .l1Fill 512 0,
    .messagePlacement 512,
    .copyChunk 512 0,
    .copyCompletionMessage 512 0,
    .copyfaultDelivery 512 0,
    .copyfaultDelivery 0 16,
    .logMergeRun 16 0,
    .logMergeRun 0 8,
    .zeroingComplete 512,
    .lostCommandWrite 15 ⟨0, [], none⟩,
    .commandCompletion 15,
    .registerWrite 15 ⟨0, [], none⟩,
    .packetWindowWrite 15 ⟨0, [], none⟩,
    .wakeWindowWrite 15 ⟨0, [], none⟩,
    .doeDiscovery 15 0,
    .getVersion 15,
    .getCapabilities 15,
    .negotiateAlgorithms 15 [],
    .getDigests 15] : List Instr).all (fun i => !i.wellFormed) = true := by decide +kernel

/-- Numbers of cores, slots, worlds, functions, ports and dies beyond the last. -/
theorem test_ill_formed_numbers_2 : ([.getCertificate 15 0,
    .getCertificate 0 16,
    .challenge 15 0,
    .challenge 0 16,
    .getMeasurements 15 0 0,
    .getMeasurements 0 4 0,
    .keyExchange 15,
    .finish 15 0,
    .finish 0 4,
    .heartbeat 15 0,
    .heartbeat 0 4,
    .keyUpdate 15 0,
    .keyUpdate 0 4,
    .endSession 15 0,
    .endSession 0 4,
    .sessionTimeout 15 0,
    .sessionTimeout 0 4,
    .lockInterfaceRequest 15 0,
    .lockInterfaceRequest 0 4,
    .startInterfaceRequest 15 0,
    .startInterfaceRequest 0 4,
    .stopInterfaceRequest 15 0,
    .stopInterfaceRequest 0 4,
    .lockedConfigWrite 15,
    .keyProg 15 0 0 true,
    .keyProg 0 4 0 true,
    .keyProg 0 0 2 true,
    .keySetGo 15 0 0 true,
    .keySetGo 0 4 0 true,
    .keySetGo 0 0 2 true,
    .ideKeySetSwitch 15 0,
    .ideKeySetSwitch 0 2,
    .ideKeySetRetire 15 0,
    .ideKeySetRetire 0 2,
    .ideIntegrityFailure 15,
    .worldKeyLeaseExpiry 16,
    .ideKeySetExpiry 15 0 true,
    .ideKeySetExpiry 0 2 true,
    .contextSaveKeyExpiry 16,
    .linkKeyGenerationExpiry 18 true true] : List Instr).all (fun i => !i.wellFormed) = true := by decide +kernel

/-- Numbers of cores, slots, worlds, functions, ports and dies beyond the last. -/
theorem test_ill_formed_numbers_3 : ([.arrayGating 512,
    .throttleLevelChange 2 0 0,
    .overTemperature 2 0,
    .uncore 2 0 none,
    .uncore 0 16 none,
    .flitReceive 18 [],
    .pauseFlit 18,
    .resumeFlit 18,
    .retireFlit 18 true,
    .linkDown 18,
    .linkKeyRotation 18,
    .collectiveFailureNotice 18 0 0 0 0,
    .channelItemPlacement 512,
    .sessionAeadFailure 15 0,
    .sessionAeadFailure 0 4] : List Instr).all (fun i => !i.wellFormed) = true := by decide +kernel

/-- A command of function 15, and one with another opcode (R32). -/
theorem test_ill_formed_commands : ([.getInfo ⟨15, 1, none, none⟩,
    .getInfo ⟨0, 17, none, none⟩,
    .worldCreate ⟨15, 2, none, none⟩,
    .worldCreate ⟨0, 17, none, none⟩,
    .worldAssign ⟨15, 3, none, none⟩,
    .worldAssign ⟨0, 17, none, none⟩,
    .worldDestroy ⟨15, 4, none, none⟩,
    .worldDestroy ⟨0, 17, none, none⟩,
    .loadImage ⟨15, 5, none, none⟩,
    .loadImage ⟨0, 17, none, none⟩,
    .launch ⟨15, 6, none, none⟩,
    .launch ⟨0, 17, none, none⟩,
    .principalAdd ⟨15, 7, none, none⟩,
    .principalAdd ⟨0, 17, none, none⟩,
    .principalRevoke ⟨15, 8, none, none⟩,
    .principalRevoke ⟨0, 17, none, none⟩,
    .ruleSet ⟨15, 9, none, none⟩,
    .ruleSet ⟨0, 17, none, none⟩,
    .capCreate ⟨15, 10, none, none⟩,
    .capCreate ⟨0, 17, none, none⟩,
    .capDestroy ⟨15, 11, none, none⟩,
    .capDestroy ⟨0, 17, none, none⟩,
    .leaseRenewWorldMemory ⟨15, 12, none, none⟩ ⟨0, [], []⟩,
    .leaseRenewWorldMemory ⟨0, 17, none, none⟩ ⟨0, [], []⟩,
    .leaseRenewIdeStream ⟨15, 12, none, none⟩ ⟨0, [], []⟩,
    .leaseRenewIdeStream ⟨0, 17, none, none⟩ ⟨0, [], []⟩,
    .leaseRenewContextSave ⟨15, 12, none, none⟩ ⟨0, [], []⟩,
    .leaseRenewContextSave ⟨0, 17, none, none⟩ ⟨0, [], []⟩,
    .meterRead ⟨15, 13, none, none⟩,
    .meterRead ⟨0, 17, none, none⟩,
    .checkpointSave ⟨15, 14, none, none⟩,
    .checkpointSave ⟨0, 17, none, none⟩,
    .checkpointRestore ⟨15, 14, none, none⟩,
    .checkpointRestore ⟨0, 17, none, none⟩,
    .debugAttach ⟨15, 15, none, none⟩,
    .debugAttach ⟨0, 17, none, none⟩,
    .debugDetach ⟨15, 15, none, none⟩,
    .debugDetach ⟨0, 17, none, none⟩,
    .badOpcode ⟨15, 0, none, none⟩,
    .badOpcode ⟨0, 1, none, none⟩] : List Instr).all (fun i => !i.wellFormed) = true := by decide +kernel

/-! ## The spec's worked examples -/

/-- Register r after an instruction. -/
def regAfter (i : Instr) (s : State) (r : Reg) : Option W64 :=
  match exec i s with
  | .next t => some (t.me.reg r)
  | _ => none
/-- Elements of the first n columns of rows 0 to m - 1 of a tile after an instruction, and its shape word. -/
def tileAfter (i : Instr) (s : State) (t : Num3) (m n : Nat) : Option (W64 × List (List Nat)) :=
  match exec i s with
  | .next u => some ((u.me.tile t).shape, (List.range m).map fun r => (u.me.tile t).rowElems r n)
  | _ => none
/-- A tile of a shape with rows of elements. -/
def tileOf (v : W64) (rows : List (List Nat)) : Tile :=
  ⟨v, Vector.ofFn fun i => rowOf (tySize (shType v)) (rows.getD i.val []), unitScales⟩
def withTiles (l : List (Num3 × Tile)) (s : State) : State := s.modMe fun sl => l.foldl (fun x q => x.setTile q.1 q.2) sl

/-- spec/01, the table of effective shares. -/
theorem test_effective_shares :
    ([([100], [100]), ([100, 50], [50, 50]), ([100, 50, 20], [50, 30, 20]), ([100, 66, 33], [34, 33, 33]), ([100, 50, 50], [50, 0, 50])] :
      List (List Nat × List Nat)).all
      (fun q => decide (effShares (q.1.map fun n => ⟨true, 2, 0, 0, 0, n, 0, false, 0⟩) = q.2)) = true := by decide +kernel

/-- spec/13: 1,007 pips over U 34, A 33, V 33. -/
theorem test_segment_split : splitParts 1007 [34, 33, 33] = [343, 332, 332] := by decide +kernel

/-- spec/04: thief core 24 tries cores 25 to 31, clusters 4, 5, 6, 7, 0, 1, 2 of its domain, then domains 1, 2, 3, then 4 to 7,
each from cluster 4 on in the same inner order. -/
theorem test_steal_order :
    (stealOrder 24).take 7 = [25, 26, 27, 28, 29, 30, 31] ∧
    ((stealOrder 24).drop 7).map (· / 8) = ([4, 5, 6, 7, 0, 1, 2] ++ [1, 2, 3, 4, 5, 6, 7].flatMap fun d => [4, 5, 6, 7, 0, 1, 2, 3].map (· + 8 * d)).flatMap
      (List.replicate 8) := by decide +kernel

/-- spec/04: a scope 1 entry of core 40 is refused to core 24, a scope 2 entry is taken. -/
theorem test_steal_scope : scopeAdmits 1 40 24 = false ∧ scopeAdmits 2 40 24 = true := by decide +kernel

/-- spec/10: the worked CX8 block, the shorter one, and the first decoded again. -/
theorem test_cx8_block :
    cxEncode ([15 * 8, 256 + 15 * 8 + 4, 14 * 8, 16 * 8, 5 * 8] ++ List.replicate 27 (15 * 8)) =
      [0x0F, 0x0C] ++ List.replicate 15 0 ++ [0x2D, 0xF2, 0x80, 0, 0, 0, 0] ∧
    cxEncode ([15 * 8, 256 + 15 * 8 + 4, 14 * 8, 16 * 8, 12 * 8] ++ List.replicate 27 (15 * 8)) =
      [0x0F, 0x0C] ++ List.replicate 15 0 ++ [0x2D, 0xE0, 0, 0, 0] ∧
    cxDecode ([0x0F, 0x0C] ++ List.replicate 15 0 ++ [0x2D, 0xF2, 0x80, 0, 0, 0, 0]) =
      .done ([15 * 8, 256 + 15 * 8 + 4, 14 * 8, 16 * 8, 5 * 8] ++ List.replicate 27 (15 * 8), 24) := by decide +kernel

/-- spec/10, tree order: 2^24 + 1 + 1 - 2^24 is 1. -/
theorem test_tree_order :
    ksum true [.fin false 1 12, .fin false 1 0, .fin false 1 0, .fin true 1 12] [.fin false 1 12, .fin false 1 0, .fin false 1 0, .fin false 1 12] =
      ksum true [.fin false 1 0] [.fin false 1 0] := by decide +kernel

/-- spec/10, one rounding in scaling: 451 × 3 × 0.5 added to 2^24 in FP32 is 16,777,892; with an infinite scale and P = +0 it stays, with SZI. -/
theorem test_one_rounding :
    (accUpdate 7 0x4B800000 (scaledSum (ksum false ([0x3C, 0xC0, 0x28, 0x7E].map Fmt.e4m3.decode) ([0x40, 0x30, 0x48, 0x38].map Fmt.e4m3.decode)).1
      (Fmt.fp32.decode 0x40400000) (Fmt.fp32.decode 0x3F000000)).1).map (·.bits) = some (0x4B800000 + (16777892 - 2 ^ 24) / 2) ∧
    (scaledSum (.zero false) (.inf false) (.fin false 1 0)).2 = Flag.szi ∧
    (accUpdate 7 0x4B800000 (scaledSum (.zero false) (.inf false) (.fin false 1 0)).1) = none := by decide +kernel

/-- spec/20: the length of a context image. -/
theorem test_image_length : imageLen 1 32 1 1 16384 = 70416 := by decide +kernel

/-- spec/17: the triple (3, 1.5, 2.5) combined with (5, 1, 4) is (5, 1.375, 4.625). -/
theorem test_tripc : (tripRow [0x40400000, 0x3FC00000, 0x40200000] [0x40A00000, 0x3F800000, 0x40800000]).map (·.bits) =
    [0x40A00000, 0x3FB00000, 0x40940000] := by decide +kernel

/-- spec/17: raw scores 3 and 1 with multiplicities 1 and 2 give 3 and 2. -/
theorem test_scoreb : (scoreEl 0x40400000 1).bits = 0x40400000 ∧ (scoreEl 0x3F800000 2).bits = 0x40000000 := by decide +kernel

/-- spec/11: the ragged softmax, one instruction at a time. -/
def scores : Tile := tileOf 0x02062047 [[0, 0, 0x3F800000, 0x40000000], [0x40400000, 0x40400000, 0x40400000, 0x40400000],
  [0xC0400000, 0xC0800000, 0xC0A00000, 0xC0A00000]]
def maxima : Tile := tileOf 0x00860447 [[0x40000000], [0x40400000], [0xC0400000]]
def powers : Tile := tileOf 0x02062047 [[0x3E800000, 0x3E800000, 0x3F000000, 0x3F800000], [0x3F800000, 0x3F800000, 0x3F800000, 0x3F800000],
  [0x3F800000, 0x3F000000, 0x3E800000, 0x3E800000]]

theorem test_softmax_max : tileAfter (.trmax 1 0) (withTiles [(0, scores)] demo) 1 3 1 =
    some (0x00860447, [[0x40000000], [0x40400000], [0xC0400000]]) := by decide +kernel
theorem test_softmax_spread : tileAfter (.tbcol 2 1 0) (withTiles [(0, scores), (1, maxima)] demo) 2 4 5 =
    some (0x02062047, [[0x40000000, 0x40000000, 0x40000000, 0x40000000, 0], [0x40400000, 0x40400000, 0x40400000, 0x40400000, 0],
      [0xC0400000, 0xC0400000, 0xC0400000, 0xC0400000, 0], [0, 0, 0, 0, 0]]) := by decide +kernel
theorem test_softmax_exp : tileAfter (.texp2 2 2) (withTiles [(2, tileOf 0x02062047 [[0xC0000000, 0xC0000000, 0xBF800000, 0], [0, 0, 0, 0],
    [0, 0xBF800000, 0xC0000000, 0xC0000000]])] demo) 2 3 4 = some (0x02062047, [[0x3E800000, 0x3E800000, 0x3F000000, 0x3F800000],
      [0x3F800000, 0x3F800000, 0x3F800000, 0x3F800000], [0x3F800000, 0x3F000000, 0x3E800000, 0x3E800000]]) := by decide +kernel
theorem test_softmax_sum : tileAfter (.trsum 1 2) (withTiles [(2, powers)] demo) 1 3 1 =
    some (0x00860447, [[0x40000000], [0x40800000], [0x40000000]]) := by decide +kernel
theorem test_softmax_alias : (match exec (.trsum 2 2) (withTiles [(2, powers)] demo) with
    | .next t => decide (t.me.cause = Cause.shape.setWidth 64 ∧ t.me.tval = 0x00860447)
    | _ => false) = true := by decide +kernel
/-- The NaN in row 1: rows 0 and 1 are committed and the restart is row 2. -/
theorem test_softmax_nan : (match exec (.trmax 1 0) ((withTiles [(0, scores.setRow 1 (rowOf 4 [0x40400000, 0x40400000, 0x7FC00001, 0x40400000]))] demo).modMe
      fun sl => { sl with fpc := 4 }) with
    | .next t => decide (t.me.cause = Cause.nan.setWidth 64 ∧ (t.me.tile 1).rowElems 0 1 = [0x40000000] ∧ (t.me.tile 1).rowElems 1 1 = [0x7FC00000] ∧
        fld t.me.restart 0 6 = 2)
    | _ => false) = true := by decide +kernel

/-- spec/11: TMULS by 0.5 halves an FP32 tile. -/
theorem test_tmuls : tileAfter (.tmuls 2 2 7) (withTiles [(2, scores)] (demoRegs [(7, 0x3F000000)])) 2 1 4 =
    some (0x02062047, [[0, 0, 0x3F000000, 0x3F800000]]) := by decide +kernel

/-- spec/06: LI s6, 256 and LIH s6, 7 build a constant. -/
theorem test_li_lih : regAfter (.li 6 256) demo 6 = some 0x100 ∧ regAfter (.lih 6 7) (demoRegs [(6, 0x100)]) 6 = some 0x0000000700000100 := by
  decide +kernel

/-! ## Rules that are easily got wrong -/

/-- R206, R212: an UNADOPT that waited for a sweep is not fetched again, so that the mark of its own chain does not stop it. -/
theorem test_waiting_instruction_is_not_fetched_again :
    (match step (({ adopted true with schedule := [.issue 0 0 none] } : State).modSlot 0 0 fun sl =>
        { sl with reissue := true, issued := some (.unadopt 3, 4) }) with
    | .next t => decide (t.me.cause = 0 ∧ fld t.me.chain 16 3 = 0 ∧ t.me.chain ≠ (adopted true).me.chain)
    | _ => false) = true := by decide +kernel

/-- R142: a copy that failed at acceptance was never accepted, and DRAIN does not wait for it. -/
theorem test_drain_passes_a_refused_copy :
    (match exec (.drain 0) (demo.modMyCore fun k => { k with copies := [{ copyOf 0 (spad 0) .held with slot := 0, accepted := false }] }) with
    | .next t => decide (t.me.waiting = .complete)
    | _ => false) = true := by decide +kernel

/-- R169: the reason of R108 stands in k.tfmt for XLATE alone, not for a copy's fault. -/
theorem test_copy_fault_format : (copyFaultInfo (copyOf 0 0 .held) 0 ⟨Cause.xlate, 5, 0, 0x100000000000FFFF⟩).tfmt = 0xFFFF := by decide +kernel

/-! ## Sealed images: tags and ciphers are opaque, so these are proved and not evaluated -/

/-- An image of no extent, as the checkpoint writes it: serial 1 under key 5. -/
def emptyImage : List Byte := ckptSeal 5 1 0xFFFFFFFF (ckptHeader [] 1)
/-- An image at host address 0x1000. -/
def withImage (s : State) (img : List Byte) : State :=
  { s with mem := (s.setBytes (hostBase + 0x1000) img).mem, ckptKey := 5, ckptSerial := 1, ckptExpiry := demo.meridian + 1 }
def restoring : State := withImage (operands quiet 0 [0x1000, 12304, 1]) emptyImage

theorem judged_mem (s : State) (c : Cmd) : (judged s c).mem = s.mem := rfl
theorem withImage_mem (s : State) (img : List Byte) : (withImage s img).mem = (s.setBytes (hostBase + 0x1000) img).mem := rfl
theorem restoring_mem : restoring.mem = ((operands quiet 0 [0x1000, 12304, 1]).setBytes (hostBase + 0x1000) emptyImage).mem :=
  withImage_mem _ _

theorem hostRead_whole {s t : State} {addr n : Nat} {bs : List Byte} (h : t.mem = (s.setBytes (hostBase + addr) bs).mem) (hn : bs.length = n) :
    (t.hostRead addr n).take n = bs := by
  subst hn
  rw [List.take_of_length_le (by rw [State.hostRead, State.bytes_length]), State.hostRead, State.bytes_of_mem h, State.bytes_setBytes]

theorem restoring_image : ((judged restoring (cmd 0 0xE)).hostRead 0x1000 12304).take 12304 = emptyImage := by
  have h : emptyImage.length = 12304 := by
    simp only [emptyImage, ckptSeal, gcmTagOf, List.length_append, gcmXor_length, List.length_map, List.length_range]
    decide +kernel
  exact hostRead_whole ((judged_mem _ _).trans restoring_mem) h

theorem witness_CommandsOfWorlds_restore : ∃ (s : State) (c : Cmd) (serial : Nat) (h image : List Byte) (recs : List (List Byte)),
    Admitted s c 0x0E ∧ s.cmdWord c.fn 3 = 1 ∧ ckptOperandsOk (judged s c) c.fn = true ∧ s.tenantsIdle = true ∧ c.hostErr = none ∧
    (judged s c).ckptAlive = true ∧ image = (judged s c).hostRead (opnd s c 1) (opnd s c 2) ∧
    (judged s c).ckptHead (image.take 12304) = some (serial, h) ∧ opnd s c 2 = ckptLen (extentBytes (ckptEntries h)) ∧
    ((List.range (ckptBlocks (ckptEntries h)).length).mapM fun i =>
      ckptOpen s.ckptKey serial i ((image.drop (12304 + 4624 * i)).take 4624)) = some recs := by
  have o1 : opnd restoring (cmd 0 0xE) 1 = 0x1000 := by decide +kernel
  have o2 : opnd restoring (cmd 0 0xE) 2 = 12304 := by decide +kernel
  have e : ckptBlocks (ckptEntries (ckptHeader [] 1)) = [] := by decide +kernel
  refine ⟨restoring, cmd 0 0xE, 1, ckptHeader [] 1, _, [], ?_, ?_, ?_, ?_, rfl, ?_, rfl, ?_, ?_, ?_⟩
  iterate 5 decide +kernel
  · rw [o1, o2, restoring_image, emptyImage]
    have k : (judged restoring (cmd 0 0xE)).ckptSerial = 1 := by decide +kernel
    have k2 : (judged restoring (cmd 0 0xE)).ckptKey = 5 := by decide +kernel
    simp only [State.ckptHead, k, k2]
    simp [List.range_succ, ckptOpen_ckptSeal]
  · decide +kernel
  · rw [e]; rfl

/-! ## CTXIN -/

theorem okThen_iff {α : Type} {r : EStateM.Result Stop State α} {f : α → State → Bool} :
    okThen r f = true ↔ ∃ a t, r = .ok a t ∧ f a t = true := by
  cases r <;> simp [okThen]

/-- The image of context index 3 at 0x210000: a header, a body that is zeros as stored, and the tag of both with each byte changed by `x`. -/
def imgHead : List Byte := imageHeader heldEntry 1 2 3 0x490 0 0
def imgTag (x : Byte) : List Byte := (gcmTagOf (Config.contextKey 9 0x2003) (headerIv imgHead) imgHead (zeros 1088)).map (· ^^^ x)
def tagLoc : Nat := 0x210480
def ctxinState (x : Byte) : State :=
  let s := ((imaging (w64 (3 * 2 ^ 32)) 0x490).modWorld 2 fun w => { w with counters := [(3, 1)] }).setBytes 0x210000 imgHead
  { s with mem := s.mem.filter (fun c => decide (c.1 < tagLoc)) ++ cellsAt tagLoc (imgTag x) ++ s.mem.filter (fun c => decide (tagLoc < c.1)) }

/-- What holds of a state with the image of CTXIN, that no cipher enters into. -/
def ctxinAt (s : State) : Bool :=
  decide (s.who = ⟨0, 15, 2, 1⟩) && decide (s.myCore.sb = []) && descThen s (spad 0x100) (fun x => decide (x = ⟨w64 (3 * 2 ^ 32), 0x210000, 0x490, 0⟩)) &&
  allPass s s.who 1 .read [(0x210000, 64), (0x210000, 0x490)] &&
  decide (seen s s.who s.byte 0x210000 64 = imgHead) &&
  decide (seenIn s s.who s.byte ((spanPieces 0x210000 0x490).take 18) = imgHead ++ zeros 1088) &&
  okThen (locate s.who (w64 tagLoc) .read s) (fun pl _ => decide (pl.loc = tagLoc)) &&
  decide (s.myCore.roomFor 0 = some 0) && decide (s.myCore.roomFor (headerSpill imgHead 0) = some 0) && !s.ctxKeyDead 2 &&
  decide (Sparse.get 0 (s.world 2).counters 3 = 1) && decide ((s.world 2).ctxKey = 9)

theorem ctxin_at_0 : ctxinAt (ctxinState 0) = true := by decide +kernel
theorem ctxin_at_1 : ctxinAt (ctxinState 1) = true := by decide +kernel
theorem ctxin_issued_0 : ctxinAt (ctxinState 0).issue = true := by decide +kernel
theorem ctxin_issued_1 : ctxinAt (ctxinState 1).issue = true := by decide +kernel

theorem ctxin_start : ∀ x ∈ ([0, 1] : List Byte), NoPort (ctxinState x) [4] (some 3) ∧ (ctxinState x).myWorld = 2 ∧
    (ctxinState x).cur = ⟨0, 15, 2, none⟩ ∧ (ctxinState x).src 4 = spad 0x100 := by decide +kernel

theorem get_past (d : Byte) {l m : Sparse Byte} {k : Nat} (h : ∀ c ∈ l, c.1 ≠ k) : Sparse.get d (l ++ m) k = Sparse.get d m k := by
  induction l with
  | nil => rfl
  | cons c l ih =>
    rw [List.cons_append, Sparse.get, if_neg (h c List.mem_cons_self)]
    exact ih fun x hx => h x (List.mem_cons_of_mem _ hx)

theorem get_cells (d : Byte) (m : Sparse Byte) {loc i : Nat} {bs : List Byte} (h : i < bs.length) :
    Sparse.get d (cellsAt loc bs ++ m) (loc + i) = bs[i] := by
  induction bs generalizing loc i with
  | nil => simp at h
  | cons b bs ih =>
    cases i with
    | zero => simp [cellsAt]
    | succ i =>
      simp only [List.length_cons] at h
      rw [cellsAt, List.cons_append, Sparse.get, if_neg (by omega), show loc + (i + 1) = loc + 1 + i by omega, ih (by omega)]
      rfl

theorem ctxin_tag (x : Byte) {i : Nat} (h : i < (imgTag x).length) : (ctxinState x).byte (tagLoc + i) = (imgTag x)[i] := by
  unfold State.byte ctxinState
  simp only
  rw [List.append_assoc, get_past, get_cells]
  intro c hc
  have := (List.mem_filter.mp hc).2
  have := of_decide_eq_true this
  omega

/-- The last piece of the image is the tag. -/
theorem ctxin_image {s : State} {x : Byte} (h : ctxinAt s = true) (hm : s.mem = (ctxinState x).mem) :
    seen s s.who s.byte 0x210000 0x490 = imgHead ++ zeros 1088 ++ imgTag x := by
  simp only [ctxinAt, Bool.and_eq_true, decide_eq_true_eq] at h
  obtain ⟨⟨⟨⟨⟨⟨⟨-, h⟩, hl⟩, -⟩, -⟩, -⟩, -⟩, -⟩ := h
  obtain ⟨pl, u, e, hp⟩ := okThen_iff.mp hl
  simp only [decide_eq_true_eq] at hp
  have hs : spanPieces 0x210000 0x490 = (spanPieces 0x210000 0x490).take 18 ++ [(w64 tagLoc, 16)] := by decide +kernel
  unfold seen
  rw [hs]
  unfold seenIn at h ⊢
  rw [List.flatMap_append, h]
  congr 1
  simp only [List.flatMap_cons, List.flatMap_nil, e, List.append_nil, hp]
  have hlen : (imgTag x).length = 16 := by simp [imgTag, gcmTagOf]
  refine List.ext_getElem (by simp [hlen]) fun i h1 h2 => ?_
  rw [List.getElem_map, List.getElem_range, ← ctxin_tag x h2]
  simp only [State.byte, hm]

theorem issue_same (s : State) : s.issue.mem = s.mem ∧ s.issue.cur = s.cur := by
  have h := (State.issue_frame s).1.1
  generalize s.issue = t at h ⊢
  exact ⟨(congrArg State.mem h).trans rfl, (congrArg State.cur h).trans rfl⟩

/-- What CTXIN reads of the image, and what stands there. -/
theorem ctxin_reads {s : State} {x : Byte} (h : ctxinAt s = true) (hm : s.mem = (ctxinState x).mem) (hcur : s.cur = ⟨0, 15, 2, none⟩) :
    ∃ (u v t : State) (caps : List Cap) (bs : List Byte),
    readCtxDesc (spad 0x100) s = .ok (⟨w64 (3 * 2 ^ 32), 0x210000, 0x490, 0⟩, caps) u ∧ u.myCore.roomFor 0 = some 0 ∧
    u.ctxKeyDead 2 = false ∧ engineRead s.who 0x210000 64 u = .ok imgHead v ∧ v.myCore.roomFor (headerSpill imgHead 0) = some 0 ∧
    Sparse.get 0 (v.world 2).counters 3 = 1 ∧ engineRead s.who 0x210000 0x490 v = .ok bs t ∧
    t.imageKey 2 3 = Config.contextKey 9 0x2003 ∧ bs = imgHead ++ zeros 1088 ++ imgTag x := by
  have hi := ctxin_image (x := x) h hm
  simp only [ctxinAt, Bool.and_eq_true, Bool.not_eq_true', decide_eq_true_eq] at h
  obtain ⟨⟨⟨⟨⟨⟨⟨⟨⟨⟨⟨hw, hb⟩, hd⟩, hp⟩, h1⟩, -⟩, -⟩, hr⟩, hr2⟩, hk⟩, hc⟩, hk2⟩ := h
  have hcore : s.who.core = 0 := by rw [hw]
  have hsb : (s.core s.who.core).sb = [] := by
    rw [hcore]
    simpa only [State.myCore, hcur] using hb
  have same : ∀ {t : State}, Alike s.who s t → t.myCore.roomFor = s.myCore.roomFor ∧ t.world = s.world ∧ t.meridian = s.meridian := by
    intro t e
    have h2 : t.cur = s.cur := by rw [e.touched.device]
    have h3 : t.meridian = s.meridian := by rw [e.touched.device]
    refine ⟨?_, funext e.touched.world_eq, h3⟩
    unfold State.myCore
    rw [h2, e.touched.core]
    rfl
  simp only [descThen, Bool.and_eq_true, decide_eq_true_eq] at hd
  obtain ⟨⟨⟨hd1, hd2⟩, hd3⟩, hd4⟩ := hd
  obtain ⟨cs, u, hu, eu⟩ := readSpan_passes (m := Mod.none) (.inl rfl) (allPass_of hd3)
  have hp1 := allPass_of hp
  have pass : ∀ {t : State}, Alike s.who s t → ∀ q ∈ [((0x210000 : W64), 64), (0x210000, 0x490)], AllPass t s.who 1 .read [q] := by
    intro t e q hq
    exact fun q' hq' p hp' => (hp1 q' (List.mem_singleton.mp hq' ▸ hq) p hp').imp id fun ⟨y, hy⟩ => ⟨y, e.steady _ _ _ hy⟩
  have alike : ∀ {t : State} {n : Nat}, Alike s.who s t → (0x210000, n) ∈ [((0x210000 : W64), 64), (0x210000, 0x490)] →
      seen t s.who t.byte 0x210000 n = seen s s.who s.byte 0x210000 n := by
    intro t n e hn
    have hb : t.byte = s.byte := by funext y; simp only [State.byte, e.mem]
    rw [hb]
    exact seenIn_alike e _ fun p hp' => (hp1 _ hn p hp').2
  obtain ⟨cs2, v, hv, ev⟩ := engineSpan_passes (s := u) (pass eu (0x210000, 64) (by decide))
  have ev' := eu.trans ev
  obtain ⟨cs3, t, ht, et⟩ := engineSpan_passes (s := v) (pass ev' (0x210000, 0x490) (by decide))
  have et' := ev'.trans et
  rw [alike eu (by decide), h1] at hv
  rw [alike ev' (by decide), hi] at ht
  refine ⟨u, v, t, cs, _, ?_, ?_, ?_, ?_, ?_, ?_, ?_, ?_, rfl⟩
  · unfold readCtxDesc
    rw [if_neg (not_not.mpr hd1), if_neg (not_not.mpr hd2)]
    have e : readMine (spad 0x100) 32 8 Mod.none s = readSpan s.who (spad 0x100) 32 8 Mod.none s := rfl
    simp only [M.bind_apply, M.pure_apply, e, hu]
    rw [← hd4]
    rfl
  · rw [(same eu).1]; exact hr
  · simp only [State.ctxKeyDead, (same eu).2.1, (same eu).2.2] at hk ⊢
    exact hk
  · unfold engineRead
    simp only [M.bind_apply, hv, M.pure_apply]
  · rw [(same ev').1]; exact hr2
  · rw [(same ev').2.1]; exact hc
  · unfold engineRead
    simp only [M.bind_apply, ht, M.pure_apply]
  · unfold State.imageKey
    rw [(same et').2.1, hk2]
    rfl

theorem imgTag_same : imgTag 0 = gcmTagOf (Config.contextKey 9 0x2003) (headerIv imgHead) imgHead (zeros 1088) := by simp [imgTag]

theorem imgTag_other : imgTag 1 ≠ gcmTagOf (Config.contextKey 9 0x2003) (headerIv imgHead) imgHead (zeros 1088) := by
  intro h
  have := congrArg List.head? h
  simp only [imgTag, gcmTagOf, List.map_map, List.range_succ_eq_map, List.map_cons, List.head?_cons, Option.some.injEq] at this
  generalize Config.gcmTag _ _ _ _ _ = b at this
  revert b
  decide

theorem imgHead_facts : headerRows imgHead = some 0 ∧ 0x490 = fld (wordIn imgHead 16) 0 32 ∧ fld (wordIn imgHead 0) 16 48 = 0x513743580001 ∧
    fld (wordIn imgHead 8) 12 4 = 2 ∧ fld (wordIn imgHead 8) 32 32 = 1 ∧ imgHead.length = 64 := by decide +kernel

theorem image_tail (x : Byte) : (imgHead ++ zeros 1088 ++ imgTag x).drop 0x480 = imgTag x ∧
    ((imgHead ++ zeros 1088 ++ imgTag x).drop 64).take 1088 = zeros 1088 := by
  have h : imgHead.length = 64 := imgHead_facts.2.2.2.2.2
  have z : (zeros 1088).length = 1088 := List.length_replicate
  constructor
  · exact List.drop_left' (by rw [List.length_append, h, z])
  · rw [List.append_assoc, List.drop_left' h, List.take_left' z]

theorem ctxin_witness {x : Byte} (hx : x ∈ ([0, 1] : List Byte)) (hat : ctxinAt (ctxinState x).issue = true) {same : Bool}
    (ht : same = true ↔ imgTag x = gcmTagOf (Config.contextKey 9 0x2003) (headerIv imgHead) imgHead (zeros 1088)) :
    ∃ (s u v t : State) (d a : Reg) (x : CopyDesc) (caps : List Cap) (index rows n i : Nat) (h bs : List Byte) (key : Nat),
    NoPort s [a] (some d) ∧ s.cur.slot = 15 ∧ readCtxDesc (s.src a) s.issue = .ok (x, caps) u ∧ index = fld x.mb0 32 12 ∧ fld x.mb0 44 20 = 0 ∧
    fld x.mb0 0 32 = 0 ∧ x.size = 0 ∧ x.src.toNat % 16 = 0 ∧ fld x.src 61 3 = 0 ∧ (u.myCore.roomFor 0).isSome = true ∧
    u.ctxKeyDead s.myWorld = false ∧ engineRead s.who x.src 64 u = .ok h v ∧ headerRows h = some rows ∧ n = fld (wordIn h 16) 0 32 ∧
    fld (wordIn h 0) 16 48 = 0x513743580001 ∧ fld (wordIn h 8) 12 4 = s.myWorld ∧ n ≤ x.dst.toNat ∧
    v.myCore.roomFor (headerSpill h rows) = some i ∧ fld (wordIn h 8) 32 32 = Sparse.get 0 (v.world s.myWorld).counters index ∧
    engineRead s.who x.src n v = .ok bs t ∧ key = t.imageKey s.myWorld index ∧
    (same = true ↔ bs.drop (n - 16) = gcmTagOf key (headerIv h) h ((bs.drop 64).take (n - 80))) := by
  obtain ⟨n1, n2, n3, n4⟩ := ctxin_start x hx
  obtain ⟨u, v, t, caps, bs, h1, h2, h3, h4, h5, h6, h7, h8, rfl⟩ := ctxin_reads hat (issue_same _).1 ((issue_same _).2.trans n3)
  rw [State.issue_who] at h4 h7
  obtain ⟨f1, f2, f3, f4, f5, -⟩ := imgHead_facts
  obtain ⟨i1, i2⟩ := image_tail x
  refine ⟨ctxinState x, u, v, t, 3, 4, ⟨w64 (3 * 2 ^ 32), 0x210000, 0x490, 0⟩, caps, 3, 0, 0x490, 0, imgHead, _, _, n1, by rw [n3], n4 ▸ h1, ?_, ?_,
    ?_, rfl, ?_, ?_, by rw [h2]; rfl, n2 ▸ h3, h4, f1, f2, f3, n2 ▸ f4, ?_, h5, by rw [n2, f5, h6], h7, rfl, ?_⟩
  iterate 6 decide +kernel
  · rw [n2, h8, show 0x490 - 16 = 0x480 from rfl, show 0x490 - 80 = 1088 from rfl, i1, i2]
    exact ht

theorem witness_ContextImages_tag (same : Bool) :
    ∃ (s u v t : State) (d a : Reg) (x : CopyDesc) (caps : List Cap) (index rows n i : Nat) (h bs : List Byte) (key : Nat),
    NoPort s [a] (some d) ∧ s.cur.slot = 15 ∧ readCtxDesc (s.src a) s.issue = .ok (x, caps) u ∧ index = fld x.mb0 32 12 ∧ fld x.mb0 44 20 = 0 ∧
    fld x.mb0 0 32 = 0 ∧ x.size = 0 ∧ x.src.toNat % 16 = 0 ∧ fld x.src 61 3 = 0 ∧ (u.myCore.roomFor 0).isSome = true ∧
    u.ctxKeyDead s.myWorld = false ∧ engineRead s.who x.src 64 u = .ok h v ∧ headerRows h = some rows ∧ n = fld (wordIn h 16) 0 32 ∧
    fld (wordIn h 0) 16 48 = 0x513743580001 ∧ fld (wordIn h 8) 12 4 = s.myWorld ∧ n ≤ x.dst.toNat ∧
    v.myCore.roomFor (headerSpill h rows) = some i ∧ fld (wordIn h 8) 32 32 = Sparse.get 0 (v.world s.myWorld).counters index ∧
    engineRead s.who x.src n v = .ok bs t ∧ key = t.imageKey s.myWorld index ∧
    (same = true ↔ bs.drop (n - 16) = gcmTagOf key (headerIv h) h ((bs.drop 64).take (n - 80))) := by
  cases same
  · exact ctxin_witness (x := 1) (by decide) ctxin_issued_1 (by simp only [Bool.false_eq_true, false_iff]; exact imgTag_other)
  · exact ctxin_witness (x := 0) (by decide) ctxin_issued_0 (by simp only [true_iff]; exact imgTag_same)

/-- CTXIN completes on the same state, whose image has its tag. -/
theorem witness_ContextImagesComplete_in : ∃ (s : State) (d a : Reg) (x : CopyDesc) (index rows n i : Nat) (h bs : List Byte) (key : Nat),
    NoPort s [a] (some d) ∧ s.cur.slot = 15 ∧ s.myCore.sb = [] ∧ CtxDescAt s (s.src a) x ∧ index = fld x.mb0 32 12 ∧ fld x.mb0 44 20 = 0 ∧
    fld x.mb0 6 26 = 0 ∧ x.src.toNat % 16 = 0 ∧ fld x.src 61 3 = 0 ∧ s.ctxKeyDead s.myWorld = false ∧ fld x.mb0 0 32 = 0 ∧ x.size = 0 ∧
    (s.myCore.roomFor 0).isSome = true ∧ AllPass s s.who 1 .read [(x.src, 64), (x.src, n)] ∧ h = seen s s.who s.byte x.src 64 ∧
    bs = seen s s.who s.byte x.src n ∧ headerRows h = some rows ∧ n = fld (wordIn h 16) 0 32 ∧ fld (wordIn h 0) 16 48 = 0x513743580001 ∧
    fld (wordIn h 8) 12 4 = s.myWorld ∧ n ≤ x.dst.toNat ∧ s.myCore.roomFor (headerSpill h rows) = some i ∧
    fld (wordIn h 8) 32 32 = Sparse.get 0 (s.world s.myWorld).counters index ∧ key = s.imageKey s.myWorld index ∧
    bs.drop (n - 16) = gcmTagOf key (headerIv h) h ((bs.drop 64).take (n - 80)) := by
  have hat := ctxin_at_0
  have hi := ctxin_image (x := 0) hat rfl
  obtain ⟨n1, n2, n3, n4⟩ := ctxin_start 0 (by decide)
  obtain ⟨f1, f2, f3, f4, f5, -⟩ := imgHead_facts
  obtain ⟨i1, i2⟩ := image_tail 0
  simp only [ctxinAt, descThen, Bool.and_eq_true, Bool.not_eq_true', decide_eq_true_eq] at hat
  obtain ⟨⟨⟨⟨⟨⟨⟨⟨⟨⟨⟨hw, hb⟩, ⟨⟨⟨hd1, hd2⟩, hd3⟩, hd4⟩⟩, hp⟩, h1⟩, -⟩, -⟩, hr⟩, hr2⟩, hk⟩, hc⟩, hk2⟩ := hat
  refine ⟨ctxinState 0, 3, 4, ⟨w64 (3 * 2 ^ 32), 0x210000, 0x490, 0⟩, 3, 0, 0x490, 0, imgHead, _, _, n1, by rw [n3], hb,
    n4 ▸ ⟨hd1, hd2, allPass_of hd3, hd4.symm⟩, ?_, ?_, ?_, ?_, ?_, n2 ▸ hk, ?_, rfl, by rw [hr]; rfl, allPass_of hp, h1.symm, rfl, f1, f2, f3, n2 ▸ f4, ?_, hr2,
    by rw [n2, f5, hc], rfl, ?_⟩
  iterate 7 decide +kernel
  · rw [hi, n2, State.imageKey, hk2, show 0x490 - 16 = 0x480 from rfl, show 0x490 - 80 = 1088 from rfl, i1, i2]
    exact imgTag_same

/-! ## What no size bounds: buffers and queue SRAM that are full -/

/-- World 2 with its swap area full and the queue SRAM of clusters 0 to 7 taken by a log. -/
def crowd (s : State) : State := { s with worlds := [(2, { demo.world 2 with
  logs := [(5, ⟨(List.range 8).flatMap fun c => List.replicate Config.queueSramSegments ⟨c, none⟩, [], 0, [], []⟩)], swapUsed := List.range 1024 })] }

theorem crowd_sram {s t : State} (h : t.worlds = (crowd s).worlds) {c : Nat} (hc : c < 8) : Config.queueSramSegments ≤ t.sramSegments c := by
  refine le_trans ?_ (Nat.le_add_left _ _)
  rw [h]
  simp only [crowd, List.map_cons, List.map_nil, List.sum_cons, List.sum_nil, Nat.add_zero, World.logSegments]
  refine le_trans ?_ (Nat.le_add_left _ _)
  have : (List.replicate Config.queueSramSegments (⟨c, none⟩ : LogSeg)).Sublist
      (((List.range 8).flatMap fun c => List.replicate Config.queueSramSegments (⟨c, none⟩ : LogSeg)).filter fun g =>
        g.swapped.isNone && decide (g.cluster = c)) := by
    have e : List.replicate Config.queueSramSegments (⟨c, none⟩ : LogSeg) =
        (List.replicate Config.queueSramSegments (⟨c, none⟩ : LogSeg)).filter fun g => g.swapped.isNone && decide (g.cluster = c) := by
      rw [List.filter_replicate]; simp
    rw [e]
    exact (List.sublist_flatten_of_mem (List.mem_map.mpr ⟨c, List.mem_range.mpr hc, rfl⟩ :
      List.replicate Config.queueSramSegments (⟨c, none⟩ : LogSeg) ∈ (List.range 8).map _)).filter _
  simpa using this.length_le

theorem crowd_swap {s t : State} (h : t.worlds = (crowd s).worlds) (w : Nat) (hw : w = 2) : t.freeSwap w = none := by
  subst hw
  have : (t.world 2).swapUsed = List.range 1024 := by
    unfold State.world
    rw [h]
    simp only [crowd, Sparse.get, if_true]
  unfold State.freeSwap
  rw [this, List.find?_eq_none]
  intro n hn
  simpa using hn

theorem issue_worlds (s : State) : s.issue.worlds = s.worlds := by
  have h := (State.issue_frame s).1.1
  generalize s.issue = t at h ⊢
  exact (congrArg State.worlds h).trans rfl

/-- A child was delivered, and no level has room for the continuation. -/
def crowdedFork : State := crowd (memRegs.modMe fun sl => { sl with spawning := some (packetOf 0).w }) |>.modMyCore fun k =>
  { k with deques := k.deques.set 0 { Deque.init with hw := List.replicate 64 (packetOf 0) } }

theorem crowdedFork_others : ∀ w ∈ List.range 16, w ≠ 2 → crowdedFork.issue.worldSegments 0 w = 0 := by decide +kernel

/-- No room at any level: the hardware part is full, nothing is spilled, the SRAM is full and no segment can be swapped out. -/
theorem pushLocal_full {s : State} {p : Packet} {b : Nat} (h1 : (vat Deque.init (s.core 0).deques b).hw.length = 64)
    (h2 : (vat Deque.init (s.core 0).deques b).spill = []) (h3 : Config.queueSramSegments ≤ s.sramSegments 0) (h4 : s.freeSwap 2 = none)
    (h5 : ∀ w ∈ List.range 16, w ≠ 2 → s.worldSegments 0 w = 0) : s.pushLocal 0 b p = none := by
  have hw : s.swapWorld 0 = none := by
    unfold State.swapWorld
    rw [List.filter_eq_nil_iff.mpr]
    · rfl
    · intro w hm
      by_cases h : w = 2
      · simp [h, h4]
      · simp [h5 w hm h]
  have ho : s.swapOut 0 = none := by
    unfold State.swapOut
    rw [hw]
  unfold State.pushLocal
  simp only [h1, h2, spillHasRoom, Bool.false_eq_true, if_false, Nat.lt_irrefl]
  rw [show clusterOf 0 = 0 from rfl, if_neg (Nat.not_lt.mpr h3), ho]
  rfl

/-- A log's segments are full, and neither the queue SRAM of its domain nor the swap area has room for another. -/
theorem growLog_full {s : State} (h1 : ((s.world 2).log 0).segs = []) (h2 : s.freeSwap 2 = none)
    (h3 : ∀ c < 8, Config.queueSramSegments ≤ s.sramSegments c) : s.growLog 2 0 = none := by
  unfold State.growLog
  simp only [h1, List.length_nil, Nat.mul_zero, Nat.not_lt_zero, if_false, Nat.zero_mul, Nat.zero_add]
  rw [List.find?_eq_none.mpr]
  · simp only [h2]
  · intro c hc
    simp only [List.map_id', List.mem_range] at hc
    simp only [decide_eq_true_eq, Nat.not_lt]
    exact h3 c hc

theorem crowdedFork_worlds : crowdedFork.issue.worlds = (crowd (memRegs.modMe fun sl => { sl with spawning := some (packetOf 0).w })).worlds :=
  issue_worlds _
theorem crowdedFork_deque : crowdedFork.cur.core = 0 ∧ crowdedFork.me.band = 0 ∧
    (vat Deque.init (crowdedFork.issue.core 0).deques 0).hw.length = 64 ∧ (vat Deque.init (crowdedFork.issue.core 0).deques 0).spill = [] := by
  decide +kernel

theorem witness_ForkAndJoin_full : ∃ (s : State) (w : Vector W64 8), s.cur.slot < 14 ∧ s.me.spawning = some w ∧
    s.issue.pushLocal s.cur.core s.me.band ⟨continuation s.issue.me s.myWorld s.behind, s.cycle, false⟩ = none := by
  refine ⟨crowdedFork, (packetOf 0).w, ?_, ?_, ?_⟩
  · decide +kernel
  · decide +kernel
  · obtain ⟨h1, h2, h3, h4⟩ := crowdedFork_deque
    rw [h1, h2]
    exact pushLocal_full h3 h4 (crowd_sram crowdedFork_worlds (by decide)) (crowd_swap crowdedFork_worlds 2 rfl) crowdedFork_others

/-- APPEND where neither the queue SRAM nor the swap area has room. -/
theorem witness_AppendLogs_full : ∃ (s u : State) (d a : Reg) (pl : Place), NoPort s [d, a] none ∧
    locate s.who (s.src d) .write s.issue = .ok pl u ∧ s.issue.growLog s.myWorld (domainOfLoc pl.loc) = none := by
  have hl : okThen (locate (crowd memRegs).who ((crowd memRegs).src 2) .write (crowd memRegs).issue) (fun pl _ => decide (domainOfLoc pl.loc = 0)) = true := by
    decide +kernel
  have hp : NoPort (crowd memRegs) [2, 3] none ∧ (crowd memRegs).myWorld = 2 := by decide +kernel
  obtain ⟨pl, u, h, hd⟩ := okThen_iff.mp hl
  have hw := issue_worlds (crowd memRegs)
  refine ⟨crowd memRegs, u, 2, 3, pl, hp.1, h, ?_⟩
  rw [of_decide_eq_true hd, hp.2]
  refine growLog_full ?_ (crowd_swap hw 2 rfl) fun c hc => crowd_sram hw hc
  unfold State.world
  rw [hw]
  rfl

/-! ## Links -/

/-- A group of one flit, as its sender makes it: zeros as stored, and their tag. -/
def goodHeader : W64 := w64 (2 ^ 62 + 2 * 2 ^ 58)
def goodGroup (p : Port) : List Flit :=
  [⟨goodHeader, zeros 104 ++ gcmTagOf (p.rxGen 0).key (groupIv p.peerPort (!p.side) 0 (p.rxGen 0).counter) (wordsLe [goodHeader]) (zeros 104)⟩]

theorem goodGroup_opens (p : Port) : ∃ parts, p.open_ 0 (goodGroup p) = some parts := by
  generalize hg : gcmTagOf (p.rxGen 0).key (groupIv p.peerPort (!p.side) 0 (p.rxGen 0).counter) (wordsLe [goodHeader]) (zeros 104) = g
  have hlen : g.length = 16 := by rw [← hg]; simp [gcmTagOf]
  have hz : (zeros 104).length = 104 := List.length_replicate
  have hi : isGroup (goodGroup p) = true := by
    have h1 : flitEnd goodHeader = true := by decide +kernel
    simp [isGroup, goodGroup, hg, hlen, hz, h1]
  have hk : (goodGroup p).all (fun f => decide (flitKind f.header ≤ 2)) = true := by
    have h1 : flitKind goodHeader ≤ 2 := by decide +kernel
    simp [goodGroup, h1]
  unfold Port.open_ openGroup
  rw [if_pos (by rw [hi, hk]; rfl)]
  simp only [goodGroup, hg, List.flatMap_cons, List.flatMap_nil, List.append_nil, List.length_append, hlen, hz, List.map_cons, List.map_nil,
    Nat.add_sub_cancel]
  rw [List.drop_left' hz, List.take_left' hz, hg, if_pos rfl]
  exact ⟨_, rfl⟩

theorem witness_Links_group : ∃ (s : State) (p g : Nat) (fs : List Flit) (f : Flit) (parts : List (W64 × List Byte)), (s.port p).up = true ∧
    fs.head? = some f ∧ flitKind f.header ≤ 2 ∧ g = flitGen f.header ∧ ((s.port p).rxGen g).good s.meridian = true ∧
    (s.port p).open_ g fs = some parts := by
  obtain ⟨parts, h⟩ := goodGroup_opens ((demo.setPort 1 portUp).port 1)
  exact ⟨demo.setPort 1 portUp, 1, 0, _, _, parts, by decide +kernel, rfl, by decide +kernel, by decide +kernel, by decide +kernel, h⟩

theorem witness_Links_full : ∃ (s : State) (p : Nat), (s.port p).up = true ∧ (s.port p).held = false ∧ 3 * Config.ingressBytes < 4 * s.ingress p := by
  refine ⟨demo.setPort 1 { portUp with rx := [⟨2, 9, List.replicate Config.ingressBytes 0, 0⟩] }, 1, by decide +kernel, by decide +kernel, ?_⟩
  have h : (demo.setPort 1 { portUp with rx := [⟨2, 9, List.replicate Config.ingressBytes 0, 0⟩] }).ingress 1 = Config.ingressBytes := by
    have e : ((demo.setPort 1 { portUp with rx := [⟨2, 9, List.replicate Config.ingressBytes 0, 0⟩] }).port 1) =
      { portUp with rx := [⟨2, 9, List.replicate Config.ingressBytes 0, 0⟩] } := rfl
    have n : (demo.setPort 1 { portUp with rx := [⟨2, 9, List.replicate Config.ingressBytes 0, 0⟩] }).engCmds = [] := rfl
    unfold State.ingress State.takesIn
    rw [e, n]
    simp [portUp, Port.init]
  rw [h]
  have : 0 < Config.ingressBytes := Nat.succ_pos _
  omega

/-! ## The hypotheses of the statements are met -/

theorem witness_TwoSourceArithmetic :
    (∀ q ∈ twoSource, (let s : State := demo; let d : Reg := 31; let a : Reg := 30; let x : Option Reg := some 0; decide (NoPort s (sources d a x) (some d))) = true) ∧
    (∀ q ∈ twoSource, (let s : State := demo; let d : Reg := 3; let a : Reg := 4; let x : Option Reg := none; decide (NoPort s (sources d a x) (some d))) = true) := by decide +kernel
theorem witness_OneSourceArithmetic :
    (∀ q ∈ oneSource, (let s : State := demo; let d : Reg := 3; let a : Reg := 4; decide (NoPort s [a] (some d))) = true) ∧
    (∀ q ∈ unsignedPick, (let s : State := demo; let d : Reg := 3; let a : Reg := 4; decide (NoPort s [d, a] (some d))) = true) := by decide +kernel
theorem witness_Predicates :
    (∀ q ∈ compares, (let s : State := demo; let p : Num3 := 7; let a : Reg := 4; let x : Option Reg := none; decide (NoPort s (a :: x.toList) none)) = true) ∧
    ((let s : State := demo; let d : Reg := 3; let a : Reg := 4; decide (NoPort s [a] (some d))) = true) ∧
    ((let s : State := demo; let d : Reg := 3; decide (NoPort s [] (some d))) = true) := by decide +kernel
theorem witness_Immediates :
    ((let s : State := demo; let d : Reg := 0; let imm : W64 := 5; decide (NoPort s [d] (some d))) = true) ∧
    ((let s : State := demo; let d : Reg := 3; let imm : W64 := 5; decide (NoPort s [] (some d))) = true) ∧
    ((let s : State := demo; let d : Reg := 3; let imm : W32 := 5; decide (NoPort s [d] (some d))) = true) ∧
    (∀ q ∈ immShifts, (let s : State := demo; let d : Reg := 3; let n : BitVec 6 := 63; decide (NoPort s [d] (some d))) = true) ∧
    ((let s : State := demo; let p : Num3 := 0; let a : Reg := 1; let c : BitVec 2 := 3; let imm : W64 := 5; decide (NoPort s [a] none)) = true) := by decide +kernel
theorem witness_JumpsAndBranches :
    ((let s : State := demoRegs [(4, 0x200010), (28, 0x200020)]; let a : Reg := 4; decide (NoPort s [a] none) && decide (flag (s.src a) 0 = false) && decide (fld (s.src a) 56 8 = 0)) = true) ∧
    ((let s : State := demoRegs [(4, 0x200010), (28, 0x200020)]; let d : Reg := 3; let a : Reg := 4; decide (NoPort s [a] (some d)) && decide (flag (s.src a) 0 = false) && decide (fld (s.src a) 56 8 = 0)) = true) ∧
    ((let s : State := demoRegs [(4, 0x200010), (28, 0x200020)]; decide (flag (s.src 28) 0 = false) && decide (fld (s.src 28) 56 8 = 0)) = true) := by decide +kernel
theorem witness_JumpTargetTraps :
    ((let s : State := demoRegs [(4, 0x200001)]; let a : Reg := 4; let d : Reg := 3; decide (NoPort s [a] (some d)) && decide (flag (s.src a) 0 = true)) = true) ∧
    ((let s : State := demoRegs [(4, 0x100000000000000)]; let a : Reg := 4; let d : Reg := 3; decide (NoPort s [a] (some d)) && decide (flag (s.src a) 0 = false) && decide (fld (s.src a) 56 8 ≠ 0)) = true) ∧
    ((let s : State := demoRegs [(28, 0x200001)]; let a : Reg := 4; let d : Reg := 3; decide (NoPort s [a] (some d)) && decide (flag (s.src 28) 0 = true)) = true) ∧
    ((let s : State := demoRegs [(28, 0x100000000000000)]; let a : Reg := 4; let d : Reg := 3; decide (NoPort s [a] (some d)) && decide (flag (s.src 28) 0 = false) && decide (fld (s.src 28) 56 8 ≠ 0)) = true) := by decide +kernel
theorem witness_QueuePorts :
    (∀ q ∈ twoSource, (let s : State := ported true false [5, 6]; let d : Reg := 3; let a : Reg := 30; let x : Option Reg := none; decide (s.myCore.portIn s.cur.slot = true) && decide (qi ∈ sources d a x) && decide (¬(s.myCore.portOut s.cur.slot = true ∧ d = qo)) && consThen (s.myCore.inq) fun v rest => true) = true) ∧
    (∀ q ∈ twoSource, (let s : State := ported true true []; let d : Reg := 3; let a : Reg := 30; let x : Option Reg := none; decide (s.myCore.portIn s.cur.slot = true) && decide (qi ∈ sources d a x) && decide (¬(s.myCore.portOut s.cur.slot = true ∧ d = qo)) && decide (s.myCore.inq = [])) = true) ∧
    ((let s : State := nextCore (ported false true []) 2 []; let a : Reg := 4; decide (s.myCore.portOut s.cur.slot = true) && decide (¬(s.myCore.portIn s.cur.slot = true ∧ a = qi)) && decide ((s.core (downstream s.cur.core)).world = s.myWorld) && decide ((s.core (downstream s.cur.core)).inq.length < 16)) = true) ∧
    ((let s : State := nextCore (ported false true []) 2 (List.replicate 16 1); let a : Reg := 4; decide (s.myCore.portOut s.cur.slot = true) && decide (¬(s.myCore.portIn s.cur.slot = true ∧ a = qi)) && decide ((s.core (downstream s.cur.core)).world = s.myWorld) && decide (16 ≤ (s.core (downstream s.cur.core)).inq.length)) = true) ∧
    ((let s : State := nextCore (ported false true []) 3 []; let a : Reg := 4; decide (s.myCore.portOut s.cur.slot = true) && decide ((s.core (downstream s.cur.core)).world ≠ s.myWorld)) = true) := by decide +kernel
theorem witness_RegisterWrite :
    ((let s : State := demo; let c : Nat := 0; let n : Nat := 0; let r : Reg := 0; let v : W64 := 5; decide (r = 0)) = true) ∧
    ((let s : State := ported true true []; let c : Nat := 0; let n : Nat := 0; let r : Reg := qi; let v : W64 := 5; decide (r = qi) && decide ((s.core c).portIn n = true)) = true) ∧
    ((let s : State := ported true true []; let c : Nat := 0; let n : Nat := 0; let r : Reg := qo; let v : W64 := 5; decide (r = qo) && decide ((s.core c).portOut n = true)) = true) ∧
    ((let s : State := demo; let c : Nat := 0; let n : Nat := 0; let r : Reg := 30; let v : W64 := 5; decide (r ≠ 0) && decide (¬(r = qi ∧ (s.core c).portIn n = true)) && decide (¬(r = qo ∧ (s.core c).portOut n = true)) && let q := (3 : Reg); decide (q ≠ r)) = true) ∧
    ((let s : State := demo; let c : Nat := 0; let n : Nat := 0; let r : Reg := 30; let v : W64 := 5; decide (r ≠ 0) && decide (¬(r = qi ∧ (s.core c).portIn n = true)) && decide (¬(r = qo ∧ (s.core c).portOut n = true)) && let m := (3 : Nat); decide (m ≠ n)) = true) ∧
    ((let s : State := ported true true []; let c : Nat := 0; let n : Nat := 0; let r : Reg := qo; let v : W64 := 5; decide (r = qo) && decide ((s.core c).portOut n = true) && let m := (3 : Nat); true) = true) ∧
    ((let s : State := demo; let c : Nat := 0; let n : Nat := 0; let r : Reg := 30; let v : W64 := 5; decide (r ≠ 0) && decide (¬(r = qi ∧ (s.core c).portIn n = true)) && decide (¬(r = qo ∧ (s.core c).portOut n = true))) = true) := by decide +kernel
theorem witness_Loads :
    (∀ q ∈ loads, (let s : State := memRegs; let d : Reg := 7; let a : Reg := 1; let off : W64 := 1; let m : Mod := Mod.none; decide (NoPort s [a] (some d)) && okThen (checkAccess s.who (s.src a + off * w64 q.2.1) q.2.1 .read [.read] s.issue) fun r_ u => let pl := r_.1; let cap := r_.2; okThen (loadPlace s.who pl q.2.1 m (s.src a + off * w64 q.2.1) u) fun bs t => true) = true) ∧
    (∀ q ∈ loads, (let s : State := memRegs; let d : Reg := 7; let a : Reg := 2; let off : W64 := 0; let m : Mod := ⟨1, 3, 1⟩; decide (NoPort s [a] (some d)) && okThen (checkAccess s.who (s.src a + off * w64 q.2.1) q.2.1 .read [.read] s.issue) fun r_ u => let pl := r_.1; let cap := r_.2; okThen (loadPlace s.who pl q.2.1 m (s.src a + off * w64 q.2.1) u) fun bs t => true) = true) := by decide +kernel
theorem witness_Stores :
    (∀ q ∈ stores, (let s : State := State.setBank (buffered memRegs (spadLoc 0 8)) (spadLoc 0 8) { Bank.init with holder := some ⟨1, 3, 99⟩ }; let d : Reg := 3; let a : Reg := 1; let off : W64 := 1; let m : Mod := ⟨2, 3, 0⟩; decide (NoPort s [d, a] none) && errThen (releaseAt m.order m.scope s.issue) fun e_ v => decide (e_ = (.wait (.blocked true)))) = true) ∧
    (∀ q ∈ stores, (let s : State := memRegs; let d : Reg := 3; let a : Reg := 1; let off : W64 := 1; let m : Mod := Mod.none; decide (NoPort s [d, a] none) && okThen (releaseAt m.order m.scope s.issue) fun _ v => decide ((v.core s.cur.core).sb.length < 32) && okThen (checkAccess s.who (s.src a + off * w64 q.2) q.2 .write [.write] v) fun r_ u => let pl := r_.1; let cap := r_.2; decide (¬(pl.space = .ctrl ∧ 0x200 ≤ fld (s.src a + off * w64 q.2) 0 12)) && readThen s.who pl (s.src a + off * w64 q.2) u fun t => true) = true) ∧
    (∀ q ∈ stores, (let s : State := memRegs; let d : Reg := 3; let a : Reg := 2; let off : W64 := 0; let m : Mod := ⟨2, 3, 0⟩; decide (NoPort s [d, a] none) && okThen (releaseAt m.order m.scope s.issue) fun _ v => decide ((v.core s.cur.core).sb.length < 32) && okThen (checkAccess s.who (s.src a + off * w64 q.2) q.2 .write [.write] v) fun r_ u => let pl := r_.1; let cap := r_.2; decide (¬(pl.space = .ctrl ∧ 0x200 ≤ fld (s.src a + off * w64 q.2) 0 12)) && readThen s.who pl (s.src a + off * w64 q.2) u fun t => true) = true) ∧
    (∀ q ∈ stores, (let s : State := fullBuffer memRegs; let d : Reg := 3; let a : Reg := 1; let off : W64 := 1; let m : Mod := Mod.none; decide (NoPort s [d, a] none) && okThen (releaseAt m.order m.scope s.issue) fun _ v => decide (32 ≤ (v.core s.cur.core).sb.length)) = true) := by decide +kernel
theorem witness_ControlWindow :
    ((let s : State := withRegs (inSlot memRegs 15) [(3, 5)]; let d : Reg := 3; let a : Reg := 4; let off : W64 := 0; let m : Mod := Mod.none; decide (NoPort s [d, a] none) && okThen (releaseAt m.order m.scope s.issue) fun _ u => decide ((u.core s.cur.core).sb.length < 32) && okThen (checkAccess s.who (s.src a + off * 8) 8 .write [.write] u) fun r_ v => let pl := r_.1; let cap := r_.2; decide (pl.space = .ctrl) && decide (fld (s.src a + off * 8) 0 12 = 0x200)) = true) ∧
    ((let s : State := withRegs (inSlot memRegs 15) [(3, 5)]; let d : Reg := 3; let a : Reg := 4; let off : W64 := 1; let m : Mod := Mod.none; decide (NoPort s [d, a] none) && okThen (releaseAt m.order m.scope s.issue) fun _ u => decide ((u.core s.cur.core).sb.length < 32) && okThen (checkAccess s.who (s.src a + off * 8) 8 .write [.write] u) fun r_ v => let pl := r_.1; let cap := r_.2; decide (pl.space = .ctrl) && decide (fld (s.src a + off * 8) 0 12 = 0x208)) = true) ∧
    ((let s : State := withRegs (inSlot memRegs 15) [(3, 5)]; let d : Reg := 3; let a : Reg := 4; let off : W64 := 2; let m : Mod := Mod.none; decide (NoPort s [d, a] none) && okThen (releaseAt m.order m.scope s.issue) fun _ u => decide ((u.core s.cur.core).sb.length < 32) && okThen (checkAccess s.who (s.src a + off * 8) 8 .write [.write] u) fun r_ v => let pl := r_.1; let cap := r_.2; decide (pl.space = .ctrl) && decide (fld (s.src a + off * 8) 0 12 = 0x210)) = true) ∧
    ((let s : State := withRegs (inSlot memRegs 15) [(3, 5)]; let d : Reg := 3; let a : Reg := 4; let off : W64 := 3; let m : Mod := Mod.none; decide (NoPort s [d, a] none) && okThen (releaseAt m.order m.scope s.issue) fun _ u => decide ((u.core s.cur.core).sb.length < 32) && okThen (checkAccess s.who (s.src a + off * 8) 8 .write [.write] u) fun r_ v => let pl := r_.1; let cap := r_.2; decide (pl.space = .ctrl) && decide (fld (s.src a + off * 8) 0 12 = 0x218)) = true) ∧
    ((let s : State := withRegs (inSlot memRegs 15) [(3, 0x10000)]; let d : Reg := 3; let a : Reg := 4; let off : W64 := 4; let m : Mod := Mod.none; decide (NoPort s [d, a] none) && okThen (releaseAt m.order m.scope s.issue) fun _ u => decide ((u.core s.cur.core).sb.length < 32) && okThen (checkAccess s.who (s.src a + off * 8) 8 .write [.write] u) fun r_ v => let pl := r_.1; let cap := r_.2; decide (pl.space = .ctrl) && decide (fld (s.src a + off * 8) 0 12 = 0x220) && decide (fld (s.src d) 1 15 = 0)) = true) ∧
    ((let s : State := withRegs (inSlot memRegs 15) [(3, 2)]; let d : Reg := 3; let a : Reg := 4; let off : W64 := 4; let m : Mod := Mod.none; decide (NoPort s [d, a] none) && okThen (releaseAt m.order m.scope s.issue) fun _ u => decide ((u.core s.cur.core).sb.length < 32) && okThen (checkAccess s.who (s.src a + off * 8) 8 .write [.write] u) fun r_ v => let pl := r_.1; let cap := r_.2; decide (pl.space = .ctrl) && decide (fld (s.src a + off * 8) 0 12 = 0x220) && decide (fld (s.src d) 1 15 ≠ 0)) = true) ∧
    ((let s : State := withRegs (inSlot memRegs 15) [(3, 5)]; let d : Reg := 3; let a : Reg := 4; let off : W64 := 5; let m : Mod := Mod.none; decide (NoPort s [d, a] none) && okThen (releaseAt m.order m.scope s.issue) fun _ u => decide ((u.core s.cur.core).sb.length < 32) && okThen (checkAccess s.who (s.src a + off * 8) 8 .write [.write] u) fun r_ v => let pl := r_.1; let cap := r_.2; decide (pl.space = .ctrl) && decide (fld (s.src a + off * 8) 0 12 ∉ [0x200, 0x208, 0x210, 0x218, 0x220]) && decide (0x200 ≤ fld (s.src a + off * 8) 0 12)) = true) := by decide +kernel
theorem witness_SupervisorRegisters :
    (let s : State := demo; let v : W64 := 1; decide (fld v 1 15 = 0)) = true := by decide +kernel
theorem witness_FullEmptyRequests :
    (∀ q ∈ feWaiting, (let s : State := State.setFull memRegs (spadLoc 0 0x100) (q.2.1 != .ste); let d : Reg := 3; let a : Reg := 1; let m : Mod := Mod.none; decide (NoPort s (feSources q.2.1 d a) (feDest q.2.1 d)) && okThen (fePlace s.who (s.src a) q.2.2 s.issue) fun r_ u => let pl := r_.1; let cap := r_.2; okThen (if q.2.1 = .ste then releaseAt m.order m.scope u else .ok () u) fun _ v => let t : State := v.performWord s.cur.core s.cur.slot pl.loc; decide (q.2.1.admits (t.isFull pl.loc) = true) && decide (∀ r ∈ t.feQueue pl.loc, r.kind.admits (t.isFull pl.loc) = false)) = true) ∧
    (∀ q ∈ feWaiting, (let s : State := State.setFull memRegs (spadLoc 0 0x100) (q.2.1 == .ste); let d : Reg := 3; let a : Reg := 1; let m : Mod := Mod.none; decide (NoPort s (feSources q.2.1 d a) (feDest q.2.1 d)) && okThen (fePlace s.who (s.src a) q.2.2 s.issue) fun r_ u => let pl := r_.1; let cap := r_.2; okThen (if q.2.1 = .ste then releaseAt m.order m.scope u else .ok () u) fun _ v => let t : State := v.performWord s.cur.core s.cur.slot pl.loc; decide (q.2.1.admits (t.isFull pl.loc) = false ∨ (∃ r ∈ t.feQueue pl.loc, r.kind.admits (t.isFull pl.loc) = true))) = true) := by decide +kernel
theorem witness_FullEmptyEffects :
    ((let s : State := demo; let loc : Nat := spadLoc 0 8; let r : FeReq := feOf .ldf 5; decide (r.kind ≠ .ste)) = true) ∧
    ((let s : State := demo; let loc : Nat := spadLoc 0 8; let r : FeReq := feOf .ldf 5; decide (r.kind = .ldf)) = true) ∧
    ((let s : State := demo; let loc : Nat := spadLoc 0 8; let r : FeReq := feOf .ldfk 5; decide (r.kind = .ldfk)) = true) ∧
    ((let s : State := demo; let loc : Nat := spadLoc 0 8; let r : FeReq := feOf .ste 5; decide (r.kind = .ste)) = true) ∧
    ((let s : State := demo; let loc : Nat := spadLoc 0 8; let r : FeReq := feOf .ldf 5; let l := spadLoc 0 16; decide (l ≠ loc)) = true) ∧
    ((let s : State := demo; let loc : Nat := spadLoc 0 8; let r : FeReq := feOf .ldf 30; decide (r.kind ≠ .ste) && decide (r.reg ≠ 0) && decide (¬((s.core r.core).portIn r.slot = true ∧ r.reg = qi)) && decide (¬((s.core r.core).portOut r.slot = true ∧ r.reg = qo))) = true) ∧
    ((let s : State := demo; let loc : Nat := spadLoc 0 8; let r : FeReq := feOf .ste 5; decide (r.kind = .ste) && decide (s.keyDead (s.core r.core).world = false)) = true) ∧
    ((let s : State := demo; let loc : Nat := spadLoc 0 8; let r : FeReq := feOf .ste 5; decide (r.kind = .ste) && decide (s.keyDead (s.core r.core).world = false) && let l := spadLoc 0 16; decide (l < loc ∨ loc + 8 ≤ l)) = true) := by decide +kernel
theorem witness_FullEmptyOther :
    ((let s : State := memRegs; let d : Reg := 3; let a : Reg := 1; let m : Mod := ⟨2, 4, 0⟩; decide (NoPort s [d, a] none) && okThen (fePlace s.who (s.src a) [.write] s.issue) fun r_ u => let pl := r_.1; let cap := r_.2; okThen (releaseAt m.order m.scope u) fun _ v => let t : State := atWord s v pl.loc; true) = true) ∧
    ((let s : State := memRegs; let a : Reg := 1; decide (NoPort s [a] none) && okThen (fePlace s.who (s.src a) [.write] s.issue) fun r_ u => let pl := r_.1; let cap := r_.2; let t : State := atWord s u pl.loc; true) = true) ∧
    ((let s : State := memRegs; let a : Reg := 1; let p : Num3 := 3; decide (NoPort s [a] none) && okThen (fePlace s.who (s.src a) [.read] s.issue) fun r_ u => let pl := r_.1; let cap := r_.2; let t : State := atWord s u pl.loc; true) = true) ∧
    ((let s : State := { demo with feWaiters := [(8, [feOf .ldf 5, feOf .ste 6, feOf .ldfk 7])] }; let loc : Nat := 8; let before : List FeReq := [feOf .ldf 5]; let after : List FeReq := [feOf .ldfk 7]; let r : FeReq := feOf .ste 6; decide (s.feQueue loc = before ++ r :: after) && decide (∀ x ∈ before, x.kind.admits (s.isFull loc) = false) && decide (r.kind.admits (s.isFull loc) = true) && decide (r ∉ before)) = true) := by decide +kernel
theorem witness_CacheInstructions :
    ((let l1 : Bool := true; let s : State := memRegs; let a : Reg := 2; decide (NoPort s [a] none) && okThen (prefetchLine l1 (s.src a) s.issue) fun _ t => true) = true) ∧
    ((let l1 : Bool := false; let s : State := memRegs; let a : Reg := 1; decide (NoPort s [a] none) && errThen (prefetchLine l1 (s.src a) s.issue) fun e t => true) = true) ∧
    ((let s : State := State.modMyCore demo fun k => { k with fills := [⟨8, 0, false⟩] }; let c : Nat := 0; let k : Nat := 0; someThen ((s.core c).fills[k]?) fun f => true) = true) := by decide +kernel
theorem witness_StorePerformed :
    ((let s : State := buffered demo (spadLoc 0 8); let c : Nat := 0; let k : Nat := 0; someThen ((s.core c).sb[k]?) fun e => decide (∀ x ∈ (s.core c).sb.take k, x.ordered e = false) && decide (s.busyWord e.bytes = none) && decide (e.atBank = false ∨ (∃ q ∈ s.banks, ⟨c, e⟩ ∈ q.2.deferred) ∧ ∀ q ∈ s.banks, ⟨c, e⟩ ∈ q.2.deferred → q.2.deferred.head? = some ⟨c, e⟩) && decide (s.keyDead e.world = false ∨ (∀ x ∈ e.bytes, isHbm x.1 = false))) = true) ∧
    ((let s : State := State.modWorld (buffered demo 0x210000) 2 fun w => { w with memDead := true }; let c : Nat := 0; let k : Nat := 0; someThen ((s.core c).sb[k]?) fun e => decide (∀ x ∈ (s.core c).sb.take k, x.ordered e = false) && decide (s.busyWord e.bytes = none) && decide (e.atBank = false ∨ (∃ q ∈ s.banks, ⟨c, e⟩ ∈ q.2.deferred) ∧ ∀ q ∈ s.banks, ⟨c, e⟩ ∈ q.2.deferred → q.2.deferred.head? = some ⟨c, e⟩) && decide (s.keyDead e.world = true) && decide (∃ x ∈ e.bytes, isHbm x.1 = true)) = true) ∧
    ((let s : State := State.setBank (buffered demo (spadLoc 0 8)) (spadLoc 0 8) { Bank.init with holder := some ⟨1, 3, 99⟩ }; let c : Nat := 0; let k : Nat := 0; someThen ((s.core c).sb[k]?) fun e => decide (∀ x ∈ (s.core c).sb.take k, x.ordered e = false) && someThen (s.busyWord e.bytes) fun l => decide (e.atBank = false)) = true) ∧
    ((let s : State := State.setBank (demo.modMyCore fun k => { k with sb := [{ entryAt (spadLoc 0 8) with atBank := true }] }) (spadLoc 0 8) { Bank.init with holder := some ⟨1, 3, 99⟩ }; let c : Nat := 0; let k : Nat := 0; someThen ((s.core c).sb[k]?) fun e => decide (∀ x ∈ (s.core c).sb.take k, x.ordered e = false) && someThen (s.busyWord e.bytes) fun l => decide (e.atBank = true)) = true) := by decide +kernel
theorem witness_TileLoad :
    (let s : State := layoutRegs 7; let td : Num3 := 0; let a : Reg := 5; let b : Reg := 6; let m : Mod := ⟨1, 2, 0⟩; decide (NoPort s [a, b] none) && decide (ToTheEnd s) && let sh : W64 := (s.me.tile td).shape; let start : Option Nat := resumesAt s (restartKey 1 8 0); let row0 : Nat := fld (s.src b) 0 32; let col0 : Nat := fld (s.src b) 32 32; okThen (readLayoutAs s.who (s.src a) m s.issue) fun r_ u => let l := r_.1; let lcs := r_.2; let vr := (window l sh row0 col0).1; let vc := (window l sh row0 col0).2; decide (start = none → movable sh ∧ shType sh = l.elemTy ∧ (l.rscl = true → l.trans = false ∧ s.me.scl ≠ 0) ∧ (l.cx8 = true → shCols sh = 32 ∧ col0 % 32 = 0)) && let v : State := (if start = none then shaped (u.acquired m.order m.scope.toNat) td (withValid sh vr vc) else u.acquired m.order m.scope.toNat); rowsThen (tldRow td s.who l row0 col0 vc m lcs (tfmtWord (tyCode sh) l.type 15 15)) (if vr ≠ 0 ∧ vc ≠ 0 then rowsFrom start vr else []) (cleared v) fun t => true) = true := by decide +kernel
theorem witness_TileStore :
    (let s : State := layoutRegs 7; let td : Num3 := 0; let a : Reg := 5; let b : Reg := 6; let m : Mod := ⟨2, 2, 0⟩; decide (NoPort s [a, b] none) && decide (ToTheEnd s) && let sh : W64 := (s.me.tile td).shape; let start : Option Nat := resumesAt s (restartKey 1 8 1); let row0 : Nat := fld (s.src b) 0 32; let col0 : Nat := fld (s.src b) 32 32; okThen (releaseAt m.order m.scope s.issue) fun _ u => okThen (readLayoutAs s.who (s.src a) m u) fun r_ v => let l := r_.1; let lcs := r_.2; let rows : Nat := min (window l sh row0 col0).1 (shVrows sh); let cols : Nat := min (window l sh row0 col0).2 (shVcols sh); decide (start = none → movable sh ∧ shType sh = l.elemTy ∧ (l.cx8 = true → shCols sh = 32 ∧ col0 % 32 = 0 ∧ l.cols = 32 ∧ row0 % 16 = 0)) && rowsThen (tstRow (s.me.tile td) s.who l row0 col0 cols m lcs (tfmtWord l.type (tyCode sh) 15 15)) (if (window l sh row0 col0).2 ≠ 0 ∧ (cols ≠ 0 ∨ l.cx8 = true) then rowsFrom start rows else []) (cleared v) fun t => true) = true := by decide +kernel
theorem witness_TileLocal :
    ((let s : State := layoutRegs 7; let td : Num3 := 0; let a : Reg := 7; let b : Reg := 8; let m : Mod := Mod.none; decide (NoPort s [a, b] none) && decide (ToTheEnd s) && let sh : W64 := (s.me.tile td).shape; let start : Option Nat := resumesAt s (restartKey 1 9 0); decide (start = none → movable sh ∧ fld (s.src a) 61 3 = 6 ∧ fld (s.src a) 58 3 ≤ 2 ∧ (s.src a).toNat % tySize (shType sh) = 0 ∧ (s.src b).toNat % tySize (shType sh) = 0) && rowsThen (tldsRow td s.who sh (s.src a) (s.src b) m (start.getD 0)) (rowsFrom start (shRows sh)) (cleared (if start = none then shaped s.issue td (withValid sh (shRows sh) (shCols sh)) else s.issue)) fun t => true) = true) ∧
    ((let s : State := layoutRegs 7; let td : Num3 := 0; let a : Reg := 7; let b : Reg := 8; let m : Mod := Mod.none; decide (NoPort s [a, b] none) && decide (ToTheEnd s) && let sh : W64 := (s.me.tile td).shape; let start : Option Nat := resumesAt s (restartKey 1 9 1); decide (start = none → movable sh ∧ fld (s.src a) 61 3 = 6 ∧ fld (s.src a) 58 3 ≤ 2 ∧ (s.src a).toNat % tySize (shType sh) = 0 ∧ (s.src b).toNat % tySize (shType sh) = 0) && okThen (releaseAt m.order m.scope s.issue) fun _ v => rowsThen (tstsRow (s.me.tile td) s.who (s.src a) (s.src b)) (if shVcols sh ≠ 0 then rowsFrom start (shVrows sh) else []) (cleared v) fun t => true) = true) := by decide +kernel
theorem witness_TileIndexed :
    ((let s : State := layoutRegs 7; let td : Num3 := 0; let tx : Num3 := 1; let a : Reg := 5; let m : Mod := Mod.none; decide (NoPort s [a] none) && decide (ToTheEnd s) && let sh : W64 := (s.me.tile td).shape; let xsh : W64 := (s.me.tile tx).shape; let ks : List Int := indexList (s.me.tile tx); let start : Option Nat := resumesAt s (restartKey 1 0xA 0); okThen (readLayoutAs s.who (s.src a) m s.issue) fun r_ u => let l := r_.1; let lcs := r_.2; decide (start = none → movable sh ∧ shType sh = l.elemTy ∧ xsh ≠ 0 ∧ shType xsh = 8 ∧ l.trans = false ∧ (l.cx8 = true → shCols sh = 32) ∧ (l.rscl = true → s.me.scl ≠ 0) ∧ ks.length ≤ shRows sh) && let v : State := (if start = none then shaped (u.acquired m.order m.scope.toNat) td (withValid sh ks.length (min (shCols sh) l.cols)) else u.acquired m.order m.scope.toNat); rowsThen (tldxRow td s.who l xsh ks (min (shCols sh) l.cols) m lcs (tfmtWord (tyCode sh) l.type (tyCode xsh) 15)) (rowsFrom start (if start = none then ks.length else shVrows sh)) (cleared v) fun t => true) = true) ∧
    ((let s : State := layoutRegs 7; let td : Num3 := 0; let tx : Num3 := 1; let a : Reg := 5; let m : Mod := Mod.none; decide (NoPort s [a] none) && decide (ToTheEnd s) && let sh : W64 := (s.me.tile td).shape; let xsh : W64 := (s.me.tile tx).shape; let ks : List Int := indexList (s.me.tile tx); let start : Option Nat := resumesAt s (restartKey 1 0xA 1); okThen (releaseAt m.order m.scope s.issue) fun _ u => okThen (readLayoutAs s.who (s.src a) m u) fun r_ v => let l := r_.1; let lcs := r_.2; decide (start = none → movable sh ∧ shType sh = l.elemTy ∧ xsh ≠ 0 ∧ shType xsh = 8 ∧ l.trans = false ∧ l.cx8 = false ∧ ks.length ≤ shRows sh) && rowsThen (tstxRow (s.me.tile td) s.who l xsh ks (min (min (shCols sh) l.cols) (shVcols sh)) lcs (tfmtWord l.type (tyCode sh) (tyCode xsh) 15)) (rowsFrom start (min ks.length (shVrows sh))) (cleared v) fun t => true) = true) := by decide +kernel
theorem witness_LoadedRow :
    (let s : State := layoutRegs 7; let td : Num3 := 0; let r : Nat := 31; let els : List Nat := [1, 2, 3]; let scale : Option W32 := none; let cs : List Cap := []; decide (r < 32)) = true := by decide +kernel
theorem witness_PlaneLoads :
    ((let s : State := layoutRegs 5; let p : Num2 := 2; let a : Reg := 5; let b : Reg := 6; let m : Mod := Mod.none; decide (NoPort s [a, b] none) && decide (ToTheEnd s) && decide (s.me.plown.getLsbD p.toNat = true) && let start : Option Nat := resumesAt s (restartKey 3 1 0); let row0 : Nat := fld (s.src b) 0 32; let col0 : Nat := fld (s.src b) 32 32; okThen (readLayoutAs s.who (s.src a) m s.issue) fun r_ u => let l := r_.1; let lcs := r_.2; let krows := (planeWindow l row0 col0).1; let ncols := (planeWindow l row0 col0).2; decide (start = none → (l.type ≤ 6 ∨ l.cx8 = true) ∧ (l.cx8 = true → col0 % 32 = 0)) && rowsThen (ldstatRow p s.who l row0 col0 ncols m lcs) (if ncols ≠ 0 then rowsFrom start krows else []) (cleared (if start = none then onPlane (u.acquired m.order m.scope.toNat) p fun q => { q with shadow := q.shadow.reshape l.elemTy krows ncols } else u.acquired m.order m.scope.toNat)) fun t => true) = true) ∧
    ((let s : State := layoutRegs 7; let p : Num2 := 2; let a : Reg := 5; let b : Reg := 6; let m : Mod := Mod.none; decide (NoPort s [a, b] none) && decide (ToTheEnd s) && decide (s.me.plown.getLsbD p.toNat = true) && let start : Option Nat := resumesAt s (restartKey 3 1 2); let row0 : Nat := fld (s.src b) 0 32; let col0 : Nat := fld (s.src b) 32 32; okThen (readLayoutAs s.who (s.src a) m s.issue) fun r_ u => let l := r_.1; let lcs := r_.2; let n : Nat := (if row0 < l.rows then min 128 (l.cols - col0) else 0); decide (start = none → l.type = 7 ∧ l.trans = false) && rowsThen (ldsclRow p s.who l row0 col0 n m lcs) (if n ≠ 0 then rowsFrom start 1 else []) (cleared (if start = none ∧ n = 0 then onPlane (u.acquired m.order m.scope.toNat) p fun q => { q with shadow := { q.shadow with scales := Vector.replicate 128 0x3F800000 } } else u.acquired m.order m.scope.toNat)) fun t => true) = true) ∧
    ((let s : State := layoutRegs 5; let a : Reg := 5; let b : Reg := 6; let m : Mod := ⟨0, 0, 7⟩; decide (NoPort s [a, b] none) && decide (ToTheEnd s) && let start : Option Nat := resumesAt s (restartKey 3 1 1); let chunk : Nat := m.spec.toNat % 8; okThen (takeProj true (64 * chunk) (64 * chunk + 64) s.issue) fun _ v => okThen (readLayoutAs s.who (s.src a) { m with spec := 0 } v) fun r_ u => let l := r_.1; let lcs := r_.2; decide (start = none → l.type = 5) && rowsThen (ldprojRow s.who l (fld (s.src b) 0 32) (fld (s.src b) 32 32) chunk { m with spec := 0 } lcs) (rowsFrom start 64) (cleared (u.acquired m.order m.scope.toNat)) fun t => true) = true) := by decide +kernel
theorem witness_SequenceTransfers :
    ((let s : State := seqRegs; let p : Num2 := 1; let a : Reg := 5; let b : Reg := 6; let m : Mod := Mod.none; decide (NoPort s [a, b] none) && decide (ToTheEnd s) && decide (s.cur.slot ≠ 14) && decide (s.me.plown.getLsbD p.toNat = true) && let first : Nat := fld (s.src b) 0 16; let n : Nat := fld (s.src b) 16 8; let slice : Nat := fld (s.src b) 24 4; decide (fld (s.src b) 28 36 = 0) && decide (1 ≤ n) && decide (n ≤ 128) && let start : Option Nat := resumesAt s (restartKey 6 0 0); okThen (readHeader s.who (s.src a) m s.issue) fun r_ u => let h := r_.1; let hcs := r_.2; decide (32 * slice + 32 ≤ h.width) && decide (first + n ≤ 16 * h.npages) && rowsThen (kvldRow p s.who h first slice m hcs) (rowsFrom start n) (cleared (if start = none then onPlane (u.acquired m.order m.scope.toNat) p fun q => { q with shadow := { q.shadow.reshape 5 32 n with scales := Vector.replicate 128 0x3F800000 } } else u.acquired m.order m.scope.toNat)) fun t => true) = true) ∧
    ((let s : State := seqRegs; let td : Num3 := 0; let a : Reg := 5; let b : Reg := 0; let m : Mod := Mod.none; decide (NoPort s [a, b] none) && decide (ToTheEnd s) && decide (s.cur.slot ≠ 14) && let sh : W64 := (s.me.tile td).shape; decide (fld (s.src b) 21 43 = 0) && let start : Option Nat := resumesAt s (restartKey 6 1 0); okThen (releaseAt m.order m.scope s.issue) fun _ u => okThen (readHeader s.who (s.src a) Mod.none u) fun r_ v => let h := r_.1; let hcs := r_.2; decide (start = none → sh ≠ 0 ∧ shType sh = h.type ∧ shCols sh * h.esize = 64) && decide (64 * fld (s.src b) 16 4 < h.rowBytes) && decide (shVrows sh = 0 ∨ fld (s.src b) 0 16 + shVrows sh ≤ 16 * h.npages) && rowsThen (kvstRow (s.me.tile td) s.who h (s.src b) hcs) (rowsFrom start (shVrows sh)) (cleared v) fun t => true) = true) ∧
    ((let s : State := seqRegs; let td : Num3 := 1; let a : Reg := 5; let b : Reg := 6; let m : Mod := Mod.none; decide (NoPort s [a, b] none) && decide (ToTheEnd s) && decide (s.cur.slot ≠ 14) && let n : Nat := fld (s.src b) 16 7; decide (fld (s.src b) 23 41 = 0) && decide (1 ≤ n) && decide (n ≤ 64) && let start : Option Nat := resumesAt s (restartKey 6 2 0); okThen (readHeader s.who (s.src a) m s.issue) fun r_ u => let h := r_.1; let hcs := r_.2; decide (fld (s.src b) 0 16 + n ≤ 16 * h.npages) && rowsThen (kvmultRow td s.who h (fld (s.src b) 0 16) n m hcs) (rowsFrom start 1) (cleared (if start = none then shaped (u.acquired m.order m.scope.toNat) td (mkShape 1 1 64 1 n) else u.acquired m.order m.scope.toNat)) fun t => true) = true) := by decide +kernel
theorem witness_TileTwoSources :
    (∀ q ∈ twoTiles, (let s : State := tiled (q.types.headD 0) 9; let d : Num3 := 5; let a : Num3 := 0; let b : Num3 := 1; decide (ToTheEnd s) && decide (resumesAt s q.key = none) && decide (agreeing s d a b q.types) && decide (noNanTrap s 0 (s.me.tile a).shape (pairElem s a b q.f))) = true) ∧
    (∀ q ∈ twoTilesMoved, (let s : State := tiled 7 9; let d : Num3 := 0; let a : Num3 := 0; let b : Num3 := 1; decide (ToTheEnd s) && decide (resumesAt s q.key = none) && decide (agreeing s d a b q.types)) = true) := by decide +kernel
theorem witness_TileResumes :
    ∀ q ∈ twoTiles ++ twoTilesMoved, (let s : State := restarted (tiled (q.types.headD 0) (q.types.headD 0)) q.key; let d : Num3 := 2; let a : Num3 := 0; let b : Num3 := 1; let first : Nat := 1; decide (ToTheEnd s) && decide (resumesAt s q.key = some first) && decide (ntOf (fpcOf s) = false) && decide (shapeOk (s.me.tile d).shape = true)) = true := by decide +kernel
theorem witness_TileNanTrap :
    ∀ q ∈ twoTiles.take 5, (let s : State := nanned; let d : Num3 := 5; let a : Num3 := 0; let b : Num3 := 1; let r : Nat := 0; let c : Nat := 0; decide (ToTheEnd s) && decide (s.cur.slot ≠ 15) && decide (resumesAt s q.key = none) && decide (agreeing s d a b q.types) && decide (ntOf (fpcOf s) = true) && decide (r < shVrows (s.me.tile a).shape) && decide (c < shVcols (s.me.tile a).shape) && decide (∀ i, i ≤ r → ∀ j, j < shVcols (s.me.tile a).shape → i < r ∨ j < c → isNanBits (shType (s.me.tile a).shape) (pairElem s a b q.f i j).bits = false) && decide (isNanBits (shType (s.me.tile a).shape) (pairElem s a b q.f r c).bits = true)) = true := by decide +kernel
theorem witness_TileCompares :
    (∀ q ∈ compareTiles, (let s : State := tiled 7 9; let d : Num3 := 2; let a : Num3 := 0; let b : Num3 := 1; decide (ToTheEnd s) && decide (resumesAt s q.2.1 = none) && decide ((s.me.tile a).shape ≠ 0) && decide ((s.me.tile b).shape ≠ 0) && decide (shType (s.me.tile a).shape ≤ 9) && decide (sameTRC (s.me.tile b).shape (s.me.tile a).shape = true) && decide (shapeOk (withType 9 (s.me.tile a).shape) = true) && decide (a = d → (s.me.tile a).shape = withType 9 (s.me.tile a).shape) && decide (b = d → (s.me.tile b).shape = withType 9 (s.me.tile a).shape)) = true) ∧
    ((let s : State := tiled 5 9; let d : Num3 := 2; let a : Num3 := 0; decide (ToTheEnd s) && decide (resumesAt s (restartKey 2 4 4) = none) && decide (acceptable s d a [2, 3, 4, 5, 6, 7] (withType 9 (s.me.tile a).shape))) = true) := by decide +kernel
theorem witness_TileOneSource :
    (∀ q ∈  oneTile, ( let s : State := tiled (q.types.getLastD 0) 9; let d : Num3 := 5; let a : Num3 := 0; decide (ToTheEnd s) && decide (resumesAt s q.key = none) && decide (acceptable s d a q.types (q.res (s.me.tile a).shape)) && decide (noNanTrap s 0 (q.res (s.me.tile a).shape) (fun r j => q.f (shType (s.me.tile a).shape) (rmOf (fpcOf s)) ((s.me.tile a).elem r j)))) = true) ∧
    (∀ ty ∈  [(2 : BitVec 4), 8], (let q : OneTile := converting ty; decide (ty.toNat ≤ 8) && let s : State := tiled 7 9; let d : Num3 := 5; let a : Num3 := 0; decide (ToTheEnd s) && decide (resumesAt s q.key = none) && decide (acceptable s d a q.types (q.res (s.me.tile a).shape)) && decide (noNanTrap s 0 (q.res (s.me.tile a).shape) (fun r j => q.f (shType (s.me.tile a).shape) (rmOf (fpcOf s)) ((s.me.tile a).elem r j)))) = true) ∧
    (∀ q ∈ scalarTiles, (let s : State := tiled 5 9; let d : Num3 := 5; let a : Num3 := 0; let b : Reg := 1; decide (NoPort s [b] none) && decide (ToTheEnd s) && decide (resumesAt s q.2.1 = none) && decide (acceptable s d a [0, 1, 5, 6, 7, 8] (s.me.tile a).shape) && let f : Nat → Nat → FR := fun r j => if (fmtOf (shType (s.me.tile a).shape)).isSome then deliverTy (shType (s.me.tile a).shape) (rmOf (fpcOf s)) (q.2.2.1 (rmOf (fpcOf s)) (valueOf (shType (s.me.tile a).shape) ((s.me.tile a).elem r j)) (Fmt.fp32.decode ((s.src b).toNat % 2 ^ 32))) else satInt (shType (s.me.tile a).shape) (q.2.2.2 (intOf (shType (s.me.tile a).shape) ((s.me.tile a).elem r j)) (s.src b).toInt); decide (noNanTrap s 0 (s.me.tile a).shape f)) = true) := by decide +kernel
theorem witness_TileThreeSources :
    ((let s : State := tiled 7 7; let d : Num3 := 2; let a : Num3 := 0; let b : Num3 := 1; decide (ToTheEnd s) && decide (resumesAt s (restartKey 2 0 5) = none) && decide (agreeing s d a b [5, 6, 7]) && decide ((s.me.tile d).shape ≠ 0) && decide (sameTRC (s.me.tile d).shape (s.me.tile a).shape = true) && let f : Nat → Nat → FR := fun r j => fmaE (shType (s.me.tile a).shape) (rmOf (fpcOf s)) ((s.me.tile a).elem r j) ((s.me.tile b).elem r j) ((s.me.tile d).elem r j); decide (noNanTrap s 0 (s.me.tile a).shape f)) = true) ∧
    ((let s : State := tiled 7 9; let d : Num3 := 2; let a : Num3 := 0; let b : Num3 := 1; decide (ToTheEnd s) && decide (resumesAt s (restartKey 2 0 6) = none) && decide (agreeing s d a b (List.range 10)) && decide ((s.me.tile d).shape ≠ 0) && decide (shType (s.me.tile d).shape = 9) && decide (sameRC (s.me.tile d).shape (s.me.tile a).shape = true)) = true) ∧
    ((let s : State := tiled 7 9; let d : Num3 := 0; let a : Num3 := 1; let b : Num3 := 2; decide (ToTheEnd s) && decide (resumesAt s (restartKey 2 0 7) = none) && decide ((s.me.tile a).shape ≠ 0) && decide ((s.me.tile b).shape ≠ 0) && decide ((s.me.tile d).shape ≠ 0) && decide (shType (s.me.tile b).shape = 9) && decide (sameRC (s.me.tile b).shape (s.me.tile a).shape = true) && decide (sameTRC (s.me.tile d).shape (s.me.tile a).shape = true) && decide (shapeOk (s.me.tile a).shape = true) && decide (b = d → (s.me.tile b).shape = (s.me.tile a).shape)) = true) := by decide +kernel
theorem witness_TileReductions :
    ((let s : State := tiled 0 9; let d : Num3 := 5; let a : Num3 := 0; let src : Tile := s.me.tile a; decide (ToTheEnd s) && decide (resumesAt s (restartKey 2 3 0) = none) && let res : W64 := mkShape (if (fmtOf (shType src.shape)).isSome then 7 else 8) (shRows src.shape) 1 (shVrows src.shape) 1; let f : Nat → Nat → FR := fun r _ => rowSum (shType src.shape) (src.rowElems r (shVcols src.shape)); decide (noNanTrap s 0 res f) && decide (acceptable s d a [0, 1, 5, 6, 7, 8] res)) = true) ∧
    ((let s : State := tiled 7 9; let d : Num3 := 5; let a : Num3 := 0; let src : Tile := s.me.tile a; decide (ToTheEnd s) && decide (resumesAt s (restartKey 2 3 1) = none) && let res : W64 := mkShape (shType src.shape) (shRows src.shape) 1 (shVrows src.shape) 1; let f : Nat → Nat → FR := fun r _ => maxOver (shType src.shape) (src.rowElems r (shVcols src.shape)); decide (noNanTrap s 0 res f) && decide (acceptable s d a [0, 1, 5, 6, 7, 8] res)) = true) ∧
    ((let s : State := tiled 0 9; let d : Num3 := 5; let a : Num3 := 0; let src : Tile := s.me.tile a; decide (src.shape ≠ 0) && decide (shType src.shape ∈ [0, 1, 5, 6, 7, 8]) && let res : W64 := mkShape (shType src.shape) 1 (shCols src.shape) 1 (shVcols src.shape); decide (shapeOk res = true) && decide (resumesAt s (restartKey 2 3 2) = none) && let f : Nat → Nat → FR := fun _ j => colSum (shType src.shape) ((List.range (shVrows src.shape)).map fun i => src.elem i j); decide (noNanTrap s 0 res f)) = true) ∧
    ((let s : State := tiled 7 9; let d : Num3 := 5; let a : Num3 := 0; let src : Tile := s.me.tile a; decide (src.shape ≠ 0) && decide (shType src.shape ∈ [0, 1, 5, 6, 7, 8]) && let res : W64 := mkShape (shType src.shape) 1 (shCols src.shape) 1 (shVcols src.shape); decide (shapeOk res = true) && decide (resumesAt s (restartKey 2 3 3) = none) && let f : Nat → Nat → FR := fun _ j => maxOver (shType src.shape) ((List.range (shVrows src.shape)).map fun i => src.elem i j); decide (noNanTrap s 0 res f)) = true) := by decide +kernel
theorem witness_TileMoves :
    ((let s : State := tiled 7 9; let d : Num3 := 5; let a : Num3 := 3; let b : Num3 := 0; decide (ToTheEnd s) && decide (resumesAt s (restartKey 2 3 4) = none) && decide ((s.me.tile a).shape ≠ 0) && decide ((s.me.tile b).shape ≠ 0) && decide (shType (s.me.tile a).shape ≤ 9) && decide (shType (s.me.tile b).shape = shType (s.me.tile a).shape) && decide (shCols (s.me.tile b).shape = shCols (s.me.tile a).shape) && decide (shapeOk (s.me.tile b).shape = true)) = true) ∧
    ((let s : State := tiled 7 9; let d : Num3 := 5; let a : Num3 := 4; let b : Num3 := 2; decide (ToTheEnd s) && decide (resumesAt s (restartKey 2 3 5) = none) && decide ((s.me.tile a).shape ≠ 0) && decide ((s.me.tile b).shape ≠ 0) && decide (shType (s.me.tile a).shape ≤ 9) && decide (shType (s.me.tile b).shape ≤ 9) && decide (shRows (s.me.tile b).shape = shRows (s.me.tile a).shape) && let res : W64 := withType (shType (s.me.tile a).shape) (s.me.tile b).shape; decide (shapeOk res = true) && decide (b = d → (s.me.tile b).shape = res)) = true) ∧
    ((let s : State := tiled 7 9; let d : Num3 := 0; let a : Num3 := 0; let sa : W64 := (s.me.tile a).shape; decide (resumesAt s (restartKey 2 3 6) = none) && decide (sa ≠ 0) && decide (shType sa ≤ 9) && decide (shCols sa ≤ 32) && decide (shRows sa * tySize (shType sa) ≤ 64) && let res : W64 := mkShape (shType sa) (shCols sa) (shRows sa) (shVcols sa) (shVrows sa); decide (shapeOk res = true)) = true) ∧
    ((let s : State := tiled 7 9; let d : Num3 := 5; let a : Num3 := 2; decide (ToTheEnd s) && decide (resumesAt s (restartKey 2 3 7) = none) && decide (acceptable s d a (List.range 10) (s.me.tile a).shape)) = true) := by decide +kernel
theorem witness_TileShapes :
    ((let s : State := withRegs (tiled 7 9) [(1, mkShape 7 2 2 2 2), (2, 0x3F80000000020001)]; let td : Num3 := 0; let a : Reg := 1; decide (NoPort s [a] none) && decide (shapeOk (s.src a) = true)) = true) ∧
    ((let s : State := withRegs (tiled 7 9) [(1, mkShape 7 2 2 2 2), (2, 0x3F80000000020001)]; let td : Num3 := 0; let a : Reg := 1; decide (NoPort s [a] none) && decide (shapeOk (s.src a) = true) && decide (ToTheEnd s) && decide (resumesAt s (restartKey 2 5 2) = none)) = true) ∧
    ((let s : State := withRegs (tiled 7 9) [(1, mkShape 7 2 2 2 2), (2, 0x3F80000000020001)]; let td : Num3 := 0; let a : Reg := 2; decide (NoPort s [] (some a))) = true) ∧
    ((let s : State := withRegs (tiled 7 9) [(1, mkShape 7 2 2 2 2), (2, 0x3F80000000020001)]; let td : Num3 := 0; let a : Reg := 2; decide (NoPort s [a] none) && decide (ToTheEnd s) && decide (resumesAt s (restartKey 2 5 3) = none) && let sh : W64 := (s.me.tile td).shape; decide (sh ≠ 0) && decide (shapeOk sh = true)) = true) ∧
    ((let s : State := withRegs (tiled 7 9) [(1, mkShape 7 2 2 2 2), (2, 0x3F80000000020001)]; let td : Num3 := 0; let a : Reg := 2; decide (NoPort s [a] (some a)) && let sh : W64 := (s.me.tile td).shape; decide (sh ≠ 0) && decide (fld (s.src a) 0 16 < shRows sh) && decide (fld (s.src a) 16 16 < shCols sh)) = true) ∧
    ((let s : State := withRegs (tiled 7 9) [(1, mkShape 7 2 2 2 2), (2, 0x3F80000000020001)]; let td : Num3 := 0; let a : Reg := 2; decide (NoPort s [a] none) && let sh : W64 := (s.me.tile td).shape; decide (sh ≠ 0) && decide (shapeOk sh = true) && decide (fld (s.src a) 0 16 < shVrows sh) && decide (fld (s.src a) 16 16 < shVcols sh)) = true) ∧
    ((let s : State := withRegs (tiled 7 9) [(1, mkShape 7 2 2 2 2), (2, 0x3F80000000020001)]; let td : Num3 := 0; let a : Reg := 2; decide (NoPort s [a] none) && let sh : W64 := (s.me.tile td).shape; decide (sh ≠ 0)) = true) := by decide +kernel
theorem witness_IntegerSaturation :
    (∀ ty ∈  ([0, 1, 8] : List Nat), (let v : Int := intMax ty; decide (ty ∈ [0, 1, 8]) && decide (intMin ty ≤ v) && decide (v ≤ intMax ty)) = true) ∧
    (∀ ty ∈  ([0, 1, 8] : List Nat), (let v : Int := intMin ty - 1; decide (ty ∈ [0, 1, 8]) && decide (v < intMin ty)) = true) ∧
    (∀ ty ∈  ([0, 1, 8] : List Nat), (let v : Int := intMax ty + 1; decide (ty ∈ [0, 1, 8]) && decide (intMax ty < v)) = true) ∧
    (∀ ty ∈  ([0, 1, 8] : List Nat), (let v : Int := 5; decide (ty ∈ [0, 1, 8])) = true) := by decide +kernel
theorem witness_ExactArithmetic :
    ((let rm : Rm := .nearest; let a : Fp := .fin false 3 2; let b : Fp := .fin true 5 0; someThen (ratOf a) fun x => someThen (ratOf b) fun y => true) = true) ∧
    ((let rm : Rm := .nearest; let a : Fp := .fin false 3 2; let b : Fp := .fin true 5 0; someThen (ratOf a) fun x => someThen (ratOf b) fun y => let c : Fp := .zero false; someThen (ratOf c) fun z => true) = true) := by decide +kernel
theorem witness_RepresentableUnchanged :
    ∀ f ∈ formats, (let rm : Rm := .up; let sat : Bool := false; let b : Nat := 3; decide (b < 2 ^ (1 + f.ew + f.mw)) && someThen (ratOf (f.decode b)) fun x => true) = true := by decide +kernel
theorem witness_ExactKStep :
    (let xs : List Fp := [.fin false 3 2, .zero true]; let ys : List Fp := [.fin true 1 0, .fin false 1 0]; let us : List ℚ := [12, 0]; let vs : List ℚ := [-1, 1]; decide (xs.map ratOf = us.map some) && decide (ys.map ratOf = vs.map some) && decide (xs.length = ys.length)) = true := by decide +kernel
theorem witness_StreamReceive :
    (∀ q ∈ receiving, (let s : State := streaming (tiled (q.2.2.1.headD 0) 9); let d : Num3 := 0; let c : Num2 := 2; let items : List (W64 × Row64) := [((s.me.tile 0).shape, (s.me.tile 0).row 0)]; let count : Nat := 1; let rest : List ChanItem := [.fin 0]; decide (ToTheEnd s) && decide (resumesAt s q.2.1 = none) && decide ((s.me.tile d).shape ≠ 0) && decide (shType (s.me.tile d).shape ∈ q.2.2.1) && decide (ntOf (fpcOf s) = false) && decide (items.length ≤ 4096) && decide (channelOf s c = items.map (fun x => .data x.1 x.2) ++ .fin count :: rest) && decide (∀ x ∈ s.myCore.chanRx, x.1 = c.toNat → x.2 = s.me.uid)) = true) ∧
    ((let s : State := streaming (tiled 7 9); let d : Num3 := 0; let b : Num3 := 1; let c : Num2 := 2; let items : List (W64 × Row64) := [((s.me.tile 0).shape, (s.me.tile 0).row 0)]; let count : Nat := 1; let rest : List ChanItem := [.fin 0]; decide (ToTheEnd s) && decide (resumesAt s (restartKey 2 7 3) = none) && decide ((s.me.tile d).shape ≠ 0) && decide (shType (s.me.tile d).shape ∈ [5, 6, 7]) && decide ((s.me.tile b).shape ≠ 0) && decide (sameTRC (s.me.tile b).shape (s.me.tile d).shape = true) && decide (ntOf (fpcOf s) = false) && decide (items.length ≤ 4096) && decide (channelOf s c = items.map (fun x => .data x.1 x.2) ++ .fin count :: rest) && decide (∀ x ∈ s.myCore.chanRx, x.1 = c.toNat → x.2 = s.me.uid)) = true) ∧
    (∀ q ∈ receiving, (let s : State := tiled (q.2.2.1.getLastD 0) 9; let d : Num3 := 0; let c : Num2 := 2; decide (resumesAt s q.2.1 = none) && decide ((s.me.tile d).shape ≠ 0) && decide (shType (s.me.tile d).shape ∈ q.2.2.1) && decide (channelOf s c = []) && decide (∀ x ∈ s.myCore.chanRx, x.1 = c.toNat → x.2 = s.me.uid)) = true) := by decide +kernel
theorem witness_StreamSend :
    ((let s : State := sending; let d : Num3 := 0; let c : Num2 := 1; decide (ToTheEnd s) && decide (resumesAt s sendKey = none) && let sh : W64 := (s.me.tile d).shape; decide (sh ≠ 0) && decide (shType sh ≤ 9) && decide ((s.core (downstream s.cur.core)).world = s.myWorld) && decide (∀ x ∈ s.myCore.chanTx, x.1 = c.toNat → x.2 = s.me.uid) && let old : List ChanItem := vat [] (s.core (downstream s.cur.core)).chans c.toNat; decide (old.length + shVrows sh < 32)) = true) ∧
    ((let s : State := tiled 7 9; let d : Num3 := 0; let c : Num2 := 1; decide (resumesAt s sendKey = none) && decide ((s.me.tile d).shape ≠ 0) && decide (shType (s.me.tile d).shape ≤ 9) && decide (s.cur.slot ≠ 15) && decide ((s.core (downstream s.cur.core)).world ≠ s.myWorld)) = true) ∧
    ((let s : State := sendWaiting; let core : Nat := 0; let n : Nat := 0; let chan : Nat := 1; let tile : Nat := 0; let len : Nat := 4; let before : Sparse Slot := []; let after : Sparse Slot := []; let sl : Slot := s.me; decide ((s.core core).slots = before ++ (n, sl) :: after) && decide (∀ q ∈ before, s.canSend core q.2 = none) && decide (s.slot core n = sl) && decide (sl.st = .wait) && decide (sl.waiting = .send chan tile len) && decide (sl.stopReq = .none) && decide (chan < 4) && decide (tile < 8) && let old : List ChanItem := vat [] (s.core (downstream core)).chans chan; decide (old.length + (shVrows (vat Tile.empty sl.tiles tile).shape - fld sl.restart 0 16) < 32) && decide (fld sl.restart 0 16 ≤ shVrows (vat Tile.empty sl.tiles tile).shape) && decide (shVrows (vat Tile.empty sl.tiles tile).shape ≤ 32)) = true) := by decide +kernel
theorem witness_MatrixMultiply :
    ∀ q ∈ mmaForms, (let s : State := arrays 5; let a : Num3 := 2; let td : Num3 := 0; let w : Num2 := 1; let sel : BitVec 4 := 3; let k : MmaKind := q.2 sel.toNat; let tl : Tile := s.me.tile td; let h : Half := (planeOf s w).active; let ty : Nat := accTy (accOf s a); decide (ToTheEnd s) && decide (resumesAt s (restartKey 3 0 k.fn) = none) && decide (s.me.accown.getLsbD a.toNat = true) && decide (s.me.plown.getLsbD w.toNat = true) && decide (lockFree s a) && decide (tl.shape ≠ 0) && decide (h.shape ≠ 0) && decide (pairs k (shType tl.shape) (hType h.shape) ty = true) && decide (k.eye = none → shVcols tl.shape = hRows h.shape) && decide ((k.eye.all fun e => decide (projReadable s (eyeRows e.1 e.2).1 (eyeRows e.1 e.2).2)) = true) && decide (ntOf (fpcOf s) = false) && decide (shVrows tl.shape ≤ 32)) = true := by decide +kernel
theorem witness_EyepieceTiles :
    ((let expand : Bool := true; let s : State := tiled 5 9; let d : Num3 := 5; let a : Num3 := 0; let sel : BitVec 4 := 3; decide (ToTheEnd s) && decide (resumesAt s (restartKey 3 4 (if expand then 0 else 1)) = none) && let res : W64 := mkShape 5 (shRows (s.me.tile a).shape) 32 (shVrows (s.me.tile a).shape) 32; decide (acceptable s d a [2, 5] res) && decide (projReadable s (eyeRows expand sel.toNat).1 (eyeRows expand sel.toNat).2) && decide (ntOf (fpcOf s) = false)) = true) ∧
    ((let expand : Bool := false; let s : State := tiled 2 9; let d : Num3 := 5; let a : Num3 := 0; let sel : BitVec 4 := 15; decide (ToTheEnd s) && decide (resumesAt s (restartKey 3 4 (if expand then 0 else 1)) = none) && let res : W64 := mkShape 5 (shRows (s.me.tile a).shape) 32 (shVrows (s.me.tile a).shape) 32; decide (acceptable s d a [2, 5] res) && decide (projReadable s (eyeRows expand sel.toNat).1 (eyeRows expand sel.toNat).2) && decide (ntOf (fpcOf s) = false)) = true) := by decide +kernel
theorem witness_Accumulators :
    ((let s : State := arrays 5; let a : Num3 := 3; let ty : BitVec 2 := 1; decide ((accOf s a).claimed = false) && decide (∀ q ∈ s.myCore.claims, q.2 ≠ (false, a.toNat)) && decide (lockFree s a)) = true) ∧
    ((let s : State := arrays 5; let a : Num3 := 2; decide (s.me.accown.getLsbD a.toNat = true) && decide (lockFree s a)) = true) ∧
    ((let s : State := arrays 5; let a : Num3 := 2; let td : Num3 := 5; let rb : Num3 := 7; decide (ToTheEnd s) && decide (resumesAt s (restartKey 3 2 0) = none) && decide ((accOf s a).claimed = true) && decide (lockFree s a) && let ty : Nat := accTy (accOf s a); true) = true) ∧
    ((let s : State := wide; let a : Num3 := 2; let td : Num3 := 0; let rb : Num3 := 7; decide (ToTheEnd s) && decide (resumesAt s (restartKey 3 2 1) = none) && decide (s.me.accown.getLsbD a.toNat = true) && decide (lockFree s a) && let sh : W64 := (s.me.tile td).shape; decide (sh ≠ 0) && decide (shType sh = accTy (accOf s a)) && decide (shCols sh = 16) && decide (shVrows sh ≤ 32) && decide (shVcols sh ≤ 16)) = true) := by decide +kernel
theorem witness_Planes :
    ((let s : State := arrays 5; let w : Num2 := 1; decide (s.me.plown.getLsbD w.toNat = true)) = true) ∧
    ((let s : State := arrays 5; let w : Num2 := 0; decide ((planeOf s w).claimed = false) && decide (∀ q ∈ s.myCore.claims, q.2 ≠ (true, w.toNat))) = true) ∧
    ((let s : State := demo; let w : Num2 := 1; decide (s.me.plown.getLsbD w.toNat = false)) = true) ∧
    ((let s : State := demo; let a : Num3 := 2; decide (s.me.accown.getLsbD a.toNat = false)) = true) := by decide +kernel
theorem witness_AttentionTiles :
    ((let s : State := (tiled 7 9).modMe fun sl => sl.setTile 2 (filled 1 1); let d : Num3 := 5; let a : Num3 := 0; let b : Num3 := 2; decide (ToTheEnd s) && decide (s.cur.slot ≠ 14) && decide (resumesAt s (restartKey 6 3 0) = none) && let va : W64 := (s.me.tile a).shape; let vb : W64 := (s.me.tile b).shape; decide (va ≠ 0) && decide (vb ≠ 0) && decide (shType va = 7) && decide (shType vb = 1) && decide (shVcols va ≤ shVcols vb) && decide (1 ≤ shVrows vb) && decide (shapeOk va = true) && decide (b = d → vb = va) && let f : Nat → Nat → FR := fun r j => scoreEl ((s.me.tile a).elem r j) ((s.me.tile b).elem 0 j); decide (noNanTrap s 0 va f)) = true) ∧
    ((let s : State := tiled 7 9; let d : Num3 := 5; let a : Num3 := 0; let b : Num3 := 1; decide (ToTheEnd s) && decide (s.cur.slot ≠ 14) && decide (resumesAt s (restartKey 6 4 0) = none) && let va : W64 := (s.me.tile a).shape; decide (va = (s.me.tile b).shape) && decide (va ≠ 0) && decide (shType va = 7) && decide (2 ≤ shCols va) && decide (shapeOk va = true) && let f : Nat → Nat → FR := fun r j => (tripRow ((s.me.tile a).rowElems r (shVcols va)) ((s.me.tile b).rowElems r (shVcols va))).getD j ⟨0, 0⟩; decide (noNanTrap s 0 va f)) = true) := by decide +kernel
theorem witness_CopyAcceptance :
    (∀ q ∈ plainCopies, (let s : State := copySlot q.2 0x210000 (sizeOf2 q.2); let d : Reg := 3; let a : Reg := 4; decide (NoPort s [d, a] none) && decide (s.cur.slot = 14) && decide (descAt s d a) && okThen (readDesc s.cur.core (s.src a) s.issue) fun r_ u => let x := r_.1; let dcs := r_.2; decide (x.op = q.2) && decide (x.fieldsOk = true) && decide (x.sizeOk = true) && decide (u.myCore.copies.length < 16) && okThen (emptyBlock s.cur.core (s.src a) u) fun _ e => let c : Copy := plainCopy (u.slot s.cur.core (s.src d).toNat) (s.src d).toNat s.myWorld x; rangesThen s.cur.core c (e.chargeAll dcs) fun caps t => true) = true) ∧
    (∀ q ∈ plainCopies, (let s : State := copySlot q.2 (w64 (2 ^ 57)) (sizeOf2 q.2); let d : Reg := 3; let a : Reg := 4; decide (NoPort s [d, a] none) && decide (s.cur.slot = 14) && decide (descAt s d a) && okThen (readDesc s.cur.core (s.src a) s.issue) fun r_ u => let x := r_.1; let dcs := r_.2; decide (x.op = q.2) && decide (x.fieldsOk = true) && decide (x.sizeOk = true) && decide (u.myCore.copies.length < 16) && okThen (emptyBlock s.cur.core (s.src a) u) fun _ e => let c : Copy := plainCopy (u.slot s.cur.core (s.src d).toNat) (s.src d).toNat s.myWorld x; rangesFailThen s.cur.core c (e.chargeAll dcs) fun ti t => true) = true) ∧
    ((let s : State := laidSlot 0x210000 (spad 0x1000); let d : Reg := 3; let a : Reg := 4; decide (NoPort s [d, a] none) && decide (s.cur.slot = 14) && decide (descAt s d a) && okThen (readDesc s.cur.core (s.src a) s.issue) fun r_ u => let x := r_.1; let dcs := r_.2; decide (x.op = 2) && decide (x.fieldsOk = true) && decide (x.sizeOk = true) && decide (u.myCore.copies.length < 16) && okThen (layoutCopy s.cur.core (s.src d).toNat s.myWorld (s.src a) x u) fun (bad, c, lcs) v => okThen (emptyBlock s.cur.core (s.src a) v) fun _ e => decide (bad = none) && rangesThen s.cur.core c (e.chargeAll dcs) fun caps t => true) = true) ∧
    ((let s : State := wordsIn (laidSlot 0x210000 (spad 0x1000)) (spadLoc 0 0x110) [w64 (5 * 2 ^ 61 + 0x800)]; let d : Reg := 3; let a : Reg := 4; decide (NoPort s [d, a] none) && decide (s.cur.slot = 14) && decide (descAt s d a) && okThen (readDesc s.cur.core (s.src a) s.issue) fun r_ u => let x := r_.1; let dcs := r_.2; decide (x.op = 2) && decide (x.fieldsOk = true) && decide (x.sizeOk = true) && decide (u.myCore.copies.length < 16) && okThen (layoutCopy s.cur.core (s.src d).toNat s.myWorld (s.src a) x u) fun (bad, c, lcs) v => okThen (emptyBlock s.cur.core (s.src a) v) fun _ e => decide (bad = none) && rangesFailThen s.cur.core c (e.chargeAll dcs) fun ti t => true) = true) ∧
    ((let s : State := laidSlot 0x210000 (w64 (2 ^ 57)); let d : Reg := 3; let a : Reg := 4; decide (NoPort s [d, a] none) && decide (s.cur.slot = 14) && decide (descAt s d a) && okThen (readDesc s.cur.core (s.src a) s.issue) fun r_ u => let x := r_.1; let dcs := r_.2; decide (x.op = 2) && decide (x.fieldsOk = true) && decide (x.sizeOk = true) && decide (u.myCore.copies.length < 16) && okThen (layoutCopy s.cur.core (s.src d).toNat s.myWorld (s.src a) x u) fun (bad, c, lcs) v => okThen (emptyBlock s.cur.core (s.src a) v) fun _ e => someThen (bad) fun ti => true) = true) ∧
    (∀ q ∈ plainCopies ++ [(.cpyl, 2)], (let s : State := demo; let d : Reg := 3; let a : Reg := 4; decide (NoPort s [d, a] none) && decide (s.cur.slot ≠ 14)) = true) := by decide +kernel
theorem witness_CopyProgress :
    ((let s : State := copying (copyOf 1 0x210000 .running); let core : Nat := 0; let k : Nat := 0; someThen ((s.core core).copies[k]?) fun c => decide (c.st = .running) && decide ((s.world c.world).stopped = false) && decide (∀ x ∈ (s.core core).copies.take k, x.blocks c = false) && someThen (c.part c.row) fun r_ => let r := r_.1; let a := r_.2.1; let b := r_.2.2.1; let len := r_.2.2.2; let n : Nat := min 64 (len - c.byte); okThen (engineRead (c.who core) (a + w64 c.byte) n s) fun bs u => okThen (engineWrite (c.who core) (b + w64 c.byte) bs (landOn (c.who core) c.bar n) u) fun _ t => true) = true) ∧
    ((let s : State := copying (copyOf 0 (w64 (2 ^ 57)) .running); let core : Nat := 0; let k : Nat := 0; someThen ((s.core core).copies[k]?) fun c => decide (c.st = .running) && decide ((s.world c.world).stopped = false) && decide (∀ x ∈ (s.core core).copies.take k, x.blocks c = false) && someThen (c.part c.row) fun r_ => let r := r_.1; let a := r_.2.1; let b := r_.2.2.1; let len := r_.2.2.2; let n : Nat := min 64 (len - c.byte); trapThen (engineRead (c.who core) (a + w64 c.byte) n s) fun ti t => true) = true) ∧
    ((let s : State := copying (copyOf 0 0x210000 .done); let core : Nat := 0; let k : Nat := 0; someThen ((s.core core).copies[k]?) fun c => decide (c.st = .done) && decide ((s.world c.world).stopped = false)) = true) ∧
    ((let s : State := demo.modSlot 0 3 fun sl => { sl with copyFault := some ⟨0x20, 0, 0, 0⟩, st := .run }; let core : Nat := 0; let n : Nat := 3; someThen ((s.slot core n).copyFault) fun ti => decide ((s.slot core n).st = .run) && decide ((s.slot core n).reissue = false)) = true) := by decide +kernel
theorem witness_HeldCopies :
    ((let s : State := copying (copyOf 0 0x210000 .held); let a : Reg := 4; let i : Nat := 0; let c : Copy := copyOf 0 0x210000 .held; decide (NoPort s [a] none) && decide (s.cur.slot = 15) && decide (OldestHeld s.issue (s.src a) i c) && decide (c.accepted = true)) = true) ∧
    ((let s : State := copying { copyOf 0 0x210000 .held with accepted := false }; let a : Reg := 4; let i : Nat := 0; let c : Copy := { copyOf 0 0x210000 .held with accepted := false }; decide (NoPort s [a] none) && decide (s.cur.slot = 15) && decide (OldestHeld s.issue (s.src a) i c) && decide (c.accepted = false) && decide (c.laid = true) && rangesThen s.cur.core c s.issue fun caps t => true) = true) ∧
    ((let s : State := laidOut (copying unlaid); let a : Reg := 4; let i : Nat := 0; let c : Copy := unlaid; decide (NoPort s [a] none) && decide (s.cur.slot = 15) && decide (OldestHeld s.issue (s.src a) i c) && decide (c.accepted = false) && decide (c.laid = false) && okThen (c.record s.cur.core c.src s.issue) fun r_ u => let l := r_.1; let cs := r_.2; okThen (c.lay s.cur.core l u) fun r_ v => let d := r_.1; let ds := r_.2; rangesThen s.cur.core d v fun caps t => true) = true) ∧
    ((let s : State := copying (copyOf 0 0x210000 .held); let a : Reg := 4; let i : Nat := 0; let c : Copy := copyOf 0 0x210000 .held; decide (NoPort s [a] none) && decide (s.cur.slot = 15) && decide (OldestHeld s.issue (s.src a) i c) && decide (c.laid = true)) = true) ∧
    ((let s : State := laidOut (copying unlaid); let a : Reg := 4; let i : Nat := 0; let c : Copy := unlaid; decide (NoPort s [a] none) && decide (s.cur.slot = 15) && decide (OldestHeld s.issue (s.src a) i c) && decide (c.laid = false)) = true) ∧
    ((let s : State := copying (copyOf 0 0x210000 .held); let a : Reg := 4; let i : Nat := 0; let c : Copy := copyOf 0 0x210000 .held; decide (NoPort s [a] none) && decide (s.cur.slot = 15) && decide (OldestHeld s.issue (s.src a) i c) && decide (c.laid = true) && decide (c.accepted = true)) = true) ∧
    ((let s : State := copying { copyOf 0 0x210000 .held with accepted := false }; let a : Reg := 4; let i : Nat := 0; let c : Copy := { copyOf 0 0x210000 .held with accepted := false }; decide (NoPort s [a] none) && decide (s.cur.slot = 15) && decide (OldestHeld s.issue (s.src a) i c) && decide (c.laid = true) && decide (c.accepted = false)) = true) ∧
    ((let c : Copy := copyOf 0 0x210000 .held; decide (c.op = 0)) = true) ∧
    ((let c : Copy := copyOf 1 0x210000 .running; decide (c.op ≠ 0) && decide (c.runs = [])) = true) ∧
    ((let c : Copy := copyOf 1 0x210000 .held; decide (c.op ≠ 0) && decide (c.runs = []) && decide (c.holes = []) && decide (c.fail = c.row) && decide (c.row < c.rows) && decide (c.byte < c.rowBytes)) = true) ∧
    ((let s : State := demo; let a : Reg := 4; decide (NoPort s [a] none) && decide (s.cur.slot ≠ 15)) = true) := by decide +kernel
theorem witness_Drain :
    ((let s : State := demo; let path : Num2 := 3; let t : State := s.issue.performSlot s.cur.core s.cur.slot; decide (s.issue.isFull (ctrlLoc s.cur.core (32 * s.cur.slot)) = false) && decide (∀ c ∈ s.issue.myCore.copies, c.slot = s.cur.slot → c.accepted = true → pathOf c.dst = path.toNat → c.st = .done) && decide (∀ e ∈ t.myCore.sb, e.uid = t.me.uid → ∀ x ∈ e.targets, targetPath x ≠ path.toNat)) = true) ∧
    ((let s : State := demo.modMyCore fun k => { k with copies := [{ copyOf 0 0x210000 .running with slot := 0 }] }; let path : Num2 := 0; let t : State := s.issue.performSlot s.cur.core s.cur.slot; decide (∃ c ∈ s.issue.myCore.copies, c.slot = s.cur.slot ∧ pathOf c.dst = path.toNat ∧ c.st ≠ .done)) = true) ∧
    ((let s : State := State.setBank (demo.modMyCore fun k => { k with sb := [{ entryAt (spadLoc 0 8) with targets := [0] }] }) (spadLoc 0 8) { Bank.init with holder := some ⟨1, 3, 99⟩ }; let path : Num2 := BitVec.ofNat 2 (targetPath 0); let t : State := s.issue.performSlot s.cur.core s.cur.slot; decide (s.issue.isFull (ctrlLoc s.cur.core (32 * s.cur.slot)) = false) &&  decide ((t.myCore.sb.any fun e => decide (e.uid = t.me.uid) && e.targets.any fun x => decide (targetPath x = path.toNat)) = true)) = true) := by decide +kernel
theorem witness_Messages :
    ((let s : State := withRegs demo [(3, 1), (4, spad 0x100)]; let d : Reg := 3; let a : Reg := 4; let m : Mod := ⟨2, 4, 0⟩; decide (NoPort s [d, a] none) && let v : W64 := s.src d; let ea : W64 := s.src a; decide (fld v 32 32 = 0) && decide (flag v 30 = false) && decide (flag v 31 = false → fld v 13 17 = 0) && decide (flag v 31 = true → s.cur.slot = 15) && decide (ea.toNat % 16 = 0) && decide (fld ea 61 3 = 6) && decide (fld ea 58 3 ≤ 2) && decide ((s.issue.core (fld v 4 9)).world = s.issue.myWorld) && okThen (releaseAt m.order m.scope s.issue) fun _ u => okThen (readMine ea 16 8 Mod.none u) fun r_ t => let bs := r_.1; let caps := r_.2; true) = true) ∧
    ((let s : State := withRegs (inSlot demo 15) [(3, 0xBFFFE001), (4, spad 0x100)]; let d : Reg := 3; let a : Reg := 4; let m : Mod := Mod.none; decide (NoPort s [d, a] none) && let v : W64 := s.src d; let ea : W64 := s.src a; decide (fld v 32 32 = 0) && decide (flag v 30 = false) && decide (flag v 31 = false → fld v 13 17 = 0) && decide (flag v 31 = true → s.cur.slot = 15) && decide (ea.toNat % 16 = 0) && decide (fld ea 61 3 = 6) && decide (fld ea 58 3 ≤ 2) && decide ((s.issue.core (fld v 4 9)).world = s.issue.myWorld) && okThen (releaseAt m.order m.scope s.issue) fun _ u => okThen (readMine ea 16 8 Mod.none u) fun r_ t => let bs := r_.1; let caps := r_.2; true) = true) ∧
    ((let s : State := { demo with net := [⟨1, 2, aMsg, none⟩, ⟨0, 2, aMsg, some (0, 0, 4)⟩] }; let core : Nat := 0; let before : List NetMsg := [⟨1, 2, aMsg, none⟩]; let after : List NetMsg := []; let n : NetMsg := ⟨0, 2, aMsg, some (0, 0, 4)⟩; decide (s.net = before ++ n :: after) && decide (n.core = core) && decide (∀ x ∈ before, x.core = core → (s.core core).placeMsg x.slot x.msg = none) && someThen ((s.core core).placeMsg n.slot n.msg) fun k => true) = true) ∧
    ((let c : Core := demo.myCore; let n : Nat := 2; let m : Msg := aMsg; decide ((c.inbox n).length < 8) && decide (∀ x ∈ c.overflow, x.tslot ≠ n)) = true) ∧
    ((let c : Core := { demo.myCore with overflow := [aMsg] }; let n : Nat := 2; let m : Msg := aMsg; decide (∃ x ∈ c.overflow, x.tslot = n) && decide (c.overflow.length < 32)) = true) ∧
    ((let c : Core := (overflowed demo).myCore; let n : Nat := 2; let m : Msg := aMsg; decide (∃ x ∈ c.overflow, x.tslot = n) && decide (32 ≤ c.overflow.length)) = true) ∧
    ((let s : State := mailed demo; let d : Reg := 3; let a : Reg := 4; decide (NoPort s [a] (some d)) && decide (s.issue.myCore.inbox s.cur.slot ≠ [])) = true) ∧
    ((let s : State := demo.modMe fun sl => { sl with limit := some 0 }; let d : Reg := 3; let a : Reg := 4; decide (NoPort s [a] (some d)) && decide (s.issue.myCore.inbox s.cur.slot = []) && someThen (s.issue.me.limit) fun n => decide (n ≤ s.issue.cycle)) = true) ∧
    ((let s : State := demo; let d : Reg := 3; let a : Reg := 4; decide (NoPort s [a] (some d)) && decide (s.issue.myCore.inbox s.cur.slot = []) && decide (s.issue.me.limit = none)) = true) ∧
    ((let s : State := demo.modMe fun sl => { sl with limit := some 1000000 }; let d : Reg := 3; let a : Reg := 4; decide (NoPort s [a] (some d)) && decide (s.issue.myCore.inbox s.cur.slot = []) && someThen (s.issue.me.limit) fun n => decide (s.issue.cycle < n)) = true) ∧
    ((let s : State := demo.modSlot 0 3 fun sl => { sl with st := .wait, waiting := .blocked true, limit := some 0 }; let core : Nat := 0; let n : Nat := 3; let t : Nat := 0; let b : Bool := true; decide ((s.slot core n).st = .wait) && decide ((s.slot core n).waiting = .blocked b) && decide ((s.slot core n).limit = some t) && decide (t ≤ s.cycle)) = true) ∧
    ((let s : State := demo; let d : Reg := 3; let a : Reg := 4; let m : Mod := ⟨1, 4, 0⟩; decide (NoPort s [a] (some d)) && decide (m.spec.getLsbD 0 = false) && decide (s.issue.myCore.inbox s.cur.slot = [])) = true) ∧
    ((let s : State := inSlot demo 15; let d : Reg := 3; let a : Reg := 4; let m : Mod := ⟨1, 4, 1⟩; decide (NoPort s [a] (some d)) && decide (m.spec.getLsbD 0 = true) && decide (s.cur.slot = 15) && decide (s.issue.myCore.overflow = [])) = true) ∧
    ((let s : State := demo; let d : Reg := 3; let a : Reg := 4; let m : Mod := ⟨1, 4, 1⟩; decide (NoPort s [a] (some d)) && decide (m.spec.getLsbD 0 = true) && decide (s.cur.slot ≠ 15)) = true) ∧
    ((let s : State := mailed (demoRegs [(4, spad 0x100)]); let d : Reg := 3; let a : Reg := 4; let m : Mod := ⟨1, 4, 0⟩; decide (NoPort s [a] (some d)) && consThen (s.issue.myCore.inbox s.cur.slot) fun x rest => decide (m.spec.getLsbD 0 = false) && decide ((s.src a).toNat % 16 = 0) && decide (fld (s.src a) 61 3 = 6) && decide (fld (s.src a) 58 3 ≤ 2) && okThen (writeRow s.who [(s.src a, natToLe 8 x.w0.toNat ++ natToLe 8 x.w1.toNat)] 8 s.issue) fun caps u => consThen (s.issue.myCore.inbox s.cur.slot) fun x rest => decide (m.spec.getLsbD 0 = false)) = true) ∧
    ((let s : State := overflowed (withRegs (inSlot demo 15) [(4, spad 0x100)]); let d : Reg := 3; let a : Reg := 4; let m : Mod := ⟨1, 4, 1⟩; decide (NoPort s [a] (some d)) && consThen s.issue.myCore.overflow fun x rest => decide (m.spec.getLsbD 0 = true ∧ s.cur.slot = 15) && decide ((s.src a).toNat % 16 = 0) && decide (fld (s.src a) 61 3 = 6) && decide (fld (s.src a) 58 3 ≤ 2) && okThen (writeRow s.who [(s.src a, natToLe 8 x.w0.toNat ++ natToLe 8 x.w1.toNat)] 8 s.issue) fun caps u => consThen s.issue.myCore.overflow fun x rest => decide (m.spec.getLsbD 0 = true ∧ s.cur.slot = 15)) = true) := by decide +kernel
theorem witness_FusedAtomics :
    (∀ q ∈ fusedOps, (let s : State := memRegs; let d : Reg := 3; let a : Reg := 1; let m : Mod := ⟨3, 4, 0⟩; decide (NoPort s [d, a] (some d)) && bankThen s (s.src a) .atomic m fun pl cap t => true) = true) ∧
    (∀ q ∈ fusedOps, (let s : State := heldBy memRegs 3 7 (spadLoc 0 0x100); let d : Reg := 3; let a : Reg := 1; let m : Mod := ⟨3, 4, 0⟩; decide (NoPort s [d, a] (some d)) && bankThen s (s.src a) .atomic m fun pl cap t => true) = true) ∧
    ((let s : State := memRegs; let d : Reg := 3; let a : Reg := 1; let b : Reg := 2; let m : Mod := ⟨3, 4, 0⟩; decide (NoPort s [d, a, b] (some d)) && bankThen s (s.src a) .atomic m fun pl cap t => true) = true) ∧
    ((let s : State := demo; let loc : Nat := spadLoc 0 8; let fn : Nat := 8; let r : TurnReq := askOf (.atomic 8); decide (r.kind = .atomic fn) && decide ((s.bank loc).deferred = []) && decide (s.keyDead r.world = false)) = true) ∧
    ((let s : State := demo; let loc : Nat := spadLoc 0 8; let fn : Nat := 8; let r : TurnReq := askOf (.atomic 8); decide (r.kind = .atomic fn) && decide ((s.bank loc).deferred = []) && decide (s.keyDead r.world = false) && let l := spadLoc 0 16; decide (l < loc ∨ loc + 8 ≤ l)) = true) ∧
    ((let s : State := demo; let loc : Nat := spadLoc 0 8; let fn : Nat := 8; let r : TurnReq := askOf (.atomic 8); decide (r.kind = .atomic fn) && decide ((s.bank loc).deferred = []) && decide (s.keyDead r.world = false) && decide (r.reg ≠ 0) && decide (¬((s.core r.core).portIn r.slot = true ∧ r.reg = qi)) && decide (¬((s.core r.core).portOut r.slot = true ∧ r.reg = qo))) = true) := by decide +kernel
theorem witness_Reservations :
    ((let s : State := holding; let d : Reg := 3; let a : Reg := 1; let m : Mod := ⟨1, 4, 0⟩; decide (NoPort s [a] (some d)) && bankThen s (s.src a) .atomic m fun pl cap t => decide ((t.lapse pl.loc).holdsWord t.me.uid pl.loc = true)) = true) ∧
    ((let s : State := memRegs; let d : Reg := 3; let a : Reg := 1; let m : Mod := ⟨1, 4, 0⟩; decide (NoPort s [a] (some d)) && bankThen s (s.src a) .atomic m fun pl cap t => decide ((t.lapse pl.loc).holdsWord t.me.uid pl.loc = false) && decide ((t.lapse pl.loc).me.held.length < 4)) = true) ∧
    ((let s : State := memRegs.modMe fun sl => { sl with held := [8, 16, 24, 32] }; let d : Reg := 3; let a : Reg := 1; let m : Mod := ⟨1, 4, 0⟩; decide (NoPort s [a] (some d)) && bankThen s (s.src a) .atomic m fun pl cap t => decide ((t.lapse pl.loc).holdsWord t.me.uid pl.loc = false) && consThen ((t.lapse pl.loc).me.held) fun w rest => decide (3 ≤ rest.length)) = true) ∧
    ((let s : State := demo; let loc : Nat := spadLoc 0 8; let r : TurnReq := askOf .rsv; decide (r.kind = .rsv)) = true) ∧
    ((let s : State := demo; let loc : Nat := spadLoc 0 8; let r : TurnReq := askOf .rsv; decide (r.kind = .rsv) && decide (r.reg ≠ 0) && decide (¬((s.core r.core).portIn r.slot = true ∧ r.reg = qi)) && decide (¬((s.core r.core).portOut r.slot = true ∧ r.reg = qo))) = true) ∧
    ((let s : State := holding; let d : Reg := 3; let a : Reg := 1; let m : Mod := ⟨2, 4, 0⟩; decide (NoPort s [d, a] none) && relThen s (s.src a) m fun pl cap t => decide (t.holdsWord t.me.uid pl.loc = true)) = true) ∧
    ((let s : State := memRegs; let d : Reg := 3; let a : Reg := 1; let m : Mod := ⟨2, 4, 0⟩; decide (NoPort s [d, a] none) && relThen s (s.src a) m fun pl cap t => decide (t.holdsWord t.me.uid pl.loc = false)) = true) ∧
    ((let s : State := holding; let a : Reg := 1; let m : Mod := ⟨2, 4, 0⟩; decide (NoPort s [a] none) && relThen s (s.src a) m fun pl cap t => true) = true) ∧
    ((let s : State := ({ heldBy demo 3 7 (spadLoc 0 8) with cycle := 4096 }); let loc : Nat := spadLoc 0 8; let h : Holder := ⟨0, 3, 7⟩; decide ((s.bank loc).holder = some h) && decide ((s.bank loc).grantedAt + 4096 ≤ s.cycle)) = true) ∧
    ((let s : State := heldBy demo 3 7 (spadLoc 0 8); let loc : Nat := spadLoc 0 8; decide ((s.bank loc).deferred = [])) = true) ∧
    ((let s : State := demo.setBank (spadLoc 0 8) { Bank.init with queue := [askOf .rsv] }; let loc : Nat := spadLoc 0 8; let r : TurnReq := askOf .rsv; let rest : List TurnReq := []; decide ((s.bank loc).queue = r :: rest) && decide ((s.bank loc).holder = none) && decide (r.kind = .texit → s.unitsLocked r.core r.slot = false) && let t : State := (s.setBank loc { s.bank loc with queue := rest }).turnServe loc r; true) = true) := by decide +kernel
theorem witness_WatchesAndWaits :
    ((let s : State := memRegs; let d : Reg := 3; let a : Reg := 2; let m : Mod := ⟨1, 4, 0⟩; decide (NoPort s [a] (some d)) && bankThen s (s.src a) .read m fun pl cap t => true) = true) ∧
    ((let s : State := demo; let d : Reg := 3; let a : Reg := 4; decide (NoPort s [a] (some d)) && decide (s.issue.me.watch = [] ∨ (∃ x ∈ s.issue.me.watch, x.triggered = true) ∨ s.issue.me.limit.any (fun n => decide (n ≤ s.issue.cycle)) = true)) = true) ∧
    ((let s : State := watched true; let d : Reg := 3; let a : Reg := 4; decide (NoPort s [a] (some d)) && decide (s.issue.me.watch = [] ∨ (∃ x ∈ s.issue.me.watch, x.triggered = true) ∨ s.issue.me.limit.any (fun n => decide (n ≤ s.issue.cycle)) = true)) = true) ∧
    ((let s : State := (watched false).modMe fun sl => { sl with limit := some 0 }; let d : Reg := 3; let a : Reg := 4; decide (NoPort s [a] (some d)) && decide (s.issue.me.watch = [] ∨ (∃ x ∈ s.issue.me.watch, x.triggered = true) ∨ s.issue.me.limit.any (fun n => decide (n ≤ s.issue.cycle)) = true)) = true) ∧
    ((let s : State := watched false; let d : Reg := 3; let a : Reg := 4; decide (NoPort s [a] (some d)) && decide (s.issue.me.watch ≠ []) && decide (∀ x ∈ s.issue.me.watch, x.triggered = false) && decide (s.issue.me.limit = none) && let lim := (if s.src a = 0 then none else some (s.issue.cycle + (s.src a).toNat)); true) = true) ∧
    ((let s : State := demo.modMyCore fun k => { k with cache := [(5, ⟨demo.me, .parked (.watching (some 0)), [], [], false⟩)] }; let core : Nat := 0; let n : Nat := 5; let t : Nat := 0; let e : CtxEntry := ⟨demo.me, .parked (.watching (some 0)), [], [], false⟩; decide ((s.core core).cache.find? (fun e => decide (e.1 = n)) = some (n, e)) && decide (e.st = .parked (.watching (some t))) && decide (t ≤ s.cycle)) = true) ∧
    ((let s : State := demo; let m : Mod := ⟨3, 4, 0⟩; okThen (releaseAt m.order m.scope s.issue) fun _ t => true) = true) ∧
    ((let s : State := withRegs memRegs [(7, 0x030201)]; let d : Reg := 2; let a : Reg := 3; decide (NoPort s [d, a] none) && okThen (waitKey s.who (s.src d) s.issue) fun key u => okThen (checkAccess s.who (s.src d) 8 .read [.read] u) fun r_ v => let pl := r_.1; let cap := r_.2; decide (v.waitTable.length < 65536) && okThen (loadPlace s.who pl 8 ⟨1, 4, 0⟩ (s.src d) (v.modMyCore (·.invalidateL1))) fun bs t => let e : State := (t.chargeOnce cap).modMyCore (·.invalidateL1); decide (w64 (leToNat bs) ≠ s.src a)) = true) ∧
    ((let s : State := withRegs memRegs [(7, 0x030201)]; let d : Reg := 2; let a : Reg := 7; decide (NoPort s [d, a] none) && okThen (waitKey s.who (s.src d) s.issue) fun key u => okThen (checkAccess s.who (s.src d) 8 .read [.read] u) fun r_ v => let pl := r_.1; let cap := r_.2; decide (v.waitTable.length < 65536) && okThen (loadPlace s.who pl 8 ⟨1, 4, 0⟩ (s.src d) (v.modMyCore (·.invalidateL1))) fun bs t => let e : State := (t.chargeOnce cap).modMyCore (·.invalidateL1); decide (w64 (leToNat bs) = s.src a) && decide (s.cur.slot < 14)) = true) ∧
    ((let s : State := withRegs (inSlot memRegs 15) [(2, 0x210000), (7, 0x030201)]; let d : Reg := 2; let a : Reg := 7; decide (NoPort s [d, a] none) && okThen (waitKey s.who (s.src d) s.issue) fun key u => okThen (checkAccess s.who (s.src d) 8 .read [.read] u) fun r_ v => let pl := r_.1; let cap := r_.2; decide (v.waitTable.length < 65536) && okThen (loadPlace s.who pl 8 ⟨1, 4, 0⟩ (s.src d) (v.modMyCore (·.invalidateL1))) fun bs t => let e : State := (t.chargeOnce cap).modMyCore (·.invalidateL1); decide (w64 (leToNat bs) = s.src a) && decide (14 ≤ s.cur.slot)) = true) ∧
    ((let s : State := memRegs; let d : Reg := 2; let a : Reg := 3; let m : Mod := ⟨1, 4, 0⟩; decide (NoPort s [d] (some a)) && okThen (waitKey s.who (s.src d) s.issue) fun key u => okThen (releaseAll u) fun _ v => okThen (checkAccess s.who (s.src d) 8 .write [.write] v) fun r_ t => let pl := r_.1; let cap := r_.2; true) = true) ∧
    ((let s : State := waiting1 demo; let w : Nat := 2; let va : Nat := 0x210000; let n : Nat := 1; decide (s.waitTable.Nodup) && let x := (⟨2, 0x210000, 1, 77⟩ : Waiter); true) = true) ∧
    ((let s : State := waiting1 demo; let w : Nat := 2; let va : Nat := 0x210000; let n : Nat := 1; decide (s.waitTable.Nodup)) = true) ∧
    ((let s : State := waiting1 demo; let w : Nat := 2; let va : Nat := 0x210000; let n : Nat := 1; decide (s.waitTable.Nodup)) = true) := by decide +kernel
theorem witness_Barriers :
    ((let s : State := barrierAt ⟨2, 0, 0, 5, false, 4⟩ 0; let d : Reg := 6; let a : Reg := 7; decide (NoPort s [d] (some a)) && okThen (releaseAll s.issue) fun _ u => barThen s u (s.src d) fun pl cap t => decide ((t.barrier pl.loc).arrivals ≠ (t.barrier pl.loc).expected)) = true) ∧
    ((let s : State := barrierAt ⟨2, 1, 0, 5, false, 4⟩ 0; let d : Reg := 6; let a : Reg := 7; decide (NoPort s [d] (some a)) && okThen (releaseAll s.issue) fun _ u => barThen s u (s.src d) fun pl cap t => decide ((t.barrier pl.loc).arrivals ≠ (t.barrier pl.loc).expected)) = true) ∧
    ((let s : State := barrierAt ⟨2, 2, 8, 5, false, 4⟩ 0; let d : Reg := 6; let a : Reg := 7; decide (NoPort s [d] (some a)) && okThen (releaseAll s.issue) fun _ u => barThen s u (s.src d) fun pl cap t => decide ((t.barrier pl.loc).arrivals = (t.barrier pl.loc).expected)) = true) ∧
    ((let s : State := barrierAt ⟨2, 0, 0, 5, false, 4⟩ 4; let d : Reg := 6; let a : Reg := 7; decide (NoPort s [d, a] none) && barThen s s.issue (s.src d) fun pl cap t => decide ((t.barrier pl.loc).phase ≠ fld (s.src a) 0 8)) = true) ∧
    ((let s : State := barrierAt ⟨2, 0, 0, 5, false, 4⟩ 5; let d : Reg := 6; let a : Reg := 7; decide (NoPort s [d, a] none) && barThen s s.issue (s.src d) fun pl cap t => decide ((t.barrier pl.loc).phase = fld (s.src a) 0 8)) = true) ∧
    ((let s : State := barrierAt ⟨2, 0, 1, 5, false, 4⟩ 0xFFFFFE; let d : Reg := 6; let a : Reg := 7; decide (NoPort s [d, a] none) && barThen s s.issue (s.src d) fun pl cap t => decide ((s.src a).toNat < 2 ^ 24) && decide ((t.barrier pl.loc).pending + (s.src a).toNat < 2 ^ 24) && decide (s.src a ≠ 0)) = true) ∧
    ((let s : State := barrierAt ⟨2, 0, 1, 5, false, 4⟩ 0; let d : Reg := 6; let a : Reg := 7; decide (NoPort s [d, a] none) && barThen s s.issue (s.src d) fun pl cap t => decide (s.src a = 0)) = true) ∧
    ((let s : State := barrierAt ⟨2, 0, 1, 5, false, 4⟩ 0xFFFFFF; let d : Reg := 6; let a : Reg := 7; decide (NoPort s [d, a] none) && barThen s s.issue (s.src d) fun pl cap t => decide (2 ^ 24 ≤ (s.src a).toNat ∨ 2 ^ 24 ≤ (t.barrier pl.loc).pending + (s.src a).toNat)) = true) ∧
    ((let s : State := barrierAt ⟨2, 0, 0, 5, false, 4⟩ 0x1000000; let d : Reg := 6; let a : Reg := 7; decide (NoPort s [d, a] none) && barThen s s.issue (s.src d) fun pl cap t => decide (2 ^ 24 ≤ (s.src a).toNat ∨ 2 ^ 24 ≤ (t.barrier pl.loc).pending + (s.src a).toNat)) = true) ∧
    ((let s : State := barrierAt ⟨2, 0, 1, 5, false, 4⟩ 0x40001; let d : Reg := 6; let a : Reg := 7; decide (NoPort s [d, a] none) && barThen s s.issue (s.src d) fun pl cap t => decide (fld (s.src a) 0 16 ≠ 0) && decide (1 ≤ fld (s.src a) 16 3) && decide (fld (s.src a) 16 3 ≤ 4)) = true) ∧
    ((let s : State := barrierAt ⟨2, 0, 1, 5, false, 4⟩ 0; let d : Reg := 6; let a : Reg := 7; decide (NoPort s [d, a] none) && barThen s s.issue (s.src d) fun pl cap t => decide (NoPort s [d] (some a))) = true) ∧
    ((let s : State := barrierAt ⟨2, 1, 0, 5, false, 4⟩ 0; let d : Reg := 6; let a : Reg := 7; decide (NoPort s [d] (some a)) && decide (resumesAt s (restartKey 4 2 2) = none) && okThen (releaseAll s.issue) fun _ u => barThen s u (s.src d) fun pl cap t => decide ((t.barrier pl.loc).arrivals ≠ (t.barrier pl.loc).expected) && let p : Nat := (t.barrier pl.loc).phase; let w : State := ((t.settleBarrier s.cur.core t.me.uid s.myWorld pl.loc { t.barrier pl.loc with arrivals := (t.barrier pl.loc).arrivals + 1 }).chargeOnce cap).writeMine a (w64 p); decide ((w.barrier pl.loc).phase ≠ p)) = true) ∧
    ((let s : State := barrierAt ⟨2, 0, 0, 5, false, 4⟩ 0; let d : Reg := 6; let a : Reg := 7; decide (NoPort s [d] (some a)) && decide (resumesAt s (restartKey 4 2 2) = none) && okThen (releaseAll s.issue) fun _ u => barThen s u (s.src d) fun pl cap t => decide ((t.barrier pl.loc).arrivals ≠ (t.barrier pl.loc).expected) && let p : Nat := (t.barrier pl.loc).phase; let w : State := ((t.settleBarrier s.cur.core t.me.uid s.myWorld pl.loc { t.barrier pl.loc with arrivals := (t.barrier pl.loc).arrivals + 1 }).chargeOnce cap).writeMine a (w64 p); decide ((w.barrier pl.loc).phase = p)) = true) ∧
    ((let s : State := (barrierAt ⟨2, 0, 0, 5, false, 4⟩ 0).modMe fun sl => { sl with restart := restartWord (restartKey 4 2 2) 0x104 }; let d : Reg := 6; let a : Reg := 7; decide (NoPort s [d] (some a)) && someThen (resumesAt s (restartKey 4 2 2)) fun r => okThen (barPlace s.who (s.src d) s.issue) fun r_ t => let pl := r_.1; let cap := r_.2; decide ((t.barrier pl.loc).phase ≠ r % 256)) = true) ∧
    ((let s : State := demo; let core : Nat := 0; let uid : Nat := 1; let w : Nat := 2; let loc : Nat := spadLoc 0 0x200; let b : Barrier := ⟨65535, 65535, 0xFFFFFF, 255, true, 4⟩; decide (spadBase ≤ loc) && decide (b.expected < 2 ^ 16) && decide (b.arrivals < 2 ^ 16) && decide (b.pending < 2 ^ 24) && decide (b.phase < 256) && decide (b.scope < 8)) = true) ∧
    ((let s : State := demo; let core : Nat := 0; let uid : Nat := 1; let w : Nat := 2; let loc : Nat := spadLoc 0 0x200; let b : Barrier := ⟨65535, 65535, 0xFFFFFF, 255, true, 4⟩; decide (spadBase ≤ loc) && decide (b.expected < 2 ^ 16) && decide (b.arrivals < 2 ^ 16) && decide (b.pending < 2 ^ 24) && decide (b.phase < 256) && decide (b.scope < 8) && let l := spadLoc 0 0x220; decide (l < loc ∨ loc + 32 ≤ l)) = true) ∧
    ((let s : State := demo; let core : Nat := 0; let uid : Nat := 1; let w : Nat := 2; let loc : Nat := spadLoc 0 0x200; let b : Barrier := ⟨2, 2, 1, 5, false, 4⟩; decide (spadBase ≤ loc) && decide (b.expected < 2 ^ 16) && decide (b.arrivals < 2 ^ 16) && decide (b.pending < 2 ^ 24) && decide (b.phase < 256) && decide (b.scope < 8) && decide (b.arrivals ≠ b.expected ∨ b.pending ≠ 0)) = true) ∧
    ((let s : State := demo; let core : Nat := 0; let uid : Nat := 1; let w : Nat := 2; let loc : Nat := spadLoc 0 0x200; let b : Barrier := ⟨2, 2, 0, 255, false, 4⟩; decide (spadBase ≤ loc) && decide (b.expected < 2 ^ 16) && decide (b.arrivals < 2 ^ 16) && decide (b.pending < 2 ^ 24) && decide (b.phase < 256) && decide (b.scope < 8) && decide (b.arrivals = b.expected) && decide (b.pending = 0)) = true) ∧
    ((let s : State := barrierAt ⟨2, 0, 1, 5, false, 4⟩ 0; let core : Nat := 0; let w : Nat := 2; let loc : Nat := spadLoc 0 0x200; let n : Nat := 2; decide (spadBase ≤ loc) && decide ((s.barrier loc).pending < n)) = true) ∧
    ((let s : State := barrierAt ⟨2, 0, 1, 5, false, 4⟩ 0; let core : Nat := 0; let w : Nat := 2; let loc : Nat := spadLoc 0 0x200; let n : Nat := 1; decide (spadBase ≤ loc) && decide (n ≤ (s.barrier loc).pending) && decide (n ≠ 0)) = true) ∧
    ((let s : State := barrierAt ⟨2, 2, 0, 255, false, 4⟩ 0; let core : Nat := 0; let uid : Nat := 1; let w : Nat := 2; let loc : Nat := spadLoc 0 0x200; let b : Barrier := ⟨2, 2, 0, 255, false, 4⟩; decide (spadBase ≤ loc) && decide (b.expected < 2 ^ 16) && decide (b.arrivals < 2 ^ 16) && decide (b.pending < 2 ^ 24) && decide (b.phase < 256) && decide (b.scope < 8) && decide (b.arrivals = b.expected) && decide (b.pending = 0) && let x := (⟨loc, 255, 0, 3, 4⟩ : BarWaiter); true) = true) := by decide +kernel
theorem witness_ForkAndJoin :
    ((let s : State := packetAt 0; let a : Reg := 1; decide (NoPort s [a] none) && decide (s.cur.slot < 14) && spawnThen s a fun u w caps => decide (w[3] = 0) && let c : State := withChild u w caps; someThen (c.pushLocal s.cur.core c.me.band ⟨continuation c.me s.myWorld s.behind, c.cycle, false⟩) fun t => true) = true) ∧
    ((let s : State := heldBy (packetAt (spad 0x300)) 3 7 (spadLoc 0 0x300); let a : Reg := 1; decide (NoPort s [a] none) && decide (s.cur.slot < 14) && spawnThen s a fun u w caps => decide (w[3] ≠ 0) && okThen (syncPlace s.who w[3] .atomic u) fun r_ v => let pl := r_.1; let cap := r_.2; let r : TurnReq := turnOf s .spawn 0 0 0 ⟨0, 4, 0⟩ pl (if caps.any fun y => decide (y.id = cap.id) then 0 else cap.charge); let x : State := ((withChild v w caps).performWord s.cur.core s.cur.slot pl.loc).lapse pl.loc; decide (¬atOnce x pl.loc r)) = true) ∧
    ((let s : State := packetAt (spad 0x300); let a : Reg := 1; decide (NoPort s [a] none) && decide (s.cur.slot < 14) && spawnThen s a fun u w caps => decide (w[3] ≠ 0) && okThen (syncPlace s.who w[3] .atomic u) fun r_ v => let pl := r_.1; let cap := r_.2; let r : TurnReq := turnOf s .spawn 0 0 0 ⟨0, 4, 0⟩ pl (if caps.any fun y => decide (y.id = cap.id) then 0 else cap.charge); let x : State := ((withChild v w caps).performWord s.cur.core s.cur.slot pl.loc).lapse pl.loc; decide (atOnce x pl.loc r) && let c : State := x.turnServe pl.loc r; someThen (c.pushLocal s.cur.core c.me.band ⟨continuation c.me s.myWorld s.behind, c.cycle, false⟩) fun t => true) = true) ∧
    ((let s : State := memRegs.modMe fun sl => { sl with spawning := some (packetOf 0).w }; let a : Reg := 1; decide (s.cur.slot < 14) && someThen (s.me.spawning) fun w => someThen (s.issue.pushLocal s.cur.core s.me.band ⟨continuation s.issue.me s.myWorld s.behind, s.cycle, false⟩) fun t => true) = true) ∧
    ((let s : State := withRegs memRegs [(7, 0x210008)]; let a : Reg := 7; decide (NoPort s [a] none) && decide (s.cur.slot < 14) && decide ((s.src a).toNat % 8 = 0) && decide (s.issue.waitTable.length < 65536) && okThen (checkAccess s.who (s.src a) 8 .read [.read] s.issue) fun r_ u => let pl := r_.1; let cap := r_.2; okThen (loadPlace s.who pl 8 ⟨1, 4, 0⟩ (s.src a) (u.modMyCore (·.invalidateL1))) fun bs t => decide (leToNat bs = 0)) = true) ∧
    ((let s : State := memRegs; let a : Reg := 2; decide (NoPort s [a] none) && decide (s.cur.slot < 14) && decide ((s.src a).toNat % 8 = 0) && decide (s.issue.waitTable.length < 65536) && okThen (checkAccess s.who (s.src a) 8 .read [.read] s.issue) fun r_ u => let pl := r_.1; let cap := r_.2; okThen (loadPlace s.who pl 8 ⟨1, 4, 0⟩ (s.src a) (u.modMyCore (·.invalidateL1))) fun bs t => decide (leToNat bs ≠ 0)) = true) ∧
    ((let s : State := demo; decide (s.cur.slot < 14)) = true) ∧
    ((let s : State := demo; decide (s.cur.slot < 14) && decide (s.me.join = 0) && decide (s.issue.unitsLocked s.cur.core s.cur.slot = false)) = true) ∧
    ((let s : State := (demo.modMe fun sl => { sl with accown := 4 }).modMyCore fun k => { k with accs := k.accs.set 2 { Acc.init with claimed := true, lock := some 3 } }; decide (s.cur.slot < 14) && decide (s.me.join = 0) && decide (s.issue.unitsLocked s.cur.core s.cur.slot = true)) = true) ∧
    ((let s : State := (joining.modMe fun sl => { sl with accown := 4 }).modMyCore fun k => { k with accs := k.accs.set 2 { Acc.init with claimed := true, lock := some 3 } }; decide (s.cur.slot < 14) && decide (s.me.join ≠ 0) && let u : State := s.issue.performSlot s.cur.core s.cur.slot; decide (u.hasDeferred s.cur.core u.me.uid = true ∨ u.unitsLocked s.cur.core s.cur.slot = true)) = true) ∧
    ((let s : State := joining; decide (s.cur.slot < 14) && decide (s.me.join ≠ 0) && let u : State := s.issue.performSlot s.cur.core s.cur.slot; decide (u.hasDeferred s.cur.core u.me.uid = false) && decide (u.unitsLocked s.cur.core s.cur.slot = false) && okThen (syncPlace s.who s.me.join .atomic u) fun r_ v => let pl := r_.1; let cap := r_.2; let c : State := (v.chargeOnce cap).lapse pl.loc; let r : TurnReq := turnOf s .texit 0 s.me.join 0 ⟨2, 4, 0⟩ pl 0; decide (atOnce c pl.loc r)) = true) ∧
    ((let s : State := heldBy joining 3 7 (spadLoc 0 0x300); decide (s.cur.slot < 14) && decide (s.me.join ≠ 0) && let u : State := s.issue.performSlot s.cur.core s.cur.slot; decide (u.hasDeferred s.cur.core u.me.uid = false) && decide (u.unitsLocked s.cur.core s.cur.slot = false) && okThen (syncPlace s.who s.me.join .atomic u) fun r_ v => let pl := r_.1; let cap := r_.2; let c : State := (v.chargeOnce cap).lapse pl.loc; let r : TurnReq := turnOf s .texit 0 s.me.join 0 ⟨2, 4, 0⟩ pl 0; decide (¬atOnce c pl.loc r)) = true) ∧
    ((let s : State := memRegs; let a : Reg := 1; decide (NoPort s [a] none) && decide (s.cur.slot < 14) && decide ((s.src a).toNat % 64 = 0) && okThen (writeRow s.who [(s.src a, packetBytes s.issue.me.packetImage)] 8 s.issue) fun caps t => true) = true) ∧
    ((let s : State := (inSlot demo 15).modMyCore fun k => { k with trapq := [5] }; decide (s.cur.slot = 15) && decide (s.issue.myCore.trapq ≠ [])) = true) ∧
    ((let s : State := (inSlot demo 14).modMyCore fun k => { k with copyWake := true }; decide (s.cur.slot = 14) && decide (s.issue.myCore.copyWake = true)) = true) ∧
    ((let s : State := inSlot demo 14; decide (s.cur.slot = 15 ∧ s.issue.myCore.trapq = [] ∨ s.cur.slot = 14 ∧ s.issue.myCore.copyWake = false)) = true) ∧
    ((let s : State := inSlot demo 15; decide (s.cur.slot = 15 ∧ s.issue.myCore.trapq = [] ∨ s.cur.slot = 14 ∧ s.issue.myCore.copyWake = false)) = true) := by decide +kernel
theorem witness_SlotSearches :
    ((let s : State := demo.modMyCore fun k => { k with cache := [(5, readyEntry)] }; let core : Nat := 0; let b : Nat := 0; decide (s.takesWork core = true) && decide ((s.core core).steal = none) && someThen (s.freeSlot core) fun n => decide (b < 4) && decide (∀ d ∈ (s.core core).deques.toList, d.takenIn s.cycle = none) && decide (((List.range 4).all fun x => decide (b < x → NothingAt s core x)) = true) && someThen ((s.core core).readyAt b) fun r_ => let i := r_.1; let e := r_.2; true) = true) ∧
    ((let s : State := queued demo 0 0; let core : Nat := 0; let b : Nat := 0; decide (s.takesWork core = true) && decide ((s.core core).steal = none) && someThen (s.freeSlot core) fun n => decide (b < 4) && decide (∀ d ∈ (s.core core).deques.toList, d.takenIn s.cycle = none) && decide (((List.range 4).all fun x => decide (b < x → NothingAt s core x)) = true) && decide ((s.core core).readyAt b = none) && someThen ((vat Deque.init (s.core core).deques b).popLocal) fun r_ => let p := r_.1; let d := r_.2; decide (s.deadPacket p = false)) = true) ∧
    ((let s : State := queued demo 1 0; let core : Nat := 0; let b : Nat := 0; decide (s.takesWork core = true) && decide ((s.core core).steal = none) && someThen (s.freeSlot core) fun n => decide (b < 4) && decide (∀ d ∈ (s.core core).deques.toList, d.takenIn s.cycle = none) && decide (((List.range 4).all fun x => decide (b < x → NothingAt s core x)) = true) && decide ((s.core core).readyAt b = none) && decide ((vat Deque.init (s.core core).deques b).isEmpty = true) && consThen (s.victims core b) fun v vs => true) = true) ∧
    ((let s : State := stealing [] 1; let core : Nat := 0; let n : Nat := 1; let b : Nat := 0; let v : Nat := 1; let rest : List Nat := []; decide ((s.core core).steal = some ⟨n, b, v :: rest⟩) && decide (s.takesWork core = true) && someThen ((vat Deque.init (s.core v).deques b).farEnd) fun p => decide ((s.core v).world = (s.core core).world) && decide (Untaken s v b) && decide (scopeAdmits p.scope v core = true) && decide (s.deadPacket p = false) && let t : State := (s.modCore v fun k => k.modDeque b fun e => e.dropFar.take s.cycle (core + 1)); true) = true) ∧
    ((let s : State := stealing [2] 0; let core : Nat := 0; let n : Nat := 1; let b : Nat := 0; let v : Nat := 1; let rest : List Nat := [2]; decide ((s.core core).steal = some ⟨n, b, v :: rest⟩) && decide (s.takesWork core = true) && someThen ((vat Deque.init (s.core v).deques b).farEnd) fun p => decide ((s.core v).world = (s.core core).world) && decide ((Untaken s v b ∧ scopeAdmits p.scope v core = false) ∨ (∃ r, (vat Deque.init (s.core v).deques b).takenIn s.cycle = some r ∧ r ≤ core)) && let t : State := s.modCore core (·.tally 0x19 n 1); true) = true) ∧
    ((let s : State := demo; let core : Nat := 0; let n : Nat := 1; let p : Packet := packetOf 0; let sl : Slot := (s.loadSlot core n p).slot core n; true) = true) ∧
    ((let s : State := demo; let core : Nat := 0; let n : Nat := 1; let p : Packet := packetOf 0; let sl : Slot := (s.loadSlot core n p).slot core n; let r : Reg := 4; decide (r ≠ 1) && decide (r ≠ 2) && decide (r ≠ 3)) = true) ∧
    ((let s : State := demo; let core : Nat := 0; let n : Nat := 1; let i : Nat := 5; let e : CtxEntry := readyEntry; let sl : Slot := (s.moveIn core n i e).slot core n; true) = true) ∧
    ((let s : State := demo; let core : Nat := 0; let n : Nat := 1; let p : Packet := packetOf 0; let sl : Slot := (s.loadSlot core n p).slot core n; let i : Num3 := 3; true) = true) ∧
    ((let s : State := demo; let core : Nat := 0; let n : Nat := 1; let p : Packet := packetOf 0; let sl : Slot := (s.loadSlot core n p).slot core n; let t : Num3 := 3; true) = true) := by decide +kernel
theorem witness_QueueEvents :
    ((let s : State := demo.modWorld 2 fun w => { w with launch := [⟨[packetOf 0], none⟩], ringLen := 0 }; let w : Nat := 2; let p : Packet := packetOf 0; let ps : List Packet := []; let rest : List Segment := []; decide ((s.world w).launch = ⟨p :: ps, none⟩ :: rest) && decide ((s.world w).ringLen = 0) && someThen ((coresFrom (s.world w).lastCore (s.coresOf w)).find? (fun c => decide ((vat Deque.init (s.core c).deques p.band).hw.length < 64) && (vat Deque.init (s.core c).deques p.band).spill.isEmpty && !(s.core c).zeroing)) fun c => true) = true) ∧
    ((let s : State := late (queued demo 0 0); let core : Nat := 0; let b : Nat := 0; let p : Packet := packetOf 0; decide (b < 3) && let d : Deque := vat Deque.init (s.core core).deques b; decide (Untaken s core b) && decide (p.aged = false) && decide (p.since + 65536 < s.cycle) && decide ((vat Deque.init (s.core core).deques (b + 1)).hw.length < 64) && decide (d.farEnd = some p)) = true) ∧
    ((let s : State := late (demo.modMyCore fun k => { k with deques := k.deques.set 0 { Deque.init with hw := [packetOf 0], spill := [⟨[packetOf 0], some 2⟩] } }); let core : Nat := 0; let b : Nat := 0; let p : Packet := packetOf 0; decide (b < 3) && let d : Deque := vat Deque.init (s.core core).deques b; decide (Untaken s core b) && decide (p.aged = false) && decide (p.since + 65536 < s.cycle) && decide ((vat Deque.init (s.core core).deques (b + 1)).hw.length < 64) && someThen (d.spill.getLast?) fun g => someThen (g.swapped) fun n => decide (g.pkts.getLast? = some p)) = true) ∧
    ((let s : State := late (demo.modMyCore fun k => { k with deques := k.deques.set 0 { Deque.init with hw := [packetOf 0], spill := [⟨[{ packetOf 0 with since := 69999 }], none⟩] } }); let core : Nat := 0; let b : Nat := 0; let p : Packet := packetOf 0; decide (b < 3) && let d : Deque := vat Deque.init (s.core core).deques b; decide (Untaken s core b) && decide (p.aged = false) && decide (p.since + 65536 < s.cycle) && decide ((vat Deque.init (s.core core).deques (b + 1)).hw.length < 64) && decide ((d.spill.getLast?.any fun g => g.pkts.getLast?.any fun q => !s.ages q) = true) && decide (d.hw.getLast? = some p)) = true) ∧
    ((let s : State := late (demo.modMyCore fun k => { k with cache := [(5, readyEntry)] }); let core : Nat := 0; let i : Nat := 5; let n : Nat := 0; let e : CtxEntry := readyEntry; decide ((s.core core).cache.find? (fun e => decide (e.1 = i)) = some (i, e)) && decide (e.bumped = false) && decide ((s.core core).unitsFree e = true) && decide (e.st = .parked (.ready n)) && decide (n + 65536 < s.cycle)) = true) ∧
    ((let s : State := (demo.modMyCore fun k => { k with leaving := [1], cache := [] }).modSlot 0 1 fun sl => { sl with st := .wait, waiting := .leaving (.ready 0) false }; let core : Nat := 0; let n : Nat := 1; let rest : List Nat := []; let p : Park := .ready 0; let told : Bool := false; decide ((s.core core).leaving = n :: rest) && decide (s.hasDeferred core (s.slot core n).uid = false) && decide (s.unitsLocked core n = false) && someThen ((s.core core).roomFor (s.slot core n).spill) fun e => decide ((s.slot core n).waiting = .leaving p told)) = true) ∧
    ((let s : State := (demo.modMyCore fun k => { k with leaving := [1], cache := (List.range 48).map fun i => (i, readyEntry) }).modSlot 0 1 fun sl => { sl with st := .wait, waiting := .leaving (.ready 0) false }; let core : Nat := 0; let n : Nat := 1; let rest : List Nat := []; let p : Park := .ready 0; decide ((s.core core).leaving = n :: rest) && decide ((s.core core).roomFor (s.slot core n).spill = none) && decide ((s.slot core n).waiting = .leaving p false)) = true) ∧
    ((let s : State := demo.modMe fun sl => { sl with quantum := some 0 }; let core : Nat := 0; let n : Nat := 0; let t : Nat := 0; decide ((s.slot core n).quantum = some t) && decide ((s.slot core n).st ≠ .free) && decide (t ≤ s.coreCycle core)) = true) ∧
    ((let s : State := busyCore; let core : Nat := 0; let b : Nat := 3; decide (s.workWaits core b = true) && decide (((List.range 14).all fun n => decide ((s.slot core n).st ≠ .free ∧ (s.slot core n).band < b)) = true)) = true) ∧
    ((let s : State := demo.modMyCore fun k => { k with deques := k.deques.set 0 { Deque.init with hw := [packetOf 0], spill := [⟨[packetOf 0], some 2⟩] } }; let core : Nat := 0; let b : Nat := 0; let i : Nat := 0; let n : Nat := 2; let g : Segment := ⟨[packetOf 0], some 2⟩; decide (s.sramSegments (clusterOf core) < Config.queueSramSegments) && decide (b < 4) && decide ((vat Deque.init (s.core core).deques b).spill[i]? = some g) && decide (g.swapped = some n) && decide (∀ x ∈ (vat Deque.init (s.core core).deques b).spill.take i, x.swapped = none)) = true) ∧
    ((let s : State := withLog ⟨[⟨0, some 2⟩], [], 1, [], []⟩; let core : Nat := 0; let b : Nat := 5; decide (5 ≤ b) && decide (b ≤ 12) && someThen (s.logSwapIn (s.core core).world (b - 5)) fun t => true) = true) := by decide +kernel
theorem witness_AppendLogs :
    ((let s : State := memRegs; let d : Reg := 2; let a : Reg := 3; let op : BitVec 4 := 11; decide (NoPort s [d, a] none) && roomInLog s (s.src d) && okThen (logTarget s.who (s.src d) s.issue) fun r_ u => let pl := r_.1; let cap := r_.2; someThen (u.growLog s.myWorld (domainOfLoc pl.loc)) fun v => true) = true) ∧
    ((let s : State := recordAt; let d : Reg := 3; let a : Reg := 1; let op : BitVec 4 := 0; decide (NoPort s [d, a] none) && decide (s.src d ≠ 0) && decide ((s.src d).toNat ≤ 64) && decide ((s.src a).toNat % 32 = 0) && decide (fld (s.src a) 61 3 = 6) && decide (fld (s.src a) 58 3 < 3) && rowsThen (fun i => do atRow tfmtNone i (appendOne s.who (s.src a + w64 (32 * i))) return none) (rowsFrom (resumesAt s (restartKey 4 5 1)) (s.src d).toNat) (cleared s.issue) fun t => true) = true) ∧
    ((let s : State := memRegs; let d : Reg := 3; let a : Reg := 9; decide (NoPort s [a] (some d)) && decide (fld (s.src a) 3 61 = 0) && let n : Nat := fld (s.src a) 0 3; let l : AppendLog := (s.issue.world s.myWorld).log n; let t : State := (s.issue.modWorld s.myWorld fun x => x.setLog n { l with recs := [], accepted := l.accepted + 1, runs := l.runs ++ [⟨l.accepted + 1, l.recs.length, sortRecs l.recs⟩] }).chargeSlot s.cur.core s.cur.slot (l.recs.length / 4); true) = true) ∧
    ((let s : State := withLog ⟨[], [], 1, [aRun], []⟩; let w : Nat := 2; let n : Nat := 0; let r : MergeRun := aRun; let rest : List MergeRun := []; let l : AppendLog := ⟨[], [], 1, [aRun], []⟩; decide (l = (s.world w).log n) && decide (l.runs = r :: rest) && decide ((s.world w).stopped = false) && decide (∀ x ∈ r.recs, s.wordFree x.addr = true)) = true) ∧
    ((let s : State := withRegs (withLog ⟨[], [], 1, [aRun], []⟩) [(4, 1)]; let d : Reg := 3; let a : Reg := 4; decide (NoPort s [a] (some d)) && let l : AppendLog := (s.issue.world s.myWorld).log (fld (s.src a) 56 3); decide (fld (s.src a) 59 5 = 0) && decide (fld (s.src a) 0 56 ≠ 0) && decide (fld (s.src a) 0 56 ≤ l.accepted) && decide (∃ r ∈ l.runs, r.seq = fld (s.src a) 0 56)) = true) ∧
    ((let s : State := withRegs (withLog ⟨[], [], 1, [], [(1, 5)]⟩) [(4, 1)]; let d : Reg := 3; let a : Reg := 4; decide (NoPort s [a] (some d)) && let l : AppendLog := (s.issue.world s.myWorld).log (fld (s.src a) 56 3); decide (fld (s.src a) 59 5 = 0) && decide (fld (s.src a) 0 56 ≠ 0) && decide (fld (s.src a) 0 56 ≤ l.accepted) && decide (∀ r ∈ l.runs, r.seq ≠ fld (s.src a) 0 56) && someThen (l.finished.find? (fun f => decide (f.1 = fld (s.src a) 0 56))) fun f => true) = true) ∧
    ((let s : State := withRegs (withLog ⟨[], [], 1, [], []⟩) [(4, 1)]; let d : Reg := 3; let a : Reg := 4; decide (NoPort s [a] (some d)) && let l : AppendLog := (s.issue.world s.myWorld).log (fld (s.src a) 56 3); decide (fld (s.src a) 59 5 = 0) && decide (fld (s.src a) 0 56 ≠ 0) && decide (fld (s.src a) 0 56 ≤ l.accepted) && decide (∀ r ∈ l.runs, r.seq ≠ fld (s.src a) 0 56) && decide (∀ f ∈ l.finished, f.1 ≠ fld (s.src a) 0 56)) = true) := by decide +kernel
theorem witness_EngineQueues :
    ((let s : State := ({ staging demo 3 [] (w64 (0x0130 * 2 ^ 48 + 1)) with firewallW := 0 }); let d : Reg := 3; let e : Num2 := 3; decide (NoPort s [d] none) && decide ((s.me.engine e.toNat).unfinished < 8) && okThen (releaseAll s.issue) fun _ t => let staged : List W64 := (t.me.engine e.toNat).staged ++ [s.src d]; decide (¬MayPush s t)) = true) ∧
    ((let s : State := staging demo 3 [] (w64 (0x0130 * 2 ^ 48 + 1)); let d : Reg := 3; let e : Num2 := 3; decide (NoPort s [d] none) && decide ((s.me.engine e.toNat).unfinished < 8) && okThen (releaseAll s.issue) fun _ t => let staged : List W64 := (t.me.engine e.toNat).staged ++ [s.src d]; decide (MayPush s t) && decide (¬lastWord staged)) = true) ∧
    ((let s : State := staging demo 0 [] (w64 (2 ^ 56)); let d : Reg := 3; let e : Num2 := 0; decide (NoPort s [d] none) && decide ((s.me.engine e.toNat).unfinished < 8) && okThen (releaseAll s.issue) fun _ t => let staged : List W64 := (t.me.engine e.toNat).staged ++ [s.src d]; decide (MayPush s t) && decide (lastWord staged) && decide (e.toNat = 0) && decide (e0Ok (staged.headD 0) = true)) = true) ∧
    ((let s : State := staging seqRegs 1 [w64 (0x0110 * 2 ^ 48 + 2 ^ 16)] 0x210000; let d : Reg := 3; let e : Num2 := 1; decide (NoPort s [d] none) && decide ((s.me.engine e.toNat).unfinished < 8) && okThen (releaseAll s.issue) fun _ t => let staged : List W64 := (t.me.engine e.toNat).staged ++ [s.src d]; decide (MayPush s t) && decide (lastWord staged) && decide (e.toNat = 1) && decide (e1Ok (staged.headD 0) (staged[1]?.getD 0) = true) && okThen (acceptE1 (commandOf t 1 staged) (handed t 1)) fun _ u => true) = true) ∧
    ((let s : State := staging memRegs 2 ((portCmd 4 8).words.take 3) 8; let d : Reg := 3; let e : Num2 := 2; decide (NoPort s [d] none) && decide ((s.me.engine e.toNat).unfinished < 8) && okThen (releaseAll s.issue) fun _ t => let staged : List W64 := (t.me.engine e.toNat).staged ++ [s.src d]; decide (MayPush s t) && decide (lastWord staged) && decide (e.toNat = 2) && decide (e2Ok staged = true) && okThen (acceptE2 (commandOf t 2 staged) (handed t 2)) fun _ u => true) = true) ∧
    ((let s : State := staging (layoutRegs 7) 3 [w64 (0x0130 * 2 ^ 48 + 2), spad 0x1000, spad 0x3000] (spad 0x2000); let d : Reg := 3; let e : Num2 := 3; decide (NoPort s [d] none) && decide ((s.me.engine e.toNat).unfinished < 8) && okThen (releaseAll s.issue) fun _ t => let staged : List W64 := (t.me.engine e.toNat).staged ++ [s.src d]; decide (MayPush s t) && decide (lastWord staged) && decide (e.toNat = 3) && decide (e3Ok (staged.headD 0) = true) && okThen (acceptE3 (commandOf t 3 staged) (handed t 3)) fun _ u => true) = true) ∧
    ((let s : State := staging demo 0 [] (w64 (2 * 2 ^ 56)); let d : Reg := 3; let e : Num2 := 0; decide (NoPort s [d] none) && decide ((s.me.engine e.toNat).unfinished < 8) && okThen (releaseAll s.issue) fun _ t => let staged : List W64 := (t.me.engine e.toNat).staged ++ [s.src d]; decide (MayPush s t) && decide (lastWord staged) && decide (e.toNat = 0) && decide (e0Ok (staged.headD 0) = false)) = true) ∧
    ((let s : State := demo.modMe (·.modEngine 2 fun p => { p with unfinished := 8 }); let d : Reg := 3; let e : Num2 := 2; decide (8 ≤ (s.me.engine e.toNat).unfinished) && decide (NoPort s [d] none)) = true) ∧
    ((let s : State := withResult demo 2; let d : Reg := 3; let e : Num2 := 2; let r : W64 := 5; let rest : List W64 := []; decide (NoPort s [] (some d)) && decide ((s.me.engine e.toNat).results = r :: rest) && let t : State := resultPopped s.issue e.toNat rest; true) = true) ∧
    ((let s : State := demo; let d : Reg := 3; let e : Num2 := 3; decide (NoPort s [] (some d)) && decide ((s.me.engine e.toNat).results = [])) = true) ∧
    ((let s : State := demo; let d : Reg := 3; let e : Num2 := 3; decide (NoPort s [] (some d))) = true) ∧
    ((let s : State := withResult (restarted demo dmergeKey) 1; let d : Reg := 3; let a : Reg := 4; decide (NoPort s [d, a] (some d)) && decide (s.cur.slot ≠ 14) && let r := 5; let rest := []; someThen (resumesAt s dmergeKey) fun n => decide ((s.me.engine 1).results = r :: rest) && let t := resultPopped s.issue 1 rest; true) = true) ∧
    ((let s : State := withRegs seqRegs [(3, 0x10000)]; let d : Reg := 3; let a : Reg := 5; decide (NoPort s [d, a] (some d)) && decide (s.cur.slot ≠ 14) && decide (resumesAt s dmergeKey = none) && decide (fld (s.src d) 32 32 = 0) && decide ((s.me.engine 1).unfinished < 8) && okThen (releaseAll s.issue) fun _ t => decide (MayPush s t) && okThen (handOver 1 [w64 (0x0110 * 2 ^ 48 + fld (s.src d) 16 16 * 2 ^ 16 + fld (s.src d) 0 16), s.src a] t) fun _ u => let v := u.modMe (·.modEngine 1 fun p => { p with staged := (t.me.engine 1).staged }); decide ((v.me.engine 1).results = [])) = true) ∧
    ((let s : State := withRegs (withResult seqRegs 1) [(3, 0x10000)]; let d : Reg := 3; let a : Reg := 5; decide (NoPort s [d, a] (some d)) && decide (s.cur.slot ≠ 14) && decide (resumesAt s dmergeKey = none) && decide (fld (s.src d) 32 32 = 0) && decide ((s.me.engine 1).unfinished < 8) && okThen (releaseAll s.issue) fun _ t => decide (MayPush s t) && okThen (handOver 1 [w64 (0x0110 * 2 ^ 48 + fld (s.src d) 16 16 * 2 ^ 16 + fld (s.src d) 0 16), s.src a] t) fun _ u => let v := u.modMe (·.modEngine 1 fun p => { p with staged := (t.me.engine 1).staged }); consThen ((v.me.engine 1).results) fun r rest => let x := resultPopped v 1 rest; true) = true) := by decide +kernel
theorem witness_EngineSteps :
    ((let s : State := withCmd demo (cmdOf 0 [w64 (2 ^ 56)]); let k : Nat := 0; let c : EngCmd := cmdOf 0 [w64 (2 ^ 56)]; decide (CommandAt s k 0 1 c) && decide (∀ r ∈ ((s.world c.world).log (fld c.header 0 3)).runs, r.seq ≠ c.aux)) = true) ∧
    ((let s : State := withCmd memRegs gatherCmd; let k : Nat := 0; let c : EngCmd := gatherCmd; decide (CommandAt s k 3 1 c) && okThen (gatherRow c c.done s) fun caps t => let u := t.chargeCmdCaps c (caps.filter fun x => !c.caps.contains x.id); true) = true) ∧
    ((let s : State := withCmd (wordsIn memRegs (spadLoc 0 0x2000) [7]) gatherCmd; let k : Nat := 0; let c : EngCmd := gatherCmd; decide (CommandAt s k 3 1 c) && trapThen (gatherRow c c.done s) fun ti t => true) = true) ∧
    ((let s : State := withCmd memRegs gatherCmd; let k : Nat := 0; let c : EngCmd := gatherCmd; decide (CommandAt s k 3 1 c) && okThen (engineRead c.who (c.word 3 + w64 (4 * c.done)) 4 s) fun ib u => decide (leToNat ib < 2 ^ 31) && decide (leToNat ib < (c.word 5).toNat) && okThen (engineSpan c.who (c.word 4 + w64 (leToNat ib * (c.word 7).toNat)) (c.word 6).toNat u) fun r_ v => let bs := r_.1; let caps := r_.2; okThen (engineWrite c.who (c.word 2 + w64 (c.done * (c.word 6).toNat)) bs (fun s => return s) v) fun _ t => true) = true) ∧
    ((let s : State := withCmd seqRegs pagesCmd; let k : Nat := 0; let c : EngCmd := pagesCmd; decide (CommandAt s k 1 1 c) && decide (EngineFirst s k 1) && let h : SeqHeader := ⟨c.word 1, 0, 0, (c.word 2).toNat, (c.word 3).toNat⟩; let ea : W64 := h.page (fld c.header 0 16 + c.done); okThen (locate c.who h.addr .read s) fun pl v => decide (v.insidePage pl.loc (fld c.header 0 16 + c.done) = false) && okThen (engineRead c.who ea h.pageBytes s) fun bs u => let out : List Byte × Nat := mergePage h.type h.width (Fmt.fp32.decode (s.world c.world).tau.toNat) bs; okThen (engineWrite c.who ea out.1 (fun s => return s) u) fun _ t => true) = true) ∧
    ((let s : State := withCmd demo (cmdOf 1 [w64 (0x0210 * 2 ^ 48), 5]); let k : Nat := 0; let c : EngCmd := cmdOf 1 [w64 (0x0210 * 2 ^ 48), 5]; decide (CommandAt s k 1 2 c) && decide (EngineFirst s k 1)) = true) ∧
    ((let s : State := demo; let c : EngCmd := gatherCmd; let k : Nat := 0; let status : Nat := 3; let v : Nat := 5; decide ((s.slot c.core c.slot).uid = c.uid) && decide (c.engine < 4) && decide (((s.slot c.core c.slot).engine c.engine).results.length < 8) && decide (∀ r ∈ s.engResults, r.uid ≠ c.uid)) = true) := by decide +kernel
theorem witness_Collectives :
    (∀ q ∈ ([(.allreduce, 1), (.allgather, 2), (.reducescatter, 3)] : List ((Nat → Instr) × Nat)), (let s : State := collState (collCmd q.2 false 0); let k : Nat := 0; let c : EngCmd := collCmd q.2 false 0; decide (CommandAt s k 2 q.2 c) && decide (GroupFirst s k c) && decide (c.aux = 0) && haveThen s c c.children fun rs => decide (framesMatch c rs (upLength c) = true) && okThen (engineRead c.who (c.word 2) c.srcBytes s) fun own u => let out : List Byte := c.up own (rs.map RxData.data); decide (c.isRoot = false) && decide ((u.port c.parent).sends u.meridian = true)) = true) ∧
    (∀ q ∈ ([(.allreduce, 1), (.allgather, 2), (.reducescatter, 3)] : List ((Nat → Instr) × Nat)), (let s : State := collState (collCmd q.2 true 0); let k : Nat := 0; let c : EngCmd := collCmd q.2 true 0; decide (CommandAt s k 2 q.2 c) && decide (GroupFirst s k c) && decide (c.aux = 0) && haveThen s c c.children fun rs => decide (framesMatch c rs (upLength c) = true) && okThen (engineRead c.who (c.word 2) c.srcBytes s) fun own u => let out : List Byte := c.up own (rs.map RxData.data); decide (c.isRoot = true) && decide (∀ p ∈ c.children, (u.port p).sends u.meridian = true) && okThen (deliver k c (c.down out) (((u.consume c c.children).chargeCmd c (pipsOf c.srcBytes)).sendAll c c.children (c.down out))) fun _ t => true) = true) ∧
    (∀ q ∈ ([(.allreduce, 1), (.allgather, 2), (.reducescatter, 3)] : List ((Nat → Instr) × Nat)), (let s : State := (collState (collCmd q.2 false 0)).modPort 1 fun p => { p with rx := [⟨2, 9, (collCmd q.2 false 0).frame 1 [1], 0⟩] }; let k : Nat := 0; let c : EngCmd := collCmd q.2 false 0; decide (CommandAt s k 2 q.2 c) && decide (GroupFirst s k c) && decide (c.aux = 0) && haveThen s c c.children fun rs => decide (framesMatch c rs (upLength c) = false)) = true) ∧
    (∀ q ∈ ([(.allreduce, 1), (.allgather, 2), (.reducescatter, 3)] : List ((Nat → Instr) × Nat)), (let s : State := collBad (collCmd q.2 false 0); let k : Nat := 0; let c : EngCmd := s.engCmds.headD gatherCmd; decide (CommandAt s k 2 q.2 c) && decide (GroupFirst s k c) && decide (c.aux = 0) && haveThen s c c.children fun rs => decide (framesMatch c rs (upLength c) = true) && trapThen (engineRead c.who (c.word 2) c.srcBytes s) fun ti u => true) = true) ∧
    (∀ q ∈ ([(.allreduce, 1), (.allgather, 2), (.reducescatter, 3)] : List ((Nat → Instr) × Nat)), (let s : State := collState (collCmd q.2 false 1); let k : Nat := 0; let c : EngCmd := collCmd q.2 false 1; decide (CommandAt s k 2 q.2 c) && decide (GroupFirst s k c) && decide (c.aux ≠ 0) && haveThen s c [c.parent] fun rs => decide (framesMatch c rs (downLength c) = true) && decide (∀ p ∈ c.children, (s.port p).sends s.meridian = true) && okThen (deliver k c (rs.flatMap RxData.data) ((s.consume c [c.parent]).sendAll c c.children (rs.flatMap RxData.data))) fun _ t => true) = true) ∧
    (∀ q ∈ ([(.allreduce, 1), (.allgather, 2), (.reducescatter, 3)] : List ((Nat → Instr) × Nat)), (let s : State := (collState (collCmd q.2 false 1)).modPort 0 fun p => { p with rx := [⟨2, 9, (collCmd q.2 false 1).frame 0 [1], 0⟩] }; let k : Nat := 0; let c : EngCmd := collCmd q.2 false 1; decide (CommandAt s k 2 q.2 c) && decide (GroupFirst s k c) && decide (c.aux ≠ 0) && haveThen s c [c.parent] fun rs => decide (framesMatch c rs (downLength c) = false)) = true) ∧
    (∀ q ∈ ([(.allreduce, 1), (.allgather, 2), (.reducescatter, 3)] : List ((Nat → Instr) × Nat)), (let s : State := (collState (collCmd q.2 false 0)).modPort 1 fun p => { p with rx := [⟨2, 9, (collCmd q.2 false 0).frame 1 [1], 0x41⟩] }; let k : Nat := 0; let p : Nat := 1; let code : Nat := 0x41; let c : EngCmd := collCmd q.2 false 0; decide (CommandAt s k 2 q.2 c) && decide (GroupFirst s k c) && failedOn s c p code) = true) ∧
    ((let s : State := withCmd demo (collCmd 1 false 1); let k : Nat := 0; let c : EngCmd := collCmd 1 false 1; let r : List Byte := List.replicate 8 0; okThen (engineWrite c.who (c.word 3) (if cmdOpcode c.header = 3 then (r.drop (c.rank * c.dstBytes)).take c.dstBytes else r) (fun s => return s) s) fun _ t => true) = true) ∧
    ((let s : State := linked (withCmd memRegs (portCmd 4 8)) fun _ => []; let k : Nat := 0; let c : EngCmd := portCmd 4 8; decide (CommandAt s k 2 4 c) && decide (PortFirst s k c) && decide ((s.port (fld (c.word 1) 0 5)).sends s.meridian = true) && okThen (engineRead c.who (c.word 2) (c.word 3).toNat s) fun bs t => true) = true) ∧
    ((let s : State := linked (withCmd memRegs (portCmd 5 8)) fun _ => [⟨2, 9, (portCmd 4 8).frame 0 (List.replicate 8 1), 0⟩]; let k : Nat := 0; let c : EngCmd := portCmd 5 8; decide (CommandAt s k 2 5 c) && decide (PortFirst s k c) && let p : Nat := fld (c.word 1) 0 5; someThen ((s.port p).firstSend c.world c.group) fun r_ => let i := r_.1; let r := r_.2; decide (r.fail = 0) && decide (r.complete = true) && decide (r.data.length = (c.word 3).toNat) && okThen (engineWrite c.who (c.word 2) r.data (fun s => return s) (s.modPort p (·.take i))) fun _ t => true) = true) ∧
    ((let s : State := linked (withCmd memRegs (portCmd 5 16)) fun _ => [⟨2, 9, (portCmd 4 8).frame 0 (List.replicate 8 1), 0⟩]; let k : Nat := 0; let c : EngCmd := portCmd 5 16; decide (CommandAt s k 2 5 c) && decide (PortFirst s k c) && let p : Nat := fld (c.word 1) 0 5; someThen ((s.port p).firstSend c.world c.group) fun r_ => let i := r_.1; let r := r_.2; decide (r.fail = 0) && decide (r.complete = true) && decide (r.data.length ≠ (c.word 3).toNat)) = true) ∧
    ((let s : State := linked (withCmd memRegs (portCmd 5 8)) fun _ => [⟨2, 9, (portCmd 4 8).frame 0 (List.replicate 8 1), 0x41⟩]; let k : Nat := 0; let c : EngCmd := portCmd 5 8; decide (CommandAt s k 2 5 c) && decide (PortFirst s k c) && let p : Nat := fld (c.word 1) 0 5; someThen ((s.port p).firstSend c.world c.group) fun r_ => let i := r_.1; let r := r_.2; decide (r.fail ≠ 0)) = true) ∧
    ((let s : State := linked (withCmd memRegs (portCmd 6 8)) fun _ => []; let k : Nat := 0; let c : EngCmd := portCmd 6 8; decide (CommandAt s k 2 6 c) && decide ((s.port (fld (c.word 1) 0 5)).sends s.meridian = true) && okThen (engineRead c.who (c.word 2) 64 s) fun bs t => true) = true) := by decide +kernel
theorem witness_Links :
    ((let s : State := linked demo fun _ => []; let p : Nat := 1; let fs : List Flit := [openFlit]; let f : Flit := openFlit; decide ((s.port p).up = true) && decide (fs.head? = some f) && decide (flitKind f.header ≤ 2) && let g : Nat := flitGen f.header; decide (((s.port p).rxGen g).good s.meridian = true) && decide ((s.port p).open_ g fs = none)) = true) ∧
    ((let s : State := demo.setPort 1 { portUp with rx0 := ⟨1, true, 0, 0⟩ }; let p : Nat := 1; let fs : List Flit := [openFlit]; let f : Flit := openFlit; decide ((s.port p).up = true) && decide (fs.head? = some f) && decide (flitKind f.header ≤ 2) && let g : Nat := flitGen f.header; decide (((s.port p).rxGen g).good s.meridian = false)) = true) ∧
    ((let s : State := linked demo fun _ => []; let p : Nat := 1; let h : W64 := w64 (2 * 2 ^ 50); let bs : List Byte := []; decide ((s.port p).binding.getLsbD (flitWorld h) = false) && decide (flitKind h < 2)) = true) ∧
    ((let s : State := demo.setPort 1 { portUp with binding := 4 }; let p : Nat := 1; let h : W64 := w64 (2 * 2 ^ 58); let bs : List Byte := [1]; decide ((s.port p).binding.getLsbD (flitWorld h) = true) && decide (flitKind h = 0)) = true) ∧
    ((let s : State := demo.setPort 1 { portUp with binding := 4 }; let p : Nat := 1; let h : W64 := w64 (2 ^ 54 + 2 * 2 ^ 58); let bs : List Byte := [1]; decide ((s.port p).binding.getLsbD (flitWorld h) = true) && decide (flitKind h = 1)) = true) ∧
    ((let s : State := linked demo fun _ => []; let p : Nat := 1; decide ((s.port p).up = true)) = true) ∧
    ((let s : State := linked demo fun _ => []; let p : Nat := 1; decide ((s.port p).up = true) && let w := 2; let g := 9; let n := 1; let code := 0x41; true) = true) ∧
    ((let s : State := demo.setPort 1 { portUp with rx1 := ⟨3, true, 100, 0⟩ }; let p : Nat := 1; decide ((s.port p).up = true) && let g := false; decide (((s.port p).rxGen (1 - boolNat g)).live = true) && decide ((s.port p).tx0.live = true ∨ (s.port p).tx1.live = true)) = true) ∧
    ((let s : State := linked demo fun _ => []; let p : Nat := 1; decide ((s.port p).up = true) && let g := false; decide (((s.port p).rxGen (1 - boolNat g)).live = false)) = true) ∧
    ((let s : State := collState (collCmd 1 false 0); let p : Nat := 1; let k : Nat := 0; let w : Nat := 2; let g : Nat := 9; let n : Nat := 0; let code : Nat := 0x41; let c : EngCmd := collCmd 1 false 0; decide ((s.modPort p fun q => { q with owed := q.owed.filter fun e => decide (e ≠ (w, g, n)) }).treeCmd p w g n = some (k, c))) = true) ∧
    ((let s : State := demo; let p : Nat := 1; let r : PeerReport := goodPeer; decide ((s.port p).up = false) && decide (s.booted = true) && decide (s.bootState = 0) && decide (r.authentic = true) && decide (r.bootGood = true) && decide (r.firmwareEqual = true)) = true) ∧
    ((let s : State := demo; let p : Nat := 1; let r : PeerReport := { goodPeer with firmwareEqual := false }; decide (¬(r.authentic = true ∧ r.bootGood = true ∧ r.firmwareEqual = true))) = true) ∧
    ((let s : State := ({ demo.setPort 1 portUp with meridian := 600000000 }); let p : Nat := 1; let n : Nat := 1; decide ((s.port p).up = true) && decide ((s.port p).paused = false) && decide ((s.port p).installedAt + 600000000 ≤ s.meridian) && decide ((s.port p).cur ≤ 1) && decide (n = 1 - (s.port p).cur) && decide (((s.port p).rxGen n).live = false) && decide (((s.port p).tx n).live = false)) = true) ∧
    ((let s : State := ({ demo.setPort 1 portUp with meridian := 100 }); let p : Nat := 1; let rx : Bool := true; let g : Bool := false; let v : Gen := ⟨1, true, 100, 0⟩; decide (v = (if rx then (s.port p).rxGen (boolNat g) else (s.port p).tx (boolNat g))) && decide (v.live = true) && decide (v.expiry ≤ s.meridian)) = true) ∧
    ((let s : State := demo.setPort 1 { portUp with held := true }; let p : Nat := 1; decide ((s.port p).up = true) && decide ((s.port p).held = true) && decide (4 * s.ingress p < Config.ingressBytes)) = true) := by decide +kernel
theorem witness_TakingATrap :
    ((let s : State := demo; let x : TrapInfo := ⟨0x20, 1, 2, 3⟩; let t : State := takeTrap x s; decide (s.cur.slot ≠ 15 ∨ s.me.nest = false)) = true) ∧
    ((let s : State := demo; let x : TrapInfo := ⟨0x20, 1, 2, 3⟩; let t : State := takeTrap x s; decide (s.cur.slot ≠ 15 ∨ s.me.nest = false) && let c := 0; let n := 1; decide (¬(c = s.cur.core ∧ (n = s.cur.slot ∨ n = 15)))) = true) ∧
    ((let s : State := demo; let x : TrapInfo := ⟨0x20, 1, 2, 3⟩; let t : State := takeTrap x s; decide (s.cur.slot ≠ 15 ∨ s.me.nest = false) && decide (s.cur.slot ≠ 15)) = true) ∧
    ((let s : State := inSlot demo 14; let x : TrapInfo := ⟨0x20, 1, 2, 3⟩; let t : State := takeTrap x s; decide (s.cur.slot ≠ 15 ∨ s.me.nest = false) && decide (s.cur.slot ≠ 15)) = true) ∧
    ((let s : State := demo; let x : TrapInfo := ⟨0x20, 1, 2, 3⟩; let t : State := takeTrap x s; decide (s.cur.slot ≠ 15 ∨ s.me.nest = false) && let c := 1; decide (c ≠ s.cur.core)) = true) ∧
    ((let s : State := inSlot demo 15; let x : TrapInfo := ⟨0x20, 1, 2, 3⟩; let t : State := takeTrap x s; decide (s.cur.slot ≠ 15 ∨ s.me.nest = false) && decide (s.cur.slot = 15)) = true) ∧
    (∀ q ∈ slotRegisters, (let s : State := (withRegs (inSlot demo 15) [(4, w64 q.1)]).modMyCore fun k => { k with slotsel := 15 }; let d : Reg := 3; let a : Reg := 4; decide (NoPort s [a] (some d)) && decide (s.cur.slot = 15) && decide (s.myCore.slotsel = 15) && decide (s.me.st ≠ .free) && decide ((s.src a).toNat = q.1)) = true) ∧
    ((let s : State := withRegs (inSlot demo 15) [(3, 0x18), (4, 0x300000)]; let d : Reg := 3; let a : Reg := 4; decide (NoPort s [d, a] none) && decide (s.cur.slot = 15) && decide ((s.src d).toNat = 0x18) && decide (flag (s.src a) 0 = false)) = true) ∧
    ((let s : State := withRegs (inSlot demo 15) [(3, 0x18), (4, 0x300001)]; let d : Reg := 3; let a : Reg := 4; decide (NoPort s [d, a] none) && decide (s.cur.slot = 15) && decide ((s.src d).toNat = 0x18) && decide (flag (s.src a) 0 = true)) = true) ∧
    ((let s : State := withRegs (inSlot demo 15) [(4, 0x18)]; let d : Reg := 3; let a : Reg := 4; decide (NoPort s [a] (some d)) && decide (s.cur.slot = 15) && decide ((s.src a).toNat = 0x18)) = true) ∧
    ((let s : State := (inSlot demo 15).modMe fun sl => { sl with nest := true }; let x : TrapInfo := ⟨0x20, 1, 2, 3⟩; let t : State := takeTrap x s; decide (s.cur.slot = 15) && decide (s.me.nest = true)) = true) ∧
    ((let s : State := (inSlot demo 15).modMe fun sl => { sl with nest := true }; let x : TrapInfo := ⟨0x20, 1, 2, 3⟩; let t : State := takeTrap x s; decide (s.cur.slot = 15) && decide (s.me.nest = true) && let n := 3; true) = true) := by decide +kernel
theorem witness_TrapInstructions :
    ((let s : State := demo; let a : Reg := 4; decide (NoPort s [a] none)) = true) ∧
    ((let s : State := demo.modWorld 2 fun w => { w with attached := true }; decide ((s.world s.myWorld).attached = true)) = true) ∧
    ((let s : State := demo; decide ((s.world s.myWorld).attached = false)) = true) ∧
    ((let s : State := (inSlot demo 15).modMe fun sl => { sl with nest := true }; let n : Nat := 15; decide (n = s.myCore.slotsel.toNat) && decide (s.cur.slot = 15) && decide (n = 15) && decide (s.me.nest = true)) = true) ∧
    ((let s : State := (target (sup []) .trapped .none).modMyCore fun k => { k with slotsel := 2 }; let n : Nat := 2; decide (n = s.myCore.slotsel.toNat) && decide (s.cur.slot = 15) && decide (n ≠ 15) && decide ((s.slot s.cur.core n).st = .trapped)) = true) ∧
    ((let s : State := inSlot demo 15; let n : Nat := 15; decide (n = s.myCore.slotsel.toNat) && decide (s.cur.slot = 15) && decide (¬(n = 15 ∧ s.me.nest = true)) && decide (¬(n ≠ 15 ∧ (s.slot s.cur.core n).st = .trapped))) = true) ∧
    ((let s : State := (inSlot demo 15).modMyCore fun k => { k with slotsel := 2 }; let n : Nat := 2; decide (n = s.myCore.slotsel.toNat) && decide (s.cur.slot = 15) && decide (¬(n = 15 ∧ s.me.nest = true)) && decide (¬(n ≠ 15 ∧ (s.slot s.cur.core n).st = .trapped))) = true) ∧
    ((let s : State := demo; let n : Nat := 15; decide (n = s.myCore.slotsel.toNat) && decide (s.cur.slot ≠ 15)) = true) := by decide +kernel
theorem witness_ControlRegisters :
    (∀ q ∈ slotRegisters, (let s : State := demoRegs [(4, w64 q.1)]; let d : Reg := 3; let a : Reg := 4; decide (NoPort s [a] (some d)) && decide ((s.src a).toNat = q.1) && decide (s.cur.slot ≠ 15)) = true) ∧
    (∀ q ∈ slotRegisters, (let s : State := (target (sup [(4, w64 q.1)]) .trapped .none).modMyCore fun k => { k with slotsel := 2 }; let d : Reg := 3; let a : Reg := 4; decide (NoPort s [a] (some d)) && decide ((s.src a).toNat = q.1) && let n := 2; decide (s.cur.slot = 15) && decide (n = s.myCore.slotsel.toNat) && decide ((s.issue.slot s.cur.core n).st ≠ .free)) = true) ∧
    (∀ q ∈ slotRegisters, (let s : State := (target (sup [(4, w64 q.1)]) .free .none).modMyCore fun k => { k with slotsel := 2 }; let d : Reg := 3; let a : Reg := 4; decide (NoPort s [a] (some d)) && decide ((s.src a).toNat = q.1) && decide (s.cur.slot = 15) && decide ((s.issue.slot s.cur.core s.myCore.slotsel.toNat).st = .free)) = true) ∧
    ((let s : State := demoRegs [(4, 0)]; let d : Reg := 3; let a : Reg := 4; decide (NoPort s [a] (some d)) && decide (s.src a = 0) && let n : Nat := (if s.cur.slot = 15 then s.myCore.slotsel.toNat else s.cur.slot); true) = true) ∧
    ((let s : State := sup [(4, 0)]; let d : Reg := 3; let a : Reg := 4; decide (NoPort s [a] (some d)) && decide (s.src a = 0) && let n : Nat := (if s.cur.slot = 15 then s.myCore.slotsel.toNat else s.cur.slot); true) = true) ∧
    ((let s : State := demo; decide (s.me.reissue = false)) = true) ∧
    (∀ q ∈ coreRegisters, (let s : State := demoRegs [(4, w64 q.1)]; let d : Reg := 3; let a : Reg := 4; decide (NoPort s [a] (some d)) && decide ((s.src a).toNat = q.1)) = true) ∧
    ((let s : State := sup [(4, 0x19)]; let d : Reg := 3; let a : Reg := 4; decide (NoPort s [a] (some d)) && decide ((s.src a).toNat = 0x19) && decide (s.cur.slot = 15)) = true) ∧
    ((let s : State := sup [(4, 0x18)]; let d : Reg := 3; let a : Reg := 4; decide (NoPort s [a] (some d)) && decide ((s.src a).toNat = 0x18) && decide (s.cur.slot = 15)) = true) ∧
    ((let s : State := demoRegs [(4, 0x1A)]; let d : Reg := 3; let a : Reg := 4; decide (NoPort s [a] (some d)) && decide ((s.src a).toNat ∈ [0x18, 0x19, 0x1A]) && decide (s.cur.slot ≠ 15)) = true) ∧
    ((let s : State := State.modMyCore (demoRegs [(4, 0x20)]) fun k => { k with world := 1 }; let d : Reg := 3; let a : Reg := 4; decide (NoPort s [a] (some d)) && decide ((s.src a).toNat = 0x20) && decide (s.myWorld = 1)) = true) ∧
    ((let s : State := demoRegs [(4, 0x40)]; let d : Reg := 3; let a : Reg := 4; decide (NoPort s [a] (some d)) && decide (0x40 ≤ (s.src a).toNat)) = true) ∧
    (∀ q ∈ slotWrites, (let s : State := (target (sup [(3, w64 q.1), (4, 5)]) .trapped .none).modMyCore fun k => { k with slotsel := 2 }; let d : Reg := 3; let a : Reg := 4; decide (NoPort s [d, a] none) && decide ((s.src d).toNat = q.1) && let n := 2; decide (s.cur.slot = 15) && decide (n = s.myCore.slotsel.toNat) && decide ((s.issue.slot s.cur.core n).st ≠ .free)) = true) ∧
    (∀ q ∈ slotWrites.drop 6, (let s : State := demoRegs [(3, w64 q.1), (4, 5)]; let d : Reg := 3; let a : Reg := 4; decide (NoPort s [d, a] none) && decide ((s.src d).toNat = q.1) && decide (s.cur.slot ≠ 15) && decide (q.1 = 0x07 ∨ q.1 = 0x08)) = true) ∧
    (∀ q ∈ slotWrites.take 6, (let s : State := demoRegs [(3, w64 q.1), (4, 5)]; let d : Reg := 3; let a : Reg := 4; decide (NoPort s [d, a] none) && decide ((s.src d).toNat = q.1) && decide (s.cur.slot ≠ 15) && decide (q.1 ≠ 0x07) && decide (q.1 ≠ 0x08)) = true) ∧
    ((let s : State := sup [(3, 0x18), (4, 0x300000)]; let d : Reg := 3; let a : Reg := 4; decide (NoPort s [d, a] none) && decide (s.cur.slot = 15) && decide ((s.src d).toNat = 0x18) && decide (flag (s.src a) 0 = false)) = true) ∧
    ((let s : State := sup [(3, 0x1A), (4, 5)]; let d : Reg := 3; let a : Reg := 4; decide (NoPort s [d, a] none) && decide (s.cur.slot = 15) && decide ((s.src d).toNat = 0x1A)) = true) ∧
    ((let s : State := sup [(3, 0x19), (4, 0)]; let d : Reg := 3; let a : Reg := 4; decide (NoPort s [d, a] none) && decide (s.cur.slot = 15) && decide ((s.src d).toNat = 0x19) && decide (s.src a = 0)) = true) := by decide +kernel
theorem witness_Supervision :
    ((let s : State := target (sup [(4, 2), (3, spad 0x400)]) .run .none; let d : Reg := 3; let a : Reg := 4; let n : Nat := 2; decide (NoPort s [a] (some d)) && decide (s.cur.slot = 15) && decide ((s.src a).toNat = n) && decide (n < 14) && decide (s.issue.stopPoint s.cur.core n = .now) && decide (s.me.reissue = false)) = true) ∧
    ((let s : State := target (sup [(4, 2), (3, spad 0x400)]) .free .none; let d : Reg := 3; let a : Reg := 4; let n : Nat := 2; decide (NoPort s [a] (some d)) && decide (s.cur.slot = 15) && decide ((s.src a).toNat = n) && decide (n < 14) && decide (s.issue.stopPoint s.cur.core n = .none) && decide (s.me.reissue = false)) = true) ∧
    ((let s : State := target (sup [(4, 2), (3, spad 0x400)]) .wait .complete; let d : Reg := 3; let a : Reg := 4; let n : Nat := 2; decide (NoPort s [a] (some d)) && decide (s.cur.slot = 15) && decide ((s.src a).toNat = n) && decide (n < 14) && decide (s.issue.stopPoint s.cur.core n = .later) && decide (s.me.reissue = false)) = true) ∧
    ((let s : State := (target (sup [(4, 2), (3, spad 0x400)]) .run .none).modMe fun sl => { sl with reissue := true }; let d : Reg := 3; let a : Reg := 4; let n : Nat := 2; decide (NoPort s [a] (some d)) && decide (s.cur.slot = 15) && decide ((s.src a).toNat = n) && decide (n < 14) && decide (s.me.reissue = true) && decide ((s.slot s.cur.core n).stopReq ≠ .preempt)) = true) ∧
    ((let s : State := target demo .halted .none; let c : Nat := 0; let n : Nat := 2; let sl : Slot := s.slot c n; decide (sl.st = .free ∨ sl.st = .halted ∨ sl.st = .frozen)) = true) ∧
    ((let s : State := target demo .wait .rows; let c : Nat := 0; let n : Nat := 2; let sl : Slot := s.slot c n; decide (sl.st = .trapped ∨ sl.st = .stopped ∨ (sl.st = .run ∧ sl.reissue = false) ∨ (sl.st = .wait ∧ (sl.waiting = .rows ∨ sl.waiting = .blocked true)))) = true) ∧
    ((let s : State := target demo .run .none; let c : Nat := 0; let n : Nat := 2; let sl : Slot := s.slot c n; decide (sl.st = .trapped ∨ sl.st = .stopped ∨ (sl.st = .run ∧ sl.reissue = false) ∨ (sl.st = .wait ∧ (sl.waiting = .rows ∨ sl.waiting = .blocked true)))) = true) ∧
    ((let s : State := target demo .wait .net; let c : Nat := 0; let n : Nat := 2; let sl : Slot := s.slot c n; decide (sl.st = .wait) && decide (sl.waiting = .complete ∨ sl.waiting = .net ∨ sl.waiting = .blocked false)) = true) ∧
    ((let s : State := target demo .wait .retiring; let c : Nat := 0; let n : Nat := 2; let sl : Slot := s.slot c n; decide (sl.st = .wait) && decide (sl.waiting = .retiring)) = true) ∧
    ((let s : State := (target demo .wait (.turn (spadLoc 0 8))).setBank (spadLoc 0 8) { Bank.init with queue := [{ askOf .rsv with slot := 2 }] }; let c : Nat := 0; let n : Nat := 2; let sl : Slot := s.slot c n; let loc := spadLoc 0 8; decide (sl.st = .wait) && decide (sl.waiting = .turn loc) && someThen ((s.bank loc).queue.find? (fun r => decide (r.core = c) && decide (r.slot = n))) fun r => true) = true) ∧
    ((let s : State := target demo .run .none; let c : Nat := 0; let n : Nat := 2; let sl : Slot := s.slot c n; true) = true) ∧
    ((let s : State := (target (sup [(4, 2), (3, spad 0x400)]) .run .none).modWorld 2 fun w => { w with attached := true }; let d : Reg := 3; let a : Reg := 4; let n : Nat := 2; decide (NoPort s [d, a] none) && decide (s.cur.slot = 15) && decide ((s.world s.myWorld).attached = true) && decide ((s.src a).toNat = n) && decide (n < 14) && decide ((s.src d).toNat % 64 = 0) && decide (fld (s.src d) 58 6 = 0x30) && decide (s.me.reissue = false) && decide (s.issue.stopPoint s.cur.core n = .now) && okThen (writeRow s.who [(s.src d, (s.issue.stopSlot s.cur.core n .halted).snapshot s.cur.core n)] 8 (s.issue.stopSlot s.cur.core n .halted)) fun caps t => true) = true) ∧
    ((let s : State := target (sup [(4, 2)]) .halted .none; let a : Reg := 4; decide (NoPort s [a] none) && decide (s.cur.slot = 15) && let n := 2; decide ((s.src a).toNat = n) && decide (n < 14) && decide ((s.issue.slot s.cur.core n).st = .halted ∨ (s.issue.slot s.cur.core n).st = .stopped)) = true) ∧
    ((let s : State := sup [(4, 0x100)]; let a : Reg := 4; decide (NoPort s [a] none) && decide (s.cur.slot = 15) && decide (s.src a = 0x100)) = true) ∧
    ((let s : State := target (sup [(4, 0x12)]) .stopped .none; let d : Reg := 3; let a : Reg := 4; let n : Nat := 2; decide (NoPort s [a] (some d)) && decide (s.cur.slot = 15) && decide ((s.src a).toNat = fld (s.src a) 0 4 + 16 * fld (s.src a) 4 1) && decide (n = fld (s.src a) 0 4) && decide (n < 14) && let sl : Slot := s.issue.slot s.cur.core n; decide (sl.st = .stopped) && let t : State := (s.issue.revokeAll sl.uid).performSlot s.cur.core n; someThen (s.issue.myCore.roomFor sl.spill) fun e => decide (t.hasDeferred s.cur.core sl.uid = false) && decide (t.unitsLocked s.cur.core n = false)) = true) ∧
    ((let s : State := ((target (sup [(4, 2)]) .stopped .none).modSlot 0 2 fun sl => { sl with accown := 4 }).modMyCore fun k => { k with accs := k.accs.set 2 { Acc.init with claimed := true, lock := some 3 } }; let d : Reg := 3; let a : Reg := 4; let n : Nat := 2; decide (NoPort s [a] (some d)) && decide (s.cur.slot = 15) && decide ((s.src a).toNat = fld (s.src a) 0 4 + 16 * fld (s.src a) 4 1) && decide (n = fld (s.src a) 0 4) && decide (n < 14) && let sl : Slot := s.issue.slot s.cur.core n; decide (sl.st = .stopped) && let t : State := (s.issue.revokeAll sl.uid).performSlot s.cur.core n; someThen (s.issue.myCore.roomFor sl.spill) fun e => decide (t.hasDeferred s.cur.core sl.uid = true ∨ t.unitsLocked s.cur.core n = true)) = true) ∧
    ((let s : State := (target (sup [(4, 2)]) .stopped .none).modMyCore fun k => { k with cache := (List.range 48).map fun i => (i, readyEntry) }; let d : Reg := 3; let a : Reg := 4; let n : Nat := 2; decide (NoPort s [a] (some d)) && decide (s.cur.slot = 15) && decide ((s.src a).toNat = fld (s.src a) 0 4 + 16 * fld (s.src a) 4 1) && decide (n = fld (s.src a) 0 4) && decide (n < 14) && let sl : Slot := s.issue.slot s.cur.core n; decide (sl.st = .stopped) && let t : State := (s.issue.revokeAll sl.uid).performSlot s.cur.core n; decide (s.issue.myCore.roomFor sl.spill = none)) = true) ∧
    ((let s : State := (sup [(4, 5)]).modMyCore fun k => { k with cache := [(5, heldEntry)] }; let a : Reg := 4; let i : Nat := 5; let e : CtxEntry := heldEntry; decide (NoPort s [a] none) && decide (s.cur.slot = 15) && decide (i = (s.src a).toNat) && decide (s.issue.myCore.cache.find? (fun e => decide (e.1 = i)) = some (i, e)) && decide (e.st = .held)) = true) ∧
    ((let s : State := target demo .wait .complete; let c : Nat := 0; let n : Nat := 2; decide ((s.slot c n).st = .wait) && decide ((s.core c).enabled = true) && decide ((s.world (s.core c).world).stopped = false) && decide ((s.slot c n).waiting = .complete)) = true) ∧
    ((let s : State := target demo .wait (.blocked true); let c : Nat := 0; let n : Nat := 2; decide ((s.slot c n).st = .wait) && decide ((s.core c).enabled = true) && decide ((s.world (s.core c).world).stopped = false) && decide (∃ b, (s.slot c n).waiting = .blocked b)) = true) ∧
    ((let s : State := target demo .wait .rows; let c : Nat := 0; let n : Nat := 2; decide ((s.slot c n).st = .wait) && decide ((s.core c).enabled = true) && decide ((s.world (s.core c).world).stopped = false) && decide ((s.slot c n).waiting = .rows)) = true) ∧
    ((let s : State := (target demo .wait (.barrier (spadLoc 0 0x200) 9)); let c : Nat := 0; let n : Nat := 2; decide ((s.slot c n).st = .wait) && decide ((s.core c).enabled = true) && decide ((s.world (s.core c).world).stopped = false) && let loc := spadLoc 0 0x200; let q := (9 : Nat); decide ((s.slot c n).waiting = .barrier loc q) && decide ((s.barrier loc).phase ≠ q)) = true) := by decide +kernel
def headLit : List Byte := [0, 0, 1, 0, 88, 67, 55, 81, 3, 32, 0, 0, 1, 0, 0, 0, 144, 4] ++ List.replicate 46 0
theorem witness_ContextImages_0 :
    (let s : State := imaging (w64 (5 + 3 * 2 ^ 32)) 0x48F; let d : Reg := 3; let a : Reg := 4; let e0 : CtxEntry := heldEntry; decide (NoPort s [a] (some d)) && decide (s.cur.slot = 15) && okThen (readCtxDesc (s.src a) s.issue) fun r_ u => let x := r_.1; let caps := r_.2; let i : Nat := fld x.mb0 0 6; let index : Nat := fld x.mb0 32 12; let wlen : Nat := fld x.size 32 18; let woff : Nat := fld x.size 0 18; decide (u.myCore.cache.find? (fun q => decide (q.1 = i)) = some (i, e0)) && decide (fld x.mb0 44 20 = 0) && decide (fld x.mb0 6 26 = 0) && decide (fld x.size 50 14 = 0) && decide (fld x.size 18 14 = 0) && decide (wlen % 64 = 0) && decide (woff % 64 = 0) && decide (woff + wlen ≤ 0x30000) && decide (x.src.toNat % 16 = 0) && decide (fld x.src 61 3 = 0) && okThen (releaseAll u) fun _ r => let n : Nat := imageLen e0.ctx.liveTiles.length e0.rowsInAll e0.accs.length e0.planes.length wlen; let counter : Nat := Sparse.get 0 (r.world s.myWorld).counters index; decide (x.dst.toNat < n ∨ counter = 2 ^ 32 - 1) && true) = true := by decide +kernel
theorem witness_ContextImages_1 :
    (let s : State := (imaging (w64 (5 + 3 * 2 ^ 32)) 0x490).modWorld 2 fun w => { w with ctxKey := 0 }; let d : Reg := 3; let a : Reg := 4; let e0 : CtxEntry := heldEntry; decide (NoPort s [a] (some d)) && decide (s.cur.slot = 15) && okThen (readCtxDesc (s.src a) s.issue) fun r_ u => let x := r_.1; let caps := r_.2; let i : Nat := fld x.mb0 0 6; let index : Nat := fld x.mb0 32 12; let wlen : Nat := fld x.size 32 18; let woff : Nat := fld x.size 0 18; decide (u.myCore.cache.find? (fun q => decide (q.1 = i)) = some (i, e0)) && decide (fld x.mb0 44 20 = 0) && decide (fld x.mb0 6 26 = 0) && decide (fld x.size 50 14 = 0) && decide (fld x.size 18 14 = 0) && decide (wlen % 64 = 0) && decide (woff % 64 = 0) && decide (woff + wlen ≤ 0x30000) && decide (x.src.toNat % 16 = 0) && decide (fld x.src 61 3 = 0) && okThen (releaseAll u) fun _ r => let n : Nat := imageLen e0.ctx.liveTiles.length e0.rowsInAll e0.accs.length e0.planes.length wlen; let counter : Nat := Sparse.get 0 (r.world s.myWorld).counters index; decide (n ≤ x.dst.toNat) && decide (counter ≠ 2 ^ 32 - 1) && decide (r.ctxKeyDead s.myWorld = true) && true) = true := by decide +kernel
theorem witness_ContextImages_2 :
    (let s : State := imaging (w64 (5 + 3 * 2 ^ 32)) 0x490; let d : Reg := 3; let a : Reg := 4; let e0 : CtxEntry := heldEntry; decide (NoPort s [a] (some d)) && decide (s.cur.slot = 15) && okThen (readCtxDesc (s.src a) s.issue) fun r_ u => let x := r_.1; let caps := r_.2; let i : Nat := fld x.mb0 0 6; let index : Nat := fld x.mb0 32 12; let wlen : Nat := fld x.size 32 18; let woff : Nat := fld x.size 0 18; decide (u.myCore.cache.find? (fun q => decide (q.1 = i)) = some (i, e0)) && decide (fld x.mb0 44 20 = 0) && decide (fld x.mb0 6 26 = 0) && decide (fld x.size 50 14 = 0) && decide (fld x.size 18 14 = 0) && decide (wlen % 64 = 0) && decide (woff % 64 = 0) && decide (woff + wlen ≤ 0x30000) && decide (x.src.toNat % 16 = 0) && decide (fld x.src 61 3 = 0) && okThen (releaseAll u) fun _ r => let n : Nat := imageLen e0.ctx.liveTiles.length e0.rowsInAll e0.accs.length e0.planes.length wlen; let counter : Nat := Sparse.get 0 (r.world s.myWorld).counters index; decide (n ≤ x.dst.toNat) && decide (counter ≠ 2 ^ 32 - 1) && decide (r.ctxKeyDead s.myWorld = false) && okThen (imageWordsFree s.who x.src n r) fun _ r' => decide (r' = r) && let k : State := ((((r.unwait e0.takeOut.ctx.uid).modWorld s.myWorld fun y => { y with counters := Sparse.put y.counters index (counter + 1), saved := Sparse.put y.saved index e0.takeOut.ctx.uid }).dropSaved s.myWorld index).modCore s.cur.core fun q => { q with cache := Sparse.put q.cache i e0.takeOut }); let img : List Byte := sealed (k.imageKey s.myWorld index) (imageHeader e0.takeOut (counter + 1) s.myWorld index n woff wlen) (k.imageBody s.cur.core e0.takeOut n woff wlen); okThen (writeImage s.who x.src (img.take (64 - x.src.toNat % 64)) 1 k) fun _ v => okThen (writeImage s.who (x.src + w64 (64 - x.src.toNat % 64)) (img.drop (64 - x.src.toNat % 64)) (n / 64 + 1) (v.chargeAll caps)) fun _ t => true) = true := by decide +kernel
theorem witness_ContextImages_3 :
    (let s : State := (imaging (w64 (3 * 2 ^ 32)) 0x490).modMyCore fun k => { k with cache := (List.range 48).map fun i => (i, readyEntry) }; let d : Reg := 3; let a : Reg := 4; decide (NoPort s [a] (some d)) && decide (s.cur.slot = 15) && okThen (readCtxDesc (s.src a) s.issue) fun r_ u => let x := r_.1; let caps := r_.2; decide (fld x.mb0 44 20 = 0) && decide (fld x.mb0 0 32 = 0) && decide (x.size = 0) && decide (x.src.toNat % 16 = 0) && decide (fld x.src 61 3 = 0) && decide (u.myCore.roomFor 0 = none) && true) = true := by decide +kernel
theorem witness_ContextImages_4 :
    (let s : State := (imaging (w64 (3 * 2 ^ 32)) 0x490).modWorld 2 fun w => { w with ctxKey := 0 }; let d : Reg := 3; let a : Reg := 4; decide (NoPort s [a] (some d)) && decide (s.cur.slot = 15) && okThen (readCtxDesc (s.src a) s.issue) fun r_ u => let x := r_.1; let caps := r_.2; decide (fld x.mb0 44 20 = 0) && decide (fld x.mb0 0 32 = 0) && decide (x.size = 0) && decide (x.src.toNat % 16 = 0) && decide (fld x.src 61 3 = 0) && decide ((u.myCore.roomFor 0).isSome = true) && decide (u.ctxKeyDead s.myWorld = true) && true) = true := by decide +kernel
theorem witness_ContextImages_5 :
    (let s : State := hbm (imaging (w64 (3 * 2 ^ 32)) 0x490) 0x210000 (imageHeader heldEntry 1 2 3 0x490 0 0); let d : Reg := 3; let a : Reg := 4; decide (NoPort s [a] (some d)) && decide (s.cur.slot = 15) && okThen (readCtxDesc (s.src a) s.issue) fun r_ u => let x := r_.1; let caps := r_.2; let index : Nat := fld x.mb0 32 12; decide (fld x.mb0 44 20 = 0) && decide (fld x.mb0 0 32 = 0) && decide (x.size = 0) && decide (x.src.toNat % 16 = 0) && decide (fld x.src 61 3 = 0) && decide ((u.myCore.roomFor 0).isSome = true) && decide (u.ctxKeyDead s.myWorld = false) && okThen (engineRead s.who x.src 64 u) fun h v => decide (h = headLit) && let h : List Byte := headLit; someThen (headerRows h) fun rows => let n : Nat := fld (wordIn h 16) 0 32; decide (fld (wordIn h 0) 16 48 = 0x513743580001) && decide (fld (wordIn h 8) 12 4 = s.myWorld) && decide (n ≤ x.dst.toNat) && someThen (v.myCore.roomFor (headerSpill h rows)) fun i => decide (fld (wordIn h 8) 32 32 ≠ Sparse.get 0 (v.world s.myWorld).counters index) && true) = true := by decide +kernel
theorem witness_ChainInstructions :
    ((let s : State := demoRegs [(4, 0)]; let d : Reg := 3; let a : Reg := 4; let n : Nat := 0; decide (NoPort s [a] (some d)) && decide (s.cur.slot ≠ 14) && decide (n = chainSlotOf s) && decide (s.src a = 0)) = true) ∧
    ((let s : State := demoRegs [(4, 1)]; let d : Reg := 3; let a : Reg := 4; let n : Nat := 0; decide (NoPort s [a] (some d)) && decide (s.cur.slot ≠ 14) && decide (n = chainSlotOf s) && decide (s.src a ≠ 0) && decide ((s.src a).toNat ≤ 8) && someThen (((linksAt s n).zip (effShares (linksAt s n)))[(s.src a).toNat - 1]?) fun r_ => let e := r_.1; let eff := r_.2; true) = true) ∧
    ((let s : State := demoRegs [(4, 8)]; let d : Reg := 3; let a : Reg := 4; let n : Nat := 0; decide (NoPort s [a] (some d)) && decide (s.cur.slot ≠ 14) && decide (n = chainSlotOf s) && decide (s.src a ≠ 0) && decide ((s.src a).toNat ≤ 8) && decide ((linksAt s n).length < (s.src a).toNat)) = true) ∧
    ((let s : State := demoRegs [(4, 1)]; let d : Reg := 3; let a : Reg := 4; let n : Nat := 0; decide (NoPort s [a] (some d)) && decide (s.cur.slot ≠ 14) && decide (n = chainSlotOf s) && decide (s.src a ≠ 0) && decide ((s.src a).toNat ≤ 8)) = true) ∧
    ((let s : State := demoRegs [(4, 9)]; let d : Reg := 3; let a : Reg := 4; let n : Nat := 0; decide (NoPort s [a] (some d)) && decide (s.cur.slot ≠ 14) && decide (n = chainSlotOf s) && decide (8 < (s.src a).toNat)) = true) ∧
    ((let c : Nat := 7; let eff : List Nat := [60, 40]; decide (eff ≠ []) && decide (eff.sum = 100)) = true) ∧
    ((let s : State := withRegs (adopted false) [(4, w64 (40 * 2 ^ 32 + 5))]; let d : Reg := 3; let a : Reg := 4; decide (NoPort s [a] (some d)) && decide (s.cur.slot < 14) && let p : Nat := fld (s.src a) 0 24; let f : Nat := fld (s.src a) 32 7; decide (fld (s.src a) 39 25 = 0) && decide (fld (s.src a) 24 8 = 0) && decide (s.issue.revoking = false) && decide ((s.chain (fld s.me.chain 0 16)).revoked = false) && decide (fld s.me.chain 16 3 ≠ 7) && decide (f ≤ (s.chain (fld s.me.chain 0 16)).share) && decide (p ≠ 0) && decide ((s.principal p).st = .live) && decide ((s.principal p).world = s.myWorld) && someThen (s.issue.intern (some (fld s.me.chain 0 16)) p (s.principal p).gen f s.myWorld (fld s.me.chain 16 3 + 1)) fun r_ => let n := r_.1; let t := r_.2; true) = true) ∧
    ((let s : State := adopted true; let d : Reg := 3; let n : Nat := 1; decide (NoPort s [] (some d)) && decide (s.cur.slot < 14) && decide (s.issue.revoking = false) && decide (fld s.me.chain 16 3 ≠ 0) && decide (n = (s.chain (fld s.me.chain 0 16)).parent)) = true) ∧
    ((let s : State := ({ demo with chains := [] }); let p : Nat := 5; let w : Nat := 2; let gen : Nat := 0; let share : Nat := 40; let depth : Nat := 0; let parent : Option Nat := none; someThen (s.intern parent p gen share w depth) fun r_ => let n := r_.1; let t := r_.2; decide (s.findChain parent p gen share = none)) = true) ∧
    ((let s : State := memRegs; let p : Num3 := 2; let a : Reg := 1; let k : BitVec 2 := 0; decide (NoPort s [a] none) && decide (s.cur.slot ≠ 14) && let w : Who := ⟨s.cur.core, s.cur.slot, s.myWorld, fld (s.slot s.cur.core (chainSlotOf s)).chain 0 16⟩; okThen (authorize w (s.src a) [kindOf k] s.issue) fun cap t => true) = true) ∧
    ((let s : State := demoRegs [(1, w64 (2 ^ 57))]; let p : Num3 := 2; let a : Reg := 1; let k : BitVec 2 := 0; decide (NoPort s [a] none) && decide (s.cur.slot ≠ 14) && let w : Who := ⟨s.cur.core, s.cur.slot, s.myWorld, fld (s.slot s.cur.core (chainSlotOf s)).chain 0 16⟩; trapThen (authorize w (s.src a) [kindOf k] s.issue) fun x t => decide (x.cause ≠ Cause.chainRevoked)) = true) ∧
    ((let s : State := memRegs.setChain 1 { memRegs.chain 1 with revoked := true }; let p : Num3 := 2; let a : Reg := 1; let k : BitVec 2 := 0; decide (NoPort s [a] none) && decide (s.cur.slot ≠ 14) && let w : Who := ⟨s.cur.core, s.cur.slot, s.myWorld, fld (s.slot s.cur.core (chainSlotOf s)).chain 0 16⟩; trapThen (authorize w (s.src a) [kindOf k] s.issue) fun x t => decide (x.cause = Cause.chainRevoked)) = true) := by decide +kernel
theorem witness_Revocation :
    ((let s : State := sweeping none; let w : Sweep := ⟨5, 0, 0, 1⟩; let rest : List Sweep := []; decide (s.sweep = none) && decide (s.revocations = w :: rest)) = true) ∧
    ((let s : State := sweeping (some 0); let w : Sweep := ⟨5, 0, 3, 1⟩; decide (s.sweep = some w) && decide (w.pass < 8)) = true) ∧
    ((let s : State := sweeping (some 8); let w : Sweep := ⟨5, 8, 3, 1⟩; decide (s.sweep = some w) && decide (w.pass = 8)) = true) := by decide +kernel
theorem witness_CommandJudgement :
    ((let s : State := demo; let c : Cmd := cmd 0 0x10; decide (Begins s c (fld c.c0 0 8)) && decide (s.bootState = 0) && decide (fld c.c0 0 8 = 0 ∨ 0x0F < fld c.c0 0 8)) = true) ∧
    ((let s : State := demo; let c : Cmd := cmd 3 0; decide (Begins s c (fld c.c0 0 8)) && decide (s.bootState = 0) && decide (fld c.c0 0 8 = 0 ∨ 0x0F < fld c.c0 0 8)) = true) ∧
    ((let s : State := demo; let c : Cmd := cmd 3 2; decide (Begins s c 0x02) && decide (s.bootState = 0) && decide (c.fn ≠ 0)) = true) ∧
    ((let s : State := demo; let c : Cmd := cmd 3 4; decide (Begins s c 0x04) && decide (s.bootState = 0) && decide (c.fn ≠ 0) && decide ((s.fn c.fn).world = 0 ∨ fld (s.cmdWord c.fn 1) 0 4 ≠ (s.fn c.fn).world)) = true) ∧
    ((let s : State := demo; let c : Cmd := cmd 3 6; decide (Begins s c 0x06) && decide (s.bootState = 0) && decide (c.fn ≠ 0) && decide ((s.fn c.fn).tdisp ≠ .run)) = true) ∧
    ((let s : State := demo; let c : Cmd := ⟨3, w64 (1 + 2 ^ 32), none, none⟩; decide (Begins s c 0x01) && decide (fld c.c0 32 32 ≠ 0 ∨ fld c.c0 8 8 ≠ 0 ∨ fld (s.cmdWord c.fn 7) 0 6 ≠ 0)) = true) ∧
    ((let s : State := demo.modFn 3 fun f => { f with pending := some (pendingOf 0) }; let f : Nat := 3; let t : Tlp := ⟨0, List.replicate 8 0, none⟩; let p : Pending := pendingOf 0; decide ((s.fn f).pending = some p) && decide (s.deciphers f t.key = true) && decide (t.off = 0) && decide (8 ≤ t.bytes.length)) = true) ∧
    ((let s : State := demo.modFn 3 fun f => { f with pending := some (pendingOf 0x1000) }; let f : Nat := 3; let p : Pending := pendingOf 0x1000; let code : Byte := 2; let result : W32 := 5; decide ((s.fn f).pending = some p) && decide (p.fin = .done code result) && let u : State := s.modFn f (fun x => { x with code := code, result := result, tag := p.tag, pending := none }); true) = true) ∧
    ((let s : State := demo; let addr : Nat := 0x1000; let bs : List Byte := [1, 0, 3]; decide (addr + bs.length ≤ 2 ^ 63) && let i := 2; decide (i < bs.length)) = true) ∧
    ((let s : State := demo; let addr : Nat := 0x1000; let bs : List Byte := [1, 0, 3]; decide (addr + bs.length ≤ 2 ^ 63) && let l := 2 ^ 55 + 0x1003; decide (l < 2 ^ 55 + addr ∨ 2 ^ 55 + addr + bs.length ≤ l)) = true) := by decide +kernel
theorem witness_CommandsOfAWorld :
    ((let s : State := operands demo 3 [0x1000]; let c : Cmd := cmd 3 1; decide (Admitted s c 0x01) && decide (opnd s c 1 % 64 = 0)) = true) ∧
    ((let s : State := operands hosted 3 [0x1000, 64, 0x210000]; let c : Cmd := cmd 3 5; decide (Admitted s c 0x05) && let w : Nat := s.fnWorld c.fn; let src : Nat := opnd s c 1; let n : Nat := opnd s c 2; let dst : Nat := opnd s c 3; decide (n ≠ 0) && decide (n % 64 = 0) && decide (n ≤ 2 ^ 28) && decide (dst % 64 = 0) && decide (dst + n ≤ 2 ^ 56) && decide (∃ x ∈ (s.world w).caps, x.base ≤ dst ∧ dst + n ≤ x.base + x.len) && decide (∀ i, i < (dst % 65536 + n + 65535) / 65536 → ((judged s c).imagePage w (dst / 65536 * 65536 + 65536 * i)).isSome = true) && decide ((s.world w).images.length < 224) && decide (hostRange src n = true) && decide (c.hostErr = none)) = true) ∧
    ((let s : State := operands hosted 3 [0x1000, 4095]; let c : Cmd := cmd 3 6; decide (Admitted s c 0x06) && let w : Nat := s.fnWorld c.fn; let a : Nat := opnd s c 1; let n : Nat := opnd s c 2; decide (a % 64 = 0) && decide (n ≠ 0) && decide (n < 4096)) = true) ∧
    ((let c : Cmd := cmd 3 6; let w : Nat := 2; let a : Nat := 0x1000; let n : Nat := 1; let i : Nat := 0; let fuel : Nat := 1; let s : State := hosted; decide (i < n) && decide (c.hostErr ≠ some i) && decide (hostRange (a + 64 * i) 64 = true) && acceptedThen (s.offer w (s.hostRead (a + 64 * i) 64)) fun t => true) = true) ∧
    ((let c : Cmd := cmd 3 6; let w : Nat := 2; let a : Nat := 0x1000; let n : Nat := 1; let i : Nat := 0; let fuel : Nat := 1; let s : State := hosted.hostWrite 0x1000 [1]; decide (i < n) && decide (c.hostErr ≠ some i) && decide (hostRange (a + 64 * i) 64 = true) && offerIs (s.offer w (s.hostRead (a + 64 * i) 64)) false) = true) ∧
    ((let c : Cmd := cmd 3 6; let w : Nat := 2; let a : Nat := 0x1000; let n : Nat := 1; let i : Nat := 0; let fuel : Nat := 1; let s : State := hosted.modWorld 2 fun w => { w with launch := [⟨List.replicate 64 (packetOf 0), none⟩], ringLen := 1024 }; decide (i < n) && decide (c.hostErr ≠ some i) && decide (hostRange (a + 64 * i) 64 = true) && offerIs (s.offer w (s.hostRead (a + 64 * i) 64)) true) = true) ∧
    ((let s : State := operands hosted 3 [5, 2, 0x1000]; let c : Cmd := cmd 3 0xD; decide (Admitted s c 0x0D) && let w : Nat := s.fnWorld c.fn; let first : Nat := opnd s c 1; let n : Nat := opnd s c 2; let a : Nat := opnd s c 3; decide (first < 2 ^ 24) && decide (n ≠ 0) && decide (n < 4096) && decide (a % 8 = 0)) = true) ∧
    ((let s : State := operands (hosted.modWorld 2 fun w => { w with debugOk := true }) 3 [1]; let c : Cmd := cmd 3 0xF; decide (Admitted s c 0x0F) && decide ((s.world (s.fnWorld c.fn)).debugOk = true) && decide (s.cmdWord c.fn 1 = 1) && decide (opnd s c 1 = 1)) = true) ∧
    ((let s : State := operands (hosted.modWorld 2 fun w => { w with debugOk := true }) 3 [0]; let c : Cmd := cmd 3 0xF; decide (Admitted s c 0x0F) && decide ((s.world (s.fnWorld c.fn)).debugOk = true) && decide (s.cmdWord c.fn 1 = 0) && decide (opnd s c 1 = 0)) = true) ∧
    ((let s : State := target demo .halted .none; let w : Nat := 2; let c : Nat := 0; let n : Nat := 2; decide ((s.core c).world = w)) = true) ∧
    ((let s : State := target demo .halted .none; let w : Nat := 2; let c : Nat := 0; let n : Nat := 0; decide ((s.core c).world = w) && decide ((s.slot c n).st ≠ .halted)) = true) ∧
    ((let c : Cmd := cmd 3 6; let w : Nat := 2; let a : Nat := 0x1000; let n : Nat := 1; let i : Nat := 0; let fuel : Nat := 1; let s : State := hosted; decide (i < n) && decide (c.hostErr ≠ some i) && decide (hostRange (a + 64 * i) 64 = true)) = true) := by decide +kernel
theorem witness_CommandsOfAuthority :
    ((let s : State := operands ({ hosted with chains := [] }) 3 [5]; let c : Cmd := cmd 3 7; decide (Admitted s c 0x07) && let w : Nat := s.fnWorld c.fn; let id : Nat := opnd s c 1; decide (id < 2 ^ 24) && decide (id ≠ 0) && decide (s.revoking = false) && decide ((s.principal id).st = .free ∨ ((s.principal id).st = .revoked ∧ (s.principal id).world = w)) && someThen ((judged s c).intern none id (s.principal id).gen 100 w 0) fun r_ => let n := r_.1; let t := r_.2; true) = true) ∧
    ((let s : State := operands ({ hosted with revocations := [⟨5, 0, 0, 1⟩] }) 3 [5]; let c : Cmd := cmd 3 7; decide (Admitted s c 0x07) && let w : Nat := s.fnWorld c.fn; let id : Nat := opnd s c 1; decide (id < 2 ^ 24) && decide (s.revoking = true)) = true) ∧
    ((let s : State := operands (hosted.setPrincipal 5 ⟨.live, 2, 0⟩) 3 [5]; let c : Cmd := cmd 3 8; decide (Admitted s c 0x08) && let w : Nat := s.fnWorld c.fn; let id : Nat := opnd s c 1; decide (id < 2 ^ 24) && decide (id ≠ 0) && decide ((s.principal id).st = .live) && decide ((s.principal id).world = w)) = true) ∧
    ((let s : State := operands (hosted.hostWrite 0x1000 (natToLe 8 (0x11 * 2 ^ 56 + 5 * 2 ^ 24))) 3 [4095, 0x1000, 1]; let c : Cmd := cmd 3 9; decide (Admitted s c 0x09) && let w : Nat := s.fnWorld c.fn; let set : Nat := opnd s c 1; let a : Nat := opnd s c 2; let n : Nat := opnd s c 3; decide (set < 4096) && decide (n ≠ 0) && decide (n ≤ 16) && decide (cmdReadFails c a (32 * n) = false) && someThen (rulesOf ((judged s c).hostRead a (32 * n)) n) fun rules => true) = true) ∧
    ((let s : State := operands (hosted.modWorld 2 fun w => { w with caps := [] }) 3 [0x1000, 64]; let c : Cmd := cmd 3 0xA; decide (Admitted s c 0x0A) && let w : Nat := s.fnWorld c.fn; let base : W64 := (judged s c).cmdWord c.fn 1; let len : Nat := opnd s c 2; let c3 : W64 := (judged s c).cmdWord c.fn 3; let c4 : W64 := (judged s c).cmdWord c.fn 4; decide (fld c3 20 44 = 0) && decide (fld c3 12 4 = 0) && decide (fld c4 32 32 = 0) && decide (capRangeOk w base len = true) && decide (∀ y ∈ (s.world w).caps, ¬(y.base < base.toNat + len ∧ base.toNat < y.base + y.len)) && decide ((s.world w).caps.length < 4096) && let id : Nat := freeCapid s.freeCtr ((s.world w).caps.map (·.id)); true) = true) ∧
    ((let n : Nat := 0; let used : List Nat := [3]; decide (used.length < 65536)) = true) ∧
    ((let s : State := operands hosted 3 [0]; let c : Cmd := cmd 3 0xB; let x : Cap := ⟨0, 0, 2 ^ 56, 0, 0xF, 3⟩; decide (Admitted s c 0x0B) && let w : Nat := s.fnWorld c.fn; let id : Nat := opnd s c 1; decide (id < 2 ^ 16) && decide (x ∈ (s.world w).caps) && decide (x.id = id)) = true) := by decide +kernel
theorem witness_CommandsOfWorlds :
    ((let s : State := creating; let c : Cmd := cmd 0 2; decide (Admitted s c 0x02) && let w : Nat := opnd s c 1; let n : Nat := opnd s c 4; decide (2 ≤ w) && decide (w ≤ 15) && decide ((s.world w).live = false) && decide (n ≠ 0) && decide (n ≤ 64) && decide (opnd s c 5 ≠ 0) && decide (opnd s c 5 ≤ 255) && decide (opnd s c 6 % 65536 ≤ 1) && decide (c.hostErr = none) && decide (hostRange (opnd s c 2) 64 = true) && decide (hostRange (opnd s c 3) (32 * n) = true) && let cs : List Nat := maskCores ((judged s c).hostRead (opnd s c 2) 64); someThen (extentsOf ((judged s c).hostRead (opnd s c 3) (32 * n)) n) fun l => decide ((judged s c).extentsOk w l = true) && decide (ringOk l (opnd s c 6 / 65536 * 65536) = true) && decide (∀ k ∈ cs, (s.core k).world = 0) && decide (∀ k ∈ cs, k < 512)) = true) ∧
    ((let s : State := State.modCore demo 8 fun k => { k with zeroing := true }; let k : Nat := 8; decide ((s.core k).zeroing = true)) = true) ∧
    ((let s : State := operands demo 0 [2, 4]; let c : Cmd := cmd 0 3; decide (Admitted s c 0x03) && let w : Nat := opnd s c 1; let f : Nat := opnd s c 2; decide (2 ≤ w) && decide (w ≤ 15) && decide (f ≠ 0) && decide (f ≤ 14) && decide (f ≠ c.fn) && decide ((s.world w).live = true) && decide ((s.world w).tdi = 0) && decide (s.dying w = false) && decide ((s.fn f).tdisp = .unlocked) && decide ((s.fn f).world = 0)) = true) ∧
    ((let s : State := operands demo 0 [2]; let c : Cmd := cmd 0 4; decide (Admitted s c 0x04) && let w : Nat := opnd s c 1; decide (w = (s.cmdWord c.fn 1).toNat) && decide (2 ≤ w) && decide (w ≤ 15) && decide (c.fn = 0 ∨ (s.fn c.fn).world = w) && decide ((s.world w).live = true) && decide ((judged s c).dying w = false)) = true) ∧
    ((let s : State := operands hosted 3 [2]; let c : Cmd := cmd 3 4; decide (Admitted s c 0x04) && let w : Nat := opnd s c 1; decide (w = (s.cmdWord c.fn 1).toNat) && decide (2 ≤ w) && decide (w ≤ 15) && decide (c.fn = 0 ∨ (s.fn c.fn).world = w) && decide ((s.world w).live = true) && decide ((judged s c).dying w = false)) = true) ∧
    ((let s : State := operands quiet 0 [0x1000, w64 (2 ^ 40), 0]; let c : Cmd := cmd 0 0xE; decide (Admitted s c 0x0E) && decide (s.cmdWord c.fn 3 = 0) && decide (ckptOperandsOk (judged s c) c.fn = true) && decide (s.tenantsIdle = true) && decide (ckptLen (extentBytes s.hbmExtents) ≤ opnd s c 2)) = true) ∧
    ((let s : State := leased 0; let c : Cmd := cmd 3 0xC; let r : Report := goodReport s c; let w : Nat := (s.fn c.fn).world; renewOk s c r 0 && decide ((judged s c).keyDead w = false)) = true) ∧
    ((let s : State := leased 2; let c : Cmd := cmd 3 0xC; let r : Report := goodReport s c; let w : Nat := (s.fn c.fn).world; renewOk s c r 2) = true) ∧
    ((let s : State := leased 1; let c : Cmd := cmd 3 0xC; let r : Report := goodReport s c; let w : Nat := (s.fn c.fn).world; renewOk s c r 1 && decide (∃ k ∈ (s.fn c.fn).keySets, k.alive s.meridian = true)) = true) := by decide +kernel
theorem witness_HostWindows :
    ((let s : State := demo; let f : Nat := 3; let t : Tlp := ⟨8, List.replicate 8 5, none⟩; decide (s.booted = true) && decide (f ≤ 14) && decide (s.deciphers f t.key = true) && decide (¬(t.off = 0 ∧ 8 ≤ t.bytes.length)) && decide (t.off < 64) && decide (t.off + t.bytes.length ≤ 0x1000)) = true) ∧
    ((let s : State := demo; let f : Nat := 3; let t : Tlp := ⟨64, List.replicate 8 5, none⟩; decide (s.booted = true) && decide (f ≤ 14) && decide (s.deciphers f t.key = true) && decide (¬(t.off = 0 ∧ 8 ≤ t.bytes.length)) && decide (64 ≤ t.off) && decide (t.off + t.bytes.length ≤ 0x1000 ∨ (0x3000 ≤ t.off ∧ t.off + t.bytes.length ≤ 65536))) = true) ∧
    ((let b : Vector W64 8 := Vector.replicate 8 0; let off : Nat := 8; let bs : List Byte := [1]; let f : Func := Func.init; let i : Nat := 63; decide (i < 64)) = true) ∧
    ((let f : Func := Func.init; let i : Nat := 7; let j : Nat := 7; decide (j < 8) && decide (i < 8)) = true) ∧
    ((let f : Func := Func.init; let i : Nat := 7; let j : Nat := 7; decide (j < 8)) = true) ∧
    ((let f : Func := Func.init; let i : Nat := 0; let j : Nat := 0; decide (j < 8) && let off := 72; decide (72 ≤ off)) = true) ∧
    ((let s : State := demo; let f : Nat := 3; let t : Tlp := ⟨0, [], some 0⟩; decide (s.deciphers f t.key = false)) = true) ∧
    ((let s : State := hosted1; let f : Nat := 3; let t : Tlp := ⟨0, List.replicate 64 0, none⟩; decide (s.booted = true) && decide (f ≤ 14) && decide (s.deciphers f t.key = true) && decide (t.off < 4096) && decide (t.bytes.length = 64) && decide (t.off % 64 = 0) && decide (s.fnWorld f ≠ 0) && acceptedThen (s.offer (s.fnWorld f) t.bytes) fun u => true) = true) ∧
    ((let s : State := hosted; let f : Nat := 3; let t : Tlp := ⟨8, List.replicate 64 0, none⟩; decide (s.booted = true) && decide (f ≤ 14) && decide (s.deciphers f t.key = true) && decide (t.off < 4096) && decide (t.bytes.length ≠ 64 ∨ t.off % 64 ≠ 0 ∨ s.fnWorld f = 0)) = true) ∧
    ((let s : State := hosted.modWorld 2 fun w => { w with launch := [⟨List.replicate 64 (packetOf 0), none⟩], ringLen := 1024 }; let f : Nat := 3; let t : Tlp := ⟨0, List.replicate 64 0, none⟩; decide (s.booted = true) && decide (f ≤ 14) && decide (s.deciphers f t.key = true) && decide (t.off < 4096) && decide (t.bytes.length = 64) && decide (t.off % 64 = 0) && decide (s.fnWorld f ≠ 0) && offerIs (s.offer (s.fnWorld f) t.bytes) true) = true) ∧
    ((let s : State := demo; let w : Nat := 2; let bs : List Byte := 1 :: List.replicate 63 0; let words : Vector W64 8 := s.acceptWords w (packetWords bs); decide (malformed words ≠ none)) = true) ∧
    ((let s : State := demo.modWorld 2 fun w => { w with launch := [⟨[packetOf 0], none⟩] }; let w : Nat := 2; let bs : List Byte := List.replicate 64 0; let words : Vector W64 8 := s.acceptWords w (packetWords bs); let early : List Segment := []; let ps : List Packet := [packetOf 0]; decide (malformed words = none) && consThen (s.coresOf w) fun c cs => decide ((s.world w).ringLen = 0) && decide (packetCount (s.world w).launch < 64) && decide ((s.world w).launch = early ++ [⟨ps, none⟩]) && decide (ps.length < 16)) = true) ∧
    ((let s : State := hosted; let f : Nat := 3; let t : Tlp := ⟨16, natToLe 8 0x210000 ++ natToLe 4 0xFFFFFFFF ++ natToLe 4 0, none⟩; decide (s.booted = true) && decide (f ≤ 14) && decide (s.deciphers f t.key = true) && decide (t.off < 4096) && decide (t.bytes.length = 16) && decide (t.off % 16 = 0) && decide (leToNat (t.bytes.take 8) % 8 = 0) && decide (leToNat (t.bytes.drop 12) = 0) && decide (s.fnWorld f ≠ 0) && let n : Nat := leToNat ((t.bytes.drop 8).take 4); true) = true) ∧
    ((let s : State := world1; let off : Nat := 0x1FF8; let size : Nat := 8; decide (s.fwAllows 1 1 .read = true) && decide (off < 2 ^ 18) && decide (size = 8) && decide (off % 8 = 0) && decide (off < 0x2000)) = true) ∧
    ((let s : State := world1; let off : Nat := 0x30000; let size : Nat := 8; decide (s.fwAllows 1 1 .read = true) && decide (off < 2 ^ 18) && decide (size = 8) && decide (off % 8 = 0) && decide (0x30000 ≤ off)) = true) ∧
    ((let s : State := world1; let off : Nat := 4; let size : Nat := 8; decide (s.fwAllows 1 1 .read = true) && decide (off < 2 ^ 18) && decide (size ≠ 8 ∨ off % 8 ≠ 0)) = true) ∧
    ((let s : State := world1; let off : Nat := 0x1FF8; let size : Nat := 8; let v : W64 := 5; decide (s.booted = true) && decide (off < 2 ^ 18) && decide (size = 8) && decide (off % 8 = 0) && decide (s.fwAllows 1 1 .write = true) && decide (off < 0x2000)) = true) ∧
    ((let s : State := world1; let off : Nat := 4; let size : Nat := 8; let v : W64 := 5; decide (s.booted = true) && decide (off < 2 ^ 18) && decide (size ≠ 8 ∨ off % 8 ≠ 0)) = true) ∧
    ((let s : State := demo; let w : Nat := 2; let bs : List Byte := List.replicate 64 0; let words : Vector W64 8 := s.acceptWords w (packetWords bs); decide (malformed words = none) && consThen (s.coresOf w) fun c cs => decide ((s.world w).ringLen = 0) && decide (packetCount (s.world w).launch < 64) && decide ((s.world w).launch = []) && decide (s.sramSegments (clusterOf c) < Config.queueSramSegments)) = true) := by decide +kernel
theorem witness_Mailboxes :
    ((let s : State := demo; let f : Nat := 3; decide (s.booted = true) && decide (f ≤ 14) && let n := 131072; decide (n ≤ 131072)) = true) ∧
    ((let s : State := demo; let f : Nat := 3; decide (s.booted = true) && decide (f ≤ 14) && let n := 131073; decide (131072 < n)) = true) ∧
    ((let s : State := demo; let f : Nat := 3; decide (s.booted = true) && decide (f ≤ 14)) = true) ∧
    ((let s : State := demo; let f : Nat := 3; decide (s.booted = true) && decide (f ≤ 14) && let offered := ([.aes256Gcm, .shake256] : List Algorithm); decide (offered ≠ []) && let l := [.slhDsaShake256f, .shake256, .measurementShake256, .mlKem1024, .aes256Gcm].filter offered.contains; true) = true) ∧
    ((let s : State := demo; let f : Nat := 3; decide (s.booted = true) && decide (f ≤ 14) && let l := [0, (Config.shake256 (s.certChain 0).flatten).toNat, 1, (Config.shake256 (s.certChain 1).flatten).toNat]; true) = true) ∧
    ((let s : State := demo; let f : Nat := 3; decide (s.booted = true) && decide (f ≤ 14) && let n := 1; decide (n ≤ 1)) = true) ∧
    ((let s : State := demo; let f : Nat := 3; decide (s.booted = true) && decide (f ≤ 14) && let n := 2; decide (1 < n)) = true) ∧
    ((let s : State := ({ demo with bootState := 1 }); let f : Nat := 3; decide (s.booted = true) && decide (f ≤ 14) && let n := 1; decide (s.bootState ≠ 0)) = true) ∧
    ((let s : State := ({ demo with bootState := 1 }); let f : Nat := 3; decide (s.booted = true) && decide (f ≤ 14) && decide (s.bootState ≠ 0)) = true) ∧
    ((let s : State := demo; let f : Nat := 3; decide (s.booted = true) && decide (f ≤ 14) && let n := 1; decide (n ≤ 1) && decide (s.bootState = 0)) = true) ∧
    ((let s : State := inSession demo .unlocked true; let f : Nat := 3; decide (s.booted = true) && decide (f ≤ 14) && let n := 2; let i := 0; let x := (if (s.fn f).established n = true then some n else none); let u := (s.issueNonce f x (s.blocks f i)).2; true) = true) ∧
    ((let s : State := demo; let f : Nat := 3; decide (s.booted = true) && decide (f ≤ 14) && let i := 0; decide (s.bootState = 0) && decide (i < 4) && decide (∀ x ∈ (s.fn f).sessions, x.id ≠ i) && decide (∀ j, j < i → ∃ x ∈ (s.fn f).sessions, x.id = j)) = true) ∧
    ((let s : State := demo.modFn 3 fun f => { f with sessions := [⟨0, true, 0⟩, ⟨1, true, 0⟩, ⟨2, true, 0⟩] }; let f : Nat := 3; decide (s.booted = true) && decide (f ≤ 14) && let i := 3; decide (s.bootState = 0) && decide (i < 4) && decide (∀ x ∈ (s.fn f).sessions, x.id ≠ i) && decide (∀ j, j < i → ∃ x ∈ (s.fn f).sessions, x.id = j)) = true) ∧
    ((let s : State := demo.modFn 3 fun f => { f with sessions := [⟨0, true, 0⟩, ⟨1, true, 0⟩, ⟨2, true, 0⟩, ⟨3, false, 0⟩] }; let f : Nat := 3; decide (s.booted = true) && decide (f ≤ 14) && decide (s.bootState = 0) && decide (((List.range 4).all fun j => decide (∃ x ∈ (s.fn f).sessions, x.id = j)) = true)) = true) ∧
    ((let s : State := inSession demo .unlocked false; let f : Nat := 3; decide (s.booted = true) && decide (f ≤ 14) && let n := 2; let t := 0; decide ((s.fn f).session n = some ⟨n, false, t⟩)) = true) ∧
    ((let s : State := inSession demo .unlocked true; let f : Nat := 3; decide (s.booted = true) && decide (f ≤ 14) && let n := 2; decide ((s.fn f).established n = true)) = true) ∧
    ((let s : State := ({ inSession demo .unlocked true with meridian := 60000000 }); let f : Nat := 3; let n : Nat := 2; let x : Session := ⟨2, true, 0⟩; decide ((s.fn f).session n = some x) && decide (x.lastAt + 60000000 ≤ s.meridian)) = true) ∧
    ((let s : State := inSession demo .unlocked true; let f : Nat := 3; let n : Nat := 2; let i : Nat := 1; let out : Bool := true; decide (s.booted = true) && decide (f ≤ 14) && decide (i ≤ 1) && decide ((s.fn f).established n = true) && decide ((s.fn f).bound = none ∨ (s.fn f).bound = some n) && decide (((s.fn f).keySet i out).alive s.meridian = false)) = true) ∧
    ((let s : State := (inSession demo .unlocked true).modFn 3 fun f => { f with set1 := ⟨6, false, 0, none⟩ }; let f : Nat := 3; let n : Nat := 2; let i : Nat := 1; let out : Bool := false; decide (s.booted = true) && decide (f ≤ 14) && decide (i ≤ 1) && decide ((s.fn f).established n = true) && decide ((s.fn f).bound = none ∨ (s.fn f).bound = some n) && decide (((s.fn f).keySet i out).key ≠ 0) && decide (((s.fn f).keySet i out).live = false)) = true) ∧
    ((let s : State := inSession demo .unlocked false; let f : Nat := 3; let n : Nat := 2; let i : Nat := 1; let out : Bool := false; decide (s.booted = true) && decide (f ≤ 14) && decide (i ≤ 1) && decide ((s.fn f).established n = false ∨ ((s.fn f).bound ≠ none ∧ (s.fn f).bound ≠ some n))) = true) ∧
    ((let s : State := (inSession demo .unlocked true).modFn 3 fun f => { f with set1 := ⟨6, true, 100, none⟩ }; let f : Nat := 3; let i : Nat := 1; decide (f ≤ 14) && decide (i ≤ 1) && decide ((s.fn f).selected ≠ i) && decide (((s.fn f).keySet i false).alive s.meridian = true)) = true) ∧
    ((let s : State := ({ demo.modFn 3 fun f => { f with set0 := ⟨5, true, 100, some 0⟩ } with meridian := 10000 }); let f : Nat := 3; let i : Nat := 0; let t : Nat := 0; decide (i ≤ 1) && decide (((s.fn f).keySet i false).retiringAt = some t) && decide (t + 10000 ≤ s.meridian) && decide (((s.fn f).pending.all fun p => decide (p.keySet ≠ i)) = true)) = true) := by decide +kernel
theorem witness_Interfaces :
    ((let s : State := inSession demo .unlocked true; let f : Nat := 3; let n : Nat := 2; decide (s.booted = true) && decide (f ≤ 14) && decide (f ≠ 0) && decide ((s.fn f).established n = true) && decide ((s.fn f).tdisp = .unlocked) && decide ((s.fn f).world ≠ 0) && decide ((s.world (s.fn f).world).stopped = false) && decide (∃ k ∈ (s.fn f).keySets, k.key ≠ 0)) = true) ∧
    ((let s : State := inSession demo .run true; let f : Nat := 3; let n : Nat := 2; decide (s.booted = true) && decide (f ≤ 14) && decide (f ≠ 0) && decide ((s.fn f).established n = true) && decide ((s.fn f).tdisp ≠ .unlocked)) = true) ∧
    ((let s : State := inSession demo .locked true; let f : Nat := 3; let n : Nat := 2; decide (s.booted = true) && decide (f ≤ 14) && decide (f ≠ 0) && decide ((s.fn f).established n = true) && decide ((s.fn f).tdisp = .locked)) = true) ∧
    ((let s : State := inSession demo .unlocked true; let f : Nat := 3; let n : Nat := 2; decide (s.booted = true) && decide (f ≤ 14) && decide (f ≠ 0) && decide ((s.fn f).established n = true) && decide ((s.fn f).tdisp ≠ .locked)) = true) ∧
    ((let s : State := inSession demo .run true; let f : Nat := 3; let n : Nat := 2; decide (s.booted = true) && decide (f ≤ 14) && decide (f ≠ 0) && decide ((s.fn f).established n = true) && decide ((s.fn f).tdisp = .run ∨ (s.fn f).tdisp = .error)) = true) ∧
    ((let s : State := inSession demo .locked false; let f : Nat := 3; let n : Nat := 2; decide (s.booted = true) && decide (f ≤ 14) && decide (f ≠ 0) && decide ((s.fn f).established n = false)) = true) ∧
    ((let s : State := inSession demo .locked true; let f : Nat := 3; decide (f ≠ 0) && decide ((s.fn f).tdisp = .run ∨ (s.fn f).tdisp = .locked)) = true) ∧
    ((let s : State := ({ demo.modWorld 2 fun w => { w with memExpiry := 100 } with meridian := 100 }); let w : Nat := 2; decide ((s.world w).live = true) && decide ((s.world w).memDead = false) && decide ((s.world w).memExpiry ≠ 0) && decide ((s.world w).memExpiry ≤ s.meridian) && decide ((s.world w).stopped = false)) = true) ∧
    ((let s : State := ({ inSession demo .run true with meridian := 100 }); let f : Nat := 3; let i : Nat := 0; let out : Bool := false; decide (i ≤ 1) && decide (((s.fn f).keySet i out).live = true) && decide (((s.fn f).keySet i out).expiry ≤ s.meridian)) = true) ∧
    ((let s : State := demo; let w : Nat := 2; decide ((s.world w).live = true) && decide ((s.world w).ctxExpiry ≤ s.meridian)) = true) ∧
    ((let s : State := ({ demo with ckptKey := 5, ckptExpiry := 100, meridian := 100 }); decide (s.ckptKey ≠ 0) && decide (s.ckptExpiry ≤ s.meridian)) = true) := by decide +kernel
theorem witness_PowerAndTelemetry :
    ((let s : State := State.reset; let v : BootVerdict := ⟨true, true, true, true⟩; decide (s.booted = false)) = true) ∧
    ((let s : State := demo; decide (s.power = true)) = true) ∧
    ((let s : State := ({ demo with cycle := 2850 }); decide (s.booted = true) && decide (s.bootState = 0) && someThen (s.nextCluster) fun c => decide (c = 0 ∨ (s.core (8 * c - 8)).enabledAt + 2850 ≤ s.cycle)) = true) ∧
    ((let s : State := ({ demo with cycle := 2 ^ 20 + 100 }); let c : Nat := 0; decide ((s.core c).enabled = true) && decide ((s.core c).gated = false) && decide (∀ a ∈ (s.core c).accs.toList, a.claimed = false) && decide ((s.core c).lastRow + 2 ^ 20 ≤ s.cycle) && decide ((s.core c).enabledAt + 2 ^ 20 ≤ s.cycle)) = true) ∧
    ((let s : State := demo; let d : Nat := 1; let tj : Nat := 919; let p : Nat := 100; decide (d ≤ 1) && decide (tj < 920)) = true) ∧
    ((let s : State := demo; let d : Nat := 1; decide (d ≤ 1)) = true) ∧
    ((let s : State := ({ demo with powerNow := 2200 }); let d : Nat := 1; decide (d ≤ 1) && decide (s.powerCap ≤ s.powerNow)) = true) ∧
    ((let s : State := ({ demo with dies := [(1, ⟨0, 840⟩)] }); let d : Nat := 1; decide (d ≤ 1) && decide (840 ≤ (s.die d).tj)) = true) ∧
    ((let s : State := ({ demo with dies := [(1, ⟨0, 719⟩)] }); let d : Nat := 1; decide (d ≤ 1) && decide ((s.die d).tj ≤ 719) && decide (s.powerNow * 100 < s.powerCap * 98)) = true) ∧
    ((let s : State := demo; decide (s.booted = true)) = true) ∧
    ((let s : State := demo; decide (s.booted = true) && let w := 1200; decide (1200 ≤ w) && decide (w ≤ 2200)) = true) ∧
    ((let s : State := demo; decide (s.booted = true) && let w := 1199; decide (w < 1200 ∨ 2200 < w)) = true) ∧
    ((let s : State := demo; decide (s.booted = true) && let d := 1; let n := 15; let src := (some 3 : Option Nat); decide (d ≤ 1) && decide (n ≤ 15)) = true) ∧
    ((let s : State := demo; let q : MemRequest := ⟨true, 1, List.replicate 64 0⟩; decide (s.booted = true) && decide ((∀ e ∈ (s.world 1).extents, ¬(e.kind = 0 ∧ e.dpa ≤ q.addr ∧ q.addr < e.dpa + e.len)) ∨ q.addr % 64 ≠ 0)) = true) ∧
    ((let s : State := world1; let q : MemRequest := ⟨true, 2 ^ 31, List.replicate 64 1⟩; decide (s.booted = true) && decide (∃ e ∈ (s.world 1).extents, e.kind = 0 ∧ e.dpa ≤ q.addr ∧ q.addr < e.dpa + e.len) && decide (q.addr % 64 = 0) && decide (s.fwAllows 1 1 .write = true) && decide (q.write = true) && decide (q.data.length = 64) && decide (s.keyDead 1 = false)) = true) ∧
    ((let s : State := world1; let q : MemRequest := ⟨false, 2 ^ 31, []⟩; decide (s.booted = true) && decide (∃ e ∈ (s.world 1).extents, e.kind = 0 ∧ e.dpa ≤ q.addr ∧ q.addr < e.dpa + e.len) && decide (q.addr % 64 = 0) && decide (s.fwAllows 1 1 .read = true) && decide (q.write = false) && decide ((s.world 1).memKey ≠ 0) && decide (Sparse.get 0 s.lineKeys (q.addr / 64) = (s.world 1).memKey) && decide (q.addr / 64 ∉ s.eccBad)) = true) := by decide +kernel
theorem witness_EncodeDecodeAgree :
    ((let i : Instr := .acas 17 18 19 ⟨3, 5, 0⟩; let rest : List H16 := [0x2305]; decide (i.encodable = true) && decide (i.wellFormed = true) && decide ((encode i).length ≤ 5)) = true) ∧
    ((let ws : List H16 := [0xF003, 0x35E8]; someThen (decode ws) fun r_ => let i := r_.1; let n := r_.2; true) = true) := by decide +kernel
theorem witness_RefusedEncodings :
    (let s : State := coded [0xF3FF, 0xF3FF, 0xF3FF, 0x4300]; let rest : List Act := []; let c : Nat := 0; let n : Nat := 0; let rows : Option Nat := none; let ws : List H16 := [0xF3FF, 0xF3FF, 0xF3FF]; let w : H16 := 0x4300; decide (s.power = true) && decide (s.schedule = .issue c n rows :: rest) && decide ((fetching s rest c n rows).mayIssue c n = true) && decide ((fetching s rest c n rows).me.underway = none) && someThen (prefixes Pfx.init 0 ws) fun p => fetchThen (fetching s rest c n rows).me.pc 0 (ws ++ [w]) (fetching s rest c n rows) fun t => decide (p.page = 0) && decide (w.toNat / 4096 = 4) && decide (2 ^ 32 ≤ p.imx.foldl (fun v b => v * 1024 + b) 0 * 256 + w.toNat % 256)) = true := by decide +kernel
theorem witness_StepRunsDecoded :
    ((let s : State := coded [0xF003, 0x35E8]; let rest : List Act := []; let c : Nat := 0; let n : Nat := 0; let rows : Option Nat := none; let ws : List H16 := [0xF003, 0x35E8]; let i : Instr := .li 5 1000; decide (s.power = true) && decide (s.schedule = .issue c n rows :: rest) && decide ((fetching s rest c n rows).mayIssue c n = true) && decide ((fetching s rest c n rows).me.underway = none) && fetchThen (fetching s rest c n rows).me.pc 0 ws (fetching s rest c n rows) fun t => decide (decode ws = some (i, ws.length))) = true) ∧
    ((let s : State := (coded [0xF003, 0x35E8]).modSlot 0 0 fun sl => { sl with reissue := true, issued := some (.li 5 1000, 4) }; let rest : List Act := []; let c : Nat := 0; let n : Nat := 0; let rows : Option Nat := none; let i : Instr := .li 5 1000; let len : Nat := 4; decide (s.power = true) && decide (s.schedule = .issue c n rows :: rest) && decide ((fetching s rest c n rows).mayIssue c n = true) && decide ((fetching s rest c n rows).me.underway = some (i, len))) = true) ∧
    ((let s : State := coded [0xFD20, 0xFD20]; let rest : List Act := []; let c : Nat := 0; let n : Nat := 0; let rows : Option Nat := none; let ws : List H16 := [0xFD20]; let w : H16 := 0xFD20; decide (s.power = true) && decide (s.schedule = .issue c n rows :: rest) && decide ((fetching s rest c n rows).mayIssue c n = true) && decide ((fetching s rest c n rows).me.underway = none) && someThen (prefixes Pfx.init 0 ws) fun p => decide (p.feed ws.length w.toNat = .illegal) && fetchThen (fetching s rest c n rows).me.pc 0 (ws ++ [w]) (fetching s rest c n rows) fun t => true) = true) ∧
    ((let s : State := (coded []).modSlot 0 0 fun sl => { sl with pc := w64 (2 ^ 57) }; let rest : List Act := []; let c : Nat := 0; let n : Nat := 0; let rows : Option Nat := none; let ws : List H16 := []; decide (s.power = true) && decide (s.schedule = .issue c n rows :: rest) && decide ((fetching s rest c n rows).mayIssue c n = true) && decide ((fetching s rest c n rows).me.underway = none) && someThen (prefixes Pfx.init 0 ws) fun p => fetchThen (fetching s rest c n rows).me.pc 0 ws (fetching s rest c n rows) fun u => decide (ws.length < 5) && trapThen (fetch16 ((fetching s rest c n rows).me.pc + w64 (2 * ws.length)) u) fun x t => true) = true) ∧
    ((let s : State := ({ demo with schedule := [.event .yield] }); let rest : List Act := []; let e : Instr := .yield; decide (s.power = true) && decide (s.schedule = .event e :: rest)) = true) ∧
    ((let s : State := ({ demo with schedule := [.same .yield] }); let rest : List Act := []; let e : Instr := .yield; decide (s.power = true) && decide (s.schedule = .same e :: rest)) = true) ∧
    ((let s : State := ({ demo with schedule := [.tick 5] }); let rest : List Act := []; let k : Nat := 5; decide (s.power = true) && decide (s.schedule = .tick k :: rest)) = true) ∧
    ((let s : State := ({ demo with schedule := [.issue 0 5 none] }); let rest : List Act := []; let c : Nat := 0; let n : Nat := 5; let rows : Option Nat := none; decide (s.power = true) && decide (s.schedule = .issue c n rows :: rest) && decide (({ s.elapse 1 with schedule := rest } : State).mayIssue c n = false)) = true) ∧
    ((let s : State := ({ State.reset with power := false }); decide (s.power = false) && decide (s.schedule = [])) = true) := by decide +kernel
theorem witness_LowestCacheEntry :
    ((let s : State := (target (sup [(4, 2)]) .stopped .none).modMyCore fun k => { k with cache := [(0, readyEntry)] }; let d : Reg := 3; let a : Reg := 4; let i : Nat := 1; nextThen (exec (.ctxsave d a) s) fun t => decide (i ∈ (t.core s.cur.core).cache.map Prod.fst) && decide (i ∉ (s.core s.cur.core).cache.map Prod.fst)) = true) ∧
    ((let s : State := (target (sup [(4, 2)]) .stopped .none).modMyCore fun k => { k with cache := [(0, readyEntry)] }; let d : Reg := 3; let a : Reg := 4; let i : Nat := 1; nextThen (exec (.ctxsave d a) s) fun t => decide (i ∈ (t.core s.cur.core).cache.map Prod.fst) && decide (i ∉ (s.core s.cur.core).cache.map Prod.fst) && let j := 0; decide (j < i)) = true) := by decide +kernel
theorem witness_MemoryStaysCanonical :
    (let s : State := coded [0x2305]; decide (s.MemoryWf) && nextThen (step s) fun t => true) = true := by decide +kernel
theorem witness_FirewallStaysLocked :
    (let s : State := ({ coded [0x2305] with firewallLock := true }); decide (s.power = true) && decide (s.firewallLock = true) && decide (s.booted = true) && nextThen (step s) fun t => true) = true := by decide +kernel
theorem witness_RegisterOnlyFrame :
    (∀ q ∈ registerOnly, (let s : State := demo; let v : W64 := 5; let d : Reg := 3; let a : Reg := 4; let x : Option Reg := none; decide (NoPort s (d :: a :: x.toList) (some d)) && nextThen (exec (q v d a x) s) fun t => true) = true) ∧
    (∀ q ∈ compares, (let s : State := demo; let p : Num3 := 7; let a : Reg := 4; let x : Option Reg := none; decide (NoPort s (a :: x.toList) none) && nextThen (exec (q.1 p a x) s) fun t => true) = true) ∧
    (∀ q ∈ compares, (let s : State := demo; let p : Num3 := 7; let a : Reg := 4; let x : Option Reg := none; decide (NoPort s (a :: x.toList) none) && nextThen (exec (q.1 p a x) s) fun t => let i := 3; decide (i ≠ p)) = true) := by decide +kernel
theorem witness_LoadsAndStoresFrame :
    (∀ q ∈ loads, (let s : State := memRegs; let d : Reg := 7; let a : Reg := 1; let off : W64 := 1; let m : Mod := ⟨1, 3, 0⟩; decide (NoPort s [a] (some d)) && okThen (checkAccess s.who (s.src a + off * w64 q.2.1) q.2.1 .read [.read] s.issue) fun r_ u => let pl := r_.1; let cap := r_.2; okThen (loadPlace s.who pl q.2.1 m (s.src a + off * w64 q.2.1) u) fun bs v => nextThen (exec (q.1 d a off m) s) fun t => true) = true) ∧
    (∀ q ∈ loads, (let s : State := memRegs; let d : Reg := 7; let a : Reg := 1; let off : W64 := 1; let m : Mod := ⟨1, 3, 0⟩; decide (NoPort s [a] (some d)) && okThen (checkAccess s.who (s.src a + off * w64 q.2.1) q.2.1 .read [.read] s.issue) fun r_ u => let pl := r_.1; let cap := r_.2; okThen (loadPlace s.who pl q.2.1 m (s.src a + off * w64 q.2.1) u) fun bs v => nextThen (exec (q.1 d a off m) s) fun t => let c := 0; true) = true) ∧
    (∀ q ∈ loads, (let s : State := memRegs; let d : Reg := 7; let a : Reg := 1; let off : W64 := 1; let m : Mod := ⟨1, 3, 0⟩; decide (NoPort s [a] (some d)) && okThen (checkAccess s.who (s.src a + off * w64 q.2.1) q.2.1 .read [.read] s.issue) fun r_ u => let pl := r_.1; let cap := r_.2; okThen (loadPlace s.who pl q.2.1 m (s.src a + off * w64 q.2.1) u) fun bs v => nextThen (exec (q.1 d a off m) s) fun t => let c := 0; let n := 1; decide (¬(c = s.cur.core ∧ n = s.cur.slot))) = true) ∧
    (∀ q ∈ loads, (let s : State := memRegs; let d : Reg := 7; let a : Reg := 1; let off : W64 := 1; let m : Mod := ⟨1, 3, 0⟩; decide (NoPort s [a] (some d)) && okThen (checkAccess s.who (s.src a + off * w64 q.2.1) q.2.1 .read [.read] s.issue) fun r_ u => let pl := r_.1; let cap := r_.2; okThen (loadPlace s.who pl q.2.1 m (s.src a + off * w64 q.2.1) u) fun bs v => nextThen (exec (q.1 d a off m) s) fun t => let loc := 0x210000; true) = true) ∧
    (∀ q ∈ stores, (let s : State := memRegs; let d : Reg := 7; let a : Reg := 1; let off : W64 := 1; let m : Mod := Mod.none; decide (NoPort s [d, a] none) && decide (m.order = 0) && okThen (releaseAt m.order m.scope s.issue) fun _ v => decide ((v.core s.cur.core).sb.length < 32) && okThen (checkAccess s.who (s.src a + off * w64 q.2) q.2 .write [.write] v) fun r_ u => let pl := r_.1; let cap := r_.2; decide (pl.space ≠ .ctrl) && readThen s.who pl (s.src a + off * w64 q.2) u fun w => nextThen (exec (q.1 d a off m) s) fun t => true) = true) ∧
    (∀ q ∈ stores, (let s : State := memRegs; let d : Reg := 7; let a : Reg := 1; let off : W64 := 1; let m : Mod := Mod.none; decide (NoPort s [d, a] none) && decide (m.order = 0) && okThen (releaseAt m.order m.scope s.issue) fun _ v => decide ((v.core s.cur.core).sb.length < 32) && okThen (checkAccess s.who (s.src a + off * w64 q.2) q.2 .write [.write] v) fun r_ u => let pl := r_.1; let cap := r_.2; decide (pl.space ≠ .ctrl) && readThen s.who pl (s.src a + off * w64 q.2) u fun w => nextThen (exec (q.1 d a off m) s) fun t => let c := 1; decide (c ≠ s.cur.core)) = true) ∧
    (∀ q ∈ stores, (let s : State := memRegs; let d : Reg := 7; let a : Reg := 1; let off : W64 := 1; let m : Mod := Mod.none; decide (NoPort s [d, a] none) && decide (m.order = 0) && okThen (releaseAt m.order m.scope s.issue) fun _ v => decide ((v.core s.cur.core).sb.length < 32) && okThen (checkAccess s.who (s.src a + off * w64 q.2) q.2 .write [.write] v) fun r_ u => let pl := r_.1; let cap := r_.2; decide (pl.space ≠ .ctrl) && readThen s.who pl (s.src a + off * w64 q.2) u fun w => nextThen (exec (q.1 d a off m) s) fun t => let c := 0; let n := 1; decide (¬(c = s.cur.core ∧ n = s.cur.slot))) = true) ∧
    (∀ q ∈ stores, (let s : State := memRegs; let d : Reg := 7; let a : Reg := 1; let off : W64 := 1; let m : Mod := Mod.none; decide (NoPort s [d, a] none) && decide (m.order = 0) && okThen (releaseAt m.order m.scope s.issue) fun _ v => decide ((v.core s.cur.core).sb.length < 32) && okThen (checkAccess s.who (s.src a + off * w64 q.2) q.2 .write [.write] v) fun r_ u => let pl := r_.1; let cap := r_.2; decide (pl.space ≠ .ctrl) && readThen s.who pl (s.src a + off * w64 q.2) u fun w => nextThen (exec (q.1 d a off m) s) fun t => let loc := spadLoc 0 0x100; true) = true) := by decide +kernel
theorem witness_TldCompletes :
    (let s : State := flat (layoutRegs 7); let td : Num3 := 0; let a : Reg := 5; let b : Reg := 6; let m : Mod := ⟨1, 2, 0⟩; decide (NoPort s [a, b] none) && decide (ToTheEnd s) && decide (resumesAt s (restartKey 1 8 0) = none) && decide (Unhindered s m) && let sh : W64 := (s.me.tile td).shape; let row0 : Nat := fld (s.src b) 0 32; let col0 : Nat := fld (s.src b) 32 32; layoutThen s (s.src a) fun l => decide (movable sh) && decide (shType sh = l.elemTy) && decide (l.cx8 = false) && let vr := (window l sh row0 col0).1; let vc := (window l sh row0 col0).2; ((List.range (vr)).all fun r => (allPass s s.who (tySize l.type) .read (rowSpans l row0 col0 r vc))) && scalesPass s l ((List.range vr).map (row0 + ·))) = true := by decide +kernel
theorem witness_TstCompletes :
    (let s : State := flat (layoutRegs 7); let td : Num3 := 0; let a : Reg := 5; let b : Reg := 6; let m : Mod := ⟨2, 2, 0⟩; decide (NoPort s [a, b] none) && decide (ToTheEnd s) && decide (resumesAt s (restartKey 1 8 1) = none) && decide (Unhindered s m) && let sh : W64 := (s.me.tile td).shape; let row0 : Nat := fld (s.src b) 0 32; let col0 : Nat := fld (s.src b) 32 32; layoutThen s (s.src a) fun l => decide (movable sh) && decide (shType sh = l.elemTy) && decide (l.cx8 = false) && let rows : Nat := min (window l sh row0 col0).1 (shVrows sh); let cols : Nat := min (window l sh row0 col0).2 (shVcols sh); ((List.range (rows)).all fun r => (allPass s s.who (tySize l.type) .write (rowSpans l row0 col0 r cols))) && decide (s.myCore.sb.length + rows ≤ 32)) = true := by decide +kernel
theorem witness_LocalTransfersComplete :
    ((let s : State := layoutRegs 7; let td : Num3 := 0; let a : Reg := 7; let b : Reg := 8; let m : Mod := Mod.none; decide (NoPort s [a, b] none) && decide (ToTheEnd s) && decide (Unhindered s m) && let sh : W64 := (s.me.tile td).shape; let ea : W64 := s.src a; let pitch : W64 := s.src b; decide (movable sh) && decide (fld ea 61 3 = 6) && decide (fld ea 58 3 ≤ 2) && decide (ea.toNat % tySize (shType sh) = 0) && decide (pitch.toNat % tySize (shType sh) = 0) && decide (resumesAt s (restartKey 1 9 0) = none) && ((List.range (shRows sh)).all fun r => (decide (fld (ea + w64 r * pitch) 58 6 = 48 + fld ea 58 3) && decide (fld (ea + w64 r * pitch) 0 58 + shCols sh * tySize (shType sh) ≤ windowSize (fld ea 58 3)) && (allPass s s.who (tySize (shType sh)) .read [(ea + w64 r * pitch, shCols sh * tySize (shType sh))])))) = true) ∧
    ((let s : State := layoutRegs 7; let td : Num3 := 0; let a : Reg := 7; let b : Reg := 8; let m : Mod := Mod.none; decide (NoPort s [a, b] none) && decide (ToTheEnd s) && decide (Unhindered s m) && let sh : W64 := (s.me.tile td).shape; let ea : W64 := s.src a; let pitch : W64 := s.src b; decide (movable sh) && decide (fld ea 61 3 = 6) && decide (fld ea 58 3 ≤ 2) && decide (ea.toNat % tySize (shType sh) = 0) && decide (pitch.toNat % tySize (shType sh) = 0) && decide (resumesAt s (restartKey 1 9 1) = none) && ((List.range (shVrows sh)).all fun r => (decide (fld (ea + w64 r * pitch) 58 6 = 48 + fld ea 58 3) && decide (fld (ea + w64 r * pitch) 0 58 + shVcols sh * tySize (shType sh) ≤ windowSize (fld ea 58 3)) && (allPass s s.who (tySize (shType sh)) .write [(ea + w64 r * pitch, shVcols sh * tySize (shType sh))]))) && decide (s.myCore.sb.length + shVrows sh ≤ 32)) = true) := by decide +kernel
theorem witness_IndexedTransfersComplete :
    ((let s : State := flat (layoutRegs 7); let td : Num3 := 0; let tx : Num3 := 1; let a : Reg := 5; let m : Mod := Mod.none; decide (NoPort s [a] none) && decide (ToTheEnd s) && decide (Unhindered s m) && let sh : W64 := (s.me.tile td).shape; let xsh : W64 := (s.me.tile tx).shape; let ks : List Int := indexList (s.me.tile tx); layoutThen s (s.src a) fun l => decide (movable sh) && decide (shType sh = l.elemTy) && decide (xsh ≠ 0) && decide (shType xsh = 8) && decide (l.trans = false) && decide (l.cx8 = false) && decide (ks.length ≤ shRows sh) && decide (∀ k ∈ ks, 0 ≤ k ∧ k < l.rows) && decide (resumesAt s (restartKey 1 0xA 0) = none) && ((ks).all fun k => (allPass s s.who (tySize l.type) .read (rowSpans l 0 0 k.toNat (min (shCols sh) l.cols)))) && scalesPass s l (ks.map Int.toNat)) = true) ∧
    ((let s : State := flat (layoutRegs 7); let td : Num3 := 0; let tx : Num3 := 1; let a : Reg := 5; let m : Mod := Mod.none; decide (NoPort s [a] none) && decide (ToTheEnd s) && decide (Unhindered s m) && let sh : W64 := (s.me.tile td).shape; let xsh : W64 := (s.me.tile tx).shape; let ks : List Int := indexList (s.me.tile tx); layoutThen s (s.src a) fun l => decide (movable sh) && decide (shType sh = l.elemTy) && decide (xsh ≠ 0) && decide (shType xsh = 8) && decide (l.trans = false) && decide (l.cx8 = false) && decide (ks.length ≤ shRows sh) && decide (∀ k ∈ ks, 0 ≤ k ∧ k < l.rows) && let rows := min ks.length (shVrows sh); let cols := min (min (shCols sh) l.cols) (shVcols sh); decide (resumesAt s (restartKey 1 0xA 1) = none) && ((ks).all fun k => (allPass s s.who (tySize l.type) .write (rowSpans l 0 0 k.toNat cols))) && decide (s.myCore.sb.length + rows ≤ 32)) = true) := by decide +kernel
theorem witness_PlaneLoadsComplete :
    ((let s : State := flat (layoutRegs 5); let a : Reg := 5; let b : Reg := 6; let m : Mod := Mod.none; decide (NoPort s [a, b] none) && decide (ToTheEnd s) && decide (Unhindered s m) && let row0 : Nat := fld (s.src b) 0 32; let col0 : Nat := fld (s.src b) 32 32; layoutThen s (s.src a) fun l => decide (l.cx8 = false) && let p : Num2 := 2; decide (s.me.plown.getLsbD p.toNat = true) && decide (resumesAt s (restartKey 3 1 0) = none) && decide (l.type ≤ 6) && let krows := (planeWindow l row0 col0).1; let ncols := (planeWindow l row0 col0).2; ((List.range (krows)).all fun r => (allPass s s.who (tySize l.type) .read (rowSpans l row0 col0 r ncols)))) = true) ∧
    ((let s : State := flat (layoutRegs 7); let a : Reg := 5; let b : Reg := 6; let m : Mod := Mod.none; decide (NoPort s [a, b] none) && decide (ToTheEnd s) && decide (Unhindered s m) && let row0 : Nat := fld (s.src b) 0 32; let col0 : Nat := fld (s.src b) 32 32; layoutThen s (s.src a) fun l => decide (l.cx8 = false) && let p : Num2 := 2; decide (s.me.plown.getLsbD p.toNat = true) && decide (resumesAt s (restartKey 3 1 2) = none) && decide (l.type = 7) && decide (l.trans = false) && let n : Nat := (if row0 < l.rows then min 128 (l.cols - col0) else 0); (allPass s s.who 4 .read [(l.addr row0 col0, 4 * n)])) = true) ∧
    ((let s : State := flat (layoutRegs 5); let a : Reg := 5; let b : Reg := 6; let m : Mod := ⟨0, 0, 7⟩; decide (NoPort s [a, b] none) && decide (ToTheEnd s) && decide (Unhindered s m) && let row0 : Nat := fld (s.src b) 0 32; let col0 : Nat := fld (s.src b) 32 32; layoutThen s (s.src a) fun l => decide (l.cx8 = false) && decide (resumesAt s (restartKey 3 1 1) = none) && let chunk : Nat := m.spec.toNat % 8; decide (l.type = 5) && decide (∀ q ∈ s.myCore.projUse, q.1 = s.cur.slot ∨ q.2.1 = true ∨ 64 * chunk + 64 ≤ q.2.2.1 ∨ q.2.2.2 ≤ 64 * chunk) && let n : Nat := min 64 (if l.trans then l.rows - row0 else l.cols - col0); ((List.range (64)).all fun i => (!decide ((if l.trans then col0 + i < l.cols else row0 + i < l.rows)) || (allPass s s.who 2 .read (rowSpans l row0 col0 i n))))) = true) := by decide +kernel
theorem witness_SequenceTransfersComplete :
    ((let s : State := flat seqRegs; let a : Reg := 5; let b : Reg := 6; let m : Mod := Mod.none; decide (NoPort s [a, b] none) && decide (ToTheEnd s) && decide (Unhindered s m) && decide (s.cur.slot ≠ 14) && headerThen s (s.src a) fun h => let first : Nat := fld (s.src b) 0 16; let p : Num2 := 1; decide (s.me.plown.getLsbD p.toNat = true) && let n : Nat := fld (s.src b) 16 8; let slice : Nat := fld (s.src b) 24 4; decide (fld (s.src b) 28 36 = 0) && decide (1 ≤ n) && decide (n ≤ 128) && decide (resumesAt s (restartKey 6 0 0) = none) && decide (32 * slice + 32 ≤ h.width) && decide (first + n ≤ 16 * h.npages) && ((List.range (n)).all fun c => (allPass s s.who h.esize .read [(h.row (first + c) + w64 (32 * slice * h.esize), 32 * h.esize)]))) = true) ∧
    ((let s : State := flat seqRegs; let a : Reg := 5; let b : Reg := 0; let m : Mod := Mod.none; decide (NoPort s [a, b] none) && decide (ToTheEnd s) && decide (Unhindered s m) && decide (s.cur.slot ≠ 14) && headerThen s (s.src a) fun h => let first : Nat := fld (s.src b) 0 16; let td : Num3 := 0; let sh : W64 := (s.me.tile td).shape; decide (fld (s.src b) 20 44 = 0) && decide (resumesAt s (restartKey 6 1 0) = none) && decide (sh ≠ 0) && decide (shType sh = h.type) && decide (shCols sh * h.esize = 64) && decide (64 * fld (s.src b) 16 4 < h.rowBytes) && decide (first + shVrows sh ≤ 16 * h.npages) && ((List.range (shVrows sh)).all fun i => (allPass s s.who 1 .write [(h.row (first + i) + w64 (64 * fld (s.src b) 16 4), shVcols sh * h.esize)])) && decide (s.myCore.sb.length + shVrows sh ≤ 32)) = true) ∧
    ((let s : State := flat seqRegs; let a : Reg := 5; let b : Reg := 6; let m : Mod := Mod.none; decide (NoPort s [a, b] none) && decide (ToTheEnd s) && decide (Unhindered s m) && decide (s.cur.slot ≠ 14) && headerThen s (s.src a) fun h => let first : Nat := fld (s.src b) 0 16; let td : Num3 := 1; let n : Nat := fld (s.src b) 16 7; decide (fld (s.src b) 23 41 = 0) && decide (1 ≤ n) && decide (n ≤ 64) && decide (resumesAt s (restartKey 6 2 0) = none) && decide (first + n ≤ 16 * h.npages) && ((List.range (n)).all fun j => (allPass s s.who 1 .read [(h.trailer (first + j) + w64 ((first + j) % 16), 1)]))) = true) := by decide +kernel
theorem witness_RegistersComplete :
    (∀ q ∈ slotRegisters, (let s : State := demoRegs [(4, w64 q.1)]; let d : Reg := 3; let a : Reg := 4; decide (NoPort s [a] (some d)) && decide ((s.src a).toNat = q.1) && decide (s.cur.slot ≠ 15)) = true) ∧
    ((let s : State := demoRegs [(3, 7), (4, 5)]; let d : Reg := 3; let a : Reg := 4; decide (NoPort s [d, a] none) && decide (s.cur.slot ≠ 15) && decide ((s.src d).toNat = 0x07)) = true) ∧
    ((let s : State := demoRegs [(3, 8), (4, 5)]; let d : Reg := 3; let a : Reg := 4; decide (NoPort s [d, a] none) && decide (s.cur.slot ≠ 15) && decide ((s.src d).toNat = 0x08)) = true) ∧
    ((let s : State := sup [(4, 0x18)]; let d : Reg := 3; let a : Reg := 4; decide (NoPort s [a] (some d)) && decide (s.cur.slot = 15) && decide ((s.src a).toNat = 0x18)) = true) ∧
    ((let s : State := sup [(4, 0x19)]; let d : Reg := 3; let a : Reg := 4; decide (NoPort s [a] (some d)) && decide (s.cur.slot = 15) && decide ((s.src a).toNat = 0x19)) = true) ∧
    ((let s : State := sup [(4, 0x1A)]; let d : Reg := 3; let a : Reg := 4; decide (NoPort s [a] (some d)) && decide (s.cur.slot = 15) && decide ((s.src a).toNat = 0x1A)) = true) ∧
    ((let s : State := sup [(3, 0x18), (4, 0x300000)]; let d : Reg := 3; let a : Reg := 4; decide (NoPort s [d, a] none) && decide (s.cur.slot = 15) && decide ((s.src d).toNat = 0x18) && decide (flag (s.src a) 0 = false)) = true) ∧
    ((let s : State := sup [(3, 0x1A), (4, 5)]; let d : Reg := 3; let a : Reg := 4; decide (NoPort s [d, a] none) && decide (s.cur.slot = 15) && decide ((s.src d).toNat = 0x1A)) = true) := by decide +kernel
theorem witness_ContextImagesComplete :
    (let s : State := imaging (w64 (5 + 3 * 2 ^ 32)) 0x490; let d : Reg := 3; let a : Reg := 4; decide (NoPort s [a] (some d)) && decide (s.cur.slot = 15) && decide (s.myCore.sb = []) && descThen s (s.src a) fun x => let index : Nat := fld x.mb0 32 12; decide (fld x.mb0 44 20 = 0) && decide (fld x.mb0 6 26 = 0) && decide (x.src.toNat % 16 = 0) && decide (fld x.src 61 3 = 0) && decide (s.ctxKeyDead s.myWorld = false) && let e : CtxEntry := heldEntry; let i : Nat := fld x.mb0 0 6; let wlen : Nat := fld x.size 32 18; let woff : Nat := fld x.size 0 18; decide (s.myCore.cache.find? (fun q => decide (q.1 = i)) = some (i, e)) && decide (fld x.size 50 14 = 0) && decide (fld x.size 18 14 = 0) && decide (wlen % 64 = 0) && decide (woff % 64 = 0) && decide (woff + wlen ≤ 0x30000) && let n : Nat := imageLen e.ctx.liveTiles.length e.rowsInAll e.accs.length e.planes.length wlen; decide (n ≤ x.dst.toNat) && decide (Sparse.get 0 (s.world s.myWorld).counters index ≠ 2 ^ 32 - 1) && decide (∀ y ∈ (s.world s.myWorld).savedChain, y.1 ≠ index) && noneReserved s && (allPass s s.who 1 .write [(x.src, n)])) = true := by decide +kernel
theorem witness_CapchkCompletes :
    ((let s : State := memRegs; let p : Num3 := 2; let a : Reg := 1; let k : BitVec 2 := 0; decide (NoPort s [a] none) && decide (s.cur.slot ≠ 14) && let w : Who := ⟨s.cur.core, s.cur.slot, s.myWorld, fld (s.slot s.cur.core (chainSlotOf s)).chain 0 16⟩; grantedThen s w (s.src a) (kindOf k) fun cap => true) = true) ∧
    ((let s : State := demoRegs [(1, w64 (2 ^ 57))]; let p : Num3 := 2; let a : Reg := 1; let k : BitVec 2 := 0; decide (NoPort s [a] none) && decide (s.cur.slot ≠ 14) && let w : Who := ⟨s.cur.core, s.cur.slot, s.myWorld, fld (s.slot s.cur.core (chainSlotOf s)).chain 0 16⟩; decide (s.capOf s.myWorld (s.src a) = none)) = true) := by decide +kernel
theorem witness_CopyChunkCompletes :
    (let s : State := flat (copying (copyOf 1 0x210000 .running)); let core : Nat := 0; let k : Nat := 0; someThen ((s.core core).copies[k]?) fun c => decide (c.st = .running) && decide ((s.world c.world).stopped = false) && decide (∀ x ∈ (s.core core).copies.take k, x.blocks c = false) && someThen (c.part c.row) fun q_ => let r := q_.1; let a := q_.2.1; let b := q_.2.2.1; let len := q_.2.2.2; let n : Nat := min 64 (len - c.byte); decide (c.bar = none) && noneReserved s && (allPass s (c.who core) 1 .read [(a + w64 c.byte, n)]) && (allPass s (c.who core) 1 .write [(b + w64 c.byte, n)])) = true := by decide +kernel
theorem witness_EngineCommandsComplete :
    ((let s : State := flat (withCmd memRegs gatherCmd); let k : Nat := 0; let c : EngCmd := gatherCmd; decide (CommandAt s k 3 1 c) && noneReserved s && (allPass s c.who 1 .read [(c.word 3 + w64 (4 * c.done), 4)]) && let idx : Nat := leToNat (seen s c.who s.byte (c.word 3 + w64 (4 * c.done)) 4); decide (idx < 2 ^ 31) && decide (idx < (c.word 5).toNat) && let len : Nat := (c.word 6).toNat; (allPass s c.who 1 .read [(c.word 4 + w64 (idx * (c.word 7).toNat), len)]) && (allPass s c.who 1 .write [(c.word 2 + w64 (c.done * len), len)])) = true) ∧
    ((let s : State := flat (withCmd seqRegs pagesCmd); let k : Nat := 0; let c : EngCmd := pagesCmd; decide (CommandAt s k 1 1 c) && decide (EngineFirst s k 1) && noneReserved s && let h : SeqHeader := ⟨c.word 1, 0, 0, (c.word 2).toNat, (c.word 3).toNat⟩; let ea : W64 := h.page (fld c.header 0 16 + c.done); okThen (locate c.who h.addr .read s) fun pl v => decide (v.insidePage pl.loc (fld c.header 0 16 + c.done) = false) && (allPass s c.who 1 .read [(ea, h.pageBytes)]) && let out : List Byte × Nat := mergePage h.type h.width (Fmt.fp32.decode (s.world c.world).tau.toNat) (seen s c.who s.byte ea h.pageBytes); (allPass s c.who 1 .write [(ea, out.1.length)])) = true) ∧
    (∀ q ∈ ([(.allreduce, 1), (.allgather, 2), (.reducescatter, 3)] : List ((Nat → Instr) × Nat)), (let s : State := flat (collState (collCmd q.2 false 0)); let k : Nat := 0; let c : EngCmd := collCmd q.2 false 0; decide (CommandAt s k 2 q.2 c) && decide (GroupFirst s k c) && decide (c.aux = 0) && decide (c.isRoot = false) && haveThen s c c.children fun rs => decide (framesMatch c rs (upLength c) = true) && (allPass s c.who 1 .read [(c.word 2, c.srcBytes)]) && decide ((s.port c.parent).sends s.meridian = true)) = true) ∧
    (∀ q ∈ ([(.allreduce, 1), (.allgather, 2), (.reducescatter, 3)] : List ((Nat → Instr) × Nat)), (let s : State := flat (collState (collCmd q.2 false 1)); let k : Nat := 0; let c : EngCmd := collCmd q.2 false 1; decide (CommandAt s k 2 q.2 c) && decide (GroupFirst s k c) && decide (c.aux ≠ 0) && haveThen s c [c.parent] fun rs => decide (framesMatch c rs (downLength c) = true) && decide (∀ p ∈ c.children, (s.port p).sends s.meridian = true) && noneReserved s && let out : List Byte := (if q.2 = 3 then ((rs.flatMap RxData.data).drop (c.rank * c.dstBytes)).take c.dstBytes else rs.flatMap RxData.data); (allPass s c.who 1 .write [(c.word 3, out.length)])) = true) ∧
    ((let s : State := flat (linked (withCmd memRegs (portCmd 4 8)) fun _ => []); let k : Nat := 0; let c : EngCmd := portCmd 4 8; let p : Nat := fld (c.word 1) 0 5; decide (CommandAt s k 2 4 c) && decide (PortFirst s k c) && decide ((s.port p).sends s.meridian = true) && (allPass s c.who 1 .read [(c.word 2, (c.word 3).toNat)])) = true) ∧
    ((let s : State := flat (linked (withCmd memRegs (portCmd 5 8)) fun _ => [⟨2, 9, (portCmd 4 8).frame 0 (List.replicate 8 1), 0⟩]); let k : Nat := 0; let c : EngCmd := portCmd 5 8; let p : Nat := fld (c.word 1) 0 5; decide (CommandAt s k 2 5 c) && decide (PortFirst s k c) && someThen ((s.port p).firstSend c.world c.group) fun r_ => let i := r_.1; let r := r_.2; decide (r.fail = 0) && decide (r.complete = true) && decide (r.data.length = (c.word 3).toNat) && noneReserved s && (allPass s c.who 1 .write [(c.word 2, r.data.length)])) = true) ∧
    ((let s : State := flat (linked (withCmd memRegs (portCmd 6 8)) fun _ => []); let k : Nat := 0; let c : EngCmd := portCmd 6 8; let p : Nat := fld (c.word 1) 0 5; decide (CommandAt s k 2 6 c) && decide ((s.port p).sends s.meridian = true) && (allPass s c.who 1 .read [(c.word 2, 64)])) = true) := by decide +kernel

end

end Sys2Proof.Tests
end

section
/-! The instruction word (chapter 05): how decoding goes word by word, the encodings of R79 and R225, and how a step fetches a refused word. -/

namespace Sys2Proof

open Claims (prefixes atomics anyOrder modWord)

/-! ## Decoding word by word (R80) -/

/-- The first of an instruction's prefixes is a word after which `Pfx.feed` asks for more. -/
theorem prefixes_cons {p q : Pfx} {n : Nat} {w : H16} {ws : List H16} (h : prefixes p n (w :: ws) = some q) :
    ∃ r, p.feed n w.toNat = .more r ∧ prefixes r (n + 1) ws = some q := by
  simp only [prefixes] at h
  cases hf : p.feed n w.toNat with
  | more r => exact ⟨r, rfl, by simpa [hf] using h⟩
  | done i => simp [hf] at h
  | illegal => simp [hf] at h

/-- A fifth word is never one of the prefixes (R70). -/
theorem Pfx.feed_more_lt {p q : Pfx} {n h : Nat} (hn : n ≤ 4) (hf : p.feed n h = .more q) : n < 4 := by
  refine Nat.lt_of_le_of_ne hn fun h4 => ?_
  subst h4
  unfold Pfx.feed at hf
  split at hf
  · simp at hf
  · split at hf <;> simp at hf

/-- At most four words stand before a base word (R70). -/
theorem prefixes_length_le {p q : Pfx} {n : Nat} {ws : List H16} (hn : n ≤ 4) (h : prefixes p n ws = some q) :
    n + ws.length ≤ 4 := by
  induction ws generalizing p n with
  | nil => exact hn
  | cons w ws ih =>
    obtain ⟨r, hf, hr⟩ := prefixes_cons h
    have hlt := Pfx.feed_more_lt hn hf
    have := ih hlt hr
    rw [List.length_cons]
    omega

/-- A word that is none of the prefixes and that no row of the map takes is refused (R80). -/
theorem Pfx.feed_illegal {p : Pfx} {n h : Nat} (hh : h / 4096 ≠ 15) (hd : decodeBase p h = none) : p.feed n h = .illegal := by
  simp [feed, hh, hd]

theorem decodeFrom_prefixWord {p : Pfx} {n : Nat} {w : H16} {ws : List H16} (hw : w.toNat / 4096 = 15) (hn : n ≠ 4) :
    decodeFrom p n (w :: ws) = (p.push w.toNat).bind fun q => decodeFrom q (n + 1) ws := by
  cases h : p.push w.toNat <;> simp [decodeFrom, Pfx.feed, hw, hn, h]

theorem decodeFrom_base {p : Pfx} {n : Nat} {w : H16} {ws : List H16} (hw : w.toNat / 4096 ≠ 15) :
    decodeFrom p n (w :: ws) = (decodeBase p w.toNat).map fun i => (i, n + 1) := by
  cases h : decodeBase p w.toNat <;> simp [decodeFrom, Pfx.feed, hw, h]

/-! ## LIH (R79) -/

theorem formLIH_eq_none {c : Reg → W32 → Instr} {p : Pfx} {h : Nat} (hbig : 2 ^ 32 ≤ combined p.imx 8 (h % 256)) :
    formLIH c p h = none := by
  have hok : decide (combined p.imx 8 (h % 256) < 2 ^ 32) = false := decide_eq_false (Nat.not_lt.mpr hbig)
  rw [formLIH, hok, Bool.and_false]
  rfl

/-- LIH with a 1 above bit 31 of its combined field is refused, whatever the other prefixes say (R79). -/
theorem Pfx.feed_lih_illegal {p : Pfx} {n h : Nat} (hp : p.page = 0) (hmaj : h / 4096 = 4)
    (hbig : 2 ^ 32 ≤ combined p.imx 8 (h % 256)) : p.feed n h = .illegal := by
  have hbase : decodeBase p h = formLIH .lih p h := by simp [decodeBase, hp, decodePage0, hmaj]
  exact feed_illegal (by omega) (hbase.trans (formLIH_eq_none hbig))

/-! ## The PAGE, MOD and REX words of an atomic (R72 to R74) -/

/-- What is known after the words PAGE 4 and MOD `m`. -/
def Pfx.page4Mod (m : Mod) : Pfx := { Pfx.init with page := 4, pageSeen := true, modSeen := true, mod := m }

theorem toNat_modWord (m : Mod) :
    (modWord m).toNat = 0xFC00 + m.scope.toNat * 128 + m.order.toNat * 32 + m.spec.toNat := by
  rw [modWord, BitVec.toNat_ofNat]
  omega

/-- A MOD word with scope 6 or 7 is refused; every other says its three fields (R74). -/
theorem Pfx.push_modWord {p : Pfx} (hp : p.modSeen = false) (m : Mod) :
    p.push (modWord m).toNat = if m.scope.toNat ≤ 5 then some { p with modSeen := true, mod := m } else none := by
  have hw := toNat_modWord m
  have hkind : (modWord m).toNat / 1024 % 4 = 3 := by omega
  have hscope : (modWord m).toNat / 128 % 8 = m.scope.toNat := by omega
  have horder : (modWord m).toNat / 32 % 4 = m.order.toNat := by omega
  have hspec : (modWord m).toNat % 32 = m.spec.toNat := by omega
  by_cases h5 : m.scope.toNat ≤ 5 <;> simp [push, hkind, hscope, horder, hspec, hp, h5]

/-- A REX word with bit x and no high bits names the third register (R72). -/
theorem Pfx.push_rexX {p : Pfx} (hp : p.rexSeen = false) (b : Reg) :
    p.push (0xF600 + b.toNat * 16) = some { p with rexSeen := true, x := some b, dh := false, ah := false, bh := false } := by
  have hb := b.isLt
  have hkind : (0xF600 + b.toNat * 16) / 1024 % 4 = 1 := by omega
  have hreg : (0xF600 + b.toNat * 16) / 16 % 32 = b.toNat := by omega
  have hx : bitAt (0xF600 + b.toNat * 16) 9 = true := decide_eq_true (by omega)
  have hdh : bitAt (0xF600 + b.toNat * 16) 3 = false := decide_eq_false (by omega)
  have hah : bitAt (0xF600 + b.toNat * 16) 2 = false := decide_eq_false (by omega)
  have hbh : bitAt (0xF600 + b.toNat * 16) 1 = false := decide_eq_false (by omega)
  have hz : bitAt (0xF600 + b.toNat * 16) 0 = false := decide_eq_false (by omega)
  simp [push, hkind, hreg, hx, hdh, hah, hbh, hz, hp]

/-- Behind PAGE 4 and a MOD word the decoder goes on, or has refused the MOD word. -/
theorem decode_page4Mod (m : Mod) (ws : List H16) :
    decode (0xF810 :: modWord m :: ws) = if m.scope.toNat ≤ 5 then decodeFrom (Pfx.page4Mod m) 2 ws else none := by
  have hpage : Pfx.init.push (0xF810 : H16).toNat = some { Pfx.init with page := 4, pageSeen := true } := by decide
  have hw := toNat_modWord m
  rw [decode, decodeFrom_prefixWord (by decide) (by decide), hpage, Option.bind_some,
    decodeFrom_prefixWord (by omega) (by decide), Pfx.push_modWord rfl]
  by_cases h5 : m.scope.toNat ≤ 5
  · rw [if_pos h5, if_pos h5]
    rfl
  · rw [if_neg h5, if_neg h5]
    rfl

/-! ## The MOD that atomics and reservations take (R225) -/

/-- R225's MOD values are those of the decoder's atomics. -/
theorem anyOrder_eq_okAtomic (m : Mod) : anyOrder m = m.okAtomic := by
  simp [anyOrder, Mod.okAtomic, Mod.okScope, ← BitVec.toNat_inj]

theorem Mod.scope_le_of_okAtomic {m : Mod} (h : m.okAtomic = true) : m.scope.toNat ≤ 5 := by
  simp only [okAtomic, okScope, Bool.and_eq_true, decide_eq_true_eq] at h
  exact h.1.1

/-- An encoding that behind its PAGE and MOD words is accepted on the atomics' condition takes exactly R225's MODs. -/
theorem decode_page4Mod_of_okAtomic {m : Mod} {ws : List H16} {i : Instr} {n : Nat}
    (h : decodeFrom (Pfx.page4Mod m) 2 ws = (accept m.okAtomic i).map fun i => (i, n)) :
    decode (0xF810 :: modWord m :: ws) = if anyOrder m then some (i, n) else none := by
  rw [decode_page4Mod, h, anyOrder_eq_okAtomic]
  by_cases hm : m.okAtomic = true
  · simp [hm, accept, Mod.scope_le_of_okAtomic hm]
  · simp [hm, accept]

/-! ## The base words of the atomics -/

/-- The base word of `base` with the registers `d` and `a`, below 16, in its fields (R75). -/
def atomicWord (base : Nat) (d a : BitVec 4) : H16 := BitVec.ofNat 16 (base + d.toNat * 256 + a.toNat * 16)

/-- A base word, and none of the prefixes (R70), whose fields d and a are 0 (R75). -/
structure FreeFields (base : Nat) : Prop where
  zero : base % 4096 < 16
  noPrefix : base < 0xF000

/-- A register field without its high bit (R72). -/
theorem hiReg_false {a : BitVec 4} {v : Nat} (h : v % 16 = a.toNat) : hiReg false v = a.setWidth 5 := by
  simp [hiReg, h, BitVec.ofNat_toNat]

section
variable {base : Nat} {d a : BitVec 4} {p : Pfx} (hb : FreeFields base)
include hb

theorem toNat_atomicWord : (atomicWord base d a).toNat = base + d.toNat * 256 + a.toNat * 16 := by
  obtain ⟨hlow, hlt⟩ := hb
  rw [atomicWord, BitVec.toNat_ofNat]
  omega

theorem atomicWord_major : (atomicWord base d a).toNat / 4096 = base / 4096 := by
  have hw := toNat_atomicWord (d := d) (a := a) hb
  obtain ⟨hlow, hlt⟩ := hb
  omega

theorem atomicWord_function : (atomicWord base d a).toNat % 16 = base % 16 := by
  have hw := toNat_atomicWord (d := d) (a := a) hb
  omega

theorem rD_atomicWord (hp : p.dh = false) : p.rD (atomicWord base d a).toNat = d.setWidth 5 := by
  have hw := toNat_atomicWord (d := d) (a := a) hb
  obtain ⟨hlow, hlt⟩ := hb
  rw [Pfx.rD, hp]
  exact hiReg_false (by omega)

theorem rA_atomicWord (hp : p.ah = false) : p.rA (atomicWord base d a).toNat 4 = a.setWidth 5 := by
  have hw := toNat_atomicWord (d := d) (a := a) hb
  obtain ⟨hlow, hlt⟩ := hb
  rw [Pfx.rA, hp]
  exact hiReg_false (by omega)

/-- A base word of page 4 behind its prefixes is judged by page 4 of the map. -/
theorem decodeFrom_atomicWord (hp : p.page = 4) {n : Nat} :
    decodeFrom p n [atomicWord base d a] = (decodePage4 p (atomicWord base d a).toNat).map fun i => (i, n + 1) := by
  have hmaj := atomicWord_major (d := d) (a := a) hb
  have hlt := hb.noPrefix
  rw [decodeFrom_base (by omega)]
  simp [decodeBase, hp]

end

/-! ## Atomics, RLSN and ACAS -/

theorem freeFields_of_mem_atomics : ∀ q ∈ atomics, FreeFields q.2 := by
  have hall : ∀ q ∈ atomics, q.2 % 4096 < 16 ∧ q.2 < 0xF000 := by decide
  exact fun q hq => ⟨(hall q hq).1, (hall q hq).2⟩

/-- The map's rows of the atomics and reservations with two registers (R77). -/
theorem decodePage4_atomic {q : (Reg → Reg → Mod → Instr) × Nat} (hq : q ∈ atomics) {p : Pfx} {h : Nat}
    (hmaj : h / 4096 = q.2 / 4096) (hfn : h % 16 = q.2 % 16) : decodePage4 p h = formATM q.1 p h := by
  simp only [atomics, List.mem_cons, List.not_mem_nil, or_false] at hq
  rcases hq with rfl | rfl | rfl | rfl | rfl | rfl | rfl | rfl | rfl | rfl | rfl | rfl | rfl <;>
    simp [decodePage4, hmaj, hfn]

/-- An atomic or a reservation takes R225's MODs and no other. -/
theorem decode_atomic {q : (Reg → Reg → Mod → Instr) × Nat} (hq : q ∈ atomics) (d a : BitVec 4) (m : Mod) :
    decode [0xF810, modWord m, atomicWord q.2 d a] =
      if anyOrder m then some (q.1 (d.setWidth 5) (a.setWidth 5) m, 3) else none := by
  have hb := freeFields_of_mem_atomics q hq
  refine decode_page4Mod_of_okAtomic ?_
  rw [decodeFrom_atomicWord hb rfl, decodePage4_atomic hq (atomicWord_major hb) (atomicWord_function hb), formATM,
    rD_atomicWord hb rfl, rA_atomicWord hb rfl]
  rfl

/-- RLSN takes R225's MODs and no other. -/
theorem decode_rlsn (a : BitVec 4) (m : Mod) :
    decode [0xF810, modWord m, atomicWord 0x1002 0 a] = if anyOrder m then some (.rlsn (a.setWidth 5) m, 3) else none := by
  have hb : FreeFields 0x1002 := ⟨by decide, by decide⟩
  have hw : (atomicWord 0x1002 0 a).toNat = 0x1002 + 0 * 256 + a.toNat * 16 := toNat_atomicWord hb
  have hrow {p : Pfx} : decodePage4 p (atomicWord 0x1002 0 a).toNat = formRLSN .rlsn p (atomicWord 0x1002 0 a).toNat := by
    simp [decodePage4, atomicWord_major hb, atomicWord_function hb]
  have hd : (atomicWord 0x1002 0 a).toNat / 256 % 16 = 0 := by omega
  refine decode_page4Mod_of_okAtomic ?_
  rw [decodeFrom_atomicWord hb rfl, hrow, formRLSN, rA_atomicWord hb rfl, hd]
  simp [Pfx.allows, Pfx.page4Mod, Pfx.init]

/-- ACAS with its third register takes R225's MODs and no other. -/
theorem decode_acas (d a : BitVec 4) (b : Reg) (m : Mod) :
    decode [0xF810, modWord m, BitVec.ofNat 16 (0xF600 + b.toNat * 16), atomicWord 9 d a] =
      if anyOrder m then some (.acas (d.setWidth 5) (a.setWidth 5) b m, 4) else none := by
  have hb : FreeFields 9 := ⟨by decide, by decide⟩
  have hx : (BitVec.ofNat 16 (0xF600 + b.toNat * 16)).toNat = 0xF600 + b.toNat * 16 := by
    rw [BitVec.toNat_ofNat]
    omega
  have hrow {p : Pfx} : decodePage4 p (atomicWord 9 d a).toNat = formACAS .acas p (atomicWord 9 d a).toNat := by
    simp [decodePage4, atomicWord_major hb, atomicWord_function hb]
  refine decode_page4Mod_of_okAtomic ?_
  rw [decodeFrom_prefixWord (by omega) (by decide), hx, Pfx.push_rexX rfl, Option.bind_some, decodeFrom_atomicWord hb rfl, hrow,
    formACAS, rD_atomicWord hb rfl, rA_atomicWord hb rfl]
  rfl

end Sys2Proof

namespace Sys2Proof.Machine

open Sys2Proof.Claims (fetching prefixes)

/-! ## Fetching goes as decoding does (R80) -/

/-- A word that decoding refuses ends the fetch in ILLEGAL_ENCODING at it. -/
theorem fetchFrom_illegal {pc : W64} {n f : Nat} {w : H16} {p : Pfx} {s t : State}
    (h : fetch16 (pc + w64 (2 * n)) s = .ok w.toNat t) (hw : p.feed n w.toNat = .illegal) :
    fetchFrom (f + 1) p n pc s = .ok (.illegalEncoding (pc + w64 (2 * n)), 2 * n + 2) t := by
  simp [fetchFrom, h, hw]

/-- Past one of the prefixes the fetch goes on with what the word said. -/
theorem fetchFrom_more {pc : W64} {n f : Nat} {w : H16} {p q : Pfx} {s t : State}
    (h : fetch16 (pc + w64 (2 * n)) s = .ok w.toNat t) (hw : p.feed n w.toNat = .more q) :
    fetchFrom (f + 1) p n pc s = fetchFrom f q (n + 1) pc t := by
  rw [fetchFrom]
  simp [h, hw]

/-- The words fetched up to the last, and the last. -/
theorem fetched_concat {pc : W64} {n : Nat} {ws : List H16} {w : H16} {s t : State}
    (h : Claims.Fetched pc n (ws ++ [w]) s t) :
    ∃ u, Claims.Fetched pc n ws s u ∧ fetch16 (pc + w64 (2 * (n + ws.length))) u = .ok w.toNat t := by
  induction ws generalizing n s with
  | nil =>
    cases h with
    | cons hw hnil =>
      cases hnil
      exact ⟨s, .nil n s, hw⟩
  | cons v vs ih =>
    cases h with
    | cons hv hrest =>
      obtain ⟨u, hvs, hw⟩ := ih hrest
      refine ⟨u, .cons hv hvs, ?_⟩
      rwa [List.length_cons, Nat.add_comm vs.length 1, ← Nat.add_assoc]

/-- Past the prefixes, fetching goes on with what they said. -/
theorem fetchFrom_of_prefixes {pc : W64} {n f : Nat} {ws : List H16} {p q : Pfx} {s u : State}
    (h : Claims.Fetched pc n ws s u) (hp : prefixes p n ws = some q) :
    fetchFrom (ws.length + f) p n pc s = fetchFrom f q (n + ws.length) pc u := by
  induction ws generalizing p n s with
  | nil =>
    cases h
    cases hp
    simp
  | cons w ws ih =>
    obtain ⟨r, hf, hr⟩ := prefixes_cons hp
    cases h with
    | cons hw hrest =>
      rw [List.length_cons, Nat.add_right_comm, fetchFrom_more hw hf, ih hrest hr, Nat.add_assoc, Nat.add_comm 1]

/-- Where the words read end in one that decodes to nothing, the fetch answers ILLEGAL_ENCODING at that word (R80). -/
theorem fetchInstr_illegal {s t : State} {ws : List H16} {w : H16} {p : Pfx} (hp : prefixes Pfx.init 0 ws = some p)
    (hw : p.feed ws.length w.toNat = .illegal) (h : Claims.Fetched s.me.pc 0 (ws ++ [w]) s t) :
    fetchInstr s = .ok (.illegalEncoding (s.me.pc + w64 (2 * ws.length)), 2 * ws.length + 2) t := by
  obtain ⟨u, hpre, hlast⟩ := fetched_concat h
  rw [Nat.zero_add] at hlast
  obtain ⟨f, hf⟩ : ∃ f, 5 = ws.length + (f + 1) :=
    ⟨4 - ws.length, by have := prefixes_length_le (Nat.zero_le 4) hp; omega⟩
  rw [fetchInstr, M.bind_apply, getMe_apply, hf]
  simp only [fetchFrom_of_prefixes hpre hp, Nat.zero_add]
  exact fetchFrom_illegal hlast hw

/-- ILLEGAL_ENCODING issues and traps ILLEGAL with the word's address (R80, R273). -/
theorem exec_illegalEncoding (v : W64) (s : State) :
    exec (.illegalEncoding v) s = .next (takeTrap ⟨Cause.illegal, v, 0, 0xFFFF⟩ s.issue) := rfl

/-- A step in which a slot's thread issues is that thread's turn, one cycle on. -/
theorem step_issue {s : State} {rest : List Act} {c n : Nat} {rows : Option Nat} (hpow : s.power = true)
    (hs : s.schedule = .issue c n rows :: rest) :
    step s = issueStep c n rows { s.elapse 1 with schedule := rest } := by
  simp [step, hs, hpow, actStep, Act.cycles]

/-- A step whose fetched words end in one that decodes to nothing runs ILLEGAL_ENCODING at that word (R80). -/
theorem step_refused {s t : State} {rest : List Act} {c n : Nat} {rows : Option Nat} {ws : List H16} {w : H16} {p : Pfx}
    (hpow : s.power = true) (hs : s.schedule = .issue c n rows :: rest)
    (hmay : (fetching s rest c n rows).mayIssue c n = true) (hu : (fetching s rest c n rows).me.underway = none)
    (hp : prefixes Pfx.init 0 ws = some p) (hw : p.feed ws.length w.toNat = .illegal)
    (hf : Claims.Fetched (fetching s rest c n rows).me.pc 0 (ws ++ [w]) (fetching s rest c n rows) t) :
    step s = exec (.illegalEncoding ((fetching s rest c n rows).me.pc + w64 (2 * ws.length)))
      { t.issuing c n (.illegalEncoding ((fetching s rest c n rows).me.pc + w64 (2 * ws.length))) (2 * ws.length + 2) with
        cur := ⟨c, n, 2 * ws.length + 2, rows⟩ } := by
  rw [step_issue hpow hs]
  exact issueStep_fetched hmay hu (fetchInstr_illegal hp hw hf)

/-- Settles O54: a LIH out of range is refused at its base word, and the words of each atomic decode on R225's condition. -/
theorem refusedEncodings : Obligations.RefusedEncodings := by
  refine ⟨?_, fun q hq d a m => decode_atomic hq d a m, fun d a b m => ⟨?_, decode_acas d a b m⟩⟩
  · intro s t rest c n rows ws w p hpow hs hmay hu hp hf hpage hmaj hbig
    rw [step_refused hpow hs hmay hu hp (Pfx.feed_lih_illegal hpage hmaj hbig) hf, exec_illegalEncoding]
  · have hword : atomicWord 0x1002 0 a = BitVec.ofNat 16 (0x1002 + a.toNat * 16) := rfl
    exact hword ▸ decode_rlsn a m

end Sys2Proof.Machine
end

section
/-! Taking a trap (chapter 20): what `takeTrap` does to the slot, the core and the rest, the stop of a world by a second trap, and KRD and KWR
of the supervisor. -/

namespace Sys2Proof

/-! ## Sparse maps changed entry by entry -/

/-- The value at a key after a change of every entry: the changed value, unless the key is not listed. -/
theorem Sparse.get_map_cases {α : Type} {d : α} {g : Nat × α → Nat × α} (hg : ∀ e, (g e).1 = e.1) (m : Sparse α) (k : Nat) :
    get d (m.map g) k = (g (k, get d m k)).2 ∨ (get d m k = d ∧ get d (m.map g) k = d) := by
  induction m with
  | nil => exact .inr ⟨rfl, rfl⟩
  | cons e m ih =>
    obtain ⟨j, v⟩ := e
    have hj : (g (j, v)).1 = j := hg (j, v)
    by_cases h : j = k
    · subst h
      exact .inl (by simp [get, hj])
    · simpa [get, hj, h] using ih

end Sys2Proof

namespace Sys2Proof.Machine

open Sys2Proof.Claims (slotRegisters)

/-! ## An instruction's locks end (R191, R195) -/

section
variable (s : State) (c n : Nat)

@[simp] theorem State.endInstr_cur : (s.endInstr c n).cur = s.cur := rfl
@[simp] theorem State.endInstr_mem : (s.endInstr c n).mem = s.mem := rfl

theorem State.endInstr_core_of_ne {d : Nat} (h : d ≠ c) : (s.endInstr c n).core d = s.core d :=
  State.modCore_core_of_ne _ _ (Ne.symm h)

/-- In the core itself nothing has changed but the accumulators' locks and the use of the projection buffer. -/
theorem State.endInstr_core (d : Nat) : (s.endInstr c n).core d =
    { s.core d with accs := ((s.endInstr c n).core d).accs, projUse := ((s.endInstr c n).core d).projUse } := by
  by_cases h : d = c
  · subst h
    simp [State.endInstr]
  · rw [State.endInstr_core_of_ne s c n h]

@[simp] theorem State.endInstr_slot (d m : Nat) : (s.endInstr c n).slot d m = s.slot d m := by
  rw [State.slot, State.endInstr_core]
  rfl

@[simp] theorem State.endInstr_me : (s.endInstr c n).me = s.me := State.endInstr_slot s c n _ _

@[simp] theorem State.endInstr_vbase : (s.endInstr c n).myCore.vbase = s.myCore.vbase := by
  rw [State.myCore, State.endInstr_core]
  rfl

@[simp] theorem State.endInstr_trapq : (s.endInstr c n).myCore.trapq = s.myCore.trapq := by
  rw [State.myCore, State.endInstr_core]
  rfl

@[simp] theorem State.endInstr_myWorld : (s.endInstr c n).myWorld = s.myWorld := by
  rw [State.myWorld, State.myCore, State.endInstr_core]
  rfl

end

/-! ## Updates of the acting slot and core -/

theorem State.setMe_core_of_ne (s : State) (v : Slot) {c : Nat} (h : c ≠ s.cur.core) : (s.setMe v).core c = s.core c :=
  State.setCore_core_of_ne _ _ (Ne.symm h)

theorem State.modMyCore_core_of_ne (s : State) (f : Core → Core) {c : Nat} (h : c ≠ s.cur.core) :
    (s.modMyCore f).core c = s.core c :=
  State.modCore_core_of_ne _ _ (Ne.symm h)

@[simp] theorem State.setMe_myCore (s : State) (v : Slot) : (s.setMe v).myCore = s.myCore.setSlot s.cur.slot v :=
  State.setCore_core ..

theorem State.setMe_slot_of_ne (s : State) (v : Slot) {c n : Nat} (h : ¬(c = s.cur.core ∧ n = s.cur.slot)) :
    (s.setMe v).slot c n = s.slot c n := by
  by_cases hc : c = s.cur.core
  · subst hc
    have hn : n ≠ s.cur.slot := fun hn => h ⟨rfl, hn⟩
    calc (s.setMe v).slot s.cur.core n
        = (s.myCore.setSlot s.cur.slot v).slot n := congrArg (Core.slot · n) (State.setMe_myCore s v)
      _ = s.slot s.cur.core n := Core.setSlot_slot_of_ne _ _ (Ne.symm hn)
  · rw [State.slot, State.setMe_core_of_ne s v hc, State.slot]

@[simp] theorem State.setMe_myWorld (s : State) (v : Slot) : (s.setMe v).myWorld = s.myWorld := by
  simp [State.myWorld, Core.setSlot]

/-! ## A record to the supervisor (R97, R274) -/

section
variable (k : Core) (cause : Byte) (n aux : Nat)

theorem Core.queueRecord_slot_of_ne {m : Nat} (h : m ≠ 15) : (k.queueRecord cause n aux).slot m = k.slot m := by
  rw [Core.queueRecord]
  split
  · rfl
  · exact Core.modSlot_slot_of_ne _ _ (Ne.symm h)

/-- The supervisor slot is as before, or its STOP has ended. -/
theorem Core.queueRecord_slot_supervisor :
    (k.queueRecord cause n aux).slot 15 = k.slot 15 ∨ (k.queueRecord cause n aux).slot 15 = (k.slot 15).wake := by
  rw [Core.queueRecord]
  split
  · exact .inl rfl
  · exact .inr (Core.modSlot_slot ..)

/-- Whether it is made now or was queued before, a record of the cause and the slot is in the queue. -/
theorem Core.exists_mem_queueRecord_trapq :
    ∃ r ∈ (k.queueRecord cause n 0).trapq, fld r 44 12 = fld (recordWord cause n 0) 44 12 := by
  rw [Core.queueRecord]
  split
  · next h =>
    obtain ⟨r, hr, heq⟩ := List.any_eq_true.mp h
    exact ⟨r, hr, of_decide_eq_true heq⟩
  · exact ⟨recordWord cause n 0, by simp, rfl⟩

end

/-! ## Taking a trap (R273, R275) -/

/-- A slot with a trap in its registers, and nothing left of the instruction. -/
def TrapInfo.recordIn (x : TrapInfo) (sl : Slot) : Slot :=
  { sl with
    cause := x.cause.setWidth 64, epc := sl.pc, tval := x.tval, tcoord := x.tcoord, tfmt := x.tfmt
    waiting := .none, reissue := false, limit := none, popped := none, spawning := none }

/-- The state in which the acting thread's instruction has ended and its slot is as given. -/
def State.endedWith (s : State) (v : Slot) : State := (s.endInstr s.cur.core s.cur.slot).setMe v

section
variable (s : State) (v : Slot)

@[simp] theorem State.endedWith_cur : (s.endedWith v).cur = s.cur := rfl
@[simp] theorem State.endedWith_mem : (s.endedWith v).mem = s.mem := rfl
@[simp] theorem State.endedWith_me : (s.endedWith v).me = v := State.setMe_me ..
@[simp] theorem State.endedWith_trapq : (s.endedWith v).myCore.trapq = s.myCore.trapq := by simp [State.endedWith, Core.setSlot]
@[simp] theorem State.endedWith_myWorld : (s.endedWith v).myWorld = s.myWorld := by simp [State.endedWith]

theorem State.endedWith_core_of_ne {c : Nat} (h : c ≠ s.cur.core) : (s.endedWith v).core c = s.core c :=
  (State.setMe_core_of_ne (s.endInstr s.cur.core s.cur.slot) v h).trans (State.endInstr_core_of_ne _ _ _ h)

theorem State.endedWith_slot_of_ne {c n : Nat} (h : ¬(c = s.cur.core ∧ n = s.cur.slot)) : (s.endedWith v).slot c n = s.slot c n :=
  (State.setMe_slot_of_ne (s.endInstr s.cur.core s.cur.slot) v h).trans (State.endInstr_slot ..)

end

section
variable (x : TrapInfo) {s : State}

/-- A trap of a work or copy slot. -/
theorem takeTrap_of_ne (h : s.cur.slot ≠ 15) : takeTrap x s =
    (s.endedWith { x.recordIn s.me with st := .trapped }).modMyCore (·.queueRecord x.cause s.cur.slot 0) := by
  simp [takeTrap, h, State.endedWith, TrapInfo.recordIn]

/-- A trap of the supervisor slot outside its handler. -/
theorem takeTrap_of_supervisor (h : s.cur.slot = 15) (hn : s.me.nest = false) : takeTrap x s =
    s.endedWith { x.recordIn s.me with st := .run, nest := true, pc := s.myCore.vbase } := by
  simp [takeTrap, h, hn, State.endedWith, TrapInfo.recordIn]

/-- A second trap of the supervisor slot. -/
theorem takeTrap_of_nested (h : s.cur.slot = 15) (hn : s.me.nest = true) : takeTrap x s =
    (s.endedWith { x.recordIn s.me with st := .frozen }).stopWorld s.myWorld Cause.tdiStop (some (s.cur.core, 15)) := by
  simp [takeTrap, h, hn, State.endedWith, TrapInfo.recordIn]

/-- The slot of a program that traps: its record, and TRAPPED. -/
theorem takeTrap_me_of_ne (h : s.cur.slot ≠ 15) : (takeTrap x s).me = { x.recordIn s.me with st := .trapped } := by
  rw [takeTrap_of_ne x h, State.modMyCore_me, State.endedWith_cur, Core.queueRecord_slot_of_ne _ _ _ _ h]
  exact State.endedWith_me ..

/-- The supervisor slot after a trap outside its handler: its record, and on at k.vbase with nest set. -/
theorem takeTrap_me_of_supervisor (h : s.cur.slot = 15) (hn : s.me.nest = false) :
    (takeTrap x s).me = { x.recordIn s.me with st := .run, nest := true, pc := s.myCore.vbase } := by
  rw [takeTrap_of_supervisor x h hn, State.endedWith_me]

/-- The supervisor's own trap queues no record. -/
theorem takeTrap_trapq_of_supervisor (h : s.cur.slot = 15) (hn : s.me.nest = false) :
    (takeTrap x s).myCore.trapq = s.myCore.trapq := by
  rw [takeTrap_of_supervisor x h hn, State.endedWith_trapq]

/-- The acting slot after a first trap: what it records, and what of the program it leaves. -/
theorem takeTrap_me_eq (h : s.cur.slot ≠ 15 ∨ s.me.nest = false) :
    ∃ st nest pc, (takeTrap x s).me = { x.recordIn s.me with st := st, nest := nest, pc := pc } := by
  by_cases h15 : s.cur.slot = 15
  · exact ⟨_, _, _, takeTrap_me_of_supervisor x h15 (h.resolve_left (not_not_intro h15))⟩
  · exact ⟨_, _, _, takeTrap_me_of_ne x h15⟩

theorem takeTrap_core_of_ne (h : s.cur.slot ≠ 15 ∨ s.me.nest = false) {c : Nat} (hc : c ≠ s.cur.core) :
    (takeTrap x s).core c = s.core c := by
  by_cases h15 : s.cur.slot = 15
  · rw [takeTrap_of_supervisor x h15 (h.resolve_left (not_not_intro h15)), State.endedWith_core_of_ne _ _ hc]
  · rw [takeTrap_of_ne x h15]
    exact (State.modMyCore_core_of_ne (s.endedWith _) _ hc).trans (State.endedWith_core_of_ne _ _ hc)

theorem takeTrap_mem (h : s.cur.slot ≠ 15 ∨ s.me.nest = false) : (takeTrap x s).mem = s.mem := by
  by_cases h15 : s.cur.slot = 15
  · rw [takeTrap_of_supervisor x h15 (h.resolve_left (not_not_intro h15)), State.endedWith_mem]
  · rw [takeTrap_of_ne x h15, State.modMyCore_mem, State.endedWith_mem]

/-- What a program's trap does to the slots of its core: the acting one aside, that of the record. -/
theorem takeTrap_slot_eq (h : s.cur.slot ≠ 15) (n : Nat) : (takeTrap x s).slot s.cur.core n =
    ((s.endedWith { x.recordIn s.me with st := .trapped }).myCore.queueRecord x.cause s.cur.slot 0).slot n := by
  rw [takeTrap_of_ne x h]
  exact congrArg (Core.slot · n) (State.modMyCore_myCore ..)

/-- Every slot but the acting one and the supervisor slot of its core is as before. -/
theorem takeTrap_slot_of_ne (h : s.cur.slot ≠ 15 ∨ s.me.nest = false) {c n : Nat}
    (hcn : ¬(c = s.cur.core ∧ (n = s.cur.slot ∨ n = 15))) : (takeTrap x s).slot c n = s.slot c n := by
  have hme : ¬(c = s.cur.core ∧ n = s.cur.slot) := fun ⟨hc, hn⟩ => hcn ⟨hc, .inl hn⟩
  by_cases hc : c = s.cur.core
  · subst hc
    have hsup : n ≠ 15 := fun hn => hcn ⟨rfl, .inr hn⟩
    by_cases h15 : s.cur.slot = 15
    · rw [takeTrap_of_supervisor x h15 (h.resolve_left (not_not_intro h15)), State.endedWith_slot_of_ne _ _ hme]
    · rw [takeTrap_slot_eq x h15, Core.queueRecord_slot_of_ne _ _ _ _ hsup]
      exact State.endedWith_slot_of_ne _ _ hme
  · rw [State.slot, takeTrap_core_of_ne x h hc, State.slot]

/-- A program's trap leaves the supervisor slot as it is, or ends its STOP. -/
theorem takeTrap_slot_supervisor (h : s.cur.slot ≠ 15) :
    (takeTrap x s).slot s.cur.core 15 = s.slot s.cur.core 15 ∨
      (takeTrap x s).slot s.cur.core 15 = (s.slot s.cur.core 15).wake := by
  have hme : ¬(s.cur.core = s.cur.core ∧ 15 = s.cur.slot) := fun ⟨_, hn⟩ => h hn.symm
  have hsup := State.endedWith_slot_of_ne s { x.recordIn s.me with st := .trapped } hme
  rw [takeTrap_slot_eq x h, ← hsup]
  exact Core.queueRecord_slot_supervisor ..

/-- After a program's trap a record of its cause and slot waits for the supervisor. -/
theorem exists_mem_takeTrap_trapq (h : s.cur.slot ≠ 15) :
    ∃ r ∈ (takeTrap x s).myCore.trapq, fld r 44 12 = fld (recordWord x.cause s.cur.slot 0) 44 12 := by
  rw [takeTrap_of_ne x h, State.modMyCore_myCore]
  exact Core.exists_mem_queueRecord_trapq ..

end

/-! ## The stop of a world (R285) -/

/-- The slot of a core in the stop of its world: frozen, with the cause of the stop or, where it keeps its record, as it is. -/
def Slot.stopped (sl : Slot) (cause : Byte) (kept : Prop) [Decidable kept] : Slot :=
  if kept then { sl with st := .frozen } else sl.freeze cause

theorem Slot.freeze_st (sl : Slot) (cause : Byte) : (sl.freeze cause).st = .free ∨ (sl.freeze cause).st = .frozen := by
  rw [Slot.freeze]
  split
  · next h => exact .inl h
  · exact .inr rfl

theorem Slot.stopped_st (sl : Slot) (cause : Byte) (kept : Prop) [Decidable kept] :
    (sl.stopped cause kept).st = .free ∨ (sl.stopped cause kept).st = .frozen := by
  rw [Slot.stopped]
  split
  · exact .inr rfl
  · exact Slot.freeze_st ..

/-- A core of the world when it stops: its slots, and what it had in flight withdrawn. -/
def Core.stoppedIn (k : Core) (cause : Byte) (keep : Option (Nat × Nat)) (c : Nat) : Core :=
  { k with
    slots := k.slots.map fun q => (q.1, q.2.stopped cause (keep = some (c, q.1)))
    sb := k.sb.filter fun b => !(b.bytes.any fun x => isHost x.1)
    claims := [], leaving := [] }

/-- A core of the device when a world stops. -/
def Core.stopped (k : Core) (w : Nat) (cause : Byte) (keep : Option (Nat × Nat)) (c : Nat) : Core :=
  if k.world = w then k.stoppedIn cause keep c else k

theorem State.refreshBindings_world (s : State) (w : Nat) : s.refreshBindings.world w = s.world w := rfl
theorem State.modFn_world (s : State) (n : Nat) (f : Func → Func) (w : Nat) : (s.modFn n f).world w = s.world w := rfl

section
variable (s : State) (w : Nat) (cause : Byte) (keep : Option (Nat × Nat))

@[simp] theorem State.stopWorld_cur : (s.stopWorld w cause keep).cur = s.cur := by
  unfold State.stopWorld
  dsimp only
  split <;> rfl

@[simp] theorem State.stopWorld_mem : (s.stopWorld w cause keep).mem = s.mem := by
  unfold State.stopWorld
  dsimp only
  split <;> rfl

theorem State.stopWorld_stopped : ((s.stopWorld w cause keep).world w).stopped = true := by
  unfold State.stopWorld
  dsimp only
  split <;> simp [State.refreshBindings_world, State.modFn_world]

/-- The cores: in each of the world its slots are stopped, and what it had in flight is withdrawn. -/
theorem State.stopWorld_cores : (s.stopWorld w cause keep).cores = s.cores.map fun e => (e.1, e.2.stopped w cause keep e.1) := by
  have he (e : Nat × Core) : (if e.2.world = w then (e.1, e.2.stoppedIn cause keep e.1) else e) = (e.1, e.2.stopped w cause keep e.1) := by
    rw [Core.stopped]
    split <;> rfl
  rw [← funext he]
  unfold State.stopWorld
  dsimp only
  split <;> rfl

/-- The slots of a core of the world: each is stopped. -/
theorem State.stopWorld_slots {c : Nat} (h : (s.core c).world = w) : ((s.stopWorld w cause keep).core c).slots =
    (s.core c).slots.map fun q => (q.1, q.2.stopped cause (keep = some (c, q.1))) := by
  have hcases := Sparse.get_map_cases (d := Core.init) (g := fun e => (e.1, e.2.stopped w cause keep e.1)) (fun _ => rfl) s.cores c
  rw [← State.stopWorld_cores s w cause keep] at hcases
  rcases hcases with hc | ⟨hc, hstop⟩
  · have hcore : (s.stopWorld w cause keep).core c = (s.core c).stopped w cause keep c := hc
    rw [hcore, Core.stopped, if_pos h]
    rfl
  · have hcore : s.core c = Core.init := hc
    have hafter : (s.stopWorld w cause keep).core c = Core.init := hstop
    rw [hcore, hafter]
    rfl

/-- A slot of a core of the world is stopped, or was never in use. -/
theorem State.stopWorld_slot_cases {c : Nat} (h : (s.core c).world = w) (n : Nat) :
    (s.stopWorld w cause keep).slot c n = (s.slot c n).stopped cause (keep = some (c, n)) ∨
      (s.slot c n = Slot.init ∧ (s.stopWorld w cause keep).slot c n = Slot.init) := by
  rw [State.slot, Core.slot, State.stopWorld_slots s w cause keep h]
  exact Sparse.get_map_cases (g := fun q => (q.1, q.2.stopped cause (keep = some (c, q.1)))) (fun _ => rfl) (s.core c).slots n

/-- When a world has stopped, every slot of its cores is FREE or FROZEN. -/
theorem State.stopWorld_slot_st {c : Nat} (h : (s.core c).world = w) (n : Nat) :
    ((s.stopWorld w cause keep).slot c n).st = .free ∨ ((s.stopWorld w cause keep).slot c n).st = .frozen := by
  rcases State.stopWorld_slot_cases s w cause keep h n with hs | ⟨-, hs⟩
  · rw [hs]
    exact Slot.stopped_st ..
  · rw [hs]
    exact .inl rfl

/-- The slot whose trap stops its world keeps its record (R275). -/
theorem State.stopWorld_slot_kept {c n : Nat} (h : (s.core c).world = w) (hst : (s.slot c n).st ≠ .free) :
    (s.stopWorld w cause (some (c, n))).slot c n = { s.slot c n with st := .frozen } := by
  rcases State.stopWorld_slot_cases s w cause (some (c, n)) h n with hs | ⟨hs, -⟩
  · rw [hs]
    exact if_pos rfl
  · exact absurd (congrArg Slot.st hs) hst

end

/-- What a second trap of the supervisor leaves: the world stopped, its own slot FROZEN with the second trap's record, memory as it was. -/
theorem takeTrap_nested {x : TrapInfo} {s : State} (h : s.cur.slot = 15) (hn : s.me.nest = true) :
    ((takeTrap x s).world s.myWorld).stopped = true ∧ (takeTrap x s).me = { x.recordIn s.me with st := .frozen } ∧
    (takeTrap x s).mem = s.mem ∧
    ∀ n, ((takeTrap x s).slot s.cur.core n).st = .free ∨ ((takeTrap x s).slot s.cur.core n).st = .frozen := by
  rw [takeTrap_of_nested x h hn]
  have hworld : ((s.endedWith { x.recordIn s.me with st := .frozen }).core s.cur.core).world = s.myWorld :=
    State.endedWith_myWorld ..
  have hme : (s.endedWith { x.recordIn s.me with st := .frozen }).slot s.cur.core 15 = { x.recordIn s.me with st := .frozen } :=
    h ▸ State.endedWith_me ..
  refine ⟨State.stopWorld_stopped .., ?_, State.stopWorld_mem .., fun n => State.stopWorld_slot_st _ _ _ _ hworld n⟩
  rw [State.me, State.stopWorld_cur, State.endedWith_cur, h, State.stopWorld_slot_kept _ _ _ hworld, hme]
  rw [hme]
  exact nofun

/-! ## KRD and KWR (R86, R100) -/

/-- An index whose right the acting slot has. -/
theorem kIndex_of_right {v : W64} {write : Bool} {r w : Right} {s : State} (hr : kRights v.toNat = some (r, w))
    (hold : (if write then w else r).holds s = true) : kIndex v write s = .ok v.toNat s := by
  simp [kIndex, hr, hold]

/-- KRD of a register that the acting slot may read. -/
theorem exec_krd {s t : State} {d a : Reg} {r w : Right} {v : W64} (hp : NoPort s [a] (some d))
    (hr : kRights (s.src a).toNat = some (r, w)) (hold : r.holds s.issue = true)
    (hv : kRead (s.src a).toNat s.issue = .ok v t) :
    exec (.krd d a) s = .next (settle (.ok (kDone (s.src a).toNat false) (t.writeMine d v))) := by
  have hbody : krd d a s.issue = .ok (kDone (s.src a).toNat false) (t.writeMine d v) := by
    rw [krd, withPorts_of_noPort _ hp.issue]
    simp [kIndex_of_right (write := false) hr hold, hv]
  exact run_of_ok hbody

/-- KWR of a register that the acting slot may write. -/
theorem exec_kwr {s t : State} {d a : Reg} {r w : Right} (hp : NoPort s [d, a] none) (hr : kRights (s.src d).toNat = some (r, w))
    (hold : w.holds s.issue = true) (hv : kWrite (s.src d).toNat (s.src a) s.issue = .ok () t) :
    exec (.kwr d a) s = .next (settle (.ok (kDone (s.src d).toNat false) t)) := by
  have hbody : kwr d a s.issue = .ok (kDone (s.src d).toNat false) t := by
    rw [kwr, withPorts_of_noPort _ hp.issue]
    simp [kIndex_of_right (write := true) hr hold, hv]
  exact run_of_ok hbody

/-- KWR of a value that the register does not take. -/
theorem exec_kwr_trap {s t : State} {d a : Reg} {r w : Right} {x : TrapInfo} (hp : NoPort s [d, a] none)
    (hr : kRights (s.src d).toNat = some (r, w)) (hold : w.holds s.issue = true)
    (hv : kWrite (s.src d).toNat (s.src a) s.issue = .error (.trap x) t) :
    exec (.kwr d a) s = .next (takeTrap x t) := by
  have hbody : kwr d a s.issue = .error (.trap x) t := by
    rw [kwr, withPorts_of_noPort _ hp.issue]
    simp [kIndex_of_right (write := true) hr hold, hv]
  exact congrArg (fun res => Host.Outcome.next (settle res)) hbody

/-! ## The registers of the selected slot -/

theorem ofSelected_iff {i : Nat} : ofSelected i = true ↔ i ≤ 0x11 ∨ i = 0x14 := by simp [ofSelected]

/-- Every slot reads the registers of a slot. -/
theorem kRights_of_ofSelected {i : Nat} (hi : ofSelected i = true) : ∃ w, kRights i = some (.any, w) := by
  have hle : i ≤ 0x14 := by
    rcases ofSelected_iff.mp hi with h | h <;> omega
  rw [kRights]
  split_ifs <;> exact ⟨_, rfl⟩

theorem kDone_of_ofSelected {i : Nat} (hi : ofSelected i = true) : kDone i false = .next := by
  have hlt : ¬0x20 ≤ i := by
    rcases ofSelected_iff.mp hi with h | h <;> omega
  simp [kDone, hlt]

/-- A register of a slot that is in use reads as the slot holds it. -/
theorem kRead_of_ofSelected {i : Nat} {s : State} (hi : ofSelected i = true) (hst : (s.slot s.cur.core (kSlot i s)).st ≠ .free) :
    kRead i s = .ok (s.kOfSlot i (kSlot i s)) s := by
  simp [kRead, hi, hst]

/-- k.quantum counts down to 0 and stays there. -/
theorem quantumLeft_getD (s : State) (c : Nat) (q : Option Nat) : (s.quantumLeft c q).getD 0 =
    match q with
    | some n => n - s.coreCycle c
    | none => 0 := by
  cases q with
  | none => rfl
  | some n =>
    by_cases h : n - s.coreCycle c = 0 <;> simp [State.quantumLeft, h]

/-- Each entry of `slotRegisters` is the register that KRD reads at its index. -/
theorem slotRegisters_eq_kOfSlot {q : Nat × (State → Nat → W64)} (hq : q ∈ slotRegisters) :
    ofSelected q.1 = true ∧ ∀ s n, q.2 s n = s.kOfSlot q.1 n := by
  have hsel : ∀ q ∈ slotRegisters, ofSelected q.1 = true := by decide
  refine ⟨hsel q hq, fun s n => ?_⟩
  simp only [slotRegisters, List.mem_cons, List.not_mem_nil, or_false] at hq
  rcases hq with rfl | rfl | rfl | rfl | rfl | rfl | rfl | rfl | rfl | rfl | rfl | rfl | rfl | rfl | rfl | rfl | rfl | rfl
  pick_goal 14 -- k.quantum, the one register that is not a field or a number as it stands
  · exact congrArg w64 (quantumLeft_getD ..).symm
  all_goals rfl

/-- KRD of a register of the slot in k.slotsel. -/
theorem exec_krd_ofSelected {s : State} {d a : Reg} (hp : NoPort s [a] (some d)) (hi : ofSelected (s.src a).toNat = true)
    (hst : (s.issue.slot s.cur.core (kSlot (s.src a).toNat s.issue)).st ≠ .free) :
    exec (.krd d a) s =
      .next ((s.issue.writeMine d (s.issue.kOfSlot (s.src a).toNat (kSlot (s.src a).toNat s.issue))).advance) := by
  obtain ⟨w, hr⟩ := kRights_of_ofSelected hi
  rw [exec_krd hp hr rfl (kRead_of_ofSelected hi (by rwa [State.issue_cur])), kDone_of_ofSelected hi, settle_next]

/-! ## KRD and KWR of the supervisor -/

@[simp] theorem State.issue_st (s : State) : s.issue.me.st = s.me.st := by rw [(State.issue_frame s).2.2]
@[simp] theorem State.issue_slotsel (s : State) : s.issue.myCore.slotsel = s.myCore.slotsel := by rw [(State.issue_frame s).2.1.1]
@[simp] theorem State.issue_vbase (s : State) : s.issue.myCore.vbase = s.myCore.vbase := by rw [(State.issue_frame s).2.1.1]

/-- In the supervisor slot a slot's index names the slot of k.slotsel. -/
theorem kSlot_of_supervisor {i : Nat} {s : State} (h : s.cur.slot = 15) (hi : ofSelected i = true) :
    kSlot i s = s.myCore.slotsel.toNat := by
  simp [kSlot, isSup, h, hi]

theorem sup_holds {s : State} (h : s.cur.slot = 15) : Right.sup.holds s = true := by simp [Right.holds, isSup, h]

/-- With k.slotsel 15 the supervisor reads its own registers. -/
theorem exec_krd_own {q : Nat × (State → Nat → W64)} (hq : q ∈ slotRegisters) {s : State} {d a : Reg} (hp : NoPort s [a] (some d))
    (h : s.cur.slot = 15) (hsel : s.myCore.slotsel = 15) (hst : s.me.st ≠ .free) (hi : (s.src a).toNat = q.1) :
    exec (.krd d a) s = .next ((s.issue.writeMine d (q.2 s.issue 15)).advance) := by
  obtain ⟨hof, hval⟩ := slotRegisters_eq_kOfSlot hq
  have hslot : kSlot q.1 s.issue = 15 := by
    rw [kSlot_of_supervisor (by rwa [State.issue_cur]) hof, State.issue_slotsel, hsel]
    rfl
  have hown : s.issue.slot s.cur.core 15 = s.issue.me := by rw [State.me, State.issue_cur, h]
  rw [← hi] at hof hslot
  rw [exec_krd_ofSelected hp hof (by rwa [hslot, hown, State.issue_st]), hslot, hi, hval]

/-- KRD of k.vbase. -/
theorem exec_krd_vbase {s : State} {d a : Reg} (hp : NoPort s [a] (some d)) (h : s.cur.slot = 15) (hi : (s.src a).toNat = 0x18) :
    exec (.krd d a) s = .next ((s.issue.writeMine d s.myCore.vbase).advance) := by
  have hv : kRead (s.src a).toNat s.issue = .ok s.myCore.vbase s.issue := by
    rw [hi, ← State.issue_vbase]
    rfl
  rw [exec_krd hp (congrArg kRights hi) (sup_holds (by rwa [State.issue_cur])) hv, hi]
  rfl

/-- KWR of k.vbase: an even address is taken. -/
theorem exec_kwr_vbase_even {s : State} {d a : Reg} (hp : NoPort s [d, a] none) (h : s.cur.slot = 15) (hi : (s.src d).toNat = 0x18)
    (heven : flag (s.src a) 0 = false) :
    exec (.kwr d a) s = .next ((s.issue.modMyCore fun k => { k with vbase := s.src a }).advance) := by
  have hv : kWrite (s.src d).toNat (s.src a) s.issue = .ok () (s.issue.modMyCore fun k => { k with vbase := s.src a }) := by
    simp [kWrite, hi, ofSelected, heven]
  rw [exec_kwr hp (congrArg kRights hi) (sup_holds (by rwa [State.issue_cur])) hv, hi]
  rfl

/-- KWR of k.vbase: an odd address traps ALIGN. -/
theorem exec_kwr_vbase_odd {s : State} {d a : Reg} (hp : NoPort s [d, a] none) (h : s.cur.slot = 15) (hi : (s.src d).toNat = 0x18)
    (hodd : flag (s.src a) 0 = true) :
    exec (.kwr d a) s = .next (takeTrap ⟨Cause.align, s.src a, 0, 0xFFFF⟩ s.issue) := by
  have hv : kWrite (s.src d).toNat (s.src a) s.issue = .error (.trap ⟨Cause.align, s.src a, 0, 0xFFFF⟩) s.issue := by
    simp [kWrite, hi, ofSelected, hodd, tfmtNone]
  exact exec_kwr_trap hp (congrArg kRights hi) (sup_holds (by rwa [State.issue_cur])) hv

/-! ## Taking a trap, as a whole -/

/-- Settles O41: each clause is what a branch of `takeTrap` does to the slot, the record queue or the rest of the device; KRD and KWR of the
supervisor's registers follow from their rights. -/
theorem takingATrap : Obligations.TakingATrap := by
  refine ⟨?_, fun q hq s d a hp h hsel hst hi => exec_krd_own hq hp h hsel hst hi,
    fun s d a hp h hi => ⟨exec_kwr_vbase_even hp h hi, exec_kwr_vbase_odd hp h hi⟩,
    fun s d a hp h hi => exec_krd_vbase hp h hi, fun _ => rfl, ?_⟩
  · rintro s _ x rfl h
    have hprogram : s.cur.slot ≠ 15 → (takeTrap x s).me.st = .trapped ∧ (takeTrap x s).me.pc = s.me.pc ∧
        ∃ r ∈ (takeTrap x s).myCore.trapq, fld r 44 12 = fld (recordWord x.cause s.cur.slot 0) 44 12 := fun h15 => by
      rw [takeTrap_me_of_ne x h15]
      exact ⟨rfl, rfl, exists_mem_takeTrap_trapq x h15⟩
    have hsup : s.cur.slot = 15 → (takeTrap x s).me.st = .run ∧ (takeTrap x s).me.pc = s.myCore.vbase ∧
        (takeTrap x s).me.nest = true ∧ (takeTrap x s).myCore.trapq = s.myCore.trapq := fun h15 => by
      have hn : s.me.nest = false := h.resolve_left (not_not_intro h15)
      rw [takeTrap_me_of_supervisor x h15 hn]
      exact ⟨rfl, rfl, rfl, takeTrap_trapq_of_supervisor x h15 hn⟩
    obtain ⟨st, nest, pc, hme⟩ := takeTrap_me_eq x h
    refine ⟨?_, ?_, ?_, ?_, ?_, ?_, ?_, ?_, ?_, ?_, takeTrap_mem x h, fun c n => takeTrap_slot_of_ne x h,
      takeTrap_slot_supervisor x, fun c => takeTrap_core_of_ne x h, hprogram, hsup⟩ <;> rw [hme] <;> rfl
  · rintro s _ x rfl h hn
    obtain ⟨hworld, hme, hmem, hall⟩ := takeTrap_nested (x := x) h hn
    rw [hme]
    exact ⟨hworld, rfl, rfl, rfl, hmem, hall⟩

end Sys2Proof.Machine
end

section
/-! The thread-context cache (chapter 21): what leaves its entries in use as they are, and which entry CTXSAVE and CTXIN take. -/

namespace Sys2Proof

theorem Sparse.mem_keys_put {α : Type} {m : Sparse α} {k i : Nat} {v : α} :
    i ∈ (put m k v).map Prod.fst ↔ i = k ∨ i ∈ m.map Prod.fst := by
  induction m with
  | nil => simp [put]
  | cons e m ih =>
    obtain ⟨j, w⟩ := e
    rw [put]
    split
    · simp
    · split
      · next h => simp [h]
      · simp only [List.map_cons, List.mem_cons, ih]
        tauto

end Sys2Proof

namespace Sys2Proof.Machine

/-! ## The entries in use -/

/-- The numbers of a core's cache entries that hold a context. -/
def Core.entries (k : Core) : List Nat := k.cache.map Prod.fst

/-- The entry that a core has room in is its lowest free one. -/
theorem Core.lowest_of_roomFor {k : Core} {n i : Nat} (h : k.roomFor n = some i) : i < 48 ∧ ∀ j < i, j ∈ k.entries := by
  rw [Core.roomFor] at h
  split at h
  · rw [List.find?_range_eq_some] at h
    obtain ⟨-, hi, hlow⟩ := h
    refine ⟨List.mem_range.mp hi, fun j hj => ?_⟩
    simpa [Core.entries] using hlow j hj
  · cases h

section
variable (k : Core)

@[simp] theorem Core.tally_entries (e n j : Nat) : (k.tally e n j).entries = k.entries := rfl
@[simp] theorem Core.setSlot_entries (n : Nat) (v : Slot) : (k.setSlot n v).entries = k.entries := rfl
@[simp] theorem Core.modSlot_entries (n : Nat) (f : Slot → Slot) : (k.modSlot n f).entries = k.entries := rfl
@[simp] theorem Core.patchL1_entries (cells : List Host.Cell) : (k.patchL1 cells).entries = k.entries := rfl
@[simp] theorem Core.dropQuantumRecord_entries (n : Nat) : (k.dropQuantumRecord n).entries = k.entries := rfl

@[simp] theorem Core.queueRecord_entries (cause : Byte) (n aux : Nat) : (k.queueRecord cause n aux).entries = k.entries := by
  rw [Core.queueRecord]
  split <;> rfl

@[simp] theorem Core.dropCopyFault_entries (n : Nat) : (k.dropCopyFault n).entries = k.entries := by
  rw [Core.dropCopyFault]
  split
  · rw [Core.queueRecord_entries, Core.modSlot_entries]
  · rfl

@[simp] theorem Core.dropUnits_entries (now n : Nat) (accs planes : List Nat) : (k.dropUnits now n accs planes).entries = k.entries :=
  List.map_map.trans rfl

@[simp] theorem Core.stopped_entries (w : Nat) (cause : Byte) (keep : Option (Nat × Nat)) (c : Nat) :
    (k.stopped w cause keep c).entries = k.entries := by
  rw [Core.stopped]
  split <;> rfl

end

/-- The same thread acts, and in every core's cache the same entries are in use. -/
structure EntriesKept (s t : State) : Prop where
  cur : t.cur = s.cur
  entries : ∀ c, (t.core c).entries = (s.core c).entries

namespace EntriesKept

theorem refl (s : State) : EntriesKept s s := ⟨rfl, fun _ => rfl⟩

theorem trans {s t u : State} (h : EntriesKept s t) (k : EntriesKept t u) : EntriesKept s u :=
  ⟨k.cur.trans h.cur, fun c => (k.entries c).trans (h.entries c)⟩

/-- What was done last stands first: it says which state lies between. -/
theorem after {s t u : State} (k : EntriesKept t u) (h : EntriesKept s t) : EntriesKept s u := h.trans k

theorem carries : Carries EntriesKept := ⟨refl, trans⟩

theorem of_cores {s t : State} (hcur : t.cur = s.cur) (h : t.cores = s.cores) : EntriesKept s t :=
  ⟨hcur, fun c => by rw [State.core, h, State.core]⟩

theorem of_touched {w : Nat} {s t : State} (h : Touched w s t) : EntriesKept s t :=
  ⟨h.cur_eq, fun c => by rw [h.core c]; rfl⟩

theorem modCore {s : State} {c : Nat} {f : Core → Core} (h : ∀ k, (f k).entries = k.entries) : EntriesKept s (s.modCore c f) := by
  refine ⟨rfl, fun d => ?_⟩
  by_cases hd : c = d
  · subst hd
    rw [State.modCore_core, h]
  · rw [State.modCore_core_of_ne _ _ hd]

theorem modSlot (s : State) (c n : Nat) (f : Slot → Slot) : EntriesKept s (s.modSlot c n f) := modCore (f := (·.modSlot n f)) fun _ => rfl

theorem modMe (s : State) (f : Slot → Slot) : EntriesKept s (s.modMe f) := modSlot s _ _ f

/-- Every core changed, but for the entries of its cache. -/
theorem mapCores {s t : State} {g : Nat × Core → Nat × Core} (hcur : t.cur = s.cur) (ht : t.cores = s.cores.map g)
    (hfst : ∀ e, (g e).1 = e.1) (hg : ∀ e, (g e).2.entries = e.2.entries) : EntriesKept s t := by
  refine ⟨hcur, fun c => ?_⟩
  rw [State.core, ht]
  rcases Sparse.get_map_cases (d := Core.init) hfst s.cores c with h | ⟨hs, ht⟩
  · rw [h, hg]
    rfl
  · rw [ht, State.core, hs]

theorem foldl {α : Type} {f : State → α → State} (h : ∀ s a, EntriesKept s (f s a)) (xs : List α) (s : State) :
    EntriesKept s (xs.foldl f s) := by
  induction xs generalizing s with
  | nil => exact refl s
  | cons x xs ih => exact (h s x).trans (ih _)

section
variable (s : State)

theorem setBank (l : Nat) (v : Bank) : EntriesKept s (s.setBank l v) := of_cores rfl rfl
theorem setFull (l : Nat) (b : Bool) : EntriesKept s (s.setFull l b) := of_cores rfl rfl
theorem setChain (cix : Nat) (v : Chain) : EntriesKept s (s.setChain cix v) := of_cores rfl rfl
theorem modWorld (w : Nat) (f : World → World) : EntriesKept s (s.modWorld w f) := of_cores rfl rfl
theorem sealLine (line key : Nat) : EntriesKept s (s.sealLine line key) := of_cores rfl rfl

theorem setCells (cells : List Host.Cell) : EntriesKept s (s.setCells cells) :=
  of_cores (State.setCells_cur ..) (State.setCells_cores ..)

/-! ## Writes performed, and reservations given back (R222, R223, R244) -/

theorem l2Own (cl w line slice : Nat) : EntriesKept s (s.l2Own cl w line slice) := by
  unfold State.l2Own
  dsimp only
  split
  · exact of_cores rfl rfl
  · rw [State.l2Fill_caches]
    exact of_cores rfl rfl

theorem triggerWatches (uid : Nat) (locs : List Nat) : EntriesKept s (s.triggerWatches uid locs) :=
  mapCores rfl rfl (fun _ => rfl) fun _ => List.map_map.trans rfl

theorem performWrite (core uid world : Nat) (pin : Nat → Option Nat) (cells : List Host.Cell) :
    EntriesKept s (s.performWrite core uid world pin cells) := by
  unfold State.performWrite
  split
  · exact refl s
  · refine after (triggerWatches ..) (after (modCore fun k => k.patchL1_entries cells) (after (setCells ..) ?_))
    exact foldl (fun t line => after (sealLine ..) (l2Own t ..)) _ s

theorem landEntry (core : Nat) (e : SbEntry) : EntriesKept s (s.landEntry core e) :=
  after (performWrite ..) (modCore fun _ => rfl)

theorem performEntry (core : Nat) (e : SbEntry) : EntriesKept s (s.performEntry core e) := by
  unfold State.performEntry
  split
  · exact after (setBank ..) (modCore fun _ => rfl)
  · exact landEntry ..

theorem performNext (core : Nat) (e : SbEntry) : EntriesKept s (State.performNext core s e) := by
  unfold State.performNext
  split
  · exact refl s
  · exact performEntry ..

theorem performSlot (core n : Nat) : EntriesKept s (s.performSlot core n) := foldl (fun t e => performNext t core e) _ s

theorem performDeferred (loc : Nat) (d : Deferred) : EntriesKept s (State.performDeferred loc s d) := by
  unfold State.performDeferred
  split
  · exact setBank ..
  · exact landEntry ..

theorem releaseWord (loc : Nat) : EntriesKept s (s.releaseWord loc) := by
  unfold State.releaseWord
  refine after (foldl (fun t d => performDeferred t loc d) _ _) ?_
  split
  · exact after (modSlot ..) (setBank ..)
  · exact setBank ..

theorem revokeWord (loc : Nat) : EntriesKept s (s.revokeWord loc) := by
  unfold State.revokeWord
  split
  · exact after (modCore fun _ => rfl) (releaseWord ..)
  · exact refl s

theorem revokeAll (uid : Nat) : EntriesKept s (s.revokeAll uid) := foldl revokeWord _ s

/-! ## The issue, charges, registers and references -/

theorem chargeSlot (c n pips : Nat) : EntriesKept s (s.chargeSlot c n pips) := modCore fun _ => rfl

theorem issue : EntriesKept s s.issue := by
  unfold State.issue
  split
  · exact refl s
  · exact after (chargeSlot ..) (after (modCore fun _ => rfl) (modMe ..))

theorem chargeOnce (cap : Cap) : EntriesKept s (s.chargeOnce cap) := by
  unfold State.chargeOnce
  split
  · exact refl s
  · exact after (modMe ..) (chargeSlot ..)

theorem chargeAll (caps : List Cap) : EntriesKept s (s.chargeAll caps) := foldl chargeOnce caps s

theorem writeReg (c n : Nat) (r : Reg) (v : W64) : EntriesKept s (s.writeReg c n r v) := by
  unfold State.writeReg
  split
  · exact refl s
  · split
    · exact modCore fun _ => rfl
    · exact modSlot ..

theorem freeChain (fuel cix : Nat) : EntriesKept s (s.freeChain fuel cix) := by
  induction fuel generalizing cix s with
  | zero => exact refl s
  | succ fuel ih =>
    unfold State.freeChain
    dsimp only
    split
    · split
      · exact setChain ..
      · split
        · exact setChain ..
        · exact after (ih ..) (after (setChain ..) (setChain ..))
    · exact refl s

theorem takeRef (cix : Nat) : EntriesKept s (s.takeRef cix) := by
  unfold State.takeRef
  dsimp only
  split
  · exact refl s
  · exact setChain ..

theorem dropRef (cix : Nat) : EntriesKept s (s.dropRef cix) := by
  unfold State.dropRef
  dsimp only
  split
  · exact refl s
  · exact after (freeChain ..) (setChain ..)

theorem dropSaved (w index : Nat) : EntriesKept s (s.dropSaved w index) := by
  unfold State.dropSaved
  split
  · exact after (dropRef ..) (modWorld ..)
  · exact refl s

theorem placeWindow (core uid w woff wlen : Nat) (bs : List Byte) : EntriesKept s (s.placeWindow core uid w woff wlen bs) := by
  unfold State.placeWindow
  refine after (foldl (fun t _ => setFull t ..) _ _) ?_
  split
  · exact refl s
  · exact performWrite ..

/-! ## Where an instruction leaves the machine (R90, R273, R285) -/

theorem goTo (pc : W64) : EntriesKept s (s.goTo pc) := modMe ..
theorem goToLater (pc : W64) : EntriesKept s (s.goToLater pc) := modMe ..
theorem waitIn (w : Wait) : EntriesKept s (s.waitIn w) := modMe ..

theorem endedWith (v : Slot) : EntriesKept s (s.endedWith v) := after (modMe _ fun _ => v) (modCore fun _ => rfl)

theorem stopWorld (w : Nat) (cause : Byte) (keep : Option (Nat × Nat)) : EntriesKept s (s.stopWorld w cause keep) :=
  mapCores (State.stopWorld_cur ..) (State.stopWorld_cores ..) (fun _ => rfl) fun e => e.2.stopped_entries ..

theorem takeTrap (x : TrapInfo) : EntriesKept s (takeTrap x s) := by
  by_cases h : s.cur.slot = 15
  · cases hn : s.me.nest with
    | true =>
      rw [takeTrap_of_nested x h hn]
      exact after (stopWorld ..) (endedWith ..)
    | false =>
      rw [takeTrap_of_supervisor x h hn]
      exact endedWith ..
  · rw [takeTrap_of_ne x h]
    exact after (modCore fun k => k.queueRecord_entries ..) (endedWith ..)

end

theorem settle (r : EStateM.Result Stop State Ctl) : EntriesKept (left r) (settle r) := by
  match r with
  | .ok .next s => exact goTo s s.behind
  | .ok (.jump pc) s => exact goTo s pc
  | .ok .done s => exact goToLater s s.behind
  | .ok (.doneAt pc) s => exact goToLater s pc
  | .ok .gone s => exact refl s
  | .error (.trap x) s => exact takeTrap s x
  | .error (.wait w) s => exact waitIn s w

end EntriesKept

/-! ## Computations that keep the entries -/

section
variable {α : Type}

theorem Does.entriesKept {w : Nat} {m : M α} (h : Does (Touched w) m) : Does EntriesKept m := fun s => .of_touched (h s)

theorem rd_kept (r : Reg) : Does EntriesKept (rd r) := fun s => by
  rw [rd_apply]
  exact .refl s

theorem wr_kept (r : Reg) (v : W64) : Does EntriesKept (wr r v) := fun s => .writeReg s ..

theorem chargeCaps_kept (caps : List Cap) : Does EntriesKept (chargeCaps caps) := fun s => by
  rw [chargeCaps_apply]
  exact .chargeAll s caps

theorem modMe_kept (f : Slot → Slot) : Does EntriesKept (modMe f) := fun s => .modMe s f

theorem modCore_kept {f : Core → Core} (h : ∀ k, (f k).entries = k.entries) : Does EntriesKept (modCore f) := fun _ => .modCore h

theorem ports_kept (srcs : List Reg) (dst : Option Reg) : Does EntriesKept (ports srcs dst) := by
  have hR := EntriesKept.carries
  unfold ports
  refine Does.bind hR (Does.get hR) fun s => ?_
  refine Does.when hR (fun _ => Does.trapAt hR _ _ _ _) fun _ => Does.when hR (fun _ => Does.block hR _) fun _ => ?_
  refine Does.when hR (fun _ => Does.block hR _) fun _ => ?_
  refine Does.ite (fun _ => ?_) fun _ => Does.pure hR _
  refine Does.bind hR (modCore_kept fun _ => rfl) fun _ => Does.bind hR (modMe_kept _) fun _ => Does.pure hR _

theorem supOnly_kept : Does EntriesKept supOnly := by
  have hR := EntriesKept.carries
  unfold supOnly
  exact Does.bind hR (Does.get hR) fun s => Does.ite (fun _ => Does.trapPriv hR) fun _ => Does.pure hR _

theorem slotOperand_kept (v : W64) (bit : Option Nat) : Does EntriesKept (slotOperand v bit) := by
  have hR := EntriesKept.carries
  unfold slotOperand
  exact Does.when hR (fun _ => Does.trapAt hR _ _ _ _) fun _ => Does.pure hR _

theorem readCtxDesc_kept (a : W64) : Does EntriesKept (readCtxDesc a) := by
  have hR := EntriesKept.carries
  unfold readCtxDesc
  refine Does.when hR (fun _ => Does.trapAt hR _ _ _ _) fun _ => Does.when hR (fun _ => Does.trapXlate hR _ _ _) fun _ => ?_
  refine Does.bind hR (Does.bind hR (Does.whoMe hR) fun w => (readSpan_does w _ _ _ _).entriesKept) fun _ => Does.pure hR _

theorem imageAddr_kept (ea : W64) : Does EntriesKept (imageAddr ea) := by
  have hR := EntriesKept.carries
  unfold imageAddr
  exact Does.when hR (fun _ => Does.trapAt hR _ _ _ _) fun _ => Does.ite (fun _ => Does.trapXlate hR _ _ _) fun _ => Does.pure hR _

theorem engineRead_kept (w : Who) (ea : W64) (n : Nat) : Does EntriesKept (engineRead w ea n) := (engineRead_does w ea n).entriesKept

end

/-! ## Computations that take an entry -/

/-- A core acts whose cache has the entries given in use. -/
structure InUse (c : Nat) (es : List Nat) (s : State) : Prop where
  core : s.cur.core = c
  entries : (s.core c).entries = es

/-- An entry that is in use in a core and was not is the lowest that was free. -/
def TookLowest (c : Nat) (es : List Nat) (t : State) : Prop :=
  ∀ i ∈ (t.core c).entries, i ∉ es → i < 48 ∧ ∀ j < i, j ∈ es

/-- From the entries given in use, none is taken but the lowest free one. -/
def Takes (c : Nat) (es : List Nat) (s t : State) : Prop := InUse c es s → TookLowest c es t

section
variable {c : Nat} {es : List Nat} {s t : State} {α β : Type}

theorem InUse.kept (h : InUse c es s) (k : EntriesKept s t) : InUse c es t :=
  ⟨(congrArg _ k.cur).trans h.core, (k.entries c).trans h.entries⟩

theorem InUse.tookLowest (h : InUse c es s) : TookLowest c es s := fun _ hi hn => absurd (h.entries ▸ hi) hn

theorem InUse.lowest (h : InUse c es s) {n i : Nat} (hr : (s.core c).roomFor n = some i) : i < 48 ∧ ∀ j < i, j ∈ es :=
  h.entries ▸ Core.lowest_of_roomFor hr

theorem TookLowest.kept (h : TookLowest c es s) (k : EntriesKept s t) : TookLowest c es t := fun i hi => h i (k.entries c ▸ hi)

/-- The lowest free entry taken. -/
theorem TookLowest.of_put {i : Nat} (h : ∀ j, j ∈ (t.core c).entries ↔ j = i ∨ j ∈ es) (hi : i < 48 ∧ ∀ j < i, j ∈ es) :
    TookLowest c es t := by
  intro j hj hn
  obtain rfl := ((h j).mp hj).resolve_right hn
  exact hi

/-- A context put into the lowest free entry. -/
theorem InUse.put (h : InUse c es s) {i : Nat} (hi : i < 48 ∧ ∀ j < i, j ∈ es) (e : CtxEntry) :
    TookLowest c es (s.modCore c fun k => { k with cache := Sparse.put k.cache i e }) := by
  refine .of_put (fun j => ?_) hi
  rw [State.modCore_core, ← h.entries]
  exact Sparse.mem_keys_put

/-- What keeps the entries takes none. -/
theorem Takes.of_kept {m : M α} (h : Does EntriesKept m) : Does (Takes c es) m := fun s hs => (hs.kept (h s)).tookLowest

/-- First what keeps the entries, then what may take one. -/
theorem Takes.keptThen {m : M α} {f : α → M β} (hm : Does EntriesKept m) (hf : ∀ a, Does (Takes c es) (f a)) :
    Does (Takes c es) (m >>= f) := by
  intro s hs
  rw [M.bind_apply]
  cases h : m s with
  | ok a t => exact hf a t (hs.kept (hm.ok h))
  | error e t => exact (hs.kept (hm.error h)).tookLowest

/-- First what may take an entry, then what keeps them. -/
theorem Takes.thenKept {m : M α} {f : α → M β} (hm : Does (Takes c es) m) (hf : ∀ a, Does EntriesKept (f a)) :
    Does (Takes c es) (m >>= f) := by
  intro s hs
  rw [M.bind_apply]
  cases h : m s with
  | ok a t => exact (hm.ok h hs).kept (hf a t)
  | error e t => exact hm.error h hs

theorem Takes.whenKept {p : Prop} [Decidable p] {x : M Unit} {k : Unit → M β} (hx : Does EntriesKept x)
    (hk : Does (Takes c es) (k ())) : Does (Takes c es) (if p then x >>= k else k ()) :=
  Does.ite (fun _ => Takes.keptThen hx fun _ => hk) fun _ => hk

theorem Takes.getThen {f : State → M β} (hf : ∀ s, InUse c es s → Does (Takes c es) (f s)) : Does (Takes c es) (get >>= f) :=
  fun s hs => hf s hs s hs

theorem Takes.setThen {f : PUnit → M β} (ht : InUse c es t) (hf : Does (Takes c es) (f ⟨⟩)) : Does (Takes c es) (set t >>= f) :=
  fun _ _ => hf t ht

/-- A waiting instruction over its ports. -/
theorem waiting_takes {m : M Unit} (hm : Does (Takes c es) m) (srcs : List Reg) (dst : Option Reg) :
    Does (Takes c es) (waiting srcs dst m) := by
  intro s hs
  have h : Does (Takes c es) (ports srcs dst >>= fun _ => m >>= fun _ => pure Ctl.done) :=
    Takes.keptThen (ports_kept srcs dst) fun _ => Takes.thenKept hm fun _ => Does.pure EntriesKept.carries _
  have := h s hs
  unfold waiting withPorts
  split
  · next w t hw =>
    rw [hw] at this
    refine this.kept (t := if w.reruns then _ else t) ?_
    split
    · exact EntriesKept.after (.modMe ..) (.modCore fun _ => rfl)
    · exact .refl t
  · exact this

/-- Its issue before and its end behind take no entry. -/
theorem run_takes {m : M Ctl} (h : Does (Takes c es) m) (hs : InUse c es s) (ht : run m s = .next t) : TookLowest c es t := by
  obtain rfl := Host.Outcome.next.inj ht
  exact (h _ (hs.kept (.issue s))).kept (.settle _)

end

/-! ## CTXSAVE and CTXIN (R279, R281) -/

/-- A context that moves out takes the entry given. -/
theorem State.mem_moveOut_entries (s : State) (c n i j : Nat) (st : CtxSt) :
    j ∈ ((s.moveOut c n i st).core c).entries ↔ j = i ∨ j ∈ (s.core c).entries := by
  have hspill : EntriesKept s (if (s.slot c n).spill = 0 then s else s.spillMoved c) := by
    split
    · exact .refl s
    · exact (EntriesKept.modCore (f := fun k => { k with spillSeq := some s.freeCtr }) fun _ => rfl).trans (.of_cores rfl rfl)
  rw [← hspill.entries c, State.moveOut]
  generalize (if (s.slot c n).spill = 0 then s else s.spillMoved c) = u
  simp only [State.modCore_core]
  refine Sparse.mem_keys_put.trans (or_congr_right ?_)
  change j ∈ Core.entries (Core.dropQuantumRecord _ _) ↔ _
  simp

theorem ctxsave_takes (c : Nat) (es : List Nat) (d a : Reg) : Does (Takes c es) (ctxsave d a) := by
  have hR := EntriesKept.carries
  unfold ctxsave
  refine waiting_takes (Takes.keptThen supOnly_kept fun _ => Takes.keptThen (rd_kept a) fun v =>
    Takes.keptThen (slotOperand_kept v _) fun n => Takes.getThen fun s hs => Takes.whenKept (Does.trapAt hR _ _ _ _) ?_) _ _
  rw [hs.core]
  split
  · refine Takes.of_kept (Does.bind hR (Does.modify fun t => ?_) fun _ => wr_kept _ _)
    exact .after (.modCore fun k => k.queueRecord_entries ..) (.performSlot t ..)
  · next e he =>
    have hkept := (EntriesKept.revokeAll s (s.slot c n).uid).trans (.performSlot _ c n)
    refine Takes.setThen (hs.kept hkept) (Takes.whenKept (Does.block hR _) (Takes.thenKept ?_ fun _ => wr_kept _ _))
    refine fun _ _ => TookLowest.of_put (fun j => ?_) (hs.lowest he)
    rw [← (hs.kept hkept).entries]
    exact State.mem_moveOut_entries ..

theorem ctxin_takes (c : Nat) (es : List Nat) (d a : Reg) : Does (Takes c es) (ctxin d a) := by
  have hR := EntriesKept.carries
  have hfull (caps : List Cap) : Does EntriesKept (chargeCaps caps >>= fun _ => wr d allOnes) :=
    Does.bind hR (chargeCaps_kept caps) fun _ => wr_kept _ _
  unfold ctxin
  refine waiting_takes (Takes.keptThen supOnly_kept fun _ => Takes.keptThen (rd_kept a) fun v =>
    Takes.keptThen (readCtxDesc_kept v) fun (x, caps) => ?_) _ _
  refine Takes.getThen fun s hs => ?_
  rw [hs.core]
  refine Takes.whenKept (Does.trapAt hR _ _ _ _) (Takes.keptThen (imageAddr_kept _) fun _ => Takes.keptThen (Does.whoMe hR) fun w =>
    Takes.getThen fun _ _ => ?_)
  split
  · exact Takes.of_kept (hfull caps)
  -- Room for some context there is; the header says how much this one needs.
  refine Takes.getThen fun _ _ => Takes.whenKept (Does.trapAt hR _ _ _ _) (Takes.keptThen (engineRead_kept w _ _) fun h => ?_)
  dsimp only
  split
  · exact Takes.of_kept (Does.trapAt hR _ _ _ _)
  refine Takes.whenKept (Does.trapAt hR _ _ _ _) (Takes.getThen fun u hu => ?_)
  split
  · exact Takes.of_kept (hfull caps)
  next i hi =>
  -- The entry is chosen in `u`; what comes before the context is put there keeps the entries.
  refine Takes.getThen fun _ _ => Takes.whenKept (Does.trapAt hR _ _ _ _) (Takes.keptThen (engineRead_kept w _ _) fun bs => ?_)
  refine Takes.getThen fun _ _ => Takes.whenKept (Does.trapAt hR _ _ _ _) (Takes.getThen fun _ _ => ?_)
  refine Takes.thenKept (fun t ht => ?_) fun _ => Does.bind hR (chargeCaps_kept caps) fun _ => wr_kept _ _
  refine ((ht.kept (.after (.placeWindow ..) ?_)).put (hu.lowest hi) _).kept (.after (.dropSaved ..) (.takeRef ..))
  exact .of_cores rfl rfl

/-- Settles O57: before they take an entry, neither CTXSAVE nor CTXIN changes which are in use, and the entry is the one that the search
for room answers. -/
theorem lowestCacheEntry : Obligations.LowestCacheEntry := by
  unfold Obligations.LowestCacheEntry
  intro s t d a i hrun hnew hfree
  have hs : InUse s.cur.core (s.core s.cur.core).entries s := ⟨rfl, rfl⟩
  have htook : TookLowest s.cur.core (s.core s.cur.core).entries t := by
    rcases hrun with h | h
    · exact run_takes (ctxsave_takes _ _ d a) hs h
    · exact run_takes (ctxin_takes _ _ d a) hs h
  exact htook i hnew hfree

end Sys2Proof.Machine
end

section
/-! Encoding and decoding (chapter 05): the words of an encoding, and what the decoder makes of them. -/

namespace Sys2Proof

/-! ## The words of an encoding (R70 to R75, R88) -/

/-- A word that stands before the base word (R70). -/
def PrefixWord (h : Nat) : Prop := h / 4096 = 15 ∧ h < 65536

/-- Words of prefixes, the first four at most, bring the decoder to what they say (R70, R80). -/
theorem decodeFrom_prefixWords {ws : List Nat} (rest : List H16) {p q : Pfx} {n : Nat} (hw : ∀ h ∈ ws, PrefixWord h)
    (hn : n + ws.length ≤ 4) (hq : ws.foldlM Pfx.push p = some q) :
    decodeFrom p n (ws.map (BitVec.ofNat 16) ++ rest) = decodeFrom q (n + ws.length) rest := by
  induction ws generalizing p n with
  | nil =>
    obtain rfl : p = q := by simpa using hq
    rfl
  | cons h ws ih =>
    obtain ⟨hfirst, hrest⟩ := List.forall_mem_cons.mp hw
    have hnat : (BitVec.ofNat 16 h).toNat = h := Nat.mod_eq_of_lt hfirst.2
    rw [List.length_cons] at hn
    rw [List.foldlM_cons] at hq
    obtain ⟨r, hr, hq⟩ := Option.bind_eq_some_iff.mp hq
    rw [List.map_cons, List.cons_append, decodeFrom_prefixWord (by rw [hnat, hfirst.1]) (by omega), hnat, hr, Option.bind_some,
      ih hrest (by omega) hq, List.length_cons]
    congr 1
    omega

/-- The MOD that says nothing (R74). -/
theorem Mod.eq_none_of_isNone {m : Mod} (h : m.isNone = true) : m = Mod.none := by
  obtain ⟨o, s, x⟩ := m
  simp only [Mod.isNone, Bool.and_eq_true, decide_eq_true_eq] at h
  obtain ⟨⟨ho, hs⟩, hx⟩ := h
  simp [Mod.none, ← BitVec.toNat_inj, ho, hs, hx]

namespace Fields

/-- Whether a REX word stands in the encoding (R72, R88). -/
def needsRex (f : Fields) : Bool := f.x.isSome || f.dh || f.ah || f.bh

/-- What the decoder knows before the base word of an encoding. -/
def pfx (f : Fields) : Pfx :=
  { page := f.page, pageSeen := decide (f.page ≠ 0), rexSeen := f.needsRex, x := f.x, dh := f.dh, ah := f.ah, bh := f.bh
    modSeen := !f.mod.isNone, mod := f.mod, imx := f.imx }

/-- Fields that fit the words of an encoding. -/
structure Fit (f : Fields) : Prop where
  page : f.page ≤ 6
  base : f.base / 4096 < 15
  scope : f.mod.scope.toNat ≤ 5
  imxCount : f.imx.length ≤ 3
  imxBody : ∀ b ∈ f.imx, b < 1024

variable {f : Fields} {p : Pfx}

theorem bit_le (b : Bool) : bit b ≤ 1 := by cases b <;> decide

theorem bitAt_bits (b : Bool) {h n : Nat} (hk : h / 2 ^ n % 2 = bit b) : bitAt h n = b := by
  cases b <;> simp [bitAt, bit, hk]

theorem pageWords_prefix (hf : f.Fit) : ∀ h ∈ f.pageWords, PrefixWord h := by
  have := hf.page
  intro h hh
  unfold pageWords at hh
  split at hh
  · simp at hh
  · rw [List.mem_singleton] at hh
    exact ⟨by omega, by omega⟩

theorem push_pageWords (hf : f.Fit) (h0 : p.page = 0) (hs : p.pageSeen = false) :
    f.pageWords.foldlM Pfx.push p = some { p with page := f.page, pageSeen := decide (f.page ≠ 0) } := by
  have := hf.page
  unfold pageWords
  split
  · next h => simp [h, ← h0, ← hs]
  · next h =>
    have hkind : (0xF800 + f.page * 4) / 1024 % 4 = 2 := by omega
    have hpage : (0xF800 + f.page * 4) / 4 % 256 = f.page := by omega
    have hlow : (0xF800 + f.page * 4) % 4 = 0 := by omega
    simp [Pfx.push, hkind, hpage, hlow, hs, h, hf.page]

theorem rexWords_prefix : ∀ h ∈ f.rexWords, PrefixWord h := by
  have := bit_le f.dh
  have := bit_le f.ah
  have := bit_le f.bh
  intro h hh
  unfold rexWords at hh
  split at hh
  · next r _ =>
    have := r.isLt
    rw [List.mem_singleton] at hh
    exact ⟨by omega, by omega⟩
  · split at hh
    · rw [List.mem_singleton] at hh
      exact ⟨by omega, by omega⟩
    · simp at hh

/-- A REX word says the third register and the three high bits (R72). -/
theorem push_rexWord {x : Nat} (hx : x < 32) (hs : p.rexSeen = false) (some? dh ah bh : Bool)
    (hsome : some? = false → x = 0) :
    p.push (0xF400 + bit some? * 512 + x * 16 + bit dh * 8 + bit ah * 4 + bit bh * 2) =
      Option.some { p with rexSeen := true, x := if some? then Option.some (BitVec.ofNat 5 x) else none, dh := dh, ah := ah, bh := bh } := by
  have := bit_le some?
  have := bit_le dh
  have := bit_le ah
  have := bit_le bh
  generalize hw : 0xF400 + bit some? * 512 + x * 16 + bit dh * 8 + bit ah * 4 + bit bh * 2 = w
  have hkind : w / 1024 % 4 = 1 := by omega
  have hreg : w / 16 % 32 = x := by omega
  have h9 : bitAt w 9 = some? := bitAt_bits some? (by omega)
  have h3 : bitAt w 3 = dh := bitAt_bits dh (by omega)
  have h2 : bitAt w 2 = ah := bitAt_bits ah (by omega)
  have h1 : bitAt w 1 = bh := bitAt_bits bh (by omega)
  have h0 : bitAt w 0 = false := decide_eq_false (by omega)
  cases some? <;> simp_all [Pfx.push]

theorem push_rexWords (hs : p.rexSeen = false) (hx : p.x = none) (hd : p.dh = false) (ha : p.ah = false) (hb : p.bh = false) :
    f.rexWords.foldlM Pfx.push p =
      some { p with rexSeen := f.needsRex, x := f.x, dh := f.dh, ah := f.ah, bh := f.bh } := by
  unfold rexWords
  split
  · next r h =>
    have hw : p.push (0xF400 + 512 + r.toNat * 16 + bit f.dh * 8 + bit f.ah * 4 + bit f.bh * 2) = _ :=
      push_rexWord r.isLt hs true f.dh f.ah f.bh (by simp)
    simp [hw, needsRex, h]
  · next h =>
    split
    · next hbits =>
      have hw : p.push (0xF400 + bit f.dh * 8 + bit f.ah * 4 + bit f.bh * 2) = _ :=
        push_rexWord (x := 0) (by decide) hs false f.dh f.ah f.bh (by simp)
      simpa [hw, needsRex, h] using hbits
    · next hbits =>
      simp only [Bool.or_eq_true, not_or, Bool.not_eq_true] at hbits
      obtain ⟨⟨h1, h2⟩, h3⟩ := hbits
      cases p
      simp_all [needsRex]

theorem modWords_prefix (hf : f.Fit) : ∀ h ∈ f.modWords, PrefixWord h := by
  have := hf.scope
  intro h hh
  unfold modWords at hh
  split at hh
  · simp at hh
  · rw [List.mem_singleton] at hh
    exact ⟨by omega, by omega⟩

theorem push_modWords (hf : f.Fit) (hs : p.modSeen = false) (hm : p.mod = Mod.none) :
    f.modWords.foldlM Pfx.push p = some { p with modSeen := !f.mod.isNone, mod := f.mod } := by
  unfold modWords
  split
  · next h =>
    have := Mod.eq_none_of_isNone h
    cases p
    simp_all
  · next h =>
    have hw := Pfx.push_modWord hs f.mod
    rw [toNat_modWord, if_pos hf.scope] at hw
    simp only [List.foldlM_cons, List.foldlM_nil]
    rw [hw]
    simp [h]

theorem imxWords_prefix (hf : f.Fit) : ∀ h ∈ f.imx.map (fun b => 0xF000 + b), PrefixWord h := by
  intro h hh
  obtain ⟨b, hb, rfl⟩ := List.mem_map.mp hh
  have := hf.imxBody b hb
  exact ⟨by omega, by omega⟩

theorem push_imxWords {bs : List Nat} (hb : ∀ b ∈ bs, b < 1024) (hn : p.imx.length + bs.length ≤ 3) :
    (bs.map fun b => 0xF000 + b).foldlM Pfx.push p = some { p with imx := p.imx ++ bs } := by
  induction bs generalizing p with
  | nil => simp
  | cons b bs ih =>
    obtain ⟨hfirst, hrest⟩ := List.forall_mem_cons.mp hb
    rw [List.length_cons] at hn
    have hkind : (0xF000 + b) / 1024 % 4 = 0 := by omega
    have hbody : (0xF000 + b) % 1024 = b := by omega
    have hroom : ¬ p.imx.length ≥ 3 := by omega
    have hpush : p.push (0xF000 + b) = some { p with imx := p.imx ++ [b] } := by simp [Pfx.push, hkind, hbody, hroom]
    rw [List.map_cons, List.foldlM_cons, hpush]
    refine (ih (p := { p with imx := p.imx ++ [b] }) hrest ?_).trans ?_
    · simpa using by omega
    · simp

/-- Every word of an encoding but its last. -/
def prefixWords (f : Fields) : List Nat := f.pageWords ++ f.rexWords ++ f.modWords ++ f.imx.map fun b => 0xF000 + b

theorem words_eq (f : Fields) : f.words = f.prefixWords ++ [f.base] := rfl

theorem prefixWords_prefix (hf : f.Fit) : ∀ h ∈ f.prefixWords, PrefixWord h := by
  intro h hh
  simp only [prefixWords, List.mem_append] at hh
  obtain ((hh | hh) | hh) | hh := hh
  · exact pageWords_prefix hf h hh
  · exact rexWords_prefix h hh
  · exact modWords_prefix hf h hh
  · exact imxWords_prefix hf h hh

/-- The words before the base word say what the fields hold. -/
theorem push_prefixWords (hf : f.Fit) : f.prefixWords.foldlM Pfx.push Pfx.init = some f.pfx := by
  simp only [prefixWords, List.foldlM_append]
  rw [push_pageWords hf rfl rfl]
  simp only [Option.bind_eq_bind, Option.bind_some]
  rw [push_rexWords rfl rfl rfl rfl rfl, Option.bind_some, push_modWords hf rfl rfl, Option.bind_some,
    push_imxWords hf.imxBody (by simpa [Pfx.init] using hf.imxCount)]
  rfl

/-- The decoder judges an encoding's base word after what its prefixes say (R80). -/
theorem decode_words (hf : f.Fit) (hn : f.words.length ≤ 5) (rest : List H16) :
    decode (f.words.map (BitVec.ofNat 16) ++ rest) = (decodeBase f.pfx f.base).map fun i => (i, f.words.length) := by
  have hbase := hf.base
  have hnat : (BitVec.ofNat 16 f.base).toNat = f.base := Nat.mod_eq_of_lt (by omega)
  rw [words_eq, List.length_append, List.length_singleton] at hn ⊢
  rw [List.map_append, List.append_assoc, decode,
    decodeFrom_prefixWords _ (prefixWords_prefix hf) (by omega) (push_prefixWords hf)]
  simp only [List.map_cons, List.map_nil, List.singleton_append, Nat.zero_add]
  rw [decodeFrom_base (by omega), hnat]

end Fields
end Sys2Proof
end

section
/-! Fields, immediates and IMX words of an encoding (R69 to R71, R75). -/

namespace Sys2Proof

/-! ## Fields of a base word -/

theorem hiReg_hiOf {r : Reg} {v : Nat} (h : v % 16 = loOf r) : hiReg (hiOf r) v = r := by
  have := r.isLt
  have hsum : (if hiOf r then 16 else 0) + v % 16 = r.toNat := by
    rw [h]
    simp only [hiOf, loOf, decide_eq_true_eq]
    split <;> omega
  rw [hiReg, hsum, BitVec.ofNat_toNat, BitVec.setWidth_eq]

@[simp] theorem hiOf_hiReg (b : Bool) (v : Nat) : hiOf (hiReg b v) = b := by
  have := Nat.mod_lt v (show 16 > 0 by decide)
  cases b <;> simp [hiOf, hiReg] <;> omega

theorem f3_eq {p : BitVec 3} {h lo : Nat} (e : h / 2 ^ lo % 8 = p.toNat) : f3 h lo = p := by
  rw [f3, ← BitVec.toNat_inj, BitVec.toNat_ofNat, ← e]

theorem f2_eq {p : BitVec 2} {h lo : Nat} (e : h / 2 ^ lo % 4 = p.toNat) : f2 h lo = p := by
  rw [f2, ← BitVec.toNat_inj, BitVec.toNat_ofNat, ← e]

@[simp] theorem Mod.isNone_none : Mod.none.isNone = true := rfl

/-! ## Immediates (R71, R78) -/

theorem signedField_mod {n : Nat} {v : W64} (hn : 0 < n) (hn64 : n ≤ 64) (h : fitsSigned n v = true) :
    signedField n (v.toNat % 2 ^ n) = v := by
  obtain ⟨k, rfl⟩ : ∃ k, n = k + 1 := ⟨n - 1, by omega⟩
  have hv := v.isLt
  have hdiv : (2 : Nat) ^ 64 = 2 ^ (k + 1) * 2 ^ (63 - k) := by rw [← Nat.pow_add]; congr 1; omega
  have hpos := Nat.two_pow_pos (63 - k)
  have hk : 2 ^ (k + 1) = 2 * 2 ^ k := by rw [Nat.pow_succ]; omega
  simp only [fitsSigned, Nat.add_sub_cancel, Bool.or_eq_true, decide_eq_true_eq] at h
  rw [signedField, Nat.add_sub_cancel]
  obtain h | h := h
  · rw [Nat.mod_eq_of_lt (by omega), if_pos h, BitVec.ofNat_toNat, BitVec.setWidth_eq]
  · -- A negative value stands at the top of the 64-bit numbers.
    obtain ⟨e, he⟩ : ∃ e, v.toNat = e + 2 ^ (k + 1) * (2 ^ (63 - k) - 1) :=
      ⟨v.toNat - 2 ^ (k + 1) * (2 ^ (63 - k) - 1), by rw [Nat.mul_sub_one, ← hdiv]; omega⟩
    rw [Nat.mul_sub_one, ← hdiv] at he
    have hmod : v.toNat % 2 ^ (k + 1) = e := by
      have hle : 2 ^ (k + 1) ≤ 2 ^ 64 := Nat.pow_le_pow_right (by decide) (by omega)
      rw [he, hdiv, ← Nat.mul_sub_one, Nat.add_mul_mod_self_left, Nat.mod_eq_of_lt (by omega)]
    have hle : 2 ^ (k + 1) ≤ 2 ^ 64 := Nat.pow_le_pow_right (by decide) (by omega)
    rw [hmod, if_neg (by omega), show 2 ^ 64 - 2 ^ (k + 1) + e = v.toNat by omega, BitVec.ofNat_toNat, BitVec.setWidth_eq]

theorem imxBodies_length {n : Nat} (hn : n ≤ 3) (w v : Nat) : (imxBodies n w v).length = n := by
  match n, hn with
  | 0, _ => rfl
  | 1, _ => rfl
  | 2, _ => rfl
  | 3, _ => rfl

theorem imxBodies_lt (n w v : Nat) : ∀ b ∈ imxBodies n w v, b < 1024 := by
  have hlt : ∀ x, x % 1024 < 1024 := fun x => Nat.mod_lt x (by decide)
  unfold imxBodies
  split <;> simp [hlt]

/-- The bodies of n IMX words, put together (R71). -/
theorem foldl_imxBodies {n : Nat} (hn : n ≤ 3) (w v : Nat) :
    (imxBodies n w v).foldl (fun acc b => acc * 1024 + b) 0 = v / 2 ^ w % 2 ^ (10 * n) := by
  have h10 : v / 2 ^ (w + 10) = v / 2 ^ w / 1024 := by rw [Nat.pow_add, ← Nat.div_div_eq_div_mul]
  have h20 : v / 2 ^ (w + 20) = v / 2 ^ w / 1048576 := by rw [Nat.pow_add, ← Nat.div_div_eq_div_mul]
  obtain rfl | rfl | rfl | rfl : n = 0 ∨ n = 1 ∨ n = 2 ∨ n = 3 := by omega
  · simp [imxBodies, Nat.mod_one]
  all_goals
    simp only [imxBodies, List.foldl_cons, List.foldl_nil, h10, h20, Nat.reduceMul, Nat.reducePow]
    omega

/-- The bodies of n IMX words and the own field make up the low bits of the value (R71). -/
theorem combined_imxBodies {n : Nat} (hn : n ≤ 3) (w v : Nat) :
    combined (imxBodies n w v) w (v % 2 ^ w) = v % 2 ^ (w + 10 * n) := by
  rw [combined, foldl_imxBodies hn, Nat.pow_add, Nat.mod_mul]
  ring

theorem imxCount_le (bs : Bool) (w : Nat) (v : W64) : imxCount bs w v ≤ 3 := by
  unfold imxCount
  split_ifs <;> omega

/-- With the words that the encoder counts, the value fits (R78, R88). -/
theorem fitsSigned_imxCount {bs : Bool} {w : Nat} {v : W64} (h : fitsSigned (w + 30) v = true) (h0 : imxCount bs w v ≠ 0) :
    fitsSigned (w + 10 * imxCount bs w v) v = true := by
  revert h0
  unfold imxCount
  split_ifs with _ _ h1 h2 _ h1 h2 <;> simp [*]

/-- With no IMX word the own field alone holds the value (R71). -/
theorem fits_of_imxCount_eq_zero {bs : Bool} {w : Nat} {v : W64} (h : imxCount bs w v = 0) :
    (if bs then fitsSigned w v else decide (v.toNat < 2 ^ w)) = true := by
  by_contra hne
  rw [imxCount, if_neg hne] at h
  split_ifs at h

theorem immediate_imxBodies {bs : Bool} {w : Nat} {v : W64} (hw : 0 < w) (hw' : w ≤ 34) (h : fitsSigned (w + 30) v = true) :
    immediate bs (imxBodies (imxCount bs w v) w v.toNat) w (v.toNat % 2 ^ w) = v := by
  have hn := imxCount_le bs w v
  have hlen := imxBodies_length hn w v.toNat
  cases hb : imxBodies (imxCount bs w v) w v.toNat with
  | nil =>
    have h0 : imxCount bs w v = 0 := by rw [← hlen, hb, List.length_nil]
    cases bs with
    | true => exact signedField_mod hw (by omega) (fits_of_imxCount_eq_zero h0)
    | false =>
      have hlt : v.toNat < 2 ^ w := by simpa using fits_of_imxCount_eq_zero h0
      simp only [immediate, Bool.false_eq_true, if_false]
      rw [Nat.mod_eq_of_lt hlt, BitVec.ofNat_toNat, BitVec.setWidth_eq]
  | cons b l =>
    have h0 : imxCount bs w v ≠ 0 := by rw [← hlen, hb, List.length_cons]; omega
    simp only [immediate]
    rw [← hb, combined_imxBodies hn, hlen]
    exact signedField_mod (by omega) (by omega) (fitsSigned_imxCount h h0)

theorem lihCount_le (v : Nat) : lihCount v ≤ 3 := by
  unfold lihCount
  split_ifs <;> omega

theorem combined_lih {v : Nat} (h : v < 2 ^ 32) : combined (imxBodies (lihCount v) 8 v) 8 (v % 256) = v := by
  refine (combined_imxBodies (lihCount_le v) 8 v).trans (Nat.mod_eq_of_lt ?_)
  unfold lihCount
  split_ifs <;> omega

end Sys2Proof
end

section
/-! Each form of the map: what its decoder makes of what its encoder writes (R76 to R79). -/

namespace Sys2Proof

theorem Mod.scope_le_of_okLoad {m : Mod} (h : m.okLoad = true) : m.scope.toNat ≤ 5 := by
  simp only [okLoad, okScope, Bool.and_eq_true, decide_eq_true_eq] at h
  exact h.1.1.1

theorem Mod.scope_le_of_okStore {m : Mod} (h : m.okStore = true) : m.scope.toNat ≤ 5 := by
  simp only [okStore, okScope, Bool.and_eq_true, decide_eq_true_eq] at h
  exact h.1.1.1

theorem Mod.scope_le_of_okChunk {m : Mod} (h : m.okChunk = true) : m.scope.toNat ≤ 5 := by
  simp only [okChunk, okScope, Bool.and_eq_true, decide_eq_true_eq] at h
  exact h.1.1.1

theorem Mod.scope_le_of_okFence {m : Mod} (h : m.okFence = true) : m.scope.toNat ≤ 5 := by
  simp only [okFence, okScope, Bool.and_eq_true, decide_eq_true_eq] at h
  exact h.1.1.1

theorem Mod.scope_le_of_okWake {m : Mod} (h : m.okWake = true) : m.scope.toNat ≤ 5 := by
  simp only [okWake, isNone, Bool.or_eq_true, Bool.and_eq_true, decide_eq_true_eq] at h
  omega

@[simp] theorem Mod.scope_none : Mod.none.scope = 0 := rfl

@[simp] theorem Fields.pfx_page (f : Fields) : f.pfx.page = f.page := rfl

/-- Fields that fit the words of an encoding, and what the decoder answers for them. -/
structure Fields.Gives (f : Fields) (answer : Option Instr) (i : Instr) : Prop where
  fit : f.Fit
  instr : answer = some i

/-! ## Each form gives back what the encoder wrote (R75, R77) -/

theorem formRRX_enc {c : Reg → Reg → Option Reg → Instr} {pg maj fn : Nat} {d a : Reg} {x : Option Reg}
    (hpg : pg ≤ 6) (hmaj : maj < 15) (hfn : fn < 16) :
    (encRRX pg maj fn d a x).Gives (formRRX c (encRRX pg maj fn d a x).pfx (encRRX pg maj fn d a x).base) (c d a x) := by
  obtain ⟨v, hv⟩ : ∃ v, v = maj * 4096 + loOf d * 256 + loOf a * 16 + fn := ⟨_, rfl⟩
  have hd : hiReg (hiOf d) (v / 256) = d := hiReg_hiOf (by simp only [loOf] at hv ⊢; omega)
  have ha : hiReg (hiOf a) (v / 16) = a := hiReg_hiOf (by simp only [loOf] at hv ⊢; omega)
  have hlt : v / 4096 < 15 := by simp only [loOf] at hv; omega
  refine ⟨⟨hpg, ?_, ?_, ?_, ?_⟩, ?_⟩ <;>
    simp [formRRX, accept, Pfx.allows, Fields.pfx, encRRX, Fields.bare, ← hv, Pfx.rD, hd, Pfx.rA, ha, hlt]

theorem formRR_enc {c : Reg → Reg → Instr} {pg maj fn : Nat} {d a : Reg}
    (hpg : pg ≤ 6) (hmaj : maj < 15) (hfn : fn < 16) :
    (encRR pg maj fn d a).Gives (formRR c (encRR pg maj fn d a).pfx (encRR pg maj fn d a).base) (c d a) := by
  obtain ⟨v, hv⟩ : ∃ v, v = maj * 4096 + loOf d * 256 + loOf a * 16 + fn := ⟨_, rfl⟩
  have hd : hiReg (hiOf d) (v / 256) = d := hiReg_hiOf (by simp only [loOf] at hv ⊢; omega)
  have ha : hiReg (hiOf a) (v / 16) = a := hiReg_hiOf (by simp only [loOf] at hv ⊢; omega)
  have hlt : v / 4096 < 15 := by simp only [loOf] at hv; omega
  refine ⟨⟨hpg, ?_, ?_, ?_, ?_⟩, ?_⟩ <;>
    simp [formRR, accept, Pfx.allows, Fields.pfx, encRR, encRRX, Fields.bare, ← hv, Pfx.rD, hd, Pfx.rA, ha, hlt]

theorem formCMP_enc {c : Num3 → Reg → Option Reg → Instr} {pg maj fn : Nat} {p : Num3} {a : Reg} {x : Option Reg}
    (hpg : pg ≤ 6) (hmaj : maj < 15) (hfn : fn < 16) :
    (encCMP pg maj fn p a x).Gives (formCMP c (encCMP pg maj fn p a x).pfx (encCMP pg maj fn p a x).base) (c p a x) := by
  obtain ⟨v, hv⟩ : ∃ v, v = maj * 4096 + p.toNat * 256 + loOf a * 16 + fn := ⟨_, rfl⟩
  have hp : f3 v 8 = p := f3_eq (by simp only [loOf] at hv; omega)
  have ha : hiReg (hiOf a) (v / 16) = a := hiReg_hiOf (by simp only [loOf] at hv ⊢; omega)
  have h11 : bitAt v 11 = false := decide_eq_false (by simp only [loOf] at hv; omega)
  have hlt : v / 4096 < 15 := by simp only [loOf] at hv; omega
  refine ⟨⟨hpg, ?_, ?_, ?_, ?_⟩, ?_⟩ <;>
    simp [formCMP, accept, Pfx.allows, Fields.pfx, encCMP, Fields.bare, ← hv, hp, Pfx.rA, ha, h11, hlt]

theorem formDI_enc {c : Reg → W64 → Instr} {pg maj fn : Nat} {d : Reg} {imm : W64}
    (hpg : pg ≤ 6) (hmaj : maj < 15) (hw : fitsSigned 38 imm = true) :
    (encDI pg maj fn d imm).Gives (formDI c (encDI pg maj fn d imm).pfx (encDI pg maj fn d imm).base) (c d imm) := by
  obtain ⟨v, hv⟩ : ∃ v, v = maj * 4096 + loOf d * 256 + imm.toNat % 256 := ⟨_, rfl⟩
  have hd : hiReg (hiOf d) (v / 256) = d := hiReg_hiOf (by simp only [loOf] at hv ⊢; omega)
  have hown : v % 256 = imm.toNat % 256 := by simp only [loOf] at hv; omega
  have himm : immediate true (imxBodies (imxCount true 8 imm) 8 imm.toNat) 8 (imm.toNat % 256) = imm :=
    immediate_imxBodies (by decide) (by decide) hw
  have hlt : v / 4096 < 15 := by simp only [loOf] at hv; omega
  refine ⟨⟨hpg, ?_, ?_, ?_, imxBodies_lt _ _ _⟩, ?_⟩ <;>
    simp [formDI, accept, Pfx.allows, Fields.pfx, encDI, Fields.bare, ← hv, Pfx.rD, hd, hown, himm, imxBodies_length (imxCount_le _ _ _),
      imxCount_le, hlt]

theorem formLIH_enc {c : Reg → W32 → Instr} {pg maj fn : Nat} {d : Reg} {imm : W32}
    (hpg : pg ≤ 6) (hmaj : maj < 15) :
    (encLIH pg maj fn d imm).Gives (formLIH c (encLIH pg maj fn d imm).pfx (encLIH pg maj fn d imm).base) (c d imm) := by
  obtain ⟨v, hv⟩ : ∃ v, v = maj * 4096 + loOf d * 256 + imm.toNat % 256 := ⟨_, rfl⟩
  have hd : hiReg (hiOf d) (v / 256) = d := hiReg_hiOf (by simp only [loOf] at hv ⊢; omega)
  have hown : v % 256 = imm.toNat % 256 := by simp only [loOf] at hv; omega
  have himm := combined_lih imm.isLt
  have hbound : imm.toNat < 4294967296 := imm.isLt
  have hlt : v / 4096 < 15 := by simp only [loOf] at hv; omega
  refine ⟨⟨hpg, ?_, ?_, ?_, imxBodies_lt _ _ _⟩, ?_⟩ <;>
    simp [formLIH, accept, Pfx.allows, Fields.pfx, encLIH, Fields.bare, ← hv, Pfx.rD, hd, hown, himm, hbound, imxBodies_length
      (lihCount_le _), lihCount_le, hlt]

theorem formSH_enc {c : Reg → BitVec 6 → Instr} {pg maj fn : Nat} {d : Reg} {n : BitVec 6}
    (hpg : pg ≤ 6) (hmaj : maj < 15) (hfn : fn < 4) :
    (encSH pg maj fn d n).Gives (formSH c (encSH pg maj fn d n).pfx (encSH pg maj fn d n).base) (c d n) := by
  obtain ⟨v, hv⟩ : ∃ v, v = maj * 4096 + loOf d * 256 + fn * 64 + n.toNat := ⟨_, rfl⟩
  have hd : hiReg (hiOf d) (v / 256) = d := hiReg_hiOf (by simp only [loOf] at hv ⊢; omega)
  have hcount : BitVec.ofNat 6 v = n := by
    rw [← BitVec.toNat_inj, BitVec.toNat_ofNat]
    omega
  have hlt : v / 4096 < 15 := by simp only [loOf] at hv; omega
  refine ⟨⟨hpg, ?_, ?_, ?_, ?_⟩, ?_⟩ <;>
    simp [formSH, accept, Pfx.allows, Fields.pfx, encSH, Fields.bare, ← hv, Pfx.rD, hd, hcount, hlt]

theorem formCMPI_enc {c : Num3 → Reg → BitVec 2 → W64 → Instr} {pg maj fn : Nat} {p : Num3} {a : Reg} {c2 : BitVec 2} {imm : W64}
    (hpg : pg ≤ 6) (hmaj : maj < 15) (hw : fitsSigned 33 imm = true) :
    (encCMPI pg maj fn p a c2 imm).Gives (formCMPI c (encCMPI pg maj fn p a c2 imm).pfx (encCMPI pg maj fn p a c2 imm).base) (c p a c2
      imm) := by
  obtain ⟨v, hv⟩ : ∃ v, v = maj * 4096 + p.toNat * 512 + loOf a * 32 + c2.toNat * 8 + imm.toNat % 8 := ⟨_, rfl⟩
  have hp : f3 v 9 = p := f3_eq (by simp only [loOf] at hv; omega)
  have ha : hiReg (hiOf a) (v / 32) = a := hiReg_hiOf (by simp only [loOf] at hv ⊢; omega)
  have hc2 : f2 v 3 = c2 := f2_eq (by simp only [loOf] at hv; omega)
  have hown : v % 8 = imm.toNat % 8 := by simp only [loOf] at hv; omega
  have himm : immediate true (imxBodies (imxCount true 3 imm) 3 imm.toNat) 3 (imm.toNat % 8) = imm :=
    immediate_imxBodies (by decide) (by decide) hw
  have hlt : v / 4096 < 15 := by simp only [loOf] at hv; omega
  refine ⟨⟨hpg, ?_, ?_, ?_, imxBodies_lt _ _ _⟩, ?_⟩ <;>
    simp [formCMPI, accept, Pfx.allows, Fields.pfx, encCMPI, Fields.bare, ← hv, hp, Pfx.rA, ha, hc2, hown, himm, imxBodies_length
      (imxCount_le _ _ _), imxCount_le, hlt]

theorem formBR_enc {c : W64 → Instr} {pg maj fn : Nat} {off : W64}
    (hpg : pg ≤ 6) (hmaj : maj < 15) (hw : fitsSigned 42 off = true) :
    (encBR pg maj fn off).Gives (formBR c (encBR pg maj fn off).pfx (encBR pg maj fn off).base) (c off) := by
  obtain ⟨v, hv⟩ : ∃ v, v = maj * 4096 + off.toNat % 4096 := ⟨_, rfl⟩
  have hown : v % 4096 = off.toNat % 4096 := by omega
  have himm : immediate true (imxBodies (imxCount true 12 off) 12 off.toNat) 12 (off.toNat % 4096) = off :=
    immediate_imxBodies (by decide) (by decide) hw
  have hlt : v / 4096 < 15 := by omega
  refine ⟨⟨hpg, ?_, ?_, ?_, imxBodies_lt _ _ _⟩, ?_⟩ <;>
    simp [formBR, accept, Pfx.allows, Fields.pfx, encBR, Fields.bare, ← hv, hown, himm, imxBodies_length (imxCount_le _ _ _), imxCount_le,
      hlt]

theorem formBP_enc {c : Num3 → Bool → W64 → Instr} {pg maj fn : Nat} {p : Num3} {sense : Bool} {off : W64}
    (hpg : pg ≤ 6) (hmaj : maj < 15) (hw : fitsSigned 38 off = true) :
    (encBP pg maj fn p sense off).Gives (formBP c (encBP pg maj fn p sense off).pfx (encBP pg maj fn p sense off).base) (c p sense off) :=
      by
  obtain ⟨v, hv⟩ : ∃ v, v = maj * 4096 + p.toNat * 512 + bit sense * 256 + off.toNat % 256 := ⟨_, rfl⟩
  have := Fields.bit_le sense
  have hp : f3 v 9 = p := f3_eq (by omega)
  have hsense : bitAt v 8 = sense := Fields.bitAt_bits sense (by omega)
  have hown : v % 256 = off.toNat % 256 := by omega
  have himm : immediate true (imxBodies (imxCount true 8 off) 8 off.toNat) 8 (off.toNat % 256) = off :=
    immediate_imxBodies (by decide) (by decide) hw
  have hlt : v / 4096 < 15 := by omega
  refine ⟨⟨hpg, ?_, ?_, ?_, imxBodies_lt _ _ _⟩, ?_⟩ <;>
    simp [formBP, accept, Pfx.allows, Fields.pfx, encBP, Fields.bare, ← hv, hp, hsense, hown, himm, imxBodies_length (imxCount_le _ _ _),
      imxCount_le, hlt]

theorem formA_enc {c : Reg → Instr} {pg maj fn : Nat} {a : Reg}
    (hpg : pg ≤ 6) (hmaj : maj < 15) (hfn : fn < 16) :
    (encA pg maj fn a).Gives (formA c (encA pg maj fn a).pfx (encA pg maj fn a).base) (c a) := by
  obtain ⟨v, hv⟩ : ∃ v, v = maj * 4096 + loOf a * 16 + fn := ⟨_, rfl⟩
  have ha : hiReg (hiOf a) (v / 16) = a := hiReg_hiOf (by simp only [loOf] at hv ⊢; omega)
  have hz : v / 256 % 16 = 0 := by simp only [loOf] at hv; omega
  have hlt : v / 4096 < 15 := by simp only [loOf] at hv; omega
  refine ⟨⟨hpg, ?_, ?_, ?_, ?_⟩, ?_⟩ <;>
    simp [formA, accept, Pfx.allows, Fields.pfx, encA, Fields.bare, ← hv, Pfx.rA, ha, hz, hlt]

theorem formD_enc {c : Reg → Instr} {pg maj fn : Nat} {d : Reg}
    (hpg : pg ≤ 6) (hmaj : maj < 15) (hfn : fn < 16) :
    (encD pg maj fn d).Gives (formD c (encD pg maj fn d).pfx (encD pg maj fn d).base) (c d) := by
  obtain ⟨v, hv⟩ : ∃ v, v = maj * 4096 + loOf d * 256 + fn := ⟨_, rfl⟩
  have hd : hiReg (hiOf d) (v / 256) = d := hiReg_hiOf (by simp only [loOf] at hv ⊢; omega)
  have hz : v / 16 % 16 = 0 := by simp only [loOf] at hv; omega
  have hlt : v / 4096 < 15 := by simp only [loOf] at hv; omega
  refine ⟨⟨hpg, ?_, ?_, ?_, ?_⟩, ?_⟩ <;>
    simp [formD, accept, Pfx.allows, Fields.pfx, encD, Fields.bare, ← hv, Pfx.rD, hd, hz, hlt]

theorem formNONE_enc {c : Instr} {pg maj fn : Nat}
    (hpg : pg ≤ 6) (hmaj : maj < 15) (hfn : fn < 16) :
    (encNONE pg maj fn).Gives (formNONE c (encNONE pg maj fn).pfx (encNONE pg maj fn).base) c := by
  obtain ⟨v, hv⟩ : ∃ v, v = maj * 4096 + fn := ⟨_, rfl⟩
  have hz : v / 16 % 256 = 0 := by omega
  have hlt : v / 4096 < 15 := by omega
  refine ⟨⟨hpg, ?_, ?_, ?_, ?_⟩, ?_⟩ <;>
    simp [formNONE, accept, Pfx.allows, Fields.pfx, encNONE, Fields.bare, ← hv, hz, hlt]

theorem formPP_enc {c : Num3 → Num3 → Instr} {pg maj fn : Nat} {d a : Num3}
    (hpg : pg ≤ 6) (hmaj : maj < 15) (hfn : fn < 16) :
    (encPP pg maj fn d a).Gives (formPP c (encPP pg maj fn d a).pfx (encPP pg maj fn d a).base) (c d a) := by
  obtain ⟨v, hv⟩ : ∃ v, v = maj * 4096 + d.toNat * 256 + a.toNat * 16 + fn := ⟨_, rfl⟩
  have hd : f3 v 8 = d := f3_eq (by omega)
  have ha : f3 v 4 = a := f3_eq (by omega)
  have h11 : bitAt v 11 = false := decide_eq_false (by omega)
  have h7 : bitAt v 7 = false := decide_eq_false (by omega)
  have hlt : v / 4096 < 15 := by omega
  refine ⟨⟨hpg, ?_, ?_, ?_, ?_⟩, ?_⟩ <;>
    simp [formPP, accept, Pfx.allows, Fields.pfx, encPP, Fields.bare, ← hv, hd, ha, h11, h7, hlt]

theorem formLD_enc {c : Reg → Reg → W64 → Mod → Instr} {pg maj fn : Nat} {d a : Reg} {off : W64} {m : Mod}
    (hpg : pg ≤ 6) (hmaj : maj < 15) (hw : fitsSigned 34 off = true) (hm : m.okLoad = true) :
    (encLD pg maj fn d a off m).Gives (formLD c (encLD pg maj fn d a off m).pfx (encLD pg maj fn d a off m).base) (c d a off m) := by
  obtain ⟨v, hv⟩ : ∃ v, v = maj * 4096 + loOf d * 256 + loOf a * 16 + off.toNat % 16 := ⟨_, rfl⟩
  have hd : hiReg (hiOf d) (v / 256) = d := hiReg_hiOf (by simp only [loOf] at hv ⊢; omega)
  have ha : hiReg (hiOf a) (v / 16) = a := hiReg_hiOf (by simp only [loOf] at hv ⊢; omega)
  have hown : v % 16 = off.toNat % 16 := by simp only [loOf] at hv; omega
  have himm : immediate false (imxBodies (imxCount false 4 off) 4 off.toNat) 4 (off.toNat % 16) = off :=
    immediate_imxBodies (by decide) (by decide) hw
  have hlt : v / 4096 < 15 := by simp only [loOf] at hv; omega
  refine ⟨⟨hpg, ?_, ?_, ?_, imxBodies_lt _ _ _⟩, ?_⟩ <;>
    simp [formLD, accept, Pfx.allows, Fields.pfx, encLD, Fields.bare, ← hv, Pfx.rD, hd, Pfx.rA, ha, hown, himm, hm, Mod.scope_le_of_okLoad
      hm, imxBodies_length (imxCount_le _ _ _), imxCount_le, hlt]

theorem formST_enc {c : Reg → Reg → W64 → Mod → Instr} {pg maj fn : Nat} {d a : Reg} {off : W64} {m : Mod}
    (hpg : pg ≤ 6) (hmaj : maj < 15) (hw : fitsSigned 34 off = true) (hm : m.okStore = true) :
    (encST pg maj fn d a off m).Gives (formST c (encST pg maj fn d a off m).pfx (encST pg maj fn d a off m).base) (c d a off m) := by
  obtain ⟨v, hv⟩ : ∃ v, v = maj * 4096 + loOf d * 256 + loOf a * 16 + off.toNat % 16 := ⟨_, rfl⟩
  have hd : hiReg (hiOf d) (v / 256) = d := hiReg_hiOf (by simp only [loOf] at hv ⊢; omega)
  have ha : hiReg (hiOf a) (v / 16) = a := hiReg_hiOf (by simp only [loOf] at hv ⊢; omega)
  have hown : v % 16 = off.toNat % 16 := by simp only [loOf] at hv; omega
  have himm : immediate false (imxBodies (imxCount false 4 off) 4 off.toNat) 4 (off.toNat % 16) = off :=
    immediate_imxBodies (by decide) (by decide) hw
  have hlt : v / 4096 < 15 := by simp only [loOf] at hv; omega
  refine ⟨⟨hpg, ?_, ?_, ?_, imxBodies_lt _ _ _⟩, ?_⟩ <;>
    simp [formST, accept, Pfx.allows, Fields.pfx, encST, encLD, Fields.bare, ← hv, Pfx.rD, hd, Pfx.rA, ha, hown, himm, hm,
      Mod.scope_le_of_okStore hm, imxBodies_length (imxCount_le _ _ _), imxCount_le, hlt]

theorem formFEL_enc {c : Reg → Reg → Mod → Instr} {pg maj fn : Nat} {d a : Reg} {m : Mod}
    (hpg : pg ≤ 6) (hmaj : maj < 15) (hfn : fn < 16) (hm : m.okLoad = true) :
    (encFEL pg maj fn d a m).Gives (formFEL c (encFEL pg maj fn d a m).pfx (encFEL pg maj fn d a m).base) (c d a m) := by
  obtain ⟨v, hv⟩ : ∃ v, v = maj * 4096 + loOf d * 256 + loOf a * 16 + fn := ⟨_, rfl⟩
  have hd : hiReg (hiOf d) (v / 256) = d := hiReg_hiOf (by simp only [loOf] at hv ⊢; omega)
  have ha : hiReg (hiOf a) (v / 16) = a := hiReg_hiOf (by simp only [loOf] at hv ⊢; omega)
  have hlt : v / 4096 < 15 := by simp only [loOf] at hv; omega
  refine ⟨⟨hpg, ?_, ?_, ?_, ?_⟩, ?_⟩ <;>
    simp [formFEL, accept, Pfx.allows, Fields.pfx, encFEL, encRRX, Fields.bare, ← hv, Pfx.rD, hd, Pfx.rA, ha, hm, Mod.scope_le_of_okLoad
      hm, hlt]

theorem formFES_enc {c : Reg → Reg → Mod → Instr} {pg maj fn : Nat} {d a : Reg} {m : Mod}
    (hpg : pg ≤ 6) (hmaj : maj < 15) (hfn : fn < 16) (hm : m.okStore = true) :
    (encFES pg maj fn d a m).Gives (formFES c (encFES pg maj fn d a m).pfx (encFES pg maj fn d a m).base) (c d a m) := by
  obtain ⟨v, hv⟩ : ∃ v, v = maj * 4096 + loOf d * 256 + loOf a * 16 + fn := ⟨_, rfl⟩
  have hd : hiReg (hiOf d) (v / 256) = d := hiReg_hiOf (by simp only [loOf] at hv ⊢; omega)
  have ha : hiReg (hiOf a) (v / 16) = a := hiReg_hiOf (by simp only [loOf] at hv ⊢; omega)
  have hlt : v / 4096 < 15 := by simp only [loOf] at hv; omega
  refine ⟨⟨hpg, ?_, ?_, ?_, ?_⟩, ?_⟩ <;>
    simp [formFES, accept, Pfx.allows, Fields.pfx, encFES, encFEL, encRRX, Fields.bare, ← hv, Pfx.rD, hd, Pfx.rA, ha, hm,
      Mod.scope_le_of_okStore hm, hlt]

theorem formPA_enc {c : Num3 → Reg → Instr} {pg maj fn : Nat} {p : Num3} {a : Reg}
    (hpg : pg ≤ 6) (hmaj : maj < 15) (hfn : fn < 16) :
    (encPA pg maj fn p a).Gives (formPA c (encPA pg maj fn p a).pfx (encPA pg maj fn p a).base) (c p a) := by
  obtain ⟨v, hv⟩ : ∃ v, v = maj * 4096 + p.toNat * 256 + loOf a * 16 + fn := ⟨_, rfl⟩
  have hp : f3 v 8 = p := f3_eq (by simp only [loOf] at hv; omega)
  have ha : hiReg (hiOf a) (v / 16) = a := hiReg_hiOf (by simp only [loOf] at hv ⊢; omega)
  have h11 : bitAt v 11 = false := decide_eq_false (by simp only [loOf] at hv; omega)
  have hlt : v / 4096 < 15 := by simp only [loOf] at hv; omega
  refine ⟨⟨hpg, ?_, ?_, ?_, ?_⟩, ?_⟩ <;>
    simp [formPA, accept, Pfx.allows, Fields.pfx, encPA, encCMP, Fields.bare, ← hv, hp, Pfx.rA, ha, h11, hlt]

theorem formTABL_enc {c : Num3 → Reg → Reg → Mod → Instr} {pg maj fn : Nat} {t : Num3} {a b : Reg} {m : Mod}
    (hpg : pg ≤ 6) (hmaj : maj < 15) (hfn : fn < 2) (hm : m.okLoad = true) :
    (encTABL pg maj fn t a b m).Gives (formTABL c (encTABL pg maj fn t a b m).pfx (encTABL pg maj fn t a b m).base) (c t a b m) := by
  obtain ⟨v, hv⟩ : ∃ v, v = maj * 4096 + t.toNat * 512 + loOf a * 32 + loOf b * 2 + fn := ⟨_, rfl⟩
  have ht : f3 v 9 = t := f3_eq (by simp only [loOf] at hv; omega)
  have ha : hiReg (hiOf a) (v / 32) = a := hiReg_hiOf (by simp only [loOf] at hv ⊢; omega)
  have hb : hiReg (hiOf b) (v / 2) = b := hiReg_hiOf (by simp only [loOf] at hv ⊢; omega)
  have hlt : v / 4096 < 15 := by simp only [loOf] at hv; omega
  refine ⟨⟨hpg, ?_, ?_, ?_, ?_⟩, ?_⟩ <;>
    simp [formTABL, accept, Pfx.allows, Fields.pfx, encTABL, Fields.bare, ← hv, ht, Pfx.rA, ha, Pfx.rB, hb, hm, Mod.scope_le_of_okLoad hm,
      hlt]

theorem formTABS_enc {c : Num3 → Reg → Reg → Mod → Instr} {pg maj fn : Nat} {t : Num3} {a b : Reg} {m : Mod}
    (hpg : pg ≤ 6) (hmaj : maj < 15) (hfn : fn < 2) (hm : m.okStore = true) :
    (encTABS pg maj fn t a b m).Gives (formTABS c (encTABS pg maj fn t a b m).pfx (encTABS pg maj fn t a b m).base) (c t a b m) := by
  obtain ⟨v, hv⟩ : ∃ v, v = maj * 4096 + t.toNat * 512 + loOf a * 32 + loOf b * 2 + fn := ⟨_, rfl⟩
  have ht : f3 v 9 = t := f3_eq (by simp only [loOf] at hv; omega)
  have ha : hiReg (hiOf a) (v / 32) = a := hiReg_hiOf (by simp only [loOf] at hv ⊢; omega)
  have hb : hiReg (hiOf b) (v / 2) = b := hiReg_hiOf (by simp only [loOf] at hv ⊢; omega)
  have hlt : v / 4096 < 15 := by simp only [loOf] at hv; omega
  refine ⟨⟨hpg, ?_, ?_, ?_, ?_⟩, ?_⟩ <;>
    simp [formTABS, accept, Pfx.allows, Fields.pfx, encTABS, encTABL, Fields.bare, ← hv, ht, Pfx.rA, ha, Pfx.rB, hb, hm,
      Mod.scope_le_of_okStore hm, hlt]

theorem formTXL_enc {c : Num3 → Num3 → Reg → Mod → Instr} {pg maj fn : Nat} {t x : Num3} {a : Reg} {m : Mod}
    (hpg : pg ≤ 6) (hmaj : maj < 15) (hfn : fn < 4) (hm : m.okLoad = true) :
    (encTXL pg maj fn t x a m).Gives (formTXL c (encTXL pg maj fn t x a m).pfx (encTXL pg maj fn t x a m).base) (c t x a m) := by
  obtain ⟨v, hv⟩ : ∃ v, v = maj * 4096 + t.toNat * 512 + x.toNat * 64 + loOf a * 4 + fn := ⟨_, rfl⟩
  have ht : f3 v 9 = t := f3_eq (by simp only [loOf] at hv; omega)
  have hx : f3 v 6 = x := f3_eq (by simp only [loOf] at hv; omega)
  have ha : hiReg (hiOf a) (v / 4) = a := hiReg_hiOf (by simp only [loOf] at hv ⊢; omega)
  have hlt : v / 4096 < 15 := by simp only [loOf] at hv; omega
  refine ⟨⟨hpg, ?_, ?_, ?_, ?_⟩, ?_⟩ <;>
    simp [formTXL, accept, Pfx.allows, Fields.pfx, encTXL, Fields.bare, ← hv, ht, hx, Pfx.rA, ha, hm, Mod.scope_le_of_okLoad hm, hlt]

theorem formTXS_enc {c : Num3 → Num3 → Reg → Mod → Instr} {pg maj fn : Nat} {t x : Num3} {a : Reg} {m : Mod}
    (hpg : pg ≤ 6) (hmaj : maj < 15) (hfn : fn < 4) (hm : m.okStore = true) :
    (encTXS pg maj fn t x a m).Gives (formTXS c (encTXS pg maj fn t x a m).pfx (encTXS pg maj fn t x a m).base) (c t x a m) := by
  obtain ⟨v, hv⟩ : ∃ v, v = maj * 4096 + t.toNat * 512 + x.toNat * 64 + loOf a * 4 + fn := ⟨_, rfl⟩
  have ht : f3 v 9 = t := f3_eq (by simp only [loOf] at hv; omega)
  have hx : f3 v 6 = x := f3_eq (by simp only [loOf] at hv; omega)
  have ha : hiReg (hiOf a) (v / 4) = a := hiReg_hiOf (by simp only [loOf] at hv ⊢; omega)
  have hlt : v / 4096 < 15 := by simp only [loOf] at hv; omega
  refine ⟨⟨hpg, ?_, ?_, ?_, ?_⟩, ?_⟩ <;>
    simp [formTXS, accept, Pfx.allows, Fields.pfx, encTXS, encTXL, Fields.bare, ← hv, ht, hx, Pfx.rA, ha, hm, Mod.scope_le_of_okStore hm,
      hlt]

theorem formDRAIN_enc {c : BitVec 2 → Instr} {pg maj fn : Nat} {path : BitVec 2}
    (hpg : pg ≤ 6) (hmaj : maj < 15) (hfn : fn < 16) :
    (encDRAIN pg maj fn path).Gives (formDRAIN c (encDRAIN pg maj fn path).pfx (encDRAIN pg maj fn path).base) (c path) := by
  obtain ⟨v, hv⟩ : ∃ v, v = maj * 4096 + path.toNat * 256 + fn := ⟨_, rfl⟩
  have hpath : f2 v 8 = path := f2_eq (by omega)
  have hz : v / 16 % 16 = 0 := by omega
  have hle : v / 256 % 16 ≤ 3 := by omega
  have hlt : v / 4096 < 15 := by omega
  refine ⟨⟨hpg, ?_, ?_, ?_, ?_⟩, ?_⟩ <;>
    simp [formDRAIN, accept, Pfx.allows, Fields.pfx, encDRAIN, Fields.bare, ← hv, hpath, hz, hle, hlt]

theorem formRECV_enc {c : Reg → Reg → Mod → Instr} {pg maj fn : Nat} {d a : Reg} {m : Mod}
    (hpg : pg ≤ 6) (hmaj : maj < 15) (hfn : fn < 16) (hm : m.okLoad = true) :
    (encRECV pg maj fn d a m).Gives (formRECV c (encRECV pg maj fn d a m).pfx (encRECV pg maj fn d a m).base) (c d a m) := by
  obtain ⟨v, hv⟩ : ∃ v, v = maj * 4096 + loOf d * 256 + loOf a * 16 + fn := ⟨_, rfl⟩
  have hd : hiReg (hiOf d) (v / 256) = d := hiReg_hiOf (by simp only [loOf] at hv ⊢; omega)
  have ha : hiReg (hiOf a) (v / 16) = a := hiReg_hiOf (by simp only [loOf] at hv ⊢; omega)
  have hlt : v / 4096 < 15 := by simp only [loOf] at hv; omega
  refine ⟨⟨hpg, ?_, ?_, ?_, ?_⟩, ?_⟩ <;>
    simp [formRECV, accept, Pfx.allows, Fields.pfx, encRECV, encFEL, encRRX, Fields.bare, ← hv, Pfx.rD, hd, Pfx.rA, ha, hm,
      Mod.scope_le_of_okLoad hm, hlt]

theorem formTTT_enc {c : Num3 → Num3 → Num3 → Instr} {pg maj fn : Nat} {d a b : Num3}
    (hpg : pg ≤ 6) (hmaj : maj < 15) (hfn : fn < 8) :
    (encTTT pg maj fn d a b).Gives (formTTT c (encTTT pg maj fn d a b).pfx (encTTT pg maj fn d a b).base) (c d a b) := by
  obtain ⟨v, hv⟩ : ∃ v, v = maj * 4096 + d.toNat * 512 + a.toNat * 64 + b.toNat * 8 + fn := ⟨_, rfl⟩
  have hd : f3 v 9 = d := f3_eq (by omega)
  have ha : f3 v 6 = a := f3_eq (by omega)
  have hb : f3 v 3 = b := f3_eq (by omega)
  have hlt : v / 4096 < 15 := by omega
  refine ⟨⟨hpg, ?_, ?_, ?_, ?_⟩, ?_⟩ <;>
    simp [formTTT, accept, Pfx.allows, Fields.pfx, encTTT, Fields.bare, ← hv, hd, ha, hb, hlt]

theorem formTT_enc {c : Num3 → Num3 → Instr} {pg maj fn : Nat} {d a : Num3}
    (hpg : pg ≤ 6) (hmaj : maj < 15) (hfn : fn < 8) :
    (encTT pg maj fn d a).Gives (formTT c (encTT pg maj fn d a).pfx (encTT pg maj fn d a).base) (c d a) := by
  obtain ⟨v, hv⟩ : ∃ v, v = maj * 4096 + d.toNat * 512 + a.toNat * 64 + fn := ⟨_, rfl⟩
  have hd : f3 v 9 = d := f3_eq (by omega)
  have ha : f3 v 6 = a := f3_eq (by omega)
  have hz : v / 8 % 8 = 0 := by omega
  have hlt : v / 4096 < 15 := by omega
  refine ⟨⟨hpg, ?_, ?_, ?_, ?_⟩, ?_⟩ <;>
    simp [formTT, accept, Pfx.allows, Fields.pfx, encTT, Fields.bare, ← hv, hd, ha, hz, hlt]

theorem formTCVT_enc {c : Num3 → Num3 → BitVec 4 → Instr} {pg maj fn : Nat} {d a : Num3} {ty : BitVec 4}
    (hpg : pg ≤ 6) (hmaj : maj < 15) (hfn : fn < 8) (hty : ty.toNat ≤ 8) :
    (encTCVT pg maj fn d a ty).Gives (formTCVT c (encTCVT pg maj fn d a ty).pfx (encTCVT pg maj fn d a ty).base) (c d a ty) := by
  obtain ⟨v, hv⟩ : ∃ v, v = maj * 4096 + d.toNat * 512 + a.toNat * 64 + fn := ⟨_, rfl⟩
  have hd : f3 v 9 = d := f3_eq (by omega)
  have ha : f3 v 6 = a := f3_eq (by omega)
  have hz : v / 8 % 8 = 0 := by omega
  have hspec : ty.toNat % 32 = ty.toNat := by omega
  have hok : Mod.okSpec 9 ⟨0#2, 0#3, ty.setWidth 5⟩ = true := by
    simp only [Mod.okSpec, BitVec.toNat_setWidth, Bool.and_eq_true, decide_eq_true_eq]
    exact ⟨⟨rfl, rfl⟩, by omega⟩
  have hlt : v / 4096 < 15 := by omega
  refine ⟨⟨hpg, ?_, ?_, ?_, ?_⟩, ?_⟩ <;>
    simp [formTCVT, accept, Pfx.allows, Fields.pfx, encTCVT, encTT, Fields.bare, ← hv, hd, ha, hz, hspec, hok, hlt]

theorem formTS_enc {c : Num3 → Reg → Instr} {pg maj fn : Nat} {t : Num3} {a : Reg}
    (hpg : pg ≤ 6) (hmaj : maj < 15) (hfn : fn < 32) :
    (encTS pg maj fn t a).Gives (formTS c (encTS pg maj fn t a).pfx (encTS pg maj fn t a).base) (c t a) := by
  obtain ⟨v, hv⟩ : ∃ v, v = maj * 4096 + t.toNat * 512 + loOf a * 32 + fn := ⟨_, rfl⟩
  have ht : f3 v 9 = t := f3_eq (by simp only [loOf] at hv; omega)
  have ha : hiReg (hiOf a) (v / 32) = a := hiReg_hiOf (by simp only [loOf] at hv ⊢; omega)
  have hlt : v / 4096 < 15 := by simp only [loOf] at hv; omega
  refine ⟨⟨hpg, ?_, ?_, ?_, ?_⟩, ?_⟩ <;>
    simp [formTS, accept, Pfx.allows, Fields.pfx, encTS, Fields.bare, ← hv, ht, Pfx.rA, ha, hlt]

theorem formTTS_enc {c : Num3 → Num3 → Reg → Instr} {pg maj fn : Nat} {d a : Num3} {b : Reg}
    (hpg : pg ≤ 6) (hmaj : maj < 15) (hfn : fn < 4) :
    (encTTS pg maj fn d a b).Gives (formTTS c (encTTS pg maj fn d a b).pfx (encTTS pg maj fn d a b).base) (c d a b) := by
  obtain ⟨v, hv⟩ : ∃ v, v = maj * 4096 + d.toNat * 512 + a.toNat * 64 + loOf b * 4 + fn := ⟨_, rfl⟩
  have hd : f3 v 9 = d := f3_eq (by simp only [loOf] at hv; omega)
  have ha : f3 v 6 = a := f3_eq (by simp only [loOf] at hv; omega)
  have hb : hiReg (hiOf b) (v / 4) = b := hiReg_hiOf (by simp only [loOf] at hv ⊢; omega)
  have hlt : v / 4096 < 15 := by simp only [loOf] at hv; omega
  refine ⟨⟨hpg, ?_, ?_, ?_, ?_⟩, ?_⟩ <;>
    simp [formTTS, accept, Pfx.allows, Fields.pfx, encTTS, Fields.bare, ← hv, hd, ha, Pfx.rA, hb, hlt]

theorem formTC_enc {c : Num3 → Num2 → Instr} {pg maj fn : Nat} {d : Num3} {c2 : Num2}
    (hpg : pg ≤ 6) (hmaj : maj < 15) (hfn : fn < 16) :
    (encTC pg maj fn d c2).Gives (formTC c (encTC pg maj fn d c2).pfx (encTC pg maj fn d c2).base) (c d c2) := by
  obtain ⟨v, hv⟩ : ∃ v, v = maj * 4096 + d.toNat * 512 + c2.toNat * 128 + fn := ⟨_, rfl⟩
  have hd : f3 v 9 = d := f3_eq (by omega)
  have hc2 : f2 v 7 = c2 := f2_eq (by omega)
  have hz : v / 16 % 8 = 0 := by omega
  have hlt : v / 4096 < 15 := by omega
  refine ⟨⟨hpg, ?_, ?_, ?_, ?_⟩, ?_⟩ <;>
    simp [formTC, accept, Pfx.allows, Fields.pfx, encTC, Fields.bare, ← hv, hd, hc2, hz, hlt]

theorem formTCT_enc {c : Num3 → Num2 → Num3 → Instr} {pg maj fn : Nat} {d : Num3} {c2 : Num2} {b : Num3}
    (hpg : pg ≤ 6) (hmaj : maj < 15) (hfn : fn < 16) :
    (encTCT pg maj fn d c2 b).Gives (formTCT c (encTCT pg maj fn d c2 b).pfx (encTCT pg maj fn d c2 b).base) (c d c2 b) := by
  obtain ⟨v, hv⟩ : ∃ v, v = maj * 4096 + d.toNat * 512 + c2.toNat * 128 + b.toNat * 16 + fn := ⟨_, rfl⟩
  have hd : f3 v 9 = d := f3_eq (by omega)
  have hc2 : f2 v 7 = c2 := f2_eq (by omega)
  have hb : f3 v 4 = b := f3_eq (by omega)
  have hlt : v / 4096 < 15 := by omega
  refine ⟨⟨hpg, ?_, ?_, ?_, ?_⟩, ?_⟩ <;>
    simp [formTCT, accept, Pfx.allows, Fields.pfx, encTCT, Fields.bare, ← hv, hd, hc2, hb, hlt]

theorem formMMA_enc {c : Num3 → Num3 → Num2 → Instr} {pg maj fn : Nat} {a t : Num3} {w : Num2}
    (hpg : pg ≤ 6) (hmaj : maj < 15) (hfn : fn < 16) :
    (encMMA pg maj fn a t w).Gives (formMMA c (encMMA pg maj fn a t w).pfx (encMMA pg maj fn a t w).base) (c a t w) := by
  obtain ⟨v, hv⟩ : ∃ v, v = maj * 4096 + a.toNat * 512 + t.toNat * 64 + w.toNat * 16 + fn := ⟨_, rfl⟩
  have ha : f3 v 9 = a := f3_eq (by omega)
  have ht : f3 v 6 = t := f3_eq (by omega)
  have hw : f2 v 4 = w := f2_eq (by omega)
  have hlt : v / 4096 < 15 := by omega
  refine ⟨⟨hpg, ?_, ?_, ?_, ?_⟩, ?_⟩ <;>
    simp [formMMA, accept, Pfx.allows, Fields.pfx, encMMA, Fields.bare, ← hv, ha, ht, hw, hlt]

theorem formMMX_enc {c : Num3 → Num3 → Num2 → BitVec 4 → Instr} {pg maj fn : Nat} {a t : Num3} {w : Num2} {sel : BitVec 4}
    (hpg : pg ≤ 6) (hmaj : maj < 15) (hfn : fn < 16) :
    (encMMX pg maj fn a t w sel).Gives (formMMX c (encMMX pg maj fn a t w sel).pfx (encMMX pg maj fn a t w sel).base) (c a t w sel) := by
  obtain ⟨v, hv⟩ : ∃ v, v = maj * 4096 + a.toNat * 512 + t.toNat * 64 + w.toNat * 16 + fn := ⟨_, rfl⟩
  have ha : f3 v 9 = a := f3_eq (by omega)
  have ht : f3 v 6 = t := f3_eq (by omega)
  have hw : f2 v 4 = w := f2_eq (by omega)
  have hspec : sel.toNat % 32 = sel.toNat := by omega
  have hok : Mod.okSpec 16 ⟨0#2, 0#3, sel.setWidth 5⟩ = true := by
    simp only [Mod.okSpec, BitVec.toNat_setWidth, Bool.and_eq_true, decide_eq_true_eq]
    exact ⟨⟨rfl, rfl⟩, by omega⟩
  have hlt : v / 4096 < 15 := by omega
  refine ⟨⟨hpg, ?_, ?_, ?_, ?_⟩, ?_⟩ <;>
    simp [formMMX, accept, Pfx.allows, Fields.pfx, encMMX, encMMA, Fields.bare, ← hv, ha, ht, hw, hspec, hok, hlt]

theorem formWABL_enc {c : Num2 → Reg → Reg → Mod → Instr} {pg maj fn : Nat} {w : Num2} {a b : Reg} {m : Mod}
    (hpg : pg ≤ 6) (hmaj : maj < 15) (hfn : fn < 4) (hm : m.okLoad = true) :
    (encWABL pg maj fn w a b m).Gives (formWABL c (encWABL pg maj fn w a b m).pfx (encWABL pg maj fn w a b m).base) (c w a b m) := by
  obtain ⟨v, hv⟩ : ∃ v, v = maj * 4096 + w.toNat * 1024 + loOf a * 64 + loOf b * 4 + fn := ⟨_, rfl⟩
  have hw : f2 v 10 = w := f2_eq (by simp only [loOf] at hv; omega)
  have ha : hiReg (hiOf a) (v / 64) = a := hiReg_hiOf (by simp only [loOf] at hv ⊢; omega)
  have hb : hiReg (hiOf b) (v / 4) = b := hiReg_hiOf (by simp only [loOf] at hv ⊢; omega)
  have hlt : v / 4096 < 15 := by simp only [loOf] at hv; omega
  refine ⟨⟨hpg, ?_, ?_, ?_, ?_⟩, ?_⟩ <;>
    simp [formWABL, accept, Pfx.allows, Fields.pfx, encWABL, Fields.bare, ← hv, hw, Pfx.rA, ha, Pfx.rB, hb, hm, Mod.scope_le_of_okLoad hm,
      hlt]

theorem formCHUNK_enc {c : Reg → Reg → Mod → Instr} {pg maj fn : Nat} {a b : Reg} {m : Mod}
    (hpg : pg ≤ 6) (hmaj : maj < 15) (hfn : fn < 4) (hm : m.okChunk = true) :
    (encCHUNK pg maj fn a b m).Gives (formCHUNK c (encCHUNK pg maj fn a b m).pfx (encCHUNK pg maj fn a b m).base) (c a b m) := by
  obtain ⟨v, hv⟩ : ∃ v, v = maj * 4096 + loOf a * 64 + loOf b * 4 + fn := ⟨_, rfl⟩
  have ha : hiReg (hiOf a) (v / 64) = a := hiReg_hiOf (by simp only [loOf] at hv ⊢; omega)
  have hb : hiReg (hiOf b) (v / 4) = b := hiReg_hiOf (by simp only [loOf] at hv ⊢; omega)
  have hz : v / 1024 % 4 = 0 := by simp only [loOf] at hv; omega
  have hlt : v / 4096 < 15 := by simp only [loOf] at hv; omega
  refine ⟨⟨hpg, ?_, ?_, ?_, ?_⟩, ?_⟩ <;>
    simp [formCHUNK, accept, Pfx.allows, Fields.pfx, encCHUNK, encWABL, Fields.bare, ← hv, Pfx.rA, ha, Pfx.rB, hb, hz, hm,
      Mod.scope_le_of_okChunk hm, hlt]

theorem formATR_enc {c : Num3 → Num3 → Num3 → Instr} {pg maj fn : Nat} {a t rb : Num3}
    (hpg : pg ≤ 6) (hmaj : maj < 15) (hfn : fn < 8) :
    (encATR pg maj fn a t rb).Gives (formATR c (encATR pg maj fn a t rb).pfx (encATR pg maj fn a t rb).base) (c a t rb) := by
  obtain ⟨v, hv⟩ : ∃ v, v = maj * 4096 + a.toNat * 512 + t.toNat * 64 + rb.toNat * 8 + fn := ⟨_, rfl⟩
  have ha : f3 v 9 = a := f3_eq (by omega)
  have ht : f3 v 6 = t := f3_eq (by omega)
  have hrb : f3 v 3 = rb := f3_eq (by omega)
  have hlt : v / 4096 < 15 := by omega
  refine ⟨⟨hpg, ?_, ?_, ?_, ?_⟩, ?_⟩ <;>
    simp [formATR, accept, Pfx.allows, Fields.pfx, encATR, encTTT, Fields.bare, ← hv, ha, ht, hrb, hlt]

theorem formACC_enc {c : Num3 → Instr} {pg maj fn : Nat} {a : Num3}
    (hpg : pg ≤ 6) (hmaj : maj < 15) (hfn : fn < 8) :
    (encACC pg maj fn a).Gives (formACC c (encACC pg maj fn a).pfx (encACC pg maj fn a).base) (c a) := by
  obtain ⟨v, hv⟩ : ∃ v, v = maj * 4096 + a.toNat * 512 + fn := ⟨_, rfl⟩
  have ha : f3 v 9 = a := f3_eq (by omega)
  have hz : v / 8 % 64 = 0 := by omega
  have hlt : v / 4096 < 15 := by omega
  refine ⟨⟨hpg, ?_, ?_, ?_, ?_⟩, ?_⟩ <;>
    simp [formACC, accept, Pfx.allows, Fields.pfx, encACC, Fields.bare, ← hv, ha, hz, hlt]

theorem formCLM_enc {c : Num3 → BitVec 2 → Instr} {pg maj fn : Nat} {a : Num3} {ty : BitVec 2}
    (hpg : pg ≤ 6) (hmaj : maj < 15) (hfn : fn < 8) (hty : ty.toNat ≤ 2) :
    (encCLM pg maj fn a ty).Gives (formCLM c (encCLM pg maj fn a ty).pfx (encCLM pg maj fn a ty).base) (c a ty) := by
  obtain ⟨v, hv⟩ : ∃ v, v = maj * 4096 + a.toNat * 512 + ty.toNat * 8 + fn := ⟨_, rfl⟩
  have ha : f3 v 9 = a := f3_eq (by omega)
  have hty : f2 v 3 = ty := f2_eq (by omega)
  have hz : v / 64 % 8 = 0 := by omega
  have hle : v / 8 % 8 ≤ 2 := by omega
  have hlt : v / 4096 < 15 := by omega
  refine ⟨⟨hpg, ?_, ?_, ?_, ?_⟩, ?_⟩ <;>
    simp [formCLM, accept, Pfx.allows, Fields.pfx, encCLM, Fields.bare, ← hv, ha, hty, hz, hle, hlt]

theorem formW_enc {c : Num2 → Instr} {pg maj fn : Nat} {w : Num2}
    (hpg : pg ≤ 6) (hmaj : maj < 15) (hfn : fn < 16) :
    (encW pg maj fn w).Gives (formW c (encW pg maj fn w).pfx (encW pg maj fn w).base) (c w) := by
  obtain ⟨v, hv⟩ : ∃ v, v = maj * 4096 + w.toNat * 1024 + fn := ⟨_, rfl⟩
  have hw : f2 v 10 = w := f2_eq (by omega)
  have hz : v / 16 % 64 = 0 := by omega
  have hlt : v / 4096 < 15 := by omega
  refine ⟨⟨hpg, ?_, ?_, ?_, ?_⟩, ?_⟩ <;>
    simp [formW, accept, Pfx.allows, Fields.pfx, encW, Fields.bare, ← hv, hw, hz, hlt]

theorem formTTSEL_enc {c : Num3 → Num3 → BitVec 4 → Instr} {pg maj fn : Nat} {d a : Num3} {sel : BitVec 4}
    (hpg : pg ≤ 6) (hmaj : maj < 15) (hfn : fn < 8) :
    (encTTSEL pg maj fn d a sel).Gives (formTTSEL c (encTTSEL pg maj fn d a sel).pfx (encTTSEL pg maj fn d a sel).base) (c d a sel) := by
  obtain ⟨v, hv⟩ : ∃ v, v = maj * 4096 + d.toNat * 512 + a.toNat * 64 + fn := ⟨_, rfl⟩
  have hd : f3 v 9 = d := f3_eq (by omega)
  have ha : f3 v 6 = a := f3_eq (by omega)
  have hz : v / 8 % 8 = 0 := by omega
  have hspec : sel.toNat % 32 = sel.toNat := by omega
  have hok : Mod.okSpec 16 ⟨0#2, 0#3, sel.setWidth 5⟩ = true := by
    simp only [Mod.okSpec, BitVec.toNat_setWidth, Bool.and_eq_true, decide_eq_true_eq]
    exact ⟨⟨rfl, rfl⟩, by omega⟩
  have hlt : v / 4096 < 15 := by omega
  refine ⟨⟨hpg, ?_, ?_, ?_, ?_⟩, ?_⟩ <;>
    simp [formTTSEL, accept, Pfx.allows, Fields.pfx, encTTSEL, encTT, Fields.bare, ← hv, hd, ha, hz, hspec, hok, hlt]

theorem formATM_enc {c : Reg → Reg → Mod → Instr} {pg maj fn : Nat} {d a : Reg} {m : Mod}
    (hpg : pg ≤ 6) (hmaj : maj < 15) (hfn : fn < 16) (hm : m.okAtomic = true) :
    (encATM pg maj fn d a m).Gives (formATM c (encATM pg maj fn d a m).pfx (encATM pg maj fn d a m).base) (c d a m) := by
  obtain ⟨v, hv⟩ : ∃ v, v = maj * 4096 + loOf d * 256 + loOf a * 16 + fn := ⟨_, rfl⟩
  have hd : hiReg (hiOf d) (v / 256) = d := hiReg_hiOf (by simp only [loOf] at hv ⊢; omega)
  have ha : hiReg (hiOf a) (v / 16) = a := hiReg_hiOf (by simp only [loOf] at hv ⊢; omega)
  have hlt : v / 4096 < 15 := by simp only [loOf] at hv; omega
  refine ⟨⟨hpg, ?_, ?_, ?_, ?_⟩, ?_⟩ <;>
    simp [formATM, accept, Pfx.allows, Fields.pfx, encATM, encFEL, encRRX, Fields.bare, ← hv, Pfx.rD, hd, Pfx.rA, ha, hm,
      Mod.scope_le_of_okAtomic hm, hlt]

theorem formACAS_enc {c : Reg → Reg → Reg → Mod → Instr} {pg maj fn : Nat} {d a b : Reg} {m : Mod}
    (hpg : pg ≤ 6) (hmaj : maj < 15) (hfn : fn < 16) (hm : m.okAtomic = true) :
    (encACAS pg maj fn d a b m).Gives (formACAS c (encACAS pg maj fn d a b m).pfx (encACAS pg maj fn d a b m).base) (c d a b m) := by
  obtain ⟨v, hv⟩ : ∃ v, v = maj * 4096 + loOf d * 256 + loOf a * 16 + fn := ⟨_, rfl⟩
  have hd : hiReg (hiOf d) (v / 256) = d := hiReg_hiOf (by simp only [loOf] at hv ⊢; omega)
  have ha : hiReg (hiOf a) (v / 16) = a := hiReg_hiOf (by simp only [loOf] at hv ⊢; omega)
  have hlt : v / 4096 < 15 := by simp only [loOf] at hv; omega
  refine ⟨⟨hpg, ?_, ?_, ?_, ?_⟩, ?_⟩ <;>
    simp [formACAS, accept, Pfx.allows, Fields.pfx, encACAS, encRRX, Fields.bare, ← hv, Pfx.rD, hd, Pfx.rA, ha, hm,
      Mod.scope_le_of_okAtomic hm, hlt]

theorem formRLSN_enc {c : Reg → Mod → Instr} {pg maj fn : Nat} {a : Reg} {m : Mod}
    (hpg : pg ≤ 6) (hmaj : maj < 15) (hfn : fn < 16) (hm : m.okAtomic = true) :
    (encRLSN pg maj fn a m).Gives (formRLSN c (encRLSN pg maj fn a m).pfx (encRLSN pg maj fn a m).base) (c a m) := by
  obtain ⟨v, hv⟩ : ∃ v, v = maj * 4096 + loOf a * 16 + fn := ⟨_, rfl⟩
  have ha : hiReg (hiOf a) (v / 16) = a := hiReg_hiOf (by simp only [loOf] at hv ⊢; omega)
  have hz : v / 256 % 16 = 0 := by simp only [loOf] at hv; omega
  have hlt : v / 4096 < 15 := by simp only [loOf] at hv; omega
  refine ⟨⟨hpg, ?_, ?_, ?_, ?_⟩, ?_⟩ <;>
    simp [formRLSN, accept, Pfx.allows, Fields.pfx, encRLSN, encA, Fields.bare, ← hv, Pfx.rA, ha, hz, hm, Mod.scope_le_of_okAtomic hm,
      hlt]

theorem formFENCE_enc {c : Mod → Instr} {pg maj fn : Nat} {m : Mod}
    (hpg : pg ≤ 6) (hmaj : maj < 15) (hfn : fn < 16) (hm : m.okFence = true) :
    (encFENCE pg maj fn m).Gives (formFENCE c (encFENCE pg maj fn m).pfx (encFENCE pg maj fn m).base) (c m) := by
  obtain ⟨v, hv⟩ : ∃ v, v = maj * 4096 + fn := ⟨_, rfl⟩
  have hz : v / 16 % 256 = 0 := by omega
  have hlt : v / 4096 < 15 := by omega
  refine ⟨⟨hpg, ?_, ?_, ?_, ?_⟩, ?_⟩ <;>
    simp [formFENCE, accept, Pfx.allows, Fields.pfx, encFENCE, encNONE, Fields.bare, ← hv, hz, hm, Mod.scope_le_of_okFence hm, hlt]

theorem formWAKE_enc {c : Reg → Reg → Mod → Instr} {pg maj fn : Nat} {d a : Reg} {m : Mod}
    (hpg : pg ≤ 6) (hmaj : maj < 15) (hfn : fn < 16) (hm : m.okWake = true) :
    (encWAKE pg maj fn d a m).Gives (formWAKE c (encWAKE pg maj fn d a m).pfx (encWAKE pg maj fn d a m).base) (c d a m) := by
  obtain ⟨v, hv⟩ : ∃ v, v = maj * 4096 + loOf d * 256 + loOf a * 16 + fn := ⟨_, rfl⟩
  have hd : hiReg (hiOf d) (v / 256) = d := hiReg_hiOf (by simp only [loOf] at hv ⊢; omega)
  have ha : hiReg (hiOf a) (v / 16) = a := hiReg_hiOf (by simp only [loOf] at hv ⊢; omega)
  have hlt : v / 4096 < 15 := by simp only [loOf] at hv; omega
  refine ⟨⟨hpg, ?_, ?_, ?_, ?_⟩, ?_⟩ <;>
    simp [formWAKE, accept, Pfx.allows, Fields.pfx, encWAKE, encFEL, encRRX, Fields.bare, ← hv, Pfx.rD, hd, Pfx.rA, ha, hm,
      Mod.scope_le_of_okWake hm, hlt]

theorem formOP_enc {c : Reg → Reg → BitVec 4 → Instr} {pg maj fn : Nat} {d a : Reg} {op : BitVec 4}
    (hpg : pg ≤ 6) (hmaj : maj < 15) (hfn : fn < 16) (hty : op.toNat ≤ 11) :
    (encOP pg maj fn d a op).Gives (formOP c (encOP pg maj fn d a op).pfx (encOP pg maj fn d a op).base) (c d a op) := by
  obtain ⟨v, hv⟩ : ∃ v, v = maj * 4096 + loOf d * 256 + loOf a * 16 + fn := ⟨_, rfl⟩
  have hd : hiReg (hiOf d) (v / 256) = d := hiReg_hiOf (by simp only [loOf] at hv ⊢; omega)
  have ha : hiReg (hiOf a) (v / 16) = a := hiReg_hiOf (by simp only [loOf] at hv ⊢; omega)
  have hspec : op.toNat % 32 = op.toNat := by omega
  have hok : Mod.okSpec 12 ⟨0#2, 0#3, op.setWidth 5⟩ = true := by
    simp only [Mod.okSpec, BitVec.toNat_setWidth, Bool.and_eq_true, decide_eq_true_eq]
    exact ⟨⟨rfl, rfl⟩, by omega⟩
  have hlt : v / 4096 < 15 := by simp only [loOf] at hv; omega
  refine ⟨⟨hpg, ?_, ?_, ?_, ?_⟩, ?_⟩ <;>
    simp [formOP, accept, Pfx.allows, Fields.pfx, encOP, encRRX, Fields.bare, ← hv, Pfx.rD, hd, Pfx.rA, ha, hspec, hok, hlt]

theorem formDE_enc {c : Reg → Num2 → Instr} {pg maj fn : Nat} {d : Reg} {e : Num2}
    (hpg : pg ≤ 6) (hmaj : maj < 15) (hfn : fn < 64) :
    (encDE pg maj fn d e).Gives (formDE c (encDE pg maj fn d e).pfx (encDE pg maj fn d e).base) (c d e) := by
  obtain ⟨v, hv⟩ : ∃ v, v = maj * 4096 + loOf d * 256 + e.toNat * 64 + fn := ⟨_, rfl⟩
  have hd : hiReg (hiOf d) (v / 256) = d := hiReg_hiOf (by simp only [loOf] at hv ⊢; omega)
  have he : f2 v 6 = e := f2_eq (by simp only [loOf] at hv; omega)
  have hlt : v / 4096 < 15 := by simp only [loOf] at hv; omega
  refine ⟨⟨hpg, ?_, ?_, ?_, ?_⟩, ?_⟩ <;>
    simp [formDE, accept, Pfx.allows, Fields.pfx, encDE, Fields.bare, ← hv, Pfx.rD, hd, he, hlt]

theorem formKIND_enc {c : Num3 → Reg → BitVec 2 → Instr} {pg maj fn : Nat} {p : Num3} {a : Reg} {kind : BitVec 2}
    (hpg : pg ≤ 6) (hmaj : maj < 15) (hfn : fn < 16) :
    (encKIND pg maj fn p a kind).Gives (formKIND c (encKIND pg maj fn p a kind).pfx (encKIND pg maj fn p a kind).base) (c p a kind) := by
  obtain ⟨v, hv⟩ : ∃ v, v = maj * 4096 + p.toNat * 256 + loOf a * 16 + fn := ⟨_, rfl⟩
  have hp : f3 v 8 = p := f3_eq (by simp only [loOf] at hv; omega)
  have ha : hiReg (hiOf a) (v / 16) = a := hiReg_hiOf (by simp only [loOf] at hv ⊢; omega)
  have h11 : bitAt v 11 = false := decide_eq_false (by simp only [loOf] at hv; omega)
  have hspec : kind.toNat % 32 = kind.toNat := by omega
  have hok : Mod.okSpec 4 ⟨0#2, 0#3, kind.setWidth 5⟩ = true := by
    simp only [Mod.okSpec, BitVec.toNat_setWidth, Bool.and_eq_true, decide_eq_true_eq]
    exact ⟨⟨rfl, rfl⟩, by omega⟩
  have hlt : v / 4096 < 15 := by simp only [loOf] at hv; omega
  refine ⟨⟨hpg, ?_, ?_, ?_, ?_⟩, ?_⟩ <;>
    simp [formKIND, accept, Pfx.allows, Fields.pfx, encKIND, encCMP, Fields.bare, ← hv, hp, Pfx.rA, ha, h11, hspec, hok, hlt]

theorem formKVW_enc {c : Num2 → Reg → Reg → Mod → Instr} {pg maj fn : Nat} {w : Num2} {a b : Reg} {m : Mod}
    (hpg : pg ≤ 6) (hmaj : maj < 15) (hfn : fn = 0) (hm : m.okLoad = true) :
    (encKVW pg maj fn w a b m).Gives (formKVW c (encKVW pg maj fn w a b m).pfx (encKVW pg maj fn w a b m).base) (c w a b m) := by
  obtain ⟨v, hv⟩ : ∃ v, v = maj * 4096 + w.toNat * 1024 + loOf a * 64 + loOf b * 4 + fn := ⟨_, rfl⟩
  have hw : f2 v 10 = w := f2_eq (by simp only [loOf] at hv; omega)
  have ha : hiReg (hiOf a) (v / 64) = a := hiReg_hiOf (by simp only [loOf] at hv ⊢; omega)
  have hb : hiReg (hiOf b) (v / 4) = b := hiReg_hiOf (by simp only [loOf] at hv ⊢; omega)
  have hz : v % 4 = 0 := by simp only [loOf] at hv; omega
  have hlt : v / 4096 < 15 := by simp only [loOf] at hv; omega
  refine ⟨⟨hpg, ?_, ?_, ?_, ?_⟩, ?_⟩ <;>
    simp [formKVW, accept, Pfx.allows, Fields.pfx, encKVW, encWABL, Fields.bare, ← hv, hw, Pfx.rA, ha, Pfx.rB, hb, hz, hm,
      Mod.scope_le_of_okLoad hm, hlt]

theorem formKVTS_enc {c : Num3 → Reg → Reg → Mod → Instr} {pg maj fn : Nat} {t : Num3} {a b : Reg} {m : Mod}
    (hpg : pg ≤ 6) (hmaj : maj < 15) (hm : m.okStore = true) :
    (encKVTS pg maj fn t a b m).Gives (formKVTS c (encKVTS pg maj fn t a b m).pfx (encKVTS pg maj fn t a b m).base) (c t a b m) := by
  obtain ⟨v, hv⟩ : ∃ v, v = maj * 4096 + t.toNat * 512 + loOf a * 32 + loOf b * 2 + 0 := ⟨_, rfl⟩
  have ht : f3 v 9 = t := f3_eq (by simp only [loOf] at hv; omega)
  have ha : hiReg (hiOf a) (v / 32) = a := hiReg_hiOf (by simp only [loOf] at hv ⊢; omega)
  have hb : hiReg (hiOf b) (v / 2) = b := hiReg_hiOf (by simp only [loOf] at hv ⊢; omega)
  have hz : v % 2 = 0 := by simp only [loOf] at hv; omega
  have hlt : v / 4096 < 15 := by simp only [loOf] at hv; omega
  refine ⟨⟨hpg, ?_, ?_, ?_, ?_⟩, ?_⟩ <;>
    simp [formKVTS, accept, Pfx.allows, Fields.pfx, encKVTS, encTABL, Fields.bare, ← hv, ht, Pfx.rA, ha, Pfx.rB, hb, hz, hm,
      Mod.scope_le_of_okStore hm, hlt]

theorem formKVTL_enc {c : Num3 → Reg → Reg → Mod → Instr} {pg maj fn : Nat} {t : Num3} {a b : Reg} {m : Mod}
    (hpg : pg ≤ 6) (hmaj : maj < 15) (hm : m.okLoad = true) :
    (encKVTL pg maj fn t a b m).Gives (formKVTL c (encKVTL pg maj fn t a b m).pfx (encKVTL pg maj fn t a b m).base) (c t a b m) := by
  obtain ⟨v, hv⟩ : ∃ v, v = maj * 4096 + t.toNat * 512 + loOf a * 32 + loOf b * 2 + 0 := ⟨_, rfl⟩
  have ht : f3 v 9 = t := f3_eq (by simp only [loOf] at hv; omega)
  have ha : hiReg (hiOf a) (v / 32) = a := hiReg_hiOf (by simp only [loOf] at hv ⊢; omega)
  have hb : hiReg (hiOf b) (v / 2) = b := hiReg_hiOf (by simp only [loOf] at hv ⊢; omega)
  have hz : v % 2 = 0 := by simp only [loOf] at hv; omega
  have hlt : v / 4096 < 15 := by simp only [loOf] at hv; omega
  refine ⟨⟨hpg, ?_, ?_, ?_, ?_⟩, ?_⟩ <;>
    simp [formKVTL, accept, Pfx.allows, Fields.pfx, encKVTL, encTABL, Fields.bare, ← hv, ht, Pfx.rA, ha, Pfx.rB, hb, hz, hm,
      Mod.scope_le_of_okLoad hm, hlt]

/-! ## Where an instruction stands in the map (R77) -/

@[simp] theorem encRRX_page {pg maj fn : Nat} {d a : Reg} {x : Option Reg} : (encRRX pg maj fn d a x).page = pg := rfl
@[simp] theorem encRR_page {pg maj fn : Nat} {d a : Reg} : (encRR pg maj fn d a).page = pg := rfl
@[simp] theorem encCMP_page {pg maj fn : Nat} {p : Num3} {a : Reg} {x : Option Reg} : (encCMP pg maj fn p a x).page = pg := rfl
@[simp] theorem encDI_page {pg maj fn : Nat} {d : Reg} {imm : W64} : (encDI pg maj fn d imm).page = pg := rfl
@[simp] theorem encLIH_page {pg maj fn : Nat} {d : Reg} {imm : W32} : (encLIH pg maj fn d imm).page = pg := rfl
@[simp] theorem encSH_page {pg maj fn : Nat} {d : Reg} {n : BitVec 6} : (encSH pg maj fn d n).page = pg := rfl
@[simp] theorem encCMPI_page {pg maj fn : Nat} {p : Num3} {a : Reg} {c2 : BitVec 2} {imm : W64} : (encCMPI pg maj fn p a c2 imm).page = pg
  := rfl
@[simp] theorem encBR_page {pg maj fn : Nat} {off : W64} : (encBR pg maj fn off).page = pg := rfl
@[simp] theorem encBP_page {pg maj fn : Nat} {p : Num3} {sense : Bool} {off : W64} : (encBP pg maj fn p sense off).page = pg := rfl
@[simp] theorem encA_page {pg maj fn : Nat} {a : Reg} : (encA pg maj fn a).page = pg := rfl
@[simp] theorem encD_page {pg maj fn : Nat} {d : Reg} : (encD pg maj fn d).page = pg := rfl
@[simp] theorem encNONE_page {pg maj fn : Nat} : (encNONE pg maj fn).page = pg := rfl
@[simp] theorem encPP_page {pg maj fn : Nat} {d a : Num3} : (encPP pg maj fn d a).page = pg := rfl
@[simp] theorem encLD_page {pg maj fn : Nat} {d a : Reg} {off : W64} {m : Mod} : (encLD pg maj fn d a off m).page = pg := rfl
@[simp] theorem encST_page {pg maj fn : Nat} {d a : Reg} {off : W64} {m : Mod} : (encST pg maj fn d a off m).page = pg := rfl
@[simp] theorem encFEL_page {pg maj fn : Nat} {d a : Reg} {m : Mod} : (encFEL pg maj fn d a m).page = pg := rfl
@[simp] theorem encFES_page {pg maj fn : Nat} {d a : Reg} {m : Mod} : (encFES pg maj fn d a m).page = pg := rfl
@[simp] theorem encPA_page {pg maj fn : Nat} {p : Num3} {a : Reg} : (encPA pg maj fn p a).page = pg := rfl
@[simp] theorem encTABL_page {pg maj fn : Nat} {t : Num3} {a b : Reg} {m : Mod} : (encTABL pg maj fn t a b m).page = pg := rfl
@[simp] theorem encTABS_page {pg maj fn : Nat} {t : Num3} {a b : Reg} {m : Mod} : (encTABS pg maj fn t a b m).page = pg := rfl
@[simp] theorem encTXL_page {pg maj fn : Nat} {t x : Num3} {a : Reg} {m : Mod} : (encTXL pg maj fn t x a m).page = pg := rfl
@[simp] theorem encTXS_page {pg maj fn : Nat} {t x : Num3} {a : Reg} {m : Mod} : (encTXS pg maj fn t x a m).page = pg := rfl
@[simp] theorem encDRAIN_page {pg maj fn : Nat} {path : BitVec 2} : (encDRAIN pg maj fn path).page = pg := rfl
@[simp] theorem encRECV_page {pg maj fn : Nat} {d a : Reg} {m : Mod} : (encRECV pg maj fn d a m).page = pg := rfl
@[simp] theorem encTTT_page {pg maj fn : Nat} {d a b : Num3} : (encTTT pg maj fn d a b).page = pg := rfl
@[simp] theorem encTT_page {pg maj fn : Nat} {d a : Num3} : (encTT pg maj fn d a).page = pg := rfl
@[simp] theorem encTCVT_page {pg maj fn : Nat} {d a : Num3} {ty : BitVec 4} : (encTCVT pg maj fn d a ty).page = pg := rfl
@[simp] theorem encTS_page {pg maj fn : Nat} {t : Num3} {a : Reg} : (encTS pg maj fn t a).page = pg := rfl
@[simp] theorem encTTS_page {pg maj fn : Nat} {d a : Num3} {b : Reg} : (encTTS pg maj fn d a b).page = pg := rfl
@[simp] theorem encTC_page {pg maj fn : Nat} {d : Num3} {c2 : Num2} : (encTC pg maj fn d c2).page = pg := rfl
@[simp] theorem encTCT_page {pg maj fn : Nat} {d : Num3} {c2 : Num2} {b : Num3} : (encTCT pg maj fn d c2 b).page = pg := rfl
@[simp] theorem encMMA_page {pg maj fn : Nat} {a t : Num3} {w : Num2} : (encMMA pg maj fn a t w).page = pg := rfl
@[simp] theorem encMMX_page {pg maj fn : Nat} {a t : Num3} {w : Num2} {sel : BitVec 4} : (encMMX pg maj fn a t w sel).page = pg := rfl
@[simp] theorem encWABL_page {pg maj fn : Nat} {w : Num2} {a b : Reg} {m : Mod} : (encWABL pg maj fn w a b m).page = pg := rfl
@[simp] theorem encCHUNK_page {pg maj fn : Nat} {a b : Reg} {m : Mod} : (encCHUNK pg maj fn a b m).page = pg := rfl
@[simp] theorem encATR_page {pg maj fn : Nat} {a t rb : Num3} : (encATR pg maj fn a t rb).page = pg := rfl
@[simp] theorem encACC_page {pg maj fn : Nat} {a : Num3} : (encACC pg maj fn a).page = pg := rfl
@[simp] theorem encCLM_page {pg maj fn : Nat} {a : Num3} {ty : BitVec 2} : (encCLM pg maj fn a ty).page = pg := rfl
@[simp] theorem encW_page {pg maj fn : Nat} {w : Num2} : (encW pg maj fn w).page = pg := rfl
@[simp] theorem encTTSEL_page {pg maj fn : Nat} {d a : Num3} {sel : BitVec 4} : (encTTSEL pg maj fn d a sel).page = pg := rfl
@[simp] theorem encATM_page {pg maj fn : Nat} {d a : Reg} {m : Mod} : (encATM pg maj fn d a m).page = pg := rfl
@[simp] theorem encACAS_page {pg maj fn : Nat} {d a b : Reg} {m : Mod} : (encACAS pg maj fn d a b m).page = pg := rfl
@[simp] theorem encRLSN_page {pg maj fn : Nat} {a : Reg} {m : Mod} : (encRLSN pg maj fn a m).page = pg := rfl
@[simp] theorem encFENCE_page {pg maj fn : Nat} {m : Mod} : (encFENCE pg maj fn m).page = pg := rfl
@[simp] theorem encWAKE_page {pg maj fn : Nat} {d a : Reg} {m : Mod} : (encWAKE pg maj fn d a m).page = pg := rfl
@[simp] theorem encOP_page {pg maj fn : Nat} {d a : Reg} {op : BitVec 4} : (encOP pg maj fn d a op).page = pg := rfl
@[simp] theorem encDE_page {pg maj fn : Nat} {d : Reg} {e : Num2} : (encDE pg maj fn d e).page = pg := rfl
@[simp] theorem encKIND_page {pg maj fn : Nat} {p : Num3} {a : Reg} {kind : BitVec 2} : (encKIND pg maj fn p a kind).page = pg := rfl
@[simp] theorem encKVW_page {pg maj fn : Nat} {w : Num2} {a b : Reg} {m : Mod} : (encKVW pg maj fn w a b m).page = pg := rfl
@[simp] theorem encKVTS_page {pg maj fn : Nat} {t : Num3} {a b : Reg} {m : Mod} : (encKVTS pg maj fn t a b m).page = pg := rfl
@[simp] theorem encKVTL_page {pg maj fn : Nat} {t : Num3} {a b : Reg} {m : Mod} : (encKVTL pg maj fn t a b m).page = pg := rfl
theorem encRRX_place {pg maj fn : Nat} {d a : Reg} {x : Option Reg} (hfn : fn < 16) :
    (encRRX pg maj fn d a x).base / 4096 = maj ∧ (encRRX pg maj fn d a x).base % 16 = fn := by
  simp only [encRRX, Fields.bare, loOf]
  exact ⟨by omega, by omega⟩

theorem encRR_place {pg maj fn : Nat} {d a : Reg} (hfn : fn < 16) :
    (encRR pg maj fn d a).base / 4096 = maj ∧ (encRR pg maj fn d a).base % 16 = fn := encRRX_place (pg := pg) (x := none) hfn

theorem encCMP_place {pg maj fn : Nat} {p : Num3} {a : Reg} {x : Option Reg} (hfn : fn < 16) :
    (encCMP pg maj fn p a x).base / 4096 = maj ∧ (encCMP pg maj fn p a x).base % 16 = fn := by
  simp only [encCMP, Fields.bare, loOf]
  exact ⟨by omega, by omega⟩

theorem encDI_place {pg maj fn : Nat} {d : Reg} {imm : W64} :
    (encDI pg maj fn d imm).base / 4096 = maj := by
  simp only [encDI, Fields.bare, loOf]
  omega

theorem encLIH_place {pg maj fn : Nat} {d : Reg} {imm : W32} :
    (encLIH pg maj fn d imm).base / 4096 = maj := by
  simp only [encLIH, Fields.bare, loOf]
  omega

theorem encSH_place {pg maj fn : Nat} {d : Reg} {n : BitVec 6} (hfn : fn < 4) :
    (encSH pg maj fn d n).base / 4096 = maj ∧ (encSH pg maj fn d n).base / 64 % 4 = fn := by
  simp only [encSH, Fields.bare, loOf]
  exact ⟨by omega, by omega⟩

theorem encCMPI_place {pg maj fn : Nat} {p : Num3} {a : Reg} {c2 : BitVec 2} {imm : W64} :
    (encCMPI pg maj fn p a c2 imm).base / 4096 = maj := by
  simp only [encCMPI, Fields.bare, loOf]
  omega

theorem encBR_place {pg maj fn : Nat} {off : W64} :
    (encBR pg maj fn off).base / 4096 = maj := by
  simp only [encBR, Fields.bare]
  omega

theorem encBP_place {pg maj fn : Nat} {p : Num3} {sense : Bool} {off : W64} :
    (encBP pg maj fn p sense off).base / 4096 = maj := by
  have := Fields.bit_le sense
  simp only [encBP, Fields.bare]
  omega

theorem encA_place {pg maj fn : Nat} {a : Reg} (hfn : fn < 16) :
    (encA pg maj fn a).base / 4096 = maj ∧ (encA pg maj fn a).base % 16 = fn := by
  simp only [encA, Fields.bare, loOf]
  exact ⟨by omega, by omega⟩

theorem encD_place {pg maj fn : Nat} {d : Reg} (hfn : fn < 16) :
    (encD pg maj fn d).base / 4096 = maj ∧ (encD pg maj fn d).base % 16 = fn := by
  simp only [encD, Fields.bare, loOf]
  exact ⟨by omega, by omega⟩

theorem encNONE_place {pg maj fn : Nat} (hfn : fn < 16) :
    (encNONE pg maj fn).base / 4096 = maj ∧ (encNONE pg maj fn).base % 16 = fn := by
  simp only [encNONE, Fields.bare]
  exact ⟨by omega, by omega⟩

theorem encPP_place {pg maj fn : Nat} {d a : Num3} (hfn : fn < 16) :
    (encPP pg maj fn d a).base / 4096 = maj ∧ (encPP pg maj fn d a).base % 16 = fn := by
  simp only [encPP, Fields.bare]
  exact ⟨by omega, by omega⟩

theorem encLD_place {pg maj fn : Nat} {d a : Reg} {off : W64} {m : Mod} :
    (encLD pg maj fn d a off m).base / 4096 = maj := by
  simp only [encLD, Fields.bare, loOf]
  omega

theorem encST_place {pg maj fn : Nat} {d a : Reg} {off : W64} {m : Mod} :
    (encST pg maj fn d a off m).base / 4096 = maj := encLD_place

theorem encFEL_place {pg maj fn : Nat} {d a : Reg} {m : Mod} (hfn : fn < 16) :
    (encFEL pg maj fn d a m).base / 4096 = maj ∧ (encFEL pg maj fn d a m).base % 16 = fn := encRRX_place (pg := pg) (x := none) hfn

theorem encFES_place {pg maj fn : Nat} {d a : Reg} {m : Mod} (hfn : fn < 16) :
    (encFES pg maj fn d a m).base / 4096 = maj ∧ (encFES pg maj fn d a m).base % 16 = fn := encRRX_place (pg := pg) (x := none) hfn

theorem encPA_place {pg maj fn : Nat} {p : Num3} {a : Reg} (hfn : fn < 16) :
    (encPA pg maj fn p a).base / 4096 = maj ∧ (encPA pg maj fn p a).base % 16 = fn := encCMP_place (pg := pg) (x := none) hfn

theorem encTABL_place {pg maj fn : Nat} {t : Num3} {a b : Reg} {m : Mod} (hfn : fn < 2) :
    (encTABL pg maj fn t a b m).base / 4096 = maj ∧ (encTABL pg maj fn t a b m).base % 2 = fn := by
  simp only [encTABL, Fields.bare, loOf]
  exact ⟨by omega, by omega⟩

theorem encTABS_place {pg maj fn : Nat} {t : Num3} {a b : Reg} {m : Mod} (hfn : fn < 2) :
    (encTABS pg maj fn t a b m).base / 4096 = maj ∧ (encTABS pg maj fn t a b m).base % 2 = fn := encTABL_place (pg := pg) (m := m) hfn

theorem encTXL_place {pg maj fn : Nat} {t x : Num3} {a : Reg} {m : Mod} (hfn : fn < 4) :
    (encTXL pg maj fn t x a m).base / 4096 = maj ∧ (encTXL pg maj fn t x a m).base % 4 = fn := by
  simp only [encTXL, Fields.bare, loOf]
  exact ⟨by omega, by omega⟩

theorem encTXS_place {pg maj fn : Nat} {t x : Num3} {a : Reg} {m : Mod} (hfn : fn < 4) :
    (encTXS pg maj fn t x a m).base / 4096 = maj ∧ (encTXS pg maj fn t x a m).base % 4 = fn := encTXL_place (pg := pg) (m := m) hfn

theorem encDRAIN_place {pg maj fn : Nat} {path : BitVec 2} (hfn : fn < 16) :
    (encDRAIN pg maj fn path).base / 4096 = maj ∧ (encDRAIN pg maj fn path).base % 16 = fn := by
  simp only [encDRAIN, Fields.bare]
  exact ⟨by omega, by omega⟩

theorem encRECV_place {pg maj fn : Nat} {d a : Reg} {m : Mod} (hfn : fn < 16) :
    (encRECV pg maj fn d a m).base / 4096 = maj ∧ (encRECV pg maj fn d a m).base % 16 = fn := encRRX_place (pg := pg) (x := none) hfn

theorem encTTT_place {pg maj fn : Nat} {d a b : Num3} (hfn : fn < 8) :
    (encTTT pg maj fn d a b).base / 4096 = maj ∧ (encTTT pg maj fn d a b).base % 8 = fn := by
  simp only [encTTT, Fields.bare]
  exact ⟨by omega, by omega⟩

theorem encTT_place {pg maj fn : Nat} {d a : Num3} (hfn : fn < 8) :
    (encTT pg maj fn d a).base / 4096 = maj ∧ (encTT pg maj fn d a).base % 8 = fn := by
  simp only [encTT, Fields.bare]
  exact ⟨by omega, by omega⟩

theorem encTCVT_place {pg maj fn : Nat} {d a : Num3} {ty : BitVec 4} (hfn : fn < 8) :
    (encTCVT pg maj fn d a ty).base / 4096 = maj ∧ (encTCVT pg maj fn d a ty).base % 8 = fn := encTT_place (pg := pg) hfn

theorem encTS_place {pg maj fn : Nat} {t : Num3} {a : Reg} (hfn : fn < 32) :
    (encTS pg maj fn t a).base / 4096 = maj ∧ (encTS pg maj fn t a).base % 32 = fn := by
  simp only [encTS, Fields.bare, loOf]
  exact ⟨by omega, by omega⟩

theorem encTTS_place {pg maj fn : Nat} {d a : Num3} {b : Reg} (hfn : fn < 4) :
    (encTTS pg maj fn d a b).base / 4096 = maj ∧ (encTTS pg maj fn d a b).base % 4 = fn := by
  simp only [encTTS, Fields.bare, loOf]
  exact ⟨by omega, by omega⟩

theorem encTC_place {pg maj fn : Nat} {d : Num3} {c2 : Num2} (hfn : fn < 16) :
    (encTC pg maj fn d c2).base / 4096 = maj ∧ (encTC pg maj fn d c2).base % 16 = fn := by
  simp only [encTC, Fields.bare]
  exact ⟨by omega, by omega⟩

theorem encTCT_place {pg maj fn : Nat} {d : Num3} {c2 : Num2} {b : Num3} (hfn : fn < 16) :
    (encTCT pg maj fn d c2 b).base / 4096 = maj ∧ (encTCT pg maj fn d c2 b).base % 16 = fn := by
  simp only [encTCT, Fields.bare]
  exact ⟨by omega, by omega⟩

theorem encMMA_place {pg maj fn : Nat} {a t : Num3} {w : Num2} (hfn : fn < 16) :
    (encMMA pg maj fn a t w).base / 4096 = maj ∧ (encMMA pg maj fn a t w).base % 16 = fn := by
  simp only [encMMA, Fields.bare]
  exact ⟨by omega, by omega⟩

theorem encMMX_place {pg maj fn : Nat} {a t : Num3} {w : Num2} {sel : BitVec 4} (hfn : fn < 16) :
    (encMMX pg maj fn a t w sel).base / 4096 = maj ∧ (encMMX pg maj fn a t w sel).base % 16 = fn := encMMA_place (pg := pg) hfn

theorem encWABL_place {pg maj fn : Nat} {w : Num2} {a b : Reg} {m : Mod} (hfn : fn < 4) :
    (encWABL pg maj fn w a b m).base / 4096 = maj ∧ (encWABL pg maj fn w a b m).base % 4 = fn := by
  simp only [encWABL, Fields.bare, loOf]
  exact ⟨by omega, by omega⟩

theorem encCHUNK_place {pg maj fn : Nat} {a b : Reg} {m : Mod} (hfn : fn < 4) :
    (encCHUNK pg maj fn a b m).base / 4096 = maj ∧ (encCHUNK pg maj fn a b m).base % 4 = fn := encWABL_place (pg := pg) (m := m) hfn

theorem encATR_place {pg maj fn : Nat} {a t rb : Num3} (hfn : fn < 8) :
    (encATR pg maj fn a t rb).base / 4096 = maj ∧ (encATR pg maj fn a t rb).base % 8 = fn := encTTT_place (pg := pg) hfn

theorem encACC_place {pg maj fn : Nat} {a : Num3} (hfn : fn < 8) :
    (encACC pg maj fn a).base / 4096 = maj ∧ (encACC pg maj fn a).base % 8 = fn := by
  simp only [encACC, Fields.bare]
  exact ⟨by omega, by omega⟩

theorem encCLM_place {pg maj fn : Nat} {a : Num3} {ty : BitVec 2} (hfn : fn < 8) :
    (encCLM pg maj fn a ty).base / 4096 = maj ∧ (encCLM pg maj fn a ty).base % 8 = fn := by
  simp only [encCLM, Fields.bare]
  exact ⟨by omega, by omega⟩

theorem encW_place {pg maj fn : Nat} {w : Num2} (hfn : fn < 16) :
    (encW pg maj fn w).base / 4096 = maj ∧ (encW pg maj fn w).base % 16 = fn := by
  simp only [encW, Fields.bare]
  exact ⟨by omega, by omega⟩

theorem encTTSEL_place {pg maj fn : Nat} {d a : Num3} {sel : BitVec 4} (hfn : fn < 8) :
    (encTTSEL pg maj fn d a sel).base / 4096 = maj ∧ (encTTSEL pg maj fn d a sel).base % 8 = fn := encTT_place (pg := pg) hfn

theorem encATM_place {pg maj fn : Nat} {d a : Reg} {m : Mod} (hfn : fn < 16) :
    (encATM pg maj fn d a m).base / 4096 = maj ∧ (encATM pg maj fn d a m).base % 16 = fn := encRRX_place (pg := pg) (x := none) hfn

theorem encACAS_place {pg maj fn : Nat} {d a b : Reg} {m : Mod} (hfn : fn < 16) :
    (encACAS pg maj fn d a b m).base / 4096 = maj ∧ (encACAS pg maj fn d a b m).base % 16 = fn := encRRX_place (pg := pg) (x := some b)
      hfn

theorem encRLSN_place {pg maj fn : Nat} {a : Reg} {m : Mod} (hfn : fn < 16) :
    (encRLSN pg maj fn a m).base / 4096 = maj ∧ (encRLSN pg maj fn a m).base % 16 = fn := encA_place (pg := pg) hfn

theorem encFENCE_place {pg maj fn : Nat} {m : Mod} (hfn : fn < 16) :
    (encFENCE pg maj fn m).base / 4096 = maj ∧ (encFENCE pg maj fn m).base % 16 = fn := encNONE_place (pg := pg) hfn

theorem encWAKE_place {pg maj fn : Nat} {d a : Reg} {m : Mod} (hfn : fn < 16) :
    (encWAKE pg maj fn d a m).base / 4096 = maj ∧ (encWAKE pg maj fn d a m).base % 16 = fn := encRRX_place (pg := pg) (x := none) hfn

theorem encOP_place {pg maj fn : Nat} {d a : Reg} {op : BitVec 4} (hfn : fn < 16) :
    (encOP pg maj fn d a op).base / 4096 = maj ∧ (encOP pg maj fn d a op).base % 16 = fn := encRRX_place (pg := pg) (x := none) hfn

theorem encDE_place {pg maj fn : Nat} {d : Reg} {e : Num2} (hfn : fn < 64) :
    (encDE pg maj fn d e).base / 4096 = maj ∧ (encDE pg maj fn d e).base % 64 = fn := by
  simp only [encDE, Fields.bare, loOf]
  exact ⟨by omega, by omega⟩

theorem encKIND_place {pg maj fn : Nat} {p : Num3} {a : Reg} {kind : BitVec 2} (hfn : fn < 16) :
    (encKIND pg maj fn p a kind).base / 4096 = maj ∧ (encKIND pg maj fn p a kind).base % 16 = fn := encCMP_place (pg := pg) (x := none)
      hfn

theorem encKVW_place {pg maj fn : Nat} {w : Num2} {a b : Reg} {m : Mod} (hfn : fn = 0) :
    (encKVW pg maj fn w a b m).base / 4096 = maj := by
  simp only [encKVW, encWABL, Fields.bare, loOf]
  omega

theorem encKVTS_place {pg maj fn : Nat} {t : Num3} {a b : Reg} {m : Mod} :
    (encKVTS pg maj fn t a b m).base / 4096 = maj ∧ (encKVTS pg maj fn t a b m).base % 2 = 0 := encTABL_place (pg := pg) (m := m) (show 0
      < 2 by decide)

theorem encKVTL_place {pg maj fn : Nat} {t : Num3} {a b : Reg} {m : Mod} :
    (encKVTL pg maj fn t a b m).base / 4096 = maj ∧ (encKVTL pg maj fn t a b m).base % 2 = 0 := encTABL_place (pg := pg) (m := m) (show 0
      < 2 by decide)
end Sys2Proof
end

section
/-! Every instruction decodes from its encoding (R88). -/

namespace Sys2Proof

/-! ## The encoding of an instruction -/

/-- The decoder judges the encoding's base word to be the instruction. -/
def Instr.Encodes (i : Instr) : Prop := (fieldsOf i).Gives (decodeBase (fieldsOf i).pfx (fieldsOf i).base) i

theorem Instr.encodes_page0 {i : Instr} (hi : i.wellFormed = true) (hp : (fieldsOf i).page = 0) : i.Encodes := by
  cases i
  case add | sub | and | or | xor | sll | srl | sra | mul | mulh | mulhu | div | divu | rem | min | max =>
    simp only [Encodes, fieldsOf, decodeBase, decodePage0, Fields.pfx_page, encRRX_page, encRRX_place, Nat.reduceLT]
    exact formRRX_enc (by decide) (by decide) (by decide)
  case mov | neg | not | clz | ctz | popc | sextb | sexth | sextw | zextw | minu | maxu | selp | jalr =>
    simp only [Encodes, fieldsOf, decodeBase, decodePage0, Fields.pfx_page, encRR_page, encRR_place, Nat.reduceLT]
    exact formRR_enc (by decide) (by decide) (by decide)
  case cmpeq | cmplt | cmpltu =>
    simp only [Encodes, fieldsOf, decodeBase, decodePage0, Fields.pfx_page, encCMP_page, encCMP_place, Nat.reduceLT]
    exact formCMP_enc (by decide) (by decide) (by decide)
  case addi | li =>
    simp only [Encodes, fieldsOf, decodeBase, decodePage0, Fields.pfx_page, encDI_page, encDI_place]
    exact formDI_enc (by decide) (by decide) hi
  case lih =>
    simp only [Encodes, fieldsOf, decodeBase, decodePage0, Fields.pfx_page, encLIH_page, encLIH_place]
    exact formLIH_enc (by decide) (by decide)
  case slli | srli | srai | rori =>
    simp only [Encodes, fieldsOf, decodeBase, decodePage0, Fields.pfx_page, encSH_page, encSH_place, Nat.reduceLT]
    exact formSH_enc (by decide) (by decide) (by decide)
  case cmpi =>
    simp only [Encodes, fieldsOf, decodeBase, decodePage0, Fields.pfx_page, encCMPI_page, encCMPI_place]
    exact formCMPI_enc (by decide) (by decide) hi
  case b | call =>
    simp only [Encodes, fieldsOf, decodeBase, decodePage0, Fields.pfx_page, encBR_page, encBR_place]
    exact formBR_enc (by decide) (by decide) hi
  case bp =>
    simp only [Encodes, fieldsOf, decodeBase, decodePage0, Fields.pfx_page, encBP_page, encBP_place]
    exact formBP_enc (by decide) (by decide) hi
  case jr =>
    simp only [Encodes, fieldsOf, decodeBase, decodePage0, Fields.pfx_page, encA_page, encA_place, Nat.reduceLT]
    exact formA_enc (by decide) (by decide) (by decide)
  case ret | nop | stop =>
    simp only [Encodes, fieldsOf, decodeBase, decodePage0, Fields.pfx_page, encNONE_page, encNONE_place, Nat.reduceLT]
    exact formNONE_enc (by decide) (by decide) (by decide)
  case pand | por | pxor | pnot =>
    simp only [Encodes, fieldsOf, decodeBase, decodePage0, Fields.pfx_page, encPP_page, encPP_place, Nat.reduceLT]
    exact formPP_enc (by decide) (by decide) (by decide)
  case ptos =>
    simp only [Encodes, fieldsOf, decodeBase, decodePage0, Fields.pfx_page, encD_page, encD_place, Nat.reduceLT]
    exact formD_enc (by decide) (by decide) (by decide)
  case ldd | ldw =>
    rw [Instr.wellFormed, Bool.and_eq_true] at hi
    simp only [Encodes, fieldsOf, decodeBase, decodePage0, Fields.pfx_page, encLD_page, encLD_place]
    exact formLD_enc (by decide) (by decide) hi.1 hi.2
  case std | stw =>
    rw [Instr.wellFormed, Bool.and_eq_true] at hi
    simp only [Encodes, fieldsOf, decodeBase, decodePage0, Fields.pfx_page, encST_page, encST_place]
    exact formST_enc (by decide) (by decide) hi.1 hi.2
  all_goals exact absurd hp (Nat.ne_of_beq_eq_false rfl)

theorem Instr.encodes_page1 {i : Instr} (hi : i.wellFormed = true) (hp : (fieldsOf i).page = 1) : i.Encodes := by
  cases i
  case ldb | ldbu | ldh | ldhu | ldwu =>
    rw [Instr.wellFormed, Bool.and_eq_true] at hi
    simp only [Encodes, fieldsOf, decodeBase, decodePage1, Fields.pfx_page, encLD_page, encLD_place]
    exact formLD_enc (by decide) (by decide) hi.1 hi.2
  case stb | sth =>
    rw [Instr.wellFormed, Bool.and_eq_true] at hi
    simp only [Encodes, fieldsOf, decodeBase, decodePage1, Fields.pfx_page, encST_page, encST_place]
    exact formST_enc (by decide) (by decide) hi.1 hi.2
  case ldf | ldfk =>
    simp only [Encodes, fieldsOf, decodeBase, decodePage1, Fields.pfx_page, encFEL_page, encFEL_place, Nat.reduceLT]
    exact formFEL_enc (by decide) (by decide) (by decide) hi
  case ste | stf | sendmsg =>
    simp only [Encodes, fieldsOf, decodeBase, decodePage1, Fields.pfx_page, encFES_page, encFES_place, Nat.reduceLT]
    exact formFES_enc (by decide) (by decide) (by decide) hi
  case feclr | pref | prefl =>
    simp only [Encodes, fieldsOf, decodeBase, decodePage1, Fields.pfx_page, encA_page, encA_place, Nat.reduceLT]
    exact formA_enc (by decide) (by decide) (by decide)
  case feq =>
    simp only [Encodes, fieldsOf, decodeBase, decodePage1, Fields.pfx_page, encPA_page, encPA_place, Nat.reduceLT]
    exact formPA_enc (by decide) (by decide) (by decide)
  case invl1 =>
    simp only [Encodes, fieldsOf, decodeBase, decodePage1, Fields.pfx_page, encNONE_page, encNONE_place, Nat.reduceLT]
    exact formNONE_enc (by decide) (by decide) (by decide)
  case tld | tlds =>
    simp only [Encodes, fieldsOf, decodeBase, decodePage1, Fields.pfx_page, encTABL_page, encTABL_place, Nat.reduceLT]
    exact formTABL_enc (by decide) (by decide) (by decide) hi
  case tst | tsts =>
    simp only [Encodes, fieldsOf, decodeBase, decodePage1, Fields.pfx_page, encTABS_page, encTABS_place, Nat.reduceLT]
    exact formTABS_enc (by decide) (by decide) (by decide) hi
  case tldx =>
    simp only [Encodes, fieldsOf, decodeBase, decodePage1, Fields.pfx_page, encTXL_page, encTXL_place, Nat.reduceLT]
    exact formTXL_enc (by decide) (by decide) (by decide) hi
  case tstx =>
    simp only [Encodes, fieldsOf, decodeBase, decodePage1, Fields.pfx_page, encTXS_page, encTXS_place, Nat.reduceLT]
    exact formTXS_enc (by decide) (by decide) (by decide) hi
  case cpy | cpy2d | cpyl | waitmsg =>
    simp only [Encodes, fieldsOf, decodeBase, decodePage1, Fields.pfx_page, encRR_page, encRR_place, Nat.reduceLT]
    exact formRR_enc (by decide) (by decide) (by decide)
  case drain =>
    simp only [Encodes, fieldsOf, decodeBase, decodePage1, Fields.pfx_page, encDRAIN_page, encDRAIN_place, Nat.reduceLT]
    exact formDRAIN_enc (by decide) (by decide) (by decide)
  case recvmsg =>
    simp only [Encodes, fieldsOf, decodeBase, decodePage1, Fields.pfx_page, encRECV_page, encRECV_place, Nat.reduceLT]
    exact formRECV_enc (by decide) (by decide) (by decide) hi
  all_goals exact absurd hp (Nat.ne_of_beq_eq_false rfl)

theorem Instr.encodes_page2 {i : Instr} (hi : i.wellFormed = true) (hp : (fieldsOf i).page = 2) : i.Encodes := by
  cases i
  case tadd | tsub | tmul | tmax | tmin | tfma | tsel | tcpym | tiadd | tisub | timul | tand | tor | txor | tshl | tshr | tbrow |
      tbcol | tceq | tclt | tcle | tcne | tcltu | tcleu =>
    simp only [Encodes, fieldsOf, decodeBase, decodePage2, Fields.pfx_page, encTTT_page, encTTT_place, Nat.reduceLT]
    exact formTTT_enc (by decide) (by decide) (by decide)
  case texp | texp2 | tlog2 | trcp | trsq | tabs | tneg | trsum | trmax | tcsum | tcmax | ttrans | tmov | tisnan =>
    simp only [Encodes, fieldsOf, decodeBase, decodePage2, Fields.pfx_page, encTT_page, encTT_place, Nat.reduceLT]
    exact formTT_enc (by decide) (by decide) (by decide)
  case tcvt =>
    simp only [Encodes, fieldsOf, decodeBase, decodePage2, Fields.pfx_page, encTCVT_page, encTCVT_place, Nat.reduceLT]
    exact formTCVT_enc (by decide) (by decide) (by decide) (of_decide_eq_true hi)
  case tshape | tshget | tzero | tfill | tgete | tsete | tmaskr | tmaskc =>
    simp only [Encodes, fieldsOf, decodeBase, decodePage2, Fields.pfx_page, encTS_page, encTS_place, Nat.reduceLT]
    exact formTS_enc (by decide) (by decide) (by decide)
  case tadds | tmuls | tmaxs | tsubs =>
    simp only [Encodes, fieldsOf, decodeBase, decodePage2, Fields.pfx_page, encTTS_page, encTTS_place, Nat.reduceLT]
    exact formTTS_enc (by decide) (by decide) (by decide)
  case tsadd | tsmax | tscpy | tsend =>
    simp only [Encodes, fieldsOf, decodeBase, decodePage2, Fields.pfx_page, encTC_page, encTC_place, Nat.reduceLT]
    exact formTC_enc (by decide) (by decide) (by decide)
  case tsfma =>
    simp only [Encodes, fieldsOf, decodeBase, decodePage2, Fields.pfx_page, encTCT_page, encTCT_place, Nat.reduceLT]
    exact formTCT_enc (by decide) (by decide) (by decide)
  all_goals exact absurd hp (Nat.ne_of_beq_eq_false rfl)

theorem Instr.encodes_page3 {i : Instr} (hi : i.wellFormed = true) (hp : (fieldsOf i).page = 3) : i.Encodes := by
  cases i
  case mma | mmaz | mmas =>
    simp only [Encodes, fieldsOf, decodeBase, decodePage3, Fields.pfx_page, encMMA_page, encMMA_place, Nat.reduceLT]
    exact formMMA_enc (by decide) (by decide) (by decide)
  case mmaa | mmax =>
    simp only [Encodes, fieldsOf, decodeBase, decodePage3, Fields.pfx_page, encMMX_page, encMMX_place, Nat.reduceLT]
    exact formMMX_enc (by decide) (by decide) (by decide)
  case ldstat | ldscl =>
    simp only [Encodes, fieldsOf, decodeBase, decodePage3, Fields.pfx_page, encWABL_page, encWABL_place, Nat.reduceLT]
    exact formWABL_enc (by decide) (by decide) (by decide) hi
  case ldproj =>
    simp only [Encodes, fieldsOf, decodeBase, decodePage3, Fields.pfx_page, encCHUNK_page, encCHUNK_place, Nat.reduceLT]
    exact formCHUNK_enc (by decide) (by decide) (by decide) hi
  case accrd | accwr =>
    simp only [Encodes, fieldsOf, decodeBase, decodePage3, Fields.pfx_page, encATR_page, encATR_place, Nat.reduceLT]
    exact formATR_enc (by decide) (by decide) (by decide)
  case accz | accrel =>
    simp only [Encodes, fieldsOf, decodeBase, decodePage3, Fields.pfx_page, encACC_page, encACC_place, Nat.reduceLT]
    exact formACC_enc (by decide) (by decide) (by decide)
  case accclm =>
    simp only [Encodes, fieldsOf, decodeBase, decodePage3, Fields.pfx_page, encCLM_page, encCLM_place, Nat.reduceLT]
    exact formCLM_enc (by decide) (by decide) (by decide) (of_decide_eq_true hi)
  case swap | plclm | plrel | plz =>
    simp only [Encodes, fieldsOf, decodeBase, decodePage3, Fields.pfx_page, encW_page, encW_place, Nat.reduceLT]
    exact formW_enc (by decide) (by decide) (by decide)
  case epexp | epabs =>
    simp only [Encodes, fieldsOf, decodeBase, decodePage3, Fields.pfx_page, encTTSEL_page, encTTSEL_place, Nat.reduceLT]
    exact formTTSEL_enc (by decide) (by decide) (by decide)
  all_goals exact absurd hp (Nat.ne_of_beq_eq_false rfl)

theorem Instr.encodes_page4 {i : Instr} (hi : i.wellFormed = true) (hp : (fieldsOf i).page = 4) : i.Encodes := by
  cases i
  case aadd | aand | aor | axor | amin | amax | aminu | amaxu | aswap | afadd | rsv | rls | rsvw =>
    simp only [Encodes, fieldsOf, decodeBase, decodePage4, Fields.pfx_page, encATM_page, encATM_place, Nat.reduceLT]
    exact formATM_enc (by decide) (by decide) (by decide) hi
  case acas =>
    simp only [Encodes, fieldsOf, decodeBase, decodePage4, Fields.pfx_page, encACAS_page, encACAS_place, Nat.reduceLT]
    exact formACAS_enc (by decide) (by decide) (by decide) hi
  case rlsn =>
    simp only [Encodes, fieldsOf, decodeBase, decodePage4, Fields.pfx_page, encRLSN_page, encRLSN_place, Nat.reduceLT]
    exact formRLSN_enc (by decide) (by decide) (by decide) hi
  case waitrs | bararr | barwait | barsync | barexp | barinit | barqry | waitva | merge | mergew =>
    simp only [Encodes, fieldsOf, decodeBase, decodePage4, Fields.pfx_page, encRR_page, encRR_place, Nat.reduceLT]
    exact formRR_enc (by decide) (by decide) (by decide)
  case fence =>
    simp only [Encodes, fieldsOf, decodeBase, decodePage4, Fields.pfx_page, encFENCE_page, encFENCE_place, Nat.reduceLT]
    exact formFENCE_enc (by decide) (by decide) (by decide) hi
  case wake | wakeall =>
    simp only [Encodes, fieldsOf, decodeBase, decodePage4, Fields.pfx_page, encWAKE_page, encWAKE_place, Nat.reduceLT]
    exact formWAKE_enc (by decide) (by decide) (by decide) hi
  case spawn | sync | pktget =>
    simp only [Encodes, fieldsOf, decodeBase, decodePage4, Fields.pfx_page, encA_page, encA_place, Nat.reduceLT]
    exact formA_enc (by decide) (by decide) (by decide)
  case yield | texit =>
    simp only [Encodes, fieldsOf, decodeBase, decodePage4, Fields.pfx_page, encNONE_page, encNONE_place, Nat.reduceLT]
    exact formNONE_enc (by decide) (by decide) (by decide)
  case append | appendf =>
    simp only [Encodes, fieldsOf, decodeBase, decodePage4, Fields.pfx_page, encOP_page, encOP_place, Nat.reduceLT]
    exact formOP_enc (by decide) (by decide) (by decide) (of_decide_eq_true hi)
  case epush | epop | eqry =>
    simp only [Encodes, fieldsOf, decodeBase, decodePage4, Fields.pfx_page, encDE_page, encDE_place, Nat.reduceLT]
    exact formDE_enc (by decide) (by decide) (by decide)
  all_goals exact absurd hp (Nat.ne_of_beq_eq_false rfl)

theorem Instr.encodes_page5 {i : Instr} (hi : i.wellFormed = true) (hp : (fieldsOf i).page = 5) : i.Encodes := by
  cases i
  case krd | kwr | haltt | ctxsave | ctxout | ctxin | preempt | chrd | adopt | metrd =>
    simp only [Encodes, fieldsOf, decodeBase, decodePage5, Fields.pfx_page, encRR_page, encRR_place, Nat.reduceLT]
    exact formRR_enc (by decide) (by decide) (by decide)
  case trap | ctxload | resume | cpyretry | cpyskip | cpyabort =>
    simp only [Encodes, fieldsOf, decodeBase, decodePage5, Fields.pfx_page, encA_page, encA_place, Nat.reduceLT]
    exact formA_enc (by decide) (by decide) (by decide)
  case rte | bkpt =>
    simp only [Encodes, fieldsOf, decodeBase, decodePage5, Fields.pfx_page, encNONE_page, encNONE_place, Nat.reduceLT]
    exact formNONE_enc (by decide) (by decide) (by decide)
  case unadopt =>
    simp only [Encodes, fieldsOf, decodeBase, decodePage5, Fields.pfx_page, encD_page, encD_place, Nat.reduceLT]
    exact formD_enc (by decide) (by decide) (by decide)
  case capchk =>
    simp only [Encodes, fieldsOf, decodeBase, decodePage5, Fields.pfx_page, encKIND_page, encKIND_place, Nat.reduceLT]
    exact formKIND_enc (by decide) (by decide) (by decide)
  all_goals exact absurd hp (Nat.ne_of_beq_eq_false rfl)

theorem Instr.encodes_page6 {i : Instr} (hi : i.wellFormed = true) (hp : (fieldsOf i).page = 6) : i.Encodes := by
  cases i
  case kvld =>
    simp only [Encodes, fieldsOf, decodeBase, decodePage6, Fields.pfx_page, encKVW_page, encKVW_place]
    exact formKVW_enc (by decide) (by decide) rfl hi
  case kvst =>
    simp only [Encodes, fieldsOf, decodeBase, decodePage6, Fields.pfx_page, encKVTS_page, encKVTS_place]
    exact formKVTS_enc (by decide) (by decide) hi
  case kvmult =>
    simp only [Encodes, fieldsOf, decodeBase, decodePage6, Fields.pfx_page, encKVTL_page, encKVTL_place]
    exact formKVTL_enc (by decide) (by decide) hi
  case scoreb | tripc =>
    simp only [Encodes, fieldsOf, decodeBase, decodePage6, Fields.pfx_page, encTTT_page, encTTT_place, Nat.reduceLT]
    exact formTTT_enc (by decide) (by decide) (by decide)
  case dmerge =>
    simp only [Encodes, fieldsOf, decodeBase, decodePage6, Fields.pfx_page, encRR_page, encRR_place, Nat.reduceLT]
    exact formRR_enc (by decide) (by decide) (by decide)
  all_goals exact absurd hp (Nat.ne_of_beq_eq_false rfl)

/-- An instruction with an encoding stands on one of the seven pages of the map (R77). -/
theorem Instr.page_le {i : Instr} (he : i.encodable = true) : (fieldsOf i).page ≤ 6 := by
  have h : (!i.encodable || (fieldsOf i).page.ble 6) = true := by cases i <;> rfl
  rw [he] at h
  exact Nat.le_of_ble_eq_true h

theorem Instr.encodes {i : Instr} (he : i.encodable = true) (hi : i.wellFormed = true) : i.Encodes := by
  have hle := page_le he
  match hp : (fieldsOf i).page with
  | 0 => exact encodes_page0 hi hp
  | 1 => exact encodes_page1 hi hp
  | 2 => exact encodes_page2 hi hp
  | 3 => exact encodes_page3 hi hp
  | 4 => exact encodes_page4 hi hp
  | 5 => exact encodes_page5 hi hp
  | 6 => exact encodes_page6 hi hp
  | n + 7 => omega

theorem encode_eq {i : Instr} (he : i.encodable = true) : encode i = (fieldsOf i).words.map (BitVec.ofNat 16) := if_pos he

/-- Whatever stands behind it, an instruction's encoding decodes to it (R80, R88). -/
theorem decode_encode {i : Instr} (rest : List H16) (he : i.encodable = true) (hi : i.wellFormed = true)
    (hn : (encode i).length ≤ 5) : decode (encode i ++ rest) = some (i, (encode i).length) := by
  obtain ⟨hfit, hinstr⟩ := Instr.encodes he hi
  rw [encode_eq he, List.length_map] at hn ⊢
  rw [Fields.decode_words hfit hn, hinstr]
  rfl

end Sys2Proof
end

section
/-! What the decoder accepts: the prefixes read and the immediates formed. -/

namespace Sys2Proof

/-! ## What the decoder accepts -/

/-- What the prefixes read so far hold, `n` words of them (R70 to R74). -/
structure Pfx.Sane (p : Pfx) (n : Nat) : Prop where
  count : bit p.pageSeen + bit p.rexSeen + bit p.modSeen + p.imx.length = n
  page : p.pageSeen = false → p.page = 0
  rex : p.rexSeen = false → p.x = none ∧ p.dh = false ∧ p.ah = false ∧ p.bh = false
  mod : p.modSeen = false → p.mod = Mod.none
  imxCount : p.imx.length ≤ 3
  imxBody : ∀ b ∈ p.imx, b < 1024

theorem Pfx.sane_init : Pfx.init.Sane 0 :=
  ⟨rfl, fun _ => rfl, fun _ => ⟨rfl, rfl, rfl, rfl⟩, fun _ => rfl, by decide, by simp [Pfx.init]⟩

/-- Each word read before the base word adds one thing that was not said before (R70 to R74). -/
theorem Pfx.Sane.push {p q : Pfx} {n h : Nat} (hp : p.Sane n) (hq : p.push h = some q) : q.Sane (n + 1) := by
  obtain ⟨hcount, hpage, hrex, hmod, himx, hbody⟩ := hp
  unfold Pfx.push at hq
  split at hq
  · split at hq
    · simp at hq
    · next hroom =>
      obtain rfl := Option.some.inj hq
      refine ⟨?_, hpage, hrex, hmod, ?_, ?_⟩
      · simp only [List.length_append, List.length_singleton]
        omega
      · simp only [List.length_append, List.length_singleton]
        omega
      · simpa [or_imp, forall_and] using ⟨hbody, Nat.mod_lt h (show 1024 > 0 by decide)⟩
  · split at hq
    · simp at hq
    · next hnew =>
      simp only [Bool.or_eq_true, not_or, Bool.not_eq_true] at hnew
      obtain rfl := Option.some.inj hq
      exact ⟨by simp only [hnew.1.1, bit] at hcount ⊢; simp at hcount ⊢; omega, hpage, by simp, hmod, himx, hbody⟩
  · split at hq
    · simp at hq
    · next hnew =>
      simp only [Bool.or_eq_true, not_or, Bool.not_eq_true] at hnew
      obtain rfl := Option.some.inj hq
      exact ⟨by simp only [hnew.1.1, bit] at hcount ⊢; simp at hcount ⊢; omega, by simp, hrex, hmod, himx, hbody⟩
  · split at hq
    · simp at hq
    · next hnew =>
      simp only [Bool.or_eq_true, not_or, Bool.not_eq_true] at hnew
      obtain rfl := Option.some.inj hq
      exact ⟨by simp only [hnew.1, bit] at hcount ⊢; simp at hcount ⊢; omega, hpage, hrex, by simp, himx, hbody⟩

/-- Fields that say no more than prefixes do. -/
structure Fields.Within (f : Fields) (p : Pfx) : Prop where
  page : f.page = p.page
  x : f.x.isSome = true → p.x.isSome = true
  dh : f.dh = true → p.dh = true
  ah : f.ah = true → p.ah = true
  bh : f.bh = true → p.bh = true
  mod : p.mod.isNone = true → f.mod.isNone = true
  imx : f.imx.length ≤ p.imx.length

/-- An encoding is no longer than the words that say what it says (R88). -/
theorem Fields.Within.length_le {f : Fields} {p : Pfx} {n : Nat} (hf : f.Within p) (hp : p.Sane n) : f.words.length ≤ n + 1 := by
  have hpage : f.pageWords.length ≤ bit p.pageSeen := by
    unfold pageWords
    split
    · simp
    · next h =>
      have : p.pageSeen = true := by
        by_contra hs
        exact h (hf.page.trans (hp.page (Bool.not_eq_true _ ▸ hs)))
      simp [this, bit]
  have hrex : f.rexWords.length ≤ bit p.rexSeen := by
    cases hs : p.rexSeen with
    | true =>
      unfold rexWords
      split
      · simp [bit]
      · split <;> simp [bit]
    | false =>
      obtain ⟨hx, hd, ha, hb⟩ := hp.rex hs
      have h1 : f.x = none := by simpa [hx] using mt hf.x
      have h2 : f.dh = false := by simpa [hd] using mt hf.dh
      have h3 : f.ah = false := by simpa [ha] using mt hf.ah
      have h4 : f.bh = false := by simpa [hb] using mt hf.bh
      simp [rexWords, h1, h2, h3, h4]
  have hmod : f.modWords.length ≤ bit p.modSeen := by
    cases hs : p.modSeen with
    | true =>
      unfold modWords
      split <;> simp [bit]
    | false => simp [modWords, hf.mod (by rw [hp.mod hs]; rfl)]
  have himx := hf.imx
  have hcount := hp.count
  simp only [words, List.length_append, List.length_map, List.length_singleton]
  omega

/-- An instruction that the map has, admitted, and with an encoding that says no more than prefixes do. -/
structure Instr.Admitted (i : Instr) (p : Pfx) : Prop where
  encodable : i.encodable = true
  wellFormed : i.wellFormed = true
  within : (fieldsOf i).Within p

theorem accept_eq_some {ok : Bool} {c i : Instr} (h : accept ok c = some i) : ok = true ∧ c = i := by
  unfold accept at h
  split at h
  · next hok => exact ⟨hok, Option.some.inj h⟩
  · simp at h

/-! ## Immediates that decode -/

theorem fitsSigned_mono {m n : Nat} {v : W64} (hmn : m ≤ n) (hn : n ≤ 64) (h : fitsSigned m v = true) : fitsSigned n v = true := by
  simp only [fitsSigned, Bool.or_eq_true, decide_eq_true_eq] at h ⊢
  have hle : 2 ^ (m - 1) ≤ 2 ^ (n - 1) := Nat.pow_le_pow_right (by decide) (by omega)
  have hbig : 2 ^ (n - 1) ≤ 2 ^ 64 := Nat.pow_le_pow_right (by decide) (by omega)
  omega

theorem fitsSigned_signedField {n v : Nat} (hn : 0 < n) (hn64 : n ≤ 64) (hv : v < 2 ^ n) : fitsSigned n (signedField n v) = true := by
  obtain ⟨k, rfl⟩ : ∃ k, n = k + 1 := ⟨n - 1, by omega⟩
  have hk : 2 ^ (k + 1) = 2 * 2 ^ k := by rw [Nat.pow_succ]; omega
  have hle : 2 ^ (k + 1) ≤ 2 ^ 64 := Nat.pow_le_pow_right (by decide) (by omega)
  simp only [fitsSigned, signedField, Nat.add_sub_cancel, Bool.or_eq_true, decide_eq_true_eq]
  split <;> rw [BitVec.toNat_ofNat, Nat.mod_eq_of_lt (by omega)] <;> omega

theorem foldl_bodies_lt {l : List Nat} {acc k : Nat} (hl : ∀ b ∈ l, b < 1024) (ha : acc < 2 ^ k) :
    l.foldl (fun acc b => acc * 1024 + b) acc < 2 ^ (k + 10 * l.length) := by
  induction l generalizing acc k with
  | nil => simpa using ha
  | cons b l ih =>
    obtain ⟨hb, hl⟩ := List.forall_mem_cons.mp hl
    have hstep : acc * 1024 + b < 2 ^ (k + 10) := by rw [Nat.pow_add]; omega
    have := ih hl hstep
    rw [List.foldl_cons, List.length_cons]
    rwa [show k + 10 * (l.length + 1) = k + 10 + 10 * l.length by omega]

theorem combined_lt {l : List Nat} {w own : Nat} (hl : ∀ b ∈ l, b < 1024) (ho : own < 2 ^ w) :
    combined l w own < 2 ^ (w + 10 * l.length) := by
  have h := foldl_bodies_lt (acc := 0) (k := 0) hl (by decide)
  rw [Nat.zero_add] at h
  rw [combined, Nat.pow_add, Nat.mul_comm (2 ^ w)]
  calc _ < l.foldl (fun acc b => acc * 1024 + b) 0 * 2 ^ w + 2 ^ w := by omega
    _ = (l.foldl (fun acc b => acc * 1024 + b) 0 + 1) * 2 ^ w := by ring
    _ ≤ 2 ^ (10 * l.length) * 2 ^ w := Nat.mul_le_mul_right _ h

theorem imxCount_le_of_fits {bs : Bool} {w n : Nat} {v : W64} (hn : 0 < n) (hn3 : n ≤ 3) (h : fitsSigned (w + 10 * n) v = true) :
    imxCount bs w v ≤ n := by
  obtain rfl | rfl | rfl : n = 1 ∨ n = 2 ∨ n = 3 := by omega
  · simp only [imxCount, show fitsSigned (w + 10) v = true from h]
    split_ifs <;> omega
  · simp only [imxCount, show fitsSigned (w + 20) v = true from h]
    split_ifs <;> omega
  · exact imxCount_le bs w v

/-- An immediate that the decoder forms fits its field with the IMX words read, and needs no more of them (R71, R78, R88). -/
theorem immediate_fits {bs : Bool} {l : List Nat} {w own : Nat} (hw : 0 < w) (hw' : w ≤ 34) (hn : l.length ≤ 3)
    (hl : ∀ b ∈ l, b < 1024) (ho : own < 2 ^ w) :
    fitsSigned (w + 30) (immediate bs l w own) = true ∧
      ∀ m, (imxBodies (imxCount bs w (immediate bs l w own)) w m).length ≤ l.length := by
  simp only [imxBodies_length (imxCount_le _ _ _)]
  cases l with
  | nil =>
    have hself : fitsSigned w (signedField w own) = true := fitsSigned_signedField hw (by omega) ho
    have hle : 2 ^ w ≤ 2 ^ (w + 29) := Nat.pow_le_pow_right (by decide) (by omega)
    have hbig : 2 ^ (w + 29) < 2 ^ 64 := Nat.pow_lt_pow_right (by decide) (by omega)
    have hown : (BitVec.ofNat 64 own).toNat = own := Nat.mod_eq_of_lt (by omega)
    cases bs with
    | true => exact ⟨fitsSigned_mono (by omega) (by omega) hself, fun _ => by simp [immediate, imxCount, hself]⟩
    | false =>
      refine ⟨?_, fun _ => by simp [immediate, imxCount, hown, ho]⟩
      simp only [immediate, fitsSigned, hown, Bool.or_eq_true, decide_eq_true_eq, Bool.false_eq_true, if_false]
      exact .inl (by simpa using by omega)
  | cons b l =>
    have hfit : fitsSigned (w + 10 * (b :: l).length) (immediate bs (b :: l) w own) = true :=
      fitsSigned_signedField (by omega) (by omega) (combined_lt hl ho)
    refine ⟨fitsSigned_mono (by omega) (by omega) hfit, fun _ => ?_⟩
    exact imxCount_le_of_fits (by simp) hn hfit

/-- LIH needs no more IMX words than have been read (R71). -/
theorem lihCount_le_length {l : List Nat} {own : Nat} (hl : ∀ b ∈ l, b < 1024) (ho : own < 2 ^ 8) :
    lihCount (combined l 8 own) ≤ l.length := by
  have h := combined_lt hl ho
  by_cases h3 : 3 ≤ l.length
  · exact (lihCount_le _).trans h3
  obtain h0 | h1 | h2 : l.length = 0 ∨ l.length = 1 ∨ l.length = 2 := by omega
  all_goals
    simp only [lihCount, *] at h ⊢
    split_ifs <;> omega

end Sys2Proof
end

section
/-! Each form and each page of the map: what decodes is admitted. -/

namespace Sys2Proof

section
/-- What the decoder gives is admitted, where it gives an instruction. -/
def Admits (p : Pfx) (o : Option Instr) : Prop := ∀ i, o = some i → i.Admitted p

theorem admits_none (p : Pfx) : Admits p none := by
  intro i h
  simp at h

variable {p : Pfx} {w n : Nat}

theorem formRRX_admits {c : Reg → Reg → Option Reg → Instr} {pg maj fn : Nat} (hpg : p.page = pg)
    (hc : ∀ (d a : Reg) (x : Option Reg), (c d a x).encodable = true ∧ (c d a x).wellFormed = true ∧ fieldsOf (c d a x) = encRRX pg maj fn
        d a x) :
    Admits p (formRRX c p w) := by
  intro i h
  obtain ⟨hok, rfl⟩ := accept_eq_some h
  obtain ⟨he, hw, hf⟩ := hc (p.rD w) (p.rA w 4) p.x
  refine ⟨he, hw, hf ▸ ⟨hpg.symm, ?_, ?_, ?_, ?_, ?_, ?_⟩⟩ <;>
    simp [encRRX, Fields.bare, Pfx.rD, Pfx.rA]

theorem formRR_admits {c : Reg → Reg → Instr} {pg maj fn : Nat} (hpg : p.page = pg)
    (hc : ∀ (d a : Reg), (c d a).encodable = true ∧ (c d a).wellFormed = true ∧ fieldsOf (c d a) = encRR pg maj fn d a) :
    Admits p (formRR c p w) := by
  intro i h
  obtain ⟨hok, rfl⟩ := accept_eq_some h
  obtain ⟨he, hw, hf⟩ := hc (p.rD w) (p.rA w 4)
  refine ⟨he, hw, hf ▸ ⟨hpg.symm, ?_, ?_, ?_, ?_, ?_, ?_⟩⟩ <;>
    simp [encRR, encRRX, Fields.bare, Pfx.rD, Pfx.rA]

theorem formCMP_admits {c : Num3 → Reg → Option Reg → Instr} {pg maj fn : Nat} (hpg : p.page = pg)
    (hc : ∀ (p : Num3) (a : Reg) (x : Option Reg), (c p a x).encodable = true ∧ (c p a x).wellFormed = true ∧ fieldsOf (c p a x) = encCMP
        pg maj fn p a x) :
    Admits p (formCMP c p w) := by
  intro i h
  obtain ⟨hok, rfl⟩ := accept_eq_some h
  obtain ⟨he, hw, hf⟩ := hc (f3 w 8) (p.rA w 4) p.x
  refine ⟨he, hw, hf ▸ ⟨hpg.symm, ?_, ?_, ?_, ?_, ?_, ?_⟩⟩ <;>
    simp [encCMP, Fields.bare, Pfx.rA]

theorem formDI_admits {c : Reg → W64 → Instr} {pg maj : Nat} (hs : p.Sane n) (hpg : p.page = pg)
    (hc : ∀ (d : Reg) (imm : W64), (c d imm).encodable = true ∧ (c d imm).wellFormed = fitsSigned 38 imm ∧ fieldsOf (c d imm) = encDI pg
        maj 0 d imm) :
    Admits p (formDI c p w) := by
  intro i h
  obtain ⟨hok, rfl⟩ := accept_eq_some h
  obtain ⟨he, hw, hf⟩ := hc (p.rD w) (immediate true p.imx 8 (w % 256))
  obtain ⟨hfit, himx⟩ := immediate_fits (bs := true) (w := 8) (own := w % 256) (by decide) (by decide) hs.imxCount hs.imxBody (Nat.mod_lt
      w (by decide))
  refine ⟨he, hw.trans hfit, hf ▸ ⟨hpg.symm, ?_, ?_, ?_, ?_, ?_, ?_⟩⟩ <;>
    simp [encDI, Fields.bare, Pfx.rD, himx]

theorem formLIH_admits {c : Reg → W32 → Instr} {pg maj : Nat} (hs : p.Sane n) (hpg : p.page = pg)
    (hc : ∀ (d : Reg) (imm : W32), (c d imm).encodable = true ∧ (c d imm).wellFormed = true ∧ fieldsOf (c d imm) = encLIH pg maj 0 d imm)
        :
    Admits p (formLIH c p w) := by
  intro i h
  obtain ⟨hok, rfl⟩ := accept_eq_some h
  obtain ⟨he, hw, hf⟩ := hc (p.rD w) (BitVec.ofNat 32 (combined p.imx 8 (w % 256)))
  simp only [Bool.and_eq_true, decide_eq_true_eq] at hok
  have hown : w % 256 < 2 ^ 8 := Nat.mod_lt w (by decide)
  have himx := lihCount_le_length hs.imxBody hown
  have himm : combined p.imx 8 (w % 256) % 4294967296 = combined p.imx 8 (w % 256) := Nat.mod_eq_of_lt hok.2
  refine ⟨he, hw, hf ▸ ⟨hpg.symm, ?_, ?_, ?_, ?_, ?_, ?_⟩⟩ <;>
    simp [encLIH, Fields.bare, Pfx.rD, imxBodies_length (lihCount_le _), himm, himx]

theorem formSH_admits {c : Reg → BitVec 6 → Instr} {pg maj fn : Nat} (hpg : p.page = pg)
    (hc : ∀ (d : Reg) (n : BitVec 6), (c d n).encodable = true ∧ (c d n).wellFormed = true ∧ fieldsOf (c d n) = encSH pg maj fn d n) :
    Admits p (formSH c p w) := by
  intro i h
  obtain ⟨hok, rfl⟩ := accept_eq_some h
  obtain ⟨he, hw, hf⟩ := hc (p.rD w) (BitVec.ofNat 6 w)
  refine ⟨he, hw, hf ▸ ⟨hpg.symm, ?_, ?_, ?_, ?_, ?_, ?_⟩⟩ <;>
    simp [encSH, Fields.bare, Pfx.rD]

theorem formCMPI_admits {c : Num3 → Reg → BitVec 2 → W64 → Instr} {pg maj : Nat} (hs : p.Sane n) (hpg : p.page = pg)
    (hc : ∀ (p : Num3) (a : Reg) (c2 : BitVec 2) (imm : W64), (c p a c2 imm).encodable = true ∧ (c p a c2 imm).wellFormed = fitsSigned 33
        imm ∧ fieldsOf (c p a c2 imm) = encCMPI pg maj 0 p a c2 imm) :
    Admits p (formCMPI c p w) := by
  intro i h
  obtain ⟨hok, rfl⟩ := accept_eq_some h
  obtain ⟨he, hw, hf⟩ := hc (f3 w 9) (p.rA w 5) (f2 w 3) (immediate true p.imx 3 (w % 8))
  obtain ⟨hfit, himx⟩ := immediate_fits (bs := true) (w := 3) (own := w % 8) (by decide) (by decide) hs.imxCount hs.imxBody (Nat.mod_lt w
      (by decide))
  refine ⟨he, hw.trans hfit, hf ▸ ⟨hpg.symm, ?_, ?_, ?_, ?_, ?_, ?_⟩⟩ <;>
    simp [encCMPI, Fields.bare, Pfx.rA, himx]

theorem formBR_admits {c : W64 → Instr} {pg maj : Nat} (hs : p.Sane n) (hpg : p.page = pg)
    (hc : ∀ (off : W64), (c off).encodable = true ∧ (c off).wellFormed = fitsSigned 42 off ∧ fieldsOf (c off) = encBR pg maj 0 off) :
    Admits p (formBR c p w) := by
  intro i h
  obtain ⟨hok, rfl⟩ := accept_eq_some h
  obtain ⟨he, hw, hf⟩ := hc (immediate true p.imx 12 (w % 4096))
  obtain ⟨hfit, himx⟩ := immediate_fits (bs := true) (w := 12) (own := w % 4096) (by decide) (by decide) hs.imxCount hs.imxBody
      (Nat.mod_lt w (by decide))
  refine ⟨he, hw.trans hfit, hf ▸ ⟨hpg.symm, ?_, ?_, ?_, ?_, ?_, ?_⟩⟩ <;>
    simp [encBR, Fields.bare, himx]

theorem formBP_admits {c : Num3 → Bool → W64 → Instr} {pg maj : Nat} (hs : p.Sane n) (hpg : p.page = pg)
    (hc : ∀ (p : Num3) (sense : Bool) (off : W64), (c p sense off).encodable = true ∧ (c p sense off).wellFormed = fitsSigned 38 off ∧
        fieldsOf (c p sense off) = encBP pg maj 0 p sense off) :
    Admits p (formBP c p w) := by
  intro i h
  obtain ⟨hok, rfl⟩ := accept_eq_some h
  obtain ⟨he, hw, hf⟩ := hc (f3 w 9) (bitAt w 8) (immediate true p.imx 8 (w % 256))
  obtain ⟨hfit, himx⟩ := immediate_fits (bs := true) (w := 8) (own := w % 256) (by decide) (by decide) hs.imxCount hs.imxBody (Nat.mod_lt
      w (by decide))
  refine ⟨he, hw.trans hfit, hf ▸ ⟨hpg.symm, ?_, ?_, ?_, ?_, ?_, ?_⟩⟩ <;>
    simp [encBP, Fields.bare, himx]

theorem formA_admits {c : Reg → Instr} {pg maj fn : Nat} (hpg : p.page = pg)
    (hc : ∀ (a : Reg), (c a).encodable = true ∧ (c a).wellFormed = true ∧ fieldsOf (c a) = encA pg maj fn a) :
    Admits p (formA c p w) := by
  intro i h
  obtain ⟨hok, rfl⟩ := accept_eq_some h
  obtain ⟨he, hw, hf⟩ := hc (p.rA w 4)
  refine ⟨he, hw, hf ▸ ⟨hpg.symm, ?_, ?_, ?_, ?_, ?_, ?_⟩⟩ <;>
    simp [encA, Fields.bare, Pfx.rA]

theorem formD_admits {c : Reg → Instr} {pg maj fn : Nat} (hpg : p.page = pg)
    (hc : ∀ (d : Reg), (c d).encodable = true ∧ (c d).wellFormed = true ∧ fieldsOf (c d) = encD pg maj fn d) :
    Admits p (formD c p w) := by
  intro i h
  obtain ⟨hok, rfl⟩ := accept_eq_some h
  obtain ⟨he, hw, hf⟩ := hc (p.rD w)
  refine ⟨he, hw, hf ▸ ⟨hpg.symm, ?_, ?_, ?_, ?_, ?_, ?_⟩⟩ <;>
    simp [encD, Fields.bare, Pfx.rD]

theorem formNONE_admits {c : Instr} {pg maj fn : Nat} (hpg : p.page = pg)
    (hc : c.encodable = true ∧ c.wellFormed = true ∧ fieldsOf c = encNONE pg maj fn) :
    Admits p (formNONE c p w) := by
  intro i h
  obtain ⟨hok, rfl⟩ := accept_eq_some h
  obtain ⟨he, hw, hf⟩ := hc
  refine ⟨he, hw, hf ▸ ⟨hpg.symm, ?_, ?_, ?_, ?_, ?_, ?_⟩⟩ <;>
    simp [encNONE, Fields.bare]

theorem formPP_admits {c : Num3 → Num3 → Instr} {pg maj fn : Nat} (hpg : p.page = pg)
    (hc : ∀ (d a : Num3), (c d a).encodable = true ∧ (c d a).wellFormed = true ∧ fieldsOf (c d a) = encPP pg maj fn d a) :
    Admits p (formPP c p w) := by
  intro i h
  obtain ⟨hok, rfl⟩ := accept_eq_some h
  obtain ⟨he, hw, hf⟩ := hc (f3 w 8) (f3 w 4)
  refine ⟨he, hw, hf ▸ ⟨hpg.symm, ?_, ?_, ?_, ?_, ?_, ?_⟩⟩ <;>
    simp [encPP, Fields.bare]

theorem formLD_admits {c : Reg → Reg → W64 → Mod → Instr} {pg maj : Nat} (hs : p.Sane n) (hpg : p.page = pg)
    (hc : ∀ (d a : Reg) (off : W64) (m : Mod), (c d a off m).encodable = true ∧ (c d a off m).wellFormed = (fitsSigned 34 off && m.okLoad)
        ∧ fieldsOf (c d a off m) = encLD pg maj 0 d a off m) :
    Admits p (formLD c p w) := by
  intro i h
  obtain ⟨hok, rfl⟩ := accept_eq_some h
  obtain ⟨he, hw, hf⟩ := hc (p.rD w) (p.rA w 4) (immediate false p.imx 4 (w % 16)) p.mod
  obtain ⟨hfit, himx⟩ := immediate_fits (bs := false) (w := 4) (own := w % 16) (by decide) (by decide) hs.imxCount hs.imxBody (Nat.mod_lt
      w (by decide))
  rw [Bool.and_eq_true] at hok
  refine ⟨he, by rw [hw, hfit, hok.2]; rfl, hf ▸ ⟨hpg.symm, ?_, ?_, ?_, ?_, ?_, ?_⟩⟩ <;>
    simp [encLD, Fields.bare, Pfx.rD, Pfx.rA, himx]

theorem formST_admits {c : Reg → Reg → W64 → Mod → Instr} {pg maj : Nat} (hs : p.Sane n) (hpg : p.page = pg)
    (hc : ∀ (d a : Reg) (off : W64) (m : Mod), (c d a off m).encodable = true ∧ (c d a off m).wellFormed = (fitsSigned 34 off &&
        m.okStore) ∧ fieldsOf (c d a off m) = encST pg maj 0 d a off m) :
    Admits p (formST c p w) := by
  intro i h
  obtain ⟨hok, rfl⟩ := accept_eq_some h
  obtain ⟨he, hw, hf⟩ := hc (p.rD w) (p.rA w 4) (immediate false p.imx 4 (w % 16)) p.mod
  obtain ⟨hfit, himx⟩ := immediate_fits (bs := false) (w := 4) (own := w % 16) (by decide) (by decide) hs.imxCount hs.imxBody (Nat.mod_lt
      w (by decide))
  rw [Bool.and_eq_true] at hok
  refine ⟨he, by rw [hw, hfit, hok.2]; rfl, hf ▸ ⟨hpg.symm, ?_, ?_, ?_, ?_, ?_, ?_⟩⟩ <;>
    simp [encST, encLD, Fields.bare, Pfx.rD, Pfx.rA, himx]

theorem formFEL_admits {c : Reg → Reg → Mod → Instr} {pg maj fn : Nat} (hpg : p.page = pg)
    (hc : ∀ (d a : Reg) (m : Mod), (c d a m).encodable = true ∧ (c d a m).wellFormed = m.okLoad ∧ fieldsOf (c d a m) = encFEL pg maj fn d
        a m) :
    Admits p (formFEL c p w) := by
  intro i h
  obtain ⟨hok, rfl⟩ := accept_eq_some h
  obtain ⟨he, hw, hf⟩ := hc (p.rD w) (p.rA w 4) p.mod
  simp only [Bool.and_eq_true] at hok
  refine ⟨he, hw.trans hok.2, hf ▸ ⟨hpg.symm, ?_, ?_, ?_, ?_, ?_, ?_⟩⟩ <;>
    simp [encFEL, encRRX, Fields.bare, Pfx.rD, Pfx.rA]

theorem formFES_admits {c : Reg → Reg → Mod → Instr} {pg maj fn : Nat} (hpg : p.page = pg)
    (hc : ∀ (d a : Reg) (m : Mod), (c d a m).encodable = true ∧ (c d a m).wellFormed = m.okStore ∧ fieldsOf (c d a m) = encFES pg maj fn d
        a m) :
    Admits p (formFES c p w) := by
  intro i h
  obtain ⟨hok, rfl⟩ := accept_eq_some h
  obtain ⟨he, hw, hf⟩ := hc (p.rD w) (p.rA w 4) p.mod
  simp only [Bool.and_eq_true] at hok
  refine ⟨he, hw.trans hok.2, hf ▸ ⟨hpg.symm, ?_, ?_, ?_, ?_, ?_, ?_⟩⟩ <;>
    simp [encFES, encFEL, encRRX, Fields.bare, Pfx.rD, Pfx.rA]

theorem formPA_admits {c : Num3 → Reg → Instr} {pg maj fn : Nat} (hpg : p.page = pg)
    (hc : ∀ (p : Num3) (a : Reg), (c p a).encodable = true ∧ (c p a).wellFormed = true ∧ fieldsOf (c p a) = encPA pg maj fn p a) :
    Admits p (formPA c p w) := by
  intro i h
  obtain ⟨hok, rfl⟩ := accept_eq_some h
  obtain ⟨he, hw, hf⟩ := hc (f3 w 8) (p.rA w 4)
  refine ⟨he, hw, hf ▸ ⟨hpg.symm, ?_, ?_, ?_, ?_, ?_, ?_⟩⟩ <;>
    simp [encPA, encCMP, Fields.bare, Pfx.rA]

theorem formTABL_admits {c : Num3 → Reg → Reg → Mod → Instr} {pg maj fn : Nat} (hpg : p.page = pg)
    (hc : ∀ (t : Num3) (a b : Reg) (m : Mod), (c t a b m).encodable = true ∧ (c t a b m).wellFormed = m.okLoad ∧ fieldsOf (c t a b m) =
        encTABL pg maj fn t a b m) :
    Admits p (formTABL c p w) := by
  intro i h
  obtain ⟨hok, rfl⟩ := accept_eq_some h
  obtain ⟨he, hw, hf⟩ := hc (f3 w 9) (p.rA w 5) (p.rB w 1) p.mod
  simp only [Bool.and_eq_true] at hok
  refine ⟨he, hw.trans hok.2, hf ▸ ⟨hpg.symm, ?_, ?_, ?_, ?_, ?_, ?_⟩⟩ <;>
    simp [encTABL, Fields.bare, Pfx.rA, Pfx.rB]

theorem formTABS_admits {c : Num3 → Reg → Reg → Mod → Instr} {pg maj fn : Nat} (hpg : p.page = pg)
    (hc : ∀ (t : Num3) (a b : Reg) (m : Mod), (c t a b m).encodable = true ∧ (c t a b m).wellFormed = m.okStore ∧ fieldsOf (c t a b m) =
        encTABS pg maj fn t a b m) :
    Admits p (formTABS c p w) := by
  intro i h
  obtain ⟨hok, rfl⟩ := accept_eq_some h
  obtain ⟨he, hw, hf⟩ := hc (f3 w 9) (p.rA w 5) (p.rB w 1) p.mod
  simp only [Bool.and_eq_true] at hok
  refine ⟨he, hw.trans hok.2, hf ▸ ⟨hpg.symm, ?_, ?_, ?_, ?_, ?_, ?_⟩⟩ <;>
    simp [encTABS, encTABL, Fields.bare, Pfx.rA, Pfx.rB]

theorem formTXL_admits {c : Num3 → Num3 → Reg → Mod → Instr} {pg maj fn : Nat} (hpg : p.page = pg)
    (hc : ∀ (t x : Num3) (a : Reg) (m : Mod), (c t x a m).encodable = true ∧ (c t x a m).wellFormed = m.okLoad ∧ fieldsOf (c t x a m) =
        encTXL pg maj fn t x a m) :
    Admits p (formTXL c p w) := by
  intro i h
  obtain ⟨hok, rfl⟩ := accept_eq_some h
  obtain ⟨he, hw, hf⟩ := hc (f3 w 9) (f3 w 6) (p.rA w 2) p.mod
  simp only [Bool.and_eq_true] at hok
  refine ⟨he, hw.trans hok.2, hf ▸ ⟨hpg.symm, ?_, ?_, ?_, ?_, ?_, ?_⟩⟩ <;>
    simp [encTXL, Fields.bare, Pfx.rA]

theorem formTXS_admits {c : Num3 → Num3 → Reg → Mod → Instr} {pg maj fn : Nat} (hpg : p.page = pg)
    (hc : ∀ (t x : Num3) (a : Reg) (m : Mod), (c t x a m).encodable = true ∧ (c t x a m).wellFormed = m.okStore ∧ fieldsOf (c t x a m) =
        encTXS pg maj fn t x a m) :
    Admits p (formTXS c p w) := by
  intro i h
  obtain ⟨hok, rfl⟩ := accept_eq_some h
  obtain ⟨he, hw, hf⟩ := hc (f3 w 9) (f3 w 6) (p.rA w 2) p.mod
  simp only [Bool.and_eq_true] at hok
  refine ⟨he, hw.trans hok.2, hf ▸ ⟨hpg.symm, ?_, ?_, ?_, ?_, ?_, ?_⟩⟩ <;>
    simp [encTXS, encTXL, Fields.bare, Pfx.rA]

theorem formDRAIN_admits {c : BitVec 2 → Instr} {pg maj fn : Nat} (hpg : p.page = pg)
    (hc : ∀ (path : BitVec 2), (c path).encodable = true ∧ (c path).wellFormed = true ∧ fieldsOf (c path) = encDRAIN pg maj fn path) :
    Admits p (formDRAIN c p w) := by
  intro i h
  obtain ⟨hok, rfl⟩ := accept_eq_some h
  obtain ⟨he, hw, hf⟩ := hc (f2 w 8)
  refine ⟨he, hw, hf ▸ ⟨hpg.symm, ?_, ?_, ?_, ?_, ?_, ?_⟩⟩ <;>
    simp [encDRAIN, Fields.bare]

theorem formRECV_admits {c : Reg → Reg → Mod → Instr} {pg maj fn : Nat} (hpg : p.page = pg)
    (hc : ∀ (d a : Reg) (m : Mod), (c d a m).encodable = true ∧ (c d a m).wellFormed = m.okLoad ∧ fieldsOf (c d a m) = encRECV pg maj fn d
        a m) :
    Admits p (formRECV c p w) := by
  intro i h
  obtain ⟨hok, rfl⟩ := accept_eq_some h
  obtain ⟨he, hw, hf⟩ := hc (p.rD w) (p.rA w 4) p.mod
  simp only [Bool.and_eq_true] at hok
  refine ⟨he, hw.trans hok.2, hf ▸ ⟨hpg.symm, ?_, ?_, ?_, ?_, ?_, ?_⟩⟩ <;>
    simp [encRECV, encFEL, encRRX, Fields.bare, Pfx.rD, Pfx.rA]

theorem formTTT_admits {c : Num3 → Num3 → Num3 → Instr} {pg maj fn : Nat} (hpg : p.page = pg)
    (hc : ∀ (d a b : Num3), (c d a b).encodable = true ∧ (c d a b).wellFormed = true ∧ fieldsOf (c d a b) = encTTT pg maj fn d a b) :
    Admits p (formTTT c p w) := by
  intro i h
  obtain ⟨hok, rfl⟩ := accept_eq_some h
  obtain ⟨he, hw, hf⟩ := hc (f3 w 9) (f3 w 6) (f3 w 3)
  refine ⟨he, hw, hf ▸ ⟨hpg.symm, ?_, ?_, ?_, ?_, ?_, ?_⟩⟩ <;>
    simp [encTTT, Fields.bare]

theorem formTT_admits {c : Num3 → Num3 → Instr} {pg maj fn : Nat} (hpg : p.page = pg)
    (hc : ∀ (d a : Num3), (c d a).encodable = true ∧ (c d a).wellFormed = true ∧ fieldsOf (c d a) = encTT pg maj fn d a) :
    Admits p (formTT c p w) := by
  intro i h
  obtain ⟨hok, rfl⟩ := accept_eq_some h
  obtain ⟨he, hw, hf⟩ := hc (f3 w 9) (f3 w 6)
  refine ⟨he, hw, hf ▸ ⟨hpg.symm, ?_, ?_, ?_, ?_, ?_, ?_⟩⟩ <;>
    simp [encTT, Fields.bare]

theorem formTCVT_admits {c : Num3 → Num3 → BitVec 4 → Instr} {pg maj fn : Nat} (hpg : p.page = pg)
    (hc : ∀ (d a : Num3) (ty : BitVec 4), (c d a ty).encodable = true ∧ (c d a ty).wellFormed = decide (ty.toNat ≤ 8) ∧ fieldsOf (c d a
        ty) = encTCVT pg maj fn d a ty) :
    Admits p (formTCVT c p w) := by
  intro i h
  obtain ⟨hok, rfl⟩ := accept_eq_some h
  obtain ⟨he, hw, hf⟩ := hc (f3 w 9) (f3 w 6) (BitVec.ofNat 4 p.mod.spec.toNat)
  simp only [Bool.and_eq_true, Mod.okSpec, decide_eq_true_eq] at hok
  have hspec : p.mod.spec.toNat < 9 := hok.1.2.2
  refine ⟨he, hw.trans (decide_eq_true (by rw [BitVec.toNat_ofNat]; omega)), hf ▸ ⟨hpg.symm, ?_, ?_, ?_, ?_, ?_, ?_⟩⟩ <;>
    simp +contextual [encTCVT, encTT, Fields.bare, Mod.isNone]

theorem formTS_admits {c : Num3 → Reg → Instr} {pg maj fn : Nat} (hpg : p.page = pg)
    (hc : ∀ (t : Num3) (a : Reg), (c t a).encodable = true ∧ (c t a).wellFormed = true ∧ fieldsOf (c t a) = encTS pg maj fn t a) :
    Admits p (formTS c p w) := by
  intro i h
  obtain ⟨hok, rfl⟩ := accept_eq_some h
  obtain ⟨he, hw, hf⟩ := hc (f3 w 9) (p.rA w 5)
  refine ⟨he, hw, hf ▸ ⟨hpg.symm, ?_, ?_, ?_, ?_, ?_, ?_⟩⟩ <;>
    simp [encTS, Fields.bare, Pfx.rA]

theorem formTTS_admits {c : Num3 → Num3 → Reg → Instr} {pg maj fn : Nat} (hpg : p.page = pg)
    (hc : ∀ (d a : Num3) (b : Reg), (c d a b).encodable = true ∧ (c d a b).wellFormed = true ∧ fieldsOf (c d a b) = encTTS pg maj fn d a
        b) :
    Admits p (formTTS c p w) := by
  intro i h
  obtain ⟨hok, rfl⟩ := accept_eq_some h
  obtain ⟨he, hw, hf⟩ := hc (f3 w 9) (f3 w 6) (p.rA w 2)
  refine ⟨he, hw, hf ▸ ⟨hpg.symm, ?_, ?_, ?_, ?_, ?_, ?_⟩⟩ <;>
    simp [encTTS, Fields.bare, Pfx.rA]

theorem formTC_admits {c : Num3 → Num2 → Instr} {pg maj fn : Nat} (hpg : p.page = pg)
    (hc : ∀ (d : Num3) (c2 : Num2), (c d c2).encodable = true ∧ (c d c2).wellFormed = true ∧ fieldsOf (c d c2) = encTC pg maj fn d c2) :
    Admits p (formTC c p w) := by
  intro i h
  obtain ⟨hok, rfl⟩ := accept_eq_some h
  obtain ⟨he, hw, hf⟩ := hc (f3 w 9) (f2 w 7)
  refine ⟨he, hw, hf ▸ ⟨hpg.symm, ?_, ?_, ?_, ?_, ?_, ?_⟩⟩ <;>
    simp [encTC, Fields.bare]

theorem formTCT_admits {c : Num3 → Num2 → Num3 → Instr} {pg maj fn : Nat} (hpg : p.page = pg)
    (hc : ∀ (d : Num3) (c2 : Num2) (b : Num3), (c d c2 b).encodable = true ∧ (c d c2 b).wellFormed = true ∧ fieldsOf (c d c2 b) = encTCT
        pg maj fn d c2 b) :
    Admits p (formTCT c p w) := by
  intro i h
  obtain ⟨hok, rfl⟩ := accept_eq_some h
  obtain ⟨he, hw, hf⟩ := hc (f3 w 9) (f2 w 7) (f3 w 4)
  refine ⟨he, hw, hf ▸ ⟨hpg.symm, ?_, ?_, ?_, ?_, ?_, ?_⟩⟩ <;>
    simp [encTCT, Fields.bare]

theorem formMMA_admits {c : Num3 → Num3 → Num2 → Instr} {pg maj fn : Nat} (hpg : p.page = pg)
    (hc : ∀ (a t : Num3) (w : Num2), (c a t w).encodable = true ∧ (c a t w).wellFormed = true ∧ fieldsOf (c a t w) = encMMA pg maj fn a t
        w) :
    Admits p (formMMA c p w) := by
  intro i h
  obtain ⟨hok, rfl⟩ := accept_eq_some h
  obtain ⟨he, hw, hf⟩ := hc (f3 w 9) (f3 w 6) (f2 w 4)
  refine ⟨he, hw, hf ▸ ⟨hpg.symm, ?_, ?_, ?_, ?_, ?_, ?_⟩⟩ <;>
    simp [encMMA, Fields.bare]

theorem formMMX_admits {c : Num3 → Num3 → Num2 → BitVec 4 → Instr} {pg maj fn : Nat} (hpg : p.page = pg)
    (hc : ∀ (a t : Num3) (w : Num2) (sel : BitVec 4), (c a t w sel).encodable = true ∧ (c a t w sel).wellFormed = true ∧ fieldsOf (c a t w
        sel) = encMMX pg maj fn a t w sel) :
    Admits p (formMMX c p w) := by
  intro i h
  obtain ⟨hok, rfl⟩ := accept_eq_some h
  obtain ⟨he, hw, hf⟩ := hc (f3 w 9) (f3 w 6) (f2 w 4) (BitVec.ofNat 4 p.mod.spec.toNat)
  simp only [Bool.and_eq_true, Mod.okSpec, decide_eq_true_eq] at hok
  have hspec : p.mod.spec.toNat < 16 := hok.2.2
  refine ⟨he, hw, hf ▸ ⟨hpg.symm, ?_, ?_, ?_, ?_, ?_, ?_⟩⟩ <;>
    simp +contextual [encMMX, encMMA, Fields.bare, Mod.isNone]

theorem formWABL_admits {c : Num2 → Reg → Reg → Mod → Instr} {pg maj fn : Nat} (hpg : p.page = pg)
    (hc : ∀ (w : Num2) (a b : Reg) (m : Mod), (c w a b m).encodable = true ∧ (c w a b m).wellFormed = m.okLoad ∧ fieldsOf (c w a b m) =
        encWABL pg maj fn w a b m) :
    Admits p (formWABL c p w) := by
  intro i h
  obtain ⟨hok, rfl⟩ := accept_eq_some h
  obtain ⟨he, hw, hf⟩ := hc (f2 w 10) (p.rA w 6) (p.rB w 2) p.mod
  simp only [Bool.and_eq_true] at hok
  refine ⟨he, hw.trans hok.2, hf ▸ ⟨hpg.symm, ?_, ?_, ?_, ?_, ?_, ?_⟩⟩ <;>
    simp [encWABL, Fields.bare, Pfx.rA, Pfx.rB]

theorem formCHUNK_admits {c : Reg → Reg → Mod → Instr} {pg maj fn : Nat} (hpg : p.page = pg)
    (hc : ∀ (a b : Reg) (m : Mod), (c a b m).encodable = true ∧ (c a b m).wellFormed = m.okChunk ∧ fieldsOf (c a b m) = encCHUNK pg maj fn
        a b m) :
    Admits p (formCHUNK c p w) := by
  intro i h
  obtain ⟨hok, rfl⟩ := accept_eq_some h
  obtain ⟨he, hw, hf⟩ := hc (p.rA w 6) (p.rB w 2) p.mod
  simp only [Bool.and_eq_true] at hok
  refine ⟨he, hw.trans hok.1.2, hf ▸ ⟨hpg.symm, ?_, ?_, ?_, ?_, ?_, ?_⟩⟩ <;>
    simp [encCHUNK, encWABL, Fields.bare, Pfx.rA, Pfx.rB]

theorem formATR_admits {c : Num3 → Num3 → Num3 → Instr} {pg maj fn : Nat} (hpg : p.page = pg)
    (hc : ∀ (a t rb : Num3), (c a t rb).encodable = true ∧ (c a t rb).wellFormed = true ∧ fieldsOf (c a t rb) = encATR pg maj fn a t rb) :
    Admits p (formATR c p w) := by
  intro i h
  obtain ⟨hok, rfl⟩ := accept_eq_some h
  obtain ⟨he, hw, hf⟩ := hc (f3 w 9) (f3 w 6) (f3 w 3)
  refine ⟨he, hw, hf ▸ ⟨hpg.symm, ?_, ?_, ?_, ?_, ?_, ?_⟩⟩ <;>
    simp [encATR, encTTT, Fields.bare]

theorem formACC_admits {c : Num3 → Instr} {pg maj fn : Nat} (hpg : p.page = pg)
    (hc : ∀ (a : Num3), (c a).encodable = true ∧ (c a).wellFormed = true ∧ fieldsOf (c a) = encACC pg maj fn a) :
    Admits p (formACC c p w) := by
  intro i h
  obtain ⟨hok, rfl⟩ := accept_eq_some h
  obtain ⟨he, hw, hf⟩ := hc (f3 w 9)
  refine ⟨he, hw, hf ▸ ⟨hpg.symm, ?_, ?_, ?_, ?_, ?_, ?_⟩⟩ <;>
    simp [encACC, Fields.bare]

theorem formCLM_admits {c : Num3 → BitVec 2 → Instr} {pg maj fn : Nat} (hpg : p.page = pg)
    (hc : ∀ (a : Num3) (ty : BitVec 2), (c a ty).encodable = true ∧ (c a ty).wellFormed = decide (ty.toNat ≤ 2) ∧ fieldsOf (c a ty) =
        encCLM pg maj fn a ty) :
    Admits p (formCLM c p w) := by
  intro i h
  obtain ⟨hok, rfl⟩ := accept_eq_some h
  obtain ⟨he, hw, hf⟩ := hc (f3 w 9) (f2 w 3)
  simp only [Bool.and_eq_true, decide_eq_true_eq] at hok
  refine ⟨he, hw.trans (decide_eq_true (by rw [f2, BitVec.toNat_ofNat]; omega)), hf ▸ ⟨hpg.symm, ?_, ?_, ?_, ?_, ?_, ?_⟩⟩ <;>
    simp [encCLM, Fields.bare]

theorem formW_admits {c : Num2 → Instr} {pg maj fn : Nat} (hpg : p.page = pg)
    (hc : ∀ (w : Num2), (c w).encodable = true ∧ (c w).wellFormed = true ∧ fieldsOf (c w) = encW pg maj fn w) :
    Admits p (formW c p w) := by
  intro i h
  obtain ⟨hok, rfl⟩ := accept_eq_some h
  obtain ⟨he, hw, hf⟩ := hc (f2 w 10)
  refine ⟨he, hw, hf ▸ ⟨hpg.symm, ?_, ?_, ?_, ?_, ?_, ?_⟩⟩ <;>
    simp [encW, Fields.bare]

theorem formTTSEL_admits {c : Num3 → Num3 → BitVec 4 → Instr} {pg maj fn : Nat} (hpg : p.page = pg)
    (hc : ∀ (d a : Num3) (sel : BitVec 4), (c d a sel).encodable = true ∧ (c d a sel).wellFormed = true ∧ fieldsOf (c d a sel) = encTTSEL
        pg maj fn d a sel) :
    Admits p (formTTSEL c p w) := by
  intro i h
  obtain ⟨hok, rfl⟩ := accept_eq_some h
  obtain ⟨he, hw, hf⟩ := hc (f3 w 9) (f3 w 6) (BitVec.ofNat 4 p.mod.spec.toNat)
  simp only [Bool.and_eq_true, Mod.okSpec, decide_eq_true_eq] at hok
  have hspec : p.mod.spec.toNat < 16 := hok.1.2.2
  refine ⟨he, hw, hf ▸ ⟨hpg.symm, ?_, ?_, ?_, ?_, ?_, ?_⟩⟩ <;>
    simp +contextual [encTTSEL, encTT, Fields.bare, Mod.isNone]

theorem formATM_admits {c : Reg → Reg → Mod → Instr} {pg maj fn : Nat} (hpg : p.page = pg)
    (hc : ∀ (d a : Reg) (m : Mod), (c d a m).encodable = true ∧ (c d a m).wellFormed = m.okAtomic ∧ fieldsOf (c d a m) = encATM pg maj fn
        d a m) :
    Admits p (formATM c p w) := by
  intro i h
  obtain ⟨hok, rfl⟩ := accept_eq_some h
  obtain ⟨he, hw, hf⟩ := hc (p.rD w) (p.rA w 4) p.mod
  simp only [Bool.and_eq_true] at hok
  refine ⟨he, hw.trans hok.2, hf ▸ ⟨hpg.symm, ?_, ?_, ?_, ?_, ?_, ?_⟩⟩ <;>
    simp [encATM, encFEL, encRRX, Fields.bare, Pfx.rD, Pfx.rA]

theorem formACAS_admits {c : Reg → Reg → Reg → Mod → Instr} {pg maj fn : Nat} (hpg : p.page = pg)
    (hc : ∀ (d a b : Reg) (m : Mod), (c d a b m).encodable = true ∧ (c d a b m).wellFormed = m.okAtomic ∧ fieldsOf (c d a b m) = encACAS
        pg maj fn d a b m) :
    Admits p (formACAS c p w) := by
  intro i h
  obtain ⟨hok, rfl⟩ := accept_eq_some h
  obtain ⟨he, hw, hf⟩ := hc (p.rD w) (p.rA w 4) (p.x.getD 0) p.mod
  simp only [Pfx.allows, Bool.and_eq_true] at hok
  have hx : p.x.isSome = true := hok.1.1.1.2
  refine ⟨he, hw.trans hok.2, hf ▸ ⟨hpg.symm, ?_, ?_, ?_, ?_, ?_, ?_⟩⟩ <;>
    simp [encACAS, encRRX, Fields.bare, Pfx.rD, Pfx.rA, hx]

theorem formRLSN_admits {c : Reg → Mod → Instr} {pg maj fn : Nat} (hpg : p.page = pg)
    (hc : ∀ (a : Reg) (m : Mod), (c a m).encodable = true ∧ (c a m).wellFormed = m.okAtomic ∧ fieldsOf (c a m) = encRLSN pg maj fn a m) :
    Admits p (formRLSN c p w) := by
  intro i h
  obtain ⟨hok, rfl⟩ := accept_eq_some h
  obtain ⟨he, hw, hf⟩ := hc (p.rA w 4) p.mod
  simp only [Bool.and_eq_true] at hok
  refine ⟨he, hw.trans hok.1.2, hf ▸ ⟨hpg.symm, ?_, ?_, ?_, ?_, ?_, ?_⟩⟩ <;>
    simp [encRLSN, encA, Fields.bare, Pfx.rA]

theorem formFENCE_admits {c : Mod → Instr} {pg maj fn : Nat} (hpg : p.page = pg)
    (hc : ∀ (m : Mod), (c m).encodable = true ∧ (c m).wellFormed = m.okFence ∧ fieldsOf (c m) = encFENCE pg maj fn m) :
    Admits p (formFENCE c p w) := by
  intro i h
  obtain ⟨hok, rfl⟩ := accept_eq_some h
  obtain ⟨he, hw, hf⟩ := hc p.mod
  simp only [Bool.and_eq_true] at hok
  refine ⟨he, hw.trans hok.1.2, hf ▸ ⟨hpg.symm, ?_, ?_, ?_, ?_, ?_, ?_⟩⟩ <;>
    simp [encFENCE, encNONE, Fields.bare]

theorem formWAKE_admits {c : Reg → Reg → Mod → Instr} {pg maj fn : Nat} (hpg : p.page = pg)
    (hc : ∀ (d a : Reg) (m : Mod), (c d a m).encodable = true ∧ (c d a m).wellFormed = m.okWake ∧ fieldsOf (c d a m) = encWAKE pg maj fn d
        a m) :
    Admits p (formWAKE c p w) := by
  intro i h
  obtain ⟨hok, rfl⟩ := accept_eq_some h
  obtain ⟨he, hw, hf⟩ := hc (p.rD w) (p.rA w 4) p.mod
  simp only [Bool.and_eq_true] at hok
  refine ⟨he, hw.trans hok.2, hf ▸ ⟨hpg.symm, ?_, ?_, ?_, ?_, ?_, ?_⟩⟩ <;>
    simp [encWAKE, encFEL, encRRX, Fields.bare, Pfx.rD, Pfx.rA]

theorem formOP_admits {c : Reg → Reg → BitVec 4 → Instr} {pg maj fn : Nat} (hpg : p.page = pg)
    (hc : ∀ (d a : Reg) (op : BitVec 4), (c d a op).encodable = true ∧ (c d a op).wellFormed = decide (op.toNat ≤ 11) ∧ fieldsOf (c d a
        op) = encOP pg maj fn d a op) :
    Admits p (formOP c p w) := by
  intro i h
  obtain ⟨hok, rfl⟩ := accept_eq_some h
  obtain ⟨he, hw, hf⟩ := hc (p.rD w) (p.rA w 4) (BitVec.ofNat 4 p.mod.spec.toNat)
  simp only [Bool.and_eq_true, Mod.okSpec, decide_eq_true_eq] at hok
  have hspec : p.mod.spec.toNat < 12 := hok.2.2
  refine ⟨he, hw.trans (decide_eq_true (by rw [BitVec.toNat_ofNat]; omega)), hf ▸ ⟨hpg.symm, ?_, ?_, ?_, ?_, ?_, ?_⟩⟩ <;>
    simp +contextual [encOP, encRRX, Fields.bare, Pfx.rD, Pfx.rA, Mod.isNone]

theorem formDE_admits {c : Reg → Num2 → Instr} {pg maj fn : Nat} (hpg : p.page = pg)
    (hc : ∀ (d : Reg) (e : Num2), (c d e).encodable = true ∧ (c d e).wellFormed = true ∧ fieldsOf (c d e) = encDE pg maj fn d e) :
    Admits p (formDE c p w) := by
  intro i h
  obtain ⟨hok, rfl⟩ := accept_eq_some h
  obtain ⟨he, hw, hf⟩ := hc (p.rD w) (f2 w 6)
  refine ⟨he, hw, hf ▸ ⟨hpg.symm, ?_, ?_, ?_, ?_, ?_, ?_⟩⟩ <;>
    simp [encDE, Fields.bare, Pfx.rD]

theorem formKIND_admits {c : Num3 → Reg → BitVec 2 → Instr} {pg maj fn : Nat} (hpg : p.page = pg)
    (hc : ∀ (p : Num3) (a : Reg) (kind : BitVec 2), (c p a kind).encodable = true ∧ (c p a kind).wellFormed = true ∧ fieldsOf (c p a kind)
        = encKIND pg maj fn p a kind) :
    Admits p (formKIND c p w) := by
  intro i h
  obtain ⟨hok, rfl⟩ := accept_eq_some h
  obtain ⟨he, hw, hf⟩ := hc (f3 w 8) (p.rA w 4) (BitVec.ofNat 2 p.mod.spec.toNat)
  simp only [Bool.and_eq_true, Mod.okSpec, decide_eq_true_eq] at hok
  have hspec : p.mod.spec.toNat < 4 := hok.1.2.2
  refine ⟨he, hw, hf ▸ ⟨hpg.symm, ?_, ?_, ?_, ?_, ?_, ?_⟩⟩ <;>
    simp +contextual [encKIND, encCMP, Fields.bare, Pfx.rA, Mod.isNone]

theorem formKVW_admits {c : Num2 → Reg → Reg → Mod → Instr} {pg maj fn : Nat} (hpg : p.page = pg)
    (hc : ∀ (w : Num2) (a b : Reg) (m : Mod), (c w a b m).encodable = true ∧ (c w a b m).wellFormed = m.okLoad ∧ fieldsOf (c w a b m) =
        encKVW pg maj fn w a b m) :
    Admits p (formKVW c p w) := by
  intro i h
  obtain ⟨hok, rfl⟩ := accept_eq_some h
  obtain ⟨he, hw, hf⟩ := hc (f2 w 10) (p.rA w 6) (p.rB w 2) p.mod
  simp only [Bool.and_eq_true] at hok
  refine ⟨he, hw.trans hok.1.2, hf ▸ ⟨hpg.symm, ?_, ?_, ?_, ?_, ?_, ?_⟩⟩ <;>
    simp [encKVW, encWABL, Fields.bare, Pfx.rA, Pfx.rB]

theorem formKVTS_admits {c : Num3 → Reg → Reg → Mod → Instr} {pg maj : Nat} (hpg : p.page = pg)
    (hc : ∀ (t : Num3) (a b : Reg) (m : Mod), (c t a b m).encodable = true ∧ (c t a b m).wellFormed = m.okStore ∧ fieldsOf (c t a b m) =
        encKVTS pg maj 0 t a b m) :
    Admits p (formKVTS c p w) := by
  intro i h
  obtain ⟨hok, rfl⟩ := accept_eq_some h
  obtain ⟨he, hw, hf⟩ := hc (f3 w 9) (p.rA w 5) (p.rB w 1) p.mod
  simp only [Bool.and_eq_true] at hok
  refine ⟨he, hw.trans hok.1.2, hf ▸ ⟨hpg.symm, ?_, ?_, ?_, ?_, ?_, ?_⟩⟩ <;>
    simp [encKVTS, encTABL, Fields.bare, Pfx.rA, Pfx.rB]

theorem formKVTL_admits {c : Num3 → Reg → Reg → Mod → Instr} {pg maj : Nat} (hpg : p.page = pg)
    (hc : ∀ (t : Num3) (a b : Reg) (m : Mod), (c t a b m).encodable = true ∧ (c t a b m).wellFormed = m.okLoad ∧ fieldsOf (c t a b m) =
        encKVTL pg maj 0 t a b m) :
    Admits p (formKVTL c p w) := by
  intro i h
  obtain ⟨hok, rfl⟩ := accept_eq_some h
  obtain ⟨he, hw, hf⟩ := hc (f3 w 9) (p.rA w 5) (p.rB w 1) p.mod
  simp only [Bool.and_eq_true] at hok
  refine ⟨he, hw.trans hok.1.2, hf ▸ ⟨hpg.symm, ?_, ?_, ?_, ?_, ?_, ?_⟩⟩ <;>
    simp [encKVTL, encTABL, Fields.bare, Pfx.rA, Pfx.rB]

end

/-! ## Every row of the map -/

theorem decodePage0_admits {p : Pfx} {w n : Nat} (hs : p.Sane n) (hp : p.page = 0) : Admits p (decodePage0 p w) := by
  unfold decodePage0
  repeat' split
  any_goals exact admits_none p
  any_goals with_reducible apply formRRX_admits hp
  any_goals with_reducible apply formRR_admits hp
  any_goals with_reducible apply formCMP_admits hp
  any_goals with_reducible apply formDI_admits hs hp
  any_goals with_reducible apply formLIH_admits hs hp
  any_goals with_reducible apply formSH_admits hp
  any_goals with_reducible apply formCMPI_admits hs hp
  any_goals with_reducible apply formBR_admits hs hp
  any_goals with_reducible apply formBP_admits hs hp
  any_goals with_reducible apply formA_admits hp
  any_goals with_reducible apply formNONE_admits hp
  any_goals with_reducible apply formPP_admits hp
  any_goals with_reducible apply formD_admits hp
  any_goals with_reducible apply formLD_admits hs hp
  any_goals with_reducible apply formST_admits hs hp
  all_goals
    intros
    exact ⟨rfl, rfl, rfl⟩

theorem decodePage1_admits {p : Pfx} {w n : Nat} (hs : p.Sane n) (hp : p.page = 1) : Admits p (decodePage1 p w) := by
  unfold decodePage1
  repeat' split
  any_goals exact admits_none p
  any_goals with_reducible apply formLD_admits hs hp
  any_goals with_reducible apply formST_admits hs hp
  any_goals with_reducible apply formFEL_admits hp
  any_goals with_reducible apply formFES_admits hp
  any_goals with_reducible apply formA_admits hp
  any_goals with_reducible apply formPA_admits hp
  any_goals with_reducible apply formNONE_admits hp
  any_goals with_reducible apply formTABL_admits hp
  any_goals with_reducible apply formTABS_admits hp
  any_goals with_reducible apply formTXL_admits hp
  any_goals with_reducible apply formTXS_admits hp
  any_goals with_reducible apply formRR_admits hp
  any_goals with_reducible apply formDRAIN_admits hp
  any_goals with_reducible apply formRECV_admits hp
  all_goals
    intros
    exact ⟨rfl, rfl, rfl⟩

theorem decodePage2_admits {p : Pfx} {w : Nat} (hp : p.page = 2) : Admits p (decodePage2 p w) := by
  unfold decodePage2
  repeat' split
  any_goals exact admits_none p
  any_goals with_reducible apply formTTT_admits hp
  any_goals with_reducible apply formTT_admits hp
  any_goals with_reducible apply formTCVT_admits hp
  any_goals with_reducible apply formTS_admits hp
  any_goals with_reducible apply formTTS_admits hp
  any_goals with_reducible apply formTC_admits hp
  any_goals with_reducible apply formTCT_admits hp
  all_goals
    intros
    exact ⟨rfl, rfl, rfl⟩

theorem decodePage3_admits {p : Pfx} {w : Nat} (hp : p.page = 3) : Admits p (decodePage3 p w) := by
  unfold decodePage3
  repeat' split
  any_goals exact admits_none p
  any_goals with_reducible apply formMMA_admits hp
  any_goals with_reducible apply formMMX_admits hp
  any_goals with_reducible apply formWABL_admits hp
  any_goals with_reducible apply formCHUNK_admits hp
  any_goals with_reducible apply formATR_admits hp
  any_goals with_reducible apply formACC_admits hp
  any_goals with_reducible apply formCLM_admits hp
  any_goals with_reducible apply formW_admits hp
  any_goals with_reducible apply formTTSEL_admits hp
  all_goals
    intros
    exact ⟨rfl, rfl, rfl⟩

theorem decodePage4_admits {p : Pfx} {w : Nat} (hp : p.page = 4) : Admits p (decodePage4 p w) := by
  unfold decodePage4
  repeat' split
  any_goals exact admits_none p
  any_goals with_reducible apply formATM_admits hp
  any_goals with_reducible apply formACAS_admits hp
  any_goals with_reducible apply formRLSN_admits hp
  any_goals with_reducible apply formRR_admits hp
  any_goals with_reducible apply formFENCE_admits hp
  any_goals with_reducible apply formWAKE_admits hp
  any_goals with_reducible apply formA_admits hp
  any_goals with_reducible apply formNONE_admits hp
  any_goals with_reducible apply formOP_admits hp
  any_goals with_reducible apply formDE_admits hp
  all_goals
    intros
    exact ⟨rfl, rfl, rfl⟩

theorem decodePage5_admits {p : Pfx} {w : Nat} (hp : p.page = 5) : Admits p (decodePage5 p w) := by
  unfold decodePage5
  repeat' split
  any_goals exact admits_none p
  any_goals with_reducible apply formRR_admits hp
  any_goals with_reducible apply formA_admits hp
  any_goals with_reducible apply formNONE_admits hp
  any_goals with_reducible apply formD_admits hp
  any_goals with_reducible apply formKIND_admits hp
  all_goals
    intros
    exact ⟨rfl, rfl, rfl⟩

theorem decodePage6_admits {p : Pfx} {w : Nat} (hp : p.page = 6) : Admits p (decodePage6 p w) := by
  unfold decodePage6
  repeat' split
  any_goals exact admits_none p
  any_goals with_reducible apply formKVW_admits hp
  any_goals with_reducible apply formKVTS_admits hp
  any_goals with_reducible apply formKVTL_admits hp
  any_goals with_reducible apply formTTT_admits hp
  any_goals with_reducible apply formRR_admits hp
  all_goals
    intros
    exact ⟨rfl, rfl, rfl⟩

end Sys2Proof
end

section
/-! Decoding and encoding agree. -/

namespace Sys2Proof

/-! ## What decodes is admitted -/

theorem decodeBase_admits {p : Pfx} {n w : Nat} (hs : p.Sane n) : Admits p (decodeBase p w) := by
  unfold decodeBase
  split
  case h_1 hp => exact decodePage0_admits hs hp
  case h_2 hp => exact decodePage1_admits hs hp
  case h_3 hp => exact decodePage2_admits hp
  case h_4 hp => exact decodePage3_admits hp
  case h_5 hp => exact decodePage4_admits hp
  case h_6 hp => exact decodePage5_admits hp
  case h_7 hp => exact decodePage6_admits hp
  case h_8 => exact admits_none p

theorem Pfx.feed_eq_done {p : Pfx} {n w : Nat} {i : Instr} (h : p.feed n w = .done i) : decodeBase p w = some i := by
  unfold Pfx.feed at h
  split at h
  · split at h
    · simp at h
    · split at h <;> simp at h
  · split at h
    · next hi => rw [hi, Decoded.done.inj h]
    · simp at h

theorem Pfx.feed_eq_more {p q : Pfx} {n w : Nat} (h : p.feed n w = .more q) : p.push w = some q := by
  unfold Pfx.feed at h
  split at h
  · split at h
    · simp at h
    · split at h
      · next hq => rw [hq, Decoded.more.inj h]
      · simp at h
  · split at h <;> simp at h

/-- By induction on the words: after `n` of them, the prefixes read are `n` and no more than four. -/
theorem admitted_of_decodeFrom {p : Pfx} {n m : Nat} {ws : List H16} {i : Instr} (hs : p.Sane n) (hn : n ≤ 4)
    (h : decodeFrom p n ws = some (i, m)) : i.encodable = true ∧ i.wellFormed = true ∧ (encode i).length ≤ m ∧ m ≤ 5 := by
  induction ws generalizing p n with
  | nil => simp [decodeFrom] at h
  | cons w rest ih =>
    unfold decodeFrom at h
    split at h
    · next hdone =>
      obtain ⟨rfl, rfl⟩ := Prod.mk.inj (Option.some.inj h)
      obtain ⟨he, hw, hwithin⟩ := decodeBase_admits hs _ (Pfx.feed_eq_done hdone)
      refine ⟨he, hw, ?_, by omega⟩
      rw [encode_eq he, List.length_map]
      exact hwithin.length_le hs
    · simp at h
    · next hmore =>
      exact ih (hs.push (Pfx.feed_eq_more hmore)) (Pfx.feed_more_lt hn hmore) h

/-- Settles O53: every row of the map has an encoder and a decoder that are each other's inverse, and a decoder that needs no more
words than it read. -/
theorem encodeDecodeAgree : Obligations.EncodeDecodeAgree :=
  ⟨fun _ rest he hw hn => decode_encode rest he hw hn, fun _ _ _ h => admitted_of_decodeFrom Pfx.sane_init (by decide) h⟩

end Sys2Proof
end

section
/-! Scalar instructions (chapters 05 and 06): the values of the operations, and what each form does without its queue ports. -/

namespace Sys2Proof.Machine

open Sys2Proof.Claims

/-! ## The values of the operations (R93 to R95) -/

theorem mulHigh_eq (x y : W64) : mulHigh x y = (x.signExtend 128 * y.signExtend 128).extractLsb' 64 64 := by
  have hp : ((x.signExtend 128 * y.signExtend 128).toNat : Int) = x.toInt * y.toInt % 2 ^ 128 := by
    rw [BitVec.signExtend, BitVec.signExtend, ← BitVec.ofInt_mul, BitVec.toNat_ofInt]
    omega
  have hz : ((mulHigh x y).toNat : Int) = x.toInt * y.toInt / 2 ^ 64 % 2 ^ 64 := by
    rw [mulHigh, BitVec.toNat_ofInt]
    omega
  refine BitVec.eq_of_toNat_eq ?_
  rw [BitVec.extractLsb'_toNat, Nat.shiftRight_eq_div_pow]
  omega

theorem mulHighU_eq (x y : W64) : mulHighU x y = (x.setWidth 128 * y.setWidth 128).extractLsb' 64 64 := by
  refine BitVec.eq_of_toNat_eq ?_
  have hlt : x.toNat * y.toNat < 2 ^ 128 := by
    calc x.toNat * y.toNat < 2 ^ 64 * 2 ^ 64 := Nat.mul_lt_mul'' x.isLt y.isLt
      _ = 2 ^ 128 := by norm_num
  rw [mulHighU, BitVec.extractLsb'_toNat, BitVec.toNat_mul, BitVec.toNat_setWidth_of_le (by decide),
    BitVec.toNat_setWidth_of_le (by decide), Nat.mod_eq_of_lt hlt, Nat.shiftRight_eq_div_pow]
  rfl

theorem ofInt_tdiv (x y : W64) : BitVec.ofInt 64 (x.toInt.tdiv y.toInt) = x.sdiv y :=
  BitVec.eq_of_toInt_eq (by rw [BitVec.toInt_ofInt, BitVec.toInt_sdiv])

theorem ofInt_tmod (x y : W64) : BitVec.ofInt 64 (x.toInt.tmod y.toInt) = x.srem y := by
  rw [← BitVec.toInt_srem, BitVec.ofInt_toInt]

theorem ofNat_div (x y : W64) : w64 (x.toNat / y.toNat) = x / y := BitVec.eq_of_toNat_eq (by
  rw [BitVec.toNat_udiv, w64, BitVec.toNat_ofNat]
  exact Nat.mod_eq_of_lt ((Nat.div_le_self _ _).trans_lt x.isLt))

theorem divS_eq (x y : W64) : divS x y = if y = 0 then BitVec.allOnes 64 else x.sdiv y := by rw [divS, ofInt_tdiv]

theorem divU_eq (x y : W64) : divU x y = if y = 0 then BitVec.allOnes 64 else x / y := by rw [divU, ofNat_div]

theorem remS_eq (x y : W64) : remS x y = if y = 0 then x else x.srem y := by rw [remS, ofInt_tmod]

theorem ltS_eq_slt (x y : W64) : ltS x y = x.slt y := rfl

theorem leadingZeros_spec (x : W64) : LeadingZeros x (leadingZeros x) := by
  by_cases hx : x = 0
  · subst hx
    exact ⟨by decide, fun i _ _ => by simp, fun h => absurd h (by decide)⟩
  · have hne : x.toNat ≠ 0 := fun h => hx (BitVec.eq_of_toNat_eq h)
    have hlog : Nat.log2 x.toNat < 64 := (Nat.log2_lt hne).mpr x.isLt
    have hv : (leadingZeros x).toNat = 63 - Nat.log2 x.toNat := by
      rw [leadingZeros, if_neg hx, w64, BitVec.toNat_ofNat]
      omega
    refine ⟨by omega, fun i hi hi' => ?_, fun _ => ?_⟩
    · have : x.toNat < 2 ^ i := (Nat.log2_lt hne).mp (by omega)
      exact Nat.testBit_lt_two_pow this
    · rw [hv, show 63 - (63 - Nat.log2 x.toNat) = Nat.log2 x.toNat by omega]
      exact Nat.testBit_log2 hne

/-- The search for the lowest one bit from bit n on. -/
theorem trailingFrom_spec (x : W64) (fuel n : Nat) : n ≤ trailingFrom x fuel n ∧ trailingFrom x fuel n ≤ n + fuel ∧
    (∀ i, n ≤ i → i < trailingFrom x fuel n → x.getLsbD i = false) ∧
    (trailingFrom x fuel n < n + fuel → x.getLsbD (trailingFrom x fuel n) = true) := by
  induction fuel generalizing n with
  | zero => exact ⟨Nat.le_refl _, Nat.le_refl _, fun i h h' => absurd h' (by simp [trailingFrom]; omega), fun h => absurd h (by simp [trailingFrom])⟩
  | succ f ih =>
    unfold trailingFrom
    split
    · next hbit => exact ⟨Nat.le_refl _, by omega, fun i h h' => absurd h' (by omega), fun _ => hbit⟩
    · next hbit =>
      obtain ⟨hle, hge, hzero, hone⟩ := ih (n + 1)
      refine ⟨by omega, by omega, fun i hi hi' => ?_, fun h => hone (by omega)⟩
      obtain rfl | hlt := Nat.eq_or_lt_of_le hi
      · exact Bool.not_eq_true _ ▸ hbit
      · exact hzero i hlt hi'

theorem trailingZeros_spec (x : W64) : TrailingZeros x (trailingZeros x) := by
  obtain ⟨-, hge, hzero, hone⟩ := trailingFrom_spec x 64 0
  have hv : (trailingZeros x).toNat = trailingFrom x 64 0 := by
    rw [trailingZeros, w64, BitVec.toNat_ofNat]
    omega
  rw [TrailingZeros, hv]
  exact ⟨by omega, fun i hi => hzero i (Nat.zero_le i) hi, fun h => hone (by omega)⟩

theorem oneBits_spec (x : W64) : (oneBits x).toNat = (Finset.univ.filter fun i : Fin 64 => x.getLsbD i = true).card := by
  have hcard : (Finset.univ.filter fun i : Fin 64 => x.getLsbD i = true).card = ((List.range 64).filter x.getLsbD).length := by
    rw [Fin.univ_def, ← List.map_coe_finRange_eq_range, List.filter_map, List.length_map]
    simp [Finset.filter, Finset.card]
    rfl
  have hle : ((List.range 64).filter x.getLsbD).length ≤ 64 := (List.length_filter_le _ _).trans (by simp)
  rw [hcard, oneBits, w64, BitVec.toNat_ofNat]
  omega

/-! ## Two operands (R93) -/

theorem run_aluTwo_congr {f g : W64 → W64 → W64} (h : ∀ u v, f u v = g u v) (d a : Reg) (x : Option Reg) :
    run (aluTwo f d a x) = run (aluTwo g d a x) := by
  rw [funext fun u => funext (h u)]

theorem toInt_lt_ite (x y u v : W64) : (if x.toInt < y.toInt then u else v) = if x.slt y then u else v := by
  simp [BitVec.slt]

/-- Every instruction of two operands is the form of its operation. -/
theorem exec_twoSource {q : (Reg → Reg → Option Reg → Instr) × (W64 → W64 → W64)} (hq : q ∈ twoSource) (d a : Reg) (x : Option Reg) :
    exec (q.1 d a x) = run (aluTwo q.2 d a x) := by
  simp only [twoSource, List.mem_cons, List.not_mem_nil, or_false] at hq
  obtain rfl | rfl | rfl | rfl | rfl | rfl | rfl | rfl | rfl | rfl | rfl | rfl | rfl | rfl | rfl | rfl := hq
  iterate 9 exact run_aluTwo_congr (fun _ _ => rfl) d a x
  · exact run_aluTwo_congr mulHigh_eq d a x
  · exact run_aluTwo_congr mulHighU_eq d a x
  · exact run_aluTwo_congr divS_eq d a x
  · exact run_aluTwo_congr divU_eq d a x
  · exact run_aluTwo_congr remS_eq d a x
  · exact run_aluTwo_congr (fun u v => toInt_lt_ite v u v u) d a x
  · exact run_aluTwo_congr (fun u v => toInt_lt_ite u v v u) d a x

/-- The effect of two operands on a destination. -/
theorem aluTwo_eq (f : W64 → W64 → W64) (d a : Reg) (x : Option Reg) :
    aluTwo f d a x = scalar (sources d a x) (some d)
      (get >>= fun s => wr d (f (operands s d a x).1 (operands s d a x).2)) := by
  cases x <;> exact congrArg (scalar _ _) (funext fun s => by simp [operands])

@[simp] theorem operands_issue (s : State) (d a : Reg) (x : Option Reg) : operands s.issue d a x = operands s d a x := by
  cases x <;> simp [operands]

/-! ## One operand, and compares (R94) -/

/-- Every instruction of one operand is the form of an operation with the result that its relation says. -/
theorem exec_oneSource {q : (Reg → Reg → Instr) × (W64 → W64 → Prop)} (hq : q ∈ oneSource) :
    ∃ f : W64 → W64, (∀ x, q.2 x (f x)) ∧ ∀ d a, exec (q.1 d a) = run (aluOne f d a) := by
  simp only [oneSource, List.mem_cons, List.not_mem_nil, or_false] at hq
  obtain rfl | rfl | rfl | rfl | rfl | rfl | rfl | rfl | rfl | rfl := hq
  · exact ⟨_, fun _ => rfl, fun _ _ => rfl⟩
  · exact ⟨fun v => 0 - v, fun x => BitVec.zero_sub x, fun _ _ => rfl⟩
  · exact ⟨_, fun _ => rfl, fun _ _ => rfl⟩
  · exact ⟨_, leadingZeros_spec, fun _ _ => rfl⟩
  · exact ⟨_, trailingZeros_spec, fun _ _ => rfl⟩
  · exact ⟨_, oneBits_spec, fun _ _ => rfl⟩
  iterate 3 exact ⟨_, fun x => BitVec.toInt_signExtend_of_le (by decide), fun _ _ => rfl⟩
  · exact ⟨fun v => (v.setWidth 32).setWidth 64, fun x => by simp; omega, fun _ _ => rfl⟩

theorem run_aluOne {s : State} {d a : Reg} (f : W64 → W64) (h : NoPort s [a] (some d)) :
    run (aluOne f d a) s = .next ((s.issue.writeMine d (f (s.src a))).advance) :=
  run_scalar h (by simp)

/-- Every compare is the form of its relation. -/
theorem exec_compares {q : (Num3 → Reg → Option Reg → Instr) × (W64 → W64 → Bool)} (hq : q ∈ compares) (p : Num3) (a : Reg)
    (x : Option Reg) : exec (q.1 p a x) = run (compare q.2 p a x) := by
  simp only [compares, List.mem_cons, List.not_mem_nil, or_false] at hq
  obtain rfl | rfl | rfl := hq
  iterate 3 rfl

/-- s0 is a source of 0. -/
@[simp] theorem State.src_zero (s : State) : s.src 0#5 = 0 := by
  simp [State.src, qo, Slot.reg]

/-! ## Immediates and predicates (R95, R96) -/

theorem run_aluImm {s : State} {d : Reg} (f : W64 → W64) (h : NoPort s [d] (some d)) :
    run (aluImm f d) s = .next ((s.issue.writeMine d (f (s.src d))).advance) :=
  run_scalar h (by simp)

theorem exec_immShifts {q : (Reg → BitVec 6 → Instr) × (W64 → Nat → W64)} (hq : q ∈ immShifts) (d : Reg) (n : BitVec 6) :
    exec (q.1 d n) = run (aluImm (q.2 · n.toNat) d) := by
  simp only [immShifts, List.mem_cons, List.not_mem_nil, or_false] at hq
  obtain rfl | rfl | rfl | rfl := hq
  iterate 4 rfl

theorem exec_predOps {q : (Num3 → Num3 → Instr) × (Bool → Bool → Bool)} (hq : q ∈ predOps) (d a : Num3) :
    exec (q.1 d a) = run (predTwo q.2 d a) := by
  simp only [predOps, List.mem_cons, List.not_mem_nil, or_false] at hq
  obtain rfl | rfl | rfl | rfl := hq
  iterate 4 rfl

theorem run_predTwo (f : Bool → Bool → Bool) (s : State) (d a : Num3) :
    run (predTwo f d a) s = .next ((s.issue.modMe (·.setPred d (f (s.me.pred d) (s.me.pred a)))).advance) := by
  refine run_of_ok (c := .next) ?_
  rw [predTwo]
  simp [State.modMe]

theorem boolNat_eq_toNat (b : Bool) : boolNat b = b.toNat := by cases b <;> rfl

/-- The word of eight predicates has each in its place and 0 above them. -/
theorem getLsbD_packPreds (p : Vector Bool 8) (i : Fin 64) :
    (packPreds p).getLsbD i = if h : i.val < 8 then p[i.val] else false := by
  have hpack : (List.range 8).foldl (fun acc i => acc + boolNat (vat false p i) * 2 ^ i) 0 = Nat.ofBits fun i : Fin 8 => p[i.val] := by
    simp [List.range_succ, vat, Nat.ofBits, Fin.foldr_succ, boolNat_eq_toNat]
    omega
  rw [packPreds, hpack, w64, BitVec.getLsbD_ofNat, Nat.testBit_ofBits]
  simp

theorem twoSourceArithmetic : TwoSourceArithmetic := by
  intro q hq s d a x hp
  rw [exec_twoSource hq, aluTwo_eq]
  exact run_scalar hp (by simp)

theorem oneSourceArithmetic : OneSourceArithmetic := by
  refine ⟨fun q hq s d a hp => ?_, fun q hq s d a hp => ?_⟩
  · obtain ⟨f, hf, hexec⟩ := exec_oneSource hq
    exact ⟨f (s.src a), hf _, by rw [hexec, run_aluOne f hp]⟩
  · simp only [unsignedPick, List.mem_cons, List.not_mem_nil, or_false] at hq
    obtain rfl | rfl := hq
    iterate 2 exact run_scalar hp (by simp [BitVec.lt_def])

/-- Settles O1. -/
theorem scalarArithmetic : Obligations.ScalarArithmetic := ⟨twoSourceArithmetic, oneSourceArithmetic⟩

theorem predicates : Predicates := by
  refine ⟨fun q hq s p a x hp => ?_, fun s d a hp => ?_, fun q hq s d a => ?_, fun s d hp => ?_⟩
  · rw [exec_compares hq]
    exact run_scalar hp (by cases x <;> simp)
  · have hm : (do let v ← rd a; if (← getMe).pred 0 then wr d v : M Unit) s.issue =
        .ok () (if s.me.pred 0 then s.issue.writeMine d (s.src a) else s.issue) := by
      simp
      split <;> rfl
    exact run_scalar hp hm
  · rw [exec_predOps hq, run_predTwo]
  · exact ⟨packPreds s.me.p, getLsbD_packPreds _, run_scalar hp (by simp)⟩

theorem toNat_append_lih (imm : W32) (v : W64) :
    (imm ++ v.setWidth 32 : W64).toNat = imm.toNat * 2 ^ 32 + v.toNat % 2 ^ 32 := by
  rw [BitVec.toNat_append, BitVec.toNat_setWidth, ← Nat.shiftLeft_add_eq_or_of_lt (Nat.mod_lt _ (by decide)), Nat.shiftLeft_eq]

theorem immediates : Immediates := by
  refine ⟨fun s d imm hp => run_aluImm (· + imm) hp, fun s d imm hp => run_scalar hp rfl,
    fun s d imm hp => ⟨_, toNat_append_lih imm (s.src d), run_aluImm _ hp⟩, fun q hq s d n hp => ?_, fun s p a c imm hp => ?_⟩
  · rw [exec_immShifts hq, run_aluImm _ hp]
  · exact run_scalar hp (by simp; rfl)

/-- Settles O2. -/
theorem predicatesAndImmediates : Obligations.PredicatesAndImmediates := ⟨predicates, immediates⟩

end Sys2Proof.Machine
end

section
/-! Jumps and branches (R83, R96, R98), and the queue ports (R102). -/

namespace Sys2Proof.Machine

open Sys2Proof.Claims

/-! ## Targets (R83) -/

theorem NoPort.of_dst {s : State} {srcs : List Reg} {dst : Option Reg} (h : NoPort s srcs dst) : NoPort s srcs none :=
  ⟨h.1, by simp⟩

theorem noPort_ret (s : State) : NoPort s [28] none := ⟨by simp [qi], by simp⟩

theorem checkTarget_ok {a : W64} (s : State) (h0 : flag a 0 = false) (h56 : fld a 56 8 = 0) : checkTarget a s = .ok () s := by
  simp [checkTarget, h0, h56]

theorem checkTarget_align {a : W64} (s : State) (h0 : flag a 0 = true) :
    checkTarget a s = .error (.trap ⟨Cause.align, a, 0, tfmtNone⟩) s := by
  simp [checkTarget, h0]

theorem checkTarget_xlate {a : W64} (s : State) (h0 : flag a 0 = false) (h56 : fld a 56 8 ≠ 0) :
    checkTarget a s = .error (.trap ⟨Cause.xlate, a, 0, w64 (5 * 2 ^ 60 + 0xFFFF)⟩) s := by
  simp [checkTarget, h0, h56, trapXlate]

section
variable {s t : State} {srcs : List Reg} {dst : Option Reg} {m : M W64}

/-- A jump that uses no port. -/
theorem run_jumpOver {a : W64} (h : NoPort s srcs dst) (hm : m s.issue = .ok a t) : run (jumpOver srcs dst m) s = .next (t.goTo a) := by
  refine run_of_ok (c := .jump a) ?_
  rw [jumpOver, withPorts_of_noPort _ h.issue]
  simp [hm]

/-- A jump that uses no port and traps. -/
theorem run_jumpOver_trap {ti : TrapInfo} (h : NoPort s srcs dst) (hm : m s.issue = .error (.trap ti) t) :
    run (jumpOver srcs dst m) s = .next (takeTrap ti t) := by
  rw [run, jumpOver, withPorts_of_noPort _ h.issue]
  simp [hm]

end

/-- JR and RET trap where their target does not pass. -/
theorem run_jumpReg_trap {s : State} {a : Reg} {ti : TrapInfo} (h : NoPort s [a] none)
    (ht : checkTarget (s.src a) s.issue = .error (.trap ti) s.issue) : run (jumpReg a) s = .next (takeTrap ti s.issue) :=
  run_jumpOver_trap h (by simp [ht])

/-- JALR traps where its target does not pass, before it writes its link. -/
theorem run_jumpLink_trap {s : State} {d a : Reg} {ti : TrapInfo} (h : NoPort s [a] (some d))
    (ht : checkTarget (s.src a) s.issue = .error (.trap ti) s.issue) : run (jumpLink d a) s = .next (takeTrap ti s.issue) :=
  run_jumpOver_trap h (by simp [ht])

theorem run_jumpReg {s : State} {a : Reg} (h : NoPort s [a] none) (h0 : flag (s.src a) 0 = false) (h56 : fld (s.src a) 56 8 = 0) :
    run (jumpReg a) s = .next (s.issue.goTo (s.src a)) :=
  run_jumpOver h (by simp [checkTarget_ok s.issue h0 h56])

@[simp] theorem nextPc_apply (s : State) : nextPc s = .ok s.behind s := rfl

theorem jumps : Claims.JumpsAndBranches := by
  refine ⟨fun s a hp h0 h56 => run_jumpReg hp h0 h56, fun s d a hp h0 h56 => ?_,
    fun s h0 h56 => run_jumpReg (noPort_ret s) h0 h56, fun s off => ?_, fun s p sense off => ?_, fun s off => ?_, fun s => rfl⟩
  · exact run_jumpOver hp (by simp [checkTarget_ok s.issue h0 h56])
  · exact run_of_ok (c := .jump _) (by simp [branchTarget])
  · have hm : (do let sl ← getMe; return if sl.pred p = sense then .jump (branchTarget sl.pc off) else .next : M Ctl) s.issue =
        .ok (if s.me.pred p = sense then .jump (branchTarget s.me.pc off) else .next) s.issue := by simp
    refine (run_of_ok hm).trans ?_
    split <;> rfl
  · exact run_of_ok (c := .jump _) (by simp [branchTarget])

theorem jumpTargetTraps : JumpTargetTraps := by
  intro s a d hp
  refine ⟨fun h0 => ?_, fun h0 h56 => ?_, fun h0 => ?_, fun h0 h56 => ?_⟩
  · exact ⟨run_jumpReg_trap hp.of_dst (checkTarget_align _ h0), run_jumpLink_trap hp (checkTarget_align _ h0)⟩
  · exact ⟨run_jumpReg_trap hp.of_dst (checkTarget_xlate _ h0 h56), run_jumpLink_trap hp (checkTarget_xlate _ h0 h56)⟩
  · exact run_jumpReg_trap (noPort_ret s) (checkTarget_align _ h0)
  · exact run_jumpReg_trap (noPort_ret s) (checkTarget_xlate _ h0 h56)

/-- Settles O3: a jump checks its target before it writes anything. -/
theorem jumpsAndBranches : Obligations.JumpsAndBranches := ⟨jumps, jumpTargetTraps⟩

/-! ## Queue ports (R102) -/

@[simp] theorem State.setCore_setCore (s : State) (c : Nat) (v w : Core) : (s.setCore c v).setCore c w = s.setCore c w := by
  simp [State.setCore]

@[simp] theorem Core.setSlot_setSlot (k : Core) (n : Nat) (v w : Slot) : (k.setSlot n v).setSlot n w = k.setSlot n w := by
  simp [Core.setSlot]

@[simp] theorem State.setMe_setMe (s : State) (v w : Slot) : (s.setMe v).setMe w = s.setMe w := by
  simp [State.setMe, State.setSlot]

@[simp] theorem State.modMe_modMe (s : State) (f g : Slot → Slot) : (s.modMe f).modMe g = s.modMe fun sl => g (f sl) := by
  simp [State.modMe]

theorem State.writeMine_push {s : State} (v : W64) (h : s.myCore.portOut s.cur.slot = true) :
    s.writeMine qo v = s.modCore (downstream s.cur.core) fun k => { k with inq := k.inq ++ [v] } := by
  rw [State.writeMine, State.writeReg, if_neg (by simp [qo, qi]), if_pos (by simp; exact h)]

/-- A write to a register that is no port: discarded where it is a port for reading, else the slot holds it. -/
theorem State.writeMine_register {s : State} {d : Reg} (v : W64) (h : ¬(s.myCore.portOut s.cur.slot = true ∧ d = qo)) :
    s.writeMine d v = if d = qi ∧ s.myCore.portIn s.cur.slot = true then s else s.modMe (·.setReg d v) := by
  have hpush : ¬((decide (d = qo) && (s.core s.cur.core).portOut s.cur.slot) = true) := by
    simp only [Bool.and_eq_true, decide_eq_true_eq]
    exact fun hd => h ⟨hd.2, hd.1⟩
  rw [State.writeMine, State.writeReg, if_neg hpush]
  simp only [Bool.and_eq_true, decide_eq_true_eq]
  rfl

@[simp] theorem State.issue_core_inq (s : State) (c : Nat) : (s.issue.core c).inq = (s.core c).inq := by
  by_cases h : c = s.cur.core
  · subst h
    simpa [State.myCore] using s.issue_inq
  · rw [State.issue_core_of_ne s h]

@[simp] theorem State.issue_core_world (s : State) (c : Nat) : (s.issue.core c).world = (s.core c).world := by
  by_cases h : c = s.cur.core
  · subst h
    simpa [State.myCore] using s.issue_world
  · rw [State.issue_core_of_ne s h]

/-- A port that pops: the oldest word goes from the queue into s30, before the effect. -/
def State.popPort (s : State) (v : W64) (rest : List W64) : State :=
  (s.modMyCore fun k => { k with inq := rest }).modMe fun sl => { sl with s := sl.s.set 30 v, popped := some v }

section
variable {s : State} {srcs : List Reg} {dst : Option Reg}

theorem ports_pop {v : W64} {rest : List W64} (hin : s.myCore.portIn s.cur.slot = true) (hqi : qi ∈ srcs)
    (hout : ¬(s.myCore.portOut s.cur.slot = true ∧ dst = some qo)) (hinq : s.myCore.inq = v :: rest) :
    ports srcs dst s = .ok true (s.popPort v rest) := by
  have hpush : (s.myCore.portOut s.cur.slot && decide (dst = some qo)) = false := by simpa using hout
  have hdrop : (s.modMyCore fun k => { k with inq := k.inq.tail }) = s.modMyCore fun k => { k with inq := rest } :=
    State.modCore_eq_of (by rw [show (s.core s.cur.core).inq = v :: rest from hinq]; rfl)
  simp only [ports, M.bind_apply, M.get_apply, hpush, hin, Bool.true_and, List.contains_eq_mem, hqi, hinq]
  simp [hdrop, State.popPort]

theorem ports_empty (hin : s.myCore.portIn s.cur.slot = true) (hqi : qi ∈ srcs)
    (hout : ¬(s.myCore.portOut s.cur.slot = true ∧ dst = some qo)) (hinq : s.myCore.inq = []) :
    ports srcs dst s = .error (.wait (.blocked true)) s := by
  have hpush : (s.myCore.portOut s.cur.slot && decide (dst = some qo)) = false := by simpa using hout
  simp only [ports, M.bind_apply, M.get_apply, hpush, hin, Bool.true_and, List.contains_eq_mem, hqi, hinq]
  simp

theorem ports_firewall (hout : s.myCore.portOut s.cur.slot = true) (hw : (s.core (downstream s.cur.core)).world ≠ s.myWorld) :
    ports srcs (some qo) s = .error (.trap ⟨Cause.firewall, w64 (downstream s.cur.core), 0, tfmtNone⟩) s := by
  have hw' : (s.core (downstream s.cur.core)).world ≠ s.myCore.world := hw
  simp [ports, hout, hw']

/-- Ports that only push wait for room. -/
theorem ports_push (hout : s.myCore.portOut s.cur.slot = true) (hin : ¬(s.myCore.portIn s.cur.slot = true ∧ qi ∈ srcs))
    (hw : (s.core (downstream s.cur.core)).world = s.myWorld) :
    ports srcs (some qo) s =
      if 16 ≤ (s.core (downstream s.cur.core)).inq.length then .error (.wait (.blocked true)) s else .ok true s := by
  have hpop : (s.myCore.portIn s.cur.slot && srcs.contains qi) = false := by simpa using hin
  have hw' : (s.core (downstream s.cur.core)).world = s.myCore.world := hw
  simp only [ports, M.bind_apply, M.get_apply, hpop, hout, hw']
  by_cases hroom : 16 ≤ (s.core (downstream s.cur.core)).inq.length <;> simp [hroom]

/-- A scalar instruction that used a port has its effect in the state that the ports leave, and waits for its completion. -/
theorem run_scalar_port {m : M Unit} {u t : State} (hp : ports srcs dst s.issue = .ok true u) (hm : m u = .ok () t) :
    run (scalar srcs dst m) s = .next t.finish := by
  refine run_of_ok (c := .done) ?_
  simp [scalar, withPorts, hp, hm]

/-- One whose ports wait runs again from its beginning. -/
theorem run_scalar_port_wait {m : M Unit} (hp : ports srcs dst s.issue = .error (.wait (.blocked true)) s.issue) :
    run (scalar srcs dst m) s = .next (again s s.issue (.blocked true)) := by
  simp [run, scalar, withPorts, hp, again, Wait.reruns]

theorem run_scalar_port_trap {m : M Unit} {ti : TrapInfo} (hp : ports srcs dst s.issue = .error (.trap ti) s.issue) :
    run (scalar srcs dst m) s = .next (takeTrap ti s.issue) := by
  simp [run, scalar, withPorts, hp]

end

@[simp] theorem State.modMe_portIn (s : State) (f : Slot → Slot) (n : Nat) : (s.modMe f).myCore.portIn n = s.myCore.portIn n := by
  simp [Core.portIn]

@[simp] theorem State.modMe_portOut (s : State) (f : Slot → Slot) (n : Nat) : (s.modMe f).myCore.portOut n = s.myCore.portOut n := by
  simp [Core.portOut]

theorem State.modMe_writeMine {s : State} {d : Reg} (f : Slot → Slot) (v : W64) (h : ¬(s.myCore.portOut s.cur.slot = true ∧ d = qo)) :
    (s.modMe f).writeMine d v =
      if d = qi ∧ s.myCore.portIn s.cur.slot = true then s.modMe f else s.modMe fun sl => (f sl).setReg d v := by
  rw [State.writeMine_register v (by simpa using h)]
  simp

/-- The completion forgets that a word was popped: it is the slot's own register that keeps it. -/
theorem popPort_finish {s : State} {d : Reg} {v w : W64} {rest : List W64} (h : ¬(s.myCore.portOut s.cur.slot = true ∧ d = qo)) :
    ((s.popPort v rest).writeMine d w).finish =
      (((s.modMyCore fun k => { k with inq := rest }).modMe fun sl => { sl with s := sl.s.set 30 v }).writeMine d w).finish := by
  have hout : ¬((s.modMyCore fun k => { k with inq := rest }).myCore.portOut s.cur.slot = true ∧ d = qo) := by
    simpa [Core.portOut] using h
  rw [State.popPort, State.modMe_writeMine _ _ hout, State.modMe_writeMine _ _ hout]
  split
  · simp [State.finish, State.goToLater, State.behind, Slot.after]
  · by_cases hd : d = 0#5 <;> simp [State.finish, State.goToLater, State.behind, Slot.after, Slot.setReg, hd]

/-- What a pop leaves to read: the operands are those of the slot whose s30 holds the word. -/
theorem operands_popPort (s : State) (d a : Reg) (x : Option Reg) (v : W64) (rest : List W64) :
    operands (s.popPort v rest) d a x =
      operands ((s.modMyCore fun k => { k with inq := rest }).modMe fun sl => { sl with s := sl.s.set 30 v }) d a x := by
  cases x <;> simp [operands, State.src, State.popPort, Slot.reg]

theorem queuePorts : QueuePorts := by
  refine ⟨fun q hq s d a x v rest hin hqi hout hinq => ⟨_, rfl, ?_, ?_⟩, fun q hq s d a x hin hqi hout hinq => ?_,
    fun s a hout hin hw => ⟨fun hroom => ?_, fun hfull => ?_⟩, fun s a hout hw => ?_⟩
  · simp [State.src, Slot.reg, qi, qo]
  · rw [exec_twoSource hq, aluTwo_eq, ← popPort_finish (by simpa using hout), ← operands_popPort]
    refine run_scalar_port (ports_pop (by simpa using hin) hqi (by simpa using hout) (by simpa using hinq)) ?_
    simp
  · rw [exec_twoSource hq, aluTwo_eq]
    exact run_scalar_port_wait (ports_empty (by simpa using hin) hqi (by simpa using hout) (by simpa using hinq))
  · have hpop : ¬(s.myCore.portIn s.cur.slot = true ∧ qi ∈ [a]) := fun h => hin ⟨h.1, (List.mem_singleton.mp h.2).symm⟩
    refine run_scalar_port ?_ (?_ : (rd a >>= fun x => wr qo (id x)) s.issue = _)
    · rw [ports_push (by simpa using hout) (by simpa using hpop) (by simpa using hw), if_neg (by simpa using hroom)]
    · simp [State.writeMine_push (s := s.issue) _ (by simpa using hout)]
  · have hpop : ¬(s.myCore.portIn s.cur.slot = true ∧ qi ∈ [a]) := fun h => hin ⟨h.1, (List.mem_singleton.mp h.2).symm⟩
    refine run_scalar_port_wait ?_
    rw [ports_push (by simpa using hout) (by simpa using hpop) (by simpa using hw), if_pos (by simpa using hfull)]
  · have hp := ports_firewall (s := s.issue) (srcs := [a]) (by simpa using hout) (by simpa using hw)
    rw [State.issue_cur] at hp
    exact run_scalar_port_trap hp

/-! ## A register written (R85, R102) -/

theorem State.writeReg_register {s : State} {c n : Nat} {r : Reg} (v : W64) (hqi : ¬(r = qi ∧ (s.core c).portIn n = true))
    (hqo : ¬(r = qo ∧ (s.core c).portOut n = true)) : s.writeReg c n r v = s.modSlot c n (·.setReg r v) := by
  rw [State.writeReg, if_neg (by simpa using hqi), if_neg (by simpa using hqo)]

theorem State.modSlot_slot_of_ne (s : State) (c : Nat) {n m : Nat} (f : Slot → Slot) (h : m ≠ n) :
    (s.modSlot c n f).slot c m = s.slot c m := by
  simp [State.modSlot, State.setSlot, State.slot, Core.setSlot_slot_of_ne _ _ (Ne.symm h)]

theorem Slot.setReg_reg {sl : Slot} {r : Reg} (v : W64) (h : r ≠ 0) : (sl.setReg r v).reg r = v := by
  simp [setReg, reg, show r ≠ 0#5 from h]

theorem Slot.setReg_reg_of_ne {sl : Slot} {r q : Reg} (v : W64) (h : q ≠ r) : (sl.setReg r v).reg q = sl.reg q := by
  have hne : r.toNat ≠ q.toNat := fun he => h (BitVec.eq_of_toNat_eq he.symm)
  by_cases hr : r = 0#5 <;> simp [setReg, reg, hr, hne]

/-- A push to a queue leaves the slots of every core as they are. -/
theorem State.modCore_inq_slot (s : State) (c d n : Nat) (f : List W64 → List W64) :
    (s.modCore c fun k => { k with inq := f k.inq }).slot d n = s.slot d n := by
  by_cases h : c = d
  · subst h
    simp [State.slot, Core.slot]
  · simp [State.slot, State.modCore_core_of_ne _ _ h]

theorem registersWritten : RegisterWrite := by
  intro s c n r v
  refine ⟨fun h0 => .inr ?_, fun hqi hin => ?_, fun hqo hout => ?_, fun h0 hqi hqo => ?_⟩
  · subst h0
    rw [State.writeReg_register v (by simp [qi]) (by simp [qo]), State.modSlot_slot]
    rfl
  · rw [State.writeReg, if_pos (by simp [hqi, hin])]
  · subst hqo
    rw [State.writeReg, if_neg (by simp [qo, qi]), if_pos (by simpa using hout)]
    exact ⟨by simp, fun m => State.modCore_inq_slot s _ c m (· ++ [v])⟩
  · rw [State.writeReg_register v hqi hqo, State.modSlot_slot]
    exact ⟨Slot.setReg_reg v h0, fun q hq => Slot.setReg_reg_of_ne v hq, fun m hm => State.modSlot_slot_of_ne _ _ _ hm, by simp⟩

/-- Settles O4: the ports of an instruction act before its effect, and the write of a register is one of four. -/
theorem queuePortsAndRegisters : Obligations.QueuePortsAndRegisters := ⟨queuePorts, registersWritten⟩

end Sys2Proof.Machine
end

section
/-! Loads and stores, the control window and the cache instructions (chapters 07, 08 and 16). -/

namespace Sys2Proof.Machine

open Sys2Proof.Claims

/-! ## Loads (R99, R125) -/

/-- Every load is the form of its size and an extension that does to the loaded bytes what its mnemonic says. -/
theorem exec_loads {q : (Reg → Reg → W64 → Mod → Instr) × Nat × (Nat → W64)} (hq : q ∈ loads) :
    ∃ ext : Nat → W64, (∀ v, v < 256 ^ q.2.1 → ext v = q.2.2 v) ∧ ∀ d a off m, exec (q.1 d a off m) = run (load q.2.1 ext d a off m) := by
  simp only [loads, List.mem_cons, List.not_mem_nil, or_false] at hq
  have hzero (n : Nat) (hn : n ≤ 64) (v : Nat) (hv : v < 2 ^ n) : w64 v = (BitVec.ofNat n v).setWidth 64 := by
    rw [w64, BitVec.setWidth_ofNat_of_le_of_lt hn hv]
  obtain rfl | rfl | rfl | rfl | rfl | rfl | rfl := hq
  · exact ⟨w64, fun _ _ => rfl, fun _ _ _ _ => rfl⟩
  · exact ⟨signExt 32, fun _ _ => rfl, fun _ _ _ _ => rfl⟩
  · exact ⟨w64, hzero 32 (by decide), fun _ _ _ _ => rfl⟩
  · exact ⟨signExt 16, fun _ _ => rfl, fun _ _ _ _ => rfl⟩
  · exact ⟨w64, hzero 16 (by decide), fun _ _ _ _ => rfl⟩
  · exact ⟨signExt 8, fun _ _ => rfl, fun _ _ _ _ => rfl⟩
  · exact ⟨w64, hzero 8 (by decide), fun _ _ _ _ => rfl⟩

theorem leToNat_lt (bs : List Byte) : leToNat bs < 256 ^ bs.length := by
  induction bs with
  | nil => simp [leToNat]
  | cons b bs ih =>
    have := b.isLt
    rw [leToNat, List.length_cons, Nat.pow_succ]
    omega

theorem run_load {s u t : State} {size : Nat} {ext : Nat → W64} {d a : Reg} {off : W64} {m : Mod} {pl : Place} {cap : Cap} {bs : List Byte}
    (hp : NoPort s [a] (some d)) (hc : checkAccess s.who (s.src a + off * w64 size) size .read [.read] s.issue = .ok (pl, cap) u)
    (hl : loadPlace s.who pl size m (s.src a + off * w64 size) u = .ok bs t) :
    run (load size ext d a off m) s =
      .next ((((t.chargeOnce cap).acquired m.order m.scope.toNat).writeMine d (ext (leToNat bs))).finish) :=
  run_waiting hp (by simp [effAddr, hc, hl])

/-- Settles O5: a load's effect is its register's write, after the checks, the charge and the acquire. -/
theorem loads : Obligations.Loads := by
  intro q hq s u t d a off m pl cap bs hp hc hl
  have hbs := loadPlace_gives _ _ _ _ _ _ _ _ hl
  obtain ⟨ext, hext, hexec⟩ := exec_loads hq
  have hlen : bs.length = q.2.1 := by simp [hbs]
  exact ⟨hbs, by rw [hexec, run_load hp hc hl, hext _ (hlen ▸ leToNat_lt bs)]⟩

/-! ## Stores (R244) -/

theorem exec_stores {q : (Reg → Reg → W64 → Mod → Instr) × Nat} (hq : q ∈ stores) (d a : Reg) (off : W64) (m : Mod) :
    exec (q.1 d a off m) = run (store q.2 d a off m) := by
  simp only [stores, List.mem_cons, List.not_mem_nil, or_false] at hq
  obtain rfl | rfl | rfl | rfl := hq
  iterate 4 rfl

theorem releaseAt_cur {o : BitVec 2} {n : BitVec 3} {s t : State} (h : releaseAt o n s = .ok () t) : t.cur = s.cur := by
  have hkept : Does EntriesKept (releaseAt o n) :=
    have hR := EntriesKept.carries
    .ite (fun _ => .bind hR (.modify fun s => .performSlot s _ _) fun _ => .bind hR (.get hR) fun _ =>
      .ite (fun _ => .block hR _) fun _ => .pure hR _) fun _ => .pure hR _
  exact (hkept.ok h).cur

theorem storeRoom_ok {s : State} {w : Who} (h : (s.core w.core).sb.length < 32) : storeRoom w s = .ok () s := by
  simp [storeRoom, Nat.not_le.mpr h]

theorem storeRoom_full {s : State} {w : Who} (h : 32 ≤ (s.core w.core).sb.length) :
    storeRoom w s = .error (.wait (.blocked true)) s := by
  simp [storeRoom, h]

/-- A waiting instruction that uses no port and waits to run again. -/
theorem run_waiting_again {s t : State} {srcs : List Reg} {dst : Option Reg} {m : M Unit} {b : Bool} (h : NoPort s srcs dst)
    (hm : m s.issue = .error (.wait (.blocked b)) t) : run (waiting srcs dst m) s = .next (again s t (.blocked b)) := by
  rw [run, waiting, withPorts_of_noPort _ h.issue]
  simp [hm, Wait.reruns, again]

/-- A waiting instruction that uses no port and traps. -/
theorem run_waiting_trap {s t : State} {srcs : List Reg} {dst : Option Reg} {m : M Unit} {ti : TrapInfo} (h : NoPort s srcs dst)
    (hm : m s.issue = .error (.trap ti) t) : run (waiting srcs dst m) s = .next (takeTrap ti t) := by
  rw [run, waiting, withPorts_of_noPort _ h.issue]
  simp [hm]

theorem readForStore_cur {w : Who} {pl : Place} {ea : W64} {s t : State} (hpl : pl.honest) (h : readForStore w pl ea s t) :
    t.cur = s.cur := by
  unfold readForStore at h
  split at h
  · next hhbm => exact ((lineIn_does w pl.pin ea (isHbm_base (hpl hhbm))).ok h).cur_eq
  · rw [h]

/-- A store of one piece by the acting thread enters its buffer as the entry that R244 gives. -/
theorem storeEntry_one {s t : State} {pl : Place} {bs : List Byte} (h : t.cur = s.cur) : storeEntry s.who [(pl, bs)] t =
    .ok () (t.modCore s.cur.core fun k => { k with sb := k.sb ++ [Claims.entryOf s t pl bs] }) := by
  have hme : t.me = t.slot s.cur.core s.cur.slot := by rw [State.me, h]
  cases hpin : pl.pin <;> simp [storeEntry, Claims.entryOf, hme, hpin, State.who, List.eraseDups_cons]

/-- Settles O6: a store waits for its release and for room, and then its entry stands last in the buffer. -/
theorem stores : Obligations.Stores := by
  intro q hq s v d a off m hp
  rw [exec_stores hq]
  refine ⟨fun hrel => ?_, fun hrel hfull => ?_, fun u t pl cap hrel hroom hc hctrl hread => ?_⟩
  · exact run_waiting_again hp (by simp [hrel])
  · exact run_waiting_again hp (by simp [hrel, storeRoom_full (w := s.who) hfull])
  · refine run_waiting hp ?_
    have hu : u.cur = s.cur := by
      rw [((checkAccess_does s.who _ _ _ _).ok hc).cur_eq, releaseAt_cur hrel, State.issue_cur]
    have ht : t.cur = s.cur := (readForStore_cur (checkAccess_gives _ _ _ _ _ _ _ _ hc) hread).trans hu
    simp only [hrel, storeRoom_ok (w := s.who) hroom, effAddr, hc, M.bind_apply, rd_apply, whoMe_apply, State.issue_src,
      State.issue_who, Bool.and_eq_true, decide_eq_true_eq, ge_iff_le, if_neg hctrl]
    unfold readForStore at hread
    split_ifs at hread with hhbm
    · simp [hhbm, hread, storeEntry_one ht]
    · simp [hhbm, ← hread, storeEntry_one ht]

/-! ## The control window (R110, R111, R123) -/

section
variable {s u v : State} {d a : Reg} {off : W64} {m : Mod} {pl : Place} {cap : Cap}

/-- A store to a word of the control window above the mailboxes goes no further than `ctrlStore`. -/
theorem run_store_ctrl {t : State} (hp : NoPort s [d, a] none) (hrel : releaseAt m.order m.scope s.issue = .ok () u)
    (hroom : (u.core s.cur.core).sb.length < 32) (hc : checkAccess s.who (s.src a + off * 8) 8 .write [.write] u = .ok (pl, cap) v)
    (hpl : pl.space = .ctrl) (hoff : 0x200 ≤ fld (s.src a + off * 8) 0 12)
    (h : ctrlStore s.cur.core (fld (s.src a + off * 8) 0 12) (s.src d) (s.src a + off * 8) v = .ok () t) :
    exec (.std d a off m) s = .next ((t.chargeOnce cap).finish) := by
  have hc' : checkAccess s.who (s.src a + off * w64 8) 8 .write [.write] u = .ok (pl, cap) v := hc
  have h' : ctrlStore s.who.core (fld (s.src a + off * w64 8) 0 12) (s.src d) (s.src a + off * w64 8) v = .ok () t := h
  have hoff' : 0x200 ≤ fld (s.src a + off * w64 8) 0 12 := hoff
  refine run_waiting (srcs := [d, a]) (dst := none) hp ?_
  simp [hrel, storeRoom_ok (w := s.who) hroom, effAddr, hc', hpl, hoff', h']

theorem run_store_ctrl_trap {t : State} {ti : TrapInfo} (hp : NoPort s [d, a] none) (hrel : releaseAt m.order m.scope s.issue = .ok () u)
    (hroom : (u.core s.cur.core).sb.length < 32) (hc : checkAccess s.who (s.src a + off * 8) 8 .write [.write] u = .ok (pl, cap) v)
    (hpl : pl.space = .ctrl) (hoff : 0x200 ≤ fld (s.src a + off * 8) 0 12)
    (h : ctrlStore s.cur.core (fld (s.src a + off * 8) 0 12) (s.src d) (s.src a + off * 8) v = .error (.trap ti) t) :
    exec (.std d a off m) s = .next (takeTrap ti t) := by
  have hc' : checkAccess s.who (s.src a + off * w64 8) 8 .write [.write] u = .ok (pl, cap) v := hc
  have h' : ctrlStore s.who.core (fld (s.src a + off * w64 8) 0 12) (s.src d) (s.src a + off * w64 8) v = .error (.trap ti) t := h
  have hoff' : 0x200 ≤ fld (s.src a + off * w64 8) 0 12 := hoff
  refine run_waiting_trap (srcs := [d, a]) (dst := none) hp ?_
  simp [hrel, storeRoom_ok (w := s.who) hroom, effAddr, hc', hpl, hoff', h']

end

theorem ctrlStore_none {c off : Nat} (h : off ∉ [0x200, 0x208, 0x210, 0x218, 0x220]) (v ea : W64) (s : State) :
    ctrlStore c off v ea s = .ok () s := by
  unfold ctrlStore
  split
  case h_6 => rfl
  all_goals exact absurd h (by decide)

theorem tlbinv_ok {v : W64} (h : fld v 1 15 = 0) (c : Nat) (ea : W64) (s : State) : tlbinv c v ea s =
    .ok () (s.dropTrans (s.core c).world (if flag v 0 then none else some (fld v 16 40 * 2 ^ 16))) := by
  simp [tlbinv, h]

theorem ctrlWords : Claims.ControlWindow := by
  intro s u v d a off m pl cap hp hrel hroom hc hpl
  have hcur : v.cur = s.cur := by rw [((checkAccess_does s.who _ _ _ _).ok hc).cur_eq, releaseAt_cur hrel, State.issue_cur]
  have hmod (f : Core → Core) : v.modMyCore f = v.modCore s.cur.core f := by rw [State.modMyCore, hcur]
  have hworld : v.myWorld = (v.core s.cur.core).world := by rw [State.myWorld, State.myCore, hcur]
  refine ⟨fun h => ?_, fun h => ?_, fun h => ?_, fun h => ?_, fun h hv => ?_, fun h hv => ?_, fun h hle => ?_⟩
  iterate 4
    refine run_store_ctrl hp hrel hroom hc hpl (by omega) ?_
    rw [h, hmod]
    rfl
  · refine run_store_ctrl hp hrel hroom hc hpl (by omega) ?_
    rw [h, hworld]
    exact tlbinv_ok hv _ _ _
  · refine run_store_ctrl_trap hp hrel hroom hc hpl (by omega) ?_
    rw [h]
    simp [ctrlStore, tlbinv, hv, tfmtNone]
  · exact run_store_ctrl hp hrel hroom hc hpl hle (ctrlStore_none h _ _ _)

/-- The translations that are dropped: of one world, all or those that cover an address (R123). -/
def Trans.drops (x : Trans) (w : Nat) (va : Option Nat) : Prop := x.world = w ∧ ∀ a ∈ va, x.va ≤ a ∧ a < x.va + x.size

/-- Whether a translation outlives such a drop. -/
def Trans.outlives (w : Nat) (va : Option Nat) (x : Trans) : Bool :=
  !(decide (x.world = w) && match va with
    | none => true
    | some a => decide (x.va ≤ a) && decide (a < x.va + x.size))

theorem Trans.outlives_iff {w : Nat} {va : Option Nat} {x : Trans} : x.outlives w va = true ↔ ¬x.drops w va := by
  cases va with
  | none => simp [outlives, drops]
  | some a =>
    simp [outlives, drops]
    grind

theorem State.dropTrans_cores (s : State) (w : Nat) (va : Option Nat) :
    (s.dropTrans w va).cores = s.cores.map fun e => (e.1, { e.2 with tlb := e.2.tlb.filter (Trans.outlives w va) }) := rfl

theorem State.dropTrans_dieTlb (s : State) (w : Nat) (va : Option Nat) :
    (s.dropTrans w va).dieTlb = s.dieTlb.map fun e => (e.1, e.2.filter (Trans.outlives w va)) := rfl

theorem get_mapValues_cases {α : Type} {d : α} (g : α → α) (m : Sparse α) (k : Nat) :
    Sparse.get d (m.map fun e => (e.1, g e.2)) k = g (Sparse.get d m k) ∨
      (Sparse.get d m k = d ∧ Sparse.get d (m.map fun e => (e.1, g e.2)) k = d) :=
  Sparse.get_map_cases (g := fun e => (e.1, g e.2)) (fun _ => rfl) m k

theorem mem_tlb_dropTrans {s : State} {c : Nat} (h : (s.core c).tlb ≠ []) (w : Nat) (va : Option Nat) (x : Trans) :
    x ∈ ((s.dropTrans w va).core c).tlb ↔ x ∈ (s.core c).tlb ∧ ¬x.drops w va := by
  rw [State.core, State.dropTrans_cores]
  rcases get_mapValues_cases (d := Core.init) (fun k => { k with tlb := k.tlb.filter (Trans.outlives w va) }) s.cores c
    with hc | ⟨hs, -⟩
  · rw [hc, List.mem_filter, Trans.outlives_iff, State.core]
  · exact absurd (by rw [State.core, hs]; rfl) h

theorem mem_dieTlb_dropTrans (s : State) (n w : Nat) (va : Option Nat) (x : Trans) :
    x ∈ Sparse.get [] (s.dropTrans w va).dieTlb n ↔ x ∈ Sparse.get [] s.dieTlb n ∧ ¬x.drops w va := by
  rw [State.dropTrans_dieTlb]
  rcases get_mapValues_cases (d := []) (List.filter (Trans.outlives w va)) s.dieTlb n with hc | ⟨hs, ht⟩
  · rw [hc, List.mem_filter, Trans.outlives_iff]
  · rw [ht, hs]
    simp

/-- What TLBINV drops: everything of the world with bit [0], else what covers the address. -/
theorem Trans.drops_tlbinv {x : Trans} {w a : Nat} {b : Bool} :
    x.drops w (if b then none else some a) ↔ x.world = w ∧ (b = true ∨ (x.va ≤ a ∧ a < x.va + x.size)) := by
  cases b <;> simp [drops]

theorem supervisorRegisters : SupervisorRegisters := by
  refine ⟨fun s v hv => ?_, fun s v => ⟨rfl, rfl⟩⟩
  refine ⟨s.dropTrans s.myWorld (if flag v 0 then none else some (fld v 16 40 * 2 ^ 16)), ?_, rfl, fun x => ⟨?_, fun c hc => ?_⟩⟩
  · change event _ s = _
    simp [event, tlbinv_ok hv, State.myWorld, State.myCore]
  · rw [mem_dieTlb_dropTrans, Trans.drops_tlbinv]
  · rw [mem_tlb_dropTrans hc, Trans.drops_tlbinv]

/-- Settles O8: a store to a word of the window has `ctrlStore`'s effect alone. -/
theorem controlWindow : Obligations.ControlWindow := ⟨ctrlWords, supervisorRegisters⟩

/-! ## The cache instructions (R84, R113, R128) -/

theorem run_prefetch_ok {l1 : Bool} {s t : State} {a : Reg} (hp : NoPort s [a] none) (h : prefetchLine l1 (s.src a) s.issue = .ok () t) :
    run (prefetch l1 a) s = .next t.finish := run_waiting hp (by simp [h])

theorem run_prefetch_error {l1 : Bool} {s t : State} {e : Stop} {a : Reg} (hp : NoPort s [a] none)
    (h : prefetchLine l1 (s.src a) s.issue = .error e t) : run (prefetch l1 a) s = .next s.issue.finish := run_waiting hp (by simp [h])

/-- A filter that keeps the lines looked for leaves the search as it was. -/
theorem find?_line_filter {l : List L1Line} {n : Nat} {p : L1Line → Bool} (h : ∀ x ∈ l, x.line = n → p x = true) :
    (l.filter p).find? (fun x => decide (x.line = n)) = l.find? fun x => decide (x.line = n) := by
  induction l with
  | nil => rfl
  | cons x l ih =>
    obtain ⟨hx, hl⟩ := List.forall_mem_cons.mp h
    by_cases hn : x.line = n
    · simp [hx hn, hn]
    · by_cases hp : p x = true <;> simp [hp, hn, ih hl]

theorem Core.l1Line_install_self (c : Core) (l : L1Line) : (c.l1Install l).l1Line l.line = some l := by
  simp [l1Line, l1Install]

/-- A line installed changes no set of the L1 but its own (R113). -/
theorem Core.l1Line_install_of_ne (c : Core) (l : L1Line) {n : Nat} (h : n % 256 ≠ l.line % 256) :
    (c.l1Install l).l1Line n = c.l1Line n := by
  have hne : l.line ≠ n := fun he => h (he ▸ rfl)
  rw [l1Line, l1Install, List.find?_cons_of_neg (by simpa using hne)]
  split
  · rw [find?_line_filter fun x _ hx => by simp [hx, h], find?_line_filter fun x _ hx => by simp [hx, Ne.symm hne]]
    rfl
  · rw [find?_line_filter fun x _ hx => by simp [hx, Ne.symm hne]]
    rfl

theorem exec_l1Fill {s : State} {c k : Nat} {f : Fill} (hf : (s.core c).fills[k]? = some f) :
    exec (.l1Fill c k) s = .next (s.modCore c fun k' =>
      if f.cancelled then { k' with fills := k'.fills.eraseIdx k } else
        ({ k' with fills := k'.fills.eraseIdx k } : Core).l1Install ⟨f.line, f.data⟩) := by
  change event (l1Fill c k) s = _
  simp [event, l1Fill, hf]

/-- Settles O11: the effect of each, run to its end. -/
theorem cacheInstructions : Obligations.CacheInstructions := by
  refine ⟨fun s => ⟨(s.issue.modMyCore fun c => { c.invalidateL1 with code := [] }).finish, rfl, ?_⟩, fun l1 s t a hp h => ?_,
    fun l1 s t e a hp h => ?_, fun s c k f hf => ?_⟩
  · generalize hu : (s.issue.modMyCore fun c => { c.invalidateL1 with code := [] }) = u
    have hme : u.me = s.issue.me := hu ▸ State.modMyCore_me ..
    have hcore : u.myCore = { s.issue.myCore.invalidateL1 with code := [] } := hu ▸ State.modMyCore_myCore ..
    have hmem : u.mem = s.mem := hu ▸ s.issue_mem
    have hcur : u.cur = s.cur := hu ▸ s.issue_cur
    simp [State.finish, State.goToLater, State.modMe_myCore, hcore, Core.invalidateL1, Core.setSlot, Slot.after, State.behind, hme, hmem, hcur]
  · cases l1 <;> exact run_prefetch_ok hp h
  · cases l1 <;> exact run_prefetch_error hp h
  · refine ⟨_, exec_l1Fill hf, by simp, ?_, fun hc => by simp [hc], fun hc => ?_⟩
    · cases hc : f.cancelled <;> simp [Core.l1Install]
    · simp only [State.modCore_core, hc, Bool.false_eq_true, if_false]
      exact ⟨Core.l1Line_install_self _ ⟨f.line, f.data⟩, fun n hn => Core.l1Line_install_of_ne _ ⟨f.line, f.data⟩ hn⟩

/-! ## Full/empty words (R112, R126, R127) -/

@[simp] theorem State.isFull_setFull (s : State) (loc l : Nat) (b : Bool) : (s.setFull loc b).isFull l = if loc = l then b else s.isFull l := by
  simp [State.isFull, State.setFull, Sparse.get_set]

theorem State.isFull_of_full {s t : State} (h : t.full = s.full) (l : Nat) : t.isFull l = s.isFull l := by rw [State.isFull, h, State.isFull]

theorem State.writeReg_full (s : State) (c n : Nat) (r : Reg) (v : W64) : (s.writeReg c n r v).full = s.full := by
  unfold State.writeReg
  split_ifs <;> rfl

theorem State.writeReg_mem (s : State) (c n : Nat) (r : Reg) (v : W64) : (s.writeReg c n r v).mem = s.mem := by
  unfold State.writeReg
  split_ifs <;> rfl

/-- What is left of serving a request after its effect: its acquire and its charge. -/
def State.feSettle (s : State) (r : FeReq) : State :=
  let s2 := if r.kind ≠ .ste && r.order.getLsbD 0 && decide (r.scope.toNat ≥ 2) then s.modCore r.core (·.invalidateL1) else s
  if r.pips = 0 then s2 else s2.chargeSlot r.core r.slot r.pips

theorem State.feSettle_full (s : State) (r : FeReq) : (s.feSettle r).full = s.full := by
  unfold feSettle
  dsimp only
  split_ifs <;> rfl

theorem State.feSettle_mem (s : State) (r : FeReq) : (s.feSettle r).mem = s.mem := by
  unfold feSettle
  dsimp only
  split_ifs <;> rfl

theorem State.chargeSlot_slot (s : State) (c n pips : Nat) :
    (s.chargeSlot c n pips).slot c n = { s.slot c n with meter := satAdd64 (s.slot c n).meter pips } := by
  simp [chargeSlot, State.slot]

/-- Neither touches a register. -/
theorem State.feSettle_reg (s : State) (r : FeReq) (q : Reg) : ((s.feSettle r).slot r.core r.slot).reg q = (s.slot r.core r.slot).reg q := by
  have hinv (t : State) : (t.modCore r.core (·.invalidateL1)).slot r.core r.slot = t.slot r.core r.slot := by
    simp [State.slot, Core.slot, Core.invalidateL1]
  unfold feSettle
  dsimp only
  split_ifs <;> simp [State.chargeSlot_slot, hinv, Slot.reg]

theorem State.feServe_ldf {s : State} {loc : Nat} {r : FeReq} (h : r.kind = .ldf) :
    s.feServe loc r = ((s.setFull loc false).writeReg r.core r.slot r.reg (s.word64 loc)).feSettle r := by
  simp [feServe, feSettle, h]

theorem State.feServe_ldfk {s : State} {loc : Nat} {r : FeReq} (h : r.kind = .ldfk) :
    s.feServe loc r = (s.writeReg r.core r.slot r.reg (s.word64 loc)).feSettle r := by
  simp [feServe, feSettle, h]

theorem State.feServe_ste {s : State} {loc : Nat} {r : FeReq} (h : r.kind = .ste) :
    s.feServe loc r = ((s.bankWrite r.core r.slot loc r.value).fill loc).feSettle r := by
  simp [feServe, feSettle, h]

/-- The lines that a write owns at its cluster, and their MACs. -/
theorem ownLines_frame (core world : Nat) (pin : Nat → Option Nat) (lines : List Nat) (s : State) :
    ∃ l2 msc keys bad, (lines.foldl (fun t line =>
      (t.l2Own (clusterOf core) world line (sliceOf line (pin line))).sealLine line (t.world world).memKey) s) =
        { s with l2 := l2, msc := msc, lineKeys := keys, eccBad := bad } := by
  induction lines generalizing s with
  | nil => exact ⟨_, _, _, _, rfl⟩
  | cons line lines ih =>
    obtain ⟨l2, msc, keys, bad, h⟩ := ih ((s.l2Own (clusterOf core) world line (sliceOf line (pin line))).sealLine line (s.world world).memKey)
    rw [List.foldl_cons, h]
    unfold State.l2Own
    dsimp only
    split
    · exact ⟨_, _, _, _, rfl⟩
    · rw [State.l2Fill_caches]
      exact ⟨_, _, _, _, rfl⟩

theorem State.setCells_frame (s : State) (cells : List Host.Cell) : s.setCells cells = { s with mem := (s.setCells cells).mem } := by
  induction cells generalizing s with
  | nil => rfl
  | cons x cells ih => exact ih (s.setByte x.1 x.2)

theorem State.setCells_mem_congr {s t : State} (h : t.mem = s.mem) (cells : List Host.Cell) : (t.setCells cells).mem = (s.setCells cells).mem := by
  induction cells generalizing s t with
  | nil => exact h
  | cons x cells ih => exact ih (by simp [State.setByte, h])

/-- What a write performed may change: memory with the keys of its lines, the caches, and the cores. -/
theorem State.performWrite_frame (s : State) (c uid w : Nat) (pin : Nat → Option Nat) (cells : List Host.Cell) :
    ∃ l2 msc keys bad cores, s.performWrite c uid w pin cells = { s with
      mem := if (s.keyDead w && cells.any fun x => isHbm x.1) = true then s.mem else (s.setCells cells).mem
      l2 := l2, msc := msc, lineKeys := keys, eccBad := bad, cores := cores } := by
  unfold State.performWrite
  by_cases hkey : (s.keyDead w && cells.any fun x => isHbm x.1) = true
  · exact ⟨_, _, _, _, _, by rw [if_pos hkey, if_pos hkey]⟩
  · obtain ⟨l2, msc, keys, bad, h⟩ := ownLines_frame c w pin (hbmLines cells) s
    simp only [if_neg hkey]
    generalize (hbmLines cells).foldl _ s = u at h ⊢
    rw [State.setCells_frame u, State.setCells_mem_congr (s := s) (h ▸ rfl), h]
    exact ⟨l2, msc, keys, bad, _, rfl⟩

theorem State.performWrite_full (s : State) (c uid w : Nat) (pin : Nat → Option Nat) (cells : List Host.Cell) :
    (s.performWrite c uid w pin cells).full = s.full := by
  obtain ⟨_, _, _, _, _, h⟩ := s.performWrite_frame c uid w pin cells
  rw [h]

theorem State.performWrite_mem (s : State) (c uid w : Nat) (pin : Nat → Option Nat) (cells : List Host.Cell) :
    (s.performWrite c uid w pin cells).mem =
      if (s.keyDead w && cells.any fun x => isHbm x.1) = true then s.mem else (s.setCells cells).mem := by
  obtain ⟨_, _, _, _, _, h⟩ := s.performWrite_frame c uid w pin cells
  rw [h]

theorem State.setCells_cellsAt (s : State) (loc : Nat) (bs : List Byte) : s.setCells (cellsAt loc bs) = s.setBytes loc bs := by
  induction bs generalizing s loc with
  | nil => rfl
  | cons b bs ih => exact ih (s.setByte loc b) (loc + 1)

theorem State.fill_mem (s : State) (loc : Nat) : (s.fill loc).mem = s.mem := by
  unfold fill
  dsimp only
  split_ifs <;> rfl

theorem State.isFull_fill (s : State) (loc l : Nat) : (s.fill loc).isFull l = if loc = l then true else s.isFull l := by
  unfold fill
  dsimp only
  rw [State.isFull_setFull]
  split_ifs <;> rfl

theorem State.byte_of_mem {s t : State} (h : t.mem = s.mem) (l : Nat) : t.byte l = s.byte l := by rw [State.byte, h, State.byte]

theorem State.word64_of_mem {s t : State} (h : t.mem = s.mem) (l : Nat) : t.word64 l = s.word64 l := by
  rw [State.word64, State.bytes_of_mem h, State.word64]

theorem natToLe_length (n v : Nat) : (natToLe n v).length = n := by
  induction n generalizing v with
  | zero => rfl
  | succ n ih => simp [natToLe, ih]

theorem leToNat_natToLe (n v : Nat) : leToNat (natToLe n v) = v % 256 ^ n := by
  induction n generalizing v with
  | zero => simp [natToLe, leToNat, Nat.mod_one]
  | succ n ih => rw [natToLe, leToNat, ih, Nat.pow_succ, Nat.mul_comm (256 ^ n), Nat.mod_mul, BitVec.toNat_ofNat]

theorem State.word64_setBytes (s : State) (loc : Nat) (v : W64) : (s.setBytes loc (natToLe 8 v.toNat)).word64 loc = v := by
  have h := s.bytes_setBytes loc (natToLe 8 v.toNat)
  rw [natToLe_length] at h
  rw [State.word64, h, leToNat_natToLe]
  exact BitVec.eq_of_toNat_eq (by rw [BitVec.toNat_ofNat]; omega)

/-- A word written at its bank while the key's lease runs. -/
theorem State.bankWrite_mem {s : State} {c : Nat} (h : s.keyDead (s.core c).world = false) (n loc : Nat) (v : W64) :
    (s.bankWrite c n loc v).mem = (s.setBytes loc (natToLe 8 v.toNat)).mem := by
  rw [bankWrite, State.performWrite_mem, h, State.setCells_cellsAt]
  rfl

/-- Settles O10: each kind of request has one effect on the word, its bit and the register; the acquire and the charge touch none. -/
theorem fullEmptyEffects : Obligations.FullEmptyEffects := by
  intro s loc r
  cases hk : r.kind with
  | ldf =>
    rw [State.feServe_ldf hk]
    refine ⟨fun _ => ?_, fun _ => ?_, nofun, nofun, fun l hl => ?_, fun _ h0 hqi hqo => ?_, nofun⟩
    · rw [State.feSettle_mem, State.writeReg_mem]
      rfl
    · rw [State.isFull_of_full (State.feSettle_full ..), State.isFull_of_full (State.writeReg_full ..), State.isFull_setFull, if_pos rfl]
    · rw [State.isFull_of_full (State.feSettle_full ..), State.isFull_of_full (State.writeReg_full ..), State.isFull_setFull,
        if_neg (Ne.symm hl)]
    · rw [State.feSettle_reg, State.writeReg_register (s := s.setFull loc false) _ (fun h => hqi h.symm) (fun h => hqo h.symm),
        State.modSlot_slot, Slot.setReg_reg _ h0]
  | ldfk =>
    rw [State.feServe_ldfk hk]
    refine ⟨fun _ => ?_, nofun, fun _ => ?_, nofun, fun l _ => ?_, fun _ h0 hqi hqo => ?_, nofun⟩
    · rw [State.feSettle_mem, State.writeReg_mem]
    · rw [State.isFull_of_full (State.feSettle_full ..), State.isFull_of_full (State.writeReg_full ..)]
    · rw [State.isFull_of_full (State.feSettle_full ..), State.isFull_of_full (State.writeReg_full ..)]
    · rw [State.feSettle_reg, State.writeReg_register _ (fun h => hqi h.symm) (fun h => hqo h.symm), State.modSlot_slot,
        Slot.setReg_reg _ h0]
  | ste =>
    rw [State.feServe_ste hk]
    have hfull (l : Nat) : (((s.bankWrite r.core r.slot loc r.value).fill loc).feSettle r).isFull l =
        if loc = l then true else s.isFull l := by
      rw [State.isFull_of_full (State.feSettle_full ..), State.isFull_fill, State.bankWrite,
        State.isFull_of_full (State.performWrite_full ..)]
    refine ⟨fun h => absurd rfl h, nofun, nofun, fun _ => ?_, fun l hl => ?_, fun h => absurd rfl h, fun _ hkey => ?_⟩
    · rw [hfull, if_pos rfl]
    · rw [hfull, if_neg (Ne.symm hl)]
    · have hmem : (((s.bankWrite r.core r.slot loc r.value).fill loc).feSettle r).mem = (s.setBytes loc (natToLe 8 r.value.toNat)).mem := by
        rw [State.feSettle_mem, State.fill_mem, State.bankWrite_mem hkey]
      refine ⟨?_, fun l hl => ?_⟩
      · rw [State.word64_of_mem hmem, State.word64_setBytes]
      · rw [State.byte_of_mem hmem, State.byte_setBytes_of_not (by rwa [natToLe_length])]

/-! ## Full/empty instructions (R126, R127) -/

theorem State.performWord_cur (s : State) (c n loc : Nat) : (s.performWord c n loc).cur = s.cur :=
  (EntriesKept.foldl (fun t e => EntriesKept.performNext t c e) _ s).cur

section
variable {s u v : State} {kind : FeKind} {kinds : List Kind} {d a : Reg} {m : Mod} {pl : Place} {cap : Option Cap}

/-- The state in which a full/empty request finds its word: released where it stores, with the thread's own stores to the word performed. -/
theorem feRequest_cur (hf : fePlace s.who (s.src a) kinds s.issue = .ok (pl, cap) u)
    (hrel : if kind = .ste then releaseAt m.order m.scope u = .ok () v else v = u) : v.cur = s.cur := by
  have hu : u.cur = s.cur := by rw [((fePlace_does s.who _ _).ok hf).cur_eq, State.issue_cur]
  split at hrel
  · rw [releaseAt_cur hrel, hu]
  · rw [hrel, hu]

/-- What a full/empty request that can wait does at its word. -/
theorem run_feRequest (hp : NoPort s (feSources kind d a) (feDest kind d))
    (hf : fePlace s.who (s.src a) kinds s.issue = .ok (pl, cap) u)
    (hrel : if kind = .ste then releaseAt m.order m.scope u = .ok () v else v = u) {t : State}
    (ht : t = v.performWord s.cur.core s.cur.slot pl.loc) :
    run (feRequest kind kinds d a m) s = .next (if (kind.admits (t.isFull pl.loc) &&
        !(t.feQueue pl.loc).any (·.kind.admits (t.isFull pl.loc))) = true then (t.feServe pl.loc (feReq s kind d (s.src d) m cap)).finish
      else ({ t with
        feWaiters := Sparse.put t.feWaiters pl.loc (t.feQueue pl.loc ++ [feReq s kind d (s.src d) m cap]) } : State).waitIn (.fe pl.loc)) := by
  have hcur : t.cur = s.cur := by rw [ht, State.performWord_cur, feRequest_cur hf hrel]
  have hreq : (⟨s.who.core, s.who.slot, kind, d, s.src d, m.order, m.scope, t.cur.len, (cap.map (·.charge)).getD 0⟩ : FeReq) =
      feReq s kind d (s.src d) m cap := by
    cases cap <;> simp [feReq, hcur, State.who]
  rw [run, feRequest, waiting]
  change NoPort s (if kind = .ste then [d, a] else [a]) (if kind = .ste then none else some d) at hp
  rw [withPorts_of_noPort _ hp.issue]
  have hword : v.performWord s.who.core s.who.slot pl.loc = t := ht.symm
  by_cases hk : kind = .ste
  · subst hk
    simp only [if_true] at hrel
    simp [hf, hrel, hword, hreq]
    by_cases hs : FeKind.ste.admits (t.isFull pl.loc) = true ∧ ∀ x ∈ t.feQueue pl.loc, x.kind.admits (t.isFull pl.loc) = false
    · simp only [if_pos hs]
      rfl
    · simp only [if_neg hs]
      rfl
  · simp only [hk, if_false] at hrel
    subst hrel
    simp [hf, hk, hword, hreq]
    by_cases hs : kind.admits (t.isFull pl.loc) = true ∧ ∀ x ∈ t.feQueue pl.loc, x.kind.admits (t.isFull pl.loc) = false
    · simp only [if_pos hs]
      rfl
    · simp only [if_neg hs]
      rfl

end

/-- A request is served where its bit admits it and no older one that it admits waits. -/
theorem serves_iff {k : FeKind} {b : Bool} {q : List FeReq} :
    (k.admits b && !q.any (·.kind.admits b)) = true ↔ k.admits b = true ∧ ∀ r ∈ q, r.kind.admits b = false := by
  simp

theorem feRequests : Claims.FullEmptyRequests := by
  have key : ∀ q ∈ feWaiting, ∀ d a m, exec (q.1 d a m) = run (feRequest q.2.1 q.2.2 d a m) := by
    intro q hq d a m
    simp only [feWaiting, List.mem_cons, List.not_mem_nil, or_false] at hq
    obtain rfl | rfl | rfl := hq
    iterate 3 rfl
  intro q hq s u v t d a m pl cap hp hf hrel ht
  rw [key q hq, run_feRequest hp hf hrel ht]
  refine ⟨fun hadm hq => ?_, fun h => ?_⟩
  · rw [if_pos (serves_iff.mpr ⟨hadm, hq⟩)]
  · rw [if_neg]
    rw [serves_iff]
    rintro ⟨hadm, hall⟩
    obtain hno | ⟨r, hr, hradm⟩ := h
    · simp [hno] at hadm
    · simp [hall r hr] at hradm

/-- What a full/empty instruction that never waits does: it acts at its word, then is charged. -/
theorem run_feNow {s u v t t' : State} {srcs : List Reg} {a : Reg} {m : Mod} {kinds : List Kind} {act : Nat → M Unit} {pl : Place}
    {cap : Option Cap} (hp : NoPort s srcs none) (hf : fePlace s.who (s.src a) kinds s.issue = .ok (pl, cap) u)
    (hrel : releaseAt m.order m.scope u = .ok () v) (ht : t = atWord s v pl.loc) (ha : act pl.loc t = .ok () t') :
    run (feNow kinds srcs a m act) s = .next (chargeOpt t' cap).finish := by
  have ht' : (v.performWord s.who.core s.who.slot pl.loc).feServeAll pl.loc
      ((v.performWord s.who.core s.who.slot pl.loc).feQueue pl.loc).length = t := ht.symm
  refine run_waiting hp ?_
  cases cap <;> simp [hf, hrel, ht', ha, chargeOpt, Option.forM]

/-- A request served changes neither who acts nor the requests that wait. -/
theorem State.feServe_frame (s : State) (loc : Nat) (r : FeReq) :
    (s.feServe loc r).cur = s.cur ∧ (s.feServe loc r).feWaiters = s.feWaiters := by
  have hsettle (t : State) : (t.feSettle r).cur = t.cur ∧ (t.feSettle r).feWaiters = t.feWaiters := by
    unfold State.feSettle
    dsimp only
    split_ifs <;> exact ⟨rfl, rfl⟩
  have hwrite (t : State) (q : Reg) (v : W64) : (t.writeReg r.core r.slot q v).cur = t.cur ∧
      (t.writeReg r.core r.slot q v).feWaiters = t.feWaiters := by
    unfold State.writeReg
    split_ifs <;> exact ⟨rfl, rfl⟩
  have hfill (t : State) : (t.fill loc).cur = t.cur ∧ (t.fill loc).feWaiters = t.feWaiters := by
    unfold State.fill
    dsimp only
    split_ifs <;> exact ⟨rfl, rfl⟩
  have hbank : (s.bankWrite r.core r.slot loc r.value).cur = s.cur ∧ (s.bankWrite r.core r.slot loc r.value).feWaiters = s.feWaiters := by
    unfold State.bankWrite
    obtain ⟨_, _, _, _, _, h⟩ := s.performWrite_frame r.core (s.slot r.core r.slot).uid (s.core r.core).world (fun _ => none)
      (cellsAt loc (natToLe 8 r.value.toNat))
    rw [h]
    exact ⟨rfl, rfl⟩
  cases hk : r.kind with
  | ldf =>
    rw [State.feServe_ldf hk, (hsettle _).1, (hsettle _).2, (hwrite ..).1, (hwrite ..).2]
    exact ⟨rfl, rfl⟩
  | ldfk =>
    rw [State.feServe_ldfk hk, (hsettle _).1, (hsettle _).2]
    exact hwrite ..
  | ste =>
    rw [State.feServe_ste hk, (hsettle _).1, (hsettle _).2, (hfill _).1, (hfill _).2]
    exact hbank

/-- The requests that a word's queue keeps when one of them is served. -/
def State.withoutWaiter (s : State) (loc : Nat) (rest : List FeReq) : State :=
  { s with feWaiters := if rest.isEmpty then Sparse.drop s.feWaiters loc else Sparse.put s.feWaiters loc rest }

theorem State.feQueue_withoutWaiter (s : State) (loc : Nat) (rest : List FeReq) : (s.withoutWaiter loc rest).feQueue loc = rest := by
  cases rest <;> simp [withoutWaiter, feQueue, Sparse.get_drop]

theorem feServeNext_eq (s : State) (loc : Nat) : s.feServeNext loc =
    ((s.feQueue loc).find? (·.kind.admits (s.isFull loc))).map fun r =>
      ((s.withoutWaiter loc ((s.feQueue loc).erase r)).feServe loc r).modSlot r.core r.slot fun sl =>
        sl.after (sl.pc + w64 r.len) .wait .complete := rfl

/-- One service takes one request from the word's queue. -/
theorem feServeNext_some {s t : State} {loc : Nat} (h : s.feServeNext loc = some t) :
    t.cur = s.cur ∧ (t.feQueue loc).length + 1 = (s.feQueue loc).length := by
  rw [feServeNext_eq] at h
  obtain ⟨r, hr, rfl⟩ := Option.map_eq_some_iff.mp h
  obtain ⟨hcur, hwait⟩ := (s.withoutWaiter loc ((s.feQueue loc).erase r)).feServe_frame loc r
  have hmem := List.mem_of_find?_eq_some hr
  refine ⟨hcur, ?_⟩
  rw [State.feQueue, State.modSlot_feWaiters, hwait, ← State.feQueue, State.feQueue_withoutWaiter, List.length_erase_of_mem hmem]
  have := List.length_pos_of_mem hmem
  omega

theorem feServeNext_none {s : State} {loc : Nat} (h : s.feServeNext loc = none) :
    ∀ r ∈ s.feQueue loc, r.kind.admits (s.isFull loc) = false := by
  rw [feServeNext_eq, Option.map_eq_none_iff, List.find?_eq_none] at h
  simpa using h

theorem State.feServeAll_cur (s : State) (loc n : Nat) : (s.feServeAll loc n).cur = s.cur := by
  induction n generalizing s with
  | zero => rfl
  | succ n ih =>
    rw [feServeAll]
    split
    · next t h => rw [ih, (feServeNext_some h).1]
    · rfl

theorem atWord_cur {s v : State} (h : v.cur = s.cur) (loc : Nat) : (atWord s v loc).cur = s.cur := by
  rw [atWord, State.feServeAll_cur, State.performWord_cur, h]

/-- After as many services as requests waited, none that waits is admitted by its bit. -/
theorem feServeAll_settles {s : State} {loc n : Nat} (hn : (s.feQueue loc).length ≤ n) :
    ∀ r ∈ (s.feServeAll loc n).feQueue loc, r.kind.admits ((s.feServeAll loc n).isFull loc) = false := by
  induction n generalizing s with
  | zero =>
    intro r hr
    rw [State.feServeAll, List.eq_nil_of_length_eq_zero (Nat.le_zero.mp hn)] at hr
    cases hr
  | succ n ih =>
    rw [State.feServeAll]
    split
    · next t h => exact ih (by have := (feServeNext_some h).2; omega)
    · next h => exact feServeNext_none h

theorem exec_feWaiterServed {s t : State} {loc : Nat} (h : s.feServeNext loc = some t) : exec (.feWaiterServed loc) s = .next t := by
  change event (feWaiterServed loc) s = _
  simp [event, feWaiterServed, h]

theorem fullEmptyOther : FullEmptyOther := by
  refine ⟨fun s u v t d a m pl cap hp hf hrel ht => ?_, fun s u t a pl cap hp hf ht => ?_, fun s u t a p pl cap hp hf ht => ?_,
    fun s loc before after r hq hbefore hr hnew => ?_, fun s loc => feServeAll_settles (Nat.le_refl _)⟩
  · have hcur : t.cur = s.cur := by
      rw [ht, atWord_cur]
      rw [releaseAt_cur hrel, ((fePlace_does s.who _ _).ok hf).cur_eq, State.issue_cur]
    exact run_feNow hp hf hrel ht (by simp [hcur])
  · exact run_feNow hp hf rfl ht rfl
  · exact run_feNow hp hf rfl ht rfl
  · refine exec_feWaiterServed ?_
    have hfind : (s.feQueue loc).find? (·.kind.admits (s.isFull loc)) = some r := by
      rw [hq, List.find?_append, List.find?_eq_none.mpr (by simpa using hbefore)]
      simp [hr]
    have hrest : (s.feQueue loc).erase r = before ++ after := by
      rw [hq, List.erase_append_right _ hnew, List.erase_cons_head]
    rw [feServeNext_eq, hfind, Option.map_some, hrest]
    rfl

/-- Settles O9: a request is served or queued at its word, and an access that never waits comes after those that its bit admits. -/
theorem fullEmptyRequests : Obligations.FullEmptyRequests := ⟨feRequests, fullEmptyOther⟩

/-! ## Stores performed (R44, R223, R244) -/

theorem State.core_sb_of_cores {s t : State} {g : Core → Core} (hg : ∀ k, (g k).sb = k.sb) (h : t.cores = s.cores.map fun e => (e.1, g e.2))
    (c : Nat) : (t.core c).sb = (s.core c).sb := by
  rw [State.core, h]
  rcases get_mapValues_cases (d := Core.init) g s.cores c with hc | ⟨hs, ht⟩
  · rw [hc, hg]
    rfl
  · rw [ht, State.core, hs]

theorem State.triggerWatches_sb (s : State) (uid : Nat) (locs : List Nat) (c : Nat) :
    ((s.triggerWatches uid locs).core c).sb = (s.core c).sb :=
  State.core_sb_of_cores (g := fun k => { k with
    slots := k.slots.map fun q => (q.1, q.2.trigger uid locs), cache := k.cache.map fun q => (q.1, q.2.trigger uid locs s.cycle) })
    (fun _ => rfl) rfl c

theorem State.performWrite_sb (s : State) (c uid w : Nat) (pin : Nat → Option Nat) (cells : List Host.Cell) (d : Nat) :
    ((s.performWrite c uid w pin cells).core d).sb = (s.core d).sb := by
  unfold State.performWrite
  split
  · rfl
  · obtain ⟨l2, msc, keys, bad, h⟩ := ownLines_frame c w pin (hbmLines cells) s
    dsimp only
    generalize (hbmLines cells).foldl _ s = u at h ⊢
    have hcores : ((u.setCells cells).core d).sb = (s.core d).sb := by rw [State.core, State.setCells_cores, h, State.core]
    rw [State.triggerWatches_sb, ← hcores]
    by_cases hd : c = d
    · subst hd
      rw [State.modCore_core]
      rfl
    · rw [State.modCore_core_of_ne _ _ hd]

theorem State.landEntry_sb (s : State) (c : Nat) (e : SbEntry) : ((s.landEntry c e).core c).sb = (s.core c).sb.erase e := by
  rw [landEntry, performWrite_sb, State.modCore_core]

/-- A landed entry writes its bytes, unless the key of its world has expired and one of them is in HBM (R44). -/
theorem State.landEntry_mem (s : State) (c : Nat) (e : SbEntry) : (s.landEntry c e).mem =
    if (s.keyDead e.world && e.bytes.any fun x => isHbm x.1) = true then s.mem else (s.setCells e.bytes).mem := by
  rw [landEntry, performWrite_mem]
  exact if_congr Iff.rfl rfl (State.setCells_mem_congr (s := s) (t := s.modCore c fun k => { k with sb := k.sb.erase e }) rfl _)

theorem exec_storePerform {s t : State} {c k : Nat} {e : SbEntry} (he : (s.core c).sb[k]? = some e)
    (hfirst : ∀ x ∈ (s.core c).sb.take k, x.ordered e = false) (ht : (if e.atBank then s.performWaiting c e else some (s.performEntry c e)) = some t) :
    exec (.storePerform c k) s = .next t := by
  have hany : ((s.core c).sb.take k).any (·.ordered e) = false := by simpa using hfirst
  change event (storePerform c k) s = _
  cases hb : e.atBank <;> simp only [hb, Bool.false_eq_true, if_false, if_true] at ht
  · simp [event, storePerform, he, hany, hb, Option.some.inj ht]
  · simp [event, storePerform, he, hany, hb, ht]

/-- An entry whose words are all free leaves from the buffer, or from its bank where it is the first there. -/
theorem leaves_of_free {s : State} {c : Nat} {e : SbEntry} (hfree : s.busyWord e.bytes = none)
    (hbank : e.atBank = false ∨ (∃ q ∈ s.banks, ⟨c, e⟩ ∈ q.2.deferred) ∧ ∀ q ∈ s.banks, ⟨c, e⟩ ∈ q.2.deferred →
        q.2.deferred.head? = some ⟨c, e⟩) :
    ∃ u : State, u.mem = s.mem ∧ (u.core c).sb = (s.core c).sb ∧ u.keyDead e.world = s.keyDead e.world ∧
      (if e.atBank then s.performWaiting c e else some (s.performEntry c e)) = some (u.landEntry c e) := by
  cases hb : e.atBank with
  | false => exact ⟨s, rfl, rfl, rfl, by simp [State.performEntry, hfree]⟩
  | true =>
    obtain ⟨⟨q, hq, hmem⟩, hhead⟩ := hbank.resolve_left (by simp [hb])
    obtain ⟨⟨l, b⟩, hfind⟩ : ∃ p, s.banks.find? (fun b => b.2.deferred.contains ⟨c, e⟩) = some p := by
      rw [← Option.isSome_iff_exists, List.find?_isSome]
      exact ⟨q, hq, by simpa using hmem⟩
    have hfirst := hhead _ (List.mem_of_find?_eq_some hfind) (by simpa using List.find?_some hfind)
    refine ⟨s.setBank l { b with deferred := b.deferred.drop 1 }, rfl, rfl, rfl, ?_⟩
    rw [State.performWaiting, hfind]
    simp [hfree, hfirst]

/-- Settles O7: an entry lands from the buffer or from its bank, or stands at the bank of a word that is held. -/
theorem storePerformed : Obligations.StorePerformed := by
  intro s c k e he hfirst
  refine ⟨fun hfree hbank => ?_, fun l hbusy => ⟨fun hb => ?_, fun hb => ?_⟩⟩
  · obtain ⟨u, hmem, hsb, hkey, hu⟩ := leaves_of_free hfree hbank
    have hexec := exec_storePerform he hfirst hu
    have hsb' : ((u.landEntry c e).core c).sb = (s.core c).sb.erase e := by rw [State.landEntry_sb, hsb]
    refine ⟨fun hlive => ⟨_, hexec, hsb', ?_⟩, fun hdead hhbm => ⟨_, hexec, hsb', ?_⟩⟩
    · have hland : (u.landEntry c e).mem = (s.setCells e.bytes).mem := by
        rw [State.landEntry_mem, hkey, if_neg, State.setCells_mem_congr hmem]
        obtain h | h := hlive
        · simp [h]
        · simpa using fun _ a b hab => h (a, b) hab
      refine ⟨fun loc hloc => ?_, fun hdist x hx => ?_⟩
      · rw [State.byte_of_mem hland, State.byte_setCells_of_not]
        rintro ⟨l, b⟩ hx rfl
        exact hloc b hx
      · rw [State.byte_of_mem hland, State.byte_setCells hdist hx]
    · rw [State.landEntry_mem, hkey, if_pos, hmem]
      simpa [hdead] using hhbm
  · have hentry : s.performEntry c e = (s.modCore c fun k => { k with sb := k.sb.replace e { e with atBank := true } }).setBank l
        { s.bank l with deferred := (s.bank l).deferred ++ [⟨c, { e with atBank := true }⟩] } := by
      rw [State.performEntry, hbusy]
    have hexec : exec (.storePerform c k) s = .next (s.performEntry c e) := exec_storePerform he hfirst (by simp [hb])
    refine ⟨_, hexec, ?_, ?_, ?_⟩ <;> rw [hentry]
    · rfl
    · change ((s.modCore c fun k => { k with sb := k.sb.replace e { e with atBank := true } }).core c).sb = _
      rw [State.modCore_core]
    · rw [State.setBank_bank]
  · have hany : ((s.core c).sb.take k).any (·.ordered e) = false := by simpa using hfirst
    change event (storePerform c k) s = _
    have hnone : s.performWaiting c e = none := by
      unfold State.performWaiting
      split
      · rfl
      · simp [hbusy]
    simp [event, storePerform, he, hany, hb, hnone]

end Sys2Proof.Machine
end

section
/-! Steps and fetching (R80, R89), the worked encodings, the reset, and the trap instructions (chapters 05, 06 and 20). -/

namespace Sys2Proof

/-- Settles O52: each list of words runs through the decoder. -/
theorem decodesSpecWords : Obligations.DecodesSpecWords := by
  unfold Obligations.DecodesSpecWords
  decide

end Sys2Proof

namespace Sys2Proof.Machine

open Sys2Proof.Claims (fetching prefixes)

/-! ## What a step runs (R80, R89) -/

/-- Where the words read decode to an instruction, the fetch answers it. -/
theorem fetchFrom_decoded {pc : W64} {n f : Nat} {ws : List H16} {p : Pfx} {i : Instr} {s t : State} (h : Claims.Fetched pc n ws s t)
    (hd : decodeFrom p n ws = some (i, n + ws.length)) (hf : ws.length ≤ f) :
    fetchFrom f p n pc s = .ok (i, 2 * (n + ws.length)) t := by
  induction ws generalizing p n f s with
  | nil => simp [decodeFrom] at hd
  | cons w ws ih =>
    obtain ⟨g, rfl⟩ : ∃ g, f = g + 1 := ⟨f - 1, by simp at hf; omega⟩
    cases h with
    | cons hw hrest =>
      unfold decodeFrom at hd
      cases hfeed : p.feed n w.toNat with
      | done j =>
        simp only [hfeed, Option.some.injEq, Prod.mk.injEq, List.length_cons] at hd
        obtain ⟨rfl, hn⟩ := hd
        obtain rfl : ws = [] := List.eq_nil_of_length_eq_zero (by omega)
        cases hrest
        simp [fetchFrom, hw, hfeed]
        omega
      | illegal => simp [hfeed] at hd
      | more q =>
        simp only [hfeed] at hd
        rw [fetchFrom_more hw hfeed, ih hrest (by rw [hd, List.length_cons]; congr 2; omega) (by simp at hf; omega)]
        simp
        omega

theorem fetchInstr_decoded {s t : State} {ws : List H16} {i : Instr} (h : Claims.Fetched s.me.pc 0 ws s t)
    (hd : decode ws = some (i, ws.length)) : fetchInstr s = .ok (i, 2 * ws.length) t := by
  obtain ⟨-, -, -, h5⟩ := admitted_of_decodeFrom Pfx.sane_init (by decide) hd
  have := fetchFrom_decoded (f := 5) h (by rw [Nat.zero_add]; exact hd) h5
  rw [Nat.zero_add] at this
  rw [fetchInstr, M.bind_apply, getMe_apply]
  exact this

/-- Where a word's fetch fails its checks, the fetch of the instruction does. -/
theorem fetchInstr_error {s u t : State} {ws : List H16} {p : Pfx} {e : Stop} (hp : prefixes Pfx.init 0 ws = some p)
    (h : Claims.Fetched s.me.pc 0 ws s u) (hlen : ws.length < 5) (hf : fetch16 (s.me.pc + w64 (2 * ws.length)) u = .error e t) :
    fetchInstr s = .error e t := by
  obtain ⟨f, hfuel⟩ : ∃ f, 5 = ws.length + (f + 1) := ⟨4 - ws.length, by omega⟩
  rw [fetchInstr, M.bind_apply, getMe_apply, hfuel]
  simp only [fetchFrom_of_prefixes h hp, Nat.zero_add]
  simp [fetchFrom, hf]

theorem issueStep_fetch_trap {c n : Nat} {rows : Option Nat} {s t : State} {x : TrapInfo} (hmay : s.mayIssue c n = true)
    (hu : (s.slot c n).underway = none) (hf : fetchInstr { s with cur := ⟨c, n, 2, rows⟩ } = .error (.trap x) t) :
    issueStep c n rows s = .next (takeTrap x t) := by
  simp [issueStep, hmay, hu, hf]

/-- Settles O55: each kind of act, and each way a fetch ends. -/
theorem stepRunsDecoded : Obligations.StepRunsDecoded := by
  refine ⟨fun s t rest c n rows ws i hpow hs hmay hu hf hd => ?_, fun s rest c n rows i len hpow hs hmay hu => ?_,
    fun s t rest c n rows ws w p hpow hs hmay hu hp hw hf => step_refused hpow hs hmay hu hp hw hf,
    fun s u t rest c n rows ws p x hpow hs hmay hu hp hf hlen hx => ?_, fun s rest e hpow => ⟨fun hs => ?_, fun hs => ?_⟩,
    fun s rest k hpow hs => ?_, fun s rest c n rows hpow hs hmay => ?_, fun s hpow hs => ?_⟩
  · rw [step_issue hpow hs]
    exact issueStep_fetched hmay hu (fetchInstr_decoded hf hd)
  · rw [step_issue hpow hs]
    exact issueStep_underway hmay hu
  · rw [step_issue hpow hs]
    exact issueStep_fetch_trap hmay hu (fetchInstr_error hp hf hlen hx)
  · simp [step, hs, hpow, actStep, Act.cycles]
  · simp [step, hs, hpow, actStep, Act.cycles]
  · simp [step, hs, hpow, actStep, Act.cycles, State.elapse]
  · rw [step_issue hpow hs]
    exact issueStep_of_not hmay
  · obtain hnil | ⟨a, rest, hcons⟩ : s.schedule = [] ∨ ∃ a rest, s.schedule = a :: rest := by
      cases s.schedule <;> simp
    · simp [step, hnil, hpow]
    · have hneed : a.needsNoPower = false := by
        unfold Act.needsNoPower
        split
        · exact absurd hcons (hs _ _)
        · rfl
      simp [step, hcons, hpow, hneed]

/-- Settles O56: the state after reset lists nothing. -/
theorem resetFacts : Obligations.ResetFacts := by
  refine ⟨rfl, rfl, rfl, rfl, rfl, rfl, fun loc => ?_, fun loc => rfl, fun c => ⟨rfl, rfl, rfl⟩, fun c n => ⟨rfl, rfl, rfl, fun r => ?_⟩,
    fun w => ⟨rfl, rfl⟩, fun r o k => ?_⟩
  · rfl
  · unfold Slot.reg
    split
    · rfl
    · exact Vector.getElem_replicate ..
  · cases k <;> simp [State.fwAllows, State.reset]

/-! ## The trap instructions (R80, R276, R277, R286) -/

@[simp] theorem State.issue_worldOf (s : State) (w : Nat) : s.issue.world w = s.world w := by
  rw [State.world, (State.issue_frame s).1.1]
  rfl

theorem State.issue_slot_of_ne (s : State) {n : Nat} (h : n ≠ s.cur.slot) : s.issue.slot s.cur.core n = s.slot s.cur.core n := by
  simpa [State.myCore, State.slot] using (State.issue_frame s).2.1.2 n h

@[simp] theorem State.issue_nest (s : State) : s.issue.me.nest = s.me.nest := by rw [(State.issue_frame s).2.2]
@[simp] theorem State.issue_epc (s : State) : s.issue.me.epc = s.me.epc := by rw [(State.issue_frame s).2.2]

theorem run_of_trap {m : M Ctl} {s t : State} {ti : TrapInfo} (h : m s.issue = .error (.trap ti) t) : run m s = .next (takeTrap ti t) := by
  simp [run, h]

theorem supOnly_ok {s : State} (h : s.cur.slot = 15) : supOnly s = .ok () s := by
  simp [supOnly, isSup, h]

theorem supOnly_trap {s : State} (h : s.cur.slot ≠ 15) : supOnly s = .error (.trap ⟨Cause.priv, s.me.pc, 0, tfmtNone⟩) s := by
  simp [supOnly, isSup, h]

theorem exec_rte {s : State} (h : s.cur.slot = 15) {c : Ctl} {t : State}
    (ht : returnFromTrap s.myCore.slotsel.toNat s.issue = .ok c t) : exec .rte s = .next (settle (.ok c t)) :=
  run_of_ok (m := rteInstr) (by simp [rteInstr, supOnly_ok (s := s.issue) (by simpa using h), ht])

/-- Settles O42: each instruction's one effect or trap. -/
theorem trapInstructions : Obligations.TrapInstructions := by
  refine ⟨fun s v => rfl, fun s a hp => ?_, fun s => ⟨fun h => ?_, fun h => ?_⟩, fun s n hn => ⟨fun h15 hn15 hnest => ?_,
    fun h15 hn15 htr => ?_, fun h15 hnest htr => ?_, fun h15 => ?_⟩⟩
  · refine run_of_trap (m := trapInstr a) ?_
    rw [trapInstr, withPorts_of_noPort _ hp.issue]
    simp [tfmtNone]
  · refine run_of_ok (m := bkpt) (c := .gone) ?_
    simp [bkpt, h, nextAddr, State.behind, State.modMyCore]
  · refine run_of_trap (m := bkpt) ?_
    simp [bkpt, h, tfmtNone]
  · subst hn
    rw [exec_rte h15 (c := .doneAt s.me.epc) (t := s.issue.modMe fun sl => { sl with nest := false })]
    · rfl
    · simp [returnFromTrap, hn15, hnest]
  · subst hn
    have hslot := s.issue_slot_of_ne (h15 ▸ hn15)
    rw [exec_rte h15 (c := .done)]
    · rfl
    · simp [returnFromTrap, hn15, hslot, htr, State.modSlot]
  · refine run_of_trap (m := rteInstr) ?_
    simp only [rteInstr, M.bind_apply, supOnly_ok (s := s.issue) (by simpa using h15), M.get_apply, State.issue_slotsel, ← hn]
    by_cases hn15 : n = 15
    · have hnest' : s.me.nest = false := by simpa using fun h => hnest ⟨hn15, h⟩
      simp [returnFromTrap, hn15, hnest', tfmtNone, w64]
    · have hslot := s.issue_slot_of_ne (h15 ▸ hn15)
      have htr' : (s.slot s.cur.core n).st ≠ .trapped := fun h => htr ⟨hn15, h⟩
      simp [returnFromTrap, hn15, hslot, htr', tfmtNone]
  · refine run_of_trap (m := rteInstr) ?_
    simp [rteInstr, supOnly_trap (s := s.issue) (by simpa using h15), tfmtNone]

end Sys2Proof.Machine
end

section
/-! What the register-only instructions, the loads and the stores leave unchanged (R85, R93 to R96, R99, R125, R244). -/

namespace Sys2Proof.Machine

open Sys2Proof.Claims

/-! ## Register-only instructions -/

theorem NoPort.of_subset {s : State} {l l' : List Reg} {dst : Option Reg} (h : NoPort s l dst) (hl : l' ⊆ l) : NoPort s l' dst :=
  ⟨fun hq => h.1 ⟨hq.1, hl hq.2⟩, h.2⟩

theorem sources_subset (d a : Reg) (x : Option Reg) : sources d a x ⊆ d :: a :: x.toList := by
  cases x <;> simp [sources]

/-- A register-only instruction writes d, or nothing, and goes on behind itself. -/
theorem exec_registerOnly {q : W64 → Reg → Reg → Option Reg → Instr} (hq : q ∈ registerOnly) {s : State} (v : W64) {d a : Reg} {x : Option Reg}
    (hp : NoPort s (d :: a :: x.toList) (some d)) : ∃ u : State, (u = s.issue ∨ ∃ w, u = s.issue.writeMine d w) ∧ exec (q v d a x) s =
      .next u.advance := by
  have hd : NoPort s [d] (some d) := hp.of_subset (by simp)
  have ha : NoPort s [a] (some d) := hp.of_subset (by simp)
  have hda : NoPort s [d, a] (some d) := hp.of_subset (by simp)
  have h0 : NoPort s [] (some d) := hp.of_subset (by simp)
  simp only [registerOnly, List.mem_append, List.mem_map, List.mem_cons, List.not_mem_nil, or_false] at hq
  obtain (((⟨r, hr, rfl⟩ | ⟨r, hr, rfl⟩) | ⟨r, hr, rfl⟩) | ⟨r, hr, rfl⟩) | rfl | rfl | rfl | rfl | rfl := hq
  · exact ⟨_, .inr ⟨_, rfl⟩, twoSourceArithmetic r hr s d a x (hp.of_subset (sources_subset d a x))⟩
  · obtain ⟨w, -, h⟩ := oneSourceArithmetic.1 r hr s d a ha
    exact ⟨_, .inr ⟨w, rfl⟩, h⟩
  · exact ⟨_, .inr ⟨_, rfl⟩, oneSourceArithmetic.2 r hr s d a hda⟩
  · exact ⟨_, .inr ⟨_, rfl⟩, immediates.2.2.2.1 r hr s d _ hd⟩
  · refine ⟨_, ?_, predicates.2.1 s d a ha⟩
    split
    · exact .inr ⟨_, rfl⟩
    · exact .inl rfl
  · obtain ⟨w, -, h⟩ := predicates.2.2.2 s d h0
    exact ⟨_, .inr ⟨w, rfl⟩, h⟩
  · exact ⟨_, .inr ⟨_, rfl⟩, immediates.1 s d v hd⟩
  · exact ⟨_, .inr ⟨_, rfl⟩, immediates.2.1 s d v h0⟩
  · obtain ⟨w, -, h⟩ := immediates.2.2.1 s d (v.setWidth 32) hd
    exact ⟨_, .inr ⟨w, rfl⟩, h⟩

theorem State.modMe_core_of_ne (s : State) (f : Slot → Slot) {c : Nat} (h : c ≠ s.cur.core) : (s.modMe f).core c = s.core c :=
  State.setCore_core_of_ne _ _ (Ne.symm h)

/-- An issued instruction that changes the acting slot alone. -/
theorem issue_modMe_frame (s : State) (f : Slot → Slot) :
    SameMemory s (s.issue.modMe f) ∧ OtherCoresSame s (s.issue.modMe f) ∧ OtherSlotsSame s (s.issue.modMe f) := by
  obtain ⟨⟨hdev, hcores⟩, ⟨hcore, hslots⟩, -⟩ := s.issue_frame
  refine ⟨fun loc => State.byte_of_mem (by simp) loc, ⟨?_, fun c hc => ?_⟩, ⟨?_, fun n hn => ?_⟩⟩
  · rw [State.modMe, State.setMe, State.setSlot, State.setCore, hdev]
  · rw [State.modMe_core_of_ne _ _ (by simpa using hc), hcores c hc]
  · rw [State.modMe_myCore, Core.setSlot]
    conv_lhs => rw [hcore]
  · rw [State.modMe_myCore, ← hslots n hn]
    exact Core.setSlot_slot_of_ne _ _ (by simpa using Ne.symm hn)

theorem issue_modMe_scalarStateOnly {s : State} {f : Slot → Slot} (hf : ∀ sl, f sl = { sl with
    s := (f sl).s, p := (f sl).p, pc := (f sl).pc, st := (f sl).st, waiting := (f sl).waiting, reissue := (f sl).reissue
    charged := (f sl).charged, limit := (f sl).limit, popped := (f sl).popped, spawning := (f sl).spawning }) :
    ScalarStateOnly s (s.issue.modMe f) := by
  have h := hf s.issue.me
  have hk := s.issue_frame.2.2
  rw [ScalarStateOnly, State.modMe_me]
  generalize f s.issue.me = g at h ⊢
  generalize s.issue.me = k at h hk
  cases g
  cases k
  simp only [Slot.mk.injEq] at h hk
  simp [h, hk]

/-- The slot behind its instruction, with other registers and predicates. -/
def Slot.stepped (regs : Vector W64 32) (preds : Vector Bool 8) (pc : W64) (sl : Slot) : Slot :=
  { sl.after pc .run .none with s := regs, p := preds }

theorem State.modMe_congr {s : State} {f g : Slot → Slot} (h : f s.me = g s.me) : s.modMe f = s.modMe g := by
  rw [modMe, modMe, h]

theorem Slot.setReg_eq (sl : Slot) (r : Reg) (v : W64) : sl.setReg r v = { sl with s := (sl.setReg r v).s } := by
  unfold setReg
  split <;> rfl

/-- The state after an instruction that writes one register, or none. -/
theorem advance_writeMine {s : State} {d : Reg} (w : W64) (h : ¬(s.myCore.portOut s.cur.slot = true ∧ d = qo)) :
    ∃ regs, (∀ r, r ≠ d → ({ s.me with s := regs } : Slot).reg r = s.me.reg r) ∧
      (s.issue.writeMine d w).advance = s.issue.modMe (Slot.stepped regs s.me.p s.behind) := by
  rw [State.writeMine_register w (by simpa using h)]
  split
  · refine ⟨s.me.s, fun _ _ => rfl, ?_⟩
    rw [State.advance, State.goTo, State.issue_behind]
    exact State.modMe_congr (by rw [Slot.stepped, ← s.issue_s, ← s.issue_p]; rfl)
  · refine ⟨(s.me.setReg d w).s, fun r hr => Slot.setReg_reg_of_ne w hr, ?_⟩
    have hs : (s.me.setReg d w).s = (s.issue.me.setReg d w).s := by
      by_cases hd : d = 0#5 <;> simp [Slot.setReg, hd]
    have hbehind : (s.issue.modMe (·.setReg d w)).behind = s.behind := by
      by_cases hd : d = 0#5 <;> simp [State.behind, Slot.setReg, hd]
    rw [State.advance, State.goTo, hbehind, State.modMe_modMe, hs, ← s.issue_p]
    exact State.modMe_congr (by rw [Slot.setReg_eq]; rfl)

/-- A register-only instruction's effect is one change of the slot. -/
theorem exec_registerOnly_slot {q : W64 → Reg → Reg → Option Reg → Instr} (hq : q ∈ registerOnly) {s : State} (v : W64) {d a : Reg} {x : Option Reg}
    (hp : NoPort s (d :: a :: x.toList) (some d)) : ∃ regs, (∀ r, r ≠ d → ({ s.me with s := regs } : Slot).reg r = s.me.reg r) ∧
      exec (q v d a x) s = .next (s.issue.modMe (Slot.stepped regs s.me.p s.behind)) := by
  obtain ⟨u, rfl | ⟨w, rfl⟩, hexec⟩ := exec_registerOnly hq v hp
  · refine ⟨s.me.s, fun _ _ => rfl, ?_⟩
    rw [hexec, State.advance, State.goTo, State.issue_behind]
    exact congrArg _ (State.modMe_congr (by rw [Slot.stepped, ← s.issue_s, ← s.issue_p]; rfl))
  · obtain ⟨regs, hregs, hadv⟩ := advance_writeMine (s := s) (d := d) w (by simpa using hp.2)
    exact ⟨regs, hregs, by rw [hexec, hadv]⟩

theorem exec_compares_slot {q : (Num3 → Reg → Option Reg → Instr) × (W64 → W64 → Bool)} (hq : q ∈ compares) {s : State} {p : Num3} {a : Reg}
    {x : Option Reg} (hp : NoPort s (a :: x.toList) none) : ∃ preds, (∀ i, i ≠ p → ({ s.me with p := preds } : Slot).pred i = s.me.pred i) ∧
      exec (q.1 p a x) s = .next (s.issue.modMe (Slot.stepped s.me.s preds s.behind)) := by
  have hexec := predicates.1 q hq s p a x hp
  generalize q.2 (s.src a) _ = b at hexec
  refine ⟨(s.me.setPred p b).p, fun i hi => ?_, ?_⟩
  · have hne : p.toNat ≠ i.toNat := fun he => hi (BitVec.eq_of_toNat_eq he.symm)
    simp [Slot.pred, Slot.setPred, hne]
  · rw [hexec, State.advance, State.goTo, State.modMe_modMe]
    refine congrArg _ (State.modMe_congr ?_)
    rw [Slot.stepped, ← s.issue_s]
    simp [Slot.after, Slot.setPred, State.behind]

/-- The frame of an instruction that changes registers or predicates of the acting slot and moves it behind itself. -/
theorem stepped_frame (s : State) (regs : Vector W64 32) (preds : Vector Bool 8) :
    SameMemory s (s.issue.modMe (Slot.stepped regs preds s.behind)) ∧ OtherCoresSame s (s.issue.modMe (Slot.stepped regs preds s.behind)) ∧
      OtherSlotsSame s (s.issue.modMe (Slot.stepped regs preds s.behind)) ∧ ScalarStateOnly s (s.issue.modMe (Slot.stepped regs preds s.behind)) := by
  obtain ⟨hmem, hcores, hslots⟩ := issue_modMe_frame s (Slot.stepped regs preds s.behind)
  exact ⟨hmem, hcores, hslots, issue_modMe_scalarStateOnly fun _ => rfl⟩

theorem registerOnlyFrame : RegisterOnlyFrame := by
  refine ⟨fun q hq s t v d a x hp h => ?_, fun q hq s t p a x hp h => ?_⟩
  · obtain ⟨regs, hregs, hexec⟩ := exec_registerOnly_slot hq v hp
    obtain rfl := Host.Outcome.next.inj (hexec.symm.trans h)
    obtain ⟨hmem, hcores, hslots, honly⟩ := stepped_frame s regs s.me.p
    have hme : (s.issue.modMe (Slot.stepped regs s.me.p s.behind)).me = s.issue.me.stepped regs s.me.p s.behind := State.modMe_me ..
    refine ⟨hmem, hcores, hslots, honly, fun r hr => ?_, ?_, ?_, ?_⟩
    · rw [hme]
      exact hregs r (by simpa using hr)
    · rw [SamePreds, hme]
      rfl
    · rw [hme]
      rfl
    · rw [hme]
      rfl
  · obtain ⟨preds, hpreds, hexec⟩ := exec_compares_slot hq hp
    obtain rfl := Host.Outcome.next.inj (hexec.symm.trans h)
    obtain ⟨hmem, hcores, hslots, honly⟩ := stepped_frame s s.me.s preds
    have hme : (s.issue.modMe (Slot.stepped s.me.s preds s.behind)).me = s.issue.me.stepped s.me.s preds s.behind := State.modMe_me ..
    refine ⟨hmem, hcores, hslots, honly, fun r _ => ?_, fun i hi => ?_, ?_, ?_⟩
    · rw [hme]
      rfl
    · rw [hme]
      exact hpreds i hi
    · rw [hme]
      rfl
    · rw [hme]
      rfl

/-! ## Loads and stores -/

/-- Of the cores only slots, event counters and the L1 have changed, and of the slots only the acting one: what an instruction does besides
its accesses. -/
structure Local (s t : State) : Prop where
  device : t = { s with cores := t.cores }
  core : ∀ c, t.core c = { s.core c with slots := (t.core c).slots, l1 := (t.core c).l1, fills := (t.core c).fills, evcnt := (t.core c).evcnt }
  slot : ∀ c n, ¬(c = s.cur.core ∧ n = s.cur.slot) → t.slot c n = s.slot c n

namespace Local

/-- A core with another value in the fields that may change, whichever. -/
theorem of_core {k k' : Core} {slots : Sparse Slot} {l1 : List L1Line} {fills : List Fill} {evcnt : Vector W64 8}
    (h : k' = { k with slots := slots, l1 := l1, fills := fills, evcnt := evcnt }) :
    k' = { k with slots := k'.slots, l1 := k'.l1, fills := k'.fills, evcnt := k'.evcnt } := by
  rw [h]

theorem refl (s : State) : Local s s := ⟨rfl, fun _ => rfl, fun _ _ _ => rfl⟩

theorem cur_eq {s t : State} (h : Local s t) : t.cur = s.cur := by rw [h.device]

theorem trans {s t u : State} (h : Local s t) (k : Local t u) : Local s u := by
  refine ⟨?_, fun c => ?_, fun c n hn => ?_⟩
  · conv_lhs => rw [k.device]
    conv_lhs => rw [h.device]
  · conv_lhs => rw [k.core c]
    conv_lhs => rw [h.core c]
  · rw [k.slot c n (by rwa [h.cur_eq]), h.slot c n hn]

theorem modMe (s : State) (f : Slot → Slot) : Local s (s.modMe f) := by
  refine ⟨rfl, fun c => ?_, fun c n hn => ?_⟩
  · by_cases hc : c = s.cur.core
    · subst hc
      exact of_core (s.modMe_myCore f)
    · rw [State.modMe_core_of_ne s f hc]
  · by_cases hc : c = s.cur.core
    · subst hc
      exact State.modSlot_slot_of_ne s _ f fun h => hn ⟨rfl, h⟩
    · rw [State.slot, State.modMe_core_of_ne s f hc, State.slot]

theorem modMyCore {s : State} {f : Core → Core} (hf : ∀ k, f k = { k with l1 := (f k).l1, fills := (f k).fills, evcnt := (f k).evcnt }) :
    Local s (s.modMyCore f) := by
  have hslots (k : Core) (n : Nat) : (f k).slot n = k.slot n := by rw [Core.slot, hf k, Core.slot]
  refine ⟨rfl, fun c => ?_, fun c n _ => ?_⟩
  · by_cases hc : c = s.cur.core
    · subst hc
      exact of_core ((State.modCore_core s _ f).trans (hf _))
    · rw [State.modMyCore, State.modCore_core_of_ne _ _ (Ne.symm hc)]
  · by_cases hc : c = s.cur.core
    · subst hc
      rw [State.slot, State.modMyCore, State.modCore_core, hslots, State.slot]
    · rw [State.slot, State.modMyCore, State.modCore_core_of_ne _ _ (Ne.symm hc), State.slot]

theorem issue (s : State) : Local s s.issue := by
  obtain ⟨⟨hdev, hcores⟩, ⟨hcore, hslots⟩, -⟩ := s.issue_frame
  refine ⟨hdev, fun c => ?_, fun c n hn => ?_⟩
  · by_cases hc : c = s.cur.core
    · subst hc
      have hcur : s.issue.core s.cur.core = s.issue.myCore := by rw [State.myCore, s.issue_cur]
      exact of_core (hcur.trans hcore)
    · rw [hcores c hc]
  · by_cases hc : c = s.cur.core
    · subst hc
      exact s.issue_slot_of_ne fun h => hn ⟨rfl, h⟩
    · rw [State.slot, hcores c hc, State.slot]

theorem chargeMine (s : State) (n : Nat) : Local s (s.chargeSlot s.cur.core s.cur.slot n) := by
  have h : s.chargeSlot s.cur.core s.cur.slot n =
      (s.modMe fun sl => { sl with meter := satAdd64 sl.meter n }).modMyCore (·.tally 0x32 s.cur.slot n) := by
    simp [State.chargeSlot, State.modMyCore, State.modCore, State.modMe, State.setMe, State.setSlot, Core.modSlot, State.me, State.slot]
  rw [h]
  exact (modMe s _).trans (modMyCore fun _ => rfl)

theorem chargeOnce (s : State) (cap : Cap) : Local s (s.chargeOnce cap) := by
  unfold State.chargeOnce
  split
  · exact refl s
  · exact (chargeMine s _).trans (modMe _ _)

theorem acquired (s : State) (o : BitVec 2) (n : Nat) : Local s (s.acquired o n) := by
  unfold State.acquired
  split
  · exact modMyCore fun _ => rfl
  · exact refl s

theorem writeMine {s : State} {d : Reg} (v : W64) (h : ¬(s.myCore.portOut s.cur.slot = true ∧ d = qo)) : Local s (s.writeMine d v) := by
  rw [State.writeMine_register v h]
  split
  · exact refl s
  · exact modMe s _

theorem finish (s : State) : Local s s.finish := modMe s fun sl => sl.after s.behind .wait .complete

theorem portOut_eq {s t : State} (h : Local s t) (c n : Nat) : (t.core c).portOut n = (s.core c).portOut n := by
  rw [Core.portOut, h.core c, Core.portOut]
theorem sb_eq {s t : State} (h : Local s t) (c : Nat) : (t.core c).sb = (s.core c).sb := by rw [h.core c]
theorem mem_eq {s t : State} (h : Local s t) : t.mem = s.mem := by rw [h.device]

theorem cachesOnly {s t : State} (h : Local s t) : CachesOnly s t := by
  refine ⟨?_, fun c => ?_⟩
  · conv_lhs => rw [h.device]
    rw [h.device]
  · conv_lhs => rw [h.core c]
    rw [h.core c]

end Local

theorem cachesOnly_trans {s t u : State} (h : CachesOnly s t) (k : CachesOnly t u) : CachesOnly s u := by
  obtain ⟨hd, hc⟩ := h
  obtain ⟨kd, kc⟩ := k
  refine ⟨?_, fun c => ?_⟩
  · conv_lhs => rw [kd]
    conv_lhs => rw [hd]
  · conv_lhs => rw [kc c]
    conv_lhs => rw [hc c]

theorem Touched.cachesOnly {w : Nat} {s t : State} (h : Touched w s t) : CachesOnly s t := by
  refine ⟨h.device, fun c => ?_⟩
  conv_lhs => rw [h.core c]
  rw [h.core c]

theorem scalarStateOnly_trans {s t u : State} (h : ScalarStateOnly s t) (k : ScalarStateOnly t u) : ScalarStateOnly s u := by
  unfold ScalarStateOnly at *
  conv_lhs => rw [k]
  conv_lhs => rw [h]

theorem chargeMine_me (s : State) (n : Nat) : (s.chargeSlot s.cur.core s.cur.slot n).me = { s.me with meter := satAdd64 s.me.meter n } :=
  s.chargeSlot_slot s.cur.core s.cur.slot n

/-- A charge touches the meter and the account. -/
theorem chargeOnce_me (s : State) (cap : Cap) : ∃ m l, (s.chargeOnce cap).me = { s.me with meter := m, charged := l } := by
  unfold State.chargeOnce
  split
  · exact ⟨_, _, rfl⟩
  · exact ⟨_, _, by rw [State.modMe_me, chargeMine_me]⟩

theorem acquired_me (s : State) (o : BitVec 2) (n : Nat) : (s.acquired o n).me = s.me := by
  unfold State.acquired
  split
  · exact State.modMyCore_me ..
  · rfl

theorem finish_me (s : State) : s.finish.me = s.me.after s.behind .wait .complete := State.modMe_me ..

/-- The slot after a load or a store. -/
def Slot.completed (regs : Vector W64 32) (m : W64) (pc : W64) (sl : Slot) : Slot := { sl.after pc .wait .complete with s := regs, meter := m }

/-- The write of a register that is no port for pushing. -/
theorem writeMine_me {s : State} {d : Reg} (v : W64) (h : ¬(s.myCore.portOut s.cur.slot = true ∧ d = qo)) :
    ∃ regs, (∀ r, r ≠ d → ({ s.me with s := regs } : Slot).reg r = s.me.reg r) ∧ (s.writeMine d v).me = { s.me with s := regs } := by
  rw [State.writeMine_register v h]
  split
  · exact ⟨_, fun _ _ => rfl, rfl⟩
  · exact ⟨(s.me.setReg d v).s, fun r hr => Slot.setReg_reg_of_ne v hr, by rw [State.modMe_me, ← Slot.setReg_eq]⟩

/-- From the accesses of an instruction to its completion: what it leaves in the slot. -/
theorem finish_of_me {s v u : State} {regs : Vector W64 32} {m : W64} {l : List Nat} (hcur : u.cur = s.cur) (hv : v.me = s.issue.me)
    (hu : u.me = { v.me with s := regs, meter := m, charged := l }) : u.finish.me = s.issue.me.completed regs m s.behind := by
  have hbehind : u.behind = s.behind := by
    rw [← s.issue_behind, State.behind, hu, hv, hcur, State.behind, s.issue_cur]
  rw [finish_me, hbehind, hu, hv]
  rfl

theorem State.issue_scalarStateOnly (s : State) : ScalarStateOnly s s.issue := by
  have h := s.issue_frame.2.2
  rw [ScalarStateOnly]
  generalize s.issue.me = k at h ⊢
  cases k
  simp only [Slot.mk.injEq] at h ⊢
  simp [h]

theorem completed_frame {s t : State} {regs : Vector W64 32} {m : W64} (h : t.me = s.issue.me.completed regs m s.behind) :
    SamePreds s t ∧ ScalarStateOnly s t ∧ t.me.pc = s.behind := by
  refine ⟨?_, scalarStateOnly_trans (t := s.issue) s.issue_scalarStateOnly ?_, by rw [h]; rfl⟩
  · rw [SamePreds, h]
    exact s.issue_p
  · rw [ScalarStateOnly, h]
    rfl

/-- The accesses of an instruction of the acting thread, and what it does besides. -/
theorem access_frame {s v t : State} (hv : Touched s.myWorld s.issue v) (ht : Local v t) :
    CachesOnly s t ∧ (∀ c, (t.core c).sb = (s.core c).sb) ∧ (∀ c n, ¬(c = s.cur.core ∧ n = s.cur.slot) → t.slot c n = s.slot c n) ∧
    ∀ loc, t.byte loc = s.byte loc ∨ (isHbm loc = true ∧ Sparse.get 0 s.lineKeys (loc / 64) ≠ (s.world s.myWorld).memKey) := by
  have hs := Local.issue s
  refine ⟨cachesOnly_trans (cachesOnly_trans hs.cachesOnly hv.cachesOnly) ht.cachesOnly, fun c => ?_, fun c n hn => ?_, fun loc => ?_⟩
  · rw [ht.sb_eq, hv.sb_eq, hs.sb_eq]
  · rw [ht.slot c n (by rwa [hv.cur_eq, hs.cur_eq]), hv.slot_eq, hs.slot c n hn]
  · have hkeys : s.issue.lineKeys = s.lineKeys := by rw [hs.device]
    have h := hv.byte loc
    rw [State.byte_of_mem s.issue_mem, hkeys, s.issue_worldOf] at h
    rwa [State.byte_of_mem ht.mem_eq]

theorem loadsFrame {q : (Reg → Reg → W64 → Mod → Instr) × Nat × (Nat → W64)} (hq : q ∈ Claims.loads) {s u v t : State} {d a : Reg} {off : W64}
    {m : Mod} {pl : Place} {cap : Cap} {bs : List Byte} (hp : NoPort s [a] (some d))
    (hc : checkAccess s.who (s.src a + off * w64 q.2.1) q.2.1 .read [.read] s.issue = .ok (pl, cap) u)
    (hl : loadPlace s.who pl q.2.1 m (s.src a + off * w64 q.2.1) u = .ok bs v) (h : exec (q.1 d a off m) s = .next t) :
    Touched s.myWorld s.issue v ∧ Local v t ∧ ∃ regs m', (∀ r, r ≠ d → ({ s.me with s := regs } : Slot).reg r = s.me.reg r) ∧
      t.me = s.issue.me.completed regs m' s.behind := by
  obtain ⟨-, hexec⟩ := loads q hq s u v d a off m pl cap bs hp hc hl
  obtain rfl := Host.Outcome.next.inj (hexec.symm.trans h)
  have hv : Touched s.myWorld s.issue v := ((checkAccess_does s.who _ _ _ _).ok hc).trans
    ((loadPlace_does s.who _ _ _ (checkAccess_gives _ _ _ _ _ _ _ _ hc)).ok hl)
  have hvcur : v.cur = s.cur := by rw [hv.cur_eq, s.issue_cur]
  have hA := Local.chargeOnce v cap
  have hB := Local.acquired (v.chargeOnce cap) m.order m.scope.toNat
  generalize hb : (v.chargeOnce cap).acquired m.order m.scope.toNat = b at hB
  have hbcur : b.cur = s.cur := by rw [hB.cur_eq, hA.cur_eq, hvcur]
  have hout : ¬(b.myCore.portOut b.cur.slot = true ∧ d = qo) := by
    have hport : b.myCore.portOut b.cur.slot = s.myCore.portOut s.cur.slot := by
      rw [State.myCore, hbcur, hB.portOut_eq, hA.portOut_eq, Core.portOut, hv.pipecfg_eq, ← Core.portOut, (Local.issue s).portOut_eq, State.myCore]
    simpa [hport] using hp.2
  have hC := Local.writeMine (q.2.2 (leToNat bs)) hout
  refine ⟨hv, ((hA.trans hB).trans hC).trans (Local.finish _), ?_⟩
  obtain ⟨m', l, hme⟩ := chargeOnce_me v cap
  have hbme : b.me = { v.me with meter := m', charged := l } := by rw [← hb, acquired_me, hme]
  obtain ⟨regs, hregs, hwme⟩ := writeMine_me (q.2.2 (leToNat bs)) hout
  refine ⟨regs, m', fun r hr => ?_, finish_of_me (l := l) (by rw [hC.cur_eq, hbcur]) hv.me_eq (by rw [hwme, hbme])⟩
  have hreg : b.me.reg r = s.me.reg r := by
    rw [hbme, ← s.issue_reg, ← hv.me_eq]
    rfl
  rw [← hreg, ← hregs r hr]
  rfl

/-- An entry that joins the acting core's buffer. -/
theorem cachesOnly_modCore_sb (s : State) (c : Nat) (f : List SbEntry → List SbEntry) : CachesOnly s
    (s.modCore c fun k => { k with sb := f k.sb }) := by
  refine ⟨rfl, fun d => ?_⟩
  by_cases hd : c = d
  · subst hd
    rw [State.modCore_core]
  · rw [State.modCore_core_of_ne _ _ hd]

theorem modCore_sb_slot (s : State) (c d n : Nat) (f : List SbEntry → List SbEntry) :
    (s.modCore c fun k => { k with sb := f k.sb }).slot d n = s.slot d n := by
  by_cases h : c = d
  · subst h
    simp [State.slot, Core.slot]
  · simp [State.slot, State.modCore_core_of_ne _ _ h]

theorem readForStore_touched {w : Who} {pl : Place} {ea : W64} {s t : State} (hpl : pl.honest) (h : readForStore w pl ea s t) :
    Touched w.world s t := by
  unfold readForStore at h
  split at h
  · next hhbm => exact (lineIn_does w pl.pin ea (isHbm_base (hpl hhbm))).ok h
  · rw [h]
    exact .refl _ _

theorem releaseAt_plain {m : Mod} (h : m.order = 0) (s : State) : releaseAt m.order m.scope s = .ok () s := by
  rw [h]
  rfl

theorem loadsAndStoresFrame : LoadsAndStoresFrame := by
  refine ⟨fun q hq s u v t d a off m pl cap bs hp hc hl h => ?_, fun q hq s u v w t d a off m pl cap hp hm hrel hroom hc hctrl hread h => ?_⟩
  · obtain ⟨hv, ht, regs, m', hregs, hme⟩ := loadsFrame hq hp hc hl h
    obtain ⟨hcaches, hsb, hslots, hbytes⟩ := access_frame hv ht
    obtain ⟨hpreds, honly, hpc⟩ := completed_frame hme
    refine ⟨fun r hr => ?_, hpreds, honly, hcaches, hpc, hsb, hslots, hbytes⟩
    rw [hme, ← hregs r (by simpa using hr)]
    rfl
  · obtain rfl : s.issue = v := by
      rw [releaseAt_plain hm] at hrel
      cases hrel
      rfl
    have hexec := (stores q hq s s.issue d a off m hp).2.2 u w pl cap hrel hroom hc (fun hx => hctrl hx.1) hread
    obtain rfl := Host.Outcome.next.inj (hexec.symm.trans h)
    have hw : Touched s.myWorld s.issue w := ((checkAccess_does s.who _ _ _ _).ok hc).trans
      (readForStore_touched (checkAccess_gives _ _ _ _ _ _ _ _ hc) hread)
    have hwcur : w.cur = s.cur := by rw [hw.cur_eq, s.issue_cur]
    have hs := Local.issue s
    have hx : ∃ x, x = w.modCore s.cur.core fun k => { k with sb := k.sb ++ [Claims.entryOf s w pl (natToLe q.2 (s.src d).toNat)] } := ⟨_, rfl⟩
    obtain ⟨x, hx⟩ := hx
    have hxcur : x.cur = s.cur := by rw [hx, State.modCore_cur, hwcur]
    have hxslot (c n : Nat) : x.slot c n = w.slot c n := hx ▸ modCore_sb_slot w s.cur.core c n (· ++ [_])
    have hxme : x.me = w.me := by rw [State.me, hxslot, hxcur, ← hwcur, State.me]
    have hwx : CachesOnly w x := hx ▸ cachesOnly_modCore_sb w s.cur.core (· ++ [_])
    have hxmem : x.mem = w.mem := by rw [hx]; rfl
    have ht := (Local.chargeOnce x cap).trans (Local.finish _)
    obtain ⟨m', l, hme⟩ := chargeOnce_me x cap
    have htme : (x.chargeOnce cap).finish.me = s.issue.me.completed x.me.s m' s.behind :=
      finish_of_me (by rw [(Local.chargeOnce x cap).cur_eq, hxcur]) (hxme.trans hw.me_eq) hme
    rw [← hx]
    clear h hexec hctrl hroom
    obtain ⟨hpreds, honly, hpc⟩ := completed_frame htme
    obtain ⟨-, hwsb, hwslots, hwbytes⟩ := access_frame hw (Local.refl w)
    refine ⟨fun r _ => ?_, hpreds, honly, ?_, hpc, fun c hc => ?_, ⟨Claims.entryOf s w pl (natToLe q.2 (s.src d).toNat), ?_, rfl, rfl⟩, fun c n hn =>
      ?_, fun loc => ?_⟩
    · rw [htme, ← s.issue_reg, ← hw.me_eq, ← hxme]
      rfl
    · exact cachesOnly_trans (cachesOnly_trans (cachesOnly_trans hs.cachesOnly hw.cachesOnly) hwx) ht.cachesOnly
    · rw [ht.sb_eq, hx, State.modCore_core_of_ne _ _ (Ne.symm hc), hwsb]
    · rw [ht.sb_eq, hx, State.modCore_core, hwsb]
    · rw [ht.slot c n (by rwa [hxcur]), hxslot, hwslots c n hn]
    · rw [State.byte_of_mem ht.mem_eq, State.byte_of_mem hxmem]
      exact hwbytes loc

/-- Settles O60. -/
theorem frames : Obligations.Frames := ⟨registerOnlyFrame, loadsAndStoresFrame⟩

end Sys2Proof.Machine
end

section
/-! What every step keeps of the whole machine: the canonical form of memory (log 4) and the locked firewall matrix (R47). Here the rules of
this reasoning: one for each operation of the state, and one for each way to compose computations. -/

-- One declaration after another: checked side by side, these take more threads than the memory of the check holds.
set_option Elab.async false

namespace Sys2Proof.Machine

/-- The firewall's matrices and their lock (R47), with what says whether the power is on and boot has run. -/
structure Matrices where
  read : BitVec 256
  write : BitVec 256
  lock : Bool
  power : Bool
  booted : Bool

def State.matrices (s : State) : Matrices := ⟨s.firewallR, s.firewallW, s.firewallLock, s.power, s.booted⟩

/-- Memory is canonical, where `P` asks for it, and the firewall's matrices are those given. -/
structure Intact (P : Prop) (fw : Matrices) (s : State) : Prop where
  memory : P → s.MemoryWf
  firewall : s.matrices = fw

/-- A computation from a sound state leaves one, whether it traps or not. -/
structure Keeps {α : Type} (P : Prop) (fw : Matrices) (m : M α) : Prop where
  after : ∀ s, Intact P fw s → Intact P fw (left (m s))

section
variable {P : Prop} {fw : Matrices} {s t : State} {α β : Type}

namespace Intact

/-- Operations that touch neither memory nor the firewall. -/
theorem of_eq (h : Intact P fw s) (hm : t.mem = s.mem) (hf : t.matrices = s.matrices) : Intact P fw t :=
  ⟨fun hP => by rw [State.MemoryWf, hm]; exact h.memory hP, hf.trans h.firewall⟩

/-- A record update of other fields, or operations that unfold to one. -/
theorem update (h : Intact P fw s) (hm : t.mem = s.mem := by rfl) (hf : t.matrices = s.matrices := by rfl) : Intact P fw t := h.of_eq hm hf

/-- Operations on memory that keep its form. -/
theorem of_memory (h : Intact P fw s) (hm : s.MemoryWf → t.MemoryWf) (hf : t.matrices = s.matrices) : Intact P fw t :=
  ⟨fun hP => hm (h.memory hP), hf.trans h.firewall⟩

theorem ite {c : Prop} [Decidable c] (hs : Intact P fw s) (ht : Intact P fw t) : Intact P fw (if c then s else t) := by
  split
  · exact hs
  · exact ht

theorem of_fst {p : State × α} {a : α} (h : Intact P fw p.1) (e : p = (t, a)) : Intact P fw t := by rwa [e] at h

theorem of_snd {p : α × State} {a : α} (h : Intact P fw p.2) (e : p = (a, t)) : Intact P fw t := by rwa [e] at h

theorem foldl {f : State → α → State} {l : List α} (hf : ∀ a t, Intact P fw t → Intact P fw (f t a)) (h : Intact P fw s) :
    Intact P fw (l.foldl f s) := by
  induction l generalizing s with
  | nil => exact h
  | cons a l ih => exact ih (hf a s h)

theorem setCore (h : Intact P fw s) (c : Nat) (v : Core) : Intact P fw (s.setCore c v) := h.of_eq rfl rfl
theorem modCore (h : Intact P fw s) (c : Nat) (f : Core → Core) : Intact P fw (s.modCore c f) := h.of_eq rfl rfl
theorem modMyCore (h : Intact P fw s) (f : Core → Core) : Intact P fw (s.modMyCore f) := h.of_eq rfl rfl
theorem setSlot (h : Intact P fw s) (c n : Nat) (v : Slot) : Intact P fw (s.setSlot c n v) := h.of_eq rfl rfl
theorem modSlot (h : Intact P fw s) (c n : Nat) (f : Slot → Slot) : Intact P fw (s.modSlot c n f) := h.of_eq rfl rfl
theorem setMe (h : Intact P fw s) (v : Slot) : Intact P fw (s.setMe v) := h.of_eq rfl rfl
theorem modMe (h : Intact P fw s) (f : Slot → Slot) : Intact P fw (s.modMe f) := h.of_eq rfl rfl
theorem setWorld (h : Intact P fw s) (w : Nat) (v : World) : Intact P fw (s.setWorld w v) := h.of_eq rfl rfl
theorem modWorld (h : Intact P fw s) (w : Nat) (f : World → World) : Intact P fw (s.modWorld w f) := h.of_eq rfl rfl
theorem setFn (h : Intact P fw s) (n : Nat) (v : Func) : Intact P fw (s.setFn n v) := h.of_eq rfl rfl
theorem modFn (h : Intact P fw s) (n : Nat) (f : Func → Func) : Intact P fw (s.modFn n f) := h.of_eq rfl rfl
theorem modPort (h : Intact P fw s) (n : Nat) (f : Port → Port) : Intact P fw (s.modPort n f) := h.of_eq rfl rfl
theorem setPrincipal (h : Intact P fw s) (n : Nat) (v : Principal) : Intact P fw (s.setPrincipal n v) := h.of_eq rfl rfl
theorem setChain (h : Intact P fw s) (n : Nat) (v : Chain) : Intact P fw (s.setChain n v) := h.of_eq rfl rfl
theorem setBank (h : Intact P fw s) (l : Nat) (v : Bank) : Intact P fw (s.setBank l v) := h.of_eq rfl rfl
theorem setFull (h : Intact P fw s) (l : Nat) (b : Bool) : Intact P fw (s.setFull l b) := h.of_eq rfl rfl

theorem setByte (h : Intact P fw s) (loc : Nat) (b : Byte) : Intact P fw (s.setByte loc b) := h.of_memory (State.setByte_memoryWf · loc b) rfl

theorem setBytes (h : Intact P fw s) (loc : Nat) (bs : List Byte) : Intact P fw (s.setBytes loc bs) := by
  induction bs generalizing s loc with
  | nil => exact h
  | cons b bs ih => exact ih (h.setByte loc b) (loc + 1)

theorem setCells (h : Intact P fw s) (cells : List Host.Cell) : Intact P fw (s.setCells cells) := by
  induction cells generalizing s with
  | nil => exact h
  | cons c cells ih => exact ih (h.setByte c.1 c.2)

theorem setWord64 (h : Intact P fw s) (loc : Nat) (v : W64) : Intact P fw (s.setWord64 loc v) := h.setBytes loc _

theorem filterMem (h : Intact P fw s) (f : Nat × Byte → Bool) (hm : t.mem = s.mem.filter f) (hf : t.matrices = s.matrices) : Intact P fw t :=
  h.of_memory (fun hw => by rw [State.MemoryWf, hm]; exact Sparse.wf_filter f hw) hf

theorem of_touched {w : Nat} (h : Intact P fw s) (ht : Touched w s t) : Intact P fw t :=
  h.of_memory ht.memory (by rw [ht.device]; rfl)

end Intact

namespace Keeps

variable {m : M α} {f : α → M β}

theorem ok {a : α} (h : Keeps P fw m) (hs : Intact P fw s) (hm : m s = .ok a t) : Intact P fw t := by
  have := h.after s hs
  rwa [hm] at this

theorem error {e : Stop} (h : Keeps P fw m) (hs : Intact P fw s) (hm : m s = .error e t) : Intact P fw t := by
  have := h.after s hs
  rwa [hm] at this

theorem leaves {r : EStateM.Result Stop State α} (h : Keeps P fw m) (hs : Intact P fw s) (hm : m s = r) : Intact P fw (left r) :=
  hm ▸ h.after s hs

theorem pure (a : α) : Keeps P fw (Pure.pure a : M α) := ⟨fun _ h => h⟩
theorem get : Keeps P fw (MonadState.get : M State) := ⟨fun _ h => h⟩
theorem throw (e : Stop) : Keeps P fw (MonadExcept.throw e : M α) := ⟨fun _ h => h⟩
theorem trapAt (c : Byte) (v tc tf : W64) : Keeps P fw (trapAt c v tc tf : M α) := ⟨fun _ h => h⟩
theorem trapXlate (n : Nat) (v tc : W64) : Keeps P fw (trapXlate n v tc : M α) := ⟨fun _ h => h⟩
theorem trapPriv : Keeps P fw (trapPriv : M α) := ⟨fun _ h => h⟩
theorem block (b : Bool) : Keeps P fw (block b : M α) := ⟨fun _ h => h⟩
theorem getMe : Keeps P fw getMe := ⟨fun _ h => h⟩
theorem getCore : Keeps P fw getCore := ⟨fun _ h => h⟩
theorem whoMe : Keeps P fw whoMe := ⟨fun _ h => h⟩
theorem modify {f : State → State} (h : ∀ s, Intact P fw s → Intact P fw (f s)) : Keeps P fw (modify f : M PUnit) := ⟨h⟩
theorem modMe (f : Slot → Slot) : Keeps P fw (modMe f) := ⟨fun _ h => h.modMe f⟩
theorem modCore (f : Core → Core) : Keeps P fw (modCore f) := ⟨fun _ h => h.modMyCore f⟩

theorem set (h : Intact P fw t) : Keeps P fw (set t : M PUnit) := ⟨fun _ _ => h⟩

theorem bind (hm : Keeps P fw m) (hf : ∀ a, Keeps P fw (f a)) : Keeps P fw (m >>= f) := by
  refine ⟨fun s hs => ?_⟩
  rw [M.bind_apply]
  cases h : m s with
  | ok a t => exact (hf a).after t (hm.ok hs h)
  | error e t => exact hm.error hs h

/-- Behind a trap nothing is done. -/
theorem trapThen (c : Byte) (v tc tf : W64) (f : α → M β) : Keeps P fw ((Machine.trapAt c v tc tf : M α) >>= f) := ⟨fun _ h => h⟩

theorem getThen {f : State → M β} (hf : ∀ s, Intact P fw s → Keeps P fw (f s)) : Keeps P fw (MonadState.get >>= f) :=
  ⟨fun s hs => (hf s hs).after s hs⟩

theorem setThen {f : PUnit → M β} (ht : Intact P fw t) (hf : Keeps P fw (f ⟨⟩)) : Keeps P fw (MonadStateOf.set t >>= f) :=
  ⟨fun _ _ => hf.after t ht⟩

theorem ite {c : Prop} [Decidable c] {m n : M α} (hm : Keeps P fw m) (hn : Keeps P fw n) : Keeps P fw (if c then m else n) := by
  split
  · exact hm
  · exact hn

/-- A conditional act, then the rest. -/
theorem when {c : Prop} [Decidable c] {x : M Unit} {r : Unit → M β} (hx : Keeps P fw x) (hr : Keeps P fw (r ())) :
    Keeps P fw (if c then x >>= r else r ()) := ite (bind hx fun _ => hr) hr

/-- A conditional pair of acts, then the rest. -/
theorem when2 {c : Prop} [Decidable c] {x : M α} {y : α → M Unit} {r : Unit → M β} (hx : Keeps P fw x) (hy : ∀ a, Keeps P fw (y a))
    (hr : Keeps P fw (r ())) : Keeps P fw (if c then x >>= fun a => y a >>= r else r ()) :=
  ite (bind hx fun a => bind (hy a) fun _ => hr) hr

theorem foldlM {g : β → α → M β} (hg : ∀ a b, Keeps P fw (g b a)) (l : List α) (b : β) : Keeps P fw (l.foldlM g b) := by
  induction l generalizing b with
  | nil => exact pure b
  | cons a l ih => exact bind (hg a b) fun b => ih b

theorem forM {g : α → M PUnit} (hg : ∀ a, Keeps P fw (g a)) (l : List α) : Keeps P fw (l.forM g) := by
  induction l with
  | nil => exact pure _
  | cons a l ih => exact bind (hg a) fun _ => ih

theorem forMOption {g : α → M PUnit} (hg : ∀ a, Keeps P fw (g a)) (o : Option α) : Keeps P fw (o.forM g) := by
  cases o with
  | none => exact pure _
  | some a => exact hg a

theorem mapM {g : α → M β} (hg : ∀ a, Keeps P fw (g a)) (l : List α) : Keeps P fw (l.mapM g) := by
  induction l with
  | nil => exact pure _
  | cons a l ih =>
    rw [List.mapM_cons]
    exact bind (hg a) fun b => bind ih fun bs => pure _

theorem of_touched {w : Nat} (h : Does (Touched w) m) : Keeps P fw m := ⟨fun s hs => hs.of_touched (h s)⟩

theorem require (b : Bool) : Keeps P fw (require b) := ite (pure _) (throw _)

end Keeps

end

end Sys2Proof.Machine
end

section
/-! Intact: the operations of the state, and what an access does. -/

-- One declaration after another: checked side by side, these take more threads than the memory of the check holds.
set_option Elab.async false

namespace Sys2Proof.Machine

section
variable {P : Prop} {fw : Matrices}

theorem Intact.setPort {s : State} (h : Intact P fw s) (p : Nat) (v : Port) : Intact P fw (s.setPort p v) := by
  unfold State.setPort
  exact h.update

theorem Keeps.tally (source n : Nat) : Keeps P fw (tally source n) := by
  unfold Machine.tally
  exact modify fun _ hs => hs.modMyCore ..

theorem Intact.chargeSlot {s : State} (h : Intact P fw s) (c n pips : Nat) : Intact P fw (s.chargeSlot c n pips) := by
  unfold State.chargeSlot
  exact h.modCore ..

theorem Keeps.charge (pips : Nat) : Keeps P fw (charge pips) := by
  unfold Machine.charge
  exact modify fun _ hs => hs.chargeSlot ..

theorem Intact.withdraw {s : State} (h : Intact P fw s) (core slot : Nat) : Intact P fw (s.withdraw core slot) := by
  unfold State.withdraw
  exact h.update.modCore ..

theorem Intact.refreshBindings {s : State} (h : Intact P fw s) : Intact P fw (s.refreshBindings) := by
  unfold State.refreshBindings
  exact h.update

theorem Intact.stopWorld {s : State} (h : Intact P fw s) (w : Nat) (cause : Byte) (keep : Option (Nat × Nat)) :
    Intact P fw (s.stopWorld w cause keep) := by
  unfold State.stopWorld
  exact (Intact.ite (h.update.modWorld ..) ((h.update.modWorld ..).modFn ..)).refreshBindings

theorem Intact.tdiFails {s : State} (h : Intact P fw s) (f : Nat) : Intact P fw (s.tdiFails f) := by
  unfold State.tdiFails
  exact .ite h (h.modFn ..)

theorem Intact.stopCarried {s : State} (h : Intact P fw s) (fn : Nat) (cause : Byte) : Intact P fw (s.stopCarried fn cause) := by
  unfold State.stopCarried
  exact .ite h.refreshBindings (h.stopWorld ..)

theorem Intact.tdiError {s : State} (h : Intact P fw s) (fn : Nat) (cause : Byte) : Intact P fw (s.tdiError fn cause) := by
  unfold State.tdiError
  exact .ite ((h.tdiFails ..).stopCarried ..) h

theorem Intact.endInstr {s : State} (h : Intact P fw s) (core slot : Nat) : Intact P fw (s.endInstr core slot) := by
  unfold State.endInstr
  exact h.modCore ..

theorem Intact.takeTrap {s0 : State} (h : Intact P fw s0) (t : TrapInfo) : Intact P fw (takeTrap t s0) := by
  unfold Machine.takeTrap
  exact .ite (.ite (((h.endInstr ..).setMe ..).stopWorld ..) ((h.endInstr ..).setMe ..)) (((h.endInstr ..).setMe ..).modMyCore ..)

theorem Keeps.returnFromTrap (n : Nat) : Keeps P fw (returnFromTrap n) := by
  unfold Machine.returnFromTrap
  exact getThen fun _ hs => ite (ite (bind (modMe ..) fun _ => pure _) <| trapAt ..) <| ite (setThen (hs.setSlot ..) <| pure _) <| trapAt ..

theorem Intact.issue {s : State} (h : Intact P fw s) : Intact P fw (s.issue) := by
  unfold State.issue
  exact .ite h (((h.modMe ..).modMyCore ..).chargeSlot ..)

theorem Intact.settle {r : EStateM.Result Stop State Ctl} (h : Intact P fw (left r)) : Intact P fw (settle r) := by
  unfold Machine.settle
  split
  · next s => exact Intact.modMe (s := s) h _
  · next s => exact Intact.modMe (s := s) h _
  · next s => exact Intact.modMe (s := s) h _
  · next s => exact Intact.modMe (s := s) h _
  · exact h
  · next s => exact Intact.takeTrap (s0 := s) h _
  · next s => exact Intact.modMe (s := s) h _

/-- What an outcome leaves is intact, where it is a state at all. -/
def IntactAfter (P : Prop) (fw : Matrices) (o : Host.Outcome State Fault Refusal) : Prop :=
  ∀ t, o = .next t → Intact P fw t

theorem IntactAfter.next {t : State} (h : Intact P fw t) : IntactAfter P fw (.next t) := by
  rintro _ ⟨⟩
  exact h

theorem Keeps.run {m : M Ctl} (hm : Keeps P fw m) {s : State} (h : Intact P fw s) : IntactAfter P fw (run m s) :=
  .next (hm.after _ h.issue).settle

theorem Keeps.runChargedAfter {m : M Ctl} (hm : Keeps P fw m) {s : State} (h : Intact P fw s) : IntactAfter P fw (runChargedAfter m s) := by
  refine .next (.settle ?_)
  split
  · next hr => exact (hm.ok h hr).issue
  · next hr => exact (hm.error h hr).issue

theorem Keeps.event {m : M Unit} (hm : Keeps P fw m) {s : State} (h : Intact P fw s) : IntactAfter P fw (event m s) := by
  unfold Machine.event
  split
  · next hr => exact .next (hm.ok h hr)
  · exact .next h

theorem Keeps.orFlags (f : Nat) : Keeps P fw (orFlags f) := by
  unfold Machine.orFlags
  exact modMe ..

theorem Intact.mscTouch {s : State} (h : Intact P fw s) (line : Nat) : Intact P fw (s.mscTouch line) := by
  unfold State.mscTouch
  exact h.update

theorem Intact.l2Hit {s : State} (h : Intact P fw s) (cluster line slice : Nat) : Intact P fw (s.l2Hit cluster line slice) := by
  unfold State.l2Hit
  exact h.update

theorem Intact.l2Retire {s : State} (h : Intact P fw s) (cluster line slice : Nat) : Intact P fw (s.l2Retire cluster line slice) := by
  unfold State.l2Retire
  exact .ite (h.update.mscTouch ..) h.update

theorem Intact.l2Fill {s : State} (h : Intact P fw s) (cluster world line slice : Nat) (dirty : Bool) :
    Intact P fw (s.l2Fill cluster world line slice dirty) := by
  have hr := h.l2Retire cluster line slice
  unfold State.l2Fill
  dsimp only
  split
  · exact .ite (hr.mscTouch line) hr
  · split
    · next v _ =>
      split
      · exact (hr.mscTouch v.line).of_eq rfl rfl
      · exact hr.of_eq rfl rfl
    · exact hr.of_eq rfl rfl

theorem Intact.sealLine {s : State} (h : Intact P fw s) (line key : Nat) : Intact P fw (s.sealLine line key) := by
  unfold State.sealLine
  exact h.update

theorem Intact.upset {s : State} (h : Intact P fw s) (line : Nat) : Intact P fw (s.upset line) := by
  unfold State.upset
  exact .ite h h.update

theorem Intact.lineCollide {s : State} (h : Intact P fw s) (world line : Nat) : Intact P fw (s.lineCollide world line) := by
  unfold State.lineCollide
  dsimp only
  split
  · exact h
  · have hb := h.setBytes (line * 64) ((List.range 64).map fun i => Config.collidedByte s.freeCtr (line * 64 + i))
    generalize s.setBytes _ _ = t at hb ⊢
    exact hb.of_eq rfl rfl

theorem Intact.lineAccess {s : State} (h : Intact P fw s) (w : Who) (line : Nat) (pin : Option Nat) :
    Intact P fw (s.lineAccess w line pin).1 := by
  unfold State.lineAccess
  have hmiss (f : Core → Core) : Intact P fw ((s.mscTouch line).modCore w.core f) := (h.mscTouch line).modCore ..
  dsimp only
  split
  · dsimp only
    exact (h.l2Hit ..).modCore ..
  split
  · exact h
  split
  · exact ((hmiss _).lineCollide ..).l2Fill ..
  · dsimp only
    exact hmiss _

theorem Keeps.lineInAt (w : Who) (line : Nat) (pin : Option Nat) (at_ : Byte → W64) : Keeps P fw (lineInAt w line pin at_) := by
  unfold Machine.lineInAt
  refine getThen fun _ hs => ?_
  split
  · next e => exact set ((hs.lineAccess ..).of_fst e)
  · next e => exact setThen ((hs.lineAccess ..).of_fst e) (trapAt ..)

theorem Keeps.lineIn (w : Who) (line : Nat) (pin : Option Nat) (ea : W64) : Keeps P fw (lineIn w line pin ea) := lineInAt ..

theorem Keeps.readPte (w : Who) (wpa va : Nat) (ea : W64) : Keeps P fw (readPte w wpa va ea) := of_touched (readPte_does w wpa va ea)

theorem Keeps.translate (w : Who) (va : Nat) (ea : W64) : Keeps P fw (translate w va ea) := of_touched (translate_does w va ea)



theorem Keeps.placeOfVa (w : Who) (va : Nat) (k : Kind) (ea : W64) : Keeps P fw (placeOfVa w va k ea) := by
  unfold Machine.placeOfVa
  refine bind (translate ..) fun _ => ite ?_ <| trapXlate ..
  refine getThen fun _ _ => ?_
  split
  · exact trapXlate ..
  · exact pure _

theorem Keeps.resolveSeq (w : Who) (ea : W64) : Keeps P fw (resolveSeq w ea) := by
  unfold Machine.resolveSeq
  exact getThen fun _ _ => when (trapAt ..) <| when (trapAt ..) <| when (trapXlate ..) <| when (trapXlate ..) <| pure _

theorem Keeps.locate (w : Who) (ea : W64) (k : Kind) : Keeps P fw (locate w ea k) := by
  unfold Machine.locate
  refine getThen fun _ _ => ?_
  split
  · exact when (trapXlate ..) <| placeOfVa ..
  · exact bind (resolveSeq ..) fun _ => placeOfVa ..
  · split
    · exact when (trapXlate ..) <| when trapPriv <| pure _
    · exact when (trapXlate ..) <| pure _
    · exact when (trapXlate ..) <| pure _
    · exact when (trapXlate ..) <| pure _
    · exact trapXlate ..
  · exact trapXlate ..

theorem Keeps.ruleGrant (w : Who) (ruleset : Nat) (ea : W64) : Keeps P fw (ruleGrant w ruleset ea) := by
  unfold Machine.ruleGrant
  refine getThen fun _ hs => ?_
  dsimp only
  split
  · exact setThen hs.update <| pure _
  · exact bind (modify fun _ ht => ht.modCore ..) fun _ => ite (trapAt ..) <| bind (modify fun _ ht => ht.update) fun _ => pure _

theorem Keeps.authorize (w : Who) (ea : W64) (kinds : List Kind) : Keeps P fw (authorize w ea kinds) := by
  unfold Machine.authorize
  refine getThen fun _ _ => ?_
  split
  · exact trapAt ..
  · exact bind (modify fun _ ht => ht.modCore ..) fun _ => ite (trapAt ..) <| bind (ruleGrant ..) fun _ => ite (trapAt ..) <| pure _

theorem Keeps.firewall (w : Who) (pl : Place) (ea : W64) (kinds : List Kind) : Keeps P fw (firewall w pl ea kinds) := by
  unfold Machine.firewall
  exact getThen fun _ _ => ite (trapAt ..) <| pure _

theorem Keeps.checkAccess (w : Who) (ea : W64) (size : Nat) (trans : Kind) (kinds : List Kind) :
    Keeps P fw (checkAccess w ea size trans kinds) := by
  unfold Machine.checkAccess
  exact when (trapAt ..) <| when (trapAt ..) <| bind (locate ..) fun _ => when trapPriv <| bind (authorize ..) fun _ =>
    bind (firewall ..) fun _ => pure _

theorem Keeps.chargeCap (cap : Cap) : Keeps P fw (chargeCap cap) := by
  unfold Machine.chargeCap
  exact bind getMe fun _ => ite (bind (charge ..) fun _ => modMe ..) <| pure _

theorem Intact.triggerWatches {s : State} (h : Intact P fw s) (uid : Nat) (locs : List Nat) : Intact P fw (s.triggerWatches uid locs) := by
  unfold State.triggerWatches
  exact h.update

theorem Intact.l2Own {s : State} (h : Intact P fw s) (cluster world line slice : Nat) : Intact P fw (s.l2Own cluster world line slice) := by
  unfold State.l2Own
  exact .ite h.update.update (h.update.l2Fill ..)

theorem Intact.performWrite {s : State} (h : Intact P fw s) (core uid world : Nat) (pin : Nat → Option Nat) (cells : List Host.Cell) :
    Intact P fw (s.performWrite core uid world pin cells) := by
  unfold State.performWrite
  exact .ite h ((((Intact.foldl (fun _ _ hs => (hs.l2Own ..).sealLine ..) h).setCells ..).modCore ..).triggerWatches ..)

theorem Intact.landEntry {s : State} (h : Intact P fw s) (core : Nat) (e : SbEntry) : Intact P fw (s.landEntry core e) := by
  unfold State.landEntry
  exact (h.modCore ..).performWrite ..

theorem Intact.performEntry {s : State} (h : Intact P fw s) (core : Nat) (e : SbEntry) : Intact P fw (s.performEntry core e) := by
  unfold State.performEntry
  split
  · exact (h.modCore ..).setBank ..
  · exact h.landEntry ..

theorem Intact.performNext {s : State} (h : Intact P fw s) (core : Nat) (e : SbEntry) : Intact P fw (State.performNext core s e) := by
  unfold State.performNext
  exact .ite h (h.performEntry ..)

theorem Intact.performWord {s : State} (h : Intact P fw s) (core slot loc : Nat) : Intact P fw (s.performWord core slot loc) := by
  unfold State.performWord
  exact .foldl (fun _ _ hs => hs.performNext ..) h

theorem Intact.performSlot {s : State} (h : Intact P fw s) (core slot : Nat) : Intact P fw (s.performSlot core slot) := by
  unfold State.performSlot
  exact .foldl (fun _ _ hs => hs.performNext ..) h

theorem Keeps.releaseAll : Keeps P fw (releaseAll) := by
  unfold Machine.releaseAll
  exact bind (modify fun _ hs => hs.performSlot ..) fun _ => getThen fun _ _ => ite (block ..) <| pure _

theorem Keeps.releaseAt (order : BitVec 2) (scope : BitVec 3) : Keeps P fw (releaseAt order scope) := by
  unfold Machine.releaseAt
  exact ite releaseAll <| pure _

theorem Intact.bankRead {s : State} (h : Intact P fw s) (core loc : Nat) : Intact P fw (s.bankRead core loc) := by
  unfold State.bankRead
  exact .ite (h.modCore ..) h

theorem Keeps.acquireAt (scope : Nat) : Keeps P fw (acquireAt scope) := by
  unfold Machine.acquireAt
  exact ite (modCore ..) <| pure _

theorem Keeps.acquireOf (order : BitVec 2) (scope : BitVec 3) : Keeps P fw (acquireOf order scope) := by
  unfold Machine.acquireOf
  exact ite (acquireAt ..) <| pure _

theorem Keeps.fetchLine (w : Who) (line : Nat) (pl : Place) (na : Bool) (ea : W64) : Keeps P fw (fetchLine w line pl na ea) := by
  unfold Machine.fetchLine
  refine getThen fun _ _ => ?_
  dsimp only
  split
  · exact modify fun _ ht => ht.modCore ..
  · exact bind (modify fun _ ht => ht.modCore ..) fun _ => bind (lineIn ..) fun _ => modify fun _ ht => ht.modCore ..

theorem Keeps.waitSiblings (w : Who) (loc n : Nat) : Keeps P fw (waitSiblings w loc n) := by
  unfold Machine.waitSiblings
  exact getThen fun _ _ => ite (block ..) <| pure _

theorem Keeps.loadPlace (w : Who) (pl : Place) (n : Nat) (m : Mod) (ea : W64) : Keeps P fw (loadPlace w pl n m ea) := by
  unfold Machine.loadPlace
  exact when (waitSiblings ..) <| when (fetchLine ..) <| getThen fun _ _ => pure _

theorem Keeps.storeRoom (w : Who) : Keeps P fw (storeRoom w) := by
  unfold Machine.storeRoom
  exact getThen fun _ _ => ite (block ..) <| pure _

theorem Keeps.storeEntry (w : Who) (ps : List (Place × List Byte)) : Keeps P fw (storeEntry w ps) := by
  unfold Machine.storeEntry
  exact modify fun _ hs => hs.modCore ..

theorem Keeps.checkPiece (w : Who) (a : W64) (esize : Nat) (k : Kind) : Keeps P fw (checkPiece w a esize k) := by
  unfold Machine.checkPiece
  exact when (trapAt ..) <| when (trapAt ..) <| bind (locate ..) fun _ => bind (authorize ..) fun _ => bind (firewall ..) fun _ => pure _

theorem Keeps.readSpan (w : Who) (ea : W64) (n esize : Nat) (m : Mod) : Keeps P fw (readSpan w ea n esize m) := by
  unfold Machine.readSpan
  exact foldlM (fun ⟨_, _⟩ ⟨_, _⟩ => bind (checkPiece ..) fun ⟨_, _⟩ => bind (loadPlace ..) fun _ => pure _) _ _

theorem Keeps.chargeCaps (cs : List Cap) : Keeps P fw (chargeCaps cs) := by
  unfold Machine.chargeCaps
  exact forM (fun _ => chargeCap ..) _

theorem Keeps.readMine (ea : W64) (n esize : Nat) (m : Mod) : Keeps P fw (readMine ea n esize m) := by
  unfold Machine.readMine
  exact bind whoMe fun _ => readSpan ..

theorem Keeps.writePieces (w : Who) (spans : List (W64 × List Byte)) (esize : Nat) : Keeps P fw (writePieces w spans esize) := by
  unfold Machine.writePieces
  exact foldlM (fun ⟨_, _⟩ _ =>
    bind (foldlM (fun ⟨_, _⟩ ⟨_, _⟩ => bind (checkPiece ..) fun ⟨_, _⟩ => pure _) _ _) fun ⟨_, _⟩ => pure _) _ _

theorem Keeps.writeRow (w : Who) (spans : List (W64 × List Byte)) (esize : Nat) : Keeps P fw (writeRow w spans esize) := by
  unfold Machine.writeRow
  exact bind (storeRoom ..) fun _ => bind (writePieces ..) fun _ => bind (forM (fun ⟨_, _, _, _⟩ => ite (lineIn ..) <| pure _) _) fun _ =>
    when (storeEntry ..) <| pure _

theorem Keeps.hwRead64 (loc : Nat) : Keeps P fw (hwRead64 loc) := by
  unfold Machine.hwRead64
  exact getThen fun _ _ => pure _


end

end Sys2Proof.Machine
end

section
/-! Intact: operands, rows, and layouts. -/

-- One declaration after another: checked side by side, these take more threads than the memory of the check holds.
set_option Elab.async false

namespace Sys2Proof.Machine

section
variable {P : Prop} {fw : Matrices}

theorem Keeps.ports (srcs : List Reg) (dst : Option Reg) : Keeps P fw (ports srcs dst) := by
  unfold Machine.ports
  exact getThen fun _ _ => when (trapAt ..) <| when (block ..) <| when (block ..) <| when2 (modCore ..) (fun _ => modMe ..) <| pure _

theorem Keeps.rd (r : Reg) : Keeps P fw (rd r) := by
  unfold Machine.rd
  exact getThen fun _ _ => ite (pure _) <| pure _

theorem Intact.writeReg {s : State} (h : Intact P fw s) (core slot : Nat) (r : Reg) (v : W64) : Intact P fw (s.writeReg core slot r v) := by
  unfold State.writeReg
  exact .ite h (.ite (h.modCore ..) (h.modSlot ..))

theorem Keeps.wr (r : Reg) (v : W64) : Keeps P fw (wr r v) := by
  unfold Machine.wr
  exact modify fun _ hs => hs.writeReg ..

theorem Keeps.withPorts {α : Type} {srcs : List Reg} {dst : Option Reg} {m : Bool → M α} (hm : ∀ q, Keeps P fw (m q)) :
    Keeps P fw (withPorts srcs dst m) := by
  have hb : Keeps P fw (Machine.ports srcs dst >>= m) := bind (ports ..) hm
  refine ⟨fun s hs => ?_⟩
  have h := hb.after s hs
  unfold Machine.withPorts
  change Intact P fw (left (match (Machine.ports srcs dst >>= m) s with | .error (.wait w) t => _ | r => r))
  split
  · next e =>
    rw [e] at h
    exact Intact.ite (Intact.modMe (Intact.modMyCore h _) _) h
  · exact h

theorem Keeps.scalar {srcs : List Reg} {dst : Option Reg} {m : M Unit} (hm : Keeps P fw m) : Keeps P fw (scalar srcs dst m) := by
  unfold Machine.scalar
  exact withPorts fun _ => bind hm fun _ => pure _

theorem Keeps.waiting {srcs : List Reg} {dst : Option Reg} {m : M Unit} (hm : Keeps P fw m) : Keeps P fw (waiting srcs dst m) := by
  unfold Machine.waiting
  exact withPorts fun _ => bind hm fun _ => pure _

theorem Keeps.resumeRow (key : Nat) : Keeps P fw (resumeRow key) := by
  unfold Machine.resumeRow
  exact bind getMe fun _ => ite (pure _) <| pure _

theorem Keeps.clearPend : Keeps P fw (clearPend) := by
  unfold Machine.clearPend
  exact modMe ..

theorem Keeps.setRestart (key row : Nat) : Keeps P fw (setRestart key row) := by
  unfold Machine.setRestart
  exact modMe ..

theorem Keeps.guardRow {α : Type} {key row : Nat} {m : M α} (hm : Keeps P fw m) : Keeps P fw (guardRow key row m) := by
  refine ⟨fun s hs => ?_⟩
  have h := hm.after s hs
  unfold Machine.guardRow
  split
  · next e =>
    rw [e] at h
    dsimp only [left] at h ⊢
    exact h.modMe _
  · exact h

theorem Keeps.rowLoop {key : Nat} {rows : List Nat} {budget : Option Nat} {body : Nat → M (Option TrapInfo)}
    (hbody : ∀ i, Keeps P fw (body i)) : Keeps P fw (rowLoop key rows budget body) := by
  induction rows generalizing budget with
  | nil => exact pure _
  | cons r rest ih =>
    unfold Machine.rowLoop
    refine bind getMe fun _ => when2 (setRestart ..) (fun _ => throw _) <| bind (guardRow (hbody r)) fun _ => ?_
    split
    · exact bind (setRestart ..) fun _ => throw _
    · exact ih

theorem Keeps.forRows {key start stop : Nat} {body : Nat → M (Option TrapInfo)} (hbody : ∀ i, Keeps P fw (body i)) :
    Keeps P fw (forRows key start stop body) := by
  unfold Machine.forRows
  exact bind clearPend fun _ => getThen fun _ _ => rowLoop (fun _ => hbody _)

theorem Keeps.atRow {α : Type} {fmt : W64} {row : Nat} {m : M α} (hm : Keeps P fw m) : Keeps P fw (atRow fmt row m) := by
  refine ⟨fun s hs => ?_⟩
  have h := hm.after s hs
  unfold Machine.atRow
  split
  · next e =>
    rw [e] at h
    exact h
  · exact h

theorem Keeps.workOnly : Keeps P fw (workOnly) := by
  unfold Machine.workOnly
  exact getThen fun _ _ => ite trapPriv <| pure _

theorem Keeps.supOnly : Keeps P fw (supOnly) := by
  unfold Machine.supOnly
  exact getThen fun _ _ => ite trapPriv <| pure _

theorem Keeps.getTile (t : Num3) : Keeps P fw (getTile t) := by
  unfold Machine.getTile
  exact bind getMe fun _ => pure _

theorem Keeps.setTile (t : Num3) (v : Tile) : Keeps P fw (setTile t v) := by
  unfold Machine.setTile
  exact modMe ..

theorem Keeps.shapeTrap {α : Type} (v fmt : W64) : Keeps P fw (shapeTrap v fmt : M α) := by
  unfold Machine.shapeTrap
  exact trapAt ..

theorem Keeps.checkSrc (v : W64) (types : List Nat) (fmt : W64) : Keeps P fw (checkSrc v types fmt) := by
  unfold Machine.checkSrc
  exact ite (shapeTrap ..) <| pure _

theorem Keeps.agree (ok : Bool) (v fmt : W64) : Keeps P fw (agree ok v fmt) := by
  unfold Machine.agree
  exact ite (shapeTrap ..) <| pure _

theorem Keeps.checkDst (d : Num3) (res : W64) (srcs : List (Num3 × W64)) (fmt : W64) : Keeps P fw (checkDst d res srcs fmt) := by
  unfold Machine.checkDst
  exact when (shapeTrap ..) <| ite (shapeTrap ..) <| pure _

theorem Keeps.beginResult (d : Num3) (res : W64) : Keeps P fw (beginResult d res) := by
  unfold Machine.beginResult
  exact modMe ..

theorem Keeps.beginResultKeep (d : Num3) (res : W64) : Keeps P fw (beginResultKeep d res) := by
  unfold Machine.beginResultKeep
  exact modMe ..

theorem Keeps.commitRow (d : Num3) (r : Nat) (els : List FR) (computes : Bool) (fmt : W64) :
    Keeps P fw (commitRow d r els computes fmt) := by
  unfold Machine.commitRow
  exact bind getMe fun _ => bind (setTile ..) fun _ => bind (orFlags ..) fun _ => bind (tally ..) fun _ => pure _

theorem Keeps.tileRows {key : Nat} {d : Num3} {check : M W64} {begin_ : W64 → M Unit} {body : Nat → M (Option TrapInfo)} (hcheck :
    Keeps P fw check) (hbegin_ : ∀ i, Keeps P fw (begin_ i)) (hbody : ∀ i, Keeps P fw (body i)) :
      Keeps P fw (tileRows key d check begin_ body) := by
  unfold Machine.tileRows
  refine bind (resumeRow ..) fun _ => ?_
  split
  · exact bind getMe fun _ => bind (forRows (fun _ => hbody _)) fun _ => pure _
  · exact bind hcheck fun _ => bind (hbegin_ _) fun _ => bind (forRows (fun _ => hbody _)) fun _ => pure _

theorem Keeps.validCols (d : Num3) : Keeps P fw (validCols d) := by
  unfold Machine.validCols
  exact bind getMe fun _ => pure _

theorem Keeps.readLayoutAs (w : Who) (handle : W64) (m : Mod) : Keeps P fw (readLayoutAs w handle m) := by
  unfold Machine.readLayoutAs
  exact when (trapAt ..) <| bind (readSpan ..) fun ⟨_, _⟩ => when (trapAt ..) <| pure _

theorem Keeps.readLayout (handle : W64) (m : Mod) : Keeps P fw (readLayout handle m) := by
  unfold Machine.readLayout
  exact bind whoMe fun _ => readLayoutAs ..

theorem Keeps.readScale (w : Who) (l : Layout) (scl : W64) (row : Nat) (m : Mod) : Keeps P fw (readScale w l scl row m) := by
  unfold Machine.readScale
  exact bind (readSpan ..) fun ⟨_, _⟩ => pure _

theorem Keeps.checkTensor (w : Who) (l : Layout) (a : W64) (n : Nat) : Keeps P fw (checkTensor w l a n) := by
  unfold Machine.checkTensor
  refine getThen fun _ _ => ?_
  split
  · exact trapAt ..
  · exact pure _

theorem Keeps.readBlock (w : Who) (l : Layout) (start : W64) (m : Mod) (fuel : Nat) (acc : List Byte) (cs : List Cap) :
    Keeps P fw (readBlock w l start m fuel acc cs) := by
  induction fuel generalizing acc cs with
  | zero =>
    unfold Machine.readBlock
    split
    · exact pure _
    · exact trapAt ..
    · exact trapAt ..
  | succ f ih =>
    unfold Machine.readBlock
    split
    · exact pure _
    · exact trapAt ..
    · exact bind (checkTensor ..) fun _ => bind (readSpan ..) fun ⟨_, _⟩ => ih ..

theorem Keeps.blockAt (w : Who) (l : Layout) (start : W64) (m : Mod) : Keeps P fw (blockAt w l start m) := by
  unfold Machine.blockAt
  exact bind (readBlock ..) fun _ => bind (modify fun _ hs => hs.modCore ..) fun _ => pure _

theorem Keeps.groupStart (w : Who) (l : Layout) (e : Nat) (m : Mod) : Keeps P fw (groupStart w l e m) := by
  unfold Machine.groupStart
  exact bind (readSpan ..) fun ⟨_, _⟩ => when (trapAt ..) <| bind (checkTensor ..) fun _ => pure _

theorem Keeps.walkBlocks (w : Who) (l : Layout) (start : W64) (m : Mod) (n : Nat) (cs : List Cap) :
    Keeps P fw (walkBlocks w l start m n cs) := by
  induction n generalizing start cs with
  | zero => exact pure _
  | succ n ih => exact bind (blockAt ..) fun ⟨⟨_, _⟩, _⟩ => ih ..

theorem Keeps.blockStart (w : Who) (l : Layout) (q : Nat) (m : Mod) : Keeps P fw (blockStart w l q m) := by
  unfold Machine.blockStart
  exact bind (groupStart ..) fun ⟨_, _⟩ => walkBlocks ..

theorem Keeps.readCx8 (w : Who) (l : Layout) (q : Nat) (m : Mod) : Keeps P fw (readCx8 w l q m) := by
  unfold Machine.readCx8
  exact bind (blockStart ..) fun ⟨_, _⟩ => bind (blockAt ..) fun ⟨_, _⟩ => pure _

theorem Keeps.readElems (w : Who) (l : Layout) (i j n : Nat) (m : Mod) : Keeps P fw (readElems w l i j n m) := by
  unfold Machine.readElems
  exact bind (readSpan ..) fun ⟨_, _⟩ => pure _

theorem Keeps.readColumn (w : Who) (l : Layout) (i j n : Nat) (m : Mod) : Keeps P fw (readColumn w l i j n m) := by
  unfold Machine.readColumn
  exact foldlM (fun _ ⟨_, _⟩ => bind (readElems ..) fun ⟨_, _⟩ => pure _) _ _


end

end Sys2Proof.Machine
end

section
/-! Intact: banks, chains, and the slots' work. -/

-- One declaration after another: checked side by side, these take more threads than the memory of the check holds.
set_option Elab.async false

namespace Sys2Proof.Machine

section
variable {P : Prop} {fw : Matrices}

theorem Intact.wakeCtx {s : State} (h : Intact P fw s) (x : Waiter) : Intact P fw (s.wakeCtx x) := by
  unfold State.wakeCtx
  exact h.modCore ..

theorem Intact.wakeOn {s : State} (h : Intact P fw s) (world va n : Nat) : Intact P fw (s.wakeOn world va n) := by
  unfold State.wakeOn
  exact .foldl (fun _ _ hs => hs.wakeCtx ..) h.update

theorem Intact.unwait {s : State} (h : Intact P fw s) (uid : Nat) : Intact P fw (s.unwait uid) := by
  unfold State.unwait
  exact h.update

theorem Intact.performDeferred {s : State} (h : Intact P fw s) (loc : Nat) (d : Deferred) :
    Intact P fw (State.performDeferred loc s d) := by
  unfold State.performDeferred
  split
  · exact h.setBank ..
  · exact h.landEntry ..

theorem Intact.releaseWord {s : State} (h : Intact P fw s) (loc : Nat) : Intact P fw (s.releaseWord loc) := by
  unfold State.releaseWord
  refine .foldl (fun _ _ hs => hs.performDeferred ..) ?_
  split
  · exact (h.setBank ..).modSlot ..
  · exact h.setBank ..

theorem Intact.revokeWord {s : State} (h : Intact P fw s) (loc : Nat) : Intact P fw (s.revokeWord loc) := by
  unfold State.revokeWord
  split
  · exact (h.releaseWord ..).modCore ..
  · exact h

theorem Intact.lapse {s : State} (h : Intact P fw s) (loc : Nat) : Intact P fw (s.lapse loc) := by
  unfold State.lapse
  exact .ite (h.revokeWord ..) h

theorem Intact.revokeAll {s : State} (h : Intact P fw s) (uid : Nat) : Intact P fw (s.revokeAll uid) := by
  unfold State.revokeAll
  exact .foldl (fun _ _ hs => hs.revokeWord ..) h

theorem Intact.turnWrite {s : State} (h : Intact P fw s) (loc : Nat) (r : TurnReq) (v : W64) : Intact P fw (s.turnWrite loc r v) := by
  unfold State.turnWrite
  exact h.performWrite ..

theorem Intact.joinDown {s : State} (h : Intact P fw s) (loc : Nat) (r : TurnReq) : Intact P fw (s.joinDown loc r) := by
  unfold State.joinDown
  exact .ite ((h.turnWrite ..).wakeOn ..) (h.turnWrite ..)

theorem Intact.grantAcquire {s : State} (h : Intact P fw s) (r : TurnReq) : Intact P fw (s.grantAcquire r) := by
  unfold State.grantAcquire
  exact .ite (h.modCore ..) h

theorem Intact.turnServe {s0 : State} (h : Intact P fw s0) (loc : Nat) (r : TurnReq) : Intact P fw (s0.turnServe loc r) := by
  unfold State.turnServe
  dsimp only
  split
  · exact (((((Intact.ite h (h.bankRead ..)).grantAcquire ..).writeReg ..).setBank ..).modSlot ..).chargeSlot ..
  · exact (((((Intact.ite h (h.bankRead ..)).grantAcquire ..).turnWrite ..).writeReg ..).chargeSlot ..).releaseWord ..
  · exact (((Intact.ite h (h.bankRead ..)).turnWrite ..).chargeSlot ..).releaseWord ..
  · exact ((Intact.ite h (h.bankRead ..)).joinDown ..).releaseWord ..
  · exact ((Intact.ite h (h.bankRead ..)).joinDown ..).releaseWord ..

theorem Intact.enqueueTurn {s : State} (h : Intact P fw s) (loc : Nat) (r : TurnReq) : Intact P fw (s.enqueueTurn loc r) := by
  unfold State.enqueueTurn
  exact h.setBank ..

theorem Keeps.askTurn (loc : Nat) (r : TurnReq) : Keeps P fw (askTurn loc r) := by
  unfold Machine.askTurn
  exact bind (modify fun _ hs => hs.lapse ..) fun _ => getThen fun _ hs => ite (set (hs.turnServe ..)) <| setThen (hs.enqueueTurn ..) <|
    throw _

theorem Keeps.reservationTimeout (loc : Nat) : Keeps P fw (reservationTimeout loc) := by
  unfold Machine.reservationTimeout
  exact getThen fun _ hs => bind (require ..) fun _ => set (hs.lapse ..)

theorem Keeps.syncPlace (w : Who) (ea : W64) (kind : Kind) : Keeps P fw (syncPlace w ea kind) := by
  unfold Machine.syncPlace
  exact when (trapAt ..) <| when (trapXlate ..) <| bind (locate ..) fun _ => bind (authorize ..) fun _ => bind (firewall ..) fun _ =>
    when (lineIn ..) <| pure _

theorem Keeps.turnReq (kind : TurnKind) (d : Reg) (value swap : W64) (m : Mod) (pl : Place) (pips : Nat) :
    Keeps P fw (turnReq kind d value swap m pl pips) := by
  unfold Machine.turnReq
  exact getThen fun _ _ => pure _

theorem Intact.freeChain {s : State} (h : Intact P fw s) (fuel cix : Nat) : Intact P fw (State.freeChain fuel cix s) := by
  induction fuel generalizing s cix with
  | zero => exact h
  | succ n ih =>
    unfold State.freeChain
    dsimp only
    split
    · exact .ite (h.setChain ..) (.ite (h.setChain ..) (ih ((h.setChain ..).setChain ..) _))
    · exact h

theorem Intact.takeRef {s : State} (h : Intact P fw s) (cix : Nat) : Intact P fw (s.takeRef cix) := by
  unfold State.takeRef
  exact .ite h (h.setChain ..)

theorem Intact.dropRef {s : State} (h : Intact P fw s) (cix : Nat) : Intact P fw (s.dropRef cix) := by
  unfold State.dropRef
  exact .ite h ((h.setChain ..).freeChain ..)

theorem Intact.splitPips {s : State} (h : Intact P fw s) (cix pips : Nat) : Intact P fw (s.splitPips cix pips) := by
  unfold State.splitPips
  refine .foldl (fun _ _ hs => ?_) h
  split
  · exact hs.modWorld ..

theorem Intact.splitSegment {s : State} (h : Intact P fw s) (core slot : Nat) : Intact P fw (s.splitSegment core slot) := by
  unfold State.splitSegment
  exact (h.splitPips ..).modSlot ..

theorem Intact.chargeCtx {s : State} (h : Intact P fw s) (core uid cix pips : Nat) : Intact P fw (s.chargeCtx core uid cix pips) := by
  unfold State.chargeCtx
  split
  · exact h.chargeSlot ..
  · exact .ite (h.modCore ..) (h.splitPips ..)

theorem Intact.chargeCtxCaps {s : State} (h : Intact P fw s) (core uid cix : Nat) (caps : List Cap) :
    Intact P fw (s.chargeCtxCaps core uid cix caps) := by
  unfold State.chargeCtxCaps
  exact .foldl (fun _ _ hs => hs.chargeCtx ..) h

theorem Intact.intern {s t : State} (h : Intact P fw s) {parent : Option Nat} {principal gen share world depth : Nat} {a : Nat} (e :
    s.intern parent principal gen share world depth = some (a, t)) : Intact P fw t := by
  unfold State.intern at e
  split at e
  · cases e
    exact h
  · split at e
    · cases e
    · dsimp only at e
      cases e
      split
      · exact h.update.takeRef ..
      · exact h.update

theorem Keeps.chainSlot : Keeps P fw (chainSlot) := by
  unfold Machine.chainSlot
  exact getThen fun _ _ => when trapPriv <| ite (pure _) <| pure _

theorem Keeps.chrd (d a : Reg) : Keeps P fw (chrd d a) := by
  unfold Machine.chrd
  exact waiting <| bind chainSlot fun _ => bind (rd ..) fun _ => when (trapAt ..) <| getThen fun _ _ => ite (wr ..) <| wr ..

theorem Keeps.changeChain (old new depth : Nat) (d : Reg) : Keeps P fw (changeChain old new depth d) := by
  unfold Machine.changeChain
  exact bind (modify fun _ hs => (((hs.splitSegment ..).takeRef ..).dropRef ..).modMe ..) fun _ => wr ..

theorem Keeps.adopt (d a : Reg) : Keeps P fw (adopt d a) := by
  unfold Machine.adopt
  refine waiting <| bind workOnly fun _ => bind (rd ..) fun _ => when (trapAt ..) <| getThen fun _ hs => when (block ..) <|
    when (trapAt ..) <| when (trapAt ..) <| when (trapAt ..) <| when (trapAt ..) <| when (trapAt ..) <| ?_
  split
  · exact trapAt ..
  · next _ t e => exact setThen ((hs.intern e)) <| changeChain ..

theorem Keeps.unadopt (d : Reg) : Keeps P fw (unadopt d) := by
  unfold Machine.unadopt
  exact waiting <| bind workOnly fun _ => getThen fun _ _ => when (block ..) <| when (trapAt ..) <| changeChain ..

theorem Keeps.metrd (d a : Reg) : Keeps P fw (metrd d a) := by
  unfold Machine.metrd
  exact waiting <| bind chainSlot fun _ => bind (rd ..) fun _ => when (trapAt ..) <| getThen fun _ _ => ite (wr ..) <| wr ..

theorem Keeps.capchk (p : Num3) (a : Reg) (kind : BitVec 2) : Keeps P fw (capchk p a kind) := by
  unfold Machine.capchk
  refine waiting <| bind chainSlot fun _ => bind (rd ..) fun _ => getThen fun _ hs => ?_
  dsimp only
  split
  · next _ t e => exact setThen (((Keeps.authorize ..).leaves hs e)) <| modMe ..
  · next _ t e => exact setThen (((Keeps.authorize ..).leaves hs e)) <| ite (throw _) <| modMe ..
  · next _ t e => exact setThen (((Keeps.authorize ..).leaves hs e)) <| throw _

theorem Intact.sweepCycle {s : State} (h : Intact P fw s) (w : Sweep) : Intact P fw (s.sweepCycle w) := by
  unfold State.sweepCycle
  exact .foldl (fun _ _ hs => hs.freeChain ..) (.foldl (fun _ _ hs => hs.setChain ..) h)

theorem Keeps.revocationSweep : Keeps P fw (revocationSweep) := by
  unfold Machine.revocationSweep
  refine getThen fun _ hs => ?_
  split
  · exact bind (require ..) fun _ => set ((hs.sweepCycle ..).update)
  · exact set hs.update
  · exact require ..

theorem Intact.finishCmd {s : State} (h : Intact P fw s) (fn : Nat) (code : Byte) (result : W32) :
    Intact P fw (s.finishCmd fn code result) := by
  unfold State.finishCmd
  exact h.modFn ..

theorem Keeps.revocationComplete : Keeps P fw (revocationComplete) := by
  unfold Machine.revocationComplete
  refine getThen fun _ hs => ?_
  split
  · refine bind (require ..) fun _ => set ?_
    split
    · exact .ite (hs.update.finishCmd ..) hs.update
    · exact hs.update
  · exact require ..

theorem Intact.queueWrite {s : State} (h : Intact P fw s) (world wpa : Nat) (bs : List Byte) : Intact P fw (s.queueWrite world wpa bs) := by
  unfold State.queueWrite
  split
  · exact .ite h (((Intact.foldl (fun _ _ hs => (hs.update.sealLine ..).mscTouch ..) h).setCells ..).triggerWatches ..)
  · exact h

theorem Intact.queueRead {s : State} (h : Intact P fw s) (world wpa n : Nat) : Intact P fw (s.queueRead world wpa n).2 := by
  unfold State.queueRead
  split
  · dsimp only
    exact .ite (h.mscTouch ..) h
  · exact h

theorem Intact.setSegments {s : State} (h : Intact P fw s) (core b : Nat) (l : List Segment) : Intact P fw (s.setSegments core b l) := by
  unfold State.setSegments
  exact .ite (h.modWorld ..) (h.modCore ..)

theorem Intact.swapLog {s t : State} (h : Intact P fw s) {cluster w n : Nat} (e : s.swapLog cluster w n = some t) : Intact P fw t := by
  unfold State.swapLog at e
  dsimp only at e
  split at e
  · cases e
  · cases e
    exact ((h.queueWrite ..).update).modWorld ..

theorem Intact.swapOut {s t : State} (h : Intact P fw s) {cluster : Nat} (e : s.swapOut cluster = some t) : Intact P fw t := by
  unfold State.swapOut at e
  split at e
  · cases e
  · split at e
    · dsimp only at e
      split at e
      · split at e
        · cases e
          exact ((h.queueWrite ..).modWorld ..).setSegments ..
        · cases e
      · cases e
    · exact h.swapLog e
    · cases e

theorem Intact.pushLocal {s t : State} (h : Intact P fw s) {core b : Nat} {p : Packet} (e : s.pushLocal core b p = some t) :
    Intact P fw t := by
  unfold State.pushLocal at e
  dsimp only at e
  split at e
  · cases e
    exact h.modCore ..
  · split at e
    · cases e
      exact h.modCore ..
    · split at e
      · cases e
        exact h.modCore ..
      · obtain ⟨u, e', rfl⟩ := Option.map_eq_some_iff.mp e
        exact ((h.swapOut e')).modCore ..

theorem Intact.spillMoved {s : State} (h : Intact P fw s) (core : Nat) : Intact P fw (s.spillMoved core) := h.filterMem _ rfl rfl

theorem Intact.moveOut {s0 : State} (h : Intact P fw s0) (core slot entry : Nat) (st : CtxSt) :
    Intact P fw (s0.moveOut core slot entry st) := by
  unfold State.moveOut
  exact (Intact.ite h (h.spillMoved ..)).modCore ..

theorem Intact.park {s0 : State} (h : Intact P fw s0) (core slot : Nat) (p : Park) : Intact P fw (s0.park core slot p) := by
  unfold State.park
  dsimp only
  split
  · exact ((((h.revokeAll ..).performSlot ..).modCore ..).modCore ..).modSlot ..
  · exact .ite (((h.revokeAll ..).performSlot ..).moveOut ..) ((((h.revokeAll ..).performSlot ..).modCore ..).modSlot ..)

theorem Keeps.contextMove (core : Nat) : Keeps P fw (contextMove core) := by
  unfold Machine.contextMove
  refine getThen fun _ hs => ?_
  split
  · exact require ..
  · dsimp only
    split
    · exact bind (require ..) fun _ => set ((hs.modCore ..).moveOut ..)
    · exact set ((hs.modSlot ..).modCore ..)
    · exact require ..

theorem Intact.deliverEngine {s : State} (h : Intact P fw s) (core slot e : Nat) : Intact P fw (State.deliverEngine core slot s e) := by
  unfold State.deliverEngine
  exact h.update

theorem Intact.deliverResults {s : State} (h : Intact P fw s) (core slot : Nat) : Intact P fw (s.deliverResults core slot) := by
  unfold State.deliverResults
  exact .foldl (fun _ _ hs => hs.deliverEngine ..) h

theorem Intact.moveIn {s : State} (h : Intact P fw s) (core slot entry : Nat) (e : CtxEntry) :
    Intact P fw (s.moveIn core slot entry e) := by
  unfold State.moveIn
  exact (h.modCore ..).deliverResults ..

theorem Intact.loadSlot {s : State} (h : Intact P fw s) (core slot : Nat) (p : Packet) : Intact P fw (s.loadSlot core slot p) := by
  unfold State.loadSlot
  exact h.update

theorem Keeps.deadJoin (core world : Nat) (join : W64) : Keeps P fw (deadJoin core world join) := by
  unfold Machine.deadJoin
  exact when (trapAt ..) <| bind (locate ..) fun _ => bind (firewall ..) fun _ => when (trapXlate ..) <| when (lineIn ..) <| pure _

theorem Intact.dropDead {s : State} (h : Intact P fw s) (core : Nat) (p : Packet) : Intact P fw (s.dropDead core p) := by
  unfold State.dropDead
  refine Intact.modCore ?_ ..
  refine Intact.dropRef ?_ ..
  refine .ite h ?_
  split
  · next _ s e => exact .ite ((((Keeps.deadJoin ..).leaves h e)).turnServe ..) ((((Keeps.deadJoin ..).leaves h e)).enqueueTurn ..)
  · next _ s e => exact ((Keeps.deadJoin ..).leaves h e)

theorem Intact.popLive {s : State} (h : Intact P fw s) (core b fuel : Nat) : Intact P fw (popLive core b fuel s).2 := by
  induction fuel generalizing s with
  | zero => exact h
  | succ n ih =>
    unfold Machine.popLive
    split
    · exact h
    · next p d _ =>
      have hs := h.modCore core fun k => k.modDeque b fun _ => d.take s.cycle 0
      dsimp only
      split
      · exact ih (hs.dropDead core p)
      · exact hs

theorem Intact.searchBand {s : State} (h : Intact P fw s) (core slot b : Nat) : Intact P fw (s.searchBand core slot b).2 := by
  unfold State.searchBand
  split
  · dsimp only
    exact h.moveIn ..
  · split
    · next _ s e =>
        dsimp only
        exact ((h.popLive ..).of_snd e).loadSlot ..
    · next s e =>
        split
        · dsimp only
          exact (h.popLive ..).of_snd e
        · dsimp only
          exact ((h.popLive ..).of_snd e).modCore ..

theorem Intact.searchBelow {s : State} (h : Intact P fw s) (core slot bands : Nat) : Intact P fw (s.searchBelow core slot bands) := by
  induction bands generalizing s with
  | zero => exact h
  | succ b ih =>
    unfold State.searchBelow
    split
    · next e => exact (h.searchBand ..).of_snd e
    · next e => exact ih ((h.searchBand ..).of_snd e)

theorem Keeps.slotSearch (core : Nat) : Keeps P fw (slotSearch core) := by
  unfold Machine.slotSearch
  refine getThen fun _ hs => bind (require ..) fun _ => ?_
  split
  · exact require ..
  · exact set (hs.searchBelow ..)

theorem Keeps.stealProbeResult (core : Nat) : Keeps P fw (stealProbeResult core) := by
  unfold Machine.stealProbeResult
  refine getThen fun s hs => ?_
  split
  · exact require ..
  next st _ =>
  refine bind (require ..) fun _ => ?_
  extract_lets go
  -- A probe that finds nothing goes on to the next victim, or the search ends.
  have hgo {t : State} (ht : Intact P fw t) {rest : List Nat} : Intact P fw (go t rest) := by
    dsimp only [go]
    split
    · exact ((ht.modCore ..).modCore ..).searchBelow ..
    · exact (ht.modCore ..).modCore ..
  clear_value go
  split
  · exact set (hgo hs)
  · refine bind (require ..) fun _ => ?_
    split
    · exact ite (ite (set (hgo ((hs.modCore ..).dropDead ..))) (set (((hs.modCore ..).modCore ..).loadSlot ..))) (set (hgo hs))
    · exact set (hgo hs)

theorem Intact.queuedWords {s : State} (h : Intact P fw s) (w wpa : Nat) : Intact P fw (s.queuedWords w wpa).2 := by
  unfold State.queuedWords
  split
  · next _ s e =>
      dsimp only
      exact (h.queueRead ..).of_snd e

theorem Intact.takeOldest {s t : State} (h : Intact P fw s) {core b : Nat} {a : Packet} (e : s.takeOldest core b = some (a, t)) :
    Intact P fw t := by
  unfold State.takeOldest at e
  dsimp only at e
  split at e
  · cases e
  split at e
  · cases e
  split at e
  · cases e
    exact h.modCore ..
  · generalize hq : State.queuedWords _ _ _ = q at e
    obtain ⟨ws, u⟩ := q
    have hu : Intact P fw u := ((h.modCore ..).queuedWords ..).of_snd hq
    cases e
    exact .ite (hu.modWorld ..) hu

theorem Keeps.packetAging (core b : Nat) : Keeps P fw (packetAging core b) := by
  unfold Machine.packetAging
  refine bind (require ..) fun _ => getThen fun s hs => bind (require ..) fun _ => ?_
  dsimp only
  split
  · next _ t hm =>
    have ht : Intact P fw t := by
      split at hm
      · exact hs.takeOldest hm
      · cases hm
    split
    · next e => exact set (ht.pushLocal e)
    · exact require ..
  · split
    · next e => exact set ((hs.modCore ..).pushLocal e)
    · exact require ..
  · exact require ..

theorem Keeps.contextAging (core entry : Nat) : Keeps P fw (contextAging core entry) := by
  unfold Machine.contextAging
  refine getThen fun _ hs => ?_
  split
  · exact require ..
  · exact bind (require ..) fun _ => set (hs.modCore ..)

theorem Intact.logSwapIn {s t : State} (h : Intact P fw s) {w domain : Nat} (e : s.logSwapIn w domain = some t) : Intact P fw t := by
  unfold State.logSwapIn at e
  dsimp only at e
  split at e
  · cases e
    exact h.modWorld ..
  · cases e

theorem Keeps.queueSegmentSwapIn (core b : Nat) : Keeps P fw (queueSegmentSwapIn core b) := by
  unfold Machine.queueSegmentSwapIn
  refine getThen fun _ hs => ite ?_ <| ?_
  · split
    · next t e => exact set ((hs.logSwapIn e))
    · refine bind (require ..) fun _ => bind (require ..) fun _ => ?_
      split
      · exact require ..
      · split
        · exact set (((Intact.foldl (fun _ _ ht => ht.queuedWords ..) hs).modWorld ..).setSegments ..)
        · exact require ..
  · refine bind (require ..) fun _ => ?_
    split
    · exact require ..
    · split
      · exact set (((Intact.foldl (fun _ _ ht => ht.queuedWords ..) hs).modWorld ..).setSegments ..)
      · exact require ..

theorem Intact.launchPut {s t : State} (h : Intact P fw s) {w : Nat} {p : Packet} (e : s.launchPut w p = some t) : Intact P fw t := by
  unfold State.launchPut at e
  dsimp only at e
  split at e
  · cases e
  · split at e
    · cases e
    · split at e
      · cases e
        exact h.modWorld ..
      · obtain ⟨u, e', rfl⟩ := Option.map_eq_some_iff.mp e
        exact ((h.swapOut e')).modWorld ..

theorem Intact.ringPacket {s : State} (h : Intact P fw s) (w : Nat) : Intact P fw (s.ringPacket w).2 := by
  unfold State.ringPacket
  split
  · next _ s e =>
      dsimp only
      exact (h.queuedWords ..).of_snd e

theorem Intact.ringAdvance {s : State} (h : Intact P fw s) (w : Nat) : Intact P fw (s.ringAdvance w) := by
  unfold State.ringAdvance
  exact h.modWorld ..

theorem Intact.launchFill {s : State} (h : Intact P fw s) (w : Nat) : Intact P fw (s.launchFill w) := by
  unfold State.launchFill
  refine .ite h ?_
  split
  · next s e => exact (((h.ringPacket ..).launchPut e)).ringAdvance ..
  · exact h

theorem Intact.launchPop {s t : State} (h : Intact P fw s) {w : Nat} {a : Packet} (e : s.launchPop w = some (a, t)) : Intact P fw t := by
  unfold State.launchPop at e
  split at e
  · split at e
    · cases e
    · cases e
      exact (h.ringPacket ..).ringAdvance ..
  · split at e
    · cases e
    · split at e
      · cases e
      · cases e
        exact (h.modWorld ..).launchFill ..

theorem Keeps.distributorDelivery (w : Nat) : Keeps P fw (distributorDelivery w) := by
  unfold Machine.distributorDelivery
  refine getThen fun _ hs => ?_
  split
  · exact require ..
  · next _ t e =>
      dsimp only
      split
      · exact require ..
      · exact set ((((hs.launchPop e)).modWorld ..).modCore ..)


end

end Sys2Proof.Machine
end

section
/-! Intact: accumulators and planes, sequences, and barriers. -/

-- One declaration after another: checked side by side, these take more threads than the memory of the check holds.
set_option Elab.async false

namespace Sys2Proof.Machine

section
variable {P : Prop} {fw : Matrices}

theorem Keeps.getAcc (a : Num3) : Keeps P fw (getAcc a) := by
  unfold Machine.getAcc
  exact bind getCore fun _ => pure _

theorem Keeps.modAcc (a : Num3) (f : Acc → Acc) : Keeps P fw (modAcc a f) := by
  unfold Machine.modAcc
  exact modCore ..

theorem Keeps.getPlane (w : Num2) : Keeps P fw (getPlane w) := by
  unfold Machine.getPlane
  exact bind getCore fun _ => pure _

theorem Keeps.modPlane (w : Num2) (f : Plane → Plane) : Keeps P fw (modPlane w f) := by
  unfold Machine.modPlane
  exact modCore ..

theorem Keeps.needAcc (a : Num3) : Keeps P fw (needAcc a) := by
  unfold Machine.needAcc
  exact bind getMe fun _ => ite (trapAt ..) <| pure _

theorem Keeps.needPlane (w : Num2) : Keeps P fw (needPlane w) := by
  unfold Machine.needPlane
  exact bind getMe fun _ => ite (trapAt ..) <| pure _

theorem Keeps.awaitClaim (plane : Bool) (n : Nat) (mine free : Bool) : Keeps P fw (awaitClaim plane n mine free) := by
  unfold Machine.awaitClaim
  exact getThen fun _ _ => ite (pure _) <| bind getCore fun _ => ite (modCore ..) <| bind (modCore ..) fun _ => block ..

theorem Keeps.wakeArray : Keeps P fw (wakeArray) := by
  unfold Machine.wakeArray
  exact modify fun _ hs => hs.modMyCore ..

theorem Keeps.unitsGiven (old : Core) : Keeps P fw (unitsGiven old) := by
  unfold Machine.unitsGiven
  exact modify fun _ hs => hs.modMyCore ..

theorem Keeps.rowStarted : Keeps P fw (rowStarted) := by
  unfold Machine.rowStarted
  exact modify fun _ hs => hs.modMyCore ..

theorem Keeps.plclm (w : Num2) : Keeps P fw (plclm w) := by
  unfold Machine.plclm
  exact getThen fun _ _ => bind (getPlane ..) fun _ => bind wakeArray fun _ => bind (awaitClaim ..) fun _ => bind (modPlane ..) fun _ =>
    bind (modMe ..) fun _ => pure _

theorem Keeps.lockAcc (a : Num3) : Keeps P fw (lockAcc a) := by
  unfold Machine.lockAcc
  exact getThen fun _ _ => bind (getAcc ..) fun _ => ite (pure _) <| ite (modAcc ..) <| bind (modAcc ..) fun _ => block ..

theorem Keeps.readsPast (a : Num3) : Keeps P fw (readsPast a) := by
  unfold Machine.readsPast
  exact getThen fun _ _ => bind (getAcc ..) fun _ => pure _

theorem Keeps.accrd (a t rb : Num3) : Keeps P fw (accrd a t rb) := by
  unfold Machine.accrd
  exact bind (readsPast ..) fun _ => when (lockAcc ..) <| bind (getAcc ..) fun _ => bind (resumeRow ..) fun _ =>
    when (atRow (trapAt ..)) <| when (beginResult ..) <| bind (forRows (fun _ => bind (getAcc ..) fun _ => bind getMe fun _ =>
      bind (setTile ..) fun _ => pure _)) fun _ => pure _

theorem Keeps.accwr (a t rb : Num3) : Keeps P fw (accwr a t rb) := by
  unfold Machine.accwr
  exact bind getMe fun _ => bind (getAcc ..) fun _ => bind (atRow (needAcc ..)) fun _ => bind (lockAcc ..) fun _ =>
    bind (resumeRow ..) fun _ => when (shapeTrap ..) <| bind (forRows (fun _ => bind getMe fun _ => bind (modAcc ..) fun _ =>
      pure _)) fun _ => pure _

theorem Keeps.accclm (a : Num3) (ty : BitVec 2) : Keeps P fw (accclm a ty) := by
  unfold Machine.accclm
  exact getThen fun _ _ => bind (getAcc ..) fun _ => bind wakeArray fun _ => bind (awaitClaim ..) fun _ => bind (lockAcc ..) fun _ =>
    bind (modAcc ..) fun _ => bind (modMe ..) fun _ => pure _

theorem Keeps.takeProj (writes : Bool) (lo hi : Nat) : Keeps P fw (takeProj writes lo hi) := by
  unfold Machine.takeProj
  exact getThen fun _ _ => bind getCore fun _ => when (block ..) <| modCore ..

theorem Keeps.beginLoad (h : W64) (m : Mod) (ok : Layout → Bool) (start : Option Nat) : Keeps P fw (beginLoad h m ok start) := by
  unfold Machine.beginLoad
  exact bind (readLayout ..) fun ⟨_, _⟩ => when (trapAt ..) <| bind (acquireOf ..) fun _ => pure _

theorem Keeps.planeRow (w : Who) (l : Layout) (row0 col0 k ncols : Nat) (m : Mod) : Keeps P fw (planeRow w l row0 col0 k ncols m) := by
  unfold Machine.planeRow
  exact ite (foldlM (fun _ ⟨_, _, _⟩ => bind (readCx8 ..) fun ⟨⟨_, _⟩, _⟩ => pure _) _ _) <| ite (bind (readColumn ..) fun ⟨_, _⟩ =>
    pure _) <| bind (readElems ..) fun ⟨_, _⟩ => pure _

theorem Keeps.ldstatRow (p : Num2) (w : Who) (l : Layout) (row0 col0 ncols : Nat) (m : Mod) (lcs : List Cap) (r : Nat) :
    Keeps P fw (ldstatRow p w l row0 col0 ncols m lcs r) := by
  unfold Machine.ldstatRow
  exact atRow (bind (planeRow ..) fun ⟨_, _, _⟩ => bind (modPlane ..) fun _ => bind (charge ..) fun _ => bind (chargeCaps ..) fun _ =>
    pure _)

theorem Keeps.ldstat (p : Num2) (a b : Reg) (m : Mod) : Keeps P fw (ldstat p a b m) := by
  unfold Machine.ldstat
  exact withPorts fun _ => bind (needPlane ..) fun _ => bind (rd ..) fun _ => bind (rd ..) fun _ => bind whoMe fun _ =>
    bind (resumeRow ..) fun _ => bind (beginLoad ..) fun ⟨_, _⟩ => when (modPlane ..) <| bind (forRows (fun _ => ldstatRow ..)) fun _ =>
      bind (chargeCaps ..) fun _ => pure _

theorem Keeps.ldsclRow (p : Num2) (w : Who) (l : Layout) (row0 col0 n : Nat) (m : Mod) (lcs : List Cap) (r : Nat) :
    Keeps P fw (ldsclRow p w l row0 col0 n m lcs r) := by
  unfold Machine.ldsclRow
  exact atRow (bind (readElems ..) fun ⟨_, _⟩ => bind (modPlane ..) fun _ => bind (charge ..) fun _ => bind (chargeCaps ..) fun _ => pure _)

theorem Keeps.ldscl (p : Num2) (a b : Reg) (m : Mod) : Keeps P fw (ldscl p a b m) := by
  unfold Machine.ldscl
  exact withPorts fun _ => bind (needPlane ..) fun _ => bind (rd ..) fun _ => bind (rd ..) fun _ => bind whoMe fun _ =>
    bind (resumeRow ..) fun _ => bind (beginLoad ..) fun ⟨_, _⟩ => when (modPlane ..) <| bind (forRows (fun _ => ldsclRow ..)) fun _ =>
      bind (chargeCaps ..) fun _ => pure _

theorem Keeps.projRow (w : Who) (l : Layout) (row0 col0 i : Nat) (m : Mod) : Keeps P fw (projRow w l row0 col0 i m) := by
  unfold Machine.projRow
  exact ite (ite (readColumn ..) <| pure _) <| ite (readElems ..) <| pure _

theorem Keeps.ldprojRow (w : Who) (l : Layout) (row0 col0 chunk : Nat) (m : Mod) (lcs : List Cap) (r : Nat) :
    Keeps P fw (ldprojRow w l row0 col0 chunk m lcs r) := by
  unfold Machine.ldprojRow
  exact atRow (bind (projRow ..) fun ⟨_, _⟩ => bind (modCore ..) fun _ => bind (charge ..) fun _ => bind (chargeCaps ..) fun _ => pure _)

theorem Keeps.ldproj (a b : Reg) (m : Mod) : Keeps P fw (ldproj a b m) := by
  unfold Machine.ldproj
  exact withPorts fun _ => bind (rd ..) fun _ => bind (rd ..) fun _ => bind whoMe fun _ => bind (resumeRow ..) fun _ =>
    bind (takeProj ..) fun _ => bind (beginLoad ..) fun ⟨_, _⟩ => bind (forRows (fun _ => ldprojRow ..)) fun _ => pure _

theorem Keeps.mmaRow (k : MmaKind) (a t : Num3) (w : Num2) (fmt : W64) (r : Nat) : Keeps P fw (mmaRow k a t w fmt r) := by
  unfold Machine.mmaRow
  exact bind getCore fun _ => bind getMe fun _ => bind (getPlane ..) fun _ => bind (getAcc ..) fun _ => bind (modAcc ..) fun _ =>
    bind (orFlags ..) fun _ => bind (charge ..) fun _ => bind rowStarted fun _ => pure _

theorem Keeps.mma (k : MmaKind) (a t : Num3) (w : Num2) : Keeps P fw (mma k a t w) := by
  unfold Machine.mma
  refine bind getMe fun _ => bind (getPlane ..) fun _ => bind (getAcc ..) fun _ => bind wakeArray fun _ =>
    bind (atRow (bind (needAcc ..) fun _ => needPlane ..)) fun _ => bind (lockAcc ..) fun _ => bind (resumeRow ..) fun _ => ?_
  extract_lets rows eye
  have heye : Keeps P fw (eye ()) := by
    have hrows (u : Unit) : Keeps P fw (rows u) := bind (forRows fun _ => mmaRow ..) fun _ => pure _
    clear_value rows
    unfold eye
    split
    · exact bind (takeProj ..) fun _ => hrows _
    · exact hrows _
  exact ite (when (shapeTrap ..) <| when (shapeTrap ..) <| when (shapeTrap ..) <| when (shapeTrap ..) heye) heye

theorem Keeps.eyeTile (expand : Bool) (fn : Nat) (d a : Num3) (sel : Nat) : Keeps P fw (eyeTile expand fn d a sel) := by
  unfold Machine.eyeTile
  exact bind getMe fun _ => tileRows (bind (checkSrc ..) fun _ => bind (checkDst ..) fun _ => pure _) (fun _ => bind (takeProj ..) fun _ =>
    beginResult ..) (fun _ => bind (takeProj ..) fun _ => bind getCore fun _ => bind getMe fun _ => bind (charge ..) fun _ =>
      bind rowStarted fun _ => commitRow ..)

theorem Keeps.notCopySlot : Keeps P fw (notCopySlot) := by
  unfold Machine.notCopySlot
  exact getThen fun _ _ => ite trapPriv <| pure _

theorem Keeps.readHeader (w : Who) (ea : W64) (m : Mod) : Keeps P fw (readHeader w ea m) := by
  unfold Machine.readHeader
  exact when (trapAt ..) <| when (trapXlate ..) <| bind (readSpan ..) fun ⟨_, _⟩ => when (trapAt ..) <| pure _

theorem Keeps.checkTokens (h : SeqHeader) (first n : Nat) (b : W64) : Keeps P fw (checkTokens h first n b) := by
  unfold Machine.checkTokens
  exact ite (trapAt ..) <| pure _

theorem Keeps.orFmt {α : Type} {fmt : W64} {m : M α} (hm : Keeps P fw m) : Keeps P fw (orFmt fmt m) := by
  refine ⟨fun s hs => ?_⟩
  have h := hm.after s hs
  unfold Machine.orFmt
  split
  · next e =>
    rw [e] at h
    exact h
  · exact h

theorem Keeps.kvldRow (p : Num2) (w : Who) (h : SeqHeader) (first slice : Nat) (m : Mod) (hcs : List Cap) (c : Nat) :
    Keeps P fw (kvldRow p w h first slice m hcs c) := by
  unfold Machine.kvldRow
  exact atRow (bind (readSpan ..) fun ⟨_, _⟩ => bind (modPlane ..) fun _ => bind (charge ..) fun _ => bind (chargeCaps ..) fun _ => pure _)

theorem Keeps.kvld (p : Num2) (a b : Reg) (m : Mod) : Keeps P fw (kvld p a b m) := by
  unfold Machine.kvld
  exact withPorts fun _ => bind notCopySlot fun _ => bind (needPlane ..) fun _ => bind (rd ..) fun _ => when (trapAt ..) <|
    bind (rd ..) fun _ => bind whoMe fun _ => bind (resumeRow ..) fun _ => bind (readHeader ..) fun ⟨_, _⟩ => when (trapAt ..) <|
      bind (checkTokens ..) fun _ => bind (acquireOf ..) fun _ => when (modPlane ..) <| bind (forRows (fun _ => kvldRow ..)) fun _ => pure _

theorem Keeps.appendSpans (w : Who) (h : SeqHeader) (t : Nat) : Keeps P fw (appendSpans w h t) := by
  unfold Machine.appendSpans
  exact bind (readSpan ..) fun ⟨_, _⟩ => pure _

theorem Keeps.ntokSpan (w : Who) (h : SeqHeader) (n : Nat) : Keeps P fw (ntokSpan w h n) := by
  unfold Machine.ntokSpan
  exact bind (readSpan ..) fun ⟨_, _⟩ => pure _

theorem Keeps.kvstRow (tl : Tile) (w : Who) (h : SeqHeader) (d : W64) (hcs : List Cap) (i : Nat) : Keeps P fw (kvstRow tl w h d hcs i) := by
  unfold Machine.kvstRow
  exact atRow (ite (bind (appendSpans ..) fun ⟨_, _⟩ => ite (bind (ntokSpan ..) fun ⟨_, _⟩ => bind (writeRow ..) fun _ =>
    bind (charge ..) fun _ => bind (chargeCaps ..) fun _ => pure _) <| bind (pure _) fun ⟨_, _⟩ => bind (writeRow ..) fun _ =>
      bind (charge ..) fun _ => bind (chargeCaps ..) fun _ => pure _) <| bind (pure _) fun ⟨_, _⟩ => ite (bind (ntokSpan ..) fun ⟨_, _⟩ =>
        bind (writeRow ..) fun _ => bind (charge ..) fun _ => bind (chargeCaps ..) fun _ => pure _) <| bind (pure _) fun ⟨_, _⟩ =>
          bind (writeRow ..) fun _ => bind (charge ..) fun _ => bind (chargeCaps ..) fun _ => pure _)

theorem Keeps.kvst (t : Num3) (a b : Reg) (m : Mod) : Keeps P fw (kvst t a b m) := by
  unfold Machine.kvst
  exact withPorts fun _ => bind (getTile ..) fun _ => orFmt (bind notCopySlot fun _ => bind (rd ..) fun _ => when (trapAt ..) <|
    bind (rd ..) fun _ => bind whoMe fun _ => bind (releaseAt ..) fun _ => bind (resumeRow ..) fun _ => bind (getTile ..) fun _ =>
      bind (readHeader ..) fun ⟨_, _⟩ => when (shapeTrap ..) <| when (trapAt ..) <| bind (orFmt (checkTokens ..)) fun _ =>
        bind (forRows (fun _ => kvstRow ..)) fun _ => pure _)

theorem Keeps.readMults (w : Who) (h : SeqHeader) (first n : Nat) (m : Mod) : Keeps P fw (readMults w h first n m) := by
  unfold Machine.readMults
  exact foldlM (fun _ ⟨_, _⟩ => bind (readSpan ..) fun ⟨_, _⟩ => pure _) _ _

theorem Keeps.kvmultRow (t : Num3) (w : Who) (h : SeqHeader) (first n : Nat) (m : Mod) (hcs : List Cap) (r : Nat) :
    Keeps P fw (kvmultRow t w h first n m hcs r) := by
  unfold Machine.kvmultRow
  exact atRow (bind (readMults ..) fun ⟨_, _⟩ => bind (getTile ..) fun _ => bind (setTile ..) fun _ => bind (charge ..) fun _ =>
    bind (chargeCaps ..) fun _ => pure _)

theorem Keeps.kvmult (t : Num3) (a b : Reg) (m : Mod) : Keeps P fw (kvmult t a b m) := by
  unfold Machine.kvmult
  exact withPorts fun _ => orFmt (bind notCopySlot fun _ => bind (rd ..) fun _ => when (trapAt ..) <| bind (rd ..) fun _ =>
    bind whoMe fun _ => bind (resumeRow ..) fun _ => bind (readHeader ..) fun ⟨_, _⟩ => bind (checkTokens ..) fun _ =>
      bind (acquireOf ..) fun _ => when (beginResult ..) <| bind (forRows (fun _ => kvmultRow ..)) fun _ => pure _)

theorem Keeps.scoreb (d a b : Num3) : Keeps P fw (scoreb d a b) := by
  unfold Machine.scoreb
  exact bind getMe fun _ => bind (orFmt notCopySlot) fun _ => tileRows (bind (checkSrc ..) fun _ => bind (checkSrc ..) fun _ =>
    bind (agree ..) fun _ => bind (checkDst ..) fun _ => pure _) (fun _ => beginResult ..) (fun _ => bind getMe fun _ => commitRow ..)

theorem Keeps.tripc (d a b : Num3) : Keeps P fw (tripc d a b) := by
  unfold Machine.tripc
  exact bind getMe fun _ => bind (orFmt notCopySlot) fun _ => tileRows (bind (checkSrc ..) fun _ => bind (checkSrc ..) fun _ =>
    bind (agree ..) fun _ => bind (agree ..) fun _ => bind (checkDst ..) fun _ => pure _) (fun _ => beginResult ..) (fun _ =>
      bind getMe fun _ => commitRow ..)

theorem Intact.putBarrier {s : State} (h : Intact P fw s) (core uid world loc : Nat) (b : Barrier) :
    Intact P fw (s.putBarrier core uid world loc b) := by
  unfold State.putBarrier
  exact h.performWrite ..

theorem Intact.letGo {s : State} (h : Intact P fw s) (scope : Nat) (x : BarWaiter) : Intact P fw (State.letGo scope s x) := by
  unfold State.letGo
  exact (Intact.ite (h.modCore ..) h).modSlot ..

theorem Intact.releasePhase {s : State} (h : Intact P fw s) (loc phase scope : Nat) : Intact P fw (s.releasePhase loc phase scope) := by
  unfold State.releasePhase
  exact .foldl (fun _ _ hs => hs.letGo ..) h.update

theorem Intact.settleBarrier {s : State} (h : Intact P fw s) (core uid world loc : Nat) (b : Barrier) :
    Intact P fw (s.settleBarrier core uid world loc b) := by
  unfold State.settleBarrier
  exact .ite ((h.putBarrier ..).releasePhase ..) (h.putBarrier ..)

theorem Intact.barLand {s t : State} (h : Intact P fw s) {core world loc n : Nat} (e : s.barLand core world loc n = some t) :
    Intact P fw t := by
  unfold State.barLand at e
  dsimp only at e
  split at e
  · cases e
  · split at e
    · cases e
      exact h
    · cases e
      exact .ite (h.settleBarrier ..) (h.putBarrier ..)

theorem Keeps.barPlace (w : Who) (ea : W64) : Keeps P fw (barPlace w ea) := by
  unfold Machine.barPlace
  exact when (trapAt ..) <| when (trapXlate ..) <| bind (locate ..) fun _ => bind (authorize ..) fun _ => bind (firewall ..) fun _ => pure _

theorem Keeps.ownFirst (w : Who) (loc : Nat) : Keeps P fw (ownFirst w loc) := by
  unfold Machine.ownFirst
  exact modify fun _ hs => (((hs.performWord ..).performWord ..).performWord ..).performWord ..

theorem Keeps.arrive (w : Who) (pl : Place) (ea : W64) : Keeps P fw (arrive w pl ea) := by
  unfold Machine.arrive
  exact bind (ownFirst ..) fun _ => getThen fun _ hs => when2 (set (hs.putBarrier ..)) (fun _ => trapAt ..) <|
    setThen (hs.settleBarrier ..) <| pure _

theorem Keeps.awaitPhase (w : Who) (loc phase : Nat) : Keeps P fw (awaitPhase w loc phase) := by
  unfold Machine.awaitPhase
  exact getThen fun _ hs => when2 (set hs.update) (fun _ => throw _) <| acquireAt ..

theorem Keeps.bararr (d a : Reg) : Keeps P fw (bararr d a) := by
  unfold Machine.bararr
  exact waiting <| bind (rd ..) fun _ => bind whoMe fun _ => bind releaseAll fun _ => bind (barPlace ..) fun ⟨_, _⟩ =>
    bind (arrive ..) fun _ => bind (chargeCap ..) fun _ => wr ..

theorem Keeps.barwait (d a : Reg) : Keeps P fw (barwait d a) := by
  unfold Machine.barwait
  exact waiting <| bind (rd ..) fun _ => bind (rd ..) fun _ => bind whoMe fun _ => bind (barPlace ..) fun ⟨_, _⟩ =>
    bind (ownFirst ..) fun _ => bind (chargeCap ..) fun _ => awaitPhase ..

theorem Keeps.barsync (d a : Reg) : Keeps P fw (barsync d a) := by
  unfold Machine.barsync
  refine waiting <| bind (rd ..) fun _ => bind whoMe fun _ => bind (resumeRow ..) fun _ => ?_
  extract_lets +onlyGivenNames jp
  have hjp : ∀ r, Keeps P fw (jp r) := fun _ => clearPend
  clear_value jp
  split
  · exact bind (barPlace ..) fun ⟨_, _⟩ => bind (chargeCap ..) fun _ => bind (awaitPhase ..) fun _ => hjp _
  · exact bind releaseAll fun _ => bind (barPlace ..) fun ⟨_, _⟩ => bind (arrive ..) fun _ => bind (chargeCap ..) fun _ =>
    bind (wr ..) fun _ => bind (guardRow (awaitPhase ..)) fun _ => hjp _

theorem Keeps.barexp (d a : Reg) : Keeps P fw (barexp d a) := by
  unfold Machine.barexp
  exact waiting <| bind (rd ..) fun _ => bind (rd ..) fun _ => bind whoMe fun _ => bind (barPlace ..) fun ⟨_, _⟩ =>
    bind (ownFirst ..) fun _ => getThen fun _ hs => when (trapAt ..) <| when (set (hs.putBarrier ..)) <| chargeCap ..

theorem Keeps.barinit (d a : Reg) : Keeps P fw (barinit d a) := by
  unfold Machine.barinit
  exact waiting <| bind (rd ..) fun _ => bind (rd ..) fun _ => bind whoMe fun _ => bind (barPlace ..) fun ⟨_, _⟩ => when (trapAt ..) <|
    bind (ownFirst ..) fun _ => bind (modify fun _ hs => (hs.putBarrier ..).releasePhase ..) fun _ => chargeCap ..

theorem Keeps.barqry (d a : Reg) : Keeps P fw (barqry d a) := by
  unfold Machine.barqry
  exact waiting <| bind (rd ..) fun _ => bind whoMe fun _ => bind (barPlace ..) fun ⟨_, _⟩ => bind (ownFirst ..) fun _ =>
    getThen fun _ _ => bind (wr ..) fun _ => chargeCap ..


end

end Sys2Proof.Machine
end

section
/-! Intact: accesses, copies, tasks, and images. -/

-- One declaration after another: checked side by side, these take more threads than the memory of the check holds.
set_option Elab.async false

namespace Sys2Proof.Machine

section
variable {P : Prop} {fw : Matrices}

theorem Keeps.load (size : Nat) (ext : Nat → W64) (d a : Reg) (off : W64) (m : Mod) : Keeps P fw (load size ext d a off m) := by
  unfold Machine.load
  exact waiting <| bind (rd ..) fun _ => bind whoMe fun _ => bind (checkAccess ..) fun ⟨_, _⟩ => bind (loadPlace ..) fun _ =>
    bind (chargeCap ..) fun _ => bind (acquireOf ..) fun _ => wr ..

theorem Intact.dropTrans {s : State} (h : Intact P fw s) (world : Nat) (va : Option Nat) : Intact P fw (s.dropTrans world va) := by
  unfold State.dropTrans
  exact h.update

theorem Keeps.tlbinv (core : Nat) (v ea : W64) : Keeps P fw (tlbinv core v ea) := by
  unfold Machine.tlbinv
  exact when (trapAt ..) <| modify fun _ hs => hs.dropTrans ..

theorem Keeps.ctrlStore (core off : Nat) (v ea : W64) : Keeps P fw (ctrlStore core off v ea) := by
  unfold Machine.ctrlStore
  split
  · exact modify fun _ hs => hs.modCore ..
  · exact modify fun _ hs => hs.modCore ..
  · exact modify fun _ hs => hs.modCore ..
  · exact modify fun _ hs => hs.modCore ..
  · exact tlbinv ..
  · exact pure _

theorem Keeps.store (size : Nat) (d a : Reg) (off : W64) (m : Mod) : Keeps P fw (store size d a off m) := by
  unfold Machine.store
  exact waiting <| bind (rd ..) fun _ => bind (rd ..) fun _ => bind whoMe fun _ => bind (releaseAt ..) fun _ =>
    bind (storeRoom ..) fun _ => bind (checkAccess ..) fun ⟨_, _⟩ => ite (bind (ctrlStore ..) fun _ => chargeCap ..) <| when (lineIn ..) <|
      bind (storeEntry ..) fun _ => chargeCap ..

theorem Keeps.fePlace (w : Who) (ea : W64) (kinds : List Kind) : Keeps P fw (fePlace w ea kinds) := by
  unfold Machine.fePlace
  exact when (trapAt ..) <| when (trapXlate ..) <| when (trapXlate ..) <| bind (locate ..) fun _ => ite (bind (firewall ..) fun _ =>
    pure _) <| bind (authorize ..) fun _ => bind (firewall ..) fun _ => pure _

theorem Intact.fill {s : State} (h : Intact P fw s) (loc : Nat) : Intact P fw (s.fill loc) := by
  unfold State.fill
  exact (Intact.ite (h.modCore ..) h).setFull ..

theorem Intact.bankWrite {s : State} (h : Intact P fw s) (core slot loc : Nat) (v : W64) : Intact P fw (s.bankWrite core slot loc v) := by
  unfold State.bankWrite
  exact h.performWrite ..

theorem Intact.feServe {s : State} (h : Intact P fw s) (loc : Nat) (r : FeReq) : Intact P fw (s.feServe loc r) := by
  unfold State.feServe
  refine .ite ?_ ?_
  · refine .ite ?_ ?_
    · refine Intact.modCore ?_ ..
      split
      · exact (h.setFull ..).writeReg ..
      · exact h.writeReg ..
      · exact (h.bankWrite ..).fill ..
    · split
      · exact (h.setFull ..).writeReg ..
      · exact h.writeReg ..
      · exact (h.bankWrite ..).fill ..
  · refine Intact.chargeSlot ?_ ..
    refine .ite ?_ ?_
    · refine Intact.modCore ?_ ..
      split
      · exact (h.setFull ..).writeReg ..
      · exact h.writeReg ..
      · exact (h.bankWrite ..).fill ..
    · split
      · exact (h.setFull ..).writeReg ..
      · exact h.writeReg ..
      · exact (h.bankWrite ..).fill ..

theorem Keeps.feRequest (kind : FeKind) (kinds : List Kind) (d a : Reg) (m : Mod) : Keeps P fw (feRequest kind kinds d a m) := by
  unfold Machine.feRequest
  exact waiting <| bind (rd ..) fun _ => bind (rd ..) fun _ => bind whoMe fun _ => bind (fePlace ..) fun ⟨_, _⟩ => when (releaseAt ..) <|
    bind (modify fun _ hs => hs.performWord ..) fun _ => getThen fun _ hs => ite (set (hs.feServe ..)) <| setThen hs.update <| throw _

theorem Intact.feServeNext {s t : State} (h : Intact P fw s) {loc : Nat} (e : s.feServeNext loc = some t) : Intact P fw t := by
  obtain ⟨r, -, rfl⟩ := Option.map_eq_some_iff.mp e
  exact Intact.modSlot (Intact.feServe (s := { s with feWaiters := _ }) h.update ..) ..

theorem Intact.feServeAll {s : State} (h : Intact P fw s) (loc fuel : Nat) : Intact P fw (s.feServeAll loc fuel) := by
  induction fuel generalizing s with
  | zero => exact h
  | succ n ih =>
    unfold State.feServeAll
    split
    · next e => exact ih (h.feServeNext e)
    · exact h

theorem Keeps.feNow {kinds : List Kind} {srcs : List Reg} {a : Reg} {m : Mod} {act : Nat → M Unit} (hact : ∀ i, Keeps P fw (act i)) :
    Keeps P fw (feNow kinds srcs a m act) := by
  unfold Machine.feNow
  exact waiting <| bind (rd ..) fun _ => bind whoMe fun _ => bind (fePlace ..) fun ⟨_, _⟩ => bind (releaseAt ..) fun _ =>
    bind (modify fun _ hs => hs.performWord ..) fun _ => bind (modify fun _ hs => hs.feServeAll ..) fun _ => bind (hact _) fun _ =>
      forMOption (fun _ => chargeCap ..) _

theorem Keeps.feWaiterServed (loc : Nat) : Keeps P fw (feWaiterServed loc) := by
  unfold Machine.feWaiterServed
  refine getThen fun _ hs => ?_
  split
  · exact require ..
  · next t e => exact set ((hs.feServeNext e))

theorem Keeps.prefetchLine (l1 : Bool) (ea : W64) : Keeps P fw (prefetchLine l1 ea) := by
  unfold Machine.prefetchLine
  exact bind whoMe fun _ => when (trapXlate ..) <| bind (locate ..) fun _ => bind (authorize ..) fun _ => bind (firewall ..) fun _ =>
    when (trapXlate ..) <| bind (lineIn ..) fun _ => modify fun _ hs => hs.modCore ..

theorem Keeps.prefetch (l1 : Bool) (a : Reg) : Keeps P fw (prefetch l1 a) := by
  unfold Machine.prefetch
  refine waiting <| bind (rd ..) fun _ => getThen fun _ hs => ?_
  split
  · next _ t e => exact set (((Keeps.prefetchLine ..).leaves hs e))
  · next _ t e => exact pure _

theorem Intact.performWaiting {s t : State} (h : Intact P fw s) {core : Nat} {e : SbEntry} (e : s.performWaiting core e = some t) :
    Intact P fw t := by
  unfold State.performWaiting at e
  split at e
  · cases e
  · split at e
    · cases e
    · cases e
      exact (h.setBank ..).landEntry ..

theorem Keeps.storePerform (core k : Nat) : Keeps P fw (storePerform core k) := by
  unfold Machine.storePerform
  refine getThen fun _ hs => ?_
  dsimp only
  split
  · exact require ..
  · refine bind (require ..) fun _ => ite ?_ <| set (hs.performEntry ..)
    split
    · next t e1 => exact set ((hs.performWaiting e1))
    · exact require ..

theorem Keeps.l1Fill (core k : Nat) : Keeps P fw (l1Fill core k) := by
  unfold Machine.l1Fill
  refine getThen fun _ hs => ?_
  split
  · exact require ..
  · exact set (hs.modCore ..)

theorem Keeps.rangeCaps (w : Who) (kind : Kind) (fuel : Nat) (ea : W64) (n : Nat) : Keeps P fw (rangeCaps w kind fuel ea n) := by
  induction fuel generalizing ea n with
  | zero => exact trapAt ..
  | succ f ih => exact ite (pure _) <| bind (authorize ..) fun _ => bind (ih ..) fun _ => pure _

theorem Keeps.rangeOf (w : Who) (kind : Kind) (ea : W64) (n : Nat) : Keeps P fw (rangeOf w kind ea n) := by
  unfold Machine.rangeOf
  exact getThen fun _ _ => rangeCaps ..

theorem Keeps.rowRuns (w : Who) (l : Layout) (row q n off fuel : Nat) : Keeps P fw (rowRuns w l row q n off fuel) := by
  induction fuel generalizing q n off with
  | zero => exact pure _
  | succ f ih =>
    exact ite (pure _) <| bind (blockStart ..) fun ⟨_, _⟩ => bind (walkBlocks ..) fun ⟨_, _⟩ => bind (ih ..) fun ⟨_, _, _⟩ => pure _

theorem Keeps.cx8Runs (w : Who) (l : Layout) (first count : Nat) (lost : List (Nat × Nat)) : Keeps P fw (cx8Runs w l first count lost) := by
  unfold Machine.cx8Runs
  refine foldlM (fun _ ⟨_, _, _⟩ => ?_) _ _
  dsimp only
  split
  · exact pure _
  · exact bind (atRow (rowRuns ..)) fun ⟨_, _, _⟩ => pure _

theorem Intact.tellCopyFault {s : State} (h : Intact P fw s) (core : Nat) (c : Copy) (t : TrapInfo) :
    Intact P fw (s.tellCopyFault core c t) := by
  unfold State.tellCopyFault
  exact .ite (h.modSlot ..) (h.modCore ..)

theorem Keeps.copyfaultDelivery (core slot : Nat) : Keeps P fw (copyfaultDelivery core slot) := by
  unfold Machine.copyfaultDelivery
  refine getThen fun _ hs => ?_
  dsimp only
  split
  · exact require ..
  · exact bind (require ..) fun _ => set (hs.update.takeTrap ..)

theorem Keeps.atPart {α : Type} {c : Copy} {row : Nat} {start : W64} {m : M α} (hm : Keeps P fw m) :
    Keeps P fw (atPart c row start m) := by
  refine ⟨fun s hs => ?_⟩
  have h := hm.after s hs
  unfold Machine.atPart
  split
  · next e =>
    rw [e] at h
    exact h
  · exact h

theorem Keeps.checkParts (w : Who) (c : Copy) (kind : Kind) : Keeps P fw (checkParts w c kind) := by
  unfold Machine.checkParts
  refine foldlM (fun _ _ => ?_) _ _
  split
  · exact foldlM (fun ⟨_, _⟩ _ => bind (atPart (rangeOf ..)) fun _ => pure _) _ _
  · exact pure _

theorem Intact.chargeCopy {s : State} (h : Intact P fw s) (core : Nat) (c : Copy) (caps : List Cap) :
    Intact P fw (s.chargeCopy core c caps) := by
  unfold State.chargeCopy
  exact (h.chargeCtx ..).chargeCtxCaps ..

theorem Intact.acceptCopy {s : State} (h : Intact P fw s) (core : Nat) (c : Copy) (more : List Cap) :
    Intact P fw (acceptCopy core c more s).2 := by
  have hm : Keeps P fw (Machine.checkParts (c.who core) c .read >>= fun rs => Machine.checkParts (c.who core) c .write >>= fun ws =>
      Pure.pure (rs ++ ws)) := .bind (.checkParts ..) fun _ => .bind (.checkParts ..) fun _ => .pure _
  unfold Machine.acceptCopy
  dsimp only
  split
  · next e => exact Intact.chargeCopy (hm.ok h e) ..
  · next e => exact Intact.tellCopyFault (hm.error h e) ..
  · next e => exact hm.error h e

theorem Keeps.Copy.record (c : Copy) (core : Nat) (tval : W64) : Keeps P fw (Copy.record c core tval) := by
  unfold Machine.Copy.record
  exact bind (readLayoutAs ..) fun ⟨_, _⟩ => when (trapAt ..) <| pure _

theorem Keeps.Copy.lay (c : Copy) (core : Nat) (l : Layout) : Keeps P fw (Copy.lay c core l) := by
  unfold Machine.Copy.lay
  exact ite (bind (cx8Runs ..) fun ⟨_, _, _⟩ => pure _) <| pure _

theorem Keeps.layoutCopy (core slot world : Nat) (desc : W64) (x : CopyDesc) : Keeps P fw (layoutCopy core slot world desc x) := by
  unfold Machine.layoutCopy
  refine getThen fun _ _ => getThen fun _ ht => ?_
  split
  · next _ u e => exact setThen (((Keeps.Copy.record ..).leaves ht e)) <| when (throw _) <| pure _
  · next _ u e => exact setThen (((Keeps.Copy.record ..).leaves ht e)) <| throw _
  · next _ _ u e =>
      split
      · next _ _ v e1 => exact setThen (((Keeps.Copy.lay ..).leaves (((Keeps.Copy.record ..).leaves ht e)) e1)) <| pure _
      · next _ v e1 => exact setThen (((Keeps.Copy.lay ..).leaves (((Keeps.Copy.record ..).leaves ht e)) e1)) <| pure _
      · next _ v e1 => exact setThen (((Keeps.Copy.lay ..).leaves (((Keeps.Copy.record ..).leaves ht e)) e1)) <| throw _

theorem Keeps.readDesc (core : Nat) (ea : W64) : Keeps P fw (readDesc core ea) := by
  unfold Machine.readDesc
  extract_lets +onlyGivenNames jp
  have hjp : ∀ r, Keeps P fw (jp r) := fun _ => pure _
  clear_value jp
  exact ite (bind whoMe fun _ => bind (locate ..) fun _ => bind (firewall ..) fun _ => getThen fun _ _ => when (block ..) <|
    bind (pure _) fun _ => hjp _) <| bind (readMine ..) fun _ => hjp _

theorem Keeps.emptyBlock (core : Nat) (ea : W64) : Keeps P fw (emptyBlock core ea) := by
  unfold Machine.emptyBlock
  exact ite (modify fun _ hs => .foldl (fun _ _ ht => ht.setFull ..) hs) <| pure _

theorem Keeps.copyInstr (op : Nat) (d a : Reg) : Keeps P fw (copyInstr op d a) := by
  unfold Machine.copyInstr
  refine waiting <| getThen fun _ _ => when trapPriv <| bind (rd ..) fun _ => bind (rd ..) fun _ => when (trapAt ..) <|
    when (trapXlate ..) <| when (trapAt ..) <| when (trapAt ..) <| bind (readDesc ..) fun ⟨_, _⟩ => when (trapAt ..) <| getThen fun _ _ =>
      ite (when (trapAt ..) <| bind (emptyBlock ..) fun _ => modify fun _ hu => hu.tellCopyFault ..) <| getThen fun _ _ =>
        when (block ..) <| ite ?_ <| bind (emptyBlock ..) fun _ => bind (chargeCaps ..) fun _ => modify fun _ hv =>
          ((hv.acceptCopy ..)).modCore ..
  refine bind (layoutCopy ..) fun ⟨_, _, _⟩ => bind (emptyBlock ..) fun _ => bind (chargeCaps ..) fun _ => ?_
  split
  · exact modify fun _ hv => (hv.tellCopyFault ..).modCore ..
  · exact modify fun _ hv => ((hv.acceptCopy ..)).modCore ..

theorem Keeps.engineSpan (w : Who) (ea : W64) (n : Nat) : Keeps P fw (engineSpan w ea n) := by
  unfold Machine.engineSpan
  exact foldlM (fun ⟨_, _⟩ ⟨_, _⟩ => bind (checkPiece ..) fun ⟨_, _⟩ => when (lineIn ..) <| getThen fun _ _ => pure _) _ _

theorem Keeps.engineRead (w : Who) (ea : W64) (n : Nat) : Keeps P fw (engineRead w ea n) := by
  unfold Machine.engineRead
  exact bind (engineSpan ..) fun _ => pure _

/-- A computation that lands something in a given state: it keeps the state it runs in, and answers one as good as the one given. -/
structure Lands (P : Prop) (fw : Matrices) (land : State → M State) : Prop where
  keeps : ∀ s, Keeps P fw (land s)
  gives : ∀ s u t v, Intact P fw s → Intact P fw u → land s u = .ok t v → Intact P fw t

theorem Lands.pure : Lands P fw (fun s => (Pure.pure s : M State)) := by
  refine ⟨fun s => .pure s, fun s u t v hs _ e => ?_⟩
  cases e
  exact hs

theorem Lands.thenSet {land : State → M State} (h : Lands P fw land) {s : State} (hs : Intact P fw s) {f : State → State}
    (hf : ∀ t, Intact P fw t → Intact P fw (f t)) : Keeps P fw (land s >>= fun t => MonadStateOf.set (f t)) := by
  refine ⟨fun u hu => ?_⟩
  rw [M.bind_apply]
  cases e : land s u with
  | ok t v => exact hf t (h.gives s u t v hs hu e)
  | error x v => exact (h.keeps s).error hu e

theorem Keeps.engineWrite {w : Who} {ea : W64} {bs : List Byte} {land : State → M State} (hland : Lands P fw land) :
    Keeps P fw (engineWrite w ea bs land) := by
  unfold Machine.engineWrite
  exact bind (writePieces ..) fun _ => bind (forM (fun ⟨_, _, _, _⟩ => ite (lineIn ..) <| pure _) _) fun _ => getThen fun _ hs =>
    when (block ..) <| hland.thenSet hs fun _ ht => .foldl (fun _ _ hu => hu.performWrite ..) ht

theorem Lands.landOn (w : Who) (bar : Option W64) (n : Nat) : Lands P fw (landOn w bar n) := by
  cases bar with
  | none => exact .pure
  | some ea =>
    refine ⟨fun s => ?_, fun s u t v _ hu e => ?_⟩
    · refine .bind (.barPlace ..) fun ⟨_, _⟩ => .getThen fun _ _ => ?_
      split
      · exact .pure _
      · exact .trapAt ..
    · change (Machine.barPlace w ea >>= fun p => MonadState.get >>= fun s => match s.barLand w.core w.world p.1.loc n with
        | some t => Pure.pure t
        | none => Machine.trapAt Cause.barBytes ea) u = _ at e
      rw [M.bind_apply] at e
      cases hb : Machine.barPlace w ea u with
      | error x t => simp [hb] at e
      | ok p t =>
        have ht := (Keeps.barPlace w ea).ok hu hb
        simp only [hb, M.bind_apply, M.get_apply] at e
        cases hl : t.barLand w.core w.world p.1.loc n with
        | none => simp [hl, Machine.trapAt] at e
        | some t' =>
          simp only [hl, M.pure_apply] at e
          cases e
          exact ht.barLand hl

theorem Keeps.chunk (core : Nat) (c : Copy) : Keeps P fw (chunk core c) := by
  unfold Machine.chunk
  split
  · exact pure _
  · exact bind (engineRead ..) fun _ => bind (engineWrite (.landOn ..)) fun _ => pure _

theorem Keeps.copyChunk (core k : Nat) : Keeps P fw (copyChunk core k) := by
  unfold Machine.copyChunk
  refine getThen fun _ hs => ?_
  split
  · exact require ..
  · refine bind (require ..) fun _ => ?_
    split
    · next _ t e1 => exact set ((((Keeps.chunk ..).leaves hs e1)).modCore ..)
    · next t e1 => exact set ((((Keeps.chunk ..).leaves hs e1)).modCore ..)
    · next _ t e1 => exact set (((((Keeps.chunk ..).leaves hs e1)).modCore ..).tellCopyFault ..)
    · next _ t e1 => exact require ..

theorem Keeps.copyCompletionMessage (core k : Nat) : Keeps P fw (copyCompletionMessage core k) := by
  unfold Machine.copyCompletionMessage
  refine getThen fun _ hs => ?_
  split
  · exact require ..
  · exact bind (require ..) fun _ => set hs.update

theorem Keeps.drain (path : Num2) : Keeps P fw (drain path) := by
  unfold Machine.drain
  exact getThen fun _ _ => when (block ..) <| when (block ..) <| bind (modify fun _ ht => ht.performSlot ..) fun _ => getThen fun _ _ =>
    when (block ..) <| when (acquireAt ..) <| pure _

theorem Keeps.heldCopy (v : W64) : Keeps P fw (heldCopy v) := by
  unfold Machine.heldCopy
  refine when (trapAt ..) <| bind getCore fun _ => ?_
  split
  · split
    · exact pure _
    · exact trapAt ..
  · exact trapAt ..

theorem Keeps.dropBytes (w : Who) (bar : Option W64) (n : Nat) : Keeps P fw (dropBytes w bar n) := by
  unfold Machine.dropBytes
  refine getThen fun s hs => ?_
  split
  · next e => exact set ((Lands.landOn ..).gives _ _ _ _ hs hs e)
  · exact pure _

theorem Intact.acceptAgain {s : State} (h : Intact P fw s) (core i : Nat) (c : Copy) : Intact P fw (s.acceptAgain core i c) := by
  unfold State.acceptAgain
  extract_lets held lay
  have hlay : Keeps P fw lay := .ite (.pure _) <| .bind (Keeps.Copy.record ..) fun ⟨_, _⟩ => .bind (Keeps.Copy.lay ..) fun ⟨_, _⟩ => .pure _
  clear_value lay
  split
  · next e => exact Intact.modCore (Intact.tellCopyFault (hlay.error h e) ..) ..
  · next e => exact hlay.error h e
  · next e =>
    have ht := (hlay.ok h e).acceptCopy
    exact .ite ((ht ..).modCore ..) ((ht ..).modCore ..)

theorem Keeps.cpyretry (a : Reg) : Keeps P fw (cpyretry a) := by
  unfold Machine.cpyretry
  exact waiting <| bind supOnly fun _ => bind (rd ..) fun _ => bind (heldCopy ..) fun ⟨_, _⟩ => ite (modCore ..) <| modify fun _ hs =>
    hs.acceptAgain ..

theorem Keeps.cpyskip (a : Reg) : Keeps P fw (cpyskip a) := by
  unfold Machine.cpyskip
  refine waiting <| bind supOnly fun _ => bind (rd ..) fun _ => bind (heldCopy ..) fun ⟨_, _⟩ => getThen fun _ hs =>
    ite (bind (dropBytes ..) fun _ => ite (modCore ..) <| ite (modify fun _ ht => ht.acceptAgain ..) <| modCore ..) <| setThen hs.update <|
      bind (dropBytes ..) fun _ => ?_
  split
  · exact modify fun _ ht => ht.acceptAgain ..
  · exact modCore ..

theorem Keeps.cpyabort (a : Reg) : Keeps P fw (cpyabort a) := by
  unfold Machine.cpyabort
  exact waiting <| bind supOnly fun _ => bind (rd ..) fun _ => bind (heldCopy ..) fun ⟨_, _⟩ => getThen fun _ hs => when (set hs.update) <|
    bind (dropBytes ..) fun _ => modCore ..

theorem Keeps.parkMe (pc : W64) (p : Park) (again : Bool) : Keeps P fw (parkMe pc p again) := by
  unfold Machine.parkMe
  exact bind (modMe ..) fun _ => bind (modify fun _ hs => hs.park ..) fun _ => pure _

theorem Keeps.nextAddr : Keeps P fw (nextAddr) := by
  unfold Machine.nextAddr
  exact getThen fun _ _ => pure _

theorem Keeps.spawnJoin (pl : Place) (pips : Nat) : Keeps P fw (spawnJoin pl pips) := by
  unfold Machine.spawnJoin
  exact bind whoMe fun _ => bind (modify fun _ hs => hs.performWord ..) fun _ => bind (turnReq ..) fun _ => askTurn ..

theorem Keeps.spawnBegin (a : Reg) : Keeps P fw (spawnBegin a) := by
  unfold Machine.spawnBegin
  refine bind getMe fun me => ?_
  extract_lets +onlyGivenNames unclaimed
  have hunclaimed : ∀ r, Keeps P fw (unclaimed r) := by
    refine fun _ => bind (rd ..) fun _ => when (trapAt ..) <| bind (readMine ..) fun ⟨bs, _⟩ => getThen fun s _ => ?_
    -- The words read are opaque from here on: nothing below looks into them.
    extract_lets +onlyGivenNames w
    clear_value w
    simp only []
    split
    · exact trapThen ..
    · exact when (trapAt ..) <| ite (bind (chargeCaps ..) fun _ => modMe ..) <| bind whoMe fun _ => bind (syncPlace ..) fun ⟨_, _⟩ =>
        bind (chargeCaps ..) fun _ => bind (modMe ..) fun _ => spawnJoin ..
  clear_value unclaimed
  split
  · exact trapThen ..
  · exact hunclaimed _

theorem Intact.spawnEnd {s t : State} (h : Intact P fw s) {core slot len : Nat} {child : Vector W64 8} (e :
    s.spawnEnd core slot len child = some t) : Intact P fw t := by
  unfold State.spawnEnd at e
  dsimp only at e
  obtain ⟨u, e', rfl⟩ := Option.map_eq_some_iff.mp e
  exact ((((((h.pushLocal e')).splitSegment ..).revokeAll ..).takeRef ..).loadSlot ..).modSlot ..

theorem Keeps.spawn (a : Reg) : Keeps P fw (spawn a) := by
  unfold Machine.spawn
  refine bind workOnly fun _ => bind getMe fun _ => when (withPorts fun _ => spawnBegin ..) <| getThen fun _ hs => ?_
  split
  · exact block ..
  · next e =>
    obtain ⟨_, -, e⟩ := Option.bind_eq_some_iff.mp e
    exact setThen (hs.spawnEnd e) <| pure _

theorem Keeps.installWaiter (va : Nat) : Keeps P fw (installWaiter va) := by
  unfold Machine.installWaiter
  exact modify fun _ hs => hs.update

theorem Keeps.tableFull : Keeps P fw (tableFull) := by
  unfold Machine.tableFull
  exact getThen fun _ _ => pure _

theorem Keeps.sync (a : Reg) : Keeps P fw (sync a) := by
  unfold Machine.sync
  exact withPorts fun _ => bind workOnly fun _ => bind (rd ..) fun _ => when (trapAt ..) <| bind tableFull fun _ => when (trapAt ..) <|
    bind whoMe fun _ => bind (checkAccess ..) fun ⟨_, _⟩ => bind (acquireAt ..) fun _ => bind (loadPlace ..) fun _ =>
      bind (chargeCap ..) fun _ => bind (acquireAt ..) fun _ => ite (pure _) <| bind (installWaiter ..) fun _ => bind getMe fun _ =>
        parkMe ..

theorem Keeps.yieldTask : Keeps P fw (yieldTask) := by
  unfold Machine.yieldTask
  exact bind workOnly fun _ => bind nextAddr fun _ => getThen fun _ _ => parkMe ..

theorem Intact.retire {s : State} (h : Intact P fw s) (core slot : Nat) : Intact P fw (s.retire core slot) := by
  unfold State.retire
  exact (((h.splitSegment ..).revokeAll ..).dropRef ..).modCore ..

theorem Keeps.retireReady : Keeps P fw (retireReady) := by
  unfold Machine.retireReady
  exact bind (modify fun _ hs => hs.performSlot ..) fun _ => getThen fun _ _ => ite (throw _) <| pure _

theorem Keeps.texit : Keeps P fw (texit) := by
  unfold Machine.texit
  refine bind workOnly fun _ => bind getMe fun _ => ?_
  extract_lets +onlyGivenNames jp
  have hjp : ∀ r, Keeps P fw (jp r) := fun _ => bind (modify fun _ hs => hs.retire ..) fun _ => pure _
  clear_value jp
  exact ite (getThen fun _ _ => getThen fun _ _ => getThen fun _ _ => when (throw _) <| hjp _) <| bind retireReady fun _ =>
    bind whoMe fun _ => bind (syncPlace ..) fun ⟨_, _⟩ => bind (chargeCap ..) fun _ => bind (turnReq ..) fun _ =>
      bind (askTurn ..) fun _ => hjp _

theorem Keeps.pktget (a : Reg) : Keeps P fw (pktget a) := by
  unfold Machine.pktget
  exact waiting <| bind workOnly fun _ => bind (rd ..) fun _ => when (trapAt ..) <| bind whoMe fun _ => bind getMe fun _ =>
    bind (writeRow ..) fun _ => chargeCaps ..

theorem Intact.afterGrant {s : State} (h : Intact P fw s) (r : TurnReq) : Intact P fw (s.afterGrant r) := by
  unfold State.afterGrant
  split
  · exact h
  · split
    · next e =>
      obtain ⟨_, -, e⟩ := Option.bind_eq_some_iff.mp e
      exact h.spawnEnd e
    · exact h.modSlot ..
  · exact h.retire ..
  · exact h.modSlot ..

theorem Keeps.reservationGrant (loc : Nat) : Keeps P fw (reservationGrant loc) := by
  unfold Machine.reservationGrant
  refine getThen fun _ hs => ?_
  split
  · exact require ..
  · exact bind (require ..) fun _ => set (((hs.setBank ..).turnServe ..).afterGrant ..)

theorem Intact.placeWindow {s : State} (h : Intact P fw s) (core uid world woff wlen : Nat) (bs : List Byte) :
    Intact P fw (s.placeWindow core uid world woff wlen bs) := by
  unfold State.placeWindow
  exact .foldl (fun _ _ hs => hs.setFull ..) (.ite h (h.performWrite ..))

theorem Keeps.readCtxDesc (a : W64) : Keeps P fw (readCtxDesc a) := by
  unfold Machine.readCtxDesc
  exact when (trapAt ..) <| when (trapXlate ..) <| bind (readMine ..) fun ⟨_, _⟩ => pure _

theorem Intact.dropSaved {s : State} (h : Intact P fw s) (world index : Nat) : Intact P fw (s.dropSaved world index) := by
  unfold State.dropSaved
  split
  · exact (h.modWorld ..).dropRef ..
  · exact h

theorem Keeps.imageAddr (ea : W64) : Keeps P fw (imageAddr ea) := by
  unfold Machine.imageAddr
  exact when (trapAt ..) <| ite (trapXlate ..) <| pure _

theorem Keeps.writeImage (w : Who) (ea : W64) (bs : List Byte) (fuel : Nat) : Keeps P fw (writeImage w ea bs fuel) := by
  induction fuel generalizing ea bs with
  | zero => exact pure _
  | succ f ih =>
    exact ite (pure _) <| bind (writePieces ..) fun _ => bind (forM (fun ⟨_, _, _, _⟩ => ite (lineIn ..) <| pure _) _) fun _ =>
      bind (modify fun _ hs => .foldl (fun _ _ ht => ht.performWrite ..) hs) fun _ => ih ..

theorem Keeps.imageWordsFree (w : Who) (ea : W64) (n : Nat) : Keeps P fw (imageWordsFree w ea n) := by
  unfold Machine.imageWordsFree
  refine getThen fun _ _ => ?_
  split
  · next _ t e => exact ite (block ..) <| pure _
  · next _ t e => exact pure _

theorem Keeps.ctxout (d a : Reg) : Keeps P fw (ctxout d a) := by
  unfold Machine.ctxout
  refine waiting <| bind supOnly fun _ => bind (rd ..) fun _ => bind (readCtxDesc ..) fun ⟨_, _⟩ => getThen fun _ _ => getThen fun _ _ => ?_
  split
  · exact trapAt ..
  · exact when (trapAt ..) <| when (trapAt ..) <| bind (imageAddr ..) fun _ => bind releaseAll fun _ => bind whoMe fun _ =>
    getThen fun _ _ => ite (bind (chargeCaps ..) fun _ => wr ..) <| when (trapAt ..) <| bind (imageWordsFree ..) fun _ =>
      bind (modify fun _ hv => (((hv.unwait ..).modWorld ..).dropSaved ..).modCore ..) fun _ => getThen fun _ _ =>
        bind (writeImage ..) fun _ => bind (chargeCaps ..) fun _ => bind (writeImage ..) fun _ => bind (modify fun _ hw =>
          (hw.modWorld ..).modCore ..) fun _ => wr ..

theorem Keeps.ctxin (d a : Reg) : Keeps P fw (ctxin d a) := by
  unfold Machine.ctxin
  refine waiting <| bind supOnly fun _ => bind (rd ..) fun _ => bind (readCtxDesc ..) fun ⟨_, _⟩ => getThen fun _ _ => when (trapAt ..) <|
    bind (imageAddr ..) fun _ => bind whoMe fun _ => getThen fun _ _ => ?_
  split
  · exact bind (chargeCaps ..) fun _ => wr ..
  · refine getThen fun _ _ => when (trapAt ..) <| bind (engineRead ..) fun _ => ?_
    dsimp only
    split
    · exact trapAt ..
    · refine when (trapAt ..) <| getThen fun _ _ => ?_
      split
      · exact bind (chargeCaps ..) fun _ => wr ..
      · exact getThen fun _ _ => when (trapAt ..) <| bind (engineRead ..) fun _ => getThen fun _ _ => when (trapAt ..) <|
        getThen fun _ _ => bind (modify fun _ hz =>
          ((((hz.update.modWorld ..).placeWindow ..).modCore ..).takeRef ..).dropSaved ..) fun _ => bind (chargeCaps ..) fun _ => wr ..

theorem Intact.launchPush {s t : State} (h : Intact P fw s) {w : Nat} {words : Vector W64 8} (e : s.launchPush w words = some t) :
    Intact P fw t := by
  unfold State.launchPush at e
  dsimp only at e
  split at e
  · cases e
  · split at e
    · split at e
      · next s e' =>
          cases e
          exact (h.launchPut e')
      · split at e
        · cases e
          exact (h.queueWrite ..).modWorld ..
        · cases e
    · split at e
      · cases e
        exact (h.queueWrite ..).modWorld ..
      · cases e


end

end Sys2Proof.Machine
end

section
/-! Intact: host commands, logs, and engines. -/

-- One declaration after another: checked side by side, these take more threads than the memory of the check holds.
set_option Elab.async false

namespace Sys2Proof.Machine

section
variable {P : Prop} {fw : Matrices}

theorem Intact.hostWrite {s : State} (h : Intact P fw s) (addr : Nat) (bs : List Byte) : Intact P fw (s.hostWrite addr bs) := by
  unfold State.hostWrite
  exact .ite ((h.setCells ..).triggerWatches ..) h

theorem Keeps.hostTlp {fn : Nat} {key : Option Nat} {m : M Unit} (hm : Keeps P fw m) : Keeps P fw (hostTlp fn key m) := by
  unfold Machine.hostTlp
  exact getThen fun _ hs => ite hm <| set (hs.tdiError ..)

/-- A command's effect is one of two. -/
theorem Intact.iteEnd {α : Type} {c : Prop} [Decidable c] {a b : α × State} (ha : Intact P fw a.2) (hb : Intact P fw b.2) :
    Intact P fw (if c then a else b).2 := by
  split
  · exact ha
  · exact hb

theorem Intact.fails {s : State} (h : Intact P fw s) (code : Byte) : Intact P fw (s.fails code).2 := h

theorem Intact.succeeds {s : State} (h : Intact P fw s) (result : Nat) : Intact P fw (s.succeeds result).2 := h

theorem Keeps.issueCmd {c : Cmd} {op world : Nat} {effect : State → Effect} (he : ∀ s, Intact P fw s → Intact P fw (effect s).2) :
    Keeps P fw (issueCmd c op world effect) := by
  unfold Machine.issueCmd
  refine hostTlp (getThen fun s hs => bind (require ..) fun _ => ?_)
  refine set (.modFn ?_ ..)
  have h1 := hs.modFn c.fn fun f =>
    { f with block := f.block.set 0 c.c0, code := Code.busy, tag := (c.c0 >>> 16).setWidth 16, lost := false, result := 0 }
  exact .iteEnd (h1.fails _) <| .iteEnd (h1.fails _) <| .iteEnd (h1.fails _) <| .iteEnd (h1.fails _) <| .iteEnd (h1.fails _) <| he _ h1

theorem Intact.complete {s : State} (h : Intact P fw s) (fn : Nat) (p : Pending) (code : Byte) (result : W32) :
    Intact P fw (s.complete fn p code result) := by
  unfold State.complete
  exact .ite (h.modFn ..) ((h.modFn ..).hostWrite ..)

theorem Intact.addPrincipal {s : State} (h : Intact P fw s) (world id : Nat) : Intact P fw (s.addPrincipal world id).2 := by
  unfold State.addPrincipal
  refine .iteEnd (h.fails _) <| .iteEnd (h.fails _) <| .iteEnd (h.fails _) ?_
  split
  · exact h.fails _
  · next e => exact ((h.intern e).setPrincipal ..).succeeds _

theorem Keeps.commandCompletion (fn : Nat) : Keeps P fw (commandCompletion fn) := by
  unfold Machine.commandCompletion
  refine getThen fun _ hs => ?_
  split
  · exact require ..
  · split
    · exact set (hs.complete ..)
    · refine bind (require ..) fun _ => ?_
      split
      · next _ _ t e2 => exact set (((hs.addPrincipal ..).of_snd e2).complete ..)
      · exact require ..
    · exact require ..

theorem Intact.debugAttach {s : State} (h : Intact P fw s) (w : Nat) (on : Bool) : Intact P fw (s.debugAttach w on) := by
  unfold State.debugAttach
  exact .ite (h.modWorld ..) h.update

theorem Keeps.debugCmd {c : Cmd} {v : W64} {other : Bool} : Keeps P fw (debugCmd c v other) := by
  unfold Machine.debugCmd
  refine getThen fun _ _ => bind (require ..) fun _ => issueCmd fun s hs => ?_
  exact .iteEnd (hs.fails _) <| .iteEnd (hs.fails _) <| (hs.debugAttach ..).succeeds _

theorem Intact.lineWrite {s : State} (h : Intact P fw s) (key loc : Nat) (bs : List Byte) : Intact P fw (s.lineWrite key loc bs) := by
  unfold State.lineWrite
  exact ((Intact.foldl (fun _ _ hs => (hs.update.sealLine ..).mscTouch ..) h).setCells ..).triggerWatches ..

theorem Intact.deviceWrite {s : State} (h : Intact P fw s) (world loc : Nat) (bs : List Byte) :
    Intact P fw (s.deviceWrite world loc bs) := by
  unfold State.deviceWrite
  exact .ite h (h.lineWrite ..)

theorem Intact.copyLines {s : State} (h : Intact P fw s) (w src dst j i : Nat) : Intact P fw (copyLines w src dst j i s) := by
  induction i generalizing j s with
  | zero => exact h
  | succ i ih =>
    rw [Machine.copyLines]
    refine ih ?_ _
    split
    · exact h.deviceWrite ..
    · exact h

theorem Keeps.logTarget (w : Who) (ea : W64) : Keeps P fw (logTarget w ea) := by
  unfold Machine.logTarget
  exact when (trapAt ..) <| when (trapXlate ..) <| bind (locate ..) fun _ => when (trapXlate ..) <| bind (authorize ..) fun _ =>
    bind (firewall ..) fun _ => bind (lineIn ..) fun _ => pure _

theorem Intact.growLog {s t : State} (h : Intact P fw s) {w domain : Nat} (e : s.growLog w domain = some t) : Intact P fw t := by
  unfold State.growLog at e
  dsimp only at e
  split at e
  · cases e
    exact h
  · split at e
    · cases e
      exact h.modWorld ..
    · split at e
      · exact (h.modWorld ..).swapLog e
      · cases e

theorem Intact.trimLog {s : State} (h : Intact P fw s) (w domain : Nat) : Intact P fw (s.trimLog w domain) := by
  unfold State.trimLog
  exact h.modWorld ..

theorem Keeps.logRoom (w : Who) (ea : W64) : Keeps P fw (logRoom w ea) := by
  refine ⟨fun s hs => ?_⟩
  unfold Machine.logRoom
  split
  · split
    · exact hs
    · exact hs
  · exact hs

theorem Lands.bind {β : Type} {land : State → M State} (h : Lands P fw land) {s : State} (hs : Intact P fw s) {f : State → M β}
    (hf : ∀ t, Intact P fw t → Keeps P fw (f t)) : Keeps P fw (land s >>= f) := by
  refine ⟨fun u hu => ?_⟩
  rw [M.bind_apply]
  cases e : land s u with
  | ok t v => exact (hf t (h.gives s u t v hs hu e)).after v ((h.keeps s).ok hu e)
  | error x v => exact (h.keeps s).error hu e

theorem Keeps.placeRecord (w : Who) (pl : Place) (v : W64) (op : Nat) (bar : Option W64) : Keeps P fw (placeRecord w pl v op bar) := by
  unfold Machine.placeRecord
  refine getThen fun _ hs => (Lands.landOn ..).bind hs fun u hu => ?_
  dsimp only
  split
  · exact block ..
  · next t e => exact set (((hu.growLog e).modWorld ..).modCore ..)

theorem Keeps.append (d a : Reg) (op : BitVec 4) : Keeps P fw (append d a op) := by
  unfold Machine.append
  exact waiting <| bind (rd ..) fun _ => bind (rd ..) fun _ => bind whoMe fun _ => bind (logRoom ..) fun _ =>
    bind (logTarget ..) fun ⟨_, _⟩ => bind (placeRecord ..) fun _ => chargeCap ..

theorem Keeps.appendOne (w : Who) (ea : W64) : Keeps P fw (appendOne w ea) := by
  unfold Machine.appendOne
  exact bind (readSpan ..) fun ⟨_, _⟩ => when (trapAt ..) <| when (trapAt ..) <| bind (logRoom ..) fun _ =>
    bind (logTarget ..) fun ⟨_, _⟩ => bind (placeRecord ..) fun _ => chargeCaps ..

theorem Keeps.appendf (d a : Reg) : Keeps P fw (appendf d a) := by
  unfold Machine.appendf
  exact waiting <| bind (rd ..) fun _ => bind (rd ..) fun _ => bind whoMe fun _ => when (trapAt ..) <| when (trapAt ..) <|
    when (trapXlate ..) <| bind (resumeRow ..) fun _ => bind clearPend fun _ => forM (fun _ => guardRow (atRow (appendOne ..))) _

theorem Intact.startMerge {s : State} (h : Intact P fw s) (world domain core slot : Nat) :
    Intact P fw (s.startMerge world domain core slot) := by
  unfold State.startMerge
  exact (h.modWorld ..).chargeSlot ..

theorem Keeps.merge (d a : Reg) : Keeps P fw (merge d a) := by
  unfold Machine.merge
  exact waiting <| bind (rd ..) fun _ => when (trapAt ..) <| bind (modify fun _ hs => hs.startMerge ..) fun _ => getThen fun _ _ => wr ..

theorem Intact.homeWrite {s : State} (h : Intact P fw s) (world : Nat) (cells : List Host.Cell) :
    Intact P fw (s.homeWrite world cells) := by
  unfold State.homeWrite
  exact .ite h (((Intact.foldl (fun _ _ hs => (hs.update.sealLine ..).mscTouch ..) h).setCells ..).triggerWatches ..)

theorem Intact.applyRecs {s : State} (h : Intact P fw s) (world : Nat) (l : List LogRec) : Intact P fw (applyRecs world l s).2 := by
  induction l generalizing s with
  | nil => exact h
  | cons r rest ih =>
    rw [Machine.applyRecs]
    exact .iteEnd (ih (h.homeWrite ..)) h

theorem Keeps.logMergeRun (world domain : Nat) : Keeps P fw (logMergeRun world domain) := by
  unfold Machine.logMergeRun
  refine getThen fun _ hs => ?_
  dsimp only
  split
  · exact require ..
  · exact bind (require ..) fun _ => set ((((hs.applyRecs ..)).modWorld ..).trimLog ..)

theorem Keeps.mergew (d a : Reg) : Keeps P fw (mergew d a) := by
  unfold Machine.mergew
  refine waiting <| bind (rd ..) fun _ => getThen fun _ _ => when (trapAt ..) <| when (block ..) <| bind (acquireAt ..) fun _ => ?_
  split
  · exact wr ..
  · exact wr ..

theorem Intact.postResult {s : State} (h : Intact P fw s) (c : EngCmd) (status v : Nat) : Intact P fw (s.postResult c status v) := by
  unfold State.postResult
  exact .ite (h.update.deliverEngine ..) h.update

theorem Intact.endCmd {s : State} (h : Intact P fw s) (k : Nat) (c : EngCmd) (status v : Nat) : Intact P fw (s.endCmd k c status v) := by
  unfold State.endCmd
  exact h.update.postResult ..

theorem Intact.chargeCmd {s : State} (h : Intact P fw s) (c : EngCmd) (pips : Nat) : Intact P fw (s.chargeCmd c pips) := by
  unfold State.chargeCmd
  exact h.chargeCtx ..

theorem Intact.chargeCmdCaps {s : State} (h : Intact P fw s) (c : EngCmd) (caps : List Cap) : Intact P fw (s.chargeCmdCaps c caps) := by
  unfold State.chargeCmdCaps
  exact h.chargeCtxCaps ..

theorem Keeps.attempt {α : Type} {m : M α} (hm : Keeps P fw m) : Keeps P fw (attempt m) := by
  refine ⟨fun s hs => ?_⟩
  unfold Machine.attempt
  split
  · next e => exact hm.ok hs e
  · next e => exact hm.error hs e
  · next e => exact hm.error hs e

theorem Keeps.cmdAt (k engine opcode : Nat) : Keeps P fw (cmdAt k engine opcode) := by
  unfold Machine.cmdAt
  refine getThen fun _ _ => ?_
  split
  · exact throw _
  · exact bind (require ..) fun _ => pure _

theorem Keeps.setCmd (k : Nat) (c : EngCmd) : Keeps P fw (setCmd k c) := by
  unfold Machine.setCmd
  exact modify fun _ hs => hs.update

theorem Keeps.queueCmd (c : EngCmd) : Keeps P fw (queueCmd c) := by
  unfold Machine.queueCmd
  exact modify fun _ hs => hs.update

theorem Keeps.acceptE0 (c : EngCmd) : Keeps P fw (acceptE0 c) := by
  unfold Machine.acceptE0
  exact bind (modify fun _ hs => hs.startMerge ..) fun _ => getThen fun _ _ => queueCmd ..

theorem Keeps.e0Merge (k : Nat) : Keeps P fw (e0Merge k) := by
  unfold Machine.e0Merge
  exact bind (cmdAt ..) fun _ => getThen fun _ hs => bind (require ..) fun _ => set (hs.endCmd ..)

theorem Keeps.engineWindow (ea : W64) : Keeps P fw (engineWindow ea) := by
  unfold Machine.engineWindow
  exact ite (trapXlate ..) <| pure _

theorem Keeps.gatherChecks (c : EngCmd) : Keeps P fw (gatherChecks c) := by
  unfold Machine.gatherChecks
  exact bind (readLayoutAs ..) fun ⟨_, _⟩ => when (trapAt ..) <| bind (engineWindow ..) fun _ => when (trapAt ..) <|
    bind (engineWindow ..) fun _ => bind (rangeOf ..) fun _ => bind (rangeOf ..) fun _ => pure _

theorem Keeps.acceptE3 (c : EngCmd) : Keeps P fw (acceptE3 c) := by
  unfold Machine.acceptE3
  refine bind (attempt (gatherChecks ..)) fun _ => ?_
  split
  · exact modify fun _ hs => hs.postResult ..
  · exact bind (modify fun _ hs => (hs.chargeCmdCaps ..).chargeCmd ..) fun _ => queueCmd ..

theorem Keeps.gatherRow (c : EngCmd) (i : Nat) : Keeps P fw (gatherRow c i) := by
  unfold Machine.gatherRow
  exact bind (engineRead ..) fun _ => when (trapAt ..) <| bind (engineSpan ..) fun ⟨_, _⟩ => bind (engineWrite .pure) fun _ => pure _

theorem Keeps.gather (k : Nat) : Keeps P fw (gather k) := by
  unfold Machine.gather
  refine bind (cmdAt ..) fun _ => bind (attempt (gatherRow ..)) fun _ => ?_
  split
  · exact modify fun _ hs => hs.endCmd ..
  · exact bind (modify fun _ hs => hs.chargeCmdCaps ..) fun _ => ite (modify fun _ hs => hs.endCmd ..) <| setCmd ..

theorem Keeps.epop (d : Reg) (e : Num2) : Keeps P fw (epop d e) := by
  unfold Machine.epop
  refine waiting <| bind getMe fun _ => ?_
  dsimp only
  split
  · exact block ..
  · exact bind (modMe ..) fun _ => bind (modify fun _ hs => hs.deliverEngine ..) fun _ => bind (acquireAt ..) fun _ => wr ..

theorem Keeps.eqry (d : Reg) (e : Num2) : Keeps P fw (eqry d e) := by
  unfold Machine.eqry
  exact waiting <| bind getMe fun _ => wr ..


end

end Sys2Proof.Machine
end

section
/-! Intact: the collective engine and the links. -/

-- One declaration after another: checked side by side, these take more threads than the memory of the check holds.
set_option Elab.async false

namespace Sys2Proof.Machine

section
variable {P : Prop} {fw : Matrices}

theorem Intact.sendOn {s : State} (h : Intact P fw s) (p world kind group : Nat) (bs : List Byte) :
    Intact P fw (s.sendOn p world kind group bs) := by
  unfold State.sendOn
  exact h.modPort ..

theorem Intact.flow {s : State} (h : Intact P fw s) (port : Nat) : Intact P fw (s.flow port) := by
  unfold State.flow
  exact h.setPort ..

theorem Intact.flowOn {s : State} (h : Intact P fw s) (ports : List Nat) : Intact P fw (s.flowOn ports) := by
  unfold State.flowOn
  exact .foldl (fun _ _ hs => hs.flow ..) h

theorem Intact.failCmd {s : State} (h : Intact P fw s) (k : Nat) (c : EngCmd) (code : Nat) (silent : Option Nat) :
    Intact P fw (s.failCmd k c code silent) := by
  unfold State.failCmd
  exact .ite (.foldl (fun _ _ hs => (hs.modPort ..).flow ..) (h.endCmd ..)) (h.endCmd ..)

theorem Intact.notice {s : State} (h : Intact P fw s) (port world group n code : Nat) : Intact P fw (s.notice port world group n code) := by
  unfold State.notice
  dsimp only
  split
  · exact (h.modPort ..).failCmd ..
  · exact .ite (h.modPort ..) ((h.modPort ..).modPort ..)

theorem Keeps.collectiveFailureNotice (port world group n code : Nat) : Keeps P fw (collectiveFailureNotice port world group n code) := by
  unfold Machine.collectiveFailureNotice
  exact getThen fun _ _ => bind (require ..) fun _ => modify fun _ ht => ht.notice ..

theorem Intact.failOn {s : State} (h : Intact P fw s) (port : Nat) (uid : EngCmd) : Intact P fw (State.failOn port s uid) := by
  unfold State.failOn
  split
  · exact h
  · exact .ite (h.failCmd ..) ((h.failCmd ..).modPort ..)

theorem Intact.downLink {s : State} (h : Intact P fw s) (port : Nat) : Intact P fw (s.downLink port) := by
  unfold State.downLink
  exact .foldl (fun _ _ hs => hs.failOn ..) (h.modPort ..)

theorem Keeps.linkDown (port : Nat) : Keeps P fw (linkDown port) := by
  unfold Machine.linkDown
  exact getThen fun _ _ => bind (require ..) fun _ => modify fun _ ht => ht.downLink ..

theorem Intact.join {s : State} (h : Intact P fw s) (port world group off : Nat) (bs : List Byte) :
    Intact P fw (s.join port world group off bs) := by
  unfold State.join
  exact .ite (.ite (h.modPort ..) (h.modPort ..)) (h.modPort ..)

theorem Intact.offerWords {s t : State} (h : Intact P fw s) {w : Nat} {words : Vector W64 8} (e : s.offerWords w words = .accepted t) :
    Intact P fw t := by
  unfold State.offerWords at e
  split at e
  · cases e
  · split at e
    · next hp =>
      cases e
      exact (h.launchPush hp).takeRef ..
    · cases e

theorem Intact.offer {s t : State} (h : Intact P fw s) {w : Nat} {bs : List Byte} (e : s.offer w bs = .accepted t) : Intact P fw t :=
  h.offerWords e

theorem Intact.pktArrives {s : State} (h : Intact P fw s) (port world off : Nat) (bs : List Byte) :
    Intact P fw (s.pktArrives port world off bs) := by
  unfold State.pktArrives
  refine .ite (h.modPort ..) ?_
  dsimp only
  split
  · next s e => exact ((h.modPort ..).offer e)
  · exact (h.modPort ..).modPort ..

theorem Intact.manage {s : State} (h : Intact P fw s) (port : Nat) (bs : List Byte) : Intact P fw (s.manage port bs) := by
  unfold State.manage
  dsimp only
  split
  · exact h.notice ..
  · exact (h.modPort ..).refreshBindings
  · exact h

theorem Intact.release {s : State} (h : Intact P fw s) (port : Nat) (f : W64 × List Byte) : Intact P fw (s.release port f) := by
  unfold State.release
  dsimp only
  split
  · exact .ite ((h.join ..).flow ..) (h.modPort ..)
  · exact .ite ((h.pktArrives ..).flow ..) (h.modPort ..)
  · exact h.manage ..

theorem Intact.loseFlit {s : State} (h : Intact P fw s) (port world group off : Nat) : Intact P fw (s.loseFlit port world group off) := by
  unfold State.loseFlit
  refine .ite ?_ ?_
  · refine .ite (h.modPort ..) ?_
    split
    · exact h.failCmd ..
    · exact h.modPort ..
  · split
    · exact h
    · split
      · exact h.failCmd ..
      · exact h.modPort ..

theorem Intact.dropRetired {s : State} (h : Intact P fw s) (port : Nat) (f : Flit) : Intact P fw (s.dropRetired port f) := by
  unfold State.dropRetired
  dsimp only
  split
  · exact h.loseFlit ..
  · exact h.modPort ..
  · exact h

theorem Intact.checkGens {s : State} (h : Intact P fw s) (port : Nat) : Intact P fw (s.checkGens port) := by
  unfold State.checkGens
  exact .ite (h.downLink ..) h

theorem Intact.retireRx {s : State} (h : Intact P fw s) (port g : Nat) : Intact P fw (s.retireRx port g) := by
  unfold State.retireRx
  exact (h.modPort ..).checkGens ..

theorem Intact.setPaused {s : State} (h : Intact P fw s) (port : Nat) (paused : Bool) : Intact P fw (s.setPaused port paused) := by
  unfold State.setPaused
  exact h.modPort ..

theorem Keeps.flitReceive (port : Nat) (fs : List Flit) : Keeps P fw (flitReceive port fs) := by
  unfold Machine.flitReceive
  refine getThen fun _ hs => bind (require ..) fun _ => ?_
  split
  · exact require ..
  · refine ite ?_ <| ?_
    · refine bind (require ..) fun _ => set ?_
      split
      · exact hs.retireRx ..
      · exact hs.setPaused ..
      · exact hs.setPaused ..
      · exact hs.modPort ..
    · refine ite (set (.foldl (fun _ _ ht => ht.dropRetired ..) hs)) <| ?_
      split
      · exact set (.foldl (fun _ _ ht => ht.release ..) (hs.modPort ..))
      · exact set ((hs.modPort ..).downLink ..)

theorem Keeps.pauseLink (port : Nat) (paused : Bool) : Keeps P fw (pauseLink port paused) := by
  unfold Machine.pauseLink
  exact getThen fun _ _ => bind (require ..) fun _ => modify fun _ ht => ht.setPaused ..

theorem Keeps.retireFlit (port : Nat) (gen : Bool) : Keeps P fw (retireFlit port gen) := by
  unfold Machine.retireFlit
  exact getThen fun _ _ => bind (require ..) fun _ => modify fun _ ht => ht.retireRx ..

theorem Keeps.linkUp (port : Nat) (r : PeerReport) : Keeps P fw (linkUp port r) := by
  unfold Machine.linkUp
  exact getThen fun _ hs => bind (require ..) fun _ => set hs.update.refreshBindings

theorem Keeps.linkKeyRotation (port : Nat) : Keeps P fw (linkKeyRotation port) := by
  unfold Machine.linkKeyRotation
  exact getThen fun _ hs => bind (require ..) fun _ => set hs.update

theorem Keeps.linkKeyGenerationExpiry (port : Nat) (rx gen : Bool) : Keeps P fw (linkKeyGenerationExpiry port rx gen) := by
  unfold Machine.linkKeyGenerationExpiry
  exact getThen fun _ hs => bind (require ..) fun _ => set ((hs.modPort ..).checkGens ..)

theorem Keeps.oneCap (w : Who) (kind : Kind) (ea : W64) (n : Nat) : Keeps P fw (oneCap w kind ea n) := by
  unfold Machine.oneCap
  exact bind (authorize ..) fun _ => when (trapAt ..) <| pure _

theorem Keeps.e2Checks (c : EngCmd) : Keeps P fw (e2Checks c) := by
  unfold Machine.e2Checks
  dsimp only
  split
  · exact bind (oneCap ..) fun _ => pure _
  · exact bind (oneCap ..) fun _ => pure _
  · exact when (trapAt ..) <| bind (oneCap ..) fun _ => pure _
  · exact when (trapAt ..) <| bind (oneCap ..) fun _ => bind (engineRead ..) fun _ => when (trapAt ..) <| when (trapAt ..) <|
    bind (oneCap ..) fun _ => bind (oneCap ..) fun _ => pure _

theorem Intact.queueTree {s : State} (h : Intact P fw s) (c : EngCmd) : Intact P fw (s.queueTree c) := by
  unfold State.queueTree
  exact .ite ((Intact.foldl (fun _ _ hs => hs.modPort ..) h.update).flowOn ..) (h.update.flowOn ..)

theorem Keeps.acceptE2 (c : EngCmd) : Keeps P fw (acceptE2 c) := by
  unfold Machine.acceptE2
  refine bind (attempt (e2Checks ..)) fun _ => ?_
  split
  · exact modify fun _ hs => hs.postResult ..
  · exact bind (modify fun _ hs => .ite ((hs.chargeCmdCaps ..).chargeCmd ..) (hs.chargeCmdCaps ..)) fun _ => modify fun _ hs =>
    hs.queueTree ..

theorem Intact.sendAll {s : State} (h : Intact P fw s) (c : EngCmd) (ports : List Nat) (bs : List Byte) :
    Intact P fw (s.sendAll c ports bs) := by
  unfold State.sendAll
  exact .foldl (fun _ _ hs => hs.sendOn ..) h

theorem Keeps.arrivals (c : EngCmd) (ports : List Nat) : Keeps P fw (arrivals c ports) := by
  unfold Machine.arrivals
  refine getThen fun _ _ => ?_
  dsimp only
  split
  · exact pure _
  · exact bind (require ..) fun _ => pure _

theorem Intact.consume {s : State} (h : Intact P fw s) (c : EngCmd) (ports : List Nat) : Intact P fw (s.consume c ports) := by
  unfold State.consume
  exact .foldl (fun _ _ hs => (hs.modPort ..).flow ..) h

theorem Keeps.deliver (k : Nat) (c : EngCmd) (result : List Byte) : Keeps P fw (deliver k c result) := by
  unfold Machine.deliver
  refine bind (attempt (engineWrite .pure)) fun _ => ?_
  split
  · exact modify fun _ hs => hs.endCmd ..
  · exact modify fun _ hs => (hs.chargeCmd ..).endCmd ..

theorem Keeps.collectUp (k : Nat) (c : EngCmd) (kids : List RxData) : Keeps P fw (collectUp k c kids) := by
  unfold Machine.collectUp
  refine ite (modify fun _ hs => hs.failCmd ..) <| bind (attempt (engineRead ..)) fun _ => ?_
  split
  · exact modify fun _ hs => hs.failCmd ..
  · exact getThen fun _ _ => bind (require ..) fun _ => bind (modify fun _ ht => ((ht.consume ..).chargeCmd ..).sendAll ..) fun _ =>
    ite (deliver ..) <| setCmd ..

theorem Keeps.collectDown (k : Nat) (c : EngCmd) (rs : List RxData) : Keeps P fw (collectDown k c rs) := by
  unfold Machine.collectDown
  exact ite (modify fun _ hs => hs.failCmd ..) <| getThen fun _ _ => bind (require ..) fun _ => bind (modify fun _ ht =>
    (ht.consume ..).sendAll ..) fun _ => deliver ..

theorem Keeps.collective (k op : Nat) : Keeps P fw (collective k op) := by
  unfold Machine.collective
  refine bind (cmdAt ..) fun _ => getThen fun _ _ => bind (require ..) fun _ => ?_
  extract_lets +onlyGivenNames jp
  have hjp : ∀ r, Keeps P fw (jp r) := fun _ => modify fun _ ht => ht.failCmd ..
  clear_value jp
  refine ite ?_ <| ?_
  · refine bind (arrivals ..) fun _ => ?_
    split
    · exact hjp _
    · exact collectUp ..
  · refine bind (arrivals ..) fun _ => ?_
    split
    · exact hjp _
    · exact collectDown ..

theorem Keeps.firstOnPort (k : Nat) (c : EngCmd) : Keeps P fw (firstOnPort k c) := by
  unfold Machine.firstOnPort
  exact getThen fun _ _ => require ..

theorem Keeps.sendData (k : Nat) : Keeps P fw (sendData k) := by
  unfold Machine.sendData
  refine bind (cmdAt ..) fun _ => bind (firstOnPort ..) fun _ => getThen fun _ _ => getThen fun _ _ => bind (require ..) fun _ =>
    bind (attempt (engineRead ..)) fun _ => ?_
  split
  · exact modify fun _ hu => hu.endCmd ..
  · exact modify fun _ hu => ((hu.sendOn ..).chargeCmd ..).endCmd ..

theorem Keeps.recvData (k : Nat) : Keeps P fw (recvData k) := by
  unfold Machine.recvData
  refine bind (cmdAt ..) fun _ => bind (firstOnPort ..) fun _ => getThen fun _ _ => ?_
  split
  · exact require ..
  · refine bind (require ..) fun _ => bind (modify fun _ ht => ht.modPort ..) fun _ => ite (bind (modify fun _ ht => ht.endCmd ..) fun _ =>
    modify fun _ ht => ht.flow ..) <| ite (bind (modify fun _ ht => ht.endCmd ..) fun _ => modify fun _ ht => ht.flow ..) <|
      bind (attempt (engineWrite .pure)) fun _ => ?_
    split
    · exact bind (modify fun _ ht => ht.endCmd ..) fun _ => modify fun _ ht => ht.flow ..
    · exact bind (modify fun _ ht => (ht.chargeCmd ..).endCmd ..) fun _ => modify fun _ ht => ht.flow ..

theorem Keeps.pktSend (k : Nat) : Keeps P fw (pktSend k) := by
  unfold Machine.pktSend
  refine bind (cmdAt ..) fun _ => getThen fun _ _ => getThen fun _ _ => bind (require ..) fun _ => bind (attempt (engineRead ..)) fun _ =>
    ?_
  split
  · exact modify fun _ hu => hu.endCmd ..
  · exact modify fun _ hu => ((hu.sendOn ..).chargeCmd ..).endCmd ..


end

end Sys2Proof.Machine
end

section
/-! Intact: worlds, checkpoints, the Domino engine, messages, security, and power. -/

-- One declaration after another: checked side by side, these take more threads than the memory of the check holds.
set_option Elab.async false

namespace Sys2Proof.Machine

section
variable {P : Prop} {fw : Matrices}

theorem Intact.zeroRange {s : State} (h : Intact P fw s) (lo n : Nat) : Intact P fw (s.zeroRange lo n) :=
  h.filterMem (fun e => !inRange lo n e.1) rfl rfl

theorem Intact.zeroCore {s : State} (h : Intact P fw s) (w c : Nat) : Intact P fw (State.zeroCore w s c) := by
  unfold State.zeroCore
  have ht := ((h.zeroRange (spadLoc c 0) (2 ^ 18)).zeroRange (clusterLoc c 0) (2 ^ 17)).zeroRange (ctrlLoc c 0) 0x200
  dsimp only
  generalize ((s.zeroRange (spadLoc c 0) (2 ^ 18)).zeroRange (clusterLoc c 0) (2 ^ 17)).zeroRange (ctrlLoc c 0) 0x200 = t at ht ⊢
  exact ht.update

theorem Intact.zeroChip {s : State} (h : Intact P fw s) (l : List Extent) : Intact P fw (s.zeroChip l) := by
  unfold State.zeroChip
  exact .foldl (fun _ _ hs => hs.zeroRange ..) h

theorem Intact.newWorld {s : State} (h : Intact P fw s) (w : Nat) (l : List Extent) (weight ring : Nat) (debug : Bool) :
    Intact P fw (s.newWorld w l weight ring debug) := by
  unfold State.newWorld
  exact .ite (h.modWorld ..) h.update

theorem Intact.openWays {s : State} (h : Intact P fw s) (w : Nat) : Intact P fw (s.openWays w) := by
  unfold State.openWays
  exact h.update

theorem Intact.worldCreate {s : State} (h : Intact P fw s) (c : Cmd) : Intact P fw (worldCreate c s).2 := by
  unfold Machine.worldCreate
  refine .iteEnd (h.fails _) <| .iteEnd (h.fails _) <| .iteEnd (h.fails _) ?_
  dsimp only
  split
  · exact h.fails _
  · refine .iteEnd (h.fails _) <| Intact.refreshBindings <| Intact.zeroChip ?_ _
    exact .foldl (fun _ _ ht => ht.zeroCore ..) ((h.newWorld ..).openWays ..)

theorem Intact.dropLaunched {s : State} (h : Intact P fw s) (w : Nat) : Intact P fw (s.dropLaunched w) := by
  unfold State.dropLaunched
  exact .foldl (fun _ _ hs => hs.dropRef ..) (h.modWorld ..)

theorem Intact.discardWork {s : State} (h : Intact P fw s) (w : Nat) : Intact P fw (s.discardWork w) := by
  unfold State.discardWork
  extract_lets cs mine ctxs uids refs s1 s2
  have h1 : Intact P fw s1 := .foldl (fun _ _ hs => hs.revokeAll ..) h
  have h2 : Intact P fw s2 := Intact.dropLaunched (.foldl (fun _ _ hs => hs.dropRef ..) h1) w
  clear_value s2
  exact h2.update

theorem Intact.zeroWorld {s : State} (h : Intact P fw s) (w : Nat) : Intact P fw (s.zeroWorld w) := by
  unfold State.zeroWorld
  extract_lets t
  have ht : Intact P fw t := Intact.zeroChip (.foldl (fun _ _ hs => hs.zeroCore ..) h) _
  clear_value t
  exact ht.update

theorem Intact.tearDown {s0 : State} (h : Intact P fw s0) (w : Nat) : Intact P fw (s0.tearDown w) := by
  unfold State.tearDown
  have hs : Intact P fw ((s0.dropLaunched w).openWays w) := (h.dropLaunched w).openWays w
  generalize s0.dropLaunched w = s at hs ⊢
  refine Intact.refreshBindings (.ite (.modFn (.ite ?_ ?_) ..) (.ite (.ite ?_ ?_) (.modFn (.ite ?_ ?_) ..)))
  all_goals exact hs.of_eq rfl rfl

theorem Intact.worldDestroy {s : State} (h : Intact P fw s) (c : Cmd) : Intact P fw (worldDestroy c s).2 := by
  unfold Machine.worldDestroy
  refine .iteEnd (h.fails _) <| .iteEnd (h.fails _) <| .iteEnd (h.fails _) ?_
  have h1 : Intact P fw (if (s.world (s.cmdWord c.fn 1).toNat).stopped then s else
      (s.stopWorld (s.cmdWord c.fn 1).toNat Cause.tdiStop none).tdiFails (s.world (s.cmdWord c.fn 1).toNat).tdi) :=
    .ite h ((h.stopWorld ..).tdiFails ..)
  dsimp only
  generalize (if (s.world (s.cmdWord c.fn 1).toNat).stopped then s else
      (s.stopWorld (s.cmdWord c.fn 1).toNat Cause.tdiStop none).tdiFails (s.world (s.cmdWord c.fn 1).toNat).tdi) = t at h1 ⊢
  have h2 := (h1.discardWork (s.cmdWord c.fn 1).toNat).zeroWorld (s.cmdWord c.fn 1).toNat
  exact .iteEnd (h2.tearDown ..) h2

theorem Intact.zeroed {s : State} (h : Intact P fw s) (core fn : Nat) : Intact P fw (zeroed core s fn) := by
  unfold Machine.zeroed
  split
  · split
    · exact .ite h (.ite ((Intact.ite (h.tearDown ..) h).finishCmd ..) (h.modFn ..))
    · exact h
  · exact h

theorem Keeps.zeroingComplete (core : Nat) : Keeps P fw (zeroingComplete core) := by
  unfold Machine.zeroingComplete
  exact getThen fun _ hs => bind (require ..) fun _ => set (.foldl (fun _ _ ht => ht.zeroed ..) (hs.modCore ..))

theorem Keeps.renew {c : Cmd} {r : Report} {k : Nat} {alive : State → Bool} {go : State → Nat × State}
    (hgo : ∀ s, Intact P fw s → Intact P fw (go s).2) : Keeps P fw (renew c r k alive go) := by
  unfold Machine.renew
  refine getThen fun _ _ => bind (require ..) fun _ => issueCmd fun s hs => ?_
  exact .iteEnd (hs.fails _) <| .iteEnd (hs.fails _) <| .iteEnd (hs.fails _) <| Intact.succeeds (hgo _ (hs.modFn ..)) _

theorem Intact.withCkptKey {s : State} (h : Intact P fw s) : Intact P fw (s.withCkptKey) := by
  unfold State.withCkptKey
  exact .ite h h.update

theorem Intact.checkpointSave {s : State} (h : Intact P fw s) (c : Cmd) : Intact P fw (checkpointSave c s).2 := by
  unfold Machine.checkpointSave
  refine .iteEnd (h.fails _) <| .iteEnd (h.fails _) <| .iteEnd (h.fails _) ?_
  have ht := h.withCkptKey
  exact Intact.succeeds (.hostWrite ht.update ..) _

theorem Intact.restoreLine {s : State} (h : Intact P fw s) (world line : Nat) (ct : BitVec 512) (mac : BitVec 28) :
    Intact P fw (s.restoreLine world line ct mac) := by
  unfold State.restoreLine
  exact h.lineWrite ..

theorem Intact.restoreRecord {s : State} (h : Intact P fw s) (world dpa : Nat) (rec : List Byte) :
    Intact P fw (s.restoreRecord world dpa rec) := by
  unfold State.restoreRecord
  exact .foldl (fun _ _ hs => hs.restoreLine ..) h

theorem Intact.checkpointRestore {s : State} (h : Intact P fw s) (c : Cmd) : Intact P fw (checkpointRestore c s).2 := by
  unfold Machine.checkpointRestore
  refine .iteEnd (h.fails _) <| .iteEnd (h.fails _) <| .iteEnd (h.fails _) <| .iteEnd (h.fails _) ?_
  dsimp only
  split
  · exact h.fails _
  · refine .iteEnd (h.fails _) ?_
    split
    · exact h.fails _
    · exact Intact.succeeds (.foldl (fun _ _ ht => ht.restoreRecord ..) h) _

theorem Keeps.checkpoint {c : Cmd} {dir : W64} {effect : State → Effect} (he : ∀ s, Intact P fw s → Intact P fw (effect s).2) :
    Keeps P fw (checkpoint c dir effect) := by
  unfold Machine.checkpoint
  exact getThen fun _ _ => bind (require ..) fun _ => issueCmd he

theorem Keeps.dominoHeader (c : EngCmd) : Keeps P fw (dominoHeader c) := by
  unfold Machine.dominoHeader
  exact when (trapAt ..) <| when (trapXlate ..) <| bind (rangeOf ..) fun _ => bind (rangeOf ..) fun _ => bind (engineRead ..) fun _ =>
    when (trapAt ..) <| pure _

theorem Keeps.dominoPages (c : EngCmd) (h : SeqHeader) (ps : List Nat) : Keeps P fw (dominoPages c h ps) := by
  induction ps with
  | nil => exact pure _
  | cons p rest ih =>
    rw [Machine.dominoPages]
    refine bind (attempt (bind (rangeOf ..) fun _ => bind (rangeOf ..) fun _ => pure _)) fun r => ?_
    cases r with
    | error t => exact pure _
    | ok caps => exact bind ih fun ⟨_, _, _⟩ => pure _

theorem Keeps.acceptE1 (c : EngCmd) : Keeps P fw (acceptE1 c) := by
  unfold Machine.acceptE1
  refine ite (ite (queueCmd ..) <| modify fun _ hs => hs.postResult ..) <| bind (attempt (dominoHeader ..)) fun _ => ?_
  split
  · exact modify fun _ hs => hs.postResult ..
  · exact bind (dominoPages ..) fun ⟨_, _, _⟩ => ite (modify fun _ hs => hs.postResult ..) <| bind (modify fun _ hs =>
    hs.chargeCmdCaps ..) fun _ => queueCmd ..

theorem Keeps.firstOfEngine (k engine : Nat) : Keeps P fw (firstOfEngine k engine) := by
  unfold Machine.firstOfEngine
  exact getThen fun _ _ => require ..

theorem Keeps.mergePages (k : Nat) : Keeps P fw (mergePages k) := by
  unfold Machine.mergePages
  refine bind (cmdAt ..) fun _ => bind (firstOfEngine ..) fun _ => getThen fun _ _ => ?_
  extract_lets +onlyGivenNames jp
  have hjp (r : _) : Keeps P fw (jp r) := by
    refine getThen fun _ _ => bind (attempt (bind (engineRead ..) fun _ => bind (engineWrite .pure) fun _ => pure _)) fun _ => ?_
    split
    · exact modify fun _ hu => hu.endCmd ..
    · exact bind (modify fun _ hu => hu.chargeCmd ..) fun _ => ite (modify fun _ hu => hu.endCmd ..) <| setCmd ..
  clear_value jp
  split
  · next _ t e => exact bind (require ..) fun _ => hjp _
  · next _ t e => exact hjp _

theorem Keeps.setTau (k : Nat) : Keeps P fw (setTau k) := by
  unfold Machine.setTau
  exact bind (cmdAt ..) fun _ => bind (firstOfEngine ..) fun _ => modify fun _ hs => (hs.modWorld ..).endCmd ..

theorem Keeps.messagePlacement (core : Nat) : Keeps P fw (messagePlacement core) := by
  unfold Machine.messagePlacement
  refine getThen fun _ hs => ?_
  split
  · exact require ..
  · split
    · exact require ..
    · refine set ?_
      split
      · exact hs.update.modSlot ..
      · exact hs.update

theorem Keeps.sendmsg (d a : Reg) (m : Mod) : Keeps P fw (sendmsg d a m) := by
  unfold Machine.sendmsg
  exact waiting <| bind (rd ..) fun _ => bind (rd ..) fun _ => getThen fun _ _ => when (trapAt ..) <| when (trapAt ..) <| when trapPriv <|
    when (trapAt ..) <| when (trapXlate ..) <| when (trapAt ..) <| bind (releaseAt ..) fun _ => bind (readMine ..) fun ⟨_, _⟩ =>
      bind (chargeCaps ..) fun _ => bind (modify fun _ ht => ht.update) fun _ => throw _

theorem Keeps.waitmsg (d a : Reg) : Keeps P fw (waitmsg d a) := by
  unfold Machine.waitmsg
  exact waiting <| bind (rd ..) fun _ => getThen fun _ _ => when2 (modMe ..) (fun _ => block ..) <| wr ..

theorem Keeps.waitmsgTimeout (core slot : Nat) : Keeps P fw (waitmsgTimeout core slot) := by
  unfold Machine.waitmsgTimeout
  refine getThen fun _ hs => ?_
  dsimp only
  split
  · exact bind (require ..) fun _ => set (hs.setSlot ..)
  · exact require ..

theorem Keeps.recvmsg (d a : Reg) (m : Mod) : Keeps P fw (recvmsg d a m) := by
  unfold Machine.recvmsg
  refine waiting <| getThen fun _ _ => when trapPriv <| bind (rd ..) fun _ => ?_
  split
  · exact wr ..
  · exact when (trapAt ..) <| when (trapXlate ..) <| bind whoMe fun _ => bind (writeRow ..) fun _ => bind (chargeCaps ..) fun _ =>
    bind (modCore ..) fun _ => bind (acquireOf ..) fun _ => when (acquireAt ..) <| wr ..

theorem Intact.reply {s : State} (h : Intact P fw s) (fn : Nat) (r : DoeResp) : Intact P fw (s.reply fn r) := by
  unfold State.reply
  exact h.modFn ..

theorem Keeps.doeReady (fn : Nat) : Keeps P fw (doeReady fn) := by
  unfold Machine.doeReady
  exact getThen fun _ _ => require ..

theorem Keeps.spdmAnswer (fn code : Nat) (data : List Nat) : Keeps P fw (spdmAnswer fn code data) := by
  unfold Machine.spdmAnswer
  exact bind (doeReady ..) fun _ => modify fun _ hs => hs.reply ..

theorem Intact.issueNonce {s : State} (h : Intact P fw s) (fn : Nat) (session : Option Nat) (meas : List (Nat × Nat)) :
    Intact P fw (s.issueNonce fn session meas).2 := by
  unfold State.issueNonce
  exact h.setFn ..

theorem Keeps.onSession (fn session code : Nat) : Keeps P fw (onSession fn session code) := by
  unfold Machine.onSession
  exact bind (doeReady ..) fun _ => getThen fun _ hs => ite (set ((hs.modFn ..).reply ..)) <| set (hs.reply ..)

theorem Intact.dropSession {s : State} (h : Intact P fw s) (fn id : Nat) : Intact P fw (s.dropSession fn id) := by
  unfold State.dropSession
  exact .ite ((h.setFn ..).tdiError ..) (h.setFn ..)

theorem Keeps.onTdisp {fn session : Nat} {m : M Unit} (hm : Keeps P fw m) : Keeps P fw (onTdisp fn session m) := by
  unfold Machine.onTdisp
  exact bind (doeReady ..) fun _ => bind (require ..) fun _ => getThen fun _ hs => ite (setThen (hs.modFn ..) <| hm) <| set (hs.reply ..)

theorem Keeps.secured {fn session set_ : Nat} {m : M Unit} (hm : Keeps P fw m) : Keeps P fw (secured fn session set_ m) := by
  unfold Machine.secured
  exact bind (doeReady ..) fun _ => bind (require ..) fun _ => getThen fun _ hs => ite (setThen (hs.modFn ..) <| hm) <| set (hs.reply ..)

/-- The boot sequence changes the matrices, but not the memory. -/
theorem State.boot_mem (s : State) (v : BootVerdict) : (s.boot v).mem = s.mem := by
  unfold State.boot
  dsimp only
  split
  · rfl
  · rfl

theorem State.unpowered_memoryWf {s : State} (h : s.MemoryWf) : s.unpowered.MemoryWf := Sparse.wf_filter (fun e => isHost e.1) h

theorem Intact.rejudge {s : State} (h : Intact P fw s) : Intact P fw (s.rejudge) := by
  unfold State.rejudge
  exact h.update

theorem Intact.elapse {s : State} (h : Intact P fw s) (n : Nat) : Intact P fw (s.elapse n) := by
  unfold State.elapse
  exact h.update


end

end Sys2Proof.Machine
end

section
/-! Intact: the scalar instructions, tasks, synchronisation, and the system instructions. -/

-- One declaration after another: checked side by side, these take more threads than the memory of the check holds.
set_option Elab.async false

namespace Sys2Proof.Machine

section
variable {P : Prop} {fw : Matrices}

theorem Keeps.aluTwo (op : W64 → W64 → W64) (d a : Reg) (x : Option Reg) : Keeps P fw (aluTwo op d a x) := by
  unfold Machine.aluTwo
  split
  · exact scalar <| bind (rd ..) fun _ => bind (rd ..) fun _ => wr ..
  · exact scalar <| bind (rd ..) fun _ => bind (rd ..) fun _ => wr ..

theorem Keeps.aluOne (op : W64 → W64) (d a : Reg) : Keeps P fw (aluOne op d a) := by
  unfold Machine.aluOne
  exact scalar <| bind (rd ..) fun _ => wr ..

theorem Keeps.compare (f : W64 → W64 → Bool) (p : Num3) (a : Reg) (x : Option Reg) : Keeps P fw (compare f p a x) := by
  unfold Machine.compare
  exact scalar <| bind (rd ..) fun _ => bind (rd ..) fun _ => modMe ..

theorem Keeps.selp (d a : Reg) : Keeps P fw (selp d a) := by
  unfold Machine.selp
  exact scalar <| bind (rd ..) fun _ => bind getMe fun _ => ite (wr ..) <| pure _

theorem Keeps.aluImm (op : W64 → W64) (d : Reg) : Keeps P fw (aluImm op d) := by
  unfold Machine.aluImm
  exact scalar <| bind (rd ..) fun _ => wr ..

theorem Keeps.nextPc : Keeps P fw (nextPc) := by
  unfold Machine.nextPc
  exact getThen fun _ _ => pure _

theorem Keeps.checkTarget (t : W64) : Keeps P fw (checkTarget t) := by
  unfold Machine.checkTarget
  exact when (trapAt ..) <| ite (trapXlate ..) <| pure _

theorem Keeps.jumpOver {srcs : List Reg} {dst : Option Reg} {m : M W64} (hm : Keeps P fw m) : Keeps P fw (jumpOver srcs dst m) := by
  unfold Machine.jumpOver
  exact withPorts fun _ => bind hm fun _ => pure _

theorem Keeps.jumpReg (a : Reg) : Keeps P fw (jumpReg a) := by
  unfold Machine.jumpReg
  exact jumpOver (bind (rd ..) fun _ => bind (checkTarget ..) fun _ => pure _)

theorem Keeps.jumpLink (d a : Reg) : Keeps P fw (jumpLink d a) := by
  unfold Machine.jumpLink
  exact jumpOver (bind (rd ..) fun _ => bind (checkTarget ..) fun _ => bind nextPc fun _ => bind (wr ..) fun _ => pure _)

theorem Keeps.predTwo (f : Bool → Bool → Bool) (d a : Num3) : Keeps P fw (predTwo f d a) := by
  unfold Machine.predTwo
  exact bind (modMe ..) fun _ => pure _

theorem Keeps.stop : Keeps P fw (stop) := by
  unfold Machine.stop
  exact getThen fun _ _ => when trapPriv <| when (throw _) <| when (modCore ..) <| pure _

theorem Keeps.handOver (engine : Nat) (words : List W64) : Keeps P fw (handOver engine words) := by
  unfold Machine.handOver
  refine getThen fun _ _ => bind (modMe ..) fun _ => ?_
  dsimp only
  split
  · exact ite (acceptE0 ..) <| modify fun _ ht => ht.postResult ..
  · exact ite (acceptE1 ..) <| modify fun _ ht => ht.postResult ..
  · exact ite (acceptE2 ..) <| modify fun _ ht => ht.postResult ..
  · exact ite (acceptE3 ..) <| modify fun _ ht => ht.postResult ..

theorem Keeps.engineFirewall (engine : Nat) : Keeps P fw (engineFirewall engine) := by
  unfold Machine.engineFirewall
  exact getThen fun _ _ => ite (trapAt ..) <| pure _

theorem Keeps.epush (d : Reg) (e : Num2) : Keeps P fw (epush d e) := by
  unfold Machine.epush
  exact waiting <| bind (rd ..) fun _ => bind getMe fun _ => when (block ..) <| bind releaseAll fun _ => bind (engineFirewall ..) fun _ =>
    bind getMe fun _ => ite (handOver ..) <| modMe ..

theorem Keeps.dmergePop (d : Reg) : Keeps P fw (dmergePop d) := by
  unfold Machine.dmergePop
  refine bind getMe fun _ => ?_
  split
  · exact bind (setRestart ..) fun _ => block ..
  · exact bind (modMe ..) fun _ => bind (modify fun _ hs => hs.deliverEngine ..) fun _ => bind (acquireAt ..) fun _ =>
    bind clearPend fun _ => wr ..

theorem Keeps.dmerge (d a : Reg) : Keeps P fw (dmerge d a) := by
  unfold Machine.dmerge
  refine waiting <| bind notCopySlot fun _ => bind (rd ..) fun _ => bind (rd ..) fun _ => bind (resumeRow ..) fun _ => ?_
  split
  · exact dmergePop ..
  · exact when (trapAt ..) <| bind getMe fun _ => when (block ..) <| bind releaseAll fun _ => bind (engineFirewall ..) fun _ =>
    bind getMe fun _ => bind (handOver ..) fun _ => bind (modMe ..) fun _ => dmergePop ..

theorem Keeps.fused (fn : Nat) (d a : Reg) (b : Option Reg) (m : Mod) : Keeps P fw (fused fn d a b m) := by
  unfold Machine.fused
  refine waiting <| bind (rd ..) fun _ => bind (rd ..) fun _ => ?_
  extract_lets +onlyGivenNames jp
  have hjp : ∀ r, Keeps P fw (jp r) := fun _ => bind whoMe fun _ => bind (releaseAt ..) fun _ => bind (syncPlace ..) fun ⟨_, _⟩ =>
    bind (modify fun _ hs => hs.performWord ..) fun _ => bind (turnReq ..) fun _ => askTurn ..
  clear_value jp
  split
  · exact bind (rd ..) fun _ => hjp _
  · exact bind (pure _) fun _ => hjp _

theorem Keeps.rsvAgain (d : Reg) (m : Mod) (loc : Nat) (cap : Cap) : Keeps P fw (rsvAgain d m loc cap) := by
  unfold Machine.rsvAgain
  exact bind (modify fun _ hs => hs.bankRead ..) fun _ => bind (acquireOf ..) fun _ => getThen fun _ _ => bind (wr ..) fun _ => chargeCap ..

theorem Keeps.rsv (d a : Reg) (m : Mod) : Keeps P fw (rsv d a m) := by
  unfold Machine.rsv
  refine waiting <| bind (rd ..) fun _ => bind whoMe fun _ => bind (releaseAt ..) fun _ => bind (syncPlace ..) fun ⟨_, _⟩ =>
    bind (modify fun _ hs => (hs.performWord ..).lapse ..) fun _ => getThen fun _ hs => ite (rsvAgain ..) <| ?_
  split
  · exact when (set (hs.revokeWord ..)) <| bind (turnReq ..) fun _ => askTurn ..
  · exact bind (turnReq ..) fun _ => askTurn ..

theorem Intact.landOwn {s : State} (h : Intact P fw s) (uid loc : Nat) : Intact P fw (s.landOwn uid loc) := by
  unfold State.landOwn
  exact .ite (.foldl (fun _ _ hs => hs.performDeferred ..) (h.setBank ..)) h

theorem Keeps.endReservation (w : Who) (pl : Place) (v : Option W64) : Keeps P fw (endReservation w pl v) := by
  unfold Machine.endReservation
  refine modify fun _ hs => Intact.modMe ?_ ..
  refine Intact.releaseWord ?_ ..
  split
  · exact hs.performWrite ..
  · exact hs

theorem Keeps.releaseOthers (m : Mod) : Keeps P fw (releaseOthers m) := by
  unfold Machine.releaseOthers
  exact ite (bind (modify fun _ hs => hs.performSlot ..) fun _ => getThen fun _ _ => ite (block ..) <| pure _) <| pure _

theorem Keeps.rls (v : Option Reg) (a : Reg) (m : Mod) : Keeps P fw (rls v a m) := by
  unfold Machine.rls
  refine waiting <| ?_
  extract_lets +onlyGivenNames jp
  have hjp : ∀ r, Keeps P fw (jp r) := fun _ => bind (rd ..) fun _ => bind whoMe fun _ => bind (releaseOthers ..) fun _ =>
    bind (syncPlace ..) fun ⟨_, _⟩ => bind (modify fun _ hs => ((hs.performWord ..).lapse ..).landOwn ..) fun _ => getThen fun _ _ =>
      ite (bind (endReservation ..) fun _ => bind (acquireOf ..) fun _ => chargeCap ..) <| bind (modMe ..) fun _ =>
        bind (acquireOf ..) fun _ => chargeCap ..
  clear_value jp
  split
  · exact bind (rd ..) fun _ => bind (pure _) fun _ => hjp _
  · exact bind (pure _) fun _ => hjp _

theorem Keeps.rsvw (d a : Reg) (m : Mod) : Keeps P fw (rsvw d a m) := by
  unfold Machine.rsvw
  exact waiting <| bind (rd ..) fun _ => bind whoMe fun _ => bind (releaseAt ..) fun _ => bind (syncPlace ..) fun ⟨_, _⟩ =>
    bind (modify fun _ hs => (hs.performWord ..).bankRead ..) fun _ => bind (modMe ..) fun _ => bind (acquireOf ..) fun _ =>
      getThen fun _ _ => bind (wr ..) fun _ => chargeCap ..

theorem Keeps.waitrs (d a : Reg) : Keeps P fw (waitrs d a) := by
  unfold Machine.waitrs
  exact withPorts fun _ => bind (rd ..) fun _ => getThen fun _ _ => ite (bind (modMe ..) fun _ => bind (wr ..) fun _ => pure _) <|
    bind (modMe ..) fun _ => ite (parkMe ..) <| block ..

theorem Keeps.waitrsTimeout (core entry : Nat) : Keeps P fw (waitrsTimeout core entry) := by
  unfold Machine.waitrsTimeout
  refine getThen fun _ hs => ?_
  split
  · split
    · exact bind (require ..) fun _ => set (hs.modCore ..)
    · exact require ..
  · exact require ..

theorem Keeps.fence (m : Mod) : Keeps P fw (fence m) := by
  unfold Machine.fence
  exact bind (releaseAt ..) fun _ => bind (acquireOf ..) fun _ => pure _

theorem Keeps.waitKey (w : Who) (ea : W64) : Keeps P fw (waitKey w ea) := by
  unfold Machine.waitKey
  refine when (trapAt ..) <| ?_
  split
  · exact pure _
  · exact resolveSeq ..
  · exact trapXlate ..

theorem Keeps.waitva (d a : Reg) : Keeps P fw (waitva d a) := by
  unfold Machine.waitva
  exact withPorts fun _ => bind (rd ..) fun _ => bind (rd ..) fun _ => bind whoMe fun _ => bind (waitKey ..) fun _ =>
    bind (checkAccess ..) fun ⟨_, _⟩ => bind tableFull fun _ => when (trapAt ..) <| bind (acquireAt ..) fun _ =>
      bind (loadPlace ..) fun _ => bind (chargeCap ..) fun _ => bind (acquireAt ..) fun _ => ite (pure _) <| ite (block ..) <|
        bind (installWaiter ..) fun _ => bind nextAddr fun _ => parkMe ..

theorem Keeps.wake (n : Option Nat) (d a : Reg) : Keeps P fw (wake n d a) := by
  unfold Machine.wake
  exact waiting <| bind (rd ..) fun _ => bind whoMe fun _ => bind (waitKey ..) fun _ => bind releaseAll fun _ =>
    bind (checkAccess ..) fun ⟨_, _⟩ => getThen fun _ _ => bind (wr ..) fun _ => bind (modify fun _ ht => ht.wakeOn ..) fun _ =>
      chargeCap ..

theorem Intact.setWayMask {s : State} (h : Intact P fw s) (world cluster : Nat) (v : BitVec 16) :
    Intact P fw (s.setWayMask world cluster v) := by
  unfold State.setWayMask
  exact h.update

theorem Keeps.popRecord : Keeps P fw (popRecord) := by
  unfold Machine.popRecord
  exact bind getCore fun _ => bind (modCore ..) fun _ => pure _

theorem Keeps.kRead (i : Nat) : Keeps P fw (kRead i) := by
  unfold Machine.kRead
  refine getThen fun _ _ => ite (pure _) <| ?_
  split
  · exact pure _
  · exact pure _
  · exact pure _
  · exact popRecord
  · exact pure _
  · exact pure _
  · exact pure _
  · exact pure _
  · exact pure _

theorem Keeps.kWrite (i : Nat) (v : W64) : Keeps P fw (kWrite i v) := by
  unfold Machine.kWrite
  refine getThen fun _ hs => ite (ite (pure _) <| ite (ite (modMe ..) <| pure _) <| set (hs.modSlot ..)) <| ?_
  split
  · exact when (trapAt ..) <| modCore ..
  · exact ite (modCore ..) <| pure _
  · exact modCore ..
  · exact set (hs.setWayMask ..)
  · exact modMe ..
  · exact modCore ..

theorem Keeps.kIndex (v : W64) (write : Bool) : Keeps P fw (kIndex v write) := by
  unfold Machine.kIndex
  split
  · exact trapAt ..
  · exact getThen fun _ _ => when trapPriv <| pure _

theorem Keeps.krd (d a : Reg) : Keeps P fw (krd d a) := by
  unfold Machine.krd
  exact withPorts fun _ => bind (rd ..) fun _ => bind (kIndex ..) fun _ => bind (kRead ..) fun _ => bind (wr ..) fun _ => pure _

theorem Keeps.kwr (d a : Reg) : Keeps P fw (kwr d a) := by
  unfold Machine.kwr
  exact withPorts fun _ => bind (rd ..) fun _ => bind (rd ..) fun _ => bind (kIndex ..) fun _ => bind (kWrite ..) fun _ => pure _

theorem Keeps.trapInstr (a : Reg) : Keeps P fw (trapInstr a) := by
  unfold Machine.trapInstr
  exact withPorts fun _ => bind (rd ..) fun _ => trapAt ..

theorem Keeps.rteInstr : Keeps P fw (rteInstr) := by
  unfold Machine.rteInstr
  exact bind supOnly fun _ => getThen fun _ _ => returnFromTrap ..

theorem Keeps.bkpt : Keeps P fw (bkpt) := by
  unfold Machine.bkpt
  exact getThen fun _ _ => when (trapAt ..) <| bind nextAddr fun _ => bind (modMe ..) fun _ => bind (modCore ..) fun _ => pure _

theorem Intact.stopSlot {s : State} (h : Intact P fw s) (core slot : Nat) (st : SlotSt) : Intact P fw (s.stopSlot core slot st) := by
  unfold State.stopSlot
  exact ((h.withdraw ..).modCore ..).modSlot ..

theorem Keeps.slotOperand (v : W64) (bit : Option Nat) : Keeps P fw (slotOperand v bit) := by
  unfold Machine.slotOperand
  exact when (trapAt ..) <| pure _

theorem Keeps.preempt (d a : Reg) : Keeps P fw (preempt d a) := by
  unfold Machine.preempt
  refine waiting <| bind supOnly fun _ => bind (rd ..) fun _ => bind (slotOperand ..) fun _ => getThen fun _ _ => ite (wr ..) <| ?_
  split
  · exact bind (modify fun _ ht => ht.modSlot ..) fun _ => wr ..
  · exact bind (modify fun _ ht => ht.stopSlot ..) fun _ => wr ..
  · exact bind (modify fun _ ht => ht.modSlot ..) fun _ => block ..

theorem Keeps.haltSlots (c : Nat) (again : Bool) (slots : List Nat) : Keeps P fw (haltSlots c again slots) := by
  induction slots with
  | nil => exact pure _
  | cons n rest ih =>
    rw [Machine.haltSlots]
    refine getThen fun s _ => ?_
    extract_lets +onlyGivenNames jp
    have hjp (r : _) : Keeps P fw (jp r) := bind ih fun _ => pure _
    clear_value jp
    split
    · exact bind (modify fun _ hu => hu.modSlot ..) fun _ => hjp _
    · exact when (modify fun _ hu => hu.stopSlot ..) (hjp _)
    · exact ite (hjp _) (bind (modify fun _ hu => hu.modSlot ..) fun _ => hjp _)

theorem Keeps.haltt (d a : Reg) : Keeps P fw (haltt d a) := by
  unfold Machine.haltt
  refine waiting <| bind supOnly fun _ => getThen fun _ _ => when trapPriv <| bind (rd ..) fun _ => bind (rd ..) fun _ =>
    bind (slotOperand ..) fun _ => when (trapAt ..) <| when (trapXlate ..) <| bind (haltSlots ..) fun _ => when (block ..) <|
      getThen fun _ _ => ?_
  split
  · exact pure _
  · exact bind whoMe fun _ => bind (writeRow ..) fun _ => chargeCaps ..

theorem Keeps.resume (a : Reg) : Keeps P fw (resume a) := by
  unfold Machine.resume
  exact waiting <| bind supOnly fun _ => bind (rd ..) fun _ => bind (slotOperand ..) fun _ => getThen fun _ _ => ite (modify fun _ ht =>
    .foldl (fun _ _ hu => hu.modSlot ..) ht) <| getThen fun _ _ => when (trapAt ..) <| modify fun _ hu => hu.modSlot ..

theorem Keeps.ctxsave (d a : Reg) : Keeps P fw (ctxsave d a) := by
  unfold Machine.ctxsave
  refine waiting <| bind supOnly fun _ => bind (rd ..) fun _ => bind (slotOperand ..) fun _ => getThen fun _ hs => when (trapAt ..) <| ?_
  split
  · exact bind (modify fun _ ht => (ht.performSlot ..).modCore ..) fun _ => wr ..
  · exact setThen ((hs.revokeAll ..).performSlot ..) <| when (block ..) <| setThen (((hs.revokeAll ..).performSlot ..).moveOut ..) <| wr ..

theorem Keeps.ctxload (a : Reg) : Keeps P fw (ctxload a) := by
  unfold Machine.ctxload
  refine waiting <| bind supOnly fun _ => bind (rd ..) fun _ => getThen fun _ _ => ?_
  split
  · exact when (trapAt ..) <| modCore ..
  · exact trapAt ..

theorem Keeps.instructionCompletion (core slot : Nat) : Keeps P fw (instructionCompletion core slot) := by
  unfold Machine.instructionCompletion
  refine getThen fun _ hs => bind (require ..) fun _ => ?_
  split
  · exact set ((hs.endInstr ..).modSlot ..)
  · exact set (hs.modSlot ..)
  · exact set (hs.modSlot ..)
  · exact set (hs.modSlot ..)
  · exact bind (require ..) fun _ => set (hs.releasePhase ..)
  · exact require ..

theorem Keeps.quantumExpiry (core slot : Nat) : Keeps P fw (quantumExpiry core slot) := by
  unfold Machine.quantumExpiry
  refine getThen fun _ hs => ?_
  dsimp only
  split
  · exact require ..
  · exact bind (require ..) fun _ => set (.ite (hs.modSlot ..) ((hs.modSlot ..).modCore ..))

theorem Keeps.preemptReqRecord (core band : Nat) : Keeps P fw (preemptReqRecord core band) := by
  unfold Machine.preemptReqRecord
  exact getThen fun _ hs => bind (require ..) fun _ => set (hs.modCore ..)


end

end Sys2Proof.Machine
end

section
/-! Intact: the tile instructions, transfers, windows, fetch, and turns. -/

-- One declaration after another: checked side by side, these take more threads than the memory of the check holds.
set_option Elab.async false

namespace Sys2Proof.Machine

section
variable {P : Prop} {fw : Matrices}

theorem Keeps.tileTwo (maj fn : Nat) (types : List Nat) (computes : Bool) (f : Nat → Rm → Nat → Nat → FR) (d a b : Num3) :
    Keeps P fw (tileTwo maj fn types computes f d a b) := by
  unfold Machine.tileTwo
  exact bind getMe fun _ => tileRows (bind (checkSrc ..) fun _ => bind (checkSrc ..) fun _ => bind (agree ..) fun _ =>
    bind (checkDst ..) fun _ => pure _) (fun _ => beginResult ..) (fun _ => bind getMe fun _ => commitRow ..)

theorem Keeps.tileFma (d a b : Num3) : Keeps P fw (tileFma d a b) := by
  unfold Machine.tileFma
  exact bind getMe fun _ => tileRows (bind (checkSrc ..) fun _ => bind (checkSrc ..) fun _ => bind (agree ..) fun _ =>
    bind (checkSrc ..) fun _ => bind (agree ..) fun _ => bind (checkDst ..) fun _ => pure _) (fun _ => beginResult ..) (fun _ =>
      bind getMe fun _ => commitRow ..)

theorem Keeps.tileSel (d a b : Num3) : Keeps P fw (tileSel d a b) := by
  unfold Machine.tileSel
  exact bind getMe fun _ => tileRows (bind (checkSrc ..) fun _ => bind (checkSrc ..) fun _ => bind (agree ..) fun _ =>
    bind (checkSrc ..) fun _ => bind (agree ..) fun _ => when (checkDst ..) <| pure _) (fun _ => beginResult ..) (fun _ =>
      bind getMe fun _ => commitRow ..)

theorem Keeps.tileCpym (d a b : Num3) : Keeps P fw (tileCpym d a b) := by
  unfold Machine.tileCpym
  exact bind getMe fun _ => tileRows (bind (checkSrc ..) fun _ => bind (checkSrc ..) fun _ => bind (agree ..) fun _ =>
    bind (checkSrc ..) fun _ => bind (agree ..) fun _ => bind (checkDst ..) fun _ => pure _) (fun _ => beginResultKeep ..) (fun _ =>
      bind getMe fun _ => commitRow ..)

theorem Keeps.tileOne (maj fn : Nat) (types : List Nat) (computes : Bool) (res : W64 → W64) (f : Nat → Rm → Nat → FR) (d a : Num3) :
    Keeps P fw (tileOne maj fn types computes res f d a) := by
  unfold Machine.tileOne
  exact bind getMe fun _ => tileRows (bind (checkSrc ..) fun _ => bind (checkDst ..) fun _ => pure _) (fun _ => beginResult ..) (fun _ =>
    bind getMe fun _ => commitRow ..)

theorem Keeps.tileRowReduce (fn : Nat) (resTy : Nat → Nat) (f : Nat → List Nat → FR) (d a : Num3) :
    Keeps P fw (tileRowReduce fn resTy f d a) := by
  unfold Machine.tileRowReduce
  exact bind getMe fun _ => tileRows (bind (checkSrc ..) fun _ => bind (checkDst ..) fun _ => pure _) (fun _ => beginResult ..) (fun _ =>
    bind getMe fun _ => commitRow ..)

theorem Keeps.wholeTile {key : Nat} {check : M W64} {act : M (Option TrapInfo)} (hcheck : Keeps P fw check) (hact : Keeps P fw act) :
    Keeps P fw (wholeTile key check act) := by
  unfold Machine.wholeTile
  refine bind (resumeRow ..) fun _ => ?_
  extract_lets +onlyGivenNames jp
  have hjp (r : _) : Keeps P fw (jp r) := by
    refine bind clearPend fun _ => ite (pure _) <| bind hact fun _ => ?_
    split
    · exact bind (setRestart ..) fun _ => throw _
    · exact pure _
  clear_value jp
  exact ite (bind hcheck fun _ => hjp _) (hjp _)

theorem Keeps.tileColReduce (fn : Nat) (f : Nat → List Nat → FR) (d a : Num3) : Keeps P fw (tileColReduce fn f d a) := by
  unfold Machine.tileColReduce
  exact bind getMe fun _ => wholeTile (bind (checkSrc ..) fun _ => bind (checkDst ..) fun _ => pure _) (bind (beginResult ..) fun _ =>
    commitRow ..)

theorem Keeps.tileBrow (d a b : Num3) : Keeps P fw (tileBrow d a b) := by
  unfold Machine.tileBrow
  exact bind getMe fun _ => tileRows (bind (checkSrc ..) fun _ => bind (checkSrc ..) fun _ => bind (agree ..) fun _ =>
    bind (checkDst ..) fun _ => pure _) (fun _ => beginResult ..) (fun _ => bind getMe fun _ => commitRow ..)

theorem Keeps.tileBcol (d a b : Num3) : Keeps P fw (tileBcol d a b) := by
  unfold Machine.tileBcol
  exact bind getMe fun _ => tileRows (bind (checkSrc ..) fun _ => bind (checkSrc ..) fun _ => bind (agree ..) fun _ =>
    bind (checkDst ..) fun _ => pure _) (fun _ => beginResult ..) (fun _ => bind getMe fun _ => commitRow ..)

theorem Keeps.tileTrans (d a : Num3) : Keeps P fw (tileTrans d a) := by
  unfold Machine.tileTrans
  exact bind getMe fun _ => wholeTile (bind (checkSrc ..) fun _ => bind (agree ..) fun _ => bind (checkDst ..) fun _ => pure _)
    (bind (beginResult ..) fun _ => bind (mapM (fun _ => commitRow ..) _) fun _ => pure _)

theorem Keeps.tileMov (d a : Num3) : Keeps P fw (tileMov d a) := by
  unfold Machine.tileMov
  exact bind getMe fun _ => tileRows (bind (checkSrc ..) fun _ => bind (checkDst ..) fun _ => pure _) (fun _ => modMe ..) (fun _ =>
    bind getMe fun _ => bind (setTile ..) fun _ => pure _)

theorem Keeps.tileCmp (fn : Nat) (f : Nat → Nat → Nat → Bool) (d a b : Num3) : Keeps P fw (tileCmp fn f d a b) := by
  unfold Machine.tileCmp
  exact bind getMe fun _ => tileRows (bind (checkSrc ..) fun _ => bind (checkSrc ..) fun _ => bind (agree ..) fun _ =>
    bind (checkDst ..) fun _ => pure _) (fun _ => beginResult ..) (fun _ => bind getMe fun _ => commitRow ..)

theorem Keeps.atFmt {α : Type} {fmt : W64} {m : M α} (hm : Keeps P fw m) : Keeps P fw (atFmt fmt m : M α) := by
  refine ⟨fun s hs => ?_⟩
  unfold Machine.atFmt
  split
  · next e => exact hm.error hs e
  · exact hm.after s hs

theorem Keeps.tileShape (t : Num3) (a : Reg) : Keeps P fw (tileShape t a) := by
  unfold Machine.tileShape
  exact waiting <| bind (rd ..) fun _ => when2 getMe (fun _ => shapeTrap ..) <| modMe ..

theorem Keeps.tileZero (t : Num3) (a : Reg) : Keeps P fw (tileZero t a) := by
  unfold Machine.tileZero
  exact withPorts fun _ => bind (rd ..) fun _ => tileRows (when2 getMe (fun _ => shapeTrap ..) <| pure _) (fun _ => beginResult ..)
    (fun _ => bind getMe fun _ => commitRow ..)

theorem Keeps.needLive (t : Num3) (v : W64) : Keeps P fw (needLive t v) := by
  unfold Machine.needLive
  exact bind getMe fun _ => when (shapeTrap ..) <| pure _

theorem Keeps.tileFill (t : Num3) (a : Reg) : Keeps P fw (tileFill t a) := by
  unfold Machine.tileFill
  exact withPorts fun _ => bind (rd ..) fun _ => tileRows (bind (needLive ..) fun _ => pure _) (fun _ => pure _) (fun _ =>
    bind getMe fun _ => commitRow ..)

theorem Keeps.tileGete (t : Num3) (a : Reg) : Keeps P fw (tileGete t a) := by
  unfold Machine.tileGete
  exact bind getMe fun _ => atFmt (waiting <| bind (rd ..) fun _ => bind (needLive ..) fun _ => when (shapeTrap ..) <| wr ..)

theorem Keeps.tileSete (t : Num3) (a : Reg) : Keeps P fw (tileSete t a) := by
  unfold Machine.tileSete
  exact waiting <| bind (rd ..) fun _ => bind (needLive ..) fun _ => when2 getMe (fun _ => shapeTrap ..) <| setTile ..

theorem Keeps.tileMask (t : Num3) (a : Reg) (f : W64 → Nat → W64) : Keeps P fw (tileMask t a f) := by
  unfold Machine.tileMask
  exact waiting <| bind (rd ..) fun _ => bind (needLive ..) fun _ => setTile ..

theorem Keeps.tileScalar (fn : Nat) (fop : Rm → Fp → Fp → Fp × Nat) (iop : ℤ → ℤ → ℤ) (d a : Num3) (b : Reg) :
    Keeps P fw (tileScalar fn fop iop d a b) := by
  unfold Machine.tileScalar
  exact withPorts fun _ => bind (rd ..) fun _ => tileOne ..

theorem Keeps.takeChannel (c : Num2) : Keeps P fw (takeChannel c) := by
  unfold Machine.takeChannel
  exact bind getCore fun _ => bind getMe fun _ => when (block ..) <| modCore ..

theorem Keeps.freeChannel (c : Num2) : Keeps P fw (freeChannel c) := by
  unfold Machine.freeChannel
  exact modify fun _ hs => hs.modMyCore ..

theorem Keeps.recvLoop (key : Nat) (d : Num3) (c : Num2) (fuel n : Nat) (budget : Option Nat) (copy : Bool) (upd :
    Tile → Row64 → Nat → List FR) (fmt : W64) : Keeps P fw (recvLoop key d c fuel n budget copy upd fmt) := by
  induction fuel generalizing n budget with
  | zero =>
    unfold Machine.recvLoop
    refine bind getCore fun _ => ?_
    split
    · exact bind (setRestart ..) fun _ => block ..
    · refine bind (modCore ..) fun _ => ?_
      extract_lets +onlyGivenNames jp
      have hjp (r : _) : Keeps P fw (jp r) := bind (freeChannel ..) fun _ => pure _
      clear_value jp
      exact ite (bind getMe fun _ => bind getMe fun _ => bind getMe fun _ => bind (setTile ..) fun _ => hjp _) (hjp _)
    · exact bind (setRestart ..) fun _ => throw _
  | succ f ih =>
    unfold Machine.recvLoop
    refine bind getCore fun _ => ?_
    split
    · exact bind (setRestart ..) fun _ => block ..
    · refine bind (modCore ..) fun _ => ?_
      extract_lets +onlyGivenNames jp
      have hjp (r : _) : Keeps P fw (jp r) := bind (freeChannel ..) fun _ => pure _
      clear_value jp
      exact ite (bind getMe fun _ => bind getMe fun _ => bind getMe fun _ => bind (setTile ..) fun _ => hjp _) (hjp _)
    · refine bind getMe fun _ => when2 (setRestart ..) (fun _ => throw _) <| bind (modCore ..) fun _ => bind getMe fun _ =>
        bind (setTile ..) fun _ => bind (commitRow ..) fun _ => bind (charge ..) fun _ => ?_
      split
      · exact bind (setRestart ..) fun _ => bind (freeChannel ..) fun _ => throw _
      · exact ih ..

theorem Keeps.streamRecv {fn : Nat} {types : List Nat} {more : W64 → W64 → M Unit} {fmt : W64} {copy : Bool} {upd :
    Tile → Row64 → Nat → List FR} {d : Num3} {c : Num2} (hmore : ∀ i j, Keeps P fw (more i j)) :
      Keeps P fw (streamRecv fn types more fmt copy upd d c) := by
  unfold Machine.streamRecv
  exact bind getMe fun _ => bind (resumeRow ..) fun _ => when2 (checkSrc ..) (fun _ => hmore _ _) <| bind (takeChannel ..) fun _ =>
    bind clearPend fun _ => getThen fun _ _ => recvLoop ..

theorem Keeps.tileSadd (d : Num3) (c : Num2) : Keeps P fw (tileSadd d c) := by
  unfold Machine.tileSadd
  exact bind getMe fun _ => streamRecv (fun _ _ => pure _)

theorem Keeps.tileSmax (d : Num3) (c : Num2) : Keeps P fw (tileSmax d c) := by
  unfold Machine.tileSmax
  exact bind getMe fun _ => streamRecv (fun _ _ => pure _)

theorem Keeps.tileScpy (d : Num3) (c : Num2) : Keeps P fw (tileScpy d c) := by
  unfold Machine.tileScpy
  exact bind getMe fun _ => streamRecv (fun _ _ => pure _)

theorem Keeps.tileSfma (d : Num3) (c : Num2) (b : Num3) : Keeps P fw (tileSfma d c b) := by
  unfold Machine.tileSfma
  exact bind getMe fun _ => streamRecv (fun _ _ => bind (checkSrc ..) fun _ => agree ..)

theorem Intact.placeItems {s : State} (h : Intact P fw s) (core slot chan tile fuel n : Nat) (budget : Option Nat) :
    Intact P fw (placeItems core slot chan tile fuel n budget s).1 := by
  induction fuel generalizing s n budget with
  | zero => exact h
  | succ f ih =>
    unfold Machine.placeItems
    dsimp only
    split
    · exact h
    · split
      · dsimp only
        exact h.modCore ..
      · exact ih ((h.modCore ..).chargeSlot ..) ..

theorem Intact.sent {s : State} (h : Intact P fw s) (core chan uid : Nat) : Intact P fw (s.sent core chan uid) := by
  unfold State.sent
  exact h.modCore ..

theorem Keeps.tileSend (d : Num3) (c : Num2) : Keeps P fw (tileSend d c) := by
  unfold Machine.tileSend
  refine bind getMe fun _ => getThen fun _ _ => bind (resumeRow ..) fun _ => when (checkSrc ..) <| when (trapAt ..) <| when (block ..) <|
    bind clearPend fun _ => getThen fun t ht => ?_
  split
  next u r fin e =>
  refine setThen (.sent (.of_fst (ht.placeItems ..) e) ..) <| ite (pure _) ?_
  exact bind (setRestart ..) fun _ => bind (modCore ..) fun _ => throw _

theorem Keeps.channelItemPlacement (core : Nat) : Keeps P fw (channelItemPlacement core) := by
  unfold Machine.channelItemPlacement
  refine getThen fun s hs => ?_
  split
  · exact require ..
  · split
    next u r fin e =>
    have hu := Intact.of_fst (hs.placeItems ..) e
    exact set (.ite ((hu.modSlot ..).sent ..) (hu.modSlot ..))

theorem Keeps.checkTransferTile (sh : W64) : Keeps P fw (checkTransferTile sh) := by
  unfold Machine.checkTransferTile
  exact ite (trapAt ..) <| pure _

theorem Keeps.checkPairing (sh : W64) (l : Layout) : Keeps P fw (checkPairing sh l) := by
  unfold Machine.checkPairing
  exact ite (trapAt ..) <| pure _

theorem Keeps.checkCx8 (l : Layout) (sh : W64) (col0 : Nat) : Keeps P fw (checkCx8 l sh col0) := by
  unfold Machine.checkCx8
  exact ite (trapAt ..) <| pure _

theorem Keeps.commitLoad (t : Num3) (r : Nat) (els : List Nat) (scale : Option W32) (cs : List Cap) :
    Keeps P fw (commitLoad t r els scale cs) := by
  unfold Machine.commitLoad
  exact bind getMe fun _ => bind (setTile ..) fun _ => bind (charge ..) fun _ => bind (chargeCaps ..) fun _ => pure _

theorem Keeps.scaleOf (w : Who) (l : Layout) (row : Nat) (m : Mod) : Keeps P fw (scaleOf w l row m) := by
  unfold Machine.scaleOf
  exact ite (bind getMe fun _ => bind (readScale ..) fun ⟨_, _⟩ => pure _) <| pure _

theorem Keeps.windowRow (w : Who) (l : Layout) (row0 col0 r vc : Nat) (m : Mod) : Keeps P fw (windowRow w l row0 col0 r vc m) := by
  unfold Machine.windowRow
  exact ite (bind (readCx8 ..) fun ⟨⟨_, _⟩, _⟩ => pure _) <| ite (readColumn ..) <| readElems ..

theorem Keeps.tldRow (t : Num3) (w : Who) (l : Layout) (row0 col0 vc : Nat) (m : Mod) (lcs : List Cap) (fmt : W64) (r : Nat) :
    Keeps P fw (tldRow t w l row0 col0 vc m lcs fmt r) := by
  unfold Machine.tldRow
  exact atRow (bind (windowRow ..) fun ⟨_, _⟩ => bind (scaleOf ..) fun ⟨_, _⟩ => commitLoad ..)

theorem Keeps.tileLoad (t : Num3) (a b : Reg) (m : Mod) : Keeps P fw (tileLoad t a b m) := by
  unfold Machine.tileLoad
  exact withPorts fun _ => bind (rd ..) fun _ => bind (rd ..) fun _ => bind whoMe fun _ => bind getMe fun _ => bind (resumeRow ..) fun _ =>
    bind (atRow (readLayout ..)) fun ⟨_, _⟩ => bind (acquireOf ..) fun _ => when2 (atRow (bind (checkTransferTile ..) fun _ =>
      bind (checkPairing ..) fun _ => bind getMe fun _ => when (trapAt ..) <| checkCx8 ..)) (fun _ => modMe ..) <| bind (forRows (fun _ =>
        tldRow ..)) fun _ => bind (chargeCaps ..) fun _ => pure _

theorem Keeps.cx8Span (w : Who) (l : Layout) (tl : Tile) (row0 r : Nat) (m : Mod) : Keeps P fw (cx8Span w l tl row0 r m) := by
  unfold Machine.cx8Span
  exact bind (groupStart ..) fun ⟨_, _⟩ => pure _

theorem Keeps.tstRow (tl : Tile) (w : Who) (l : Layout) (row0 col0 cols : Nat) (m : Mod) (lcs : List Cap) (fmt : W64) (r : Nat) :
    Keeps P fw (tstRow tl w l row0 col0 cols m lcs fmt r) := by
  unfold Machine.tstRow
  exact atRow (ite (bind (cx8Span ..) fun ⟨_, _⟩ => bind (writeRow ..) fun _ => bind (charge ..) fun _ => bind (chargeCaps ..) fun _ =>
    pure _) <| bind (pure _) fun ⟨_, _⟩ => bind (writeRow ..) fun _ => bind (charge ..) fun _ => bind (chargeCaps ..) fun _ => pure _)

theorem Keeps.tileStore (t : Num3) (a b : Reg) (m : Mod) : Keeps P fw (tileStore t a b m) := by
  unfold Machine.tileStore
  exact withPorts fun _ => bind (rd ..) fun _ => bind (rd ..) fun _ => bind whoMe fun _ => bind (releaseAt ..) fun _ => bind getMe fun _ =>
    bind (resumeRow ..) fun _ => bind (atRow (readLayout ..)) fun ⟨_, _⟩ => when (atRow (bind (checkTransferTile ..) fun _ =>
      bind (checkPairing ..) fun _ => bind (checkCx8 ..) fun _ => ite (trapAt ..) <| pure _)) <| bind (forRows (fun _ =>
        tstRow ..)) fun _ => bind (chargeCaps ..) fun _ => pure _

theorem Keeps.checkLocal (ea pitch : W64) (z : Nat) : Keeps P fw (checkLocal ea pitch z) := by
  unfold Machine.checkLocal
  exact when (trapXlate ..) <| ite (trapAt ..) <| pure _

theorem Keeps.checkWindowEnd (win : Nat) (ea : W64) (bytes : Nat) : Keeps P fw (checkWindowEnd win ea bytes) := by
  unfold Machine.checkWindowEnd
  exact ite (trapXlate ..) <| pure _

theorem Keeps.tldsRow (t : Num3) (w : Who) (sh ea pitch : W64) (m : Mod) (first r : Nat) :
    Keeps P fw (tldsRow t w sh ea pitch m first r) := by
  unfold Machine.tldsRow
  exact atRow (bind (checkWindowEnd ..) fun _ => bind (readSpan ..) fun ⟨_, _⟩ => when (acquireOf ..) <| commitLoad ..)

theorem Keeps.tileLoadLocal (t : Num3) (a b : Reg) (m : Mod) : Keeps P fw (tileLoadLocal t a b m) := by
  unfold Machine.tileLoadLocal
  exact withPorts fun _ => bind (rd ..) fun _ => bind (rd ..) fun _ => bind whoMe fun _ => bind getMe fun _ => bind (resumeRow ..) fun _ =>
    when2 (atRow (bind (checkTransferTile ..) fun _ => checkLocal ..)) (fun _ => modMe ..) <| bind (forRows (fun _ => tldsRow ..)) fun _ =>
      pure _

theorem Keeps.tstsRow (tl : Tile) (w : Who) (ea pitch : W64) (r : Nat) : Keeps P fw (tstsRow tl w ea pitch r) := by
  unfold Machine.tstsRow
  exact atRow (bind (checkWindowEnd ..) fun _ => bind (writeRow ..) fun _ => bind (charge ..) fun _ => bind (chargeCaps ..) fun _ => pure _)

theorem Keeps.tileStoreLocal (t : Num3) (a b : Reg) (m : Mod) : Keeps P fw (tileStoreLocal t a b m) := by
  unfold Machine.tileStoreLocal
  exact withPorts fun _ => bind (rd ..) fun _ => bind (rd ..) fun _ => bind whoMe fun _ => bind (releaseAt ..) fun _ => bind getMe fun _ =>
    bind (resumeRow ..) fun _ => when (atRow (bind (checkTransferTile ..) fun _ => checkLocal ..)) <| bind (forRows (fun _ =>
      tstsRow ..)) fun _ => pure _

theorem Keeps.checkIndexed (sh xsh : W64) (n : Nat) (l : Layout) (load : Bool) (scl : W64) :
    Keeps P fw (checkIndexed sh xsh n l load scl) := by
  unfold Machine.checkIndexed
  exact bind (checkTransferTile ..) fun _ => bind (checkPairing ..) fun _ => when (trapAt ..) <| when (trapAt ..) <| ite (trapAt ..) <|
    pure _

theorem Keeps.indexRow (l : Layout) (xsh : W64) (ks : List ℤ) (i : Nat) : Keeps P fw (indexRow l xsh ks i) := by
  unfold Machine.indexRow
  exact when (trapAt ..) <| pure _

theorem Keeps.tldxRow (t : Num3) (w : Who) (l : Layout) (xsh : W64) (ks : List ℤ) (vc : Nat) (m : Mod) (lcs : List Cap) (fmt : W64) (r :
    Nat) : Keeps P fw (tldxRow t w l xsh ks vc m lcs fmt r) := by
  unfold Machine.tldxRow
  refine atRow (bind (indexRow ..) fun _ => ?_)
  extract_lets +onlyGivenNames jp
  have hjp : ∀ r, Keeps P fw (jp r) := fun _ => bind (scaleOf ..) fun ⟨_, _⟩ => commitLoad ..
  clear_value jp
  exact ite (bind (readCx8 ..) fun ⟨⟨_, _⟩, _⟩ => bind (pure _) fun _ => hjp _) <| bind (readElems ..) fun _ => hjp _

theorem Keeps.tileLoadIndexed (t x : Num3) (a : Reg) (m : Mod) : Keeps P fw (tileLoadIndexed t x a m) := by
  unfold Machine.tileLoadIndexed
  exact withPorts fun _ => bind (rd ..) fun _ => bind whoMe fun _ => bind getMe fun _ => bind (resumeRow ..) fun _ =>
    bind (atRow (readLayout ..)) fun ⟨_, _⟩ => bind (acquireOf ..) fun _ => when2 (atRow (checkIndexed ..)) (fun _ => modMe ..) <|
      bind (forRows (fun _ => tldxRow ..)) fun _ => bind (chargeCaps ..) fun _ => pure _

theorem Keeps.tstxRow (tl : Tile) (w : Who) (l : Layout) (xsh : W64) (ks : List ℤ) (cols : Nat) (lcs : List Cap) (fmt : W64) (r : Nat) :
    Keeps P fw (tstxRow tl w l xsh ks cols lcs fmt r) := by
  unfold Machine.tstxRow
  exact atRow (bind (indexRow ..) fun _ => bind (writeRow ..) fun _ => bind (charge ..) fun _ => bind (chargeCaps ..) fun _ => pure _)

theorem Keeps.tileStoreIndexed (t x : Num3) (a : Reg) (m : Mod) : Keeps P fw (tileStoreIndexed t x a m) := by
  unfold Machine.tileStoreIndexed
  exact withPorts fun _ => bind (rd ..) fun _ => bind whoMe fun _ => bind (releaseAt ..) fun _ => bind getMe fun _ =>
    bind (resumeRow ..) fun _ => bind (atRow (readLayout ..)) fun ⟨_, _⟩ => when (atRow (checkIndexed ..)) <| bind (forRows (fun _ =>
      tstxRow ..)) fun _ => bind (chargeCaps ..) fun _ => pure _

theorem Intact.rejectTlp {s : State} (h : Intact P fw s) (fn : Nat) : Intact P fw (s.rejectTlp fn) := by
  unfold State.rejectTlp
  exact h.modFn ..

theorem Keeps.registerWrite (fn : Nat) (t : Tlp) : Keeps P fw (registerWrite fn t) := by
  unfold Machine.registerWrite
  exact hostTlp (getThen fun _ _ => bind (require ..) fun _ => ite (modify fun _ ht => ht.modFn ..) <| pure _)

theorem Keeps.packetWindowWrite (fn : Nat) (t : Tlp) : Keeps P fw (packetWindowWrite fn t) := by
  unfold Machine.packetWindowWrite
  refine hostTlp (getThen fun _ hs => bind (require ..) fun _ => ite (set (hs.rejectTlp ..)) <| ?_)
  split
  · next t e => exact set ((hs.offer e))
  · exact set (hs.rejectTlp ..)
  · exact set (hs.modFn ..)

theorem Keeps.wakeWindowWrite (fn : Nat) (t : Tlp) : Keeps P fw (wakeWindowWrite fn t) := by
  unfold Machine.wakeWindowWrite
  exact hostTlp (getThen fun _ hs => bind (require ..) fun _ => ite (set (hs.rejectTlp ..)) <| set (hs.wakeOn ..))

theorem Keeps.wayMaskWrite (off size : Nat) (v : W64) : Keeps P fw (wayMaskWrite off size v) := by
  unfold Machine.wayMaskWrite
  exact getThen fun _ hs => bind (require ..) fun _ => ite (set (hs.modFn ..)) <| set hs.update

theorem Keeps.fetch16 (pc : W64) : Keeps P fw (fetch16 pc) := by
  unfold Machine.fetch16
  refine bind whoMe fun _ => when (trapXlate ..) <| when (trapAt ..) <| bind (locate ..) fun _ => bind (authorize ..) fun _ =>
    bind (firewall ..) fun _ => getThen fun _ _ => ?_
  split
  · exact pure _
  · exact getThen fun _ _ => when (lineIn ..) <| getThen fun _ hu => setThen (hu.modCore ..) <| pure _

theorem Keeps.fetchFrom (fuel : Nat) (p : Pfx) (n : Nat) (pc : W64) : Keeps P fw (fetchFrom fuel p n pc) := by
  induction fuel generalizing p n with
  | zero => exact pure _
  | succ f ih =>
    rw [Machine.fetchFrom]
    refine bind (fetch16 ..) fun _ => ?_
    split
    · exact pure _
    · exact pure _
    · exact ih ..

theorem Keeps.fetchInstr : Keeps P fw (fetchInstr) := by
  unfold Machine.fetchInstr
  exact bind getMe fun _ => fetchFrom ..



theorem Intact.issuing {s : State} (h : Intact P fw s) (core slot : Nat) (i : Instr) (len : Nat) :
    Intact P fw (s.issuing core slot i len) := by
  unfold State.issuing
  exact h.modSlot ..




end

end Sys2Proof.Machine
end

section
/-! Intact: every instruction and event of the dispatch but the two that change the power. -/

-- One declaration after another: checked side by side, these take more threads than the memory of the check holds.
set_option Elab.async false

namespace Sys2Proof.Machine

section
variable {P : Prop} {fw : Matrices}

/-! ## The host commands (R28 to R35) -/

section
variable {s : State}

theorem Keeps.execGetInfo (h : Intact P fw s) (c : Cmd) : IntactAfter P fw (execGetInfo c s) := by
  refine event (getThen fun _ _ => issueCmd fun t ht => ?_) h
  exact .iteEnd (ht.fails _) <| (ht.hostWrite ..).succeeds _

theorem Keeps.execWorldCreate (h : Intact P fw s) (c : Cmd) : IntactAfter P fw (execWorldCreate c s) :=
  event (issueCmd fun _ ht => ht.worldCreate c) h

theorem Keeps.execWorldAssign (h : Intact P fw s) (c : Cmd) : IntactAfter P fw (execWorldAssign c s) := by
  refine event (issueCmd fun t ht => ?_) h
  exact .iteEnd (ht.fails _) <| .iteEnd (ht.fails _) <| Intact.succeeds ((ht.modWorld ..).modFn ..).refreshBindings _

theorem Keeps.execWorldDestroy (h : Intact P fw s) (c : Cmd) : IntactAfter P fw (execWorldDestroy c s) :=
  event (getThen fun _ _ => issueCmd fun _ ht => ht.worldDestroy c) h

theorem Keeps.execLoadImage (h : Intact P fw s) (c : Cmd) : IntactAfter P fw (execLoadImage c s) := by
  refine event (getThen fun _ _ => issueCmd fun t ht => ?_) h
  refine .iteEnd (ht.fails _) <| .iteEnd (ht.fails _) <| .iteEnd (ht.fails _) <| .iteEnd (ht.fails _) ?_
  exact .iteEnd ((ht.copyLines ..).fails _) <| Intact.succeeds ((ht.copyLines ..).modWorld ..) _

theorem Intact.launchFrom (h : Intact P fw s) (c : Cmd) (w a n i fuel : Nat) : Intact P fw (launchFrom c w a n i fuel s).2 := by
  induction fuel generalizing s i with
  | zero => exact h.succeeds _
  | succ f ih =>
    rw [Machine.launchFrom]
    refine .iteEnd (h.succeeds _) <| .iteEnd h ?_
    cases e : s.offer w (s.hostRead (a + 64 * i) 64) with
    | accepted t => exact ih (h.offer e) _
    | malformed => exact h.update
    | full => exact h

theorem Keeps.execLaunch (h : Intact P fw s) (c : Cmd) : IntactAfter P fw (execLaunch c s) := by
  refine event (getThen fun _ _ => issueCmd fun t ht => ?_) h
  exact .iteEnd (ht.fails _) <| ht.launchFrom ..

theorem Keeps.execPrincipalAdd (h : Intact P fw s) (c : Cmd) : IntactAfter P fw (execPrincipalAdd c s) := by
  refine event (getThen fun _ _ => issueCmd fun t ht => ?_) h
  exact .iteEnd (ht.fails _) <| .iteEnd ht <| ht.addPrincipal ..

theorem Keeps.execPrincipalRevoke (h : Intact P fw s) (c : Cmd) : IntactAfter P fw (execPrincipalRevoke c s) := by
  refine event (getThen fun _ _ => issueCmd fun t ht => ?_) h
  exact .iteEnd (ht.fails _) <| .iteEnd (ht.fails _) <| .iteEnd (ht.fails _) <| .iteEnd (ht.fails _) ht.update

theorem Keeps.execRuleSet (h : Intact P fw s) (c : Cmd) : IntactAfter P fw (execRuleSet c s) := by
  refine event (getThen fun _ _ => issueCmd fun t ht => ?_) h
  refine .iteEnd (ht.fails _) ?_
  split
  · exact ht.fails _
  · exact Intact.succeeds ht.update _

theorem Keeps.execCapCreate (h : Intact P fw s) (c : Cmd) : IntactAfter P fw (execCapCreate c s) := by
  refine event (getThen fun _ _ => issueCmd fun t ht => ?_) h
  exact .iteEnd (ht.fails _) <| .iteEnd (ht.fails _) <| .iteEnd (ht.fails _) <| Intact.succeeds ht.update _

theorem Keeps.execCapDestroy (h : Intact P fw s) (c : Cmd) : IntactAfter P fw (execCapDestroy c s) := by
  refine event (getThen fun _ _ => issueCmd fun t ht => ?_) h
  exact .iteEnd (ht.fails _) <| Intact.succeeds ht.update _

theorem Keeps.execLeaseRenewWorldMemory (h : Intact P fw s) (c : Cmd) (r : Report) :
    IntactAfter P fw (execLeaseRenewWorldMemory c r s) := event (renew fun _ ht => ht.update) h

theorem Keeps.execLeaseRenewIdeStream (h : Intact P fw s) (c : Cmd) (r : Report) :
    IntactAfter P fw (execLeaseRenewIdeStream c r s) := event (renew fun _ ht => ht.setFn ..) h

theorem Keeps.execLeaseRenewContextSave (h : Intact P fw s) (c : Cmd) (r : Report) :
    IntactAfter P fw (execLeaseRenewContextSave c r s) := event (renew fun _ ht => ht.update) h

theorem Keeps.execMeterRead (h : Intact P fw s) (c : Cmd) : IntactAfter P fw (execMeterRead c s) := by
  refine event (getThen fun _ _ => issueCmd fun t ht => ?_) h
  exact .iteEnd (ht.fails _) <| (ht.hostWrite ..).succeeds _

theorem Keeps.execCheckpointSave (h : Intact P fw s) (c : Cmd) : IntactAfter P fw (execCheckpointSave c s) :=
  event (checkpoint fun _ ht => ht.checkpointSave c) h

theorem Keeps.execCheckpointRestore (h : Intact P fw s) (c : Cmd) : IntactAfter P fw (execCheckpointRestore c s) :=
  event (checkpoint fun _ ht => ht.checkpointRestore c) h

theorem Keeps.execBadOpcode (h : Intact P fw s) (c : Cmd) : IntactAfter P fw (execBadOpcode c s) :=
  event (issueCmd fun _ ht => ht.fails _) h

/-! ## Sessions, keys and power whose events choose -/

theorem Keeps.execKeyExchange (h : Intact P fw s) (fn : Nat) : IntactAfter P fw (execKeyExchange fn s) := by
  refine event (bind (doeReady ..) fun _ => getThen fun t ht => ite (set (ht.reply ..)) <| ?_) h
  split
  · exact set (ht.reply ..)
  · exact set ((ht.modFn ..).reply ..)

theorem Keeps.execFinish (h : Intact P fw s) (fn session : Nat) : IntactAfter P fw (execFinish fn session s) := by
  refine event (bind (doeReady ..) fun _ => getThen fun t ht => ?_) h
  split
  · exact set ((ht.modFn ..).reply ..)
  · exact set (ht.reply ..)

theorem Keeps.execSessionTimeout (h : Intact P fw s) (fn session : Nat) : IntactAfter P fw (execSessionTimeout fn session s) := by
  refine event (getThen fun t ht => ?_) h
  split
  · exact bind (require ..) fun _ => set (ht.dropSession ..)
  · exact require ..

theorem Keeps.execIdeKeySetRetire (h : Intact P fw s) (fn n : Nat) : IntactAfter P fw (execIdeKeySetRetire fn n s) := by
  refine event (getThen fun t ht => ?_) h
  dsimp only
  split
  · exact bind (require ..) fun _ => set (ht.setFn ..)
  · exact require ..

theorem Keeps.execClusterEnable (h : Intact P fw s) : IntactAfter P fw (execClusterEnable s) := by
  refine event (getThen fun t ht => bind (require ..) fun _ => ?_) h
  split
  · exact require ..
  · exact bind (require ..) fun _ => set (.foldl (fun _ _ hu => hu.modCore ..) ht)

theorem Keeps.execCxlMemRequest (h : Intact P fw s) (q : MemRequest) : IntactAfter P fw (execCxlMemRequest q s) := by
  refine event (getThen fun t ht => bind (require ..) fun _ => ite (set ht.update) <| ite (ite (set ht.update) ?_) (ite ?_ ?_)) h
  · exact set (ht.deviceWrite 1 q.addr q.data).update
  · exact set ((ht.mscTouch (q.addr / 64)).lineCollide 1 (q.addr / 64)).update
  · exact set (ht.mscTouch (q.addr / 64)).update

end

/-! ## The dispatch -/

/-- The events of power: boot locks the matrices, and a loss of power clears them. -/
def changesPower (i : Instr) : Bool :=
  match i with
  | .powerOn _ => true
  | .powerLoss => true
  | .overTemperature _ _ => true
  | _ => false

theorem Keeps.exec {s : State} (h : Intact P fw s) {i : Instr} (hi : changesPower i = false) : IntactAfter P fw (exec i s) := by
  cases i with
  | add _ _ _ => exact run (aluTwo ..) h
  | sub _ _ _ => exact run (aluTwo ..) h
  | and _ _ _ => exact run (aluTwo ..) h
  | or _ _ _ => exact run (aluTwo ..) h
  | xor _ _ _ => exact run (aluTwo ..) h
  | sll _ _ _ => exact run (aluTwo ..) h
  | srl _ _ _ => exact run (aluTwo ..) h
  | sra _ _ _ => exact run (aluTwo ..) h
  | mul _ _ _ => exact run (aluTwo ..) h
  | mulh _ _ _ => exact run (aluTwo ..) h
  | mulhu _ _ _ => exact run (aluTwo ..) h
  | div _ _ _ => exact run (aluTwo ..) h
  | divu _ _ _ => exact run (aluTwo ..) h
  | rem _ _ _ => exact run (aluTwo ..) h
  | min _ _ _ => exact run (aluTwo ..) h
  | max _ _ _ => exact run (aluTwo ..) h
  | mov _ _ => exact run (aluOne ..) h
  | neg _ _ => exact run (aluOne ..) h
  | not _ _ => exact run (aluOne ..) h
  | clz _ _ => exact run (aluOne ..) h
  | ctz _ _ => exact run (aluOne ..) h
  | popc _ _ => exact run (aluOne ..) h
  | sextb _ _ => exact run (aluOne ..) h
  | sexth _ _ => exact run (aluOne ..) h
  | sextw _ _ => exact run (aluOne ..) h
  | zextw _ _ => exact run (aluOne ..) h
  | minu _ _ => exact run (aluTwo ..) h
  | maxu _ _ => exact run (aluTwo ..) h
  | cmpeq _ _ _ => exact run (compare ..) h
  | cmplt _ _ _ => exact run (compare ..) h
  | cmpltu _ _ _ => exact run (compare ..) h
  | selp _ _ => exact run (selp ..) h
  | addi _ _ => exact run (aluImm ..) h
  | li _ _ => exact run (scalar <| wr ..) h
  | lih _ _ => exact run (aluImm ..) h
  | slli _ _ => exact run (aluImm ..) h
  | srli _ _ => exact run (aluImm ..) h
  | srai _ _ => exact run (aluImm ..) h
  | rori _ _ => exact run (aluImm ..) h
  | cmpi _ _ _ _ => exact run (scalar <| bind (rd ..) fun _ => modMe ..) h
  | b _ => exact run (bind getMe fun _ => pure _) h
  | bp _ _ _ => exact run (bind getMe fun _ => pure _) h
  | jr _ => exact run (jumpReg ..) h
  | jalr _ _ => exact run (jumpLink ..) h
  | ret => exact run (jumpReg ..) h
  | nop => exact run (pure _) h
  | stop => exact run (stop) h
  | pand _ _ => exact run (predTwo ..) h
  | por _ _ => exact run (predTwo ..) h
  | pxor _ _ => exact run (predTwo ..) h
  | pnot _ _ => exact run (predTwo ..) h
  | ptos _ => exact run (scalar <| bind getMe fun _ => wr ..) h
  | call _ => exact run (bind getMe fun _ => bind nextPc fun _ => bind (modMe ..) fun _ => pure _) h
  | ldd _ _ _ _ => exact run (load ..) h
  | ldw _ _ _ _ => exact run (load ..) h
  | std _ _ _ _ => exact run (store ..) h
  | stw _ _ _ _ => exact run (store ..) h
  | ldb _ _ _ _ => exact run (load ..) h
  | ldbu _ _ _ _ => exact run (load ..) h
  | ldh _ _ _ _ => exact run (load ..) h
  | ldhu _ _ _ _ => exact run (load ..) h
  | ldwu _ _ _ _ => exact run (load ..) h
  | stb _ _ _ _ => exact run (store ..) h
  | sth _ _ _ _ => exact run (store ..) h
  | ldf _ _ _ => exact run (feRequest ..) h
  | ldfk _ _ _ => exact run (feRequest ..) h
  | ste _ _ _ => exact run (feRequest ..) h
  | stf _ _ _ => exact run (feNow (fun _ => bind (rd ..) fun _ => modify fun _ hs => (hs.bankWrite ..).fill ..)) h
  | feclr _ => exact run (feNow (fun _ => modify fun _ hs => hs.setFull ..)) h
  | feq _ _ => exact run (feNow (fun _ => modify fun _ hs => hs.modMe ..)) h
  | invl1 => exact run (bind (modCore ..) fun _ => pure _) h
  | pref _ => exact run (prefetch ..) h
  | prefl _ => exact run (prefetch ..) h
  | tld _ _ _ _ => exact run (tileLoad ..) h
  | tst _ _ _ _ => exact run (tileStore ..) h
  | tlds _ _ _ _ => exact run (tileLoadLocal ..) h
  | tsts _ _ _ _ => exact run (tileStoreLocal ..) h
  | tldx _ _ _ _ => exact run (tileLoadIndexed ..) h
  | tstx _ _ _ _ => exact run (tileStoreIndexed ..) h
  | cpy _ _ => exact run (copyInstr ..) h
  | cpy2d _ _ => exact run (copyInstr ..) h
  | cpyl _ _ => exact run (copyInstr ..) h
  | drain _ => exact run (drain ..) h
  | waitmsg _ _ => exact run (waitmsg ..) h
  | recvmsg _ _ _ => exact run (recvmsg ..) h
  | sendmsg _ _ _ => exact run (sendmsg ..) h
  | tadd _ _ _ => exact run (tileTwo ..) h
  | tsub _ _ _ => exact run (tileTwo ..) h
  | tmul _ _ _ => exact run (tileTwo ..) h
  | tmax _ _ _ => exact run (tileTwo ..) h
  | tmin _ _ _ => exact run (tileTwo ..) h
  | tfma _ _ _ => exact run (tileFma ..) h
  | tsel _ _ _ => exact run (tileSel ..) h
  | tcpym _ _ _ => exact run (tileCpym ..) h
  | tiadd _ _ _ => exact run (tileTwo ..) h
  | tisub _ _ _ => exact run (tileTwo ..) h
  | timul _ _ _ => exact run (tileTwo ..) h
  | tand _ _ _ => exact run (tileTwo ..) h
  | tor _ _ _ => exact run (tileTwo ..) h
  | txor _ _ _ => exact run (tileTwo ..) h
  | tshl _ _ _ => exact run (tileTwo ..) h
  | tshr _ _ _ => exact run (tileTwo ..) h
  | texp _ _ => exact run (tileOne ..) h
  | texp2 _ _ => exact run (tileOne ..) h
  | tlog2 _ _ => exact run (tileOne ..) h
  | trcp _ _ => exact run (tileOne ..) h
  | trsq _ _ => exact run (tileOne ..) h
  | tabs _ _ => exact run (tileOne ..) h
  | tneg _ _ => exact run (tileOne ..) h
  | tcvt _ _ _ => exact run (tileOne ..) h
  | trsum _ _ => exact run (tileRowReduce ..) h
  | trmax _ _ => exact run (tileRowReduce ..) h
  | tcsum _ _ => exact run (tileColReduce ..) h
  | tcmax _ _ => exact run (tileColReduce ..) h
  | tbrow _ _ _ => exact run (tileBrow ..) h
  | tbcol _ _ _ => exact run (tileBcol ..) h
  | ttrans _ _ => exact run (tileTrans ..) h
  | tmov _ _ => exact run (tileMov ..) h
  | tceq _ _ _ => exact run (tileCmp ..) h
  | tclt _ _ _ => exact run (tileCmp ..) h
  | tcle _ _ _ => exact run (tileCmp ..) h
  | tcne _ _ _ => exact run (tileCmp ..) h
  | tisnan _ _ => exact run (tileOne ..) h
  | tcltu _ _ _ => exact run (tileCmp ..) h
  | tcleu _ _ _ => exact run (tileCmp ..) h
  | tshape _ _ => exact run (tileShape ..) h
  | tshget _ _ => exact run (bind getMe fun _ => atFmt (waiting <| bind getMe fun _ => wr ..)) h
  | tzero _ _ => exact run (tileZero ..) h
  | tfill _ _ => exact run (tileFill ..) h
  | tgete _ _ => exact run (tileGete ..) h
  | tsete _ _ => exact run (tileSete ..) h
  | tmaskr _ _ => exact run (tileMask ..) h
  | tmaskc _ _ => exact run (tileMask ..) h
  | tadds _ _ _ => exact run (tileScalar ..) h
  | tmuls _ _ _ => exact run (tileScalar ..) h
  | tmaxs _ _ _ => exact run (tileScalar ..) h
  | tsubs _ _ _ => exact run (tileScalar ..) h
  | tsadd _ _ => exact run (tileSadd ..) h
  | tsmax _ _ => exact run (tileSmax ..) h
  | tscpy _ _ => exact run (tileScpy ..) h
  | tsfma _ _ _ => exact run (tileSfma ..) h
  | tsend _ _ => exact run (tileSend ..) h
  | mma _ _ _ => exact run (mma ..) h
  | mmaz _ _ _ => exact run (mma ..) h
  | mmas _ _ _ => exact run (mma ..) h
  | mmaa _ _ _ _ => exact run (mma ..) h
  | mmax _ _ _ _ => exact run (mma ..) h
  | ldstat _ _ _ _ => exact run (ldstat ..) h
  | ldproj _ _ _ => exact run (ldproj ..) h
  | ldscl _ _ _ _ => exact run (ldscl ..) h
  | accrd _ _ _ => exact run (accrd ..) h
  | accwr _ _ _ => exact run (accwr ..) h
  | accz _ => exact run (bind (needAcc ..) fun _ => bind (lockAcc ..) fun _ => bind (modAcc ..) fun _ => pure _) h
  | accclm _ _ => exact run (accclm ..) h
  | accrel _ =>
    exact run (bind (needAcc ..) fun _ => bind (lockAcc ..) fun _ => bind getCore fun _ => bind (modAcc ..) fun _ =>
      bind (unitsGiven ..) fun _ => bind (modMe ..) fun _ => bind (modify fun _ hs => hs.modMyCore ..) fun _ => pure _) h
  | swap _ => exact run (bind (needPlane ..) fun _ => bind (modPlane ..) fun _ => pure _) h
  | plclm _ => exact run (plclm ..) h
  | plrel _ =>
    exact run (bind (needPlane ..) fun _ => bind getCore fun _ => bind (modPlane ..) fun _ => bind (unitsGiven ..) fun _ =>
      bind (modMe ..) fun _ => pure _) h
  | plz _ => exact run (bind (needPlane ..) fun _ => bind (modPlane ..) fun _ => pure _) h
  | epexp _ _ _ => exact run (eyeTile ..) h
  | epabs _ _ _ => exact run (eyeTile ..) h
  | aadd _ _ _ => exact run (fused ..) h
  | aand _ _ _ => exact run (fused ..) h
  | aor _ _ _ => exact run (fused ..) h
  | axor _ _ _ => exact run (fused ..) h
  | amin _ _ _ => exact run (fused ..) h
  | amax _ _ _ => exact run (fused ..) h
  | aminu _ _ _ => exact run (fused ..) h
  | amaxu _ _ _ => exact run (fused ..) h
  | aswap _ _ _ => exact run (fused ..) h
  | acas _ _ _ _ => exact run (fused ..) h
  | afadd _ _ _ => exact run (fused ..) h
  | rsv _ _ _ => exact run (rsv ..) h
  | rls _ _ _ => exact run (rls ..) h
  | rlsn _ _ => exact run (rls ..) h
  | waitrs _ _ => exact run (waitrs ..) h
  | rsvw _ _ _ => exact run (rsvw ..) h
  | fence _ => exact run (fence ..) h
  | bararr _ _ => exact run (bararr ..) h
  | barwait _ _ => exact run (barwait ..) h
  | barsync _ _ => exact run (barsync ..) h
  | barexp _ _ => exact run (barexp ..) h
  | barinit _ _ => exact run (barinit ..) h
  | barqry _ _ => exact run (barqry ..) h
  | waitva _ _ => exact run (waitva ..) h
  | wake _ _ _ => exact run (wake ..) h
  | wakeall _ _ _ => exact run (wake ..) h
  | spawn _ => exact run (spawn ..) h
  | sync _ => exact run (sync ..) h
  | yield => exact run (yieldTask) h
  | texit => exact run (texit) h
  | pktget _ => exact run (pktget ..) h
  | append _ _ _ => exact run (append ..) h
  | appendf _ _ _ => exact run (appendf ..) h
  | merge _ _ => exact run (merge ..) h
  | mergew _ _ => exact run (mergew ..) h
  | epush _ _ => exact run (epush ..) h
  | epop _ _ => exact run (epop ..) h
  | eqry _ _ => exact run (eqry ..) h
  | krd _ _ => exact run (krd ..) h
  | kwr _ _ => exact run (kwr ..) h
  | trap _ => exact run (trapInstr ..) h
  | rte => exact run (rteInstr) h
  | bkpt => exact run (bkpt) h
  | haltt _ _ => exact run (haltt ..) h
  | ctxsave _ _ => exact run (ctxsave ..) h
  | ctxload _ => exact run (ctxload ..) h
  | ctxout _ _ => exact run (ctxout ..) h
  | ctxin _ _ => exact run (ctxin ..) h
  | preempt _ _ => exact run (preempt ..) h
  | resume _ => exact run (resume ..) h
  | cpyretry _ => exact run (cpyretry ..) h
  | cpyskip _ => exact run (cpyskip ..) h
  | cpyabort _ => exact run (cpyabort ..) h
  | chrd _ _ => exact run (chrd ..) h
  | adopt _ _ => exact run (adopt ..) h
  | unadopt _ => exact run (unadopt ..) h
  | metrd _ _ => exact runChargedAfter (metrd ..) h
  | capchk _ _ _ => exact run (capchk ..) h
  | kvld _ _ _ _ => exact run (kvld ..) h
  | kvst _ _ _ _ => exact run (kvst ..) h
  | kvmult _ _ _ _ => exact run (kvmult ..) h
  | scoreb _ _ _ => exact run (scoreb ..) h
  | tripc _ _ _ => exact run (tripc ..) h
  | dmerge _ _ => exact run (dmerge ..) h
  | illegalEncoding _ => exact run (trapAt ..) h
  | instructionCompletion _ _ => exact event (instructionCompletion ..) h
  | slotSearch _ => exact event (slotSearch ..) h
  | stealProbeResult _ => exact event (stealProbeResult ..) h
  | distributorDelivery _ => exact event (distributorDelivery ..) h
  | packetAging _ _ => exact event (packetAging ..) h
  | contextAging _ _ => exact event (contextAging ..) h
  | queueSegmentSwapIn _ _ => exact event (queueSegmentSwapIn ..) h
  | contextMove _ => exact event (contextMove ..) h
  | quantumExpiry _ _ => exact event (quantumExpiry ..) h
  | preemptReq _ _ => exact event (preemptReqRecord ..) h
  | reservationTimeout _ => exact event (reservationTimeout ..) h
  | reservationGrant _ => exact event (reservationGrant ..) h
  | feWaiterServed _ => exact event (feWaiterServed ..) h
  | waitmsgTimeout _ _ => exact event (waitmsgTimeout ..) h
  | waitrsTimeout _ _ => exact event (waitrsTimeout ..) h
  | storePerform _ _ => exact event (storePerform ..) h
  | l1Fill _ _ => exact event (l1Fill ..) h
  | messagePlacement _ => exact event (messagePlacement ..) h
  | copyChunk _ _ => exact event (copyChunk ..) h
  | copyCompletionMessage _ _ => exact event (copyCompletionMessage ..) h
  | copyfaultDelivery _ _ => exact event (copyfaultDelivery ..) h
  | logMergeRun _ _ => exact event (logMergeRun ..) h
  | e0Merge _ => exact event (e0Merge ..) h
  | gather _ => exact event (gather ..) h
  | mergePages _ => exact event (mergePages ..) h
  | setTau _ => exact event (setTau ..) h
  | allreduce _ => exact event (collective ..) h
  | allgather _ => exact event (collective ..) h
  | reducescatter _ => exact event (collective ..) h
  | send _ => exact event (sendData ..) h
  | recv _ => exact event (recvData ..) h
  | pktsend _ => exact event (pktSend ..) h
  | zeroingComplete _ => exact event (zeroingComplete ..) h
  | revocationSweep => exact event (revocationSweep) h
  | revocationComplete => exact event (revocationComplete) h
  | getInfo _ => exact Keeps.execGetInfo h _
  | worldCreate _ => exact Keeps.execWorldCreate h _
  | worldAssign _ => exact Keeps.execWorldAssign h _
  | worldDestroy _ => exact Keeps.execWorldDestroy h _
  | loadImage _ => exact Keeps.execLoadImage h _
  | launch _ => exact Keeps.execLaunch h _
  | principalAdd _ => exact Keeps.execPrincipalAdd h _
  | principalRevoke _ => exact Keeps.execPrincipalRevoke h _
  | ruleSet _ => exact Keeps.execRuleSet h _
  | capCreate _ => exact Keeps.execCapCreate h _
  | capDestroy _ => exact Keeps.execCapDestroy h _
  | leaseRenewWorldMemory _ _ => exact Keeps.execLeaseRenewWorldMemory h _ _
  | leaseRenewIdeStream _ _ => exact Keeps.execLeaseRenewIdeStream h _ _
  | leaseRenewContextSave _ _ => exact Keeps.execLeaseRenewContextSave h _ _
  | meterRead _ => exact Keeps.execMeterRead h _
  | checkpointSave _ => exact Keeps.execCheckpointSave h _
  | checkpointRestore _ => exact Keeps.execCheckpointRestore h _
  | debugAttach _ => exact event (debugCmd ..) h
  | debugDetach _ => exact event (debugCmd ..) h
  | badOpcode _ => exact Keeps.execBadOpcode h _
  | lostCommandWrite _ _ => exact event (hostTlp (getThen fun _ _ => bind (require ..) fun _ => modify fun _ ht => ht.modFn ..)) h
  | commandCompletion _ => exact event (commandCompletion ..) h
  | registerWrite _ _ => exact event (registerWrite ..) h
  | packetWindowWrite _ _ => exact event (packetWindowWrite ..) h
  | wakeWindowWrite _ _ => exact event (wakeWindowWrite ..) h
  | wayMaskWrite _ _ _ => exact event (wayMaskWrite ..) h
  | trapqPop _ => exact event (bind popRecord fun _ => modify fun _ hs => hs.writeReg ..) h
  | trapqClear => exact event (modCore ..) h
  | tlbinvWrite _ => exact event (getThen fun _ _ => tlbinv ..) h
  | seqRegisterWrite _ _ => exact event (bind (require ..) fun _ => getThen fun _ _ => ctrlStore ..) h
  | doeDiscovery _ _ => exact event (bind (doeReady ..) fun _ => modify fun _ hs => .ite (hs.modFn ..) (hs.reply ..)) h
  | getVersion _ => exact event (spdmAnswer ..) h
  | getCapabilities _ => exact event (spdmAnswer ..) h
  | negotiateAlgorithms _ _ => exact event (bind (doeReady ..) fun _ => modify fun _ hs => hs.reply ..) h
  | getDigests _ => exact event (getThen fun _ _ => spdmAnswer ..) h
  | getCertificate _ _ => exact event (bind (doeReady ..) fun _ => modify fun _ hs => hs.reply ..) h
  | challenge _ _ =>
    exact event (bind (doeReady ..) fun _ => getThen fun _ hs => ite (set (hs.reply ..)) <| ite (set (hs.reply ..)) <|
      set (((hs.issueNonce ..)).reply ..)) h
  | getMeasurements _ _ _ => exact event (bind (doeReady ..) fun _ => getThen fun _ hs => set ((((hs.issueNonce ..)).modFn ..).reply ..)) h
  | keyExchange _ => exact Keeps.execKeyExchange h _
  | finish _ _ => exact Keeps.execFinish h _ _
  | heartbeat _ _ => exact event (onSession ..) h
  | keyUpdate _ _ => exact event (onSession ..) h
  | endSession _ _ =>
    exact event (bind (doeReady ..) fun _ => getThen fun _ hs => ite (set ((hs.dropSession ..).reply ..)) <| set (hs.reply ..)) h
  | sessionTimeout _ _ => exact Keeps.execSessionTimeout h _ _
  | lockInterfaceRequest _ _ => exact event (onTdisp (getThen fun _ hs => ite (set ((hs.modFn ..).reply ..)) <| set (hs.reply ..))) h
  | startInterfaceRequest _ _ =>
    exact event (onTdisp (getThen fun _ hs => ite (set (((hs.modFn ..).refreshBindings).reply ..)) <| set (hs.reply ..))) h
  | stopInterfaceRequest _ _ =>
    exact event (onTdisp (getThen fun _ hs => ite (set ((((hs.stopCarried ..).modFn ..).refreshBindings).reply ..)) <| set (hs.reply ..))) h
  | lockedConfigWrite _ => exact event (modify fun _ hs => hs.tdiError ..) h
  | keyProg _ _ _ _ => exact event (secured (getThen fun _ hs => ite (set (hs.reply ..)) <| set (hs.update.reply ..))) h
  | keySetGo _ _ _ _ => exact event (secured (getThen fun _ hs => ite (set (hs.reply ..)) <| set ((hs.setFn ..).reply ..))) h
  | ideKeySetSwitch _ _ => exact event (getThen fun _ hs => bind (require ..) fun _ => set (hs.setFn ..)) h
  | ideKeySetRetire _ _ => exact Keeps.execIdeKeySetRetire h _ _
  | ideIntegrityFailure _ => exact event (modify fun _ hs => hs.tdiError ..) h
  | worldKeyLeaseExpiry _ =>
    exact event (getThen fun _ hs => bind (require ..) fun _ => set (.ite (((hs.modWorld ..).tdiFails ..).refreshBindings)
      (((hs.modWorld ..).tdiFails ..).stopWorld ..))) h
  | ideKeySetExpiry _ _ _ => exact event (getThen fun _ hs => bind (require ..) fun _ => set (hs.setFn ..)) h
  | contextSaveKeyExpiry _ => exact event (getThen fun _ _ => require ..) h
  | linkKeyGenerationExpiry _ _ _ => exact event (linkKeyGenerationExpiry ..) h
  | checkpointKeyExpiry => exact event (getThen fun _ hs => bind (require ..) fun _ => set hs.update) h
  | powerOn _ => cases hi
  | powerLoss => cases hi
  | clusterEnable => exact Keeps.execClusterEnable h
  | arrayGating _ => exact event (getThen fun _ hs => bind (require ..) fun _ => set (hs.setCore ..)) h
  | throttleLevelChange _ _ _ => exact event (getThen fun _ hs => bind (require ..) fun _ => set hs.update.rejudge) h
  | overTemperature _ _ => cases hi
  | getTelemetry => exact event (getThen fun _ hs => bind (require ..) fun _ => set hs.update) h
  | uncore _ _ _ => exact event (getThen fun _ hs => bind (require ..) fun _ => set hs.update) h
  | setPowerCap _ => exact event (getThen fun _ hs => bind (require ..) fun _ => set hs.update.rejudge) h
  | flitReceive _ _ => exact event (flitReceive ..) h
  | pauseFlit _ => exact event (pauseLink ..) h
  | resumeFlit _ => exact event (pauseLink ..) h
  | retireFlit _ _ => exact event (retireFlit ..) h
  | linkUp _ _ => exact event (linkUp ..) h
  | linkDown _ => exact event (linkDown ..) h
  | linkKeyRotation _ => exact event (linkKeyRotation ..) h
  | collectiveFailureNotice _ _ _ _ _ => exact event (collectiveFailureNotice ..) h
  | channelItemPlacement _ => exact event (channelItemPlacement ..) h
  | cxlMemRequest _ => exact Keeps.execCxlMemRequest h _
  | sessionAeadFailure _ _ => exact event (getThen fun _ hs => bind (require ..) fun _ => set (hs.dropSession ..)) h

end

end Sys2Proof.Machine
end

section
/-! A step keeps memory canonical, and while the power stays on the locked matrix (R47, log 4): the turn of a thread, the default rotation,
and the acts of a schedule. -/

-- One declaration after another: checked side by side, these take more threads than the memory of the check holds.
set_option Elab.async false

namespace Sys2Proof.Machine

/-! ## The events of power -/

theorem exec_powerOn (s : State) (v : BootVerdict) : exec (.powerOn v) s = .next (if !s.power || !s.booted then s.boot v else s) := by
  change event (MonadState.get >>= fun s => require (!s.power || !s.booted) >>= fun _ => MonadStateOf.set (s.boot v)) s = _
  cases h : (!s.power || !s.booted) <;> simp [event, h]

/-- An event that changes the state where its condition holds. -/
theorem event_require_modify (s : State) (b : State → Bool) (f : State → State) :
    event (MonadState.get >>= fun s => require (b s) >>= fun _ => modify f) s = .next (if b s then f s else s) := by
  cases h : b s <;> simp [event, h]

theorem exec_powerLoss (s : State) : exec .powerLoss s = .next (if s.power then s.unpowered else s) :=
  event_require_modify s (·.power) State.unpowered

theorem exec_overTemperature (s : State) (die tj : Nat) :
    exec (.overTemperature die tj) s = .next (if s.power && decide (die ≤ 1) && decide (tj ≥ 920) then s.unpowered else s) :=
  event_require_modify s (fun s => s.power && decide (die ≤ 1) && decide (tj ≥ 920)) State.unpowered

/-! ## What any instruction or event leaves -/

/-- Memory is canonical, where `P` asks for it, and the matrices of a device whose boot has run are those given, or the power is off. -/
structure Settled (P : Prop) (fw : Matrices) (s : State) : Prop where
  memory : P → s.MemoryWf
  firewall : fw.power = true → fw.booted = true → s.power = false ∨ s.matrices = fw

/-- What an outcome leaves is settled, where it is a state at all. -/
def SettledAfter (P : Prop) (fw : Matrices) (o : Host.Outcome State Fault Refusal) : Prop := ∀ t, o = .next t → Settled P fw t

variable {P : Prop} {fw : Matrices} {s : State}

theorem Intact.settled (h : Intact P fw s) : Settled P fw s := ⟨h.memory, fun _ _ => .inr h.firewall⟩

theorem SettledAfter.next (h : Settled P fw s) : SettledAfter P fw (.next s) := by
  rintro _ ⟨⟩
  exact h

theorem IntactAfter.settled {o : Host.Outcome State Fault Refusal} (h : IntactAfter P fw o) : SettledAfter P fw o :=
  fun t e => (h t e).settled

theorem Settled.unpowered (h : Intact P fw s) : Settled P fw s.unpowered :=
  ⟨fun hP => State.unpowered_memoryWf (h.memory hP), fun _ _ => .inl rfl⟩

theorem Settled.ite {c : Prop} [Decidable c] {s t : State} (hs : c → Settled P fw s) (ht : Settled P fw t) :
    Settled P fw (if c then s else t) := by
  split
  · next h => exact hs h
  · exact ht

/-- Boot runs only without power, or before it has run. -/
theorem Settled.boot (h : Intact P fw s) {v : BootVerdict} (hb : (!s.power || !s.booted) = true) : Settled P fw (s.boot v) := by
  refine ⟨fun hP => ?_, fun hp hr => ?_⟩
  · rw [State.MemoryWf, State.boot_mem]
    exact h.memory hP
  · simp [← h.firewall, State.matrices] at hp hr
    simp [hp, hr] at hb

theorem SettledAfter.exec (h : Intact P fw s) (i : Instr) : SettledAfter P fw (exec i s) := by
  cases hi : changesPower i with
  | false => exact (Keeps.exec h hi).settled
  | true =>
    unfold changesPower at hi
    split at hi
    · rw [exec_powerOn]
      exact .next (.ite (fun hb => .boot h hb) h.settled)
    · rw [exec_powerLoss]
      exact .next (.ite (fun _ => .unpowered h) h.settled)
    · rw [exec_overTemperature]
      exact .next (.ite (fun _ => .unpowered h) h.settled)
    · cases hi

/-! ## The turn of a thread, and the moves of the default rotation -/

theorem SettledAfter.issueStep (h : Intact P fw s) (core slot : Nat) (rows : Option Nat) :
    SettledAfter P fw (issueStep core slot rows s) := by
  unfold Machine.issueStep
  split
  · exact .next h.settled
  · split
    · exact .exec h.update _
    · have hcur : Intact P fw { s with cur := ⟨core, slot, 2, rows⟩ } := h.update
      split
      · next i len t e =>
        have ht := (Keeps.fetchInstr.ok hcur e).issuing core slot i len
        exact .exec (ht.update (t := { t.issuing core slot i len with cur := _ })) _
      · next e => exact .next ((Keeps.fetchInstr.error hcur e).takeTrap _).settled
      · next e => exact .next (Keeps.fetchInstr.error hcur e).settled

/-- Every move of a list leaves a settled state. -/
def SettledMoves (P : Prop) (fw : Matrices) (l : List Move) : Prop := ∀ m ∈ l, ∀ s, Intact P fw s → SettledAfter P fw (m s)

namespace SettledMoves

variable {l k : List Move} {α : Type}

theorem nil : SettledMoves P fw [] := by simp [SettledMoves]

theorem cons {m : Move} (hm : ∀ s, Intact P fw s → SettledAfter P fw (m s)) (hl : SettledMoves P fw l) : SettledMoves P fw (m :: l) := by
  simpa [SettledMoves] using ⟨hm, hl⟩

theorem one {m : Move} (hm : ∀ s, Intact P fw s → SettledAfter P fw (m s)) : SettledMoves P fw [m] := cons hm nil

theorem append (hl : SettledMoves P fw l) (hk : SettledMoves P fw k) : SettledMoves P fw (l ++ k) :=
  fun m hm => (List.mem_append.mp hm).elim (hl m) (hk m)

theorem ite {c : Prop} [Decidable c] (hl : SettledMoves P fw l) (hk : SettledMoves P fw k) : SettledMoves P fw (if c then l else k) := by
  split
  · exact hl
  · exact hk

theorem flatMap {as : List α} {f : α → List Move} (hf : ∀ a, SettledMoves P fw (f a)) : SettledMoves P fw (as.flatMap f) := by
  intro m hm
  obtain ⟨a, -, ha⟩ := List.mem_flatMap.mp hm
  exact hf a m ha

theorem map {as : List α} {f : α → Move} (hf : ∀ a s, Intact P fw s → SettledAfter P fw (f a s)) : SettledMoves P fw (as.map f) := by
  intro m hm
  obtain ⟨a, -, rfl⟩ := List.mem_map.mp hm
  exact hf a

theorem threadMoves (s : State) (c : Nat) (k : Core) : SettledMoves P fw (threadMoves s c k) :=
  flatMap fun q => append (append (append (append
    (ite (one fun _ h => .issueStep h c q.1 none) nil)
    (ite (one fun _ h => .exec h (.instructionCompletion c q.1)) nil))
    (ite (one fun _ h => .exec h (.waitmsgTimeout c q.1)) nil))
    (ite (one fun _ h => .exec h (.copyfaultDelivery c q.1)) nil))
    (ite (one fun _ h => .exec h (.quantumExpiry c q.1)) nil)

theorem coreMoves (s : State) (c : Nat) (k : Core) : SettledMoves P fw (coreMoves s c k) := by
  unfold Machine.coreMoves
  iterate 12 refine append ?_ ?_
  · exact threadMoves s c k
  · exact map fun i _ h => .exec h (.storePerform c i)
  · exact ite nil (one fun _ h => .exec h (.l1Fill c 0))
  · exact ite (one fun _ h => .exec h (.messagePlacement c)) nil
  · exact flatMap fun i => cons (fun _ h => .exec h (.copyChunk c i)) (one fun _ h => .exec h (.copyCompletionMessage c i))
  · exact ite nil (one fun _ h => .exec h (.channelItemPlacement c))
  · exact ite nil (one fun _ h => .exec h (.contextMove c))
  · exact ite (one fun _ h => .exec h (.stealProbeResult c)) (ite (one fun _ h => .exec h (.slotSearch c)) nil)
  · exact flatMap fun e => cons (fun _ h => .exec h (.contextAging c e.1)) (one fun _ h => .exec h (.waitrsTimeout c e.1))
  · exact flatMap fun b => ite nil <| cons (fun _ h => .exec h (.packetAging c b)) <|
      cons (fun _ h => .exec h (.queueSegmentSwapIn c b)) (one fun _ h => .exec h (.preemptReq c b))
  · exact ite nil (one fun _ h => .exec h (.queueSegmentSwapIn c 4))
  · exact ite (one fun _ h => .exec h (.zeroingComplete c)) nil
  · exact one fun _ h => .exec h (.arrayGating c)

theorem engineMove (k : Nat) (c : EngCmd) {s : State} (h : Intact P fw s) : SettledAfter P fw (engineMove k c s) := by
  fun_cases Machine.engineMove k c
  · exact .exec h (.e0Merge k)
  · exact .exec h (.mergePages k)
  · exact .exec h (.setTau k)
  · exact .exec h (.allreduce k)
  · exact .exec h (.allgather k)
  · exact .exec h (.reducescatter k)
  · exact .exec h (.send k)
  · exact .exec h (.recv k)
  · exact .exec h (.pktsend k)
  · exact .exec h (.gather k)

theorem engineMoves (l : List EngCmd) : SettledMoves P fw (l.mapIdx Machine.engineMove) := by
  intro m hm
  obtain ⟨i, hi, rfl⟩ := List.mem_mapIdx.mp hm
  exact fun s h => engineMove i _ h

theorem deviceMoves (s : State) : SettledMoves P fw (deviceMoves s) := by
  unfold Machine.deviceMoves
  iterate 7 refine append ?_ ?_
  · exact flatMap fun e => cons (fun _ h => .exec h (.reservationGrant e.1)) (one fun _ h => .exec h (.reservationTimeout e.1))
  · exact map fun e _ h => .exec h (.feWaiterServed e.1)
  · exact flatMap fun e => append (append (ite nil (one fun _ h => .exec h (.distributorDelivery e.1)))
      (map fun l _ h => .exec h (.logMergeRun e.1 l.1))) (one fun _ h => .exec h (.worldKeyLeaseExpiry e.1))
  · exact engineMoves _
  · exact ite (cons (fun _ h => .exec h .revocationSweep) (one fun _ h => .exec h .revocationComplete))
      (ite nil (one fun _ h => .exec h .revocationSweep))
  · exact flatMap fun e => append (append (ite (one fun _ h => .exec h (.commandCompletion e.1)) nil)
      (map fun x _ h => .exec h (.sessionTimeout e.1 x.id)))
      (flatMap fun i => cons (fun _ h => .exec h (.ideKeySetExpiry e.1 i false)) <|
        cons (fun _ h => .exec h (.ideKeySetExpiry e.1 i true)) (one fun _ h => .exec h (.ideKeySetRetire e.1 i)))
  · exact flatMap fun e => append (one fun _ h => .exec h (.linkKeyRotation e.1))
      (flatMap fun rx => map fun g _ h => .exec h (.linkKeyGenerationExpiry e.1 rx g))
  · exact cons (fun _ h => .exec h .clusterEnable) (one fun _ h => .exec h .checkpointKeyExpiry)

end SettledMoves

theorem SettledAfter.autoStep (h : Intact P fw s) : SettledAfter P fw s.autoStep := by
  unfold State.autoStep
  split
  · next e =>
    have hall : SettledMoves P fw s.moves := .append (.flatMap fun e => .coreMoves s e.1 e.2) (.deviceMoves s)
    exact hall _ (List.mem_of_getElem? e) _ h.update
  · exact .next h.settled

/-! ## A step -/

theorem SettledAfter.actStep (h : Intact P fw s) (a : Act) : SettledAfter P fw (actStep a s) := by
  cases a with
  | issue c n rows => exact .issueStep h c n rows
  | event e => exact .exec h e
  | same e => exact .exec h e
  | pass k => exact .next (h.elapse k).settled
  | tick us => exact .next (Intact.settled h.update)
  | upset line => exact .next (h.upset line).settled
  | forget c loc => exact .next (Intact.settled (h.modCore ..))

theorem SettledAfter.step (h : Intact P fw s) : SettledAfter P fw (step s) := by
  unfold Machine.step
  split
  · next a rest _ =>
    split
    · exact .actStep ((h.elapse a.cycles).update (t := { s.elapse a.cycles with schedule := rest })) a
    · rintro _ ⟨⟩
  · split
    · exact .autoStep (h.elapse 1)
    · rintro _ ⟨⟩

/-- Settles O58: every operation of the state keeps memory in its canonical form, and so does every step. -/
theorem memoryStaysCanonical : Obligations.MemoryStaysCanonical := by
  intro s t hs ht
  have h : Intact True s.matrices s := ⟨fun _ => hs, rfl⟩
  exact (SettledAfter.step h t ht).memory trivial

/-- Settles O59: of all that a step can do, only the boot sequence and a loss of power change the matrix, and boot does not run a second
time while the power stays on. -/
theorem firewallStaysLocked : Obligations.FirewallStaysLocked := by
  intro s t hp hl hb ht
  have h : Intact False s.matrices s := ⟨False.elim, rfl⟩
  refine ((SettledAfter.step h t ht).firewall hp hb).imp_right fun hm => ?_
  simp only [State.matrices, Matrices.mk.injEq] at hm
  obtain ⟨hr, hw, hk, -, -⟩ := hm
  exact ⟨hk.trans hl, hr, hw⟩

end Sys2Proof.Machine
end

section
/-! Tile rows (R164, R166): the elements of a row, and what a new shape, a new row and a new tile leave. -/

-- One declaration after another: checked side by side, these take more threads than the memory of the check holds.
set_option Elab.async false

namespace Sys2Proof.Machine

/-! ## The elements of a row -/

theorem packElems_elem (z : Nat) (els : List Nat) (j : Nat) :
    packElems z els / 2 ^ (8 * z * j) % 2 ^ (8 * z) = els.getD j 0 % 2 ^ (8 * z) := by
  induction els generalizing j with
  | nil => simp [packElems]
  | cons e rest ih =>
    have hpos : 0 < 2 ^ (8 * z) := Nat.two_pow_pos _
    cases j with
    | zero => simp [packElems, Nat.add_mul_mod_self_left]
    | succ j =>
      rw [packElems, show 8 * z * (j + 1) = 8 * z + 8 * z * j by ring, pow_add, ← Nat.div_div_eq_div_mul,
        Nat.add_mul_div_left _ _ hpos, Nat.div_eq_of_lt (Nat.mod_lt _ hpos), Nat.zero_add, ih, List.getD_cons_succ]

/-- A field of a number cut above the field. -/
theorem mod_two_pow_field {a b n : Nat} (v : Nat) (h : a + n ≤ b) : v % 2 ^ b / 2 ^ a % 2 ^ n = v / 2 ^ a % 2 ^ n := by
  obtain ⟨c, rfl⟩ := Nat.exists_eq_add_of_le h
  rw [show a + n + c = a + (n + c) by ring, pow_add 2 a, Nat.mod_mul_right_div_self, Nat.mod_mod_of_dvd _ (pow_dvd_pow 2 (by omega))]

theorem elemAt_ofNat {z j : Nat} (v : Nat) (h : (j + 1) * z ≤ 64) :
    elemAt (BitVec.ofNat 512 v) z j = v / 2 ^ (8 * z * j) % 2 ^ (8 * z) := by
  rw [elemAt, BitVec.toNat_ofNat, mod_two_pow_field]
  nlinarith

theorem elemAt_rowOf {z j : Nat} (els : List Nat) (h : (j + 1) * z ≤ 64) : elemAt (rowOf z els) z j = els.getD j 0 % 2 ^ (8 * z) := by
  rw [rowOf, elemAt_ofNat _ h, packElems_elem]

@[simp] theorem elemAt_zero (z j : Nat) : elemAt 0 z j = 0 := by simp [elemAt]

/-- A row cut to some bytes: what lies in them stays. -/
theorem elemAt_cutRow {z j n : Nat} (r : Row64) (hz : (j + 1) * z ≤ 64) (h : (j + 1) * z ≤ n) : elemAt (cutRow r n) z j = elemAt r z j := by
  rw [cutRow, elemAt_ofNat _ hz, mod_two_pow_field, elemAt]
  nlinarith

/-- What lies behind them is 0. -/
theorem elemAt_cutRow_of_le {z j n : Nat} (r : Row64) (hz : (j + 1) * z ≤ 64) (h : n ≤ j * z) : elemAt (cutRow r n) z j = 0 := by
  rw [cutRow, elemAt_ofNat _ hz, Nat.div_eq_of_lt, Nat.zero_mod]
  exact (Nat.mod_lt _ (Nat.two_pow_pos _)).trans_le (Nat.pow_le_pow_right (by omega) (by nlinarith))

theorem Row64.byteAt_toNat (r : Row64) (i : Nat) : (Row64.byteAt r i).toNat = elemAt r 1 i := by
  simp [Row64.byteAt, elemAt, Nat.shiftRight_eq_div_pow]

theorem Row64.byteAt_eq_of_elemAt {r q : Row64} {i : Nat} (h : elemAt r 1 i = elemAt q 1 i) : Row64.byteAt r i = Row64.byteAt q i :=
  BitVec.eq_of_toNat_eq (by rw [byteAt_toNat, byteAt_toNat, h])

theorem tySize_cases (ty : Nat) : tySize ty = 1 ∨ tySize ty = 2 ∨ tySize ty = 4 := by
  unfold tySize
  split <;> simp

theorem tySize_pos (ty : Nat) : 0 < tySize ty := by
  rcases tySize_cases ty with h | h | h <;> omega

/-! ## Tiles -/

theorem vat_mapIdx {α β : Type} {n : Nat} (d : α) (e : β) (v : Vector α n) (f : Nat → α → β) (i : Nat) (h : f i d = e) :
    vat e (v.mapIdx f) i = f i (vat d v i) := by
  unfold vat
  rw [Vector.getElem?_mapIdx]
  cases v[i]? with
  | none => exact h.symm
  | some a => rfl

@[simp] theorem Tile.reshape_shape (t : Tile) (v : W64) : (t.reshape v).shape = v := rfl
@[simp] theorem Tile.reshape_scales (t : Tile) (v : W64) : (t.reshape v).scales = t.scales := rfl
@[simp] theorem Tile.unscaled_shape (t : Tile) : t.unscaled.shape = t.shape := rfl
@[simp] theorem Tile.unscaled_scales (t : Tile) : t.unscaled.scales = unitScales := rfl
@[simp] theorem Tile.unscaled_row (t : Tile) (i : Nat) : t.unscaled.row i = t.row i := rfl
@[simp] theorem Tile.setRow_shape (t : Tile) (i : Nat) (r : Row64) : (t.setRow i r).shape = t.shape := rfl
@[simp] theorem Tile.setRow_scales (t : Tile) (i : Nat) (r : Row64) : (t.setRow i r).scales = t.scales := rfl

theorem Tile.reshape_row (t : Tile) (v : W64) (i : Nat) :
    (t.reshape v).row i = if i < shVrows v then cutRow (t.row i) (shVcols v * tySize (shType v)) else 0 := by
  unfold Tile.row Tile.reshape
  exact vat_mapIdx 0 0 t.rows (fun i r => if i < shVrows v then cutRow r (shVcols v * tySize (shType v)) else 0) i (by simp [cutRow])

theorem Tile.setRow_row (t : Tile) {i : Nat} (r : Row64) (h : i < 32) : (t.setRow i r).row i = r := by
  simp [Tile.row, Tile.setRow, vat, h]

theorem Tile.setRow_row_of_ne (t : Tile) {i j : Nat} (r : Row64) (h : i ≠ j) : (t.setRow i r).row j = t.row j := by
  simp [Tile.row, Tile.setRow, vat, h]

/-- The shape words of tiles (R165): at most 32 rows of 64 bytes. -/
theorem shapeOk_bounds {v : W64} (h : shapeOk v = true) :
    shVrows v ≤ 32 ∧ shVcols v ≤ shCols v ∧ shCols v * tySize (shType v) ≤ 64 ∧ shVrows v ≤ shRows v := by
  unfold shapeOk at h
  simp only [Bool.or_eq_true, Bool.and_eq_true, decide_eq_true_eq] at h
  rcases h with rfl | h
  · decide
  · omega

theorem shapeOk_type {v : W64} (h : shapeOk v = true) : shType v ≤ 9 := by
  unfold shapeOk at h
  simp only [Bool.or_eq_true, Bool.and_eq_true, decide_eq_true_eq] at h
  rcases h with rfl | h
  · decide
  · omega

/-- A valid element lies within its row. -/
theorem shapeOk_fits {v : W64} (h : shapeOk v = true) {j : Nat} (hj : j < shVcols v) : (j + 1) * tySize (shType v) ≤ 64 := by
  obtain ⟨-, hv, hc, -⟩ := shapeOk_bounds h
  exact (Nat.mul_le_mul_right _ (by omega : j + 1 ≤ shCols v)).trans hc

/-! ## The fields of a shape word (R165) -/

theorem shType_lt (v : W64) : shType v < 16 := Nat.mod_lt _ (by decide)
theorem shRows_lt (v : W64) : shRows v < 64 := Nat.mod_lt _ (by decide)
theorem shCols_lt (v : W64) : shCols v < 128 := Nat.mod_lt _ (by decide)
theorem shVrows_lt (v : W64) : shVrows v < 64 := Nat.mod_lt _ (by decide)
theorem shVcols_lt (v : W64) : shVcols v < 128 := Nat.mod_lt _ (by decide)

section
variable {ty r c vr vc : Nat} (ht : ty < 16) (hr : r < 64) (hc : c < 128) (hvr : vr < 64) (hvc : vc < 128)
include ht hr hc hvr hvc

theorem mkShape_toNat : (mkShape ty r c vr vc).toNat = ty + r * 2 ^ 4 + c * 2 ^ 10 + vr * 2 ^ 17 + vc * 2 ^ 23 := by
  rw [mkShape, w64, BitVec.toNat_ofNat, Nat.mod_eq_of_lt]
  omega

theorem mkShape_type : shType (mkShape ty r c vr vc) = ty := by
  rw [shType, fld, mkShape_toNat ht hr hc hvr hvc]
  omega

theorem mkShape_rows : shRows (mkShape ty r c vr vc) = r := by
  rw [shRows, fld, mkShape_toNat ht hr hc hvr hvc]
  omega

theorem mkShape_cols : shCols (mkShape ty r c vr vc) = c := by
  rw [shCols, fld, mkShape_toNat ht hr hc hvr hvc]
  omega

theorem mkShape_vrows : shVrows (mkShape ty r c vr vc) = vr := by
  rw [shVrows, fld, mkShape_toNat ht hr hc hvr hvc]
  omega

theorem mkShape_vcols : shVcols (mkShape ty r c vr vc) = vc := by
  rw [shVcols, fld, mkShape_toNat ht hr hc hvr hvc]
  omega

end

/-! ## The tiles of a slot -/

@[simp] theorem Slot.setTile_tile (sl : Slot) (t : Num3) (v : Tile) : (sl.setTile t v).tile t = v := by simp [Slot.tile, Slot.setTile]

theorem Slot.setTile_tile_of_ne (sl : Slot) {t i : Num3} (v : Tile) (h : i ≠ t) : (sl.setTile t v).tile i = sl.tile i := by
  have : t.toNat ≠ i.toNat := fun e => h (BitVec.eq_of_toNat_eq e.symm)
  simp [Slot.tile, Slot.setTile, this]

@[simp] theorem State.issue_tile (s : State) (t : Num3) : s.issue.me.tile t = s.me.tile t := by simp [Slot.tile]

end Sys2Proof.Machine
end

section
/-! What a tile instruction does while it runs (R155, R163, R167, R168): rows committed one after another in the acting slot. -/

-- One declaration after another: checked side by side, these take more threads than the memory of the check holds.
set_option Elab.async false

namespace Sys2Proof.Machine

open Sys2Proof.Claims

variable {s t u : State} {d : Num3}

/-! ## The acting slot alone -/

theorem OtherCoresSame.cur_eq (h : OtherCoresSame s t) : t.cur = s.cur := by rw [h.1]

theorem OtherCoresSame.modMyCore (h : OtherCoresSame s t) (f : Core → Core) : OtherCoresSame s (t.modMyCore f) := by
  refine ⟨?_, fun c hc => ?_⟩
  · rw [State.modMyCore, State.modCore, State.setCore, h.1]
  · rw [State.modMyCore, State.modCore_core_of_ne _ _ (by rw [h.cur_eq]; exact Ne.symm hc)]
    exact h.2 c hc

theorem State.modMe_eq_modMyCore (s : State) (f : Slot → Slot) : s.modMe f = s.modMyCore fun k => k.setSlot s.cur.slot (f s.me) := rfl

theorem OtherCoresSame.modMe (h : OtherCoresSame s t) (f : Slot → Slot) : OtherCoresSame s (t.modMe f) := by
  rw [State.modMe_eq_modMyCore]
  exact h.modMyCore _

theorem OtherSlotsSame.modMe (h : OtherSlotsSame s t) (hc : t.cur = s.cur) (f : Slot → Slot) : OtherSlotsSame s (t.modMe f) := by
  rw [OtherSlotsSame, State.modMe_myCore]
  refine ⟨?_, fun n hn => ?_⟩
  · rw [Core.setSlot]
    conv_lhs => rw [h.1]
  · rw [Core.setSlot_slot_of_ne _ _ (by rw [hc]; exact Ne.symm hn)]
    exact h.2 n hn

theorem OtherSlotsSame.tally (h : OtherSlotsSame s t) (e n j : Nat) : OtherSlotsSame s (t.modMyCore (·.tally e n j)) := by
  rw [OtherSlotsSame, State.modMyCore_myCore]
  refine ⟨?_, fun n hn => ?_⟩
  · rw [Core.tally]
    generalize Vector.ofFn _ = v
    conv_lhs => rw [h.1]
  · rw [Core.tally_slot]
    exact h.2 n hn

/-! ## A tile instruction under way -/

/-- The slot of a tile instruction under way: all but td, k.flags, k.restart and the account of the instruction is as it was. -/
structure SlotWork (sl sl' : Slot) (d : Num3) : Prop where
  tiles : ∀ i, i ≠ d → sl'.tile i = sl.tile i
  regs : sl'.s = sl.s
  preds : sl'.p = sl.p
  fpc : sl'.fpc = sl.fpc
  fpcAt : sl'.fpcAt = sl.fpcAt
  pc : sl'.pc = sl.pc
  stopReq : sl'.stopReq = sl.stopReq

theorem SlotWork.refl (sl : Slot) (d : Num3) : SlotWork sl sl d := ⟨fun _ _ => rfl, rfl, rfl, rfl, rfl, rfl, rfl⟩

theorem SlotWork.trans {a b c : Slot} (h : SlotWork a b d) (k : SlotWork b c d) : SlotWork a c d :=
  ⟨fun i hi => (k.tiles i hi).trans (h.tiles i hi), k.regs.trans h.regs, k.preds.trans h.preds, k.fpc.trans h.fpc, k.fpcAt.trans h.fpcAt,
    k.pc.trans h.pc, k.stopReq.trans h.stopReq⟩

theorem SlotWork.setTile (sl : Slot) (d : Num3) (v : Tile) : SlotWork sl (sl.setTile d v) d :=
  ⟨fun _ hi => Slot.setTile_tile_of_ne sl v hi, rfl, rfl, rfl, rfl, rfl, rfl⟩

/-- A tile instruction under way, from the state in which it issued. -/
structure TileWork (s t : State) (d : Num3) : Prop where
  cores : OtherCoresSame s t
  slots : OtherSlotsSame s t
  slot : SlotWork s.issue.me t.me d

theorem TileWork.cur_eq (h : TileWork s t d) : t.cur = s.cur := h.cores.cur_eq

theorem TileWork.issue (s : State) (d : Num3) : TileWork s s.issue d := ⟨(State.issue_frame s).1, (State.issue_frame s).2.1, .refl _ _⟩

theorem TileWork.modMe (h : TileWork s t d) {f : Slot → Slot} (hf : SlotWork t.me (f t.me) d) : TileWork s (t.modMe f) d :=
  ⟨h.cores.modMe f, h.slots.modMe h.cur_eq f, by rw [State.modMe_me]; exact h.slot.trans hf⟩

theorem TileWork.tally (h : TileWork s t d) (e n j : Nat) : TileWork s (t.modMyCore (·.tally e n j)) d :=
  ⟨h.cores.modMyCore _, h.slots.tally e n j, by rw [State.modMyCore_me, Core.tally_slot]; exact h.slot⟩

theorem TileWork.cleared (h : TileWork s t d) : TileWork s (cleared t) d := h.modMe ⟨fun _ _ => rfl, rfl, rfl, rfl, rfl, rfl, rfl⟩

/-- k.fpc as the rows of an instruction see it (R154). -/
theorem State.issue_fpcAt (s : State) : s.issue.me.fpcAt = fpcOf s := by
  unfold State.issue fpcOf
  split
  · rfl
  · simp [State.chargeSlot, State.me, State.slot, State.modMyCore, State.modMe, State.setMe, State.setSlot]

theorem TileWork.fpcAt_eq (h : TileWork s t d) : t.me.fpcAt = fpcOf s := h.slot.fpcAt.trans (State.issue_fpcAt s)

/-- A tile instruction that has completed. -/
theorem TileWork.finish (h : TileWork s t d) : OnlyTile s t.finish d := by
  have hme : t.finish.me = t.me.after t.behind .wait .complete := State.modMe_me ..
  have hp : t.behind = s.behind := by rw [State.behind, h.slot.pc, h.cur_eq, State.issue_pc, State.behind]
  refine ⟨fun i hi => ?_, ?_, ?_, ?_, ?_, ?_, ?_, h.cores.modMe fun sl => sl.after t.behind .wait .complete,
    h.slots.modMe h.cur_eq fun sl => sl.after t.behind .wait .complete⟩ <;> rw [hme]
  · simpa [Slot.tile] using h.slot.tiles i hi
  · simpa using h.slot.regs
  · simpa using h.slot.preds
  · simpa using h.slot.fpc
  · exact hp
  · rfl
  · rfl

/-! ## Rows committed -/

/-- The state that a row committed leaves. -/
def State.rowDone (s : State) (d : Num3) (r : Nat) (els : List FR) : State :=
  (s.modMe fun sl => (sl.setTile d ((sl.tile d).setRow r (rowOf (tySize (shType (sl.tile d).shape)) (els.map (·.bits))))).orFlags
    (orOf els)).modMyCore (·.tally 0x10 s.cur.slot 1)

theorem commitRow_apply (d : Num3) (r : Nat) (els : List FR) (computes : Bool) (fmt : W64) (t : State) :
    commitRow d r els computes fmt t = .ok (if computes then nanTrap t.me.fpcAt (shType (t.me.tile d).shape) r
      (shCols (t.me.tile d).shape) els fmt else none) (t.rowDone d r els) := by
  unfold commitRow setTile orFlags tally
  simp only [M.bind_apply, getMe_apply, modMe_apply, M.modify_apply, M.pure_apply, State.modMe_modMe, State.rowDone]
  rfl

@[simp] theorem State.rowDone_me (s : State) (d : Num3) (r : Nat) (els : List FR) : (s.rowDone d r els).me =
    (s.me.setTile d ((s.me.tile d).setRow r (rowOf (tySize (shType (s.me.tile d).shape)) (els.map (·.bits))))).orFlags (orOf els) := by
  rw [State.rowDone, State.modMyCore_me, Core.tally_slot]
  exact State.modMe_me ..

theorem TileWork.rowDone (h : TileWork s t d) (r : Nat) (els : List FR) : TileWork s (t.rowDone d r els) d :=
  TileWork.tally (h.modMe ⟨fun _ hi => Slot.setTile_tile_of_ne _ _ hi, rfl, rfl, rfl, rfl, rfl, rfl⟩) ..

theorem orOf_append (a b : List FR) : orOf (a ++ b) = orOf a ||| orOf b := by
  have hgen (l : List FR) (g : Nat) : l.foldl (fun g e => g ||| e.flags) g = g ||| l.foldl (fun g e => g ||| e.flags) 0 := by
    induction l generalizing g with
    | nil => simp
    | cons e l ih => rw [List.foldl_cons, ih, List.foldl_cons, ih (0 ||| e.flags), Nat.zero_or, Nat.or_assoc]
  rw [orOf, List.foldl_append, hgen, orOf, orOf]

theorem rowRange_self (n : Nat) : rowRange n n = [] := by
  simp [rowRange]

theorem rowRange_succ {a b : Nat} (h : a ≤ b) : rowRange a (b + 1) = rowRange a b ++ [b] := by
  simp [rowRange, List.range_succ, List.filter_append, h]

theorem rowRange_of_le {a b : Nat} (h : b ≤ a) : rowRange a b = [] := by
  simp [rowRange]
  omega

theorem rowRange_cons {a b : Nat} (h : a < b) : rowRange a b = a :: rowRange (a + 1) b := by
  induction b with
  | zero => omega
  | succ b ih =>
    rcases Nat.lt_or_ge a b with hab | hab
    · rw [rowRange_succ hab.le, ih hab, rowRange_succ hab]
      rfl
    · obtain rfl : a = b := by omega
      rw [rowRange_succ le_rfl, rowRange_self, rowRange_self]
      rfl

theorem elemsIn_succ {first r : Nat} (vc : Nat) (f : Nat → Nat → FR) (h : first ≤ r) :
    elemsIn first (r + 1) vc f = elemsIn first r vc f ++ (List.range vc).map (f r) := by
  simp [elemsIn, rowRange_succ h]

/-- Row r of a result, in its elements. -/
def resultRow (res : W64) (f : Nat → Nat → FR) (r : Nat) : List FR := (List.range (shVcols res)).map (f r)

/-- The rows from `first` to below `r` of a result committed, on a tile that was `base` when they began. -/
structure Progress (s : State) (d : Num3) (res : W64) (base : Tile) (f : Nat → Nat → FR) (first r : Nat) (t : State) : Prop where
  work : TileWork s t d
  shape : (t.me.tile d).shape = res
  scales : (t.me.tile d).scales = base.scales
  done : ∀ i, first ≤ i → i < r → (t.me.tile d).row i = rowOf (tySize (shType res)) ((resultRow res f i).map (·.bits))
  rest : ∀ i, i < first ∨ r ≤ i → (t.me.tile d).row i = base.row i
  flags : t.me.flags = s.me.flags ||| w64 (orOf (elemsIn first r (shVcols res) f))

section
variable {res : W64} {base : Tile} {f : Nat → Nat → FR} {first r : Nat}

theorem Progress.start (h : TileWork s t d) (hd : t.me.tile d = base) (hs : base.shape = res) (hf : t.me.flags = s.me.flags) (first : Nat) :
    Progress s d res base f first first t := by
  refine ⟨h, by rw [hd, hs], by rw [hd], fun i h1 h2 => by omega, fun i _ => by rw [hd], ?_⟩
  simp [hf, elemsIn, rowRange_self, orOf, w64]

theorem Progress.cleared (h : Progress s d res base f first r t) : Progress s d res base f first r (cleared t) := by
  have hme : (Claims.cleared t).me = { t.me with restart := w64 (t.me.restart.toNat % 2 ^ 63) } := State.modMe_me ..
  exact ⟨h.work.cleared, by rw [hme]; exact h.shape, by rw [hme]; exact h.scales, by rw [hme]; exact h.done, by rw [hme]; exact h.rest,
    by rw [hme]; exact h.flags⟩

theorem Progress.rowDone (h : Progress s d res base f first r t) (hr : r < 32) (hf : first ≤ r) :
    Progress s d res base f first (r + 1) (t.rowDone d r (resultRow res f r)) := by
  have hd : (t.rowDone d r (resultRow res f r)).me.tile d =
      (t.me.tile d).setRow r (rowOf (tySize (shType res)) ((resultRow res f r).map (·.bits))) := by
    rw [State.rowDone_me, h.shape]
    exact Slot.setTile_tile ..
  refine ⟨h.work.rowDone .., ?_, ?_, fun i h1 h2 => ?_, fun i hi => ?_, ?_⟩
  · rw [hd, Tile.setRow_shape, h.shape]
  · rw [hd, Tile.setRow_scales, h.scales]
  · rw [hd]
    rcases Nat.lt_succ_iff_lt_or_eq.mp h2 with h2 | rfl
    · rw [Tile.setRow_row_of_ne _ _ (by omega), h.done i h1 h2]
    · exact Tile.setRow_row _ _ hr
  · rw [hd, Tile.setRow_row_of_ne _ _ (by omega), h.rest i (by omega)]
  · rw [State.rowDone_me, elemsIn_succ _ _ hf, orOf_append]
    simp only [Slot.orFlags, Slot.setTile_flags, h.flags, w64, BitVec.ofNat_or, BitVec.or_assoc]
    rfl

end

/-! ## Rows in ascending order -/

/-- Rows that keep an invariant, and answer no trap. -/
theorem rowLoop_ok {body : Nat → M (Option TrapInfo)} {I : Nat → State → Prop} {key first stop : Nat} (h : first ≤ stop)
    (hstop : ∀ r t, I r t → t.me.stopReq = .none)
    (hbody : ∀ r t, first ≤ r → r < stop → I r t → ∃ u, body r t = .ok none u ∧ I (r + 1) u) (hs : I first s) :
    ∃ t, rowLoop key (rowRange first stop) none body s = .ok () t ∧ I stop t := by
  obtain ⟨n, rfl⟩ := Nat.exists_eq_add_of_le h
  clear h
  induction n generalizing first s with
  | zero => exact ⟨s, by rw [Nat.add_zero, rowRange_self]; rfl, hs⟩
  | succ n ih =>
    obtain ⟨u, hu, hI⟩ := hbody first s le_rfl (by omega) hs
    rw [rowRange_cons (by omega), show first + (n + 1) = first + 1 + n by omega]
    obtain ⟨t, ht, hI⟩ := ih hI fun r t h1 h2 => hbody r t (by omega) (by omega)
    refine ⟨t, ?_, hI⟩
    rw [rowLoop]
    simpa [guardRow, hstop first s hs, hu] using ht

theorem forRows_eq (key start stop : Nat) (body : Nat → M (Option TrapInfo)) (s : State) :
    forRows key start stop body s = rowLoop key (rowRange start stop) s.cur.rows body (cleared s) := rfl

theorem resumeRow_apply (key : Nat) (s : State) : resumeRow key s = .ok (resumesAt s key) s := by
  unfold resumeRow resumesAt
  simp only [M.bind_apply, getMe_apply, M.ite_apply, M.pure_apply, Bool.and_eq_true, decide_eq_true_eq]
  split <;> rfl

@[simp] theorem resumesAt_issue (s : State) (key : Nat) : resumesAt s.issue key = resumesAt s key := by simp [resumesAt]

/-- A NaN trap that no element asks for. -/
theorem nanTrap_none {fpc : W64} {ty r cols : Nat} {els : List FR} {fmt : W64}
    (h : ntOf fpc = false ∨ ∀ e ∈ els, isNanBits ty e.bits = false) : nanTrap fpc ty r cols els fmt = none := by
  unfold nanTrap
  rcases h with h | h
  · simp [h]
  · rw [List.findIdx?_eq_none_iff.mpr h]
    split <;> rfl

section
variable {res : W64} {base : Tile} {f : Nat → Nat → FR} {key first : Nat} {computes : Bool}

theorem mem_elemsIn {a b vc r : Nat} {e : FR} (f : Nat → Nat → FR) (ha : a ≤ r) (hb : r < b) (he : e ∈ (List.range vc).map (f r)) :
    e ∈ elemsIn a b vc f :=
  List.mem_flatMap.mpr ⟨r, by simp [rowRange, ha, hb], he⟩

/-- A row that is computed from the slot, and committed. -/
def rowBody (d : Num3) (els : Slot → Nat → List FR) (computes : Bool) (fmt : Slot → Nat → W64) (r : Nat) : M (Option TrapInfo) := do
  let sl ← getMe
  commitRow d r (els sl r) computes (fmt sl r)

theorem rowBody_apply (els : Slot → Nat → List FR) (computes : Bool) (fmt : Slot → Nat → W64) (r : Nat) (t : State) :
    rowBody d els computes fmt r t = commitRow d r (els t.me r) computes (fmt t.me r) t := by
  rw [rowBody, M.bind_apply, getMe_apply]

/-- The rows of a result, from `first` on, each committed in its turn. A resumption behind the last row leaves all as it is. -/
theorem forRows_result {els : Slot → Nat → List FR} {fmt : Slot → Nat → W64} {stop : Nat} (hend : ToTheEnd s)
    (h : Progress s d res base f first first t) (hstop : stop ≤ 32)
    (hels : ∀ u r, first ≤ r → r < stop → Progress s d res base f first r u → els u.me r = resultRow res f r)
    (hnan : computes = true → ntOf (fpcOf s) = false ∨ ∀ e ∈ elemsIn first stop (shVcols res) f, isNanBits (shType res) e.bits = false) :
    ∃ v, forRows key first stop (rowBody d els computes fmt) t = .ok () v ∧ Progress s d res base f first (max first stop) v ∧
      v.me.restart = (cleared t).me.restart := by
  rw [forRows_eq, h.work.cur_eq, hend.1]
  rcases Nat.lt_or_ge stop first with hlt | hfirst
  · rw [rowRange_of_le hlt.le, max_eq_left hlt.le]
    exact ⟨_, rfl, h.cleared, rfl⟩
  rw [max_eq_right hfirst]
  refine rowLoop_ok hfirst (I := fun r u => Progress s d res base f first r u ∧ u.me.restart = (cleared t).me.restart)
    (fun r u hu => ?_) (fun r u h1 h2 ⟨hu, hk⟩ => ?_) ⟨h.cleared, rfl⟩
  · rw [hu.1.work.slot.stopReq, (State.issue_frame s).2.2]
    exact hend.2
  · refine ⟨_, ?_, hu.rowDone (by omega) h1, by rw [State.rowDone_me]; exact hk⟩
    rw [rowBody_apply, hels u r h1 h2 hu, commitRow_apply, hu.shape, hu.work.fpcAt_eq]
    cases computes with
    | false => rfl
    | true =>
      rw [if_pos rfl, nanTrap_none]
      exact (hnan rfl).imp_right fun hn e he => hn e (mem_elemsIn f h1 h2 he)

theorem cleared_pend (t : State) : flag (cleared t).me.restart 63 = false := by
  have : (cleared t).me.restart = w64 (t.me.restart.toNat % 2 ^ 63) := by rw [cleared, State.modMe_me]
  rw [this]
  simp only [flag, w64, BitVec.toNat_ofNat, decide_eq_false_iff_not]
  omega

end

/-! ## The skeleton of an instruction that works row by row (R168) -/

theorem tileRows_begins {key : Nat} {check : M W64} {begin_ : W64 → M Unit} {body : Nat → M (Option TrapInfo)} {res : W64} {t u v : State}
    (hres : resumesAt s key = none) (hcheck : check s = .ok res t) (hbegin : begin_ res t = .ok () u)
    (hrows : forRows key 0 (shVrows res) body u = .ok () v) : tileRows key d check begin_ body s = .ok .done v := by
  simp [tileRows, resumeRow_apply, hres, hcheck, hbegin, hrows]

theorem tileRows_resumes {key first : Nat} {check : M W64} {begin_ : W64 → M Unit} {body : Nat → M (Option TrapInfo)} {v : State}
    (hres : resumesAt s key = some first) (hrows : forRows key first (shVrows (s.me.tile d).shape) body s = .ok () v) :
    tileRows key d check begin_ body s = .ok .done v := by
  simp [tileRows, resumeRow_apply, hres, hrows]

/-- The result of an instruction whose rows have all been committed. -/
theorem Progress.result {res : W64} {base : Tile} {f : Nat → Nat → FR} {first stop : Nat} (h : Progress s d res base f first stop t)
    (hok : shapeOk res = true) (hstop : stop = shVrows res) (hbase : ∀ r, shVrows res ≤ r → base.row r = 0) :
    TileResult s t.finish d first res base.scales f := by
  subst hstop
  have hme : t.finish.me = t.me.after t.behind .wait .complete := State.modMe_me ..
  have htile : t.finish.me.tile d = t.me.tile d := by rw [hme]; rfl
  refine ⟨by rw [htile, h.shape], fun r j h1 h2 hj => ?_, fun r j h1 h2 hj hv => ?_, by rw [htile, h.scales], ?_, h.work.finish⟩
  · rw [htile, Tile.elem, h.shape, h.done r h1 h2, elemAt_rowOf _ (shapeOk_fits hok hj)]
    simp [resultRow, hj]
  · rw [htile, Tile.elem, h.shape]
    rcases Nat.lt_or_ge r (shVrows res) with hr | hr
    · rw [h.done r h1 hr, elemAt_rowOf _ hj]
      have : shVcols res ≤ j := by
        by_contra hc
        exact hv ⟨hr, by omega⟩
      simp [resultRow, this, tyBits]
    · rw [h.rest r (.inr hr), hbase r hr, elemAt_zero]
      simp [tyBits]
  · rw [hme]
    exact h.flags

end Sys2Proof.Machine
end

section
/-! The tile instructions of two sources and of one (R172, R174 to R176, R179, R181), from their first row or a resumed one, and their NaN
trap (R163). -/

-- One declaration after another: checked side by side, these take more threads than the memory of the check holds.
set_option Elab.async false

namespace Sys2Proof.Machine

open Sys2Proof.Claims

variable {s t u : State} {d a b : Num3}

/-! ## The checks of R170 -/

theorem checkSrc_ok {v : W64} {types : List Nat} {fmt : W64} (h0 : v ≠ 0) (ht : shType v ∈ types) (s : State) :
    checkSrc v types fmt s = .ok () s := by
  have h0' : ¬v = 0#64 := h0
  simp [checkSrc, h0', ht]

theorem agree_ok {ok : Bool} {v fmt : W64} (h : ok = true) (s : State) : agree ok v fmt s = .ok () s := by simp [agree, h]

theorem checkDst_ok {d : Num3} {res : W64} {srcs : List (Num3 × W64)} {fmt : W64} (h : shapeOk res = true) (hs : ∀ q ∈ srcs, q.1 = d → q.2 = res)
    (s : State) : checkDst d res srcs fmt s = .ok () s := by
  have hany : (srcs.any fun q => decide (q.1 = d) && decide (q.2 ≠ res)) = false := by
    simpa [List.any_eq_false] using hs
  simp only [checkDst, h, hany, M.pure_apply, Bool.not_true, Bool.false_eq_true, if_false]

theorem pairSources_ok (hb : b = d → (s.me.tile b).shape = (s.me.tile a).shape) :
    ∀ q ∈ [(a, (s.me.tile a).shape), (b, (s.me.tile b).shape)], q.1 = d → q.2 = (s.me.tile a).shape := by
  simpa using hb

/-! ## The result begun -/

/-- td as an instruction that writes its whole result begins: under the result's shape, its row scales at 1.0 (R166, R326). -/
def begun (s : State) (d : Num3) (res : W64) : Tile := ((s.me.tile d).reshape res).unscaled

theorem begun_row_of_le {res : W64} {r : Nat} (h : shVrows res ≤ r) : (begun s d res).row r = 0 := by
  rw [begun, Tile.unscaled_row, Tile.reshape_row, if_neg (by omega)]

/-- A tile under a new shape holds what it held in the valid region. -/
theorem reshape_elem (t : Tile) {res : W64} (hok : shapeOk res = true) {r j : Nat} (hr : r < shVrows res) (hj : j < shVcols res) :
    elemAt ((t.reshape res).row r) (tySize (shType res)) j = elemAt (t.row r) (tySize (shType res)) j := by
  rw [Tile.reshape_row, if_pos hr, elemAt_cutRow _ (shapeOk_fits hok hj) (Nat.mul_le_mul_right _ hj)]

theorem beginResult_apply (d : Num3) (res : W64) (s : State) :
    beginResult d res s = .ok () (s.modMe fun sl => sl.setTile d ((sl.tile d).reshape res).unscaled) := rfl

theorem Progress.atStart (s : State) (d : Num3) (res : W64) (f : Nat → Nat → FR) :
    Progress s d res (begun s d res) f 0 0 (s.issue.modMe fun sl => sl.setTile d ((sl.tile d).reshape res).unscaled) := by
  refine .start (base := begun s d res)
    ((TileWork.issue s d).modMe (f := fun sl => sl.setTile d ((sl.tile d).reshape res).unscaled) (.setTile ..)) ?_ rfl ?_ 0
  · rw [State.modMe_me, Slot.setTile_tile, State.issue_tile]
    rfl
  · rw [State.modMe_me, Slot.setTile_flags, State.issue_flags]

/-- A source as a row reads it: its elements are those of before the instruction, also where td is the source (R170). -/
theorem Progress.source {res : W64} {base : Tile} {f : Nat → Nat → FR} {first r j : Nat} (h : Progress s d res base f first r t)
    (hres : a = d → shType (s.me.tile a).shape = shType res)
    (hbase : a = d → elemAt (base.row r) (tySize (shType res)) j = elemAt ((s.me.tile d).row r) (tySize (shType res)) j) :
    (t.me.tile a).elem r j = (s.me.tile a).elem r j := by
  by_cases ha : a = d
  · subst ha
    rw [Tile.elem, h.shape, h.rest r (.inr le_rfl), hbase rfl, Tile.elem, hres rfl]
  · rw [h.work.slot.tiles a ha, State.issue_tile]

/-- The same for an instruction that writes its whole result. -/
theorem Progress.sourceBegun {res : W64} {f : Nat → Nat → FR} {first r j : Nat} (h : Progress s d res (begun s d res) f first r t)
    (hok : shapeOk res = true) (hr : r < shVrows res) (hj : a = d → j < shVcols res) (hres : a = d → (s.me.tile a).shape = res) :
    (t.me.tile a).elem r j = (s.me.tile a).elem r j :=
  h.source (fun ha => by rw [hres ha]) fun ha => reshape_elem _ hok hr (hj ha)

/-- An instruction that writes a whole result row by row, from a destination that it leaves as `base`: what its rows compute, it
delivers. -/
theorem run_rows {key : Nat} {check : M W64} {begin_ : W64 → M Unit} {els : Slot → Nat → List FR} {fmt : Slot → Nat → W64} {res : W64}
    {base : Tile} {f : Nat → Nat → FR} {computes : Bool} (hend : ToTheEnd s) (hres : resumesAt s key = none)
    (hcheck : check s.issue = .ok res s.issue) (hok : shapeOk res = true) (hbegin : begin_ res s.issue = .ok () u)
    (hstart : Progress s d res base f 0 0 u) (hbase : ∀ r, shVrows res ≤ r → base.row r = 0)
    (hels : ∀ u r, r < shVrows res → Progress s d res base f 0 r u → els u.me r = resultRow res f r)
    (hnan : computes = true → noNanTrap s 0 res f) :
    ∃ v, tileRows key d check begin_ (rowBody d els computes fmt) s.issue = .ok .done v ∧ TileResult s v.finish d 0 res base.scales f := by
  obtain ⟨v, hv, hp, -⟩ := forRows_result (key := key) (fmt := fmt) hend hstart (shapeOk_bounds hok).1
    (fun u r _ hr hu => hels u r hr hu) hnan
  exact ⟨v, tileRows_begins (by rwa [resumesAt_issue]) hcheck hbegin hv, hp.result hok (Nat.zero_max _) hbase⟩

/-- The same for one whose destination's row scales are 1.0 (R326). -/
theorem run_tileRows {key : Nat} {check : M W64} {els : Slot → Nat → List FR} {fmt : Slot → Nat → W64} {res : W64} {f : Nat → Nat → FR}
    {computes : Bool} (hend : ToTheEnd s) (hres : resumesAt s key = none) (hcheck : check s.issue = .ok res s.issue) (hok : shapeOk res = true)
    (hels : ∀ u r, r < shVrows res → Progress s d res (begun s d res) f 0 r u → els u.me r = resultRow res f r)
    (hnan : computes = true → noNanTrap s 0 res f) :
    ∃ v, tileRows key d check (beginResult d) (rowBody d els computes fmt) s.issue = .ok .done v ∧
      TileResult s v.finish d 0 res unitScales f :=
  run_rows hend hres hcheck hok rfl (.atStart s d res f) (fun _ hr => begun_row_of_le hr) hels hnan

theorem resultRow_of {sh res : W64} {f : Nat → Nat → FR} {g : Nat → FR} {r : Nat} (hsh : sh = res) (h : ∀ j, j < shVcols res → g j = f r j) :
    (List.range (shVcols sh)).map g = resultRow res f r := by
  subst hsh
  exact List.map_congr_left fun j hj => h j (List.mem_range.mp hj)

/-! ## Two sources -/

/-- The rows of a two-source instruction. -/
def pairRows (sa : W64) (g : Nat → Rm → Nat → Nat → FR) (d a b : Num3) (sl : Slot) (r : Nat) : List FR :=
  (List.range (shVcols (sl.tile d).shape)).map fun j => g (shType sa) (rmOf sl.fpcAt) ((sl.tile a).elem r j) ((sl.tile b).elem r j)

theorem tileTwo_apply (maj fn : Nat) (types : List Nat) (computes : Bool) (g : Nat → Rm → Nat → Nat → FR) (d a b : Num3) (s : State) :
    tileTwo maj fn types computes g d a b s =
      tileRows (restartKey 2 maj fn) d (do
        checkSrc (s.me.tile a).shape types (tfmtWord (tyCode (s.me.tile a).shape) (tyCode (s.me.tile a).shape) (tyCode (s.me.tile b).shape) 15)
        checkSrc (s.me.tile b).shape types (tfmtWord (tyCode (s.me.tile a).shape) (tyCode (s.me.tile a).shape) (tyCode (s.me.tile b).shape) 15)
        agree (sameTRC (s.me.tile b).shape (s.me.tile a).shape) (s.me.tile b).shape
          (tfmtWord (tyCode (s.me.tile a).shape) (tyCode (s.me.tile a).shape) (tyCode (s.me.tile b).shape) 15)
        checkDst d (s.me.tile a).shape [(a, (s.me.tile a).shape), (b, (s.me.tile b).shape)]
          (tfmtWord (tyCode (s.me.tile a).shape) (tyCode (s.me.tile a).shape) (tyCode (s.me.tile b).shape) 15)
        return (s.me.tile a).shape) (beginResult d)
        (rowBody d (pairRows (s.me.tile a).shape g d a b) computes fun _ _ =>
          tfmtWord (tyCode (s.me.tile a).shape) (tyCode (s.me.tile a).shape) (tyCode (s.me.tile b).shape) 15) s := by
  unfold tileTwo
  rw [M.bind_apply, getMe_apply]
  rfl

theorem tileTwo_begins {maj fn : Nat} {types : List Nat} {computes : Bool} {g : Nat → Rm → Nat → Nat → FR} (hend : ToTheEnd s)
    (hres : resumesAt s (restartKey 2 maj fn) = none) (hag : agreeing s d a b types)
    (hnan : computes = true → noNanTrap s 0 (s.me.tile a).shape (pairElem s a b g)) :
    ∃ t, run (tileTwo maj fn types computes g d a b) s = .next t ∧
      TileResult s t d 0 (s.me.tile a).shape unitScales (pairElem s a b g) := by
  obtain ⟨ha0, hb0, hty, htrc, hok, hb⟩ := hag
  have htb : shType (s.me.tile b).shape ∈ types := by
    simp only [sameTRC, Bool.and_eq_true, decide_eq_true_eq] at htrc
    rwa [htrc.1.1]
  obtain ⟨v, hv, hr⟩ : ∃ v, tileTwo maj fn types computes g d a b s.issue = .ok .done v ∧
      TileResult s v.finish d 0 (s.me.tile a).shape unitScales (pairElem s a b g) := by
    rw [tileTwo_apply, State.issue_tile, State.issue_tile]
    refine run_tileRows hend hres ?_ hok (fun u r hr hu => resultRow_of hu.shape fun j hj => ?_) hnan
    · simp [checkSrc_ok ha0 hty, checkSrc_ok hb0 htb, agree_ok htrc, checkDst_ok hok (pairSources_ok hb)]
    · rw [hu.work.fpcAt_eq, hu.sourceBegun hok hr (fun _ => hj) fun _ => rfl, hu.sourceBegun hok hr (fun _ => hj) hb, pairElem]
  exact ⟨_, run_of_ok hv, hr⟩

/-- The rows that a resumed instruction goes on with (R168, R199): the shape of td is that of its result. -/
theorem tileTwo_resumes {maj fn first : Nat} {types : List Nat} {computes : Bool} {g : Nat → Rm → Nat → Nat → FR} (hend : ToTheEnd s)
    (hres : resumesAt s (restartKey 2 maj fn) = some first) (hnt : ntOf (fpcOf s) = false) (hok : shapeOk (s.me.tile d).shape = true) :
    ∃ t, run (tileTwo maj fn types computes g d a b) s = .next t ∧ OnlyTile s t d ∧ (t.me.tile d).shape = (s.me.tile d).shape ∧
      (∀ r, r < first → (t.me.tile d).row r = (s.me.tile d).row r) ∧
      (∀ r j, first ≤ r → r < shVrows (s.me.tile d).shape → j < shVcols (s.me.tile d).shape →
        (t.me.tile d).elem r j = tyBits (shType (s.me.tile d).shape)
          ((pairElem s a b g r j).bits % 2 ^ (8 * tySize (shType (s.me.tile d).shape)))) ∧
      flag t.me.restart 63 = false := by
  have hels (u : State) (r : Nat) (_ : first ≤ r) (_ : r < shVrows (s.me.tile d).shape)
      (hu : Progress s d (s.me.tile d).shape (s.me.tile d) (pairElem s a b g) first r u) :
      pairRows (s.me.tile a).shape g d a b u.me r = resultRow (s.me.tile d).shape (pairElem s a b g) r := by
    refine resultRow_of hu.shape fun j hj => ?_
    rw [hu.work.fpcAt_eq, hu.source (fun h => by rw [h]) fun _ => rfl, hu.source (fun h => by rw [h]) fun _ => rfl, pairElem]
  obtain ⟨v, hv, hp, hk⟩ := forRows_result (key := restartKey 2 maj fn) (computes := computes)
    (fmt := fun _ _ => tfmtWord (tyCode (s.me.tile a).shape) (tyCode (s.me.tile a).shape) (tyCode (s.me.tile b).shape) 15) hend
    (.start (.issue s d) (State.issue_tile s d) rfl (State.issue_flags s) first) (shapeOk_bounds hok).1 hels fun _ => .inl hnt
  have hme : v.finish.me = v.me.after v.behind .wait .complete := State.modMe_me ..
  have htile : v.finish.me.tile d = v.me.tile d := by rw [hme]; rfl
  refine ⟨v.finish, ?_, hp.work.finish, by rw [htile, hp.shape], fun r hr => by rw [htile, hp.rest r (.inl hr)], fun r j h1 h2 hj => ?_, ?_⟩
  · refine run_of_ok (c := .done) ?_
    rw [tileTwo_apply, State.issue_tile, State.issue_tile]
    exact tileRows_resumes (by rwa [resumesAt_issue]) (by rwa [State.issue_tile])
  · rw [htile, Tile.elem, hp.shape, hp.done r h1 (by omega), elemAt_rowOf _ (shapeOk_fits hok hj)]
    simp [resultRow, hj]
  · rw [hme, Slot.after_restart, hk]
    exact cleared_pend _

theorem exec_twoTiles {q : TwoTiles} (hq : q ∈ twoTiles) : ∃ maj fn, (q.key = restartKey 2 maj fn ∧ maj ≤ 1 ∧ fn ≤ 7) ∧
    ∀ d a b, exec (q.instr d a b) = run (tileTwo maj fn q.types true q.f d a b) := by
  simp only [twoTiles, List.mem_cons, List.not_mem_nil, or_false] at hq
  rcases hq with rfl | rfl | rfl | rfl | rfl | rfl | rfl | rfl | rfl | rfl
  · exact ⟨0, 0, ⟨rfl, by decide, by decide⟩, fun _ _ _ => rfl⟩
  · exact ⟨0, 1, ⟨rfl, by decide, by decide⟩, fun _ _ _ => rfl⟩
  · exact ⟨0, 2, ⟨rfl, by decide, by decide⟩, fun _ _ _ => rfl⟩
  · exact ⟨0, 3, ⟨rfl, by decide, by decide⟩, fun _ _ _ => rfl⟩
  · exact ⟨0, 4, ⟨rfl, by decide, by decide⟩, fun _ _ _ => rfl⟩
  · exact ⟨1, 0, ⟨rfl, by decide, by decide⟩, fun _ _ _ => rfl⟩
  · exact ⟨1, 1, ⟨rfl, by decide, by decide⟩, fun _ _ _ => rfl⟩
  · exact ⟨1, 2, ⟨rfl, by decide, by decide⟩, fun _ _ _ => rfl⟩
  · exact ⟨1, 6, ⟨rfl, by decide, by decide⟩, fun _ _ _ => rfl⟩
  · exact ⟨1, 7, ⟨rfl, by decide, by decide⟩, fun _ _ _ => rfl⟩

theorem exec_twoTilesMoved {q : TwoTiles} (hq : q ∈ twoTilesMoved) : ∃ maj fn, q.key = restartKey 2 maj fn ∧
    ∀ d a b, exec (q.instr d a b) = run (tileTwo maj fn q.types false q.f d a b) := by
  simp only [twoTilesMoved, List.mem_cons, List.not_mem_nil, or_false] at hq
  rcases hq with rfl | rfl | rfl
  · exact ⟨1, 3, rfl, fun _ _ _ => rfl⟩
  · exact ⟨1, 4, rfl, fun _ _ _ => rfl⟩
  · exact ⟨1, 5, rfl, fun _ _ _ => rfl⟩

theorem tileTwoSources_begin : Claims.TileTwoSources := by
  refine ⟨fun q hq s d a b hend hres hag hnan => ?_, fun q hq s d a b hend hres hag => ?_⟩
  · obtain ⟨maj, fn, ⟨hkey, -, -⟩, hex⟩ := exec_twoTiles hq
    rw [hex]
    exact tileTwo_begins hend (hkey ▸ hres) hag fun _ => hnan
  · obtain ⟨maj, fn, hkey, hex⟩ := exec_twoTilesMoved hq
    rw [hex]
    exact tileTwo_begins hend (hkey ▸ hres) hag fun h => absurd h (by decide)

theorem tileResumes : Claims.TileResumes := by
  intro q hq s d a b first hend hres hnt hok
  obtain ⟨maj, fn, c, hkey, hex⟩ : ∃ maj fn c, q.key = restartKey 2 maj fn ∧
      ∀ d a b, exec (q.instr d a b) = run (tileTwo maj fn q.types c q.f d a b) := by
    rcases List.mem_append.mp hq with hq | hq
    · obtain ⟨maj, fn, ⟨hkey, -, -⟩, h⟩ := exec_twoTiles hq
      exact ⟨maj, fn, true, hkey, h⟩
    · obtain ⟨maj, fn, h⟩ := exec_twoTilesMoved hq
      exact ⟨maj, fn, false, h⟩
  rw [hex]
  exact tileTwo_resumes hend (hkey ▸ hres) hnt hok

/-- Settles O17: the rows of a two-source instruction are committed in their order; until its row commits, a source that td names still
reads as it did before. -/
theorem tileTwoSources : Obligations.TileTwoSources := ⟨tileTwoSources_begin, tileResumes⟩

/-! ## The NaN trap (R163) -/

theorem restartWord_row (page maj fn : Nat) {row : Nat} (h : row < 2 ^ 16) : fld (restartWord (restartKey page maj fn) row) 0 16 = row := by
  simp only [fld, restartWord, restartKey, w64, BitVec.toNat_ofNat]
  omega

theorem restartWord_pend {page maj fn : Nat} (row : Nat) (h : restartKey page maj fn < 2 ^ 62) :
    flag (restartWord (restartKey page maj fn) row) 63 = true := by
  simp only [flag, restartWord, w64, BitVec.toNat_ofNat, decide_eq_true_eq]
  omega

theorem nanTrap_some {fpc : W64} {ty r cols c vc : Nat} {g : Nat → FR} {fmt : W64} (hnt : ntOf fpc = true) (hc : c < vc)
    (hbefore : ∀ j, j < c → isNanBits ty (g j).bits = false) (hnan : isNanBits ty (g c).bits = true) :
    nanTrap fpc ty r cols ((List.range vc).map g) fmt = some ⟨Cause.nan, w64 (g c).bits, nanCoord r c cols, fmt⟩ := by
  have hfind : ((List.range vc).map g).findIdx? (fun e => isNanBits ty e.bits) = some c := by
    rw [List.findIdx?_eq_some_iff_getElem]
    refine ⟨by simpa using hc, by simpa using hnan, fun j hj => ?_⟩
    simpa using hbefore j hj
  rw [nanTrap, if_pos hnt, hfind]
  simp [hc]

/-- Rows up to the one that traps. -/
theorem rowLoop_trap {body : Nat → M (Option TrapInfo)} {I : Nat → State → Prop} {key first r stop : Nat} {ti : TrapInfo} {f : State → State}
    (h : first ≤ r) (hr : r < stop) (hstop : ∀ i t, I i t → t.me.stopReq = .none)
    (hbody : ∀ i t, first ≤ i → i < r → I i t → ∃ u, body i t = .ok none u ∧ I (i + 1) u) (hs : I first s)
    (htrap : ∀ t, I r t → body r t = .ok (some ti) (f t)) :
    ∃ t, I r t ∧ rowLoop key (rowRange first stop) none body s =
      .error (.trap ti) ((f t).modMe fun sl => { sl with restart := restartWord key (r + 1) }) := by
  obtain ⟨n, rfl⟩ := Nat.exists_eq_add_of_le h
  clear h
  induction n generalizing first s with
  | zero =>
    refine ⟨s, hs, ?_⟩
    rw [rowRange_cons (by omega), rowLoop]
    have hb : body first s = .ok (some ti) (f s) := htrap s hs
    simp [guardRow, hstop first s hs, hb, setRestart]
  | succ n ih =>
    obtain ⟨u, hu, hI⟩ := hbody first s le_rfl (by omega) hs
    rw [show first + (n + 1) = first + 1 + n by omega] at htrap hr ⊢
    obtain ⟨t, ht, hl⟩ := ih hI hr (fun i t h1 h2 => hbody i t (by omega) (by omega)) htrap
    refine ⟨t, ht, ?_⟩
    rw [rowRange_cons (by omega), rowLoop]
    simpa [guardRow, hstop first s hs, hu] using hl

theorem tileRows_traps {key : Nat} {check : M W64} {begin_ : W64 → M Unit} {body : Nat → M (Option TrapInfo)} {res : W64} {t u v : State}
    {ti : TrapInfo} (hres : resumesAt s key = none) (hcheck : check s = .ok res t) (hbegin : begin_ res t = .ok () u)
    (hrows : forRows key 0 (shVrows res) body u = .error (.trap ti) v) : tileRows key d check begin_ body s = .error (.trap ti) v := by
  simp [tileRows, resumeRow_apply, hres, hcheck, hbegin, hrows]

/-- Settles O18: the rows before the NaN's are committed as without NT, its own too, and the trap is taken there. -/
theorem tileNanTrap : Obligations.TileNanTrap := by
  intro q hq s d a b r c hend h15 hres hag hnt hr hc hbefore hnan
  obtain ⟨maj, fn, ⟨hkey, hmaj, hfn⟩, hex⟩ := exec_twoTiles hq
  obtain ⟨ha0, hb0, hty, htrc, hok, hb⟩ := hag
  have htb : shType (s.me.tile b).shape ∈ q.types := by
    simp only [sameTRC, Bool.and_eq_true, decide_eq_true_eq] at htrc
    rwa [htrc.1.1]
  rw [hkey] at hres
  rw [hex]
  have hlt : restartKey 2 maj fn < 2 ^ 62 := by
    simp only [restartKey]
    omega
  have h32 := (shapeOk_bounds hok).1
  have hels (u : State) (i : Nat) (hi : i ≤ r)
      (hu : Progress s d (s.me.tile a).shape (begun s d (s.me.tile a).shape) (pairElem s a b q.f) 0 i u) :
      pairRows (s.me.tile a).shape q.f d a b u.me i = resultRow (s.me.tile a).shape (pairElem s a b q.f) i := by
    refine resultRow_of hu.shape fun j hj => ?_
    rw [hu.work.fpcAt_eq, hu.sourceBegun hok (by omega) (fun _ => hj) fun _ => rfl, hu.sourceBegun hok (by omega) (fun _ => hj) hb, pairElem]
  have hrow (fmt : W64) (u : State) (i : Nat) (hi : i ≤ r)
      (hu : Progress s d (s.me.tile a).shape (begun s d (s.me.tile a).shape) (pairElem s a b q.f) 0 i u) :
      rowBody d (pairRows (s.me.tile a).shape q.f d a b) true (fun _ _ => fmt) i u =
        .ok (nanTrap (fpcOf s) (shType (s.me.tile a).shape) i (shCols (s.me.tile a).shape)
          (resultRow (s.me.tile a).shape (pairElem s a b q.f) i) fmt) (u.rowDone d i (resultRow (s.me.tile a).shape (pairElem s a b q.f) i)) := by
    rw [rowBody_apply, hels u i hi hu, commitRow_apply, hu.shape, hu.work.fpcAt_eq, if_pos rfl]
  obtain ⟨fmt, hfmt⟩ : ∃ fmt, fmt = tfmtWord (tyCode (s.me.tile a).shape) (tyCode (s.me.tile a).shape) (tyCode (s.me.tile b).shape) 15 :=
    ⟨_, rfl⟩
  obtain ⟨u, hu, hl⟩ := rowLoop_trap (key := restartKey 2 maj fn) (Nat.zero_le r) hr
    (body := rowBody d (pairRows (s.me.tile a).shape q.f d a b) true fun _ _ => fmt)
    (f := fun u => u.rowDone d r (resultRow (s.me.tile a).shape (pairElem s a b q.f) r))
    (I := fun i u => Progress s d (s.me.tile a).shape (begun s d (s.me.tile a).shape) (pairElem s a b q.f) 0 i u)
    (fun i u hu => by rw [hu.work.slot.stopReq, (State.issue_frame s).2.2]; exact hend.2)
    (fun i u _ hi hu => ⟨_, by
      rw [hrow fmt u i hi.le hu, nanTrap_none (.inr fun e he => ?_)]
      obtain ⟨j, hj, rfl⟩ := List.mem_map.mp he
      exact hbefore i hi.le j (List.mem_range.mp hj) (.inl hi), hu.rowDone (by omega) (Nat.zero_le i)⟩)
    (Progress.atStart s d (s.me.tile a).shape (pairElem s a b q.f)).cleared
    (fun u hu => (hrow fmt u r le_rfl hu).trans <| congrArg (EStateM.Result.ok · _) <|
      nanTrap_some hnt hc (fun j hj => hbefore r le_rfl j (by omega) (.inr hj)) hnan)
  have hp := hu.rowDone (by omega) (Nat.zero_le r)
  generalize u.rowDone d r (resultRow (s.me.tile a).shape (pairElem s a b q.f) r) = v at hl hp
  have hcur : (v.modMe fun sl => { sl with restart := restartWord (restartKey 2 maj fn) (r + 1) }).cur.slot ≠ 15 := by
    rw [State.modMe_cur, hp.work.cur_eq]
    exact h15
  have hrun : tileTwo maj fn q.types true q.f d a b s.issue =
      .error (.trap ⟨Cause.nan, w64 (pairElem s a b q.f r c).bits, nanCoord r c (shCols (s.me.tile a).shape), fmt⟩)
        (v.modMe fun sl => { sl with restart := restartWord (restartKey 2 maj fn) (r + 1) }) := by
    rw [tileTwo_apply, State.issue_tile, State.issue_tile]
    refine tileRows_traps (by rwa [resumesAt_issue]) (res := (s.me.tile a).shape) (t := s.issue) ?_ rfl ?_
    · simp [checkSrc_ok ha0 hty, checkSrc_ok hb0 htb, agree_ok htrc, checkDst_ok hok (pairSources_ok hb)]
    · rw [forRows_eq, State.modMe_cur, State.issue_cur, hend.1, ← hfmt]
      exact hl
  refine ⟨_, run_of_trap hrun, ?_⟩
  · rw [takeTrap_me_of_ne _ hcur, State.modMe_me]
    refine ⟨rfl, rfl, ?_, rfl, rfl, restartWord_pend _ hlt, restartWord_row _ _ _ (by omega), fun i j hi hj => ?_⟩
    · exact hp.work.slot.pc.trans (State.issue_pc s)
    · change (v.me.tile d).elem i j = _
      rw [Tile.elem, hp.shape, hp.done i (Nat.zero_le i) (by omega), elemAt_rowOf _ (shapeOk_fits hok hj)]
      simp [resultRow, hj]

end Sys2Proof.Machine
end

section
/-! The tile instructions of one source, of a tile and a scalar, and of three sources; the comparisons (R172, R173, R175, R176, R179,
R181). -/

-- One declaration after another: checked side by side, these take more threads than the memory of the check holds.
set_option Elab.async false

namespace Sys2Proof.Machine

open Sys2Proof.Claims

variable {s t u : State} {d a b : Num3}

/-! ## One source -/

/-- The checks of an instruction of one source (R170). -/
def oneCheck (types : List Nat) (res : W64) (fmt : W64) (d a : Num3) (sa : W64) : M W64 := do
  checkSrc sa types fmt
  checkDst d res [(a, sa)] fmt
  return res

theorem oneCheck_ok {types : List Nat} {res fmt : W64} (h : acceptable s d a types res) (t : State) :
    oneCheck types res fmt d a (s.me.tile a).shape t = .ok res t := by
  obtain ⟨h0, hty, hok, ha⟩ := h
  simp [oneCheck, checkSrc_ok h0 hty, checkDst_ok hok (srcs := [(a, (s.me.tile a).shape)]) (by simpa using ha)]

/-- The rows of an instruction of one source. -/
def oneRows (ty : Nat) (g : Nat → Rm → Nat → FR) (d a : Num3) (sl : Slot) (r : Nat) : List FR :=
  (List.range (shVcols (sl.tile d).shape)).map fun j => g ty (rmOf sl.fpcAt) ((sl.tile a).elem r j)

theorem tileOne_apply (maj fn : Nat) (types : List Nat) (computes : Bool) (res : W64 → W64) (g : Nat → Rm → Nat → FR) (d a : Num3) (s : State) :
    ∃ fmt, tileOne maj fn types computes res g d a s =
      tileRows (restartKey 2 maj fn) d (oneCheck types (res (s.me.tile a).shape) fmt d a (s.me.tile a).shape) (beginResult d)
        (rowBody d (oneRows (shType (s.me.tile a).shape) g d a) computes fun _ _ => fmt) s := by
  refine ⟨tfmtWord (resCode (s.me.tile a).shape (shType (res (s.me.tile a).shape))) (tyCode (s.me.tile a).shape) 15 15, ?_⟩
  unfold tileOne
  rw [M.bind_apply, getMe_apply]
  rfl

theorem tileOne_begins {maj fn : Nat} {types : List Nat} {computes : Bool} {res : W64 → W64} {g : Nat → Rm → Nat → FR} {f : Nat → Nat → FR}
    (hend : ToTheEnd s) (hres : resumesAt s (restartKey 2 maj fn) = none) (hacc : acceptable s d a types (res (s.me.tile a).shape))
    (hf : ∀ r j, g (shType (s.me.tile a).shape) (rmOf (fpcOf s)) ((s.me.tile a).elem r j) = f r j)
    (hnan : computes = true → noNanTrap s 0 (res (s.me.tile a).shape) f) :
    ∃ v, tileOne maj fn types computes res g d a s.issue = .ok .done v ∧
      TileResult s v.finish d 0 (res (s.me.tile a).shape) unitScales f := by
  obtain ⟨fmt, happ⟩ := tileOne_apply maj fn types computes res g d a s.issue
  rw [happ, State.issue_tile]
  refine run_tileRows hend hres (oneCheck_ok hacc _) hacc.2.2.1 (fun u r hr hu => resultRow_of hu.shape fun j hj => ?_) hnan
  rw [hu.work.fpcAt_eq, hu.sourceBegun hacc.2.2.1 hr (fun _ => hj) hacc.2.2.2, hf]

theorem exec_oneTile {q : OneTile} (hq : q ∈ oneTile ∨ ∃ ty : BitVec 4, ty.toNat ≤ 8 ∧ q = converting ty) :
    ∃ maj fn, q.key = restartKey 2 maj fn ∧ ∀ d a, exec (q.instr d a) = run (tileOne maj fn q.types true q.res q.f d a) := by
  rcases hq with hq | ⟨ty, -, rfl⟩
  · simp only [oneTile, List.mem_cons, List.not_mem_nil, or_false] at hq
    rcases hq with rfl | rfl | rfl | rfl | rfl | rfl | rfl
    · exact ⟨2, 0, rfl, fun _ _ => rfl⟩
    · exact ⟨2, 1, rfl, fun _ _ => rfl⟩
    · exact ⟨2, 2, rfl, fun _ _ => rfl⟩
    · exact ⟨2, 3, rfl, fun _ _ => rfl⟩
    · exact ⟨2, 4, rfl, fun _ _ => rfl⟩
    · exact ⟨2, 5, rfl, fun _ _ => rfl⟩
    · exact ⟨2, 6, rfl, fun _ _ => rfl⟩
  · exact ⟨2, 7, rfl, fun _ _ => rfl⟩

/-! ## A tile and a scalar (R181) -/

/-- The integer operations of the scalar-broadcast instructions, as the model has them. -/
theorem exec_scalarTile {q : (Num3 → Num3 → Reg → Instr) × Nat × (Rm → Fp → Fp → Fp × Nat) × (Int → Int → Int)} (hq : q ∈ scalarTiles) :
    ∃ fn, q.2.1 = restartKey 2 6 fn ∧ ∀ d a b, exec (q.1 d a b) = run (tileScalar fn q.2.2.1 q.2.2.2 d a b) := by
  simp only [scalarTiles, List.mem_cons, List.not_mem_nil, or_false] at hq
  rcases hq with rfl | rfl | rfl | rfl
  · exact ⟨0, rfl, fun _ _ _ => rfl⟩
  · exact ⟨1, rfl, fun _ _ _ => rfl⟩
  · refine ⟨2, rfl, fun d a b => ?_⟩
    have hmax : (fun x y : Int => max x y) = fun x y => if x < y then y else x := by
      funext x y
      rw [max_def_lt]
    change run (tileScalar 2 (fun _ => Fp.max) (fun x y => if x < y then y else x) d a b) = _
    rw [hmax]
  · exact ⟨3, rfl, fun _ _ _ => rfl⟩

theorem scalarE_eq (ty : Nat) (rm : Rm) (v : W64) (fop : Rm → Fp → Fp → Fp × Nat) (iop : Int → Int → Int) (x : Nat) :
    scalarE ty rm v fop iop x = if (fmtOf ty).isSome then deliverTy ty rm (fop rm (valueOf ty x) (Fmt.fp32.decode (v.toNat % 2 ^ 32)))
      else satInt ty (iop (intOf ty x) v.toInt) := by
  have hv : fld v 0 32 = v.toNat % 2 ^ 32 := by simp [fld]
  rw [scalarE, hv]
  cases fmtOf ty <;> rfl

theorem tileOneSource_holds : Claims.TileOneSource := by
  refine ⟨fun q hq s d a hend hres hacc hnan => ?_, fun q hq s d a b f hp hend hres hacc hf hnan => ?_⟩
  · obtain ⟨maj, fn, hkey, hex⟩ := exec_oneTile hq
    rw [hex]
    obtain ⟨v, hv, hr⟩ := tileOne_begins (maj := maj) (fn := fn) (computes := true) hend (hkey ▸ hres) hacc (fun _ _ => rfl) fun _ => hnan
    exact ⟨_, run_of_ok hv, hr⟩
  · obtain ⟨fn, hkey, hex⟩ := exec_scalarTile hq
    rw [hex]
    obtain ⟨v, hv, hr⟩ := tileOne_begins (maj := 6) (fn := fn) (types := arithTypes) (computes := true) (res := id) (f := f)
      (g := fun ty rm x => scalarE ty rm (s.src b) q.2.2.1 q.2.2.2 x) hend (hkey ▸ hres) hacc
      (fun r j => by rw [scalarE_eq, hf]) fun _ => hnan
    refine ⟨_, run_of_ok (c := .done) (t := v) ?_, hr⟩
    rw [tileScalar, withPorts_of_noPort _ hp.issue]
    simp [hv]

/-! ## Comparisons (R179) -/

theorem mem_allTypes {ty : Nat} (h : ty ≤ 9) : ty ∈ allTypes := by
  simp only [allTypes, List.mem_cons, List.not_mem_nil, or_false]
  omega

/-- The checks of a comparison (R170, R179). -/
def cmpCheck (res fmt : W64) (d a b : Num3) (sa sb : W64) : M W64 := do
  checkSrc sa allTypes fmt
  checkSrc sb allTypes fmt
  agree (sameTRC sb sa) sb fmt
  checkDst d res [(a, sa), (b, sb)] fmt
  return res

theorem cmpCheck_ok {res fmt sa sb : W64} (ha0 : sa ≠ 0) (hb0 : sb ≠ 0) (hty : shType sa ≤ 9) (htrc : sameTRC sb sa = true)
    (hok : shapeOk res = true) (ha : a = d → sa = res) (hb : b = d → sb = res) (t : State) :
    cmpCheck res fmt d a b sa sb t = .ok res t := by
  have htb : shType sb ≤ 9 := by
    simp only [sameTRC, Bool.and_eq_true, decide_eq_true_eq] at htrc
    omega
  have hsrc : ∀ q ∈ [(a, sa), (b, sb)], q.1 = d → q.2 = res := by simpa using ⟨ha, hb⟩
  simp [cmpCheck, checkSrc_ok ha0 (mem_allTypes hty), checkSrc_ok hb0 (mem_allTypes htb), agree_ok htrc, checkDst_ok hok hsrc]

theorem tileCmp_apply (fn : Nat) (g : Nat → Nat → Nat → Bool) (d a b : Num3) (s : State) :
    ∃ fmt, tileCmp fn g d a b s =
      tileRows (restartKey 2 4 fn) d (cmpCheck (withType 9 (s.me.tile a).shape) fmt d a b (s.me.tile a).shape (s.me.tile b).shape)
        (beginResult d)
        (rowBody d (pairRows (s.me.tile a).shape (fun ty _ x y => maskElem (g ty x y)) d a b) false fun _ _ => fmt) s := by
  refine ⟨tfmtWord 9 (tyCode (s.me.tile a).shape) (tyCode (s.me.tile b).shape) 15, ?_⟩
  unfold tileCmp
  rw [M.bind_apply, getMe_apply]
  rfl

theorem exec_compare {q : (Num3 → Num3 → Num3 → Instr) × Nat × (Nat → Nat → Nat → Bool)} (hq : q ∈ compareTiles) :
    ∃ fn, q.2.1 = restartKey 2 4 fn ∧ ∀ d a b, exec (q.1 d a b) = run (tileCmp fn q.2.2 d a b) := by
  simp only [compareTiles, List.mem_cons, List.not_mem_nil, or_false] at hq
  rcases hq with rfl | rfl | rfl | rfl | rfl | rfl
  · exact ⟨0, rfl, fun _ _ _ => rfl⟩
  · exact ⟨1, rfl, fun _ _ _ => rfl⟩
  · exact ⟨2, rfl, fun _ _ _ => rfl⟩
  · exact ⟨3, rfl, fun _ _ _ => rfl⟩
  · exact ⟨5, rfl, fun _ _ _ => rfl⟩
  · exact ⟨6, rfl, fun _ _ _ => rfl⟩

theorem exec_tisnan (d a : Num3) : exec (.tisnan d a) =
    run (tileOne 4 4 [2, 3, 4, 5, 6, 7] false (withType 9) (fun ty _ x => maskElem (isNanBits ty x)) d a) := rfl

theorem maskElem_eq (b : Bool) : maskElem b = ⟨if b then 1 else 0, 0⟩ := rfl

theorem tileCompares_holds : Claims.TileCompares := by
  refine ⟨fun q hq s d a b hend hres ha0 hb0 hty htrc hok ha hb => ?_, fun s d a hend hres hacc => ?_⟩
  · obtain ⟨fn, hkey, hex⟩ := exec_compare hq
    obtain ⟨fmt, happ⟩ := tileCmp_apply fn q.2.2 d a b s.issue
    obtain ⟨v, hv, hr⟩ : ∃ v, tileCmp fn q.2.2 d a b s.issue = .ok .done v ∧ TileResult s v.finish d 0 (withType 9 (s.me.tile a).shape)
        unitScales (pairElem s a b fun ty _ x y => ⟨if q.2.2 ty x y then 1 else 0, 0⟩) := by
      rw [happ, State.issue_tile, State.issue_tile]
      refine run_tileRows hend (hkey ▸ hres) ?_ hok (fun u r hr hu => resultRow_of hu.shape fun j hj => ?_) fun h => absurd h (by decide)
      · exact cmpCheck_ok ha0 hb0 hty htrc hok ha hb _
      · rw [hu.sourceBegun hok hr (fun _ => hj) ha, hu.sourceBegun hok hr (fun _ => hj) hb, pairElem]
        exact maskElem_eq _
    rw [hex]
    exact ⟨_, run_of_ok hv, hr⟩
  · obtain ⟨v, hv, hr⟩ := tileOne_begins (maj := 4) (fn := 4) (computes := false) (res := withType 9)
      (f := fun r j => ⟨if isNanBits (shType (s.me.tile a).shape) ((s.me.tile a).elem r j) then 1 else 0, 0⟩)
      (g := fun ty _ x => maskElem (isNanBits ty x)) hend hres hacc (fun _ _ => maskElem_eq _) fun h => absurd h (by decide)
    rw [exec_tisnan]
    exact ⟨_, run_of_ok hv, hr⟩

/-- Settles O19: each row computes its elements from those of its source, which td leaves as they were until the row commits. -/
theorem tileOneSource : Obligations.TileOneSource := ⟨tileOneSource_holds, tileCompares_holds⟩

end Sys2Proof.Machine
end

section
/-! The tile instructions of three sources (R172, R173). -/

-- One declaration after another: checked side by side, these take more threads than the memory of the check holds.
set_option Elab.async false

namespace Sys2Proof.Machine

open Sys2Proof.Claims

variable {s t u : State} {d a b : Num3}

theorem sameTRC_type {v u : W64} (h : sameTRC v u = true) : shType v = shType u := by
  simp only [sameTRC, Bool.and_eq_true, decide_eq_true_eq] at h
  exact h.1.1

/-! ## TFMA -/

def fmaCheck (sa sb sd fmt : W64) (d a b : Num3) : M W64 := do
  checkSrc sa floatTypes fmt
  checkSrc sb floatTypes fmt
  agree (sameTRC sb sa) sb fmt
  checkSrc sd floatTypes fmt
  agree (sameTRC sd sa) sd fmt
  checkDst d sa [(a, sa), (b, sb)] fmt
  return sa

/-- The rows of TFMA. -/
def fmaRows (ty : Nat) (d a b : Num3) (sl : Slot) (r : Nat) : List FR :=
  (List.range (shVcols (sl.tile d).shape)).map fun j =>
    fmaE ty (rmOf sl.fpcAt) ((sl.tile a).elem r j) ((sl.tile b).elem r j) ((sl.tile d).elem r j)

theorem tileFma_apply (d a b : Num3) (s : State) :
    ∃ fmt, tileFma d a b s = tileRows (restartKey 2 0 5) d
      (fmaCheck (s.me.tile a).shape (s.me.tile b).shape (s.me.tile d).shape fmt d a b) (beginResult d)
      (rowBody d (fmaRows (shType (s.me.tile a).shape) d a b) true fun _ _ => fmt) s := by
  refine ⟨tfmtWord (tyCode (s.me.tile a).shape) (tyCode (s.me.tile a).shape) (tyCode (s.me.tile b).shape) (tyCode (s.me.tile d).shape), ?_⟩
  unfold tileFma
  rw [M.bind_apply, getMe_apply]
  rfl

theorem fmaCheck_ok {fmt : W64} (hag : agreeing s d a b floatTypes) (hd0 : (s.me.tile d).shape ≠ 0)
    (hd : sameTRC (s.me.tile d).shape (s.me.tile a).shape = true) (t : State) :
    fmaCheck (s.me.tile a).shape (s.me.tile b).shape (s.me.tile d).shape fmt d a b t = .ok (s.me.tile a).shape t := by
  obtain ⟨ha0, hb0, hty, htrc, hok, hb⟩ := hag
  have htb : shType (s.me.tile b).shape ∈ floatTypes := by rwa [sameTRC_type htrc]
  have htd : shType (s.me.tile d).shape ∈ floatTypes := by rwa [sameTRC_type hd]
  simp [fmaCheck, checkSrc_ok ha0 hty, checkSrc_ok hb0 htb, checkSrc_ok hd0 htd, agree_ok htrc, agree_ok hd,
    checkDst_ok hok (pairSources_ok hb)]

/-- The destination as a third source: under the result's shape its elements of the valid region are still those of before, where its type
is the result's. -/
theorem Progress.destination {res : W64} {f : Nat → Nat → FR} {first r j : Nat} (h : Progress s d res (begun s d res) f first r t)
    (hok : shapeOk res = true) (hr : r < shVrows res) (hj : j < shVcols res) (hty : shType (s.me.tile d).shape = shType res) :
    (t.me.tile d).elem r j = (s.me.tile d).elem r j :=
  h.source (fun _ => hty) fun _ => reshape_elem _ hok hr hj

theorem exec_tfma (d a b : Num3) : exec (.tfma d a b) = run (tileFma d a b) := rfl

theorem tileFma_begins {f : Nat → Nat → FR} (hend : ToTheEnd s) (hres : resumesAt s (restartKey 2 0 5) = none)
    (hag : agreeing s d a b floatTypes) (hd0 : (s.me.tile d).shape ≠ 0) (hd : sameTRC (s.me.tile d).shape (s.me.tile a).shape = true)
    (hf : f = fun r j => fmaE (shType (s.me.tile a).shape) (rmOf (fpcOf s)) ((s.me.tile a).elem r j) ((s.me.tile b).elem r j)
      ((s.me.tile d).elem r j)) (hnan : noNanTrap s 0 (s.me.tile a).shape f) :
    ∃ v, tileFma d a b s.issue = .ok .done v ∧ TileResult s v.finish d 0 (s.me.tile a).shape unitScales f := by
  obtain ⟨fmt, happ⟩ := tileFma_apply d a b s.issue
  have hok := hag.2.2.2.2.1
  have hb := hag.2.2.2.2.2
  rw [happ, State.issue_tile, State.issue_tile, State.issue_tile]
  refine run_tileRows hend hres (fmaCheck_ok hag hd0 hd _) hok (fun u r hr hu => resultRow_of hu.shape fun j hj => ?_) fun _ => hnan
  rw [hu.work.fpcAt_eq, hu.sourceBegun hok hr (fun _ => hj) fun _ => rfl, hu.sourceBegun hok hr (fun _ => hj) hb,
    hu.destination hok hr hj (sameTRC_type hd), hf]

/-! ## TSEL -/

def selCheck (sa sb sd fmt : W64) (d a b : Num3) : M W64 := do
  checkSrc sa allTypes fmt
  checkSrc sb allTypes fmt
  agree (sameTRC sb sa) sb fmt
  checkSrc sd [9] fmt
  agree (sameRC sd sa) sd fmt
  if a = d || b = d then checkDst d sa [(a, sa), (b, sb)] fmt
  return sa

/-- The rows of TSEL. -/
def selRows (d a b : Num3) (sl : Slot) (r : Nat) : List FR :=
  (List.range (shVcols (sl.tile d).shape)).map fun j =>
    FR.mk (if elemAt ((sl.tile d).row r) 1 j ≠ 0 then (sl.tile a).elem r j else (sl.tile b).elem r j) 0

theorem tileSel_apply (d a b : Num3) (s : State) :
    ∃ fmt, tileSel d a b s = tileRows (restartKey 2 0 6) d
      (selCheck (s.me.tile a).shape (s.me.tile b).shape (s.me.tile d).shape fmt d a b) (beginResult d)
      (rowBody d (selRows d a b) false fun _ _ => fmt) s := by
  refine ⟨tfmtWord (tyCode (s.me.tile a).shape) (tyCode (s.me.tile a).shape) (tyCode (s.me.tile b).shape) (tyCode (s.me.tile d).shape), ?_⟩
  unfold tileSel
  rw [M.bind_apply, getMe_apply]
  rfl

theorem selCheck_ok {fmt : W64} (hag : agreeing s d a b allTypes) (hd0 : (s.me.tile d).shape ≠ 0)
    (hty : shType (s.me.tile d).shape = 9) (hd : sameRC (s.me.tile d).shape (s.me.tile a).shape = true) (t : State) :
    selCheck (s.me.tile a).shape (s.me.tile b).shape (s.me.tile d).shape fmt d a b t = .ok (s.me.tile a).shape t := by
  obtain ⟨ha0, hb0, hta, htrc, hok, hb⟩ := hag
  have htb : shType (s.me.tile b).shape ∈ allTypes := by rwa [sameTRC_type htrc]
  have htd : shType (s.me.tile d).shape ∈ [9] := by simp [hty]
  simp only [selCheck, M.bind_apply, checkSrc_ok ha0 hta, checkSrc_ok hb0 htb, checkSrc_ok hd0 htd, agree_ok htrc, agree_ok hd]
  split <;> simp [checkDst_ok hok (pairSources_ok hb)]

/-- A byte of td as the mask of a row (R173), until the row commits. -/
theorem Progress.mask {res : W64} {f : Nat → Nat → FR} {first r j : Nat} (h : Progress s d res (begun s d res) f first r t)
    (hok : shapeOk res = true) (hr : r < shVrows res) (hj : j < shVcols res) (hty : shType (s.me.tile d).shape = 9) :
    elemAt ((t.me.tile d).row r) 1 j = (s.me.tile d).elem r j := by
  have hpos := tySize_pos (shType res)
  have hfit := shapeOk_fits hok hj
  have hcut : (j + 1) * 1 ≤ shVcols res * tySize (shType res) := Nat.mul_le_mul hj hpos
  rw [h.rest r (.inr le_rfl), begun, Tile.unscaled_row, Tile.reshape_row, if_pos hr,
    elemAt_cutRow _ ((Nat.mul_le_mul_left _ hpos).trans hfit) hcut, Tile.elem, hty]
  rfl

theorem exec_tsel (d a b : Num3) : exec (.tsel d a b) = run (tileSel d a b) := rfl

theorem tileSel_begins (hend : ToTheEnd s) (hres : resumesAt s (restartKey 2 0 6) = none) (hag : agreeing s d a b allTypes)
    (hd0 : (s.me.tile d).shape ≠ 0) (hty : shType (s.me.tile d).shape = 9) (hd : sameRC (s.me.tile d).shape (s.me.tile a).shape = true) :
    ∃ v, tileSel d a b s.issue = .ok .done v ∧ TileResult s v.finish d 0 (s.me.tile a).shape unitScales
      fun r j => ⟨if (s.me.tile d).elem r j ≠ 0 then (s.me.tile a).elem r j else (s.me.tile b).elem r j, 0⟩ := by
  obtain ⟨fmt, happ⟩ := tileSel_apply d a b s.issue
  have hok := hag.2.2.2.2.1
  have hb := hag.2.2.2.2.2
  rw [happ, State.issue_tile, State.issue_tile, State.issue_tile]
  refine run_tileRows hend hres (selCheck_ok hag hd0 hty hd _) hok (fun u r hr hu => resultRow_of hu.shape fun j hj => ?_)
    fun h => absurd h (by decide)
  rw [hu.mask hok hr hj hty, hu.sourceBegun hok hr (fun _ => hj) fun _ => rfl, hu.sourceBegun hok hr (fun _ => hj) hb]

/-! ## TCPYM -/

def cpymCheck (sa sb sd fmt : W64) (d a b : Num3) : M W64 := do
  checkSrc sa allTypes fmt
  checkSrc sb [9] fmt
  agree (sameRC sb sa) sb fmt
  checkSrc sd allTypes fmt
  agree (sameTRC sd sa) sd fmt
  checkDst d sa [(a, sa), (b, sb)] fmt
  return sa

/-- The rows of TCPYM. -/
def cpymRows (d a b : Num3) (sl : Slot) (r : Nat) : List FR :=
  (List.range (shVcols (sl.tile d).shape)).map fun j =>
    FR.mk (if (sl.tile b).elem r j ≠ 0 then (sl.tile a).elem r j else (sl.tile d).elem r j) 0

theorem tileCpym_apply (d a b : Num3) (s : State) :
    ∃ fmt, tileCpym d a b s = tileRows (restartKey 2 0 7) d
      (cpymCheck (s.me.tile a).shape (s.me.tile b).shape (s.me.tile d).shape fmt d a b) (beginResultKeep d)
      (rowBody d (cpymRows d a b) false fun _ _ => fmt) s := by
  refine ⟨tfmtWord (tyCode (s.me.tile a).shape) (tyCode (s.me.tile a).shape) (tyCode (s.me.tile b).shape) (tyCode (s.me.tile d).shape), ?_⟩
  unfold tileCpym
  rw [M.bind_apply, getMe_apply]
  rfl

/-- td as TCPYM begins it: its row scales stay (R326). -/
theorem Progress.atStartKept (s : State) (d : Num3) (res : W64) (f : Nat → Nat → FR) :
    Progress s d res ((s.me.tile d).reshape res) f 0 0 (s.issue.modMe fun sl => sl.setTile d ((sl.tile d).reshape res)) := by
  refine .start (base := (s.me.tile d).reshape res)
    ((TileWork.issue s d).modMe (f := fun sl => sl.setTile d ((sl.tile d).reshape res)) (.setTile ..)) ?_ rfl ?_ 0
  · rw [State.modMe_me, Slot.setTile_tile, State.issue_tile]
  · rw [State.modMe_me, Slot.setTile_flags, State.issue_flags]

theorem exec_tcpym (d a b : Num3) : exec (.tcpym d a b) = run (tileCpym d a b) := rfl

theorem tileCpym_begins (hend : ToTheEnd s) (hres : resumesAt s (restartKey 2 0 7) = none) (ha0 : (s.me.tile a).shape ≠ 0)
    (hb0 : (s.me.tile b).shape ≠ 0) (hd0 : (s.me.tile d).shape ≠ 0) (htb : shType (s.me.tile b).shape = 9)
    (hbrc : sameRC (s.me.tile b).shape (s.me.tile a).shape = true) (hd : sameTRC (s.me.tile d).shape (s.me.tile a).shape = true)
    (hok : shapeOk (s.me.tile a).shape = true) (hb : b = d → (s.me.tile b).shape = (s.me.tile a).shape) :
    ∃ v, tileCpym d a b s.issue = .ok .done v ∧ TileResult s v.finish d 0 (s.me.tile a).shape (s.me.tile d).scales
      fun r j => ⟨if (s.me.tile b).elem r j ≠ 0 then (s.me.tile a).elem r j else (s.me.tile d).elem r j, 0⟩ := by
  obtain ⟨fmt, happ⟩ := tileCpym_apply d a b s.issue
  have hta : shType (s.me.tile a).shape ≤ 9 := shapeOk_type hok
  have hb9 : shType (s.me.tile b).shape ∈ [9] := by simp [htb]
  have hcheck (t : State) : cpymCheck (s.me.tile a).shape (s.me.tile b).shape (s.me.tile d).shape fmt d a b t = .ok (s.me.tile a).shape t := by
    simp [cpymCheck, checkSrc_ok ha0 (mem_allTypes hta), checkSrc_ok hb0 hb9, checkSrc_ok hd0 (mem_allTypes (sameTRC_type hd ▸ hta)),
      agree_ok hbrc, agree_ok hd, checkDst_ok hok (pairSources_ok hb)]
  rw [happ, State.issue_tile, State.issue_tile, State.issue_tile]
  refine run_rows (base := (s.me.tile d).reshape (s.me.tile a).shape) hend hres (hcheck _) hok rfl (.atStartKept s d _ _)
    (fun r hr => by rw [Tile.reshape_row, if_neg (by omega)])
    (fun u r hr hu => resultRow_of hu.shape fun j hj => ?_) fun h => absurd h (by decide)
  have hel (i : Num3) (hi : i = d → shType (s.me.tile i).shape = shType (s.me.tile a).shape) :
      (u.me.tile i).elem r j = (s.me.tile i).elem r j := hu.source hi fun _ => reshape_elem _ hok hr hj
  rw [hel a fun _ => rfl, hel b fun h => by rw [hb h], hel d fun _ => sameTRC_type hd]

/-- Settles O20: until its row commits, td still reads as it did, under its own type or as a mask. -/
theorem tileThreeSources : Obligations.TileThreeSources := by
  refine ⟨fun s d a b f hend hres hag hd0 hd hf hnan => ?_, fun s d a b hend hres hag hd0 hty hd => ?_,
    fun s d a b hend hres ha0 hb0 hd0 htb hbrc hd hok hb => ?_⟩
  · obtain ⟨v, hv, hr⟩ := tileFma_begins hend hres hag hd0 hd hf hnan
    rw [exec_tfma]
    exact ⟨_, run_of_ok hv, hr⟩
  · obtain ⟨v, hv, hr⟩ := tileSel_begins hend hres hag hd0 hty hd
    rw [exec_tsel]
    exact ⟨_, run_of_ok hv, hr⟩
  · obtain ⟨v, hv, hr⟩ := tileCpym_begins hend hres ha0 hb0 hd0 htb hbrc hd hok hb
    rw [exec_tcpym]
    exact ⟨_, run_of_ok hv, hr⟩

end Sys2Proof.Machine
end

section
/-! The transpose of a tile whose shape word is not one that a tile can hold (R165, R178). -/

-- One declaration after another: checked side by side, these take more threads than the memory of the check holds.
set_option Elab.async false

namespace Sys2Proof.Machine

open Sys2Proof.Claims

/-- A tile whose shape word names 2 columns and 64 valid ones, which R165 excludes; its element (0, 0) is 5. -/
def overwide : Tile := ⟨mkShape 0 2 2 1 64, Vector.ofFn fun i => if i = 0 then 5 else 0, unitScales⟩

/-- A slot that holds it in tile 0. -/
def overwideState : State := State.reset.modMe fun sl => sl.setTile 0 overwide

/-- Element (0, 0) of tile 5 after a transpose of tile 0. -/
def transposed : Option Nat :=
  match exec (.ttrans 5 0) overwideState with
  | .next t => some ((t.me.tile 5).elem 0 0)
  | _ => none

theorem transposed_eq : transposed = some 5 := by decide +kernel

/-- Refutes O21: the statement asks nothing of the source's own valid region. With 64 valid columns of 2 the field of the transpose's valid
rows overflows into the next: its shape word has no valid row, and yet the instruction commits rows. -/
theorem not_tileReductionsAndMoves : ¬ Obligations.TileReductionsAndMoves := by
  rintro ⟨-, -, -, htrans, -⟩
  have h := htrans overwideState 5 0 (mkShape 0 2 2 1 64) (mkShape 0 2 2 64 1) (by decide +kernel) (by decide +kernel) (by decide)
    (by decide) (by decide) (by decide) (by decide) (by decide)
  obtain ⟨t, ht, -, -, hzero, -⟩ := h
  have h0 : (t.me.tile 5).elem 0 0 = 0 := hzero 0 0 le_rfl (by decide) (by decide) (by decide)
  have h5 : transposed = some ((t.me.tile 5).elem 0 0) := by rw [transposed, ht]
  rw [transposed_eq, h0] at h5
  exact absurd h5 (by decide)

end Sys2Proof.Machine
end

section
/-! Shape and element access (R180): TSHAPE, TZERO, TSHGET, TFILL, TGETE, TSETE, TMASKR and TMASKC. -/

-- One declaration after another: checked side by side, these take more threads than the memory of the check holds.
set_option Elab.async false

namespace Sys2Proof.Machine

open Sys2Proof.Claims

variable {s t u : State} {td : Num3} {a : Reg} {sh v : W64}

/-! ## A tile replaced -/

/-- The state of an instruction that has replaced one tile. -/
theorem onlyTile_setTile (s : State) (td : Num3) (g : Slot → Tile) : OnlyTile s ((s.issue.modMe fun sl => sl.setTile td (g sl)).finish) td :=
  ((TileWork.issue s td).modMe (f := fun sl => sl.setTile td (g sl)) (.setTile ..)).finish

theorem State.finish_tile (t : State) (td : Num3) : t.finish.me.tile td = t.me.tile td := by
  have hme : t.finish.me = t.me.after t.behind .wait .complete := State.modMe_me ..
  rw [hme]
  rfl

theorem finish_setTile (s : State) (td : Num3) (g : Slot → Tile) :
    ((s.modMe fun sl => sl.setTile td (g sl)).finish).me.tile td = g s.me := by
  rw [State.finish_tile, State.modMe_me, Slot.setTile_tile]

theorem byteAt_cutRow {r : Row64} {n i : Nat} (hi : i < n) (h64 : i < 64) : Row64.byteAt (cutRow r n) i = Row64.byteAt r i :=
  Row64.byteAt_eq_of_elemAt (elemAt_cutRow r (by omega) (by omega))

theorem Row64.byteAt_zero (i : Nat) : Row64.byteAt 0 i = 0 := BitVec.eq_of_toNat_eq (by rw [byteAt_toNat, elemAt_zero]; rfl)

theorem byteAt_cutRow_of_le (r : Row64) {n i : Nat} (hi : n ≤ i) : Row64.byteAt (cutRow r n) i = 0 := by
  refine BitVec.eq_of_toNat_eq ?_
  rw [Row64.byteAt_toNat, cutRow, elemAt, BitVec.toNat_ofNat, Nat.div_eq_of_lt]
  · rfl
  · calc r.toNat % 2 ^ (8 * n) % 2 ^ 512 ≤ r.toNat % 2 ^ (8 * n) := Nat.mod_le ..
      _ < 2 ^ (8 * n) := Nat.mod_lt _ (Nat.two_pow_pos _)
      _ ≤ 2 ^ (8 * 1 * i) := Nat.pow_le_pow_right (by omega) (by omega)

/-! ## TSHAPE, TSHGET and the masks -/

theorem exec_tshape (td : Num3) (a : Reg) : exec (.tshape td a) = run (tileShape td a) := rfl

theorem run_tileShape (hp : NoPort s [a] none) (hok : shapeOk (s.src a) = true) :
    run (tileShape td a) s = .next (s.issue.modMe fun sl => sl.setTile td ((sl.tile td).reshape (s.src a)).unscaled).finish :=
  run_waiting hp (by simp [hok])

theorem needLive_ok (h : (s.me.tile td).shape ≠ 0) (v : W64) : needLive td v s = .ok (s.me.tile td) s := by
  have h' : ¬(s.me.tile td).shape = 0#64 := h
  simp [needLive, h']

theorem run_tileMask (hp : NoPort s [a] none) (h0 : (s.me.tile td).shape ≠ 0) (f : W64 → Nat → W64) :
    run (tileMask td a f) s =
      .next (s.issue.modMe fun sl => sl.setTile td ((sl.tile td).reshape (f (s.me.tile td).shape (s.src a).toNat))).finish := by
  refine run_waiting hp ?_
  simp only [M.bind_apply, rd_apply, State.issue_src, needLive_ok (s := s.issue) (td := td) (by rwa [State.issue_tile])]
  rw [setTile, modMe_apply, State.modMe_congr (g := fun sl => sl.setTile td ((sl.tile td).reshape (f (s.me.tile td).shape (s.src a).toNat)))
    (by simp)]

theorem atFmt_ok {α : Type} {m : M α} {fmt : W64} {x : α} (h : m s = .ok x t) : atFmt fmt m s = .ok x t := by
  rw [atFmt, h]

theorem exec_tshget (td : Num3) (a : Reg) : exec (.tshget td a) =
    run (getMe >>= fun sl => atFmt (fmtA sl td) (waiting [] (some a) (getMe >>= fun sl => wr a (sl.tile td).shape))) := rfl

theorem run_tshget (hp : NoPort s [] (some a)) : exec (.tshget td a) s = .next (s.issue.writeMine a (s.me.tile td).shape).finish := by
  rw [exec_tshget]
  refine run_of_ok (c := .done) ?_
  rw [M.bind_apply, getMe_apply]
  exact atFmt_ok (waiting_of_noPort hp.issue (by simp))

/-! ## Elements (TGETE, TSETE) -/

theorem exec_tgete (td : Num3) (a : Reg) : exec (.tgete td a) = run (tileGete td a) := rfl

theorem run_tileGete (hp : NoPort s [a] (some a)) (h0 : (s.me.tile td).shape ≠ 0) (hi : fld (s.src a) 0 16 < shRows (s.me.tile td).shape)
    (hj : fld (s.src a) 16 16 < shCols (s.me.tile td).shape) : run (tileGete td a) s =
      .next (s.issue.writeMine a (w64 ((s.me.tile td).elem (fld (s.src a) 0 16) (fld (s.src a) 16 16)))).finish := by
  refine run_of_ok (c := .done) ?_
  rw [tileGete, M.bind_apply, getMe_apply]
  refine atFmt_ok (waiting_of_noPort hp.issue ?_)
  simp [needLive_ok (s := s.issue) (td := td) (by rwa [State.issue_tile]), hi.not_ge, hj.not_ge]

/-- A tile with one element replaced (TSETE). -/
def Tile.setElem (t : Tile) (i j v : Nat) : Tile :=
  t.setRow i (rowOf (tySize (shType t.shape)) ((List.range (64 / tySize (shType t.shape))).map fun k =>
    if k = j then elemOf (shType t.shape) v else elemAt (t.row i) (tySize (shType t.shape)) k))

theorem exec_tsete (td : Num3) (a : Reg) : exec (.tsete td a) = run (tileSete td a) := rfl

theorem run_tileSete (hp : NoPort s [a] none) (h0 : (s.me.tile td).shape ≠ 0) (hi : fld (s.src a) 0 16 < shVrows (s.me.tile td).shape)
    (hj : fld (s.src a) 16 16 < shVcols (s.me.tile td).shape) : run (tileSete td a) s =
      .next (s.issue.modMe fun sl => sl.setTile td
        ((sl.tile td).setElem (fld (s.src a) 0 16) (fld (s.src a) 16 16) (fld (s.src a) 32 32))).finish := by
  refine run_waiting hp ?_
  simp only [M.bind_apply, rd_apply, State.issue_src, needLive_ok (s := s.issue) (td := td) (by rwa [State.issue_tile]), State.issue_tile,
    hi.not_ge, hj.not_ge, ge_iff_le, Bool.or_self, decide_false, Bool.false_eq_true, if_false]
  rw [setTile, modMe_apply, State.modMe_congr (g := fun sl => sl.setTile td
    ((sl.tile td).setElem (fld (s.src a) 0 16) (fld (s.src a) 16 16) (fld (s.src a) 32 32))) (by simp [Tile.setElem])]

/-- An element as it is stored and read back (R151, R180). -/
theorem tyBits_elemOf (ty v : Nat) : tyBits ty (elemOf ty v % 2 ^ (8 * tySize ty)) = tyBits ty (v % 2 ^ (8 * tySize ty)) := by
  unfold elemOf
  split
  · rename_i h
    subst h
    have hz : tySize 4 = 2 := rfl
    simp only [tyBits, hz, if_pos]
    omega
  · rw [Nat.mod_mod]

theorem lt_of_fits {ty k : Nat} (h : (k + 1) * tySize ty ≤ 64) : k < 64 / tySize ty :=
  (Nat.le_div_iff_mul_le (tySize_pos ty)).mpr h

section
variable {t : Tile} {i j k r v : Nat}

theorem Tile.setElem_elem (hi : i < 32) (hj : (j + 1) * tySize (shType t.shape) ≤ 64) :
    (t.setElem i j v).elem i j = tyBits (shType t.shape) (v % 2 ^ (8 * tySize (shType t.shape))) := by
  rw [Tile.elem, Tile.setElem, Tile.setRow_shape, Tile.setRow_row _ _ hi, elemAt_rowOf _ hj]
  simp [lt_of_fits hj, tyBits_elemOf]

theorem Tile.setElem_elem_of_ne (hi : i < 32) (hk : (k + 1) * tySize (shType t.shape) ≤ 64) (h : r ≠ i ∨ k ≠ j) :
    (t.setElem i j v).elem r k = t.elem r k := by
  rw [Tile.elem, Tile.setElem, Tile.setRow_shape, Tile.elem]
  by_cases hr : r = i
  · subst hr
    rw [Tile.setRow_row _ _ hi, elemAt_rowOf _ hk]
    simp [lt_of_fits hk, h.resolve_left (not_not_intro rfl), elemAt]
  · rw [Tile.setRow_row_of_ne _ _ (Ne.symm hr)]

end

/-! ## TZERO and TFILL, row by row (R167) -/

/-- A tile instruction under way on rows that it zeroes. -/
structure Zeroing (s : State) (td : Num3) (sh : W64) (r : Nat) (t : State) : Prop where
  work : TileWork s t td
  shape : (t.me.tile td).shape = sh
  scales : (t.me.tile td).scales = unitScales
  rows : ∀ i, i < r ∨ shVrows sh ≤ i → (t.me.tile td).row i = 0

theorem Zeroing.rowDone {r : Nat} (h : Zeroing s td sh r t) (hr : r < 32) : Zeroing s td sh (r + 1) (t.rowDone td r []) := by
  have hd : (t.rowDone td r []).me.tile td = (t.me.tile td).setRow r 0 := by
    rw [State.rowDone_me]
    exact Slot.setTile_tile ..
  refine ⟨h.work.rowDone .., by rw [hd, Tile.setRow_shape, h.shape], by rw [hd, Tile.setRow_scales, h.scales], fun i hi => ?_⟩
  rw [hd]
  by_cases hir : r = i
  · subst hir
    exact Tile.setRow_row _ _ hr
  · rw [Tile.setRow_row_of_ne _ _ hir, h.rows i (by omega)]

theorem Tile.eq_of_rows {t : Tile} {scales : Vector W32 32} (hsh : t.shape = sh) (hsc : t.scales = scales) (hrows : ∀ i, t.row i = 0) :
    t = ⟨sh, Vector.replicate 32 0, scales⟩ := by
  obtain ⟨shape, rows, sc⟩ := t
  obtain rfl : shape = sh := hsh
  obtain rfl : sc = scales := hsc
  congr
  ext1 i hi
  simpa [Tile.row, vat, hi] using hrows i

theorem withPorts_ok {α : Type} {srcs : List Reg} {dst : Option Reg} {m : Bool → M α} {x : α} (hp : NoPort s srcs dst)
    (h : m false s = .ok x t) : withPorts srcs dst m s = .ok x t := by
  rw [withPorts_of_noPort _ hp, h]

theorem exec_tzero (td : Num3) (a : Reg) : exec (.tzero td a) = run (tileZero td a) := rfl

theorem run_tileZero (hp : NoPort s [a] none) (hok : shapeOk (s.src a) = true) (hend : ToTheEnd s)
    (hres : resumesAt s (restartKey 2 5 2) = none) :
    ∃ t, run (tileZero td a) s = .next t ∧ OnlyTile s t td ∧ t.me.tile td = ⟨s.src a, Vector.replicate 32 0, unitScales⟩ := by
  have h32 := (shapeOk_bounds hok).1
  have hstart := Progress.atStart s td (s.src a) fun _ _ => ⟨0, 0⟩
  obtain ⟨v, hv, hz⟩ : ∃ v, forRows (restartKey 2 5 2) 0 (shVrows (s.src a)) (rowBody td (fun _ _ => []) false fun sl _ => fmtD sl td)
      (s.issue.modMe fun sl => sl.setTile td ((sl.tile td).reshape (s.src a)).unscaled) = .ok () v ∧
      Zeroing s td (s.src a) (shVrows (s.src a)) v := by
    rw [forRows_eq, hstart.work.cur_eq, hend.1]
    refine rowLoop_ok (Nat.zero_le _) (I := Zeroing s td (s.src a)) (fun r u hu => ?_) (fun r u _ hr hu => ⟨_, ?_, hu.rowDone (by omega)⟩) ?_
    · rw [hu.work.slot.stopReq, (State.issue_frame s).2.2]
      exact hend.2
    · rw [rowBody_apply, commitRow_apply]
      rfl
    · have h := hstart.cleared
      exact ⟨h.work, h.shape, h.scales, fun i hi => by rw [h.rest i (.inr (Nat.zero_le i)), begun_row_of_le (by omega)]⟩
  have hrun : tileZero td a s.issue = .ok .done v := by
    have hrows : tileRows (restartKey 2 5 2) td (do
          if !shapeOk (s.src a) then shapeTrap (s.src a) (fmtD (← getMe) td)
          return s.src a) (beginResult td) (rowBody td (fun _ _ => []) false fun sl _ => fmtD sl td) s.issue = .ok .done v :=
      tileRows_begins (by rwa [resumesAt_issue]) (by simp [hok]) rfl hv
    rw [tileZero]
    refine withPorts_ok hp.issue ?_
    rw [M.bind_apply, rd_apply, State.issue_src]
    exact hrows
  exact ⟨_, run_of_ok hrun, hz.work.finish, (State.finish_tile v td).trans
    (Tile.eq_of_rows hz.shape hz.scales fun i => hz.rows i (Nat.lt_or_ge i _))⟩

/-- The elements of TFILL. -/
def fillRows (td : Num3) (v : W64) (sl : Slot) (_ : Nat) : List FR :=
  (List.range (shVcols (sl.tile td).shape)).map fun _ => ⟨elemOf (shType (sl.tile td).shape) v.toNat, 0⟩

theorem exec_tfill (td : Num3) (a : Reg) : exec (.tfill td a) = run (tileFill td a) := rfl

theorem run_tileFill (hp : NoPort s [a] none) (h0 : (s.me.tile td).shape ≠ 0) (hok : shapeOk (s.me.tile td).shape = true) (hend : ToTheEnd s)
    (hres : resumesAt s (restartKey 2 5 3) = none) :
    ∃ t, run (tileFill td a) s = .next t ∧ OnlyTile s t td ∧ (t.me.tile td).shape = (s.me.tile td).shape ∧
      (t.me.tile td).scales = (s.me.tile td).scales ∧
      ∀ r j, r < shVrows (s.me.tile td).shape → j < shVcols (s.me.tile td).shape → (t.me.tile td).elem r j =
        tyBits (shType (s.me.tile td).shape) ((s.src a).toNat % 2 ^ (8 * tySize (shType (s.me.tile td).shape))) := by
  obtain ⟨v, hv, hp', -⟩ := forRows_result (key := restartKey 2 5 3) (computes := false) (els := fillRows td (s.src a)) (fmt := fun sl _ => fmtD sl td)
    (f := fun _ _ => ⟨elemOf (shType (s.me.tile td).shape) (s.src a).toNat, 0⟩) hend
    (.start (.issue s td) (State.issue_tile s td) rfl (State.issue_flags s) 0) (shapeOk_bounds hok).1
    (fun u r _ hr hu => by rw [fillRows, hu.shape]; rfl) fun h => absurd h (by decide)
  have hrun : tileFill td a s.issue = .ok .done v := by
    have hrows : tileRows (restartKey 2 5 3) td (do return (← needLive td (s.src a)).shape) (fun _ => pure ())
        (rowBody td (fillRows td (s.src a)) false fun sl _ => fmtD sl td) s.issue = .ok .done v :=
      tileRows_begins (by rwa [resumesAt_issue]) (res := (s.me.tile td).shape)
        (by simp [needLive_ok (s := s.issue) (td := td) (by rwa [State.issue_tile])]) rfl hv
    rw [tileFill]
    refine withPorts_ok hp.issue ?_
    rw [M.bind_apply, rd_apply, State.issue_src]
    exact hrows
  refine ⟨_, run_of_ok hrun, hp'.work.finish, ?_, ?_, fun r j hr hj => ?_⟩
  · exact (congrArg Tile.shape (State.finish_tile v td)).trans hp'.shape
  · exact (congrArg Tile.scales (State.finish_tile v td)).trans hp'.scales
  · rw [show (settle (.ok .done v)) = v.finish from rfl, State.finish_tile, Tile.elem, hp'.shape, hp'.done r (Nat.zero_le r) (by omega),
      elemAt_rowOf _ (shapeOk_fits hok hj)]
    simp [resultRow, hj, tyBits_elemOf]

/-- Settles O22: a shape word cuts the rows, TZERO and TFILL write them one by one, and the others are one replacement of the tile. -/
theorem tileShapes : Obligations.TileShapes := by
  refine ⟨fun s td a hp hok => ⟨⟨_, ?_, onlyTile_setTile s td fun sl => ((sl.tile td).reshape (s.src a)).unscaled, ?_⟩, fun hend hres => ?_⟩,
    fun s td a hp => run_tshget hp,
    fun s td a sh hp hend hres hsh h0 hok => ?_, fun s td a sh hp hsh h0 hi hj => ?_, fun s td a sh hp hsh h0 hok hi hj => ?_,
    fun s td a sh hp hsh h0 => ?_⟩
  · rw [exec_tshape]
    exact run_tileShape hp hok
  · rw [finish_setTile]
    refine ⟨rfl, rfl, fun r i hr hi h64 => ?_, fun r i h => ?_⟩
    · rw [Tile.unscaled_row, Tile.reshape_row, if_pos hr, byteAt_cutRow hi h64, State.issue_tile]
    · rw [Tile.unscaled_row, Tile.reshape_row]
      split
      next hr => exact byteAt_cutRow_of_le _ (by omega)
      next => exact Row64.byteAt_zero i
  · rw [exec_tzero]
    exact run_tileZero hp hok hend hres
  · subst hsh
    rw [exec_tfill]
    exact run_tileFill hp h0 hok hend hres
  · subst hsh
    rw [exec_tgete]
    exact run_tileGete hp h0 hi hj
  · subst hsh
    have hi32 : fld (s.src a) 0 16 < 32 := hi.trans_le (shapeOk_bounds hok).1
    rw [exec_tsete]
    refine ⟨_, run_tileSete hp h0 hi hj, onlyTile_setTile s td _, ?_⟩
    rw [finish_setTile, State.issue_tile]
    exact ⟨rfl, rfl, Tile.setElem_elem hi32 (shapeOk_fits hok hj), fun r j _ hk hne => Tile.setElem_elem_of_ne hi32 hk hne⟩
  · subst hsh
    exact ⟨run_tileMask hp h0 _, run_tileMask hp h0 _⟩

end Sys2Proof.Machine
end

section
/-! Exact arithmetic (R150 to R153, R160, R172, R174): the values of sums and products, the values that a format holds, and saturation. -/

-- One declaration after another: checked side by side, these take more threads than the memory of the check holds.
set_option Elab.async false

namespace Sys2Proof.Machine

open Sys2Proof.Claims

/-! ## The values of finite numbers -/

/-- (-1)^neg m 2^e as a rational number. -/
theorem ratOf_fin (neg : Bool) (m : Nat) (e : Int) : ratOf (.fin neg m e) = some ((signedMan neg m : ℚ) * 2 ^ e) := by
  cases neg <;> simp [ratOf, signedMan]

/-- A finite number is a zero or a mantissa with its exponent. -/
theorem ratOf_some {a : Fp} {x : ℚ} (h : ratOf a = some x) :
    (∃ n, a = .zero n ∧ x = 0) ∨ ∃ n m e, a = .fin n m e ∧ x = (signedMan n m : ℚ) * 2 ^ e := by
  cases a with
  | nan => cases h
  | inf _ => cases h
  | zero n => exact .inl ⟨n, rfl, (Option.some.inj h).symm⟩
  | fin n m e => exact .inr ⟨n, m, e, rfl, Option.some.inj (h.symm.trans (ratOf_fin n m e))⟩

theorem ratOf_ofScaled (rm : Rm) (v e : Int) : ratOf (.ofScaled rm v e) = some ((v : ℚ) * 2 ^ e) := by
  unfold Fp.ofScaled
  split
  next h => simp [ratOf, h]
  next h =>
    have hv : signedMan (decide (v < 0)) v.natAbs = v := by
      rcases lt_or_ge v 0 with hneg | hpos
      · simp only [signedMan, hneg, decide_true, if_true]
        omega
      · simp only [signedMan, Int.not_lt.mpr hpos, decide_false, Bool.false_eq_true, if_false]
        omega
    rw [ratOf_fin, hv]

/-- A mantissa moved to a lower exponent. -/
theorem scaled_eq (v : Int) {e lo : Int} (h : lo ≤ e) : ((v * 2 ^ (e - lo).toNat : Int) : ℚ) * 2 ^ lo = (v : ℚ) * 2 ^ e := by
  have he : (2 : ℚ) ^ e = 2 ^ (e - lo).toNat * 2 ^ lo := by
    rw [← zpow_natCast, Int.toNat_of_nonneg (by omega), ← zpow_add₀ (by norm_num)]
    ring_nf
  rw [he]
  push_cast
  ring

section
variable {rm : Rm} {a b : Fp} {x y : ℚ}

theorem add_exact (ha : ratOf a = some x) (hb : ratOf b = some y) : ratOf (a.add rm b).1 = some (x + y) ∧ (a.add rm b).2 = 0 := by
  rcases ratOf_some ha with ⟨n, rfl, rfl⟩ | ⟨n, m, e, rfl, rfl⟩ <;> rcases ratOf_some hb with ⟨n', rfl, rfl⟩ | ⟨n', m', e', rfl, rfl⟩
  · exact ⟨by simp [Fp.add, ratOf], rfl⟩
  · exact ⟨by rw [zero_add]; exact ratOf_fin .., rfl⟩
  · exact ⟨by rw [add_zero]; exact ratOf_fin .., rfl⟩
  · refine ⟨?_, rfl⟩
    rw [Fp.add, ratOf_ofScaled, ← scaled_eq _ (min_le_left e e'), ← scaled_eq (signedMan n' m') (min_le_right e e')]
    push_cast
    rw [add_mul]

theorem signedMan_mul (n n' : Bool) (m m' : Nat) : signedMan (n != n') (m * m') = signedMan n m * signedMan n' m' := by
  cases n <;> cases n' <;> simp [signedMan]

theorem mul_exact (ha : ratOf a = some x) (hb : ratOf b = some y) : ratOf (a.mul b).1 = some (x * y) ∧ (a.mul b).2 = 0 := by
  rcases ratOf_some ha with ⟨n, rfl, rfl⟩ | ⟨n, m, e, rfl, rfl⟩ <;> rcases ratOf_some hb with ⟨n', rfl, rfl⟩ | ⟨n', m', e', rfl, rfl⟩
  · exact ⟨by simp [Fp.mul, ratOf], rfl⟩
  · exact ⟨by simp [Fp.mul, ratOf], rfl⟩
  · exact ⟨by simp [Fp.mul, ratOf], rfl⟩
  · refine ⟨?_, rfl⟩
    rw [Fp.mul, ratOf_fin, signedMan_mul, zpow_add₀ (by norm_num)]
    push_cast
    rw [mul_mul_mul_comm]

theorem isNan_of_ratOf (h : ratOf a = some x) : a.isNan = false := by
  rcases ratOf_some h with ⟨n, rfl, -⟩ | ⟨n, m, e, rfl, -⟩ <;> rfl

theorem fma_exact {c : Fp} {z : ℚ} (ha : ratOf a = some x) (hb : ratOf b = some y) (hc : ratOf c = some z) :
    ratOf (Fp.fma rm a b c).1 = some (x * y + z) := by
  have hp := (mul_exact ha hb).1
  simp only [Fp.fma, isNan_of_ratOf ha, isNan_of_ratOf hb, isNan_of_ratOf hc, isNan_of_ratOf hp, Bool.or_self, Bool.false_eq_true, if_false]
  exact (add_exact hp hc).1

end

theorem exactArithmetic_holds : Claims.ExactArithmetic := fun _ _ _ _ _ ha hb =>
  ⟨(add_exact ha hb).1, (mul_exact ha hb).1, (add_exact ha hb).2, (mul_exact ha hb).2, fun _ _ hc => fma_exact ha hb hc⟩

/-! ## The K-step sum (R160) -/

theorem ratOf_not_inf {a : Fp} {x : ℚ} (h : ratOf a = some x) (n : Bool) : a ≠ .inf n := by
  rintro rfl
  cases h

/-- The products of two lists of finite numbers. -/
theorem products_exact (xs ys : List Fp) {us vs : List ℚ} (hx : xs.map ratOf = us.map some) (hy : ys.map ratOf = vs.map some) :
    (List.zipWith Fp.mul xs ys).map (fun q => ratOf q.1) = (List.zipWith (fun x y => x * y) us vs).map some ∧
      ∀ q ∈ List.zipWith Fp.mul xs ys, q.2 = 0 := by
  induction xs generalizing ys us vs with
  | nil =>
    obtain rfl : us = [] := by simpa using hx.symm
    simp
  | cons x xs ih =>
    obtain ⟨u, us, rfl⟩ : ∃ u us', us = u :: us' := List.exists_cons_of_ne_nil (by rintro rfl; simp at hx)
    cases ys with
    | nil =>
      obtain rfl : vs = [] := by simpa using hy.symm
      simp
    | cons y ys =>
      obtain ⟨v, vs, rfl⟩ : ∃ v vs', vs = v :: vs' := List.exists_cons_of_ne_nil (by rintro rfl; simp at hy)
      simp only [List.map_cons, List.cons.injEq] at hx hy
      obtain ⟨h1, h2⟩ := ih ys hx.2 hy.2
      obtain ⟨h3, h4⟩ := mul_exact hx.1 hy.1
      exact ⟨by simp [h1, h3], List.forall_mem_cons.mpr ⟨h4, h2⟩⟩

theorem foldl_add_exact (ps : List (Fp × Nat)) {ws : List ℚ} {acc : Fp} {w : ℚ} (hacc : ratOf acc = some w)
    (hps : ps.map (fun q => ratOf q.1) = ws.map some) :
    ratOf (ps.foldl (fun acc q => (acc.add .nearest q.1).1) acc) = some (w + ws.sum) := by
  induction ps generalizing ws acc w with
  | nil =>
    obtain rfl : ws = [] := by simpa using hps.symm
    simpa using hacc
  | cons q ps ih =>
    obtain ⟨v, ws, rfl⟩ : ∃ v ws', ws = v :: ws' := List.exists_cons_of_ne_nil (by rintro rfl; simp at hps)
    simp only [List.map_cons, List.cons.injEq] at hps
    rw [List.foldl_cons, ih (add_exact hacc hps.1).1 hps.2, List.sum_cons, add_assoc]

theorem foldl_flags_zero {ps : List (Fp × Nat)} (h : ∀ q ∈ ps, q.2 = 0) : ps.foldl (fun f q => f ||| q.2) 0 = 0 := by
  induction ps with
  | nil => rfl
  | cons q ps ih =>
    rw [List.foldl_cons, h q List.mem_cons_self]
    exact ih fun q hq => h q (List.mem_cons_of_mem _ hq)

theorem ratOf_plusZero (x : Fp) : ratOf (plusZero x) = ratOf x := by
  cases x <;> rfl

theorem exactKStep_holds : Claims.ExactKStep := by
  intro xs ys us vs hx hy _
  obtain ⟨hps, hfl⟩ := products_exact xs ys hx hy
  have hinf (n : Bool) : (List.zipWith Fp.mul xs ys).any (fun q => decide (q.1 = .inf n)) = false := by
    rw [List.any_eq_false]
    intro q hq
    have hmem : ratOf q.1 ∈ (List.zipWith (fun x y => x * y) us vs).map some := hps ▸ List.mem_map_of_mem (f := fun q => ratOf q.1) hq
    obtain ⟨v, -, hv⟩ := List.mem_map.mp hmem
    simpa using ratOf_not_inf hv.symm n
  simp only [ksum, Bool.false_eq_true, if_false, hinf, foldl_flags_zero hfl, ratOf_plusZero]
  refine ⟨?_, rfl⟩
  rw [foldl_add_exact (acc := .zero false) (w := 0) _ rfl hps, zero_add]

/-! ## Saturation (R174) -/

theorem intOf_intBits {ty : Nat} {v : Int} (hty : ty ∈ [0, 1, 8]) (hlo : intMin ty ≤ v) (hhi : v ≤ intMax ty) :
    intOf ty (intBits ty v) = v ∧ intBits ty v < 2 ^ (8 * tySize ty) := by
  simp only [List.mem_cons, List.not_mem_nil, or_false] at hty
  rcases hty with rfl | rfl | rfl
  · simp only [intMin, intMax] at hlo hhi
    simp only [intOf, intBits, tySize, if_neg (by decide : ¬(0 : Nat) = 8)]
    omega
  · simp only [intMin, intMax] at hlo hhi
    simp only [intOf, intBits, tySize, if_neg (by decide : ¬(1 : Nat) = 8)]
    omega
  · simp only [intMin, intMax] at hlo hhi
    simp only [intOf, intBits, tySize, if_true]
    omega

theorem intMin_le_intMax {ty : Nat} (hty : ty ∈ [0, 1, 8]) : intMin ty ≤ intMax ty := by
  simp only [List.mem_cons, List.not_mem_nil, or_false] at hty
  rcases hty with rfl | rfl | rfl <;> decide

theorem integerSaturation_holds : Claims.IntegerSaturation := by
  intro ty v hty
  have hle := intMin_le_intMax hty
  unfold satInt
  rcases lt_or_ge v (intMin ty) with hlo | hlo
  · obtain ⟨h, hb⟩ := intOf_intBits hty le_rfl hle
    rw [if_pos hlo]
    exact ⟨fun h => by omega, fun _ => ⟨h, rfl⟩, fun h => by omega, hb⟩
  rw [if_neg (by omega)]
  rcases lt_or_ge (intMax ty) v with hhi | hhi
  · obtain ⟨h, hb⟩ := intOf_intBits hty hle le_rfl
    rw [if_pos hhi]
    exact ⟨fun _ h => by omega, fun h => by omega, fun _ => ⟨h, rfl⟩, hb⟩
  · obtain ⟨h, hb⟩ := intOf_intBits hty hlo hhi
    rw [if_neg (by omega)]
    exact ⟨fun _ _ => ⟨h, rfl⟩, fun h => by omega, fun h => by omega, hb⟩

/-! ## The numbers of a format (R150 to R153) -/

theorem bitLen_eq {m p : Nat} (h1 : 2 ^ p ≤ m) (h2 : m < 2 ^ (p + 1)) : bitLen m = p + 1 := by
  have h0 : m ≠ 0 := by have := Nat.two_pow_pos p; omega
  rw [bitLen, if_neg h0, (Nat.log2_eq_iff h0).mpr ⟨h1, h2⟩]

theorem bitLen_le {m p : Nat} (h : m < 2 ^ p) : bitLen m ≤ p := by
  unfold bitLen
  split
  · omega
  · rename_i h0
    exact (Nat.log2_lt h0).mpr h

/-- Four times a mantissa, rounded at its last bit: nothing is lost. -/
theorem roundAt_exact (rm : Rm) (neg : Bool) (m : Nat) {e ex : Int} (h : ex = e + 2) : roundAt rm neg (m * 4) e ex = (m, false) := by
  have h2 : (ex - e).toNat = 2 := by omega
  have hup : roundsUp rm neg m 0 4 = false := by cases rm <;> simp [roundsUp]
  simp [roundAt, show ¬ex ≤ e by omega, h2, hup]

/-- The largest finite number of a layout is not exceeded by what it holds. -/
def Fmt.within (f : Fmt) (m : Nat) (e : Int) : Prop := e < f.maxFinite.2 ∨ (e = f.maxFinite.2 ∧ m ≤ f.maxFinite.1)

/-- A number that a layout holds, rounded to it. -/
theorem round_exact {f : Fmt} (rm : Rm) (sat neg : Bool) {m : Nat} {e : Int} (hm : m < 2 ^ (f.mw + 1)) (he : 1 - f.bias - f.mw ≤ e)
    (hnorm : 2 ^ f.mw ≤ m ∨ e = 1 - f.bias - f.mw) (hw : f.within m e) :
    f.round rm sat neg m e false =
      if m < 2 ^ f.mw then ⟨f.sign neg + m, 0⟩ else ⟨f.sign neg + (e + f.bias + f.mw).toNat * 2 ^ f.mw + (m - 2 ^ f.mw), 0⟩ := by
  have hlen : bitLen (m * 4) ≤ f.mw + 3 := bitLen_le (by rw [show f.mw + 3 = f.mw + 1 + 2 from rfl, pow_add]; omega)
  have hmax : max (e - 2 + bitLen (m * 4) - (f.mw + 1 : Nat) : Int) (1 - f.bias - f.mw) = e := by
    rcases hnorm with h | h
    · have hb : bitLen (m * 4) = f.mw + 2 + 1 :=
        bitLen_eq (by rw [pow_add]; omega) (by rw [show f.mw + 2 + 1 = f.mw + 1 + 2 by ring, pow_add]; omega)
      rw [hb]
      push_cast
      omega
    · push_cast at hlen ⊢
      omega
  have hover : (decide (e ≥ f.maxFinite.2) && decide (m * 2 ^ (e - f.maxFinite.2).toNat > f.maxFinite.1)) = false := by
    rcases hw with h | ⟨h, h'⟩
    · simp [h]
    · simp [h, h']
  have hp : m ≠ 2 ^ (f.mw + 1) := by omega
  unfold Fmt.round
  simp only [boolNat, Bool.false_eq_true, if_false, Nat.add_zero, hmax, roundAt_exact rm neg m (show e = e - 2 + 2 by ring), hover, if_neg hp,
    flagIf, Bool.and_false, Nat.add_zero]

theorem boolNat_bit {n : Nat} (h : n < 2) : boolNat (decide (n % 2 = 1)) = n := by
  obtain rfl | rfl : n = 0 ∨ n = 1 := by omega
  · rfl
  · rfl

/-- A bit pattern in its sign, exponent and mantissa. -/
theorem Fmt.bits_eq (f : Fmt) {b : Nat} (hb : b < 2 ^ (1 + f.ew + f.mw)) :
    f.sign (decide (b / 2 ^ (f.mw + f.ew) % 2 = 1)) + b / 2 ^ f.mw % 2 ^ f.ew * 2 ^ f.mw + b % 2 ^ f.mw = b := by
  have hs : b / 2 ^ (f.mw + f.ew) < 2 := by
    rw [Nat.div_lt_iff_lt_mul (Nat.two_pow_pos _), ← pow_succ']
    exact hb.trans_le (Nat.pow_le_pow_right (by omega) (by omega))
  rw [Fmt.sign, boolNat_bit hs]
  have h1 := Nat.div_add_mod b (2 ^ f.mw)
  have h2 := Nat.div_add_mod (b / 2 ^ f.mw) (2 ^ f.ew)
  rw [Nat.div_div_eq_div_mul, ← pow_add] at h2
  calc b / 2 ^ (f.mw + f.ew) * 2 ^ (f.mw + f.ew) + b / 2 ^ f.mw % 2 ^ f.ew * 2 ^ f.mw + b % 2 ^ f.mw
      = 2 ^ f.mw * (2 ^ f.ew * (b / 2 ^ (f.mw + f.ew)) + b / 2 ^ f.mw % 2 ^ f.ew) + b % 2 ^ f.mw := by rw [pow_add]; ring
    _ = b := by rw [h2, h1]

/-- What a layout of at least two exponent bits holds stays as it is. -/
theorem deliver_decode {f : Fmt} (hew : 2 ≤ f.ew) (rm : Rm) (sat : Bool) {b : Nat} {x : ℚ} (hb : b < 2 ^ (1 + f.ew + f.mw))
    (hx : ratOf (f.decode b) = some x) : f.deliver rm sat (f.decode b) 0 = ⟨b, 0⟩ := by
  have hbits := f.bits_eq hb
  have hpow : 2 ^ 2 ≤ 2 ^ f.ew := Nat.pow_le_pow_right (by omega) hew
  have hex : b / 2 ^ f.mw % 2 ^ f.ew < 2 ^ f.ew := Nat.mod_lt _ (Nat.two_pow_pos _)
  have hman : b % 2 ^ f.mw < 2 ^ f.mw := Nat.mod_lt _ (Nat.two_pow_pos _)
  have hmax2 : ((2 : Int) ^ f.ew) = ((2 ^ f.ew : Nat) : Int) := by push_cast; rfl
  unfold Fmt.decode at hx ⊢
  simp only [] at hx ⊢
  generalize b / 2 ^ f.mw % 2 ^ f.ew = ex at hx hbits hex ⊢
  generalize b % 2 ^ f.mw = man at hx hbits hman ⊢
  generalize decide (b / 2 ^ (f.mw + f.ew) % 2 = 1) = neg at hx hbits ⊢
  split at hx
  next => split at hx <;> cases hx
  next hfin =>
  rw [if_neg hfin]
  split
  next h0 =>
    subst h0
    split
    next h0 =>
      subst h0
      simpa [Fmt.deliver] using hbits
    next h0 =>
      have hw : f.within man (1 - f.bias - f.mw) := by
        refine .inl ?_
        unfold Fmt.maxFinite
        split <;> simp only [hmax2] <;> omega
      simp only [Fmt.deliver, round_exact rm sat neg (show man < 2 ^ (f.mw + 1) by rw [pow_succ]; omega) le_rfl (.inr rfl) hw, if_pos hman]
      simpa using hbits
  next h0 =>
    have hw : f.within (2 ^ f.mw + man) ((ex : Int) - f.bias - f.mw) := by
      unfold Fmt.within Fmt.maxFinite
      simp only [Bool.and_eq_true, decide_eq_true_eq, Bool.or_eq_true, Bool.not_eq_true', not_and, not_or] at hfin
      split
      next hn =>
        simp only [hmax2]
        by_cases he : ex = 2 ^ f.ew - 1
        · have := (hfin he).2
          rw [pow_succ]
          omega
        · omega
      next hn =>
        simp only [hmax2]
        have he : ex ≠ 2 ^ f.ew - 1 := fun he => (hfin he).1 (by simpa using hn)
        rw [pow_succ]
        omega
    simp only [Fmt.deliver, round_exact rm sat neg (show 2 ^ f.mw + man < 2 ^ (f.mw + 1) by rw [pow_succ]; omega)
      (by omega) (.inl (by omega)) hw, if_neg (show ¬2 ^ f.mw + man < 2 ^ f.mw by omega)]
    have hexp : ((ex : Int) - f.bias - f.mw + f.bias + f.mw).toNat = ex := by omega
    rw [hexp, Nat.add_sub_cancel_left, hbits]
    rfl

theorem representableUnchanged_holds : Claims.RepresentableUnchanged := by
  intro f hf rm sat b x hb hx
  have hew : ∀ f ∈ formats, 2 ≤ f.ew := by decide
  exact deliver_decode (hew f hf) rm sat hb hx

/-- Settles O23: sums and products of finite numbers are sums and products of rationals; a number of a layout is rounded at its own last
bit; and each integer type holds the integers between its bounds. -/
theorem exactArithmetic : Obligations.ExactArithmetic :=
  ⟨exactArithmetic_holds, representableUnchanged_holds, exactKStep_holds, integerSaturation_holds⟩

end Sys2Proof.Machine
end

section
/-! The units of the acting core at work: its planes and its accumulators (R185 to R191). -/

-- One declaration after another: checked side by side, these take more threads than the memory of the check holds.
set_option Elab.async false

namespace Sys2Proof.Machine

open Sys2Proof.Claims

variable {s t u : State} {a : Num3} {w : Num2}

/-! ## What an instruction of the core's units keeps -/

/-- An instruction of the core's own units under way, from the state in which it was fetched: the other cores and slots are as they were, and
in its slot the registers, the predicates and the pc. -/
structure UnitWork (s t : State) : Prop where
  cores : OtherCoresSame s t
  slots : ∀ n, n ≠ s.cur.slot → t.myCore.slot n = s.myCore.slot n
  regs : t.me.s = s.me.s
  preds : t.me.p = s.me.p
  pc : t.me.pc = s.me.pc
  stopReq : t.me.stopReq = s.me.stopReq

theorem UnitWork.cur_eq (h : UnitWork s t) : t.cur = s.cur := h.cores.cur_eq

theorem UnitWork.issue (s : State) : UnitWork s s.issue :=
  ⟨(State.issue_frame s).1, (State.issue_frame s).2.1.2, State.issue_s s, State.issue_p s, State.issue_pc s, by rw [(State.issue_frame s).2.2]⟩

theorem UnitWork.modMe (h : UnitWork s t) {f : Slot → Slot}
    (hf : (f t.me).s = t.me.s ∧ (f t.me).p = t.me.p ∧ (f t.me).pc = t.me.pc ∧ (f t.me).stopReq = t.me.stopReq) : UnitWork s (t.modMe f) := by
  obtain ⟨hs, hp, hpc, hst⟩ := hf
  refine ⟨h.cores.modMe f, fun n hn => ?_, ?_, ?_, ?_, ?_⟩
  · rw [State.modMe_myCore, Core.setSlot_slot_of_ne _ _ (by rw [h.cur_eq]; exact Ne.symm hn)]
    exact h.slots n hn
  all_goals rw [State.modMe_me]
  · exact hs.trans h.regs
  · exact hp.trans h.preds
  · exact hpc.trans h.pc
  · exact hst.trans h.stopReq

theorem State.modMyCore_me_of_slots {f : Core → Core} (hf : (f s.myCore).slots = s.myCore.slots) : (s.modMyCore f).me = s.me := by
  rw [State.modMyCore_me, Core.slot, hf, State.me_eq, Core.slot]

theorem UnitWork.modMyCore (h : UnitWork s t) {f : Core → Core} (hf : (f t.myCore).slots = t.myCore.slots) : UnitWork s (t.modMyCore f) := by
  have hme := State.modMyCore_me_of_slots hf
  refine ⟨h.cores.modMyCore f, fun n hn => ?_, by rw [hme, h.regs], by rw [hme, h.preds], by rw [hme, h.pc], by rw [hme, h.stopReq]⟩
  rw [State.modMyCore_myCore, Core.slot, hf]
  exact h.slots n hn

theorem State.finish_me (t : State) : t.finish.me = t.me.after t.behind .wait .complete := State.modMe_me ..

theorem UnitWork.finish (h : UnitWork s t) : OnlyCore s t.finish := by
  have hme := t.finish_me
  have hp : t.behind = s.behind := by rw [State.behind, h.pc, h.cur_eq, State.behind]
  refine ⟨h.cores.modMe fun sl => sl.after t.behind .wait .complete, fun n hn => ?_, by rw [hme]; exact h.regs, by rw [hme]; exact h.preds,
    by rw [hme]; exact hp, by rw [hme]; rfl, by rw [hme]; rfl⟩
  have hcore : t.finish.myCore = t.myCore.setSlot t.cur.slot (t.me.after t.behind .wait .complete) := State.modMe_myCore ..
  rw [hcore, Core.setSlot_slot_of_ne _ _ (by rw [h.cur_eq]; exact Ne.symm hn)]
  exact h.slots n hn

theorem run_done {m : M Ctl} (h : m s.issue = .ok .done t) : run m s = .next t.finish := run_of_ok h

/-! ## Accumulators as parts of the state -/

/-- One accumulator of the acting core replaced. -/
def State.modAcc (s : State) (a : Num3) (f : Acc → Acc) : State :=
  s.modMyCore fun k => { k with accs := k.accs.set a.toNat (f (k.accs[a.toNat]'(a.isLt))) a.isLt }

@[simp] theorem modAcc_apply (a : Num3) (f : Acc → Acc) (s : State) : modAcc a f s = .ok () (s.modAcc a f) := rfl
@[simp] theorem getAcc_apply (a : Num3) (s : State) : getAcc a s = .ok (Claims.accOf s a) s := rfl

@[simp] theorem accOf_modAcc (s : State) (a : Num3) (f : Acc → Acc) : Claims.accOf (s.modAcc a f) a = f (Claims.accOf s a) := by
  simp [Claims.accOf, State.modAcc]

theorem accOf_modAcc_of_ne (s : State) {x : Num3} (f : Acc → Acc) (h : x ≠ a) : Claims.accOf (s.modAcc a f) x = Claims.accOf s x := by
  have : a.toNat ≠ x.toNat := fun e => h (BitVec.eq_of_toNat_eq e.symm)
  simp [Claims.accOf, State.modAcc, this]

theorem accOf_modMyCore {f : Core → Core} (hf : (f s.myCore).accs = s.myCore.accs) (x : Num3) : Claims.accOf (s.modMyCore f) x = Claims.accOf s x := by
  simp only [Claims.accOf, State.modMyCore_myCore, hf]

@[simp] theorem accOf_modMe (s : State) (f : Slot → Slot) (x : Num3) : Claims.accOf (s.modMe f) x = Claims.accOf s x := by
  simp only [Claims.accOf, State.modMe_myCore, Core.setSlot_accs]

@[simp] theorem accOf_finish (s : State) (x : Num3) : Claims.accOf s.finish x = Claims.accOf s x := accOf_modMe s _ x

@[simp] theorem accOf_issue (s : State) (x : Num3) : Claims.accOf s.issue x = Claims.accOf s x := by
  simp only [Claims.accOf]
  rw [(State.issue_frame s).2.1.1]

@[simp] theorem State.modAcc_me (s : State) (a : Num3) (f : Acc → Acc) : (s.modAcc a f).me = s.me := State.modMyCore_me_of_slots rfl
@[simp] theorem State.modAcc_cur (s : State) (a : Num3) (f : Acc → Acc) : (s.modAcc a f).cur = s.cur := rfl

theorem UnitWork.modAcc (h : UnitWork s t) (a : Num3) (f : Acc → Acc) : UnitWork s (t.modAcc a f) := UnitWork.modMyCore h rfl

/-! ## Locks (R191) -/

/-- An accumulator whose lock a slot has taken. -/
def Acc.lockedBy (n : Nat) (x : Acc) : Acc := { x with lock := some n, queue := x.queue.filter (· ≠ n) }

/-- The state in which the slot holds the lock of an accumulator. -/
def State.locked (s : State) (a : Num3) : State := if (Claims.accOf s a).lock = some s.cur.slot then s else s.modAcc a (Acc.lockedBy s.cur.slot)

theorem lockAcc_ok (h : lockFree s a) : lockAcc a s = .ok () (s.locked a) := by
  have hget : (Claims.accOf s a).lock = some s.cur.slot ∨ (Claims.accOf s a).lock ≠ some s.cur.slot ∧
      ((Claims.accOf s a).lock.isNone &&
        (decide ((Claims.accOf s a).queue.head? = none) || decide ((Claims.accOf s a).queue.head? = some s.cur.slot))) = true := by
    rcases h with h | ⟨h, hq⟩
    · exact .inl h
    · refine .inr ⟨by simp [h], ?_⟩
      rcases hq with hq | hq <;> simp [h, hq]
  unfold lockAcc
  simp only [M.bind_apply, M.get_apply, getAcc_apply, M.ite_apply, M.pure_apply, State.locked]
  rcases hget with h1 | ⟨h1, h2⟩
  · rw [if_pos h1, if_pos h1]
  · rw [if_neg h1, if_neg h1, if_pos h2]
    rfl

theorem lockFree_issue (h : lockFree s a) : lockFree s.issue a := by simpa [lockFree] using h

@[simp] theorem State.locked_me (s : State) (a : Num3) : (s.locked a).me = s.me := by
  unfold State.locked
  split
  · rfl
  · exact State.modAcc_me ..

@[simp] theorem State.locked_cur (s : State) (a : Num3) : (s.locked a).cur = s.cur := by
  unfold State.locked
  split <;> rfl

theorem UnitWork.locked (h : UnitWork s t) (a : Num3) : UnitWork s (t.locked a) := by
  unfold State.locked
  split
  · exact h
  · exact h.modAcc ..

/-- A lock changes nothing else of an accumulator. -/
theorem accOf_locked (s : State) (a x : Num3) : ∃ l q, Claims.accOf (s.locked a) x = { Claims.accOf s x with lock := l, queue := q } := by
  unfold State.locked
  split
  · exact ⟨_, _, rfl⟩
  · by_cases h : x = a
    · subst h
      exact ⟨_, _, accOf_modAcc ..⟩
    · exact ⟨_, _, accOf_modAcc_of_ne _ _ h⟩

theorem accOf_locked_of_ne (s : State) {x : Num3} (h : x ≠ a) : Claims.accOf (s.locked a) x = Claims.accOf s x := by
  unfold State.locked
  split
  · rfl
  · exact accOf_modAcc_of_ne _ _ h

@[simp] theorem accOf_locked_rows (s : State) (a x : Num3) : (Claims.accOf (s.locked a) x).rows = (Claims.accOf s x).rows := by
  obtain ⟨l, q, h⟩ := accOf_locked s a x
  rw [h]

@[simp] theorem accOf_locked_type (s : State) (a x : Num3) : (Claims.accOf (s.locked a) x).type = (Claims.accOf s x).type := by
  obtain ⟨l, q, h⟩ := accOf_locked s a x
  rw [h]

@[simp] theorem accOf_locked_claimed (s : State) (a x : Num3) : (Claims.accOf (s.locked a) x).claimed = (Claims.accOf s x).claimed := by
  obtain ⟨l, q, h⟩ := accOf_locked s a x
  rw [h]

/-! ## Claims (R186, R187) -/

theorem needAcc_ok (h : s.me.accown.getLsbD a.toNat = true) : needAcc a s = .ok () s := by simp [needAcc, h]

theorem needPlane_ok (h : s.me.plown.getLsbD w.toNat = true) : needPlane w s = .ok () s := by simp [needPlane, h]

theorem needAcc_trap (h : s.me.accown.getLsbD a.toNat = false) :
    needAcc a s = .error (.trap ⟨Cause.accOwn, w64 a.toNat, 0, tfmtNone⟩) s := by simp [needAcc, h]

theorem needPlane_trap (h : s.me.plown.getLsbD w.toNat = false) :
    needPlane w s = .error (.trap ⟨Cause.accOwn, w64 (0x10 + w.toNat), 0, tfmtNone⟩) s := by simp [needPlane, h]

@[simp] theorem State.issue_accown (s : State) : s.issue.me.accown = s.me.accown := by rw [(State.issue_frame s).2.2]
@[simp] theorem State.issue_plown (s : State) : s.issue.me.plown = s.me.plown := by rw [(State.issue_frame s).2.2]
@[simp] theorem State.issue_claims (s : State) : s.issue.myCore.claims = s.myCore.claims := by rw [(State.issue_frame s).2.1.1]

/-- The array awake (R309). -/
def State.arrayAwake (s : State) : State := s.modMyCore fun k => { k with gated := false, arrayWake := if k.gated then some s.cycle else k.arrayWake }

@[simp] theorem wakeArray_apply (s : State) : wakeArray s = .ok () s.arrayAwake := rfl

/-- A claim made: it waits no longer. -/
def State.claimMade (s : State) (plane : Bool) (n : Nat) : State :=
  s.modMyCore fun k => { k with claims := k.claims.filter fun q => !decide (q = (s.cur.slot, plane, n)) }

theorem awaitClaim_ok {plane : Bool} {n : Nat} (h : ∀ q ∈ s.myCore.claims, q.2 ≠ (plane, n)) :
    awaitClaim plane n false true s = .ok () (s.claimMade plane n) := by
  have hfind : s.myCore.claims.find? (fun q => decide (q.2 = (plane, n))) = none := by
    rw [List.find?_eq_none]
    exact fun q hq => by simpa using h q hq
  simp only [awaitClaim, M.bind_apply, M.get_apply, Bool.false_eq_true, if_false, getCore_apply, hfind]
  rfl

/-! ## Claiming, zeroing and releasing accumulators -/

theorem accclm_ok {ty : BitVec 2} (hfree : (Claims.accOf s a).claimed = false) (hclaims : ∀ q ∈ s.myCore.claims, q.2 ≠ (false, a.toNat))
    (hlock : lockFree s a) : accclm a ty s.issue = .ok .done
      ((((s.issue.arrayAwake.claimMade false a.toNat).locked a).modAcc a fun y =>
        { y.zero with type := ty, claimed := true, owner := s.cur.slot }).modMe
        fun sl => { sl with accown := sl.accown ||| BitVec.twoPow 8 a.toNat }) := by
  have hl : lockFree (s.issue.arrayAwake.claimMade false a.toNat) a := by
    have hacc : Claims.accOf (s.issue.arrayAwake.claimMade false a.toNat) a = Claims.accOf s a := by
      rw [State.claimMade, accOf_modMyCore rfl, State.arrayAwake, accOf_modMyCore rfl, accOf_issue]
    have hcur : (s.issue.arrayAwake.claimMade false a.toNat).cur = s.cur := s.issue_cur
    rwa [lockFree, hacc, hcur]
  have hc : ∀ q ∈ s.issue.arrayAwake.myCore.claims, q.2 ≠ (false, a.toNat) := by
    have : s.issue.arrayAwake.myCore.claims = s.myCore.claims := by rw [State.arrayAwake, State.modMyCore_myCore]; exact s.issue_claims
    rwa [this]
  unfold accclm
  simp only [M.bind_apply, M.get_apply, getAcc_apply, accOf_issue, hfree, Bool.false_and, Bool.not_false, wakeArray_apply, awaitClaim_ok hc,
    lockAcc_ok hl, modAcc_apply, modMe_apply, M.pure_apply, State.issue_cur]

theorem exec_accclm (a : Num3) (ty : BitVec 2) : exec (.accclm a ty) = run (accclm a ty) := rfl

theorem exec_accz (a : Num3) : exec (.accz a) = run (needAcc a >>= fun _ => lockAcc a >>= fun _ => modAcc a Acc.zero >>= fun _ => pure .done) := rfl

theorem run_accz (hown : s.me.accown.getLsbD a.toNat = true) (hlock : lockFree s a) :
    exec (.accz a) s = .next ((s.issue.locked a).modAcc a Acc.zero).finish := by
  rw [exec_accz]
  refine run_done ?_
  simp only [M.bind_apply, needAcc_ok (s := s.issue) (a := a) (by simpa using hown), lockAcc_ok (lockFree_issue hlock), modAcc_apply, M.pure_apply]

theorem exec_accrel (a : Num3) : exec (.accrel a) = run (needAcc a >>= fun _ => lockAcc a >>= fun _ => getCore >>= fun old =>
    modAcc a (fun y => { y.zero with claimed := false, owner := 0 }) >>= fun _ => unitsGiven old >>= fun _ =>
    modMe (fun sl => { sl with accown := sl.accown &&& ~~~(BitVec.twoPow 8 a.toNat) }) >>= fun _ =>
    (modify fun s => s.modMyCore fun k => { k with lastRow := s.cycle }) >>= fun _ => pure .done) := rfl

/-- A unit given up: what waited for it may go on (R66). -/
def State.unitsGiven (s : State) (old : Core) : State := s.modMyCore (·.unblock old s.cycle)

theorem UnitWork.unitsGiven (h : UnitWork s t) (old : Core) : UnitWork s (t.unitsGiven old) := h.modMyCore rfl

@[simp] theorem unitsGiven_apply (old : Core) (s : State) : unitsGiven old s = .ok () (s.unitsGiven old) := rfl

theorem run_accrel (hown : s.me.accown.getLsbD a.toNat = true) (hlock : lockFree s a) :
    ∃ old t, t = ((((s.issue.locked a).modAcc a fun y => { y.zero with claimed := false, owner := 0 }).unitsGiven old).modMe
        fun sl => { sl with accown := sl.accown &&& ~~~(BitVec.twoPow 8 a.toNat) }) ∧
      exec (.accrel a) s = .next (t.modMyCore fun k => { k with lastRow := t.cycle }).finish := by
  refine ⟨(s.issue.locked a).myCore, _, rfl, ?_⟩
  rw [exec_accrel]
  refine run_done ?_
  simp only [M.bind_apply, needAcc_ok (s := s.issue) (a := a) (by simpa using hown), lockAcc_ok (lockFree_issue hlock), getCore_apply, modAcc_apply,
    unitsGiven_apply, modMe_apply, M.modify_apply, M.pure_apply]

end Sys2Proof.Machine
end

section
/-! Accumulators read and written (R189 to R191). -/

-- One declaration after another: checked side by side, these take more threads than the memory of the check holds.
set_option Elab.async false

namespace Sys2Proof.Machine

open Sys2Proof.Claims

variable {s t u : State} {a td rb : Num3}

/-! ## Cells -/

theorem cellAt_lt (row : BitVec 4096) (n : Nat) : cellAt row n < 2 ^ 32 := Nat.mod_lt _ (Nat.two_pow_pos _)

/-- A cell of a row in which some cells have been replaced. -/
theorem cellAt_patchCells (row : BitVec 4096) (f : Nat → Option Nat) {n : Nat} (h : n < 128) :
    cellAt (patchCells row f) n = (f n).getD (cellAt row n) % 2 ^ 32 := by
  have hp := packElems_elem 4 ((List.range 128).map fun n => (f n).getD (cellAt row n)) n
  rw [patchCells, cellAt, BitVec.toNat_ofNat, mod_two_pow_field _ (by omega)]
  simpa [h] using hp

/-! ## ACCRD -/

/-- Row r of ACCRD. -/
def accrdRow (ty : Nat) (a td rb : Num3) (r : Nat) : M (Option TrapInfo) := do
  let x ← getAcc a
  let sl ← getMe
  setTile td ((sl.tile td).setRow r (rowOf (tySize ty) ((List.range 16).map fun j => cellAt (vat 0 x.rows r) (16 * rb.toNat + j))))
  return none

/-- ACCRD with the rows up to r read. -/
structure Reading (s : State) (a td rb : Num3) (ty r : Nat) (t : State) : Prop where
  work : UnitWork s t
  acc : (Claims.accOf t a).rows = (Claims.accOf s a).rows
  shape : (t.me.tile td).shape = mkShape ty 32 16 32 16
  tiles : ∀ i, i ≠ td → t.me.tile i = s.me.tile i
  rows : ∀ i, i < r → (t.me.tile td).row i =
    rowOf (tySize ty) ((List.range 16).map fun j => cellAt (vat 0 (Claims.accOf s a).rows i) (16 * rb.toNat + j))

theorem Reading.row {ty r : Nat} (h : Reading s a td rb ty r t) (hr : r < 32) :
    ∃ v, accrdRow ty a td rb r t = .ok none v ∧ Reading s a td rb ty (r + 1) v := by
  refine ⟨_, rfl, h.work.modMe ⟨rfl, rfl, rfl, rfl⟩, (congrArg Acc.rows (accOf_modMe ..)).trans h.acc, ?_, fun i hi => ?_, fun i hi => ?_⟩
  all_goals rw [State.modMe_me]
  · rw [Slot.setTile_tile, Tile.setRow_shape, h.shape]
  · rw [Slot.setTile_tile_of_ne _ _ hi, h.tiles i hi]
  · rw [Slot.setTile_tile]
    by_cases hir : r = i
    · subst hir
      rw [Tile.setRow_row _ _ hr, ← h.acc]
      rfl
    · rw [Tile.setRow_row_of_ne _ _ hir, h.rows i (by omega)]

theorem readsPast_ok (a : Num3) (s : State) : ∃ b, readsPast a s = .ok b s := ⟨_, rfl⟩

theorem exec_accrd (a td rb : Num3) : exec (.accrd a td rb) = run (accrd a td rb) := rfl

theorem resumesAt_of_me {key : Nat} (h : t.me.restart = s.me.restart) : resumesAt t key = resumesAt s key := by rw [resumesAt, resumesAt, h]

/-- What ACCRD does once it may read (R189). -/
def accrdRest (x : Acc) (start : Option Nat) (a td rb : Num3) : M Ctl := do
  if !x.claimed then atRow (tfmtWord (accTy x) (accTy x) 15 15) 0 (trapAt Cause.accOwn (w64 a.toNat))
  if start.isNone then beginResult td (mkShape (accTy x) 32 16 32 16)
  forRows (restartKey 3 2 0) (start.getD 0) 32 (accrdRow (accTy x) a td rb)
  return .done

theorem run_accrd (hend : ToTheEnd s) (hres : resumesAt s (restartKey 3 2 0) = none) (hclaimed : (Claims.accOf s a).claimed = true)
    (hlock : lockFree s a) : ∃ v, exec (.accrd a td rb) s = .next v.finish ∧ Reading s a td rb (accTy (Claims.accOf s a)) 32 v := by
  obtain ⟨b, hb⟩ := readsPast_ok a s.issue
  obtain ⟨u, hu, hwork, hme, hacc⟩ : ∃ u, (b = true ∧ u = s.issue ∨ b = false ∧ lockAcc a s.issue = .ok () u) ∧ UnitWork s u ∧ u.me = s.issue.me ∧
      ((Claims.accOf u a).rows = (Claims.accOf s a).rows ∧ (Claims.accOf u a).type = (Claims.accOf s a).type ∧
        (Claims.accOf u a).claimed = (Claims.accOf s a).claimed) := by
    cases b with
    | true => exact ⟨_, .inl ⟨rfl, rfl⟩, .issue s, rfl, by simp⟩
    | false => exact ⟨_, .inr ⟨rfl, lockAcc_ok (lockFree_issue hlock)⟩, (UnitWork.issue s).locked a, by simp, by simp⟩
  obtain ⟨hrows, htype, hcl⟩ := hacc
  have hty : accTy (Claims.accOf u a) = accTy (Claims.accOf s a) := by rw [accTy, htype, accTy]
  have hresu : resumesAt u (restartKey 3 2 0) = none := by
    rw [resumesAt_of_me (s := s.issue) (by rw [hme]), resumesAt_issue, hres]
  have hstart : Reading s a td rb (accTy (Claims.accOf s a)) 0
      (cleared (u.modMe fun sl => sl.setTile td ((sl.tile td).reshape (mkShape (accTy (Claims.accOf s a)) 32 16 32 16)).unscaled)) := by
    refine ⟨(hwork.modMe ⟨rfl, rfl, rfl, rfl⟩).modMe ⟨rfl, rfl, rfl, rfl⟩, ?_, ?_, fun i hi => ?_, fun i hi => absurd hi (Nat.not_lt_zero i)⟩
    · rw [cleared, accOf_modMe, accOf_modMe, hrows]
    · rw [cleared, State.modMe_me, State.modMe_me]
      change ((u.me.setTile td _).tile td).shape = _
      rw [Slot.setTile_tile, Tile.unscaled_shape, Tile.reshape_shape]
    · rw [cleared, State.modMe_me, State.modMe_me]
      exact (Slot.setTile_tile_of_ne _ _ hi).trans (by rw [hme, State.issue_tile])
  obtain ⟨v, hv, hread⟩ := rowLoop_ok (key := restartKey 3 2 0) (Nat.zero_le 32) (body := accrdRow (accTy (Claims.accOf s a)) a td rb)
    (I := Reading s a td rb (accTy (Claims.accOf s a))) (fun r t h => by rw [h.work.stopReq]; exact hend.2) (fun r t _ hr h => h.row hr) hstart
  refine ⟨v, ?_, hread⟩
  rw [exec_accrd]
  refine run_done ?_
  have hcur : (u.modMe fun sl => sl.setTile td ((sl.tile td).reshape (mkShape (accTy (Claims.accOf s a)) 32 16 32 16)).unscaled).cur.rows = none := by
    rw [State.modMe_cur, hwork.cur_eq]
    exact hend.1
  have hloop : forRows (restartKey 3 2 0) 0 32 (accrdRow (accTy (Claims.accOf s a)) a td rb)
      (u.modMe fun sl => sl.setTile td ((sl.tile td).reshape (mkShape (accTy (Claims.accOf s a)) 32 16 32 16)).unscaled) = .ok () v := by
    rw [forRows_eq, hcur]
    exact hv
  have hrest : (getAcc a >>= fun x => resumeRow (restartKey 3 2 0) >>= fun start =>
      accrdRest x start a td rb) u = .ok .done v := by
    simp only [M.bind_apply, getAcc_apply, resumeRow_apply, hresu, accrdRest, hcl, hclaimed, hty, Bool.not_true, Bool.false_eq_true, if_false,
      Option.isNone_none, if_true, beginResult_apply, Option.getD_none, hloop, M.pure_apply]
  unfold accrd
  rw [M.bind_apply, hb]
  rcases hu with ⟨rfl, rfl⟩ | ⟨rfl, hu⟩
  · exact hrest
  · change (lockAcc a >>= fun _ => _) s.issue = _
    rw [M.bind_apply, hu]
    exact hrest

/-! ## ACCWR -/

/-- A row of an accumulator under a row of a tile. -/
def writtenRow (tl : Tile) (rb : Num3) (row : BitVec 4096) (r : Nat) : BitVec 4096 :=
  patchCells row fun n => if 16 * rb.toNat ≤ n && n < 16 * rb.toNat + shVcols tl.shape then some (tl.elem r (n - 16 * rb.toNat)) else none

theorem tyBits_le (ty v : Nat) : tyBits ty v ≤ v := by
  unfold tyBits
  split
  · exact Nat.mod_le ..
  · exact le_rfl

theorem Tile.elem_lt (t : Tile) (i j : Nat) : t.elem i j < 2 ^ 32 := by
  refine (tyBits_le _ _).trans_lt ((Nat.mod_lt _ (Nat.two_pow_pos _)).trans_le (Nat.pow_le_pow_right (by decide) ?_))
  rcases tySize_cases (shType t.shape) with h | h | h <;> omega

theorem cellAt_writtenRow (tl : Tile) (rb : Num3) (row : BitVec 4096) (r : Nat) {n : Nat} (h : n < 128) :
    cellAt (writtenRow tl rb row r) n =
      if 16 * rb.toNat ≤ n ∧ n < 16 * rb.toNat + shVcols tl.shape then tl.elem r (n - 16 * rb.toNat) else cellAt row n := by
  rw [writtenRow, cellAt_patchCells _ _ h]
  simp only [Bool.and_eq_true, decide_eq_true_eq]
  split
  · exact Nat.mod_eq_of_lt (Tile.elem_lt ..)
  · exact Nat.mod_eq_of_lt (cellAt_lt ..)

/-- Row r of ACCWR. -/
def accwrRow (a td rb : Num3) (sh : W64) (r : Nat) : M (Option TrapInfo) := do
  let sl ← getMe
  modAcc a fun x => { x with rows := x.rows.setIfInBounds r (patchCells (vat 0 x.rows r) fun n =>
    if 16 * rb.toNat ≤ n && n < 16 * rb.toNat + shVcols sh then some ((sl.tile td).elem r (n - 16 * rb.toNat)) else none) }
  return none

/-- ACCWR with the rows up to r written. -/
structure Writing (s : State) (a td rb : Num3) (r : Nat) (t : State) : Prop where
  work : UnitWork s t
  tiles : t.me.tiles = s.me.tiles
  accs : OtherAccs s t a
  rows : ∀ i, vat 0 (Claims.accOf t a).rows i =
    if i < r then writtenRow (s.me.tile td) rb (vat 0 (Claims.accOf s a).rows i) i else vat 0 (Claims.accOf s a).rows i

theorem vat_setIfInBounds {α : Type} {n : Nat} (d : α) (v : Vector α n) {i : Nat} (x : α) (h : i < n) : vat d (v.setIfInBounds i x) i = x := by
  simp [vat, h]

theorem vat_setIfInBounds_of_ne {α : Type} {n : Nat} (d : α) (v : Vector α n) {i j : Nat} (x : α) (h : i ≠ j) :
    vat d (v.setIfInBounds i x) j = vat d v j := by
  simp [vat, h]

theorem Writing.row {r : Nat} (h : Writing s a td rb r t) (hr : r < 32) :
    ∃ v, accwrRow a td rb (s.me.tile td).shape r t = .ok none v ∧ Writing s a td rb (r + 1) v := by
  have htile : t.me.tile td = s.me.tile td := by rw [Slot.tile, Slot.tile]; simp only [h.tiles]
  refine ⟨t.modAcc a fun x => { x with rows := x.rows.setIfInBounds r (writtenRow (t.me.tile td) rb (vat 0 x.rows r) r) }, ?_,
    h.work.modAcc .., (congrArg Slot.tiles (State.modAcc_me ..)).trans h.tiles, fun x hx => (accOf_modAcc_of_ne _ _ hx).trans (h.accs x hx),
    fun i => ?_⟩
  · rw [← htile]
    rfl
  · rw [accOf_modAcc]
    by_cases hir : r = i
    · subst hir
      rw [vat_setIfInBounds _ _ _ hr, h.rows, if_neg (by omega), if_pos (by omega), htile]
    · rw [vat_setIfInBounds_of_ne _ _ _ hir, h.rows]
      simp only [show i < r + 1 ↔ i < r by omega]

theorem exec_accwr (a td rb : Num3) : exec (.accwr a td rb) = run (accwr a td rb) := rfl

theorem atRow_ok {α : Type} {fmt : W64} {row : Nat} {m : M α} {x : α} (h : m s = .ok x t) : atRow fmt row m s = .ok x t := by
  rw [atRow, h]

/-- What ACCWR does once it holds the lock (R190). -/
def accwrRest (sh : W64) (ty : Nat) (start : Option Nat) (a td rb : Num3) : M Ctl := do
  if start.isNone && (sh = 0 || shType sh ≠ ty || shCols sh ≠ 16) then shapeTrap sh (tfmtWord ty (tyCode sh) 15 15)
  forRows (restartKey 3 2 1) (start.getD 0) (shVrows sh) (accwrRow a td rb sh)
  return .done

theorem run_accwr (hend : ToTheEnd s) (hres : resumesAt s (restartKey 3 2 1) = none) (hown : s.me.accown.getLsbD a.toNat = true)
    (hlock : lockFree s a) (h0 : (s.me.tile td).shape ≠ 0) (hty : shType (s.me.tile td).shape = accTy (Claims.accOf s a))
    (hc : shCols (s.me.tile td).shape = 16) (hvr : shVrows (s.me.tile td).shape ≤ 32) :
    ∃ v, exec (.accwr a td rb) s = .next v.finish ∧ Writing s a td rb (shVrows (s.me.tile td).shape) v := by
  have hstart : Writing s a td rb 0 (cleared (s.issue.locked a)) := by
    refine ⟨((UnitWork.issue s).locked a).modMe ⟨rfl, rfl, rfl, rfl⟩, ?_, fun x hx => ?_, fun i => ?_⟩
    · rw [cleared, State.modMe_me, State.locked_me]
      exact s.issue_tiles
    · rw [cleared, accOf_modMe, accOf_locked_of_ne _ hx, accOf_issue]
    · rw [cleared, accOf_modMe, accOf_locked_rows, accOf_issue, if_neg (Nat.not_lt_zero i)]
  obtain ⟨v, hv, hw⟩ := rowLoop_ok (key := restartKey 3 2 1) (Nat.zero_le (shVrows (s.me.tile td).shape))
    (body := accwrRow a td rb (s.me.tile td).shape)
    (I := Writing s a td rb) (fun r t h => by rw [h.work.stopReq]; exact hend.2)
    (fun r t _ hr h => h.row (by omega)) hstart
  refine ⟨v, ?_, hw⟩
  rw [exec_accwr]
  refine run_done ?_
  have hres' : resumesAt (s.issue.locked a) (restartKey 3 2 1) = none := by
    rw [resumesAt_of_me (s := s.issue) (by rw [State.locked_me]), resumesAt_issue, hres]
  have hloop : forRows (restartKey 3 2 1) 0 (shVrows (s.me.tile td).shape) (accwrRow a td rb (s.me.tile td).shape) (s.issue.locked a) = .ok () v := by
    rw [forRows_eq, State.locked_cur, State.issue_cur, hend.1]
    exact hv
  have hcheck : ((s.me.tile td).shape = 0 || shType (s.me.tile td).shape ≠ accTy (Claims.accOf s a) || shCols (s.me.tile td).shape ≠ 16) = false := by
    have h0' : ¬(s.me.tile td).shape = 0#64 := h0
    simp [h0', hty, hc]
  have hrest : accwrRest (s.me.tile td).shape (accTy (Claims.accOf s a)) none a td rb (s.issue.locked a) = .ok .done v := by
    simp only [accwrRest, hcheck, Bool.and_false, Bool.false_eq_true, if_false, M.bind_apply, Option.getD_none, hloop, M.pure_apply]
  unfold accwr
  rw [M.bind_apply, getMe_apply]
  simp only [M.bind_apply, getAcc_apply, accOf_issue, atRow_ok (needAcc_ok (s := s.issue) (a := a) (by simpa using hown)),
    lockAcc_ok (lockFree_issue hlock), resumeRow_apply, hres', State.issue_tile]
  exact hrest

/-! ## The statement -/

theorem Tile.elem_of_row {tl : Tile} {ty r j : Nat} {g : Nat → Nat} (hty : ty = 5 ∨ ty = 7 ∨ ty = 8) (hsh : tl.shape = mkShape ty 32 16 32 16)
    (hrow : tl.row r = rowOf (tySize ty) ((List.range 16).map g)) (hj : j < 16) : tl.elem r j = g j % 2 ^ (8 * tySize ty) := by
  have htype : shType tl.shape = ty := by
    rw [hsh]
    exact mkShape_type (by omega) (by decide) (by decide) (by decide) (by decide)
  have hfit : (j + 1) * tySize ty ≤ 64 := by
    rcases tySize_cases ty with h | h | h <;> rw [h] <;> omega
  have hbits (v : Nat) : tyBits ty v = v := by
    rw [tyBits, if_neg (by omega)]
  rw [Tile.elem, htype, hrow, elemAt_rowOf _ hfit, hbits]
  simp [hj]

theorem accOf_unitsGiven (s : State) (old : Core) (x : Num3) : Claims.accOf (s.unitsGiven old) x = Claims.accOf s x := accOf_modMyCore rfl x

/-- A claim made wakes the arrays and takes the claim's place, and is the work of the units. -/
theorem UnitWork.claimMade (s : State) (plane : Bool) (n : Nat) : UnitWork s (s.issue.arrayAwake.claimMade plane n) := by
  have h : UnitWork s s.issue.arrayAwake := (UnitWork.issue s).modMyCore rfl
  exact h.modMyCore rfl

theorem accTy_cases (x : Acc) : accTy x = 5 ∨ accTy x = 7 ∨ accTy x = 8 := by
  unfold accTy
  split <;> simp

theorem Acc.zero_rows (x : Acc) : x.zero.rows = Vector.replicate 32 0 := rfl

/-- Settles O27: a lock changes nothing of an accumulator but itself and its queue; rows are read and written one by one. -/
theorem accumulators : Obligations.Accumulators := by
  refine ⟨fun s a ty hfree hclaims hlock => ?_, fun s a hown hlock => ⟨?_, ?_⟩, fun s a td rb ty hend hres hcl hlock hty => ?_,
    fun s a td rb sh hend hres hown hlock hsh h0 hty hc hvr hvc => ?_⟩
  · have hw : UnitWork s ((s.issue.arrayAwake.claimMade false a.toNat).locked a) :=
      (UnitWork.claimMade s false a.toNat).locked a
    have hacc (x : Num3) : Claims.accOf (s.issue.arrayAwake.claimMade false a.toNat) x = Claims.accOf s x := by
      rw [State.claimMade, accOf_modMyCore rfl, State.arrayAwake, accOf_modMyCore rfl, accOf_issue]
    have hme : ((s.issue.arrayAwake.claimMade false a.toNat).locked a).me = s.issue.me := by
      rw [State.locked_me, State.claimMade, State.modMyCore_me_of_slots rfl, State.arrayAwake, State.modMyCore_me_of_slots rfl]
    refine ⟨_, ?_, ((hw.modAcc a fun y => { y.zero with type := ty, claimed := true, owner := s.cur.slot }).modMe
      (f := fun sl => { sl with accown := sl.accown ||| BitVec.twoPow 8 a.toNat }) ⟨rfl, rfl, rfl, rfl⟩).finish, fun x hx => ?_, ?_⟩
    · rw [exec_accclm]
      exact run_done (accclm_ok hfree hclaims hlock)
    · rw [accOf_finish, accOf_modMe, accOf_modAcc_of_ne _ _ hx, accOf_locked_of_ne _ hx, hacc]
    · rw [accOf_finish, accOf_modMe, accOf_modAcc]
      refine ⟨rfl, rfl, rfl, rfl, ?_⟩
      rw [State.finish_me, Slot.after_accown, State.modMe_me, State.modAcc_me, hme, State.issue_accown]
  · refine ⟨_, run_accz hown hlock, (((UnitWork.issue s).locked a).modAcc ..).finish, fun x hx => ?_, ?_, ?_, ?_⟩
    · rw [accOf_finish, accOf_modAcc_of_ne _ _ hx, accOf_locked_of_ne _ hx, accOf_issue]
    · rw [accOf_finish, accOf_modAcc, Acc.zero_rows]
    · rw [accOf_finish, accOf_modAcc]
      exact (accOf_locked_claimed ..).trans (by rw [accOf_issue])
    · rw [State.finish_me, Slot.after_accown, State.modAcc_me, State.locked_me, State.issue_accown]
  · obtain ⟨old, t, ht, hrun⟩ := run_accrel hown hlock
    have hw : UnitWork s t := by
      rw [ht]
      exact ((((UnitWork.issue s).locked a).modAcc ..).unitsGiven old).modMe ⟨rfl, rfl, rfl, rfl⟩
    have hacc (x : Num3) : Claims.accOf (t.modMyCore fun k => { k with lastRow := t.cycle }).finish x =
        Claims.accOf ((s.issue.locked a).modAcc a fun y => { y.zero with claimed := false, owner := 0 }) x := by
      rw [accOf_finish, accOf_modMyCore rfl, ht, accOf_modMe, accOf_unitsGiven]
    refine ⟨_, hrun, (UnitWork.modMyCore hw rfl).finish, fun x hx => ?_, ?_, ?_, ?_⟩
    · rw [hacc, accOf_modAcc_of_ne _ _ hx, accOf_locked_of_ne _ hx, accOf_issue]
    · rw [hacc, accOf_modAcc]
    · rw [hacc, accOf_modAcc, Acc.zero_rows]
    · rw [State.finish_me, Slot.after_accown, State.modMyCore_me_of_slots rfl, ht, State.modMe_me]
      simp
  · subst hty
    obtain ⟨v, hrun, hv⟩ := run_accrd (td := td) (rb := rb) hend hres hcl hlock
    refine ⟨_, hrun, hv.work.finish, by rw [accOf_finish, hv.acc], by rw [State.finish_tile, hv.shape], fun i hi => ?_, fun r j hr hj => ?_⟩
    · rw [State.finish_tile, hv.tiles i hi]
    · rw [State.finish_tile, Tile.elem_of_row (accTy_cases _) hv.shape (hv.rows r hr) hj]
  · subst hsh
    obtain ⟨v, hrun, hv⟩ := run_accwr (rb := rb) hend hres hown hlock h0 hty hc hvr
    refine ⟨_, hrun, hv.work.finish, fun x hx => by rw [accOf_finish, hv.accs x hx], by rw [State.finish_me, Slot.after_tiles, hv.tiles],
      fun r n hr hn => ?_⟩
    rw [accOf_finish, hv.rows]
    by_cases hrv : r < shVrows (s.me.tile td).shape
    · rw [if_pos hrv, cellAt_writtenRow _ _ _ _ hn]
      simp [hrv]
    · rw [if_neg hrv, if_neg fun h => hrv h.1]

end Sys2Proof.Machine
end

section
/-! Planes: SWAP, PLZ, PLREL and PLCLM, and the trap of a unit that the slot does not own (R185 to R187). -/

-- One declaration after another: checked side by side, these take more threads than the memory of the check holds.
set_option Elab.async false

namespace Sys2Proof.Machine

open Sys2Proof.Claims

variable {s t u : State} {a : Num3} {w : Num2}

/-! ## Planes as parts of the state -/

/-- One plane of the acting core replaced. -/
def State.modPlane (s : State) (w : Num2) (f : Plane → Plane) : State :=
  s.modMyCore fun k => { k with planes := k.planes.set w.toNat (f (k.planes[w.toNat]'(w.isLt))) w.isLt }

@[simp] theorem modPlane_apply (w : Num2) (f : Plane → Plane) (s : State) : modPlane w f s = .ok () (s.modPlane w f) := rfl
@[simp] theorem getPlane_apply (w : Num2) (s : State) : getPlane w s = .ok (Claims.planeOf s w) s := rfl

@[simp] theorem planeOf_modPlane (s : State) (w : Num2) (f : Plane → Plane) : Claims.planeOf (s.modPlane w f) w = f (Claims.planeOf s w) := by
  simp [Claims.planeOf, State.modPlane]

theorem planeOf_modPlane_of_ne (s : State) {x : Num2} (f : Plane → Plane) (h : x ≠ w) : Claims.planeOf (s.modPlane w f) x = Claims.planeOf s x := by
  have : w.toNat ≠ x.toNat := fun e => h (BitVec.eq_of_toNat_eq e.symm)
  simp [Claims.planeOf, State.modPlane, this]

theorem planeOf_modMyCore {f : Core → Core} (hf : (f s.myCore).planes = s.myCore.planes) (x : Num2) :
    Claims.planeOf (s.modMyCore f) x = Claims.planeOf s x := by
  simp only [Claims.planeOf, State.modMyCore_myCore, hf]

@[simp] theorem planeOf_modMe (s : State) (f : Slot → Slot) (x : Num2) : Claims.planeOf (s.modMe f) x = Claims.planeOf s x := by
  simp only [Claims.planeOf, State.modMe_myCore, Core.setSlot_planes]

@[simp] theorem planeOf_finish (s : State) (x : Num2) : Claims.planeOf s.finish x = Claims.planeOf s x := planeOf_modMe s _ x

@[simp] theorem planeOf_issue (s : State) (x : Num2) : Claims.planeOf s.issue x = Claims.planeOf s x := by
  simp only [Claims.planeOf]
  rw [(State.issue_frame s).2.1.1]

theorem State.modPlane_me (s : State) (w : Num2) (f : Plane → Plane) : (s.modPlane w f).me = s.me := State.modMyCore_me_of_slots rfl

theorem UnitWork.modPlane (h : UnitWork s t) (w : Num2) (f : Plane → Plane) : UnitWork s (t.modPlane w f) := UnitWork.modMyCore h rfl

theorem planeOf_unitsGiven (s : State) (old : Core) (x : Num2) : Claims.planeOf (s.unitsGiven old) x = Claims.planeOf s x :=
  planeOf_modMyCore rfl x

theorem UnitWork.modPlown (h : UnitWork s t) (f : BitVec 4 → BitVec 4) : UnitWork s (t.modMe fun sl => { sl with plown := f sl.plown }) :=
  h.modMe ⟨rfl, rfl, rfl, rfl⟩

/-! ## The instructions -/

theorem exec_swap (w : Num2) : exec (.swap w) =
    run (needPlane w >>= fun _ => modPlane w (fun p => { p with active := p.shadow, shadow := p.active }) >>= fun _ => pure .done) := rfl

theorem exec_plz (w : Num2) : exec (.plz w) = run (needPlane w >>= fun _ => modPlane w Plane.clear >>= fun _ => pure .done) := rfl

theorem exec_plrel (w : Num2) : exec (.plrel w) = run (needPlane w >>= fun _ => getCore >>= fun old =>
    modPlane w (fun p => { p.clear with claimed := false, owner := 0 }) >>= fun _ => unitsGiven old >>= fun _ =>
    modMe (fun sl => { sl with plown := sl.plown &&& ~~~(BitVec.twoPow 4 w.toNat) }) >>= fun _ => pure .done) := rfl

theorem exec_plclm (w : Num2) : exec (.plclm w) = run (plclm w) := rfl

section
variable (hown : s.me.plown.getLsbD w.toNat = true)
include hown

theorem needPlane_issue : needPlane w s.issue = .ok () s.issue := needPlane_ok (by rwa [State.issue_plown])

theorem run_swap : exec (.swap w) s = .next (s.issue.modPlane w fun p => { p with active := p.shadow, shadow := p.active }).finish := by
  rw [exec_swap]
  refine run_done ?_
  simp only [M.bind_apply, needPlane_issue hown, modPlane_apply, M.pure_apply]

theorem run_plz : exec (.plz w) s = .next (s.issue.modPlane w Plane.clear).finish := by
  rw [exec_plz]
  refine run_done ?_
  simp only [M.bind_apply, needPlane_issue hown, modPlane_apply, M.pure_apply]

theorem run_plrel : exec (.plrel w) s = .next
    (((s.issue.modPlane w fun p => { p.clear with claimed := false, owner := 0 }).unitsGiven s.issue.myCore).modMe
      fun sl => { sl with plown := sl.plown &&& ~~~(BitVec.twoPow 4 w.toNat) }).finish := by
  rw [exec_plrel]
  refine run_done ?_
  simp only [M.bind_apply, needPlane_issue hown, getCore_apply, modPlane_apply, unitsGiven_apply, modMe_apply, M.pure_apply]

end

theorem run_plclm (hfree : (Claims.planeOf s w).claimed = false) (hclaims : ∀ q ∈ s.myCore.claims, q.2 ≠ (true, w.toNat)) :
    exec (.plclm w) s = .next
      (((s.issue.arrayAwake.claimMade true w.toNat).modPlane w fun p => { p.clear with claimed := true, owner := s.cur.slot }).modMe
        fun sl => { sl with plown := sl.plown ||| BitVec.twoPow 4 w.toNat }).finish := by
  have hc : ∀ q ∈ s.issue.arrayAwake.myCore.claims, q.2 ≠ (true, w.toNat) := by
    have : s.issue.arrayAwake.myCore.claims = s.myCore.claims := by rw [State.arrayAwake, State.modMyCore_myCore]; exact s.issue_claims
    rwa [this]
  rw [exec_plclm]
  refine run_done ?_
  unfold plclm
  simp only [M.bind_apply, M.get_apply, getPlane_apply, planeOf_issue, hfree, Bool.false_and, Bool.not_false, wakeArray_apply, awaitClaim_ok hc,
    modPlane_apply, modMe_apply, M.pure_apply, State.issue_cur]

/-! ## Units that the slot does not own -/

theorem run_needs_trap {m : M Unit} {rest : M Ctl} {ti : TrapInfo} (h : m s.issue = .error (.trap ti) s.issue) :
    run (m >>= fun _ => rest) s = .next (takeTrap ti s.issue) :=
  run_of_trap (by rw [M.bind_apply, h])

theorem exec_notOwned_plane (h : s.me.plown.getLsbD w.toNat = false) {i : Instr} (hi : i ∈ [Instr.swap w, .plz w, .plrel w]) :
    exec i s = .next (takeTrap ⟨Cause.accOwn, w64 (0x10 + w.toNat), 0, 0xFFFF⟩ s.issue) := by
  have htrap := needPlane_trap (s := s.issue) (w := w) (by rwa [State.issue_plown])
  simp only [List.mem_cons, List.not_mem_nil, or_false] at hi
  rcases hi with rfl | rfl | rfl
  · rw [exec_swap]
    exact run_needs_trap htrap
  · rw [exec_plz]
    exact run_needs_trap htrap
  · rw [exec_plrel]
    exact run_needs_trap htrap

theorem exec_notOwned_acc (h : s.me.accown.getLsbD a.toNat = false) {i : Instr} (hi : i ∈ [Instr.accz a, .accrel a]) :
    exec i s = .next (takeTrap ⟨Cause.accOwn, w64 a.toNat, 0, 0xFFFF⟩ s.issue) := by
  have htrap := needAcc_trap (s := s.issue) (a := a) (by rwa [State.issue_accown])
  simp only [List.mem_cons, List.not_mem_nil, or_false] at hi
  rcases hi with rfl | rfl
  · rw [exec_accz]
    exact run_needs_trap htrap
  · rw [exec_accrel]
    exact run_needs_trap htrap

/-- Settles O28: each is one replacement of its plane; without the claim none of it comes about. -/
theorem planes : Obligations.Planes := by
  refine ⟨fun s w hown => ⟨?_, ?_, ?_⟩, fun s w hfree hclaims => ?_, fun s w h i hi => exec_notOwned_plane h hi,
    fun s a h i hi => exec_notOwned_acc h hi⟩
  · refine ⟨_, run_swap hown, ((UnitWork.issue s).modPlane ..).finish, ?_, ?_, fun x hx => ?_⟩
    · rw [planeOf_finish, planeOf_modPlane, planeOf_issue]
    · rw [planeOf_finish, planeOf_modPlane, planeOf_issue]
    · rw [planeOf_finish, planeOf_modPlane_of_ne _ _ hx, planeOf_issue]
  · refine ⟨_, run_plz hown, ((UnitWork.issue s).modPlane ..).finish, ?_, ?_, ?_, fun x hx => ?_⟩
    · rw [planeOf_finish, planeOf_modPlane, Plane.clear]
    · rw [planeOf_finish, planeOf_modPlane, Plane.clear]
    · rw [planeOf_finish, planeOf_modPlane, planeOf_issue, Plane.clear]
    · rw [planeOf_finish, planeOf_modPlane_of_ne _ _ hx, planeOf_issue]
  · refine ⟨_, run_plrel hown, ?_, ?_, ?_, fun x hx => ?_⟩
    · exact ((((UnitWork.issue s).modPlane w _).unitsGiven _).modPlown fun v => v &&& ~~~(BitVec.twoPow 4 w.toNat)).finish
    · rw [planeOf_finish, planeOf_modMe, planeOf_unitsGiven, planeOf_modPlane]
      rfl
    · rw [State.finish_me, Slot.after_plown, State.modMe_me]
      simp
    · rw [planeOf_finish, planeOf_modMe, planeOf_unitsGiven, planeOf_modPlane_of_ne _ _ hx, planeOf_issue]
  · refine ⟨_, run_plclm hfree hclaims, ?_, ?_, ?_, fun x hx => ?_⟩
    · exact (((UnitWork.claimMade s true w.toNat).modPlane w _).modPlown fun v => v ||| BitVec.twoPow 4 w.toNat).finish
    · rw [planeOf_finish, planeOf_modMe, planeOf_modPlane, Plane.clear]
    · rw [State.finish_me, Slot.after_plown, State.modMe_me, State.modPlane_me, State.claimMade, State.modMyCore_me_of_slots rfl, State.arrayAwake,
        State.modMyCore_me_of_slots rfl, State.issue_plown]
    · rw [planeOf_finish, planeOf_modMe, planeOf_modPlane_of_ne _ _ hx, State.claimMade, planeOf_modMyCore rfl, State.arrayAwake,
        planeOf_modMyCore rfl, planeOf_issue]

end Sys2Proof.Machine
end

section
/-! The MMA family (R160 to R162, R196, R197, R200). -/

-- One declaration after another: checked side by side, these take more threads than the memory of the check holds.
set_option Elab.async false

namespace Sys2Proof.Machine

open Sys2Proof.Claims

variable {s t u : State} {a td : Num3} {w : Num2} {k : MmaKind}

/-! ## Charges, and the rows of the projection buffer -/

theorem chargeSlot_mine (s : State) (pips : Nat) : s.chargeSlot s.cur.core s.cur.slot pips =
    (s.modMe fun sl => { sl with meter := satAdd64 sl.meter pips }).modMyCore (·.tally 0x32 s.cur.slot pips) := by
  simp [State.chargeSlot, State.modMe, State.setMe, State.setSlot, State.modMyCore, State.modCore, Core.modSlot, State.me, State.slot]

theorem charge_mine (pips : Nat) (s : State) : charge pips s =
    .ok () ((s.modMe fun sl => { sl with meter := satAdd64 sl.meter pips }).modMyCore (·.tally 0x32 s.cur.slot pips)) := by
  rw [← chargeSlot_mine]
  rfl

/-- A row started in the array, and charged (R196, R214). -/
def State.rowCharged (s : State) (pips : Nat) : State :=
  ((s.modMe fun sl => { sl with meter := satAdd64 sl.meter pips }).modMyCore (·.tally 0x32 s.cur.slot pips)).modMyCore fun k =>
    { k with lastRow := s.cycle }.tally 0x11 s.cur.slot 1

theorem rowStarted_apply (s : State) :
    rowStarted s = .ok () (s.modMyCore fun k => { k with lastRow := s.cycle }.tally 0x11 s.cur.slot 1) := rfl

theorem UnitWork.rowCharged (h : UnitWork s t) (pips : Nat) : UnitWork s (t.rowCharged pips) :=
  UnitWork.modMyCore (UnitWork.modMyCore (h.modMe ⟨rfl, rfl, rfl, rfl⟩) rfl) rfl

theorem State.rowCharged_me (s : State) (pips : Nat) : (s.rowCharged pips).me = { s.me with meter := satAdd64 s.me.meter pips } := by
  rw [State.rowCharged, State.modMyCore_me_of_slots rfl, State.modMyCore_me_of_slots rfl, State.modMe_me]

theorem State.rowCharged_myCore (s : State) (pips : Nat) : ∃ slots evcnt lastRow,
    (s.rowCharged pips).myCore = { s.myCore with slots := slots, evcnt := evcnt, lastRow := lastRow } := by
  rw [State.rowCharged, State.modMyCore_myCore, State.modMyCore_myCore, State.modMe_myCore]
  exact ⟨_, _, _, rfl⟩

/-- Rows of the projection buffer taken for reading (R195). -/
def State.projTaken (s : State) (lo hi : Nat) : State := s.modMyCore fun k =>
  { k with projUse := if k.projUse.contains (s.cur.slot, false, lo, hi) then k.projUse else k.projUse ++ [(s.cur.slot, false, lo, hi)] }

theorem takeProj_ok {lo hi : Nat} (h : projReadable s lo hi) : takeProj false lo hi s = .ok () (s.projTaken lo hi) := by
  have hany : (s.myCore.projUse.any fun q =>
      decide (q.1 ≠ s.cur.slot) && decide (q.2.1 ≠ false) && decide (q.2.2.1 < hi) && decide (lo < q.2.2.2)) = false := by
    rw [List.any_eq_false]
    intro q hq
    have := h q hq
    simp only [Bool.and_eq_true, decide_eq_true_eq, ne_eq, Bool.not_eq_false]
    tauto
  unfold takeProj
  simp only [M.bind_apply, M.get_apply, getCore_apply, hany, Bool.false_eq_true, if_false, modCore_apply]
  rfl

theorem UnitWork.projTaken (h : UnitWork s t) (lo hi : Nat) : UnitWork s (t.projTaken lo hi) := UnitWork.modMyCore h rfl

theorem State.projTaken_me (s : State) (lo hi : Nat) : (s.projTaken lo hi).me = s.me := State.modMyCore_me_of_slots rfl

/-! ## A row of the array -/

/-- What the array is fed depends on the projection buffer alone, of the core. -/
theorem feed_congr {c c' : Core} (h : c'.proj = c.proj) (k : MmaKind) (t : Tile) (r n : Nat) : c'.feed k t r n = c.feed k t r n := by
  simp only [Core.feed, Core.eyeRow, Core.eyeElem, Core.projElem, h]

/-- The cells of a row, as the array delivers them. -/
def mmaCells (c : Core) (k : MmaKind) (tl : Tile) (p : Half) (ty r : Nat) (old : BitVec 4096) : List (Option FR × Nat) :=
  (List.range (hCols p.shape)).map fun n => mmaCell k (k.eye.isSome || hType p.shape ≥ 5) (c.feed k tl r (hRows p.shape)).1 p
    (Fmt.fp32.decode (vat 0 tl.scales r).toNat) ty (cellAt old n) n

/-- The row that the array leaves. -/
def mmaResult (c : Core) (k : MmaKind) (tl : Tile) (p : Half) (ty r : Nat) (old : BitVec 4096) : BitVec 4096 :=
  patchCells old fun n => (((mmaCells c k tl p ty r old).getD n (none, 0)).1).map (·.bits)

theorem cellAt_mmaResult (c : Core) (k : MmaKind) (tl : Tile) (p : Half) (ty r : Nat) (old : BitVec 4096) {n : Nat} (h : n < 128) :
    cellAt (mmaResult c k tl p ty r old) n =
      (if n < hCols p.shape then (mmaCell k (k.eye.isSome || decide (5 ≤ hType p.shape)) (c.feed k tl r (hRows p.shape)).1 p
        (Fmt.fp32.decode (vat 0 tl.scales r).toNat) ty (cellAt old n) n).1 else none).elim (cellAt old n) fun u => u.bits % 2 ^ 32 := by
  rw [mmaResult, cellAt_patchCells _ _ h, mmaCells]
  by_cases hn : n < hCols p.shape
  · simp only [List.getD_eq_getElem?_getD, List.getElem?_map, List.getElem?_range hn, Option.map_some, Option.getD_some, if_pos hn, ge_iff_le]
    cases (mmaCell k (k.eye.isSome || decide (5 ≤ hType p.shape)) (c.feed k tl r (hRows p.shape)).1 p
      (Fmt.fp32.decode (vat 0 tl.scales r).toNat) ty (cellAt old n) n).1 with
    | none => exact Nat.mod_eq_of_lt (cellAt_lt ..)
    | some v => rfl
  · have hlen : (List.range (hCols p.shape))[n]? = none := by simp; omega
    simp only [List.getD_eq_getElem?_getD, List.getElem?_map, hlen, Option.map_none, Option.getD_none, if_neg hn]
    exact Nat.mod_eq_of_lt (cellAt_lt ..)

/-- An instruction of the family with the rows up to r computed. -/
structure Multiplying (s : State) (k : MmaKind) (a td : Num3) (w : Num2) (r : Nat) (t : State) : Prop where
  work : UnitWork s t
  fpcAt : t.me.fpcAt = fpcOf s
  tiles : t.me.tiles = s.me.tiles
  planes : t.myCore.planes = s.myCore.planes
  proj : t.myCore.proj = s.myCore.proj
  accs : OtherAccs s t a
  type : (Claims.accOf t a).type = (Claims.accOf s a).type
  rows : ∀ i, vat 0 (Claims.accOf t a).rows i =
    if i < r then mmaResult s.myCore k (s.me.tile td) (Claims.planeOf s w).active (accTy (Claims.accOf s a)) i (vat 0 (Claims.accOf s a).rows i)
    else vat 0 (Claims.accOf s a).rows i

theorem accTy_congr {x y : Acc} (h : x.type = y.type) : accTy x = accTy y := by rw [accTy, accTy, h]

theorem mmaRow_apply (k : MmaKind) (a td : Num3) (w : Num2) (fmt : W64) (r : Nat) (hnt : ntOf t.me.fpcAt = false) :
    ∃ flags, mmaRow k a td w fmt r t = .ok none
      (((t.modAcc a fun y => { y with rows := y.rows.setIfInBounds r (mmaResult t.myCore k (t.me.tile td) (Claims.planeOf t w).active
        (accTy (Claims.accOf t a)) r (vat 0 (Claims.accOf t a).rows r)) }).modMe fun sl => sl.orFlags flags).rowCharged 8) := by
  refine ⟨(mmaCells t.myCore k (t.me.tile td) (Claims.planeOf t w).active (accTy (Claims.accOf t a)) r
    (vat 0 (Claims.accOf t a).rows r)).foldl (fun g q => g ||| q.2) (t.myCore.feed k (t.me.tile td) r (hRows (Claims.planeOf t w).active.shape)).2, ?_⟩
  unfold mmaRow orFlags
  simp only [M.bind_apply, getCore_apply, getMe_apply, getPlane_apply, getAcc_apply, modAcc_apply, modMe_apply, charge_mine, rowStarted_apply,
    M.pure_apply, hnt]
  rfl

theorem mmaResult_congr {c c' : Core} (h : c'.proj = c.proj) (k : MmaKind) (tl : Tile) (p : Half) (ty r : Nat) (old : BitVec 4096) :
    mmaResult c' k tl p ty r old = mmaResult c k tl p ty r old := by
  simp only [mmaResult, mmaCells, feed_congr h]

theorem tile_congr {sl sl' : Slot} (h : sl'.tiles = sl.tiles) (i : Num3) : sl'.tile i = sl.tile i := by
  simp only [Slot.tile, h]

theorem planeOf_congr (h : t.myCore.planes = s.myCore.planes) (w : Num2) : Claims.planeOf t w = Claims.planeOf s w := by
  simp only [Claims.planeOf, h]

theorem accOf_congr (h : t.myCore.accs = s.myCore.accs) (a : Num3) : Claims.accOf t a = Claims.accOf s a := by
  simp only [Claims.accOf, h]

theorem State.modAcc_myCore (s : State) (a : Num3) (f : Acc → Acc) : ∃ accs, (s.modAcc a f).myCore = { s.myCore with accs := accs } :=
  ⟨_, State.modMyCore_myCore ..⟩

/-- The state that a row of the array leaves. -/
def State.rowMultiplied (s : State) (a : Num3) (r : Nat) (row : BitVec 4096) (flags : Nat) : State :=
  ((s.modAcc a fun y => { y with rows := y.rows.setIfInBounds r row }).modMe fun sl => sl.orFlags flags).rowCharged 8

section
variable {r : Nat} {row : BitVec 4096} {flags : Nat}

theorem UnitWork.rowMultiplied (h : UnitWork s t) : UnitWork s (t.rowMultiplied a r row flags) :=
  ((h.modAcc ..).modMe ⟨rfl, rfl, rfl, rfl⟩).rowCharged 8

theorem State.rowMultiplied_me (s : State) : ∃ m, (s.rowMultiplied a r row flags).me = { s.me.orFlags flags with meter := m } := by
  rw [State.rowMultiplied, State.rowCharged_me, State.modMe_me, State.modAcc_me]
  exact ⟨_, rfl⟩

theorem State.rowMultiplied_myCore (s : State) : ∃ slots evcnt lastRow accs,
    (s.rowMultiplied a r row flags).myCore = { s.myCore with slots := slots, evcnt := evcnt, lastRow := lastRow, accs := accs } := by
  obtain ⟨sl, ev, lr, h⟩ := State.rowCharged_myCore
    ((s.modAcc a fun y => { y with rows := y.rows.setIfInBounds r row }).modMe fun sl => sl.orFlags flags) 8
  obtain ⟨accs, h'⟩ := s.modAcc_myCore a fun y => { y with rows := y.rows.setIfInBounds r row }
  rw [State.rowMultiplied, h, State.modMe_myCore, h']
  exact ⟨_, _, _, _, rfl⟩

theorem accOf_rowMultiplied (s : State) (x : Num3) : Claims.accOf (s.rowMultiplied a r row flags) x =
    Claims.accOf (s.modAcc a fun y => { y with rows := y.rows.setIfInBounds r row }) x := by
  obtain ⟨sl, ev, lr, h⟩ := State.rowCharged_myCore
    ((s.modAcc a fun y => { y with rows := y.rows.setIfInBounds r row }).modMe fun sl => sl.orFlags flags) 8
  rw [State.rowMultiplied, accOf_congr (s := (s.modAcc a _).modMe _) (by rw [h]), accOf_modMe]

end

theorem Multiplying.row {fmt : W64} {r : Nat} (hnt : ntOf (fpcOf s) = false) (h : Multiplying s k a td w r t) (hr : r < 32) :
    ∃ v, mmaRow k a td w fmt r t = .ok none v ∧ Multiplying s k a td w (r + 1) v := by
  obtain ⟨flags, hv⟩ := mmaRow_apply k a td w fmt r (t := t) (by rw [h.fpcAt, hnt])
  rw [tile_congr h.tiles, planeOf_congr h.planes, accTy_congr h.type, h.rows, if_neg (by omega), mmaResult_congr h.proj] at hv
  refine ⟨t.rowMultiplied a r _ flags, hv, ?_⟩
  obtain ⟨m, hme⟩ := t.rowMultiplied_me (a := a) (r := r) (row := mmaResult s.myCore k (s.me.tile td) (Claims.planeOf s w).active
    (accTy (Claims.accOf s a)) r (vat 0 (Claims.accOf s a).rows r)) (flags := flags)
  obtain ⟨sl, ev, lr, accs, hcore⟩ := t.rowMultiplied_myCore (a := a) (r := r) (row := mmaResult s.myCore k (s.me.tile td)
    (Claims.planeOf s w).active (accTy (Claims.accOf s a)) r (vat 0 (Claims.accOf s a).rows r)) (flags := flags)
  refine ⟨h.work.rowMultiplied, by rw [hme]; exact h.fpcAt, by rw [hme]; exact h.tiles, by rw [hcore]; exact h.planes,
    by rw [hcore]; exact h.proj, fun x hx => ?_, ?_, fun i => ?_⟩
  · rw [accOf_rowMultiplied, accOf_modAcc_of_ne _ _ hx, h.accs x hx]
  · rw [accOf_rowMultiplied, accOf_modAcc]
    exact h.type
  · rw [accOf_rowMultiplied, accOf_modAcc]
    by_cases hir : r = i
    · subst hir
      rw [vat_setIfInBounds _ _ _ hr, if_pos (by omega)]
    · rw [vat_setIfInBounds_of_ne _ _ _ hir, h.rows]
      simp only [show i < r + 1 ↔ i < r by omega]

/-! ## The instruction -/

/-- What the array's instructions do once they hold the lock (R196, R198). -/
def mmaRest (k : MmaKind) (a td : Num3) (w : Num2) (sh : W64) (p : Half) (ty : Nat) (fmt : W64) (start : Option Nat) : M Ctl := do
  if start.isNone then
    if sh = 0 then shapeTrap sh fmt
    if p.shape = 0 then shapeTrap p.shape fmt
    if !pairs k (shType sh) (hType p.shape) ty then shapeTrap sh fmt
    if k.eye.isNone && shVcols sh ≠ hRows p.shape then shapeTrap sh fmt
  match k.eye with
  | some (ex, sel) => takeProj false (eyeRows ex sel).1 (eyeRows ex sel).2
  | none => pure ()
  forRows (restartKey 3 0 k.fn) (start.getD 0) (shVrows sh) (mmaRow k a td w fmt)
  return .done

/-- The projection rows of a form taken. -/
def State.eyeTaken (s : State) (k : MmaKind) : State :=
  match k.eye with
  | some (ex, sel) => s.projTaken (eyeRows ex sel).1 (eyeRows ex sel).2
  | none => s

theorem mmaRest_ok {sh fmt : W64} {p : Half} {ty : Nat} {v : State} (h0 : sh ≠ 0) (hp0 : p.shape ≠ 0)
    (hpairs : pairs k (shType sh) (hType p.shape) ty = true) (hvc : k.eye = none → shVcols sh = hRows p.shape)
    (heye : ∀ e, k.eye = some e → projReadable s (eyeRows e.1 e.2).1 (eyeRows e.1 e.2).2)
    (hloop : forRows (restartKey 3 0 k.fn) 0 (shVrows sh) (mmaRow k a td w fmt) (s.eyeTaken k) = .ok () v) :
    mmaRest k a td w sh p ty fmt none s = .ok .done v := by
  have hvc' : (k.eye.isNone && decide (shVcols sh ≠ hRows p.shape)) = false := by
    cases he : k.eye with
    | none => simp [hvc he]
    | some e => rfl
  unfold mmaRest
  simp only [Option.isNone_none, if_true, if_neg h0, if_neg hp0, hpairs, Bool.not_true, Bool.false_eq_true, if_false, hvc', Option.getD_none]
  unfold State.eyeTaken at hloop
  cases he : k.eye with
  | none =>
    rw [he] at hloop
    simp only [M.bind_apply, M.pure_apply, hloop]
  | some e =>
    rw [he] at hloop
    simp only [M.bind_apply, takeProj_ok (heye e he), hloop, M.pure_apply]

theorem exec_mma {q : (Num3 → Num3 → Num2 → BitVec 4 → Instr) × (Nat → MmaKind)} (hq : q ∈ mmaForms) (a td : Num3) (w : Num2) (sel : BitVec 4) :
    exec (q.1 a td w sel) = run (mma (q.2 sel.toNat) a td w) := by
  simp only [mmaForms, List.mem_cons, List.not_mem_nil, or_false] at hq
  rcases hq with rfl | rfl | rfl | rfl | rfl <;> rfl

section
variable (s : State) (k : MmaKind) (a : Num3)

theorem State.eyeTaken_me : (s.eyeTaken k).me = s.me := by
  unfold State.eyeTaken
  split
  · exact State.projTaken_me ..
  · rfl

theorem State.eyeTaken_myCore : ∃ use, (s.eyeTaken k).myCore = { s.myCore with projUse := use } := by
  unfold State.eyeTaken
  split
  · exact ⟨_, State.modMyCore_myCore ..⟩
  · exact ⟨_, rfl⟩

theorem State.locked_myCore : ∃ accs, (s.locked a).myCore = { s.myCore with accs := accs } := by
  unfold State.locked
  split
  · exact ⟨_, rfl⟩
  · exact s.modAcc_myCore ..

/-- The state in which an instruction of the family begins its rows. -/
def State.multiplyFrom : State := (s.issue.arrayAwake.locked a).eyeTaken k

theorem UnitWork.multiplyFrom : UnitWork s (s.multiplyFrom k a) := by
  have hw : UnitWork s (s.issue.arrayAwake.locked a) := (UnitWork.modMyCore (UnitWork.issue s) rfl).locked a
  unfold State.multiplyFrom State.eyeTaken
  split
  · exact hw.projTaken ..
  · exact hw

theorem State.multiplyFrom_me : (s.multiplyFrom k a).me = s.issue.me := by
  rw [State.multiplyFrom, State.eyeTaken_me, State.locked_me, State.arrayAwake, State.modMyCore_me_of_slots rfl]

theorem State.multiplyFrom_myCore : (s.multiplyFrom k a).myCore.planes = s.myCore.planes ∧ (s.multiplyFrom k a).myCore.proj = s.myCore.proj := by
  obtain ⟨use, h⟩ := (s.issue.arrayAwake.locked a).eyeTaken_myCore k
  obtain ⟨accs, h'⟩ := s.issue.arrayAwake.locked_myCore a
  rw [State.multiplyFrom, h, h', State.arrayAwake, State.modMyCore_myCore, (State.issue_frame s).2.1.1]
  exact ⟨rfl, rfl⟩

theorem accOf_multiplyFrom (x : Num3) : Claims.accOf (s.multiplyFrom k a) x = Claims.accOf (s.issue.arrayAwake.locked a) x := by
  obtain ⟨use, h⟩ := (s.issue.arrayAwake.locked a).eyeTaken_myCore k
  rw [State.multiplyFrom]
  exact accOf_congr (by rw [h]) x

theorem accOf_awake (x : Num3) : Claims.accOf s.issue.arrayAwake x = Claims.accOf s x := by
  rw [State.arrayAwake, accOf_modMyCore rfl, accOf_issue]

end

theorem Multiplying.start (s : State) (k : MmaKind) (a td : Num3) (w : Num2) : Multiplying s k a td w 0 (cleared (s.multiplyFrom k a)) := by
  have hme : (cleared (s.multiplyFrom k a)).me = { s.issue.me with restart := w64 (s.issue.me.restart.toNat % 2 ^ 63) } := by
    rw [cleared, State.modMe_me, State.multiplyFrom_me]
  have hcore : (cleared (s.multiplyFrom k a)).myCore.planes = s.myCore.planes ∧ (cleared (s.multiplyFrom k a)).myCore.proj = s.myCore.proj := by
    rw [cleared, State.modMe_myCore]
    exact s.multiplyFrom_myCore k a
  have hacc (x : Num3) : Claims.accOf (cleared (s.multiplyFrom k a)) x = Claims.accOf (s.issue.arrayAwake.locked a) x := by
    rw [cleared, accOf_modMe, accOf_multiplyFrom]
  refine ⟨(UnitWork.multiplyFrom s k a).modMe ⟨rfl, rfl, rfl, rfl⟩, ?_, ?_, hcore.1, hcore.2, fun x hx => ?_, ?_, fun i => ?_⟩
  · rw [hme]
    exact s.issue_fpcAt
  · rw [hme]
    exact s.issue_tiles
  · rw [hacc, accOf_locked_of_ne _ hx, accOf_awake]
  · rw [hacc, accOf_locked_type, accOf_awake]
  · rw [hacc, accOf_locked_rows, accOf_awake, if_neg (Nat.not_lt_zero i)]

/-- Settles O25: a row of the array adds to the row of the accumulator, and the rows follow one another. -/
theorem matrixMultiply : Obligations.MatrixMultiply := by
  intro q hq s a td w sel k tl h ty hk htl hh hty hend hres hown hplown hlock h0 hp0 hpairs hvc heye hnt hvr
  subst htl hh hty
  obtain ⟨fmt, hfmt⟩ : ∃ fmt, fmt = tfmtWord (accTy (Claims.accOf s a)) (tyCode (s.me.tile td).shape)
      (if (Claims.planeOf s w).active.shape = 0 then 15 else hType (Claims.planeOf s w).active.shape) 15 := ⟨_, rfl⟩
  obtain ⟨v, hv, hm⟩ := rowLoop_ok (key := restartKey 3 0 k.fn) (Nat.zero_le (shVrows (s.me.tile td).shape)) (body := mmaRow k a td w fmt)
    (I := Multiplying s k a td w) (fun r t h => by rw [h.work.stopReq]; exact hend.2)
    (fun r t _ hr h => h.row hnt (by omega)) (Multiplying.start s k a td w)
  have hlock' : lockFree s.issue.arrayAwake a := by
    have hcur : s.issue.arrayAwake.cur = s.cur := s.issue_cur
    rwa [lockFree, accOf_awake, hcur]
  have hme : (s.issue.arrayAwake.locked a).me = s.issue.me := by
    rw [State.locked_me, State.arrayAwake, State.modMyCore_me_of_slots rfl]
  have hcore : (s.issue.arrayAwake.locked a).myCore.projUse = s.myCore.projUse := by
    obtain ⟨accs, h'⟩ := s.issue.arrayAwake.locked_myCore a
    rw [h', State.arrayAwake, State.modMyCore_myCore, (State.issue_frame s).2.1.1]
  have hcur : (s.issue.arrayAwake.locked a).cur = s.cur := (State.locked_cur ..).trans s.issue_cur
  have hloop : forRows (restartKey 3 0 k.fn) 0 (shVrows (s.me.tile td).shape) (mmaRow k a td w fmt) (s.multiplyFrom k a) = .ok () v := by
    rw [forRows_eq, (UnitWork.multiplyFrom s k a).cur_eq, hend.1]
    exact hv
  have hrest := mmaRest_ok (s := s.issue.arrayAwake.locked a) h0 hp0 hpairs hvc
    (fun e he => by rw [projReadable, hcore, hcur]; exact heye e he) hloop
  have hneeds : (needAcc a >>= fun _ => needPlane w) s.issue.arrayAwake = .ok () s.issue.arrayAwake := by
    have hmea : s.issue.arrayAwake.me = s.issue.me := by rw [State.arrayAwake, State.modMyCore_me_of_slots rfl]
    simp only [M.bind_apply, needAcc_ok (s := s.issue.arrayAwake) (a := a) (by rw [hmea]; simpa using hown),
      needPlane_ok (s := s.issue.arrayAwake) (w := w) (by rw [hmea]; simpa using hplown)]
  have hrun : mma k a td w s.issue = .ok .done v := by
    have hres' : resumesAt (s.issue.arrayAwake.locked a) (restartKey 3 0 k.fn) = none := by
      rw [resumesAt_of_me (s := s.issue) (by rw [hme]), resumesAt_issue, hk, ← hk, hres]
    unfold mma
    rw [M.bind_apply, getMe_apply]
    simp only [M.bind_apply, getPlane_apply, planeOf_issue, getAcc_apply, accOf_issue, State.issue_tile, wakeArray_apply, ← hfmt,
      atRow_ok hneeds, lockAcc_ok hlock', resumeRow_apply, hres']
    exact hrest
  refine ⟨_, (congrFun (exec_mma hq a td w sel) s).trans (run_done (hk ▸ hrun)), hm.work.finish, ?_, ?_, fun x hx => ?_, fun r n hr hn => ?_,
    fun r hr => ?_⟩
  · rw [State.finish_me, Slot.after_tiles, hm.tiles]
  · have : v.finish.myCore.planes = v.myCore.planes := (congrArg Core.planes (State.modMe_myCore ..)).trans (Core.setSlot_planes ..)
    rw [this, hm.planes]
  · rw [accOf_finish, hm.accs x hx]
  · rw [accOf_finish, hm.rows, if_pos hr, cellAt_mmaResult _ _ _ _ _ _ _ hn]
    generalize (if n < hCols (Claims.planeOf s w).active.shape then _ else none : Option FR) = o
    cases o <;> rfl
  · rw [accOf_finish, hm.rows, if_neg (by omega)]

end Sys2Proof.Machine
end

section
/-! SCOREB and TRIPC (R259, R262), EPEXP and EPABS (R201): the tiles they deliver. -/

-- One declaration after another: checked side by side, these take more threads than the memory of the check holds.
set_option Elab.async false

namespace Sys2Proof.Machine

open Sys2Proof.Claims

variable {s t u : State} {d a b : Num3}

/-! ## SCOREB and TRIPC -/

theorem notCopySlot_ok (h : s.cur.slot ≠ 14) : notCopySlot s = .ok () s := by
  simp [notCopySlot, h]

theorem orFmt_ok {α : Type} {m : M α} {fmt : W64} {x : α} (h : m s = .ok x t) : orFmt fmt m s = .ok x t := by rw [orFmt, h]

def scoreCheck (va vb fmt : W64) (d a b : Num3) : M W64 := do
  checkSrc va [7] fmt
  checkSrc vb [1] fmt
  agree (decide (shVcols va ≤ shVcols vb) && decide (1 ≤ shVrows vb)) vb fmt
  checkDst d va [(a, va), (b, vb)] fmt
  return va

/-- The rows of SCOREB. -/
def scoreRows (va : W64) (a b : Num3) (sl : Slot) (i : Nat) : List FR :=
  (List.range (shVcols va)).map fun j => scoreEl ((sl.tile a).elem i j) ((sl.tile b).elem 0 j)

theorem scoreb_apply (d a b : Num3) (h14 : s.cur.slot ≠ 14) :
    ∃ fmt, scoreb d a b s = tileRows (restartKey 6 3 0) d (scoreCheck (s.me.tile a).shape (s.me.tile b).shape fmt d a b) (beginResult d)
      (rowBody d (scoreRows (s.me.tile a).shape a b) true fun _ _ => fmt) s := by
  refine ⟨tfmtWord 7 (tyCode (s.me.tile a).shape) (tyCode (s.me.tile b).shape) 15, ?_⟩
  unfold scoreb
  rw [M.bind_apply, getMe_apply]
  simp only [M.bind_apply, orFmt_ok (notCopySlot_ok h14)]
  rfl

theorem scoreb_begins {f : Nat → Nat → FR} (hend : ToTheEnd s) (h14 : s.cur.slot ≠ 14) (hres : resumesAt s (restartKey 6 3 0) = none)
    (ha0 : (s.me.tile a).shape ≠ 0) (hb0 : (s.me.tile b).shape ≠ 0) (hta : shType (s.me.tile a).shape = 7) (htb : shType (s.me.tile b).shape = 1)
    (hvc : shVcols (s.me.tile a).shape ≤ shVcols (s.me.tile b).shape) (hvr : 1 ≤ shVrows (s.me.tile b).shape)
    (hok : shapeOk (s.me.tile a).shape = true) (hb : b = d → (s.me.tile b).shape = (s.me.tile a).shape)
    (hf : f = fun r j => scoreEl ((s.me.tile a).elem r j) ((s.me.tile b).elem 0 j)) (hnan : noNanTrap s 0 (s.me.tile a).shape f) :
    ∃ v, scoreb d a b s.issue = .ok .done v ∧ TileResult s v.finish d 0 (s.me.tile a).shape unitScales f := by
  obtain ⟨fmt, happ⟩ := scoreb_apply d a b (s := s.issue) (by rwa [State.issue_cur])
  have hbd : b ≠ d := fun h => by
    have := hb h
    rw [this, hta] at htb
    exact absurd htb (by decide)
  have hcheck (t : State) : scoreCheck (s.me.tile a).shape (s.me.tile b).shape fmt d a b t = .ok (s.me.tile a).shape t := by
    simp [scoreCheck, checkSrc_ok (types := [7]) ha0 (by simp [hta]), checkSrc_ok (types := [1]) hb0 (by simp [htb]),
      agree_ok (ok := decide (shVcols (s.me.tile a).shape ≤ shVcols (s.me.tile b).shape) && decide (1 ≤ shVrows (s.me.tile b).shape))
        (by simp [hvc, hvr]), checkDst_ok hok (pairSources_ok hb)]
  rw [happ, State.issue_tile, State.issue_tile]
  refine run_tileRows hend hres (hcheck _) hok (fun u r hr hu => List.map_congr_left fun j hj => ?_) fun _ => hnan
  rw [hu.sourceBegun hok hr (fun _ => List.mem_range.mp hj) fun _ => rfl, hu.work.slot.tiles b hbd, State.issue_tile, hf]

def tripCheck (va vb fmt : W64) (d a b : Num3) : M W64 := do
  checkSrc va [7] fmt
  checkSrc vb [7] fmt
  agree (decide (va = vb)) vb fmt
  agree (decide (2 ≤ shCols va)) va fmt
  checkDst d va [(a, va), (b, vb)] fmt
  return va

/-- The rows of TRIPC. -/
def tripRows (va : W64) (a b : Num3) (sl : Slot) (i : Nat) : List FR :=
  tripRow ((sl.tile a).rowElems i (shVcols va)) ((sl.tile b).rowElems i (shVcols va))

theorem tripc_apply (d a b : Num3) (h14 : s.cur.slot ≠ 14) :
    ∃ fmt, tripc d a b s = tileRows (restartKey 6 4 0) d (tripCheck (s.me.tile a).shape (s.me.tile b).shape fmt d a b) (beginResult d)
      (rowBody d (tripRows (s.me.tile a).shape a b) true fun _ _ => fmt) s := by
  refine ⟨tfmtWord 7 (tyCode (s.me.tile a).shape) (tyCode (s.me.tile b).shape) 15, ?_⟩
  unfold tripc
  rw [M.bind_apply, getMe_apply]
  simp only [M.bind_apply, orFmt_ok (notCopySlot_ok h14)]
  rfl

/-- TRIPC delivers as many elements as its rows have. -/
theorem tripRow_length {xs ys : List Nat} {n : Nat} (hx : xs.length = n) (hy : ys.length = n) : (tripRow xs ys).length = n := by
  unfold tripRow
  cases xs with
  | nil => simpa using hx
  | cons x xs =>
    cases ys with
    | nil => simp at hx hy; omega
    | cons y ys =>
      simp only [List.map_cons]
      split
      · simpa using hx
      · simp at hx hy ⊢
        omega

theorem eq_map_getD {α : Type} {l : List α} {n : Nat} (d : α) (h : l.length = n) : l = (List.range n).map fun j => l.getD j d := by
  subst h
  refine List.ext_getElem (by simp) fun i h1 h2 => ?_
  simp [h1]

theorem tripc_begins {f : Nat → Nat → FR} (hend : ToTheEnd s) (h14 : s.cur.slot ≠ 14) (hres : resumesAt s (restartKey 6 4 0) = none)
    (hab : (s.me.tile a).shape = (s.me.tile b).shape) (h0 : (s.me.tile a).shape ≠ 0) (hta : shType (s.me.tile a).shape = 7)
    (hc : 2 ≤ shCols (s.me.tile a).shape) (hok : shapeOk (s.me.tile a).shape = true)
    (hf : f = fun r j => (tripRow ((s.me.tile a).rowElems r (shVcols (s.me.tile a).shape))
      ((s.me.tile b).rowElems r (shVcols (s.me.tile a).shape))).getD j ⟨0, 0⟩) (hnan : noNanTrap s 0 (s.me.tile a).shape f) :
    ∃ v, tripc d a b s.issue = .ok .done v ∧ TileResult s v.finish d 0 (s.me.tile a).shape unitScales f := by
  obtain ⟨fmt, happ⟩ := tripc_apply d a b (s := s.issue) (by rwa [State.issue_cur])
  have hcheck (t : State) : tripCheck (s.me.tile a).shape (s.me.tile b).shape fmt d a b t = .ok (s.me.tile a).shape t := by
    simp [tripCheck, checkSrc_ok (types := [7]) h0 (by simp [hta]), ← hab, agree_ok (decide_eq_true hc), agree_ok,
      checkDst_ok hok (srcs := [(a, (s.me.tile a).shape), (b, (s.me.tile a).shape)]) (by simp)]
  rw [happ, State.issue_tile, State.issue_tile]
  refine run_tileRows hend hres (hcheck _) hok (fun u r hr hu => ?_) fun _ => hnan
  have hels (i : Num3) (hi : i = d → (s.me.tile i).shape = (s.me.tile a).shape) :
      (u.me.tile i).rowElems r (shVcols (s.me.tile a).shape) = (s.me.tile i).rowElems r (shVcols (s.me.tile a).shape) :=
    List.map_congr_left fun j hj => hu.sourceBegun hok hr (fun _ => List.mem_range.mp hj) hi
  rw [tripRows, hels a fun _ => rfl, hels b fun _ => hab.symm, resultRow, hf]
  exact eq_map_getD _ (tripRow_length (by simp [Tile.rowElems]) (by simp [Tile.rowElems]))

theorem exec_scoreb (d a b : Num3) : exec (.scoreb d a b) = run (scoreb d a b) := rfl
theorem exec_tripc (d a b : Num3) : exec (.tripc d a b) = run (tripc d a b) := rfl

theorem attentionTiles_holds : Claims.AttentionTiles := by
  refine ⟨fun s d a b va vb f hend h14 hres hva hvb ha0 hb0 hta htb hvc hvr hok hb hf hnan => ?_,
    fun s d a b va f hend h14 hres hva hvb h0 hta hc hok hf hnan => ?_⟩
  · subst hva hvb
    obtain ⟨v, hv, hr⟩ := scoreb_begins hend h14 hres ha0 hb0 hta htb hvc hvr hok hb hf hnan
    rw [exec_scoreb]
    exact ⟨_, run_done hv, hr⟩
  · subst hva
    obtain ⟨v, hv, hr⟩ := tripc_begins (d := d) hend h14 hres hvb h0 hta hc hok hf hnan
    rw [exec_tripc]
    exact ⟨_, run_done hv, hr⟩

/-! ## EPEXP and EPABS -/

/-- Row r of EPEXP and EPABS. -/
def eyeTileRow (expand : Bool) (sel : Nat) (d a : Num3) (fmt : W64) (r : Nat) : M (Option TrapInfo) := do
  takeProj false (eyeRows expand sel).1 (eyeRows expand sel).2
  let c ← getCore
  let src := (← getMe).tile a
  let (us, f) := c.eyeRow expand sel ((src.rowElems r (shVcols src.shape)).map (valueOf (shType src.shape)))
  charge 8
  rowStarted
  commitRow d r (us.mapIdx fun j u => ⟨u, if j = 0 then f else 0⟩) true fmt

theorem eyeTile_apply (expand : Bool) (fn : Nat) (d a : Num3) (sel : Nat) (s : State) :
    ∃ fmt, eyeTile expand fn d a sel s = tileRows (restartKey 3 4 fn) d
      (oneCheck [2, 5] (mkShape 5 (shRows (s.me.tile a).shape) 32 (shVrows (s.me.tile a).shape) 32) fmt d a (s.me.tile a).shape)
      (fun v => takeProj false (eyeRows expand sel).1 (eyeRows expand sel).2 >>= fun _ => beginResult d v) (eyeTileRow expand sel d a fmt) s := by
  refine ⟨tfmtWord 5 (tyCode (s.me.tile a).shape) 15 15, ?_⟩
  unfold eyeTile
  rw [M.bind_apply, getMe_apply]
  rfl

theorem eyeRow_congr {c c' : Core} (h : c'.proj = c.proj) (expand : Bool) (sel : Nat) (xs : List Fp) :
    c'.eyeRow expand sel xs = c.eyeRow expand sel xs := by
  simp only [Core.eyeRow, Core.eyeElem, Core.projElem, h]

theorem eyeRow_length (c : Core) (expand : Bool) (sel : Nat) (xs : List Fp) : (c.eyeRow expand sel xs).1.length = 32 := by
  simp [Core.eyeRow]

/-- EPEXP or EPABS with the rows up to r delivered. -/
structure Eyeing (s : State) (expand : Bool) (sel : Nat) (d a : Num3) (res : W64) (r : Nat) (t : State) : Prop where
  work : UnitWork s t
  fpcAt : t.me.fpcAt = fpcOf s
  tiles : ∀ i, i ≠ d → t.me.tile i = s.me.tile i
  shape : (t.me.tile d).shape = res
  scales : (t.me.tile d).scales = unitScales
  proj : t.myCore.proj = s.myCore.proj
  use : ∀ q ∈ t.myCore.projUse, q ∈ s.myCore.projUse ∨ q.1 = s.cur.slot
  done : ∀ i, i < r → (t.me.tile d).row i = rowOf 2 (eyeOf s expand sel a i).1
  rest : ∀ i, r ≤ i → (t.me.tile d).row i = (begun s d res).row i

theorem projReadable_of_use {lo hi : Nat} (h : projReadable s lo hi) (hcur : t.cur = s.cur)
    (huse : ∀ q ∈ t.myCore.projUse, q ∈ s.myCore.projUse ∨ q.1 = s.cur.slot) : projReadable t lo hi := by
  intro q hq hne hw
  rw [hcur] at hne
  exact h q ((huse q hq).resolve_right hne) hne hw

theorem State.projTaken_use {lo hi : Nat} (huse : ∀ q ∈ t.myCore.projUse, q ∈ s.myCore.projUse ∨ q.1 = s.cur.slot) (hcur : t.cur = s.cur) :
    ∀ q ∈ (t.projTaken lo hi).myCore.projUse, q ∈ s.myCore.projUse ∨ q.1 = s.cur.slot := by
  intro q hq
  rw [State.projTaken, State.modMyCore_myCore] at hq
  simp only at hq
  split at hq
  · exact huse q hq
  · rcases List.mem_append.mp hq with hq | hq
    · exact huse q hq
    · rw [List.mem_singleton.mp hq, hcur]
      exact .inr rfl

section
variable {expand : Bool} {sel r : Nat} {res : W64}

/-- The source of a row as it was before the instruction, also where td is the source. -/
theorem Eyeing.source (h : Eyeing s expand sel d a res r t) (hok : shapeOk res = true) (hr : r < shVrows res)
    (ha : a = d → (s.me.tile a).shape = res) : (t.me.tile a).shape = (s.me.tile a).shape ∧
      (t.me.tile a).rowElems r (shVcols (s.me.tile a).shape) = (s.me.tile a).rowElems r (shVcols (s.me.tile a).shape) := by
  by_cases had : a = d
  · subst had
    refine ⟨h.shape.trans (ha rfl).symm, List.map_congr_left fun j hj => ?_⟩
    have hj : j < shVcols res := ha rfl ▸ List.mem_range.mp hj
    rw [Tile.elem, h.shape, h.rest r le_rfl, begun, Tile.unscaled_row, reshape_elem _ hok hr hj, Tile.elem, ha rfl]
  · rw [h.tiles a had]
    exact ⟨rfl, rfl⟩

theorem mapIdx_bits (us : List Nat) (f : Nat) : (us.mapIdx fun j u => FR.mk u (if j = 0 then f else 0)).map (·.bits) = us := by
  exact List.ext_getElem (by simp) fun i h1 h2 => by simp

theorem State.projTaken_proj (s : State) (lo hi : Nat) : (s.projTaken lo hi).myCore.proj = s.myCore.proj := by
  rw [State.projTaken, State.modMyCore_myCore]

theorem State.issue_proj (s : State) : s.issue.myCore.proj = s.myCore.proj := by rw [(State.issue_frame s).2.1.1]

/-- The state that a row of EPEXP or EPABS leaves. -/
def State.rowEyed (s : State) (expand : Bool) (sel : Nat) (d : Num3) (r : Nat) (els : List FR) : State :=
  ((s.projTaken (eyeRows expand sel).1 (eyeRows expand sel).2).rowCharged 8).rowDone d r els

theorem State.rowEyed_me (els : List FR) : ∃ m, (s.rowEyed expand sel d r els).me =
    ({ s.me with meter := m }.setTile d ((s.me.tile d).setRow r (rowOf (tySize (shType (s.me.tile d).shape)) (els.map FR.bits)))).orFlags
      (orOf els) := by
  rw [State.rowEyed, State.rowDone_me, State.rowCharged_me, State.projTaken_me]
  exact ⟨_, rfl⟩

theorem State.rowDone_myCore (els : List FR) : ∃ slots evcnt, (s.rowDone d r els).myCore = { s.myCore with slots := slots, evcnt := evcnt } := by
  rw [State.rowDone, State.modMyCore_myCore, State.modMe_myCore]
  exact ⟨_, _, rfl⟩

theorem State.rowEyed_myCore (els : List FR) : (s.rowEyed expand sel d r els).myCore.proj = s.myCore.proj ∧
    (s.rowEyed expand sel d r els).myCore.projUse = (s.projTaken (eyeRows expand sel).1 (eyeRows expand sel).2).myCore.projUse := by
  obtain ⟨sl, ev, h⟩ := State.rowDone_myCore (s := (s.projTaken (eyeRows expand sel).1 (eyeRows expand sel).2).rowCharged 8) (d := d) (r := r) els
  obtain ⟨sl', ev', lr, h'⟩ := (s.projTaken (eyeRows expand sel).1 (eyeRows expand sel).2).rowCharged_myCore 8
  rw [State.rowEyed, h, h']
  exact ⟨State.projTaken_proj .., rfl⟩

theorem UnitWork.rowDone (h : UnitWork s t) (els : List FR) : UnitWork s (t.rowDone d r els) := by
  rw [State.rowDone]
  exact UnitWork.modMyCore (h.modMe ⟨rfl, rfl, rfl, rfl⟩) rfl

theorem Eyeing.row {fmt : W64} (hnt : ntOf (fpcOf s) = false) (hp : projReadable s (eyeRows expand sel).1 (eyeRows expand sel).2)
    (hty : shType res = 5) (hok : shapeOk res = true) (ha : a = d → (s.me.tile a).shape = res) (h : Eyeing s expand sel d a res r t)
    (hr : r < shVrows res) : ∃ v, eyeTileRow expand sel d a fmt r t = .ok none v ∧ Eyeing s expand sel d a res (r + 1) v := by
  have h32 := (shapeOk_bounds hok).1
  have hcur := h.work.cur_eq
  obtain ⟨hsh, hels⟩ := h.source hok hr ha
  obtain ⟨els, hbits, hrun⟩ : ∃ els : List FR, els.map (·.bits) = (eyeOf s expand sel a r).1 ∧
      eyeTileRow expand sel d a fmt r t = .ok none (t.rowEyed expand sel d r els) := by
    refine ⟨_, mapIdx_bits _ (eyeOf s expand sel a r).2, ?_⟩
    have hproj : (t.projTaken (eyeRows expand sel).1 (eyeRows expand sel).2).myCore.proj = s.myCore.proj :=
      (State.projTaken_proj ..).trans h.proj
    unfold eyeTileRow
    simp only [M.bind_apply, takeProj_ok (projReadable_of_use hp hcur h.use), getCore_apply, getMe_apply, State.projTaken_me, hsh, hels,
      eyeRow_congr hproj, charge_mine, rowStarted_apply, commitRow_apply, if_true]
    rw [nanTrap_none (.inl ?_)]
    · rfl
    · rw [State.modMyCore_me_of_slots rfl, State.modMyCore_me_of_slots rfl, State.modMe_me, State.projTaken_me, h.fpcAt, hnt]
  refine ⟨_, hrun, ?_⟩
  obtain ⟨m, hme⟩ := t.rowEyed_me (expand := expand) (sel := sel) (d := d) (r := r) els
  obtain ⟨hproj, huse⟩ := t.rowEyed_myCore (expand := expand) (sel := sel) (d := d) (r := r) els
  have hd : (t.rowEyed expand sel d r els).me.tile d = (t.me.tile d).setRow r (rowOf 2 (eyeOf s expand sel a r).1) := by
    rw [hme, ← hbits, h.shape, hty]
    exact Slot.setTile_tile ..
  refine ⟨((h.work.projTaken ..).rowCharged 8).rowDone els, by rw [hme]; exact h.fpcAt, fun i hi => ?_, ?_, ?_, hproj.trans h.proj, ?_, fun i hi => ?_,
    fun i hi => ?_⟩
  · rw [hme]
    exact (Slot.setTile_tile_of_ne _ _ hi).trans (h.tiles i hi)
  · rw [hd, Tile.setRow_shape, h.shape]
  · rw [hd, Tile.setRow_scales, h.scales]
  · rw [huse]
    exact State.projTaken_use h.use hcur
  · rw [hd]
    by_cases hir : r = i
    · subst hir
      exact Tile.setRow_row _ _ (by omega)
    · rw [Tile.setRow_row_of_ne _ _ hir, h.done i (by omega)]
  · rw [hd, Tile.setRow_row_of_ne _ _ (by omega), h.rest i (by omega)]

/-- The state in which EPEXP and EPABS begin their rows. -/
def State.eyeFrom (s : State) (expand : Bool) (sel : Nat) (d : Num3) (res : W64) : State :=
  (s.issue.projTaken (eyeRows expand sel).1 (eyeRows expand sel).2).modMe fun sl => sl.setTile d ((sl.tile d).reshape res).unscaled

theorem Eyeing.start (s : State) (expand : Bool) (sel : Nat) (d a : Num3) (res : W64) :
    Eyeing s expand sel d a res 0 (cleared (s.eyeFrom expand sel d res)) := by
  have hme : (cleared (s.eyeFrom expand sel d res)).me =
      { s.issue.me.setTile d (begun s d res) with restart := w64 (s.issue.me.restart.toNat % 2 ^ 63) } := by
    rw [cleared, State.modMe_me, State.eyeFrom, State.modMe_me, State.projTaken_me, State.issue_tile]
    rfl
  have hcore : (cleared (s.eyeFrom expand sel d res)).myCore.proj = s.myCore.proj ∧ (cleared (s.eyeFrom expand sel d res)).myCore.projUse =
      (s.issue.projTaken (eyeRows expand sel).1 (eyeRows expand sel).2).myCore.projUse := by
    rw [cleared, State.modMe_myCore, State.eyeFrom, State.modMe_myCore]
    refine ⟨?_, rfl⟩
    exact (State.projTaken_proj ..).trans s.issue_proj
  have hd : (cleared (s.eyeFrom expand sel d res)).me.tile d = begun s d res := by
    rw [hme]
    exact Slot.setTile_tile ..
  refine ⟨(((UnitWork.issue s).projTaken ..).modMe ⟨rfl, rfl, rfl, rfl⟩).modMe ⟨rfl, rfl, rfl, rfl⟩, ?_, fun i hi => ?_, ?_, ?_, hcore.1, ?_,
    fun i hi => absurd hi (Nat.not_lt_zero i), fun i _ => by rw [hd]⟩
  · rw [hme]
    exact s.issue_fpcAt
  · rw [hme]
    exact (Slot.setTile_tile_of_ne _ _ hi).trans (State.issue_tile ..)
  · rw [hd]
    rfl
  · rw [hd]
    rfl
  · rw [hcore.2]
    refine State.projTaken_use (fun q hq => .inl ?_) (State.issue_cur s)
    rwa [(State.issue_frame s).2.1.1] at hq

end

theorem exec_eyeTile (expand : Bool) (d a : Num3) (sel : BitVec 4) : exec (if expand then .epexp d a sel else .epabs d a sel) =
    run (eyeTile expand (if expand then 0 else 1) d a sel.toNat) := by
  cases expand <;> rfl

theorem eyepieceTiles_holds : Claims.EyepieceTiles := by
  intro expand s d a sel res hend hres hr hacc hp hnt
  have hok := hacc.2.2.1
  have hty : shType res = 5 := by
    rw [hr]
    exact mkShape_type (by decide) (shRows_lt _) (by decide) (shVrows_lt _) (by decide)
  have hvr : shVrows res = shVrows (s.me.tile a).shape := by
    rw [hr]
    exact mkShape_vrows (by decide) (shRows_lt _) (by decide) (shVrows_lt _) (by decide)
  obtain ⟨fmt, happ⟩ := eyeTile_apply expand (if expand then 0 else 1) d a sel.toNat s.issue
  obtain ⟨v, hv, hdone⟩ := rowLoop_ok (key := restartKey 3 4 (if expand then 0 else 1)) (Nat.zero_le (shVrows res))
    (body := eyeTileRow expand sel.toNat d a fmt) (I := Eyeing s expand sel.toNat d a res) (fun r t h => by rw [h.work.stopReq]; exact hend.2)
    (fun r t _ hrow h => h.row hnt hp hty hok hacc.2.2.2 hrow) (Eyeing.start s expand sel.toNat d a res)
  have hp' : projReadable s.issue (eyeRows expand sel.toNat).1 (eyeRows expand sel.toNat).2 :=
    projReadable_of_use hp (State.issue_cur s) fun q hq => .inl (by rwa [(State.issue_frame s).2.1.1] at hq)
  have hrun : eyeTile expand (if expand then 0 else 1) d a sel.toNat s.issue = .ok .done v := by
    rw [happ, State.issue_tile, ← hr]
    refine tileRows_begins (u := s.eyeFrom expand sel.toNat d res) (by rwa [resumesAt_issue]) (oneCheck_ok hacc _) ?_ ?_
    · simp only [M.bind_apply, takeProj_ok hp', beginResult_apply]
      rfl
    · have hcur : (s.eyeFrom expand sel.toNat d res).cur = s.cur := s.issue_cur
      rw [forRows_eq, hcur, hend.1]
      exact hv
  refine ⟨_, (congrFun (exec_eyeTile expand d a sel) s).trans (run_done hrun), hdone.work.finish, fun i hi => ?_, ?_, ?_, fun r j hrow hj => ?_⟩
  · rw [State.finish_tile, hdone.tiles i hi]
  · rw [State.finish_tile, hdone.shape]
  · rw [State.finish_tile, hdone.scales]
  · rw [State.finish_tile, Tile.elem, hdone.shape, hdone.done r (hvr ▸ hrow), hty]
    exact elemAt_rowOf _ (by omega : (j + 1) * 2 ≤ 64)

/-- Settles O26: SCOREB and TRIPC deliver their rows as every tile instruction does; EPEXP and EPABS take their rows of the projection buffer
before each row. -/
theorem eyepieceAndAttentionTiles : Obligations.EyepieceAndAttentionTiles := ⟨eyepieceTiles_holds, attentionTiles_holds⟩

end Sys2Proof.Machine
end

section
/-! Reservation banks: what stores performed and words given on keep, and the requests of a thread at a bank (R218 to R224). -/

-- One declaration after another: checked side by side, these take more threads than the memory of the check holds.
set_option Elab.async false

namespace Sys2Proof.Machine

open Sys2Proof.Claims

/-! ## What checks, stores performed and words given on keep -/

/-- The threads are as they were, but for watches that were triggered and words that were given back: what the checks of an access, stores
performed and reservations ended leave. -/
structure ThreadsKept (s t : State) : Prop where
  cur_eq : t.cur = s.cur
  cycle : t.cycle = s.cycle
  meridian : t.meridian = s.meridian
  worlds : t.worlds = s.worlds
  waitTable : t.waitTable = s.waitTable
  full : t.full = s.full
  core : ∀ c, t.core c = { s.core c with
    tlb := (t.core c).tlb, capCache := (t.core c).capCache, l1 := (t.core c).l1, fills := (t.core c).fills, evcnt := (t.core c).evcnt
    sb := (t.core c).sb, slots := (t.core c).slots, cache := (t.core c).cache }
  slot : ∀ c n, t.slot c n = { s.slot c n with watch := (t.slot c n).watch, held := (t.slot c n).held }

namespace ThreadsKept

variable {s t u : State}

theorem refl (s : State) : ThreadsKept s s := ⟨rfl, rfl, rfl, rfl, rfl, rfl, fun _ => rfl, fun _ _ => rfl⟩

theorem trans (h : ThreadsKept s t) (k : ThreadsKept t u) : ThreadsKept s u := by
  refine ⟨k.cur_eq.trans h.cur_eq, k.cycle.trans h.cycle, k.meridian.trans h.meridian, k.worlds.trans h.worlds, k.waitTable.trans h.waitTable,
    k.full.trans h.full,
    fun c => ?_, fun c n => ?_⟩
  · conv_lhs => rw [k.core c]
    conv_lhs => rw [h.core c]
  · conv_lhs => rw [k.slot c n]
    conv_lhs => rw [h.slot c n]

/-- What was done last stands first. -/
theorem after (k : ThreadsKept t u) (h : ThreadsKept s t) : ThreadsKept s u := h.trans k

theorem carries : Carries ThreadsKept := ⟨refl, trans⟩

/-- Nothing of the cores has changed, nor of the worlds, the waiters and the full/empty bits. -/
theorem of_eq (hcur : t.cur = s.cur) (hcyc : t.cycle = s.cycle) (hmer : t.meridian = s.meridian) (hw : t.worlds = s.worlds)
    (hwait : t.waitTable = s.waitTable)
    (hfull : t.full = s.full) (h : t.cores = s.cores) : ThreadsKept s t := by
  have hcore (c : Nat) : t.core c = s.core c := by rw [State.core, h, State.core]
  exact ⟨hcur, hcyc, hmer, hw, hwait, hfull, fun c => by rw [hcore c], fun c n => by rw [State.slot, hcore c, State.slot]⟩

theorem of_touched {w : Nat} (h : Touched w s t) : ThreadsKept s t := by
  have hd := h.device
  refine ⟨by rw [hd], by rw [hd], by rw [hd], by rw [hd], by rw [hd], by rw [hd], fun c => ?_, fun c n => ?_⟩
  · conv_lhs => rw [h.core c]
    rw [h.core c]
  · have : t.slot c n = s.slot c n := by rw [State.slot, h.core c]; rfl
    rw [this]

/-- A core with another value in the fields that may change, whichever. -/
theorem of_core {k k' : Core} {l1 : List L1Line} {fills : List Fill} {evcnt : Vector W64 8} {sb : List SbEntry} {slots : Sparse Slot}
    {cache : Sparse CtxEntry} (h : k' = { k with l1 := l1, fills := fills, evcnt := evcnt, sb := sb, slots := slots, cache := cache }) :
    k' = { k with tlb := k'.tlb, capCache := k'.capCache, l1 := k'.l1, fills := k'.fills, evcnt := k'.evcnt, sb := k'.sb
                  slots := k'.slots, cache := k'.cache } := by
  rw [h]

/-- A core changed in its caches, its counters and its store buffer. -/
theorem modCore {f : Core → Core} {c : Nat}
    (hf : ∀ k, f k = { k with l1 := (f k).l1, fills := (f k).fills, evcnt := (f k).evcnt, sb := (f k).sb }) : ThreadsKept s (s.modCore c f) := by
  refine ⟨rfl, rfl, rfl, rfl, rfl, rfl, fun d => ?_, fun d n => ?_⟩
  all_goals by_cases hd : c = d
  · subst hd
    rw [State.modCore_core]
    exact of_core (hf _)
  · rw [State.modCore_core_of_ne _ _ hd]
  · subst hd
    have : (s.modCore c f).slot c n = s.slot c n := by rw [State.slot, State.modCore_core, hf]; rfl
    rw [this]
  · have : (s.modCore c f).slot d n = s.slot d n := by rw [State.slot, State.modCore_core_of_ne _ _ hd, State.slot]
    rw [this]

/-- A slot changed in its watches and in what it holds. -/
theorem modSlot {f : Slot → Slot} {c n : Nat} (hf : ∀ sl, f sl = { sl with watch := (f sl).watch, held := (f sl).held }) :
    ThreadsKept s (s.modSlot c n f) := by
  refine ⟨rfl, rfl, rfl, rfl, rfl, rfl, fun d => ?_, fun d m => ?_⟩
  · by_cases hd : c = d
    · subst hd
      exact of_core (s.modCore_core c (·.modSlot n f))
    · rw [show (s.modSlot c n f).core d = s.core d from State.modCore_core_of_ne s (·.modSlot n f) hd]
  · by_cases hd : c = d ∧ n = m
    · obtain ⟨rfl, rfl⟩ := hd
      rw [State.modSlot_slot]
      exact hf _
    · have : (s.modSlot c n f).slot d m = s.slot d m := by
        by_cases hc : c = d
        · subst hc
          exact State.modSlot_slot_of_ne s c f fun h => hd ⟨rfl, h.symm⟩
        · rw [State.slot, show (s.modSlot c n f).core d = s.core d from State.modCore_core_of_ne s (·.modSlot n f) hc, State.slot]
      rw [this]

theorem foldl {α : Type} {f : State → α → State} (h : ∀ s a, ThreadsKept s (f s a)) (xs : List α) (s : State) :
    ThreadsKept s (xs.foldl f s) := by
  induction xs generalizing s with
  | nil => exact refl s
  | cons x xs ih => exact (h s x).trans (ih _)

section
variable (s : State)

theorem setBank (l : Nat) (v : Bank) : ThreadsKept s (s.setBank l v) := of_eq rfl rfl rfl rfl rfl rfl rfl

theorem triggerWatches (uid : Nat) (locs : List Nat) : ThreadsKept s (s.triggerWatches uid locs) := by
  have hcore (c : Nat) := get_mapValues_cases (d := Core.init) (fun k => { k with
    slots := k.slots.map fun q => (q.1, q.2.trigger uid locs), cache := k.cache.map fun q => (q.1, q.2.trigger uid locs s.cycle) }) s.cores c
  have htrig (sl : Slot) : sl.trigger uid locs = { sl with watch := (sl.trigger uid locs).watch, held := (sl.trigger uid locs).held } := by
    unfold Slot.trigger
    split <;> rfl
  refine ⟨rfl, rfl, rfl, rfl, rfl, rfl, fun c => ?_, fun c n => ?_⟩
  · obtain h | ⟨h, h'⟩ := hcore c
    · exact of_core h
    · exact of_core (h'.trans h.symm)
  · obtain h | ⟨h, h'⟩ := hcore c
    · have hs : (s.triggerWatches uid locs).slot c n = Sparse.get Slot.init ((s.core c).slots.map fun q => (q.1, q.2.trigger uid locs)) n :=
        congrArg (Core.slot · n) h
      obtain k | ⟨k, k'⟩ := get_mapValues_cases (d := Slot.init) (fun sl => sl.trigger uid locs) (s.core c).slots n
      · rw [show (s.triggerWatches uid locs).slot c n = (s.slot c n).trigger uid locs from hs.trans k]
        exact htrig (s.slot c n)
      · rw [hs, k', State.slot, Core.slot, k]
    · have hs : (s.triggerWatches uid locs).slot c n = s.slot c n := congrArg (Core.slot · n) (h'.trans h.symm)
      rw [hs]

theorem performWrite (core uid world : Nat) (pin : Nat → Option Nat) (cells : List Host.Cell) :
    ThreadsKept s (s.performWrite core uid world pin cells) := by
  unfold State.performWrite
  split
  · exact refl s
  · obtain ⟨l2, msc, keys, bad, h⟩ := ownLines_frame core world pin (hbmLines cells) s
    dsimp only
    rw [h]
    refine after (triggerWatches ..) (after (modCore fun _ => rfl) ?_)
    exact of_eq (by simp) (by simp) (by simp) (by simp) (by simp) (by simp) (by simp)

theorem landEntry (core : Nat) (e : SbEntry) : ThreadsKept s (s.landEntry core e) := after (performWrite ..) (modCore fun _ => rfl)

theorem performNext (core : Nat) (e : SbEntry) : ThreadsKept s (State.performNext core s e) := by
  unfold State.performNext State.performEntry
  split
  · exact refl s
  · split
    · exact after (setBank ..) (modCore fun _ => rfl)
    · exact landEntry ..

theorem performWord (core n loc : Nat) : ThreadsKept s (s.performWord core n loc) := foldl (fun t e => performNext t core e) _ s

theorem performSlot (core n : Nat) : ThreadsKept s (s.performSlot core n) := foldl (fun t e => performNext t core e) _ s

theorem performDeferred (loc : Nat) (d : Deferred) : ThreadsKept s (State.performDeferred loc s d) := by
  unfold State.performDeferred
  split
  · exact setBank ..
  · exact landEntry ..

theorem releaseWord (loc : Nat) : ThreadsKept s (s.releaseWord loc) := by
  unfold State.releaseWord
  refine after (foldl (fun t d => performDeferred t loc d) _ _) ?_
  split
  · refine after (modSlot fun sl => ?_) (setBank ..)
    split <;> rfl
  · exact setBank ..

theorem revokeWord (loc : Nat) : ThreadsKept s (s.revokeWord loc) := by
  unfold State.revokeWord
  split
  · exact after (modCore fun _ => rfl) (releaseWord ..)
  · exact refl s

theorem lapse (loc : Nat) : ThreadsKept s (s.lapse loc) := by
  unfold State.lapse
  split
  · exact revokeWord ..
  · exact refl s

theorem landOwn (uid loc : Nat) : ThreadsKept s (s.landOwn uid loc) := by
  unfold State.landOwn
  split
  · exact after (foldl (fun t d => performDeferred t loc d) _ _) (setBank ..)
  · exact refl s

theorem bankRead (core loc : Nat) : ThreadsKept s (s.bankRead core loc) := by
  unfold State.bankRead
  split
  · exact modCore fun _ => rfl
  · exact refl s

end

/-! ## What a thread is after such work -/

variable (h : ThreadsKept s t)
include h

theorem slot_uid (c n : Nat) : (t.slot c n).uid = (s.slot c n).uid := by rw [h.slot c n]

theorem me_eq : t.me = { s.me with watch := t.me.watch, held := t.me.held } := by
  have := h.slot s.cur.core s.cur.slot
  rwa [State.me, h.cur_eq]

theorem me_uid : t.me.uid = s.me.uid := by rw [h.me_eq]
theorem core_world (c : Nat) : (t.core c).world = (s.core c).world := by rw [h.core c]
theorem portIn_eq (c n : Nat) : (t.core c).portIn n = (s.core c).portIn n := by rw [h.core c]; rfl
theorem portOut_eq (c n : Nat) : (t.core c).portOut n = (s.core c).portOut n := by rw [h.core c]; rfl
theorem myWorld_eq : t.myWorld = s.myWorld := by rw [State.myWorld, State.myCore, h.cur_eq, h.core_world]; rfl
theorem behind_eq : t.behind = s.behind := by rw [State.behind, h.me_eq, h.cur_eq]; rfl
theorem keyDead_eq (w : Nat) : t.keyDead w = s.keyDead w := by
  simp only [State.keyDead, State.world, h.meridian, h.worlds]
  rfl

end ThreadsKept

theorem Does.threadsKept {α : Type} {w : Nat} {m : M α} (h : Does (Touched w) m) : Does ThreadsKept m := fun s => .of_touched (h s)

theorem releaseAll_kept : Does ThreadsKept releaseAll :=
  have hR := ThreadsKept.carries
  .bind hR (.modify fun s => .performSlot s _ _) fun _ => .bind hR (.get hR) fun _ => .ite (fun _ => .block hR _) fun _ => .pure hR _

theorem releaseAt_kept (o : BitVec 2) (n : BitVec 3) : Does ThreadsKept (releaseAt o n) :=
  .ite (fun _ => releaseAll_kept) fun _ => .pure ThreadsKept.carries _

theorem ThreadsKept.issue_ok {α : Type} {m : M α} {x : α} {s t : State} (h : Does ThreadsKept m) (hm : m s.issue = .ok x t) :
    ThreadsKept s.issue t := h.ok hm

/-! ## A thread's request at a bank (R218, R219) -/

section
variable {s t u v : State} {pl : Place} {cap : Cap}

theorem State.who_core (s : State) : s.who.core = s.cur.core := rfl
theorem State.who_slot (s : State) : s.who.slot = s.cur.slot := rfl
theorem State.who_world (s : State) : s.who.world = s.myWorld := rfl

/-- The checks of a synchronising word change nothing but what the checks of an access do (R218). -/
theorem syncPlace_does (w : Who) (ea : W64) (kind : Kind) : Does (Touched w.world) (syncPlace w ea kind) := by
  have hR := Touched.carries w.world
  unfold syncPlace
  refine Does.when hR (fun _ => Does.trapAt hR _ _ _ _) fun _ => Does.when hR (fun _ => Does.trapXlate hR _ _ _) fun _ => ?_
  refine Does.bindOf hR (locate_does w ea _) (locate_gives w ea _) fun pl hpl => Does.bind hR (authorize_does w ea _) fun cap => ?_
  refine Does.bind hR (firewall_does w pl ea _) fun _ => Does.when hR (fun hs => lineIn_does w _ _ (isHbm_base (hpl hs))) fun _ => ?_
  exact Does.pure hR _

/-- A synchronising access stands at its bank with its thread as it issued. -/
theorem atBank_kept {ea : W64} {kind : Kind} {m : Mod} (h : atBank s ea kind m pl cap t) : ThreadsKept s.issue t := by
  obtain ⟨u, v, hrel, hc, rfl⟩ := h
  exact ((releaseAt_kept _ _).ok hrel).trans (((syncPlace_does s.who ea kind).threadsKept.ok hc).trans (.performWord v _ _ _))

theorem State.issue_uid (s : State) : s.issue.me.uid = s.me.uid := by rw [(State.issue_frame s).2.2]

theorem turnReq_kept (h : ThreadsKept s.issue t) (kind : TurnKind) (d : Reg) (value swap : W64) (m : Mod) (pl : Place) (pips : Nat) :
    turnReq kind d value swap m pl pips t = .ok (turnOf s kind d value swap m pl pips) t := by
  have hcur : t.cur = s.cur := by rw [h.cur_eq, State.issue_cur]
  have huid : t.me.uid = s.me.uid := by rw [h.me_uid, State.issue_uid]
  have hw : t.myWorld = s.myWorld := by rw [h.myWorld_eq, State.issue_myWorld]
  simp [turnReq, turnOf, hcur, huid, hw]

/-! ## Served at once, or in turn -/

theorem askTurn_atOnce {loc : Nat} {r : TurnReq} (h : atOnce (t.lapse loc) loc r) :
    askTurn loc r t = .ok () ((t.lapse loc).turnServe loc r) := by
  have h' : ((t.lapse loc).wordFree loc || (t.lapse loc).holdsWord r.uid loc) = true := by simpa using h
  simp only [askTurn, M.bind_apply, M.modify_apply, M.get_apply, h', if_true, M.set_apply]

theorem askTurn_waits {loc : Nat} {r : TurnReq} (h : ¬atOnce (t.lapse loc) loc r) :
    askTurn loc r t = .error (.wait (.turn loc)) ((t.lapse loc).enqueueTurn loc r) := by
  have h' : ((t.lapse loc).wordFree loc || (t.lapse loc).holdsWord r.uid loc) = false := by simpa using h
  simp only [askTurn, M.bind_apply, M.modify_apply, M.get_apply, h', Bool.false_eq_true, if_false, M.set_apply, M.throw_apply]

/-- An instruction whose last act is a request at a bank. -/
theorem run_asked {srcs : List Reg} {dst : Option Reg} {m : M Unit} {loc : Nat} {r : TurnReq} (hp : NoPort s srcs dst)
    (hm : m s.issue = askTurn loc r t) : run (waiting srcs dst m) s = .next (asked t loc r) := by
  by_cases h : atOnce (t.lapse loc) loc r
  · rw [asked, if_pos h]
    exact run_waiting hp (hm.trans (askTurn_atOnce h))
  · rw [asked, if_neg h, run, waiting, withPorts_of_noPort _ hp.issue]
    simp [hm, askTurn_waits h, Wait.reruns]

/-! ## A word given on -/

/-- A word with no store at its bank is given on: its holder knows of it no longer, and nothing else of the bank or of memory changes. -/
theorem State.releaseWord_idle {loc : Nat} (h : (s.bank loc).deferred = []) :
    ((s.releaseWord loc).bank loc).holder = none ∧ ((s.releaseWord loc).bank loc).queue = (s.bank loc).queue ∧
      (s.releaseWord loc).mem = s.mem := by
  unfold State.releaseWord
  dsimp only
  rw [h]
  cases hh : (s.bank loc).holder <;> simp [State.bank, State.setBank]

end

end Sys2Proof.Machine
end

section
/-! Fused atomics (R218, R219, R224). -/

-- One declaration after another: checked side by side, these take more threads than the memory of the check holds.
set_option Elab.async false

namespace Sys2Proof.Machine

open Sys2Proof.Claims

/-! ## An FP32 sum is a pattern of 32 bits -/

theorem lt_two_pow_bitLen (m : Nat) : m < 2 ^ bitLen m := by
  unfold bitLen
  split
  · next h => simp [h]
  · exact Nat.lt_log2_self

/-- What is rounded at the last of p bits, or above it, has p bits, or is the next power of two. -/
theorem roundAt_le {rm : Rm} {neg : Bool} {m p : Nat} {e ex : Int} (h : e + bitLen m - p ≤ ex) : (roundAt rm neg m e ex).1 ≤ 2 ^ p := by
  have hm := lt_two_pow_bitLen m
  unfold roundAt
  split
  · have hp : bitLen m + (e - ex).toNat ≤ p := by omega
    calc m * 2 ^ (e - ex).toNat ≤ 2 ^ bitLen m * 2 ^ (e - ex).toNat := Nat.mul_le_mul_right _ (Nat.le_of_lt hm)
      _ = 2 ^ (bitLen m + (e - ex).toNat) := (Nat.pow_add ..).symm
      _ ≤ 2 ^ p := Nat.pow_le_pow_right (by decide) hp
  · have hq : m / 2 ^ (ex - e).toNat < 2 ^ p := by
      rw [Nat.div_lt_iff_lt_mul (Nat.two_pow_pos _), ← Nat.pow_add]
      exact Nat.lt_of_lt_of_le hm (Nat.pow_le_pow_right (by decide) (by omega))
    dsimp only
    split <;> omega

theorem Fmt.fp32_sign_le (neg : Bool) : Fmt.fp32.sign neg ≤ 2 ^ 31 := by cases neg <;> decide

/-- A number rounded to FP32 is a pattern of 32 bits. -/
theorem Fmt.fp32_round_lt (rm : Rm) (neg : Bool) (m : Nat) (e : Int) (sticky : Bool) :
    (Fmt.fp32.round rm false neg m e sticky).bits < 2 ^ 32 := by
  have hs := Fmt.fp32_sign_le neg
  have hmax : Fmt.fp32.maxFinite = (2 ^ 24 - 1, 104) := by decide
  have hbits : Fmt.fp32.maxBits < 2 ^ 31 ∧ Fmt.fp32.infBits < 2 ^ 31 := by decide
  have hq (ex : Int) (h : e - 2 + bitLen (m * 4 + boolNat sticky) - 24 ≤ ex) := roundAt_le (rm := rm) (neg := neg) h
  unfold Fmt.round
  simp only [hmax]
  generalize hx : max (e - 2 + (bitLen (m * 4 + boolNat sticky) : Int) - ((Fmt.fp32.mw + 1 : Nat) : Int)) _ = ex
  have hex : e - 2 + bitLen (m * 4 + boolNat sticky) - 24 ≤ ex := by
    rw [← hx]
    exact le_max_left _ _
  have hq := hq ex hex
  generalize hr : roundAt rm neg (m * 4 + boolNat sticky) (e - 2) ex = r at hq
  obtain ⟨q, b⟩ := r
  have hq : q ≤ 2 ^ 24 := hq
  have hmw : Fmt.fp32.mw = 23 ∧ Fmt.fp32.bias = 127 := ⟨rfl, rfl⟩
  simp only [hmw.1, hmw.2, Bool.false_eq_true, if_false]
  split
  · split <;> split <;> (dsimp only; omega)
  · next hfit =>
    have hfit : 104 ≤ ex → q * 2 ^ (ex - 104).toNat ≤ 2 ^ 24 - 1 := by simpa using hfit
    split
    · dsimp only; omega
    · next hge =>
      have hle : ex ≤ 104 := by
        by_contra hlt
        have h2 : 2 ≤ 2 ^ (ex - 104).toNat := Nat.le_self_pow (by omega) 2
        have := hfit (by omega)
        have := Nat.mul_le_mul (Nat.le_of_not_lt hge) h2
        omega
      split
      · next hq' =>
        have : ex < 104 := by
          by_contra hn
          have : ex = 104 := by omega
          subst this
          have := hfit (le_refl _)
          simp at this
          omega
        dsimp only
        omega
      · dsimp only; omega

/-- A sum delivered in FP32 is a pattern of 32 bits. -/
theorem addFp32_bits_lt (a b : Nat) : (addFp32 a b).bits < 2 ^ 32 := by
  have hs (neg : Bool) : Fmt.fp32.sign neg ≤ 2 ^ 31 := Fmt.fp32_sign_le neg
  have hinf : Fmt.fp32.noInf = false ∧ Fmt.fp32.infBits < 2 ^ 31 ∧ Fmt.fp32.canonNan < 2 ^ 32 := by decide
  unfold addFp32 roundFp32
  generalize Fp.add _ _ _ = x
  obtain ⟨x, f⟩ := x
  cases x with
  | nan => exact hinf.2.2
  | inf neg =>
    have := hs neg
    simp only [Fmt.deliver, hinf.1, Bool.false_eq_true, if_false]
    omega
  | zero neg => exact Nat.lt_of_le_of_lt (hs neg) (by decide)
  | fin neg m e => exact Fmt.fp32_round_lt _ _ _ _ _

/-! ## What a fused atomic writes (R224) -/

theorem w64_join {hi lo : Nat} (h : lo < 2 ^ 32) : w64 (hi * 2 ^ 32 + lo) = BitVec.ofNat 32 hi ++ BitVec.ofNat 32 lo := by
  apply BitVec.eq_of_toNat_eq
  rw [BitVec.toNat_append, BitVec.toNat_ofNat, BitVec.toNat_ofNat, Nat.mod_eq_of_lt h, Nat.shiftLeft_eq, Nat.mul_comm (hi % 2 ^ 32),
    ← Nat.two_pow_add_eq_or_of_lt h, w64, BitVec.toNat_ofNat]
  omega

theorem extractLsb'_eq_fld (v : W64) (lo n : Nat) : v.extractLsb' lo n = BitVec.ofNat n (fld v lo n) := by
  apply BitVec.eq_of_toNat_eq
  simp [fld, Nat.shiftRight_eq_div_pow]

/-- The function of each fused atomic, as its mnemonic says it. -/
theorem atomicOp_fusedOps : ∀ q ∈ fusedOps, ∀ old v b, atomicOp q.2.1 old v b = q.2.2 old v := by
  intro q hq old v b
  simp only [fusedOps, List.mem_cons, List.not_mem_nil, or_false] at hq
  obtain rfl | rfl | rfl | rfl | rfl | rfl | rfl | rfl | rfl | rfl := hq
  case inr.inr.inr.inr.inl => simp [atomicOp, BitVec.slt]
  case inr.inr.inr.inr.inr.inl => simp [atomicOp, BitVec.slt]
  case inr.inr.inr.inr.inr.inr.inr.inr.inr =>
    dsimp only
    rw [extractLsb'_eq_fld, ← w64_join (addFp32_bits_lt _ _)]
    simp [atomicOp, fld]
  all_goals rfl

/-! ## Served at its bank (R219, R224) -/

section
variable {s t : State} {d a : Reg} {m : Mod} {pl : Place} {cap : Cap} {loc fn : Nat} {r : TurnReq}

/-- A fused atomic up to its bank, whatever its function, with the register that ACAS names. -/
theorem run_fused {b : Option Reg} (hp : NoPort s ([d, a] ++ b.toList) (some d)) (h : atBank s (s.src a) .atomic m pl cap t) :
    run (fused fn d a b m) s =
      .next (asked t pl.loc (turnOf s (.atomic fn) d (s.src d) ((b.map s.src).getD 0) m pl cap.charge)) := by
  have hkept := atBank_kept h
  obtain ⟨u, v, hrel, hc, rfl⟩ := h
  refine run_asked hp ?_
  have hreq (x : W64) := turnReq_kept hkept (.atomic fn) d (s.src d) x m pl cap.charge
  cases b <;> simp only [Option.map, Option.getD, M.bind_apply, M.pure_apply, M.modify_apply, rd_apply, whoMe_apply, State.issue_src, State.issue_who,
    hrel, hc,
    State.who_core, State.who_slot, hreq]

theorem exec_fusedOps {q : (Reg → Reg → Mod → Instr) × Nat × (W64 → W64 → W64)} (hq : q ∈ fusedOps) (d a : Reg) (m : Mod) :
    exec (q.1 d a m) = run (fused q.2.1 d a none m) := by
  simp only [fusedOps, List.mem_cons, List.not_mem_nil, or_false] at hq
  obtain rfl | rfl | rfl | rfl | rfl | rfl | rfl | rfl | rfl | rfl := hq
  iterate 10 rfl

theorem turnServe_atomic (hk : r.kind = .atomic fn) : s.turnServe loc r =
    ((((((s.bankRead r.core loc).grantAcquire r).turnWrite loc r (atomicOp fn (((s.bankRead r.core loc).grantAcquire r).word64 loc)
      r.value r.swap)).writeReg r.core r.slot r.reg (((s.bankRead r.core loc).grantAcquire r).word64 loc)).chargeSlot r.core r.slot
      r.pips).releaseWord loc) := by
  unfold State.turnServe
  simp only [hk]
  rfl

theorem ThreadsKept.grantAcquire (s : State) (r : TurnReq) : ThreadsKept s (s.grantAcquire r) := by
  unfold State.grantAcquire
  split
  · exact modCore fun _ => rfl
  · exact refl s

/-- The read at the bank and the acquire of a grant change no byte and no bank. -/
theorem State.grantRead_frame (s : State) (r : TurnReq) (loc : Nat) :
    ((s.bankRead r.core loc).grantAcquire r).mem = s.mem ∧ ((s.bankRead r.core loc).grantAcquire r).banks = s.banks := by
  unfold State.grantAcquire State.bankRead
  split_ifs <;> exact ⟨rfl, rfl⟩

theorem State.writeReg_banks (s : State) (c n : Nat) (r : Reg) (v : W64) : (s.writeReg c n r v).banks = s.banks := by
  unfold State.writeReg
  split_ifs <;> rfl

theorem State.performWrite_banks (s : State) (c uid w : Nat) (pin : Nat → Option Nat) (cells : List Host.Cell) :
    (s.performWrite c uid w pin cells).banks = s.banks := by
  obtain ⟨_, _, _, _, _, h⟩ := s.performWrite_frame c uid w pin cells
  rw [h]

theorem State.turnWrite_mem {s : State} (h : s.keyDead r.world = false) (loc : Nat) (v : W64) :
    (s.turnWrite loc r v).mem = (s.setBytes loc (natToLe 8 v.toNat)).mem := by
  rw [turnWrite, State.performWrite_mem, h, State.setCells_cellsAt]
  rfl

/-- The register that a request writes holds the value once it has been written there, if it is no port. -/
theorem State.writeReg_slot_reg {s : State} {c n : Nat} {q : Reg} (v : W64) (h0 : q ≠ 0)
    (hqi : ¬((s.core c).portIn n = true ∧ q = qi)) (hqo : ¬((s.core c).portOut n = true ∧ q = qo)) :
    ((s.writeReg c n q v).slot c n).reg q = v := by
  rw [State.writeReg_register v (fun h => hqi h.symm) (fun h => hqo h.symm), State.modSlot_slot, Slot.setReg_reg v h0]

theorem ThreadsKept.slot_reg (h : ThreadsKept s t) (c n : Nat) (q : Reg) : (t.slot c n).reg q = (s.slot c n).reg q := by
  rw [h.slot c n]
  rfl

/-- A fused atomic served: its word, every other byte, the word given on, and its register. -/
theorem served_atomic (hk : r.kind = .atomic fn) (hdef : (s.bank loc).deferred = []) (hkey : s.keyDead r.world = false) :
    (s.turnServe loc r).word64 loc = atomicOp fn (s.word64 loc) r.value r.swap ∧
      (∀ l, (l < loc ∨ loc + 8 ≤ l) → (s.turnServe loc r).byte l = s.byte l) ∧ ((s.turnServe loc r).bank loc).holder = none ∧
      (r.reg ≠ 0 → ¬((s.core r.core).portIn r.slot = true ∧ r.reg = qi) → ¬((s.core r.core).portOut r.slot = true ∧ r.reg = qo) →
        ((s.turnServe loc r).slot r.core r.slot).reg r.reg = s.word64 loc) := by
  rw [turnServe_atomic hk]
  obtain ⟨hmem, hbanks⟩ := s.grantRead_frame r loc
  have hkept : ThreadsKept s ((s.bankRead r.core loc).grantAcquire r) := .after (.grantAcquire _ r) (.bankRead s _ _)
  generalize (s.bankRead r.core loc).grantAcquire r = u at hmem hbanks hkept ⊢
  have hw : ThreadsKept s (u.turnWrite loc r (atomicOp fn (u.word64 loc) r.value r.swap)) := .after (.performWrite ..) hkept
  have hwm := State.turnWrite_mem (s := u) (r := r) (by rw [hkept.keyDead_eq, hkey]) loc (atomicOp fn (u.word64 loc) r.value r.swap)
  have hwb : (u.turnWrite loc r (atomicOp fn (u.word64 loc) r.value r.swap)).banks = s.banks :=
    (State.performWrite_banks ..).trans hbanks
  rw [State.word64_of_mem hmem] at *
  generalize u.turnWrite loc r (atomicOp fn (s.word64 loc) r.value r.swap) = v at hw hwm hwb ⊢
  obtain ⟨hholder, -, hrel⟩ := State.releaseWord_idle (s := ((v.writeReg r.core r.slot r.reg (s.word64 loc)).chargeSlot r.core r.slot r.pips))
    (loc := loc) (by rw [State.bank, State.chargeSlot_banks, State.writeReg_banks, hwb]; exact hdef)
  have hfin : (((v.writeReg r.core r.slot r.reg (s.word64 loc)).chargeSlot r.core r.slot r.pips).releaseWord loc).mem =
      (u.setBytes loc (natToLe 8 (atomicOp fn (s.word64 loc) r.value r.swap).toNat)).mem := by
    rw [hrel, State.chargeSlot_mem, State.writeReg_mem, hwm]
  refine ⟨?_, fun l hl => ?_, hholder, fun h0 hqi hqo => ?_⟩
  · rw [State.word64_of_mem hfin, State.word64_setBytes]
  · rw [State.byte_of_mem hfin, State.byte_setBytes_of_not (by rwa [natToLe_length]), State.byte_of_mem hmem]
  · rw [(ThreadsKept.releaseWord _ loc).slot_reg, State.chargeSlot_slot]
    exact State.writeReg_slot_reg _ h0 (by rwa [hw.portIn_eq]) (by rwa [hw.portOut_eq])

end

/-- Settles O32: the instruction asks its bank, and a request served there writes, answers and gives the word on. -/
theorem fusedAtomics : Obligations.FusedAtomics := by
  refine ⟨fun q hq s t d a m pl cap hp h => ?_, fun s t d a b m pl cap hp h => ?_, atomicOp_fusedOps, fun _ _ _ => rfl,
    fun s loc fn r hk hdef hkey => served_atomic hk hdef hkey⟩
  · rw [exec_fusedOps hq]
    exact run_fused (b := none) hp h
  · exact run_fused (b := some b) hp h

end Sys2Proof.Machine
end

section
/-! Reservations (R220 to R222, R191). -/

-- One declaration after another: checked side by side, these take more threads than the memory of the check holds.
set_option Elab.async false

namespace Sys2Proof.Machine

open Sys2Proof.Claims

section
variable {s t u : State} {d a : Reg} {m : Mod} {pl : Place} {cap : Cap} {loc : Nat} {r : TurnReq}

/-! ## RSV (R220) -/

/-- What RSV does at its word's bank. -/
def rsvAtBank (d : Reg) (m : Mod) (pl : Place) (cap : Cap) : M Unit := do
  let s ← get
  if s.holdsWord s.me.uid pl.loc then rsvAgain d m pl.loc cap
  else
    match s.me.held with
    | oldest :: rest => if rest.length ≥ 3 then set (s.revokeWord oldest)
    | [] => pure ()
    askTurn pl.loc (← turnReq .rsv d 0 0 m pl cap.charge)

/-- RSV from its checks on. -/
def rsvBody (d a : Reg) (m : Mod) : M Unit := do
  let ea ← rd a
  let w ← whoMe
  releaseAt m.order m.scope
  let (pl, cap) ← syncPlace w ea .atomic
  modify fun s => (s.performWord w.core w.slot pl.loc).lapse pl.loc
  rsvAtBank d m pl cap

theorem exec_rsv (d a : Reg) (m : Mod) : exec (.rsv d a m) = run (waiting [a] (some d) (rsvBody d a m)) := rfl

theorem rsvBody_apply (h : atBank s (s.src a) .atomic m pl cap t) : rsvBody d a m s.issue = rsvAtBank d m pl cap (t.lapse pl.loc) := by
  obtain ⟨v, w, hrel, hc, rfl⟩ := h
  simp only [rsvBody, M.bind_apply, M.modify_apply, rd_apply, whoMe_apply, State.issue_src, State.issue_who, hrel, hc, State.who_core,
    State.who_slot]

theorem State.acquired_mem (s : State) (o : BitVec 2) (n : Nat) : (s.acquired o n).mem = s.mem := by
  unfold State.acquired
  split <;> rfl

/-- The word is the thread's already. -/
theorem rsvAtBank_held (h : t.holdsWord t.me.uid pl.loc = true) : rsvAtBank d m pl cap t =
    .ok () ((((t.bankRead t.cur.core pl.loc).acquired m.order m.scope.toNat).writeMine d
      (((t.bankRead t.cur.core pl.loc).acquired m.order m.scope.toNat).word64 pl.loc)).chargeOnce cap) := by
  simp only [rsvAtBank, rsvAgain, M.bind_apply, M.get_apply, h, if_true, M.modify_apply, acquireOf_apply, wr_apply, chargeCap_apply]

/-- The word is asked for; the oldest reservation of four is given up first. -/
theorem rsvAtBank_asks (hk : ThreadsKept s.issue t) (h : t.holdsWord t.me.uid pl.loc = false) :
    rsvAtBank d m pl cap t = askTurn pl.loc (turnOf s .rsv d 0 0 m pl cap.charge)
      (if 4 ≤ t.me.held.length then t.revokeWord (t.me.held.headD 0) else t) := by
  simp only [rsvAtBank, M.bind_apply, M.get_apply, h, Bool.false_eq_true, if_false]
  cases hh : t.me.held with
  | nil => simp [turnReq_kept hk]
  | cons w rest =>
    by_cases h3 : 3 ≤ rest.length
    · simp [h3, turnReq_kept (hk.trans (.revokeWord t w))]
    · simp [h3, turnReq_kept hk]

/-! ## A reservation granted -/

theorem turnServe_rsv (hk : r.kind = .rsv) : ∃ u v, u = (s.bankRead r.core loc).grantAcquire r ∧
    v = u.writeReg r.core r.slot r.reg ((s.bankRead r.core loc).word64 loc) ∧ s.turnServe loc r =
      ((v.setBank loc { v.bank loc with holder := some ⟨r.core, r.slot, r.uid⟩, grantedAt := (s.bankRead r.core loc).cycle }).modSlot
        r.core r.slot fun sl => { sl with held := sl.held ++ [loc] }).chargeSlot r.core r.slot r.pips := by
  refine ⟨_, _, rfl, rfl, ?_⟩
  unfold State.turnServe
  simp only [hk]
  rfl

theorem State.writeReg_held (s : State) (c n : Nat) (q : Reg) (v : W64) : ((s.writeReg c n q v).slot c n).held = (s.slot c n).held := by
  unfold State.writeReg
  split_ifs
  · rfl
  · exact congrArg Slot.held (State.modCore_inq_slot s _ c n (· ++ [v]))
  · rw [State.modSlot_slot, Slot.setReg_held]

theorem State.modCore_slot_of_slots (s : State) {f : Core → Core} (hf : ∀ k, (f k).slots = k.slots) (c d n : Nat) :
    (s.modCore c f).slot d n = s.slot d n := by
  by_cases h : c = d
  · subst h
    rw [State.slot, State.modCore_core, Core.slot, hf]
    rfl
  · rw [State.slot, State.modCore_core_of_ne _ _ h, State.slot]

theorem State.bankRead_mem (s : State) (c loc : Nat) : (s.bankRead c loc).mem = s.mem := by
  unfold State.bankRead
  split <;> rfl

/-- The read at the bank and the acquire of a grant change no slot. -/
theorem State.grantRead_slot (s : State) (r : TurnReq) (loc : Nat) {c n : Nat} :
    ((s.bankRead r.core loc).grantAcquire r).slot c n = s.slot c n := by
  unfold State.grantAcquire State.bankRead
  have hinv (t : State) : (t.modCore r.core (·.invalidateL1)).slot c n = t.slot c n :=
    t.modCore_slot_of_slots (f := (·.invalidateL1)) (fun _ => rfl) ..
  have hread : (s.modCore r.core fun c => (c.patchL1 (cellsAt loc (s.bytes loc 8))).cancelFills (loc / 64)).slot c n = s.slot c n :=
    s.modCore_slot_of_slots (f := fun c => (c.patchL1 (cellsAt loc (s.bytes loc 8))).cancelFills (loc / 64)) (fun _ => rfl) ..
  split_ifs
  · rw [hinv, hread]
  · rw [hinv]
  · rw [hread]
  · rfl

/-- A grant changes no byte; the requester holds the word from now on, with its value in the register. -/
theorem served_rsv (hk : r.kind = .rsv) : (s.turnServe loc r).mem = s.mem ∧
    ((s.turnServe loc r).bank loc).holder = some ⟨r.core, r.slot, r.uid⟩ ∧ ((s.turnServe loc r).bank loc).grantedAt = s.cycle ∧
    ((s.turnServe loc r).slot r.core r.slot).held = (s.slot r.core r.slot).held ++ [loc] ∧
    (r.reg ≠ 0 → ¬((s.core r.core).portIn r.slot = true ∧ r.reg = qi) → ¬((s.core r.core).portOut r.slot = true ∧ r.reg = qo) →
      ((s.turnServe loc r).slot r.core r.slot).reg r.reg = s.word64 loc) := by
  obtain ⟨u, v, hu, hv, he⟩ := turnServe_rsv (s := s) (loc := loc) hk
  obtain ⟨hmem, hbanks⟩ := s.grantRead_frame r loc
  have hkept : ThreadsKept s u := hu ▸ .after (.grantAcquire _ r) (.bankRead s _ _)
  have hslot : u.slot r.core r.slot = s.slot r.core r.slot := hu ▸ s.grantRead_slot r loc
  rw [he]
  refine ⟨?_, ?_, ?_, ?_, fun h0 hqi hqo => ?_⟩
  · rw [State.chargeSlot_mem, State.modSlot_mem, State.setBank_mem, hv, State.writeReg_mem, hu, hmem]
  · rw [State.bank, State.chargeSlot_banks, State.modSlot_banks, ← State.bank, State.setBank_bank]
  · rw [State.bank, State.chargeSlot_banks, State.modSlot_banks, ← State.bank, State.setBank_bank]
    exact (ThreadsKept.bankRead s r.core loc).cycle
  · rw [State.chargeSlot_slot, State.modSlot_slot]
    change (v.slot r.core r.slot).held ++ [loc] = _
    rw [hv, State.writeReg_held, hslot]
  · rw [State.chargeSlot_slot, State.modSlot_slot]
    change (v.slot r.core r.slot).reg r.reg = _
    rw [hv, State.writeReg_slot_reg _ h0 (by rwa [hkept.portIn_eq]) (by rwa [hkept.portOut_eq])]
    exact State.word64_of_mem (s.bankRead_mem r.core loc) loc

/-! ## RLS and RLSN (R221) -/

/-- RLS and RLSN at their word's bank. -/
def rlsAtBank (w : Who) (pl : Place) (cap : Cap) (m : Mod) (x : Option W64) : M Unit := do
  let s ← get
  if s.holdsWord s.me.uid pl.loc then endReservation w pl x else modMe (·.setPred 7 false)
  acquireOf m.order m.scope
  chargeCap cap

/-- RLS and RLSN from their release on. -/
def rlsBody (a : Reg) (m : Mod) (x : Option W64) : M Unit := do
  let ea ← rd a
  let w ← whoMe
  releaseOthers m
  let (pl, cap) ← syncPlace w ea .atomic
  modify fun s => ((s.performWord w.core w.slot pl.loc).lapse pl.loc).landOwn s.me.uid pl.loc
  rlsAtBank w pl cap m x

theorem exec_rls (d a : Reg) (m : Mod) : exec (.rls d a m) = run (waiting [d, a] none (rd d >>= fun x => rlsBody a m (some x))) := rfl
theorem exec_rlsn (a : Reg) (m : Mod) : exec (.rlsn a m) = run (waiting [a] none (rlsBody a m none)) := rfl

theorem rlsBody_apply (h : atRelease s (s.src a) m pl cap t) (x : Option W64) :
    rlsBody a m x s.issue = rlsAtBank s.who pl cap m x t := by
  obtain ⟨v, w, hrel, hc, rfl⟩ := h
  simp only [rlsBody, M.bind_apply, M.modify_apply, rd_apply, whoMe_apply, State.issue_src, State.issue_who, hrel, hc, State.who_core,
    State.who_slot]

/-- The store of RLS at its bank. -/
def State.landReleased (t : State) (w : Who) (pl : Place) (x : Option W64) : State :=
  match x with
  | some v => t.performWrite w.core t.me.uid w.world (fun _ => pl.pin) (cellsAt pl.loc (natToLe 8 v.toNat))
  | none => t

theorem rlsAtBank_held {w : Who} {x : Option W64} (h : t.holdsWord t.me.uid pl.loc = true) : rlsAtBank w pl cap m x t =
    .ok () (((((t.landReleased w pl x).releaseWord pl.loc).modMe (·.setPred 7 true)).acquired m.order m.scope.toNat).chargeOnce cap) := by
  simp only [rlsAtBank, endReservation, M.bind_apply, M.get_apply, h, if_true, M.modify_apply, acquireOf_apply, chargeCap_apply]
  cases x <;> rfl

theorem rlsAtBank_free {w : Who} {x : Option W64} (h : t.holdsWord t.me.uid pl.loc = false) : rlsAtBank w pl cap m x t =
    .ok () (((t.modMe (·.setPred 7 false)).acquired m.order m.scope.toNat).chargeOnce cap) := by
  simp only [rlsAtBank, M.bind_apply, M.get_apply, h, Bool.false_eq_true, if_false, modMe_apply, acquireOf_apply, chargeCap_apply]

/-! ## Revoked, and given to the next (R219, R222) -/

theorem exec_reservationTimeout {h : Holder} (hh : (s.bank loc).holder = some h) (hlate : (s.bank loc).grantedAt + 4096 ≤ s.cycle) :
    exec (.reservationTimeout loc) s = .next ((s.releaseWord loc).modCore h.core (·.tally 0x22 h.slot 1)) := by
  change event (reservationTimeout loc) s = _
  have hlapse : s.lapse loc = (s.releaseWord loc).modCore h.core (·.tally 0x22 h.slot 1) := by
    simp [State.lapse, State.revokeWord, hh, hlate]
  simp [event, reservationTimeout, hh, hlate, hlapse]

theorem exec_reservationGrant {rest : List TurnReq} (hq : (s.bank loc).queue = r :: rest) (hfree : (s.bank loc).holder = none)
    (hlock : r.kind = .texit → s.unitsLocked r.core r.slot = false) : exec (.reservationGrant loc) s =
      .next (((s.setBank loc { s.bank loc with queue := rest }).turnServe loc r).afterGrant r) := by
  have hgo : ((s.bank loc).holder.isNone && !(decide (r.kind = .texit) && s.unitsLocked r.core r.slot)) = true := by
    by_cases hk : r.kind = .texit <;> simp [hfree, hk, hlock]
  change event (reservationGrant loc) s = _
  simp only [event, reservationGrant, M.bind_apply, M.get_apply, hq, hgo, require, if_true, M.pure_apply, M.set_apply]

end

/-- Settles O33: a RSV asks, takes or reads at its word's bank; a word given back goes on to the next in its queue. -/
theorem reservations : Obligations.Reservations := by
  refine ⟨fun s t d a m pl cap hp h => ⟨fun hh => ?_, fun hh hlt => ?_, fun w rest hh hw h3 => ?_⟩, fun s loc r hk => served_rsv hk,
    fun s t d a m pl cap hp h => ⟨fun hh => ?_, fun hh => ?_⟩, fun s t a m pl cap hp h => ?_, fun s loc h => exec_reservationTimeout,
    fun s loc h => State.releaseWord_idle h, fun s t loc r rest hq hfree hlock ht => ?_⟩
  · have hl := ThreadsKept.lapse t pl.loc
    rw [← hl.me_uid] at hh
    rw [exec_rsv]
    refine run_waiting hp ?_
    rw [rsvBody_apply h, rsvAtBank_held hh, hl.cur_eq, (atBank_kept h).cur_eq, State.issue_cur,
      State.word64_of_mem ((State.acquired_mem ..).trans (State.bankRead_mem ..))]
  · have hl := ThreadsKept.lapse t pl.loc
    rw [← hl.me_uid] at hh
    rw [exec_rsv]
    refine run_asked hp ?_
    rw [rsvBody_apply h, rsvAtBank_asks ((atBank_kept h).trans hl) hh, if_neg (by omega)]
  · have hl := ThreadsKept.lapse t pl.loc
    rw [← hl.me_uid] at hh
    rw [exec_rsv]
    refine run_asked hp ?_
    rw [rsvBody_apply h, rsvAtBank_asks ((atBank_kept h).trans hl) hh, if_pos (by simp [hw]; omega), hw]
    rfl
  · rw [exec_rls]
    refine run_waiting hp ?_
    rw [M.bind_apply, rd_apply]
    dsimp only
    rw [rlsBody_apply h, rlsAtBank_held hh, State.issue_src]
    rfl
  · rw [exec_rls]
    refine run_waiting hp ?_
    rw [M.bind_apply, rd_apply]
    dsimp only
    rw [rlsBody_apply h, rlsAtBank_free hh]
  · rw [exec_rlsn]
    refine run_waiting hp ?_
    rw [rlsBody_apply h]
    by_cases hh : t.holdsWord t.me.uid pl.loc = true
    · rw [rlsAtBank_held hh, if_pos hh]
      rfl
    · rw [rlsAtBank_free (by simpa using hh), if_neg hh]
  · rw [exec_reservationGrant hq hfree hlock, ← ht]
    unfold State.afterGrant
    cases r.kind <;> rfl

end Sys2Proof.Machine
end

section
/-! Watched words, fences, waiting and waking by address (R226 to R228, R235 to R237). -/

-- One declaration after another: checked side by side, these take more threads than the memory of the check holds.
set_option Elab.async false

namespace Sys2Proof.Machine

open Sys2Proof.Claims

section
variable {s t u v e : State} {d a : Reg} {m : Mod} {pl : Place} {cap : Cap}

/-! ## An instruction that may park -/

theorem run_withPorts_ok {srcs : List Reg} {dst : Option Reg} {m : Bool → M Ctl} {c : Ctl} (hp : NoPort s srcs dst)
    (hm : m false s.issue = .ok c t) : run (withPorts srcs dst m) s = .next (settle (.ok c t)) := by
  rw [run, withPorts_of_noPort _ hp.issue, hm]

theorem run_withPorts_blocked {srcs : List Reg} {dst : Option Reg} {m : Bool → M Ctl} {b : Bool} (hp : NoPort s srcs dst)
    (hm : m false s.issue = .error (.wait (.blocked b)) t) : run (withPorts srcs dst m) s = .next (again s t (.blocked b)) := by
  rw [run, withPorts_of_noPort _ hp.issue, hm]
  simp [Wait.reruns, again]

theorem parkMe_apply (pc : W64) (p : Park) (again : Bool) (s : State) : parkMe pc p again s = .ok .gone (parked s pc p again) := rfl

/-! ## RSVW (R226) -/

theorem run_rsvw (hp : NoPort s [a] (some d)) (h : atBank s (s.src a) .read m pl cap t) : exec (.rsvw d a m) s =
    .next (((((((t.bankRead s.cur.core pl.loc).modMe fun sl => { sl with
      watch := (if 4 ≤ sl.watch.length then sl.watch.drop 1 else sl.watch) ++
        [if fld (s.src a) 61 3 = 6 then ⟨s.src a, pl.loc, 8, false⟩ else ⟨s.src a, pl.loc / 64 * 64, 64, false⟩] }).acquired m.order
      m.scope.toNat).writeMine d (t.word64 pl.loc)).chargeOnce cap)).finish) := by
  obtain ⟨u, v, hrel, hc, rfl⟩ := h
  refine run_waiting (srcs := [a]) (dst := some d) hp ?_
  simp only [M.bind_apply, M.modify_apply, M.get_apply, rd_apply, whoMe_apply, modMe_apply, acquireOf_apply, wr_apply, chargeCap_apply,
    State.issue_src, State.issue_who, hrel, hc, State.who_core, State.who_slot]
  rw [State.word64_of_mem ((State.acquired_mem ..).trans ((State.modMe_mem ..).trans (State.bankRead_mem ..)))]
  rfl

/-! ## WAITRS (R227) -/

theorem watchMask_bit (l : List Watch) (i : Nat) : (watchMask l).testBit i = (l[i]?.map (·.triggered)).getD false := by
  induction l generalizing i with
  | nil => simp [watchMask]
  | cons x l ih =>
    cases i with
    | zero => cases hx : x.triggered <;> simp [watchMask, boolNat, hx, Nat.testBit_zero]
    | succ i =>
      have hdiv : (boolNat x.triggered + 2 * watchMask l) / 2 = watchMask l := by
        cases x.triggered
        · simp [boolNat]
        · simp only [boolNat, if_true]
          omega
      rw [watchMask, Nat.testBit_succ, hdiv, ih]
      simp

theorem watchMask_eq_zero {l : List Watch} : watchMask l = 0 ↔ ∀ x ∈ l, x.triggered = false := by
  induction l with
  | nil => simp [watchMask]
  | cons x l ih => cases hx : x.triggered <;> simp [watchMask, boolNat, hx, ih]

/-- WAITRS after its operand is read. -/
def waitrsBody (d : Reg) (n : W64) : M Ctl := do
  let s ← get
  let me := s.me
  let lim := match me.limit with
    | some t => some t
    | none => if n = 0 then none else some (s.cycle + n.toNat)
  let late := match me.limit with
    | some t => decide (t ≤ s.cycle)
    | none => false
  if me.watch.isEmpty || watchMask me.watch ≠ 0 || late then
    modMe fun sl => { sl with watch := [] }
    wr d (w64 (watchMask me.watch))
    return .done
  else
    modMe fun sl => { sl with limit := lim }
    if s.cur.slot < 14 then parkMe me.pc (.watching lim) true else block false

theorem exec_waitrs (d a : Reg) : exec (.waitrs d a) = run (withPorts [a] (some d) fun _ => rd a >>= waitrsBody d) := rfl

theorem waitrs_apply (s : State) (d a : Reg) : (rd a >>= waitrsBody d) s.issue = waitrsBody d (s.src a) s.issue := by
  rw [M.bind_apply, rd_apply, State.issue_src]

theorem waitrsBody_answers (n : W64) (h : t.me.watch = [] ∨ (∃ x ∈ t.me.watch, x.triggered = true) ∨
    t.me.limit.any (fun k => decide (k ≤ t.cycle)) = true) :
    waitrsBody d n t = .ok .done ((t.modMe fun sl => { sl with watch := [] }).writeMine d (w64 (watchMask t.me.watch))) := by
  have hgo : (t.me.watch.isEmpty || decide (watchMask t.me.watch ≠ 0) || match t.me.limit with
    | some k => decide (k ≤ t.cycle)
    | none => false) = true := by
    obtain h | ⟨x, hx, ht⟩ | h := h
    · simp [h]
    · have : watchMask t.me.watch ≠ 0 := fun h0 => by simp [watchMask_eq_zero.mp h0 x hx] at ht
      simp [this]
    · cases hl : t.me.limit <;> simp_all
  simp only [waitrsBody, M.bind_apply, M.get_apply]
  rw [if_pos hgo]
  rfl

theorem waitrsBody_waits {n : W64} {lim : Option Nat} (hne : t.me.watch ≠ []) (hno : ∀ x ∈ t.me.watch, x.triggered = false)
    (hl : t.me.limit = none) (hlim : lim = if n = 0 then none else some (t.cycle + n.toNat)) : waitrsBody d n t =
      if t.cur.slot < 14 then .ok .gone (parked (t.modMe fun sl => { sl with limit := lim }) t.me.pc (.watching lim) true)
      else .error (.wait (.blocked false)) (t.modMe fun sl => { sl with limit := lim }) := by
  have hstop : ¬(t.me.watch.isEmpty || decide (watchMask t.me.watch ≠ 0) || false) = true := by
    simp [hne, watchMask_eq_zero.mpr hno]
  simp only [waitrsBody, M.bind_apply, M.get_apply, hl]
  rw [if_neg hstop, ← hlim]
  by_cases hs : t.cur.slot < 14
  · simp only [if_pos hs]
    rfl
  · simp only [if_neg hs]
    rfl

/-! ## The limit of WAITRS, and FENCE (R227, R228) -/

theorem exec_waitrsTimeout {core n k : Nat} {x : CtxEntry} (hx : (s.core core).cache.find? (fun e => decide (e.1 = n)) = some (n, x))
    (hst : x.st = .parked (.watching (some k))) (hk : k ≤ s.cycle) : exec (.waitrsTimeout core n) s =
      .next (s.modCore core fun c => { c with cache := Sparse.put c.cache n { x with st := .parked (.ready s.cycle) } }) := by
  change event (waitrsTimeout core n) s = _
  simp [event, waitrsTimeout, hx, hst, hk]

theorem run_fence (h : releaseAt m.order m.scope s.issue = .ok () t) :
    exec (.fence m) s = .next ((t.acquired m.order m.scope.toNat).finish) := by
  change run (fence m) s = _
  refine run_done ?_
  simp only [fence, M.bind_apply, h, acquireOf_apply, M.pure_apply]

/-! ## WAITVA (R235, R236) -/

theorem waitKey_does (w : Who) (ea : W64) : Does (Touched w.world) (waitKey w ea) := by
  have hR := Touched.carries w.world
  unfold waitKey
  refine Does.when hR (fun _ => Does.trapAt hR _ _ _ _) fun _ => ?_
  split
  · exact Does.pure hR _
  · exact resolveSeq_does w ea
  · exact Does.trapXlate hR _ _ _

theorem checkAccess_kept (w : Who) (ea : W64) (n : Nat) (k : Kind) (kinds : List Kind) : Does ThreadsKept (checkAccess w ea n k kinds) :=
  (checkAccess_does w ea n k kinds).threadsKept

/-- What a charge and an acquire leave of the acting thread. -/
theorem charged_frame (t : State) (cap : Cap) : ((t.chargeOnce cap).modMyCore (·.invalidateL1)).cur = t.cur ∧
    ((t.chargeOnce cap).modMyCore (·.invalidateL1)).me.uid = t.me.uid ∧
    ((t.chargeOnce cap).modMyCore (·.invalidateL1)).me.pc = t.me.pc ∧
    ((t.chargeOnce cap).modMyCore (·.invalidateL1)).myWorld = t.myWorld := by
  have hcur : (t.chargeOnce cap).cur = t.cur := (Local.chargeOnce t cap).cur_eq
  have hme : ((t.chargeOnce cap).modMyCore (·.invalidateL1)).me = (t.chargeOnce cap).me := State.modMyCore_me_of_slots rfl
  obtain ⟨x, l, h⟩ := chargeOnce_me t cap
  refine ⟨hcur, by rw [hme, h], by rw [hme, h], ?_⟩
  rw [State.myWorld, State.modMyCore_myCore]
  change (t.chargeOnce cap).myCore.world = _
  rw [State.myCore, hcur, (Local.chargeOnce t cap).core]
  rfl

/-- The word of WAITVA read behind the installation of the waiter, and charged. -/
structure WaitRead (s e : State) : Prop where
  cur_eq : e.cur = s.cur
  uid : e.me.uid = s.me.uid
  behind : e.behind = s.behind
  world : e.myWorld = s.myWorld

theorem waitRead_of_kept (h : ThreadsKept s.issue t) (cap : Cap) : WaitRead s ((t.chargeOnce cap).modMyCore (·.invalidateL1)) := by
  obtain ⟨hcur, huid, hpc, hw⟩ := charged_frame t cap
  refine ⟨by rw [hcur, h.cur_eq, State.issue_cur], by rw [huid, h.me_uid, State.issue_uid], ?_, by rw [hw, h.myWorld_eq, State.issue_myWorld]⟩
  rw [State.behind, hpc, hcur, ← State.behind, h.behind_eq, State.issue_behind]

/-- WAITVA, after its word is read. -/
def waitvaRest (w : Who) (key : Nat) (v : W64) (bs : List Byte) : M Ctl := do
  if w64 (leToNat bs) ≠ v then return .done
  else if w.slot ≥ 14 then block false
  else
    installWaiter key
    let pc ← nextAddr
    parkMe pc .waiter false

theorem waitvaRest_parks (h : WaitRead s e) {key : Nat} {v : W64} {bs : List Byte} (hv : w64 (leToNat bs) = v) (hs : s.cur.slot < 14) :
    waitvaRest s.who key v bs e = .ok .gone (parked { e with
      waitTable := e.waitTable ++ [⟨s.myWorld, key, s.cur.core, e.me.uid⟩] } s.behind .waiter false) := by
  have hs' : ¬s.who.slot ≥ 14 := Nat.not_le.mpr hs
  rw [waitvaRest, if_neg (by simpa using hv), if_neg hs']
  simp only [installWaiter, nextAddr, M.bind_apply, M.modify_apply, M.get_apply, M.pure_apply, parkMe_apply]
  rw [← h.world, ← h.cur_eq, ← h.behind]
  rfl

/-- WAITVA up to its word. -/
def waitvaBody (d a : Reg) : M Ctl := do
  let ea ← rd d
  let v ← rd a
  let w ← whoMe
  let key ← waitKey w ea
  let (pl, cap) ← checkAccess w ea 8 .read [.read]
  if ← tableFull then trapAt Cause.waittableFull ea
  acquireAt 4
  let bs ← loadPlace w pl 8 ⟨1, 4, 0⟩ ea
  chargeCap cap
  acquireAt 4
  waitvaRest w key v bs

theorem exec_waitva (d a : Reg) : exec (.waitva d a) = run (withPorts [d, a] none fun _ => waitvaBody d a) := rfl

theorem tableFull_false (h : t.waitTable.length < 65536) : tableFull t = .ok false t := by
  simp [tableFull, h]

theorem waitvaBody_apply {key : Nat} {bs : List Byte} (hk : waitKey s.who (s.src d) s.issue = .ok key u)
    (hc : checkAccess s.who (s.src d) 8 .read [.read] u = .ok (pl, cap) v) (hroom : v.waitTable.length < 65536)
    (hl : loadPlace s.who pl 8 ⟨1, 4, 0⟩ (s.src d) (v.modMyCore (·.invalidateL1)) = .ok bs t) :
    waitvaBody d a s.issue = waitvaRest s.who key (s.src a) bs ((t.chargeOnce cap).modMyCore (·.invalidateL1)) := by
  have hacq (x : State) : acquireAt 4 x = .ok () (x.modMyCore (·.invalidateL1)) := rfl
  simp only [waitvaBody, M.bind_apply, rd_apply, whoMe_apply, State.issue_src, State.issue_who, hk, hc, tableFull_false hroom,
    Bool.false_eq_true, if_false, hacq, hl, chargeCap_apply]

theorem waitvaBody_kept {key : Nat} {bs : List Byte} (hk : waitKey s.who (s.src d) s.issue = .ok key u)
    (hc : checkAccess s.who (s.src d) 8 .read [.read] u = .ok (pl, cap) v)
    (hl : loadPlace s.who pl 8 ⟨1, 4, 0⟩ (s.src d) (v.modMyCore (·.invalidateL1)) = .ok bs t) : ThreadsKept s.issue t := by
  have hpl := checkAccess_gives _ _ _ _ _ _ _ _ hc
  have h1 := (waitKey_does s.who (s.src d)).threadsKept.ok hk
  have h2 := (checkAccess_kept s.who _ _ _ _).ok hc
  have h3 : ThreadsKept v (v.modMyCore (·.invalidateL1)) := .modCore fun _ => rfl
  exact h1.trans (h2.trans (h3.trans ((loadPlace_does s.who 8 ⟨1, 4, 0⟩ (s.src d) hpl).threadsKept.ok hl)))

/-! ## WAKE and WAKEALL (R237) -/

theorem run_wake {key : Nat} (n : Option Nat) (hp : NoPort s [d] (some a)) (hk : waitKey s.who (s.src d) s.issue = .ok key u)
    (hrel : releaseAll u = .ok () v) (hc : checkAccess s.who (s.src d) 8 .write [.write] v = .ok (pl, cap) t) :
    run (wake n d a) s = .next ((((t.writeMine a (w64 (t.waitersOn s.myWorld key (n.getD t.waitTable.length)).length)).wakeOn s.myWorld key
      (n.getD t.waitTable.length)).chargeOnce cap).finish) := by
  refine run_waiting hp ?_
  simp only [M.bind_apply, M.modify_apply, M.get_apply, rd_apply, whoMe_apply, State.issue_src, State.issue_who, hk, hrel, hc, wr_apply,
    chargeCap_apply, State.who_world]

/-- Waking takes the waiters from the table and changes cores alone. -/
theorem wakeCtx_foldl_frame (xs : List Waiter) (s : State) : ∃ cores, xs.foldl State.wakeCtx s = { s with cores := cores } := by
  induction xs generalizing s with
  | nil => exact ⟨s.cores, rfl⟩
  | cons x xs ih =>
    obtain ⟨cores, h⟩ := ih (s.wakeCtx x)
    exact ⟨cores, h⟩

theorem wakeOn_frame (s : State) (w va n : Nat) : ∃ cores, s.wakeOn w va n =
    { s with waitTable := s.waitTable.filter (!(s.waitersOn w va n).contains ·), cores := cores } := by
  obtain ⟨cores, h⟩ := wakeCtx_foldl_frame (s.waitersOn w va n)
    { s with waitTable := s.waitTable.filter (!(s.waitersOn w va n).contains ·) }
  exact ⟨cores, h⟩

theorem mem_waitersOn {w va n : Nat} {x : Waiter} (h : x ∈ s.waitersOn w va n) : x.world = w ∧ x.va = va := by
  have := List.mem_filter.mp (List.mem_of_mem_take h)
  simpa using this.2

end

/-- Settles O34: each is a read or a write at its word's bank, and a wait parks with its waiter in the table. -/
theorem watchesAndWaits : Obligations.WatchesAndWaits := by
  refine ⟨fun s t d a m pl cap hp h => run_rsvw hp h, fun s d a hp => ⟨fun h => ⟨w64 (watchMask s.issue.me.watch), fun _ i => ?_, ?_⟩,
      fun lim hne hno hl hlim => ?_⟩,
    fun s core n k x hx hst hk => exec_waitrsTimeout hx hst hk, fun s t m h => run_fence h,
    fun s u v t e d a key pl cap bs hp hk hc hroom hl he => ?_, fun s u v t d a m key pl cap hp hk hrel hc => ⟨?_, ?_⟩,
    fun s w va n _ => ?_⟩
  · rw [w64, BitVec.getLsbD_ofNat, watchMask_bit]
    have := i.isLt
    simp [show i.val < 64 by omega]
  · rw [exec_waitrs]
    exact run_withPorts_ok (c := .done) hp ((waitrs_apply s d a).trans (waitrsBody_answers _ h))
  · have hbody := waitrsBody_waits (d := d) (n := s.src a) hne hno hl hlim
    rw [exec_waitrs]
    by_cases hs : s.cur.slot < 14
    · rw [if_pos hs]
      rw [State.issue_cur, if_pos hs, State.issue_pc] at hbody
      exact run_withPorts_ok (c := .gone) hp ((waitrs_apply s d a).trans hbody)
    · rw [if_neg hs]
      rw [State.issue_cur, if_neg hs] at hbody
      exact run_withPorts_blocked hp ((waitrs_apply s d a).trans hbody)
  · subst he
    have hbody := waitvaBody_apply (a := a) hk hc hroom hl
    have hread := waitRead_of_kept (waitvaBody_kept hk hc hl) cap
    rw [exec_waitva]
    refine ⟨fun hv => ?_, fun hv hs => ?_, fun hv hs => ?_⟩
    · exact run_withPorts_ok (c := .done) hp (hbody.trans (by rw [waitvaRest, if_pos hv]; rfl))
    · exact run_withPorts_ok (c := .gone) hp (hbody.trans (waitvaRest_parks hread hv hs))
    · have hs' : s.who.slot ≥ 14 := hs
      exact run_withPorts_blocked hp (hbody.trans (by rw [waitvaRest, if_neg (by simpa using hv), if_pos hs']; rfl))
  · exact run_wake (some 1) hp hk hrel hc
  · exact run_wake none hp hk hrel hc
  · obtain ⟨cores, h⟩ := wakeOn_frame s w va n
    rw [h]
    exact ⟨fun x => by simp, fun x => mem_waitersOn, rfl⟩

end Sys2Proof.Machine
end

section
/-! Barrier objects (R229 to R232). -/

-- One declaration after another: checked side by side, these take more threads than the memory of the check holds.
set_option Elab.async false

namespace Sys2Proof.Machine

open Sys2Proof.Claims

/-! ## The object in its bytes (R229) -/

section
variable {s t : State} {loc : Nat} {b : Barrier}

theorem word64_of_bytes {v : W64} (h : ∀ i (hi : i < (natToLe 8 v.toNat).length), t.byte (loc + i) = (natToLe 8 v.toNat)[i]) :
    t.word64 loc = v := by
  have hb := State.bytes_eq h
  rw [natToLe_length] at hb
  rw [State.word64, hb, leToNat_natToLe]
  exact BitVec.eq_of_toNat_eq (by rw [BitVec.toNat_ofNat]; omega)

theorem State.barrier_of_mem (h : t.mem = s.mem) (loc : Nat) : t.barrier loc = s.barrier loc := by
  simp only [State.barrier, State.word64_of_mem h]

/-- The fields of a barrier lie where the object has them. -/
structure Barrier.Fits (b : Barrier) : Prop where
  expected : b.expected < 2 ^ 16
  arrivals : b.arrivals < 2 ^ 16
  pending : b.pending < 2 ^ 24
  phase : b.phase < 256
  scope : b.scope < 8

theorem fld_lt (v : W64) (lo n : Nat) : fld v lo n < 2 ^ n := Nat.mod_lt _ (Nat.two_pow_pos n)

theorem State.barrier_fits (s : State) (loc : Nat) : (s.barrier loc).Fits :=
  ⟨fld_lt _ _ _, fld_lt _ _ _, fld_lt _ _ _, fld_lt _ _ _, fld_lt _ _ _⟩

/-- A word of the object is written and read field by field. -/
theorem Barrier.read_words (h : b.Fits) :
    ⟨fld b.word0 48 16, fld b.word0 32 16, fld b.word0 8 24, fld b.word0 0 8, flag b.word1 7, fld b.word1 4 3⟩ = b := by
  obtain ⟨he, ha, hp, hph, hs⟩ := h
  obtain ⟨e, a, p, ph, o, sc⟩ := b
  have hbool : boolNat o < 2 := by cases o <;> decide
  have h0 : (Barrier.word0 ⟨e, a, p, ph, o, sc⟩).toNat = e * 2 ^ 48 + a * 2 ^ 32 + p * 2 ^ 8 + ph := by
    simp only [Barrier.word0, w64, BitVec.toNat_ofNat, Nat.mod_eq_of_lt he, Nat.mod_eq_of_lt ha, Nat.mod_eq_of_lt hp, Nat.mod_eq_of_lt hph]
    simp only at he ha hp hph
    omega
  have h1 : (Barrier.word1 ⟨e, a, p, ph, o, sc⟩).toNat = boolNat o * 2 ^ 7 + sc * 2 ^ 4 := by
    simp only [Barrier.word1, w64, BitVec.toNat_ofNat]
    simp only at hs
    omega
  simp only [fld, flag, h0, h1, Barrier.mk.injEq] at *
  refine ⟨by omega, by omega, by omega, by omega, ?_, by omega⟩
  have : (boolNat o * 2 ^ 7 + sc * 2 ^ 4) / 2 ^ 7 % 2 = boolNat o := by omega
  rw [this]
  cases o <;> rfl

theorem not_isHbm_of_spad {l : Nat} (h : spadBase ≤ l) : isHbm l = false := by
  have : hostBase ≤ l := Nat.le_trans (by decide) h
  simpa [isHbm] using this

theorem cellsAt_not_hbm (bs : List Byte) : ∀ {loc : Nat}, spadBase ≤ loc → (cellsAt loc bs).any (fun x => isHbm x.1) = false := by
  induction bs with
  | nil => exact fun _ => rfl
  | cons x bs ih => exact fun h => by simp [cellsAt, not_isHbm_of_spad h, ih (Nat.le_succ_of_le h)]

/-- The bytes of an object. -/
def Barrier.bytes (b : Barrier) : List Byte := natToLe 8 b.word0.toNat ++ natToLe 8 b.word1.toNat ++ List.replicate 16 0

theorem Barrier.bytes_length (b : Barrier) : b.bytes.length = 32 := by simp [bytes, natToLe_length]

theorem State.putBarrier_mem (h : spadBase ≤ loc) (s : State) (core uid world : Nat) (b : Barrier) :
    (s.putBarrier core uid world loc b).mem = (s.setBytes loc b.bytes).mem := by
  rw [putBarrier, State.performWrite_mem, cellsAt_not_hbm _ h, Bool.and_false, State.setCells_cellsAt]
  rfl

theorem State.putBarrier_byte_of_not (h : spadBase ≤ loc) (s : State) (core uid world : Nat) (b : Barrier) {l : Nat}
    (hl : l < loc ∨ loc + 32 ≤ l) : (s.putBarrier core uid world loc b).byte l = s.byte l := by
  rw [State.byte_of_mem (putBarrier_mem h s core uid world b), State.byte_setBytes_of_not (by rwa [b.bytes_length])]

/-- An object written reads back. -/
theorem State.putBarrier_barrier (h : spadBase ≤ loc) (s : State) (core uid world : Nat) (hb : b.Fits) :
    (s.putBarrier core uid world loc b).barrier loc = b := by
  have hbyte (i : Nat) (hi : i < 32) : (s.setBytes loc b.bytes).byte (loc + i) = b.bytes[i]'(by rw [b.bytes_length]; exact hi) :=
    State.byte_setBytes (by rw [b.bytes_length]; exact hi)
  have hlen (v : Nat) := natToLe_length 8 v
  have h0 : (s.setBytes loc b.bytes).word64 loc = b.word0 := word64_of_bytes fun i hi => by
    rw [hlen] at hi
    rw [hbyte i (by omega)]
    simp [Barrier.bytes, hlen, hi]
  have h1 : (s.setBytes loc b.bytes).word64 (loc + 8) = b.word1 := word64_of_bytes fun i hi => by
    rw [hlen] at hi
    rw [Nat.add_assoc, hbyte (8 + i) (by omega)]
    simp [Barrier.bytes, hlen, hi]
  rw [State.barrier_of_mem (putBarrier_mem h s core uid world b), State.barrier, h0, h1]
  exact Barrier.read_words hb

/-! ## Phases (R231) -/

theorem letGo_foldl_frame (scope : Nat) (xs : List BarWaiter) (s : State) : ∃ cores, xs.foldl (State.letGo scope) s = { s with cores := cores } := by
  induction xs generalizing s with
  | nil => exact ⟨s.cores, rfl⟩
  | cons x xs ih =>
    obtain ⟨cores, h⟩ := ih (s.letGo scope x)
    refine ⟨cores, h.trans ?_⟩
    unfold State.letGo
    dsimp only
    split <;> rfl

/-- The waiters of a phase let go. -/
theorem State.releasePhase_frame (s : State) (loc phase scope : Nat) : ∃ cores, s.releasePhase loc phase scope = { s with
    barWaiters := s.barWaiters.filter (!(s.barWaiters.filter fun x => decide (x.loc = loc) && decide (x.phase = phase)).contains ·)
    cores := cores } := letGo_foldl_frame _ _ _

theorem State.releasePhase_mem (s : State) (loc phase scope : Nat) : (s.releasePhase loc phase scope).mem = s.mem := by
  obtain ⟨cores, h⟩ := s.releasePhase_frame loc phase scope
  rw [h]

theorem State.performWrite_barWaiters (s : State) (c uid w : Nat) (pin : Nat → Option Nat) (cells : List Host.Cell) :
    (s.performWrite c uid w pin cells).barWaiters = s.barWaiters := by
  obtain ⟨_, _, _, _, _, h⟩ := s.performWrite_frame c uid w pin cells
  rw [h]

theorem mem_releasePhase {phase scope : Nat} {x : BarWaiter} :
    x ∈ (s.releasePhase loc phase scope).barWaiters ↔ x ∈ s.barWaiters ∧ ¬(x.loc = loc ∧ x.phase = phase) := by
  obtain ⟨cores, h⟩ := s.releasePhase_frame loc phase scope
  rw [h]
  simp
  tauto

theorem settleBarrier_goesOn (h : b.arrivals ≠ b.expected ∨ b.pending ≠ 0) (s : State) (core uid w loc : Nat) :
    s.settleBarrier core uid w loc b = s.putBarrier core uid w loc b := by
  have : ¬((decide (b.arrivals = b.expected) && decide (b.pending = 0)) = true) := by
    simpa [imp_iff_not_or] using h
  rw [State.settleBarrier, if_neg this]

theorem settleBarrier_completes (ha : b.arrivals = b.expected) (hp : b.pending = 0) (s : State) (core uid w loc : Nat) :
    s.settleBarrier core uid w loc b = (s.putBarrier core uid w loc { b with phase := (b.phase + 1) % 256, arrivals := 0 }).releasePhase loc
      b.phase (b.actScope loc) := by
  rw [State.settleBarrier, if_pos (by simp [ha, hp])]

theorem settleBarrier_completed (hloc : spadBase ≤ loc) (hb : b.Fits) (ha : b.arrivals = b.expected) (hp : b.pending = 0) (s : State)
    (core uid w : Nat) : (s.settleBarrier core uid w loc b).barrier loc = { b with phase := (b.phase + 1) % 256, arrivals := 0 } ∧
      ∀ x, x ∈ (s.settleBarrier core uid w loc b).barWaiters ↔ x ∈ s.barWaiters ∧ ¬(x.loc = loc ∧ x.phase = b.phase) := by
  rw [settleBarrier_completes ha hp]
  refine ⟨?_, fun x => ?_⟩
  · rw [State.barrier_of_mem (State.releasePhase_mem ..) loc, State.putBarrier_barrier hloc]
    exact ⟨hb.expected, Nat.two_pow_pos 16, hb.pending, Nat.mod_lt _ (by decide), hb.scope⟩
  · rw [mem_releasePhase, State.putBarrier, State.performWrite_barWaiters]

/-! ## Landings (R232) -/

theorem barLand_none {n : Nat} (h : (s.barrier loc).pending < n) (core w : Nat) : s.barLand core w loc n = none := by
  simp only [State.barLand, if_pos h]

theorem barLand_some {n : Nat} (h : n ≤ (s.barrier loc).pending) (h0 : n ≠ 0) (core w : Nat) : s.barLand core w loc n =
    some (if (s.barrier loc).pending - n = 0
      then s.settleBarrier core 0 w loc { s.barrier loc with pending := (s.barrier loc).pending - n }
      else s.putBarrier core 0 w loc { s.barrier loc with pending := (s.barrier loc).pending - n }) := by
  simp only [State.barLand, if_neg (Nat.not_lt.mpr h), if_neg h0]

theorem landing (hloc : spadBase ≤ loc) {n : Nat} (hn : n ≤ (s.barrier loc).pending) (h0 : n ≠ 0) (core w : Nat) :
    ∃ t, s.barLand core w loc n = some t ∧
      ((s.barrier loc).pending ≠ n → (t.barrier loc) = { s.barrier loc with pending := (s.barrier loc).pending - n }) ∧
      ((s.barrier loc).pending = n → (s.barrier loc).arrivals = (s.barrier loc).expected → (t.barrier loc).phase =
        ((s.barrier loc).phase + 1) % 256) := by
  have hf := s.barrier_fits loc
  have hfits : Barrier.Fits { s.barrier loc with pending := (s.barrier loc).pending - n } :=
    ⟨hf.expected, hf.arrivals, Nat.lt_of_le_of_lt (Nat.sub_le _ _) hf.pending, hf.phase, hf.scope⟩
  refine ⟨_, barLand_some hn h0 core w, fun hne => ?_, fun he ha => ?_⟩
  · rw [if_neg (by omega), State.putBarrier_barrier hloc _ _ _ _ hfits]
  · rw [if_pos (by omega)]
    exact congrArg Barrier.phase (settleBarrier_completed hloc hfits ha (by simp [he]) s core 0 w).1

end

end Sys2Proof.Machine
end

section
/-! The barrier instructions (R230, R231). -/

-- One declaration after another: checked side by side, these take more threads than the memory of the check holds.
set_option Elab.async false

namespace Sys2Proof.Machine

open Sys2Proof.Claims

section
variable {s t u v w : State} {d a : Reg} {pl : Place} {cap : Cap}

/-! ## Frames -/

theorem State.chargeOnce_mem (s : State) (cap : Cap) : (s.chargeOnce cap).mem = s.mem := (Local.chargeOnce s cap).mem_eq

theorem State.chargeOnce_barWaiters (s : State) (cap : Cap) : (s.chargeOnce cap).barWaiters = s.barWaiters := by
  rw [(Local.chargeOnce s cap).device]

theorem State.chargeOnce_cur (s : State) (cap : Cap) : (s.chargeOnce cap).cur = s.cur := (Local.chargeOnce s cap).cur_eq

theorem State.settleBarrier_cur (s : State) (core uid w loc : Nat) (b : Barrier) : (s.settleBarrier core uid w loc b).cur = s.cur := by
  by_cases h : b.arrivals ≠ b.expected ∨ b.pending ≠ 0
  · rw [settleBarrier_goesOn h]
    exact (ThreadsKept.performWrite ..).cur_eq
  · obtain ⟨ha, hp⟩ := not_or.mp h
    rw [settleBarrier_completes (not_not.mp ha) (not_not.mp hp)]
    obtain ⟨cores, hr⟩ := (s.putBarrier core uid w loc { b with phase := (b.phase + 1) % 256, arrivals := 0 }).releasePhase_frame loc
      b.phase (b.actScope loc)
    rw [hr]
    exact (ThreadsKept.performWrite ..).cur_eq

theorem barPlace_does (w : Who) (ea : W64) : Does (Touched w.world) (barPlace w ea) := by
  have hR := Touched.carries w.world
  unfold barPlace
  refine Does.when hR (fun _ => Does.trapAt hR _ _ _ _) fun _ => Does.when hR (fun _ => Does.trapXlate hR _ _ _) fun _ => ?_
  refine Does.bind hR (locate_does w ea _) fun pl => Does.bind hR (authorize_does w ea _) fun cap => ?_
  exact Does.bind hR (firewall_does w pl ea _) fun _ => Does.pure hR _

/-- The barrier is reached with its thread as it issued. -/
theorem atBarrier_cur {ea : W64} (hu : u.cur = s.cur) (h : atBarrier s u ea pl cap t) : t.cur = s.cur := by
  obtain ⟨v, hc, hown⟩ := h
  have hv : v.cur = s.cur := by rw [((barPlace_does s.who ea).ok hc).cur_eq, hu]
  have ht : ThreadsKept v t := by
    have ht : (((v.performWord s.who.core s.who.slot pl.loc).performWord s.who.core s.who.slot (pl.loc + 8)).performWord
        s.who.core s.who.slot (pl.loc + 16)).performWord s.who.core s.who.slot (pl.loc + 24) = t := by
      injection hown
    rw [← ht]
    exact .after (.performWord ..) (.after (.performWord ..) (.after (.performWord ..) (.performWord ..)))
  rw [ht.cur_eq, hv]

theorem acquireAt_apply (n : Nat) (s : State) : acquireAt n s = .ok () (s.acquired 1 n) := by
  have h1 : ((1 : BitVec 2).getLsbD 0 && decide (2 ≤ n)) = decide (2 ≤ n) := by
    rw [show (1 : BitVec 2).getLsbD 0 = true from rfl, Bool.true_and]
  unfold acquireAt State.acquired
  rw [h1]
  by_cases h : 2 ≤ n
  · simp [h]
  · simp [h]

/-! ## An arrival, and the wait for a phase -/

/-- An arrival after the thread's own stores to the object. -/
def arriveAt (w : Who) (pl : Place) (ea : W64) : M Nat := do
  let s ← get
  let b := s.barrier pl.loc
  if b.arrivals = b.expected then
    set (s.putBarrier w.core s.me.uid w.world pl.loc { b with overflow := true })
    trapAt Cause.barOver ea
  set (s.settleBarrier w.core s.me.uid w.world pl.loc { b with arrivals := b.arrivals + 1 })
  return b.phase

theorem arrive_apply {x : Who} {ea : W64} (h : ownFirst x pl.loc v = .ok () t) : arrive x pl ea v = arriveAt x pl ea t := by
  change (ownFirst x pl.loc >>= fun _ => arriveAt x pl ea) v = _
  rw [M.bind_apply, h]

theorem arriveAt_counts {x : Who} {ea : W64} (h : (t.barrier pl.loc).arrivals ≠ (t.barrier pl.loc).expected) : arriveAt x pl ea t =
    .ok (t.barrier pl.loc).phase (t.settleBarrier x.core t.me.uid x.world pl.loc
      { t.barrier pl.loc with arrivals := (t.barrier pl.loc).arrivals + 1 }) := by
  simp only [arriveAt, M.bind_apply, M.get_apply, if_neg h, M.set_apply, M.pure_apply]

theorem arriveAt_over {x : Who} {ea : W64} (h : (t.barrier pl.loc).arrivals = (t.barrier pl.loc).expected) : arriveAt x pl ea t =
    .error (.trap ⟨Cause.barOver, ea, 0, 0xFFFF⟩) (t.putBarrier x.core t.me.uid x.world pl.loc
      { t.barrier pl.loc with overflow := true }) := by
  simp only [arriveAt, M.bind_apply, M.get_apply, if_pos h, M.set_apply]
  rfl

theorem awaitPhase_ended {x : Who} {loc phase : Nat} (h : (t.barrier loc).phase ≠ phase) : awaitPhase x loc phase t =
    .ok () (t.acquired 1 ((t.barrier loc).actScope loc)) := by
  simp only [awaitPhase, M.bind_apply, M.get_apply, if_neg h, acquireAt_apply]

/-- The acting thread among the waiters on a phase. -/
def State.awaitingPhase (t : State) (x : Who) (loc phase : Nat) : State :=
  { t with barWaiters := t.barWaiters ++ [⟨loc, phase, x.core, x.slot, t.cur.len⟩] }

theorem awaitPhase_waits {x : Who} {loc phase : Nat} (h : (t.barrier loc).phase = phase) : awaitPhase x loc phase t =
    .error (.wait (.barrier loc phase)) (t.awaitingPhase x loc phase) := by
  simp only [awaitPhase, M.bind_apply, M.get_apply, if_pos h, M.set_apply]
  rfl

/-- A waiting instruction that uses no port and waits for a phase. -/
theorem run_waiting_phase {srcs : List Reg} {dst : Option Reg} {m : M Unit} {loc phase : Nat} (h : NoPort s srcs dst)
    (hm : m s.issue = .error (.wait (.barrier loc phase)) t) : run (waiting srcs dst m) s = .next (t.waitIn (.barrier loc phase)) := by
  rw [run, waiting, withPorts_of_noPort _ h.issue]
  simp [hm, Wait.reruns]

/-! ## The instructions -/

/-- BARARR once its barrier is checked. -/
def bararrRest (x : Who) (pl : Place) (cap : Cap) (ea : W64) (a : Reg) : M Unit := do
  let p ← arriveAt x pl ea
  chargeCap cap
  wr a (w64 p)

theorem bararr_apply (hrel : releaseAll s.issue = .ok () u) (h : atBarrier s u (s.src d) pl cap t) :
    ∃ m, exec (.bararr d a) s = run (waiting [d] (some a) m) s ∧ m s.issue = bararrRest s.who pl cap (s.src d) a t := by
  obtain ⟨v, hc, hown⟩ := h
  refine ⟨_, rfl, ?_⟩
  simp only [bararrRest, M.bind_apply, rd_apply, whoMe_apply, State.issue_src, State.issue_who, hrel, hc, arrive_apply hown]

theorem run_bararr_counts (hp : NoPort s [d] (some a)) (hrel : releaseAll s.issue = .ok () u) (h : atBarrier s u (s.src d) pl cap t)
    (hne : (t.barrier pl.loc).arrivals ≠ (t.barrier pl.loc).expected) : exec (.bararr d a) s =
      .next ((((t.settleBarrier s.cur.core t.me.uid s.myWorld pl.loc { t.barrier pl.loc with
        arrivals := (t.barrier pl.loc).arrivals + 1 }).chargeOnce cap).writeMine a (w64 (t.barrier pl.loc).phase)).finish) := by
  obtain ⟨m, hm, hbody⟩ := bararr_apply (a := a) hrel h
  rw [hm]
  refine run_waiting hp (hbody.trans ?_)
  simp only [bararrRest, M.bind_apply, arriveAt_counts hne, chargeCap_apply, wr_apply, State.who_core, State.who_world]

theorem run_bararr_over (hp : NoPort s [d] (some a)) (hrel : releaseAll s.issue = .ok () u) (h : atBarrier s u (s.src d) pl cap t)
    (he : (t.barrier pl.loc).arrivals = (t.barrier pl.loc).expected) : exec (.bararr d a) s =
      .next (takeTrap ⟨Cause.barOver, s.src d, 0, 0xFFFF⟩ (t.putBarrier s.cur.core t.me.uid s.myWorld pl.loc
        { t.barrier pl.loc with overflow := true })) := by
  obtain ⟨m, hm, hbody⟩ := bararr_apply (a := a) hrel h
  rw [hm]
  refine run_waiting_trap hp (hbody.trans ?_)
  simp only [bararrRest, M.bind_apply, arriveAt_over he, State.who_core, State.who_world]

/-- BARWAIT once its barrier is reached. -/
theorem barwait_apply (h : atBarrier s s.issue (s.src d) pl cap t) : ∃ m, exec (.barwait d a) s = run (waiting [d, a] none m) s ∧
    m s.issue = awaitPhase s.who pl.loc (fld (s.src a) 0 8) (t.chargeOnce cap) := by
  obtain ⟨v, hc, hown⟩ := h
  refine ⟨_, rfl, ?_⟩
  simp only [M.bind_apply, rd_apply, whoMe_apply, State.issue_src, State.issue_who, hc, hown, chargeCap_apply]

theorem run_barwait_ended (hp : NoPort s [d, a] none) (h : atBarrier s s.issue (s.src d) pl cap t)
    (hne : (t.barrier pl.loc).phase ≠ fld (s.src a) 0 8) :
    exec (.barwait d a) s = .next (((t.chargeOnce cap).acquired 1 ((t.barrier pl.loc).actScope pl.loc)).finish) := by
  obtain ⟨m, hm, hbody⟩ := barwait_apply (a := a) h
  have hb := State.barrier_of_mem (t.chargeOnce_mem cap) pl.loc
  rw [← hb] at hne
  rw [hm, ← hb]
  exact run_waiting hp (hbody.trans (awaitPhase_ended hne))

theorem run_barwait_waits (hp : NoPort s [d, a] none) (h : atBarrier s s.issue (s.src d) pl cap t)
    (he : (t.barrier pl.loc).phase = fld (s.src a) 0 8) : exec (.barwait d a) s =
      .next (({ t.chargeOnce cap with
        barWaiters := t.barWaiters ++ [⟨pl.loc, fld (s.src a) 0 8, s.cur.core, s.cur.slot, s.cur.len⟩] } : State).waitIn
          (.barrier pl.loc (fld (s.src a) 0 8))) := by
  obtain ⟨m, hm, hbody⟩ := barwait_apply (a := a) h
  have hcur : t.cur = s.cur := atBarrier_cur (State.issue_cur s) h
  rw [← State.barrier_of_mem (t.chargeOnce_mem cap) pl.loc] at he
  have hlen : (t.chargeOnce cap).cur.len = s.cur.len := by rw [State.chargeOnce_cur, hcur]
  rw [hm, run_waiting_phase hp (hbody.trans (awaitPhase_waits he)), State.awaitingPhase, State.chargeOnce_barWaiters, hlen, State.who_core,
    State.who_slot]

section
variable (hp : NoPort s [d, a] none) (h : atBarrier s s.issue (s.src d) pl cap t)
include hp h

theorem run_barexp (hn : (s.src a).toNat < 2 ^ 24) (hsum : (t.barrier pl.loc).pending + (s.src a).toNat < 2 ^ 24) : exec (.barexp d a) s =
    .next (((if s.src a = 0 then t else t.putBarrier s.cur.core t.me.uid s.myWorld pl.loc { t.barrier pl.loc with
      pending := (t.barrier pl.loc).pending + (s.src a).toNat }).chargeOnce cap).finish) := by
  obtain ⟨v, hc, hown⟩ := h
  have hfit : ¬((decide ((s.src a).toNat ≥ 2 ^ 24) || decide ((t.barrier pl.loc).pending + (s.src a).toNat ≥ 2 ^ 24)) = true) := by
    simp only [Bool.or_eq_true, decide_eq_true_eq]
    omega
  refine run_waiting (srcs := [d, a]) (dst := none) hp ?_
  simp only [M.bind_apply, M.get_apply, rd_apply, whoMe_apply, State.issue_src, State.issue_who, hc, hown, if_neg hfit]
  by_cases h0 : s.src a = 0
  · simp only [h0, ne_eq, not_true_eq_false, if_false, if_true, chargeCap_apply]
  · simp only [h0, ne_eq, not_false_eq_true, if_true, if_false, M.bind_apply, M.set_apply, chargeCap_apply, State.who_core, State.who_world]

theorem run_barexp_over (hover : 2 ^ 24 ≤ (s.src a).toNat ∨ 2 ^ 24 ≤ (t.barrier pl.loc).pending + (s.src a).toNat) :
    exec (.barexp d a) s = .next (takeTrap ⟨Cause.barBytes, s.src d, 0, 0xFFFF⟩ t) := by
  obtain ⟨v, hc, hown⟩ := h
  have hfit : (decide ((s.src a).toNat ≥ 2 ^ 24) || decide ((t.barrier pl.loc).pending + (s.src a).toNat ≥ 2 ^ 24)) = true := by
    simpa only [Bool.or_eq_true, decide_eq_true_eq] using hover
  refine run_waiting_trap (srcs := [d, a]) (dst := none) hp ?_
  simp only [M.bind_apply, M.get_apply, rd_apply, whoMe_apply, State.issue_src, State.issue_who, hc, hown, if_pos hfit]
  rfl

theorem run_barinit (he : fld (s.src a) 0 16 ≠ 0) (h1 : 1 ≤ fld (s.src a) 16 3) (h4 : fld (s.src a) 16 3 ≤ 4) : exec (.barinit d a) s =
    .next ((((t.putBarrier s.cur.core t.me.uid s.myWorld pl.loc ⟨fld (s.src a) 0 16, 0, 0, 0, false, fld (s.src a) 16 3⟩).releasePhase
      pl.loc (t.barrier pl.loc).phase 0).chargeOnce cap).finish) := by
  obtain ⟨v, hc, hown⟩ := h
  have hok : ¬((decide (fld (s.src a) 0 16 = 0) || decide (fld (s.src a) 16 3 = 0) || decide (fld (s.src a) 16 3 ≥ 5)) = true) := by
    simp only [Bool.or_eq_true, decide_eq_true_eq]
    omega
  refine run_waiting (srcs := [d, a]) (dst := none) hp ?_
  simp only [M.bind_apply, M.modify_apply, rd_apply, whoMe_apply, State.issue_src, State.issue_who, hc, hown, if_neg hok, chargeCap_apply,
    State.who_core, State.who_world]

end

theorem run_barqry (hp : NoPort s [d] (some a)) (h : atBarrier s s.issue (s.src d) pl cap t) :
    exec (.barqry d a) s = .next (((t.writeMine a (t.word64 pl.loc)).chargeOnce cap).finish) := by
  obtain ⟨v, hc, hown⟩ := h
  refine run_waiting (srcs := [d]) (dst := some a) hp ?_
  simp only [M.bind_apply, M.get_apply, rd_apply, whoMe_apply, State.issue_src, State.issue_who, hc, hown, wr_apply, chargeCap_apply]

/-! ## BARSYNC (R231) -/

/-- BARSYNC that begins, once its barrier is checked. -/
def barsyncRest (x : Who) (pl : Place) (cap : Cap) (ea : W64) (a : Reg) : M Unit := do
  let p ← arriveAt x pl ea
  chargeCap cap
  wr a (w64 p)
  guardRow (restartKey 4 2 2) (0x100 + p) (awaitPhase x pl.loc p)
  clearPend

theorem barsync_begins (hres : resumesAt s (restartKey 4 2 2) = none) (hrel : releaseAll s.issue = .ok () u)
    (h : atBarrier s u (s.src d) pl cap t) : ∃ m, exec (.barsync d a) s = run (waiting [d] (some a) m) s ∧
      m s.issue = barsyncRest s.who pl cap (s.src d) a t := by
  obtain ⟨v, hc, hown⟩ := h
  refine ⟨_, rfl, ?_⟩
  simp only [barsyncRest, M.bind_apply, rd_apply, whoMe_apply, State.issue_src, State.issue_who, resumeRow_apply, resumesAt_issue, hres, hrel,
    hc, arrive_apply hown]

theorem barsync_resumes {r : Nat} (hres : resumesAt s (restartKey 4 2 2) = some r)
    (hc : barPlace s.who (s.src d) s.issue = .ok (pl, cap) t) : ∃ m, exec (.barsync d a) s = run (waiting [d] (some a) m) s ∧
      m s.issue = (awaitPhase s.who pl.loc (r % 256) >>= fun _ => clearPend) (t.chargeOnce cap) := by
  refine ⟨_, rfl, ?_⟩
  simp only [M.bind_apply, rd_apply, whoMe_apply, State.issue_src, State.issue_who, resumeRow_apply, resumesAt_issue, hres, hc,
    chargeCap_apply]

theorem clearPend_apply (s : State) : clearPend s = .ok () (cleared s) := rfl

/-- The state of a BARSYNC that has arrived. -/
theorem barsyncRest_counted (hne : (t.barrier pl.loc).arrivals ≠ (t.barrier pl.loc).expected)
    (hw : w = ((t.settleBarrier s.cur.core t.me.uid s.myWorld pl.loc { t.barrier pl.loc with
      arrivals := (t.barrier pl.loc).arrivals + 1 }).chargeOnce cap).writeMine a (w64 (t.barrier pl.loc).phase)) (ea : W64) :
    barsyncRest s.who pl cap ea a t = (guardRow (restartKey 4 2 2) (0x100 + (t.barrier pl.loc).phase)
      (awaitPhase s.who pl.loc (t.barrier pl.loc).phase) >>= fun _ => clearPend) w := by
  subst hw
  simp only [barsyncRest, M.bind_apply, arriveAt_counts hne, chargeCap_apply, wr_apply, State.who_core, State.who_world]

theorem run_barsync_ended (hp : NoPort s [d] (some a)) (hres : resumesAt s (restartKey 4 2 2) = none) (hrel : releaseAll s.issue = .ok () u)
    (h : atBarrier s u (s.src d) pl cap t) (hne : (t.barrier pl.loc).arrivals ≠ (t.barrier pl.loc).expected)
    (hw : w = ((t.settleBarrier s.cur.core t.me.uid s.myWorld pl.loc { t.barrier pl.loc with
      arrivals := (t.barrier pl.loc).arrivals + 1 }).chargeOnce cap).writeMine a (w64 (t.barrier pl.loc).phase))
    (hend : (w.barrier pl.loc).phase ≠ (t.barrier pl.loc).phase) :
    exec (.barsync d a) s = .next ((cleared (w.acquired 1 ((w.barrier pl.loc).actScope pl.loc))).finish) := by
  obtain ⟨m, hm, hbody⟩ := barsync_begins (a := a) hres hrel h
  rw [hm]
  refine run_waiting hp (hbody.trans ((barsyncRest_counted hne hw _).trans ?_))
  simp only [M.bind_apply, guardRow, awaitPhase_ended hend, clearPend_apply]

theorem run_barsync_waits (hp : NoPort s [d] (some a)) (hres : resumesAt s (restartKey 4 2 2) = none) (hrel : releaseAll s.issue = .ok () u)
    (h : atBarrier s u (s.src d) pl cap t) (hne : (t.barrier pl.loc).arrivals ≠ (t.barrier pl.loc).expected)
    (hw : w = ((t.settleBarrier s.cur.core t.me.uid s.myWorld pl.loc { t.barrier pl.loc with
      arrivals := (t.barrier pl.loc).arrivals + 1 }).chargeOnce cap).writeMine a (w64 (t.barrier pl.loc).phase))
    (hsame : (w.barrier pl.loc).phase = (t.barrier pl.loc).phase) (hcur : w.cur = s.cur) : exec (.barsync d a) s =
      .next ((({ w with barWaiters := w.barWaiters ++ [⟨pl.loc, (t.barrier pl.loc).phase, s.cur.core, s.cur.slot, s.cur.len⟩] } :
        State).modMe fun sl => { sl with restart := restartWord (restartKey 4 2 2) (0x100 + (t.barrier pl.loc).phase) }).waitIn
          (.barrier pl.loc (t.barrier pl.loc).phase)) := by
  obtain ⟨m, hm, hbody⟩ := barsync_begins (a := a) hres hrel h
  have hwait : m s.issue = .error (.wait (.barrier pl.loc (t.barrier pl.loc).phase))
      ((w.awaitingPhase s.who pl.loc (t.barrier pl.loc).phase).modMe fun sl =>
        { sl with restart := restartWord (restartKey 4 2 2) (0x100 + (t.barrier pl.loc).phase) }) := by
    rw [hbody, barsyncRest_counted hne hw]
    simp only [M.bind_apply, guardRow, awaitPhase_waits hsame]
  have hlen : w.cur.len = s.cur.len := by rw [hcur]
  rw [hm, run_waiting_phase hp hwait, State.awaitingPhase, hlen, State.who_core, State.who_slot]

theorem run_barsync_resumed {r : Nat} (hp : NoPort s [d] (some a)) (hres : resumesAt s (restartKey 4 2 2) = some r)
    (hc : barPlace s.who (s.src d) s.issue = .ok (pl, cap) t) (hend : (t.barrier pl.loc).phase ≠ r % 256) : exec (.barsync d a) s =
      .next ((cleared ((t.chargeOnce cap).acquired 1 ((t.barrier pl.loc).actScope pl.loc))).finish) := by
  obtain ⟨m, hm, hbody⟩ := barsync_resumes (a := a) hres hc
  have hb := State.barrier_of_mem (t.chargeOnce_mem cap) pl.loc
  rw [← hb] at hend
  rw [hm, ← hb]
  refine run_waiting hp (hbody.trans ?_)
  simp only [M.bind_apply, awaitPhase_ended hend, clearPend_apply]

end

/-- Settles O35: an arrival, a wait and a landing each write the object whole; the last of a phase starts the next. -/
theorem barriers : Obligations.Barriers := by
  refine ⟨fun s t u d a pl cap hp hrel h => ⟨run_bararr_counts hp hrel h, run_bararr_over hp hrel h⟩,
    fun s t d a pl cap hp h => ⟨run_barwait_ended hp h, run_barwait_waits hp h, fun hn hsum h0 => ?_, fun h0 => ?_, run_barexp_over hp h,
      run_barinit hp h, fun hp' => run_barqry hp' h⟩,
    fun s t u w d a pl cap p hp hres hrel h hne hph hw => ?_, fun s t d a pl cap r hp hres hc hend => run_barsync_resumed hp hres hc hend,
    fun s core uid w loc b hloc he ha hpd hph hsc => ?_, fun s core w loc n hloc => ⟨fun hlt => barLand_none hlt core w,
      fun hn h0 => landing hloc hn h0 core w⟩⟩
  · rw [run_barexp hp h hn hsum, if_neg h0]
  · have hpend : (t.barrier pl.loc).pending < 2 ^ 24 := (t.barrier_fits pl.loc).pending
    rw [run_barexp hp h (by rw [h0]; decide) (by rw [h0]; exact hpend), if_pos h0]
  · subst hph
    have hcur : w.cur = s.cur := by
      have hu : u.cur = s.cur := by rw [(releaseAll_kept.ok hrel).cur_eq, State.issue_cur]
      rw [hw]
      exact (EntriesKept.writeReg ..).cur.trans (by rw [State.chargeOnce_cur, State.settleBarrier_cur, atBarrier_cur hu h])
    exact ⟨run_barsync_ended hp hres hrel h hne hw, fun hsame => run_barsync_waits hp hres hrel h hne hw hsame hcur⟩
  · have hb : b.Fits := ⟨he, ha, hpd, hph, hsc⟩
    exact ⟨State.putBarrier_barrier hloc s core uid w hb, fun l hl => State.putBarrier_byte_of_not hloc s core uid w b hl,
      fun h => settleBarrier_goesOn h s core uid w loc, fun h h' => settleBarrier_completed hloc hb h h' s core uid w⟩

end Sys2Proof.Machine
end

section
/-! Messages (R143 to R146). -/

-- One declaration after another: checked side by side, these take more threads than the memory of the check holds.
set_option Elab.async false

namespace Sys2Proof.Machine

open Sys2Proof.Claims

section
variable {s t u : State} {d a : Reg} {m : Mod}

/-! ## Placed in the target's queue or in the overflow buffer (R145) -/

theorem Core.placeMsg_inbox {c : Core} {n : Nat} (hroom : (c.inbox n).length < 8) (hno : ∀ x ∈ c.overflow, x.tslot ≠ n) (m : Msg) :
    c.placeMsg n m = some (c.setInbox n (c.inbox n ++ [m])) := by
  have htakes : c.inboxTakes n = true := by
    simp only [Core.inboxTakes, hroom, decide_true, Bool.true_and, Bool.not_eq_true', List.any_eq_false, decide_eq_true_eq]
    exact hno
  rw [placeMsg, if_pos htakes]

theorem Core.inboxTakes_eq_false {c : Core} {n : Nat} (h : 8 ≤ (c.inbox n).length ∨ ∃ x ∈ c.overflow, x.tslot = n) :
    c.inboxTakes n = false := by
  obtain h | ⟨x, hx, hn⟩ := h
  · simp [Core.inboxTakes, Nat.not_lt.mpr h]
  · have : (c.overflow.any fun m => decide (m.tslot = n)) = true := List.any_eq_true.mpr ⟨x, hx, by simpa using hn⟩
    simp [Core.inboxTakes, this]

theorem Core.queueRecord_overflow (c : Core) (cause : Byte) (n aux : Nat) : (c.queueRecord cause n aux).overflow = c.overflow := by
  unfold Core.queueRecord
  split <;> rfl

theorem Core.queueRecord_msgs (c : Core) (cause : Byte) (n aux : Nat) : (c.queueRecord cause n aux).msgs = c.msgs := by
  unfold Core.queueRecord
  split <;> rfl

theorem Core.placeMsg_overflow {c : Core} {n : Nat} (h : 8 ≤ (c.inbox n).length ∨ ∃ x ∈ c.overflow, x.tslot = n)
    (hroom : c.overflow.length < 32) (m : Msg) : ∃ k, c.placeMsg n m = some k ∧
      k.overflow = c.overflow ++ [{ m with header := m.header ||| w64 n }] ∧ k.msgs = c.msgs := by
  rw [placeMsg, if_neg (by simp [inboxTakes_eq_false h]), if_pos hroom]
  refine ⟨_, rfl, ?_⟩
  split
  · exact ⟨Core.queueRecord_overflow .., Core.queueRecord_msgs ..⟩
  · exact ⟨rfl, rfl⟩

theorem Core.placeMsg_full {c : Core} {n : Nat} (h : 8 ≤ (c.inbox n).length ∨ ∃ x ∈ c.overflow, x.tslot = n)
    (hfull : 32 ≤ c.overflow.length) (m : Msg) : c.placeMsg n m = none := by
  rw [placeMsg, if_neg (by simp [inboxTakes_eq_false h]), if_neg (Nat.not_lt.mpr hfull)]

theorem dropFirst_of_not_mem {α : Type} [DecidableEq α] {x : α} {before after : List α} (h : x ∉ before) :
    dropFirst x (before ++ x :: after) = before ++ after := by
  induction before with
  | nil => simp [dropFirst]
  | cons y ys ih =>
    obtain ⟨hne, hys⟩ := not_or.mp (List.mem_cons.not.mp h)
    simp [dropFirst, hne, ih hys]

/-- The SENDMSG of a message that has been placed completes. -/
def State.senderDone (s : State) (sender : Option (Nat × Nat × Nat)) : State :=
  match sender with
  | some (a, b, len) => s.modSlot a b fun sl => sl.after (sl.pc + w64 len) .wait .complete
  | none => s

/-- MESSAGE_PLACEMENT places the oldest message that finds room. -/
theorem exec_messagePlacement {core : Nat} {before after : List NetMsg} {n : NetMsg} {k : Core} (hnet : s.net = before ++ n :: after)
    (hcore : n.core = core) (hbefore : ∀ x ∈ before, x.core = core → (s.core core).placeMsg x.slot x.msg = none)
    (hplace : (s.core core).placeMsg n.slot n.msg = some k) :
    exec (.messagePlacement core) s = .next (({ s.setCore core k with net := before ++ after } : State).senderDone n.sender) := by
  have hfind : placeable (s.core core) core s.net = some n := by
    have hno : before.find? (fun n => decide (n.core = core) && ((s.core core).placeMsg n.slot n.msg).isSome) = none := by
      rw [List.find?_eq_none]
      intro x hx
      by_cases hc : x.core = core
      · simp [hbefore x hx hc]
      · simp [hc]
    rw [placeable, hnet, List.find?_append, hno]
    simp [hcore, hplace]
  have hmem : n ∉ before := fun h => by simp [hbefore n h hcore] at hplace
  have hdrop : dropFirst n s.net = before ++ after := by rw [hnet, dropFirst_of_not_mem hmem]
  change event (messagePlacement core) s = _
  simp only [event, messagePlacement, M.bind_apply, M.get_apply, hfind, hplace, hdrop, M.set_apply]
  rfl

/-! ## SENDMSG (R144) -/

theorem EntriesKept.readMine {ea : W64} {n esize : Nat} {m : Mod} {x : List Byte × List Cap} (h : readMine ea n esize m s = .ok x t) :
    EntriesKept s t := .of_touched ((readSpan_does s.who ea n esize m).ok h)

theorem State.chargeAll_net (s : State) (caps : List Cap) : (s.chargeAll caps).net = s.net := by
  induction caps generalizing s with
  | nil => rfl
  | cons c caps ih =>
    rw [State.chargeAll, List.foldl_cons]
    refine (ih (s.chargeOnce c)).trans ?_
    rw [(Local.chargeOnce s c).device]

theorem msgHeader_zero (core slot : Nat) : msgHeader core slot 0 = w64 (core * 2 ^ 21 + slot * 2 ^ 17) := by simp [msgHeader]

theorem run_sendmsg {v ea : W64} {bs : List Byte} {caps : List Cap} (hp : NoPort s [d, a] none) (hv : v = s.src d) (hea : ea = s.src a)
    (hhi : fld v 32 32 = 0) (h30 : flag v 30 = false) (hform : flag v 31 = false → fld v 13 17 = 0) (hsup : flag v 31 = true → s.cur.slot = 15)
    (halign : ea.toNat % 16 = 0) (h6 : fld ea 61 3 = 6) (hwin : fld ea 58 3 ≤ 2)
    (hworld : (s.issue.core (fld v 4 9)).world = s.issue.myWorld) (hrel : releaseAt m.order m.scope s.issue = .ok () u)
    (hr : readMine ea 16 8 Mod.none u = .ok (bs, caps) t) : exec (.sendmsg d a m) s = .next (({ t.chargeAll caps with
      net := t.net ++ [⟨fld v 4 9, fld v 0 4, ⟨if flag v 31 then w64 (fld v 13 17 * 2 ^ 13)
          else w64 (s.cur.core * 2 ^ 21 + s.cur.slot * 2 ^ 17), wordAt bs 0, wordAt bs 1, 4⟩,
        some (s.cur.core, s.cur.slot, s.cur.len)⟩] } : State).waitIn .net) := by
  subst hv hea
  have hcur : (t.chargeAll caps).cur = s.cur := by
    rw [(EntriesKept.chargeAll t caps).cur, (EntriesKept.readMine hr).cur, releaseAt_cur hrel, State.issue_cur]
  have hnet : (t.chargeAll caps).net = t.net := State.chargeAll_net ..
  have hsender : some ((t.chargeAll caps).cur.core, (t.chargeAll caps).cur.slot, (t.chargeAll caps).cur.len) =
      some (s.cur.core, s.cur.slot, s.cur.len) := by rw [hcur]
  have h1 : ¬((decide (fld (s.src d) 32 32 ≠ 0) || flag (s.src d) 30) = true) := by simp [hhi, h30]
  have h2 : ¬((!flag (s.src d) 31 && decide (fld (s.src d) 13 17 ≠ 0)) = true) := by
    cases h : flag (s.src d) 31 <;> simp [hform, h]
  have h3 : ¬((flag (s.src d) 31 && !isSup s.issue) = true) := by
    cases h : flag (s.src d) 31 <;> simp [isSup, hsup, h]
  have h4 : ¬((!inWindows (s.src a)) = true) := by simp [inWindows, h6, hwin]
  change run (sendmsg d a m) s = _
  rw [run, sendmsg, waiting, withPorts_of_noPort _ hp.issue]
  simp only [M.bind_apply, M.get_apply, rd_apply, State.issue_src, if_neg h1, if_neg h2, if_neg h3, if_neg h4, halign, ne_eq,
    not_true_eq_false, if_false, hworld, hrel, hr, chargeCaps_apply, M.modify_apply, M.throw_apply, settle_wait]
  rw [if_neg (by decide), hsender, hnet, State.issue_cur, msgHeader_zero]

/-! ## WAITMSG (R146) -/

/-- WAITMSG after its operand is read. -/
def waitmsgBody (d : Reg) (n : W64) : M Unit := do
  let s ← get
  let q := s.myCore.inbox s.cur.slot
  let late := match s.me.limit with
    | some t => decide (t ≤ s.cycle)
    | none => false
  if q.isEmpty && !late then
    modMe fun sl => { sl with limit := if sl.limit.isNone && n ≠ 0 then some (s.cycle + n.toNat) else sl.limit }
    block false
  wr d (w64 q.length)

theorem exec_waitmsg (d a : Reg) : exec (.waitmsg d a) = run (waiting [a] (some d) (rd a >>= waitmsgBody d)) := rfl

theorem waitmsg_apply (s : State) (d a : Reg) : (rd a >>= waitmsgBody d) s.issue = waitmsgBody d (s.src a) s.issue := by
  rw [M.bind_apply, rd_apply, State.issue_src]

theorem waitmsgBody_answers {n : W64} (h : t.myCore.inbox t.cur.slot ≠ [] ∨ ∃ k, t.me.limit = some k ∧ k ≤ t.cycle) :
    waitmsgBody d n t = .ok () (t.writeMine d (w64 (t.myCore.inbox t.cur.slot).length)) := by
  have hgo : ¬(((t.myCore.inbox t.cur.slot).isEmpty && !(match t.me.limit with
    | some k => decide (k ≤ t.cycle)
    | none => false)) = true) := by
    obtain h | ⟨k, hk, hle⟩ := h
    · simp [h]
    · simp [hk, hle]
  simp only [waitmsgBody, M.bind_apply, M.get_apply]
  rw [if_neg hgo]
  rfl

theorem waitmsgBody_waits {n : W64} (hq : t.myCore.inbox t.cur.slot = []) (h : ∀ k, t.me.limit = some k → t.cycle < k) :
    waitmsgBody d n t = .error (.wait (.blocked false)) (t.modMe fun sl =>
      { sl with limit := if sl.limit.isNone && n ≠ 0 then some (t.cycle + n.toNat) else sl.limit }) := by
  have hwait : ((t.myCore.inbox t.cur.slot).isEmpty && !(match t.me.limit with
    | some k => decide (k ≤ t.cycle)
    | none => false)) = true := by
    cases hl : t.me.limit with
    | none => simp [hq]
    | some k => simp [hq, h k hl]
  simp only [waitmsgBody, M.bind_apply, M.get_apply]
  rw [if_pos hwait]
  rfl

theorem exec_waitmsgTimeout {core n k : Nat} {b : Bool} (hst : (s.slot core n).st = .wait) (hw : (s.slot core n).waiting = .blocked b)
    (hl : (s.slot core n).limit = some k) (hle : k ≤ s.cycle) :
    exec (.waitmsgTimeout core n) s = .next (s.modSlot core n fun sl => { sl with reissue := true }) := by
  change event (waitmsgTimeout core n) s = _
  simp only [event, waitmsgTimeout, M.bind_apply, M.get_apply, hl, hw, hst, hle, decide_true, Bool.and_self, require_true, M.set_apply]
  refine congrArg (fun x => Host.Outcome.next (s.setSlot core n x)) ?_
  generalize s.slot core n = sl at hst hw hl ⊢
  obtain ⟨⟩ := sl
  simp only at hst hw hl
  subst hst hw hl
  rfl

/-! ## RECVMSG (R146) -/

/-- The oldest message that a RECVMSG names. -/
def oldestFor (s : State) (m : Mod) : Option Msg := if m.spec.getLsbD 0 then s.myCore.overflow.head? else (s.myCore.inbox s.cur.slot).head?

/-- The message taken from its queue. -/
def Core.takenFrom (m : Mod) (slot : Nat) (c : Core) : Core := if m.spec.getLsbD 0 then { c with overflow := c.overflow.drop 1 } else c.popInbox slot

/-- RECVMSG with its oldest message. -/
def recvmsgTake (d : Reg) (m : Mod) (slot : Nat) (ea : W64) (x : Msg) : M Unit := do
  if ea.toNat % 16 ≠ 0 then trapAt Cause.align ea
  if !inWindows ea then trapXlate 5 ea
  let caps ← writeRow (← whoMe) [(ea, natToLe 8 x.w0.toNat ++ natToLe 8 x.w1.toNat)] 8
  chargeCaps caps
  modCore (Core.takenFrom m slot)
  acquireOf m.order m.scope
  if fld x.header 13 4 = 1 then acquireAt x.acqScope.toNat
  wr d x.taken

/-- RECVMSG in a slot that may make it. -/
theorem recvmsg_apply (hsup : m.spec.getLsbD 0 = true → s.cur.slot = 15) : ∃ b, exec (.recvmsg d a m) s = run (waiting [a] (some d) b) s ∧
    (oldestFor s.issue m = none → b s.issue = wr d 0 s.issue) ∧
    ∀ x, oldestFor s.issue m = some x → b s.issue = recvmsgTake d m s.cur.slot (s.src a) x s.issue := by
  have hok : ¬((m.spec.getLsbD 0 && !isSup s.issue) = true) := by
    cases h : m.spec.getLsbD 0 <;> simp [isSup, hsup, h]
  refine ⟨_, rfl, fun hnone => ?_, fun x hx => ?_⟩
  · simp only [oldestFor, State.issue_cur] at hnone
    simp only [M.bind_apply, M.get_apply, rd_apply, if_neg hok, State.issue_cur, hnone]
  · simp only [oldestFor, State.issue_cur] at hx
    simp only [M.bind_apply, M.get_apply, rd_apply, if_neg hok, hx, State.issue_src, State.issue_cur]
    rfl

theorem recvmsg_priv (hp : NoPort s [a] (some d)) (hov : m.spec.getLsbD 0 = true) (h15 : s.cur.slot ≠ 15) :
    exec (.recvmsg d a m) s = .next (takeTrap ⟨Cause.priv, s.me.pc, 0, 0xFFFF⟩ s.issue) := by
  have hpriv : (m.spec.getLsbD 0 && !isSup s.issue) = true := by simp [isSup, hov, h15]
  refine run_waiting_trap (srcs := [a]) (dst := some d) hp ?_
  simp only [M.bind_apply, M.get_apply, if_pos hpriv, trapPriv_apply, State.issue_pc]
  rfl

theorem recvmsgTake_ok {slot : Nat} {ea : W64} {x : Msg} {caps : List Cap} (halign : ea.toNat % 16 = 0) (h6 : fld ea 61 3 = 6)
    (hwin : fld ea 58 3 ≤ 2) (hw : writeRow t.who [(ea, natToLe 8 x.w0.toNat ++ natToLe 8 x.w1.toNat)] 8 t = .ok caps u) {v : State}
    (hv : v = ((u.chargeAll caps).modMyCore (Core.takenFrom m slot)).acquired m.order m.scope.toNat) : recvmsgTake d m slot ea x t =
      .ok () ((if fld x.header 13 4 = 1 then v.acquired 1 x.acqScope.toNat else v).writeMine d x.taken) := by
  have h4 : ¬((!inWindows ea) = true) := by simp [inWindows, h6, hwin]
  subst hv
  simp only [recvmsgTake, M.bind_apply, halign, ne_eq, not_true_eq_false, if_false, if_neg h4, whoMe_apply, hw, chargeCaps_apply,
    modCore_apply, acquireOf_apply]
  by_cases hk : fld x.header 13 4 = 1
  · simp only [if_pos hk, M.bind_apply, acquireAt_apply, wr_apply]
  · simp only [if_neg hk, wr_apply]

end

/-- Settles O31: a message enters the network, is placed where there is room, and is taken oldest first. -/
theorem messages : Obligations.Messages := by
  refine ⟨fun s u t d a m v ea bs caps hp hv hea hhi h30 hform hsup hal h6 hwin hw hrel hr =>
      run_sendmsg hp hv hea hhi h30 hform hsup hal h6 hwin hw hrel hr,
    fun s core before after n k hnet hcore hbefore hplace => ?_,
    fun c n m => ⟨fun h hno => Core.placeMsg_inbox h hno m, fun h => ⟨fun hr => Core.placeMsg_overflow h hr m, fun hf => Core.placeMsg_full h hf m⟩⟩,
    fun s d a hp => ⟨fun hq => ?_, fun n hq hl hle => ?_, fun hq hl => ?_, fun n hq hl hlt => ?_⟩,
    fun s core n k b hst hw hl hle => exec_waitmsgTimeout hst hw hl hle,
    fun s d a m hp => ⟨fun hov hq => ?_, fun hov h15 hq => ?_, fun hov h15 => recvmsg_priv hp hov h15⟩,
    fun s u t d a m x rest caps hp hx hal h6 hwin hw ht => ?_⟩
  · rw [exec_messagePlacement hnet hcore hbefore hplace]
    cases n.sender <;> rfl
  · have h : s.issue.myCore.inbox s.issue.cur.slot ≠ [] := by rwa [State.issue_cur]
    rw [exec_waitmsg]
    refine run_waiting hp ((waitmsg_apply s d a).trans ((waitmsgBody_answers (.inl h)).trans ?_))
    rw [State.issue_cur]
  · rw [exec_waitmsg]
    refine run_waiting hp ((waitmsg_apply s d a).trans ((waitmsgBody_answers (.inr ⟨n, hl, hle⟩)).trans ?_))
    rw [State.issue_cur, hq]
    rfl
  · rw [exec_waitmsg]
    have hq' : s.issue.myCore.inbox s.issue.cur.slot = [] := by rwa [State.issue_cur]
    refine run_waiting_again hp ((waitmsg_apply s d a).trans ((waitmsgBody_waits hq' (by simp [hl])).trans ?_))
    refine congrArg _ (State.modMe_congr ?_)
    by_cases h0 : s.src a = 0 <;> simp [hl, h0]
  · rw [exec_waitmsg]
    have hq' : s.issue.myCore.inbox s.issue.cur.slot = [] := by rwa [State.issue_cur]
    refine run_waiting_again hp ((waitmsg_apply s d a).trans ((waitmsgBody_waits hq' (by simpa [hl] using hlt)).trans ?_))
    exact congrArg _ (State.modMe_congr (by simp [hl]))
  · obtain ⟨b, hb, hnone, -⟩ := recvmsg_apply (s := s) (d := d) (a := a) (m := m) (fun h => absurd h (by rw [hov]; decide))
    rw [hb]
    refine run_waiting hp ((hnone ?_).trans (wr_apply ..))
    rw [oldestFor, hov, State.issue_cur, hq]
    rfl
  · obtain ⟨b, hb, hnone, -⟩ := recvmsg_apply (s := s) (d := d) (a := a) (m := m) (fun _ => h15)
    rw [hb]
    exact run_waiting hp ((hnone (by simp [oldestFor, hov, hq])).trans (wr_apply ..))
  · have hsup : m.spec.getLsbD 0 = true → s.cur.slot = 15 := fun hov => by
      rw [if_pos hov] at hx
      exact hx.1
    have hold : oldestFor s.issue m = some x := by
      unfold oldestFor
      by_cases hov : m.spec.getLsbD 0 = true
      · rw [if_pos hov] at hx ⊢
        rw [hx.2, List.head?_cons]
      · rw [if_neg hov] at hx ⊢
        rw [State.issue_cur, hx, List.head?_cons]
    obtain ⟨b, hb, -, hsome⟩ := recvmsg_apply (s := s) (d := d) (a := a) (m := m) hsup
    rw [hb]
    exact run_waiting hp ((hsome x hold).trans (recvmsgTake_ok hal h6 hwin (by rwa [State.issue_who]) ht))

end Sys2Proof.Machine
end

section
/-! Computations run step by step, and what pushes, swaps and splits keep of the contexts in their slots (R60, R215). -/

-- One declaration after another: checked side by side, these take more threads than the memory of the check holds.
set_option Elab.async false

namespace Sys2Proof.Machine

open Sys2Proof.Claims

/-- A computation's outcome at a state, reached one step after another. -/
def Reaches {α : Type} (m : M α) (s : State) (r : EStateM.Result Stop State α) : Prop := m s = r

namespace Reaches

variable {α β : Type} {s t : State}

theorem bind {m : M α} {f : α → M β} {y : α} {r : EStateM.Result Stop State β} (h : m s = .ok y t) (k : Reaches (f y) t r) :
    Reaches (m >>= f) s r := by
  rw [Reaches, M.bind_apply, h]
  exact k

/-- What stops the first step stops the rest. -/
theorem stop {m : M α} {f : α → M β} {e : Stop} (h : m s = .error e t) : Reaches (m >>= f) s (.error e t) := by
  rw [Reaches, M.bind_apply, h]

theorem pos {p : Prop} [Decidable p] {m n : M α} {r : EStateM.Result Stop State α} (h : p) (k : Reaches m s r) :
    Reaches (if p then m else n) s r := by
  rwa [if_pos h]

theorem neg {p : Prop} [Decidable p] {m n : M α} {r : EStateM.Result Stop State α} (h : ¬p) (k : Reaches n s r) :
    Reaches (if p then m else n) s r := by
  rwa [if_neg h]

end Reaches

/-- The same thread acts, and the same contexts stand in the slots of every core. -/
structure ContextsKept (s t : State) : Prop where
  cur_eq : t.cur = s.cur
  uid : ∀ c n, (t.slot c n).uid = (s.slot c n).uid

namespace ContextsKept

variable {s t u : State}

theorem refl (s : State) : ContextsKept s s := ⟨rfl, fun _ _ => rfl⟩
theorem trans (h : ContextsKept s t) (k : ContextsKept t u) : ContextsKept s u :=
  ⟨k.cur_eq.trans h.cur_eq, fun c n => (k.uid c n).trans (h.uid c n)⟩
theorem after (k : ContextsKept t u) (h : ContextsKept s t) : ContextsKept s u := h.trans k

theorem of_cores (hcur : t.cur = s.cur) (h : t.cores = s.cores) : ContextsKept s t :=
  ⟨hcur, fun c n => by rw [State.slot, State.core, h, ← State.core, ← State.slot]⟩

theorem of_kept (h : ThreadsKept s t) : ContextsKept s t := ⟨h.cur_eq, h.slot_uid⟩

theorem modCore {f : Core → Core} {c : Nat} (hf : ∀ k, (f k).slots = k.slots) : ContextsKept s (s.modCore c f) :=
  ⟨rfl, fun d n => by rw [s.modCore_slot_of_slots hf]⟩

theorem modSlot {f : Slot → Slot} {c n : Nat} (hf : ∀ sl, (f sl).uid = sl.uid) : ContextsKept s (s.modSlot c n f) := by
  refine ⟨rfl, fun d m => ?_⟩
  by_cases hc : c = d
  · subst hc
    by_cases hn : m = n
    · rw [hn, State.modSlot_slot, hf]
    · rw [State.modSlot_slot_of_ne _ _ _ hn]
  · rw [State.slot, show (s.modSlot c n f).core d = s.core d from State.modCore_core_of_ne s (·.modSlot n f) hc, State.slot]

theorem foldl {α : Type} {f : State → α → State} (h : ∀ s a, ContextsKept s (f s a)) (xs : List α) (s : State) :
    ContextsKept s (xs.foldl f s) := by
  induction xs generalizing s with
  | nil => exact refl s
  | cons x xs ih => exact (h s x).trans (ih _)

section
variable (s : State)

theorem setCells (cells : List Host.Cell) : ContextsKept s (s.setCells cells) := of_cores (State.setCells_cur ..) (State.setCells_cores ..)

theorem queueWrite (world wpa : Nat) (bs : List Byte) : ContextsKept s (s.queueWrite world wpa bs) := by
  unfold State.queueWrite
  split
  · dsimp only
    split
    · exact refl s
    · refine after (of_kept (.triggerWatches ..)) (after (setCells ..) ?_)
      refine foldl (fun t line => ?_) _ s
      exact of_cores rfl rfl
  · exact refl s

theorem setSegments (core b : Nat) (l : List Segment) : ContextsKept s (s.setSegments core b l) := by
  unfold State.setSegments
  split
  · exact of_cores rfl rfl
  · exact modCore fun _ => rfl

theorem splitPips (cix pips : Nat) : ContextsKept s (s.splitPips cix pips) := by
  unfold State.splitPips
  exact foldl (f := fun t (e : Chain × Nat) => t.modWorld e.1.world (·.addMeter e.1.principal e.2)) (fun t e => of_cores rfl rfl) _ s

theorem splitSegment (core slot : Nat) : ContextsKept s (s.splitSegment core slot) :=
  after (modSlot (f := fun sl => { sl with meter := 0 }) fun _ => rfl) (splitPips ..)

theorem revokeAll (uid : Nat) : ContextsKept s (s.revokeAll uid) := foldl (fun t l => of_kept (.revokeWord t l)) _ s

theorem takeRef (cix : Nat) : ContextsKept s (s.takeRef cix) := by
  unfold State.takeRef
  dsimp only
  split
  · exact refl s
  · exact of_cores rfl rfl

end

theorem swapLog {cluster w n : Nat} (h : s.swapLog cluster w n = some t) : ContextsKept s t := by
  unfold State.swapLog at h
  dsimp only at h
  split at h
  · cases h
  · cases h
    exact after (t := s.queueWrite w (s.swapAddr w n) _) (of_cores rfl rfl) (queueWrite ..)

theorem swapOut {cluster : Nat} (h : s.swapOut cluster = some t) : ContextsKept s t := by
  unfold State.swapOut at h
  split at h
  · cases h
  · split at h
    · dsimp only at h
      split at h
      · split at h
        · cases h
          exact after (setSegments ..) (after (t := s.queueWrite _ _ _) (of_cores rfl rfl) (queueWrite ..))
        · cases h
      · cases h
    · exact swapLog h
    · cases h

theorem pushLocal {core b : Nat} {p : Packet} (h : s.pushLocal core b p = some t) : ContextsKept s t := by
  unfold State.pushLocal at h
  dsimp only at h
  split at h
  · cases h
    exact modCore fun _ => rfl
  · split at h
    · cases h
      exact modCore fun _ => rfl
    · split at h
      · cases h
        exact modCore fun _ => rfl
      · obtain ⟨u, hu, rfl⟩ := Option.map_eq_some_iff.mp h
        exact after (modCore fun _ => rfl) (swapOut hu)

end ContextsKept

end Sys2Proof.Machine
end

section
/-! Fork and join: SPAWN, SYNC, YIELD, TEXIT, PKTGET and STOP (R97, R103 to R107). -/

-- One declaration after another: checked side by side, these take more threads than the memory of the check holds.
set_option Elab.async false

namespace Sys2Proof.Machine

open Sys2Proof.Claims

section
variable {s t u v c x : State} {a : Reg} {w : Vector W64 8} {caps : List Cap} {pl : Place} {cap : Cap} {r : TurnReq}

theorem workOnly_ok (h : s.cur.slot < 14) : workOnly s = .ok () s := by
  simp [workOnly, Nat.not_le.mpr h]

/-! ## The child takes the slot (R103) -/

theorem loadSlot_cur (s : State) (core n : Nat) (p : Packet) : (s.loadSlot core n p).cur = s.cur := rfl

theorem loadSlot_pc (s : State) (core n : Nat) (p : Packet) : ((s.loadSlot core n p).slot core n).pc = p.w[0] := by
  change ((s.modCore core fun k => ((k.dropCopyFault n).setSlot n (s.slotOf core p)).tally 0x1B n 1).slot core n).pc = _
  rw [State.slot, State.modCore_core, Core.tally_slot, Core.setSlot_slot]
  rfl

/-- The end of a SPAWN: the child runs in the slot behind the push of the continuation. -/
theorem spawnEnd_eq {core n len : Nat} (hcur : c.cur.core = core ∧ c.cur.slot = n) (h : c.pushLocal core (c.slot core n).band
    ⟨continuation (c.slot core n) (c.core core).world ((c.slot core n).pc + w64 len), c.cycle, false⟩ = some t) :
    c.spawnEnd core n len w = some ((childIn t core n w c.cycle).goToLater w[0]) := by
  have hk := ContextsKept.pushLocal h
  have hchild : (childIn t core n w c.cycle).cur = c.cur := by
    rw [childIn, loadSlot_cur, (ContextsKept.takeRef _ _).cur_eq, (ContextsKept.revokeAll _ _).cur_eq,
      (ContextsKept.splitSegment t core n).cur_eq, hk.cur_eq]
  have hpc : ((childIn t core n w c.cycle).slot core n).pc = w[0] := loadSlot_pc ..
  simp only [State.spawnEnd, h, Option.map_some, Option.some.injEq]
  rw [← hk.uid core n]
  change (childIn t core n w c.cycle).modSlot core n (fun sl => sl.after sl.pc .wait .complete) = _
  rw [State.goToLater, State.modMe, State.modSlot, hpc, State.setMe, State.me, hchild, hcur.1, hcur.2]

theorem spawnEnd_none {core n len : Nat} (h : c.pushLocal core (c.slot core n).band
    ⟨continuation (c.slot core n) (c.core core).world ((c.slot core n).pc + w64 len), c.cycle, false⟩ = none) :
    c.spawnEnd core n len w = none := by
  simp only [State.spawnEnd, h, Option.map_none]

/-- SPAWN once its increment is complete. -/
def spawnRest : M Ctl := do
  let s ← get
  match s.me.spawning.bind (s.spawnEnd s.cur.core s.cur.slot s.cur.len) with
  | none => block false
  | some t => do
    set t
    return .gone

theorem spawnRest_ok (hw : c.me.spawning = some w)
    (h : c.pushLocal c.cur.core c.me.band ⟨continuation c.me c.myWorld c.behind, c.cycle, false⟩ = some t) :
    spawnRest c = .ok .gone ((childIn t c.cur.core c.cur.slot w c.cycle).goToLater w[0]) := by
  have hend : c.me.spawning.bind (c.spawnEnd c.cur.core c.cur.slot c.cur.len) = some ((childIn t c.cur.core c.cur.slot w c.cycle).goToLater w[0]) := by
    rw [hw]
    exact spawnEnd_eq ⟨rfl, rfl⟩ h
  simp only [spawnRest, M.bind_apply, M.get_apply, hend, M.set_apply, M.pure_apply]

theorem spawnRest_waits (hw : c.me.spawning = some w)
    (h : c.pushLocal c.cur.core c.me.band ⟨continuation c.me c.myWorld c.behind, c.cycle, false⟩ = none) :
    spawnRest c = .error (.wait (.blocked false)) c := by
  have hend : c.me.spawning.bind (c.spawnEnd c.cur.core c.cur.slot c.cur.len) = none := by
    rw [hw]
    exact spawnEnd_none h
  simp only [spawnRest, M.bind_apply, M.get_apply, hend]
  rfl

/-- SPAWN in a work slot, with its checks still to make or made. -/
theorem spawn_begins (hp : NoPort s [a] none) (h14 : s.cur.slot < 14) (hno : s.me.spawning = none) (hb : spawnBegin a s.issue = .ok () c) :
    exec (.spawn a) s = .next (settle (spawnRest c)) := by
  have hnone : s.issue.me.spawning.isNone = true := by rw [(State.issue_frame s).2.2]; simp [hno]
  change run (spawn a) s = _
  rw [run, spawn, M.bind_apply, workOnly_ok (by rwa [State.issue_cur])]
  simp only [M.bind_apply, getMe_apply, hnone, if_true, withPorts_ok (m := fun _ => spawnBegin a) hp.issue hb]
  rfl

theorem spawn_waits (hp : NoPort s [a] none) (h14 : s.cur.slot < 14) (hno : s.me.spawning = none) {loc : Nat}
    (hb : spawnBegin a s.issue = .error (.wait (.turn loc)) c) : exec (.spawn a) s = .next (c.waitIn (.turn loc)) := by
  have hnone : s.issue.me.spawning.isNone = true := by rw [(State.issue_frame s).2.2]; simp [hno]
  change run (spawn a) s = _
  rw [run, spawn, M.bind_apply, workOnly_ok (by rwa [State.issue_cur])]
  simp only [M.bind_apply, getMe_apply, hnone, if_true, withPorts_of_noPort _ hp.issue, hb]
  rfl

theorem spawn_again (h14 : s.cur.slot < 14) (hw : s.me.spawning = some w) : exec (.spawn a) s = .next (settle (spawnRest s.issue)) := by
  have hsome : ¬(s.issue.me.spawning.isNone = true) := by rw [(State.issue_frame s).2.2]; simp [hw]
  change run (spawn a) s = _
  rw [run, spawn, M.bind_apply, workOnly_ok (by rwa [State.issue_cur])]
  simp only [M.bind_apply, getMe_apply, hsome]
  rfl

/-! ## The task under way -/

/-- The same task acts, at the same instruction, in the same world, with the same child kept. -/
structure SameTask (s t : State) : Prop where
  cur_eq : t.cur = s.cur
  uid : t.me.uid = s.me.uid
  pc : t.me.pc = s.me.pc
  world : t.myWorld = s.myWorld
  spawning : t.me.spawning = s.me.spawning

namespace SameTask

theorem refl (s : State) : SameTask s s := ⟨rfl, rfl, rfl, rfl, rfl⟩

theorem trans (h : SameTask s t) (k : SameTask t u) : SameTask s u :=
  ⟨k.cur_eq.trans h.cur_eq, k.uid.trans h.uid, k.pc.trans h.pc, k.world.trans h.world, k.spawning.trans h.spawning⟩

theorem after (k : SameTask t u) (h : SameTask s t) : SameTask s u := h.trans k

theorem of_kept (h : ThreadsKept s t) : SameTask s t :=
  ⟨h.cur_eq, h.me_uid, by rw [h.me_eq], h.myWorld_eq, by rw [h.me_eq]⟩

theorem of_local (h : Local s t) (hu : t.me.uid = s.me.uid) (hpc : t.me.pc = s.me.pc) (hsp : t.me.spawning = s.me.spawning) : SameTask s t :=
  ⟨h.cur_eq, hu, hpc, by rw [State.myWorld, State.myCore, h.cur_eq, h.core]; rfl, hsp⟩

theorem issue (s : State) : SameTask s s.issue :=
  of_local (.issue s) (State.issue_uid s) (State.issue_pc s) (by rw [(State.issue_frame s).2.2])

theorem chargeMine (s : State) (n : Nat) : SameTask s (s.chargeSlot s.cur.core s.cur.slot n) := by
  have h := chargeMine_me s n
  exact of_local (.chargeMine s n) (by rw [h]) (by rw [h]) (by rw [h])

theorem chargeOnce (s : State) (cap : Cap) : SameTask s (s.chargeOnce cap) := by
  obtain ⟨m, l, h⟩ := chargeOnce_me s cap
  exact of_local (.chargeOnce s cap) (by rw [h]) (by rw [h]) (by rw [h])

theorem chargeAll (s : State) (caps : List Cap) : SameTask s (s.chargeAll caps) := by
  induction caps generalizing s with
  | nil => exact refl s
  | cons cap caps ih => exact (chargeOnce s cap).trans (ih _)

theorem modMyCore (s : State) {f : Core → Core} (hf : ∀ k, f k = { k with l1 := (f k).l1, fills := (f k).fills, evcnt := (f k).evcnt }) :
    SameTask s (s.modMyCore f) := by
  have hme : (s.modMyCore f).me = s.me := State.modMyCore_me_of_slots (by rw [hf])
  exact of_local (.modMyCore hf) (by rw [hme]) (by rw [hme]) (by rw [hme])

theorem turnServe_spawn (hk : r.kind = .spawn) (hr : r.core = s.cur.core ∧ r.slot = s.cur.slot) (loc : Nat) :
    SameTask s (s.turnServe loc r) := by
  have he : s.turnServe loc r = ((((s.bankRead r.core loc).turnWrite loc r ((s.bankRead r.core loc).word64 loc + 1)).chargeSlot
      r.core r.slot r.pips).releaseWord loc) := by
    unfold State.turnServe
    simp only [hk]
    rfl
  have h1 : ThreadsKept s ((s.bankRead r.core loc).turnWrite loc r ((s.bankRead r.core loc).word64 loc + 1)) :=
    .after (.performWrite ..) (.bankRead ..)
  rw [he]
  generalize (s.bankRead r.core loc).turnWrite loc r _ = q at h1
  have h2 : SameTask q (q.chargeSlot r.core r.slot r.pips) := by
    rw [hr.1, hr.2, ← h1.cur_eq]
    exact chargeMine q r.pips
  exact (of_kept h1).trans (h2.trans (of_kept (.releaseWord ..)))

variable (h : SameTask s t)
include h
theorem behind_eq : t.behind = s.behind := by rw [State.behind, h.pc, h.cur_eq, State.behind]

end SameTask

/-- A SPAWN with its child kept. -/
theorem withChild_task (u : State) (w : Vector W64 8) (caps : List Cap) : (withChild u w caps).cur = u.cur ∧
    (withChild u w caps).me.uid = u.me.uid ∧ (withChild u w caps).me.pc = u.me.pc ∧ (withChild u w caps).myWorld = u.myWorld ∧
    (withChild u w caps).me.spawning = some w := by
  have h := SameTask.chargeAll u caps
  have hme : (withChild u w caps).me = { (u.chargeAll caps).me with spawning := some w } := State.modMe_me ..
  refine ⟨h.cur_eq, by rw [hme]; exact h.uid, by rw [hme]; exact h.pc, ?_, by rw [hme]⟩
  rw [← h.world, State.myWorld, withChild, State.modMe_myCore, Core.setSlot_world]
  rfl

/-! ## The checks of SPAWN -/

theorem bitsOf_zero (n : Nat) : bitsOf n 0 = [] := by simp [bitsOf]

theorem claimedUnit_none {sl : Slot} (ha : sl.accown = 0) (hp : sl.plown = 0) : claimedUnit sl = none := by
  have h1 : sl.myAccs = [] := by rw [Slot.myAccs, ha]; exact bitsOf_zero 8
  have h2 : sl.myPlanes = [] := by rw [Slot.myPlanes, hp]; exact bitsOf_zero 4
  rw [claimedUnit, h1, h2]

/-- The thread of a SPAWN whose packet has been read. -/
theorem spawnable_task (h : spawnable s u a w caps) : ThreadsKept s.issue u := by
  obtain ⟨-, -, -, -, bs, hr, -⟩ := h
  exact .of_touched ((readSpan_does s.issue.who _ _ _ _).ok hr)

theorem spawnBegin_free (h : spawnable s u a w caps) (h3 : w[3] = 0) : Reaches (spawnBegin a) s.issue (.ok () (withChild u w caps)) := by
  have hu : u.myWorld = s.myWorld := by rw [(spawnable_task h).myWorld_eq, State.issue_myWorld]
  obtain ⟨-, hacc, hpl, halign, bs, hr, hw, hform, hchain⟩ := h
  have hno : claimedUnit s.issue.me = none := claimedUnit_none (by rw [State.issue_accown, hacc]) (by rw [State.issue_plown, hpl])
  unfold spawnBegin
  refine .bind (getMe_apply _) ?_
  rw [hno]
  refine .bind (rd_apply ..) ?_
  rw [State.issue_src]
  refine .neg (not_not.mpr halign) (.bind hr (.bind (M.get_apply _) ?_))
  rw [hu, ← hw]
  extract_lets w' jp
  rw [show malformed w' = none from hform]
  refine .neg (not_not.mpr (hchain.trans ?_)) (.pos h3 (.bind (chargeCaps_apply ..) (modMe_apply ..)))
  rw [State.issue_chain]

theorem spawnBegin_join (h : spawnable s u a w caps) (h3 : w[3] ≠ 0) (hc : syncPlace u.who w[3] .atomic u = .ok (pl, cap) v)
    {r : EStateM.Result Stop State Unit}
    (hj : spawnJoin pl (if caps.any fun y => decide (y.id = cap.id) then 0 else cap.charge) (withChild v w caps) = r) :
    Reaches (spawnBegin a) s.issue r := by
  have hu : u.myWorld = s.myWorld := by rw [(spawnable_task h).myWorld_eq, State.issue_myWorld]
  obtain ⟨-, hacc, hpl, halign, bs, hr, hw, hform, hchain⟩ := h
  have hno : claimedUnit s.issue.me = none := claimedUnit_none (by rw [State.issue_accown, hacc]) (by rw [State.issue_plown, hpl])
  unfold spawnBegin
  refine .bind (getMe_apply _) ?_
  rw [hno]
  refine .bind (rd_apply ..) ?_
  rw [State.issue_src]
  refine .neg (not_not.mpr halign) (.bind hr (.bind (M.get_apply _) ?_))
  rw [hu, ← hw]
  extract_lets w' jp
  rw [show malformed w' = none from hform]
  refine .neg (not_not.mpr (hchain.trans ?_)) (.neg h3 (.bind (whoMe_apply _) (.bind hc (.bind (chargeCaps_apply ..) (.bind (modMe_apply ..) hj)))))
  rw [State.issue_chain]

theorem SameTask.turnReq (h : SameTask s t) (kind : TurnKind) (d : Reg) (value swap : W64) (m : Mod) (pl : Place) (pips : Nat) :
    turnReq kind d value swap m pl pips t = .ok (turnOf s kind d value swap m pl pips) t := by
  simp only [Machine.turnReq, turnOf, M.bind_apply, M.get_apply, M.pure_apply, h.cur_eq, h.uid, h.world]

/-- The request of SPAWN at the bank of its join word. -/
theorem spawnJoin_apply (h : SameTask s (t.performWord t.cur.core t.cur.slot pl.loc)) (pips : Nat) : spawnJoin pl pips t =
    askTurn pl.loc (turnOf s .spawn 0 0 0 ⟨0, 4, 0⟩ pl pips) (t.performWord t.cur.core t.cur.slot pl.loc) := by
  simp only [spawnJoin, M.bind_apply, whoMe_apply, M.modify_apply, State.who_core, State.who_slot, h.turnReq]

theorem ThreadsKept.who_eq (h : ThreadsKept s t) : t.who = s.who := by
  rw [State.who, h.myWorld_eq, h.me_eq, h.cur_eq]
  rfl

/-- A task with its child kept is the task, but for the child. -/
theorem turnOf_withChild (u : State) (w : Vector W64 8) (caps : List Cap) (h : SameTask s u) (kind : TurnKind) (d : Reg) (value swap : W64)
    (m : Mod) (pl : Place) (pips : Nat) : turnOf (withChild u w caps) kind d value swap m pl pips = turnOf s kind d value swap m pl pips := by
  obtain ⟨hcur, huid, -, hworld, -⟩ := withChild_task u w caps
  simp only [turnOf, hcur, huid, hworld, h.cur_eq, h.uid, h.world]

/-- The child of a SPAWN takes the slot once the continuation is pushed. -/
theorem spawnRest_child {q : State} (hq : SameTask q c) (hcur : q.cur = s.cur) (hworld : q.myWorld = s.myWorld) (hbeh : q.behind = s.behind)
    (hw : q.me.spawning = some w)
    (hpush : c.pushLocal s.cur.core c.me.band ⟨continuation c.me s.myWorld s.behind, c.cycle, false⟩ = some t) :
    spawnRest c = .ok .gone ((childIn t s.cur.core s.cur.slot w c.cycle).goToLater w[0]) := by
  have hc : c.cur = s.cur := hq.cur_eq.trans hcur
  have h := spawnRest_ok (c := c) (t := t) (hq.spawning.trans hw) (by rw [hc, hq.world, hq.behind_eq, hworld, hbeh]; exact hpush)
  rw [h, hc]

theorem exec_spawn_free (hp : NoPort s [a] none) (h14 : s.cur.slot < 14) (h : spawnable s u a w caps) (h3 : w[3] = 0)
    (hc : c = withChild u w caps)
    (hpush : c.pushLocal s.cur.core c.me.band ⟨continuation c.me s.myWorld s.behind, c.cycle, false⟩ = some t) :
    exec (.spawn a) s = .next ((childIn t s.cur.core s.cur.slot w c.cycle).goToLater w[0]) := by
  have hu := (SameTask.issue s).trans (.of_kept (spawnable_task h))
  obtain ⟨hcur, -, hpc, hworld, hsp⟩ := withChild_task u w caps
  rw [← hc] at hcur hpc hworld hsp
  have hbeh : c.behind = s.behind := by rw [State.behind, hpc, hcur, ← State.behind, hu.behind_eq]
  rw [spawn_begins hp h14 h.1 (spawnBegin_free h h3), ← hc,
    spawnRest_child (.refl c) (hcur.trans hu.cur_eq) (hworld.trans hu.world) hbeh hsp hpush]
  rfl

section
variable (hp : NoPort s [a] none) (h14 : s.cur.slot < 14) (h : spawnable s u a w caps) (h3 : w[3] ≠ 0)
  (hc : syncPlace s.who w[3] .atomic u = .ok (pl, cap) v)
  (hr : r = turnOf s .spawn 0 0 0 ⟨0, 4, 0⟩ pl (if caps.any fun y => decide (y.id = cap.id) then 0 else cap.charge))
include h h3 hc hr

/-- A SPAWN with a join word asks at its bank. -/
theorem spawnBegin_asks : spawnBegin a s.issue = askTurn pl.loc r ((withChild v w caps).performWord s.cur.core s.cur.slot pl.loc) := by
  have hu := spawnable_task h
  have hv := hu.trans ((syncPlace_does s.who w[3] .atomic).threadsKept.ok hc)
  have ht := (SameTask.issue s).trans (.of_kept hv)
  have hcur : (withChild v w caps).cur = s.cur := (withChild_task v w caps).1.trans ht.cur_eq
  have hj := spawnJoin_apply (s := withChild v w caps) (t := withChild v w caps) (pl := pl) (.of_kept (.performWord ..))
    (if caps.any fun y => decide (y.id = cap.id) then 0 else cap.charge)
  rw [turnOf_withChild v w caps ht, hcur, ← hr] at hj
  exact spawnBegin_join h h3 (by rw [hu.who_eq, State.issue_who]; exact hc) hj

variable (hx : x = ((withChild v w caps).performWord s.cur.core s.cur.slot pl.loc).lapse pl.loc)
include hx

include hp h14 in
theorem exec_spawn_waits (hbusy : ¬atOnce x pl.loc r) : exec (.spawn a) s = .next ((x.enqueueTurn pl.loc r).waitIn (.turn pl.loc)) := by
  rw [hx] at hbusy ⊢
  exact spawn_waits hp h14 h.1 ((spawnBegin_asks h h3 hc hr).trans (askTurn_waits hbusy))

include hp h14 in
theorem exec_spawn_joins (hfree : atOnce x pl.loc r) (hserve : c = x.turnServe pl.loc r)
    (hpush : c.pushLocal s.cur.core c.me.band ⟨continuation c.me s.myWorld s.behind, c.cycle, false⟩ = some t) :
    exec (.spawn a) s = .next ((childIn t s.cur.core s.cur.slot w c.cycle).goToLater w[0]) := by
  have ht := (SameTask.issue s).trans (.of_kept ((spawnable_task h).trans ((syncPlace_does s.who w[3] .atomic).threadsKept.ok hc)))
  obtain ⟨hcur, -, hpc, hworld, hsp⟩ := withChild_task v w caps
  have hbeh : (withChild v w caps).behind = s.behind := by rw [State.behind, hpc, hcur, ← State.behind, ht.behind_eq]
  have hxt : SameTask (withChild v w caps) x := hx ▸ .of_kept (.after (.lapse ..) (.performWord ..))
  have hct : SameTask (withChild v w caps) c := by
    rw [hserve]
    refine hxt.trans (.turnServe_spawn (by rw [hr]; rfl) ?_ _)
    rw [hr, hxt.cur_eq, hcur, ht.cur_eq]
    exact ⟨rfl, rfl⟩
  have hbegin : spawnBegin a s.issue = .ok () c := by
    rw [hx] at hfree hserve
    rw [spawnBegin_asks h h3 hc hr, askTurn_atOnce hfree, hserve]
  rw [spawn_begins hp h14 h.1 hbegin, spawnRest_child hct (hcur.trans ht.cur_eq) (hworld.trans ht.world) hbeh hsp hpush]
  rfl

end

end

end Sys2Proof.Machine
end

section
/-! SYNC, YIELD, TEXIT, PKTGET and STOP (R97, R104 to R107). -/

-- One declaration after another: checked side by side, these take more threads than the memory of the check holds.
set_option Elab.async false

namespace Sys2Proof.Machine

open Sys2Proof.Claims

section
variable {s t u v c : State} {a : Reg} {caps : List Cap} {pl : Place} {cap : Cap} {r : TurnReq}

/-! ## SYNC and YIELD (R104, R105) -/

/-- SYNC after its word is read. -/
def syncRest (ea : W64) (bs : List Byte) : M Ctl := do
  if leToNat bs = 0 then return .done
  else
    installWaiter ea.toNat
    parkMe (← getMe).pc .waiter false

/-- SYNC up to its word. -/
def syncBody (a : Reg) : M Ctl := do
  workOnly
  let ea ← rd a
  if ea.toNat % 8 ≠ 0 then trapAt Cause.align ea
  if ← tableFull then trapAt Cause.waittableFull ea
  let w ← whoMe
  let (pl, cap) ← checkAccess w ea 8 .read [.read]
  acquireAt 4
  let bs ← loadPlace w pl 8 ⟨1, 4, 0⟩ ea
  chargeCap cap
  acquireAt 4
  syncRest ea bs

theorem exec_sync (a : Reg) : exec (.sync a) = run (withPorts [a] none fun _ => syncBody a) := rfl

theorem syncBody_apply {bs : List Byte} (h14 : s.cur.slot < 14) (halign : (s.src a).toNat % 8 = 0) (hroom : s.issue.waitTable.length < 65536)
    (hc : checkAccess s.who (s.src a) 8 .read [.read] s.issue = .ok (pl, cap) u)
    (hl : loadPlace s.who pl 8 ⟨1, 4, 0⟩ (s.src a) (u.modMyCore (·.invalidateL1)) = .ok bs t) :
    syncBody a s.issue = syncRest (s.src a) bs ((t.chargeOnce cap).modMyCore (·.invalidateL1)) := by
  have hacq (x : State) : acquireAt 4 x = .ok () (x.modMyCore (·.invalidateL1)) := rfl
  simp only [syncBody, M.bind_apply, workOnly_ok (s := s.issue) (by rwa [State.issue_cur]), rd_apply, whoMe_apply, State.issue_src,
    State.issue_who, halign, ne_eq, not_true_eq_false, if_false, tableFull_false hroom, Bool.false_eq_true, hc, hacq, hl, chargeCap_apply]

theorem syncBody_task {bs : List Byte} (hc : checkAccess s.who (s.src a) 8 .read [.read] s.issue = .ok (pl, cap) u)
    (hl : loadPlace s.who pl 8 ⟨1, 4, 0⟩ (s.src a) (u.modMyCore (·.invalidateL1)) = .ok bs t) :
    ThreadsKept s.issue t := by
  have hpl := checkAccess_gives _ _ _ _ _ _ _ _ hc
  have h3 : ThreadsKept u (u.modMyCore (·.invalidateL1)) := .modCore fun _ => rfl
  exact ((checkAccess_kept s.who _ _ _ _).ok hc).trans (h3.trans ((loadPlace_does s.who 8 ⟨1, 4, 0⟩ (s.src a) hpl).threadsKept.ok hl))

theorem syncRest_parks {ea : W64} {bs : List Byte} (h : SameTask s t) (h0 : leToNat bs ≠ 0) : syncRest ea bs t = .ok .gone (parked
    { t with waitTable := t.waitTable ++ [⟨s.myWorld, ea.toNat, s.cur.core, s.me.uid⟩] } s.me.pc .waiter false) := by
  rw [syncRest, if_neg h0]
  simp only [installWaiter, M.bind_apply, M.modify_apply, getMe_apply, parkMe_apply]
  rw [← h.world, ← h.cur_eq, ← h.uid, ← h.pc]
  rfl

theorem chargeOnce_waitTable (s : State) (cap : Cap) : (s.chargeOnce cap).waitTable = s.waitTable := by rw [(Local.chargeOnce s cap).device]

theorem run_sync {bs : List Byte} (hp : NoPort s [a] none) (h14 : s.cur.slot < 14) (halign : (s.src a).toNat % 8 = 0)
    (hroom : s.issue.waitTable.length < 65536) (hc : checkAccess s.who (s.src a) 8 .read [.read] s.issue = .ok (pl, cap) u)
    (hl : loadPlace s.who pl 8 ⟨1, 4, 0⟩ (s.src a) (u.modMyCore (·.invalidateL1)) = .ok bs t) :
    (leToNat bs = 0 → exec (.sync a) s = .next (((t.chargeOnce cap).modMyCore (·.invalidateL1)).finish)) ∧
    (leToNat bs ≠ 0 → exec (.sync a) s = .next (parked { (t.chargeOnce cap).modMyCore (·.invalidateL1) with
      waitTable := t.waitTable ++ [⟨s.myWorld, (s.src a).toNat, s.cur.core, s.me.uid⟩] } s.me.pc .waiter false)) := by
  have hbody := syncBody_apply h14 halign hroom hc hl
  have htask : SameTask s ((t.chargeOnce cap).modMyCore (·.invalidateL1)) :=
    (SameTask.issue s).trans ((SameTask.of_kept (syncBody_task hc hl)).trans ((SameTask.chargeOnce t cap).trans (.modMyCore _ fun _ => rfl)))
  rw [exec_sync]
  refine ⟨fun h0 => ?_, fun h0 => ?_⟩
  · exact run_withPorts_ok (c := .done) hp (hbody.trans (by rw [syncRest, if_pos h0]; rfl))
  · rw [run_withPorts_ok (c := .gone) hp (hbody.trans (syncRest_parks htask h0)), ← chargeOnce_waitTable t cap]
    rfl

theorem run_yield (h14 : s.cur.slot < 14) : exec .yield s = .next (parked s.issue s.behind (.ready s.cycle) false) := by
  have hcyc : s.issue.cycle = s.cycle := (Local.issue s).device ▸ rfl
  change run yieldTask s = _
  have hbody : yieldTask s.issue = .ok .gone (parked s.issue s.issue.behind (.ready s.issue.cycle) false) := by
    simp only [yieldTask, nextAddr, M.bind_apply, workOnly_ok (s := s.issue) (by rwa [State.issue_cur]), M.get_apply, M.pure_apply, parkMe_apply]
    rfl
  rw [run, hbody, State.issue_behind, hcyc]
  rfl

/-! ## TEXIT (R106) -/

theorem texit_free (h14 : t.cur.slot < 14) (hj : t.me.join = 0) (hl : t.unitsLocked t.cur.core t.cur.slot = false) :
    Reaches texit t (.ok .gone (t.retire t.cur.core t.cur.slot)) := by
  unfold texit
  refine .bind (workOnly_ok h14) (.bind (getMe_apply _) (.pos hj (.bind (M.get_apply _) (.bind (M.get_apply _) (.bind (M.get_apply _) ?_)))))
  exact .neg (by rw [hl]; decide) (.bind (M.modify_apply _ _) (M.pure_apply ..))

theorem texit_locked (h14 : t.cur.slot < 14) (hj : t.me.join = 0) (hl : t.unitsLocked t.cur.core t.cur.slot = true) :
    Reaches texit t (.error (.wait .retiring) t) := by
  unfold texit
  refine .bind (workOnly_ok h14) (.bind (getMe_apply _) (.pos hj (.bind (M.get_apply _) (.bind (M.get_apply _) (.bind (M.get_apply _) ?_)))))
  exact .pos hl (.stop (M.throw_apply ..))

/-- TEXIT whose task may not retire yet. -/
theorem texit_waits (h14 : t.cur.slot < 14) (hj : t.me.join ≠ 0) (h : retireReady t = .error (.wait .retiring) u) :
    Reaches texit t (.error (.wait .retiring) u) := by
  unfold texit
  exact .bind (workOnly_ok h14) (.bind (getMe_apply _) (.neg hj (.stop h)))

section
variable (h14 : t.cur.slot < 14) (hj : t.me.join ≠ 0) (h : retireReady t = .ok () u)
  (hc : syncPlace u.who t.me.join .atomic u = .ok (pl, cap) v)
  (hr : turnReq .texit 0 t.me.join 0 ⟨2, 4, 0⟩ pl 0 (v.chargeOnce cap) = .ok r (v.chargeOnce cap))
include h14 hj h hc hr

theorem texit_served (hask : askTurn pl.loc r (v.chargeOnce cap) = .ok () c) : Reaches texit t (.ok .gone (c.retire c.cur.core c.cur.slot)) := by
  unfold texit
  refine .bind (workOnly_ok h14) (.bind (getMe_apply _) (.neg hj (.bind h (.bind (whoMe_apply _) (.bind hc (.bind (chargeCap_apply ..) ?_))))))
  exact .bind hr (.bind hask (.bind (M.modify_apply _ _) (M.pure_apply ..)))

theorem texit_queued (hask : askTurn pl.loc r (v.chargeOnce cap) = .error (.wait (.turn pl.loc)) c) :
    Reaches texit t (.error (.wait (.turn pl.loc)) c) := by
  unfold texit
  refine .bind (workOnly_ok h14) (.bind (getMe_apply _) (.neg hj (.bind h (.bind (whoMe_apply _) (.bind hc (.bind (chargeCap_apply ..) ?_))))))
  exact .bind hr (.stop hask)

end

theorem retireReady_ok (hu : u = t.performSlot t.cur.core t.cur.slot) (hd : u.hasDeferred t.cur.core u.me.uid = false)
    (hl : u.unitsLocked t.cur.core t.cur.slot = false) : retireReady t = .ok () u := by
  have hcur : u.cur = t.cur := hu ▸ (ThreadsKept.performSlot ..).cur_eq
  simp only [retireReady, M.bind_apply, M.modify_apply, M.get_apply, ← hu, hcur, hd, hl, Bool.or_self, Bool.false_eq_true, if_false, M.pure_apply]

theorem retireReady_waits (hu : u = t.performSlot t.cur.core t.cur.slot)
    (h : u.hasDeferred t.cur.core u.me.uid = true ∨ u.unitsLocked t.cur.core t.cur.slot = true) :
    retireReady t = .error (.wait .retiring) u := by
  have hcur : u.cur = t.cur := hu ▸ (ThreadsKept.performSlot ..).cur_eq
  have hor : (u.hasDeferred t.cur.core u.me.uid || u.unitsLocked t.cur.core t.cur.slot) = true := by simpa using h
  simp only [retireReady, M.bind_apply, M.modify_apply, M.get_apply, ← hu, hcur, hor, if_true, M.throw_apply]

theorem turnServe_texit_cur (hk : r.kind = .texit) (s : State) (loc : Nat) : (s.turnServe loc r).cur = s.cur := by
  have he : s.turnServe loc r = ((s.bankRead r.core loc).joinDown loc r).releaseWord loc := by
    unfold State.turnServe
    simp only [hk]
    rfl
  have hjoin (q : State) : (q.joinDown loc r).cur = q.cur := by
    unfold State.joinDown
    dsimp only
    split
    · obtain ⟨cores, hw⟩ := wakeOn_frame (q.turnWrite loc r (q.word64 loc - 1)) r.world r.value.toNat
        (q.turnWrite loc r (q.word64 loc - 1)).waitTable.length
      rw [hw]
      exact (ThreadsKept.performWrite ..).cur_eq
    · exact (ThreadsKept.performWrite ..).cur_eq
  rw [he, (ThreadsKept.releaseWord ..).cur_eq, hjoin, (ThreadsKept.bankRead ..).cur_eq]

theorem State.issue_join (s : State) : s.issue.me.join = s.me.join := by rw [(State.issue_frame s).2.2]

theorem run_reached {m : M Ctl} {x : EStateM.Result Stop State Ctl} (h : Reaches m s.issue x) : run m s = .next (settle x) := by
  rw [run, h]

theorem exec_texit_free (h14 : s.cur.slot < 14) (hj : s.me.join = 0) :
    (s.issue.unitsLocked s.cur.core s.cur.slot = false → exec .texit s = .next (s.issue.retire s.cur.core s.cur.slot)) ∧
    (s.issue.unitsLocked s.cur.core s.cur.slot = true → exec .texit s = .next (s.issue.waitIn .retiring)) := by
  have h14' : s.issue.cur.slot < 14 := by rwa [State.issue_cur]
  have hj' : s.issue.me.join = 0 := by rwa [State.issue_join]
  refine ⟨fun hl => ?_, fun hl => ?_⟩
  all_goals rw [← State.issue_cur s] at hl
  · have h := run_reached (texit_free h14' hj' hl)
    rw [State.issue_cur] at h
    exact h
  · exact run_reached (texit_locked h14' hj' hl)

theorem exec_texit_joins (h14 : s.cur.slot < 14) (hj : s.me.join ≠ 0) (hu : u = s.issue.performSlot s.cur.core s.cur.slot) :
    (u.hasDeferred s.cur.core u.me.uid = true ∨ u.unitsLocked s.cur.core s.cur.slot = true → exec .texit s = .next (u.waitIn .retiring)) ∧
    ∀ (v c : State) (pl : Place) (cap : Cap) (r : TurnReq), u.hasDeferred s.cur.core u.me.uid = false →
      u.unitsLocked s.cur.core s.cur.slot = false → syncPlace s.who s.me.join .atomic u = .ok (pl, cap) v →
      c = (v.chargeOnce cap).lapse pl.loc → r = turnOf s .texit 0 s.me.join 0 ⟨2, 4, 0⟩ pl 0 →
      (atOnce c pl.loc r → exec .texit s = .next ((c.turnServe pl.loc r).retire s.cur.core s.cur.slot)) ∧
      (¬atOnce c pl.loc r → exec .texit s = .next ((c.enqueueTurn pl.loc r).waitIn (.turn pl.loc))) := by
  have h14' : s.issue.cur.slot < 14 := by rwa [State.issue_cur]
  have hj' : s.issue.me.join ≠ 0 := by rwa [State.issue_join]
  have hu' : u = s.issue.performSlot s.issue.cur.core s.issue.cur.slot := by rw [State.issue_cur]; exact hu
  have hkept : ThreadsKept s.issue u := hu ▸ .performSlot ..
  refine ⟨fun h => ?_, fun v c pl cap r hd hl hc hcv hr => ?_⟩
  · exact run_reached (texit_waits h14' hj' (retireReady_waits hu' (by rwa [State.issue_cur])))
  · have hready : retireReady s.issue = .ok () u := retireReady_ok hu' (by rwa [State.issue_cur]) (by rwa [State.issue_cur])
    have hc' : syncPlace u.who s.issue.me.join .atomic u = .ok (pl, cap) v := by rwa [hkept.who_eq, State.issue_who, State.issue_join]
    have htask : SameTask s (v.chargeOnce cap) := (SameTask.issue s).trans ((SameTask.of_kept
      (hkept.trans ((syncPlace_does s.who _ .atomic).threadsKept.ok hc))).trans (.chargeOnce v cap))
    have hreq := htask.turnReq .texit 0 s.issue.me.join 0 ⟨2, 4, 0⟩ pl 0
    rw [State.issue_join, ← hr] at hreq
    have hreq' : turnReq .texit 0 s.issue.me.join 0 ⟨2, 4, 0⟩ pl 0 (v.chargeOnce cap) = .ok r (v.chargeOnce cap) := by
      rw [State.issue_join]; exact hreq
    subst hcv
    refine ⟨fun h => ?_, fun h => run_reached (texit_queued h14' hj' hready hc' hreq' (askTurn_waits h))⟩
    have hcur : (((v.chargeOnce cap).lapse pl.loc).turnServe pl.loc r).cur = s.cur := by
      rw [turnServe_texit_cur (by rw [hr]; rfl), (ThreadsKept.lapse ..).cur_eq, htask.cur_eq]
    have hdone := run_reached (texit_served h14' hj' hready hc' hreq' (askTurn_atOnce h))
    rw [hcur] at hdone
    exact hdone

theorem retire_slot (s : State) (core n : Nat) : (s.retire core n).slot core n = Slot.init := by
  rw [State.retire, State.slot]
  rw [State.modCore_core, Core.setSlot_slot]

/-! ## PKTGET and STOP (R97, R107) -/

theorem run_pktget (hp : NoPort s [a] none) (h14 : s.cur.slot < 14) (halign : (s.src a).toNat % 64 = 0)
    (hw : writeRow s.who [(s.src a, packetBytes s.issue.me.packetImage)] 8 s.issue = .ok caps t) :
    exec (.pktget a) s = .next ((t.chargeAll caps).finish) := by
  refine run_waiting (srcs := [a]) (dst := none) hp ?_
  simp only [M.bind_apply, workOnly_ok (s := s.issue) (by rwa [State.issue_cur]), rd_apply, whoMe_apply, State.issue_src, State.issue_who,
    halign, ne_eq, not_true_eq_false, if_false, getMe_apply, hw, chargeCaps_apply]

/-- Whether the event that a STOP waits for has come. -/
def stopReady (s : State) : Bool := if s.cur.slot = 15 then !s.myCore.trapq.isEmpty else s.myCore.copyWake

theorem stop_ready (h14 : ¬t.cur.slot < 14) (h : stopReady t = true) :
    Reaches stop t (.ok .done (if t.cur.slot = 14 then t.modMyCore fun k => { k with copyWake := false } else t)) := by
  have hno : ¬(!stopReady t) = true := by rw [h]; decide
  unfold stop
  refine .bind (M.get_apply _) (.neg h14 (.neg hno ?_))
  by_cases hs : t.cur.slot = 14
  · rw [if_pos hs, if_pos hs]
    exact .bind (modCore_apply ..) (M.pure_apply ..)
  · rw [if_neg hs, if_neg hs]
    exact M.pure_apply ..

theorem stop_waits (h14 : ¬t.cur.slot < 14) (h : stopReady t = false) : Reaches stop t (.error (.wait (.stop t.cur.len)) t) := by
  have hno : (!stopReady t) = true := by rw [h]; rfl
  unfold stop
  exact .bind (M.get_apply _) (.neg h14 (.pos hno (.stop (M.throw_apply ..))))

theorem stop_priv (h14 : t.cur.slot < 14) : Reaches stop t (.error (.trap ⟨Cause.priv, t.me.pc, 0, tfmtNone⟩) t) := by
  unfold stop
  exact .bind (M.get_apply _) (.pos h14 (.stop (trapPriv_apply ..)))

theorem exec_stop (s : State) :
    (s.cur.slot = 15 → s.issue.myCore.trapq ≠ [] → exec .stop s = .next s.issue.finish) ∧
    (s.cur.slot = 14 → s.issue.myCore.copyWake = true →
      exec .stop s = .next ((s.issue.modMyCore fun k => { k with copyWake := false }).finish)) ∧
    (s.cur.slot = 15 ∧ s.issue.myCore.trapq = [] ∨ s.cur.slot = 14 ∧ s.issue.myCore.copyWake = false →
      exec .stop s = .next (s.issue.waitIn (.stop s.cur.len))) ∧
    (s.cur.slot < 14 → exec .stop s = .next (takeTrap ⟨Cause.priv, s.me.pc, 0, 0xFFFF⟩ s.issue)) := by
  have hcur := State.issue_cur s
  refine ⟨fun h hq => ?_, fun h hw => ?_, fun h => ?_, fun h => ?_⟩
  · have hr := run_reached (stop_ready (t := s.issue) (by rw [hcur]; omega) (by simp [stopReady, h, hq]))
    rw [if_neg (by rw [hcur]; omega)] at hr
    exact hr
  · have hr := run_reached (stop_ready (t := s.issue) (by rw [hcur]; omega) (by simp [stopReady, h, hw]))
    rw [if_pos (by rw [hcur]; exact h)] at hr
    exact hr
  · have hr := run_reached (stop_waits (t := s.issue) (by rw [hcur]; omega) (by obtain ⟨h, hq⟩ | ⟨h, hw⟩ := h <;> simp [stopReady, *]))
    rw [hcur] at hr
    exact hr
  · have hr := run_reached (stop_priv (t := s.issue) (by rw [hcur]; exact h))
    rw [State.issue_pc] at hr
    exact hr

end

/-- Settles O36: a SPAWN ends as its child, a SYNC parks on its join word, a TEXIT retires its slot. -/
theorem forkAndJoin : Obligations.ForkAndJoin := by
  refine ⟨fun s u c a caps w hp h14 h => ⟨fun h3 hc t hpush => exec_spawn_free hp h14 h h3 hc hpush, fun v x pl cap r h3 hc hr hx =>
      ⟨exec_spawn_waits hp h14 h h3 hc hr hx, fun t hfree hserve hpush => exec_spawn_joins hp h14 h h3 hc hr hx hfree hserve hpush⟩⟩,
    fun s a w h14 hw => ⟨fun t hpush => ?_, fun hpush => ?_⟩,
    fun s u t a pl cap bs hp h14 hal hroom hc hl => run_sync hp h14 hal hroom hc hl, fun s h14 => run_yield h14,
    fun s h14 hj => exec_texit_free h14 hj, fun s u h14 hj hu => exec_texit_joins h14 hj hu, fun s core n => retire_slot s core n,
    fun s t a caps hp h14 hal hw => run_pktget hp h14 hal hw, exec_stop⟩
  all_goals
    have hsp : s.issue.me.spawning = some w := (SameTask.issue s).spawning.trans hw
    have hband : s.issue.me.band = s.me.band := by rw [(State.issue_frame s).2.2]
    have hcyc : s.issue.cycle = s.cycle := (Local.issue s).device ▸ rfl
  · rw [spawn_again h14 hw, spawnRest_child (SameTask.issue s) rfl rfl rfl hw (by rw [hband, hcyc]; exact hpush), hcyc]
    rfl
  · have hrest := spawnRest_waits (c := s.issue) hsp (by
      rw [State.issue_cur, hband, State.issue_myWorld, State.issue_behind, hcyc]; exact hpush)
    rw [spawn_again h14 hw, hrest]
    rfl

end Sys2Proof.Machine
end

section
/-! Control registers: KRD and KWR, and the supervisor's queue of records (R86, R100, R272, R274). -/

-- One declaration after another: checked side by side, these take more threads than the memory of the check holds.
set_option Elab.async false

namespace Sys2Proof.Machine

open Sys2Proof.Claims

section
variable {s t : State} {d a : Reg} {i n : Nat} {r w : Right}

/-! ## The index and its right -/

theorem kIndex_priv {v : W64} {b : Bool} (hr : kRights v.toNat = some (r, w)) (h : (if b then w else r).holds s = false) :
    kIndex v b s = .error (.trap ⟨Cause.priv, s.me.pc, 0, tfmtNone⟩) s := by
  simp [kIndex, hr, h]

theorem kIndex_illegal {v : W64} {b : Bool} (hr : kRights v.toNat = none) : kIndex v b s = .error (.trap ⟨Cause.illegal, v, 0, tfmtNone⟩) s := by
  simp [kIndex, hr]

theorem kRights_beyond (h : 0x40 ≤ i) : kRights i = none := by
  simp only [kRights, Bool.and_eq_true, Bool.or_eq_true, decide_eq_true_eq]
  repeat rw [if_neg (by omega)]

theorem kRights_sup (h : i ∈ [0x18, 0x19, 0x1A]) : kRights i = some (.sup, .sup) := by
  simp only [List.mem_cons, List.not_mem_nil, or_false] at h
  obtain rfl | rfl | rfl := h <;> rfl

theorem kRights_events (h : i < 16) : kRights (0x30 + i) = some (.any, .sup) := by
  interval_cases i <;> rfl

theorem sup_holds_of_ne (h : s.cur.slot ≠ 15) : Right.sup.holds s.issue = false := by
  simp [Right.holds, isSup, h]

theorem kSlot_of_program (h : s.cur.slot ≠ 15) : kSlot i s = s.cur.slot := by simp [kSlot, isSup, h]

theorem kDone_next (h : i < 0x20 ∨ 0x22 < i) : kDone i false = .next := by
  simp only [kDone, Bool.false_or, Bool.and_eq_true, decide_eq_true_eq, ite_eq_right_iff]
  omega

theorem run_withPorts_trap {srcs : List Reg} {dst : Option Reg} {m : Bool → M Ctl} {ti : TrapInfo} (hp : NoPort s srcs dst)
    (hm : m false s.issue = .error (.trap ti) t) : run (withPorts srcs dst m) s = .next (takeTrap ti t) := by
  rw [run, withPorts_of_noPort _ hp.issue, hm]
  rfl

/-! ## KRD -/

theorem exec_krd_next {v : W64} (hp : NoPort s [a] (some d)) (hi : (s.src a).toNat = i) (hr : kRights i = some (r, w)) (hh : r.holds s.issue = true)
    (hl : i < 0x20 ∨ 0x22 < i) (hk : kRead i s.issue = .ok v t) : exec (.krd d a) s = .next ((t.writeMine d v).advance) := by
  subst hi
  rw [exec_krd hp hr hh hk, kDone_next hl, settle_next]

theorem exec_krd_trap {ti : TrapInfo} (hp : NoPort s [a] (some d)) (h : kIndex (s.src a) false s.issue = .error (.trap ti) s.issue) :
    exec (.krd d a) s = .next (takeTrap ti s.issue) := by
  refine run_withPorts_trap hp ?_
  simp only [M.bind_apply, rd_apply, State.issue_src, h]

/-- KRD of a slot's register in a slot of a program. -/
theorem exec_krd_program {q : Nat × (State → Nat → W64)} (hq : q ∈ slotRegisters) (hp : NoPort s [a] (some d)) (hi : (s.src a).toNat = q.1)
    (h : s.cur.slot ≠ 15) : exec (.krd d a) s = .next ((s.issue.writeMine d (q.2 s.issue s.cur.slot)).advance) := by
  obtain ⟨hof, hval⟩ := slotRegisters_eq_kOfSlot hq
  obtain ⟨w, hr⟩ := kRights_of_ofSelected hof
  have hread : kRead q.1 s.issue = .ok (q.2 s.issue s.cur.slot) s.issue := by
    have hs : kSlot q.1 s.issue = s.cur.slot := by rw [kSlot_of_program (by rwa [State.issue_cur]), State.issue_cur]
    simp [kRead, hof, hs, isSup, h, hval]
  rw [← hi] at hr hread hof
  rw [exec_krd hp hr rfl hread, kDone_of_ofSelected hof, settle_next]

/-- KRD of a register of the slot in k.slotsel. -/
theorem exec_krd_selected {q : Nat × (State → Nat → W64)} (hq : q ∈ slotRegisters) (hp : NoPort s [a] (some d)) (hi : (s.src a).toNat = q.1)
    (h : s.cur.slot = 15) (hst : (s.issue.slot s.cur.core s.myCore.slotsel.toNat).st ≠ .free) :
    exec (.krd d a) s = .next ((s.issue.writeMine d (q.2 s.issue s.myCore.slotsel.toNat)).advance) := by
  obtain ⟨hof, hval⟩ := slotRegisters_eq_kOfSlot hq
  have hs : kSlot q.1 s.issue = s.myCore.slotsel.toNat := by rw [kSlot_of_supervisor (by rwa [State.issue_cur]) hof, State.issue_slotsel]
  rw [← hi] at hof hs
  rw [exec_krd_ofSelected hp hof (by rwa [hs]), hs, hi, hval]

/-- A register of a FREE slot in k.slotsel reads 0. -/
theorem exec_krd_free {q : Nat × (State → Nat → W64)} (hq : q ∈ slotRegisters) (hp : NoPort s [a] (some d)) (hi : (s.src a).toNat = q.1)
    (h : s.cur.slot = 15) (hst : (s.issue.slot s.cur.core s.myCore.slotsel.toNat).st = .free) :
    exec (.krd d a) s = .next ((s.issue.writeMine d 0).advance) := by
  have h0 : ∀ q ∈ slotRegisters, q.1 ≠ 0 := by decide
  obtain ⟨hof, -⟩ := slotRegisters_eq_kOfSlot hq
  obtain ⟨w, hr⟩ := kRights_of_ofSelected hof
  have hread : kRead q.1 s.issue = .ok 0 s.issue := by
    have hs : kSlot q.1 s.issue = s.myCore.slotsel.toNat := by rw [kSlot_of_supervisor (by rwa [State.issue_cur]) hof, State.issue_slotsel]
    simp [kRead, hof, hs, isSup, h, hst, h0 q hq]
  rw [← hi] at hr hread hof
  rw [exec_krd hp hr rfl hread, kDone_of_ofSelected hof, settle_next]

/-- KRD of k.status. -/
theorem exec_krd_status (hp : NoPort s [a] (some d)) (hi : s.src a = 0) (hn : n = if s.cur.slot = 15 then s.myCore.slotsel.toNat else s.cur.slot) :
    exec (.krd d a) s = .next ((s.issue.writeMine d (s.issue.kStatus (s.issue.slot s.cur.core n) n)).advance) := by
  have hs : kSlot 0 s.issue = n := by
    rw [hn, kSlot, State.issue_slotsel, State.issue_cur]
    simp [isSup, ofSelected]
  have hread : kRead 0 s.issue = .ok (s.issue.kStatus (s.issue.slot s.cur.core n) n) s.issue := by
    simp [kRead, ofSelected, hs, State.kOfSlot]
  exact exec_krd_next hp (congrArg BitVec.toNat hi) rfl rfl (.inl (by decide)) hread

theorem kRead_events (h : i < 16) (s : State) :
    kRead (0x30 + i) s = .ok (if i < 8 then vat 0 s.myCore.evsel i else vat 0 s.myCore.evcnt (i - 8)) s := by
  interval_cases i <;> rfl

/-- KRD of a register of the core that any slot reads. -/
theorem exec_krd_core {q : Nat × (State → W64)} (hq : q ∈ coreRegisters) (hp : NoPort s [a] (some d)) (hi : (s.src a).toNat = q.1) :
    exec (.krd d a) s = .next ((s.issue.writeMine d (q.2 s.issue)).advance) := by
  simp only [coreRegisters, List.mem_append, List.mem_cons, List.not_mem_nil, or_false, List.mem_map, List.mem_range] at hq
  obtain ((rfl | rfl) | ⟨j, hj, rfl⟩) | ⟨j, hj, rfl⟩ := hq
  · exact exec_krd_next hp hi rfl rfl (by decide) rfl
  · exact exec_krd_next hp hi rfl rfl (by decide) rfl
  · refine exec_krd_next hp hi (kRights_events (by omega)) rfl (.inr (by omega)) ?_
    rw [kRead_events (by omega), if_pos hj]
  · have h8 : 0x38 + j = 0x30 + (8 + j) := by omega
    refine exec_krd_next hp hi (h8 ▸ kRights_events (by omega)) rfl (.inr (by omega)) ?_
    rw [h8, kRead_events (by omega), if_neg (by omega), Nat.add_sub_cancel_left]

@[simp] theorem State.issue_trapq (s : State) : s.issue.myCore.trapq = s.myCore.trapq := by rw [(State.issue_frame s).2.1.1]

/-- KRD of k.trapq gives up the oldest record. -/
theorem exec_krd_trapq (hp : NoPort s [a] (some d)) (hi : (s.src a).toNat = 0x19) (h : s.cur.slot = 15) : exec (.krd d a) s =
    .next (((s.issue.modMyCore fun k => { k with trapq := k.trapq.drop 1 }).writeMine d (s.myCore.trapq.headD 0)).advance) := by
  rw [← State.issue_trapq]
  exact exec_krd_next hp hi rfl (sup_holds (by rwa [State.issue_cur])) (.inl (by decide)) rfl

theorem exec_krd_slotsel (hp : NoPort s [a] (some d)) (hi : (s.src a).toNat = 0x1A) (h : s.cur.slot = 15) : exec (.krd d a) s =
    .next ((s.issue.writeMine d (s.myCore.slotsel.setWidth 64)).advance) := by
  rw [← State.issue_slotsel]
  exact exec_krd_next hp hi rfl (sup_holds (by rwa [State.issue_cur])) (.inl (by decide)) rfl

@[simp] theorem State.issue_wmsel (s : State) : s.issue.me.wmsel = s.me.wmsel := by rw [(State.issue_frame s).2.2]

theorem exec_krd_waymask (hp : NoPort s [a] (some d)) (hi : (s.src a).toNat = 0x20) (h : s.myWorld = 1) : exec (.krd d a) s =
    .next ((s.issue.writeMine d ((s.wayMask (fld s.me.wmsel 0 4) (fld s.me.wmsel 4 6)).setWidth 64)).finish) := by
  have hmask (w c : Nat) : s.issue.wayMask w c = s.wayMask w c := by rw [State.wayMask, State.wayMask, (Local.issue s).device]
  have hread : kRead (s.src a).toNat s.issue = .ok ((s.wayMask (fld s.me.wmsel 0 4) (fld s.me.wmsel 4 6)).setWidth 64) s.issue := by
    rw [hi, ← hmask, ← State.issue_wmsel]
    rfl
  have hw : Right.world1.holds s.issue = true := decide_eq_true (by rwa [State.issue_myWorld])
  rw [exec_krd hp (congrArg kRights hi) hw hread, hi]
  rfl

/-- k.cycle is the cycle in which the KRD issues. -/
theorem issue_coreCycle (h : s.me.reissue = false) : s.issue.me.issuedAt - s.issue.myCore.enabledAt = s.coreCycle s.cur.core := by
  have hen : s.issue.myCore.enabledAt = s.myCore.enabledAt := by rw [(State.issue_frame s).2.1.1]
  have hat : s.issue.me.issuedAt = s.cycle := by
    rw [State.issue, h, if_neg (by decide)]
    simp [State.chargeSlot, State.me, State.slot, State.modMyCore, State.modMe, State.setMe, State.setSlot]
  rw [hen, hat]
  rfl

/-! ## KWR -/

theorem exec_kwr_priv (hp : NoPort s [d, a] none)
    (h : kIndex (s.src d) true s.issue = .error (.trap ⟨Cause.priv, s.issue.me.pc, 0, tfmtNone⟩) s.issue) :
    exec (.kwr d a) s = .next (takeTrap ⟨Cause.priv, s.me.pc, 0, 0xFFFF⟩ s.issue) := by
  rw [← State.issue_pc]
  refine run_withPorts_trap hp ?_
  simp only [M.bind_apply, rd_apply, State.issue_src, h]
  rfl

theorem exec_kwr_next (hp : NoPort s [d, a] none) (hi : (s.src d).toNat = i) (hr : kRights i = some (r, w)) (hh : w.holds s.issue = true)
    (hl : i < 0x20 ∨ 0x22 < i) (hk : kWrite i (s.src a) s.issue = .ok () t) : exec (.kwr d a) s = .next t.advance := by
  subst hi
  rw [exec_kwr hp hr hh hk, kDone_next hl, settle_next]

/-- The registers of a slot that KWR writes, with who writes them. -/
theorem slotWrites_spec {q : Nat × (Slot → W64 → Slot)} (hq : q ∈ slotWrites) :
    q.1 ≠ 0 ∧ ofSelected q.1 = true ∧ kRights q.1 = some (.any, if q.1 = 7 ∨ q.1 = 8 then .any else .sup) ∧
      ∀ (sl : Slot) v s c, sl.kSet q.1 v s c = q.2 sl v := by
  simp only [slotWrites, List.mem_cons, List.not_mem_nil, or_false] at hq
  rcases hq with rfl | rfl | rfl | rfl | rfl | rfl | rfl | rfl <;>
    exact ⟨by decide, by decide, rfl, fun _ _ _ _ => by simp [Slot.kSet, keep]⟩

theorem kWrite_selected {v : W64} (ho : ofSelected i = true) (h0 : i ≠ 0) (hf : t.cur.slot = 15 → (t.slot t.cur.core (kSlot i t)).st ≠ .free) :
    kWrite i v t = .ok () (t.modSlot t.cur.core (kSlot i t) fun sl => sl.kSet i v t t.cur.core) := by
  have hno : ¬(isSup t && decide ((t.slot t.cur.core (kSlot i t)).st = .free)) = true := by
    simpa [isSup] using hf
  simp only [kWrite, M.bind_apply, M.get_apply, ho, if_true, if_neg hno, if_neg h0, M.set_apply]

theorem exec_kwr_slot {q : Nat × (Slot → W64 → Slot)} (hq : q ∈ slotWrites) (hp : NoPort s [d, a] none) (hi : (s.src d).toNat = q.1)
    (hh : s.cur.slot = 15 ∨ q.1 = 7 ∨ q.1 = 8) (hn : kSlot q.1 s.issue = n) (hf : s.cur.slot = 15 → (s.issue.slot s.cur.core n).st ≠ .free) :
    exec (.kwr d a) s = .next ((s.issue.modSlot s.cur.core n fun sl => q.2 sl (s.src a)).advance) := by
  obtain ⟨h0, ho, hr, hset⟩ := slotWrites_spec hq
  subst hn
  have hw := kWrite_selected (v := s.src a) ho h0 (t := s.issue) (by rwa [State.issue_cur])
  simp only [hset, State.issue_cur] at hw
  have hhold : (if q.1 = 7 ∨ q.1 = 8 then Right.any else .sup).holds s.issue = true := by
    split
    · rfl
    · next h => exact sup_holds (by rw [State.issue_cur]; exact hh.resolve_right h)
  have hle : q.1 < 0x20 := by rcases ofSelected_iff.1 ho with h | h <;> omega
  exact exec_kwr_next hp hi hr hhold (.inl hle) hw

theorem exec_kwr_selected {q : Nat × (Slot → W64 → Slot)} (hq : q ∈ slotWrites) (hp : NoPort s [d, a] none) (hi : (s.src d).toNat = q.1)
    (h : s.cur.slot = 15) (hf : (s.issue.slot s.cur.core s.myCore.slotsel.toNat).st ≠ .free) :
    exec (.kwr d a) s = .next ((s.issue.modSlot s.cur.core s.myCore.slotsel.toNat fun sl => q.2 sl (s.src a)).advance) := by
  refine exec_kwr_slot hq hp hi (.inl h) ?_ fun _ => hf
  rw [kSlot_of_supervisor (by rwa [State.issue_cur]) (slotWrites_spec hq).2.1, State.issue_slotsel]

theorem exec_kwr_program {q : Nat × (Slot → W64 → Slot)} (hq : q ∈ slotWrites) (hp : NoPort s [d, a] none) (hi : (s.src d).toNat = q.1)
    (h : s.cur.slot ≠ 15) (h78 : q.1 = 7 ∨ q.1 = 8) : exec (.kwr d a) s = .next ((s.issue.modMe fun sl => q.2 sl (s.src a)).advance) := by
  rw [exec_kwr_slot hq hp hi (.inr h78) (kSlot_of_program (by rwa [State.issue_cur])) fun h15 => absurd h15 h, State.issue_cur]
  exact congrArg (fun x => Host.Outcome.next (State.advance x)) (by rw [← State.issue_cur s]; rfl)

theorem exec_kwr_slotsel (hp : NoPort s [d, a] none) (hi : (s.src d).toNat = 0x1A) (h : s.cur.slot = 15) :
    exec (.kwr d a) s = .next ((s.issue.modMyCore fun k => { k with slotsel := (s.src a).setWidth 4 }).advance) :=
  exec_kwr_next hp hi rfl (sup_holds (by rwa [State.issue_cur])) (.inl (by decide)) rfl

theorem exec_kwr_trapq (hp : NoPort s [d, a] none) (hi : (s.src d).toNat = 0x19) (h0 : s.src a = 0) (h : s.cur.slot = 15) :
    exec (.kwr d a) s = .next ((s.issue.modMyCore fun k => { k with trapq := [] }).advance) :=
  exec_kwr_next hp hi rfl (sup_holds (by rwa [State.issue_cur])) (.inl (by decide)) (by rw [h0]; rfl)

end

theorem controlRegisterClauses : Claims.ControlRegisters := by
  refine ⟨fun q hq s d a hp hi => ⟨exec_krd_program hq hp hi, ?_, exec_krd_free hq hp hi⟩, fun s d a n hp hi hn => ?_, fun s => issue_coreCycle,
    fun q hq s d a hp hi => exec_krd_core hq hp hi, fun s d a hp => ⟨exec_krd_trapq hp, fun hi h => exec_krd_vbase hp h hi, fun hi h => ?_,
      exec_krd_waymask hp, fun hi => exec_krd_trap hp (kIndex_illegal (kRights_beyond hi))⟩,
    fun q hq s d a hp hi => ⟨?_, exec_kwr_program hq hp hi, fun h h7 h8 => exec_kwr_priv hp ?_⟩,
    fun s d a hp h => ⟨exec_kwr_vbase_even hp h, fun hi => exec_kwr_slotsel hp hi h, fun hi h0 => exec_kwr_trapq hp hi h0 h⟩, fun _ _ => rfl,
    fun _ => rfl⟩
  · rintro _ h rfl hst
    exact exec_krd_selected hq hp hi h hst
  · rw [exec_krd_status hp hi hn, State.kStatus, State.issue_worldOf, State.issue_myWorld]
  · rw [← State.issue_pc]
    exact exec_krd_trap hp (kIndex_priv (kRights_sup hi) (sup_holds_of_ne h))
  · rintro _ h rfl hst
    exact exec_kwr_selected hq hp hi h hst
  · have hr := (slotWrites_spec hq).2.2.1
    rw [← hi] at hr h7 h8
    exact kIndex_priv hr (by rw [if_pos rfl, if_neg (not_or.2 ⟨h7, h8⟩)]; exact sup_holds_of_ne h)

/-! ## Completion -/

section
variable {s u : State} {d a : Reg} {v : W64}

theorem State.advance_me (t : State) : t.advance.me = t.me.after t.behind .run .none := State.modMe_me ..
theorem State.advance_mem (t : State) : t.advance.mem = t.mem := State.modMe_mem ..

theorem State.modMe_trapq (x : State) (f : Slot → Slot) : (x.modMe f).myCore.trapq = x.myCore.trapq := by
  simp [State.modMe, State.setMe, State.setSlot, State.myCore]

theorem State.advance_trapq (t : State) : t.advance.myCore.trapq = t.myCore.trapq := State.modMe_trapq ..

/-- What a register's write leaves where the thread goes on. -/
theorem advance_written (h : ¬(u.myCore.portOut u.cur.slot = true ∧ d = qo)) : (u.writeMine d v).advance.me.pc = u.behind ∧
    (u.writeMine d v).advance.me.st = .run ∧ (Held u d → (u.writeMine d v).advance.me.reg d = v) ∧ (u.writeMine d v).advance.mem = u.mem ∧
    (u.writeMine d v).advance.myCore.trapq = u.myCore.trapq := by
  rw [State.writeMine_register v h, State.advance_me, State.advance_mem, State.advance_trapq]
  split
  · next hin => exact ⟨rfl, rfl, fun hheld => absurd hin hheld.2.1, rfl, rfl⟩
  · refine ⟨?_, rfl, fun hheld => ?_, State.modMe_mem .., State.modMe_trapq ..⟩
    · change (u.modMe (·.setReg d v)).behind = u.behind
      by_cases hd : d = 0#5 <;> simp [State.behind, Slot.setReg, hd]
    · rw [State.modMe_me]
      exact Slot.setReg_reg v hheld.1

/-- The same of an instruction that has issued. -/
theorem advance_issue_written (hp : NoPort s [a] (some d)) : (s.issue.writeMine d v).advance.me.pc = s.behind ∧
    (s.issue.writeMine d v).advance.me.st = .run ∧ (Held s d → (s.issue.writeMine d v).advance.me.reg d = v) ∧
    (s.issue.writeMine d v).advance.mem = s.mem := by
  obtain ⟨hpc, hst, hreg, hmem, -⟩ := advance_written (u := s.issue) (v := v) (by simpa [NoPort] using hp.2)
  exact ⟨by rw [hpc, State.issue_behind], hst, by simpa [Held] using hreg, by rw [hmem, State.issue_mem]⟩

/-- KWR of a register of its own leaves a program its registers and memory. -/
theorem advance_modMe (f : Slot → Slot) (hpc : (f s.issue.me).pc = s.issue.me.pc) (hs : (f s.issue.me).s = s.issue.me.s) :
    (s.issue.modMe f).advance.me.pc = s.behind ∧ (s.issue.modMe f).advance.me.st = .run ∧ (s.issue.modMe f).advance.me.s = s.me.s ∧
    (s.issue.modMe f).advance.mem = s.mem := by
  rw [State.advance_me, State.advance_mem, State.modMe_me, State.modMe_mem, State.issue_mem, ← State.issue_s]
  refine ⟨?_, rfl, hs, rfl⟩
  change (s.issue.modMe f).behind = s.behind
  simp [State.behind, hpc]

theorem exec_kwr_fpc (hp : NoPort s [d, a] none) (hi : (s.src d).toNat = 0x07) (h : s.cur.slot ≠ 15) :
    exec (.kwr d a) s = .next ((s.issue.modMe fun sl => { sl with fpc := w64 (fld (s.src a) 0 3) }).advance) :=
  exec_kwr_program (q := (0x07, fun sl v => { sl with fpc := w64 (fld v 0 3) })) (List.mem_iff_getElem?.2 ⟨6, rfl⟩) hp hi h (.inl rfl)

theorem exec_kwr_flags (hp : NoPort s [d, a] none) (hi : (s.src d).toNat = 0x08) (h : s.cur.slot ≠ 15) :
    exec (.kwr d a) s = .next ((s.issue.modMe fun sl => { sl with flags := w64 (fld (s.src a) 0 9) }).advance) :=
  exec_kwr_program (q := (0x08, fun sl v => { sl with flags := w64 (fld v 0 9) })) (List.mem_iff_getElem?.2 ⟨7, rfl⟩) hp hi h (.inr rfl)

/-- A change of the core that leaves its slots, the ports and the world. -/
theorem modMyCore_me (f : Core → Core) (hf : ∀ k, (f k).slots = k.slots) : (u.modMyCore f).me = u.me := by
  simp [State.me, State.slot, State.modMyCore, Core.slot, hf]

theorem advance_modMyCore (f : Core → Core) (hf : ∀ k, (f k).slots = k.slots) : (s.issue.modMyCore f).advance.me.pc = s.behind := by
  have hbehind : (s.issue.modMyCore f).behind = s.issue.behind := by rw [State.behind, modMyCore_me f hf]; rfl
  rw [State.advance_me, ← State.issue_behind s, ← hbehind]
  rfl

/-- KRD of k.trapq goes on behind it, without the oldest record, which its register holds. -/
theorem trapq_written (hp : NoPort s [a] (some d)) {t : State} (ht : t = s.issue.modMyCore fun k => { k with trapq := k.trapq.drop 1 }) :
    (t.writeMine d v).advance.me.pc = s.behind ∧ (t.writeMine d v).advance.myCore.trapq = s.myCore.trapq.drop 1 ∧
    (Held s d → (t.writeMine d v).advance.me.reg d = v) := by
  have hcur : t.cur = s.cur := by rw [ht]; exact State.issue_cur s
  have hcore : t.myCore = { s.issue.myCore with trapq := s.myCore.trapq.drop 1 } := by
    rw [ht, ← State.issue_trapq]
    exact State.modCore_core ..
  have hout (n : Nat) : t.myCore.portOut n = s.myCore.portOut n := by rw [hcore, ← State.issue_portOut]; rfl
  have hin (n : Nat) : t.myCore.portIn n = s.myCore.portIn n := by rw [hcore, ← State.issue_portIn]; rfl
  obtain ⟨hpc, -, hreg, -, hq⟩ := advance_written (d := d) (v := v) (u := t) (by rw [hout, hcur]; simpa using hp.2)
  refine ⟨hpc.trans ?_, hq.trans (by rw [hcore]), fun hheld => hreg ?_⟩
  · have hme : t.me = s.issue.me := ht ▸ modMyCore_me _ fun _ => rfl
    rw [State.behind, hcur, hme, State.issue_pc]
    rfl
  · rwa [Held, hin, hout, hcur]

theorem State.writeReg_trapq (s : State) (core n : Nat) (r : Reg) (v : W64) (c : Nat) :
    ((s.writeReg core n r v).core c).trapq = (s.core c).trapq := by
  have hmod (k : Nat) (f : Core → Core) (hf : ∀ x, (f x).trapq = x.trapq) : ((s.modCore k f).core c).trapq = (s.core c).trapq := by
    by_cases hk : k = c
    · rw [← hk, State.modCore_core, hf]
    · rw [State.modCore_core_of_ne _ _ hk]
  rw [State.writeReg]
  split_ifs
  · rfl
  · exact hmod _ _ fun _ => rfl
  · exact hmod core (fun k => k.modSlot n (·.setReg r v)) fun _ => rfl

theorem registersComplete : RegistersComplete := by
  refine ⟨fun q hq s d a hp hi h => ⟨_, exec_krd_program hq hp hi h, advance_issue_written hp⟩, fun s d a hp h => ⟨fun hi => ?_, fun hi => ?_⟩,
    fun s d a hp h => ⟨fun hi => ?_, fun hi => ⟨_, exec_krd_trapq hp hi h, trapq_written hp rfl⟩, fun hi => ?_⟩,
    fun s d a hp h => ⟨fun hi heven => ⟨_, exec_kwr_vbase_even hp h hi heven, advance_modMyCore _ fun _ => rfl, ?_⟩,
      fun hi => ⟨_, exec_kwr_slotsel hp hi h, advance_modMyCore _ fun _ => rfl, ?_⟩⟩, fun s d => ⟨_, _, rfl, ?_, rfl, ?_⟩⟩
  · obtain ⟨hpc, hst, hs, hmem⟩ := advance_modMe (s := s) (fun sl => { sl with fpc := w64 (fld (s.src a) 0 3) }) rfl rfl
    exact ⟨_, exec_kwr_fpc hp hi h, hpc, hst, by rw [State.advance_me, State.modMe_me]; rfl, hs, hmem⟩
  · obtain ⟨hpc, hst, hs, hmem⟩ := advance_modMe (s := s) (fun sl => { sl with flags := w64 (fld (s.src a) 0 9) }) rfl rfl
    exact ⟨_, exec_kwr_flags hp hi h, hpc, hst, by rw [State.advance_me, State.modMe_me]; rfl, hs, hmem⟩
  · obtain ⟨hpc, -, hreg, -⟩ := advance_issue_written (v := s.myCore.vbase) hp
    exact ⟨_, exec_krd_vbase hp h hi, hpc, hreg⟩
  · obtain ⟨hpc, -, hreg, -⟩ := advance_issue_written (v := s.myCore.slotsel.setWidth 64) hp
    exact ⟨_, exec_krd_slotsel hp hi h, hpc, hreg⟩
  · simp [State.advance, State.goTo, State.modMe, State.setMe, State.setSlot, State.myCore, State.modMyCore]
  · simp [State.advance, State.goTo, State.modMe, State.setMe, State.setSlot, State.myCore, State.modMyCore]
  · change (((s.modMyCore fun k => { k with trapq := k.trapq.drop 1 }).writeReg s.cur.core 15 d (s.myCore.trapq.headD 0)).core _).trapq = _
    rw [State.writeReg_trapq, (EntriesKept.writeReg ..).cur]
    simp [State.myCore, State.modMyCore]
  · simp [State.myCore, State.modMyCore]

end

/-- Settles O43: each register's index has its right, and KRD and KWR read and write what the index names. -/
theorem controlRegisters : Obligations.ControlRegisters := ⟨controlRegisterClauses, registersComplete⟩

end Sys2Proof.Machine
end

section
/-! Stop points, PREEMPT, HALTT, RESUME, CTXSAVE, CTXLOAD, and the completion of an instruction (R90, R278, R279, R286). -/

-- One declaration after another: checked side by side, these take more threads than the memory of the check holds.
set_option Elab.async false

namespace Sys2Proof.Machine

open Sys2Proof.Claims

section
variable {s t : State} {d a : Reg} {c n i : Nat} {e : CtxEntry}

/-! ## The slot operand -/

/-- An operand that names a work slot and, where the instruction has such a bit, sets it or not. -/
theorem slotOperand_ok {v : W64} {b : Nat} (hv : v.toNat = fld v 0 4 + keep v b 1) (hn : fld v 0 4 < 14) :
    slotOperand v (some b) s = .ok (fld v 0 4) s := by
  have hno : ¬(decide (v.toNat ≠ fld v 0 4 + keep v b 1) || decide (fld v 0 4 ≥ 14)) = true := by
    simp only [Bool.or_eq_true, decide_eq_true_eq, not_or, ne_eq, not_not, not_le]
    exact ⟨hv, hn⟩
  simp only [slotOperand, if_neg hno, M.pure_apply]

theorem fld_low {v : W64} (h : v.toNat = n) (hn : n < 14) : fld v 0 4 = n := by
  simp only [fld, h]
  omega

theorem flag_high {v : W64} {b : Nat} (hv : v.toNat < 2 ^ b) : flag v b = false := by
  simp [flag, Nat.div_eq_of_lt hv]

theorem keep_high {v : W64} {b : Nat} (hv : v.toNat < 2 ^ b) : keep v b 1 = 0 := by
  simp [keep, fld, Nat.div_eq_of_lt hv]

/-- The operand of a work slot alone. -/
theorem slotOperand_slot {v : W64} (hv : v.toNat = n) (hn : n < 14) : slotOperand v none s = .ok n s := by
  simp [slotOperand, fld_low hv hn, hv, hn]

theorem slotOperand_slot_bit {v : W64} (hv : v.toNat = n) (hn : n < 14) : slotOperand v (some 8) s = .ok n s := by
  have hlow := fld_low hv hn
  have hok := slotOperand_ok (s := s) (b := 8) (by rw [keep_high (by omega), hlow, hv, Nat.add_zero]) (hlow ▸ hn)
  rwa [hlow] at hok

/-! ## PREEMPT -/

/-- PREEMPT on its slot. -/
def preemptSlot (d : Reg) (c n : Nat) : M Unit := do
  let s ← get
  if s.me.reissue && decide ((s.slot c n).stopReq ≠ .preempt) then wr d 0
  else
    match s.stopPoint c n with
    | .none => do
      modify (·.modSlot c n fun sl => { sl with stopReq := .none })
      wr d 0
    | .now => do
      modify (·.stopSlot c n .stopped)
      wr d 1
    | .later => do
      modify (·.modSlot c n fun sl => { sl with stopReq := .preempt })
      block false

/-- PREEMPT with its operand read. -/
def preemptBody (d a : Reg) : M Unit := do
  supOnly
  let v ← rd a
  let n ← slotOperand v none
  let s ← get
  preemptSlot d s.cur.core n

theorem exec_preempt (d a : Reg) : exec (.preempt d a) = run (waiting [a] (some d) (preemptBody d a)) := rfl

theorem preemptBody_apply (h15 : s.cur.slot = 15) (hv : (s.src a).toNat = n) (hn : n < 14) :
    preemptBody d a s.issue = preemptSlot d s.cur.core n s.issue := by
  simp only [preemptBody, M.bind_apply, supOnly_ok (s := s.issue) (by rwa [State.issue_cur]), rd_apply, State.issue_src, slotOperand_slot hv hn,
    M.get_apply, State.issue_cur]

theorem State.issue_of_reissue (h : s.me.reissue = true) : s.issue = s := by rw [State.issue, if_pos h]

theorem State.issue_reissue (s : State) : s.issue.me.reissue = s.me.reissue := by rw [(State.issue_frame s).2.2]

theorem preemptSlot_asked (h : s.me.reissue = false) : preemptSlot d c n s.issue =
    match s.issue.stopPoint c n with
    | .none => .ok () ((s.issue.modSlot c n fun sl => { sl with stopReq := .none }).writeMine d 0)
    | .now => .ok () ((s.issue.stopSlot c n .stopped).writeMine d 1)
    | .later => .error (.wait (.blocked false)) (s.issue.modSlot c n fun sl => { sl with stopReq := .preempt }) := by
  have hre : s.issue.me.reissue = false := by rw [State.issue_reissue, h]
  simp only [preemptSlot, M.bind_apply, M.get_apply, hre, Bool.false_and, Bool.false_eq_true, if_false]
  cases s.issue.stopPoint c n <;> rfl

theorem preemptSlot_left (h : s.me.reissue = true) (hr : (s.slot c n).stopReq ≠ .preempt) : preemptSlot d c n s = .ok () (s.writeMine d 0) := by
  simp [preemptSlot, h, hr]

theorem run_preempt (hp : NoPort s [a] (some d)) (h15 : s.cur.slot = 15) (hv : (s.src a).toNat = n) (hn : n < 14) :
    (s.issue.stopPoint s.cur.core n = .now → s.me.reissue = false →
      exec (.preempt d a) s = .next (((s.issue.stopSlot s.cur.core n .stopped).writeMine d 1).finish)) ∧
    (s.issue.stopPoint s.cur.core n = .none → s.me.reissue = false →
      exec (.preempt d a) s = .next (((s.issue.modSlot s.cur.core n fun sl => { sl with stopReq := .none }).writeMine d 0).finish)) ∧
    (s.issue.stopPoint s.cur.core n = .later → s.me.reissue = false → exec (.preempt d a) s =
      .next (again s (s.issue.modSlot s.cur.core n fun sl => { sl with stopReq := .preempt }) (.blocked false))) ∧
    (s.me.reissue = true → (s.slot s.cur.core n).stopReq ≠ .preempt → exec (.preempt d a) s = .next ((s.writeMine d 0).finish)) := by
  have hbody := preemptBody_apply (d := d) h15 hv hn
  rw [exec_preempt]
  refine ⟨fun hst hre => ?_, fun hst hre => ?_, fun hst hre => ?_, fun hre hreq => ?_⟩
  · exact run_waiting hp (by rw [hbody, preemptSlot_asked hre, hst])
  · exact run_waiting hp (by rw [hbody, preemptSlot_asked hre, hst])
  · exact run_waiting_again hp (by rw [hbody, preemptSlot_asked hre, hst])
  · exact run_waiting hp (by rw [hbody, State.issue_of_reissue hre, preemptSlot_left hre hreq])

/-! ## Stop points (R278) -/

/-- What withdraws a slot's requests changes no slot. -/
theorem State.withdraw_slot (s : State) (c n c' n' : Nat) : (s.withdraw c n).slot c' n' = s.slot c' n' := by
  unfold State.withdraw State.slot
  by_cases hc : c = c'
  · subst hc
    rw [State.modCore_core]
    rfl
  · rw [State.modCore_core_of_ne _ _ hc]
    rfl

theorem State.modCore_slot (s : State) (c : Nat) {f : Core → Core} (hf : ∀ k, (f k).slots = k.slots) (c' n' : Nat) :
    (s.modCore c f).slot c' n' = s.slot c' n' := by
  unfold State.slot
  by_cases hc : c = c'
  · subst hc
    rw [State.modCore_core, Core.slot, hf]
    rfl
  · rw [State.modCore_core_of_ne _ _ hc]

/-- A slot at its stop point. -/
theorem State.stopSlot_slot (s : State) (c n : Nat) (st : SlotSt) : (s.stopSlot c n st).slot c n =
    { s.slot c n with
      st := st, waiting := .none, reissue := false, stopReq := .none
      charged := if flag (s.slot c n).restart 63 then (s.slot c n).charged else [], popped := none, pc := (s.slot c n).stopPc } := by
  have hslot : ((s.withdraw c n).modCore c fun k => { k with inq := (k.slot n).popped.toList ++ k.inq }).slot c n = s.slot c n := by
    exact (State.modCore_slot (s.withdraw c n) c (f := fun k => { k with inq := (k.slot n).popped.toList ++ k.inq }) (fun _ => rfl) c n).trans
      (State.withdraw_slot ..)
  rw [State.stopSlot, State.modSlot_slot, hslot]

theorem turnStop_of_find {loc : Nat} {r : TurnReq}
    (h : (s.bank loc).queue.find? (fun r => decide (r.core = c) && decide (r.slot = n)) = some r) :
    s.turnStop c n loc = match r.kind with
      | .atomic _ => .now
      | .rsv => .now
      | .texit => .none
      | _ => .later := by
  rw [State.turnStop, h] <;> rfl

theorem stopPoint_clauses (s : State) (c n : Nat) (sl : Slot) (hsl : sl = s.slot c n) :
    (sl.st = .free ∨ sl.st = .halted ∨ sl.st = .frozen → s.stopPoint c n = .none) ∧
    (sl.st = .trapped ∨ sl.st = .stopped ∨ (sl.st = .run ∧ sl.reissue = false) ∨
      (sl.st = .wait ∧ (sl.waiting = .rows ∨ sl.waiting = .blocked true)) → s.stopPoint c n = .now) ∧
    (sl.st = .wait → sl.waiting = .complete ∨ sl.waiting = .net ∨ sl.waiting = .blocked false → s.stopPoint c n = .later) ∧
    (sl.st = .wait → sl.waiting = .retiring → s.stopPoint c n = .none) ∧
    (∀ loc, sl.st = .wait → sl.waiting = .turn loc → s.stopPoint c n = s.turnStop c n loc) := by
  subst hsl
  refine ⟨fun h => ?_, fun h => ?_, fun hst h => ?_, fun hst h => ?_, fun loc hst h => ?_⟩
  · obtain h | h | h := h <;> simp [State.stopPoint, h]
  · obtain h | h | ⟨h, hr⟩ | ⟨h, hw | hw⟩ := h <;> simp [State.stopPoint, *]
  · obtain h | h | h := h <;> simp [State.stopPoint, hst, h]
  · simp [State.stopPoint, hst, h]
  · simp [State.stopPoint, hst, h]

/-! ## HALTT and RESUME (R286) -/

theorem State.stopSlot_cur (s : State) (c n : Nat) (st : SlotSt) : (s.stopSlot c n st).cur = s.cur := rfl

theorem State.stopSlot_slot_of_ne (s : State) (c : Nat) {n m : Nat} (h : m ≠ n) (st : SlotSt) : (s.stopSlot c n st).slot c m = s.slot c m := by
  rw [State.stopSlot, State.modSlot_slot_of_ne _ _ _ h]
  exact (State.modCore_slot (s.withdraw c n) c (f := fun k => { k with inq := (k.slot n).popped.toList ++ k.inq }) (fun _ => rfl) c m).trans
    (State.withdraw_slot ..)

theorem State.modSlot_eq_modCore (s : State) (c n : Nat) (f : Slot → Slot) : s.modSlot c n f = s.modCore c (·.modSlot n f) := rfl

theorem State.stopSlot_world (s : State) (c n : Nat) (st : SlotSt) : ((s.stopSlot c n st).core c).world = (s.core c).world := by
  rw [State.stopSlot, State.modSlot_eq_modCore, State.modCore_core, State.modCore_core, State.withdraw, State.modCore_core]
  rfl

/-- A slot that is stopped in the acting core is not the one that acts. -/
theorem State.stopSlot_who (s : State) {n : Nat} (h : n ≠ s.cur.slot) (st : SlotSt) : (s.stopSlot s.cur.core n st).who = s.who := by
  have hme : (s.stopSlot s.cur.core n st).me = s.me := State.stopSlot_slot_of_ne s _ h.symm st
  have hworld : (s.stopSlot s.cur.core n st).myWorld = s.myWorld := State.stopSlot_world ..
  rw [State.who, hme, hworld]
  rfl

theorem haltSlots_now (h : s.stopPoint c n = .now) : haltSlots c false [n] s = .ok false (s.stopSlot c n .halted) := by
  simp [haltSlots, h]

/-- HALTT on the slots that it names: they are asked to halt, and the lowest that is HALTED is written out. -/
def halttRest (ea : W64) (c : Nat) (again : Bool) (slots : List Nat) : M Unit := do
  if ← haltSlots c again slots then block false
  let s ← get
  match slots.find? fun i => decide ((s.slot c i).st = .halted) with
  | none => pure ()
  | some i => do
    let caps ← writeRow (← whoMe) [(ea, s.snapshot c i)] 8
    chargeCaps caps

/-- HALTT's checks. -/
def halttBody (d a : Reg) : M Unit := do
  supOnly
  let s ← get
  if !(s.world s.myWorld).attached && !s.me.reissue then trapPriv
  let v ← rd a
  let ea ← rd d
  let n ← slotOperand v (some 8)
  if ea.toNat % 64 ≠ 0 then trapAt Cause.align ea
  if fld ea 58 6 ≠ 0x30 then trapXlate 5 ea
  halttRest ea s.cur.core s.me.reissue (if flag v 8 then List.range 15 else [n])

theorem exec_haltt (d a : Reg) : exec (.haltt d a) = run (waiting [d, a] none (halttBody d a)) := rfl

theorem halttBody_apply (h15 : s.cur.slot = 15) (hatt : (s.world s.myWorld).attached = true) (hv : (s.src a).toNat = n) (hn : n < 14)
    (halign : (s.src d).toNat % 64 = 0) (hreg : fld (s.src d) 58 6 = 0x30) :
    halttBody d a s.issue = halttRest (s.src d) s.cur.core s.me.reissue [n] s.issue := by
  have hflag : flag (s.src a) 8 = false := flag_high (by omega)
  simp only [halttBody, M.bind_apply, M.get_apply, supOnly_ok (s := s.issue) (by rwa [State.issue_cur]), rd_apply, State.issue_src,
    slotOperand_slot_bit hv hn, State.issue_worldOf, State.issue_myWorld, State.issue_cur, State.issue_reissue, hatt, halign, hreg, hflag,
    Bool.not_true, Bool.false_and, Bool.false_eq_true, if_false, ne_eq, not_true_eq_false]

theorem halttRest_now {ea : W64} {caps : List Cap} (hne : n ≠ s.cur.slot) (h : s.stopPoint s.cur.core n = .now)
    (hw : writeRow s.who [(ea, (s.stopSlot s.cur.core n .halted).snapshot s.cur.core n)] 8 (s.stopSlot s.cur.core n .halted) = .ok caps t) :
    halttRest ea s.cur.core false [n] s = .ok () (t.chargeAll caps) := by
  have hfind : [n].find? (fun i => decide (((s.stopSlot s.cur.core n .halted).slot s.cur.core i).st = .halted)) = some n := by
    rw [List.find?_cons, State.stopSlot_slot]
    rfl
  simp only [halttRest, M.bind_apply, haltSlots_now h, Bool.false_eq_true, if_false, M.get_apply, hfind, whoMe_apply,
    State.stopSlot_who s hne, hw, chargeCaps_apply]

theorem run_haltt {caps : List Cap} (hp : NoPort s [d, a] none) (h15 : s.cur.slot = 15) (hatt : (s.world s.myWorld).attached = true)
    (hv : (s.src a).toNat = n) (hn : n < 14) (halign : (s.src d).toNat % 64 = 0) (hreg : fld (s.src d) 58 6 = 0x30) (hre : s.me.reissue = false)
    (hstop : s.issue.stopPoint s.cur.core n = .now)
    (hw : writeRow s.who [(s.src d, (s.issue.stopSlot s.cur.core n .halted).snapshot s.cur.core n)] 8 (s.issue.stopSlot s.cur.core n .halted) =
      .ok caps t) : exec (.haltt d a) s = .next ((t.chargeAll caps).finish) := by
  refine run_waiting hp ((halttBody_apply h15 hatt hv hn halign hreg).trans ?_)
  have hrest := halttRest_now (s := s.issue) (n := n) (ea := s.src d) (caps := caps) (t := t) (by rw [State.issue_cur]; omega)
    (by rwa [State.issue_cur]) (by rwa [State.issue_who, State.issue_cur])
  rwa [State.issue_cur, ← hre] at hrest

/-- The slot goes on. -/
def Slot.resumed (sl : Slot) : Slot := { sl with st := .run, waiting := .none }

/-- RESUME. -/
def resumeBody (a : Reg) : M Unit := do
  supOnly
  let v ← rd a
  let n ← slotOperand v (some 8)
  let c := (← get).cur.core
  if flag v 8 then
    modify fun s => (List.range 15).foldl (fun t i => t.modSlot c i fun sl => if sl.st = .halted then sl.resumed else sl) s
  else
    let st := ((← get).slot c n).st
    if st ≠ .halted && st ≠ .stopped then trapAt Cause.illegal v
    modify (·.modSlot c n Slot.resumed)

theorem exec_resume (a : Reg) : exec (.resume a) = run (waiting [a] none (resumeBody a)) := rfl

theorem run_resume (hp : NoPort s [a] none) (h15 : s.cur.slot = 15) (hv : (s.src a).toNat = n) (hn : n < 14)
    (hst : (s.issue.slot s.cur.core n).st = .halted ∨ (s.issue.slot s.cur.core n).st = .stopped) :
    exec (.resume a) s = .next ((s.issue.modSlot s.cur.core n Slot.resumed).finish) := by
  refine run_waiting (m := resumeBody a) hp ?_
  have hflag : flag (s.src a) 8 = false := flag_high (by omega)
  have hno : ¬(decide ((s.issue.slot s.cur.core n).st ≠ .halted) && decide ((s.issue.slot s.cur.core n).st ≠ .stopped)) = true := by
    simpa [or_iff_not_imp_left] using hst
  simp only [resumeBody, M.bind_apply, M.get_apply, supOnly_ok (s := s.issue) (by rwa [State.issue_cur]), rd_apply, State.issue_src,
    slotOperand_slot_bit hv hn, State.issue_cur, hflag, Bool.false_eq_true, if_false, if_neg hno, M.modify_apply]

/-- A change of each of some slots of a core. -/
theorem foldl_modSlot_slot (c : Nat) (f : Slot → Slot) (l : List Nat) (hl : l.Nodup) (s : State) (n : Nat) :
    (l.foldl (fun t i => t.modSlot c i f) s).slot c n = if n ∈ l then f (s.slot c n) else s.slot c n := by
  induction l generalizing s with
  | nil => rfl
  | cons i l ih =>
    obtain ⟨hi, hl⟩ := List.nodup_cons.1 hl
    rw [List.foldl_cons, ih hl]
    by_cases hn : n = i
    · subst hn
      rw [if_neg hi, if_pos List.mem_cons_self, State.modSlot_slot]
    · rw [State.modSlot_slot_of_ne _ _ _ hn]
      simp [hn]

theorem run_resume_all (hp : NoPort s [a] none) (h15 : s.cur.slot = 15) (hv : s.src a = 0x100) : ∃ t : State,
    exec (.resume a) s = .next (t.finish) ∧ ∀ n, n < 15 → t.slot s.cur.core n =
      if (s.issue.slot s.cur.core n).st = .halted then (s.issue.slot s.cur.core n).resumed else s.issue.slot s.cur.core n := by
  refine ⟨(List.range 15).foldl (fun t i => t.modSlot s.cur.core i fun sl => if sl.st = .halted then sl.resumed else sl) s.issue, ?_, fun n hn => ?_⟩
  · refine run_waiting (m := resumeBody a) hp ?_
    have hop : slotOperand 0x100 (some 8) s.issue = .ok 0 s.issue := slotOperand_ok (v := 0x100) rfl (by decide)
    have hflag : flag 0x100 8 = true := rfl
    simp only [resumeBody, M.bind_apply, M.get_apply, supOnly_ok (s := s.issue) (by rwa [State.issue_cur]), rd_apply, State.issue_src, hv, hop,
      State.issue_cur, hflag, if_true, M.modify_apply]
  · rw [foldl_modSlot_slot _ _ _ List.nodup_range, if_pos (List.mem_range.2 hn)]

/-! ## CTXSAVE and CTXLOAD (R279) -/

/-- CTXSAVE into an entry of the cache, once its slot's stores have been performed. -/
def ctxsaveTo (d : Reg) (held : Bool) (c n e uid : Nat) : M Unit := do
  let t ← get
  if t.hasDeferred c uid || t.unitsLocked c n then block false
  set (t.moveOut c n e (if held then .held else .parked (.ready t.cycle)))
  wr d (w64 e)

/-- CTXSAVE. -/
def ctxsaveBody (d a : Reg) : M Unit := do
  supOnly
  let v ← rd a
  let n ← slotOperand v (some 4)
  let s ← get
  let sl := s.slot s.cur.core n
  if sl.st ≠ .stopped then trapAt Cause.illegal v
  match (s.core s.cur.core).roomFor sl.spill with
  | none => do
    modify fun x => (x.performSlot s.cur.core n).modCore s.cur.core (·.queueRecord Cause.ctxFull n 0)
    wr d allOnes
  | some e => do
    let t := (s.revokeAll sl.uid).performSlot s.cur.core n
    set t
    if t.hasDeferred s.cur.core sl.uid || t.unitsLocked s.cur.core n then block false
    set (t.moveOut s.cur.core n e (if flag v 4 then .held else .parked (.ready t.cycle)))
    wr d (w64 e)

theorem exec_ctxsave (d a : Reg) : exec (.ctxsave d a) = run (waiting [a] (some d) (ctxsaveBody d a)) := rfl

/-- CTXSAVE up to its slot, which is STOPPED. -/
theorem ctxsaveBody_apply (h15 : s.cur.slot = 15) (hv : (s.src a).toNat = fld (s.src a) 0 4 + 16 * fld (s.src a) 4 1) (hi : n = fld (s.src a) 0 4)
    (hn : n < 14) (hst : (s.issue.slot s.cur.core n).st = .stopped) : ctxsaveBody d a s.issue =
    match s.issue.myCore.roomFor (s.issue.slot s.cur.core n).spill with
    | none => .ok () (((s.issue.performSlot s.cur.core n).modCore s.cur.core (·.queueRecord Cause.ctxFull n 0)).writeMine d allOnes)
    | some e => ctxsaveTo d (flag (s.src a) 4) s.cur.core n e (s.issue.slot s.cur.core n).uid
        ((s.issue.revokeAll (s.issue.slot s.cur.core n).uid).performSlot s.cur.core n) := by
  subst hi
  have hop : slotOperand (s.src a) (some 4) s.issue = .ok (fld (s.src a) 0 4) s.issue := slotOperand_ok (by rw [keep]; omega) hn
  simp only [ctxsaveBody, M.bind_apply, M.get_apply, supOnly_ok (s := s.issue) (by rwa [State.issue_cur]), rd_apply, State.issue_src, hop,
    State.issue_cur, hst, ne_eq, not_true_eq_false, if_false]
  rw [show s.issue.myCore = s.issue.core s.cur.core by rw [State.myCore, State.issue_cur]]
  cases (s.issue.core s.cur.core).roomFor (s.issue.slot s.cur.core (fld (s.src a) 0 4)).spill with
  | none => rfl
  | some e => simp only [ctxsaveTo, M.bind_apply, M.set_apply, M.get_apply]

theorem ctxsaveTo_moves {held : Bool} {e uid : Nat} (hd : t.hasDeferred c uid = false) (hu : t.unitsLocked c n = false) :
    ctxsaveTo d held c n e uid t =
      .ok () ((t.moveOut c n e (if held then .held else .parked (.ready t.cycle))).writeMine d (w64 e)) := by
  simp [ctxsaveTo, hd, hu]

theorem ctxsaveTo_blocked {held : Bool} {e uid : Nat} (h : t.hasDeferred c uid = true ∨ t.unitsLocked c n = true) :
    ctxsaveTo d held c n e uid t = .error (.wait (.blocked false)) t := by
  have hor : (t.hasDeferred c uid || t.unitsLocked c n) = true := by simpa using h
  simp only [ctxsaveTo, M.bind_apply, M.get_apply, hor, if_true]
  rfl

theorem run_ctxsave {sl : Slot} (hp : NoPort s [a] (some d)) (h15 : s.cur.slot = 15)
    (hv : (s.src a).toNat = fld (s.src a) 0 4 + 16 * fld (s.src a) 4 1) (hi : n = fld (s.src a) 0 4) (hn : n < 14)
    (hsl : sl = s.issue.slot s.cur.core n) (hst : sl.st = .stopped) (ht : t = (s.issue.revokeAll sl.uid).performSlot s.cur.core n) :
    (∀ e, s.issue.myCore.roomFor sl.spill = some e → t.hasDeferred s.cur.core sl.uid = false → t.unitsLocked s.cur.core n = false →
      exec (.ctxsave d a) s = .next (((t.moveOut s.cur.core n e
        (if flag (s.src a) 4 then .held else .parked (.ready t.cycle))).writeMine d (w64 e)).finish)) ∧
    (∀ e, s.issue.myCore.roomFor sl.spill = some e → t.hasDeferred s.cur.core sl.uid = true ∨ t.unitsLocked s.cur.core n = true →
      exec (.ctxsave d a) s = .next (again s t (.blocked false))) ∧
    (s.issue.myCore.roomFor sl.spill = none → exec (.ctxsave d a) s = .next ((((s.issue.performSlot s.cur.core n).modCore s.cur.core
      (·.queueRecord Cause.ctxFull n 0)).writeMine d (BitVec.allOnes 64)).finish)) := by
  subst hsl
  have hbody := ctxsaveBody_apply (d := d) h15 hv hi hn hst
  rw [← ht] at hbody
  rw [exec_ctxsave]
  refine ⟨fun e hroom hd hu => run_waiting hp ?_, fun e hroom h => run_waiting_again hp ?_, fun hroom => run_waiting hp ?_⟩
  · rw [hbody, hroom]
    exact ctxsaveTo_moves hd hu
  · rw [hbody, hroom]
    exact ctxsaveTo_blocked h
  · rw [hbody, hroom]
    rfl

theorem run_ctxload (hp : NoPort s [a] none) (h15 : s.cur.slot = 15) (hi : i = (s.src a).toNat)
    (hfind : s.issue.myCore.cache.find? (fun e => decide (e.1 = i)) = some (i, e)) (hst : e.st = .held) : exec (.ctxload a) s =
      .next ((s.issue.modMyCore fun k => { k with cache := Sparse.put k.cache i { e with st := .parked (.ready s.cycle) } }).finish) := by
  refine run_waiting hp ?_
  rw [← show s.issue.cycle = s.cycle from (Local.issue s).device ▸ rfl]
  subst hi
  simp only [M.bind_apply, M.get_apply, supOnly_ok (s := s.issue) (by rwa [State.issue_cur]), rd_apply, State.issue_src, hfind, hst, ne_eq,
    not_true_eq_false, if_false, modCore_apply]

/-! ## INSTRUCTION_COMPLETION (R90) -/

theorem run_instructionCompletion (hst : (s.slot c n).st = .wait) (hen : (s.core c).enabled = true)
    (hw : (s.world (s.core c).world).stopped = false) :
    ((s.slot c n).waiting = .complete → exec (.instructionCompletion c n) s =
      .next ((s.endInstr c n).modSlot c n fun x => { x with st := .run, waiting := .none })) ∧
    ((s.slot c n).waiting = .rows ∨ (s.slot c n).waiting = .retiring ∨ (∃ b, (s.slot c n).waiting = .blocked b) →
      exec (.instructionCompletion c n) s = .next (s.modSlot c n fun x => { x with reissue := true })) ∧
    ∀ loc q, (s.slot c n).waiting = .barrier loc q → (s.barrier loc).phase ≠ q →
      exec (.instructionCompletion c n) s = .next (s.releasePhase loc q ((s.barrier loc).actScope loc)) := by
  refine ⟨fun h => ?_, fun h => ?_, fun loc q h hq => ?_⟩
  · change event (instructionCompletion c n) s = _
    simp [event, instructionCompletion, require, hst, hen, hw, h]
  · change event (instructionCompletion c n) s = _
    obtain h | h | ⟨b, h⟩ := h <;> simp [event, instructionCompletion, require, hst, hen, hw, h]
  · change event (instructionCompletion c n) s = _
    simp [event, instructionCompletion, require, hst, hen, hw, h, hq]

end

/-- Settles O44: each instruction of the supervisor on its slot, whose stop point decides. -/
theorem supervision : Obligations.Supervision := by
  refine ⟨fun s d a n hp h15 hv hn => run_preempt hp h15 hv hn, fun s c n sl hsl => ?_,
    fun s t d a n caps hp h15 hatt hv hn halign hreg hre hstop hw => run_haltt hp h15 hatt hv hn halign hreg hre hstop hw,
    fun s a hp h15 => ⟨fun n hv hn hst => run_resume hp h15 hv hn hst, fun hv => run_resume_all hp h15 hv⟩,
    fun s t d a n sl hp h15 hv hi hn hsl hst ht => run_ctxsave hp h15 hv hi hn hsl hst ht,
    fun s a i e hp h15 hi hfind hst => run_ctxload hp h15 hi hfind hst, fun s c n hst hen hw => run_instructionCompletion hst hen hw⟩
  obtain ⟨hnone, hnow, hlater, hretiring, hturn⟩ := stopPoint_clauses s c n sl hsl
  refine ⟨hnone, hnow, hlater, hretiring, fun loc r hst hw hr => (hturn loc hst hw).trans (turnStop_of_find hr), ?_⟩
  rw [State.stopSlot_slot, ← hsl]
  exact ⟨rfl, rfl, rfl, rfl⟩

end Sys2Proof.Machine
end

section
/-! The judgement of a host command, and its completion (R28 to R34). -/

-- One declaration after another: checked side by side, these take more threads than the memory of the check holds.
set_option Elab.async false

namespace Sys2Proof.Machine

open Sys2Proof.Claims

section
variable {s t : State} {c : Cmd} {op world : Nat} {effect : State → Effect}

/-! ## Functions -/

theorem State.modFn_fn_of_ne (s : State) {n m : Nat} (f : Func → Func) (h : n ≠ m) : (s.modFn n f).fn m = s.fn m := by
  simp [State.modFn, State.setFn, State.fn, Sparse.get_put, h]

@[simp] theorem State.modFn_modFn (s : State) (n : Nat) (f g : Func → Func) : (s.modFn n f).modFn n g = s.modFn n fun x => g (f x) := by
  simp [State.modFn, State.setFn, State.fn]

theorem judged_fn (s : State) (c : Cmd) : (judged s c).fn c.fn =
    { s.fn c.fn with
      block := (s.fn c.fn).block.set 0 c.c0, code := 0x01, tag := (c.c0 >>> 16).setWidth 16, lost := false, result := 0 } :=
  State.modFn_fn ..

/-- The operands of the command are those that stand in the block. -/
theorem judged_cmdWord (s : State) (c : Cmd) {i : Nat} (h : i ≠ 0) : (judged s c).cmdWord c.fn i = s.cmdWord c.fn i := by
  rw [State.cmdWord, judged_fn, State.cmdWord, vat, vat]
  exact congrArg (Option.getD · 0) (Vector.getElem?_set_ne (by decide) h.symm)

/-! ## Judgement -/

/-- The judgement of a command of opcode n (R32, R34), and its effect. -/
def judge (s : State) (c : Cmd) (effect : State → Effect) : Effect :=
  let n := fld c.c0 0 8
  if s.bootState ≠ 0 && n ≠ 1 then (judged s c).fails Code.badState
  else if !(decide (1 ≤ n) && decide (n ≤ 0x0F)) then (judged s c).fails Code.badOpcode
  else if !issuerOk n c.fn || (judged s c).foreignDestroy n c.fn then (judged s c).fails Code.notPermitted
  else if !(judged s c).stateOk n c.fn then (judged s c).fails Code.badState
  else if fld c.c0 32 32 ≠ 0 || fld c.c0 8 8 ≠ 0 || fld ((judged s c).cmdWord c.fn 7) 0 6 ≠ 0 then (judged s c).fails Code.badField
  else effect (judged s c)

/-- A command begun: its opcode is the row's, or, for the row of the undefined ones, none of the table's. -/
theorem issueCmd_apply (h : Begins s c (fld c.c0 0 8)) (hop : if op = 0 then ¬(1 ≤ fld c.c0 0 8 ∧ fld c.c0 0 8 ≤ 0x0F) else fld c.c0 0 8 = op) :
    issueCmd c op world effect s = .ok () (begunCmd (judged s c) c (fld c.c0 0 8) world (judge s c effect)) := by
  obtain ⟨hboot, hfn, hpend, -, hkey⟩ := h
  have hreq : (s.booted && decide (c.fn ≤ 14) && (s.fn c.fn).pending.isNone &&
      if op = 0 then !(decide (1 ≤ fld c.c0 0 8) && decide (fld c.c0 0 8 ≤ 0x0F)) else decide (fld c.c0 0 8 = op)) = true := by
    rw [hboot, decide_eq_true hfn, hpend]
    split at hop
    · next h0 =>
      rw [if_pos h0]
      simp only [Option.isNone_none, Bool.true_and, Bool.not_eq_true', Bool.and_eq_false_iff, decide_eq_false_iff_not]
      tauto
    · next h0 => rw [if_neg h0]; simpa using hop
  have hsel : ((judged s c).fn c.fn).selected = (s.fn c.fn).selected := by rw [judged_fn]
  simp only [issueCmd, hostTlp, M.bind_apply, M.get_apply, hkey, if_true, require, hreq, M.pure_apply, M.set_apply, begunCmd, hsel]
  rfl

theorem event_of_ok {m : M Unit} (h : m s = .ok () t) : event m s = .next t := by rw [event, h]

/-- A command of the table, begun and judged. -/
theorem issueCmd_begun (h : Begins s c op) (h0 : op ≠ 0) :
    issueCmd c op world effect s = .ok () (begunCmd (judged s c) c op world (judge s c effect)) := by
  have hop := h.2.2.2.1
  rw [issueCmd_apply (hop ▸ h) (by rwa [if_neg h0]), hop]

theorem judge_badOpcode (h0 : s.bootState = 0) (h : fld c.c0 0 8 = 0 ∨ 0x0F < fld c.c0 0 8) : judge s c effect = (.done 0x10 0, judged s c) := by
  have hdef : (decide (1 ≤ fld c.c0 0 8) && decide (fld c.c0 0 8 ≤ 0x0F)) = false := by
    simp only [Bool.and_eq_false_iff, decide_eq_false_iff_not]
    omega
  simp [judge, h0, hdef, State.fails, Code.badOpcode]

theorem judge_notPermitted (h0 : s.bootState = 0) (hn : 1 ≤ fld c.c0 0 8 ∧ fld c.c0 0 8 ≤ 0x0F)
    (h : issuerOk (fld c.c0 0 8) c.fn = false ∨ (judged s c).foreignDestroy (fld c.c0 0 8) c.fn = true) :
    judge s c effect = (.done 0x12 0, judged s c) := by
  have hor : (!issuerOk (fld c.c0 0 8) c.fn || (judged s c).foreignDestroy (fld c.c0 0 8) c.fn) = true := by simpa using h
  simp only [judge, h0, hn, hor, State.fails, Code.notPermitted]
  rfl

theorem judge_badState (h0 : s.bootState = 0) (hn : 1 ≤ fld c.c0 0 8 ∧ fld c.c0 0 8 ≤ 0x0F) (hi : issuerOk (fld c.c0 0 8) c.fn = true)
    (hd : (judged s c).foreignDestroy (fld c.c0 0 8) c.fn = false) (h : (judged s c).stateOk (fld c.c0 0 8) c.fn = false) :
    judge s c effect = (.done 0x14 0, judged s c) := by
  simp only [judge, h0, hn, hi, hd, h, State.fails, Code.badState]
  rfl

theorem judge_badField (h0 : s.bootState = 0 ∨ fld c.c0 0 8 = 1) (hn : 1 ≤ fld c.c0 0 8 ∧ fld c.c0 0 8 ≤ 0x0F)
    (hi : issuerOk (fld c.c0 0 8) c.fn = true) (hd : (judged s c).foreignDestroy (fld c.c0 0 8) c.fn = false)
    (hs : (judged s c).stateOk (fld c.c0 0 8) c.fn = true) (h : fld c.c0 32 32 ≠ 0 ∨ fld c.c0 8 8 ≠ 0 ∨ fld (s.cmdWord c.fn 7) 0 6 ≠ 0) :
    judge s c effect = (.done 0x11 0, judged s c) := by
  have hboot : ¬(decide (s.bootState ≠ 0) && decide (fld c.c0 0 8 ≠ 1)) = true := by
    simpa [or_iff_not_imp_left] using h0
  have hfield : (decide (fld c.c0 32 32 ≠ 0) || decide (fld c.c0 8 8 ≠ 0) || decide (fld ((judged s c).cmdWord c.fn 7) 0 6 ≠ 0)) = true := by
    rw [judged_cmdWord s c (by decide)]
    simpa [or_assoc] using h
  simp only [judge, if_neg hboot, hn, hi, hd, hs, if_pos hfield, State.fails, Code.badField]
  rfl

/-- A command that passes the judgement has its effect. -/
theorem judge_effect (h : Admitted s c op) (hop : 1 ≤ op ∧ op ≤ 0x0F) (hd : (judged s c).foreignDestroy op c.fn = false) :
    judge s c effect = effect (judged s c) := by
  obtain ⟨⟨-, -, -, hn, -⟩, h0, hi, hs, hhi, hlo, hdone⟩ := h
  subst hn
  have hboot : ¬(decide (s.bootState ≠ 0) && decide (fld c.c0 0 8 ≠ 1)) = true := by
    simpa [or_iff_not_imp_left] using h0
  rw [← judged_cmdWord s c (by decide)] at hdone
  simp only [judge, if_neg hboot, hop, hi, hd, hs, hhi, hlo, hdone]
  rfl

theorem foreignDestroy_of_ne (h : op ≠ 4) (n : Nat) : s.foreignDestroy op n = false := by simp [State.foreignDestroy, h]

/-! ## The rows that are refused -/

theorem run_badOpcode (h : Begins s c (fld c.c0 0 8)) (h0 : s.bootState = 0) (hop : fld c.c0 0 8 = 0 ∨ 0x0F < fld c.c0 0 8) :
    exec (.badOpcode c) s = .next (begunCmd (judged s c) c (fld c.c0 0 8) 0 (.done 0x10 0, judged s c)) := by
  have happ := issueCmd_apply (op := 0) (world := 0) (effect := (·.fails Code.badOpcode)) h (by rw [if_pos rfl]; omega)
  rw [judge_badOpcode h0 hop] at happ
  exact event_of_ok happ

theorem run_worldCreate_refused (h : Begins s c 2) (h0 : s.bootState = 0) (hf : c.fn ≠ 0) :
    exec (.worldCreate c) s = .next (begunCmd (judged s c) c 2 0 (.done 0x12 0, judged s c)) := by
  have hn : fld c.c0 0 8 = 2 := h.2.2.2.1
  refine event_of_ok ((issueCmd_begun h (by decide)).trans ?_)
  rw [judge_notPermitted h0 (by omega) (.inl (by simp [hn, issuerOk, hf]))]

theorem foreignDestroy_iff (h : c.fn ≠ 0) : (judged s c).foreignDestroy 4 c.fn = true ↔
    (s.fn c.fn).world = 0 ∨ fld (s.cmdWord c.fn 1) 0 4 ≠ (s.fn c.fn).world := by
  have hw : vat 0 ((judged s c).fn c.fn).block 1 = s.cmdWord c.fn 1 := judged_cmdWord s c (by decide)
  have hworld : ((judged s c).fn c.fn).world = (s.fn c.fn).world := by rw [judged_fn]
  rw [State.foreignDestroy, hw, hworld]
  simp [h]

theorem run_worldDestroy_refused (h : Begins s c 4) (h0 : s.bootState = 0) (hf : c.fn ≠ 0)
    (hw : (s.fn c.fn).world = 0 ∨ fld (s.cmdWord c.fn 1) 0 4 ≠ (s.fn c.fn).world) :
    exec (.worldDestroy c) s = .next (begunCmd (judged s c) c 4 (s.cmdWord c.fn 1).toNat (.done 0x12 0, judged s c)) := by
  have hn : fld c.c0 0 8 = 4 := h.2.2.2.1
  change execWorldDestroy c s = _
  simp only [execWorldDestroy, event, M.bind_apply, M.get_apply]
  rw [issueCmd_begun h (by decide), judge_notPermitted h0 (by omega) (.inr (by rw [hn]; exact (foreignDestroy_iff hf).2 hw))]

theorem run_launch_refused (h : Begins s c 6) (h0 : s.bootState = 0) (hf : c.fn ≠ 0) (ht : (s.fn c.fn).tdisp ≠ .run) :
    exec (.launch c) s = .next (begunCmd (judged s c) c 6 (s.fn c.fn).world (.done 0x14 0, judged s c)) := by
  have hn : fld c.c0 0 8 = 6 := h.2.2.2.1
  have hst : (judged s c).stateOk 6 c.fn = false := by
    rw [State.stateOk, judged_fn, if_neg hf]
    cases htd : (s.fn c.fn).tdisp <;> simp_all
  change execLaunch c s = _
  simp only [execLaunch, event, M.bind_apply, M.get_apply]
  rw [issueCmd_begun h (by decide),
    judge_badState h0 (by omega) (by simp [hn, issuerOk, hf]) (by rw [hn]; exact foreignDestroy_of_ne (by decide) _) (by rwa [hn]),
    State.fnWorld, if_neg hf]

theorem run_getInfo_refused (h : Begins s c 1) (hfield : fld c.c0 32 32 ≠ 0 ∨ fld c.c0 8 8 ≠ 0 ∨ fld (s.cmdWord c.fn 7) 0 6 ≠ 0) :
    exec (.getInfo c) s = .next (begunCmd (judged s c) c 1 (s.fnWorld c.fn) (.done 0x11 0, judged s c)) := by
  have hn : fld c.c0 0 8 = 1 := h.2.2.2.1
  have hst : (judged s c).stateOk 1 c.fn = true := by
    rw [State.stateOk]
    cases ((judged s c).fn c.fn).tdisp <;> simp
  change execGetInfo c s = _
  simp only [execGetInfo, event, M.bind_apply, M.get_apply]
  rw [issueCmd_begun h (by decide),
    judge_badField (.inr hn) (by omega) (by simp [hn, issuerOk]) (by rw [hn]; exact foreignDestroy_of_ne (by decide) _) (by rwa [hn]) hfield]

/-! ## LOST_COMMAND_WRITE and COMMAND_COMPLETION -/

theorem run_lostCommandWrite {f : Nat} {w : Tlp} {p : Pending} (hp : (s.fn f).pending = some p) (hkey : s.deciphers f w.key = true) (hoff : w.off = 0)
    (hlen : 8 ≤ w.bytes.length) : exec (.lostCommandWrite f w) s =
      .next (s.modFn f fun x => { x with lost := true, block := blockWrite x.block 0 w.bytes }) := by
  refine event_of_ok ?_
  simp [hostTlp, hkey, hp, hoff, hlen, require]

/-- The status word has its parts side by side. -/
theorem Func.status_toNat (f : Func) : f.status.toNat = f.result.toNat * 2 ^ 32 + f.tag.toNat * 2 ^ 16 + boolNat f.lost * 2 ^ 8 + f.code.toNat := by
  rw [Func.status, w64, BitVec.toNat_ofNat]
  refine Nat.mod_eq_of_lt ?_
  have hl : boolNat f.lost ≤ 1 := by
    unfold boolNat
    split <;> decide
  have := f.result.isLt
  have := f.tag.isLt
  have := f.code.isLt
  omega

theorem run_commandCompletion {f : Nat} {p : Pending} {code : Byte} {result : W32} (hp : (s.fn f).pending = some p) (hfin : p.fin = .done code result)
    (ht : t = s.modFn f fun x => { x with code := code, result := result, tag := p.tag, pending := none }) :
    exec (.commandCompletion f) s = .next (if p.doneLine = 0 then t else t.hostWrite p.doneLine.toNat (natToLe 64
      (result.toNat * 2 ^ 32 + p.tag.toNat * 2 ^ 16 + boolNat (s.fn f).lost * 2 ^ 8 + code.toNat))) := by
  have hst : (t.fn f).status.toNat = result.toNat * 2 ^ 32 + p.tag.toNat * 2 ^ 16 + boolNat (s.fn f).lost * 2 ^ 8 + code.toNat := by
    rw [Func.status_toNat, ht, State.modFn_fn]
  refine event_of_ok ?_
  simp only [commandCompletion, M.bind_apply, M.get_apply, hp, hfin, M.set_apply, State.complete, ← ht, hst]

/-! ## Writes of the device to the host -/

theorem hostWrite_mem {addr : Nat} {bs : List Byte} (s : State) (h : addr + bs.length ≤ 2 ^ 63) :
    (s.hostWrite addr bs).mem = (s.setBytes (hostBase + addr) bs).mem := by
  rw [State.hostWrite, if_pos (show hostRange addr bs.length = true from decide_eq_true h), ← State.setCells_cellsAt]
  rfl

end

/-- Settles O47: the branches of the judgement in their order, and the words that a completion writes. -/
theorem commandJudgement : Obligations.CommandJudgement := by
  refine ⟨fun s c => run_badOpcode, fun s c => run_worldCreate_refused, fun s c => run_worldDestroy_refused, fun s c => run_launch_refused,
    fun s c => run_getInfo_refused, fun s f t p => run_lostCommandWrite, fun s f p code result u => run_commandCompletion,
    fun s addr bs h => ⟨fun i hi => ?_, fun l hl => ?_⟩⟩
  · rw [State.byte_of_mem (hostWrite_mem s h), List.getD_eq_getElem _ _ hi]
    exact State.byte_setBytes hi
  · rw [State.byte_of_mem (hostWrite_mem s h)]
    exact State.byte_setBytes_of_not (s := s) hl

end Sys2Proof.Machine
end

section
/-! The host's windows: the command block, packets, wakes and way masks (R27, R34, R36, R37, R44, R118). -/

-- One declaration after another: checked side by side, these take more threads than the memory of the check holds.
set_option Elab.async false

namespace Sys2Proof.Machine

open Sys2Proof.Claims

/-! ## Words and bytes -/

theorem natToLe_leToNat (bs : List Byte) : natToLe bs.length (leToNat bs) = bs := by
  induction bs with
  | nil => rfl
  | cons b bs ih =>
    have hmod : BitVec.ofNat 8 (b.toNat + 256 * leToNat bs) = b := by
      apply BitVec.eq_of_toNat_eq
      rw [BitVec.toNat_ofNat, Nat.add_mul_mod_self_left]
      exact Nat.mod_eq_of_lt b.isLt
    have hdiv : (b.toNat + 256 * leToNat bs) / 256 = leToNat bs := by
      have := b.isLt
      omega
    rw [List.length_cons, leToNat, natToLe, hmod, hdiv, ih]

theorem natToLe_getD (n v j : Nat) (h : j < n) : (natToLe n v)[j]?.getD 0 = BitVec.ofNat 8 (v / 2 ^ (8 * j)) := by
  induction n generalizing v j with
  | zero => exact absurd h (Nat.not_lt_zero j)
  | succ n ih =>
    cases j with
    | zero => simp [natToLe]
    | succ j =>
      rw [natToLe, List.getElem?_cons_succ, ih _ _ (by omega), Nat.div_div_eq_div_mul, show 8 * (j + 1) = 8 + 8 * j by omega, Nat.pow_add]

theorem wordsLe_cons (v : W64) (l : List W64) : wordsLe (v :: l) = natToLe 8 v.toNat ++ wordsLe l := by simp [wordsLe]

/-- A byte of a word among words. -/
theorem wordsLe_getD (l : List W64) (i j : Nat) (hj : j < 8) (hi : i < l.length) :
    (wordsLe l)[8 * i + j]?.getD 0 = BitVec.ofNat 8 ((l[i]?.getD 0).toNat / 2 ^ (8 * j)) := by
  induction l generalizing i with
  | nil => exact absurd hi (Nat.not_lt_zero i)
  | cons v l ih =>
    rw [wordsLe_cons]
    cases i with
    | zero =>
      rw [List.getElem?_append_left (by rw [natToLe_length]; omega), Nat.mul_zero, Nat.zero_add, natToLe_getD 8 _ j hj]
      rfl
    | succ i =>
      rw [List.getElem?_append_right (by rw [natToLe_length]; omega), natToLe_length, show 8 * (i + 1) + j - 8 = 8 * i + j by omega,
        ih i (by simpa using hi)]
      rfl

theorem wordsLe_length (l : List W64) : (wordsLe l).length = 8 * l.length := by
  induction l with
  | nil => rfl
  | cons v l ih =>
    rw [wordsLe_cons, List.length_append, natToLe_length, ih, List.length_cons]
    omega

/-- The words of bytes have these bytes. -/
theorem wordsLe_words (n : Nat) (bs : List Byte) (h : bs.length = 8 * n) :
    wordsLe (List.ofFn fun i : Fin n => w64 (leToNat ((bs.drop (8 * i.val)).take 8))) = bs := by
  induction n generalizing bs with
  | zero => exact (List.eq_nil_of_length_eq_zero (by simpa using h)).symm
  | succ n ih =>
    have hword : natToLe 8 (w64 (leToNat (bs.take 8))).toNat = bs.take 8 := by
      have hlen : (bs.take 8).length = 8 := by rw [List.length_take]; omega
      have hlt := leToNat_lt (bs.take 8)
      rw [hlen] at hlt
      rw [w64, BitVec.toNat_ofNat, Nat.mod_eq_of_lt (by omega)]
      have hle := natToLe_leToNat (bs.take 8)
      rwa [hlen] at hle
    rw [List.ofFn_succ, wordsLe_cons]
    have hrest := ih (bs.drop 8) (by rw [List.length_drop]; omega)
    simp only [List.drop_drop] at hrest
    simp only [Fin.val_zero, Nat.mul_zero, List.drop_zero, Fin.val_succ, hword, Nat.mul_add, Nat.mul_one]
    rw [show (fun i : Fin n => w64 (leToNat (List.take 8 (List.drop (8 * i.val + 8) bs)))) =
      fun i : Fin n => w64 (leToNat (List.take 8 (List.drop (8 + 8 * i.val) bs))) from funext fun i => by rw [Nat.add_comm], hrest]
    exact List.take_append_drop 8 bs

/-! ## The command block (R27) -/

/-- The bytes of a command block after a write into it. -/
theorem wordsLe_blockWrite (b : Vector W64 8) (off : Nat) (bs : List Byte) : wordsLe (blockWrite b off bs).toList =
    (wordsLe b.toList).take off ++ bs.take (64 - off) ++ (wordsLe b.toList).drop (off + bs.length) := by
  have hold : (wordsLe b.toList).length = 64 := by rw [wordsLe_length, Vector.length_toList]
  rw [blockWrite, Vector.toList_ofFn]
  refine wordsLe_words 8 _ ?_
  simp only [List.length_append, List.length_take, List.length_drop, hold]
  omega

theorem bar0_of_lt {f : Func} {i : Nat} (h : i < 64) : f.bar0 i = (wordsLe f.block.toList)[i]?.getD 0 := by rw [Func.bar0, if_pos h]

theorem bar0_blockWrite (b : Vector W64 8) (off : Nat) (bs : List Byte) (f : Func) (i : Nat) (hi : i < 64) :
    ({ f with block := blockWrite b off bs } : Func).bar0 i =
      if off ≤ i ∧ i < off + bs.length then bs.getD (i - off) 0 else ({ f with block := b } : Func).bar0 i := by
  rw [bar0_of_lt hi, bar0_of_lt hi, wordsLe_blockWrite]
  have hold : (wordsLe b.toList).length = 64 := by rw [wordsLe_length, Vector.length_toList]
  generalize wordsLe b.toList = old at hold ⊢
  by_cases hlow : i < off
  · rw [if_neg (by omega), List.append_assoc, List.getElem?_append_left (by rw [List.length_take]; omega), List.getElem?_take_of_lt hlow]
  · have htake : (old.take off).length = off := by rw [List.length_take]; omega
    have hnew : (bs.take (64 - off)).length = min (64 - off) bs.length := List.length_take
    rw [List.append_assoc, List.getElem?_append_right (by rw [htake]; omega), htake]
    by_cases hin : i < off + bs.length
    · rw [if_pos (by omega), List.getElem?_append_left (by rw [hnew]; omega), List.getElem?_take_of_lt (by omega), List.getD_eq_getElem?_getD]
    · rw [if_neg (by omega), List.getElem?_append_right (by rw [hnew]; omega), hnew, List.getElem?_drop]
      exact congrArg (fun k => old[k]?.getD 0) (by omega)

/-- A byte of the command block, of the status word, and beyond. -/
theorem bar0_bytes (f : Func) (i j : Nat) (hj : j < 8) :
    (i < 8 → f.bar0 (8 * i + j) = BitVec.ofNat 8 ((vat 0 f.block i).toNat / 2 ^ (8 * j))) ∧
    f.bar0 (64 + j) = BitVec.ofNat 8 ((f.result.toNat * 2 ^ 32 + f.tag.toNat * 2 ^ 16 + boolNat f.lost * 2 ^ 8 + f.code.toNat) / 2 ^ (8 * j)) ∧
    ∀ off, 72 ≤ off → f.bar0 off = 0 := by
  refine ⟨fun hi => ?_, ?_, fun off hoff => ?_⟩
  · rw [bar0_of_lt (by omega), wordsLe_getD _ _ _ hj (by rwa [Vector.length_toList]), vat, Vector.getElem?_toList]
  · rw [Func.bar0, if_neg (by omega), if_pos (by omega), Nat.add_sub_cancel_left, natToLe_getD 8 _ j hj, Func.status_toNat]
  · rw [Func.bar0, if_neg (by omega), if_neg (by omega)]

/-! ## Writes that are taken -/

section
variable {s u : State} {f n : Nat} {t : Tlp}

theorem hostTlp_taken {m : M Unit} {k : Option Nat} (h : s.deciphers f k = true) : hostTlp f k m s = m s := by simp [hostTlp, h]

/-- A write that is not deciphered is an integrity failure. -/
theorem hostTlp_refused {m : M Unit} {k : Option Nat} (h : s.deciphers f k = false) : event (hostTlp f k m) s = .next (s.tdiError f Cause.tdiStop) := by
  simp [event, hostTlp, h]

theorem run_registerWrite (hb : s.booted = true) (hf : f ≤ 14) (hk : s.deciphers f t.key = true) (hc0 : ¬(t.off = 0 ∧ 8 ≤ t.bytes.length))
    (hstop : t.off + t.bytes.length ≤ 0x1000 ∨ 0x3000 ≤ t.off ∧ t.off + t.bytes.length ≤ 65536) : exec (.registerWrite f t) s =
      .next (if t.off < 64 then s.modFn f fun x => { x with block := blockWrite x.block t.off t.bytes } else s) := by
  have hreq : (s.booted && decide (f ≤ 14) && decide (t.off + t.bytes.length ≤ 65536) && !(decide (t.off = 0) && decide (8 ≤ t.off + t.bytes.length)) &&
      (decide (t.off + t.bytes.length ≤ 0x1000) || decide (0x3000 ≤ t.off))) = true := by
    simp only [hb, Bool.true_and, Bool.and_eq_true, decide_eq_true_eq, Bool.not_eq_true', Bool.and_eq_false_iff, decide_eq_false_iff_not,
      Bool.or_eq_true]
    omega
  change event (registerWrite f t) s = _
  simp only [event, registerWrite, hostTlp_taken hk, M.bind_apply, M.get_apply, require, hreq, if_true, M.pure_apply]
  by_cases hoff : t.off < 64
  · rw [if_pos hoff, if_pos hoff]
    rfl
  · rw [if_neg hoff, if_neg hoff]
    rfl

/-- A packet's write that has the shape of one. -/
theorem packetWindowWrite_offer (hb : s.booted = true) (hf : f ≤ 14) (hk : s.deciphers f t.key = true) (hoff : t.off < 4096)
    (hlen : t.bytes.length = 64)
    (hal : t.off % 64 = 0) (hw : s.fnWorld f ≠ 0) : packetWindowWrite f t s = .ok () (match s.offer (s.fnWorld f) t.bytes with
      | .accepted u => u
      | .malformed => s.rejectTlp f
      | .full => s.modFn f fun x => { x with dropped := x.dropped + 1 }) := by
  have hreq : (s.booted && decide (f ≤ 14) && decide (t.off < 4096)) = true := by rw [hb, decide_eq_true hf, decide_eq_true hoff]; rfl
  have hshape : ¬(decide (t.bytes.length ≠ 64) || decide (t.off % 64 ≠ 0) || decide (s.fnWorld f = 0)) = true := by simp [hlen, hal, hw]
  rw [packetWindowWrite, hostTlp_taken hk]
  change Reaches _ s _
  refine .bind (M.get_apply _) (.bind (y := ()) (t := s) (by rw [require, if_pos hreq]; rfl) (.neg hshape ?_))
  cases s.offer (s.fnWorld f) t.bytes <;> exact M.set_apply ..

theorem run_packetWindowWrite_misshapen (hb : s.booted = true) (hf : f ≤ 14) (hk : s.deciphers f t.key = true) (hoff : t.off < 4096)
    (h : t.bytes.length ≠ 64 ∨ t.off % 64 ≠ 0 ∨ s.fnWorld f = 0) :
    exec (.packetWindowWrite f t) s = .next (s.modFn f fun x => { x with rejected := x.rejected + 1 }) := by
  have hreq : (s.booted && decide (f ≤ 14) && decide (t.off < 4096)) = true := by rw [hb, decide_eq_true hf, decide_eq_true hoff]; rfl
  have hbad : (decide (t.bytes.length ≠ 64) || decide (t.off % 64 ≠ 0) || decide (s.fnWorld f = 0)) = true := by simpa [or_assoc] using h
  refine event_of_ok (m := packetWindowWrite f t) ?_
  simp only [packetWindowWrite, hostTlp_taken hk, M.bind_apply, M.get_apply, require, hreq, if_true, M.pure_apply, hbad, M.set_apply]
  rfl

theorem run_packetWindowWrite (hb : s.booted = true) (hf : f ≤ 14) (hk : s.deciphers f t.key = true) (hoff : t.off < 4096) :
    (∀ u, t.bytes.length = 64 → t.off % 64 = 0 → s.fnWorld f ≠ 0 → s.offer (s.fnWorld f) t.bytes = .accepted u →
      exec (.packetWindowWrite f t) s = .next u) ∧
    (t.bytes.length ≠ 64 ∨ t.off % 64 ≠ 0 ∨ s.fnWorld f = 0 → exec (.packetWindowWrite f t) s =
      .next (s.modFn f fun x => { x with rejected := x.rejected + 1 })) ∧
    (t.bytes.length = 64 → t.off % 64 = 0 → s.fnWorld f ≠ 0 → s.offer (s.fnWorld f) t.bytes = .full →
      exec (.packetWindowWrite f t) s = .next (s.modFn f fun x => { x with dropped := x.dropped + 1 })) := by
  refine ⟨fun u h1 h2 h3 ho => ?_, run_packetWindowWrite_misshapen hb hf hk hoff, fun h1 h2 h3 ho => ?_⟩
  all_goals
    refine event_of_ok (m := packetWindowWrite f t) ?_
    rw [packetWindowWrite_offer hb hf hk hoff h1 h2 h3, ho]

theorem run_wakeWindowWrite (hb : s.booted = true) (hf : f ≤ 14) (hk : s.deciphers f t.key = true) (hoff : t.off < 4096) (hlen : t.bytes.length = 16)
    (hal : t.off % 16 = 0) (hva : leToNat (t.bytes.take 8) % 8 = 0) (h0 : leToNat (t.bytes.drop 12) = 0) (hw : s.fnWorld f ≠ 0)
    (hn : n = leToNat ((t.bytes.drop 8).take 4)) : exec (.wakeWindowWrite f t) s =
      .next (s.wakeOn (s.fnWorld f) (leToNat (t.bytes.take 8)) (if n = 0xFFFFFFFF then s.waitTable.length else n)) := by
  change event (wakeWindowWrite f t) s = _
  simp [event, wakeWindowWrite, hostTlp_taken hk, require, hb, hf, hoff, hlen, hal, hva, h0, hw, hn]

/-! ## The launch queue (R36) -/

variable {w c : Nat} {cs : List Nat} {words : Vector W64 8}

theorem offer_malformed {bs : List Byte} (hw : words = s.acceptWords w (packetWords bs)) (h : malformed words ≠ none) :
    s.offer w bs = .malformed := by
  obtain ⟨cause, hm⟩ := Option.ne_none_iff_exists'.1 h
  rw [State.offer, ← hw, State.offerWords_malformed hm]

/-- A packet that the queue SRAM has room for. -/
theorem offer_queued {bs : List Byte} {t : State} (hw : words = s.acceptWords w (packetWords bs)) (hm : malformed words = none)
    (hc : s.coresOf w = c :: cs) (hring : (s.world w).ringLen = 0) (hput : s.launchPut w ⟨words, s.cycle, false⟩ = some t) :
    s.offer w bs = .accepted (t.takeRef (fld words[1] 0 16)) := by
  rw [State.offer, ← hw, State.offerWords_accepted hm (State.launchPush_put hc hring hput)]

theorem modWorld_launch {l : List Segment} {p : Packet} (h : putLast (s.world w).launch p = l) :
    (s.modWorld w fun x => { x with launch := putLast x.launch p }) = s.modWorld w fun x => { x with launch := l } := by
  rw [State.modWorld, State.modWorld, h]

/-! ## Way masks (R118) -/

theorem resourceRead_clauses {off size : Nat} (hfw : s.fwAllows 1 1 .read = true) (hoff : off < 2 ^ 18) :
    (size = 8 → off % 8 = 0 → off < 0x2000 → s.resourceRead off size = some ((Sparse.get 0xFFFF s.wayMasks (off / 8)).setWidth 64)) ∧
    (size = 8 → off % 8 = 0 → 0x30000 ≤ off → s.resourceRead off size = some 0) ∧
    (size ≠ 8 ∨ off % 8 ≠ 0 → s.resourceRead off size = none) := by
  have hbad : ((decide (size ≠ 8) || decide (off % 8 ≠ 0) || decide (off ≥ 2 ^ 18) || !s.fwAllows 1 1 .read) = true) ↔ size ≠ 8 ∨ off % 8 ≠ 0 := by
    simp only [hfw, Bool.not_true, Bool.or_false, Bool.or_eq_true, decide_eq_true_eq]
    omega
  refine ⟨fun h1 h2 h3 => ?_, fun h1 h2 h3 => ?_, fun h => ?_⟩
  · rw [State.resourceRead, if_neg (fun h => by have := hbad.1 h; omega), if_pos h3]
  · have hocc : ¬(decide (0x10000 ≤ off) && decide (off < 0x30000)) = true := by
      simp only [Bool.and_eq_true, decide_eq_true_eq]
      omega
    rw [State.resourceRead, if_neg (fun h => by have := hbad.1 h; omega), if_neg (by omega), if_neg hocc]
  · rw [State.resourceRead, if_pos (hbad.2 h)]

theorem run_wayMaskWrite {off size : Nat} {v : W64} (hb : s.booted = true) (hoff : off < 2 ^ 18) :
    (size = 8 → off % 8 = 0 → s.fwAllows 1 1 .write = true → off < 0x2000 → exec (.wayMaskWrite off size v) s =
      .next { s.modFn 0 fun f => { f with lastUR := false } with wayMasks := Sparse.set 0xFFFF s.wayMasks (off / 8) (v.setWidth 16) }) ∧
    (size ≠ 8 ∨ off % 8 ≠ 0 → exec (.wayMaskWrite off size v) s = .next (s.modFn 0 fun f => { f with lastUR := true })) := by
  refine ⟨fun h1 h2 hfw h3 => ?_, fun h => ?_⟩
  · change event (wayMaskWrite off size v) s = _
    have hreq : (s.booted && decide (off < 2 ^ 18)) = true := by rw [hb, decide_eq_true hoff]; rfl
    have hgood : (decide (size ≠ 8) || decide (off % 8 ≠ 0) || !s.fwAllows 1 1 .write) = false := by simp [h1, h2, hfw]
    have hmask : ¬(false || decide (off ≥ 0x2000)) = true := by simpa using h3
    simp only [event, wayMaskWrite, M.bind_apply, M.get_apply, require, hreq, if_true, hgood, if_neg hmask, M.pure_apply, M.set_apply]
    rfl
  · have hbad : (decide (size ≠ 8) || decide (off % 8 ≠ 0) || !s.fwAllows 1 1 .write) = true := by
      simp only [Bool.or_eq_true, decide_eq_true_eq]
      exact .inl h
    change event (wayMaskWrite off size v) s = _
    simp only [event, wayMaskWrite, M.bind_apply, M.get_apply, require, hb, hoff, decide_true, Bool.and_true, if_true, hbad, Bool.true_or,
      M.pure_apply, M.set_apply]

end

/-- Settles O49: what each window's write does, and what the windows read. -/
theorem hostWindows : Obligations.HostWindows := by
  refine ⟨fun s f t hb hf hk hc0 => ⟨fun hoff hstop => ?_, fun hoff hstop => ?_⟩, bar0_blockWrite, bar0_bytes,
    fun s f t hk => ⟨hostTlp_refused hk, hostTlp_refused hk, hostTlp_refused hk, hostTlp_refused hk⟩,
    fun s f t hb hf hk hoff => run_packetWindowWrite hb hf hk hoff, fun s w bs words hw => ⟨offer_malformed hw, ?_⟩,
    fun s f n t hb hf hk hoff hlen hal hva h0 hw hn => run_wakeWindowWrite hb hf hk hoff hlen hal hva h0 hw hn,
    fun s off size hfw hoff => resourceRead_clauses hfw hoff, fun s off size v hb hoff => run_wayMaskWrite hb hoff⟩
  · rw [run_registerWrite hb hf hk hc0 (.inl hstop), if_pos hoff]
  · rw [run_registerWrite hb hf hk hc0 hstop, if_neg (by omega)]
  · refine fun c cs early ps hm hc hring hcount => ⟨fun hl hps => ?_, fun hl hroom => ?_⟩
    · have hlast : lastHasRoom (s.world w).launch = true := by simp [hl, lastHasRoom, hps]
      rw [offer_queued hw hm hc hring (State.launchPut_last hc hcount hlast),
        modWorld_launch (l := early ++ [⟨ps ++ [_], none⟩]) (by rw [hl]; exact putLast_room hps)]
    · rw [offer_queued hw hm hc hring (State.launchPut_new hc hcount hroom), modWorld_launch (l := [⟨[_], none⟩]) (by rw [hl]; rfl)]

end Sys2Proof.Machine
end

section
/-! The security processor's mailboxes: plain requests, sessions and IDE keys (R25, R43, R48 to R52, R55). -/

-- One declaration after another: checked side by side, these take more threads than the memory of the check holds.
set_option Elab.async false

namespace Sys2Proof.Machine

open Sys2Proof.Claims

section
variable {s t : State} {f n i : Nat} {out : Bool}

/-! ## Plain requests -/

theorem doeReady_apply (hb : s.booted = true) (hf : f ≤ 14) : doeReady f s = .ok () s := by
  have hreq : (s.booted && decide (f ≤ 14)) = true := by rw [hb, decide_eq_true hf]; rfl
  simp only [doeReady, M.bind_apply, M.get_apply, require, hreq, if_true, M.pure_apply]

/-- An answer of a mailbox once boot has run. -/
theorem event_ready {m : M Unit} (hb : s.booted = true) (hf : f ≤ 14) (hm : m s = .ok () t) : event (do doeReady f; m) s = .next t :=
  event_of_ok (by rw [M.bind_apply, doeReady_apply hb hf]; exact hm)

theorem run_doeDiscovery (hb : s.booted = true) (hf : f ≤ 14) : exec (.doeDiscovery f n) s =
    .next (if n > 131072 then s.modFn f fun x => { x with doeError := true } else s.modFn f fun x => { x with doe := .ok 0 [0, 1, 2] }) :=
  event_ready hb hf rfl

theorem algorithms_offered {offered : List Algorithm} (h : offered ≠ []) : (algorithms.filter offered.contains).isEmpty = false := by
  obtain ⟨x, hx⟩ := List.exists_mem_of_ne_nil _ h
  have hmem : x ∈ algorithms.filter offered.contains := by
    refine List.mem_filter.2 ⟨?_, by simpa using hx⟩
    cases x <;> simp [algorithms]
  rw [List.isEmpty_eq_false_iff]
  exact List.ne_nil_of_mem hmem

theorem run_negotiateAlgorithms {offered : List Algorithm} (hb : s.booted = true) (hf : f ≤ 14) : exec (.negotiateAlgorithms f offered) s =
    .next (s.reply f (if (algorithms.filter offered.contains).isEmpty then .unsupported else .algorithms (algorithms.filter offered.contains))) :=
  event_ready hb hf rfl

theorem run_getDigests (hb : s.booted = true) (hf : f ≤ 14) : exec (.getDigests f) s = .next (s.modFn f fun x => { x with
    doe := .ok 0x01 [0, (Config.shake256 (s.certChain 0).flatten).toNat, 1, (Config.shake256 (s.certChain 1).flatten).toNat] }) := by
  refine event_of_ok ?_
  rw [M.bind_apply, M.get_apply]
  simp only [spdmAnswer, M.bind_apply, doeReady_apply hb hf]
  rfl

theorem run_getCertificate (hb : s.booted = true) (hf : f ≤ 14) : exec (.getCertificate f n) s =
    .next (s.reply f (if n ≤ 1 then .ok 0x02 (n :: numbers (s.certChain n).flatten) else .error)) :=
  event_ready hb hf rfl

theorem run_challenge_bad (hb : s.booted = true) (hf : f ≤ 14) (h : s.bootState ≠ 0) :
    exec (.challenge f n) s = .next (s.modFn f fun x => { x with doe := .unsupported }) := by
  exact event_ready hb hf (Reaches.bind (M.get_apply _) (.pos h (M.set_apply ..)))

/-! ## Reports (R43) -/

/-- The nonces of a function are 64 at most, and the last is the one just issued. -/
theorem issueNonce_last (s : State) (f : Nat) (x : Option Nat) (l : List (Nat × Nat)) :
    ((s.issueNonce f x l).2.fn f).nonces.getLast? = some ⟨(s.issueNonce f x l).1, s.meridian, false, x, l⟩ := by
  rw [State.issueNonce, State.setFn_fn]
  simp only
  rw [List.getLast?_drop, if_neg (by rw [List.length_append, List.length_singleton]; omega), List.getLast?_concat]

theorem run_challenge_good (hb : s.booted = true) (hf : f ≤ 14) (hn : n ≤ 1) (h : s.bootState = 0) :
    exec (.challenge f n) s = .next ((s.issueNonce f none []).2.modFn f fun x => { x with
      doe := .ok 0x03 (n :: (s.issueNonce f none []).1 ::
        numbers (Config.sign256f s.attKey (3 :: natToLe 1 n ++ natToLe 32 (s.issueNonce f none []).1))) }) := by
  refine event_ready hb hf ?_
  rw [M.bind_apply, M.get_apply]
  simp only [h, ne_eq, not_true_eq_false, if_false, if_neg (show ¬n > 1 by omega)]
  rfl

theorem run_getMeasurements {x : Option Nat} {u : State} (hb : s.booted = true) (hf : f ≤ 14)
    (hx : x = if (s.fn f).established n = true then some n else none) (hu : u = (s.issueNonce f x (s.blocks f i)).2) :
    ∃ v l, l = v :: (s.blocks f i).length :: (s.blocks f i).flatMap (fun b => [b.1, measurementType b.1, b.2]) ++
        numbers (Config.sign256f s.attKey (0x60 :: reportBytes v (s.blocks f i))) ∧
      exec (.getMeasurements f n i) s = .next ((u.modFn f (·.heard n s.meridian)).modFn f fun x => { x with doe := .ok 0x60 l }) ∧
      (u.fn f).nonces.getLast? = some ⟨v, s.meridian, false, x, s.blocks f i⟩ := by
  subst hx hu
  exact ⟨_, _, rfl, event_ready hb hf rfl, issueNonce_last ..⟩

/-! ## Sessions (R51, R52) -/

theorem run_keyExchange_bad (hb : s.booted = true) (hf : f ≤ 14) (h : s.bootState ≠ 0) :
    exec (.keyExchange f) s = .next (s.modFn f fun x => { x with doe := .unsupported }) :=
  event_ready hb hf (Reaches.bind (M.get_apply _) (.pos h (M.set_apply ..)))

/-- Whether a session of a function has an identifier. -/
theorem sessionFree_iff {l : List Session} : (!l.any fun x => decide (x.id = i)) = true ↔ ∀ x ∈ l, x.id ≠ i := by simp

theorem keyExchange_free (hi : i < 4) (hfree : ∀ x ∈ (s.fn f).sessions, x.id ≠ i)
    (hlow : ∀ j, j < i → ∃ x ∈ (s.fn f).sessions, x.id = j) :
    (List.range 4).find? (fun i => !(s.fn f).sessions.any fun x => decide (x.id = i)) = some i := by
  rw [List.find?_range_eq_some]
  refine ⟨sessionFree_iff.2 hfree, List.mem_range.2 hi, fun j hj => ?_⟩
  obtain ⟨x, hx, hid⟩ := hlow j hj
  rw [Bool.not_not, List.any_eq_true]
  exact ⟨x, hx, decide_eq_true hid⟩

theorem keyExchange_full (h : ∀ j, j < 4 → ∃ x ∈ (s.fn f).sessions, x.id = j) :
    (List.range 4).find? (fun i => !(s.fn f).sessions.any fun x => decide (x.id = i)) = none := by
  refine List.find?_eq_none.2 fun j hj hno => ?_
  obtain ⟨x, hx, hid⟩ := h j (List.mem_range.1 hj)
  exact sessionFree_iff.1 hno x hx hid

theorem run_keyExchange_opens (hb : s.booted = true) (hf : f ≤ 14) (h0 : s.bootState = 0)
    (hi : (List.range 4).find? (fun i => !(s.fn f).sessions.any fun x => decide (x.id = i)) = some i) : exec (.keyExchange f) s =
      .next ((s.modFn f fun x => { x with sessions := x.sessions ++ [⟨i, false, s.meridian⟩] }).modFn f fun x =>
        { x with doe := .ok 0x64 [i] }) := by
  refine event_ready hb hf (Reaches.bind (M.get_apply _) (.neg (fun h => h h0) ?_))
  rw [hi]
  exact M.set_apply ..

theorem run_keyExchange_limit (hb : s.booted = true) (hf : f ≤ 14) (h0 : s.bootState = 0)
    (hi : (List.range 4).find? (fun i => !(s.fn f).sessions.any fun x => decide (x.id = i)) = none) :
    exec (.keyExchange f) s = .next (s.modFn f fun x => { x with doe := .sessionLimit }) := by
  refine event_ready hb hf (Reaches.bind (M.get_apply _) (.neg (fun h => h h0) ?_))
  rw [hi]
  exact M.set_apply ..

theorem run_finish {u : Nat} (hb : s.booted = true) (hf : f ≤ 14) (h : (s.fn f).session n = some ⟨n, false, u⟩) : exec (.finish f n) s =
    .next ((s.modFn f fun x => { x with
      sessions := x.sessions.map fun y => if y.id = n then { y with established := true, lastAt := s.meridian } else y }).modFn f fun x =>
        { x with doe := .ok 0x65 [n] }) := by
  refine event_ready hb hf (Reaches.bind (M.get_apply _) ?_)
  rw [h]
  exact M.set_apply ..

theorem run_onSession {code : Nat} (hb : s.booted = true) (hf : f ≤ 14) (h : (s.fn f).established n = true) :
    event (onSession f n code) s = .next ((s.modFn f (·.heard n s.meridian)).modFn f fun x => { x with doe := .ok code [n] }) :=
  event_ready hb hf (Reaches.bind (M.get_apply _) (.pos h (M.set_apply ..)))

theorem run_endSession (hb : s.booted = true) (hf : f ≤ 14) (h : (s.fn f).established n = true) :
    exec (.endSession f n) s = .next ((s.dropSession f n).modFn f fun x => { x with doe := .ok 0x6C [n] }) :=
  event_ready hb hf (Reaches.bind (M.get_apply _) (.pos h (M.set_apply ..)))

theorem require_apply {b : Bool} (h : b = true) (s : State) : require b s = .ok () s := by rw [require, if_pos h]; rfl

theorem run_sessionAeadFailure (h : (s.fn f).established n = true) : exec (.sessionAeadFailure f n) s = .next (s.dropSession f n) :=
  event_of_ok (Reaches.bind (M.get_apply _) (.bind (require_apply h s) (M.set_apply ..)))

theorem run_sessionTimeout {x : Session} (h : (s.fn f).session n = some x) (ht : x.lastAt + 60000000 ≤ s.meridian) :
    exec (.sessionTimeout f n) s = .next (s.dropSession f n) := by
  refine event_of_ok (Reaches.bind (M.get_apply _) ?_)
  rw [h]
  exact .bind (require_apply (decide_eq_true ht) s) (M.set_apply ..)

/-- A session that was not bound to the interface is gone. -/
theorem dropSession_session (h : (s.fn f).bound ≠ some n) : ((s.dropSession f n).fn f).session n = none := by
  rw [State.dropSession, if_neg h, State.setFn_fn]
  simp [Func.session]

/-! ## IDE keys (R55) -/

theorem State.reply_keySet (s : State) (f : Nat) (r : DoeResp) (j : Nat) (o : Bool) : ((s.reply f r).fn f).keySet j o = (s.fn f).keySet j o := by
  rw [State.reply, State.modFn_fn]
  rfl

theorem keySet_heard (x : Func) (id now : Nat) : (x.heard id now).keySet i out = x.keySet i out := rfl

/-- A key set written, and the others. -/
theorem setKeySet_keySet (x : Func) (k : KeySet) (hi : i ≤ 1) : (x.setKeySet i out k).keySet i out = k ∧
    (x.setKeySet i out k).keySet (1 - i) out = x.keySet (1 - i) out ∧
    ∀ j, j ≤ 1 → (x.setKeySet i out k).keySet j (!out) = x.keySet j (!out) := by
  obtain rfl | rfl : i = 0 ∨ i = 1 := by omega
  · cases out <;> exact ⟨rfl, rfl, fun _ _ => rfl⟩
  · cases out <;> exact ⟨rfl, rfl, fun _ _ => rfl⟩

/-- A message on the session that the interface is bound to, or on any while it is bound to none. -/
theorem event_secured {m : M Unit} (hb : s.booted = true) (hf : f ≤ 14) (hi : i ≤ 1) (he : (s.fn f).established n = true)
    (hbound : (s.fn f).bound = none ∨ (s.fn f).bound = some n) (hm : m (s.modFn f (·.heard n s.meridian)) = .ok () t) :
    event (secured f n i m) s = .next t := by
  have hok : ((s.fn f).established n && ((s.fn f).bound.isNone || decide ((s.fn f).bound = some n))) = true := by
    obtain h | h := hbound <;> simp [he, h]
  exact event_ready hb hf (Reaches.bind (require_apply (decide_eq_true hi) s) (.bind (M.get_apply _) (.pos hok (.bind (M.set_apply ..) hm))))

theorem event_secured_refused {m : M Unit} (hb : s.booted = true) (hf : f ≤ 14) (hi : i ≤ 1)
    (h : (s.fn f).established n = false ∨ ((s.fn f).bound ≠ none ∧ (s.fn f).bound ≠ some n)) :
    event (secured f n i m) s = .next (s.modFn f fun x => { x with doe := .error }) := by
  have hno : ¬((s.fn f).established n && ((s.fn f).bound.isNone || decide ((s.fn f).bound = some n))) = true := by
    obtain h | ⟨h1, h2⟩ := h
    · simp [h]
    · simp [h1, h2]
  exact event_ready hb hf (Reaches.bind (require_apply (decide_eq_true hi) s) (.bind (M.get_apply _) (.neg hno (M.set_apply ..))))

theorem run_keyProg (hb : s.booted = true) (hf : f ≤ 14) (hi : i ≤ 1) (he : (s.fn f).established n = true)
    (hbound : (s.fn f).bound = none ∨ (s.fn f).bound = some n) (h : ((s.fn f).keySet i out).alive s.meridian = false) :
    ∃ t, exec (.keyProg f n i out) s = .next t ∧ ((t.fn f).keySet i out) = ⟨s.keySerial, false, 0, none⟩ ∧
      (t.fn f).keySet (1 - i) out = (s.fn f).keySet (1 - i) out ∧ ∀ j, j ≤ 1 → (t.fn f).keySet j (!out) = (s.fn f).keySet j (!out) := by
  have hno : ¬(((s.modFn f (·.heard n s.meridian)).fn f).keySet i out).alive (s.modFn f (·.heard n s.meridian)).meridian = true := by
    rw [State.modFn_fn, keySet_heard, State.modFn_meridian, h]
    decide
  refine ⟨_, event_secured hb hf hi he hbound (Reaches.bind (M.get_apply _) (.neg hno (M.set_apply ..))), ?_⟩
  simp only [State.reply_keySet]
  have hfn : ((s.modFn f (·.heard n s.meridian)).modFn f (·.setKeySet i out ⟨s.keySerial, false, 0, none⟩)).fn f =
      ((s.fn f).heard n s.meridian).setKeySet i out ⟨s.keySerial, false, 0, none⟩ := by rw [State.modFn_fn, State.modFn_fn]
  obtain ⟨hset, hother, hout⟩ := setKeySet_keySet (out := out) ((s.fn f).heard n s.meridian) ⟨s.keySerial, false, 0, none⟩ hi
  rw [← hfn] at hset hother hout
  exact ⟨hset, hother, hout⟩

theorem run_keySetGo (hb : s.booted = true) (hf : f ≤ 14) (hi : i ≤ 1) (he : (s.fn f).established n = true)
    (hbound : (s.fn f).bound = none ∨ (s.fn f).bound = some n) (hk : ((s.fn f).keySet i out).key ≠ 0) (hl : ((s.fn f).keySet i out).live = false) :
    ∃ t, exec (.keySetGo f n i out) s = .next t ∧
      ((t.fn f).keySet i out).live = true ∧ ((t.fn f).keySet i out).expiry = s.meridian + 900000000 ∧
      (((s.fn f).keySet (1 - i) out).alive s.meridian = false → (t.fn f).selected = i) ∧
      (((s.fn f).keySet (1 - i) out).alive s.meridian = true → (t.fn f).selected = (s.fn f).selected) := by
  have hfn : (s.modFn f (·.heard n s.meridian)).fn f = (s.fn f).heard n s.meridian := State.modFn_fn ..
  have hno : ¬(decide ((((s.modFn f (·.heard n s.meridian)).fn f).keySet i out).key = 0) ||
      (((s.modFn f (·.heard n s.meridian)).fn f).keySet i out).live) = true := by
    rw [hfn, keySet_heard, hl]
    simpa using hk
  refine ⟨_, event_secured hb hf hi he hbound (Reaches.bind (M.get_apply _) (.neg hno (M.set_apply ..))), ?_⟩
  rw [State.reply, State.modFn_fn, State.setFn_fn, hfn, keySet_heard, keySet_heard, State.modFn_meridian]
  obtain ⟨hset, -, -⟩ := setKeySet_keySet (out := out) ((s.fn f).heard n s.meridian)
    { (s.fn f).keySet i out with live := true, expiry := s.meridian + leaseUs, retiringAt := none } hi
  refine ⟨congrArg KeySet.live hset, congrArg KeySet.expiry hset, fun h => if_neg (by rw [h]; decide), fun h => if_pos h⟩

theorem run_ideKeySetSwitch (hf : f ≤ 14) (hi : i ≤ 1) (hsel : (s.fn f).selected ≠ i) (h : ((s.fn f).keySet i false).alive s.meridian = true) :
    ∃ t, exec (.ideKeySetSwitch f i) s = .next t ∧ (t.fn f).selected = i ∧
      ∀ out, ((t.fn f).keySet (1 - i) out).retiringAt = some s.meridian := by
  have hreq : (decide (f ≤ 14) && decide (i ≤ 1) && decide ((s.fn f).selected ≠ i) && ((s.fn f).keySet i false).alive s.meridian) = true := by
    rw [decide_eq_true hf, decide_eq_true hi, decide_eq_true hsel, h]
    rfl
  refine ⟨_, event_of_ok (Reaches.bind (M.get_apply _) (.bind (require_apply hreq s) (M.set_apply ..))), ?_⟩
  rw [State.setFn_fn]
  refine ⟨rfl, fun out => ?_⟩
  obtain rfl | rfl : i = 0 ∨ i = 1 := by omega
  · cases out <;> rfl
  · cases out <;> rfl

theorem run_ideKeySetRetire {u : Nat} (h : ((s.fn f).keySet i false).retiringAt = some u) (hu : u + 10000 ≤ s.meridian)
    (hp : ∀ p, (s.fn f).pending = some p → p.keySet ≠ i) :
    exec (.ideKeySetRetire f i) s = .next (s.setFn f (((s.fn f).setKeySet i false KeySet.init).setKeySet i true KeySet.init)) := by
  have hreq : (decide (u + 10000 ≤ s.meridian) && !((s.fn f).pending.any fun p => decide (p.keySet = i))) = true := by
    rw [decide_eq_true hu, Bool.true_and, Bool.not_eq_true', Option.any_eq_false]
    simpa using hp
  refine event_of_ok (Reaches.bind (M.get_apply _) ?_)
  extract_lets x
  rw [show (x.keySet i false).retiringAt = some u from h]
  exact .bind (require_apply hreq s) (M.set_apply ..)

end

theorem mailboxes : Claims.Mailboxes := by
  refine ⟨fun s f hb hf => ⟨fun n hn => ?_, fun n hn => ?_, event_ready hb hf rfl, event_ready hb hf rfl,
      fun offered l ho hl => ?_, ?_, fun l hl => ?_,
      fun n hn => ?_, fun n hn => ?_, fun n h => run_challenge_bad hb hf h, fun h => run_keyExchange_bad hb hf h,
      fun n hn h0 => ⟨_, run_challenge_good hb hf hn h0, issueNonce_last ..⟩, fun n i u x hx hu => run_getMeasurements hb hf hx hu,
      fun i h0 hi hfree hlow => run_keyExchange_opens hb hf h0 (keyExchange_free hi hfree hlow),
      fun h0 h => run_keyExchange_limit hb hf h0 (keyExchange_full h), fun n t h => run_finish hb hf h,
      fun n h => ⟨run_onSession hb hf h, run_onSession hb hf h, run_endSession hb hf h, run_sessionAeadFailure h⟩⟩,
    fun s f n x h ht => run_sessionTimeout h ht, fun s f n => ?_,
    fun s f n i out hb hf hi he hbound => ⟨fun h => run_keyProg hb hf hi he hbound h, fun hk hl => run_keySetGo hb hf hi he hbound hk hl⟩,
    fun s f n i out hb hf hi h => ⟨event_secured_refused hb hf hi h, event_secured_refused hb hf hi h⟩,
    fun s f i hf hi hsel h => run_ideKeySetSwitch hf hi hsel h, fun s f i t hi h ht hp => run_ideKeySetRetire h ht hp⟩
  · rw [run_doeDiscovery hb hf, if_neg (by omega)]
  · rw [run_doeDiscovery hb hf, if_pos hn]
  · rw [run_negotiateAlgorithms hb hf, algorithms_offered ho, hl]
    rfl
  · exact run_negotiateAlgorithms hb hf
  · rw [run_getDigests hb hf, hl]
  · rw [run_getCertificate hb hf, if_pos hn]
    rfl
  · rw [run_getCertificate hb hf, if_neg (by omega)]
    rfl
  · by_cases h : (s.fn f).bound = some n
    · exact .inr h
    · exact .inl (dropSession_session h)

end Sys2Proof.Machine
end

section
/-! TDISP and the expiry of keys (R34, R40, R42, R44, R52, R285). -/

-- One declaration after another: checked side by side, these take more threads than the memory of the check holds.
set_option Elab.async false

namespace Sys2Proof.Machine

open Sys2Proof.Claims

section
variable {s t : State} {f n i w : Nat} {out : Bool}

/-! ## What the end of a world leaves of its functions -/

theorem Func.abort_eq (x : Func) (w : Nat) : x.abort w = { x with pending := (x.abort w).pending } := by
  unfold Func.abort
  split
  · split <;> rfl
  · rfl

theorem State.refreshBindings_fn (s : State) (f : Nat) : s.refreshBindings.fn f = s.fn f := rfl

theorem fns_abort (s : State) (w f : Nat) : Sparse.get Func.init (s.fns.map fun e => (e.1, e.2.abort w)) f = (s.fn f).abort w := by
  rcases Sparse.get_map_cases (d := Func.init) (g := fun e => (e.1, e.2.abort w)) (fun _ => rfl) s.fns f with h | ⟨h0, h⟩
  · exact h
  · rw [h, State.fn, h0]
    rfl

/-- A function when a world stops: its command may be aborted, and its interface may be in ERROR. -/
structure FnEnds (x y : Func) : Prop where
  world : y.world = x.world
  bound : y.bound = x.bound
  tdisp : y.tdisp = x.tdisp ∨ y.tdisp = .error

theorem stopWorld_fn (s : State) (w : Nat) (cause : Byte) (keep : Option (Nat × Nat)) (f : Nat) :
    FnEnds (s.fn f) ((s.stopWorld w cause keep).fn f) := by
  have habort : FnEnds (s.fn f) ((s.fn f).abort w) := by
    rw [Func.abort_eq]
    exact ⟨rfl, rfl, .inl rfl⟩
  rw [← fns_abort] at habort
  unfold State.stopWorld
  dsimp only
  split
  · exact habort
  · rw [State.refreshBindings_fn]
    by_cases ht : (s.world w).tdi = f
    · subst ht
      rw [State.modFn_fn]
      split
      · exact habort
      · exact ⟨habort.world, habort.bound, .inr rfl⟩
    · rw [State.modFn_fn_of_ne _ _ ht]
      exact habort

theorem stopWorld_memDead (s : State) (w : Nat) (cause : Byte) (keep : Option (Nat × Nat)) :
    ((s.stopWorld w cause keep).world w).memDead = (s.world w).memDead := by
  unfold State.stopWorld
  dsimp only
  split
  · rw [State.refreshBindings_world, State.modWorld_world]
    rfl
  · rw [State.refreshBindings_world, State.modFn_world, State.modWorld_world]
    rfl

/-- The world that a function carries has stopped. -/
theorem stopCarried_stopped {cause : Byte} (hf : f ≠ 0) (hw : (s.fn f).world ≠ 0) :
    ((s.stopCarried f cause).world (s.fn f).world).stopped = true := by
  unfold State.stopCarried
  dsimp only
  split
  · next h =>
    rw [State.refreshBindings_world]
    simpa [hf, hw] using h
  · exact State.stopWorld_stopped ..

theorem stopCarried_fn (s : State) (f : Nat) (cause : Byte) (g : Nat) : FnEnds (s.fn g) ((s.stopCarried f cause).fn g) := by
  unfold State.stopCarried
  dsimp only
  split
  · exact ⟨rfl, rfl, .inl rfl⟩
  · exact stopWorld_fn ..

theorem tdiFails_fn (hf : f ≠ 0) (h : (s.fn f).tdisp = .run ∨ (s.fn f).tdisp = .locked) :
    (s.tdiFails f).fn f = { s.fn f with tdisp := .error } := by
  have hor : (decide ((s.fn f).tdisp = .run) || decide ((s.fn f).tdisp = .locked)) = true := by simpa using h
  rw [State.tdiFails, if_neg hf, State.modFn_fn, if_pos hor]

theorem tdiFails_world (s : State) (f w : Nat) : (s.tdiFails f).world w = s.world w := by
  unfold State.tdiFails
  split <;> rfl

theorem tdiFails_mem (s : State) (f : Nat) : (s.tdiFails f).mem = s.mem := by
  unfold State.tdiFails
  split <;> rfl

theorem tdiFails_cores (s : State) (f : Nat) : (s.tdiFails f).cores = s.cores := by
  unfold State.tdiFails
  split <;> rfl

/-- An interface in RUN or CONFIG_LOCKED enters ERROR, and its world stops. -/
theorem tdiError_ends {cause : Byte} (hf : f ≠ 0) (h : (s.fn f).tdisp = .run ∨ (s.fn f).tdisp = .locked) :
    ((s.tdiError f cause).fn f).tdisp = .error ∧ ((s.fn f).world ≠ 0 → ((s.tdiError f cause).world (s.fn f).world).stopped = true) := by
  have hor : (decide (f ≠ 0) && (decide ((s.fn f).tdisp = .run) || decide ((s.fn f).tdisp = .locked))) = true := by simpa [hf] using h
  have hfail := tdiFails_fn hf h
  have hends := stopCarried_fn (s.tdiFails f) f cause f
  rw [hfail] at hends
  rw [State.tdiError, if_pos hor]
  refine ⟨hends.tdisp.elim id id, fun hw => ?_⟩
  have hstop := stopCarried_stopped (s := s.tdiFails f) (cause := cause) hf (by rw [hfail]; exact hw)
  rwa [hfail] at hstop

/-! ## Messages on an established session -/

theorem event_onTdisp {m : M Unit} (hb : s.booted = true) (hf : f ≤ 14) (h0 : f ≠ 0) (he : (s.fn f).established n = true)
    (hm : m (s.modFn f (·.heard n s.meridian)) = .ok () t) : event (onTdisp f n m) s = .next t :=
  event_ready hb hf (Reaches.bind (require_apply (decide_eq_true h0) s) (.bind (M.get_apply _) (.pos he (.bind (M.set_apply ..) hm))))

theorem event_onTdisp_refused {m : M Unit} (hb : s.booted = true) (hf : f ≤ 14) (h0 : f ≠ 0) (he : (s.fn f).established n = false) :
    event (onTdisp f n m) s = .next (s.modFn f fun x => { x with doe := .error }) :=
  event_ready hb hf (Reaches.bind (require_apply (decide_eq_true h0) s) (.bind (M.get_apply _) (.neg (by rw [he]; decide) (M.set_apply ..))))

/-- A message leaves the function as it is but for the session's time. -/
theorem heard_fn (s : State) (f n : Nat) : (s.modFn f (·.heard n s.meridian)).fn f = (s.fn f).heard n s.meridian := State.modFn_fn ..

theorem run_lock (hb : s.booted = true) (hf : f ≤ 14) (h0 : f ≠ 0) (he : (s.fn f).established n = true) (ht : (s.fn f).tdisp = .unlocked)
    (hw : (s.fn f).world ≠ 0) (hs : (s.world (s.fn f).world).stopped = false) (hk : ∃ k ∈ (s.fn f).keySets, k.key ≠ 0) :
    ∃ t, exec (.lockInterfaceRequest f n) s = .next t ∧ (t.fn f).tdisp = .locked ∧ (t.fn f).bound = some n ∧ t.mem = s.mem ∧
      t.worlds = s.worlds := by
  have hkeys : ((s.fn f).keySets.any fun k => decide (k.key ≠ 0)) = true := by simpa using hk
  refine ⟨((s.modFn f (·.heard n s.meridian)).modFn f fun x => { x with tdisp := .locked, bound := some n }).reply f (.ok 0x83 []),
    event_onTdisp hb hf h0 he (Reaches.bind (M.get_apply _) ?_), ?_, ?_, rfl, rfl⟩
  · extract_lets x programmed
    have hx : x = (s.fn f).heard n s.meridian := heard_fn ..
    have hprog : programmed = true := by
      rw [show programmed = x.keySets.any fun k => decide (k.key ≠ 0) from rfl, hx]
      exact hkeys
    have hcond : (decide (x.tdisp = .unlocked) && decide (x.world ≠ 0) && !((s.modFn f (·.heard n s.meridian)).world x.world).stopped &&
        programmed) = true := by
      rw [hprog, hx, State.modFn_world]
      change (decide ((s.fn f).tdisp = .unlocked) && decide ((s.fn f).world ≠ 0) && !(s.world (s.fn f).world).stopped && true) = true
      simp [ht, hw, hs]
    exact .pos hcond (M.set_apply ..)
  · rw [State.reply, State.modFn_fn, State.modFn_fn]
  · rw [State.reply, State.modFn_fn, State.modFn_fn]

theorem run_lock_refused (hb : s.booted = true) (hf : f ≤ 14) (h0 : f ≠ 0) (he : (s.fn f).established n = true)
    (ht : (s.fn f).tdisp ≠ .unlocked) :
    ∃ t, exec (.lockInterfaceRequest f n) s = .next t ∧ (t.fn f).tdisp = (s.fn f).tdisp ∧ (t.fn f).doe = .invalidInterface := by
  refine ⟨(s.modFn f (·.heard n s.meridian)).reply f .invalidInterface, event_onTdisp hb hf h0 he (Reaches.bind (M.get_apply _) ?_), ?_, ?_⟩
  · extract_lets x programmed
    have hx : x = (s.fn f).heard n s.meridian := heard_fn ..
    have hcond : ¬(decide (x.tdisp = .unlocked) && decide (x.world ≠ 0) && !((s.modFn f (·.heard n s.meridian)).world x.world).stopped &&
        programmed) = true := by
      have hne : x.tdisp ≠ .unlocked := by rw [hx]; exact ht
      simp [hne]
    exact .neg hcond (M.set_apply ..)
  · rw [State.reply, State.modFn_fn, heard_fn]
    rfl
  · rw [State.reply, State.modFn_fn]

theorem heard_tdisp (s : State) (f n : Nat) : ((s.modFn f (·.heard n s.meridian)).fn f).tdisp = (s.fn f).tdisp := by
  rw [heard_fn]
  rfl

/-- START_INTERFACE_REQUEST on its session. -/
def startInterface (f : Nat) : M Unit := do
  let s ← get
  if (s.fn f).tdisp = .locked then
    set ((s.modFn f fun x => { x with tdisp := .run }).refreshBindings.reply f (.ok 0x85 []))
  else set (s.reply f .invalidInterface)

theorem exec_startInterfaceRequest (f n : Nat) : exec (.startInterfaceRequest f n) = event (onTdisp f n (startInterface f)) := rfl

theorem startInterface_locked (ht : (t.fn f).tdisp = .locked) :
    ∃ u, startInterface f t = .ok () u ∧ (u.fn f).tdisp = .run ∧ u.worlds = t.worlds := by
  refine ⟨_, Reaches.bind (M.get_apply _) (.pos ht (M.set_apply ..)), ?_, rfl⟩
  rw [State.reply, State.modFn_fn, State.refreshBindings_fn, State.modFn_fn]

theorem startInterface_other (ht : (t.fn f).tdisp ≠ .locked) : startInterface f t = .ok () (t.reply f .invalidInterface) :=
  Reaches.bind (M.get_apply _) (.neg ht (M.set_apply ..))

theorem run_start (hb : s.booted = true) (hf : f ≤ 14) (h0 : f ≠ 0) (he : (s.fn f).established n = true) (ht : (s.fn f).tdisp = .locked) :
    ∃ t, exec (.startInterfaceRequest f n) s = .next t ∧ (t.fn f).tdisp = .run ∧ t.worlds = s.worlds := by
  obtain ⟨t, hm, hrun, hworlds⟩ := startInterface_locked (t := s.modFn f (·.heard n s.meridian)) (by rwa [heard_tdisp])
  exact ⟨t, by rw [exec_startInterfaceRequest]; exact event_onTdisp hb hf h0 he hm, hrun, hworlds⟩

theorem run_start_refused (hb : s.booted = true) (hf : f ≤ 14) (h0 : f ≠ 0) (he : (s.fn f).established n = true)
    (ht : (s.fn f).tdisp ≠ .locked) :
    exec (.startInterfaceRequest f n) s = .next ((s.modFn f (·.heard n s.meridian)).modFn f fun x => { x with doe := .invalidInterface }) := by
  rw [exec_startInterfaceRequest]
  exact event_onTdisp hb hf h0 he (startInterface_other (by rwa [heard_tdisp]))

/-- STOP_INTERFACE_REQUEST on its session. -/
def stopInterface (f : Nat) : M Unit := do
  let s ← get
  if (s.fn f).tdisp = .run || (s.fn f).tdisp = .error then
    set (((s.stopCarried f Cause.tdiStop).modFn f fun x => { x with tdisp := .unlocked }).refreshBindings.reply f (.ok 0x86 []))
  else set (s.reply f .invalidInterface)

/-- The interface is CONFIG_UNLOCKED, and the world that it carries has stopped. -/
def interfaceStopped (s : State) (f : Nat) : State :=
  ((s.stopCarried f Cause.tdiStop).modFn f fun x => { x with tdisp := .unlocked }).refreshBindings.reply f (.ok 0x86 [])

theorem stopInterface_apply (h : (t.fn f).tdisp = .run ∨ (t.fn f).tdisp = .error) : stopInterface f t = .ok () (interfaceStopped t f) := by
  have hor : (decide ((t.fn f).tdisp = .run) || decide ((t.fn f).tdisp = .error)) = true := by simpa using h
  exact Reaches.bind (M.get_apply _) (.pos hor (M.set_apply ..))

theorem interfaceStopped_func (t : State) (f : Nat) : (interfaceStopped t f).fn f =
    { (t.stopCarried f Cause.tdiStop).fn f with tdisp := .unlocked, doe := .ok 0x86 [] } := by
  rw [interfaceStopped, State.reply, State.modFn_fn, State.refreshBindings_fn, State.modFn_fn]

theorem interfaceStopped_world (t : State) (f w : Nat) : (interfaceStopped t f).world w = (t.stopCarried f Cause.tdiStop).world w := by
  rw [interfaceStopped, State.reply, State.modFn_world, State.refreshBindings_world, State.modFn_world]

theorem interfaceStopped_fn (hf : f ≠ 0) : ((interfaceStopped t f).fn f).tdisp = .unlocked ∧
    ((interfaceStopped t f).fn f).world = (t.fn f).world ∧
    ((t.fn f).world ≠ 0 → ((interfaceStopped t f).world (t.fn f).world).stopped = true) := by
  rw [interfaceStopped_func, interfaceStopped_world]
  exact ⟨rfl, (stopCarried_fn t f Cause.tdiStop f).world, fun hw => stopCarried_stopped hf hw⟩

theorem exec_stopInterfaceRequest (f n : Nat) : exec (.stopInterfaceRequest f n) = event (onTdisp f n (stopInterface f)) := rfl

theorem run_stop (hb : s.booted = true) (hf : f ≤ 14) (h0 : f ≠ 0) (he : (s.fn f).established n = true)
    (ht : (s.fn f).tdisp = .run ∨ (s.fn f).tdisp = .error) : ∃ t, exec (.stopInterfaceRequest f n) s = .next t ∧ (t.fn f).tdisp = .unlocked ∧
      (t.fn f).world = (s.fn f).world ∧ ((s.fn f).world ≠ 0 → (t.world (s.fn f).world).stopped = true) := by
  have hworld : ((s.modFn f (·.heard n s.meridian)).fn f).world = (s.fn f).world := by rw [heard_fn]; rfl
  refine ⟨_, by rw [exec_stopInterfaceRequest]; exact event_onTdisp hb hf h0 he (stopInterface_apply (by rwa [heard_tdisp])), ?_⟩
  rw [← hworld]
  exact interfaceStopped_fn h0

/-! ## Expiries -/

/-- A slot of a core of a world that stops is FREE, or FROZEN with the cause of the stop. -/
theorem stopWorld_slot_record (s : State) (w : Nat) (cause : Byte) {c : Nat} (h : (s.core c).world = w) (n : Nat) :
    ((s.stopWorld w cause none).slot c n).st = .free ∨
      (((s.stopWorld w cause none).slot c n).st = .frozen ∧ ((s.stopWorld w cause none).slot c n).cause = cause.setWidth 64) := by
  rcases State.stopWorld_slot_cases s w cause none h n with hs | ⟨-, hs⟩
  · rw [hs, Slot.stopped, if_neg (by simp), Slot.freeze]
    split
    · next hfree => exact .inl hfree
    · exact .inr ⟨rfl, rfl⟩
  · exact .inl (by rw [hs]; rfl)

theorem run_worldKeyLeaseExpiry (hl : (s.world w).live = true) (hd : (s.world w).memDead = false) (h0 : (s.world w).memExpiry ≠ 0)
    (he : (s.world w).memExpiry ≤ s.meridian) (hs : (s.world w).stopped = false) :
    ∃ t, exec (.worldKeyLeaseExpiry w) s = .next t ∧ (t.world w).memDead = true ∧ (t.world w).stopped = true ∧ t.mem = s.mem ∧
      ∀ c n, (s.core c).world = w → (t.slot c n).st = .free ∨ ((t.slot c n).st = .frozen ∧ (t.slot c n).cause = 0x11) := by
  have hreq : ((s.world w).live && !(s.world w).memDead && s.keyDead w) = true := by simp [hl, hd, State.keyDead, h0, he]
  refine ⟨((s.modWorld w fun x => { x with memDead := true }).tdiFails (s.world w).tdi).stopWorld w Cause.keylease none,
    event_of_ok (Reaches.bind (M.get_apply _) (.bind (require_apply hreq s) ?_)), ?_, State.stopWorld_stopped .., ?_, fun c n hc => ?_⟩
  · extract_lets
    rw [if_neg (by rw [hs]; decide)]
    exact M.set_apply ..
  · rw [stopWorld_memDead, tdiFails_world]
    simp [State.modWorld, State.setWorld, State.world]
  · rw [State.stopWorld_mem, tdiFails_mem]
    rfl
  · refine stopWorld_slot_record _ w Cause.keylease ?_ n
    rw [State.core, tdiFails_cores]
    exact hc

theorem run_ideKeySetExpiry (hl : ((s.fn f).keySet i out).live = true) (he : ((s.fn f).keySet i out).expiry ≤ s.meridian) :
    exec (.ideKeySetExpiry f i out) s = .next (s.setFn f ((s.fn f).setKeySet i out { (s.fn f).keySet i out with live := false })) := by
  have hreq : (((s.fn f).keySet i out).live && decide (((s.fn f).keySet i out).expiry ≤ s.meridian)) = true := by rw [hl, decide_eq_true he]; rfl
  exact event_of_ok (Reaches.bind (M.get_apply _) (.bind (require_apply hreq s) (M.set_apply ..)))

theorem run_contextSaveKeyExpiry (hl : (s.world w).live = true) (he : (s.world w).ctxExpiry ≤ s.meridian) :
    exec (.contextSaveKeyExpiry w) s = .next s ∧ s.ctxKeyDead w = true := by
  have hreq : ((s.world w).live && decide ((s.world w).ctxExpiry ≤ s.meridian)) = true := by rw [hl, decide_eq_true he]; rfl
  refine ⟨event_of_ok (Reaches.bind (M.get_apply _) (require_apply hreq s)), ?_⟩
  rw [State.ctxKeyDead, decide_eq_true he, Bool.or_true]

theorem run_checkpointKeyExpiry (hk : s.ckptKey ≠ 0) (he : s.ckptExpiry ≤ s.meridian) :
    exec .checkpointKeyExpiry s = .next { s with ckptKey := 0, ckptExpiry := 0 } := by
  have hreq : (decide (s.ckptKey ≠ 0) && decide (s.ckptExpiry ≤ s.meridian)) = true := by rw [decide_eq_true hk, decide_eq_true he]; rfl
  exact event_of_ok (Reaches.bind (M.get_apply _) (.bind (require_apply hreq s) (M.set_apply ..)))

end

theorem interfaces : Claims.Interfaces := by
  refine ⟨fun s f n hb hf h0 he => ⟨run_lock hb hf h0 he, run_lock_refused hb hf h0 he, run_start hb hf h0 he, run_start_refused hb hf h0 he,
      run_stop hb hf h0 he⟩,
    fun s f n hb hf h0 he => ⟨event_onTdisp_refused hb hf h0 he, event_onTdisp_refused hb hf h0 he, event_onTdisp_refused hb hf h0 he⟩,
    fun s f hf h => ⟨s.tdiError f Cause.tdiStop, rfl, rfl, tdiError_ends hf h⟩, fun s w => run_worldKeyLeaseExpiry,
    fun s f i out _ => run_ideKeySetExpiry, fun s w => run_contextSaveKeyExpiry, fun s => run_checkpointKeyExpiry⟩

/-- Settles O50: each message is answered from the function's state; what ends an interface stops its world. -/
theorem mailboxesAndInterfaces : Obligations.MailboxesAndInterfaces := ⟨mailboxes, interfaces⟩

end Sys2Proof.Machine
end

section
/-! Boot and the loss of power, the enabling of clusters, throttling, telemetry and CXL.mem (R25, R41, R46, R47, R49, R53, R308 to R313). -/

-- One declaration after another: checked side by side, these take more threads than the memory of the check holds.
set_option Elab.async false

namespace Sys2Proof

/-- A map restricted by its keys. -/
theorem Sparse.get_filter {α : Type} (d : α) (p : Nat → Bool) (m : Sparse α) (k : Nat) :
    get d (m.filter fun e => p e.1) k = if p k then get d m k else d := by
  induction m with
  | nil => simp
  | cons e m ih =>
    obtain ⟨j, v⟩ := e
    by_cases hj : p j = true
    · rw [List.filter_cons_of_pos (p := fun e : Nat × α => p e.1) (a := (j, v)) hj, get_cons, get_cons, ih]
      by_cases hk : j = k
      · subst hk
        simp [hj]
      · simp [hk]
    · rw [List.filter_cons_of_neg (p := fun e : Nat × α => p e.1) (a := (j, v)) hj, get_cons, ih]
      by_cases hk : j = k
      · subst hk
        simp [hj]
      · simp [hk]

namespace Machine

open Sys2Proof.Claims

section
variable {s t : State} {v : BootVerdict}

/-! ## Boot and the loss of power -/

theorem shippedMatrix_bits : ∀ r < 16, ∀ o < 16, shippedMatrix.getLsbD (r * 16 + o) = decide (r = 0 ∨ r = o) := by decide +kernel

theorem run_powerOn (h : s.booted = false) (v : BootVerdict) : exec (.powerOn v) s = .next (s.boot v) := by
  have hreq : (!s.power || !s.booted) = true := by rw [h, Bool.not_false, Bool.or_true]
  exact event_of_ok (Reaches.bind (M.get_apply _) (.bind (require_apply hreq s) (M.set_apply ..)))

theorem boot_failed (h : bootStateOf v ≠ 0) (s : State) :
    s.boot v = { s with power := true, booted := true, bootState := bootStateOf v, attKey := bootAttestation } := if_pos h

theorem bootStateOf_firmware (h : v.firmwareOk = false) : bootStateOf v = 2 := by simp [bootStateOf, h]

theorem bootStateOf_die (h : v.firmwareOk = true) (hd : v.ioDieOk = false ∨ v.die0Ok = false ∨ v.die1Ok = false) : bootStateOf v = 1 := by
  have hor : (!v.ioDieOk || !v.die0Ok || !v.die1Ok) = true := by simpa [or_assoc] using hd
  simp [bootStateOf, h, hor]

theorem bootStateOf_good (h : v.firmwareOk = true) (hi : v.ioDieOk = true) (h0 : v.die0Ok = true) (h1 : v.die1Ok = true) : bootStateOf v = 0 := by
  simp [bootStateOf, h, hi, h0, h1]

/-- Step 4 of boot writes and locks the matrix, and draws the keys of worlds 0 and 1. -/
theorem boot_good (h : bootStateOf v = 0) (s : State) : (s.boot v).bootState = 0 ∧ (s.boot v).firewallLock = true ∧
    ((s.boot v).world 0).live = true ∧ ((s.boot v).world 1).live = true ∧ ((s.boot v).world 0).memKey ≠ ((s.boot v).world 1).memKey ∧
    ∀ r o k, r < 16 → o < 16 → (s.boot v).fwAllows r o k = decide (r = 0 ∨ r = o) := by
  have hboot : s.boot v = { s with
      power := true, booted := true, bootState := bootStateOf v, attKey := bootAttestation, firewallR := shippedMatrix
      firewallW := shippedMatrix, firewallLock := true
      worlds := [(0, { World.init with live := true, memKey := s.keySerial }), (1, { World.init with live := true, memKey := s.keySerial + 1 })]
      keySerial := s.keySerial + 2 } := if_neg (not_not_intro h)
  rw [hboot]
  refine ⟨h, rfl, rfl, rfl, (Nat.succ_ne_self _).symm, fun r o k hr ho => ?_⟩
  have hbit := shippedMatrix_bits r hr o ho
  cases k with
  | atomic => exact (congrArg₂ (· && ·) hbit hbit).trans (Bool.and_self _)
  | read | write | exec => exact hbit

theorem boot_facts (s : State) (v : BootVerdict) : (s.boot v).power = true ∧ (s.boot v).booted = true ∧ (s.boot v).attKey = bootAttestation := by
  unfold State.boot
  dsimp only
  split <;> exact ⟨rfl, rfl, rfl⟩

/-- The loss of power leaves the host's memory alone. -/
theorem unpowered_byte (s : State) (l : Nat) : s.unpowered.byte l = if isHost l then s.byte l else 0 := Sparse.get_filter ..

theorem run_powerLoss (h : s.power = true) : exec .powerLoss s = .next s.unpowered :=
  event_of_ok (Reaches.bind (M.get_apply _) (.bind (require_apply h s) (M.modify_apply ..)))

theorem run_overTemperature {d tj : Nat} (h : s.power = true) (hd : d ≤ 1) (ht : 920 ≤ tj) : exec (.overTemperature d tj) s = .next s.unpowered := by
  have hreq : (s.power && decide (d ≤ 1) && decide (tj ≥ 920)) = true := by rw [h, decide_eq_true hd, decide_eq_true ht]; rfl
  exact event_of_ok (Reaches.bind (M.get_apply _) (.bind (require_apply hreq s) (M.modify_apply ..)))

/-! ## Clusters -/

/-- A change of the cores of a range. -/
theorem foldl_modCore (s : State) (base n : Nat) (f : Core → Core) : ((List.range n).foldl (fun t i => t.modCore (base + i) f) s).mem = s.mem ∧
    (∀ i, i < n → ((List.range n).foldl (fun t i => t.modCore (base + i) f) s).core (base + i) = f (s.core (base + i))) ∧
    ∀ k, k < base ∨ base + n ≤ k → ((List.range n).foldl (fun t i => t.modCore (base + i) f) s).core k = s.core k := by
  induction n with
  | zero => exact ⟨rfl, fun _ h => absurd h (Nat.not_lt_zero _), fun _ _ => rfl⟩
  | succ n ih =>
    obtain ⟨hmem, hin, hout⟩ := ih
    rw [List.range_succ, List.foldl_append, List.foldl_cons, List.foldl_nil]
    refine ⟨hmem, fun i hi => ?_, fun k hk => ?_⟩
    · by_cases he : i = n
      · rw [he, State.modCore_core, hout _ (.inr (Nat.le_refl _))]
      · rw [State.modCore_core_of_ne _ _ (by omega), hin i (by omega)]
    · rw [State.modCore_core_of_ne _ _ (by omega), hout k (by omega)]

theorem run_clusterEnable {c : Nat} (hb : s.booted = true) (h0 : s.bootState = 0) (hc : s.nextCluster = some c)
    (ht : c = 0 ∨ (s.core (8 * c - 8)).enabledAt + 2850 ≤ s.cycle) : ∃ t, exec .clusterEnable s = .next t ∧ t.mem = s.mem ∧
      (∀ i, i < 8 → (t.core (8 * c + i)).enabled = true ∧
        (t.core (8 * c + i)).enabledAt = if c = 0 then s.cycle else (s.core (8 * c - 8)).enabledAt + 2850) ∧
      ∀ k, k < 8 * c ∨ 8 * c + 8 ≤ k → t.core k = s.core k := by
  have hreq : (s.booted && decide (s.bootState = 0)) = true := by rw [hb, decide_eq_true h0]; rfl
  have hat : (if c = 0 then s.cycle else (s.core (8 * c - 8)).enabledAt + 2850) ≤ s.cycle := by
    split
    · exact Nat.le_refl _
    · next hne => exact ht.resolve_left hne
  obtain ⟨hmem, hin, hout⟩ := foldl_modCore s (8 * c) 8 fun k =>
    { k with enabled := true, enabledAt := if c = 0 then s.cycle else (s.core (8 * c - 8)).enabledAt + 2850 }
  refine ⟨_, event_of_ok (Reaches.bind (M.get_apply _) (.bind (require_apply hreq s) ?_)), hmem, fun i hi => ?_, hout⟩
  · rw [hc]
    exact .bind (require_apply (decide_eq_true hat) s) (M.set_apply ..)
  · rw [hin i hi]
    exact ⟨rfl, rfl⟩

theorem run_arrayGating {c : Nat} (he : (s.core c).enabled = true) (hg : (s.core c).gated = false)
    (ha : ∀ a ∈ (s.core c).accs.toList, a.claimed = false) (hl : (s.core c).lastRow + 2 ^ 20 ≤ s.cycle)
    (hc : (s.core c).enabledAt + 2 ^ 20 ≤ s.cycle) : exec (.arrayGating c) s = .next (s.modCore c fun k => { k with gated := true }) := by
  have hall : ((s.core c).accs.all fun a => !a.claimed) = true := by
    rw [Vector.all_eq_true']
    intro a hmem
    rw [ha a (Vector.mem_toList_iff.2 hmem)]
    rfl
  have hreq : ((s.core c).enabled && !(s.core c).gated && (s.core c).accs.all (fun a => !a.claimed) && decide ((s.core c).lastRow + 2 ^ 20 ≤ s.cycle) &&
      decide ((s.core c).enabledAt + 2 ^ 20 ≤ s.cycle)) = true := by
    rw [he, hg, hall, decide_eq_true hl, decide_eq_true hc]
    rfl
  exact event_of_ok (Reaches.bind (M.get_apply _) (.bind (require_apply hreq s) (M.set_apply ..)))

/-! ## Throttling (R310) -/

theorem enteredLevel_hot {tj p cap : Nat} (h : 840 ≤ tj) : enteredLevel tj p cap = 3 := if_pos h

theorem enteredLevel_warm {tj p cap : Nat} (h : 800 ≤ tj) (h' : tj < 840) : enteredLevel tj p cap = 2 := by
  simp [enteredLevel, h, Nat.not_le.2 h']

theorem enteredLevel_cool {tj p cap : Nat} (ht : tj < 760) (hp : p * 100 < cap * 98) : enteredLevel tj p cap = 0 := by
  have hcap : p < cap := by omega
  rw [enteredLevel, if_neg (by omega), if_neg (by simp; omega), if_neg (by simp; omega)]

theorem enteredLevel_capped {tj p cap : Nat} (h : cap ≤ p) : 2 ≤ enteredLevel tj p cap := by
  have hor : (decide (tj ≥ 800) || decide (p ≥ cap)) = true := by rw [decide_eq_true h, Bool.or_true]
  by_cases ht : tj ≥ 840
  · rw [enteredLevel, if_pos ht]
    decide
  · rw [enteredLevel, if_neg ht, if_pos hor]

/-- At a level that temperature and power enter, or below it, the level is the one entered. -/
theorem throttle_entered {x : Die} {tj p cap : Nat} (h : x.level ≤ enteredLevel tj p cap) : (x.throttle tj p cap).level = enteredLevel tj p cap :=
  if_pos h

/-- Below every threshold and the cap all levels are left. -/
theorem leftLevel_zero {tj p cap level : Nat} (ht : tj ≤ 719) (hp : p < cap) : leftLevel tj p cap 0 level = 0 := by
  induction level with
  | zero => rfl
  | succ n ih =>
    have hth : 760 ≤ levelTj (n + 1) := by
      unfold levelTj
      split <;> omega
    have hcond : (decide (0 < n + 1) && decide (tj + 40 ≤ levelTj (n + 1)) && decide (p < cap)) = true := by
      simp only [Bool.and_eq_true, decide_eq_true_eq]
      omega
    rw [leftLevel, if_pos hcond, ih]

/-- At the cap, or where it is hot, no level above is left. -/
theorem leftLevel_kept {tj p cap target level : Nat} (h : cap ≤ p ∨ 840 ≤ tj) : leftLevel tj p cap target level = level := by
  cases level with
  | zero => rfl
  | succ n =>
    have hth : levelTj (n + 1) ≤ 840 := by
      unfold levelTj
      split <;> omega
    have hcond : ¬(decide (target < n + 1) && decide (tj + 40 ≤ levelTj (n + 1)) && decide (p < cap)) = true := by
      simp only [Bool.and_eq_true, decide_eq_true_eq]
      omega
    rw [leftLevel, if_neg hcond]

theorem throttle_cool {x : Die} {tj p cap : Nat} (ht : tj ≤ 719) (hp : p * 100 < cap * 98) : (x.throttle tj p cap).level = 0 := by
  have he := enteredLevel_cool (show tj < 760 by omega) hp
  change (if enteredLevel tj p cap ≥ x.level then enteredLevel tj p cap else leftLevel tj p cap (enteredLevel tj p cap) x.level) = 0
  rw [he]
  split
  · rfl
  · exact leftLevel_zero ht (by omega)

theorem throttle_at_least {x : Die} {tj p cap : Nat} (h : cap ≤ p ∨ 840 ≤ tj) : enteredLevel tj p cap ≤ (x.throttle tj p cap).level := by
  change _ ≤ (if enteredLevel tj p cap ≥ x.level then enteredLevel tj p cap else leftLevel tj p cap (enteredLevel tj p cap) x.level)
  split
  · exact Nat.le_refl _
  · rw [leftLevel_kept h]
    omega

/-- Each die is judged anew by itself. -/
theorem rejudge_die {d : Nat} (hd : d ≤ 1) (s : State) : s.rejudge.die d = (s.die d).throttle (s.die d).tj s.powerNow s.powerCap := by
  obtain rfl | rfl : d = 0 ∨ d = 1 := by omega
  · exact (Sparse.get_put_of_ne _ _ _ (by decide)).trans (Sparse.get_put_self ..)
  · exact Sparse.get_put_self ..

/-- The die whose temperature has changed, before both are judged. -/
def heated (s : State) (d tj p : Nat) : State :=
  { s with powerNow := p, dies := Sparse.put s.dies d ((s.die d).throttle tj p s.powerCap) }

theorem heated_die {d tj p : Nat} (hd : d ≤ 1) (s : State) :
    (heated s d tj p).rejudge.die d = ((s.die d).throttle tj p s.powerCap).throttle tj p s.powerCap := by
  have hdie : (heated s d tj p).die d = (s.die d).throttle tj p s.powerCap := Sparse.get_put_self ..
  rw [rejudge_die hd, hdie]
  rfl

theorem throttle_twice {x : Die} {tj p cap : Nat} (h : x.level ≤ enteredLevel tj p cap) :
    ((x.throttle tj p cap).throttle tj p cap).level = enteredLevel tj p cap :=
  throttle_entered (Nat.le_of_eq (throttle_entered h))

theorem run_throttleLevelChange {d tj p : Nat} (hd : d ≤ 1) (ht : tj < 920) :
    ∃ t, exec (.throttleLevelChange d tj p) s = .next t ∧ t.powerNow = p ∧ (t.die d).tj = tj ∧
      (840 ≤ tj → (s.die d).level ≤ 3 → (t.die d).level = 3) ∧ (800 ≤ tj → tj < 840 → (s.die d).level ≤ 2 → (t.die d).level = 2) ∧
      (tj ≤ 719 → p * 100 < s.powerCap * 98 → (t.die d).level = 0) ∧
      (tj < 760 → p * 100 < s.powerCap * 98 → (s.die d).level = 0 → (t.die d).level = 0) := by
  have hreq : (decide (d ≤ 1) && decide (tj < 920)) = true := by rw [decide_eq_true hd, decide_eq_true ht]; rfl
  refine ⟨(heated s d tj p).rejudge, event_of_ok (Reaches.bind (M.get_apply _) (.bind (require_apply hreq s) (M.set_apply ..))), rfl, ?_⟩
  rw [heated_die hd]
  refine ⟨rfl, fun h hl => ?_, fun h h' hl => ?_, fun h hp => throttle_cool h hp, fun h hp hl => ?_⟩
  · rw [throttle_twice (by rwa [enteredLevel_hot h]), enteredLevel_hot h]
  · rw [throttle_twice (by rwa [enteredLevel_warm h h']), enteredLevel_warm h h']
  · rw [throttle_twice (by rw [hl]; exact Nat.zero_le _), enteredLevel_cool h hp]

theorem rejudge_clauses {d : Nat} (hd : d ≤ 1) (s : State) : s.rejudge = { s with dies := s.rejudge.dies } ∧ (s.rejudge.die d).tj = (s.die d).tj ∧
    (s.powerCap ≤ s.powerNow → 2 ≤ (s.rejudge.die d).level) ∧ (840 ≤ (s.die d).tj → 3 ≤ (s.rejudge.die d).level) ∧
    ((s.die d).tj ≤ 719 → s.powerNow * 100 < s.powerCap * 98 → (s.rejudge.die d).level = 0) := by
  rw [rejudge_die hd]
  refine ⟨rfl, rfl, fun h => ?_, fun h => ?_, fun h hp => throttle_cool h hp⟩
  · exact (enteredLevel_capped h).trans (throttle_at_least (.inl h))
  · exact (Nat.le_of_eq (enteredLevel_hot h).symm).trans (throttle_at_least (.inr h))

/-! ## Telemetry (R312, R313) -/

theorem run_setPowerCap {w : Nat} (hb : s.booted = true) : exec (.setPowerCap w) s =
    .next ({ s with powerCap := if 1200 ≤ w && w ≤ 2200 then w else s.powerCap, mctp := [if 1200 ≤ w && w ≤ 2200 then w else s.powerCap] } :
      State).rejudge :=
  event_of_ok (Reaches.bind (M.get_apply _) (.bind (require_apply hb s) (M.set_apply ..)))

theorem run_uncore {d n : Nat} {src : Option Nat} (hb : s.booted = true) (hd : d ≤ 1) (hn : n ≤ 15) :
    ∃ t v, exec (.uncore d n src) s = .next t ∧ t.mctp = [v % 2 ^ 48, v / 2 ^ 48 % 2] ∧
      (Sparse.get Uncore.init t.uncore (d * 16 + n)).source = src.getD (Sparse.get Uncore.init s.uncore (d * 16 + n)).source := by
  have hreq : (s.booted && decide (d ≤ 1) && decide (n ≤ 15)) = true := by rw [hb, decide_eq_true hd, decide_eq_true hn]; rfl
  have hbool (x : Nat) : boolNat (decide (x % 2 = 1)) = x % 2 := by
    unfold boolNat
    split
    · next h => exact (of_decide_eq_true h).symm
    · next h =>
      have := of_decide_eq_false (Bool.eq_false_iff.2 h)
      omega
  refine ⟨_, Config.uncoreReading s.freeCtr, event_of_ok (Reaches.bind (M.get_apply _) (.bind (require_apply hreq s) (M.set_apply ..))), ?_, ?_⟩
  · exact congrArg (fun x => [Config.uncoreReading s.freeCtr % 2 ^ 48, x]) (hbool _)
  · exact congrArg Uncore.source (Sparse.get_put_self ..)

/-! ## CXL.mem -/

variable {q : MemRequest}

theorem extent_mine : ((s.world 1).extents.any fun e => decide (e.kind = 0) && inRange e.dpa e.len q.addr) = true ↔
    ∃ e ∈ (s.world 1).extents, e.kind = 0 ∧ e.dpa ≤ q.addr ∧ q.addr < e.dpa + e.len := by
  simp [inRange]

theorem run_cxl_refused (hb : s.booted = true)
    (h : (∀ e ∈ (s.world 1).extents, ¬(e.kind = 0 ∧ e.dpa ≤ q.addr ∧ q.addr < e.dpa + e.len)) ∨ q.addr % 64 ≠ 0) :
    exec (.cxlMemRequest q) s = .next { s.modFn 0 fun f => { f with lastUR := true } with cxlReply := none } := by
  have hbad : (!((s.world 1).extents.any fun e => decide (e.kind = 0) && inRange e.dpa e.len q.addr) || decide (q.addr % 64 ≠ 0) ||
      !s.fwAllows 1 1 (if q.write then .write else .read)) = true := by
    obtain h | h := h
    · have hno : ((s.world 1).extents.any fun e => decide (e.kind = 0) && inRange e.dpa e.len q.addr) = false :=
        Bool.eq_false_iff.2 fun hm => by
          obtain ⟨e, he, hk⟩ := extent_mine.1 hm
          exact h e he hk
      simp [hno]
    · simp [h]
  exact event_of_ok (Reaches.bind (M.get_apply _) (.bind (require_apply hb s) (.pos hbad (M.set_apply ..))))

/-- Bytes of a line written by the device: they stand in memory. -/
theorem lineWrite_mem (s : State) (key loc : Nat) (bs : List Byte) : (s.lineWrite key loc bs).mem = (s.setBytes loc bs).mem := by
  have hfold (l : List Nat) (u : State) : (l.foldl (fun t line =>
      ((({ t with l2 := t.l2.map fun e => (e.1, e.2.filter (·.line ≠ line)) } : State).sealLine line key).mscTouch line)) u).mem = u.mem := by
    induction l generalizing u with
    | nil => rfl
    | cons x l ih => exact ih _
  rw [← State.setCells_cellsAt]
  exact State.setCells_mem_congr (hfold ..) _

theorem cxl_accepted (hmine : ∃ e ∈ (s.world 1).extents, e.kind = 0 ∧ e.dpa ≤ q.addr ∧ q.addr < e.dpa + e.len) (hal : q.addr % 64 = 0)
    (hfw : s.fwAllows 1 1 (if q.write then .write else .read) = true) :
    ¬(!((s.world 1).extents.any fun e => decide (e.kind = 0) && inRange e.dpa e.len q.addr) || decide (q.addr % 64 ≠ 0) ||
      !s.fwAllows 1 1 (if q.write then .write else .read)) = true := by
  rw [extent_mine.2 hmine, hfw, hal]
  decide

theorem run_cxl_write (hb : s.booted = true) (hmine : ∃ e ∈ (s.world 1).extents, e.kind = 0 ∧ e.dpa ≤ q.addr ∧ q.addr < e.dpa + e.len)
    (hal : q.addr % 64 = 0) (hfw : s.fwAllows 1 1 .write = true) (hw : q.write = true) (hlen : q.data.length = 64) (hk : s.keyDead 1 = false) :
    ∃ t, exec (.cxlMemRequest q) s = .next t ∧ t.cxlReply = some [] ∧
      (∀ i, i < 64 → t.byte (q.addr + i) = q.data.getD i 0) ∧ ∀ l, (l < q.addr ∨ q.addr + 64 ≤ l) → t.byte l = s.byte l := by
  have hok := cxl_accepted hmine hal (by rwa [hw])
  have hmem : (s.deviceWrite 1 q.addr q.data).mem = (s.setBytes q.addr q.data).mem := by
    rw [State.deviceWrite, if_neg (by rw [hk]; decide), lineWrite_mem]
  refine ⟨{ s.deviceWrite 1 q.addr q.data with cxlReply := some [] },
    event_of_ok (Reaches.bind (M.get_apply _) (.bind (require_apply hb s) (.neg hok (.pos hw (.neg (fun h => h hlen) (M.set_apply ..)))))), rfl,
    fun i hi => ?_, fun l hl => ?_⟩
  · refine (State.byte_of_mem (s := s.setBytes q.addr q.data) hmem _).trans ?_
    rw [List.getD_eq_getElem _ _ (by rwa [hlen])]
    exact State.byte_setBytes (by rwa [hlen])
  · refine (State.byte_of_mem (s := s.setBytes q.addr q.data) hmem l).trans ?_
    exact State.byte_setBytes_of_not (by rwa [hlen])

theorem run_cxl_read (hb : s.booted = true) (hmine : ∃ e ∈ (s.world 1).extents, e.kind = 0 ∧ e.dpa ≤ q.addr ∧ q.addr < e.dpa + e.len)
    (hal : q.addr % 64 = 0) (hfw : s.fwAllows 1 1 .read = true) (hw : q.write = false) (h0 : (s.world 1).memKey ≠ 0)
    (hkey : Sparse.get 0 s.lineKeys (q.addr / 64) = (s.world 1).memKey) (hecc : q.addr / 64 ∉ s.eccBad) :
    ∃ t, exec (.cxlMemRequest q) s = .next t ∧ t.cxlReply = some (s.bytes q.addr 64) ∧ t.mem = s.mem := by
  have hok := cxl_accepted hmine hal (by rwa [hw])
  have hver : (s.mscTouch (q.addr / 64)).lineVerifies 1 (q.addr / 64) = true := by
    change (!s.eccBad.contains (q.addr / 64) && decide ((s.world 1).memKey ≠ 0) &&
      (decide (Sparse.get 0 s.lineKeys (q.addr / 64) = (s.world 1).memKey) || Config.macCollides (q.addr / 64) s.freeCtr)) = true
    simp [hecc, h0, hkey]
  have hsame : (s.mscTouch (q.addr / 64)).lineCollide 1 (q.addr / 64) = s.mscTouch (q.addr / 64) := if_pos hkey
  have hbytes : (s.mscTouch (q.addr / 64)).bytes q.addr 64 = s.bytes q.addr 64 := State.bytes_of_mem rfl ..
  refine ⟨{ s.mscTouch (q.addr / 64) with cxlReply := some (s.bytes q.addr 64) },
    event_of_ok (Reaches.bind (M.get_apply _) (.bind (require_apply hb s) (.neg hok (.neg (by rw [hw]; decide) (.pos hver ?_))))), rfl, rfl⟩
  rw [← hbytes]
  extract_lets u
  rw [show u = s.mscTouch (q.addr / 64) from hsame]
  exact M.set_apply ..

end

/-- Settles O51: boot, power, clusters, levels and the CXL.mem port, each event by its cases. -/
theorem powerAndTelemetry : Obligations.PowerAndTelemetry := by
  refine ⟨fun s v h => ⟨s.boot v, run_powerOn h v, (boot_facts s v).1, (boot_facts s v).2.1, (boot_facts s v).2.2, fun hf => ?_, fun hf hd => ?_,
      fun hf hi h0 h1 => boot_good (bootStateOf_good hf hi h0 h1) s⟩,
    fun s h => ⟨s.unpowered, run_powerLoss h, rfl, rfl, rfl, rfl, rfl, rfl, fun l hl => ?_, fun l hl => ?_, fun d tj => run_overTemperature h⟩,
    fun s c hb h0 hc ht => run_clusterEnable hb h0 hc ht, fun s c he hg ha hl hc => run_arrayGating he hg ha hl hc,
    fun s d tj p hd ht => run_throttleLevelChange hd ht, fun s d hd => rejudge_clauses hd s,
    fun s hb => ⟨?_, fun w h1 h2 => ?_, fun w hw => ?_, fun d n src => run_uncore hb⟩,
    fun s q hb => ⟨run_cxl_refused hb, run_cxl_write hb, run_cxl_read hb⟩⟩
  · rw [boot_failed (by rw [bootStateOf_firmware hf]; decide), bootStateOf_firmware hf]
    exact ⟨rfl, rfl⟩
  · rw [boot_failed (by rw [bootStateOf_die hf hd]; decide), bootStateOf_die hf hd]
    exact ⟨rfl, rfl⟩
  · rw [unpowered_byte, if_pos hl]
  · rw [unpowered_byte, if_neg (by rw [hl]; decide)]
  · exact event_of_ok (Reaches.bind (M.get_apply _) (.bind (require_apply hb s) (M.set_apply ..)))
  · rw [run_setPowerCap hb, if_pos (by rw [decide_eq_true h1, decide_eq_true h2]; rfl)]
  · rw [run_setPowerCap hb, if_neg (by simp; omega)]

end Machine

end Sys2Proof
end

section
/-! The commands of a world and of its authority: GET_INFO, LOAD_IMAGE, LAUNCH, METER_READ, DEBUG_ATTACH, principals, rule sets and
capabilities (R13, R17, R18, R33, R35, R50, R217, R286, R292, R327). -/

-- One declaration after another: checked side by side, these take more threads than the memory of the check holds.
set_option Elab.async false

namespace Sys2Proof.Machine

open Sys2Proof.Claims

section
variable {s t : State} {c : Cmd} {op w n : Nat}

/-- An admitted command is begun with its effect on the state in which it was judged. -/
theorem issueCmd_admitted {effect : State → Effect} {world : Nat} (h : Admitted s c op) (hop : 1 ≤ op ∧ op ≤ 0x0F)
    (hd : (judged s c).foreignDestroy op c.fn = false) :
    issueCmd c op world effect s = .ok () (begunCmd (judged s c) c op world (effect (judged s c))) := by
  rw [issueCmd_begun h.1 (by omega), judge_effect h hop hd]

/-- The same, for the opcodes other than WORLD_DESTROY's. -/
theorem issueCmd_effect {effect : State → Effect} {world : Nat} (h : Admitted s c op) (hop : (1 ≤ op ∧ op ≤ 0x0F) ∧ op ≠ 4) :
    issueCmd c op world effect s = .ok () (begunCmd (judged s c) c op world (effect (judged s c))) :=
  issueCmd_admitted h hop.1 (foreignDestroy_of_ne hop.2 _)

theorem judged_world (s : State) (c : Cmd) (w : Nat) : (judged s c).world w = s.world w := rfl

theorem opnd_eq (s : State) (c : Cmd) (i : Nat) : ((judged s c).cmdWord c.fn i).toNat = opnd s c i := rfl

/-! ## The commands of a world -/

theorem run_getInfo (h : Admitted s c 1) (ha : opnd s c 1 % 64 = 0) :
    exec (.getInfo c) s = .next (begunCmd (judged s c) c 1 (s.fnWorld c.fn)
      (okWith 0, (judged s c).hostWrite (opnd s c 1) (((judged s c).infoWords c.fn).flatMap fun v => natToLe 8 v.toNat))) := by
  change execGetInfo c s = _
  simp only [execGetInfo, event, M.bind_apply, M.get_apply]
  rw [issueCmd_effect h (by decide), opnd_eq, if_neg (not_not_intro ha)]
  rfl

theorem run_launch {a : Nat} (h : Admitted s c 6) (hw : w = s.fnWorld c.fn) (ha : a = opnd s c 1) (hn : n = opnd s c 2) (hal : a % 64 = 0)
    (h0 : n ≠ 0) (hlt : n < 4096) : exec (.launch c) s = .next (begunCmd (judged s c) c 6 w (launchFrom c w a n 0 (n + 1) (judged s c))) := by
  have hno : ¬(decide (a % 64 ≠ 0) || decide (n = 0) || decide (n ≥ 4096)) = true := by simpa using ⟨⟨hal, h0⟩, hlt⟩
  change execLaunch c s = _
  simp only [execLaunch, event, M.bind_apply, M.get_apply]
  rw [issueCmd_effect h (by decide), opnd_eq, opnd_eq, ← ha, ← hn, ← hw, if_neg hno]

theorem run_loadImage {src dst : Nat} (h : Admitted s c 5) (hw : w = s.fnWorld c.fn) (hsrc : src = opnd s c 1) (hn : n = opnd s c 2)
    (hdst : dst = opnd s c 3)
    (h0 : n ≠ 0) (hal : n % 64 = 0) (hmax : n ≤ 2 ^ 28) (hdal : dst % 64 = 0) (hend : dst + n ≤ 2 ^ 56)
    (hcap : ∃ x ∈ (s.world w).caps, x.base ≤ dst ∧ dst + n ≤ x.base + x.len)
    (hpages : ∀ i, i < (dst % 65536 + n + 65535) / 65536 → ((judged s c).imagePage w (dst / 65536 * 65536 + 65536 * i)).isSome = true)
    (himg : (s.world w).images.length < 224) (hr : hostRange src n = true) (he : c.hostErr = none) :
    exec (.loadImage c) s = .next (begunCmd (judged s c) c 5 w (okWith (0x10 + (s.world w).images.length),
      (copyLines w src dst 0 (n / 64) (judged s c)).modWorld w fun x =>
        { x with images := x.images ++ [(Config.shake256 ((judged s c).hostRead src n)).toNat] })) := by
  have hshape : ¬(decide (n = 0) || decide (n % 64 ≠ 0) || decide (n > 2 ^ 28) || decide (dst % 64 ≠ 0) || decide (dst + n > 2 ^ 56)) = true := by
    simpa using ⟨⟨⟨⟨h0, hal⟩, hmax⟩, hdal⟩, hend⟩
  have hin : ¬(!((s.world w).caps.any fun x => decide (x.base ≤ dst) && decide (dst + n ≤ x.base + x.len))) = true := by
    simpa using hcap
  have hall : ¬(!(((List.range ((dst % 65536 + n + 65535) / 65536)).map fun i => dst / 65536 * 65536 + 65536 * i).all
      fun p => ((judged s c).imagePage w p).isSome)) = true := by
    simpa [Option.isSome_iff_ne_none] using hpages
  change execLoadImage c s = _
  simp only [execLoadImage, event, M.bind_apply, M.get_apply]
  rw [issueCmd_effect h (by decide)]
  simp only [opnd_eq, ← hsrc, ← hn, ← hdst, ← hw, judged_world, if_neg hshape, if_neg hin, if_neg hall, if_neg (Nat.not_le.2 himg), if_pos hr, he,
    if_neg (Nat.lt_irrefl (n / 64))]
  rfl

/-- LAUNCH at its i-th packet, by what becomes of its offer. -/
theorem launchFrom_cases {a i fuel : Nat} (h : i < n) (he : c.hostErr ≠ some i) (hr : hostRange (a + 64 * i) 64 = true) :
    (∀ t, s.offer w (s.hostRead (a + 64 * i) 64) = .accepted t → launchFrom c w a n i (fuel + 1) s = launchFrom c w a n (i + 1) fuel t) ∧
    (s.offer w (s.hostRead (a + 64 * i) 64) = .malformed → launchFrom c w a n i (fuel + 1) s =
      (.done 0x16 (BitVec.ofNat 32 i), s.modFn c.fn fun x => { x with rejected := x.rejected + 1 })) ∧
    (s.offer w (s.hostRead (a + 64 * i) 64) = .full → launchFrom c w a n i (fuel + 1) s = (.done 0x13 (BitVec.ofNat 32 i), s)) ∧
    launchFrom c w a n n (fuel + 1) s = (okWith n, s) := by
  refine ⟨fun t ho => ?_, fun ho => ?_, fun ho => ?_, launchFrom_end⟩
  all_goals
    rw [launchFrom_offer h he hr, ho]
    rfl

theorem run_meterRead {first a : Nat} (h : Admitted s c 0x0D) (hw : w = s.fnWorld c.fn) (hfirst : first = opnd s c 1) (hn : n = opnd s c 2)
    (ha : a = opnd s c 3) (hlt : first < 2 ^ 24) (h0 : n ≠ 0) (hmax : n < 4096) (hal : a % 8 = 0) :
    exec (.meterRead c) s = .next (begunCmd (judged s c) c 0xD w (okWith 0, (judged s c).hostWrite a
      ((List.range n).flatMap fun i => natToLe 8 (if (s.principal (first + i)).st ≠ .free ∧ (s.principal (first + i)).world = w
        then Sparse.get 0 (s.world w).meters (first + i) else 0)))) := by
  have hno : ¬(decide (first ≥ 2 ^ 24) || decide (n = 0) || decide (n ≥ 4096) || decide (a % 8 ≠ 0)) = true := by
    simpa using ⟨⟨⟨hlt, h0⟩, hmax⟩, hal⟩
  change execMeterRead c s = _
  simp only [execMeterRead, event, M.bind_apply, M.get_apply]
  rw [issueCmd_effect h (by decide)]
  simp only [opnd_eq, ← hfirst, ← hn, ← ha, ← hw, if_neg hno, Bool.and_eq_true, decide_eq_true_eq]
  rfl

/-- DEBUG_ATTACH with the operand of its direction. -/
theorem debugCmd_apply {v : W64} {other : Bool} (h : Admitted s c 0x0F) (hd : (s.world (s.fnWorld c.fn)).debugOk = true) (hc : s.cmdWord c.fn 1 = v)
    (hv : v.toNat ≤ 1) : debugCmd c v other s = .ok () (begunCmd (judged s c) c 0xF (s.fnWorld c.fn)
      (okWith 0, (judged s c).debugAttach (s.fnWorld c.fn) (decide (v = 1)))) := by
  simp only [debugCmd, M.bind_apply, M.get_apply, hc, require, decide_true, Bool.true_or, if_true, M.pure_apply]
  rw [issueCmd_effect h (by decide), if_neg (Nat.not_lt.2 hv), if_neg (by rw [judged_world, hd]; decide)]
  rfl

/-- The slots of a core of the world after a detachment: those HALTED run. -/
theorem debugAttach_slot {k : Nat} (h : (s.core k).world = w) (n : Nat) : ((s.debugAttach w false).slot k n).st ≠ .halted ∧
    ((s.slot k n).st ≠ .halted → (s.debugAttach w false).slot k n = s.slot k n) := by
  have hslots : ((s.debugAttach w false).core k).slots =
      (s.core k).slots.map fun q => (q.1, if q.2.st = .halted then { q.2 with st := .run, waiting := .none } else q.2) := by
    rcases get_mapValues_cases (d := Core.init) (fun x => if x.world = w then { x with
      slots := x.slots.map fun q => (q.1, if q.2.st = .halted then { q.2 with st := .run, waiting := .none } else q.2) } else x) s.cores k with hc |
        ⟨hc, hc'⟩
    · exact (congrArg Core.slots hc).trans (by rw [← State.core, if_pos h])
    · exact (congrArg Core.slots hc').trans (by rw [State.core, hc]; rfl)
  rw [State.slot, Core.slot, hslots]
  rcases get_mapValues_cases (d := Slot.init) (fun q => if q.st = .halted then { q with st := .run, waiting := .none } else q) (s.core k).slots n
    with hs | ⟨hs, hs'⟩
  · rw [hs]
    change (if (s.slot k n).st = .halted then { s.slot k n with st := .run, waiting := .none } else s.slot k n).st ≠ .halted ∧
      ((s.slot k n).st ≠ .halted → (if (s.slot k n).st = .halted then { s.slot k n with st := .run, waiting := .none } else s.slot k n) = s.slot k n)
    by_cases hh : (s.slot k n).st = .halted
    · exact ⟨by simp [hh], fun hne => absurd hh hne⟩
    · exact ⟨by rwa [if_neg hh], fun _ => if_neg hh⟩
  · rw [hs']
    exact ⟨by decide, fun _ => hs.symm⟩

theorem commandsOfAWorld : Claims.CommandsOfAWorld := by
  refine ⟨fun _ _ => run_getInfo, fun _ _ _ _ _ _ => run_loadImage, fun _ _ _ _ _ => run_launch,
    fun _ _ _ _ _ _ _ => launchFrom_cases, fun _ _ _ _ _ _ => run_meterRead, fun s c h hd => ⟨fun hc _ => ?_, fun hc _ => ?_⟩,
    fun _ _ _ n h => debugAttach_slot h n⟩
  · exact event_of_ok (debugCmd_apply h hd hc (by decide))
  · exact event_of_ok (debugCmd_apply h hd hc (by decide))

/-! ## Principals (R13, R211, R217) -/

theorem run_principalAdd {id m : Nat} (h : Admitted s c 7) (hw : w = s.fnWorld c.fn) (hid : id = opnd s c 1) (hlt : id < 2 ^ 24) (h0 : id ≠ 0)
    (hr : s.revoking = false) (hst : (s.principal id).st = .free ∨ ((s.principal id).st = .revoked ∧ (s.principal id).world = w))
    (hint : (judged s c).intern none id (s.principal id).gen 100 w 0 = some (m, t)) :
    exec (.principalAdd c) s = .next (begunCmd (judged s c) c 7 w (okWith m, t.setPrincipal id { s.principal id with st := .live, world := w })) := by
  have hmine : ¬(decide ((s.principal id).st ≠ .free) && decide ((s.principal id).world ≠ w)) = true := by
    rcases hst with hst | ⟨hst, hwd⟩
    · simp [hst]
    · simp [hwd]
  have hfree : ¬(decide ((s.principal id).st = .live) || decide ((s.principal id).st = .retired)) = true := by
    rcases hst with hst | ⟨hst, -⟩ <;> simp [hst]
  have hadd : (judged s c).addPrincipal w id = (okWith m, t.setPrincipal id { s.principal id with st := .live, world := w }) := by
    have hp : (judged s c).principal id = s.principal id := rfl
    simp only [State.addPrincipal, hp, if_neg h0, if_neg hmine, if_neg hfree, hint]
    rfl
  have hrev : ¬(judged s c).revoking = true := ne_true_of_eq_false hr
  change execPrincipalAdd c s = _
  simp only [execPrincipalAdd, event, M.bind_apply, M.get_apply]
  rw [issueCmd_effect h (by decide), opnd_eq, ← hid, ← hw, if_neg (Nat.not_le.2 hlt), if_neg hrev, hadd]

theorem run_principalAdd_waits {id : Nat} (h : Admitted s c 7) (hw : w = s.fnWorld c.fn) (hid : id = opnd s c 1) (hlt : id < 2 ^ 24)
    (hr : s.revoking = true) : exec (.principalAdd c) s = .next (begunCmd (judged s c) c 7 w (.principalAdd id, judged s c)) := by
  have hrev : (judged s c).revoking = true := hr
  change execPrincipalAdd c s = _
  simp only [execPrincipalAdd, event, M.bind_apply, M.get_apply]
  rw [issueCmd_effect h (by decide), opnd_eq, ← hid, ← hw, if_neg (Nat.not_le.2 hlt), if_pos hrev]

theorem run_principalRevoke {id : Nat} (h : Admitted s c 8) (hw : w = s.fnWorld c.fn) (hid : id = opnd s c 1) (hlt : id < 2 ^ 24) (h0 : id ≠ 0)
    (hst : (s.principal id).st = .live) (hmine : (s.principal id).world = w) :
    exec (.principalRevoke c) s = .next (begunCmd (judged s c) c 8 w
      (.revocation id, { judged s c with revocations := s.revocations ++ [⟨id, 0, 0, c.fn⟩] })) := by
  have hp : (judged s c).principal id = s.principal id := rfl
  change execPrincipalRevoke c s = _
  simp only [execPrincipalRevoke, event, M.bind_apply, M.get_apply]
  rw [issueCmd_effect h (by decide), opnd_eq, ← hid, ← hw, hp, if_neg (Nat.not_le.2 hlt), if_neg (by simp [h0, hst]), if_neg (not_not_intro hmine),
    if_neg (not_not_intro hst)]
  rfl

/-! ## Rule sets and capabilities (R17, R18) -/

theorem run_ruleSet {set a : Nat} {rules : List Rule} (h : Admitted s c 9) (hw : w = s.fnWorld c.fn) (hset : set = opnd s c 1) (ha : a = opnd s c 2)
    (hn : n = opnd s c 3) (hlt : set < 4096) (h0 : n ≠ 0) (hmax : n ≤ 16) (hr : cmdReadFails c a (32 * n) = false)
    (hrules : rulesOf ((judged s c).hostRead a (32 * n)) n = some rules) :
    exec (.ruleSet c) s = .next (begunCmd (judged s c) c 9 w (okWith 0,
      { (judged s c).modWorld w fun x => { x with ruleSets := Sparse.put x.ruleSets set rules } with ruleCaches := [] })) := by
  have hno : ¬(decide (set ≥ 4096) || decide (n = 0) || decide (n > 16) || cmdReadFails c a (32 * n)) = true := by
    simpa using ⟨⟨⟨hlt, h0⟩, hmax⟩, hr⟩
  change execRuleSet c s = _
  simp only [execRuleSet, event, M.bind_apply, M.get_apply]
  rw [issueCmd_effect h (by decide)]
  simp only [opnd_eq, ← hset, ← ha, ← hn, ← hw, if_neg hno, hrules]
  rfl

theorem run_capCreate {id len : Nat} {base c3 c4 : W64} (h : Admitted s c 0xA) (hw : w = s.fnWorld c.fn) (hbase : base = (judged s c).cmdWord c.fn 1)
    (hlen : len = opnd s c 2) (hc3 : c3 = (judged s c).cmdWord c.fn 3) (hc4 : c4 = (judged s c).cmdWord c.fn 4) (h3 : fld c3 20 44 = 0)
    (h3' : fld c3 12 4 = 0) (h4 : fld c4 32 32 = 0) (hr : capRangeOk w base len = true)
    (hover : ∀ y ∈ (s.world w).caps, ¬(y.base < base.toNat + len ∧ base.toNat < y.base + y.len)) (hmax : (s.world w).caps.length < 4096)
    (hid : id = freeCapid s.freeCtr ((s.world w).caps.map (·.id))) :
    exec (.capCreate c) s = .next (begunCmd (judged s c) c 0xA w (okWith id, { (judged s c).setWorld w { s.world w with
      caps := (s.world w).caps ++ [⟨id, base.toNat, len, fld c3 0 12, BitVec.ofNat 4 (fld c3 16 4), c4.toNat⟩] } with
      freeCtr := s.freeCtr + 1 })) := by
  have hno : ¬(decide (fld c3 20 44 ≠ 0) || decide (fld c3 12 4 ≠ 0) || decide (fld c4 32 32 ≠ 0) || !capRangeOk w base len) = true := by
    simp [h3, h3', h4, hr]
  have hfree : ¬((s.world w).caps.any fun y => decide (y.base < base.toNat + len) && decide (base.toNat < y.base + y.len)) = true := by
    simpa using hover
  change execCapCreate c s = _
  simp only [execCapCreate, event, M.bind_apply, M.get_apply]
  rw [issueCmd_effect h (by decide)]
  simp only [opnd_eq, ← hbase, ← hlen, ← hc3, ← hc4, ← hw, judged_world, if_neg hno, if_neg hfree, if_neg (Nat.not_le.2 hmax), hid]
  rfl

/-- Among more numbers than are in use there is one that is not. -/
theorem freeCapid_not_mem {m : Nat} {used : List Nat} (h : used.length < 65536) : freeCapid m used ∉ used := by
  rw [freeCapid]
  generalize hl : (List.range (used.length + 1)).map (fun i => (Config.freeCapid m + i) % 65536) = l
  have hnd : l.Nodup := by
    rw [← hl]
    refine List.Nodup.map_on (fun i hi j hj hij => ?_) List.nodup_range
    rw [List.mem_range] at hi hj
    omega
  have hlen : l.length = used.length + 1 := by rw [← hl, List.length_map, List.length_range]
  cases hf : l.find? fun x => !used.contains x with
  | some x =>
    have hx := List.find?_some hf
    simpa using hx
  | none =>
    have hsub : l ⊆ used := fun x hx => by
      have := List.find?_eq_none.1 hf x hx
      simpa using this
    have hle := (List.subperm_of_subset hnd hsub).length_le
    omega

theorem run_capDestroy {id : Nat} {x : Cap} (h : Admitted s c 0xB) (hw : w = s.fnWorld c.fn) (hid : id = opnd s c 1) (hlt : id < 2 ^ 16)
    (hx : x ∈ (s.world w).caps) (hxid : x.id = id) :
    ∃ t : State, exec (.capDestroy c) s = .next (begunCmd (judged s c) c 0xB w (okWith 0, t)) ∧
      (t.world w).caps = (s.world w).caps.filter (fun y => decide (y.id ≠ id)) ∧ (∀ k, (s.core k).world = w → id ∉ (t.core k).capCache) ∧
      t.mem = s.mem := by
  have hno : ¬(decide (id ≥ 2 ^ 16) || !((s.world w).caps.any fun y => decide (y.id = id))) = true := by
    simpa using ⟨hlt, x, hx, hxid⟩
  refine ⟨{ (judged s c).setWorld w { s.world w with caps := (s.world w).caps.filter fun y => decide (y.id ≠ id) } with
    cores := s.cores.map fun e => (e.1, if e.2.world = w then { e.2 with capCache := e.2.capCache.filter (· ≠ id) } else e.2) }, ?_, ?_, fun k hk =>
      ?_, rfl⟩
  · change execCapDestroy c s = _
    simp only [execCapDestroy, event, M.bind_apply, M.get_apply]
    rw [issueCmd_effect h (by decide)]
    simp only [opnd_eq, ← hid, ← hw, judged_world, if_neg hno]
    rfl
  · exact congrArg World.caps (State.setWorld_world ..)
  · rw [State.core]
    rcases get_mapValues_cases (d := Core.init) (fun y => if y.world = w then { y with capCache := y.capCache.filter (· ≠ id) } else y) s.cores k
      with hc | ⟨-, hc⟩
    · rw [hc, ← State.core, if_pos hk]
      simp
    · rw [hc]
      exact List.not_mem_nil

theorem commandsOfAuthority : Claims.CommandsOfAuthority :=
  ⟨fun _ _ _ _ _ _ => run_principalAdd, fun _ _ _ _ => run_principalAdd_waits, fun _ _ _ _ => run_principalRevoke,
    fun _ _ _ _ _ _ _ => run_ruleSet, fun _ _ _ _ _ _ _ _ => run_capCreate, fun _ _ => freeCapid_not_mem, fun _ _ _ _ _ => run_capDestroy⟩

end

end Sys2Proof.Machine
end

section
/-! Worlds come and go (R32, R56, R293, R325): what zeroing and the discarding of a world's work keep, and the commands that create, assign
and destroy worlds. -/

-- One declaration after another: checked side by side, these take more threads than the memory of the check holds.
set_option Elab.async false

namespace Sys2Proof.Machine

open Sys2Proof.Claims

section
variable {s t u : State} {c : Cmd} {w : Nat}

/-- What each step of a fold keeps, the fold keeps. -/
theorem foldl_keeps {α β : Type} {f : State → α → State} (g : State → β) (h : ∀ s a, g (f s a) = g s) (l : List α) (s : State) :
    g (l.foldl f s) = g s := by
  induction l generalizing s with
  | nil => rfl
  | cons a l ih => exact (ih _).trans (h s a)

/-! ## Zeroing (R56) -/

theorem zeroRange_byte (s : State) (lo n l : Nat) : (s.zeroRange lo n).byte l = if inRange lo n l then 0 else s.byte l := by
  have h := Sparse.get_filter (0 : Byte) (fun i => !inRange lo n i) s.mem l
  refine Eq.trans h ?_
  cases inRange lo n l <;> rfl

/-- A byte that is 0 stays so. -/
theorem zeroRange_byte_zero {l : Nat} (h : s.byte l = 0) (lo n : Nat) : (s.zeroRange lo n).byte l = 0 := by
  rw [zeroRange_byte, h]
  split <;> rfl

theorem zeroCore_byte_zero {l : Nat} (h : s.byte l = 0) (k : Nat) : (State.zeroCore w s k).byte l = 0 :=
  zeroRange_byte_zero (zeroRange_byte_zero (zeroRange_byte_zero h _ _) _ _) _ _

theorem zeroCore_spad (s : State) (w k : Nat) {off : Nat} (h : off < 2 ^ 18) : (State.zeroCore w s k).byte (spadLoc k off) = 0 := by
  have h0 : (s.zeroRange (spadLoc k 0) (2 ^ 18)).byte (spadLoc k off) = 0 := by
    rw [zeroRange_byte, if_pos]
    have hoff : spadLoc k off = spadLoc k 0 + off := by simp [spadLoc]
    rw [hoff]
    simpa [inRange] using h
  exact zeroRange_byte_zero (zeroRange_byte_zero h0 _ _) _ _

theorem zeroCore_world (s : State) (w k v : Nat) : (State.zeroCore w s k).world v = s.world v := rfl

/-- A core that has been handed over to a world and waits for its zeroing. -/
def Core.HandedTo (k : Core) (w : Nat) : Prop := k.world = w ∧ k.zeroing = true ∧ k.slots = []

theorem zeroCore_core (s : State) (w k : Nat) : ((State.zeroCore w s k).core k).HandedTo w := by
  have h : (State.zeroCore w s k).core k = _ := Sparse.get_put_self ..
  rw [h]
  exact ⟨rfl, rfl, rfl⟩

theorem zeroCore_core_of_ne (s : State) (w : Nat) {k j : Nat} (h : k ≠ j) : (State.zeroCore w s k).core j = s.core j := Sparse.get_put_of_ne _ _ _ h

theorem zeroCores_core_of_not_mem {cs : List Nat} {j : Nat} (h : j ∉ cs) (s : State) : (cs.foldl (State.zeroCore w) s).core j = s.core j := by
  induction cs generalizing s with
  | nil => rfl
  | cons k cs ih =>
    obtain ⟨hne, hcs⟩ := not_or.1 (mt List.mem_cons.2 h)
    rw [List.foldl_cons, ih hcs, zeroCore_core_of_ne s w (Ne.symm hne)]

theorem zeroCores_core {cs : List Nat} {j : Nat} (h : j ∈ cs) (s : State) : ((cs.foldl (State.zeroCore w) s).core j).HandedTo w := by
  induction cs generalizing s with
  | nil => exact absurd h List.not_mem_nil
  | cons k cs ih =>
    rw [List.foldl_cons]
    by_cases hcs : j ∈ cs
    · exact ih hcs _
    · rw [zeroCores_core_of_not_mem hcs, (List.mem_cons.1 h).resolve_right hcs]
      exact zeroCore_core ..

theorem zeroCores_byte_zero {l : Nat} (cs : List Nat) (h : s.byte l = 0) : (cs.foldl (State.zeroCore w) s).byte l = 0 := by
  induction cs generalizing s with
  | nil => exact h
  | cons k cs ih => exact ih (zeroCore_byte_zero h k)

theorem zeroCores_spad {cs : List Nat} {k off : Nat} (hk : k ∈ cs) (h : off < 2 ^ 18) (s : State) :
    (cs.foldl (State.zeroCore w) s).byte (spadLoc k off) = 0 := by
  induction cs generalizing s with
  | nil => exact absurd hk List.not_mem_nil
  | cons j cs ih =>
    rw [List.foldl_cons]
    rcases List.mem_cons.1 hk with rfl | hk
    · exact zeroCores_byte_zero cs (zeroCore_spad s w k h)
    · exact ih hk _

theorem zeroCores_world (cs : List Nat) (s : State) (v : Nat) : (cs.foldl (State.zeroCore w) s).world v = s.world v :=
  foldl_keeps (fun t => t.world v) (fun t k => zeroCore_world t w k v) cs s

theorem zeroChip_cores (s : State) (l : List Extent) : (s.zeroChip l).cores = s.cores :=
    foldl_keeps (f := fun t (e : Extent) => t.zeroRange (chipLoc e.dpa) e.len) State.cores (fun _ _ => rfl) _ s

theorem zeroChip_core (s : State) (l : List Extent) (k : Nat) : (s.zeroChip l).core k = s.core k := by
  rw [State.core, zeroChip_cores, State.core]

theorem zeroChip_world (s : State) (l : List Extent) (v : Nat) : (s.zeroChip l).world v = s.world v :=
  foldl_keeps (f := fun t (e : Extent) => t.zeroRange (chipLoc e.dpa) e.len) (fun t => t.world v) (fun _ _ => rfl) _ s

theorem zeroChip_byte_zero {b : Nat} (l : List Extent) (h : s.byte b = 0) : (s.zeroChip l).byte b = 0 := by
  rw [State.zeroChip]
  generalize l.filter _ = es
  induction es generalizing s with
  | nil => exact h
  | cons e es ih => exact ih (zeroRange_byte_zero h _ _)

theorem refreshBindings_core (s : State) (k : Nat) : s.refreshBindings.core k = s.core k := rfl
theorem refreshBindings_byte (s : State) (l : Nat) : s.refreshBindings.byte l = s.byte l := rfl

/-! ## WORLD_CREATE -/

/-- The state that WORLD_CREATE leaves. -/
def State.created (s : State) (w : Nat) (l : List Extent) (weight ring : Nat) (debug : Bool) (cs : List Nat) : State :=
  ((cs.foldl (State.zeroCore w) ((s.newWorld w l weight ring debug).openWays w)).zeroChip l).refreshBindings

section
variable {l : List Extent} {weight ring : Nat} {debug : Bool} {cs : List Nat}

theorem newWorld_world (h : w ≠ 1) : (s.newWorld w l weight ring debug).world w =
    { World.init with
      live := true, debugOk := debug, extents := l, weight := weight, ring := ring, memKey := s.keySerial, memExpiry := s.meridian + leaseUs
      ctxKey := s.keySerial + 1, ctxExpiry := s.meridian + leaseUs } := by
  rw [State.newWorld, if_neg h]
  exact State.setWorld_world ..

theorem newWorld_cores : (s.newWorld w l weight ring debug).cores = s.cores := by
  unfold State.newWorld
  split <;> rfl

theorem created_world (h : w ≠ 1) : (s.created w l weight ring debug cs).world w =
    { World.init with
      live := true, debugOk := debug, extents := l, weight := weight, ring := ring, memKey := s.keySerial, memExpiry := s.meridian + leaseUs
      ctxKey := s.keySerial + 1, ctxExpiry := s.meridian + leaseUs } := by
  rw [State.created, State.refreshBindings_world, zeroChip_world, zeroCores_world]
  exact newWorld_world h

theorem created_core {k : Nat} (h : k ∈ cs) : ((s.created w l weight ring debug cs).core k).HandedTo w := by
  rw [State.created, refreshBindings_core, zeroChip_core]
  exact zeroCores_core h _

theorem created_core_of_not_mem {k : Nat} (h : k ∉ cs) : (s.created w l weight ring debug cs).core k = s.core k := by
  rw [State.created, refreshBindings_core, zeroChip_core, zeroCores_core_of_not_mem h]
  exact congrArg (Sparse.get Core.init · k) newWorld_cores

theorem created_spad {k off : Nat} (hk : k ∈ cs) (h : off < 2 ^ 18) : (s.created w l weight ring debug cs).byte (spadLoc k off) = 0 := by
  rw [State.created, refreshBindings_byte]
  exact zeroChip_byte_zero l (zeroCores_spad hk h _)

theorem worldCreate_effect {n : Nat} (hw : w = opnd s c 1) (hn : n = opnd s c 4) (h2 : 2 ≤ w) (h15 : w ≤ 15)
    (hl : (s.world w).live = false) (hn0 : n ≠ 0) (hn64 : n ≤ 64) (hwt0 : opnd s c 5 ≠ 0) (hwt : opnd s c 5 ≤ 255) (hdbg : opnd s c 6 % 65536 ≤ 1)
    (he : c.hostErr = none) (hrm : hostRange (opnd s c 2) 64 = true) (hre : hostRange (opnd s c 3) (32 * n) = true)
    (hcs : cs = maskCores ((judged s c).hostRead (opnd s c 2) 64)) (hex : extentsOf ((judged s c).hostRead (opnd s c 3) (32 * n)) n = some l)
    (hok : (judged s c).extentsOk w l = true) (hring : ringOk l (opnd s c 6 / 65536 * 65536) = true) (hfree : ∀ k ∈ cs, (s.core k).world = 0) :
    worldCreate c (judged s c) = (if cs = [] then okWith 0 else .zeroing cs,
      (judged s c).created w l (opnd s c 5) (opnd s c 6 / 65536 * 65536) (decide (opnd s c 6 % 2 = 1)) cs) := by
  have hrange : ¬(decide (w = 0) || decide (w > 15)) = true := by
    simp only [Bool.or_eq_true, decide_eq_true_eq]
    omega
  have hnew : ¬((decide (w = 1) && !(((judged s c).world w).extents.isEmpty && ((judged s c).coresOf 1).isEmpty)) ||
      (decide (w ≠ 1) && ((judged s c).world w).live)) = true := by
    rw [judged_world, hl, decide_eq_false (by omega : ¬w = 1)]
    simp
  have hfields : ¬(decide (n = 0) || decide (n > 64) || decide (opnd s c 5 = 0) || decide (opnd s c 5 > 255) || decide (opnd s c 6 % 65536 > 1) ||
      (!hostRange (opnd s c 2) 64 || !hostRange (opnd s c 3) (32 * n) || false)) = true := by
    rw [hrm, hre]
    simp only [Bool.or_eq_true, decide_eq_true_eq]
    simp
    omega
  have hgood : ¬(!(judged s c).extentsOk w l || !ringOk l (opnd s c 6 / 65536 * 65536) ||
      cs.any fun k => decide (((judged s c).core k).world ≠ 0)) = true := by
    rw [hok, hring]
    have hfree' : ∀ k ∈ cs, ((judged s c).core k).world = 0 := hfree
    simpa using hfree'
  have hend : zeroingEnd cs = if cs = [] then okWith 0 else .zeroing cs := by
    cases cs <;> rfl
  simp only [worldCreate, opnd_eq, ← hw, ← hn, he, if_neg hrange, if_neg hnew, hex, ← hcs, if_neg hgood, hend]
  exact if_neg hfields

end

/-! ## WORLD_ASSIGN -/

theorem Sparse.mem_put {α : Type} {m : Sparse α} {k : Nat} {v : α} {e : Nat × α} (h : e ∈ Sparse.put m k v) : e = (k, v) ∨ e ∈ m := by
  induction m with
  | nil => exact .inl (List.mem_singleton.1 h)
  | cons x m ih =>
    obtain ⟨j, y⟩ := x
    rw [Sparse.put] at h
    split at h
    · exact List.mem_cons.1 h
    · split at h
      · exact (List.mem_cons.1 h).imp_right (List.mem_cons_of_mem _)
      · rcases List.mem_cons.1 h with rfl | h
        · exact .inr List.mem_cons_self
        · exact (ih h).imp_right (List.mem_cons_of_mem _)

theorem Sparse.mem_put_self {α : Type} (m : Sparse α) (k : Nat) (v : α) : (k, v) ∈ Sparse.put m k v := by
  induction m with
  | nil => exact List.mem_singleton_self _
  | cons x m ih =>
    obtain ⟨j, y⟩ := x
    rw [Sparse.put]
    split
    · exact List.mem_cons_self
    · split
      · exact List.mem_cons_self
      · exact List.mem_cons_of_mem _ ih

/-- An entry stays where another is put, unless it is the one that was read there. -/
theorem Sparse.mem_put_of_mem {α : Type} (d : α) {m : Sparse α} {v : α} (k : Nat) {e : Nat × α} (h : e ∈ m) :
    e ∈ Sparse.put m k v ∨ e = (k, Sparse.get d m k) := by
  induction m with
  | nil => exact absurd h List.not_mem_nil
  | cons x m ih =>
    obtain ⟨j, y⟩ := x
    rw [Sparse.put, Sparse.get_cons]
    rcases List.mem_cons.1 h with rfl | h
    · split
      · exact .inl (List.mem_cons_of_mem _ List.mem_cons_self)
      · split
        · next hk => exact .inr (by rw [if_pos hk.symm, hk])
        · exact .inl List.mem_cons_self
    · split
      · exact .inl (List.mem_cons_of_mem _ (List.mem_cons_of_mem _ h))
      · split
        · exact .inl (List.mem_cons_of_mem _ h)
        · next hk =>
          rw [if_neg (Ne.symm hk)]
          exact (ih h).imp_left (List.mem_cons_of_mem _)

theorem dying_modFn {f : Nat} {g : Func → Func} (hg : (g (s.fn f)).pending = none) (h : s.dying w = false) : (s.modFn f g).dying w = false := by
  rw [State.dying, List.any_eq_false] at h ⊢
  intro e he
  rcases Sparse.mem_put he with rfl | he
  · simp [hg]
  · exact h e he

/-- A world bound to a function. -/
def State.assigned (s : State) (w f : Nat) : State :=
  ((s.modWorld w fun x => { x with tdi := f }).modFn f fun x => { x with world := w }).refreshBindings

theorem assigned_world (s : State) (w f : Nat) : (s.assigned w f).world w = { s.world w with tdi := f } := State.setWorld_world ..
theorem assigned_fn (s : State) (w f : Nat) : (s.assigned w f).fn f = { s.fn f with world := w } := State.setFn_fn ..

theorem assigned_mem (s : State) (w f : Nat) : (s.assigned w f).mem = s.mem := rfl
theorem assigned_cores (s : State) (w f : Nat) : (s.assigned w f).cores = s.cores := rfl

theorem run_worldAssign {f : Nat} (h : Admitted s c 3) (hw : w = opnd s c 1) (hf : f = opnd s c 2) (h2 : 2 ≤ w) (h15 : w ≤ 15) (h0 : f ≠ 0)
    (h14 : f ≤ 14)
    (hne : f ≠ c.fn) (hl : (s.world w).live = true) (ht : (s.world w).tdi = 0) (hd : s.dying w = false) (hst : (s.fn f).tdisp = .unlocked)
    (hfw : (s.fn f).world = 0) :
    ∃ t : State, exec (.worldAssign c) s = .next (begunCmd (judged s c) c 3 0 (okWith 0, t)) ∧ (t.world w).tdi = f ∧ (t.fn f).world = w ∧
      t.mem = s.mem ∧ t.cores = s.cores := by
  have hfields : ¬(decide (w < 2) || decide (w > 15) || decide (f = 0) || decide (f > 14)) = true := by
    simp only [Bool.or_eq_true, decide_eq_true_eq]
    omega
  have hdy : (judged s c).dying w = false := dying_modFn h.1.2.2.1 hd
  have hfn : (judged s c).fn f = s.fn f := State.modFn_fn_of_ne s _ (Ne.symm hne)
  have hstate : ¬(!((judged s c).world w).live || decide (((judged s c).world w).tdi ≠ 0) || (judged s c).dying w ||
      decide (((judged s c).fn f).tdisp ≠ .unlocked) || decide (((judged s c).fn f).world ≠ 0)) = true := by
    rw [judged_world, hl, ht, hdy, hfn, hst, hfw]
    decide
  refine ⟨(judged s c).assigned w f, ?_, ?_, ?_, assigned_mem (judged s c) w f, assigned_cores (judged s c) w f⟩
  · change execWorldAssign c s = _
    simp only [execWorldAssign, event]
    rw [issueCmd_effect h (by decide)]
    rw [opnd_eq, opnd_eq, ← hw, ← hf, if_neg hfields, if_neg hstate, State.succeeds, ← State.assigned]
    rfl
  · exact congrArg World.tdi (assigned_world ..)
  · exact congrArg Func.world (assigned_fn ..)

/-! ## The work of a world discarded (R67, R293) -/

/-- Every core of a world is one of it still. -/
structure CoresStay (s t : State) : Prop where
  kept : ∀ k w, k ∈ s.coresOf w → k ∈ t.coresOf w

theorem mem_coresOf {k : Nat} : k ∈ s.coresOf w ↔ ∃ e ∈ s.cores, e.2.world = w ∧ e.1 = k := by
  simp [State.coresOf, and_assoc]

namespace CoresStay

theorem refl (s : State) : CoresStay s s := ⟨fun _ _ => id⟩
theorem trans (h : CoresStay s t) (k : CoresStay t u) : CoresStay s u := ⟨fun i w hi => k.kept i w (h.kept i w hi)⟩
theorem after (k : CoresStay t u) (h : CoresStay s t) : CoresStay s u := h.trans k
theorem of_cores (h : t.cores = s.cores) : CoresStay s t := ⟨fun i w hi => by rwa [State.coresOf, h]⟩

theorem mapCores {g : Nat × Core → Nat × Core} (ht : t.cores = s.cores.map g) (hfst : ∀ e, (g e).1 = e.1) (hw : ∀ e, (g e).2.world = e.2.world) :
    CoresStay s t := by
  refine ⟨fun i w hi => ?_⟩
  obtain ⟨e, he, hwe, rfl⟩ := mem_coresOf.1 hi
  exact mem_coresOf.2 ⟨g e, by rw [ht]; exact List.mem_map_of_mem he, (hw e).trans hwe, hfst e⟩

theorem modCore {f : Core → Core} {c : Nat} (hf : ∀ k, (f k).world = k.world) : CoresStay s (s.modCore c f) := by
  refine ⟨fun i w hi => ?_⟩
  obtain ⟨e, he, hwe, rfl⟩ := mem_coresOf.1 hi
  rcases Sparse.mem_put_of_mem Core.init (v := f (s.core c)) c he with hput | rfl
  · exact mem_coresOf.2 ⟨e, hput, hwe, rfl⟩
  · exact mem_coresOf.2 ⟨(c, f (s.core c)), Sparse.mem_put_self .., (hf _).trans hwe, rfl⟩

theorem modSlot (s : State) (c n : Nat) (f : Slot → Slot) : CoresStay s (s.modSlot c n f) := modCore (f := (·.modSlot n f)) fun _ => rfl

theorem foldl {α : Type} {f : State → α → State} (h : ∀ s a, CoresStay s (f s a)) (xs : List α) (s : State) : CoresStay s (xs.foldl f s) := by
  induction xs generalizing s with
  | nil => exact refl s
  | cons x xs ih => exact (h s x).trans (ih _)

section
variable (s : State)

theorem performWrite (core uid world : Nat) (pin : Nat → Option Nat) (cells : List Host.Cell) : CoresStay s
    (s.performWrite core uid world pin cells) := by
  unfold State.performWrite
  split
  · exact refl s
  · refine after (mapCores rfl (fun _ => rfl) fun _ => rfl) (after (modCore fun k => ?_) (after (of_cores (State.setCells_cores ..)) ?_))
    · rfl
    · refine foldl (fun t line => after (of_cores rfl) ?_) _ s
      unfold State.l2Own
      dsimp only
      split
      · exact of_cores rfl
      · rw [State.l2Fill_caches]
        exact of_cores rfl

theorem performDeferred (loc : Nat) (d : Deferred) : CoresStay s (State.performDeferred loc s d) := by
  unfold State.performDeferred
  split
  · exact of_cores rfl
  · exact after (performWrite ..) (modCore fun _ => rfl)

theorem releaseWord (loc : Nat) : CoresStay s (s.releaseWord loc) := by
  unfold State.releaseWord
  refine after (foldl (fun t d => performDeferred t loc d) _ _) ?_
  split
  · exact after (modSlot ..) (of_cores rfl)
  · exact of_cores rfl

theorem revokeWord (loc : Nat) : CoresStay s (s.revokeWord loc) := by
  unfold State.revokeWord
  split
  · exact after (modCore fun _ => rfl) (releaseWord ..)
  · exact refl s

theorem revokeAll (uid : Nat) : CoresStay s (s.revokeAll uid) := foldl revokeWord _ s

end

end CoresStay

/-- A chain freed, and those that it alone held. -/
theorem freeChain_frame (fuel cix : Nat) (s : State) : ∃ ch, s.freeChain fuel cix = { s with chains := ch } := by
  induction fuel generalizing cix s with
  | zero => exact ⟨s.chains, rfl⟩
  | succ fuel ih =>
    unfold State.freeChain
    dsimp only
    split
    · split
      · exact ⟨_, rfl⟩
      · split
        · exact ⟨_, rfl⟩
        · obtain ⟨ch, hch⟩ := ih (s.chain cix).parent (((s.setChain cix { s.chain cix with valid := false }).setChain (s.chain cix).parent
            { (s.setChain cix { s.chain cix with valid := false }).chain (s.chain cix).parent with
              refs := ((s.setChain cix { s.chain cix with valid := false }).chain (s.chain cix).parent).refs - 1 }))
          exact ⟨ch, hch⟩
    · exact ⟨s.chains, rfl⟩

theorem dropRef_frame (s : State) (cix : Nat) : ∃ ch, s.dropRef cix = { s with chains := ch } := by
  unfold State.dropRef
  dsimp only
  split
  · exact ⟨s.chains, rfl⟩
  · obtain ⟨ch, hch⟩ := freeChain_frame 8 cix (s.setChain cix { s.chain cix with refs := (s.chain cix).refs - 1 })
    exact ⟨ch, hch⟩

theorem dropRefs_frame (l : List Nat) (s : State) : ∃ ch, l.foldl State.dropRef s = { s with chains := ch } := by
  induction l generalizing s with
  | nil => exact ⟨s.chains, rfl⟩
  | cons a l ih =>
    obtain ⟨ch, hch⟩ := dropRef_frame s a
    obtain ⟨ch', hch'⟩ := ih (s.dropRef a)
    exact ⟨ch', by rw [List.foldl_cons, hch', hch]⟩

theorem dropLaunched_frame (s : State) (w : Nat) : ∃ ch, s.dropLaunched w =
    { s.modWorld w fun x => { x with launch := [], ringHead := 0, ringLen := 0 } with chains := ch } := by
  obtain ⟨ch, hch⟩ := dropRefs_frame ((s.launched w).map fun p => fld p[1] 0 16)
    (s.modWorld w fun x => { x with launch := [], ringHead := 0, ringLen := 0 })
  rw [List.foldl_map] at hch
  exact ⟨ch, hch⟩

theorem dropLaunched_cores (s : State) (w : Nat) : (s.dropLaunched w).cores = s.cores := by
  obtain ⟨ch, hch⟩ := dropLaunched_frame s w
  rw [hch]
  rfl

theorem dropLaunched_fns (s : State) (w : Nat) : (s.dropLaunched w).fns = s.fns := by
  obtain ⟨ch, hch⟩ := dropLaunched_frame s w
  rw [hch]
  rfl

theorem dropLaunched_waitTable (s : State) (w : Nat) : (s.dropLaunched w).waitTable = s.waitTable := by
  obtain ⟨ch, hch⟩ := dropLaunched_frame s w
  rw [hch]
  rfl

theorem dropLaunched_engCmds (s : State) (w : Nat) : (s.dropLaunched w).engCmds = s.engCmds := by
  obtain ⟨ch, hch⟩ := dropLaunched_frame s w
  rw [hch]
  rfl

theorem CoresStay.discardWork (s : State) (w : Nat) : CoresStay s (s.discardWork w) := by
  unfold State.discardWork
  dsimp only
  have hrev : CoresStay s _ := .foldl CoresStay.revokeAll ((s.contextsOf w).map (·.uid) ++ (s.world w).saved.map Prod.snd) s
  obtain ⟨ch, hch⟩ := dropRefs_frame ((s.contextsOf w).map (fun q => fld q.chain 0 16) ++ (s.dequed w).map Packet.cix)
    (((s.contextsOf w).map (·.uid) ++ (s.world w).saved.map Prod.snd).foldl State.revokeAll s)
  exact hrev.trans (.of_cores ((dropLaunched_cores ..).trans (by rw [hch])))

theorem discardWork_waitTable (s : State) (w : Nat) : ∀ x ∈ (s.discardWork w).waitTable, x.world ≠ w := by
  intro x hx
  simpa using (List.mem_filter.1 hx).2

theorem discardWork_engCmds (s : State) (w : Nat) : ∀ x ∈ (s.discardWork w).engCmds, x.world ≠ w := by
  intro x hx
  simpa using (List.mem_filter.1 hx).2

theorem zeroWorld_waitTable (s : State) (w : Nat) : (s.zeroWorld w).waitTable = s.waitTable := by
  have h1 := foldl_keeps (f := fun t (e : Extent) => t.zeroRange (chipLoc e.dpa) e.len) State.waitTable (fun _ _ => rfl)
    ((s.world w).extents.filter fun e => decide (e.kind = 2)) ((s.coresOf w).foldl (State.zeroCore w) s)
  exact h1.trans (foldl_keeps (f := State.zeroCore w) State.waitTable (fun _ _ => rfl) _ s)

theorem zeroWorld_engCmds (s : State) (w : Nat) : (s.zeroWorld w).engCmds = s.engCmds := by
  have h1 := foldl_keeps (f := fun t (e : Extent) => t.zeroRange (chipLoc e.dpa) e.len) State.engCmds (fun _ _ => rfl)
    ((s.world w).extents.filter fun e => decide (e.kind = 2)) ((s.coresOf w).foldl (State.zeroCore w) s)
  exact h1.trans (foldl_keeps (f := State.zeroCore w) State.engCmds (fun _ _ => rfl) _ s)

theorem zeroWorld_core {k : Nat} (h : k ∈ s.coresOf w) : ((s.zeroWorld w).core k).HandedTo w := by
  have hk : (s.zeroWorld w).core k = (((s.coresOf w).foldl (State.zeroCore w) s).zeroChip (s.world w).extents).core k := rfl
  rw [hk, zeroChip_core]
  exact zeroCores_core h s

theorem tearDown_waitTable (s : State) (w : Nat) : (s.tearDown w).waitTable = s.waitTable := by
  rw [← dropLaunched_waitTable s w]
  unfold State.tearDown
  generalize s.dropLaunched w = t
  dsimp only
  repeat' split
  all_goals rfl

theorem tearDown_engCmds (s : State) (w : Nat) : (s.tearDown w).engCmds = s.engCmds := by
  rw [← dropLaunched_engCmds s w]
  unfold State.tearDown
  generalize s.dropLaunched w = t
  dsimp only
  repeat' split
  all_goals rfl

/-- What is torn down no longer exists. -/
theorem tearDown_live (s : State) (h : w ≠ 1) : ((s.tearDown w).world w).live = false := by
  have hdrop (t : State) : ({ t with worlds := Sparse.drop t.worlds w } : State).world w = World.init := by
    rw [State.world, Sparse.get_drop, if_pos rfl]
  unfold State.tearDown
  generalize s.dropLaunched w = t
  dsimp only
  rw [if_neg h, if_neg h, State.refreshBindings_world]
  split
  · exact congrArg World.live (hdrop _)
  · rw [State.modFn_world]
    exact congrArg World.live (hdrop _)

end

end Sys2Proof.Machine
end

section
/-! WORLD_DESTROY and ZEROING_COMPLETE, the renewal of leases and the checkpoint of the HBM (R39, R42, R43, R56, R293, R295). -/

-- One declaration after another: checked side by side, these take more threads than the memory of the check holds.
set_option Elab.async false

namespace Sys2Proof.Machine

open Sys2Proof.Claims

section
variable {s t u : State} {c : Cmd} {w : Nat}

/-! ## WORLD_DESTROY -/

/-- The cores of a world are its cores still when it has stopped. -/
theorem stopWorld_coresOf (s : State) (w : Nat) (cause : Byte) (keep : Option (Nat × Nat)) (v : Nat) : (s.stopWorld w cause keep).coresOf v =
    s.coresOf v := by
  have hworld (e : Nat × Core) : (e.2.stopped w cause keep e.1).world = e.2.world := by
    rw [Core.stopped]
    split <;> rfl
  rw [State.coresOf, State.stopWorld_cores, List.filter_map, List.map_map, State.coresOf]
  simp only [Function.comp_def, hworld]

/-- The world stopped, if it has not been. -/
def State.ended (s : State) (w : Nat) : State :=
  if (s.world w).stopped then s else (s.stopWorld w Cause.tdiStop none).tdiFails (s.world w).tdi

theorem ended_coresOf (s : State) (w : Nat) : (s.ended w).coresOf w = s.coresOf w := by
  rw [State.ended]
  split
  · rfl
  · rw [State.coresOf, tdiFails_cores]
    exact stopWorld_coresOf ..

/-- The state that WORLD_DESTROY leaves: with no core to zero the world is torn down at once. -/
def State.destroyed (s : State) (w : Nat) : State :=
  if s.coresOf w = [] then (((s.ended w).discardWork w).zeroWorld w).tearDown w else ((s.ended w).discardWork w).zeroWorld w

theorem destroyed_waitTable (s : State) (w : Nat) : ∀ x ∈ (s.destroyed w).waitTable, x.world ≠ w := by
  rw [State.destroyed]
  split
  · rw [tearDown_waitTable, zeroWorld_waitTable]
    exact discardWork_waitTable (s.ended w) w
  · rw [zeroWorld_waitTable]
    exact discardWork_waitTable (s.ended w) w

theorem destroyed_engCmds (s : State) (w : Nat) : ∀ x ∈ (s.destroyed w).engCmds, x.world ≠ w := by
  rw [State.destroyed]
  split
  · rw [tearDown_engCmds, zeroWorld_engCmds]
    exact discardWork_engCmds (s.ended w) w
  · rw [zeroWorld_engCmds]
    exact discardWork_engCmds (s.ended w) w

theorem destroyed_core {k : Nat} (h : k ∈ s.coresOf w) : ((s.destroyed w).core k).HandedTo w := by
  rw [State.destroyed, if_neg (List.ne_nil_of_mem h)]
  rw [← ended_coresOf] at h
  exact zeroWorld_core ((CoresStay.discardWork (s.ended w) w).kept k w h)

theorem destroyed_live (hc : s.coresOf w = []) (h1 : w ≠ 1) : ((s.destroyed w).world w).live = false := by
  rw [State.destroyed, if_pos hc]
  exact tearDown_live _ h1

theorem worldDestroy_effect (hw : w = opnd s c 1) (h2 : 2 ≤ w) (h15 : w ≤ 15) (hf : c.fn = 0 ∨ (s.fn c.fn).world = w) (hl : (s.world w).live = true)
    (hd : (judged s c).dying w = false) : worldDestroy c (judged s c) =
      (if s.coresOf w = [] then .done 0x02 0 else .zeroing (s.coresOf w), (judged s c).destroyed w) := by
  have hrange : ¬(decide (w = 0) || decide (w > 15)) = true := by
    simp only [Bool.or_eq_true, decide_eq_true_eq]
    omega
  have hmine : ¬(decide (c.fn ≠ 0) && decide (((judged s c).fn c.fn).world ≠ w)) = true := by
    rw [judged_fn]
    rcases hf with hf | hf <;> simp [hf]
  have hstate : ¬(!((judged s c).world w).live || (judged s c).dying w) = true := by
    rw [judged_world, hl, hd]
    decide
  have hcores : ((judged s c).ended w).coresOf w = s.coresOf w := ended_coresOf ..
  rw [worldDestroy]
  dsimp only
  rw [opnd_eq, ← hw, if_neg hrange, if_neg hmine, if_neg hstate, ← State.ended, hcores, State.destroyed, show (judged s c).coresOf w =
    s.coresOf w from rfl]
  by_cases hnil : s.coresOf w = []
  · rw [if_pos hnil, if_pos hnil, if_pos (List.isEmpty_iff.2 hnil)]
    rfl
  · rw [if_neg hnil, if_neg hnil, if_neg (mt List.isEmpty_iff.1 hnil)]

theorem run_worldDestroy (h : Admitted s c 4) (hw : w = opnd s c 1) (hw' : w = (s.cmdWord c.fn 1).toNat) (h2 : 2 ≤ w) (h15 : w ≤ 15)
    (hf : c.fn = 0 ∨ (s.fn c.fn).world = w) (hl : (s.world w).live = true) (hd : (judged s c).dying w = false) :
    exec (.worldDestroy c) s = .next (begunCmd (judged s c) c 4 w
      (if s.coresOf w = [] then .done 0x02 0 else .zeroing (s.coresOf w), (judged s c).destroyed w)) := by
  have hown : (judged s c).foreignDestroy 4 c.fn = false := by
    by_cases h0 : c.fn = 0
    · simp [State.foreignDestroy, h0]
    · have hfw := hf.resolve_left h0
      have hfld : fld (s.cmdWord c.fn 1) 0 4 = w := by
        rw [fld, ← hw']
        simp
        omega
      rw [← Bool.not_eq_true, foreignDestroy_iff h0, hfw, hfld]
      omega
  change execWorldDestroy c s = _
  simp only [execWorldDestroy, event, M.bind_apply, M.get_apply]
  rw [issueCmd_admitted h (by decide) hown, worldDestroy_effect hw h2 h15 hf hl hd, ← hw']

/-! ## ZEROING_COMPLETE -/

theorem tearDown_zeroing {k : Nat} (h : (s.core k).zeroing = false) (w : Nat) : ((s.tearDown w).core k).zeroing = false := by
  have hcores : (s.tearDown w).cores = s.cores.map fun e => (e.1, if e.2.world = w then { e.2 with world := 0, zeroing := false } else e.2) := by
    have he (e : Nat × Core) : (if e.2.world = w then (e.1, { e.2 with world := 0, zeroing := false }) else e) =
        (e.1, if e.2.world = w then { e.2 with world := 0, zeroing := false } else e.2) := by
      split <;> rfl
    rw [← funext he, ← dropLaunched_cores s w]
    unfold State.tearDown
    generalize s.dropLaunched w = t
    dsimp only
    repeat' split
    all_goals rfl
  rw [State.core, hcores]
  rcases get_mapValues_cases (d := Core.init) (fun x => if x.world = w then { x with world := 0, zeroing := false } else x) s.cores k with hc | ⟨-, hc⟩
  · rw [hc]
    split
    · rfl
    · exact h
  · rw [hc]
    rfl

theorem zeroed_zeroing {k j f : Nat} (h : (s.core k).zeroing = false) : ((zeroed j s f).core k).zeroing = false := by
  unfold zeroed
  dsimp only
  split
  · split
    · split
      · exact h
      · split
        · split
          · exact tearDown_zeroing h _
          · exact h
        · exact h
    · exact h
  · exact h

theorem run_zeroingComplete {k : Nat} (h : (s.core k).zeroing = true) : ∃ t, exec (.zeroingComplete k) s = .next t ∧ (t.core k).zeroing = false := by
  refine ⟨(s.fns.map Prod.fst).foldl (zeroed k) (s.modCore k fun x => { x with zeroing := false }),
    event_of_ok (Reaches.bind (M.get_apply _) (.bind (require_apply h s) (M.set_apply ..))), ?_⟩
  generalize s.fns.map Prod.fst = fs
  have h0 : ((s.modCore k fun x => { x with zeroing := false }).core k).zeroing = false := by rw [State.modCore_core]
  generalize s.modCore k (fun x => { x with zeroing := false }) = t at h0
  induction fs generalizing t with
  | nil => exact h0
  | cons f fs ih => exact ih _ (zeroed_zeroing h0)

/-! ## LEASE_RENEW (R42, R43) -/

/-- A renewal that R43 allows takes the new expiry, and its nonce is consumed. -/
theorem renew_apply {r : Report} {k e : Nat} {alive : State → Bool} {go : State → Nat × State} (h : RenewOk s c r k) (hk : k ≤ 2)
    (ha : alive (judged s c) = true) (hgo : go ((judged s c).modFn c.fn (·.consume r.nonce)) = (e, t)) :
    renew c r k alive go s = .ok () (begunCmd (judged s c) c 0xC (s.fnWorld c.fn) (okWith (e / 1024 % 2 ^ 32), t)) := by
  obtain ⟨hadm, hc3, hr, hrep⟩ := h
  have hread : ¬(decide (k > 2) || cmdReadFails c (opnd s c 1) (opnd s c 2)) = true := by
    rw [decide_eq_false (Nat.not_lt.2 hk), hr]
    decide
  simp only [renew, M.bind_apply, M.get_apply, hc3, require, decide_true, Bool.true_or, if_true, M.pure_apply]
  rw [issueCmd_effect hadm (by decide), opnd_eq, opnd_eq, if_neg hread, if_neg (by rw [ha]; decide), if_neg (by rw [hrep]; decide), hgo]
  rfl

/-- What a consumed nonce leaves of a function. -/
theorem consumed_fn (s : State) (c : Cmd) (v : Nat) : ((judged s c).modFn c.fn (·.consume v)).fn c.fn = ((judged s c).fn c.fn).consume v :=
    State.modFn_fn ..

theorem judged_fn_world (s : State) (c : Cmd) : ((judged s c).fn c.fn).world = (s.fn c.fn).world := by rw [judged_fn]

theorem run_renewMemory {r : Report} (hw : w = (s.fn c.fn).world) (h : RenewOk s c r 0) (hk : (judged s c).keyDead w = false) :
    exec (.leaseRenewWorldMemory c r) s = .next (begunCmd (judged s c) c 0xC (s.fnWorld c.fn)
      (okWith (max (s.world w).memExpiry (s.meridian + 900000000) / 1024 % 2 ^ 32), ((judged s c).modFn c.fn (·.consume r.nonce)).modWorld w fun x =>
        { x with memExpiry := max (s.world w).memExpiry (s.meridian + 900000000) })) := by
  refine event_of_ok (renew_apply h (by decide) ?_ ?_)
  · rw [judged_fn_world, ← hw, hk]
    rfl
  · rw [consumed_fn]
    have hworld : (((judged s c).fn c.fn).consume r.nonce).world = w := (judged_fn_world s c).trans hw.symm
    rw [hworld]
    rfl

theorem run_renewContext {r : Report} (hw : w = (s.fn c.fn).world) (h : RenewOk s c r 2) :
    exec (.leaseRenewContextSave c r) s = .next (begunCmd (judged s c) c 0xC (s.fnWorld c.fn)
      (okWith (max (s.world w).ctxExpiry (s.meridian + 900000000) / 1024 % 2 ^ 32), ((judged s c).modFn c.fn (·.consume r.nonce)).modWorld w fun x =>
        { x with ctxExpiry := max (s.world w).ctxExpiry (s.meridian + 900000000) })) := by
  refine event_of_ok (renew_apply h (by decide) rfl ?_)
  rw [consumed_fn]
  have hworld : (((judged s c).fn c.fn).consume r.nonce).world = w := (judged_fn_world s c).trans hw.symm
  rw [hworld]
  rfl

/-- The key sets of a function renewed. -/
def Func.renewKeys (f : Func) (s : State) : Func :=
  { f with set0 := f.set0.renew s, set1 := f.set1.renew s, out0 := f.out0.renew s, out1 := f.out1.renew s }

/-- The latest of some expiries. -/
def latest (l : List Nat) : Nat := l.foldl max 0

theorem foldl_max_spec (l : List Nat) (a : Nat) : a ≤ l.foldl max a ∧ (∀ x ∈ l, x ≤ l.foldl max a) ∧ (l.foldl max a = a ∨ l.foldl max a ∈ l) := by
  induction l generalizing a with
  | nil => exact ⟨le_rfl, fun _ h => absurd h List.not_mem_nil, .inl rfl⟩
  | cons x l ih =>
    obtain ⟨hle, hall, hmem⟩ := ih (max a x)
    rw [List.foldl_cons]
    refine ⟨(le_max_left ..).trans hle, fun y hy => ?_, ?_⟩
    · rcases List.mem_cons.1 hy with rfl | hy
      · exact (le_max_right ..).trans hle
      · exact hall y hy
    · rcases hmem with hmem | hmem
      · rw [hmem]
        rcases max_choice a x with hm | hm
        · exact .inl hm
        · exact .inr (List.mem_cons.2 (.inl hm))
      · exact .inr (List.mem_cons_of_mem _ hmem)

theorem KeySet.renew_eq (k : KeySet) (s : State) :
    k.renew s = if k.alive s.meridian then { k with expiry := max k.expiry (s.meridian + 900000000) } else k := rfl

/-- A key set is alive after its renewal exactly where it was before. -/
theorem KeySet.renew_alive (k : KeySet) (s : State) : (k.renew s).alive s.meridian = k.alive s.meridian := by
  rw [KeySet.renew_eq]
  split
  · next h =>
    rw [h]
    simp only [KeySet.alive, Bool.and_eq_true, decide_eq_true_eq] at h ⊢
    exact ⟨h.1, h.2.trans_le (le_max_left ..)⟩
  · rfl

theorem renewKeys_keySet (f : Func) (s : State) (i : Nat) (out : Bool) : (f.renewKeys s).keySet i out = (f.keySet i out).renew s := by
  cases out <;> by_cases hi : i = 0 <;> simp [Func.keySet, Func.renewKeys, hi]

theorem renewKeys_keySets (f : Func) (s : State) : (f.renewKeys s).keySets = f.keySets.map (·.renew s) := rfl

theorem run_renewStream {r : Report} (h : RenewOk s c r 1) (hk : ∃ k ∈ (s.fn c.fn).keySets, k.alive s.meridian = true) :
    ∃ (e : Nat) (t : State), exec (.leaseRenewIdeStream c r) s = .next (begunCmd (judged s c) c 0xC (s.fnWorld c.fn) (okWith (e / 1024 % 2 ^ 32), t)) ∧
      (∀ i out, i ≤ 1 → (t.fn c.fn).keySet i out = if ((s.fn c.fn).keySet i out).alive s.meridian
        then { (s.fn c.fn).keySet i out with expiry := max ((s.fn c.fn).keySet i out).expiry (s.meridian + 900000000) }
        else (s.fn c.fn).keySet i out) ∧
      (∃ k ∈ (t.fn c.fn).keySets, k.alive s.meridian = true ∧ k.expiry = e) ∧
      ∀ k ∈ (t.fn c.fn).keySets, k.alive s.meridian = true → k.expiry ≤ e := by
  generalize hf : ((judged s c).fn c.fn).consume r.nonce = f
  have hsets (i : Nat) (out : Bool) : f.keySet i out = (s.fn c.fn).keySet i out := by rw [← hf, judged_fn]; rfl
  have hall : f.keySets = (s.fn c.fn).keySets := by rw [← hf, judged_fn]; rfl
  generalize hl : (((f.renewKeys s).keySets.filter (·.alive s.meridian)).map (·.expiry)) = l
  have ht : (((judged s c).modFn c.fn (·.consume r.nonce)).setFn c.fn (f.renewKeys s)).fn c.fn = f.renewKeys s := State.setFn_fn ..
  have hmem (x : Nat) : x ∈ l ↔ ∃ k ∈ (f.renewKeys s).keySets, k.alive s.meridian = true ∧ k.expiry = x := by
    rw [← hl]
    simp [and_assoc]
  obtain ⟨-, hmax, hin⟩ := foldl_max_spec l 0
  refine ⟨latest l, ((judged s c).modFn c.fn (·.consume r.nonce)).setFn c.fn (f.renewKeys s), ?_, fun i out _ => ?_, ?_, fun k hks ha => ?_⟩
  · refine event_of_ok (renew_apply h (by decide) ?_ ?_)
    · have hset : ((judged s c).fn c.fn).keySets = (s.fn c.fn).keySets := by rw [judged_fn]; rfl
      rw [hset]
      exact List.any_eq_true.2 hk
    · rw [consumed_fn, hf, ← hl]
      rfl
  · rw [ht, renewKeys_keySet, KeySet.renew_eq, hsets]
  · rw [ht, ← hmem]
    obtain ⟨k, hk, ha⟩ := hk
    have hkl : (k.renew s).expiry ∈ l := (hmem _).2 ⟨k.renew s, by
      rw [renewKeys_keySets, hall]
      exact List.mem_map_of_mem hk, by rwa [KeySet.renew_alive], rfl⟩
    refine hin.resolve_left fun h0 => ?_
    have hle := hmax _ hkl
    rw [h0, KeySet.renew_eq, if_pos ha] at hle
    have : s.meridian + 900000000 ≤ max k.expiry (s.meridian + 900000000) := le_max_right ..
    exact absurd (this.trans hle) (by omega)
  · rw [ht] at hks
    exact hmax _ ((hmem _).2 ⟨k, hks, ha, rfl⟩)

/-! ## CHECKPOINT (R39) -/

theorem checkpoint_apply {dir : W64} {effect : State → Effect} (h : Admitted s c 0xE) (hd : s.cmdWord c.fn 3 &&& 1 = dir) :
    checkpoint c dir effect s = .ok () (begunCmd (judged s c) c 0xE 0 (effect (judged s c))) := by
  simp only [checkpoint, M.bind_apply, M.get_apply, hd, require, decide_true, if_true, M.pure_apply]
  exact issueCmd_effect h (by decide)

theorem run_checkpointSave (h : Admitted s c 0xE) (hd : s.cmdWord c.fn 3 = 0) (hok : ckptOperandsOk (judged s c) c.fn = true)
    (hidle : s.tenantsIdle = true)
    (hroom : ckptLen (extentBytes s.hbmExtents) ≤ opnd s c 2) :
    ∃ t u : State, t = (judged s c).withCkptKey ∧ u = { t with ckptSerial := t.ckptSerial + 1 } ∧
      exec (.checkpointSave c) s = .next (begunCmd (judged s c) c 0xE 0 (okWith (extentBytes s.hbmExtents / 2 ^ 20),
        u.hostWrite (opnd s c 1) (u.ckptImage u.ckptKey u.ckptSerial))) := by
  refine ⟨_, _, rfl, rfl, ?_⟩
  have hidle' : (judged s c).tenantsIdle = true := hidle
  have hext : (judged s c).hbmExtents = s.hbmExtents := rfl
  change event (checkpoint c 0 (checkpointSave c)) s = _
  rw [event_of_ok (checkpoint_apply h (by rw [hd]; rfl)), checkpointSave]
  dsimp only
  rw [hext, opnd_eq, opnd_eq, if_neg (by rw [hok]; decide), if_neg (by rw [hidle']; decide), if_neg (Nat.not_lt.2 hroom)]
  rfl

theorem run_checkpointRestore {serial : Nat} {h image : List Byte} {recs : List (List Byte)} (ha : Admitted s c 0xE) (hd : s.cmdWord c.fn 3 = 1)
    (hok : ckptOperandsOk (judged s c) c.fn = true) (hidle : s.tenantsIdle = true) (he : c.hostErr = none) (hkey : (judged s c).ckptAlive = true)
    (himg : image = (judged s c).hostRead (opnd s c 1) (opnd s c 2)) (hhead : (judged s c).ckptHead (image.take 12304) = some (serial, h))
    (hlen : opnd s c 2 = ckptLen (extentBytes (ckptEntries h)))
    (hrecs : ((List.range (ckptBlocks (ckptEntries h)).length).mapM fun i =>
      ckptOpen s.ckptKey serial i ((image.drop (12304 + 4624 * i)).take 4624)) = some recs) :
    exec (.checkpointRestore c) s = .next (begunCmd (judged s c) c 0xE 0 (okWith (extentBytes (ckptEntries h) / 2 ^ 20),
      ((ckptBlocks (ckptEntries h)).zip recs).foldl (fun t x => t.restoreRecord x.1.1 x.1.2 x.2) (judged s c))) := by
  have hidle' : (judged s c).tenantsIdle = true := hidle
  have hk : (judged s c).ckptKey = s.ckptKey := rfl
  change event (checkpoint c 1 (checkpointRestore c)) s = _
  rw [event_of_ok (checkpoint_apply ha (by rw [hd]; rfl)), checkpointRestore]
  dsimp only
  rw [opnd_eq, opnd_eq, if_neg (by rw [hok]; decide), if_neg (by rw [hidle']; decide), if_neg (by rw [he]; decide), if_neg (by rw [hkey]; decide),
    ← himg, hhead]
  dsimp only
  rw [if_neg (not_not_intro hlen), hk, hrecs]
  rfl

theorem commandsOfWorlds : Claims.CommandsOfWorlds := by
  refine ⟨fun s c w n cs l h hw hn h2 h15 hl hn0 hn64 hwt0 hwt hdbg he hrm hre hcs hex hok hring hfree _ => ?_, fun _ _ => run_zeroingComplete,
    fun _ _ _ _ => run_worldAssign, fun s c w h hw hw' h2 h15 hf hl hd => ?_, fun s c r w hw =>
      ⟨run_renewMemory hw, run_renewContext hw, run_renewStream⟩,
    fun _ _ => run_checkpointSave, fun _ _ _ _ _ _ => run_checkpointRestore⟩
  · have h1 : w ≠ 1 := by omega
    have hworld := created_world (s := judged s c) (l := l) (weight := opnd s c 5) (ring := opnd s c 6 / 65536 * 65536)
      (debug := decide (opnd s c 6 % 2 = 1))
      (cs := cs) h1
    refine ⟨(judged s c).created w l (opnd s c 5) (opnd s c 6 / 65536 * 65536) (decide (opnd s c 6 % 2 = 1)) cs,
      (event_of_ok (issueCmd_effect h (by decide))).trans
      (by rw [worldCreate_effect hw hn h2 h15 hl hn0 hn64 hwt0 hwt hdbg he hrm hre hcs hex hok hring hfree]), ?_, ?_, ?_, ?_, ?_, fun k hk => ?_,
      fun k hk => created_core_of_not_mem (s := judged s c) hk, fun k hk off hoff => created_spad hk hoff⟩
    · rw [hworld]
    · rw [hworld]
    · rw [hworld]
    · rw [hworld]
    · rw [hworld]
      rfl
    · exact ⟨(created_core hk).1, (created_core hk).2.1⟩
  · refine ⟨_, run_worldDestroy h hw hw' h2 h15 hf hl hd, fun hc => destroyed_live hc (by omega), destroyed_waitTable _ w, destroyed_engCmds _ w,
      fun k hk n => ?_⟩
    obtain ⟨-, hz, hs⟩ := destroyed_core (s := judged s c) hk
    exact ⟨hz, by rw [State.slot, Core.slot, hs]; rfl⟩

end

/-- Settles O48: the commands of a world, of its authority and of the worlds' coming and going. -/
theorem commands : Obligations.Commands := ⟨commandsOfAWorld, commandsOfAuthority, commandsOfWorlds⟩

end Sys2Proof.Machine
end

section
/-! Append logs and their merges (R238, R239). -/

-- One declaration after another: checked side by side, these take more threads than the memory of the check holds.
set_option Elab.async false

namespace Sys2Proof.Machine

open Sys2Proof.Claims

section
variable {s t u v : State} {d a : Reg}

/-! ## APPEND -/

theorem exec_append (d a : Reg) (op : BitVec 4) (s : State) : exec (.append d a op) s = run (append d a op) s := rfl

theorem logRoom_ok {w : Who} {ea : W64} (h : ∀ pl u, locate w ea .write s = .ok pl u → (s.growLog w.world (domainOfLoc pl.loc)).isSome = true) :
    logRoom w ea s = .ok () s := by
  rw [logRoom]
  split
  · next pl u hl => rw [if_pos (h pl u hl)]
  · rfl

theorem logRoom_waits {w : Who} {ea : W64} {pl : Place} (h : locate w ea .write s = .ok pl u) (hg : s.growLog w.world (domainOfLoc pl.loc) = none) :
    logRoom w ea s = .error (.wait (.blocked false)) s := by
  rw [logRoom, h]
  simp [hg]

/-- The state that a record placed leaves: it stands last in its log, under the next sequence number of its slot. -/
def State.recordPlaced (s : State) (w : Who) (pl : Place) (v : W64) (op : Nat) : State :=
  (s.modWorld w.world fun x => x.setLog (domainOfLoc pl.loc) { x.log (domainOfLoc pl.loc) with
    recs := (x.log (domainOfLoc pl.loc)).recs ++ [⟨pl.loc, pl.pin, v, op, w.core, w.slot, Sparse.get 0 (s.core w.core).appends w.slot⟩] }).modCore
      w.core
      fun c => { c with appends := Sparse.put c.appends w.slot (Sparse.get 0 (s.core w.core).appends w.slot + 1) }

theorem placeRecord_apply {w : Who} {pl : Place} {x : W64} {op : Nat} (h : s.growLog w.world (domainOfLoc pl.loc) = some t) :
    placeRecord w pl x op none s = .ok () (t.recordPlaced w pl x op) := by
  simp only [placeRecord, M.bind_apply, M.get_apply, landOn, M.pure_apply, h, M.set_apply]
  rfl

theorem run_append {op : BitVec 4} {pl : Place} {cap : Cap} (hp : NoPort s [d, a] none) (hroom : RoomInLog s (s.src d))
    (ht : logTarget s.who (s.src d) s.issue = .ok (pl, cap) u) (hg : u.growLog s.myWorld (domainOfLoc pl.loc) = some v) :
    exec (.append d a op) s = .next ((v.recordPlaced s.who pl (s.src a) op.toNat).chargeOnce cap).finish := by
  have hr : logRoom s.who (s.src d) s.issue = .ok () s.issue := logRoom_ok hroom
  rw [exec_append]
  refine run_waiting hp ?_
  simp only [M.bind_apply, rd_apply, whoMe_apply, State.issue_src, State.issue_who, hr, ht, placeRecord_apply (w := s.who) hg, chargeCap_apply]

theorem run_append_full {op : BitVec 4} {pl : Place} (hp : NoPort s [d, a] none) (hl : locate s.who (s.src d) .write s.issue = .ok pl u)
    (hg : s.issue.growLog s.myWorld (domainOfLoc pl.loc) = none) : exec (.append d a op) s = .next (again s s.issue (.blocked false)) := by
  rw [exec_append]
  refine run_waiting_again hp ?_
  simp only [M.bind_apply, rd_apply, whoMe_apply, State.issue_src, State.issue_who, logRoom_waits (w := s.who) hl hg]

/-! ## APPENDF -/

/-- Rows made one after another, each under the guard that a trap leaves k.restart at it. -/
theorem forM_of_rowsRun {f : Nat → M Unit} {key : Nat} {rows : List Nat} (h : RowsRun (fun i => do f i; return none) rows s t) :
    rows.forM (fun i => guardRow key i (f i)) s = .ok () t := by
  induction h with
  | nil s => rfl
  | @cons r rows s u t hr _ ih =>
    have hf : f r s = .ok () u := by
      cases hf : f r s with
      | ok x v =>
        simp only [M.bind_apply, hf, M.pure_apply, EStateM.Result.ok.injEq, true_and] at hr
        rw [hr]
      | error e v => simp [hf] at hr
    have hg : guardRow key r (f r) s = .ok () u := by rw [guardRow, hf]
    change (guardRow key r (f r) >>= fun _ => rows.forM fun i => guardRow key i (f i)) s = _
    rw [M.bind_apply, hg]
    exact ih

theorem run_appendf {op : BitVec 4} (hp : NoPort s [d, a] none) (h0 : s.src d ≠ 0) (hmax : (s.src d).toNat ≤ 64) (hal : (s.src a).toNat % 32 = 0)
    (hreg : fld (s.src a) 61 3 = 6) (htgt : fld (s.src a) 58 3 < 3)
    (hrows : RowsRun (fun i => do
        atRow tfmtNone i (appendOne s.who (s.src a + w64 (32 * i)))
        return none) (rowsFrom (resumesAt s (restartKey 4 5 1)) (s.src d).toNat) (cleared s.issue) t) :
    exec (.appendf d a op) s = .next t.finish := by
  change run (appendf d a) s = _
  refine run_waiting hp ?_
  have hcount : ¬(decide (s.src d = 0) || decide ((s.src d).toNat > 64)) = true := by simpa using ⟨h0, hmax⟩
  have hspace : ¬(decide (fld (s.src a) 61 3 ≠ 6) || decide (fld (s.src a) 58 3 ≥ 3)) = true := by simpa using ⟨hreg, htgt⟩
  simp only [M.bind_apply, rd_apply, whoMe_apply, State.issue_src, State.issue_who, if_neg hcount, if_neg (not_not_intro hal), if_neg hspace,
    resumeRow_apply, resumesAt_issue, clearPend_apply]
  exact forM_of_rowsRun hrows

/-! ## MERGE and MERGEW -/

theorem World.log_setLog (w : World) (n : Nat) (l : AppendLog) : (w.setLog n l).log n = l := Sparse.get_set_self ..

theorem modWorld_world (s : State) (w : Nat) (f : World → World) : (s.modWorld w f).world w = f (s.world w) := State.setWorld_world ..

theorem chargeSlot_myWorld (s : State) (n p : Nat) : (s.chargeSlot s.cur.core n p).myWorld = s.myWorld := by
  change (s.modMyCore fun k => (k.modSlot n fun sl => { sl with meter := satAdd64 sl.meter p }).tally 0x32 n p).myCore.world = s.myCore.world
  rw [State.modMyCore_myCore]
  rfl

theorem charged_myWorld (s : State) (w : Nat) (f : World → World) (n p : Nat) :
    ((s.issue.modWorld w f).chargeSlot s.cur.core n p).myWorld = s.myWorld := by
  have hcur : (s.issue.modWorld w f).cur = s.cur := s.issue_cur
  have hmine := chargeSlot_myWorld (s.issue.modWorld w f) n p
  rw [hcur] at hmine
  exact hmine.trans s.issue_myWorld

theorem run_merge {n : Nat} {l : AppendLog} (hp : NoPort s [a] (some d)) (h0 : fld (s.src a) 3 61 = 0) (hn : n = fld (s.src a) 0 3)
    (hl : l = (s.issue.world s.myWorld).log n) (ht : t = (s.issue.modWorld s.myWorld fun x => x.setLog n { l with
      recs := [], accepted := l.accepted + 1
      runs := l.runs ++ [⟨l.accepted + 1, l.recs.length, sortRecs l.recs⟩] }).chargeSlot s.cur.core s.cur.slot (l.recs.length / 4)) :
    exec (.merge d a) s = .next ((t.writeMine d (w64 (n * 2 ^ 56 + (l.accepted + 1) % 2 ^ 56))).finish) := by
  have hstart : s.issue.startMerge s.myWorld n s.cur.core s.cur.slot = t := by
    have hw : (s.issue.modWorld s.myWorld fun x => x.setLog n (x.log n).accept) =
        s.issue.modWorld s.myWorld fun x => x.setLog n { l with
          recs := [], accepted := l.accepted + 1, runs := l.runs ++ [⟨l.accepted + 1, l.recs.length, sortRecs l.recs⟩] } := by
      rw [hl]
      rfl
    rw [ht, State.startMerge, hw, ← hl]
  have hworld : t.myWorld = s.myWorld := by
    rw [ht]
    exact charged_myWorld ..
  have hacc : ((t.world s.myWorld).log n).accepted = l.accepted + 1 := by
    have hlog : t.world s.myWorld = (s.issue.modWorld s.myWorld fun x => x.setLog n { l with
        recs := [], accepted := l.accepted + 1
        runs := l.runs ++ [⟨l.accepted + 1, l.recs.length, sortRecs l.recs⟩] }).world s.myWorld := by
      rw [ht]
      rfl
    rw [hlog, modWorld_world, World.log_setLog]
  change run (merge d a) s = _
  refine run_waiting hp ?_
  simp only [M.bind_apply, rd_apply, State.issue_src, if_neg (not_not_intro h0), M.modify_apply, M.get_apply, State.issue_myWorld, State.issue_cur,
    ← hn, hstart, hworld, hacc, wr_apply]
  rfl

theorem run_mergew {l : AppendLog} (hp : NoPort s [a] (some d)) (hl : l = (s.issue.world s.myWorld).log (fld (s.src a) 56 3))
    (h5 : fld (s.src a) 59 5 = 0)
    (h0 : fld (s.src a) 0 56 ≠ 0) (hle : fld (s.src a) 0 56 ≤ l.accepted) :
    ((∃ r ∈ l.runs, r.seq = fld (s.src a) 0 56) → exec (.mergew d a) s = .next (again s s.issue (.blocked false))) ∧
    ((∀ r ∈ l.runs, r.seq ≠ fld (s.src a) 0 56) →
      (∀ f, l.finished.find? (fun f => decide (f.1 = fld (s.src a) 0 56)) = some f → exec (.mergew d a) s =
        .next (((s.issue.modMyCore (·.invalidateL1)).writeMine d (w64 f.2)).finish)) ∧
      ((∀ f ∈ l.finished, f.1 ≠ fld (s.src a) 0 56) → exec (.mergew d a) s =
        .next (((s.issue.modMyCore (·.invalidateL1)).writeMine d (BitVec.allOnes 64)).finish))) := by
  have hticket : ¬(decide (fld (s.src a) 59 5 ≠ 0) || decide (fld (s.src a) 0 56 = 0) || decide (fld (s.src a) 0 56 > l.accepted)) = true := by
    simpa using ⟨⟨h5, h0⟩, hle⟩
  have hacq (x : State) : acquireAt 4 x = .ok () (x.modMyCore (·.invalidateL1)) := rfl
  refine ⟨fun ⟨r, hr, hseq⟩ => ?_, fun hdone => ?_⟩
  · have hany : (l.runs.any fun r => decide (r.seq = fld (s.src a) 0 56)) = true := List.any_eq_true.2 ⟨r, hr, decide_eq_true hseq⟩
    change run (mergew d a) s = _
    refine run_waiting_again hp ?_
    simp only [M.bind_apply, rd_apply, State.issue_src, M.get_apply, State.issue_myWorld, ← hl, if_neg hticket, if_pos hany, block_apply]
  · have hany : ¬(l.runs.any fun r => decide (r.seq = fld (s.src a) 0 56)) = true := by simpa using hdone
    refine ⟨fun f hf => ?_, fun hf => ?_⟩
    · change run (mergew d a) s = _
      refine run_waiting hp ?_
      simp only [M.bind_apply, rd_apply, State.issue_src, M.get_apply, State.issue_myWorld, ← hl, if_neg hticket, if_neg hany, hacq, hf, wr_apply]
    · have hnone : l.finished.find? (fun f => decide (f.1 = fld (s.src a) 0 56)) = none := by simpa using hf
      change run (mergew d a) s = _
      refine run_waiting hp ?_
      simp only [M.bind_apply, rd_apply, State.issue_src, M.get_apply, State.issue_myWorld, ← hl, if_neg hticket, if_neg hany, hacq, hnone, wr_apply]

/-! ## The order of records -/

theorem before_iff (a b : LogRec) : a.before b = true ↔ a.addr < b.addr ∨ a.addr = b.addr ∧ (a.core < b.core ∨ a.core = b.core ∧
    (a.slot < b.slot ∨ a.slot = b.slot ∧ a.seq ≤ b.seq)) := by
  rw [LogRec.before]
  split
  · next h => simp [h]
  · next h =>
    split
    · next h' => simp [not_not.1 h, h']
    · next h' =>
      split
      · next h'' => simp [not_not.1 h, not_not.1 h', h'']
      · next h'' => simp [not_not.1 h, not_not.1 h', not_not.1 h'']

theorem before_total (a b : LogRec) : a.before b = true ∨ b.before a = true := by
  rw [before_iff, before_iff]
  omega

theorem before_trans {a b c : LogRec} (h : a.before b = true) (k : b.before c = true) : a.before c = true := by
  rw [before_iff] at h k ⊢
  omega

theorem insertRec_perm (r : LogRec) (l : List LogRec) : (insertRec r l).Perm (r :: l) := by
  induction l with
  | nil => exact .refl _
  | cons x l ih =>
    rw [insertRec]
    split
    · exact .refl _
    · exact (ih.cons x).trans (.swap r x l)

theorem insertRec_pairwise {r : LogRec} {l : List LogRec} (h : l.Pairwise fun a b => a.before b = true) :
    (insertRec r l).Pairwise fun a b => a.before b = true := by
  induction l with
  | nil => exact List.pairwise_singleton _ _
  | cons x l ih =>
    obtain ⟨hx, hl⟩ := List.pairwise_cons.1 h
    rw [insertRec]
    split
    · next hr =>
      refine List.pairwise_cons.2 ⟨fun y hy => ?_, h⟩
      rcases List.mem_cons.1 hy with rfl | hy
      · exact hr
      · exact before_trans hr (hx y hy)
    · next hr =>
      refine List.pairwise_cons.2 ⟨fun y hy => ?_, ih hl⟩
      rcases List.mem_cons.1 ((insertRec_perm r l).mem_iff.1 hy) with rfl | hy
      · exact (before_total y x).resolve_left hr
      · exact hx y hy

theorem sortRecs_spec (l : List LogRec) : (sortRecs l).Perm l ∧ (sortRecs l).Pairwise fun a b => a.before b = true := by
  induction l with
  | nil => exact ⟨.refl _, .nil⟩
  | cons r l ih => exact ⟨(insertRec_perm r _).trans (ih.1.cons r), insertRec_pairwise ih.2⟩

/-! ## LOG_MERGE_RUN -/

/-- A line written at its home: no L2 keeps a copy, the world's key seals it, and the memory-side cache takes it. -/
def homeLine (w : Nat) (t : State) (line : Nat) : State :=
  let t1 : State := { t with l2 := t.l2.map fun e => (e.1, e.2.filter (·.line ≠ line)) }
  (t1.sealLine line (t1.world w).memKey).mscTouch line

/-- A write at a location's home: what its bytes become, with the lines that it touches. -/
theorem homeWrite_cases (s : State) (w loc : Nat) (bs : List Byte) :
    ((s.keyDead w && (cellsAt loc bs).any fun x => isHbm x.1) = true ∧ s.homeWrite w (cellsAt loc bs) = s) ∨
    ((s.keyDead w && (cellsAt loc bs).any fun x => isHbm x.1) = false ∧
      ∃ u : State, u.mem = s.mem ∧ u.banks = s.banks ∧ (s.homeWrite w (cellsAt loc bs)).mem = (u.setBytes loc bs).mem ∧
        (s.homeWrite w (cellsAt loc bs)).banks = s.banks) := by
  rw [State.homeWrite]
  split
  · next h => exact .inl ⟨h, rfl⟩
  · next h =>
    have hmem := foldl_keeps (f := homeLine w) State.mem (fun _ _ => rfl) (hbmLines (cellsAt loc bs)) s
    have hbanks := foldl_keeps (f := homeLine w) State.banks (fun _ _ => rfl) (hbmLines (cellsAt loc bs)) s
    refine .inr ⟨Bool.not_eq_true _ ▸ h, (hbmLines (cellsAt loc bs)).foldl (homeLine w) s, hmem, hbanks, ?_, ?_⟩
    · rw [← State.setCells_cellsAt]
      rfl
    · exact (State.setCells_banks ..).trans hbanks

theorem homeWrite_banks (s : State) (w loc : Nat) (bs : List Byte) : (s.homeWrite w (cellsAt loc bs)).banks = s.banks := by
  rcases homeWrite_cases s w loc bs with ⟨-, h⟩ | ⟨-, u, -, -, -, h⟩
  · rw [h]
  · exact h

theorem homeWrite_byte_of_not {w loc l : Nat} {bs : List Byte} (h : l < loc ∨ loc + bs.length ≤ l) :
    (s.homeWrite w (cellsAt loc bs)).byte l = s.byte l := by
  rcases homeWrite_cases s w loc bs with ⟨-, hw⟩ | ⟨-, u, hu, -, hw, -⟩
  · rw [hw]
  · rw [State.byte_of_mem hw, State.byte_setBytes_of_not h, State.byte_of_mem hu]

theorem homeWrite_word64 {w loc : Nat} (hk : s.keyDead w = false) (x : W64) : (s.homeWrite w (cellsAt loc (natToLe 8 x.toNat))).word64 loc = x := by
  rcases homeWrite_cases s w loc (natToLe 8 x.toNat) with ⟨hd, -⟩ | ⟨-, u, -, -, hw, -⟩
  · rw [hk] at hd
    exact absurd hd (by simp)
  · rw [State.word64_of_mem hw, State.word64_setBytes]

/-- Records whose words are free are all applied, and change those words alone. -/
theorem applyRecs_free {w : Nat} {l : List LogRec} (h : ∀ x ∈ l, s.wordFree x.addr = true) : ∃ t, applyRecs w l s = ([], t) ∧
    ∀ loc, (∀ x ∈ l, loc < x.addr ∨ x.addr + 8 ≤ loc) → t.byte loc = s.byte loc := by
  induction l generalizing s with
  | nil => exact ⟨s, rfl, fun _ _ => rfl⟩
  | cons r l ih =>
    generalize hx : recordValue r.op (s.word64 r.addr) r.value = x
    have hfree : ∀ y ∈ l, (s.homeWrite w (cellsAt r.addr (natToLe 8 x.toNat))).wordFree y.addr = true := fun y hy => by
      rw [State.wordFree, State.bank, homeWrite_banks]
      exact h y (List.mem_cons_of_mem _ hy)
    obtain ⟨t, ht, hb⟩ := ih hfree
    refine ⟨t, by rw [applyRecs, if_pos (h r List.mem_cons_self), hx, ht], fun loc hloc => ?_⟩
    rw [hb loc fun y hy => hloc y (List.mem_cons_of_mem _ hy)]
    refine homeWrite_byte_of_not ?_
    rw [natToLe_length]
    exact hloc r List.mem_cons_self

theorem applyRecs_one {w : Nat} {x : LogRec} (h : s.wordFree x.addr = true) :
    applyRecs w [x] s = ([], s.homeWrite w (cellsAt x.addr (natToLe 8 (recordValue x.op (s.word64 x.addr) x.value).toNat))) := by
  rw [applyRecs, if_pos h, applyRecs]

theorem trimLog_log (s : State) (w n : Nat) : ∃ segs, ((s.trimLog w n).world w).log n = { (s.world w).log n with segs := segs } := by
  rw [State.trimLog]
  dsimp only
  rw [modWorld_world, World.log_setLog]
  exact ⟨_, rfl⟩

theorem trimLog_mem (s : State) (w n : Nat) : (s.trimLog w n).mem = s.mem := rfl

theorem run_logMergeRun {w n : Nat} {r : MergeRun} {rest : List MergeRun} {l : AppendLog} (hl : l = (s.world w).log n) (hr : l.runs = r :: rest)
    (hs : (s.world w).stopped = false) (hfree : ∀ x ∈ r.recs, s.wordFree x.addr = true) :
    ∃ t, exec (.logMergeRun w n) s = .next t ∧ ((t.world w).log n).runs = rest ∧
      ((t.world w).log n).finished = ((r.seq, r.total) :: l.finished).take 16 ∧
      (∀ loc, (∀ x ∈ r.recs, loc < x.addr ∨ x.addr + 8 ≤ loc) → t.byte loc = s.byte loc) ∧
      (∀ x, r.recs = [x] → s.keyDead w = false → t.word64 x.addr = recordValue x.op (s.word64 x.addr) x.value) := by
  obtain ⟨u, hu, hb⟩ := applyRecs_free (w := w) hfree
  obtain ⟨segs, hlog⟩ := trimLog_log
    (u.modWorld w fun x => x.setLog n { l with runs := rest, finished := ((r.seq, r.total) :: l.finished).take 16 }) w n
  rw [modWorld_world, World.log_setLog] at hlog
  refine ⟨(u.modWorld w fun x => x.setLog n { l with runs := rest, finished := ((r.seq, r.total) :: l.finished).take 16 }).trimLog w n, ?_, ?_, ?_,
    fun loc hloc => ?_, fun x hx hk => ?_⟩
  · change event (logMergeRun w n) s = _
    simp only [event, logMergeRun, M.bind_apply, M.get_apply, ← hl, hr, hs, Bool.not_false, require_true, hu, M.set_apply]
    rfl
  · rw [hlog]
  · rw [hlog]
  · exact (State.byte_of_mem (trimLog_mem ..) loc).trans (hb loc hloc)
  · rw [hx, applyRecs_one (hfree x (by rw [hx]; exact List.mem_cons_self))] at hu
    have hut : u = _ := (congrArg Prod.snd hu).symm
    refine (State.word64_of_mem (trimLog_mem ..) _).trans ?_
    have hmem : u.word64 x.addr = recordValue x.op (s.word64 x.addr) x.value := by rw [hut, homeWrite_word64 hk]
    exact hmem

end

/-- Settles O38: the records' placement, the merges' acceptance and order, and their application to free words. -/
theorem appendLogs : Obligations.AppendLogs :=
  ⟨fun _ _ _ _ _ _ _ _ => run_append, fun _ _ _ _ _ _ => run_append_full, fun _ _ _ _ _ => run_appendf, fun _ _ _ _ _ _ => run_merge, sortRecs_spec,
    fun _ _ _ _ _ _ => run_logMergeRun, fun _ _ _ _ => run_mergew⟩

end Sys2Proof.Machine
end

section
/-! The engine FIFOs, and what the engines do with their commands (R240 to R242, R265 to R268). -/

-- One declaration after another: checked side by side, these take more threads than the memory of the check holds.
set_option Elab.async false

namespace Sys2Proof.Machine

open Sys2Proof.Claims

section
variable {s t u v : State} {d a : Reg}

@[simp] theorem State.issue_engine (s : State) (n : Nat) : s.issue.me.engine n = s.me.engine n := by
  rw [(State.issue_frame s).2.2]
  rfl

/-! ## EPUSH -/

theorem handOver_e0 {words : List W64} (h : e0Ok (words.headD 0) = true) : handOver 0 words t = acceptE0 (commandOf t 0 words) (handed t 0) := by
  simp only [handOver, M.bind_apply, M.get_apply, modMe_apply, if_pos h]
  rfl

theorem handOver_e0_refused {words : List W64} (h : e0Ok (words.headD 0) = false) :
    handOver 0 words t = .ok () ((handed t 0).postResult (commandOf t 0 words) 1 0) := by
  simp only [handOver, M.bind_apply, M.get_apply, modMe_apply, if_neg (ne_true_of_eq_false h)]
  rfl

theorem handOver_e1 {words : List W64} (h : e1Ok (words.headD 0) (words[1]?.getD 0) = true) :
    handOver 1 words t = acceptE1 (commandOf t 1 words) (handed t 1) := by
  simp only [handOver, M.bind_apply, M.get_apply, modMe_apply, if_pos h]
  rfl

theorem handOver_e2 {words : List W64} (h : e2Ok words = true) : handOver 2 words t = acceptE2 (commandOf t 2 words) (handed t 2) := by
  simp only [handOver, M.bind_apply, M.get_apply, modMe_apply, if_pos h]
  rfl

theorem handOver_e3 {words : List W64} (h : e3Ok (words.headD 0) = true) : handOver 3 words t = acceptE3 (commandOf t 3 words) (handed t 3) := by
  simp only [handOver, M.bind_apply, M.get_apply, modMe_apply, if_pos h]
  rfl

/-- What EPUSH does once the thread's stores have been performed. -/
def epushRest (n : Nat) (v : W64) : M Unit := do
  engineFirewall n
  let staged := ((← getMe).engine n).staged ++ [v]
  if staged.length = min (cmdExtra (staged.headD 0)) 3 + 1 then handOver n staged
  else modMe (·.modEngine n fun p => { p with staged := staged })

theorem exec_epush (d : Reg) (e : Num2) (s : State) : exec (.epush d e) s = run (waiting [d] none do
    let v ← rd d
    if 8 ≤ ((← getMe).engine e.toNat).unfinished then block true
    releaseAll
    epushRest e.toNat v) s := rfl

theorem epush_begins {n : Nat} (hu : (s.me.engine n).unfinished < 8) (hrel : releaseAll s.issue = .ok () t) : (do
    let v ← rd d
    if 8 ≤ ((← getMe).engine n).unfinished then block true
    releaseAll
    epushRest n v) s.issue = epushRest n (s.src d) t := by
  simp only [M.bind_apply, rd_apply, State.issue_src, getMe_apply, State.issue_engine, if_neg (Nat.not_le.2 hu), hrel]

theorem released_who (hrel : releaseAll s.issue = .ok () t) : t.cur = s.cur ∧ t.myWorld = s.myWorld := by
  have h := releaseAll_kept.ok hrel
  exact ⟨h.cur_eq.trans s.issue_cur, h.myWorld_eq.trans s.issue_myWorld⟩

theorem engineFirewall_ok (hrel : releaseAll s.issue = .ok () t) (h : MayPush s t) (n : Nat) : engineFirewall n t = .ok () t := by
  obtain ⟨hcur, hw⟩ := released_who hrel
  have hok : ¬(!t.fwAllows t.myWorld (t.sramOwner t.cur.core) .write) = true := by
    rw [hcur, hw, h]
    decide
  simp only [engineFirewall, M.bind_apply, M.get_apply, if_neg hok, M.pure_apply]

theorem engineFirewall_traps (hrel : releaseAll s.issue = .ok () t) (h : ¬MayPush s t) (n : Nat) :
    engineFirewall n t = .error (.trap ⟨Cause.firewall, w64 n, 0, 0xFFFF⟩) t := by
  obtain ⟨hcur, hw⟩ := released_who hrel
  have hno : (!t.fwAllows t.myWorld (t.sramOwner t.cur.core) .write) = true := by
    rw [hcur, hw, Bool.not_eq_true']
    exact Bool.eq_false_iff.2 h
  simp only [engineFirewall, M.bind_apply, M.get_apply, if_pos hno, trapAt_apply]
  rfl

theorem epushRest_stages {n : Nat} {x : W64} {staged : List W64} (hf : engineFirewall n t = .ok () t) (hs : staged = (t.me.engine n).staged ++ [x])
    (hl : ¬lastWord staged) : epushRest n x t = .ok () (t.modMe (·.modEngine n fun p => { p with staged := staged })) := by
  subst hs
  simp only [epushRest, M.bind_apply, hf, getMe_apply]
  exact congrFun (if_neg hl) t

theorem epushRest_hands {n : Nat} {x : W64} {staged : List W64} (hf : engineFirewall n t = .ok () t) (hs : staged = (t.me.engine n).staged ++ [x])
    (hl : lastWord staged) : epushRest n x t = handOver n staged t := by
  subst hs
  simp only [epushRest, M.bind_apply, hf, getMe_apply]
  exact congrFun (if_pos hl) t

theorem acceptE0_apply (c : EngCmd) (t : State) : ∃ u, acceptE0 c t = .ok () u := ⟨_, rfl⟩

theorem run_epush {e : Num2} {staged : List W64} (hp : NoPort s [d] none) (hu : (s.me.engine e.toNat).unfinished < 8)
    (hrel : releaseAll s.issue = .ok () t) (hs : staged = (t.me.engine e.toNat).staged ++ [s.src d]) :
    (¬MayPush s t → exec (.epush d e) s = .next (takeTrap ⟨Cause.firewall, w64 e.toNat, 0, 0xFFFF⟩ t)) ∧ (MayPush s t →
    (¬lastWord staged → exec (.epush d e) s = .next ((t.modMe (·.modEngine e.toNat fun p => { p with staged := staged })).finish)) ∧
    (lastWord staged → e.toNat = 0 → e0Ok (staged.headD 0) = true → ∃ u, acceptE0 (commandOf t 0 staged) (handed t 0) = .ok () u ∧
      exec (.epush d e) s = .next u.finish) ∧
    (∀ u, lastWord staged → e.toNat = 1 → e1Ok (staged.headD 0) (staged[1]?.getD 0) = true →
      acceptE1 (commandOf t 1 staged) (handed t 1) = .ok () u → exec (.epush d e) s = .next u.finish) ∧
    (∀ u, lastWord staged → e.toNat = 2 → e2Ok staged = true → acceptE2 (commandOf t 2 staged) (handed t 2) = .ok () u →
      exec (.epush d e) s = .next u.finish) ∧
    (∀ u, lastWord staged → e.toNat = 3 → e3Ok (staged.headD 0) = true → acceptE3 (commandOf t 3 staged) (handed t 3) = .ok () u →
      exec (.epush d e) s = .next u.finish) ∧
    (lastWord staged → e.toNat = 0 → e0Ok (staged.headD 0) = false → exec (.epush d e) s =
      .next (((handed t 0).postResult (commandOf t 0 staged) 1 0).finish))) := by
  have hbegin := epush_begins (d := d) hu hrel
  refine ⟨fun hmay => ?_, fun hmay => ?_⟩
  · rw [exec_epush]
    refine run_waiting_trap hp (hbegin.trans ?_)
    simp only [epushRest, M.bind_apply, engineFirewall_traps hrel hmay]
  · have hf := engineFirewall_ok hrel hmay e.toNat
    have hdone {u : State} (hl : lastWord staged) (hu : handOver e.toNat staged t = .ok () u) : exec (.epush d e) s = .next u.finish := by
      rw [exec_epush]
      exact run_waiting hp (hbegin.trans ((epushRest_hands hf hs hl).trans hu))
    refine ⟨fun hl => ?_, fun hl he hok => ?_, fun u hl he hok hu => ?_, fun u hl he hok hu => ?_, fun u hl he hok hu => ?_, fun hl he hok => ?_⟩
    · rw [exec_epush]
      exact run_waiting hp (hbegin.trans (epushRest_stages hf hs hl))
    · obtain ⟨u, hu⟩ := acceptE0_apply (commandOf t 0 staged) (handed t 0)
      exact ⟨u, hu, hdone hl (by rw [he, handOver_e0 hok, hu])⟩
    · exact hdone hl (by rw [he, handOver_e1 hok, hu])
    · exact hdone hl (by rw [he, handOver_e2 hok, hu])
    · exact hdone hl (by rw [he, handOver_e3 hok, hu])
    · exact hdone hl (by rw [he, handOver_e0_refused hok])

theorem run_epush_full {e : Num2} (h8 : 8 ≤ (s.me.engine e.toNat).unfinished) (hp : NoPort s [d] none) :
    exec (.epush d e) s = .next (again s s.issue (.blocked true)) := by
  rw [exec_epush]
  refine run_waiting_again hp ?_
  simp only [M.bind_apply, rd_apply, getMe_apply, State.issue_engine, if_pos h8, block_apply]

/-! ## EPOP and EQRY -/

theorem engineScope_eq (e : Num2) : engineScope e.toNat = if e = 2 then 5 else if e = 3 then 2 else 4 := by
  have h2 : e.toNat = 2 ↔ e = 2 := by rw [← BitVec.toNat_inj]; rfl
  have h3 : e.toNat = 3 ↔ e = 3 := by rw [← BitVec.toNat_inj]; rfl
  simp only [engineScope, h2, h3]

theorem run_epop {e : Num2} {r : W64} {rest : List W64} (hp : NoPort s [] (some d)) (hr : (s.me.engine e.toNat).results = r :: rest)
    (ht : t = resultPopped s.issue e.toNat rest) : exec (.epop d e) s =
      .next (((t.acquired 1 (if e = 2 then 5 else if e = 3 then 2 else 4)).writeMine d r).finish) := by
  change run (epop d e) s = _
  refine run_waiting hp ?_
  have hpop : (s.issue.modMe (·.modEngine e.toNat fun q => { q with results := rest, head := (q.head + 1) % 8 })).deliverEngine
      (s.issue.modMe (·.modEngine e.toNat fun q => { q with results := rest, head := (q.head + 1) % 8 })).cur.core
      (s.issue.modMe (·.modEngine e.toNat fun q => { q with results := rest, head := (q.head + 1) % 8 })).cur.slot e.toNat = t := ht.symm
  simp only [M.bind_apply, getMe_apply, State.issue_engine, hr, modMe_apply, M.modify_apply, hpop, acquireAt_apply, engineScope_eq, wr_apply]

theorem run_epop_empty {e : Num2} (hp : NoPort s [] (some d)) (hr : (s.me.engine e.toNat).results = []) :
    exec (.epop d e) s = .next (again s s.issue (.blocked true)) := by
  change run (epop d e) s = _
  refine run_waiting_again hp ?_
  simp only [M.bind_apply, getMe_apply, State.issue_engine, hr, block_apply]

theorem run_eqry {e : Num2} (hp : NoPort s [] (some d)) : exec (.eqry d e) s = .next ((s.issue.writeMine d (w64 ((s.me.engine e.toNat).results.length +
      (s.me.engine e.toNat).staged.length * 2 ^ 8 + (s.me.engine e.toNat).unfinished * 2 ^ 16))).finish) := by
  change run (eqry d e) s = _
  refine run_waiting hp ?_
  simp only [M.bind_apply, getMe_apply, State.issue_engine, wr_apply]

/-! ## DMERGE -/

theorem dmergePop_pops {r : W64} {rest : List W64} (hr : (t.me.engine 1).results = r :: rest) (hu : u = resultPopped t 1 rest) :
    dmergePop d t = .ok () ((cleared (u.modMyCore (·.invalidateL1))).writeMine d r) := by
  have hacq (x : State) : acquireAt (engineScope 1) x = .ok () (x.modMyCore (·.invalidateL1)) := rfl
  have hpop : (t.modMe (·.modEngine 1 fun q => { q with results := rest, head := (q.head + 1) % 8 })).deliverEngine
      (t.modMe (·.modEngine 1 fun q => { q with results := rest, head := (q.head + 1) % 8 })).cur.core
      (t.modMe (·.modEngine 1 fun q => { q with results := rest, head := (q.head + 1) % 8 })).cur.slot 1 = u := hu.symm
  simp only [dmergePop, M.bind_apply, getMe_apply, hr, modMe_apply, M.modify_apply, hpop, hacq, clearPend_apply, wr_apply]

theorem dmergePop_waits (hr : (t.me.engine 1).results = []) :
    dmergePop d t = .error (.wait (.blocked true)) (t.modMe fun sl => { sl with restart := restartWord dmergeKey 1 }) := by
  simp only [dmergePop, M.bind_apply, getMe_apply, hr, setRestart, modMe_apply, block_apply]

/-- What DMERGE does first (R268). -/
def dmergePush (v ea : W64) (d : Reg) : M Unit := do
  if fld v 32 32 ≠ 0 then trapAt Cause.illegal v
  if 8 ≤ ((← getMe).engine 1).unfinished then block true
  releaseAll
  engineFirewall 1
  let staged := ((← getMe).engine 1).staged
  handOver 1 [w64 (0x0110 * 2 ^ 48 + fld v 16 16 * 2 ^ 16 + fld v 0 16), ea]
  modMe (·.modEngine 1 fun p => { p with staged := staged })
  dmergePop d

theorem exec_dmerge (d a : Reg) (s : State) : exec (.dmerge d a) s = run (waiting [d, a] (some d) do
    notCopySlot
    let v ← rd d
    let ea ← rd a
    match ← resumeRow dmergeKey with
    | some _ => dmergePop d
    | none => dmergePush v ea d) s := rfl

theorem dmergePush_apply (h32 : fld (s.src d) 32 32 = 0) (h8 : (s.me.engine 1).unfinished < 8) (hrel : releaseAll s.issue = .ok () t)
    (hmay : MayPush s t)
    (hh : handOver 1 [w64 (0x0110 * 2 ^ 48 + fld (s.src d) 16 16 * 2 ^ 16 + fld (s.src d) 0 16), s.src a] t = .ok () u)
    (hv : v = u.modMe (·.modEngine 1 fun p => { p with staged := (t.me.engine 1).staged })) :
    dmergePush (s.src d) (s.src a) d s.issue = dmergePop d v := by
  simp only [dmergePush, M.bind_apply, if_neg (not_not_intro h32), getMe_apply, State.issue_engine, if_neg (Nat.not_le.2 h8), hrel,
    engineFirewall_ok hrel hmay, hh, modMe_apply, ← hv]

theorem run_dmerge (hp : NoPort s [d, a] (some d)) (h14 : s.cur.slot ≠ 14) :
    (∀ r rest n t, resumesAt s dmergeKey = some n → (s.me.engine 1).results = r :: rest → t = resultPopped s.issue 1 rest →
      exec (.dmerge d a) s = .next (((cleared (t.modMyCore (·.invalidateL1))).writeMine d r).finish)) ∧
    ∀ t u v, resumesAt s dmergeKey = none → fld (s.src d) 32 32 = 0 → (s.me.engine 1).unfinished < 8 → releaseAll s.issue = .ok () t →
      MayPush s t →
      handOver 1 [w64 (0x0110 * 2 ^ 48 + fld (s.src d) 16 16 * 2 ^ 16 + fld (s.src d) 0 16), s.src a] t = .ok () u →
      v = u.modMe (·.modEngine 1 fun p => { p with staged := (t.me.engine 1).staged }) →
      ((v.me.engine 1).results = [] → exec (.dmerge d a) s =
        .next (again s (v.modMe fun sl => { sl with restart := restartWord dmergeKey 1 }) (.blocked true))) ∧
      ∀ r rest x, (v.me.engine 1).results = r :: rest → x = resultPopped v 1 rest →
        exec (.dmerge d a) s = .next (((cleared (x.modMyCore (·.invalidateL1))).writeMine d r).finish) := by
  have hslot : notCopySlot s.issue = .ok () s.issue := notCopySlot_ok (by rwa [State.issue_cur])
  refine ⟨fun r rest n t hres hr ht => ?_, fun t u v hres h32 h8 hrel hmay hh hv => ⟨fun hr => ?_, fun r rest x hr hx => ?_⟩⟩
  · rw [exec_dmerge]
    refine run_waiting hp ?_
    simp only [M.bind_apply, hslot, rd_apply, resumeRow_apply, resumesAt_issue, hres]
    exact dmergePop_pops (by rw [State.issue_engine, hr]) ht
  · rw [exec_dmerge]
    refine run_waiting_again hp ?_
    simp only [M.bind_apply, hslot, rd_apply, State.issue_src, resumeRow_apply, resumesAt_issue, hres, dmergePush_apply h32 h8 hrel hmay hh hv]
    exact dmergePop_waits hr
  · rw [exec_dmerge]
    refine run_waiting hp ?_
    simp only [M.bind_apply, hslot, rd_apply, State.issue_src, resumeRow_apply, resumesAt_issue, hres, dmergePush_apply h32 h8 hrel hmay hh hv]
    exact dmergePop_pops hr hx

theorem engineQueues : Claims.EngineQueues :=
  ⟨fun _ _ _ _ _ hp hu hrel hs => run_epush hp hu hrel hs, fun _ _ _ => run_epush_full, fun _ _ _ _ _ _ => run_epop,
    fun _ _ _ hp => ⟨run_epop_empty hp, run_eqry hp⟩, fun _ _ _ => run_dmerge⟩

end

/-! ## The engines' steps -/

section
variable {s t u v : State} {k : Nat} {c : EngCmd}

theorem cmdAt_ok {engine opcode : Nat} (h : CommandAt s k engine opcode c) : cmdAt k engine opcode s = .ok c s := by
  obtain ⟨hc, he, ho, hs⟩ := h
  simp only [cmdAt, M.bind_apply, M.get_apply, hc, he, ho, hs, decide_true, Bool.not_false, Bool.and_self, require_true, M.pure_apply]

theorem attempt_ok {α : Type} {m : M α} {x : α} (h : m s = .ok x t) : attempt m s = .ok (.ok x) t := by rw [attempt, h]
theorem attempt_trap {α : Type} {m : M α} {ti : TrapInfo} (h : m s = .error (.trap ti) t) : attempt m s = .ok (.error ti) t := by rw [attempt, h]

theorem firstOfEngine_ok {e : Nat} (h : EngineFirst s k e) : firstOfEngine k e s = .ok () s := by
  have hno : (!((s.engCmds.take k).any fun c => decide (c.engine = e))) = true := by simpa using h
  simp only [firstOfEngine, M.bind_apply, M.get_apply, hno, require_true]

theorem run_e0Merge (h : CommandAt s k 0 1 c) (hdone : ∀ r ∈ ((s.world c.world).log (fld c.header 0 3)).runs, r.seq ≠ c.aux) :
    exec (.e0Merge k) s = .next (s.endCmd k c 0 (min c.count (2 ^ 32 - 1))) := by
  have hno : (!(((s.world c.world).log (fld c.header 0 3)).runs.any fun r => decide (r.seq = c.aux))) = true := by simpa using hdone
  refine event_of_ok (m := e0Merge k) ?_
  simp only [e0Merge, M.bind_apply, cmdAt_ok h, M.get_apply, hno, require_true, M.set_apply]

theorem run_gather {caps : List Cap} (h : CommandAt s k 3 1 c) (hrow : gatherRow c c.done s = .ok caps t)
    (hu : u = t.chargeCmdCaps c (caps.filter fun x => !c.caps.contains x.id)) :
    exec (.gather k) s = .next (if c.done + 1 = fld c.header 0 32 then u.endCmd k c 0 (c.done + 1)
      else keptAt u k { c with done := c.done + 1, caps := (c.caps ++ caps.map (·.id)).eraseDups }) := by
  subst hu
  change event (gather k) s = _
  simp only [event, gather, M.bind_apply, cmdAt_ok h, attempt_ok hrow, M.modify_apply]
  by_cases hlast : c.done + 1 = fld c.header 0 32
  · simp only [if_pos hlast, M.modify_apply]
  · simp only [if_neg hlast, setCmd, M.modify_apply, keptAt]

theorem run_gather_trap {ti : TrapInfo} (h : CommandAt s k 3 1 c) (hrow : gatherRow c c.done s = .error (.trap ti) t) :
    exec (.gather k) s = .next (t.endCmd k c ti.cause.toNat c.done) := by
  change event (gather k) s = _
  simp only [event, gather, M.bind_apply, cmdAt_ok h, attempt_trap hrow, M.modify_apply]

theorem gatherRow_ok {ib bs : List Byte} {caps : List Cap} (hi : engineRead c.who (c.word 3 + w64 (4 * c.done)) 4 s = .ok ib u)
    (h31 : leToNat ib < 2 ^ 31) (hlt : leToNat ib < (c.word 5).toNat)
    (hr : engineSpan c.who (c.word 4 + w64 (leToNat ib * (c.word 7).toNat)) (c.word 6).toNat u = .ok (bs, caps) v)
    (hw : engineWrite c.who (c.word 2 + w64 (c.done * (c.word 6).toNat)) bs (fun s => return s) v = .ok () t) :
    gatherRow c c.done s = .ok caps t := by
  have hno : ¬(decide (leToNat ib ≥ 2 ^ 31) || decide (leToNat ib ≥ (c.word 5).toNat)) = true := by simpa using ⟨h31, hlt⟩
  simp only [gatherRow, M.bind_apply, hi, if_neg hno, M.pure_apply, hr, hw]

/-- The page of a MERGE_PAGES read, merged and written back. -/
def mergeOnePage (c : EngCmd) (ea : W64) (h : SeqHeader) (tau : Fp) : M Nat := do
  let bs ← engineRead c.who ea h.pageBytes
  let (out, n) := mergePage h.type h.width tau bs
  engineWrite c.who ea out fun s => return s
  return n

theorem mergeOnePage_ok {ea : W64} {h : SeqHeader} {tau : Fp} {bs : List Byte} {out : List Byte × Nat}
    (hr : engineRead c.who ea h.pageBytes s = .ok bs u)
    (ho : out = mergePage h.type h.width tau bs) (hw : engineWrite c.who ea out.1 (fun s => return s) u = .ok () t) :
    mergeOnePage c ea h tau s = .ok out.2 t := by
  simp only [mergeOnePage, M.bind_apply, hr, ← ho, hw, M.pure_apply]

/-- What MERGE_PAGES does with a page that has been merged. -/
def mergePagesRest (k : Nat) (c : EngCmd) (h : SeqHeader) (x : Except TrapInfo Nat) : M Unit :=
  match x with
  | .error t => modify fun s => s.endCmd k c t.cause.toNat (pagesResult c.done (c.aux / 256))
  | .ok n => do
    modify (·.chargeCmd c (2 * pipsOf h.pageBytes))
    if c.done + 1 = c.count then modify fun s => s.endCmd k c (c.aux % 256) (pagesResult (c.done + 1) (c.aux / 256 + n))
    else setCmd k { c with done := c.done + 1, aux := c.aux % 256 + 256 * (c.aux / 256 + n) }

/-- The header of the sequence whose pages a MERGE_PAGES merges. -/
def EngCmd.pages (c : EngCmd) : SeqHeader := ⟨c.word 1, 0, 0, (c.word 2).toNat, (c.word 3).toNat⟩

/-- The next page of a MERGE_PAGES merged. -/
def mergePagesNext (k : Nat) (c : EngCmd) : M Unit := do
  let tau := Fmt.fp32.decode ((← get).world c.world).tau.toNat
  mergePagesRest k c c.pages (← attempt (mergeOnePage c (c.pages.page (fld c.header 0 16 + c.done)) c.pages tau))

/-- What MERGE_PAGES does by the look-up of its sequence's header. -/
def mergePagesAt (k : Nat) (c : EngCmd) (r : EStateM.Result Stop State Place) : M Unit :=
  match r with
  | .ok pl s => do
    require !s.insidePage pl.loc (fld c.header 0 16 + c.done)
    mergePagesNext k c
  | .error _ _ => mergePagesNext k c

theorem exec_mergePages (k : Nat) (s : State) : exec (.mergePages k) s = event (do
    let c ← cmdAt k 1 1
    firstOfEngine k 1
    mergePagesAt k c (locate c.who c.pages.addr .read (← get))) s := rfl

theorem mergePagesAt_ok {r : EStateM.Result Stop State Place}
    (hin : ∀ pl v, r = .ok pl v → v.insidePage pl.loc (fld c.header 0 16 + c.done) = false) : mergePagesAt k c r s = mergePagesNext k c s := by
  cases r with
  | ok pl v => simp only [mergePagesAt, M.bind_apply, hin pl v rfl, Bool.not_false, require_true]
  | error e v => rfl

theorem run_mergePages {h : SeqHeader} {bs : List Byte} {ea : W64} {out : List Byte × Nat} (hc : CommandAt s k 1 1 c) (hfirst : EngineFirst s k 1)
    (hh : h = ⟨c.word 1, 0, 0, (c.word 2).toNat, (c.word 3).toNat⟩) (hea : ea = h.page (fld c.header 0 16 + c.done))
    (hin : ∀ pl v, locate c.who h.addr .read s = .ok pl v → v.insidePage pl.loc (fld c.header 0 16 + c.done) = false)
    (hr : engineRead c.who ea h.pageBytes s = .ok bs u)
    (ho : out = mergePage h.type h.width (Fmt.fp32.decode (s.world c.world).tau.toNat) bs)
    (hw : engineWrite c.who ea out.1 (fun s => return s) u = .ok () t) :
    exec (.mergePages k) s = .next (if c.done + 1 = c.count then
      (t.chargeCmd c (2 * pipsOf h.pageBytes)).endCmd k c (c.aux % 256)
        ((c.done + 1) * 2 ^ 16 + min (c.aux / 256 + out.2) 65535)
      else keptAt (t.chargeCmd c (2 * pipsOf h.pageBytes)) k
        { c with done := c.done + 1, aux := c.aux % 256 + 256 * (c.aux / 256 + out.2) }) := by
  change h = c.pages at hh
  subst hh hea
  rw [exec_mergePages]
  simp only [event, M.bind_apply, cmdAt_ok hc, firstOfEngine_ok hfirst, M.get_apply, mergePagesAt_ok hin, mergePagesNext,
    attempt_ok (mergeOnePage_ok hr ho hw),
    mergePagesRest, M.modify_apply]
  by_cases hlast : c.done + 1 = c.count
  · simp only [if_pos hlast, M.modify_apply, pagesResult]
  · simp only [if_neg hlast, setCmd, M.modify_apply, keptAt]

theorem run_setTau (hc : CommandAt s k 1 2 c) (hfirst : EngineFirst s k 1) :
    exec (.setTau k) s = .next ((s.modWorld c.world fun w => { w with tau := (c.word 1).setWidth 32 }).endCmd k c 0 0) := by
  refine event_of_ok (m := setTau k) ?_
  simp only [setTau, M.bind_apply, cmdAt_ok hc, firstOfEngine_ok hfirst, M.modify_apply]

/-! ## Results -/

theorem Slot.modEngine_engine (sl : Slot) {e : Nat} (h : e < 4) (f : EngPart → EngPart) : (sl.modEngine e f).engine e = f (sl.engine e) := by
  simp [Slot.modEngine, Slot.engine, vat, h]

/-- The results of an engine that are a slot's, as many as its FIFO has room for. -/
def State.mineFrom (s : State) (core slot e : Nat) : List EngResult :=
  (s.engResults.filter fun r => decide (r.uid = (s.slot core slot).uid) && decide (r.engine = e)).take
    (8 - ((s.slot core slot).engine e).results.length)

theorem deliverEngine_results (s : State) (core slot : Nat) {e : Nat} (h : e < 4) : (((s.deliverEngine core slot e).slot core slot).engine e).results =
    ((s.slot core slot).engine e).results ++ (s.mineFrom core slot e).map (·.word) := by
  have hsl : (s.deliverEngine core slot e).slot core slot = (s.slot core slot).modEngine e fun p =>
      { p with results := p.results ++ (s.mineFrom core slot e).map (·.word), unfinished := p.unfinished - (s.mineFrom core slot e).length } :=
    State.modSlot_slot s core slot (·.modEngine e fun p =>
      { p with results := p.results ++ (s.mineFrom core slot e).map (·.word), unfinished := p.unfinished - (s.mineFrom core slot e).length })
  rw [hsl, Slot.modEngine_engine _ h]

theorem endCmd_delivers {status x : Nat} (hu : (s.slot c.core c.slot).uid = c.uid) (he : c.engine < 4)
    (hroom : ((s.slot c.core c.slot).engine c.engine).results.length < 8) (hnone : ∀ r ∈ s.engResults, r.uid ≠ c.uid) :
    (s.endCmd k c status x).engCmds = s.engCmds.eraseIdx k ∧
    (((s.endCmd k c status x).slot c.core c.slot).engine c.engine).results = ((s.slot c.core c.slot).engine c.engine).results ++
      [w64 (status * 2 ^ 56 + c.engine * 2 ^ 48 + fld c.header 32 16 * 2 ^ 32 + x % 2 ^ 32)] := by
  generalize hr : (⟨c.uid, c.engine, resultWord status c.engine (cmdTag c.header) x⟩ : EngResult) = r
  generalize ht : ({ s with engCmds := s.engCmds.eraseIdx k, engResults := s.engResults ++ [r] } : State) = t
  have hslot : t.slot c.core c.slot = s.slot c.core c.slot := by rw [← ht]; rfl
  have hend : s.endCmd k c status x = t.deliverEngine c.core c.slot c.engine := by
    have hp : s.endCmd k c status x = if (t.slot c.core c.slot).uid = c.uid then t.deliverEngine c.core c.slot c.engine else t := by
      rw [← ht, ← hr]
      rfl
    rw [hp, hslot, if_pos hu]
  have hmine : t.mineFrom c.core c.slot c.engine = [r] := by
    have hold : (s.engResults.filter fun r => decide (r.uid = c.uid) && decide (r.engine = c.engine)) = [] := by
      rw [List.filter_eq_nil_iff]
      intro y hy
      simp [hnone y hy]
    have hres : t.engResults = s.engResults ++ [r] := by rw [← ht]
    rw [State.mineFrom, hslot, hu, hres, List.filter_append, hold, ← hr]
    have h8 : 8 - ((s.slot c.core c.slot).engine c.engine).results.length =
      (7 - ((s.slot c.core c.slot).engine c.engine).results.length) + 1 := by omega
    simp [h8]
  refine ⟨?_, ?_⟩
  · rw [hend, ← ht]
    rfl
  · rw [hend]
    rw [deliverEngine_results t _ _ he, hmine, hslot, ← hr]
    rfl

theorem engineSteps : Claims.EngineSteps :=
  ⟨fun _ _ _ => run_e0Merge, fun _ _ _ h => ⟨fun _ _ _ => run_gather h, fun _ _ => run_gather_trap h, fun _ _ _ _ _ _ => gatherRow_ok⟩,
    fun _ _ _ _ _ _ _ _ _ => run_mergePages, fun _ _ _ => run_setTau, fun _ _ _ _ _ => endCmd_delivers⟩

end

/-- Settles O39: the FIFOs of the engines, and the steps of their commands. -/
theorem engines : Obligations.Engines := ⟨engineQueues, engineSteps⟩

end Sys2Proof.Machine
end

section
/-! Chains and meters, and the revocation of principals (R202 to R208, R211, R215, R216). -/

-- One declaration after another: checked side by side, these take more threads than the memory of the check holds.
set_option Elab.async false

namespace Sys2Proof.Machine

open Sys2Proof.Claims

section
variable {s t u : State} {d a : Reg} {n : Nat}

/-! ## CHRD and METRD -/

/-- The slots of the acting core that CHRD looks at are as they were when the instruction has issued, but for the acting one's pips. -/
theorem State.issue_chainAt (s : State) (n : Nat) : (s.issue.slot s.cur.core n).chain = (s.slot s.cur.core n).chain := by
  by_cases h : n = s.cur.slot
  · subst h
    have hme : s.issue.slot s.cur.core s.cur.slot = s.issue.me := by rw [State.me, s.issue_cur]
    rw [hme, s.issue_chain]
    rfl
  · rw [s.issue_slot_of_ne h]

theorem State.issue_chains (s : State) : s.issue.chains = s.chains := by rw [(State.issue_frame s).1.1]

theorem State.issue_chainOf (s : State) (c : Nat) : s.issue.chain c = s.chain c := by rw [State.chain, State.issue_chains, State.chain]

theorem State.issue_linksOf (s : State) (cix : Nat) : s.issue.linksOf cix = s.linksOf cix := by
  have h (fuel c : Nat) : s.issue.links fuel c = s.links fuel c := by
    induction fuel generalizing c with
    | zero => rfl
    | succ fuel ih =>
      dsimp only [State.links]
      rw [State.issue_chainOf, ih]
  exact h 8 cix

theorem chainSlot_apply (h14 : s.cur.slot ≠ 14) : chainSlot s = .ok (chainSlotOf s) s := by
  simp only [chainSlot, M.bind_apply, M.get_apply, if_neg h14, chainSlotOf]
  split <;> rfl

theorem chainSlotOf_issue (s : State) : chainSlotOf s.issue = chainSlotOf s := by simp only [chainSlotOf, State.issue_cur, State.issue_slotsel]

theorem exec_chrd (d a : Reg) (s : State) : exec (.chrd d a) s = run (chrd d a) s := rfl

/-- CHRD's answer for a link, 0 where the chain has none of its number. -/
def linkAnswer (x : Option (Chain × Nat)) : W64 :=
  match x with
  | some (e, eff) => linkWord e eff
  | none => 0

/-- What CHRD does with the number of a link. -/
def chrdRest (d : Reg) (n : Nat) (v : W64) : M Unit := do
  if v.toNat > 8 then trapAt Cause.illegal v
  let s ← get
  let k := (s.slot s.cur.core n).chain
  let cix := fld k 0 16
  if v.toNat = 0 then wr d (w64 (boolNat (s.chain cix).revoked * 2 ^ 19 + fld k 0 19))
  else
    let ls := s.linksOf cix
    wr d (linkAnswer (ls.zip (effShares ls))[v.toNat - 1]?)

theorem chrd_begins (h14 : s.cur.slot ≠ 14) : (do
    let n ← chainSlot
    let v ← rd a
    chrdRest d n v) s.issue = chrdRest d (chainSlotOf s) (s.src a) s.issue := by
  have h14' : s.issue.cur.slot ≠ 14 := by rwa [State.issue_cur]
  simp only [M.bind_apply, chainSlot_apply h14', chainSlotOf_issue, rd_apply, State.issue_src]

theorem run_chrd (hp : NoPort s [a] (some d)) (h14 : s.cur.slot ≠ 14) (h : chrdRest d (chainSlotOf s) (s.src a) s.issue = .ok () t) :
    exec (.chrd d a) s = .next t.finish := run_waiting hp ((chrd_begins h14).trans h)

theorem toNat_ne_zero {v : W64} (h : v ≠ 0) : v.toNat ≠ 0 := fun h0 => h (BitVec.eq_of_toNat_eq h0)

theorem chrdRest_own (h0 : s.src a = 0) : chrdRest d n (s.src a) s.issue =
    .ok () (s.issue.writeMine d (w64 (boolNat (s.chain (fld (s.slot s.cur.core n).chain 0 16)).revoked * 2 ^ 19 +
      fld (s.slot s.cur.core n).chain 0 19))) := by
  have hv : (s.src a).toNat = 0 := by
    rw [h0]
    rfl
  have h8 : ¬(s.src a).toNat > 8 := by omega
  simp only [chrdRest, M.bind_apply, M.get_apply, if_neg h8, if_pos hv, State.issue_cur, State.issue_chainAt, State.issue_chainOf, wr_apply]

theorem chrdRest_link (h0 : s.src a ≠ 0) (h8 : (s.src a).toNat ≤ 8) : chrdRest d n (s.src a) s.issue =
    .ok () (s.issue.writeMine d (linkAnswer ((linksAt s n).zip (effShares (linksAt s n)))[(s.src a).toNat - 1]?)) := by
  simp only [chrdRest, M.bind_apply, M.get_apply, if_neg (Nat.not_lt.2 h8), if_neg (toNat_ne_zero h0), State.issue_cur, State.issue_chainAt,
    State.issue_linksOf, wr_apply, linksAt]

theorem run_chrd_illegal (hp : NoPort s [a] (some d)) (h14 : s.cur.slot ≠ 14) (h8 : 8 < (s.src a).toNat) :
    exec (.chrd d a) s = .next (takeTrap ⟨Cause.illegal, s.src a, 0, 0xFFFF⟩ s.issue) := by
  refine run_waiting_trap hp ((chrd_begins h14).trans ?_)
  simp only [chrdRest, M.bind_apply, if_pos h8, trapAt_apply]
  rfl

/-- METRD reads before its own issue. -/
theorem run_metrd (hp : NoPort s [a] (some d)) (h : (do
    let n ← chainSlot
    let v ← rd a
    if v.toNat > 8 then trapAt Cause.illegal v
    let s ← get
    let sl := s.slot s.cur.core n
    let meter := if s.me.reissue && decide (n = s.cur.slot) then sl.unpip else sl.meter
    if v.toNat = 0 then wr d meter
    else wr d (w64 ((splitParts meter.toNat (effShares (s.linksOf (fld sl.chain 0 16))))[v.toNat - 1]?.getD 0))) s = .ok () t) :
    exec (.metrd d a) s = .next t.issue.finish := by
  change runChargedAfter (waiting [a] (some d) _) s = _
  rw [runChargedAfter, waiting_of_noPort hp h]
  rfl

theorem meterOf_eq (s : State) (n : Nat) :
    (if s.me.reissue && decide (n = s.cur.slot) then (s.slot s.cur.core n).unpip else (s.slot s.cur.core n).meter) = meterOf s n := by
  simp only [meterOf, Bool.and_eq_true, decide_eq_true_eq]

theorem run_metrd_own (hp : NoPort s [a] (some d)) (h14 : s.cur.slot ≠ 14) (h0 : s.src a = 0) :
    exec (.metrd d a) s = .next (((s.writeMine d (meterOf s (chainSlotOf s))).issue).finish) := by
  have hv : (s.src a).toNat = 0 := by
    rw [h0]
    rfl
  have h8 : ¬(s.src a).toNat > 8 := by omega
  refine run_metrd hp ?_
  simp only [M.bind_apply, chainSlot_apply h14, rd_apply, if_neg h8, if_pos hv, M.get_apply, wr_apply, meterOf_eq]

theorem run_metrd_link (hp : NoPort s [a] (some d)) (h14 : s.cur.slot ≠ 14) (h0 : s.src a ≠ 0) (h8 : (s.src a).toNat ≤ 8) :
    exec (.metrd d a) s = .next (((s.writeMine d (w64 ((splitParts (meterOf s (chainSlotOf s)).toNat
      (effShares (linksAt s (chainSlotOf s))))[(s.src a).toNat - 1]?.getD 0))).issue).finish) := by
  refine run_metrd hp ?_
  simp only [M.bind_apply, chainSlot_apply h14, rd_apply, if_neg (Nat.not_lt.2 h8), if_neg (toNat_ne_zero h0), M.get_apply, wr_apply, meterOf_eq,
    linksAt]

theorem run_chrd_cases (hp : NoPort s [a] (some d)) (h14 : s.cur.slot ≠ 14) (hn : n = chainSlotOf s) :
    (s.src a = 0 → exec (.chrd d a) s = .next ((s.issue.writeMine d (w64 (boolNat (s.chain (fld (s.slot s.cur.core n).chain 0 16)).revoked *
      2 ^ 19 + fld (s.slot s.cur.core n).chain 0 19))).finish)) ∧
    (∀ e eff, s.src a ≠ 0 → (s.src a).toNat ≤ 8 → ((linksAt s n).zip (effShares (linksAt s n)))[(s.src a).toNat - 1]? = some (e, eff) →
      exec (.chrd d a) s = .next ((s.issue.writeMine d (w64 (eff * 2 ^ 48 + e.share * 2 ^ 40 + e.gen * 2 ^ 32 + e.principal))).finish)) ∧
    (s.src a ≠ 0 → (s.src a).toNat ≤ 8 → (linksAt s n).length < (s.src a).toNat →
      exec (.chrd d a) s = .next ((s.issue.writeMine d 0).finish)) := by
  subst hn
  refine ⟨fun h0 => run_chrd hp h14 (chrdRest_own h0), fun e eff h0 h8 hl => run_chrd hp h14 ?_, fun h0 h8 hl => run_chrd hp h14 ?_⟩
  · rw [chrdRest_link h0 h8, hl]
    rfl
  · have hnone : ((linksAt s (chainSlotOf s)).zip (effShares (linksAt s (chainSlotOf s))))[(s.src a).toNat - 1]? = none := by
      rw [List.getElem?_eq_none_iff, List.length_zip]
      omega
    rw [chrdRest_link h0 h8, hnone]
    rfl

/-! ## Splits (R215) -/

theorem sum_parts_le (c : Nat) (eff : List Nat) : 100 * (eff.map fun e => c * e / 100).sum ≤ c * eff.sum := by
  induction eff with
  | nil => simp
  | cons e eff ih =>
    rw [List.map_cons, List.sum_cons, List.sum_cons, Nat.mul_add, Nat.mul_add]
    exact Nat.add_le_add (Nat.mul_div_le ..) ih

theorem splitParts_spec {c : Nat} {eff : List Nat} (hne : eff ≠ []) (hsum : eff.sum = 100) :
    (splitParts c eff).sum = c ∧ (splitParts c eff).length = eff.length := by
  obtain ⟨e, eff', rfl⟩ := List.exists_cons_of_ne_nil hne
  have hle := sum_parts_le c (e :: eff')
  rw [hsum] at hle
  have hparts : splitParts c (e :: eff') = (c * e / 100 + (c - ((e :: eff').map fun e => c * e / 100).sum)) :: eff'.map fun e => c * e / 100 := rfl
  rw [hparts]
  refine ⟨?_, by simp⟩
  rw [List.map_cons, List.sum_cons] at hle ⊢
  rw [List.sum_cons]
  omega

/-! ## ADOPT and UNADOPT -/

theorem takeRef_cur (s : State) (cix : Nat) : (s.takeRef cix).cur = s.cur := by
  unfold State.takeRef
  dsimp only
  split <;> rfl

theorem dropRef_cur (s : State) (cix : Nat) : (s.dropRef cix).cur = s.cur := by
  obtain ⟨ch, hch⟩ := dropRef_frame s cix
  rw [hch]

theorem intern_cur {parent : Option Nat} {p gen share w depth : Nat} (h : s.intern parent p gen share w depth = some (n, t)) : t.cur = s.cur := by
  unfold State.intern at h
  dsimp only at h
  split at h
  · simp only [Option.some.injEq, Prod.mk.injEq] at h
    rw [← h.2]
  · split at h
    · simp at h
    · simp only [Option.some.injEq, Prod.mk.injEq] at h
      rw [← h.2]
      split
      · rw [takeRef_cur]
        rfl
      · rfl

/-- The acting slot under another entry of its chain: the segment split, the references moved, and k.chain written. -/
def State.chained (s : State) (core slot old new depth : Nat) (d : Reg) : State :=
  ((((s.splitSegment core slot).takeRef new).dropRef old).modMe fun sl => { sl with chain := w64 (new + depth * 2 ^ 16) }).writeMine d
    (w64 (new + depth * 2 ^ 16))

theorem changeChain_apply (old new depth : Nat) (d : Reg) (s : State) :
    changeChain old new depth d s = .ok () (s.chained s.cur.core s.cur.slot old new depth d) := rfl

theorem exec_adopt (d a : Reg) (s : State) : exec (.adopt d a) s = run (adopt d a) s := rfl

theorem run_adopt {p f : Nat} (hp : NoPort s [a] (some d)) (h14 : s.cur.slot < 14) (hpr : p = fld (s.src a) 0 24) (hf : f = fld (s.src a) 32 7)
    (h39 : fld (s.src a) 39 25 = 0) (h24 : fld (s.src a) 24 8 = 0) (hrev : s.issue.revoking = false)
      (hlive : (s.chain (fld s.me.chain 0 16)).revoked = false)
    (hdepth : fld s.me.chain 16 3 ≠ 7) (hshare : f ≤ (s.chain (fld s.me.chain 0 16)).share) (hp0 : p ≠ 0) (hst : (s.principal p).st = .live)
    (hw : (s.principal p).world = s.myWorld)
    (hint : s.issue.intern (some (fld s.me.chain 0 16)) p (s.principal p).gen f s.myWorld (fld s.me.chain 16 3 + 1) = some (n, t)) :
    exec (.adopt d a) s = .next (t.chained s.cur.core s.cur.slot (fld s.me.chain 0 16) n (fld s.me.chain 16 3 + 1) d).finish := by
  have hword : ¬(decide (fld (s.src a) 39 25 ≠ 0) || decide (fld (s.src a) 24 8 ≠ 0)) = true := by simp [h39, h24]
  have hprin : s.issue.principal p = s.principal p := by
    rw [State.principal, (State.issue_frame s).1.1]
    rfl
  have hok : ¬(decide (p = 0) || decide ((s.principal p).st ≠ .live)) = true := by simp [hp0, hst]
  have hcur : t.cur = s.cur := (intern_cur hint).trans s.issue_cur
  rw [exec_adopt]
  refine run_waiting hp ?_
  simp only [M.bind_apply, workOnly_ok (s := s.issue) (by rwa [State.issue_cur]), rd_apply, State.issue_src, if_neg hword, ← hpr, ← hf, M.get_apply,
    hrev,
    Bool.false_eq_true, if_false, State.issue_chain, State.issue_chainOf, hlive, if_neg hdepth, if_neg (Nat.not_lt.2 hshare), hprin, if_neg hok,
    State.issue_myWorld, if_neg (not_not_intro hw), hint, M.set_apply, changeChain_apply, hcur]

theorem run_unadopt (hp : NoPort s [] (some d)) (h14 : s.cur.slot < 14) (hrev : s.issue.revoking = false) (hdepth : fld s.me.chain 16 3 ≠ 0)
    (hn : n = (s.chain (fld s.me.chain 0 16)).parent) :
    exec (.unadopt d) s = .next (s.issue.chained s.cur.core s.cur.slot (fld s.me.chain 0 16) n (fld s.me.chain 16 3 - 1) d).finish := by
  change run (unadopt d) s = _
  refine run_waiting hp ?_
  simp only [M.bind_apply, workOnly_ok (s := s.issue) (by rwa [State.issue_cur]), M.get_apply, hrev, Bool.false_eq_true, if_false, State.issue_chain,
    if_neg hdepth, State.issue_chainOf, ← hn, changeChain_apply, State.issue_cur]

theorem setChain_chain_of_ne (s : State) {i j : Nat} (v : Chain) (h : i ≠ j) : (s.setChain i v).chain j = s.chain j := Sparse.get_put_of_ne _ _ _ h

/-- A reference taken leaves of every entry all but its count. -/
theorem takeRef_chain (s : State) (i j : Nat) : (s.takeRef i).chain j = { s.chain j with refs := ((s.takeRef i).chain j).refs } := by
  rw [State.takeRef]
  dsimp only
  split
  · rfl
  · by_cases h : i = j
    · subst h
      rw [State.setChain_chain]
    · rw [setChain_chain_of_ne _ _ h]

theorem freeCix_spec {c : Nat} (h : s.freeCix = some c) : ∀ e ∈ s.chains, e.1 ≠ c ∨ e.2.valid = false := by
  intro e he
  have hc := List.find?_some h
  by_cases hv : e.2.valid = true
  · refine .inl fun heq => ?_
    have hmem : c ∈ (s.chains.filter (·.2.valid)).map Prod.fst := List.mem_map.2 ⟨e, List.mem_filter.2 ⟨he, hv⟩, heq⟩
    simp only [Bool.not_eq_true', List.contains_eq_mem, decide_eq_false_iff_not] at hc
    exact hc hmem
  · exact .inr (by simpa using hv)

/-- A chain that is interned anew takes a free entry. -/
theorem intern_fresh {parent : Option Nat} {p gen share w depth : Nat} (h : s.intern parent p gen share w depth = some (n, t))
    (hno : s.findChain parent p gen share = none) : (t.chain n).valid = true ∧ (t.chain n).principal = p ∧ (t.chain n).share = share ∧
      (t.chain n).gen = gen ∧ ((s.chain n).valid = false ∨ ∀ e ∈ s.chains, e.1 ≠ n ∨ e.2.valid = false) := by
  unfold State.intern at h
  rw [hno] at h
  dsimp only at h
  split at h
  · simp at h
  · next c hc =>
    simp only [Option.some.injEq, Prod.mk.injEq] at h
    obtain ⟨rfl, ht⟩ := h
    have hnew : ({ s.setChain c ⟨true, (s.chain c).refs, parent.getD c, p, gen, share, depth, false, w⟩ with freeCtr := s.freeCtr + 1 } : State).chain
      c =
      ⟨true, (s.chain c).refs, parent.getD c, p, gen, share, depth, false, w⟩ := State.setChain_chain ..
    have hent : t.chain c = { (⟨true, (s.chain c).refs, parent.getD c, p, gen, share, depth, false, w⟩ : Chain) with refs := (t.chain c).refs } := by
      cases parent with
      | none =>
        rw [← ht, hnew]
      | some q =>
        rw [← ht]
        conv_lhs => rw [takeRef_chain, hnew]
    rw [hent]
    exact ⟨rfl, rfl, rfl, rfl, .inr (freeCix_spec hc)⟩

/-! ## CAPCHK -/

/-- What CAPCHK does with the answer of the check. -/
def capchkAnswer (p : Num3) (x : EStateM.Result Stop State Cap) : M Unit :=
  match x with
  | .ok _ t => do
    set t
    modMe (·.setPred p true)
  | .error (.trap ti) t => do
    set t
    if ti.cause = Cause.chainRevoked then throw (.trap ti) else modMe (·.setPred p false)
  | .error e t => do
    set t
    throw e

theorem exec_capchk (p : Num3) (a : Reg) (k : BitVec 2) (s : State) : exec (.capchk p a k) s = run (waiting [a] none do
    let n ← chainSlot
    let ea ← rd a
    let s ← get
    capchkAnswer p (authorize ⟨s.cur.core, s.cur.slot, s.myWorld, fld (s.slot s.cur.core n).chain 0 16⟩ ea [kindOf k] s)) s := rfl

/-- The identity under which CAPCHK checks: the chain of the slot that it looks at. -/
def chainWho (s : State) : Who := ⟨s.cur.core, s.cur.slot, s.myWorld, fld (s.slot s.cur.core (chainSlotOf s)).chain 0 16⟩

theorem capchk_begins {p : Num3} {k : BitVec 2} (h14 : s.cur.slot ≠ 14) : (do
    let n ← chainSlot
    let ea ← rd a
    let s ← get
    capchkAnswer p (authorize ⟨s.cur.core, s.cur.slot, s.myWorld, fld (s.slot s.cur.core n).chain 0 16⟩ ea [kindOf k] s)) s.issue =
      capchkAnswer p (authorize (chainWho s) (s.src a) [kindOf k] s.issue) s.issue := by
  simp only [M.bind_apply, chainSlot_apply (s := s.issue) (by rwa [State.issue_cur]), chainSlotOf_issue, rd_apply, State.issue_src, M.get_apply,
    State.issue_cur,
    State.issue_myWorld, State.issue_chainAt, chainWho]

variable {p : Num3} {k : BitVec 2}

theorem run_capchk_true {cap : Cap} (hp : NoPort s [a] none) (h14 : s.cur.slot ≠ 14)
    (h : authorize (chainWho s) (s.src a) [kindOf k] s.issue = .ok cap t) :
    exec (.capchk p a k) s = .next ((t.modMe (·.setPred p true)).finish) := by
  rw [exec_capchk]
  refine run_waiting hp ((capchk_begins h14).trans ?_)
  rw [h]
  rfl

theorem run_capchk_false {x : TrapInfo} (hp : NoPort s [a] none) (h14 : s.cur.slot ≠ 14)
    (h : authorize (chainWho s) (s.src a) [kindOf k] s.issue = .error (.trap x) t) (hx : x.cause ≠ Cause.chainRevoked) :
    exec (.capchk p a k) s = .next ((t.modMe (·.setPred p false)).finish) := by
  rw [exec_capchk]
  refine run_waiting hp ((capchk_begins h14).trans ?_)
  rw [h]
  simp only [capchkAnswer, M.bind_apply, M.set_apply, if_neg hx, modMe_apply]

theorem run_capchk_revoked {x : TrapInfo} (hp : NoPort s [a] none) (h14 : s.cur.slot ≠ 14)
    (h : authorize (chainWho s) (s.src a) [kindOf k] s.issue = .error (.trap x) t) (hx : x.cause = Cause.chainRevoked) :
    exec (.capchk p a k) s = .next (takeTrap x t) := by
  rw [exec_capchk]
  refine run_waiting_trap hp ((capchk_begins h14).trans ?_)
  rw [h]
  simp only [capchkAnswer, M.bind_apply, M.set_apply, if_pos hx, M.throw_apply]

theorem chainInstructions : Claims.ChainInstructions := by
  refine ⟨fun s d a n hp h14 hn => ?_, fun _ _ => splitParts_spec, fun _ _ _ _ _ _ _ => run_adopt, fun _ _ _ => run_unadopt, fun _ _ _ _ _ _ _ _ _ =>
    intern_fresh,
    fun s t p a k w hp h14 hw => ?_⟩
  · obtain ⟨hown, hlink, hnone⟩ := run_chrd_cases hp h14 hn
    subst hn
    exact ⟨hown, hlink, hnone, run_metrd_own hp h14, run_metrd_link hp h14, run_chrd_illegal hp h14⟩
  · subst hw
    exact ⟨fun _ => run_capchk_true hp h14, fun _ => run_capchk_false hp h14, fun _ => run_capchk_revoked hp h14⟩

theorem Granted.of_same {w : Who} {ea : W64} {x : Kind} {cap : Cap} (h : Granted s w ea x cap) (hw : t.worlds = s.worlds) (hc : t.chains = s.chains)
    (hr : t.ruleCaches = s.ruleCaches) : Granted t w ea x cap := by
  obtain ⟨h1, h2, h3, h4, h5⟩ := h
  refine ⟨by rwa [State.capOf, State.world, hw], h2, by rwa [State.chain, hc], ?_, by rwa [hr]⟩
  rw [State.rulesGrant, State.world, hw]
  simp only [chainIds_eq hc]
  exact h4

theorem finish_completed (t : State) : t.finish.me.pc = t.behind ∧ t.finish.me.st = .wait ∧ t.finish.me.waiting = .complete := by
  rw [State.finish_me]
  exact ⟨rfl, rfl, rfl⟩

theorem finish_mem (t : State) : t.finish.mem = t.mem := rfl

theorem Slot.setPred_pred (sl : Slot) (p : Num3) (b : Bool) : (sl.setPred p b).pred p = b := by
  simp [Slot.pred, Slot.setPred]

/-- What a check of the authority leaves when CAPCHK has written its predicate. -/
theorem capchk_completed {w : Who} (h : Touched w.world s.issue t) (b : Bool) : Completed s ((t.modMe (·.setPred p b)).finish) ∧
    ((t.modMe (·.setPred p b)).finish).me.pred p = b ∧ ((t.modMe (·.setPred p b)).finish).me.s = s.me.s := by
  have hcur : t.cur = s.cur := h.cur_eq.trans s.issue_cur
  have hme : t.me = s.issue.me := h.me_eq
  have hpred : (t.modMe (·.setPred p b)).me = t.me.setPred p b := State.modMe_me ..
  have hbehind : (t.modMe (·.setPred p b)).behind = s.behind := by
    rw [State.behind, hpred, State.modMe_cur, hcur, hme]
    exact congrArg (· + _) s.issue_pc
  obtain ⟨hpc, hst, hw⟩ := finish_completed (t.modMe (·.setPred p b))
  refine ⟨⟨hpc.trans hbehind, hst, hw⟩, ?_, ?_⟩
  · rw [State.finish_me, hpred]
    exact Slot.setPred_pred ..
  · rw [State.finish_me, hpred, hme]
    exact s.issue_s

theorem authorize_none {w : Who} {ea : W64} {x : List Kind} (h : s.capOf w.world ea = none) :
    authorize w ea x s = .error (.trap ⟨Cause.capfault, ea, 0, tfmtNone⟩) s := by
  simp only [authorize, M.bind_apply, M.get_apply, h, trapAt_apply]

theorem State.issue_worlds (s : State) : s.issue.worlds = s.worlds := by rw [(State.issue_frame s).1.1]
theorem State.issue_ruleCaches (s : State) : s.issue.ruleCaches = s.ruleCaches := by rw [(State.issue_frame s).1.1]

theorem capchkCompletes : Claims.CapchkCompletes := by
  intro s p a k w hp h14 hw
  subst hw
  refine ⟨fun cap hg => ?_, fun hnone => ?_⟩
  · obtain ⟨t, ht, halike⟩ := authorize_passes (hg.of_same (t := s.issue) s.issue_worlds s.issue_chains s.issue_ruleCaches)
    obtain ⟨hdone, hpred, hregs⟩ := capchk_completed (p := p) halike.touched true
    exact ⟨_, run_capchk_true hp h14 ht, hdone, hpred, hregs, halike.mem.trans s.issue_mem⟩
  · have hcap : s.issue.capOf s.myWorld (s.src a) = none := by rwa [State.capOf, State.world, State.issue_worlds]
    obtain ⟨hdone, hpred, hregs⟩ := capchk_completed (s := s) (t := s.issue) (w := chainWho s) (p := p) (Touched.refl ..) false
    exact ⟨_, run_capchk_false hp h14 (authorize_none hcap) (by simp [Cause.capfault, Cause.chainRevoked]), hdone, hpred, hregs, s.issue_mem⟩

/-! ## Revocation (R211) -/

theorem run_sweep_first {w : Sweep} {rest : List Sweep} (hs : s.sweep = none) (hr : s.revocations = w :: rest) :
    ∃ t, exec .revocationSweep s = .next t ∧ t.sweep = some { w with pass := 0, cycle := 0 } ∧ t.revocations = rest ∧
      (t.principal w.principal).gen = (s.principal w.principal).gen + 1 ∧
      (t.principal w.principal).st = if (s.principal w.principal).gen + 1 = 0xFF then .retired else .revoked := by
  have hprin : (s.setPrincipal w.principal (s.principal w.principal).revoke).principal w.principal = (s.principal w.principal).revoke :=
    Sparse.get_put_self ..
  refine ⟨{ s.setPrincipal w.principal (s.principal w.principal).revoke with sweep := some { w with pass := 0, cycle := 0 }, revocations := rest },
    ?_, rfl, rfl,
    congrArg Principal.gen hprin, congrArg Principal.st hprin⟩
  refine event_of_ok (m := revocationSweep) ?_
  simp only [revocationSweep, M.bind_apply, M.get_apply, hs, hr, M.set_apply]

/-- Entries freed: their marks stay, and none becomes valid. -/
structure Freed (s t : State) : Prop where
  entry : ∀ c, (t.chain c).revoked = (s.chain c).revoked ∧ ((t.chain c).valid = true → (s.chain c).valid = true)

theorem Freed.setChain {i : Nat} {v : Chain} (hr : v.revoked = (s.chain i).revoked) (hv : v.valid = true → (s.chain i).valid = true) :
    Freed s (s.setChain i v) := by
  refine ⟨fun c => ?_⟩
  by_cases h : i = c
  · subst h
    rw [State.setChain_chain]
    exact ⟨hr, hv⟩
  · rw [setChain_chain_of_ne _ _ h]
    exact ⟨rfl, id⟩

theorem Freed.refl (s : State) : Freed s s := ⟨fun _ => ⟨rfl, id⟩⟩

theorem Freed.trans (h : Freed s t) (k : Freed t u) : Freed s u :=
  ⟨fun c => ⟨(k.entry c).1.trans (h.entry c).1, fun hv => (h.entry c).2 ((k.entry c).2 hv)⟩⟩

theorem Freed.freeChain (fuel i : Nat) (s : State) : Freed s (s.freeChain fuel i) := by
  induction fuel generalizing i s with
  | zero => exact .refl s
  | succ fuel ih =>
    unfold State.freeChain
    dsimp only
    split
    · have h1 : Freed s (s.setChain i { s.chain i with valid := false }) := .setChain rfl fun h => absurd h Bool.false_ne_true
      split
      · exact h1
      · split
        · exact h1
        · refine (h1.trans ?_).trans (ih ..)
          exact .setChain rfl id
    · exact .refl s

theorem Freed.freeChains (l : List Nat) (s : State) : Freed s (l.foldl (fun t c => t.freeChain 8 c) s) := by
  induction l generalizing s with
  | nil => exact .refl s
  | cons c l ih => exact (Freed.freeChain 8 c s).trans (ih _)

/-- Entries marked: those listed, with nothing else of them changed. -/
theorem marked_chain (l : List Nat) (s : State) (c : Nat) : (l.foldl (fun t c => t.setChain c { t.chain c with revoked := true }) s).chain c =
    if c ∈ l then { s.chain c with revoked := true } else s.chain c := by
  induction l generalizing s with
  | nil => rw [if_neg List.not_mem_nil]; rfl
  | cons i l ih =>
    rw [List.foldl_cons, ih]
    by_cases h : i = c
    · subst h
      rw [State.setChain_chain, if_pos List.mem_cons_self]
      split <;> rfl
    · have hmem : c ∈ i :: l ↔ c ∈ l := by simp [Ne.symm h]
      rw [setChain_chain_of_ne _ _ h]
      simp only [hmem]

/-- The entries that a cycle of a pass marks. -/
def State.sweepHits (s : State) (w : Sweep) : List Nat := (s.chains.map Prod.fst).filter (s.sweepHit w)

theorem sweepCycle_chain (s : State) (w : Sweep) (c : Nat) :
    ((s.sweepCycle w).chain c).revoked = (decide (c ∈ s.sweepHits w) || (s.chain c).revoked) ∧
      (((s.sweepCycle w).chain c).valid = true → (s.chain c).valid = true) := by
  obtain ⟨hr, hv⟩ := (Freed.freeChains (s.sweepHits w) ((s.sweepHits w).foldl (fun t c => t.setChain c { t.chain c with revoked := true }) s)).entry c
  rw [marked_chain] at hr hv
  have hr' : ((s.sweepCycle w).chain c).revoked = _ := hr
  rw [hr']
  refine ⟨?_, fun h => ?_⟩
  · by_cases hc : c ∈ s.sweepHits w
    · simp [hc]
    · simp [hc]
  · have hvalid := hv h
    split at hvalid
    · exact hvalid
    · exact hvalid

theorem mem_sweepHits {w : Sweep} {c : Nat} : c ∈ s.sweepHits w ↔ (∃ e ∈ s.chains, e.1 = c) ∧ c / 64 = w.cycle ∧ (s.chain c).valid = true ∧
    (s.chain c).revoked = false ∧ (if w.pass = 0 then (s.chain c).principal = w.principal
      else (s.chain c).depth ≠ 0 ∧ (s.chain (s.chain c).parent).revoked = true) := by
  have hhit : s.sweepHit w c = true ↔ c / 64 = w.cycle ∧ (s.chain c).valid = true ∧
      (s.chain c).revoked = false ∧ (if w.pass = 0 then (s.chain c).principal = w.principal
        else (s.chain c).depth ≠ 0 ∧ (s.chain (s.chain c).parent).revoked = true) := by
    simp only [State.sweepHit]
    split <;> simp [and_assoc]
  rw [State.sweepHits, List.mem_filter, hhit]
  simp

theorem run_sweep_cycle {w : Sweep} (hs : s.sweep = some w) (hp : w.pass < 8) : ∃ t, exec .revocationSweep s = .next t ∧
    t.sweep = some (if w.cycle = 1023 then { w with pass := w.pass + 1, cycle := 0 } else { w with cycle := w.cycle + 1 }) ∧
    (∀ e ∈ s.chains, e.1 / 64 = w.cycle → (s.chain e.1).valid = true → (w.pass = 0 → (s.chain e.1).principal = w.principal) →
      (w.pass ≠ 0 → (s.chain e.1).depth ≠ 0 ∧ (s.chain (s.chain e.1).parent).revoked = true) → (t.chain e.1).revoked = true) ∧
    (∀ c, c / 64 ≠ w.cycle → (t.chain c).revoked = (s.chain c).revoked) ∧
    (∀ c, (s.chain c).revoked = true → (t.chain c).revoked = true) ∧ ∀ c, (t.chain c).valid = true → (s.chain c).valid = true := by
  have hchain (c : Nat) : ({ s.sweepCycle w with sweep := some w.next } : State).chain c = (s.sweepCycle w).chain c := rfl
  refine ⟨{ s.sweepCycle w with sweep := some w.next }, event_of_ok (m := revocationSweep) ?_, rfl, fun e he hc hv h0 h1 => ?_, fun c hc => ?_,
    fun c hc => ?_, fun c => (hchain c).symm ▸ (sweepCycle_chain s w c).2⟩
  · simp only [revocationSweep, M.bind_apply, M.get_apply, hs, require, decide_eq_true hp, if_true, M.pure_apply, M.set_apply]
  · rw [hchain, (sweepCycle_chain s w e.1).1]
    cases hr : (s.chain e.1).revoked with
    | true => simp
    | false =>
      have hmem : e.1 ∈ s.sweepHits w := by
        refine mem_sweepHits.2 ⟨⟨e, he, rfl⟩, hc, hv, hr, ?_⟩
        split
        · next h => exact h0 h
        · next h => exact h1 h
      simp [hmem]
  · have hno : c ∉ s.sweepHits w := fun h => hc (mem_sweepHits.1 h).2.1
    rw [hchain, (sweepCycle_chain s w c).1]
    simp [hno]
  · rw [hchain, (sweepCycle_chain s w c).1, hc, Bool.or_true]

theorem run_revocationComplete {w : Sweep} (hs : s.sweep = some w) (hp : w.pass = 8) :
    ∃ t, exec .revocationComplete s = .next t ∧ t.sweep = none ∧ t.ruleCaches = [] ∧
      ∀ p, (s.fn w.fn).pending = some p → p.fin = .revocation w.principal →
        (t.fn w.fn).pending = some { p with fin := .done 0x02 (BitVec.ofNat 32 (s.principal w.principal).gen) } := by
  generalize ht : ({ s with ruleCaches := [], sweep := none } : State) = t
  have hfn : t.fn w.fn = s.fn w.fn := by rw [← ht]; rfl
  have hgen : t.principal w.principal = s.principal w.principal := by rw [← ht]; rfl
  have hsweep : t.sweep = none ∧ t.ruleCaches = [] := by
    rw [← ht]
    exact ⟨rfl, rfl⟩
  have hrun {u : State} (hu : revocationComplete s = .ok () u) : exec .revocationComplete s = .next u := event_of_ok hu
  cases hpend : (s.fn w.fn).pending with
  | none =>
    refine ⟨t, hrun ?_, hsweep.1, hsweep.2, fun p h => absurd h (by simp)⟩
    simp only [revocationComplete, M.bind_apply, M.get_apply, hs, require, hp, decide_true, if_true, M.pure_apply, ht, hfn, hpend, M.set_apply]
  | some q =>
    by_cases hq : q.fin = .revocation w.principal
    · refine ⟨t.finishCmd w.fn 0x02 (BitVec.ofNat 32 (s.principal w.principal).gen), hrun ?_, hsweep.1, hsweep.2, fun p h _ => ?_⟩
      · simp only [revocationComplete, M.bind_apply, M.get_apply, hs, require, hp, decide_true, if_true, M.pure_apply, ht, hfn, hpend, hq, hgen,
          M.set_apply]
      · rw [State.finishCmd, State.modFn_fn, hfn, hpend]
        simp only [Option.some.injEq] at h
        rw [h]
        rfl
    · refine ⟨t, hrun ?_, hsweep.1, hsweep.2, fun p h hf => absurd ((Option.some.inj h) ▸ hf) hq⟩
      simp only [revocationComplete, M.bind_apply, M.get_apply, hs, require, hp, decide_true, if_true, M.pure_apply, ht, hfn, hpend, hq, decide_false,
        Bool.false_eq_true, if_false, M.set_apply]

theorem stopWorld_revocations (s : State) (w : Nat) (cause : Byte) (keep : Option (Nat × Nat)) : (s.stopWorld w cause keep).revocations =
    s.revocations.filter fun r => decide ((s.principal r.principal).world ≠ w) := by
  unfold State.stopWorld
  dsimp only
  split <;> rfl

theorem revocation : Claims.Revocation :=
  ⟨fun _ _ _ => run_sweep_first, fun _ _ => run_sweep_cycle, fun _ _ => run_revocationComplete, fun s w cause keep r hr => by
    rw [stopWorld_revocations] at hr
    simpa using (List.mem_filter.1 hr).2⟩

end

/-- Settles O46: chains read, changed and checked, and the passes of a revocation. -/
theorem chainsAndRevocation : Obligations.ChainsAndRevocation := ⟨chainInstructions, revocation, capchkCompletes⟩

end Sys2Proof.Machine
end

section
/-! How slots find work: the search by bands, the steals, and what a task starts with (R11, R62, R63, R66). -/

-- One declaration after another: checked side by side, these take more threads than the memory of the check holds.
set_option Elab.async false

namespace Sys2Proof.Machine

open Sys2Proof.Claims

section
variable {s t : State} {core n b : Nat}

/-! ## One band of a search -/

/-- An empty deque has nothing to pop. -/
theorem Deque.popLocal_of_isEmpty {d : Deque} (h : d.isEmpty = true) : d.popLocal = none := by
  obtain ⟨hhw, hspill⟩ : d.hw = [] ∧ d.spill = [] := by simpa [Deque.isEmpty] using h
  simp [Deque.popLocal, Deque.refill, hhw, hspill]

theorem popLive_empty (fuel : Nat) (h : (vat Deque.init (s.core core).deques b).isEmpty = true) : popLive core b fuel s = (none, s) := by
  cases fuel with
  | zero => rfl
  | succ fuel => rw [popLive, Deque.popLocal_of_isEmpty h]

theorem searchBand_ready {i : Nat} {e : CtxEntry} (h : (s.core core).readyAt b = some (i, e)) :
    s.searchBand core n b = (true, s.moveIn core n i e) := by
  rw [State.searchBand, h]

theorem searchBand_pop {p : Packet} {d : Deque} (hr : (s.core core).readyAt b = none)
    (hp : (vat Deque.init (s.core core).deques b).popLocal = some (p, d)) (hd : s.deadPacket p = false) :
    s.searchBand core n b = (true, (s.modCore core fun k => k.modDeque b fun _ => d.take s.cycle 0).loadSlot core n p) := by
  have halive : (s.modCore core fun k => k.modDeque b fun _ => d.take s.cycle 0).deadPacket p = false := hd
  simp only [State.searchBand, hr, popLive, hp, halive, if_neg Bool.false_ne_true]

theorem searchBand_steal {v : Nat} {vs : List Nat} (hr : (s.core core).readyAt b = none)
    (he : (vat Deque.init (s.core core).deques b).isEmpty = true) (hv : s.victims core b = v :: vs) :
    s.searchBand core n b = (true, s.modCore core fun k => { k with steal := some ⟨n, b, v :: vs⟩ }) := by
  simp only [State.searchBand, hr, popLive_empty _ he, hv]

theorem searchBand_nothing (h : NothingAt s core b) : s.searchBand core n b = (false, s) := by
  obtain ⟨hr, he, hv⟩ := h
  simp only [State.searchBand, hr, popLive_empty _ he, hv]

/-! ## The search over the bands -/

/-- Bands with nothing are passed over. -/
theorem searchBelow_skip {m : Nat} (hm : m ≤ 4) (hbm : b < m) (h : ∀ x, x < 4 → b < x → NothingAt s core x) :
    s.searchBelow core n m = s.searchBelow core n (b + 1) := by
  induction m with
  | zero => exact absurd hbm (Nat.not_lt_zero b)
  | succ m ih =>
    by_cases hb : b = m
    · rw [hb]
    · rw [State.searchBelow, searchBand_nothing (h m (by omega) (by omega))]
      exact ih (by omega) (by omega)

theorem slotSearch_finds (hw : s.takesWork core = true) (hs : (s.core core).steal = none) (hf : s.freeSlot core = some n) (hb : b < 4)
    (hd : ∀ d ∈ (s.core core).deques.toList, d.takenIn s.cycle = none) (hn : ∀ x, x < 4 → b < x → NothingAt s core x)
    (h : s.searchBand core n b = (true, t)) : exec (.slotSearch core) s = .next t := by
  have htaken : ((s.core core).deques.toList.all fun d => (d.takenIn s.cycle).isNone) = true :=
    List.all_eq_true.2 fun d hm => Option.isNone_iff_eq_none.2 (hd d hm)
  have hreq : (s.takesWork core && (s.core core).steal.isNone && (s.core core).deques.toList.all fun d => (d.takenIn s.cycle).isNone) = true := by
    rw [hw, hs, htaken]
    rfl
  have hsearch : s.searchBelow core n 4 = t := by
    rw [searchBelow_skip (Nat.le_refl 4) hb hn, State.searchBelow, h]
  refine event_of_ok (m := slotSearch core) (Reaches.bind (M.get_apply _) (.bind (require_apply hreq s) ?_))
  rw [Reaches, hf, ← hsearch]
  rfl

/-! ## A probe's result -/

/-- Where a probe that took nothing goes on. -/
def probeNext (t : State) (core n b : Nat) (rest : List Nat) : State :=
  if t.victimsFrom core b rest = [] then (t.modCore core fun k => { k with steal := none }).searchBelow core n b
  else t.modCore core fun k => { k with steal := some ⟨n, b, t.victimsFrom core b rest⟩ }

theorem probeTakes {v : Nat} {rest : List Nat} {p : Packet} (hs : (s.core core).steal = some ⟨n, b, v :: rest⟩)
    (hw : s.takesWork core = true) (hfar : (vat Deque.init (s.core v).deques b).farEnd = some p) (hworld : (s.core v).world = (s.core core).world)
    (hun : Untaken s v b) (hadm : scopeAdmits p.scope v core = true) (hdead : s.deadPacket p = false)
    (ht : t = s.modCore v fun k => k.modDeque b fun e => e.dropFar.take s.cycle (core + 1)) :
    exec (.stealProbeResult core) s = .next ((t.modCore core fun k => { k with steal := none }.tally 0x18 n 1).loadSlot core n p) := by
  subst ht
  have halive : (s.modCore v fun k => k.modDeque b fun e => e.dropFar.take s.cycle (core + 1)).deadPacket p = false := hdead
  change event (stealProbeResult core) s = _
  simp only [event, stealProbeResult, M.bind_apply, M.get_apply, hs, hw, require_true, hun, Option.all_none, hfar, Option.isNone_none,
    hworld, hadm, decide_true, Bool.and_self, if_true, halive, if_neg Bool.false_ne_true, M.set_apply]

/-- A probe that comes behind another take, or whose packet is not for the thief, takes nothing. -/
theorem probeFails {v : Nat} {rest : List Nat} {p : Packet} (hs : (s.core core).steal = some ⟨n, b, v :: rest⟩)
    (hw : s.takesWork core = true) (hfar : (vat Deque.init (s.core v).deques b).farEnd = some p)
    (hno : (Untaken s v b ∧ scopeAdmits p.scope v core = false) ∨
      ∃ r, (vat Deque.init (s.core v).deques b).takenIn s.cycle = some r ∧ r ≤ core)
    (ht : t = s.modCore core (·.tally 0x19 n 1)) : exec (.stealProbeResult core) s = .next (probeNext t core n b rest) := by
  subst ht
  have hreq : (((vat Deque.init (s.core v).deques b).takenIn s.cycle).all fun r => decide (r ≤ core)) = true := by
    rcases hno with ⟨hun, -⟩ | ⟨r, hr, hle⟩
    · rw [hun]
      rfl
    · rw [hr]
      exact decide_eq_true hle
  have htake : (((vat Deque.init (s.core v).deques b).takenIn s.cycle).isNone && decide ((s.core v).world = (s.core core).world) &&
      scopeAdmits p.scope v core) = false := by
    rcases hno with ⟨-, hadm⟩ | ⟨r, hr, -⟩
    · rw [hadm, Bool.and_false]
    · rw [hr]
      rfl
  change event (stealProbeResult core) s = _
  simp only [event, stealProbeResult, M.bind_apply, M.get_apply, hs, hw, require_true, hreq, hfar, htake, if_neg Bool.false_ne_true,
    M.set_apply, probeNext]
  split
  · next h => rw [if_pos h]
  · next h => rw [if_neg h]

end

theorem scopeAdmits_eq (scope victim thief : Nat) : scopeAdmits scope victim thief = match scope with
    | 0 => false
    | 1 => decide (victim / 8 = thief / 8)
    | 2 => decide (victim / 64 = thief / 64)
    | _ => true := by
  match scope with
  | 0 => rfl
  | 1 => rfl
  | 2 => rfl
  | _ + 3 => rfl

/-! ## What a task starts with -/

theorem loadSlot_slot (s : State) (core n : Nat) (p : Packet) : (s.loadSlot core n p).slot core n = s.slotOf core p := by
  change ((s.modCore core fun k => ((k.dropCopyFault n).setSlot n (s.slotOf core p)).tally 0x1B n 1).slot core n) = _
  rw [State.slot, State.modCore_core, Core.tally_slot, Core.setSlot_slot]

section
variable (s : State) (core : Nat) (p : Packet)

/-- The registers of a task are those that its packet gives, and 0. -/
theorem slotOf_regs : (s.slotOf core p).reg 1 = p.w[2] ∧ (s.slotOf core p).reg 2 = p.w[6] ∧ (s.slotOf core p).reg 3 = p.w[7] ∧
    ∀ r : Reg, r ≠ 1 → r ≠ 2 → r ≠ 3 → (s.slotOf core p).reg r = 0 := by
  refine ⟨rfl, rfl, rfl, fun r h1 h2 h3 => ?_⟩
  have h1 : 1 ≠ r.toNat := fun he => h1 (BitVec.eq_of_toNat_eq he.symm)
  have h2 : 2 ≠ r.toNat := fun he => h2 (BitVec.eq_of_toNat_eq he.symm)
  have h3 : 3 ≠ r.toNat := fun he => h3 (BitVec.eq_of_toNat_eq he.symm)
  by_cases h0 : r = 0
  · exact if_pos h0
  · rw [Slot.reg, if_neg h0]
    change (((Slot.init.s.set 1 p.w[2]).set 2 p.w[6]).set 3 p.w[7])[r.toNat]'r.isLt = 0
    rw [Vector.getElem_set_ne _ _ h3, Vector.getElem_set_ne _ _ h2, Vector.getElem_set_ne _ _ h1]
    exact Vector.getElem_replicate _

theorem slotOf_pred (i : Num3) : (s.slotOf core p).pred i = false := Vector.getElem_replicate (n := 8) i.isLt

theorem slotOf_tile (t : Num3) : ((s.slotOf core p).tile t).shape = 0 := by
  have h : (s.slotOf core p).tile t = Tile.empty := Vector.getElem_replicate (n := 8) t.isLt
  rw [h]
  rfl

theorem slotOf_chain : fld (s.slotOf core p).chain 0 16 = fld p.w[1] 0 16 := by
  change (BitVec.ofNat 64 (p.w[1].toNat / 2 ^ 0 % 2 ^ 19)).toNat / 2 ^ 0 % 2 ^ 16 = p.w[1].toNat / 2 ^ 0 % 2 ^ 16
  rw [BitVec.toNat_ofNat]
  omega

theorem slotOf_task : (s.slotOf core p).task.toNat = fld p.w[1] 32 32 :=
  (BitVec.toNat_ofNat ..).trans (Nat.mod_eq_of_lt ((Nat.mod_lt _ (by decide)).trans (by decide)))

end

/-! ## A context that returns -/

/-- A slot that differs from what stood there by its engines' parts alone. -/
def EnginesOnly (core n : Nat) (s t : State) : Prop := t.mem = s.mem ∧ ∃ v, t.slot core n = { s.slot core n with eng := v }

theorem deliverEngine_enginesOnly (s : State) (core n e : Nat) : EnginesOnly core n s (s.deliverEngine core n e) := by
  let f (p : EngPart) : EngPart :=
    { p with results := p.results ++ (s.mineFrom core n e).map (·.word), unfinished := p.unfinished - (s.mineFrom core n e).length }
  exact ⟨rfl, _, State.modSlot_slot s core n (·.modEngine e f)⟩

theorem deliverResults_enginesOnly (s : State) (core n : Nat) : EnginesOnly core n s (s.deliverResults core n) := by
  have hall (l : List Nat) (u : State) : EnginesOnly core n u (l.foldl (State.deliverEngine core n) u) := by
    induction l generalizing u with
    | nil => exact ⟨rfl, _, rfl⟩
    | cons e l ih =>
      obtain ⟨hm, v, hv⟩ := ih (u.deliverEngine core n e)
      obtain ⟨hm', v', hv'⟩ := deliverEngine_enginesOnly u core n e
      exact ⟨hm.trans hm', v, hv.trans (by rw [hv'])⟩
  exact hall _ s

theorem moveIn_slot (s : State) (core n i : Nat) (e : CtxEntry) : (s.moveIn core n i e).mem = s.mem ∧
    ∃ q v, (s.moveIn core n i e).slot core n = { e.ctx with st := .run, waiting := .none, quantum := q, dispatchedAt := s.cycle, eng := v } := by
  unfold State.moveIn
  obtain ⟨hm, v, hv⟩ := deliverResults_enginesOnly (s.modCore core fun k => Core.tally (Core.setSlot { k with
      accs := e.accs.foldl (fun (v : Vector Acc 8) (a : Nat × Acc) =>
        v.setIfInBounds a.1 ({ a.2 with claimed := true, owner := n, lock := none, queue := (vat Acc.init k.accs a.1).queue } : Acc)) k.accs
      planes := e.planes.foldl (fun (v : Vector Plane 4) (p : Nat × Plane) => v.setIfInBounds p.1 ({ p.2 with claimed := true, owner := n } : Plane))
        k.planes
      cache := Sparse.drop k.cache i } n { e.ctx with
        st := .run, waiting := .none, quantum := s.quantumFrom core e.ctx.quantum, dispatchedAt := s.cycle }) 0x1B n 1) core n
  refine ⟨hm, s.quantumFrom core e.ctx.quantum, v, hv.trans ?_⟩
  rw [State.slot, State.modCore_core, Core.tally_slot, Core.setSlot_slot]

theorem slotSearches : Claims.SlotSearches := by
  unfold Claims.SlotSearches
  refine ⟨?_, ?_, scopeAdmits_eq, ?_, ?_⟩
  · intro s core n b hw hs hf hb hd hn
    refine ⟨fun i e h => ?_, fun p d h hp hdead => ?_, fun v vs h he hv => ?_⟩
    · exact slotSearch_finds hw hs hf hb hd hn (searchBand_ready h)
    · exact slotSearch_finds hw hs hf hb hd hn (searchBand_pop h hp hdead)
    · exact slotSearch_finds hw hs hf hb hd hn (searchBand_steal h he hv)
  · intro s t core n b v rest p hs hw hfar hworld
    exact ⟨probeTakes hs hw hfar hworld, probeFails hs hw hfar⟩
  · rintro s core n p sl rfl
    rw [loadSlot_slot]
    obtain ⟨h1, h2, h3, h0⟩ := slotOf_regs s core p
    exact ⟨rfl, rfl, h1, h2, h3, h0, slotOf_pred s core p, rfl, rfl, rfl, slotOf_chain s core p, slotOf_task s core p,
      slotOf_tile s core p, rfl, rfl, rfl, rfl, rfl⟩
  · rintro s core n i e sl rfl
    obtain ⟨hm, q, v, hv⟩ := moveIn_slot s core n i e
    rw [hv]
    exact ⟨rfl, rfl, rfl, rfl, rfl, rfl, rfl, hm⟩

end Sys2Proof.Machine
end

section
/-! The events that move packets and contexts: the distributor, aging, swap-in, the moving of a waiting context, and the records of the
rotation (R59, R60, R64, R66, R101, R274). -/

-- One declaration after another: checked side by side, these take more threads than the memory of the check holds.
set_option Elab.async false

namespace Sys2Proof.Machine

open Sys2Proof.Claims

section
variable {s t : State} {core n b : Nat}

/-! ## Deques of a core -/

theorem Core.modDeque_deque (k : Core) (f : Deque → Deque) (hb : b < 4) :
    vat Deque.init (k.modDeque b f).deques b = f (vat Deque.init k.deques b) := vat_setIfInBounds _ _ _ hb

theorem Core.modDeque_deque_of_ne (k : Core) (f : Deque → Deque) {c : Nat} (h : b ≠ c) :
    vat Deque.init (k.modDeque b f).deques c = vat Deque.init k.deques c := vat_setIfInBounds_of_ne _ _ _ h

/-- A push where the hardware part has room. -/
theorem pushLocal_room {p : Packet} (h : (vat Deque.init (s.core core).deques b).hw.length < 64) :
    s.pushLocal core b p = some (s.modCore core fun k => k.modDeque b fun e => { e with hw := p :: e.hw }) := if_pos h

/-! ## Reads of the queue hardware -/

/-- A read of the queue hardware touches the memory-side cache at most. -/
theorem queuedWords_keeps (s : State) (w a : Nat) : (s.queuedWords w a).2.mem = s.mem ∧ (s.queuedWords w a).2.cores = s.cores ∧
    (s.queuedWords w a).2.worlds = s.worlds := by
  have hread : (s.queuedWords w a).2 = (s.queueRead w a 64).2 := rfl
  rw [hread, State.queueRead]
  split
  · dsimp only
    split
    · exact ⟨rfl, rfl, rfl⟩
    · exact ⟨rfl, rfl, rfl⟩
  · exact ⟨rfl, rfl, rfl⟩

theorem queuedWords_of_same (hm : t.mem = s.mem) (hw : t.worlds = s.worlds) (hc : t.chains = s.chains) (w a : Nat) :
    (t.queuedWords w a).1 = (s.queuedWords w a).1 := by
  have hread : (t.queueRead w a 64).1 = (s.queueRead w a 64).1 := by
    have hpa : t.wpaToDpa w a = s.wpaToDpa w a := by rw [State.wpaToDpa, State.world, hw]; rfl
    rw [State.queueRead, State.queueRead, hpa]
    cases s.wpaToDpa w a with
    | none => rfl
    | some loc => exact State.bytes_of_mem hm loc 64
  change t.acceptWords w (packetWords (t.queueRead w a 64).1) = s.acceptWords w (packetWords (s.queueRead w a 64).1)
  rw [hread, State.acceptWords, State.acceptWords, State.chain, State.chain, hc]

/-! ## The distributor (R59) -/

theorem launchPop_head {w : Nat} {p : Packet} {ps : List Packet} {rest : List Segment} (hl : (s.world w).launch = ⟨p :: ps, none⟩ :: rest)
    (hr : (s.world w).ringLen = 0) : s.launchPop w =
      some (p, s.modWorld w fun x => { x with launch := if ps.isEmpty then rest else ⟨ps, none⟩ :: rest }) := by
  have hfill : ((s.modWorld w fun x => { x with launch := if ps.isEmpty then rest else ⟨ps, none⟩ :: rest }).world w).ringLen = 0 := by
    rw [State.modWorld_world]
    exact hr
  simp only [State.launchPop, hl, Option.isSome_none, if_neg Bool.false_ne_true, State.launchFill, if_pos hfill]

theorem distributor {w c : Nat} {p : Packet} {ps : List Packet} {rest : List Segment} (hl : (s.world w).launch = ⟨p :: ps, none⟩ :: rest)
    (hr : (s.world w).ringLen = 0) (hc : (coresFrom (s.world w).lastCore (s.coresOf w)).find? (fun c =>
      decide ((vat Deque.init (s.core c).deques p.band).hw.length < 64) && (vat Deque.init (s.core c).deques p.band).spill.isEmpty &&
      !(s.core c).zeroing) = some c) :
    ∃ t, exec (.distributorDelivery w) s = .next t ∧
      (t.world w).launch = (if ps = [] then rest else ⟨ps, none⟩ :: rest) ∧ (t.world w).lastCore = some c ∧
      (vat Deque.init (t.core c).deques p.band).hw = (vat Deque.init (s.core c).deques p.band).hw ++ [{ p with since := s.cycle }] ∧
      t.mem = s.mem := by
  have hworld : (((s.modWorld w fun x => { x with launch := if ps.isEmpty then rest else ⟨ps, none⟩ :: rest }).modWorld w
      fun x => { x with lastCore := some c }).world w) =
      { s.world w with launch := if ps.isEmpty then rest else ⟨ps, none⟩ :: rest, lastCore := some c } := by
    rw [State.modWorld_world, State.modWorld_world]
  refine ⟨((s.modWorld w fun x => { x with launch := if ps.isEmpty then rest else ⟨ps, none⟩ :: rest }).modWorld w
      fun x => { x with lastCore := some c }).modCore c fun k => k.modDeque p.band fun d => { d with hw := d.hw ++ [{ p with since := s.cycle }] },
    ?_, ?_, ?_, ?_, rfl⟩
  · change event (distributorDelivery w) s = _
    simp only [event, distributorDelivery, M.bind_apply, M.get_apply, launchPop_head hl hr, hc, M.set_apply]
  · rw [State.world, State.modCore_worlds, ← State.world, hworld]
    cases ps with
    | nil => rfl
    | cons q qs => rfl
  · rw [State.world, State.modCore_worlds, ← State.world, hworld]
  · have hband : p.band < 4 := Nat.mod_lt _ (by decide)
    rw [State.modCore_core, Core.modDeque_deque _ _ hband]
    rfl

/-! ## Aging (R64) -/

/-- What a packet leaves behind it as it moves one band higher. -/
theorem aged_deques {u : State} {p : Packet} (hb : b < 3)
    (h : vat Deque.init (u.core core).deques (b + 1) = vat Deque.init (s.core core).deques (b + 1))
    (hroom : (vat Deque.init (s.core core).deques (b + 1)).hw.length < 64) : ∃ t, u.pushLocal core (b + 1) p = some t ∧ t.mem = u.mem ∧
      vat Deque.init (t.core core).deques b = vat Deque.init (u.core core).deques b ∧
      (vat Deque.init (t.core core).deques (b + 1)).hw = p :: (vat Deque.init (s.core core).deques (b + 1)).hw := by
  refine ⟨_, pushLocal_room (h ▸ hroom), rfl, ?_, ?_⟩
  · rw [State.modCore_core, Core.modDeque_deque_of_ne _ _ (by omega)]
  · rw [State.modCore_core, Core.modDeque_deque _ _ (by omega), h]

theorem packetAging_spill {p q : Packet} {g : Segment} {u : State} (hb : b < 3) (hun : Untaken s core b)
    (hg : (vat Deque.init (s.core core).deques b).spill.getLast? = some g) (hq : g.pkts.getLast? = some q) (hage : s.ages q = true)
    (ho : s.takeOldest core b = some (p, t)) (hp : t.pushLocal core (b + 1) { p with aged := true } = some u) :
    exec (.packetAging core b) s = .next u := by
  change event (packetAging core b) s = _
  simp only [event, packetAging, M.bind_apply, decide_eq_true hb, require_true, M.get_apply, hun, Option.isNone_none, hg,
    Option.bind_some, hq, Option.any_some, hage, if_true, ho, hp, M.set_apply]

theorem packetAging_hw {p : Packet} {u : State} (hb : b < 3) (hun : Untaken s core b)
    (hold : (((vat Deque.init (s.core core).deques b).spill.getLast?.bind fun g => g.pkts.getLast?).any s.ages) = false)
    (hl : (vat Deque.init (s.core core).deques b).hw.getLast? = some p) (hage : s.ages p = true)
    (hp : (s.modCore core fun k => k.modDeque b fun e => { e with hw := e.hw.dropLast }).pushLocal core (b + 1) { p with aged := true } = some u) :
    exec (.packetAging core b) s = .next u := by
  change event (packetAging core b) s = _
  simp only [event, packetAging, M.bind_apply, decide_eq_true hb, require_true, M.get_apply, hun, Option.isNone_none, hold,
    if_neg Bool.false_ne_true, hl, Option.filter_some, hage, if_true, hp, M.set_apply]

/-- The hardware part's far-end entry ages where the spill list's oldest one does not. -/
theorem ages_hw {p : Packet} (hb : b < 3) (hun : Untaken s core b)
    (hold : (((vat Deque.init (s.core core).deques b).spill.getLast?.bind fun g => g.pkts.getLast?).any s.ages) = false)
    (hl : (vat Deque.init (s.core core).deques b).hw.getLast? = some p) (hage : s.ages p = true)
    (hroom : (vat Deque.init (s.core core).deques (b + 1)).hw.length < 64) :
    ∃ t, exec (.packetAging core b) s = .next t ∧
      vat Deque.init (t.core core).deques b = { vat Deque.init (s.core core).deques b with hw := (vat Deque.init (s.core core).deques b).hw.dropLast } ∧
      (vat Deque.init (t.core core).deques (b + 1)).hw = { p with aged := true } :: (vat Deque.init (s.core core).deques (b + 1)).hw := by
  obtain ⟨u, hu, -, hdb, hdn⟩ := aged_deques (s := s) (p := { p with aged := true })
    (u := s.modCore core fun k => k.modDeque b fun e => { e with hw := e.hw.dropLast }) hb
    (by rw [State.modCore_core, Core.modDeque_deque_of_ne _ _ (by omega)]) hroom
  refine ⟨u, packetAging_hw hb hun hold hl hage hu, hdb.trans ?_, hdn⟩
  rw [State.modCore_core, Core.modDeque_deque _ _ (by omega)]

theorem ages_farEnd {p : Packet} (hb : b < 3) (hun : Untaken s core b) (hage : s.ages p = true)
    (hroom : (vat Deque.init (s.core core).deques (b + 1)).hw.length < 64)
    (hfar : (vat Deque.init (s.core core).deques b).farEnd = some p) :
    ∃ t, exec (.packetAging core b) s = .next t ∧ vat Deque.init (t.core core).deques b = (vat Deque.init (s.core core).deques b).dropFar ∧
      (vat Deque.init (t.core core).deques (b + 1)).hw = { p with aged := true } :: (vat Deque.init (s.core core).deques (b + 1)).hw := by
  cases hg : (vat Deque.init (s.core core).deques b).spill.getLast? with
  | none =>
    rw [Deque.farEnd, hg] at hfar
    obtain ⟨t, ht, hdb, hdn⟩ := ages_hw hb hun (by rw [hg]; rfl) hfar hage hroom
    refine ⟨t, ht, hdb.trans ?_, hdn⟩
    rw [Deque.dropFar, hg]
  | some g =>
    rw [Deque.farEnd, hg] at hfar
    obtain ⟨hsw, hq⟩ : g.swapped = none ∧ g.pkts.getLast? = some p := by simpa using hfar
    obtain ⟨u, hu, -, hdb, hdn⟩ := aged_deques (s := s) (p := { p with aged := true })
      (u := s.modCore core fun k => k.modDeque b Deque.dropFar) hb
      (by rw [State.modCore_core, Core.modDeque_deque_of_ne _ _ (by omega)]) hroom
    refine ⟨u, packetAging_spill hb hun hg hq hage ?_ hu, hdb.trans ?_, hdn⟩
    · simp only [State.takeOldest, hg, hq, hsw]
    · rw [State.modCore_core, Core.modDeque_deque _ _ (by omega)]

/-- An oldest entry that lies in the swap area moves as memory now holds it. -/
theorem ages_swapped {p : Packet} {g : Segment} {n : Nat} (hb : b < 3) (hun : Untaken s core b) (hage : s.ages p = true)
    (hroom : (vat Deque.init (s.core core).deques (b + 1)).hw.length < 64)
    (hg : (vat Deque.init (s.core core).deques b).spill.getLast? = some g) (hn : g.swapped = some n) (hq : g.pkts.getLast? = some p) :
    ∃ t, exec (.packetAging core b) s = .next t ∧ vat Deque.init (t.core core).deques b = (vat Deque.init (s.core core).deques b).dropFar ∧
      t.mem = s.mem ∧ (vat Deque.init (t.core core).deques (b + 1)).hw = { p with
        w := (s.queuedWords (s.core core).world (s.swapAddr (s.core core).world n + 64 * (g.pkts.length - 1))).1, aged := true } ::
        (vat Deque.init (s.core core).deques (b + 1)).hw := by
  have hkeep := queuedWords_keeps (s.modCore core fun k => k.modDeque b Deque.dropFar) (s.core core).world
    (s.swapAddr (s.core core).world n + 64 * (g.pkts.length - 1))
  have hwords := queuedWords_of_same (s := s) (t := s.modCore core fun k => k.modDeque b Deque.dropFar) rfl rfl rfl (s.core core).world
    (s.swapAddr (s.core core).world n + 64 * (g.pkts.length - 1))
  obtain ⟨q, u, ho, hqw, hm, hc⟩ : ∃ q u, s.takeOldest core b = some (q, u) ∧ q = { p with
      w := (s.queuedWords (s.core core).world (s.swapAddr (s.core core).world n + 64 * (g.pkts.length - 1))).1 } ∧ u.mem = s.mem ∧
      u.cores = (s.modCore core fun k => k.modDeque b Deque.dropFar).cores := by
    rw [← hwords]
    simp only [State.takeOldest, hg, hq, hn]
    refine ⟨_, _, rfl, rfl, ?_⟩
    split
    · exact ⟨hkeep.1, hkeep.2.1⟩
    · exact ⟨hkeep.1, hkeep.2.1⟩
  have hcore : u.core core = (s.core core).modDeque b Deque.dropFar := by
    rw [State.core, hc, ← State.core, State.modCore_core]
  obtain ⟨v, hv, hmv, hdb, hdn⟩ := aged_deques (s := s) (p := { q with aged := true }) (u := u) hb
    (by rw [hcore, Core.modDeque_deque_of_ne _ _ (by omega)]) hroom
  refine ⟨v, packetAging_spill hb hun hg hq hage ho hv, hdb.trans ?_, hmv.trans hm, hdn.trans (by rw [hqw])⟩
  rw [hcore, Core.modDeque_deque _ _ (by omega)]

/-! ## Swap-in (R60) -/

/-- Reads of the queue hardware one after another. -/
theorem queuedReads_keep (w : Nat) (at_ : Nat → Nat) (l : List Nat) (s : State) :
    (l.foldl (fun t j => (t.queuedWords w (at_ j)).2) s).mem = s.mem ∧ (l.foldl (fun t j => (t.queuedWords w (at_ j)).2) s).cores = s.cores := by
  induction l generalizing s with
  | nil => exact ⟨rfl, rfl⟩
  | cons j l ih =>
    obtain ⟨hm, hc, -⟩ := queuedWords_keeps s w (at_ j)
    obtain ⟨hm', hc'⟩ := ih (s.queuedWords w (at_ j)).2
    exact ⟨hm'.trans hm, hc'.trans hc⟩

/-- The first swapped segment of a list, by its place. -/
theorem find_swapped {l : List Segment} {f : Nat → Bool} {i n : Nat} {g : Segment} (hf : ∀ j g, l[j]? = some g → f j = g.swapped.isSome)
    (hg : l[i]? = some g) (hn : g.swapped = some n) (hfirst : ∀ x ∈ l.take i, x.swapped = none) : (List.range l.length).find? f = some i := by
  have hi : i < l.length := (List.getElem?_eq_some_iff.1 hg).1
  rw [List.find?_range_eq_some]
  refine ⟨by rw [hf i g hg, hn]; rfl, List.mem_range.2 hi, fun j hj => ?_⟩
  have hlt : j < l.length := hj.trans hi
  rw [hf j _ (List.getElem?_eq_getElem hlt), hfirst _ (List.mem_take_iff_getElem.2 ⟨j, by omega, rfl⟩)]
  rfl

/-- The segments of a deque with one back in the queue SRAM, as memory holds its packets. -/
def swappedIn (s : State) (core b i n : Nat) (g : Segment) : State :=
  let w := (s.core core).world
  let at_ := fun (j : Nat) => s.swapAddr w n + 64 * j
  let s0 := (List.range g.pkts.length).foldl (fun t j => (t.queuedWords w (at_ j)).2) s
  (s0.modWorld w fun x => { x with swapUsed := x.swapUsed.filter (· ≠ n) }).setSegments core b
    ((vat Deque.init (s.core core).deques b).spill.set i ⟨g.pkts.mapIdx fun j p => { p with w := (s.queuedWords w (at_ j)).1 }, none⟩)

theorem swapIn_first {i n : Nat} {g : Segment} (hroom : s.sramSegments (clusterOf core) < Config.queueSramSegments) (hb : b < 4)
    (hg : (vat Deque.init (s.core core).deques b).spill[i]? = some g) (hn : g.swapped = some n)
    (hfirst : ∀ x ∈ (vat Deque.init (s.core core).deques b).spill.take i, x.swapped = none) :
    exec (.queueSegmentSwapIn core b) s = .next (swappedIn s core b i n g) := by
  have hseg : s.segmentsAt core b = (vat Deque.init (s.core core).deques b).spill := if_neg (by omega)
  have hband : ¬((decide (5 ≤ b) && decide (b ≤ 12)) = true) := by simp; omega
  have hreq : (decide (s.sramSegments (clusterOf core) < Config.queueSramSegments) &&
      (decide (b < 4) || (s.coresOf (s.core core).world).head? == some core)) = true := by simp [hroom, hb]
  change event (queueSegmentSwapIn core b) s = _
  simp only [event, queueSegmentSwapIn, M.bind_apply, M.get_apply, if_neg hband, hseg, hreq, require_true]
  rw [find_swapped (fun j g h => ?_) hg hn hfirst]
  · simp only [hg, hn, Option.getD_some, M.set_apply]
    rfl
  · simp only [h]

theorem swapIn_keeps {i n : Nat} {g : Segment} (hb : b < 4) (hg : (vat Deque.init (s.core core).deques b).spill[i]? = some g) :
    (swappedIn s core b i n g).mem = s.mem ∧ (vat Deque.init ((swappedIn s core b i n g).core core).deques b).spill[i]? =
      some ⟨g.pkts.mapIdx fun j p => { p with w := (s.queuedWords (s.core core).world (s.swapAddr (s.core core).world n + 64 * j)).1 }, none⟩ := by
  obtain ⟨hm, hc⟩ := queuedReads_keep (s.core core).world (fun j => s.swapAddr (s.core core).world n + 64 * j) (List.range g.pkts.length) s
  rw [swappedIn, State.setSegments, if_neg (by omega)]
  refine ⟨hm, ?_⟩
  rw [State.modCore_core, Core.modDeque_deque _ _ hb]
  exact List.getElem?_set_self (List.getElem?_eq_some_iff.1 hg).1

/-! ## A context that moves (R66) -/

theorem Core.queueRecord_leaving (c : Core) (cause : Byte) (n aux : Nat) : (c.queueRecord cause n aux).leaving = c.leaving := by
  rw [Core.queueRecord]
  split
  · rfl
  · rfl

theorem Core.dropCopyFault_leaving (c : Core) (n : Nat) : (c.dropCopyFault n).leaving = c.leaving := by
  rw [Core.dropCopyFault]
  split
  · exact Core.queueRecord_leaving ..
  · rfl

theorem Sparse.find_put_self {α : Type} (m : Sparse α) (k : Nat) (v : α) : (Sparse.put m k v).find? (fun e => decide (e.1 = k)) = some (k, v) := by
  induction m with
  | nil => simp [Sparse.put]
  | cons x m ih =>
    obtain ⟨j, y⟩ := x
    rw [Sparse.put]
    split
    · simp
    · split
      · simp
      · next h => simpa [Ne.symm h] using ih

/-- What a context that moves leaves in its core. -/
structure MovedOut (s : State) (core n e : Nat) (st : CtxSt) (t : State) : Prop where
  leaving : (t.core core).leaving = (s.core core).leaving
  slot : t.slot core n = Slot.init
  byte : ∀ loc, inSpill core loc = false ∨ (s.slot core n).spill = 0 → t.byte loc = s.byte loc
  entry : ∃ x, (t.core core).cache.find? (fun q => decide (q.1 = e)) = some (e, x) ∧ x.ctx.pc = (s.slot core n).pc ∧
    x.ctx.tiles = (s.slot core n).tiles ∧ x.st = st

theorem spillMoved_keeps (s : State) (core n : Nat) {u : State} (h : u = if (s.slot core n).spill = 0 then s else s.spillMoved core) :
    (u.core core).leaving = (s.core core).leaving ∧ u.slot core n = s.slot core n ∧
    ∀ loc, inSpill core loc = false ∨ (s.slot core n).spill = 0 → u.byte loc = s.byte loc := by
  subst h
  by_cases h : (s.slot core n).spill = 0
  · rw [if_pos h]
    exact ⟨rfl, rfl, fun _ _ => rfl⟩
  · rw [if_neg h]
    refine ⟨?_, ?_, fun loc hloc => ?_⟩
    · have hcore : (s.spillMoved core).core core = { s.core core with spillSeq := some s.freeCtr } :=
        State.modCore_core s core fun k => { k with spillSeq := some s.freeCtr }
      rw [hcore]
    · exact State.modCore_slot_of_slots s (f := fun k => { k with spillSeq := some s.freeCtr }) (fun _ => rfl) core core n
    · have hout : inSpill core loc = false := hloc.resolve_right h
      have := Sparse.get_filter unlistedByte (fun l => !inSpill core l) s.mem loc
      rw [hout] at this
      exact this

/-- A slot given free in a core, with a context put into its cache. -/
theorem putContext (u : State) (core n e : Nat) (g : Core → Core) (x : CtxEntry) {t : State}
    (h : t = u.modCore core fun k => { (g k).setSlot n Slot.init with cache := Sparse.put (g k).cache e x }) :
    (t.core core).leaving = (g (u.core core)).leaving ∧ t.slot core n = Slot.init ∧ t.mem = u.mem ∧
    (t.core core).cache.find? (fun q => decide (q.1 = e)) = some (e, x) := by
  subst h
  rw [State.slot, State.modCore_core]
  exact ⟨rfl, Core.setSlot_slot .., rfl, Sparse.find_put_self ..⟩

theorem moveOut_moved (s : State) (core n e : Nat) (st : CtxSt) : MovedOut s core n e st (s.moveOut core n e st) := by
  obtain ⟨hl, hs, hbyte⟩ := spillMoved_keeps s core n rfl
  rw [State.moveOut]
  generalize (if (s.slot core n).spill = 0 then s else s.spillMoved core) = u at hl hs hbyte
  obtain ⟨hleft, hslot, hm, hentry⟩ := putContext u core n e (fun k =>
    ((k.dropCopyFault n).dropUnits u.cycle n (u.slot core n).myAccs (u.slot core n).myPlanes).dropQuantumRecord n) _ rfl
  refine ⟨hleft.trans ((Core.dropCopyFault_leaving ..).trans hl), hslot, fun loc h => (congrArg (Sparse.get unlistedByte · loc) hm).trans (hbyte loc h),
    _, hentry, ?_, ?_, rfl⟩
  · rw [← hs]
    rfl
  · rw [← hs]
    rfl

theorem contextMove_moves {e : Nat} {rest : List Nat} {p : Park} {told : Bool} (hl : (s.core core).leaving = n :: rest)
    (hd : s.hasDeferred core (s.slot core n).uid = false) (hu : s.unitsLocked core n = false)
    (hr : (s.core core).roomFor (s.slot core n).spill = some e) (hw : (s.slot core n).waiting = .leaving p told) :
    exec (.contextMove core) s = .next ((s.modCore core fun k => { k with leaving := rest }).moveOut core n e (s.parkedAs (s.slot core n) p)) := by
  change event (contextMove core) s = _
  simp only [event, contextMove, M.bind_apply, M.get_apply, hl, hr, hw, hd, hu, Bool.not_false, Bool.and_self, require_true, M.set_apply]

theorem contextMove_waits {rest : List Nat} {p : Park} (hl : (s.core core).leaving = n :: rest)
    (hr : (s.core core).roomFor (s.slot core n).spill = none) (hw : (s.slot core n).waiting = .leaving p false) :
    exec (.contextMove core) s = .next ((s.modSlot core n fun x => { x with waiting := .leaving p true }).modCore core
      (·.queueRecord Cause.ctxFull n 0)) := by
  change event (contextMove core) s = _
  simp only [event, contextMove, M.bind_apply, M.get_apply, hl, hr, hw, M.set_apply]

theorem contextAging_ages {i : Nat} {e : CtxEntry} (hf : (s.core core).cache.find? (fun e => decide (e.1 = i)) = some (i, e))
    (hb : e.bumped = false) (hu : (s.core core).unitsFree e = true) (hst : e.st = .parked (.ready n)) (hn : n + 65536 < s.cycle) :
    exec (.contextAging core i) s = .next (s.modCore core fun k => { k with cache := Sparse.put k.cache i { e with bumped := true } }) := by
  have hsince : e.readySince = some n := by rw [CtxEntry.readySince, hst]
  change event (contextAging core i) s = _
  simp only [event, contextAging, M.bind_apply, M.get_apply, hf, hb, hu, hsince, decide_eq_true hn, Bool.not_false, Bool.and_self, require_true,
    M.set_apply]

/-! ## Records of the rotation (R101, R274) -/

theorem quantumExpiry_ends {q : Nat} (hq : (s.slot core n).quantum = some q) (hst : (s.slot core n).st ≠ .free) (hle : q ≤ s.coreCycle core) :
    exec (.quantumExpiry core n) s = .next (if s.retires core n then s.modSlot core n fun x => { x with quantum := none }
      else (s.modSlot core n fun x => { x with quantum := none }).modCore core (·.queueRecord Cause.quantum n 0)) := by
  change event (quantumExpiry core n) s = _
  simp only [event, quantumExpiry, M.bind_apply, M.get_apply, hq, decide_eq_true hst, decide_eq_true hle, Bool.and_self, require_true, M.set_apply]

theorem preemptReq_records (hw : s.workWaits core b = true) (hlow : ∀ n, n < 14 → (s.slot core n).st ≠ .free ∧ (s.slot core n).band < b) :
    exec (.preemptReq core b) s = .next (s.modCore core (·.queueRecord Cause.preemptReq (s.lowestSlot core) b)) := by
  have hall : ((List.range 14).all fun n => decide ((s.slot core n).st ≠ .free) && decide ((s.slot core n).band < b)) = true := by
    refine List.all_eq_true.2 fun n hn => ?_
    obtain ⟨hst, hband⟩ := hlow n (List.mem_range.1 hn)
    rw [decide_eq_true hst, decide_eq_true hband]
    rfl
  change event (preemptReqRecord core b) s = _
  simp only [event, preemptReqRecord, M.bind_apply, M.get_apply, hw, hall, Bool.and_self, require_true, M.set_apply]

end

theorem queueEvents : Claims.QueueEvents := by
  unfold Claims.QueueEvents
  refine ⟨fun s w c p ps rest => distributor, ?_, ?_, ?_, ?_, ?_, ?_, ?_, ?_⟩
  · rintro s core b p d hb rfl hun haged hsince hroom
    have hage : s.ages p = true := by simp [State.ages, haged, hsince]
    refine ⟨ages_farEnd hb hun hage hroom, fun g n => ages_swapped hb hun hage hroom, ?_⟩
    rintro ⟨g, q, hg, hq, hyoung⟩ hl
    exact ages_hw hb hun (by rw [hg, Option.bind_some, hq]; exact hyoung) hl hage hroom
  · exact fun s core i n e => contextAging_ages
  · intro s core b i n g hroom hb hg hn hfirst
    obtain ⟨hm, hseg⟩ := swapIn_keeps (n := n) hb hg
    refine ⟨_, _, swapIn_first hroom hb hg hn hfirst, hm, hseg, rfl, List.length_mapIdx, fun j p hp => ?_⟩
    rw [List.getElem?_mapIdx, Option.map_eq_some_iff] at hp
    obtain ⟨q, -, rfl⟩ := hp
    rfl
  · intro s t core b hlo hhi hlog
    have hband : (decide (5 ≤ b) && decide (b ≤ 12)) = true := by simp [hlo, hhi]
    change event (queueSegmentSwapIn core b) s = _
    simp only [event, queueSegmentSwapIn, M.bind_apply, M.get_apply, if_pos hband, hlog, M.set_apply]
  · intro s core n e rest p told hl hd hu hr hw
    have hslot : (s.modCore core fun k => { k with leaving := rest }).slot core n = s.slot core n :=
      State.modCore_slot_of_slots s (f := fun k => { k with leaving := rest }) (fun _ => rfl) core core n
    obtain ⟨hleft, hsl, hbyte, x, hx⟩ := moveOut_moved (s.modCore core fun k => { k with leaving := rest }) core n e (s.parkedAs (s.slot core n) p)
    rw [hslot] at hbyte hx
    refine ⟨_, x, contextMove_moves hl hd hu hr hw, hleft.trans ?_, hsl, hbyte, hx⟩
    rw [State.modCore_core]
  · exact fun s core n rest p => contextMove_waits
  · exact fun s core n q => quantumExpiry_ends
  · exact fun s core b => preemptReq_records

/-- Settles O37: a search passes the bands that have nothing and ends at the first that has something, and each of the queues' events is
traced through its conditions. -/
theorem slotSearchesAndQueues : Obligations.SlotSearchesAndQueues := ⟨slotSearches, queueEvents⟩

end Sys2Proof.Machine
end

section
/-! The image of a context: CTXOUT and CTXIN through their checks (R280 to R283). -/

-- One declaration after another: checked side by side, these take more threads than the memory of the check holds.
set_option Elab.async false

namespace Sys2Proof.Machine

open Sys2Proof.Claims

section
variable {s t u r k v : State} {d a : Reg} {x : CopyDesc} {caps : List Cap}

theorem readCtxDesc_threads {ea : W64} (h : readCtxDesc ea s = .ok (x, caps) u) : ThreadsKept s u := by
  have hR := ThreadsKept.carries
  have hdoes : Does ThreadsKept (readCtxDesc ea) := by
    unfold readCtxDesc
    refine Does.when hR (fun _ => Does.trapAt hR _ _ _ _) fun _ => Does.when hR (fun _ => Does.trapXlate hR _ _ _) fun _ => ?_
    exact Does.bind hR (Does.bind hR (Does.whoMe hR) fun w => (readSpan_does w _ _ _ _).threadsKept) fun _ => Does.pure hR _
  exact hdoes.ok h

theorem imageAddr_ok {ea : W64} (h16 : ea.toNat % 16 = 0) (h3 : fld ea 61 3 = 0) (s : State) : imageAddr ea s = .ok () s := by
  simp only [imageAddr, if_neg (not_not_intro h16), if_neg (not_not_intro h3), M.pure_apply]

/-- What a CTXOUT knows of itself once its operands are checked. -/
structure CtxOutStart (s u r : State) (a : Reg) (x : CopyDesc) (caps : List Cap) (e0 : CtxEntry) (i index wlen woff n counter : Nat) : Prop where
  desc : readCtxDesc (s.src a) s.issue = .ok (x, caps) u
  iEq : i = fld x.mb0 0 6
  indexEq : index = fld x.mb0 32 12
  wlenEq : wlen = fld x.size 32 18
  woffEq : woff = fld x.size 0 18
  entry : u.myCore.cache.find? (fun q => decide (q.1 = i)) = some (i, e0)
  fields : fld x.mb0 44 20 = 0 ∧ fld x.mb0 6 26 = 0 ∧ fld x.size 50 14 = 0 ∧ fld x.size 18 14 = 0
  window : wlen % 64 = 0 ∧ woff % 64 = 0 ∧ woff + wlen ≤ 0x30000
  addr : x.src.toNat % 16 = 0 ∧ fld x.src 61 3 = 0
  released : releaseAll u = .ok () r
  nEq : n = imageLen e0.ctx.liveTiles.length e0.rowsInAll e0.accs.length e0.planes.length wlen
  counterEq : counter = Sparse.get 0 (r.world s.myWorld).counters index

/-- The end of a CTXOUT, once its image is known to fit. -/
def ctxoutWrites (d : Reg) (x : CopyDesc) (caps : List Cap) (core : Nat) (w : Who) (e0 : CtxEntry) (i index wlen woff n counter : Nat) : M Unit := do
  imageWordsFree w x.src n
  let e := e0.takeOut
  modify fun s =>
    let s1 := s.unwait e.ctx.uid
    let s2 := s1.modWorld w.world fun y =>
      { y with counters := Sparse.put y.counters index (counter + 1), saved := Sparse.put y.saved index e.ctx.uid }
    (s2.dropSaved w.world index).modCore core fun k => { k with cache := Sparse.put k.cache i e }
  let s ← get
  let img := sealed (s.imageKey w.world index) (imageHeader e (counter + 1) w.world index n woff wlen) (s.imageBody core e n woff wlen)
  let first := 64 - x.src.toNat % 64
  writeImage w x.src (img.take first) 1
  chargeCaps caps
  writeImage w (x.src + w64 first) (img.drop first) (n / 64 + 1)
  modify fun s => (s.modWorld w.world fun y => { y with savedChain := Sparse.put y.savedChain index (fld e.ctx.chain 0 16) }).modCore core
    fun k => { k with cache := Sparse.drop k.cache i }
  wr d (w64 n)

/-- The rest of a CTXOUT behind its release, the key dead or not. -/
def ctxoutRest (dead : Bool) (d : Reg) (x : CopyDesc) (caps : List Cap) (core : Nat) (w : Who) (e0 : CtxEntry)
    (i index wlen woff n counter : Nat) : M Unit := do
  if n > x.dst.toNat || counter = 2 ^ 32 - 1 then
    chargeCaps caps
    wr d 0
  else
    if dead then trapAt Cause.keylease x.src
    ctxoutWrites d x caps core w e0 i index wlen woff n counter

section
variable {e0 : CtxEntry} {i index wlen woff n counter : Nat}

theorem CtxOutStart.threads (h : CtxOutStart s u r a x caps e0 i index wlen woff n counter) : ThreadsKept s.issue r :=
  (readCtxDesc_threads h.desc).trans (releaseAll_kept.ok h.released)

theorem CtxOutStart.who (h : CtxOutStart s u r a x caps e0 i index wlen woff n counter) : r.who = s.who :=
  (ThreadsKept.who_eq h.threads).trans s.issue_who

/-- CTXOUT goes through its checks to what is behind its release. -/
theorem CtxOutStart.reaches (h : CtxOutStart s u r a x caps e0 i index wlen woff n counter) (h15 : s.cur.slot = 15)
    {b : EStateM.Result Stop State Unit} (hrest : ctxoutRest (r.ctxKeyDead s.myWorld) d x caps s.cur.core s.who e0 i index wlen woff n counter r = b) :
    ∃ m : M Unit, exec (.ctxout d a) s = run (waiting [a] (some d) m) s ∧ m s.issue = b := by
  have hcur : u.cur = s.cur := (readCtxDesc_threads h.desc).cur_eq.trans s.issue_cur
  have hwho := h.who
  have hworld : r.myWorld = s.myWorld := congrArg Who.world hwho
  obtain ⟨hdesc, rfl, rfl, rfl, rfl, hentry, ⟨hf1, hf2, hf3, hf4⟩, ⟨hw1, hw2, hw3⟩, ⟨h16, h3⟩, hrel, rfl, hc⟩ := h
  have hno1 : ¬(decide (fld x.mb0 44 20 ≠ 0) || decide (fld x.mb0 6 26 ≠ 0) || decide (fld x.size 50 14 ≠ 0) || decide (fld x.size 18 14 ≠ 0)) =
    true := by
    simp [hf1, hf2, hf3, hf4]
  have hno2 : ¬(decide (fld x.size 32 18 % 64 ≠ 0) || decide (fld x.size 0 18 % 64 ≠ 0) || decide (fld x.size 0 18 + fld x.size 32 18 > 0x30000)) =
    true := by
    simp [hw1, hw2, hw3]
  have hcore : u.myCore = u.core s.cur.core := by rw [State.myCore, hcur]
  refine ⟨_, rfl, ?_⟩
  rw [← hrest]
  simp only [M.bind_apply, supOnly_ok (s.issue_cur ▸ h15), rd_apply, State.issue_src, hdesc, M.get_apply, hcur, ← hcore, hentry, if_neg hno1,
    if_neg hno2,
    imageAddr_ok h16 h3, hrel, whoMe_apply, hwho]
  rw [hc]
  rfl

theorem ctxout_noRoom (h : CtxOutStart s u r a x caps e0 i index wlen woff n counter) (hp : NoPort s [a] (some d)) (h15 : s.cur.slot = 15)
    (hno : x.dst.toNat < n ∨ counter = 2 ^ 32 - 1) : exec (.ctxout d a) s = .next (((r.chargeAll caps).writeMine d 0).finish) := by
  have hguard : (decide (n > x.dst.toNat) || decide (counter = 2 ^ 32 - 1)) = true := by simpa using hno
  obtain ⟨m, hm, hr⟩ := h.reaches (d := d) h15 (b := .ok () ((r.chargeAll caps).writeMine d 0)) <| by
    simp only [ctxoutRest, if_pos hguard, M.bind_apply, chargeCaps_apply, wr_apply]
  rw [hm]
  exact run_waiting hp hr

theorem ctxout_keyDead (h : CtxOutStart s u r a x caps e0 i index wlen woff n counter) (hp : NoPort s [a] (some d)) (h15 : s.cur.slot = 15)
    (hn : n ≤ x.dst.toNat) (hc : counter ≠ 2 ^ 32 - 1) (hdead : r.ctxKeyDead s.myWorld = true) :
    exec (.ctxout d a) s = .next (takeTrap ⟨Cause.keylease, x.src, 0, 0xFFFF⟩ r) := by
  have hguard : ¬(decide (n > x.dst.toNat) || decide (counter = 2 ^ 32 - 1)) = true := by simpa using ⟨hn, hc⟩
  obtain ⟨m, hm, hr⟩ := h.reaches (d := d) h15 (b := .error (.trap ⟨Cause.keylease, x.src, 0, tfmtNone⟩) r) <| by
    simp only [ctxoutRest, if_neg hguard, M.bind_apply, hdead, if_true, trapAt_apply]
  rw [hm]
  exact run_waiting_trap hp hr

theorem ctxout_writes {img : List Byte} (h : CtxOutStart s u r a x caps e0 i index wlen woff n counter) (hp : NoPort s [a] (some d))
    (h15 : s.cur.slot = 15) (hn : n ≤ x.dst.toNat) (hc : counter ≠ 2 ^ 32 - 1) (hlive : r.ctxKeyDead s.myWorld = false)
    (hfree : imageWordsFree s.who x.src n r = .ok () r)
    (hk : k = ((((r.unwait e0.takeOut.ctx.uid).modWorld s.myWorld fun y => { y with
        counters := Sparse.put y.counters index (counter + 1),
        saved := Sparse.put y.saved index e0.takeOut.ctx.uid }).dropSaved s.myWorld index).modCore s.cur.core
          fun q => { q with cache := Sparse.put q.cache i e0.takeOut }))
    (himg : img = sealed (k.imageKey s.myWorld index) (imageHeader e0.takeOut (counter + 1) s.myWorld index n woff wlen)
        (k.imageBody s.cur.core e0.takeOut n woff wlen))
    (hw1 : writeImage s.who x.src (img.take (64 - x.src.toNat % 64)) 1 k = .ok () v)
    (hw2 : writeImage s.who (x.src + w64 (64 - x.src.toNat % 64)) (img.drop (64 - x.src.toNat % 64)) (n / 64 + 1) (v.chargeAll caps) = .ok () t) :
    exec (.ctxout d a) s = .next ((((t.modWorld s.myWorld fun y => { y with
        savedChain := Sparse.put y.savedChain index (fld e0.takeOut.ctx.chain 0 16) }).modCore s.cur.core
          fun q => { q with cache := Sparse.drop q.cache i }).writeMine d (w64 n)).finish) := by
  have hguard : ¬(decide (n > x.dst.toNat) || decide (counter = 2 ^ 32 - 1)) = true := by simpa using ⟨hn, hc⟩
  subst himg
  have hwrites : ctxoutWrites d x caps s.cur.core s.who e0 i index wlen woff n counter r = .ok () (((t.modWorld s.myWorld fun y => { y with
      savedChain := Sparse.put y.savedChain index (fld e0.takeOut.ctx.chain 0 16) }).modCore s.cur.core
        fun q => { q with cache := Sparse.drop q.cache i }).writeMine d (w64 n)) := by
    have hk' : k = ((((r.unwait e0.takeOut.ctx.uid).modWorld s.who.world fun y => { y with
        counters := Sparse.put y.counters index (counter + 1),
        saved := Sparse.put y.saved index e0.takeOut.ctx.uid }).dropSaved s.who.world index).modCore s.cur.core
          fun q => { q with cache := Sparse.put q.cache i e0.takeOut }) := hk
    have hw1' : writeImage s.who x.src ((sealed (k.imageKey s.who.world index) (imageHeader e0.takeOut (counter + 1) s.who.world index n woff wlen)
      (k.imageBody s.cur.core e0.takeOut n woff wlen)).take (64 - x.src.toNat % 64)) 1 k = .ok () v := hw1
    have hw2' : writeImage s.who (x.src + w64 (64 - x.src.toNat % 64)) ((sealed (k.imageKey s.who.world index)
      (imageHeader e0.takeOut (counter + 1) s.who.world index n woff wlen) (k.imageBody s.cur.core e0.takeOut n woff wlen)).drop
        (64 - x.src.toNat % 64)) (n / 64 + 1) (v.chargeAll caps) = .ok () t := hw2
    simp only [ctxoutWrites, M.bind_apply, hfree, M.modify_apply, M.get_apply, ← hk', hw1', hw2', chargeCaps_apply, wr_apply]
    rfl
  obtain ⟨m, hm, hr⟩ := h.reaches (d := d) h15 (b := .ok () _) <| by
    simp only [ctxoutRest, if_neg hguard, hlive, if_neg Bool.false_ne_true]
    exact hwrites
  rw [hm]
  exact run_waiting hp hr

end

/-! ## CTXIN -/

/-- What a CTXIN knows of itself once its operands are checked. -/
structure CtxInStart (s u : State) (a : Reg) (x : CopyDesc) (caps : List Cap) : Prop where
  desc : readCtxDesc (s.src a) s.issue = .ok (x, caps) u
  fields : fld x.mb0 44 20 = 0 ∧ fld x.mb0 0 32 = 0 ∧ x.size = 0
  addr : x.src.toNat % 16 = 0 ∧ fld x.src 61 3 = 0

/-- The end of a CTXIN: the image's tag, and what it puts into the cache. -/
def ctxinOpens (d : Reg) (x : CopyDesc) (caps : List Cap) (core : Nat) (w : Who) (index n i counter : Nat) (h : List Byte) : M Unit := do
  let bs ← engineRead w x.src n
  let key := (← get).imageKey w.world index
  let ct := (bs.drop 64).take (n - 80)
  if bs.drop (n - 16) ≠ gcmTagOf key (headerIv h) h ct then trapAt Cause.ctxTag x.src
  let s ← get
  let uid := Sparse.get s.uidCtr (s.world w.world).saved index
  let (e, window) := entryOf (gcmXor key (headerIv h) ct) (wordIn h 24).toNat uid
  modify fun s =>
    let s1 : State := { s with uidCtr := s.uidCtr + 1 }
    let s2 := s1.modWorld w.world fun y => { y with counters := Sparse.put y.counters index (counter + 1) }
    let s3 := s2.placeWindow core s.me.uid w.world (wordIn h 32).toNat (wordIn h 40).toNat window
    ((s3.modCore core fun k => { k with cache := Sparse.put k.cache i e }).takeRef (fld e.ctx.chain 0 16)).dropSaved w.world index
  chargeCaps caps
  wr d (w64 i)

/-- A CTXIN whose header names a context of its world that has room. -/
def ctxinHeaded (d : Reg) (x : CopyDesc) (caps : List Cap) (core : Nat) (w : Who) (index n i counter : Nat) (h : List Byte) : M Unit := do
  let mine := fld (wordIn h 8) 32 32
  if mine ≠ counter then trapAt Cause.ctxStale x.src (w64 mine)
  ctxinOpens d x caps core w index n i counter h

theorem CtxInStart.reaches_noRoom (h : CtxInStart s u a x caps) (h15 : s.cur.slot = 15) (hr : u.myCore.roomFor 0 = none) :
    ∃ m : M Unit, exec (.ctxin d a) s = run (waiting [a] (some d) m) s ∧ m s.issue = .ok () ((u.chargeAll caps).writeMine d (BitVec.allOnes 64)) := by
  have hk := readCtxDesc_threads h.desc
  have hwho : u.who = s.who := (ThreadsKept.who_eq hk).trans s.issue_who
  have hcore : u.myCore = u.core s.cur.core := by rw [State.myCore, hk.cur_eq, s.issue_cur]
  have hcur : u.cur = s.cur := hk.cur_eq.trans s.issue_cur
  obtain ⟨hdesc, ⟨hf1, hf2, hf3⟩, h16, h3⟩ := h
  have hno : ¬(decide (fld x.mb0 44 20 ≠ 0) || decide (fld x.mb0 0 32 ≠ 0) || decide (x.size ≠ 0)) = true := by simp [hf1, hf2, hf3]
  refine ⟨_, rfl, ?_⟩
  rw [hcore] at hr
  simp only [M.bind_apply, supOnly_ok (s.issue_cur ▸ h15), rd_apply, State.issue_src, hdesc, M.get_apply, hcur, if_neg hno,
    imageAddr_ok h16 h3, whoMe_apply, hwho, hr, chargeCaps_apply, wr_apply]
  rfl

theorem CtxInStart.reaches_dead (h : CtxInStart s u a x caps) (h15 : s.cur.slot = 15) (hr : (u.myCore.roomFor 0).isSome = true)
    (hdead : u.ctxKeyDead s.myWorld = true) : ∃ m : M Unit, exec (.ctxin d a) s = run (waiting [a] (some d) m) s ∧
      m s.issue = .error (.trap ⟨Cause.keylease, x.src, 0, tfmtNone⟩) u := by
  have hk := readCtxDesc_threads h.desc
  have hwho : u.who = s.who := (ThreadsKept.who_eq hk).trans s.issue_who
  have hcore : u.myCore = u.core s.cur.core := by rw [State.myCore, hk.cur_eq, s.issue_cur]
  have hcur : u.cur = s.cur := hk.cur_eq.trans s.issue_cur
  obtain ⟨hdesc, ⟨hf1, hf2, hf3⟩, h16, h3⟩ := h
  have hno : ¬(decide (fld x.mb0 44 20 ≠ 0) || decide (fld x.mb0 0 32 ≠ 0) || decide (x.size ≠ 0)) = true := by simp [hf1, hf2, hf3]
  obtain ⟨i, hi⟩ := Option.isSome_iff_exists.1 hr
  have hdead' : u.ctxKeyDead s.who.world = true := hdead
  refine ⟨_, rfl, ?_⟩
  rw [hcore] at hi
  simp only [M.bind_apply, supOnly_ok (s.issue_cur ▸ h15), rd_apply, State.issue_src, hdesc, M.get_apply, hcur, if_neg hno,
    imageAddr_ok h16 h3, whoMe_apply, hwho, hi, hdead', if_true, trapAt_apply]

/-- A CTXIN whose header can be read, names a context of its world, and finds room. -/
structure CtxInHeaded (s u v : State) (x : CopyDesc) (index rows n i : Nat) (h : List Byte) : Prop where
  indexEq : index = fld x.mb0 32 12
  room : (u.myCore.roomFor 0).isSome = true
  live : u.ctxKeyDead s.myWorld = false
  read : engineRead s.who x.src 64 u = .ok h v
  rowsEq : headerRows h = some rows
  nEq : n = fld (wordIn h 16) 0 32
  magic : fld (wordIn h 0) 16 48 = 0x513743580001
  world : fld (wordIn h 8) 12 4 = s.myWorld
  fits : n ≤ x.dst.toNat
  place : v.myCore.roomFor (headerSpill h rows) = some i

theorem CtxInStart.reaches_headed {index rows n i : Nat} {h : List Byte} (hs : CtxInStart s u a x caps) (h15 : s.cur.slot = 15)
    (hh : CtxInHeaded s u v x index rows n i h) {b : EStateM.Result Stop State Unit}
    (hrest : ctxinHeaded d x caps s.cur.core s.who index n i (Sparse.get 0 (v.world s.myWorld).counters index) h v = b) :
    ∃ m : M Unit, exec (.ctxin d a) s = run (waiting [a] (some d) m) s ∧ m s.issue = b := by
  have hk := readCtxDesc_threads hs.desc
  have hwho : u.who = s.who := (ThreadsKept.who_eq hk).trans s.issue_who
  have hcur : u.cur = s.cur := hk.cur_eq.trans s.issue_cur
  have hcore : u.myCore = u.core s.cur.core := by rw [State.myCore, hcur]
  have hvcore : v.myCore = v.core s.cur.core := by
    rw [State.myCore, ((engineRead_does s.who x.src 64).ok hh.read).cur_eq, hcur]
  obtain ⟨hdesc, ⟨hf1, hf2, hf3⟩, h16, h3⟩ := hs
  obtain ⟨rfl, hr, hlive, hread, hrows, rfl, hmagic, hworld, hfits, hplace⟩ := hh
  have hno : ¬(decide (fld x.mb0 44 20 ≠ 0) || decide (fld x.mb0 0 32 ≠ 0) || decide (x.size ≠ 0)) = true := by simp [hf1, hf2, hf3]
  have hgood : ¬(decide (fld (wordIn h 0) 16 48 ≠ 0x513743580001) || decide (fld (wordIn h 8) 12 4 ≠ s.who.world) ||
      decide (fld (wordIn h 16) 0 32 > x.dst.toNat)) = true := by
    have hw : fld (wordIn h 8) 12 4 = s.who.world := hworld
    simp [hmagic, hw, hfits]
  obtain ⟨j, hj⟩ := Option.isSome_iff_exists.1 hr
  have hlive' : ¬u.ctxKeyDead s.who.world = true := ne_true_of_eq_false hlive
  refine ⟨_, rfl, ?_⟩
  rw [← hrest]
  rw [hcore] at hj
  rw [hvcore] at hplace
  simp only [M.bind_apply, supOnly_ok (s.issue_cur ▸ h15), rd_apply, State.issue_src, hdesc, M.get_apply, hcur, if_neg hno,
    imageAddr_ok h16 h3, whoMe_apply, hwho, hj, if_neg hlive', hread, hrows, if_neg hgood, hplace]
  rfl

/-- What CTXIN puts into the machine with its context. -/
def ctxinTaken (s : State) (core world index i counter : Nat) (h : List Byte) (e : CtxEntry) (window : List Byte) : State :=
  let s1 : State := { s with uidCtr := s.uidCtr + 1 }
  let s2 := s1.modWorld world fun y => { y with counters := Sparse.put y.counters index (counter + 1) }
  let s3 := s2.placeWindow core s.me.uid world (wordIn h 32).toNat (wordIn h 40).toNat window
  ((s3.modCore core fun k => { k with cache := Sparse.put k.cache i e }).takeRef (fld e.ctx.chain 0 16)).dropSaved world index

theorem setFulls_frame (f : Nat → Nat) (g : Nat → Bool) (l : List Nat) (s : State) :
    ∃ fl, l.foldl (fun t q => t.setFull (f q) (g q)) s = { s with full := fl } := by
  induction l generalizing s with
  | nil => exact ⟨s.full, rfl⟩
  | cons q l ih =>
    obtain ⟨fl, hfl⟩ := ih (s.setFull (f q) (g q))
    exact ⟨fl, hfl⟩

theorem placeWindow_frame (s : State) (core uid world woff wlen : Nat) (bs : List Byte) :
    ∃ u fl, ThreadsKept s u ∧ s.placeWindow core uid world woff wlen bs = { u with full := fl } := by
  have hwrite : ThreadsKept s (if wlen = 0 then s
      else s.performWrite core uid world (fun _ => none) (cellsAt (spadLoc core woff) (bs.take wlen))) := by
    split
    · exact .refl s
    · exact .performWrite ..
  obtain ⟨fl, hfl⟩ := setFulls_frame (fun q => spadLoc core (woff + 8 * q)) (fun q => ((bs.drop wlen)[q / 8]?.getD 0).getLsbD (q % 8))
    (List.range (wlen / 8)) _
  exact ⟨_, fl, hwrite, hfl⟩

/-- The drop of a saved image's reference changes the chains and that image's entry alone. -/
theorem dropSaved_frame (s : State) (w index : Nat) : ∃ f ch, (∀ y, (f y : World).counters = y.counters) ∧
    s.dropSaved w index = { s.modWorld w f with chains := ch } ∨ s.dropSaved w index = s := by
  unfold State.dropSaved
  split
  · next j cix hfind =>
    obtain ⟨ch, hch⟩ := dropRef_frame (s.modWorld w fun y => { y with savedChain := Sparse.drop y.savedChain index }) cix
    exact ⟨fun y => { y with savedChain := Sparse.drop y.savedChain index }, ch, .inl ⟨fun _ => rfl, hch⟩⟩
  · exact ⟨id, s.chains, .inr rfl⟩

theorem dropSaved_cores (s : State) (w index : Nat) : (s.dropSaved w index).cores = s.cores := by
  obtain ⟨f, ch, ⟨-, h⟩ | h⟩ := dropSaved_frame s w index
  · rw [h]
    rfl
  · rw [h]

theorem dropSaved_counters (s : State) (w index : Nat) : ((s.dropSaved w index).world w).counters = (s.world w).counters := by
  obtain ⟨f, ch, ⟨hf, h⟩ | h⟩ := dropSaved_frame s w index
  · rw [h]
    exact (congrArg World.counters (State.modWorld_world s w f)).trans (hf _)
  · rw [h]

theorem takeRef_frame (s : State) (cix : Nat) : ∃ ch, s.takeRef cix = { s with chains := ch } := by
  unfold State.takeRef
  extract_lets e
  split
  · exact ⟨s.chains, rfl⟩
  · exact ⟨_, rfl⟩

section
variable {core world index i counter : Nat} {h : List Byte} {e : CtxEntry} {window : List Byte}

theorem ctxinTaken_counters : ((ctxinTaken s core world index i counter h e window).world world).counters =
    Sparse.put (s.world world).counters index (counter + 1) := by
  rw [ctxinTaken, dropSaved_counters]
  obtain ⟨ch, hch⟩ := takeRef_frame (((({ s with uidCtr := s.uidCtr + 1 } : State).modWorld world fun y =>
    { y with counters := Sparse.put y.counters index (counter + 1) }).placeWindow core s.me.uid world (wordIn h 32).toNat
      (wordIn h 40).toNat window).modCore
      core fun k => { k with cache := Sparse.put k.cache i e }) (fld e.ctx.chain 0 16)
  obtain ⟨u, fl, hu, hpl⟩ := placeWindow_frame (({ s with uidCtr := s.uidCtr + 1 } : State).modWorld world fun y =>
    { y with counters := Sparse.put y.counters index (counter + 1) }) core s.me.uid world (wordIn h 32).toNat (wordIn h 40).toNat window
  rw [hch, hpl]
  change (u.world world).counters = _
  rw [State.world, hu.worlds, ← State.world, State.modWorld_world]
  rfl

theorem ctxinTaken_cache : ((ctxinTaken s core world index i counter h e window).core core).cache.find? (fun q => decide (q.1 = i)) = some (i, e) := by
  rw [ctxinTaken, State.core, dropSaved_cores]
  obtain ⟨ch, hch⟩ := takeRef_frame (((({ s with uidCtr := s.uidCtr + 1 } : State).modWorld world fun y =>
    { y with counters := Sparse.put y.counters index (counter + 1) }).placeWindow core s.me.uid world (wordIn h 32).toNat
      (wordIn h 40).toNat window).modCore
      core fun k => { k with cache := Sparse.put k.cache i e }) (fld e.ctx.chain 0 16)
  rw [hch]
  exact (congrArg (fun k : Core => k.cache.find? fun q => decide (q.1 = i)) (State.modCore_core _ core fun k =>
    { k with cache := Sparse.put k.cache i e })).trans (Sparse.find_put_self ..)

theorem ctxinTaken_cur : (ctxinTaken s core world index i counter h e window).cur = s.cur := by
  have hdrop (u : State) : (u.dropSaved world index).cur = u.cur := by
    obtain ⟨f, ch, ⟨-, h⟩ | h⟩ := dropSaved_frame u world index
    · rw [h]
      rfl
    · rw [h]
  rw [ctxinTaken, hdrop, takeRef_cur]
  obtain ⟨u, fl, hu, hpl⟩ := placeWindow_frame (({ s with uidCtr := s.uidCtr + 1 } : State).modWorld world fun y =>
    { y with counters := Sparse.put y.counters index (counter + 1) }) core s.me.uid world (wordIn h 32).toNat (wordIn h 40).toNat window
  rw [hpl]
  exact hu.cur_eq

end

theorem Local.chargeAll (s : State) (caps : List Cap) : Local s (s.chargeAll caps) := by
  induction caps generalizing s with
  | nil => exact .refl s
  | cons c caps ih => exact (Local.chargeOnce s c).trans (ih _)

theorem Local.cache (h : Local s t) (c : Nat) : (t.core c).cache = (s.core c).cache := by rw [h.core c]
theorem Local.world (h : Local s t) (w : Nat) : t.world w = s.world w := by
  rw [h.device]
  rfl

section
variable {index rows n i : Nat} {h bs : List Byte}

theorem ctxin_stale (hs : CtxInStart s u a x caps) (hp : NoPort s [a] (some d)) (h15 : s.cur.slot = 15) (hh : CtxInHeaded s u v x index rows n i h)
    (hne : fld (wordIn h 8) 32 32 ≠ Sparse.get 0 (v.world s.myWorld).counters index) :
    exec (.ctxin d a) s = .next (takeTrap ⟨Cause.ctxStale, x.src, w64 (fld (wordIn h 8) 32 32), 0xFFFF⟩ v) := by
  obtain ⟨m, hm, hr⟩ := hs.reaches_headed (d := d) h15 hh (b := .error (.trap ⟨Cause.ctxStale, x.src, w64 (fld (wordIn h 8) 32 32), tfmtNone⟩) v) <| by
    simp only [ctxinHeaded, if_pos hne, M.bind_apply, trapAt_apply]
  rw [hm]
  exact run_waiting_trap hp hr

/-- The image's tag. -/
abbrev imageTag (t : State) (w index n : Nat) (h bs : List Byte) : List Byte :=
  gcmTagOf (t.imageKey w index) (headerIv h) h ((bs.drop 64).take (n - 80))

theorem ctxin_badTag (hs : CtxInStart s u a x caps) (hp : NoPort s [a] (some d)) (h15 : s.cur.slot = 15) (hh : CtxInHeaded s u v x index rows n i h)
    (hc : fld (wordIn h 8) 32 32 = Sparse.get 0 (v.world s.myWorld).counters index) (hr : engineRead s.who x.src n v = .ok bs t)
    (htag : bs.drop (n - 16) ≠ imageTag t s.myWorld index n h bs) : exec (.ctxin d a) s = .next (takeTrap ⟨Cause.ctxTag, x.src, 0, 0xFFFF⟩ t) := by
  obtain ⟨m, hm, hr⟩ := hs.reaches_headed (d := d) h15 hh (b := .error (.trap ⟨Cause.ctxTag, x.src, 0, tfmtNone⟩) t) <| by
    have htag' : bs.drop (n - 16) ≠ imageTag t s.who.world index n h bs := htag
    simp only [ctxinHeaded, if_neg (not_not_intro hc), M.bind_apply, ctxinOpens, hr, M.get_apply, if_pos htag', trapAt_apply]
  rw [hm]
  exact run_waiting_trap hp hr

theorem ctxin_opens (hs : CtxInStart s u a x caps) (hp : NoPort s [a] (some d)) (h15 : s.cur.slot = 15) (hh : CtxInHeaded s u v x index rows n i h)
    (hc : fld (wordIn h 8) 32 32 = Sparse.get 0 (v.world s.myWorld).counters index) (hr : engineRead s.who x.src n v = .ok bs t)
    (htag : bs.drop (n - 16) = imageTag t s.myWorld index n h bs) {q : CtxEntry × List Byte}
    (hq : q = Machine.entryOf (gcmXor (t.imageKey s.myWorld index) (headerIv h) ((bs.drop 64).take (n - 80))) (wordIn h 24).toNat
      (Sparse.get t.uidCtr (t.world s.myWorld).saved index)) :
    exec (.ctxin d a) s = .next ((((ctxinTaken t s.cur.core s.myWorld index i (Sparse.get 0 (t.world s.myWorld).counters index) h q.1 q.2).chargeAll
      caps).writeMine d (w64 i)).finish) := by
  have hcount : Sparse.get 0 (v.world s.myWorld).counters index = Sparse.get 0 (t.world s.myWorld).counters index := by
    rw [((engineRead_does s.who x.src n).ok hr).world_eq]
  obtain ⟨m, hm, hr⟩ := hs.reaches_headed (d := d) h15 hh (b := .ok () _) <| by
    have htag' : bs.drop (n - 16) = imageTag t s.who.world index n h bs := htag
    simp only [ctxinHeaded, if_neg (not_not_intro hc), M.bind_apply, ctxinOpens, hr, M.get_apply, if_neg (not_not_intro htag'), M.modify_apply,
      chargeCaps_apply, wr_apply]
    rfl
  rw [hm, ← hcount, hq]
  exact run_waiting hp hr

end

end

theorem entryOf_held (bs : List Byte) (masks uid : Nat) : (Machine.entryOf bs masks uid).1.st = .held := rfl

theorem contextImages_traced : Claims.ContextImages := by
  unfold Claims.ContextImages
  refine ⟨?_, ?_, ?_⟩
  · intro s u r k v t d a x caps img e0 i index wlen woff n counter hp h15 hdesc hi hidx hwl hwo he h1 h2 h3 h4 hw1 hw2 hw3 h16 h61 hrel hn hc
    have h : CtxOutStart s u r a x caps e0 i index wlen woff n counter :=
      ⟨hdesc, hi, hidx, hwl, hwo, he, ⟨h1, h2, h3, h4⟩, ⟨hw1, hw2, hw3⟩, ⟨h16, h61⟩, hrel, hn, hc⟩
    exact ⟨ctxout_noRoom h hp h15, ctxout_keyDead h hp h15, fun hn hc hl hf hk himg => ctxout_writes h hp h15 hn hc hl hf hk himg⟩
  · intro s u d a x caps hp h15 hdesc h1 h2 h3 h16 h61
    have hs : CtxInStart s u a x caps := ⟨hdesc, ⟨h1, h2, h3⟩, h16, h61⟩
    refine ⟨fun hr => ?_, fun hr hdead => ?_⟩
    · obtain ⟨m, hm, hr⟩ := hs.reaches_noRoom (d := d) h15 hr
      rw [hm]
      exact run_waiting hp hr
    · obtain ⟨m, hm, hr⟩ := hs.reaches_dead (d := d) h15 hr hdead
      rw [hm]
      exact run_waiting_trap hp hr
  · intro s u v t d a x caps index rows n i h bs key hp h15 hdesc hidx h1 h2 h3 h16 h61 hroom hlive hread hrows hn hmagic hworld hfits hplace
    have hs : CtxInStart s u a x caps := ⟨hdesc, ⟨h1, h2, h3⟩, h16, h61⟩
    have hh : CtxInHeaded s u v x index rows n i h := ⟨hidx, hroom, hlive, hread, hrows, hn, hmagic, hworld, hfits, hplace⟩
    refine ⟨ctxin_stale hs hp h15 hh, fun hc hr hkey => ?_⟩
    subst hkey
    refine ⟨ctxin_badTag hs hp h15 hh hc hr, fun htag => ?_⟩
    have hcur : t.cur = s.cur := ((engineRead_does s.who x.src n).ok hr).cur_eq.trans
      (((engineRead_does s.who x.src 64).ok hread).cur_eq.trans ((readCtxDesc_threads hdesc).cur_eq.trans s.issue_cur))
    have hloc := fun (q : CtxEntry × List Byte) => Local.chargeAll
      (ctxinTaken t s.cur.core s.myWorld index i (Sparse.get 0 (t.world s.myWorld).counters index) h q.1 q.2) caps
    refine ⟨_, _, ctxin_opens hs hp h15 hh hc hr htag rfl, ?_, ?_, entryOf_held .., rfl⟩
    · rw [(hloc _).world]
      exact ctxinTaken_counters
    · rw [State.myCore, (hloc _).cache, (hloc _).cur_eq, ctxinTaken_cur, hcur]
      exact ctxinTaken_cache

end Sys2Proof.Machine
end

section
/-! What keeps the checks of an access: states in which an access passes alike (R99). -/

-- One declaration after another: checked side by side, these take more threads than the memory of the check holds.
set_option Elab.async false

namespace Sys2Proof.Machine

open Sys2Proof.Claims

variable {w : Who} {s t u : State}

/-- What the checks of a maker's accesses look at is kept: the bytes of memory and the owners of the chip scratchpad aside. -/
structure ChecksKept (w : Who) (s t : State) : Prop where
  owner : ∀ c, t.sramOwner c = s.sramOwner c
  seq : ∀ c, (t.core c).world = (s.core c).world ∧ (t.core c).seqBase = (s.core c).seqBase ∧ (t.core c).seqSize = (s.core c).seqSize
  tlb : (t.core w.core).tlb = (s.core w.core).tlb
  caps : (t.world w.world).caps = (s.world w.world).caps
  ruleSets : (t.world w.world).ruleSets = (s.world w.world).ruleSets
  extents : (t.world w.world).extents = (s.world w.world).extents
  memKey : (t.world w.world).memKey = (s.world w.world).memKey
  dead : t.keyDead w.world = s.keyDead w.world
  chains : t.chains = s.chains
  firewall : t.firewallR = s.firewallR ∧ t.firewallW = s.firewallW
  ecc : ∀ l, l ∈ t.eccBad → l ∈ s.eccBad
  keys : ∀ line, Sparse.get 0 t.lineKeys line = Sparse.get 0 s.lineKeys line ∨ Sparse.get 0 t.lineKeys line = (s.world w.world).memKey
  rules : ∀ x ∈ Sparse.get [] t.ruleCaches (clusterOf w.core), x ∈ Sparse.get [] s.ruleCaches (clusterOf w.core) ∨
    (x.world = w.world → x.perms = s.rulesGrant x.world x.ruleset x.cix)

namespace ChecksKept

theorem refl (w : Who) (s : State) : ChecksKept w s s :=
  ⟨fun _ => rfl, fun _ => ⟨rfl, rfl, rfl⟩, rfl, rfl, rfl, rfl, rfl, rfl, rfl, ⟨rfl, rfl⟩, fun _ h => h, fun _ => .inl rfl, fun _ h => .inl h⟩

theorem rulesGrant_eq (h : ChecksKept w s t) (n cix : Nat) : t.rulesGrant w.world n cix = s.rulesGrant w.world n cix := by
  simp only [State.rulesGrant, h.ruleSets, chainIds_eq h.chains]

theorem trans (h : ChecksKept w s t) (k : ChecksKept w t u) : ChecksKept w s u where
  owner c := (k.owner c).trans (h.owner c)
  seq c := by
    obtain ⟨h1, h2, h3⟩ := h.seq c
    obtain ⟨k1, k2, k3⟩ := k.seq c
    exact ⟨k1.trans h1, k2.trans h2, k3.trans h3⟩
  tlb := k.tlb.trans h.tlb
  caps := k.caps.trans h.caps
  ruleSets := k.ruleSets.trans h.ruleSets
  extents := k.extents.trans h.extents
  memKey := k.memKey.trans h.memKey
  dead := k.dead.trans h.dead
  chains := k.chains.trans h.chains
  firewall := ⟨k.firewall.1.trans h.firewall.1, k.firewall.2.trans h.firewall.2⟩
  ecc l hl := h.ecc l (k.ecc l hl)
  keys line := by
    rcases k.keys line with hk | hk
    · exact (h.keys line).imp hk.trans hk.trans
    · exact .inr (hk.trans h.memKey)
  rules x hx := by
    rcases k.rules x hx with hx | hx
    · exact h.rules x hx
    · refine .inr fun hw => (hx hw).trans ?_
      rw [hw]
      exact h.rulesGrant_eq ..

theorem of_alike (e : Alike w s t) : ChecksKept w s t where
  owner := e.touched.sramOwner_eq
  seq c := ⟨e.touched.coreWorld_eq c, e.touched.seqBase_eq c, e.touched.seqSize_eq c⟩
  tlb := e.tlb
  caps := by rw [e.touched.world_eq]
  ruleSets := by rw [e.touched.world_eq]
  extents := by rw [e.touched.world_eq]
  memKey := by rw [e.touched.world_eq]
  dead := e.touched.keyDead_eq _
  chains := e.touched.chains_eq
  firewall := by
    constructor
    · rw [e.touched.device]
    · rw [e.touched.device]
  ecc l h := by rwa [e.touched.device] at h
  keys line := .inl (by rw [e.keys])
  rules x hx := (e.rules x hx).imp_right fun h _ => h

/-- A state with other worlds, all as before but for fields that no check looks at. -/
theorem of_worlds {ws : Sparse World} (h : (Sparse.get World.init ws w.world).caps = (s.world w.world).caps ∧
    (Sparse.get World.init ws w.world).ruleSets = (s.world w.world).ruleSets ∧ (Sparse.get World.init ws w.world).extents = (s.world w.world).extents ∧
    (Sparse.get World.init ws w.world).memKey = (s.world w.world).memKey ∧ (Sparse.get World.init ws w.world).memDead = (s.world w.world).memDead ∧
    (Sparse.get World.init ws w.world).memExpiry = (s.world w.world).memExpiry) : ChecksKept w s { s with worlds := ws } := by
  obtain ⟨hcaps, hrules, hext, hkey, hdead, hexp⟩ := h
  refine { refl w s with caps := hcaps, ruleSets := hrules, extents := hext, memKey := hkey, dead := ?_ }
  simp only [State.keyDead]
  rw [← hdead, ← hexp]
  rfl

theorem modWorld {f : World → World} {n : Nat} (hf : ∀ y, (f y).caps = y.caps ∧ (f y).ruleSets = y.ruleSets ∧ (f y).extents = y.extents ∧
    (f y).memKey = y.memKey ∧ (f y).memDead = y.memDead ∧ (f y).memExpiry = y.memExpiry) : ChecksKept w s (s.modWorld n f) := by
  refine of_worlds ?_
  by_cases hn : n = w.world
  · subst hn
    rw [Sparse.get_put_self]
    exact hf _
  · rw [Sparse.get_put_of_ne _ _ _ hn]
    exact ⟨rfl, rfl, rfl, rfl, rfl, rfl⟩

/-- A core changed in fields that no check looks at. -/
theorem modCore {f : Core → Core} {c : Nat} (hf : ∀ k, (f k).world = k.world ∧ (f k).zeroing = k.zeroing ∧ (f k).seqBase = k.seqBase ∧
    (f k).seqSize = k.seqSize ∧ (f k).tlb = k.tlb) : ChecksKept w s (s.modCore c f) := by
  have hcore (d : Nat) : ((s.modCore c f).core d).world = (s.core d).world ∧ ((s.modCore c f).core d).zeroing = (s.core d).zeroing ∧
      ((s.modCore c f).core d).seqBase = (s.core d).seqBase ∧ ((s.modCore c f).core d).seqSize = (s.core d).seqSize ∧
      ((s.modCore c f).core d).tlb = (s.core d).tlb := by
    by_cases hd : c = d
    · subst hd
      rw [State.modCore_core]
      exact hf _
    · rw [State.modCore_core_of_ne _ _ hd]
      exact ⟨rfl, rfl, rfl, rfl, rfl⟩
  refine { refl w s with owner := fun d => ?_, seq := fun d => ?_, tlb := ?_ }
  · obtain ⟨h1, h2, -⟩ := hcore d
    simp only [State.sramOwner, h1, h2]
  · obtain ⟨h1, -, h3, h4, -⟩ := hcore d
    exact ⟨h1, h3, h4⟩
  · obtain ⟨-, -, -, -, h5⟩ := hcore w.core
    exact h5

theorem modSlot (s : State) (c n : Nat) (f : Slot → Slot) : ChecksKept w s (s.modSlot c n f) :=
  modCore (f := (·.modSlot n f)) fun _ => ⟨rfl, rfl, rfl, rfl, rfl⟩

theorem modMe (s : State) (f : Slot → Slot) : ChecksKept w s (s.modMe f) := modSlot s _ _ f

theorem modMyCore {f : Core → Core} (hf : ∀ k, (f k).world = k.world ∧ (f k).zeroing = k.zeroing ∧ (f k).seqBase = k.seqBase ∧
    (f k).seqSize = k.seqSize ∧ (f k).tlb = k.tlb) : ChecksKept w s (s.modMyCore f) := modCore hf

theorem chargeMine (s : State) (n : Nat) : ChecksKept w s (s.chargeSlot s.cur.core s.cur.slot n) := modCore fun _ => ⟨rfl, rfl, rfl, rfl, rfl⟩

theorem of_local (h : Local s t) : ChecksKept w s t := by
  have hc := h.core
  refine ⟨fun c => ?_, fun c => ?_, ?_, ?_, ?_, ?_, ?_, ?_, ?_, ⟨?_, ?_⟩, fun l hl => ?_, fun line => .inl ?_, fun x hx => .inl ?_⟩
  · rw [State.sramOwner, hc c, State.sramOwner]
  · rw [hc c]
    exact ⟨rfl, rfl, rfl⟩
  · rw [hc]
  · rw [h.world]
  · rw [h.world]
  · rw [h.world]
  · rw [h.world]
  · rw [h.device]
    rfl
  · rw [h.device]
  · rw [h.device]
  · rw [h.device]
  · rwa [h.device] at hl
  · rw [h.device]
  · rwa [h.device] at hx

/-! ## A write performed -/

/-- Lines written afresh under the key of the maker's world. -/
theorem ownLines (core : Nat) (pin : Nat → Option Nat) (lines : List Nat) (s : State) : ChecksKept w s (lines.foldl (fun t line =>
    (t.l2Own (clusterOf core) w.world line (sliceOf line (pin line))).sealLine line (t.world w.world).memKey) s) := by
  induction lines generalizing s with
  | nil => exact refl w s
  | cons line lines ih =>
    refine trans ?_ (ih _)
    obtain ⟨l2, msc, h⟩ : ∃ l2 msc, s.l2Own (clusterOf core) w.world line (sliceOf line (pin line)) = { s with l2 := l2, msc := msc } := by
      unfold State.l2Own
      dsimp only
      split
      · exact ⟨_, _, rfl⟩
      · rw [State.l2Fill_caches]
        exact ⟨_, _, rfl⟩
    dsimp only
    rw [h]
    refine { refl w s with ecc := fun l hl => List.mem_of_mem_filter hl, keys := fun l => ?_ }
    change Sparse.get 0 (Sparse.set 0 s.lineKeys line (s.world w.world).memKey) l = _ ∨ _
    by_cases hl : line = l
    · subst hl
      exact .inr (Sparse.get_set_self ..)
    · exact .inl (Sparse.get_set_of_ne _ _ _ hl)

theorem triggerWatches (s : State) (uid : Nat) (locs : List Nat) : ChecksKept w s (s.triggerWatches uid locs) := by
  have hcore (c : Nat) := get_mapValues_cases (d := Core.init) (fun k => { k with
    slots := k.slots.map fun q => (q.1, q.2.trigger uid locs), cache := k.cache.map fun q => (q.1, q.2.trigger uid locs s.cycle) }) s.cores c
  have hsame (c : Nat) : ((s.triggerWatches uid locs).core c).world = (s.core c).world ∧
      ((s.triggerWatches uid locs).core c).zeroing = (s.core c).zeroing ∧ ((s.triggerWatches uid locs).core c).seqBase = (s.core c).seqBase ∧
      ((s.triggerWatches uid locs).core c).seqSize = (s.core c).seqSize ∧ ((s.triggerWatches uid locs).core c).tlb = (s.core c).tlb := by
    obtain h | ⟨h, h'⟩ := hcore c
    · have hc : (s.triggerWatches uid locs).core c = { s.core c with
          slots := (s.core c).slots.map fun q => (q.1, q.2.trigger uid locs)
          cache := (s.core c).cache.map fun q => (q.1, q.2.trigger uid locs s.cycle) } := h
      rw [hc]
      exact ⟨rfl, rfl, rfl, rfl, rfl⟩
    · have hc : (s.triggerWatches uid locs).core c = s.core c := h'.trans h.symm
      rw [hc]
      exact ⟨rfl, rfl, rfl, rfl, rfl⟩
  refine { refl w s with owner := fun d => ?_, seq := fun d => ?_, tlb := ?_ }
  · obtain ⟨h1, h2, -⟩ := hsame d
    simp only [State.sramOwner, h1, h2]
  · obtain ⟨h1, -, h3, h4, -⟩ := hsame d
    exact ⟨h1, h3, h4⟩
  · obtain ⟨-, -, -, -, h5⟩ := hsame w.core
    exact h5

/-- New bytes of memory alone. -/
theorem of_mem (s : State) (m : Sparse Byte) : ChecksKept w s { s with mem := m } := { refl w s with }

theorem setCells (s : State) (cells : List Host.Cell) : ChecksKept w s (s.setCells cells) := by
  have h : s.setCells cells = { s with mem := (s.setCells cells).mem } := by
    induction cells generalizing s with
    | nil => rfl
    | cons c cells ih => exact ih (s.setByte c.1 c.2)
  rw [h]
  exact of_mem s _

theorem performWrite (s : State) (core uid : Nat) (pin : Nat → Option Nat) (cells : List Host.Cell) :
    ChecksKept w s (s.performWrite core uid w.world pin cells) := by
  unfold State.performWrite
  split
  · exact refl w s
  · exact trans (ownLines core pin _ s) (trans (setCells _ cells) (trans (modCore (f := (·.patchL1 cells)) fun _ => ⟨rfl, rfl, rfl, rfl, rfl⟩)
      (triggerWatches ..)))

/-! ## What passes still passes -/

theorem locate_eq (h : ChecksKept w s t) {a : W64} (k : Kind) (ha : fld a 61 3 = 6) (hchip : ∀ o, t.chipOwner o = s.chipOwner o) :
    Looks s t (locate w a k) := by
  intro pl hp
  unfold locate at hp ⊢
  simp only [M.bind_apply, M.get_apply, ha, h.owner, hchip] at hp ⊢
  suffices hl : Looks s t _ from hl pl hp
  split
  · exact Looks.when (trapXlate_ne _ _) fun _ => Looks.when trapPriv_ne fun _ => Looks.pure _
  · exact Looks.when (trapXlate_ne _ _) fun _ => Looks.pure _
  · exact Looks.when (trapXlate_ne _ _) fun _ => Looks.pure _
  · exact Looks.when (trapXlate_ne _ _) fun _ => Looks.pure _
  · exact Looks.trapXlate _ _ _

theorem resolveSeq_eq (h : ChecksKept w s t) (a : W64) : Looks s t (resolveSeq w a) := by
  intro va hp
  obtain ⟨hw, hb, hs⟩ := h.seq (fld a 48 9)
  unfold resolveSeq at hp ⊢
  simp only [M.bind_apply, M.get_apply, hw, hb, hs] at hp ⊢
  suffices hl : Looks s t _ from hl va hp
  refine Looks.when (trapAt_ne _ _) fun _ => Looks.when (trapAt_ne _ _) fun _ => ?_
  exact Looks.when (trapXlate_ne _ _) fun _ => Looks.when (trapXlate_ne _ _) fun _ => Looks.pure _

theorem wpaToDpa_eq (h : ChecksKept w s t) (a : Nat) : t.wpaToDpa w.world a = s.wpaToDpa w.world a := by
  simp only [State.wpaToDpa, h.extents]

theorem granted (h : ChecksKept w s t) {a : W64} {k : Kind} {cap : Cap} (hg : Granted s w a k cap) : Granted t w a k cap := by
  obtain ⟨h1, h2, h3, h4, h5⟩ := hg
  refine ⟨by rwa [State.capOf, h.caps], h2, by rwa [State.chain, h.chains], by rwa [h.rulesGrant_eq], fun x hx hw hr hc => ?_⟩
  rcases h.rules x hx with hx | hx
  · exact h5 x hx hw hr hc
  · rw [hx hw, hw, hr, hc]
    exact h4

theorem sound (h : ChecksKept w s t) {line : Nat} (hs : Sound s w.world line) : Sound t w.world line := by
  obtain ⟨h1, h2, h3, h4⟩ := hs
  refine ⟨h.dead.trans h1, by rwa [h.memKey], ?_, fun hl => h4 (h.ecc _ hl)⟩
  rw [h.memKey]
  exact (h.keys line).elim (·.trans h3) id

theorem stands (h : ChecksKept w s t) {a : W64} {k : Kind} {pl : Place} (hs : Stands s w a k pl)
    (hchip : fld a 61 3 = 6 → ∀ o, t.chipOwner o = s.chipOwner o) : Stands t w a k pl := by
  rcases hs with ⟨h1, h2, h3⟩ | ⟨va, x, loc, h1, h2, h3, h4, h5⟩
  · exact .inl ⟨h1, h2, h.locate_eq k h1 (hchip h1) pl h3⟩
  · exact .inr ⟨va, x, loc, h1.imp_right fun q => ⟨q.1, h.resolveSeq_eq a va q.2⟩, h.tlb ▸ h2, h3, by rwa [h.wpaToDpa_eq], h5⟩

/-- An access passes as before: always, but in the chip scratchpad only where its owners are as they were. -/
theorem passes (h : ChecksKept w s t) {a : W64} {k : Kind} {pl : Place} (hp : Passes s w a k pl)
    (hchip : fld a 61 3 = 6 → ∀ o, t.chipOwner o = s.chipOwner o) : Passes t w a k pl := by
  obtain ⟨h1, ⟨cap, h2⟩, h3, h4⟩ := hp
  refine ⟨h.stands h1 hchip, ⟨cap, h.granted h2⟩, ?_, fun hs => h.sound (h4 hs)⟩
  obtain ⟨hr, hw⟩ := h.firewall
  simpa only [State.fwAllows, hr, hw] using h3

theorem steady (h : ChecksKept w s t) (hw : t.worlds = s.worlds) : Steady w s t :=
  fun _ _ _ hp => h.passes hp fun _ o => by rw [State.chipOwner, hw, State.chipOwner]

end ChecksKept

theorem Steady.allPass (h : Steady w s t) {z : Nat} {k : Kind} {spans : List (W64 × Nat)} (hp : AllPass s w z k spans) : AllPass t w z k spans :=
  fun q hq p hpc => (hp q hq p hpc).imp_right fun ⟨pl, hpl⟩ => ⟨pl, h _ _ _ hpl⟩

theorem Local.steady (h : Local s t) : Steady w s t := (ChecksKept.of_local h).steady (by rw [h.device])

end Sys2Proof.Machine
end

section
/-! Accesses that pass, from an instruction's start to its end (R99): what its reads see, its release with an empty store buffer, and the
end of an instruction that writes a register. -/

-- One declaration after another: checked side by side, these take more threads than the memory of the check holds.
set_option Elab.async false

namespace Sys2Proof.Machine

open Sys2Proof.Claims

section
variable {s t u : State} {w : Who} {ea : W64} {n z : Nat}

/-! ## What reads see -/

/-- Pieces that pass are found in the same places. -/
theorem seen_of_steady {g g' : Nat → Byte} (hp : AllPass s w z .read [(ea, n)]) (hst : Steady w s t) (hg : ∀ loc, g' loc = g loc) :
    seen t w g' ea n = seen s w g ea n := by
  have hp' : ∀ p ∈ spanPieces ea n, p.1.toNat % z = 0 ∧ ∃ pl, Passes s w p.1 .read pl := hp _ (List.mem_singleton.2 rfl)
  obtain rfl : g' = g := funext hg
  unfold seen seenIn
  refine congrArg List.flatten (List.map_congr_left fun p hpc => ?_)
  obtain ⟨-, pl, hpl⟩ := hp' p hpc
  rw [hpl.1.locate, (hst _ _ _ hpl).1.locate]

/-- A core with other slots and event counters, and no other change that a load sees. -/
theorem loadByte_of_core (hm : t.mem = s.mem) (hc : ∀ c, t.core c = { s.core c with slots := (t.core c).slots, evcnt := (t.core c).evcnt })
    (c loc : Nat) :
    t.loadByte c loc = s.loadByte c loc := by
  have hb : ∀ x, t.byte x = s.byte x := fun x => by rw [State.byte, hm, State.byte]
  have hf : (t.core c).forwarded loc = (s.core c).forwarded loc := by
    rw [hc c]
    rfl
  have hl : ∀ line, (t.core c).l1Line line = (s.core c).l1Line line := fun line => by
    rw [hc c]
    rfl
  have hs : t.spadByte c loc = s.spadByte c loc := by
    have : (t.core c).spillSeq = (s.core c).spillSeq := by rw [hc c]
    simp only [State.spadByte, this, hm, hb]
  have hw : ∀ d off, t.ctrlWord d off = s.ctrlWord d off := fun d off => by
    unfold State.ctrlWord
    rw [hc d]
  have hct : t.ctrlByte loc = s.ctrlByte loc := by simp only [State.ctrlByte, hb, hw]
  simp only [State.loadByte, hf, hl, hb, hs, hct]

theorem issue_loadByte (s : State) (c loc : Nat) : s.issue.loadByte c loc = s.loadByte c loc := by
  obtain ⟨⟨-, hcores⟩, ⟨hcore, -⟩, -⟩ := s.issue_frame
  refine loadByte_of_core s.issue_mem (fun d => ?_) c loc
  by_cases hd : d = s.cur.core
  · subst hd
    have hcur : s.issue.core s.cur.core = s.issue.myCore := by rw [State.myCore, s.issue_cur]
    rw [hcur]
    exact hcore
  · rw [hcores d hd]

theorem issue_steady (s : State) (w : Who) : Steady w s s.issue := Local.steady (Local.issue s)

/-- The acting thread's read at its instruction's start. -/
theorem readMine_issue_passes {m : Mod} (hm : Unhindered s m) (h : AllPass s s.who z .read [(ea, n)]) :
    ∃ cs u, readMine ea n z m s.issue = .ok (loaded s ea n, cs) u ∧ Alike s.who s.issue u := by
  have hm' : m.order = 0 ∨ (s.issue.core s.who.core).sb = [] := by
    rw [(Local.issue s).sb_eq]
    exact hm
  obtain ⟨cs, u, hu, e⟩ := readSpan_passes hm' ((issue_steady s s.who).allPass h)
  refine ⟨cs, u, ?_, e⟩
  rw [seen_of_steady h (issue_steady s s.who) (issue_loadByte s _)] at hu
  rw [readMine, M.bind_apply, whoMe_apply, s.issue_who]
  exact hu

theorem engineRead_passes (h : AllPass s w 1 .read [(ea, n)]) : ∃ t, engineRead w ea n s = .ok (seen s w s.byte ea n) t ∧ Alike w s t := by
  obtain ⟨cs, t, ht, e⟩ := engineSpan_passes h
  exact ⟨t, by rw [engineRead, M.bind_apply, ht]; rfl, e⟩

/-- The same seen by an engine in a state alike. -/
theorem seen_engine (hp : AllPass s w z .read [(ea, n)]) (hst : Steady w s t) (hm : t.mem = s.mem) : seen t w t.byte ea n = seen s w s.byte ea n :=
  seen_of_steady hp hst fun loc => by rw [State.byte, hm, State.byte]

theorem AllPass.of_mem {k : Kind} {l : List (W64 × Nat)} (h : AllPass s w z k l) {q : W64 × Nat} (hq : q ∈ l) : AllPass s w z k [q] :=
  fun x hx => by
    rw [List.mem_singleton.1 hx]
    exact h q hq

/-! ## A release where no store is buffered -/

theorem performSlot_empty {c : Nat} (h : (s.core c).sb = []) (n : Nat) : s.performSlot c n = s := by
  rw [State.performSlot, h]
  rfl

theorem releaseAll_empty (h : s.myCore.sb = []) : releaseAll s = .ok () s := by
  have hsb : (s.core s.cur.core).sb = [] := h
  have hno : ¬s.hasDeferred s.cur.core s.me.uid = true := by
    rw [State.hasDeferred, hsb]
    exact Bool.false_ne_true
  simp only [releaseAll, M.bind_apply, M.modify_apply, M.get_apply, performSlot_empty hsb, if_neg hno, M.pure_apply]

/-! ## The end of an instruction that writes a register -/

/-- The acting thread at the pc that it has, on a core with the same ports. -/
structure ThreadAt (s t : State) : Prop where
  cur : t.cur = s.cur
  pc : t.me.pc = s.me.pc
  ports : t.myCore.pipecfg = s.myCore.pipecfg

namespace ThreadAt

theorem refl (s : State) : ThreadAt s s := ⟨rfl, rfl, rfl⟩
theorem trans (h : ThreadAt s t) (k : ThreadAt t u) : ThreadAt s u := ⟨k.cur.trans h.cur, k.pc.trans h.pc, k.ports.trans h.ports⟩
theorem issue (s : State) : ThreadAt s s.issue := ⟨s.issue_cur, s.issue_pc, s.issue_pipecfg⟩

theorem of_kept (h : ThreadsKept s t) : ThreadAt s t := by
  refine ⟨h.cur_eq, by rw [h.me_eq], ?_⟩
  rw [State.myCore, h.cur_eq, h.core, State.myCore]

theorem of_alike (e : Alike w s t) : ThreadAt s t := of_kept (.of_touched e.touched)

theorem of_cores (hcur : t.cur = s.cur) (h : t.cores = s.cores) : ThreadAt s t := by
  have hcore (c : Nat) : t.core c = s.core c := by rw [State.core, h, State.core]
  exact ⟨hcur, by rw [State.me, State.slot, hcur, hcore]; rfl, by rw [State.myCore, hcur, hcore]; rfl⟩

theorem modCore {c : Nat} {f : Core → Core} (hs : ∀ k, (f k).slots = k.slots) (hp : ∀ k, (f k).pipecfg = k.pipecfg) : ThreadAt s (s.modCore c f) := by
  have hme : (s.modCore c f).me = s.me := State.modCore_slot_of_slots s hs c s.cur.core s.cur.slot
  refine ⟨rfl, by rw [hme], ?_⟩
  by_cases hc : c = s.cur.core
  · rw [State.myCore, State.modCore_cur, hc, State.modCore_core, hp]
    rfl
  · rw [State.myCore, State.modCore_cur, State.modCore_core_of_ne _ _ hc]
    rfl

theorem modMe {f : Slot → Slot} (hf : ∀ sl, (f sl).pc = sl.pc) : ThreadAt s (s.modMe f) :=
  ⟨rfl, by rw [State.modMe_me, hf], by rw [State.modMe_myCore]; rfl⟩

theorem chargeOnce (s : State) (cap : Cap) : ThreadAt s (s.chargeOnce cap) := by
  have h := Local.chargeOnce s cap
  obtain ⟨m, l, hme⟩ := chargeOnce_me s cap
  refine ⟨h.cur_eq, by rw [hme], ?_⟩
  rw [State.myCore, h.cur_eq, h.core]
  rfl

theorem chargeAll (s : State) (caps : List Cap) : ThreadAt s (s.chargeAll caps) := by
  induction caps generalizing s with
  | nil => exact refl s
  | cons c caps ih => exact (chargeOnce s c).trans (ih _)

theorem behind (h : ThreadAt s t) : t.behind = s.behind := by rw [State.behind, h.pc, h.cur, State.behind]
theorem portOut (h : ThreadAt s t) (n : Nat) : t.myCore.portOut n = s.myCore.portOut n := by rw [Core.portOut, h.ports, Core.portOut]
theorem portIn (h : ThreadAt s t) (n : Nat) : t.myCore.portIn n = s.myCore.portIn n := by rw [Core.portIn, h.ports, Core.portIn]

theorem completed (h : ThreadAt s t) : Completed s t.finish := by
  obtain ⟨hpc, hst, hw⟩ := finish_completed t
  exact ⟨hpc.trans h.behind, hst, hw⟩

/-- It ends behind itself, its register written. -/
theorem completed_written (h : ThreadAt s t) {d : Reg} {v : W64} {srcs : List Reg} (hp : NoPort s srcs (some d)) :
    Completed s (t.writeMine d v).finish ∧ (Held s d → (t.writeMine d v).finish.me.reg d = v) := by
  have hno : ¬(t.myCore.portOut t.cur.slot = true ∧ d = qo) := by
    rw [h.portOut, h.cur]
    exact fun q => hp.2 ⟨q.1, congrArg some q.2⟩
  have hmode : ThreadAt t (t.writeMine d v) := by
    rw [State.writeMine_register v hno]
    split
    · exact refl t
    · exact modMe fun sl => by
        rw [Slot.setReg]
        split <;> rfl
  refine ⟨(h.trans hmode).completed, fun hheld => ?_⟩
  have hin : ¬(d = qi ∧ t.myCore.portIn t.cur.slot = true) := by
    rw [h.portIn, h.cur]
    exact hheld.2.1
  rw [State.finish_me, State.writeMine_register v hno, if_neg hin, State.modMe_me]
  exact Slot.setReg_reg v hheld.1

/-- The register's write and the completion change the slot alone. -/
theorem written_local (h : ThreadAt s t) {d : Reg} (v : W64) {srcs : List Reg} (hp : NoPort s srcs (some d)) : Local t (t.writeMine d v).finish := by
  refine (Local.writeMine v ?_).trans (Local.finish _)
  rw [h.portOut, h.cur]
  exact fun q => hp.2 ⟨q.1, congrArg some q.2⟩

end ThreadAt

end

end Sys2Proof.Machine
end

section
/-! CTXOUT and CTXIN where every access passes (R99, R280 to R283). -/

-- One declaration after another: checked side by side, these take more threads than the memory of the check holds.
set_option Elab.async false

namespace Sys2Proof.Machine

open Sys2Proof.Claims

section
variable {s t u r k v : State} {w : Who} {d a : Reg} {x : CopyDesc} {caps : List Cap} {ea : W64}

/-- A copy descriptor that passes is read. -/
theorem readCtxDesc_passes (h : CtxDescAt s ea x) : ∃ caps u, readCtxDesc ea s.issue = .ok (x, caps) u ∧ Alike s.who s.issue u := by
  obtain ⟨h32, h58, hp, rfl⟩ := h
  obtain ⟨cs, u, hu, e⟩ := readMine_issue_passes (m := Mod.none) (.inl rfl) hp
  refine ⟨cs, u, ?_, e⟩
  simp only [readCtxDesc, if_neg (not_not_intro h32), if_neg (not_not_intro h58), M.bind_apply, hu, M.pure_apply]

/-! ## The length of an image (R283) -/

theorem zeros_length (n : Nat) : (zeros n).length = n := List.length_replicate

/-- A list of parts of one length. -/
theorem flatMap_length {α β : Type} {f : α → List β} {k : Nat} (l : List α) (h : ∀ x ∈ l, (f x).length = k) : (l.flatMap f).length = l.length * k := by
  induction l with
  | nil => simp
  | cons x l ih =>
    rw [List.flatMap_cons, List.length_append, h x List.mem_cons_self, ih fun y hy => h y (List.mem_cons_of_mem _ hy), List.length_cons, Nat.succ_mul]
    omega

theorem watchBytes_length (l : List Watch) : (watchBytes l).length = 64 := by
  rw [watchBytes, flatMap_length (k := 16)]
  · rfl
  · intro i _
    split
    · rw [wordsLe_length]
      rfl
    · exact zeros_length 16

theorem engineBytes_length (p : EngPart) : (engineBytes p).length = 128 := by
  rw [engineBytes, wordsLe_length]
  simp

theorem contextBytes_length (sl : Slot) (left : Nat) : (contextBytes sl left).length = 1088 := by
  rw [contextBytes]
  simp only [List.length_append, wordsLe_length, zeros_length, watchBytes_length, List.length_map, List.length_range, List.length_cons, List.length_nil,
    Vector.length_toList]
  rw [flatMap_length (k := 128) _ fun e _ => engineBytes_length _, List.length_range]

theorem tileBytes_length (t : Tile) : (tileBytes t).length = 192 + 64 * shRows t.shape := by
  rw [tileBytes]
  simp only [List.length_append, wordsLe_length, zeros_length, List.length_cons, List.length_nil]
  rw [flatMap_length (k := 4) _ fun v _ => natToLe_length .., flatMap_length (k := 64) _ fun i _ => natToLe_length .., Vector.length_toList,
    List.length_range]
  omega

theorem accBytes_length (a : Acc) : (accBytes a).length = 16448 := by
  rw [accBytes]
  simp only [List.length_append, wordsLe_length, zeros_length, List.length_cons, List.length_nil]
  rw [flatMap_length (k := 512) _ fun v _ => natToLe_length .., Vector.length_toList]

theorem halfBytes_length (h : Half) : (halfBytes h).length = 16960 := by
  rw [halfBytes]
  simp only [List.length_append, wordsLe_length, zeros_length, List.length_cons, List.length_nil]
  rw [flatMap_length (k := 4) _ fun v _ => natToLe_length .., Vector.length_toList,
    flatMap_length (k := 256) _ fun k _ => by rw [flatMap_length (k := 2) _ fun n _ => natToLe_length .., List.length_range], List.length_range]

theorem windowBytes_length (s : State) (core woff wlen : Nat) : (s.windowBytes core woff wlen).length = wlen + wlen / 64 := by
  rw [State.windowBytes, List.length_append, State.bytes_length, List.length_map, List.length_range]

theorem tiles_length (l : List Nat) (f : Nat → Tile) : (l.flatMap fun t => tileBytes (f t)).length =
    192 * l.length + 64 * (l.map fun t => shRows (f t).shape).sum := by
  induction l with
  | nil => rfl
  | cons t l ih =>
    rw [List.flatMap_cons, List.length_append, tileBytes_length, ih, List.length_cons, List.map_cons, List.sum_cons]
    omega

/-- An image is as long as its header says. -/
theorem image_length (s : State) (core key : Nat) (e : CtxEntry) (counter world index woff wlen : Nat) {n : Nat}
    (hn : n = imageLen e.ctx.liveTiles.length e.rowsInAll e.accs.length e.planes.length wlen) :
    (sealed key (imageHeader e counter world index n woff wlen) (s.imageBody core e n woff wlen)).length = n := by
  have hbody : (s.imageBody core e n woff wlen).length = n - 80 := by
    have haccs : (e.accs.flatMap fun a => accBytes a.2).length = e.accs.length * 16448 := flatMap_length _ fun a _ => accBytes_length _
    have hplanes : (e.planes.flatMap fun p => planeBytes p.2).length = e.planes.length * 33920 := flatMap_length _ fun p _ => by
      rw [planeBytes, List.length_append, halfBytes_length, halfBytes_length]
    simp only [State.imageBody, List.length_append, contextBytes_length, tiles_length, haccs, hplanes, windowBytes_length, zeros_length]
    simp only [imageLen, up16, CtxEntry.rowsInAll] at hn
    omega
  have hhead : (imageHeader e counter world index n woff wlen).length = 64 := by rw [imageHeader, wordsLe_length]; rfl
  simp only [sealed, List.length_append, hhead, gcmXor_length, hbody, gcmTagOf, List.length_map, List.length_range]
  simp only [imageLen, up16] at hn
  omega

/-! ## Writing an image -/

theorem busyWord_none (h : NoneReserved s) (cells : List Host.Cell) : s.busyWord cells = none := by
  refine List.find?_eq_none.2 fun l _ => ?_
  obtain ⟨hh, hq⟩ := h l
  simp [hh, hq]

theorem imageWordsFree_ok (h : NoneReserved s) (ea : W64) (n : Nat) : imageWordsFree w ea n s = .ok () s := by
  simp only [imageWordsFree, M.bind_apply, M.get_apply]
  cases writePieces w [(ea, zeros n)] 1 s with
  | ok ps u =>
    simp only [busyWord_none h, Option.isSome_none, if_neg Bool.false_ne_true, M.pure_apply]
  | error e u => rfl

/-- One piece of an image that passes: it is checked, and its line brought in where it is a part of one. -/
theorem writePiece_passes {bs : List Byte} (hne : bs ≠ []) (hfit : bs.length ≤ 64 - ea.toNat % 64) {pl : Place} (hp : Passes s w ea .write pl) :
    ∃ cap u, writePieces w [(ea, bs)] 1 s = .ok [(ea, pl, cap, bs)] u ∧ Alike w s u := by
  have hlen : bs.length ≠ 0 := fun h => hne (List.eq_nil_of_length_eq_zero h)
  have hspan : spanPieces ea bs.length = [(ea, bs.length)] := by
    rw [spanPieces, cutLines, if_neg hlen, Nat.min_eq_left hfit]
    simp only [Nat.sub_self]
    cases bs.length / 64 <;> rfl
  obtain ⟨cap, u, hu, e⟩ := checkPiece_passes (z := 1) (Nat.mod_one _) hp
  refine ⟨cap, u, ?_, e⟩
  simp only [writePieces, List.foldlM_cons, List.foldlM_nil, hspan, M.bind_apply, hu, M.pure_apply, List.take_length, List.nil_append]

/-- What the pieces of an image leave as they are written. -/
structure ImageWritten (w : Who) (s t : State) : Prop where
  threads : ThreadsKept s t
  entries : EntriesKept s t
  steady : Steady w s t

theorem ImageWritten.trans (h : ImageWritten w s t) (k : ImageWritten w t u) : ImageWritten w s u :=
  ⟨h.threads.trans k.threads, h.entries.trans k.entries, h.steady.trans k.steady⟩

theorem ImageWritten.refl (w : Who) (s : State) : ImageWritten w s s := ⟨.refl s, .refl s, .refl w s⟩

theorem ImageWritten.of_alike (e : Alike w s t) : ImageWritten w s t := ⟨.of_touched e.touched, .of_touched e.touched, e.steady⟩

theorem ImageWritten.performWrite (s : State) (core uid : Nat) (pin : Nat → Option Nat) (cells : List Host.Cell) :
    ImageWritten w s (s.performWrite core uid w.world pin cells) := by
  have h := ThreadsKept.performWrite s core uid w.world pin cells
  exact ⟨h, .performWrite .., (ChecksKept.performWrite s core uid pin cells).steady h.worlds⟩

/-- The pieces of an image, from one that passes on. -/
theorem writeImage_passes (fuel : Nat) {bs : List Byte} (hp : ∀ p ∈ cutLines fuel ea bs.length, ∃ pl, Passes s w p.1 .write pl) :
    ∃ t, writeImage w ea bs fuel s = .ok () t ∧ ImageWritten w s t := by
  induction fuel generalizing s ea bs with
  | zero => exact ⟨s, rfl, .refl w s⟩
  | succ fuel ih =>
    by_cases hne : bs = []
    · subst hne
      exact ⟨s, rfl, .refl w s⟩
    · have hlen : bs.length ≠ 0 := fun h => hne (List.eq_nil_of_length_eq_zero h)
      have hbs : ¬bs.isEmpty = true := by simpa using hne
      rw [cutLines, if_neg hlen] at hp
      obtain ⟨pl, hpl⟩ := hp _ List.mem_cons_self
      have htake : (bs.take (64 - ea.toNat % 64)).length = min bs.length (64 - ea.toNat % 64) := by rw [List.length_take, Nat.min_comm]
      have hroom : 0 < 64 - ea.toNat % 64 := Nat.sub_pos_of_lt (Nat.mod_lt _ (by decide))
      obtain ⟨cap, u, hu, e⟩ := writePiece_passes (s := s) (bs := bs.take (64 - ea.toNat % 64)) (fun h => by
        rw [h, List.length_nil] at htake
        omega) (by rw [htake]; exact Nat.min_le_right ..) hpl
      obtain ⟨v, hv, ev⟩ : ∃ v, (if (decide (pl.space = .hbm) && decide ((bs.take (64 - ea.toNat % 64)).length ≠ 64)) = true then
          lineIn w (pl.loc / 64) pl.pin ea else pure ()) u = .ok () v ∧ Alike w u v := by
        split
        · next h =>
          have hs : pl.space = .hbm := of_decide_eq_true (Bool.and_eq_true_iff.1 h).1
          exact lineIn_passes pl.pin ea (isHbm_base (hpl.honest hs)) ((e.steady _ _ _ hpl).2.2.2 hs)
        · exact ⟨u, rfl, .refl w u⟩
      have hw1 : ImageWritten w s (v.performWrite w.core 0 w.world (fun _ => pl.pin) (cellsAt pl.loc (bs.take (64 - ea.toNat % 64)))) :=
        (ImageWritten.of_alike (e.trans ev)).trans (.performWrite ..)
      obtain ⟨t, ht, hwt⟩ := ih (s := v.performWrite w.core 0 w.world (fun _ => pl.pin) (cellsAt pl.loc (bs.take (64 - ea.toNat % 64))))
        (ea := ea + w64 (64 - ea.toNat % 64)) (bs := bs.drop (64 - ea.toNat % 64)) (by
          rw [List.length_drop]
          intro p hpc
          obtain ⟨q, hq⟩ : ∃ pl, Passes s w p.1 .write pl := by
            rcases Nat.lt_or_ge bs.length (64 - ea.toNat % 64) with hlt | hge
            · rw [Nat.sub_eq_zero_of_le hlt.le] at hpc
              cases fuel with
              | zero => exact absurd hpc List.not_mem_nil
              | succ f =>
                rw [cutLines, if_pos rfl] at hpc
                exact absurd hpc List.not_mem_nil
            · rw [Nat.min_eq_right hge] at hp
              exact hp p (List.mem_cons_of_mem _ hpc)
          exact ⟨q, hw1.steady _ _ _ hq⟩)
      refine ⟨t, ?_, hw1.trans hwt⟩
      rw [writeImage, if_neg hbs, M.bind_apply, hu]
      simp only [List.forM_eq_forM, List.forM_cons, List.forM_nil, M.bind_apply, hv, M.pure_apply, M.modify_apply, List.foldl_cons, List.foldl_nil]
      exact ht

/-! ## CTXOUT completes -/

/-- The pieces of an image's span, where its first address is of region 0: none lies in a window. -/
theorem region_of_passes {k : Kind} {pl : Place} (h : fld ea 61 3 ≠ 6) (hp : Passes s w ea k pl) : fld ea 56 8 = 0 ∨ fld ea 61 3 = 5 := by
  rcases hp.1 with ⟨h6, -⟩ | ⟨va, t, loc, ⟨h0, -⟩ | ⟨h5, -⟩, -⟩
  · exact absurd h6 h
  · exact .inl h0
  · exact .inr h5

/-- The pieces of a span that passes and begins in region 0 all lie there. -/
theorem cutLines_region {k : Kind} (fuel : Nat) {n : Nat} (h0 : fld ea 61 3 = 0) (hp : ∀ p ∈ cutLines fuel ea n, ∃ pl, Passes s w p.1 k pl) :
    ∀ p ∈ cutLines fuel ea n, fld p.1 61 3 ≠ 6 := by
  induction fuel generalizing ea n with
  | zero => exact fun p hp => absurd hp List.not_mem_nil
  | succ fuel ih =>
    intro p hpc
    rw [cutLines] at hp hpc
    split at hpc
    · exact absurd hpc List.not_mem_nil
    · next hn =>
      rw [if_neg hn] at hp
      obtain ⟨pl, hpl⟩ := hp _ List.mem_cons_self
      rcases List.mem_cons.1 hpc with rfl | hpc
      · rw [h0]
        decide
      · refine ih ?_ (fun q hq => hp q (List.mem_cons_of_mem _ hq)) p hpc
        have hlow : fld ea 56 8 = 0 := (region_of_passes (by rw [h0]; decide) hpl).resolve_right (by rw [h0]; decide)
        have hk : min n (64 - ea.toNat % 64) ≤ 64 := (Nat.min_le_right ..).trans (Nat.sub_le ..)
        generalize min n (64 - ea.toNat % 64) = k at hk
        simp only [fld, BitVec.toNat_add, w64, BitVec.toNat_ofNat] at hlow ⊢
        omega

theorem takeOut_same (e : CtxEntry) : e.takeOut.ctx.liveTiles = e.ctx.liveTiles ∧ e.takeOut.rowsInAll = e.rowsInAll ∧ e.takeOut.accs = e.accs ∧
    e.takeOut.planes = e.planes := by
  unfold CtxEntry.takeOut
  split
  · exact ⟨rfl, rfl, rfl, rfl⟩
  · exact ⟨rfl, rfl, rfl, rfl⟩
  · exact ⟨rfl, rfl, rfl, rfl⟩

/-- No image has been saved under an index. -/
theorem dropSaved_none {n index : Nat} (h : ∀ y ∈ (s.world n).savedChain, y.1 ≠ index) : s.dropSaved n index = s := by
  have hnone : (s.world n).savedChain.find? (fun e => decide (e.1 = index)) = none :=
    List.find?_eq_none.2 fun y hy => by simpa using h y hy
  rw [State.dropSaved, hnone]

/-- What CTXOUT leaves of a state as it claims the next counter of an index. -/
def ctxoutClaimed (r : State) (core world index i counter : Nat) (e : CtxEntry) : State :=
  ((((r.unwait e.ctx.uid).modWorld world fun y => { y with
    counters := Sparse.put y.counters index (counter + 1), saved := Sparse.put y.saved index e.ctx.uid }).dropSaved world index).modCore core
      fun q => { q with cache := Sparse.put q.cache i e })

section
variable {core world index i counter : Nat} {e : CtxEntry}

theorem ctxoutClaimed_eq (hsaved : ∀ y ∈ (r.world world).savedChain, y.1 ≠ index) : ctxoutClaimed r core world index i counter e =
    ((r.unwait e.ctx.uid).modWorld world fun y => { y with
      counters := Sparse.put y.counters index (counter + 1), saved := Sparse.put y.saved index e.ctx.uid }).modCore core
        fun q => { q with cache := Sparse.put q.cache i e } := by
  rw [ctxoutClaimed, dropSaved_none]
  rw [State.modWorld_world]
  exact hsaved

theorem ctxoutClaimed_kept (w : Who) (hw : w.world = world) (hsaved : ∀ y ∈ (r.world world).savedChain, y.1 ≠ index) :
    ChecksKept w r (ctxoutClaimed r core world index i counter e) ∧ ThreadAt r (ctxoutClaimed r core world index i counter e) ∧
    ((ctxoutClaimed r core world index i counter e).world world).counters = Sparse.put (r.world world).counters index (counter + 1) := by
  rw [ctxoutClaimed_eq hsaved]
  subst hw
  refine ⟨.trans (t := (r.unwait e.ctx.uid).modWorld w.world fun y => { y with
      counters := Sparse.put y.counters index (counter + 1), saved := Sparse.put y.saved index e.ctx.uid }) ?_
      (.modCore (f := fun q => { q with cache := Sparse.put q.cache i e }) fun _ => ⟨rfl, rfl, rfl, rfl, rfl⟩),
    .trans (t := (r.unwait e.ctx.uid).modWorld w.world fun y => { y with
      counters := Sparse.put y.counters index (counter + 1), saved := Sparse.put y.saved index e.ctx.uid }) (.of_cores rfl rfl)
      (.modCore (f := fun q => { q with cache := Sparse.put q.cache i e }) (fun _ => rfl) fun _ => rfl), ?_⟩
  · exact .trans (t := r.unwait e.ctx.uid) { ChecksKept.refl w r with } (.modWorld fun _ => ⟨rfl, rfl, rfl, rfl, rfl, rfl⟩)
  · have h := State.modWorld_world (r.unwait e.ctx.uid) w.world fun y => { y with
      counters := Sparse.put y.counters index (counter + 1), saved := Sparse.put y.saved index e.ctx.uid }
    exact congrArg World.counters h

end

/-- The checks of a CTXOUT pass where its descriptor can be read and names an entry of the cache, with nothing in the store buffer. -/
theorem ctxout_starts {i index wlen woff n : Nat} {e : CtxEntry} (hsb : s.myCore.sb = []) (hdesc : CtxDescAt s (s.src a) x)
    (hidx : index = fld x.mb0 32 12) (h1 : fld x.mb0 44 20 = 0) (h2 : fld x.mb0 6 26 = 0) (h16 : x.src.toNat % 16 = 0) (h61 : fld x.src 61 3 = 0)
    (hi : i = fld x.mb0 0 6) (hwl : wlen = fld x.size 32 18) (hwo : woff = fld x.size 0 18)
    (he : s.myCore.cache.find? (fun q => decide (q.1 = i)) = some (i, e)) (h3 : fld x.size 50 14 = 0) (h4 : fld x.size 18 14 = 0)
    (hw1 : wlen % 64 = 0) (hw2 : woff % 64 = 0) (hw3 : woff + wlen ≤ 0x30000)
    (hn : n = imageLen e.ctx.liveTiles.length e.rowsInAll e.accs.length e.planes.length wlen) :
    ∃ caps u, CtxOutStart s u u a x caps e i index wlen woff n (Sparse.get 0 (s.world s.myWorld).counters index) ∧ Alike s.who s.issue u := by
  obtain ⟨caps, u, hu, e1⟩ := readCtxDesc_passes hdesc
  have hcur : u.cur = s.cur := e1.touched.cur_eq.trans s.issue_cur
  have hcore : u.myCore.cache = s.myCore.cache ∧ u.myCore.sb = s.myCore.sb := by
    rw [State.myCore, hcur, e1.touched.core]
    exact ⟨Local.cache (Local.issue s) _, Local.sb_eq (Local.issue s) _⟩
  have hworld : u.world s.myWorld = s.world s.myWorld := (e1.touched.world_eq _).trans (s.issue_worldOf _)
  refine ⟨caps, u, ⟨hu, hi, hidx, hwl, hwo, hcore.1 ▸ he, ⟨h1, h2, h3, h4⟩, ⟨hw1, hw2, hw3⟩, ⟨h16, h61⟩, releaseAll_empty (hcore.2.trans hsb), hn,
    ?_⟩, e1⟩
  rw [hworld]

theorem mem_drop_key {α : Type} {m : Sparse α} {k : Nat} {y : Nat × α} (h : y ∈ Sparse.drop m k) : y.1 ≠ k := by
  induction m with
  | nil => exact absurd h List.not_mem_nil
  | cons q m ih =>
    obtain ⟨j, v⟩ := q
    rw [Sparse.drop] at h
    split at h
    · exact ih h
    · next hj =>
      rcases List.mem_cons.1 h with rfl | h
      · exact hj
      · exact ih h

/-- The image of a CTXOUT whose accesses pass is written, in its two parts. -/
theorem image_written {k : State} {n : Nat} {img : List Byte} (hlen : img.length = n) (hp : AllPass k w 1 .write [(ea, n)]) (caps : List Cap) :
    ∃ v t, writeImage w ea (img.take (64 - ea.toNat % 64)) 1 k = .ok () v ∧
      writeImage w (ea + w64 (64 - ea.toNat % 64)) (img.drop (64 - ea.toNat % 64)) (n / 64 + 1) (v.chargeAll caps) = .ok () t ∧
      ImageWritten w k v ∧ ImageWritten w (v.chargeAll caps) t := by
  have hp' : ∀ p ∈ spanPieces ea n, ∃ pl, Passes k w p.1 .write pl := fun p hpc => (hp _ (List.mem_singleton.2 rfl) p hpc).2
  rw [spanPieces, cutLines] at hp'
  have hfirst : ∀ p ∈ cutLines 1 ea (img.take (64 - ea.toNat % 64)).length, ∃ pl, Passes k w p.1 .write pl := by
    intro p hpc
    rw [List.length_take, hlen, cutLines] at hpc
    split at hpc
    · exact absurd hpc List.not_mem_nil
    · next hne =>
      rw [if_neg (by omega)] at hp'
      rcases List.mem_singleton.1 hpc with rfl
      exact hp' (ea, min n (64 - ea.toNat % 64)) List.mem_cons_self
  obtain ⟨v, hv, ev⟩ := writeImage_passes 1 hfirst
  have hrest : ∀ p ∈ cutLines (n / 64 + 1) (ea + w64 (64 - ea.toNat % 64)) (img.drop (64 - ea.toNat % 64)).length,
      ∃ pl, Passes (v.chargeAll caps) w p.1 .write pl := by
    intro p hpc
    rw [List.length_drop, hlen] at hpc
    rcases Nat.lt_or_ge (64 - ea.toNat % 64) n with hlt | hge
    · rw [if_neg (by omega), Nat.min_eq_right hlt.le] at hp'
      obtain ⟨pl, hpl⟩ := hp' p (List.mem_cons_of_mem _ hpc)
      exact ⟨pl, (ev.steady.trans (Local.steady (Local.chargeAll v caps))) _ _ _ hpl⟩
    · rw [Nat.sub_eq_zero_of_le hge, cutLines, if_pos rfl] at hpc
      exact absurd hpc List.not_mem_nil
  obtain ⟨t, ht, et⟩ := writeImage_passes (n / 64 + 1) hrest
  exact ⟨v, t, hv, ht, ev, et⟩

theorem ctxout_completes {i index wlen woff n : Nat} {e : CtxEntry} (hp : NoPort s [a] (some d)) (h15 : s.cur.slot = 15)
    (hstart : CtxOutStart s u u a x caps e i index wlen woff n (Sparse.get 0 (s.world s.myWorld).counters index)) (he : Alike s.who s.issue u)
    (hlive : s.ctxKeyDead s.myWorld = false) (hfit : n ≤ x.dst.toNat) (hc : Sparse.get 0 (s.world s.myWorld).counters index ≠ 2 ^ 32 - 1)
    (hsaved : ∀ y ∈ (s.world s.myWorld).savedChain, y.1 ≠ index) (hfree : NoneReserved s) (hpass : AllPass s s.who 1 .write [(x.src, n)]) :
    ∃ t, exec (.ctxout d a) s = .next t ∧ Completed s t ∧ (Held s d → t.me.reg d = w64 n) ∧
      Sparse.get 0 (t.world s.myWorld).counters index = Sparse.get 0 (s.world s.myWorld).counters index + 1 ∧ ∀ q ∈ t.myCore.cache, q.1 ≠ i := by
  have hcur : u.cur = s.cur := he.touched.cur_eq.trans s.issue_cur
  have hworld (n : Nat) : u.world n = s.world n := (he.touched.world_eq n).trans (s.issue_worldOf n)
  have hlive' : u.ctxKeyDead s.myWorld = false := by
    have hmer : u.meridian = s.meridian := by
      rw [he.touched.device, (Local.issue s).device]
    rw [← hlive, State.ctxKeyDead, State.ctxKeyDead, hworld, hmer]
  have hfree' : NoneReserved u := fun loc => by
    have hb : u.bank loc = s.bank loc := by
      rw [State.bank, he.touched.banks_eq, (Local.issue s).device]
      rfl
    rw [hb]
    exact hfree loc
  -- The image's pieces pass once the counter is claimed.
  have hsaved' : ∀ y ∈ (u.world s.myWorld).savedChain, y.1 ≠ index := by
    rw [hworld]
    exact hsaved
  obtain ⟨hkept, hat, hcount⟩ := ctxoutClaimed_kept (core := s.cur.core) (i := i) (counter := Sparse.get 0 (s.world s.myWorld).counters index)
    (e := e.takeOut) s.who rfl hsaved'
  have hpass' : AllPass (ctxoutClaimed u s.cur.core s.myWorld index i (Sparse.get 0 (s.world s.myWorld).counters index) e.takeOut) s.who 1 .write
      [(x.src, n)] := by
    have hu : AllPass u s.who 1 .write [(x.src, n)] := ((issue_steady s s.who).trans he.steady).allPass hpass
    have hregion := cutLines_region (n / 64 + 2) hstart.addr.2 fun p hpc => (hu _ (List.mem_singleton.2 rfl) p hpc).2
    intro q hq p hpc
    rcases List.mem_singleton.1 hq with rfl
    obtain ⟨hz, pl, hpl⟩ := hu _ (List.mem_singleton.2 rfl) p hpc
    exact ⟨hz, pl, hkept.passes hpl fun h6 => absurd h6 (hregion p hpc)⟩
  obtain ⟨hlt, hrows, haccs, hplanes⟩ := takeOut_same e
  obtain ⟨v, t, hv, ht, ev, et⟩ := image_written (image_length
    (ctxoutClaimed u s.cur.core s.myWorld index i (Sparse.get 0 (s.world s.myWorld).counters index) e.takeOut) s.cur.core
    ((ctxoutClaimed u s.cur.core s.myWorld index i (Sparse.get 0 (s.world s.myWorld).counters index) e.takeOut).imageKey s.myWorld index) e.takeOut
    (Sparse.get 0 (s.world s.myWorld).counters index + 1) s.myWorld index woff wlen (n := n)
    (by rw [hlt, hrows, haccs, hplanes]; exact hstart.nEq)) hpass' caps
  have hthread : ThreadAt s ((t.modWorld s.myWorld fun y => { y with
      savedChain := Sparse.put y.savedChain index (fld e.takeOut.ctx.chain 0 16) }).modCore s.cur.core
        fun q => { q with cache := Sparse.drop q.cache i }) :=
    ((((((ThreadAt.issue s).trans (.of_alike he)).trans hat).trans (.of_kept ev.threads)).trans (.chargeAll v caps)).trans (.of_kept et.threads)).trans
      (.trans (t := t.modWorld s.myWorld fun y => { y with savedChain := Sparse.put y.savedChain index (fld e.takeOut.ctx.chain 0 16) })
        (.of_cores rfl rfl)
        (.modCore (f := fun q => { q with cache := Sparse.drop q.cache i }) (fun _ => rfl) fun _ => rfl))
  obtain ⟨hdone, hreg⟩ := hthread.completed_written (v := w64 n) hp
  refine ⟨_, ctxout_writes hstart hp h15 hfit hc hlive' (imageWordsFree_ok hfree' ..) rfl rfl hv ht, hdone, hreg, ?_, ?_⟩
  · have hcounters : (t.world s.myWorld).counters =
        Sparse.put (u.world s.myWorld).counters index (Sparse.get 0 (s.world s.myWorld).counters index + 1) := by
      rw [State.world, et.threads.worlds, ← State.world, (Local.chargeAll v caps).world, State.world, ev.threads.worlds, ← State.world]
      exact hcount
    have hmod := State.modWorld_world t s.myWorld fun y => { y with savedChain := Sparse.put y.savedChain index (fld e.takeOut.ctx.chain 0 16) }
    rw [(hthread.written_local _ hp).world]
    refine (congrArg (fun y : World => Sparse.get 0 y.counters index) hmod).trans ?_
    dsimp only
    rw [hcounters, Sparse.get_put_self]
  · intro q hq
    rw [State.myCore, (hthread.written_local _ hp).cur_eq, (hthread.written_local _ hp).cache, hthread.cur, State.modCore_core] at hq
    exact mem_drop_key hq

/-! ## CTXIN completes -/

theorem dropSaved_cur (s : State) (w index : Nat) : (s.dropSaved w index).cur = s.cur := by
  obtain ⟨f, ch, ⟨-, h⟩ | h⟩ := dropSaved_frame s w index
  · rw [h]
    rfl
  · rw [h]

theorem ctxinTaken_thread {core world index i counter : Nat} {h : List Byte} {e : CtxEntry} {window : List Byte} :
    ThreadAt s (ctxinTaken s core world index i counter h e window) := by
  rw [ctxinTaken]
  obtain ⟨u, fl, hu, hpl⟩ := placeWindow_frame (({ s with uidCtr := s.uidCtr + 1 } : State).modWorld world fun y =>
    { y with counters := Sparse.put y.counters index (counter + 1) }) core s.me.uid world (wordIn h 32).toNat (wordIn h 40).toNat window
  obtain ⟨ch, hch⟩ := takeRef_frame (((({ s with uidCtr := s.uidCtr + 1 } : State).modWorld world fun y =>
    { y with counters := Sparse.put y.counters index (counter + 1) }).placeWindow core s.me.uid world (wordIn h 32).toNat
      (wordIn h 40).toNat window).modCore
      core fun k => { k with cache := Sparse.put k.cache i e }) (fld e.ctx.chain 0 16)
  refine .trans ?_ (.of_cores (dropSaved_cur ..) (dropSaved_cores ..))
  refine .trans ?_ (.of_cores (takeRef_cur ..) (by rw [hch]))
  refine .trans ?_ (.modCore (f := fun k => { k with cache := Sparse.put k.cache i e }) (fun _ => rfl) fun _ => rfl)
  rw [hpl]
  exact .trans (t := ({ s with uidCtr := s.uidCtr + 1 } : State).modWorld world fun y =>
    { y with counters := Sparse.put y.counters index (counter + 1) }) (.of_cores rfl rfl) ((ThreadAt.of_kept hu).trans (.of_cores rfl rfl))

theorem roomFor_of_cache {k k' : Core} (h : k.cache = k'.cache) (b : Nat) : k.roomFor b = k'.roomFor b := by
  have hused : k.spillUsed = k'.spillUsed := by rw [Core.spillUsed, h, Core.spillUsed]
  rw [Core.roomFor, Core.roomFor, hused, h]

theorem ctxin_completes {index rows n i : Nat} {h bs : List Byte} (hp : NoPort s [a] (some d)) (h15 : s.cur.slot = 15)
    (hdesc : CtxDescAt s (s.src a) x) (hidx : index = fld x.mb0 32 12) (h1 : fld x.mb0 44 20 = 0) (h16 : x.src.toNat % 16 = 0)
    (h61 : fld x.src 61 3 = 0) (hlive : s.ctxKeyDead s.myWorld = false) (h2 : fld x.mb0 0 32 = 0) (h3 : x.size = 0)
    (hroom : (s.myCore.roomFor 0).isSome = true) (hpass : AllPass s s.who 1 .read [(x.src, 64), (x.src, n)]) (hh : h = seen s s.who s.byte x.src 64)
    (hbs : bs = seen s s.who s.byte x.src n) (hrows : headerRows h = some rows) (hn : n = fld (wordIn h 16) 0 32)
    (hmagic : fld (wordIn h 0) 16 48 = 0x513743580001) (hworld : fld (wordIn h 8) 12 4 = s.myWorld) (hfits : n ≤ x.dst.toNat)
    (hplace : s.myCore.roomFor (headerSpill h rows) = some i)
    (hc : fld (wordIn h 8) 32 32 = Sparse.get 0 (s.world s.myWorld).counters index) (htag : bs.drop (n - 16) = imageTag s s.myWorld index n h bs) :
    ∃ t e, exec (.ctxin d a) s = .next t ∧ Completed s t ∧ (Held s d → t.me.reg d = w64 i) ∧
      Sparse.get 0 (t.world s.myWorld).counters index = Sparse.get 0 (s.world s.myWorld).counters index + 1 ∧
      t.myCore.cache.find? (fun q => decide (q.1 = i)) = some (i, e) ∧ e.st = .held := by
  obtain ⟨caps, u, hu, eu⟩ := readCtxDesc_passes hdesc
  have hpass1 : AllPass s s.who 1 .read [(x.src, 64)] := hpass.of_mem List.mem_cons_self
  have hpass2 : AllPass s s.who 1 .read [(x.src, n)] := hpass.of_mem (List.mem_cons_of_mem _ List.mem_cons_self)
  have hst : Steady s.who s u := (issue_steady s s.who).trans eu.steady
  obtain ⟨v, hv, ev⟩ := engineRead_passes (hst.allPass hpass1)
  obtain ⟨t, ht, et⟩ := engineRead_passes ((hst.trans ev.steady).allPass hpass2)
  have hmu : u.mem = s.mem := eu.mem.trans s.issue_mem
  rw [seen_engine hpass1 hst hmu, ← hh] at hv
  rw [seen_engine hpass2 (hst.trans ev.steady) (ev.mem.trans hmu), ← hbs] at ht
  have htouched : ∀ {y : State}, Touched s.who.world s.issue y → y.cur = s.cur ∧ y.myCore.cache = s.myCore.cache ∧
      (∀ n, y.world n = s.world n) ∧ y.meridian = s.meridian := fun {y} hy => by
    have hcur : y.cur = s.cur := hy.cur_eq.trans s.issue_cur
    refine ⟨hcur, ?_, fun n => (hy.world_eq n).trans (s.issue_worldOf n), by rw [hy.device, (Local.issue s).device]⟩
    rw [State.myCore, hcur, hy.core]
    exact Local.cache (Local.issue s) _
  obtain ⟨hucur, hucache, huw, humer⟩ := htouched eu.touched
  obtain ⟨hvcur, hvcache, hvw, hvmer⟩ := htouched (eu.touched.trans ev.touched)
  obtain ⟨htcur, htcache, htw, htmer⟩ := htouched ((eu.touched.trans ev.touched).trans et.touched)
  have hs : CtxInStart s u a x caps := ⟨hu, ⟨h1, h2, h3⟩, h16, h61⟩
  have hhead : CtxInHeaded s u v x index rows n i h := ⟨hidx, (roomFor_of_cache hucache 0).symm ▸ hroom, by
      rw [← hlive, State.ctxKeyDead, State.ctxKeyDead, huw, humer], hv, hrows, hn, hmagic, hworld, hfits, (roomFor_of_cache hvcache _).trans hplace⟩
  obtain ⟨q, hq⟩ : ∃ q, q = Machine.entryOf (gcmXor (t.imageKey s.myWorld index) (headerIv h) ((bs.drop 64).take (n - 80))) (wordIn h 24).toNat
    (Sparse.get t.uidCtr (t.world s.myWorld).saved index) := ⟨_, rfl⟩
  have hexec := ctxin_opens hs hp h15 hhead (by rw [hvw]; exact hc) ht (by
    rw [htag, imageTag, imageTag, State.imageKey, State.imageKey, htw]) hq
  have hthread : ThreadAt s ((ctxinTaken t s.cur.core s.myWorld index i
      (Sparse.get 0 (t.world s.myWorld).counters index) h q.1 q.2).chargeAll caps) :=
    ((ThreadAt.issue s).trans (.of_kept (.of_touched ((eu.touched.trans ev.touched).trans et.touched)))).trans (ctxinTaken_thread.trans (.chargeAll ..))
  have hloc := (Local.chargeAll (ctxinTaken t s.cur.core s.myWorld index i
      (Sparse.get 0 (t.world s.myWorld).counters index) h q.1 q.2) caps).trans (hthread.written_local (w64 i) hp)
  obtain ⟨hdone, hreg⟩ := hthread.completed_written (v := w64 i) hp
  refine ⟨_, q.1, hexec, hdone, hreg, ?_, ?_, by rw [hq]; exact entryOf_held ..⟩
  · rw [hloc.world, ctxinTaken_counters, Sparse.get_put_self, htw]
  · rw [State.myCore, hloc.cur_eq, hloc.cache, ctxinTaken_cur, htcur]
    exact ctxinTaken_cache

end

theorem contextImagesComplete : Claims.ContextImagesComplete := by
  unfold Claims.ContextImagesComplete
  intro s d a x index hp h15 hsb hdesc hidx h1 h2 h16 h61 hlive
  constructor
  · intro i wlen woff n e hi hwl hwo he h3 h4 hw1 hw2 hw3 hn hfit hc hsaved hfree hpass
    obtain ⟨caps, u, hstart, hu⟩ := ctxout_starts hsb hdesc hidx h1 h2 h16 h61 hi hwl hwo he h3 h4 hw1 hw2 hw3 hn
    exact ctxout_completes hp h15 hstart hu hlive hfit hc hsaved hfree hpass
  · intro rows n i h bs key h2 h3 hroom hpass hh hbs hrows hn hmagic hworld hfits hplace hc hkey htag
    subst hkey
    exact ctxin_completes hp h15 hdesc hidx h1 h16 h61 hlive h2 h3 hroom hpass hh hbs hrows hn hmagic hworld hfits hplace hc htag

/-- Settles O45: CTXOUT and CTXIN are traced through their checks; an image whose pieces all pass is written to its end, since what is
written leaves the checks of the rest as they were. -/
theorem contextImages : Obligations.ContextImages := ⟨contextImages_traced, contextImagesComplete⟩

end Sys2Proof.Machine
end

section
/-! Rows of a transfer made one after another (R167, R168): what a row leaves of its instruction, and that the rows that run are the rows of the
loop. -/

-- One declaration after another: checked side by side, these take more threads than the memory of the check holds.
set_option Elab.async false

namespace Sys2Proof.Machine

open Sys2Proof.Claims

section
variable {s t u : State} {α β : Type}

/-! ## What a row leaves of its instruction -/

/-- The same thread acts, and no stop has been asked of it. -/
structure RowKept (s t : State) : Prop where
  cur : t.cur = s.cur
  stopReq : t.me.stopReq = s.me.stopReq

namespace RowKept

theorem carries : Carries RowKept := ⟨fun _ => ⟨rfl, rfl⟩, fun h k => ⟨k.cur.trans h.cur, k.stopReq.trans h.stopReq⟩⟩

theorem of_touched {w : Nat} (h : Touched w s t) : RowKept s t := ⟨h.cur_eq, by rw [h.me_eq]⟩

theorem modMe {f : Slot → Slot} (hf : ∀ sl, (f sl).stopReq = sl.stopReq) : RowKept s (s.modMe f) := ⟨rfl, by rw [State.modMe_me, hf]⟩

theorem modCore {f : Core → Core} {c : Nat} (hf : ∀ k, (f k).slots = k.slots) : RowKept s (s.modCore c f) := by
  refine ⟨rfl, ?_⟩
  change ((s.modCore c f).slot s.cur.core s.cur.slot).stopReq = _
  rw [State.modCore_slot_of_slots s hf]
  rfl

theorem chargeOnce (s : State) (cap : Cap) : RowKept s (s.chargeOnce cap) := by
  obtain ⟨m, l, hme⟩ := chargeOnce_me s cap
  exact ⟨(Local.chargeOnce s cap).cur_eq, by rw [hme]⟩

theorem chargeAll (s : State) (caps : List Cap) : RowKept s (s.chargeAll caps) := by
  induction caps generalizing s with
  | nil => exact carries.refl s
  | cons c caps ih => exact carries.trans (chargeOnce s c) (ih _)

theorem acquired (s : State) (o : BitVec 2) (n : Nat) : RowKept s (s.acquired o n) :=
  ⟨(Local.acquired s o n).cur_eq, by rw [acquired_me]⟩

end RowKept

section
open RowKept

theorem Does.rowKept {w : Nat} {m : M α} (h : Does (Touched w) m) : Does RowKept m := fun s => .of_touched (h s)

theorem modMe_row {f : Slot → Slot} (hf : ∀ sl, (f sl).stopReq = sl.stopReq) : Does RowKept (Machine.modMe f) := fun _ => .modMe hf
theorem modCore_row {f : Core → Core} (hf : ∀ k, (f k).slots = k.slots) : Does RowKept (Machine.modCore f) := fun _ => .modCore hf
theorem charge_row (n : Nat) : Does RowKept (charge n) := fun s => ⟨rfl, by
  change (s.chargeSlot s.cur.core s.cur.slot n).me.stopReq = _
  rw [chargeMine_me]⟩

theorem chargeCaps_row (caps : List Cap) : Does RowKept (chargeCaps caps) := fun s => by
  rw [chargeCaps_apply]
  exact .chargeAll s caps

theorem acquireOf_row (o : BitVec 2) (n : BitVec 3) : Does RowKept (acquireOf o n) := fun s => by
  rw [acquireOf_apply]
  exact .acquired s o _

theorem Does.atRow {R : State → State → Prop} {fmt : W64} {row : Nat} {m : M α} (h : Does R m) : Does R (atRow fmt row m) := fun s => by
  have hs := h s
  unfold Machine.atRow
  cases hm : m s with
  | ok a t => rwa [hm] at hs
  | error e t =>
    rw [hm] at hs
    cases e <;> exact hs

theorem readSpan_row (w : Who) (ea : W64) (n z : Nat) (m : Mod) : Does RowKept (readSpan w ea n z m) := Does.rowKept (readSpan_does w ea n z m)

/-! ## The elements of a row -/

theorem readElems_row (w : Who) (l : Layout) (i j n : Nat) (m : Mod) : Does RowKept (readElems w l i j n m) :=
  .bind carries (readSpan_row _ _ _ _ _) fun _ => .pure carries _

theorem readColumn_row (w : Who) (l : Layout) (i j n : Nat) (m : Mod) : Does RowKept (readColumn w l i j n m) :=
  .foldlM carries (fun _ _ => .bind carries (readElems_row _ _ _ _ _ _) fun _ => .pure carries _) _ _

theorem checkTensor_row (w : Who) (l : Layout) (a : W64) (n : Nat) : Does RowKept (checkTensor w l a n) := by
  refine .bind carries (.get carries) fun s => ?_
  split
  · exact .trapAt carries _ _ _ _
  · exact .pure carries _

theorem readBlock_row (w : Who) (l : Layout) (start : W64) (m : Mod) (fuel : Nat) (acc : List Byte) (cs : List Cap) :
    Does RowKept (readBlock w l start m fuel acc cs) := by
  induction fuel generalizing acc cs with
  | zero =>
    unfold readBlock
    split
    · exact .pure carries _
    · exact .trapAt carries _ _ _ _
    · exact .trapAt carries _ _ _ _
  | succ f ih =>
    unfold readBlock
    split
    · exact .pure carries _
    · exact .trapAt carries _ _ _ _
    · exact .bind carries (checkTensor_row _ _ _ _) fun _ => .bind carries (readSpan_row _ _ _ _ _) fun _ => ih _ _

theorem blockAt_row (w : Who) (l : Layout) (start : W64) (m : Mod) : Does RowKept (blockAt w l start m) :=
  .bind carries (readBlock_row _ _ _ _ _ _ _) fun _ => .bind carries (.modify fun _ => .modCore fun _ => rfl) fun _ => .pure carries _

theorem groupStart_row (w : Who) (l : Layout) (e : Nat) (m : Mod) : Does RowKept (groupStart w l e m) :=
  .bind carries (readSpan_row _ _ _ _ _) fun _ => .when carries (fun _ => .trapAt carries _ _ _ _) fun _ =>
    .bind carries (checkTensor_row _ _ _ _) fun _ => .pure carries _

theorem walkBlocks_row (w : Who) (l : Layout) (start : W64) (m : Mod) (n : Nat) (cs : List Cap) : Does RowKept (walkBlocks w l start m n cs) := by
  induction n generalizing start cs with
  | zero => exact .pure carries _
  | succ n ih => exact .bind carries (blockAt_row _ _ _ _) fun _ => ih _ _

theorem readCx8_row (w : Who) (l : Layout) (q : Nat) (m : Mod) : Does RowKept (readCx8 w l q m) :=
  .bind carries (.bind carries (groupStart_row _ _ _ _) fun _ => walkBlocks_row _ _ _ _ _ _) fun _ => .bind carries (blockAt_row _ _ _ _) fun _ =>
    .pure carries _

theorem windowRow_row (w : Who) (l : Layout) (row0 col0 r vc : Nat) (m : Mod) : Does RowKept (windowRow w l row0 col0 r vc m) :=
  .ite (fun _ => .bind carries (readCx8_row _ _ _ _) fun _ => .pure carries _) fun _ => .ite (fun _ => readColumn_row _ _ _ _ _ _) fun _ =>
    readElems_row _ _ _ _ _ _

theorem scaleOf_row (w : Who) (l : Layout) (row : Nat) (m : Mod) : Does RowKept (scaleOf w l row m) :=
  .ite (fun _ => .bind carries (.getMe carries) fun _ => .bind carries (.bind carries (readSpan_row _ _ _ _ _) fun _ => .pure carries _) fun _ =>
    .pure carries _) fun _ => .pure carries _

theorem commitLoad_row (t : Num3) (r : Nat) (els : List Nat) (scale : Option W32) (cs : List Cap) : Does RowKept (commitLoad t r els scale cs) :=
  .bind carries (.getMe carries) fun _ => .bind carries (modMe_row fun _ => rfl) fun _ => .bind carries (charge_row _) fun _ =>
    .bind carries (chargeCaps_row _) fun _ => .pure carries _

/-! ## A row written -/

theorem storeRoom_row (w : Who) : Does RowKept (storeRoom w) :=
  .bind carries (.get carries) fun _ => .ite (fun _ => .block carries _) fun _ => .pure carries _

theorem storeEntry_row (w : Who) (ps : List (Place × List Byte)) : Does RowKept (storeEntry w ps) := .modify fun _ => .modCore fun _ => rfl

theorem writePieces_does (w : Who) (spans : List (W64 × List Byte)) (z : Nat) : Does (Touched w.world) (writePieces w spans z) :=
  have hR := Touched.carries w.world
  .foldlM hR (fun _ _ => .bind hR (.foldlM hR (fun _ _ => .bind hR (checkPiece_does _ _ _ _) fun _ => .pure hR _) _ _) fun _ => .pure hR _) _ _

theorem Gives.foldlM {Q : β → Prop} {f : β → α → M β} (hf : ∀ b a, Q b → Gives (fun c _ => Q c) (f b a)) (l : List α) {b : β} (hb : Q b) :
    Gives (fun c _ => Q c) (l.foldlM f b) := by
  induction l generalizing b with
  | nil => exact .pure fun _ => hb
  | cons a l ih => exact .bindOf (hf b a hb) fun _ hc => ih hc

/-- A write is made where the checks of its address put it. -/
theorem writePieces_gives (w : Who) (spans : List (W64 × List Byte)) (z : Nat) :
    Gives (fun (ps : List (W64 × Place × Cap × List Byte)) _ => ∀ p ∈ ps, p.2.1.honest) (writePieces w spans z) := by
  refine Gives.foldlM (Q := fun (ps : List (W64 × Place × Cap × List Byte)) => ∀ p ∈ ps, p.2.1.honest) (fun acc q hacc => ?_) _ nofun
  refine Gives.bindOf (Q := fun (r : List (W64 × Place × Cap × List Byte) × List Byte) => ∀ p ∈ r.1, p.2.1.honest) ?_ fun r hr => .pure fun _ =>
    fun p hp => (List.mem_append.1 hp).elim (hacc p) (hr p)
  refine Gives.foldlM (Q := fun (r : List (W64 × Place × Cap × List Byte) × List Byte) => ∀ p ∈ r.1, p.2.1.honest) (fun r p hr => ?_) _ nofun
  refine Gives.bindOf (checkPiece_gives w p.1 z .write) fun c hc => .pure fun _ => fun x hx => ?_
  rcases List.mem_append.1 hx with hx | hx
  · exact hr x hx
  · rw [List.mem_singleton.1 hx]
    exact hc

theorem Does.forM {R : State → State → Prop} (hR : Carries R) {f : α → M PUnit} (l : List α) (hf : ∀ a ∈ l, Does R (f a)) : Does R (l.forM f) := by
  induction l with
  | nil => exact .pure hR _
  | cons a l ih =>
    exact .bind hR (hf a List.mem_cons_self) fun _ => ih fun x hx => hf x (List.mem_cons_of_mem _ hx)

theorem writeRow_row (w : Who) (spans : List (W64 × List Byte)) (z : Nat) : Does RowKept (writeRow w spans z) := by
  refine .bind carries (storeRoom_row w) fun _ => Does.bindOf carries (writePieces_does w spans z).rowKept (writePieces_gives w spans z) fun ps hps =>
    ?_
  refine .bind carries (.forM carries ps fun p hp => .ite (fun h => ?_) fun _ => .pure carries _) fun _ => ?_
  · have hs : p.2.1.space = .hbm := by
      rw [Bool.and_eq_true, decide_eq_true_eq] at h
      exact h.1
    exact Does.rowKept (lineIn_does w p.2.1.pin p.1 (isHbm_base (hps p hp hs)))
  · exact .when carries (fun _ => storeEntry_row w _) fun _ => .pure carries _

end

/-! ## The rows of the loop -/

/-- Rows made to their ends are the rows of the loop, where the schedule sets no budget. -/
theorem rowLoop_of_rowsRun {body : Nat → M (Option TrapInfo)} {rows : List Nat} (hbody : ∀ r, Does RowKept (body r)) (h : RowsRun body rows s t)
    (hstop : s.me.stopReq = .none) (key : Nat) : rowLoop key rows none body s = .ok () t := by
  induction h with
  | nil s => rfl
  | @cons r rows s u t hr _ ih =>
    have hu : u.me.stopReq = .none := ((hbody r).ok hr).stopReq.trans hstop
    rw [rowLoop]
    simpa [guardRow, hstop, hr] using ih hu

/-- The rows of an instruction that goes on to its last row. -/
theorem forRows_ok {body : Nat → M (Option TrapInfo)} {start stop : Nat} (hbody : ∀ r, Does RowKept (body r))
    (h : RowsRun body (rowRange start stop) (cleared s) t) (hrows : s.cur.rows = none) (hstop : s.me.stopReq = .none) (key : Nat) :
    forRows key start stop body s = .ok () t := by
  rw [forRows_eq, hrows]
  refine rowLoop_of_rowsRun hbody h ?_ key
  rw [cleared, State.modMe_me]
  exact hstop

/-- Rows that keep an invariant can be made. -/
theorem rowsRun_exists {body : Nat → M (Option TrapInfo)} {n : Nat} {I : Nat → State → Prop}
    (hbody : ∀ r t, r < n → I r t → ∃ u, body r t = .ok none u ∧ I (r + 1) u) (hs : I 0 s) : ∃ t, RowsRun body (rowRange 0 n) s t ∧ I n t := by
  suffices hg : ∀ k first (v : State), first + k = n → I first v → ∃ t, RowsRun body (rowRange first n) v t ∧ I n t from hg n 0 s (by omega) hs
  intro k
  induction k with
  | zero =>
    intro first v hk hv
    obtain rfl : first = n := hk
    exact ⟨v, by rw [rowRange_self]; exact .nil v, hv⟩
  | succ k ih =>
    intro first v hk hv
    obtain ⟨u, hu, hI⟩ := hbody first v (by omega) hv
    obtain ⟨t, ht, hI⟩ := ih (first + 1) u (by omega) hI
    exact ⟨t, by rw [rowRange_cons (by omega)]; exact .cons hu ht, hI⟩

end

end Sys2Proof.Machine
end

section
/-! TLD (R129 to R133, R168): how it runs, and a row committed. -/

-- One declaration after another: checked side by side, these take more threads than the memory of the check holds.
set_option Elab.async false

namespace Sys2Proof.Machine

open Sys2Proof.Claims

section
variable {s t u v : State} {w : Who} {td : Num3} {l : Layout} {lcs : List Cap} {sh : W64}

/-! ## An instruction before its rows -/

/-- What a transfer has read of its thread holds still: it has checked, released and acquired, and begun no row. -/
structure Unbegun (s t : State) : Prop where
  cur : t.cur = s.cur
  who : t.who = s.who
  tiles : t.me.tiles = s.me.tiles
  restart : t.me.restart = s.me.restart
  scl : t.me.scl = s.me.scl
  stopReq : t.me.stopReq = s.me.stopReq

namespace Unbegun

theorem trans (h : Unbegun s t) (k : Unbegun t u) : Unbegun s u :=
  ⟨k.cur.trans h.cur, k.who.trans h.who, k.tiles.trans h.tiles, k.restart.trans h.restart, k.scl.trans h.scl, k.stopReq.trans h.stopReq⟩

theorem issue (s : State) : Unbegun s s.issue := by
  refine ⟨s.issue_cur, s.issue_who, s.issue_tiles, s.issue_restart, ?_, ?_⟩ <;> rw [s.issue_frame.2.2]

theorem kept (h : Unbegun s t) (k : ThreadsKept t u) : Unbegun s u :=
  h.trans ⟨k.cur_eq, k.who_eq, by rw [k.me_eq], by rw [k.me_eq], by rw [k.me_eq], by rw [k.me_eq]⟩

theorem touched {n : Nat} (h : Unbegun s t) (k : Touched n t u) : Unbegun s u := h.kept (.of_touched k)

theorem acquired (h : Unbegun s t) (o : BitVec 2) (n : Nat) : Unbegun s (t.acquired o n) := by
  have hl := Local.acquired t o n
  have hme := acquired_me t o n
  have hw : (t.acquired o n).myWorld = t.myWorld := by
    rw [State.myWorld, State.myCore, hl.cur_eq, hl.core]
    rfl
  refine h.trans ⟨hl.cur_eq, ?_, by rw [hme], by rw [hme], by rw [hme], by rw [hme]⟩
  simp only [State.who, hl.cur_eq, hme, hw]

theorem tile (h : Unbegun s t) (n : Num3) : t.me.tile n = s.me.tile n := by
  unfold Slot.tile
  simp only [h.tiles]

theorem resumesAt (h : Unbegun s t) (key : Nat) : resumesAt t key = resumesAt s key := by
  rw [Claims.resumesAt, h.restart, Claims.resumesAt]

theorem toTheEnd (h : Unbegun s t) (hend : ToTheEnd s) : ToTheEnd t := ⟨by rw [h.cur, hend.1], by rw [h.stopReq, hend.2]⟩

end Unbegun

theorem toTheEnd_modMe {f : Slot → Slot} (h : ToTheEnd s) (hf : ∀ sl, (f sl).stopReq = sl.stopReq) : ToTheEnd (s.modMe f) :=
  ⟨h.1, (RowKept.modMe hf).stopReq.trans h.2⟩

/-! ## Layout records and checks before the rows -/

theorem readLayoutAs_does (w : Who) (h : W64) (m : Mod) : Does (Touched w.world) (readLayoutAs w h m) := by
  have hR := Touched.carries w.world
  unfold readLayoutAs
  exact .when hR (fun _ => .trapAt hR _ _ _ _) fun _ => .bind hR (readSpan_does w h 64 8 m) fun _ =>
    .when hR (fun _ => .trapAt hR _ _ _ _) fun _ => .pure hR _

theorem readLayout_ok {h : W64} {m : Mod} (hl : readLayoutAs s.who h m s = .ok (l, lcs) u) : readLayout h m s = .ok (l, lcs) u := by
  rw [readLayout, M.bind_apply, whoMe_apply]
  exact hl

theorem checkTransferTile_ok (h : movable sh) (s : State) : checkTransferTile sh s = .ok () s := by
  obtain ⟨h0, hr, hc, hty⟩ := h
  have hno : ¬(sh = 0 || shRows sh = 0 || shCols sh = 0 || shType sh = 9) = true := by simpa using ⟨⟨⟨h0, hr⟩, hc⟩, hty⟩
  rw [checkTransferTile, if_neg hno]
  rfl

theorem checkPairing_ok (h : shType sh = l.elemTy) (s : State) : checkPairing sh l s = .ok () s := by
  simp [checkPairing, h]

theorem checkCx8_ok {col0 : Nat} (h : l.cx8 = true → shCols sh = 32 ∧ col0 % 32 = 0) (s : State) : checkCx8 l sh col0 s = .ok () s := by
  have hno : ¬(l.cx8 && (shCols sh ≠ 32 || col0 % 32 ≠ 0)) = true := by simpa using h
  rw [checkCx8, if_neg hno]
  rfl

theorem rowsFrom_of_cols (start : Option Nat) (n c : Nat) :
    rowRange (start.getD 0) (if c = 0 then 0 else n) = if n ≠ 0 ∧ c ≠ 0 then rowsFrom start n else [] := by
  by_cases hc : c = 0
  · simp [hc, rowRange]
  · by_cases hn : n = 0
    · simp [hc, hn, rowRange]
    · rw [if_neg hc, if_pos ⟨hn, hc⟩, rowsFrom]

theorem modMe_shaped (n : Num3) (x : W64) (s : State) :
    modMe (fun sl => sl.setTile n ((sl.tile n).reshape x).unscaled) s = .ok () (shaped s n x) := rfl

/-! ## TLD -/

theorem tldRow_row (w : Who) (l : Layout) (row0 col0 vc : Nat) (m : Mod) (lcs : List Cap) (fmt : W64) (r : Nat) :
    Does RowKept (tldRow td w l row0 col0 vc m lcs fmt r) :=
  .atRow (.bind RowKept.carries (windowRow_row _ _ _ _ _ _ _) fun _ => .bind RowKept.carries (scaleOf_row _ _ _ _) fun _ => commitLoad_row _ _ _ _ _)

/-- The checks that TLD makes once. -/
theorem tldChecks_ok {h : W64} {col0 : Nat} (hmov : movable sh) (hty : shType sh = l.elemTy) (hscl : l.rscl = true → l.trans = false ∧ s.me.scl ≠ 0)
    (hcx : l.cx8 = true → shCols sh = 32 ∧ col0 % 32 = 0) : (do
      checkTransferTile sh
      checkPairing sh l
      if l.rscl && (l.trans || (← getMe).scl = 0) then trapAt Cause.shape h
      checkCx8 l sh col0) s = .ok () s := by
  have hno : ¬(l.rscl && (l.trans || decide (s.me.scl = 0))) = true := by simpa using hscl
  simp only [M.bind_apply, checkTransferTile_ok hmov, checkPairing_ok hty, getMe_apply, if_neg hno, checkCx8_ok hcx]

theorem tileLoad_traced : Claims.TileLoad := by
  intro s u v t td a b m l lcs sh start row0 col0 vr vc hp hend hsh hstart hrow0 hcol0 hl hwin hchecks hv hrun
  have hread := Does.ok (readLayoutAs_does _ _ _) hl
  have hstate : Unbegun s (u.acquired m.order m.scope.toNat) := ((Unbegun.issue s).touched hread).acquired ..
  have hl' : readLayout (s.src a) m s.issue = .ok (l, lcs) u := readLayout_ok (by rwa [s.issue_who])
  have hv' : ToTheEnd v := by
    rw [hv]
    split
    · exact toTheEnd_modMe (hstate.toTheEnd hend) fun _ => rfl
    · exact hstate.toTheEnd hend
  have hrows : forRows (restartKey 1 8 0) (start.getD 0) (if vc = 0 then 0 else vr)
      (tldRow td s.who l row0 col0 vc m lcs (loadFmt sh l)) v = .ok () t :=
    forRows_ok (fun r => tldRow_row _ _ _ _ _ _ _ _ _) (by rwa [rowsFrom_of_cols]) hv'.1 hv'.2 _
  refine run_withPorts_ok (c := .done) hp ?_
  simp only [M.bind_apply, rd_apply, State.issue_src, whoMe_apply, State.issue_who, getMe_apply, State.issue_tile, resumeRow_apply, resumesAt_issue,
    ← hsh, ← hstart,
    atRow_ok hl', acquireOf_apply, ← hrow0, ← hcol0, ← hwin]
  cases start with
  | none =>
    obtain ⟨hmov, hty, hscl, hcx⟩ := hchecks rfl
    rw [← hstate.scl] at hscl
    obtain rfl : v = shaped (u.acquired m.order m.scope.toNat) td (withValid sh vr vc) := hv
    have hrest := atRow_ok (fmt := loadFmt sh l) (row := 0) (tldChecks_ok (h := s.src a) hmov hty hscl hcx)
    simp only [Option.isNone_none, if_true, M.bind_apply, hrest, modMe_shaped, hrows, chargeCaps_apply, M.pure_apply]
  | some r =>
    obtain rfl : v = u.acquired m.order m.scope.toNat := hv
    simp only [Option.isNone_some, Bool.false_eq_true, if_false, M.bind_apply, hrows, chargeCaps_apply, M.pure_apply]

/-! ## A row committed -/

/-- What charges of the acting thread leave: its meter, and the capabilities that it has been charged for. -/
structure Charged (s t : State) : Prop where
  frame : Local s t
  me : ∃ m l, t.me = { s.me with meter := m, charged := l }

namespace Charged

theorem refl (s : State) : Charged s s := ⟨.refl s, _, _, rfl⟩

theorem trans (h : Charged s t) (k : Charged t u) : Charged s u := by
  obtain ⟨m, l, hm⟩ := k.me
  obtain ⟨m', l', hm'⟩ := h.me
  exact ⟨h.frame.trans k.frame, m, l, by rw [hm, hm']⟩

theorem mine (s : State) (n : Nat) : Charged s (s.chargeSlot s.cur.core s.cur.slot n) := ⟨.chargeMine s n, _, _, chargeMine_me s n⟩

theorem all (s : State) (caps : List Cap) : Charged s (s.chargeAll caps) := by
  induction caps generalizing s with
  | nil => exact refl s
  | cons c caps ih => exact trans ⟨.chargeOnce s c, chargeOnce_me s c⟩ (ih _)

theorem tile (h : Charged s t) (n : Num3) : t.me.tile n = s.me.tile n := by
  obtain ⟨m, l, hme⟩ := h.me
  rw [hme]
  rfl

theorem slot_eq (h : Charged s t) : t.me.s = s.me.s ∧ t.me.p = s.me.p ∧ t.me.scl = s.me.scl ∧ t.me.pc = s.me.pc := by
  obtain ⟨m, l, hme⟩ := h.me
  rw [hme]
  exact ⟨rfl, rfl, rfl, rfl⟩

end Charged

/-- A tile row with its elements and its scale. -/
def loadedRow (td : Num3) (r : Nat) (els : List Nat) (scale : Option W32) (sl : Slot) : Slot :=
  let tl := sl.tile td
  sl.setTile td { tl.setRow r (rowOf (tySize (shType tl.shape)) els) with scales := (scale.map (tl.scales.setIfInBounds r)).getD tl.scales }

theorem commitLoad_ok (td : Num3) (r : Nat) (els : List Nat) (scale : Option W32) (cs : List Cap) (s : State) :
    ∃ t, commitLoad td r els scale cs s = .ok none t ∧ Charged (s.modMe (loadedRow td r els scale)) t := by
  refine ⟨_, ?_, .trans (.mine _ (pipsOf (els.length * tySize (shType (s.me.tile td).shape)))) (.all _ cs)⟩
  simp only [commitLoad, M.bind_apply, getMe_apply, setTile, modMe_apply, charge_apply, chargeCaps_apply, M.pure_apply]
  cases scale with
  | none =>
    rw [State.modMe_congr (s := s) (f := loadedRow td r els none)
      (g := fun sl => sl.setTile td ((s.me.tile td).setRow r (rowOf (tySize (shType (s.me.tile td).shape)) els))) rfl]
  | some x =>
    rw [State.modMe_congr (s := s) (f := loadedRow td r els (some x))
      (g := fun sl => sl.setTile td { (s.me.tile td).setRow r (rowOf (tySize (shType (s.me.tile td).shape)) els) with
        scales := (s.me.tile td).scales.setIfInBounds r x }) rfl]
    rfl

theorem loadedRow_laws : Claims.LoadedRow := by
  intro s td r els scale cs hr
  obtain ⟨t, ht, hc⟩ := commitLoad_ok td r els scale cs s
  obtain ⟨hs, hp, -, -⟩ := hc.slot_eq
  rw [State.modMe_me] at hs hp
  have htile (i : Num3) : t.me.tile i = (loadedRow td r els scale s.me).tile i := by rw [hc.tile, State.modMe_me]
  have hself : t.me.tile td = { (s.me.tile td).setRow r (rowOf (tySize (shType (s.me.tile td).shape)) els) with
      scales := (scale.map ((s.me.tile td).scales.setIfInBounds r)).getD (s.me.tile td).scales } := by
    rw [htile, loadedRow, Slot.setTile_tile]
  refine ⟨t, ht, by rw [hc.frame.mem_eq]; rfl, hs, hp, by rw [hself]; rfl, fun hlen j hj => ?_, fun i hi => ?_, fun x hx => ?_, fun hx => ?_,
    fun i hi => ?_⟩
  · have hz : (j + 1) * tySize (shType (s.me.tile td).shape) ≤ 64 := (Nat.mul_le_mul_right _ hj).trans hlen
    rw [hself]
    exact (congrArg (elemAt · _ _) (Tile.setRow_row (s.me.tile td) _ hr)).trans (elemAt_rowOf els hz)
  · rw [hself]
    exact Tile.setRow_row_of_ne _ _ (Ne.symm hi)
  · rw [hself, hx]
    exact vat_setIfInBounds 0 (s.me.tile td).scales x hr
  · rw [hself, hx]
    rfl
  · rw [htile, loadedRow]
    exact Slot.setTile_tile_of_ne _ _ hi

end

end Sys2Proof.Machine
end

section
/-! A transfer whose accesses pass (R99): its rows can be made, one after another; and TLD completes. -/

-- One declaration after another: checked side by side, these take more threads than the memory of the check holds.
set_option Elab.async false

namespace Sys2Proof.Machine

open Sys2Proof.Claims

section
variable {s t u v : State} {w : Who} {l : Layout} {lcs : List Cap} {sh : W64} {m : Mod}

/-! ## A transfer underway -/

/-- What a transfer whose accesses pass leaves of its instruction, between its rows: the thread at its pc, memory, and every access that
passes. -/
structure Underway (s t : State) : Prop where
  thread : ThreadAt s t
  steady : Steady s.who s t
  mem : t.mem = s.mem
  scl : t.me.scl = s.me.scl

namespace Underway

theorem refl (s : State) : Underway s s := ⟨.refl s, .refl _ s, rfl, rfl⟩

theorem trans' (h : Underway s t) (hth : ThreadAt t u) (hst : Steady s.who t u) (hmem : u.mem = t.mem) (hscl : u.me.scl = t.me.scl) : Underway s u :=
  ⟨h.thread.trans hth, h.steady.trans hst, hmem.trans h.mem, hscl.trans h.scl⟩

theorem issue (s : State) : Underway s s.issue :=
  ⟨.issue s, issue_steady s _, s.issue_mem, (Unbegun.issue s).scl⟩

theorem alike (h : Underway s t) (e : Alike s.who t u) : Underway s u :=
  h.trans' (.of_alike e) e.steady e.mem (by rw [e.touched.me_eq])

theorem charged (h : Underway s t) (k : Charged t u) : Underway s u := by
  obtain ⟨-, -, hscl, hpc⟩ := k.slot_eq
  refine h.trans' ⟨k.frame.cur_eq, hpc, ?_⟩ k.frame.steady k.frame.mem_eq hscl
  rw [State.myCore, k.frame.cur_eq, k.frame.core]
  rfl

theorem modMe (h : Underway s t) {f : Slot → Slot} (hpc : ∀ sl, (f sl).pc = sl.pc) (hscl : ∀ sl, (f sl).scl = sl.scl) : Underway s (t.modMe f) :=
  h.trans' (.modMe hpc) (Local.modMe t f).steady rfl (by rw [State.modMe_me, hscl])

theorem acquired (h : Underway s t) (o : BitVec 2) (n : Nat) : Underway s (t.acquired o n) := by
  have hl := Local.acquired t o n
  have hme := acquired_me t o n
  refine h.trans' ⟨hl.cur_eq, by rw [hme], ?_⟩ hl.steady hl.mem_eq (by rw [hme])
  rw [State.myCore, hl.cur_eq, hl.core]
  rfl

/-- The instruction ends here. -/
theorem completed (h : Underway s t) : Completed s t.finish ∧ t.finish.mem = s.mem :=
  ⟨h.thread.completed, (Local.finish t).mem_eq.trans h.mem⟩

end Underway

/-- A transfer underway that only loads: the store buffer is as it was. -/
structure Loading (s t : State) : Prop where
  under : Underway s t
  sb : (t.core s.cur.core).sb = s.myCore.sb

namespace Loading

theorem issue (s : State) : Loading s s.issue := ⟨.issue s, (Local.issue s).sb_eq _⟩
theorem alike (h : Loading s t) (e : Alike s.who t u) : Loading s u := ⟨h.under.alike e, by rw [e.touched.sb_eq, h.sb]⟩
theorem charged (h : Loading s t) (k : Charged t u) : Loading s u := ⟨h.under.charged k, by rw [k.frame.sb_eq, h.sb]⟩

theorem modMe (h : Loading s t) (f : Slot → Slot) (hpc : ∀ sl, (f sl).pc = sl.pc) (hscl : ∀ sl, (f sl).scl = sl.scl) : Loading s (t.modMe f) :=
  ⟨h.under.modMe hpc hscl, by rw [(Local.modMe t f).sb_eq, h.sb]⟩

theorem acquired (h : Loading s t) (o : BitVec 2) (n : Nat) : Loading s (t.acquired o n) :=
  ⟨h.under.acquired o n, by rw [(Local.acquired t o n).sb_eq, h.sb]⟩

theorem unhindered (h : Loading s t) (hm : Unhindered s m) : m.order = 0 ∨ (t.core s.who.core).sb = [] := hm.imp id fun q => h.sb.trans q

theorem passes (h : Loading s t) {z : Nat} {k : Kind} {spans : List (W64 × Nat)} (hp : AllPass s s.who z k spans) : AllPass t s.who z k spans :=
  h.under.steady.allPass hp

end Loading

/-! ## Elements read -/

/-- A fold whose steps succeed from states alike succeeds, and leaves such a state. -/
theorem foldlM_alike {α β : Type} {f : β → α → M β} (xs : List α)
    (hf : ∀ b, ∀ a ∈ xs, ∀ v, Alike w s v → ∃ b' v', f b a v = .ok b' v' ∧ Alike w v v') (b : β) :
    ∃ b' v, xs.foldlM f b s = .ok b' v ∧ Alike w s v := by
  suffices hg : ∀ u, Alike w s u → ∀ b, ∃ b' v, xs.foldlM f b u = .ok b' v ∧ Alike w s v from hg s (.refl w s) b
  induction xs with
  | nil => exact fun u hu b => ⟨b, u, rfl, hu⟩
  | cons a xs ih =>
    intro u hu b
    obtain ⟨b', v, hv, hw⟩ := hf b a List.mem_cons_self u hu
    obtain ⟨b'', v', hv', hw'⟩ := ih (fun b x hx => hf b x (List.mem_cons_of_mem _ hx)) v (hu.trans hw) b'
    refine ⟨b'', v', ?_, hw'⟩
    rw [List.foldlM_cons, M.bind_apply, hv]
    exact hv'

theorem Unhindered.alike (hm : m.order = 0 ∨ (s.core w.core).sb = []) (e : Alike w s t) : m.order = 0 ∨ (t.core w.core).sb = [] :=
  hm.imp id fun h => by rw [e.touched.sb_eq, h]

theorem readElems_passes {i j n : Nat} (hm : m.order = 0 ∨ (s.core w.core).sb = [])
    (h : AllPass s w (tySize l.type) .read [(l.addr i j, n * tySize l.type)]) : ∃ p t, readElems w l i j n m s = .ok p t ∧ Alike w s t := by
  obtain ⟨cs, t, ht, e⟩ := readSpan_passes hm h
  exact ⟨_, t, by rw [readElems, M.bind_apply, ht]; rfl, e⟩

theorem readColumn_passes {i j n : Nat} (hm : m.order = 0 ∨ (s.core w.core).sb = [])
    (h : AllPass s w (tySize l.type) .read ((List.range n).map fun k => (l.addr (i + k) j, tySize l.type))) :
    ∃ p t, readColumn w l i j n m s = .ok p t ∧ Alike w s t := by
  unfold readColumn
  refine foldlM_alike _ (fun p k hk v e => ?_) _
  obtain ⟨els, cs⟩ := p
  have hk' : AllPass v w (tySize l.type) .read [(l.addr (i + k) j, 1 * tySize l.type)] := by
    rw [Nat.one_mul]
    exact (e.steady.allPass h).of_mem (List.mem_map_of_mem hk)
  obtain ⟨q, x, hx, ex⟩ := readElems_passes (Unhindered.alike hm e) hk'
  refine ⟨(els ++ q.1, cs ++ q.2), x, ?_, ex⟩
  simp only [M.bind_apply, hx]
  rfl

theorem windowRow_passes {row0 col0 r n : Nat} (hm : m.order = 0 ∨ (s.core w.core).sb = []) (hcx : l.cx8 = false)
    (h : AllPass s w (tySize l.type) .read (rowSpans l row0 col0 r n)) : ∃ p t, windowRow w l row0 col0 r n m s = .ok p t ∧ Alike w s t := by
  have hno : ¬l.cx8 = true := by simp [hcx]
  rw [windowRow, if_neg hno]
  unfold rowSpans at h
  split
  · next ht =>
    rw [if_pos ht] at h
    exact readColumn_passes hm h
  · next ht =>
    rw [if_neg ht] at h
    exact readElems_passes hm h

theorem scaleOf_passes {row : Nat} (hm : m.order = 0 ∨ (s.core w.core).sb = [])
    (h : l.rscl = true → AllPass s w 4 .read [(s.me.scl + w64 (4 * (l.rsoff + row)), 4)]) :
    ∃ p t, scaleOf w l row m s = .ok p t ∧ Alike w s t := by
  unfold scaleOf
  split
  · next hr =>
    obtain ⟨cs, t, ht, e⟩ := readSpan_passes hm (h hr)
    obtain ⟨x, hread⟩ : ∃ x, readScale w l s.me.scl row m s = .ok x t := ⟨_, by rw [readScale, M.bind_apply, ht]; rfl⟩
    refine ⟨(some x.1, x.2), t, ?_, e⟩
    simp only [M.bind_apply, getMe_apply, hread]
    rfl
  · exact ⟨_, s, rfl, .refl w s⟩

/-! ## TLD -/

/-- A layout record that may be read, where nothing hinders. -/
theorem readLayoutAs_passes {h : W64} (hm : Unhindered s m) (hl : LayoutAt s h l) :
    ∃ lcs u, readLayoutAs s.who h m s.issue = .ok (l, lcs) u ∧ Alike s.who s.issue u := by
  obtain ⟨h64, hp, hlay, hok⟩ := hl
  obtain ⟨cs, u, hu, e⟩ := readMine_issue_passes hm hp
  rw [readMine, M.bind_apply, whoMe_apply, s.issue_who] at hu
  refine ⟨cs, u, ?_, e⟩
  have hno : ¬h.toNat % 64 ≠ 0 := fun q => q h64
  have hno' : ¬(!layoutOk (loaded s h 64) (layoutOf h (loaded s h 64))) = true := by rw [← hlay, hok]; decide
  rw [readLayoutAs, if_neg hno]
  simp only [M.bind_apply, hu, if_neg hno', hlay]
  rfl

/-- The tile that a transfer loads, under its new shape. -/
structure LoadingTile (s : State) (td : Num3) (sh : W64) (t : State) : Prop where
  load : Loading s t
  shape : (t.me.tile td).shape = sh

namespace LoadingTile
variable {td : Num3} {row : State}

/-- A tile given its shape, and pend cleared: the state in which its rows begin. -/
theorem begun (h : Loading s t) (td : Num3) (sh : W64) : LoadingTile s td sh (cleared (shaped t td sh)) := by
  refine ⟨(h.modMe (fun sl => sl.setTile td ((sl.tile td).reshape sh).unscaled) (fun _ => rfl) fun _ => rfl).modMe
    (fun sl => { sl with restart := w64 (sl.restart.toNat % 2 ^ 63) }) (fun _ => rfl) fun _ => rfl, ?_⟩
  rw [cleared, State.modMe_me, shaped, State.modMe_me]
  exact congrArg Tile.shape (Slot.setTile_tile ..)

theorem alike (h : LoadingTile s td sh t) (e : Alike s.who t u) : LoadingTile s td sh u := ⟨h.load.alike e, by rw [e.touched.me_eq, h.shape]⟩

theorem acquired (h : LoadingTile s td sh t) (o : BitVec 2) (n : Nat) : LoadingTile s td sh (t.acquired o n) :=
  ⟨h.load.acquired o n, by rw [acquired_me, h.shape]⟩

/-- A row committed. -/
theorem commit (h : LoadingTile s td sh t) (r : Nat) (els : List Nat) (x : Option W32) (cs : List Cap) :
    ∃ u, commitLoad td r els x cs t = .ok none u ∧ LoadingTile s td sh u := by
  obtain ⟨u, hu, hc⟩ := commitLoad_ok td r els x cs t
  refine ⟨u, hu, (h.load.modMe (loadedRow td r els x) (fun _ => rfl) fun _ => rfl).charged hc, ?_⟩
  rw [hc.tile, State.modMe_me, loadedRow, Slot.setTile_tile]
  exact h.shape

theorem completed (h : LoadingTile s td sh t) (caps : List Cap) :
    Completed s (t.chargeAll caps).finish ∧ ((t.chargeAll caps).finish.me.tile td).shape = sh ∧ (t.chargeAll caps).finish.mem = s.mem := by
  have hc := Charged.all t caps
  obtain ⟨hcomp, hmem⟩ := (h.load.charged hc).under.completed
  refine ⟨hcomp, ?_, hmem⟩
  rw [State.finish_me]
  exact (congrArg Tile.shape (hc.tile td)).trans h.shape

end LoadingTile

theorem tldRow_passes {td : Num3} {row0 col0 vc r : Nat} (hm : Unhindered s m) (hcx : l.cx8 = false)
    (h : AllPass s s.who (tySize l.type) .read (rowSpans l row0 col0 r vc))
    (hs : l.rscl = true → AllPass s s.who 4 .read [(s.me.scl + w64 (4 * (l.rsoff + (row0 + r))), 4)]) (fmt : W64) (ht : LoadingTile s td sh t) :
    ∃ u, tldRow td s.who l row0 col0 vc m lcs fmt r t = .ok none u ∧ LoadingTile s td sh u := by
  obtain ⟨p, v, hv, ev⟩ := windowRow_passes (ht.load.unhindered hm) hcx (ht.load.passes h)
  have hv' := ht.alike ev
  obtain ⟨q, x, hx, ex⟩ := scaleOf_passes (row := row0 + r) (hv'.load.unhindered hm) fun hr => by
    rw [hv'.load.under.scl]
    exact hv'.load.passes (hs hr)
  obtain ⟨u, hu, ht'⟩ := (hv'.alike ex).commit r p.1 q.1 (lcs ++ p.2 ++ q.2)
  refine ⟨u, atRow_ok ?_, ht'⟩
  simp only [M.bind_apply, hv, hx]
  exact hu

theorem tldCompletes : Claims.TldCompletes := by
  intro s td a b m l sh row0 col0 vr vc hp hend hres hm hsh hrow0 hcol0 hl hmov hty hcx hwin hrows hscl
  obtain ⟨lcs, u, hu, e⟩ := readLayoutAs_passes hm hl
  obtain ⟨t, hrun, ht⟩ := rowsRun_exists (n := if vc = 0 then 0 else vr) (I := fun _ => LoadingTile s td (withValid sh vr vc))
    (body := tldRow td s.who l row0 col0 vc m lcs (tfmtWord (tyCode sh) l.type 15 15))
    (fun r t hr ht => tldRow_passes hm hcx (hrows r (hr.trans_le (by split <;> omega))) (fun hs => (hscl hs).2.2 _
      (List.mem_map_of_mem (List.mem_range.2 (hr.trans_le (by split <;> omega))))) _ ht)
    (.begun (((Loading.issue s).alike e).acquired m.order m.scope.toNat) td (withValid sh vr vc))
  obtain ⟨hcomp, hshape, hmem⟩ := ht.completed lcs
  refine ⟨_, tileLoad_traced s u _ t td a b m l lcs sh none row0 col0 vr vc hp hend hsh hres.symm hrow0 hcol0 hu hwin
    (fun _ => ⟨hmov, hty, fun hs => ⟨(hscl hs).1, (hscl hs).2.1⟩, fun h => by simp [hcx] at h⟩) rfl ?_, hcomp, hshape, hmem⟩
  rw [← rowsFrom_of_cols]
  exact hrun

end

end Sys2Proof.Machine

namespace Sys2Proof

/-- Settles O12: the rows that the loop of TLD makes are those of the statement, each committed whole; where the accesses pass, each can be made. -/
theorem tileLoad : Obligations.TileLoad := ⟨Machine.tileLoad_traced, Machine.loadedRow_laws, Machine.tldCompletes⟩

end Sys2Proof
end

section
/-! TST (R129 to R133, R168, R244): how it runs, and a row that enters the store buffer. -/

-- One declaration after another: checked side by side, these take more threads than the memory of the check holds.
set_option Elab.async false

namespace Sys2Proof.Machine

open Sys2Proof.Claims

section
variable {s t u v : State} {w : Who} {l : Layout} {lcs : List Cap} {sh : W64} {m : Mod} {z : Nat}

/-! ## How TST runs -/

theorem cx8Span_row (w : Who) (l : Layout) (tl : Tile) (row0 r : Nat) (m : Mod) : Does RowKept (cx8Span w l tl row0 r m) :=
  .bind RowKept.carries (groupStart_row _ _ _ _) fun _ => .pure RowKept.carries _

/-- A row stored, then paid for: what every row of a store ends with. -/
theorem storeRow_row (w : Who) (spans : List (W64 × List Byte)) (z n : Nat) (cs : List Cap → List Cap) : Does RowKept (do
    let ws ← writeRow w spans z
    charge n
    chargeCaps (cs ws)
    return (none : Option TrapInfo)) :=
  have hR := RowKept.carries
  .bind hR (writeRow_row w spans z) fun _ => .bind hR (charge_row n) fun _ => .bind hR (chargeCaps_row _) fun _ => .pure hR _

theorem tstRow_row (tl : Tile) (w : Who) (l : Layout) (row0 col0 cols : Nat) (m : Mod) (lcs : List Cap) (fmt : W64) (r : Nat) :
    Does RowKept (tstRow tl w l row0 col0 cols m lcs fmt r) := by
  have hR := RowKept.carries
  unfold tstRow
  exact .atRow (.ite (fun _ => .bind hR (cx8Span_row w l tl row0 r m) fun _ => storeRow_row w _ _ _ fun ws => lcs ++ _ ++ ws)
    fun _ => .bind hR (.pure hR _) fun _ => storeRow_row w _ _ _ fun ws => lcs ++ _ ++ ws)

/-- The checks that TST makes once. -/
theorem tstChecks_ok {h : W64} {row0 col0 : Nat} (hmov : movable sh) (hty : shType sh = l.elemTy)
    (hcx : l.cx8 = true → shCols sh = 32 ∧ col0 % 32 = 0 ∧ l.cols = 32 ∧ row0 % 16 = 0) (s : State) : (do
      checkTransferTile sh
      checkPairing sh l
      checkCx8 l sh col0
      if l.cx8 && (l.cols ≠ 32 || row0 % 16 ≠ 0) then trapAt Cause.shape h) s = .ok () s := by
  have hno : ¬(l.cx8 && (l.cols ≠ 32 || row0 % 16 ≠ 0)) = true := by
    simpa using fun q => (hcx q).2.2
  simp only [M.bind_apply, checkTransferTile_ok hmov, checkPairing_ok hty, checkCx8_ok fun q => ⟨(hcx q).1, (hcx q).2.1⟩, if_neg hno]
  rfl

theorem tstRows_eq (start : Option Nat) (n vc cols : Nat) (cx8 : Bool) :
    rowRange (start.getD 0) (if (vc = 0 || (cols = 0 && !cx8)) = true then 0 else n) =
      if vc ≠ 0 ∧ (cols ≠ 0 ∨ cx8 = true) then rowsFrom start n else [] := by
  by_cases h : (vc = 0 || (cols = 0 && !cx8)) = true
  · have hno : ¬(vc ≠ 0 ∧ (cols ≠ 0 ∨ cx8 = true)) := by
      rcases Bool.or_eq_true_iff.1 h with h | h
      · exact fun q => q.1 (of_decide_eq_true h)
      · obtain ⟨hc, hx⟩ := Bool.and_eq_true_iff.1 h
        exact fun q => q.2.elim (· (of_decide_eq_true hc)) fun hy => by simp [hy] at hx
    rw [if_pos h, if_neg hno]
    simp [rowRange]
  · have hyes : vc ≠ 0 ∧ (cols ≠ 0 ∨ cx8 = true) := by
      refine ⟨fun q => h (by simp [q]), ?_⟩
      by_contra q
      obtain ⟨hc, hx⟩ := not_or.1 q
      exact h (by simp [not_not.1 hc, hx])
    rw [if_neg h, if_pos hyes, rowsFrom]

theorem tileStore_traced : Claims.TileStore := by
  intro s u v t td a b m l lcs sh start row0 col0 rows cols hp hend hsh hstart hrow0 hcol0 hrel hl hrows hcols hchecks hrun
  have hu : Unbegun s u := (Unbegun.issue s).kept (ThreadsKept.issue_ok (releaseAt_kept _ _) hrel)
  have hv : Unbegun s v := hu.touched (Does.ok (readLayoutAs_does _ _ _) hl)
  have hl' : readLayout (s.src a) m u = .ok (l, lcs) v := readLayout_ok (by rwa [hu.who])
  have hv' := hv.toTheEnd hend
  have hloop : forRows (restartKey 1 8 1) (start.getD 0) (if ((window l sh row0 col0).2 = 0 || (cols = 0 && !l.cx8)) = true then 0 else rows)
      (tstRow (s.me.tile td) s.who l row0 col0 cols m lcs (storeFmt sh l)) v = .ok () t :=
    forRows_ok (fun r => tstRow_row _ _ _ _ _ _ _ _ _ _) (by rwa [tstRows_eq]) hv'.1 hv'.2 _
  refine run_withPorts_ok (c := .done) hp ?_
  simp only [M.bind_apply, rd_apply, State.issue_src, whoMe_apply, State.issue_who, hrel, getMe_apply, hu.tile, resumeRow_apply, hu.resumesAt, ← hsh,
    ← hstart, atRow_ok hl', ← hrow0, ← hcol0]
  cases start with
  | none =>
    obtain ⟨hmov, hty, hcx⟩ := hchecks rfl
    simp only [Option.isNone_none, if_true, M.bind_apply, atRow_ok (tstChecks_ok hmov hty hcx v), ← hrows, ← hcols, hloop, chargeCaps_apply,
      M.pure_apply]
  | some r =>
    simp only [Option.isNone_some, Bool.false_eq_true, if_false, M.bind_apply, ← hrows, ← hcols, hloop, chargeCaps_apply, M.pure_apply]

/-! ## A row that enters the store buffer -/

/-- A loop whose steps succeed from states alike succeeds, and leaves such a state. -/
theorem forM_alike {α : Type} {f : α → M PUnit} (xs : List α) (hf : ∀ a ∈ xs, ∀ v, Alike w s v → ∃ v', f a v = .ok () v' ∧ Alike w v v') :
    ∃ v, xs.forM f s = .ok () v ∧ Alike w s v := by
  suffices hg : ∀ u, Alike w s u → ∃ v, xs.forM f u = .ok () v ∧ Alike w s v from hg s (.refl w s)
  induction xs with
  | nil => exact fun u hu => ⟨u, rfl, hu⟩
  | cons a xs ih =>
    intro u hu
    obtain ⟨v, hv, hw⟩ := hf a List.mem_cons_self u hu
    obtain ⟨v', hv', hw'⟩ := ih (fun x hx => hf x (List.mem_cons_of_mem _ hx)) v (hu.trans hw)
    refine ⟨v', ?_, hw'⟩
    change (f a >>= fun _ => xs.forM f) u = _
    rw [M.bind_apply, hv]
    exact hv'

/-- An entry behind what stands in the store buffer. -/
def bufferedBy (e : SbEntry) (k : Core) : Core := { k with sb := k.sb ++ [e] }

/-- A state in which a store entered the buffer of the maker's core, where it had a byte. -/
def Buffered (w : Who) (bytes : Nat) (s t : State) : Prop :=
  ∃ u, Alike w s u ∧ ((bytes = 0 ∧ t = u) ∨ (bytes ≠ 0 ∧ ∃ e, t = u.modCore w.core (bufferedBy e)))

theorem spanPieces_nil {n : Nat} {ea : W64} : (spanPieces ea n).length = 0 ↔ n = 0 := by
  rw [spanPieces, cutLines]
  split <;> simp_all

/-- A fold that adds to a size what each element counts. -/
theorem Gives.foldlM_sum {α β : Type} {f : β → α → M β} {size : β → Nat} {n : α → Nat}
    (hf : ∀ b a, Gives (fun c _ => size c = size b + n a) (f b a)) (xs : List α) (b : β) :
    Gives (fun c _ => size c = size b + (xs.map n).sum) (xs.foldlM f b) := by
  induction xs generalizing b with
  | nil => exact .pure fun _ => rfl
  | cons a xs ih =>
    refine .bindOf (hf b a) fun c hc => ?_
    rw [List.map_cons, List.sum_cons, ← Nat.add_assoc, ← hc]
    exact ih c

/-- Pieces are found where there are bytes. -/
theorem writePieces_empty (w : Who) (spans : List (W64 × List Byte)) (z : Nat) :
    Gives (fun (ps : List (W64 × Place × Cap × List Byte)) _ => ps.length = 0 ↔ (spans.map fun q => q.2.length).sum = 0) (writePieces w spans z) := by
  have hsize : Gives (fun (ps : List (W64 × Place × Cap × List Byte)) _ => ps.length = 0 + (spans.map fun q => (spanPieces q.1 q.2.length).length).sum)
      (writePieces w spans z) := by
    refine Gives.foldlM_sum (size := List.length) (fun acc q => ?_) spans []
    refine Gives.bindOf (Q := fun (r : List (W64 × Place × Cap × List Byte) × List Byte) => r.1.length = 0 +
      ((spanPieces q.1 q.2.length).map fun _ => 1).sum) ?_ fun r hr => .pure fun _ => ?_
    · exact Gives.foldlM_sum (size := fun (r : List (W64 × Place × Cap × List Byte) × List Byte) => r.1.length) (fun r p =>
        .bind fun c => .pure fun _ => by rw [List.length_append]; rfl) _ _
    · rw [List.length_append, hr, List.map_const', List.sum_replicate, Nat.zero_add, smul_eq_mul, Nat.mul_one]
  intro s ps t h
  rw [hsize s ps t h, Nat.zero_add, List.sum_eq_zero_iff, List.sum_eq_zero_iff]
  simp only [List.mem_map, forall_exists_index, and_imp, forall_apply_eq_imp_iff₂, spanPieces_nil]

theorem storeEntry_ok (w : Who) (ps : List (Place × List Byte)) (s : State) :
    ∃ e, storeEntry w ps s = .ok () (s.modCore w.core (bufferedBy e)) := ⟨_, rfl⟩

theorem writeRow_passes {spans : List (W64 × List Byte)} (hroom : (s.core w.core).sb.length < 32)
    (h : AllPass s w z .write (spans.map fun q => (q.1, q.2.length))) :
    ∃ cs t, writeRow w spans z s = .ok cs t ∧ Buffered w (spans.map fun q => q.2.length).sum s t := by
  obtain ⟨ps, u, hu, e, hps⟩ := writePieces_passes h
  have hempty := writePieces_empty w spans z _ _ _ hu
  obtain ⟨v, hv, ev⟩ : ∃ v, (ps.forM fun x => if (decide (x.2.1.space = .hbm) && decide (x.2.2.2.length ≠ 64)) = true then
      lineIn w (x.2.1.loc / 64) x.2.1.pin x.1 else pure ()) u = .ok () v ∧ Alike w u v := by
    refine forM_alike ps fun x hx y ey => ?_
    split
    · next hc =>
      have hs : x.2.1.space = .hbm := of_decide_eq_true (Bool.and_eq_true_iff.1 hc).1
      have hpl := ey.steady _ _ _ (hps x hx)
      exact lineIn_passes x.2.1.pin x.1 (isHbm_base (hpl.honest hs)) (hpl.2.2.2 hs)
    · exact ⟨y, rfl, .refl w y⟩
  have hs : storeRoom w s = .ok () s := storeRoom_ok hroom
  by_cases h0 : ps.length = 0
  · obtain rfl : ps = [] := List.eq_nil_of_length_eq_zero h0
    refine ⟨[], v, ?_, v, e.trans ev, .inl ⟨hempty.1 h0, rfl⟩⟩
    simp only [writeRow, M.bind_apply, hs, hu, hv]
    rfl
  · have hne : (!ps.isEmpty) = true := by
      cases ps
      · exact absurd rfl h0
      · rfl
    obtain ⟨x, hx⟩ := storeEntry_ok w (ps.map fun x => (x.2.1, x.2.2.2)) v
    refine ⟨ps.map fun x => x.2.2.1, _, ?_, v, e.trans ev, .inr ⟨fun q => h0 (hempty.2 q), x, rfl⟩⟩
    simp only [writeRow, M.bind_apply, hs, hu, hv, hne, if_true, hx, M.pure_apply]

/-! ## A transfer that stores -/

/-- A transfer underway that has put so many entries into the store buffer. -/
structure Storing (s : State) (n : Nat) (t : State) : Prop where
  under : Underway s t
  sb : (t.core s.cur.core).sb.length = s.myCore.sb.length + n

namespace Storing
variable {n : Nat}

theorem alike (h : Storing s n t) (e : Alike s.who t u) : Storing s n u := ⟨h.under.alike e, by rw [e.touched.sb_eq, h.sb]⟩
theorem charged (h : Storing s n t) (k : Charged t u) : Storing s n u := ⟨h.under.charged k, by rw [k.frame.sb_eq, h.sb]⟩

theorem begun (e : Alike s.who s.issue t) : Storing s 0 (cleared t) :=
  ⟨((Underway.issue s).alike e).modMe (f := fun sl => { sl with restart := w64 (sl.restart.toNat % 2 ^ 63) }) (fun _ => rfl) fun _ => rfl, by
    rw [cleared, (Local.modMe t _).sb_eq, e.touched.sb_eq, (Local.issue s).sb_eq]
    rfl⟩

theorem buffered {bytes : Nat} (h : Storing s n t) (hb : Buffered s.who bytes t u) : Storing s (n + if bytes = 0 then 0 else 1) u := by
  obtain ⟨v, e, ⟨h0, rfl⟩ | ⟨h0, x, rfl⟩⟩ := hb
  · rw [if_pos h0]
    exact h.alike e
  · rw [if_neg h0]
    have hv := h.alike e
    have hme : (v.modCore s.who.core (bufferedBy x)).me = v.me :=
      State.modCore_slot_of_slots v (f := bufferedBy x) (fun _ => rfl) s.who.core v.cur.core v.cur.slot
    have hst : Steady s.who v (v.modCore s.who.core (bufferedBy x)) :=
      (ChecksKept.modCore (f := bufferedBy x) fun _ => ⟨rfl, rfl, rfl, rfl, rfl⟩).steady rfl
    refine ⟨hv.under.trans' (.modCore (f := bufferedBy x) (fun _ => rfl) fun _ => rfl) hst rfl (by rw [hme]), ?_⟩
    rw [State.who_core, State.modCore_core, bufferedBy]
    exact (List.length_append ..).trans (by rw [hv.sb]; rfl)

/-- A row enters the buffer and is paid for. -/
theorem row {spans : List (W64 × List Byte)} (h : Storing s n t) (hroom : s.myCore.sb.length + n < 32)
    (hp : AllPass s s.who z .write (spans.map fun q => (q.1, q.2.length))) (pips : Nat) (cs : List Cap → List Cap) :
    ∃ u, (do
      let ws ← writeRow s.who spans z
      charge pips
      chargeCaps (cs ws)
      return (none : Option TrapInfo)) t = .ok none u ∧ Storing s (n + if (spans.map fun q => q.2.length).sum = 0 then 0 else 1) u := by
  obtain ⟨ws, u, hu, hb⟩ := writeRow_passes (s := t) (w := s.who) (by rw [State.who_core, h.sb]; exact hroom) (h.under.steady.allPass hp)
  refine ⟨_, ?_, (h.buffered hb).charged (.trans (.mine u pips) (.all _ (cs ws)))⟩
  simp only [M.bind_apply, hu, charge_apply, chargeCaps_apply, M.pure_apply]

theorem completed (h : Storing s n t) (caps : List Cap) : Completed s (t.chargeAll caps).finish ∧ (t.chargeAll caps).finish.mem = s.mem ∧
    (t.chargeAll caps).finish.myCore.sb.length = s.myCore.sb.length + n := by
  have hc := h.charged (Charged.all t caps)
  obtain ⟨hcomp, hmem⟩ := hc.under.completed
  refine ⟨hcomp, hmem, ?_⟩
  rw [State.myCore, (Local.finish _).cur_eq, (Local.finish _).sb_eq, hc.under.thread.cur, hc.sb]

end Storing

/-! ## Rows of a tile stored -/

theorem rowElems_length (tl : Tile) (r n : Nat) : (tl.rowElems r n).length = n := by rw [Tile.rowElems, List.length_map, List.length_range]

theorem bytesOf_length (z : Nat) (els : List Nat) : (bytesOf z els).length = els.length * z := by
  induction els with
  | nil => exact (Nat.zero_mul z).symm
  | cons e els ih =>
    change (natToLe z e ++ bytesOf z els).length = _
    rw [List.length_append, natToLe_length, ih, List.length_cons, Nat.add_mul, Nat.one_mul, Nat.add_comm]

theorem storeSpans_lengths (l : Layout) (row0 col0 r : Nat) (els : List Nat) :
    (storeSpans l row0 col0 r els).map (fun q => (q.1, q.2.length)) = rowSpans l row0 col0 r els.length := by
  unfold storeSpans rowSpans
  split
  · refine List.ext_getElem (by simp) fun i h h' => ?_
    simp [natToLe_length]
  · simp [bytesOf_length]

theorem rowSpans_sum (l : Layout) (row0 col0 r n : Nat) : ((rowSpans l row0 col0 r n).map Prod.snd).sum = n * tySize l.type := by
  unfold rowSpans
  split
  · rw [List.map_map]
    simp [Function.comp_def]
  · simp

theorem mul_tySize_eq_zero (n ty : Nat) : n * tySize ty = 0 ↔ n = 0 := by
  have := tySize_pos ty
  rw [Nat.mul_eq_zero]
  omega

/-- Entries of r rows stored, of columns that may be none. -/
def entriesOf (cols r : Nat) : Nat := if cols = 0 then 0 else r

theorem entriesOf_succ (cols r : Nat) : entriesOf cols r + (if cols = 0 then 0 else 1) = entriesOf cols (r + 1) := by
  unfold entriesOf
  split <;> rfl

theorem entriesOf_le (cols r : Nat) : entriesOf cols r ≤ r := by
  unfold entriesOf
  split <;> omega

theorem tstRow_passes {tl : Tile} {row0 col0 cols r n : Nat} (hcx : l.cx8 = false) (hroom : s.myCore.sb.length + n ≤ 32) (hr : r < n)
    (h : AllPass s s.who (tySize l.type) .write (rowSpans l row0 col0 r cols)) (fmt : W64) (ht : Storing s (entriesOf cols r) t) :
    ∃ u, tstRow tl s.who l row0 col0 cols m lcs fmt r t = .ok none u ∧ Storing s (entriesOf cols (r + 1)) u := by
  have hlen := storeSpans_lengths l row0 col0 r (tl.rowElems r cols)
  rw [rowElems_length] at hlen
  have hsum : ((storeSpans l row0 col0 r (tl.rowElems r cols)).map fun q => q.2.length).sum = cols * tySize l.type := by
    rw [← rowSpans_sum l row0 col0 r cols, ← hlen, List.map_map]
    rfl
  obtain ⟨u, hu, hs⟩ := ht.row (z := tySize l.type) (by have := entriesOf_le cols r; omega) (hlen ▸ h)
    (pipsOf ((storeSpans l row0 col0 r (tl.rowElems r cols)).map fun q => q.2.length).sum) fun ws => lcs ++ [] ++ ws
  rw [hsum] at hs
  simp only [mul_tySize_eq_zero, entriesOf_succ] at hs
  refine ⟨u, atRow_ok ?_, hs⟩
  have hno : ¬l.cx8 = true := by simp [hcx]
  simp only [if_neg hno]
  exact hu

/-! ## TST completes -/

theorem releaseAt_unhindered (hm : Unhindered s m) : releaseAt m.order m.scope s.issue = .ok () s.issue := by
  rcases hm with h | h
  · exact releaseAt_plain h _
  · have hsb : s.issue.myCore.sb = [] := by
      rw [State.myCore, s.issue_cur, (Local.issue s).sb_eq]
      exact h
    unfold releaseAt
    split
    · exact releaseAll_empty hsb
    · rfl

theorem tstCompletes : Claims.TstCompletes := by
  intro s td a b m l sh row0 col0 rows cols hp hend hres hm hsh hrow0 hcol0 hl hmov hty hcx hrows hcols hpass hroom
  obtain ⟨lcs, u, hu, e⟩ := readLayoutAs_passes hm hl
  have hn : ¬(((window l sh row0 col0).2 = 0 || (cols = 0 && !l.cx8)) = true) ↔ cols ≠ 0 := by
    rw [hcx, Bool.or_eq_true, Bool.not_false, Bool.and_true, decide_eq_true_eq, decide_eq_true_eq, hcols]
    omega
  obtain ⟨t, hrun, ht⟩ := rowsRun_exists (n := if ((window l sh row0 col0).2 = 0 || (cols = 0 && !l.cx8)) = true then 0 else rows)
    (I := fun r => Storing s (entriesOf cols r)) (body := tstRow (s.me.tile td) s.who l row0 col0 cols m lcs (tfmtWord l.type (tyCode sh) 15 15))
    (fun r t hr ht => by
      have hr' : r < rows := hr.trans_le (by split <;> omega)
      exact tstRow_passes hcx hroom hr' (hpass r hr') _ ht) (by
        rw [entriesOf, ite_self]
        exact Storing.begun e)
  have hcount : entriesOf cols (if ((window l sh row0 col0).2 = 0 || (cols = 0 && !l.cx8)) = true then 0 else rows) = if cols = 0 then 0 else rows := by
    unfold entriesOf
    by_cases hc : cols = 0
    · rw [if_pos hc, if_pos hc]
    · rw [if_neg hc, if_neg (hn.2 hc), if_neg hc]
  rw [hcount] at ht
  obtain ⟨hcomp, hmem, hsb⟩ := ht.completed lcs
  refine ⟨_, tileStore_traced s _ u t td a b m l lcs sh none row0 col0 rows cols hp hend hsh hres.symm hrow0 hcol0
    (releaseAt_unhindered hm) hu hrows hcols
    (fun _ => ⟨hmov, hty, fun h => by simp [hcx] at h⟩) ?_, hcomp, hmem, hsb⟩
  rw [← tstRows_eq]
  exact hrun

end

end Sys2Proof.Machine

namespace Sys2Proof

/-- Settles O13: the rows that the loop of TST makes are those of the statement; where the accesses pass, each enters the buffer as one entry. -/
theorem tileStore : Obligations.TileStore := ⟨Machine.tileStore_traced, Machine.tstCompletes⟩

end Sys2Proof
end

section
/-! TLDS, TSTS, TLDX and TSTX (R134, R135, R168). -/

-- One declaration after another: checked side by side, these take more threads than the memory of the check holds.
set_option Elab.async false

namespace Sys2Proof.Machine

open Sys2Proof.Claims

section
variable {s t u v : State} {w : Who} {l : Layout} {lcs : List Cap} {sh xsh ea pitch : W64} {m : Mod} {td : Num3} {ks : List Int}

theorem toTheEnd_shaped (h : ToTheEnd s) (td : Num3) (x : W64) : ToTheEnd (shaped s td x) := toTheEnd_modMe h fun _ => rfl

/-! ## How TLDS and TSTS run -/

theorem checkLocal_ok {z : Nat} (h6 : fld ea 61 3 = 6) (h2 : fld ea 58 3 ≤ 2) (ha : ea.toNat % z = 0) (hp : pitch.toNat % z = 0) (s : State) :
    checkLocal ea pitch z s = .ok () s := by
  have hno : ¬(fld ea 61 3 ≠ 6 || fld ea 58 3 > 2) = true := by simpa using ⟨h6, h2⟩
  have hno' : ¬(ea.toNat % z ≠ 0 || pitch.toNat % z ≠ 0) = true := by simpa using ⟨ha, hp⟩
  rw [checkLocal, if_neg hno, if_neg hno']
  rfl

theorem localChecks_ok {z : Nat} {fmt : W64} (hmov : movable sh) (h6 : fld ea 61 3 = 6) (h2 : fld ea 58 3 ≤ 2) (ha : ea.toNat % z = 0)
    (hp : pitch.toNat % z = 0) (s : State) : atRow fmt 0 (do
      checkTransferTile sh
      checkLocal ea pitch z) s = .ok () s :=
  atRow_ok (by simp only [M.bind_apply, checkTransferTile_ok hmov, checkLocal_ok h6 h2 ha hp])

theorem checkWindowEnd_row (win : Nat) (ea : W64) (n : Nat) : Does RowKept (checkWindowEnd win ea n) :=
  .ite (fun _ => .trapXlate RowKept.carries _ _ _) fun _ => .pure RowKept.carries _

theorem tldsRow_row (td : Num3) (w : Who) (sh ea pitch : W64) (m : Mod) (first r : Nat) : Does RowKept (tldsRow td w sh ea pitch m first r) := by
  have hR := RowKept.carries
  unfold tldsRow
  exact .atRow (.bind hR (checkWindowEnd_row _ _ _) fun _ => .bind hR (readSpan_row _ _ _ _ _) fun _ =>
    .when hR (fun _ => acquireOf_row _ _) fun _ => commitLoad_row _ _ _ _ _)

theorem tstsRow_row (tl : Tile) (w : Who) (ea pitch : W64) (r : Nat) : Does RowKept (tstsRow tl w ea pitch r) := by
  have hR := RowKept.carries
  unfold tstsRow
  exact .atRow (.bind hR (checkWindowEnd_row _ _ _) fun _ => storeRow_row w _ _ _ fun ws => ws)

theorem tldsRun : ∀ (s t : State) (td : Num3) (a b : Reg) (m : Mod) (sh : W64) (start : Option Nat),
    NoPort s [a, b] none → ToTheEnd s → sh = (s.me.tile td).shape → start = resumesAt s (restartKey 1 9 0) →
    (start = none → movable sh ∧ fld (s.src a) 61 3 = 6 ∧ fld (s.src a) 58 3 ≤ 2 ∧ (s.src a).toNat % tySize (shType sh) = 0 ∧
      (s.src b).toNat % tySize (shType sh) = 0) →
    RowsRun (tldsRow td s.who sh (s.src a) (s.src b) m (start.getD 0)) (rowsFrom start (shRows sh))
      (cleared (if start = none then shaped s.issue td (withValid sh (shRows sh) (shCols sh)) else s.issue)) t →
    exec (.tlds td a b m) s = .next t.finish := by
  intro s t td a b m sh start hp hend hsh hstart hchecks hrun
  have hi := Unbegun.issue s
  refine run_withPorts_ok (c := .done) hp ?_
  simp only [M.bind_apply, rd_apply, State.issue_src, whoMe_apply, State.issue_who, getMe_apply, hi.tile, resumeRow_apply, hi.resumesAt, ← hsh,
    ← hstart]
  cases start with
  | none =>
    obtain ⟨hmov, h6, h2, ha, hb⟩ := hchecks rfl
    have hloop := forRows_ok (s := shaped s.issue td (withValid sh (shRows sh) (shCols sh))) (fun r => tldsRow_row _ _ _ _ _ _ _ r) hrun
      (toTheEnd_shaped (hi.toTheEnd hend) ..).1 (toTheEnd_shaped (hi.toTheEnd hend) ..).2 (restartKey 1 9 0)
    simp only [Option.isNone_none, if_true, M.bind_apply, localChecks_ok hmov h6 h2 ha hb, modMe_shaped, hloop, M.pure_apply]
  | some r =>
    have hloop := forRows_ok (s := s.issue) (fun r => tldsRow_row _ _ _ _ _ _ _ r) hrun (hi.toTheEnd hend).1 (hi.toTheEnd hend).2 (restartKey 1 9 0)
    simp only [Option.isNone_some, Bool.false_eq_true, if_false, M.bind_apply, hloop, M.pure_apply]

theorem tstsRun : ∀ (s v t : State) (td : Num3) (a b : Reg) (m : Mod) (sh : W64) (start : Option Nat),
    NoPort s [a, b] none → ToTheEnd s → sh = (s.me.tile td).shape → start = resumesAt s (restartKey 1 9 1) →
    (start = none → movable sh ∧ fld (s.src a) 61 3 = 6 ∧ fld (s.src a) 58 3 ≤ 2 ∧ (s.src a).toNat % tySize (shType sh) = 0 ∧
      (s.src b).toNat % tySize (shType sh) = 0) →
    releaseAt m.order m.scope s.issue = .ok () v →
    RowsRun (tstsRow (s.me.tile td) s.who (s.src a) (s.src b))
      (if shVcols sh ≠ 0 then rowsFrom start (shVrows sh) else []) (cleared v) t →
    exec (.tsts td a b m) s = .next t.finish := by
  intro s v t td a b m sh start hp hend hsh hstart hchecks hrel hrun
  have hv : Unbegun s v := (Unbegun.issue s).kept (ThreadsKept.issue_ok (releaseAt_kept _ _) hrel)
  have hrun' : RowsRun (tstsRow (s.me.tile td) s.who (s.src a) (s.src b)) (rowRange (start.getD 0) (if shVcols sh = 0 then 0 else shVrows sh))
      (cleared v) t := by
    by_cases hc : shVcols sh = 0
    · rw [if_neg (not_not.2 hc)] at hrun
      rw [if_pos hc]
      exact hrun
    · rw [if_pos hc] at hrun
      rw [if_neg hc]
      exact hrun
  have hloop := forRows_ok (fun r => tstsRow_row _ _ _ _ r) hrun' (hv.toTheEnd hend).1 (hv.toTheEnd hend).2 (restartKey 1 9 1)
  refine run_withPorts_ok (c := .done) hp ?_
  simp only [M.bind_apply, rd_apply, State.issue_src, whoMe_apply, State.issue_who, hrel, getMe_apply, hv.tile, resumeRow_apply, hv.resumesAt, ← hsh,
    ← hstart]
  cases start with
  | none =>
    obtain ⟨hmov, h6, h2, ha, hb⟩ := hchecks rfl
    simp only [Option.isNone_none, if_true, M.bind_apply, localChecks_ok hmov h6 h2 ha hb, hloop, M.pure_apply]
  | some r => simp only [Option.isNone_some, Bool.false_eq_true, if_false, M.bind_apply, hloop, M.pure_apply]

theorem tileLocal : Claims.TileLocal := ⟨tldsRun, tstsRun⟩

/-! ## How TLDX and TSTX run -/

theorem checkIndexed_ok {n : Nat} {load : Bool} {scl : W64} (hmov : movable sh) (hty : shType sh = l.elemTy) (hx : xsh ≠ 0) (h8 : shType xsh = 8)
    (htr : l.trans = false) (hcx : l.cx8 = true → load = true ∧ shCols sh = 32) (hscl : load = true → l.rscl = true → scl ≠ 0) (hn : n ≤ shRows sh)
    (s : State) : checkIndexed sh xsh n l load scl s = .ok () s := by
  have hno : ¬(xsh = 0 || shType xsh ≠ 8) = true := by
    simp only [Bool.or_eq_true, decide_eq_true_eq, not_or, not_not]
    exact ⟨hx, h8⟩
  have hno' : ¬(l.trans || (l.cx8 && (!load || shCols sh ≠ 32)) || (load && l.rscl && scl = 0)) = true := by
    simp only [htr, Bool.false_or, Bool.or_eq_true, Bool.and_eq_true, Bool.not_eq_true', decide_eq_true_eq, not_or, not_and]
    exact ⟨fun h => ⟨by simp [(hcx h).1], by simp [(hcx h).2]⟩, fun h => hscl h.1 h.2⟩
  have hno'' : ¬n > shRows sh := Nat.not_lt.2 hn
  simp only [checkIndexed, M.bind_apply, checkTransferTile_ok hmov, checkPairing_ok hty, if_neg hno, if_neg hno', if_neg hno'']
  rfl

theorem indexRow_row (l : Layout) (xsh : W64) (ks : List Int) (i : Nat) : Does RowKept (indexRow l xsh ks i) :=
  .when RowKept.carries (fun _ => .trapAt RowKept.carries _ _ _ _) fun _ => .pure RowKept.carries _

theorem tldxRow_row (td : Num3) (w : Who) (l : Layout) (xsh : W64) (ks : List Int) (vc : Nat) (m : Mod) (lcs : List Cap) (fmt : W64) (r : Nat) :
    Does RowKept (tldxRow td w l xsh ks vc m lcs fmt r) := by
  have hR := RowKept.carries
  have hend (k : Nat) (p : List Nat × List Cap) : Does RowKept (do
      let (s, ss) ← scaleOf w l k m
      commitLoad td r p.1 s (lcs ++ p.2 ++ ss)) := .bind hR (scaleOf_row _ _ _ _) fun _ => commitLoad_row _ _ _ _ _
  unfold tldxRow
  exact .atRow (.bind hR (indexRow_row _ _ _ _) fun k => .ite (fun _ => .bind hR (readCx8_row _ _ _ _) fun _ => .bind hR (.pure hR _) fun p => hend k p)
    fun _ => .bind hR (readElems_row _ _ _ _ _ _) fun p => hend k p)

theorem tstxRow_row (tl : Tile) (w : Who) (l : Layout) (xsh : W64) (ks : List Int) (cols : Nat) (lcs : List Cap) (fmt : W64) (r : Nat) :
    Does RowKept (tstxRow tl w l xsh ks cols lcs fmt r) := by
  have hR := RowKept.carries
  unfold tstxRow
  exact .atRow (.bind hR (indexRow_row _ _ _ _) fun _ => storeRow_row w _ _ _ fun ws => lcs ++ ws)

theorem tileIndexed : Claims.TileIndexed := by
  constructor
  · intro s u v t td tx a m l lcs sh xsh ks start hp hend hsh hxsh hks hstart hl hchecks hv hrun
    have hi := Unbegun.issue s
    have hstate := (hi.touched (Does.ok (readLayoutAs_does _ _ _) hl)).acquired m.order m.scope.toNat
    have hl' : readLayout (s.src a) m s.issue = .ok (l, lcs) u := readLayout_ok (by rwa [s.issue_who])
    refine run_withPorts_ok (c := .done) hp ?_
    simp only [M.bind_apply, rd_apply, State.issue_src, whoMe_apply, State.issue_who, getMe_apply, hi.tile, hi.scl, resumeRow_apply, hi.resumesAt,
      ← hsh,
      ← hxsh, ← hks, ← hstart, atRow_ok hl', acquireOf_apply]
    cases start with
    | none =>
      obtain ⟨hmov, hty, hx, h8, htr, hcx, hscl, hn⟩ := hchecks rfl
      obtain rfl : v = shaped (u.acquired m.order m.scope.toNat) td (withValid sh ks.length (min (shCols sh) l.cols)) := hv
      have hend' := toTheEnd_shaped (hstate.toTheEnd hend) td (withValid sh ks.length (min (shCols sh) l.cols))
      have hloop := forRows_ok (fun r => tldxRow_row _ _ _ _ _ _ _ _ _ r) hrun hend'.1 hend'.2 (restartKey 1 0xA 0)
      simp only [if_true] at hloop
      simp only [Option.isNone_none, if_true, M.bind_apply, atRow_ok (checkIndexed_ok hmov hty hx h8 htr (fun q => ⟨rfl, hcx q⟩) (fun _ => hscl) hn _),
        modMe_shaped, hloop, chargeCaps_apply, M.pure_apply]
    | some r =>
      obtain rfl : v = u.acquired m.order m.scope.toNat := hv
      have hloop := forRows_ok (fun r => tldxRow_row _ _ _ _ _ _ _ _ _ r) hrun (hstate.toTheEnd hend).1 (hstate.toTheEnd hend).2 (restartKey 1 0xA 0)
      simp only [reduceCtorEq, if_false] at hloop
      simp only [Option.isNone_some, Bool.false_eq_true, if_false, M.bind_apply, hloop, chargeCaps_apply, M.pure_apply]
  · intro s u v t td tx a m l lcs sh xsh ks start hp hend hsh hxsh hks hstart hrel hl hchecks hrun
    have hu : Unbegun s u := (Unbegun.issue s).kept (ThreadsKept.issue_ok (releaseAt_kept _ _) hrel)
    have hv : Unbegun s v := hu.touched (Does.ok (readLayoutAs_does _ _ _) hl)
    have hl' : readLayout (s.src a) m u = .ok (l, lcs) v := readLayout_ok (by rwa [hu.who])
    have hloop := forRows_ok (fun r => tstxRow_row _ _ _ _ _ _ _ _ r) hrun (hv.toTheEnd hend).1 (hv.toTheEnd hend).2 (restartKey 1 0xA 1)
    refine run_withPorts_ok (c := .done) hp ?_
    simp only [M.bind_apply, rd_apply, State.issue_src, whoMe_apply, State.issue_who, hrel, getMe_apply, hu.tile, hu.scl, resumeRow_apply, hu.resumesAt,
      ← hsh, ← hxsh, ← hks, ← hstart, atRow_ok hl']
    cases start with
    | none =>
      obtain ⟨hmov, hty, hx, h8, htr, hcx, hn⟩ := hchecks rfl
      simp only [Option.isNone_none, if_true, M.bind_apply, atRow_ok (checkIndexed_ok (load := false) (scl := s.me.scl) hmov hty hx h8 htr
        (fun q => by simp [hcx] at q) (fun q => by simp at q) hn v), hloop, chargeCaps_apply, M.pure_apply]
    | some r => simp only [Option.isNone_some, Bool.false_eq_true, if_false, M.bind_apply, hloop, chargeCaps_apply, M.pure_apply]

/-! ## Rows of TLDS and TSTS that pass -/

theorem checkWindowEnd_ok {win n : Nat} (h : fld ea 58 6 = 48 + win) (hn : fld ea 0 58 + n ≤ windowSize win) (s : State) :
    checkWindowEnd win ea n s = .ok () s := by
  have hno : ¬(fld ea 58 6 ≠ 48 + win || fld ea 0 58 + n > windowSize win) = true := by simpa using ⟨h, hn⟩
  rw [checkWindowEnd, if_neg hno]
  rfl

/-- A conditional act that succeeds, then the rest. -/
theorem when_ok {β : Type} {c : Prop} [Decidable c] {x : M Unit} {k : Unit → M β} (h : (if c then x else pure ()) s = .ok () t) :
    (if c then x >>= k else k ()) s = k () t := by
  split
  · next hc =>
    rw [if_pos hc] at h
    rw [M.bind_apply, h]
  · next hc =>
    rw [if_neg hc] at h
    cases h
    rfl

theorem tldsRow_passes {x : W64} {first r : Nat} (hm : Unhindered s m) (h : fld (ea + w64 r * pitch) 58 6 = 48 + fld ea 58 3)
    (hn : fld (ea + w64 r * pitch) 0 58 + shCols sh * tySize (shType sh) ≤ windowSize (fld ea 58 3))
    (hp : AllPass s s.who (tySize (shType sh)) .read [(ea + w64 r * pitch, shCols sh * tySize (shType sh))]) (ht : LoadingTile s td x t) :
    ∃ u, tldsRow td s.who sh ea pitch m first r t = .ok none u ∧ LoadingTile s td x u := by
  obtain ⟨cs, v, hv, e⟩ := readSpan_passes (ht.load.unhindered hm) (ht.load.passes hp)
  obtain ⟨y, hy, hy'⟩ : ∃ y, (if r = first then acquireOf m.order m.scope else pure ()) v = .ok () y ∧ LoadingTile s td x y := by
    split
    · exact ⟨_, acquireOf_apply .., (ht.alike e).acquired ..⟩
    · exact ⟨v, rfl, ht.alike e⟩
  obtain ⟨u, hu, hu'⟩ := hy'.commit r ((elemsOf (tySize (shType sh)) (shCols sh) (seen t s.who (t.loadByte s.who.core) (ea + w64 r * pitch)
    (shCols sh * tySize (shType sh)))).map (tyBits (shType sh))) none cs
  refine ⟨u, atRow_ok ?_, hu'⟩
  simp only [M.bind_apply, checkWindowEnd_ok h hn, hv]
  rw [when_ok hy]
  exact hu

theorem tstsRow_passes {tl : Tile} {r n : Nat} (hroom : s.myCore.sb.length + n ≤ 32) (hr : r < n)
    (h : fld (ea + w64 r * pitch) 58 6 = 48 + fld ea 58 3)
    (hn : fld (ea + w64 r * pitch) 0 58 + shVcols tl.shape * tySize (shType tl.shape) ≤ windowSize (fld ea 58 3))
    (hp : AllPass s s.who (tySize (shType tl.shape)) .write [(ea + w64 r * pitch, shVcols tl.shape * tySize (shType tl.shape))])
    (ht : Storing s (entriesOf (shVcols tl.shape) r) t) :
    ∃ u, tstsRow tl s.who ea pitch r t = .ok none u ∧ Storing s (entriesOf (shVcols tl.shape) (r + 1)) u := by
  have hlen : (bytesOf (tySize (shType tl.shape)) (tl.rowElems r (shVcols tl.shape))).length = shVcols tl.shape * tySize (shType tl.shape) := by
    rw [bytesOf_length, rowElems_length]
  obtain ⟨u, hu, hs⟩ := ht.row (spans := [(ea + w64 r * pitch, bytesOf (tySize (shType tl.shape)) (tl.rowElems r (shVcols tl.shape)))])
    (by have := entriesOf_le (shVcols tl.shape) r; omega) (by rw [List.map_singleton, hlen]; exact hp)
    (pipsOf (shVcols tl.shape * tySize (shType tl.shape))) fun ws => ws
  simp only [List.map_singleton, List.sum_singleton, hlen, mul_tySize_eq_zero, entriesOf_succ] at hs
  refine ⟨u, atRow_ok ?_, hs⟩
  rw [M.bind_apply, checkWindowEnd_ok h hn]
  exact hu

theorem entriesOf_all (c n : Nat) : entriesOf c (if c = 0 then 0 else n) = if c = 0 then 0 else n := by
  unfold entriesOf
  split <;> rfl

theorem localTransfersComplete : Claims.LocalTransfersComplete := by
  intro s td a b m sh ea pitch hp hend hm hsh hea hpitch hmov h6 h2 ha hpt
  subst hea hpitch
  refine ⟨fun hres hrows => ?_, fun hres hrows hroom => ?_⟩
  · obtain ⟨t, hrun, ht⟩ := rowsRun_exists (n := shRows sh) (I := fun _ => LoadingTile s td (withValid sh (shRows sh) (shCols sh)))
      (body := tldsRow td s.who sh (s.src a) (s.src b) m 0)
      (fun r t hr ht => tldsRow_passes hm (hrows r hr).1 (hrows r hr).2.1 (hrows r hr).2.2 ht)
      (.begun (Loading.issue s) td (withValid sh (shRows sh) (shCols sh)))
    obtain ⟨hcomp, hshape, hmem⟩ := ht.completed []
    exact ⟨_, tldsRun s t td a b m sh none hp hend hsh hres.symm (fun _ => ⟨hmov, h6, h2, ha, hpt⟩) hrun, hcomp, hshape, hmem⟩
  · subst hsh
    obtain ⟨t, hrun, ht⟩ := rowsRun_exists (n := if shVcols (s.me.tile td).shape = 0 then 0 else shVrows (s.me.tile td).shape)
      (I := fun r => Storing s (entriesOf (shVcols (s.me.tile td).shape) r)) (body := tstsRow (s.me.tile td) s.who (s.src a) (s.src b))
      (fun r t hr ht => by
        have hr' : r < shVrows (s.me.tile td).shape := hr.trans_le (by split <;> omega)
        exact tstsRow_passes hroom hr' (hrows r hr').1 (hrows r hr').2.1 (hrows r hr').2.2 ht) (by
        rw [entriesOf, ite_self]
        exact Storing.begun (.refl _ _))
    rw [entriesOf_all] at ht
    obtain ⟨hcomp, hmem, hsb⟩ := ht.completed []
    refine ⟨_, tstsRun s s.issue t td a b m _ none hp hend rfl hres.symm (fun _ => ⟨hmov, h6, h2, ha, hpt⟩) (releaseAt_unhindered hm) ?_, hcomp, hmem,
      hsb⟩
    split
    · next h => rwa [if_neg h] at hrun
    · next h => rwa [if_pos (not_not.1 h)] at hrun

/-! ## Rows of TLDX and TSTX that pass -/

/-- An index that names a row of the tensor. -/
theorem indexRow_ok {i : Nat} (h0 : 0 ≤ ks.getD i 0) (h : ks.getD i 0 < l.rows) (s : State) : indexRow l xsh ks i s = .ok (ks.getD i 0).toNat s := by
  have hno : ¬(ks.getD i 0 < 0 || ks.getD i 0 ≥ l.rows) = true := by simpa using ⟨h0, h⟩
  rw [indexRow, if_neg hno]
  rfl

theorem getD_mem {i : Nat} (h : i < ks.length) : ks.getD i 0 ∈ ks := by
  rw [List.getD_eq_getElem _ _ h]
  exact List.getElem_mem h

theorem rowSpans_of_rows {k n : Nat} (htr : l.trans = false) : rowSpans l 0 0 k n = [(l.addr k 0, n * tySize l.type)] := by
  have hno : ¬l.trans = true := by simp [htr]
  rw [rowSpans, if_neg hno, Nat.zero_add]

theorem tldxRow_passes {x : W64} {vc r : Nat} (hm : Unhindered s m) (htr : l.trans = false) (hcx : l.cx8 = false) (hr : r < ks.length)
    (hk : ∀ k ∈ ks, 0 ≤ k ∧ k < l.rows) (h : ∀ k ∈ ks, AllPass s s.who (tySize l.type) .read (rowSpans l 0 0 k.toNat vc))
    (hs : ScalesPass s l (ks.map Int.toNat)) (fmt : W64) (ht : LoadingTile s td x t) :
    ∃ u, tldxRow td s.who l xsh ks vc m lcs fmt r t = .ok none u ∧ LoadingTile s td x u := by
  have hmem := getD_mem hr
  obtain ⟨p, v, hv, ev⟩ := readElems_passes (ht.load.unhindered hm) (ht.load.passes (rowSpans_of_rows htr ▸ h _ hmem))
  have hv' := ht.alike ev
  obtain ⟨q, y, hy, ey⟩ := scaleOf_passes (row := (ks.getD r 0).toNat) (hv'.load.unhindered hm) fun hr => by
    rw [hv'.load.under.scl]
    exact hv'.load.passes ((hs hr).2.2 _ (List.mem_map_of_mem hmem))
  obtain ⟨u, hu, ht'⟩ := (hv'.alike ey).commit r p.1 q.1 (lcs ++ p.2 ++ q.2)
  have hno : ¬l.cx8 = true := by simp [hcx]
  refine ⟨u, atRow_ok ?_, ht'⟩
  simp only [M.bind_apply, indexRow_ok (hk _ hmem).1 (hk _ hmem).2, if_neg hno, hv, hy]
  exact hu

theorem tstxRow_passes {tl : Tile} {cols r n : Nat} (htr : l.trans = false) (hroom : s.myCore.sb.length + n ≤ 32) (hr : r < n) (hn : n ≤ ks.length)
    (hk : ∀ k ∈ ks, 0 ≤ k ∧ k < l.rows) (h : ∀ k ∈ ks, AllPass s s.who (tySize l.type) .write (rowSpans l 0 0 k.toNat cols)) (fmt : W64)
    (ht : Storing s (entriesOf cols r) t) :
    ∃ u, tstxRow tl s.who l xsh ks cols lcs fmt r t = .ok none u ∧ Storing s (entriesOf cols (r + 1)) u := by
  have hmem := getD_mem (hr.trans_le hn)
  have hlen : (bytesOf (tySize l.type) (tl.rowElems r cols)).length = cols * tySize l.type := by rw [bytesOf_length, rowElems_length]
  obtain ⟨u, hu, hs⟩ := ht.row (z := tySize l.type) (spans := [(l.addr (ks.getD r 0).toNat 0, bytesOf (tySize l.type) (tl.rowElems r cols))])
    (by have := entriesOf_le cols r; omega) (by rw [List.map_singleton, hlen]; exact rowSpans_of_rows htr ▸ h _ hmem)
    (pipsOf (cols * tySize l.type)) fun ws => lcs ++ ws
  simp only [List.map_singleton, List.sum_singleton, hlen, mul_tySize_eq_zero, entriesOf_succ] at hs
  refine ⟨u, atRow_ok ?_, hs⟩
  rw [M.bind_apply, indexRow_ok (hk _ hmem).1 (hk _ hmem).2]
  exact hu

theorem indexedTransfersComplete : Claims.IndexedTransfersComplete := by
  intro s td tx a m l sh xsh ks hp hend hm hsh hxsh hks hl hmov hty hx h8 htr hcx hn hk
  obtain ⟨lcs, u, hu, e⟩ := readLayoutAs_passes hm hl
  refine ⟨fun hres hrows hscl => ?_, fun rows cols hr hc hres hrows hroom => ?_⟩
  · obtain ⟨t, hrun, ht⟩ := rowsRun_exists (n := ks.length) (I := fun _ => LoadingTile s td (withValid sh ks.length (min (shCols sh) l.cols)))
      (body := tldxRow td s.who l xsh ks (min (shCols sh) l.cols) m lcs (tfmtWord (tyCode sh) l.type (tyCode xsh) 15))
      (fun r t hr ht => tldxRow_passes hm htr hcx hr hk hrows hscl _ ht)
      (.begun (((Loading.issue s).alike e).acquired m.order m.scope.toNat) td _)
    obtain ⟨hcomp, hshape, hmem⟩ := ht.completed lcs
    exact ⟨_, tileIndexed.1 s u _ t td tx a m l lcs sh xsh ks none hp hend hsh hxsh hks hres.symm hu
      (fun _ => ⟨hmov, hty, hx, h8, htr, fun h => by simp [hcx] at h, fun h => (hscl h).2.1, hn⟩) rfl hrun, hcomp, hshape, hmem⟩
  · obtain ⟨t, hrun, ht⟩ := rowsRun_exists (n := rows) (I := fun r => Storing s (entriesOf cols r))
      (body := tstxRow (s.me.tile td) s.who l xsh ks cols lcs (tfmtWord l.type (tyCode sh) (tyCode xsh) 15))
      (fun r t hr' ht => tstxRow_passes htr hroom hr' (hr ▸ Nat.min_le_left ..) hk hrows _ ht) (by
        rw [entriesOf, ite_self]
        exact Storing.begun e)
    obtain ⟨hcomp, hmem, hsb⟩ := ht.completed lcs
    rw [hr, hc] at hrun
    exact ⟨_, tileIndexed.2 s s.issue u t td tx a m l lcs sh xsh ks none hp hend hsh hxsh hks hres.symm (releaseAt_unhindered hm) hu
      (fun _ => ⟨hmov, hty, hx, h8, htr, hcx, hn⟩) hrun, hcomp, hmem, hsb⟩

/-- Settles O14: the rows that the loops of TLDS, TSTS, TLDX and TSTX make are those of the statement; where the accesses pass, each can be
made. -/
theorem tileLocalAndIndexed : Obligations.TileLocalAndIndexed := ⟨tileLocal, tileIndexed, localTransfersComplete, indexedTransfersComplete⟩

end

end Sys2Proof.Machine
end

section
/-! A LDPROJ resumed behind its last row (R168, R194, R195): what the statement charges, and the model does not. -/

-- One declaration after another: checked side by side, these take more threads than the memory of the check holds.
set_option Elab.async false

namespace Sys2Proof.Machine

open Sys2Proof.Claims

/-- A layout record of BF16 elements, 2 rows by 3 columns. -/
def projectionRecord : List Byte := ([0x210000, w64 (2 + 3 * 2 ^ 32), 64, 5, 0, 0, 0, 0] : List W64).flatMap fun v => natToLe 8 v.toNat

/-- A thread whose k.restart names row 64 of LDPROJ, behind the last row of a chunk; s5 addresses a layout record in its scratchpad, under a
capability of charge 5. -/
def spentProjection : State :=
  (({ (State.reset.withWords []).modWorld 2 fun w => { w with caps := [⟨1, 6 * 2 ^ 61, 2 ^ 61, 0, 0xF, 5⟩] } with
    cur := ⟨0, 0, 2, none⟩ } : State).modMe fun sl =>
      { sl.setReg 5 (w64 (6 * 2 ^ 61 + 0x1000)) with restart := restartWord (restartKey 3 1 1) 64 }).setBytes (spadLoc 0 0x1000) projectionRecord

/-- The meter of the thread after LDPROJ. -/
def meterAfter : Option W64 :=
  match exec (.ldproj 5 6 Mod.none) spentProjection with
  | .next t => some t.me.meter
  | _ => none

/-- What the rows begin with: the chunk taken, the layout record read. -/
def projectionBegun : Option (Layout × List Cap × State) :=
  match takeProj true 0 64 spentProjection.issue with
  | .ok () v =>
    match readLayoutAs spentProjection.who (spentProjection.src 5) Mod.none v with
    | .ok (l, lcs) u => some (l, lcs, u)
    | _ => none
  | _ => none

/-- The meter that the statement asks for. -/
def meterClaimed : Option W64 := projectionBegun.map fun q => (((cleared (q.2.2.acquired 0 0)).chargeAll q.2.1).finish).me.meter

theorem meterAfter_eq : meterAfter = some 1 := by decide +kernel
theorem meterClaimed_eq : meterClaimed = some 6 := by decide +kernel

theorem projectionBegun_eq {q : Layout × List Cap × State} (h : projectionBegun = some q) : ∃ v,
    takeProj true 0 64 spentProjection.issue = .ok () v ∧ readLayoutAs spentProjection.who (spentProjection.src 5) Mod.none v =
      .ok (q.1, q.2.1) q.2.2 := by
  unfold projectionBegun at h
  split at h
  · next v hv =>
    split at h
    · next hl =>
      cases h
      exact ⟨v, hv, hl⟩
    · cases h
  · cases h

/-- Refutes O15: the statement charges the capabilities of LDPROJ's layout record whether or not a row is made. Resumed at row 64, behind the
last row of its chunk, LDPROJ makes no row and charges none: its meter shows 1 pip, that of its issue, and the statement asks for 6. -/
theorem not_planeLoads : ¬ Obligations.PlaneLoads := by
  rintro ⟨⟨-, -, hproj⟩, -⟩
  obtain ⟨⟨l, lcs, u⟩, hq, hmeter⟩ := Option.map_eq_some_iff.1 meterClaimed_eq
  obtain ⟨v, hv, hl⟩ := projectionBegun_eq hq
  have h := hproj spentProjection v u (cleared (u.acquired 0 0)) 5 6 Mod.none l lcs (some 64) 0 (by decide +kernel) (by decide +kernel)
    (by decide +kernel) rfl hv hl nofun (.nil _)
  have hafter := meterAfter_eq
  rw [meterAfter, h] at hafter
  rw [Option.some.inj hafter] at hmeter
  exact absurd hmeter (by decide)

end Sys2Proof.Machine
end

section
/-! KVLD, KVST and KVMULT (R254 to R258, R168): how they run outside the copy slot. -/

-- One declaration after another: checked side by side, these take more threads than the memory of the check holds.
set_option Elab.async false

namespace Sys2Proof.Machine

open Sys2Proof.Claims

section
variable {s t u v : State} {w : Who} {h : SeqHeader} {hcs : List Cap} {sh d : W64} {m : Mod}

/-! ## What the rows leave of their instruction -/

theorem readHeader_does (w : Who) (ea : W64) (m : Mod) : Does (Touched w.world) (readHeader w ea m) := by
  have hR := Touched.carries w.world
  unfold readHeader
  exact .when hR (fun _ => .trapAt hR _ _ _ _) fun _ => .when hR (fun _ => .trapXlate hR _ _ _) fun _ => .bind hR (readSpan_does w ea 64 8 m) fun _ =>
    .when hR (fun _ => .trapAt hR _ _ _ _) fun _ => .pure hR _

theorem modPlane_row (p : Num2) (f : Plane → Plane) : Does RowKept (modPlane p f) := modCore_row fun _ => rfl

/-- What a row of a load into a plane or a tile ends with: its charges. -/
theorem paid_row (n : Nat) (cs : List Cap) : Does RowKept (do
    charge n
    chargeCaps cs
    return (none : Option TrapInfo)) :=
  have hR := RowKept.carries
  .bind hR (charge_row n) fun _ => .bind hR (chargeCaps_row cs) fun _ => .pure hR _

theorem kvldRow_row (p : Num2) (w : Who) (h : SeqHeader) (first slice : Nat) (m : Mod) (hcs : List Cap) (c : Nat) :
    Does RowKept (kvldRow p w h first slice m hcs c) := by
  have hR := RowKept.carries
  unfold kvldRow
  exact .atRow (.bind hR (readSpan_row _ _ _ _ _) fun _ => .bind hR (modPlane_row p _) fun _ => paid_row _ _)

theorem appendSpans_row (w : Who) (h : SeqHeader) (n : Nat) : Does RowKept (appendSpans w h n) :=
  .bind RowKept.carries (readSpan_row _ _ _ _ _) fun _ => .pure RowKept.carries _

theorem ntokSpan_row (w : Who) (h : SeqHeader) (n : Nat) : Does RowKept (ntokSpan w h n) :=
  .bind RowKept.carries (readSpan_row _ _ _ _ _) fun _ => .pure RowKept.carries _

theorem kvstRow_row (tl : Tile) (w : Who) (h : SeqHeader) (d : W64) (hcs : List Cap) (i : Nat) : Does RowKept (kvstRow tl w h d hcs i) := by
  have hR := RowKept.carries
  have hend (app tok : List (W64 × List Byte)) (c1 c2 : List Cap) : Does RowKept (do
      let cs ← writeRow w ((if (tl.rowElems i (shVcols tl.shape)).isEmpty then [] else
        [(h.row (fld d 0 16 + i) + w64 (64 * fld d 16 4), bytesOf h.esize (tl.rowElems i (shVcols tl.shape)))]) ++ app ++ tok) 1
      charge (pipsOf (shVcols tl.shape * h.esize))
      chargeCaps (hcs ++ c1 ++ c2 ++ cs)
      return (none : Option TrapInfo)) := storeRow_row w _ _ _ fun cs => hcs ++ c1 ++ c2 ++ cs
  have htok (app : List (W64 × List Byte)) (c1 : List Cap) : Does RowKept (do
      let (tok, c2) ← if flag d 20 && i + 1 = shVrows tl.shape then ntokSpan w h (fld d 0 16 + shVrows tl.shape) else pure ([], [])
      let cs ← writeRow w ((if (tl.rowElems i (shVcols tl.shape)).isEmpty then [] else
        [(h.row (fld d 0 16 + i) + w64 (64 * fld d 16 4), bytesOf h.esize (tl.rowElems i (shVcols tl.shape)))]) ++ app ++ tok) 1
      charge (pipsOf (shVcols tl.shape * h.esize))
      chargeCaps (hcs ++ c1 ++ c2 ++ cs)
      return (none : Option TrapInfo)) :=
    .ite (fun _ => .bind hR (ntokSpan_row _ _ _) fun p => hend app p.1 c1 p.2) fun _ => .bind hR (.pure hR _) fun p => hend app p.1 c1 p.2
  unfold kvstRow
  exact .atRow (.ite (fun _ => .bind hR (appendSpans_row _ _ _) fun p => htok p.1 p.2) fun _ => .bind hR (.pure hR _) fun p => htok p.1 p.2)

theorem readMults_row (w : Who) (h : SeqHeader) (first n : Nat) (m : Mod) : Does RowKept (readMults w h first n m) :=
  .foldlM RowKept.carries (fun _ _ => .bind RowKept.carries (readSpan_row _ _ _ _ _) fun _ => .pure RowKept.carries _) _ _

theorem kvmultRow_row (td : Num3) (w : Who) (h : SeqHeader) (first n : Nat) (m : Mod) (hcs : List Cap) (r : Nat) :
    Does RowKept (kvmultRow td w h first n m hcs r) := by
  have hR := RowKept.carries
  unfold kvmultRow
  exact .atRow (.bind hR (readMults_row _ _ _ _ _) fun _ => .bind hR (.bind hR (.getMe hR) fun _ => .pure hR _) fun _ =>
    .bind hR (modMe_row fun _ => rfl) fun _ => paid_row _ _)

/-! ## How they run -/

theorem checkTokens_ok {first n : Nat} {b : W64} (hn : n = 0 ∨ first + n ≤ 16 * h.npages) (s : State) : checkTokens h first n b s = .ok () s := by
  have hno : ¬(n ≠ 0 && first + n > 16 * h.npages) = true := by
    rw [Bool.and_eq_true, decide_eq_true_eq, decide_eq_true_eq]
    omega
  rw [checkTokens, if_neg hno]
  rfl

theorem getTile_apply (n : Num3) (s : State) : getTile n s = .ok (s.me.tile n) s := rfl

theorem onPlane_eq (s : State) (p : Num2) (f : Plane → Plane) : onPlane s p f = s.modPlane p f := rfl

theorem toTheEnd_onPlane (h : ToTheEnd s) (p : Num2) (f : Plane → Plane) : ToTheEnd (s.modPlane p f) :=
  ⟨h.1, by rw [State.modPlane_me, h.2]⟩

theorem sequenceTransfers_traced : Claims.SequenceTransfers := by
  refine ⟨?_, ?_, ?_⟩
  · intro s u t p a b m h hcs start first n slice hp hend h14 hown hfirst hn hslice h28 h1 h128 hstart hread hwidth htok hrun
    have hi := Unbegun.issue s
    have hstate := (hi.touched (Does.ok (readHeader_does _ _ _) hread)).acquired m.order m.scope.toNat
    have hdesc : ¬(fld (s.src b) 28 36 ≠ 0 || n = 0 || n > 128) = true := by
      simp only [Bool.or_eq_true, decide_eq_true_eq, h28]
      omega
    have hslice' : ¬32 * slice + 31 ≥ h.width := by omega
    refine run_withPorts_ok (c := .done) hp ?_
    simp only [M.bind_apply, notCopySlot_ok (s := s.issue) (by rwa [s.issue_cur]), needPlane_ok (s := s.issue) (by rwa [State.issue_plown]), rd_apply,
      State.issue_src, whoMe_apply, State.issue_who, resumeRow_apply, resumesAt_issue, ← hfirst, ← hn, ← hslice, ← hstart, if_neg hdesc, hread,
      if_neg hslice', checkTokens_ok (.inr htok), acquireOf_apply]
    cases start with
    | none =>
      rw [if_pos rfl, onPlane_eq] at hrun
      have hloop := forRows_ok (fun r => kvldRow_row _ _ _ _ _ _ _ r) hrun (toTheEnd_onPlane (hstate.toTheEnd hend) p _).1
        (toTheEnd_onPlane (hstate.toTheEnd hend) p _).2 (restartKey 6 0 0)
      simp only [Option.isNone_none, if_true, M.bind_apply, modPlane_apply, hloop, M.pure_apply]
    | some r =>
      rw [if_neg nofun] at hrun
      have hloop := forRows_ok (fun r => kvldRow_row _ _ _ _ _ _ _ r) hrun (hstate.toTheEnd hend).1 (hstate.toTheEnd hend).2 (restartKey 6 0 0)
      simp only [Option.isNone_some, Bool.false_eq_true, if_false, M.bind_apply, hloop, M.pure_apply]
  · intro s u v t td a b m h hcs start sh hp hend h14 hsh h21 hstart hrel hread hchecks hchunk htok hrun
    have hu : Unbegun s u := (Unbegun.issue s).kept (ThreadsKept.issue_ok (releaseAt_kept _ _) hrel)
    have hv : Unbegun s v := hu.touched (Does.ok (readHeader_does _ _ _) hread)
    have hloop := forRows_ok (fun r => kvstRow_row _ _ _ _ _ r) hrun (hv.toTheEnd hend).1 (hv.toTheEnd hend).2 (restartKey 6 1 0)
    have hchunk' : ¬64 * fld (s.src b) 16 4 ≥ h.rowBytes := Nat.not_le.2 hchunk
    have hshape : ¬(start.isNone && (sh = 0 || shType sh ≠ h.type || shCols sh * h.esize ≠ 64)) = true := by
      cases start with
      | none => simpa [not_or, and_assoc] using hchecks rfl
      | some r => simp
    refine run_withPorts_ok (c := .done) hp (orFmt_ok ?_)
    simp only [M.bind_apply, getTile_apply, notCopySlot_ok (s := s.issue) (by rwa [s.issue_cur]), rd_apply, State.issue_src, h21, ne_eq, not_true,
      if_false,
      whoMe_apply, State.issue_who, hrel, resumeRow_apply, hu.resumesAt, hu.tile, ← hsh, ← hstart, hread, if_neg hshape, if_neg hchunk',
      orFmt_ok (checkTokens_ok htok v), M.pure_apply]
    simp only [hloop]
  · intro s u t td a b m h hcs start n hp hend h14 hn h23 h1 h64 hstart hread htok hrun
    have hi := Unbegun.issue s
    have hstate := (hi.touched (Does.ok (readHeader_does _ _ _) hread)).acquired m.order m.scope.toNat
    have hdesc : ¬(fld (s.src b) 23 41 ≠ 0 || n = 0 || n > 64) = true := by
      simp only [Bool.or_eq_true, decide_eq_true_eq, h23]
      omega
    refine run_withPorts_ok (c := .done) hp (orFmt_ok ?_)
    simp only [M.bind_apply, notCopySlot_ok (s := s.issue) (by rwa [s.issue_cur]), rd_apply, State.issue_src, whoMe_apply, State.issue_who,
      resumeRow_apply, resumesAt_issue, ← hn, ← hstart, if_neg hdesc, hread, checkTokens_ok (.inr htok), acquireOf_apply]
    cases start with
    | none =>
      rw [if_pos rfl] at hrun
      have hend' := toTheEnd_shaped (hstate.toTheEnd hend) td (mkShape 1 1 64 1 n)
      have hloop := forRows_ok (fun r => kvmultRow_row _ _ _ _ _ _ _ r) hrun hend'.1 hend'.2 (restartKey 6 2 0)
      simp only [Option.isNone_none, if_true, M.bind_apply, beginResult, modMe_shaped, hloop, M.pure_apply]
    | some r =>
      rw [if_neg nofun] at hrun
      have hloop := forRows_ok (fun r => kvmultRow_row _ _ _ _ _ _ _ r) hrun (hstate.toTheEnd hend).1 (hstate.toTheEnd hend).2 (restartKey 6 2 0)
      simp only [Option.isNone_some, Bool.false_eq_true, if_false, M.bind_apply, hloop, M.pure_apply]

end

end Sys2Proof.Machine
end

section
/-! KVLD, KVST and KVMULT complete where their accesses pass (R254 to R258). -/

-- One declaration after another: checked side by side, these take more threads than the memory of the check holds.
set_option Elab.async false

namespace Sys2Proof.Machine

open Sys2Proof.Claims

section
variable {s t u v : State} {w : Who} {h : SeqHeader} {hcs : List Cap} {sh d : W64} {m : Mod}

/-- A sequence header that may be read, where nothing hinders. -/
theorem readHeader_passes {a : W64} (hm : Unhindered s m) (hh : HeaderAt s a h) :
    ∃ hcs u, readHeader s.who a m s.issue = .ok (h, hcs) u ∧ Alike s.who s.issue u := by
  obtain ⟨h64, hreg, hp, hhead, hok⟩ := hh
  obtain ⟨cs, u, hu, e⟩ := readMine_issue_passes hm hp
  rw [readMine, M.bind_apply, whoMe_apply, s.issue_who] at hu
  refine ⟨cs, u, ?_, e⟩
  have hno : ¬a.toNat % 64 ≠ 0 := fun q => q h64
  have hno' : ¬(fld a 61 3 ≠ 0 && fld a 61 3 ≠ 5) = true := by
    rw [Bool.and_eq_true, decide_eq_true_eq, decide_eq_true_eq]
    exact fun q => hreg.elim q.1 q.2
  have hno'' : ¬(!seqHeaderOk (loaded s a 64) (seqHeaderOf a (loaded s a 64))) = true := by rw [← hhead, hok]; decide
  rw [readHeader, if_neg hno, if_neg hno']
  simp only [M.bind_apply, hu, if_neg hno'', hhead]
  rfl

/-! ## A transfer into a plane -/

/-- A core's planes as they are after a change of one of them. -/
def replacePlane (p : Num2) (f : Plane → Plane) (k : Core) : Core :=
  { k with planes := k.planes.set p.toNat (f (k.planes[p.toNat]'(p.isLt))) p.isLt }

/-- A plane's half changed, and nothing that a transfer looks at. -/
theorem Loading.modPlane (hl : Loading s t) (p : Num2) (f : Plane → Plane) : Loading s (t.modPlane p f) := by
  have hst : Steady s.who t (t.modPlane p f) := (ChecksKept.modMyCore (f := replacePlane p f) fun _ => ⟨rfl, rfl, rfl, rfl, rfl⟩).steady rfl
  refine ⟨hl.under.trans' (.modCore (f := replacePlane p f) (fun _ => rfl) fun _ => rfl) hst rfl (by rw [State.modPlane_me]), ?_⟩
  have hcur : (t.modPlane p f).core s.cur.core = replacePlane p f (t.core s.cur.core) := by
    rw [← hl.under.thread.cur]
    exact State.modCore_core ..
  rw [hcur]
  exact hl.sb

theorem Charged.planeOf (hc : Charged s t) (p : Num2) : Claims.planeOf t p = Claims.planeOf s p := by
  refine planeOf_congr ?_ p
  rw [State.myCore, hc.frame.cur_eq, hc.frame.core]
  rfl

theorem Alike.planeOf (e : Alike w s t) (p : Num2) : Claims.planeOf t p = Claims.planeOf s p := by
  refine planeOf_congr ?_ p
  rw [State.myCore, e.touched.cur_eq, e.touched.core]
  rfl

/-- The plane that a transfer loads, its shadow half under its new shape. -/
structure LoadingPlane (s : State) (p : Num2) (x : W64) (t : State) : Prop where
  load : Loading s t
  shape : (Claims.planeOf t p).shadow.shape = x

theorem kvldRow_passes {p : Num2} {x : W64} {first slice c : Nat} (hm : Unhindered s m)
    (hp : AllPass s s.who h.esize .read [(h.row (first + c) + w64 (32 * slice * h.esize), 32 * h.esize)]) (ht : LoadingPlane s p x t) :
    ∃ u, kvldRow p s.who h first slice m hcs c t = .ok none u ∧ LoadingPlane s p x u := by
  obtain ⟨cs, v, hv, e⟩ := readSpan_passes (ht.load.unhindered hm) (ht.load.passes hp)
  generalize seen t s.who (t.loadByte s.who.core) (h.row (first + c) + w64 (32 * slice * h.esize)) (32 * h.esize) = bs at hv
  have hc := Charged.trans (.mine (v.modPlane p fun q => { q with
    shadow := q.shadow.setColumn c ((elemsOf h.esize 32 bs).map (toBf16 h.type)) }) (pipsOf (32 * h.esize))) (.all _ (hcs ++ cs))
  refine ⟨_, atRow_ok ?_, ((ht.load.alike e).modPlane p _).charged hc, ?_⟩
  · simp only [M.bind_apply, hv, modPlane_apply, charge_apply, chargeCaps_apply, M.pure_apply]
  · rw [hc.planeOf, planeOf_modPlane, e.planeOf]
    exact ht.shape

/-! ## A token stored -/

theorem kvstRow_passes {tl : Tile} {i n : Nat} (h20 : flag d 20 = false) (hroom : s.myCore.sb.length + n ≤ 32) (hi : i < n)
    (hp : AllPass s s.who 1 .write [(h.row (fld d 0 16 + i) + w64 (64 * fld d 16 4), shVcols tl.shape * h.esize)])
    (ht : Storing s (entriesOf (shVcols tl.shape) i) t) :
    ∃ u, kvstRow tl s.who h d hcs i t = .ok none u ∧ Storing s (entriesOf (shVcols tl.shape) (i + 1)) u := by
  have hes : 0 < h.esize := by
    unfold SeqHeader.esize
    split <;> decide
  have hno : ¬(flag d 20 = true) := by simp [h20]
  have hno' : ¬((flag d 20 && i + 1 = shVrows tl.shape) = true) := by simp [h20]
  have hlen : (bytesOf h.esize (tl.rowElems i (shVcols tl.shape))).length = shVcols tl.shape * h.esize := by rw [bytesOf_length, rowElems_length]
  have hle := entriesOf_le (shVcols tl.shape) i
  obtain ⟨spans, hspans⟩ : ∃ spans, spans = (if (tl.rowElems i (shVcols tl.shape)).isEmpty then [] else
      [(h.row (fld d 0 16 + i) + w64 (64 * fld d 16 4), bytesOf h.esize (tl.rowElems i (shVcols tl.shape)))]) ++ [] ++ [] := ⟨_, rfl⟩
  have hnil : (tl.rowElems i (shVcols tl.shape)).isEmpty = true ↔ shVcols tl.shape = 0 := by
    rw [List.isEmpty_iff, ← List.length_eq_zero_iff, rowElems_length]
  have hpass : AllPass s s.who 1 .write (spans.map fun q => (q.1, q.2.length)) := by
    rw [hspans, List.append_nil, List.append_nil]
    split
    · exact nofun
    · rw [List.map_singleton, hlen]
      exact hp
  have hsum : (spans.map fun q => q.2.length).sum = 0 ↔ shVcols tl.shape = 0 := by
    rw [hspans, List.append_nil, List.append_nil]
    split
    · next hc => exact ⟨fun _ => hnil.1 hc, fun _ => rfl⟩
    · rw [List.map_singleton, List.sum_singleton, hlen, Nat.mul_eq_zero]
      omega
  obtain ⟨u, hu, hs⟩ := ht.row (z := 1) (spans := spans) (by omega) hpass (pipsOf (shVcols tl.shape * h.esize)) fun cs => hcs ++ [] ++ [] ++ cs
  simp only [hsum, entriesOf_succ] at hs
  refine ⟨u, atRow_ok ?_, hs⟩
  simp only [if_neg hno, if_neg hno']
  rw [hspans] at hu
  exact hu

/-! ## Multiplicities -/

theorem readMults_passes {first n : Nat} (hm : m.order = 0 ∨ (s.core w.core).sb = [])
    (hp : ∀ j, j < n → AllPass s w 1 .read [(h.trailer (first + j) + w64 ((first + j) % 16), 1)]) :
    ∃ p t, readMults w h first n m s = .ok p t ∧ Alike w s t := by
  refine foldlM_alike _ (fun p j hj v e => ?_) _
  obtain ⟨els, cs⟩ := p
  obtain ⟨c, x, hx, ex⟩ := readSpan_passes (Unhindered.alike hm e) (e.steady.allPass (hp j (List.mem_range.1 hj)))
  refine ⟨(els ++ [leToNat (seen v w (v.loadByte w.core) (h.trailer (first + j) + w64 ((first + j) % 16)) 1)], cs ++ c), x, ?_, ex⟩
  simp only [M.bind_apply, hx, M.pure_apply]

theorem kvmultRow_passes {td : Num3} {x : W64} {first n r : Nat} (hm : Unhindered s m)
    (hp : ∀ j, j < n → AllPass s s.who 1 .read [(h.trailer (first + j) + w64 ((first + j) % 16), 1)]) (ht : LoadingTile s td x t) :
    ∃ u, kvmultRow td s.who h first n m hcs r t = .ok none u ∧ LoadingTile s td x u := by
  obtain ⟨p, v, hv, e⟩ := readMults_passes (ht.load.unhindered hm) fun j hj => ht.load.passes (hp j hj)
  have hv' := ht.alike e
  have hc := Charged.trans (.mine (v.modMe fun sl => sl.setTile td ((v.me.tile td).setRow r (rowOf 1 p.1))) (pipsOf n)) (.all _ (hcs ++ p.2))
  refine ⟨_, atRow_ok ?_, (hv'.load.modMe (fun sl => sl.setTile td ((v.me.tile td).setRow r (rowOf 1 p.1))) (fun _ => rfl) fun _ => rfl).charged hc, ?_⟩
  · simp only [M.bind_apply, hv, getTile_apply, setTile, modMe_apply, charge_apply, chargeCaps_apply, M.pure_apply]
  · rw [hc.tile, State.modMe_me, Slot.setTile_tile]
    exact hv'.shape

/-! ## They complete -/

/-- A field of zeros, its lowest bit apart. -/
theorem fld_succ_zero {x : W64} (h : fld x 20 44 = 0) : flag x 20 = false ∧ fld x 21 43 = 0 := by
  unfold fld at h ⊢
  rw [flag, decide_eq_false_iff_not]
  omega

theorem sequenceTransfersComplete : Claims.SequenceTransfersComplete := by
  intro s a b m h first hp hend hm h14 hh hfirst
  refine ⟨fun p n slice hown hn hslice h28 h1 h128 hres hwidth htok hrows => ?_,
    fun td sh hsh h20 hres h0 hty hcols hchunk htok hrows hroom => ?_, fun td n hn h23 h1 h64 hres htok hrows => ?_⟩
  · obtain ⟨hcs, u, hu, e⟩ := readHeader_passes hm hh
    have hload := ((Loading.issue s).alike e).acquired m.order m.scope.toNat
    obtain ⟨t, hrun, ht⟩ := rowsRun_exists (n := n) (I := fun _ => LoadingPlane s p (mkHalfShape 5 32 n)) (body := kvldRow p s.who h first slice m hcs)
      (fun c t hc ht => kvldRow_passes hm (hrows c hc) ht)
      (s := cleared ((u.acquired m.order m.scope.toNat).modPlane p fun q => { q with
        shadow := { q.shadow.reshape 5 32 n with scales := Vector.replicate 128 0x3F800000 } }))
      ⟨(hload.modPlane p _).modMe (fun sl => { sl with restart := w64 (sl.restart.toNat % 2 ^ 63) }) (fun _ => rfl) fun _ => rfl, by
        rw [cleared, planeOf_modMe, planeOf_modPlane]
        rfl⟩
    obtain ⟨hcomp, hmem⟩ := ht.load.under.completed
    exact ⟨_, sequenceTransfers_traced.1 s u t p a b m h hcs none first n slice hp hend h14 hown hfirst hn hslice h28 h1 h128 hres.symm hu hwidth htok
      hrun,
      hcomp, by rw [planeOf_finish]; exact ht.shape, hmem⟩
  · obtain ⟨hcs, u, hu, e⟩ := readHeader_passes (m := Mod.none) (.inl rfl) hh
    subst hsh
    obtain ⟨hflag, h21⟩ := fld_succ_zero h20
    obtain ⟨t, hrun, ht⟩ := rowsRun_exists (n := shVrows (s.me.tile td).shape) (I := fun i => Storing s (entriesOf (shVcols (s.me.tile td).shape) i))
      (body := kvstRow (s.me.tile td) s.who h (s.src b) hcs)
      (fun i t hi ht => kvstRow_passes hflag hroom hi (hfirst ▸ hrows i hi) ht) (by
        rw [entriesOf, ite_self]
        exact Storing.begun e)
    obtain ⟨hcomp, hmem, hsb⟩ := ht.completed []
    exact ⟨_, sequenceTransfers_traced.2.1 s s.issue u t td a b m h hcs none _ hp hend h14 rfl h21 hres.symm (releaseAt_unhindered hm) hu
      (fun _ => ⟨h0, hty, hcols⟩) hchunk (.inr (hfirst ▸ htok)) hrun, hcomp, hmem, hsb⟩
  · obtain ⟨hcs, u, hu, e⟩ := readHeader_passes hm hh
    obtain ⟨t, hrun, ht⟩ := rowsRun_exists (n := 1) (I := fun _ => LoadingTile s td (mkShape 1 1 64 1 n))
      (body := kvmultRow td s.who h (fld (s.src b) 0 16) n m hcs) (fun r t _ ht => kvmultRow_passes hm (hfirst ▸ hrows) ht)
      (.begun (((Loading.issue s).alike e).acquired m.order m.scope.toNat) td (mkShape 1 1 64 1 n))
    obtain ⟨hcomp, hshape, hmem⟩ := ht.completed []
    exact ⟨_, sequenceTransfers_traced.2.2 s u t td a b m h hcs none n hp hend h14 hn h23 h1 h64 hres.symm hu (hfirst ▸ htok) hrun, hcomp, hshape, hmem⟩

/-- Settles O16: the rows that the loops of KVLD, KVST and KVMULT make are those of the statement; where the accesses pass, each can be made. -/
theorem sequenceTransfers : Obligations.SequenceTransfers := ⟨sequenceTransfers_traced, sequenceTransfersComplete⟩

end

end Sys2Proof.Machine
end

section
/-! Channels: receiving instructions (R182, R183). -/

-- One declaration after another: checked side by side, these take more threads than the memory of the check holds.
set_option Elab.async false

namespace Sys2Proof.Machine

open Sys2Proof.Claims

section
variable {s t u : State} {d : Num3} {c : Num2} {tl : Tile} {q rest : List ChanItem} {copy : Bool} {upd : Tile → Row64 → Nat → List FR} {fmt : W64}

/-! ## Channels as parts of the state -/

/-- One channel of the acting core replaced. -/
def State.setChannel (s : State) (c : Num2) (q : List ChanItem) : State := s.modMyCore fun k => { k with chans := k.chans.set c.toNat q c.isLt }

theorem channelOf_setChannel (s : State) (c : Num2) (q : List ChanItem) : channelOf (s.setChannel c q) c = q := by
  simp [channelOf, State.setChannel]

theorem channelOf_setChannel_of_ne (s : State) {x : Num2} (q : List ChanItem) (h : x ≠ c) : channelOf (s.setChannel c q) x = channelOf s x := by
  have hne : c.toNat ≠ x.toNat := fun e => h (BitVec.eq_of_toNat_eq e.symm)
  simp [channelOf, State.setChannel, hne]

theorem channelOf_congr (h : t.myCore.chans = s.myCore.chans) (x : Num2) : channelOf t x = channelOf s x := by
  unfold channelOf
  simp only [h]

theorem modMe_chans (s : State) (f : Slot → Slot) : (s.modMe f).myCore.chans = s.myCore.chans := by rw [State.modMe_myCore]; rfl

/-- A receiving instruction under way: its tile, what it has still to take, and the other tiles and channels as they were. -/
structure Receiving (s : State) (d : Num3) (c : Num2) (tl : Tile) (q : List ChanItem) (t : State) : Prop where
  work : UnitWork s t
  tile : t.me.tile d = tl
  tiles : ∀ i, i ≠ d → t.me.tile i = s.me.tile i
  fpcAt : t.me.fpcAt = fpcOf s
  chan : channelOf t c = q
  chans : ∀ x, x ≠ c → channelOf t x = channelOf s x

namespace Receiving

theorem issue (h : channelOf s c = q) : Receiving s d c (s.me.tile d) q s.issue := by
  have hc : s.issue.myCore.chans = s.myCore.chans := by rw [s.issue_frame.2.1.1]
  exact ⟨.issue s, s.issue_tile d, fun i _ => s.issue_tile i, s.issue_fpcAt, (channelOf_congr hc c).trans h, fun x _ => channelOf_congr hc x⟩

/-- The slot changed in neither tiles, registers, predicates, pc nor k.fpc. -/
theorem modMe (h : Receiving s d c tl q t) (f : Slot → Slot) (hf : f t.me = { f t.me with
    tiles := t.me.tiles, s := t.me.s, p := t.me.p, pc := t.me.pc, stopReq := t.me.stopReq, fpcAt := t.me.fpcAt }) : Receiving s d c tl q
      (t.modMe f) := by
  have hme : (t.modMe f).me = f t.me := State.modMe_me ..
  have htile (i : Num3) : (t.modMe f).me.tile i = t.me.tile i := by
    rw [hme, hf]
    rfl
  refine ⟨h.work.modMe ⟨by rw [hf], by rw [hf], by rw [hf], by rw [hf]⟩, (htile d).trans h.tile, fun i hi => (htile i).trans (h.tiles i hi), ?_, ?_,
    fun x hx => ?_⟩
  · rw [hme, hf]
    exact h.fpcAt
  · exact (channelOf_congr (modMe_chans t f) c).trans h.chan
  · exact (channelOf_congr (modMe_chans t f) x).trans (h.chans x hx)

/-- The core changed in neither slots nor channels. -/
theorem modMyCore (h : Receiving s d c tl q t) (f : Core → Core) (hs : (f t.myCore).slots = t.myCore.slots) (hc : (f t.myCore).chans = t.myCore.chans) :
    Receiving s d c tl q (t.modMyCore f) := by
  have hme := State.modMyCore_me_of_slots hs
  have hch : (t.modMyCore f).myCore.chans = t.myCore.chans := by rw [State.modMyCore_myCore, hc]
  exact ⟨h.work.modMyCore hs, by rw [hme, h.tile], fun i hi => by rw [hme, h.tiles i hi], by rw [hme, h.fpcAt], (channelOf_congr hch c).trans h.chan,
    fun x hx => (channelOf_congr hch x).trans (h.chans x hx)⟩

theorem take (h : Receiving s d c tl q t) (q' : List ChanItem) : Receiving s d c tl q' (t.setChannel c q') := by
  have hme : (t.setChannel c q').me = t.me := State.modMyCore_me_of_slots rfl
  exact ⟨h.work.modMyCore rfl, by rw [hme, h.tile], fun i hi => by rw [hme, h.tiles i hi], by rw [hme, h.fpcAt], channelOf_setChannel ..,
    fun x hx => (channelOf_setChannel_of_ne t q' hx).trans (h.chans x hx)⟩

theorem setTile (h : Receiving s d c tl q t) (x : Tile) : Receiving s d c x q (t.modMe fun sl => sl.setTile d x) := by
  have hme : (t.modMe fun sl => sl.setTile d x).me = t.me.setTile d x := State.modMe_me ..
  exact ⟨h.work.modMe ⟨rfl, rfl, rfl, rfl⟩, by rw [hme, Slot.setTile_tile], fun i hi => by rw [hme, Slot.setTile_tile_of_ne _ _ hi, h.tiles i hi],
    by rw [hme]; exact h.fpcAt, (channelOf_congr (modMe_chans t _) c).trans h.chan, fun y hy =>
      (channelOf_congr (modMe_chans t _) y).trans (h.chans y hy)⟩

theorem rowDone (h : Receiving s d c tl q t) (r : Nat) (els : List FR) :
    Receiving s d c (tl.setRow r (rowOf (tySize (shType tl.shape)) (els.map (·.bits)))) q (t.rowDone d r els) := by
  have hme := t.rowDone_me d r els
  have hc : (t.rowDone d r els).myCore.chans = t.myCore.chans := by
    obtain ⟨sl, ev, hk⟩ := State.rowDone_myCore (s := t) (d := d) (r := r) els
    rw [hk]
  refine ⟨h.work.rowDone els, ?_, fun i hi => ?_, ?_, (channelOf_congr hc c).trans h.chan, fun x hx => (channelOf_congr hc x).trans (h.chans x hx)⟩
  · rw [hme, h.tile]
    exact Slot.setTile_tile ..
  · rw [hme]
    exact (Slot.setTile_tile_of_ne _ _ hi).trans (h.tiles i hi)
  · rw [hme]
    exact h.fpcAt

theorem charge (h : Receiving s d c tl q t) (n : Nat) : Receiving s d c tl q (t.chargeSlot t.cur.core t.cur.slot n) := by
  rw [chargeSlot_mine]
  exact (h.modMe (fun sl => { sl with meter := satAdd64 sl.meter n }) rfl).modMyCore (·.tally 0x32 t.cur.slot n) rfl rfl

theorem streamed (h : Receiving s d c tl q t) : Streamed s t.finish d c tl q := by
  have hme := t.finish_me
  exact ⟨by rw [hme]; exact h.tile, (channelOf_congr (modMe_chans t _) c).trans h.chan, fun x hx =>
    (channelOf_congr (modMe_chans t _) x).trans (h.chans x hx),
    fun i hi => by rw [hme]; exact h.tiles i hi, h.work.finish⟩

end Receiving

/-! ## The receiving loop (R183) -/

theorem shType_withValid (v : W64) (vr vc : Nat) : shType (withValid v vr vc) = shType v := by
  have h : shType v < 16 := Nat.mod_lt _ (by decide)
  unfold withValid mkShape
  rw [shType, fld, w64, BitVec.toNat_ofNat]
  omega

/-- The valid rows of a destination after one more item. -/
def rowsAfter (copy : Bool) (sh : W64) (n : Nat) : Nat := if copy then min (n + 1) (shRows sh) else max (shVrows sh) (min (n + 1) (shRows sh))

/-- A destination after one more item. -/
def receivedOne (copy : Bool) (upd : Tile → Row64 → Nat → List FR) (t : Tile) (n : Nat) (row : Row64) : Tile :=
  (t.reshape (withValid t.shape (rowsAfter copy t.shape n) (shVcols t.shape))).setRow (n % shRows t.shape)
    (rowOf (tySize (shType t.shape)) ((upd t row (n % shRows t.shape)).map (·.bits)))

theorem received_cons (copy : Bool) (upd : Tile → Row64 → Nat → List FR) (t : Tile) (n : Nat) (row : Row64) (rows : List Row64) :
    received copy upd t n (row :: rows) = received copy upd (receivedOne copy upd t n row) (n + 1) rows := rfl

theorem takeItem_apply (c : Num2) (q : List ChanItem) (s : State) :
    modCore (fun k => { k with chans := k.chans.set c.toNat q c.isLt }) s = .ok () (s.setChannel c q) := rfl

/-- One item taken. -/
theorem recvLoop_data {key fuel n : Nat} {sh : W64} {row : Row64} (hend : s.me.stopReq = .none) (hnt : ntOf (fpcOf s) = false)
    (h : Receiving s d c tl (.data sh row :: q) t) : ∃ u, Receiving s d c (receivedOne copy upd tl n row) q u ∧
      recvLoop key d c (fuel + 1) n none copy upd fmt t = recvLoop key d c fuel (n + 1) none copy upd fmt u := by
  have hrow := (((h.take q).setTile (tl.reshape (withValid tl.shape (rowsAfter copy tl.shape n) (shVcols tl.shape)))).rowDone (n % shRows tl.shape)
    (upd tl row (n % shRows tl.shape))).charge 1
  rw [Tile.reshape_shape, shType_withValid] at hrow
  refine ⟨_, hrow, ?_⟩
  have hchan : t.myCore.chans[c.toNat]'(c.isLt) = .data sh row :: q := h.chan
  have hstop : ¬((none : Option Nat) = some 0 || decide (t.me.stopReq ≠ .none)) = true := by simp [h.work.stopReq, hend]
  have htake : (t.setChannel c q).me.tile d = tl := (h.take q).tile
  have hnone (u : State) (hu : u.me.fpcAt = fpcOf s) (ty r cols : Nat) (els : List FR) (f : W64) : nanTrap u.me.fpcAt ty r cols els f = none :=
    nanTrap_none (.inl (by rw [hu, hnt]))
  conv_lhs => rw [recvLoop.eq_def]
  rw [M.bind_apply, getCore_apply]
  dsimp only
  rw [hchan]
  have hbegun := (h.take q).setTile (tl.reshape (withValid tl.shape (rowsAfter copy tl.shape n) (shVcols tl.shape)))
  simp only [M.bind_apply, getMe_apply, if_neg hstop, takeItem_apply, htake, setTile, modMe_apply, commitRow_apply, charge_apply]
  unfold rowsAfter at hbegun ⊢
  simp only [hnone _ hbegun.fpcAt, ite_self]
  rfl

theorem freeChannel_apply (c : Num2) (s : State) : freeChannel c s = .ok () (s.modMyCore fun k =>
    { k with chanRx := k.chanRx.filter fun q => !(q.1 == c.toNat && q.2 == s.me.uid) }) := rfl

theorem Receiving.freed (h : Receiving s d c tl q t) : Receiving s d c tl q (t.modMyCore fun k =>
    { k with chanRx := k.chanRx.filter fun q => !(q.1 == c.toNat && q.2 == t.me.uid) }) := h.modMyCore _ rfl rfl

/-- END taken: the instruction completes, and its channel serves another. -/
theorem recvLoop_fin {key fuel n count : Nat} (h : Receiving s d c tl (.fin count :: q) t) :
    ∃ u, recvLoop key d c fuel n none copy upd fmt t = .ok .done u ∧ Receiving s d c (received copy upd tl n []) q u := by
  have hchan : t.myCore.chans[c.toNat]'(c.isLt) = .fin count :: q := h.chan
  have htake := (h.take q).tile
  rw [recvLoop.eq_def, M.bind_apply, getCore_apply]
  dsimp only
  rw [hchan]
  by_cases hc : copy = true ∧ n = 0
  · have hyes : (copy && n = 0) = true := by simpa using hc
    refine ⟨_, ?_, ((h.take q).setTile _).freed⟩
    simp only [M.bind_apply, takeItem_apply, hyes, if_true, getMe_apply, htake, setTile, modMe_apply, freeChannel_apply, M.pure_apply, received,
      if_pos hc]
  · have hno : ¬(copy && n = 0) = true := by simpa using hc
    refine ⟨_, ?_, by rw [received, if_neg hc]; exact (h.take q).freed⟩
    simp only [M.bind_apply, takeItem_apply, if_neg hno, freeChannel_apply, M.pure_apply]

/-- Every item taken, and the END behind them. -/
theorem recvLoop_all {key count : Nat} (items : List (W64 × Row64)) (fuel n : Nat) (hlen : items.length ≤ fuel) (hend : s.me.stopReq = .none)
    (hnt : ntOf (fpcOf s) = false) (h : Receiving s d c tl (items.map (fun x => .data x.1 x.2) ++ .fin count :: rest) t) :
    ∃ u, recvLoop key d c fuel n none copy upd fmt t = .ok .done u ∧ Receiving s d c (received copy upd tl n (items.map (·.2))) rest u := by
  induction items generalizing fuel n tl t with
  | nil => exact recvLoop_fin h
  | cons x items ih =>
    obtain ⟨f, rfl⟩ : ∃ f, fuel = f + 1 := ⟨fuel - 1, by rw [List.length_cons] at hlen; omega⟩
    obtain ⟨v, hv, heq⟩ := recvLoop_data (key := key) (fuel := f) (n := n) (copy := copy) (upd := upd) (fmt := fmt) hend hnt h
    obtain ⟨u, hu, hr⟩ := ih f (n + 1) (by rw [List.length_cons] at hlen; omega) hv
    exact ⟨u, heq.trans hu, by rw [List.map_cons, received_cons]; exact hr⟩

/-! ## The receiving instructions -/

/-- The channel taken by the context. -/
def State.channelTaken (s : State) (c : Num2) : State := s.modMyCore fun k => { k with
  chanRx := if k.chanRx.contains (c.toNat, s.me.uid) then k.chanRx else k.chanRx ++ [(c.toNat, s.me.uid)] }

theorem Receiving.begun (h : Receiving s d c tl q t) : Receiving s d c tl q (cleared (t.channelTaken c)) :=
  (h.modMyCore (fun k => { k with chanRx := if k.chanRx.contains (c.toNat, t.me.uid) then k.chanRx else k.chanRx ++ [(c.toNat, t.me.uid)] }) rfl
    rfl).modMe
    (fun sl => { sl with restart := w64 (sl.restart.toNat % 2 ^ 63) }) rfl

theorem takeChannel_ok (h : ∀ x ∈ s.myCore.chanRx, x.1 = c.toNat → x.2 = s.me.uid) : takeChannel c s = .ok () (s.channelTaken c) := by
  have hno : ¬(s.myCore.chanRx.any fun q => decide (q.1 = c.toNat) && decide (q.2 ≠ s.me.uid)) = true := by
    rw [List.any_eq_true]
    rintro ⟨x, hx, hp⟩
    rw [Bool.and_eq_true, decide_eq_true_eq, decide_eq_true_eq] at hp
    exact hp.2 (h x hx hp.1)
  simp only [takeChannel, M.bind_apply, getCore_apply, getMe_apply, if_neg hno]
  rfl

/-- What the receiving forms do before their loop. -/
theorem streamRecv_begins {fn : Nat} {types : List Nat} {more : W64 → W64 → M Unit} (hres : resumesAt s (restartKey 2 7 fn) = none)
    (h0 : (s.me.tile d).shape ≠ 0) (hty : shType (s.me.tile d).shape ∈ types) (hmore : more (s.me.tile d).shape fmt s.issue = .ok () s.issue)
    (hrx : ∀ x ∈ s.myCore.chanRx, x.1 = c.toNat → x.2 = s.me.uid) (hq : channelOf s c = q) :
    ∃ t, Receiving s d c (s.me.tile d) q t ∧
      streamRecv fn types more fmt copy upd d c s.issue = recvLoop (restartKey 2 7 fn) d c 4096 0 s.cur.rows copy upd fmt t := by
  have hi := Receiving.issue (d := d) hq
  have hrx' : ∀ x ∈ s.issue.myCore.chanRx, x.1 = c.toNat → x.2 = s.issue.me.uid := by
    have h1 : s.issue.myCore.chanRx = s.myCore.chanRx := by rw [s.issue_frame.2.1.1]
    have h2 : s.issue.me.uid = s.me.uid := by rw [s.issue_frame.2.2]
    rwa [h1, h2]
  refine ⟨cleared (s.issue.channelTaken c), hi.begun, ?_⟩
  have hcur : (cleared (s.issue.channelTaken c)).cur = s.cur := s.issue_cur
  simp only [streamRecv, M.bind_apply, getMe_apply, State.issue_tile, resumeRow_apply, resumesAt_issue, hres, Option.isNone_none, if_true,
    checkSrc_ok h0 hty, hmore, takeChannel_ok hrx', clearPend_apply, M.get_apply, hcur, Option.getD_none]

theorem streamRecv_ok {fn count : Nat} {types : List Nat} {more : W64 → W64 → M Unit} {items : List (W64 × Row64)} (hend : ToTheEnd s)
    (hres : resumesAt s (restartKey 2 7 fn) = none) (h0 : (s.me.tile d).shape ≠ 0) (hty : shType (s.me.tile d).shape ∈ types)
    (hmore : more (s.me.tile d).shape fmt s.issue = .ok () s.issue) (hnt : ntOf (fpcOf s) = false) (hlen : items.length ≤ 4096)
    (hq : channelOf s c = items.map (fun x => .data x.1 x.2) ++ .fin count :: rest) (hrx : ∀ x ∈ s.myCore.chanRx, x.1 = c.toNat → x.2 = s.me.uid) :
    ∃ t, run (streamRecv fn types more fmt copy upd d c) s = .next t ∧ Streamed s t d c (received copy upd (s.me.tile d) 0 (items.map (·.2))) rest := by
  obtain ⟨t, ht, heq⟩ := streamRecv_begins (copy := copy) (upd := upd) hres h0 hty hmore hrx hq
  obtain ⟨u, hu, hr⟩ := recvLoop_all (key := restartKey 2 7 fn) (copy := copy) (upd := upd) (fmt := fmt) items 4096 0 hlen hend.2 hnt ht
  exact ⟨_, run_done (heq.trans (by rw [hend.1]; exact hu)), hr.streamed⟩

/-- A receiving instruction that finds its channel empty waits there, its place in the stream kept. -/
def State.waitingAt (s : State) (key row : Nat) : State := (s.modMe fun sl => { sl with restart := restartWord key row }).waitIn (.blocked true)

theorem waitingAt_me (s : State) (key row : Nat) :
    (s.waitingAt key row).me = { s.me with st := .wait, waiting := .blocked true, reissue := false, restart := restartWord key row } := by
  rw [State.waitingAt, State.waitIn, State.modMe_me, State.modMe_me]

theorem restartWord_key (page maj fn row : Nat) (h : page < 32) (hm : maj < 16) (hf : fn < 32) :
    fld (restartWord (restartKey page maj fn) row) 23 17 * 2 ^ 23 = restartKey page maj fn := by
  simp only [fld, restartWord, restartKey, w64, BitVec.toNat_ofNat]
  omega

theorem resumesAt_waitingAt (s : State) {fn : Nat} (hf : fn < 32) : resumesAt (s.waitingAt (restartKey 2 7 fn) 0) (restartKey 2 7 fn) = some 0 := by
  have hpend : flag (restartWord (restartKey 2 7 fn) 0) 63 = true := restartWord_pend 0 (by unfold restartKey; omega)
  unfold resumesAt
  rw [waitingAt_me]
  simp only [hpend, restartWord_key 2 7 fn 0 (by decide) (by decide) hf, restartWord_row 2 7 fn (show 0 < 2 ^ 16 by decide), and_self, if_true]

theorem Slot.tiles_ext {x y : Slot} (h : ∀ i : Num3, x.tile i = y.tile i) : x.tiles = y.tiles := by
  refine Vector.ext fun i hi => ?_
  have hv : (BitVec.ofNat 3 i).toNat = i := by simpa using hi
  have hi' := h (BitVec.ofNat 3 i)
  simp only [Slot.tile, hv] at hi'
  exact hi'

theorem Receiving.tiles_eq (h : Receiving s d c (s.me.tile d) q t) : t.me.tiles = s.me.tiles := by
  refine Slot.tiles_ext fun i => ?_
  by_cases hi : i = d
  · exact hi ▸ h.tile
  · exact h.tiles i hi

theorem recvLoop_empty {key fuel n : Nat} {budget : Option Nat} (h : channelOf t c = []) :
    recvLoop key d c fuel n budget copy upd fmt t = .error (.wait (.blocked true)) (t.modMe fun sl => { sl with restart := restartWord key n }) := by
  have hchan : t.myCore.chans[c.toNat]'(c.isLt) = [] := h
  rw [recvLoop.eq_def, M.bind_apply, getCore_apply]
  dsimp only
  rw [hchan]
  simp only [setRestart, M.bind_apply, modMe_apply, block_apply]

theorem streamRecv_waits {fn : Nat} {types : List Nat} {more : W64 → W64 → M Unit} (hf : fn < 32) (hres : resumesAt s (restartKey 2 7 fn) = none)
    (h0 : (s.me.tile d).shape ≠ 0) (hty : shType (s.me.tile d).shape ∈ types)
    (hmore : more (s.me.tile d).shape fmt s.issue = .ok () s.issue)
    (hq : channelOf s c = []) (hrx : ∀ x ∈ s.myCore.chanRx, x.1 = c.toNat → x.2 = s.me.uid) :
    ∃ t, run (streamRecv fn types more fmt copy upd d c) s = .next t ∧ t.me.st = .wait ∧ t.me.waiting = .blocked true ∧ t.me.pc = s.me.pc ∧
      resumesAt t (restartKey 2 7 fn) = some 0 ∧ t.me.tiles = s.me.tiles := by
  obtain ⟨t, ht, heq⟩ := streamRecv_begins (copy := copy) (upd := upd) hres h0 hty hmore hrx hq
  have hrun : run (streamRecv fn types more fmt copy upd d c) s = .next (t.waitingAt (restartKey 2 7 fn) 0) := by
    rw [run, heq, recvLoop_empty ht.chan]
    rfl
  have hme := waitingAt_me t (restartKey 2 7 fn) 0
  exact ⟨_, hrun, by rw [hme], by rw [hme], by rw [hme]; exact ht.work.pc, resumesAt_waitingAt t hf, by rw [hme]; exact ht.tiles_eq⟩

/-- The forms of one channel and one tile: each is the shared form, with the elements that k.fpc's issue value gives. -/
theorem exec_receiving {p : (Num3 → Num2 → Instr) × Nat × List Nat × Bool × (W64 → Tile → Row64 → Nat → List FR)} (hp : p ∈ receiving) (s : State)
    (d : Num3) (c : Num2) :
    ∃ fn fmt, fn < 32 ∧ p.2.1 = restartKey 2 7 fn ∧
      exec (p.1 d c) s = run (streamRecv fn p.2.2.1 (fun _ _ => pure ()) fmt p.2.2.2.1 (p.2.2.2.2 (fpcOf s)) d c) s := by
  have hfpc := s.issue_fpcAt
  simp only [receiving, List.mem_cons, List.not_mem_nil, or_false] at hp
  rcases hp with rfl | rfl | rfl
  · refine ⟨0, fmtD s.issue.me d, by decide, rfl, ?_⟩
    change run (tileSadd d c) s = _
    simp only [run, tileSadd, arithTypes, M.bind_apply, getMe_apply, hfpc]
  · refine ⟨1, fmtD s.issue.me d, by decide, rfl, ?_⟩
    change run (tileSmax d c) s = _
    simp only [run, tileSmax, arithTypes, M.bind_apply, getMe_apply]
  · refine ⟨2, fmtD s.issue.me d, by decide, rfl, ?_⟩
    change run (tileScpy d c) s = _
    simp only [run, tileScpy, M.bind_apply, getMe_apply]
    rfl

theorem tsfma_ok {b : Num3} {items : List (W64 × Row64)} {count : Nat} (hend : ToTheEnd s) (hres : resumesAt s (restartKey 2 7 3) = none)
    (h0 : (s.me.tile d).shape ≠ 0) (hty : shType (s.me.tile d).shape ∈ [5, 6, 7]) (hb : (s.me.tile b).shape ≠ 0)
    (hsame : sameTRC (s.me.tile b).shape (s.me.tile d).shape = true) (hnt : ntOf (fpcOf s) = false) (hlen : items.length ≤ 4096)
    (hq : channelOf s c = items.map (fun x => .data x.1 x.2) ++ .fin count :: rest) (hrx : ∀ x ∈ s.myCore.chanRx, x.1 = c.toNat → x.2 = s.me.uid) :
    ∃ t, exec (.tsfma d c b) s = .next t ∧ Streamed s t d c (received false (fmaRow s d b) (s.me.tile d) 0 (items.map (·.2))) rest := by
  have htb : shType (s.me.tile b).shape ∈ floatTypes := by
    have htype : shType (s.me.tile b).shape = shType (s.me.tile d).shape := by
      simp only [sameTRC, Bool.and_eq_true, decide_eq_true_eq] at hsame
      exact hsame.1.1
    rw [htype]
    exact hty
  have hexec : exec (.tsfma d c b) s = run (streamRecv 3 floatTypes
      (fun sd f => do checkSrc (s.issue.me.tile b).shape floatTypes f; agree (sameTRC (s.issue.me.tile b).shape sd) (s.issue.me.tile b).shape f)
      (tfmtWord (tyCode (s.issue.me.tile d).shape) 15 15 (tyCode (s.issue.me.tile b).shape)) false
      (fun t row k => (List.range (shVcols t.shape)).map fun j => fmaE (shType t.shape) (rmOf s.issue.me.fpcAt)
        (tyBits (shType t.shape) (elemAt row (tySize (shType t.shape)) j)) ((if b = d then t else s.issue.me.tile b).elem k j) (t.elem k j)) d c)
          s := by
    change run (tileSfma d c b) s = _
    simp only [run, tileSfma, M.bind_apply, getMe_apply]
  rw [hexec, State.issue_tile, State.issue_tile, State.issue_fpcAt]
  refine streamRecv_ok (upd := fmaRow s d b) hend hres h0 hty ?_ hnt hlen hq hrx
  simp only [M.bind_apply, checkSrc_ok hb htb, agree_ok hsame]

theorem streamReceive : StreamReceive := by
  refine ⟨?_, ?_, ?_⟩
  · intro p hp s d c items count rest hend hres h0 hty hnt hlen hq hrx
    obtain ⟨fn, fmt, _, hkey, hexec⟩ := exec_receiving hp s d c
    rw [hexec]
    exact streamRecv_ok hend (hkey ▸ hres) h0 hty rfl hnt hlen hq hrx
  · intro s d b c items count rest hend hres h0 hty hb hsame hnt hlen hq hrx
    exact tsfma_ok hend hres h0 hty hb hsame hnt hlen hq hrx
  · intro p hp s d c hres h0 hty hq hrx
    obtain ⟨fn, fmt, hf, hkey, hexec⟩ := exec_receiving hp s d c
    rw [hexec, hkey]
    exact streamRecv_waits hf (hkey ▸ hres) h0 hty rfl hq hrx

end

end Sys2Proof.Machine
end

section
/-! Channels: sending instructions (R182, R184). -/

-- One declaration after another: checked side by side, these take more threads than the memory of the check holds.
set_option Elab.async false

namespace Sys2Proof.Machine

open Sys2Proof.Claims

section
variable {s t u : State} {core n chan tile : Nat} {d : Num3} {c : Num2} {q : List ChanItem}

theorem downstream_ne (core : Nat) : downstream core ≠ core := by
  unfold downstream
  omega

/-! ## Placing items (R184) -/

/-- A channel of a core, by its number. -/
def State.channelAt (s : State) (core chan : Nat) : List ChanItem := vat [] (s.core core).chans chan

/-- A channel of a core replaced. -/
def State.setChannelAt (s : State) (core chan : Nat) (q : List ChanItem) : State :=
  s.modCore core fun k => { k with chans := k.chans.setIfInBounds chan q }

theorem channelAt_setChannelAt (s : State) (core : Nat) (q : List ChanItem) (h : chan < 4) : (s.setChannelAt core chan q).channelAt core chan = q := by
  rw [State.channelAt, State.setChannelAt, State.modCore_core]
  exact vat_setIfInBounds [] _ q h

theorem channelAt_modCore_of_chans (s : State) (core : Nat) {f : Core → Core} (hf : ∀ k, (f k).chans = k.chans) (c x : Nat) :
    (s.modCore core f).channelAt c x = s.channelAt c x := by
  unfold State.channelAt
  by_cases h : core = c
  · subst h
    rw [State.modCore_core, hf]
  · rw [State.modCore_core_of_ne _ _ h]

theorem setChannelAt_slot (s : State) (core chan : Nat) (q : List ChanItem) (c n : Nat) : (s.setChannelAt core chan q).slot c n = s.slot c n :=
  State.modCore_slot s core (f := fun k => { k with chans := k.chans.setIfInBounds chan q }) (fun _ => rfl) c n

theorem sent_slot (s : State) (core chan uid c n : Nat) : (s.sent core chan uid).slot c n = s.slot c n :=
  State.modCore_slot s core (f := fun k => { k with chanTx := k.chanTx.filter fun q => !(q.1 == chan && q.2 == uid) }) (fun _ => rfl) c n

theorem channelAt_sent (s : State) (core chan uid c x : Nat) : (s.sent core chan uid).channelAt c x = s.channelAt c x :=
  channelAt_modCore_of_chans s core (f := fun k => { k with chanTx := k.chanTx.filter fun q => !(q.1 == chan && q.2 == uid) }) (fun _ => rfl) c x

theorem channelAt_modSlot (s : State) (core n : Nat) (f : Slot → Slot) (c x : Nat) : (s.modSlot core n f).channelAt c x = s.channelAt c x :=
  channelAt_modCore_of_chans s core (f := (·.modSlot n f)) (fun _ => rfl) c x

theorem channelAt_chargeSlot (s : State) (core n k c x : Nat) : (s.chargeSlot core n k).channelAt c x = s.channelAt c x :=
  channelAt_modCore_of_chans s core (f := fun v => (v.modSlot n fun sl => { sl with meter := satAdd64 sl.meter k }).tally 0x32 n k) (fun _ => rfl) c x

/-- A TSEND of a slot under way: what its channel holds; of the slot the meter alone has changed. -/
structure Placing (s : State) (core n chan : Nat) (q : List ChanItem) (t : State) : Prop where
  slot : ∃ m, t.slot core n = { s.slot core n with meter := m }
  mem : t.mem = s.mem
  cur : t.cur = s.cur
  chan : t.channelAt (downstream core) chan = q

namespace Placing

theorem start (s : State) (core n chan : Nat) : Placing s core n chan (s.channelAt (downstream core) chan) s := ⟨⟨_, rfl⟩, rfl, rfl, rfl⟩

theorem put (h : Placing s core n chan q t) (hc : chan < 4) (q' : List ChanItem) :
    Placing s core n chan q' (t.setChannelAt (downstream core) chan q') := by
  obtain ⟨m, hm⟩ := h.slot
  exact ⟨⟨m, (setChannelAt_slot ..).trans hm⟩, h.mem, h.cur, channelAt_setChannelAt _ _ _ hc⟩

theorem charge (h : Placing s core n chan q t) (k : Nat) : Placing s core n chan q (t.chargeSlot core n k) := by
  obtain ⟨m, hm⟩ := h.slot
  exact ⟨⟨_, by rw [State.chargeSlot_slot, hm]⟩, h.mem, h.cur, (channelAt_chargeSlot ..).trans h.chan⟩

end Placing

/-- The items of a tile's rows from the r-th on, with the END that counts them all. -/
def itemsFrom (t : Tile) (r : Nat) : List ChanItem :=
  (rowRange r (shVrows t.shape)).map (fun i => .data t.shape (t.row i)) ++ [.fin (shVrows t.shape)]

theorem itemsFrom_of_lt {t : Tile} {r : Nat} (h : r < shVrows t.shape) : itemsFrom t r = .data t.shape (t.row r) :: itemsFrom t (r + 1) := by
  rw [itemsFrom, rowRange_cons h, List.map_cons, List.cons_append, itemsFrom]

theorem itemsFrom_of_le {t : Tile} {r : Nat} (h : shVrows t.shape ≤ r) : itemsFrom t r = [.fin (shVrows t.shape)] := by
  rw [itemsFrom, rowRange_of_le h, List.map_nil, List.nil_append]

section
variable {tl : Tile}

/-- The last item: END. -/
theorem placeItems_fin {fuel r : Nat} (h : Placing s core n chan q t) (htl : vat Tile.empty (s.slot core n).tiles tile = tl)
    (hstop : (s.slot core n).stopReq = .none) (hr : shVrows tl.shape ≤ r) (hroom : q.length < 32) :
    placeItems core n chan tile (fuel + 1) r none t =
      (t.setChannelAt (downstream core) chan (q ++ [.fin (shVrows tl.shape)]), r, true) := by
  obtain ⟨m, hm⟩ := h.slot
  have hq : vat [] (t.core (downstream core)).chans chan = q := h.chan
  have hno : ¬(q.length ≥ 32 || (none : Option Nat) = some 0 || decide ((s.slot core n).stopReq ≠ .none)) = true := by
    simp [hstop, hroom]
  simp only [placeItems, hq, hm, htl, if_neg hno, if_pos (show r ≥ shVrows tl.shape from hr)]
  rfl

/-- A row placed. -/
theorem placeItems_row {fuel r : Nat} (h : Placing s core n chan q t) (htl : vat Tile.empty (s.slot core n).tiles tile = tl)
    (hstop : (s.slot core n).stopReq = .none) (hr : r < shVrows tl.shape) (hroom : q.length < 32) :
    placeItems core n chan tile (fuel + 1) r none t = placeItems core n chan tile fuel (r + 1) none
      ((t.setChannelAt (downstream core) chan (q ++ [.data tl.shape (tl.row r)])).chargeSlot core n 1) := by
  obtain ⟨m, hm⟩ := h.slot
  have hq : vat [] (t.core (downstream core)).chans chan = q := h.chan
  have hno : ¬(q.length ≥ 32 || (none : Option Nat) = some 0 || decide ((s.slot core n).stopReq ≠ .none)) = true := by
    simp [hstop, hroom]
  conv_lhs => rw [placeItems]
  simp only [hq, hm, htl, if_neg hno, if_neg (Nat.not_le.mpr hr)]
  rfl

/-- The rows that are left, and END, placed in a channel that has room for them. -/
theorem placeItems_all {fuel r : Nat} (h : Placing s core n chan q t) (hc : chan < 4) (htl : vat Tile.empty (s.slot core n).tiles tile = tl)
    (hstop : (s.slot core n).stopReq = .none) (hfuel : shVrows tl.shape - r < fuel) (hroom : q.length + (shVrows tl.shape - r) < 32) :
    ∃ u k, placeItems core n chan tile fuel r none t = (u, k, true) ∧ Placing s core n chan (q ++ itemsFrom tl r) u := by
  induction fuel generalizing r q t with
  | zero => omega
  | succ f ih =>
    by_cases hr : r < shVrows tl.shape
    · have hput := (h.put hc (q ++ [.data tl.shape (tl.row r)])).charge 1
      obtain ⟨u, k, heq, hu⟩ := ih (r := r + 1) hput (by omega) (by rw [List.length_append, List.length_singleton]; omega)
      refine ⟨u, k, (placeItems_row h htl hstop hr (by omega)).trans heq, ?_⟩
      rwa [itemsFrom_of_lt hr, ← List.singleton_append, ← List.append_assoc]
    · rw [Nat.not_lt] at hr
      refine ⟨_, r, placeItems_fin h htl hstop hr (by omega), ?_⟩
      rw [itemsFrom_of_le hr]
      exact h.put hc _

end

theorem Placing.sent (h : Placing s core n chan q t) (uid : Nat) : Placing s core n chan q (t.sent core chan uid) := by
  obtain ⟨m, hm⟩ := h.slot
  exact ⟨⟨m, (sent_slot ..).trans hm⟩, h.mem, h.cur, (channelAt_sent ..).trans h.chan⟩

/-! ## TSEND -/

theorem checkTsend_ok {sh : W64} {fmt : W64} (h0 : sh ≠ 0) (hty : shType sh ≤ 9) (s : State) : checkSrc sh allTypes fmt s = .ok () s :=
  checkSrc_ok h0 (by simp only [allTypes, List.mem_cons, List.not_mem_nil, or_false]; omega) s

theorem tsend_ok (hend : ToTheEnd s) (hres : resumesAt s sendKey = none) (h0 : (s.me.tile d).shape ≠ 0) (hty : shType (s.me.tile d).shape ≤ 9)
    (hw : (s.core (downstream s.cur.core)).world = s.myWorld) (htx : ∀ x ∈ s.myCore.chanTx, x.1 = c.toNat → x.2 = s.me.uid)
    (hroom : (s.channelAt (downstream s.cur.core) c.toNat).length + shVrows (s.me.tile d).shape < 32) :
    ∃ t, exec (.tsend d c) s = .next t.finish ∧
      Placing (cleared s.issue) s.cur.core s.cur.slot c.toNat (s.channelAt (downstream s.cur.core) c.toNat ++ itemsFrom (s.me.tile d) 0) t := by
  have hme : (cleared s.issue).slot s.cur.core s.cur.slot = { s.issue.me with restart := w64 (s.issue.me.restart.toNat % 2 ^ 63) } := by
    have h := State.modMe_me s.issue fun sl => { sl with restart := w64 (sl.restart.toNat % 2 ^ 63) }
    rwa [State.me, State.modMe_cur, State.issue_cur] at h
  have htl : vat Tile.empty ((cleared s.issue).slot s.cur.core s.cur.slot).tiles d.toNat = s.me.tile d := by
    rw [hme, ← s.issue_tile d]
    simp [vat, Slot.tile, d.isLt]
  have hstop : ((cleared s.issue).slot s.cur.core s.cur.slot).stopReq = .none := by
    rw [hme, (State.issue_frame s).2.2]
    exact hend.2
  have hch : (cleared s.issue).channelAt (downstream s.cur.core) c.toNat = s.channelAt (downstream s.cur.core) c.toNat := by
    have hcl : cleared s.issue = s.issue.modSlot s.cur.core s.cur.slot fun sl => { sl with restart := w64 (sl.restart.toNat % 2 ^ 63) } := by
      rw [← s.issue_cur]
      rfl
    rw [hcl, channelAt_modSlot, State.channelAt, State.issue_core_of_ne _ (downstream_ne _)]
    rfl
  have hp := Placing.start (cleared s.issue) s.cur.core s.cur.slot c.toNat
  rw [hch] at hp
  obtain ⟨u, k, heq, hu⟩ := placeItems_all (fuel := 34) (r := 0) hp c.isLt htl hstop (by omega) (by omega)
  refine ⟨u.sent s.cur.core c.toNat s.issue.me.uid, ?_, hu.sent _⟩
  have hworld : ¬(s.issue.core (downstream s.cur.core)).world ≠ s.myWorld := by simpa using hw
  have huid : s.issue.me.uid = s.me.uid := by rw [(State.issue_frame s).2.2]
  have htxs : s.issue.myCore.chanTx = s.myCore.chanTx := by rw [(State.issue_frame s).2.1.1]
  have hmine : ¬(s.issue.myCore.chanTx.any fun q => decide (q.1 = c.toNat) && decide (q.2 ≠ s.issue.me.uid)) = true := by
    rw [htxs, huid, List.any_eq_true]
    rintro ⟨x, hx, hx'⟩
    rw [Bool.and_eq_true, decide_eq_true_eq, decide_eq_true_eq] at hx'
    exact hx'.2 (htx x hx hx'.1)
  change run (tileSend d c) s = _
  refine run_done ?_
  simp only [tileSend, M.bind_apply, getMe_apply, M.get_apply, resumeRow_apply, resumesAt_issue, hres, Option.isNone_none, if_true, State.issue_tile,
    checkTsend_ok h0 hty, State.issue_cur, State.issue_myWorld, if_neg hworld, if_neg hmine, clearPend_apply, hend.1, Option.getD_none, heq,
      M.set_apply,
    M.pure_apply]

theorem streamSend_tsend (sh : W64) (old : List ChanItem) (hend : ToTheEnd s) (hres : resumesAt s sendKey = none) (hsh : sh = (s.me.tile d).shape)
    (h0 : sh ≠ 0) (hty : shType sh ≤ 9) (hw : (s.core (downstream s.cur.core)).world = s.myWorld)
    (htx : ∀ x ∈ s.myCore.chanTx, x.1 = c.toNat → x.2 = s.me.uid) (hold : old = vat [] (s.core (downstream s.cur.core)).chans c.toNat)
    (hroom : old.length + shVrows sh < 32) :
    ∃ t, exec (.tsend d c) s = .next t ∧ t.me.pc = s.behind ∧ t.me.st = .wait ∧ t.me.waiting = .complete ∧ t.me.tiles = s.me.tiles ∧
      t.me.s = s.me.s ∧ t.mem = s.mem ∧ vat [] (t.core (downstream s.cur.core)).chans c.toNat =
        old ++ (List.range (shVrows sh)).map (fun r => .data sh ((s.me.tile d).row r)) ++ [.fin (shVrows sh)] := by
  subst hsh hold
  obtain ⟨t, heq, hp⟩ := tsend_ok (c := c) hend hres h0 hty hw htx hroom
  obtain ⟨m, hm⟩ := hp.slot
  have hcur : t.cur = s.cur := hp.cur.trans s.issue_cur
  have hme : t.me = { s.issue.me with restart := w64 (s.issue.me.restart.toNat % 2 ^ 63), meter := m } := by
    have h := State.modMe_me s.issue fun sl => { sl with restart := w64 (sl.restart.toNat % 2 ^ 63) }
    rw [State.me, State.modMe_cur, State.issue_cur] at h
    rw [State.me, hcur, hm]
    exact congrArg (fun sl : Slot => { sl with meter := m }) h
  have hbehind : t.behind = s.behind := by
    rw [State.behind, hme, hcur, State.behind, ← s.issue_pc]
  have hfin := t.finish_me
  rw [hbehind] at hfin
  refine ⟨_, heq, by rw [hfin]; rfl, by rw [hfin]; rfl, by rw [hfin]; rfl, ?_, ?_, ?_, ?_⟩
  · rw [hfin, hme]
    exact s.issue_tiles
  · rw [hfin, hme]
    exact s.issue_s
  · exact hp.mem.trans s.issue_mem
  · have hch : t.finish.channelAt (downstream s.cur.core) c.toNat = _ :=
      (channelAt_modSlot t t.cur.core t.cur.slot (fun sl => sl.after (sl.pc + w64 t.cur.len) .wait .complete) _ _).trans hp.chan
    rw [itemsFrom, ← List.append_assoc] at hch
    have hrange : rowRange 0 (shVrows (s.me.tile d).shape) = List.range (shVrows (s.me.tile d).shape) := by simp [rowRange]
    rwa [hrange] at hch

theorem tsend_firewall (hres : resumesAt s sendKey = none) (h0 : (s.me.tile d).shape ≠ 0) (hty : shType (s.me.tile d).shape ≤ 9)
    (h15 : s.cur.slot ≠ 15) (hw : (s.core (downstream s.cur.core)).world ≠ s.myWorld) :
    ∃ t, exec (.tsend d c) s = .next t ∧ t.me.st = .trapped ∧ t.me.cause = 0x06 ∧ t.me.tval = w64 (downstream s.cur.core) := by
  have hworld : (s.issue.core (downstream s.cur.core)).world ≠ s.myWorld := by simpa using hw
  have hrun : tileSend d c s.issue =
      .error (.trap ⟨Cause.firewall, w64 (downstream s.cur.core), 0, fmtD s.issue.me d⟩) s.issue := by
    simp only [tileSend, M.bind_apply, getMe_apply, M.get_apply, resumeRow_apply, resumesAt_issue, hres, Option.isNone_none, if_true, State.issue_tile,
      checkTsend_ok h0 hty, State.issue_cur, State.issue_myWorld, if_pos hworld, trapAt_apply]
  have hme := takeTrap_me_of_ne ⟨Cause.firewall, w64 (downstream s.cur.core), 0, fmtD s.issue.me d⟩ (s := s.issue) (by rwa [State.issue_cur])
  exact ⟨_, run_of_trap hrun, by rw [hme], by rw [hme]; rfl, by rw [hme]; rfl⟩

/-! ## CHANNEL_ITEM_PLACEMENT -/

/-- A waiting TSEND that has placed its END. -/
def State.tsendDone (t : State) (core n chan len uid : Nat) : State :=
  (t.modSlot core n fun x => { x.after (x.pc + w64 len) .wait .complete with restart := w64 (x.restart.toNat % 2 ^ 63) }).sent core chan uid

theorem channelItemPlacement_ok {len : Nat} {before after : Sparse Slot} {sl : Slot} (hslots : (s.core core).slots = before ++ (n, sl) :: after)
    (hbefore : ∀ q ∈ before, s.canSend core q.2 = none) (hsl : s.slot core n = sl) (hst : sl.st = .wait) (hwait : sl.waiting = .send chan tile len)
    (hstop : sl.stopReq = .none) (hc : chan < 4)
    (hroom : (s.channelAt (downstream core) chan).length + (shVrows (vat Tile.empty sl.tiles tile).shape - fld sl.restart 0 16) < 32) :
    ∃ t, exec (.channelItemPlacement core) s = .next (t.tsendDone core n chan len sl.uid) ∧
      Placing s core n chan (s.channelAt (downstream core) chan ++ itemsFrom (vat Tile.empty sl.tiles tile) (fld sl.restart 0 16)) t := by
  have hcan : s.canSend core sl = some (chan, tile, len) := by
    have hlt : (vat [] (s.core (downstream core)).chans chan).length < 32 := Nat.lt_of_le_of_lt (Nat.le_add_right _ _) hroom
    simp [State.canSend, hwait, hst, hlt]
  have hfind : (s.core core).slots.findSome? (fun q => (s.canSend core q.2).map fun x => (q.1, q.2, x)) = some (n, sl, chan, tile, len) := by
    rw [hslots, List.findSome?_append, List.findSome?_eq_none_iff.mpr fun q hq => by rw [hbefore q hq, Option.map_none], Option.none_or,
      List.findSome?_cons, hcan]
    rfl
  obtain ⟨u, k, heq, hu⟩ := placeItems_all (fuel := 34) (tile := tile) (r := fld sl.restart 0 16) (Placing.start s core n chan) hc (by rw [hsl])
    (by rw [hsl]; exact hstop) (by omega) hroom
  refine ⟨u, ?_, hu⟩
  have hrun : channelItemPlacement core s = .ok () (u.tsendDone core n chan len sl.uid) := by
    simp only [channelItemPlacement, M.bind_apply, M.get_apply, hfind, heq, M.set_apply, if_true]
    rfl
  change event (channelItemPlacement core) s = _
  simp only [event, hrun]

theorem streamSend_placement (s : State) (core n chan tile len : Nat) (before after : Sparse Slot) (sl : Slot) (old : List ChanItem)
    (hslots : (s.core core).slots = before ++ (n, sl) :: after) (hbefore : ∀ q ∈ before, s.canSend core q.2 = none) (hsl : s.slot core n = sl)
    (hst : sl.st = .wait) (hwait : sl.waiting = .send chan tile len) (hstop : sl.stopReq = .none) (hc : chan < 4)
    (hold : old = vat [] (s.core (downstream core)).chans chan)
    (hroom : old.length + (shVrows (vat Tile.empty sl.tiles tile).shape - fld sl.restart 0 16) < 32) :
    ∃ t, exec (.channelItemPlacement core) s = .next t ∧ (t.slot core n).pc = sl.pc + w64 len ∧ (t.slot core n).st = .wait ∧
      (t.slot core n).waiting = .complete ∧ t.mem = s.mem ∧ vat [] (t.core (downstream core)).chans chan = old ++
        (rowRange (fld sl.restart 0 16) (shVrows (vat Tile.empty sl.tiles tile).shape)).map
          (fun r => .data (vat Tile.empty sl.tiles tile).shape ((vat Tile.empty sl.tiles tile).row r)) ++
        [.fin (shVrows (vat Tile.empty sl.tiles tile).shape)] := by
  subst hold
  obtain ⟨t, heq, hp⟩ := channelItemPlacement_ok hslots hbefore hsl hst hwait hstop hc hroom
  obtain ⟨m, hm⟩ := hp.slot
  have hslot : (t.tsendDone core n chan len sl.uid).slot core n =
      { ({ sl with meter := m } : Slot).after (sl.pc + w64 len) .wait .complete with restart := w64 (sl.restart.toNat % 2 ^ 63) } := by
    rw [State.tsendDone, sent_slot, State.modSlot_slot, hm, hsl]
  have hch : (t.tsendDone core n chan len sl.uid).channelAt (downstream core) chan = _ :=
    (channelAt_sent ..).trans ((channelAt_modSlot ..).trans hp.chan)
  rw [itemsFrom, ← List.append_assoc] at hch
  exact ⟨_, heq, by rw [hslot]; rfl, by rw [hslot]; rfl, by rw [hslot]; rfl, hp.mem, hch⟩

/-- Settles O24, by induction over the items that a step takes or places. -/
theorem streams : Obligations.Streams := by
  refine ⟨streamReceive, ?_, ?_, ?_⟩
  · intro s d c sh old hend hres hsh h0 hty hw htx hold hroom
    exact streamSend_tsend sh old hend hres hsh h0 hty hw htx hold hroom
  · intro s d c hres h0 hty h15 hw
    exact tsend_firewall hres h0 hty h15 hw
  · intro s core n chan tile len before after sl old hslots hbefore hsl hst hwait hstop hc _ hold hroom _ _
    exact streamSend_placement s core n chan tile len before after sl old hslots hbefore hsl hst hwait hstop hc hold hroom

end

end Sys2Proof.Machine
end

section
/-! Copies: acceptance and DRAIN (R136 to R138, R142). -/

-- One declaration after another: checked side by side, these take more threads than the memory of the check holds.
set_option Elab.async false

namespace Sys2Proof.Machine

open Sys2Proof.Claims

section
variable {s t u v e : State} {core : Nat} {c : Copy} {d a : Reg}

/-! ## The descriptor (R136) -/

theorem readDesc_row (core : Nat) (ea : W64) : Does RowKept (readDesc core ea) := by
  have hc := RowKept.carries
  unfold readDesc
  refine Does.ite (fun _ => ?_) fun _ => ?_
  · exact Does.bind hc (Does.whoMe hc) fun w => Does.bind hc (.rowKept (locate_does w ea .read)) fun pl =>
      Does.bind hc (.rowKept (firewall_does w pl ea _)) fun _ => Does.bind hc (Does.get hc) fun _ =>
        Does.when hc (fun _ => Does.block hc false) fun _ => Does.bind hc (Does.pure hc _) fun _ => Does.pure hc _
  · exact Does.bind hc (Does.bind hc (Does.whoMe hc) fun w => readSpan_row w ea _ _ _) fun _ => Does.pure hc _

theorem run_of_wait {m : M Ctl} {w : Wait} (h : m s.issue = .error (.wait w) t) : run m s = .next (t.waitIn w) := by simp [run, h]

/-! ## Acceptance (R138) -/

/-- A copy whose ranges pass, as acceptance leaves it and the engine. -/
theorem acceptCopy_passes {caps more : List Cap} (h : RangesPass core c s caps t) :
    acceptCopy core c more s = ({ c with accepted := true, st := .running }, t.chargeCopy core c (more ++ caps)) := by
  obtain ⟨u, rs, ws, hr, hw, rfl⟩ := h
  simp only [acceptCopy, M.bind_apply, hr, hw, M.pure_apply]

theorem acceptCopy_fails {ti : TrapInfo} (more : List Cap) (h : RangesFail core c s ti t) :
    acceptCopy core c more s = (heldAt c ti.tcoord.toNat,
      t.tellCopyFault core (heldAt c ti.tcoord.toNat) (copyFaultInfo c ti.tcoord.toNat ti)) := by
  rcases h with hr | ⟨rs, v, hr, hw⟩
  · simp only [acceptCopy, M.bind_apply, hr]
    rfl
  · simp only [acceptCopy, M.bind_apply, hr, hw]
    rfl

/-- A copy entered in its engine, accepted or held. -/
def State.entered (s : State) (core : Nat) (c : Copy) (more : List Cap) : State :=
  (acceptCopy core c more s).2.modCore core (·.putCopy (acceptCopy core c more s).1)

theorem entered_passes {caps more : List Cap} (h : RangesPass core c s caps t) : s.entered core c more = accepted t core c (more ++ caps) := by
  rw [State.entered, acceptCopy_passes h]
  rfl

theorem entered_fails {ti : TrapInfo} (more : List Cap) (h : RangesFail core c s ti t) : s.entered core c more = refused t core c ti := by
  rw [State.entered, acceptCopy_fails more h]
  rfl

/-! ## CPY, CPY2D, CPYL -/

/-- What holds where a descriptor that keeps the rules has been read, and the engine has room. -/
structure Described (s u : State) (d a : Reg) (op : Nat) (x : CopyDesc) (dcs : List Cap) : Prop where
  port : NoPort s [d, a] none
  slot : s.cur.slot = 14
  place : descAt s d a
  read : readDesc s.cur.core (s.src a) s.issue = .ok (x, dcs) u
  op_eq : x.op = op
  fields : x.fieldsOk = true
  size : x.sizeOk = true
  room : u.myCore.copies.length < 16

variable {op : Nat} {x : CopyDesc} {dcs : List Cap}

/-- The rest of a copy instruction, once its descriptor has been read. -/
def acceptance (core op slot world : Nat) (ea : W64) (x : CopyDesc) (dcs : List Cap) : M Unit := do
  let sl := (← get).slot core slot
  if op = 2 then
    let (bad, c, lcs) ← layoutCopy core slot world ea x
    emptyBlock core ea
    chargeCaps dcs
    match bad with
    | some t => modify fun s => refused s core c t
    | none => modify fun s => s.entered core c lcs
  else
    emptyBlock core ea
    chargeCaps dcs
    modify fun s => s.entered core (plainCopy sl slot world x) []

theorem run_copyInstr (h : Described s u d a op x dcs) {t : State}
    (hrest : acceptance s.cur.core op (s.src d).toNat s.myWorld (s.src a) x dcs u = .ok () t) : run (copyInstr op d a) s = .next t.finish := by
  obtain ⟨h32, hscr, h14, hplace⟩ := h.place
  have hcur : u.cur = s.cur := ((readDesc_row _ _).ok h.read).cur.trans s.issue_cur
  have hroom : ¬(u.core s.cur.core).copies.length ≥ 16 := by
    have hr := h.room
    rw [State.myCore, hcur] at hr
    omega
  have hslot : ¬s.cur.slot ≠ 14 := fun hne => hne h.slot
  have halign : ¬(s.src a).toNat % 32 ≠ 0 := fun hne => hne h32
  have hxlate : ¬(decide (fld (s.src a) 61 3 ≠ 6) || (decide (fld (s.src a) 58 3 ≠ 0) && decide (fld (s.src a) 58 3 ≠ 3)) ||
      (inMailboxes (s.src a) && decide (fld (s.src a) 0 58 ≥ 0x200))) = true := by
    rcases hplace with h0 | ⟨h3, hlt, _⟩
    · simp [hscr, h0, inMailboxes]
    · simp [hscr, h3, inMailboxes, hlt]
  have hblock : ¬(inMailboxes (s.src a) && decide ((s.src d).toNat ≠ fld (s.src a) 5 4)) = true := by
    rcases hplace with h0 | ⟨h3, _, heq⟩
    · simp [h0, inMailboxes]
    · simp [h3, inMailboxes, heq]
  have hnum : ¬(s.src d).toNat > 14 := by omega
  have hop : ¬(decide (x.op ≤ 2) && decide (x.op ≠ op)) = true := by simp [h.op_eq]
  have hok : ¬(!x.fieldsOk || !x.sizeOk) = true := by simp [h.fields, h.size]
  refine run_waiting h.port ?_
  simp only [M.bind_apply, M.get_apply, State.issue_cur, if_neg hslot, rd_apply, State.issue_src, if_neg halign, if_neg hxlate, if_neg hblock,
    if_neg hnum,
    h.read, if_neg hop, if_neg hok, if_neg hroom, State.issue_myWorld]
  exact hrest

/-- CPY and CPY2D: the copy that their descriptor describes is entered in the engine. -/
theorem acceptance_plain (hop : op ≠ 2) {core slot world : Nat} {ea : W64} (he : emptyBlock core ea u = .ok () e) :
    acceptance core op slot world ea x dcs u = .ok () ((e.chargeAll dcs).entered core (plainCopy (u.slot core slot) slot world x) []) := by
  simp only [acceptance, M.bind_apply, M.get_apply, if_neg hop, he, chargeCaps_apply, M.modify_apply]

/-- CPYL whose layout could be read, and whose layout could not. -/
theorem acceptance_laid {core slot world : Nat} {ea : W64} {lcs : List Cap}
    (hl : layoutCopy core slot world ea x u = .ok (none, c, lcs) v) (he : emptyBlock core ea v = .ok () e) :
    acceptance core 2 slot world ea x dcs u = .ok () ((e.chargeAll dcs).entered core c lcs) := by
  simp only [acceptance, M.bind_apply, M.get_apply, if_true, hl, he, chargeCaps_apply, M.modify_apply]

theorem acceptance_notLaid {core slot world : Nat} {ea : W64} {lcs : List Cap} {ti : TrapInfo}
    (hl : layoutCopy core slot world ea x u = .ok (some ti, c, lcs) v) (he : emptyBlock core ea v = .ok () e) :
    acceptance core 2 slot world ea x dcs u = .ok () (refused (e.chargeAll dcs) core c ti) := by
  simp only [acceptance, M.bind_apply, M.get_apply, if_true, hl, he, chargeCaps_apply, M.modify_apply]

theorem exec_plainCopies {q : (Reg → Reg → Instr) × Nat} (h : q ∈ plainCopies) : q.2 ≠ 2 ∧ exec (q.1 d a) s = run (copyInstr q.2 d a) s := by
  simp only [plainCopies, List.mem_cons, List.not_mem_nil, or_false] at h
  rcases h with rfl | rfl
  · exact ⟨by decide, rfl⟩
  · exact ⟨by decide, rfl⟩

theorem exec_copies {q : (Reg → Reg → Instr) × Nat} (h : q ∈ plainCopies ++ [(.cpyl, 2)]) : exec (q.1 d a) s = run (copyInstr q.2 d a) s := by
  rw [List.mem_append, List.mem_singleton] at h
  rcases h with h | rfl
  · exact (exec_plainCopies h).2
  · rfl

theorem copyInstr_outside (hp : NoPort s [d, a] none) (h14 : s.cur.slot ≠ 14) :
    run (copyInstr op d a) s = .next (takeTrap ⟨Cause.priv, s.me.pc, 0, 0xFFFF⟩ s.issue) := by
  refine run_waiting_trap hp ?_
  simp only [M.bind_apply, M.get_apply, State.issue_cur, if_pos h14, trapPriv_apply, State.issue_pc]
  rfl

theorem copyAcceptance : CopyAcceptance := by
  refine ⟨?_, ?_, ?_⟩
  · intro q hq s u e d a x dcs c hp hslot hplace hread hop hf hsz hroom he hc
    obtain ⟨h2, hexec⟩ := exec_plainCopies (s := s) (d := d) (a := a) hq
    have hrun := run_copyInstr ⟨hp, hslot, hplace, hread, hop, hf, hsz, hroom⟩ (acceptance_plain (x := x) (dcs := dcs) h2 he)
    rw [← hexec, ← hc] at hrun
    refine ⟨fun caps t h => ?_, fun ti t h => ?_⟩
    · rw [hrun, entered_passes h, List.nil_append]
    · rw [hrun, entered_fails _ h]
  · intro s u v e d a x dcs lcs bad c hp hslot hplace hread hop hf hsz hroom hlay he
    have hd : Described s u d a 2 x dcs := ⟨hp, hslot, hplace, hread, hop, hf, hsz, hroom⟩
    refine ⟨fun caps t hb h => ?_, fun ti t hb h => ?_, fun ti hb => ?_⟩
    · subst hb
      exact (run_copyInstr hd (acceptance_laid hlay he)).trans (by rw [entered_passes h])
    · subst hb
      exact (run_copyInstr hd (acceptance_laid hlay he)).trans (by rw [entered_fails _ h])
    · subst hb
      exact run_copyInstr hd (acceptance_notLaid hlay he)
  · intro q hq s d a hp h14
    rw [exec_copies hq]
    exact copyInstr_outside hp h14

/-! ## DRAIN (R142) -/

variable {path : Num2}

/-- A copy that DRAIN of a path waits for. -/
def Awaited (s : State) (path : Num2) (c : Copy) : Prop :=
  c.slot = s.cur.slot ∧ c.accepted = true ∧ pathOf c.dst = path.toNat ∧ c.st ≠ .done

theorem drainAwaits_iff (s : State) (path : Num2) :
    (s.myCore.copies.any fun c => decide (c.slot = s.cur.slot) && c.accepted && decide (pathOf c.dst = path.toNat) && decide (c.st ≠ .done)) = true ↔
      ∃ c ∈ s.myCore.copies, Awaited s path c := by
  simp only [List.any_eq_true, Bool.and_eq_true, decide_eq_true_eq, Awaited, and_assoc]

theorem drainStores_iff (t : State) (path : Num2) :
    (t.myCore.sb.any fun e => decide (e.uid = t.me.uid) && e.targets.any fun x => decide (targetPath x = path.toNat)) = true ↔
      ∃ e ∈ t.myCore.sb, e.uid = t.me.uid ∧ ∃ x ∈ e.targets, targetPath x = path.toNat := by
  simp only [List.any_eq_true, Bool.and_eq_true, decide_eq_true_eq]

theorem drain_waits (h : s.isFull (ctrlLoc s.cur.core (32 * s.cur.slot)) = true ∨ ∃ c ∈ s.myCore.copies, Awaited s path c) :
    drain path s = .error (.wait (.blocked false)) s := by
  by_cases hf : s.isFull (ctrlLoc s.cur.core (32 * s.cur.slot)) = true
  · simp only [drain, M.bind_apply, M.get_apply, if_pos hf, block_apply]
  · have hc := (drainAwaits_iff s path).mpr (h.resolve_left hf)
    simp only [drain, M.bind_apply, M.get_apply, if_neg hf, if_pos hc, block_apply]

section
variable (hf : s.isFull (ctrlLoc s.cur.core (32 * s.cur.slot)) = false) (hc : ¬∃ c ∈ s.myCore.copies, Awaited s path c)
include hf hc

theorem drain_stores (h : ∃ e ∈ (s.performSlot s.cur.core s.cur.slot).myCore.sb, e.uid = (s.performSlot s.cur.core s.cur.slot).me.uid ∧
    ∃ x ∈ e.targets, targetPath x = path.toNat) :
    drain path s = .error (.wait (.blocked false)) (s.performSlot s.cur.core s.cur.slot) := by
  have hf' : ¬s.isFull (ctrlLoc s.cur.core (32 * s.cur.slot)) = true := by simp [hf]
  have hc' := mt (drainAwaits_iff s path).mp hc
  simp only [drain, M.bind_apply, M.get_apply, if_neg hf', if_neg hc', M.modify_apply, if_pos ((drainStores_iff _ path).mpr h), block_apply]

theorem drain_done (h : ¬∃ e ∈ (s.performSlot s.cur.core s.cur.slot).myCore.sb, e.uid = (s.performSlot s.cur.core s.cur.slot).me.uid ∧
    ∃ x ∈ e.targets, targetPath x = path.toNat) :
    drain path s = .ok .done (if path = 3 then (s.performSlot s.cur.core s.cur.slot).modMyCore (·.invalidateL1)
      else s.performSlot s.cur.core s.cur.slot) := by
  have hf' : ¬s.isFull (ctrlLoc s.cur.core (32 * s.cur.slot)) = true := by simp [hf]
  have hc' := mt (drainAwaits_iff s path).mp hc
  have hs' := mt (drainStores_iff (s.performSlot s.cur.core s.cur.slot) path).mp h
  by_cases hp : path = 3
  · simp only [drain, M.bind_apply, M.get_apply, if_neg hf', if_neg hc', M.modify_apply, if_neg hs', if_pos hp]
    rfl
  · simp only [drain, M.bind_apply, M.get_apply, if_neg hf', if_neg hc', M.modify_apply, if_neg hs', if_neg hp, M.pure_apply]

end

theorem drainClaim : Drain := by
  rintro s t path rfl
  have hcore : s.issue.cur = s.cur := s.issue_cur
  rw [← hcore]
  refine ⟨fun hf hc hs => ?_, fun h => ?_, fun hf hc hs => ?_⟩
  · have hc' : ¬∃ c ∈ s.issue.myCore.copies, Awaited s.issue path c := fun ⟨c, hm, h1, h2, h3, h4⟩ => h4 (hc c hm h1 h2 h3)
    exact run_done (drain_done hf hc' fun ⟨x, hm, hu, y, hy, hp⟩ => hs x hm hu y hy hp)
  · exact run_of_wait (drain_waits h)
  · have hc' : ¬∃ c ∈ s.issue.myCore.copies, Awaited s.issue path c := fun ⟨c, hm, h1, h2, h3, h4⟩ => h4 (hc c hm h1 h2 h3)
    exact run_of_wait (drain_stores hf hc' hs)

/-- Settles O29: an acceptance is what the shared one makes of the descriptor's copy, and DRAIN waits for what its path still holds. -/
theorem copiesAccepted : Obligations.CopiesAccepted := ⟨copyAcceptance, drainClaim⟩

end

end Sys2Proof.Machine
end

section
/-! The collective engine's steps, SEND, RECV and PKTSEND (R302 to R305). -/

-- One declaration after another: checked side by side, these take more threads than the memory of the check holds.
set_option Elab.async false

namespace Sys2Proof.Machine

open Sys2Proof.Claims

section
variable {s t u : State} {k op : Nat} {c : EngCmd} {ports : List Nat} {rs : List RxData}

/-! ## What has come (R303, R305) -/

/-- The failure of a transfer, with its port. -/
def failedFrom (p : Nat) (x : Option (Except Nat RxData)) : Option (Nat × Nat) :=
  match x with
  | some (.error code) => some (p, code)
  | _ => none

/-- A transfer that has come whole. -/
def wholeOf (x : Option (Except Nat RxData)) : Option RxData :=
  match x with
  | some (.ok r) => some r
  | _ => none

theorem failedFrom_eq_none {p : Nat} {x : Option (Except Nat RxData)} (h : ∀ code, x ≠ some (.error code)) : failedFrom p x = none := by
  rcases x with _ | (code | r)
  · rfl
  · exact absurd rfl (h code)
  · rfl

/-- The answer of `arrivals`, by the first failure. -/
def arrivalsBy (s : State) (c : EngCmd) (ports : List Nat) (x : Option (Nat × Nat)) : M (Except (Nat × Nat) (List RxData)) :=
  match x with
  | some x => return .error x
  | none => do
    require (ports.all fun p => (cameOn s c p).isSome)
    return .ok (ports.filterMap fun p => wholeOf (cameOn s c p))

theorem arrivals_apply (c : EngCmd) (ports : List Nat) (s : State) :
    arrivals c ports s = arrivalsBy s c ports ((c.tree.filter c.expects).findSome? fun p => failedFrom p (cameOn s c p)) s := rfl

theorem arrivals_come (h : HaveCome s c ports rs) : arrivals c ports s = .ok (.ok rs) s := by
  obtain ⟨hfail, hsome, hmap⟩ := h
  have hnone : (c.tree.filter c.expects).findSome? (fun p => failedFrom p (cameOn s c p)) = none := by
    rw [List.findSome?_eq_none_iff]
    intro p hp
    obtain ⟨htree, hexp⟩ := List.mem_filter.mp hp
    exact failedFrom_eq_none (hfail p htree hexp)
  have hall : (ports.all fun p => (cameOn s c p).isSome) = true := List.all_eq_true.mpr hsome
  have hrs : (ports.filterMap fun p => wholeOf (cameOn s c p)) = rs := by
    have hw : wholeOf ∘ (fun r => some (Except.ok r)) = (some : RxData → Option RxData) := rfl
    rw [show (fun p => wholeOf (cameOn s c p)) = wholeOf ∘ cameOn s c from rfl, ← List.filterMap_map, hmap, List.filterMap_map, hw, List.filterMap_some]
  rw [arrivals_apply, hnone]
  simp only [arrivalsBy, M.bind_apply, hall, require_true, M.pure_apply, hrs]

theorem arrivals_failed {p code : Nat} (h : FailedOn s c p code) (ports : List Nat) : arrivals c ports s = .ok (.error (p, code)) s := by
  obtain ⟨before, after, hsplit, hp, hbefore⟩ := h
  have hfind : (c.tree.filter c.expects).findSome? (fun p => failedFrom p (cameOn s c p)) = some (p, code) := by
    rw [hsplit, List.findSome?_append, List.findSome?_eq_none_iff.mpr fun x hx => failedFrom_eq_none (hbefore x hx), Option.none_or,
      List.findSome?_cons, hp]
    rfl
  rw [arrivals_apply, hfind]
  rfl

/-! ## A step of a collective (R303, R304) -/

/-- What a collective does with what has come. -/
def collectStep (k : Nat) (c : EngCmd) (go : List RxData → M Unit) (x : Except (Nat × Nat) (List RxData)) : M Unit :=
  match x with
  | .error x => modify (·.failCmd k c x.2 (some x.1))
  | .ok rs => go rs

theorem collective_eq (k op : Nat) : collective k op = (do
    let c ← cmdAt k 2 op
    require (!((← get).engCmds.take k).any fun d =>
      decide (d.engine = 2) && decide (cmdOpcode d.header ≤ 3) && decide (d.world = c.world) && decide (d.group = c.group))
    if c.aux = 0 then arrivals c c.children >>= collectStep k c (collectUp k c)
    else arrivals c [c.parent] >>= collectStep k c (collectDown k c)) := rfl

theorem collective_begins (hc : CommandAt s k 2 op c) (hg : GroupFirst s k c) : collective k op s =
    (if c.aux = 0 then arrivals c c.children >>= collectStep k c (collectUp k c)
      else arrivals c [c.parent] >>= collectStep k c (collectDown k c)) s := by
  have hfirst : (!(s.engCmds.take k).any fun d => decide (d.engine = 2) && decide (cmdOpcode d.header ≤ 3) && decide (d.world = c.world) &&
      decide (d.group = c.group)) = true := by
    rw [Bool.not_eq_true', List.any_eq_false]
    intro d hd hall
    simp only [Bool.and_eq_true, decide_eq_true_eq, and_assoc] at hall
    exact hg d hd hall
  rw [collective_eq, M.bind_apply, cmdAt_ok hc]
  simp only [M.bind_apply, M.get_apply, hfirst, require_true]

/-- An instruction of the three collectives, with its opcode. -/
abbrev IsCollective (q : (Nat → Instr) × Nat) : Prop := q ∈ [((.allreduce : Nat → Instr), 1), (.allgather, 2), (.reducescatter, 3)]

theorem exec_collective {q : (Nat → Instr) × Nat} (h : IsCollective q) : exec (q.1 k) s = event (collective k q.2) s := by
  simp only [IsCollective, List.mem_cons, List.not_mem_nil, or_false] at h
  rcases h with rfl | rfl | rfl <;> rfl

theorem collective_failed {p code : Nat} (hc : CommandAt s k 2 op c) (hg : GroupFirst s k c) (h : FailedOn s c p code) :
    collective k op s = .ok () (s.failCmd k c code (some p)) := by
  rw [collective_begins hc hg]
  by_cases ha : c.aux = 0
  · rw [if_pos ha, M.bind_apply, arrivals_failed h]
    rfl
  · rw [if_neg ha, M.bind_apply, arrivals_failed h]
    rfl

theorem collective_up (hc : CommandAt s k 2 op c) (hg : GroupFirst s k c) (ha : c.aux = 0) (h : HaveCome s c c.children rs) :
    collective k op s = collectUp k c rs s := by
  rw [collective_begins hc hg, if_pos ha, M.bind_apply, arrivals_come h]
  rfl

theorem collective_down (hc : CommandAt s k 2 op c) (hg : GroupFirst s k c) (ha : c.aux ≠ 0) (h : HaveCome s c [c.parent] rs) :
    collective k op s = collectDown k c rs s := by
  rw [collective_begins hc hg, if_neg ha, M.bind_apply, arrivals_come h]
  rfl

/-! ## Up the tree -/

/-- A contribution formed and sent up, or the root's result sent down and delivered. -/
def collectUpWith (k : Nat) (c : EngCmd) (rs : List RxData) (x : Except TrapInfo (List Byte)) : M Unit :=
  match x with
  | .error t => modify (·.failCmd k c t.cause.toNat none)
  | .ok own => do
    let up := c.up own (rs.map RxData.data)
    let out := if c.isRoot then c.down up else up
    let dests := if c.isRoot then c.children else [c.parent]
    let s0 ← get
    require (dests.all fun p => (s0.port p).sends s0.meridian)
    modify fun s => ((s.consume c c.children).chargeCmd c (pipsOf c.srcBytes)).sendAll c dests out
    if c.isRoot then deliver k c out else setCmd k { c with aux := 1 }

theorem collectUp_eq (k : Nat) (c : EngCmd) (rs : List RxData) : collectUp k c rs =
    if !framesMatch c rs (upLength c) then modify (·.failCmd k c mismatch none)
    else attempt (engineRead c.who (c.word 2) c.srcBytes) >>= collectUpWith k c rs := rfl

theorem collectUp_mismatch (h : framesMatch c rs (upLength c) = false) : collectUp k c rs s = .ok () (s.failCmd k c 0x42 none) := by
  simp only [collectUp_eq, h, Bool.not_false, if_true]
  rfl

theorem collectUp_reads (h : framesMatch c rs (upLength c) = true) :
    collectUp k c rs = attempt (engineRead c.who (c.word 2) c.srcBytes) >>= collectUpWith k c rs := by
  simp only [collectUp_eq, h, Bool.not_true, Bool.false_eq_true, if_false]

theorem collectUp_trap {ti : TrapInfo} (h : framesMatch c rs (upLength c) = true)
    (hr : engineRead c.who (c.word 2) c.srcBytes s = .error (.trap ti) u) : collectUp k c rs s = .ok () (u.failCmd k c ti.cause.toNat none) := by
  rw [collectUp_reads h, M.bind_apply, attempt_trap hr]
  rfl

/-- What leaves a device for some ports, once it has read its source. -/
def State.passedOn (u : State) (c : EngCmd) (dests : List Nat) (out : List Byte) : State :=
  ((u.consume c c.children).chargeCmd c (pipsOf c.srcBytes)).sendAll c dests out

theorem collectUp_sends {own out : List Byte} (h : framesMatch c rs (upLength c) = true) (hr : engineRead c.who (c.word 2) c.srcBytes s = .ok own u)
    (ho : out = c.up own (rs.map RxData.data)) (hroot : c.isRoot = false) (hs : (u.port c.parent).sends u.meridian = true) :
    collectUp k c rs s = .ok () (keptAt (u.passedOn c [c.parent] out) k { c with aux := 1 }) := by
  have hno : ¬c.isRoot = true := by simp [hroot]
  rw [collectUp_reads h, M.bind_apply, attempt_ok hr]
  simp only [collectUpWith, if_neg hno, M.bind_apply, M.get_apply, List.all_cons, List.all_nil, hs, Bool.and_true, require_true, M.modify_apply, ← ho]
  rfl

theorem collectUp_root {own out : List Byte} (h : framesMatch c rs (upLength c) = true) (hr : engineRead c.who (c.word 2) c.srcBytes s = .ok own u)
    (ho : out = c.up own (rs.map RxData.data)) (hroot : c.isRoot = true) (hs : ∀ p ∈ c.children, (u.port p).sends u.meridian = true) :
    collectUp k c rs s = deliver k c (c.down out) (u.passedOn c c.children (c.down out)) := by
  have hall : (c.children.all fun p => (u.port p).sends u.meridian) = true := List.all_eq_true.mpr hs
  rw [collectUp_reads h, M.bind_apply, attempt_ok hr]
  simp only [collectUpWith, if_pos hroot, M.bind_apply, M.get_apply, hall, require_true, M.modify_apply, ← ho]
  rfl

/-! ## Down the tree -/

/-- The result passed on to every child and written here. -/
def passDown (k : Nat) (c : EngCmd) (out : List Byte) : M Unit := do
  let s0 ← get
  require (c.children.all fun p => (s0.port p).sends s0.meridian)
  modify fun s => (s.consume c [c.parent]).sendAll c c.children out
  deliver k c out

theorem collectDown_eq (k : Nat) (c : EngCmd) (rs : List RxData) : collectDown k c rs =
    if !framesMatch c rs (downLength c) then modify (·.failCmd k c mismatch none) else passDown k c (rs.flatMap RxData.data) := by
  unfold collectDown downLength
  by_cases h2 : cmdOpcode c.header = 2
  · simp only [h2, if_true]
    rfl
  · simp only [if_neg h2]
    rfl

theorem collectDown_mismatch (h : framesMatch c rs (downLength c) = false) : collectDown k c rs s = .ok () (s.failCmd k c 0x42 none) := by
  simp only [collectDown_eq, h, Bool.not_false, if_true]
  rfl

theorem collectDown_delivers (h : framesMatch c rs (downLength c) = true) (hs : ∀ p ∈ c.children, (s.port p).sends s.meridian = true) :
    collectDown k c rs s =
      deliver k c (rs.flatMap RxData.data) ((s.consume c [c.parent]).sendAll c c.children (rs.flatMap RxData.data)) := by
  have hall : (c.children.all fun p => (s.port p).sends s.meridian) = true := List.all_eq_true.mpr hs
  simp only [collectDown_eq, h, Bool.not_true, Bool.false_eq_true, if_false, passDown, M.bind_apply, M.get_apply, hall, require_true, M.modify_apply]

theorem deliver_ok {r : List Byte} (hw : engineWrite c.who (c.word 3)
      (if cmdOpcode c.header = 3 then (r.drop (c.rank * c.dstBytes)).take c.dstBytes else r) (fun s => return s) s = .ok () t) :
    deliver k c r s = .ok () ((t.chargeCmd c (pipsOf c.dstBytes)).endCmd k c 0 (if cmdOpcode c.header = 1
      then fld c.header 0 28 else if cmdOpcode c.header = 2 then c.members * fld c.header 0 28 else fld c.header 0 28 / c.members)) := by
  simp only [deliver, M.bind_apply, attempt_ok hw, M.modify_apply]
  by_cases h1 : cmdOpcode c.header = 1
  · simp only [h1, if_true]
  · by_cases h2 : cmdOpcode c.header = 2
    · simp only [h2, if_true]
      rfl
    · simp only [if_neg h1, if_neg h2]

/-! ## SEND, RECV, PKTSEND (R302) -/

theorem firstOnPort_ok (h : PortFirst s k c) : firstOnPort k c s = .ok () s := by
  have hfirst : (!(s.engCmds.take k).any fun d => decide (d.engine = 2) && decide (cmdOpcode d.header = cmdOpcode c.header) &&
      decide (d.world = c.world) && decide (d.word 1 = c.word 1)) = true := by
    rw [Bool.not_eq_true', List.any_eq_false]
    intro d hd hall
    simp only [Bool.and_eq_true, decide_eq_true_eq, and_assoc] at hall
    exact h d hd hall
  simp only [firstOnPort, M.bind_apply, M.get_apply, hfirst, require_true]

theorem run_send {bs : List Byte} (hc : CommandAt s k 2 4 c) (hf : PortFirst s k c) (hs : (s.port (fld (c.word 1) 0 5)).sends s.meridian = true)
    (hr : engineRead c.who (c.word 2) (c.word 3).toNat s = .ok bs t) :
    exec (.send k) s = .next (((t.sendOn (fld (c.word 1) 0 5) c.world 0 c.group (c.frame (fld (c.word 1) 0 5) bs)).chargeCmd c
      (pipsOf bs.length)).endCmd k c 0 bs.length) := by
  have hsrc : c.srcBytes = (c.word 3).toNat := by
    rw [EngCmd.srcBytes, hc.2.2.1]
    rfl
  refine event_of_ok (m := sendData k) ?_
  simp only [sendData, M.bind_apply, cmdAt_ok hc, firstOnPort_ok hf, M.get_apply, hs, require_true, hsrc, attempt_ok hr, M.modify_apply]

theorem run_pktsend {bs : List Byte} (hc : CommandAt s k 2 6 c) (hs : (s.port (fld (c.word 1) 0 5)).sends s.meridian = true)
    (hr : engineRead c.who (c.word 2) 64 s = .ok bs t) :
    exec (.pktsend k) s = .next (((t.sendOn (fld (c.word 1) 0 5) c.world 1 0 bs).chargeCmd c 1).endCmd k c 0 1) := by
  refine event_of_ok (m := pktSend k) ?_
  simp only [pktSend, M.bind_apply, cmdAt_ok hc, M.get_apply, hs, require_true, attempt_ok hr, M.modify_apply]

section
variable {i p : Nat} {r : RxData} (hc : CommandAt s k 2 5 c) (hf : PortFirst s k c) (hp : p = fld (c.word 1) 0 5)
  (hfirst : (s.port p).firstSend c.world c.group = some (i, r))
include hc hf hp hfirst

theorem run_recv {bs : List Byte} (h0 : r.fail = 0) (hwhole : r.complete = true) (hlen : r.data.length = (c.word 3).toNat)
    (hbs : bs = r.data) (hw : engineWrite c.who (c.word 2) bs (fun s => return s) (s.modPort p (·.take i)) = .ok () t) :
    exec (.recv k) s = .next (((t.chargeCmd c (pipsOf r.data.length)).endCmd k c 0 r.data.length).flow p) := by
  subst hp hbs
  have hdst : ¬r.data.length ≠ c.dstBytes := by
    simp only [EngCmd.dstBytes, hc.2.2.1]
    exact fun hne => hne hlen
  refine event_of_ok (m := recvData k) ?_
  simp only [recvData, M.bind_apply, cmdAt_ok hc, firstOnPort_ok hf, M.get_apply, hfirst, hwhole, Bool.true_or, require_true, M.modify_apply,
    if_neg (show ¬r.fail ≠ 0 from fun hne => hne h0), if_neg hdst, attempt_ok hw]

theorem run_recv_mismatch (h0 : r.fail = 0) (hwhole : r.complete = true) (hlen : r.data.length ≠ (c.word 3).toNat) :
    exec (.recv k) s = .next (((s.modPort p (·.take i)).endCmd k c 0x42 0).flow p) := by
  subst hp
  have hdst : r.data.length ≠ c.dstBytes := by
    simp only [EngCmd.dstBytes, hc.2.2.1]
    exact hlen
  refine event_of_ok (m := recvData k) ?_
  simp only [recvData, M.bind_apply, cmdAt_ok hc, firstOnPort_ok hf, M.get_apply, hfirst, hwhole, Bool.true_or, require_true, M.modify_apply,
    if_neg (show ¬r.fail ≠ 0 from fun hne => hne h0), if_pos hdst]
  rfl

theorem run_recv_failed (h0 : r.fail ≠ 0) : exec (.recv k) s = .next (((s.modPort p (·.take i)).endCmd k c r.fail 0).flow p) := by
  subst hp
  have hmay : (r.complete || decide (r.fail ≠ 0)) = true := by simp [h0]
  refine event_of_ok (m := recvData k) ?_
  simp only [recvData, M.bind_apply, cmdAt_ok hc, firstOnPort_ok hf, M.get_apply, hfirst, hmay, require_true, M.modify_apply, if_pos h0]

end

theorem collectivesClaim : Collectives := by
  refine ⟨?_, ?_, ?_, ?_, ?_, ?_, ?_, ?_⟩
  · intro q hq s u t k c rs own out hc hg ha h hm hr ho
    have hup := collective_up hc hg ha h
    refine ⟨fun hroot hs => ?_, fun hroot hs hd => ?_⟩
    · rw [exec_collective hq, event_of_ok (hup.trans (collectUp_sends hm hr ho hroot hs))]
      rfl
    · rw [exec_collective hq, event_of_ok ((hup.trans (collectUp_root hm hr ho hroot hs)).trans hd)]
  · intro q hq s u k c rs hc hg ha h
    have hup := collective_up hc hg ha h
    refine ⟨fun hm => ?_, fun ti hm hr => ?_⟩
    · rw [exec_collective hq, event_of_ok (hup.trans (collectUp_mismatch hm))]
    · rw [exec_collective hq, event_of_ok (hup.trans (collectUp_trap hm hr))]
  · intro q hq s t k c rs hc hg ha h
    have hdown := collective_down hc hg ha h
    refine ⟨fun hm hs hd => ?_, fun hm => ?_⟩
    · rw [exec_collective hq, event_of_ok ((hdown.trans (collectDown_delivers hm hs)).trans hd)]
    · rw [exec_collective hq, event_of_ok (hdown.trans (collectDown_mismatch hm))]
  · intro q hq s k p code c hc hg h
    rw [exec_collective hq, event_of_ok (collective_failed hc hg h)]
  · intro s t k c r hw
    exact deliver_ok hw
  · intro s t k c bs hc hf hs hr
    exact run_send hc hf hs hr
  · intro s t k i p c r hc hf hp hfirst
    exact ⟨fun h0 hwhole hlen hw => run_recv hc hf hp hfirst h0 hwhole hlen rfl hw, fun h0 hwhole hlen =>
      run_recv_mismatch hc hf hp hfirst h0 hwhole hlen,
      fun h0 => run_recv_failed hc hf hp hfirst h0⟩
  · intro s t k c bs hc hs hr
    exact run_pktsend hc hs hr

end

end Sys2Proof.Machine
end

section
/-! Ecmar links: flits, flow control, generations and keys (R296 to R301, R305). -/

-- One declaration after another: checked side by side, these take more threads than the memory of the check holds.
set_option Elab.async false

namespace Sys2Proof.Machine

open Sys2Proof.Claims

section
variable {s t u : State} {p : Nat} {q r : Port}

/-! ## What keeps a fact about a port -/

theorem State.modPort_port_of_ne (s : State) {x y : Nat} (f : Port → Port) (h : x ≠ y) : (s.modPort x f).port y = s.port y :=
  Sparse.get_put_of_ne _ _ _ h

/-- A port whose link is down, with no live generation. -/
structure Port.IsDown (q : Port) : Prop where
  up : q.up = false
  rx0 : q.rx0.live = false
  rx1 : q.rx1.live = false
  tx0 : q.tx0.live = false
  tx1 : q.tx1.live = false

theorem Port.IsDown.of_same (h : q.IsDown) (hr : r = { r with up := q.up, rx0 := q.rx0, rx1 := q.rx1, tx0 := q.tx0, tx1 := q.tx1 }) : r.IsDown := by
  obtain ⟨h1, h2, h3, h4, h5⟩ := h
  rw [hr]
  exact ⟨h1, h2, h3, h4, h5⟩

/-- A port of a state is down. -/
abbrev LinkDown (s : State) (p : Nat) : Prop := (s.port p).IsDown

theorem LinkDown.modPort (h : LinkDown s p) {f : Port → Port} (hf : ∀ q, q.IsDown → (f q).IsDown) (x : Nat) : LinkDown (s.modPort x f) p := by
  by_cases hx : x = p
  · subst hx
    rw [LinkDown, State.modPort_port]
    exact hf _ h
  · rw [LinkDown, State.modPort_port_of_ne _ _ hx]
    exact h

/-- Flow control changes what a port holds back and what it has sent. -/
theorem flow_eq (s : State) (x : Nat) : ∃ b m, s.flow x = s.modPort x fun q => { q with held := b, sent := m } := ⟨_, _, rfl⟩

theorem LinkDown.flow (h : LinkDown s p) (x : Nat) : LinkDown (s.flow x) p := by
  obtain ⟨b, m, heq⟩ := flow_eq s x
  rw [heq]
  exact h.modPort (fun q hq => hq.of_same rfl) x

theorem Port.IsDown.post (h : q.IsDown) (x now : Nat) (bs : List Byte) : (q.post x now bs).IsDown := by
  rw [Port.post, if_pos (by rw [h.up]; rfl)]
  exact h

theorem Port.IsDown.endSeq (h : q.IsDown) (w g n : Nat) (lost owes : Bool) : (q.endSeq w g n lost owes).IsDown := h.of_same rfl

theorem deliverEngine_ports (s : State) (core n e : Nat) : (s.deliverEngine core n e).ports = s.ports := by
  unfold State.deliverEngine
  rfl

theorem endCmd_ports (s : State) (k : Nat) (c : EngCmd) (status v : Nat) : (s.endCmd k c status v).ports = s.ports := by
  unfold State.endCmd State.postResult
  dsimp only
  split_ifs
  · rw [deliverEngine_ports]
  · rfl

theorem endCmd_port (s : State) (k : Nat) (c : EngCmd) (status v x : Nat) : (s.endCmd k c status v).port x = s.port x := by
  rw [State.port, endCmd_ports, State.port]

theorem LinkDown.foldl {α : Type} {f : State → α → State} (hf : ∀ s x, LinkDown s p → LinkDown (f s x) p) (l : List α) (h : LinkDown s p) :
    LinkDown (l.foldl f s) p := by
  induction l generalizing s with
  | nil => exact h
  | cons x l ih => exact ih (hf s x h)

theorem LinkDown.failCmd (h : LinkDown s p) (k : Nat) (c : EngCmd) (code : Nat) (silent : Option Nat) : LinkDown (s.failCmd k c code silent) p := by
  have hend : LinkDown (s.endCmd k c code 0) p := by
    rw [LinkDown, endCmd_port]
    exact h
  unfold State.failCmd
  split_ifs
  · exact LinkDown.foldl (fun t x ht => (ht.modPort (fun q hq => (hq.endSeq _ _ _ _ _).post _ _ _) x).flow x) _ hend
  · exact hend

/-- The SEND that a RECV of a link that went down would have taken. -/
def Port.forsake (w g : Nat) (q : Port) : Port :=
  match q.firstSend w g with
  | some (i, _) => q.take i
  | none => q

/-- A command that waited on a link that went down, by its place. -/
def State.failAt (s : State) (p : Nat) (c : EngCmd) (i : Option Nat) : State :=
  match i with
  | none => s
  | some k =>
    if c.isTree then s.failCmd k c linkIsDown (some p)
    else (s.failCmd k c linkIsDown (some p)).modPort p (Port.forsake c.world c.group)

theorem failOn_eq (p : Nat) (s : State) (c : EngCmd) : State.failOn p s c = s.failAt p c (s.engCmds.findIdx? fun d => decide (d = c)) := rfl

theorem Port.IsDown.forsake (h : q.IsDown) (w g : Nat) : (q.forsake w g).IsDown := by
  unfold Port.forsake
  cases q.firstSend w g with
  | none => exact h
  | some x => exact h.of_same rfl

theorem LinkDown.failOn (h : LinkDown s p) (x : Nat) (c : EngCmd) : LinkDown (State.failOn x s c) p := by
  rw [failOn_eq]
  cases s.engCmds.findIdx? fun d => decide (d = c) with
  | none => exact h
  | some k =>
    have hf := h.failCmd k c linkIsDown (some x)
    unfold State.failAt
    dsimp only
    split_ifs
    · exact hf
    · exact hf.modPort (fun q hq => hq.forsake _ _) x

theorem linkDown_downLink (s : State) (p : Nat) : LinkDown (s.downLink p) p := by
  have hd : LinkDown (s.modPort p Port.downed) p := by
    rw [LinkDown, State.modPort_port]
    exact ⟨rfl, rfl, rfl, rfl, rfl⟩
  exact LinkDown.foldl (fun t c ht => ht.failOn p c) _ hd

/-! ## Flits received (R297, R298, R301) -/

section
variable {g : Nat} {fs : List Flit} {f : Flit} (hup : (s.port p).up = true) (hf : fs.head? = some f) (hk : flitKind f.header ≤ 2)
  (hg : g = flitGen f.header)
include hup hf hk hg

theorem run_flitReceive_opens (hgood : ((s.port p).rxGen g).good s.meridian = true) {parts : List (W64 × List Byte)}
    (ho : (s.port p).open_ g fs = some parts) : exec (.flitReceive p fs) s =
      .next (parts.foldl (fun u x => u.release p x) (s.modPort p fun q => q.setRx g { q.rxGen g with counter := (q.rxGen g).counter + 1 })) := by
  obtain ⟨rest, rfl⟩ := List.head?_eq_some_iff.mp hf
  subst hg
  refine event_of_ok (m := flitReceive p (f :: rest)) ?_
  simp only [flitReceive, M.bind_apply, M.get_apply, hup, require_true, if_neg (show ¬flitKind f.header ≥ 3 by omega), hgood, Bool.not_true,
    Bool.false_eq_true, if_false, ho, M.set_apply]

theorem run_flitReceive_unverified (hgood : ((s.port p).rxGen g).good s.meridian = true) (ho : (s.port p).open_ g fs = none) :
    exec (.flitReceive p fs) s = .next ((s.modPort p fun q => { q with discarded := q.discarded + 1 }).downLink p) := by
  obtain ⟨rest, rfl⟩ := List.head?_eq_some_iff.mp hf
  subst hg
  refine event_of_ok (m := flitReceive p (f :: rest)) ?_
  simp only [flitReceive, M.bind_apply, M.get_apply, hup, require_true, if_neg (show ¬flitKind f.header ≥ 3 by omega), hgood, Bool.not_true,
    Bool.false_eq_true, if_false, ho, M.set_apply]
  rfl

theorem run_flitReceive_retired (hgood : ((s.port p).rxGen g).good s.meridian = false) :
    exec (.flitReceive p fs) s = .next (fs.foldl (fun u x => u.dropRetired p x) s) := by
  obtain ⟨rest, rfl⟩ := List.head?_eq_some_iff.mp hf
  subst hg
  refine event_of_ok (m := flitReceive p (f :: rest)) ?_
  simp only [flitReceive, M.bind_apply, M.get_apply, hup, require_true, if_neg (show ¬flitKind f.header ≥ 3 by omega), hgood, Bool.not_false, if_true,
    M.set_apply]

end

theorem release_unbound {h : W64} {bs : List Byte} (hb : (s.port p).binding.getLsbD (flitWorld h) = false) (hk : flitKind h < 2) :
    s.release p (h, bs) = s.modPort p fun q => { q with discarded := q.discarded + 1 } := by
  have hcases : flitKind h = 0 ∨ flitKind h = 1 := by omega
  unfold State.release
  rcases hcases with h0 | h1
  · simp only [h0, hb, Bool.false_eq_true, if_false]
    rfl
  · simp only [h1, hb, Bool.false_eq_true, if_false]
    rfl

theorem release_bound {h : W64} {bs : List Byte} (hb : (s.port p).binding.getLsbD (flitWorld h) = true) :
    (flitKind h = 0 → s.release p (h, bs) = (s.join p (flitWorld h) (flitGroup h) (flitOffset h) bs).flow p) ∧
    (flitKind h = 1 → s.release p (h, bs) = (s.pktArrives p (flitWorld h) (flitOffset h) bs).flow p) := by
  refine ⟨fun h0 => ?_, fun h1 => ?_⟩
  · unfold State.release
    simp only [h0, hb, if_true]
  · unfold State.release
    simp only [h1, hb, if_true]

/-! ## Flow control (R296) -/

theorem flow_full (hup : (s.port p).up = true) (hh : (s.port p).held = false) (hn : 3 * Config.ingressBytes < 4 * s.ingress p) :
    s.flow p = s.modPort p fun q => { q with held := true, sent := q.sent ++ [⟨w64 (q.cur * 2 ^ 63 + 4 * 2 ^ 54), []⟩] } := by
  simp [State.flow, State.modPort, hup, hh, hn, bareFlit, flitHeader, boolNat]

theorem flow_under (hup : (s.port p).up = true) (hh : (s.port p).held = true) (hn : 4 * s.ingress p < Config.ingressBytes) :
    s.flow p = s.modPort p fun q => { q with held := false, sent := q.sent ++ [⟨w64 (q.cur * 2 ^ 63 + 5 * 2 ^ 54), []⟩] } := by
  simp [State.flow, State.modPort, hup, hh, hn, bareFlit, flitHeader, boolNat]

/-! ## PAUSE, RESUME, RETIRE, a link down -/

theorem run_pauseFlit (hup : (s.port p).up = true) : exec (.pauseFlit p) s = .next (s.modPort p fun q => { q with paused := true }) := by
  have hflush (q : Port) : ({ q with paused := true } : Port).flush p s.meridian = { q with paused := true } := by
    rw [Port.flush, if_neg (by simp [Port.sends])]
  refine event_of_ok (m := pauseLink p true) ?_
  simp only [pauseLink, M.bind_apply, M.get_apply, hup, require_true, M.modify_apply, State.setPaused, hflush]

theorem run_resumeFlit (hup : (s.port p).up = true) :
    exec (.resumeFlit p) s = .next (s.modPort p fun q => ({ q with paused := false } : Port).flush p s.meridian) := by
  refine event_of_ok (m := pauseLink p false) ?_
  simp only [pauseLink, M.bind_apply, M.get_apply, hup, require_true, M.modify_apply, State.setPaused]

theorem run_linkDown (hup : (s.port p).up = true) : exec (.linkDown p) s = .next (s.downLink p) := by
  refine event_of_ok (m := linkDown p) ?_
  simp only [linkDown, M.bind_apply, M.get_apply, hup, require_true, M.modify_apply]

theorem run_failureNotice (hup : (s.port p).up = true) (w g n code : Nat) :
    exec (.collectiveFailureNotice p w g n code) s = .next (s.notice p w g n code) := by
  refine event_of_ok (m := collectiveFailureNotice p w g n code) ?_
  simp only [collectiveFailureNotice, M.bind_apply, M.get_apply, hup, require_true, M.modify_apply]

/-- A receive generation retired. -/
def Port.retireGen (g : Nat) (q : Port) : Port := q.setRx g { q.rxGen g with live := false }

theorem run_retireFlit (hup : (s.port p).up = true) (g : Bool) :
    exec (.retireFlit p g) s = .next ((s.modPort p (Port.retireGen (boolNat g))).checkGens p) := by
  refine event_of_ok (m := retireFlit p g) ?_
  simp only [retireFlit, M.bind_apply, M.get_apply, hup, require_true, M.modify_apply]
  rfl

/-- A link with a live generation in each direction stays up. -/
theorem checkGens_stays (hrx : (s.port p).rx0.live = true ∨ (s.port p).rx1.live = true)
    (htx : (s.port p).tx0.live = true ∨ (s.port p).tx1.live = true) :
    s.checkGens p = s := by
  have hno : ¬((s.port p).up && ((!(s.port p).rx0.live && !(s.port p).rx1.live) || (!(s.port p).tx0.live && !(s.port p).tx1.live))) = true := by
    rcases hrx with h | h <;> rcases htx with h' | h' <;> simp [h, h']
  rw [State.checkGens, if_neg hno]

/-- A link left with no live generation to receive under goes down. -/
theorem checkGens_down (hup : (s.port p).up = true) (h0 : (s.port p).rx0.live = false) (h1 : (s.port p).rx1.live = false) : s.checkGens p =
    s.downLink p := by
  have hyes : ((s.port p).up && ((!(s.port p).rx0.live && !(s.port p).rx1.live) || (!(s.port p).tx0.live && !(s.port p).tx1.live))) = true := by
    simp [hup, h0, h1]
  rw [State.checkGens, if_pos hyes]

theorem run_retireFlit_stays (hup : (s.port p).up = true) (g : Bool) (hother : ((s.port p).rxGen (1 - boolNat g)).live = true)
    (htx : (s.port p).tx0.live = true ∨ (s.port p).tx1.live = true) :
    exec (.retireFlit p g) s = .next (s.modPort p (Port.retireGen (boolNat g))) := by
  rw [run_retireFlit hup, checkGens_stays]
  · rw [State.modPort_port]
    cases g with
    | false => exact .inr hother
    | true => exact .inl hother
  · rw [State.modPort_port]
    cases g <;> exact htx

theorem run_retireFlit_down (hup : (s.port p).up = true) (g : Bool) (hother : ((s.port p).rxGen (1 - boolNat g)).live = false) :
    exec (.retireFlit p g) s = .next ((s.modPort p (Port.retireGen (boolNat g))).downLink p) := by
  rw [run_retireFlit hup, checkGens_down]
  all_goals rw [State.modPort_port]
  · cases g <;> exact hup
  · cases g with
    | false => rfl
    | true => exact hother
  · cases g with
    | false => exact hother
    | true => rfl

theorem notice_fails {w g n code k : Nat} {c : EngCmd}
    (h : (s.modPort p fun q => { q with owed := q.owed.filter fun e => decide (e ≠ (w, g, n)) }).treeCmd p w g n = some (k, c)) :
    s.notice p w g n code =
      (s.modPort p fun q => { q with owed := q.owed.filter fun e => decide (e ≠ (w, g, n)) }).failCmd k c code (some p) := by
  unfold State.notice
  simp only [h]

/-! ## Links and their keys (R299 to R301) -/

theorem get_map_put {α : Type} (d : α) (f : Nat → α → α) (m : Sparse α) (k : Nat) (v : α) :
    Sparse.get d ((Sparse.put m k v).map fun e => (e.1, f e.1 e.2)) k = f k v := by
  induction m with
  | nil => simp [Sparse.put]
  | cons e rest ih =>
    rw [Sparse.put]
    split_ifs with hlt heq
    · simp
    · simp
    · rw [List.map_cons, Sparse.get, if_neg (fun h => heq h.symm), ih]

/-- A port just changed, after the bindings have been refreshed. -/
theorem refreshBindings_port (s : State) (p : Nat) (f : Port → Port) :
    (s.modPort p f).refreshBindings.port p = (f (s.port p)).refresh p s.meridian s.runMask :=
  get_map_put Port.init (fun n v => v.refresh n s.meridian s.runMask) s.ports p (f (s.port p))

theorem refresh_told {now : Nat} {own : BitVec 16} (h : q.told = own) (hup : q.up = true) :
    q.refresh p now own = { q.forget own with binding := own &&& q.peer } := by
  have hno : ¬(q.up && decide (q.told ≠ own)) = true := by simp [h]
  unfold Port.refresh
  simp only [if_neg hno, if_pos hup]

/-- A port whose link has come up with a peer that has proved itself. -/
def State.linked (s : State) (r : PeerReport) (q : Port) : Port :=
  { q.forget r.kept with
    up := true, paused := false, held := false, peer := r.worlds, told := s.runMask, peerPort := r.port, side := r.side, cur := 0
    rx0 := s.freshGen, rx1 := Gen.init, tx0 := { s.freshGen with key := s.freshGen.key + 1 }, tx1 := Gen.init, installedAt := s.meridian }

theorem linked_runs (s : State) (p : Nat) (r : PeerReport) :
    ({ s.modPort p (s.linked r) with keySerial := s.keySerial + 2 }.refreshBindings).port p =
      { (s.linked r (s.port p)).forget s.runMask with binding := s.runMask &&& r.worlds } :=
  (refreshBindings_port s p (s.linked r)).trans (refresh_told rfl rfl)

theorem run_linkUp {r : PeerReport} (hup : (s.port p).up = false) (hb : s.booted = true) (h0 : s.bootState = 0) (ha : r.authentic = true)
    (hg : r.bootGood = true) (hf : r.firmwareEqual = true) :
    exec (.linkUp p r) s = .next ({ s.modPort p (s.linked r) with keySerial := s.keySerial + 2 }.refreshBindings) := by
  refine event_of_ok (m := linkUp p r) ?_
  simp only [linkUp, M.bind_apply, M.get_apply, hup, hb, h0, ha, hg, hf, Bool.not_false, decide_true, Bool.and_self, require_true, M.set_apply]
  rfl

theorem run_linkUp_refused {r : PeerReport} (h : ¬(r.authentic = true ∧ r.bootGood = true ∧ r.firmwareEqual = true)) :
    exec (.linkUp p r) s = .next s := by
  have hno : (!(s.port p).up && s.booted && decide (s.bootState = 0) && r.authentic && r.bootGood && r.firmwareEqual) = false := by
    rw [Bool.eq_false_iff]
    intro hall
    simp only [Bool.and_eq_true] at hall
    exact h ⟨hall.1.1.2, hall.1.2, hall.2⟩
  change event (linkUp p r) s = _
  simp only [event, linkUp, M.bind_apply, M.get_apply, hno, require_false]

/-- What sending leaves of a port: its generations but for their counters, and what has been sent before. -/
structure Port.Sends (q r : Port) : Prop where
  cur : r.cur = q.cur
  rx : ∀ g, r.rxGen g = q.rxGen g
  live : ∀ g, (r.tx g).live = (q.tx g).live
  expiry : ∀ g, (r.tx g).expiry = (q.tx g).expiry
  sent : ∃ more, r.sent = q.sent ++ more

theorem Port.Sends.refl (q : Port) : q.Sends q := ⟨rfl, fun _ => rfl, fun _ => rfl, fun _ => rfl, [], (List.append_nil _).symm⟩

theorem Port.Sends.trans {v : Port} (h : q.Sends r) (k : r.Sends v) : q.Sends v := by
  obtain ⟨m, hm⟩ := h.sent
  obtain ⟨n, hn⟩ := k.sent
  exact ⟨k.cur.trans h.cur, fun g => (k.rx g).trans (h.rx g), fun g => (k.live g).trans (h.live g), fun g => (k.expiry g).trans (h.expiry g),
    m ++ n, by rw [hn, hm, List.append_assoc]⟩

theorem setTx_tx (q : Port) (v : Gen) {g h : Nat} : (q.setTx h v).tx g = if (g = 0 ↔ h = 0) then v else q.tx g := by
  unfold Port.setTx Port.tx
  by_cases hg : g = 0 <;> by_cases hh : h = 0 <;> simp [hg, hh]

theorem tx_of_iff {g h : Nat} (hgh : g = 0 ↔ h = 0) (q : Port) : q.tx g = q.tx h := by
  unfold Port.tx
  simp only [hgh]

theorem setTx_rxGen (q : Port) (v : Gen) (g h : Nat) : (q.setTx h v).rxGen g = q.rxGen g := by
  unfold Port.setTx
  split_ifs <;> rfl

theorem setTx_cur (q : Port) (v : Gen) (h : Nat) : (q.setTx h v).cur = q.cur := by
  unfold Port.setTx
  split_ifs <;> rfl

theorem Port.Sends.sendGroup (q : Port) (x w kind group off : Nat) (bs : List Byte) : q.Sends (q.sendGroup x w kind group off bs) := by
  have htx (g : Nat) : (q.sendGroup x w kind group off bs).tx g =
      if (g = 0 ↔ q.cur = 0) then { q.tx q.cur with counter := (q.tx q.cur).counter + 1 } else q.tx g := setTx_tx q _
  refine ⟨setTx_cur q _ _, fun g => setTx_rxGen q _ g _, fun g => ?_, fun g => ?_, _, rfl⟩
  all_goals
    rw [htx]
    split_ifs with hg
    · rw [tx_of_iff hg]
    · rfl

theorem Port.Sends.sendFrom (n : Nat) (q : Port) (x w kind group off : Nat) (bs : List Byte) : q.Sends (q.sendFrom n x w kind group off bs) := by
  induction n generalizing q off bs with
  | zero => exact .refl q
  | succ m ih =>
    rw [Port.sendFrom]
    split_ifs
    · exact .sendGroup q ..
    · exact (Port.Sends.sendGroup q ..).trans (ih ..)

theorem Port.Sends.sendEach (q : Port) (x : Nat) (l : List (List Byte)) : q.Sends (l.foldl (fun q bs => q.send x 0 2 0 bs) q) := by
  induction l generalizing q with
  | nil => exact .refl q
  | cons bs l ih => exact (Port.Sends.sendFrom _ q ..).trans (ih _)

theorem Port.Sends.flush (q : Port) (x now : Nat) : q.Sends (q.flush x now) := by
  unfold Port.flush
  split_ifs
  · exact Port.Sends.trans (r := { q with queued := [] }) ⟨rfl, fun _ => rfl, fun _ => rfl, fun _ => rfl, [], (List.append_nil _).symm⟩
      (Port.Sends.sendEach { q with queued := [] } x q.queued)
  · exact .refl q

/-- With nothing that waits, a flush sends nothing. -/
theorem flush_empty (h : q.queued = []) (x now : Nat) : (q.flush x now).sent = q.sent := by
  unfold Port.flush
  split_ifs
  · rw [h]
    rfl
  · rfl

/-- The other generation of a port taken into use, and the old one of the sender retired (R300). -/
def State.rotated (s : State) (q : Port) : Port :=
  let p1 := ((q.setRx (1 - q.cur) s.freshGen).setTx (1 - q.cur) { s.freshGen with key := s.freshGen.key + 1 }).setTx q.cur
    { q.tx q.cur with live := false }
  { p1 with sent := p1.sent ++ [bareFlit q.cur 3], cur := 1 - q.cur, installedAt := s.meridian }

theorem run_linkKeyRotation (hup : (s.port p).up = true) (hp : (s.port p).paused = false) (ht : (s.port p).installedAt + 600000000 ≤ s.meridian)
    (hrx : ((s.port p).rxGen (1 - (s.port p).cur)).live = false) (htx : ((s.port p).tx (1 - (s.port p).cur)).live = false) :
    exec (.linkKeyRotation p) s = .next { s.modPort p (fun q => (s.rotated q).flush p s.meridian) with keySerial := s.keySerial + 2 } := by
  have hcond : ((s.port p).up && !(s.port p).paused && decide ((s.port p).installedAt + rotationUs ≤ s.meridian) &&
      !((s.port p).rxGen (1 - (s.port p).cur)).live && !((s.port p).tx (1 - (s.port p).cur)).live) = true := by
    simp [hup, hp, hrx, htx, rotationUs, ht]
  refine event_of_ok (m := linkKeyRotation p) ?_
  simp only [linkKeyRotation, M.bind_apply, M.get_apply, hcond, require_true, M.set_apply]
  rfl

theorem setTx_queued (q : Port) (v : Gen) (h : Nat) : (q.setTx h v).queued = q.queued ∧ (q.setTx h v).sent = q.sent := by
  unfold Port.setTx
  split_ifs <;> exact ⟨rfl, rfl⟩

theorem setRx_queued (q : Port) (v : Gen) (h : Nat) : (q.setRx h v).queued = q.queued ∧ (q.setRx h v).sent = q.sent := by
  unfold Port.setRx
  split_ifs <;> exact ⟨rfl, rfl⟩

theorem setRx_rxGen (q : Port) (v : Gen) (h : Nat) : (q.setRx h v).rxGen h = v := by
  unfold Port.setRx Port.rxGen
  by_cases hh : h = 0 <;> simp [hh]

theorem rotated_gens (s : State) (hc : q.cur ≤ 1) : ((s.rotated q).tx (1 - q.cur)).live = true ∧ ((s.rotated q).rxGen (1 - q.cur)).live = true ∧
    ((s.rotated q).tx q.cur).live = false ∧ ((s.rotated q).tx (1 - q.cur)).expiry = s.meridian + 900000000 := by
  have hne : ¬(1 - q.cur = 0 ↔ q.cur = 0) := by omega
  have hnew : (s.rotated q).tx (1 - q.cur) = { s.freshGen with key := s.freshGen.key + 1 } := by
    change (((q.setRx (1 - q.cur) s.freshGen).setTx (1 - q.cur) _).setTx q.cur _).tx (1 - q.cur) = _
    rw [setTx_tx, if_neg hne, setTx_tx, if_pos Iff.rfl]
  have hold : (s.rotated q).tx q.cur = { q.tx q.cur with live := false } := by
    change (((q.setRx (1 - q.cur) s.freshGen).setTx (1 - q.cur) _).setTx q.cur _).tx q.cur = _
    rw [setTx_tx, if_pos Iff.rfl]
  have hrx : (s.rotated q).rxGen (1 - q.cur) = s.freshGen := by
    change (((q.setRx (1 - q.cur) s.freshGen).setTx (1 - q.cur) _).setTx q.cur _).rxGen (1 - q.cur) = _
    rw [setTx_rxGen, setTx_rxGen, setRx_rxGen]
  exact ⟨by rw [hnew]; rfl, by rw [hrx]; rfl, by rw [hold], by rw [hnew]; rfl⟩

theorem rotated_sent (s : State) (q : Port) : (s.rotated q).queued = q.queued ∧ (s.rotated q).sent = q.sent ++ [bareFlit q.cur 3] := by
  have h1 := setRx_queued q s.freshGen (1 - q.cur)
  have h2 := setTx_queued (q.setRx (1 - q.cur) s.freshGen) { s.freshGen with key := s.freshGen.key + 1 } (1 - q.cur)
  have h3 := setTx_queued ((q.setRx (1 - q.cur) s.freshGen).setTx (1 - q.cur) { s.freshGen with key := s.freshGen.key + 1 })
    { q.tx q.cur with live := false } q.cur
  refine ⟨(h3.1.trans h2.1).trans h1.1, ?_⟩
  exact congrArg (· ++ [bareFlit q.cur 3]) ((h3.2.trans h2.2).trans h1.2)

theorem linkRotates {n : Nat} (hup : (s.port p).up = true) (hp : (s.port p).paused = false) (ht : (s.port p).installedAt + 600000000 ≤ s.meridian)
    (hc : (s.port p).cur ≤ 1) (hn : n = 1 - (s.port p).cur) (hrx : ((s.port p).rxGen n).live = false) (htx : ((s.port p).tx n).live = false) :
    ∃ t more, exec (.linkKeyRotation p) s = .next t ∧ (t.port p).cur = n ∧ ((t.port p).tx n).live = true ∧
      ((t.port p).rxGen n).live = true ∧ ((t.port p).tx (1 - n)).live = false ∧ ((t.port p).tx n).expiry = s.meridian + 900000000 ∧
      (t.port p).sent = (s.port p).sent ++ ⟨w64 ((1 - n) * 2 ^ 63 + 3 * 2 ^ 54), []⟩ :: more ∧ ((s.port p).queued = [] → more = []) := by
  have hold : 1 - n = (s.port p).cur := by omega
  have hrun := run_linkKeyRotation hup hp ht (hn ▸ hrx) (hn ▸ htx)
  have hport : ({ s.modPort p (fun q => (s.rotated q).flush p s.meridian) with keySerial := s.keySerial + 2 } : State).port p =
      (s.rotated (s.port p)).flush p s.meridian := State.modPort_port s p fun q => (s.rotated q).flush p s.meridian
  have hsends := Port.Sends.flush (s.rotated (s.port p)) p s.meridian
  obtain ⟨more, hmore⟩ := hsends.sent
  obtain ⟨hq, hsent⟩ := rotated_sent s (s.port p)
  obtain ⟨hl, hr, ho, he⟩ := rotated_gens s hc
  have hflit : bareFlit (s.port p).cur 3 = ⟨w64 ((1 - n) * 2 ^ 63 + 3 * 2 ^ 54), []⟩ := by
    rw [hold]
    simp [bareFlit, flitHeader, boolNat]
  rw [hsent, hflit, List.append_assoc, List.singleton_append] at hmore
  refine ⟨_, more, hrun, ?_⟩
  rw [hport, hold]
  subst hn
  refine ⟨hsends.cur, (hsends.live _).trans hl, (congrArg Gen.live (hsends.rx _)).trans hr, (hsends.live _).trans ho, (hsends.expiry _).trans he, ?_,
    fun hempty => ?_⟩
  · rw [hmore, hold]
  · have hf := flush_empty (hq.trans hempty) p s.meridian
    rw [hmore, hsent, hflit] at hf
    simpa using hf

theorem linksClaim : Links := by
  refine ⟨?_, ?_, ?_, ?_, ?_, ?_, ?_, ?_, ?_, ?_⟩
  · intro s p g fs f hup hf hk hg
    exact ⟨fun hgood => ⟨fun parts ho => run_flitReceive_opens hup hf hk hg hgood ho, fun ho => run_flitReceive_unverified hup hf hk hg hgood ho⟩,
      fun hgood => run_flitReceive_retired hup hf hk hg hgood⟩
  · intro s p h bs hb hk
    exact release_unbound hb hk
  · intro s p h bs hb
    exact release_bound hb
  · intro s p hup
    exact ⟨fun hh hn => flow_full hup hh hn, fun hh hn => flow_under hup hh hn⟩
  · intro s p hup
    obtain ⟨h1, h2, h3, h4, h5⟩ := linkDown_downLink s p
    exact ⟨run_pauseFlit hup, run_resumeFlit hup, run_linkDown hup, h1, h2, h3, h4, h5, fun w g n code => run_failureNotice hup w g n code,
      fun g => ⟨fun hother htx => run_retireFlit_stays hup g hother htx, fun hother => run_retireFlit_down hup g hother⟩⟩
  · intro s p k w g n code c h
    exact notice_fails h
  · intro s p r hup hb h0 ha hg hf
    refine ⟨_, run_linkUp hup hb h0 ha hg hf, ?_⟩
    rw [linked_runs]
    exact ⟨rfl, rfl, rfl, rfl, rfl, rfl, (Nat.succ_ne_self _).symm, rfl⟩
  · intro s p r h
    exact run_linkUp_refused h
  · intro s p n hup hp ht hc hn hrx htx
    exact linkRotates hup hp ht hc hn hrx htx
  · intro s p rx g v hv hl he
    subst hv
    have hcond : ((if rx then (s.port p).rxGen (boolNat g) else (s.port p).tx (boolNat g)).live &&
        decide ((if rx then (s.port p).rxGen (boolNat g) else (s.port p).tx (boolNat g)).expiry ≤ s.meridian)) = true := by simp [hl, he]
    refine event_of_ok (m := linkKeyGenerationExpiry p rx g) ?_
    simp only [linkKeyGenerationExpiry, M.bind_apply, M.get_apply, hcond, require_true, M.set_apply]

end

end Sys2Proof.Machine
end

section
/-! The engines' commands complete where what they read and write passes (R241, R266, R302 to R304). -/

-- One declaration after another: checked side by side, these take more threads than the memory of the check holds.
set_option Elab.async false

namespace Sys2Proof.Machine

open Sys2Proof.Claims

section
variable {s t u v : State} {k : Nat} {c : EngCmd} {w : Who} {ea : W64}

/-! ## What an engine's steps leave of its commands -/

theorem endCmd_engCmds (s : State) (k : Nat) (c : EngCmd) (status x : Nat) : (s.endCmd k c status x).engCmds = s.engCmds.eraseIdx k := by
  unfold State.endCmd State.postResult
  dsimp only
  split_ifs <;> rfl

theorem splitPips_engCmds (s : State) (cix n : Nat) : (s.splitPips cix n).engCmds = s.engCmds := by
  obtain ⟨l, hl⟩ : ∃ l : List (Chain × Nat), s.splitPips cix n = l.foldl (fun t x => t.modWorld x.1.world (·.addMeter x.1.principal x.2)) s := ⟨_, rfl⟩
  rw [hl]
  clear hl
  induction l generalizing s with
  | nil => rfl
  | cons x l ih => exact ih _

theorem chargeCtx_engCmds (s : State) (core uid cix n : Nat) : (s.chargeCtx core uid cix n).engCmds = s.engCmds := by
  unfold State.chargeCtx
  split
  · rfl
  · split_ifs
    · rfl
    · exact splitPips_engCmds ..

theorem chargeCmd_engCmds (s : State) (c : EngCmd) (n : Nat) : (s.chargeCmd c n).engCmds = s.engCmds := chargeCtx_engCmds ..

theorem chargeCmdCaps_engCmds (s : State) (c : EngCmd) (caps : List Cap) : (s.chargeCmdCaps c caps).engCmds = s.engCmds := by
  unfold State.chargeCmdCaps State.chargeCtxCaps
  generalize (caps.map fun x => (x.id, x.charge)).eraseDups = l
  induction l generalizing s with
  | nil => rfl
  | cons x l ih => exact (ih _).trans (chargeCtx_engCmds ..)

theorem Alike.engCmds (e : Alike w s t) : t.engCmds = s.engCmds := by rw [e.touched.device]
theorem Alike.ports (e : Alike w s t) : t.ports = s.ports := by rw [e.touched.device]
theorem Alike.banks (e : Alike w s t) : t.banks = s.banks := by rw [e.touched.device]

theorem noneReserved_of_banks (h : t.banks = s.banks) (hn : NoneReserved s) : NoneReserved t := fun loc => by
  rw [State.bank, h]
  exact hn loc

/-- A place that is kept among the commands. -/
theorem keptAt_getElem (h : s.engCmds[k]? = some c) (ht : t.engCmds = s.engCmds) (x : EngCmd) : (keptAt t k x).engCmds[k]? = some x := by
  change (t.engCmds.set k x)[k]? = some x
  obtain ⟨hlt, -⟩ := List.getElem?_eq_some_iff.mp h
  rw [ht, List.getElem?_set_self hlt]

/-! ## What sending and receiving leave: all but the ports -/

/-- Nothing but the ports has changed. -/
def PortsOnly (s t : State) : Prop := t = { s with ports := t.ports }

namespace PortsOnly

theorem refl (s : State) : PortsOnly s s := rfl

theorem trans (h : PortsOnly s t) (k : PortsOnly t u) : PortsOnly s u := by
  rw [PortsOnly] at h k ⊢
  rw [h] at k
  exact k

theorem modPort (s : State) (p : Nat) (f : Port → Port) : PortsOnly s (s.modPort p f) := rfl
theorem flow (s : State) (p : Nat) : PortsOnly s (s.flow p) := rfl

theorem foldl {α : Type} {f : State → α → State} (hf : ∀ s x, PortsOnly s (f s x)) (l : List α) (s : State) : PortsOnly s (l.foldl f s) := by
  induction l generalizing s with
  | nil => exact refl s
  | cons x l ih => exact (hf s x).trans (ih _)

theorem sendAll (s : State) (c : EngCmd) (ports : List Nat) (bs : List Byte) : PortsOnly s (s.sendAll c ports bs) :=
  foldl (fun _ _ => modPort ..) ports s

theorem consume (s : State) (c : EngCmd) (ports : List Nat) : PortsOnly s (s.consume c ports) :=
  foldl (fun _ _ => (modPort ..).trans (flow ..)) ports s

theorem engCmds (h : PortsOnly s t) : t.engCmds = s.engCmds := by rw [h]
theorem banks (h : PortsOnly s t) : t.banks = s.banks := by rw [h]

theorem checks (h : PortsOnly s t) (w : Who) : ChecksKept w s t := by
  rw [h]
  exact { ChecksKept.refl w s with }

theorem steady (h : PortsOnly s t) (w : Who) : Steady w s t := (h.checks w).steady (by rw [h])

end PortsOnly

/-! ## An engine's write (R99) -/

/-- The pieces of an engine's write performed. -/
def State.wroteAll (s : State) (w : Who) (ps : List (W64 × Place × Cap × List Byte)) : State :=
  ps.foldl (fun t x => t.performWrite w.core 0 w.world (fun _ => x.2.1.pin) (cellsAt x.2.1.loc x.2.2.2)) s

theorem wroteAll_engCmds (s : State) (w : Who) (ps : List (W64 × Place × Cap × List Byte)) : (s.wroteAll w ps).engCmds = s.engCmds := by
  unfold State.wroteAll
  induction ps generalizing s with
  | nil => rfl
  | cons x ps ih =>
    refine (ih _).trans ?_
    obtain ⟨_, _, _, _, _, h⟩ := s.performWrite_frame w.core 0 w.world (fun _ => x.2.1.pin) (cellsAt x.2.1.loc x.2.2.2)
    exact (congrArg State.engCmds h).trans rfl

/-- A write all of whose pieces pass, while no word is reserved. -/
theorem engineWrite_passes {bs : List Byte} (hn : NoneReserved s) (h : AllPass s w 1 .write [(ea, bs.length)]) :
    ∃ t, engineWrite w ea bs (fun s => return s) s = .ok () t ∧ t.engCmds = s.engCmds := by
  obtain ⟨ps, u, hu, e, hps⟩ := writePieces_passes (spans := [(ea, bs)]) h
  obtain ⟨v, hv, ev⟩ : ∃ v, (ps.forM fun x => if (decide (x.2.1.space = .hbm) && decide (x.2.2.2.length ≠ 64)) = true then
      lineIn w (x.2.1.loc / 64) x.2.1.pin x.1 else pure ()) u = .ok () v ∧ Alike w u v := by
    refine forM_alike ps fun x hx y ey => ?_
    split
    · next hc =>
      have hs : x.2.1.space = .hbm := of_decide_eq_true (Bool.and_eq_true_iff.1 hc).1
      have hpl := ey.steady _ _ _ (hps x hx)
      exact lineIn_passes x.2.1.pin x.1 (isHbm_base (hpl.honest hs)) (hpl.2.2.2 hs)
    · exact ⟨y, rfl, .refl w y⟩
  have ea' := e.trans ev
  refine ⟨v.wroteAll w ps, ?_, (wroteAll_engCmds v w ps).trans ea'.engCmds⟩
  have hfree := busyWord_none (noneReserved_of_banks ea'.banks hn)
  simp only [engineWrite, M.bind_apply, hu, hv, M.get_apply, hfree, Option.isSome_none, Bool.false_eq_true, if_false, M.pure_apply, M.set_apply]
  rfl

/-- The same from a state in which the checks pass as before. -/
theorem engineWrite_passes_of (hst : Steady w s t) (hb : t.banks = s.banks) (he : t.engCmds = s.engCmds) {bs : List Byte} {n : Nat}
    (hlen : bs.length = n)
    (hn : NoneReserved s) (h : AllPass s w 1 .write [(ea, n)]) : ∃ u, engineWrite w ea bs (fun s => return s) t = .ok () u ∧ u.engCmds = s.engCmds := by
  obtain ⟨u, hu, hcmds⟩ := engineWrite_passes (noneReserved_of_banks hb hn) (hst.allPass (hlen ▸ h))
  exact ⟨u, hu, hcmds.trans he⟩

/-! ## GATHER and MERGE_PAGES (R241, R266) -/

theorem cutLines_sum {f : Nat} {ea : W64} {n : Nat} (hal : ea.toNat % 64 = 0) (hf : n ≤ 64 * f) : ((cutLines f ea n).map Prod.snd).sum = n := by
  induction f generalizing ea n with
  | zero =>
    obtain rfl : n = 0 := by omega
    rfl
  | succ f ih =>
    rw [cutLines]
    split_ifs with h0
    · exact h0.symm
    · have hnext : (ea + w64 (min n (64 - ea.toNat % 64))).toNat % 64 = 0 ∨ n ≤ 64 := by
        rw [hal, Nat.sub_zero]
        rcases Nat.lt_or_ge 64 n with hlt | hle
        · left
          rw [Nat.min_eq_right hlt.le, BitVec.toNat_add, w64, BitVec.toNat_ofNat]
          omega
        · exact .inr hle
      rw [List.map_cons, List.sum_cons]
      rcases hnext with hnext | hle
      · rw [ih hnext (by omega)]
        omega
      · have hk : n - min n (64 - ea.toNat % 64) = 0 := by omega
        rw [hk]
        cases f with
        | zero => simp only [cutLines, List.map_nil, List.sum_nil]; omega
        | succ f => simp only [cutLines, if_true, List.map_nil, List.sum_nil]; omega

/-- A span is cut into pieces that hold it whole. -/
theorem spanPieces_sum (ea : W64) (n : Nat) : ((spanPieces ea n).map Prod.snd).sum = n := by
  rw [spanPieces, cutLines]
  split_ifs with h0
  · exact h0.symm
  · rw [List.map_cons, List.sum_cons]
    rcases Nat.lt_or_ge (64 - ea.toNat % 64) n with hlt | hle
    · have hal : (ea + w64 (min n (64 - ea.toNat % 64))).toNat % 64 = 0 := by
        rw [Nat.min_eq_right hlt.le, BitVec.toNat_add, w64, BitVec.toNat_ofNat]
        omega
      rw [cutLines_sum hal (by omega)]
      omega
    · have hk : n - min n (64 - ea.toNat % 64) = 0 := by omega
      rw [hk, cutLines, if_pos rfl, List.map_nil, List.sum_nil]
      omega

/-- A read that passes sees as many bytes as it asks for. -/
theorem seen_length (get : Nat → Byte) {n : Nat} (h : AllPass s w 1 .read [(ea, n)]) : (seen s w get ea n).length = n := by
  have hp : ∀ p ∈ spanPieces ea n, ∃ pl, Passes s w p.1 .read pl := fun p hp => (h _ (List.mem_singleton.mpr rfl) p hp).2
  conv_rhs => rw [← spanPieces_sum ea n]
  unfold seen seenIn
  rw [List.length_flatMap]
  refine congrArg List.sum (List.map_congr_left fun p hmem => ?_)
  obtain ⟨pl, hst, -⟩ := hp p hmem
  rw [hst.locate]
  simp only [List.length_map, List.length_range]

theorem gather_completes {idx len : Nat} (hc : CommandAt s k 3 1 c) (hn : NoneReserved s)
    (hi : AllPass s c.who 1 .read [(c.word 3 + w64 (4 * c.done), 4)])
    (hidx : idx = leToNat (seen s c.who s.byte (c.word 3 + w64 (4 * c.done)) 4)) (h31 : idx < 2 ^ 31) (hlt : idx < (c.word 5).toNat)
    (hlen : len = (c.word 6).toNat) (hr : AllPass s c.who 1 .read [(c.word 4 + w64 (idx * (c.word 7).toNat), len)])
    (hw : AllPass s c.who 1 .write [(c.word 2 + w64 (c.done * len), len)]) :
    ∃ t, exec (.gather k) s = .next t ∧ (c.done + 1 = fld c.header 0 32 → t.engCmds = s.engCmds.eraseIdx k) ∧
      (c.done + 1 ≠ fld c.header 0 32 → ∃ x, t.engCmds[k]? = some x ∧ x.done = c.done + 1) := by
  subst hidx hlen
  obtain ⟨u, hu, eu⟩ := engineRead_passes hi
  obtain ⟨caps, v, hv, ev⟩ := engineSpan_passes (eu.steady.allPass hr)
  have e := eu.trans ev
  obtain ⟨x, hx, hcmds⟩ := engineWrite_passes_of e.steady e.banks e.engCmds (seen_length _ (eu.steady.allPass hr)) hn hw
  have hrow := gatherRow_ok hu h31 hlt hv hx
  have hch := (chargeCmdCaps_engCmds x c (caps.filter fun x => !c.caps.contains x.id)).trans hcmds
  refine ⟨_, run_gather hc hrow rfl, fun hlast => ?_, fun hmore => ?_⟩
  · rw [if_pos hlast, endCmd_engCmds, hch]
  · rw [if_neg hmore]
    exact ⟨_, keptAt_getElem hc.1 hch _, rfl⟩

theorem mergePages_completes {h : SeqHeader} {ea : W64} {out : List Byte × Nat} (hc : CommandAt s k 1 1 c) (hfirst : EngineFirst s k 1)
    (hn : NoneReserved s)
    (hh : h = ⟨c.word 1, 0, 0, (c.word 2).toNat, (c.word 3).toNat⟩) (hea : ea = h.page (fld c.header 0 16 + c.done))
    (hin : ∀ pl v, locate c.who h.addr .read s = .ok pl v → v.insidePage pl.loc (fld c.header 0 16 + c.done) = false)
    (hr : AllPass s c.who 1 .read [(ea, h.pageBytes)])
    (ho : out = mergePage h.type h.width (Fmt.fp32.decode (s.world c.world).tau.toNat) (seen s c.who s.byte ea h.pageBytes))
    (hw : AllPass s c.who 1 .write [(ea, out.1.length)]) :
    ∃ t, exec (.mergePages k) s = .next t ∧ (c.done + 1 = c.count → t.engCmds = s.engCmds.eraseIdx k) ∧
      (c.done + 1 ≠ c.count → ∃ x, t.engCmds[k]? = some x ∧ x.done = c.done + 1) := by
  obtain ⟨u, hu, e⟩ := engineRead_passes hr
  obtain ⟨x, hx, hcmds⟩ := engineWrite_passes_of e.steady e.banks e.engCmds rfl hn hw
  have hch := (chargeCmd_engCmds x c (2 * pipsOf h.pageBytes)).trans hcmds
  refine ⟨_, run_mergePages hc hfirst hh hea hin hu ho hx, fun hlast => ?_, fun hmore => ?_⟩
  · rw [if_pos hlast, endCmd_engCmds, hch]
  · rw [if_neg hmore]
    exact ⟨_, keptAt_getElem hc.1 hch _, rfl⟩

/-! ## The collectives (R303, R304) -/

section
variable {q : (Nat → Instr) × Nat} {rs : List RxData} (hq : IsCollective q) (hc : CommandAt s k 2 q.2 c) (hg : GroupFirst s k c)
include hq hc hg

theorem collective_goesUp (ha : c.aux = 0) (hroot : c.isRoot = false) (h : HaveCome s c c.children rs) (hm : framesMatch c rs (upLength c) = true)
    (hr : AllPass s c.who 1 .read [(c.word 2, c.srcBytes)]) (hs : (s.port c.parent).sends s.meridian = true) :
    ∃ t, exec (q.1 k) s = .next t ∧ ∃ x, t.engCmds[k]? = some x ∧ x.aux = 1 ∧ x.words = c.words := by
  obtain ⟨u, hu, e⟩ := engineRead_passes hr
  have hs' : (u.port c.parent).sends u.meridian = true := by
    rw [State.port, e.ports, show u.meridian = s.meridian by rw [e.touched.device]]
    exact hs
  have hup := (collective_up hc hg ha h).trans (collectUp_sends hm hu rfl hroot hs')
  have hcmds : (u.passedOn c [c.parent] (c.up (seen s c.who s.byte (c.word 2) c.srcBytes) (rs.map RxData.data))).engCmds = s.engCmds :=
    (PortsOnly.sendAll ..).engCmds.trans ((chargeCmd_engCmds ..).trans ((PortsOnly.consume ..).engCmds.trans e.engCmds))
  exact ⟨_, (exec_collective hq).trans (event_of_ok hup), _, keptAt_getElem hc.1 hcmds _, rfl, rfl⟩

theorem collective_comesDown {out : List Byte} (ha : c.aux ≠ 0) (h : HaveCome s c [c.parent] rs) (hm : framesMatch c rs (downLength c) = true)
    (hs : ∀ p ∈ c.children, (s.port p).sends s.meridian = true) (hn : NoneReserved s)
    (ho : out = (if q.2 = 3 then ((rs.flatMap RxData.data).drop (c.rank * c.dstBytes)).take c.dstBytes else rs.flatMap RxData.data))
    (hw : AllPass s c.who 1 .write [(c.word 3, out.length)]) : ∃ t, exec (q.1 k) s = .next t ∧ t.engCmds = s.engCmds.eraseIdx k := by
  have hop : cmdOpcode c.header = q.2 := by
    obtain ⟨_, _, ho, _⟩ := hc
    exact ho
  have hports : PortsOnly s ((s.consume c [c.parent]).sendAll c c.children (rs.flatMap RxData.data)) :=
    (PortsOnly.consume ..).trans (PortsOnly.sendAll ..)
  obtain ⟨x, hx, hcmds⟩ := engineWrite_passes_of (hports.steady c.who) hports.banks hports.engCmds rfl hn hw
  have hdown := ((collective_down hc hg ha h).trans (collectDown_delivers hm hs)).trans (deliver_ok (t := x) (by rw [hop, ← ho]; exact hx))
  exact ⟨_, (exec_collective hq).trans (event_of_ok hdown), by rw [endCmd_engCmds, chargeCmd_engCmds, hcmds]⟩

end

/-! ## SEND, RECV, PKTSEND (R302) -/

theorem send_completes {p : Nat} (hp : p = fld (c.word 1) 0 5) (hc : CommandAt s k 2 4 c) (hf : PortFirst s k c)
    (hs : (s.port p).sends s.meridian = true) (hr : AllPass s c.who 1 .read [(c.word 2, (c.word 3).toNat)]) :
    ∃ t, exec (.send k) s = .next t ∧ t.engCmds = s.engCmds.eraseIdx k := by
  subst hp
  obtain ⟨u, hu, e⟩ := engineRead_passes hr
  refine ⟨_, run_send hc hf hs hu, ?_⟩
  rw [endCmd_engCmds, chargeCmd_engCmds]
  exact congrArg (·.eraseIdx k) e.engCmds

theorem recv_completes {p i : Nat} {r : RxData} (hp : p = fld (c.word 1) 0 5) (hc : CommandAt s k 2 5 c) (hf : PortFirst s k c)
    (hfirst : (s.port p).firstSend c.world c.group = some (i, r)) (h0 : r.fail = 0) (hwhole : r.complete = true)
    (hlen : r.data.length = (c.word 3).toNat) (hn : NoneReserved s) (hw : AllPass s c.who 1 .write [(c.word 2, r.data.length)]) :
    ∃ t, exec (.recv k) s = .next t ∧ t.engCmds = s.engCmds.eraseIdx k := by
  have hports := PortsOnly.modPort s p (·.take i)
  obtain ⟨x, hx, hcmds⟩ := engineWrite_passes_of (hports.steady c.who) hports.banks hports.engCmds rfl hn hw
  refine ⟨_, run_recv hc hf hp hfirst h0 hwhole hlen rfl hx, ?_⟩
  rw [(PortsOnly.flow ..).engCmds, endCmd_engCmds, chargeCmd_engCmds, hcmds]

theorem pktsend_completes {p : Nat} (hp : p = fld (c.word 1) 0 5) (hc : CommandAt s k 2 6 c) (hs : (s.port p).sends s.meridian = true)
    (hr : AllPass s c.who 1 .read [(c.word 2, 64)]) : ∃ t, exec (.pktsend k) s = .next t ∧ t.engCmds = s.engCmds.eraseIdx k := by
  subst hp
  obtain ⟨u, hu, e⟩ := engineRead_passes hr
  refine ⟨_, run_pktsend hc hs hu, ?_⟩
  rw [endCmd_engCmds, chargeCmd_engCmds]
  exact congrArg (·.eraseIdx k) e.engCmds

theorem engineCommandsComplete : EngineCommandsComplete := by
  refine ⟨?_, ?_, ?_, ?_, ?_⟩
  · intro s k idx len c hc hn hi hidx h31 hlt hlen hr hw
    exact gather_completes hc hn hi hidx h31 hlt hlen hr hw
  · intro s k c h ea out hc hfirst hn hh hea hin hr ho hw
    exact mergePages_completes hc hfirst hn hh hea hin hr ho hw
  · intro q hq s k c rs hc hg ha hroot h hm hr hs
    exact collective_goesUp hq hc hg ha hroot h hm hr hs
  · intro q hq s k c rs out hc hg ha h hm hs hn ho hw
    exact collective_comesDown hq hc hg ha h hm hs hn ho hw
  · intro s k p c hp
    exact ⟨fun hc hf hs hr => send_completes hp hc hf hs hr,
      fun i r hc hf hfirst h0 hwhole hlen hn hw => recv_completes hp hc hf hfirst h0 hwhole hlen hn hw, fun hc hs hr => pktsend_completes hp hc hs hr⟩

/-- Settles O40: the collective engine's steps and the links' events are traced; a command completes since what passes before it passes still once its
engine has read and its ports have changed. -/
theorem collectivesAndLinks : Obligations.CollectivesAndLinks := ⟨collectivesClaim, linksClaim, engineCommandsComplete⟩

end

end Sys2Proof.Machine
end

section
/-! A CPYSKIP in a slot whose record still says that it waits in STOP (R97, R141, R284): what the statement asks of its pc, and the model does not
give. -/

-- One declaration after another: checked side by side, these take more threads than the memory of the check holds.
set_option Elab.async false

namespace Sys2Proof.Machine

open Sys2Proof.Claims

/-- A CPYL whose context has gone from its slot, held since its layout record could not be read: its address is not aligned. -/
def heldLayout : Copy :=
  { slot := 0, uid := 9, chain := 0, world := 2, op := 2, msg := false, bar := none, tag := 0, src := 1, dst := 0, laid := false, first := 0, lost := []
    base := 0, rows := 1, rowBytes := 0, srcPitch := 0, dstPitch := 0, runs := [], pips := 0, accepted := false, row := 0, byte := 0, left := 0
    holes := [], fail := 0, written := 0, status := 0, st := .held }

/-- The supervisor slot of a core that holds this copy, with a STOP in its record that a record queued to it would end. -/
def skipping : State :=
  (({ State.reset.withWords [] with cur := ⟨0, 15, 4, none⟩ } : State).modMyCore fun k => { k with copies := [heldLayout] }).modMe fun sl =>
    { sl with waiting := .stop 4 }

/-- The pc of the supervisor slot after CPYSKIP. -/
def pcAfterSkip : Option W64 :=
  match exec (.cpyskip 0) skipping with
  | .next t => some t.me.pc
  | _ => none

/-- The acceptance made again fails, its record goes to the supervisor alone, and the record moves the pc of the slot that runs CPYSKIP. -/
theorem pcAfterSkip_ne : pcAfterSkip ≠ some skipping.behind := by decide +kernel

/-- Refutes O30: a CPYSKIP whose acceptance fails again queues a record to the supervisor, whose STOP the record ends. In a state in which the very
slot that runs CPYSKIP is recorded as waiting in STOP, that moves its pc, and CPYSKIP completes one instruction further on than the statement asks. -/
theorem not_copiesRun : ¬ Obligations.CopiesRun := by
  rintro ⟨-, ⟨hheld, -⟩, -⟩
  have hold : OldestHeld skipping.issue (skipping.src 0) 0 heldLayout := by
    refine ⟨by decide +kernel, by decide +kernel, by decide +kernel, by decide +kernel, rfl, by decide +kernel, by decide +kernel, ?_⟩
    simp
  obtain ⟨-, -, -, -, -, -, -, hskip⟩ := hheld skipping 0 0 heldLayout (by decide +kernel) rfl hold
  obtain ⟨t, hexec, hpc, -⟩ := hskip rfl
  refine pcAfterSkip_ne ?_
  rw [pcAfterSkip, hexec]
  exact congrArg some hpc

end Sys2Proof.Machine
end
